-- ==== Sys2Proof/Word.lean ====
section
/-! DEFINITION.  The words of the machine: the sparse tables the state is made of and the
initiators of accesses.  Registers are kept as natural numbers bounded by their width (see
`Machine/State.lean`); memory bytes are `BitVec 8`. -/

namespace Sys2Proof

/-- A byte of memory. -/
abbrev Byte := BitVec 8

/-- A 32-bit register word (R4). -/
abbrev Word := BitVec 32

/-- A 40-bit physical address (R30). -/
abbrev PAddr := BitVec 40

/-- A sparse table: (key, value) pairs with keys strictly rising; a key that is not listed has the
table's default value, and no entry holds that value. -/
abbrev Tbl (α : Type) := List (Nat × α)

/-- The initiators of accesses, each with the code SYS_ERRINFO.INIT records (chapter 3, SYS
registers). -/
inductive Init where
  | sgc (n : Fin 64)   -- signal core n
  | svc (n : Fin 4)    -- supervisor core n
  | host               -- the PCIe host
  | dbg                -- the debug port
  | dma (n : Fin 32)   -- DMA channel n
  | cpg                -- the context pager
  | cwy                -- CWY on its own behalf
  | pke                -- the packet engine
  | racc               -- a remote access over Causeway
  | tdx                -- the TDM highway interface
  deriving DecidableEq, Repr

end Sys2Proof
end

