-- ==== Sys2Proof/Machine/Bits.lean ====
section
/-! DEFINITION.  Bit fields, signed views and saturating counters over natural numbers. -/

namespace Sys2Proof.Machine

/-- Bits [hi:lo] of a number. -/
def bits (v hi lo : Nat) : Nat := v / 2 ^ lo % 2 ^ (hi + 1 - lo)

/-- Bit k of a number, as 0 or 1. -/
def bitN (v k : Nat) : Nat := v / 2 ^ k % 2

/-- Bit k of a number. -/
def bitOf (v k : Nat) : Bool := v / 2 ^ k % 2 == 1

/-- The number with bit k set. -/
def setBit (v k : Nat) : Nat := if bitOf v k then v else v + 2 ^ k

/-- The number with bit k cleared. -/
def clrBit (v k : Nat) : Nat := if bitOf v k then v - 2 ^ k else v

/-- The number with bit k equal to b. -/
def putBit (v k : Nat) (b : Bool) : Nat := if b then setBit v k else clrBit v k

/-- The number with bits [hi:lo] replaced by the low bits of x. -/
def putField (v hi lo x : Nat) : Nat := v - bits v hi lo * 2 ^ lo + x % 2 ^ (hi + 1 - lo) * 2 ^ lo

/-- 1 for true, 0 for false. -/
def b2n (b : Bool) : Nat := if b then 1 else 0

/-- A w-bit number read as two's complement. -/
def signedOf (w v : Nat) : Int :=
  let u := v % 2 ^ w
  if u < 2 ^ (w - 1) then (u : Int) else (u : Int) - (2 ^ w : Nat)

/-- An integer narrowed to w bits of two's complement. -/
def ofInt (w : Nat) (i : Int) : Nat := (i % (2 ^ w : Nat)).toNat

/-- The integer clamped to the range of a w-bit two's complement number. -/
def clampS (w : Nat) (i : Int) : Int :=
  let hi : Int := (2 ^ (w - 1) : Nat) - 1
  let lo : Int := -((2 ^ (w - 1) : Nat) : Int)
  if i > hi then hi else if i < lo then lo else i

/-- Does an integer fit in w bits of two's complement. -/
def fitsS (w : Nat) (i : Int) : Bool := clampS w i == i

/-- The difference a − b of two 32-bit time values, as a signed 32-bit value (R20). -/
def diff32 (a b : Nat) : Int := signedOf 32 (a % 2 ^ 32 + 2 ^ 32 - b % 2 ^ 32)

/-- The number of ones among the low n bits. -/
def popcount : Nat → Nat → Nat
  | 0, _ => 0
  | n + 1, v => v % 2 + popcount n (v / 2)

/-- Bytes of a number, least significant first. -/
def leBytes : Nat → Nat → List Byte
  | 0, _ => []
  | n + 1, v => BitVec.ofNat 8 v :: leBytes n (v / 256)

/-- The number whose bytes, least significant first, are given. -/
def ofLE : List Byte → Nat
  | [] => 0
  | b :: r => b.toNat + 256 * ofLE r

/-- The number whose bytes, most significant first, are given (network byte order). -/
def ofBE (l : List Byte) : Nat := ofLE l.reverse

/-- Bytes of a number, most significant first (network byte order). -/
def beBytes (n v : Nat) : List Byte := (leBytes n v).reverse

/-- The low k bits of v in reverse order. -/
def revBits : Nat → Nat → Nat
  | 0, _ => 0
  | k + 1, v => v % 2 * 2 ^ k + revBits k (v / 2)

end Sys2Proof.Machine
end

