-- ==== Sys2Proof/Syntax.lean ====
section
/-! DEFINITION.  The commands of the machine: one constructor per row of spec/opcode_table.json, in
the table's order, with the operands the row's rules give it.  A command that is a register write
carries the initiator whose write it is and the word written; an event carries what the outside
world decides. -/

namespace Sys2Proof

/-- Where an access command stands in its L syllable: alone, the X access with a Y access to follow in
the same syllable, or that Y access (R110, L syllables, dual format). -/
inductive LPart where
  | only | first | second
  deriving DecidableEq, Repr

/-- The addressing fields of an access: dual format (R154) or single format (R155). -/
inductive LMode where
  | dual (am : BitVec 2)
  | single (am : BitVec 3) (msel : BitVec 3) (imm : BitVec 10)
  deriving DecidableEq, Repr

/-- The count of LOOP and LOOPR: CNT10, or a D register (R173). -/
inductive LoopCount where
  | imm (n : BitVec 10)
  | reg (rc : BitVec 5)
  deriving DecidableEq, Repr

/-- The queue a queue instruction names: QNUM, or D[RB][7:0] (R178). -/
inductive QSel where
  | num (q : BitVec 8)
  | reg (rb : BitVec 5)
  deriving DecidableEq, Repr

/-- A page transfer that completes: into a frame of a core, or a move of a page between CST and DRAM
(R230, R235–R237). -/
inductive Transfer where
  | frame (c : Fin 64) (f : Fin 16)
  | dram (cid : BitVec 15) (v : Fin 16)
  deriving DecidableEq, Repr

/-- Who reads the word with the uncorrectable error: CPG staging, scrubbing or reloading, or another
reader, which gets the data as stored (R245). -/
inductive EccReader where
  | cpg
  | chw
  | init (i : Init)
  deriving DecidableEq, Repr


/-- A fax or modem signal (R346). -/
inductive FaxSig where
  | ced | ansam | v21 | cng
  deriving DecidableEq, Repr

/-- What a block of the echo canceller finds in its signals (R307–R321): levels in 0.1 dB as the status
words hold them; tap and dispersion of the delay tracker; output samples that saturated; whether the
magnitudes meet the double-talk test; the best candidate span, in ms, with the departing window and
whether it wins against it on energy; windows in ascending order of energy; and the spans of greatest
energy, in ms, for a return from dense mode. -/
structure EcBlock where
  rin : BitVec 16
  sin : BitVec 16
  sout : BitVec 16
  noise : BitVec 16
  erl : BitVec 16
  erle : BitVec 16
  peak : BitVec 11
  disp : BitVec 8
  saturated : Nat
  loud : Bool
  cand : BitVec 8
  departing : Fin 4
  wins : Bool
  least : List (Fin 4)
  spans : List (BitVec 8)
  deriving DecidableEq, Repr

/-- What a packet that the block program sends is (R291, R343, R348, R356). -/
inductive PacketKind where
  | voice | noise | event | udptl
  deriving DecidableEq, Repr

/-- A packet that the block program sends on a leg: for RTP its marker, payload type, sequence number,
timestamp and payload; for UDPTL the datagram's payload. -/
structure LegPacket where
  kind : PacketKind
  marker : Bool
  pt : BitVec 7
  seq : BitVec 16
  ts : BitVec 32
  body : List Byte
  deriving DecidableEq, Repr

/-- What a block finds and does on one packet leg (R296–R298, R334–R336, R342–R344): the audio buffered
and the peak delay variation, the sequence numbers played, how many packets were concealed, were of no
known payload type or did not parse, the comfort-noise and SID packets received, whether the leg is in a
comfort-noise period and whether it signals silence, the AMR modes, and the packets to send. -/
structure LegBlock where
  span : BitVec 16
  jitter : BitVec 32
  played : List (BitVec 16)
  lost : Nat
  badPt : Nat
  badPkt : Nat
  cnRcvd : Nat
  cnp : Bool
  txSil : Bool
  txMode : BitVec 4
  rxMode : BitVec 4
  cmr : BitVec 4
  packets : List LegPacket
  deriving DecidableEq, Repr

/-- What the block program of a channel has computed when its job ends (R278, R290–R299, R302–R321): the
time of its Waypoint, the line input, send output and line output samples, the canceller's findings, the
legs, and the T.38 packets it could not recover. -/
structure BlockEnd where
  w : Word
  lineIn : List (BitVec 16)
  sendOut : List (BitVec 16)
  lineOut : List (BitVec 16)
  ec : EcBlock
  legP : LegBlock
  legL : LegBlock
  t38Lost : Nat
  deriving DecidableEq, Repr

/-- A frame pulse of a clock group: at its expected place, elsewhere, or absent at it (R424). -/
inductive PulseKind where
  | onTime | elsewhere | absent
  deriving DecidableEq, Repr

/-- The commands. -/
inductive Instr where
  /-- REGISTER_WRITE (R5): A register write whose register has no row of its own stores or acts on each field according to its access type. -/
  | registerWrite (ini : Init) (blk : Fin 18) (off : BitVec 20) (size : Nat) (v : BitVec 64)
  /-- SELECT_WRITE (R12): A write to a select register stores INDEX in the writer's private copy and sets SELERR if INDEX is at or beyond the block's instance count. -/
  | selectWrite (ini : Init) (blk : Fin 18) (wp : Bool) (v : Word)
  /-- COUNTER_CLEAR (R17): A write of zero to a saturating counter clears it and re-arms its overflow event; a write of any other value has no effect. -/
  | counterClear (ini : Init) (blk : Fin 18) (off : BitVec 20) (v : Word)
  /-- HOST_ACCESS (R92): A PCIe host access through BAR0 or BAR2 is checked against the PMBAR2 bounds where it applies and against PMHOST, and is then performed. -/
  | hostAccess (bar2 : Bool) (off : BitVec 25) (write : Bool) (size : Nat) (v : BitVec 64)
  /-- NIGHTWATCH_START (R519): Nightwatch starts once 1,024 stable NWCLK periods have elapsed after its supplies rise. -/
  | nightwatchStart
  /-- NWCNT_LO_READ (R44): A read of PMU_NWCNT_LO latches counter bits [47:32] into PMU_NWCNT_HI. -/
  | nwcntLoRead (ini : Init)
  /-- NWALARM (R529): The alarm is raised at the NWCLK edge at which the counter advances to the 48-bit target while EN = 1. -/
  | nwalarm
  /-- RST_N_LOW (R68): RST_N sampled low at two consecutive NWCLK edges puts the device in RESET. -/
  | rstNLow
  /-- VDDNW_LOW (R68): VDDNW falling below 0.70 V puts the device in RESET. -/
  | vddnwLow
  /-- RST_N_RISE (R74): The first NWCLK edge that samples RST_N high latches BOOTSEL and enters BOOT, or enters WATCH when BOOTSEL = 0b100. -/
  | rstNRise (bootsel : BitVec 3)
  /-- FUSE_LOAD_DONE (R75): The fuse array has been read into the shadows, its integrity has been judged, and the fuse-marked reset values have been loaded. -/
  | fuseLoadDone (intact : Bool)
  /-- REFCLK_DETECT_DONE (R45): The count of REFCLK edges over 8 NWCLK periods completes, and the PLL divider is selected or the device stays in BOOT. -/
  | refclkDetectDone (edges : Nat)
  /-- MAIN_PLL_LOCK (R74): The main PLL locks, PLLLOCK is set, TMU takes its reset values, and the power sequence starts. -/
  | mainPllLock
  /-- REFCLK_LOSS (R46): Loss of REFCLK outside RESET and WATCH sets REFLOSS, stops the time-base tick and enters FENCED on the fallback oscillator. -/
  | refclkLoss
  /-- SEQ_DELAY_EXPIRY (R62): The DELAY of a sequence step elapses, and the sequence waits for PGOOD or moves to the next step, which asserts its PEN. -/
  | seqDelayExpiry
  /-- SEQ_PGOOD (R62): PGOOD going high completes a step that waits for it; after the last step, DONE is set, RSTOUT_N is released and the boot ROM starts. -/
  | seqPgood
  /-- SEQ_PGTIMEOUT (R63): PGOOD is not high within PGTIMEOUT of a step that waits for it, so PMU sets SEQFAIL and the device enters FENCED. -/
  | seqPgtimeout
  /-- PGOOD_FAIL (R518): PGOOD low for 10 µs or more after DONE in BOOT, SERVICE or DRAIN is a fatal error. -/
  | pgoodFail
  /-- WATCH_PEN_OFF_STEP (R64): At WATCH entry, the PEN of a WATCHOFF step is deasserted, in reverse step order with each step's DELAY between them. -/
  | watchPenOffStep
  /-- MODE_REQUEST (R69): A write of PMU_MODE.GO requests the mode in TARGET, which is accepted or refused with MODEREFUSED. -/
  | modeRequest (ini : Init) (v : Word)
  /-- WAKE_EVENT (R68): An enabled wake event in WATCH enters BOOT, keeping and losing state as R59 gives. -/
  | wakeEvent (sources : BitVec 4)
  /-- BOOT_IMAGE_CHECK (R77): The boot ROM checks a presented image in order and either sets AUTH and jumps to ENTRY or records a failure code. -/
  | bootImageCheck (responded : Bool) (hdr : List Byte) (body : List Byte)
  /-- FUS_PROG (R83): A write of FUS_PROG.GO starts the burn of one fuse bit, or refuses it with PROGERR. -/
  | fusProg (ini : Init) (vfuse : Bool) (v : Word)
  /-- FUSE_BURN_DONE (R84): A fuse burn completes within 20 µs and BUSY clears. -/
  | fuseBurnDone
  /-- PROTECTION_MAP_WRITE (R90): A write to a run-time protection word can only tighten it: class words are ANDed and the BAR2 bounds can only narrow. -/
  | protectionMapWrite (ini : Init) (reg : Fin 6) (v : Word)
  /-- DBSET_H2S (R93): A write of 1 to HIF_DBSET.H2S sets the host-to-supervisor doorbell and raises the HIF mailbox source. -/
  | dbsetH2s (ini : Init)
  /-- DBSET_S2H (R93): A write of 1 to HIF_DBSET.S2H sets the supervisor-to-host doorbell, sends MSI vector 0 and drives IRQ_N low. -/
  | dbsetS2h (ini : Init)
  /-- DBCLR_H2S (R93): A write of 1 to HIF_DBCLR.H2S clears the host-to-supervisor doorbell. -/
  | dbclrH2s (ini : Init)
  /-- DBCLR_S2H (R93): A write of 1 to HIF_DBCLR.S2H clears the supervisor-to-host doorbell. -/
  | dbclrS2h (ini : Init)
  /-- PERST_ASSERT (R94): PERST_N low resets the link, the configuration space, HIF_BAR2BASE and the host's select copies, and sets PERSTSEEN. -/
  | perstAssert
  /-- PCIE_LINK_CHANGE (R532): The PCIe link comes up or goes down, and HIF_LINKSTAT reports its width and speed. -/
  | pcieLinkChange (up : Bool) (width : BitVec 2) (speed : BitVec 4)
  /-- DEVNUM_WRITE (R446): The first write of SYS_DEVNUM after BOOT stores the device number and sets LOCKED; later writes are ignored. -/
  | devnumWrite (ini : Init) (v : Word)
  /-- SVC_IDLE_SLOW (R47): After 10 µs without retired instructions, a supervisor core halves its clock, down to SVCMAXDIV. -/
  | svcIdleSlow (n : Fin 4)
  /-- CLUSTER_IDLE_EXPIRY (R49): The cluster idle timer reaches IDLE, and the cluster enters GATED unless FLOOR forbids it. -/
  | clusterIdleExpiry (c : Fin 8)
  /-- CLUSTER_PLLDLY_EXPIRY (R49): A further PLLDLY in GATED elapses, and the cluster enters PLLOFF unless FLOOR forbids it. -/
  | clusterPlldlyExpiry (c : Fin 8)
  /-- CLUSTER_PWRDLY_EXPIRY (R50): A further PWRDLY in PLLOFF elapses, and CPG starts writing back the cluster's dirty frames before PWROFF. -/
  | clusterPwrdlyExpiry (c : Fin 8)
  /-- CLUSTER_PWROFF (R50): The write-back before PWROFF completes, and the cluster's power gate closes. -/
  | clusterPwroff (c : Fin 8)
  /-- CLUSTER_WAKE_REQUEST (R53): A wake request starts a Dawn sequence from the cluster's state, abandons a power-down, or resets the idle timer in RUN. -/
  | clusterWakeRequest (c : Fin 8)
  /-- CLU_WAKE (R53): A write of 1 to a bit of CLU_WAKE makes a wake request to that cluster. -/
  | cluWake (ini : Init) (v : Word)
  /-- DAWN_POWER_GOOD (R52): Power is good in a Dawn sequence: isolation is released and the cluster PLL starts. -/
  | dawnPowerGood (c : Fin 8)
  /-- DAWN_PLL_LOCK (R52): The cluster PLL locks, and the staged enabling of the clock tree starts. -/
  | dawnPllLock (c : Fin 8)
  /-- DAWN_DONE (R52): The clock tree is enabled, the cluster is in RUN, and committed tasks dispatch. -/
  | dawnDone (c : Fin 8)
  /-- TEMP_CONVERSION (R66): A sensor conversion updates the readings, and PMU compares the hottest sensor with the WARN, THROT and CRIT thresholds. -/
  | tempConversion (sensor : Fin 16) (temp : BitVec 12)
  /-- THERMCFG_WRITE (R67): A write to PMU_THERMCFG is tighten-only: a THROT or CRIT above its fuse value leaves that field unchanged. -/
  | thermcfgWrite (ini : Init) (v : Word)
  /-- CSTBANK_WRITE (R56): A write to PMU_CSTBANK sets the bank modes, and refuses OFF for a bank that R56 keeps on, setting BANKERR. -/
  | cstbankWrite (ini : Init) (v : Word)
  /-- BANK_RETENTION_ENTRY (R55): An AUTO bank enters retention after 10 µs without access. -/
  | bankRetentionEntry (b : Fin 16)
  /-- AVS_MARGIN_LOW (R60): The least monitor margin falls below MARGIN, and AVS raises VDD by one step at once. -/
  | avsMarginLow (margin : BitVec 8)
  /-- AVS_LOWER (R60): A margin of MARGIN + 20 ps or more, held for 1 ms, lowers VDD by one step. -/
  | avsLower (margin : BitVec 8)
  /-- AVS_PMBFAIL (R61): Three failed AVS PMBus transactions, or a readback mismatch, freeze AVS and set PMBFAIL. -/
  | avsPmbfail
  /-- PMBUS_TRANSACTION (R60): A write of PMU_PMBCMD.GO performs one PMBus read or write transaction. -/
  | pmbusTransaction (ini : Init) (v : Word)
  /-- LDLK (R139): LDLK loads a word and links the core to its 64-byte granule. -/
  | ldlk (c : Fin 68) (e : Bool) (rd ra : BitVec 5)
  /-- STCN (R181): STCN stores only while the link holds, and reports success in its destination. -/
  | stcn (c : Fin 68) (e : Bool) (rd ra rb : BitVec 5)
  /-- NOP (R160): NOP issues and does nothing. -/
  | nop (c : Fin 68) (e : Bool) (inL : Bool)
  /-- ADD (R161): ADD adds two registers and sets the flags. -/
  | add (c : Fin 68) (e : Bool) (sz : Bool) (rd ra rb : BitVec 5)
  /-- SUB (R161): SUB subtracts two registers and sets the flags. -/
  | sub (c : Fin 68) (e : Bool) (sz : Bool) (rd ra rb : BitVec 5)
  /-- AND (R162): AND forms the bitwise AND of two registers. -/
  | and (c : Fin 68) (e : Bool) (sz : Bool) (rd ra rb : BitVec 5)
  /-- OR (R162): OR forms the bitwise OR of two registers. -/
  | or (c : Fin 68) (e : Bool) (sz : Bool) (rd ra rb : BitVec 5)
  /-- XOR (R162): XOR forms the bitwise XOR of two registers. -/
  | xor (c : Fin 68) (e : Bool) (sz : Bool) (rd ra rb : BitVec 5)
  /-- ASR (R162): ASR shifts a register right arithmetically. -/
  | asr (c : Fin 68) (e : Bool) (sz : Bool) (rd ra rb : BitVec 5)
  /-- LSR (R162): LSR shifts a register right logically. -/
  | lsr (c : Fin 68) (e : Bool) (sz : Bool) (rd ra rb : BitVec 5)
  /-- LSL (R162): LSL shifts a register left without saturating. -/
  | lsl (c : Fin 68) (e : Bool) (sz : Bool) (rd ra rb : BitVec 5)
  /-- MIN (R162): MIN writes the signed minimum of two registers. -/
  | min (c : Fin 68) (e : Bool) (sz : Bool) (rd ra rb : BitVec 5)
  /-- MAX (R162): MAX writes the signed maximum of two registers. -/
  | max (c : Fin 68) (e : Bool) (sz : Bool) (rd ra rb : BitVec 5)
  /-- ABS (R162): ABS writes the absolute value of a register. -/
  | abs (c : Fin 68) (e : Bool) (sz : Bool) (rd ra : BitVec 5)
  /-- NEG (R162): NEG writes the negation of a register. -/
  | neg (c : Fin 68) (e : Bool) (sz : Bool) (rd ra : BitVec 5)
  /-- CMP (R161): CMP sets the flags from the difference of two registers. -/
  | cmp (c : Fin 68) (e : Bool) (sz : Bool) (ra rb : BitVec 5)
  /-- MULI (R162): MULI writes the signed 32-bit product of two D registers. -/
  | muli (c : Fin 68) (e : Bool) (rd ra rb : BitVec 5)
  /-- ADDI (R161): ADDI adds an immediate and sets the flags. -/
  | addi (c : Fin 68) (e : Bool) (sz : Bool) (rd ra : BitVec 5) (imm : BitVec 12)
  /-- ANDI (R162): ANDI forms the bitwise AND with an immediate. -/
  | andi (c : Fin 68) (e : Bool) (sz : Bool) (rd ra : BitVec 5) (imm : BitVec 12)
  /-- ORI (R162): ORI forms the bitwise OR with an immediate. -/
  | ori (c : Fin 68) (e : Bool) (sz : Bool) (rd ra : BitVec 5) (imm : BitVec 12)
  /-- XORI (R162): XORI forms the bitwise XOR with an immediate. -/
  | xori (c : Fin 68) (e : Bool) (sz : Bool) (rd ra : BitVec 5) (imm : BitVec 12)
  /-- ASRI (R162): ASRI shifts right arithmetically by an immediate. -/
  | asri (c : Fin 68) (e : Bool) (sz : Bool) (rd ra : BitVec 5) (imm : BitVec 12)
  /-- LSRI (R162): LSRI shifts right logically by an immediate. -/
  | lsri (c : Fin 68) (e : Bool) (sz : Bool) (rd ra : BitVec 5) (imm : BitVec 12)
  /-- LSLI (R162): LSLI shifts left by an immediate. -/
  | lsli (c : Fin 68) (e : Bool) (sz : Bool) (rd ra : BitVec 5) (imm : BitVec 12)
  /-- CMPI (R161): CMPI sets the flags from the difference of a register and an immediate. -/
  | cmpi (c : Fin 68) (e : Bool) (sz : Bool) (ra : BitVec 5) (imm : BitVec 12)
  /-- MOVI_H (R163): MOVI.H writes a 16-bit constant to a D register. -/
  | moviH (c : Fin 68) (e : Bool) (rd : BitVec 5) (imm : BitVec 16)
  /-- MOVI_W (R163): MOVI.W writes a sign-extended constant to a word-space register. -/
  | moviW (c : Fin 68) (e : Bool) (rd : BitVec 5) (imm : BitVec 16)
  /-- MOVHI (R163): MOVHI writes the upper 16 bits of a word-space register. -/
  | movhi (c : Fin 68) (e : Bool) (rd : BitVec 5) (imm : BitVec 16)
  /-- MOVR (R164): MOVR copies a 32-bit register within the extended space. -/
  | movr (c : Fin 68) (e : Bool) (xd xs : BitVec 6)
  /-- MOVC_READ (R165): MOVC with DIR = 0 reads a control register. -/
  | movcRead (c : Fin 68) (e : Bool) (cr : BitVec 6) (rw : BitVec 5)
  /-- MOVC_WRITE (R165): MOVC with DIR = 1 writes a control register, visible from bundle i + 2. -/
  | movcWrite (c : Fin 68) (e : Bool) (cr : BitVec 6) (rw : BitVec 5)
  /-- RND (R168): RND rounds and saturates a word to 16 bits. -/
  | rnd (c : Fin 68) (e : Bool) (rd ra : BitVec 5)
  /-- NORM (R169): NORM shifts an operand left by its count of redundant sign bits. -/
  | norm (c : Fin 68) (e : Bool) (sz : Bool) (rd ra : BitVec 5)
  /-- EXP (R169): EXP writes the count of redundant sign bits of an operand. -/
  | exp (c : Fin 68) (e : Bool) (sz : Bool) (rd ra : BitVec 5)
  /-- EXPA (R170): EXPA writes the redundant sign bits of an accumulator half, minus 8. -/
  | expa (c : Fin 68) (e : Bool) (rd : BitVec 5) (acn : BitVec 3) (h : Bool)
  /-- MOVA (R166): MOVA moves an accumulator into data registers with shift, rounding and fitting. -/
  | mova (c : Fin 68) (e : Bool) (rd : BitVec 5) (acn : BitVec 3) (h : Bool) (form : BitVec 2)
  /-- MOVAR (R167): MOVAR moves raw accumulator bits into a data register. -/
  | movar (c : Fin 68) (e : Bool) (rd : BitVec 5) (acn : BitVec 3) (h : Bool) (form : BitVec 2)
  /-- MOVTA (R167): MOVTA moves raw bits from a data register into an accumulator. -/
  | movta (c : Fin 68) (e : Bool) (rd : BitVec 5) (acn : BitVec 3) (h : Bool) (form : BitVec 2)
  /-- BR (R171): BR branches to a relative target after two delay bundles. -/
  | br (c : Fin 68) (e : Bool) (off : BitVec 23)
  /-- BRC (R172): BRC branches when its condition holds on the flags at issue. -/
  | brc (c : Fin 68) (e : Bool) (cond : BitVec 4) (off : BitVec 19)
  /-- JL (R171): JL jumps to a relative target and writes a link address. -/
  | jl (c : Fin 68) (e : Bool) (pd : BitVec 4) (off : BitVec 19)
  /-- JLR (R171): JLR, or JR without a link, jumps to the address in a pointer register. -/
  | jlr (c : Fin 68) (e : Bool) (pd ps : BitVec 4) (link : Bool)
  /-- LOOP (R173): LOOP starts a hardware loop level with a count, LS and LE. -/
  | loop (c : Fin 68) (e : Bool) (count : LoopCount) (leoff : BitVec 12)
  /-- LOOPR (R122): LOOPR starts a hardware loop level that rotates the register file. -/
  | loopr (c : Fin 68) (e : Bool) (count : LoopCount) (leoff : BitVec 12)
  /-- WAITJOB (R174): WAITJOB blocks the idle core, clock-gated, until TSU dispatches a task to it. -/
  | waitjob (c : Fin 68) (e : Bool)
  /-- ENDJOB (R204): ENDJOB ends the job: the serial group is released, the core becomes idle and the task's condition is re-evaluated. -/
  | endjob (c : Fin 68) (e : Bool) (blk : Option BlockEnd)
  /-- YIELD (R174): YIELD makes the job leave the core with SCAUSE = 3, and the task returns to the tail of its level. -/
  | yield (c : Fin 68) (e : Bool)
  /-- SIGNAL (R175): SIGNAL sets event flags of a task, after the job's earlier non-local stores. -/
  | signal (c : Fin 68) (e : Bool) (ra : BitVec 5)
  /-- TOUCH (R176): TOUCH asks CPG to bring in a context-view page without waiting or trapping. -/
  | touch (c : Fin 68) (e : Bool) (ra : BitVec 5)
  /-- QRD (R178): QRD reads one word from a queue and sets C at an item end, stalling while the queue is empty. -/
  | qrd (c : Fin 68) (e : Bool) (q : QSel) (rw : BitVec 4)
  /-- QWR (R178): QWR writes one word to a queue, stalling while the queue cannot accept it. -/
  | qwr (c : Fin 68) (e : Bool) (fin : Bool) (q : QSel) (rw : BitVec 4)
  /-- QTRY (R178): QTRY reads or writes a queue word without stalling, and reports failure in Z. -/
  | qtry (c : Fin 68) (e : Bool) (dir fin : Bool) (q : QSel) (rw : BitVec 4)
  /-- QUEUE_STALL_RELEASE (R258): A stalled QRD or QWR completes once its queue has a word to read or room to write. -/
  | queueStallRelease (c : Fin 68)
  /-- BKPT (R129): BKPT raises the BREAK trap, or halts the core for the debug port. -/
  | bkpt (c : Fin 68) (e : Bool) (tag : BitVec 16)
  /-- RETT (R131): RETT clears INTRAP and resumes at TRPC. -/
  | rett (c : Fin 68) (e : Bool)
  /-- FENCE (R177): FENCE stalls until every earlier non-local access has taken effect. -/
  | fence (c : Fin 68) (e : Bool)
  /-- SYSCALL (R180): SYSCALL raises the SYSCALL exception on a supervisor core. -/
  | syscall (c : Fin 68) (e : Bool) (imm : BitVec 16)
  /-- ERET (R134): ERET restores SCR_STATUS and resumes from an exception. -/
  | eret (c : Fin 68) (e : Bool)
  /-- CACHE_IINV_LINE (R182): CACHE with OPC 0b000 invalidates the instruction-cache line of an address. -/
  | cacheIinvLine (c : Fin 68) (e : Bool) (ra : BitVec 5)
  /-- CACHE_CLEAN_LINE (R182): CACHE with OPC 0b001 writes back the data-cache line of an address if it is dirty. -/
  | cacheCleanLine (c : Fin 68) (e : Bool) (ra : BitVec 5)
  /-- CACHE_DINV_LINE (R182): CACHE with OPC 0b010 invalidates the data-cache line of an address without write-back. -/
  | cacheDinvLine (c : Fin 68) (e : Bool) (ra : BitVec 5)
  /-- CACHE_CLEAN_INV_LINE (R182): CACHE with OPC 0b011 cleans and invalidates the data-cache line of an address. -/
  | cacheCleanInvLine (c : Fin 68) (e : Bool) (ra : BitVec 5)
  /-- CACHE_IINV_ALL (R182): CACHE with OPC 0b100 invalidates the whole instruction cache. -/
  | cacheIinvAll (c : Fin 68) (e : Bool)
  /-- CACHE_CLEAN_INV_ALL (R182): CACHE with OPC 0b101 cleans and invalidates the whole data cache. -/
  | cacheCleanInvAll (c : Fin 68) (e : Bool)
  /-- TLBI_PAGE (R182): TLBI with OPC 0b000 invalidates the entries of one virtual page in the current ASID, and its global entries. -/
  | tlbiPage (c : Fin 68) (e : Bool) (ra : BitVec 5)
  /-- TLBI_ASID (R182): TLBI with OPC 0b001 invalidates the non-global entries of one ASID. -/
  | tlbiAsid (c : Fin 68) (e : Bool) (ra : BitVec 5)
  /-- TLBI_NONGLOBAL (R182): TLBI with OPC 0b010 invalidates all non-global entries. -/
  | tlbiNonglobal (c : Fin 68) (e : Bool)
  /-- TLBI_ALL (R182): TLBI with OPC 0b011 invalidates all TLB entries. -/
  | tlbiAll (c : Fin 68) (e : Bool)
  /-- CMAC (R147): CMAC and its family CMSU, CMUL and CMULN combine a complex product into an accumulator. -/
  | cmac (c : Fin 68) (e : Bool) (acc : BitVec 2) (acd : BitVec 3) (ra rb : BitVec 5) (cja cjb : Bool)
  /-- MAC (R148): MAC and its family MSU, MUL and MULN combine a real product into one accumulator half. -/
  | mac (c : Fin 68) (e : Bool) (acc : BitVec 2) (acd : BitVec 3) (ra rb : BitVec 5) (h : Bool)
  /-- QMAC (R149): QMAC and its family combine four real products in quad-real mode. -/
  | qmac (c : Fin 68) (e : Bool) (acc : BitVec 2) (acd : BitVec 3) (ra rb : BitVec 5)
  /-- BFLY (R151): BFLY performs a radix-2 butterfly in place. -/
  | bfly (c : Fin 68) (e : Bool) (ra rb rc : BitVec 5) (sc cjw : Bool)
  /-- ACCLR (R152): ACCLR clears an accumulator. -/
  | acclr (c : Fin 68) (e : Bool) (acd : BitVec 3)
  /-- ACMOV (R152): ACMOV copies one accumulator to another. -/
  | acmov (c : Fin 68) (e : Bool) (acd aca : BitVec 3)
  /-- ACADD (R152): ACADD adds one accumulator to another. -/
  | acadd (c : Fin 68) (e : Bool) (acd aca : BitVec 3)
  /-- ACSUB (R152): ACSUB subtracts one accumulator from another. -/
  | acsub (c : Fin 68) (e : Bool) (acd aca : BitVec 3)
  /-- ACSHA (R152): ACSHA shifts an accumulator arithmetically. -/
  | acsha (c : Fin 68) (e : Bool) (acd : BitVec 3) (sh : BitVec 5)
  /-- ACNEG (R152): ACNEG writes the negation of an accumulator. -/
  | acneg (c : Fin 68) (e : Bool) (acd aca : BitVec 3)
  /-- LD_H (R153): LD.H loads a 16-bit value through a pointer. -/
  | ldH (c : Fin 68) (e : Bool) (part : LPart) (port : Bool) (mode : LMode) (reg : BitVec 5) (ptr : BitVec 3)
  /-- LD_W (R153): LD.W loads a 32-bit value through a pointer. -/
  | ldW (c : Fin 68) (e : Bool) (part : LPart) (port : Bool) (mode : LMode) (reg : BitVec 5) (ptr : BitVec 3)
  /-- LD_L (R153): LD.L loads four D registers through a pointer. -/
  | ldL (c : Fin 68) (e : Bool) (part : LPart) (port : Bool) (mode : LMode) (reg : BitVec 5) (ptr : BitVec 3)
  /-- ST_H (R153): ST.H stores a 16-bit value through a pointer. -/
  | stH (c : Fin 68) (e : Bool) (part : LPart) (port : Bool) (mode : LMode) (reg : BitVec 5) (ptr : BitVec 3)
  /-- ST_W (R153): ST.W stores a 32-bit value through a pointer. -/
  | stW (c : Fin 68) (e : Bool) (part : LPart) (port : Bool) (mode : LMode) (reg : BitVec 5) (ptr : BitVec 3)
  /-- ST_L (R153): ST.L stores four D registers through a pointer. -/
  | stL (c : Fin 68) (e : Bool) (part : LPart) (port : Bool) (mode : LMode) (reg : BitVec 5) (ptr : BitVec 3)
  /-- MOD (R153): MOD updates a pointer without an access. -/
  | mod (c : Fin 68) (e : Bool) (part : LPart) (port : Bool) (mode : LMode) (ptr : BitVec 3)
  /-- RESERVED_SYLLABLE (R143): A syllable with a reserved opcode or a bad field raises ILLEGAL. -/
  | reservedSyllable (c : Fin 68) (e : Bool) (cls : BitVec 2)
  /-- ARITH_TRAP (R130): An ACOV set while OVTRAP = 1 raises an imprecise ARITH trap within 2 bundles. -/
  | arithTrap (c : Fin 68)
  /-- SVC_INTERRUPT (R135): A supervisor core with IE = 1 and its SIC line asserted takes an interrupt at a bundle boundary. -/
  | svcInterrupt (n : Fin 4)
  /-- SIC_CLAIM (R141): A read of SIC_CLAIMn returns the qualifying source of highest priority and marks it in service. -/
  | sicClaim (ini : Init) (n : Fin 4)
  /-- SIC_COMPLETE (R141): A write of SIC_COMPLETEn ends the service of a source. -/
  | sicComplete (ini : Init) (n : Fin 4) (v : Word)
  /-- BANK_SAVE_DONE (R126): The background save of a leaving job's bank completes, the bank becomes free, and write-back of its dirty frames may start. -/
  | bankSaveDone (c : Fin 64)
  /-- FRAME_PARITY_ERROR (R247): A parity error in a frame read by a job aborts the job, retires the frame and retries the job once. -/
  | frameParityError (c : Fin 64) (f : Fin 16)
  /-- TASK_SLOT_FIRST_WRITE (R183): The first write to an instance register of an EMPTY slot makes it WAIT. -/
  | taskSlotFirstWrite (ini : Init) (off : BitVec 12) (v : Word)
  /-- TASK_FLAGS_SET (R185): A write of 1s to TSU_T_FLAGS ORs them into the task's flags. -/
  | taskFlagsSet (ini : Init) (fl : BitVec 16)
  /-- TASK_FLAGS_CLR (R186): A write of CLR clears flags, and may return a READY task to WAIT. -/
  | taskFlagsClr (ini : Init) (fl : BitVec 16)
  /-- TSU_SIGNAL_WRITE (R175): A write to TSU_SIGNAL sets flags of the named task. -/
  | tsuSignalWrite (ini : Init) (v : Word)
  /-- TASK_CFG_WRITE (R206): A write to TSU_T_CFG changes enable, level, affinity and mode, with EN = 0 stopping readiness. -/
  | taskCfgWrite (ini : Init) (v : Word)
  /-- TASK_READY (R186): A task in WAIT with EN = 1 enters READY 2 cycles after its condition starts to hold. -/
  | taskReady (t : BitVec 16)
  /-- TASK_COMMIT (R190): TSU commits the first eligible ready task that has an idle core in its affinity, at most one task per cycle. -/
  | taskCommit
  /-- TASK_DISPATCH (R193): A committed task is dispatched once its set is staged, a bank is free and its cluster is in RUN. -/
  | taskDispatch (c : Fin 64)
  /-- PREEMPT_SWITCH (R201): When the pre-emptor's set is staged, the victim's job is switched out and returns to READY with RESUME = 1. -/
  | preemptSwitch (c : Fin 64)
  /-- TASK_PROMOTE (R197): A READY task whose deadline comes within its level's FLOOR is promoted to the urgent band. -/
  | taskPromote (t : BitVec 16)
  /-- BUDGET_WINDOW (R198): At the start of each budget window, USED is reduced by CAP × 1,024 and holds are re-evaluated. -/
  | budgetWindow
  /-- PAGE_ARRIVED (R203): CPG reports a faulted page arrived, and the PAGEWAIT task enters READY with RESUME = 1. -/
  | pageArrived (t : BitVec 16)
  /-- CANCEL (R208): CANCEL clears the flags, disables the task and ends or withdraws its job. -/
  | cancel (ini : Init) (race : Bool)
  /-- FREE (R209): FREE returns a disabled waiting task slot to EMPTY, or is refused. -/
  | free (ini : Init)
  /-- COREEN_WRITE (R210): Clearing a TSU_COREEN bit drops the core's reservations and withdraws its commit. -/
  | coreenWrite (ini : Init) (hi : Bool) (v : Word)
  /-- TRCCLR (R213): A write to TSU_TRCCLR empties the trace ring. -/
  | trcclr (ini : Init)
  /-- TRACE_ENTRY_READ (R214): A read of word 0 of a trace entry latches the whole entry for the reader. -/
  | traceEntryRead (ini : Init) (n : BitVec 12) (w : Fin 4)
  /-- ALLOC (R220): ALLOC takes pages for a FREE context under its layout, or fails. -/
  | alloc (ini : Init)
  /-- RELEASE (R221): RELEASE frees every page and frame copy of a context. -/
  | release (ini : Init)
  /-- SPILL (R235): SPILL moves a cold-eligible context's pages to DRAM. -/
  | spill (ini : Init)
  /-- LOAD (R236): LOAD reloads all pages of a context from DRAM. -/
  | load (ini : Init)
  /-- PUBLISH (R238): PUBLISH marks the next control copy pending and sets CTLPEND. -/
  | publish (ini : Init)
  /-- CHW_CTL_WRITE (R238): A write to CHW_CTLk writes word k of the next control copy in CST. -/
  | chwCtlWrite (ini : Init) (k : BitVec 7) (v : Word)
  /-- SET_STAGE (R224): CPG stages a task's set into a core's frames all or nothing. -/
  | setStage (c : Fin 64)
  /-- PAGE_TRANSFER_DONE (R230): A page transfer completes; when the last page of a set arrives, the set counts as staged. -/
  | pageTransferDone (x : Transfer)
  /-- WRITEBACK_START (R227): CPG starts writing back the dirty frames of an ended or suspended job. -/
  | writebackStart (c : Fin 64) (bad : BitVec 16)
  /-- WRITEBACK_DONE (R227): A page's write-back completes, and its other frame copies are invalidated. -/
  | writebackDone (c : Fin 64) (f : Fin 16)
  /-- SPILL_PRESSURE (R235): FREE below LOW starts spilling cold-eligible contexts until FREE reaches HIGH. -/
  | spillPressure
  /-- PAGE_RELOAD (R236): A page returns from DRAM on demand, staging or LOAD, or waits with RELOADWAIT. -/
  | pageReload (cid : BitVec 15) (v : Fin 16)
  /-- ECC_UNCORRECTABLE (R245): The first read of a word with an uncorrectable ECC error is recorded and acted on per memory. -/
  | eccUncorrectable (a : PAddr) (reader : EccReader)
  /-- SCRUB_PAGE (R245): Every INTERVAL µs, CPG scrubs the next CST page. -/
  | scrubPage (bad : Bool) (word : BitVec 9) (corrected : Nat)
  /-- DMA_GO (R241): A write of GO starts a DMA channel with the writer's protection class. -/
  | dmaGo (ini : Init) (ch : Fin 32) (v : Word)
  /-- DMA_BURST (R242): A DMA channel copies one burst, or enters WAIT or ends. -/
  | dmaBurst (ch : Fin 32)
  /-- DMA_RESUME (R242): A waiting DMA channel resumes at OFS when its page is ready. -/
  | dmaResume (ch : Fin 32)
  /-- DMA_ABORT (R243): ABORT ends a running or waiting DMA channel as ABORTED. -/
  | dmaAbort (ini : Init) (ch : Fin 32)
  /-- DMC_INIT (R250): INIT starts calibration and training of the DDR5 channel. -/
  | dmcInit (ini : Init)
  /-- DMC_TRAIN_DONE (R250): Training completes and sets READY, or fails and sets TRAINERR. -/
  | dmcTrainDone (ok : Bool) (step : BitVec 4)
  /-- QUEUE_SWAP (R257): A queue swaps its banks when the consumer bank is empty and the producer bank holds a complete item. -/
  | queueSwap (q : BitVec 8)
  /-- QUEUE_SWAP_DONE (R257): A bank swap's copy completes, and queue accesses resume. -/
  | queueSwapDone (q : BitVec 8)
  /-- QUEUE_FLUSH (R264): FLUSH sets FLUSHPEND and fixes a flush point. -/
  | queueFlush (ini : Init) (q : BitVec 8)
  /-- QUEUE_FLUSH_DONE (R264): The flush completes when the consumer is between items, discarding items that ended by the flush point. -/
  | queueFlushDone (q : BitVec 8)
  /-- QUEUE_RESET (R265): RESET discards all queue contents at once. -/
  | queueReset (ini : Init) (q : BitVec 8)
  /-- ACTIVATE (R286): ACTIVATE takes an ALLOCATED channel to ARMED, or ACTIVE at START. -/
  | activate (c : Fin 64) (w : Word)
  /-- HOLD (R288): HOLD takes an ACTIVE channel to HELD. -/
  | hold (c : Fin 64)
  /-- RESUME (R286): RESUME takes a HELD channel back to ACTIVE. -/
  | resume (c : Fin 64) (w : Word)
  /-- STOP (R283): STOP returns an ARMED, ACTIVE or HELD channel to ALLOCATED. -/
  | stop (c : Fin 64)
  /-- MARK (R300): MARK sets the rewind mark at WIDX. -/
  | mark (c : Fin 64)
  /-- REWIND (R301): REWIND copies the records from the mark into the capture buffer. -/
  | rewind (c : Fin 64)
  /-- REWIND_DONE (R301): The rewind copy completes and sets DONE and COUNT. -/
  | rewindDone (c : Fin 64)
  /-- CLRSTATS (R281): CLRSTATS clears the channel's counters, CYCMAX and events. -/
  | clrstats (c : Fin 64)
  /-- CHANNEL_START (R283): An ARMED channel becomes ACTIVE at the first block with W − START ≥ 0. -/
  | channelStart (c : Fin 64) (w : Word)
  /-- JB_FILE (R294): PKE files a received packet into its jitter-buffer slot, or drops it as late or duplicate. -/
  | jbFile (ofs : BitVec 19) (seq : BitVec 16) (marker : Bool) (pt : BitVec 7) (ts : Word) (arrival : Word) (payload : List Byte)
  /-- EC_CLEAR (R325): A new CLRSEQ clears the canceller's weights and estimators. -/
  | ecClear (c : Fin 64)
  /-- EC_DIVERGENCE (R319): Error power above Sin power for 64 ms clears the canceller. -/
  | ecDivergence (c : Fin 64)
  /-- TONE_DISABLE (R323): A recognised 2100 Hz tone disables the canceller or the processor. -/
  | toneDisable (c : Fin 64) (kind : Fin 5) (onSin : Bool)
  /-- TONE_DISABLE_RELEASE (R324): Low levels for RELEASE ms end a disabling. -/
  | toneDisableRelease (c : Fin 64)
  /-- CODEC_CHANGE (R337): A published codec change resets the leg's codec state. -/
  | codecChange (c : Fin 64)
  /-- GEN_DTMF (R355): A generation command of KIND DTMF sends a digit. -/
  | genDtmf (c : Fin 64)
  /-- GEN_CALL_PROGRESS (R355): A generation command of KIND call progress plays a definition. -/
  | genCallProgress (c : Fin 64)
  /-- GEN_STOP (R355): A generation command of KIND stop ends generation. -/
  | genStop (c : Fin 64)
  /-- GEN_EVENT (R356): A generation command with GENDIR = 0b10 sends an RFC 4733 event on leg P. -/
  | genEvent (c : Fin 64)
  /-- GEN_END (R355): A generation ends and GENBUSY clears. -/
  | genEnd (c : Fin 64)
  /-- MEDIA_TABLE_RELOAD (R351): A changed MTSEQ makes the block load the tone definitions it uses. -/
  | mediaTableReload (c : Fin 64)
  /-- TONE_EVENT (R354): A detected tone onset or end is written to the event ring. -/
  | toneEvent (c : Fin 64) (legP : Bool) (received : Bool) (code : BitVec 8)
  /-- RX_EVENT_END (R356): A received event ends at its E bit or after 150 ms without a packet. -/
  | rxEventEnd (c : Fin 64) (code : BitVec 7)
  /-- FAX_SWITCHOVER (R346): A fax or modem signal switches the channel to VBD or T.38. -/
  | faxSwitchover (c : Fin 64) (sig : FaxSig)
  /-- RETURN_TO_VOICE (R346): T38IDLE seconds without fax or modem signal return the channel to voice. -/
  | returnToVoice (c : Fin 64)
  /-- LEVEL_BANK_REQUEST (R361): A new target bank starts a fade or is deferred. -/
  | levelBankRequest (c : Fin 64) (recv : Bool)
  /-- LEVEL_FADE_END (R362): A fade ends and any pending request is acted on. -/
  | levelFadeEnd (c : Fin 64) (recv : Bool)
  /-- SHAPE_LOAD (R360): A bank word or LOADSEQ change reloads the bank's shape. -/
  | shapeLoad (c : Fin 64) (bank : Fin 4)
  /-- PORT_ENABLE (R365): A rising edge of PKE_P_CFG.EN applies MODE, FEC and AN. -/
  | portEnable (ini : Init) (v : Word)
  /-- PORT_DISABLE (R365): A clear of EN takes the port down and ends its queued descriptors with DOWN. -/
  | portDisable (ini : Init) (v : Word)
  /-- PORT_LINK_CHANGE (R403): An Ethernet link comes up or goes down, loading latency trims at link-up. -/
  | portLinkChange (p : Fin 8) (up : Bool)
  /-- FRAME_RECEIVE (R366): A received Ethernet frame is checked, stamped, stored, parsed and classified. -/
  | frameReceive (p : Fin 8) (b : List Byte) (sub : BitVec 9) (symErr backlog ecc : Bool)
  /-- SRTP_DONE (R374): The SRTP check and decryption of a received frame complete, and the frame is filed in order. -/
  | srtpDone (k : Fin 512)
  /-- CLS_INSERT (R369): INSERT places a classifier entry in a free way. -/
  | clsInsert (ini : Init)
  /-- CLS_MODIFY (R370): MODIFY replaces a classifier entry's fields. -/
  | clsModify (ini : Init)
  /-- CLS_DELETE (R370): DELETE removes a classifier entry. -/
  | clsDelete (ini : Init)
  /-- CLS_READ (R369): READ copies a classifier entry into E0–E3. -/
  | clsRead (ini : Init)
  /-- CLS_DRAIN_DONE (R370): The frames classified under an old entry are all handled, and MODIFY or DELETE completes. -/
  | clsDrainDone
  /-- KS_INSTALL (R379): INSTALL derives and loads a stream's SRTP keys. -/
  | ksInstall (ini : Init) (keep : Bool)
  /-- KS_CLEAR (R379): CLEAR sets a stream's SUITE to 0 and erases its keys. -/
  | ksClear (ini : Init)
  /-- KS_CLRCNT (R379): CLRCNT clears a stream's counters. -/
  | ksClrcnt (ini : Init)
  /-- STRMSEL_WRITE (R379): A write to PKE_STRMSEL latches the stream's words for the writer. -/
  | strmselWrite (ini : Init) (v : Word)
  /-- EGRESS_POST (R380): A write to PKE_EGPOST posts an egress descriptor to a port queue. -/
  | egressPost (ini : Init) (v : Word) (ecc : Bool)
  /-- TIMED_FRAME_PREPARE (R385): A timed frame within 20 µs of LAUNCH is prepared. -/
  | timedFramePrepare (p : Fin 8) (ecc : Bool)
  /-- FRAME_LAUNCH (R385): A prepared frame starts on the medium, or is sent late or dropped. -/
  | frameLaunch (p : Fin 8) (sub : BitVec 9)
  /-- PRIORITY_FRAME_SEND (R384): A priority-queue frame is sent when it fits before the next timed launch. -/
  | priorityFrameSend (p : Fin 8) (sub : BitVec 9) (ecc : Bool)
  /-- CELLRET (R267): A write to PKE_CELLRET frees a cell to its holder's account. -/
  | cellret (ini : Init) (v : Word)
  /-- CELLCFG_WRITE (R390): A guarantee write that would exceed CELLCNT is refused with CELLERR. -/
  | cellcfgWrite (ini : Init) (c : Fin 25) (v : Word)
  /-- CELL_REGION_WRITE (R389): CELLBASE and CELLCNT writes take effect only while RUN = 0. -/
  | cellRegionWrite (ini : Init) (cnt : Bool) (v : Word)
  /-- TB_INCR_LO_WRITE (R395): A write of TMU_TB_INCR_LO is held in the writer's private copy. -/
  | tbIncrLoWrite (ini : Init) (v : Word)
  /-- TB_INCR_HI_WRITE (R395): A write of INCR_HI forms, clamps and applies the new increment, or is ignored with INCRERR. -/
  | tbIncrHiWrite (ini : Init) (v : Word)
  /-- TB_STEP (R398): STEP adds TMU_TB_STEP to a base's NS at the next tick, or is refused. -/
  | tbStep (ini : Init) (v : Word)
  /-- TB_NS_READ (R399): A read of TMU_TB_NS latches FRAC for the reader. -/
  | tbNsRead (ini : Init)
  /-- CAPALL (R399): CAPALL latches all four bases' NS in one tick. -/
  | capall (ini : Init) (v : Word)
  /-- TB1_FRAME_MEASURE (R397): At each frame pulse of LOCKSRC, TB1 adjusts INCR toward 125,000 ns per frame. -/
  | tb1FrameMeasure (ok : Bool) (incr : BitVec 40)
  /-- TB1_HOLDOVER (R397): No pulse for 375 µs puts TB1 in holdover. -/
  | tb1Holdover (incr : BitVec 40)
  /-- WAYPOINT_ARM (R413): Setting EN or writing TARGET with EN = 1 arms a Waypoint, checking the late rule. -/
  | waypointArm (ini : Init) (ctl : Bool) (v : Word)
  /-- WAYPOINT_DISABLE (R413): A write of EN = 0 sets the Waypoint IDLE at once. -/
  | waypointDisable (ini : Init) (v : Word)
  /-- WAYPOINT_FIRE (R414): A PENDING Waypoint fires when its target comes, takes its action and re-phases. -/
  | waypointFire (n : BitVec 12) (rx : List (BitVec 15 × Byte))
  /-- WAYPOINT_UNHOLD (R413): A HELD Waypoint becomes PENDING when its difference turns positive. -/
  | waypointUnhold (n : BitVec 12)
  /-- LOOKAHEAD_NOTICE (R417): A Waypoint within the lookahead window issues its notice to TSU and CPG. -/
  | lookaheadNotice (n : BitVec 12)
  /-- PULSE_END (R407): A PULSE action's output returns to its inactive level after ARG1 ns. -/
  | pulseEnd (k : Fin 5)
  /-- PIN_CAPTURE (R406): An edge on PPSIN or an input TBIO pin captures the time. -/
  | pinCapture (k : Fin 6) (rising : Bool) (sub : BitVec 9)
  /-- PATHSTEP_PAIR (R411): A write of PS_MPD completes a measurement pair, and PATHSTEP may fire. -/
  | pathstepPair (ini : Init) (p : Fin 8) (v : Word)
  /-- PATHSTEP_CLEAR (R412): Clearing FIRED releases the port's hold on the holdover guard. -/
  | pathstepClear (ini : Init) (p : Fin 8) (v : Word)
  /-- TDX_FRAME_PULSE (R424): A frame of a clock group begins, or a frame error is counted in a slave group. -/
  | tdxFramePulse (g : Fin 4) (kind : PulseKind) (rx : List (BitVec 15 × Byte))
  /-- TDX_CLOCK_LOSS (R424): No frame pulse for 375 µs sets LOSS. -/
  | tdxClockLoss (g : Fin 4)
  /-- TDX_BLOCK_BOUNDARY (R425): Every 16th reference frame advances BLKCNT and judges transmit slots. -/
  | tdxBlockBoundary (rx : List (BitVec 15 × Byte))
  /-- TDX_MAP_WRITE (R430): A map entry write is stored or refused, taking effect at the next frame. -/
  | tdxMapWrite (ini : Init) (k : BitVec 15) (v : Word)
  /-- TDX_SLIP (R426): A group drifting a frame against the reference repeats or drops one frame. -/
  | tdxSlip (g : Fin 4) (slow : Bool)
  /-- H110_FAILOVER (R434): Loss of the A clocks switches TDX to the B clocks. -/
  | h110Failover
  /-- CLKSEL_WRITE (R434): A write of CLKSEL = 0 returns to the A clocks at the next HFS0 pulse while AOK = 1. -/
  | clkselWrite (ini : Init) (v : Word)
  /-- HANDOVER_ARM (R436): ARM arms a timeslot handover at SWAPT. -/
  | handoverArm (ini : Init) (v : Word)
  /-- HANDOVER_APPLY (R436): At the chosen frame boundary, SWAP entries invert EN. -/
  | handoverApply (rx : List (BitVec 15 × Byte))
  /-- CW_LINK_TRAINED (R441): A Causeway link finishes training and enters HELLO. -/
  | cwLinkTrained (l : Fin 14)
  /-- CW_LINK_DOWN (R441): A Causeway link returns to DOWN, discarding unacknowledged frames. -/
  | cwLinkDown (l : Fin 14)
  /-- CW_LINK_KEEPALIVE (R441): A link silent for 10 µs sends a LINK frame. -/
  | cwLinkKeepalive (l : Fin 14)
  /-- CW_FRAME_RECEIVE (R444): A received Causeway frame is checked and routed or consumed. -/
  | cwFrameReceive (l : Fin 14) (b : List Byte) (sub : BitVec 9)
  /-- LINK_RX (R441): A received LINK frame records the peer and may bring the link UP. -/
  | linkRx (l : Fin 14) (b : List Byte)
  /-- CW_RETRANSMIT (R445): An unacknowledged frame older than the timeout is resent with all later ones. -/
  | cwRetransmit (l : Fin 14)
  /-- TIME_SEND (R457): Every TINT, a link sends a TIME frame. -/
  | timeSend (l : Fin 14) (sub : BitVec 9)
  /-- TIME_RX (R458): A TIME frame latches a time-transfer set. -/
  | timeRx (l : Fin 14) (b : List Byte) (sub : BitVec 9)
  /-- TT1_READ (R458): A read of CWY_L_TT1 latches the time-transfer set for the reader. -/
  | tt1Read (ini : Init)
  /-- REVT_SEND (R449): A write to CWY_REVT_SEND sends an EVENT frame. -/
  | revtSend (ini : Init) (v : Word)
  /-- EVENT_RX (R449): A received EVENT frame sets flags of a local task. -/
  | eventRx (l : Fin 14) (b : List Byte)
  /-- MBS_SEND (R450): A write of CWY_MBS_CMD.GO sends a mailbox message. -/
  | mbsSend (ini : Init) (v : Word)
  /-- MBOX_RX (R450): A received MBOX frame is written to the receive ring or dropped. -/
  | mboxRx (l : Fin 14) (b : List Byte)
  /-- RA_CMD (R451): A write of CWY_RA_CMD.GO sends a RACC frame. -/
  | raCmd (ini : Init) (v : Word)
  /-- RACC_RX (R451): A received RACC frame performs a checked access and answers with RRSP. -/
  | raccRx (l : Fin 14) (b : List Byte)
  /-- RRSP_RX (R451): A received RRSP completes the remote access. -/
  | rrspRx (l : Fin 14) (b : List Byte)
  /-- RA_TIMEOUT (R451): A remote access unanswered for 1 ms ends with TIMEOUT. -/
  | raTimeout
  /-- FENCECMD (R452): A write of CWY_FENCECMD.GO sends a FENCE frame. -/
  | fencecmd (ini : Init) (v : Word)
  /-- FENCE_RX (R452): A received FENCE frame fences the device if RFENCE = 1. -/
  | fenceRx (l : Fin 14) (b : List Byte)
  /-- PKTFWD_RX (R454): A received PKTFWD frame re-enters classification as port 8. -/
  | pktfwdRx (l : Fin 14) (b : List Byte)
  /-- BRIDGE_RX (R456): A received BRIDGE frame writes ring slots into local rings. -/
  | bridgeRx (l : Fin 14) (b : List Byte)
  /-- EPOCH_WRITE (R459): A write of CWY_EPOCH applies to frames built afterwards. -/
  | epochWrite (ini : Init) (v : Word)
  /-- MIG_GO (R462): GO starts a migration entry as source or destination. -/
  | migGo (ini : Init) (m : Fin 64) (v : Word)
  /-- MIG_ABORT_WRITE (R462): A written ABORT aborts a migration entry where allowed. -/
  | migAbortWrite (ini : Init) (m : Fin 64) (v : Word)
  /-- MIGPAGE_RX (R463): A received MIGPAGE frame writes a page or jitter-buffer chunk. -/
  | migpageRx (l : Fin 14) (b : List Byte)
  /-- PCDONE (R463): A received PCDONE makes the destination check and send ARMED. -/
  | pcdone (l : Fin 14) (b : List Byte)
  /-- ARMED (R462): A received ARMED moves the source to ARMSEEN. -/
  | armed (l : Fin 14) (b : List Byte)
  /-- COMMIT (R463): A received COMMIT before T makes the destination run the channel. -/
  | commit (l : Fin 14) (b : List Byte)
  /-- COMMITACK (R462): A received COMMITACK moves the source to GRACE. -/
  | commitack (l : Fin 14) (b : List Byte)
  /-- MIG_ABORT_RX (R463): A received ABORT ends a destination before RUNNING. -/
  | migAbortRx (l : Fin 14) (b : List Byte)
  /-- MIG_FREEZE (R462): At T − FRZ the source disables the task and freezes the channel. -/
  | migFreeze (m : Fin 64)
  /-- MIG_GUARD (R462): At T − GUARD an unready source aborts. -/
  | migGuard (m : Fin 64)
  /-- MIG_T_PASS (R463): T passing without COMMIT ends the destination. -/
  | migTPass (m : Fin 64)
  /-- MIG_ACKWAIT (R462): At T + ACKWAIT, a source without COMMITACK enters MIG_LOST and a destination enters DONE. -/
  | migAckwait (m : Fin 64)
  /-- MIG_GRACE_END (R462): At T + GRACE the source deletes forwarding keys and enters DONE. -/
  | migGraceEnd (m : Fin 64)
  /-- BOOT_RX (R468): A received BOOT frame is taken by the Causeway boot exchange. -/
  | bootRx (l : Fin 14) (b : List Byte)
  /-- BOOT_REQUEST_SEND (R468): Every 10 ms the booting device sends a REQUEST frame. -/
  | bootRequestSend
  /-- HMN_SYNC (R481): A synchronising reset clears and restarts a slice's chain. -/
  | hmnSync (ini : Init) (v : Word)
  /-- INPUT_SWITCH (R472): A CUR write or scan step opens the slice's switches and discharges. -/
  | inputSwitch (ini : Init) (k : Fin 4) (scan : Bool) (v : Word)
  /-- INPUT_MAKE (R472): The discharge ends, the new input's switches close, and the chain is reset. -/
  | inputMake (k : Fin 4)
  /-- FINE_OUTPUT (R483): A fine output is written and compared with the input's thresholds. -/
  | fineOutput (k : Fin 4) (data : BitVec 24)
  /-- COARSE_COMPARE (R485): A coarse sample crossing COVER or CUNDER acts. -/
  | coarseCompare (k : Fin 4) (code : BitVec 16)
  /-- DEMOD_WINDOW_END (R487): A demodulation window ends and writes I and Q. -/
  | demodWindowEnd (k : Fin 4) (di dq : BitVec 24)
  /-- EXCITATION_CHANGE (R488): An exciter write starts the settle count. -/
  | excitationChange (ini : Init) (e : Fin 2) (cfg : Bool) (v : Word)
  /-- GAIN_WRITE (R489): A GAIN write applies at the next frame boundary with RANGEX. -/
  | gainWrite (ini : Init) (v : Word)
  /-- SLC_CFG_WRITE (R481): A write to HMN_SLC_CFGk is a synchronising reset of slice k. -/
  | slcCfgWrite (ini : Init) (k : Fin 4) (v : Word)
  /-- MLS_TRIGGER (R494): A trigger from an enabled source is accepted or counted as missed. -/
  | mlsTrigger (sources : BitVec 5)
  /-- MLIN_EDGE (R493): An edge on MLIN is a Milestone trigger. -/
  | mlinEdge (rising : Bool)
  /-- MLS_TRIG (R493): A write of MLS_TRIG.GO is a software trigger. -/
  | mlsTrig (ini : Init) (v : Word)
  /-- MILESTONE_LATCH (R494): Eight cycles after acceptance, every block latches its snapshot set. -/
  | milestoneLatch (nwOffset : BitVec 15)
  /-- MLS_ARM (R495): A write of MLS_ARM.ARM sets ARMED and releases the trace hold. -/
  | mlsArm (ini : Init) (v : Word)
  /-- MLOUT_PULSE_END (R498): MLOUT returns inactive after WIDTH × 10 ns. -/
  | mloutPulseEnd
  /-- MLSTONE_RX (R499): A received MLSTONE frame is recorded and may trigger. -/
  | mlstoneRx (dev : BitVec 11) (seq : BitVec 16)
  /-- TRACE_HOLD (R501): After POSTCNT entries the trace ring is held. -/
  | traceHold
  /-- TAP_RESET (R502): TRST_N low or five TMS-high clocks reset the TAP. -/
  | tapReset
  /-- TAP_INSTRUCTION_LOAD (R503): Loading an instruction selects it; EXTEST, CLAMP or HIGHZ in service fences the device. -/
  | tapInstructionLoad (ir : BitVec 8)
  /-- DBGACC (R504): At Update-DR, a debug access is made as the debug-port initiator. -/
  | dbgacc (op : BitVec 2) (addr : PAddr) (v : Word)
  /-- DBGCHAL (R505): DBGCHAL captures a fresh nonce and the serial number. -/
  | dbgchal
  /-- DBGRESP (R505): DBGRESP checks a signed response and may unlock debug. -/
  | dbgresp (slot : BitVec 2) (key : List Byte) (sig : List Byte)
  /-- DBG_HALT (R506): A halt-register write halts or resumes a core. -/
  | dbgHalt (ini : Init) (svc : Bool) (hi : Bool) (v : Word)
  /-- DBG_STEP (R506): MLS_DBG_STEP issues one bundle on a halted core. -/
  | dbgStep (ini : Init) (v : Word)
  /-- DBG_REGDATA_WRITE (R506): A write of REGDATA changes a register of a halted core. -/
  | dbgRegdataWrite (ini : Init) (v : Word)
  /-- BUDGET_HELD (R198): A budget level's USED reaches CAP × 1,024 within a window, so the budget becomes held, its non-urgent READY tasks turn ineligible and HOLD is traced. -/
  | budgetHeld (b : Fin 32) (t : BitVec 16)
  /-- AVS_DAWN_STEP_RELEASE (R60): After 1 ms of RUN following a Dawn sequence from PLLOFF or PWROFF, AVS releases the extra VDD step it raised before the sequence. -/
  | avsDawnStepRelease (c : Fin 8)
  /-- PMBUS_TRANSACTION_DONE (R60): A PMBus transaction started through PMU_PMBCMD ends some time later: GO clears, PMBDATA takes the read data and ERR records a NACK or PEC error. -/
  | pmbusTransactionDone (data : BitVec 16) (err : Bool)
  deriving DecidableEq, Repr

end Sys2Proof
end

