-- ==== Sys2Proof/Decode.lean ====
section
/-! DEFINITION.  The table's bits, of which no row has any; and the syllables of the instruction set: the
commands that a 32-bit syllable spells on a core, and the syllable of a command (R143, R146, R152–R155,
R159, R160, R178, R182). -/

namespace Sys2Proof

open Machine (bits bitN bitOf b2n)

/-- The command a word spells by the bits of spec/opcode_table.json: no row of it gives bits. -/
def decodeTableWord (_nbits _w : Nat) : Option Instr := none

/-! ## Decoding -/

/-- Field [hi:lo] of a syllable as an n-bit value. -/
def fieldBits (n w hi lo : Nat) : BitVec n := BitVec.ofNat n (bits w hi lo)

/-- The commands that an M syllable spells (R146, R152). -/
def decodeM (c : Fin 68) (e : Bool) (w : Nat) : List Instr :=
  let acd := fieldBits 3 w 23 21
  let ra := fieldBits 5 w 20 16
  let rb := fieldBits 5 w 15 11
  let rc := fieldBits 5 w 10 6
  let acc := fieldBits 2 w 5 4
  let opt := bits w 3 0
  let aca := fieldBits 3 w 18 16
  let bad := [Instr.reservedSyllable c e 2]
  match bits w 28 24 with
  | 1 => if rc = 0 ∧ opt % 4 = 0 then [.cmac c e acc acd ra rb (bitOf w 3) (bitOf w 2)] else bad
  | 2 => if rc = 0 ∧ opt % 8 = 0 then [.mac c e acc acd ra rb (bitOf w 3)] else bad
  | 3 => if rc = 0 ∧ opt = 0 then [.qmac c e acc acd ra rb] else bad
  | 4 => if acc = 0 ∧ opt % 4 = 0 then [.bfly c e ra rb rc (bitOf w 3) (bitOf w 2)] else bad
  | 5 =>
    if acc ≠ 0 ∨ rc ≠ 0 then bad
    else match opt with
      | 0 => if ra = 0 ∧ rb = 0 then [.acclr c e acd] else bad
      | 1 => if bits w 20 19 = 0 ∧ rb = 0 then [.acmov c e acd aca] else bad
      | 2 => if bits w 20 19 = 0 ∧ rb = 0 then [.acadd c e acd aca] else bad
      | 3 => if bits w 20 19 = 0 ∧ rb = 0 then [.acsub c e acd aca] else bad
      | 4 => if ra = 0 then [.acsha c e acd rb] else bad
      | 5 => if bits w 20 19 = 0 ∧ rb = 0 then [.acneg c e acd aca] else bad
      | _ => bad
  | _ => bad

/-- An access of an L syllable by its OP (R153); MOD and no access have REG zero. -/
def decodeAccess (c : Fin 68) (e : Bool) (part : LPart) (port : Bool) (mode : LMode) (op : Nat) (reg : BitVec 5)
    (ptr : BitVec 3) : Option Instr :=
  match op with
  | 1 => some (.ldH c e part port mode reg ptr)
  | 2 => some (.ldW c e part port mode reg ptr)
  | 3 => some (.ldL c e part port mode reg ptr)
  | 4 => some (.stH c e part port mode reg ptr)
  | 5 => some (.stW c e part port mode reg ptr)
  | 6 => some (.stL c e part port mode reg ptr)
  | 7 => if reg = 0 then some (.mod c e part port mode ptr) else none
  | _ => none

/-- A 13-bit access field of the dual format. -/
def decodeField (c : Fin 68) (e : Bool) (part : LPart) (port : Bool) (f : Nat) : Option Instr :=
  decodeAccess c e part port (.dual (fieldBits 2 f 1 0)) (bits f 12 10) (fieldBits 5 f 9 5) (fieldBits 3 f 4 2)

/-- The commands that an L syllable spells. -/
def decodeL (c : Fin 68) (e : Bool) (w : Nat) : List Instr :=
  let bad := [Instr.reservedSyllable c e 1]
  if bitOf w 28 then
    if bits w 27 0 = 0 then [.nop c e true]
    else match decodeAccess c e .only (bitOf w 27) (.single (fieldBits 3 w 15 13) (fieldBits 3 w 12 10) (fieldBits 10 w 9 0))
        (bits w 26 24) (fieldBits 5 w 23 19) (fieldBits 3 w 18 16) with
      | some i => [i]
      | none => bad
  else if bits w 1 0 ≠ 0 then bad
  else
    let xa := bits w 27 15
    let ya := bits w 14 2
    if xa = 0 ∧ ya = 0 then [.nop c e true]
    else if ya = 0 then
      match decodeField c e .only false xa with
      | some i => [i]
      | none => bad
    else if xa = 0 then
      match decodeField c e .only true ya with
      | some i => [i]
      | none => bad
    else match decodeField c e .first false xa, decodeField c e .second true ya with
      | some i, some j => [i, j]
      | _, _ => bad

/-- S syllables of formats SN, SB, SBC, SJ, SJR, SL, SQ and SM: jobs, branches, loops, queues, the system. -/
def decodeCtl (c : Fin 68) (e : Bool) (w : Nat) : List Instr :=
  let bad := [Instr.reservedSyllable c e 0]
  let imm := fieldBits 16 w 15 0
  let ra := fieldBits 5 w 17 13
  let rb := fieldBits 5 w 12 8
  let rw := fieldBits 4 w 21 18
  let none' := fun i : Instr => if bits w 22 0 = 0 then [i] else bad
  let imm16 := fun i : Instr => if bits w 22 16 = 0 then [i] else bad
  let asWs := fun i : Instr => if bits w 22 18 = 0 ∧ rb = 0 ∧ bitOf w 7 ∧ bits w 6 0 = 0 then [i] else bad
  let count : Option LoopCount := if bitOf w 22 then
      (if bits w 21 17 = 0 then some (.reg (fieldBits 5 w 16 12)) else none)
    else some (.imm (fieldBits 10 w 21 12))
  let q : Option QSel := if bitOf w 22 ∨ bits w 14 13 ≠ 0 then none
    else if bitOf w 15 then some (.reg rb) else if rb = 0 then some (.num (fieldBits 8 w 7 0)) else none
  match bits w 28 23 with
  | 0x28 => [.br c e (fieldBits 23 w 22 0)]
  | 0x29 => [.brc c e (fieldBits 4 w 22 19) (fieldBits 19 w 18 0)]
  | 0x2A => [.jl c e (fieldBits 4 w 22 19) (fieldBits 19 w 18 0)]
  | 0x2B => if bits w 13 0 = 0 then [.jlr c e (fieldBits 4 w 22 19) (fieldBits 4 w 18 15) (bitOf w 14)] else bad
  | 0x2C => match count with
    | some k => [.loop c e k (fieldBits 12 w 11 0)]
    | none => bad
  | 0x2D => match count with
    | some k => [.loopr c e k (fieldBits 12 w 11 0)]
    | none => bad
  | 0x30 => none' (.waitjob c e)
  | 0x31 => none' (.endjob c e none)
  | 0x32 => none' (.yield c e)
  | 0x33 => asWs (.signal c e ra)
  | 0x34 => asWs (.touch c e ra)
  | 0x35 => match q with
    | some k => if bits w 17 16 = 0 then [.qrd c e k rw] else bad
    | none => bad
  | 0x36 => match q with
    | some k => if bitOf w 16 then bad else [.qwr c e (bitOf w 17) k rw]
    | none => bad
  | 0x37 => match q with
    | some k => [.qtry c e (bitOf w 16) (bitOf w 17) k rw]
    | none => bad
  | 0x38 => imm16 (.bkpt c e imm)
  | 0x39 => none' (.rett c e)
  | 0x3A => none' (.fence c e)
  | 0x3B => imm16 (.syscall c e imm)
  | 0x3C => none' (.eret c e)
  | 0x3D =>
    if bits w 19 18 ≠ 0 ∨ bits w 12 0 ≠ 0 then bad
    else match bits w 22 20 with
      | 0 => [.cacheIinvLine c e ra]
      | 1 => [.cacheCleanLine c e ra]
      | 2 => [.cacheDinvLine c e ra]
      | 3 => [.cacheCleanInvLine c e ra]
      | 4 => if ra = 0 then [.cacheIinvAll c e] else bad
      | 5 => if ra = 0 then [.cacheCleanInvAll c e] else bad
      | _ => bad
  | 0x3E =>
    if bits w 19 18 ≠ 0 ∨ bits w 12 0 ≠ 0 then bad
    else match bits w 22 20 with
      | 0 => [.tlbiPage c e ra]
      | 1 => [.tlbiAsid c e ra]
      | 2 => if ra = 0 then [.tlbiNonglobal c e] else bad
      | 3 => if ra = 0 then [.tlbiAll c e] else bad
      | _ => bad
  | _ => bad

/-- The commands that an S syllable spells (R159, R160). -/
def decodeS (c : Fin 68) (e : Bool) (w : Nat) : List Instr :=
  let bad := [Instr.reservedSyllable c e 0]
  let rd := fieldBits 5 w 22 18
  let ra := fieldBits 5 w 17 13
  let rb := fieldBits 5 w 12 8
  let sz := bitOf w 7
  let sr := fun i : Instr => if bits w 6 0 = 0 then [i] else bad
  let sr1 := fun i : Instr => if bits w 6 0 = 0 ∧ rb = 0 then [i] else bad
  let siz := bitOf w 12
  let imm := fieldBits 12 w 11 0
  let acn := fieldBits 3 w 17 15
  let h := bitOf w 14
  let form := fieldBits 2 w 13 12
  let sa := fun i : Instr => if bits w 11 0 = 0 then [i] else bad
  match bits w 28 23 with
  | 0x00 => if bits w 22 0 = 0 then [.nop c e false] else bad
  | 0x01 => sr (.add c e sz rd ra rb)
  | 0x02 => sr (.sub c e sz rd ra rb)
  | 0x03 => sr (.and c e sz rd ra rb)
  | 0x04 => sr (.or c e sz rd ra rb)
  | 0x05 => sr (.xor c e sz rd ra rb)
  | 0x06 => sr (.asr c e sz rd ra rb)
  | 0x07 => sr (.lsr c e sz rd ra rb)
  | 0x08 => sr (.lsl c e sz rd ra rb)
  | 0x09 => sr (.min c e sz rd ra rb)
  | 0x0A => sr (.max c e sz rd ra rb)
  | 0x0B => sr1 (.abs c e sz rd ra)
  | 0x0C => sr1 (.neg c e sz rd ra)
  | 0x0D => if rd = 0 then sr (.cmp c e sz ra rb) else bad
  | 0x0E => if sz then bad else sr (.muli c e rd ra rb)
  | 0x0F => if sz then bad else sr1 (.ldlk c e rd ra)
  | 0x10 => [.addi c e siz rd ra imm]
  | 0x11 => [.andi c e siz rd ra imm]
  | 0x12 => [.ori c e siz rd ra imm]
  | 0x13 => [.xori c e siz rd ra imm]
  | 0x14 => [.asri c e siz rd ra imm]
  | 0x15 => [.lsri c e siz rd ra imm]
  | 0x16 => [.lsli c e siz rd ra imm]
  | 0x17 => if rd = 0 then [.cmpi c e siz ra imm] else bad
  | 0x18 =>
    match bits w 17 16 with
    | 0 => [.moviH c e rd (fieldBits 16 w 15 0)]
    | 1 => [.moviW c e rd (fieldBits 16 w 15 0)]
    | 2 => [.movhi c e rd (fieldBits 16 w 15 0)]
    | _ => bad
  | 0x19 => if bits w 10 0 = 0 then [.movr c e (fieldBits 6 w 22 17) (fieldBits 6 w 16 11)] else bad
  | 0x1A =>
    if bits w 10 0 ≠ 0 then bad
    else if bitOf w 16 then [.movcWrite c e (fieldBits 6 w 22 17) (fieldBits 5 w 15 11)]
    else [.movcRead c e (fieldBits 6 w 22 17) (fieldBits 5 w 15 11)]
  | 0x1B => if sz then bad else sr (.stcn c e rd ra rb)
  | 0x1C => if sz then bad else sr1 (.rnd c e rd ra)
  | 0x1D => sr1 (.norm c e sz rd ra)
  | 0x1E => sr1 (.exp c e sz rd ra)
  | 0x1F => if form = 0 then sa (.expa c e rd acn h) else bad
  | 0x20 => sa (.mova c e rd acn h form)
  | 0x21 => sa (.movar c e rd acn h form)
  | 0x22 => sa (.movta c e rd acn h form)
  | _ => decodeCtl c e w

/-- The commands that a syllable spells on core c: two for a dual L syllable with both accesses. -/
def decodeSyllable (c : Fin 68) (w : Nat) : List Instr :=
  let e := bitOf w 31
  match bits w 30 29 with
  | 0 => decodeS c e w
  | 1 => decodeL c e w
  | 2 => decodeM c e w
  | _ => [.reservedSyllable c e 3]

/-! ## Encoding -/

/-- A syllable of a class with its E bit and the bits [28:0]. -/
def sylWord (cls : Nat) (e : Bool) (v : Nat) : Nat := b2n e * 2 ^ 31 + cls * 2 ^ 29 + v

/-- Formats of S syllables: opcode and fields. -/
def encS (e : Bool) (op v : Nat) : Nat := sylWord 0 e (op * 2 ^ 23 + v)
def encSR (e : Bool) (op : Nat) (sz : Bool) (rd ra rb : Nat) : Nat :=
  encS e op (rd * 2 ^ 18 + ra * 2 ^ 13 + rb * 2 ^ 8 + b2n sz * 2 ^ 7)
def encSI (e : Bool) (op : Nat) (sz : Bool) (rd ra imm : Nat) : Nat :=
  encS e op (rd * 2 ^ 18 + ra * 2 ^ 13 + b2n sz * 2 ^ 12 + imm)
def encSK (e : Bool) (kind rd imm : Nat) : Nat := encS e 0x18 (rd * 2 ^ 18 + kind * 2 ^ 16 + imm)
def encSC (e : Bool) (cr dir rw : Nat) : Nat := encS e 0x1A (cr * 2 ^ 17 + dir * 2 ^ 16 + rw * 2 ^ 11)
def encSA (e : Bool) (op rd acn : Nat) (h : Bool) (form : Nat) : Nat :=
  encS e op (rd * 2 ^ 18 + acn * 2 ^ 15 + b2n h * 2 ^ 14 + form * 2 ^ 12)
def encSL (e : Bool) (op leoff : Nat) : LoopCount → Nat
  | .imm n => encS e op (n.toNat * 2 ^ 12 + leoff)
  | .reg rc => encS e op (2 ^ 22 + rc.toNat * 2 ^ 12 + leoff)
def encSQ (e : Bool) (op rw : Nat) (fin dir : Bool) : QSel → Nat
  | .num q => encS e op (rw * 2 ^ 18 + b2n fin * 2 ^ 17 + b2n dir * 2 ^ 16 + q.toNat)
  | .reg rb => encS e op (rw * 2 ^ 18 + b2n fin * 2 ^ 17 + b2n dir * 2 ^ 16 + 2 ^ 15 + rb.toNat * 2 ^ 8)
def encSM (e : Bool) (op opc ra : Nat) : Nat := encS e op (opc * 2 ^ 20 + ra * 2 ^ 13)

/-- M syllables. -/
def encM (e : Bool) (op acd ra rb rc acc opt : Nat) : Nat :=
  sylWord 2 e (op * 2 ^ 24 + acd * 2 ^ 21 + ra * 2 ^ 16 + rb * 2 ^ 11 + rc * 2 ^ 6 + acc * 2 ^ 4 + opt)

/-- A 13-bit access field. -/
def encField (op reg ptr am : Nat) : Nat := op * 2 ^ 10 + reg * 2 ^ 5 + ptr * 2 ^ 2 + am

/-- The access field of a command in the dual format. -/
def encDual : Instr → Option Nat
  | .ldH _ _ _ _ (.dual am) reg ptr => some (encField 1 reg.toNat ptr.toNat am.toNat)
  | .ldW _ _ _ _ (.dual am) reg ptr => some (encField 2 reg.toNat ptr.toNat am.toNat)
  | .ldL _ _ _ _ (.dual am) reg ptr => some (encField 3 reg.toNat ptr.toNat am.toNat)
  | .stH _ _ _ _ (.dual am) reg ptr => some (encField 4 reg.toNat ptr.toNat am.toNat)
  | .stW _ _ _ _ (.dual am) reg ptr => some (encField 5 reg.toNat ptr.toNat am.toNat)
  | .stL _ _ _ _ (.dual am) reg ptr => some (encField 6 reg.toNat ptr.toNat am.toNat)
  | .mod _ _ _ _ (.dual am) ptr => some (encField 7 0 ptr.toNat am.toNat)
  | _ => none

/-- An access alone in its L syllable. -/
def encL (e : Bool) (part : LPart) (port : Bool) (mode : LMode) (op reg ptr : Nat) : Option Nat :=
  if part ≠ .only then none
  else match mode with
    | .dual am => some (sylWord 1 e (encField op reg ptr am.toNat * (if port then 2 ^ 2 else 2 ^ 15)))
    | .single am msel imm => some (sylWord 1 e (2 ^ 28 + b2n port * 2 ^ 27 + op * 2 ^ 24 + reg * 2 ^ 19 + ptr * 2 ^ 16 +
        am.toNat * 2 ^ 13 + msel.toNat * 2 ^ 10 + imm.toNat))

/-- The dual L syllable of an X access and a Y access. -/
def encodePair (e : Bool) (x y : Instr) : Option Nat :=
  match encDual x, encDual y with
  | some a, some b => some (sylWord 1 e (a * 2 ^ 15 + b * 2 ^ 2))
  | _, _ => none

/-- The syllable of a command; none for a command that is no syllable of its own. -/
def encodeSyllable : Instr → Option Nat
  | .nop _ e inL => some (sylWord (b2n inL) e 0)
  | .add _ e sz rd ra rb => some (encSR e 0x01 sz rd.toNat ra.toNat rb.toNat)
  | .sub _ e sz rd ra rb => some (encSR e 0x02 sz rd.toNat ra.toNat rb.toNat)
  | .and _ e sz rd ra rb => some (encSR e 0x03 sz rd.toNat ra.toNat rb.toNat)
  | .or _ e sz rd ra rb => some (encSR e 0x04 sz rd.toNat ra.toNat rb.toNat)
  | .xor _ e sz rd ra rb => some (encSR e 0x05 sz rd.toNat ra.toNat rb.toNat)
  | .asr _ e sz rd ra rb => some (encSR e 0x06 sz rd.toNat ra.toNat rb.toNat)
  | .lsr _ e sz rd ra rb => some (encSR e 0x07 sz rd.toNat ra.toNat rb.toNat)
  | .lsl _ e sz rd ra rb => some (encSR e 0x08 sz rd.toNat ra.toNat rb.toNat)
  | .min _ e sz rd ra rb => some (encSR e 0x09 sz rd.toNat ra.toNat rb.toNat)
  | .max _ e sz rd ra rb => some (encSR e 0x0A sz rd.toNat ra.toNat rb.toNat)
  | .abs _ e sz rd ra => some (encSR e 0x0B sz rd.toNat ra.toNat 0)
  | .neg _ e sz rd ra => some (encSR e 0x0C sz rd.toNat ra.toNat 0)
  | .cmp _ e sz ra rb => some (encSR e 0x0D sz 0 ra.toNat rb.toNat)
  | .muli _ e rd ra rb => some (encSR e 0x0E false rd.toNat ra.toNat rb.toNat)
  | .ldlk _ e rd ra => some (encSR e 0x0F false rd.toNat ra.toNat 0)
  | .addi _ e sz rd ra imm => some (encSI e 0x10 sz rd.toNat ra.toNat imm.toNat)
  | .andi _ e sz rd ra imm => some (encSI e 0x11 sz rd.toNat ra.toNat imm.toNat)
  | .ori _ e sz rd ra imm => some (encSI e 0x12 sz rd.toNat ra.toNat imm.toNat)
  | .xori _ e sz rd ra imm => some (encSI e 0x13 sz rd.toNat ra.toNat imm.toNat)
  | .asri _ e sz rd ra imm => some (encSI e 0x14 sz rd.toNat ra.toNat imm.toNat)
  | .lsri _ e sz rd ra imm => some (encSI e 0x15 sz rd.toNat ra.toNat imm.toNat)
  | .lsli _ e sz rd ra imm => some (encSI e 0x16 sz rd.toNat ra.toNat imm.toNat)
  | .cmpi _ e sz ra imm => some (encSI e 0x17 sz 0 ra.toNat imm.toNat)
  | .moviH _ e rd imm => some (encSK e 0 rd.toNat imm.toNat)
  | .moviW _ e rd imm => some (encSK e 1 rd.toNat imm.toNat)
  | .movhi _ e rd imm => some (encSK e 2 rd.toNat imm.toNat)
  | .movr _ e xd xs => some (encS e 0x19 (xd.toNat * 2 ^ 17 + xs.toNat * 2 ^ 11))
  | .movcRead _ e cr rw => some (encSC e cr.toNat 0 rw.toNat)
  | .movcWrite _ e cr rw => some (encSC e cr.toNat 1 rw.toNat)
  | .stcn _ e rd ra rb => some (encSR e 0x1B false rd.toNat ra.toNat rb.toNat)
  | .rnd _ e rd ra => some (encSR e 0x1C false rd.toNat ra.toNat 0)
  | .norm _ e sz rd ra => some (encSR e 0x1D sz rd.toNat ra.toNat 0)
  | .exp _ e sz rd ra => some (encSR e 0x1E sz rd.toNat ra.toNat 0)
  | .expa _ e rd acn h => some (encSA e 0x1F rd.toNat acn.toNat h 0)
  | .mova _ e rd acn h form => some (encSA e 0x20 rd.toNat acn.toNat h form.toNat)
  | .movar _ e rd acn h form => some (encSA e 0x21 rd.toNat acn.toNat h form.toNat)
  | .movta _ e rd acn h form => some (encSA e 0x22 rd.toNat acn.toNat h form.toNat)
  | .br _ e off => some (encS e 0x28 off.toNat)
  | .brc _ e cond off => some (encS e 0x29 (cond.toNat * 2 ^ 19 + off.toNat))
  | .jl _ e pd off => some (encS e 0x2A (pd.toNat * 2 ^ 19 + off.toNat))
  | .jlr _ e pd ps link => some (encS e 0x2B (pd.toNat * 2 ^ 19 + ps.toNat * 2 ^ 15 + b2n link * 2 ^ 14))
  | .loop _ e count leoff => some (encSL e 0x2C leoff.toNat count)
  | .loopr _ e count leoff => some (encSL e 0x2D leoff.toNat count)
  | .waitjob _ e => some (encS e 0x30 0)
  | .endjob _ e none => some (encS e 0x31 0)
  | .yield _ e => some (encS e 0x32 0)
  | .signal _ e ra => some (encSR e 0x33 true 0 ra.toNat 0)
  | .touch _ e ra => some (encSR e 0x34 true 0 ra.toNat 0)
  | .qrd _ e q rw => some (encSQ e 0x35 rw.toNat false false q)
  | .qwr _ e fin q rw => some (encSQ e 0x36 rw.toNat fin false q)
  | .qtry _ e dir fin q rw => some (encSQ e 0x37 rw.toNat fin dir q)
  | .bkpt _ e tag => some (encS e 0x38 tag.toNat)
  | .rett _ e => some (encS e 0x39 0)
  | .fence _ e => some (encS e 0x3A 0)
  | .syscall _ e imm => some (encS e 0x3B imm.toNat)
  | .eret _ e => some (encS e 0x3C 0)
  | .cacheIinvLine _ e ra => some (encSM e 0x3D 0 ra.toNat)
  | .cacheCleanLine _ e ra => some (encSM e 0x3D 1 ra.toNat)
  | .cacheDinvLine _ e ra => some (encSM e 0x3D 2 ra.toNat)
  | .cacheCleanInvLine _ e ra => some (encSM e 0x3D 3 ra.toNat)
  | .cacheIinvAll _ e => some (encSM e 0x3D 4 0)
  | .cacheCleanInvAll _ e => some (encSM e 0x3D 5 0)
  | .tlbiPage _ e ra => some (encSM e 0x3E 0 ra.toNat)
  | .tlbiAsid _ e ra => some (encSM e 0x3E 1 ra.toNat)
  | .tlbiNonglobal _ e => some (encSM e 0x3E 2 0)
  | .tlbiAll _ e => some (encSM e 0x3E 3 0)
  | .cmac _ e acc acd ra rb cja cjb =>
    some (encM e 1 acd.toNat ra.toNat rb.toNat 0 acc.toNat (b2n cja * 8 + b2n cjb * 4))
  | .mac _ e acc acd ra rb h => some (encM e 2 acd.toNat ra.toNat rb.toNat 0 acc.toNat (b2n h * 8))
  | .qmac _ e acc acd ra rb => some (encM e 3 acd.toNat ra.toNat rb.toNat 0 acc.toNat 0)
  | .bfly _ e ra rb rc sc cjw => some (encM e 4 0 ra.toNat rb.toNat rc.toNat 0 (b2n sc * 8 + b2n cjw * 4))
  | .acclr _ e acd => some (encM e 5 acd.toNat 0 0 0 0 0)
  | .acmov _ e acd aca => some (encM e 5 acd.toNat aca.toNat 0 0 0 1)
  | .acadd _ e acd aca => some (encM e 5 acd.toNat aca.toNat 0 0 0 2)
  | .acsub _ e acd aca => some (encM e 5 acd.toNat aca.toNat 0 0 0 3)
  | .acsha _ e acd sh => some (encM e 5 acd.toNat 0 sh.toNat 0 0 4)
  | .acneg _ e acd aca => some (encM e 5 acd.toNat aca.toNat 0 0 0 5)
  | .ldH _ e part port mode reg ptr => encL e part port mode 1 reg.toNat ptr.toNat
  | .ldW _ e part port mode reg ptr => encL e part port mode 2 reg.toNat ptr.toNat
  | .ldL _ e part port mode reg ptr => encL e part port mode 3 reg.toNat ptr.toNat
  | .stH _ e part port mode reg ptr => encL e part port mode 4 reg.toNat ptr.toNat
  | .stW _ e part port mode reg ptr => encL e part port mode 5 reg.toNat ptr.toNat
  | .stL _ e part port mode reg ptr => encL e part port mode 6 reg.toNat ptr.toNat
  | .mod _ e part port mode ptr => encL e part port mode 7 0 ptr.toNat
  | _ => none

end Sys2Proof
end

