-- ==== Sys2Proof/Config.lean ====
section
/-! DEFINITION.  What the spec leaves open: constants without a body.  Nothing in Lean can evaluate
one, so a statement about the machine holds whatever they are. -/

namespace Sys2Proof.Config

/-- The n-th free value drawn: the value of a result the spec says is not defined, or a choice it
leaves to the device (each use is named in notes/assumptions). -/
opaque freeNat : Nat → Nat

/-- Which of the values a register may hold a read in the shadow of an operation returns (R114): for
bundle number n, cell and instance. -/
opaque shadowPick : (bundle cell inst : Nat) → Nat

/-- SHA-384 of a byte string: 48 bytes (R77, R505; the function is a standard the spec only names). -/
opaque sha384 : List Byte → List Byte

/-- Does an ECDSA P-384 signature verify, for a public key and a digest (R77, R505). -/
opaque ecdsaP384 : (key sig digest : List Byte) → Bool

/-- The latency of a link, in 1/64 ns, that the fuse trims (words 69–95) give a mode and FEC choice, by
direction (0 receive, 1 transmit): the spec does not give the layout of the trims (R82, R403). -/
opaque latTrim : (link mode fec dir : Nat) → (trims : List Nat) → Nat

/-- SRTP protection of an RTP packet with a suite, a master key and salt and a packet index: the packet
sent, with its tag (RFC 3711, RFC 7714; R378, R381). -/
opaque srtpSeal : (suite key salt index : Nat) → (packet : List Byte) → List Byte

/-- SRTP verification and decryption of a packet: the RTP packet without its tag, or none where the tag
does not verify (R374). -/
opaque srtpOpen : (suite key salt index : Nat) → (packet : List Byte) → Option (List Byte)

end Sys2Proof.Config
end

