-- ==== Sys2Proof/Machine/Tbl.lean ====
section
/-! DEFINITION.  Sparse tables: read, write, and the canonical form.  Memory, cells and every other
keyed collection of the state are such tables. -/

namespace Sys2Proof.Machine

/-- The value of key k: the first entry of k, else the default. -/
def Tbl.get {α : Type} (d : α) : Tbl α → Nat → α
  | [], _ => d
  | (i, a) :: r, k => if i = k then a else Tbl.get d r k

/-- The table without key k. -/
def Tbl.drop {α : Type} (k : Nat) : Tbl α → Tbl α
  | [] => []
  | (i, a) :: r => if i = k then Tbl.drop k r else (i, a) :: Tbl.drop k r

/-- The table with (k, v) put before the first larger key; k is not in the table. -/
def Tbl.ins {α : Type} (k : Nat) (v : α) : Tbl α → Tbl α
  | [] => [(k, v)]
  | (i, a) :: r => if k < i then (k, v) :: (i, a) :: r else (i, a) :: Tbl.ins k v r

/-- The table in which key k has value v; writing the default removes the entry. -/
def Tbl.put {α : Type} [DecidableEq α] (d : α) (k : Nat) (v : α) (t : Tbl α) : Tbl α :=
  if v = d then Tbl.drop k t else Tbl.ins k v (Tbl.drop k t)

/-- Keys strictly rising above lo. -/
def Tbl.sortedFrom {α : Type} : Nat → Tbl α → Bool
  | _, [] => true
  | lo, (i, _) :: r => decide (lo ≤ i) && Tbl.sortedFrom (i + 1) r

/-- The canonical form: keys strictly rising, no entry equal to the default. -/
def Tbl.wf {α : Type} [DecidableEq α] (d : α) (t : Tbl α) : Bool :=
  Tbl.sortedFrom 0 t && t.all fun e => decide (e.2 ≠ d)

/-- The entries whose key satisfies p. -/
def Tbl.keep {α : Type} (p : Nat → Bool) (t : Tbl α) : Tbl α := t.filter fun e => p e.1

/-- The table with the entries of [src, src+n) copied over those of [dst, dst+n). -/
def Tbl.copyRange {α : Type} [DecidableEq α] (d : α) (src dst n : Nat) (t : Tbl α) : Tbl α :=
  (t.filter fun e => decide (src ≤ e.1 ∧ e.1 < src + n)).foldl
    (fun u e => Tbl.put d (dst + (e.1 - src)) e.2 u)
    (Tbl.keep (fun k => !decide (dst ≤ k ∧ k < dst + n)) t)

/-- The table with every entry of [a, a+n) removed. -/
def Tbl.clearRange {α : Type} (a n : Nat) (t : Tbl α) : Tbl α :=
  Tbl.keep (fun k => !decide (a ≤ k ∧ k < a + n)) t

end Sys2Proof.Machine
end

