-- ==== Sys2Proof/Machine/Fields.lean ====
section
/-! DEFINITION.  What a named cell of state is, and what a register of the register space is. -/

namespace Sys2Proof.Machine

/-- A named cell of state: its number, its width in bits, the value it holds after reset, and the
instances (if any) whose reset value differs.  A cell of a register is numbered by the place of its
field: (block × 0x10_0000 + offset) × 32 + lowest bit.  A cell may have many instances. -/
structure Fld where
  id : Nat
  w : Nat
  reset : Nat
  special : Tbl Nat
  deriving DecidableEq, Repr

/-- The value instance i of a cell holds after reset. -/
def Fld.resetAt (f : Fld) (i : Nat) : Nat := Tbl.get f.reset f.special i

/-- The access types of R5, with `cnt` for the saturating counters of R17. -/
inductive Acc where
  | rw | ro | wo | w1c | w1s | rwh | ac | cnt
  deriving DecidableEq, Repr

/-- A field of a register: its lowest bit, its cell, its access type, and the ranges of values the
spec calls reserved (R8). -/
structure RegFld where
  lo : Nat
  fld : Fld
  acc : Acc
  rsv : List (Nat × Nat)
  deriving DecidableEq, Repr

/-- Which instance of a register an access reaches: an array element; the instance the initiator has
selected (by the block's select register, or by TMU's second one); the initiator's private copy. -/
inductive RegKind where
  | arr | win | win2 | priv
  deriving DecidableEq, Repr

/-- A register: offset in its block, how many there are, their distance, kind, fields. -/
structure Reg where
  off : Nat
  n : Nat
  stride : Nat
  kind : RegKind
  fields : List RegFld
  deriving DecidableEq, Repr

end Sys2Proof.Machine
end

