-- ==== Sys2Proof/Machine/Internals.lean ====
section
/-! DEFINITION.  State the spec gives the machine outside its register space, and the few cells the
model itself keeps, as named cells; each cites the rule that names it. -/

namespace Sys2Proof.Machine

/-- Nightwatch has started (R519). -/
def I.nwStarted : Fld := ⟨1073741824, 1, 0, []⟩
/-- the 48-bit Nightwatch counter (R44). -/
def I.nwCnt : Fld := ⟨1073741856, 48, 0, []⟩
/-- phase of NWCLK within the 500 MHz tick (the model's tick, 32,768 Hz against 500 MHz) (R44). -/
def I.nwPhase : Fld := ⟨1073741888, 29, 0, []⟩
/-- WATCH was entered from RESET (R59). -/
def I.watchFromReset : Fld := ⟨1073741920, 1, 0, []⟩
/-- sequence steps still to be switched off at WATCH entry (R64). -/
def I.watchEntry : Fld := ⟨1073741952, 4, 0, []⟩
/-- a wake event kept while WATCH is being entered (R70). -/
def I.wakePend : Fld := ⟨1073741984, 1, 0, []⟩
/-- level of RST_N as sampled (R519). -/
def I.pinRstN : Fld := ⟨1075838976, 1, 0, []⟩
/-- level of PEN0-PEN7: 0 high-impedance, 1 low, 2 high (R62, 8 instances). -/
def I.pinPen : Fld := ⟨1075839008, 2, 0, []⟩
/-- level of PGOOD (R62). -/
def I.pinPgood : Fld := ⟨1075839040, 1, 0, []⟩
/-- step of R74 in progress: 0 none, 1 fuse load, 2 REFCLK detection, 3 PLL, 4 sequence, 5 boot ROM or later (R74). -/
def I.bootPh : Fld := ⟨1090519040, 3, 0, []⟩
/-- sequence step in progress (R62). -/
def I.seqIdx : Fld := ⟨1090519072, 4, 0, []⟩
/-- the step waits for PGOOD (R62). -/
def I.seqWaitPg : Fld := ⟨1090519104, 1, 0, []⟩
/-- the main PLL and the 500 MHz time-base tick run (R46). -/
def I.tickRun : Fld := ⟨1090519136, 1, 0, []⟩
/-- CAUSE + 1 of a deferred entry to FENCED, 0: none (R497). -/
def I.fencePend : Fld := ⟨1090519168, 5, 0, []⟩
/-- hottest sensor at or above WARN, with hysteresis (R66). -/
def I.thWarn : Fld := ⟨1090519200, 1, 0, []⟩
/-- hottest sensor at or above THROT, with hysteresis (R66). -/
def I.thThrot : Fld := ⟨1090519232, 1, 0, []⟩
/-- hottest sensor at or above CRIT, with hysteresis (R66). -/
def I.thCrit : Fld := ⟨1090519264, 1, 0, []⟩
/-- causes of cluster throttling: bit 0 temperature, 1 ATMAX, 2 HMN protective action (R54). -/
def I.throtSrc : Fld := ⟨1090519296, 3, 0, []⟩
/-- VDD setpoint code in force (R516). -/
def I.vddCode : Fld := ⟨1090519328, 6, 40, []⟩
/-- log2 of the clock division of SVCn (R47, 4 instances). -/
def I.svcDiv : Fld := ⟨1090519360, 2, 0, []⟩
/-- step group of the Dawn sequence: 0 none, 1 power switches, 2 PLL, 3 clock tree (R52, 8 instances). -/
def I.cluPh : Fld := ⟨1090519392, 2, 0, []⟩
/-- the Dawn sequence of the cluster holds one raised VDD step (R60, 8 instances). -/
def I.cluAvs : Fld := ⟨1090519424, 1, 0, []⟩
/-- BOOTSEL as latched (R73). -/
def I.strap : Fld := ⟨1073742016, 3, 0, []⟩
/-- the fuse array itself, word w (R82, 128 instances). -/
def I.fuseArray : Fld := ⟨1077936128, 32, 0, []⟩
/-- 1 + index of the bit being burned, 0: none (R83). -/
def I.fuseBurn : Fld := ⟨1080033280, 13, 0, []⟩
/-- boot source in use by the boot ROM (R78). -/
def I.bootSrc : Fld := ⟨1090519456, 3, 0, []⟩
/-- QSPI copy under trial (R78). -/
def I.bootCopy : Fld := ⟨1090519488, 1, 0, []⟩
/-- boot ROM: 0 not started, 1 waiting for or reading an image, 2 halted, 3 image running, 4 image taken for checking (R78). -/
def I.romSt : Fld := ⟨1090519520, 3, 0, []⟩
/-- level of PERST_N (R94). -/
def I.pinPerst : Fld := ⟨1075839072, 1, 1, []⟩
/-- MSI writes sent, per vector (an output of the device) (R91, 32 instances). -/
def I.msiSent : Fld := ⟨1090519552, 32, 0, []⟩
/-- an image from Causeway has been presented (END frame) and not yet taken (R468). -/
def I.bootImg : Fld := ⟨1090519584, 1, 0, []⟩
/-- 1 + supervisor core that holds the source in service, 0: none (R140, 256 instances). -/
def I.sicOwn : Fld := ⟨1090519616, 3, 0, []⟩
/-- supervisor control register 32 + k of SVCn, instance 16 n + k (R133, 64 instances). -/
def I.scr : Fld := ⟨1092616192, 32, 0, [(0, 1), (16, 1), (32, 1), (48, 1)]⟩
/-- active register bank of a signal core (R102, 64 instances). -/
def I.bank : Fld := ⟨1092616224, 1, 0, []⟩
/-- the other bank holds a job not yet saved (R103, 64 instances). -/
def I.obusy : Fld := ⟨1092616256, 1, 0, []⟩
/-- PC of bank b = 2 c + bank (R104, 136 instances). -/
def I.pcb : Fld := ⟨1092616288, 32, 0, []⟩
/-- D registers: instance 32 b + k, physical number k (R102, 4352 instances). -/
def I.d : Fld := ⟨1092616320, 16, 0, []⟩
/-- accumulator halves: instance 16 b + 2 n + h, h = 0 RE, 1 IM (R102, 2176 instances). -/
def I.ac : Fld := ⟨1092616352, 40, 0, []⟩
/-- pointers: instance 16 b + k (R102, 2176 instances). -/
def I.p : Fld := ⟨1092616384, 32, 0, []⟩
/-- modifiers: instance 8 b + k (R102, 1088 instances). -/
def I.m : Fld := ⟨1092616416, 32, 0, []⟩
/-- circular bases B0-B7: instance 8 b + k (R102, 1088 instances). -/
def I.bb : Fld := ⟨1092616448, 32, 0, []⟩
/-- circular lengths L0-L7: instance 8 b + k (R102, 1088 instances). -/
def I.ll : Fld := ⟨1092616480, 32, 0, []⟩
/-- MODE, per bank (R103, 136 instances). -/
def I.cmode : Fld := ⟨1092616512, 32, 2048, []⟩
/-- FLAGS.ACOV, per bank (R103, 136 instances). -/
def I.acov : Fld := ⟨1092616544, 8, 0, []⟩
/-- FLAGS.V, per bank (R103, 136 instances). -/
def I.flV : Fld := ⟨1092616576, 1, 0, []⟩
/-- FLAGS.C, per bank (R103, 136 instances). -/
def I.flC : Fld := ⟨1092616608, 1, 0, []⟩
/-- FLAGS.N, per bank (R103, 136 instances). -/
def I.flN : Fld := ⟨1092616640, 1, 0, []⟩
/-- FLAGS.Z, per bank (R103, 136 instances). -/
def I.flZ : Fld := ⟨1092616672, 1, 0, []⟩
/-- RRB, per bank (R103, 136 instances). -/
def I.rrb : Fld := ⟨1092616704, 4, 0, []⟩
/-- JOBID, per bank (R103, 136 instances). -/
def I.jobid : Fld := ⟨1092616736, 32, 0, []⟩
/-- CTXV, per bank (R103, 136 instances). -/
def I.ctxv : Fld := ⟨1092616768, 32, 0, []⟩
/-- TRAPV, per bank (R103, 136 instances). -/
def I.trapv : Fld := ⟨1092616800, 32, 0, []⟩
/-- TRPC, per bank (R103, 136 instances). -/
def I.trpc : Fld := ⟨1092616832, 32, 0, []⟩
/-- TCAUSE, per bank (R103, 136 instances). -/
def I.tcause : Fld := ⟨1092616864, 32, 0, []⟩
/-- TADDR, per bank (R103, 136 instances). -/
def I.taddr : Fld := ⟨1092616896, 32, 0, []⟩
/-- TDS, per bank (R103, 136 instances). -/
def I.tds : Fld := ⟨1092616928, 6, 0, []⟩
/-- TBTGT, per bank (R103, 136 instances). -/
def I.tbtgt : Fld := ⟨1092616960, 32, 0, []⟩
/-- CYCLE, per bank (R103, 136 instances). -/
def I.cycle : Fld := ⟨1092616992, 32, 0, []⟩
/-- LC0, LC1: instance 2 b + level (R103, 272 instances). -/
def I.lc : Fld := ⟨1092617024, 16, 0, []⟩
/-- LS0, LS1: instance 2 b + level (R103, 272 instances). -/
def I.ls : Fld := ⟨1092617056, 32, 0, []⟩
/-- LE0, LE1: instance 2 b + level (R103, 272 instances). -/
def I.le : Fld := ⟨1092617088, 32, 0, []⟩
/-- loop levels active, per bank (the ACT of TDS) (R120, 136 instances). -/
def I.act : Fld := ⟨1092617120, 2, 0, []⟩
/-- loop levels that are LOOPR, per bank (the ROT of TDS) (R122, 136 instances). -/
def I.rot : Fld := ⟨1092617152, 2, 0, []⟩
/-- delay bundles still to issue after a branch, per bank (R116, 136 instances). -/
def I.dly : Fld := ⟨1092617184, 2, 0, []⟩
/-- the branch whose delay bundles issue is taken, per bank (R116, 136 instances). -/
def I.btaken : Fld := ⟨1092617216, 1, 0, []⟩
/-- target of that branch, per bank (R116, 136 instances). -/
def I.btgt : Fld := ⟨1092617248, 32, 0, []⟩
/-- ARITH trap outstanding: 1 + accumulator number, 0 none; per bank (R130, 136 instances). -/
def I.arith : Fld := ⟨1092617280, 4, 0, []⟩
/-- bundle boundaries passed since the overflow, per bank (R130, 136 instances). -/
def I.arithAge : Fld := ⟨1092617312, 2, 0, []⟩
/-- the core is stalled before its bundle on a queue (R179, 68 instances). -/
def I.qstall : Fld := ⟨1092617344, 1, 0, []⟩
/-- SVCn holds a link (R139, 4 instances). -/
def I.linkV : Fld := ⟨1092617376, 1, 0, []⟩
/-- the linked 64-byte granule of SVCn, as an address (R139, 4 instances). -/
def I.linkA : Fld := ⟨1092617408, 40, 0, []⟩
/-- the trace ring: word w of entry i at instance 4 i + w (R213, 16384 instances). -/
def I.trc : Fld := ⟨1090519648, 32, 0, []⟩
/-- trace sequence number (R213). -/
def I.trcSeq : Fld := ⟨1090519680, 16, 0, []⟩
/-- words latched by a read of word 0: instance 4 copy + w (R214, 24 instances). -/
def I.trcLatch : Fld := ⟨1090519712, 32, 0, []⟩
/-- 1 + entry latched, per initiator copy (R214, 6 instances). -/
def I.trcLatchIx : Fld := ⟨1090519744, 13, 0, []⟩
/-- place of a READY task in its level's list (smaller is nearer the head) (R189, 65536 instances). -/
def I.tPos : Fld := ⟨1090519776, 64, 0, []⟩
/-- order in which a task entered READY (R195, 65536 instances). -/
def I.tSince : Fld := ⟨1090519808, 64, 0, []⟩
/-- order of entry into the urgent band (R189, 65536 instances). -/
def I.tUrgPos : Fld := ⟨1090519840, 64, 0, []⟩
/-- level in force of a READY task or a job in progress (R207, 65536 instances). -/
def I.tLvl : Fld := ⟨1090519872, 5, 31, []⟩
/-- next place at a tail (R189). -/
def I.ordTail : Fld := ⟨1090519904, 64, 9223372036854775808, []⟩
/-- next place at a head (R189). -/
def I.ordHead : Fld := ⟨1090519936, 64, 9223372036854775807, []⟩
/-- 1 + core reserved for the task, 0: none (R191, 65536 instances). -/
def I.tResv : Fld := ⟨1090519968, 7, 0, []⟩
/-- notice that made the reservation (R191, 65536 instances). -/
def I.tResvSeq : Fld := ⟨1090520000, 64, 0, []⟩
/-- target of the notice's Waypoint (R191, 65536 instances). -/
def I.tResvTgt : Fld := ⟨1090520032, 32, 0, []⟩
/-- time base of that target (R191, 65536 instances). -/
def I.tResvTb : Fld := ⟨1090520064, 2, 0, []⟩
/-- notices issued (R191). -/
def I.noticeSeq : Fld := ⟨1090520096, 64, 0, []⟩
/-- consumed flags of the task's job (R188, 65536 instances). -/
def I.jFlags : Fld := ⟨1090520128, 16, 0, []⟩
/-- ENTRY saved with the job (R207, 65536 instances). -/
def I.jEntry : Fld := ⟨1090520160, 30, 0, []⟩
/-- CTX.CV saved with the job (R207, 65536 instances). -/
def I.jCv : Fld := ⟨1090520192, 1, 0, []⟩
/-- CTX.CID saved with the job (R207, 65536 instances). -/
def I.jCid : Fld := ⟨1090520224, 15, 0, []⟩
/-- working set of the job in progress (R233, 65536 instances). -/
def I.jWs : Fld := ⟨1090520256, 16, 0, []⟩
/-- pages the job waits for in PAGEWAIT (R232, 65536 instances). -/
def I.jFault : Fld := ⟨1090520288, 16, 0, []⟩
/-- 1 + core where the cached copies of the task's set, named by a notice, are still to be placed, 0: none (R231, 65536 instances). -/
def I.tProv : Fld := ⟨1090520320, 7, 0, []⟩
/-- pages the job has asked for by TOUCH and that are not yet in CST (R232, 65536 instances). -/
def I.jTouch : Fld := ⟨1090520352, 16, 0, []⟩
/-- SGEN saved with the job (R207, 65536 instances). -/
def I.jSgen : Fld := ⟨1090520384, 1, 0, []⟩
/-- SGRP saved with the job (R207, 65536 instances). -/
def I.jSgrp : Fld := ⟨1090520416, 15, 0, []⟩
/-- PRE saved with the job (R207, 65536 instances). -/
def I.jPre : Fld := ⟨1090520448, 1, 0, []⟩
/-- BLEVEL saved with the job (R207, 65536 instances). -/
def I.jBl : Fld := ⟨1090520480, 5, 0, []⟩
/-- the job has a deadline (R196, 65536 instances). -/
def I.jHasDl : Fld := ⟨1090520512, 1, 0, []⟩
/-- the job has a suspend record (R128, 65536 instances). -/
def I.jRec : Fld := ⟨1090520544, 1, 0, []⟩
/-- the job's first bundle has been counted in DISPCNT (R210, 65536 instances). -/
def I.jRan : Fld := ⟨1090520576, 1, 0, []⟩
/-- the job has been dispatched at least once (R238, 65536 instances). -/
def I.jDisp : Fld := ⟨1090520608, 1, 0, []⟩
/-- SCAUSE of the job's last suspension (R213, 65536 instances). -/
def I.jScause : Fld := ⟨1090520640, 2, 0, []⟩
/-- the job has been retried after a parity error (R247, 65536 instances). -/
def I.jRetry : Fld := ⟨1090520672, 1, 0, []⟩
/-- CANCEL of a RUNNING job waits for its bundle boundary (R208, 65536 instances). -/
def I.jCancel : Fld := ⟨1090520704, 1, 0, []⟩
/-- order of commits (R200, 65536 instances). -/
def I.jOrd : Fld := ⟨1090520736, 64, 0, []⟩
/-- commits made (R200). -/
def I.commitSeq : Fld := ⟨1090520768, 64, 1, []⟩
/-- 1 + TID of the job that runs on the core, 0: none (R193, 64 instances). -/
def I.cJob : Fld := ⟨1090520800, 17, 0, []⟩
/-- 1 + TID of the task committed to the core and not yet dispatched (R193, 64 instances). -/
def I.cNext : Fld := ⟨1090520832, 17, 0, []⟩
/-- 1 + TID of the job whose bank is being saved (R126, 64 instances). -/
def I.cLeave : Fld := ⟨1090520864, 17, 0, []⟩
/-- SCAUSE of the job being saved (R126, 64 instances). -/
def I.cLeaveRun : Fld := ⟨1090520896, 2, 0, []⟩
/-- SADDR of the job being saved (R127, 64 instances). -/
def I.cLeaveAddr : Fld := ⟨1090520928, 32, 0, []⟩
/-- a switch waits for the other bank: SCAUSE, 0 none (R123, 64 instances). -/
def I.swPend : Fld := ⟨1090520960, 2, 0, []⟩
/-- SADDR of a switch that waits for the other bank (R127, 64 instances). -/
def I.swAddr : Fld := ⟨1090520992, 32, 0, []⟩
/-- the core issues WAITJOB (idle) rather than running idle code (R174, 64 instances). -/
def I.waiting : Fld := ⟨1090521024, 1, 1, []⟩
/-- pages of the task's staged set (R224, 65536 instances). -/
def I.stSet : Fld := ⟨1090521056, 16, 0, []⟩
/-- 1 + core the task's set is being or has been staged on (R224, 65536 instances). -/
def I.stCore : Fld := ⟨1090521088, 7, 0, []⟩
/-- 1 + TID of the job whose saved registers bank b still holds (R128, 136 instances). -/
def I.bankJob : Fld := ⟨1090521120, 17, 0, []⟩
/-- 500 MHz ticks since the time bases started (R198). -/
def I.tickCnt : Fld := ⟨1090521152, 64, 0, []⟩
/-- LVL of map entry 16 CID + v (R217, 524288 instances). -/
def I.mapLvl : Fld := ⟨1086324736, 2, 0, []⟩
/-- DIRTY of the entry (R217, 524288 instances). -/
def I.mapDirty : Fld := ⟨1086324768, 1, 0, []⟩
/-- OD of the entry (R217, 524288 instances). -/
def I.mapOd : Fld := ⟨1086324800, 1, 0, []⟩
/-- MEM of the entry (R217, 524288 instances). -/
def I.mapMem : Fld := ⟨1086324832, 1, 0, []⟩
/-- PAGE of the entry (R217, 524288 instances). -/
def I.mapPage : Fld := ⟨1086324864, 23, 0, []⟩
/-- move in flight of a MOVING entry: 1 spill, 2 reload (R217, 524288 instances). -/
def I.mapMove : Fld := ⟨1090521184, 2, 0, []⟩
/-- pool of the context (R219, 32768 instances). -/
def I.ctxPool : Fld := ⟨1086324896, 2, 0, []⟩
/-- 1 + map entry that holds the CST page, 0: free (R216, 32768 instances). -/
def I.pgUse : Fld := ⟨1086324928, 20, 0, []⟩
/-- the CST page is retired (R248, 32768 instances). -/
def I.pgBad : Fld := ⟨1088421888, 1, 0, []⟩
/-- the frame is retired (R248, 1024 instances). -/
def I.frBad : Fld := ⟨1088421920, 1, 0, []⟩
/-- CST pages of the bank that are allocated or retired (R219, 16 instances). -/
def I.bankBusy : Fld := ⟨1088421952, 12, 0, []⟩
/-- untouched on-demand pages of every pool (R219). -/
def I.odLeft : Fld := ⟨1086324960, 17, 0, []⟩
/-- 1 + TID of the job or set the frame is STAGED for (R224, 1024 instances). -/
def I.frOwner : Fld := ⟨1090521216, 17, 0, []⟩
/-- a transfer into the frame is in flight (R230, 1024 instances). -/
def I.frIn : Fld := ⟨1090521248, 1, 0, []⟩
/-- a write-back of the frame is in flight (R230, 1024 instances). -/
def I.frOut : Fld := ⟨1090521280, 1, 0, []⟩
/-- order of last use (R224, 1024 instances). -/
def I.frLru : Fld := ⟨1090521312, 64, 0, []⟩
/-- uses made (R224). -/
def I.useSeq : Fld := ⟨1090521344, 64, 1, []⟩
/-- spilling under pressure has started and FREE has not reached HIGH (R235). -/
def I.spillRun : Fld := ⟨1090521376, 1, 0, []⟩
/-- next CST page to be scrubbed (R245). -/
def I.scrubPage : Fld := ⟨1090521408, 15, 0, []⟩
/-- SRC in force of a DMA channel (R241, 32 instances). -/
def I.dSrc : Fld := ⟨1090521440, 40, 0, []⟩
/-- DST in force (R241, 32 instances). -/
def I.dDst : Fld := ⟨1090521472, 40, 0, []⟩
/-- LEN in force (R241, 32 instances). -/
def I.dLen : Fld := ⟨1090521504, 24, 0, []⟩
/-- CTX in force (R241, 32 instances). -/
def I.dCtx : Fld := ⟨1090521536, 16, 0, []⟩
/-- CMPL in force (R241, 32 instances). -/
def I.dCmpl : Fld := ⟨1090521568, 32, 0, []⟩
/-- mode bits in force: SPHYS, DPHYS, SIG, IRQ (R241, 32 instances). -/
def I.dMode : Fld := ⟨1090521600, 4, 0, []⟩
/-- 1 + map entry a waiting channel waits for (R242, 32 instances). -/
def I.dWait : Fld := ⟨1090521632, 21, 0, []⟩
/-- the DRAM was placed in self-refresh at WATCH entry (R250). -/
def I.dmcSelfRef : Fld := ⟨1090521664, 1, 0, []⟩
/-- training is in progress (R250). -/
def I.dmcTrain : Fld := ⟨1090521696, 1, 0, []⟩
/-- port at which the next rotation starts (R255). -/
def I.quePtr : Fld := ⟨1090521728, 7, 0, []⟩
/-- MODE in force on a port (R365, 8 instances). -/
def I.pMode : Fld := ⟨1090521760, 3, 0, []⟩
/-- FEC in force on a port (R365, 8 instances). -/
def I.pFec : Fld := ⟨1090521792, 2, 0, []⟩
/-- AN in force on a port (R365, 8 instances). -/
def I.pAn : Fld := ⟨1090521824, 1, 0, []⟩
/-- next IPv4 identification of a port (R381, 8 instances). -/
def I.ipId : Fld := ⟨1090521856, 16, 0, []⟩
/-- 1 + consumer that holds the cell, 0: free (R267, 131072 instances). -/
def I.cellOwner : Fld := ⟨1090521888, 5, 0, []⟩
/-- VALID of classifier entry 4 bucket + way (R368, 32768 instances). -/
def I.clsV : Fld := ⟨1090521920, 1, 0, []⟩
/-- key of the entry: LADDR, UDPPORT (R368, 32768 instances). -/
def I.clsKey : Fld := ⟨1090521952, 20, 0, []⟩
/-- word E0 of the entry (R370, 32768 instances). -/
def I.clsE0 : Fld := ⟨1090521984, 32, 0, []⟩
/-- word E1 of the entry: expected or latched SSRC (R370, 32768 instances). -/
def I.clsE1 : Fld := ⟨1090522016, 32, 0, []⟩
/-- word E2 of the entry (R370, 32768 instances). -/
def I.clsE2 : Fld := ⟨1090522048, 32, 0, []⟩
/-- word E3 of the entry, with LATCHED (R370, 32768 instances). -/
def I.clsE3 : Fld := ⟨1090522080, 32, 0, []⟩
/-- key store window, word k (it reads as zero) (R378, 16 instances). -/
def I.ksWin : Fld := ⟨1090522112, 32, 0, []⟩
/-- the stream is installed (R377, 32768 instances). -/
def I.stInst : Fld := ⟨1090522144, 1, 0, []⟩
/-- DIR of the stream: 1 transmit (R378, 32768 instances). -/
def I.stDir : Fld := ⟨1090522176, 1, 0, []⟩
/-- SUITE of the stream (R378, 32768 instances). -/
def I.stSuite : Fld := ⟨1090522208, 4, 0, []⟩
/-- master key of the stream, first byte highest, from which its session keys derive (R378, 32768 instances). -/
def I.stKey : Fld := ⟨1090522240, 256, 0, []⟩
/-- master salt of the stream (R378, 32768 instances). -/
def I.stSalt : Fld := ⟨1090522272, 112, 0, []⟩
/-- ROC of the stream (R379, 32768 instances). -/
def I.stRoc : Fld := ⟨1090522304, 32, 0, []⟩
/-- highest, or last sent, sequence number (R374, 32768 instances). -/
def I.stSeq : Fld := ⟨1090522336, 16, 0, []⟩
/-- a packet of the stream has been handled (R374, 32768 instances). -/
def I.stSeqV : Fld := ⟨1090522368, 1, 0, []⟩
/-- replay window, bit k: the packet k below the highest was seen (R374, 32768 instances). -/
def I.stWin : Fld := ⟨1090522400, 64, 0, []⟩
/-- word k of stream n at instance 8 n + k, k = 1-7 (R379, 262144 instances). -/
def I.stCnt : Fld := ⟨1090522432, 32, 0, []⟩
/-- arrival of the last packet filed, TB0 ns (R375, 32768 instances). -/
def I.stArr : Fld := ⟨1090522464, 32, 0, []⟩
/-- RTP timestamp of the last packet filed (R375, 32768 instances). -/
def I.stTs : Fld := ⟨1090522496, 32, 0, []⟩
/-- 16 times the interarrival jitter (R375, 32768 instances). -/
def I.stJit : Fld := ⟨1090522528, 36, 0, []⟩
/-- words latched by a write of PKE_STRMSEL: instance 8 copy + k (R379, 48 instances). -/
def I.strmBuf : Fld := ⟨1090522560, 32, 0, []⟩
/-- fractional accumulator of a time base (R394, 4 instances). -/
def I.tbFrac : Fld := ⟨1090522592, 32, 0, []⟩
/-- TMU_TB_INCR_LO held for an initiator: instance 4 copy + base (R395, 24 instances). -/
def I.incrHeld : Fld := ⟨1090522624, 32, 0, []⟩
/-- a STEP action's step waits for the next tick (R398, 4 instances). -/
def I.tbPend : Fld := ⟨1090522656, 1, 0, []⟩
/-- its value (R398, 4 instances). -/
def I.tbPendV : Fld := ⟨1090522688, 32, 0, []⟩
/-- consecutive frames within 2 ns (R397). -/
def I.tb1Good : Fld := ⟨1090522720, 7, 0, []⟩
/-- base of the pending target (R413, 4096 instances). -/
def I.wpTb : Fld := ⟨1090522752, 2, 0, []⟩
/-- LA of the pending target (R413, 4096 instances). -/
def I.wpLa : Fld := ⟨1090522784, 1, 0, []⟩
/-- offset of the reference pair (R411, 8 instances). -/
def I.psOfs : Fld := ⟨1090522816, 32, 0, []⟩
/-- mean path delay of the reference pair (R411, 8 instances). -/
def I.psMpd : Fld := ⟨1090522848, 32, 0, []⟩
/-- PPSOUT, TBIO0-TBIO3: the output pulses (R407, 5 instances). -/
def I.pulse : Fld := ⟨1090522880, 1, 0, []⟩
/-- map entry in force, laid out as TDX_MAP (256 h + s) (R427, 32768 instances). -/
def I.tdxForce : Fld := ⟨1090522912, 32, 0, []⟩
/-- bytes received in the last three frames of a timeslot, the latest lowest (R426, 32768 instances). -/
def I.tdxHist : Fld := ⟨1090522944, 24, 0, []⟩
/-- frames of a group that the elastic store holds and the reference has not taken (R426, 4 instances). -/
def I.tdxFill : Fld := ⟨1090522976, 2, 0, []⟩
/-- byte a cross-connect source received in the frame before the last reference boundary (R432, 32768 instances). -/
def I.tdxXc : Fld := ⟨1090523008, 8, 0, []⟩
/-- the transmit slot of the entry was written when the block began (R431, 32768 instances). -/
def I.tdxSend : Fld := ⟨1090523040, 1, 0, []⟩
/-- what the timeslot drove in the last frame: 256 + byte, 0 high-impedance (an output of the device) (R427, 32768 instances). -/
def I.tdxOut : Fld := ⟨1090523072, 9, 0, []⟩
/-- the armed handover's time had passed at ARM (R436). -/
def I.tdxLate : Fld := ⟨1090523104, 1, 0, []⟩
/-- a return to the A clocks waits for the next HFS0 pulse (R434). -/
def I.clkRet : Fld := ⟨1090523136, 1, 0, []⟩
/-- 32-byte unit of the transmit rings: last word written since TDX last began to send its slot (R431, 32768 instances). -/
def I.txWr : Fld := ⟨1090523168, 1, 0, []⟩
/-- the same, since CWY last sent it (R455, 32768 instances). -/
def I.txWrC : Fld := ⟨1090523200, 1, 0, []⟩
/-- TB1 NS of the latest block boundary (R418). -/
def I.tdxBndNs : Fld := ⟨1090523232, 32, 0, []⟩
/-- TB0 NS of the latest reference frame boundary (R436). -/
def I.tdxFrmNs : Fld := ⟨1090523264, 32, 0, []⟩
/-- CWY_CTXMIG: the context is in a migration entry in a state from PRECOPY or RECEIVING to DONE, ABORTED or MIG_LOST (R466, 32768 instances). -/
def I.ctxMig : Fld := ⟨1090523296, 1, 0, []⟩
/-- the context is the source of a migration that has handed over: its channel stays MOVING until RELEASE (R466, 32768 instances). -/
def I.ctxMoved : Fld := ⟨1090523328, 1, 0, []⟩
/-- the destination has not yet run a block of the context (R466, 32768 instances). -/
def I.migFresh : Fld := ⟨1090523360, 1, 0, []⟩
/-- SEQ of the next sequenced frame a link sends (R445, 14 instances). -/
def I.cwTx : Fld := ⟨1090523392, 16, 0, []⟩
/-- SEQ of the next sequenced frame a link expects (R445, 14 instances). -/
def I.cwRx : Fld := ⟨1090523424, 16, 0, []⟩
/-- retransmission rounds since the peer's ACK last advanced (R445, 14 instances). -/
def I.cwRounds : Fld := ⟨1090523456, 4, 0, []⟩
/-- a LINK frame has been sent in HELLO (R441, 14 instances). -/
def I.cwSent : Fld := ⟨1090523488, 1, 0, []⟩
/-- a LINK frame has been received in HELLO (R441, 14 instances). -/
def I.cwGot : Fld := ⟨1090523520, 1, 0, []⟩
/-- TSEQ of the next TIME frame (R457, 14 instances). -/
def I.tmSeq : Fld := ⟨1090523552, 16, 0, []⟩
/-- transmit stamp of TIME frame n of link l: instance 16 l + n mod 16 (R457, 224 instances). -/
def I.tmTxNs : Fld := ⟨1090523584, 32, 0, []⟩
/-- its fraction (R457, 224 instances). -/
def I.tmTxFr : Fld := ⟨1090523616, 8, 0, []⟩
/-- TSEQ of the peer's last TIME frame (R457, 14 instances). -/
def I.tmRxSeq : Fld := ⟨1090523648, 16, 0, []⟩
/-- its receive stamp (R457, 14 instances). -/
def I.tmRxNs : Fld := ⟨1090523680, 32, 0, []⟩
/-- its fraction (R457, 14 instances). -/
def I.tmRxFr : Fld := ⟨1090523712, 8, 0, []⟩
/-- RXSEQ of that frame: the local frame k (R458, 14 instances). -/
def I.tmOurs : Fld := ⟨1090523744, 16, 0, []⟩
/-- RXNS of that frame (R458, 14 instances). -/
def I.tmT2 : Fld := ⟨1090523776, 32, 0, []⟩
/-- RXFRAC of that frame (R458, 14 instances). -/
def I.tmT2Fr : Fld := ⟨1090523808, 8, 0, []⟩
/-- a TIME frame has been received since the link came up (R458, 14 instances). -/
def I.tmHave : Fld := ⟨1090523840, 1, 0, []⟩
/-- time-transfer set latched by a read of CWY_L_TT1: instance 6 copy + k (R458, 36 instances). -/
def I.ttBuf : Fld := ⟨1090523872, 32, 0, []⟩
/-- TAG of the remote access outstanding (R451). -/
def I.raTag : Fld := ⟨1090523904, 16, 0, []⟩
/-- words of the entry of key k before the freeze: instance 8 m + 4 k + word (R462, 512 instances). -/
def I.mKeyE : Fld := ⟨1090523936, 32, 0, []⟩
/-- key k of entry m has been made FORWARD: instance 2 m + k (R462, 128 instances). -/
def I.mKeyF : Fld := ⟨1090523968, 1, 0, []⟩
/-- PMASK received with PCDONE (R461, 64 instances). -/
def I.mPmask : Fld := ⟨1090524000, 16, 0, []⟩
/-- the source has written EN = 0 to its task (R462, 64 instances). -/
def I.mTask : Fld := ⟨1090524032, 1, 0, []⟩
/-- modulator samples since HMN began to run (R474). -/
def I.hmNow : Fld := ⟨1084227584, 64, 0, []⟩
/-- phase of the modulator clock within the model's tick, in 1/125,000 (R474). -/
def I.hmPh : Fld := ⟨1084227616, 17, 0, []⟩
/-- sample of the slice's last synchronising reset (R481, 4 instances). -/
def I.hmRst : Fld := ⟨1084227648, 64, 0, []⟩
/-- sample at which the slice's demodulation window began (R487, 4 instances). -/
def I.hmWin : Fld := ⟨1084227680, 64, 0, []⟩
/-- 1 + sample of the exciter's last excitation change, 0: none (R488, 2 instances). -/
def I.hmChg : Fld := ⟨1084227712, 64, 0, []⟩
/-- 1 + frame boundary of the slice's last gain change, 0: none (R489, 4 instances). -/
def I.hmBnd : Fld := ⟨1084227744, 64, 0, []⟩
/-- gain before that boundary (R489, 4 instances). -/
def I.hmOldG : Fld := ⟨1084227776, 3, 0, []⟩
/-- gain after it (R489, 4 instances). -/
def I.hmG : Fld := ⟨1084227808, 3, 0, []⟩
/-- current input of the slice (R471, 4 instances). -/
def I.hmCur : Fld := ⟨1084227840, 2, 0, []⟩
/-- 1 + input the slice is switching to, 0: none (R472, 4 instances). -/
def I.hmSw : Fld := ⟨1084227872, 3, 0, []⟩
/-- 1 + input selected while a switch runs, 0: none (R491, 4 instances). -/
def I.hmNext : Fld := ⟨1084227904, 3, 0, []⟩
/-- fine outputs since the fill count of the scan step (R471, 4 instances). -/
def I.hmDwell : Fld := ⟨1084227936, 8, 0, []⟩
/-- outputs of the input's run toward a change of HI (R483, 16 instances). -/
def I.hmRunHi : Fld := ⟨1084227968, 8, 0, []⟩
/-- outputs of the input's run toward a change of LO (R483, 16 instances). -/
def I.hmRunLo : Fld := ⟨1084228000, 8, 0, []⟩
/-- DDS phase of the exciter (R486, 2 instances). -/
def I.hmDds : Fld := ⟨1084228032, 32, 0, []⟩
/-- rate the chain runs at: 0 stopped, 1 4.096 MHz, 2 512 kHz (R474). -/
def I.hmMode : Fld := ⟨1084228064, 2, 0, []⟩
/-- the exciter runs (R486, 2 instances). -/
def I.hmExc : Fld := ⟨1084228096, 1, 0, []⟩
/-- an accepted trigger waits for its latch cycle (R494). -/
def I.mlsLatch : Fld := ⟨1090524064, 1, 0, []⟩
/-- trace entries still to be written before the ring is held, plus one; 0: none counted (R501). -/
def I.mlsPost : Fld := ⟨1090524096, 13, 0, []⟩
/-- MLOUT drives its active level (R498). -/
def I.mlOut : Fld := ⟨1090524128, 1, 0, []⟩
/-- a challenge has been captured and not yet answered (R505). -/
def I.dbgChal : Fld := ⟨1082130432, 1, 0, []⟩
/-- instruction loaded in the TAP (R502). -/
def I.dbgIr : Fld := ⟨1082130464, 8, 1, []⟩
/-- nonce of the last challenge captured (R505). -/
def I.dbgNonce : Fld := ⟨1082130496, 256, 0, []⟩
/-- the debug port is unlocked (R505). -/
def I.dbgUnl : Fld := ⟨1082130528, 1, 0, []⟩
/-- failed responses since RESET (R505). -/
def I.dbgFails : Fld := ⟨1082130560, 2, 0, []⟩
/-- STATUS the next Capture-DR returns (R504). -/
def I.dbgStatus : Fld := ⟨1090524160, 2, 0, []⟩
/-- data the next Capture-DR returns (R504). -/
def I.dbgData : Fld := ⟨1090524192, 32, 0, []⟩

end Sys2Proof.Machine
end

