-- ==== Sys2Proof/Machine/RegsA.lean ====
section
/-! DEFINITION.  The register fields of SYS, PMU, FUS, HIF, CLU, SIC, MLS as named cells, and their register tables.
Each field's place, width, access type and reset value are those of the register tables of the
block's chapter in spec/ (named beside each register).  A fuse- or strap-marked reset value is 0
here until FUSE_LOAD_DONE or RST_N_RISE loads it (notes/assumptions/7.md). -/

namespace Sys2Proof.Machine

/-! SYS_ID: part identity (03_reset_boot_fuses_host.md). -/
def F.SYS_ID_PART : Fld := ⟨65552, 16, 33170, []⟩
def F.SYS_ID_GRADE : Fld := ⟨65544, 1, 0, []⟩
def F.SYS_ID_REV : Fld := ⟨65536, 8, 176, []⟩
/-! SYS_SERIAL_LO: serial number (03_reset_boot_fuses_host.md). -/
def F.SYS_SERIAL_LO_SERIAL : Fld := ⟨65664, 32, 0, []⟩
/-! SYS_SERIAL_HI: serial number (03_reset_boot_fuses_host.md). -/
def F.SYS_SERIAL_HI_SERIAL : Fld := ⟨65792, 32, 0, []⟩
/-! SYS_STATUS: mode and straps (03_reset_boot_fuses_host.md). -/
def F.SYS_STATUS_BOOTSEL : Fld := ⟨65924, 3, 0, []⟩
def F.SYS_STATUS_MODE : Fld := ⟨65920, 3, 0, []⟩
/-! SYS_BOOTSTAT: boot result (03_reset_boot_fuses_host.md). -/
def F.SYS_BOOTSTAT_AUTH : Fld := ⟨66079, 1, 0, []⟩
def F.SYS_BOOTSTAT_SOURCE : Fld := ⟨66072, 3, 0, []⟩
def F.SYS_BOOTSTAT_SLOT : Fld := ⟨66068, 2, 0, []⟩
def F.SYS_BOOTSTAT_CODE : Fld := ⟨66048, 8, 0, []⟩
/-! SYS_DEVNUM: device number, written once per boot (03_reset_boot_fuses_host.md). -/
def F.SYS_DEVNUM_LOCKED : Fld := ⟨66207, 1, 0, []⟩
def F.SYS_DEVNUM_DEVNUM : Fld := ⟨66176, 11, 0, []⟩
/-! SYS_RSTOUT: board reset output (03_reset_boot_fuses_host.md). -/
def F.SYS_RSTOUT_ASSERT : Fld := ⟨66304, 1, 0, []⟩
/-! SYS_ERRADDR_LO: address of the recorded error (03_reset_boot_fuses_host.md). -/
def F.SYS_ERRADDR_LO_ADDR : Fld := ⟨66560, 32, 0, []⟩
/-! SYS_ERRADDR_HI: address of the recorded error (03_reset_boot_fuses_host.md). -/
def F.SYS_ERRADDR_HI_ADDR : Fld := ⟨66688, 8, 0, []⟩
/-! SYS_ERRINFO: decode and protection error record (03_reset_boot_fuses_host.md). -/
def F.SYS_ERRINFO_VALID : Fld := ⟨66847, 1, 0, []⟩
def F.SYS_ERRINFO_OVF : Fld := ⟨66846, 1, 0, []⟩
def F.SYS_ERRINFO_KIND : Fld := ⟨66844, 2, 0, []⟩
def F.SYS_ERRINFO_WRITE : Fld := ⟨66843, 1, 0, []⟩
def F.SYS_ERRINFO_INIT : Fld := ⟨66816, 8, 0, []⟩
/-! SYS_SNAP_STATUS: copy of SYS_STATUS (03_reset_boot_fuses_host.md). -/
def F.SYS_SNAP_STATUS_VALUE : Fld := ⟨122880, 32, 0, []⟩
/-! SYS_SNAP_ERRINFO: copy of SYS_ERRINFO (03_reset_boot_fuses_host.md). -/
def F.SYS_SNAP_ERRINFO_VALUE : Fld := ⟨123008, 32, 0, []⟩
/-! SYS_GPIO_IN: pin levels (18_electrical_package.md). -/
def F.SYS_GPIO_IN_IN : Fld := ⟨67072, 16, 0, []⟩
/-! SYS_GPIO_OUT: output levels (18_electrical_package.md). -/
def F.SYS_GPIO_OUT_OUT : Fld := ⟨67200, 16, 0, []⟩
/-! SYS_GPIO_OE: output enables (18_electrical_package.md). -/
def F.SYS_GPIO_OE_OE : Fld := ⟨67328, 16, 0, []⟩
/-- Register table of SYS, part 0. -/
def regTable_SYS_0 : List Reg := [
  ⟨2048, 1, 0, .arr, [⟨16, F.SYS_ID_PART, .ro, []⟩, ⟨8, F.SYS_ID_GRADE, .ro, []⟩, ⟨0, F.SYS_ID_REV, .ro, []⟩]⟩,
  ⟨2052, 1, 0, .arr, [⟨0, F.SYS_SERIAL_LO_SERIAL, .ro, []⟩]⟩,
  ⟨2056, 1, 0, .arr, [⟨0, F.SYS_SERIAL_HI_SERIAL, .ro, []⟩]⟩,
  ⟨2060, 1, 0, .arr, [⟨4, F.SYS_STATUS_BOOTSEL, .ro, []⟩, ⟨0, F.SYS_STATUS_MODE, .ro, []⟩]⟩,
  ⟨2064, 1, 0, .arr, [⟨31, F.SYS_BOOTSTAT_AUTH, .ro, []⟩, ⟨24, F.SYS_BOOTSTAT_SOURCE, .ro, []⟩, ⟨20, F.SYS_BOOTSTAT_SLOT, .ro, []⟩, ⟨0, F.SYS_BOOTSTAT_CODE, .ro, []⟩]⟩,
  ⟨2068, 1, 0, .arr, [⟨31, F.SYS_DEVNUM_LOCKED, .ro, []⟩, ⟨0, F.SYS_DEVNUM_DEVNUM, .rw, []⟩]⟩,
  ⟨2072, 1, 0, .arr, [⟨0, F.SYS_RSTOUT_ASSERT, .rw, []⟩]⟩,
  ⟨2080, 1, 0, .arr, [⟨0, F.SYS_ERRADDR_LO_ADDR, .ro, []⟩]⟩,
  ⟨2084, 1, 0, .arr, [⟨0, F.SYS_ERRADDR_HI_ADDR, .ro, []⟩]⟩,
  ⟨2088, 1, 0, .arr, [⟨31, F.SYS_ERRINFO_VALID, .w1c, []⟩, ⟨30, F.SYS_ERRINFO_OVF, .w1c, []⟩, ⟨28, F.SYS_ERRINFO_KIND, .ro, []⟩, ⟨27, F.SYS_ERRINFO_WRITE, .ro, []⟩, ⟨0, F.SYS_ERRINFO_INIT, .ro, []⟩]⟩,
  ⟨3840, 1, 0, .arr, [⟨0, F.SYS_SNAP_STATUS_VALUE, .ro, []⟩]⟩,
  ⟨3844, 1, 0, .arr, [⟨0, F.SYS_SNAP_ERRINFO_VALUE, .ro, []⟩]⟩,
  ⟨2096, 1, 0, .arr, [⟨0, F.SYS_GPIO_IN_IN, .ro, []⟩]⟩,
  ⟨2100, 1, 0, .arr, [⟨0, F.SYS_GPIO_OUT_OUT, .rw, []⟩]⟩,
  ⟨2104, 1, 0, .arr, [⟨0, F.SYS_GPIO_OE_OE, .rw, []⟩]⟩]
/-- Every register of block SYS. -/
def regTable_SYS : List Reg := regTable_SYS_0

/-! PMU_MODE: mode requests and status (02_power_clocks_modes.md). -/
def F.PMU_MODE_GO : Fld := ⟨33619999, 1, 0, []⟩
def F.PMU_MODE_REFUSED : Fld := ⟨33619998, 1, 0, []⟩
def F.PMU_MODE_TARGET : Fld := ⟨33619984, 3, 0, []⟩
def F.PMU_MODE_CAUSE : Fld := ⟨33619976, 4, 0, []⟩
def F.PMU_MODE_CURRENT : Fld := ⟨33619968, 3, 0, []⟩
/-! PMU_WAKE: wake sources for WATCH (02_power_clocks_modes.md). -/
def F.PMU_WAKE_WSTAT : Fld := ⟨33620112, 4, 0, []⟩
def F.PMU_WAKE_GPIOSEL : Fld := ⟨33620104, 4, 0, []⟩
def F.PMU_WAKE_WEN : Fld := ⟨33620096, 4, 1, []⟩
/-! PMU_NWCNT_LO: Nightwatch counter, low part (02_power_clocks_modes.md). -/
def F.PMU_NWCNT_LO_CNT : Fld := ⟨33620480, 32, 0, []⟩
/-! PMU_NWCNT_HI: Nightwatch counter, high part (02_power_clocks_modes.md). -/
def F.PMU_NWCNT_HI_CNT : Fld := ⟨33620608, 16, 0, []⟩
/-! PMU_NWALM_LO: alarm target, low part (02_power_clocks_modes.md). -/
def F.PMU_NWALM_LO_TGT : Fld := ⟨33620736, 32, 0, []⟩
/-! PMU_NWALM_HI: alarm target, high part, and enable (02_power_clocks_modes.md). -/
def F.PMU_NWALM_HI_EN : Fld := ⟨33620895, 1, 0, []⟩
def F.PMU_NWALM_HI_TGT : Fld := ⟨33620864, 16, 0, []⟩
/-! PMU_CLK: reference status and supervisor clock slowing (02_power_clocks_modes.md). -/
def F.PMU_CLK_REFLOSS : Fld := ⟨33621023, 1, 0, []⟩
def F.PMU_CLK_PLLLOCK : Fld := ⟨33621022, 1, 0, []⟩
def F.PMU_CLK_REFFREQ : Fld := ⟨33621020, 2, 0, []⟩
def F.PMU_CLK_SVCMAXDIV : Fld := ⟨33620992, 2, 3, []⟩
/-! PMU_CSTBANK: CST bank modes (02_power_clocks_modes.md). -/
def F.PMU_CSTBANK_MODE : Fld := ⟨33621504, 32, 1431655765, []⟩
/-! PMU_CSTSTAT: CST bank states (02_power_clocks_modes.md). -/
def F.PMU_CSTSTAT_BANKERR : Fld := ⟨33621663, 1, 0, []⟩
def F.PMU_CSTSTAT_AWAKE : Fld := ⟨33621632, 16, 0, []⟩
/-! PMU_CSTWATCH: banks retained in WATCH (02_power_clocks_modes.md). -/
def F.PMU_CSTWATCH_RET : Fld := ⟨33621760, 16, 0, []⟩
/-! PMU_AVSCFG: adaptive voltage scaling (02_power_clocks_modes.md). -/
def F.PMU_AVSCFG_EN : Fld := ⟨33622047, 1, 0, []⟩
def F.PMU_AVSCFG_ADDR : Fld := ⟨33622040, 7, 0, []⟩
def F.PMU_AVSCFG_MARGIN : Fld := ⟨33622032, 8, 0, []⟩
def F.PMU_AVSCFG_VMAX : Fld := ⟨33622024, 6, 40, []⟩
def F.PMU_AVSCFG_VMIN : Fld := ⟨33622016, 6, 0, []⟩
/-! PMU_AVSSTAT: adaptive voltage scaling status (02_power_clocks_modes.md). -/
def F.PMU_AVSSTAT_FROZEN : Fld := ⟨33622175, 1, 0, []⟩
def F.PMU_AVSSTAT_PMBFAIL : Fld := ⟨33622174, 1, 0, []⟩
def F.PMU_AVSSTAT_ATMAX : Fld := ⟨33622173, 1, 0, []⟩
def F.PMU_AVSSTAT_SETCODE : Fld := ⟨33622160, 6, 0, []⟩
def F.PMU_AVSSTAT_LEASTMARGIN : Fld := ⟨33622152, 8, 0, []⟩
/-! PMU_PMBCMD: software PMBus transaction (02_power_clocks_modes.md). -/
def F.PMU_PMBCMD_GO : Fld := ⟨33622559, 1, 0, []⟩
def F.PMU_PMBCMD_ERR : Fld := ⟨33622558, 1, 0, []⟩
def F.PMU_PMBCMD_RD : Fld := ⟨33622557, 1, 0, []⟩
def F.PMU_PMBCMD_WORD : Fld := ⟨33622556, 1, 0, []⟩
def F.PMU_PMBCMD_ADDR : Fld := ⟨33622544, 7, 0, []⟩
def F.PMU_PMBCMD_CMD : Fld := ⟨33622536, 8, 0, []⟩
/-! PMU_PMBDATA: PMBus data (02_power_clocks_modes.md). -/
def F.PMU_PMBDATA_DATA : Fld := ⟨33622656, 16, 0, []⟩
/-! PMU_SEQSTEP: sequencing steps (02_power_clocks_modes.md). -/
def F.PMU_SEQSTEP_VALID : Fld := ⟨33623071, 1, 0, []⟩
def F.PMU_SEQSTEP_WATCHOFF : Fld := ⟨33623070, 1, 0, []⟩
def F.PMU_SEQSTEP_WAITPG : Fld := ⟨33623069, 1, 0, []⟩
def F.PMU_SEQSTEP_PEN : Fld := ⟨33623056, 3, 0, []⟩
def F.PMU_SEQSTEP_DELAY : Fld := ⟨33623040, 16, 0, []⟩
/-! PMU_SEQCFG: sequencing control (02_power_clocks_modes.md). -/
def F.PMU_SEQCFG_SEQFAIL : Fld := ⟨33624095, 1, 0, []⟩
def F.PMU_SEQCFG_DONE : Fld := ⟨33624094, 1, 0, []⟩
def F.PMU_SEQCFG_PGTIMEOUT : Fld := ⟨33624064, 8, 50, []⟩
/-! PMU_THERMCFG: thermal thresholds (tighten-only, R67) (02_power_clocks_modes.md). -/
def F.PMU_THERMCFG_CRIT : Fld := ⟨33624600, 8, 0, []⟩
def F.PMU_THERMCFG_THROT : Fld := ⟨33624592, 8, 0, []⟩
def F.PMU_THERMCFG_WARN : Fld := ⟨33624584, 8, 0, []⟩
def F.PMU_THERMCFG_HYST : Fld := ⟨33624576, 4, 3, []⟩
/-! PMU_THERMSTAT: thermal status (02_power_clocks_modes.md). -/
def F.PMU_THERMSTAT_THROTTLING : Fld := ⟨33624735, 1, 0, []⟩
def F.PMU_THERMSTAT_HOTTEST : Fld := ⟨33624720, 4, 0, []⟩
def F.PMU_THERMSTAT_TMAX : Fld := ⟨33624704, 12, 0, []⟩
/-! PMU_TEMP: sensor readings (02_power_clocks_modes.md). -/
def F.PMU_TEMP_VALID : Fld := ⟨33625119, 1, 0, []⟩
def F.PMU_TEMP_TEMP : Fld := ⟨33625088, 12, 0, []⟩
/-! PMU_IRQSTAT: PMU interrupts to SIC (02_power_clocks_modes.md). -/
def F.PMU_IRQSTAT_MODEREFUSED : Fld := ⟨33627144, 1, 0, []⟩
def F.PMU_IRQSTAT_MODEDONE : Fld := ⟨33627143, 1, 0, []⟩
def F.PMU_IRQSTAT_NWALARM : Fld := ⟨33627142, 1, 0, []⟩
def F.PMU_IRQSTAT_REFLOSS : Fld := ⟨33627141, 1, 0, []⟩
def F.PMU_IRQSTAT_SEQFAIL : Fld := ⟨33627140, 1, 0, []⟩
def F.PMU_IRQSTAT_PMBFAIL : Fld := ⟨33627139, 1, 0, []⟩
def F.PMU_IRQSTAT_ATMAX : Fld := ⟨33627138, 1, 0, []⟩
def F.PMU_IRQSTAT_THROT : Fld := ⟨33627137, 1, 0, []⟩
def F.PMU_IRQSTAT_THWARN : Fld := ⟨33627136, 1, 0, []⟩
/-- Register table of PMU, part 0. -/
def regTable_PMU_0 : List Reg := [
  ⟨2048, 1, 0, .arr, [⟨31, F.PMU_MODE_GO, .ac, []⟩, ⟨30, F.PMU_MODE_REFUSED, .ro, []⟩, ⟨16, F.PMU_MODE_TARGET, .rw, [(6, 7)]⟩, ⟨8, F.PMU_MODE_CAUSE, .ro, []⟩, ⟨0, F.PMU_MODE_CURRENT, .ro, []⟩]⟩,
  ⟨2052, 1, 0, .arr, [⟨16, F.PMU_WAKE_WSTAT, .w1c, []⟩, ⟨8, F.PMU_WAKE_GPIOSEL, .rw, []⟩, ⟨0, F.PMU_WAKE_WEN, .rw, []⟩]⟩,
  ⟨2064, 1, 0, .arr, [⟨0, F.PMU_NWCNT_LO_CNT, .ro, []⟩]⟩,
  ⟨2068, 1, 0, .arr, [⟨0, F.PMU_NWCNT_HI_CNT, .ro, []⟩]⟩,
  ⟨2072, 1, 0, .arr, [⟨0, F.PMU_NWALM_LO_TGT, .rw, []⟩]⟩,
  ⟨2076, 1, 0, .arr, [⟨31, F.PMU_NWALM_HI_EN, .rw, []⟩, ⟨0, F.PMU_NWALM_HI_TGT, .rw, []⟩]⟩,
  ⟨2080, 1, 0, .arr, [⟨31, F.PMU_CLK_REFLOSS, .ro, []⟩, ⟨30, F.PMU_CLK_PLLLOCK, .ro, []⟩, ⟨28, F.PMU_CLK_REFFREQ, .ro, []⟩, ⟨0, F.PMU_CLK_SVCMAXDIV, .rw, []⟩]⟩,
  ⟨2096, 1, 0, .arr, [⟨0, F.PMU_CSTBANK_MODE, .rw, []⟩]⟩,
  ⟨2100, 1, 0, .arr, [⟨31, F.PMU_CSTSTAT_BANKERR, .w1c, []⟩, ⟨0, F.PMU_CSTSTAT_AWAKE, .ro, []⟩]⟩,
  ⟨2104, 1, 0, .arr, [⟨0, F.PMU_CSTWATCH_RET, .rw, []⟩]⟩,
  ⟨2112, 1, 0, .arr, [⟨31, F.PMU_AVSCFG_EN, .rw, []⟩, ⟨24, F.PMU_AVSCFG_ADDR, .rw, []⟩, ⟨16, F.PMU_AVSCFG_MARGIN, .rw, []⟩, ⟨8, F.PMU_AVSCFG_VMAX, .rw, [(41, 63)]⟩, ⟨0, F.PMU_AVSCFG_VMIN, .rw, [(41, 63)]⟩]⟩,
  ⟨2116, 1, 0, .arr, [⟨31, F.PMU_AVSSTAT_FROZEN, .ro, []⟩, ⟨30, F.PMU_AVSSTAT_PMBFAIL, .w1c, []⟩, ⟨29, F.PMU_AVSSTAT_ATMAX, .ro, []⟩, ⟨16, F.PMU_AVSSTAT_SETCODE, .ro, []⟩, ⟨8, F.PMU_AVSSTAT_LEASTMARGIN, .ro, []⟩]⟩,
  ⟨2128, 1, 0, .arr, [⟨31, F.PMU_PMBCMD_GO, .ac, []⟩, ⟨30, F.PMU_PMBCMD_ERR, .ro, []⟩, ⟨29, F.PMU_PMBCMD_RD, .rw, []⟩, ⟨28, F.PMU_PMBCMD_WORD, .rw, []⟩, ⟨16, F.PMU_PMBCMD_ADDR, .rw, []⟩, ⟨8, F.PMU_PMBCMD_CMD, .rw, []⟩]⟩,
  ⟨2132, 1, 0, .arr, [⟨0, F.PMU_PMBDATA_DATA, .rwh, []⟩]⟩,
  ⟨2144, 8, 4, .arr, [⟨31, F.PMU_SEQSTEP_VALID, .rw, []⟩, ⟨30, F.PMU_SEQSTEP_WATCHOFF, .rw, []⟩, ⟨29, F.PMU_SEQSTEP_WAITPG, .rw, []⟩, ⟨16, F.PMU_SEQSTEP_PEN, .rw, []⟩, ⟨0, F.PMU_SEQSTEP_DELAY, .rw, []⟩]⟩,
  ⟨2176, 1, 0, .arr, [⟨31, F.PMU_SEQCFG_SEQFAIL, .ro, []⟩, ⟨30, F.PMU_SEQCFG_DONE, .ro, []⟩, ⟨0, F.PMU_SEQCFG_PGTIMEOUT, .rw, []⟩]⟩,
  ⟨2192, 1, 0, .arr, [⟨24, F.PMU_THERMCFG_CRIT, .rw, []⟩, ⟨16, F.PMU_THERMCFG_THROT, .rw, []⟩, ⟨8, F.PMU_THERMCFG_WARN, .rw, []⟩, ⟨0, F.PMU_THERMCFG_HYST, .rw, []⟩]⟩,
  ⟨2196, 1, 0, .arr, [⟨31, F.PMU_THERMSTAT_THROTTLING, .ro, []⟩, ⟨16, F.PMU_THERMSTAT_HOTTEST, .ro, []⟩, ⟨0, F.PMU_THERMSTAT_TMAX, .ro, []⟩]⟩,
  ⟨2208, 16, 4, .arr, [⟨31, F.PMU_TEMP_VALID, .ro, []⟩, ⟨0, F.PMU_TEMP_TEMP, .ro, []⟩]⟩,
  ⟨2272, 1, 0, .arr, [⟨8, F.PMU_IRQSTAT_MODEREFUSED, .w1c, []⟩, ⟨7, F.PMU_IRQSTAT_MODEDONE, .w1c, []⟩, ⟨6, F.PMU_IRQSTAT_NWALARM, .w1c, []⟩, ⟨5, F.PMU_IRQSTAT_REFLOSS, .w1c, []⟩, ⟨4, F.PMU_IRQSTAT_SEQFAIL, .w1c, []⟩, ⟨3, F.PMU_IRQSTAT_PMBFAIL, .w1c, []⟩, ⟨2, F.PMU_IRQSTAT_ATMAX, .w1c, []⟩, ⟨1, F.PMU_IRQSTAT_THROT, .w1c, []⟩, ⟨0, F.PMU_IRQSTAT_THWARN, .w1c, []⟩]⟩]
/-! PMU_IRQEN: PMU interrupts to SIC (02_power_clocks_modes.md). -/
def F.PMU_IRQEN_MODEREFUSED : Fld := ⟨33627272, 1, 0, []⟩
def F.PMU_IRQEN_MODEDONE : Fld := ⟨33627271, 1, 0, []⟩
def F.PMU_IRQEN_NWALARM : Fld := ⟨33627270, 1, 0, []⟩
def F.PMU_IRQEN_REFLOSS : Fld := ⟨33627269, 1, 0, []⟩
def F.PMU_IRQEN_SEQFAIL : Fld := ⟨33627268, 1, 0, []⟩
def F.PMU_IRQEN_PMBFAIL : Fld := ⟨33627267, 1, 0, []⟩
def F.PMU_IRQEN_ATMAX : Fld := ⟨33627266, 1, 0, []⟩
def F.PMU_IRQEN_THROT : Fld := ⟨33627265, 1, 0, []⟩
def F.PMU_IRQEN_THWARN : Fld := ⟨33627264, 1, 0, []⟩
/-! PMU_SNAP_NWOFS: Nightwatch latch offset (02_power_clocks_modes.md). -/
def F.PMU_SNAP_NWOFS_OFS : Fld := ⟨33677696, 15, 0, []⟩
/-! PMU_SNAP_MODE: copy of PMU_MODE (02_power_clocks_modes.md). -/
def F.PMU_SNAP_MODE_VALUE : Fld := ⟨33677312, 32, 0, []⟩
/-! PMU_SNAP_NWCNT_LO: counter bits [31:0] at the Nightwatch latch (02_power_clocks_modes.md). -/
def F.PMU_SNAP_NWCNT_LO_VALUE : Fld := ⟨33677440, 32, 0, []⟩
/-! PMU_SNAP_NWCNT_HI: counter bits [47:32] at the Nightwatch latch (02_power_clocks_modes.md). -/
def F.PMU_SNAP_NWCNT_HI_VALUE : Fld := ⟨33677568, 32, 0, []⟩
/-! PMU_SNAP_AVS: copy of PMU_AVSSTAT (02_power_clocks_modes.md). -/
def F.PMU_SNAP_AVS_VALUE : Fld := ⟨33677824, 32, 0, []⟩
/-! PMU_SNAP_THERM: copy of PMU_THERMSTAT (02_power_clocks_modes.md). -/
def F.PMU_SNAP_THERM_VALUE : Fld := ⟨33677952, 32, 0, []⟩
/-- Register table of PMU, part 1. -/
def regTable_PMU_1 : List Reg := [
  ⟨2276, 1, 0, .arr, [⟨8, F.PMU_IRQEN_MODEREFUSED, .rw, []⟩, ⟨7, F.PMU_IRQEN_MODEDONE, .rw, []⟩, ⟨6, F.PMU_IRQEN_NWALARM, .rw, []⟩, ⟨5, F.PMU_IRQEN_REFLOSS, .rw, []⟩, ⟨4, F.PMU_IRQEN_SEQFAIL, .rw, []⟩, ⟨3, F.PMU_IRQEN_PMBFAIL, .rw, []⟩, ⟨2, F.PMU_IRQEN_ATMAX, .rw, []⟩, ⟨1, F.PMU_IRQEN_THROT, .rw, []⟩, ⟨0, F.PMU_IRQEN_THWARN, .rw, []⟩]⟩,
  ⟨3852, 1, 0, .arr, [⟨0, F.PMU_SNAP_NWOFS_OFS, .ro, []⟩]⟩,
  ⟨3840, 1, 0, .arr, [⟨0, F.PMU_SNAP_MODE_VALUE, .ro, []⟩]⟩,
  ⟨3844, 1, 0, .arr, [⟨0, F.PMU_SNAP_NWCNT_LO_VALUE, .ro, []⟩]⟩,
  ⟨3848, 1, 0, .arr, [⟨0, F.PMU_SNAP_NWCNT_HI_VALUE, .ro, []⟩]⟩,
  ⟨3856, 1, 0, .arr, [⟨0, F.PMU_SNAP_AVS_VALUE, .ro, []⟩]⟩,
  ⟨3860, 1, 0, .arr, [⟨0, F.PMU_SNAP_THERM_VALUE, .ro, []⟩]⟩]
/-- Every register of block PMU. -/
def regTable_PMU : List Reg := regTable_PMU_0 ++ regTable_PMU_1

/-! FUS_STAT: fuse status (03_reset_boot_fuses_host.md). -/
def F.FUS_STAT_VFUSEOK : Fld := ⟨67174404, 1, 0, []⟩
def F.FUS_STAT_PROGERR : Fld := ⟨67174403, 1, 0, []⟩
def F.FUS_STAT_BUSY : Fld := ⟨67174402, 1, 0, []⟩
def F.FUS_STAT_FUSEERR : Fld := ⟨67174401, 1, 0, []⟩
def F.FUS_STAT_LOADED : Fld := ⟨67174400, 1, 0, []⟩
/-! FUS_PROG: burn one fuse bit (03_reset_boot_fuses_host.md). -/
def F.FUS_PROG_GO : Fld := ⟨67174559, 1, 0, []⟩
def F.FUS_PROG_WORD : Fld := ⟨67174544, 7, 0, []⟩
def F.FUS_PROG_BIT : Fld := ⟨67174528, 5, 0, []⟩
/-! FUS_PMHOST: class rights, tighten-only (R90) (03_reset_boot_fuses_host.md). -/
def F.FUS_PMHOST_RIGHTS : Fld := ⟨67174912, 20, 0, []⟩
/-! FUS_PMDBG: class rights, tighten-only (R90) (03_reset_boot_fuses_host.md). -/
def F.FUS_PMDBG_RIGHTS : Fld := ⟨67175040, 20, 0, []⟩
/-! FUS_PMSGC: class rights, tighten-only (R90) (03_reset_boot_fuses_host.md). -/
def F.FUS_PMSGC_RIGHTS : Fld := ⟨67175168, 20, 0, []⟩
/-! FUS_PMCWY: class rights, tighten-only (R90) (03_reset_boot_fuses_host.md). -/
def F.FUS_PMCWY_RIGHTS : Fld := ⟨67175296, 20, 0, []⟩
/-! FUS_PMBAR2: host BAR2 bounds, tighten-only (R90) (03_reset_boot_fuses_host.md). -/
def F.FUS_PMBAR2_HI : Fld := ⟨67175440, 16, 0, []⟩
def F.FUS_PMBAR2_LO : Fld := ⟨67175424, 16, 0, []⟩
/-! FUS_PMMISC: Causeway permissions, tighten-only (R90) (03_reset_boot_fuses_host.md). -/
def F.FUS_PMMISC_RMBOX : Fld := ⟨67175554, 1, 0, []⟩
def F.FUS_PMMISC_RMLS : Fld := ⟨67175553, 1, 0, []⟩
def F.FUS_PMMISC_RFENCE : Fld := ⟨67175552, 1, 0, []⟩
/-! FUS_SHADOW: fuse words as loaded at BOOT (03_reset_boot_fuses_host.md). -/
def F.FUS_SHADOW_WORD : Fld := ⟨67239936, 32, 0, []⟩
/-- Register table of FUS, part 0. -/
def regTable_FUS_0 : List Reg := [
  ⟨2048, 1, 0, .arr, [⟨4, F.FUS_STAT_VFUSEOK, .ro, []⟩, ⟨3, F.FUS_STAT_PROGERR, .w1c, []⟩, ⟨2, F.FUS_STAT_BUSY, .ro, []⟩, ⟨1, F.FUS_STAT_FUSEERR, .ro, []⟩, ⟨0, F.FUS_STAT_LOADED, .ro, []⟩]⟩,
  ⟨2052, 1, 0, .arr, [⟨31, F.FUS_PROG_GO, .ac, []⟩, ⟨16, F.FUS_PROG_WORD, .rw, []⟩, ⟨0, F.FUS_PROG_BIT, .rw, []⟩]⟩,
  ⟨2064, 1, 0, .arr, [⟨0, F.FUS_PMHOST_RIGHTS, .rw, []⟩]⟩,
  ⟨2068, 1, 0, .arr, [⟨0, F.FUS_PMDBG_RIGHTS, .rw, []⟩]⟩,
  ⟨2072, 1, 0, .arr, [⟨0, F.FUS_PMSGC_RIGHTS, .rw, []⟩]⟩,
  ⟨2076, 1, 0, .arr, [⟨0, F.FUS_PMCWY_RIGHTS, .rw, []⟩]⟩,
  ⟨2080, 1, 0, .arr, [⟨16, F.FUS_PMBAR2_HI, .rw, []⟩, ⟨0, F.FUS_PMBAR2_LO, .rw, []⟩]⟩,
  ⟨2084, 1, 0, .arr, [⟨2, F.FUS_PMMISC_RMBOX, .rw, []⟩, ⟨1, F.FUS_PMMISC_RMLS, .rw, []⟩, ⟨0, F.FUS_PMMISC_RFENCE, .rw, []⟩]⟩,
  ⟨4096, 128, 4, .arr, [⟨0, F.FUS_SHADOW_WORD, .ro, []⟩]⟩]
/-- Every register of block FUS. -/
def regTable_FUS : List Reg := regTable_FUS_0

/-! HIF_LINKSTAT: link state (03_reset_boot_fuses_host.md). -/
def F.HIF_LINKSTAT_UP : Fld := ⟨436273183, 1, 0, []⟩
def F.HIF_LINKSTAT_PERSTSEEN : Fld := ⟨436273182, 1, 0, []⟩
def F.HIF_LINKSTAT_WIDTH : Fld := ⟨436273156, 2, 0, []⟩
def F.HIF_LINKSTAT_SPEED : Fld := ⟨436273152, 4, 0, []⟩
/-! HIF_BAR2BASE: BAR2 target (03_reset_boot_fuses_host.md). -/
def F.HIF_BAR2BASE_BASE : Fld := ⟨436273300, 12, 256, []⟩
/-! HIF_H2S: mailbox data (03_reset_boot_fuses_host.md). -/
def F.HIF_H2S_DATA : Fld := ⟨436273664, 32, 0, []⟩
/-! HIF_S2H: mailbox data (03_reset_boot_fuses_host.md). -/
def F.HIF_S2H_DATA : Fld := ⟨436273792, 32, 0, []⟩
/-! HIF_DOORBELL: mailbox doorbells (03_reset_boot_fuses_host.md). -/
def F.HIF_DOORBELL_S2H : Fld := ⟨436273921, 1, 0, []⟩
def F.HIF_DOORBELL_H2S : Fld := ⟨436273920, 1, 0, []⟩
/-! HIF_DBSET: set doorbells (03_reset_boot_fuses_host.md). -/
def F.HIF_DBSET_S2H : Fld := ⟨436274049, 1, 0, []⟩
def F.HIF_DBSET_H2S : Fld := ⟨436274048, 1, 0, []⟩
/-! HIF_DBCLR: clear doorbells (03_reset_boot_fuses_host.md). -/
def F.HIF_DBCLR_S2H : Fld := ⟨436274177, 1, 0, []⟩
def F.HIF_DBCLR_H2S : Fld := ⟨436274176, 1, 0, []⟩
/-- Register table of HIF, part 0. -/
def regTable_HIF_0 : List Reg := [
  ⟨2048, 1, 0, .arr, [⟨31, F.HIF_LINKSTAT_UP, .ro, []⟩, ⟨30, F.HIF_LINKSTAT_PERSTSEEN, .w1c, []⟩, ⟨4, F.HIF_LINKSTAT_WIDTH, .ro, []⟩, ⟨0, F.HIF_LINKSTAT_SPEED, .ro, []⟩]⟩,
  ⟨2052, 1, 0, .arr, [⟨20, F.HIF_BAR2BASE_BASE, .rw, []⟩]⟩,
  ⟨2064, 1, 0, .arr, [⟨0, F.HIF_H2S_DATA, .rw, []⟩]⟩,
  ⟨2068, 1, 0, .arr, [⟨0, F.HIF_S2H_DATA, .rw, []⟩]⟩,
  ⟨2072, 1, 0, .arr, [⟨1, F.HIF_DOORBELL_S2H, .ro, []⟩, ⟨0, F.HIF_DOORBELL_H2S, .ro, []⟩]⟩,
  ⟨2076, 1, 0, .arr, [⟨1, F.HIF_DBSET_S2H, .w1s, []⟩, ⟨0, F.HIF_DBSET_H2S, .w1s, []⟩]⟩,
  ⟨2080, 1, 0, .arr, [⟨1, F.HIF_DBCLR_S2H, .w1c, []⟩, ⟨0, F.HIF_DBCLR_H2S, .w1c, []⟩]⟩]
/-- Every register of block HIF. -/
def regTable_HIF : List Reg := regTable_HIF_0

/-! CLU_CFG: power-down times of cluster n (02_power_clocks_modes.md). -/
def F.CLU_CFG_FLOOR : Fld := ⟨570490910, 2, 3, []⟩
def F.CLU_CFG_PWRDLY : Fld := ⟨570490900, 10, 100, []⟩
def F.CLU_CFG_PLLDLY : Fld := ⟨570490890, 10, 200, []⟩
def F.CLU_CFG_IDLE : Fld := ⟨570490880, 10, 20, []⟩
/-! CLU_STAT: state of cluster n (02_power_clocks_modes.md). -/
def F.CLU_STAT_DRAINWB : Fld := ⟨570491907, 1, 0, []⟩
def F.CLU_STAT_DAWN : Fld := ⟨570491906, 1, 0, []⟩
def F.CLU_STAT_STATE : Fld := ⟨570491904, 2, 3, []⟩
/-! CLU_DAWNCNT: Dawn sequences of cluster n (02_power_clocks_modes.md). -/
def F.CLU_DAWNCNT_COUNT : Fld := ⟨570492928, 32, 0, []⟩
/-! CLU_SNAP_STATE: cluster states at the last Milestone (02_power_clocks_modes.md). -/
def F.CLU_SNAP_STATE_STATE : Fld := ⟨570548224, 16, 65535, []⟩
/-- Register table of CLU, part 0. -/
def regTable_CLU_0 : List Reg := [
  ⟨2048, 8, 4, .arr, [⟨30, F.CLU_CFG_FLOOR, .rw, []⟩, ⟨20, F.CLU_CFG_PWRDLY, .rw, []⟩, ⟨10, F.CLU_CFG_PLLDLY, .rw, []⟩, ⟨0, F.CLU_CFG_IDLE, .rw, []⟩]⟩,
  ⟨2080, 8, 4, .arr, [⟨3, F.CLU_STAT_DRAINWB, .ro, []⟩, ⟨2, F.CLU_STAT_DAWN, .ro, []⟩, ⟨0, F.CLU_STAT_STATE, .ro, []⟩]⟩,
  ⟨2112, 8, 4, .arr, [⟨0, F.CLU_DAWNCNT_COUNT, .cnt, []⟩]⟩,
  ⟨3840, 1, 0, .arr, [⟨0, F.CLU_SNAP_STATE_STATE, .ro, []⟩]⟩]
/-- Every register of block CLU. -/
def regTable_CLU : List Reg := regTable_CLU_0

/-! SIC_THRESH: priority threshold (04_irhiqua_model.md). -/
def F.SIC_THRESH_THRESH : Fld := ⟨536937472, 6, 32, []⟩
/-! SIC_SWSRC: software sources (04_irhiqua_model.md). -/
def F.SIC_SWSRC_SW : Fld := ⟨536939520, 16, 0, []⟩
/-! SIC_SRC_CFG: configuration of source s (04_irhiqua_model.md). -/
def F.SIC_SRC_CFG_EN : Fld := ⟨537002015, 1, 0, []⟩
def F.SIC_SRC_CFG_PEND : Fld := ⟨537002014, 1, 0, []⟩
def F.SIC_SRC_CFG_INSVC : Fld := ⟨537002013, 1, 0, []⟩
def F.SIC_SRC_CFG_TARGET : Fld := ⟨537002000, 4, 0, []⟩
def F.SIC_SRC_CFG_PRIO : Fld := ⟨537001984, 5, 31, []⟩
/-! SIC_SNAP_PEND: copies of SIC_PEND0-7 (04_irhiqua_model.md). -/
def F.SIC_SNAP_PEND_VALUE : Fld := ⟨536993792, 32, 0, []⟩
/-- Register table of SIC, part 0. -/
def regTable_SIC_0 : List Reg := [
  ⟨2080, 4, 4, .arr, [⟨0, F.SIC_THRESH_THRESH, .rw, []⟩]⟩,
  ⟨2144, 1, 0, .arr, [⟨0, F.SIC_SWSRC_SW, .rw, []⟩]⟩,
  ⟨4096, 256, 4, .arr, [⟨31, F.SIC_SRC_CFG_EN, .rw, []⟩, ⟨30, F.SIC_SRC_CFG_PEND, .ro, []⟩, ⟨29, F.SIC_SRC_CFG_INSVC, .ro, []⟩, ⟨16, F.SIC_SRC_CFG_TARGET, .rw, []⟩, ⟨0, F.SIC_SRC_CFG_PRIO, .rw, []⟩]⟩,
  ⟨3840, 8, 4, .arr, [⟨0, F.SIC_SNAP_PEND_VALUE, .ro, []⟩]⟩]
/-- Every register of block SIC. -/
def regTable_SIC : List Reg := regTable_SIC_0

/-! MLS_SRCEN: trigger sources (17_milestone_trace.md). -/
def F.MLS_SRCEN_MLINPOL : Fld := ⟨369164296, 1, 0, []⟩
def F.MLS_SRCEN_SRCEN : Fld := ⟨369164288, 5, 0, []⟩
/-! MLS_ERRSEL: error events (17_milestone_trace.md). -/
def F.MLS_ERRSEL_SEL : Fld := ⟨369164416, 11, 0, []⟩
/-! MLS_TRIG: commands (17_milestone_trace.md). -/
def F.MLS_TRIG_GO : Fld := ⟨369164544, 1, 0, []⟩
/-! MLS_ARM: commands (17_milestone_trace.md). -/
def F.MLS_ARM_ARM : Fld := ⟨369164672, 1, 0, []⟩
/-! MLS_STAT: Milestone state (17_milestone_trace.md). -/
def F.MLS_STAT_ARMED : Fld := ⟨369164831, 1, 1, []⟩
def F.MLS_STAT_TRCHELD : Fld := ⟨369164830, 1, 0, []⟩
def F.MLS_STAT_SRC : Fld := ⟨369164824, 5, 0, []⟩
def F.MLS_STAT_SEQ : Fld := ⟨369164800, 16, 0, []⟩
/-! MLS_MISSCNT: statistics (17_milestone_trace.md). -/
def F.MLS_MISSCNT_COUNT : Fld := ⟨369164928, 32, 0, []⟩
/-! MLS_HELDCNT: statistics (17_milestone_trace.md). -/
def F.MLS_HELDCNT_COUNT : Fld := ⟨369165056, 32, 0, []⟩
/-! MLS_TRCCFG: trace hold (17_milestone_trace.md). -/
def F.MLS_TRCCFG_HOLDEN : Fld := ⟨369165215, 1, 0, []⟩
def F.MLS_TRCCFG_POSTCNT : Fld := ⟨369165184, 12, 0, []⟩
/-! MLS_OUTCFG: MLOUT (17_milestone_trace.md). -/
def F.MLS_OUTCFG_EN : Fld := ⟨369165343, 1, 0, []⟩
def F.MLS_OUTCFG_POL : Fld := ⟨369165342, 1, 0, []⟩
def F.MLS_OUTCFG_WIDTH : Fld := ⟨369165312, 8, 10, []⟩
/-! MLS_RREC: last MLSTONE received (17_milestone_trace.md). -/
def F.MLS_RREC_VALID : Fld := ⟨369165471, 1, 0, []⟩
def F.MLS_RREC_DEV : Fld := ⟨369165456, 11, 0, []⟩
def F.MLS_RREC_RSEQ : Fld := ⟨369165440, 16, 0, []⟩
/-! MLS_CWDEV: forwarding targets (R499) (17_milestone_trace.md). -/
def F.MLS_CWDEV_VALID : Fld := ⟨369165855, 1, 0, []⟩
def F.MLS_CWDEV_DEV : Fld := ⟨369165824, 11, 0, []⟩
/-! MLS_IRQSTAT: MLS interrupts (17_milestone_trace.md). -/
def F.MLS_IRQSTAT_CNTOVF : Fld := ⟨369171459, 1, 0, []⟩
def F.MLS_IRQSTAT_REMOTE : Fld := ⟨369171458, 1, 0, []⟩
def F.MLS_IRQSTAT_MISS : Fld := ⟨369171457, 1, 0, []⟩
def F.MLS_IRQSTAT_TAKEN : Fld := ⟨369171456, 1, 0, []⟩
/-! MLS_IRQEN: MLS interrupts (17_milestone_trace.md). -/
def F.MLS_IRQEN_CNTOVF : Fld := ⟨369171587, 1, 0, []⟩
def F.MLS_IRQEN_REMOTE : Fld := ⟨369171586, 1, 0, []⟩
def F.MLS_IRQEN_MISS : Fld := ⟨369171585, 1, 0, []⟩
def F.MLS_IRQEN_TAKEN : Fld := ⟨369171584, 1, 0, []⟩
/-! MLS_DBG_STAT: debug port state (17_milestone_trace.md). -/
def F.MLS_DBG_STAT_UNLOCKED : Fld := ⟨369172511, 1, 0, []⟩
def F.MLS_DBG_STAT_AVAIL : Fld := ⟨369172510, 1, 0, []⟩
def F.MLS_DBG_STAT_LEVEL : Fld := ⟨369172508, 2, 0, []⟩
def F.MLS_DBG_STAT_FAILS : Fld := ⟨369172480, 2, 0, []⟩
/-! MLS_DBG_HALT_LO: halt requests and halt state (17_milestone_trace.md). -/
def F.MLS_DBG_HALT_LO_CORES : Fld := ⟨369172992, 32, 0, []⟩
/-! MLS_DBG_HALT_HI: halt requests and halt state (17_milestone_trace.md). -/
def F.MLS_DBG_HALT_HI_CORES : Fld := ⟨369173120, 32, 0, []⟩
/-! MLS_DBG_HALT_SVC: halt requests and halt state (17_milestone_trace.md). -/
def F.MLS_DBG_HALT_SVC_CORES : Fld := ⟨369173248, 4, 0, []⟩
/-! MLS_DBG_HALTED_LO: halt requests and halt state (17_milestone_trace.md). -/
def F.MLS_DBG_HALTED_LO_CORES : Fld := ⟨369173504, 32, 0, []⟩
/-! MLS_DBG_HALTED_HI: halt requests and halt state (17_milestone_trace.md). -/
def F.MLS_DBG_HALTED_HI_CORES : Fld := ⟨369173632, 32, 0, []⟩
/-! MLS_DBG_HALTED_SVC: halt requests and halt state (17_milestone_trace.md). -/
def F.MLS_DBG_HALTED_SVC_CORES : Fld := ⟨369173760, 4, 0, []⟩
/-- Register table of MLS, part 0. -/
def regTable_MLS_0 : List Reg := [
  ⟨2048, 1, 0, .arr, [⟨8, F.MLS_SRCEN_MLINPOL, .rw, []⟩, ⟨0, F.MLS_SRCEN_SRCEN, .rw, []⟩]⟩,
  ⟨2052, 1, 0, .arr, [⟨0, F.MLS_ERRSEL_SEL, .rw, []⟩]⟩,
  ⟨2056, 1, 0, .arr, [⟨0, F.MLS_TRIG_GO, .ac, []⟩]⟩,
  ⟨2060, 1, 0, .arr, [⟨0, F.MLS_ARM_ARM, .ac, []⟩]⟩,
  ⟨2064, 1, 0, .arr, [⟨31, F.MLS_STAT_ARMED, .ro, []⟩, ⟨30, F.MLS_STAT_TRCHELD, .ro, []⟩, ⟨24, F.MLS_STAT_SRC, .ro, []⟩, ⟨0, F.MLS_STAT_SEQ, .ro, []⟩]⟩,
  ⟨2068, 1, 0, .arr, [⟨0, F.MLS_MISSCNT_COUNT, .cnt, []⟩]⟩,
  ⟨2072, 1, 0, .arr, [⟨0, F.MLS_HELDCNT_COUNT, .cnt, []⟩]⟩,
  ⟨2076, 1, 0, .arr, [⟨31, F.MLS_TRCCFG_HOLDEN, .rw, []⟩, ⟨0, F.MLS_TRCCFG_POSTCNT, .rw, []⟩]⟩,
  ⟨2080, 1, 0, .arr, [⟨31, F.MLS_OUTCFG_EN, .rw, []⟩, ⟨30, F.MLS_OUTCFG_POL, .rw, []⟩, ⟨0, F.MLS_OUTCFG_WIDTH, .rw, []⟩]⟩,
  ⟨2084, 1, 0, .arr, [⟨31, F.MLS_RREC_VALID, .w1c, []⟩, ⟨16, F.MLS_RREC_DEV, .ro, []⟩, ⟨0, F.MLS_RREC_RSEQ, .ro, []⟩]⟩,
  ⟨2096, 8, 4, .arr, [⟨31, F.MLS_CWDEV_VALID, .rw, []⟩, ⟨0, F.MLS_CWDEV_DEV, .rw, []⟩]⟩,
  ⟨2272, 1, 0, .arr, [⟨3, F.MLS_IRQSTAT_CNTOVF, .w1c, []⟩, ⟨2, F.MLS_IRQSTAT_REMOTE, .w1c, []⟩, ⟨1, F.MLS_IRQSTAT_MISS, .w1c, []⟩, ⟨0, F.MLS_IRQSTAT_TAKEN, .w1c, []⟩]⟩,
  ⟨2276, 1, 0, .arr, [⟨3, F.MLS_IRQEN_CNTOVF, .rw, []⟩, ⟨2, F.MLS_IRQEN_REMOTE, .rw, []⟩, ⟨1, F.MLS_IRQEN_MISS, .rw, []⟩, ⟨0, F.MLS_IRQEN_TAKEN, .rw, []⟩]⟩,
  ⟨2304, 1, 0, .arr, [⟨31, F.MLS_DBG_STAT_UNLOCKED, .ro, []⟩, ⟨30, F.MLS_DBG_STAT_AVAIL, .ro, []⟩, ⟨28, F.MLS_DBG_STAT_LEVEL, .ro, []⟩, ⟨0, F.MLS_DBG_STAT_FAILS, .ro, []⟩]⟩,
  ⟨2320, 1, 0, .arr, [⟨0, F.MLS_DBG_HALT_LO_CORES, .rw, []⟩]⟩,
  ⟨2324, 1, 0, .arr, [⟨0, F.MLS_DBG_HALT_HI_CORES, .rw, []⟩]⟩,
  ⟨2328, 1, 0, .arr, [⟨0, F.MLS_DBG_HALT_SVC_CORES, .rw, []⟩]⟩,
  ⟨2336, 1, 0, .arr, [⟨0, F.MLS_DBG_HALTED_LO_CORES, .ro, []⟩]⟩,
  ⟨2340, 1, 0, .arr, [⟨0, F.MLS_DBG_HALTED_HI_CORES, .ro, []⟩]⟩,
  ⟨2344, 1, 0, .arr, [⟨0, F.MLS_DBG_HALTED_SVC_CORES, .ro, []⟩]⟩]
/-! MLS_DBG_STEP: single step (17_milestone_trace.md). -/
def F.MLS_DBG_STEP_GO : Fld := ⟨369174047, 1, 0, []⟩
def F.MLS_DBG_STEP_CORE : Fld := ⟨369174016, 7, 0, []⟩
/-! MLS_DBG_REGSEL: core register access (17_milestone_trace.md). -/
def F.MLS_DBG_REGSEL_CORE : Fld := ⟨369174160, 7, 0, []⟩
def F.MLS_DBG_REGSEL_OFS : Fld := ⟨369174146, 7, 0, []⟩
/-! MLS_DBG_REGDATA: core register access (17_milestone_trace.md). -/
def F.MLS_DBG_REGDATA_VALUE : Fld := ⟨369174272, 32, 0, []⟩
/-! MLS_DBG_CFG: debug configuration (17_milestone_trace.md). -/
def F.MLS_DBG_CFG_BKPTHALT : Fld := ⟨369172608, 1, 0, []⟩
/-! MLS_SNAP_STAT: copy of MLS_STAT (17_milestone_trace.md). -/
def F.MLS_SNAP_STAT_VALUE : Fld := ⟨369221632, 32, 0, []⟩
/-! MLS_SNAP_MISSCNT: copy of MLS_MISSCNT (17_milestone_trace.md). -/
def F.MLS_SNAP_MISSCNT_VALUE : Fld := ⟨369221760, 32, 0, []⟩
/-- Register table of MLS, part 1. -/
def regTable_MLS_1 : List Reg := [
  ⟨2352, 1, 0, .arr, [⟨31, F.MLS_DBG_STEP_GO, .ac, []⟩, ⟨0, F.MLS_DBG_STEP_CORE, .rw, []⟩]⟩,
  ⟨2356, 1, 0, .arr, [⟨16, F.MLS_DBG_REGSEL_CORE, .rw, []⟩, ⟨2, F.MLS_DBG_REGSEL_OFS, .rw, []⟩]⟩,
  ⟨2360, 1, 0, .arr, [⟨0, F.MLS_DBG_REGDATA_VALUE, .rw, []⟩]⟩,
  ⟨2308, 1, 0, .arr, [⟨0, F.MLS_DBG_CFG_BKPTHALT, .rw, []⟩]⟩,
  ⟨3840, 1, 0, .arr, [⟨0, F.MLS_SNAP_STAT_VALUE, .ro, []⟩]⟩,
  ⟨3844, 1, 0, .arr, [⟨0, F.MLS_SNAP_MISSCNT_VALUE, .ro, []⟩]⟩]
/-- Every register of block MLS. -/
def regTable_MLS : List Reg := regTable_MLS_0 ++ regTable_MLS_1

end Sys2Proof.Machine
end

