-- ==== Sys2Proof/Machine/RegsB.lean ====
section
/-! DEFINITION.  The register fields of TSU, CPG, CHW, DMA, DMC, QUE as named cells, and their register tables.
Each field's place, width, access type and reset value are those of the register tables of the
block's chapter in spec/ (named beside each register).  A fuse- or strap-marked reset value is 0
here until FUSE_LOAD_DONE or RST_N_RISE loads it (notes/assumptions/7.md). -/

namespace Sys2Proof.Machine

/-! TSU_T_PC: entry address of the task (06_task_scheduler.md). -/
def F.TSU_T_PC_ENTRY : Fld := ⟨100671490, 30, 0, []⟩
/-! TSU_T_CFG: enable, mode and placement (06_task_scheduler.md). -/
def F.TSU_T_CFG_EN : Fld := ⟨100671647, 1, 0, []⟩
def F.TSU_T_CFG_PRE : Fld := ⟨100671646, 1, 0, []⟩
def F.TSU_T_CFG_ALL : Fld := ⟨100671645, 1, 0, []⟩
def F.TSU_T_CFG_SGEN : Fld := ⟨100671644, 1, 0, []⟩
def F.TSU_T_CFG_LEVEL : Fld := ⟨100671632, 5, 31, []⟩
def F.TSU_T_CFG_BLEVEL : Fld := ⟨100671624, 5, 31, []⟩
def F.TSU_T_CFG_AFF : Fld := ⟨100671616, 8, 255, []⟩
/-! TSU_T_MASK: event mask (06_task_scheduler.md). -/
def F.TSU_T_MASK_MASK : Fld := ⟨100671744, 16, 0, []⟩
/-! TSU_T_FLAGS: event flags (06_task_scheduler.md). -/
def F.TSU_T_FLAGS_CLR : Fld := ⟨100671888, 16, 0, []⟩
def F.TSU_T_FLAGS_FLAGS : Fld := ⟨100671872, 16, 0, []⟩
/-! TSU_T_CTX: context and page set (06_task_scheduler.md). -/
def F.TSU_T_CTX_CV : Fld := ⟨100672031, 1, 0, []⟩
def F.TSU_T_CTX_CID : Fld := ⟨100672016, 15, 0, []⟩
def F.TSU_T_CTX_PSET : Fld := ⟨100672000, 16, 0, []⟩
/-! TSU_T_DL: relative deadline (06_task_scheduler.md). -/
def F.TSU_T_DL_DEADLINE : Fld := ⟨100672128, 20, 0, []⟩
/-! TSU_T_SG: serial group (06_task_scheduler.md). -/
def F.TSU_T_SG_SGRP : Fld := ⟨100672256, 15, 0, []⟩
/-! TSU_T_STAT: task status (06_task_scheduler.md). -/
def F.TSU_T_STAT_JSEQ : Fld := ⟨100672400, 16, 0, []⟩
def F.TSU_T_STAT_CVALID : Fld := ⟨100672399, 1, 0, []⟩
def F.TSU_T_STAT_RESV : Fld := ⟨100672398, 1, 0, []⟩
def F.TSU_T_STAT_CORE : Fld := ⟨100672392, 6, 0, []⟩
def F.TSU_T_STAT_URGENT : Fld := ⟨100672389, 1, 0, []⟩
def F.TSU_T_STAT_RESUME : Fld := ⟨100672388, 1, 0, []⟩
def F.TSU_T_STAT_STATE : Fld := ⟨100672384, 4, 0, []⟩
/-! TSU_T_ABSDL: absolute deadline (06_task_scheduler.md). -/
def F.TSU_T_ABSDL_ABSDL : Fld := ⟨100672512, 32, 0, []⟩
/-! TSU_T_CMD: task commands (06_task_scheduler.md). -/
def F.TSU_T_CMD_REFUSED : Fld := ⟨100672671, 1, 0, []⟩
def F.TSU_T_CMD_FREE : Fld := ⟨100672641, 1, 0, []⟩
def F.TSU_T_CMD_CANCEL : Fld := ⟨100672640, 1, 0, []⟩
/-! TSU_CTRL: scheduler control (06_task_scheduler.md). -/
def F.TSU_CTRL_RUN : Fld := ⟨100728863, 1, 0, []⟩
/-! TSU_IDLEPC: idle entry and default trap vector (06_task_scheduler.md). -/
def F.TSU_IDLEPC_ADDR : Fld := ⟨100728962, 30, 0, []⟩
/-! TSU_TRAPV: idle entry and default trap vector (06_task_scheduler.md). -/
def F.TSU_TRAPV_ADDR : Fld := ⟨100729090, 30, 0, []⟩
/-! TSU_COREEN_LO: cores offered work (06_task_scheduler.md). -/
def F.TSU_COREEN_LO_EN : Fld := ⟨100729216, 32, 4294967295, []⟩
/-! TSU_COREEN_HI: cores offered work (06_task_scheduler.md). -/
def F.TSU_COREEN_HI_EN : Fld := ⟨100729344, 32, 4294967295, []⟩
/-! TSU_RACECNT: statistics (06_task_scheduler.md). -/
def F.TSU_RACECNT_COUNT : Fld := ⟨100730112, 32, 0, []⟩
/-! TSU_MISSCNT: statistics (06_task_scheduler.md). -/
def F.TSU_MISSCNT_COUNT : Fld := ⟨100730240, 32, 0, []⟩
/-! TSU_PREEMPTCNT: statistics (06_task_scheduler.md). -/
def F.TSU_PREEMPTCNT_COUNT : Fld := ⟨100730368, 32, 0, []⟩
/-! TSU_DISPCNT: statistics (06_task_scheduler.md). -/
def F.TSU_DISPCNT_COUNT : Fld := ⟨100730496, 32, 0, []⟩
/-! TSU_RESVMISS: statistics (06_task_scheduler.md). -/
def F.TSU_RESVMISS_COUNT : Fld := ⟨100730624, 32, 0, []⟩
/-- Register table of TSU, part 0. -/
def regTable_TSU_0 : List Reg := [
  ⟨256, 1, 0, .win, [⟨2, F.TSU_T_PC_ENTRY, .rw, []⟩]⟩,
  ⟨260, 1, 0, .win, [⟨31, F.TSU_T_CFG_EN, .rw, []⟩, ⟨30, F.TSU_T_CFG_PRE, .rw, []⟩, ⟨29, F.TSU_T_CFG_ALL, .rw, []⟩, ⟨28, F.TSU_T_CFG_SGEN, .rw, []⟩, ⟨16, F.TSU_T_CFG_LEVEL, .rw, []⟩, ⟨8, F.TSU_T_CFG_BLEVEL, .rw, []⟩, ⟨0, F.TSU_T_CFG_AFF, .rw, []⟩]⟩,
  ⟨264, 1, 0, .win, [⟨0, F.TSU_T_MASK_MASK, .rw, []⟩]⟩,
  ⟨268, 1, 0, .win, [⟨16, F.TSU_T_FLAGS_CLR, .wo, []⟩, ⟨0, F.TSU_T_FLAGS_FLAGS, .w1s, []⟩]⟩,
  ⟨272, 1, 0, .win, [⟨31, F.TSU_T_CTX_CV, .rw, []⟩, ⟨16, F.TSU_T_CTX_CID, .rw, []⟩, ⟨0, F.TSU_T_CTX_PSET, .rw, []⟩]⟩,
  ⟨276, 1, 0, .win, [⟨0, F.TSU_T_DL_DEADLINE, .rw, []⟩]⟩,
  ⟨280, 1, 0, .win, [⟨0, F.TSU_T_SG_SGRP, .rw, []⟩]⟩,
  ⟨284, 1, 0, .win, [⟨16, F.TSU_T_STAT_JSEQ, .ro, []⟩, ⟨15, F.TSU_T_STAT_CVALID, .ro, []⟩, ⟨14, F.TSU_T_STAT_RESV, .ro, []⟩, ⟨8, F.TSU_T_STAT_CORE, .ro, []⟩, ⟨5, F.TSU_T_STAT_URGENT, .ro, []⟩, ⟨4, F.TSU_T_STAT_RESUME, .ro, []⟩, ⟨0, F.TSU_T_STAT_STATE, .ro, []⟩]⟩,
  ⟨288, 1, 0, .win, [⟨0, F.TSU_T_ABSDL_ABSDL, .ro, []⟩]⟩,
  ⟨292, 1, 0, .win, [⟨31, F.TSU_T_CMD_REFUSED, .ro, []⟩, ⟨1, F.TSU_T_CMD_FREE, .ac, []⟩, ⟨0, F.TSU_T_CMD_CANCEL, .ac, []⟩]⟩,
  ⟨2048, 1, 0, .arr, [⟨31, F.TSU_CTRL_RUN, .rw, []⟩]⟩,
  ⟨2052, 1, 0, .arr, [⟨2, F.TSU_IDLEPC_ADDR, .rw, []⟩]⟩,
  ⟨2056, 1, 0, .arr, [⟨2, F.TSU_TRAPV_ADDR, .rw, []⟩]⟩,
  ⟨2060, 1, 0, .arr, [⟨0, F.TSU_COREEN_LO_EN, .rw, []⟩]⟩,
  ⟨2064, 1, 0, .arr, [⟨0, F.TSU_COREEN_HI_EN, .rw, []⟩]⟩,
  ⟨2088, 1, 0, .arr, [⟨0, F.TSU_RACECNT_COUNT, .cnt, []⟩]⟩,
  ⟨2092, 1, 0, .arr, [⟨0, F.TSU_MISSCNT_COUNT, .cnt, []⟩]⟩,
  ⟨2096, 1, 0, .arr, [⟨0, F.TSU_PREEMPTCNT_COUNT, .cnt, []⟩]⟩,
  ⟨2100, 1, 0, .arr, [⟨0, F.TSU_DISPCNT_COUNT, .cnt, []⟩]⟩,
  ⟨2104, 1, 0, .arr, [⟨0, F.TSU_RESVMISS_COUNT, .cnt, []⟩]⟩]
/-! TSU_FAULTREC: first FAULT record (06_task_scheduler.md). -/
def F.TSU_FAULTREC_VALID : Fld := ⟨100730911, 1, 0, []⟩
def F.TSU_FAULTREC_OVF : Fld := ⟨100730910, 1, 0, []⟩
def F.TSU_FAULTREC_CORE : Fld := ⟨100730888, 6, 0, []⟩
def F.TSU_FAULTREC_CODE : Fld := ⟨100730880, 4, 0, []⟩
/-! TSU_FAULTTID: task of the recorded FAULT (06_task_scheduler.md). -/
def F.TSU_FAULTTID_JSEQ : Fld := ⟨100731024, 16, 0, []⟩
def F.TSU_FAULTTID_TID : Fld := ⟨100731008, 16, 0, []⟩
/-! TSU_TRCCFG: trace configuration (06_task_scheduler.md). -/
def F.TSU_TRCCFG_EN : Fld := ⟨100732959, 1, 0, []⟩
def F.TSU_TRCCFG_WRAP : Fld := ⟨100732958, 1, 0, []⟩
def F.TSU_TRCCFG_TB : Fld := ⟨100732956, 2, 2, []⟩
def F.TSU_TRCCFG_EVMASK : Fld := ⟨100732929, 9, 511, []⟩
/-! TSU_TRCFILT: trace TID range (06_task_scheduler.md). -/
def F.TSU_TRCFILT_TIDHI : Fld := ⟨100733072, 16, 65535, []⟩
def F.TSU_TRCFILT_TIDLO : Fld := ⟨100733056, 16, 0, []⟩
/-! TSU_TRCSTAT: trace state (06_task_scheduler.md). -/
def F.TSU_TRCSTAT_FULL : Fld := ⟨100733215, 1, 0, []⟩
def F.TSU_TRCSTAT_COUNT : Fld := ⟨100733200, 13, 0, []⟩
def F.TSU_TRCSTAT_WP : Fld := ⟨100733184, 12, 0, []⟩
/-! TSU_TRCCLR: clear the ring (06_task_scheduler.md). -/
def F.TSU_TRCCLR_CLR : Fld := ⟨100733312, 1, 0, []⟩
/-! TSU_TRCLOST: events lost while full (06_task_scheduler.md). -/
def F.TSU_TRCLOST_COUNT : Fld := ⟨100733440, 32, 0, []⟩
/-! TSU_IRQSTAT: TSU interrupts (06_task_scheduler.md). -/
def F.TSU_IRQSTAT_CNTOVF : Fld := ⟨100736004, 1, 0, []⟩
def F.TSU_IRQSTAT_RACE : Fld := ⟨100736003, 1, 0, []⟩
def F.TSU_IRQSTAT_TRCFULL : Fld := ⟨100736002, 1, 0, []⟩
def F.TSU_IRQSTAT_MISS : Fld := ⟨100736001, 1, 0, []⟩
def F.TSU_IRQSTAT_FAULT : Fld := ⟨100736000, 1, 0, []⟩
/-! TSU_IRQEN: TSU interrupts (06_task_scheduler.md). -/
def F.TSU_IRQEN_CNTOVF : Fld := ⟨100736132, 1, 0, []⟩
def F.TSU_IRQEN_RACE : Fld := ⟨100736131, 1, 0, []⟩
def F.TSU_IRQEN_TRCFULL : Fld := ⟨100736130, 1, 0, []⟩
def F.TSU_IRQEN_MISS : Fld := ⟨100736129, 1, 0, []⟩
def F.TSU_IRQEN_FAULT : Fld := ⟨100736128, 1, 0, []⟩
/-! TSU_LVLCFG: floor of level n, cap of budget level n (06_task_scheduler.md). -/
def F.TSU_LVLCFG_FLOOR : Fld := ⟨100737040, 16, 0, []⟩
def F.TSU_LVLCFG_CAP : Fld := ⟨100737024, 16, 0, []⟩
/-! TSU_LVLSTAT: account of budget level n (06_task_scheduler.md). -/
def F.TSU_LVLSTAT_HELD : Fld := ⟨100741151, 1, 0, []⟩
def F.TSU_LVLSTAT_USED : Fld := ⟨100741120, 27, 0, []⟩
/-! TSU_SELECT: TASKSEL, one copy per initiator of R11 (06_task_scheduler.md). -/
def F.TSU_SELECT_SELERR : Fld := ⟨100663824, 1, 0, []⟩
def F.TSU_SELECT_INDEX : Fld := ⟨100663808, 16, 0, []⟩
/-! TSU_SNAP_READYCNT: copy of TSU_READYCNT (06_task_scheduler.md). -/
def F.TSU_SNAP_READYCNT_VALUE : Fld := ⟨100786176, 32, 0, []⟩
/-! TSU_SNAP_URGCNT: copy of TSU_URGCNT (06_task_scheduler.md). -/
def F.TSU_SNAP_URGCNT_VALUE : Fld := ⟨100786304, 32, 0, []⟩
/-! TSU_SNAP_TRCSTAT: copy of TSU_TRCSTAT (06_task_scheduler.md). -/
def F.TSU_SNAP_TRCSTAT_VALUE : Fld := ⟨100786432, 32, 0, []⟩
/-! TSU_SNAP_DISPCNT: copy of TSU_DISPCNT (06_task_scheduler.md). -/
def F.TSU_SNAP_DISPCNT_VALUE : Fld := ⟨100786560, 32, 0, []⟩
/-! TSU_SNAP_BUSY_LO: cores 0-31 not IDLE (06_task_scheduler.md). -/
def F.TSU_SNAP_BUSY_LO_VALUE : Fld := ⟨100786688, 32, 0, []⟩
/-! TSU_SNAP_BUSY_HI: cores 32-63 not IDLE (06_task_scheduler.md). -/
def F.TSU_SNAP_BUSY_HI_VALUE : Fld := ⟨100786816, 32, 0, []⟩
/-- Register table of TSU, part 1. -/
def regTable_TSU_1 : List Reg := [
  ⟨2112, 1, 0, .arr, [⟨31, F.TSU_FAULTREC_VALID, .w1c, []⟩, ⟨30, F.TSU_FAULTREC_OVF, .w1c, []⟩, ⟨8, F.TSU_FAULTREC_CORE, .ro, []⟩, ⟨0, F.TSU_FAULTREC_CODE, .ro, []⟩]⟩,
  ⟨2116, 1, 0, .arr, [⟨16, F.TSU_FAULTTID_JSEQ, .ro, []⟩, ⟨0, F.TSU_FAULTTID_TID, .ro, []⟩]⟩,
  ⟨2176, 1, 0, .arr, [⟨31, F.TSU_TRCCFG_EN, .rw, []⟩, ⟨30, F.TSU_TRCCFG_WRAP, .rw, []⟩, ⟨28, F.TSU_TRCCFG_TB, .rw, []⟩, ⟨1, F.TSU_TRCCFG_EVMASK, .rw, []⟩]⟩,
  ⟨2180, 1, 0, .arr, [⟨16, F.TSU_TRCFILT_TIDHI, .rw, []⟩, ⟨0, F.TSU_TRCFILT_TIDLO, .rw, []⟩]⟩,
  ⟨2184, 1, 0, .arr, [⟨31, F.TSU_TRCSTAT_FULL, .ro, []⟩, ⟨16, F.TSU_TRCSTAT_COUNT, .ro, []⟩, ⟨0, F.TSU_TRCSTAT_WP, .ro, []⟩]⟩,
  ⟨2188, 1, 0, .arr, [⟨0, F.TSU_TRCCLR_CLR, .ac, []⟩]⟩,
  ⟨2192, 1, 0, .arr, [⟨0, F.TSU_TRCLOST_COUNT, .cnt, []⟩]⟩,
  ⟨2272, 1, 0, .arr, [⟨4, F.TSU_IRQSTAT_CNTOVF, .w1c, []⟩, ⟨3, F.TSU_IRQSTAT_RACE, .w1c, []⟩, ⟨2, F.TSU_IRQSTAT_TRCFULL, .w1c, []⟩, ⟨1, F.TSU_IRQSTAT_MISS, .w1c, []⟩, ⟨0, F.TSU_IRQSTAT_FAULT, .w1c, []⟩]⟩,
  ⟨2276, 1, 0, .arr, [⟨4, F.TSU_IRQEN_CNTOVF, .rw, []⟩, ⟨3, F.TSU_IRQEN_RACE, .rw, []⟩, ⟨2, F.TSU_IRQEN_TRCFULL, .rw, []⟩, ⟨1, F.TSU_IRQEN_MISS, .rw, []⟩, ⟨0, F.TSU_IRQEN_FAULT, .rw, []⟩]⟩,
  ⟨2304, 32, 4, .arr, [⟨16, F.TSU_LVLCFG_FLOOR, .rw, []⟩, ⟨0, F.TSU_LVLCFG_CAP, .rw, []⟩]⟩,
  ⟨2432, 32, 4, .arr, [⟨31, F.TSU_LVLSTAT_HELD, .ro, []⟩, ⟨0, F.TSU_LVLSTAT_USED, .ro, []⟩]⟩,
  ⟨16, 1, 0, .priv, [⟨16, F.TSU_SELECT_SELERR, .ro, []⟩, ⟨0, F.TSU_SELECT_INDEX, .rw, []⟩]⟩,
  ⟨3840, 1, 0, .arr, [⟨0, F.TSU_SNAP_READYCNT_VALUE, .ro, []⟩]⟩,
  ⟨3844, 1, 0, .arr, [⟨0, F.TSU_SNAP_URGCNT_VALUE, .ro, []⟩]⟩,
  ⟨3848, 1, 0, .arr, [⟨0, F.TSU_SNAP_TRCSTAT_VALUE, .ro, []⟩]⟩,
  ⟨3852, 1, 0, .arr, [⟨0, F.TSU_SNAP_DISPCNT_VALUE, .ro, []⟩]⟩,
  ⟨3856, 1, 0, .arr, [⟨0, F.TSU_SNAP_BUSY_LO_VALUE, .ro, []⟩]⟩,
  ⟨3860, 1, 0, .arr, [⟨0, F.TSU_SNAP_BUSY_HI_VALUE, .ro, []⟩]⟩]
/-- Every register of block TSU. -/
def regTable_TSU : List Reg := regTable_TSU_0 ++ regTable_TSU_1

/-! CPG_CFG: paging control (07_context_memory.md). -/
def F.CPG_CFG_SPILLEN : Fld := ⟨134283295, 1, 0, []⟩
def F.CPG_CFG_PROVEN : Fld := ⟨134283294, 1, 1, []⟩
def F.CPG_CFG_WBAGE : Fld := ⟨134283264, 8, 20, []⟩
/-! CPG_STAT: pager status (07_context_memory.md). -/
def F.CPG_STAT_RELOADWAIT : Fld := ⟨134283551, 1, 0, []⟩
/-! CPG_POOLCFG: pool reservations (07_context_memory.md). -/
def F.CPG_POOLCFG_MIN : Fld := ⟨134283776, 17, 4096, [(0, 24576)]⟩
/-! CPG_POOLUSE: pool use (07_context_memory.md). -/
def F.CPG_POOLUSE_USED : Fld := ⟨134284288, 17, 0, []⟩
/-! CPG_SPILLBASE: spill area (07_context_memory.md). -/
def F.CPG_SPILLBASE_BASE : Fld := ⟨134284800, 24, 65536, []⟩
/-! CPG_SPILLCFG: spill watermarks (07_context_memory.md). -/
def F.CPG_SPILLCFG_HIGH : Fld := ⟨134284944, 16, 2048, []⟩
def F.CPG_SPILLCFG_LOW : Fld := ⟨134284928, 16, 1024, []⟩
/-! CPG_SCRUB: CST scrubbing (07_context_memory.md). -/
def F.CPG_SCRUB_EN : Fld := ⟨134285087, 1, 1, []⟩
def F.CPG_SCRUB_INTERVAL : Fld := ⟨134285056, 16, 1000, []⟩
/-! CPG_STAGECNT: statistics (07_context_memory.md). -/
def F.CPG_STAGECNT_COUNT : Fld := ⟨134285312, 32, 0, []⟩
/-! CPG_WBCNT: statistics (07_context_memory.md). -/
def F.CPG_WBCNT_COUNT : Fld := ⟨134285440, 32, 0, []⟩
/-! CPG_FAULTCNT: statistics (07_context_memory.md). -/
def F.CPG_FAULTCNT_COUNT : Fld := ⟨134285568, 32, 0, []⟩
/-! CPG_SPILLCNT: statistics (07_context_memory.md). -/
def F.CPG_SPILLCNT_COUNT : Fld := ⟨134285696, 32, 0, []⟩
/-! CPG_RELOADCNT: statistics (07_context_memory.md). -/
def F.CPG_RELOADCNT_COUNT : Fld := ⟨134285824, 32, 0, []⟩
/-! CPG_HITCNT: statistics (07_context_memory.md). -/
def F.CPG_HITCNT_COUNT : Fld := ⟨134285952, 32, 0, []⟩
/-! CPG_PROVSKIP: statistics (07_context_memory.md). -/
def F.CPG_PROVSKIP_COUNT : Fld := ⟨134286080, 32, 0, []⟩
/-! CPG_ECCCOR: statistics (07_context_memory.md). -/
def F.CPG_ECCCOR_COUNT : Fld := ⟨134286208, 32, 0, []⟩
/-! CPG_PARCNT: statistics (07_context_memory.md). -/
def F.CPG_PARCNT_COUNT : Fld := ⟨134286336, 32, 0, []⟩
/-! CPG_ECCREC: first uncorrectable error (07_context_memory.md). -/
def F.CPG_ECCREC_VALID : Fld := ⟨134287007, 1, 0, []⟩
def F.CPG_ECCREC_OVF : Fld := ⟨134287006, 1, 0, []⟩
def F.CPG_ECCREC_MEM : Fld := ⟨134287003, 3, 0, []⟩
def F.CPG_ECCREC_CV : Fld := ⟨134286991, 1, 0, []⟩
def F.CPG_ECCREC_CID : Fld := ⟨134286976, 15, 0, []⟩
/-! CPG_ECCADDR_LO: address of the recorded error (07_context_memory.md). -/
def F.CPG_ECCADDR_LO_ADDR : Fld := ⟨134287104, 32, 0, []⟩
/-! CPG_ECCADDR_HI: address of the recorded error (07_context_memory.md). -/
def F.CPG_ECCADDR_HI_ADDR : Fld := ⟨134287232, 8, 0, []⟩
/-! CPG_QUARREC: first quarantine (07_context_memory.md). -/
def F.CPG_QUARREC_VALID : Fld := ⟨134287391, 1, 0, []⟩
def F.CPG_QUARREC_OVF : Fld := ⟨134287390, 1, 0, []⟩
def F.CPG_QUARREC_CID : Fld := ⟨134287360, 15, 0, []⟩
/-- Register table of CPG, part 0. -/
def regTable_CPG_0 : List Reg := [
  ⟨2048, 1, 0, .arr, [⟨31, F.CPG_CFG_SPILLEN, .rw, []⟩, ⟨30, F.CPG_CFG_PROVEN, .rw, []⟩, ⟨0, F.CPG_CFG_WBAGE, .rw, []⟩]⟩,
  ⟨2056, 1, 0, .arr, [⟨31, F.CPG_STAT_RELOADWAIT, .ro, []⟩]⟩,
  ⟨2064, 3, 4, .arr, [⟨0, F.CPG_POOLCFG_MIN, .rw, []⟩]⟩,
  ⟨2080, 3, 4, .arr, [⟨0, F.CPG_POOLUSE_USED, .ro, []⟩]⟩,
  ⟨2096, 1, 0, .arr, [⟨0, F.CPG_SPILLBASE_BASE, .rw, []⟩]⟩,
  ⟨2100, 1, 0, .arr, [⟨16, F.CPG_SPILLCFG_HIGH, .rw, []⟩, ⟨0, F.CPG_SPILLCFG_LOW, .rw, []⟩]⟩,
  ⟨2104, 1, 0, .arr, [⟨31, F.CPG_SCRUB_EN, .rw, []⟩, ⟨0, F.CPG_SCRUB_INTERVAL, .rw, []⟩]⟩,
  ⟨2112, 1, 0, .arr, [⟨0, F.CPG_STAGECNT_COUNT, .cnt, []⟩]⟩,
  ⟨2116, 1, 0, .arr, [⟨0, F.CPG_WBCNT_COUNT, .cnt, []⟩]⟩,
  ⟨2120, 1, 0, .arr, [⟨0, F.CPG_FAULTCNT_COUNT, .cnt, []⟩]⟩,
  ⟨2124, 1, 0, .arr, [⟨0, F.CPG_SPILLCNT_COUNT, .cnt, []⟩]⟩,
  ⟨2128, 1, 0, .arr, [⟨0, F.CPG_RELOADCNT_COUNT, .cnt, []⟩]⟩,
  ⟨2132, 1, 0, .arr, [⟨0, F.CPG_HITCNT_COUNT, .cnt, []⟩]⟩,
  ⟨2136, 1, 0, .arr, [⟨0, F.CPG_PROVSKIP_COUNT, .cnt, []⟩]⟩,
  ⟨2140, 1, 0, .arr, [⟨0, F.CPG_ECCCOR_COUNT, .cnt, []⟩]⟩,
  ⟨2144, 1, 0, .arr, [⟨0, F.CPG_PARCNT_COUNT, .cnt, []⟩]⟩,
  ⟨2164, 1, 0, .arr, [⟨31, F.CPG_ECCREC_VALID, .w1c, []⟩, ⟨30, F.CPG_ECCREC_OVF, .w1c, []⟩, ⟨27, F.CPG_ECCREC_MEM, .ro, []⟩, ⟨15, F.CPG_ECCREC_CV, .ro, []⟩, ⟨0, F.CPG_ECCREC_CID, .ro, []⟩]⟩,
  ⟨2168, 1, 0, .arr, [⟨0, F.CPG_ECCADDR_LO_ADDR, .ro, []⟩]⟩,
  ⟨2172, 1, 0, .arr, [⟨0, F.CPG_ECCADDR_HI_ADDR, .ro, []⟩]⟩,
  ⟨2176, 1, 0, .arr, [⟨31, F.CPG_QUARREC_VALID, .w1c, []⟩, ⟨30, F.CPG_QUARREC_OVF, .w1c, []⟩, ⟨0, F.CPG_QUARREC_CID, .ro, []⟩]⟩]
/-! CPG_IRQSTAT: CPG interrupts (07_context_memory.md). -/
def F.CPG_IRQSTAT_QUAR : Fld := ⟨134290437, 1, 0, []⟩
def F.CPG_IRQSTAT_ECCUNC : Fld := ⟨134290436, 1, 0, []⟩
def F.CPG_IRQSTAT_RELOADWAIT : Fld := ⟨134290435, 1, 0, []⟩
def F.CPG_IRQSTAT_PARITY : Fld := ⟨134290434, 1, 0, []⟩
def F.CPG_IRQSTAT_RETIRE : Fld := ⟨134290433, 1, 0, []⟩
def F.CPG_IRQSTAT_CNTOVF : Fld := ⟨134290432, 1, 0, []⟩
/-! CPG_IRQEN: CPG interrupts (07_context_memory.md). -/
def F.CPG_IRQEN_QUAR : Fld := ⟨134290565, 1, 0, []⟩
def F.CPG_IRQEN_ECCUNC : Fld := ⟨134290564, 1, 0, []⟩
def F.CPG_IRQEN_RELOADWAIT : Fld := ⟨134290563, 1, 0, []⟩
def F.CPG_IRQEN_PARITY : Fld := ⟨134290562, 1, 0, []⟩
def F.CPG_IRQEN_RETIRE : Fld := ⟨134290561, 1, 0, []⟩
def F.CPG_IRQEN_CNTOVF : Fld := ⟨134290560, 1, 0, []⟩
/-! CPG_FRAME: frame f of core n, f = 0–7 for X0–X7 and 8–15 for Y0–Y7 (07_context_memory.md). -/
def F.CPG_FRAME_STATE : Fld := ⟨134348829, 3, 0, []⟩
def F.CPG_FRAME_DIRTY : Fld := ⟨134348828, 1, 0, []⟩
def F.CPG_FRAME_VPAGE : Fld := ⟨134348816, 4, 0, []⟩
def F.CPG_FRAME_CID : Fld := ⟨134348800, 15, 0, []⟩
/-! CPG_SNAP_FREE: copy of CPG_FREE (07_context_memory.md). -/
def F.CPG_SNAP_FREE_VALUE : Fld := ⟨134340608, 32, 0, []⟩
/-! CPG_SNAP_STAT: copy of CPG_STAT (07_context_memory.md). -/
def F.CPG_SNAP_STAT_VALUE : Fld := ⟨134340736, 32, 0, []⟩
/-! CPG_SNAP_STAGECNT: copy of CPG_STAGECNT (07_context_memory.md). -/
def F.CPG_SNAP_STAGECNT_VALUE : Fld := ⟨134340864, 32, 0, []⟩
/-! CPG_SNAP_WBCNT: copy of CPG_WBCNT (07_context_memory.md). -/
def F.CPG_SNAP_WBCNT_VALUE : Fld := ⟨134340992, 32, 0, []⟩
/-- Register table of CPG, part 1. -/
def regTable_CPG_1 : List Reg := [
  ⟨2272, 1, 0, .arr, [⟨5, F.CPG_IRQSTAT_QUAR, .w1c, []⟩, ⟨4, F.CPG_IRQSTAT_ECCUNC, .w1c, []⟩, ⟨3, F.CPG_IRQSTAT_RELOADWAIT, .w1c, []⟩, ⟨2, F.CPG_IRQSTAT_PARITY, .w1c, []⟩, ⟨1, F.CPG_IRQSTAT_RETIRE, .w1c, []⟩, ⟨0, F.CPG_IRQSTAT_CNTOVF, .w1c, []⟩]⟩,
  ⟨2276, 1, 0, .arr, [⟨5, F.CPG_IRQEN_QUAR, .rw, []⟩, ⟨4, F.CPG_IRQEN_ECCUNC, .rw, []⟩, ⟨3, F.CPG_IRQEN_RELOADWAIT, .rw, []⟩, ⟨2, F.CPG_IRQEN_PARITY, .rw, []⟩, ⟨1, F.CPG_IRQEN_RETIRE, .rw, []⟩, ⟨0, F.CPG_IRQEN_CNTOVF, .rw, []⟩]⟩,
  ⟨4096, 1024, 4, .arr, [⟨29, F.CPG_FRAME_STATE, .ro, []⟩, ⟨28, F.CPG_FRAME_DIRTY, .ro, []⟩, ⟨16, F.CPG_FRAME_VPAGE, .ro, []⟩, ⟨0, F.CPG_FRAME_CID, .ro, []⟩]⟩,
  ⟨3840, 1, 0, .arr, [⟨0, F.CPG_SNAP_FREE_VALUE, .ro, []⟩]⟩,
  ⟨3844, 1, 0, .arr, [⟨0, F.CPG_SNAP_STAT_VALUE, .ro, []⟩]⟩,
  ⟨3848, 1, 0, .arr, [⟨0, F.CPG_SNAP_STAGECNT_VALUE, .ro, []⟩]⟩,
  ⟨3852, 1, 0, .arr, [⟨0, F.CPG_SNAP_WBCNT_VALUE, .ro, []⟩]⟩]
/-- Every register of block CPG. -/
def regTable_CPG : List Reg := regTable_CPG_0 ++ regTable_CPG_1

/-! CHW_CTX_CMD: context commands (07_context_memory.md). -/
def F.CHW_CTX_CMD_RESULT : Fld := ⟨503324680, 4, 0, []⟩
def F.CHW_CTX_CMD_PUBLISH : Fld := ⟨503324676, 1, 0, []⟩
def F.CHW_CTX_CMD_LOAD : Fld := ⟨503324675, 1, 0, []⟩
def F.CHW_CTX_CMD_SPILL : Fld := ⟨503324674, 1, 0, []⟩
def F.CHW_CTX_CMD_RELEASE : Fld := ⟨503324673, 1, 0, []⟩
def F.CHW_CTX_CMD_ALLOC : Fld := ⟨503324672, 1, 0, []⟩
/-! CHW_CTX_LAYOUT: layout applied at ALLOC (07_context_memory.md). -/
def F.CHW_CTX_LAYOUT_YMEM : Fld := ⟨503324816, 16, 0, []⟩
def F.CHW_CTX_LAYOUT_PAGES : Fld := ⟨503324800, 16, 0, []⟩
/-! CHW_CTX_ATTR: context attributes (07_context_memory.md). -/
def F.CHW_CTX_ATTR_PIN : Fld := ⟨503324959, 1, 0, []⟩
def F.CHW_CTX_ATTR_SPILLOK : Fld := ⟨503324958, 1, 0, []⟩
def F.CHW_CTX_ATTR_POOL : Fld := ⟨503324956, 2, 0, []⟩
def F.CHW_CTX_ATTR_OD : Fld := ⟨503324928, 16, 0, []⟩
/-! CHW_CTX_STAT: context status (07_context_memory.md). -/
def F.CHW_CTX_STAT_STATE : Fld := ⟨503325086, 2, 0, []⟩
def F.CHW_CTX_STAT_CTLPEND : Fld := ⟨503325085, 1, 0, []⟩
def F.CHW_CTX_STAT_WERR : Fld := ⟨503325083, 1, 0, []⟩
def F.CHW_CTX_STAT_AGE : Fld := ⟨503325056, 16, 0, []⟩
/-! CHW_SELECT: CHSEL, one copy per initiator of R11 (07_context_memory.md). -/
def F.CHW_SELECT_SELERR : Fld := ⟨503317008, 1, 0, []⟩
def F.CHW_SELECT_INDEX : Fld := ⟨503316992, 16, 0, []⟩
/-- Register table of CHW, part 0. -/
def regTable_CHW_0 : List Reg := [
  ⟨256, 1, 0, .win, [⟨8, F.CHW_CTX_CMD_RESULT, .ro, []⟩, ⟨4, F.CHW_CTX_CMD_PUBLISH, .ac, []⟩, ⟨3, F.CHW_CTX_CMD_LOAD, .ac, []⟩, ⟨2, F.CHW_CTX_CMD_SPILL, .ac, []⟩, ⟨1, F.CHW_CTX_CMD_RELEASE, .ac, []⟩, ⟨0, F.CHW_CTX_CMD_ALLOC, .ac, []⟩]⟩,
  ⟨260, 1, 0, .win, [⟨16, F.CHW_CTX_LAYOUT_YMEM, .rw, []⟩, ⟨0, F.CHW_CTX_LAYOUT_PAGES, .rw, []⟩]⟩,
  ⟨264, 1, 0, .win, [⟨31, F.CHW_CTX_ATTR_PIN, .rw, []⟩, ⟨30, F.CHW_CTX_ATTR_SPILLOK, .rw, []⟩, ⟨28, F.CHW_CTX_ATTR_POOL, .rw, [(3, 3)]⟩, ⟨0, F.CHW_CTX_ATTR_OD, .rw, []⟩]⟩,
  ⟨268, 1, 0, .win, [⟨30, F.CHW_CTX_STAT_STATE, .ro, []⟩, ⟨29, F.CHW_CTX_STAT_CTLPEND, .ro, []⟩, ⟨27, F.CHW_CTX_STAT_WERR, .w1c, []⟩, ⟨0, F.CHW_CTX_STAT_AGE, .ro, []⟩]⟩,
  ⟨16, 1, 0, .priv, [⟨16, F.CHW_SELECT_SELERR, .ro, []⟩, ⟨0, F.CHW_SELECT_INDEX, .rw, []⟩]⟩]
/-- Every register of block CHW. -/
def regTable_CHW : List Reg := regTable_CHW_0

/-! DMA_C_SRC_LO: address low (07_context_memory.md). -/
def F.DMA_C_SRC_LO_ADDR : Fld := ⟨402784256, 32, 0, []⟩
/-! DMA_C_DST_LO: address low (07_context_memory.md). -/
def F.DMA_C_DST_LO_ADDR : Fld := ⟨402784512, 32, 0, []⟩
/-! DMA_C_SRC_HI: address high (07_context_memory.md). -/
def F.DMA_C_SRC_HI_ADDR : Fld := ⟨402784384, 8, 0, []⟩
/-! DMA_C_DST_HI: address high (07_context_memory.md). -/
def F.DMA_C_DST_HI_ADDR : Fld := ⟨402784640, 8, 0, []⟩
/-! DMA_C_LEN: length (07_context_memory.md). -/
def F.DMA_C_LEN_LEN : Fld := ⟨402784768, 24, 0, []⟩
/-! DMA_C_CTX: context of virtual sides (07_context_memory.md). -/
def F.DMA_C_CTX_CV : Fld := ⟨402784911, 1, 0, []⟩
def F.DMA_C_CTX_CID : Fld := ⟨402784896, 15, 0, []⟩
/-! DMA_C_CMPL: completion flags (07_context_memory.md). -/
def F.DMA_C_CMPL_FLAGS : Fld := ⟨402785040, 16, 0, []⟩
def F.DMA_C_CMPL_TID : Fld := ⟨402785024, 16, 0, []⟩
/-! DMA_C_CTL: control (07_context_memory.md). -/
def F.DMA_C_CTL_GO : Fld := ⟨402785183, 1, 0, []⟩
def F.DMA_C_CTL_ABORT : Fld := ⟨402785182, 1, 0, []⟩
def F.DMA_C_CTL_SPHYS : Fld := ⟨402785155, 1, 0, []⟩
def F.DMA_C_CTL_DPHYS : Fld := ⟨402785154, 1, 0, []⟩
def F.DMA_C_CTL_SIG : Fld := ⟨402785153, 1, 0, []⟩
def F.DMA_C_CTL_IRQ : Fld := ⟨402785152, 1, 0, []⟩
/-! DMA_C_STAT: channel status (07_context_memory.md). -/
def F.DMA_C_STAT_STATE : Fld := ⟨402785309, 3, 0, []⟩
def F.DMA_C_STAT_CLASS : Fld := ⟨402785306, 3, 0, []⟩
def F.DMA_C_STAT_ERR : Fld := ⟨402785296, 4, 0, []⟩
/-! DMA_C_OFS: progress (07_context_memory.md). -/
def F.DMA_C_OFS_OFS : Fld := ⟨402785408, 24, 0, []⟩
/-! DMA_FAULTCNT: waits taken (07_context_memory.md). -/
def F.DMA_FAULTCNT_COUNT : Fld := ⟨402718848, 32, 0, []⟩
/-! DMA_IRQSTAT: DMA interrupts (07_context_memory.md). -/
def F.DMA_IRQSTAT_CH : Fld := ⟨402725888, 32, 0, []⟩
/-! DMA_IRQEN: DMA interrupts (07_context_memory.md). -/
def F.DMA_IRQEN_CH : Fld := ⟨402726016, 32, 0, []⟩
/-! DMA_SELECT: DCHSEL, one copy per initiator of R11 (07_context_memory.md). -/
def F.DMA_SELECT_SELERR : Fld := ⟨402653712, 1, 0, []⟩
def F.DMA_SELECT_INDEX : Fld := ⟨402653696, 16, 0, []⟩
/-! DMA_SNAP_BUSY: copy of DMA_BUSY (07_context_memory.md). -/
def F.DMA_SNAP_BUSY_VALUE : Fld := ⟨402776064, 32, 0, []⟩
/-- Register table of DMA, part 0. -/
def regTable_DMA_0 : List Reg := [
  ⟨4096, 32, 64, .arr, [⟨0, F.DMA_C_SRC_LO_ADDR, .rw, []⟩]⟩,
  ⟨4104, 32, 64, .arr, [⟨0, F.DMA_C_DST_LO_ADDR, .rw, []⟩]⟩,
  ⟨4100, 32, 64, .arr, [⟨0, F.DMA_C_SRC_HI_ADDR, .rw, []⟩]⟩,
  ⟨4108, 32, 64, .arr, [⟨0, F.DMA_C_DST_HI_ADDR, .rw, []⟩]⟩,
  ⟨4112, 32, 64, .arr, [⟨0, F.DMA_C_LEN_LEN, .rw, []⟩]⟩,
  ⟨4116, 32, 64, .arr, [⟨15, F.DMA_C_CTX_CV, .rw, []⟩, ⟨0, F.DMA_C_CTX_CID, .rw, []⟩]⟩,
  ⟨4120, 32, 64, .arr, [⟨16, F.DMA_C_CMPL_FLAGS, .rw, []⟩, ⟨0, F.DMA_C_CMPL_TID, .rw, []⟩]⟩,
  ⟨4124, 32, 64, .arr, [⟨31, F.DMA_C_CTL_GO, .ac, []⟩, ⟨30, F.DMA_C_CTL_ABORT, .ac, []⟩, ⟨3, F.DMA_C_CTL_SPHYS, .rw, []⟩, ⟨2, F.DMA_C_CTL_DPHYS, .rw, []⟩, ⟨1, F.DMA_C_CTL_SIG, .rw, []⟩, ⟨0, F.DMA_C_CTL_IRQ, .rw, []⟩]⟩,
  ⟨4128, 32, 64, .arr, [⟨29, F.DMA_C_STAT_STATE, .ro, []⟩, ⟨26, F.DMA_C_STAT_CLASS, .ro, []⟩, ⟨16, F.DMA_C_STAT_ERR, .ro, []⟩]⟩,
  ⟨4132, 32, 64, .arr, [⟨0, F.DMA_C_OFS_OFS, .ro, []⟩]⟩,
  ⟨2052, 1, 0, .arr, [⟨0, F.DMA_FAULTCNT_COUNT, .cnt, []⟩]⟩,
  ⟨2272, 1, 0, .arr, [⟨0, F.DMA_IRQSTAT_CH, .w1c, []⟩]⟩,
  ⟨2276, 1, 0, .arr, [⟨0, F.DMA_IRQEN_CH, .rw, []⟩]⟩,
  ⟨16, 1, 0, .priv, [⟨16, F.DMA_SELECT_SELERR, .ro, []⟩, ⟨0, F.DMA_SELECT_INDEX, .rw, []⟩]⟩,
  ⟨3840, 1, 0, .arr, [⟨0, F.DMA_SNAP_BUSY_VALUE, .ro, []⟩]⟩]
/-- Every register of block DMA. -/
def regTable_DMA : List Reg := regTable_DMA_0

/-! DMC_CFG: DRAM configuration (07_context_memory.md). -/
def F.DMC_CFG_SIZE : Fld := ⟨469827610, 6, 0, []⟩
def F.DMC_CFG_RANKS : Fld := ⟨469827608, 2, 0, []⟩
def F.DMC_CFG_WIDTH : Fld := ⟨469827606, 2, 0, []⟩
def F.DMC_CFG_DENSITY : Fld := ⟨469827604, 2, 0, []⟩
def F.DMC_CFG_SPEED : Fld := ⟨469827600, 4, 0, []⟩
/-! DMC_CTRL: control (07_context_memory.md). -/
def F.DMC_CTRL_RESUME : Fld := ⟨469827714, 1, 0, []⟩
def F.DMC_CTRL_SELFREF : Fld := ⟨469827713, 1, 0, []⟩
def F.DMC_CTRL_INIT : Fld := ⟨469827712, 1, 0, []⟩
/-! DMC_STAT: status (07_context_memory.md). -/
def F.DMC_STAT_READY : Fld := ⟨469827871, 1, 0, []⟩
def F.DMC_STAT_TRAINERR : Fld := ⟨469827870, 1, 0, []⟩
def F.DMC_STAT_INSR : Fld := ⟨469827869, 1, 0, []⟩
def F.DMC_STAT_STEP : Fld := ⟨469827840, 4, 0, []⟩
/-! DMC_TIM0: timing, DRAM clock cycles (07_context_memory.md). -/
def F.DMC_TIM0_TRP : Fld := ⟨469828120, 8, 0, []⟩
def F.DMC_TIM0_TRCD : Fld := ⟨469828112, 8, 0, []⟩
def F.DMC_TIM0_CWL : Fld := ⟨469828104, 8, 0, []⟩
def F.DMC_TIM0_CL : Fld := ⟨469828096, 8, 0, []⟩
/-! DMC_TIM1: timing, DRAM clock cycles (07_context_memory.md). -/
def F.DMC_TIM1_TFAW : Fld := ⟨469828248, 8, 0, []⟩
def F.DMC_TIM1_TRTP : Fld := ⟨469828240, 8, 0, []⟩
def F.DMC_TIM1_TWR : Fld := ⟨469828232, 8, 0, []⟩
def F.DMC_TIM1_TRAS : Fld := ⟨469828224, 8, 0, []⟩
/-! DMC_TIM2: refresh timing, DRAM clock cycles (07_context_memory.md). -/
def F.DMC_TIM2_TREFI : Fld := ⟨469828368, 16, 0, []⟩
def F.DMC_TIM2_TRFC : Fld := ⟨469828352, 16, 0, []⟩
/-! DMC_ECCCOR: ECC statistics (07_context_memory.md). -/
def F.DMC_ECCCOR_COUNT : Fld := ⟨469828608, 32, 0, []⟩
/-! DMC_ECCUNC: ECC statistics (07_context_memory.md). -/
def F.DMC_ECCUNC_COUNT : Fld := ⟨469828736, 32, 0, []⟩
/-! DMC_ERRADDR_LO: first uncorrectable address (07_context_memory.md). -/
def F.DMC_ERRADDR_LO_ADDR : Fld := ⟨469828864, 32, 0, []⟩
/-! DMC_ERRADDR_HI: first uncorrectable address (07_context_memory.md). -/
def F.DMC_ERRADDR_HI_VALID : Fld := ⟨469829023, 1, 0, []⟩
def F.DMC_ERRADDR_HI_ADDR : Fld := ⟨469828992, 8, 0, []⟩
/-! DMC_IRQSTAT: DMC interrupts (07_context_memory.md). -/
def F.DMC_IRQSTAT_TRAINERR : Fld := ⟨469834754, 1, 0, []⟩
def F.DMC_IRQSTAT_ECCUNC : Fld := ⟨469834753, 1, 0, []⟩
def F.DMC_IRQSTAT_CNTOVF : Fld := ⟨469834752, 1, 0, []⟩
/-! DMC_IRQEN: DMC interrupts (07_context_memory.md). -/
def F.DMC_IRQEN_TRAINERR : Fld := ⟨469834882, 1, 0, []⟩
def F.DMC_IRQEN_ECCUNC : Fld := ⟨469834881, 1, 0, []⟩
def F.DMC_IRQEN_CNTOVF : Fld := ⟨469834880, 1, 0, []⟩
/-! DMC_SNAP_STAT: copy of DMC_STAT (07_context_memory.md). -/
def F.DMC_SNAP_STAT_VALUE : Fld := ⟨469884928, 32, 0, []⟩
/-! DMC_SNAP_ECCCOR: copy of DMC_ECCCOR (07_context_memory.md). -/
def F.DMC_SNAP_ECCCOR_VALUE : Fld := ⟨469885056, 32, 0, []⟩
/-- Register table of DMC, part 0. -/
def regTable_DMC_0 : List Reg := [
  ⟨2048, 1, 0, .arr, [⟨26, F.DMC_CFG_SIZE, .rw, [(33, 63)]⟩, ⟨24, F.DMC_CFG_RANKS, .rw, [(2, 3)]⟩, ⟨22, F.DMC_CFG_WIDTH, .rw, [(2, 3)]⟩, ⟨20, F.DMC_CFG_DENSITY, .rw, [(3, 3)]⟩, ⟨16, F.DMC_CFG_SPEED, .rw, [(5, 15)]⟩]⟩,
  ⟨2052, 1, 0, .arr, [⟨2, F.DMC_CTRL_RESUME, .rw, []⟩, ⟨1, F.DMC_CTRL_SELFREF, .rw, []⟩, ⟨0, F.DMC_CTRL_INIT, .ac, []⟩]⟩,
  ⟨2056, 1, 0, .arr, [⟨31, F.DMC_STAT_READY, .ro, []⟩, ⟨30, F.DMC_STAT_TRAINERR, .ro, []⟩, ⟨29, F.DMC_STAT_INSR, .ro, []⟩, ⟨0, F.DMC_STAT_STEP, .ro, []⟩]⟩,
  ⟨2064, 1, 0, .arr, [⟨24, F.DMC_TIM0_TRP, .rw, []⟩, ⟨16, F.DMC_TIM0_TRCD, .rw, []⟩, ⟨8, F.DMC_TIM0_CWL, .rw, []⟩, ⟨0, F.DMC_TIM0_CL, .rw, []⟩]⟩,
  ⟨2068, 1, 0, .arr, [⟨24, F.DMC_TIM1_TFAW, .rw, []⟩, ⟨16, F.DMC_TIM1_TRTP, .rw, []⟩, ⟨8, F.DMC_TIM1_TWR, .rw, []⟩, ⟨0, F.DMC_TIM1_TRAS, .rw, []⟩]⟩,
  ⟨2072, 1, 0, .arr, [⟨16, F.DMC_TIM2_TREFI, .rw, []⟩, ⟨0, F.DMC_TIM2_TRFC, .rw, []⟩]⟩,
  ⟨2080, 1, 0, .arr, [⟨0, F.DMC_ECCCOR_COUNT, .cnt, []⟩]⟩,
  ⟨2084, 1, 0, .arr, [⟨0, F.DMC_ECCUNC_COUNT, .cnt, []⟩]⟩,
  ⟨2088, 1, 0, .arr, [⟨0, F.DMC_ERRADDR_LO_ADDR, .ro, []⟩]⟩,
  ⟨2092, 1, 0, .arr, [⟨31, F.DMC_ERRADDR_HI_VALID, .w1c, []⟩, ⟨0, F.DMC_ERRADDR_HI_ADDR, .ro, []⟩]⟩,
  ⟨2272, 1, 0, .arr, [⟨2, F.DMC_IRQSTAT_TRAINERR, .w1c, []⟩, ⟨1, F.DMC_IRQSTAT_ECCUNC, .w1c, []⟩, ⟨0, F.DMC_IRQSTAT_CNTOVF, .w1c, []⟩]⟩,
  ⟨2276, 1, 0, .arr, [⟨2, F.DMC_IRQEN_TRAINERR, .rw, []⟩, ⟨1, F.DMC_IRQEN_ECCUNC, .rw, []⟩, ⟨0, F.DMC_IRQEN_CNTOVF, .rw, []⟩]⟩,
  ⟨3840, 1, 0, .arr, [⟨0, F.DMC_SNAP_STAT_VALUE, .ro, []⟩]⟩,
  ⟨3844, 1, 0, .arr, [⟨0, F.DMC_SNAP_ECCCOR_VALUE, .ro, []⟩]⟩]
/-- Every register of block DMC. -/
def regTable_DMC : List Reg := regTable_DMC_0

/-! QUE_SELECT: QSEL, one copy per initiator of R11 (08_queues_and_sharing.md). -/
def F.QUE_SELECT_SELERR : Fld := ⟨167772688, 1, 0, []⟩
def F.QUE_SELECT_INDEX : Fld := ⟨167772672, 16, 0, []⟩
/-- Register table of QUE, part 0. -/
def regTable_QUE_0 : List Reg := [
  ⟨16, 1, 0, .priv, [⟨16, F.QUE_SELECT_SELERR, .ro, []⟩, ⟨0, F.QUE_SELECT_INDEX, .rw, []⟩]⟩]
/-- Every register of block QUE. -/
def regTable_QUE : List Reg := regTable_QUE_0

end Sys2Proof.Machine
end

