-- ==== Sys2Proof/Machine/RegsC.lean ====
section
/-! DEFINITION.  The register fields of PKE, TMU, TDX, CWY, HMN as named cells, and their register tables.
Each field's place, width, access type and reset value are those of the register tables of the
block's chapter in spec/ (named beside each register).  A fuse- or strap-marked reset value is 0
here until FUSE_LOAD_DONE or RST_N_RISE loads it (notes/assumptions/7.md). -/

namespace Sys2Proof.Machine

/-! PKE_P_CFG: port configuration (12_packet_engine.md). -/
def F.PKE_P_CFG_EN : Fld := ⟨234889247, 1, 0, []⟩
def F.PKE_P_CFG_MODE : Fld := ⟨234889244, 3, 0, []⟩
def F.PKE_P_CFG_FEC : Fld := ⟨234889242, 2, 0, []⟩
def F.PKE_P_CFG_AN : Fld := ⟨234889241, 1, 1, []⟩
def F.PKE_P_CFG_MCAST : Fld := ⟨234889240, 1, 0, []⟩
def F.PKE_P_CFG_RQ : Fld := ⟨234889236, 4, 0, []⟩
def F.PKE_P_CFG_PTPQ : Fld := ⟨234889232, 4, 0, []⟩
def F.PKE_P_CFG_MAXFRM : Fld := ⟨234889216, 12, 1522, []⟩
/-! PKE_P_MAC_HI: port MAC address (12_packet_engine.md). -/
def F.PKE_P_MAC_HI_MAC : Fld := ⟨234889344, 32, 0, []⟩
/-! PKE_P_MAC_LO: port MAC address (12_packet_engine.md). -/
def F.PKE_P_MAC_LO_MAC : Fld := ⟨234889472, 32, 0, []⟩
/-! PKE_P_STAT: port status (12_packet_engine.md). -/
def F.PKE_P_STAT_UP : Fld := ⟨234889631, 1, 0, []⟩
def F.PKE_P_STAT_ANDONE : Fld := ⟨234889630, 1, 0, []⟩
def F.PKE_P_STAT_CFGERR : Fld := ⟨234889629, 1, 0, []⟩
def F.PKE_P_STAT_LINKCHG : Fld := ⟨234889628, 1, 0, []⟩
def F.PKE_P_STAT_FECACT : Fld := ⟨234889626, 2, 0, []⟩
/-! PKE_P_TCFG: port timing (12_packet_engine.md). -/
def F.PKE_P_TCFG_TSTB : Fld := ⟨234889758, 2, 0, []⟩
def F.PKE_P_TCFG_LTB : Fld := ⟨234889756, 2, 0, []⟩
def F.PKE_P_TCFG_LATETOL : Fld := ⟨234889728, 16, 10000, []⟩
/-! PKE_P_CNT: port counters (12_packet_engine.md). -/
def F.PKE_P_CNT_COUNT : Fld := ⟨234890240, 32, 0, []⟩
/-! PKE_CTRL: engine control (12_packet_engine.md). -/
def F.PKE_CTRL_RUN : Fld := ⟨234946591, 1, 0, []⟩
/-! PKE_CELLBASE: cell region (R389) (12_packet_engine.md). -/
def F.PKE_CELLBASE_BASE : Fld := ⟨234946696, 17, 114688, []⟩
/-! PKE_CELLCNT: cell region (R389) (12_packet_engine.md). -/
def F.PKE_CELLCNT_CNT : Fld := ⟨234946816, 18, 16384, []⟩
/-! PKE_CLS_KEY: classifier key (12_packet_engine.md). -/
def F.PKE_CLS_KEY_LADDR : Fld := ⟨234947600, 4, 0, []⟩
def F.PKE_CLS_KEY_UDPPORT : Fld := ⟨234947584, 16, 0, []⟩
/-! PKE_CLS_CMD: classifier command (12_packet_engine.md). -/
def F.PKE_CLS_CMD_GO : Fld := ⟨234948255, 1, 0, []⟩
def F.PKE_CLS_CMD_RESULT : Fld := ⟨234948232, 4, 0, []⟩
def F.PKE_CLS_CMD_OP : Fld := ⟨234948224, 3, 0, []⟩
/-! PKE_KSSEL: key store stream, private per initiator (12_packet_engine.md). -/
def F.PKE_KSSEL_STRM : Fld := ⟨234948608, 15, 0, []⟩
/-! PKE_KS_CMD: key store command (12_packet_engine.md). -/
def F.PKE_KS_CMD_GO : Fld := ⟨234948767, 1, 0, []⟩
def F.PKE_KS_CMD_RESULT : Fld := ⟨234948744, 4, 0, []⟩
def F.PKE_KS_CMD_KEEP : Fld := ⟨234948739, 1, 0, []⟩
def F.PKE_KS_CMD_OP : Fld := ⟨234948736, 3, 0, []⟩
/-! PKE_CR_BASE: completion ring (R382) (12_packet_engine.md). -/
def F.PKE_CR_BASE_BASE : Fld := ⟨234949126, 26, 0, []⟩
/-! PKE_CR_CFG: completion ring (R382) (12_packet_engine.md). -/
def F.PKE_CR_CFG_IE : Fld := ⟨234949279, 1, 0, []⟩
def F.PKE_CR_CFG_SIZE : Fld := ⟨234949248, 4, 0, []⟩
/-! PKE_CR_WP: completion ring (R382) (12_packet_engine.md). -/
def F.PKE_CR_WP_WP : Fld := ⟨234949376, 16, 0, []⟩
/-! PKE_CR_RP: completion ring (R382) (12_packet_engine.md). -/
def F.PKE_CR_RP_RP : Fld := ⟨234949504, 16, 0, []⟩
/-! PKE_CWETYPE: Causeway tunnel EtherType (12_packet_engine.md). -/
def F.PKE_CWETYPE_ETYPE : Fld := ⟨234949632, 16, 34997, []⟩
/-! PKE_STRMSEL: stream read-out (R379) (12_packet_engine.md). -/
def F.PKE_STRMSEL_STRM : Fld := ⟨234950272, 15, 0, []⟩
/-! PKE_CNT: engine counters (12_packet_engine.md). -/
def F.PKE_CNT_COUNT : Fld := ⟨234951680, 32, 0, []⟩
/-- Register table of PKE, part 0. -/
def regTable_PKE_0 : List Reg := [
  ⟨256, 1, 0, .win, [⟨31, F.PKE_P_CFG_EN, .rw, []⟩, ⟨28, F.PKE_P_CFG_MODE, .rw, [(5, 7)]⟩, ⟨26, F.PKE_P_CFG_FEC, .rw, [(3, 3)]⟩, ⟨25, F.PKE_P_CFG_AN, .rw, []⟩, ⟨24, F.PKE_P_CFG_MCAST, .rw, []⟩, ⟨20, F.PKE_P_CFG_RQ, .rw, []⟩, ⟨16, F.PKE_P_CFG_PTPQ, .rw, []⟩, ⟨0, F.PKE_P_CFG_MAXFRM, .rw, []⟩]⟩,
  ⟨260, 1, 0, .win, [⟨0, F.PKE_P_MAC_HI_MAC, .rw, []⟩]⟩,
  ⟨264, 1, 0, .win, [⟨0, F.PKE_P_MAC_LO_MAC, .rw, []⟩]⟩,
  ⟨268, 1, 0, .win, [⟨31, F.PKE_P_STAT_UP, .ro, []⟩, ⟨30, F.PKE_P_STAT_ANDONE, .ro, []⟩, ⟨29, F.PKE_P_STAT_CFGERR, .ro, []⟩, ⟨28, F.PKE_P_STAT_LINKCHG, .w1c, []⟩, ⟨26, F.PKE_P_STAT_FECACT, .ro, []⟩]⟩,
  ⟨272, 1, 0, .win, [⟨30, F.PKE_P_TCFG_TSTB, .rw, []⟩, ⟨28, F.PKE_P_TCFG_LTB, .rw, []⟩, ⟨0, F.PKE_P_TCFG_LATETOL, .rw, []⟩]⟩,
  ⟨288, 12, 4, .win, [⟨0, F.PKE_P_CNT_COUNT, .cnt, []⟩]⟩,
  ⟨2048, 1, 0, .arr, [⟨31, F.PKE_CTRL_RUN, .rw, []⟩]⟩,
  ⟨2052, 1, 0, .arr, [⟨8, F.PKE_CELLBASE_BASE, .rw, []⟩]⟩,
  ⟨2056, 1, 0, .arr, [⟨0, F.PKE_CELLCNT_CNT, .rw, []⟩]⟩,
  ⟨2080, 1, 0, .arr, [⟨16, F.PKE_CLS_KEY_LADDR, .rw, []⟩, ⟨0, F.PKE_CLS_KEY_UDPPORT, .rw, []⟩]⟩,
  ⟨2100, 1, 0, .arr, [⟨31, F.PKE_CLS_CMD_GO, .ac, []⟩, ⟨8, F.PKE_CLS_CMD_RESULT, .ro, []⟩, ⟨0, F.PKE_CLS_CMD_OP, .rw, []⟩]⟩,
  ⟨2112, 1, 0, .priv, [⟨0, F.PKE_KSSEL_STRM, .rw, []⟩]⟩,
  ⟨2116, 1, 0, .arr, [⟨31, F.PKE_KS_CMD_GO, .ac, []⟩, ⟨8, F.PKE_KS_CMD_RESULT, .ro, []⟩, ⟨3, F.PKE_KS_CMD_KEEP, .rw, []⟩, ⟨0, F.PKE_KS_CMD_OP, .rw, [(3, 7)]⟩]⟩,
  ⟨2128, 1, 0, .arr, [⟨6, F.PKE_CR_BASE_BASE, .rw, []⟩]⟩,
  ⟨2132, 1, 0, .arr, [⟨31, F.PKE_CR_CFG_IE, .rw, []⟩, ⟨0, F.PKE_CR_CFG_SIZE, .rw, []⟩]⟩,
  ⟨2136, 1, 0, .arr, [⟨0, F.PKE_CR_WP_WP, .ro, []⟩]⟩,
  ⟨2140, 1, 0, .arr, [⟨0, F.PKE_CR_RP_RP, .rw, []⟩]⟩,
  ⟨2144, 1, 0, .arr, [⟨0, F.PKE_CWETYPE_ETYPE, .rw, []⟩]⟩,
  ⟨2164, 1, 0, .priv, [⟨0, F.PKE_STRMSEL_STRM, .rw, []⟩]⟩,
  ⟨2208, 12, 4, .arr, [⟨0, F.PKE_CNT_COUNT, .cnt, []⟩]⟩]
/-! PKE_IRQSTAT: PKE interrupts (12_packet_engine.md). -/
def F.PKE_IRQSTAT_CELLERR : Fld := ⟨234953733, 1, 0, []⟩
def F.PKE_IRQSTAT_CNTOVF : Fld := ⟨234953732, 1, 0, []⟩
def F.PKE_IRQSTAT_ECC : Fld := ⟨234953731, 1, 0, []⟩
def F.PKE_IRQSTAT_LINK : Fld := ⟨234953730, 1, 0, []⟩
def F.PKE_IRQSTAT_CMPL : Fld := ⟨234953729, 1, 0, []⟩
def F.PKE_IRQSTAT_RXQ : Fld := ⟨234953728, 1, 0, []⟩
/-! PKE_IRQEN: PKE interrupts (12_packet_engine.md). -/
def F.PKE_IRQEN_CELLERR : Fld := ⟨234953861, 1, 0, []⟩
def F.PKE_IRQEN_CNTOVF : Fld := ⟨234953860, 1, 0, []⟩
def F.PKE_IRQEN_ECC : Fld := ⟨234953859, 1, 0, []⟩
def F.PKE_IRQEN_LINK : Fld := ⟨234953858, 1, 0, []⟩
def F.PKE_IRQEN_CMPL : Fld := ⟨234953857, 1, 0, []⟩
def F.PKE_IRQEN_RXQ : Fld := ⟨234953856, 1, 0, []⟩
/-! PKE_RQ_BASE: receive queue q (12_packet_engine.md). -/
def F.PKE_RQ_BASE_BASE : Fld := ⟨235012102, 26, 0, []⟩
/-! PKE_RQ_CFG: receive queue q (12_packet_engine.md). -/
def F.PKE_RQ_CFG_IE : Fld := ⟨235012255, 1, 0, []⟩
def F.PKE_RQ_CFG_SIZE : Fld := ⟨235012224, 4, 0, []⟩
/-! PKE_RQ_WP: receive queue q (12_packet_engine.md). -/
def F.PKE_RQ_WP_WP : Fld := ⟨235012352, 16, 0, []⟩
/-! PKE_RQ_RP: receive queue q (12_packet_engine.md). -/
def F.PKE_RQ_RP_RP : Fld := ⟨235012480, 16, 0, []⟩
/-! PKE_LA_CFG: local address i (12_packet_engine.md). -/
def F.PKE_LA_CFG_VALID : Fld := ⟨235020319, 1, 0, []⟩
def F.PKE_LA_CFG_V6 : Fld := ⟨235020318, 1, 0, []⟩
def F.PKE_LA_CFG_PORTMASK : Fld := ⟨235020304, 8, 0, []⟩
def F.PKE_LA_CFG_VID : Fld := ⟨235020288, 12, 0, []⟩
/-! PKE_CELLCFG: cell consumer c. The 16 local-address entries occupy 0x1100–0x12FF, so the cell registers begin at 0x1300 (12_packet_engine.md). -/
def F.PKE_CELLCFG_G : Fld := ⟨235036688, 16, 0, [(0, 512), (1, 512), (2, 512), (3, 512), (4, 512), (5, 512), (6, 512), (7, 512), (8, 64), (9, 64), (10, 64), (11, 64), (12, 64), (13, 64), (14, 64), (15, 64), (16, 64), (17, 64), (18, 64), (19, 64), (20, 64), (21, 64), (22, 64), (23, 64), (24, 256)]⟩
def F.PKE_CELLCFG_F : Fld := ⟨235036672, 5, 0, [(0, 8), (1, 8), (2, 8), (3, 8), (4, 8), (5, 8), (6, 8), (7, 8), (8, 4), (9, 4), (10, 4), (11, 4), (12, 4), (13, 4), (14, 4), (15, 4), (16, 4), (17, 4), (18, 4), (19, 4), (20, 4), (21, 4), (22, 4), (23, 4), (24, 8)]⟩
/-! PKE_SELECT: PORTSEL, one copy per initiator of R11 (12_packet_engine.md). -/
def F.PKE_SELECT_SELERR : Fld := ⟨234881552, 1, 0, []⟩
def F.PKE_SELECT_INDEX : Fld := ⟨234881536, 16, 0, []⟩
/-! PKE_CLS_E0: classifier entry word E0 (12_packet_engine.md). -/
def F.PKE_CLS_E0_VALID : Fld := ⟨234947743, 1, 0, []⟩
def F.PKE_CLS_E0_KIND : Fld := ⟨234947741, 2, 0, []⟩
def F.PKE_CLS_E0_SSRCM : Fld := ⟨234947739, 2, 0, []⟩
def F.PKE_CLS_E0_SRTP : Fld := ⟨234947738, 1, 0, []⟩
def F.PKE_CLS_E0_FLAGEN : Fld := ⟨234947737, 1, 0, []⟩
def F.PKE_CLS_E0_CLK : Fld := ⟨234947735, 2, 0, []⟩
def F.PKE_CLS_E0_RQ : Fld := ⟨234947731, 4, 0, []⟩
def F.PKE_CLS_E0_JBOFS : Fld := ⟨234947712, 19, 0, []⟩
/-! PKE_CLS_E1: classifier entry word E1 (12_packet_engine.md). -/
def F.PKE_CLS_E1_SSRC : Fld := ⟨234947840, 32, 0, []⟩
/-! PKE_CLS_E2: classifier entry word E2 (12_packet_engine.md). -/
def F.PKE_CLS_E2_FLAGS : Fld := ⟨234947984, 16, 0, []⟩
def F.PKE_CLS_E2_TID : Fld := ⟨234947968, 16, 0, []⟩
/-! PKE_CLS_E3: classifier entry word E3 (12_packet_engine.md). -/
def F.PKE_CLS_E3_LATCHED : Fld := ⟨234948127, 1, 0, []⟩
def F.PKE_CLS_E3_FWDDEV : Fld := ⟨234948112, 11, 0, []⟩
def F.PKE_CLS_E3_STRM : Fld := ⟨234948096, 15, 0, []⟩
/-! PKE_CLS_CNT: entries in use (12_packet_engine.md). -/
def F.PKE_CLS_CNT_CNT : Fld := ⟨234948352, 16, 0, []⟩
/-! PKE_LA_ADDR0: address word 0 of local address i (12_packet_engine.md). -/
def F.PKE_LA_ADDR0_ADDR : Fld := ⟨235020416, 32, 0, []⟩
/-! PKE_LA_ADDR1: address word 1 of local address i (12_packet_engine.md). -/
def F.PKE_LA_ADDR1_ADDR : Fld := ⟨235020544, 32, 0, []⟩
/-! PKE_LA_ADDR2: address word 2 of local address i (12_packet_engine.md). -/
def F.PKE_LA_ADDR2_ADDR : Fld := ⟨235020672, 32, 0, []⟩
/-! PKE_LA_ADDR3: address word 3 of local address i (12_packet_engine.md). -/
def F.PKE_LA_ADDR3_ADDR : Fld := ⟨235020800, 32, 0, []⟩
/-! PKE_CELLHELD: cells held by consumer c (12_packet_engine.md). -/
def F.PKE_CELLHELD_HELD : Fld := ⟨235040768, 18, 0, []⟩
/-! PKE_SNAP_CELLSTAT: copy of PKE_CELLSTAT (12_packet_engine.md). -/
def F.PKE_SNAP_CELLSTAT_VALUE : Fld := ⟨235003904, 32, 0, []⟩
/-- Register table of PKE, part 1. -/
def regTable_PKE_1 : List Reg := [
  ⟨2272, 1, 0, .arr, [⟨5, F.PKE_IRQSTAT_CELLERR, .w1c, []⟩, ⟨4, F.PKE_IRQSTAT_CNTOVF, .w1c, []⟩, ⟨3, F.PKE_IRQSTAT_ECC, .w1c, []⟩, ⟨2, F.PKE_IRQSTAT_LINK, .w1c, []⟩, ⟨1, F.PKE_IRQSTAT_CMPL, .w1c, []⟩, ⟨0, F.PKE_IRQSTAT_RXQ, .w1c, []⟩]⟩,
  ⟨2276, 1, 0, .arr, [⟨5, F.PKE_IRQEN_CELLERR, .rw, []⟩, ⟨4, F.PKE_IRQEN_CNTOVF, .rw, []⟩, ⟨3, F.PKE_IRQEN_ECC, .rw, []⟩, ⟨2, F.PKE_IRQEN_LINK, .rw, []⟩, ⟨1, F.PKE_IRQEN_CMPL, .rw, []⟩, ⟨0, F.PKE_IRQEN_RXQ, .rw, []⟩]⟩,
  ⟨4096, 16, 16, .arr, [⟨6, F.PKE_RQ_BASE_BASE, .rw, []⟩]⟩,
  ⟨4100, 16, 16, .arr, [⟨31, F.PKE_RQ_CFG_IE, .rw, []⟩, ⟨0, F.PKE_RQ_CFG_SIZE, .rw, []⟩]⟩,
  ⟨4104, 16, 16, .arr, [⟨0, F.PKE_RQ_WP_WP, .ro, []⟩]⟩,
  ⟨4108, 16, 16, .arr, [⟨0, F.PKE_RQ_RP_RP, .rw, []⟩]⟩,
  ⟨4352, 16, 32, .arr, [⟨31, F.PKE_LA_CFG_VALID, .rw, []⟩, ⟨30, F.PKE_LA_CFG_V6, .rw, []⟩, ⟨16, F.PKE_LA_CFG_PORTMASK, .rw, []⟩, ⟨0, F.PKE_LA_CFG_VID, .rw, []⟩]⟩,
  ⟨4864, 25, 4, .arr, [⟨16, F.PKE_CELLCFG_G, .rw, []⟩, ⟨0, F.PKE_CELLCFG_F, .rw, []⟩]⟩,
  ⟨16, 1, 0, .priv, [⟨16, F.PKE_SELECT_SELERR, .ro, []⟩, ⟨0, F.PKE_SELECT_INDEX, .rw, []⟩]⟩,
  ⟨2084, 1, 0, .arr, [⟨31, F.PKE_CLS_E0_VALID, .ro, []⟩, ⟨29, F.PKE_CLS_E0_KIND, .rw, []⟩, ⟨27, F.PKE_CLS_E0_SSRCM, .rw, [(3, 3)]⟩, ⟨26, F.PKE_CLS_E0_SRTP, .rw, []⟩, ⟨25, F.PKE_CLS_E0_FLAGEN, .rw, []⟩, ⟨23, F.PKE_CLS_E0_CLK, .rw, [(3, 3)]⟩, ⟨19, F.PKE_CLS_E0_RQ, .rw, []⟩, ⟨0, F.PKE_CLS_E0_JBOFS, .rw, []⟩]⟩,
  ⟨2088, 1, 0, .arr, [⟨0, F.PKE_CLS_E1_SSRC, .rw, []⟩]⟩,
  ⟨2092, 1, 0, .arr, [⟨16, F.PKE_CLS_E2_FLAGS, .rw, []⟩, ⟨0, F.PKE_CLS_E2_TID, .rw, []⟩]⟩,
  ⟨2096, 1, 0, .arr, [⟨31, F.PKE_CLS_E3_LATCHED, .ro, []⟩, ⟨16, F.PKE_CLS_E3_FWDDEV, .rw, []⟩, ⟨0, F.PKE_CLS_E3_STRM, .rw, []⟩]⟩,
  ⟨2104, 1, 0, .arr, [⟨0, F.PKE_CLS_CNT_CNT, .ro, []⟩]⟩,
  ⟨4356, 16, 32, .arr, [⟨0, F.PKE_LA_ADDR0_ADDR, .rw, []⟩]⟩,
  ⟨4360, 16, 32, .arr, [⟨0, F.PKE_LA_ADDR1_ADDR, .rw, []⟩]⟩,
  ⟨4364, 16, 32, .arr, [⟨0, F.PKE_LA_ADDR2_ADDR, .rw, []⟩]⟩,
  ⟨4368, 16, 32, .arr, [⟨0, F.PKE_LA_ADDR3_ADDR, .rw, []⟩]⟩,
  ⟨4992, 25, 4, .arr, [⟨0, F.PKE_CELLHELD_HELD, .ro, []⟩]⟩,
  ⟨3840, 1, 4, .arr, [⟨0, F.PKE_SNAP_CELLSTAT_VALUE, .ro, []⟩]⟩]
/-! PKE_SNAP_CLSCNT: copy of PKE_CLS_CNT (12_packet_engine.md). -/
def F.PKE_SNAP_CLSCNT_VALUE : Fld := ⟨235004032, 32, 0, []⟩
/-! PKE_SNAP_TXFRM: copy of TXFRM of ports 0-7 (12_packet_engine.md). -/
def F.PKE_SNAP_TXFRM_VALUE : Fld := ⟨235004160, 32, 0, []⟩
/-! PKE_SNAP_RXFRM: copy of RXFRM of ports 0-7 (12_packet_engine.md). -/
def F.PKE_SNAP_RXFRM_VALUE : Fld := ⟨235005184, 32, 0, []⟩
/-- Register table of PKE, part 2. -/
def regTable_PKE_2 : List Reg := [
  ⟨3844, 1, 4, .arr, [⟨0, F.PKE_SNAP_CLSCNT_VALUE, .ro, []⟩]⟩,
  ⟨3848, 8, 4, .arr, [⟨0, F.PKE_SNAP_TXFRM_VALUE, .ro, []⟩]⟩,
  ⟨3880, 8, 4, .arr, [⟨0, F.PKE_SNAP_RXFRM_VALUE, .ro, []⟩]⟩]
/-- Every register of block PKE. -/
def regTable_PKE : List Reg := regTable_PKE_0 ++ regTable_PKE_1 ++ regTable_PKE_2

/-! TMU_TB_NS: nanoseconds of the selected base (13_time.md). -/
def F.TMU_TB_NS_NS : Fld := ⟨201334784, 32, 0, []⟩
/-! TMU_TB_FRAC: fraction latched by this initiator (13_time.md). -/
def F.TMU_TB_FRAC_FRAC : Fld := ⟨201334912, 8, 0, []⟩
/-! TMU_TB_INCR_LO: increment (13_time.md). -/
def F.TMU_TB_INCR_LO_INCR : Fld := ⟨201335040, 32, 0, []⟩
/-! TMU_TB_INCR_HI: increment (13_time.md). -/
def F.TMU_TB_INCR_HI_INCR : Fld := ⟨201335168, 8, 2, []⟩
/-! TMU_TB_CFG: base configuration (13_time.md). -/
def F.TMU_TB_CFG_LOCK : Fld := ⟨201335327, 1, 0, []⟩
def F.TMU_TB_CFG_LOCKSRC : Fld := ⟨201335324, 2, 0, []⟩
/-! TMU_TB_STEP: step amount (13_time.md). -/
def F.TMU_TB_STEP_STEP : Fld := ⟨201335424, 32, 0, []⟩
/-! TMU_TB_CMD: base command (13_time.md). -/
def F.TMU_TB_CMD_STEP : Fld := ⟨201335552, 1, 0, []⟩
/-! TMU_TB_STAT: base status (13_time.md). -/
def F.TMU_TB_STAT_LOCKED : Fld := ⟨201335711, 1, 0, []⟩
def F.TMU_TB_STAT_HOLDOVER : Fld := ⟨201335710, 1, 0, []⟩
def F.TMU_TB_STAT_GUARD : Fld := ⟨201335709, 1, 0, []⟩
def F.TMU_TB_STAT_STEPERR : Fld := ⟨201335708, 1, 0, []⟩
def F.TMU_TB_STAT_INCRERR : Fld := ⟨201335707, 1, 0, []⟩
/-! TMU_TB_LASTSTEP: last step applied (13_time.md). -/
def F.TMU_TB_LASTSTEP_VALUE : Fld := ⟨201335808, 32, 0, []⟩
/-! TMU_TB_STEPAT: last step applied (13_time.md). -/
def F.TMU_TB_STEPAT_VALUE : Fld := ⟨201335936, 32, 0, []⟩
/-! TMU_WP_TARGET: target of the selected Waypoint (13_time.md). -/
def F.TMU_WP_TARGET_TARGET : Fld := ⟨201342976, 32, 0, []⟩
/-! TMU_WP_PERIOD: period (13_time.md). -/
def F.TMU_WP_PERIOD_PERIOD : Fld := ⟨201343104, 32, 0, []⟩
/-! TMU_WP_CTL: Waypoint control (13_time.md). -/
def F.TMU_WP_CTL_EN : Fld := ⟨201343263, 1, 0, []⟩
def F.TMU_WP_CTL_DROPLATE : Fld := ⟨201343262, 1, 0, []⟩
def F.TMU_WP_CTL_LA : Fld := ⟨201343261, 1, 0, []⟩
def F.TMU_WP_CTL_ACT : Fld := ⟨201343256, 4, 0, []⟩
def F.TMU_WP_CTL_TB : Fld := ⟨201343252, 2, 0, []⟩
/-! TMU_WP_ARG0: action arguments (13_time.md). -/
def F.TMU_WP_ARG0_ARG : Fld := ⟨201343360, 32, 0, []⟩
/-! TMU_WP_ARG1: action arguments (13_time.md). -/
def F.TMU_WP_ARG1_ARG : Fld := ⟨201343488, 32, 0, []⟩
/-! TMU_WP_STAT: Waypoint status (13_time.md). -/
def F.TMU_WP_STAT_LATE : Fld := ⟨201343647, 1, 0, []⟩
def F.TMU_WP_STAT_LADONE : Fld := ⟨201343646, 1, 0, []⟩
def F.TMU_WP_STAT_STATE : Fld := ⟨201343616, 2, 0, []⟩
/-! TMU_WP_LATENESS: firing records (13_time.md). -/
def F.TMU_WP_LATENESS_VALUE : Fld := ⟨201343744, 32, 0, []⟩
/-! TMU_WP_CAP: firing records (13_time.md). -/
def F.TMU_WP_CAP_VALUE : Fld := ⟨201343872, 32, 0, []⟩
/-! TMU_WP_CAP2: firing records (13_time.md). -/
def F.TMU_WP_CAP2_VALUE : Fld := ⟨201344000, 32, 0, []⟩
/-! TMU_LACFG: lookahead window (13_time.md). -/
def F.TMU_LACFG_LOOKAHEAD : Fld := ⟨201392128, 20, 50000, []⟩
/-- Register table of TMU, part 0. -/
def regTable_TMU_0 : List Reg := [
  ⟨256, 1, 0, .win, [⟨0, F.TMU_TB_NS_NS, .ro, []⟩]⟩,
  ⟨260, 1, 0, .win, [⟨0, F.TMU_TB_FRAC_FRAC, .ro, []⟩]⟩,
  ⟨264, 1, 0, .win, [⟨0, F.TMU_TB_INCR_LO_INCR, .rwh, []⟩]⟩,
  ⟨268, 1, 0, .win, [⟨0, F.TMU_TB_INCR_HI_INCR, .rwh, []⟩]⟩,
  ⟨272, 1, 0, .win, [⟨31, F.TMU_TB_CFG_LOCK, .rw, []⟩, ⟨28, F.TMU_TB_CFG_LOCKSRC, .rw, []⟩]⟩,
  ⟨276, 1, 0, .win, [⟨0, F.TMU_TB_STEP_STEP, .rw, []⟩]⟩,
  ⟨280, 1, 0, .win, [⟨0, F.TMU_TB_CMD_STEP, .ac, []⟩]⟩,
  ⟨284, 1, 0, .win, [⟨31, F.TMU_TB_STAT_LOCKED, .ro, []⟩, ⟨30, F.TMU_TB_STAT_HOLDOVER, .ro, []⟩, ⟨29, F.TMU_TB_STAT_GUARD, .ro, []⟩, ⟨28, F.TMU_TB_STAT_STEPERR, .w1c, []⟩, ⟨27, F.TMU_TB_STAT_INCRERR, .w1c, []⟩]⟩,
  ⟨288, 1, 0, .win, [⟨0, F.TMU_TB_LASTSTEP_VALUE, .ro, []⟩]⟩,
  ⟨292, 1, 0, .win, [⟨0, F.TMU_TB_STEPAT_VALUE, .ro, []⟩]⟩,
  ⟨512, 1, 0, .win2, [⟨0, F.TMU_WP_TARGET_TARGET, .rwh, []⟩]⟩,
  ⟨516, 1, 0, .win2, [⟨0, F.TMU_WP_PERIOD_PERIOD, .rw, []⟩]⟩,
  ⟨520, 1, 0, .win2, [⟨31, F.TMU_WP_CTL_EN, .rw, []⟩, ⟨30, F.TMU_WP_CTL_DROPLATE, .rw, []⟩, ⟨29, F.TMU_WP_CTL_LA, .rw, []⟩, ⟨24, F.TMU_WP_CTL_ACT, .rw, []⟩, ⟨20, F.TMU_WP_CTL_TB, .rw, []⟩]⟩,
  ⟨524, 1, 0, .win2, [⟨0, F.TMU_WP_ARG0_ARG, .rw, []⟩]⟩,
  ⟨528, 1, 0, .win2, [⟨0, F.TMU_WP_ARG1_ARG, .rw, []⟩]⟩,
  ⟨532, 1, 0, .win2, [⟨31, F.TMU_WP_STAT_LATE, .w1c, []⟩, ⟨30, F.TMU_WP_STAT_LADONE, .ro, []⟩, ⟨0, F.TMU_WP_STAT_STATE, .ro, []⟩]⟩,
  ⟨536, 1, 0, .win2, [⟨0, F.TMU_WP_LATENESS_VALUE, .ro, []⟩]⟩,
  ⟨540, 1, 0, .win2, [⟨0, F.TMU_WP_CAP_VALUE, .ro, []⟩]⟩,
  ⟨544, 1, 0, .win2, [⟨0, F.TMU_WP_CAP2_VALUE, .ro, []⟩]⟩,
  ⟨2048, 1, 0, .arr, [⟨0, F.TMU_LACFG_LOOKAHEAD, .rw, []⟩]⟩]
/-! TMU_CAPALL: capture all bases (13_time.md). -/
def F.TMU_CAPALL_CAP : Fld := ⟨201392256, 1, 0, []⟩
/-! TMU_LATECNT: Waypoint statistics (13_time.md). -/
def F.TMU_LATECNT_COUNT : Fld := ⟨201393152, 32, 0, []⟩
/-! TMU_LATEDROP: Waypoint statistics (13_time.md). -/
def F.TMU_LATEDROP_COUNT : Fld := ⟨201393280, 32, 0, []⟩
/-! TMU_IRQSTAT: TMU interrupts (13_time.md). -/
def F.TMU_IRQSTAT_CNTOVF : Fld := ⟨201399302, 1, 0, []⟩
def F.TMU_IRQSTAT_CAPTURE : Fld := ⟨201399301, 1, 0, []⟩
def F.TMU_IRQSTAT_ALIGN : Fld := ⟨201399300, 1, 0, []⟩
def F.TMU_IRQSTAT_TB1HOLD : Fld := ⟨201399299, 1, 0, []⟩
def F.TMU_IRQSTAT_PATHSTEP : Fld := ⟨201399298, 1, 0, []⟩
def F.TMU_IRQSTAT_LATEDROP : Fld := ⟨201399297, 1, 0, []⟩
def F.TMU_IRQSTAT_LATE : Fld := ⟨201399296, 1, 0, []⟩
/-! TMU_IRQEN: TMU interrupts (13_time.md). -/
def F.TMU_IRQEN_CNTOVF : Fld := ⟨201399430, 1, 0, []⟩
def F.TMU_IRQEN_CAPTURE : Fld := ⟨201399429, 1, 0, []⟩
def F.TMU_IRQEN_ALIGN : Fld := ⟨201399428, 1, 0, []⟩
def F.TMU_IRQEN_TB1HOLD : Fld := ⟨201399427, 1, 0, []⟩
def F.TMU_IRQEN_PATHSTEP : Fld := ⟨201399426, 1, 0, []⟩
def F.TMU_IRQEN_LATEDROP : Fld := ⟨201399425, 1, 0, []⟩
def F.TMU_IRQEN_LATE : Fld := ⟨201399424, 1, 0, []⟩
/-! TMU_PS_CFG: PATHSTEP configuration of ETHp (13_time.md). -/
def F.TMU_PS_CFG_EN : Fld := ⟨201400351, 1, 0, []⟩
def F.TMU_PS_CFG_TB : Fld := ⟨201400348, 2, 0, []⟩
/-! TMU_PS_THR: thresholds (13_time.md). -/
def F.TMU_PS_THR_MPDTHR : Fld := ⟨201400464, 16, 100, []⟩
def F.TMU_PS_THR_OFSTHR : Fld := ⟨201400448, 16, 100, []⟩
/-! TMU_PS_OFS: measurement pair (13_time.md). -/
def F.TMU_PS_OFS_VALUE : Fld := ⟨201400576, 32, 0, []⟩
/-! TMU_PS_MPD: measurement pair (13_time.md). -/
def F.TMU_PS_MPD_VALUE : Fld := ⟨201400704, 32, 0, []⟩
/-! TMU_PS_STAT: detector status (13_time.md). -/
def F.TMU_PS_STAT_FIRED : Fld := ⟨201400863, 1, 0, []⟩
def F.TMU_PS_STAT_REFVALID : Fld := ⟨201400862, 1, 0, []⟩
/-! TMU_LAT_RX: latency of link i, where i = 0–7 is ETH0–ETH7 and i = 8–13 is CW0–CW5 (13_time.md). -/
def F.TMU_LAT_RX_OVR : Fld := ⟨201408543, 1, 0, []⟩
def F.TMU_LAT_RX_LOADED : Fld := ⟨201408542, 1, 0, []⟩
def F.TMU_LAT_RX_LAT : Fld := ⟨201408512, 16, 0, []⟩
/-! TMU_LAT_TX: latency of link i, where i = 0–7 is ETH0–ETH7 and i = 8–13 is CW0–CW5 (13_time.md). -/
def F.TMU_LAT_TX_LAT : Fld := ⟨201408640, 16, 0, []⟩
/-! TMU_IO_CFG: TMU_IO_CFGk, offset 0xB00 + 4 × k, where k = 0 is PPSIN, 1 is PPSOUT and 2–5 are TBIO0–TBIO3 (13_time.md). -/
def F.TMU_IO_CFG_EN : Fld := ⟨201416735, 1, 0, []⟩
def F.TMU_IO_CFG_OUT : Fld := ⟨201416734, 1, 0, []⟩
def F.TMU_IO_CFG_POL : Fld := ⟨201416733, 1, 0, []⟩
def F.TMU_IO_CFG_TB : Fld := ⟨201416730, 2, 0, []⟩
/-! TMU_IO_CAP: capture of pin k (13_time.md). -/
def F.TMU_IO_CAP_NS : Fld := ⟨201417728, 32, 0, []⟩
/-! TMU_IO_CAPST: capture of pin k (13_time.md). -/
def F.TMU_IO_CAPST_VALID : Fld := ⟨201417887, 1, 0, []⟩
def F.TMU_IO_CAPST_OVF : Fld := ⟨201417886, 1, 0, []⟩
def F.TMU_IO_CAPST_FRAC : Fld := ⟨201417856, 8, 0, []⟩
/-! TMU_SELECT: TBSEL, one copy per initiator of R11 (13_time.md). -/
def F.TMU_SELECT_SELERR : Fld := ⟨201327120, 1, 0, []⟩
def F.TMU_SELECT_INDEX : Fld := ⟨201327104, 16, 0, []⟩
/-! TMU_WPSEL: WPSEL, one copy per initiator of R11 (13_time.md). -/
def F.TMU_WPSEL_SELERR : Fld := ⟨201327248, 1, 0, []⟩
def F.TMU_WPSEL_INDEX : Fld := ⟨201327232, 16, 0, []⟩
/-! TMU_SNAP_NS: copy of NS of TB0-TB3 (13_time.md). -/
def F.TMU_SNAP_NS_VALUE : Fld := ⟨201449472, 32, 0, []⟩
/-! TMU_SNAP_LATECNT: copy of TMU_LATECNT (13_time.md). -/
def F.TMU_SNAP_LATECNT_VALUE : Fld := ⟨201449984, 32, 0, []⟩
/-! TMU_CAP: NS of TBn at the last CAPALL (13_time.md). -/
def F.TMU_CAP_NS : Fld := ⟨201392640, 32, 0, []⟩
/-- Register table of TMU, part 1. -/
def regTable_TMU_1 : List Reg := [
  ⟨2052, 1, 0, .arr, [⟨0, F.TMU_CAPALL_CAP, .ac, []⟩]⟩,
  ⟨2080, 1, 0, .arr, [⟨0, F.TMU_LATECNT_COUNT, .cnt, []⟩]⟩,
  ⟨2084, 1, 0, .arr, [⟨0, F.TMU_LATEDROP_COUNT, .cnt, []⟩]⟩,
  ⟨2272, 1, 0, .arr, [⟨6, F.TMU_IRQSTAT_CNTOVF, .w1c, []⟩, ⟨5, F.TMU_IRQSTAT_CAPTURE, .w1c, []⟩, ⟨4, F.TMU_IRQSTAT_ALIGN, .w1c, []⟩, ⟨3, F.TMU_IRQSTAT_TB1HOLD, .w1c, []⟩, ⟨2, F.TMU_IRQSTAT_PATHSTEP, .w1c, []⟩, ⟨1, F.TMU_IRQSTAT_LATEDROP, .w1c, []⟩, ⟨0, F.TMU_IRQSTAT_LATE, .w1c, []⟩]⟩,
  ⟨2276, 1, 0, .arr, [⟨6, F.TMU_IRQEN_CNTOVF, .rw, []⟩, ⟨5, F.TMU_IRQEN_CAPTURE, .rw, []⟩, ⟨4, F.TMU_IRQEN_ALIGN, .rw, []⟩, ⟨3, F.TMU_IRQEN_TB1HOLD, .rw, []⟩, ⟨2, F.TMU_IRQEN_PATHSTEP, .rw, []⟩, ⟨1, F.TMU_IRQEN_LATEDROP, .rw, []⟩, ⟨0, F.TMU_IRQEN_LATE, .rw, []⟩]⟩,
  ⟨2304, 8, 32, .arr, [⟨31, F.TMU_PS_CFG_EN, .rw, []⟩, ⟨28, F.TMU_PS_CFG_TB, .rw, [(1, 2)]⟩]⟩,
  ⟨2308, 8, 32, .arr, [⟨16, F.TMU_PS_THR_MPDTHR, .rw, []⟩, ⟨0, F.TMU_PS_THR_OFSTHR, .rw, []⟩]⟩,
  ⟨2312, 8, 32, .arr, [⟨0, F.TMU_PS_OFS_VALUE, .rw, []⟩]⟩,
  ⟨2316, 8, 32, .arr, [⟨0, F.TMU_PS_MPD_VALUE, .rw, []⟩]⟩,
  ⟨2320, 8, 32, .arr, [⟨31, F.TMU_PS_STAT_FIRED, .w1c, []⟩, ⟨30, F.TMU_PS_STAT_REFVALID, .ro, []⟩]⟩,
  ⟨2560, 14, 8, .arr, [⟨31, F.TMU_LAT_RX_OVR, .rw, []⟩, ⟨30, F.TMU_LAT_RX_LOADED, .ro, []⟩, ⟨0, F.TMU_LAT_RX_LAT, .rwh, []⟩]⟩,
  ⟨2564, 14, 8, .arr, [⟨0, F.TMU_LAT_TX_LAT, .rwh, []⟩]⟩,
  ⟨2816, 6, 4, .arr, [⟨31, F.TMU_IO_CFG_EN, .rw, []⟩, ⟨30, F.TMU_IO_CFG_OUT, .rw, []⟩, ⟨29, F.TMU_IO_CFG_POL, .rw, []⟩, ⟨26, F.TMU_IO_CFG_TB, .rw, []⟩]⟩,
  ⟨2848, 6, 8, .arr, [⟨0, F.TMU_IO_CAP_NS, .ro, []⟩]⟩,
  ⟨2852, 6, 8, .arr, [⟨31, F.TMU_IO_CAPST_VALID, .w1c, []⟩, ⟨30, F.TMU_IO_CAPST_OVF, .w1c, []⟩, ⟨0, F.TMU_IO_CAPST_FRAC, .ro, []⟩]⟩,
  ⟨16, 1, 0, .priv, [⟨16, F.TMU_SELECT_SELERR, .ro, []⟩, ⟨0, F.TMU_SELECT_INDEX, .rw, []⟩]⟩,
  ⟨20, 1, 0, .priv, [⟨16, F.TMU_WPSEL_SELERR, .ro, []⟩, ⟨0, F.TMU_WPSEL_INDEX, .rw, []⟩]⟩,
  ⟨3840, 4, 4, .arr, [⟨0, F.TMU_SNAP_NS_VALUE, .ro, []⟩]⟩,
  ⟨3856, 1, 4, .arr, [⟨0, F.TMU_SNAP_LATECNT_VALUE, .ro, []⟩]⟩,
  ⟨2064, 4, 4, .arr, [⟨0, F.TMU_CAP_NS, .ro, []⟩]⟩]
/-! TMU_PS_DOFS: signed ns difference of the offset at the last firing (13_time.md). -/
def F.TMU_PS_DOFS_VALUE : Fld := ⟨201400960, 32, 0, []⟩
/-! TMU_PS_DMPD: signed ns difference of the mean path delay at the last firing (13_time.md). -/
def F.TMU_PS_DMPD_VALUE : Fld := ⟨201401088, 32, 0, []⟩
/-- Register table of TMU, part 2. -/
def regTable_TMU_2 : List Reg := [
  ⟨2324, 8, 32, .arr, [⟨0, F.TMU_PS_DOFS_VALUE, .ro, []⟩]⟩,
  ⟨2328, 8, 32, .arr, [⟨0, F.TMU_PS_DMPD_VALUE, .ro, []⟩]⟩]
/-- Every register of block TMU. -/
def regTable_TMU : List Reg := regTable_TMU_0 ++ regTable_TMU_1 ++ regTable_TMU_2

/-! TDX_MAP: timeslot s of HWh (14_tdm_highways.md). -/
def F.TDX_MAP_EN : Fld := ⟨270532639, 1, 0, []⟩
def F.TDX_MAP_DIR : Fld := ⟨270532638, 1, 0, []⟩
def F.TDX_MAP_USE : Fld := ⟨270532636, 2, 0, []⟩
def F.TDX_MAP_LAW : Fld := ⟨270532634, 2, 0, []⟩
def F.TDX_MAP_WB : Fld := ⟨270532633, 1, 0, []⟩
def F.TDX_MAP_SWAP : Fld := ⟨270532632, 1, 0, []⟩
def F.TDX_MAP_TARGET : Fld := ⟨270532608, 15, 0, []⟩
/-! TDX_H_CFG: selected highway (14_tdm_highways.md). -/
def F.TDX_H_CFG_EN : Fld := ⟨268443679, 1, 0, []⟩
def F.TDX_H_CFG_RATE : Fld := ⟨268443677, 2, 0, []⟩
def F.TDX_H_CFG_CGRP : Fld := ⟨268443674, 2, 0, []⟩
def F.TDX_H_CFG_BITOFS : Fld := ⟨268443648, 11, 0, []⟩
/-! TDX_H_STAT: selected highway status (14_tdm_highways.md). -/
def F.TDX_H_STAT_CFGERR : Fld := ⟨268443807, 1, 0, []⟩
def F.TDX_H_STAT_NRX : Fld := ⟨268443792, 9, 0, []⟩
def F.TDX_H_STAT_NTX : Fld := ⟨268443776, 9, 0, []⟩
/-! TDX_CTRL: control (14_tdm_highways.md). -/
def F.TDX_CTRL_RUN : Fld := ⟨268501023, 1, 0, []⟩
def F.TDX_CTRL_H110 : Fld := ⟨268501022, 1, 0, []⟩
def F.TDX_CTRL_H110ROLE : Fld := ⟨268501020, 2, 0, []⟩
def F.TDX_CTRL_CLKSEL : Fld := ⟨268501019, 1, 0, []⟩
def F.TDX_CTRL_REFGRP : Fld := ⟨268501016, 2, 0, []⟩
/-! TDX_STAT: H.110 clock status (14_tdm_highways.md). -/
def F.TDX_STAT_AOK : Fld := ⟨268501151, 1, 0, []⟩
def F.TDX_STAT_BOK : Fld := ⟨268501150, 1, 0, []⟩
/-! TDX_CG_CFG: clock group g (14_tdm_highways.md). -/
def F.TDX_CG_CFG_EN : Fld := ⟨268501535, 1, 0, []⟩
def F.TDX_CG_CFG_MASTER : Fld := ⟨268501534, 1, 0, []⟩
def F.TDX_CG_CFG_FREQ : Fld := ⟨268501532, 2, 0, []⟩
def F.TDX_CG_CFG_CKPOL : Fld := ⟨268501531, 1, 0, []⟩
def F.TDX_CG_CFG_FSPOL : Fld := ⟨268501530, 1, 0, []⟩
/-! TDX_CG_STAT: group status (14_tdm_highways.md). -/
def F.TDX_CG_STAT_LOSS : Fld := ⟨268502047, 1, 0, []⟩
def F.TDX_CG_STAT_LOSSCHG : Fld := ⟨268502046, 1, 0, []⟩
/-! TDX_SWAPCMD: handover (14_tdm_highways.md). -/
def F.TDX_SWAPCMD_LATE : Fld := ⟨268503199, 1, 0, []⟩
def F.TDX_SWAPCMD_DONE : Fld := ⟨268503198, 1, 0, []⟩
def F.TDX_SWAPCMD_ARM : Fld := ⟨268503168, 1, 0, []⟩
/-! TDX_CNT: statistics (14_tdm_highways.md). -/
def F.TDX_CNT_COUNT : Fld := ⟨268503552, 32, 0, []⟩
/-! TDX_UNDREC: last underrun (14_tdm_highways.md). -/
def F.TDX_UNDREC_VALID : Fld := ⟨268504607, 1, 0, []⟩
def F.TDX_UNDREC_RING : Fld := ⟨268504576, 13, 0, []⟩
/-! TDX_IRQSTAT: TDX interrupts (14_tdm_highways.md). -/
def F.TDX_IRQSTAT_CNTOVF : Fld := ⟨268508166, 1, 0, []⟩
def F.TDX_IRQSTAT_SWAPDONE : Fld := ⟨268508165, 1, 0, []⟩
def F.TDX_IRQSTAT_MAPERR : Fld := ⟨268508164, 1, 0, []⟩
def F.TDX_IRQSTAT_FAILOVER : Fld := ⟨268508163, 1, 0, []⟩
def F.TDX_IRQSTAT_CLKLOSS : Fld := ⟨268508162, 1, 0, []⟩
def F.TDX_IRQSTAT_SLIP : Fld := ⟨268508161, 1, 0, []⟩
def F.TDX_IRQSTAT_UNDERRUN : Fld := ⟨268508160, 1, 0, []⟩
/-! TDX_IRQEN: TDX interrupts (14_tdm_highways.md). -/
def F.TDX_IRQEN_CNTOVF : Fld := ⟨268508294, 1, 0, []⟩
def F.TDX_IRQEN_SWAPDONE : Fld := ⟨268508293, 1, 0, []⟩
def F.TDX_IRQEN_MAPERR : Fld := ⟨268508292, 1, 0, []⟩
def F.TDX_IRQEN_FAILOVER : Fld := ⟨268508291, 1, 0, []⟩
def F.TDX_IRQEN_CLKLOSS : Fld := ⟨268508290, 1, 0, []⟩
def F.TDX_IRQEN_SLIP : Fld := ⟨268508289, 1, 0, []⟩
def F.TDX_IRQEN_UNDERRUN : Fld := ⟨268508288, 1, 0, []⟩
/-! TDX_SELECT: STRSEL, one copy per initiator of R11 (14_tdm_highways.md). -/
def F.TDX_SELECT_SELERR : Fld := ⟨268435984, 1, 0, []⟩
def F.TDX_SELECT_INDEX : Fld := ⟨268435968, 16, 0, []⟩
/-! TDX_SNAP_BLKCNT: copy of TDX_BLKCNT (14_tdm_highways.md). -/
def F.TDX_SNAP_BLKCNT_VALUE : Fld := ⟨268558336, 32, 0, []⟩
/-! TDX_SNAP_FRAME: copy of TDX_FRAME (14_tdm_highways.md). -/
def F.TDX_SNAP_FRAME_VALUE : Fld := ⟨268558464, 32, 0, []⟩
/-! TDX_SNAP_CTRL: copy of TDX_CTRL (14_tdm_highways.md). -/
def F.TDX_SNAP_CTRL_VALUE : Fld := ⟨268558592, 32, 0, []⟩
/-! TDX_SNAP_USECNT: copy of TDX_USECNT (14_tdm_highways.md). -/
def F.TDX_SNAP_USECNT_VALUE : Fld := ⟨268558720, 32, 0, []⟩
/-! TDX_BLKCNT: block in progress (14_tdm_highways.md). -/
def F.TDX_BLKCNT_BLOCK : Fld := ⟨268502528, 32, 0, []⟩
/-! TDX_FRAME: frame within the multiframe (14_tdm_highways.md). -/
def F.TDX_FRAME_FRAME : Fld := ⟨268502656, 4, 0, []⟩
/-! TDX_USECNT: use counts (14_tdm_highways.md). -/
def F.TDX_USECNT_XC : Fld := ⟨268502800, 16, 0, []⟩
def F.TDX_USECNT_CHAN : Fld := ⟨268502784, 16, 0, []⟩
/-- Register table of TDX, part 0. -/
def regTable_TDX_0 : List Reg := [
  ⟨65536, 32768, 4, .arr, [⟨31, F.TDX_MAP_EN, .rwh, []⟩, ⟨30, F.TDX_MAP_DIR, .rw, []⟩, ⟨28, F.TDX_MAP_USE, .rw, [(3, 3)]⟩, ⟨26, F.TDX_MAP_LAW, .rw, [(3, 3)]⟩, ⟨25, F.TDX_MAP_WB, .rw, []⟩, ⟨24, F.TDX_MAP_SWAP, .rwh, []⟩, ⟨0, F.TDX_MAP_TARGET, .rw, []⟩]⟩,
  ⟨256, 1, 0, .win, [⟨31, F.TDX_H_CFG_EN, .rw, []⟩, ⟨29, F.TDX_H_CFG_RATE, .rw, []⟩, ⟨26, F.TDX_H_CFG_CGRP, .rw, []⟩, ⟨0, F.TDX_H_CFG_BITOFS, .rw, []⟩]⟩,
  ⟨260, 1, 0, .win, [⟨31, F.TDX_H_STAT_CFGERR, .ro, []⟩, ⟨16, F.TDX_H_STAT_NRX, .ro, []⟩, ⟨0, F.TDX_H_STAT_NTX, .ro, []⟩]⟩,
  ⟨2048, 1, 0, .arr, [⟨31, F.TDX_CTRL_RUN, .rw, []⟩, ⟨30, F.TDX_CTRL_H110, .rw, []⟩, ⟨28, F.TDX_CTRL_H110ROLE, .rw, []⟩, ⟨27, F.TDX_CTRL_CLKSEL, .rwh, []⟩, ⟨24, F.TDX_CTRL_REFGRP, .rw, []⟩]⟩,
  ⟨2052, 1, 0, .arr, [⟨31, F.TDX_STAT_AOK, .ro, []⟩, ⟨30, F.TDX_STAT_BOK, .ro, []⟩]⟩,
  ⟨2064, 4, 4, .arr, [⟨31, F.TDX_CG_CFG_EN, .rw, []⟩, ⟨30, F.TDX_CG_CFG_MASTER, .rw, []⟩, ⟨28, F.TDX_CG_CFG_FREQ, .rw, []⟩, ⟨27, F.TDX_CG_CFG_CKPOL, .rw, []⟩, ⟨26, F.TDX_CG_CFG_FSPOL, .rw, []⟩]⟩,
  ⟨2080, 4, 4, .arr, [⟨31, F.TDX_CG_STAT_LOSS, .ro, []⟩, ⟨30, F.TDX_CG_STAT_LOSSCHG, .w1c, []⟩]⟩,
  ⟨2116, 1, 0, .arr, [⟨31, F.TDX_SWAPCMD_LATE, .w1c, []⟩, ⟨30, F.TDX_SWAPCMD_DONE, .w1c, []⟩, ⟨0, F.TDX_SWAPCMD_ARM, .ac, []⟩]⟩,
  ⟨2128, 6, 4, .arr, [⟨0, F.TDX_CNT_COUNT, .cnt, []⟩]⟩,
  ⟨2160, 1, 0, .arr, [⟨31, F.TDX_UNDREC_VALID, .w1c, []⟩, ⟨0, F.TDX_UNDREC_RING, .ro, []⟩]⟩,
  ⟨2272, 1, 0, .arr, [⟨6, F.TDX_IRQSTAT_CNTOVF, .w1c, []⟩, ⟨5, F.TDX_IRQSTAT_SWAPDONE, .w1c, []⟩, ⟨4, F.TDX_IRQSTAT_MAPERR, .w1c, []⟩, ⟨3, F.TDX_IRQSTAT_FAILOVER, .w1c, []⟩, ⟨2, F.TDX_IRQSTAT_CLKLOSS, .w1c, []⟩, ⟨1, F.TDX_IRQSTAT_SLIP, .w1c, []⟩, ⟨0, F.TDX_IRQSTAT_UNDERRUN, .w1c, []⟩]⟩,
  ⟨2276, 1, 0, .arr, [⟨6, F.TDX_IRQEN_CNTOVF, .rw, []⟩, ⟨5, F.TDX_IRQEN_SWAPDONE, .rw, []⟩, ⟨4, F.TDX_IRQEN_MAPERR, .rw, []⟩, ⟨3, F.TDX_IRQEN_FAILOVER, .rw, []⟩, ⟨2, F.TDX_IRQEN_CLKLOSS, .rw, []⟩, ⟨1, F.TDX_IRQEN_SLIP, .rw, []⟩, ⟨0, F.TDX_IRQEN_UNDERRUN, .rw, []⟩]⟩,
  ⟨16, 1, 0, .priv, [⟨16, F.TDX_SELECT_SELERR, .ro, []⟩, ⟨0, F.TDX_SELECT_INDEX, .rw, []⟩]⟩,
  ⟨3840, 1, 4, .arr, [⟨0, F.TDX_SNAP_BLKCNT_VALUE, .ro, []⟩]⟩,
  ⟨3844, 1, 4, .arr, [⟨0, F.TDX_SNAP_FRAME_VALUE, .ro, []⟩]⟩,
  ⟨3848, 1, 4, .arr, [⟨0, F.TDX_SNAP_CTRL_VALUE, .ro, []⟩]⟩,
  ⟨3852, 1, 4, .arr, [⟨0, F.TDX_SNAP_USECNT_VALUE, .ro, []⟩]⟩,
  ⟨2096, 1, 0, .arr, [⟨0, F.TDX_BLKCNT_BLOCK, .ro, []⟩]⟩,
  ⟨2100, 1, 0, .arr, [⟨0, F.TDX_FRAME_FRAME, .ro, []⟩]⟩,
  ⟨2104, 1, 0, .arr, [⟨16, F.TDX_USECNT_XC, .ro, []⟩, ⟨0, F.TDX_USECNT_CHAN, .ro, []⟩]⟩]
/-! TDX_SWAPT: handover time (14_tdm_highways.md). -/
def F.TDX_SWAPT_T : Fld := ⟨268503040, 32, 0, []⟩
/-- Register table of TDX, part 1. -/
def regTable_TDX_1 : List Reg := [
  ⟨2112, 1, 0, .arr, [⟨0, F.TDX_SWAPT_T, .rw, []⟩]⟩]
/-- Every register of block TDX. -/
def regTable_TDX : List Reg := regTable_TDX_0 ++ regTable_TDX_1

/-! CWY_L_CFG: link configuration (15_causeway_system.md). -/
def F.CWY_L_CFG_EN : Fld := ⟨301998111, 1, 0, []⟩
def F.CWY_L_CFG_TUNNEL : Fld := ⟨301998110, 1, 0, [(6, 1), (7, 1), (8, 1), (9, 1), (10, 1), (11, 1), (12, 1), (13, 1)]⟩
def F.CWY_L_CFG_TTB : Fld := ⟨301998108, 2, 0, []⟩
def F.CWY_L_CFG_PORT : Fld := ⟨301998104, 3, 0, []⟩
def F.CWY_L_CFG_TPRIO : Fld := ⟨301998100, 3, 7, []⟩
def F.CWY_L_CFG_VID : Fld := ⟨301998080, 12, 0, []⟩
/-! CWY_L_TCFG: timers (15_causeway_system.md). -/
def F.CWY_L_TCFG_TINT : Fld := ⟨301998224, 16, 1000, []⟩
def F.CWY_L_TCFG_LDTO : Fld := ⟨301998208, 16, 100, []⟩
/-! CWY_L_STAT: link status (15_causeway_system.md). -/
def F.CWY_L_STAT_UP : Fld := ⟨301998623, 1, 0, []⟩
def F.CWY_L_STAT_LINKCHG : Fld := ⟨301998622, 1, 0, []⟩
def F.CWY_L_STAT_DNV : Fld := ⟨301998621, 1, 0, []⟩
def F.CWY_L_STAT_EPOK : Fld := ⟨301998620, 1, 0, []⟩
def F.CWY_L_STAT_STATE : Fld := ⟨301998618, 2, 0, []⟩
def F.CWY_L_STAT_PEERDEV : Fld := ⟨301998592, 11, 0, []⟩
/-! CWY_L_WT0: class weights (R448) (15_causeway_system.md). -/
def F.CWY_L_WT0_WT : Fld := ⟨301998848, 32, 537921540, []⟩
/-! CWY_L_WT1: class weights (R448) (15_causeway_system.md). -/
def F.CWY_L_WT1_WT : Fld := ⟨301998976, 8, 4, []⟩
/-! CWY_L_TT: time-transfer set (R458) (15_causeway_system.md). -/
def F.CWY_L_TT_VALUE : Fld := ⟨301999104, 32, 0, []⟩
/-! CWY_L_TTFRAC: time-transfer set (R458) (15_causeway_system.md). -/
def F.CWY_L_TTFRAC_VALUE : Fld := ⟨301999616, 32, 0, []⟩
/-! CWY_L_TTSEQ: time-transfer set (R458) (15_causeway_system.md). -/
def F.CWY_L_TTSEQ_VALUE : Fld := ⟨301999744, 32, 0, []⟩
/-! CWY_L_CNT: link counters (15_causeway_system.md). -/
def F.CWY_L_CNT_COUNT : Fld := ⟨302000128, 32, 0, []⟩
/-! CWY_REVT_DEV: remote event (R449) (15_causeway_system.md). -/
def F.CWY_REVT_DEV_DEV : Fld := ⟨302055936, 11, 0, []⟩
/-! CWY_REVT_SEND: remote event (R449) (15_causeway_system.md). -/
def F.CWY_REVT_SEND_VALUE : Fld := ⟨302056064, 32, 0, []⟩
/-! CWY_MBS_CMD: send a message (R450, R468) (15_causeway_system.md). -/
def F.CWY_MBS_CMD_GO : Fld := ⟨302056735, 1, 0, []⟩
def F.CWY_MBS_CMD_BOOT : Fld := ⟨302056734, 1, 0, []⟩
def F.CWY_MBS_CMD_RESULT : Fld := ⟨302056732, 2, 0, []⟩
def F.CWY_MBS_CMD_LEN : Fld := ⟨302056715, 13, 0, []⟩
def F.CWY_MBS_CMD_DEV : Fld := ⟨302056704, 11, 0, []⟩
/-! CWY_RA_CMD: remote access (15_causeway_system.md). -/
def F.CWY_RA_CMD_GO : Fld := ⟨302057887, 1, 0, []⟩
def F.CWY_RA_CMD_WR : Fld := ⟨302057886, 1, 0, []⟩
def F.CWY_RA_CMD_RESULT : Fld := ⟨302057883, 3, 0, []⟩
def F.CWY_RA_CMD_DEV : Fld := ⟨302057856, 11, 0, []⟩
/-! CWY_CNT: device counters (15_causeway_system.md). -/
def F.CWY_CNT_COUNT : Fld := ⟨302058496, 32, 0, []⟩
/-! CWY_IRQSTAT: CWY interrupts (15_causeway_system.md). -/
def F.CWY_IRQSTAT_CNTOVF : Fld := ⟨302062596, 1, 0, []⟩
def F.CWY_IRQSTAT_EPOCH : Fld := ⟨302062595, 1, 0, []⟩
def F.CWY_IRQSTAT_MIG : Fld := ⟨302062594, 1, 0, []⟩
def F.CWY_IRQSTAT_MBRX : Fld := ⟨302062593, 1, 0, []⟩
def F.CWY_IRQSTAT_LINK : Fld := ⟨302062592, 1, 0, []⟩
/-! CWY_IRQEN: CWY interrupts (15_causeway_system.md). -/
def F.CWY_IRQEN_CNTOVF : Fld := ⟨302062724, 1, 0, []⟩
def F.CWY_IRQEN_EPOCH : Fld := ⟨302062723, 1, 0, []⟩
def F.CWY_IRQEN_MIG : Fld := ⟨302062722, 1, 0, []⟩
def F.CWY_IRQEN_MBRX : Fld := ⟨302062721, 1, 0, []⟩
def F.CWY_IRQEN_LINK : Fld := ⟨302062720, 1, 0, []⟩
/-! CWY_ROUTE: route to device d (R446) (15_causeway_system.md). -/
def F.CWY_ROUTE_VALID : Fld := ⟨302120991, 1, 0, []⟩
def F.CWY_ROUTE_LINK : Fld := ⟨302120960, 4, 0, []⟩
/-! CWY_BR_CFG: CWY_BR_CFGb at 0x4000 + 8 × b, and CWY_BR_PEERb at 0x4004 + 8 × b (15_causeway_system.md). -/
def F.CWY_BR_CFG_EN : Fld := ⟨302514207, 1, 0, []⟩
def F.CWY_BR_CFG_KIND : Fld := ⟨302514204, 2, 0, []⟩
def F.CWY_BR_CFG_WB : Fld := ⟨302514203, 1, 0, []⟩
def F.CWY_BR_CFG_RING : Fld := ⟨302514176, 13, 0, []⟩
/-! CWY_BR_PEER: CWY_BR_CFGb at 0x4000 + 8 × b, and CWY_BR_PEERb at 0x4004 + 8 × b (15_causeway_system.md). -/
def F.CWY_BR_PEER_PEERDEV : Fld := ⟨302514320, 11, 0, []⟩
def F.CWY_BR_PEER_PEERBR : Fld := ⟨302514304, 10, 0, []⟩
/-! CWY_SELECT: LNKSEL, one copy per initiator of R11 (15_causeway_system.md). -/
def F.CWY_SELECT_SELERR : Fld := ⟨301990416, 1, 0, []⟩
def F.CWY_SELECT_INDEX : Fld := ⟨301990400, 16, 0, []⟩
/-- Register table of CWY, part 0. -/
def regTable_CWY_0 : List Reg := [
  ⟨256, 1, 0, .win, [⟨31, F.CWY_L_CFG_EN, .rw, []⟩, ⟨30, F.CWY_L_CFG_TUNNEL, .ro, []⟩, ⟨28, F.CWY_L_CFG_TTB, .rw, [(1, 2)]⟩, ⟨24, F.CWY_L_CFG_PORT, .rw, []⟩, ⟨20, F.CWY_L_CFG_TPRIO, .rw, []⟩, ⟨0, F.CWY_L_CFG_VID, .rw, []⟩]⟩,
  ⟨260, 1, 0, .win, [⟨16, F.CWY_L_TCFG_TINT, .rw, []⟩, ⟨0, F.CWY_L_TCFG_LDTO, .rw, []⟩]⟩,
  ⟨272, 1, 0, .win, [⟨31, F.CWY_L_STAT_UP, .ro, []⟩, ⟨30, F.CWY_L_STAT_LINKCHG, .w1c, []⟩, ⟨29, F.CWY_L_STAT_DNV, .ro, []⟩, ⟨28, F.CWY_L_STAT_EPOK, .ro, []⟩, ⟨26, F.CWY_L_STAT_STATE, .ro, []⟩, ⟨0, F.CWY_L_STAT_PEERDEV, .ro, []⟩]⟩,
  ⟨280, 1, 0, .win, [⟨0, F.CWY_L_WT0_WT, .rw, []⟩]⟩,
  ⟨284, 1, 0, .win, [⟨0, F.CWY_L_WT1_WT, .rw, []⟩]⟩,
  ⟨288, 4, 4, .win, [⟨0, F.CWY_L_TT_VALUE, .ro, []⟩]⟩,
  ⟨304, 1, 0, .win, [⟨0, F.CWY_L_TTFRAC_VALUE, .ro, []⟩]⟩,
  ⟨308, 1, 0, .win, [⟨0, F.CWY_L_TTSEQ_VALUE, .ro, []⟩]⟩,
  ⟨320, 6, 4, .win, [⟨0, F.CWY_L_CNT_COUNT, .cnt, []⟩]⟩,
  ⟨2064, 1, 0, .arr, [⟨0, F.CWY_REVT_DEV_DEV, .rw, []⟩]⟩,
  ⟨2068, 1, 0, .arr, [⟨0, F.CWY_REVT_SEND_VALUE, .wo, []⟩]⟩,
  ⟨2088, 1, 0, .arr, [⟨31, F.CWY_MBS_CMD_GO, .ac, []⟩, ⟨30, F.CWY_MBS_CMD_BOOT, .rw, []⟩, ⟨28, F.CWY_MBS_CMD_RESULT, .ro, []⟩, ⟨11, F.CWY_MBS_CMD_LEN, .rw, []⟩, ⟨0, F.CWY_MBS_CMD_DEV, .rw, []⟩]⟩,
  ⟨2124, 1, 0, .arr, [⟨31, F.CWY_RA_CMD_GO, .ac, []⟩, ⟨30, F.CWY_RA_CMD_WR, .rw, []⟩, ⟨27, F.CWY_RA_CMD_RESULT, .ro, []⟩, ⟨0, F.CWY_RA_CMD_DEV, .rw, []⟩]⟩,
  ⟨2144, 12, 4, .arr, [⟨0, F.CWY_CNT_COUNT, .cnt, []⟩]⟩,
  ⟨2272, 1, 0, .arr, [⟨4, F.CWY_IRQSTAT_CNTOVF, .w1c, []⟩, ⟨3, F.CWY_IRQSTAT_EPOCH, .w1c, []⟩, ⟨2, F.CWY_IRQSTAT_MIG, .w1c, []⟩, ⟨1, F.CWY_IRQSTAT_MBRX, .w1c, []⟩, ⟨0, F.CWY_IRQSTAT_LINK, .w1c, []⟩]⟩,
  ⟨2276, 1, 0, .arr, [⟨4, F.CWY_IRQEN_CNTOVF, .rw, []⟩, ⟨3, F.CWY_IRQEN_EPOCH, .rw, []⟩, ⟨2, F.CWY_IRQEN_MIG, .rw, []⟩, ⟨1, F.CWY_IRQEN_MBRX, .rw, []⟩, ⟨0, F.CWY_IRQEN_LINK, .rw, []⟩]⟩,
  ⟨4096, 2048, 4, .arr, [⟨31, F.CWY_ROUTE_VALID, .rw, []⟩, ⟨0, F.CWY_ROUTE_LINK, .rw, [(14, 15)]⟩]⟩,
  ⟨16384, 1024, 8, .arr, [⟨31, F.CWY_BR_CFG_EN, .rw, []⟩, ⟨28, F.CWY_BR_CFG_KIND, .rw, []⟩, ⟨27, F.CWY_BR_CFG_WB, .rw, []⟩, ⟨0, F.CWY_BR_CFG_RING, .rw, []⟩]⟩,
  ⟨16388, 1024, 8, .arr, [⟨16, F.CWY_BR_PEER_PEERDEV, .rw, []⟩, ⟨0, F.CWY_BR_PEER_PEERBR, .rw, []⟩]⟩,
  ⟨16, 1, 0, .priv, [⟨16, F.CWY_SELECT_SELERR, .ro, []⟩, ⟨0, F.CWY_SELECT_INDEX, .rw, []⟩]⟩]
/-! CWY_SNAP_LSTAT: copy of CWY_L_STAT of links 0-13 (15_causeway_system.md). -/
def F.CWY_SNAP_LSTAT_VALUE : Fld := ⟨302112768, 32, 0, []⟩
/-! CWY_SNAP_EPOCH: copy of CWY_EPOCH (15_causeway_system.md). -/
def F.CWY_SNAP_EPOCH_VALUE : Fld := ⟨302114560, 32, 0, []⟩
/-! CWY_CTRL: control (15_causeway_system.md). -/
def F.CWY_CTRL_RUN : Fld := ⟨302055455, 1, 0, []⟩
/-! CWY_EPOCH: fence epoch (15_causeway_system.md). -/
def F.CWY_EPOCH_EPOCH : Fld := ⟨302055552, 32, 0, []⟩
/-! CWY_L_PEERMAC_HI: tunnel peer MAC, octets 0-1 (15_causeway_system.md). -/
def F.CWY_L_PEERMAC_HI_MAC : Fld := ⟨301998336, 32, 0, []⟩
/-! CWY_L_PEERMAC_LO: tunnel peer MAC, octets 2-5 (15_causeway_system.md). -/
def F.CWY_L_PEERMAC_LO_MAC : Fld := ⟨301998464, 32, 0, []⟩
/-! CWY_L_PEEREPOCH: the peer's epoch from its last LINK frame (15_causeway_system.md). -/
def F.CWY_L_PEEREPOCH_EPOCH : Fld := ⟨301998720, 32, 0, []⟩
/-! CWY_MBS_ADDR_LO: message address (15_causeway_system.md). -/
def F.CWY_MBS_ADDR_LO_ADDR : Fld := ⟨302056448, 32, 0, []⟩
/-! CWY_MBS_ADDR_HI: message address (15_causeway_system.md). -/
def F.CWY_MBS_ADDR_HI_ADDR : Fld := ⟨302056576, 8, 0, []⟩
/-! CWY_MBR_BASE: mailbox receive ring (15_causeway_system.md). -/
def F.CWY_MBR_BASE_BASE : Fld := ⟨302056966, 26, 0, []⟩
/-! CWY_MBR_CFG: mailbox receive ring (15_causeway_system.md). -/
def F.CWY_MBR_CFG_IE : Fld := ⟨302057119, 1, 0, []⟩
def F.CWY_MBR_CFG_SIZE : Fld := ⟨302057088, 4, 0, []⟩
/-! CWY_MBR_WP: mailbox receive ring (15_causeway_system.md). -/
def F.CWY_MBR_WP_WP : Fld := ⟨302057216, 16, 0, []⟩
/-! CWY_MBR_RP: mailbox receive ring (15_causeway_system.md). -/
def F.CWY_MBR_RP_RP : Fld := ⟨302057344, 16, 0, []⟩
/-! CWY_RA_ADDR_LO: remote access address (15_causeway_system.md). -/
def F.CWY_RA_ADDR_LO_ADDR : Fld := ⟨302057472, 32, 0, []⟩
/-! CWY_RA_ADDR_HI: remote access address (15_causeway_system.md). -/
def F.CWY_RA_ADDR_HI_ADDR : Fld := ⟨302057600, 8, 0, []⟩
/-! CWY_RA_DATA: remote access data (15_causeway_system.md). -/
def F.CWY_RA_DATA_DATA : Fld := ⟨302057728, 32, 0, []⟩
/-! CWY_FENCECMD: send a FENCE frame (15_causeway_system.md). -/
def F.CWY_FENCECMD_GO : Fld := ⟨302058015, 1, 0, []⟩
def F.CWY_FENCECMD_RESULT : Fld := ⟨302058012, 2, 0, []⟩
def F.CWY_FENCECMD_DEV : Fld := ⟨302057984, 11, 0, []⟩
/-! CWY_M_CTL: migration control (15_causeway_system.md). -/
def F.CWY_M_CTL_GO : Fld := ⟨302383135, 1, 0, []⟩
def F.CWY_M_CTL_ABORT : Fld := ⟨302383134, 1, 0, []⟩
def F.CWY_M_CTL_ROLE : Fld := ⟨302383133, 1, 0, []⟩
def F.CWY_M_CTL_TDM : Fld := ⟨302383132, 1, 0, []⟩
def F.CWY_M_CTL_MIGID : Fld := ⟨302383104, 16, 0, []⟩
/-! CWY_M_STAT: migration status (15_causeway_system.md). -/
def F.CWY_M_STAT_PAGES : Fld := ⟨302383248, 16, 0, []⟩
def F.CWY_M_STAT_REASON : Fld := ⟨302383240, 4, 0, []⟩
def F.CWY_M_STAT_STATE : Fld := ⟨302383232, 4, 0, []⟩
/-! CWY_M_PEER: peer (15_causeway_system.md). -/
def F.CWY_M_PEER_PEERDEV : Fld := ⟨302383360, 11, 0, []⟩
/-- Register table of CWY, part 1. -/
def regTable_CWY_1 : List Reg := [
  ⟨3840, 14, 4, .arr, [⟨0, F.CWY_SNAP_LSTAT_VALUE, .ro, []⟩]⟩,
  ⟨3896, 1, 4, .arr, [⟨0, F.CWY_SNAP_EPOCH_VALUE, .ro, []⟩]⟩,
  ⟨2048, 1, 0, .arr, [⟨31, F.CWY_CTRL_RUN, .rw, []⟩]⟩,
  ⟨2052, 1, 0, .arr, [⟨0, F.CWY_EPOCH_EPOCH, .rw, []⟩]⟩,
  ⟨264, 1, 0, .win, [⟨0, F.CWY_L_PEERMAC_HI_MAC, .rw, []⟩]⟩,
  ⟨268, 1, 0, .win, [⟨0, F.CWY_L_PEERMAC_LO_MAC, .rw, []⟩]⟩,
  ⟨276, 1, 0, .win, [⟨0, F.CWY_L_PEEREPOCH_EPOCH, .ro, []⟩]⟩,
  ⟨2080, 1, 0, .arr, [⟨0, F.CWY_MBS_ADDR_LO_ADDR, .rw, []⟩]⟩,
  ⟨2084, 1, 0, .arr, [⟨0, F.CWY_MBS_ADDR_HI_ADDR, .rw, []⟩]⟩,
  ⟨2096, 1, 0, .arr, [⟨6, F.CWY_MBR_BASE_BASE, .rw, []⟩]⟩,
  ⟨2100, 1, 0, .arr, [⟨31, F.CWY_MBR_CFG_IE, .rw, []⟩, ⟨0, F.CWY_MBR_CFG_SIZE, .rw, []⟩]⟩,
  ⟨2104, 1, 0, .arr, [⟨0, F.CWY_MBR_WP_WP, .ro, []⟩]⟩,
  ⟨2108, 1, 0, .arr, [⟨0, F.CWY_MBR_RP_RP, .rw, []⟩]⟩,
  ⟨2112, 1, 0, .arr, [⟨0, F.CWY_RA_ADDR_LO_ADDR, .rw, []⟩]⟩,
  ⟨2116, 1, 0, .arr, [⟨0, F.CWY_RA_ADDR_HI_ADDR, .rw, []⟩]⟩,
  ⟨2120, 1, 0, .arr, [⟨0, F.CWY_RA_DATA_DATA, .rwh, []⟩]⟩,
  ⟨2128, 1, 0, .arr, [⟨31, F.CWY_FENCECMD_GO, .ac, []⟩, ⟨28, F.CWY_FENCECMD_RESULT, .ro, []⟩, ⟨0, F.CWY_FENCECMD_DEV, .rw, []⟩]⟩,
  ⟨12288, 64, 64, .arr, [⟨31, F.CWY_M_CTL_GO, .ac, []⟩, ⟨30, F.CWY_M_CTL_ABORT, .ac, []⟩, ⟨29, F.CWY_M_CTL_ROLE, .rw, []⟩, ⟨28, F.CWY_M_CTL_TDM, .rw, []⟩, ⟨0, F.CWY_M_CTL_MIGID, .rw, []⟩]⟩,
  ⟨12292, 64, 64, .arr, [⟨16, F.CWY_M_STAT_PAGES, .ro, []⟩, ⟨8, F.CWY_M_STAT_REASON, .ro, []⟩, ⟨0, F.CWY_M_STAT_STATE, .ro, []⟩]⟩,
  ⟨12296, 64, 64, .arr, [⟨0, F.CWY_M_PEER_PEERDEV, .rw, []⟩]⟩]
/-! CWY_M_CTX: the channel's task and context (15_causeway_system.md). -/
def F.CWY_M_CTX_TID : Fld := ⟨302383504, 16, 0, []⟩
def F.CWY_M_CTX_CID : Fld := ⟨302383488, 15, 0, []⟩
/-! CWY_M_T: handover time (15_causeway_system.md). -/
def F.CWY_M_T_T : Fld := ⟨302383616, 32, 0, []⟩
/-! CWY_M_LIM: limits (15_causeway_system.md). -/
def F.CWY_M_LIM_FRZ : Fld := ⟨302383760, 16, 0, []⟩
def F.CWY_M_LIM_GUARD : Fld := ⟨302383744, 16, 0, []⟩
/-! CWY_M_WAIT: waits (15_causeway_system.md). -/
def F.CWY_M_WAIT_ACKWAIT : Fld := ⟨302383888, 16, 0, []⟩
def F.CWY_M_WAIT_GRACE : Fld := ⟨302383872, 16, 0, []⟩
/-! CWY_M_TDMOFS: TDM offset (15_causeway_system.md). -/
def F.CWY_M_TDMOFS_OFS : Fld := ⟨302384000, 32, 0, []⟩
/-! CWY_M_JBSRC: source jitter buffer (15_causeway_system.md). -/
def F.CWY_M_JBSRC_OFS : Fld := ⟨302384134, 19, 0, []⟩
/-! CWY_M_JBDST: destination jitter buffer (15_causeway_system.md). -/
def F.CWY_M_JBDST_OFS : Fld := ⟨302384262, 19, 0, []⟩
/-! CWY_M_JBLEN: jitter buffer bytes (15_causeway_system.md). -/
def F.CWY_M_JBLEN_LEN : Fld := ⟨302384384, 17, 0, []⟩
/-! CWY_M_KEY0: key forwarded at freeze (15_causeway_system.md). -/
def F.CWY_M_KEY0_VALID : Fld := ⟨302384543, 1, 0, []⟩
def F.CWY_M_KEY0_LADDR : Fld := ⟨302384528, 4, 0, []⟩
def F.CWY_M_KEY0_UDPPORT : Fld := ⟨302384512, 16, 0, []⟩
/-! CWY_M_KEY1: key forwarded at freeze (15_causeway_system.md). -/
def F.CWY_M_KEY1_VALID : Fld := ⟨302384671, 1, 0, []⟩
def F.CWY_M_KEY1_LADDR : Fld := ⟨302384656, 4, 0, []⟩
def F.CWY_M_KEY1_UDPPORT : Fld := ⟨302384640, 16, 0, []⟩
/-- Register table of CWY, part 2. -/
def regTable_CWY_2 : List Reg := [
  ⟨12300, 64, 64, .arr, [⟨16, F.CWY_M_CTX_TID, .rw, []⟩, ⟨0, F.CWY_M_CTX_CID, .rw, []⟩]⟩,
  ⟨12304, 64, 64, .arr, [⟨0, F.CWY_M_T_T, .rw, []⟩]⟩,
  ⟨12308, 64, 64, .arr, [⟨16, F.CWY_M_LIM_FRZ, .rw, []⟩, ⟨0, F.CWY_M_LIM_GUARD, .rw, []⟩]⟩,
  ⟨12312, 64, 64, .arr, [⟨16, F.CWY_M_WAIT_ACKWAIT, .rw, []⟩, ⟨0, F.CWY_M_WAIT_GRACE, .rw, []⟩]⟩,
  ⟨12316, 64, 64, .arr, [⟨0, F.CWY_M_TDMOFS_OFS, .rw, []⟩]⟩,
  ⟨12320, 64, 64, .arr, [⟨6, F.CWY_M_JBSRC_OFS, .rw, []⟩]⟩,
  ⟨12324, 64, 64, .arr, [⟨6, F.CWY_M_JBDST_OFS, .rw, []⟩]⟩,
  ⟨12328, 64, 64, .arr, [⟨0, F.CWY_M_JBLEN_LEN, .rw, []⟩]⟩,
  ⟨12332, 64, 64, .arr, [⟨31, F.CWY_M_KEY0_VALID, .rw, []⟩, ⟨16, F.CWY_M_KEY0_LADDR, .rw, []⟩, ⟨0, F.CWY_M_KEY0_UDPPORT, .rw, []⟩]⟩,
  ⟨12336, 64, 64, .arr, [⟨31, F.CWY_M_KEY1_VALID, .rw, []⟩, ⟨16, F.CWY_M_KEY1_LADDR, .rw, []⟩, ⟨0, F.CWY_M_KEY1_UDPPORT, .rw, []⟩]⟩]
/-- Every register of block CWY. -/
def regTable_CWY : List Reg := regTable_CWY_0 ++ regTable_CWY_1 ++ regTable_CWY_2

/-! HMN_SNS_CFG: selected input (16_health_monitor.md). -/
def F.HMN_SNS_CFG_EXCSENSE : Fld := ⟨335552539, 1, 0, []⟩
def F.HMN_SNS_CFG_GAIN : Fld := ⟨335552536, 3, 0, []⟩
/-! HMN_SNS_THRHI: thresholds (16_health_monitor.md). -/
def F.HMN_SNS_THRHI_THR : Fld := ⟨335552640, 32, 2147483647, []⟩
/-! HMN_SNS_THRLO: thresholds (16_health_monitor.md). -/
def F.HMN_SNS_THRLO_THR : Fld := ⟨335552768, 32, 2147483648, []⟩
/-! HMN_SNS_THRCFG: threshold behaviour (16_health_monitor.md). -/
def F.HMN_SNS_THRCFG_PERSIST : Fld := ⟨335552920, 8, 1, []⟩
def F.HMN_SNS_THRCFG_ACTHI : Fld := ⟨335552918, 2, 0, []⟩
def F.HMN_SNS_THRCFG_ACTLO : Fld := ⟨335552916, 2, 0, []⟩
def F.HMN_SNS_THRCFG_HYST : Fld := ⟨335552896, 16, 0, []⟩
/-! HMN_SNS_DATA: results (16_health_monitor.md). -/
def F.HMN_SNS_DATA_WORD : Fld := ⟨335553024, 32, 0, []⟩
/-! HMN_SNS_DEMI: results (16_health_monitor.md). -/
def F.HMN_SNS_DEMI_WORD : Fld := ⟨335553152, 32, 0, []⟩
/-! HMN_SNS_DEMQ: results (16_health_monitor.md). -/
def F.HMN_SNS_DEMQ_WORD : Fld := ⟨335553280, 32, 0, []⟩
/-! HMN_SNS_STAT: threshold status (16_health_monitor.md). -/
def F.HMN_SNS_STAT_HIACT : Fld := ⟨335553439, 1, 0, []⟩
def F.HMN_SNS_STAT_LOACT : Fld := ⟨335553438, 1, 0, []⟩
def F.HMN_SNS_STAT_HIEVT : Fld := ⟨335553437, 1, 0, []⟩
def F.HMN_SNS_STAT_LOEVT : Fld := ⟨335553436, 1, 0, []⟩
/-! HMN_CTRL: control (16_health_monitor.md). -/
def F.HMN_CTRL_EN : Fld := ⟨335609887, 1, 0, []⟩
def F.HMN_CTRL_DDSSYNC : Fld := ⟨335609886, 1, 0, []⟩
/-! HMN_SYNC: software synchronising reset (16_health_monitor.md). -/
def F.HMN_SYNC_SLICES : Fld := ⟨335609984, 4, 0, []⟩
/-! HMN_SLC_CFG: fine path of slice k (16_health_monitor.md). -/
def F.HMN_SLC_CFG_FMODE : Fld := ⟨335611935, 1, 0, []⟩
def F.HMN_SLC_CFG_NHB : Fld := ⟨335611931, 4, 4, []⟩
def F.HMN_SLC_CFG_MALEN : Fld := ⟨335611917, 13, 16, []⟩
def F.HMN_SLC_CFG_PHASE : Fld := ⟨335611904, 10, 0, []⟩
/-! HMN_SLC_MUX: input selection (16_health_monitor.md). -/
def F.HMN_SLC_MUX_SCAN : Fld := ⟨335612063, 1, 0, []⟩
def F.HMN_SLC_MUX_INMASK : Fld := ⟨335612056, 4, 0, []⟩
def F.HMN_SLC_MUX_DISCH : Fld := ⟨335612048, 6, 7, []⟩
def F.HMN_SLC_MUX_DWELL : Fld := ⟨335612040, 8, 1, []⟩
def F.HMN_SLC_MUX_CUR : Fld := ⟨335612032, 2, 0, []⟩
/-! HMN_SLC_DEM: demodulation (16_health_monitor.md). -/
def F.HMN_SLC_DEM_DEMEN : Fld := ⟨335612191, 1, 0, []⟩
def F.HMN_SLC_DEM_DEMSRC : Fld := ⟨335612190, 1, 0, []⟩
def F.HMN_SLC_DEM_NPER : Fld := ⟨335612160, 16, 1, []⟩
/-! HMN_SLC_COARSE: coarse thresholds (16_health_monitor.md). -/
def F.HMN_SLC_COARSE_COVER : Fld := ⟨335612304, 16, 32767, []⟩
def F.HMN_SLC_COARSE_CUNDER : Fld := ⟨335612288, 16, 32768, []⟩
/-! HMN_SLC_CCFG: coarse actions (16_health_monitor.md). -/
def F.HMN_SLC_CCFG_OVEN : Fld := ⟨335612447, 1, 0, []⟩
def F.HMN_SLC_CCFG_UNEN : Fld := ⟨335612446, 1, 0, []⟩
def F.HMN_SLC_CCFG_OVACT : Fld := ⟨335612444, 2, 0, []⟩
def F.HMN_SLC_CCFG_UNACT : Fld := ⟨335612442, 2, 0, []⟩
/-! HMN_SLC_CDATA: coarse output (16_health_monitor.md). -/
def F.HMN_SLC_CDATA_VALID : Fld := ⟨335612575, 1, 0, []⟩
def F.HMN_SLC_CDATA_CODE : Fld := ⟨335612544, 16, 0, []⟩
/-! HMN_SLC_STAT: slice status (16_health_monitor.md). -/
def F.HMN_SLC_STAT_OVER : Fld := ⟨335612703, 1, 0, []⟩
def F.HMN_SLC_STAT_UNDER : Fld := ⟨335612702, 1, 0, []⟩
def F.HMN_SLC_STAT_OVEVT : Fld := ⟨335612701, 1, 0, []⟩
def F.HMN_SLC_STAT_UNEVT : Fld := ⟨335612700, 1, 0, []⟩
def F.HMN_SLC_STAT_CHOPRIP : Fld := ⟨335612699, 1, 0, []⟩
def F.HMN_SLC_STAT_FILLING : Fld := ⟨335612698, 1, 0, []⟩
/-! HMN_EXC_FTW: exciter e (16_health_monitor.md). -/
def F.HMN_EXC_FTW_FTW : Fld := ⟨335616000, 32, 10486, []⟩
/-! HMN_EXC_CFG: exciter e (16_health_monitor.md). -/
def F.HMN_EXC_CFG_EN : Fld := ⟨335616159, 1, 0, []⟩
def F.HMN_EXC_CFG_AMP : Fld := ⟨335616128, 8, 0, []⟩
/-! HMN_IRQSTAT: HMN interrupts (16_health_monitor.md). -/
def F.HMN_IRQSTAT_DEMRDY : Fld := ⟨335617026, 1, 0, []⟩
def F.HMN_IRQSTAT_COARSE : Fld := ⟨335617025, 1, 0, []⟩
def F.HMN_IRQSTAT_THR : Fld := ⟨335617024, 1, 0, []⟩
/-- Register table of HMN, part 0. -/
def regTable_HMN_0 : List Reg := [
  ⟨256, 1, 0, .win, [⟨27, F.HMN_SNS_CFG_EXCSENSE, .rw, []⟩, ⟨24, F.HMN_SNS_CFG_GAIN, .rw, []⟩]⟩,
  ⟨260, 1, 0, .win, [⟨0, F.HMN_SNS_THRHI_THR, .rw, []⟩]⟩,
  ⟨264, 1, 0, .win, [⟨0, F.HMN_SNS_THRLO_THR, .rw, []⟩]⟩,
  ⟨268, 1, 0, .win, [⟨24, F.HMN_SNS_THRCFG_PERSIST, .rw, []⟩, ⟨22, F.HMN_SNS_THRCFG_ACTHI, .rw, []⟩, ⟨20, F.HMN_SNS_THRCFG_ACTLO, .rw, []⟩, ⟨0, F.HMN_SNS_THRCFG_HYST, .rw, []⟩]⟩,
  ⟨272, 1, 0, .win, [⟨0, F.HMN_SNS_DATA_WORD, .ro, []⟩]⟩,
  ⟨276, 1, 0, .win, [⟨0, F.HMN_SNS_DEMI_WORD, .ro, []⟩]⟩,
  ⟨280, 1, 0, .win, [⟨0, F.HMN_SNS_DEMQ_WORD, .ro, []⟩]⟩,
  ⟨284, 1, 0, .win, [⟨31, F.HMN_SNS_STAT_HIACT, .ro, []⟩, ⟨30, F.HMN_SNS_STAT_LOACT, .ro, []⟩, ⟨29, F.HMN_SNS_STAT_HIEVT, .w1c, []⟩, ⟨28, F.HMN_SNS_STAT_LOEVT, .w1c, []⟩]⟩,
  ⟨2048, 1, 0, .arr, [⟨31, F.HMN_CTRL_EN, .rw, []⟩, ⟨30, F.HMN_CTRL_DDSSYNC, .rw, []⟩]⟩,
  ⟨2052, 1, 0, .arr, [⟨0, F.HMN_SYNC_SLICES, .ac, []⟩]⟩,
  ⟨2112, 4, 32, .arr, [⟨31, F.HMN_SLC_CFG_FMODE, .rw, []⟩, ⟨27, F.HMN_SLC_CFG_NHB, .rw, []⟩, ⟨13, F.HMN_SLC_CFG_MALEN, .rw, []⟩, ⟨0, F.HMN_SLC_CFG_PHASE, .rw, []⟩]⟩,
  ⟨2116, 4, 32, .arr, [⟨31, F.HMN_SLC_MUX_SCAN, .rw, []⟩, ⟨24, F.HMN_SLC_MUX_INMASK, .rw, []⟩, ⟨16, F.HMN_SLC_MUX_DISCH, .rw, []⟩, ⟨8, F.HMN_SLC_MUX_DWELL, .rw, []⟩, ⟨0, F.HMN_SLC_MUX_CUR, .rwh, []⟩]⟩,
  ⟨2120, 4, 32, .arr, [⟨31, F.HMN_SLC_DEM_DEMEN, .rw, []⟩, ⟨30, F.HMN_SLC_DEM_DEMSRC, .rw, []⟩, ⟨0, F.HMN_SLC_DEM_NPER, .rw, []⟩]⟩,
  ⟨2124, 4, 32, .arr, [⟨16, F.HMN_SLC_COARSE_COVER, .rw, []⟩, ⟨0, F.HMN_SLC_COARSE_CUNDER, .rw, []⟩]⟩,
  ⟨2128, 4, 32, .arr, [⟨31, F.HMN_SLC_CCFG_OVEN, .rw, []⟩, ⟨30, F.HMN_SLC_CCFG_UNEN, .rw, []⟩, ⟨28, F.HMN_SLC_CCFG_OVACT, .rw, []⟩, ⟨26, F.HMN_SLC_CCFG_UNACT, .rw, []⟩]⟩,
  ⟨2132, 4, 32, .arr, [⟨31, F.HMN_SLC_CDATA_VALID, .ro, []⟩, ⟨0, F.HMN_SLC_CDATA_CODE, .ro, []⟩]⟩,
  ⟨2136, 4, 32, .arr, [⟨31, F.HMN_SLC_STAT_OVER, .ro, []⟩, ⟨30, F.HMN_SLC_STAT_UNDER, .ro, []⟩, ⟨29, F.HMN_SLC_STAT_OVEVT, .w1c, []⟩, ⟨28, F.HMN_SLC_STAT_UNEVT, .w1c, []⟩, ⟨27, F.HMN_SLC_STAT_CHOPRIP, .ro, []⟩, ⟨26, F.HMN_SLC_STAT_FILLING, .ro, []⟩]⟩,
  ⟨2240, 4, 8, .arr, [⟨0, F.HMN_EXC_FTW_FTW, .rw, []⟩]⟩,
  ⟨2244, 4, 8, .arr, [⟨31, F.HMN_EXC_CFG_EN, .rw, []⟩, ⟨0, F.HMN_EXC_CFG_AMP, .rw, []⟩]⟩,
  ⟨2272, 1, 0, .arr, [⟨2, F.HMN_IRQSTAT_DEMRDY, .w1c, []⟩, ⟨1, F.HMN_IRQSTAT_COARSE, .w1c, []⟩, ⟨0, F.HMN_IRQSTAT_THR, .w1c, []⟩]⟩]
/-! HMN_IRQEN: HMN interrupts (16_health_monitor.md). -/
def F.HMN_IRQEN_DEMRDY : Fld := ⟨335617154, 1, 0, []⟩
def F.HMN_IRQEN_COARSE : Fld := ⟨335617153, 1, 0, []⟩
def F.HMN_IRQEN_THR : Fld := ⟨335617152, 1, 0, []⟩
/-! HMN_SELECT: SNSSEL, one copy per initiator of R11 (16_health_monitor.md). -/
def F.HMN_SELECT_SELERR : Fld := ⟨335544848, 1, 0, []⟩
def F.HMN_SELECT_INDEX : Fld := ⟨335544832, 16, 0, []⟩
/-! HMN_SNS_SNAP: copy of HMN_SNS_DATA of inputs 0-15 (16_health_monitor.md). -/
def F.HMN_SNS_SNAP_VALUE : Fld := ⟨335667200, 32, 0, []⟩
/-- Register table of HMN, part 1. -/
def regTable_HMN_1 : List Reg := [
  ⟨2276, 1, 0, .arr, [⟨2, F.HMN_IRQEN_DEMRDY, .rw, []⟩, ⟨1, F.HMN_IRQEN_COARSE, .rw, []⟩, ⟨0, F.HMN_IRQEN_THR, .rw, []⟩]⟩,
  ⟨16, 1, 0, .priv, [⟨16, F.HMN_SELECT_SELERR, .ro, []⟩, ⟨0, F.HMN_SELECT_INDEX, .rw, []⟩]⟩,
  ⟨3840, 16, 4, .arr, [⟨0, F.HMN_SNS_SNAP_VALUE, .ro, []⟩]⟩]
/-- Every register of block HMN. -/
def regTable_HMN : List Reg := regTable_HMN_0 ++ regTable_HMN_1

end Sys2Proof.Machine
end

