-- ==== Sys2Proof/Machine/State.lean ====
section
/-! DEFINITION.  The state of the machine, as plain data, and the machine at VDDNW power-on.

Every register field of the device's register space, every core register and every scalar the spec
gives the machine is a CELL: a named value of a fixed width, possibly with many instances (one per
task, core, context, timeslot ...).  The cells are named in `RegsA`–`RegsC` (register space) and
`Internals` (everything else); `cells` holds the values that differ from the reset values.  The
fields below it hold what is a list or a record in the spec. -/

namespace Sys2Proof.Machine

/-- The reasons a command has no next state. -/
inductive Refusal where
  /-- Raised by the dispatch alone, for a command without a meaning; safe. -/
  | notModelled (mnemonic : String)
  deriving DecidableEq, Repr

/-- The reasons the machine stops.  No meaning raises one: the device reports every error of the spec
in its own registers and goes on. -/
inductive Fault where
  /-- Never raised; present because the outcome type asks for a type of faults.  Safe. -/
  | never
  deriving DecidableEq, Repr

/-- A cause of a trap or exception raised while a bundle is assembled or issued (R129, R130, R135):
its rank in the order of R130, its code on a signal core, its code on a supervisor core, its address
and its slot (0 CM0, 1 CM1, 2 L X, 3 L Y, 4 S). -/
structure Cause where
  rank : Nat
  code : Nat
  svcCode : Nat
  addr : Nat
  slot : Nat
  deriving DecidableEq, Repr

/-- The acts of the S-slot instructions that reach beyond the core's registers. -/
inductive Act where
  | waitJob | yield | rett | fence | eret
  | endJob (blk : Option BlockEnd)
  | signal (w : Nat)
  | touch (a : Nat)
  | bkpt
  | syscall (imm : Nat)
  | loop (rotates : Bool) (count : Nat) (leoff : Nat)
  | branch (taken : Bool) (relative : Bool) (target : Int)
  | queue (write try_ fin : Bool) (q : Nat) (value : Nat) (rw : Nat)
  | ldlk (a : Nat) (rd : Nat)
  | stcn (a : Nat) (v : Nat) (rd : Nat)
  | cacheLine (op : Nat) (a : Nat)
  | cacheAll (data : Bool)
  | tlbi (op : Nat) (v : Nat)
  deriving DecidableEq, Repr

/-- One effect of a bundle, in the order its results take precedence (R112): a register result with
its latency in bundles (R113); a result in some bits of a register; a MAC-class result, which accumulations
see after one bundle and moves after two; an access to memory; an act. -/
inductive Eff where
  | put (f : Fld) (i v lat : Nat)
  | putBits (f : Fld) (i v mask lat : Nat)
  | accPut (i v : Nat)
  | overflow (acc : Nat)
  | load (slot size addr : Nat) (dst : List (Fld × Nat))
  | store (slot size addr v : Nat)
  | act (a : Act)
  deriving DecidableEq, Repr

/-- The bundle a core is assembling: how many syllables, how many of class M, whether an L and an S
syllable have come, the effects so far in slot order, and the causes so far.  `closed` marks a bundle
that is complete and waits, stalled on a queue. -/
structure Bundle where
  n : Nat
  nM : Nat
  hasL : Bool
  hasS : Bool
  effs : List Eff
  causes : List Cause
  closed : Bool
  deriving DecidableEq, Repr

/-- A bundle with no syllable yet. -/
def Bundle.empty : Bundle := ⟨0, 0, false, false, [], [], false⟩

/-- A result in flight: the bundle boundaries still to pass before it is certainly visible, where it
lands, its value, and, where it takes some bits of its register only, their mask (R113, R114). -/
structure Landing where
  left : Nat
  fld : Fld
  inst : Nat
  val : Nat
  mask : Option Nat
  deriving DecidableEq, Repr

/-- A line of the supervisor data caches (R138): its bytes, whether they differ from memory, the core
that wrote it, and the cores that hold it. -/
structure DLine where
  data : List Byte
  dirty : Bool
  owner : Nat
  holders : List Nat
  deriving DecidableEq, Repr

/-- An entry of a supervisor core's TLB (R136, R137). -/
structure TlbEntry where
  vpn : Nat
  asid : Nat
  entry : Nat
  deriving DecidableEq, Repr

/-- A word of a queue, and whether it ends its item (R256). -/
structure QWord where
  val : Nat
  last : Bool
  deriving DecidableEq, Repr

/-- A hardware queue (R254–R265): the words of its producer bank and of its consumer bank, oldest
first; who has begun writing an item, and who has begun reading one, and not ended it (0: nobody; 1 +
TID of a signal-core job, 0x1_0001 + n for SVCn); FLUSHPEND, whether its flush point has come, and how
many of the items still in the queue ended by then; whether a bank swap runs. -/
structure Queue where
  prod : List QWord
  cons : List QWord
  writer : Nat
  reader : Nat
  flush : Bool
  fixed : Bool
  flushN : Nat
  swap : Bool
  deriving DecidableEq, Repr

/-- An empty queue. -/
def Queue.empty : Queue := ⟨[], [], 0, 0, false, false, 0, false⟩

/-- A received frame whose SRTP operation runs, or which waits for an earlier frame of its entry
(R374, R375): the entry's number and its words at classification, whether the entry has since been
changed, whether its operation is complete, the stream context when it began, the arrival on TB0, the
cells it holds, and the UDP payload. -/
structure RxFrame where
  ent : Nat
  old : Bool
  done : Bool
  e0 : Nat
  e1 : Nat
  e2 : Nat
  e3 : Nat
  inst : Bool
  dir : Bool
  suite : Nat
  key : Nat
  salt : Nat
  arrival : Nat
  cells : List Nat
  pkt : List Byte
  deriving DecidableEq, Repr

/-- A frame queued for egress (R380–R386): the words of its descriptor, whether a supervisor core
posted it, whether it was late when posted or has been skipped by a step of its time base, whether it
is a tunnel frame of CWY's own; and once it is prepared the frame, its packet index, RTP timestamp and
payload octets. -/
structure EgFrame where
  w0 : Nat
  w1 : Nat
  w2 : Nat
  w3 : Nat
  svc : Bool
  late : Bool
  own : Bool
  frame : Option (List Byte)
  idx : Nat
  ts : Nat
  octets : Nat
  deriving DecidableEq, Repr

/-- A Causeway frame (R442): type, destination, source, epoch, remaining hops, payload. -/
structure CwFrame where
  type : Nat
  dst : Nat
  src : Nat
  epoch : Nat
  hops : Nat
  payload : List Byte
  deriving DecidableEq, Repr

/-- The sequenced frames of a link (R445): those sent and not acknowledged, with their SEQ, oldest
first; and those that wait for room, each with what waits for its place (0 nothing, 1 CWY_MBS_CMD,
2 CWY_FENCECMD, 3 CWY_RA_CMD). -/
structure Link where
  replay : List (Nat × CwFrame)
  waiting : List (Nat × CwFrame)
  deriving DecidableEq, Repr

/-- A link with nothing to send. -/
def Link.empty : Link := ⟨[], []⟩

/-- The state of the machine. -/
structure State where
  /-- The commands that wait, first in, first out. -/
  pending : List Instr
  /-- The cells that differ from their reset values: cell number, then instance, then value. -/
  cells : Tbl (Tbl Nat)
  /-- The bytes of the physical memories that differ from what an unwritten byte reads as (0). -/
  mem : List Host.Cell
  /-- How many free values (values the spec leaves open) have been drawn: the model's own field. -/
  freeCtr : Nat
  /-- The word each initiator's last read returned, by its SYS_ERRINFO.INIT code: what an initiator
  outside the cores sees of a read. -/
  rdata : Tbl Nat
  /-- Fuse bits whose burn a RESET cut short (R84). -/
  partialFuses : List Nat
  /-- The bundle each core is assembling, by core (0–63 signal cores, 64–67 supervisor cores). -/
  bundles : Tbl Bundle
  /-- Results in flight, by register bank, in the order of issue. -/
  landings : Tbl (List Landing)
  /-- Accumulator halves written by MAC-class results of the last bundle, with the values before, by
  register bank: what a move one bundle later may still read (R113, R114). -/
  macShadow : Tbl (List (Nat × Nat))
  /-- Lines of the instruction caches, by core: line addresses held (R100, R138). -/
  iLines : Tbl (List Nat)
  /-- Lines of the supervisor data caches, by line address (R138). -/
  dLines : Tbl DLine
  /-- The TLB of each supervisor core (R137). -/
  tlbs : Tbl (List TlbEntry)
  /-- The hardware queues (R254). -/
  queues : Tbl Queue
  /-- Received frames whose SRTP operation runs, in order of arrival (R374). -/
  rxFrames : List RxFrame
  /-- Egress queues: priority queue q of port p at 9 p + q, the timed-launch queue at 9 p + 8, in post
  order (R383, R384). -/
  egress : Tbl (List EgFrame)
  /-- The sequenced frames of each Causeway link (R445). -/
  links : Tbl Link
  /-- The last frame that started on each medium: ETH0–ETH7 at 0–7, CW0–CW5 at 8–13 (an output of the
  device). -/
  wire : Tbl (List Byte)
  deriving DecidableEq, Repr

/-- The machine at VDDNW power-on: mode RESET, Nightwatch not yet started, every register at its
reset value, nothing written to any memory, no command waiting. -/
def State.reset : State :=
  { pending := [], cells := [], mem := [], freeCtr := 0, rdata := [], partialFuses := [],
    bundles := [], landings := [], macShadow := [], iLines := [], dLines := [], tlbs := [], queues := [],
    rxFrames := [], egress := [], links := [], wire := [] }

end Sys2Proof.Machine
end

