-- ==== Sys2Proof/Machine/Ops.lean ====
section
/-! DEFINITION.  The named operations over cells and memory, and the small shared acts every block
uses: counters, interrupt bits, error records, Milestone triggers, initiator codes, modes. -/

namespace Sys2Proof.Machine

/-! ## Cells -/

/-- The value of instance i of a cell. -/
def State.rd (s : State) (f : Fld) (i : Nat := 0) : Nat :=
  Tbl.get (f.resetAt i) (Tbl.get [] s.cells f.id) i % 2 ^ f.w

/-- The state in which instance i of a cell holds v, narrowed to the cell's width. -/
def State.wr (s : State) (f : Fld) (i v : Nat) : State :=
  { s with cells :=
      Tbl.put [] f.id (Tbl.put (f.resetAt i) i (v % 2 ^ f.w) (Tbl.get [] s.cells f.id)) s.cells }

/-- The state in which instance 0 of a cell holds v. -/
def State.set (s : State) (f : Fld) (v : Nat) : State := s.wr f 0 v

/-- Is instance i of a cell not zero. -/
def State.on (s : State) (f : Fld) (i : Nat := 0) : Bool := s.rd f i != 0

/-- The state with every instance of a cell back at its reset value. -/
def State.clearFld (s : State) (f : Fld) : State := { s with cells := Tbl.drop f.id s.cells }

/-- The next free value and the state that has drawn it. -/
def State.draw (s : State) : Nat × State := (Config.freeNat s.freeCtr, { s with freeCtr := s.freeCtr + 1 })

/-- The state that records what initiator `code` last read. -/
def State.seen (s : State) (code v : Nat) : State := { s with rdata := Tbl.put 0 code v s.rdata }

/-! ## Memory -/

/-- What a byte that nothing has written reads as (DESIGN CHOICE, notes/assumptions/3.md). -/
def Memory.unwritten : Byte := 0

/-- The canonical form of memory. -/
def Memory.wf (m : List Host.Cell) : Bool := Tbl.wf Memory.unwritten m

/-- The byte at a physical address. -/
def State.byte (s : State) (a : Nat) : Byte := Tbl.get Memory.unwritten s.mem a

/-- The state with byte b at physical address a. -/
def State.putByte (s : State) (a : Nat) (b : Byte) : State :=
  { s with mem := Tbl.put Memory.unwritten a b s.mem }

/-- n bytes from address a. -/
def State.readBytes (s : State) (a n : Nat) : List Byte := (List.range n).map fun k => s.byte (a + k)

/-- The state with a byte string at address a. -/
def State.writeBytes (s : State) (a : Nat) : List Byte → State
  | [] => s
  | b :: r => (s.putByte a b).writeBytes (a + 1) r

/-- The little-endian number of n bytes at address a. -/
def State.readLE (s : State) (a n : Nat) : Nat := ofLE (s.readBytes a n)

/-- The state with the n-byte little-endian number v at address a. -/
def State.writeLE (s : State) (a n v : Nat) : State := s.writeBytes a (leBytes n v)

/-- The state with n bytes copied from src to dst (correct where the ranges overlap). -/
def State.copyMem (s : State) (src dst n : Nat) : State :=
  { s with mem := Tbl.copyRange Memory.unwritten src dst n s.mem }

/-- The state in which nothing has written the n bytes from a. -/
def State.loseMem (s : State) (a n : Nat) : State := { s with mem := Tbl.clearRange a n s.mem }

/-! ## Initiators -/

/-- The code SYS_ERRINFO.INIT records for an initiator. -/
def initCode : Init → Nat
  | .sgc n => n.val
  | .svc n => 0x40 + n.val
  | .host => 0x48
  | .dbg => 0x49
  | .dma n => 0x50 + n.val
  | .cpg => 0x70
  | .cwy => 0x71
  | .pke => 0x72
  | .racc => 0x73
  | .tdx => 0x74

/-- The number of an initiator's private copies of the select registers (R11); none for the others
(R14). -/
def selCopy : Init → Option Nat
  | .svc n => some n.val
  | .host => some 4
  | .dbg => some 5
  | _ => none

/-- The instance an initiator has selected: none without a select copy (R14) or with an INDEX beyond
the block's instance count (R12, R13). -/
def selIx (s : State) (ini : Init) (index : Fld) (count : Nat) : Option Nat :=
  match selCopy ini with
  | none => none
  | some k => if s.rd index k < count then some (s.rd index k) else none

/-- The commands' outcome: the machine goes on. -/
abbrev go (s : State) : Host.Outcome State Fault Refusal := .next s

/-- The instances of a cell that differ from a reset value of 0. -/
def State.nonzero (s : State) (f : Fld) : List Nat := (Tbl.get [] s.cells f.id).map (·.1)

/-- The state after f for every element of a list, in order. -/
def State.over {α : Type} (s : State) (l : List α) (f : State → α → State) : State := l.foldl f s

/-! ## Modes -/

/-- The mode encodings of PMU_MODE (chapter 2, PMU registers). -/
abbrev mRESET := 0
abbrev mWATCH := 1
abbrev mBOOT := 2
abbrev mSERVICE := 3
abbrev mDRAIN := 4
abbrev mFENCED := 5

/-- The current mode. -/
def State.mode (s : State) : Nat := s.rd F.PMU_MODE_CURRENT

/-- Does the fabric clock run: in every mode but RESET and WATCH (R41). -/
def State.fabric (s : State) : Bool := s.mode == mBOOT || s.mode == mSERVICE || s.mode == mDRAIN || s.mode == mFENCED

/-- SERVICE or DRAIN: the modes with channel service (R41). -/
def State.serving (s : State) : Bool := s.mode == mSERVICE || s.mode == mDRAIN

/-! ## Counters and interrupt bits -/

/-- A statistics counter counts once: it stays at all-ones, and raises its overflow event on reaching
it (R17). -/
def State.bump (s : State) (f : Fld) (i : Nat) (ovf : Option Fld) : State :=
  let v := s.rd f i
  if v + 1 < 2 ^ f.w then
    let s := s.wr f i (v + 1)
    if v + 2 = 2 ^ f.w then
      match ovf with
      | some g => s.set g 1
      | none => s
    else s
  else s

/-- n counts of a counter (R17). -/
def State.bumpBy (s : State) (f : Fld) (i : Nat) (ovf : Option Fld) (n : Nat) : State :=
  let v := s.rd f i
  let top := 2 ^ f.w - 1
  if v < top && top ≤ v + n then
    let s := s.wr f i top
    match ovf with
    | some g => s.set g 1
    | none => s
  else if v + n < top then s.wr f i (v + n)
  else s

/-- A trigger of MLS from source bit k of SRCEN (R493–R495): accepted while ARMED, else missed; from
a disabled source it is ignored. -/
def State.mlsTrig (s : State) (sources : Nat) : State :=
  let en := Nat.land sources (s.rd F.MLS_SRCEN_SRCEN)
  if en = 0 then s
  else if s.on F.MLS_STAT_ARMED then
    (((s.set F.MLS_STAT_ARMED 0).set F.MLS_STAT_SEQ (s.rd F.MLS_STAT_SEQ + 1)).set F.MLS_STAT_SRC en).set
      I.mlsLatch 1
  else (s.bump F.MLS_MISSCNT_COUNT 0 (some F.MLS_IRQSTAT_CNTOVF)).set F.MLS_IRQSTAT_MISS 1

/-- Error event k of R496 has set its bit: a trigger from source 3 if MLS_ERRSEL selects it. -/
def State.errEvent (s : State) (k : Nat) : State :=
  if bitOf (s.rd F.MLS_ERRSEL_SEL) k then s.mlsTrig 8 else s

/-- SYS records a decode error (kind 0) or a protection error (kind 1): the record keeps the first
(R31, R89). -/
def State.recordErr (s : State) (ini : Init) (kind : Nat) (write : Bool) (a : Nat) : State :=
  if s.on F.SYS_ERRINFO_VALID then s.set F.SYS_ERRINFO_OVF 1
  else
    ((((((s.set F.SYS_ERRADDR_LO_ADDR a).set F.SYS_ERRADDR_HI_ADDR (a / 2 ^ 32)).set F.SYS_ERRINFO_KIND
      kind).set F.SYS_ERRINFO_WRITE (b2n write)).set F.SYS_ERRINFO_INIT (initCode ini)).set
      F.SYS_ERRINFO_VALID 1).errEvent 0

end Sys2Proof.Machine
end

