-- ==== Sys2Proof/Machine/Wire.lean ====
section
/-! DEFINITION.  What Ethernet ports and Causeway links share: byte strings in network order, the CRC of
IEEE 802.3, checksums, timestamps, counters, and what happens when a port or a link goes down (R363,
R365, R402, R403, R441, R445). -/

namespace Sys2Proof.Machine

/-! ## Byte strings -/

/-- Byte k of a string; 0 beyond its end. -/
def byteAt (l : List Byte) (k : Nat) : Nat := (l.getD k 0).toNat

/-- The big-endian number of n bytes at place k. -/
def beAt (l : List Byte) (k n : Nat) : Nat := ofBE ((l.drop k).take n)

/-- One bit of the reflected CRC-32 of IEEE 802.3. -/
def crcBit (c : Nat) : Nat := if c % 2 = 1 then Nat.xor (c / 2) 0xEDB88320 else c / 2

/-- One byte of it. -/
def crcByte (c : Nat) (b : Byte) : Nat :=
  crcBit (crcBit (crcBit (crcBit (crcBit (crcBit (crcBit (crcBit (Nat.xor c b.toNat))))))))

/-- The CRC-32 of a byte string. -/
def crc32 (l : List Byte) : Nat := Nat.xor (l.foldl crcByte 0xFFFFFFFF) 0xFFFFFFFF

/-- The sum of the 16-bit words of a string, the last padded with zero. -/
def sum16 : List Byte → Nat
  | [] => 0
  | [a] => a.toNat * 256
  | a :: b :: r => a.toNat * 256 + b.toNat + sum16 r

/-- A sum folded to 16 bits with end-around carry: it needs two folds for strings of up to 64 KB. -/
def fold16 (v : Nat) : Nat :=
  let v := v % 65536 + v / 65536
  v % 65536 + v / 65536

/-- The Internet checksum of a string whose checksum field is zero. -/
def inetSum (l : List Byte) : Nat := 65535 - fold16 (sum16 l)

/-- The string with the bytes at place k replaced. -/
def putBytes (l : List Byte) (k : Nat) (b : List Byte) : List Byte := l.take k ++ b ++ l.drop (k + b.length)

/-- The string padded with zero bytes to a length of n. -/
def padTo (n : Nat) (l : List Byte) : List Byte := l ++ List.replicate (n - l.length) 0

/-! ## Timestamps (R402, R403) -/

/-- The signed fixed latencies of link i (0–7 ETH, 8–13 CW), in 1/256 ns. -/
def latRx (s : State) (i : Nat) : Int := signedOf 16 (s.rd F.TMU_LAT_RX_LAT i) * 4
def latTx (s : State) (i : Nat) : Int := signedOf 16 (s.rd F.TMU_LAT_TX_LAT i) * 4

/-- The instant `sub` 1/256 ns after the last tick on base b, moved by adj, in 1/256 ns: NS in bits
[39:8], the fraction in bits [7:0]. -/
def stamp (s : State) (b sub : Nat) (adj : Int) : Nat :=
  ofInt 40 (((s.rd F.TMU_TB_NS_NS b * 256 + s.rd I.tbFrac b / 2 ^ 24 + sub : Nat) : Int) + adj)

/-- The stamp of a frame whose start the PCS of link i sees. -/
def rxStamp (s : State) (i b sub : Nat) : Nat := stamp s b sub (-(latRx s i))
def txStamp (s : State) (i b sub : Nat) : Nat := stamp s b sub (latTx s i)

/-- At link-up the latencies are loaded from the fuse trims, unless OVR = 1 (R403); where the trims lie in
the fuse words, and how they are encoded, the spec leaves open. -/
def loadLatency (s : State) (i mode fec : Nat) : State :=
  if s.on F.TMU_LAT_RX_OVR i then s
  else
    let trims := (List.range 27).map fun k => s.rd F.FUS_SHADOW_WORD (69 + k)
    ((s.wr F.TMU_LAT_RX_LAT i (Config.latTrim i mode fec 0 trims)).wr F.TMU_LAT_TX_LAT i
      (Config.latTrim i mode fec 1 trims)).wr F.TMU_LAT_RX_LOADED i 1

/-! ## Counters -/

/-- Counters of port p, of the packet engine, of link l, and of CWY (R17). -/
def portCnt (s : State) (p k : Nat) (n : Nat := 1) : State :=
  s.bumpBy F.PKE_P_CNT_COUNT (12 * p + k) (some F.PKE_IRQSTAT_CNTOVF) n
def pkeCnt (s : State) (k : Nat) : State := s.bump F.PKE_CNT_COUNT k (some F.PKE_IRQSTAT_CNTOVF)
def linkCnt (s : State) (l k : Nat) (n : Nat := 1) : State :=
  s.bumpBy F.CWY_L_CNT_COUNT (6 * l + k) (some F.CWY_IRQSTAT_CNTOVF) n
def cwCnt (s : State) (k : Nat) : State := s.bump F.CWY_CNT_COUNT k (some F.CWY_IRQSTAT_CNTOVF)

/-! ## Ports and links go down -/

/-- The link of port p is lost. -/
def portDown (s : State) (p : Nat) : State :=
  if s.on F.PKE_P_STAT_UP p then
    let s := ((s.wr F.PKE_P_STAT_UP p 0).wr F.PKE_P_STAT_ANDONE p 0).wr F.PKE_P_STAT_FECACT p 0
    (s.wr F.PKE_P_STAT_LINKCHG p 1).set F.PKE_IRQSTAT_LINK 1
  else s

/-- The link records of a Causeway link. -/
def linkOf (s : State) (l : Nat) : Link := Tbl.get Link.empty s.links l
def setLink (s : State) (l : Nat) (k : Link) : State := { s with links := Tbl.put Link.empty l k s.links }

/-- A frame that CWY could not send ends with UNREACH for what waits for it (R446, R450, R452). -/
def cwUnreach (s : State) (who : Nat) : State :=
  let s := cwCnt s 0
  match who with
  | 1 => (s.set F.CWY_MBS_CMD_GO 0).set F.CWY_MBS_CMD_RESULT 1
  | 2 => (s.set F.CWY_FENCECMD_GO 0).set F.CWY_FENCECMD_RESULT 1
  | 3 => (s.set F.CWY_RA_CMD_GO 0).set F.CWY_RA_CMD_RESULT 4
  | _ => s

/-- A Causeway link goes DOWN: unacknowledged frames are lost, frames that wait for room cannot be sent
(R441, R445, R446). -/
def cwDown (s : State) (l : Nat) : State :=
  if s.rd F.CWY_L_STAT_STATE l = 0 then s
  else
    let k := linkOf s l
    let s := linkCnt (setLink s l Link.empty) l 5 k.replay.length
    let s := k.waiting.foldl (fun s e => cwUnreach s e.1) s
    let s := if s.on F.CWY_L_STAT_UP l then
        linkCnt (((s.wr F.CWY_L_STAT_UP l 0).wr F.CWY_L_STAT_LINKCHG l 1).set F.CWY_IRQSTAT_LINK 1) l 4 else s
    let s := ((s.wr F.CWY_L_STAT_STATE l 0).wr I.cwSent l 0).wr I.cwGot l 0
    (s.wr I.cwRounds l 0).wr I.tmHave l 0

end Sys2Proof.Machine
end

