-- ==== Sys2Proof/Machine/Rings.lean ====
section
/-! DEFINITION.  Writes to physical memory by units of the device and by initiators: the last word of a
transmit ring slot marks the slot as written (R431, R455), and a supervisor core's link to the written
granule is lost (R139). -/

namespace Sys2Proof.Machine

/-- Where PKS begins in physical memory (R31). -/
abbrev pksBase := 0x10000000

/-- The first byte of the receive and the transmit ring of slot n (R290). -/
def rxRing (n : Nat) : Nat := 0x10000000 + 128 * n
def txRing (n : Nat) : Nat := 0x10100000 + 128 * n

/-- Marks the 32-byte units of the transmit rings whose last word a write to [a, a+n) touches. -/
def markRings (s : State) (a n : Nat) : State :=
  if a + n ≤ txRing 0 || txRing 0 + 0x100000 ≤ a then s
  else
    let lo := max a (txRing 0) - txRing 0
    let hi := min (a + n) (txRing 0 + 0x100000) - txRing 0
    -- unit u is touched where [lo, hi) meets [32 u + 28, 32 u + 32)
    s.over ((List.range (hi / 32 + 1 - lo / 32)).map (lo / 32 + ·)) fun s u =>
      if lo < 32 * u + 32 && 32 * u + 28 < hi then (s.wr I.txWr u 1).wr I.txWrC u 1 else s

/-- A write to [a, a+n) takes away the link of every supervisor core to a granule it touches. -/
def breakLinks (s : State) (a n : Nat) : State :=
  s.over ((List.range 4).filter fun c =>
    s.on I.linkV c && decide (s.rd I.linkA c < a + n) && decide (a < s.rd I.linkA c + 64)) fun s c => s.wr I.linkV c 0

/-- A byte string is written at a physical address. -/
def physWrite (s : State) (a : Nat) (b : List Byte) : State :=
  breakLinks (markRings (s.writeBytes a b) a b.length) a b.length

/-- A register ring of descriptors (R376): place of the next entry, or none where the ring is full. -/
def ringPlace (base size wp rp len : Nat) : Option Nat :=
  if (wp + 65536 - rp) % 65536 = 2 ^ size then none else some (base * 64 + len * (wp % 2 ^ size))

end Sys2Proof.Machine
end

