-- ==== Sys2Proof/Machine/Modes.lean ====
section
/-! DEFINITION.  What survives a reset, and the entries to RESET and FENCED (R41–R43, R65, R68, R72,
R497, R530). -/

namespace Sys2Proof.Machine

/-- Is the cell at this place of the PMU block a Nightwatch register (R43). -/
def nwRegister (a : Nat) : Bool :=
  a == 0x100800 || a == 0x100804 || a == 0x100810 || a == 0x100814 || a == 0x100818 || a == 0x10081C ||
    a == 0x100838 || (0x100860 ≤ a && a ≤ 0x10087F)

/-- The group of a cell outside the register space: its lifetime. -/
def cellGroup (id : Nat) : Option Nat :=
  if id / 32 < 0x2000000 then none else some ((id / 32 - 0x2000000) / 0x10000)

/-- Cells that keep their value through RESET (R43, R530): Nightwatch registers, Nightwatch's inner
state, the pins the board drives (VFUSEOK shows one), and the fuse array. -/
def keptByReset (id : Nat) : Bool :=
  match cellGroup id with
  | none => nwRegister (id / 32) || id == F.FUS_STAT_VFUSEOK.id
  | some g => g ≤ 2

/-- Cells that an entry to BOOT from FENCED or from a WATCH entered from DRAIN keeps besides: the HMN
registers, the unlock state of the debug port, retired pages and frames, and a fuse burn in progress
(R59, R84, R530). -/
def keptByBoot (id : Nat) : Bool :=
  keptByReset id || id == F.FUS_STAT_BUSY.id || id == F.FUS_PROG_GO.id ||
    match cellGroup id with
    | none => id / 32 / 0x100000 == 0x0A
    | some g => g == 3 || g == 4 || g == 5 || g == 7

/-- The state in which only the cells that `keep` names keep their values, and every list and table
is empty.  The memories, the waiting commands and the fuse marks stay. -/
def State.loseAll (s : State) (keep : Nat → Bool) : State :=
  { State.reset with
    pending := s.pending, cells := Tbl.keep keep s.cells, mem := s.mem, freeCtr := s.freeCtr,
    rdata := s.rdata, partialFuses := s.partialFuses }

/-- All PEN outputs take one level: 0 high-impedance, 1 low, 2 high. -/
def State.setPens (s : State) (v : Nat) : State :=
  (List.range 8).foldl (fun s k => s.wr I.pinPen k v) s

/-- Entry to RESET (R68): every register but those of Nightwatch takes its reset value, all outputs
go high-impedance; a fuse burn is cut short and its bit is marked as not defined (R84). -/
def enterReset (s : State) (cause : Nat) : State :=
  let s := if s.on I.fuseBurn then { s with partialFuses := (s.rd I.fuseBurn - 1) :: s.partialFuses } else s
  let s := s.loseAll keptByReset
  let s := ((s.set F.PMU_MODE_CURRENT mRESET).set F.PMU_MODE_CAUSE cause).set F.PMU_MODE_REFUSED 0
  ((((s.set I.watchEntry 0).set I.wakePend 0).set I.watchFromReset 0).set F.PMU_IRQSTAT_MODEDONE 1).setPens 0

/-- Is RSTOUT_N driven low (R72). -/
def rstoutLow (s : State) : Bool :=
  s.mode == mRESET || (s.mode == mBOOT && !s.on F.PMU_SEQCFG_DONE) ||
    (s.fabric && s.on F.SYS_RSTOUT_ASSERT)

/-- The interfaces an entry to FENCED brings down (R41, R365, R441): every Ethernet port and Causeway
link loses its link, and queued descriptors are discarded without completion records; drivers follow
the mode (R512). -/
def fenceInterfaces (s : State) : State :=
  let s := (List.range 8).foldl portDown { s with egress := [] }
  (List.range 14).foldl cwDown s

/-- Entry to FENCED (R42, R65): the mode and its cause change, every PEN output goes high-impedance at
once, Ethernet and Causeway go down. -/
def enterFenced (s : State) (cause : Nat) : State :=
  if s.mode == mRESET then s
  else if s.mode == mFENCED then s.set I.fencePend 0
  else
    let s := ((s.set F.PMU_MODE_CURRENT mFENCED).set F.PMU_MODE_CAUSE cause).set F.PMU_IRQSTAT_MODEDONE 1
    let s := (((s.set I.fencePend 0).set I.watchEntry 0).set I.wakePend 0).set I.bootPh 0
    fenceInterfaces (s.setPens 0)

/-- A fatal error (R42): if MLS accepts it as a trigger, the entry to FENCED waits for the latch
(R497), else it is immediate. -/
def fatalError (s : State) (cause : Nat) : State :=
  if s.mode == mRESET then s
  else if bitOf (s.rd F.MLS_ERRSEL_SEL) 6 && bitOf (s.rd F.MLS_SRCEN_SRCEN) 3 && s.on F.MLS_STAT_ARMED then
    (s.errEvent 6).set I.fencePend (cause + 1)
  else enterFenced (s.errEvent 6) cause

/-- PERSTSEEN is set in every cycle in which PERST_N is low (R532). -/
def perstSeen (s : State) : State := if s.on I.pinPerst then s else s.set F.HIF_LINKSTAT_PERSTSEEN 1

end Sys2Proof.Machine
end

