-- ==== Sys2Proof/Machine/Boot.lean ====
section
/-! DEFINITION.  From RST_N rising to the image (R62–R64, R72–R85, R95–R96, R518–R519, R534): straps,
the fuse load, REFCLK detection, the power sequence, the boot ROM, and the burning of fuses. -/

namespace Sys2Proof.Machine

/-! ## Fuse load -/

/-- A word of the fuse array as one load reads it: a bit whose burn was cut short reads either way
(R84); the k-th such bit takes the k-th free value drawn. -/
def readFuseWord (s : State) (w : Nat) : Nat :=
  (s.partialFuses.zipIdx).foldl
    (fun v e => if e.1 / 32 = w then putBit v (e.1 % 32) (bitOf (Config.freeNat (s.freeCtr + e.2)) 0) else v)
    (s.rd I.fuseArray w)

/-- Every word of the fuse array copied to its shadow (R74 step 2). -/
def loadShadows (s : State) : State :=
  let s' := (List.range 128).foldl (fun t w => t.wr F.FUS_SHADOW_WORD w (readFuseWord s w)) s
  { s' with freeCtr := s.freeCtr + s.partialFuses.length }

/-- Shadow word w. -/
def shadow (s : State) (w : Nat) : Nat := s.rd F.FUS_SHADOW_WORD w

/-- The run-time protection words: from the shadows, or zero after a failed integrity check (R75,
R90). -/
def loadProtection (s : State) (ok : Bool) : State :=
  let g := fun w => if ok then shadow s w else 0
  let s1 := ((((s.set F.FUS_PMHOST_RIGHTS (g 51)).set F.FUS_PMDBG_RIGHTS (g 52)).set F.FUS_PMSGC_RIGHTS
    (g 53)).set F.FUS_PMCWY_RIGHTS (g 54))
  let s2 := (s1.set F.FUS_PMBAR2_HI (g 55 / 2 ^ 16)).set F.FUS_PMBAR2_LO (g 55)
  ((s2.set F.FUS_PMMISC_RMBOX (bitN (g 56) 2)).set F.FUS_PMMISC_RMLS (bitN (g 56) 1)).set
    F.FUS_PMMISC_RFENCE (bitN (g 56) 0)

/-- One PMU_SEQSTEP register from its fuse image (R82 words 59–66). -/
def loadSeqStep (s : State) (n : Nat) : State :=
  let v := shadow s (59 + n)
  ((((s.wr F.PMU_SEQSTEP_VALID n (bitN v 31)).wr F.PMU_SEQSTEP_WATCHOFF n (bitN v 30)).wr
    F.PMU_SEQSTEP_WAITPG n (bitN v 29)).wr F.PMU_SEQSTEP_PEN n (bits v 18 16)).wr F.PMU_SEQSTEP_DELAY n
    (bits v 15 0)

/-- The fuse-marked reset values (R43, R82). -/
def loadFuseDefaults (s : State) : State :=
  let s := (List.range 8).foldl loadSeqStep s
  let a := shadow s 67
  let s := ((s.set F.PMU_AVSCFG_EN (bitN a 15)).set F.PMU_AVSCFG_ADDR (bits a 14 8)).set
    F.PMU_AVSCFG_MARGIN (bits a 7 0)
  let t := shadow s 68
  let s := ((s.set F.PMU_THERMCFG_CRIT (bits t 23 16)).set F.PMU_THERMCFG_THROT (bits t 15 8)).set
    F.PMU_THERMCFG_WARN (bits t 7 0)
  ((s.set F.SYS_ID_GRADE (bitN (shadow s 48) 7)).set F.SYS_SERIAL_LO_SERIAL (shadow s 124)).set
    F.SYS_SERIAL_HI_SERIAL (shadow s 125)

/-- The debug level (R75, R85): 0 OPEN, 1 AUTH, 2 CLOSED. -/
def debugLevel (s : State) : Nat :=
  if !s.on F.FUS_STAT_LOADED || s.on F.FUS_STAT_FUSEERR then 2
  else
    let d := bits (shadow s 48) 5 4
    if d ≤ 1 then d else 2

/-! ## Power sequence -/

/-- The boot ROM starts (R73–R75, R78, R95, R441): it halts on a fuse failure or a reserved strap, else it
waits for an image from the latched source (QSPI for the WATCH strap). -/
def romStart (s : State) : State :=
  if s.on F.FUS_STAT_FUSEERR then (s.set F.SYS_BOOTSTAT_CODE 0x22).set I.romSt 2
  else
    let strap := s.rd I.strap
    if 5 ≤ strap then (s.set F.SYS_BOOTSTAT_CODE 0x21).set I.romSt 2
    else
      let src := if strap = 4 then 0 else strap
      let s := (((s.set F.SYS_BOOTSTAT_CODE 0).set F.SYS_BOOTSTAT_SOURCE src).set I.bootSrc src).set I.romSt 1
      let s := s.set I.bootCopy 0
      let s := if src = 2 then (s.set F.CWY_CTRL_RUN 1).wr F.CWY_L_CFG_EN 0 1 else s
      if src = 1 then s.set F.HIF_BAR2BASE_BASE 0x200 else s

/-- The sequence goes on at the first valid step from k: it asserts that step's PEN and waits its
DELAY; after the last step DONE is set and the boot ROM starts (R62). -/
def seqFrom (s : State) (k : Nat) : State :=
  match (List.range 8).find? fun j => decide (k ≤ j) && s.on F.PMU_SEQSTEP_VALID j with
  | some j =>
    ((s.set I.seqIdx j).set I.seqWaitPg 0).wr I.pinPen (s.rd F.PMU_SEQSTEP_PEN j) 2
  | none => romStart ((((s.set F.PMU_SEQCFG_DONE 1).set I.seqIdx 8).set I.seqWaitPg 0).set I.bootPh 5)

/-- The start of the power sequence: DONE and SEQFAIL clear, PEN outputs not yet driven go low
(R62, R64, R518). -/
def seqStart (s : State) : State :=
  let s := ((s.set F.PMU_SEQCFG_DONE 0).set F.PMU_SEQCFG_SEQFAIL 0).set I.bootPh 4
  let s := (List.range 8).foldl (fun s k => if s.rd I.pinPen k = 0 then s.wr I.pinPen k 1 else s) s
  seqFrom s 0

/-- Is a sequence step in progress. -/
def seqRunning (s : State) : Bool := s.mode == mBOOT && s.rd I.bootPh == 4 && s.rd I.seqIdx < 8

/-- NIGHTWATCH_START (R519). -/
def execNightwatchStart (s : State) : Host.Outcome State Fault Refusal := go (s.set I.nwStarted 1)

/-- RST_N_LOW (R68, R519): once Nightwatch runs, RST_N low at two edges enters RESET. -/
def execRstNLow (s : State) : Host.Outcome State Fault Refusal :=
  if s.on I.nwStarted then go ((enterReset s 1).set I.pinRstN 0) else go s

/-- RST_N_RISE (R73, R74 step 1, R534): latches the straps; BOOT begins with the fuse load, or WATCH
for the strap 0b100. -/
def execRstNRise (bootsel : BitVec 3) (s : State) : Host.Outcome State Fault Refusal :=
  if s.on I.nwStarted && s.mode == mRESET then
    let s := ((s.set I.pinRstN 1).set I.strap bootsel.toNat).set F.PMU_MODE_CAUSE 1
    let s := ((s.set I.bootPh 1).set F.PMU_IRQSTAT_MODEDONE 1).setPens 1
    if bootsel.toNat = 4 then
      go ((s.set F.PMU_MODE_CURRENT mWATCH).set I.watchFromReset 1)
    else
      let s := s.set F.PMU_MODE_CURRENT mBOOT
      go (perstSeen s)
  else go s

/-- FUSE_LOAD_DONE (R43, R74 step 2, R75, R84, R90, R534). -/
def execFuseLoadDone (intact : Bool) (s : State) : Host.Outcome State Fault Refusal :=
  if s.rd I.bootPh = 1 && !s.on F.FUS_STAT_BUSY && (s.mode == mBOOT || s.mode == mWATCH) then
    let s := (loadShadows s).set F.FUS_STAT_LOADED 1
    let s := if intact then s else s.set F.FUS_STAT_FUSEERR 1
    let s := loadFuseDefaults (loadProtection s intact)
    go (s.set I.bootPh (if s.mode == mBOOT then 2 else 0))
  else go s

/-- Does a count of REFCLK edges over 8 NWCLK periods match a frequency in Hz within ±1 % (R45). -/
def refMatches (edges hz : Nat) : Bool :=
  let x := edges * 32768 * 100
  decide (8 * hz * 99 ≤ x) && decide (x ≤ 8 * hz * 101)

/-- REFCLK_DETECT_DONE (R45). -/
def execRefclkDetectDone (edges : Nat) (s : State) : Host.Outcome State Fault Refusal :=
  if s.mode == mBOOT && s.rd I.bootPh == 2 then
    if refMatches edges 25000000 then go ((s.set F.PMU_CLK_REFFREQ 1).set I.bootPh 3)
    else if refMatches edges 156250000 then go ((s.set F.PMU_CLK_REFFREQ 2).set I.bootPh 3)
    else go ((s.set F.PMU_CLK_REFFREQ 0).set I.bootPh 0)
  else go s

/-- The cells of a block of the register space take their reset values. -/
def resetBlock (s : State) (blk : Nat) : State :=
  { s with cells := Tbl.keep (fun id => !(id / 32 / 0x100000 == blk)) s.cells }

/-- MAIN_PLL_LOCK (R74 step 4, R401): the tick runs, TMU takes its reset values, the power sequence
starts. -/
def execMainPllLock (s : State) : Host.Outcome State Fault Refusal :=
  if s.mode == mBOOT && s.rd I.bootPh == 3 then
    go (seqStart (resetBlock ((s.set F.PMU_CLK_PLLLOCK 1).set I.tickRun 1) 6))
  else go s

/-- SEQ_DELAY_EXPIRY (R62). -/
def execSeqDelayExpiry (s : State) : Host.Outcome State Fault Refusal :=
  if seqRunning s && !s.on I.seqWaitPg then
    let k := s.rd I.seqIdx
    if s.on F.PMU_SEQSTEP_WAITPG k && !s.on I.pinPgood then go (s.set I.seqWaitPg 1) else go (seqFrom s (k + 1))
  else go s

/-- SEQ_PGOOD (R62): PGOOD goes high; a step that waits for it completes. -/
def execSeqPgood (s : State) : Host.Outcome State Fault Refusal :=
  let s := s.set I.pinPgood 1
  if seqRunning s && s.on I.seqWaitPg then go (seqFrom s (s.rd I.seqIdx + 1)) else go s

/-- SEQFAIL: the power sequence or PGOOD failed, a fatal error (R63, R518). -/
def seqFail (s : State) : State :=
  fatalError ((s.set F.PMU_SEQCFG_SEQFAIL 1).set F.PMU_IRQSTAT_SEQFAIL 1) 9

/-- SEQ_PGTIMEOUT (R63). -/
def execSeqPgtimeout (s : State) : Host.Outcome State Fault Refusal :=
  if seqRunning s && s.on I.seqWaitPg && !s.on I.pinPgood then go (seqFail s) else go s

/-- PGOOD_FAIL (R518). -/
def execPgoodFail (s : State) : Host.Outcome State Fault Refusal :=
  let s := s.set I.pinPgood 0
  if s.on F.PMU_SEQCFG_DONE && (s.mode == mBOOT || s.serving) then go (seqFail s) else go s

/-- REFCLK_LOSS (R46). -/
def execRefclkLoss (s : State) : Host.Outcome State Fault Refusal :=
  if s.fabric then
    let s := ((s.set F.PMU_CLK_REFLOSS 1).set F.PMU_CLK_PLLLOCK 0).set I.tickRun 0
    go (fatalError (s.set F.PMU_IRQSTAT_REFLOSS 1) 10)
  else go s

/-! ## Boot images (R76–R79, R95–R96) -/

/-- Bytes [a, a+n) of a header. -/
def hdrBytes (h : List Byte) (a n : Nat) : List Byte := (List.range n).map fun k => h.getD (a + k) 0

/-- The little-endian field of n bytes at offset a of a header. -/
def hdrLE (h : List Byte) (a n : Nat) : Nat := ofLE (hdrBytes h a n)

/-- The 48 bytes of key-hash slot k (R82). -/
def keySlot (s : State) (k : Nat) : List Byte :=
  (List.range 12).flatMap fun j => leBytes 4 (shadow s (12 * k + j))

/-- Is a key slot, in the shadows, neither blank nor revoked (R77). -/
def slotUsable (s : State) (k : Nat) : Bool :=
  !(keySlot s k).all (· == 0) && !bitOf (shadow s 48) k

/-- The rollback count: the ones of fuse words 49–50. -/
def rollbackCount (s : State) : Nat := popcount 32 (shadow s 49) + popcount 32 (shadow s 50)

/-- Check 5 of R77: VERSION, LENGTH, LOADADDR and ENTRY within the limits of R76. -/
def imageRangeOk (h : List Byte) : Bool :=
  let len := hdrLE h 0x0C 4
  let load := hdrLE h 0x10 8
  let entry := hdrLE h 0x18 8
  decide (hdrLE h 0x08 4 ≤ 64) && decide (len % 16 = 0) && decide (len ≤ 6 * 2 ^ 20) &&
    decide (0x20000000 ≤ load) && decide (load + len ≤ 0x20800000) && decide (load ≤ entry) &&
    decide (entry < load + len)

/-- Checks 1–5 of R77: the code of the first that fails. -/
def headerFault (s : State) (h : List Byte) : Option Nat :=
  let slot := hdrLE h 6 1
  if !(hdrBytes h 0 4 == [0x41#8, 0x4C#8, 0x42#8, 0x49#8] && hdrLE h 4 2 == 1 && hdrLE h 7 1 == 0 &&
      (hdrBytes h 0xE0 32).all (· == 0)) then some 0x10
  else if !(decide (slot ≤ 3) && slotUsable s slot) then some 0x11
  else if !(Config.sha384 (hdrBytes h 0x20 96) == keySlot s slot) then some 0x12
  else if hdrLE h 8 4 < rollbackCount s then some 0x14
  else if !imageRangeOk h then some 0x15
  else none

/-- Check 6 of R77: the signature over header bytes 0x00–0x7F followed by the body. -/
def signatureOk (h body : List Byte) : Bool :=
  Config.ecdsaP384 (hdrBytes h 0x20 96) (hdrBytes h 0x80 96) (Config.sha384 (hdrBytes h 0 128 ++ body))

/-- A rejected or timed-out image (R78). -/
def imageRejected (s : State) (code : Nat) : State :=
  let s := (s.set F.SYS_BOOTSTAT_CODE code).set I.romSt 1
  if s.rd I.bootSrc = 0 then
    if s.rd I.bootCopy = 0 then s.set I.bootCopy 1
    else if bitOf (shadow s 48) 6 then (s.set I.bootSrc 3).set F.SYS_BOOTSTAT_SOURCE 3
    else s.set I.romSt 2
  else s

/-- An accepted image runs (R79): AUTH, the slot, and SVC0 at ENTRY. -/
def imageAccepted (s : State) (h : List Byte) : State :=
  ((((s.set F.SYS_BOOTSTAT_AUTH 1).set F.SYS_BOOTSTAT_CODE 1).set F.SYS_BOOTSTAT_SLOT (hdrLE h 6 1)).set
    I.romSt 3).wr I.pcb 128 (hdrLE h 0x18 8)

/-- The images of PCIe and Causeway lie in SYM: header at offset 0, body at 0x100 (R96). -/
def bootInSym (s : State) : Bool := s.rd I.bootSrc == 1 || s.rd I.bootSrc == 2

/-- Is an image presented to the boot ROM: always from QSPI and UART; from PCIe while H2S is set; from
Causeway once an END frame has come (R78, R95, R468). -/
def imagePresented (s : State) : Bool :=
  if s.rd I.bootSrc = 1 then s.on F.HIF_DOORBELL_H2S
  else if s.rd I.bootSrc = 2 then s.on I.bootImg
  else true

/-- The check of an image in place in SYM, and its placing at LOADADDR (R95, R96). -/
def checkInSym (s : State) : State :=
  let h := s.readBytes 0x20000000 256
  match headerFault s h with
  | some c => imageRejected s c
  | none =>
    let body := s.readBytes 0x20000100 (hdrLE h 0x0C 4)
    if signatureOk h body then
      imageAccepted (s.copyMem 0x20000100 (hdrLE h 0x10 8) (hdrLE h 0x0C 4)) h
    else imageRejected s 0x13

/-- The check of an image read from QSPI or UART: the body goes to LOADADDR before check 6 (R96). -/
def checkFromSource (s : State) (h body : List Byte) : State :=
  match headerFault s h with
  | some c => imageRejected s c
  | none =>
    let b := hdrBytes body 0 (hdrLE h 0x0C 4)
    let s := s.writeBytes (hdrLE h 0x10 8) b
    if signatureOk h b then imageAccepted s h else imageRejected s 0x13

/-- BOOT_IMAGE_CHECK (R77–R79, R95, R96).  `hdr` and `body` are what QSPI or UART delivers; an image
from PCIe or Causeway is the one in SYM. -/
def execBootImageCheck (responded : Bool) (hdr body : List Byte) (s : State) :
    Host.Outcome State Fault Refusal :=
  if s.mode == mBOOT && s.rd I.romSt == 1 then
    if !responded then go (imageRejected s 0x20)
    else if !imagePresented s then go s
    else
      let s := ((s.set F.HIF_DOORBELL_H2S (if s.rd I.bootSrc = 1 then 0 else s.rd F.HIF_DOORBELL_H2S)).set
        I.bootImg 0).set F.SYS_BOOTSTAT_CODE 0
      if bootInSym s then go (checkInSym s) else go (checkFromSource s hdr body)
  else go s

/-! ## Burning fuses (R80, R81, R83, R84) -/

/-- Is key slot k, in the fuse array as it stands, neither blank nor revoked (R81). -/
def slotLive (s : State) (k : Nat) : Bool :=
  (List.range 12).any (fun j => s.on I.fuseArray (12 * k + j)) && !bitOf (s.rd I.fuseArray 48) k

/-- Would this burn revoke the last live slot (R81). -/
def revokesLast (s : State) (word bit : Nat) : Bool :=
  word == 48 && decide (bit < 4) && slotLive s bit &&
    !((List.range 4).any fun k => k != bit && slotLive s k)

/-- Is the writer a supervisor core in supervisor privilege (R83). -/
def fromSupervisor (s : State) : Init → Bool
  | .svc n => bitOf (s.rd I.scr (n.val * 16)) 0
  | _ => false

/-- A write of FUS_PROG (R9, R81, R83): the burn starts, or PROGERR is set and nothing burns. -/
def fusProgWrite (s : State) (ini : Init) (vfuse : Bool) (v : Nat) : State :=
  let s := ((s.set F.FUS_STAT_VFUSEOK (b2n vfuse)).set F.FUS_PROG_WORD (bits v 22 16)).set F.FUS_PROG_BIT (bits v 4 0)
  if !bitOf v 31 || s.on F.FUS_STAT_BUSY then s
  else if fromSupervisor s ini && vfuse && (s.mode == mBOOT || s.mode == mSERVICE) &&
      !revokesLast s (s.rd F.FUS_PROG_WORD) (s.rd F.FUS_PROG_BIT) then
    ((s.set F.FUS_STAT_BUSY 1).set F.FUS_PROG_GO 1).set I.fuseBurn (s.rd F.FUS_PROG_WORD * 32 + s.rd F.FUS_PROG_BIT + 1)
  else s.set F.FUS_STAT_PROGERR 1

/-- FUS_PROG (R9, R81, R83); `vfuse` is the VFUSE pin at the write. -/
def execFusProg (ini : Init) (vfuse : Bool) (v : Word) (s : State) : Host.Outcome State Fault Refusal :=
  if s.fabric then go (fusProgWrite s ini vfuse v.toNat) else go s

/-- FUSE_BURN_DONE (R84): the bit is burned in the array; its shadow waits for the next BOOT. -/
def execFuseBurnDone (s : State) : Host.Outcome State Fault Refusal :=
  if s.on I.fuseBurn then
    let k := s.rd I.fuseBurn - 1
    go ((((s.wr I.fuseArray (k / 32) (setBit (s.rd I.fuseArray (k / 32)) (k % 32))).set I.fuseBurn 0).set
      F.FUS_STAT_BUSY 0).set F.FUS_PROG_GO 0)
  else go s

/-- A write that can only raise or only lower a bound: the tighter value stays (R90). -/
def tightenBar2 (s : State) (v : Nat) : State :=
  let lo := bits v 15 0
  let hi := bits v 31 16
  let s := if s.rd F.FUS_PMBAR2_LO ≤ lo then s.set F.FUS_PMBAR2_LO lo else s
  if hi ≤ s.rd F.FUS_PMBAR2_HI then s.set F.FUS_PMBAR2_HI hi else s

/-- A write to run-time protection word 0–5: PMHOST, PMDBG, PMSGC, PMCWY, PMBAR2, PMMISC (R90). -/
def protectionWrite (s : State) (reg v : Nat) : State :=
  match reg with
  | 0 => s.set F.FUS_PMHOST_RIGHTS (Nat.land (s.rd F.FUS_PMHOST_RIGHTS) v)
  | 1 => s.set F.FUS_PMDBG_RIGHTS (Nat.land (s.rd F.FUS_PMDBG_RIGHTS) v)
  | 2 => s.set F.FUS_PMSGC_RIGHTS (Nat.land (s.rd F.FUS_PMSGC_RIGHTS) v)
  | 3 => s.set F.FUS_PMCWY_RIGHTS (Nat.land (s.rd F.FUS_PMCWY_RIGHTS) v)
  | 4 => tightenBar2 s v
  | _ =>
    ((s.set F.FUS_PMMISC_RMBOX (Nat.land (s.rd F.FUS_PMMISC_RMBOX) (bitN v 2))).set F.FUS_PMMISC_RMLS
      (Nat.land (s.rd F.FUS_PMMISC_RMLS) (bitN v 1))).set F.FUS_PMMISC_RFENCE
      (Nat.land (s.rd F.FUS_PMMISC_RFENCE) (bitN v 0))

/-- PROTECTION_MAP_WRITE (R90). -/
def execProtectionMapWrite (_ini : Init) (reg : Fin 6) (v : Word) (s : State) :
    Host.Outcome State Fault Refusal :=
  if s.fabric then go (protectionWrite s reg.val v.toNat) else go s

end Sys2Proof.Machine
end

