-- ==== Sys2Proof/Machine/CpgMap.lean ====
section
/-! DEFINITION.  The context maps, the pools of CST pages, and the frames of the signal cores: the
primitives that the scheduler and the pager share (R98, R216–R219, R223–R228, R240). -/

namespace Sys2Proof.Machine

/-! ## Tasks, as far as the pager sees them -/

abbrev tEMPTY := 0
abbrev tWAIT := 1
abbrev tREADY := 2
abbrev tCOMMITTED := 3
abbrev tRUNNING := 4
abbrev tPAGEWAIT := 5

/-- The state of a task slot (R184). -/
def taskSt (s : State) (t : Nat) : Nat := s.rd F.TSU_T_STAT_STATE t

/-- Does the task have a job in progress (R191, chapter 6 introduction). -/
def jobInProgress (s : State) (t : Nat) : Bool :=
  taskSt s t == tCOMMITTED || taskSt s t == tRUNNING || taskSt s t == tPAGEWAIT ||
    (taskSt s t == tREADY && s.on F.TSU_T_STAT_RESUME t) || s.on I.jCancel t

/-- The slots that hold a task, in ascending TID. -/
def tasks (s : State) : List Nat := s.nonzero F.TSU_T_STAT_STATE

/-! ## Map entries -/

abbrev cFREE := 0
abbrev cALLOC := 1
abbrev cQUAR := 2

/-- The number of the map entry of page v of a context. -/
def entry (cid v : Nat) : Nat := 16 * cid + v

/-- The state of a context (R216). -/
def ctxState (s : State) (cid : Nat) : Nat := s.rd F.CHW_CTX_STAT_STATE cid

/-- LVL of an entry: 0 not in memory, 1 in CST, 2 in DRAM, 3 MOVING. -/
def lvl (s : State) (cid v : Nat) : Nat := s.rd I.mapLvl (entry cid v)

/-- Is the entry NOTPRESENT (R218). -/
def notPresent (s : State) (cid v : Nat) : Bool := lvl s cid v == 0 && !s.on I.mapOd (entry cid v)

/-- Is the entry an untouched on-demand page (R218). -/
def untouched (s : State) (cid v : Nat) : Bool := lvl s cid v == 0 && s.on I.mapOd (entry cid v)

/-- The physical address of CST page n (R217). -/
def cstAddr (page : Nat) : Nat := 4096 * page

/-- The physical address of an entry's CST page. -/
def pageAddr (s : State) (cid v : Nat) : Nat := cstAddr (s.rd I.mapPage (entry cid v))

/-- The physical address of the DRAM slot of an entry (chapter 7, Level 2). -/
def slotAddr (s : State) (cid v : Nat) : Nat := s.rd F.CPG_SPILLBASE_BASE * 65536 + 4096 * entry cid v

/-- The pages of a page mask, in ascending order. -/
def pagesOf (mask : Nat) : List Nat := (List.range 16).filter (bitOf mask)

/-- A page mask of a list. -/
def maskOf (l : List Nat) : Nat := l.foldl setBit 0

/-! ## Frames -/

abbrev fFREE := 0
abbrev fSTAGED := 1
abbrev fCACHED := 2
abbrev fWBPEND := 3
abbrev fRESERVE := 4
abbrev fBAD := 5

/-- The number of frame f of core c: f = 0–7 are X0–X7, 8–15 are Y0–Y7. -/
def frameNo (c f : Nat) : Nat := 16 * c + f

/-- The physical address of a frame in its core's local window (R33, R98). -/
def frameAddr (i : Nat) : Nat :=
  let f := i % 16
  0x30000000 + i / 16 * 0x40000 + (if f < 8 then f * 0x1000 else 0x10000 + (f - 8) * 0x1000)

/-- Is the frame a reserve frame: X7 or Y7. -/
def isReserve (i : Nat) : Bool := i % 8 == 7

/-- The state of a frame; a retired one is BAD whatever else (R247, R248). -/
def frSt (s : State) (i : Nat) : Nat := if s.on I.frBad i then fBAD else s.rd F.CPG_FRAME_STATE i

/-- The STATE a frame shows: a reserve frame not in use is RESERVE. -/
def frShown (s : State) (i : Nat) : Nat := if frSt s i = fFREE && isReserve i then fRESERVE else frSt s i

/-- The frames that hold something, in ascending number. -/
def frames (s : State) : List Nat := s.nonzero F.CPG_FRAME_STATE

/-- Does frame i hold page v of a context. -/
def holds (s : State) (i cid v : Nat) : Bool :=
  s.rd F.CPG_FRAME_CID i == cid && s.rd F.CPG_FRAME_VPAGE i == v && frSt s i != fFREE && frSt s i != fBAD

/-- The frames of core c that hold page v of a context. -/
def framesOn (s : State) (c cid v : Nat) : List Nat :=
  (frames s).filter fun i => i / 16 == c && holds s i cid v

/-- A frame becomes empty: FREE, or RESERVE for X7 and Y7. -/
def emptyFrame (s : State) (i : Nat) : State :=
  ((((((s.wr F.CPG_FRAME_STATE i fFREE).wr F.CPG_FRAME_DIRTY i 0).wr F.CPG_FRAME_VPAGE i 0).wr
    F.CPG_FRAME_CID i 0).wr I.frOwner i 0).wr I.frIn i 0).wr I.frOut i 0

/-- A frame is used: it becomes the most recently used one. -/
def touchFrame (s : State) (i : Nat) : State :=
  (s.wr I.frLru i (s.rd I.useSeq)).set I.useSeq (s.rd I.useSeq + 1)

/-- A frame holds a clean copy that no job uses; a reserve frame returns to RESERVE instead (R223,
R225). -/
def toCached (s : State) (i : Nat) : State :=
  if isReserve i then emptyFrame s i
  else touchFrame (((s.wr F.CPG_FRAME_STATE i fCACHED).wr F.CPG_FRAME_DIRTY i 0).wr I.frOwner i 0) i

/-- The owner of a frame: a task. -/
def ownedBy (s : State) (i t : Nat) : Bool := s.rd I.frOwner i == t + 1

/-- The frames staged for task t. -/
def framesFor (s : State) (t : Nat) : List Nat := (frames s).filter fun i => ownedBy s i t

/-- The frame of core c in which a page of task t's context is staged and whole (R106). -/
def stagedFrame (s : State) (c t cid v : Nat) : Option Nat :=
  (framesOn s c cid v).find? fun i => ownedBy s i t && frSt s i == fSTAGED && !s.on I.frIn i

/-- A store, or a bank save, into a staged frame: frame and entry become dirty (R217, R223). -/
def markDirty (s : State) (i : Nat) : State :=
  (s.wr F.CPG_FRAME_DIRTY i 1).wr I.mapDirty (entry (s.rd F.CPG_FRAME_CID i) (s.rd F.CPG_FRAME_VPAGE i)) 1

/-! ## Pins (R228) -/

/-- Is page v of a context in the working set of a job in progress. -/
def heldByJob (s : State) (cid v : Nat) : Bool :=
  (tasks s).any fun t =>
    jobInProgress s t && s.on I.jCv t && s.rd I.jCid t == cid && bitOf (Nat.lor (s.rd I.jWs t) (s.rd I.stSet t)) v

/-- PIN of an entry: staged somewhere, awaiting write-back, in a job's working set, or pinned by its
context (R228). -/
def pinned (s : State) (cid v : Nat) : Bool :=
  s.on F.CHW_CTX_ATTR_PIN cid || heldByJob s cid v ||
    (frames s).any fun i => holds s i cid v && (frSt s i == fSTAGED || frSt s i == fWBPEND)

/-- JOBPIN: does a job in progress, or the write-back that follows one, pin a page of the context (R221,
R228). -/
def jobPin (s : State) (cid : Nat) : Bool :=
  (tasks s).any (fun t => jobInProgress s t && s.on I.jCv t && s.rd I.jCid t == cid) ||
    (frames s).any fun i => s.rd F.CPG_FRAME_CID i == cid && frSt s i == fWBPEND

/-- A map entry as CHW_MAPv reads it (R217). -/
def mapWord (s : State) (cid v : Nat) : Nat :=
  let e := entry cid v
  lvl s cid v * 2 ^ 30 + b2n (lvl s cid v != 0 && pinned s cid v) * 2 ^ 29 + s.rd I.mapDirty e * 2 ^ 28 +
    s.rd I.mapOd e * 2 ^ 27 + s.rd I.mapMem e * 2 ^ 26 +
    (if lvl s cid v = 1 then s.rd I.mapPage e else if lvl s cid v = 2 then e else 0)

/-- The number of pages of a context at a level. -/
def atLevel (s : State) (cid l : Nat) : Nat := ((List.range 16).filter fun v => lvl s cid v == l).length

/-! ## Pages and pools -/

/-- The mode of a CST bank: 0 ON, 1 AUTO, 2 RETAIN, 3 OFF (R55). -/
def bankMode (s : State) (b : Nat) : Nat := bits (s.rd F.PMU_CSTBANK_MODE) (2 * b + 1) (2 * b)

/-- Is a bank allocatable: in ON or AUTO (R56). -/
def bankOk (s : State) (b : Nat) : Bool := decide (bankMode s b ≤ 1)

/-- Free pages in the banks that satisfy p. -/
def freeIn (s : State) (p : Nat → Bool) : Nat :=
  ((List.range 16).filter p).foldl (fun n b => n + (2048 - s.rd I.bankBusy b)) 0

/-- FREE: allocatable free pages less the untouched on-demand pages (R219). -/
def freePages (s : State) : Nat := freeIn s (bankOk s) - s.rd I.odLeft

/-- Does an allocation of n pages to pool p fit, given FREE and the use of each pool (R219). -/
def fitsPool (s : State) (free : Nat) (used : Nat → Nat) (n p : Nat) : Bool :=
  decide (n + ((List.range 3).filter (· != p)).foldl
    (fun r q => r + (s.rd F.CPG_POOLCFG_MIN q - used q)) 0 ≤ free)

/-- Does an allocation fit now. -/
def fitsNow (s : State) (n p : Nat) : Bool := fitsPool s (freePages s) (s.rd F.CPG_POOLUSE_USED ·) n p

/-- The first free CST page at or after `from`, cyclically, in a bank that satisfies p. -/
def findPage (s : State) (p : Nat → Bool) (start : Nat) : Nat → Option Nat
  | 0 => none
  | k + 1 =>
    let n := (start + (32767 - k)) % 32768
    if p (n / 2048) && !s.on I.pgUse n && !s.on I.pgBad n then some n else findPage s p start k

/-- Which free page CPG takes: the spec names no order, so the search starts at a free value. -/
def pickPage (s : State) (p : Nat → Bool) : Option (Nat × State) :=
  let r := s.draw
  (findPage s p (r.1 % 32768) 32768).map fun n => (n, r.2)

/-- CST page n becomes the page of an entry, in CST. -/
def bindPage (s : State) (cid v n : Nat) : State :=
  let e := entry cid v
  ((((s.wr I.mapLvl e 1).wr I.mapPage e n).wr I.mapDirty e 0).wr I.pgUse n (e + 1)).wr I.bankBusy (n / 2048)
    (s.rd I.bankBusy (n / 2048) + 1)

/-- The state with one more, or one fewer, page in a pool's use. -/
def useMore (s : State) (p : Nat) : State := s.wr F.CPG_POOLUSE_USED p (s.rd F.CPG_POOLUSE_USED p + 1)
def useLess (s : State) (p : Nat) : State := s.wr F.CPG_POOLUSE_USED p (s.rd F.CPG_POOLUSE_USED p - 1)

/-- The CST page of an entry returns to the free list, unless it is retired (R221, R248). -/
def unbindPage (s : State) (cid v : Nat) : State :=
  let e := entry cid v
  let n := s.rd I.mapPage e
  let s := (s.wr I.pgUse n 0).wr I.mapPage e 0
  let s := if s.on I.pgBad n then s else s.wr I.bankBusy (n / 2048) (s.rd I.bankBusy (n / 2048) - 1)
  useLess s (s.rd I.ctxPool cid)

/-- A zero-filled CST page for an entry, counted in its pool, from an allocatable bank. -/
def allocPage (s : State) (cid v : Nat) : Option State :=
  (pickPage s (bankOk s)).map fun r =>
    useMore ((bindPage r.2 cid v r.1).loseMem (cstAddr r.1) 4096) (s.rd I.ctxPool cid)

/-- The banks a first access takes a page from: ON or AUTO if one has a free page, else RETAIN (R218). -/
def odBanks (s : State) (b : Nat) : Bool :=
  if 0 < freeIn s (bankOk s) then bankOk s b else bankMode s b == 2

/-- ONDEMAND_FIRST_ACCESS (R218): an untouched page takes a zero-filled page from its pool's count; none
where every free page has been retired since. -/
def firstAccess (s : State) (cid v : Nat) : Option State :=
  (pickPage s (odBanks s)).map fun r =>
    ((bindPage r.2 cid v r.1).loseMem (cstAddr r.1) 4096).set I.odLeft (s.rd I.odLeft - 1)

/-! ## Frame copies -/

/-- A CPG statistics counter counts (R17). -/
def cpgCount (s : State) (f : Fld) (n : Nat := 1) : State := s.bumpBy f 0 (some F.CPG_IRQSTAT_CNTOVF) n

/-- Does frame i belong to the working set of a job that has been dispatched and has not ended. -/
def ofDispatched (s : State) (i : Nat) : Bool :=
  s.on I.frOwner i && jobInProgress s (s.rd I.frOwner i - 1) && s.on I.jDisp (s.rd I.frOwner i - 1) &&
    bitOf (s.rd I.jWs (s.rd I.frOwner i - 1)) (s.rd F.CPG_FRAME_VPAGE i)

/-- A changed page in CST: CACHED copies are invalidated; STAGED copies of jobs not yet dispatched are
staged again (R238, R240). -/
def refreshCopies (s : State) (cid v : Nat) : State :=
  s.over ((frames s).filter fun i => holds s i cid v) fun s i =>
    if frSt s i = fCACHED then emptyFrame s i
    else if frSt s i = fSTAGED && !ofDispatched s i then (s.wr I.frIn i 1).wr F.CPG_FRAME_DIRTY i 0
    else s

/-- A write to CST page n by an initiator other than CPG (CST_EXTERNAL_WRITE, R240). -/
def cstWritten (s : State) (n : Nat) : State :=
  if s.on I.pgUse n then
    let e := s.rd I.pgUse n - 1
    refreshCopies s (e / 16) (e % 16)
  else s

/-- The other copies of a page, once one of them has been written back (R227). -/
def invalidateOthers (s : State) (i cid v : Nat) : State :=
  s.over ((frames s).filter fun j => j != i && holds s j cid v) fun s j =>
    if frSt s j = fSTAGED then (s.wr I.frIn j 1).wr F.CPG_FRAME_DIRTY j 0 else emptyFrame s j

/-- Every frame copy of a context is discarded without write-back (R221, R246). -/
def discardContext (s : State) (cid : Nat) : State :=
  s.over ((frames s).filter fun i => s.rd F.CPG_FRAME_CID i == cid) emptyFrame

/-- The frames staged for a task are discarded without write-back (R247). -/
def discardFrames (s : State) (t : Nat) : State := s.over (framesFor s t) emptyFrame

/-- The frames of a job that has left its core or ended: dirty ones await write-back, clean ones become
CACHED (R223, R227). -/
def releaseFrames (s : State) (t : Nat) : State :=
  s.over (framesFor s t) fun s i =>
    if s.on F.CPG_FRAME_DIRTY i then (s.wr F.CPG_FRAME_STATE i fWBPEND).wr I.frOwner i 0 else toCached s i

/-- The task has no staged set. -/
def noSet (s : State) (t : Nat) : State := (s.wr I.stSet t 0).wr I.stCore t 0

/-- A staged set that no job uses yet becomes cached copies; transfers already in flight go on (R224). -/
def setToCached (s : State) (t : Nat) : State :=
  if s.on I.stCore t then noSet (s.over (framesFor s t) toCached) t else s

/-- Is task t's set staged, whole, on core c (R193, R230). -/
def setStaged (s : State) (c t : Nat) : Bool :=
  s.rd I.stCore t == c + 1 &&
    (pagesOf (s.rd I.stSet t)).all fun v =>
      (framesOn s c (s.rd I.jCid t) v).any fun i => ownedBy s i t && !s.on I.frIn i

/-- Does core c hold every page of a set as a staged or cached copy (R191, R192). -/
def holdsSet (s : State) (c cid mask : Nat) : Bool :=
  (pagesOf mask).all fun v =>
    (framesOn s c cid v).any fun i => (frSt s i == fSTAGED || frSt s i == fCACHED) && !s.on I.frIn i

/-- An access to a CST bank in AUTO wakes it (R55). -/
def cstTouch (s : State) (a : Nat) : State :=
  let b := a / 0x800000
  if b < 16 && bankMode s b == 1 then s.set F.PMU_CSTSTAT_AWAKE (setBit (s.rd F.PMU_CSTSTAT_AWAKE) b) else s

/-- The bytes of a frame go to its CST page; those of page 0 but offsets 0x200–0x3FF, which only CHW
writes (R227). -/
def frameToCst (s : State) (i : Nat) : State :=
  let v := s.rd F.CPG_FRAME_VPAGE i
  let a := pageAddr s (s.rd F.CPG_FRAME_CID i) v
  let s := cstTouch s a
  if v = 0 then (s.copyMem (frameAddr i) a 0x200).copyMem (frameAddr i + 0x400) (a + 0x400) 0xC00
  else s.copyMem (frameAddr i) a 4096

/-- A page's write-back completes (R227): CST holds it, the frame is clean, every other copy of the page
is invalidated. -/
def writeBackFrame (s : State) (i : Nat) : State :=
  let cid := s.rd F.CPG_FRAME_CID i
  let v := s.rd F.CPG_FRAME_VPAGE i
  let s := invalidateOthers (frameToCst s i) i cid v
  let s := ((s.wr F.CPG_FRAME_DIRTY i 0).wr I.frOut i 0).wr I.mapDirty (entry cid v) 0
  let s := if frSt s i = fWBPEND then toCached s i else s
  cpgCount s F.CPG_WBCNT_COUNT

/-! ## Giving frames to a set (R224, R225) -/

/-- Can the frame be given to a page: FREE, or CACHED with no transfer in flight and not kept. -/
def takeable (s : State) (keep : List Nat) (i : Nat) : Bool :=
  frSt s i == fCACHED && !s.on I.frIn i && !keep.contains i

/-- The least recently used of some frames. -/
def leastUsed (s : State) : List Nat → Option Nat
  | [] => none
  | i :: r =>
    match leastUsed s r with
    | none => some i
    | some j => if s.rd I.frLru j < s.rd I.frLru i then some j else some i

/-- Ordinary frames of core c in a memory (0 X, 1 Y), ascending; and its reserve frame. -/
def ordinary (c mem : Nat) : List Nat := (List.range 7).map fun k => frameNo c (8 * mem + k)
def reserveOf (c mem : Nat) : Nat := frameNo c (8 * mem + 7)

/-- The frame R224 gives a page (steps 2–4), or a reserve frame where R225 allows one. -/
def chooseFrame (s : State) (c mem : Nat) (keep : List Nat) (reserve : Bool) : Option Nat :=
  let x := ordinary c mem
  let y := ordinary c (1 - mem)
  (x.find? fun i => frSt s i == fFREE).orElse fun _ =>
  (y.find? fun i => frSt s i == fFREE).orElse fun _ =>
  (leastUsed s (x.filter (takeable s keep))).orElse fun _ =>
  (leastUsed s (y.filter (takeable s keep))).orElse fun _ =>
    if reserve then [reserveOf c mem, reserveOf c (1 - mem)].find? fun i => frSt s i == fFREE else none

/-- Frame i takes page v of a context for an owner (0: a cached copy), its transfer in flight. -/
def giveFrame (s : State) (i cid v owner st : Nat) : State :=
  let s := emptyFrame s i
  touchFrame (((((s.wr F.CPG_FRAME_STATE i st).wr F.CPG_FRAME_CID i cid).wr F.CPG_FRAME_VPAGE i v).wr
    I.frOwner i owner).wr I.frIn i 1) i

/-- The copies already on core c of the pages of a set, CACHED (R224 step 1). -/
def cachedCopy (s : State) (c cid v : Nat) : Option Nat :=
  (framesOn s c cid v).find? fun i => frSt s i == fCACHED

/-- Frames for pages that have no copy on the core, one after another. -/
def givePages (s : State) (c cid owner st : Nat) (keep : List Nat) (reserve : Bool) : List Nat → Option State
  | [] => some s
  | v :: r =>
    match chooseFrame s c (s.rd I.mapMem (entry cid v)) keep reserve with
    | none => none
    | some i => givePages (giveFrame s i cid v owner st) c cid owner st (i :: keep) reserve r

/-- Frames for a whole set of pages, or none (R224): cached copies first, then the order of steps 2–4. -/
def giveSet (s : State) (c cid owner st : Nat) (reserve : Bool) (pages : List Nat) : Option State :=
  let hit := pages.filterMap fun v => cachedCopy s c cid v
  let rest := pages.filter fun v => (cachedCopy s c cid v).isNone
  let s := s.over hit fun s i => touchFrame ((s.wr F.CPG_FRAME_STATE i st).wr I.frOwner i owner) i
  givePages s c cid owner st hit reserve rest

/-- Page transfers in flight: into frames, out of frames, and between CST and DRAM (R230). -/
def inflight (s : State) : Nat :=
  (s.nonzero I.frIn).length + (s.nonzero I.frOut).length + (s.nonzero I.mapMove).length

end Sys2Proof.Machine
end

