-- ==== Sys2Proof/Machine/Pmu.lean ====
section
/-! DEFINITION.  Temperature, adaptive voltage scaling, PMBus and supervisor clock slowing (R46–R47,
R54, R60–R61, R66–R67, R516). -/

namespace Sys2Proof.Machine

/-! ## Throttling and temperature -/

/-- Cause k of cluster throttling begins or ends: bit 0 temperature, 1 ATMAX, 2 an HMN action (R54,
R61, R484). -/
def setThrottle (s : State) (k : Nat) (b : Bool) : State :=
  let v := putBit (s.rd I.throtSrc) k b
  (s.set I.throtSrc v).set F.PMU_THERMSTAT_THROTTLING (b2n (v != 0))

/-- The hottest valid sensor: its index and its reading in 0.125 °C, signed; the lowest index of
equals. -/
def hottest (s : State) : Option (Nat × Int) :=
  (List.range 16).foldl
    (fun best n =>
      if s.on F.PMU_TEMP_VALID n then
        let t := signedOf 12 (s.rd F.PMU_TEMP_TEMP n)
        match best with
        | none => some (n, t)
        | some (_, u) => if u < t then some (n, t) else best
      else best) none

/-- A threshold with hysteresis (R66): reached at the threshold, left below it by HYST. -/
def crossed (was : Bool) (t thr hyst : Int) : Bool :=
  decide (thr * 8 ≤ t) || (was && decide (thr * 8 - hyst * 8 < t))

/-- The comparison of the hottest sensor with WARN, THROT and CRIT (R54, R66). -/
def compareThermal (s : State) : State :=
  match hottest s with
  | none => s
  | some (n, t) =>
    let s := (s.set F.PMU_THERMSTAT_HOTTEST n).set F.PMU_THERMSTAT_TMAX (ofInt 12 t)
    let h : Int := s.rd F.PMU_THERMCFG_HYST
    let w := crossed (s.on I.thWarn) t (signedOf 8 (s.rd F.PMU_THERMCFG_WARN)) h
    let r := crossed (s.on I.thThrot) t (signedOf 8 (s.rd F.PMU_THERMCFG_THROT)) h
    let c := crossed (s.on I.thCrit) t (signedOf 8 (s.rd F.PMU_THERMCFG_CRIT)) h
    let s := if w && !s.on I.thWarn then s.set F.PMU_IRQSTAT_THWARN 1 else s
    let s := if r && !s.on I.thThrot then s.set F.PMU_IRQSTAT_THROT 1 else s
    let newCrit := c && !s.on I.thCrit
    let s := ((s.set I.thWarn (b2n w)).set I.thThrot (b2n r)).set I.thCrit (b2n c)
    let s := setThrottle s 0 r
    if newCrit then fatalError s 8 else s

/-- Do the sensors run: from the fuse load in BOOT, and in SERVICE, DRAIN and FENCED (R66). -/
def sensorsRun (s : State) : Bool :=
  (s.mode == mBOOT && s.on F.FUS_STAT_LOADED) || s.serving || s.mode == mFENCED

/-- TEMP_CONVERSION (R54, R66). -/
def execTempConversion (sensor : Fin 16) (temp : BitVec 12) (s : State) : Host.Outcome State Fault Refusal :=
  if sensorsRun s then
    go (compareThermal ((s.wr F.PMU_TEMP_TEMP sensor.val temp.toNat).wr F.PMU_TEMP_VALID sensor.val 1))
  else go s

/-- A write of PMU_THERMCFG: THROT or CRIT above its fuse value leaves that field (R67). -/
def thermcfgWrite (s : State) (v : Nat) : State :=
  let fuse := shadow s 68
  let s := (s.set F.PMU_THERMCFG_WARN (bits v 15 8)).set F.PMU_THERMCFG_HYST (bits v 3 0)
  let s := if signedOf 8 (bits v 23 16) ≤ signedOf 8 (bits fuse 15 8) then
    s.set F.PMU_THERMCFG_THROT (bits v 23 16) else s
  if signedOf 8 (bits v 31 24) ≤ signedOf 8 (bits fuse 23 16) then
    s.set F.PMU_THERMCFG_CRIT (bits v 31 24) else s

/-- THERMCFG_WRITE (R67). -/
def execThermcfgWrite (_ini : Init) (v : Word) (s : State) : Host.Outcome State Fault Refusal :=
  if s.fabric then go (thermcfgWrite s v.toNat) else go s

/-! ## Adaptive voltage scaling -/

/-- AVS acts: enabled, not frozen, in a mode with the fabric. -/
def avsActive (s : State) : Bool := s.on F.PMU_AVSCFG_EN && !s.on F.PMU_AVSSTAT_FROZEN && s.fabric

/-- The VDD setpoint takes a code (R60, R516). -/
def setVdd (s : State) (code : Nat) : State := (s.set I.vddCode code).set F.PMU_AVSSTAT_SETCODE code

/-- VDD at VMAX with the margin short: ATMAX, and the clusters throttle (R61). -/
def setAtMax (s : State) (b : Bool) : State :=
  let s := if b && !s.on F.PMU_AVSSTAT_ATMAX then s.set F.PMU_IRQSTAT_ATMAX 1 else s
  setThrottle (s.set F.PMU_AVSSTAT_ATMAX (b2n b)) 1 b

/-- AVS raises VDD by one step, not above VMAX (R60). -/
def raiseVdd (s : State) : State :=
  if s.rd I.vddCode < s.rd F.PMU_AVSCFG_VMAX then setVdd s (s.rd I.vddCode + 1) else s

/-- AVS lowers VDD by one step, not below VMIN (R60). -/
def lowerVdd (s : State) : State :=
  if s.rd F.PMU_AVSCFG_VMIN < s.rd I.vddCode then setVdd s (s.rd I.vddCode - 1) else s

/-- AVS_MARGIN_LOW (R60, R61): the least margin is below MARGIN. -/
def execAvsMarginLow (margin : BitVec 8) (s : State) : Host.Outcome State Fault Refusal :=
  let s := if s.fabric then s.set F.PMU_AVSSTAT_LEASTMARGIN margin.toNat else s
  if avsActive s && decide (margin.toInt < (s.rd F.PMU_AVSCFG_MARGIN : Int)) then
    if s.rd I.vddCode < s.rd F.PMU_AVSCFG_VMAX then go (raiseVdd s) else go (setAtMax s true)
  else go s

/-- AVS_LOWER (R60, R61): the least margin has exceeded MARGIN by 20 ps or more; a margin no longer
short ends ATMAX. -/
def execAvsLower (margin : BitVec 8) (s : State) : Host.Outcome State Fault Refusal :=
  let s := if s.fabric then s.set F.PMU_AVSSTAT_LEASTMARGIN margin.toNat else s
  if avsActive s && decide ((s.rd F.PMU_AVSCFG_MARGIN : Int) + 20 ≤ margin.toInt) then
    go (lowerVdd (setAtMax s false))
  else go s

/-- AVS_PMBFAIL (R61): AVS freezes at its last setpoint. -/
def execAvsPmbfail (s : State) : Host.Outcome State Fault Refusal :=
  if avsActive s then
    go (((s.set F.PMU_AVSSTAT_FROZEN 1).set F.PMU_AVSSTAT_PMBFAIL 1).set F.PMU_IRQSTAT_PMBFAIL 1)
  else go s

/-- AVS_DAWN_STEP_RELEASE (R60): cluster c's extra step is released after 1 ms of RUN. -/
def execAvsDawnStepRelease (c : Fin 8) (s : State) : Host.Outcome State Fault Refusal :=
  if s.on I.cluAvs c.val && s.rd F.CLU_STAT_STATE c.val == 0 && s.rd F.CLU_STAT_DAWN c.val == 0 then
    go (lowerVdd (s.wr I.cluAvs c.val 0))
  else go s

/-- A write of PMU_AVSSTAT: clearing PMBFAIL unfreezes AVS (R61). -/
def avsstatWrite (s : State) (v : Nat) : State :=
  if bitOf v 30 then (s.set F.PMU_AVSSTAT_PMBFAIL 0).set F.PMU_AVSSTAT_FROZEN 0 else s

/-! ## Software PMBus transactions -/

/-- A write of PMU_PMBCMD: the fields are stored; GO starts a transaction unless one is in progress
(R9, R60). -/
def pmbcmdWrite (s : State) (v : Nat) : State :=
  let s := ((((s.set F.PMU_PMBCMD_RD (bitN v 29)).set F.PMU_PMBCMD_WORD (bitN v 28)).set F.PMU_PMBCMD_ADDR
    (bits v 22 16))).set F.PMU_PMBCMD_CMD (bits v 15 8)
  if bitOf v 31 then s.set F.PMU_PMBCMD_GO 1 else s

/-- PMBUS_TRANSACTION (R60). -/
def execPmbusTransaction (_ini : Init) (v : Word) (s : State) : Host.Outcome State Fault Refusal :=
  if s.fabric then go (pmbcmdWrite s v.toNat) else go s

/-- PMBUS_TRANSACTION_DONE (R60): a read's data, of one byte or two, goes to PMBDATA. -/
def execPmbusTransactionDone (data : BitVec 16) (err : Bool) (s : State) : Host.Outcome State Fault Refusal :=
  if s.on F.PMU_PMBCMD_GO then
    let s := (s.set F.PMU_PMBCMD_GO 0).set F.PMU_PMBCMD_ERR (b2n err)
    if s.on F.PMU_PMBCMD_RD && !err then
      go (s.set F.PMU_PMBDATA_DATA (if s.on F.PMU_PMBCMD_WORD then data.toNat else data.toNat % 256))
    else go s
  else go s

/-! ## Supervisor clocks -/

/-- SVC_IDLE_SLOW (R46): one more step of ½, down to SVCMAXDIV. -/
def execSvcIdleSlow (n : Fin 4) (s : State) : Host.Outcome State Fault Refusal :=
  if s.fabric && s.rd I.svcDiv n.val < s.rd F.PMU_CLK_SVCMAXDIV then
    go (s.wr I.svcDiv n.val (s.rd I.svcDiv n.val + 1))
  else go s

/-- A register access by a supervisor core, or an interrupt to it, restores its full clock (R47). -/
def svcFullClock (s : State) : Init → State
  | .svc n => s.wr I.svcDiv n.val 0
  | _ => s

end Sys2Proof.Machine
end

