-- ==== Sys2Proof/Machine/Clu.lean ====
section
/-! DEFINITION.  Cluster power: the descent, the write-back before PWROFF, wake requests and the Dawn
sequence (R48–R54, R531), and the modes of the CST banks (R55–R57). -/

namespace Sys2Proof.Machine

abbrev clRUN := 0
abbrev clGATED := 1
abbrev clPLLOFF := 2
abbrev clPWROFF := 3

/-- The state of cluster c (R48). -/
def cluSt (s : State) (c : Nat) : Nat := s.rd F.CLU_STAT_STATE c

/-- The cores of cluster c. -/
def cluCores (c : Nat) : List Nat := (List.range 8).map (8 * c + ·)

/-- Bit of core c, in a set of three registers laid out as MLS_DBG_HALT_LO, _HI and _SVC. -/
def coreBit (s : State) (lo hi svc : Fld) (c : Nat) : Bool :=
  if c < 32 then bitOf (s.rd lo) c else if c < 64 then bitOf (s.rd hi) (c - 32) else bitOf (s.rd svc) (c - 64)

/-- The debug port asks core c to halt (R506). -/
def haltReq (s : State) (c : Nat) : Bool :=
  coreBit s F.MLS_DBG_HALT_LO_CORES F.MLS_DBG_HALT_HI_CORES F.MLS_DBG_HALT_SVC_CORES c

/-- Is core c halted (R506). -/
def halted (s : State) (c : Nat) : Bool :=
  coreBit s F.MLS_DBG_HALTED_LO_CORES F.MLS_DBG_HALTED_HI_CORES F.MLS_DBG_HALTED_SVC_CORES c

/-- The HALTED bit of core c takes a value. -/
def setHalted (s : State) (c : Nat) (b : Bool) : State :=
  let put := fun (f : Fld) (k : Nat) => s.set f (putBit (s.rd f) k b)
  if c < 32 then put F.MLS_DBG_HALTED_LO_CORES c
  else if c < 64 then put F.MLS_DBG_HALTED_HI_CORES (c - 32)
  else put F.MLS_DBG_HALTED_SVC_CORES (c - 64)

/-- Does core n wait in WAITJOB: it runs no job and no idle code.  A halted core is reported as busy
(R508). -/
def inWaitjob (s : State) (n : Nat) : Bool := !s.on I.cJob n && s.on I.waiting n && !halted s n

/-- Is the idle timer of cluster c running (R49). -/
def cluIdle (s : State) (c : Nat) : Bool := (cluCores c).all fun n => inWaitjob s n && !s.on I.cNext n

/-- The busy bits of CLU_STAT: cores not in WAITJOB. -/
def cluBusy (s : State) (c : Nat) : Nat := maskOf ((List.range 8).filter fun k => !inWaitjob s (8 * c + k))

/-- The frames of a cluster's cores that hold something. -/
def cluFrames (s : State) (c : Nat) : List Nat := (frames s).filter fun i => i / 128 == c

/-- Every dirty frame of a cluster is written back (R50). -/
def cluWriteBack (s : State) (c : Nat) : State :=
  s.over ((cluFrames s c).filter (s.on F.CPG_FRAME_DIRTY ·)) writeBackFrame

/-- The Dawn sequence of cluster c starts at the step that matches its state (R52); AVS raises VDD by one
step before one from PLLOFF or PWROFF (R60). -/
def dawnStart (s : State) (c : Nat) : State :=
  let st := cluSt s c
  let ph := if st = clPWROFF then 1 else if st = clPLLOFF then 2 else 3
  let s := ((s.wr F.CLU_STAT_DAWN c 1).bump F.CLU_DAWNCNT_COUNT c none).wr I.cluPh c ph
  if st != clGATED && avsActive s && decide (s.rd I.vddCode < s.rd F.PMU_AVSCFG_VMAX) then
    (raiseVdd s).wr I.cluAvs c 1
  else s

/-- A wake request to cluster c (R53): it abandons a power-down whose write-back is in progress (R50),
starts the Dawn sequence, or, in RUN or in Dawn, changes nothing but the idle timer. -/
def cluWake (s : State) (c : Nat) : State :=
  if s.on F.CLU_STAT_DAWN c then s
  else if s.on F.CLU_STAT_DRAINWB c then dawnStart ((cluWriteBack s c).wr F.CLU_STAT_DRAINWB c 0) c
  else if cluSt s c = clRUN then s
  else dawnStart s c

/-- May cluster c go one step down from state `st` to the next (R49). -/
def mayDescend (s : State) (c st : Nat) : Bool :=
  s.serving && cluSt s c == st && !s.on F.CLU_STAT_DAWN c && !s.on F.CLU_STAT_DRAINWB c && cluIdle s c &&
    decide (st < s.rd F.CLU_CFG_FLOOR c)

/-- CLUSTER_IDLE_EXPIRY (R49). -/
def execClusterIdleExpiry (c : Fin 8) (s : State) : Host.Outcome State Fault Refusal :=
  if mayDescend s c.val clRUN then go (s.wr F.CLU_STAT_STATE c.val clGATED) else go s

/-- CLUSTER_PLLDLY_EXPIRY (R49). -/
def execClusterPlldlyExpiry (c : Fin 8) (s : State) : Host.Outcome State Fault Refusal :=
  if mayDescend s c.val clGATED then go (s.wr F.CLU_STAT_STATE c.val clPLLOFF) else go s

/-- CLUSTER_PWRDLY_EXPIRY (R49, R50): the write-back before PWROFF begins. -/
def execClusterPwrdlyExpiry (c : Fin 8) (s : State) : Host.Outcome State Fault Refusal :=
  if mayDescend s c.val clPLLOFF then go (s.wr F.CLU_STAT_DRAINWB c.val 1) else go s

/-- The local memories and instruction caches of a cluster lose their contents (R48). -/
def cluLoseMem (s : State) (c : Nat) : State :=
  s.over (cluCores c) fun s n =>
    { s.loseMem (0x30000000 + n * 0x40000) 0x40000 with iLines := Tbl.drop n s.iLines }

/-- Cluster c is power gated: dirty frames are in CST, no copy is left (R48, R50). -/
def cluOff (s : State) (c : Nat) : State :=
  let s := cluWriteBack s c
  let owners := (cluFrames s c).filterMap fun i => if s.on I.frOwner i then some (s.rd I.frOwner i - 1) else none
  let s := s.over owners noSet
  let s := cluLoseMem (s.over (cluFrames s c) emptyFrame) c
  (s.wr F.CLU_STAT_DRAINWB c 0).wr F.CLU_STAT_STATE c clPWROFF

/-- CLUSTER_PWROFF (R50): the write-back is complete and the power gate closes. -/
def execClusterPwroff (c : Fin 8) (s : State) : Host.Outcome State Fault Refusal :=
  if s.on F.CLU_STAT_DRAINWB c.val then go (cluOff s c.val) else go s

/-- CLUSTER_WAKE_REQUEST (R53). -/
def execClusterWakeRequest (c : Fin 8) (s : State) : Host.Outcome State Fault Refusal :=
  if s.serving then go (cluWake s c.val) else go s

/-- A write of CLU_WAKE: a wake request to each cluster whose bit is 1 (R53). -/
def cluWakeWrite (s : State) (v : Nat) : State :=
  if s.serving then s.over ((List.range 8).filter (bitOf v)) cluWake else s

/-- CLU_WAKE (R53). -/
def execCluWake (_ini : Init) (v : Word) (s : State) : Host.Outcome State Fault Refusal :=
  if s.fabric then go (cluWakeWrite s v.toNat) else go s

/-- A step of the Dawn sequence of cluster c: from step group `ph` to the next, in state `st` (R52,
R531). -/
def dawnStep (s : State) (c ph st : Nat) : State :=
  if s.on F.CLU_STAT_DAWN c && s.rd I.cluPh c == ph then
    (s.wr F.CLU_STAT_STATE c st).wr I.cluPh c ((ph + 1) % 4)
  else s

/-- DAWN_POWER_GOOD (R52 step 2). -/
def execDawnPowerGood (c : Fin 8) (s : State) : Host.Outcome State Fault Refusal := go (dawnStep s c.val 1 clPLLOFF)

/-- DAWN_PLL_LOCK (R52 step 4). -/
def execDawnPllLock (c : Fin 8) (s : State) : Host.Outcome State Fault Refusal := go (dawnStep s c.val 2 clGATED)

/-- DAWN_DONE (R52 step 6). -/
def execDawnDone (c : Fin 8) (s : State) : Host.Outcome State Fault Refusal :=
  if s.on F.CLU_STAT_DAWN c.val && s.rd I.cluPh c.val == 3 then
    go ((dawnStep s c.val 3 clRUN).wr F.CLU_STAT_DAWN c.val 0)
  else go s

/-! ## CST banks -/

/-- Does a bank hold an allocated page. -/
def bankAllocated (s : State) (b : Nat) : Bool := (s.nonzero I.pgUse).any fun n => n / 2048 == b

/-- Would turning bank b off break R56. -/
def offRefused (s : State) (b : Nat) : Bool :=
  bankAllocated s b || decide (freeIn s (fun k => bankMode s k != 3 && k != b) < s.rd I.odLeft)

/-- Bank b takes mode m (R55, R56): OFF may be refused; OFF loses the contents; ON is awake at once. -/
def setBank (s : State) (b m : Nat) : State :=
  if m = 3 && bankMode s b != 3 && offRefused s b then s.set F.PMU_CSTSTAT_BANKERR 1
  else
    let old := s.rd F.PMU_CSTBANK_MODE
    let s := s.set F.PMU_CSTBANK_MODE (old - bits old (2 * b + 1) (2 * b) * 4 ^ b + m * 4 ^ b)
    let awake := s.rd F.PMU_CSTSTAT_AWAKE
    let s := s.set F.PMU_CSTSTAT_AWAKE
      (if m = 0 then setBit awake b else if m = 1 then awake else clrBit awake b)
    if m = 3 then s.loseMem (0x800000 * b) 0x800000 else s

/-- A write of PMU_CSTBANK: banks in ascending order, each after the accepted changes below it (R56). -/
def cstbankWrite (s : State) (v : Nat) : State :=
  s.over (List.range 16) fun s b => setBank s b (bits v (2 * b + 1) (2 * b))

/-- CSTBANK_WRITE (R55, R56). -/
def execCstbankWrite (_ini : Init) (v : Word) (s : State) : Host.Outcome State Fault Refusal :=
  if s.fabric then go (cstbankWrite s v.toNat) else go s

/-- BANK_RETENTION_ENTRY (R55): 10 µs without access put an AUTO bank into retention. -/
def execBankRetentionEntry (b : Fin 16) (s : State) : Host.Outcome State Fault Refusal :=
  if s.fabric && bankMode s b.val == 1 then
    go (s.set F.PMU_CSTSTAT_AWAKE (clrBit (s.rd F.PMU_CSTSTAT_AWAKE) b.val))
  else go s

end Sys2Proof.Machine
end

