-- ==== Sys2Proof/Machine/CpgModes.lean ====
section
/-! DEFINITION.  What CPG, CST and the other memories keep across the modes (R58, R59, R216, R250, R530),
and the channels that hold off WATCH (R68). -/

namespace Sys2Proof.Machine

/-- Cells of CPG kept across a WATCH entered from DRAIN: context attributes, maps, pool counts (R59). -/
def cpgContextCell (id : Nat) : Bool :=
  cellGroup id == some 6 || id == F.CHW_CTX_LAYOUT_PAGES.id || id == F.CHW_CTX_LAYOUT_YMEM.id ||
    id == F.CHW_CTX_ATTR_PIN.id || id == F.CHW_CTX_ATTR_SPILLOK.id || id == F.CHW_CTX_ATTR_POOL.id ||
    id == F.CHW_CTX_ATTR_OD.id || id == F.CHW_CTX_STAT_STATE.id || id == F.CHW_CTX_STAT_CTLPEND.id ||
    id == F.CHW_CTX_STAT_WERR.id || id == F.CHW_CTX_STAT_AGE.id || id == F.CPG_POOLUSE_USED.id

/-- The contexts that are not FREE. -/
def contexts (s : State) : List Nat := s.nonzero F.CHW_CTX_STAT_STATE

/-- STATE of the channel of a context, from the status half of its page 0 in CST (R280, R282). -/
def channelState (s : State) (cid : Nat) : Nat :=
  if lvl s cid 0 = 1 then bits (s.readLE (pageAddr s cid 0 + 0x400) 4) 3 0 else 0

/-- Is some channel ARMED, ACTIVE or MOVING (R68). -/
def liveChannel (s : State) : Bool :=
  (contexts s).any fun cid =>
    ctxState s cid == cALLOC && (channelState s cid == 1 || channelState s cid == 2 || channelState s cid == 4)

/-- Each bank counts its retired pages alone. -/
def banksHoldRetired (s : State) : State :=
  s.over (List.range 16) fun s b =>
    s.wr I.bankBusy b ((s.nonzero I.pgBad).filter fun n => n / 2048 == b).length

/-- Contexts with a CST page in a bank that was OFF in WATCH become QUAR (R59). -/
def quarantineLost (s : State) : State :=
  s.over ((contexts s).filter fun cid => (List.range 16).any fun v =>
      lvl s cid v == 1 && !bitOf (s.rd F.PMU_CSTWATCH_RET) (s.rd I.mapPage (entry cid v) / 2048))
    fun s cid => s.wr F.CHW_CTX_STAT_STATE cid cQUAR

/-- What an entry to BOOT does to CPG and the memories before the registers reset: kept contexts with lost
pages are quarantined; without kept contexts only retired pages are counted; DRAM not placed in
self-refresh loses its contents (R59, R530). -/
def cpgBeforeBoot (s : State) (keepCtx fromDrain : Bool) : State :=
  let s := if keepCtx then quarantineLost s else banksHoldRetired s
  if fromDrain && s.on I.dmcSelfRef then s else s.loseMem 0x100000000 0x800000000

/-- What an entry to WATCH does to CPG and the memories: clusters go to PWROFF with their dirty frames
written back, banks not retained lose their contents, as do PKS, SYM, the code store and the supervisor
local memories, and a trained DRAM enters self-refresh (R50, R58, R59, R68, R250). -/
def cpgAtWatch (s : State) : State :=
  let s := s.over (List.range 8) fun s c => (cluOff s c).wr F.CLU_STAT_DAWN c 0
  let s := s.over ((List.range 16).filter fun b => !bitOf (s.rd F.PMU_CSTWATCH_RET) b) fun s b =>
    s.loseMem (0x800000 * b) 0x800000
  let s := (((s.loseMem 0x10000000 0x2000000).loseMem 0x20000000 0x800000).loseMem 0x21000000 0x400000).loseMem
    0x31000000 0x400000
  if s.on F.DMC_STAT_READY then (s.set I.dmcSelfRef 1).set F.DMC_STAT_INSR 1 else s

end Sys2Proof.Machine
end

