-- ==== Sys2Proof/Machine/Flags.lean ====
section
/-! DEFINITION.  The arithmetic helpers and the flag computations of the instruction set (R101, "Common
arithmetic", R147, R161–R170). -/

namespace Sys2Proof.Machine

/-- v divided by 2^k and rounded as MODE.RM selects: convergent (half to even), or toward minus
infinity; k ≤ 0 shifts left exactly. -/
def roundShift (rm : Bool) (v : Int) (k : Int) : Int :=
  if k ≤ 0 then v * (2 ^ (-k).toNat : Nat)
  else
    let d : Int := (2 ^ k.toNat : Nat)
    let q := v / d
    let rem := v % d
    if rm then q
    else if rem * 2 > d || (rem * 2 == d && q % 2 == 1) then q + 1
    else q

/-- r reduced to n signed bits: saturated or wrapped as MODE.SAT selects. -/
def fitVal (sat : Bool) (r : Int) (n : Nat) : Int :=
  if sat then clampS n r else signedOf n (ofInt n r)

/-- Does r not fit in n signed bits. -/
def fitOv (r : Int) (n : Nat) : Bool := !fitsS n r

/-- acc_write: what a 40-bit accumulator half stores for an exact value (R101). -/
def accStore (satacc : Bool) (x : Int) : Nat :=
  if satacc then ofInt 40 (clampS 40 x) else ofInt 40 x

/-- Does acc_write set ACOV. -/
def accOv (x : Int) : Bool := !fitsS 40 x

/-- combine() of R147: 0 add, 1 subtract, 2 overwrite, 3 overwrite negated. -/
def combine (acc : Nat) (old t : Int) : Int :=
  match acc with
  | 0 => old + t
  | 1 => old - t
  | 2 => t
  | _ => -t

/-- The count of redundant sign bits of an n-bit value: the bits below the top that equal it (R169). -/
def redundant (n v : Nat) : Nat :=
  let top := bitOf v (n - 1)
  ((List.range (n - 1)).reverse.takeWhile fun k => bitOf v k == top).length

/-- The flags an operation leaves: none means unchanged. -/
structure FlagSet where
  z : Option Bool
  n : Option Bool
  c : Option Bool
  v : Option Bool
  deriving DecidableEq, Repr

/-- Z and N of an n-bit result. -/
def znOf (n r : Nat) (c v : Option Bool) : FlagSet :=
  ⟨some (r % 2 ^ n == 0), some (bitOf r (n - 1)), c, v⟩

/-- Result and flags of a + b on n bits (R161): the flags from the result modulo 2^n, C the carry out,
V signed overflow. -/
def addFlags (n a b : Nat) : FlagSet :=
  znOf n ((a + b) % 2 ^ n) (some (decide (2 ^ n ≤ a + b))) (some (!fitsS n (signedOf n a + signedOf n b)))

/-- Flags of a − b on n bits (R161): C = 1 means no borrow. -/
def subFlags (n a b : Nat) : FlagSet :=
  znOf n ((a + 2 ^ n - b) % 2 ^ n) (some (decide (b ≤ a))) (some (!fitsS n (signedOf n a - signedOf n b)))

/-- The written value of a 16- or 32-bit arithmetic result (R161): 16-bit results fit under MODE.SAT,
32-bit results wrap. -/
def arithVal (sat : Bool) (n : Nat) (exact : Int) : Nat :=
  if n = 16 then ofInt 16 (fitVal sat exact 16) else ofInt n exact

/-- The last bit shifted out of a right shift by k; 0 for a count of 0 (R162). -/
def shrCarry (v k : Nat) : Bool := k != 0 && bitOf v (k - 1)

/-- The last bit shifted out of an n-bit left shift by k; 0 for a count of 0 (R162). -/
def shlCarry (n v k : Nat) : Bool := k != 0 && bitOf v (n - k)

/-- Arithmetic shift right of an n-bit value. -/
def asrVal (n v k : Nat) : Nat := ofInt n (signedOf n v / (2 ^ k : Nat))

/-- The conditions of BRC on the flags (R172); code 0xF is reserved. -/
def condHolds (cond : Nat) (z n c v : Bool) : Bool :=
  match cond with
  | 0 => z
  | 1 => !z
  | 2 => n != v
  | 3 => n == v
  | 4 => z || n != v
  | 5 => !z && n == v
  | 6 => c
  | 7 => !c
  | 8 => c && !z
  | 9 => !c || z
  | 10 => n
  | 11 => !n
  | 12 => v
  | 13 => !v
  | _ => true

end Sys2Proof.Machine
end

