-- ==== Sys2Proof/Machine/Operands.lean ====
section
/-! DEFINITION.  The operand forms of the instruction set: register banks and spaces, rotation, reads in
the shadow of a result, control registers, pointer updates and addresses (R102–R104, R112–R122,
R143, R153–R157, R165). -/

namespace Sys2Proof.Machine

/-- Is core c a supervisor core: cores 64–67. -/
def isSvc (c : Nat) : Bool := decide (64 ≤ c)

/-- The active register bank of core c: 2 c + BANK, and 2 c on a supervisor core (R102, R133). -/
def rbank (s : State) (c : Nat) : Nat := if isSvc c then 2 * c else 2 * c + s.rd I.bank c

/-- The results in flight of a bank. -/
def inFlight (s : State) (b : Nat) : List Landing := Tbl.get [] s.landings b

/-- A register after a result lands in it. -/
def Landing.into (l : Landing) (old : Nat) : Nat :=
  match l.mask with
  | some m => old - Nat.land old m + Nat.land l.val m
  | none => l.val % 2 ^ l.fld.w

/-- What a bundle reads in instance i of a core cell: its value, or, in the shadow of results in
flight, that value or any of theirs, which one the spec leaves open (R114). -/
def State.cr (s : State) (b : Nat) (f : Fld) (i : Nat) : Nat :=
  let old := s.rd f i
  let late := ((inFlight s b).filter fun l => l.fld.id == f.id && l.inst == i).map (·.into old)
  if late.isEmpty then old
  else (old :: late).getD (Config.shadowPick s.freeCtr f.id i % (late.length + 1)) old

/-- The physical number of Dk in bank b: D16–D31 rotate with RRB (R122). -/
def physD (s : State) (b k : Nat) : Nat :=
  if k < 16 then k else 16 + (k - 16 + s.cr b I.rrb b) % 16

/-- D register k of a bank, as read by a bundle. -/
def readD (s : State) (b k : Nat) : Nat := s.cr b I.d (32 * b + physD s b k)

/-- W register n: D(2n) below D(2n+1). -/
def readW (s : State) (b n : Nat) : Nat := readD s b (2 * n) + 2 ^ 16 * readD s b (2 * n + 1)

/-- Pointer k. -/
def readP (s : State) (b k : Nat) : Nat := s.cr b I.p (16 * b + k)

/-- The word space: W0–W15, then P0–P15. -/
def readWord (s : State) (b r : Nat) : Nat := if r < 16 then readW s b r else readP s b (r - 16)

/-- The cells a word-space register occupies, lowest bits first. -/
def wordCells (s : State) (b r : Nat) : List (Fld × Nat) :=
  if r < 16 then [(I.d, 32 * b + physD s b (2 * r)), (I.d, 32 * b + physD s b (2 * r + 1))]
  else [(I.p, 16 * b + (r - 16))]

/-- The extended space: W, P, M, B, L (numbers 56–63 are reserved). -/
def readExt (s : State) (b r : Nat) : Nat :=
  if r < 32 then readWord s b r
  else if r < 40 then s.cr b I.m (8 * b + (r - 32))
  else if r < 48 then s.cr b I.bb (8 * b + (r - 40))
  else s.cr b I.ll (8 * b + (r - 48))

/-- The cells an extended-space register occupies. -/
def extCells (s : State) (b r : Nat) : List (Fld × Nat) :=
  if r < 32 then wordCells s b r
  else if r < 40 then [(I.m, 8 * b + (r - 32))]
  else if r < 48 then [(I.bb, 8 * b + (r - 40))]
  else [(I.ll, 8 * b + (r - 48))]

/-- The value v spread over cells, lowest bits first, each a result of latency lat. -/
def putCells (cells : List (Fld × Nat)) (v lat : Nat) : List Eff :=
  match cells with
  | [] => []
  | (f, i) :: r => .put f i (v % 2 ^ f.w) lat :: putCells r (v / 2 ^ f.w) lat

/-- A result in Dk. -/
def putD (s : State) (b k v lat : Nat) : Eff := .put I.d (32 * b + physD s b k) v lat

/-- A result in a word-space register. -/
def putWord (s : State) (b r v lat : Nat) : List Eff := putCells (wordCells s b r) v lat

/-- The operand of an SR or SI form: a D number for SZ = 0, the word space for SZ = 1. -/
def readSz (s : State) (b : Nat) (sz : Bool) (r : Nat) : Nat := if sz then readWord s b r else readD s b r

/-- The result of an SR or SI form. -/
def putSz (s : State) (b : Nat) (sz : Bool) (r v : Nat) : List Eff :=
  if sz then putWord s b r v 1 else [putD s b r v 1]

/-- The operation size SZ selects. -/
def szBits (sz : Bool) : Nat := if sz then 32 else 16

/-- IMM12 sign-extended to the operation size. -/
def immSz (sz : Bool) (imm : BitVec 12) : Nat := ofInt (szBits sz) imm.toInt

/-- One flag, if it changes. -/
def putFlag (f : Fld) (b lat : Nat) : Option Bool → List Eff
  | some v => [.put f b (b2n v) lat]
  | none => []

/-- The flags of an operation as results. -/
def putFlags (b lat : Nat) (fs : FlagSet) : List Eff :=
  putFlag I.flZ b lat fs.z ++ putFlag I.flN b lat fs.n ++ putFlag I.flC b lat fs.c ++ putFlag I.flV b lat fs.v

/-! ## Mode and control registers -/

/-- MODE as a bundle reads it. -/
def modeReg (s : State) (b : Nat) : Nat := s.cr b I.cmode b
/-- MODE.SAT. -/
def modeSAT (s : State) (b : Nat) : Bool := bitOf (modeReg s b) 11
/-- MODE.RM. -/
def modeRM (s : State) (b : Nat) : Bool := bitOf (modeReg s b) 10
/-- MODE.SATACC. -/
def modeSATACC (s : State) (b : Nat) : Bool := bitOf (modeReg s b) 12
/-- MODE.OVTRAP. -/
def modeOVTRAP (s : State) (b : Nat) : Bool := bitOf (modeReg s b) 15
/-- MODE.MSH, signed. -/
def modeMSH (s : State) (b : Nat) : Int := signedOf 4 (bits (modeReg s b) 3 0)

/-- Accumulator half h of ACn as an accumulation into it reads it. -/
def readAc (s : State) (b n h : Nat) : Int := signedOf 40 (s.cr b I.ac (16 * b + 2 * n + h))

/-- Accumulator half as a move, or an operation on another accumulator, reads it: one bundle after a
MAC-class result it may still be the old value (R113, R114). -/
def readAcLate (s : State) (b n h : Nat) : Int :=
  let i := 16 * b + 2 * n + h
  match (Tbl.get [] s.macShadow b).find? fun e => e.1 == i with
  | some e => if bitOf (Config.shadowPick s.freeCtr I.ac.id i) 0 then signedOf 40 e.2 else readAc s b n h
  | none => readAc s b n h

/-- The fields software can write in MODE, TCAUSE, SCR_STATUS and SCR_VECT, as masks. -/
def maskMode : Nat := 0x9C0F
def maskCause : Nat := 0xC0000F0F
def maskStatus : Nat := 0xE3
def maskVect : Nat := 0xFFFFF000

/-- The legal control numbers of a core (R103, R133). -/
def crLegal (svc : Bool) (n : Nat) : Bool :=
  decide (n ≤ 4) || (decide (5 ≤ n) && decide (n ≤ 10) && !svc) || (decide (11 ≤ n) && decide (n ≤ 13)) ||
    (decide (16 ≤ n) && decide (n ≤ 21)) || (decide (32 ≤ n) && decide (n ≤ 44) && svc)

/-- Is the core in supervisor privilege (always, on a signal core). -/
def privileged (s : State) (c : Nat) : Bool :=
  !isSvc c || bitOf (s.cr (rbank s c) I.scr (16 * (c - 64))) 0

/-- A control register as MOVC reads it (R103, R133). -/
def readCr (s : State) (c n : Nat) : Nat :=
  let b := rbank s c
  match n with
  | 0 => modeReg s b
  | 1 => s.cr b I.acov b * 256 + s.cr b I.flV b * 8 + s.cr b I.flC b * 4 + s.cr b I.flN b * 2 + s.cr b I.flZ b
  | 2 => s.cr b I.rrb b
  | 3 => s.rd I.jobid b
  | 4 => s.rd I.ctxv b
  | 5 => s.cr b I.trapv b
  | 6 => s.cr b I.trpc b
  | 7 => s.cr b I.tcause b
  | 8 => s.cr b I.taddr b
  | 9 => s.cr b I.tds b
  | 10 => s.cr b I.tbtgt b
  | 11 => c
  | 12 => s.rd I.cycle b
  | 13 => if isSvc c then 0 else s.rd I.bank c + 2 * s.rd I.obusy c
  | 16 => s.cr b I.lc (2 * b)
  | 17 => s.cr b I.lc (2 * b + 1)
  | 18 => s.cr b I.ls (2 * b)
  | 19 => s.cr b I.ls (2 * b + 1)
  | 20 => s.cr b I.le (2 * b)
  | 21 => s.cr b I.le (2 * b + 1)
  | _ => if isSvc c then s.cr b I.scr (16 * (c - 64) + (n - 32)) else 0

/-- The writable bits of supervisor control register 32 + k (R133). -/
def scrMask (k : Nat) : Nat :=
  match k with
  | 0 => maskStatus
  | 1 => maskVect
  | 4 => maskCause
  | 6 => maskStatus
  | 7 => 0x3F
  | _ => 0xFFFFFFFF

/-- A MOVC write of v to a control register, as results of latency 2; read-only numbers take none
(R103, R165). -/
def writeCr (s : State) (c n v : Nat) : List Eff :=
  let b := rbank s c
  match n with
  | 0 => [.put I.cmode b (Nat.land v maskMode) 2]
  | 1 => [.put I.acov b (bits v 15 8) 2, .put I.flV b (bitN v 3) 2, .put I.flC b (bitN v 2) 2,
      .put I.flN b (bitN v 1) 2, .put I.flZ b (bitN v 0) 2]
  | 2 => [.put I.rrb b (bits v 3 0) 2]
  | 5 => [.put I.trapv b v 2]
  | 6 => [.put I.trpc b v 2]
  | 7 => [.put I.tcause b (Nat.land v maskCause) 2]
  | 8 => [.put I.taddr b v 2]
  | 9 => [.put I.tds b (bits v 5 0) 2]
  | 10 => [.put I.tbtgt b v 2]
  | 16 => [.put I.lc (2 * b) (bits v 15 0) 2]
  | 17 => [.put I.lc (2 * b + 1) (bits v 15 0) 2]
  | 18 => [.put I.ls (2 * b) v 2]
  | 19 => [.put I.ls (2 * b + 1) v 2]
  | 20 => [.put I.le (2 * b) v 2]
  | 21 => [.put I.le (2 * b + 1) v 2]
  | _ => if isSvc c && decide (32 ≤ n) && decide (n ≤ 44) then
      [.put I.scr (16 * (c - 64) + (n - 32)) (Nat.land v (scrMask (n - 32))) 2] else []

/-! ## Pointers and addresses -/

/-- Base and length of pointer n. -/
def ptrB (s : State) (b n : Nat) : Nat := s.cr b I.bb (8 * b + n)
def ptrL (s : State) (b n : Nat) : Nat := s.cr b I.ll (8 * b + n)

/-- The value of pointer n after a post-modify by m (R117). -/
def postModify (s : State) (b n : Nat) (m : Int) : Nat :=
  let p : Int := readP s b n
  if decide (n ≤ 7) && ptrL s b n != 0 then
    ofInt 32 ((ptrB s b n : Int) + (p + m - (ptrB s b n : Int)) % (ptrL s b n : Int))
  else ofInt 32 (p + m)

/-- log2 of a legal bit-reversal length: a power of two from 2 to 32,768 (R118). -/
def revLog (len : Nat) : Option Nat := (List.range 16).find? fun k => decide (1 ≤ k) && len == 2 ^ k

/-- The value of pointer n after a bit-reversed post-modify by m (R118). -/
def bitReversed (s : State) (b n k : Nat) (m : Int) : Nat :=
  let base := ptrB s b n
  let off := ofInt k ((readP s b n : Int) - base)
  let off := revBits k ((revBits k off + revBits k (ofInt k m)) % 2 ^ k)
  (base + off) % 2 ^ 32

/-- An indexed address folded into the pointer's window (R156). -/
def foldAddr (s : State) (b n : Nat) (a : Int) : Nat :=
  if decide (n ≤ 7) && ptrL s b n != 0 then
    ofInt 32 ((ptrB s b n : Int) + (a - (ptrB s b n : Int)) % (ptrL s b n : Int))
  else ofInt 32 a

/-- The number of the pointer of an access: PTR on the X port, 8 + PTR on the Y port. -/
def ptrOf (port : Bool) (ptr : Nat) : Nat := if port then 8 + ptr else ptr

/-- The modifier Mk, signed. -/
def readM (s : State) (b k : Nat) : Int := signedOf 32 (s.cr b I.m (8 * b + k))

/-- What an addressing mode gives an access of a size: the address, the pointer's new value if it
changes, whether the mode is illegal for the port, and whether its bit-reversal length is bad
(R154, R155). -/
structure Addressing where
  addr : Nat
  after : Option Nat
  illegal : Bool
  badLen : Bool
  deriving DecidableEq, Repr

/-- Bit-reversed addressing on the X port. -/
def addrBitRev (s : State) (b n : Nat) (m : Int) : Addressing :=
  match revLog (ptrL s b n) with
  | some k => ⟨readP s b n, some (bitReversed s b n k m), false, false⟩
  | none => ⟨readP s b n, none, false, true⟩

/-- The addressing of an access (R154, R155); `mod` marks MOD, allowed in some modes only. -/
def addressing (s : State) (b : Nat) (port : Bool) (mode : LMode) (ptr size : Nat) (mod : Bool) : Addressing :=
  let n := ptrOf port ptr
  let p := readP s b n
  match mode with
  | .dual am =>
    match am.toNat with
    | 0 => ⟨p, none, mod, false⟩
    | 1 => ⟨p, some (postModify s b n size), mod, false⟩
    | 2 => ⟨p, some (postModify s b n (readM s b ptr)), false, false⟩
    | _ => if port then ⟨p, some (postModify s b n (-(size : Int))), mod, false⟩
        else addrBitRev s b n (readM s b ptr)
  | .single am msel imm =>
    let m := readM s b msel.toNat
    match am.toNat with
    | 0 => ⟨p, none, mod || msel != 0 || imm != 0, false⟩
    | 1 => ⟨p, some (postModify s b n imm.toInt), msel != 0, false⟩
    | 2 => ⟨p, some (postModify s b n m), imm != 0, false⟩
    | 3 => ⟨foldAddr s b n (p + m), none, mod || imm != 0, false⟩
    | 4 => if port then ⟨p, none, true, false⟩
        else { addrBitRev s b n m with illegal := imm != 0 }
    | 5 => ⟨foldAddr s b n (p + imm.toInt), none, mod || msel != 0, false⟩
    | _ => ⟨p, none, true, false⟩

end Sys2Proof.Machine
end

