-- ==== Sys2Proof/Machine/Que.lean ====
section
/-! DEFINITION.  The hardware queues: items, banks, swaps, flushes and resets (R254–R266). -/

namespace Sys2Proof.Machine

/-- Queue q. -/
def State.queue (s : State) (q : Nat) : Queue := Tbl.get Queue.empty s.queues q

/-- The state in which queue q is x. -/
def State.setQueue (s : State) (q : Nat) (x : Queue) : State :=
  { s with queues := Tbl.put Queue.empty q x s.queues }

/-- Items whose ending word is in the queue: COUNT (R259). -/
def Queue.count (x : Queue) : Nat := ((x.cons ++ x.prod).filter (·.last)).length

/-- The words of the producer bank after its last ending word: the item in progress. -/
def Queue.partialWords (x : Queue) : List QWord := (x.prod.reverse.takeWhile (!·.last)).reverse

/-- The words of the producer bank up to its last ending word: its complete items. -/
def Queue.complete (x : Queue) : List QWord := (x.prod.reverse.dropWhile (!·.last)).reverse

/-- The words of a list after its first item. -/
def dropItem : List QWord → List QWord
  | [] => []
  | w :: r => if w.last then r else dropItem r

/-- n items dropped. -/
def dropItems : Nat → List QWord → List QWord
  | 0, l => l
  | n + 1, l => dropItems n (dropItem l)

/-- The conditions of a bank swap (R257). -/
def Queue.canSwap (x : Queue) : Bool := x.cons.isEmpty && !x.complete.isEmpty && !x.swap

/-- Is the queue empty for reading: no unread word and no swap running or possible (R258); a read that
would begin an item which a pending flush discards finds it empty as well (R264). -/
def Queue.readEmpty (x : Queue) : Bool :=
  (x.cons.isEmpty && !x.canSwap && !x.swap) ||
    (x.reader == 0 && x.flush && (!x.fixed || decide (0 < x.flushN)))

/-- Can a read be served now. -/
def Queue.canRead (x : Queue) : Bool := !x.readEmpty && !x.cons.isEmpty && !x.swap

/-- Can a write be served now (R258). -/
def Queue.canWrite (x : Queue) : Bool := decide (x.prod.length < 256) && !x.swap

/-- The flush point has come: every item complete by now is to be discarded (R264). -/
def Queue.fixFlush (x : Queue) : Queue :=
  if x.flush && !x.fixed then { x with fixed := true, flushN := x.count } else x

/-- A word is read by `who`: the word and the queue after it (R256, R264). -/
def Queue.read (x : Queue) (who : Nat) : QWord × Queue :=
  match x.cons with
  | [] => (⟨0, false⟩, x)
  | w :: r =>
    if w.last then (w, { x with cons := r, reader := 0, flushN := x.flushN - 1 })
    else (w, { x with cons := r, reader := who })

/-- A word is written by `who`; it ends its item with END or as the item's 256th word (R256). -/
def Queue.write (x : Queue) (who v : Nat) (fin : Bool) : Queue :=
  let last := fin || x.partialWords.length == 255
  let y := { x with prod := x.prod ++ [⟨v, last⟩], writer := if last then 0 else who }
  if last then y.fixFlush else y

/-- A served access moves the rotation pointer past its port (R255). -/
def servePort (s : State) (port : Nat) : State := s.set I.quePtr ((port + 1) % 68)

/-- The queue's read through a port: the word (R178, R255). -/
def queueRead (s : State) (q port who : Nat) : QWord × State :=
  let r := (s.queue q).read who
  (r.1, (servePort s port).setQueue q r.2)

/-- The queue's write through a port. -/
def queueWrite (s : State) (q port who v : Nat) (fin : Bool) : State :=
  (servePort s port).setQueue q ((s.queue q).write who v fin)

/-- The partial items of an initiator are discarded (R261); the discard of an item in progress is the
flush point of a pending flush (R264, R266). -/
def Queue.discard (x : Queue) (who : Nat) : Queue :=
  let x := if x.reader == who then { x with cons := dropItem x.cons, reader := 0, flushN := x.flushN - 1 }
    else x
  if x.writer == who then { x with prod := x.complete, writer := 0 }.fixFlush else x

/-- PARTIAL_ITEM_DISCARD: the end of a signal-core job (R261). -/
def discardPartial (s : State) (who : Nat) : State :=
  s.over (s.queues.map (·.1)) fun s q => s.setQueue q ((s.queue q).discard who)

/-- QUEUE_SWAP (R257): the complete items become the consumer bank; accesses wait. -/
def execQueueSwap (q : BitVec 8) (s : State) : Host.Outcome State Fault Refusal :=
  let x := s.queue q.toNat
  if s.fabric && x.canSwap then
    go (s.setQueue q.toNat { x with cons := x.complete, prod := x.partialWords, swap := true })
  else go s

/-- QUEUE_SWAP_DONE (R257). -/
def execQueueSwapDone (q : BitVec 8) (s : State) : Host.Outcome State Fault Refusal :=
  go (s.setQueue q.toNat { s.queue q.toNat with swap := false })

/-- FLUSH: between items of the producer the flush point is now (R264); no effect while one is pending
(R266). -/
def queueFlush (s : State) (q : Nat) : State :=
  let x := s.queue q
  if x.flush then s
  else
    let y := { x with flush := true, fixed := false, flushN := 0 }
    s.setQueue q (if x.partialWords.isEmpty then y.fixFlush else y)

/-- RESET discards everything at once (R265). -/
def queueReset (s : State) (q : Nat) : State := s.setQueue q Queue.empty

/-- A write of QUE_Q_CMD or QUE_CMDq: RESET acts before FLUSH (R266). -/
def queueCmd (s : State) (q v : Nat) : State :=
  if bitOf v 1 then queueReset s q else if bitOf v 0 then queueFlush s q else s

/-- QUEUE_FLUSH (R264), through QUE_CMDq. -/
def execQueueFlush (_ini : Init) (q : BitVec 8) (s : State) : Host.Outcome State Fault Refusal :=
  if s.fabric then go (queueCmd s q.toNat 1) else go s

/-- QUEUE_FLUSH_DONE (R264): the consumer is between items; the items that ended by the flush point are
discarded. -/
def execQueueFlushDone (q : BitVec 8) (s : State) : Host.Outcome State Fault Refusal :=
  let x := s.queue q.toNat
  if s.fabric && x.flush && x.fixed && x.reader == 0 then
    let inCons := (x.cons.filter (·.last)).length
    let y := { x with cons := dropItems (min x.flushN inCons) x.cons,
                      prod := dropItems (x.flushN - inCons) x.prod,
                      flush := false, fixed := false, flushN := 0 }
    go (s.setQueue q.toNat y)
  else go s

/-- QUEUE_RESET (R265), through QUE_CMDq. -/
def execQueueReset (_ini : Init) (q : BitVec 8) (s : State) : Host.Outcome State Fault Refusal :=
  if s.fabric then go (queueCmd s q.toNat 2) else go s

/-- QUE_Q_COUNT as read for queue q: FLUSHPEND and COUNT (R259, R264). -/
def queueCountWord (s : State) (q : Nat) : Nat := b2n (s.queue q).flush * 2 ^ 31 + (s.queue q).count

/-- QUE_Q_CMD as read: FLUSH is 1 while a flush is pending. -/
def queueCmdWord (s : State) (q : Nat) : Nat := b2n (s.queue q).flush

end Sys2Proof.Machine
end

