-- ==== Sys2Proof/Machine/Tsu.lean ====
section
/-! DEFINITION.  The task scheduling unit: flags, readiness, rank, reservations, commits, the save and
the restoring of register banks, the end of jobs, cancellation, and the scheduling trace (R183–R214,
R104, R123–R128). -/

namespace Sys2Proof.Machine

/-! ## Trace (R213) -/

/-- The ns value of a time base. -/
def tbNs (s : State) (b : Nat) : Nat := s.rd F.TMU_TB_NS_NS b

abbrev evREADY := 1
abbrev evDISPATCH := 2
abbrev evPREEMPT := 3
abbrev evRESUME := 4
abbrev evEND := 5
abbrev evCANCEL := 6
abbrev evPROMOTE := 7
abbrev evHOLD := 8
abbrev evFAULT := 9

/-- Is an event of task t recorded: enabled, its class set, its TID in range. -/
def traced (s : State) (ev t : Nat) : Bool :=
  s.on F.TSU_TRCCFG_EN && bitOf (s.rd F.TSU_TRCCFG_EVMASK) (ev - 1) && decide (s.rd F.TSU_TRCFILT_TIDLO ≤ t) &&
    decide (t ≤ s.rd F.TSU_TRCFILT_TIDHI)

/-- Is the ring held by a Milestone, or about to be with no entry left to write (R501). -/
def traceHeld (s : State) : Bool := s.on F.MLS_STAT_TRCHELD || s.rd I.mlsPost == 1

/-- One entry is written at WP (R213). -/
def traceEntry (s : State) (ev t : Nat) (core : Option Nat) (aux : Nat) : State :=
  let wp := s.rd F.TSU_TRCSTAT_WP
  let seq := s.rd I.trcSeq
  let w1 := seq * 65536 + ev * 4096 + s.rd F.TSU_T_STAT_URGENT t * 2048 + s.rd F.TSU_T_CFG_LEVEL t * 64
  let w2 := t * 65536 + s.rd F.TSU_T_STAT_JSEQ t
  let w3 := (match core with | some c => 2 ^ 31 + c * 2 ^ 24 | none => 0) + aux % 2 ^ 24
  let s := (((s.wr I.trc (4 * wp) (tbNs s (s.rd F.TSU_TRCCFG_TB))).wr I.trc (4 * wp + 1) w1).wr I.trc (4 * wp + 2)
    w2).wr I.trc (4 * wp + 3) w3
  let s := ((s.set I.trcSeq (seq + 1)).set F.TSU_TRCSTAT_WP (wp + 1)).set F.TSU_TRCSTAT_COUNT
    (min 4096 (s.rd F.TSU_TRCSTAT_COUNT + 1))
  let s := if 1 < s.rd I.mlsPost then s.set I.mlsPost (s.rd I.mlsPost - 1) else s
  if !s.on F.TSU_TRCCFG_WRAP && s.rd F.TSU_TRCSTAT_COUNT == 4096 then
    (s.set F.TSU_TRCSTAT_FULL 1).set F.TSU_IRQSTAT_TRCFULL 1
  else s

/-- An event of task t: recorded, counted as lost in a ring stopped full, or counted while the ring is
held (R213, R501). -/
def trace (s : State) (ev t : Nat) (core : Option Nat) (aux : Nat) : State :=
  if !traced s ev t then s
  else if !s.on F.TSU_TRCCFG_WRAP && s.on F.TSU_TRCSTAT_FULL then
    s.bump F.TSU_TRCLOST_COUNT 0 (some F.TSU_IRQSTAT_CNTOVF)
  else if traceHeld s then s.bump F.MLS_HELDCNT_COUNT 0 (some F.MLS_IRQSTAT_CNTOVF)
  else traceEntry s ev t core aux

/-- A TSU statistics counter counts (R17). -/
def tsuCount (s : State) (f : Fld) : State := s.bump f 0 (some F.TSU_IRQSTAT_CNTOVF)

/-- The core of a task's STAT, if valid. -/
def taskCore (s : State) (t : Nat) : Option Nat :=
  if s.on F.TSU_T_STAT_CVALID t && !s.on F.TSU_T_STAT_RESV t then some (s.rd F.TSU_T_STAT_CORE t) else none

/-! ## Flags, readiness, rank -/

/-- A task's condition (R185). -/
def condition (s : State) (t : Nat) : Bool :=
  let m := s.rd F.TSU_T_MASK_MASK t
  let f := Nat.land (s.rd F.TSU_T_FLAGS_FLAGS t) m
  if s.on F.TSU_T_CFG_ALL t then m != 0 && f == m else f != 0

/-- Flags set on a task; an EMPTY slot ignores them (R184, R185). -/
def setFlags (s : State) (t fl : Nat) : State :=
  if taskSt s t = tEMPTY then s else s.wr F.TSU_T_FLAGS_FLAGS t (Nat.lor (s.rd F.TSU_T_FLAGS_FLAGS t) fl)

/-- Flags set on TIDs base to base + n − 1, none above 65,535 (R187). -/
def setGroup (s : State) (base n fl : Nat) : State :=
  s.over ((tasks s).filter fun t => decide (base ≤ t) && decide (t < base + n)) fun s t => setFlags s t fl

/-- Is core c enabled in TSU_COREEN. -/
def coreOn (s : State) (c : Nat) : Bool :=
  if c < 32 then bitOf (s.rd F.TSU_COREEN_LO_EN) c else bitOf (s.rd F.TSU_COREEN_HI_EN) (c - 32)

/-- The enabled cores in a task's affinity, ascending. -/
def affinity (s : State) (t : Nat) : List Nat :=
  (List.range 64).filter fun c => coreOn s c && bitOf (s.rd F.TSU_T_CFG_AFF t) (c / 8)

/-- Is core c idle: in WAITJOB, not halted, with no task committed (R190, R506). -/
def coreIdle (s : State) (c : Nat) : Bool := inWaitjob s c && !s.on I.cNext c && !s.on I.swPend c

/-- Does task a rank ahead of task b (R189). -/
def ranksAhead (s : State) (a b : Nat) : Bool :=
  let ua := s.on F.TSU_T_STAT_URGENT a
  let ub := s.on F.TSU_T_STAT_URGENT b
  if ua && ub then
    let d := diff32 (s.rd F.TSU_T_ABSDL_ABSDL a) (s.rd F.TSU_T_ABSDL_ABSDL b)
    d < 0 || (d == 0 && decide (s.rd I.tUrgPos a < s.rd I.tUrgPos b))
  else if ua != ub then ua
  else if s.rd I.tLvl a = s.rd I.tLvl b then decide (s.rd I.tPos a < s.rd I.tPos b)
  else decide (s.rd I.tLvl a < s.rd I.tLvl b)

/-- The budget level a task is charged to: its job's, or its own (R198, R207). -/
def budgetOf (s : State) (t : Nat) : Nat := if jobInProgress s t then s.rd I.jBl t else s.rd F.TSU_T_CFG_BLEVEL t

/-- Is a budget held (R198). -/
def budgetHeld (s : State) (b : Nat) : Bool :=
  s.on F.TSU_LVLCFG_CAP b && decide (s.rd F.TSU_LVLCFG_CAP b * 1024 ≤ s.rd F.TSU_LVLSTAT_USED b)

/-- STAT.HOLD of a task: held by its budget and not urgent. -/
def taskHeld (s : State) (t : Nat) : Bool := !s.on F.TSU_T_STAT_URGENT t && budgetHeld s (budgetOf s t)

/-- Does the serial group of a READY task block it (R195). -/
def groupBlocks (s : State) (t : Nat) : Bool :=
  if s.on F.TSU_T_STAT_RESUME t || !s.on F.TSU_T_CFG_SGEN t then false
  else
    let g := s.rd F.TSU_T_SG_SGRP t
    (tasks s).any (fun u => jobInProgress s u && s.on I.jSgen u && s.rd I.jSgrp u == g) ||
      (tasks s).any fun u =>
        taskSt s u == tREADY && !s.on F.TSU_T_STAT_RESUME u && s.on F.TSU_T_CFG_SGEN u &&
          s.rd F.TSU_T_SG_SGRP u == g && decide (s.rd I.tSince u < s.rd I.tSince t)

/-- Is a READY task eligible (R190). -/
def eligible (s : State) (t : Nat) : Bool :=
  s.on F.TSU_CTRL_RUN && taskSt s t == tREADY && !taskHeld s t && !groupBlocks s t && !(affinity s t).isEmpty

/-- The page set of the next dispatch: the job's working set, or the task's PSET; empty without a
context. -/
def nextSet (s : State) (t : Nat) : Nat :=
  if jobInProgress s t then (if s.on I.jCv t then s.rd I.jWs t else 0)
  else if s.on F.TSU_T_CTX_CV t then s.rd F.TSU_T_CTX_PSET t else 0

/-- The context of the next dispatch. -/
def nextCid (s : State) (t : Nat) : Nat := if jobInProgress s t then s.rd I.jCid t else s.rd F.TSU_T_CTX_CID t

/-- Does core c hold the whole page set of a task, one that has pages. -/
def coreHasSet (s : State) (t c : Nat) : Bool := nextSet s t != 0 && holdsSet s c (nextCid s t) (nextSet s t)

/-! ## Reservations (R191) -/

/-- The tasks that hold a reservation of core c. -/
def reservedOn (s : State) (c : Nat) : List Nat := (s.nonzero I.tResv).filter fun t => s.rd I.tResv t == c + 1

/-- Does reservation a have an earlier target than b: by the time that remains, then by notice and TID. -/
def earlierResv (s : State) (a b : Nat) : Bool :=
  let left := fun t => diff32 (s.rd I.tResvTgt t) (tbNs s (s.rd I.tResvTb t))
  left a < left b || (left a == left b && (decide (s.rd I.tResvSeq a < s.rd I.tResvSeq b) ||
    (s.rd I.tResvSeq a == s.rd I.tResvSeq b && decide (a < b))))

/-- The earliest reservation of core c. -/
def earliestResv (s : State) (c : Nat) : Option Nat :=
  (reservedOn s c).foldl
    (fun m t => match m with | none => some t | some u => if earlierResv s t u then some t else some u) none

/-- The task gives up its reservation. -/
def dropResv (s : State) (t : Nat) : State :=
  if s.on I.tResv t then
    let s := s.wr I.tResv t 0
    if s.on F.TSU_T_STAT_RESV t then (s.wr F.TSU_T_STAT_RESV t 0).wr F.TSU_T_STAT_CVALID t 0 else s
  else s

/-- A reservation given up because its task or its core may no longer use it: its staged set becomes
cached copies (R192, R208, R210). -/
def loseResv (s : State) (t : Nat) : State :=
  if s.on I.tResv t then dropResv (if jobInProgress s t then s else setToCached s t) t else s

/-- Is a task considered by a lookahead notice, whether or not it holds a reservation (R191). -/
def noticeNames (s : State) (t : Nat) : Bool :=
  (taskSt s t == tWAIT && s.on F.TSU_T_CFG_EN t) || (taskSt s t == tREADY && !s.on F.TSU_T_STAT_RESUME t)

/-- The core a notice reserves for a task, given the cores it has reserved already (R191). -/
def reserveCore (s : State) (t notice : Nat) : Option Nat :=
  let free := (affinity s t).filter fun c => !(reservedOn s c).any fun u => s.rd I.tResvSeq u == notice
  (free.find? fun c => coreHasSet s t c).orElse fun _ =>
  (free.find? fun c => cluSt s (c / 8) == clRUN).orElse fun _ => free.head?

/-- TASK_RESERVE for one named task (R191). -/
def reserveTask (s : State) (t notice target tb : Nat) : State :=
  if noticeNames s t && !s.on I.tResv t then
    match reserveCore s t notice with
    | none => s
    | some c =>
      let s := (((s.wr I.tResv t (c + 1)).wr I.tResvSeq t notice).wr I.tResvTgt t target).wr I.tResvTb t tb
      ((s.wr F.TSU_T_STAT_CVALID t 1).wr F.TSU_T_STAT_RESV t 1).wr F.TSU_T_STAT_CORE t c
  else s

/-! ## Commit (R188, R190–R193, R224, R238) -/

/-- The core a committed task gets among the idle enabled cores of its affinity (R192). -/
def chooseCore (s : State) (t : Nat) : Option Nat :=
  let idle := (affinity s t).filter (coreIdle s)
  (idle.find? fun c => s.rd I.tResv t == c + 1).orElse fun _ =>
  (idle.find? fun c => coreHasSet s t c).orElse fun _ =>
  (idle.find? fun c => cluSt s (c / 8) == clRUN && (reservedOn s c).isEmpty).orElse fun _ =>
  (idle.find? fun c => (reservedOn s c).isEmpty).orElse fun _ => idle.head?

/-- Where page 0 of a context lies while its control copies are swapped: in CST, or in its DRAM slot. -/
def page0Addr (s : State) (cid : Nat) : Option Nat :=
  match lvl s cid 0 with
  | 1 => some (pageAddr s cid 0)
  | 2 => some (slotAddr s cid 0)
  | 3 => some (if s.rd I.mapMove (entry cid 0) = 1 then pageAddr s cid 0 else slotAddr s cid 0)
  | _ => none

/-- CONTROL_SWAP (R238): a pending next copy becomes the active copy, and copies of page 0 made ahead are
made again.  A write-back of page 0 that waits completes first: it would put the old control back. -/
def controlSwap (s : State) (cid : Nat) : State :=
  if s.on F.CHW_CTX_STAT_CTLPEND cid then
    match page0Addr s cid with
    | none => s
    | some a =>
      let s := s.over ((frames s).filter fun i => holds s i cid 0 && frSt s i == fWBPEND) writeBackFrame
      refreshCopies ((s.copyMem (a + 0x200) a 0x200).wr F.CHW_CTX_STAT_CTLPEND cid 0) cid 0
  else s

/-- The staged set of a task stays only if it is the set of the coming dispatch on core c. -/
def keepOrCache (s : State) (t c : Nat) : State :=
  if s.on I.stCore t && (s.rd I.stCore t != c + 1 || s.rd I.jCid t != nextCid s t ||
      Nat.land (s.rd I.stSet t) (nextSet s t) != s.rd I.stSet t) then setToCached s t
  else s

/-- The fields a job takes from its task at its commit (R188, R207). -/
def beginJob (s : State) (t : Nat) : State :=
  let f := s.rd F.TSU_T_FLAGS_FLAGS t
  let used := Nat.land f (s.rd F.TSU_T_MASK_MASK t)
  let cid := s.rd F.TSU_T_CTX_CID t
  let cv := s.rd F.TSU_T_CTX_CV t
  let ws := if cv = 1 then
      maskOf ((pagesOf (s.rd F.TSU_T_CTX_PSET t)).filter fun v => !notPresent s cid v) else 0
  let s := ((s.wr I.jFlags t used).wr F.TSU_T_FLAGS_FLAGS t (f - used)).wr F.TSU_T_STAT_JSEQ t
    (s.rd F.TSU_T_STAT_JSEQ t + 1)
  let s := (((s.wr I.jEntry t (s.rd F.TSU_T_PC_ENTRY t)).wr I.jCv t cv).wr I.jCid t cid).wr I.jWs t ws
  let s := (((s.wr I.jSgen t (s.rd F.TSU_T_CFG_SGEN t)).wr I.jSgrp t (s.rd F.TSU_T_SG_SGRP t)).wr I.jPre t
    (s.rd F.TSU_T_CFG_PRE t)).wr I.jBl t (s.rd F.TSU_T_CFG_BLEVEL t)
  let s := ((((s.wr I.jRan t 0).wr I.jDisp t 0).wr I.jRec t 0).wr I.jRetry t 0).wr I.jScause t 0
  let s := ((s.wr I.jFault t 0).wr I.jTouch t 0).wr I.jCancel t 0
  if cv = 1 then controlSwap (s.wr F.CHW_CTX_STAT_AGE cid 0) cid else s

/-- Task t is committed to core c (R188, R192, R193): flags are consumed for a new job; a reservation for
another core is dropped and counted; another task's set staged ahead becomes cached copies; the cluster
is woken. -/
def commitTask (s : State) (t c : Nat) : State :=
  let s := if s.on I.tResv t && s.rd I.tResv t != c + 1 then tsuCount s F.TSU_RESVMISS_COUNT else s
  let s := dropResv s t
  let hit := coreHasSet s t c
  let s := s.over ((s.nonzero I.stCore).filter fun u => u != t && s.rd I.stCore u == c + 1 && !jobInProgress s u)
    setToCached
  let s := keepOrCache s t c
  let s := if s.on F.TSU_T_STAT_RESUME t then s else beginJob s t
  let s := if hit then cpgCount s F.CPG_HITCNT_COUNT else s
  let s := ((s.wr F.TSU_T_STAT_STATE t tCOMMITTED).wr F.TSU_T_STAT_CVALID t 1).wr F.TSU_T_STAT_CORE t c
  let s := ((s.wr I.cNext c (t + 1)).wr I.jOrd t (s.rd I.commitSeq)).set I.commitSeq (s.rd I.commitSeq + 1)
  cluWake s (c / 8)

/-! ## Pre-emption (R200, R201) -/

/-- Is the job on core c a possible victim of a ready task (R200). -/
def mayBeVictim (s : State) (t c : Nat) : Bool :=
  s.on I.cJob c && !s.on I.cNext c && !s.on I.swPend c &&
    (let v := s.rd I.cJob c - 1
     taskSt s v == tRUNNING && s.on I.jPre v && !s.on F.TSU_T_STAT_URGENT v &&
       (s.on F.TSU_T_STAT_URGENT t || decide (s.rd I.tLvl t < s.rd I.tLvl v)))

/-- Is the job on core c a better victim than that on core d: lower rank, then committed later, then a
higher core. -/
def betterVictim (s : State) (c d : Nat) : Bool :=
  let v := s.rd I.cJob c - 1
  let w := s.rd I.cJob d - 1
  decide (s.rd I.tLvl w < s.rd I.tLvl v) ||
    (s.rd I.tLvl w == s.rd I.tLvl v && (decide (s.rd I.jOrd w < s.rd I.jOrd v) ||
      (s.rd I.jOrd w == s.rd I.jOrd v && decide (d < c))))

/-- The core of the victim, if any. -/
def chooseVictim (s : State) (t : Nat) : Option Nat :=
  ((affinity s t).filter (mayBeVictim s t)).foldl
    (fun m c => match m with | none => some c | some d => if betterVictim s c d then some c else some d) none

/-- PREEMPT_CHOOSE (R200, R201): a ready task that finds no idle core is committed to its victim's core. -/
def preemptChoose (s : State) (t : Nat) : State :=
  if eligible s t && !(affinity s t).any (coreIdle s) then
    match chooseVictim s t with
    | none => s
    | some c =>
      let v := s.rd I.cJob c - 1
      commitTask (trace s evPREEMPT v (some c) t) t c
  else s

/-! ## Entering READY -/

/-- A place at the tail of a list, or at its head. -/
def placeTail (s : State) (f : Fld) (t : Nat) : State :=
  (s.wr f t (s.rd I.ordTail)).set I.ordTail (s.rd I.ordTail + 1)
def placeHead (s : State) (f : Fld) (t : Nat) : State :=
  (s.wr f t (s.rd I.ordHead)).set I.ordHead (s.rd I.ordHead - 1)

/-- A task enters READY for a new job (R186, R196, R200). -/
def enterReady (s : State) (t : Nat) : State :=
  let s := ((s.wr F.TSU_T_STAT_STATE t tREADY).wr F.TSU_T_STAT_RESUME t 0).wr F.TSU_T_STAT_URGENT t 0
  let s := (s.wr I.tLvl t (s.rd F.TSU_T_CFG_LEVEL t)).wr I.tSince t (s.rd I.ordTail)
  let s := placeTail s I.tPos t
  let d := s.rd F.TSU_T_DL_DEADLINE t
  let s := (s.wr I.jHasDl t (b2n (d != 0))).wr F.TSU_T_ABSDL_ABSDL t (if d = 0 then 0 else tbNs s 2 + d * 100)
  preemptChoose (trace s evREADY t none 0) t

/-- A job in progress returns to READY (R201, R203, R210, R247): at the head or the tail of its level; an
urgent one at its place in the urgent band. -/
def reenterReady (s : State) (t : Nat) (head : Bool) : State :=
  let s := ((s.wr F.TSU_T_STAT_STATE t tREADY).wr F.TSU_T_STAT_RESUME t 1).wr F.TSU_T_STAT_CVALID t 0
  let s := s.wr I.tLvl t (s.rd F.TSU_T_CFG_LEVEL t)
  preemptChoose (if head then placeHead s I.tPos t else placeTail s I.tPos t) t

/-- A READY task without a job leaves its list. -/
def backToWait (s : State) (t : Nat) : State :=
  if taskSt s t = tREADY && !s.on F.TSU_T_STAT_RESUME t then
    (s.wr F.TSU_T_STAT_STATE t tWAIT).wr F.TSU_T_STAT_URGENT t 0
  else s

/-! ## Banks: landing, saving, restoring (R104, R126–R128) -/

/-- A result lands. -/
def land (s : State) (l : Landing) : State := s.wr l.fld l.inst (l.into (s.rd l.fld l.inst))

/-- Results that fall due together land: those in some bits of a register after whole ones (R112, R150). -/
def landDue (s : State) (l : List Landing) : State :=
  s.over (l.filter (·.mask.isNone) ++ l.filter (·.mask.isSome)) land

/-- Every result in flight of a bank lands, in the order of the bundles they are due for (R112, R126 step 3). -/
def landAll (s : State) (b : Nat) : State :=
  let s' := s.over [1, 2, 3] fun s k => landDue s ((inFlight s b).filter (·.left == k))
  { s' with landings := Tbl.drop b s'.landings, macShadow := Tbl.drop b s'.macShadow }

/-- The cells of the suspend record and of the debug view: word offset in the record to the cells it
holds, lowest bits first (R127); AC halves take two words. -/
def recordWord (b off : Nat) : List (Fld × Nat × Nat) :=
  if off < 0x40 then [(I.d, 32 * b + off / 2, 16), (I.d, 32 * b + off / 2 + 1, 16)]
  else if off < 0xC0 then []
  else if off < 0x100 then [(I.p, 16 * b + (off - 0xC0) / 4, 32)]
  else if off < 0x120 then [(I.m, 8 * b + (off - 0x100) / 4, 32)]
  else if off < 0x140 then [(I.bb, 8 * b + (off - 0x120) / 4, 32)]
  else if off < 0x160 then [(I.ll, 8 * b + (off - 0x140) / 4, 32)]
  else if off < 0x168 then [(I.lc, 2 * b + (off - 0x160) / 4, 32)]
  else if off < 0x170 then [(I.ls, 2 * b + (off - 0x168) / 4, 32)]
  else if off < 0x178 then [(I.le, 2 * b + (off - 0x170) / 4, 32)]
  else match off with
    | 0x178 => [(I.rrb, b, 32)]
    | 0x17C => [(I.cmode, b, 32)]
    | 0x180 => [(I.flZ, b, 1), (I.flN, b, 1), (I.flC, b, 1), (I.flV, b, 5), (I.acov, b, 24)]
    | 0x184 => [(I.jobid, b, 32)]
    | 0x188 => [(I.ctxv, b, 32)]
    | 0x18C => [(I.pcb, b, 32)]
    | 0x190 => [(I.act, b, 2), (I.rot, b, 28)]
    | 0x194 => [(I.btgt, b, 32)]
    | 0x1A0 => [(I.trapv, b, 32)]
    | 0x1A4 => [(I.trpc, b, 32)]
    | 0x1A8 => [(I.tcause, b, 32)]
    | 0x1AC => [(I.taddr, b, 32)]
    | 0x1B0 => [(I.tds, b, 32)]
    | 0x1B4 => [(I.tbtgt, b, 32)]
    | _ => []

/-- The value a list of cells spells, lowest bits first, each over its span of bits. -/
def spell (s : State) : List (Fld × Nat × Nat) → Nat
  | [] => 0
  | (f, i, n) :: r => s.rd f i + 2 ^ n * spell s r

/-- The cells of a list take the bits of v. -/
def unspell (s : State) (v : Nat) : List (Fld × Nat × Nat) → State
  | [] => s
  | (f, i, n) :: r => unspell (s.wr f i (v % 2 ^ n)) (v / 2 ^ n) r

/-- PDB: delay bundles still to issue before a branch that is taken (R103, TDS). -/
def pdb (s : State) (b : Nat) : Nat := if s.on I.btaken b then s.rd I.dly b else 0

/-- The word of bank b at a record offset (R127). -/
def recordRead (s : State) (b off : Nat) : Nat :=
  if 0x40 ≤ off && off < 0xC0 then
    let k := (off - 0x40) / 8
    let v := ofInt 64 (signedOf 40 (s.rd I.ac (16 * b + k)))
    if (off - 0x40) % 8 = 0 then v % 2 ^ 32 else v / 2 ^ 32
  else if off = 0x190 then pdb s b + 4 * spell s (recordWord b off)
  else spell s (recordWord b off)

/-- Bank b takes the word at a record offset. -/
def recordWrite (s : State) (b off v : Nat) : State :=
  if 0x40 ≤ off && off < 0xC0 then
    let k := (off - 0x40) / 8
    let old := s.rd I.ac (16 * b + k)
    s.wr I.ac (16 * b + k)
      (if (off - 0x40) % 8 = 0 then old / 2 ^ 32 * 2 ^ 32 + v % 2 ^ 32 else v % 256 * 2 ^ 32 + old % 2 ^ 32)
  else if off = 0x190 then
    unspell ((s.wr I.dly b (v % 4)).wr I.btaken b (b2n (v % 4 != 0))) (v / 4) (recordWord b off)
  else if off = 0x17C then s.wr I.cmode b (Nat.land v maskMode)
  else if off = 0x1A8 then s.wr I.tcause b (Nat.land v maskCause)
  else unspell s v (recordWord b off)

/-- The word offsets of the record that hold registers: 0x000–0x1B7. -/
def recordOffsets : List Nat := (List.range 110).map (4 * ·)

/-- The bank of a leaving job is written to the suspend record at address a, reserved bytes zero (R127). -/
def saveRecord (s : State) (b a scause saddr : Nat) : State :=
  let s' := s.over recordOffsets fun t off => t.writeLE (a + off) 4 (recordRead s b off)
  (((s'.writeLE (a + 0x198) 4 scause).writeLE (a + 0x19C) 4 saddr).loseMem (a + 0x1B8) 72)

/-- Bank b takes the registers of a suspend record, word by word (R128). -/
def restoreRecord (s : State) (b : Nat) (word : Nat → Nat) : State :=
  s.over (recordOffsets.filter fun off => off != 0x198 && off != 0x19C) fun s off => recordWrite s b off (word off)

/-- Delay and loop state of a bank in the TDS layout (R130). -/
def dsWord (s : State) (b : Nat) : Nat := recordRead s b 0x190

/-- Every register of a bank becomes zero. -/
def clearBank (s : State) (b : Nat) : State :=
  let s := s.over recordOffsets fun s off => recordWrite s b off 0
  ((((s.wr I.cycle b 0).wr I.btaken b 0).wr I.arith b 0).wr I.arithAge b 0)

/-- A freshly dispatched job's bank (R104): PC at the entry, JOBID and CTXV from the task, MODE 0x800,
TRAPV the device-wide default. -/
def initBank (s : State) (b t : Nat) : State :=
  let s := clearBank s b
  let s := (s.wr I.pcb b (s.rd I.jEntry t * 4)).wr I.jobid b (s.rd F.TSU_T_STAT_JSEQ t * 65536 + t)
  let s := s.wr I.ctxv b (s.rd I.jWs t * 65536 + s.rd I.jCv t * 32768 + s.rd I.jCid t)
  (s.wr I.cmode b 0x800).wr I.trapv b (s.rd F.TSU_TRAPV_ADDR * 4)

/-- The active bank of core c that holds a returning job's registers still, if one does (R128). -/
def intactBank (s : State) (c t : Nat) : Option Nat :=
  [0, 1].find? fun k => s.rd I.bankJob (2 * c + k) == t + 1 && !(k != s.rd I.bank c && s.on I.obusy c)

/-- A returning job's registers: kept in their bank, or restored from the suspend record in page 0 (R128);
a job without a page 0 has no record, and its registers are not defined. -/
def resumeBank (s : State) (c t : Nat) : State :=
  match intactBank s c t with
  | some k => s.wr I.bank c k
  | none =>
    let b := rbank s c
    let s := clearBank s b
    match (if s.on I.jCv t then stagedFrame s c t (s.rd I.jCid t) 0 else none) with
    | some i => restoreRecord s b fun off => s.readLE (frameAddr i + 0xC00 + off) 4
    | none =>
      let s' := restoreRecord s b fun off => Config.freeNat (s.freeCtr + off)
      { s' with freeCtr := s.freeCtr + 440 }

/-! ## Dispatch (R193) -/

/-- Is the bank of task t's job being saved: its frames stay until the save completes (R126, R228). -/
def leaving (s : State) (t : Nat) : Bool := (List.range 64).any fun c => s.rd I.cLeave c == t + 1

/-- Is task t ready for a core: its set staged there, and no bank of its job still being saved (R128, R193). -/
def setReady (s : State) (c t : Nat) : Bool := (!s.on I.jCv t || setStaged s c t) && !leaving s t

/-- The commit of core c is dispatched: DISPATCH or RESUME is traced, new jobs are counted once (R104,
R128, R193, R201, R210). -/
def dispatchOn (s : State) (c : Nat) : State :=
  let t := s.rd I.cNext c - 1
  let s := if s.on I.jCv t then s.wr I.jWs t (s.rd I.stSet t) else s
  let s := if s.on I.jRec t then resumeBank s c t else initBank s (rbank s c) t
  let b := rbank s c
  let s := s.over ((s.nonzero I.bankJob).filter fun k => s.rd I.bankJob k == t + 1) fun s k => s.wr I.bankJob k 0
  let s := ((s.wr F.TSU_T_STAT_STATE t tRUNNING).wr F.TSU_T_STAT_RESUME t 0).wr I.cJob c (t + 1)
  let s := (((s.wr I.cNext c 0).wr I.waiting c 0).wr I.bankJob b (t + 1)).wr I.jDisp t 1
  let s := { s with bundles := Tbl.drop c s.bundles }
  if s.on I.jRec t then trace s evRESUME t (some c) (s.rd I.jScause t)
  else
    let s := if s.on I.jRan t then s else (tsuCount s F.TSU_DISPCNT_COUNT).wr I.jRan t 1
    trace s evDISPATCH t (some c) (s.rd I.jFlags t)

/-- Is the commit of core c ready to be dispatched there: set staged, cluster in RUN, no job on the core
(R193). -/
def mayDispatch (s : State) (c : Nat) : Bool :=
  s.serving && s.on I.cNext c && !s.on I.cJob c && !s.on I.swPend c && cluSt s (c / 8) == clRUN &&
    setReady s c (s.rd I.cNext c - 1)

/-! ## Traps (R129–R132) -/

/-- Is bank b in a trap handler: TCAUSE.INTRAP. -/
def inTrap (s : State) (b : Nat) : Bool := bitOf (s.rd I.tcause b) 31

/-- What a trap does in bank b (R129): every older bundle completes; TRPC, TDS and TBTGT hold the first
cancelled bundle and its delay and loop state, TADDR and TCAUSE the cause; the handler begins outside
every loop and delay slot. -/
def trapBank (s : State) (b code info addr : Nat) (imprecise : Bool) : State :=
  let s := landAll s b
  let s := ((s.wr I.trpc b (s.rd I.pcb b)).wr I.tds b (dsWord s b)).wr I.tbtgt b (s.rd I.btgt b)
  let s := (s.wr I.taddr b addr).wr I.tcause b (2 ^ 31 + b2n imprecise * 2 ^ 30 + info % 16 * 256 + code % 16)
  (((s.wr I.pcb b (s.rd I.trapv b / 4 * 4)).wr I.act b 0).wr I.dly b 0).wr I.btaken b 0

/-- An ARITH trap that is due is taken in bank b, outside a handler (R130). -/
def arithBank (s : State) (b : Nat) : State :=
  if s.on I.arith b && !inTrap s b then (trapBank s b 8 (s.rd I.arith b - 1) 0 true).wr I.arith b 0 else s

/-! ## Leaving the core (R123–R126) -/

/-- The job of core c leaves its bank, to be saved, an ARITH trap that is due having been taken; the core
switches to the other bank (R126, R130). -/
def leaveCore (s : State) (c scause saddr : Nat) : State :=
  let b := rbank s c
  let t := s.rd I.cJob c - 1
  let s := noSet (arithBank (landAll s b) b) t
  let s := { s with bundles := Tbl.drop c s.bundles }
  let s := (((s.wr I.cLeave c (t + 1)).wr I.cLeaveRun c scause).wr I.cLeaveAddr c saddr).wr I.obusy c 1
  let s := (((s.wr I.bank c (1 - s.rd I.bank c)).wr I.cJob c 0).wr I.waiting c 1).wr I.qstall c 0
  ((s.wr I.jRec t 1).wr I.jScause t scause).wr F.TSU_T_STAT_CVALID t 0

/-- Where the leaving task goes: PAGEWAIT on a fault, the head of its level when pre-empted, the tail
after YIELD (R201, R203). -/
def placeLeaver (s : State) (t scause : Nat) : State :=
  if scause = 2 then s.wr F.TSU_T_STAT_STATE t tPAGEWAIT else reenterReady s t (scause == 1)

/-- The switch of core c with SCAUSE, the other bank being free (R123, R126, R201, R211): a pre-emptor whose
switch was requested takes the core, and the switch counts. -/
def switchNow (s : State) (c scause saddr : Nat) : State :=
  let t := s.rd I.cJob c - 1
  let requested := s.on I.cNext c && setReady s c (s.rd I.cNext c - 1)
  let s := (leaveCore s c scause saddr).wr I.swPend c 0
  let s := if requested then dispatchOn (tsuCount s F.TSU_PREEMPTCNT_COUNT) c else s
  placeLeaver s t scause

/-- A job leaves its core on a page fault or YIELD: at once, or once the other bank's save is complete
(R123). -/
def requestSwitch (s : State) (c scause saddr : Nat) : State :=
  if s.on I.obusy c then (s.wr I.swPend c scause).wr I.swAddr c saddr else switchNow s c scause saddr

/-! ## The end of a job -/

/-- A job that ends after its deadline is a miss (R196); whether it was. -/
def isLate (s : State) (t : Nat) : Bool :=
  s.on I.jHasDl t && decide (0 < diff32 (tbNs s 2) (s.rd F.TSU_T_ABSDL_ABSDL t))
def countMiss (s : State) (t : Nat) : State :=
  if isLate s t then ((tsuCount s F.TSU_MISSCNT_COUNT).set F.TSU_IRQSTAT_MISS 1).errEvent 2 else s

/-- What every end of a job does: its partial queue items are discarded, its frames go to write-back, it
holds nothing more, and its task is in WAIT (R204, R208, R211, R227, R261). -/
def closeJob (s : State) (t : Nat) : State :=
  let s := discardPartial s (t + 1)
  let s := noSet (if leaving s t then s else releaseFrames s t) t
  let s := (((s.wr I.jWs t 0).wr I.jFault t 0).wr I.jTouch t 0).wr I.jRec t 0
  let s := ((s.wr I.jCancel t 0).wr F.TSU_T_CMD_CANCEL t 0).wr F.TSU_T_STAT_URGENT t 0
  ((s.wr F.TSU_T_STAT_STATE t tWAIT).wr F.TSU_T_STAT_RESUME t 0).wr F.TSU_T_STAT_CVALID t 0

/-- The core of an ended job waits as after WAITJOB; nothing of the bank is kept (R174). -/
def freeCore (s : State) (c : Nat) : State :=
  let b := rbank s c
  let s := { s with bundles := Tbl.drop c s.bundles, landings := Tbl.drop b s.landings,
                    macShadow := Tbl.drop b s.macShadow }
  ((((s.wr I.cJob c 0).wr I.waiting c 1).wr I.qstall c 0).wr I.swPend c 0).wr I.bankJob b 0

/-- A task whose job has ended becomes ready again if its condition holds (R25, R204). -/
def reevaluate (s : State) (t : Nat) : State :=
  if s.on F.TSU_T_CFG_EN t && condition s t then enterReady s t else s

/-- ENDJOB on core c, as TSU records it (R204). -/
def endJob (s : State) (c : Nat) : State :=
  let t := s.rd I.cJob c - 1
  let b := rbank s c
  let late := isLate s t
  let s := trace (countMiss s t) evEND t (some c) (b2n late * 2 ^ 23 + min (s.rd I.cycle b) (2 ^ 23 - 1))
  reevaluate (closeJob (freeCore s c) t) t

/-- TSU_FAULTREC and TSU_FAULTTID keep the first FAULT (R205). -/
def recordFault (s : State) (c t code : Nat) : State :=
  if s.on F.TSU_FAULTREC_VALID then s.set F.TSU_FAULTREC_OVF 1
  else
    (((((s.set F.TSU_FAULTREC_VALID 1).set F.TSU_FAULTREC_CORE c).set F.TSU_FAULTREC_CODE code).set
      F.TSU_FAULTTID_JSEQ (s.rd F.TSU_T_STAT_JSEQ t))).set F.TSU_FAULTTID_TID t

/-- JOB_FAULT: the job of core c ends as a FAULT (R132, R205). -/
def jobFault (s : State) (c code : Nat) : State :=
  let t := s.rd I.cJob c - 1
  let s := trace (countMiss (recordFault s c t code) t) evFAULT t (some c) code
  let s := closeJob (freeCore s c) t
  ((s.wr F.TSU_T_CFG_EN t 0).set F.TSU_IRQSTAT_FAULT 1).errEvent 1

/-! ## Cancellation (R208) and the withdrawal of commits (R202, R210) -/

/-- The commit of core c is withdrawn: the staged pages remain as cached copies; a switch not yet taken
is recalled (R208, R210). -/
def withdrawCommit (s : State) (c : Nat) : State :=
  let t := s.rd I.cNext c - 1
  (setToCached s t).wr I.cNext c 0

/-- May the job of core c stop now: the core is at a bundle boundary, or stalled on a queue (R124). -/
def atBoundary (s : State) (c : Nat) : Bool :=
  let b := Tbl.get Bundle.empty s.bundles c
  b.n == 0 || (b.closed && s.on I.qstall c)

/-- Is a halt due or in force on core c: a switch waits, and so does a CANCEL once it halted (R506, R508). -/
def halting (s : State) (c : Nat) : Bool := haltReq s c || halted s c

/-- The cancelled job of core c stops; its bank is discarded (R208). -/
def stopCancelled (s : State) (c : Nat) : State :=
  let t := s.rd I.cJob c - 1
  closeJob (freeCore (countMiss s t) c) t

/-- The core on which a task's job runs. -/
def runningOn (s : State) (t : Nat) : Option Nat := (List.range 64).find? fun c => s.rd I.cJob c == t + 1

/-- The job in progress of a cancelled task (R208). -/
def cancelJob (s : State) (t : Nat) : State :=
  if taskSt s t = tRUNNING then
    match runningOn s t with
    | none => closeJob s t
    | some c =>
      if atBoundary s c && !halted s c then stopCancelled s c
      else ((s.wr I.jCancel t 1).wr F.TSU_T_CMD_CANCEL t 1).wr F.TSU_T_STAT_STATE t tWAIT
  else if taskSt s t = tCOMMITTED then
    closeJob (countMiss (withdrawCommit s (s.rd F.TSU_T_STAT_CORE t)) t) t
  else if jobInProgress s t then closeJob (countMiss s t) t
  else backToWait s t

/-- CANCEL of a task (R208); `race` says that it would have become ready in the same cycle (R26, R211). -/
def cancelTask (s : State) (t : Nat) (race : Bool) : State :=
  if taskSt s t = tEMPTY || s.on I.jCancel t then s
  else
    let won := race && taskSt s t == tWAIT && s.on F.TSU_T_CFG_EN t && condition s t
    let s := if won then (tsuCount s F.TSU_RACECNT_COUNT).set F.TSU_IRQSTAT_RACE 1 else s
    let s := trace s evCANCEL t (taskCore s t) (b2n won)
    let s := ((s.wr F.TSU_T_FLAGS_FLAGS t 0).wr F.TSU_T_CFG_EN t 0).wr F.TSU_T_CMD_REFUSED t 0
    cancelJob (loseResv s t) t

/-! ## Task registers (R183, R186, R206, R207, R209) -/

/-- A slot returns to EMPTY with every field reset (R183). -/
def emptySlot (s : State) (t : Nat) : State :=
  s.over [F.TSU_T_PC_ENTRY, F.TSU_T_CFG_EN, F.TSU_T_CFG_PRE, F.TSU_T_CFG_ALL, F.TSU_T_CFG_SGEN,
    F.TSU_T_CFG_LEVEL, F.TSU_T_CFG_BLEVEL, F.TSU_T_CFG_AFF, F.TSU_T_MASK_MASK, F.TSU_T_FLAGS_FLAGS,
    F.TSU_T_CTX_CV, F.TSU_T_CTX_CID, F.TSU_T_CTX_PSET, F.TSU_T_DL_DEADLINE, F.TSU_T_SG_SGRP,
    F.TSU_T_STAT_JSEQ, F.TSU_T_STAT_CVALID, F.TSU_T_STAT_RESV, F.TSU_T_STAT_CORE, F.TSU_T_STAT_URGENT,
    F.TSU_T_STAT_RESUME, F.TSU_T_STAT_STATE, F.TSU_T_ABSDL_ABSDL, F.TSU_T_CMD_REFUSED,
    F.TSU_T_CMD_CANCEL, I.tResv] fun s f => s.wr f t (f.resetAt t)

/-- FREE (R209). -/
def freeTask (s : State) (t : Nat) : State :=
  if !s.on F.TSU_T_CFG_EN t && (taskSt s t == tWAIT || taskSt s t == tEMPTY) && !s.on I.jCancel t then
    emptySlot (loseResv s t) t
  else s.wr F.TSU_T_CMD_REFUSED t 1

/-- A write of TSU_T_CFG (R206, R207): AFF = 0 is not stored; EN = 0 takes a READY task without a job out
of its list; a READY task whose LEVEL changes moves to the tail of its new level. -/
def cfgWrite (s : State) (t v : Nat) : State :=
  let level := bits v 20 16
  let aff := bits v 7 0
  let moved := taskSt s t == tREADY && s.rd I.tLvl t != level
  let s := (((s.wr F.TSU_T_CFG_EN t (bitN v 31)).wr F.TSU_T_CFG_PRE t (bitN v 30)).wr F.TSU_T_CFG_ALL t
    (bitN v 29)).wr F.TSU_T_CFG_SGEN t (bitN v 28)
  let s := (s.wr F.TSU_T_CFG_LEVEL t level).wr F.TSU_T_CFG_BLEVEL t (bits v 12 8)
  let s := if aff = 0 then s else s.wr F.TSU_T_CFG_AFF t aff
  let s := if moved then placeTail (s.wr I.tLvl t level) I.tPos t else s
  let s := if s.on I.tResv t && (!bitOf v 31 ||
      !bitOf (s.rd F.TSU_T_CFG_AFF t) ((s.rd I.tResv t - 1) / 8)) then loseResv s t else s
  if bitOf v 31 then s else backToWait s t

/-- After a write of CLR or MASK a READY task without its condition returns to WAIT (R186). -/
def recheck (s : State) (t : Nat) : State := if condition s t then s else backToWait s t

/-- A write of TSU_T_FLAGS: CLR clears, then FLAGS sets (R185, R186). -/
def flagsWrite (s : State) (t v : Nat) : State :=
  let f := s.rd F.TSU_T_FLAGS_FLAGS t
  recheck (s.wr F.TSU_T_FLAGS_FLAGS t (Nat.lor (f - Nat.land f (bits v 31 16)) (bits v 15 0))) t

/-- A write of TSU_T_CTX: a PSET with more than 8 bits is not stored (R207). -/
def ctxWrite (s : State) (t v : Nat) : State :=
  let s := (s.wr F.TSU_T_CTX_CV t (bitN v 31)).wr F.TSU_T_CTX_CID t (bits v 30 16)
  if popcount 16 (bits v 15 0) ≤ 8 then s.wr F.TSU_T_CTX_PSET t (bits v 15 0) else s

/-- A write of TSU_T_CMD; with both bits, CANCEL acts and then FREE. -/
def taskCmdWrite (s : State) (t v : Nat) : State :=
  let s := if bitOf v 0 then cancelTask s t false else s
  if bitOf v 1 then freeTask s t else s

/-- A write to an instance register of slot t other than TSU_T_CMD (R183): the first makes the slot WAIT. -/
def taskRegWrite (s : State) (t off v : Nat) : State :=
  let s := if taskSt s t = tEMPTY then s.wr F.TSU_T_STAT_STATE t tWAIT else s
  match off with
  | 0x100 => s.wr F.TSU_T_PC_ENTRY t (bits v 31 2)
  | 0x104 => cfgWrite s t v
  | 0x108 => recheck (s.wr F.TSU_T_MASK_MASK t (bits v 15 0)) t
  | 0x10C => flagsWrite s t v
  | 0x110 => ctxWrite s t v
  | 0x114 => s.wr F.TSU_T_DL_DEADLINE t (bits v 19 0)
  | 0x118 => s.wr F.TSU_T_SG_SGRP t (bits v 14 0)
  | _ => s

/-- A write of TSU_COREEN for core c (R210). -/
def setCoreEn (s : State) (c : Nat) (en : Bool) : State :=
  let put := fun s : State => if c < 32 then
      s.set F.TSU_COREEN_LO_EN (putBit (s.rd F.TSU_COREEN_LO_EN) c en)
    else s.set F.TSU_COREEN_HI_EN (putBit (s.rd F.TSU_COREEN_HI_EN) (c - 32) en)
  if en || !coreOn s c then put s
  else
    let s := (put s).over (reservedOn s c) loseResv
    if s.on I.cNext c then
      let t := s.rd I.cNext c - 1
      reenterReady (withdrawCommit s c) t true
    else s

/-- CLR of TSU_TRCCLR empties the ring; SEQ stays (R213). -/
def traceClear (s : State) : State :=
  ((s.set F.TSU_TRCSTAT_COUNT 0).set F.TSU_TRCSTAT_WP 0).set F.TSU_TRCSTAT_FULL 0

/-- A read of word w of trace entry i (R214): word 0 latches the entry for an initiator with private
copies; the other words of the entry latched read the latch. -/
def traceRead (s : State) (ini : Init) (i w : Nat) : Nat × State :=
  match selCopy ini with
  | none => (s.rd I.trc (4 * i + w), s)
  | some k =>
    if w = 0 then
      let s' := s.over (List.range 4) fun t j => t.wr I.trcLatch (4 * k + j) (s.rd I.trc (4 * i + j))
      (s.rd I.trc (4 * i), s'.wr I.trcLatchIx k (i + 1))
    else if s.rd I.trcLatchIx k = i + 1 then (s.rd I.trcLatch (4 * k + w), s)
    else (s.rd I.trc (4 * i + w), s)

/-! ## Computed registers -/

/-- READY tasks that satisfy p. -/
def readyCount (s : State) (p : Nat → Bool) : Nat :=
  ((tasks s).filter fun t => taskSt s t == tREADY && p t).length

/-- TSU_CORESTATn (R193, R210): 0 IDLE, 1 COMMITTED, 2 RUNNING, 3 SWITCHING, 4 DISABLED, and the task. -/
def coreStatWord (s : State) (c : Nat) : Nat :=
  if s.on I.swPend c then 3 * 2 ^ 28 + (s.rd I.cJob c - 1)
  else if s.on I.cJob c then 2 * 2 ^ 28 + (s.rd I.cJob c - 1)
  else if s.on I.cNext c then 2 ^ 28 + (s.rd I.cNext c - 1)
  else if coreOn s c then 0 else 4 * 2 ^ 28

/-- TSU_CORERESVn (R191). -/
def coreResvWord (s : State) (c : Nat) : Nat :=
  match earliestResv s c with
  | none => 0
  | some t => 2 ^ 31 + min 63 (reservedOn s c).length * 65536 + t

/-- TSU_JOBFLAGS as an initiator reads it (R188). -/
def jobFlagsWord (s : State) : Init → Nat
  | .sgc c => if s.on I.cJob c.val then s.rd I.jFlags (s.rd I.cJob c.val - 1) else 0
  | _ => 0

end Sys2Proof.Machine
end

