-- ==== Sys2Proof/Machine/TsuRows.lean ====
section
/-! DEFINITION.  The commands of the task scheduling unit: writes of its registers, and the events that
move a task from state to state (R183–R214). -/

namespace Sys2Proof.Machine

/-- A write of register `off` of the instance window for slot t. -/
def taskWinWrite (s : State) (t off v : Nat) : State :=
  if off = 0x124 then taskCmdWrite s t v else taskRegWrite s t off v

/-- A write of a TSU instance register by an initiator, to the slot it has selected (R14, R183). -/
def tsuWinWrite (s : State) (ini : Init) (off v : Nat) : State :=
  if s.fabric then
    match selIx s ini F.TSU_SELECT_INDEX 65536 with
    | some t => taskWinWrite s t off v
    | none => s
  else s

/-- TASK_SLOT_FIRST_WRITE (R183). -/
def execTaskSlotFirstWrite (ini : Init) (off : BitVec 12) (v : Word) (s : State) :
    Host.Outcome State Fault Refusal := go (tsuWinWrite s ini off.toNat v.toNat)

/-- TASK_FLAGS_SET (R185): a write of TSU_T_FLAGS.FLAGS. -/
def execTaskFlagsSet (ini : Init) (fl : BitVec 16) (s : State) : Host.Outcome State Fault Refusal :=
  go (tsuWinWrite s ini 0x10C fl.toNat)

/-- TASK_FLAGS_CLR (R185, R186): a write of TSU_T_FLAGS.CLR. -/
def execTaskFlagsClr (ini : Init) (fl : BitVec 16) (s : State) : Host.Outcome State Fault Refusal :=
  go (tsuWinWrite s ini 0x10C (fl.toNat * 65536))

/-- A write of TSU_SIGNAL: flags [31:16] to the task [15:0] (R175, R187). -/
def signalWrite (s : State) (v : Nat) : State := setFlags s (v % 65536) (bits v 31 16)

/-- TSU_SIGNAL_WRITE (R175). -/
def execTsuSignalWrite (_ini : Init) (v : Word) (s : State) : Host.Outcome State Fault Refusal :=
  if s.fabric then go (signalWrite s v.toNat) else go s

/-- TASK_CFG_WRITE (R206, R207). -/
def execTaskCfgWrite (ini : Init) (v : Word) (s : State) : Host.Outcome State Fault Refusal :=
  go (tsuWinWrite s ini 0x104 v.toNat)

/-- TASK_READY (R186): a task in WAIT with EN = 1 whose condition holds enters READY. -/
def execTaskReady (t : BitVec 16) (s : State) : Host.Outcome State Fault Refusal :=
  if s.serving && taskSt s t.toNat == tWAIT && s.on F.TSU_T_CFG_EN t.toNat && condition s t.toNat &&
      !s.on I.jCancel t.toNat then
    go (enterReady s t.toNat)
  else go s

/-- The eligible tasks that have an idle core in their affinity (R190). -/
def committable (s : State) : List Nat := (tasks s).filter fun t => eligible s t && (chooseCore s t).isSome

/-- The first of some tasks in rank order (R189). -/
def firstInRank (s : State) (l : List Nat) : Option Nat :=
  l.foldl (fun m t => match m with | none => some t | some u => if ranksAhead s t u then some t else some u) none

/-- One commit, if any task can be committed (R190). -/
def commitOne (s : State) : State :=
  match firstInRank s (committable s) with
  | none => s
  | some t =>
    match chooseCore s t with
    | none => s
    | some c => commitTask s t c

/-- TASK_COMMIT (R188–R193, R238). -/
def execTaskCommit (s : State) : Host.Outcome State Fault Refusal := if s.serving then go (commitOne s) else go s

/-- TASK_DISPATCH (R193, R104, R128). -/
def execTaskDispatch (c : Fin 64) (s : State) : Host.Outcome State Fault Refusal :=
  if mayDispatch s c.val then go (dispatchOn s c.val) else go s

/-- May the pre-emption on core c be taken now: the pre-emptor's set is staged, the other bank is free,
and the core is where R124 takes a pre-emption (R123, R124, R201). -/
def maySwitch (s : State) (c : Nat) : Bool :=
  s.serving && s.on I.cJob c && s.on I.cNext c && !s.on I.obusy c && !s.on I.swPend c && atBoundary s c && !halting s c &&
    setReady s c (s.rd I.cNext c - 1)

/-- PREEMPT_SWITCH (R201, R123, R126). -/
def execPreemptSwitch (c : Fin 64) (s : State) : Host.Outcome State Fault Refusal :=
  if maySwitch s c.val then go (switchNow s c.val 1 0) else go s

/-- Has the deadline of a READY task come within its level's FLOOR (R197). -/
def promotable (s : State) (t : Nat) : Bool :=
  let floor := s.rd F.TSU_LVLCFG_FLOOR (s.rd I.tLvl t)
  taskSt s t == tREADY && s.on I.jHasDl t && !s.on F.TSU_T_STAT_URGENT t && floor != 0 &&
    decide (diff32 (s.rd F.TSU_T_ABSDL_ABSDL t) (tbNs s 2) < (floor * 100 : Nat))

/-- TASK_PROMOTE (R197, R199, R200). -/
def execTaskPromote (t : BitVec 16) (s : State) : Host.Outcome State Fault Refusal :=
  let t := t.toNat
  if s.serving && promotable s t then
    let s := placeTail (s.wr F.TSU_T_STAT_URGENT t 1) I.tUrgPos t
    go (preemptChoose (trace s evPROMOTE t (taskCore s t) 0) t)
  else go s

/-! ## Budgets (R198) -/

/-- HELD of budget b follows its account; the change from not held to held is traced once, with the task
whose cycles reached the cap. -/
def refreshHeld (s : State) (b t : Nat) : State :=
  let held := budgetHeld s b
  let was := s.on F.TSU_LVLSTAT_HELD b
  let s := s.wr F.TSU_LVLSTAT_HELD b (b2n held)
  if held && !was then trace s evHOLD t (taskCore s t) b else s

/-- Task t, whose job is charged to budget b, runs for n core cycles; USED stops at 2²⁷ − 1. -/
def chargeBudget (s : State) (b t n : Nat) : State :=
  refreshHeld (s.wr F.TSU_LVLSTAT_USED b (min (s.rd F.TSU_LVLSTAT_USED b + n) (2 ^ 27 - 1))) b t

/-- The start of a budget window: USED less CAP × 1,024, not below 0. -/
def windowBudget (s : State) (b : Nat) : State :=
  let s := s.wr F.TSU_LVLSTAT_USED b (s.rd F.TSU_LVLSTAT_USED b - s.rd F.TSU_LVLCFG_CAP b * 1024)
  s.wr F.TSU_LVLSTAT_HELD b (b2n (budgetHeld s b))

/-- BUDGET_WINDOW (R198, R211). -/
def execBudgetWindow (s : State) : Host.Outcome State Fault Refusal :=
  if s.fabric then go (s.over (List.range 32) windowBudget) else go s

/-- BUDGET_HELD (R198): the running job of task t, charged to budget b, reaches the cap. -/
def execBudgetHeld (b : Fin 32) (t : BitVec 16) (s : State) : Host.Outcome State Fault Refusal :=
  let t := t.toNat
  if s.serving && taskSt s t == tRUNNING && s.rd I.jBl t == b.val && s.on F.TSU_LVLCFG_CAP b.val &&
      !budgetHeld s b.val then
    go (chargeBudget s b.val t (s.rd F.TSU_LVLCFG_CAP b.val * 1024 - s.rd F.TSU_LVLSTAT_USED b.val))
  else go s

/-- A write of TSU_LVLCFGb: a new CAP may hold or release the budget at once (R198); the TID of a HOLD
traced for it is not stated by the spec, a free value. -/
def lvlcfgWrite (s : State) (b v : Nat) : State :=
  let s := (s.wr F.TSU_LVLCFG_FLOOR b (bits v 31 16)).wr F.TSU_LVLCFG_CAP b (bits v 15 0)
  let r := s.draw
  refreshHeld r.2 b (r.1 % 65536)

/-! ## Pages, cancellation, the rest -/

/-- A page a faulted job waits for: in CST, or taken at its first access (R232). -/
def faultPage (s : State) (cid v : Nat) : State :=
  if untouched s cid v then
    match firstAccess s cid v with
    | some s' => s'
    | none => (s.set F.CPG_STAT_RELOADWAIT 1).set F.CPG_IRQSTAT_RELOADWAIT 1
  else s

/-- PAGE_ARRIVED (R203, R232): every page the job of task t faulted on is in CST and joins its working
set; the task enters READY. -/
def execPageArrived (t : BitVec 16) (s : State) : Host.Outcome State Fault Refusal :=
  let t := t.toNat
  if s.serving && taskSt s t == tPAGEWAIT then
    let cid := s.rd I.jCid t
    let s := s.over (pagesOf (s.rd I.jFault t)) fun s v => faultPage s cid v
    if (pagesOf (s.rd I.jFault t)).all fun v => lvl s cid v == 1 then
      let s := (s.wr I.jWs t (Nat.lor (s.rd I.jWs t) (s.rd I.jFault t))).wr I.jFault t 0
      go (reenterReady s t true)
    else go s
  else go s

/-- CANCEL (R208, R211): a write of TSU_T_CMD.CANCEL; `race` says that the task would have become ready in
the same cycle. -/
def execCancel (ini : Init) (race : Bool) (s : State) : Host.Outcome State Fault Refusal :=
  match selIx s ini F.TSU_SELECT_INDEX 65536 with
  | some t => if s.fabric then go (cancelTask s t race) else go s
  | none => go s

/-- FREE (R209): a write of TSU_T_CMD.FREE. -/
def execFree (ini : Init) (s : State) : Host.Outcome State Fault Refusal := go (tsuWinWrite s ini 0x124 2)

/-- A write of TSU_COREEN_LO or TSU_COREEN_HI: each core in ascending order (R210). -/
def coreenWrite (s : State) (hi : Bool) (v : Nat) : State :=
  s.over (List.range 32) fun s k => setCoreEn s (k + 32 * b2n hi) (bitOf v k)

/-- COREEN_WRITE (R210). -/
def execCoreenWrite (_ini : Init) (hi : Bool) (v : Word) (s : State) : Host.Outcome State Fault Refusal :=
  if s.fabric then go (coreenWrite s hi v.toNat) else go s

/-- TRCCLR (R213): a write of 1 to TSU_TRCCLR.CLR. -/
def execTrcclr (_ini : Init) (s : State) : Host.Outcome State Fault Refusal :=
  if s.fabric then go (traceClear s) else go s

/-- TRACE_ENTRY_READ (R214): a read of word w of trace entry i. -/
def execTraceEntryRead (ini : Init) (i : BitVec 12) (w : Fin 4) (s : State) :
    Host.Outcome State Fault Refusal :=
  if s.fabric then
    let r := traceRead s ini i.toNat w.val
    go (r.2.seen (initCode ini) r.1)
  else go s

end Sys2Proof.Machine
end

