-- ==== Sys2Proof/Machine/Cpg.lean ====
section
/-! DEFINITION.  The context pager: errors and quarantine, context commands, staging, write-back,
spilling and reloading (R216–R248, R533). -/

namespace Sys2Proof.Machine

/-! ## The end of a DMA channel (R243) -/

abbrev dRUN := 1
abbrev dWAIT := 2
abbrev dDONE := 3
abbrev dERROR := 4
abbrev dABORTED := 5

/-- Is DMA channel n in RUN or WAIT. -/
def dmaActive (s : State) (n : Nat) : Bool :=
  s.rd F.DMA_C_STAT_STATE n == dRUN || s.rd F.DMA_C_STAT_STATE n == dWAIT

/-- Channel n ends: its state and error, its completion flags, its interrupt bit (R243). -/
def dmaEnd (s : State) (n st err : Nat) : State :=
  let s := ((s.wr F.DMA_C_STAT_STATE n st).wr F.DMA_C_STAT_ERR n err).wr I.dWait n 0
  let s := if bitOf (s.rd I.dMode n) 1 then
      setFlags s (s.rd I.dCmpl n % 65536) (bits (s.rd I.dCmpl n) 31 16) else s
  if st != dDONE || bitOf (s.rd I.dMode n) 0 then
    s.set F.DMA_IRQSTAT_CH (setBit (s.rd F.DMA_IRQSTAT_CH) n)
  else s

/-- Does channel n use the context view of a context on either side. -/
def dmaOn (s : State) (n cid : Nat) : Bool :=
  dmaActive s n && bitOf (s.rd I.dCtx n) 15 && s.rd I.dCtx n % 32768 == cid &&
    !(bitOf (s.rd I.dMode n) 3 && bitOf (s.rd I.dMode n) 2)

/-! ## Errors -/

/-- CPG_ECCREC and CPG_ECCADDR keep the first uncorrectable error; ECCUNC is raised (R245). -/
def eccRecord (s : State) (a mem cv cid : Nat) : State :=
  let s := if s.on F.CPG_ECCREC_VALID then s.set F.CPG_ECCREC_OVF 1
    else
      let w := a / 8 * 8
      (((((s.set F.CPG_ECCREC_VALID 1).set F.CPG_ECCREC_MEM mem).set F.CPG_ECCREC_CV cv).set F.CPG_ECCREC_CID
        cid).set F.CPG_ECCADDR_LO_ADDR w).set F.CPG_ECCADDR_HI_ADDR (w / 2 ^ 32)
  (s.set F.CPG_IRQSTAT_ECCUNC 1).errEvent 3

/-- The tasks that a quarantine of a context cancels: those that name it, and those whose job in progress
runs on it (R246). -/
def tasksOn (s : State) (cid : Nat) : List Nat :=
  (tasks s).filter fun t => (s.on F.TSU_T_CTX_CV t && s.rd F.TSU_T_CTX_CID t == cid) ||
    (jobInProgress s t && s.on I.jCv t && s.rd I.jCid t == cid)

/-- QUARANTINE (R246, R208): state, frames, tasks, record, DMA channels. -/
def quarantine (s : State) (cid : Nat) : State :=
  let s := discardContext (s.wr F.CHW_CTX_STAT_STATE cid cQUAR) cid
  let s := s.over (tasksOn s cid) fun s t => cancelTask s t false
  let s := if s.on F.CPG_QUARREC_VALID then s.set F.CPG_QUARREC_OVF 1
    else (s.set F.CPG_QUARREC_VALID 1).set F.CPG_QUARREC_CID cid
  let s := (s.set F.CPG_IRQSTAT_QUAR 1).errEvent 4
  s.over ((List.range 32).filter fun n => dmaOn s n cid) fun s n => dmaEnd s n dERROR 4

/-- A frame is retired after a parity error (R247, R248, R533). -/
def retireFrame (s : State) (i : Nat) : State := ((emptyFrame s i).wr I.frBad i 1).set F.CPG_IRQSTAT_RETIRE 1

/-- A frame parity error is counted and raised. -/
def parityError (s : State) : State :=
  ((cpgCount s F.CPG_PARCNT_COUNT).set F.CPG_IRQSTAT_PARITY 1).errEvent 5

/-- The job of core c is retried after its first parity error: its bank and frames are discarded, and its
task returns to the head of its level (R247, R262). -/
def retryJob (s : State) (c t : Nat) : State :=
  let s := noSet (discardFrames (discardPartial (freeCore s c) (t + 1)) t) t
  (s.wr I.jRetry t 1).wr F.TSU_T_STAT_CVALID t 0

/-- FRAME_PARITY_ERROR (R247, R533): the job of core c reads frame f and meets a parity error. -/
def frameParity (s : State) (c i : Nat) : State :=
  let t := s.rd I.cJob c - 1
  let s := parityError s
  let s := discardFrames (retireFrame s i) t
  if s.on I.jCancel t then stopCancelled s c
  else if !s.on I.jRetry t then reenterReady (retryJob s c t) t true
  else if s.on I.jCv t then
    let cid := s.rd I.jCid t
    let s := retryJob s c t
    quarantine ((s.wr F.TSU_T_STAT_STATE t tREADY).wr F.TSU_T_STAT_RESUME t 1) cid
  else jobFault s c 0xF

/-- FRAME_PARITY_ERROR. -/
def execFrameParityError (c : Fin 64) (f : Fin 16) (s : State) : Host.Outcome State Fault Refusal :=
  if s.serving && s.on I.cJob c.val && !s.on I.frBad (frameNo c.val f.val) then
    go (frameParity s c.val (frameNo c.val f.val))
  else go s

/-- BANK_SAVE_DONE (R126, R127, R227): the bank of the leaving job is in its suspend record, its dirty
frames await write-back, the bank is free, and a switch that waited for it is taken. -/
def bankSaved (s : State) (c : Nat) : State :=
  let t := s.rd I.cLeave c - 1
  let b := 2 * c + (1 - s.rd I.bank c)
  let s := match (if s.on I.jCv t then stagedFrame s c t (s.rd I.jCid t) 0 else none) with
    | some i => markDirty (saveRecord s b (frameAddr i + 0xC00) (s.rd I.cLeaveRun c) (s.rd I.cLeaveAddr c)) i
    | none => s
  let s := ((releaseFrames s t).wr I.cLeave c 0).wr I.obusy c 0
  if s.on I.swPend c then switchNow s c (s.rd I.swPend c) (s.rd I.swAddr c) else s

/-- BANK_SAVE_DONE. -/
def execBankSaveDone (c : Fin 64) (s : State) : Host.Outcome State Fault Refusal :=
  if s.on I.obusy c.val then go (bankSaved s c.val) else go s

/-! ## Transfers between CST and frames (R224–R230) -/

/-- The transfer into frame i completes: the page's bytes as they stand in CST. -/
def frameFilled (s : State) (i : Nat) : State :=
  let cid := s.rd F.CPG_FRAME_CID i
  let v := s.rd F.CPG_FRAME_VPAGE i
  let a := pageAddr s cid v
  let s := (cstTouch (s.copyMem a (frameAddr i) 4096) a).wr I.frIn i 0
  let s := cpgCount s F.CPG_STAGECNT_COUNT
  let t := s.rd I.frOwner i - 1
  if s.on I.frOwner i && taskSt s t == tRUNNING && s.rd I.jCid t == cid then
    s.wr I.jWs t (setBit (s.rd I.jWs t) v)
  else s

/-- Transfers in flight on a page complete before an access of CHW or DMA to it (R229). -/
def settlePage (s : State) (cid v : Nat) : State :=
  s.over ((frames s).filter fun i => holds s i cid v) fun s i =>
    let s := if s.on I.frOut i then writeBackFrame s i else s
    if s.on I.frIn i then frameFilled s i else s

/-- Is a page in the working set of another job in progress than task t's, or does a copy await
write-back, or is a bank of task t being saved: then its staging waits (R226, R227). -/
def stagingWaits (s : State) (t cid v : Nat) : Bool :=
  leaving s t ||
    ((tasks s).any fun u => u != t && jobInProgress s u && s.on I.jCv u && s.rd I.jCid u == cid &&
      bitOf (s.rd I.jWs u) v) ||
    (frames s).any fun i => holds s i cid v && frSt s i == fWBPEND

/-- The task whose set is next on core c: committed to it, or its earliest reservation (R224). -/
def nextTask (s : State) (c : Nat) : Option Nat :=
  if s.on I.cNext c then some (s.rd I.cNext c - 1) else earliestResv s c

/-- The context of a set, and its pages without NOTPRESENT ones (R224). -/
def setCtx (s : State) (t : Nat) : Bool := if jobInProgress s t then s.on I.jCv t else s.on F.TSU_T_CTX_CV t
def setPages (s : State) (t : Nat) : List Nat :=
  (pagesOf (nextSet s t)).filter fun v => !notPresent s (nextCid s t) v

/-- Untouched pages of a list take their CST pages (R218). -/
def touchAll (s : State) (cid : Nat) (pages : List Nat) : State := s.over pages fun s v => faultPage s cid v

/-- May the set of a task committed to core c use reserve frames: a job has left or is leaving there
(R225). -/
def reserveOk (s : State) (c : Nat) : Bool :=
  s.on I.cNext c && (s.on I.cJob c || s.on I.obusy c ||
    (frames s).any fun i => i / 16 == c && frSt s i == fWBPEND &&
      heldByJob s (s.rd F.CPG_FRAME_CID i) (s.rd F.CPG_FRAME_VPAGE i))

/-- The set of task t gets its frames on core c, all or nothing (R224, R225, R230). -/
def stageSet (s : State) (c t : Nat) : State :=
  let cid := nextCid s t
  let s := touchAll s cid (setPages s t)
  let pages := setPages s t
  if pages.any (fun v => stagingWaits s t cid v || lvl s cid v != 1) then s
  else
    match giveSet s c cid (t + 1) fSTAGED (reserveOk s c) pages with
    | none => s
    | some s' =>
      if 1024 < inflight s' then s
      else
        let s' := if jobInProgress s t then s' else (s'.wr I.jCv t 1).wr I.jCid t cid
        (s'.wr I.stSet t (maskOf pages)).wr I.stCore t (c + 1)

/-- The set of a task is asked to be placed on core c as cached copies, after the sets of reserved tasks
(R229, R231). -/
def provAsk (s : State) (t c : Nat) : State := s.wr I.tProv t (c + 1)

/-- The set of a task is to be placed on core c as cached copies, none of them staged (R231): it waits in
`tProv` for pages in DRAM, for jobs that hold a page, and for a cluster without power; where no frames can
be had it is skipped and counted. -/
def provPlace (s : State) (t c : Nat) : State :=
  let cid := nextCid s t
  let later := provAsk s t c
  if cluSt s (c / 8) == clPWROFF || s.on F.CLU_STAT_DRAINWB (c / 8) then cluWake later (c / 8)
  else
    let s' := touchAll s cid (setPages s t)
    let pages := setPages s' t
    if pages.any (fun v => stagingWaits s' t cid v || lvl s' cid v != 1) then later
    else
      match giveSet s' c cid 0 fCACHED false pages with
      | none => cpgCount (s.wr I.tProv t 0) F.CPG_PROVSKIP_COUNT
      | some s' => if 1024 < inflight s' then later else s'.wr I.tProv t 0

/-- The sets that wait to be placed on core c are tried again; that of a task the notice would no longer
reserve is dropped. -/
def provAgain (s : State) (c : Nat) : State :=
  s.over ((s.nonzero I.tProv).filter fun t => s.rd I.tProv t == c + 1) fun s t =>
    if noticeNames s t && setCtx s t then provPlace s t c else s.wr I.tProv t 0

/-- SET_STAGE (R224–R226, R51, R53, R231): a set that is not yet staged or being staged gets its frames; a
cluster that is power gated, or about to be, is woken instead. -/
def execSetStage (c : Fin 64) (s : State) : Host.Outcome State Fault Refusal :=
  let c := c.val
  match nextTask s c with
  | none => if s.serving then go (provAgain s c) else go s
  | some t =>
    if !s.serving then go s
    else if !setCtx s t || s.on I.stCore t then go (provAgain s c)
    else if cluSt s (c / 8) == clPWROFF || s.on F.CLU_STAT_DRAINWB (c / 8) then go (cluWake s (c / 8))
    else
      let s' := stageSet s c t
      go (if s'.on I.stCore t then s' else provAgain s' c)

/-! ## TOUCH (R232) -/

/-- The set of a reserved task staged ahead on core c. -/
def reservedSet (s : State) (c : Nat) : Option Nat :=
  (s.nonzero I.stCore).find? fun u => s.rd I.stCore u == c + 1 && !jobInProgress s u

/-- A touched page that is in CST is staged for the job of core c, if a frame can be had (R232). -/
def touchStage (s : State) (c t v : Nat) : State :=
  let cid := s.rd I.jCid t
  let s := s.wr I.jTouch t (clrBit (s.rd I.jTouch t) v)
  let given := fun s : State => giveSet s c cid (t + 1) fSTAGED false [v]
  let finish := fun s : State =>
    let s := s.wr I.stSet t (setBit (s.rd I.stSet t) v)
    if (framesOn s c cid v).any (s.on I.frIn ·) then s else s.wr I.jWs t (setBit (s.rd I.jWs t) v)
  match given s with
  | some s' => finish s'
  | none =>
    match reservedSet s c with
    | none => s
    | some u =>
      match given (setToCached s u) with
      | some s' => finish s'
      | none => setToCached s u

/-- Touched pages that have come to CST and are free for their jobs are staged. -/
def touchedArrive (s : State) : State :=
  s.over ((List.range 64).filter fun c => s.on I.cJob c && s.on I.jTouch (s.rd I.cJob c - 1)) fun s c =>
    let t := s.rd I.cJob c - 1
    s.over ((pagesOf (s.rd I.jTouch t)).filter fun v =>
      lvl s (s.rd I.jCid t) v == 1 && !stagingWaits s t (s.rd I.jCid t) v) fun s v => touchStage s c t v

/-- TOUCH of page v by the job of core c: an untouched page is taken, a page in CST is staged, a page in
DRAM is asked for (R176, R232). -/
def touchPage (s : State) (c t v : Nat) : State :=
  let s := faultPage s (s.rd I.jCid t) v
  touchedArrive (if s.on I.cJob c then s.wr I.jTouch t (setBit (s.rd I.jTouch t) v) else s)

/-! ## Level 2: DRAM (R235–R237) -/

/-- Can pages be moved to and from the spill area: DRAM trained and the 2 GB area within it. -/
def spillArea (s : State) : Bool :=
  let base := s.rd F.CPG_SPILLBASE_BASE * 65536
  s.on F.DMC_STAT_READY && decide (0x100000000 ≤ base) &&
    decide (base + 0x80000000 ≤ 0x100000000 + s.rd F.DMC_CFG_SIZE * 0x40000000)

/-- Is spilling possible: SPILLEN and the area (R235). -/
def maySpill (s : State) : Bool := s.on F.CPG_CFG_SPILLEN && spillArea s

/-- Is a context cold-eligible (R235). -/
def coldEligible (s : State) (cid : Nat) : Bool :=
  ctxState s cid == cALLOC && s.on F.CHW_CTX_ATTR_SPILLOK cid && !s.on F.CHW_CTX_ATTR_PIN cid &&
    (List.range 16).all fun v => lvl s cid v == 0 || !pinned s cid v

/-- The cold-eligible context of greatest AGE, lowest CID first, that has a page in CST; `not` is left
out. -/
def coldest (s : State) (not : Option Nat) : Option Nat :=
  ((contexts s).filter fun cid => some cid != not && coldEligible s cid && atLevel s cid 1 != 0).foldl
    (fun m c => match m with
      | none => some c
      | some d => if s.rd F.CHW_CTX_STAT_AGE d < s.rd F.CHW_CTX_STAT_AGE c then some c else some d) none

/-- A spill of one context starts: its pages in CST become MOVING. -/
def startSpill (s : State) (cid : Nat) : State :=
  s.over ((List.range 16).filter fun v => lvl s cid v == 1) fun s v =>
    (s.wr I.mapLvl (entry cid v) 3).wr I.mapMove (entry cid v) 1

/-- The entries being spilled. -/
def spilling (s : State) : List Nat := (s.nonzero I.mapMove).filter fun e => s.rd I.mapMove e == 1

/-- Would an allocation of n pages to pool p fit once the spills in flight have completed. -/
def fitsAfterSpills (s : State) (n p : Nat) : Bool :=
  let l := spilling s
  let freed := (l.filter fun e => bankOk s (s.rd I.mapPage e / 2048) && !s.on I.pgBad (s.rd I.mapPage e)).length
  fitsPool s (freePages s + freed)
    (fun q => s.rd F.CPG_POOLUSE_USED q - (l.filter fun e => s.rd I.ctxPool (e / 16) == q).length) n p

/-- Spills of the coldest contexts start until an allocation will fit; none where they do not suffice
(R220). -/
def makeRoom (s : State) (n p : Nat) : Nat → Option State
  | 0 => none
  | k + 1 =>
    if fitsAfterSpills s n p then some s
    else
      match coldest s none with
      | none => none
      | some c => makeRoom (startSpill s c) n p k

/-- Who wants page v of a context from DRAM at demand class or for a staging: a faulted or touching job, a
waiting DMA channel, the next set of a core (R231, R232, R236, R242). -/
def wanted (s : State) (cid v : Nat) : Bool :=
  ((tasks s).any fun t => s.rd I.jCid t == cid && s.on I.jCv t &&
    ((taskSt s t == tPAGEWAIT && bitOf (s.rd I.jFault t) v) || (taskSt s t == tRUNNING && bitOf (s.rd I.jTouch t) v))) ||
  ((List.range 32).any fun n => s.rd I.dWait n == entry cid v + 1) ||
  ((s.nonzero I.tProv).any fun t => setCtx s t && nextCid s t == cid && bitOf (nextSet s t) v) ||
  (List.range 64).any fun c =>
    match nextTask s c with
    | none => false
    | some t => setCtx s t && nextCid s t == cid && bitOf (nextSet s t) v

/-- A command of a context ends with a result. -/
def cmdEnd (s : State) (f : Fld) (cid result : Nat) : State := (s.wr f cid 0).wr F.CHW_CTX_CMD_RESULT cid result

/-- The reload of a page starts, into a page of its context's pool (R236). -/
def startReload (s : State) (cid v : Nat) : State :=
  match pickPage s (bankOk s) with
  | none => s
  | some r =>
    let s := useMore (bindPage r.2 cid v r.1) (s.rd I.ctxPool cid)
    ((s.wr I.mapLvl (entry cid v) 3).wr I.mapMove (entry cid v) 2).set F.CPG_STAT_RELOADWAIT 0

/-- A reload short of room: it spills a cold-eligible context; else LOAD fails, and any other request
waits (R236). -/
def reloadShort (s : State) (cid : Nat) (onlyLoad : Bool) : State :=
  match (if maySpill s then coldest s (some cid) else none) with
  | some c => startSpill s c
  | none =>
    if !(spilling s).isEmpty then s
    else if onlyLoad then cmdEnd s F.CHW_CTX_CMD_LOAD cid 1
    else (s.set F.CPG_STAT_RELOADWAIT 1).set F.CPG_IRQSTAT_RELOADWAIT 1

/-- PAGE_RELOAD (R236): a page in DRAM that someone waits for starts its way back. -/
def execPageReload (cid : BitVec 15) (v : Fin 16) (s : State) : Host.Outcome State Fault Refusal :=
  let cid := cid.toNat
  let v := v.val
  let load := s.on F.CHW_CTX_CMD_LOAD cid
  if s.fabric && lvl s cid v == 2 && spillArea s && (wanted s cid v || load) then
    if fitsNow s 1 (s.rd I.ctxPool cid) && decide (inflight s < 1024) then go (startReload s cid v)
    else go (reloadShort s cid (load && !wanted s cid v))
  else go s

/-! ## Context commands (R220–R222) -/

/-- One page of an allocation: on-demand pages are only counted (R218, R220). -/
def allocOne (s : State) (cid v : Nat) : State :=
  let e := entry cid v
  let s := s.wr I.mapMem e (bitN (s.rd F.CHW_CTX_LAYOUT_YMEM cid) v)
  if bitOf (s.rd F.CHW_CTX_ATTR_OD cid) v then
    (useMore (s.wr I.mapOd e 1) (s.rd I.ctxPool cid)).set I.odLeft (s.rd I.odLeft + 1)
  else
    match allocPage s cid v with
    | some s' => s'
    | none => s

/-- The pages of an allocation are taken; the context becomes ALLOC. -/
def takePages (s : State) (cid : Nat) : State :=
  let s := s.wr I.ctxPool cid (s.rd F.CHW_CTX_ATTR_POOL cid)
  let s := s.over (pagesOf (s.rd F.CHW_CTX_LAYOUT_PAGES cid)) fun s v => allocOne s cid v
  cmdEnd (s.wr F.CHW_CTX_STAT_STATE cid cALLOC) F.CHW_CTX_CMD_ALLOC cid 0

/-- Steps 4–6 of ALLOC (R220), tried again as spills complete. -/
def tryAlloc (s : State) (cid : Nat) : State :=
  let n := popcount 16 (s.rd F.CHW_CTX_LAYOUT_PAGES cid)
  let p := s.rd F.CHW_CTX_ATTR_POOL cid
  if fitsNow s n p then takePages s cid
  else if s.on F.CPG_CFG_SPILLEN then
    match makeRoom s n p ((contexts s).length + 1) with
    | none => cmdEnd s F.CHW_CTX_CMD_ALLOC cid 1
    | some s' => if spillArea s then s'.wr F.CHW_CTX_CMD_ALLOC cid 1 else cmdEnd s F.CHW_CTX_CMD_ALLOC cid 4
  else cmdEnd s F.CHW_CTX_CMD_ALLOC cid 1

/-- ALLOC (R220). -/
def alloc (s : State) (cid : Nat) : State :=
  if ctxState s cid != cFREE || s.rd F.CHW_CTX_LAYOUT_PAGES cid == 0 then cmdEnd s F.CHW_CTX_CMD_ALLOC cid 3
  else if s.rd F.CHW_CTX_ATTR_POOL cid == 0 && s.mode == mDRAIN then cmdEnd s F.CHW_CTX_CMD_ALLOC cid 5
  else tryAlloc s cid

/-- One entry of a released context becomes NOTPRESENT (R221). -/
def releaseOne (s : State) (cid v : Nat) : State :=
  let e := entry cid v
  let s := if lvl s cid v = 1 then unbindPage s cid v
    else if untouched s cid v then (useLess s (s.rd I.ctxPool cid)).set I.odLeft (s.rd I.odLeft - 1) else s
  ((((s.wr I.mapLvl e 0).wr I.mapOd e 0).wr I.mapMem e 0).wr I.mapDirty e 0).wr I.mapPage e 0

/-- A context is released (R221). -/
def releaseNow (s : State) (cid : Nat) : State :=
  let s := discardContext s cid
  let s := s.over ((s.nonzero I.stCore).filter fun t => s.rd I.jCid t == cid) noSet
  let s := s.over (List.range 16) fun s v => releaseOne s cid v
  let s := ((s.wr F.CHW_CTX_STAT_STATE cid cFREE).wr F.CHW_CTX_STAT_CTLPEND cid 0).wr F.CHW_CTX_STAT_AGE cid 0
  cmdEnd ((s.wr I.ctxMoved cid 0).wr I.migFresh cid 0) F.CHW_CTX_CMD_RELEASE cid 0

/-- RELEASE (R221); entries that move are waited for (R237). -/
def release (s : State) (cid : Nat) : State :=
  if ctxState s cid == cFREE then cmdEnd s F.CHW_CTX_CMD_RELEASE cid 3
  else if jobPin s cid then cmdEnd s F.CHW_CTX_CMD_RELEASE cid 2
  else if atLevel s cid 3 != 0 then s.wr F.CHW_CTX_CMD_RELEASE cid 1
  else releaseNow s cid

/-- SPILL (R235). -/
def spill (s : State) (cid : Nat) : State :=
  if ctxState s cid != cALLOC then cmdEnd s F.CHW_CTX_CMD_SPILL cid 3
  else if !maySpill s then cmdEnd s F.CHW_CTX_CMD_SPILL cid 4
  else if !coldEligible s cid then cmdEnd s F.CHW_CTX_CMD_SPILL cid 2
  else if atLevel s cid 1 == 0 then cmdEnd s F.CHW_CTX_CMD_SPILL cid 0
  else startSpill (s.wr F.CHW_CTX_CMD_SPILL cid 1) cid

/-- LOAD (R236): the reloads follow as PAGE_RELOAD. -/
def load (s : State) (cid : Nat) : State :=
  if ctxState s cid != cALLOC then cmdEnd s F.CHW_CTX_CMD_LOAD cid 3
  else if !spillArea s then cmdEnd s F.CHW_CTX_CMD_LOAD cid 4
  else if atLevel s cid 2 == 0 && atLevel s cid 3 == 0 then cmdEnd s F.CHW_CTX_CMD_LOAD cid 0
  else s.wr F.CHW_CTX_CMD_LOAD cid 1

/-- Is page 0 of a context where CHW can reach its control copies (R239). -/
def chwReach (s : State) (cid : Nat) : Bool := ctxState s cid == cALLOC && lvl s cid 0 == 1

/-- PUBLISH (R238, R239). -/
def publish (s : State) (cid : Nat) : State :=
  if chwReach s cid then cmdEnd (s.wr F.CHW_CTX_STAT_CTLPEND cid 1) F.CHW_CTX_CMD_PUBLISH cid 0
  else cmdEnd (s.wr F.CHW_CTX_STAT_WERR cid 1) F.CHW_CTX_CMD_PUBLISH cid 3

/-- Is a command of a context in progress (R222). -/
def cmdBusy (s : State) (cid : Nat) : Bool :=
  s.on F.CHW_CTX_CMD_ALLOC cid || s.on F.CHW_CTX_CMD_RELEASE cid || s.on F.CHW_CTX_CMD_SPILL cid ||
    s.on F.CHW_CTX_CMD_LOAD cid || s.on F.CHW_CTX_CMD_PUBLISH cid

/-- A write of command bits [4:0] of CHW_CTX_CMD for a context (R222). -/
def ctxCommand (s : State) (cid v : Nat) : State :=
  if v % 32 = 0 then s
  else if cmdBusy s cid || popcount 5 v != 1 then s.wr F.CHW_CTX_CMD_RESULT cid 2
  else if bitOf v 0 then alloc s cid
  else if bitOf v 1 then release s cid
  else if bitOf v 2 then spill s cid
  else if bitOf v 3 then load s cid
  else publish s cid

/-- A write of CHW_CTX_CMD by an initiator, to the context it has selected. -/
def chwCommand (s : State) (ini : Init) (v : Nat) : State :=
  if s.fabric then
    match selIx s ini F.CHW_SELECT_INDEX 32768 with
    | some cid => ctxCommand s cid v
    | none => s
  else s

/-- ALLOC (R220). -/
def execAlloc (ini : Init) (s : State) : Host.Outcome State Fault Refusal := go (chwCommand s ini 1)

/-- RELEASE (R221). -/
def execRelease (ini : Init) (s : State) : Host.Outcome State Fault Refusal := go (chwCommand s ini 2)

/-- SPILL (R235). -/
def execSpill (ini : Init) (s : State) : Host.Outcome State Fault Refusal := go (chwCommand s ini 4)

/-- LOAD (R236). -/
def execLoad (ini : Init) (s : State) : Host.Outcome State Fault Refusal := go (chwCommand s ini 8)

/-- PUBLISH (R238). -/
def execPublish (ini : Init) (s : State) : Host.Outcome State Fault Refusal := go (chwCommand s ini 16)

/-- A write of CHW_CTLk for a context (R238, R239). -/
def ctlWrite (s : State) (cid k v : Nat) : State :=
  if chwReach s cid then
    let s := settlePage s cid 0
    let a := pageAddr s cid 0 + 0x200 + 4 * k
    (cstTouch s a).writeLE a 4 v
  else s.wr F.CHW_CTX_STAT_WERR cid 1

/-- CHW_CTLk and CHW_STSk as read (R239): the word at an offset of page 0 in CST. -/
def chwRead (s : State) (cid off : Nat) : Nat × State :=
  if chwReach s cid then
    let s := settlePage s cid 0
    let a := pageAddr s cid 0 + off
    (s.readLE a 4, cstTouch s a)
  else (0, s)

/-- CHW_CTL_WRITE (R238). -/
def execChwCtlWrite (ini : Init) (k : BitVec 7) (v : Word) (s : State) : Host.Outcome State Fault Refusal :=
  match selIx s ini F.CHW_SELECT_INDEX 32768 with
  | some cid => if s.fabric then go (ctlWrite s cid k.toNat v.toNat) else go s
  | none => go s

/-- CHW_CTX_STAT as read. -/
def ctxStatWord (s : State) (cid : Nat) : Nat :=
  b2n (jobPin s cid) * 2 ^ 28 + atLevel s cid 1 * 2 ^ 22 + atLevel s cid 2 * 2 ^ 17

/-! ## Moves complete -/

/-- A spilled page is in its slot; its CST page is free (R235). -/
def spilled (s : State) (cid v : Nat) : State :=
  let a := pageAddr s cid v
  let s := unbindPage (cstTouch (s.copyMem a (slotAddr s cid v) 4096) a) cid v
  let s := (s.wr I.mapLvl (entry cid v) 2).wr I.mapMove (entry cid v) 0
  let s := s.over ((frames s).filter fun i => holds s i cid v && frSt s i == fCACHED) emptyFrame
  cpgCount s F.CPG_SPILLCNT_COUNT

/-- A reloaded page is in CST (R236). -/
def reloaded (s : State) (cid v : Nat) : State :=
  let a := pageAddr s cid v
  let s := cstTouch (s.copyMem (slotAddr s cid v) a 4096) a
  cpgCount ((s.wr I.mapLvl (entry cid v) 1).wr I.mapMove (entry cid v) 0) F.CPG_RELOADCNT_COUNT

/-- Commands in progress go on once a move has completed: SPILL, LOAD and RELEASE of the context, and
every ALLOC that waits for spills (R220, R235–R237). -/
def commandsGoOn (s : State) (cid : Nat) : State :=
  let still := fun (s : State) (k : Nat) => (List.range 16).any fun v => s.rd I.mapMove (entry cid v) == k
  let s := if s.on F.CHW_CTX_CMD_SPILL cid && !still s 1 then cmdEnd s F.CHW_CTX_CMD_SPILL cid 0 else s
  let s := if s.on F.CHW_CTX_CMD_LOAD cid && atLevel s cid 2 == 0 && atLevel s cid 3 == 0 then
      cmdEnd s F.CHW_CTX_CMD_LOAD cid 0 else s
  let s := if s.on F.CHW_CTX_CMD_RELEASE cid && atLevel s cid 3 == 0 then release s cid else s
  s.over (s.nonzero F.CHW_CTX_CMD_ALLOC) fun s c => tryAlloc s c

/-- A move of a page between CST and DRAM completes. -/
def moveDone (s : State) (cid v : Nat) : State :=
  match s.rd I.mapMove (entry cid v) with
  | 1 => commandsGoOn (spilled s cid v) cid
  | 2 => touchedArrive (commandsGoOn (reloaded s cid v) cid)
  | _ => s

/-- PAGE_TRANSFER_DONE (R230, R235–R237). -/
def execPageTransferDone (x : Transfer) (s : State) : Host.Outcome State Fault Refusal :=
  match x with
  | .frame c f => if s.on I.frIn (frameNo c.val f.val) then go (frameFilled s (frameNo c.val f.val)) else go s
  | .dram cid v => go (moveDone s cid.toNat v.val)

/-! ## Write-back (R227, R533) -/

/-- The read of a dirty frame for write-back meets a parity error: the frame is retired and its context
quarantined (R533). -/
def writeBackParity (s : State) (i : Nat) : State :=
  let cid := s.rd F.CPG_FRAME_CID i
  quarantine (retireFrame (parityError s) i) cid

/-- The write-back of frame i starts, or finds a parity error. -/
def writeBackStart (s : State) (i : Nat) (bad : Bool) : State :=
  if frSt s i == fWBPEND && !s.on I.frOut i then
    if bad then writeBackParity s i else if inflight s < 1024 then s.wr I.frOut i 1 else s
  else s

/-- WRITEBACK_START (R227): every frame of core c that awaits write-back; bit f of `bad` says that its
read meets a parity error. -/
def execWritebackStart (c : Fin 64) (bad : BitVec 16) (s : State) : Host.Outcome State Fault Refusal :=
  go (s.over (List.range 16) fun s f => writeBackStart s (frameNo c.val f) (bitOf bad.toNat f))

/-- WRITEBACK_DONE (R227). -/
def execWritebackDone (c : Fin 64) (f : Fin 16) (s : State) : Host.Outcome State Fault Refusal :=
  let i := frameNo c.val f.val
  if s.on I.frOut i then go (touchedArrive (writeBackFrame s i)) else go s

/-- SPILL_PRESSURE (R235): below LOW spilling starts; it goes on, coldest context first, until FREE
reaches HIGH or no context is cold-eligible. -/
def execSpillPressure (s : State) : Host.Outcome State Fault Refusal :=
  let free := freePages s
  if !s.fabric || !maySpill s then go (s.set I.spillRun 0)
  else
    let s := if free < s.rd F.CPG_SPILLCFG_LOW then s.set I.spillRun 1 else s
    if s.on I.spillRun then
      if free < s.rd F.CPG_SPILLCFG_HIGH then
        match coldest s none with
        | some c => go (startSpill s c)
        | none => go (s.set I.spillRun 0)
      else go (s.set I.spillRun 0)
    else go s

/-! ## ECC (R245, R248) -/

/-- An uncorrectable error in a CST page: the context that holds it is quarantined, a free page is
retired. -/
def eccCst (s : State) (a : Nat) : State :=
  let n := a / 4096
  if s.on I.pgUse n then
    let cid := (s.rd I.pgUse n - 1) / 16
    let s := eccRecord s a 0 1 cid
    if ctxState s cid == cQUAR then s else quarantine s cid
  else
    let s := eccRecord s a 0 0 0
    if s.on I.pgBad n then s
    else ((s.wr I.pgBad n 1).wr I.bankBusy (n / 2048) (s.rd I.bankBusy (n / 2048) + 1)).set F.CPG_IRQSTAT_RETIRE 1

/-- The context whose spill slot holds an address, when CPG reloads it. -/
def slotOf (s : State) (a : Nat) : Option Nat :=
  let base := s.rd F.CPG_SPILLBASE_BASE * 65536
  let e := (a - base) / 4096
  if base ≤ a && e < 524288 && s.rd I.mapMove e == 2 then some (e / 16) else none

/-- DMC records an uncorrectable error (R245). -/
def eccDmc (s : State) (a : Nat) : State :=
  let s := (s.bump F.DMC_ECCUNC_COUNT 0 (some F.DMC_IRQSTAT_CNTOVF)).set F.DMC_IRQSTAT_ECCUNC 1
  if s.on F.DMC_ERRADDR_HI_VALID then s
  else
    let w := a / 8 * 8
    ((s.set F.DMC_ERRADDR_HI_VALID 1).set F.DMC_ERRADDR_HI_ADDR (w / 2 ^ 32)).set F.DMC_ERRADDR_LO_ADDR w

/-- An uncorrectable error in DRAM (R245). -/
def eccDram (s : State) (a : Nat) (reader : EccReader) : State :=
  match reader with
  | .cpg =>
    match slotOf s a with
    | some cid => quarantine (eccRecord s a 4 1 cid) cid
    | none => eccDmc s a
  | _ => eccDmc s a

/-- What an uncorrectable error at an address does to the memory's owner (R245). -/
def eccAct (s : State) (a : Nat) (reader : EccReader) : State :=
  if a < 0x8000000 then eccCst s a
  else if 0x10000000 ≤ a && a < 0x12000000 then eccRecord s a 1 0 0
  else if 0x20000000 ≤ a && a < 0x20800000 then eccRecord s a 2 0 0
  else if 0x21000000 ≤ a && a < 0x21400000 then fatalError (eccRecord s a 3 0 0) 5
  else if 0x100000000 ≤ a && a < 0x900000000 then eccDram s a reader
  else s

/-- ECC_UNCORRECTABLE (R245, R243): the first read of the word; a DMA channel that reads it ends in
ERROR. -/
def execEccUncorrectable (a : PAddr) (reader : EccReader) (s : State) : Host.Outcome State Fault Refusal :=
  if s.fabric then
    let s := eccAct s a.toNat reader
    match reader with
    | .init (.dma n) => if dmaActive s n.val then go (dmaEnd s n.val dERROR 4) else go s
    | _ => go s
  else go s

/-- SCRUB_PAGE (R245): the next CST page is read; `corrected` words are corrected and counted, and `bad`
says that word `word` is uncorrectable. -/
def execScrubPage (bad : Bool) (word : BitVec 9) (corrected : Nat) (s : State) :
    Host.Outcome State Fault Refusal :=
  if s.fabric && s.on F.CPG_SCRUB_EN then
    let n := s.rd I.scrubPage
    let s := cpgCount (s.set I.scrubPage (n + 1)) F.CPG_ECCCOR_COUNT corrected
    go (if bad then eccCst s (4096 * n + 8 * word.toNat) else s)
  else go s

end Sys2Proof.Machine
end

