-- ==== Sys2Proof/Machine/PkeTx.lean ====
section
/-! DEFINITION.  The egress side of the packet engine: posts, template frames, SRTP, preparation, launch,
priority queues, completion records and one-step timestamps (R379–R386, R409). -/

namespace Sys2Proof.Machine

/-- A frame as it is queued: the words of its descriptor, and, for a frame of CWY's own, its bytes. -/
def newFrame (w0 w1 w2 w3 : Nat) (svc : Bool) (bytes : Option (List Byte)) : EgFrame :=
  ⟨w0, w1, w2, w3, svc, false, bytes.isSome, bytes, 0, 0, 0⟩

/-! ## Descriptor fields (R380) -/

/-- Fields of W0–W3. -/
def dRaw (f : EgFrame) : Bool := bitOf f.w1 12
def dLen (f : EgFrame) : Nat := bits f.w1 10 0
def dTimed (f : EgFrame) : Bool := bitOf f.w3 31
def dPrio (f : EgFrame) : Nat := bits f.w3 30 28
def dPort (f : EgFrame) : Nat := bits f.w3 24 22
def dSrtp (f : EgFrame) : Bool := bitOf f.w3 26 && !dRaw f
def dStrm (f : EgFrame) : Nat := bits f.w3 14 0

/-- The template of a descriptor. -/
def dTemplate (s : State) (f : EgFrame) : List Byte := s.readBytes (pksBase + bits f.w1 31 13 * 64) 64

/-- The payload a descriptor names. -/
def dPayload (s : State) (f : EgFrame) : List Byte := s.readBytes (pksBase + bits f.w0 24 0) (dLen f)

/-- MAXFRM as it behaves. -/
def maxFrm (s : State) (p : Nat) : Nat := max 64 (min 2048 (s.rd F.PKE_P_CFG_MAXFRM p))

/-- The tag length of a suite (R378). -/
def tagLen (suite : Nat) : Nat := match suite with | 1 => 10 | 3 => 10 | 2 => 4 | 4 => 4 | 5 => 16 | 6 => 16 | _ => 0

/-- Is a stream installed in a direction with an SRTP suite (R374, R382). -/
def srtpReady (s : State) (n dir : Nat) : Bool :=
  s.on I.stInst n && s.rd I.stDir n == dir && decide (1 ≤ s.rd I.stSuite n) && decide (s.rd I.stSuite n ≤ 6)

/-- Can a port send (R365, R382). -/
def portSends (s : State) (p : Nat) : Bool :=
  s.on F.PKE_CTRL_RUN && s.on F.PKE_P_CFG_EN p && s.on F.PKE_P_STAT_UP p

/-- The octets of a template frame with its FCS. -/
def frameOctets (s : State) (f : EgFrame) : Nat :=
  if dRaw f then dLen f + 4
  else
    let flags := beAt (dTemplate s f) 6 2
    14 + 4 * bitN flags 0 + (if bitOf flags 1 then 40 else 20) + 8 + dLen f +
      (if dSrtp f then tagLen (s.rd I.stSuite (dStrm f)) else 0) + 4

/-- Does a descriptor end with BADDESC (R382). -/
def badDesc (s : State) (f : EgFrame) : Bool :=
  !f.own && (decide (dLen f < (if dRaw f then 14 else 12)) || decide (maxFrm s (dPort f) < frameOctets s f) ||
    (!dRaw f && !s.on F.PKE_LA_CFG_VALID (byteAt (dTemplate s f) 15 % 16)) ||
    (dSrtp f && !srtpReady s (dStrm f) 1))

/-! ## Frames (R381) -/

/-- The bytes of a local address: 4 for IPv4, 16 for IPv6. -/
def laBytes (s : State) (i : Nat) (v6 : Bool) : List Byte :=
  let w0 := beBytes 4 (s.rd F.PKE_LA_ADDR0_ADDR i)
  if v6 then w0 ++ beBytes 4 (s.rd F.PKE_LA_ADDR1_ADDR i) ++ beBytes 4 (s.rd F.PKE_LA_ADDR2_ADDR i) ++
    beBytes 4 (s.rd F.PKE_LA_ADDR3_ADDR i) else w0

/-- The MAC address of a port. -/
def portMac (s : State) (p : Nat) : List Byte :=
  beBytes 2 (s.rd F.PKE_P_MAC_HI_MAC p) ++ beBytes 4 (s.rd F.PKE_P_MAC_LO_MAC p)

/-- The pseudo-header of a UDP checksum. -/
def pseudo (src dst : List Byte) (len : Nat) : List Byte := src ++ dst ++ beBytes 4 len ++ [0, 0, 0, 17]

/-- A UDP datagram, its checksum computed or zero. -/
def udpBytes (sport dport : Nat) (src dst pay : List Byte) (sum : Bool) : List Byte :=
  let n := 8 + pay.length
  let h := beBytes 2 sport ++ beBytes 2 dport ++ beBytes 2 n
  let c := inetSum (pseudo src dst n ++ h ++ [0, 0] ++ pay)
  h ++ beBytes 2 (if sum then (if c = 0 then 65535 else c) else 0) ++ pay

/-- An IPv4 header without options. -/
def ip4Bytes (tos id hops len : Nat) (src dst : List Byte) : List Byte :=
  let h := [0x45, BitVec.ofNat 8 tos] ++ beBytes 2 (20 + len) ++ beBytes 2 id ++ [0x40, 0, BitVec.ofNat 8 hops, 17]
  h ++ beBytes 2 (inetSum (h ++ [0, 0] ++ src ++ dst)) ++ src ++ dst

/-- An IPv6 header. -/
def ip6Bytes (cls flow hops len : Nat) (src dst : List Byte) : List Byte :=
  beBytes 4 (6 * 2 ^ 28 + cls * 2 ^ 20 + flow % 2 ^ 20) ++ beBytes 2 len ++ [17, BitVec.ofNat 8 hops] ++ src ++ dst

/-- A template frame without FCS, around the bytes of its RTP packet and tag. -/
def templateFrame (s : State) (p id : Nat) (t : List Byte) (dscp : Nat) (pay : List Byte) : List Byte :=
  let flags := beAt t 6 2
  let v6 := bitOf flags 1
  let src := laBytes s (byteAt t 15 % 16) v6
  let dst := (t.drop 16).take (if v6 then 16 else 4)
  let udp := udpBytes (beAt t 10 2) (beAt t 12 2) src dst pay (bitOf flags 2 || v6)
  let hops := byteAt t 14
  let tag := if bitOf flags 0 then [0x81, 0x00] ++ (t.drop 8).take 2 else []
  let ip := if v6 then ip6Bytes (4 * dscp) (beAt t 32 4) hops udp.length src dst
    else ip4Bytes (4 * dscp) id hops udp.length src dst
  t.take 6 ++ portMac s p ++ tag ++ (if v6 then [0x86, 0xDD] else [0x08, 0x00]) ++ ip ++ udp

/-- The length of an RTP header: fixed part, CSRC list, extension. -/
def rtpHeader (b : List Byte) : Nat :=
  let n := 12 + 4 * (byteAt b 0 % 16)
  if bitOf (byteAt b 0) 4 then n + 4 + 4 * beAt b (n + 2) 2 else n

/-- The packet index of a transmit stream for a sequence number: ROC advances where the number is lower
than the previous one by more than 32,768 (R379). -/
def txIndex (s : State) (n seq : Nat) : Nat × State :=
  let s := if s.on I.stSeqV n && decide (seq + 32768 < s.rd I.stSeq n) then s.wr I.stRoc n (s.rd I.stRoc n + 1) else s
  (s.rd I.stRoc n * 65536 + seq, (s.wr I.stSeq n seq).wr I.stSeqV n 1)

/-- Preparation (R385): the payload is read, SRTP applied, the frame built. -/
def prepare (s : State) (f : EgFrame) : EgFrame × State :=
  if f.frame.isSome then (f, s)
  else if dRaw f then ({ f with frame := some (dPayload s f), octets := dLen f }, s)
  else
    let p := dPort f
    let pk := dPayload s f
    let n := dStrm f
    let r := txIndex s n (beAt pk 2 2)
    let s := r.2
    let pay := if dSrtp f then Config.srtpSeal (s.rd I.stSuite n) (s.rd I.stKey n) (s.rd I.stSalt n) r.1 pk else pk
    let id := s.rd I.ipId p
    let bytes := templateFrame s p id (dTemplate s f) (bits f.w3 21 16) pay
    ({ f with frame := some bytes, idx := r.1, ts := beAt pk 4 4, octets := dLen f - rtpHeader pk },
      s.wr I.ipId p (id + 1))

/-! ## The end of a descriptor (R382) -/

abbrev egSENT := 0
abbrev egLATE := 1
abbrev egDROPLATE := 2
abbrev egFULL := 3
abbrev egDOWN := 4
abbrev egECC := 5
abbrev egBADDESC := 6

/-- A stream counter word counts. -/
def strmCnt (s : State) (n k : Nat) (by' : Nat := 1) : State := s.bumpBy I.stCnt (8 * n + k) (some F.PKE_IRQSTAT_CNTOVF) by'

/-- The completion record of a descriptor. -/
def completion (s : State) (f : EgFrame) (status at' lateness : Nat) : State :=
  match ringPlace (s.rd F.PKE_CR_BASE_BASE) (s.rd F.PKE_CR_CFG_SIZE) (s.rd F.PKE_CR_WP_WP) (s.rd F.PKE_CR_RP_RP) 16 with
  | none => pkeCnt s 9
  | some a =>
    let s := physWrite s a (leBytes 4 f.w0 ++ leBytes 4 (at' / 256) ++
      [BitVec.ofNat 8 at', BitVec.ofNat 8 (dPort f), BitVec.ofNat 8 status, 0] ++ leBytes 4 lateness)
    let s := s.set F.PKE_CR_WP_WP (s.rd F.PKE_CR_WP_WP + 1)
    if s.on F.PKE_CR_CFG_IE then s.set F.PKE_IRQSTAT_CMPL 1 else s

/-- The counters of a port at a descriptor's end. -/
def endPortCnt (s : State) (p status octets : Nat) : State :=
  match status with
  | 0 => portCnt (portCnt s p 5) p 6 octets
  | 1 => portCnt (portCnt (portCnt s p 5) p 6 octets) p 7
  | 2 => portCnt s p 8
  | 3 => portCnt s p 9
  | 4 => portCnt s p 10
  | 5 => ((portCnt (pkeCnt s 10) p 11).set F.PKE_IRQSTAT_ECC 1).errEvent 8
  | _ => s

/-- The words of the transmit stream at a descriptor's end (R379). -/
def endStream (s : State) (f : EgFrame) (status at' : Nat) : State :=
  let n := dStrm f
  if status = egSENT || status = egLATE then
    let s := strmCnt (strmCnt s n 1) n 2 f.octets
    let s := if dRaw f then s else (s.wr I.stCnt (8 * n + 3) f.idx).wr I.stCnt (8 * n + 4) f.ts
    let s := s.wr I.stCnt (8 * n + 7) (at' / 256)
    if status = egLATE then strmCnt s n 5 else s
  else if status = egDROPLATE then strmCnt s n 6
  else s

/-- A descriptor ends with a status; `at'` is its start stamp, 0 if not sent. -/
def egEnd (s : State) (f : EgFrame) (status at' octets lateness : Nat) : State :=
  let s := endPortCnt s (dPort f) status octets
  if f.own then s
  else
    let s := endStream s f status at'
    if bitOf f.w3 25 || (f.svc && decide (2 ≤ status)) then completion s f status at' lateness else s

/-! ## Queues (R383, R384) -/

/-- The queue of a port: its priority queues 0–7, and the timed-launch queue 8. -/
def egQueue (s : State) (p q : Nat) : List EgFrame := Tbl.get [] s.egress (9 * p + q)
def setQueue (s : State) (p q : Nat) (l : List EgFrame) : State := { s with egress := Tbl.put [] (9 * p + q) l s.egress }

/-- Room in each queue. -/
def queueRoom (q : Nat) : Nat := if q = 8 then 4096 else 256

/-- Now, on a port's LTB. -/
def portNow (s : State) (p : Nat) : Nat := s.rd F.TMU_TB_NS_NS (s.rd F.PKE_P_TCFG_LTB p)

/-- Is a timed frame within the 20 µs in which it is prepared (R385). -/
def inWindow (s : State) (p launch : Nat) : Bool := decide (diff32 launch (portNow s p) ≤ 20000)

/-- A frame that is good to queue joins its queue; inside the window it is prepared at once. -/
def enqueue (s : State) (f : EgFrame) : State :=
  let p := dPort f
  let q := if dTimed f then 8 else dPrio f
  if queueRoom q ≤ (egQueue s p q).length then egEnd s f egFULL 0 0 0
  else
    let f := { f with late := dTimed f && decide (diff32 f.w2 (portNow s p) < 0) }
    if dTimed f && inWindow s p f.w2 then
      let r := prepare s f
      setQueue r.2 p q (egQueue r.2 p q ++ [r.1])
    else setQueue s p q (egQueue s p q ++ [f])

/-- A descriptor at a PKS offset is posted (R380); `ecc` says that reading it, its template or its payload
meets an uncorrectable error. -/
def post (s : State) (svc : Bool) (ofs : Nat) (ecc : Bool) : State :=
  let a := pksBase + bits ofs 24 4 * 16
  let f := newFrame (s.readLE a 4) (s.readLE (a + 4) 4) (s.readLE (a + 8) 4) (s.readLE (a + 12) 4) svc none
  if ecc then egEnd s f egECC 0 0 0
  else if !portSends s (dPort f) then egEnd s f egDOWN 0 0 0
  else if badDesc s f then egEnd s f egBADDESC 0 0 0
  else enqueue s f

/-- A tunnel frame of CWY joins a priority queue of a port (R447); a full queue drops it. -/
def tunnelPost (s : State) (p prio : Nat) (bytes : List Byte) : State :=
  let f := newFrame 0 0 0 (prio * 2 ^ 28 + p * 2 ^ 22) false (some bytes)
  if portSends s p then enqueue s f else egEnd s f egDOWN 0 0 0

/-! ## The wire -/

/-- The place of the IP header, or of the PTP header under EtherType 0x88F7: after any tag. -/
def l3Place (b : List Byte) : Nat := if beAt b 12 2 = 0x8100 then 18 else 14

/-- The place of the UDP header of a frame, if it has one. -/
def udpPlace (b : List Byte) : Option Nat :=
  let k := l3Place b
  let et := beAt b (k - 2) 2
  if et = 0x0800 && byteAt b (k + 9) == 17 then some (k + 4 * (byteAt b k % 16))
  else if et = 0x86DD && byteAt b (k + 6) == 17 then some (k + 40)
  else none

/-- The PTP header's place (R409). -/
def ptpPlace (b : List Byte) : Option Nat :=
  if beAt b (l3Place b - 2) 2 = 0x88F7 then some (l3Place b)
  else match udpPlace b with
    | some u => if beAt b (u + 2) 2 = 319 then some (u + 8) else none
    | none => none

/-- The frame with its UDP checksum recomputed, unless it is a zero IPv4 checksum. -/
def fixUdp (b : List Byte) : List Byte :=
  match udpPlace b with
  | none => b
  | some u =>
    let k := l3Place b
    let v6 := beAt b (k - 2) 2 = 0x86DD
    if beAt b (u + 6) 2 = 0 && !v6 then b
    else
      let src := if v6 then (b.drop (k + 8)).take 16 else (b.drop (k + 12)).take 4
      let dst := if v6 then (b.drop (k + 24)).take 16 else (b.drop (k + 16)).take 4
      let n := beAt b (u + 4) 2
      let z := putBytes b (u + 6) [0, 0]
      let c := inetSum (pseudo src dst n ++ (z.drop u).take n)
      putBytes b (u + 6) (beBytes 2 (if c = 0 then 65535 else c))

/-- One-step timestamp insertion (R409). -/
def insertStamp (b : List Byte) (w2 at' : Nat) : List Byte :=
  match ptpPlace b with
  | none => b
  | some k =>
    let add : Int := diff32 (at' / 256) w2 * 65536 + (at' % 256 * 256 : Nat)
    fixUdp (putBytes b (k + 8) (beBytes 8 (ofInt 64 ((beAt b (k + 8) 8 : Int) + add))))

/-- A frame on the wire: padded to 60 octets, with its FCS. -/
def wireFrame (b : List Byte) : List Byte :=
  let b := padTo 60 b
  b ++ leBytes 4 (crc32 b)

/-- A frame starts on port p with start stamp `at'`. -/
def sendFrame (s : State) (p : Nat) (f : EgFrame) (status at' lateness : Nat) : State :=
  let b := wireFrame (if bitOf f.w1 11 && !f.own then insertStamp (f.frame.getD []) f.w2 at' else f.frame.getD [])
  egEnd { s with wire := Tbl.put [] p b s.wire } f status at' b.length lateness

/-- The timed frame of earliest LAUNCH, by post order among equals (R384). -/
def earliest (s : State) (p : Nat) : List EgFrame → Option EgFrame
  | [] => none
  | f :: r =>
    match earliest s p r with
    | none => some f
    | some g => if diff32 g.w2 (portNow s p) < diff32 f.w2 (portNow s p) then some g else some f

/-- A queue without the first frame equal to f. -/
def dropFirst (f : EgFrame) : List EgFrame → List EgFrame
  | [] => []
  | g :: r => if g = f then r else g :: dropFirst f r

/-- A prepared timed frame starts, or is dropped as late (R385, R386). -/
def launchFrame (s : State) (p sub : Nat) (f : EgFrame) : State :=
  let at' := txStamp s p (s.rd F.PKE_P_TCFG_LTB p) sub
  let d := diff32 (at' / 256) f.w2
  let late := f.late || decide ((s.rd F.PKE_P_TCFG_LATETOL p : Int) < d)
  if d < 0 && !f.late then s
  else
    let s := setQueue s p 8 (dropFirst f (egQueue s p 8))
    if !portSends s p then egEnd s f egDOWN 0 0 0
    else if late && bitOf f.w3 27 then egEnd s f egDROPLATE 0 0 0
    else sendFrame s p f (if late then egLATE else egSENT) at' (if late then d.toNat else 0)

/-- FRAME_LAUNCH (R385, R386, R382): the earliest timed frame of port p, once prepared, `sub` 1/256 ns
after the last tick at the PCS. -/
def execFrameLaunch (p : Fin 8) (sub : BitVec 9) (s : State) : Host.Outcome State Fault Refusal :=
  match earliest s p.val (egQueue s p.val 8) with
  | some f => if f.frame.isSome then go (launchFrame s p.val sub.toNat f) else go s
  | none => go s

/-- The timed frames of a port that are due for preparation are prepared, earliest first. -/
def prepareDue (s : State) (p : Nat) (ecc : Bool) : State :=
  let q := egQueue s p 8
  match earliest s p (q.filter fun f => f.frame.isNone && inWindow s p f.w2) with
  | none => s
  | some f =>
    let rest := dropFirst f q
    if ecc then egEnd (setQueue s p 8 rest) f egECC 0 0 0
    else if badDesc s f then egEnd (setQueue s p 8 rest) f egBADDESC 0 0 0
    else
      let r := prepare s f
      setQueue r.2 p 8 (q.map fun g => if g = f then r.1 else g)

/-- TIMED_FRAME_PREPARE (R385). -/
def execTimedFramePrepare (p : Fin 8) (ecc : Bool) (s : State) : Host.Outcome State Fault Refusal :=
  go (prepareDue s p.val ecc)

/-- Picoseconds of an octet on port p by its mode. -/
def octetPs (s : State) (p : Nat) : Nat := match s.rd I.pMode p with | 3 => 800 | 4 => 320 | _ => 8000

/-- Does a frame of n octets end, with preamble and gap, before the earliest LAUNCH within 20 µs
(R384). -/
def fitsBefore (s : State) (p n : Nat) : Bool :=
  match earliest s p ((egQueue s p 8).filter fun f => inWindow s p f.w2) with
  | none => true
  | some f => decide (((n + 20) * octetPs s p : Nat) < diff32 f.w2 (portNow s p) * 1000)

/-- The highest priority queue of a port that holds a frame. -/
def topPrio (s : State) (p : Nat) : Option Nat := (List.range 8).reverse.find? fun q => !(egQueue s p q).isEmpty

/-- The first frame of the highest priority queue is sent, if it fits. -/
def sendPriority (s : State) (p sub : Nat) (ecc : Bool) : State :=
  match topPrio s p with
  | none => s
  | some q =>
    match egQueue s p q with
    | [] => s
    | f :: r =>
      if !portSends s p then egEnd (setQueue s p q r) f egDOWN 0 0 0
      else if ecc && !f.own then egEnd (setQueue s p q r) f egECC 0 0 0
      else if badDesc s f then egEnd (setQueue s p q r) f egBADDESC 0 0 0
      else
        let e := prepare s f
        if fitsBefore s p (max 64 ((e.1.frame.getD []).length + 4)) then
          sendFrame (setQueue e.2 p q r) p e.1 egSENT (txStamp s p (s.rd F.PKE_P_TCFG_LTB p) sub) 0
        else s

/-- PRIORITY_FRAME_SEND (R384). -/
def execPriorityFrameSend (p : Fin 8) (sub : BitVec 9) (ecc : Bool) (s : State) : Host.Outcome State Fault Refusal :=
  go (sendPriority s p.val sub.toNat ecc)

/-- May an initiator post (R380): signal and supervisor cores; others are counted in POSTERR. -/
def mayPost : Init → Bool
  | .sgc _ => true
  | .svc _ => true
  | _ => false

/-- A write of PKE_EGPOST. -/
def egpostWrite (s : State) (ini : Init) (v : Nat) (ecc : Bool) : State :=
  if mayPost ini then post s (match ini with | .svc _ => true | _ => false) v ecc else pkeCnt s 9

/-- EGRESS_POST (R380–R383). -/
def execEgressPost (ini : Init) (v : Word) (ecc : Bool) (s : State) : Host.Outcome State Fault Refusal :=
  if s.fabric then go (egpostWrite s ini v.toNat ecc) else go s

/-- Every descriptor queued for a port ends with DOWN (R365). -/
def endQueued (s : State) (p : Nat) : State :=
  s.over (List.range 9) fun s q => (egQueue s p q).foldl (fun s f => egEnd s f egDOWN 0 0 0) (setQueue s p q [])

end Sys2Proof.Machine
end

