-- ==== Sys2Proof/Machine/CwySend.lean ====
section
/-! DEFINITION.  Causeway frames as they are built, routed and sent: the frame format, the replay buffers,
the tunnels, LINK and TIME frames (R441–R448, R457). -/

namespace Sys2Proof.Machine

abbrev cwLINK := 0
abbrev cwTIME := 1
abbrev cwBRIDGE := 2
abbrev cwMIGPAGE := 3
abbrev cwMIGCTL := 4
abbrev cwPKTFWD := 5
abbrev cwEVENT := 6
abbrev cwMBOX := 7
abbrev cwRACC := 8
abbrev cwRRSP := 9
abbrev cwFENCE := 10
abbrev cwMLSTONE := 11
abbrev cwBOOT := 12

/-- Is a frame type sequenced (R443). -/
def cwSequenced (t : Nat) : Bool := t == 3 || t == 4 || (decide (6 ≤ t) && decide (t ≤ 11))

/-- Is a frame type local: consumed by the link's peer whatever DST holds (R443). -/
def cwLocal (t : Nat) : Bool := t == cwLINK || t == cwTIME || t == cwBOOT

/-- Has the device locked its number, and which it is; 0 while it has not (R442, R446). -/
def devLocked (s : State) : Bool := s.on F.SYS_DEVNUM_LOCKED
def ownDev (s : State) : Nat := if devLocked s then s.rd F.SYS_DEVNUM_DEVNUM else 0

/-- Is a link a tunnel. -/
def isTunnel (l : Nat) : Bool := decide (6 ≤ l)

/-- Is a link UP. -/
def cwUp (s : State) (l : Nat) : Bool := s.on F.CWY_L_STAT_UP l

/-- The bytes of a frame as a link sends it (R442). -/
def cwBytes (s : State) (l seq : Nat) (f : CwFrame) : List Byte :=
  let h := beBytes 4 (2 ^ 28 + f.type * 2 ^ 24 + f.dst % 2048 * 2048 + f.src % 2048) ++ beBytes 4 f.epoch ++
    beBytes 4 (seq % 65536 * 65536 + s.rd I.cwRx l) ++ beBytes 4 (f.hops % 16 * 2 ^ 28 + f.payload.length)
  h ++ f.payload ++ beBytes 4 (crc32 (h ++ f.payload))

/-- The Ethernet frame of a tunnel frame, without FCS (R447). -/
def tunnelBytes (s : State) (l : Nat) (b : List Byte) : List Byte :=
  let vid := s.rd F.CWY_L_CFG_VID l
  beBytes 2 (s.rd F.CWY_L_PEERMAC_HI_MAC l) ++ beBytes 4 (s.rd F.CWY_L_PEERMAC_LO_MAC l) ++
    portMac s (s.rd F.CWY_L_CFG_PORT l) ++ (if vid = 0 then [] else [0x81, 0x00] ++ beBytes 2 vid) ++
    beBytes 2 (s.rd F.PKE_CWETYPE_ETYPE) ++ b

/-- The largest payload of a frame on a link: 4,112 bytes, or what fits in the port's MAXFRM (R442,
R447). -/
def cwRoom (s : State) (l : Nat) : Nat :=
  if isTunnel l then
    min 4112 (maxFrm s (s.rd F.CWY_L_CFG_PORT l) - (14 + (if s.on F.CWY_L_CFG_VID l then 4 else 0) + 16 + 4 + 4))
  else 4112

/-- A frame goes out on link l; `time` marks a TIME frame, whose start is stamped (R445, R447, R457). -/
def cwTransmit (s : State) (l seq : Nat) (f : CwFrame) : State :=
  let b := cwBytes s l seq f
  let s := linkCnt s l 0
  if isTunnel l then
    if s.on F.PKE_CWETYPE_ETYPE then
      tunnelPost s (s.rd F.CWY_L_CFG_PORT l) (s.rd F.CWY_L_CFG_TPRIO l) (tunnelBytes s l b)
    else s
  else { s with wire := Tbl.put [] (8 + l) b s.wire }

/-- The bytes a list of frames takes in a replay buffer. -/
def replayBytes (l : List (Nat × CwFrame)) : Nat := l.foldl (fun n e => n + 20 + e.2.payload.length) 0

/-- Has the replay buffer of a link room for a frame (256 KB, R445). -/
def replayRoom (s : State) (l : Nat) (f : CwFrame) : Bool :=
  decide (replayBytes (linkOf s l).replay + 20 + f.payload.length ≤ 262144)

/-- What waits for a frame's place learns that it has it. -/
def cwPlaced (s : State) (who : Nat) : State :=
  match who with
  | 1 => (s.set F.CWY_MBS_CMD_GO 0).set F.CWY_MBS_CMD_RESULT 0
  | 2 => (s.set F.CWY_FENCECMD_GO 0).set F.CWY_FENCECMD_RESULT 0
  | _ => s

/-- A sequenced frame takes its place in the replay buffer and is sent (R445). -/
def cwPlace (s : State) (l who : Nat) (f : CwFrame) : State :=
  let seq := s.rd I.cwTx l
  let k := linkOf s l
  let s := setLink (s.wr I.cwTx l (seq + 1)) l { k with replay := k.replay ++ [(seq, f)] }
  cwPlaced (cwTransmit s l seq f) who

/-- A frame is given to an UP link: a sequenced one waits while the replay buffer is full, an unsequenced
routed one is then dropped. -/
def cwGive (s : State) (l who : Nat) (f : CwFrame) : State :=
  let room := replayRoom s l f && (linkOf s l).waiting.isEmpty
  if cwSequenced f.type then
    if room then cwPlace s l who f
    else
      let k := linkOf s l
      setLink s l { k with waiting := k.waiting ++ [(who, f)] }
  else if cwLocal f.type || replayRoom s l f then cwTransmit s l 0 f
  else s

/-- The frames that wait take the places that have become free. -/
def cwRefill (s : State) (l : Nat) : Nat → State
  | 0 => s
  | n + 1 =>
    match (linkOf s l).waiting with
    | [] => s
    | (who, f) :: r =>
      if replayRoom s l f then
        let k := linkOf s l
        cwRefill (cwPlace (setLink s l { k with waiting := r }) l who f) l n
      else s

/-- The link to a device, if its route is valid and UP (R446). -/
def cwRoute (s : State) (dev : Nat) : Option Nat :=
  let l := s.rd F.CWY_ROUTE_LINK dev
  if s.on F.CWY_ROUTE_VALID dev && decide (l < 14) && cwUp s l then some l else none

/-- A routed frame that the device builds, for a device (R446): sent, or UNREACH. -/
def cwSend (s : State) (who type dev : Nat) (payload : List Byte) : State :=
  match if devLocked s then cwRoute s dev else none with
  | some l => cwGive s l who ⟨type, dev, ownDev s, s.rd F.CWY_EPOCH_EPOCH, 15, payload⟩
  | none => cwUnreach s who

/-- A local frame that the device builds, on a link. -/
def cwSendLocal (s : State) (l type : Nat) (payload : List Byte) : State :=
  cwGive s l 0 ⟨type, 0, ownDev s, s.rd F.CWY_EPOCH_EPOCH, 15, payload⟩

/-! ## LINK frames and the states of a link (R441) -/

/-- The states of CWY_L_STAT. -/
abbrev ckDOWN := 0
abbrev ckTRAIN := 1
abbrev ckHELLO := 2
abbrev ckUP := 3

/-- May a link be other than DOWN: in SERVICE and DRAIN, and CW0 in BOOT while the boot ROM uses it as its
source. -/
def cwMayRun (s : State) (l : Nat) : Bool :=
  s.on F.CWY_CTRL_RUN && s.on F.CWY_L_CFG_EN l &&
    (s.serving || (s.mode == mBOOT && l == 0 && s.rd I.bootSrc == 2 && s.rd I.romSt == 1))

/-- A link whose EN and RUN are set leaves DOWN; a tunnel skips TRAINING. -/
def cwStart (s : State) (l : Nat) : State :=
  if cwMayRun s l && s.rd F.CWY_L_STAT_STATE l == ckDOWN then
    s.wr F.CWY_L_STAT_STATE l (if isTunnel l then ckHELLO else ckTRAIN)
  else s

/-- A link enters UP: sequence numbers count from 0 (R441, R445), the latencies are loaded (R403). -/
def cwEnterUp (s : State) (l : Nat) : State :=
  let s := (s.wr F.CWY_L_STAT_STATE l ckUP).wr F.CWY_L_STAT_UP l 1
  let s := ((s.wr F.CWY_L_STAT_LINKCHG l 1).set F.CWY_IRQSTAT_LINK 1).wr I.cwRounds l 0
  let s := ((s.wr I.cwTx l 0).wr I.cwRx l 0).wr I.tmHave l 0
  if isTunnel l then s else loadLatency s (8 + l) 4 0

/-- A link in HELLO enters UP once it has sent and received a LINK frame. -/
def cwHello (s : State) (l : Nat) : State :=
  if s.rd F.CWY_L_STAT_STATE l == ckHELLO && s.on I.cwSent l && s.on I.cwGot l then cwEnterUp s l else s

/-- A LINK frame is sent (R443). -/
def linkSend (s : State) (l : Nat) : State :=
  let s := cwSendLocal s l cwLINK (beBytes 4 (b2n (devLocked s) * 2 ^ 31 + ownDev s) ++ [0, 0, 0, 0])
  cwHello (s.wr I.cwSent l 1) l

/-- Every link leaves DOWN, or goes DOWN, as EN, RUN and the mode say. -/
def cwFollow (s : State) : State :=
  s.over (List.range 14) fun s l => if cwMayRun s l then cwStart s l else cwDown s l

/-- CW_LINK_TRAINED (R441). -/
def execCwLinkTrained (l : Fin 14) (s : State) : Host.Outcome State Fault Refusal :=
  let s := cwStart s l.val
  if s.rd F.CWY_L_STAT_STATE l.val == ckTRAIN then go (s.wr F.CWY_L_STAT_STATE l.val ckHELLO) else go s

/-- CW_LINK_KEEPALIVE (R441): a LINK frame, in HELLO, or in UP after 10 µs of silence. -/
def execCwLinkKeepalive (l : Fin 14) (s : State) : Host.Outcome State Fault Refusal :=
  let s := cwStart s l.val
  if s.rd F.CWY_L_STAT_STATE l.val == ckHELLO || cwUp s l.val then go (linkSend s l.val) else go s

/-! ## Time transfer: the sending side (R457) -/

/-- The payload of the next TIME frame of a link. -/
def timePayload (s : State) (l : Nat) : List Byte :=
  let prev := (s.rd I.tmSeq l + 65535) % 65536
  let i := 16 * l + prev % 16
  beBytes 2 (s.rd I.tmSeq l) ++ beBytes 2 (s.rd I.tmRxSeq l) ++ beBytes 4 (s.rd I.tmRxNs l) ++
    beBytes 4 (s.rd I.tmTxNs i) ++ [BitVec.ofNat 8 (s.rd I.tmRxFr l), BitVec.ofNat 8 (s.rd I.tmTxFr i), 0, 0] ++
    [0, 0, 0, 0]

/-- The place whose latency and clock stamp a link's frames: the link, or its Ethernet port (R447). -/
def stampPlace (s : State) (l : Nat) : Nat := if isTunnel l then s.rd F.CWY_L_CFG_PORT l else 8 + l

/-- A TIME frame is sent on a link, and its start stamped on TTB. -/
def timeSend (s : State) (l sub : Nat) : State :=
  let n := s.rd I.tmSeq l
  let b := timePayload s l
  let st := txStamp s (stampPlace s l) (s.rd F.CWY_L_CFG_TTB l) sub
  let s := (s.wr I.tmTxNs (16 * l + n % 16) (st / 256)).wr I.tmTxFr (16 * l + n % 16) (st % 256)
  cwSendLocal (s.wr I.tmSeq l (n + 1)) l cwTIME b

/-- TIME_SEND (R457). -/
def execTimeSend (l : Fin 14) (sub : BitVec 9) (s : State) : Host.Outcome State Fault Refusal :=
  if cwUp s l.val then go (timeSend s l.val sub.toNat) else go s

/-! ## Retransmission (R445) -/

/-- A round of retransmission: every unacknowledged frame again, in order; after 8 rounds without an
advance the link goes DOWN. -/
def retransmit (s : State) (l : Nat) : State :=
  let k := linkOf s l
  if k.replay.isEmpty then s
  else if s.rd I.cwRounds l = 8 then cwDown s l
  else
    let s := linkCnt (s.wr I.cwRounds l (s.rd I.cwRounds l + 1)) l 3
    k.replay.foldl (fun s e => cwTransmit s l e.1 e.2) s

/-- The peer's ACK: frames before it are acknowledged, and waiting frames take their places. -/
def cwAck (s : State) (l ack : Nat) : State :=
  let k := linkOf s l
  let keep := k.replay.filter fun e => decide (0 ≤ signedOf 16 (e.1 % 65536 + 65536 - ack % 65536))
  if keep.length < k.replay.length then
    let s := setLink (s.wr I.cwRounds l 0) l { k with replay := keep }
    cwRefill s l (k.waiting.length + 1)
  else s

end Sys2Proof.Machine
end

