-- ==== Sys2Proof/Machine/Jb.lean ====
section
/-! DEFINITION.  Jitter buffers in PKS: the header, the slots, the filing of a packet and the resize
(R292–R295, R375). -/

namespace Sys2Proof.Machine

/-- A 16-bit field of a jitter-buffer header at physical address h (R292). -/
def jb16 (s : State) (h off : Nat) : Nat := s.readLE (h + off) 2

/-- PKE or the block program writes an n-byte field of a jitter buffer. -/
def jbPut (s : State) (a n v : Nat) : State := physWrite s a (leBytes n v)

/-- A saturating 32-bit counter of the header counts n. -/
def jbCount (s : State) (h off n : Nat) : State :=
  if n = 0 then s else jbPut s (h + off) 4 (min (s.readLE (h + off) 4 + n) (2 ^ 32 - 1))

/-- The signed 16-bit difference of two sequence numbers (R19). -/
def diff16 (a b : Nat) : Int := signedOf 16 (a % 2 ^ 16 + 2 ^ 16 - b % 2 ^ 16)

/-- Where slot i lies (R293). -/
def jbSlot (s : State) (h i : Nat) : Nat := h + 64 + i * jb16 s h 2

/-- Is slot i VALID. -/
def jbValid (s : State) (h i : Nat) : Bool := bitOf (s.byte (jbSlot s h i + 2)).toNat 0

/-- VALID of slot i is cleared. -/
def jbClear (s : State) (h i : Nat) : State :=
  let a := jbSlot s h i + 2
  jbPut s a 1 (clrBit (s.byte a).toNat 0)

/-- Is a requested length one that a resize may take: a power of two from 8 to 1,024. -/
def jbLenOk (n : Nat) : Bool := [8, 16, 32, 64, 128, 256, 512, 1024].contains n

/-- JB_RESIZE (R295): LENREQ is taken; packets in slots at or beyond it are discarded and counted. -/
def jbResize (s : State) (h : Nat) : State :=
  let req := jb16 s h 0
  let len := jb16 s h 4
  let lost := ((List.range (len - req)).map (req + ·)).filter fun i => jbValid s h i
  let s := jbCount (s.over lost fun s i => jbClear s h i) h 0x1C lost.length
  jbPut (jbPut s (h + 6) 2 len) (h + 4) 2 req

/-- What a packet to file is: sequence number, marker, payload type, timestamp, arrival, payload. -/
structure JbPacket where
  seq : Nat
  marker : Bool
  pt : Nat
  ts : Nat
  arrival : Nat
  payload : List Byte
  deriving DecidableEq, Repr

/-- The packet is stored in slot s mod LEN: payload first, then the slot header (R293, R294). -/
def jbStore (s : State) (h : Nat) (k : JbPacket) : State :=
  let a := jbSlot s h (k.seq % jb16 s h 4)
  let s := physWrite s (a + 16) k.payload
  physWrite s a (leBytes 2 k.seq ++ [BitVec.ofNat 8 (1 + 2 * b2n k.marker), BitVec.ofNat 8 k.pt] ++ leBytes 4 k.ts ++
    leBytes 4 k.arrival ++ leBytes 2 k.payload.length ++ [0, 0])

/-- JB_FILE (R294, R295, R375): was the packet filed, and the state. -/
def jbFile (s : State) (h : Nat) (k : JbPacket) : Bool × State :=
  if jb16 s h 2 < k.payload.length + 16 then (false, pkeCnt s 7)
  else if bitOf (s.byte (h + 0xC)).toNat 0 && decide (diff16 k.seq (jb16 s h 0xA) ≤ 0) then (false, jbCount s h 0x14 1)
  else
    let i := k.seq % jb16 s h 4
    if jbValid s h i && jb16 s (jbSlot s h i) 0 == k.seq then (false, jbCount s h 0x18 1)
    else
      let hseq := jb16 s h 8
      let newH := if 0 < diff16 k.seq hseq then k.seq else hseq
      let turn := newH % jb16 s h 4 < hseq % jb16 s h 4
      let s := if turn && jb16 s h 0 != jb16 s h 4 && jbLenOk (jb16 s h 0) then jbResize s h else s
      (true, jbCount (jbPut (jbStore s h k) (h + 8) 2 newH) h 0x10 1)

/-- The physical address of a header named by PKS offset bits [24:6]. -/
def jbHeader (ofs : Nat) : Nat := pksBase + 64 * ofs

/-- JB_FILE (R294). -/
def execJbFile (ofs : BitVec 19) (seq : BitVec 16) (marker : Bool) (pt : BitVec 7) (ts arrival : Word)
    (payload : List Byte) (s : State) : Host.Outcome State Fault Refusal :=
  if s.fabric && s.on F.PKE_CTRL_RUN then
    go (jbFile s (jbHeader ofs.toNat) ⟨seq.toNat, marker, pt.toNat, ts.toNat, arrival.toNat, payload⟩).2
  else go s

end Sys2Proof.Machine
end

