-- ==== Sys2Proof/Machine/PkeRx.lean ====
section
/-! DEFINITION.  The receive side of the packet engine: cells, the classifier, SRTP and RTP, filing,
supervisor receive queues, the key store and the streams (R267, R366–R379, R389, R390). -/

namespace Sys2Proof.Machine

/-! ## Cells (R267, R389, R390) -/

/-- The cells of the region, and where cell i lies. -/
def cellCount (s : State) : Nat := min 131072 (s.rd F.PKE_CELLCNT_CNT)
def cellAddr (s : State) (i : Nat) : Nat := pksBase + s.rd F.PKE_CELLBASE_BASE * 256 + 256 * i

/-- Guarantee, held cells and fraction of a consumer. -/
def cellG (s : State) (c : Nat) : Nat := s.rd F.PKE_CELLCFG_G c
def cellH (s : State) (c : Nat) : Nat := s.rd F.PKE_CELLHELD_HELD c
def cellF (s : State) (c : Nat) : Nat := min 16 (s.rd F.PKE_CELLCFG_F c)

/-- The sum over consumers. -/
def overConsumers (f : Nat → Nat) : Nat := (List.range 25).foldl (fun n c => n + f c) 0

/-- S_free: the cells of the shared pool less those held beyond guarantees. -/
def sfree (s : State) : Nat :=
  cellCount s - overConsumers (cellG s) - overConsumers fun c => cellH s c - cellG s c

/-- PKE_CELLSTAT as read: 0 until RUN, its reset value; then S_free. -/
def cellStatWord (s : State) : Nat := if s.on F.PKE_CTRL_RUN then sfree s % 2 ^ 18 else 0

/-- Is a request of consumer c for one cell granted. -/
def cellGranted (s : State) (c : Nat) : Bool :=
  decide (cellH s c < cellG s c) ||
    (decide (1 ≤ sfree s) && decide (cellH s c - cellG s c < sfree s * cellF s c / 16))

/-- The first free cell at or after `start`, cyclically. -/
def findCell (s : State) (start : Nat) : Nat → Option Nat
  | 0 => none
  | k + 1 =>
    let i := (start + (cellCount s - 1 - k)) % cellCount s
    if s.on I.cellOwner i then findCell s start k else some i

/-- A cell for consumer c: which free one the spec leaves open. -/
def takeCell (s : State) (c : Nat) : Option (Nat × State) :=
  if cellGranted s c then
    let r := s.draw
    (findCell s r.1 (cellCount s)).map fun i =>
      (i, (r.2.wr I.cellOwner i (c + 1)).wr F.PKE_CELLHELD_HELD c (cellH s c + 1))
  else none

/-- Cell i is freed to its holder's account. -/
def freeCell (s : State) (i : Nat) : State :=
  if s.on I.cellOwner i then
    let c := s.rd I.cellOwner i - 1
    (s.wr I.cellOwner i 0).wr F.PKE_CELLHELD_HELD c (cellH s c - 1)
  else s

/-- Cells are freed. -/
def freeCells (s : State) (l : List Nat) : State := s.over l freeCell

/-- n cells for consumer c, or none, with no cell held. -/
def takeCells (s : State) (c : Nat) : Nat → Option (List Nat × State)
  | 0 => some ([], s)
  | n + 1 =>
    match takeCell s c with
    | none => none
    | some (i, s) => (takeCells s c n).map fun r => (i :: r.1, r.2)

/-- A frame is stored in its cells. -/
def storeCells (s : State) (b : List Byte) : List Nat → State
  | [] => s
  | i :: r => storeCells (physWrite s (cellAddr s i) (b.take 256)) (b.drop 256) r

/-- The cells move to consumer q, one at a time; none if one is refused. -/
def moveCells (s : State) (q : Nat) : List Nat → Option State
  | [] => some s
  | i :: r =>
    if cellGranted s q then
      let s := freeCell s i
      moveCells ((s.wr I.cellOwner i (q + 1)).wr F.PKE_CELLHELD_HELD q (cellH s q + 1)) q r
    else none

/-! ## Receive queues (R376) -/

/-- A received frame on its way: its port (8 over Causeway), stamps in 1/256 ns on TSTB and in ns on TB0,
its cells, its bytes without FCS. -/
structure Rcvd where
  port : Nat
  at' : Nat
  tb0 : Nat
  cells : List Nat
  bytes : List Byte
  deriving DecidableEq, Repr

/-- The descriptor of a delivered frame. -/
def rqDescriptor (f : Rcvd) (reason : Nat) : List Byte :=
  let c := fun k => f.cells.getD k 0
  leBytes 2 f.bytes.length ++ [BitVec.ofNat 8 f.port, BitVec.ofNat 8 reason] ++ leBytes 4 (f.at' / 256) ++
    [BitVec.ofNat 8 f.at', BitVec.ofNat 8 f.cells.length] ++
    leBytes 2 ((List.range 8).foldl (fun v k => v + c k / 65536 % 4 * 4 ^ k) 0) ++ [0, 0, 0, 0] ++
    (List.range 8).flatMap fun k => leBytes 2 (c k)

/-- A frame that queue q cannot take is dropped (QDROP), its cells freed. -/
def rqDrop (s : State) (f : Rcvd) : State := pkeCnt (freeCells s f.cells) 8

/-- RQ_DELIVER (R376): the frame goes to receive queue q with a reason, or is dropped. -/
def rqDeliver (s : State) (f : Rcvd) (q reason : Nat) : State :=
  match ringPlace (s.rd F.PKE_RQ_BASE_BASE q) (s.rd F.PKE_RQ_CFG_SIZE q) (s.rd F.PKE_RQ_WP_WP q)
      (s.rd F.PKE_RQ_RP_RP q) 32 with
  | none => rqDrop s f
  | some a =>
    match moveCells s (8 + q) f.cells with
    | none => rqDrop s f
    | some s =>
      let s := physWrite s a (rqDescriptor f reason)
      let s := s.wr F.PKE_RQ_WP_WP q (s.rd F.PKE_RQ_WP_WP q + 1)
      if s.on F.PKE_RQ_CFG_IE q then s.set F.PKE_IRQSTAT_RXQ 1 else s

/-! ## The classifier (R368–R370) -/

/-- A key as one number: LADDR above UDPPORT. -/
def clsKeyOf (laddr port : Nat) : Nat := laddr % 16 * 65536 + port % 65536

/-- The ways of a key's bucket. -/
def clsWays (key : Nat) : List Nat :=
  let b := (key % 65536 + 2048 * (key / 65536)) % 8192
  (List.range 4).map (4 * b + ·)

/-- The entry of a key. -/
def clsFind (s : State) (key : Nat) : Option Nat :=
  (clsWays key).find? fun i => s.on I.clsV i && s.rd I.clsKey i == key

/-- An entry's words. -/
def clsWrite (s : State) (i e0 e1 e2 e3 : Nat) : State :=
  (((s.wr I.clsE0 i (e0 % 2 ^ 31)).wr I.clsE1 i e1).wr I.clsE2 i e2).wr I.clsE3 i (e3 % 2 ^ 31)

/-- INSERT: its result, and the state. -/
def clsInsert (s : State) (key e0 e1 e2 e3 : Nat) : Nat × State :=
  if (clsFind s key).isSome then (1, s)
  else match (clsWays key).find? fun i => !s.on I.clsV i with
    | none => (2, s)
    | some i =>
      (0, (clsWrite ((s.wr I.clsV i 1).wr I.clsKey i key) i e0 e1 e2 e3).set F.PKE_CLS_CNT_CNT
        (s.rd F.PKE_CLS_CNT_CNT + 1))

/-- Frames in progress classified under entry i are so under its old words. -/
def clsAge (s : State) (i : Nat) : State :=
  { s with rxFrames := s.rxFrames.map fun f => if f.ent = i then { f with old := true } else f }

/-- MODIFY: all fields of the key's entry at once; with SSRCM = 1 no SSRC is latched. -/
def clsModify (s : State) (key e0 e1 e2 e3 : Nat) : Nat × State :=
  match clsFind s key with
  | none => (3, s)
  | some i => (0, clsWrite (clsAge s i) i e0 e1 e2 e3)

/-- DELETE. -/
def clsDelete (s : State) (key : Nat) : Nat × State :=
  match clsFind s key with
  | none => (3, s)
  | some i => (0, ((clsAge s i).wr I.clsV i 0).set F.PKE_CLS_CNT_CNT (s.rd F.PKE_CLS_CNT_CNT - 1))

/-- Does a frame classified under an old entry remain. -/
def clsDraining (s : State) : Bool := s.rxFrames.any (·.old)

/-- The entry words as written in the registers. -/
def regE0 (s : State) : Nat :=
  s.rd F.PKE_CLS_E0_KIND * 2 ^ 29 + s.rd F.PKE_CLS_E0_SSRCM * 2 ^ 27 + s.rd F.PKE_CLS_E0_SRTP * 2 ^ 26 +
    s.rd F.PKE_CLS_E0_FLAGEN * 2 ^ 25 + s.rd F.PKE_CLS_E0_CLK * 2 ^ 23 + s.rd F.PKE_CLS_E0_RQ * 2 ^ 19 +
    s.rd F.PKE_CLS_E0_JBOFS
def regE2 (s : State) : Nat := s.rd F.PKE_CLS_E2_FLAGS * 65536 + s.rd F.PKE_CLS_E2_TID
def regE3 (s : State) : Nat := s.rd F.PKE_CLS_E3_FWDDEV * 65536 + s.rd F.PKE_CLS_E3_STRM

/-- The words of entry i copied into E0–E3, VALID as 1 (READ). -/
def clsRead (s : State) (i : Nat) : State :=
  let e0 := s.rd I.clsE0 i
  let e2 := s.rd I.clsE2 i
  let e3 := s.rd I.clsE3 i
  let s := ((s.set F.PKE_CLS_E0_VALID 1).set F.PKE_CLS_E0_KIND (bits e0 30 29)).set F.PKE_CLS_E0_SSRCM (bits e0 28 27)
  let s := ((s.set F.PKE_CLS_E0_SRTP (bitN e0 26)).set F.PKE_CLS_E0_FLAGEN (bitN e0 25)).set F.PKE_CLS_E0_CLK
    (bits e0 24 23)
  let s := ((s.set F.PKE_CLS_E0_RQ (bits e0 22 19)).set F.PKE_CLS_E0_JBOFS (bits e0 18 0)).set F.PKE_CLS_E1_SSRC
    (s.rd I.clsE1 i)
  let s := (s.set F.PKE_CLS_E2_FLAGS (bits e2 31 16)).set F.PKE_CLS_E2_TID (bits e2 15 0)
  ((s.set F.PKE_CLS_E3_LATCHED (bitN e3 31)).set F.PKE_CLS_E3_FWDDEV (bits e3 26 16)).set F.PKE_CLS_E3_STRM
    (bits e3 14 0)

/-- The key as written in the register. -/
def regKey (s : State) : Nat := clsKeyOf (s.rd F.PKE_CLS_KEY_LADDR) (s.rd F.PKE_CLS_KEY_UDPPORT)

/-- The result of a command; MODIFY and DELETE stay in progress while old frames remain. -/
def clsEnd (waits : Bool) (r : Nat × State) : State :=
  let s := r.2.set F.PKE_CLS_CMD_RESULT r.1
  if waits && r.1 == 0 && clsDraining s then s.set F.PKE_CLS_CMD_GO 1 else s.set F.PKE_CLS_CMD_GO 0

/-- READ (R369). -/
def clsReadCmd (s : State) : Nat × State :=
  match clsFind s (regKey s) with
  | none => (3, s)
  | some i => (0, clsRead s i)

/-- A write of PKE_CLS_CMD: OP is stored; GO runs it unless a command is in progress (R9, R369). -/
def clsCmdWrite (s : State) (v : Nat) : State :=
  if s.on F.PKE_CLS_CMD_GO then s
  else
    let op := bits v 2 0
    let s := s.set F.PKE_CLS_CMD_OP op
    if !bitOf v 31 then s
    else match op with
      | 0 => clsEnd false (clsInsert s (regKey s) (regE0 s) (s.rd F.PKE_CLS_E1_SSRC) (regE2 s) (regE3 s))
      | 1 => clsEnd true (clsModify s (regKey s) (regE0 s) (s.rd F.PKE_CLS_E1_SSRC) (regE2 s) (regE3 s))
      | 2 => clsEnd true (clsDelete s (regKey s))
      | 3 => clsEnd false (clsReadCmd s)
      | _ => clsEnd false (4, s)

/-- CLS_INSERT (R369). -/
def execClsInsert (_ini : Init) (s : State) : Host.Outcome State Fault Refusal :=
  if s.fabric then go (clsCmdWrite s 0x80000000) else go s

/-- CLS_MODIFY (R370). -/
def execClsModify (_ini : Init) (s : State) : Host.Outcome State Fault Refusal :=
  if s.fabric then go (clsCmdWrite s 0x80000001) else go s

/-- CLS_DELETE (R370). -/
def execClsDelete (_ini : Init) (s : State) : Host.Outcome State Fault Refusal :=
  if s.fabric then go (clsCmdWrite s 0x80000002) else go s

/-- CLS_READ (R369). -/
def execClsRead (_ini : Init) (s : State) : Host.Outcome State Fault Refusal :=
  if s.fabric then go (clsCmdWrite s 0x80000003) else go s

/-- CLS_DRAIN_DONE (R370): no frame classified under an old entry is left. -/
def execClsDrainDone (s : State) : Host.Outcome State Fault Refusal :=
  if s.on F.PKE_CLS_CMD_GO && !clsDraining s then go (s.set F.PKE_CLS_CMD_GO 0) else go s

/-! ## Streams and SRTP (R373–R375, R379) -/

/-- The RTP clock of an entry, in Hz (E0.CLK). -/
def clkHz (e0 : Nat) : Nat := match bits e0 24 23 with | 1 => 16000 | 2 => 48000 | _ => 8000

/-- The packet index of a received sequence number, by the estimate of RFC 3711, section 3.3.1 (R374): ROC
and sequence number. -/
def rxIndex (s : State) (n seq : Nat) : Nat :=
  let roc := s.rd I.stRoc n
  let top := s.rd I.stSeq n
  if !s.on I.stSeqV n then roc * 65536 + seq
  else if top < 32768 then
    if top + 32768 < seq then (roc + 2 ^ 32 - 1) % 2 ^ 32 * 65536 + seq else roc * 65536 + seq
  else if seq + 32768 < top then (roc + 1) % 2 ^ 32 * 65536 + seq
  else roc * 65536 + seq

/-- The highest index of a stream. -/
def topIndex (s : State) (n : Nat) : Nat := s.rd I.stRoc n * 65536 + s.rd I.stSeq n

/-- Is an index a replay: seen, or 64 or more below the highest (R374). -/
def isReplay (s : State) (n idx : Nat) : Bool :=
  s.on I.stSeqV n && decide (idx ≤ topIndex s n) &&
    (decide (64 ≤ topIndex s n - idx) || bitOf (s.rd I.stWin n) (topIndex s n - idx))

/-- ROC, the highest sequence number and the window advance over an index. -/
def advanceStream (s : State) (n idx : Nat) : State :=
  let top := topIndex s n
  if !s.on I.stSeqV n || decide (top < idx) then
    let w := if s.on I.stSeqV n then s.rd I.stWin n * 2 ^ min 64 (idx - top) + 1 else 1
    (((s.wr I.stWin n w).wr I.stRoc n (idx / 65536)).wr I.stSeq n idx).wr I.stSeqV n 1
  else s.wr I.stWin n (setBit (s.rd I.stWin n) (top - idx))

/-- The receive words of a stream after a packet is filed (R379); JITTER as RFC 3550 computes it. -/
def strmFiled (s : State) (n idx octets ts arrival hz : Nat) : State :=
  let first := s.rd I.stCnt (8 * n + 1) == 0
  let s := strmCnt (strmCnt s n 1) n 2 octets
  let s := if first || decide (s.rd I.stCnt (8 * n + 3) < idx % 2 ^ 32) then s.wr I.stCnt (8 * n + 3) idx else s
  let s := if first then s.wr I.stCnt (8 * n + 4) idx else s
  let d : Int := diff32 arrival (s.rd I.stArr n) * hz / 1000000000 - diff32 ts (s.rd I.stTs n)
  let j := s.rd I.stJit n
  let j := if first then 0 else j + d.natAbs - (j + 8) / 16
  (((s.wr I.stJit n j).wr I.stCnt (8 * n + 5) (j / 16)).wr I.stArr n arrival).wr I.stTs n ts

/-- The RTP packet without its padding: length of the payload. -/
def rtpPayload (b : List Byte) : List Byte :=
  let p := b.drop (rtpHeader b)
  if bitOf (byteAt b 0) 5 then p.take (p.length - byteAt b (b.length - 1)) else p

/-- The jitter buffer takes a payload for an entry, then the entry's flags are set (R375). -/
def fileFor (s : State) (e0 e2 : Nat) (k : JbPacket) : Bool × State :=
  let r := jbFile s (jbHeader (bits e0 18 0)) k
  if r.1 && bitOf e0 25 then (true, setFlags r.2 (bits e2 15 0) (bits e2 31 16)) else r

/-- The words E1 and E3 a frame is judged by: its entry's, or, once that has been changed, those it was
classified under. -/
def judgeE1 (s : State) (f : RxFrame) : Nat := if f.old then f.e1 else s.rd I.clsE1 f.ent
def judgeE3 (s : State) (f : RxFrame) : Nat := if f.old then f.e3 else s.rd I.clsE3 f.ent

/-- The latched or expected SSRC refuses a packet (R373). -/
def ssrcBad (s : State) (f : RxFrame) (ssrc : Nat) : Bool :=
  match bits f.e0 28 27 with
  | 1 => bitOf (judgeE3 s f) 31 && judgeE1 s f != ssrc
  | 2 => judgeE1 s f != ssrc
  | _ => false

/-- The first good packet latches its SSRC (R373). -/
def latchSsrc (s : State) (f : RxFrame) (ssrc : Nat) : State :=
  if bits f.e0 28 27 = 1 && !f.old && !bitOf (s.rd I.clsE3 f.ent) 31 then
    (s.wr I.clsE1 f.ent ssrc).wr I.clsE3 f.ent (s.rd I.clsE3 f.ent + 2 ^ 31)
  else s

/-- A good RTP packet, in the clear, is filed (R375). -/
def fileRtp (s : State) (f : RxFrame) (idx : Nat) (b : List Byte) : State :=
  let n := bits f.e3 14 0
  let s := latchSsrc s f (beAt b 8 4)
  let pay := rtpPayload b
  let r := fileFor s f.e0 f.e2
    ⟨beAt b 2 2, bitOf (byteAt b 1) 7, byteAt b 1 % 128, beAt b 4 4, f.arrival, pay⟩
  if r.1 then strmFiled r.2 n idx pay.length (beAt b 4 4) f.arrival (clkHz f.e0) else r.2

/-- A packet whose SRTP operation is complete, or that needs none, in its turn (R373–R375). -/
def rtpProcess (s : State) (f : RxFrame) : State :=
  let n := bits f.e3 14 0
  let s := freeCells s f.cells
  if ssrcBad s f (beAt f.pkt 8 4) then pkeCnt s 4
  else
    let idx := rxIndex s n (beAt f.pkt 2 2)
    if !bitOf f.e0 26 then fileRtp (advanceStream s n idx) f idx f.pkt
    else if !(f.inst && !f.dir && decide (1 ≤ f.suite) && decide (f.suite ≤ 6)) then
      strmCnt (pkeCnt s 5) n 6
    else if isReplay s n idx then strmCnt (pkeCnt s 6) n 7
    else match Config.srtpOpen f.suite f.key f.salt idx f.pkt with
      | none => strmCnt (pkeCnt s 5) n 6
      | some b => fileRtp (advanceStream s n idx) f idx b

/-- Frames that are complete leave in order: each as soon as no earlier frame of its entry waits. -/
def rxSettle (s : State) (before : List RxFrame) : List RxFrame → State
  | [] => { s with rxFrames := before }
  | f :: r =>
    if f.done && !before.any (fun g => g.ent == f.ent) then rxSettle (rtpProcess s f) before r
    else rxSettle s (before ++ [f]) r

/-- The k-th frame in progress is complete. -/
def markDone (k : Nat) (l : List RxFrame) : List RxFrame :=
  l.zipIdx.map fun e => if e.2 = k then { e.1 with done := true } else e.1

/-- SRTP_DONE (R374, R375): the operation of the k-th frame in progress completes. -/
def execSrtpDone (k : Fin 512) (s : State) : Host.Outcome State Fault Refusal :=
  go (rxSettle s [] (markDone k.val s.rxFrames))

/-! ## Classified frames (R371, R372, R454) -/

/-- An RTP frame (R372–R375): checked, or given to the entry's queue as RTCP; it waits for SRTP, or is filed
at once. -/
def rtpFrame (s : State) (i : Nat) (f : Rcvd) (pkt : List Byte) : State :=
  let e0 := s.rd I.clsE0 i
  let n := bits (s.rd I.clsE3 i) 14 0
  let tag := if bitOf e0 26 then tagLen (s.rd I.stSuite n) else 0
  let pad := if bitOf (byteAt pkt 0) 5 && !bitOf e0 26 then byteAt pkt (pkt.length - 1) else 0
  if byteAt pkt 0 / 64 != 2 then pkeCnt (freeCells s f.cells) 3
  else if decide (192 ≤ byteAt pkt 1) && decide (byteAt pkt 1 ≤ 223) then rqDeliver s f (bits e0 22 19) 2
  else if pkt.length < 12 || pkt.length < rtpHeader pkt + pad + tag then pkeCnt (freeCells s f.cells) 3
  else
    let x : RxFrame := ⟨i, false, !bitOf e0 26, e0, s.rd I.clsE1 i, s.rd I.clsE2 i, s.rd I.clsE3 i, s.on I.stInst n,
      s.on I.stDir n, s.rd I.stSuite n, s.rd I.stKey n, s.rd I.stSalt n, f.tb0, f.cells, pkt⟩
    rxSettle s [] (s.rxFrames ++ [x])

/-- A UDPTL packet (R371): the first two octets are its sequence number. -/
def udptlFrame (s : State) (i : Nat) (f : Rcvd) (pkt : List Byte) : State :=
  let r := fileFor (freeCells s f.cells) (s.rd I.clsE0 i) (s.rd I.clsE2 i)
    ⟨beAt pkt 0 2, false, 0, 0, f.tb0, pkt.drop 2⟩
  if r.1 then
    let n := bits (s.rd I.clsE3 i) 14 0
    strmFiled r.2 n (beAt pkt 0 2) (pkt.length - 2) 0 f.tb0 (clkHz (s.rd I.clsE0 i))
  else r.2

/-- A frame for a FORWARD entry goes to CWY as PKTFWD, where it fits (R371, R447, R454). -/
def forwardFrame (s : State) (i : Nat) (f : Rcvd) : State :=
  let s := pkeCnt (freeCells s f.cells) 11
  let dev := bits (s.rd I.clsE3 i) 26 16
  let raw := beBytes 4 (s.rd I.clsKey i) ++ beBytes 4 f.port ++ beBytes 4 f.tb0 ++ [0, 0, 0, 0] ++ f.bytes
  let pay := padTo ((raw.length + 3) / 4 * 4) raw
  match cwRoute s dev with
  | some l => if cwRoom s l < pay.length then cwCnt s 8 else cwSend s 0 cwPKTFWD dev pay
  | none => cwSend s 0 cwPKTFWD dev pay

/-- Steps 5 and 6 of R366: a frame for local address `la`, UDP port `port`, with UDP payload `pkt`; `rq`
takes what no entry matches. -/
def classify (s : State) (f : Rcvd) (la port rq : Nat) (pkt : List Byte) : State :=
  match clsFind s (clsKeyOf la port) with
  | none => rqDeliver (pkeCnt s 0) f rq 0
  | some i =>
    match bits (s.rd I.clsE0 i) 30 29 with
    | 0 => rtpFrame s i f pkt
    | 1 => udptlFrame s i f pkt
    | 2 => rqDeliver s f (bits (s.rd I.clsE0 i) 22 19) 3
    | _ => forwardFrame s i f

/-! ## Parsing (R364, R366, R367) -/

/-- What a parsed frame is. -/
inductive Parsed where
  | tunnel                                     -- EtherType PKE_CWETYPE
  | ptp
  | udp (la port : Nat) (pkt : List Byte)      -- to the classifier
  | badIp
  | badUdp
  | other (reason : Nat)
  deriving DecidableEq, Repr

/-- The local address a frame is addressed to (R367). -/
def localAddr (s : State) (p vid : Nat) (v6 : Bool) (dst : List Byte) : Option Nat :=
  (List.range 16).find? fun i =>
    s.on F.PKE_LA_CFG_VALID i && s.on F.PKE_LA_CFG_V6 i == v6 && dst == laBytes s i v6 &&
      bitOf (s.rd F.PKE_LA_CFG_PORTMASK i) p && s.rd F.PKE_LA_CFG_VID i == vid

/-- The UDP part of a frame: at a given datagram, between given addresses. -/
def parseUdp (s : State) (p vid : Nat) (v6 : Bool) (src dst d : List Byte) : Parsed :=
  let n := beAt d 4 2
  let sum := beAt d 6 2
  if n < 8 || d.length < n then .badUdp
  else if (sum != 0 || v6) && fold16 (sum16 (pseudo src dst n ++ d.take n)) != 65535 then .badUdp
  else if beAt d 2 2 = 319 || beAt d 2 2 = 320 then .ptp
  else match localAddr s p vid v6 dst with
    | some la => .udp la (beAt d 2 2) ((d.take n).drop 8)
    | none => .other 4

/-- The IPv4 part. -/
def parseIp4 (s : State) (p vid : Nat) (b : List Byte) : Parsed :=
  let hl := byteAt b 0 % 16 * 4
  let n := beAt b 2 2
  if byteAt b 0 / 16 != 4 || hl < 20 || n < hl || b.length < n then .badIp
  else if fold16 (sum16 (b.take hl)) != 65535 then .badIp
  else if hl != 20 || beAt b 6 2 % 2 ^ 14 != 0 || byteAt b 9 != 17 then .other 4
  else parseUdp s p vid false ((b.drop 12).take 4) ((b.drop 16).take 4) ((b.take n).drop 20)

/-- The IPv6 part. -/
def parseIp6 (s : State) (p vid : Nat) (b : List Byte) : Parsed :=
  let n := beAt b 4 2
  if byteAt b 0 / 16 != 6 || b.length < 40 || b.length < 40 + n then .badIp
  else if byteAt b 6 != 17 then .other 4
  else parseUdp s p vid true ((b.drop 8).take 16) ((b.drop 24).take 16) ((b.drop 40).take n)

/-- Step 4 of R366, on a frame without FCS. -/
def parseFrame (s : State) (p : Nat) (b : List Byte) : Parsed :=
  let tagged := beAt b 12 2 = 0x8100
  let k := if tagged then 18 else 14
  let vid := if tagged then beAt b 14 2 % 4096 else 0
  let et := beAt b (k - 2) 2
  if et = 0x88A8 || (tagged && et = 0x8100) then .other 5
  else if s.on F.PKE_CWETYPE_ETYPE && et = s.rd F.PKE_CWETYPE_ETYPE then .tunnel
  else if et = 0x88F7 then .ptp
  else if et = 0x0800 then parseIp4 s p vid (b.drop k)
  else if et = 0x86DD then parseIp6 s p vid (b.drop k)
  else .other 4

/-- Does the MAC of port p accept a destination address (R366 step 1). -/
def macAccepts (s : State) (p : Nat) (dst : List Byte) : Bool :=
  dst == portMac s p || dst == List.replicate 6 0xFF || (byteAt dst 0 % 2 == 1 && s.on F.PKE_P_CFG_MCAST p)

/-- What becomes of a parsed frame that is not CWY's (R366 steps 4–6). -/
def actParsed (s : State) (f : Rcvd) : Parsed → State
  | .tunnel => freeCells s f.cells
  | .ptp => rqDeliver s f (s.rd F.PKE_P_CFG_PTPQ f.port) 1
  | .udp la port pkt => classify s f la port (s.rd F.PKE_P_CFG_RQ f.port) pkt
  | .badIp => pkeCnt (freeCells s f.cells) 1
  | .badUdp => pkeCnt (freeCells s f.cells) 2
  | .other r => rqDeliver s f (s.rd F.PKE_P_CFG_RQ f.port) r

/-- Steps 1–3 of R366 for a frame with its FCS: the frame in its cells, or the state after its drop. -/
def admitFrame (s : State) (p sub : Nat) (b : List Byte) (symErr backlog ecc : Bool) : State × Option Rcvd :=
  let body := b.take (b.length - 4)
  if symErr || b.length < 64 || maxFrm s p < b.length || b.drop (b.length - 4) != leBytes 4 (crc32 body) then
    (portCnt s p 2, none)
  else if beAt body 12 2 = 0x8808 then (portCnt s p 3, none)
  else if !macAccepts s p (body.take 6) then (s, none)
  else
    let s := portCnt (portCnt s p 0) p 1 b.length
    if backlog then (portCnt s p 4, none)
    else match takeCells s p ((body.length + 255) / 256) with
      | none => (portCnt s p 4, none)
      | some (cells, t) =>
        if ecc then (((pkeCnt (freeCells t cells) 10).set F.PKE_IRQSTAT_ECC 1).errEvent 8, none)
        else
          let st := rxStamp t p (t.rd F.PKE_P_TCFG_TSTB p) sub
          (storeCells t body cells, some ⟨p, st, rxStamp t p 0 sub / 256, cells, body⟩)

/-! ## The key store and the streams (R378, R379) -/

/-- Does an initiator hold private copies of KSSEL and STRMSEL. -/
def ksStream (s : State) (ini : Init) : Option Nat := (selCopy ini).map fun k => s.rd F.PKE_KSSEL_STRM k

/-- A number from key-store window bytes k … k + n − 1, the first byte highest. -/
def winBytes (s : State) (k n : Nat) : Nat :=
  ofBE ((List.range n).map fun j => BitVec.ofNat 8 (s.rd I.ksWin ((k + j) / 4) / 256 ^ ((k + j) % 4)))

/-- The counters of a stream are cleared. -/
def strmClear (s : State) (n : Nat) : State := s.over (List.range 8) fun s k => s.wr I.stCnt (8 * n + k) 0

/-- The SSRC latches of the entries that name a receive stream are cleared (R379). -/
def unlatch (s : State) (n : Nat) : State :=
  s.over ((s.nonzero I.clsV).filter fun i => bits (s.rd I.clsE3 i) 14 0 == n) fun s i =>
    s.wr I.clsE3 i (s.rd I.clsE3 i % 2 ^ 31)

/-- INSTALL (R378, R379): its result, and the state; the window is cleared when it completes. -/
def ksInstall (s : State) (n : Nat) (keep : Bool) : Nat × State :=
  let suite := bits (s.rd I.ksWin 0) 3 0
  if 7 ≤ suite then (4, s)
  else
    let s := if keep then s
      else unlatch ((((strmClear s n).wr I.stRoc n (s.rd I.ksWin 1)).wr I.stWin n 0).wr I.stSeqV n 0) n
    let s := ((s.wr I.stInst n 1).wr I.stSuite n suite).wr I.stDir n (bitN (s.rd I.ksWin 0) 31)
    let s := (s.wr I.stKey n (winBytes s 0x10 32)).wr I.stSalt n (winBytes s 0x30 14)
    (0, s.clearFld I.ksWin)

/-- CLEAR (R379). -/
def ksClear (s : State) (n : Nat) : State := ((s.wr I.stSuite n 0).wr I.stKey n 0).wr I.stSalt n 0

/-- A write of PKE_KS_CMD by an initiator with a KSSEL copy: KEEP and OP are stored (a reserved OP leaves
OP); GO runs OP. -/
def ksCmdWrite (s : State) (ini : Init) (v : Nat) : State :=
  let s := s.set F.PKE_KS_CMD_KEEP (bitN v 3)
  let s := if bits v 2 0 ≤ 2 then s.set F.PKE_KS_CMD_OP (bits v 2 0) else s
  if !bitOf v 31 then s
  else match ksStream s ini with
    | none => s
    | some n =>
      match s.rd F.PKE_KS_CMD_OP with
      | 0 =>
        let r := ksInstall s n (s.on F.PKE_KS_CMD_KEEP)
        r.2.set F.PKE_KS_CMD_RESULT r.1
      | 1 => (ksClear s n).set F.PKE_KS_CMD_RESULT 0
      | _ => (strmClear s n).set F.PKE_KS_CMD_RESULT 0

/-- KS_INSTALL (R379). -/
def execKsInstall (ini : Init) (keep : Bool) (s : State) : Host.Outcome State Fault Refusal :=
  if s.fabric then go (ksCmdWrite s ini (0x80000000 + 8 * b2n keep)) else go s

/-- KS_CLEAR (R379). -/
def execKsClear (ini : Init) (s : State) : Host.Outcome State Fault Refusal :=
  if s.fabric then go (ksCmdWrite s ini (0x80000001 + 8 * s.rd F.PKE_KS_CMD_KEEP)) else go s

/-- KS_CLRCNT (R379). -/
def execKsClrcnt (ini : Init) (s : State) : Host.Outcome State Fault Refusal :=
  if s.fabric then go (ksCmdWrite s ini (0x80000002 + 8 * s.rd F.PKE_KS_CMD_KEEP)) else go s

/-- Word k of a stream (R379). -/
def strmWord (s : State) (n k : Nat) : Nat :=
  if k = 0 then s.rd I.stInst n * 2 ^ 31 + s.rd I.stDir n * 2 ^ 30 + s.rd I.stSuite n else s.rd I.stCnt (8 * n + k)

/-- A write of PKE_STRMSEL: the words of the stream are latched for the writer. -/
def strmselWrite (s : State) (ini : Init) (v : Nat) : State :=
  match selCopy ini with
  | none => s
  | some c =>
    let n := v % 32768
    (s.wr F.PKE_STRMSEL_STRM c n).over (List.range 8) fun t k => t.wr I.strmBuf (8 * c + k) (strmWord s n k)

/-- STRMSEL_WRITE (R379). -/
def execStrmselWrite (ini : Init) (v : Word) (s : State) : Host.Outcome State Fault Refusal :=
  if s.fabric then go (strmselWrite s ini v.toNat) else go s

/-! ## Ports and cells -/

/-- Does a mode offer an FEC choice (R363). -/
def fecOffered (mode fec : Nat) : Bool :=
  match mode with
  | 3 => decide (fec ≤ 1)
  | 4 => decide (fec ≤ 2)
  | _ => fec == 0

/-- A write of PKE_P_CFG of port p: a rising edge of EN applies MODE, FEC and AN; a clear takes the port
down (R363, R365). -/
def portCfgWrite (s : State) (p v : Nat) : State :=
  let was := s.on F.PKE_P_CFG_EN p
  let s := if bits v 30 28 ≤ 4 then s.wr F.PKE_P_CFG_MODE p (bits v 30 28) else s
  let s := if bits v 27 26 ≤ 2 then s.wr F.PKE_P_CFG_FEC p (bits v 27 26) else s
  let s := (((s.wr F.PKE_P_CFG_EN p (bitN v 31)).wr F.PKE_P_CFG_AN p (bitN v 25)).wr F.PKE_P_CFG_MCAST p
    (bitN v 24)).wr F.PKE_P_CFG_RQ p (bits v 23 20)
  let s := (s.wr F.PKE_P_CFG_PTPQ p (bits v 19 16)).wr F.PKE_P_CFG_MAXFRM p (bits v 11 0)
  if bitOf v 31 && !was then
    let s := ((s.wr I.pMode p (s.rd F.PKE_P_CFG_MODE p)).wr I.pFec p (s.rd F.PKE_P_CFG_FEC p)).wr I.pAn p
      (s.rd F.PKE_P_CFG_AN p)
    s.wr F.PKE_P_STAT_CFGERR p (b2n (!fecOffered (s.rd I.pMode p) (s.rd I.pFec p)))
  else if !bitOf v 31 && was then endQueued (portDown s p) p
  else s

/-- The port an initiator has selected. -/
def selPort (s : State) (ini : Init) : Option Nat := selIx s ini F.PKE_SELECT_INDEX 8

/-- PORT_ENABLE (R365): a write of PKE_P_CFG with EN = 1 to the selected port. -/
def execPortEnable (ini : Init) (v : Word) (s : State) : Host.Outcome State Fault Refusal :=
  match selPort s ini with
  | some p => if s.fabric then go (portCfgWrite s p (setBit v.toNat 31)) else go s
  | none => go s

/-- PORT_DISABLE (R365): a write of PKE_P_CFG with EN = 0 to the selected port. -/
def execPortDisable (ini : Init) (v : Word) (s : State) : Host.Outcome State Fault Refusal :=
  match selPort s ini with
  | some p => if s.fabric then go (portCfgWrite s p (clrBit v.toNat 31)) else go s
  | none => go s

/-- The link of a port comes up (R363, R365, R403). -/
def portUp (s : State) (p : Nat) : State :=
  if s.serving && s.on F.PKE_P_CFG_EN p && !s.on F.PKE_P_STAT_CFGERR p && decide (1 ≤ s.rd I.pMode p) &&
      !s.on F.PKE_P_STAT_UP p then
    let s := ((s.wr F.PKE_P_STAT_UP p 1).wr F.PKE_P_STAT_ANDONE p (s.rd I.pAn p)).wr F.PKE_P_STAT_FECACT p (s.rd I.pFec p)
    loadLatency ((s.wr F.PKE_P_STAT_LINKCHG p 1).set F.PKE_IRQSTAT_LINK 1) p (s.rd I.pMode p) (s.rd I.pFec p)
  else s

/-- PORT_LINK_CHANGE (R403). -/
def execPortLinkChange (p : Fin 8) (up : Bool) (s : State) : Host.Outcome State Fault Refusal :=
  if up then go (portUp s p.val) else go (portDown s p.val)

/-- CELLRET (R267, R376): a write of PKE_CELLRET. -/
def execCellret (_ini : Init) (v : Word) (s : State) : Host.Outcome State Fault Refusal :=
  if s.fabric then go (freeCell s (v.toNat % 2 ^ 18)) else go s

/-- A write of PKE_CELLCFG of consumer c (R390). -/
def cellcfgWrite (s : State) (c v : Nat) : State :=
  let total := overConsumers (fun d => if d = c then bits v 31 16 else cellG s d)
  if cellCount s < total then s.set F.PKE_IRQSTAT_CELLERR 1
  else (s.wr F.PKE_CELLCFG_G c (bits v 31 16)).wr F.PKE_CELLCFG_F c (bits v 4 0)

/-- CELLCFG_WRITE (R390). -/
def execCellcfgWrite (_ini : Init) (c : Fin 25) (v : Word) (s : State) : Host.Outcome State Fault Refusal :=
  if s.fabric then go (cellcfgWrite s c.val v.toNat) else go s

/-- A write of PKE_CELLBASE or PKE_CELLCNT (R389): only while RUN = 0. -/
def cellRegionWrite (s : State) (cnt : Bool) (v : Nat) : State :=
  if s.on F.PKE_CTRL_RUN then s
  else if cnt then s.set F.PKE_CELLCNT_CNT (bits v 17 0) else s.set F.PKE_CELLBASE_BASE (bits v 24 8)

/-- CELL_REGION_WRITE (R389). -/
def execCellRegionWrite (_ini : Init) (cnt : Bool) (v : Word) (s : State) : Host.Outcome State Fault Refusal :=
  if s.fabric then go (cellRegionWrite s cnt v.toNat) else go s

end Sys2Proof.Machine
end

