-- ==== Sys2Proof/Machine/ModeChange.lean ====
section
/-! DEFINITION.  The transitions among the modes (R41–R44, R58–R59, R64, R68–R70, R529–R530): supervisor
requests, WATCH and its wake events, VDDNW, and the Nightwatch counter with its alarm. -/

namespace Sys2Proof.Machine

/-- Entry to BOOT from WATCH or FENCED (R59, R530): every register and table but those kept takes its
reset value; CPG keeps its contexts as R59 gives; the steps of R74 start with the fuse load. -/
def enterBoot (s : State) (cause : Nat) : State :=
  let watch := s.mode == mWATCH
  let fromDrain := watch && !s.on I.watchFromReset
  let keepCtx := fromDrain && s.on F.PMU_CSTWATCH_RET
  let s := cpgBeforeBoot s keepCtx fromDrain
  let s := if watch && !fromDrain then s.loseAll keptByReset
    else s.loseAll fun id => keptByBoot id || (keepCtx && cpgContextCell id) || (fromDrain && id == I.dmcSelfRef.id)
  let s := ((s.set F.PMU_MODE_CURRENT mBOOT).set F.PMU_MODE_CAUSE cause).set I.bootPh 1
  let s := (((s.set I.watchEntry 0).set I.wakePend 0).set I.watchFromReset 0).set F.PMU_IRQSTAT_MODEDONE 1
  let s := (List.range 8).foldl (fun s k => if s.rd I.pinPen k = 0 then s.wr I.pinPen k 1 else s) s
  perstSeen s

/-- Entry to WATCH from DRAIN (R58, R59, R64, R68, R250): clusters go to PWROFF, banks without their
PMU_CSTWATCH bit lose their contents, the memories not powered lose theirs, DRAM enters self-refresh,
HMN keeps its registers. -/
def enterWatch (s : State) (cause : Nat) : State :=
  let s := cpgAtWatch s
  let s := ((s.set F.PMU_MODE_CURRENT mWATCH).set F.PMU_MODE_CAUSE cause).set F.PMU_IRQSTAT_MODEDONE 1
  let s := fenceInterfaces s
  ((s.set I.watchFromReset 0).set I.watchEntry 8).set I.bootPh 0

/-- A wake event in WATCH (R70): kept while the entry is in progress, else BOOT is entered. -/
def wakeNow (s : State) (sources : Nat) : State :=
  let hit := Nat.land sources (s.rd F.PMU_WAKE_WEN)
  if s.mode == mWATCH && hit != 0 then
    let s := s.set F.PMU_WAKE_WSTAT (Nat.lor (s.rd F.PMU_WAKE_WSTAT) hit)
    if s.on I.watchEntry || s.rd I.bootPh == 1 then s.set I.wakePend 1 else enterBoot s 3
  else s

/-- WAKE_EVENT (R68, R70, R94): `sources` bit 0 is PCIe (PERST_N rising or in-band), 1 GPIO, 2 HMN,
3 the alarm. -/
def execWakeEvent (sources : BitVec 4) (s : State) : Host.Outcome State Fault Refusal :=
  let s := if bitOf sources.toNat 0 then s.set I.pinPerst 1 else s
  go (wakeNow s sources.toNat)

/-- WATCH_PEN_OFF_STEP (R64, R70): the next valid WATCHOFF step, in reverse order, has its PEN
deasserted; when none is left the entry is complete and a kept wake acts. -/
def execWatchPenOffStep (s : State) : Host.Outcome State Fault Refusal :=
  if s.mode == mWATCH && s.on I.watchEntry then
    let k := s.rd I.watchEntry
    match (List.range 8).reverse.find? fun j =>
        decide (j < k) && s.on F.PMU_SEQSTEP_VALID j && s.on F.PMU_SEQSTEP_WATCHOFF j with
    | some j => go ((s.wr I.pinPen (s.rd F.PMU_SEQSTEP_PEN j) 1).set I.watchEntry j)
    | none =>
      let s := s.set I.watchEntry 0
      if s.on I.wakePend then go (enterBoot s 3) else go s
  else go s

/-- Is a supervisor request from one mode to another allowed (R68, R69, R79). -/
def requestAllowed (s : State) (target : Nat) : Bool :=
  let m := s.mode
  (m == mBOOT && target == mSERVICE && s.on F.SYS_BOOTSTAT_AUTH) ||
    (m == mSERVICE && target == mDRAIN) || (m == mDRAIN && target == mSERVICE) ||
    (m == mDRAIN && target == mWATCH && !liveChannel s) ||
    (m == mFENCED && target == mBOOT) || (m != mRESET && target == mFENCED)

/-- The transition of an accepted request. -/
def takeRequest (s : State) (target : Nat) : State :=
  if target = mWATCH then enterWatch s 4
  else if target = mBOOT then enterBoot s 4
  else if target = mFENCED then enterFenced s 4
  else ((s.set F.PMU_MODE_CURRENT target).set F.PMU_MODE_CAUSE 4).set F.PMU_IRQSTAT_MODEDONE 1

/-- A write of PMU_MODE: TARGET is stored (a reserved code leaves it, R8); GO makes the request
(R69). -/
def pmuModeWrite (s : State) (v : Nat) : State :=
  let t := bits v 18 16
  let s := if t ≤ 5 then s.set F.PMU_MODE_TARGET t else s
  if bitOf v 31 then
    let target := s.rd F.PMU_MODE_TARGET
    if requestAllowed s target then takeRequest (s.set F.PMU_MODE_REFUSED 0) target
    else (s.set F.PMU_MODE_REFUSED 1).set F.PMU_IRQSTAT_MODEREFUSED 1
  else s

/-- MODE_REQUEST (R68–R70). -/
def execModeRequest (_ini : Init) (v : Word) (s : State) : Host.Outcome State Fault Refusal :=
  if s.fabric then go (pmuModeWrite s v.toNat) else go s

/-- VDDNW_LOW (R68, R530): RESET, with the contents of every memory lost. -/
def execVddnwLow (s : State) : Host.Outcome State Fault Refusal :=
  go { enterReset s 2 with mem := [] }

/-- One NWCLK edge: the 48-bit counter advances, and the alarm compares (R44, R529). -/
def nwEdge (s : State) : State :=
  if s.on I.nwStarted then
    let c := (s.rd I.nwCnt + 1) % 2 ^ 48
    let s := s.set I.nwCnt c
    if s.on F.PMU_NWALM_HI_EN && c == s.rd F.PMU_NWALM_HI_TGT * 2 ^ 32 + s.rd F.PMU_NWALM_LO_TGT then
      wakeNow (s.set F.PMU_IRQSTAT_NWALARM 1) 8
    else s
  else s

/-- NWALARM (R529): an NWCLK edge; the alarm is raised where the counter advances to the target. -/
def execNwalarm (s : State) : Host.Outcome State Fault Refusal := go (nwEdge s)

/-- A read of PMU_NWCNT_LO: bits [31:0], latching bits [47:32] into PMU_NWCNT_HI (R44). -/
def nwcntLoRead (s : State) : Nat × State :=
  let c := s.rd I.nwCnt
  (c % 2 ^ 32, (s.set F.PMU_NWCNT_HI_CNT (c / 2 ^ 32)).set F.PMU_NWCNT_LO_CNT c)

/-- NWCNT_LO_READ (R44). -/
def execNwcntLoRead (ini : Init) (s : State) : Host.Outcome State Fault Refusal :=
  if s.fabric then
    let r := nwcntLoRead s
    go (r.2.seen (initCode ini) r.1)
  else go s

end Sys2Proof.Machine
end

