-- ==== Sys2Proof/Machine/Hmn.lean ====
section
/-! DEFINITION.  The health monitor: slices and their inputs, synchronising resets, the flags of an output,
thresholds and comparators, exciters and demodulation (R471–R491).  What the analog chain measures is the
operand of an output command; time is counted in modulator samples, which the model's tick advances. -/

namespace Sys2Proof.Machine

/-! ## Parameters of a slice (R476, R480, R482) -/

/-- NHB, L and D as they behave. -/
def hmNhb (s : State) (k : Nat) : Nat := min 8 (s.rd F.HMN_SLC_CFG_NHB k)
def hmLen (s : State) (k : Nat) : Nat := max 1 (min 4096 (s.rd F.HMN_SLC_CFG_MALEN k))
def hmDelay (s : State) (k : Nat) : Nat := s.rd F.HMN_SLC_CFG_PHASE k

/-- The decimation of the fine path after the sinc stage. -/
def hmDecim (s : State) (k : Nat) : Nat := if s.on F.HMN_SLC_CFG_FMODE k then hmLen s k else 2 ^ hmNhb s k

/-- The first valid output of n half-band stages whose first valid input is v, in inputs of the first. -/
def halfBands : Nat → Nat → Nat
  | 0, v => v
  | n + 1, v => 2 * halfBands n ((v + 23) / 2)

/-- F: modulator samples from a reset to the first valid fine output (R482). -/
def hmFill (s : State) (k : Nat) : Nat :=
  hmDelay s k + (if s.on F.HMN_SLC_CFG_FMODE k then (if hmLen s k = 1 then 48 else 32 * hmLen s k)
    else 16 * halfBands (hmNhb s k) 3)

/-- ⌈G⌉ (R480). -/
def hmGroupDelay (s : State) (k : Nat) : Nat :=
  hmDelay s k + 23 + (if s.on F.HMN_SLC_CFG_FMODE k then 8 * (hmLen s k - 1) else 176 * (2 ^ hmNhb s k - 1))

/-- The settle count of a fine output (R488). -/
def hmSettle (s : State) (k : Nat) : Nat := hmGroupDelay s k + 16 * hmDecim s k

/-- CHOPRIP of a slice's fine outputs (R477). -/
def hmChopRip (s : State) (k : Nat) : Bool :=
  if s.on F.HMN_SLC_CFG_FMODE k then hmLen s k % 2 == 1 else hmNhb s k == 0

/-- The input of slice k that is converted. -/
def hmInput (s : State) (k : Nat) : Nat := 4 * k + s.rd I.hmCur k

/-- FILLING (R482). -/
def hmFilling (s : State) (k : Nat) : Bool := decide (s.rd I.hmNow < s.rd I.hmRst k + hmFill s k)

/-! ## Synchronising resets and excitation changes (R481, R488) -/

/-- An excitation change of exciter e. -/
def hmChange (s : State) (e : Nat) : State := s.wr I.hmChg e (s.rd I.hmNow + 1)

/-- A synchronising reset of the masked slices. -/
def hmSync (s : State) (mask : Nat) : State :=
  let s := s.over ((List.range 4).filter fun k => bitOf mask k) fun s k =>
    (((s.wr I.hmRst k (s.rd I.hmNow)).wr I.hmWin k (s.rd I.hmNow)).wr I.hmBnd k 0).wr I.hmDwell k 0
  if s.on F.HMN_CTRL_DDSSYNC && mask % 16 != 0 then
    s.over [0, 1] fun s e => hmChange (s.wr I.hmDds e 0) e
  else s

/-- The rate of the chain: 0 stopped, 1 4.096 MHz, 2 512 kHz (R474, R490). -/
def hmRate (s : State) : Nat :=
  if !s.on F.HMN_CTRL_EN || s.mode == mRESET then 0 else if s.mode == mWATCH then 2 else 1

/-- Does exciter e run (R486). -/
def hmExcites (s : State) (e : Nat) : Bool :=
  s.on F.HMN_CTRL_EN && s.on F.HMN_EXC_CFG_EN e && (s.mode == mBOOT || s.serving)

/-- HMN follows a change of mode: a new modulator rate resets every slice and restarts every run; an exciter
that starts or stops is an excitation change (R474, R486, R491). -/
def hmnModes (s : State) : State :=
  let r := hmRate s
  let s :=
    if r = s.rd I.hmMode then s
    else if r != 0 && s.on I.hmMode then
      (List.range 16).foldl (fun s n => (s.wr I.hmRunHi n 0).wr I.hmRunLo n 0) (hmSync (s.set I.hmMode r) 15)
    else s.set I.hmMode r
  s.over [0, 1] fun s e =>
    if hmExcites s e == s.on I.hmExc e then s
    else
      let s := s.wr I.hmExc e (b2n (hmExcites s e))
      if s.on F.HMN_EXC_CFG_EN e then hmChange s e else s

/-- One modulator sample passes. -/
def hmSample (s : State) : State :=
  let s := s.set I.hmNow (s.rd I.hmNow + 1)
  s.over [0, 1] fun s e => if s.on I.hmExc e then s.wr I.hmDds e (s.rd I.hmDds e + s.rd F.HMN_EXC_FTW_FTW e) else s

/-- 2 ns of the chain: 1,024 / 125,000 of a sample at 4.096 MHz, 128 / 125,000 at 512 kHz. -/
def hmnTick (s : State) : State :=
  let s := hmnModes s
  match s.rd I.hmMode with
  | 0 => s
  | r =>
    let ph := s.rd I.hmPh + (if r = 2 then 128 else 1024)
    if 125000 ≤ ph then hmSample (s.set I.hmPh (ph - 125000)) else s.set I.hmPh ph

/-- HMN_SYNC (R481). -/
def execHmnSync (_ini : Init) (v : Word) (s : State) : Host.Outcome State Fault Refusal :=
  if s.fabric then go (hmSync (hmnModes s) (v.toNat % 16)) else go s

/-- A write of HMN_SLC_CFGk: a synchronising reset of the slice. -/
def slcCfgWrite (s : State) (k v : Nat) : State :=
  let s := (s.wr F.HMN_SLC_CFG_FMODE k (bitN v 31)).wr F.HMN_SLC_CFG_NHB k (bits v 30 27)
  hmSync ((s.wr F.HMN_SLC_CFG_MALEN k (bits v 25 13)).wr F.HMN_SLC_CFG_PHASE k (bits v 9 0)) (2 ^ k)

/-- SLC_CFG_WRITE (R481). -/
def execSlcCfgWrite (_ini : Init) (k : Fin 4) (v : Word) (s : State) : Host.Outcome State Fault Refusal :=
  if s.fabric then go (slcCfgWrite (hmnModes s) k.val v.toNat) else go s

/-! ## Inputs (R471, R472, R491) -/

/-- A switch of slice k to one of its inputs begins: the demodulation window ends without a result. -/
def switchStart (s : State) (k input : Nat) : State :=
  if s.on I.hmSw k then s.wr I.hmNext k (input + 1)
  else (s.wr I.hmSw k (input + 1)).wr I.hmWin k (s.rd I.hmNow)

/-- Does a slice scan. -/
def hmScans (s : State) (k : Nat) : Bool := s.on F.HMN_SLC_MUX_SCAN k && s.on F.HMN_SLC_MUX_INMASK k

/-- The input after `cur` in the mask, in ascending order, repeating. -/
def scanNext (mask cur : Nat) : Nat :=
  (((List.range 4).map fun d => (cur + 1 + d) % 4).find? fun j => bitOf mask j).getD cur

/-- A write of HMN_SLC_MUXk: it selects CUR, or with SCAN = 1 the first scanned input. -/
def muxWrite (s : State) (k v : Nat) : State :=
  let s := (s.wr F.HMN_SLC_MUX_SCAN k (bitN v 31)).wr F.HMN_SLC_MUX_INMASK k (bits v 27 24)
  let s := (s.wr F.HMN_SLC_MUX_DISCH k (bits v 21 16)).wr F.HMN_SLC_MUX_DWELL k (bits v 15 8)
  if hmScans s k then switchStart s k (scanNext (s.rd F.HMN_SLC_MUX_INMASK k) 3)
  else switchStart (s.wr F.HMN_SLC_MUX_CUR k (bits v 1 0)) k (bits v 1 0)

/-- A scan step, once DWELL fine outputs have come after the fill count. -/
def scanStep (s : State) (k : Nat) : State :=
  if hmScans s k && !s.on I.hmSw k && decide (max 1 (s.rd F.HMN_SLC_MUX_DWELL k) ≤ s.rd I.hmDwell k) then
    switchStart s k (scanNext (s.rd F.HMN_SLC_MUX_INMASK k) (s.rd I.hmCur k))
  else s

/-- INPUT_SWITCH (R472): a write of HMN_SLC_MUXk, or a scan step. -/
def execInputSwitch (_ini : Init) (k : Fin 4) (scan : Bool) (v : Word) (s : State) : Host.Outcome State Fault Refusal :=
  let s' := hmnModes s
  if scan then (if s'.on I.hmMode then go (scanStep s' k.val) else go s)
  else if s.fabric then go (muxWrite s' k.val v.toNat)
  else go s

/-- The make of a switch (R472): the new input with its gain, a synchronising reset, and a further switch
where one was selected meanwhile. -/
def inputMake (s : State) (k : Nat) : State :=
  if !s.on I.hmSw k then s
  else
    let j := s.rd I.hmSw k - 1
    let s := ((s.wr I.hmCur k j).wr F.HMN_SLC_MUX_CUR k j).wr I.hmSw k 0
    let s := hmSync (s.wr I.hmG k (s.rd F.HMN_SNS_CFG_GAIN (4 * k + j))) (2 ^ k)
    if s.on I.hmNext k then switchStart (s.wr I.hmNext k 0) k (s.rd I.hmNext k - 1) else s

/-- INPUT_MAKE (R472). -/
def execInputMake (k : Fin 4) (s : State) : Host.Outcome State Fault Refusal :=
  let s' := hmnModes s
  if s'.on I.hmMode then go (inputMake s' k.val) else go s

/-! ## Gain (R489) -/

/-- A write of HMN_SNS_CFG for input n. -/
def snsCfgWrite (s : State) (n v : Nat) : State :=
  let s := (s.wr F.HMN_SNS_CFG_EXCSENSE n (bitN v 27)).wr F.HMN_SNS_CFG_GAIN n (bits v 26 24)
  let k := n / 4
  if hmInput s k != n || s.on I.hmSw k || bits v 26 24 == s.rd I.hmG k then s
  else
    let since := s.rd I.hmNow - s.rd I.hmRst k
    let pending := decide (s.rd I.hmNow < s.rd I.hmBnd k - 1)
    let s := if pending then s else s.wr I.hmOldG k (s.rd I.hmG k)
    (s.wr I.hmG k (bits v 26 24)).wr I.hmBnd k (s.rd I.hmRst k + (since / 16 + 1) * 16 + 1)

/-- GAIN_WRITE (R489): the input that the initiator has selected. -/
def execGainWrite (ini : Init) (v : Word) (s : State) : Host.Outcome State Fault Refusal :=
  if !s.fabric then go s
  else match selIx s ini F.HMN_SELECT_INDEX 16 with
    | some n => go (snsCfgWrite (hmnModes s) n v.toNat)
    | none => go s

/-- The gain an output carries, and whether its span crosses a gain change; `from'` is where the span's
window began, for a demodulator. -/
def hmGain (s : State) (k : Nat) : Nat :=
  if s.on I.hmBnd k && decide (s.rd I.hmNow ≤ s.rd I.hmBnd k - 1 + hmDelay s k) then s.rd I.hmOldG k else s.rd I.hmG k
def hmRangex (s : State) (k : Nat) : Bool :=
  s.on I.hmBnd k && decide (s.rd I.hmBnd k - 1 < s.rd I.hmNow) && decide (s.rd I.hmNow ≤ s.rd I.hmBnd k - 1 + hmFill s k)
def hmRangexWin (s : State) (k : Nat) : Bool :=
  s.on I.hmBnd k && decide (s.rd I.hmWin k < s.rd I.hmBnd k - 1) && decide (s.rd I.hmBnd k - 1 < s.rd I.hmNow)

/-! ## Excitation (R486, R488) -/

/-- A write of HMN_EXC_FTWe or HMN_EXC_CFGe. -/
def excWrite (s : State) (e : Nat) (cfg : Bool) (v : Nat) : State :=
  let s := if cfg then (s.wr F.HMN_EXC_CFG_EN e (bitN v 31)).wr F.HMN_EXC_CFG_AMP e (bits v 7 0)
    else s.wr F.HMN_EXC_FTW_FTW e (max 10486 (min 209715200 v))
  hmChange (s.wr I.hmExc e (b2n (hmExcites s e))) e

/-- EXCITATION_CHANGE (R488). -/
def execExcitationChange (_ini : Init) (e : Fin 2) (cfg : Bool) (v : Word) (s : State) :
    Host.Outcome State Fault Refusal :=
  if s.fabric then go (excWrite (hmnModes s) e.val cfg v.toNat) else go s

/-- Exciters whose changes unsettle the fine outputs of slice k: the one it demodulates against; both for an
input with EXCSENSE. -/
def fineExciters (s : State) (k : Nat) : List Nat :=
  if s.on F.HMN_SNS_CFG_EXCSENSE (hmInput s k) then [0, 1]
  else if s.on F.HMN_SLC_DEM_DEMEN k then [s.rd F.HMN_SLC_DEM_DEMSRC k] else []

/-- UNSETTLED of a fine output, and of a demodulator result whose window began at hmWin. -/
def hmUnsettled (s : State) (k : Nat) : Bool :=
  (fineExciters s k).any fun e => s.on I.hmChg e && decide (s.rd I.hmNow < s.rd I.hmChg e - 1 + hmSettle s k)
def demUnsettled (s : State) (k : Nat) : Bool :=
  let e := s.rd F.HMN_SLC_DEM_DEMSRC k
  s.on I.hmChg e && decide (s.rd I.hmWin k < s.rd I.hmChg e - 1 + hmDelay s k + 2)

/-! ## Words, thresholds and actions (R479, R483–R485) -/

/-- The word of an output (R479). -/
def hmWord (valid unsettled rangex chop : Bool) (gain data : Nat) : Nat :=
  b2n valid * 2 ^ 31 + b2n unsettled * 2 ^ 30 + b2n rangex * 2 ^ 29 + b2n chop * 2 ^ 28 + gain * 2 ^ 25 + data % 2 ^ 24

/-- Conditions that throttle (R484): asserted thresholds and comparators with action THROTTLE. -/
def hmThrottles (s : State) : Bool :=
  ((List.range 16).any fun n =>
    (s.on F.HMN_SNS_STAT_HIACT n && s.rd F.HMN_SNS_THRCFG_ACTHI n == 2) ||
    (s.on F.HMN_SNS_STAT_LOACT n && s.rd F.HMN_SNS_THRCFG_ACTLO n == 2)) ||
  (List.range 4).any fun k =>
    (s.on F.HMN_SLC_STAT_OVER k && s.rd F.HMN_SLC_CCFG_OVACT k == 2) ||
    (s.on F.HMN_SLC_STAT_UNDER k && s.rd F.HMN_SLC_CCFG_UNACT k == 2)

/-- The throttle request of HMN follows those conditions. -/
def hmThrottle (s : State) : State :=
  if bitOf (s.rd I.throtSrc) 2 == hmThrottles s then s else setThrottle s 2 (hmThrottles s)

/-- An action is taken (R484); `flag` is IRQSTAT.THR or COARSE. -/
def hmAct (s : State) (act : Nat) (flag : Fld) : State :=
  if act = 0 then s
  else
    let s := hmThrottle (s.set flag 1)
    let s := if act = 3 then fatalError s 6 else s
    if s.mode == mWATCH then wakeNow s 4 else s

/-- The run of one threshold (R483): the state after an output whose condition toward the other state is
`toward`. -/
def thrStep (s : State) (n : Nat) (run act evt : Fld) (toward : Bool) (action : Nat) : State :=
  if !toward then s.wr run n 0
  else if s.rd run n + 1 < max 1 (s.rd F.HMN_SNS_THRCFG_PERSIST n) then s.wr run n (s.rd run n + 1)
  else
    let s := s.wr run n 0
    if s.on act n then hmThrottle (s.wr act n 0)
    else hmAct ((s.wr act n 1).wr evt n 1) action F.HMN_IRQSTAT_THR

/-- A counted output of input n is compared with both thresholds (R483). -/
def compareOutput (s : State) (n : Nat) (v : Int) : State :=
  let hyst : Int := (s.rd F.HMN_SNS_THRCFG_HYST n * 256 : Nat)
  let hi := signedOf 32 (s.rd F.HMN_SNS_THRHI_THR n)
  let lo := signedOf 32 (s.rd F.HMN_SNS_THRLO_THR n)
  let s := thrStep s n I.hmRunHi F.HMN_SNS_STAT_HIACT F.HMN_SNS_STAT_HIEVT
    (if s.on F.HMN_SNS_STAT_HIACT n then decide (v < hi - hyst) else decide (hi ≤ v)) (s.rd F.HMN_SNS_THRCFG_ACTHI n)
  thrStep s n I.hmRunLo F.HMN_SNS_STAT_LOACT F.HMN_SNS_STAT_LOEVT
    (if s.on F.HMN_SNS_STAT_LOACT n then decide (lo + hyst < v) else decide (v ≤ lo)) (s.rd F.HMN_SNS_THRCFG_ACTLO n)

/-- A write to a threshold register of input n restarts both runs (R483). -/
def thrRestart (s : State) (n : Nat) : State := hmThrottle ((s.wr I.hmRunHi n 0).wr I.hmRunLo n 0)

/-- A fine output of slice k with measured value `data` (R479, R482, R483). -/
def fineOutput (s : State) (k data : Nat) : State :=
  if s.on I.hmSw k then s
  else
    let n := hmInput s k
    let valid := !hmFilling s k
    let w := hmWord valid (hmUnsettled s k) (hmRangex s k) (hmChopRip s k) (hmGain s k) (if valid then data else 0)
    let s := s.wr F.HMN_SNS_DATA_WORD n w
    let s := if valid && s.rd I.hmDwell k < 255 then s.wr I.hmDwell k (s.rd I.hmDwell k + 1) else s
    if valid && !hmUnsettled s k && !hmRangex s k && !hmChopRip s k then
      compareOutput s n (signedOf 24 data * (2 ^ (7 - hmGain s k) : Nat))
    else s

/-- FINE_OUTPUT (R483). -/
def execFineOutput (k : Fin 4) (data : BitVec 24) (s : State) : Host.Outcome State Fault Refusal :=
  let s' := hmnModes s
  if s'.on I.hmMode then go (fineOutput s' k.val data.toNat) else go s

/-- Do the comparators of slice k act (R485): not for 46 samples after a gain change or a reset. -/
def coarseActs (s : State) (k : Nat) : Bool :=
  decide (s.rd I.hmRst k + 46 ≤ s.rd I.hmNow) &&
    (!s.on I.hmBnd k || decide (s.rd I.hmNow < s.rd I.hmBnd k - 1) || decide (s.rd I.hmBnd k - 1 + 46 ≤ s.rd I.hmNow))

/-- A coarse sample of slice k (R475, R485). -/
def coarseSample (s : State) (k code : Nat) : State :=
  let valid := decide (s.rd I.hmRst k + hmDelay s k + 48 ≤ s.rd I.hmNow)
  let s := (s.wr F.HMN_SLC_CDATA_CODE k code).wr F.HMN_SLC_CDATA_VALID k (b2n valid)
  let v := signedOf 16 code
  let above := s.on F.HMN_SLC_CCFG_OVEN k && decide (signedOf 16 (s.rd F.HMN_SLC_COARSE_COVER k) ≤ v)
  let below := s.on F.HMN_SLC_CCFG_UNEN k && decide (v ≤ signedOf 16 (s.rd F.HMN_SLC_COARSE_CUNDER k))
  if !coarseActs s k then s
  else
    let s := hmThrottle ((s.wr F.HMN_SLC_STAT_OVER k (b2n above)).wr F.HMN_SLC_STAT_UNDER k (b2n below))
    let s := if above then hmAct (s.wr F.HMN_SLC_STAT_OVEVT k 1) (s.rd F.HMN_SLC_CCFG_OVACT k) F.HMN_IRQSTAT_COARSE else s
    if below then hmAct (s.wr F.HMN_SLC_STAT_UNEVT k 1) (s.rd F.HMN_SLC_CCFG_UNACT k) F.HMN_IRQSTAT_COARSE else s

/-- COARSE_COMPARE (R485): the coarse path does not run in WATCH. -/
def execCoarseCompare (k : Fin 4) (code : BitVec 16) (s : State) : Host.Outcome State Fault Refusal :=
  let s' := hmnModes s
  if s'.rd I.hmMode = 1 && !s'.on I.hmSw k.val then go (coarseSample s' k.val code.toNat) else go s

/-! ## Demodulation (R487) -/

/-- Does a slice demodulate. -/
def hmDemods (s : State) (k : Nat) : Bool :=
  s.on F.HMN_SLC_DEM_DEMEN k && !s.on F.HMN_SLC_MUX_SCAN k && !s.on I.hmSw k

/-- Is the exciter's frequency within 2 kHz of 128 kHz. -/
def demChop (s : State) (k : Nat) : Bool :=
  let f := s.rd F.HMN_EXC_FTW_FTW (s.rd F.HMN_SLC_DEM_DEMSRC k) * 4096000
  decide (126000 * 2 ^ 32 ≤ f) && decide (f ≤ 130000 * 2 ^ 32)

/-- The end of a window: I and Q are written, and the next window begins. -/
def demodEnd (s : State) (k i q : Nat) : State :=
  let valid := decide (s.rd I.hmRst k + hmDelay s k + 2 ≤ s.rd I.hmWin k)
  let word := hmWord valid (demUnsettled s k) (hmRangexWin s k) (demChop s k) (hmGain s k)
  let n := hmInput s k
  let s := (s.wr F.HMN_SNS_DEMI_WORD n (word i)).wr F.HMN_SNS_DEMQ_WORD n (word q)
  (s.wr I.hmWin k (s.rd I.hmNow)).set F.HMN_IRQSTAT_DEMRDY 1

/-- DEMOD_WINDOW_END (R487). -/
def execDemodWindowEnd (k : Fin 4) (i q : BitVec 24) (s : State) : Host.Outcome State Fault Refusal :=
  let s' := hmnModes s
  if s'.on I.hmMode && hmDemods s' k.val then go (demodEnd s' k.val i.toNat q.toNat) else go s

/-- A write of HMN_SLC_DEMk: clearing DEMEN ends the window without a result (R491). -/
def slcDemWrite (s : State) (k v : Nat) : State :=
  let s := if bitOf v 31 then s else s.wr I.hmWin k (s.rd I.hmNow)
  ((s.wr F.HMN_SLC_DEM_DEMEN k (bitN v 31)).wr F.HMN_SLC_DEM_DEMSRC k (bitN v 30)).wr F.HMN_SLC_DEM_NPER k (bits v 15 0)

end Sys2Proof.Machine
end

