-- ==== Sys2Proof/Machine/G711.lean ====
section
/-! DEFINITION.  The sample conversions of the TDM highways (R428, R431), with the code tables of ITU-T G.711
(PRESUMED: the spec names the standard, notes/assumptions/30.md). -/

namespace Sys2Proof.Machine

/-- The segment of a biased magnitude: how many of the seven thresholds it reaches. -/
def segOf (m base : Nat) : Nat := ((List.range 7).filter fun k => decide (base * 2 ^ (k + 1) ≤ m)).length

/-- A µ-law byte as a 14-bit linear value. -/
def ulawExpand (b : Nat) : Int :=
  let c := 255 - b % 256
  let m : Int := ((2 * (c % 16) + 33) * 2 ^ (c / 16 % 8) - 33 : Nat)
  if bitOf c 7 then -m else m

/-- A 14-bit linear value as a µ-law byte. -/
def ulawEncode (v : Int) : Nat :=
  let m := min v.natAbs 8158 + 33
  let seg := segOf m 32
  255 - (b2n (decide (v < 0)) * 128 + seg * 16 + m / 2 ^ (seg + 1) % 16)

/-- An A-law byte as a 13-bit linear value. -/
def alawExpand (b : Nat) : Int :=
  let c := Nat.xor (b % 256) 0x55
  let seg := c / 16 % 8
  let m : Int := (if seg = 0 then 2 * (c % 16) + 1 else (2 * (c % 16) + 33) * 2 ^ (seg - 1) : Nat)
  if bitOf c 7 then m else -m

/-- A 13-bit linear value as an A-law byte. -/
def alawEncode (v : Int) : Nat :=
  let m := min (if v < 0 then (-v - 1).toNat else v.toNat) 4095
  let seg := segOf m 16
  Nat.xor (b2n (decide (0 ≤ v)) * 128 + seg * 16 + m / 2 ^ max 1 seg % 16) 0x55

/-- A received byte as a 16-bit sample (R428): law 0 µ-law, 1 A-law, 2 transparent. -/
def lawExpand (law b : Nat) : Nat :=
  match law with
  | 0 => ofInt 16 (ulawExpand b * 4)
  | 1 => ofInt 16 (alawExpand b * 8)
  | _ => b % 256

/-- A 16-bit sample as the byte sent (R428). -/
def lawEncode (law v : Nat) : Nat :=
  match law with
  | 0 => ulawEncode (signedOf 14 (v / 4))
  | 1 => alawEncode (signedOf 13 (v / 8))
  | _ => v % 256

/-- The idle pattern of a law (R431). -/
def idleByte (law : Nat) : Nat := if law = 1 then 0xD5 else 0xFF

end Sys2Proof.Machine
end

