-- ==== Sys2Proof/Machine/Tdx.lean ====
section
/-! DEFINITION.  TDM highways: clock groups, frames and blocks, the slot map, the rings, cross-connects,
H.110, realignment, handovers, and the bridges that a block boundary sends (R423–R438, R455, R456). -/

namespace Sys2Proof.Machine

/-- Counter k of TDX. -/
def tdxCnt (s : State) (k : Nat) : State := s.bump F.TDX_CNT_COUNT k (some F.TDX_IRQSTAT_CNTOVF)

/-! ## Highways and groups (R423, R424, R433) -/

def tdxH110 (s : State) : Bool := s.on F.TDX_CTRL_H110

/-- RATE and clock group of a highway. -/
def hwRate (s : State) (h : Nat) : Nat := if tdxH110 s && decide (h < 32) then 2 else s.rd F.TDX_H_CFG_RATE h
def hwGroup (s : State) (h : Nat) : Nat := if tdxH110 s && decide (h < 32) then 0 else s.rd F.TDX_H_CFG_CGRP h

/-- FREQ of a group, and whether TDX drives its clocks. -/
def cgFreq (s : State) (g : Nat) : Nat := if tdxH110 s && decide (g < 2) then 2 else s.rd F.TDX_CG_CFG_FREQ g
def cgMaster (s : State) (g : Nat) : Bool :=
  if tdxH110 s && decide (g < 2) then s.rd F.TDX_CTRL_H110ROLE == g + 1 else s.on F.TDX_CG_CFG_MASTER g

/-- CFGERR of a highway. -/
def hwCfgErr (s : State) (h : Nat) : Bool := decide (cgFreq s (hwGroup s h) < hwRate s h)

/-- Does a highway run. -/
def hwRuns (s : State) (h : Nat) : Bool := s.on F.TDX_H_CFG_EN h && !hwCfgErr s h

/-- Slots of a highway's frame. -/
def hwSlots (s : State) (h : Nat) : Nat := 32 * 2 ^ hwRate s h

/-! ## Map entries -/

/-- The word of map entry k (256 h + s). -/
def tdxMapWord (s : State) (k : Nat) : Nat :=
  s.rd F.TDX_MAP_EN k * 2 ^ 31 + s.rd F.TDX_MAP_DIR k * 2 ^ 30 + s.rd F.TDX_MAP_USE k * 2 ^ 28 +
    s.rd F.TDX_MAP_LAW k * 2 ^ 26 + s.rd F.TDX_MAP_WB k * 2 ^ 25 + s.rd F.TDX_MAP_SWAP k * 2 ^ 24 +
    s.rd F.TDX_MAP_TARGET k

/-- Fields of an entry's word. -/
def eEn (w : Nat) : Bool := bitOf w 31
def eDriven (w : Nat) : Bool := bitOf w 30
def eUse (w : Nat) : Nat := bits w 29 28
def eLaw (w : Nat) : Nat := bits w 27 26
def eWb (w : Nat) : Bool := bitOf w 25
def eSwap (w : Nat) : Bool := bitOf w 24
def eTarget (w : Nat) : Nat := bits w 14 0
def eRing (w : Nat) : Nat := bits w 12 0

/-- Entries that an enabled entry, or one pending enable under SWAP, occupies (R430). -/
def eBinds (w : Nat) : Bool := eEn w || eSwap w

/-- The places of the map written so far: entries in use or with any field set. -/
def mapPlaces (s : State) : List Nat :=
  ((s.nonzero F.TDX_MAP_EN ++ s.nonzero F.TDX_MAP_SWAP ++ s.nonzero I.tdxForce).eraseDups)

/-- The rings an entry binds. -/
def eRings (w : Nat) : List Nat := if eWb w then [eRing w, eRing w + 1] else [eRing w]

/-- Do two channel entries bind a ring in one direction. -/
def ringClash (v w : Nat) : Bool :=
  eUse v == 0 && eUse w == 0 && eDriven v == eDriven w && (eRings v).any fun r => (eRings w).contains r

/-- What an entry counts toward TDX_USECNT: channel, cross-connect. -/
def useChan (w : Nat) : Nat := if eBinds w && eUse w == 0 then 1 else 0
def useXc (w : Nat) : Nat := if eBinds w && eUse w == 1 then 1 else 0

/-- Is enabling entry k with word v refused (R430). -/
def mapRefused (s : State) (k v : Nat) : Bool :=
  ((mapPlaces s).any fun j => j != k && eBinds (tdxMapWord s j) && ringClash v (tdxMapWord s j)) ||
  (eWb v && (k % 2 == 1 || eRing v % 2 == 1 || k % 256 == 255)) || eUse v == 3 || eLaw v == 3 ||
  decide (16384 < s.rd F.TDX_USECNT_CHAN + useChan v - useChan (tdxMapWord s k)) ||
  decide (16384 < s.rd F.TDX_USECNT_XC + useXc v - useXc (tdxMapWord s k))

/-- Entry k takes word v, and the use counts follow. -/
def setMap (s : State) (k v : Nat) : State :=
  let old := tdxMapWord s k
  let s := (s.set F.TDX_USECNT_CHAN (s.rd F.TDX_USECNT_CHAN + useChan v - useChan old)).set F.TDX_USECNT_XC
    (s.rd F.TDX_USECNT_XC + useXc v - useXc old)
  let s := (s.wr F.TDX_MAP_EN k (bitN v 31)).wr F.TDX_MAP_DIR k (bitN v 30)
  let s := if eUse v = 3 then s else s.wr F.TDX_MAP_USE k (eUse v)
  let s := if eLaw v = 3 then s else s.wr F.TDX_MAP_LAW k (eLaw v)
  ((s.wr F.TDX_MAP_WB k (bitN v 25)).wr F.TDX_MAP_SWAP k (bitN v 24)).wr F.TDX_MAP_TARGET k (eTarget v)

/-- A write or a handover is refused. -/
def mapRefuse (s : State) : State := (tdxCnt s 5).set F.TDX_IRQSTAT_MAPERR 1

/-- A write of a map entry (R430). -/
def tdxMapWrite (s : State) (k v : Nat) : State :=
  if eBinds v && mapRefused s k v then mapRefuse s else setMap s k v

/-- TDX_MAP_WRITE (R427, R430). -/
def execTdxMapWrite (_ini : Init) (k : BitVec 15) (v : Word) (s : State) : Host.Outcome State Fault Refusal :=
  if s.fabric then go (tdxMapWrite s k.toNat v.toNat) else go s

/-! ## Entries in force (R427) -/

/-- The entries in force: place and word. -/
def forced (s : State) : Tbl Nat := Tbl.get [] s.cells I.tdxForce.id

/-- Does an entry's timeslot exist on a running highway of group g. -/
def tdxSlotLive (s : State) (g k : Nat) : Bool :=
  hwGroup s (k / 256) == g && hwRuns s (k / 256) && decide (k % 256 < hwSlots s (k / 256))

/-- The entries in force whose timeslots exist on running highways. -/
def liveEntries (s : State) : Tbl Nat := (forced s).filter fun e => tdxSlotLive s (hwGroup s (e.1 / 256)) e.1

/-- The written entries of a group's highways come into force at its frame boundary; a transmit slot newly
bound sends idle until it is judged. -/
def mapForce (s : State) (g : Nat) : State :=
  s.over ((mapPlaces s).filter fun k => hwGroup s (k / 256) == g) fun s k =>
    let w := if s.on F.TDX_MAP_EN k then putBit (tdxMapWord s k) 24 false else 0
    if w = s.rd I.tdxForce k then s else (s.wr I.tdxForce k w).wr I.tdxSend k 0

/-! ## Reception (R426, R429) -/

/-- The timeslots an entry covers. -/
def eSlots (k w : Nat) : List Nat := if eWb w && eUse w == 0 then [k, k + 1] else [k]

/-- The frame just ended of a group: the byte of each received timeslot joins its history; a timeslot that
received none repeats its last byte (R434). -/
def receiveFrame (s : State) (g : Nat) (rx : List (BitVec 15 × Byte)) : State :=
  s.over ((forced s).filter fun e => !eDriven e.2 && tdxSlotLive s g e.1) fun s e =>
    s.over (eSlots e.1 e.2) fun s k =>
      let h := s.rd I.tdxHist k
      let b := match rx.find? fun r => r.1.toNat == k with
        | some r => r.2.toNat
        | none => h % 256
      s.wr I.tdxHist k (h * 256 + b)

/-- The byte the reference takes from a timeslot: the oldest frame its group's store holds. -/
def takenByte (s : State) (k : Nat) : Nat :=
  let g := hwGroup s (k / 256)
  let age := if g = s.rd F.TDX_CTRL_REFGRP then 0 else s.rd I.tdxFill g - 1
  s.rd I.tdxHist k / 256 ^ age % 256

/-- The address of sample n of a block's slot in a ring. -/
def sampleAddr (base w blk n : Nat) : Nat := base + 2 * n + (if eWb w then 64 else 32) * (blk % 4)

/-- Frame f of the block in progress reaches the receive rings. -/
def storeFrame (s : State) : State :=
  let f := s.rd F.TDX_FRAME_FRAME
  let m := s.rd F.TDX_BLKCNT_BLOCK
  s.over ((liveEntries s).filter fun e => !eDriven e.2 && eUse e.2 == 0) fun s e =>
    let per := if eWb e.2 then 2 else 1
    s.over ((eSlots e.1 e.2).zipIdx) fun s k =>
      physWrite s (sampleAddr (rxRing (eRing e.2)) e.2 m (per * f + k.2)) (leBytes 2 (lawExpand (eLaw e.2) (takenByte s k.1)))

/-- Receive samples that a realignment leaves unfilled read as 0 (R435): frames from f on. -/
def zeroFrames (s : State) (f : Nat) (skip : Nat → Bool) : State :=
  let m := s.rd F.TDX_BLKCNT_BLOCK
  s.over ((liveEntries s).filter fun e => !eDriven e.2 && eUse e.2 == 0) fun s e =>
    let per := if eWb e.2 then 2 else 1
    let from' := if skip e.1 then f + 1 else f
    s.over ((List.range 16).filter fun n => decide (from' ≤ n)) fun s n =>
      physWrite s (sampleAddr (rxRing (eRing e.2)) e.2 m (per * n)) (leBytes (2 * per) 0)

/-- Sources of cross-connects keep the byte of this frame for the frame after the next (R432). -/
def keepSources (s : State) : State :=
  s.over ((liveEntries s).filter fun e => !eDriven e.2) fun s e => s.wr I.tdxXc e.1 (takenByte s e.1)

/-! ## Transmission (R429, R431, R432, R437) -/

/-- Do TDX's pins drive at all. -/
def pinsDrive (s : State) : Bool := s.on F.TDX_CTRL_RUN && s.serving

/-- The bytes a driven entry sends in the frame that begins, one per timeslot it covers. -/
def sentBytes (s : State) (k w : Nat) : List Nat :=
  let law := eLaw w
  match eUse w with
  | 0 =>
    let per := if eWb w then 2 else 1
    (List.range per).map fun j =>
      if s.on I.tdxSend k then
        lawEncode law (s.readLE (sampleAddr (txRing (eRing w)) w (s.rd F.TDX_BLKCNT_BLOCK)
          (per * s.rd F.TDX_FRAME_FRAME + j)) 2)
      else idleByte law
  | 1 =>
    let src := s.rd I.tdxForce (eTarget w)
    if eEn src && !eDriven src then
      let b := s.rd I.tdxXc (eTarget w)
      [if eLaw src = law then b else lawEncode law (lawExpand (eLaw src) b)]
    else [idleByte law]
  | _ => [idleByte law]

/-- The timeslots of group g are driven for the frame that begins. -/
def driveFrame (s : State) (g : Nat) : State :=
  let s := s.over ((s.nonzero I.tdxOut).filter fun k => hwGroup s (k / 256) == g) fun s k => s.wr I.tdxOut k 0
  if !pinsDrive s then s
  else
    s.over ((forced s).filter fun e => eDriven e.2 && tdxSlotLive s g e.1) fun s e =>
      s.over ((sentBytes s e.1 e.2).zipIdx) fun s b => s.wr I.tdxOut (e.1 + b.2) (256 + b.1)

/-- The 32-byte unit that holds the last word of a slot of a ring (R431). -/
def lastUnit (ring blk : Nat) (wb : Bool) : Nat := if wb then 4 * ring + 2 * (blk % 4) + 1 else 4 * ring + blk % 4

/-- The judgement of a driven channel entry at a block boundary (R431). -/
def judgeSlot (s : State) (k w : Nat) : State :=
  let u := lastUnit (eRing w) (s.rd F.TDX_BLKCNT_BLOCK) (eWb w)
  if s.on I.txWr u then (s.wr I.tdxSend k 1).wr I.txWr u 0
  else
    let s := ((tdxCnt (s.wr I.tdxSend k 0) 0).set F.TDX_IRQSTAT_UNDERRUN 1).errEvent 7
    (s.set F.TDX_UNDREC_VALID 1).set F.TDX_UNDREC_RING (eRing w)

/-! ## Bridges (R455, R456) -/

/-- The entry of bridge b at a boundary: peer device, and tag with slot, or none. -/
def bridgeEntry (s : State) (b : Nat) : Option (List Byte) :=
  let m := s.rd F.TDX_BLKCNT_BLOCK
  let wb := s.on F.CWY_BR_CFG_WB b
  let ring := s.rd F.CWY_BR_CFG_RING b
  let n := if wb then 64 else 32
  let tag := beBytes 4 (b2n wb * 2 ^ 15 + s.rd F.CWY_BR_PEER_PEERBR b)
  if s.rd F.CWY_BR_CFG_KIND b = 0 then some (tag ++ s.readBytes (rxRing ring + n * ((m + 3) % 4)) n)
  else if s.on I.txWrC (lastUnit ring m wb) then some (tag ++ s.readBytes (txRing ring + n * (m % 4)) n)
  else none

/-- The sending entries, in ascending number. -/
def bridgeSenders (s : State) : List Nat :=
  (s.nonzero F.CWY_BR_CFG_EN).filter fun b => s.on F.CWY_BR_CFG_EN b && decide (s.rd F.CWY_BR_CFG_KIND b < 2)

/-- Entries packed into frames of at most 64 entries and `room` bytes. -/
def bridgePack (room : Nat) : List (List Byte) → List Byte → Nat → List (List Byte)
  | [], cur, _ => if cur.isEmpty then [] else [cur]
  | e :: r, cur, n =>
    if n < 64 && cur.length + e.length ≤ room then bridgePack room r (cur ++ e) (n + 1)
    else cur :: bridgePack room r e 1

/-- The frames that one boundary sends to one device. -/
def bridgeTo (s : State) (dev : Nat) (entries : List (List Byte)) : State :=
  let room := match cwRoute s dev with
    | some l => cwRoom s l
    | none => 4112
  (bridgePack room entries [] 0).foldl (fun s b => cwSend s 0 cwBRIDGE dev b) s

/-- BRIDGE_SEND. -/
def bridgeSend (s : State) : State :=
  if !s.on F.CWY_CTRL_RUN then s
  else
    let ents := (bridgeSenders s).map fun b => (b, s.rd F.CWY_BR_PEER_PEERDEV b, bridgeEntry s b)
    let s1 := s.over ents fun s' e =>
      if s.rd F.CWY_BR_CFG_KIND e.1 = 0 then s'
      else if e.2.2.isNone then cwCnt s' 3
      else s'.wr I.txWrC (lastUnit (s.rd F.CWY_BR_CFG_RING e.1) (s.rd F.TDX_BLKCNT_BLOCK) (s.on F.CWY_BR_CFG_WB e.1)) 0
    s1.over (ents.map (·.2.1)).eraseDups fun s' dev =>
      bridgeTo s' dev (ents.filterMap fun e => if e.2.1 = dev then e.2.2 else none)

/-! ## Block boundaries and handovers (R425, R436) -/

/-- A block boundary: BLKCNT advances, every driven channel entry is judged, bridges send. -/
def blockBoundary (s : State) : State :=
  let s := (s.set F.TDX_BLKCNT_BLOCK (s.rd F.TDX_BLKCNT_BLOCK + 1)).set I.tdxBndNs (s.rd F.TMU_TB_NS_NS 1)
  let s := s.over ((liveEntries s).filter fun e => eDriven e.2 && eUse e.2 == 0) fun s e => judgeSlot s e.1 e.2
  bridgeSend s

/-- The handover inverts EN in every entry with SWAP = 1; an enable that R430 refuses stays disabled. -/
def handover (s : State) : State :=
  let ks := (mapPlaces s).filter fun k => s.on F.TDX_MAP_SWAP k
  let s := s.over (ks.filter fun k => s.on F.TDX_MAP_EN k) fun s k => setMap s k (tdxMapWord s k - 2 ^ 31 - 2 ^ 24)
  let s := s.over (ks.filter fun k => s.on F.TDX_MAP_SWAP k) fun s k =>
    let v := tdxMapWord s k + 2 ^ 31 - 2 ^ 24
    if mapRefused s k v then mapRefuse (setMap s k (v - 2 ^ 31)) else setMap s k v
  let s := ((s.set F.TDX_SWAPCMD_ARM 0).set F.TDX_SWAPCMD_DONE 1).set F.TDX_IRQSTAT_SWAPDONE 1
  (if s.on I.tdxLate then s.set F.TDX_SWAPCMD_LATE 1 else s).set I.tdxLate 0

/-- Is a frame boundary that starts now the one an armed handover waits for. -/
def handoverDue (s : State) : Bool :=
  s.on F.TDX_SWAPCMD_ARM && (s.on I.tdxLate ||
    decide (0 ≤ diff32 (s.rd F.TMU_TB_NS_NS 0) ((s.rd F.TDX_SWAPT_T + 2 ^ 32 - 62500) % 2 ^ 32)))

/-! ## Frames (R425, R426) -/

/-- A reference frame boundary; `next` is the number of the frame that begins. -/
def refBoundary (s : State) (next : Nat) : State :=
  let s := s.set I.tdxFrmNs (s.rd F.TMU_TB_NS_NS 0)
  let s := if handoverDue s then handover s else s
  let ref := s.rd F.TDX_CTRL_REFGRP
  let s := (mapForce s ref).set F.TDX_FRAME_FRAME next
  let s := if next = 0 then blockBoundary s else s
  let s := keepSources (driveFrame s ref)
  s.over (List.range 4) fun s g => if g != ref && s.on I.tdxFill g then s.wr I.tdxFill g (s.rd I.tdxFill g - 1) else s

/-- A frame of group g begins, and the one before it has been received. -/
def groupFrame (s : State) (g : Nat) (rx : List (BitVec 15 × Byte)) : State :=
  let s := receiveFrame s g rx
  if g = s.rd F.TDX_CTRL_REFGRP then refBoundary (storeFrame s) ((s.rd F.TDX_FRAME_FRAME + 1) % 16)
  else driveFrame (mapForce (s.wr I.tdxFill g (min 3 (s.rd I.tdxFill g + 1))) g) g

/-! ## Clock groups (R424, R433, R434) -/

/-- The A clocks are lost: TDX takes the B clocks. -/
def failover (s : State) : State :=
  if tdxH110 s && !s.on F.TDX_CTRL_CLKSEL && !cgMaster s 0 then
    tdxCnt (((s.set F.TDX_CTRL_CLKSEL 1).set F.TDX_STAT_AOK 0).set F.TDX_IRQSTAT_FAILOVER 1) 3
  else s

/-- LOSS of a group changes. -/
def setLoss (s : State) (g : Nat) (b : Bool) : State :=
  if s.on F.TDX_CG_STAT_LOSS g == b then s
  else ((s.wr F.TDX_CG_STAT_LOSS g (b2n b)).wr F.TDX_CG_STAT_LOSSCHG g 1).set F.TDX_IRQSTAT_CLKLOSS 1

/-- AOK or BOK. -/
def clocksOk (s : State) (g : Nat) (b : Bool) : State :=
  match g with
  | 0 => s.set F.TDX_STAT_AOK (b2n b)
  | 1 => s.set F.TDX_STAT_BOK (b2n b)
  | _ => s

/-- Whose frame a pulse on HFS g begins: with H110 = 1 the set that CLKSEL names times group 0. -/
def pulseGroup (s : State) (g : Nat) : Option Nat :=
  if !tdxH110 s || decide (2 ≤ g) then some g
  else if s.rd F.TDX_CTRL_CLKSEL = g then some 0
  else none

/-- Does TDX keep frames of a group. -/
def groupOn (s : State) (g : Nat) : Bool := s.fabric && s.on F.TDX_CTRL_RUN && (s.on F.TDX_CG_CFG_EN g || (tdxH110 s && decide (g < 2)))

/-- A pulse on HFS g. -/
def framePulse (s : State) (g : Nat) (rx : List (BitVec 15 × Byte)) : State :=
  let s := clocksOk (setLoss s g false) g true
  let s := if g = 0 && s.on I.clkRet then (s.set F.TDX_CTRL_CLKSEL 0).set I.clkRet 0 else s
  match pulseGroup s g with
  | some k => groupFrame s k rx
  | none => s

/-- TDX_FRAME_PULSE (R424–R426): a pulse at its place; elsewhere in a slave group, which counts a frame
error and re-times; or none at its place. -/
def tdxPulse (s : State) (g : Nat) (kind : PulseKind) (rx : List (BitVec 15 × Byte)) : State :=
  if !groupOn s g then s
  else if kind == .onTime || cgMaster s g then (if kind == .absent then s else framePulse s g rx)
  else
    let s := tdxCnt s 2
    let s := if g = 0 then failover s else s
    if kind == .elsewhere then framePulse s g rx else s

/-- TDX_FRAME_PULSE (R424). -/
def execTdxFramePulse (g : Fin 4) (kind : PulseKind) (rx : List (BitVec 15 × Byte)) (s : State) :
    Host.Outcome State Fault Refusal := go (tdxPulse s g.val kind rx)

/-- The pin pair that times the reference group. -/
def refPulse (s : State) : Nat :=
  if tdxH110 s && s.rd F.TDX_CTRL_REFGRP == 0 then s.rd F.TDX_CTRL_CLKSEL else s.rd F.TDX_CTRL_REFGRP

/-- TDX_BLOCK_BOUNDARY (R425, R431): the pulse of the reference group that ends frame 15. -/
def execTdxBlockBoundary (rx : List (BitVec 15 × Byte)) (s : State) : Host.Outcome State Fault Refusal :=
  if s.rd F.TDX_FRAME_FRAME = 15 then go (tdxPulse s (refPulse s) .onTime rx) else go s

/-- TDX_CLOCK_LOSS (R424, R434): no pulse of a slave group for 375 µs. -/
def execTdxClockLoss (g : Fin 4) (s : State) : Host.Outcome State Fault Refusal :=
  if groupOn s g.val && !cgMaster s g.val then
    let s := clocksOk (setLoss s g.val true) g.val false
    go (if g.val = 0 then failover s else s)
  else go s

/-- TDX_SLIP (R426): a group drifts by a frame; a slow one repeats its last frame, a fast one drops
one. -/
def execTdxSlip (g : Fin 4) (slow : Bool) (s : State) : Host.Outcome State Fault Refusal :=
  if groupOn s g.val && g.val != s.rd F.TDX_CTRL_REFGRP then
    let s := (tdxCnt s 1).set F.TDX_IRQSTAT_SLIP 1
    if slow then go ((receiveFrame s g.val []).wr I.tdxFill g.val (min 3 (s.rd I.tdxFill g.val + 1)))
    else go (s.wr I.tdxFill g.val (s.rd I.tdxFill g.val - 1))
  else go s

/-- H110_FAILOVER (R434). -/
def execH110Failover (s : State) : Host.Outcome State Fault Refusal :=
  if s.fabric && s.on F.TDX_CTRL_RUN then go (failover s) else go s

/-- CLKSEL as a write of TDX_CTRL changes it (R434): 1 takes B; 0 returns to A at the next HFS0 pulse while
AOK = 1. -/
def clkselWrite (s : State) (b : Bool) : State :=
  if b then (s.set F.TDX_CTRL_CLKSEL 1).set I.clkRet 0
  else if s.on F.TDX_CTRL_CLKSEL && s.on F.TDX_STAT_AOK then s.set I.clkRet 1
  else s

/-- A write of TDX_CTRL (R425, R433, R434). -/
def tdxCtrlWrite (s : State) (v : Nat) : State :=
  let s := if bitOf v 31 && !s.on F.TDX_CTRL_RUN then (s.set F.TDX_BLKCNT_BLOCK 0).set F.TDX_FRAME_FRAME 0 else s
  let s := ((s.set F.TDX_CTRL_RUN (bitN v 31)).set F.TDX_CTRL_H110 (bitN v 30)).set F.TDX_CTRL_REFGRP (bits v 25 24)
  let s := if bits v 29 28 = 3 then s else s.set F.TDX_CTRL_H110ROLE (bits v 29 28)
  clkselWrite s (bitOf v 27)

/-- CLKSEL_WRITE (R434). -/
def execClkselWrite (_ini : Init) (v : Word) (s : State) : Host.Outcome State Fault Refusal :=
  if s.fabric then go (tdxCtrlWrite s v.toNat) else go s

/-- A write of TDX_SWAPCMD (R436). -/
def swapcmdWrite (s : State) (v : Nat) : State :=
  let s := if bitOf v 31 then s.set F.TDX_SWAPCMD_LATE 0 else s
  let s := if bitOf v 30 then s.set F.TDX_SWAPCMD_DONE 0 else s
  if bitOf v 0 && !s.on F.TDX_SWAPCMD_ARM then
    let passed := decide (0 ≤ diff32 (s.rd I.tdxFrmNs) ((s.rd F.TDX_SWAPT_T + 2 ^ 32 - 62500) % 2 ^ 32))
    (s.set F.TDX_SWAPCMD_ARM 1).set I.tdxLate (b2n passed)
  else s

/-- HANDOVER_ARM (R436). -/
def execHandoverArm (_ini : Init) (v : Word) (s : State) : Host.Outcome State Fault Refusal :=
  if s.fabric then go (swapcmdWrite s v.toNat) else go s

/-- HANDOVER_APPLY (R436): the reference pulse at which an armed handover is due. -/
def execHandoverApply (rx : List (BitVec 15 × Byte)) (s : State) : Host.Outcome State Fault Refusal :=
  if handoverDue s then go (tdxPulse s (refPulse s) .onTime rx) else go s

/-- Realignment of a master group (R435): the frame in progress is cut short; a reference group begins a new
block. -/
def realignGroup (s : State) (g : Nat) (rx : List (BitVec 15 × Byte)) : State :=
  if g = s.rd F.TDX_CTRL_REFGRP then
    let got := fun (k : Nat) => rx.any fun r => r.1.toNat == k
    let f := s.rd F.TDX_FRAME_FRAME
    refBoundary (zeroFrames (storeFrame (receiveFrame s g rx)) f got) 0
  else groupFrame s g rx

/-- TDX_REALIGN (R435): the masked groups in master mode. -/
def realign (s : State) (mask : Nat) (rx : List (BitVec 15 × Byte)) : State :=
  match (List.range 4).filter fun g => bitOf mask g && groupOn s g && cgMaster s g with
  | [] => s
  | gs => tdxCnt (s.over gs fun s g => realignGroup s g rx) 4

end Sys2Proof.Machine
end

