-- ==== Sys2Proof/Machine/Tmu.lean ====
section
/-! DEFINITION.  Time bases, Waypoints, PATHSTEP and the time pins (R394–R401, R406, R407, R411–R421,
R191, R231). -/

namespace Sys2Proof.Machine

/-- A TMU statistics counter counts (R17). -/
def tmuCount (s : State) (f : Fld) : State := s.bump f 0 (some F.TMU_IRQSTAT_CNTOVF)

/-- Do the time bases run: a fabric mode with the tick (R401). -/
def tmuRuns (s : State) : Bool := s.fabric && s.on I.tickRun

/-- The base an initiator has selected. -/
def selBase (s : State) (ini : Init) : Option Nat := selIx s ini F.TMU_SELECT_INDEX 4

/-- The Waypoint an initiator has selected. -/
def selWp (s : State) (ini : Init) : Option Nat := selIx s ini F.TMU_WPSEL_INDEX 4096

/-! ## Rates (R394, R395, R412) -/

/-- INCR of a base, 40 bits. -/
def tbIncr (s : State) (b : Nat) : Nat := s.rd F.TMU_TB_INCR_HI_INCR b * 2 ^ 32 + s.rd F.TMU_TB_INCR_LO_INCR b

/-- The clamp of R395. -/
def clampIncr (v : Nat) : Nat := max 0x01FF7CED92 (min 0x020083126E v)

/-- INCR of a base becomes v, clamped. -/
def setIncr (s : State) (b v : Nat) : State :=
  (s.wr F.TMU_TB_INCR_HI_INCR b (clampIncr v / 2 ^ 32)).wr F.TMU_TB_INCR_LO_INCR b (clampIncr v % 2 ^ 32)

/-- Does the holdover guard hold on a base (R412). -/
def tbGuard (s : State) (b : Nat) : Bool :=
  (b == 0 || b == 3) && (List.range 8).any fun p => s.on F.TMU_PS_STAT_FIRED p && s.rd F.TMU_PS_CFG_TB p == b

/-- A write of TMU_TB_INCR_LO: held for the initiator (R395); one without private copies holds nothing. -/
def incrLoWrite (s : State) (ini : Init) (b v : Nat) : State :=
  match selCopy ini with
  | some k => s.wr I.incrHeld (4 * k + b) v
  | none => s

/-- A write of TMU_TB_INCR_HI (R395); it uses up the held LO. -/
def incrHiWrite (s : State) (ini : Init) (b v : Nat) : State :=
  let lo := match selCopy ini with | some k => s.rd I.incrHeld (4 * k + b) | none => 0
  let s := match selCopy ini with | some k => s.wr I.incrHeld (4 * k + b) 0 | none => s
  if tbGuard s b || (b == 1 && s.on F.TMU_TB_CFG_LOCK 1) then s.wr F.TMU_TB_STAT_INCRERR b 1
  else setIncr s b (v % 256 * 2 ^ 32 + lo)

/-- TB_INCR_LO_WRITE (R395). -/
def execTbIncrLoWrite (ini : Init) (v : Word) (s : State) : Host.Outcome State Fault Refusal :=
  match selBase s ini with
  | some b => if s.fabric then go (incrLoWrite s ini b v.toNat) else go s
  | none => go s

/-- TB_INCR_HI_WRITE (R395, R412). -/
def execTbIncrHiWrite (ini : Init) (v : Word) (s : State) : Host.Outcome State Fault Refusal :=
  match selBase s ini with
  | some b => if s.fabric then go (incrHiWrite s ini b v.toNat) else go s
  | none => go s

/-- A write of TMU_TB_CFG (R397): LOCK only on TB1; clearing it ends lock and holdover. -/
def tbCfgWrite (s : State) (b v : Nat) : State :=
  let s := s.wr F.TMU_TB_CFG_LOCKSRC b (bits v 29 28)
  if b = 1 then
    let s := s.wr F.TMU_TB_CFG_LOCK 1 (bitN v 31)
    if bitOf v 31 then s else ((s.wr F.TMU_TB_STAT_LOCKED 1 0).wr F.TMU_TB_STAT_HOLDOVER 1 0).set I.tb1Good 0
  else s

/-- Does TB1 follow the frames of a slave group (R397). -/
def tb1Follows (s : State) : Bool := s.on F.TMU_TB_CFG_LOCK 1 && !cgMaster s (s.rd F.TMU_TB_CFG_LOCKSRC 1)

/-- TB1_FRAME_MEASURE (R397): a frame pulse of LOCKSRC; `ok` says that the frame-to-frame error is within
2 ns, `incr` is what the loop sets INCR to. -/
def execTb1FrameMeasure (ok : Bool) (incr : BitVec 40) (s : State) : Host.Outcome State Fault Refusal :=
  if tmuRuns s && tb1Follows s then
    let s := (setIncr s 1 incr.toNat).wr F.TMU_TB_STAT_HOLDOVER 1 0
    let s := s.set I.tb1Good (if ok then min 64 (s.rd I.tb1Good + 1) else 0)
    if s.rd I.tb1Good = 64 then go (s.wr F.TMU_TB_STAT_LOCKED 1 1) else go s
  else go s

/-- TB1_HOLDOVER (R397): no pulse for 375 µs; `incr` is the mean of the last second of lock. -/
def execTb1Holdover (incr : BitVec 40) (s : State) : Host.Outcome State Fault Refusal :=
  if tmuRuns s && tb1Follows s && !s.on F.TMU_TB_STAT_HOLDOVER 1 then
    let s := ((setIncr s 1 incr.toNat).wr F.TMU_TB_STAT_LOCKED 1 0).wr F.TMU_TB_STAT_HOLDOVER 1 1
    go ((s.set I.tb1Good 0).set F.TMU_IRQSTAT_TB1HOLD 1)
  else go s

/-- One tick of the time-base clock on a base (R394). -/
def tbAdvance (s : State) (b : Nat) : State :=
  let v := s.rd F.TMU_TB_NS_NS b * 2 ^ 32 + s.rd I.tbFrac b + tbIncr s b
  (s.wr F.TMU_TB_NS_NS b (v / 2 ^ 32)).wr I.tbFrac b v

/-! ## Coherent views (R399) -/

/-- A read of TMU_TB_NS: FRAC is latched for the initiator. -/
def tbNsRead (s : State) (ini : Init) (b : Nat) : Nat × State :=
  (s.rd F.TMU_TB_NS_NS b,
    match selCopy ini with
    | some k => s.wr F.TMU_TB_FRAC_FRAC (4 * k + b) (s.rd I.tbFrac b / 2 ^ 24)
    | none => s)

/-- TB_NS_READ (R399). -/
def execTbNsRead (ini : Init) (s : State) : Host.Outcome State Fault Refusal :=
  match selBase s ini with
  | some b => if s.fabric then go ((tbNsRead s ini b).2.seen (initCode ini) (tbNsRead s ini b).1) else go s
  | none => if s.fabric then go (s.seen (initCode ini) 0) else go s

/-- A write of TMU_CAPALL. -/
def capallWrite (s : State) (v : Nat) : State :=
  if bitOf v 0 then s.over (List.range 4) fun s b => s.wr F.TMU_CAP_NS b (s.rd F.TMU_TB_NS_NS b) else s

/-- CAPALL (R399). -/
def execCapall (_ini : Init) (v : Word) (s : State) : Host.Outcome State Fault Refusal :=
  if s.fabric then go (capallWrite s v.toNat) else go s

/-! ## Lookahead (R417, R191, R231, R57) -/

abbrev wpIDLE := 0
abbrev wpPENDING := 1
abbrev wpHELD := 2
abbrev wpDONE := 3

/-- The count of a FLAGS action (R418). -/
def flagsCount (arg1 : Nat) : Nat := max 1 (min 1024 (arg1 % 2048))

/-- The AUTO banks that hold pages of a task's set wake (R57). -/
def wakeBanks (s : State) (t : Nat) : State :=
  s.over ((setPages s t).filter fun v => lvl s (nextCid s t) v == 1) fun s v => cstTouch s (pageAddr s (nextCid s t) v)

/-- Is a named task one that the notice may reserve: then CPG acts on it, if it has a context. -/
def noticeTakes (s : State) (t : Nat) : Bool := noticeNames s t && !s.on I.tResv t

/-- One named task of a notice (R191, R231): TSU tries to reserve a core; CPG is asked to place the set as cached
copies where the reservation is not its core's earliest, or where there is none and PROVEN = 1, on the
(i mod k)-th core of its affinity; i, the number of unreserved tasks so far, counts on. -/
def noticeTask (notice target tb : Nat) (p : Nat × State) (t : Nat) : Nat × State :=
  let s := p.2
  if !noticeTakes s t then p
  else
    let s := reserveTask s t notice target tb
    if !setCtx s t then (p.1, s)
    else
      let s := wakeBanks s t
      if s.on I.tResv t then
        let c := s.rd I.tResv t - 1
        (p.1, if earliestResv s c = some t then s else provAsk s t c)
      else if s.on F.CPG_CFG_PROVEN then
        let cs := affinity s t
        (p.1 + 1, if cs.isEmpty then s else provAsk s t (cs.getD (p.1 % cs.length) 0))
      else (p.1, s)

/-- The lookahead notice of Waypoint n (R417): once per target. -/
def notice (s : State) (n : Nat) : State :=
  let s := s.wr F.TMU_WP_STAT_LADONE n 1
  if !s.serving then s
  else
    let seq := s.rd I.noticeSeq + 1
    let s := s.set I.noticeSeq seq
    let base := s.rd F.TMU_WP_ARG0_ARG n % 65536
    let cnt := flagsCount (s.rd F.TMU_WP_ARG1_ARG n)
    (((tasks s).filter fun t => decide (base ≤ t) && decide (t < base + cnt)).foldl
      (noticeTask seq (s.rd F.TMU_WP_TARGET_TARGET n) (s.rd I.wpTb n)) (0, s)).2

/-- Does Waypoint n have a notice still to issue for its target. -/
def noticeDue (s : State) (n : Nat) : Bool :=
  s.on I.wpLa n && s.rd F.TMU_WP_CTL_ACT n == 1 && !s.on F.TMU_WP_STAT_LADONE n

/-- The time from now to the target of Waypoint n, on the base in force. -/
def wpLeft (s : State) (n : Nat) : Int := diff32 (s.rd F.TMU_WP_TARGET_TARGET n) (tbNs s (s.rd I.wpTb n))

/-- LOOKAHEAD_NOTICE (R417). -/
def execLookaheadNotice (n : BitVec 12) (s : State) : Host.Outcome State Fault Refusal :=
  let n := n.toNat
  if tmuRuns s && s.rd F.TMU_WP_STAT_STATE n == wpPENDING && noticeDue s n &&
      decide (wpLeft s n ≤ (min 1000000 (s.rd F.TMU_LACFG_LOOKAHEAD) : Nat)) then
    go (notice s n)
  else go s

/-! ## Actions (R418) -/

/-- The TMU_IO_CFG number of output pulse k: PPSOUT, then TBIO0–TBIO3. -/
def pulsePin (k : Nat) : Nat := if k = 0 then 1 else k + 1

/-- Is pin k of TMU_IO_CFG an output: PPSOUT always, PPSIN never. -/
def ioOut (s : State) (k : Nat) : Bool := k == 1 || (decide (2 ≤ k) && s.on F.TMU_IO_CFG_OUT k)

/-- Does an output pin drive: enabled, and not in a mode that stops pins (R407, R41). -/
def ioDrives (s : State) (k : Nat) : Bool := ioOut s k && s.on F.TMU_IO_CFG_EN k && s.fabric && s.mode != mFENCED

/-- What output pulse k's pin shows: 0 high-impedance, 1 low, 2 high (R407). -/
def ioLevel (s : State) (k : Nat) : Nat :=
  if ioDrives s (pulsePin k) then 1 + b2n (s.on I.pulse k != s.on F.TMU_IO_CFG_POL (pulsePin k)) else 0

/-- STEP is refused on TB2 and with the value 0x8000_0000 (R398). -/
def stepRefused (b v : Nat) : Bool := b == 2 || v == 0x80000000

/-- The action of Waypoint n at its firing; `rx` is what the timeslots received in a frame that ALIGN cuts
short. -/
def wpAction (s : State) (n : Nat) (rx : List (BitVec 15 × Byte)) : State :=
  let a0 := s.rd F.TMU_WP_ARG0_ARG n
  let a1 := s.rd F.TMU_WP_ARG1_ARG n
  match s.rd F.TMU_WP_CTL_ACT n with
  | 1 => setGroup s (a0 % 65536) (flagsCount a1) (bits a0 31 16)
  | 2 => post s true a0 false
  | 3 => s.mlsTrig 2
  | 4 =>
    if bitOf a0 0 then realign s (bits a0 7 4) rx
    else ((s.wr F.TMU_WP_CAP2_VALUE n (s.rd I.tdxBndNs)).wr F.TMU_WP_CAP_VALUE n (tbNs s 1)).set
      F.TMU_IRQSTAT_ALIGN 1
  | 5 =>
    let b := a0 % 4
    if stepRefused b a1 then s.wr F.TMU_TB_STAT_STEPERR b 1
    else (s.wr I.tbPend b 1).wr I.tbPendV b (s.rd I.tbPendV b + a1)  -- two in one tick add up
  | 6 => if s.serving then s.over ((List.range 8).filter (bitOf a0 ·)) fun s c => cluWake s c else s
  | 7 => hmSync (hmnModes s) (a0 % 16)
  | 8 => if a0 % 8 < 5 && ioDrives s (pulsePin (a0 % 8)) then s.wr I.pulse (a0 % 8) 1 else s
  | _ => s

/-! ## Firing (R414–R416) -/

/-- PERIOD as it behaves (R416). -/
def wpPeriod (v : Nat) : Nat := if v = 0 then 0 else max 1000 (min 0x7FFFFFFF v)

/-- After a firing or a drop at `now` (R416): a one-shot entry is DONE; a periodic one has its next future
target, on the base and with the notice its CTL names. -/
def rephase (s : State) (n now : Nat) : State :=
  let p := wpPeriod (s.rd F.TMU_WP_PERIOD_PERIOD n)
  if p = 0 then s.wr F.TMU_WP_STAT_STATE n wpDONE
  else
    let t := s.rd F.TMU_WP_TARGET_TARGET n
    let k := (diff32 now t).toNat / p + 1
    let s := (s.wr F.TMU_WP_TARGET_TARGET n (t + k * p)).wr F.TMU_WP_STAT_LADONE n 0
    ((s.wr F.TMU_WP_STAT_STATE n wpPENDING).wr I.wpTb n (s.rd F.TMU_WP_CTL_TB n)).wr I.wpLa n
      (s.rd F.TMU_WP_CTL_LA n)

/-- The records of a late firing (R415). -/
def markLate (s : State) (n lateness : Nat) : State :=
  let s := (s.wr F.TMU_WP_STAT_LATE n 1).wr F.TMU_WP_LATENESS_VALUE n (min 0xFFFFFFFF lateness)
  ((tmuCount s F.TMU_LATECNT_COUNT).set F.TMU_IRQSTAT_LATE 1).errEvent 10

/-- Waypoint n fires: a notice still to come goes first (R417), then the firing's records, the action, and
the re-phase. -/
def wpFire (s : State) (n : Nat) (late : Option Nat) (rx : List (BitVec 15 × Byte)) : State :=
  let now := tbNs s (s.rd I.wpTb n)
  let s := if noticeDue s n then notice s n else s
  let s := s.wr F.TMU_WP_CAP_VALUE n now
  let s := match late with | some l => markLate s n l | none => s
  rephase (wpAction s n rx) n now

/-- A late Waypoint (R415): it fires, or under DROPLATE is dropped and counted. -/
def wpLate (s : State) (n lateness : Nat) : State :=
  if s.on F.TMU_WP_CTL_DROPLATE n then
    let now := tbNs s (s.rd I.wpTb n)
    rephase ((tmuCount s F.TMU_LATEDROP_COUNT).set F.TMU_IRQSTAT_LATEDROP 1) n now
  else wpFire s n (some lateness) []

/-- Is Waypoint n due (R414). -/
def wpDue (s : State) (n : Nat) : Bool :=
  tmuRuns s && s.rd F.TMU_WP_STAT_STATE n == wpPENDING && decide (wpLeft s n ≤ 0)

/-- WAYPOINT_FIRE (R414, R416, R418). -/
def execWaypointFire (n : BitVec 12) (rx : List (BitVec 15 × Byte)) (s : State) : Host.Outcome State Fault Refusal :=
  if wpDue s n.toNat then go (wpFire s n.toNat none rx) else go s

/-- WAYPOINT_UNHOLD (R413). -/
def execWaypointUnhold (n : BitVec 12) (s : State) : Host.Outcome State Fault Refusal :=
  if tmuRuns s && s.rd F.TMU_WP_STAT_STATE n.toNat == wpHELD && decide (0 < wpLeft s n.toNat) then
    go (s.wr F.TMU_WP_STAT_STATE n.toNat wpPENDING)
  else go s

/-! ## Arming (R413, R415, R24) -/

/-- Waypoint n is armed; one found late fires or is dropped at once. -/
def wpArm (s : State) (n : Nat) : State :=
  let s := (s.wr I.wpTb n (s.rd F.TMU_WP_CTL_TB n)).wr I.wpLa n (s.rd F.TMU_WP_CTL_LA n)
  let s := (s.wr F.TMU_WP_STAT_STATE n wpPENDING).wr F.TMU_WP_STAT_LADONE n 0
  if wpDue s n then wpLate s n (-(wpLeft s n)).toNat else s

/-- A write of TMU_WP_TARGET: with EN = 1 it arms; an old target due at this tick fires first (R421). -/
def wpTargetWrite (s : State) (n v : Nat) : State :=
  if s.on F.TMU_WP_CTL_EN n then
    let s := if wpDue s n then wpFire s n none [] else s
    wpArm (s.wr F.TMU_WP_TARGET_TARGET n v) n
  else s.wr F.TMU_WP_TARGET_TARGET n v

/-- A write of TMU_WP_CTL: a reserved ACT leaves ACT unchanged (R8, R418). -/
def wpCtlWrite (s : State) (n v : Nat) : State :=
  let was := s.on F.TMU_WP_CTL_EN n
  let act := bits v 27 24
  let s := if act ≤ 8 then s.wr F.TMU_WP_CTL_ACT n act else s
  let s := ((s.wr F.TMU_WP_CTL_DROPLATE n (bitN v 30)).wr F.TMU_WP_CTL_LA n (bitN v 29)).wr F.TMU_WP_CTL_TB n (bits v 21 20)
  let s := s.wr F.TMU_WP_CTL_EN n (bitN v 31)
  if !bitOf v 31 then s.wr F.TMU_WP_STAT_STATE n wpIDLE
  else if was then s
  else wpArm s n

/-- WAYPOINT_ARM (R413, R415, R416): a write of TMU_WP_CTL, or of TMU_WP_TARGET, of the selected entry. -/
def execWaypointArm (ini : Init) (ctl : Bool) (v : Word) (s : State) : Host.Outcome State Fault Refusal :=
  match selWp s ini with
  | some n => if s.fabric then go (if ctl then wpCtlWrite s n v.toNat else wpTargetWrite s n v.toNat) else go s
  | none => go s

/-- WAYPOINT_DISABLE (R413): a write of TMU_WP_CTL with EN = 0. -/
def execWaypointDisable (ini : Init) (v : Word) (s : State) : Host.Outcome State Fault Refusal :=
  match selWp s ini with
  | some n => if s.fabric then go (wpCtlWrite s n (v.toNat % 2 ^ 31)) else go s
  | none => go s

/-! ## Steps (R398, R419–R421, R386) -/

/-- The PENDING Waypoints of base b, ascending. -/
def pendingOn (s : State) (b : Nat) : List Nat :=
  (s.nonzero F.TMU_WP_STAT_STATE).filter fun n => s.rd F.TMU_WP_STAT_STATE n == wpPENDING && s.rd I.wpTb n == b

/-- Timed frames whose LAUNCH a forward step of base b skips are late (R386); `ns` is the time before it. -/
def skipLaunches (s : State) (b ns : Nat) (d : Int) : State :=
  s.over ((List.range 8).filter fun p => s.rd F.PKE_P_TCFG_LTB p == b) fun s p =>
    setQueue s p 8 ((egQueue s p 8).map fun f =>
      if 0 < diff32 f.w2 ns && diff32 f.w2 ns ≤ d then { f with late := true } else f)

/-- The step v of base b applies: Waypoints due fire on time first (R421); then a forward step fires those it
skips as late (R419), and a backward step holds those it puts 2^31 ns or more ahead (R420). -/
def tbStep (s : State) (b v : Nat) : State :=
  let d := signedOf 32 v
  let s := s.over ((pendingOn s b).filter (wpDue s)) fun s n => if wpDue s n then wpFire s n none [] else s
  let ns := tbNs s b
  let pend := pendingOn s b
  let s := s.wr F.TMU_TB_NS_NS b (ns + v)
  let s := (s.wr F.TMU_TB_LASTSTEP_VALUE b v).wr F.TMU_TB_STEPAT_VALUE b (tbNs s b)
  let left := fun (s : State) (n : Nat) => diff32 (s.rd F.TMU_WP_TARGET_TARGET n) ns
  if 0 < d then
    (skipLaunches s b ns d).over (pend.filter fun n => 0 < left s n && left s n ≤ d) fun s n =>
      if s.rd F.TMU_WP_STAT_STATE n == wpPENDING then wpLate s n (d - left s n).toNat else s
  else s.over (pend.filter fun n => (2 : Int) ^ 31 ≤ left s n - d) fun s n => s.wr F.TMU_WP_STAT_STATE n wpHELD

/-- A write of TMU_TB_CMD (R398, R401): the step applies, is refused, or is held while the tick is stopped. -/
def tbCmdWrite (s : State) (b v : Nat) : State :=
  if !bitOf v 0 then s
  else if stepRefused b (s.rd F.TMU_TB_STEP_STEP b) then s.wr F.TMU_TB_STAT_STEPERR b 1
  else if s.on I.tickRun then tbStep s b (s.rd F.TMU_TB_STEP_STEP b)
  else s.wr F.TMU_TB_CMD_STEP b 1

/-- TB_STEP (R398, R419, R420). -/
def execTbStep (ini : Init) (v : Word) (s : State) : Host.Outcome State Fault Refusal :=
  match selBase s ini with
  | some b => if s.fabric then go (tbCmdWrite s b v.toNat) else go s
  | none => go s

/-- The steps that Waypoint actions ask for apply (R418, R421). -/
def applySteps (s : State) : State :=
  s.over ((List.range 4).filter (s.on I.tbPend ·)) fun s b =>
    let v := s.rd I.tbPendV b
    tbStep ((s.wr I.tbPend b 0).wr I.tbPendV b 0) b v

/-- A tick of the time-base clock (R394, R398): waiting steps apply, and every base advances. -/
def tmuTick (s : State) : State := if tmuRuns s then (List.range 4).foldl tbAdvance (applySteps s) else s

/-! ## Pins (R406, R407) -/

/-- PULSE_END (R407): ARG1 ns have passed. -/
def execPulseEnd (k : Fin 5) (s : State) : Host.Outcome State Fault Refusal := go (s.wr I.pulse k.val 0)

/-- A write of TMU_IO_CFG: OUT of PPSIN and PPSOUT is fixed; an output that no longer drives ends its
pulse. -/
def ioCfgWrite (s : State) (k v : Nat) : State :=
  let s := ((s.wr F.TMU_IO_CFG_EN k (bitN v 31)).wr F.TMU_IO_CFG_POL k (bitN v 29)).wr F.TMU_IO_CFG_TB k (bits v 27 26)
  let s := if 2 ≤ k then s.wr F.TMU_IO_CFG_OUT k (bitN v 30) else s
  if k = 0 || ioDrives s k then s else s.wr I.pulse (if k = 1 then 0 else k - 1) 0

/-- PIN_CAPTURE (R406): an edge on pin k, `sub` 1/256 ns after the last tick. -/
def execPinCapture (k : Fin 6) (rising : Bool) (sub : BitVec 9) (s : State) : Host.Outcome State Fault Refusal :=
  let k := k.val
  if s.fabric && s.on F.TMU_IO_CFG_EN k && !ioOut s k && rising != s.on F.TMU_IO_CFG_POL k then
    if s.on F.TMU_IO_CAPST_VALID k then go (s.wr F.TMU_IO_CAPST_OVF k 1)
    else
      let t := stamp s (s.rd F.TMU_IO_CFG_TB k) sub.toNat 0
      let s := (s.wr F.TMU_IO_CAP_NS k (t / 256)).wr F.TMU_IO_CAPST_FRAC k (t % 256)
      go ((s.wr F.TMU_IO_CAPST_VALID k 1).set F.TMU_IRQSTAT_CAPTURE 1)
  else go s

/-! ## PATHSTEP (R411, R412) -/

/-- A write of TMU_PS_CFG: the first pair after EN is set only sets the reference; reserved TB values are
not taken (R8). -/
def psCfgWrite (s : State) (p v : Nat) : State :=
  let was := s.on F.TMU_PS_CFG_EN p
  let tb := bits v 29 28
  let s := if tb = 0 || tb = 3 then s.wr F.TMU_PS_CFG_TB p tb else s
  let s := s.wr F.TMU_PS_CFG_EN p (bitN v 31)
  if bitOf v 31 && !was then s.wr F.TMU_PS_STAT_REFVALID p 0 else s

/-- A write of TMU_PS_MPD completes a pair. -/
def psPair (s : State) (p v : Nat) : State :=
  let s := s.wr F.TMU_PS_MPD_VALUE p v
  if !s.on F.TMU_PS_CFG_EN p then s
  else
    let ofs := s.rd F.TMU_PS_OFS_VALUE p
    let dO := diff32 ofs (s.rd I.psOfs p)
    let dM := diff32 v (s.rd I.psMpd p)
    let fires := s.on F.TMU_PS_STAT_REFVALID p && decide (max 1 (s.rd F.TMU_PS_THR_OFSTHR p) ≤ dO.natAbs) &&
      decide (max 1 (s.rd F.TMU_PS_THR_MPDTHR p) ≤ dM.natAbs)
    let s := if fires then
        (((s.wr F.TMU_PS_STAT_FIRED p 1).wr F.TMU_PS_DOFS_VALUE p (ofInt 32 dO)).wr F.TMU_PS_DMPD_VALUE p
          (ofInt 32 dM)).set F.TMU_IRQSTAT_PATHSTEP 1
      else s
    ((s.wr I.psOfs p ofs).wr I.psMpd p v).wr F.TMU_PS_STAT_REFVALID p 1

/-- PATHSTEP_PAIR (R411). -/
def execPathstepPair (_ini : Init) (p : Fin 8) (v : Word) (s : State) : Host.Outcome State Fault Refusal :=
  if s.fabric then go (psPair s p.val v.toNat) else go s

/-- A write of TMU_PS_STAT: clearing FIRED releases the port's hold on the guard (R412). -/
def psStatWrite (s : State) (p v : Nat) : State :=
  if bitOf v 31 && s.on F.TMU_PS_STAT_FIRED p then
    (s.wr F.TMU_PS_STAT_FIRED p 0).wr F.TMU_PS_STAT_REFVALID p 0
  else s

/-- PATHSTEP_CLEAR (R412). -/
def execPathstepClear (_ini : Init) (p : Fin 8) (v : Word) (s : State) : Host.Outcome State Fault Refusal :=
  if s.fabric then go (psStatWrite s p.val v.toNat) else go s

/-! ## The registers of the selected base and Waypoint -/

/-- TMU_TB_STAT as read. -/
def tbStatWord (s : State) (b : Nat) : Nat :=
  s.rd F.TMU_TB_STAT_LOCKED b * 2 ^ 31 + s.rd F.TMU_TB_STAT_HOLDOVER b * 2 ^ 30 + b2n (tbGuard s b) * 2 ^ 29 +
    s.rd F.TMU_TB_STAT_STEPERR b * 2 ^ 28 + s.rd F.TMU_TB_STAT_INCRERR b * 2 ^ 27

/-- A write of a Waypoint's register at `off`. -/
def wpWrite (s : State) (n off v : Nat) : State :=
  match off with
  | 0x200 => wpTargetWrite s n v
  | 0x204 => s.wr F.TMU_WP_PERIOD_PERIOD n v
  | 0x208 => wpCtlWrite s n v
  | 0x20C => s.wr F.TMU_WP_ARG0_ARG n v
  | 0x210 => s.wr F.TMU_WP_ARG1_ARG n v
  | 0x214 => if bitOf v 31 then s.wr F.TMU_WP_STAT_LATE n 0 else s
  | _ => s

end Sys2Proof.Machine
end

