-- ==== Sys2Proof/Machine/CwyMig.lean ====
section
/-! DEFINITION.  Migrations: the entries of source and destination from GO to their ends (R460–R466,
R469). -/

namespace Sys2Proof.Machine

abbrev miPRECOPY := 1
abbrev miWAITARM := 2
abbrev miARMSEEN := 3
abbrev miFROZEN := 4
abbrev miCOMMITTED := 5
abbrev miGRACE := 6
abbrev miRECEIVING := 7
abbrev miARMED := 8
abbrev miRUNNING := 9
abbrev miDONE := 10
abbrev miABORTED := 11
abbrev miLOST := 12

abbrev opPCDONE := 1
abbrev opARMED := 2
abbrev opCOMMIT := 3
abbrev opCOMMITACK := 4
abbrev opABORT := 5

abbrev rsUSER := 1
abbrev rsTIMEOUT := 2
abbrev rsLINKDOWN := 3
abbrev rsBADLAYOUT := 4
abbrev rsBADT := 5
abbrev rsBUSYJOB := 6
abbrev rsQUAR := 7
abbrev rsTDMBUSY := 8

/-- The words of an entry. -/
def miSt (s : State) (m : Nat) : Nat := s.rd F.CWY_M_STAT_STATE m
def miCid (s : State) (m : Nat) : Nat := s.rd F.CWY_M_CTX_CID m
def miTid (s : State) (m : Nat) : Nat := s.rd F.CWY_M_CTX_TID m
def miPeer (s : State) (m : Nat) : Nat := s.rd F.CWY_M_PEER_PEERDEV m

/-- The limits in ns; 0 behaves as the default (chapter 15, CWY registers). -/
def miFrz (s : State) (m : Nat) : Nat := if s.on F.CWY_M_LIM_FRZ m then s.rd F.CWY_M_LIM_FRZ m * 1000 else 1000000
def miGuard (s : State) (m : Nat) : Nat := if s.on F.CWY_M_LIM_GUARD m then s.rd F.CWY_M_LIM_GUARD m * 1000 else 100000
def miAckwait (s : State) (m : Nat) : Nat := if s.on F.CWY_M_WAIT_ACKWAIT m then s.rd F.CWY_M_WAIT_ACKWAIT m * 1000 else 1000000
def miGrace (s : State) (m : Nat) : Nat := if s.on F.CWY_M_WAIT_GRACE m then s.rd F.CWY_M_WAIT_GRACE m * 1000000 else 2000000000

/-- The time from T to TB0 now, signed (R460). -/
def sinceT (s : State) (m : Nat) : Int := diff32 (tbNs s 0) (s.rd F.CWY_M_T_T m)

/-- Has the entry not reached its end. -/
def miBusy (s : State) (m : Nat) : Bool := decide (miPRECOPY ≤ miSt s m) && decide (miSt s m ≤ miRUNNING)

/-- The entry reaches an end: MIG is raised, and the context's bit clears (R466); a source that has sent
COMMIT leaves its channel MOVING until RELEASE. -/
def miEnd (s : State) (m st reason : Nat) : State :=
  let handed := miSt s m == miCOMMITTED || miSt s m == miGRACE
  let s := (s.wr F.CWY_M_STAT_STATE m st).wr F.CWY_M_STAT_REASON m reason
  let s := (s.wr F.CWY_M_CTL_ABORT m 0).set F.CWY_IRQSTAT_MIG 1
  let s := if handed then s.wr I.ctxMoved (miCid s m) 1 else s
  let cid := miCid s m
  let s := if (List.range 64).any fun k => k != m && miBusy s k && miCid s k == cid then s else s.wr I.ctxMig cid 0
  if st = miLOST then s.errEvent 9 else s

/-- A MIGCTL frame of entry m goes to its peer (R461). -/
def migctl (s : State) (m op reason pmask : Nat) : State :=
  cwSend s 0 cwMIGCTL (miPeer s m) (beBytes 4 (op * 2 ^ 24 + reason * 2 ^ 16 + s.rd F.CWY_M_CTL_MIGID m) ++
    beBytes 4 (s.rd F.CWY_M_T_T m) ++ beBytes 4 (pmask * 65536) ++ [0, 0, 0, 0])

/-- The largest data of a MIGPAGE frame on the way to a device: 1 KB on a tunnel (R447). -/
def migChunk (s : State) (dev : Nat) : Nat :=
  match cwRoute s dev with
  | some l => if isTunnel l then 1024 else 4096
  | none => 4096

/-- n bytes from a go to the peer as MIGPAGE frames of a kind (R461). -/
def migSend (s : State) (m kind v a n : Nat) : State :=
  let c := migChunk s (miPeer s m)
  s.over ((List.range ((n + c - 1) / c)).map (· * c)) fun s ofs =>
    cwSend s 0 cwMIGPAGE (miPeer s m) (beBytes 4 (kind * 2 ^ 24 + v * 65536 + s.rd F.CWY_M_CTL_MIGID m) ++
      beBytes 4 ofs ++ [0, 0, 0, 0, 0, 0, 0, 0] ++ s.readBytes (a + ofs) (min c (n - ofs)))

/-- A copy of every page of the context that is in CST. -/
def migPages (s : State) (m : Nat) : State :=
  let cid := miCid s m
  s.over ((List.range 16).filter fun v => lvl s cid v == 1) fun s v =>
    let s := migSend (cstTouch s (pageAddr s cid v)) m 0 v (pageAddr s cid v) 4096
    s.wr F.CWY_M_STAT_PAGES m (setBit (s.rd F.CWY_M_STAT_PAGES m) v)

/-- The TSU_T_CFG word of a task. -/
def cfgWord (s : State) (t : Nat) : Nat :=
  s.rd F.TSU_T_CFG_EN t * 2 ^ 31 + s.rd F.TSU_T_CFG_PRE t * 2 ^ 30 + s.rd F.TSU_T_CFG_ALL t * 2 ^ 29 +
    s.rd F.TSU_T_CFG_SGEN t * 2 ^ 28 + s.rd F.TSU_T_CFG_LEVEL t * 2 ^ 16 + s.rd F.TSU_T_CFG_BLEVEL t * 2 ^ 8 +
    s.rd F.TSU_T_CFG_AFF t

/-- CWY writes EN of a task (R206). -/
def miTaskEn (s : State) (t : Nat) (en : Bool) : State := taskRegWrite s t 0x104 (putBit (cfgWord s t) 31 en)

/-- The keys of an entry: whether key k is VALID, and the key. -/
def miKey (s : State) (m k : Nat) : Option Nat :=
  if k = 0 then
    if s.on F.CWY_M_KEY0_VALID m then some (clsKeyOf (s.rd F.CWY_M_KEY0_LADDR m) (s.rd F.CWY_M_KEY0_UDPPORT m)) else none
  else if s.on F.CWY_M_KEY1_VALID m then some (clsKeyOf (s.rd F.CWY_M_KEY1_LADDR m) (s.rd F.CWY_M_KEY1_UDPPORT m)) else none

/-- MODIFY of key k to FORWARD towards the peer (R370, R371), its entry saved first. -/
def keyForward (s : State) (m k : Nat) : State :=
  match miKey s m k with
  | none => s
  | some key =>
    match clsFind s key with
    | none => s
    | some i =>
      let e := [s.rd I.clsE0 i, s.rd I.clsE1 i, s.rd I.clsE2 i, s.rd I.clsE3 i]
      let s := s.over (List.range 4) fun s w => s.wr I.mKeyE (8 * m + 4 * k + w) (e.getD w 0)
      ((clsModify s key (putField (e.getD 0 0) 30 29 3) (e.getD 1 0) (e.getD 2 0)
        (putField (e.getD 3 0) 26 16 (miPeer s m))).2).wr I.mKeyF (2 * m + k) 1

/-- MODIFY of a forwarded key back to its saved entry. -/
def keyRestore (s : State) (m k : Nat) : State :=
  match miKey s m k with
  | none => s
  | some key =>
    if s.on I.mKeyF (2 * m + k) then
      let w := fun j => s.rd I.mKeyE (8 * m + 4 * k + j)
      ((clsModify s key (w 0) (w 1) (w 2) (w 3)).2).wr I.mKeyF (2 * m + k) 0
    else s

/-- DELETE of a forwarded key. -/
def keyDelete (s : State) (m k : Nat) : State :=
  match miKey s m k with
  | none => s
  | some key => if s.on I.mKeyF (2 * m + k) then ((clsDelete s key).2).wr I.mKeyF (2 * m + k) 0 else s

/-- SWAPT of the entry's handover (R462, R465), and whether TDX holds an armed one with another. -/
def miSwapt (s : State) (m : Nat) : Nat := (s.rd F.CWY_M_T_T m + s.rd F.CWY_M_TDMOFS_OFS m) % 2 ^ 32
def tdmBusy (s : State) (m : Nat) : Bool :=
  s.on F.CWY_M_CTL_TDM m && s.on F.TDX_SWAPCMD_ARM && s.rd F.TDX_SWAPT_T != miSwapt s m

/-- TDX is armed for the entry's handover. -/
def armTdx (s : State) (m : Nat) : State :=
  if s.on F.CWY_M_CTL_TDM m then swapcmdWrite (s.set F.TDX_SWAPT_T (miSwapt s m)) 1 else s

/-! ## The source (R462) -/

/-- A source aborts before COMMIT: ABORT is sent, EN and the keys return. -/
def miAbort (s : State) (m reason : Nat) : State :=
  let s := migctl s m opABORT reason 0
  let s := if s.on I.mTask m then (miTaskEn s (miTid s m) true).wr I.mTask m 0 else s
  miEnd (keyRestore (keyRestore s m 0) m 1) m miABORTED reason

/-- GO of a source: the first copy, PCDONE, and the wait for ARMED. -/
def sourceGo (s : State) (m : Nat) : State :=
  let s := ((s.wr F.CWY_M_STAT_STATE m miPRECOPY).wr F.CWY_M_STAT_REASON m 0).wr F.CWY_M_STAT_PAGES m 0
  let s := (s.wr I.ctxMig (miCid s m) 1).wr I.mTask m 0
  let s := (s.wr I.mKeyF (2 * m) 0).wr I.mKeyF (2 * m + 1) 0
  let s := migPages s m
  (migctl s m opPCDONE 0 (s.rd F.CWY_M_STAT_PAGES m)).wr F.CWY_M_STAT_STATE m miWAITARM

/-- T − FRZ has come: EN = 0, FROZEN. -/
def freeze (s : State) (m : Nat) : State :=
  ((miTaskEn s (miTid s m) false).wr I.mTask m 1).wr F.CWY_M_STAT_STATE m miFROZEN

/-- Do jobs, or write-backs after them, hold the context; is it quarantined. -/
def miHeld (s : State) (m : Nat) : Bool := jobPin s (miCid s m)
def miQuar (s : State) (m : Nat) : Bool := ctxState s (miCid s m) == cQUAR

/-- A frozen source whose jobs have ended forwards its keys; once no frame of the old entries is in progress
it makes the second copy, arms TDX and commits. -/
def frozenStep (s : State) (m : Nat) : State :=
  if miSt s m != miFROZEN || miHeld s m || miQuar s m || (cwRoute s (miPeer s m)).isNone then s
  else
    let s := s.over ((List.range 2).filter fun k => !s.on I.mKeyF (2 * m + k)) fun s k => keyForward s m k
    if clsDraining s || tdmBusy s m then s
    else
      let s := migPages (s.wr F.CWY_M_STAT_PAGES m 0) m
      let s := migSend s m 1 0 (pksBase + 64 * s.rd F.CWY_M_JBSRC_OFS m) (min 65536 (s.rd F.CWY_M_JBLEN_LEN m / 64 * 64))
      let s := armTdx s m
      (migctl s m opCOMMIT 0 (s.rd F.CWY_M_STAT_PAGES m)).wr F.CWY_M_STAT_STATE m miCOMMITTED

/-- MIG_FREEZE (R462): at T − FRZ, and again as what the source waits for comes. -/
def execMigFreeze (m : Fin 64) (s : State) : Host.Outcome State Fault Refusal :=
  let m := m.val
  if s.fabric && miSt s m == miARMSEEN && decide (-(miFrz s m : Int) ≤ sinceT s m) then go (frozenStep (freeze s m) m)
  else go (frozenStep s m)

/-- Why a source cannot go on at T − GUARD. -/
def guardReason (s : State) (m : Nat) : Option Nat :=
  if miSt s m < miARMSEEN then some rsTIMEOUT
  else if miHeld s m then some rsBUSYJOB
  else if miQuar s m then some rsQUAR
  else if tdmBusy s m then some rsTDMBUSY
  else if (cwRoute s (miPeer s m)).isNone then some rsLINKDOWN
  else if s.on F.CWY_M_CTL_ABORT m then some rsUSER
  else none

/-- MIG_GUARD (R462). -/
def execMigGuard (m : Fin 64) (s : State) : Host.Outcome State Fault Refusal :=
  let m := m.val
  if s.fabric && decide (miPRECOPY ≤ miSt s m) && decide (miSt s m ≤ miFROZEN) &&
      decide (-(miGuard s m : Int) ≤ sinceT s m) then
    match guardReason s m with
    | some r => go (miAbort s m r)
    | none => go s
  else go s

/-- The route of a frozen source is lost (R469): it aborts at once. -/
def migLinkCheck (s : State) : State :=
  s.over ((s.nonzero F.CWY_M_STAT_STATE).filter fun m =>
    miSt s m == miFROZEN && (cwRoute s (miPeer s m)).isNone) fun s m => miAbort s m rsLINKDOWN

/-- MIG_ACKWAIT (R462, R463): T + ACKWAIT. -/
def execMigAckwait (m : Fin 64) (s : State) : Host.Outcome State Fault Refusal :=
  let m := m.val
  if s.fabric && decide ((miAckwait s m : Int) ≤ sinceT s m) then
    if miSt s m == miCOMMITTED then go (miEnd s m miLOST 0)
    else if miSt s m == miRUNNING then go (miEnd s m miDONE 0)
    else go s
  else go s

/-- MIG_GRACE_END (R462): at T + GRACE the source deletes the forwarding keys. -/
def execMigGraceEnd (m : Fin 64) (s : State) : Host.Outcome State Fault Refusal :=
  let m := m.val
  if s.fabric && miSt s m == miGRACE && decide ((miGrace s m : Int) ≤ sinceT s m) then
    go (miEnd (keyDelete (keyDelete s m 0) m 1) m miDONE 0)
  else go s

/-! ## The destination (R463) -/

/-- GO of a destination. -/
def destGo (s : State) (m : Nat) : State :=
  let s := ((s.wr F.CWY_M_STAT_STATE m miRECEIVING).wr F.CWY_M_STAT_REASON m 0).wr F.CWY_M_STAT_PAGES m 0
  (s.wr I.ctxMig (miCid s m) 1).wr I.migFresh (miCid s m) 1

/-- Bytes are written into a page of a context through CPG, as CHW writes are (R229, R463). -/
def cpgWrite (s : State) (cid v ofs : Nat) (b : List Byte) : State :=
  let s := settlePage (faultPage s cid v) cid v
  if lvl s cid v = 1 then
    refreshCopies (physWrite (cstTouch s (pageAddr s cid v)) (pageAddr s cid v + ofs) b) cid v
  else if lvl s cid v = 2 then physWrite s (slotAddr s cid v + ofs) b
  else s

/-- A MIGPAGE payload for entry m. -/
def migPage (s : State) (m : Nat) (p : List Byte) : State :=
  let ofs := beAt p 4 4
  let data := p.drop 16
  let jb := 64 * s.rd F.CWY_M_JBDST_OFS m + ofs
  if byteAt p 0 = 1 then
    if ofs + data.length ≤ 65536 && jb + data.length ≤ 0x2000000 then physWrite s (pksBase + jb) data else s
  else
    let v := byteAt p 1 % 16
    let s := if ofs + data.length ≤ 4096 then cpgWrite s (miCid s m) v ofs data else s
    if 4096 ≤ ofs + data.length then s.wr F.CWY_M_STAT_PAGES m (setBit (s.rd F.CWY_M_STAT_PAGES m) v) else s

/-- A failed check of the destination: ABORT is sent. -/
def destAbort (s : State) (m reason : Nat) : State := miEnd (migctl s m opABORT reason 0) m miABORTED reason

/-- PCDONE at the destination: once every page of PMASK has been received, the checks, and ARMED. -/
def pcdone (s : State) (m t pmask : Nat) : State :=
  let s := s.wr I.mPmask m pmask
  if Nat.land pmask (s.rd F.CWY_M_STAT_PAGES m) != pmask then s
  else if t != s.rd F.CWY_M_T_T m then destAbort s m rsBADT
  else if (pagesOf pmask).any (fun v => notPresent s (miCid s m) v) || s.on F.TSU_T_CFG_EN (miTid s m) then
    destAbort s m rsBADLAYOUT
  else ((migctl s m opARMED 0 pmask).wr F.CWY_M_STAT_PAGES m 0).wr F.CWY_M_STAT_STATE m miARMED

/-- COMMIT at the destination (R463, R464). -/
def commit (s : State) (m : Nat) : State :=
  if 0 ≤ sinceT s m || tdmBusy s m then miEnd s m miLOST 0
  else
    let s := miTaskEn (armTdx s m) (miTid s m) true
    (migctl s m opCOMMITACK 0 0).wr F.CWY_M_STAT_STATE m miRUNNING

/-- MIG_T_PASS (R463). -/
def execMigTPass (m : Fin 64) (s : State) : Host.Outcome State Fault Refusal :=
  let m := m.val
  if s.fabric && decide (0 ≤ sinceT s m) then
    if miSt s m == miRECEIVING then go (miEnd s m miABORTED rsTIMEOUT)
    else if miSt s m == miARMED then go (miEnd s m miLOST 0)
    else go s
  else go s

/-! ## The control register -/

/-- A write of CWY_M_CTL: its fields are stored, GO starts an entry that is not running, ABORT ends a
destination that is receiving and is kept for a source until T − GUARD (R9, R462, R463). -/
def mCtlWrite (s : State) (m v : Nat) : State :=
  let s := ((s.wr F.CWY_M_CTL_ROLE m (bitN v 29)).wr F.CWY_M_CTL_TDM m (bitN v 28)).wr F.CWY_M_CTL_MIGID m (bits v 15 0)
  let s := if bitOf v 31 && !miBusy s m then (if s.on F.CWY_M_CTL_ROLE m then destGo s m else sourceGo s m) else s
  if bitOf v 30 then
    if miSt s m == miRECEIVING then destAbort s m rsUSER
    else if miPRECOPY ≤ miSt s m && miSt s m ≤ miFROZEN then s.wr F.CWY_M_CTL_ABORT m 1
    else s
  else s

/-- MIG_GO (R462, R463): a write of CWY_M_CTL with GO. -/
def execMigGo (_ini : Init) (m : Fin 64) (v : Word) (s : State) : Host.Outcome State Fault Refusal :=
  if s.fabric then go (mCtlWrite s m.val (setBit v.toNat 31)) else go s

/-- MIG_ABORT_WRITE (R462, R463): a write of CWY_M_CTL with ABORT. -/
def execMigAbortWrite (_ini : Init) (m : Fin 64) (v : Word) (s : State) : Host.Outcome State Fault Refusal :=
  if s.fabric then go (mCtlWrite s m.val (setBit v.toNat 30)) else go s

/-! ## MIGCTL and MIGPAGE frames (R461) -/

/-- The entry that a frame of a peer with a MIGID matches, in one of some states. -/
def miMatch (s : State) (src id : Nat) (sts : List Nat) : Option Nat :=
  (List.range 64).find? fun m => miPeer s m == src && s.rd F.CWY_M_CTL_MIGID m == id && sts.contains (miSt s m)

/-- A frame without an entry. -/
def migDrop (s : State) : State := cwCnt s 2

/-- A received MIGPAGE frame. -/
def migpageRx (s : State) (src : Nat) (p : List Byte) : State :=
  match miMatch s src (beAt p 2 2) [miRECEIVING, miARMED] with
  | some m => migPage s m p
  | none => migDrop s

/-- The states in which a MIGCTL operation finds an entry. -/
def opStates (op : Nat) : List Nat :=
  match op with
  | 1 => [miRECEIVING]
  | 2 => [miPRECOPY, miWAITARM]
  | 3 => [miARMED]
  | 4 => [miCOMMITTED]
  | 5 => [miRECEIVING, miARMED]
  | _ => []

/-- A received MIGCTL frame. -/
def migctlRx (s : State) (src : Nat) (p : List Byte) : State :=
  let op := byteAt p 0
  match miMatch s src (beAt p 2 2) (opStates op) with
  | none => migDrop s
  | some m =>
    if op = 1 then pcdone s m (beAt p 4 4) (beAt p 8 2)
    else if op = 2 then s.wr F.CWY_M_STAT_STATE m miARMSEEN
    else if op = 3 then commit s m
    else if op = 4 then s.wr F.CWY_M_STAT_STATE m miGRACE
    else miEnd s m miABORTED (byteAt p 1 % 16)

end Sys2Proof.Machine
end

