-- ==== Sys2Proof/Machine/CwyCmd.lean ====
section
/-! DEFINITION.  The commands by which software makes CWY send, and the events of its links: remote events,
mailbox messages, remote accesses, fences, epochs, boot requests (R441, R445, R449–R452, R458, R459, R468). -/

namespace Sys2Proof.Machine

/-! ## Links -/

/-- CW_LINK_DOWN (R441, R445, R469): the link has lost lock, or its peer has been silent for LDTO. -/
def execCwLinkDown (l : Fin 14) (s : State) : Host.Outcome State Fault Refusal := go (migLinkCheck (cwDown s l.val))

/-- CW_RETRANSMIT (R445). -/
def execCwRetransmit (l : Fin 14) (s : State) : Host.Outcome State Fault Refusal :=
  if cwUp s l.val then go (migLinkCheck (retransmit s l.val)) else go s

/-- Writes of CWY_CTRL.RUN and CWY_L_CFG.EN: a link that may run leaves DOWN, one that may not goes DOWN. -/
def cwCtrlWrite (s : State) (v : Nat) : State := migLinkCheck (cwFollow (s.set F.CWY_CTRL_RUN (bitN v 31)))

/-- A write of CWY_L_CFG of link l; reserved TTB values are not taken (R8). -/
def lCfgWrite (s : State) (l v : Nat) : State :=
  let s := (s.wr F.CWY_L_CFG_EN l (bitN v 31)).wr F.CWY_L_CFG_PORT l (bits v 26 24)
  let s := (s.wr F.CWY_L_CFG_TPRIO l (bits v 22 20)).wr F.CWY_L_CFG_VID l (bits v 11 0)
  let ttb := bits v 29 28
  let s := if ttb = 0 || ttb = 3 then s.wr F.CWY_L_CFG_TTB l ttb else s
  migLinkCheck (cwFollow s)

/-- The link an initiator has selected. -/
def selLink (s : State) (ini : Init) : Option Nat := selIx s ini F.CWY_SELECT_INDEX 14

/-- CWY_L_STAT.EPOK: the peer's epoch, once a LINK frame has given it, equals CWY_EPOCH. -/
def epOk (s : State) (l : Nat) : Bool := s.on I.cwGot l && s.rd F.CWY_L_PEEREPOCH_EPOCH l == s.rd F.CWY_EPOCH_EPOCH

/-- CWY_L_STAT as read. -/
def lStatWord (s : State) (l : Nat) : Nat :=
  s.rd F.CWY_L_STAT_UP l * 2 ^ 31 + s.rd F.CWY_L_STAT_LINKCHG l * 2 ^ 30 + s.rd F.CWY_L_STAT_DNV l * 2 ^ 29 +
    b2n (epOk s l) * 2 ^ 28 + s.rd F.CWY_L_STAT_STATE l * 2 ^ 26 + s.rd F.CWY_L_STAT_PEERDEV l

/-! ## Time transfer (R458) -/

/-- The words of a link's time-transfer set: TT1–TT4, TTFRAC, TTSEQ. -/
def ttWord (s : State) (l k : Nat) : Nat :=
  if k < 4 then s.rd F.CWY_L_TT_VALUE (4 * l + k)
  else if k = 4 then s.rd F.CWY_L_TTFRAC_VALUE l else s.rd F.CWY_L_TTSEQ_VALUE l

/-- A read of CWY_L_TT1 latches the set for the initiator. -/
def tt1Read (s : State) (ini : Init) (l : Nat) : Nat × State :=
  (ttWord s l 0,
    match selCopy ini with
    | some c => s.over (List.range 6) fun s k => s.wr I.ttBuf (6 * c + k) (ttWord s l k)
    | none => s)

/-- TT1_READ (R458). -/
def execTt1Read (ini : Init) (s : State) : Host.Outcome State Fault Refusal :=
  if s.fabric then
    match selLink s ini with
    | some l => go ((tt1Read s ini l).2.seen (initCode ini) (tt1Read s ini l).1)
    | none => go (s.seen (initCode ini) 0)
  else go s

/-! ## Events, messages, fences (R449, R450, R452, R459) -/

/-- A write of CWY_REVT_SEND by an initiator. -/
def revtSend (s : State) (ini : Init) (v : Nat) : State :=
  cwSend s 0 cwEVENT (s.rd F.CWY_REVT_DEV_DEV (initCode ini)) (beBytes 4 v)

/-- REVT_SEND (R449). -/
def execRevtSend (ini : Init) (v : Word) (s : State) : Host.Outcome State Fault Refusal :=
  if s.fabric then go (revtSend s ini v.toNat) else go s

/-- Does a range of bytes lie in SYM or in PKS (R31). -/
def inSymPks (a n : Nat) : Bool :=
  (decide (0x20000000 ≤ a) && decide (a + n ≤ 0x20800000)) || (decide (0x10000000 ≤ a) && decide (a + n ≤ 0x12000000))

/-- Is the message of CWY_MBS_CMD well formed. -/
def mbsArgOk (s : State) : Bool :=
  let n := s.rd F.CWY_MBS_CMD_LEN
  let a := s.rd F.CWY_MBS_ADDR_HI_ADDR * 2 ^ 32 + s.rd F.CWY_MBS_ADDR_LO_ADDR
  decide (4 ≤ n) && n % 4 == 0 && decide (n ≤ if s.on F.CWY_MBS_CMD_BOOT then 4104 else 240) && inSymPks a n

/-- The message of CWY_MBS_CMD is sent, as a MBOX frame or, with BOOT = 1, as a BOOT frame on a link. -/
def mbsGo (s : State) : State :=
  let a := s.rd F.CWY_MBS_ADDR_HI_ADDR * 2 ^ 32 + s.rd F.CWY_MBS_ADDR_LO_ADDR
  let msg := s.readBytes a (s.rd F.CWY_MBS_CMD_LEN)
  let dev := s.rd F.CWY_MBS_CMD_DEV
  if !mbsArgOk s then s.set F.CWY_MBS_CMD_RESULT 2
  else if s.on F.CWY_MBS_CMD_BOOT then
    if dev % 16 < 14 && cwUp s (dev % 16) then (cwSendLocal s (dev % 16) cwBOOT msg).set F.CWY_MBS_CMD_RESULT 0
    else cwUnreach s 1
  else cwSend (s.set F.CWY_MBS_CMD_GO 1) 1 cwMBOX dev msg

/-- A write of CWY_MBS_CMD (R9, R450). -/
def mbsCmdWrite (s : State) (v : Nat) : State :=
  let s := ((s.set F.CWY_MBS_CMD_BOOT (bitN v 30)).set F.CWY_MBS_CMD_LEN (bits v 23 11)).set F.CWY_MBS_CMD_DEV (bits v 10 0)
  if bitOf v 31 && !s.on F.CWY_MBS_CMD_GO then mbsGo s else s

/-- MBS_SEND (R450, R468). -/
def execMbsSend (_ini : Init) (v : Word) (s : State) : Host.Outcome State Fault Refusal :=
  if s.fabric then go (mbsCmdWrite s v.toNat) else go s

/-- A write of CWY_FENCECMD. -/
def fencecmdWrite (s : State) (v : Nat) : State :=
  let s := s.set F.CWY_FENCECMD_DEV (bits v 10 0)
  if bitOf v 31 && !s.on F.CWY_FENCECMD_GO then
    cwSend (s.set F.CWY_FENCECMD_GO 1) 2 cwFENCE (s.rd F.CWY_FENCECMD_DEV) []
  else s

/-- FENCECMD (R452). -/
def execFencecmd (_ini : Init) (v : Word) (s : State) : Host.Outcome State Fault Refusal :=
  if s.fabric then go (fencecmdWrite s v.toNat) else go s

/-- EPOCH_WRITE (R459). -/
def execEpochWrite (_ini : Init) (v : Word) (s : State) : Host.Outcome State Fault Refusal :=
  if s.fabric then go (s.set F.CWY_EPOCH_EPOCH v.toNat) else go s

/-! ## Remote access: the asking side (R451) -/

/-- A write of CWY_RA_CMD. -/
def raCmdWrite (s : State) (v : Nat) : State :=
  let s := (s.set F.CWY_RA_CMD_WR (bitN v 30)).set F.CWY_RA_CMD_DEV (bits v 10 0)
  if bitOf v 31 && !s.on F.CWY_RA_CMD_GO then
    let tag := (s.rd I.raTag + 1) % 65536
    cwSend ((s.set I.raTag tag).set F.CWY_RA_CMD_GO 1) 3 cwRACC (s.rd F.CWY_RA_CMD_DEV)
      (beBytes 4 (s.rd F.CWY_RA_CMD_WR * 2 ^ 31 + tag) ++ beBytes 4 (s.rd F.CWY_RA_ADDR_HI_ADDR) ++
        beBytes 4 (s.rd F.CWY_RA_ADDR_LO_ADDR) ++ beBytes 4 (s.rd F.CWY_RA_DATA_DATA))
  else s

/-- RA_CMD (R451). -/
def execRaCmd (_ini : Init) (v : Word) (s : State) : Host.Outcome State Fault Refusal :=
  if s.fabric then go (raCmdWrite s v.toNat) else go s

/-- The outstanding access ends with a result. -/
def raEnd (s : State) (result : Nat) : State := (s.set F.CWY_RA_CMD_GO 0).set F.CWY_RA_CMD_RESULT result

/-- RA_TIMEOUT (R451). -/
def execRaTimeout (s : State) : Host.Outcome State Fault Refusal := if s.on F.CWY_RA_CMD_GO then go (raEnd s 3) else go s

/-- A received RRSP: the answer to the outstanding access; any other is discarded. -/
def rrspRx (s : State) (p : List Byte) : State :=
  if s.on F.CWY_RA_CMD_GO && beAt p 2 2 == s.rd I.raTag then
    let s := if !s.on F.CWY_RA_CMD_WR && byteAt p 0 == 0 then s.set F.CWY_RA_DATA_DATA (beAt p 4 4) else s
    raEnd s (byteAt p 0)
  else s

/-! ## Causeway boot: the asking side (R468) -/

/-- Does the boot ROM wait for an image over Causeway. -/
def cwBooting (s : State) : Bool := s.mode == mBOOT && s.rd I.bootSrc == 2 && s.rd I.romSt == 1

/-- BOOT_REQUEST_SEND (R468): REQUEST with the serial number, on CW0. -/
def execBootRequestSend (s : State) : Host.Outcome State Fault Refusal :=
  if cwBooting s && cwUp s 0 then
    go (cwSendLocal s 0 cwBOOT (beBytes 4 0 ++ beBytes 4 (shadow s 124) ++ beBytes 4 (shadow s 125)))
  else go s

/-- A received BOOT frame (R468): the booting device takes DATA and END. -/
def bootTake (s : State) (p : List Byte) : State :=
  match beAt p 0 4 with
  | 1 => if inSymPks (0x20000000 + beAt p 4 4) (p.length - 8) && decide (beAt p 4 4 < 0x800000) then
      s.writeBytes (0x20000000 + beAt p 4 4) (p.drop 8) else s
  | 2 => s.set I.bootImg 1
  | _ => s

end Sys2Proof.Machine
end

