-- ==== Sys2Proof/Machine/Dma.lean ====
section
/-! DEFINITION.  DMA channels but for their bursts, and the DDR5 controller (R241–R244, R249, R250). -/

namespace Sys2Proof.Machine

/-- The protection class of a channel that an initiator starts (R241): 0 supervisor, 1 signal core, 2
host, 3 debug port, 4 remote over Causeway; a channel passes its own class on. -/
def dmaClass (s : State) : Init → Nat
  | .sgc _ => 1
  | .host => 2
  | .dbg => 3
  | .racc => 4
  | .dma n => s.rd F.DMA_C_STAT_CLASS n.val
  | _ => 0

/-- The physical or virtual address of a side, as programmed. -/
def sideAddr (s : State) (lo hi : Fld) (n : Nat) : Nat := s.rd lo n + 2 ^ 32 * s.rd hi n

/-- GO: the channel takes its registers and the writer's class, and ends at once on a misaligned value or
a length of 0 (R241, R243). -/
def dmaGo (s : State) (ini : Init) (n : Nat) : State :=
  if dmaActive s n then s
  else
    let src := sideAddr s F.DMA_C_SRC_LO_ADDR F.DMA_C_SRC_HI_ADDR n
    let dst := sideAddr s F.DMA_C_DST_LO_ADDR F.DMA_C_DST_HI_ADDR n
    let len := s.rd F.DMA_C_LEN_LEN n
    let cls := dmaClass s ini
    let s := ((s.wr I.dSrc n src).wr I.dDst n dst).wr I.dLen n len
    let s := s.wr I.dCtx n (s.rd F.DMA_C_CTX_CV n * 32768 + s.rd F.DMA_C_CTX_CID n)
    let s := s.wr I.dCmpl n (s.rd F.DMA_C_CMPL_FLAGS n * 65536 + s.rd F.DMA_C_CMPL_TID n)
    let s := s.wr I.dMode n (s.rd F.DMA_C_CTL_SPHYS n * 8 + s.rd F.DMA_C_CTL_DPHYS n * 4 +
      s.rd F.DMA_C_CTL_SIG n * 2 + s.rd F.DMA_C_CTL_IRQ n)
    let s := ((s.wr F.DMA_C_STAT_CLASS n cls).wr F.DMA_C_OFS_OFS n 0).wr F.DMA_C_STAT_ERR n 0
    let s := s.wr F.DMA_C_STAT_STATE n dRUN
    if src % 4 != 0 || dst % 4 != 0 || len % 4 != 0 then dmaEnd s n dERROR 5
    else if len = 0 then dmaEnd s n dDONE 0
    else s

/-- ABORT (R243): between two burst commands a channel in RUN stands at a burst boundary. -/
def dmaAbort (s : State) (n : Nat) : State := if dmaActive s n then dmaEnd s n dABORTED 0 else s

/-- A write of DMA_C_CTL of channel n: the mode bits are stored; ABORT and GO judge the channel as it
stood before the write. -/
def dmaCtlWrite (s : State) (ini : Init) (n v : Nat) : State :=
  let active := dmaActive s n
  let s := (((s.wr F.DMA_C_CTL_SPHYS n (bitN v 3)).wr F.DMA_C_CTL_DPHYS n (bitN v 2)).wr F.DMA_C_CTL_SIG n
    (bitN v 1)).wr F.DMA_C_CTL_IRQ n (bitN v 0)
  if active then (if bitOf v 30 then dmaAbort s n else s)
  else if bitOf v 31 then dmaGo s ini n else s

/-- DMA_GO (R241): a write of DMA_C_CTL of a channel's direct array. -/
def execDmaGo (ini : Init) (ch : Fin 32) (v : Word) (s : State) : Host.Outcome State Fault Refusal :=
  if s.fabric then go (dmaCtlWrite s ini ch.val v.toNat) else go s

/-- DMA_ABORT (R243): a write of DMA_C_CTL.ABORT, the mode bits as stored. -/
def execDmaAbort (_ini : Init) (ch : Fin 32) (s : State) : Host.Outcome State Fault Refusal :=
  if s.fabric then go (dmaAbort s ch.val) else go s

/-- Must a channel wait for page v of a context: not in CST, or in the working set of a job in progress,
or with a copy that awaits write-back (R242, R226). -/
def dmaMustWait (s : State) (cid v : Nat) : Bool :=
  lvl s cid v != 1 || heldByJobSet s cid v ||
    (frames s).any fun i => holds s i cid v && frSt s i == fWBPEND
where
  /-- Is the page in the working set of a job in progress. -/
  heldByJobSet (s : State) (cid v : Nat) : Bool :=
    (tasks s).any fun t => jobInProgress s t && s.on I.jCv t && s.rd I.jCid t == cid && bitOf (s.rd I.jWs t) v

/-- A channel enters WAIT for a page; CPG acts on it at demand class (R242, R232). -/
def dmaWait (s : State) (n cid v : Nat) : State :=
  let s := (s.wr F.DMA_C_STAT_STATE n dWAIT).wr I.dWait n (entry cid v + 1)
  faultPage (s.bump F.DMA_FAULTCNT_COUNT 0 none) cid v

/-- DMA_RESUME (R242): the page a channel waits for is ready; or its context has since been quarantined
or released, which the next burst then finds. -/
def execDmaResume (ch : Fin 32) (s : State) : Host.Outcome State Fault Refusal :=
  let n := ch.val
  let e := s.rd I.dWait n - 1
  if s.fabric && s.rd F.DMA_C_STAT_STATE n == dWAIT &&
      (!dmaMustWait s (e / 16) (e % 16) || notPresent s (e / 16) (e % 16) || ctxState s (e / 16) == cQUAR) then
    go ((s.wr F.DMA_C_STAT_STATE n dRUN).wr I.dWait n 0)
  else go s

/-- DMA_BUSY (R252). -/
def dmaBusyWord (s : State) : Nat := maskOf32 ((List.range 32).filter (dmaActive s))
where
  /-- A bit mask of a list. -/
  maskOf32 (l : List Nat) : Nat := l.foldl setBit 0

/-! ## The DDR5 controller (R250) -/

/-- A write of DMC_CTRL: SELFREF holds a trained DRAM in self-refresh; INIT, unless training runs, starts
calibration and training, and without RESUME writes the array. -/
def dmcCtrlWrite (s : State) (v : Nat) : State :=
  let s := (s.set F.DMC_CTRL_RESUME (bitN v 2)).set F.DMC_CTRL_SELFREF (bitN v 1)
  let s := if s.on F.DMC_STAT_READY then s.set F.DMC_STAT_INSR (bitN v 1) else s
  if bitOf v 0 && !s.on I.dmcTrain then
    let s := ((s.set F.DMC_STAT_READY 0).set F.DMC_STAT_TRAINERR 0).set F.DMC_STAT_STEP 0
    let s := (((s.set I.dmcTrain 1).set F.DMC_CTRL_INIT 1).set F.DMC_STAT_INSR 0).set I.dmcSelfRef 0
    if bitOf v 2 then s else s.loseMem 0x100000000 0x800000000
  else s

/-- DMC_INIT (R250): a write of DMC_CTRL with INIT = 1, RESUME and SELFREF as stored. -/
def execDmcInit (_ini : Init) (s : State) : Host.Outcome State Fault Refusal :=
  if s.fabric then go (dmcCtrlWrite s (s.rd F.DMC_CTRL_RESUME * 4 + s.rd F.DMC_CTRL_SELFREF * 2 + 1)) else go s

/-- DMC_TRAIN_DONE (R250): training completes, or fails in a step. -/
def execDmcTrainDone (ok : Bool) (step : BitVec 4) (s : State) : Host.Outcome State Fault Refusal :=
  if s.fabric && s.on I.dmcTrain then
    let s := (s.set I.dmcTrain 0).set F.DMC_CTRL_INIT 0
    if ok then go ((s.set F.DMC_STAT_READY 1).set F.DMC_STAT_STEP 6)
    else go (((s.set F.DMC_STAT_TRAINERR 1).set F.DMC_IRQSTAT_TRAINERR 1).set F.DMC_STAT_STEP step.toNat)
  else go s

end Sys2Proof.Machine
end

