-- ==== Sys2Proof/Machine/Hif.lean ====
section
/-! DEFINITION.  The PCI Express host interface: doorbells, PERST_N, the link (R93–R95, R532), and the
device number (R446). -/

namespace Sys2Proof.Machine

/-- A message-signalled interrupt to the host (R91). -/
def sendMsi (s : State) (vector : Nat) : State := s.wr I.msiSent vector (s.rd I.msiSent vector + 1)

/-- Is IRQ_N driven low: in BOOT, SERVICE and DRAIN while S2H = 1 (R93, R512). -/
def irqNLow (s : State) : Bool :=
  s.on F.HIF_DOORBELL_S2H && (s.mode == mBOOT || s.serving)

/-- A write of HIF_DBSET: a 1 sets its doorbell; setting S2H sends MSI vector 0 (R93). -/
def dbSet (s : State) (h2s s2h : Bool) : State :=
  let s := if h2s then s.set F.HIF_DOORBELL_H2S 1 else s
  if s2h then sendMsi (s.set F.HIF_DOORBELL_S2H 1) 0 else s

/-- A write of HIF_DBCLR: a 1 clears its doorbell (R93). -/
def dbClr (s : State) (h2s s2h : Bool) : State :=
  let s := if h2s then s.set F.HIF_DOORBELL_H2S 0 else s
  if s2h then s.set F.HIF_DOORBELL_S2H 0 else s

/-- DBSET_H2S (R93). -/
def execDbsetH2s (_ini : Init) (s : State) : Host.Outcome State Fault Refusal :=
  if s.fabric then go (dbSet s true false) else go s

/-- DBSET_S2H (R93). -/
def execDbsetS2h (_ini : Init) (s : State) : Host.Outcome State Fault Refusal :=
  if s.fabric then go (dbSet s false true) else go s

/-- DBCLR_H2S (R93). -/
def execDbclrH2s (_ini : Init) (s : State) : Host.Outcome State Fault Refusal :=
  if s.fabric then go (dbClr s true false) else go s

/-- DBCLR_S2H (R93). -/
def execDbclrS2h (_ini : Init) (s : State) : Host.Outcome State Fault Refusal :=
  if s.fabric then go (dbClr s false true) else go s

/-- The link is down: UP, WIDTH and SPEED read 0 (R532). -/
def linkDown (s : State) : State :=
  ((s.set F.HIF_LINKSTAT_UP 0).set F.HIF_LINKSTAT_WIDTH 0).set F.HIF_LINKSTAT_SPEED 0

/-- The select copies and held INCR_LO copies of one initiator copy number return to reset (R16, R395). -/
def resetSelects (s : State) (copy : Nat) : State :=
  [F.TSU_SELECT_INDEX, F.QUE_SELECT_INDEX, F.TMU_SELECT_INDEX, F.TMU_WPSEL_INDEX, F.PKE_SELECT_INDEX,
    F.TDX_SELECT_INDEX, F.CWY_SELECT_INDEX, F.HMN_SELECT_INDEX, F.CHW_SELECT_INDEX,
    F.DMA_SELECT_INDEX, F.TSU_SELECT_SELERR, F.QUE_SELECT_SELERR, F.TMU_SELECT_SELERR,
    F.TMU_WPSEL_SELERR, F.PKE_SELECT_SELERR, F.TDX_SELECT_SELERR, F.CWY_SELECT_SELERR,
    F.HMN_SELECT_SELERR, F.CHW_SELECT_SELERR, F.DMA_SELECT_SELERR].foldl
    (fun s f => s.wr f copy (f.resetAt copy))
    (s.over (List.range 4) fun s b => s.wr I.incrHeld (4 * copy + b) 0)

/-- PERST_ASSERT (R16, R94, R532): the link, HIF_BAR2BASE and the host's select copies reset;
PERSTSEEN is set where HIF runs. -/
def execPerstAssert (s : State) : Host.Outcome State Fault Refusal :=
  let s := s.set I.pinPerst 0
  if s.fabric then
    let s := resetSelects ((linkDown s).set F.HIF_BAR2BASE_BASE F.HIF_BAR2BASE_BASE.reset) 4
    go (s.set F.HIF_LINKSTAT_PERSTSEEN 1)
  else go s

/-- PCIE_LINK_CHANGE (R532): the link comes up with a width and a rate (PERST_N is then high), or goes
down. -/
def execPcieLinkChange (up : Bool) (width : BitVec 2) (speed : BitVec 4) (s : State) :
    Host.Outcome State Fault Refusal :=
  if s.fabric then
    if up then
      go ((((s.set I.pinPerst 1).set F.HIF_LINKSTAT_UP 1).set F.HIF_LINKSTAT_WIDTH width.toNat).set
        F.HIF_LINKSTAT_SPEED speed.toNat)
    else go (linkDown s)
  else go s

/-- A write of SYS_DEVNUM: the first since BOOT stores it and locks it (R446). -/
def devnumWrite (s : State) (v : Nat) : State :=
  if s.on F.SYS_DEVNUM_LOCKED then s
  else (s.set F.SYS_DEVNUM_DEVNUM v).set F.SYS_DEVNUM_LOCKED 1

/-- DEVNUM_WRITE (R446). -/
def execDevnumWrite (_ini : Init) (v : Word) (s : State) : Host.Outcome State Fault Refusal :=
  if s.fabric then go (devnumWrite s v.toNat) else go s

end Sys2Proof.Machine
end

