-- ==== Sys2Proof/Machine/Mls.lean ====
section
/-! DEFINITION.  MLS: Milestone triggers, arming, the trace hold and MLOUT; and the debug port's test
access port, challenge and halts (R493–R508). -/

namespace Sys2Proof.Machine

/-! ## Triggers -/

/-- MLS_TRIGGER (R493–R495): enabled sources trigger in one cycle. -/
def execMlsTrigger (sources : BitVec 5) (s : State) : Host.Outcome State Fault Refusal :=
  if s.fabric then go (s.mlsTrig sources.toNat) else go s

/-- MLIN_EDGE (R493): an edge toward level MLINPOL triggers. -/
def execMlinEdge (rising : Bool) (s : State) : Host.Outcome State Fault Refusal :=
  if s.fabric && rising == s.on F.MLS_SRCEN_MLINPOL then go (s.mlsTrig 1) else go s

/-- A write of MLS_TRIG (R493). -/
def mlsTrigWrite (s : State) (v : Nat) : State := if bitOf v 0 then s.mlsTrig 4 else s

/-- MLS_TRIG (R493). -/
def execMlsTrig (_ini : Init) (v : Word) (s : State) : Host.Outcome State Fault Refusal :=
  if s.fabric then go (mlsTrigWrite s v.toNat) else go s

/-- A write of MLS_ARM (R495, R501): ARMED is set, the trace ring is released. -/
def mlsArmWrite (s : State) (v : Nat) : State :=
  if bitOf v 0 then ((s.set F.MLS_STAT_ARMED 1).set F.MLS_STAT_TRCHELD 0).set I.mlsPost 0 else s

/-- MLS_ARM (R495, R501). -/
def execMlsArm (_ini : Init) (v : Word) (s : State) : Host.Outcome State Fault Refusal :=
  if s.fabric then go (mlsArmWrite s v.toNat) else go s

/-- TRACE_HOLD (R501): POSTCNT entries have been written since the latch, and the ring is held. -/
def execTraceHold (s : State) : Host.Outcome State Fault Refusal :=
  if s.rd I.mlsPost == 1 then go ((s.set F.MLS_STAT_TRCHELD 1).set I.mlsPost 0) else go s

/-- MLOUT_PULSE_END (R498). -/
def execMloutPulseEnd (s : State) : Host.Outcome State Fault Refusal := go (s.set I.mlOut 0)

/-- The level of MLOUT: 0 high-impedance, 1 low, 2 high (R41, R498). -/
def mloutLevel (s : State) : Nat :=
  if s.mode == mRESET || s.mode == mFENCED || !s.on F.MLS_OUTCFG_EN then 0
  else if s.on I.mlOut == s.on F.MLS_OUTCFG_POL then 2 else 1

/-- A received MLSTONE frame (R453, R499): recorded, whether or not its trigger is accepted, unless the
protection map discards remote Milestones. -/
def mlstoneReceive (s : State) (dev seq : Nat) : State :=
  if s.on F.FUS_PMMISC_RMLS then
    let s := ((s.set F.MLS_RREC_VALID 1).set F.MLS_RREC_DEV dev).set F.MLS_RREC_RSEQ seq
    (s.set F.MLS_IRQSTAT_REMOTE 1).mlsTrig 16
  else s

/-- MLSTONE_RX (R453, R499): CWY hands over an MLSTONE frame. -/
def execMlstoneRx (dev : BitVec 11) (seq : BitVec 16) (s : State) : Host.Outcome State Fault Refusal :=
  if s.fabric then go (mlstoneReceive s dev.toNat seq.toNat) else go s

/-! ## Test access port (R502–R505) -/

/-- TAP_RESET (R502): IDCODE is selected. -/
def execTapReset (s : State) : Host.Outcome State Fault Refusal := go (s.set I.dbgIr 1)

/-- Do DBGACC and BKPTHALT act: level OPEN, or AUTH unlocked (R502, R507). -/
def dbgAvail (s : State) : Bool := debugLevel s == 0 || (debugLevel s == 1 && s.on I.dbgUnl)

/-- TAP_INSTRUCTION_LOAD (R502, R503): EXTEST, CLAMP or HIGHZ in SERVICE or DRAIN is a fatal error. -/
def execTapInstructionLoad (ir : BitVec 8) (s : State) : Host.Outcome State Fault Refusal :=
  let s := s.set I.dbgIr ir.toNat
  if s.serving && (ir == 3#8 || ir == 4#8 || ir == 5#8) then go (fatalError s 5) else go s

/-- DBGCHAL (R505): a fresh nonce, a free value, is captured with the serial number. -/
def execDbgchal (s : State) : Host.Outcome State Fault Refusal :=
  if debugLevel s == 1 && s.rd I.dbgIr == 0x10 then
    let r := s.draw
    go ((r.2.set I.dbgNonce r.1).set I.dbgChal 1)
  else go s

/-- The last challenge captured: nonce, then serial number (R505). -/
def challenge (s : State) : List Byte :=
  leBytes 32 (s.rd I.dbgNonce) ++ leBytes 4 (s.rd F.SYS_SERIAL_LO_SERIAL) ++ leBytes 4 (s.rd F.SYS_SERIAL_HI_SERIAL)

/-- Does a response unlock the port (R505). -/
def responseOk (s : State) (slot : Nat) (key sig : List Byte) : Bool :=
  s.on I.dbgChal && slotUsable s slot && Config.sha384 key == keySlot s slot &&
    Config.ecdsaP384 key sig (Config.sha384 (challenge s))

/-- DBGRESP (R505): each challenge answers one response; three failures end it until RESET. -/
def execDbgresp (slot : BitVec 2) (key sig : List Byte) (s : State) : Host.Outcome State Fault Refusal :=
  if debugLevel s == 1 && s.rd I.dbgIr == 0x11 && decide (s.rd I.dbgFails < 3) then
    let ok := responseOk s slot.toNat key sig
    let s := s.set I.dbgChal 0
    go (if ok then s.set I.dbgUnl 1 else s.set I.dbgFails (s.rd I.dbgFails + 1))
  else go s

/-- MLS_DBG_STAT (R505). -/
def dbgStatWord (s : State) : Nat :=
  s.rd I.dbgUnl * 2 ^ 31 + b2n (dbgAvail s) * 2 ^ 30 + debugLevel s * 2 ^ 28 + s.rd I.dbgFails

/-! ## Halts (R506) -/

/-- Core c halts, if it is where a pre-emption could be taken: a bundle stalled on a queue is cancelled
whole (R124, R506). -/
def haltNow (s : State) (c : Nat) : State :=
  if atBoundary s c then
    setHalted { s.wr I.qstall c 0 with bundles := Tbl.drop c s.bundles } c true
  else s

/-- Core c resumes; a CANCEL that waited for that takes effect (R506). -/
def resumeCore (s : State) (c : Nat) : State :=
  let s := setHalted s c false
  if c < 64 && s.on I.cJob c && s.on I.jCancel (s.rd I.cJob c - 1) && atBoundary s c then stopCancelled s c else s

/-- Core c follows its bit of a halt register. -/
def haltFollow (s : State) (c : Nat) : State :=
  if haltReq s c then (if halted s c then s else haltNow s c)
  else if halted s c then resumeCore s c else s

/-- A write of a halt register: LO, HI or SVC (R506). -/
def haltWrite (s : State) (ini : Init) (which v : Nat) : State :=
  if ini = .dbg then
    match which with
    | 0 => (s.set F.MLS_DBG_HALT_LO_CORES v).over (List.range 32) haltFollow
    | 1 => (s.set F.MLS_DBG_HALT_HI_CORES v).over ((List.range 32).map (· + 32)) haltFollow
    | _ => (s.set F.MLS_DBG_HALT_SVC_CORES v).over [64, 65, 66, 67] haltFollow
  else s

/-- DBG_HALT (R506). -/
def execDbgHalt (ini : Init) (svc hi : Bool) (v : Word) (s : State) : Host.Outcome State Fault Refusal :=
  if s.fabric then go (haltWrite s ini (if svc then 2 else b2n hi) v.toNat) else go s

/-- Does core c have bundles to issue: a signal core with a job in RUN, a supervisor core once the boot
image runs. -/
def coreLive (s : State) (c : Nat) : Bool :=
  if isSvc c then s.fabric && s.rd I.romSt == 3
  else s.serving && s.on I.cJob c && !s.on I.swPend c && cluSt s (c / 8) == clRUN

/-- Core c as MLS_DBG_STEP and MLS_DBG_REGSEL number it. -/
def coreOfCode (k : Nat) : Option Nat := if k ≤ 0x43 then some k else none

/-- A write of MLS_DBG_STEP: GO lets one bundle of the halted core CORE issue; it clears when that is done,
or at once if there is none (R506). -/
def stepWrite (s : State) (ini : Init) (v : Nat) : State :=
  if ini = .dbg then
    let s := (s.set F.MLS_DBG_STEP_CORE (bits v 6 0)).set F.MLS_DBG_STEP_GO 0
    match coreOfCode (bits v 6 0) with
    | some c => if bitOf v 31 && halted s c && coreLive s c then s.set F.MLS_DBG_STEP_GO 1 else s
    | none => s
  else s

/-- DBG_STEP (R506). -/
def execDbgStep (ini : Init) (v : Word) (s : State) : Host.Outcome State Fault Refusal :=
  if s.fabric then go (stepWrite s ini v.toNat) else go s

/-- Is core c being stepped. -/
def stepping (s : State) (c : Nat) : Bool :=
  s.on F.MLS_DBG_STEP_GO && s.rd F.MLS_DBG_STEP_CORE == c

/-- May core c issue: it has bundles to issue and is not halted, or is stepped (R506). -/
def mayIssue (s : State) (c : Nat) : Bool := coreLive s c && (!halted s c || stepping s c)

/-- The supervisor control register at offsets 0x1A0–0x1C0 of the debug view (R506): SCR_STATUS + k. -/
def svcRegAt (off : Nat) : Option Nat :=
  if 0x1A0 ≤ off && off ≤ 0x1B4 then some ((off - 0x1A0) / 4 + 3)
  else if 0x1B8 ≤ off && off ≤ 0x1C0 then some ((off - 0x1B8) / 4)
  else none

/-- The word MLS_DBG_REGSEL names on a halted core (R506). -/
def debugRegRead (s : State) (c off : Nat) : Nat :=
  match (if isSvc c then svcRegAt off else none) with
  | some k => s.rd I.scr (16 * (c - 64) + k)
  | none => if isSvc c && decide (0x1A0 ≤ off) then 0 else recordRead s (rbank s c) off

/-- A write of it. -/
def debugRegWrite (s : State) (c off v : Nat) : State :=
  match (if isSvc c then svcRegAt off else none) with
  | some k => s.wr I.scr (16 * (c - 64) + k) (Nat.land v (scrMask k))
  | none => if isSvc c && decide (0x1A0 ≤ off) then s else recordWrite s (rbank s c) off v

/-- A read of MLS_DBG_REGDATA: for a core that is not halted the spec states no value, a free one. -/
def regdataRead (s : State) : Nat × State :=
  match coreOfCode (s.rd F.MLS_DBG_REGSEL_CORE) with
  | some c => if halted s c then (debugRegRead s c (4 * s.rd F.MLS_DBG_REGSEL_OFS), s) else
      let r := s.draw
      (r.1 % 2 ^ 32, r.2)
  | none => let r := s.draw
    (r.1 % 2 ^ 32, r.2)

/-- A write of MLS_DBG_REGDATA (R506). -/
def regdataWrite (s : State) (ini : Init) (v : Nat) : State :=
  if ini = .dbg then
    match coreOfCode (s.rd F.MLS_DBG_REGSEL_CORE) with
    | some c => if halted s c then debugRegWrite s c (4 * s.rd F.MLS_DBG_REGSEL_OFS) v else s
    | none => s
  else s

/-- DBG_REGDATA_WRITE (R506). -/
def execDbgRegdataWrite (ini : Init) (v : Word) (s : State) : Host.Outcome State Fault Refusal :=
  if s.fabric then go (regdataWrite s ini v.toNat) else go s

end Sys2Proof.Machine
end

