-- ==== Sys2Proof/Machine/RegTable.lean ====
section
/-! DEFINITION.  The register space as its tables give it: the blocks, the registers of a block, the
instance an access reaches, and what a read or a write does to a field by its access type (R4, R5, R8,
R11–R14, R17, R36–R38). -/

namespace Sys2Proof.Machine

abbrev bSYS := 0
abbrev bPMU := 1
abbrev bFUS := 2
abbrev bTSU := 3
abbrev bCPG := 4
abbrev bQUE := 5
abbrev bTMU := 6
abbrev bPKE := 7
abbrev bTDX := 8
abbrev bCWY := 9
abbrev bHMN := 10
abbrev bMLS := 11
abbrev bDMA := 12
abbrev bHIF := 13
abbrev bDMC := 14
abbrev bCHW := 15
abbrev bSIC := 16
abbrev bCLU := 17

/-- The registers of a block (R36). -/
def regTable (blk : Nat) : List Reg :=
  match blk with
  | 0 => regTable_SYS
  | 1 => regTable_PMU
  | 2 => regTable_FUS
  | 3 => regTable_TSU
  | 4 => regTable_CPG
  | 5 => regTable_QUE
  | 6 => regTable_TMU
  | 7 => regTable_PKE
  | 8 => regTable_TDX
  | 9 => regTable_CWY
  | 10 => regTable_HMN
  | 11 => regTable_MLS
  | 12 => regTable_DMA
  | 13 => regTable_HIF
  | 14 => regTable_DMC
  | 15 => regTable_CHW
  | 16 => regTable_SIC
  | 17 => regTable_CLU
  | _ => []

/-- BLKID of a block: three characters and its number (R36). -/
def blkId (blk : Nat) : Nat :=
  match blk with
  | 0 => 0x53595300
  | 1 => 0x504D5501
  | 2 => 0x46555302
  | 3 => 0x54535503
  | 4 => 0x43504704
  | 5 => 0x51554505
  | 6 => 0x544D5506
  | 7 => 0x504B4507
  | 8 => 0x54445808
  | 9 => 0x43575909
  | 10 => 0x484D4E0A
  | 11 => 0x4D4C530B
  | 12 => 0x444D410C
  | 13 => 0x4849460D
  | 14 => 0x444D430E
  | 15 => 0x4348570F
  | 16 => 0x53494310
  | 17 => 0x434C5511
  | _ => 0

/-- BLKVER of every block (R38, revision B0). -/
def blkVer : Nat := 0x000100B0

/-- The select register of a block: INDEX, SELERR and the number of instances (R11–R13). -/
def selectOf (blk : Nat) : Option (Fld × Fld × Nat) :=
  match blk with
  | 3 => some (F.TSU_SELECT_INDEX, F.TSU_SELECT_SELERR, 65536)
  | 5 => some (F.QUE_SELECT_INDEX, F.QUE_SELECT_SELERR, 256)
  | 6 => some (F.TMU_SELECT_INDEX, F.TMU_SELECT_SELERR, 4)
  | 7 => some (F.PKE_SELECT_INDEX, F.PKE_SELECT_SELERR, 8)
  | 8 => some (F.TDX_SELECT_INDEX, F.TDX_SELECT_SELERR, 128)
  | 9 => some (F.CWY_SELECT_INDEX, F.CWY_SELECT_SELERR, 14)
  | 10 => some (F.HMN_SELECT_INDEX, F.HMN_SELECT_SELERR, 16)
  | 12 => some (F.DMA_SELECT_INDEX, F.DMA_SELECT_SELERR, 32)
  | 15 => some (F.CHW_SELECT_INDEX, F.CHW_SELECT_SELERR, 32768)
  | _ => none

/-- TMU's second select register. -/
def wpSelect : Fld × Fld × Nat := (F.TMU_WPSEL_INDEX, F.TMU_WPSEL_SELERR, 4096)

/-- The instance an initiator has selected in a block. -/
def selected (s : State) (ini : Init) (blk : Nat) : Option Nat :=
  match selectOf blk with
  | some (f, _, n) => selIx s ini f n
  | none => none

/-- The Waypoint an initiator has selected. -/
def selectedWp (s : State) (ini : Init) : Option Nat := selIx s ini wpSelect.1 wpSelect.2.2

/-- A write of a select register by an initiator: its copy takes INDEX, and SELERR if it is out of range
(R12, R13); an initiator without a copy changes nothing (R14). -/
def selectWrite (s : State) (ini : Init) (sel : Fld × Fld × Nat) (v : Nat) : State :=
  match selCopy ini with
  | none => s
  | some k => (s.wr sel.1 k (v % 65536)).wr sel.2.1 k (b2n (decide (sel.2.2 ≤ v % 65536)))

/-- A read of a select register. -/
def selectRead (s : State) (ini : Init) (sel : Fld × Fld × Nat) : Nat :=
  match selCopy ini with
  | none => 0
  | some k => s.rd sel.2.1 k * 65536 + s.rd sel.1 k

/-- The element of a register array at a byte offset of the block. -/
def Reg.at? (r : Reg) (off : Nat) : Option Nat :=
  if r.n ≤ 1 then (if off = r.off then some 0 else none)
  else if r.off ≤ off && (off - r.off) % r.stride == 0 && decide ((off - r.off) / r.stride < r.n) then
    some ((off - r.off) / r.stride)
  else none

/-- The register at an offset, and the element of its array. -/
def findReg (off : Nat) : List Reg → Option (Reg × Nat)
  | [] => none
  | r :: t => match r.at? off with
    | some k => some (r, k)
    | none => findReg off t

/-- The instance of a register an access reaches (R11–R15). -/
def regInst (s : State) (ini : Init) (blk : Nat) (r : Reg) (k : Nat) : Option Nat :=
  match r.kind with
  | .arr => some k
  | .win => (selected s ini blk).map fun i => i * max 1 r.n + k
  | .win2 => (selectedWp s ini).map fun i => i * max 1 r.n + k
  | .priv => selCopy ini

/-- The word of a register's fields as a read returns it (R5). -/
def regWord (s : State) (r : Reg) (i : Nat) : Nat :=
  r.fields.foldl (fun n f => if f.acc = .wo then n else n + s.rd f.fld i * 2 ^ f.lo) 0

/-- The register at an offset of a block, as an initiator's read finds it by the tables alone. -/
def tableRead (s : State) (ini : Init) (blk off : Nat) : Nat :=
  match findReg off (regTable blk) with
  | none => 0
  | some (r, k) => match regInst s ini blk r k with
    | none => 0
    | some i => regWord s r i

/-- What a write of the field's bits x does, for the access types that store (R5, R8, R17). -/
def fieldWrite (s : State) (i : Nat) (f : RegFld) (x : Nat) : State :=
  match f.acc with
  | .rw | .rwh => if f.rsv.any fun r => decide (r.1 ≤ x) && decide (x ≤ r.2) then s else s.wr f.fld i x
  | .w1c => s.wr f.fld i (s.rd f.fld i - Nat.land (s.rd f.fld i) x)
  | .w1s => s.wr f.fld i (Nat.lor (s.rd f.fld i) x)
  | .cnt => if x = 0 then s.wr f.fld i 0 else s
  | .ro | .wo | .ac => s

/-- A write of a word to a register's fields. -/
def regStore (s : State) (r : Reg) (i v : Nat) : State :=
  s.over r.fields fun s f => fieldWrite s i f (bits v (f.lo + f.fld.w - 1) f.lo)

/-- A write of a word to the register at an offset of a block, by the tables alone. -/
def tableWrite (s : State) (ini : Init) (blk off v : Nat) : State :=
  match findReg off (regTable blk) with
  | none => s
  | some (r, k) => match regInst s ini blk r k with
    | none => s
    | some i => regStore s r i v

/-- Is the register at an offset a counter of R17. -/
def isCounter (blk off : Nat) : Bool :=
  match findReg off (regTable blk) with
  | none => false
  | some (r, _) => r.fields.any fun f => f.acc = .cnt

/-- IRQSTAT AND IRQEN of a block: not zero while the block asserts its SIC source. -/
def irqPending (s : State) (blk : Nat) : Bool :=
  Nat.land (tableRead s .host blk 0x8E0) (tableRead s .host blk 0x8E4) != 0

end Sys2Proof.Machine
end

