-- ==== Sys2Proof/Machine/Sic.lean ====
section
/-! DEFINITION.  The interrupt controller: pending sources, the lines of the supervisor cores, claims and
completions (R140, R141). -/

namespace Sys2Proof.Machine

/-- The blocks that assert source 8 b while IRQSTAT AND IRQEN is not zero. -/
def sicBlocks : List Nat := [1, 3, 4, 6, 7, 8, 9, 10, 11, 12, 14]

/-- Is a source asserted: 0 SYS error record, 104 HIF mailbox, 144–159 software, 8 b the interrupt of block
b. -/
def sicPending (s : State) (k : Nat) : Bool :=
  if k = 0 then s.on F.SYS_ERRINFO_VALID
  else if k = 104 then s.on F.HIF_DOORBELL_H2S
  else if 144 ≤ k && k ≤ 159 then bitOf (s.rd F.SIC_SWSRC_SW) (k - 144)
  else k % 8 == 0 && sicBlocks.contains (k / 8) && irqPending s (k / 8)

/-- SIC_PENDw. -/
def sicPendWord (s : State) (w : Nat) : Nat :=
  ((List.range 32).filter fun k => sicPending s (32 * w + k)).foldl setBit 0

/-- SIC_SRC_CFGk as read. -/
def sicCfgWord (s : State) (k : Nat) : Nat :=
  s.rd F.SIC_SRC_CFG_EN k * 2 ^ 31 + b2n (sicPending s k) * 2 ^ 30 + b2n (s.on I.sicOwn k) * 2 ^ 29 +
    s.rd F.SIC_SRC_CFG_TARGET k * 2 ^ 16 + s.rd F.SIC_SRC_CFG_PRIO k

/-- The sources a supervisor core holds in service. -/
def sicHeld (s : State) (n : Nat) : List Nat := (s.nonzero I.sicOwn).filter fun k => s.rd I.sicOwn k == n + 1

/-- Does source k qualify for core n (R140). -/
def sicQualifies (s : State) (n k : Nat) : Bool :=
  s.on F.SIC_SRC_CFG_EN k && bitOf (s.rd F.SIC_SRC_CFG_TARGET k) n && !s.on I.sicOwn k && sicPending s k &&
    decide (s.rd F.SIC_SRC_CFG_PRIO k < min 32 (s.rd F.SIC_THRESH_THRESH n)) &&
    (sicHeld s n).all fun j => decide (s.rd F.SIC_SRC_CFG_PRIO k < s.rd F.SIC_SRC_CFG_PRIO j)

/-- The sources that may qualify: those enabled, in ascending order. -/
def sicEnabled (s : State) : List Nat := (s.nonzero F.SIC_SRC_CFG_EN).filter (decide <| · < 256)

/-- Is the interrupt line of core n asserted. -/
def sicLine (s : State) (n : Nat) : Bool := (sicEnabled s).any (sicQualifies s n)

/-- The qualifying source of lowest PRIO, lowest number first. -/
def sicBest (s : State) (n : Nat) : Option Nat :=
  ((sicEnabled s).filter (sicQualifies s n)).foldl
    (fun m k => match m with
      | none => some k
      | some j => if s.rd F.SIC_SRC_CFG_PRIO k < s.rd F.SIC_SRC_CFG_PRIO j then some k else some j) none

/-- A read of SIC_CLAIMn (R141). -/
def sicClaim (s : State) (n : Nat) : Nat × State :=
  match sicBest s n with
  | none => (0, s)
  | some k => (2 ^ 31 + k, (s.wr I.sicOwn k (n + 1)).wr F.SIC_SRC_CFG_INSVC k 1)

/-- A write of SIC_COMPLETEn (R141). -/
def sicComplete (s : State) (n v : Nat) : State :=
  if s.rd I.sicOwn (v % 256) = n + 1 then (s.wr I.sicOwn (v % 256) 0).wr F.SIC_SRC_CFG_INSVC (v % 256) 0 else s

/-- SIC_CLAIM (R141). -/
def execSicClaim (ini : Init) (n : Fin 4) (s : State) : Host.Outcome State Fault Refusal :=
  if s.fabric then
    let r := sicClaim s n.val
    go (r.2.seen (initCode ini) r.1)
  else go s

/-- SIC_COMPLETE (R141). -/
def execSicComplete (_ini : Init) (n : Fin 4) (v : Word) (s : State) : Host.Outcome State Fault Refusal :=
  if s.fabric then go (sicComplete s n.val v.toNat) else go s

end Sys2Proof.Machine
end

