-- ==== Sys2Proof/Machine/RegBus.lean ====
section
/-! DEFINITION.  Reads and writes of the register space: each register the spec gives a computed value or an
effect of its own, and the tables for the rest (R4–R18, R36–R38); and the commands REGISTER_WRITE,
SELECT_WRITE and COUNTER_CLEAR. -/

namespace Sys2Proof.Machine

/-- An element of an array of n words at `base`, `stride` bytes apart, that lies at an offset. -/
def elemAt (base n stride off : Nat) : Option Nat :=
  if base ≤ off && (off - base) % stride == 0 && decide ((off - base) / stride < n) then some ((off - base) / stride)
  else none

/-- f of the element of an array at an offset, else the alternative. -/
def onElem {α : Type} (e : Option Nat) (f : Nat → α) (d : α) : α :=
  match e with
  | some k => f k
  | none => d

/-- f of the instance an initiator has selected in a block: 0 without one (R13, R14). -/
def onSel (s : State) (ini : Init) (blk : Nat) (f : Nat → Nat) : Nat := onElem (selected s ini blk) f 0

/-- The state after f of the instance an initiator has selected: unchanged without one (R13, R14). -/
def doSel (s : State) (ini : Init) (blk : Nat) (f : Nat → State) : State := onElem (selected s ini blk) f s

/-! ## Reads without effect -/

/-- The HIF doorbells as DBSET and DBCLR read them. -/
def doorbellWord (s : State) : Nat := s.rd F.HIF_DOORBELL_S2H * 2 + s.rd F.HIF_DOORBELL_H2S

/-- TSU (R188, R191, R193, R198, R210). -/
def peekTsu (s : State) (ini : Init) (off : Nat) : Nat :=
  let table := tableRead s ini bTSU off
  if off = 0x11C then onSel s ini bTSU fun t => table + b2n (taskSt s t == tREADY && taskHeld s t) * 64
  else if off = 0x820 then readyCount s fun _ => true
  else if off = 0x824 then readyCount s (s.on F.TSU_T_STAT_URGENT ·)
  else if off = 0x850 then jobFlagsWord s ini
  else onElem (elemAt 0x1000 64 4 off) (coreStatWord s) <| onElem (elemAt 0x1100 64 4 off) (coreResvWord s) table

/-- CPG (R219, R230, R248). -/
def peekCpg (s : State) (ini : Init) (off : Nat) : Nat :=
  let table := tableRead s ini bCPG off
  if off = 0x804 then freePages s
  else if off = 0x808 then table + inflight s
  else if off = 0x870 then (s.nonzero I.frBad).length * 65536 + (s.nonzero I.pgBad).length
  else onElem (elemAt 0x1000 1024 4 off)
    (fun i => putField table 31 29 (frShown s i)) table

/-- QUE (R259, R264). -/
def peekQue (s : State) (ini : Init) (off : Nat) : Nat :=
  if off = 0x100 then onSel s ini bQUE (queueCountWord s)
  else if off = 0x104 then onSel s ini bQUE (queueCmdWord s)
  else onElem (elemAt 0x1000 256 4 off) (queueCountWord s) <|
    onElem (elemAt 0x1400 256 4 off) (queueCmdWord s) (tableRead s ini bQUE off)

/-- TMU (R399, R407, R412). -/
def peekTmu (s : State) (ini : Init) (off : Nat) : Nat :=
  let table := tableRead s ini bTMU off
  if off = 0x104 then
    onSel s ini bTMU fun b => onElem (selCopy ini) (fun k => s.rd F.TMU_TB_FRAC_FRAC (4 * k + b)) 0
  else if off = 0x11C then onSel s ini bTMU (tbStatWord s)
  else onElem (elemAt 0xB00 6 4 off) (fun k => putField table 30 30 (b2n (ioOut s k))) table

/-- PKE (R267, R378, R379). -/
def peekPke (s : State) (ini : Init) (off : Nat) : Nat :=
  if off = 0x80C then cellStatWord s
  else onElem (elemAt 0x880 8 4 off) (fun k => onElem (selCopy ini) (fun c => s.rd I.strmBuf (8 * c + k)) 0)
    (tableRead s ini bPKE off)

/-- Enabled entries of highway h, by direction. -/
def mapEntries (s : State) (h dir : Nat) : Nat :=
  ((s.nonzero F.TDX_MAP_EN).filter fun k => k / 256 == h && s.rd F.TDX_MAP_DIR k == dir).length

/-- TDX (R424). -/
def peekTdx (s : State) (ini : Init) (off : Nat) : Nat :=
  if off = 0x104 then
    onSel s ini bTDX fun h => b2n (hwCfgErr s h) * 2 ^ 31 + mapEntries s h 0 * 65536 + mapEntries s h 1
  else tableRead s ini bTDX off

/-- The time-transfer words of the selected link (R458): those latched for the initiator, past the first. -/
def ttRead (s : State) (ini : Init) (k l : Nat) : Nat :=
  if k = 0 then ttWord s l 0
  else onElem (selCopy ini) (fun c => s.rd I.ttBuf (6 * c + k)) (ttWord s l k)

/-- CWY (R441, R449, R458, R466). -/
def peekCwy (s : State) (ini : Init) (off : Nat) : Nat :=
  if off = 0x110 then onSel s ini bCWY (lStatWord s)
  else if off = 0x810 then s.rd F.CWY_REVT_DEV_DEV (initCode ini)
  else onElem (elemAt 0x120 6 4 off) (fun k => onSel s ini bCWY (ttRead s ini k)) <|
    onElem (elemAt 0x6000 1024 4 off)
      (fun w => ((List.range 32).filter fun k => s.on I.ctxMig (32 * w + k)).foldl setBit 0) (tableRead s ini bCWY off)

/-- MLS (R501, R505). -/
def peekMls (s : State) (ini : Init) (off : Nat) : Nat :=
  if off = 0x810 then putField (tableRead s ini bMLS off) 30 30 (b2n (traceHeld s))
  else if off = 0x900 then dbgStatWord s
  else tableRead s ini bMLS off

/-- The offset in the direct array that a DMA window offset of channel n stands for. -/
def dmaArray (n off : Nat) : Nat := 0x1000 + 0x40 * n + (off - 0x100)

/-- HMN: the conditions of a slice that its configuration and its fill give (R477, R482). -/
def peekHmn (s : State) (ini : Init) (off : Nat) : Nat :=
  let table := tableRead s ini bHMN off
  onElem (elemAt 0x858 4 32 off)
    (fun k => table + b2n (hmChopRip s k) * 2 ^ 27 + b2n (hmFilling s k) * 2 ^ 26) table

/-- DMA (R241, R252). -/
def peekDma (s : State) (ini : Init) (off : Nat) : Nat :=
  if off = 0x800 then dmaBusyWord s
  else if 0x100 ≤ off && off < 0x140 then onSel s ini bDMA fun n => tableRead s ini bDMA (dmaArray n off)
  else tableRead s ini bDMA off

/-- CHW (R218, R222, R238). -/
def peekChw (s : State) (ini : Init) (off : Nat) : Nat :=
  let table := tableRead s ini bCHW off
  if off = 0x10C then onSel s ini bCHW fun cid => table + ctxStatWord s cid
  else onElem (elemAt 0x140 16 4 off) (fun v => onSel s ini bCHW fun cid => mapWord s cid v) table

/-- SIC (R140, R141). -/
def peekSic (s : State) (ini : Init) (off : Nat) : Nat :=
  onElem (elemAt 0x840 8 4 off) (sicPendWord s) <|
    onElem (elemAt 0x1000 256 4 off) (sicCfgWord s) (tableRead s ini bSIC off)

/-- The clusters in which a Dawn sequence is in progress. -/
def dawnMask (s : State) : Nat := ((List.range 8).filter (s.on F.CLU_STAT_DAWN ·)).foldl setBit 0

/-- CLU (R48, R53). -/
def peekClu (s : State) (ini : Init) (off : Nat) : Nat :=
  let table := tableRead s ini bCLU off
  if off = 0x860 then dawnMask s else onElem (elemAt 0x820 8 4 off) (fun c => table + cluBusy s c * 256) table

/-- The word of a register as a read by an initiator returns it, where reading has no effect. -/
def regPeek (s : State) (ini : Init) (blk off : Nat) : Nat :=
  if off = 0 then blkId blk
  else if off = 4 then blkVer
  else match selectOf blk, off with
  | some sel, 0x10 => selectRead s ini sel
  | _, _ =>
    match blk with
    | 0 => if off = 0x80C then s.rd I.strap * 16 + s.mode else tableRead s ini 0 off
    | 3 => peekTsu s ini off
    | 4 => peekCpg s ini off
    | 5 => peekQue s ini off
    | 6 => if off = 0x14 then selectRead s ini wpSelect else peekTmu s ini off
    | 7 => peekPke s ini off
    | 8 => peekTdx s ini off
    | 9 => peekCwy s ini off
    | 10 => peekHmn s ini off
    | 11 => peekMls s ini off
    | 12 => peekDma s ini off
    | 13 => if off = 0x81C || off = 0x820 then doorbellWord s else tableRead s ini 13 off
    | 15 => peekChw s ini off
    | 16 => peekSic s ini off
    | 17 => peekClu s ini off
    | _ => tableRead s ini blk off

/-! ## Reads with an effect -/

/-- A read of CHW_CTLk or CHW_STSk (R238, R239). -/
def chwWindowRead (s : State) (ini : Init) (off : Nat) : Nat × State :=
  match selected s ini bCHW with
  | some cid => chwRead s cid (if off < 0x600 then 0x200 + (off - 0x400) else 0x400 + (off - 0x600))
  | none => (0, s)

/-- SYS_GPIO_IN: a pin the device drives reads as driven; the level of any other is the board's, a free
value. -/
def gpioIn (s : State) : Nat × State :=
  let oe := if s.serving then s.rd F.SYS_GPIO_OE_OE else 0
  let r := s.draw
  (Nat.lor (Nat.land (s.rd F.SYS_GPIO_OUT_OUT) oe) (Nat.land r.1 (65535 - oe)), r.2)

/-- A read of a register (R5). -/
def regRead (s : State) (ini : Init) (blk off : Nat) : Nat × State :=
  let plain := (regPeek s ini blk off, s)
  match blk with
  | 0 => if off = 0x830 then gpioIn s else plain
  | 1 => if off = 0x810 then nwcntLoRead s else plain
  | 3 => onElem (elemAt 0x10000 16384 4 off) (fun k => traceRead s ini (k / 4) (k % 4)) plain
  | 6 => if off = 0x100 then onElem (selected s ini bTMU) (tbNsRead s ini) (0, s) else plain
  | 9 => if off = 0x120 then onElem (selected s ini bCWY) (tt1Read s ini) (0, s) else plain
  | 11 => if off = 0x938 then regdataRead s else plain
  | 15 => if 0x400 ≤ off && off < 0x800 then chwWindowRead s ini off else plain
  | 16 => onElem (elemAt 0x800 4 4 off) (sicClaim s) plain
  | _ => plain

/-! ## Writes -/

/-- PMU. -/
def writePmu (s : State) (ini : Init) (off v : Nat) : State :=
  match off with
  | 0x800 => pmuModeWrite s v
  | 0x830 => cstbankWrite s v
  | 0x844 => avsstatWrite s v
  | 0x850 => pmbcmdWrite s v
  | 0x890 => thermcfgWrite s v
  | _ => tableWrite s ini bPMU off v

/-- FUS; the VFUSE level of a burn is the last one seen. -/
def writeFus (s : State) (ini : Init) (off v : Nat) : State :=
  if off = 0x804 then fusProgWrite s ini (s.on F.FUS_STAT_VFUSEOK) v
  else onElem (elemAt 0x810 6 4 off) (fun k => protectionWrite s k v) (tableWrite s ini bFUS off v)

/-- TSU. -/
def writeTsu (s : State) (ini : Init) (off v : Nat) : State :=
  if 0x100 ≤ off && off < 0x800 then tsuWinWrite s ini off v
  else match off with
    | 0x80C => coreenWrite s false v
    | 0x810 => coreenWrite s true v
    | 0x854 => signalWrite s v
    | 0x88C => if bitOf v 0 then traceClear s else s
    | _ => onElem (elemAt 0x900 32 4 off) (fun b => lvlcfgWrite s b v) (tableWrite s ini bTSU off v)

/-- CPG: MIN2 does not go below 4,096 (R219). -/
def writeCpg (s : State) (ini : Init) (off v : Nat) : State :=
  if off = 0x818 && bits v 16 0 < 4096 then s else tableWrite s ini bCPG off v

/-- QUE. -/
def writeQue (s : State) (ini : Init) (off v : Nat) : State :=
  if off = 0x104 then doSel s ini bQUE fun q => queueCmd s q v
  else onElem (elemAt 0x1400 256 4 off) (fun q => queueCmd s q v) s

/-- The path-step registers of TMU. -/
def writePs (s : State) (ini : Init) (off v : Nat) : State :=
  let p := (off - 0x900) / 32
  match (off - 0x900) % 32 with
  | 0x0 => psCfgWrite s p v
  | 0xC => psPair s p v
  | 0x10 => psStatWrite s p v
  | _ => tableWrite s ini bTMU off v

/-- TMU. -/
def writeTmu (s : State) (ini : Init) (off v : Nat) : State :=
  if 0x200 ≤ off && off < 0x300 then onElem (selectedWp s ini) (fun n => wpWrite s n off v) s
  else if 0x900 ≤ off && off < 0xA00 then writePs s ini off v
  else match off with
    | 0x108 => doSel s ini bTMU fun b => incrLoWrite s ini b v
    | 0x10C => doSel s ini bTMU fun b => incrHiWrite s ini b v
    | 0x110 => doSel s ini bTMU fun b => tbCfgWrite s b v
    | 0x118 => doSel s ini bTMU fun b => tbCmdWrite s b v
    | 0x804 => capallWrite s v
    | _ => onElem (elemAt 0xB00 6 4 off) (fun k => ioCfgWrite s k v) (tableWrite s ini bTMU off v)

/-- PKE. -/
def writePke (s : State) (ini : Init) (off v : Nat) : State :=
  match off with
  | 0x100 => doSel s ini bPKE fun p => portCfgWrite s p v
  | 0x804 => cellRegionWrite s false v
  | 0x808 => cellRegionWrite s true v
  | 0x810 => freeCell s (v % 2 ^ 18)
  | 0x834 => clsCmdWrite s v
  | 0x844 => ksCmdWrite s ini v
  | 0x870 => egpostWrite s ini v false
  | 0x874 => strmselWrite s ini v
  | _ => onElem (elemAt 0x1300 25 4 off) (fun c => cellcfgWrite s c v) <|
      onElem (elemAt 0x2000 16 4 off) (fun k => s.wr I.ksWin k v) (tableWrite s ini bPKE off v)

/-- TDX. -/
def writeTdx (s : State) (ini : Init) (off v : Nat) : State :=
  match off with
  | 0x800 => tdxCtrlWrite s v
  | 0x844 => swapcmdWrite s v
  | _ => onElem (elemAt 0x10000 32768 4 off) (fun k => tdxMapWrite s k v) (tableWrite s ini bTDX off v)

/-- CWY. -/
def writeCwy (s : State) (ini : Init) (off v : Nat) : State :=
  match off with
  | 0x100 => doSel s ini bCWY fun l => lCfgWrite s l v
  | 0x800 => cwCtrlWrite s v
  | 0x810 => s.wr F.CWY_REVT_DEV_DEV (initCode ini) v
  | 0x814 => revtSend s ini v
  | 0x828 => mbsCmdWrite s v
  | 0x84C => raCmdWrite s v
  | 0x850 => fencecmdWrite s v
  | _ => onElem (elemAt 0x3000 64 64 off) (fun m => mCtlWrite s m v) (tableWrite s ini bCWY off v)

/-- A slice register of HMN. -/
def writeSlice (s : State) (ini : Init) (off v : Nat) : State :=
  let k := (off - 0x840) / 32
  match (off - 0x840) % 32 with
  | 0 => slcCfgWrite s k v
  | 4 => muxWrite s k v
  | 8 => slcDemWrite s k v
  | _ => tableWrite s ini bHMN off v

/-- HMN: its chain follows its modes before the write and after. -/
def writeHmn (s : State) (ini : Init) (off v : Nat) : State :=
  let s := hmnModes s
  hmnModes <|
    if 0x840 ≤ off && off < 0x8C0 then writeSlice s ini off v
    else if off = 0x100 then doSel s ini bHMN fun n => snsCfgWrite s n v
    else if 0x104 ≤ off && off < 0x110 then
      doSel s ini bHMN fun n => thrRestart (tableWrite s ini bHMN off v) n
    else if off = 0x804 then hmSync s (v % 16)
    else onElem (elemAt 0x8C0 4 4 off) (fun k => excWrite s (k / 2) (k % 2 == 1) v) (tableWrite s ini bHMN off v)

/-- MLS; the debug registers take writes of the debug port alone (R506). -/
def writeMls (s : State) (ini : Init) (off v : Nat) : State :=
  match off with
  | 0x808 => mlsTrigWrite s v
  | 0x80C => mlsArmWrite s v
  | 0x910 => haltWrite s ini 0 v
  | 0x914 => haltWrite s ini 1 v
  | 0x918 => haltWrite s ini 2 v
  | 0x930 => stepWrite s ini v
  | 0x938 => regdataWrite s ini v
  | _ => if 0x900 ≤ off && off < 0xA00 && decide (ini ≠ .dbg) then s else tableWrite s ini bMLS off v

/-- A DMA register in the direct array. -/
def writeDmaArray (s : State) (ini : Init) (off v : Nat) : State :=
  onElem (elemAt 0x101C 32 64 off) (fun n => dmaCtlWrite s ini n v) (tableWrite s ini bDMA off v)

/-- DMA. -/
def writeDma (s : State) (ini : Init) (off v : Nat) : State :=
  if 0x100 ≤ off && off < 0x140 then doSel s ini bDMA fun n => writeDmaArray s ini (dmaArray n off) v
  else writeDmaArray s ini off v

/-- CHW. -/
def writeChw (s : State) (ini : Init) (off v : Nat) : State :=
  if off = 0x100 then chwCommand s ini v
  else onElem (elemAt 0x400 128 4 off) (fun k => doSel s ini bCHW fun cid => ctlWrite s cid k v)
    (tableWrite s ini bCHW off v)

/-- A write of a register (R5). -/
def regWrite (s : State) (ini : Init) (blk off v : Nat) : State :=
  match selectOf blk, off with
  | some sel, 0x10 => selectWrite s ini sel v
  | _, _ =>
    match blk with
    | 0 => if off = 0x814 then devnumWrite s v else tableWrite s ini bSYS off v
    | 1 => writePmu s ini off v
    | 2 => writeFus s ini off v
    | 3 => writeTsu s ini off v
    | 4 => writeCpg s ini off v
    | 5 => writeQue s ini off v
    | 6 => if off = 0x14 then selectWrite s ini wpSelect v else writeTmu s ini off v
    | 7 => writePke s ini off v
    | 8 => writeTdx s ini off v
    | 9 => writeCwy s ini off v
    | 10 => writeHmn s ini off v
    | 11 => writeMls s ini off v
    | 12 => writeDma s ini off v
    | 13 =>
      if off = 0x81C then dbSet s (bitOf v 0) (bitOf v 1)
      else if off = 0x820 then dbClr s (bitOf v 0) (bitOf v 1)
      else if off = 0x800 then perstSeen (tableWrite s ini bHIF off v)
      else tableWrite s ini bHIF off v
    | 14 => if off = 0x804 then dmcCtrlWrite s v else tableWrite s ini bDMC off v
    | 15 => writeChw s ini off v
    | 16 => onElem (elemAt 0x810 4 4 off) (fun n => sicComplete s n v) (tableWrite s ini bSIC off v)
    | 17 => if off = 0x860 then cluWakeWrite s v else tableWrite s ini bCLU off v
    | _ => tableWrite s ini blk off v

/-! ## Accesses of the register space (R4, R47) -/

/-- An access to the register space by an initiator: a size other than a word, or an unaligned one, has no
effect and reads as zero (R4); an access by a supervisor core restores its clock (R47). -/
def spaceRead (s : State) (ini : Init) (blk off size : Nat) : Nat × State :=
  if size = 4 && off % 4 == 0 then regRead (svcFullClock s ini) ini blk off else (0, svcFullClock s ini)

/-- A write of it. -/
def spaceWrite (s : State) (ini : Init) (blk off size v : Nat) : State :=
  if size = 4 && off % 4 == 0 then regWrite (svcFullClock s ini) ini blk off (v % 2 ^ 32) else svcFullClock s ini

/-- REGISTER_WRITE (R4, R5, R8). -/
def execRegisterWrite (ini : Init) (blk : Fin 18) (off : BitVec 20) (size : Nat) (v : BitVec 64) (s : State) :
    Host.Outcome State Fault Refusal :=
  if s.fabric then go (spaceWrite s ini blk.val off.toNat size v.toNat) else go s

/-- SELECT_WRITE (R11–R14); `wp` names TMU's second select register. -/
def execSelectWrite (ini : Init) (blk : Fin 18) (wp : Bool) (v : Word) (s : State) : Host.Outcome State Fault Refusal :=
  if s.fabric then go (regWrite s ini blk.val (if wp then 0x14 else 0x10) v.toNat) else go s

/-- COUNTER_CLEAR (R17). -/
def execCounterClear (ini : Init) (blk : Fin 18) (off : BitVec 20) (v : Word) (s : State) :
    Host.Outcome State Fault Refusal :=
  if s.fabric && isCounter blk.val off.toNat then go (regWrite s ini blk.val off.toNat v.toNat) else go s

end Sys2Proof.Machine
end

