-- ==== Sys2Proof/Machine/Bus.lean ====
section
/-! DEFINITION.  Accesses to the physical address space: the map, the protection classes, local windows, the
register space, and the commands HOST_ACCESS and DBGACC (R30–R35, R86–R89, R92, R100, R240, R504). -/

namespace Sys2Proof.Machine

/-! ## The address map (R30–R35) -/

/-- What an address reaches: a memory, a signal core's window, a supervisor core's window, a register block,
DRAM, or nothing. -/
inductive Place where
  | cst | pks | sym | code
  | local (core ofs : Nat)
  | svcLocal (core ofs : Nat)
  | reg (blk off : Nat)
  | dram
  | nothing
  deriving DecidableEq, Repr

/-- The DRAM region decodes below SIZE GB, once it is ready (R32, R250). -/
def dramDecodes (s : State) (a : Nat) : Bool :=
  s.on F.DMC_STAT_READY && decide (a < 0x100000000 + s.rd F.DMC_CFG_SIZE * 0x40000000)

/-- The place of a physical address. -/
def place (s : State) (a : Nat) : Place :=
  if a < 0x8000000 then .cst
  else if 0x10000000 ≤ a && a < 0x12000000 then .pks
  else if 0x20000000 ≤ a && a < 0x20800000 then .sym
  else if 0x21000000 ≤ a && a < 0x21400000 then .code
  else if 0x30000000 ≤ a && a < 0x31000000 then .local ((a - 0x30000000) / 0x40000) ((a - 0x30000000) % 0x40000)
  else if 0x31000000 ≤ a && a < 0x31400000 then .svcLocal ((a - 0x31000000) / 0x100000) ((a - 0x31000000) % 0x100000)
  else if 0xF0000000 ≤ a && a < 0xF1200000 then .reg ((a - 0xF0000000) / 0x100000) ((a - 0xF0000000) % 0x100000)
  else if 0x100000000 ≤ a && a < 0x900000000 && dramDecodes s a then .dram
  else .nothing

/-- The protection region of a place (R87). -/
def Place.region : Place → Nat
  | .cst => 0
  | .pks => 1
  | .sym => 2
  | .code => 3
  | .local _ _ => 4
  | .svcLocal _ _ => 5
  | .reg blk off => if blk = bFUS then 8 else if blk = bPKE && decide (0x2000 ≤ off) && decide (off < 0x2040) then 9 else 6
  | .dram => 7
  | .nothing => 10

/-! ## Protection (R86–R89) -/

/-- The rights of an initiator's class, and whether it is a signal core's; none for the unchecked. -/
def classOf (s : State) : Init → Option (Nat × Bool)
  | .sgc _ => some (s.rd F.FUS_PMSGC_RIGHTS, true)
  | .host => some (s.rd F.FUS_PMHOST_RIGHTS, false)
  | .dbg => some (s.rd F.FUS_PMDBG_RIGHTS, false)
  | .racc => some (s.rd F.FUS_PMCWY_RIGHTS, false)
  | .dma n =>
    match s.rd F.DMA_C_STAT_CLASS n.val with
    | 1 => some (s.rd F.FUS_PMSGC_RIGHTS, true)
    | 2 => some (s.rd F.FUS_PMHOST_RIGHTS, false)
    | 3 => some (s.rd F.FUS_PMDBG_RIGHTS, false)
    | 4 => some (s.rd F.FUS_PMCWY_RIGHTS, false)
    | _ => none
  | _ => none

/-- Has an initiator the right of an access to a region. -/
def allowed (s : State) (ini : Init) (region : Nat) (write : Bool) : Bool :=
  match classOf s ini with
  | none => true
  | some (rights, core) =>
    bitOf rights (2 * region + b2n write) && !(region == 9 && !write) &&
      !(core && (region == 5 || region == 8 || region == 9))

/-- How an access ends: done, refused by the protection map, or not decoded. -/
inductive Ending where
  | ok | prot | decode
  deriving DecidableEq, Repr

/-- The ending of an access of n bytes at an address, before it is made. -/
def ending (s : State) (ini : Init) (a n : Nat) (write : Bool) : Ending :=
  let p := place s a
  if p = .nothing || (place s (a + n - 1)).region != p.region then .decode
  else if allowed s ini p.region write then .ok else .prot

/-- SYS records an access that was refused or not decoded (R31, R89). -/
def endingRecord (s : State) (ini : Init) (a : Nat) (write : Bool) : Ending → State
  | .ok => s
  | .prot => s.recordErr ini 1 write a
  | .decode => s.recordErr ini 0 write a

/-! ## Memory -/

/-- The bytes of a signal core's window that are X or Y memory (R33). -/
def inFrames (ofs : Nat) : Bool := ofs < 0x8000 || (0x10000 ≤ ofs && ofs < 0x18000)

/-- Transfers of CPG in flight on a CST page complete first, and the bank wakes (R55, R229). -/
def cstReady (s : State) (a : Nat) : State :=
  let s := cstTouch s a
  if s.on I.pgUse (a / 4096) then
    let e := s.rd I.pgUse (a / 4096) - 1
    settlePage s (e / 16) (e % 16)
  else s

/-- A read of a memory place: a bank that is OFF has no contents, and the instruction-cache array no layout
that the spec gives: free values. -/
def placeRead (s : State) (ini : Init) (a n : Nat) : Place → Nat × State
  | .cst => if bankMode s (a / 0x800000) == 3 then (s.draw.1 % 256 ^ n, s.draw.2)
      else ((cstReady s a).readLE a n, cstReady s a)
  | .pks | .sym | .code | .dram => (s.readLE a n, s)
  | .local _ ofs =>
    if inFrames ofs then (s.readLE a n, s)
    else if 0x20000 ≤ ofs && ofs < 0x2C000 then (s.draw.1 % 256 ^ n, s.draw.2) else (0, s)
  | .svcLocal _ ofs => (if ofs < 0x20000 then s.readLE a n else 0, s)
  | .reg blk off => spaceRead s ini blk off n
  | .nothing => (0, s)

/-- Lines of the code store that a write to [a, a+n) touches leave every signal-core instruction cache
(R100). -/
def dropLines (s : State) (a n : Nat) : State :=
  s.over ((List.range 64).filter fun c => !(Tbl.get [] s.iLines c).isEmpty) fun s c =>
    let kept := (Tbl.get [] s.iLines c).filter fun l => !(decide (l < a + n) && decide (a < l + 64))
    { s with iLines := Tbl.put [] c kept s.iLines }

/-- Does a write by this initiator to CST act on the frame copies of the page (R240). -/
def actsOnCopies : Init → Bool
  | .svc _ | .host | .dbg | .dma _ | .racc => true
  | _ => false

/-- A write to CST: the copies of its page follow (R240); a bank that is OFF holds nothing. -/
def cstWrite (s : State) (ini : Init) (a : Nat) (b : List Byte) : State :=
  if bankMode s (a / 0x800000) == 3 then s
  else
    let s := physWrite (cstReady s a) a b
    if actsOnCopies ini then cstWritten s (a / 4096) else s

/-- A write to a place; the windows of signal cores take only the debug port's, to a halted core (R34). -/
def placeWrite (s : State) (ini : Init) (a : Nat) (b : List Byte) : Place → State
  | .cst => cstWrite s ini a b
  | .pks | .sym | .dram => physWrite s a b
  | .code => dropLines (physWrite s a b) a b.length
  | .local core ofs => if ini = .dbg && halted s core && inFrames ofs then physWrite s a b else s
  | .svcLocal _ ofs => if ofs < 0x20000 then physWrite s a b else s
  | .reg blk off => spaceWrite s ini blk off b.length (ofLE b)
  | .nothing => s

/-! ## Accesses -/

/-- A read of n bytes by an initiator: its ending, the value (0 unless it is done), the state. -/
def busRead (s : State) (ini : Init) (a n : Nat) : Ending × Nat × State :=
  match ending s ini a n false with
  | .ok => (.ok, placeRead s ini a n (place s a))
  | e => (e, 0, endingRecord s ini a false e)

/-- A write of a byte string by an initiator. -/
def busWrite (s : State) (ini : Init) (a : Nat) (b : List Byte) : Ending × State :=
  match ending s ini a b.length true with
  | .ok => (.ok, placeWrite s ini a b (place s a))
  | e => (e, endingRecord s ini a true e)

/-! ## The host (R92) -/

/-- The address a BAR offset reaches. -/
def barAddr (s : State) (bar2 : Bool) (off : Nat) : Nat :=
  if bar2 then s.rd F.HIF_BAR2BASE_BASE * 0x100000 + off else 0xF0000000 + off

/-- Is an access through BAR2 within the PMBAR2 bounds. -/
def inBar2 (s : State) (a n : Nat) : Bool :=
  decide (s.rd F.FUS_PMBAR2_LO * 0x10000 ≤ a) && decide (a + n - 1 ≤ s.rd F.FUS_PMBAR2_HI * 0x10000 + 0xFFFF) &&
    decide (a + n ≤ 0x100000000)

/-- A host access. -/
def hostAccess (s : State) (bar2 : Bool) (off : Nat) (write : Bool) (size v : Nat) : State :=
  let a := barAddr s bar2 off
  if bar2 && !inBar2 s a size then
    let s := s.recordErr .host 1 write a
    if write then s else s.seen (initCode .host) 0
  else if write then (busWrite s .host a (leBytes size v)).2
  else
    let r := busRead s .host a size
    r.2.2.seen (initCode .host) r.2.1

/-- HOST_ACCESS (R92, R532): the host reaches the device while the link is up. -/
def execHostAccess (bar2 : Bool) (off : BitVec 25) (write : Bool) (size : Nat) (v : BitVec 64) (s : State) :
    Host.Outcome State Fault Refusal :=
  if s.fabric && s.on F.HIF_LINKSTAT_UP && decide (1 ≤ size) then go (hostAccess s bar2 off.toNat write size v.toNat)
  else go s

/-! ## The debug port (R504) -/

/-- The STATUS of a debug access. -/
def dbgStatusOf : Ending → Nat
  | .ok => 0
  | _ => 2

/-- DBGACC (R502, R504): at Update-DR, with the instruction selected and available; without the fabric clock
no access is made. -/
def execDbgacc (op : BitVec 2) (addr : PAddr) (v : Word) (s : State) : Host.Outcome State Fault Refusal :=
  if s.rd I.dbgIr != 0x20 || !s.fabric then go s
  else if !dbgAvail s then go (s.set I.dbgStatus 3)
  else if op = 2#2 then
    let r := busWrite s .dbg addr.toNat (leBytes 4 v.toNat)
    go (r.2.set I.dbgStatus (dbgStatusOf r.1))
  else if op = 1#2 then
    let r := busRead s .dbg addr.toNat 4
    go (((r.2.2.set I.dbgStatus (dbgStatusOf r.1)).set I.dbgData r.2.1).seen (initCode .dbg) r.2.1)
  else go s

end Sys2Proof.Machine
end

