-- ==== Sys2Proof/Machine/CwyRx.lean ====
section
/-! DEFINITION.  Received Causeway frames: their checks, their place in the link's sequence, routing, and what
each type does at the device that consumes it (R441–R447, R449–R456, R458, R461, R468); and received
Ethernet frames, tunnel frames among them (R366). -/

namespace Sys2Proof.Machine

/-! ## The frames a device consumes -/

/-- A LINK frame: the peer's number and epoch; a link in HELLO may come UP (R441, R443, R444). -/
def linkTake (s : State) (l : Nat) (f : CwFrame) : State :=
  let s := (s.wr F.CWY_L_STAT_DNV l (byteAt f.payload 0 / 128)).wr F.CWY_L_STAT_PEERDEV l (beAt f.payload 2 2 % 2048)
  cwHello ((s.wr F.CWY_L_PEEREPOCH_EPOCH l f.epoch).wr I.cwGot l 1) l

/-- Is TIME frame k of this device among the 16 whose stamps link l keeps. -/
def timeKept (s : State) (l k : Nat) : Bool :=
  let age := (s.rd I.tmSeq l + 65536 - k % 65536) % 65536
  decide (1 ≤ age) && decide (age ≤ 16)

/-- The set t1–t4 that the arrival of frame j + 1, with payload p, completes (R458). -/
def timeLatch (s : State) (l : Nat) (p : List Byte) : State :=
  let k := 16 * l + s.rd I.tmOurs l % 16
  let s := (s.wr F.CWY_L_TT_VALUE (4 * l) (s.rd I.tmTxNs k)).wr F.CWY_L_TT_VALUE (4 * l + 1) (s.rd I.tmT2 l)
  let s := (s.wr F.CWY_L_TT_VALUE (4 * l + 2) (beAt p 8 4)).wr F.CWY_L_TT_VALUE (4 * l + 3) (s.rd I.tmRxNs l)
  let s := s.wr F.CWY_L_TTFRAC_VALUE l (s.rd I.tmTxFr k * 2 ^ 24 + s.rd I.tmT2Fr l * 2 ^ 16 + byteAt p 13 * 256 +
    s.rd I.tmRxFr l)
  s.wr F.CWY_L_TTSEQ_VALUE l (2 ^ 31 + (s.rd F.CWY_L_TTSEQ_VALUE l + 1) % 65536)

/-- A TIME frame whose start came `sub` 1/256 ns after the last tick (R457, R458). -/
def timeTake (s : State) (l sub : Nat) (p : List Byte) : State :=
  let st := rxStamp s (stampPlace s l) (s.rd F.CWY_L_CFG_TTB l) sub
  let next := s.on I.tmHave l && beAt p 0 2 == (s.rd I.tmRxSeq l + 1) % 65536 && timeKept s l (s.rd I.tmOurs l)
  let s := if next then timeLatch s l p else s
  let s := ((s.wr I.tmRxSeq l (beAt p 0 2)).wr I.tmRxNs l (st / 256)).wr I.tmRxFr l (st % 256)
  let s := ((s.wr I.tmOurs l (beAt p 2 2)).wr I.tmT2 l (beAt p 4 4)).wr I.tmT2Fr l (byteAt p 12)
  s.wr I.tmHave l 1

/-- A message for the mailbox ring, from a device with an epoch (R450). -/
def mboxTake (s : State) (src epoch : Nat) (msg : List Byte) : State :=
  let a := ringPlace (s.rd F.CWY_MBR_BASE_BASE) (s.rd F.CWY_MBR_CFG_SIZE) (s.rd F.CWY_MBR_WP_WP) (s.rd F.CWY_MBR_RP_RP) 256
  match if s.on F.FUS_PMMISC_RMBOX && decide (msg.length ≤ 240) then a else none with
  | none => cwCnt s 5
  | some a =>
    let s := physWrite s a (leBytes 4 (msg.length * 65536 + src) ++ leBytes 4 epoch ++ leBytes 4 (s.rd F.TMU_TB_NS_NS 0) ++
      [0, 0, 0, 0] ++ msg)
    (s.set F.CWY_MBR_WP_WP (s.rd F.CWY_MBR_WP_WP + 1)).set F.CWY_IRQSTAT_MBRX 1

/-- The STATUS of a remote access. -/
def raccStatus : Ending → Nat
  | .ok => 0
  | .prot => 1
  | .decode => 2

/-- A RACC frame: the access under class PMCWY, and the answer (R451). -/
def raccTake (s : State) (src : Nat) (p : List Byte) : State :=
  let a := byteAt p 7 * 2 ^ 32 + beAt p 8 4
  let answer := fun (s : State) e v =>
    cwSend s 0 cwRRSP src (beBytes 4 (raccStatus e * 2 ^ 24 + beAt p 2 2) ++ beBytes 4 v)
  if bitOf (byteAt p 0) 7 then
    let r := busWrite s .racc a (leBytes 4 (beAt p 12 4))
    answer r.2 r.1 0
  else
    let r := busRead s .racc a 4
    answer r.2.2 r.1 r.2.1

/-- A FENCE frame (R452). -/
def fenceTake (s : State) : State := if s.on F.FUS_PMMISC_RFENCE then enterFenced s 7 else cwCnt s 7

/-- The UDP payload of a forwarded frame: past its tag, IP header and UDP header. -/
def udpPayload (b : List Byte) : List Byte :=
  let k := if beAt b 12 2 = 0x8100 then 18 else 14
  let u := if beAt b (k - 2) 2 = 0x0800 then k + 20 else k + 40
  ((b.drop u).take (beAt b (u + 4) 2)).drop 8

/-- A PKTFWD frame: step 5 of R366 as port 8, charged to consumer 24 (R454).  Which queue takes a frame that
no entry matches the spec leaves open: a free value. -/
def pktfwdTake (s : State) (p : List Byte) : State :=
  let b := p.drop 16
  match takeCells s 24 ((b.length + 255) / 256) with
  | none => s
  | some (cells, t) =>
    classify (storeCells t.draw.2 b cells) ⟨8, beAt p 8 4 * 256, beAt p 8 4, cells, b⟩ (byteAt p 1 % 16) (beAt p 2 2)
      (t.draw.1 % 16) (udpPayload b)

/-- One entry of a BRIDGE frame: bridge b receives a slot (R455, R456). -/
def bridgeSlot (s : State) (b : Nat) (wb : Bool) (slot : List Byte) : State :=
  let m := s.rd F.TDX_BLKCNT_BLOCK
  let n := if wb then 64 else 32
  let ring := s.rd F.CWY_BR_CFG_RING b
  if s.on F.CWY_BR_CFG_EN b && s.on F.CWY_BR_CFG_WB b == wb then
    match s.rd F.CWY_BR_CFG_KIND b with
    | 2 => physWrite s (rxRing ring + n * (m % 4)) slot
    | 3 => physWrite s (txRing ring + n * ((m + 1) % 4)) slot
    | _ => cwCnt s 4
  else cwCnt s 4

/-- The entries of a BRIDGE frame, at most `fuel` of them. -/
def bridgeTake (s : State) (p : List Byte) : Nat → State
  | 0 => s
  | fuel + 1 =>
    let wb := bitOf (beAt p 0 4) 15
    let n := if wb then 68 else 36
    if p.length < n then s
    else bridgeTake (bridgeSlot s (beAt p 0 4 % 1024) wb ((p.take n).drop 4)) (p.drop n) fuel

/-- A BOOT frame (R468): data for a device that boots over Causeway; a REQUEST is a message with source device
0 at any other. -/
def bootFrame (s : State) (f : CwFrame) : State :=
  if cwBooting s then bootTake s f.payload
  else if beAt f.payload 0 4 = 0 then mboxTake s 0 f.epoch f.payload
  else s

/-- A frame that the device consumes. -/
def cwConsume (s : State) (l sub : Nat) (f : CwFrame) : State :=
  match f.type with
  | 0 => linkTake s l f
  | 1 => timeTake s l sub f.payload
  | 2 => bridgeTake s f.payload 64
  | 3 => migpageRx s f.src f.payload
  | 4 => migctlRx s f.src f.payload
  | 5 => pktfwdTake s f.payload
  | 6 => signalWrite s (beAt f.payload 0 4)
  | 7 => mboxTake s f.src f.epoch f.payload
  | 8 => raccTake s f.src f.payload
  | 9 => rrspRx s f.payload
  | 10 => fenceTake s
  | 11 => mlstoneReceive s f.src (beAt f.payload 2 2)
  | 12 => bootFrame s f
  | _ => s

/-! ## Routing (R445, R446) -/

/-- The sequenced frame that was expected has its place. -/
def cwAdvance (s : State) (l : Nat) (f : CwFrame) : State :=
  if cwSequenced f.type then s.wr I.cwRx l (s.rd I.cwRx l + 1) else s

/-- A frame for another device, sent on the link of its route; a sequenced frame that finds no room is not
accepted, and comes again. -/
def cwForward (s : State) (l : Nat) (f : CwFrame) : State :=
  let k := s.rd F.CWY_ROUTE_LINK f.dst
  if f.hops = 0 || !s.on F.CWY_ROUTE_VALID f.dst || decide (14 ≤ k) then cwCnt (cwAdvance s l f) 10
  else if !cwUp s k then cwAdvance s l f
  else if cwRoom s k < f.payload.length then
    if f.type = cwPKTFWD then cwCnt s 8 else cwAdvance s l f
  else if cwSequenced f.type && !(replayRoom s k f && (linkOf s k).waiting.isEmpty) then s
  else cwGive (cwAdvance s l f) k 0 { f with hops := f.hops - 1 }

/-- A frame in its place on the link: rejected by epoch, discarded by a device without a number, consumed, or
routed (R444, R446). -/
def cwRouteFrame (s : State) (l sub : Nat) (f : CwFrame) : State :=
  if cwLocal f.type then cwConsume s l sub f
  else if f.epoch != s.rd F.CWY_EPOCH_EPOCH then (cwCnt (cwAdvance s l f) 1).set F.CWY_IRQSTAT_EPOCH 1
  else if !cwUp s l || !devLocked s then cwAdvance s l f
  else if f.dst = ownDev s then cwConsume (cwAdvance s l f) l sub f
  else cwForward s l f

/-! ## Checks (R442–R444) -/

/-- A frame of a link out of its bytes. -/
def cwParse (b : List Byte) : CwFrame :=
  ⟨byteAt b 0 % 16, beAt b 1 3 / 2048 % 2048, beAt b 2 2 % 2048, beAt b 4 4, byteAt b 12 / 16, (b.drop 16).take (b.length - 20)⟩

/-- LEN of a frame. -/
def cwLen (b : List Byte) : Nat := beAt b 14 2 % 8192

/-- The bytes of a frame without the padding of its Ethernet frame, which only a tunnel has. -/
def cwTrim (l : Nat) (b : List Byte) : List Byte := if isTunnel l then b.take (20 + cwLen b) else b

/-- A frame discarded under R444. -/
def cwBad (s : State) (l : Nat) (crc : Bool) : State :=
  (if crc then linkCnt s l 2 else cwCnt s 9).set F.CWY_IRQSTAT_EPOCH 1

/-- A frame arrives on link l: its start `sub` 1/256 ns after the last tick. -/
def cwReceive (s : State) (l sub : Nat) (b : List Byte) : State :=
  let b := cwTrim l b
  let body := b.take (b.length - 4)
  if s.rd F.CWY_L_STAT_STATE l < ckHELLO then s
  else if b.length < 20 then cwBad s l false
  else if b.drop (b.length - 4) != beBytes 4 (crc32 body) then cwBad s l true
  else if byteAt b 0 / 16 != 1 || decide (4112 < cwLen b) || b.length != 20 + cwLen b then cwBad s l false
  else
    let f := cwParse b
    let s := linkCnt s l 1
    if 13 ≤ f.type then cwCnt s 9
    else
      let s := cwAck s l (beAt b 10 2)
      if cwSequenced f.type && beAt b 8 2 != s.rd I.cwRx l then s
      else cwRouteFrame s l sub f

/-- Is a byte string a frame of a type, and for MIGCTL of an OP. -/
def isFrame (b : List Byte) (t : Nat) : Bool := byteAt b 0 % 16 == t
def isMigctl (b : List Byte) (op : Nat) : Bool := isFrame b cwMIGCTL && byteAt b 16 == op

/-! ## Commands -/

/-- CW_FRAME_RECEIVE (R444). -/
def execCwFrameReceive (l : Fin 14) (b : List Byte) (sub : BitVec 9) (s : State) : Host.Outcome State Fault Refusal :=
  go (cwReceive s l.val sub.toNat b)

/-- A frame of one kind arrives: every command below is CW_FRAME_RECEIVE for that kind alone. -/
def cwReceiveIf (ok : Bool) (s : State) (l sub : Nat) (b : List Byte) : State := if ok then cwReceive s l sub b else s

/-- LINK_RX (R441). -/
def execLinkRx (l : Fin 14) (b : List Byte) (s : State) : Host.Outcome State Fault Refusal :=
  go (cwReceiveIf (isFrame b cwLINK) s l.val 0 b)

/-- TIME_RX (R458). -/
def execTimeRx (l : Fin 14) (b : List Byte) (sub : BitVec 9) (s : State) : Host.Outcome State Fault Refusal :=
  go (cwReceiveIf (isFrame b cwTIME) s l.val sub.toNat b)

/-- EVENT_RX (R449). -/
def execEventRx (l : Fin 14) (b : List Byte) (s : State) : Host.Outcome State Fault Refusal :=
  go (cwReceiveIf (isFrame b cwEVENT) s l.val 0 b)

/-- MBOX_RX (R450). -/
def execMboxRx (l : Fin 14) (b : List Byte) (s : State) : Host.Outcome State Fault Refusal :=
  go (cwReceiveIf (isFrame b cwMBOX) s l.val 0 b)

/-- RACC_RX (R451). -/
def execRaccRx (l : Fin 14) (b : List Byte) (s : State) : Host.Outcome State Fault Refusal :=
  go (cwReceiveIf (isFrame b cwRACC) s l.val 0 b)

/-- RRSP_RX (R451). -/
def execRrspRx (l : Fin 14) (b : List Byte) (s : State) : Host.Outcome State Fault Refusal :=
  go (cwReceiveIf (isFrame b cwRRSP) s l.val 0 b)

/-- FENCE_RX (R452). -/
def execFenceRx (l : Fin 14) (b : List Byte) (s : State) : Host.Outcome State Fault Refusal :=
  go (cwReceiveIf (isFrame b cwFENCE) s l.val 0 b)

/-- PKTFWD_RX (R454). -/
def execPktfwdRx (l : Fin 14) (b : List Byte) (s : State) : Host.Outcome State Fault Refusal :=
  go (cwReceiveIf (isFrame b cwPKTFWD) s l.val 0 b)

/-- BRIDGE_RX (R456). -/
def execBridgeRx (l : Fin 14) (b : List Byte) (s : State) : Host.Outcome State Fault Refusal :=
  go (cwReceiveIf (isFrame b cwBRIDGE) s l.val 0 b)

/-- MIGPAGE_RX (R463). -/
def execMigpageRx (l : Fin 14) (b : List Byte) (s : State) : Host.Outcome State Fault Refusal :=
  go (cwReceiveIf (isFrame b cwMIGPAGE) s l.val 0 b)

/-- PCDONE (R463). -/
def execPcdone (l : Fin 14) (b : List Byte) (s : State) : Host.Outcome State Fault Refusal :=
  go (cwReceiveIf (isMigctl b opPCDONE) s l.val 0 b)

/-- ARMED (R462). -/
def execArmed (l : Fin 14) (b : List Byte) (s : State) : Host.Outcome State Fault Refusal :=
  go (cwReceiveIf (isMigctl b opARMED) s l.val 0 b)

/-- COMMIT (R463, R464). -/
def execCommit (l : Fin 14) (b : List Byte) (s : State) : Host.Outcome State Fault Refusal :=
  go (cwReceiveIf (isMigctl b opCOMMIT) s l.val 0 b)

/-- COMMITACK (R462). -/
def execCommitack (l : Fin 14) (b : List Byte) (s : State) : Host.Outcome State Fault Refusal :=
  go (cwReceiveIf (isMigctl b opCOMMITACK) s l.val 0 b)

/-- MIG_ABORT_RX (R463). -/
def execMigAbortRx (l : Fin 14) (b : List Byte) (s : State) : Host.Outcome State Fault Refusal :=
  go (cwReceiveIf (isMigctl b opABORT) s l.val 0 b)

/-- BOOT_RX (R468). -/
def execBootRx (l : Fin 14) (b : List Byte) (s : State) : Host.Outcome State Fault Refusal :=
  go (cwReceiveIf (isFrame b cwBOOT) s l.val 0 b)

/-! ## Ethernet frames (R366, R447) -/

/-- The tunnel link a frame from port p with a source MAC matches. -/
def tunnelOf (s : State) (p mac : Nat) : Option Nat :=
  [6, 7, 8, 9, 10, 11, 12, 13].find? fun l =>
    s.on F.CWY_L_CFG_EN l && s.rd F.CWY_L_CFG_PORT l == p &&
      s.rd F.CWY_L_PEERMAC_HI_MAC l * 2 ^ 32 + s.rd F.CWY_L_PEERMAC_LO_MAC l == mac

/-- A frame under EtherType PKE_CWETYPE is given to CWY. -/
def tunnelTake (s : State) (p sub : Nat) (b : List Byte) : State :=
  match tunnelOf s p (beAt b 6 6) with
  | some l => cwReceive s l sub (b.drop (if beAt b 12 2 = 0x8100 then 18 else 14))
  | none => cwCnt s 6

/-- FRAME_RECEIVE (R364, R366, R367): a frame with its FCS on port p, whose start comes `sub` 1/256 ns after
the last tick; whether the PCS saw a bad symbol, the parser's backlog is full, a cell had an ECC error. -/
def execFrameReceive (p : Fin 8) (b : List Byte) (sub : BitVec 9) (symErr backlog ecc : Bool) (s : State) :
    Host.Outcome State Fault Refusal :=
  if s.on F.PKE_CTRL_RUN && s.on F.PKE_P_STAT_UP p.val then
    match admitFrame s p.val sub.toNat b symErr backlog ecc with
    | (t, none) => go t
    | (t, some f) =>
      match parseFrame t p.val f.bytes with
      | .tunnel => go (tunnelTake (freeCells t f.cells) p.val sub.toNat f.bytes)
      | q => go (actParsed t f q)
  else go s

end Sys2Proof.Machine
end

