-- ==== Sys2Proof/Machine/DmaBurst.lean ====
section
/-! DEFINITION.  The bursts of the DMA channels (R105, R241–R243). -/

namespace Sys2Proof.Machine

/-- The ranges of R105 outside the context view: does a virtual address reach the physical address of the
same number. -/
def virtualRange (v : Nat) : Bool :=
  (0x10000000 ≤ v && v < 0x12000000) || (0x20000000 ≤ v && v < 0x20800000) ||
    (0x21000000 ≤ v && v < 0x21400000) || (0x30000000 ≤ v && v < 0x31400000) || (0xF0000000 ≤ v && v < 0xF1200000)

/-- What one side of a channel reaches at an address: a physical address, to be checked under the channel's
class or not; a page the channel waits for; or an error. -/
inductive Side where
  | at (a : Nat) (checked : Bool)
  | wait (cid v : Nat)
  | error (code : Nat)
  deriving DecidableEq, Repr

/-- The context-view side of channel n (R242, R243, R246). -/
def viewSide (s : State) (n v : Nat) : Side :=
  let cid := s.rd I.dCtx n % 32768
  let page := v / 4096
  if !bitOf (s.rd I.dCtx n) 15 then .error 1
  else if ctxState s cid == cQUAR then .error 4
  else if notPresent s cid page then .error 2
  else if dmaMustWait s cid page then .wait cid page
  else .at (pageAddr s cid page + v % 4096) false

/-- A side at an address. -/
def side (s : State) (n : Nat) (physical : Bool) (a : Nat) : Side :=
  if physical then .at a true
  else if 2 ^ 32 ≤ a then .error 1
  else if a < 0x10000 then viewSide s n a
  else if virtualRange a then .at a true
  else .error 1

/-- The ending of a side's accesses. -/
def sideEnding (s : State) (n : Fin 32) (a : Nat) (checked write : Bool) : Ending :=
  if checked then ending s (.dma n) a 4 write else .ok

/-- The ERR code of an ending. -/
def dmaErr : Ending → Nat
  | .ok => 0
  | .prot => 3
  | .decode => 1

/-- The length of the burst at an offset: at most 256 bytes, within a page on either side (R242). -/
def burstLen (src dst left : Nat) : Nat := min (min 256 left) (min (4096 - src % 4096) (4096 - dst % 4096))

/-- Words read in order from an address; each with the state it leaves. -/
def burstRead (s : State) (n : Fin 32) (a : Nat) : Nat → List Byte × State
  | 0 => ([], s)
  | k + 1 =>
    let r := placeRead s (.dma n) a 4 (place s a)
    let t := burstRead r.2 n (a + 4) k
    (leBytes 4 r.1 ++ t.1, t.2)

/-- Words written in order. -/
def burstWrite (s : State) (n : Fin 32) (a : Nat) : Nat → List Byte → State
  | 0, _ => s
  | k + 1, b => burstWrite (placeWrite s (.dma n) a (b.take 4) (place s a)) n (a + 4) k (b.drop 4)

/-- A side that ends the channel: SYS records a refused or undecoded address. -/
def sideFails (s : State) (n : Fin 32) (a : Nat) (write : Bool) (e : Ending) : State :=
  dmaEnd (endingRecord s (.dma n) a write e) n.val dERROR (dmaErr e)

/-- One burst from a source to a destination that both take it. -/
def burstCopy (s : State) (n : Fin 32) (src dst len : Nat) : State :=
  let r := burstRead s n src (len / 4)
  let s := burstWrite r.2 n dst (len / 4) r.1
  let ofs := s.rd F.DMA_C_OFS_OFS n.val + len
  let s := s.wr F.DMA_C_OFS_OFS n.val ofs
  if s.rd F.DMA_C_STAT_STATE n.val = dRUN && decide (s.rd I.dLen n.val ≤ ofs) then dmaEnd s n.val dDONE 0 else s

/-- The next burst of channel n (R242): a copy, a WAIT, or the end in ERROR. -/
def dmaBurst (s : State) (n : Fin 32) : State :=
  let ofs := s.rd F.DMA_C_OFS_OFS n.val
  let src := s.rd I.dSrc n.val + ofs
  let dst := s.rd I.dDst n.val + ofs
  let mode := s.rd I.dMode n.val
  match side s n.val (bitOf mode 3) src, side s n.val (bitOf mode 2) dst with
  | .error c, _ => dmaEnd s n.val dERROR c
  | .wait cid v, _ => dmaWait s n.val cid v
  | .at a chk, d =>
    match sideEnding s n a chk false with
    | .ok =>
      match d with
      | .error c => dmaEnd s n.val dERROR c
      | .wait cid v => dmaWait s n.val cid v
      | .at b chk' =>
        match sideEnding s n b chk' true with
        | .ok => burstCopy s n a b (burstLen src dst (s.rd I.dLen n.val - ofs))
        | e => sideFails s n b true e
    | e => sideFails s n a false e

/-- DMA_BURST (R242, R243). -/
def execDmaBurst (ch : Fin 32) (s : State) : Host.Outcome State Fault Refusal :=
  if s.fabric && s.rd F.DMA_C_STAT_STATE ch.val == dRUN then go (dmaBurst s ch) else go s

end Sys2Proof.Machine
end

