-- ==== Sys2Proof/Machine/Media.lean ====
section
/-! DEFINITION.  Voice channels as their block program sees them: the control and status words of page 0,
the configuration checks, the channel's commands, codecs, tones, fax and level banks (R272–R289,
R299–R301, R322–R326, R331–R337, R346–R362).  The command's core is the one whose running job is the
channel's block program. -/

namespace Sys2Proof.Machine

/-! ## Page 0 (R280) -/

/-- The frame that holds page 0 of the job that runs on core c. -/
def mediaPage (s : State) (c : Nat) : Option Nat :=
  if s.serving && s.on I.cJob c && s.on I.jCv (s.rd I.cJob c - 1) then
    stagedFrame s c (s.rd I.cJob c - 1) (s.rd I.jCid (s.rd I.cJob c - 1)) 0
  else none

/-- The word at an offset of page 0 in frame i. -/
def mw (s : State) (i off : Nat) : Nat := s.readLE (frameAddr i + off) 4

/-- The block program writes the word at an offset of page 0. -/
def setW (s : State) (i off v : Nat) : State := markDirty (s.writeLE (frameAddr i + off) 4 v) i

/-- The block program writes bits [hi:lo] of a word of page 0. -/
def setF (s : State) (i off hi lo x : Nat) : State := setW s i off (putField (mw s i off) hi lo x)

/-- A status counter of a channel counts n; the first to saturate sets STS_EVENTS.OVF (R281). -/
def stsCount (s : State) (i off n : Nat) : State :=
  let v := mw s i off
  if n = 0 || v == 2 ^ 32 - 1 then s
  else
    let v' := min (v + n) (2 ^ 32 - 1)
    let s := setW s i off v'
    if v' = 2 ^ 32 - 1 then setF s i 0x410 31 31 1 else s

/-- Effect on the channel of the block program on core c, if there is one. -/
def onChannel (s : State) (c : Nat) (f : State → Nat → State) : Host.Outcome State Fault Refusal :=
  match mediaPage s c with
  | some i => go (f s i)
  | none => go s

/-- The control words of this chapter. -/
def chanWB (s : State) (i : Nat) : Bool := bitOf (mw s i 0x008) 31
def chanLong (s : State) (i : Nat) : Bool := bitOf (mw s i 0x008) 30
def chanPkt (s : State) (i : Nat) : Bool := bitOf (mw s i 0x008) 26
def chanLine (s : State) (i : Nat) : Nat := bits (mw s i 0x008) 25 24
def chanSlot (s : State) (i : Nat) : Nat := bits (mw s i 0x008) 12 0
/-- The block period in ms (R276, R277). -/
def blockMs (s : State) (i : Nat) : Nat := if chanLong s i then 10 else 2
/-- STATE of STS_STATE. -/
def chanState (s : State) (i : Nat) : Nat := bits (mw s i 0x400) 3 0
def setChanState (s : State) (i st : Nat) : State := setF s i 0x400 3 0 st

abbrev chALLOCATED := 0
abbrev chARMED := 1
abbrev chACTIVE := 2
abbrev chHELD := 3
abbrev chMOVING := 4

/-- The job, its context and its bank on the core of a frame. -/
def frameTask (s : State) (i : Nat) : Nat := s.rd I.frOwner i - 1

/-- The schedule slot a block task's TID stands for (R273, R277). -/
def taskSlot (t : Nat) : Option Nat :=
  if t < 8192 then some t
  else if 16384 ≤ t && t < 16384 + 640 * 64 then
    some ((t - 16384) / 640 * 128 + (t - 16384) % 128)
  else none

/-! ## Configuration (R274, R275, R286, R305, R306, R333, R345, R347) -/

/-- The codec word of leg P (false) or leg L (true). -/
def codWord (s : State) (i : Nat) (legL : Bool) : Nat := mw s i (if legL then 0x108 else 0x100)

/-- Is a codec word's codec wideband: G.722, AMR-WB, Opus with BW = 0. -/
def codWide (w : Nat) : Bool :=
  let k := bits w 31 28
  k == 4 || k == 6 || (k == 7 && bits w 23 20 == 0)

/-- Does a narrowband codec need a page of its own: neither G.711 nor G.726. -/
def codPaged (w : Nat) : Bool := decide (3 ≤ bits w 31 28)

/-- The frame length of a codec in ms; 0 for a sample-based codec (R332). -/
def codFrame (w : Nat) : Nat :=
  match bits w 31 28 with
  | 3 => 10
  | 5 => 20
  | 6 => 20
  | 7 => 10
  | _ => 0

/-- The codec pages of leg P. -/
def pagesP (s : State) (i : Nat) : Nat :=
  let w := codWord s i false
  if !chanPkt s i then 0
  else if codWide w then (if bits w 31 28 == 4 && chanLine s i != 2 then 2 ^ 5 else 2 ^ 5 + 2 ^ 6)
  else if codPaged w then 2 ^ 3 else 0

/-- The codec pages of leg L. -/
def pagesL (s : State) (i : Nat) : Nat :=
  let w := codWord s i true
  if chanLine s i != 2 then 0
  else if codWide w then 2 ^ 8 + 2 ^ 9
  else if codPaged w then 2 ^ 8 else 0

/-- CTL_EC0 and its mode bits. -/
def ecEn (s : State) (i : Nat) : Bool := bitOf (mw s i 0x080) 31 && chanLine s i != 0
def ecDense (s : State) (i : Nat) : Bool := bitOf (mw s i 0x080) 30

/-- The canceller's pages without page 15 (R305). -/
def pagesEc (s : State) (i : Nat) : Nat := if !ecEn s i then 0 else if chanWB s i then 0x1E else 0x06

/-- FAXMODE, and the fax page (R347). -/
def faxMode (s : State) (i : Nat) : Nat := bits (mw s i 0x110) 31 30
def pagesFax (s : State) (i : Nat) : Nat :=
  if faxMode s i != 2 then 0 else if chanWB s i then 2 ^ 7 else 2 ^ 3

/-- Every page the configuration needs. -/
def pagesNeeded (s : State) (i : Nat) : Nat :=
  [pagesP s i, pagesL s i, pagesEc s i, pagesFax s i, if ecEn s i && ecDense s i then 2 ^ 15 else 0].foldl
    Nat.lor 1

/-- The page set of the job, as CTXV holds it since its dispatch. -/
def jobPset (s : State) (i : Nat) : Nat := bits (s.rd I.ctxv (rbank s (i / 16))) 31 16

/-- Is every page of a mask in the page set. -/
def pagesIn (s : State) (i mask : Nat) : Bool := Nat.land mask (jobPset s i) == mask

/-- PTIME of leg P or L, 0 behaving as 20. -/
def ptimeOf (s : State) (i : Nat) (legL : Bool) : Nat :=
  let p := bits (mw s i (if legL then 0x020 else 0x010)) 23 16
  if p = 0 then 20 else p

/-- Is a leg's PTIME wrong for its codec (R333). -/
def ptimeBad (s : State) (i : Nat) (legL : Bool) : Bool :=
  let w := codWord s i legL
  let p := ptimeOf s i legL
  (codFrame w != 0 && p % codFrame w != 0) || (bits w 31 28 == 7 && !([10, 20, 40, 60].contains p))

/-- Is leg L, or P, bound. -/
def legBound (s : State) (i : Nat) (legL : Bool) : Bool := if legL then chanLine s i == 2 else chanPkt s i

/-- CODERR of a leg for the configuration written (R333, R275, R345): 0 none. -/
def codErr (s : State) (i : Nat) (legL : Bool) : Nat :=
  if !legBound s i legL then 0
  else if codWide (codWord s i legL) && !chanWB s i then 1
  else if ptimeBad s i legL then 2
  else if !pagesIn s i (if legL then pagesL s i else pagesP s i) then 3
  else if !legL && chanWB s i && ecEn s i && !codWide (codWord s i false) && codPaged (codWord s i false) then 3
  else if faxMode s i == 2 && (chanLine s i != 1 || !pagesIn s i (pagesFax s i) ||
      (bitOf (mw s i 0x110) 28 && bitOf (mw s i 0x080) 31)) then 4
  else if 8 < popcount 16 (Nat.land (pagesNeeded s i) 0x7FFF) then 5
  else 0

/-- Do the rules of R286, R306 and R333 refuse ACTIVATE and RESUME with BADCFG. -/
def badCfg (s : State) (i : Nat) : Bool :=
  taskSlot (frameTask s i) != some (chanSlot s i) ||
  (chanWB s i && chanSlot s i % 2 == 1) ||
  (chanLong s i && chanLine s i == 1) ||
  [false, true].any (fun l => legBound s i l && (ptimeOf s i l % blockMs s i != 0 || codErr s i l != 0)) ||
  !pagesIn s i (pagesNeeded s i) || decide (8 < popcount 16 (pagesNeeded s i)) ||
  (faxMode s i == 2 && (chanLine s i != 1 || (bitOf (mw s i 0x110) 28 && bitOf (mw s i 0x080) 31))) ||
  (bitOf (mw s i 0x038) 31 && bits (mw s i 0x03C) 14 0 == 0)

/-! ## Level banks (R359–R362) -/

/-- The first bit of a path's fields in STS_LVL: send 28, receive 20. -/
def lvlLo (recv : Bool) : Nat := if recv then 20 else 28

/-- Fields of STS_LVL: ACT, FADING, PEND, PTGT of a path. -/
def lvlBit (s : State) (i : Nat) (recv : Bool) (k : Nat) : Bool := bitOf (mw s i 0x544) (lvlLo recv + k)
def setLvl (s : State) (i : Nat) (recv : Bool) (k : Nat) (b : Bool) : State :=
  setW s i 0x544 (putBit (mw s i 0x544) (lvlLo recv + k) b)

/-- The target bank written for a path: SSEL or RSEL. -/
def lvlTarget (s : State) (i : Nat) (recv : Bool) : Bool := bitOf (mw s i 0x180) (if recv then 14 else 30)

/-- The target the previous block took (working state). -/
def lvlLast (s : State) (i : Nat) (recv : Bool) : Bool := bitOf (mw s i 0x660) (b2n recv)
def setLvlLast (s : State) (i : Nat) (recv b : Bool) : State := setW s i 0x660 (putBit (mw s i 0x660) (b2n recv) b)

/-- LEVEL_BANK_REQUEST (R361, R362). -/
def levelRequest (s : State) (i : Nat) (recv : Bool) : State :=
  let tgt := lvlTarget s i recv
  if tgt == lvlLast s i recv then s
  else
    let s := setLvlLast s i recv tgt
    if lvlBit s i recv 2 then setLvl (setLvl s i recv 1 true) i recv 0 tgt
    else if tgt != lvlBit s i recv 3 then setLvl s i recv 2 true
    else s

/-- LEVEL_FADE_END (R361, R362). -/
def levelFadeEnd (s : State) (i : Nat) (recv : Bool) : State :=
  if lvlBit s i recv 2 then
    let s := setLvl (setLvl s i recv 3 (!lvlBit s i recv 3)) i recv 2 false
    if lvlBit s i recv 1 then
      let s := setLvl s i recv 1 false
      if lvlBit s i recv 0 != lvlBit s i recv 3 then setLvl s i recv 2 true else s
    else s
  else s

/-- HOLD completes a fade and any pending request at once (R362). -/
def levelHold (s : State) (i : Nat) (recv : Bool) : State :=
  let s := levelFadeEnd s i recv
  if lvlBit s i recv 2 then levelFadeEnd s i recv else s

/-- At ACTIVATE the target becomes active without a fade (R362). -/
def levelActivate (s : State) (i : Nat) (recv : Bool) : State :=
  let tgt := lvlTarget s i recv
  let s := setLvl (setLvl (setLvl s i recv 3 tgt) i recv 2 false) i recv 1 false
  setLvlLast s i recv tgt

/-- The address of the media table (R351). -/
abbrev mediaTable := 0x207F0000

/-- Is the shape of a bank word usable (R359). -/
def shapeOk (s : State) (i w : Nat) : Bool :=
  let n := w % 256
  let flags := s.readLE (mediaTable + 0x1000 + 64 * n) 2
  n == 0 || (decide (n ≤ 63) && bitOf flags 0 && bitOf flags 1 == chanWB s i)

/-- A bank loads its shape into the working state; LVLERR says whether it is usable (R359, R360). -/
def loadShape (s : State) (i bank : Nat) : State :=
  let w := mw s i (0x184 + 4 * bank)
  let s := setW s i (0x670 + 4 * bank) w
  let s := if w % 256 ≤ 63 && w % 256 != 0 then
      markDirty (s.copyMem (mediaTable + 0x1000 + 64 * (w % 256)) (frameAddr i + 0x700 + 64 * bank) 64) i else s
  setW s i 0x544 (putBit (mw s i 0x544) bank (!shapeOk s i w))

/-- SHAPE_LOAD (R360): a changed bank word loads its bank, a changed LOADSEQ every bank. -/
def shapeLoad (s : State) (i bank : Nat) : State :=
  let seq := bits (mw s i 0x180) 3 0
  if seq != bits (mw s i 0x544) 7 4 then
    setF (s.over (List.range 4) fun s k => loadShape s i k) i 0x544 7 4 seq
  else if mw s i (0x184 + 4 * bank) != mw s i (0x670 + 4 * bank) then loadShape s i bank
  else s

/-! ## Events and generation (R350–R358) -/

/-- The number N of the block in progress (R278, R425). -/
def blockNow (s : State) (i : Nat) : Nat :=
  if chanLine s i == 1 then (s.rd F.TDX_BLKCNT_BLOCK + 2 ^ 32 - 1) % 2 ^ 32 else (mw s i 0x404 + 1) % 2 ^ 32

/-- An entry of the event ring (R354). -/
def ringEvent (s : State) (i : Nat) (legP : Bool) (code : Nat) : State :=
  let t0 := mw s i 0x520
  let ix := bits t0 2 0
  let seq := (bits t0 14 8 + 1) % 128
  let s := setW s i (0x524 + 4 * ix) (blockNow s i % 65536 * 65536 + b2n legP * 32768 + seq * 256 + code % 256)
  setW s i 0x520 (putField (putField (mw s i 0x520) 14 8 seq) 2 0 (ix + 1))

/-- GENBUSY and EVTX end. -/
def genStop (s : State) (i : Nat) : State := setF (setF s i 0x520 27 27 0) i 0x520 26 26 0

/-- Is a generation command waiting. -/
def genPending (s : State) (i : Nat) : Bool := bits (mw s i 0x11C) 31 28 != bits (mw s i 0x520) 31 28

/-- KIND and GENDIR of the command written. -/
def genKind (s : State) (i : Nat) : Nat := bits (mw s i 0x11C) 25 24
def genDir (s : State) (i : Nat) : Nat := bits (mw s i 0x11C) 27 26

/-- May CODE be sent as an event: DTMF 0–15, or 32–36 (R355). -/
def eventCode (k : Nat) : Bool := decide (k ≤ 15) || (decide (32 ≤ k) && decide (k ≤ 36))

/-- A generation command is taken (R355): it replaces a generation in progress. -/
def genTake (s : State) (i : Nat) : State :=
  if !genPending s i then s
  else
    let w := mw s i 0x11C
    let s := genStop (setF s i 0x520 31 28 (bits w 31 28)) i
    let event := genDir s i == 2
    if genKind s i == 2 || genKind s i == 3 || genDir s i == 3 || (event && !eventCode (bits w 23 16)) then s
    else setF (setF s i 0x520 27 27 1) i 0x520 26 26 (b2n event)

/-- Is a detected event enabled in its direction (R350, CTL_TONE). -/
def toneEnabled (s : State) (i : Nat) (legP : Bool) (code : Nat) : Bool :=
  let w := mw s i 0x118
  let k := code % 128
  if k ≤ 15 then bitOf w 31 && (bits w 30 29 == 2 || bits w 30 29 == b2n legP)
  else if 0x20 ≤ k && k ≤ 0x25 then bitOf w 22 || faxMode s i != 0
  else if 0x40 ≤ k && k ≤ 0x4F then
    bitOf w 26 && (k - 0x40) / 4 == bits w 25 24 && bitOf w 23 == legP &&
      bitOf (s.readLE (frameAddr i + 0x680 + 32 * ((k - 0x40) % 4)) 2) 0
  else false

/-- TONE_EVENT (R354, R356, R358): a detected onset or end is written to the ring; a received event is
reported and, unless a tone is generated toward the line, played. -/
def toneEvent (s : State) (i : Nat) (legP received : Bool) (code : Nat) : State :=
  if received then
    if bits (mw s i 0x104) 30 24 == 0 then s
    else
      let s := ringEvent s i true code
      if bitOf (mw s i 0x520) 27 && genDir s i == 0 then s else setF s i 0x520 25 25 1
  else if toneEnabled s i legP code then ringEvent s i legP code
  else s

/-- RX_EVENT_END (R356). -/
def rxEventEnd (s : State) (i code : Nat) : State :=
  if bitOf (mw s i 0x520) 25 then ringEvent (setF s i 0x520 25 25 0) i true (128 + code) else s

/-- MEDIA_TABLE_RELOAD (R351, R353, R388): a changed MTSEQ loads the four definitions of the channel's set,
the definition in generation, and PACEOFS. -/
def tableReload (s : State) (i : Nat) : State :=
  let seq := s.readLE mediaTable 4
  if seq = mw s i 0x624 then s
  else
    let s := setW (setW s i 0x624 seq) i 0x62C (s.readLE (mediaTable + 4) 4)
    let s := s.copyMem (mediaTable + 0x040 + 128 * bits (mw s i 0x118) 25 24) (frameAddr i + 0x680) 128
    s.copyMem (mediaTable + 0x040 + 32 * (bits (mw s i 0x11C) 23 16 % 16)) (frameAddr i + 0x8C0) 32

/-! ## Codecs and fax (R333, R337, R346, R347) -/

/-- The fields of a codec word whose change resets the codec (R337): CODEC, FMT, RATE. -/
def codKey (w : Nat) : Nat := Nat.land w 0xF3F00000

/-- Offsets of a leg's status word and of its codec word in force (working state). -/
def stsCod (legL : Bool) : Nat := if legL then 0x504 else 0x500
def codInForce (legL : Bool) : Nat := if legL then 0x614 else 0x610

/-- The codec of a leg is put in force: its state is reset, and audio gathered toward the next packet is
discarded. -/
def codecForce (s : State) (i : Nat) (legL : Bool) : State :=
  let w := codWord s i legL
  let s := setF (setF s i (stsCod legL) 31 28 (bits w 31 28)) i (stsCod legL) 11 8 0
  setW (setW s i (codInForce legL) w) i (codInForce legL + 8) 0

/-- CODEC_CHANGE of one leg (R333, R337): a configuration that is not valid keeps the previous one. -/
def codecChange (s : State) (i : Nat) (legL : Bool) : State :=
  let err := codErr s i legL
  if err != 0 then setF s i (stsCod legL) 11 8 err
  else if codKey (codWord s i legL) != codKey (mw s i (codInForce legL)) then codecForce s i legL
  else setF s i (stsCod legL) 11 8 0

/-- FAX of leg P: 0 voice, 1 VBD, 2 T.38. -/
def faxState (s : State) (i : Nat) : Nat := bits (mw s i 0x500) 25 24

/-- The state to which a fax or modem signal switches the channel (R346); `stay` marks a VBD that V.21
does not leave. -/
def faxTarget (mode : Nat) (cngSw stay : Bool) (sig : FaxSig) : Nat :=
  match mode, sig with
  | 1, .cng => 0
  | 1, _ => 1
  | 2, .ced => 1
  | 2, .ansam => 1
  | 2, .v21 => if stay then 1 else 2
  | 2, .cng => if cngSw && !stay then 2 else 0
  | _, _ => 0

/-- VBD codec: the law of CTL_CODP if it is G.711, else µ-law. -/
def vbdCodec (s : State) (i : Nat) : Nat := if bits (codWord s i false) 31 28 == 1 then 1 else 0

/-- FAX_SWITCHOVER (R346, R347, R358). -/
def faxSwitch (s : State) (i : Nat) (sig : FaxSig) : State :=
  let stay := bitOf (mw s i 0x600) 4
  let tgt := faxTarget (faxMode s i) (bitOf (mw s i 0x110) 29) stay sig
  if chanState s i != chACTIVE && chanState s i != chMOVING then s
  else if tgt = 0 || tgt ≤ faxState s i then s
  else
    let s := stsCount (setF s i 0x500 25 24 tgt) i 0x518 1
    if tgt = 1 then
      let s := setF s i 0x500 31 28 (vbdCodec s i)
      if sig == .ansam then setF s i 0x600 4 4 1 else s
    else genStop (ringEvent s i false 0x30) i

/-- RETURN_TO_VOICE (R346): the codec of CTL_CODP is restarted from its initial state. -/
def faxReturn (s : State) (i : Nat) : State :=
  if faxState s i = 0 || bitOf (mw s i 0x110) 28 then s
  else
    let t38 := faxState s i == 2
    let s := codecForce (setF (setF s i 0x500 25 24 0) i 0x600 4 4 0) i false
    if t38 then ringEvent s i false 0xB0 else s

/-! ## Canceller: clearing and the tone disabler (R313, R322–R325) -/

/-- TAIL in ms, and NWIN, as they behave. -/
def ecTail (s : State) (i : Nat) : Nat :=
  let v := bits (mw s i 0x084) 31 24
  if v = 0 || 128 < v then 128 else max 16 ((v + 15) / 16 * 16)
def ecNwin (s : State) (i : Nat) : Nat :=
  let v := bits (mw s i 0x084) 19 16
  if v = 0 || 4 < v then 4 else v

/-- Window k of STS_EC4 at `start` ms, or unused. -/
def setWindow (s : State) (i k : Nat) (start : Option Nat) : State :=
  match start with
  | some v => setF (setF s i 0x490 (8 * k + 7) (8 * k) v) i 0x480 (12 + k) (12 + k) 1
  | none => setF (setF s i 0x490 (8 * k + 7) (8 * k) 0xFF) i 0x480 (12 + k) (12 + k) 0

/-- Is window k active. -/
def winUsed (s : State) (i k : Nat) : Bool := bitOf (mw s i 0x480) (12 + k)

/-- Is dense mode in force. -/
def denseAct (s : State) (i : Nat) : Bool := bitOf (mw s i 0x480) 26

/-- A probation window is abandoned; the streak of its candidate is kept by `keep`. -/
def noProbation (s : State) (i : Nat) (keep : Bool) : State :=
  let s := setF s i 0x480 20 20 0
  if keep then s else setF s i 0x640 31 0 0

/-- A clear (R325, R313). -/
def ecClear (s : State) (i : Nat) : State :=
  let s := setF (setF (noProbation s i false) i 0x480 25 25 0) i 0x480 24 24 0
  let s := setW (setW s i 0x644 0) i 0x648 0
  if denseAct s i then s
  else s.over (List.range 4) fun s k =>
    setWindow s i k (if k < ecNwin s i && 16 * k + 16 ≤ ecTail s i then some (16 * k) else none)

/-- EC_CLEAR (R325): a new CLRSEQ. -/
def ecClearSeq (s : State) (i : Nat) : State :=
  let seq := bits (mw s i 0x080) 27 24
  if seq = bits (mw s i 0x480) 31 28 then s else setF (ecClear s i) i 0x480 31 28 seq

/-- EC_DIVERGENCE (R319): in blocks in which the canceller ran. -/
def ecDiverge (s : State) (i : Nat) : State :=
  if bitOf (mw s i 0x480) 27 then stsCount (ecClear s i) i 0x4A4 1 else s

/-- TONE_DISABLE (R322, R323). -/
def toneDisable (s : State) (i kind : Nat) (onSin : Bool) : State :=
  let mode := bits (mw s i 0x080) 21 20
  let dir := bits (mw s i 0x080) 19 18
  if kind = 0 || !ecEn s i || dir == 3 || (dir == 1 && onSin) || (dir == 2 && !onSin) then s
  else
    let s := setF s i 0x480 11 8 kind
    if mode = 2 || mode = 3 || bitOf (mw s i 0x480) 22 then s
    else if kind % 2 = 0 || mode = 1 then stsCount (setF (noProbation s i false) i 0x480 22 22 1) i 0x4A0 1
    else if bitOf (mw s i 0x480) 21 then s
    else stsCount (setF s i 0x480 21 21 1) i 0x4A0 1

/-- TONE_DISABLE_RELEASE (R324). -/
def toneRelease (s : State) (i : Nat) : State := setF s i 0x480 22 21 0

/-! ## Commands of a channel (R283–R288, R300, R301) -/

/-- RRLEN as it behaves, the record size, and the addresses of ring and capture buffer. -/
def rrLen (s : State) (i : Nat) : Nat := max 16 (bits (mw s i 0x03C) 14 0)
def recSize (s : State) (i : Nat) : Nat := if chanWB s i then 256 else 128
def rrAddr (s : State) (i ix : Nat) : Nat := 0x10000000 + bits (mw s i 0x038) 24 6 * 64 + recSize s i * ix
def capAddr (s : State) (i ix : Nat) : Nat := 0x10000000 + bits (mw s i 0x040) 24 6 * 64 + recSize s i * ix

/-- Working-state bits of the mark: it has been set; the record at its index has been written since. -/
def markEver (s : State) (i : Nat) : Bool := bitOf (mw s i 0x600) 0
def markPassed (s : State) (i : Nat) : Bool := bitOf (mw s i 0x600) 1

/-- MARK (R300). -/
def setMark (s : State) (i : Nat) : State :=
  let w := mw s i 0x418
  let s := setW s i 0x418 (2 ^ 31 + bits w 14 0 * 65536 + bits w 14 0)
  setF (setF (setF s i 0x410 30 30 0) i 0x600 0 0 1) i 0x600 1 1 0

/-- Records from the mark up to WIDX − 1, at most CAPLEN (R301). -/
def rewSpan (s : State) (i : Nat) : Nat :=
  let w := mw s i 0x418
  let d := (bits w 14 0 + rrLen s i - bits w 30 16 % rrLen s i) % rrLen s i
  min (if d = 0 && markPassed s i then rrLen s i else d) (bits (mw s i 0x044) 14 0)

/-- REWIND (R301): its result, and the copy it starts. -/
def rewind (s : State) (i : Nat) : Nat × State :=
  if !markEver s i then (3, s)
  else if !bitOf (mw s i 0x418) 31 then (4, s)
  else if bitOf (mw s i 0x41C) 31 then (6, s)
  else (0, setW (setW s i 0x604 (rewSpan s i)) i 0x41C (2 ^ 31))

/-- The first n records of the copy in progress reach the capture buffer, and the copy ends (R301). -/
def rewindEnd (s : State) (i n : Nat) (done : Bool) : State :=
  let mark := bits (mw s i 0x418) 30 16
  let s := s.over (List.range n) fun s k =>
    s.copyMem (rrAddr s i ((mark + k) % rrLen s i)) (capAddr s i k) (recSize s i)
  setW s i 0x41C (b2n done * 2 ^ 30 + n)

/-- REWIND_DONE (R301). -/
def rewindDone (s : State) (i : Nat) : State :=
  if bitOf (mw s i 0x41C) 31 then rewindEnd s i (mw s i 0x604) true else s

/-- The counters that CLRSTATS clears (R281): those of channel, playout, canceller and codecs. -/
def statOffsets : List Nat :=
  [0x40C, 0x410, 0x414, 0x424, 0x428, 0x42C, 0x444, 0x448, 0x44C, 0x498, 0x49C, 0x4A0, 0x4A4, 0x4A8, 0x508,
    0x50C, 0x510, 0x514, 0x518, 0x51C]

/-- The effects of becoming ACTIVE out of ALLOCATED or HELD: codecs in force, playout restarted; at
ACTIVATE also banks and shapes (R326, R360, R362, R347). -/
def startAudio (s : State) (i : Nat) : State :=
  let s := codecForce (codecForce s i false) i true
  let s := setW s i 0x628 0
  if faxMode s i == 2 && bitOf (mw s i 0x110) 28 then setF s i 0x500 25 24 2 else s

/-- Is W at or past START (R285). -/
def startDue (s : State) (i w : Nat) : Bool := decide (0 ≤ diff32 w (mw s i 0x004))

/-- ACTIVATE (R283, R285, R286). -/
def activate (s : State) (i w : Nat) : Nat × State :=
  if chanState s i != chALLOCATED then (1, s)
  else if badCfg s i then
    (5, if 8 < popcount 16 (Nat.land (pagesNeeded s i) 0x7FFF) then setF s i 0x500 11 8 5 else s)
  else
    let s := levelActivate (levelActivate (startAudio s i) i false) i true
    let s := s.over (List.range 4) fun s k => loadShape s i k
    (0, setChanState s i (if startDue s i w then chACTIVE else chARMED))

/-- HOLD (R288, R328, R362). -/
def hold (s : State) (i : Nat) : Nat × State :=
  if chanState s i != chACTIVE then (1, s)
  else (0, setChanState (noProbation (levelHold (levelHold s i false) i true) i false) i chHELD)

/-- RESUME (R286). -/
def resume (s : State) (i : Nat) : Nat × State :=
  if chanState s i != chHELD then (1, s)
  else if badCfg s i then
    (5, if 8 < popcount 16 (Nat.land (pagesNeeded s i) 0x7FFF) then setF s i 0x500 11 8 5 else s)
  else (0, setChanState (startAudio s i) i chACTIVE)

/-- STOP (R283). -/
def stop (s : State) (i : Nat) : Nat × State :=
  if chanState s i == chARMED || chanState s i == chACTIVE || chanState s i == chHELD then
    (0, setChanState s i chALLOCATED)
  else (1, s)

/-- The effect of a command and its result (CTL_CMD, R286). -/
def actCommand (s : State) (i cmd w : Nat) : Nat × State :=
  match cmd with
  | 0 => (0, s)
  | 1 => activate s i w
  | 2 => hold s i
  | 3 => resume s i
  | 4 => stop s i
  | 5 => (0, setMark s i)
  | 6 => rewind s i
  | 7 => (0, s.over statOffsets fun s off => setW s i off 0)
  | _ => (2, s)

/-- Is a command presented that no job has taken (R286). -/
def cmdPending (s : State) (i : Nat) : Bool := bits (mw s i 0x000) 31 24 != bits (mw s i 0x400) 31 24

/-- A presented command is taken (R286): ACKSEQ and LASTCMD, the effect, CMDRES. -/
def takeCommand (s : State) (i w : Nat) : State :=
  if !cmdPending s i then s
  else
    let cmd := bits (mw s i 0x000) 19 16
    let s := setF (setF s i 0x400 31 24 (bits (mw s i 0x000) 31 24)) i 0x400 19 16 cmd
    let r := actCommand s i cmd w
    setF r.2 i 0x400 23 20 r.1

/-- A presented command with a given code is taken. -/
def takeIf (s : State) (c cmd w : Nat) : Host.Outcome State Fault Refusal :=
  onChannel s c fun s i => if bits (mw s i 0x000) 19 16 == cmd then takeCommand s i w else s

/-- ACTIVATE (R286). -/
def execActivate (c : Fin 64) (w : Word) (s : State) : Host.Outcome State Fault Refusal := takeIf s c.val 1 w.toNat

/-- HOLD (R288). -/
def execHold (c : Fin 64) (s : State) : Host.Outcome State Fault Refusal := takeIf s c.val 2 0

/-- RESUME (R286). -/
def execResume (c : Fin 64) (w : Word) (s : State) : Host.Outcome State Fault Refusal := takeIf s c.val 3 w.toNat

/-- STOP (R283). -/
def execStop (c : Fin 64) (s : State) : Host.Outcome State Fault Refusal := takeIf s c.val 4 0

/-- MARK (R300). -/
def execMark (c : Fin 64) (s : State) : Host.Outcome State Fault Refusal := takeIf s c.val 5 0

/-- REWIND (R301). -/
def execRewind (c : Fin 64) (s : State) : Host.Outcome State Fault Refusal := takeIf s c.val 6 0

/-- REWIND_DONE (R301). -/
def execRewindDone (c : Fin 64) (s : State) : Host.Outcome State Fault Refusal := onChannel s c.val rewindDone

/-- CLRSTATS (R281). -/
def execClrstats (c : Fin 64) (s : State) : Host.Outcome State Fault Refusal := takeIf s c.val 7 0

/-- An ARMED channel becomes ACTIVE at the first block with W − START ≥ 0 (R283). -/
def channelStart (s : State) (i w : Nat) : State :=
  if chanState s i == chARMED && startDue s i w then setChanState s i chACTIVE else s

/-- CHANNEL_START (R283). -/
def execChannelStart (c : Fin 64) (w : Word) (s : State) : Host.Outcome State Fault Refusal :=
  onChannel s c.val fun s i => channelStart s i w.toNat

/-- EC_CLEAR (R325). -/
def execEcClear (c : Fin 64) (s : State) : Host.Outcome State Fault Refusal := onChannel s c.val ecClearSeq

/-- EC_DIVERGENCE (R319). -/
def execEcDivergence (c : Fin 64) (s : State) : Host.Outcome State Fault Refusal := onChannel s c.val ecDiverge

/-- TONE_DISABLE (R323). -/
def execToneDisable (c : Fin 64) (kind : Fin 5) (onSin : Bool) (s : State) : Host.Outcome State Fault Refusal :=
  onChannel s c.val fun s i => toneDisable s i kind.val onSin

/-- TONE_DISABLE_RELEASE (R324). -/
def execToneDisableRelease (c : Fin 64) (s : State) : Host.Outcome State Fault Refusal :=
  onChannel s c.val toneRelease

/-- CODEC_CHANGE (R337): both legs. -/
def execCodecChange (c : Fin 64) (s : State) : Host.Outcome State Fault Refusal :=
  onChannel s c.val fun s i => codecChange (codecChange s i false) i true

/-- A generation command with a direction and kind is taken. -/
def genIf (s : State) (c : Nat) (p : State → Nat → Bool) : Host.Outcome State Fault Refusal :=
  onChannel s c fun s i => if p s i then genTake s i else s

/-- GEN_DTMF (R355). -/
def execGenDtmf (c : Fin 64) (s : State) : Host.Outcome State Fault Refusal :=
  genIf s c.val fun s i => genKind s i == 0 && genDir s i != 2

/-- GEN_CALL_PROGRESS (R355). -/
def execGenCallProgress (c : Fin 64) (s : State) : Host.Outcome State Fault Refusal :=
  genIf s c.val fun s i => genKind s i == 1 && genDir s i != 2

/-- GEN_STOP (R355). -/
def execGenStop (c : Fin 64) (s : State) : Host.Outcome State Fault Refusal :=
  genIf s c.val fun s i => genKind s i == 2

/-- GEN_EVENT (R355, R356). -/
def execGenEvent (c : Fin 64) (s : State) : Host.Outcome State Fault Refusal :=
  genIf s c.val fun s i => genDir s i == 2 && genKind s i != 2

/-- GEN_END (R355). -/
def execGenEnd (c : Fin 64) (s : State) : Host.Outcome State Fault Refusal := onChannel s c.val genStop

/-- MEDIA_TABLE_RELOAD (R351). -/
def execMediaTableReload (c : Fin 64) (s : State) : Host.Outcome State Fault Refusal :=
  onChannel s c.val tableReload

/-- TONE_EVENT (R354). -/
def execToneEvent (c : Fin 64) (legP received : Bool) (code : BitVec 8) (s : State) :
    Host.Outcome State Fault Refusal := onChannel s c.val fun s i => toneEvent s i legP received code.toNat

/-- RX_EVENT_END (R356). -/
def execRxEventEnd (c : Fin 64) (code : BitVec 7) (s : State) : Host.Outcome State Fault Refusal :=
  onChannel s c.val fun s i => rxEventEnd s i code.toNat

/-- FAX_SWITCHOVER (R346). -/
def execFaxSwitchover (c : Fin 64) (sig : FaxSig) (s : State) : Host.Outcome State Fault Refusal :=
  onChannel s c.val fun s i => faxSwitch s i sig

/-- RETURN_TO_VOICE (R346). -/
def execReturnToVoice (c : Fin 64) (s : State) : Host.Outcome State Fault Refusal := onChannel s c.val faxReturn

/-- LEVEL_BANK_REQUEST (R361). -/
def execLevelBankRequest (c : Fin 64) (recv : Bool) (s : State) : Host.Outcome State Fault Refusal :=
  onChannel s c.val fun s i => levelRequest s i recv

/-- LEVEL_FADE_END (R362). -/
def execLevelFadeEnd (c : Fin 64) (recv : Bool) (s : State) : Host.Outcome State Fault Refusal :=
  onChannel s c.val fun s i => levelFadeEnd s i recv

/-- SHAPE_LOAD (R360). -/
def execShapeLoad (c : Fin 64) (bank : Fin 4) (s : State) : Host.Outcome State Fault Refusal :=
  onChannel s c.val fun s i => shapeLoad s i bank.val

end Sys2Proof.Machine
end

