-- ==== Sys2Proof/Machine/MediaBlock.lean ====
section
/-! DEFINITION.  The block program of a voice channel, as its effects stand when its job ends: block
numbers and slips, commands, canceller, playout, record ring, transmit ring and packets (R278, R286,
R290–R301, R303–R328, R333–R348, R387, R388).  What the signal processing finds is the operand of
ENDJOB. -/

namespace Sys2Proof.Machine

/-- The context of the page in frame i. -/
def chanCid (s : State) (i : Nat) : Nat := s.rd I.jCid (frameTask s i)

/-- Is full audio processed: ACTIVE or MOVING (R282, R466). -/
def chanAudio (s : State) (i : Nat) : Bool := chanState s i == chACTIVE || chanState s i == chMOVING

/-- 16-bit samples as bytes. -/
def sampleBytes (l : List (BitVec 16)) : List Byte := l.flatMap fun v => leBytes 2 v.toNat

/-- Samples of 2 ms (R290). -/
def subSamples (s : State) (i : Nat) : Nat := if chanWB s i then 32 else 16

/-! ## Block number (R278, R466) -/

/-- What the block does: nothing (the same N), or audio after `skipped` missed blocks, with or without a
slip. -/
structure BlockStep where
  n : Nat
  same : Bool
  slip : Bool
  skipped : Bool
  deriving DecidableEq, Repr

/-- The step from the last block processed. -/
def blockStep (s : State) (i : Nat) : BlockStep :=
  let n := blockNow s i
  let d := (n + 2 ^ 32 - mw s i 0x404) % 2 ^ 32
  if chanLine s i != 1 || !bitOf (mw s i 0x664) 0 || s.on I.migFresh (chanCid s i) then ⟨n, false, false, false⟩
  else ⟨n, d == 0, d != 1, d != 0 && d != 1⟩

/-- STATE follows CWY_CTXMIG (R466). -/
def movingState (s : State) (i : Nat) : State :=
  let cid := chanCid s i
  if chanState s i == chACTIVE && s.on I.ctxMig cid then setChanState s i chMOVING
  else if chanState s i == chMOVING && !s.on I.ctxMig cid && !s.on I.ctxMoved cid then setChanState s i chACTIVE
  else s

/-! ## Canceller (R303–R328) -/

/-- CTL_EC3.ADAPTMIN and DTHANG, CTL_EC4.NLPHANG and NLPMARGIN, as they behave. -/
def ecAdaptMin (s : State) (i : Nat) : Nat :=
  let v := bits (mw s i 0x08C) 7 0
  if v = 0 then 45 else max 30 (min 60 v)
def ecDtHang (s : State) (i : Nat) : Nat :=
  let v := bits (mw s i 0x08C) 15 8
  if v = 0 then 32 else min 254 ((v + 1) / 2 * 2)
def ecNlpHang (s : State) (i : Nat) : Nat :=
  let v := bits (mw s i 0x090) 23 16
  if v = 0 then 50 else min 254 ((v + 1) / 2 * 2)
def ecNlpMargin (s : State) (i : Nat) : Nat :=
  let v := bits (mw s i 0x090) 31 24
  if v = 0 then 6 else min 15 v
def ecFixwin (s : State) (i : Nat) : Bool := bitOf (mw s i 0x080) 28
def ecFreeze (s : State) (i : Nat) : Bool := bitOf (mw s i 0x080) 29

/-- The start of window k, and how many windows are active. -/
def winStart (s : State) (i k : Nat) : Nat := bits (mw s i 0x490) (8 * k + 7) (8 * k)
def winCount (s : State) (i : Nat) : Nat := ((List.range 4).filter fun k => winUsed s i k).length

/-- May a span lie beside the active windows, the departing one aside (R313, R314). -/
def spanFree (s : State) (i start : Nat) (departing : Option Nat) : Bool :=
  start % 2 == 0 && decide (start + 16 ≤ ecTail s i) &&
    (List.range 4).all fun k =>
      !winUsed s i k || departing == some k || decide (start + 16 ≤ winStart s i k) ||
        decide (winStart s i k + 16 ≤ start)

/-- The configuration error of the canceller (R306, R275). -/
def ecCfgErr (s : State) (i : Nat) : Nat :=
  if !ecEn s i then 0
  else if !pagesIn s i (pagesEc s i) then 1
  else if ecDense s i && (!pagesIn s i (2 ^ 15) || decide (8 < popcount 16 (pagesNeeded s i))) then 2
  else 0

/-- Every window is unused. -/
def noWindows (s : State) (i : Nat) : State := s.over (List.range 4) fun s k => setWindow s i k none

/-- The first NWIN spans of a list that lie beside each other become the windows. -/
def placeSpans (s : State) (i : Nat) (spans : List Nat) : State :=
  spans.foldl (fun s v =>
    if winCount s i < ecNwin s i && spanFree s i v none then setWindow s i (winCount s i) (some v) else s) (noWindows s i)

/-- A change of DENSE (R317). -/
def ecDenseStep (s : State) (i : Nat) (dense : Bool) (b : EcBlock) : State :=
  if dense == denseAct s i then s
  else
    let s := noProbation (setF s i 0x480 26 26 (b2n dense)) i false
    if dense then noWindows s i else placeSpans s i (b.spans.map (·.toNat))

/-- A window is released for a lowered TAIL or NWIN (R316). -/
def ecRelease (s : State) (i : Nat) (b : EcBlock) : State :=
  let s := s.over (List.range 4) fun s k =>
    if winUsed s i k && decide (ecTail s i < winStart s i k + 16) then setWindow s i k none else s
  s.over b.least fun s k =>
    if winUsed s i k.val && decide (ecNwin s i < winCount s i) then setWindow s i k.val none else s

/-- FIXWIN (R316). -/
def ecFix (s : State) (i : Nat) : State :=
  (List.range (ecNwin s i)).foldl (fun s k =>
    let v := min (bits (mw s i 0x088) (8 * k + 7) (8 * k) / 2 * 2) (ecTail s i - 16)
    if spanFree s i v none then setWindow s i k (some v) else s) (noWindows s i)

/-- The window controls of a block (R316, R317, R328). -/
def ecControls (s : State) (i : Nat) (b : EcBlock) : State :=
  let s := if bitOf (mw s i 0x668) 0 then s else setW (ecClear s i) i 0x668 1
  let s := ecDenseStep s i (ecDense s i && ecCfgErr s i != 2) b
  let s := if denseAct s i then s else if ecFixwin s i then ecFix s i else ecRelease s i b
  if ecFixwin s i || ecFreeze s i || (bitOf (mw s i 0x480) 20 && !spanFree s i (bits (mw s i 0x640) 7 0)
      (some (bits (mw s i 0x640) 17 16))) then noProbation s i false else s

/-- Is Rin at or above −ADAPTMIN dBm0. -/
def rinLoud (s : State) (i : Nat) (b : EcBlock) : Bool := decide (-(10 * ecAdaptMin s i : Nat) ≤ b.rin.toInt)

/-- Double talk of a block (R318): the hangover left, and STS_EC0.DT. -/
def ecDoubleTalk (s : State) (i : Nat) (b : EcBlock) : State :=
  let hang := if b.loud && rinLoud s i b then ecDtHang s i else mw s i 0x644 - blockMs s i
  let s := setW s i 0x644 hang
  if hang = 0 then setF s i 0x480 24 24 0 else stsCount (setF s i 0x480 24 24 1) i 0x49C 1

/-- Does the canceller adapt in this block (R309, R327); the tracker does not heed FREEZE (R312). -/
def ecTracks (s : State) (i : Nat) (b : EcBlock) : Bool :=
  rinLoud s i b && !bitOf (mw s i 0x480) 24 && mw s i 0x654 == 0
def ecAdapts (s : State) (i : Nat) (b : EcBlock) : Bool := ecTracks s i b && !ecFreeze s i

/-- A probation window replaces the departing window, or fills a free one (R315). -/
def ecMove (s : State) (i cand : Nat) : State :=
  let k := if winCount s i < ecNwin s i then (List.range 4).find? (fun k => !winUsed s i k)
    else some (bits (mw s i 0x640) 17 16)
  match k with
  | some k => stsCount (setWindow s i k (some cand)) i 0x498 1
  | none => s

/-- An evaluation of window placement (R314, R315). -/
def ecEvaluate (s : State) (i : Nat) (b : EcBlock) : State :=
  let c := b.cand.toNat
  let free := decide (winCount s i < ecNwin s i)
  let wins := (free || b.wins) && spanFree s i c (if free then none else some b.departing.val)
  let w := mw s i 0x640
  if bitOf (mw s i 0x480) 20 then
    let s := if wins && bits w 7 0 == c then ecMove s i c else s
    noProbation s i false
  else
    let streak := if !wins then 0 else if bits w 9 8 != 0 && bits w 7 0 == c then bits w 9 8 + 1 else 1
    let s := setW s i 0x640 (c + 256 * streak + 65536 * b.departing.val)
    if streak = 3 then setF s i 0x480 20 20 1 else s

/-- ERL, ERLE and CONV (R319). -/
def ecConverge (s : State) (i : Nat) (b : EcBlock) : State :=
  let s := setW s i 0x48C (b.erl.toNat * 65536 + b.erle.toNat)
  let ms := if 180 ≤ b.erle.toInt then mw s i 0x648 + blockMs s i else 0
  let s := setW s i 0x648 (min ms 1000)
  if 200 ≤ ms then setF s i 0x480 25 25 1 else s

/-- The non-linear processor (R320): is it suppressing in this block. -/
def ecSuppress (s : State) (i : Nat) (b : EcBlock) : Bool :=
  bits (mw s i 0x080) 23 22 != 2 && faxState s i != 1 && !bitOf (mw s i 0x480) 24 && bits (mw s i 0x480) 22 21 == 0 &&
    (decide (b.sout.toInt ≤ b.rin.toInt - (signedOf 16 (mw s i 0x48C / 65536) + signedOf 16 (mw s i 0x48C)) +
        (10 * ecNlpMargin s i : Nat)) ||
      (bitOf (mw s i 0x480) 23 && !rinLoud s i b && decide (mw s i 0x650 < ecNlpHang s i)))

/-- Levels and the processor's state. -/
def ecLevels (s : State) (i : Nat) (b : EcBlock) : State :=
  let s := setW s i 0x650 (if rinLoud s i b then 0 else min 1000 (mw s i 0x650 + blockMs s i))
  let on := ecSuppress s i b
  let s := setF s i 0x480 23 23 (b2n on)
  let s := setW s i 0x484 (b.rin.toNat * 65536 + b.sin.toNat)
  let s := setF s i 0x488 31 16 b.sout.toNat
  if on then s else setF s i 0x488 15 0 b.noise.toNat

/-- The canceller in a block in which it runs. -/
def ecRun (s : State) (i n : Nat) (b : EcBlock) : State :=
  let s := ecDoubleTalk (ecControls s i b) i b
  let s := setW s i 0x494 (b.peak.toNat * 65536 + b.disp.toNat)
  let s := if ecAdapts s i b then ecConverge s i b else s
  let s := if ecAdapts s i b && !denseAct s i && !ecFixwin s i && n % 4 == 0 then ecEvaluate s i b else s
  let s := stsCount (ecLevels s i b) i 0x4A8 b.saturated
  setW (setF s i 0x480 27 27 1) i 0x654 (mw s i 0x654 - blockMs s i)

/-- The canceller's part of a block (R304, R306, R326, R327). -/
def ecBlock (s : State) (i : Nat) (k : BlockStep) (b : EcBlock) : State :=
  let s := setF s i 0x480 19 16 (ecCfgErr s i)
  let s := if k.skipped then setW s i 0x654 (ecTail s i) else s
  if !k.same && ecEn s i && ecCfgErr s i != 1 && !bitOf (mw s i 0x480) 22 then ecRun s i k.n b
  else setF (setF s i 0x480 27 27 0) i 0x480 23 23 0

/-! ## Playout (R296–R298, R334–R336, R344) -/

/-- Offsets of a leg's words: first playout status, CTL_JB word, jitter-buffer word, template word. -/
def stsPlay (legL : Bool) : Nat := if legL then 0x440 else 0x420
def ctlJb (legL : Bool) : Nat := if legL then 0x034 else 0x030
def ctlPkt (legL : Bool) : Nat := if legL then 0x020 else 0x010

/-- The jitter-buffer header of a leg. -/
def legJb (s : State) (i : Nat) (legL : Bool) : Nat := jbHeader (bits (mw s i (ctlPkt legL + 0xC)) 24 6)

/-- NOMD, MIND and MAXD as they behave. -/
def depths (s : State) (i : Nat) (legL : Bool) : Nat × Nat × Nat :=
  let w := mw s i (ctlJb legL)
  let nom := if bits w 22 14 = 0 then 60 else max 20 (min 300 (bits w 22 14))
  let mn := if bits w 13 5 = 0 then 20 else max 10 (min 300 (bits w 13 5))
  let mx := if bits w 31 23 = 0 then 200 else max 20 (min 500 (bits w 31 23))
  let mx := if bits (codWord s i legL) 31 28 ≤ 2 then min 300 mx else mx
  (nom, min mn nom, max mx nom)

/-- The target depth of a block (R296, R346). -/
def playTarget (s : State) (i : Nat) (legL : Bool) (jitter : Nat) : Nat :=
  let (nom, mn, mx) := depths s i legL
  if bitOf (mw s i (ctlJb legL)) 0 || decide (mw s i 0x628 < 2000) || (!legL && faxState s i == 1) then nom
  else
    let us := 1000 * blockMs s i
    max mn (min mx ((jitter + 1000 * ptimeOf s i legL + us - 1) / us * blockMs s i))

/-- The slot that holds sequence number q: at LEN, else at LENPREV (R295). -/
def jbFind (s : State) (h q : Nat) : Option Nat :=
  [q % jb16 s h 4, q % jb16 s h 6].find? fun k => jbValid s h k && jb16 s (jbSlot s h k) 0 == q

/-- VALID is cleared in every slot whose packet lies at or before q. -/
def jbPass (s : State) (h q : Nat) : State :=
  s.over (List.range (jb16 s h 4)) fun s k =>
    if jbValid s h k && decide (diff16 (jb16 s (jbSlot s h k) 0) q ≤ 0) then jbClear s h k else s

/-- PLAYSEQ moves to q, which has been played or passed. -/
def jbPlayed (s : State) (h q : Nat) : State := jbPass (jbPut (jbPut s (h + 0xA) 2 q) (h + 0xC) 1 1) h q

/-- The oldest packet buffered. -/
def jbOldest (s : State) (h : Nat) : Option Nat :=
  let hs := jb16 s h 8
  ((List.range (jb16 s h 4)).map fun d => (hs + 65536 - (jb16 s h 4 - 1 - d)) % 65536).find? fun q => (jbFind s h q).isSome

/-- The playout of a leg in a block. -/
def legPlay (s : State) (i : Nat) (legL : Bool) (b : LegBlock) : State :=
  let o := stsPlay legL
  let h := legJb s i legL
  let s := b.played.foldl (fun s q =>
    if (jbFind s h q.toNat).isSome then stsCount (jbPlayed s h q.toNat) i (o + 4) 1 else s) s
  let s := stsCount s i (o + 8) (if b.cnp then 0 else b.lost)
  let s :=
    if !b.cnp && decide ((depths s i legL).2.2 + ptimeOf s i legL < b.span.toNat) then
      match jbOldest s h with
      | some q => stsCount (jbPlayed s h q) i (o + 0xC) 1
      | none => s
    else s
  let s := setW s i (o + 0x10) b.jitter.toNat
  setW s i o (playTarget s i legL b.jitter.toNat * 65536 + b.span.toNat)

/-- The codec status of a leg in a block, and the channel counters (R334–R336, R342–R344). -/
def legStatus (s : State) (i : Nat) (legL : Bool) (b : LegBlock) : State :=
  let o := stsCod legL
  let s := setF (setF s i o 27 27 (b2n b.cnp)) i o 26 26 (b2n b.txSil)
  let s := setF (setF (setF s i o 23 20 b.txMode.toNat) i o 19 16 b.rxMode.toNat) i o 15 12 b.cmr.toNat
  stsCount (stsCount (stsCount s i 0x508 b.badPt) i 0x50C b.badPkt) i 0x514 b.cnRcvd

/-- A jitter buffer of a channel that is not ACTIVE is emptied each block (R282). -/
def legEmpty (s : State) (i : Nat) (legL : Bool) : State :=
  let h := legJb s i legL
  jbPut (s.over (List.range (jb16 s h 4)) fun s k => if jbValid s h k then jbClear s h k else s) (h + 0xC) 1 0

/-! ## Packets (R291, R348, R387, R388) -/

/-- Is block n one in which a leg sends a voice packet, with a full PTIME gathered (R291, R337). -/
def voiceDue (s : State) (i n : Nat) (legL : Bool) : Bool :=
  let k := ptimeOf s i legL / blockMs s i
  n % max 1 k == chanSlot s i % max 1 k && decide (ptimeOf s i legL ≤ mw s i (codInForce legL + 8))

/-- The bytes that the packet's buffer gets. -/
def packetBytes (s : State) (i : Nat) (legL : Bool) (k : LegPacket) : List Byte :=
  if k.kind == .udptl then k.body.take 512
  else ([0x80, BitVec.ofNat 8 (128 * b2n k.marker + k.pt.toNat)] ++ beBytes 2 k.seq.toNat ++ beBytes 4 k.ts.toNat ++
    beBytes 4 (mw s i (ctlPkt legL + 4)) ++ k.body).take 512

/-- LAUNCH of a packet (R388). -/
def launchTime (s : State) (i w : Nat) : Nat :=
  let v := bits (mw s i 0x62C) 15 0
  let pace := if v = 0 then 500 else max 100 (min 1900 v)
  (w + 1000 * pace + 244 * (chanSlot s i % 128)) % 2 ^ 32

/-- A packet is written to the leg's egress area and posted (R387, R388); a post without write access to
region 6 is stopped as R89 says (R380). -/
def legSend (s : State) (c i w : Nat) (legL : Bool) (k : LegPacket) : State :=
  let tpl := bits (mw s i (ctlPkt legL + 8)) 24 6
  let a := pksBase + 64 * tpl
  let alt := bitN (mw s i 0x63C) (b2n legL)
  let pay := packetBytes s i legL k
  let ct := mw s i (ctlPkt legL)
  let udptl := k.kind == .udptl
  let s := if udptl then physWrite s (a + 0x40)
      (putBytes (s.readBytes a 64) 10 (beBytes 2 (mw s i 0x114 / 65536) ++ beBytes 2 (mw s i 0x114 % 65536))) else s
  let s := physWrite s (a + 0xC0 + 512 * alt) pay
  let s := physWrite s (a + 0x80 + 16 * alt) (leBytes 4 (64 * tpl + 0xC0 + 512 * alt) ++
    leBytes 4 ((tpl + b2n udptl) * 2 ^ 13 + pay.length) ++ leBytes 4 (launchTime s i w) ++
    leBytes 4 (2 ^ 31 + (if bitOf ct 28 && !udptl then 2 ^ 26 else 0) + bits ct 31 29 * 2 ^ 22 + bits ct 5 0 * 2 ^ 16 +
      chanSlot s i + 8192 * b2n legL))
  let s := setW s i 0x63C (putBit (mw s i 0x63C) (b2n legL) (alt == 0))
  let s := if k.kind == .noise then stsCount s i 0x510 1 else s
  if bitOf (s.rd F.FUS_PMSGC_RIGHTS) 13 then post s false (64 * tpl + 0x80 + 16 * alt) false
  else s.recordErr (.sgc (Fin.ofNat 64 c)) 1 true 0x00F0700870

/-- The packets of a leg in a block. -/
def legPackets (s : State) (c i n w : Nat) (legL : Bool) (b : LegBlock) : State :=
  let o := codInForce legL + 8
  let s := setW s i o (min 1000000 (mw s i o + blockMs s i))
  let due := voiceDue s i n legL
  b.packets.foldl (fun s k => if k.kind == .voice && !due then s else legSend s c i w legL k) s

/-! ## Rings (R290, R299–R301) -/

/-- The record of sub-block j. -/
def recordBytes (s : State) (i n w j : Nat) (b : BlockEnd) : List Byte :=
  let m := subSamples s i
  let part := fun (l : List (BitVec 16)) => sampleBytes ((l.drop (m * j) ++ List.replicate m 0).take m)
  padTo (recSize s i) (leBytes 4 n ++ leBytes 4 (w + j * 2000000) ++ leBytes 1 j ++ List.replicate 7 0 ++
    part b.lineIn ++ part b.sendOut ++ part b.lineOut)

/-- The writer reaches the mark: the first time marks it as passed, the second overtakes it (R300), which
stops a copy that runs (R301); how far the copy has come is not given. -/
def passMark (s : State) (i ix : Nat) : State :=
  if !bitOf (mw s i 0x418) 31 || bits (mw s i 0x418) 30 16 % rrLen s i != ix then s
  else if !markPassed s i then setF s i 0x600 1 1 1
  else
    let s := setF (setF s i 0x418 31 31 0) i 0x410 30 30 1
    if bitOf (mw s i 0x41C) 31 then
      let r := s.draw
      setF (rewindEnd r.2 i (r.1 % (mw r.2 i 0x604 + 1)) false) i 0x400 23 20 4
    else s

/-- A record is written (R299). -/
def writeRecord (s : State) (i n w j : Nat) (b : BlockEnd) : State :=
  let ix := bits (mw s i 0x418) 14 0 % rrLen s i
  let s := physWrite (passMark s i ix) (rrAddr s i ix) (recordBytes s i n w j b)
  setF s i 0x418 14 0 ((ix + 1) % rrLen s i)

/-- The records of a block. -/
def blockRecords (s : State) (i n w : Nat) (b : BlockEnd) : State :=
  if bitOf (mw s i 0x038) 31 && bits (mw s i 0x03C) 14 0 != 0 then
    s.over (List.range (blockMs s i / 2)) fun s j => writeRecord s i n w j b
  else s

/-- Transmit slot (N + 2) mod 4 is written (R22, R290); the samples are kept for a repeat (R278). -/
def blockOutput (s : State) (i n : Nat) (samples : List (BitVec 16)) : State :=
  if chanLine s i != 1 then s
  else
    let m := subSamples s i
    let b := sampleBytes ((samples ++ List.replicate m 0).take m)
    let s := markDirty (s.writeBytes (frameAddr i + 0x800) (padTo 64 b)) i
    physWrite s (txRing (chanSlot s i) + 2 * m * ((n + 2) % 4)) b

/-- The last output again (R278). -/
def repeatOutput (s : State) (i n : Nat) : State :=
  let m := 2 * subSamples s i
  physWrite s (txRing (chanSlot s i) + m * ((n + 2) % 4)) (s.readBytes (frameAddr i + 0x800) m)

/-! ## The block -/

/-- What the control copy asks for before audio (R325, R333, R351, R355, R360, R361). -/
def blockControls (s : State) (i : Nat) : State :=
  let s := ecClearSeq (tableReload s i) i
  if !chanAudio s i then s
  else
    let s := codecChange (codecChange s i false) i true
    let s := s.over (List.range 4) fun s k => shapeLoad s i k
    genTake (levelRequest (levelRequest s i false) i true) i

/-- The audio of a block. -/
def blockAudio (s : State) (c i : Nat) (k : BlockStep) (b : BlockEnd) : State :=
  let w := b.w.toNat
  let s := ecBlock s i k b.ec
  let leg := fun (s : State) (legL : Bool) (l : LegBlock) =>
    if legBound s i legL then legPackets (legStatus (legPlay s i legL l) i legL l) c i k.n w legL l else s
  let s := leg (leg s false b.legP) true b.legL
  let s := stsCount s i 0x51C b.t38Lost
  let s := blockOutput (blockRecords s i k.n w b) i k.n b.lineOut
  setW s i 0x628 (min 1000000 (mw s i 0x628 + blockMs s i))

/-- A block without audio: silence toward the line, empty jitter buffers (R282). -/
def blockSilence (s : State) (i : Nat) (k : BlockStep) : State :=
  let s := setF (setF s i 0x480 27 27 0) i 0x480 23 23 0
  let s := if legBound s i false then legEmpty s i false else s
  let s := if legBound s i true then legEmpty s i true else s
  blockOutput s i k.n []

/-- The status every block leaves: its number and its cost. -/
def blockDone (s : State) (i : Nat) (k : BlockStep) : State :=
  let cyc := s.rd I.cycle (rbank s (i / 16))
  let s := setF (setW (setW s i 0x404 k.n) i 0x408 cyc) i 0x664 0 0 1
  setW s i 0x40C (max cyc (mw s i 0x40C))

/-- The block program of the job on core c ends (R278, R282, R286). -/
def mediaBlock (s : State) (c : Nat) (b : BlockEnd) : State :=
  match mediaPage s c with
  | none => s
  | some i =>
    let k := blockStep s i
    let s := s.wr I.migFresh (chanCid s i) 0
    let s := if k.slip then stsCount s i 0x414 1 else s
    let s := movingState (channelStart (takeCommand s i b.w.toNat) i b.w.toNat) i
    let s := blockControls s i
    let s :=
      if k.same then repeatOutput (setF (setF s i 0x480 27 27 0) i 0x480 23 23 0) i k.n
      else if chanAudio s i then blockAudio s c i k b
      else blockSilence s i k
    blockDone s i k

end Sys2Proof.Machine
end

