-- ==== Sys2Proof/Machine/Traps.lean ====
section
/-! DEFINITION.  Taking a trap on a signal core and an exception on a supervisor core, the return from each, and
what a core does at a bundle boundary (R129–R135, R180, R208, R506, R507). -/

namespace Sys2Proof.Machine

/-- The initiator that core c is. -/
def coreInit (c : Nat) : Init :=
  if isSvc c then .svc ⟨c % 4, Nat.mod_lt c (by decide)⟩ else .sgc ⟨c % 64, Nat.mod_lt c (by decide)⟩

/-- Supervisor control register 32 + k of core c, as a bundle reads it. -/
def scrOf (s : State) (c k : Nat) : Nat := s.cr (rbank s c) I.scr (16 * (c - 64) + k)

/-- The state with supervisor control register 32 + k of core c at v. -/
def setScr (s : State) (c k v : Nat) : State := s.wr I.scr (16 * (c - 64) + k) v

/-! ## Causes (R129, R130, R135) -/

/-- Causes by name, for slot k; FETCH and SLOTERR have no slot that the spec gives: a free one. -/
def causeFetch (s : State) (a : Nat) : Cause := ⟨0, 7, 6, a, Config.freeNat s.freeCtr % 16⟩
def causeIllegal (k : Nat) : Cause := ⟨1, 1, 1, 0, k⟩
def causePriv (k : Nat) : Cause := ⟨2, 1, 5, 0, k⟩
def causeSlot (s : State) : Cause := ⟨3, 2, 2, 0, Config.freeNat s.freeCtr % 16⟩
def causeSeq (k : Nat) : Cause := ⟨4, 3, 3, 0, k⟩
def causeAlign (k a : Nat) : Cause := ⟨5 + k, 4, 4, a, k⟩
def causeBadaddr (k a : Nat) (store : Bool) : Cause := ⟨5 + k, 5, if store then 8 else 7, a, k⟩
def causeNopage (k a : Nat) : Cause := ⟨5 + k, 6, 7, a, k⟩
def causeBreak : Cause := ⟨20, 9, 10, 0, 4⟩

/-- The first cause in the order of R130. -/
def firstCause : List Cause → Option Cause
  | [] => none
  | k :: r =>
    match firstCause r with
    | some j => if j.rank < k.rank then some j else some k
    | none => some k

/-! ## Entry and return -/

/-- The vector offset of an exception code (R135). -/
def vectorOf (code : Nat) : Nat :=
  match code with
  | 0 => 0
  | 11 => 0x040
  | 6 => 0x080
  | 7 | 8 => 0x0C0
  | 4 => 0x140
  | 9 => 0x180
  | 10 => 0x1C0
  | _ => 0x100

/-- The entry of an exception on supervisor core c, its restart bundle at the core's PC (R134, R139). -/
def svcException (s : State) (c code ecause eaddr : Nat) : State :=
  let b := rbank s c
  let s := landAll s b
  let s := { s.wr I.qstall c 0 with bundles := Tbl.drop c s.bundles }
  let st := scrOf s c 0
  let s := setScr (setScr s c 6 st) c 0 (clrBit (setBit st 0) 1)
  let s := setScr (setScr (setScr s c 3 (s.rd I.pcb b)) c 4 ecause) c 5 eaddr
  let s := setScr (setScr s c 7 (dsWord s b)) c 8 (s.rd I.btgt b)
  let s := (s.wr I.pcb b ((scrOf s c 1 + vectorOf code) % 2 ^ 32)).wr I.act b 0
  ((s.wr I.dly b 0).wr I.btaken b 0).wr I.linkV (c - 64) 0

/-- The bundle of core c is cancelled. -/
def cancelBundle (s : State) (c : Nat) : State := { s.wr I.qstall c 0 with bundles := Tbl.drop c s.bundles }

/-- A trap on signal core c: into the handler, or, from a handler, the end of the job as a FAULT (R129,
R132). -/
def sgcTrap (s : State) (c code info addr : Nat) (imprecise : Bool) : State :=
  if inTrap s (rbank s c) then jobFault s c code
  else trapBank (cancelBundle s c) (rbank s c) code info addr imprecise

/-- A cause takes effect on core c: its bundle is cancelled; BKPT halts the core instead where the debug port
asks for that (R507). -/
def takeCause (s : State) (c : Nat) (k : Cause) : State :=
  if k.code == 9 && s.on F.MLS_DBG_CFG_BKPTHALT && dbgAvail s then setHalted (cancelBundle s c) c true
  else if isSvc c then svcException s c k.svcCode (k.slot * 256 + k.svcCode) k.addr
  else sgcTrap s c k.code k.slot k.addr false

/-- The ARITH trap or exception that is due on core c (R130). -/
def takeArith (s : State) (c : Nat) : State :=
  let b := rbank s c
  let acc := s.rd I.arith b - 1
  let s := s.wr I.arith b 0
  if isSvc c then svcException s c 9 (2 ^ 30 + acc * 256 + 9) 0 else sgcTrap s c 8 acc 0 true

/-- Bank b resumes at an address with a delay and loop state and a branch target (R128, R131). -/
def resumeAt (s : State) (b pc ds tgt : Nat) : State :=
  recordWrite ((s.wr I.pcb b (pc / 4 * 4)).wr I.btgt b tgt) b 0x190 ds

/-- RETT (R131). -/
def rettAct (s : State) (c : Nat) : State :=
  let b := rbank s c
  resumeAt (s.wr I.tcause b (clrBit (s.rd I.tcause b) 31)) b (s.rd I.trpc b) (s.rd I.tds b) (s.rd I.tbtgt b)

/-- ERET (R134). -/
def eretAct (s : State) (c : Nat) : State :=
  let r := fun k => s.rd I.scr (16 * (c - 64) + k)
  resumeAt (setScr s c 0 (r 6)) (rbank s c) (r 3) (r 7) (r 8)

/-- What waits for a bundle boundary of core c: the end of a step, a halt, a CANCEL (R208, R506, R508). -/
def boundary (s : State) (c : Nat) : State :=
  let s := if stepping s c then s.set F.MLS_DBG_STEP_GO 0 else s
  if haltReq s c then haltNow s c
  else if !halted s c && !isSvc c && s.on I.cJob c && s.on I.jCancel (s.rd I.cJob c - 1) then stopCancelled s c
  else s

/-! ## Commands -/

/-- ARITH_TRAP (R130): a due trap is taken at a bundle boundary. -/
def execArithTrap (c : Fin 68) (s : State) : Host.Outcome State Fault Refusal :=
  if coreLive s c.val && !halted s c.val && atBoundary s c.val && s.on I.arith (rbank s c.val) then
    go (boundary (takeArith s c.val) c.val)
  else go s

end Sys2Proof.Machine
end

