-- ==== Sys2Proof/Machine/Svc.lean ====
section
/-! DEFINITION.  The memory system of the supervisor cores: translation, the TLB, the data caches, cache and
TLB maintenance, linked loads and conditional stores (R136–R139, R181, R182). -/

namespace Sys2Proof.Machine

/-- What an access wants of a translation. -/
inductive Want where
  | fetch | load | store
  | any                   -- CACHE: V alone
  deriving DecidableEq, Repr

/-! ## Translation (R136, R137) -/

/-- Bits of a translation table entry. -/
abbrev entV := 0
abbrev entW := 1
abbrev entX := 2
abbrev entU := 3
abbrev entG := 4

/-- The level-2 entry that the tables in memory give a virtual address. -/
def walk (s : State) (c va : Nat) : Option Nat :=
  let e1 := s.readLE (bits (scrOf s c 2) 31 5 * 0x2000 + 8 * (va / 2 ^ 22)) 8
  let e2 := s.readLE (bits e1 39 13 * 0x2000 + 8 * (va / 2 ^ 12 % 1024)) 8
  if bitOf e1 entV && bitOf e2 entV && bits e2 7 6 != 3 then some e2 else none

/-- The TLB of core c. -/
def tlbOf (s : State) (c : Nat) : List TlbEntry := Tbl.get [] s.tlbs c

/-- Does a TLB entry match a page in an address space. -/
def TlbEntry.matches (t : TlbEntry) (vpn asid : Nat) : Bool := t.vpn == vpn && (bitOf t.entry entG || t.asid == asid)

/-- The current ASID. -/
def asidOf (s : State) (c : Nat) : Nat := scrOf s c 2 % 32

/-- The entry a virtual address is translated by: the TLB's, else the tables'. -/
def pageEntry (s : State) (c va : Nat) : Option Nat :=
  match (tlbOf s c).find? (·.matches (va / 4096) (asidOf s c)) with
  | some t => some t.entry
  | none => walk s c va

/-- Is translation enabled. -/
def mmuOn (s : State) (c : Nat) : Bool := bitOf (scrOf s c 0) 5

/-- Does an entry permit an access. -/
def permits (s : State) (c e : Nat) : Want → Bool
  | .any => true
  | .fetch => bitOf e entX && (bitOf (scrOf s c 0) 0 || bitOf e entU)
  | .load => bitOf (scrOf s c 0) 0 || bitOf e entU
  | .store => bitOf e entW && (bitOf (scrOf s c 0) 0 || bitOf e entU)

/-- The physical address and MT of a virtual address; with translation off every access is uncached and
strongly ordered, as MT = 0b10. -/
def translate (s : State) (c va : Nat) (w : Want) : Option (Nat × Nat) :=
  if mmuOn s c then
    match pageEntry s c va with
    | some e => if permits s c e w then some (bits e 39 12 * 4096 + va % 4096, bits e 7 6) else none
    | none => none
  else some (va, 2)

/-- The TLB keeps the entry used; a full one loses an entry that the spec leaves open. -/
def tlbNote (s : State) (c va : Nat) : State :=
  if mmuOn s c && ((tlbOf s c).find? (·.matches (va / 4096) (asidOf s c))).isNone then
    match walk s c va with
    | none => s
    | some e =>
      let l := tlbOf s c
      let (kept, s) := if l.length < 64 then (l, s) else
        let (k, s) := s.draw
        (l.eraseIdx (k % l.length), s)
      { s with tlbs := Tbl.put [] c (kept ++ [⟨va / 4096, asidOf s c, e⟩]) s.tlbs }
  else s

/-- TLBI (R182): op 0 a page, 1 an ASID, 2 every non-global entry, 3 every entry. -/
def tlbInvalidate (s : State) (c op v : Nat) : State :=
  let gone := fun t : TlbEntry =>
    match op with
    | 0 => t.matches (v / 4096) (asidOf s c)
    | 1 => !bitOf t.entry entG && t.asid == v % 32
    | 2 => !bitOf t.entry entG
    | _ => true
  { s with tlbs := Tbl.put [] c ((tlbOf s c).filter (!gone ·)) s.tlbs }

/-! ## Data caches (R138) -/

/-- The line of a physical address. -/
def lineOf (pa : Nat) : Nat := pa / 64 * 64

/-- The data-cache line at a line address. -/
def dLine (s : State) (la : Nat) : Option DLine := (s.dLines.find? fun e => e.1 == la).map (·.2)

/-- The state with a data-cache line; without holders it is gone. -/
def setLine (s : State) (la : Nat) (d : DLine) : State :=
  { s with dLines := if d.holders.isEmpty then Tbl.drop la s.dLines else Tbl.ins la d (Tbl.drop la s.dLines) }

/-- The links of the supervisor cores as they were. -/
def keepLinks (old s : State) : State := s.over (List.range 4) fun s k => s.wr I.linkV k (old.rd I.linkV k)

/-- A dirty line is written back. -/
def cleanLine (s : State) (c la : Nat) : State :=
  match dLine s la with
  | some d =>
    if d.dirty && d.holders.contains c then
      setLine (keepLinks s (placeWrite s (coreInit c) la d.data (place s la))) la { d with dirty := false }
    else s
  | none => s

/-- Core c no longer holds a line. -/
def dropLine (s : State) (c la : Nat) : State :=
  match dLine s la with
  | some d => setLine s la { d with holders := d.holders.filter (· != c) }
  | none => s

/-- The lines core c holds. -/
def heldLines (s : State) (c : Nat) : List Nat := (s.dLines.filter fun e => e.2.holders.contains c).map (·.1)

/-- Core c makes room for a line: a full set loses one of its four lines, which one the spec leaves open. -/
def roomForLine (s : State) (c la : Nat) : State :=
  let full := (heldLines s c).filter fun l => l / 64 % 256 == la / 64 % 256
  if full.length < 4 then s
  else
    let (k, s) := s.draw
    let v := full.getD (k % full.length) la
    dropLine (cleanLine s c v) c v

/-- Core c comes to hold a line. -/
def fillLine (s : State) (c la : Nat) : State :=
  match dLine s la with
  | some d => if d.holders.contains c then s else setLine (roomForLine s c la) la { d with holders := c :: d.holders }
  | none =>
    let s := cstReady s la
    setLine (roomForLine s c la) la ⟨s.readBytes la 64, false, c, [c]⟩

/-- Can a place be cached. -/
def Place.cacheable : Place → Bool
  | .cst | .pks | .sym | .code | .svcLocal _ _ | .dram => true
  | _ => false

/-- Does an access of core c go through its data cache. -/
def cached (s : State) (c pa mt : Nat) : Bool := bitOf (scrOf s c 0) 7 && mt == 0 && (place s pa).cacheable

/-- A read of n bytes, aligned, by supervisor core c. -/
def svcRead (s : State) (c pa mt n : Nat) : Nat × State :=
  if cached s c pa mt then
    let s := fillLine s c (lineOf pa)
    match dLine s (lineOf pa) with
    | some d => (ofLE ((d.data.drop (pa % 64)).take n), s)
    | none => (0, s)
  else (busRead s (coreInit c) pa n).2

/-- A write of n bytes, aligned, by supervisor core c: through the cache, the other cores' copies of the
line are invalidated and links to the granule break (R138, R139). -/
def svcWrite (s : State) (c pa mt n v : Nat) : State :=
  if cached s c pa mt then
    let s := breakLinks (fillLine s c (lineOf pa)) pa n
    match dLine s (lineOf pa) with
    | some d => setLine s (lineOf pa) ⟨putBytes d.data (pa % 64) (leBytes n v), true, c, [c]⟩
    | none => s
  else (busWrite s (coreInit c) pa (leBytes n v)).2

/-- CACHE by address (R182): 0 instruction line, 1 clean, 2 invalidate, 3 clean and invalidate. -/
def cacheLine (s : State) (c op va : Nat) : State :=
  match translate s c va .any with
  | none => s
  | some (pa, _) =>
    let s := tlbNote s c va
    let la := lineOf pa
    match op with
    | 0 => { s with iLines := Tbl.put [] c ((Tbl.get [] s.iLines c).filter (· != la)) s.iLines }
    | 1 => cleanLine s c la
    | 2 => dropLine s c la
    | _ => dropLine (cleanLine s c la) c la

/-- CACHE of a whole cache (R182). -/
def cacheAll (s : State) (c : Nat) (data : Bool) : State :=
  if data then s.over (heldLines s c) fun s la => dropLine (cleanLine s c la) c la
  else { s with iLines := Tbl.drop c s.iLines }

/-! ## Linked access (R139, R181) -/

/-- Does core c's link hold for a physical address. -/
def linkHolds (s : State) (c pa : Nat) : Bool := s.on I.linkV (c - 64) && s.rd I.linkA (c - 64) == lineOf pa

/-- Can a conditional store succeed at a place: SYM, supervisor local memory, DRAM, not with MT = 0b10. -/
def stcnPlace (s : State) (pa mt : Nat) : Bool :=
  mt != 2 && match place s pa with
    | .sym | .svcLocal _ _ | .dram => true
    | _ => false

/-- Does a STCN by core c to a virtual address go on to store, if its page permits it. -/
def stcnGoes (s : State) (c va : Nat) : Bool :=
  match translate s c va .any with
  | some (pa, mt) => linkHolds s c pa && stcnPlace s pa mt
  | none => true

/-- LDLK: the word, and the link. -/
def ldlkAct (s : State) (c va : Nat) : Nat × State :=
  match translate s c va .load with
  | none => (0, s)
  | some (pa, mt) =>
    let r := svcRead (tlbNote s c va) c pa mt 4
    (r.1, (r.2.wr I.linkV (c - 64) 1).wr I.linkA (c - 64) (lineOf pa))

/-- STCN: 1 where the store was made, 0 where it was not; the link is gone. -/
def stcnAct (s : State) (c va v : Nat) : Nat × State :=
  match (if stcnGoes s c va then translate s c va .store else none) with
  | some (pa, mt) => (1, (svcWrite (tlbNote s c va) c pa mt 4 v).wr I.linkV (c - 64) 0)
  | none => (0, s.wr I.linkV (c - 64) 0)

end Sys2Proof.Machine
end

