-- ==== Sys2Proof/Machine/Issue.lean ====
section
/-! DEFINITION.  Bundles: how syllables form one, where its accesses go, what may keep it from issuing, and
what its issue does (R105–R116, R120–R125, R129, R130, R145, R153, R174–R182, R232, R233). -/

namespace Sys2Proof.Machine

/-! ## Code (R107, R110, R138) -/

/-- Is a virtual address in the code store. -/
def inCode (a : Nat) : Bool := decide (0x21000000 ≤ a) && decide (a < 0x21400000)

/-- The physical address of an instruction. -/
def fetchAddr (s : State) (c a : Nat) : Option Nat :=
  if isSvc c then (translate s c a .fetch).map (·.1) else if inCode a then some a else none

/-- The E bit of the code word at an address. -/
def endsBundle (s : State) (c a : Nat) : Bool :=
  match fetchAddr s c a with
  | some pa => bitOf (s.readLE pa 4) 31
  | none => true

/-- The address after the bundle at an address, which has at most n more syllables. -/
def afterBundle (s : State) (c a : Nat) : Nat → Nat
  | 0 => a
  | n + 1 => if endsBundle s c a then a + 4 else afterBundle s c (a + 4) n

/-- The instruction cache holds the line of an instruction; of a full set the line that leaves is left open:
3 ways on a signal core, 4 on a supervisor core, of 256 sets. -/
def fetchLine (s : State) (c a : Nat) : State :=
  match fetchAddr s c a with
  | none => s
  | some pa =>
    let l := Tbl.get [] s.iLines c
    if l.contains (lineOf pa) || (isSvc c && !bitOf (scrOf s c 0) 6) then s
    else
      let same := l.filter fun x => x / 64 % 256 == pa / 64 % 256
      let (keep, s) := if same.length < (if isSvc c then 4 else 3) then (l, s) else
        let (k, s) := s.draw
        (l.filter (· != same.getD (k % same.length) 0), s)
      let s := if isSvc c then tlbNote s c a else s
      { s with iLines := Tbl.put [] c (lineOf pa :: keep) s.iLines }

/-! ## Accesses of a signal core (R105–R107, R125) -/

/-- Does a virtual address outside the context view reach anything (R105). -/
def vMapped (a : Nat) : Bool :=
  (decide (0x10000000 ≤ a) && decide (a < 0x12000000)) || (decide (0x20000000 ≤ a) && decide (a < 0x20800000)) ||
    inCode a || (decide (0x30000000 ≤ a) && decide (a < 0x31400000)) ||
    (decide (0xF0000000 ≤ a) && decide (a < 0xF1200000))

/-- The task whose job runs on core c, and the context it runs on. -/
def coreTask (s : State) (c : Nat) : Nat := s.rd I.cJob c - 1
def coreCid (s : State) (c : Nat) : Nat := s.rd I.jCid (coreTask s c)

/-- The frame that holds the context-view page of an address for the job of core c. -/
def viewFrame (s : State) (c a : Nat) : Option Nat := stagedFrame s c (coreTask s c) (coreCid s c) (a / 4096)

/-- What an access of core c meets before it is made. -/
inductive Meet where
  | ok
  | fault            -- a page fault, which the hardware handles
  | cause (k : Cause)
  deriving DecidableEq, Repr

/-- An access by a signal core. -/
def sgcMeet (s : State) (c slot size a : Nat) : Meet :=
  if a % size != 0 then .cause (causeAlign slot a)
  else if 0x10000 ≤ a then (if vMapped a then .ok else .cause (causeBadaddr slot a false))
  else if !s.on I.jCv (coreTask s c) then .cause (causeBadaddr slot a false)
  else if (viewFrame s c a).isSome then .ok
  else if notPresent s (coreCid s c) (a / 4096) then .cause (causeNopage slot a)
  else .fault

/-- An access by a supervisor core. -/
def svcMeet (s : State) (c slot size a : Nat) (w : Want) : Meet :=
  if a % size != 0 then .cause (causeAlign slot a)
  else if (translate s c a w).isSome then .ok
  else .cause (causeBadaddr slot a (w == .store))

/-- What an effect meets: accesses, linked accesses, cache maintenance by address. -/
def meetOf (s : State) (c : Nat) : Eff → Meet
  | .load slot size a _ => if isSvc c then svcMeet s c slot size a .load else sgcMeet s c slot size a
  | .store slot size a _ => if isSvc c then svcMeet s c slot size a .store else sgcMeet s c slot size a
  | .act (.ldlk a _) => svcMeet s c 4 4 a .load
  | .act (.stcn a _ _) => svcMeet s c 4 4 a (if stcnGoes s c a then .store else .any)
  | .act (.cacheLine _ a) => svcMeet s c 4 1 a .any
  | _ => .ok

/-- The causes that the accesses of a bundle raise. -/
def meetCauses (s : State) (c : Nat) (effs : List Eff) : List Cause :=
  effs.filterMap fun x => match meetOf s c x with | .cause k => some k | _ => none

/-- The virtual address of an access. -/
def accessAddr : Eff → Nat
  | .load _ _ a _ | .store _ _ a _ => a
  | _ => 0

/-- The addresses on which a bundle page-faults, in slot order. -/
def faultAddrs (s : State) (c : Nat) (effs : List Eff) : List Nat :=
  effs.filterMap fun x => if meetOf s c x = .fault then some (accessAddr x) else none

/-- PAGE_FAULT (R125, R203, R232, R233): the bundle is cancelled and the job leaves the core; a ninth page
ends the job; a job already cancelled ends as that. -/
def pageFault (s : State) (c : Nat) (addrs : List Nat) : State :=
  let t := coreTask s c
  let s := cancelBundle s c
  let pages := maskOf (addrs.map (· / 4096))
  if s.on I.jCancel t then stopCancelled s c
  else if 8 < popcount 16 (Nat.lor (s.rd I.jWs t) pages) then jobFault s c 6
  else requestSwitch ((cpgCount s F.CPG_FAULTCNT_COUNT).wr I.jFault t pages) c 2 (addrs.headD 0)

/-- A read of n bytes by core c, aligned and mapped. -/
def coreRead (s : State) (c a n : Nat) : Nat × State :=
  if isSvc c then
    match translate s c a .load with
    | some (pa, mt) => svcRead (tlbNote s c a) c pa mt n
    | none => (0, s)
  else if 0x10000 ≤ a then (busRead s (coreInit c) a n).2
  else match viewFrame s c a with
    | some i => (s.readLE (frameAddr i + a % 4096) n, s)
    | none => (0, s)

/-- A write. -/
def coreWrite (s : State) (c a n v : Nat) : State :=
  if isSvc c then
    match translate s c a .store with
    | some (pa, mt) => svcWrite (tlbNote s c a) c pa mt n v
    | none => s
  else if 0x10000 ≤ a then (busWrite s (coreInit c) a (leBytes n v)).2
  else match viewFrame s c a with
    | some i => markDirty (s.writeLE (frameAddr i + a % 4096) n v) i
    | none => s

/-! ## Queues (R178, R179, R255) -/

/-- Who a core is to QUE. -/
def queueWho (s : State) (c : Nat) : Nat := if isSvc c then 0x10001 + (c - 64) else s.rd I.cJob c

/-- Must a bundle wait for a queue. -/
def queueWaits (s : State) : Eff → Bool
  | .act (.queue write false _ q _ _) => if write then !(s.queue q).canWrite else !(s.queue q).canRead
  | _ => false

/-! ## The effects of a bundle -/

/-- A whole result in flight. -/
def putLanding (f : Fld) (i v lat : Nat) : Landing := ⟨lat, f, i, v, none⟩

/-- The bits of v spread over cells as results. -/
def spreadOver (cells : List (Fld × Nat)) (v lat : Nat) : List Landing :=
  match cells with
  | [] => []
  | (f, i) :: r => putLanding f i (v % 2 ^ f.w) lat :: spreadOver r (v / 2 ^ f.w) lat

/-- A queue access as the bundle issues: the state and the results. -/
def queueAct (s : State) (c : Nat) (write try_ fin : Bool) (q v rw : Nat) : State × List Landing :=
  let b := rbank s c
  let x := s.queue q
  let z := fun k : Nat => if try_ then [putLanding I.flZ b k 3] else []
  if write then
    if x.canWrite then (queueWrite s q c (queueWho s c) v fin, z 0) else (s, z 1)
  else if x.canRead then
    let r := queueRead s q c (queueWho s c)
    (r.2, spreadOver (wordCells s b rw) r.1.val 3 ++ [putLanding I.flC b (b2n r.1.last) 3] ++ z 0)
  else (s, z 1)

/-- TOUCH (R176, R232, R233). -/
def touchAct (s : State) (c a : Nat) : State :=
  let t := coreTask s c
  let v := a / 4096
  if 0x10000 ≤ a || !s.on I.jCv t || notPresent s (coreCid s c) v ||
      (framesOn s c (coreCid s c) v).any (fun i => ownedBy s i t) then s
  else
    let all := Nat.lor (Nat.lor (s.rd I.jWs t) (s.rd I.stSet t)) (s.rd I.jTouch t)
    if 8 < popcount 16 (setBit all v) then jobFault s c 6 else touchPage s c t v

/-- What an act does as its bundle issues, apart from the flow of control. -/
def actNow (s : State) (c : Nat) : Act → State × List Landing
  | .signal w => (signalWrite s w, [])
  | .queue write try_ fin q v rw => queueAct s c write try_ fin q v rw
  | .ldlk a rd => let r := ldlkAct s c a; (r.2, spreadOver (wordCells s (rbank s c) rd) r.1 3)
  | .stcn a v rd => let r := stcnAct s c a v; (r.2, spreadOver (wordCells s (rbank s c) rd) r.1 3)
  | .cacheLine op a => (cacheLine s c op a, [])
  | .cacheAll data => (cacheAll s c data, [])
  | .tlbi op v => (tlbInvalidate s c op v, [])
  | _ => (s, [])

/-- One effect: the state after its access or act, and its results. -/
def effNow (s : State) (c : Nat) : Eff → State × List Landing
  | .put f i v lat => (s, [putLanding f i v lat])
  | .putBits f i v mask lat => (s, [⟨lat, f, i, v, some mask⟩])
  | .accPut i v => (s, [putLanding I.ac i v 1])
  | .overflow acc => (s, [⟨2, I.acov, rbank s c, 2 ^ acc, some (2 ^ acc)⟩])
  | .load _ size a dst => let r := coreRead s c a size; (r.2, spreadOver dst r.1 3)
  | .store _ size a v => (coreWrite s c a size v, [])
  | .act a => actNow s c a

/-- The effects of a bundle in order. -/
def effsNow (c : Nat) : State → List Eff → State × List Landing
  | s, [] => (s, [])
  | s, x :: r =>
    let p := effNow s c x
    let q := effsNow c p.1 r
    (q.1, p.2 ++ q.2)

/-- Is an effect a store; is it an act. -/
def Eff.isStore : Eff → Bool
  | .store _ _ _ _ => true
  | _ => false
def Eff.isAct : Eff → Bool
  | .act _ => true
  | _ => false

/-- The order in which the effects of a bundle take place: on a signal core its loads read before its stores
write (R112, R113, R157), and its act follows (R175); a supervisor core takes them as they stand (R158). -/
def issueOrder (c : Nat) (effs : List Eff) : List Eff :=
  if isSvc c then effs
  else effs.filter (fun x => !x.isStore && !x.isAct) ++ effs.filter Eff.isStore ++ effs.filter Eff.isAct

/-- The accumulator halves that a bundle's MAC-class results replace, with their values before. -/
def macOld (s : State) (effs : List Eff) : List (Nat × Nat) :=
  effs.filterMap fun x => match x with | .accPut i _ => some (i, s.rd I.ac i) | _ => none

/-- A bundle boundary passes in bank b (R112, R113): older results that are due land, those in some bits of a
register after whole ones, and then the new results of latency 1. -/
def landings (s : State) (b : Nat) (new : List Landing) : State :=
  let aged := (inFlight s b).map fun l => { l with left := l.left - 1 }
  let due := aged.filter fun l => l.left == 0
  let s := landDue s due
  let s := s.over (new.filter fun l => decide (l.left ≤ 1)) land
  let rest := aged.filter (fun l => l.left != 0) ++
    (new.filter fun l => decide (1 < l.left)).map fun l => { l with left := l.left - 1 }
  { s with landings := Tbl.put [] b rest s.landings }

/-! ## The flow of control (R116, R120–R122, R171, R173) -/

/-- The act of a bundle: its S syllable's. -/
def bundleAct (effs : List Eff) : Option Act :=
  effs.findSome? fun x => match x with | .act a => some a | _ => none

/-- Is an act a branch, a loop, or one of the others that R116 bars from delay bundles. -/
def Act.isBranch : Act → Bool
  | .branch _ _ _ => true
  | _ => false
def Act.isLoop : Act → Bool
  | .loop _ _ _ => true
  | _ => false
def Act.barred : Act → Bool
  | .branch _ _ _ | .loop _ _ _ | .rett | .waitJob | .endJob _ | .yield => true
  | _ => false

/-- Is loop level n of a bank active; does the bundle at its PC end the body. -/
def loopActive (s : State) (b n : Nat) : Bool := bitOf (s.rd I.act b) n
def atLoopEnd (s : State) (b n : Nat) : Bool := loopActive s b n && s.rd I.pcb b == s.rd I.le (2 * b + n)

/-- The SEQERR causes of a bundle (R116, R120). -/
def seqCauses (s : State) (b : Nat) (act : Option Act) : List Cause :=
  let is := fun p : Act → Bool => act.any p
  let ends := atLoopEnd s b 0 || atLoopEnd s b 1
  if (s.on I.dly b && is Act.barred) || (is Act.isLoop && s.rd I.act b == 3) || (ends && is Act.isBranch) then
    [causeSeq 4]
  else if ends && s.on I.dly b then [causeSeq (Config.freeNat s.freeCtr % 16)]
  else []

/-- A loop level ends. -/
def endLevel (s : State) (b n : Nat) : State := s.wr I.act b (clrBit (s.rd I.act b) n)

/-- Does the count of a level go round again; for a count of 0, which only software can put there, the spec
leaves it open. -/
def goesRound (s : State) (b n : Nat) : Bool :=
  decide (1 < s.rd I.lc (2 * b + n)) || (s.rd I.lc (2 * b + n) == 0 && bitOf (Config.freeNat s.freeCtr) 0)

/-- A LOOPR level rotates the registers (R122). -/
def rotate (s : State) (b n : Nat) : State :=
  if bitOf (s.rd I.rot b) n then s.wr I.rrb b ((s.rd I.rrb b + 15) % 16) else s

/-- The loop level n ends its body at this bundle: the state, and whether execution falls through. -/
def loopEnd (s : State) (b n : Nat) : State × Bool :=
  if atLoopEnd s b n then
    let round := goesRound s b n
    let s := rotate s b n
    if round then
      ((s.wr I.lc (2 * b + n) (s.rd I.lc (2 * b + n) + 65535)).wr I.pcb b (s.rd I.ls (2 * b + n)), false)
    else (endLevel (s.wr I.lc (2 * b + n) 0) b n, true)
  else (s, true)

/-- The loop ends of a bundle: level 1 first, level 0 where it falls through; then the PC is `next`. -/
def loopEnds (s : State) (b next : Nat) : State :=
  let r := loopEnd s b 1
  if r.2 then
    let q := loopEnd r.1 b 0
    if q.2 then q.1.wr I.pcb b next else q.1
  else r.1

/-- Does a branch target lie outside a level's body. -/
def outside (s : State) (b n target : Nat) : Bool :=
  decide (target < s.rd I.ls (2 * b + n)) || decide (s.rd I.le (2 * b + n) < target)

/-- The branch of a bank takes effect: the PC, and the levels it leaves (R121). -/
def takeBranch (s : State) (b : Nat) : State :=
  let tgt := s.rd I.btgt b
  let s := (s.wr I.pcb b (tgt / 4 * 4)).wr I.btaken b 0
  if loopActive s b 0 && outside s b 0 tgt then s.wr I.act b 0
  else if loopActive s b 1 && outside s b 1 tgt then endLevel s b 1
  else s

/-- The PC moves past a bundle of n syllables with an act. -/
def advance (s : State) (b n : Nat) (act : Option Act) : State :=
  let pc := s.rd I.pcb b
  let s := loopEnds s b (pc + 4 * n)
  let s := if s.on I.dly b then
      let s := s.wr I.dly b (s.rd I.dly b - 1)
      if !s.on I.dly b && s.on I.btaken b then takeBranch s b else s
    else s
  match act with
  | some (.branch taken relative target) =>
    let at' : Int := if relative then pc + 4 * (n - 1 : Nat) + target else target
    ((s.wr I.dly b 2).wr I.btaken b (b2n taken)).wr I.btgt b (ofInt 32 at')
  | _ => s

/-- LOOP and LOOPR in a bundle of n syllables at `pc` (R120, R173): the level, or, for a count of 0, the
bundle after the body. -/
def loopAct (s : State) (c pc n : Nat) (rotates : Bool) (count leoff : Nat) : State :=
  let b := rbank s c
  let lev := if loopActive s b 0 then 1 else 0
  let le := (pc + 4 * (n - 1) + 4 * leoff) % 2 ^ 32
  let s := ((s.wr I.ls (2 * b + lev) (pc + 4 * n)).wr I.le (2 * b + lev) le).wr I.lc (2 * b + lev) count
  if count = 0 then s.wr I.pcb b (afterBundle s c le 4)
  else (s.wr I.act b (setBit (s.rd I.act b) lev)).wr I.rot b (putBit (s.rd I.rot b) lev rotates)

/-- The end of a job by ENDJOB: the results of a Media Library block, if the job is one, then the end (R204);
a job already cancelled ends as that. -/
def endAct (s : State) (c : Nat) (blk : Option BlockEnd) : State :=
  if s.on I.jCancel (coreTask s c) then stopCancelled s c
  else
    let s := landAll s (rbank s c)
    endJob (match blk with | some b => mediaBlock s c b | none => s) c

/-- What an act does once its bundle has issued. -/
def actAfter (s : State) (c pc n : Nat) : Act → State
  | .loop rotates count leoff => loopAct s c pc n rotates count leoff
  | .endJob blk => endAct s c blk
  | .yield => if s.on I.jCancel (coreTask s c) then stopCancelled s c else requestSwitch s c 3 0
  | .rett => rettAct s c
  | .eret => eretAct s c
  | .syscall imm => svcException s c 11 (4 * 256 + 11) imm
  | .touch a => touchAct s c a
  | _ => s

/-! ## Issue -/

/-- An overflow with MODE.OVTRAP = 1 makes the ARITH trap due; its age counts bundle boundaries (R130). -/
def arithNote (s : State) (b : Nat) (effs : List Eff) : State :=
  if s.on I.arith b then s.wr I.arithAge b (s.rd I.arithAge b + 1)
  else match effs.findSome? fun x => match x with | .overflow acc => some acc | _ => none with
    | some acc => if modeOVTRAP s b then (s.wr I.arith b (acc + 1)).wr I.arithAge b 0 else s
    | none => s

/-- An ARITH trap that may wait no longer is taken: at the latest at the second bundle boundary after the
bundle of the overflow (R130). -/
def arithDue (s : State) (c : Nat) : State :=
  if s.on I.arith (rbank s c) && decide (1 ≤ s.rd I.arithAge (rbank s c)) && coreLive s c then takeArith s c else s

/-- The bundle x of core c issues. -/
def issue (s : State) (c : Nat) (x : Bundle) : State :=
  let b := rbank s c
  let pc := s.rd I.pcb b
  let act := bundleAct x.effs
  let s := { s.wr I.qstall c 0 with bundles := Tbl.drop c s.bundles }
  let p := effsNow c s (issueOrder c x.effs)
  let shadow := macOld s x.effs
  let s := arithNote (advance p.1 b x.n act) b x.effs
  let s := landings s b p.2
  let s := { s with macShadow := Tbl.put [] b shadow s.macShadow, freeCtr := s.freeCtr + 1 }
  let s := s.wr I.cycle b (s.rd I.cycle b + 1)
  arithDue (match act with | some a => actAfter s c pc x.n a | none => s) c

/-- A complete bundle: a trap, a page fault, a stall on a queue, or its issue (R125, R129, R130, R179). -/
def closeBundle (s : State) (c : Nat) (x : Bundle) : State :=
  match firstCause (x.causes ++ seqCauses s (rbank s c) (bundleAct x.effs) ++ meetCauses s c x.effs) with
  | some k => boundary (takeCause s c k) c
  | none =>
    match faultAddrs s c x.effs with
    | a :: r => boundary (pageFault s c (a :: r)) c
    | [] =>
      if x.effs.any (queueWaits s) then
        let s := { s.wr I.qstall c 1 with bundles := Tbl.put Bundle.empty c { x with closed := true } s.bundles }
        if stepping s c then s else boundary s c
      else boundary (issue s c x) c

/-! ## Syllables -/

/-- The bundle core c is assembling. -/
def bundleOf (s : State) (c : Nat) : Bundle := Tbl.get Bundle.empty s.bundles c

/-- Syllable classes (R110). -/
abbrev clsS := 0
abbrev clsL := 1
abbrev clsM := 2

/-- Does a class break the order of R110. -/
def misplaced (x : Bundle) (cls : Nat) : Bool :=
  match cls with
  | 2 => decide (2 ≤ x.nM) || x.hasL || x.hasS
  | 1 => x.hasL || x.hasS
  | 0 => x.hasS
  | _ => false

/-- The bundle with one more syllable (R110, R111): its effects, its causes, its fetch. -/
def Bundle.add (x : Bundle) (s : State) (c : Nat) (e : Bool) (cls : Nat) (effs : List Eff) (causes : List Cause) : Bundle :=
  let a := s.rd I.pcb (rbank s c) + 4 * x.n
  let fetch := if (fetchAddr s c a).isNone then [causeFetch s a] else []
  let order := if misplaced x cls || (x.n == 3 && !e) then [causeSlot s] else []
  { n := x.n + 1, nM := x.nM + b2n (cls == clsM), hasL := x.hasL || cls == clsL, hasS := x.hasS || cls == clsS,
    effs := x.effs ++ effs, causes := x.causes ++ fetch ++ order ++ causes, closed := false }

/-- The Y access of a dual L syllable joins its X access. -/
def Bundle.join (x : Bundle) (effs : List Eff) (causes : List Cause) : Bundle :=
  { x with effs := x.effs ++ effs, causes := x.causes ++ causes }

/-- A syllable of core c arrives: e ends its bundle.  A core that may not issue, or that stalls on a queue,
takes none. -/
def syllable (s : State) (c : Nat) (e : Bool) (cls : Nat) (part : LPart) (effs : List Eff) (causes : List Cause) : State :=
  let x := bundleOf s c
  if !mayIssue s c || x.closed then s
  else
    let y := if part = .second && x.hasL then x.join effs causes else x.add s c e cls effs causes
    let s := if part = .second then s else fetchLine s c (s.rd I.pcb (rbank s c) + 4 * x.n)
    if part != .first && (e || decide (4 ≤ y.n)) then closeBundle s c y
    else { s with bundles := Tbl.put Bundle.empty c y s.bundles }

/-- QUEUE_STALL_RELEASE (R258): the stalled bundle of core c is tried again. -/
def execQueueStallRelease (c : Fin 68) (s : State) : Host.Outcome State Fault Refusal :=
  if mayIssue s c.val && (bundleOf s c.val).closed && s.on I.qstall c.val then go (closeBundle s c.val (bundleOf s c.val))
  else go s

end Sys2Proof.Machine
end

