-- ==== Sys2Proof/Machine/IsaAlu.lean ====
section
/-! DEFINITION.  S syllables: arithmetic, logic, shifts, comparisons, constants and moves (R159–R165, R168,
R169). -/

namespace Sys2Proof.Machine

/-! ## Forms -/

/-- The outcome of a syllable. -/
abbrev Out := Host.Outcome State Fault Refusal

/-- An S syllable with its effects and causes. -/
def sSyl (s : State) (c : Nat) (e : Bool) (effs : List Eff) (causes : List Cause) : Out :=
  go (syllable s c e clsS .only effs causes)

/-- ILLEGAL in the S slot, if a check fails. -/
def illegalIf (p : Bool) : List Cause := if p then [causeIllegal 4] else []

/-- A value for RD with flags, at a size, of latency 1. -/
def resultSz (s : State) (b : Nat) (sz : Bool) (rd v : Nat) (fs : FlagSet) : List Eff :=
  putSz s b sz rd v ++ putFlags b 1 fs

/-- The SR form of two operands: `f` gives value and flags of the operation size and the operands. -/
def sr2 (s : State) (c : Nat) (e sz : Bool) (rd ra rb : Nat) (f : Nat → Nat → Nat → Nat × FlagSet) : Out :=
  let b := rbank s c
  let r := f (szBits sz) (readSz s b sz ra) (readSz s b sz rb)
  sSyl s c e (resultSz s b sz rd r.1 r.2) []

/-- The SR form of one operand. -/
def sr1 (s : State) (c : Nat) (e sz : Bool) (rd ra : Nat) (f : Nat → Nat → Nat × FlagSet) : Out :=
  let b := rbank s c
  let r := f (szBits sz) (readSz s b sz ra)
  sSyl s c e (resultSz s b sz rd r.1 r.2) []

/-- The SI form: the immediate is the second operand. -/
def si (s : State) (c : Nat) (e sz : Bool) (rd ra : Nat) (imm : BitVec 12) (f : Nat → Nat → Nat → Nat × FlagSet) : Out :=
  let b := rbank s c
  let r := f (szBits sz) (readSz s b sz ra) (immSz sz imm)
  sSyl s c e (resultSz s b sz rd r.1 r.2) []

/-! ## Operations: value and flags (R161, R162, R169) -/

/-- a + b, under MODE.SAT of the bank. -/
def addOp (sat : Bool) (n a b : Nat) : Nat × FlagSet := (arithVal sat n (signedOf n a + signedOf n b), addFlags n a b)
def subOp (sat : Bool) (n a b : Nat) : Nat × FlagSet := (arithVal sat n (signedOf n a - signedOf n b), subFlags n a b)

/-- Bitwise operations: Z and N from the result, V 0. -/
def bitOp (f : Nat → Nat → Nat) (n a b : Nat) : Nat × FlagSet := (f a b % 2 ^ n, znOf n (f a b) none (some false))

/-- The count of a shift: the low 4 or 5 bits. -/
def shiftCount (n k : Nat) : Nat := k % n

def asrOp (n a k : Nat) : Nat × FlagSet :=
  let k := shiftCount n k
  (asrVal n a k, znOf n (asrVal n a k) (some (shrCarry a k)) (some false))
def lsrOp (n a k : Nat) : Nat × FlagSet :=
  let k := shiftCount n k
  (a / 2 ^ k, znOf n (a / 2 ^ k) (some (shrCarry a k)) (some false))
def lslOp (n a k : Nat) : Nat × FlagSet :=
  let k := shiftCount n k
  (a * 2 ^ k % 2 ^ n, znOf n (a * 2 ^ k) (some (shlCarry n a k)) (some false))

/-- Signed minimum and maximum: Z and N alone. -/
def minOp (n a b : Nat) : Nat × FlagSet :=
  let r := if signedOf n a ≤ signedOf n b then a else b
  (r, znOf n r none none)
def maxOp (n a b : Nat) : Nat × FlagSet :=
  let r := if signedOf n a ≤ signedOf n b then b else a
  (r, znOf n r none none)

/-- −a and |a|. -/
def negOp (sat : Bool) (n a : Nat) : Nat × FlagSet := subOp sat n 0 a
def absOp (sat : Bool) (n a : Nat) : Nat × FlagSet :=
  let x : Int := (signedOf n a).natAbs
  (arithVal sat n x, znOf n (ofInt n x) none (some (!fitsS n x)))

/-- The operand shifted left by its count of redundant sign bits. -/
def normOp (n a : Nat) : Nat × FlagSet :=
  let r := a * 2 ^ redundant n a % 2 ^ n
  (r, znOf n r none none)

/-- MODE.SAT as core c's bundle reads it. -/
def satOf (s : State) (c : Nat) : Bool := modeSAT s (rbank s c)

/-! ## Arithmetic and logic -/

/-- NOP, or an L syllable with no access (R157, R162). -/
def execNop (c : Fin 68) (e inL : Bool) (s : State) : Out :=
  go (syllable s c.val e (if inL then clsL else clsS) .only [] [])

/-- ADD (R161). -/
def execAdd (c : Fin 68) (e sz : Bool) (rd ra rb : BitVec 5) (s : State) : Out :=
  sr2 s c.val e sz rd.toNat ra.toNat rb.toNat (addOp (satOf s c.val))

/-- SUB (R161). -/
def execSub (c : Fin 68) (e sz : Bool) (rd ra rb : BitVec 5) (s : State) : Out :=
  sr2 s c.val e sz rd.toNat ra.toNat rb.toNat (subOp (satOf s c.val))

/-- AND (R162). -/
def execAnd (c : Fin 68) (e sz : Bool) (rd ra rb : BitVec 5) (s : State) : Out :=
  sr2 s c.val e sz rd.toNat ra.toNat rb.toNat (bitOp Nat.land)

/-- OR (R162). -/
def execOr (c : Fin 68) (e sz : Bool) (rd ra rb : BitVec 5) (s : State) : Out :=
  sr2 s c.val e sz rd.toNat ra.toNat rb.toNat (bitOp Nat.lor)

/-- XOR (R162). -/
def execXor (c : Fin 68) (e sz : Bool) (rd ra rb : BitVec 5) (s : State) : Out :=
  sr2 s c.val e sz rd.toNat ra.toNat rb.toNat (bitOp Nat.xor)

/-- ASR (R162). -/
def execAsr (c : Fin 68) (e sz : Bool) (rd ra rb : BitVec 5) (s : State) : Out :=
  sr2 s c.val e sz rd.toNat ra.toNat rb.toNat asrOp

/-- LSR (R162). -/
def execLsr (c : Fin 68) (e sz : Bool) (rd ra rb : BitVec 5) (s : State) : Out :=
  sr2 s c.val e sz rd.toNat ra.toNat rb.toNat lsrOp

/-- LSL (R162). -/
def execLsl (c : Fin 68) (e sz : Bool) (rd ra rb : BitVec 5) (s : State) : Out :=
  sr2 s c.val e sz rd.toNat ra.toNat rb.toNat lslOp

/-- MIN (R162). -/
def execMin (c : Fin 68) (e sz : Bool) (rd ra rb : BitVec 5) (s : State) : Out :=
  sr2 s c.val e sz rd.toNat ra.toNat rb.toNat minOp

/-- MAX (R162). -/
def execMax (c : Fin 68) (e sz : Bool) (rd ra rb : BitVec 5) (s : State) : Out :=
  sr2 s c.val e sz rd.toNat ra.toNat rb.toNat maxOp

/-- ABS (R161, R162). -/
def execAbs (c : Fin 68) (e sz : Bool) (rd ra : BitVec 5) (s : State) : Out :=
  sr1 s c.val e sz rd.toNat ra.toNat (absOp (satOf s c.val))

/-- NEG (R161, R162). -/
def execNeg (c : Fin 68) (e sz : Bool) (rd ra : BitVec 5) (s : State) : Out :=
  sr1 s c.val e sz rd.toNat ra.toNat (negOp (satOf s c.val))

/-- The flags of a comparison (R161). -/
def cmpEffs (b n x y : Nat) : List Eff := putFlags b 1 (subFlags n x y)

/-- CMP (R161). -/
def execCmp (c : Fin 68) (e sz : Bool) (ra rb : BitVec 5) (s : State) : Out :=
  let b := rbank s c.val
  sSyl s c.val e (cmpEffs b (szBits sz) (readSz s b sz ra.toNat) (readSz s b sz rb.toNat)) []

/-- MULI (R162). -/
def execMuli (c : Fin 68) (e : Bool) (rd ra rb : BitVec 5) (s : State) : Out :=
  let b := rbank s c.val
  let r := ofInt 32 (signedOf 16 (readD s b ra.toNat) * signedOf 16 (readD s b rb.toNat))
  sSyl s c.val e (putWord s b rd.toNat r 1 ++ putFlags b 1 (znOf 32 r none none)) []

/-- ADDI (R161). -/
def execAddi (c : Fin 68) (e sz : Bool) (rd ra : BitVec 5) (imm : BitVec 12) (s : State) : Out :=
  si s c.val e sz rd.toNat ra.toNat imm (addOp (satOf s c.val))

/-- ANDI (R162). -/
def execAndi (c : Fin 68) (e sz : Bool) (rd ra : BitVec 5) (imm : BitVec 12) (s : State) : Out :=
  si s c.val e sz rd.toNat ra.toNat imm (bitOp Nat.land)

/-- ORI (R162). -/
def execOri (c : Fin 68) (e sz : Bool) (rd ra : BitVec 5) (imm : BitVec 12) (s : State) : Out :=
  si s c.val e sz rd.toNat ra.toNat imm (bitOp Nat.lor)

/-- XORI (R162). -/
def execXori (c : Fin 68) (e sz : Bool) (rd ra : BitVec 5) (imm : BitVec 12) (s : State) : Out :=
  si s c.val e sz rd.toNat ra.toNat imm (bitOp Nat.xor)

/-- ASRI (R162). -/
def execAsri (c : Fin 68) (e sz : Bool) (rd ra : BitVec 5) (imm : BitVec 12) (s : State) : Out :=
  si s c.val e sz rd.toNat ra.toNat imm asrOp

/-- LSRI (R162). -/
def execLsri (c : Fin 68) (e sz : Bool) (rd ra : BitVec 5) (imm : BitVec 12) (s : State) : Out :=
  si s c.val e sz rd.toNat ra.toNat imm lsrOp

/-- LSLI (R162). -/
def execLsli (c : Fin 68) (e sz : Bool) (rd ra : BitVec 5) (imm : BitVec 12) (s : State) : Out :=
  si s c.val e sz rd.toNat ra.toNat imm lslOp

/-- CMPI (R161). -/
def execCmpi (c : Fin 68) (e sz : Bool) (ra : BitVec 5) (imm : BitVec 12) (s : State) : Out :=
  let b := rbank s c.val
  sSyl s c.val e (cmpEffs b (szBits sz) (readSz s b sz ra.toNat) (immSz sz imm)) []

/-! ## Constants and moves -/

/-- MOVI.H (R163). -/
def execMoviH (c : Fin 68) (e : Bool) (rd : BitVec 5) (imm : BitVec 16) (s : State) : Out :=
  sSyl s c.val e [putD s (rbank s c.val) rd.toNat imm.toNat 1] []

/-- MOVI.W (R163). -/
def execMoviW (c : Fin 68) (e : Bool) (rd : BitVec 5) (imm : BitVec 16) (s : State) : Out :=
  sSyl s c.val e (putWord s (rbank s c.val) rd.toNat (ofInt 32 imm.toInt) 1) []

/-- MOVHI (R163). -/
def execMovhi (c : Fin 68) (e : Bool) (rd : BitVec 5) (imm : BitVec 16) (s : State) : Out :=
  let b := rbank s c.val
  sSyl s c.val e (putWord s b rd.toNat (imm.toNat * 2 ^ 16 + readWord s b rd.toNat % 2 ^ 16) 1) []

/-- MOVR (R143, R164). -/
def execMovr (c : Fin 68) (e : Bool) (xd xs : BitVec 6) (s : State) : Out :=
  let b := rbank s c.val
  let bad := decide (56 ≤ xd.toNat) || decide (56 ≤ xs.toNat)
  sSyl s c.val e (if bad then [] else putCells (extCells s b xd.toNat) (readExt s b xs.toNat) 1) (illegalIf bad)

/-- What bars a MOVC: an illegal number (R103, R133), or a number of the supervisor in user privilege (R144). -/
def movcCauses (s : State) (c cr : Nat) : List Cause :=
  if !crLegal (isSvc c) cr then [causeIllegal 4]
  else if decide (32 ≤ cr) && !privileged s c then [causePriv 4] else []

/-- MOVC with DIR = 0 (R103, R165). -/
def execMovcRead (c : Fin 68) (e : Bool) (cr : BitVec 6) (rw : BitVec 5) (s : State) : Out :=
  sSyl s c.val e (putWord s (rbank s c.val) rw.toNat (readCr s c.val cr.toNat) 1) (movcCauses s c.val cr.toNat)

/-- MOVC with DIR = 1 (R103, R165). -/
def execMovcWrite (c : Fin 68) (e : Bool) (cr : BitVec 6) (rw : BitVec 5) (s : State) : Out :=
  sSyl s c.val e (writeCr s c.val cr.toNat (readWord s (rbank s c.val) rw.toNat)) (movcCauses s c.val cr.toNat)

/-! ## Fractional operations on registers -/

/-- RND (R168). -/
def execRnd (c : Fin 68) (e : Bool) (rd ra : BitVec 5) (s : State) : Out :=
  let b := rbank s c.val
  let q := roundShift (modeRM s b) (signedOf 32 (readWord s b ra.toNat)) 16
  let r := ofInt 16 (fitVal (modeSAT s b) q 16)
  sSyl s c.val e (putD s b rd.toNat r 1 :: putFlags b 1 (znOf 16 r none (some (fitOv q 16)))) []

/-- NORM (R169). -/
def execNorm (c : Fin 68) (e sz : Bool) (rd ra : BitVec 5) (s : State) : Out :=
  sr1 s c.val e sz rd.toNat ra.toNat normOp

/-- EXP (R169). -/
def execExp (c : Fin 68) (e sz : Bool) (rd ra : BitVec 5) (s : State) : Out :=
  let b := rbank s c.val
  sSyl s c.val e [putD s b rd.toNat (redundant (szBits sz) (readSz s b sz ra.toNat)) 1] []

end Sys2Proof.Machine
end

