-- ==== Sys2Proof/Machine/IsaMem.lean ====
section
/-! DEFINITION.  L syllables, linked accesses, queues, and cache and TLB maintenance (R153–R158, R175–R179,
R181, R182). -/

namespace Sys2Proof.Machine

/-- The slot of a port: 2 L X access, 3 L Y access (TCAUSE.INFO). -/
def portSlot (port : Bool) : Nat := if port then 3 else 2

/-- The effect of the pointer update of an access. -/
def pointerPut (b : Nat) (port : Bool) (ptr : Nat) : Option Nat → List Eff
  | some v => [.put I.p (16 * b + ptrOf port ptr) v 1]
  | none => []

/-- An access command: the data register has a number that is a multiple of `align`; `f` gives the access at
its address (R143, R153–R155, R118). -/
def access (s : State) (c : Nat) (e : Bool) (part : LPart) (port : Bool) (mode : LMode) (ptr reg align size : Nat)
    (store mod : Bool) (f : Nat → List Eff) : Out :=
  let b := rbank s c
  let a := addressing s b port mode ptr size mod
  let k := portSlot port
  let causes := if a.illegal || reg % align != 0 then [causeIllegal k]
    else if a.badLen then [causeBadaddr k a.addr store] else []
  go (syllable s c e clsL part (f a.addr ++ pointerPut b port ptr a.after) causes)

/-- The D registers reg … reg + n − 1 as cells, in the physical places their names have at issue. -/
def dCells (s : State) (b reg n : Nat) : List (Fld × Nat) := (List.range n).map fun k => (I.d, 32 * b + physD s b (reg + k))

/-- The value of D registers reg … reg + n − 1, the first lowest. -/
def dValue (s : State) (b reg n : Nat) : Nat := (List.range n).foldr (fun k v => readD s b (reg + k) + 2 ^ 16 * v) 0

/-- A load of n D registers. -/
def loadD (s : State) (c : Nat) (e : Bool) (part : LPart) (port : Bool) (mode : LMode) (reg ptr n : Nat) : Out :=
  access s c e part port mode ptr reg n (2 * n) false false fun a =>
    [.load (portSlot port) (2 * n) a (dCells s (rbank s c) reg n)]

/-- A store of n D registers. -/
def storeD (s : State) (c : Nat) (e : Bool) (part : LPart) (port : Bool) (mode : LMode) (reg ptr n : Nat) : Out :=
  access s c e part port mode ptr reg n (2 * n) true false fun a =>
    [.store (portSlot port) (2 * n) a (dValue s (rbank s c) reg n)]

/-- LD.H (R153). -/
def execLdH (c : Fin 68) (e : Bool) (part : LPart) (port : Bool) (mode : LMode) (reg : BitVec 5) (ptr : BitVec 3)
    (s : State) : Out := loadD s c.val e part port mode reg.toNat ptr.toNat 1

/-- LD.W (R153). -/
def execLdW (c : Fin 68) (e : Bool) (part : LPart) (port : Bool) (mode : LMode) (reg : BitVec 5) (ptr : BitVec 3)
    (s : State) : Out := loadD s c.val e part port mode reg.toNat ptr.toNat 2

/-- LD.L (R153). -/
def execLdL (c : Fin 68) (e : Bool) (part : LPart) (port : Bool) (mode : LMode) (reg : BitVec 5) (ptr : BitVec 3)
    (s : State) : Out := loadD s c.val e part port mode reg.toNat ptr.toNat 4

/-- ST.H (R153). -/
def execStH (c : Fin 68) (e : Bool) (part : LPart) (port : Bool) (mode : LMode) (reg : BitVec 5) (ptr : BitVec 3)
    (s : State) : Out := storeD s c.val e part port mode reg.toNat ptr.toNat 1

/-- ST.W (R153). -/
def execStW (c : Fin 68) (e : Bool) (part : LPart) (port : Bool) (mode : LMode) (reg : BitVec 5) (ptr : BitVec 3)
    (s : State) : Out := storeD s c.val e part port mode reg.toNat ptr.toNat 2

/-- ST.L (R153). -/
def execStL (c : Fin 68) (e : Bool) (part : LPart) (port : Bool) (mode : LMode) (reg : BitVec 5) (ptr : BitVec 3)
    (s : State) : Out := storeD s c.val e part port mode reg.toNat ptr.toNat 4

/-- MOD (R153–R155). -/
def execMod (c : Fin 68) (e : Bool) (part : LPart) (port : Bool) (mode : LMode) (ptr : BitVec 3) (s : State) : Out :=
  access s c.val e part port mode ptr.toNat 0 1 0 false true fun _ => []

/-- A syllable of a reserved opcode or with a bad field, or of class 0b11 (R111, R143). -/
def execReservedSyllable (c : Fin 68) (e : Bool) (cls : BitVec 2) (s : State) : Out :=
  let k := match cls.toNat with
    | 0 => 4
    | 1 => 2
    | 2 => min 1 (bundleOf s c.val).nM
    | _ => Config.freeNat s.freeCtr % 16
  go (syllable s c.val e cls.toNat .only [] [causeIllegal k])

/-! ## Events and memory requests -/

/-- An S syllable that only a signal core has, or only a supervisor core (R144). -/
def sgcSyl (s : State) (c : Nat) (e : Bool) (a : Act) : Out :=
  if isSvc c then sSyl s c e [] [causeIllegal 4] else sSyl s c e [.act a] []

/-- A supervisor core's instruction: ILLEGAL on a signal core, PRIV in user privilege where `priv` asks for
privilege (R144). -/
def svcSyl (s : State) (c : Nat) (e priv bad : Bool) (a : Act) : Out :=
  if !isSvc c || bad then sSyl s c e [] [causeIllegal 4]
  else if priv && !privileged s c then sSyl s c e [] [causePriv 4]
  else sSyl s c e [.act a] []

/-- SIGNAL (R175). -/
def execSignal (c : Fin 68) (e : Bool) (ra : BitVec 5) (s : State) : Out :=
  sgcSyl s c.val e (.signal (readWord s (rbank s c.val) ra.toNat))

/-- TOUCH (R176). -/
def execTouch (c : Fin 68) (e : Bool) (ra : BitVec 5) (s : State) : Out :=
  sgcSyl s c.val e (.touch (readWord s (rbank s c.val) ra.toNat))

/-- FENCE (R177): every earlier access of the model has taken effect by now. -/
def execFence (c : Fin 68) (e : Bool) (s : State) : Out := sSyl s c.val e [.act .fence] []

/-! ## Queues -/

/-- The queue an instruction names (R178). -/
def queueNo (s : State) (b : Nat) : QSel → Nat
  | .num q => q.toNat
  | .reg rb => readD s b rb.toNat % 256

/-- QRD (R178, R179). -/
def execQrd (c : Fin 68) (e : Bool) (q : QSel) (rw : BitVec 4) (s : State) : Out :=
  sSyl s c.val e [.act (.queue false false false (queueNo s (rbank s c.val) q) 0 rw.toNat)] []

/-- QWR (R178, R179). -/
def execQwr (c : Fin 68) (e : Bool) (fin : Bool) (q : QSel) (rw : BitVec 4) (s : State) : Out :=
  let b := rbank s c.val
  sSyl s c.val e [.act (.queue true false fin (queueNo s b q) (readWord s b rw.toNat) rw.toNat)] []

/-- QTRY (R178). -/
def execQtry (c : Fin 68) (e : Bool) (dir fin : Bool) (q : QSel) (rw : BitVec 4) (s : State) : Out :=
  let b := rbank s c.val
  sSyl s c.val e [.act (.queue dir true fin (queueNo s b q) (readWord s b rw.toNat) rw.toNat)] []

/-! ## Linked accesses and maintenance of caches and TLBs -/

/-- LDLK (R139, R181): RA names P0–P15. -/
def execLdlk (c : Fin 68) (e : Bool) (rd ra : BitVec 5) (s : State) : Out :=
  svcSyl s c.val e false (decide (ra.toNat < 16)) (.ldlk (readWord s (rbank s c.val) ra.toNat) rd.toNat)

/-- STCN (R139, R181). -/
def execStcn (c : Fin 68) (e : Bool) (rd ra rb : BitVec 5) (s : State) : Out :=
  let b := rbank s c.val
  svcSyl s c.val e false (decide (ra.toNat < 16)) (.stcn (readWord s b ra.toNat) (readWord s b rb.toNat) rd.toNat)

/-- CACHE by address (R182). -/
def cacheSyl (s : State) (c : Nat) (e : Bool) (op ra : Nat) : Out :=
  svcSyl s c e true false (.cacheLine op (readWord s (rbank s c) ra))

/-- CACHE 0b000 (R182). -/
def execCacheIinvLine (c : Fin 68) (e : Bool) (ra : BitVec 5) (s : State) : Out := cacheSyl s c.val e 0 ra.toNat

/-- CACHE 0b001 (R182). -/
def execCacheCleanLine (c : Fin 68) (e : Bool) (ra : BitVec 5) (s : State) : Out := cacheSyl s c.val e 1 ra.toNat

/-- CACHE 0b010 (R182). -/
def execCacheDinvLine (c : Fin 68) (e : Bool) (ra : BitVec 5) (s : State) : Out := cacheSyl s c.val e 2 ra.toNat

/-- CACHE 0b011 (R182). -/
def execCacheCleanInvLine (c : Fin 68) (e : Bool) (ra : BitVec 5) (s : State) : Out := cacheSyl s c.val e 3 ra.toNat

/-- CACHE 0b100 (R182). -/
def execCacheIinvAll (c : Fin 68) (e : Bool) (s : State) : Out := svcSyl s c.val e true false (.cacheAll false)

/-- CACHE 0b101 (R182). -/
def execCacheCleanInvAll (c : Fin 68) (e : Bool) (s : State) : Out := svcSyl s c.val e true false (.cacheAll true)

/-- TLBI 0b000 (R182). -/
def execTlbiPage (c : Fin 68) (e : Bool) (ra : BitVec 5) (s : State) : Out :=
  svcSyl s c.val e true false (.tlbi 0 (readWord s (rbank s c.val) ra.toNat))

/-- TLBI 0b001 (R182). -/
def execTlbiAsid (c : Fin 68) (e : Bool) (ra : BitVec 5) (s : State) : Out :=
  svcSyl s c.val e true false (.tlbi 1 (readWord s (rbank s c.val) ra.toNat))

/-- TLBI 0b010 (R182). -/
def execTlbiNonglobal (c : Fin 68) (e : Bool) (s : State) : Out := svcSyl s c.val e true false (.tlbi 2 0)

/-- TLBI 0b011 (R182). -/
def execTlbiAll (c : Fin 68) (e : Bool) (s : State) : Out := svcSyl s c.val e true false (.tlbi 3 0)

end Sys2Proof.Machine
end

