-- ==== Sys2Proof/Machine/IsaCtl.lean ====
section
/-! DEFINITION.  Branches, loops, the job instructions, breakpoints, system calls and returns (R116, R120–R123,
R129–R134, R171–R174, R177, R180). -/

namespace Sys2Proof.Machine

/-- The PC of core c's bundle, and the address of the syllable that comes next. -/
def bundlePc (s : State) (c : Nat) : Nat := s.rd I.pcb (rbank s c)
def sylAddr (s : State) (c : Nat) : Nat := bundlePc s c + 4 * (bundleOf s c).n

/-- The link of JL and JLR: the address of the third bundle after their own (R171). -/
def linkAddr (s : State) (c : Nat) : Nat :=
  afterBundle s c (afterBundle s c (sylAddr s c + 4) 4) 4 % 2 ^ 32

/-- A branch relative to its syllable by an offset in words. -/
def relBranch (taken : Bool) (off : Int) : Eff := .act (.branch taken true (4 * off))

/-- BR (R171). -/
def execBr (c : Fin 68) (e : Bool) (off : BitVec 23) (s : State) : Out := sSyl s c.val e [relBranch true off.toInt] []

/-- Does a condition hold on the flags of a bank (R172). -/
def branchCond (s : State) (b cond : Nat) : Bool :=
  condHolds cond (s.cr b I.flZ b == 1) (s.cr b I.flN b == 1) (s.cr b I.flC b == 1) (s.cr b I.flV b == 1)

/-- BRC (R172). -/
def execBrc (c : Fin 68) (e : Bool) (cond : BitVec 4) (off : BitVec 19) (s : State) : Out :=
  sSyl s c.val e [relBranch (branchCond s (rbank s c.val) cond.toNat) off.toInt] (illegalIf (cond == 15#4))

/-- JL (R171). -/
def execJl (c : Fin 68) (e : Bool) (pd : BitVec 4) (off : BitVec 19) (s : State) : Out :=
  sSyl s c.val e [.put I.p (16 * rbank s c.val + pd.toNat) (linkAddr s c.val) 1, relBranch true off.toInt] []

/-- JLR, and JR with LINK = 0, whose PD is zero (R171). -/
def execJlr (c : Fin 68) (e : Bool) (pd ps : BitVec 4) (link : Bool) (s : State) : Out :=
  let b := rbank s c.val
  let tgt := readP s b ps.toNat
  let jump := Eff.act (.branch true false tgt)
  let causes := if !link && pd != 0 then [causeIllegal 4] else if tgt % 4 != 0 then [causeAlign 4 tgt] else []
  sSyl s c.val e (if link then [.put I.p (16 * b + pd.toNat) (linkAddr s c.val) 1, jump] else [jump]) causes

/-- The count of a loop (R173). -/
def loopCount (s : State) (b : Nat) : LoopCount → Nat
  | .imm n => n.toNat
  | .reg rc => readD s b rc.toNat

/-- LOOP and LOOPR (R120, R122, R173). -/
def loopSyl (s : State) (c : Nat) (e : Bool) (count : LoopCount) (leoff : Nat) (rotates : Bool) : Out :=
  sSyl s c e [.act (.loop rotates (loopCount s (rbank s c) count) leoff)] (illegalIf (leoff == 0))

/-- LOOP (R173). -/
def execLoop (c : Fin 68) (e : Bool) (count : LoopCount) (leoff : BitVec 12) (s : State) : Out :=
  loopSyl s c.val e count leoff.toNat false

/-- LOOPR (R122, R173). -/
def execLoopr (c : Fin 68) (e : Bool) (count : LoopCount) (leoff : BitVec 12) (s : State) : Out :=
  loopSyl s c.val e count leoff.toNat true

/-! ## Jobs -/

/-- WAITJOB (R174): a core without a job blocks; for a job, and on a supervisor core, ILLEGAL. -/
def execWaitjob (c : Fin 68) (e : Bool) (s : State) : Out :=
  if !isSvc c.val && !s.on I.cJob c.val then (if s.serving then go (s.wr I.waiting c.val 1) else go s)
  else sSyl s c.val e [.act .waitJob] [causeIllegal 4]

/-- ENDJOB (R174, R204): `blk` holds the results of the block, where a Media Library block program ends. -/
def execEndjob (c : Fin 68) (e : Bool) (blk : Option BlockEnd) (s : State) : Out := sgcSyl s c.val e (.endJob blk)

/-- YIELD (R123, R174). -/
def execYield (c : Fin 68) (e : Bool) (s : State) : Out := sgcSyl s c.val e .yield

/-! ## Traps and exceptions -/

/-- BKPT (R129, R177, R507). -/
def execBkpt (c : Fin 68) (e : Bool) (_tag : BitVec 16) (s : State) : Out := sSyl s c.val e [.act .bkpt] [causeBreak]

/-- RETT (R131, R177): ILLEGAL outside a handler. -/
def execRett (c : Fin 68) (e : Bool) (s : State) : Out :=
  if isSvc c.val || !bitOf (readCr s c.val 7) 31 then sSyl s c.val e [.act .rett] [causeIllegal 4]
  else sSyl s c.val e [.act .rett] []

/-- SYSCALL (R180). -/
def execSyscall (c : Fin 68) (e : Bool) (imm : BitVec 16) (s : State) : Out :=
  svcSyl s c.val e false false (.syscall imm.toNat)

/-- ERET (R134, R180). -/
def execEret (c : Fin 68) (e : Bool) (s : State) : Out := svcSyl s c.val e true false .eret

end Sys2Proof.Machine
end

