-- ==== Sys2Proof/Machine/IsaMac.lean ====
section
/-! DEFINITION.  M syllables and the moves between accumulators and data registers (R101, R146–R152, R166,
R167, R170). -/

namespace Sys2Proof.Machine

/-- An M syllable: its slot is CM0 for the first of a bundle, else CM1 (R110). -/
def mSyl (s : State) (c : Nat) (e : Bool) (effs : List Eff) (bad : Bool) : Out :=
  go (syllable s c e clsM .only effs (if bad then [causeIllegal (min 1 (bundleOf s c).nM)] else []))

/-- acc_write: half h of ACn takes an exact value, and ACOV records whether it fits (R101, R150). -/
def accWrite (s : State) (b n h : Nat) (x : Int) : List Eff :=
  .accPut (16 * b + 2 * n + h) (accStore (modeSATACC s b) x) :: (if accOv x then [.overflow n] else [])

/-- D register k as a signed fraction. -/
def dInt (s : State) (b k : Nat) : Int := signedOf 16 (readD s b k)

/-- Accumulator half h of ACn after a term t with ACC (R147). -/
def accTerm (s : State) (b n h acc : Nat) (t : Int) : List Eff := accWrite s b n h (combine acc (readAc s b n h) t)

/-- An operand number names a W or Z register, or a quad (R143). -/
def pairBad (k : Nat) : Bool := k % 2 != 0
def quadBad (k : Nat) : Bool := k % 4 != 0

/-- CMAC, CMSU, CMUL, CMULN (R147). -/
def execCmac (c : Fin 68) (e : Bool) (acc : BitVec 2) (acd : BitVec 3) (ra rb : BitVec 5) (cja cjb : Bool) (s : State) :
    Out :=
  let b := rbank s c.val
  let ar := dInt s b ra.toNat
  let br := dInt s b rb.toNat
  let ai := if cja then -(dInt s b (ra.toNat + 1)) else dInt s b (ra.toNat + 1)
  let bi := if cjb then -(dInt s b (rb.toNat + 1)) else dInt s b (rb.toNat + 1)
  mSyl s c.val e (accTerm s b acd.toNat 0 acc.toNat (ar * br - ai * bi) ++
    accTerm s b acd.toNat 1 acc.toNat (ar * bi + ai * br)) (pairBad ra.toNat || pairBad rb.toNat)

/-- MAC, MSU, MUL, MULN (R148). -/
def execMac (c : Fin 68) (e : Bool) (acc : BitVec 2) (acd : BitVec 3) (ra rb : BitVec 5) (h : Bool) (s : State) : Out :=
  let b := rbank s c.val
  mSyl s c.val e (accTerm s b acd.toNat (b2n h) acc.toNat (dInt s b ra.toNat * dInt s b rb.toNat)) false

/-- QMAC, QMSU, QMUL, QMULN (R149). -/
def execQmac (c : Fin 68) (e : Bool) (acc : BitVec 2) (acd : BitVec 3) (ra rb : BitVec 5) (s : State) : Out :=
  let b := rbank s c.val
  let p := fun k => dInt s b (ra.toNat + k) * dInt s b (rb.toNat + k)
  mSyl s c.val e (accTerm s b acd.toNat 0 acc.toNat (p 0 + p 1) ++ accTerm s b acd.toNat 1 acc.toNat (p 2 + p 3))
    (quadBad ra.toNat || quadBad rb.toNat)

/-- One result of BFLY: fit(round_shift(x × 2¹⁵ + t, k), 16), of latency 2 (R151). -/
def bflyPut (s : State) (b rd : Nat) (x t : Int) (k : Nat) : Eff :=
  putD s b rd (ofInt 16 (fitVal (modeSAT s b) (roundShift (modeRM s b) (x * 32768 + t) k) 16)) 2

/-- BFLY (R151). -/
def execBfly (c : Fin 68) (e : Bool) (ra rb rc : BitVec 5) (sc cjw : Bool) (s : State) : Out :=
  let b := rbank s c.val
  let a := ra.toNat
  let z := rb.toNat
  let wr := dInt s b rc.toNat
  let wi := if cjw then -(dInt s b (rc.toNat + 1)) else dInt s b (rc.toNat + 1)
  let tre := dInt s b z * wr - dInt s b (z + 1) * wi
  let tim := dInt s b z * wi + dInt s b (z + 1) * wr
  let k := 15 + b2n sc
  mSyl s c.val e [bflyPut s b a (dInt s b a) tre k, bflyPut s b (a + 1) (dInt s b (a + 1)) tim k,
      bflyPut s b z (dInt s b a) (-tre) k, bflyPut s b (z + 1) (dInt s b (a + 1)) (-tim) k]
    (pairBad a || pairBad z || pairBad rc.toNat || a == z)

/-- An accumulator operation: `f` of each half of ACd and ACa (R152). -/
def accOp (s : State) (c : Nat) (e : Bool) (d a : Nat) (f : Int → Int → Int) : Out :=
  let b := rbank s c
  let other := fun h => if a = d then readAc s b a h else readAcLate s b a h
  mSyl s c e (accWrite s b d 0 (f (readAc s b d 0) (other 0)) ++ accWrite s b d 1 (f (readAc s b d 1) (other 1))) false

/-- ACCLR (R152). -/
def execAcclr (c : Fin 68) (e : Bool) (acd : BitVec 3) (s : State) : Out :=
  accOp s c.val e acd.toNat acd.toNat fun _ _ => 0

/-- ACMOV (R152). -/
def execAcmov (c : Fin 68) (e : Bool) (acd aca : BitVec 3) (s : State) : Out :=
  accOp s c.val e acd.toNat aca.toNat fun _ a => a

/-- ACADD (R152). -/
def execAcadd (c : Fin 68) (e : Bool) (acd aca : BitVec 3) (s : State) : Out :=
  accOp s c.val e acd.toNat aca.toNat fun d a => d + a

/-- ACSUB (R152). -/
def execAcsub (c : Fin 68) (e : Bool) (acd aca : BitVec 3) (s : State) : Out :=
  accOp s c.val e acd.toNat aca.toNat fun d a => d - a

/-- ACSHA (R152): a negative count shifts right, to the floor. -/
def execAcsha (c : Fin 68) (e : Bool) (acd : BitVec 3) (sh : BitVec 5) (s : State) : Out :=
  accOp s c.val e acd.toNat acd.toNat fun d _ => roundShift true d (-sh.toInt)

/-- ACNEG (R152). -/
def execAcneg (c : Fin 68) (e : Bool) (acd aca : BitVec 3) (s : State) : Out :=
  accOp s c.val e acd.toNat aca.toNat fun _ a => -a

/-! ## Moves out of and into accumulators -/

/-- What MOVA makes of half h of ACn: the value, and whether it overflowed, at 16 or 32 bits (R166). -/
def movaVal (s : State) (b acn h n : Nat) : Nat × Bool :=
  let k : Int := if n = 16 then 15 - modeMSH s b else -1 - modeMSH s b
  let q := roundShift (modeRM s b) (readAcLate s b acn h) k
  (ofInt n (fitVal (modeSAT s b) q n), fitOv q n)

/-- MOVA (R166). -/
def execMova (c : Fin 68) (e : Bool) (rd : BitVec 5) (acn : BitVec 3) (h : Bool) (form : BitVec 2) (s : State) : Out :=
  let b := rbank s c.val
  let v := fun ov : Bool => Eff.put I.flV b (b2n ov) 2
  match form.toNat with
  | 0 =>
    let r := movaVal s b acn.toNat (b2n h) 16
    sSyl s c.val e [putD s b rd.toNat r.1 2, v r.2] []
  | 1 =>
    let r := movaVal s b acn.toNat (b2n h) 32
    sSyl s c.val e (putWord s b rd.toNat r.1 2 ++ [v r.2]) []
  | 2 =>
    let r := movaVal s b acn.toNat 0 16
    let i := movaVal s b acn.toNat 1 16
    sSyl s c.val e [putD s b rd.toNat r.1 2, putD s b (rd.toNat + 1) i.1 2, v (r.2 || i.2)]
      (illegalIf (h || pairBad rd.toNat))
  | _ => sSyl s c.val e [] [causeIllegal 4]

/-- MOVAR (R167). -/
def execMovar (c : Fin 68) (e : Bool) (rd : BitVec 5) (acn : BitVec 3) (h : Bool) (form : BitVec 2) (s : State) : Out :=
  let b := rbank s c.val
  let a := ofInt 40 (readAcLate s b acn.toNat (b2n h))
  match form.toNat with
  | 0 => sSyl s c.val e (putWord s b rd.toNat (a % 2 ^ 32) 2) []
  | 1 => sSyl s c.val e [putD s b rd.toNat (ofInt 16 (signedOf 8 (a / 2 ^ 32))) 2] []
  | _ => sSyl s c.val e [] [causeIllegal 4]

/-- MOVTA (R167): RD names the source. -/
def execMovta (c : Fin 68) (e : Bool) (rd : BitVec 5) (acn : BitVec 3) (h : Bool) (form : BitVec 2) (s : State) : Out :=
  let b := rbank s c.val
  let i := 16 * b + 2 * acn.toNat + b2n h
  match form.toNat with
  | 0 => sSyl s c.val e [.put I.ac i (ofInt 40 (signedOf 32 (readWord s b rd.toNat))) 2] []
  | 1 => sSyl s c.val e [.putBits I.ac i (readD s b rd.toNat % 256 * 2 ^ 32) (255 * 2 ^ 32) 2] []
  | _ => sSyl s c.val e [] [causeIllegal 4]

/-- EXPA (R170). -/
def execExpa (c : Fin 68) (e : Bool) (rd : BitVec 5) (acn : BitVec 3) (h : Bool) (s : State) : Out :=
  let b := rbank s c.val
  let a := ofInt 40 (readAcLate s b acn.toNat (b2n h))
  sSyl s c.val e [putD s b rd.toNat (ofInt 16 ((redundant 40 a : Int) - 8)) 2] []

end Sys2Proof.Machine
end

