-- ==== Sys2Proof/Machine/Milestone.lean ====
section
/-! DEFINITION.  The Milestone latch: every block's snapshot set, the trace hold, MLOUT and the MLSTONE
frames (R71, R97, R142, R215, R251–R253, R393, R422, R439, R470, R492, R494, R497–R501, R509). -/

namespace Sys2Proof.Machine

/-- One snapshot register (instance i of its cell) copies the register at an offset of a block. -/
def snap (s : State) (f : Fld) (i blk off : Nat) : State := s.wr f i (regPeek s .dbg blk off)

/-- Bit n: core n of `base` onward is not IDLE (R215); a halted core is busy (R508). -/
def coreBusyMask (s : State) (base : Nat) : Nat :=
  ((List.range 32).filter fun k => coreStatWord s (base + k) / 2 ^ 28 != 0 || halted s (base + k)).foldl setBit 0

/-- The states of the clusters, two bits each. -/
def cluStates (s : State) : Nat := (List.range 8).foldl (fun n c => n + cluSt s c * 4 ^ c) 0

/-- PMU, CLU, SYS and SIC.  Nightwatch latches at the next NWCLK edge, `ofs` cycles on; whether its counter is
taken before or after that edge's count the spec does not say: a free value. -/
def snapSystem (s : State) (ofs : Nat) : State :=
  let r := s.draw
  let c := s.rd I.nwCnt + r.1 % 2
  let s := snap r.2 F.PMU_SNAP_MODE_VALUE 0 bPMU 0x800
  let s := ((s.set F.PMU_SNAP_NWCNT_LO_VALUE c).set F.PMU_SNAP_NWCNT_HI_VALUE (c % 2 ^ 48 / 2 ^ 32)).set
    F.PMU_SNAP_NWOFS_OFS ofs
  let s := snap (snap s F.PMU_SNAP_AVS_VALUE 0 bPMU 0x844) F.PMU_SNAP_THERM_VALUE 0 bPMU 0x894
  let s := s.set F.CLU_SNAP_STATE_STATE (cluStates s)
  let s := snap (snap s F.SYS_SNAP_STATUS_VALUE 0 bSYS 0x80C) F.SYS_SNAP_ERRINFO_VALUE 0 bSYS 0x828
  s.over (List.range 8) fun s k => snap s F.SIC_SNAP_PEND_VALUE k bSIC (0x840 + 4 * k)

/-- TSU, CPG, DMA and DMC. -/
def snapJobs (s : State) : State :=
  let s := snap (snap s F.TSU_SNAP_READYCNT_VALUE 0 bTSU 0x820) F.TSU_SNAP_URGCNT_VALUE 0 bTSU 0x824
  let s := snap (snap s F.TSU_SNAP_TRCSTAT_VALUE 0 bTSU 0x888) F.TSU_SNAP_DISPCNT_VALUE 0 bTSU 0x834
  let s := (s.set F.TSU_SNAP_BUSY_LO_VALUE (coreBusyMask s 0)).set F.TSU_SNAP_BUSY_HI_VALUE (coreBusyMask s 32)
  let s := snap (snap s F.CPG_SNAP_FREE_VALUE 0 bCPG 0x804) F.CPG_SNAP_STAT_VALUE 0 bCPG 0x808
  let s := snap (snap s F.CPG_SNAP_STAGECNT_VALUE 0 bCPG 0x840) F.CPG_SNAP_WBCNT_VALUE 0 bCPG 0x844
  let s := snap (snap s F.DMA_SNAP_BUSY_VALUE 0 bDMA 0x800) F.DMC_SNAP_STAT_VALUE 0 bDMC 0x808
  snap s F.DMC_SNAP_ECCCOR_VALUE 0 bDMC 0x820

/-- PKE, TMU, TDX, CWY, HMN and MLS. -/
def snapMedia (s : State) : State :=
  let s := snap (snap s F.PKE_SNAP_CELLSTAT_VALUE 0 bPKE 0x80C) F.PKE_SNAP_CLSCNT_VALUE 0 bPKE 0x838
  let s := s.over (List.range 8) fun s p =>
    (s.wr F.PKE_SNAP_TXFRM_VALUE p (s.rd F.PKE_P_CNT_COUNT (12 * p + 5))).wr F.PKE_SNAP_RXFRM_VALUE p
      (s.rd F.PKE_P_CNT_COUNT (12 * p))
  let s := s.over (List.range 4) fun s b => s.wr F.TMU_SNAP_NS_VALUE b (tbNs s b)
  let s := snap s F.TMU_SNAP_LATECNT_VALUE 0 bTMU 0x820
  let s := snap (snap s F.TDX_SNAP_BLKCNT_VALUE 0 bTDX 0x830) F.TDX_SNAP_FRAME_VALUE 0 bTDX 0x834
  let s := snap (snap s F.TDX_SNAP_CTRL_VALUE 0 bTDX 0x800) F.TDX_SNAP_USECNT_VALUE 0 bTDX 0x838
  let s := s.over (List.range 14) fun s l => s.wr F.CWY_SNAP_LSTAT_VALUE l (lStatWord s l)
  let s := snap s F.CWY_SNAP_EPOCH_VALUE 0 bCWY 0x804
  let s := s.over (List.range 16) fun s n => s.wr F.HMN_SNS_SNAP_VALUE n (s.rd F.HMN_SNS_DATA_WORD n)
  snap (snap s F.MLS_SNAP_STAT_VALUE 0 bMLS 0x810) F.MLS_SNAP_MISSCNT_VALUE 0 bMLS 0x814

/-- The MLSTONE frames of an accepted Milestone, unless it came from Causeway (R499). -/
def sendMlstones (s : State) : State :=
  if bitOf (s.rd F.MLS_STAT_SRC) 4 then s
  else s.over ((List.range 8).filter (s.on F.MLS_CWDEV_VALID ·)) fun s k =>
    cwSend s 0 cwMLSTONE (s.rd F.MLS_CWDEV_DEV k) (beBytes 4 (s.rd F.MLS_STAT_SEQ))

/-- The latch cycle of an accepted Milestone. -/
def milestoneLatch (s : State) (ofs : Nat) : State :=
  let s := s.set I.mlsLatch 0
  let s := if s.on F.MLS_TRCCFG_HOLDEN then s.set I.mlsPost (s.rd F.MLS_TRCCFG_POSTCNT + 1) else s
  let s := (snapMedia (snapJobs (snapSystem s ofs))).set F.MLS_IRQSTAT_TAKEN 1
  let s := if s.on F.MLS_OUTCFG_EN then s.set I.mlOut 1 else s
  let s := sendMlstones s
  if s.on I.fencePend then enterFenced s (s.rd I.fencePend - 1) else s

/-- MILESTONE_LATCH (R494, R497–R499, R501). -/
def execMilestoneLatch (nwOffset : BitVec 15) (s : State) : Host.Outcome State Fault Refusal :=
  if s.fabric && s.on I.mlsLatch then go (milestoneLatch s nwOffset.toNat) else go s

end Sys2Proof.Machine
end

