-- ==== Sys2Proof/Machine/SvcInt.lean ====
section
/-! DEFINITION.  Interrupts to the supervisor cores (R135, R140, R47). -/

namespace Sys2Proof.Machine

/-- Can supervisor core n take an interrupt now: IE = 1, at a bundle boundary, not halted. -/
def mayInterrupt (s : State) (n : Nat) : Bool :=
  coreLive s (64 + n) && !halted s (64 + n) && atBoundary s (64 + n) && bitOf (s.rd I.scr (16 * n)) 1

/-- SVC_INTERRUPT (R135): SCR_ECAUSE holds bit 31 and code 0. -/
def execSvcInterrupt (n : Fin 4) (s : State) : Host.Outcome State Fault Refusal :=
  if mayInterrupt s n.val && sicLine s n.val then go (svcException (svcFullClock s (.svc n)) (64 + n.val) 0 (2 ^ 31) 0)
  else go s

end Sys2Proof.Machine
end

