-- ==== Sys2Proof/Machine/Dispatch.lean ====
section
/-! DEFINITION.  The meaning of each command: one arm per constructor, each one direct call. -/

namespace Sys2Proof.Machine

def exec (i : Instr) (s : State) : Host.Outcome State Fault Refusal :=
  match i with
  | .registerWrite ini blk off size v => Sys2Proof.Machine.execRegisterWrite ini blk off size v s
  | .selectWrite ini blk wp v => Sys2Proof.Machine.execSelectWrite ini blk wp v s
  | .counterClear ini blk off v => Sys2Proof.Machine.execCounterClear ini blk off v s
  | .hostAccess bar2 off write size v => Sys2Proof.Machine.execHostAccess bar2 off write size v s
  | .nightwatchStart => Sys2Proof.Machine.execNightwatchStart s
  | .nwcntLoRead ini => Sys2Proof.Machine.execNwcntLoRead ini s
  | .nwalarm => Sys2Proof.Machine.execNwalarm s
  | .rstNLow => Sys2Proof.Machine.execRstNLow s
  | .vddnwLow => Sys2Proof.Machine.execVddnwLow s
  | .rstNRise bootsel => Sys2Proof.Machine.execRstNRise bootsel s
  | .fuseLoadDone intact => Sys2Proof.Machine.execFuseLoadDone intact s
  | .refclkDetectDone edges => Sys2Proof.Machine.execRefclkDetectDone edges s
  | .mainPllLock => Sys2Proof.Machine.execMainPllLock s
  | .refclkLoss => Sys2Proof.Machine.execRefclkLoss s
  | .seqDelayExpiry => Sys2Proof.Machine.execSeqDelayExpiry s
  | .seqPgood => Sys2Proof.Machine.execSeqPgood s
  | .seqPgtimeout => Sys2Proof.Machine.execSeqPgtimeout s
  | .pgoodFail => Sys2Proof.Machine.execPgoodFail s
  | .watchPenOffStep => Sys2Proof.Machine.execWatchPenOffStep s
  | .modeRequest ini v => Sys2Proof.Machine.execModeRequest ini v s
  | .wakeEvent sources => Sys2Proof.Machine.execWakeEvent sources s
  | .bootImageCheck responded hdr body => Sys2Proof.Machine.execBootImageCheck responded hdr body s
  | .fusProg ini vfuse v => Sys2Proof.Machine.execFusProg ini vfuse v s
  | .fuseBurnDone => Sys2Proof.Machine.execFuseBurnDone s
  | .protectionMapWrite ini reg v => Sys2Proof.Machine.execProtectionMapWrite ini reg v s
  | .dbsetH2s ini => Sys2Proof.Machine.execDbsetH2s ini s
  | .dbsetS2h ini => Sys2Proof.Machine.execDbsetS2h ini s
  | .dbclrH2s ini => Sys2Proof.Machine.execDbclrH2s ini s
  | .dbclrS2h ini => Sys2Proof.Machine.execDbclrS2h ini s
  | .perstAssert => Sys2Proof.Machine.execPerstAssert s
  | .pcieLinkChange up width speed => Sys2Proof.Machine.execPcieLinkChange up width speed s
  | .devnumWrite ini v => Sys2Proof.Machine.execDevnumWrite ini v s
  | .svcIdleSlow n => Sys2Proof.Machine.execSvcIdleSlow n s
  | .clusterIdleExpiry c => Sys2Proof.Machine.execClusterIdleExpiry c s
  | .clusterPlldlyExpiry c => Sys2Proof.Machine.execClusterPlldlyExpiry c s
  | .clusterPwrdlyExpiry c => Sys2Proof.Machine.execClusterPwrdlyExpiry c s
  | .clusterPwroff c => Sys2Proof.Machine.execClusterPwroff c s
  | .clusterWakeRequest c => Sys2Proof.Machine.execClusterWakeRequest c s
  | .cluWake ini v => Sys2Proof.Machine.execCluWake ini v s
  | .dawnPowerGood c => Sys2Proof.Machine.execDawnPowerGood c s
  | .dawnPllLock c => Sys2Proof.Machine.execDawnPllLock c s
  | .dawnDone c => Sys2Proof.Machine.execDawnDone c s
  | .tempConversion sensor temp => Sys2Proof.Machine.execTempConversion sensor temp s
  | .thermcfgWrite ini v => Sys2Proof.Machine.execThermcfgWrite ini v s
  | .cstbankWrite ini v => Sys2Proof.Machine.execCstbankWrite ini v s
  | .bankRetentionEntry b => Sys2Proof.Machine.execBankRetentionEntry b s
  | .avsMarginLow margin => Sys2Proof.Machine.execAvsMarginLow margin s
  | .avsLower margin => Sys2Proof.Machine.execAvsLower margin s
  | .avsPmbfail => Sys2Proof.Machine.execAvsPmbfail s
  | .pmbusTransaction ini v => Sys2Proof.Machine.execPmbusTransaction ini v s
  | .ldlk c e rd ra => Sys2Proof.Machine.execLdlk c e rd ra s
  | .stcn c e rd ra rb => Sys2Proof.Machine.execStcn c e rd ra rb s
  | .nop c e inL => Sys2Proof.Machine.execNop c e inL s
  | .add c e sz rd ra rb => Sys2Proof.Machine.execAdd c e sz rd ra rb s
  | .sub c e sz rd ra rb => Sys2Proof.Machine.execSub c e sz rd ra rb s
  | .and c e sz rd ra rb => Sys2Proof.Machine.execAnd c e sz rd ra rb s
  | .or c e sz rd ra rb => Sys2Proof.Machine.execOr c e sz rd ra rb s
  | .xor c e sz rd ra rb => Sys2Proof.Machine.execXor c e sz rd ra rb s
  | .asr c e sz rd ra rb => Sys2Proof.Machine.execAsr c e sz rd ra rb s
  | .lsr c e sz rd ra rb => Sys2Proof.Machine.execLsr c e sz rd ra rb s
  | .lsl c e sz rd ra rb => Sys2Proof.Machine.execLsl c e sz rd ra rb s
  | .min c e sz rd ra rb => Sys2Proof.Machine.execMin c e sz rd ra rb s
  | .max c e sz rd ra rb => Sys2Proof.Machine.execMax c e sz rd ra rb s
  | .abs c e sz rd ra => Sys2Proof.Machine.execAbs c e sz rd ra s
  | .neg c e sz rd ra => Sys2Proof.Machine.execNeg c e sz rd ra s
  | .cmp c e sz ra rb => Sys2Proof.Machine.execCmp c e sz ra rb s
  | .muli c e rd ra rb => Sys2Proof.Machine.execMuli c e rd ra rb s
  | .addi c e sz rd ra imm => Sys2Proof.Machine.execAddi c e sz rd ra imm s
  | .andi c e sz rd ra imm => Sys2Proof.Machine.execAndi c e sz rd ra imm s
  | .ori c e sz rd ra imm => Sys2Proof.Machine.execOri c e sz rd ra imm s
  | .xori c e sz rd ra imm => Sys2Proof.Machine.execXori c e sz rd ra imm s
  | .asri c e sz rd ra imm => Sys2Proof.Machine.execAsri c e sz rd ra imm s
  | .lsri c e sz rd ra imm => Sys2Proof.Machine.execLsri c e sz rd ra imm s
  | .lsli c e sz rd ra imm => Sys2Proof.Machine.execLsli c e sz rd ra imm s
  | .cmpi c e sz ra imm => Sys2Proof.Machine.execCmpi c e sz ra imm s
  | .moviH c e rd imm => Sys2Proof.Machine.execMoviH c e rd imm s
  | .moviW c e rd imm => Sys2Proof.Machine.execMoviW c e rd imm s
  | .movhi c e rd imm => Sys2Proof.Machine.execMovhi c e rd imm s
  | .movr c e xd xs => Sys2Proof.Machine.execMovr c e xd xs s
  | .movcRead c e cr rw => Sys2Proof.Machine.execMovcRead c e cr rw s
  | .movcWrite c e cr rw => Sys2Proof.Machine.execMovcWrite c e cr rw s
  | .rnd c e rd ra => Sys2Proof.Machine.execRnd c e rd ra s
  | .norm c e sz rd ra => Sys2Proof.Machine.execNorm c e sz rd ra s
  | .exp c e sz rd ra => Sys2Proof.Machine.execExp c e sz rd ra s
  | .expa c e rd acn h => Sys2Proof.Machine.execExpa c e rd acn h s
  | .mova c e rd acn h form => Sys2Proof.Machine.execMova c e rd acn h form s
  | .movar c e rd acn h form => Sys2Proof.Machine.execMovar c e rd acn h form s
  | .movta c e rd acn h form => Sys2Proof.Machine.execMovta c e rd acn h form s
  | .br c e off => Sys2Proof.Machine.execBr c e off s
  | .brc c e cond off => Sys2Proof.Machine.execBrc c e cond off s
  | .jl c e pd off => Sys2Proof.Machine.execJl c e pd off s
  | .jlr c e pd ps link => Sys2Proof.Machine.execJlr c e pd ps link s
  | .loop c e count leoff => Sys2Proof.Machine.execLoop c e count leoff s
  | .loopr c e count leoff => Sys2Proof.Machine.execLoopr c e count leoff s
  | .waitjob c e => Sys2Proof.Machine.execWaitjob c e s
  | .endjob c e blk => Sys2Proof.Machine.execEndjob c e blk s
  | .yield c e => Sys2Proof.Machine.execYield c e s
  | .signal c e ra => Sys2Proof.Machine.execSignal c e ra s
  | .touch c e ra => Sys2Proof.Machine.execTouch c e ra s
  | .qrd c e q rw => Sys2Proof.Machine.execQrd c e q rw s
  | .qwr c e fin q rw => Sys2Proof.Machine.execQwr c e fin q rw s
  | .qtry c e dir fin q rw => Sys2Proof.Machine.execQtry c e dir fin q rw s
  | .queueStallRelease c => Sys2Proof.Machine.execQueueStallRelease c s
  | .bkpt c e tag => Sys2Proof.Machine.execBkpt c e tag s
  | .rett c e => Sys2Proof.Machine.execRett c e s
  | .fence c e => Sys2Proof.Machine.execFence c e s
  | .syscall c e imm => Sys2Proof.Machine.execSyscall c e imm s
  | .eret c e => Sys2Proof.Machine.execEret c e s
  | .cacheIinvLine c e ra => Sys2Proof.Machine.execCacheIinvLine c e ra s
  | .cacheCleanLine c e ra => Sys2Proof.Machine.execCacheCleanLine c e ra s
  | .cacheDinvLine c e ra => Sys2Proof.Machine.execCacheDinvLine c e ra s
  | .cacheCleanInvLine c e ra => Sys2Proof.Machine.execCacheCleanInvLine c e ra s
  | .cacheIinvAll c e => Sys2Proof.Machine.execCacheIinvAll c e s
  | .cacheCleanInvAll c e => Sys2Proof.Machine.execCacheCleanInvAll c e s
  | .tlbiPage c e ra => Sys2Proof.Machine.execTlbiPage c e ra s
  | .tlbiAsid c e ra => Sys2Proof.Machine.execTlbiAsid c e ra s
  | .tlbiNonglobal c e => Sys2Proof.Machine.execTlbiNonglobal c e s
  | .tlbiAll c e => Sys2Proof.Machine.execTlbiAll c e s
  | .cmac c e acc acd ra rb cja cjb => Sys2Proof.Machine.execCmac c e acc acd ra rb cja cjb s
  | .mac c e acc acd ra rb h => Sys2Proof.Machine.execMac c e acc acd ra rb h s
  | .qmac c e acc acd ra rb => Sys2Proof.Machine.execQmac c e acc acd ra rb s
  | .bfly c e ra rb rc sc cjw => Sys2Proof.Machine.execBfly c e ra rb rc sc cjw s
  | .acclr c e acd => Sys2Proof.Machine.execAcclr c e acd s
  | .acmov c e acd aca => Sys2Proof.Machine.execAcmov c e acd aca s
  | .acadd c e acd aca => Sys2Proof.Machine.execAcadd c e acd aca s
  | .acsub c e acd aca => Sys2Proof.Machine.execAcsub c e acd aca s
  | .acsha c e acd sh => Sys2Proof.Machine.execAcsha c e acd sh s
  | .acneg c e acd aca => Sys2Proof.Machine.execAcneg c e acd aca s
  | .ldH c e part port mode reg ptr => Sys2Proof.Machine.execLdH c e part port mode reg ptr s
  | .ldW c e part port mode reg ptr => Sys2Proof.Machine.execLdW c e part port mode reg ptr s
  | .ldL c e part port mode reg ptr => Sys2Proof.Machine.execLdL c e part port mode reg ptr s
  | .stH c e part port mode reg ptr => Sys2Proof.Machine.execStH c e part port mode reg ptr s
  | .stW c e part port mode reg ptr => Sys2Proof.Machine.execStW c e part port mode reg ptr s
  | .stL c e part port mode reg ptr => Sys2Proof.Machine.execStL c e part port mode reg ptr s
  | .mod c e part port mode ptr => Sys2Proof.Machine.execMod c e part port mode ptr s
  | .reservedSyllable c e cls => Sys2Proof.Machine.execReservedSyllable c e cls s
  | .arithTrap c => Sys2Proof.Machine.execArithTrap c s
  | .svcInterrupt n => Sys2Proof.Machine.execSvcInterrupt n s
  | .sicClaim ini n => Sys2Proof.Machine.execSicClaim ini n s
  | .sicComplete ini n v => Sys2Proof.Machine.execSicComplete ini n v s
  | .bankSaveDone c => Sys2Proof.Machine.execBankSaveDone c s
  | .frameParityError c f => Sys2Proof.Machine.execFrameParityError c f s
  | .taskSlotFirstWrite ini off v => Sys2Proof.Machine.execTaskSlotFirstWrite ini off v s
  | .taskFlagsSet ini fl => Sys2Proof.Machine.execTaskFlagsSet ini fl s
  | .taskFlagsClr ini fl => Sys2Proof.Machine.execTaskFlagsClr ini fl s
  | .tsuSignalWrite ini v => Sys2Proof.Machine.execTsuSignalWrite ini v s
  | .taskCfgWrite ini v => Sys2Proof.Machine.execTaskCfgWrite ini v s
  | .taskReady t => Sys2Proof.Machine.execTaskReady t s
  | .taskCommit => Sys2Proof.Machine.execTaskCommit s
  | .taskDispatch c => Sys2Proof.Machine.execTaskDispatch c s
  | .preemptSwitch c => Sys2Proof.Machine.execPreemptSwitch c s
  | .taskPromote t => Sys2Proof.Machine.execTaskPromote t s
  | .budgetWindow => Sys2Proof.Machine.execBudgetWindow s
  | .pageArrived t => Sys2Proof.Machine.execPageArrived t s
  | .cancel ini race => Sys2Proof.Machine.execCancel ini race s
  | .free ini => Sys2Proof.Machine.execFree ini s
  | .coreenWrite ini hi v => Sys2Proof.Machine.execCoreenWrite ini hi v s
  | .trcclr ini => Sys2Proof.Machine.execTrcclr ini s
  | .traceEntryRead ini n w => Sys2Proof.Machine.execTraceEntryRead ini n w s
  | .alloc ini => Sys2Proof.Machine.execAlloc ini s
  | .release ini => Sys2Proof.Machine.execRelease ini s
  | .spill ini => Sys2Proof.Machine.execSpill ini s
  | .load ini => Sys2Proof.Machine.execLoad ini s
  | .publish ini => Sys2Proof.Machine.execPublish ini s
  | .chwCtlWrite ini k v => Sys2Proof.Machine.execChwCtlWrite ini k v s
  | .setStage c => Sys2Proof.Machine.execSetStage c s
  | .pageTransferDone x => Sys2Proof.Machine.execPageTransferDone x s
  | .writebackStart c bad => Sys2Proof.Machine.execWritebackStart c bad s
  | .writebackDone c f => Sys2Proof.Machine.execWritebackDone c f s
  | .spillPressure => Sys2Proof.Machine.execSpillPressure s
  | .pageReload cid v => Sys2Proof.Machine.execPageReload cid v s
  | .eccUncorrectable a reader => Sys2Proof.Machine.execEccUncorrectable a reader s
  | .scrubPage bad word corrected => Sys2Proof.Machine.execScrubPage bad word corrected s
  | .dmaGo ini ch v => Sys2Proof.Machine.execDmaGo ini ch v s
  | .dmaBurst ch => Sys2Proof.Machine.execDmaBurst ch s
  | .dmaResume ch => Sys2Proof.Machine.execDmaResume ch s
  | .dmaAbort ini ch => Sys2Proof.Machine.execDmaAbort ini ch s
  | .dmcInit ini => Sys2Proof.Machine.execDmcInit ini s
  | .dmcTrainDone ok step => Sys2Proof.Machine.execDmcTrainDone ok step s
  | .queueSwap q => Sys2Proof.Machine.execQueueSwap q s
  | .queueSwapDone q => Sys2Proof.Machine.execQueueSwapDone q s
  | .queueFlush ini q => Sys2Proof.Machine.execQueueFlush ini q s
  | .queueFlushDone q => Sys2Proof.Machine.execQueueFlushDone q s
  | .queueReset ini q => Sys2Proof.Machine.execQueueReset ini q s
  | .activate c w => Sys2Proof.Machine.execActivate c w s
  | .hold c => Sys2Proof.Machine.execHold c s
  | .resume c w => Sys2Proof.Machine.execResume c w s
  | .stop c => Sys2Proof.Machine.execStop c s
  | .mark c => Sys2Proof.Machine.execMark c s
  | .rewind c => Sys2Proof.Machine.execRewind c s
  | .rewindDone c => Sys2Proof.Machine.execRewindDone c s
  | .clrstats c => Sys2Proof.Machine.execClrstats c s
  | .channelStart c w => Sys2Proof.Machine.execChannelStart c w s
  | .jbFile ofs seq marker pt ts arrival payload => Sys2Proof.Machine.execJbFile ofs seq marker pt ts arrival payload s
  | .ecClear c => Sys2Proof.Machine.execEcClear c s
  | .ecDivergence c => Sys2Proof.Machine.execEcDivergence c s
  | .toneDisable c kind onSin => Sys2Proof.Machine.execToneDisable c kind onSin s
  | .toneDisableRelease c => Sys2Proof.Machine.execToneDisableRelease c s
  | .codecChange c => Sys2Proof.Machine.execCodecChange c s
  | .genDtmf c => Sys2Proof.Machine.execGenDtmf c s
  | .genCallProgress c => Sys2Proof.Machine.execGenCallProgress c s
  | .genStop c => Sys2Proof.Machine.execGenStop c s
  | .genEvent c => Sys2Proof.Machine.execGenEvent c s
  | .genEnd c => Sys2Proof.Machine.execGenEnd c s
  | .mediaTableReload c => Sys2Proof.Machine.execMediaTableReload c s
  | .toneEvent c legP received code => Sys2Proof.Machine.execToneEvent c legP received code s
  | .rxEventEnd c code => Sys2Proof.Machine.execRxEventEnd c code s
  | .faxSwitchover c sig => Sys2Proof.Machine.execFaxSwitchover c sig s
  | .returnToVoice c => Sys2Proof.Machine.execReturnToVoice c s
  | .levelBankRequest c recv => Sys2Proof.Machine.execLevelBankRequest c recv s
  | .levelFadeEnd c recv => Sys2Proof.Machine.execLevelFadeEnd c recv s
  | .shapeLoad c bank => Sys2Proof.Machine.execShapeLoad c bank s
  | .portEnable ini v => Sys2Proof.Machine.execPortEnable ini v s
  | .portDisable ini v => Sys2Proof.Machine.execPortDisable ini v s
  | .portLinkChange p up => Sys2Proof.Machine.execPortLinkChange p up s
  | .frameReceive p b sub symErr backlog ecc => Sys2Proof.Machine.execFrameReceive p b sub symErr backlog ecc s
  | .srtpDone k => Sys2Proof.Machine.execSrtpDone k s
  | .clsInsert ini => Sys2Proof.Machine.execClsInsert ini s
  | .clsModify ini => Sys2Proof.Machine.execClsModify ini s
  | .clsDelete ini => Sys2Proof.Machine.execClsDelete ini s
  | .clsRead ini => Sys2Proof.Machine.execClsRead ini s
  | .clsDrainDone => Sys2Proof.Machine.execClsDrainDone s
  | .ksInstall ini keep => Sys2Proof.Machine.execKsInstall ini keep s
  | .ksClear ini => Sys2Proof.Machine.execKsClear ini s
  | .ksClrcnt ini => Sys2Proof.Machine.execKsClrcnt ini s
  | .strmselWrite ini v => Sys2Proof.Machine.execStrmselWrite ini v s
  | .egressPost ini v ecc => Sys2Proof.Machine.execEgressPost ini v ecc s
  | .timedFramePrepare p ecc => Sys2Proof.Machine.execTimedFramePrepare p ecc s
  | .frameLaunch p sub => Sys2Proof.Machine.execFrameLaunch p sub s
  | .priorityFrameSend p sub ecc => Sys2Proof.Machine.execPriorityFrameSend p sub ecc s
  | .cellret ini v => Sys2Proof.Machine.execCellret ini v s
  | .cellcfgWrite ini c v => Sys2Proof.Machine.execCellcfgWrite ini c v s
  | .cellRegionWrite ini cnt v => Sys2Proof.Machine.execCellRegionWrite ini cnt v s
  | .tbIncrLoWrite ini v => Sys2Proof.Machine.execTbIncrLoWrite ini v s
  | .tbIncrHiWrite ini v => Sys2Proof.Machine.execTbIncrHiWrite ini v s
  | .tbStep ini v => Sys2Proof.Machine.execTbStep ini v s
  | .tbNsRead ini => Sys2Proof.Machine.execTbNsRead ini s
  | .capall ini v => Sys2Proof.Machine.execCapall ini v s
  | .tb1FrameMeasure ok incr => Sys2Proof.Machine.execTb1FrameMeasure ok incr s
  | .tb1Holdover incr => Sys2Proof.Machine.execTb1Holdover incr s
  | .waypointArm ini ctl v => Sys2Proof.Machine.execWaypointArm ini ctl v s
  | .waypointDisable ini v => Sys2Proof.Machine.execWaypointDisable ini v s
  | .waypointFire n rx => Sys2Proof.Machine.execWaypointFire n rx s
  | .waypointUnhold n => Sys2Proof.Machine.execWaypointUnhold n s
  | .lookaheadNotice n => Sys2Proof.Machine.execLookaheadNotice n s
  | .pulseEnd k => Sys2Proof.Machine.execPulseEnd k s
  | .pinCapture k rising sub => Sys2Proof.Machine.execPinCapture k rising sub s
  | .pathstepPair ini p v => Sys2Proof.Machine.execPathstepPair ini p v s
  | .pathstepClear ini p v => Sys2Proof.Machine.execPathstepClear ini p v s
  | .tdxFramePulse g kind rx => Sys2Proof.Machine.execTdxFramePulse g kind rx s
  | .tdxClockLoss g => Sys2Proof.Machine.execTdxClockLoss g s
  | .tdxBlockBoundary rx => Sys2Proof.Machine.execTdxBlockBoundary rx s
  | .tdxMapWrite ini k v => Sys2Proof.Machine.execTdxMapWrite ini k v s
  | .tdxSlip g slow => Sys2Proof.Machine.execTdxSlip g slow s
  | .h110Failover => Sys2Proof.Machine.execH110Failover s
  | .clkselWrite ini v => Sys2Proof.Machine.execClkselWrite ini v s
  | .handoverArm ini v => Sys2Proof.Machine.execHandoverArm ini v s
  | .handoverApply rx => Sys2Proof.Machine.execHandoverApply rx s
  | .cwLinkTrained l => Sys2Proof.Machine.execCwLinkTrained l s
  | .cwLinkDown l => Sys2Proof.Machine.execCwLinkDown l s
  | .cwLinkKeepalive l => Sys2Proof.Machine.execCwLinkKeepalive l s
  | .cwFrameReceive l b sub => Sys2Proof.Machine.execCwFrameReceive l b sub s
  | .linkRx l b => Sys2Proof.Machine.execLinkRx l b s
  | .cwRetransmit l => Sys2Proof.Machine.execCwRetransmit l s
  | .timeSend l sub => Sys2Proof.Machine.execTimeSend l sub s
  | .timeRx l b sub => Sys2Proof.Machine.execTimeRx l b sub s
  | .tt1Read ini => Sys2Proof.Machine.execTt1Read ini s
  | .revtSend ini v => Sys2Proof.Machine.execRevtSend ini v s
  | .eventRx l b => Sys2Proof.Machine.execEventRx l b s
  | .mbsSend ini v => Sys2Proof.Machine.execMbsSend ini v s
  | .mboxRx l b => Sys2Proof.Machine.execMboxRx l b s
  | .raCmd ini v => Sys2Proof.Machine.execRaCmd ini v s
  | .raccRx l b => Sys2Proof.Machine.execRaccRx l b s
  | .rrspRx l b => Sys2Proof.Machine.execRrspRx l b s
  | .raTimeout => Sys2Proof.Machine.execRaTimeout s
  | .fencecmd ini v => Sys2Proof.Machine.execFencecmd ini v s
  | .fenceRx l b => Sys2Proof.Machine.execFenceRx l b s
  | .pktfwdRx l b => Sys2Proof.Machine.execPktfwdRx l b s
  | .bridgeRx l b => Sys2Proof.Machine.execBridgeRx l b s
  | .epochWrite ini v => Sys2Proof.Machine.execEpochWrite ini v s
  | .migGo ini m v => Sys2Proof.Machine.execMigGo ini m v s
  | .migAbortWrite ini m v => Sys2Proof.Machine.execMigAbortWrite ini m v s
  | .migpageRx l b => Sys2Proof.Machine.execMigpageRx l b s
  | .pcdone l b => Sys2Proof.Machine.execPcdone l b s
  | .armed l b => Sys2Proof.Machine.execArmed l b s
  | .commit l b => Sys2Proof.Machine.execCommit l b s
  | .commitack l b => Sys2Proof.Machine.execCommitack l b s
  | .migAbortRx l b => Sys2Proof.Machine.execMigAbortRx l b s
  | .migFreeze m => Sys2Proof.Machine.execMigFreeze m s
  | .migGuard m => Sys2Proof.Machine.execMigGuard m s
  | .migTPass m => Sys2Proof.Machine.execMigTPass m s
  | .migAckwait m => Sys2Proof.Machine.execMigAckwait m s
  | .migGraceEnd m => Sys2Proof.Machine.execMigGraceEnd m s
  | .bootRx l b => Sys2Proof.Machine.execBootRx l b s
  | .bootRequestSend => Sys2Proof.Machine.execBootRequestSend s
  | .hmnSync ini v => Sys2Proof.Machine.execHmnSync ini v s
  | .inputSwitch ini k scan v => Sys2Proof.Machine.execInputSwitch ini k scan v s
  | .inputMake k => Sys2Proof.Machine.execInputMake k s
  | .fineOutput k data => Sys2Proof.Machine.execFineOutput k data s
  | .coarseCompare k code => Sys2Proof.Machine.execCoarseCompare k code s
  | .demodWindowEnd k di dq => Sys2Proof.Machine.execDemodWindowEnd k di dq s
  | .excitationChange ini e cfg v => Sys2Proof.Machine.execExcitationChange ini e cfg v s
  | .gainWrite ini v => Sys2Proof.Machine.execGainWrite ini v s
  | .slcCfgWrite ini k v => Sys2Proof.Machine.execSlcCfgWrite ini k v s
  | .mlsTrigger sources => Sys2Proof.Machine.execMlsTrigger sources s
  | .mlinEdge rising => Sys2Proof.Machine.execMlinEdge rising s
  | .mlsTrig ini v => Sys2Proof.Machine.execMlsTrig ini v s
  | .milestoneLatch nwOffset => Sys2Proof.Machine.execMilestoneLatch nwOffset s
  | .mlsArm ini v => Sys2Proof.Machine.execMlsArm ini v s
  | .mloutPulseEnd => Sys2Proof.Machine.execMloutPulseEnd s
  | .mlstoneRx dev seq => Sys2Proof.Machine.execMlstoneRx dev seq s
  | .traceHold => Sys2Proof.Machine.execTraceHold s
  | .tapReset => Sys2Proof.Machine.execTapReset s
  | .tapInstructionLoad ir => Sys2Proof.Machine.execTapInstructionLoad ir s
  | .dbgacc op addr v => Sys2Proof.Machine.execDbgacc op addr v s
  | .dbgchal => Sys2Proof.Machine.execDbgchal s
  | .dbgresp slot key sig => Sys2Proof.Machine.execDbgresp slot key sig s
  | .dbgHalt ini svc hi v => Sys2Proof.Machine.execDbgHalt ini svc hi v s
  | .dbgStep ini v => Sys2Proof.Machine.execDbgStep ini v s
  | .dbgRegdataWrite ini v => Sys2Proof.Machine.execDbgRegdataWrite ini v s
  | .budgetHeld b t => Sys2Proof.Machine.execBudgetHeld b t s
  | .avsDawnStepRelease c => Sys2Proof.Machine.execAvsDawnStepRelease c s
  | .pmbusTransactionDone data err => Sys2Proof.Machine.execPmbusTransactionDone data err s

end Sys2Proof.Machine
end

