-- ==== Sys2Proof/Machine/Tick.lean ====
section
/-! DEFINITION.  What happens at a tick whatever is commanded: 2 ns pass, one tick of the 500 MHz
time-base clock (R394).  The model's step takes one on an empty queue (DESIGN CHOICE,
notes/assumptions/1.md). -/

namespace Sys2Proof.Machine

/-- Nightwatch's part of a tick: NWCLK runs at 32,768 Hz from its start on, and an edge falls where the
phase wraps (R44, R519). -/
def nwTick (s : State) : State :=
  if !s.on I.nwStarted then s
  else
    let p := s.rd I.nwPhase + 32768
    if p < 500000000 then s.set I.nwPhase p else nwEdge (s.set I.nwPhase (p - 500000000))

/-- The core cycles of one tick: two at 1.0 GHz, one while the clusters are throttled (R54). -/
def cyclesPerTick (s : State) : Nat := if s.on I.throtSrc then 1 else 2

/-- The running job of core c for one tick: it is charged to its budget (R198), and while it is stalled on a
queue its CYCLE counts the core cycles in which no bundle issues. -/
def chargeCore (s : State) (c : Nat) : State :=
  let t := s.rd I.cJob c - 1
  if s.on I.cJob c && taskSt s t == tRUNNING then
    let b := rbank s c
    let s := if s.on I.qstall c && !halted s c then s.wr I.cycle b (s.rd I.cycle b + cyclesPerTick s) else s
    chargeBudget s (s.rd I.jBl t) t (cyclesPerTick s)
  else s

/-- Every context grows one ms older (R235). -/
def ageContexts (s : State) : State :=
  s.over (s.nonzero F.CHW_CTX_STAT_STATE) fun s cid =>
    s.wr F.CHW_CTX_STAT_AGE cid (min 65535 (s.rd F.CHW_CTX_STAT_AGE cid + 1))

/-- The scheduler's and the context manager's part of a tick: budgets are charged, and every 500,000 ticks
the contexts age. -/
def fabricTick (s : State) : State :=
  if !s.fabric then s
  else
    let n := s.rd I.tickCnt + 1
    let s := (s.set I.tickCnt n).over (s.nonzero I.cJob) chargeCore
    if n % 500000 = 0 then ageContexts s else s

/-- The Causeway links follow the mode and their settings. -/
def linkTick (s : State) : State := migLinkCheck (cwFollow s)

/-- One tick: 2 ns pass. -/
def tick (s : State) : State := linkTick (fabricTick (hmnTick (tmuTick (nwTick s))))

end Sys2Proof.Machine
end

