-- ==== Sys2Proof/Machine/Step.lean ====
section
/-! DEFINITION.  One step of the machine: the command at the front of the queue, or a tick. -/

namespace Sys2Proof.Machine

/-- The state with another queue of waiting commands. -/
def State.withPending (s : State) (q : List Instr) : State := { s with pending := q }

/-- One step: the command at the front of the queue runs on the state that keeps the rest of the queue;
with no command waiting, a tick passes (DESIGN CHOICE, notes/assumptions/1.md). -/
def step (s : State) : Host.Outcome State Fault Refusal :=
  match s.pending with
  | [] => .next (tick s)
  | c :: r => exec c (s.withPending r)

/-- The state with the command a word spells put at the front of the queue: no row of the table has
bits, so the state itself. -/
def State.withFetchWord (s : State) (nbits w : Nat) : State :=
  match Sys2Proof.decodeTableWord nbits w with
  | some c => s.withPending (c :: s.pending)
  | none => s

end Sys2Proof.Machine
end

