-- ==== Sys2Proof/Safety.lean ====
section
/-! DEFINITION.  What counts as a safe run, in the terms the statements use. -/

namespace Sys2Proof.Safety

open Machine

/-- A step that goes on: no fault, no refusal. -/
def Goes (s : State) : Prop := ∃ t, step s = .next t

/-- The memory of a state has its canonical form. -/
def MemoryCanonical (s : State) : Prop := Memory.wf s.mem = true

/-- A command has a next state with a property. -/
def Does (i : Instr) (s : State) (post : State → Prop) : Prop := ∃ t, exec i s = .next t ∧ post t

/-- Two states agree on everything but their cells. -/
def SameButCells (s t : State) : Prop := t = { s with cells := t.cells }

/-- Two states agree on every instance of every cell but the listed ones. -/
def SameCells (s t : State) (but : List (Fld × Nat)) : Prop :=
  ∀ g j, (∀ p ∈ but, p.1.id = g.id → p.2 ≠ j) → t.rd g j = s.rd g j

/-- Two states agree on every instance of every cell but those of the listed cells. -/
def SameOtherCells (s t : State) (but : List Fld) : Prop :=
  ∀ g j, (∀ f ∈ but, f.id ≠ g.id) → t.rd g j = s.rd g j

/-- The frame of a command that changes the listed instances of cells and nothing else. -/
def OnlyCells (s t : State) (but : List (Fld × Nat)) : Prop := SameButCells s t ∧ SameCells s t but

/-- The state after writes of cells, each instance with its value, in order. -/
def puts (s : State) (l : List (Fld × Nat × Nat)) : State := l.foldl (fun u p => u.wr p.1 p.2.1 p.2.2) s

/-- A command whose whole effect is to write these cells. -/
def Puts (i : Instr) (s : State) (l : List (Fld × Nat × Nat)) : Prop := exec i s = .next (puts s l)

/-! ## Voice channels -/

/-- Nothing but the listed words of page 0 in frame i has changed, and that the frame and its page are dirty. -/
def OnlyWords (s t : State) (i : Nat) (offs : List Nat) : Prop :=
  (∀ a, (∀ o ∈ offs, a < frameAddr i + o ∨ frameAddr i + o + 4 ≤ a) → t.byte a = s.byte a) ∧
    SameOtherCells s t [F.CPG_FRAME_DIRTY, I.mapDirty] ∧ t = { s with cells := t.cells, mem := t.mem }

/-- The listed words of page 0 in frame i have these values, and nothing else has changed. -/
def Words (s t : State) (i : Nat) (l : List (Nat × Nat)) : Prop :=
  (∀ p ∈ l, mw t i p.1 = p.2) ∧ OnlyWords s t i (l.map (·.1))

/-! ## Causeway frames -/

/-- A byte string that link l takes for a frame: it is at least HELLO, and length, CRC and version are right; and
its counter of received frames has room. -/
def FrameWhole (s : State) (l : Nat) (b : List Byte) : Prop :=
  ckHELLO ≤ s.rd F.CWY_L_STAT_STATE l ∧ b.length = 20 + cwLen b ∧ cwLen b ≤ 4112 ∧
    b.drop (b.length - 4) = beBytes 4 (crc32 (b.take (b.length - 4))) ∧ byteAt b 0 / 16 = 1 ∧
    s.rd F.CWY_L_CNT_COUNT (6 * l + 1) + 2 < 2 ^ 32

/-- A frame of a known type that is the next of its link's sequence, on a link with nothing to acknowledge. -/
def FrameInPlace (s : State) (l : Nat) (b : List Byte) : Prop :=
  FrameWhole s l b ∧ byteAt b 0 % 16 < 13 ∧ (linkOf s l).replay = [] ∧
    (cwSequenced (byteAt b 0 % 16) = true → beAt b 8 2 = s.rd I.cwRx l)

/-- A frame that this device consumes: a local one; or of this device's epoch and number, on an UP link. -/
def FrameOurs (s : State) (l : Nat) (b : List Byte) : Prop :=
  cwLocal (cwParse b).type = true ∨
    ((cwParse b).epoch = s.rd F.CWY_EPOCH_EPOCH 0 ∧ cwUp s l = true ∧ devLocked s = true ∧ (cwParse b).dst = s.rd F.SYS_DEVNUM_DEVNUM 0)

/-- A frame in its place has been counted and has taken its place. -/
def arrived (s : State) (l : Nat) (b : List Byte) : List (Fld × Nat × Nat) :=
  (F.CWY_L_CNT_COUNT, 6 * l + 1, s.rd F.CWY_L_CNT_COUNT (6 * l + 1) + 1) ::
    (if cwSequenced (byteAt b 0 % 16) = true then [(I.cwRx, l, s.rd I.cwRx l + 1)] else [])

/-- A CW link that can take a frame at once: room in its replay buffer, nothing waiting, room in its counter. -/
def LinkOpen (s : State) (l : Nat) (f : CwFrame) : Prop :=
  l < 6 ∧ replayRoom s l f = true ∧ (linkOf s l).waiting = [] ∧ s.rd F.CWY_L_CNT_COUNT (6 * l) + 2 < 2 ^ 32

/-- A CW link has sent a sequenced frame: its bytes are on the wire, and it waits for its acknowledgement. -/
def sentFrame (s : State) (l : Nat) (f : CwFrame) : State :=
  { puts s [(I.cwTx, l, s.rd I.cwTx l + 1), (F.CWY_L_CNT_COUNT, 6 * l, s.rd F.CWY_L_CNT_COUNT (6 * l) + 1)] with
    links := Tbl.put Link.empty l { linkOf s l with replay := (linkOf s l).replay ++ [(s.rd I.cwTx l, f)] } s.links
    wire := Tbl.put [] (8 + l) (cwBytes s l (s.rd I.cwTx l) f) s.wire }

/-- A CW link has sent an unsequenced frame. -/
def sentOnce (s : State) (l seq : Nat) (f : CwFrame) : State :=
  { puts s [(F.CWY_L_CNT_COUNT, 6 * l, s.rd F.CWY_L_CNT_COUNT (6 * l) + 1)] with wire := Tbl.put [] (8 + l) (cwBytes s l seq f) s.wire }

/-! ## Cores -/

/-- A core at a bundle boundary with nothing outstanding: it may issue and is neither halted nor stepped, no
syllable of a bundle has come, no result is in flight, it is outside every loop and delay bundle, no ARITH
trap is due, its job is not cancelled, and its PC can be fetched from. -/
def CoreReady (s : State) (c : Nat) : Prop :=
  coreLive s c = true ∧ halted s c = false ∧ haltReq s c = false ∧ stepping s c = false ∧
    bundleOf s c = Bundle.empty ∧ inFlight s (rbank s c) = [] ∧ Tbl.get [] s.macShadow (rbank s c) = [] ∧
    s.rd I.act (rbank s c) = 0 ∧ s.rd I.dly (rbank s c) = 0 ∧ s.rd I.arith (rbank s c) = 0 ∧
    (isSvc c = true ∨ s.on I.jCancel (s.rd I.cJob c - 1) = false) ∧
    (fetchAddr s c (s.rd I.pcb (rbank s c))).isSome = true

/-- A core at a bundle boundary as in `CoreReady`, but perhaps in loops or delay bundles. -/
def CoreAwake (s : State) (c : Nat) : Prop :=
  coreLive s c = true ∧ halted s c = false ∧ haltReq s c = false ∧ stepping s c = false ∧
    bundleOf s c = Bundle.empty ∧ inFlight s (rbank s c) = [] ∧ Tbl.get [] s.macShadow (rbank s c) = [] ∧
    s.rd I.arith (rbank s c) = 0 ∧ (isSvc c = true ∨ s.on I.jCancel (s.rd I.cJob c - 1) = false) ∧
    (fetchAddr s c (s.rd I.pcb (rbank s c))).isSome = true

/-- The PC of a core. -/
def pcOf (s : State) (c : Nat) : Nat := s.rd I.pcb (rbank s c)

/-- The cells that decide whether a core may issue and what waits for a boundary. -/
def controlCells : List Fld :=
  [F.PMU_MODE_CURRENT, I.romSt, I.cJob, I.swPend, F.CLU_STAT_STATE, F.MLS_DBG_HALT_LO_CORES, F.MLS_DBG_HALT_HI_CORES,
   F.MLS_DBG_HALT_SVC_CORES, F.MLS_DBG_HALTED_LO_CORES, F.MLS_DBG_HALTED_HI_CORES, F.MLS_DBG_HALTED_SVC_CORES,
   F.MLS_DBG_STEP_GO, F.MLS_DBG_STEP_CORE, I.jCancel, I.bank, I.act, I.dly, I.arith, I.arithAge]

/-- Those, but for the state of loops and delay bundles. -/
def wakeCells : List Fld :=
  [F.PMU_MODE_CURRENT, I.romSt, I.cJob, I.swPend, F.CLU_STAT_STATE, F.MLS_DBG_HALT_LO_CORES, F.MLS_DBG_HALT_HI_CORES,
   F.MLS_DBG_HALT_SVC_CORES, F.MLS_DBG_HALTED_LO_CORES, F.MLS_DBG_HALTED_HI_CORES, F.MLS_DBG_HALTED_SVC_CORES,
   F.MLS_DBG_STEP_GO, F.MLS_DBG_STEP_CORE, I.jCancel, I.bank, I.arith, I.arithAge]

/-- Two states agree on what decides whether a core may issue and what waits for a boundary. -/
def SameControl (s t : State) : Prop := ∀ g ∈ controlCells, ∀ j, t.rd g j = s.rd g j

/-- Two states agree on that but for loops and delay bundles. -/
def SameWake (s t : State) : Prop := ∀ g ∈ wakeCells, ∀ j, t.rd g j = s.rd g j

/-- The state in which a bundle of core c has left its buffer and begins to issue. -/
def started (s : State) (c : Nat) : State := { s.wr I.qstall c 0 with bundles := Tbl.drop c s.bundles }

/-- The state in which core c has fetched the syllable at its PC. -/
def fetched (s : State) (c : Nat) : State := fetchLine s c (pcOf s c)

/-- The state in which core c begins to issue the syllable it has fetched. -/
def begun (s : State) (c : Nat) : State := started (fetched s c) c

/-- An access leaves what core c's control needs: whether it may issue, its PC, nothing in flight, no syllable
of a bundle come. -/
def KeepsCore (s u : State) (c : Nat) : Prop :=
  SameControl s u ∧ u.rd I.pcb (rbank s c) = s.rd I.pcb (rbank s c) ∧ inFlight u (rbank s c) = [] ∧
    bundleOf u c = Bundle.empty

/-- Two states agree on everything but cells, the fetching of code (instruction caches, TLBs, free values drawn)
and what is in flight in the cores. -/
def SameButCode (s t : State) : Prop :=
  t = { s with cells := t.cells, iLines := t.iLines, tlbs := t.tlbs, freeCtr := t.freeCtr, bundles := t.bundles,
               landings := t.landings, macShadow := t.macShadow }

/-- The frame of a bundle of core c that writes the listed cells: nothing else changes but the PC and CYCLE of
its bank, what fetching code changes, and the end of a stall; nothing of another core or bank is under way that
was not. -/
def BundleFrame (s t : State) (c : Nat) (dst : List (Fld × Nat)) : Prop :=
  SameButCode s t ∧ (∀ d, d ≠ c → bundleOf t d = bundleOf s d) ∧ (∀ b, b ≠ rbank s c → inFlight t b = inFlight s b) ∧
    SameCells s t ([(I.pcb, rbank s c), (I.cycle, rbank s c), (I.qstall, c)] ++ dst)

/-- A state once every result in flight of core c has landed. -/
def settled (t : State) (c : Nat) : State := landAll t (rbank t c)

/-- The frame of a bundle of core c from the state u: its buffer is empty, the cells `now` have their new values,
the cells `late` get theirs as results in flight, and nothing else, but for `BundleFrame`, changes. -/
def Framed (u t : State) (c : Nat) (now late : List (Fld × Nat)) : Prop :=
  bundleOf t c = Bundle.empty ∧ BundleFrame u t c now ∧ BundleFrame u (settled t c) c (now ++ late)

/-- The bundle of one syllable issued on core c: the PC is at the next syllable, and `Framed`. -/
def Issued (s t : State) (c : Nat) (now late : List (Fld × Nat)) : Prop :=
  pcOf t c = (pcOf s c + 4) % 2 ^ 32 ∧ Framed s t c now late

/-- The bundle of one syllable of core c, whose accesses left the state u, issued: as `Issued`, beyond u. -/
def IssuedAfter (s u t : State) (c : Nat) (now late : List (Fld × Nat)) : Prop :=
  pcOf t c = (pcOf s c + 4) % 2 ^ 32 ∧ Framed u t c now late

/-- What taking an exception on supervisor core c writes (R134). -/
def exceptionCells (s : State) (c : Nat) : List (Fld × Nat) :=
  [(I.act, rbank s c), (I.dly, rbank s c), (I.btaken, rbank s c), (I.linkV, c - 64)] ++
    [0, 3, 4, 5, 6, 7, 8].map fun k => (I.scr, 16 * (c - 64) + k)

/-- The cells that a trap of bank b writes (R129). -/
def trapCells (b : Nat) : List (Fld × Nat) :=
  [(I.trpc, b), (I.tds, b), (I.tbtgt, b), (I.taddr, b), (I.tcause, b), (I.act, b), (I.dly, b), (I.btaken, b)]

/-- Signal core c has taken a trap, from s to t (R129): the cancelled bundle, its delay and loop state and its
branch target are saved, TCAUSE and TADDR tell the cause, and the handler begins at TRAPV outside every loop
and delay slot; nothing else changes. -/
def Trapped (s t : State) (c code slot addr : Nat) : Prop :=
  let b := rbank s c
  t.rd I.trpc b = pcOf s c ∧ t.rd I.tds b = dsWord s b ∧ t.rd I.tbtgt b = s.rd I.btgt b ∧
    t.rd I.taddr b = addr % 2 ^ 32 ∧ t.rd I.tcause b = 2 ^ 31 + slot * 256 + code ∧
    pcOf t c = s.rd I.trapv b / 4 * 4 ∧ t.rd I.act b = 0 ∧ t.rd I.dly b = 0 ∧ t.rd I.btaken b = 0 ∧
    bundleOf t c = Bundle.empty ∧ BundleFrame s t c (trapCells b)

/-- Supervisor core c has taken an exception whose restart bundle is at `epc`, from s to t (R134): status, restart
bundle, its delay and loop state and its branch target are saved, SCR_ECAUSE and SCR_EADDR tell the cause, the
core is in supervisor privilege with interrupts off, its link is gone, and it goes on at the vector, outside
every loop and delay slot; nothing else changes. -/
def Excepted (s t : State) (c epc code slot addr vector : Nat) : Prop :=
  let b := rbank s c
  let r := fun (u : State) (k : Nat) => u.rd I.scr (16 * (c - 64) + k)
  r t 6 = r s 0 ∧ r t 0 = clrBit (setBit (r s 0) 0) 1 ∧ r t 3 = epc ∧ r t 4 = slot * 256 + code ∧
    r t 5 = addr % 2 ^ 32 ∧ r t 7 = dsWord s b ∧ r t 8 = s.rd I.btgt b ∧ pcOf t c = (r s 1 + vector) % 2 ^ 32 ∧
    t.rd I.act b = 0 ∧ t.rd I.dly b = 0 ∧ t.rd I.btaken b = 0 ∧ t.rd I.linkV (c - 64) = 0 ∧
    bundleOf t c = Bundle.empty ∧ BundleFrame s t c (exceptionCells s c)

/-- The number that cells spell, the first lowest. -/
def valueOf (s : State) (cells : List (Fld × Nat)) : Nat := cells.foldr (fun p v => s.rd p.1 p.2 + 2 ^ p.1.w * v) 0

/-- The flags of a bank: Z, N, C, V. -/
def flagsOf (s : State) (b : Nat) : List Nat := [s.rd I.flZ b, s.rd I.flN b, s.rd I.flC b, s.rd I.flV b]

/-- The cells of the flags. -/
def flagCells (b : Nat) : List (Fld × Nat) := [(I.flZ, b), (I.flN, b), (I.flC, b), (I.flV, b)]

/-- The cell of D register k of a bank. -/
def dCell (s : State) (b k : Nat) : Fld × Nat := (I.d, 32 * b + physD s b k)

/-- The cells of the register that an SR or SI form names: a D register, or one of the word space. -/
def szCells (s : State) (b : Nat) (sz : Bool) (r : Nat) : List (Fld × Nat) :=
  if sz then wordCells s b r else [dCell s b r]

end Sys2Proof.Safety
end

