-- ==== Sys2Proof/WellFormed.lean ====
section
/-! DEFINITION.  Which command terms spell something that can happen: checks beyond what the operand types
hold.  The machine gives every term a meaning; an ill-formed one has no counterpart outside the model. -/

namespace Sys2Proof

/-- The sizes of an access in bytes (R4, R153). -/
def accessSize (n : Nat) : Bool := n == 1 || n == 2 || n == 4 || n == 8

/-- An access to offset `off` is aligned to its size (R4). -/
def alignedAccess (off n : Nat) : Bool := accessSize n && off % n == 0

/-- Where an access stands fits its port and format (R110, R153–R155): the X access comes first, and only the
dual format has two. -/
def accessPlace (part : LPart) (port : Bool) (mode : LMode) : Bool :=
  match part, mode with
  | .only, _ => true
  | .first, .dual _ => !port
  | .second, .dual _ => port
  | _, .single _ _ _ => false

/-- No timeslot is listed twice. -/
def timeslotsDistinct (rx : List (BitVec 15 × Byte)) : Bool := decide (rx.map (·.1)).Nodup

/-- The results of a block fit together: every signal has as many samples, and no echo window is listed
twice (R278, R321). -/
def blockShape (b : BlockEnd) : Bool :=
  b.sendOut.length == b.lineIn.length && b.lineOut.length == b.lineIn.length && decide b.ec.least.Nodup

/-- The well-formed commands. -/
def Instr.wellFormed : Instr → Bool
  | .registerWrite _ _ off size _ => alignedAccess off.toNat size
  | .counterClear _ _ off _ => alignedAccess off.toNat 4
  | .hostAccess _ off _ size _ => alignedAccess off.toNat size
  | .taskSlotFirstWrite _ off _ => alignedAccess off.toNat 4
  | .bootImageCheck responded hdr body => responded || (hdr.isEmpty && body.isEmpty)
  | .wakeEvent sources => sources != 0
  | .mlsTrigger sources => sources != 0
  | .dbgresp _ key sig => key.length == 96 && sig.length == 96
  | .endjob _ _ (some b) => blockShape b
  | .ldH _ _ part port mode _ _ => accessPlace part port mode
  | .ldW _ _ part port mode _ _ => accessPlace part port mode
  | .ldL _ _ part port mode _ _ => accessPlace part port mode
  | .stH _ _ part port mode _ _ => accessPlace part port mode
  | .stW _ _ part port mode _ _ => accessPlace part port mode
  | .stL _ _ part port mode _ _ => accessPlace part port mode
  | .mod _ _ part port mode _ => accessPlace part port mode
  | .waypointFire _ rx => timeslotsDistinct rx
  | .tdxFramePulse _ _ rx => timeslotsDistinct rx
  | .tdxBlockBoundary rx => timeslotsDistinct rx
  | .handoverApply rx => timeslotsDistinct rx
  | _ => true

/-- Does a command stand alone as one syllable of a bundle (R110): not one of two accesses of a syllable. -/
def Instr.alone : Instr → Bool
  | .ldH _ _ part _ _ _ _ => part == .only
  | .ldW _ _ part _ _ _ _ => part == .only
  | .ldL _ _ part _ _ _ _ => part == .only
  | .stH _ _ part _ _ _ _ => part == .only
  | .stW _ _ part _ _ _ _ => part == .only
  | .stL _ _ part _ _ _ _ => part == .only
  | .mod _ _ part _ _ _ => part == .only
  | _ => true

end Sys2Proof
end

