-- ==== Sys2Proof/Certificates/Slice0/Obligations.lean ====
section
/-! DEFINITION.  The statements for the provers.  Each says what commands of a family leave, and what they leave
alone, in the words of `Sys2Proof.Safety`; its docstring names the rules of spec/ it follows.  A statement about a
command holds for every state and every operand that meets its hypotheses. -/

open Sys2Proof Sys2Proof.Machine Sys2Proof.Safety

/-! ## The machine as a whole -/

/-- A step runs the command at the front of the queue on the state that keeps the rest of the queue. -/
def Obligations.StepRunsTheFrontCommand : Prop :=
  ∀ (s : State) (c : Instr) (r : List Instr), step (s.withPending (c :: r)) = exec c (s.withPending r)

/-- No command and no tick ends a run: the device reports every error in its own registers and goes on.

No command adds to the queue of waiting commands or takes from it.

With no command waiting a tick passes (the model's choice, log entry 1): it leaves the queue empty, and once
Nightwatch runs the 48-bit counter advances at the tick at which the phase of its 32,768 Hz clock wraps, silently
from all-ones to zero, and at no other (R44, R20). -/
def Obligations.EveryStepTakesOneCommandOrATick : Prop :=
  (∀ s : State, Goes s) ∧
  (∀ (c : Instr) (s t : State), exec c s = .next t → t.pending = s.pending) ∧
  (∀ s : State, s.pending = [] → s.rd I.nwStarted = 1 →
    ∃ t, step s = .next t ∧ t.pending = [] ∧
      (s.rd I.nwPhase + 32768 < 500000000 → t.rd I.nwCnt = s.rd I.nwCnt) ∧
      (500000000 ≤ s.rd I.nwPhase + 32768 → t.rd I.nwCnt = (s.rd I.nwCnt + 1) % 2 ^ 48))

/-- Every step keeps the canonical form of memory. -/
def Obligations.EveryStepKeepsMemoryCanonical : Prop :=
  ∀ s t : State, MemoryCanonical s → step s = .next t → MemoryCanonical t

/-- The transitions of the table of R68, by mode before and after. -/
def Sys2Proof.Safety.modeMayChange (m n : Nat) : Bool :=
  n == mRESET || (n == mFENCED && m != mRESET) ||
    [(mRESET, mBOOT), (mRESET, mWATCH), (mWATCH, mBOOT), (mBOOT, mSERVICE), (mSERVICE, mDRAIN), (mDRAIN, mSERVICE),
     (mDRAIN, mWATCH), (mFENCED, mBOOT)].contains (m, n)

/-- Whatever is commanded, the mode changes only from and to the modes of the table of R68 (R68). -/
def Obligations.ModeChangesOnlyAsTheTableAllows : Prop :=
  ∀ (c : Instr) (s t : State), exec c s = .next t → t.mode ≠ s.mode → modeMayChange s.mode t.mode = true

/-- Right after VDDNW power-on the registers named here hold the values of the spec's Reset columns (R43, R44, and the
register tables of chapters 2 and 3); HIF_BAR2BASE.BASE is held as its bits [31:20], the low four reading zero.  That memory lists
nothing, that an unwritten byte reads as it does and that no command waits are the model's own choices (log entries 1 and 3). -/
def Obligations.ResetLeavesTheSpecsValues : Prop :=
  let s := State.reset
  MemoryCanonical s ∧ s.pending = [] ∧ s.mode = mRESET ∧ s.rd I.nwCnt = 0 ∧ s.rd F.PMU_WAKE_WEN = 1 ∧
    s.rd F.PMU_NWALM_HI_EN = 0 ∧ s.rd F.PMU_CSTBANK_MODE = 0x55555555 ∧ s.rd F.PMU_CLK_SVCMAXDIV = 3 ∧
    s.rd F.PMU_AVSCFG_VMAX = 40 ∧ s.rd F.PMU_SEQCFG_PGTIMEOUT = 50 ∧ s.rd F.PMU_THERMCFG_HYST = 3 ∧
    s.rd F.SYS_ID_PART = 0x8192 ∧ s.rd F.SYS_ID_REV = 0xB0 ∧ s.rd F.HIF_BAR2BASE_BASE = 0x100 ∧
    (∀ c, c < 8 → s.rd F.CLU_CFG_FLOOR c = 3 ∧ s.rd F.CLU_CFG_IDLE c = 20 ∧ s.rd F.CLU_CFG_PLLDLY c = 200 ∧
      s.rd F.CLU_CFG_PWRDLY c = 100 ∧ cluSt s c = clPWROFF) ∧
    (∀ a, s.byte a = Memory.unwritten) ∧ (∀ q, s.queue q = Queue.empty)

/-! ## Registers and the bus (chapters 0, 1 and 3) -/

/-- REGISTER_WRITE that is not an aligned 32-bit word changes nothing but the clock of a supervisor core that makes
it: it is discarded in full, no decode error is raised and none is recorded; such a read returns zero (R4, R47). -/
def Obligations.OnlyAlignedWordsReachRegisters : Prop :=
  ∀ (s : State) (blk : Fin 18) (off : BitVec 20) (size : Nat) (v : BitVec 64) (ini : Init),
    s.fabric = true → (size ≠ 4 ∨ off.toNat % 4 ≠ 0) →
      exec (.registerWrite ini blk off size v) s = .next (svcFullClock s ini) ∧
        (spaceRead s ini blk.val off.toNat size).1 = 0 ∧ (spaceRead s ini blk.val off.toNat size).2 = svcFullClock s ini ∧
        (∀ n : Fin 4, svcFullClock s (.svc n) = puts s [(I.svcDiv, n.val, 0)]) ∧
        ((∀ n : Fin 4, ini ≠ .svc n) → svcFullClock s ini = s)

/-- The value a field holds after a write of `x` to it, by its access type (R5, R8, R17); `cur` is its value before.
AC fields act, and are no part of this. -/
def Sys2Proof.Safety.fieldAfter (f : RegFld) (cur x : Nat) : Nat :=
  match f.acc with
  | .rw | .rwh => if f.rsv.any fun r => decide (r.1 ≤ x) && decide (x ≤ r.2) then cur else x
  | .w1c => Nat.land cur (Nat.xor x (2 ^ f.fld.w - 1))
  | .w1s => Nat.lor cur x
  | .cnt => if x = 0 then 0 else cur
  | .ro | .wo | .ac => cur

/-- The counters of R17 that are no part of an instance window: block, offset, cell, instance. -/
def Sys2Proof.Safety.counters : List (Fin 18 × Nat × Fld × Nat) :=
  [(11, 0x814, F.MLS_MISSCNT_COUNT, 0), (11, 0x818, F.MLS_HELDCNT_COUNT, 0), (3, 0x828, F.TSU_RACECNT_COUNT, 0),
   (3, 0x82C, F.TSU_MISSCNT_COUNT, 0), (3, 0x830, F.TSU_PREEMPTCNT_COUNT, 0), (3, 0x834, F.TSU_DISPCNT_COUNT, 0),
   (3, 0x838, F.TSU_RESVMISS_COUNT, 0), (3, 0x890, F.TSU_TRCLOST_COUNT, 0), (4, 0x840, F.CPG_STAGECNT_COUNT, 0),
   (4, 0x844, F.CPG_WBCNT_COUNT, 0), (4, 0x848, F.CPG_FAULTCNT_COUNT, 0), (4, 0x84C, F.CPG_SPILLCNT_COUNT, 0),
   (4, 0x850, F.CPG_RELOADCNT_COUNT, 0), (4, 0x854, F.CPG_HITCNT_COUNT, 0), (4, 0x858, F.CPG_PROVSKIP_COUNT, 0),
   (4, 0x85C, F.CPG_ECCCOR_COUNT, 0), (4, 0x860, F.CPG_PARCNT_COUNT, 0), (12, 0x804, F.DMA_FAULTCNT_COUNT, 0),
   (14, 0x820, F.DMC_ECCCOR_COUNT, 0), (14, 0x824, F.DMC_ECCUNC_COUNT, 0), (6, 0x820, F.TMU_LATECNT_COUNT, 0),
   (6, 0x824, F.TMU_LATEDROP_COUNT, 0)] ++
  (List.finRange 8).map (fun c => (17, 0x840 + 4 * c.val, F.CLU_DAWNCNT_COUNT, c.val)) ++
  (List.finRange 12).map (fun k => (7, 0x8A0 + 4 * k.val, F.PKE_CNT_COUNT, k.val)) ++
  (List.finRange 6).map (fun k => (8, 0x850 + 4 * k.val, F.TDX_CNT_COUNT, k.val)) ++
  (List.finRange 12).map (fun k => (9, 0x860 + 4 * k.val, F.CWY_CNT_COUNT, k.val))

/-- REGISTER_WRITE of an aligned word to a register of SYS other than SYS_DEVNUM gives each field the value of its
access type, a reserved code leaving its field alone, and changes no other cell (R5, R7, R8); an offset that no
register occupies takes no write (R38); without the fabric clock nothing happens.

SELECT_WRITE stores INDEX in the writer's private copy and sets SELERR exactly when INDEX is at or beyond the
block's instance count; no other copy and nothing else changes (R11, R12, R13); a writer without a copy changes
nothing (R14).

COUNTER_CLEAR: a write of zero clears the counter and changes nothing else; any other value has no effect (R17).
A cleared counter counts again from zero, and one that stands at all-ones stays there and raises nothing (R17). -/
def Obligations.RegisterWritesFollowAccessTypes : Prop :=
  (∀ (s : State) (off : BitVec 20) (v : BitVec 64) (ini : Init), (∀ n : Fin 4, ini ≠ .svc n) →
    (s.fabric = false → exec (.registerWrite ini 0 off 4 v) s = .next s) ∧
    (s.fabric = true → off.toNat % 4 = 0 → off.toNat ≠ 0x814 →
      (∀ r k, findReg off.toNat regTable_SYS = some (r, k) → Does (.registerWrite ini 0 off 4 v) s fun t =>
        (∀ f ∈ r.fields, t.rd f.fld k = fieldAfter f (s.rd f.fld k) (bits v.toNat (f.lo + f.fld.w - 1) f.lo)) ∧
          OnlyCells s t (r.fields.map fun f => (f.fld, k))) ∧
      (findReg off.toNat regTable_SYS = none → exec (.registerWrite ini 0 off 4 v) s = .next s))) ∧
  (∀ (s : State) (ini : Init) (blk : Fin 18) (wp : Bool) (v : Word) (sel : Fld × Fld × Nat), s.fabric = true →
    (if wp = true then blk = 6 ∧ sel = wpSelect else selectOf blk.val = some sel) →
      (selCopy ini = none → exec (.selectWrite ini blk wp v) s = .next s) ∧
      ∀ k, selCopy ini = some k → Does (.selectWrite ini blk wp v) s fun t => t.rd sel.1 k = v.toNat % 65536 ∧
        t.rd sel.2.1 k = (if sel.2.2 ≤ v.toNat % 65536 then 1 else 0) ∧ OnlyCells s t [(sel.1, k), (sel.2.1, k)]) ∧
  (∀ (s : State) (ini : Init) (v : Word), s.fabric = true → ∀ p ∈ counters,
    (v ≠ 0 → exec (.counterClear ini p.1 (BitVec.ofNat 20 p.2.1) v) s = .next s) ∧
    exec (.counterClear ini p.1 (BitVec.ofNat 20 p.2.1) 0) s = .next (puts s [(p.2.2.1, p.2.2.2, 0)]) ∧
    ∀ ovf, s.rd p.2.2.1 p.2.2.2 + 1 = 2 ^ p.2.2.1.w → s.bump p.2.2.1 p.2.2.2 ovf = s)

/-- HOST_ACCESS through BAR0 reaches 0x00_F000_0000 + offset and through BAR2, within the PMBAR2 bounds, BASE + offset
(R92).  An aligned access to PKS for which PMHOST grants the right writes, or returns, the little-endian bytes there and
leaves every other byte (R30, R86, R87); one in no decoded region returns zero, stores nothing and leaves the first
record in SYS (R31); one without the right, or outside the bounds, ends in the same way with KIND = 1 (R89, R92).
While the link is down nothing reaches the device (R532). -/
def Obligations.HostAccessReachesWhatItsRightsAllow : Prop :=
  ∀ (s : State) (bar2 : Bool) (off : BitVec 25) (size : Nat) (v : BitVec 64),
    let a := if bar2 then s.rd F.HIF_BAR2BASE_BASE * 0x100000 + off.toNat else 0xF0000000 + off.toNat
    let within := bar2 = true → s.rd F.FUS_PMBAR2_LO * 0x10000 ≤ a ∧ a + size ≤ s.rd F.FUS_PMBAR2_HI * 0x10000 + 0x10000 ∧
      a + size ≤ 0x100000000
    let refused := fun (kind wr : Nat) (t : State) => t.rd F.SYS_ERRADDR_LO_ADDR = a % 2 ^ 32 ∧
      t.rd F.SYS_ERRADDR_HI_ADDR = a / 2 ^ 32 % 256 ∧ t.rd F.SYS_ERRINFO_KIND = kind ∧ t.rd F.SYS_ERRINFO_WRITE = wr ∧
      t.rd F.SYS_ERRINFO_INIT = 0x48 ∧ t.rd F.SYS_ERRINFO_VALID = 1 ∧ t.mem = s.mem ∧
      SameOtherCells s t [F.SYS_ERRADDR_LO_ADDR, F.SYS_ERRADDR_HI_ADDR, F.SYS_ERRINFO_KIND, F.SYS_ERRINFO_WRITE,
        F.SYS_ERRINFO_INIT, F.SYS_ERRINFO_VALID]
    (s.rd F.HIF_LINKSTAT_UP = 0 → ∀ w, exec (.hostAccess bar2 off w size v) s = .next s) ∧
    (s.fabric = true → s.rd F.HIF_LINKSTAT_UP = 1 → accessSize size = true → within →
      (0x10000000 ≤ a → a + size ≤ 0x12000000 →
        (bitOf (s.rd F.FUS_PMHOST_RIGHTS) 3 = true → Does (.hostAccess bar2 off true size v) s fun t =>
          t.readLE a size = v.toNat % 256 ^ size ∧ (∀ x, x < a ∨ a + size ≤ x → t.byte x = s.byte x) ∧
          SameOtherCells s t [I.linkV, I.txWr, I.txWrC] ∧ t = { s with cells := t.cells, mem := t.mem }) ∧
        (bitOf (s.rd F.FUS_PMHOST_RIGHTS) 2 = true →
          exec (.hostAccess bar2 off false size v) s = .next (s.seen 0x48 (s.readLE a size)))) ∧
      (s.rd F.SYS_ERRINFO_VALID = 0 → bitOf (s.rd F.MLS_ERRSEL_SEL) 0 = false →
        (place s a = .nothing →
          Does (.hostAccess bar2 off true size v) s (refused 0 1) ∧
          Does (.hostAccess bar2 off false size v) s fun t => refused 0 0 t ∧ Tbl.get 0 t.rdata 0x48 = 0) ∧
        (0x10000000 ≤ a → a + size ≤ 0x12000000 →
          (bitOf (s.rd F.FUS_PMHOST_RIGHTS) 3 = false → Does (.hostAccess bar2 off true size v) s (refused 1 1)) ∧
          (bitOf (s.rd F.FUS_PMHOST_RIGHTS) 2 = false → Does (.hostAccess bar2 off false size v) s fun t =>
            refused 1 0 t ∧ Tbl.get 0 t.rdata 0x48 = 0)))) ∧
    (s.fabric = true → s.rd F.HIF_LINKSTAT_UP = 1 → accessSize size = true → ¬ within →
      s.rd F.SYS_ERRINFO_VALID = 0 → bitOf (s.rd F.MLS_ERRSEL_SEL) 0 = false →
        Does (.hostAccess bar2 off true size v) s (refused 1 1) ∧
        Does (.hostAccess bar2 off false size v) s fun t => refused 1 0 t ∧ Tbl.get 0 t.rdata 0x48 = 0)

/-! ## Modes, reset and boot (chapters 2 and 3) -/

/-- The cells an entry to RESET itself writes. -/
def Sys2Proof.Safety.resetEntryCells : List Fld :=
  [F.PMU_MODE_CURRENT, F.PMU_MODE_CAUSE, F.PMU_MODE_REFUSED, I.watchEntry, I.wakePend, I.watchFromReset,
   F.PMU_IRQSTAT_MODEDONE, I.pinPen]

/-- From s to t the device has entered RESET for a cause: the registers of Nightwatch, the pins and the fuses keep
their values, every other register has its reset value, every queue and table of commands in progress is empty, and
every PEN output is high-impedance (R43, R68, R41). -/
def Sys2Proof.Safety.ResetEntered (s t : State) (cause : Nat) (more : List Fld) : Prop :=
  t.mode = mRESET ∧ t.rd F.PMU_MODE_CAUSE = cause ∧ t.rd F.PMU_IRQSTAT_MODEDONE = 1 ∧ (∀ k, k < 8 → t.rd I.pinPen k = 0) ∧
    (∀ g j, (∀ f ∈ resetEntryCells ++ more, f.id ≠ g.id) →
      t.rd g j = if keptByReset g.id then s.rd g j else State.reset.rd g j) ∧
    t = { State.reset with pending := s.pending, cells := t.cells, mem := t.mem, freeCtr := s.freeCtr, rdata := s.rdata,
                           partialFuses := s.partialFuses }

/-- NIGHTWATCH_START starts the always-on domain and nothing else (R519).  RST_N_LOW then enters RESET with cause RST_N,
and memory keeps its bytes; before the start it does nothing (R68, R519, R530).  VDDNW_LOW enters RESET with cause VDDNW
low, and every memory loses its contents (R68, R530).  In each the fuses are not being burned (R84).  That lost contents read as
unwritten is the model's choice (log entry 3).

RST_N_RISE in RESET latches BOOTSEL, drives every PEN low, and enters BOOT with the fuse load in progress, or WATCH
for BOOTSEL = 0b100 (R73, R74 step 1, R534); elsewhere it changes nothing, and the latched value stays. -/
def Obligations.ResetKeepsNightwatchAndStraps : Prop :=
  (∀ s : State, Puts .nightwatchStart s [(I.nwStarted, 0, 1)] ∧ (s.rd I.nwStarted = 0 → exec .rstNLow s = .next s) ∧
    (s.rd I.fuseBurn = 0 →
      (s.rd I.nwStarted = 1 → Does .rstNLow s fun t => ResetEntered s t 1 [I.pinRstN] ∧ t.rd I.pinRstN = 0 ∧ t.mem = s.mem) ∧
      Does .vddnwLow s fun t => ResetEntered s t 2 [] ∧ t.mem = [])) ∧
  (∀ (s : State) (sel : BitVec 3),
    (s.rd I.nwStarted = 0 ∨ s.mode ≠ mRESET → exec (.rstNRise sel) s = .next s) ∧
    (s.rd I.nwStarted = 1 → s.mode = mRESET → Does (.rstNRise sel) s fun t =>
      t.rd I.strap = sel.toNat ∧ t.mode = (if sel = 4 then mWATCH else mBOOT) ∧ t.rd I.bootPh = 1 ∧
      (∀ k, k < 8 → t.rd I.pinPen k = 1) ∧ t.rd F.PMU_MODE_CAUSE = 1 ∧
      t.rd F.HIF_LINKSTAT_PERSTSEEN = (if sel ≠ 4 ∧ s.rd I.pinPerst = 0 then 1 else s.rd F.HIF_LINKSTAT_PERSTSEEN) ∧
      SameOtherCells s t [I.pinRstN, I.strap, F.PMU_MODE_CURRENT, F.PMU_MODE_CAUSE, F.PMU_IRQSTAT_MODEDONE, I.bootPh,
        I.pinPen, I.watchFromReset, F.HIF_LINKSTAT_PERSTSEEN] ∧ SameButCells s t))

/-- NWCNT_LO_READ returns bits [31:0] of the counter and latches bits [47:32] into PMU_NWCNT_HI (R44).  NWALARM, an
NWCLK edge at which the counter advances, raises the alarm exactly when the new value equals the target and EN = 1
(R529), in every mode but WATCH, where the alarm also wakes. -/
def Obligations.NightwatchCountsAndCompares : Prop :=
  ∀ (s : State) (ini : Init),
    (s.fabric = true → Does (.nwcntLoRead ini) s fun t =>
      Tbl.get 0 t.rdata (initCode ini) = s.rd I.nwCnt % 2 ^ 32 ∧ t.rd F.PMU_NWCNT_HI_CNT = s.rd I.nwCnt / 2 ^ 32 ∧
      SameOtherCells s t [F.PMU_NWCNT_HI_CNT, F.PMU_NWCNT_LO_CNT] ∧
      t = { s with cells := t.cells, rdata := t.rdata }) ∧
    (s.rd I.nwStarted = 0 → exec .nwalarm s = .next s) ∧
    (s.rd I.nwStarted = 1 → s.mode ≠ mWATCH →
      let c := (s.rd I.nwCnt + 1) % 2 ^ 48
      let target := s.rd F.PMU_NWALM_HI_TGT * 2 ^ 32 + s.rd F.PMU_NWALM_LO_TGT
      Puts .nwalarm s ((I.nwCnt, 0, c) ::
        if s.rd F.PMU_NWALM_HI_EN = 1 ∧ c = target then [(F.PMU_IRQSTAT_NWALARM, 0, 1)] else []))

/-- The sequence has come to step k: its PEN is high and it waits its DELAY (R62). -/
def Sys2Proof.Safety.seqAt (s : State) (k : Nat) : State :=
  puts s [(I.seqIdx, 0, k), (I.seqWaitPg, 0, 0), (I.pinPen, s.rd F.PMU_SEQSTEP_PEN k, 2)]

/-- FUSE_LOAD_DONE copies the fuse array to its shadows and sets LOADED; from an intact array the run-time protection
words, thermal thresholds and serial number come from their fuse words, and from a damaged one every protection word is
zero and FUSEERR is set (R43, R74 step 2, R75, R82, R90).  REFCLK_DETECT_DONE selects 25 MHz or 156.25 MHz from a count
within ±1 %, or leaves the device in BOOT with REFFREQ = 0b00 (R45).  No fuse bit is half burned (R84).

MAIN_PLL_LOCK sets PLLLOCK, gives TMU its reset values and begins the power sequence at its first valid step
(R62, R74 step 4, R401).  SEQ_DELAY_EXPIRY goes on to the next valid step, or waits where the step waits for PGOOD and
PGOOD is low; SEQ_PGOOD ends that wait; after the last step DONE is set and the boot ROM waits for an image, here from
QSPI (R62, R73, R74 steps 5 and 6). -/
def Obligations.FusesClocksAndPowerComeUpInOrder : Prop :=
  ((∀ (s : State) (intact : Bool), s.mode = mBOOT → s.rd I.bootPh = 1 → s.rd F.FUS_STAT_BUSY = 0 → s.partialFuses = [] →
    let g := fun w => if intact then s.rd I.fuseArray w else 0
    Does (.fuseLoadDone intact) s fun t =>
      (∀ w, w < 128 → t.rd F.FUS_SHADOW_WORD w = s.rd I.fuseArray w) ∧ t.rd F.FUS_STAT_LOADED = 1 ∧
      t.rd F.FUS_STAT_FUSEERR = (if intact then s.rd F.FUS_STAT_FUSEERR else 1) ∧ t.rd I.bootPh = 2 ∧
      t.rd F.FUS_PMHOST_RIGHTS = g 51 % 2 ^ 20 ∧ t.rd F.FUS_PMDBG_RIGHTS = g 52 % 2 ^ 20 ∧
      t.rd F.FUS_PMSGC_RIGHTS = g 53 % 2 ^ 20 ∧ t.rd F.FUS_PMCWY_RIGHTS = g 54 % 2 ^ 20 ∧
      t.rd F.FUS_PMBAR2_HI = g 55 / 2 ^ 16 % 2 ^ 16 ∧ t.rd F.FUS_PMBAR2_LO = g 55 % 2 ^ 16 ∧
      t.rd F.FUS_PMMISC_RFENCE = g 56 % 2 ∧ t.rd F.FUS_PMMISC_RMLS = g 56 / 2 % 2 ∧ t.rd F.FUS_PMMISC_RMBOX = g 56 / 4 % 2 ∧
      t.rd F.PMU_THERMCFG_WARN = bits (s.rd I.fuseArray 68) 7 0 ∧ t.rd F.PMU_THERMCFG_THROT = bits (s.rd I.fuseArray 68) 15 8 ∧
      t.rd F.PMU_THERMCFG_CRIT = bits (s.rd I.fuseArray 68) 23 16 ∧
      t.rd F.SYS_SERIAL_LO_SERIAL = s.rd I.fuseArray 124 ∧ t.rd F.SYS_SERIAL_HI_SERIAL = s.rd I.fuseArray 125 ∧
      t.mode = mBOOT ∧ SameButCells s t ∧
      SameOtherCells s t [F.FUS_SHADOW_WORD, F.FUS_STAT_LOADED, F.FUS_STAT_FUSEERR, I.bootPh, F.FUS_PMHOST_RIGHTS,
        F.FUS_PMDBG_RIGHTS, F.FUS_PMSGC_RIGHTS, F.FUS_PMCWY_RIGHTS, F.FUS_PMBAR2_HI, F.FUS_PMBAR2_LO, F.FUS_PMMISC_RMBOX,
        F.FUS_PMMISC_RMLS, F.FUS_PMMISC_RFENCE, F.PMU_SEQSTEP_VALID, F.PMU_SEQSTEP_WATCHOFF, F.PMU_SEQSTEP_WAITPG,
        F.PMU_SEQSTEP_PEN, F.PMU_SEQSTEP_DELAY, F.PMU_AVSCFG_EN, F.PMU_AVSCFG_ADDR, F.PMU_AVSCFG_MARGIN,
        F.PMU_THERMCFG_CRIT, F.PMU_THERMCFG_THROT, F.PMU_THERMCFG_WARN, F.SYS_ID_GRADE, F.SYS_SERIAL_LO_SERIAL,
        F.SYS_SERIAL_HI_SERIAL]) ∧
  (∀ (s : State) (edges : Nat), s.mode = mBOOT → s.rd I.bootPh = 2 →
    let near := fun hz => 8 * hz * 99 ≤ edges * 32768 * 100 ∧ edges * 32768 * 100 ≤ 8 * hz * 101
    Puts (.refclkDetectDone edges) s (if near 25000000 then [(F.PMU_CLK_REFFREQ, 0, 1), (I.bootPh, 0, 3)]
      else if near 156250000 then [(F.PMU_CLK_REFFREQ, 0, 2), (I.bootPh, 0, 3)]
      else [(F.PMU_CLK_REFFREQ, 0, 0), (I.bootPh, 0, 0)]))) ∧
  ((∀ s : State, s.mode = mBOOT → s.rd I.bootPh = 3 → s.rd F.PMU_SEQSTEP_VALID 0 = 1 → s.rd F.PMU_SEQSTEP_PEN 0 < 8 →
    Does .mainPllLock s fun t => t.rd F.PMU_CLK_PLLLOCK = 1 ∧ t.rd I.tickRun = 1 ∧ t.rd F.PMU_SEQCFG_DONE = 0 ∧
      t.rd F.PMU_SEQCFG_SEQFAIL = 0 ∧ t.rd I.bootPh = 4 ∧ t.rd I.seqIdx = 0 ∧ t.rd I.seqWaitPg = 0 ∧
      t.rd I.pinPen (s.rd F.PMU_SEQSTEP_PEN 0) = 2 ∧ SameButCells s t ∧
      ∀ g j, (∀ f ∈ [F.PMU_CLK_PLLLOCK, I.tickRun, F.PMU_SEQCFG_DONE, F.PMU_SEQCFG_SEQFAIL, I.bootPh, I.pinPen, I.seqIdx,
          I.seqWaitPg], f.id ≠ g.id) →
        t.rd g j = if g.id / 32 / 0x100000 = 6 then State.reset.rd g j else s.rd g j) ∧
  ∀ (s : State) (k : Nat), k < 8 → s.mode = mBOOT → s.rd I.bootPh = 4 → s.rd I.seqIdx = k →
    let wait := s.rd F.PMU_SEQSTEP_WAITPG k = 1 ∧ s.rd I.pinPgood = 0
    let onward := fun (u : State) (t : State) =>
      (∀ n, k < n → n < 8 → (∀ j, k < j → j < n → s.rd F.PMU_SEQSTEP_VALID j = 0) → s.rd F.PMU_SEQSTEP_VALID n = 1 → t = seqAt u n) ∧
      ((∀ j, k < j → j < 8 → s.rd F.PMU_SEQSTEP_VALID j = 0) → s.rd F.FUS_STAT_FUSEERR = 0 → s.rd I.strap = 0 →
        t = puts u [(F.PMU_SEQCFG_DONE, 0, 1), (I.seqIdx, 0, 8), (I.seqWaitPg, 0, 0), (I.bootPh, 0, 5),
          (F.SYS_BOOTSTAT_CODE, 0, 0), (F.SYS_BOOTSTAT_SOURCE, 0, 0), (I.bootSrc, 0, 0), (I.romSt, 0, 1), (I.bootCopy, 0, 0)])
    (s.rd I.seqWaitPg = 0 →
      (wait → Puts .seqDelayExpiry s [(I.seqWaitPg, 0, 1)]) ∧ (¬ wait → Does .seqDelayExpiry s (onward s))) ∧
    (s.rd I.seqWaitPg = 0 → Puts .seqPgood s [(I.pinPgood, 0, 1)]) ∧
    (s.rd I.seqWaitPg = 1 → Does .seqPgood s (onward (puts s [(I.pinPgood, 0, 1)]))))

/-- From s to t the device has entered FENCED for a cause: the mode, its cause and MODEDONE are set, every PEN output is
high-impedance at once, no boot or wake is under way, descriptors queued for egress are gone, and nothing else has
changed (R41, R42, R65). -/
def Sys2Proof.Safety.fencedFrom (s : State) (cause : Nat) : State :=
  { puts s ([(F.PMU_MODE_CURRENT, 0, mFENCED), (F.PMU_MODE_CAUSE, 0, cause), (F.PMU_IRQSTAT_MODEDONE, 0, 1), (I.fencePend, 0, 0),
      (I.watchEntry, 0, 0), (I.wakePend, 0, 0), (I.bootPh, 0, 0)] ++ (List.range 8).map fun k => (I.pinPen, k, 0)) with egress := [] }

/-- Every Ethernet port and Causeway link is down. -/
def Sys2Proof.Safety.LinksDown (s : State) : Prop :=
  (∀ p, p < 8 → s.rd F.PKE_P_STAT_UP p = 0) ∧ ∀ l, l < 14 → s.rd F.CWY_L_STAT_STATE l = 0

/-- The requests of the table of R68 that a supervisor may make: BOOT to SERVICE only with AUTH = 1, SERVICE to DRAIN and
back, DRAIN to WATCH only without a channel ARMED, ACTIVE or MOVING, FENCED to BOOT, and FENCED from any mode but RESET. -/
def Sys2Proof.Safety.MayRequest (s : State) (n : Nat) : Prop :=
  (s.mode = mBOOT ∧ n = mSERVICE ∧ s.rd F.SYS_BOOTSTAT_AUTH = 1) ∨ (s.mode = mSERVICE ∧ n = mDRAIN) ∨
    (s.mode = mDRAIN ∧ n = mSERVICE) ∨ (s.mode = mDRAIN ∧ n = mWATCH ∧ liveChannel s = false) ∨
    (s.mode = mFENCED ∧ n = mBOOT) ∨ (s.mode ≠ mRESET ∧ n = mFENCED)

/-- Fatal errors enter FENCED, each with its cause and its status bits: SEQ_PGTIMEOUT and PGOOD_FAIL set SEQFAIL with
cause 9 (R63, R518), REFCLK_LOSS sets REFLOSS and stops PLL and tick with cause 10 (R42, R46).  Outside the situations
the rules name, PGOOD_FAIL only shows the pin, and the others do nothing.  The links are down, and MLS does not take
the fatal error as a trigger (R497).

MODE_REQUEST: a request that the table does not allow leaves the mode unchanged, sets REFUSED and raises MODEREFUSED
(R69); one between SERVICE and DRAIN, or from BOOT to SERVICE, is accepted with cause 4 and changes nothing else; one
for BOOT, WATCH or FENCED makes that the mode with cause 4 (R68, R69); a write without GO only stores TARGET, and a
reserved TARGET leaves that field unchanged (R8). -/
def Obligations.ModesFollowErrorsAndRequests : Prop :=
  (∀ s : State, LinksDown s → bitOf (s.rd F.MLS_ERRSEL_SEL) 6 = false →
    (s.mode = mBOOT → s.rd I.bootPh = 4 → s.rd I.seqIdx < 8 → s.rd I.seqWaitPg = 1 → s.rd I.pinPgood = 0 →
      exec .seqPgtimeout s = .next (fencedFrom (puts s [(F.PMU_SEQCFG_SEQFAIL, 0, 1), (F.PMU_IRQSTAT_SEQFAIL, 0, 1)]) 9)) ∧
    (s.rd I.seqWaitPg = 0 → exec .seqPgtimeout s = .next s) ∧
    (s.rd F.PMU_SEQCFG_DONE = 1 → s.mode = mBOOT ∨ s.mode = mSERVICE ∨ s.mode = mDRAIN →
      exec .pgoodFail s = .next (fencedFrom (puts s [(I.pinPgood, 0, 0), (F.PMU_SEQCFG_SEQFAIL, 0, 1), (F.PMU_IRQSTAT_SEQFAIL, 0, 1)]) 9)) ∧
    (s.rd F.PMU_SEQCFG_DONE = 0 → Puts .pgoodFail s [(I.pinPgood, 0, 0)]) ∧
    (s.mode = mBOOT ∨ s.mode = mSERVICE ∨ s.mode = mDRAIN → exec .refclkLoss s = .next (fencedFrom (puts s
      [(F.PMU_CLK_REFLOSS, 0, 1), (F.PMU_CLK_PLLLOCK, 0, 0), (I.tickRun, 0, 0), (F.PMU_IRQSTAT_REFLOSS, 0, 1)]) 10)) ∧
    (s.mode = mRESET ∨ s.mode = mWATCH → exec .refclkLoss s = .next s)) ∧
  (∀ (s : State) (ini : Init) (v : Word), s.fabric = true →
    let n := bits v.toNat 18 16
    let u := if n ≤ 5 then puts s [(F.PMU_MODE_TARGET, 0, n)] else s
    let target := u.rd F.PMU_MODE_TARGET
    (v.toNat < 2 ^ 31 → exec (.modeRequest ini v) s = .next u) ∧
    (2 ^ 31 ≤ v.toNat →
      (¬ MayRequest s target → exec (.modeRequest ini v) s = .next (puts u [(F.PMU_MODE_REFUSED, 0, 1), (F.PMU_IRQSTAT_MODEREFUSED, 0, 1)])) ∧
      (MayRequest s target → target = mSERVICE ∨ target = mDRAIN → exec (.modeRequest ini v) s = .next (puts u
        [(F.PMU_MODE_REFUSED, 0, 0), (F.PMU_MODE_CURRENT, 0, target), (F.PMU_MODE_CAUSE, 0, 4), (F.PMU_IRQSTAT_MODEDONE, 0, 1)])) ∧
      (MayRequest s target → target ≠ s.mode → Does (.modeRequest ini v) s fun t =>
        t.mode = target ∧ t.rd F.PMU_MODE_CAUSE = 4 ∧ t.rd F.PMU_IRQSTAT_MODEDONE = 1)))

/-- WAKE_EVENT: in a WATCH entered from RESET that is complete, a wake event whose enable is set is recorded in WSTAT and
enters BOOT with cause 3, from where Nightwatch's registers are kept and every other register takes its reset value
(R59, R68, R530); one that comes while WATCH is being entered is kept (R70); one that is not enabled, or that comes in
another mode, changes nothing, but that a PCIe event shows PERST_N high (R94).  WATCH_PEN_OFF_STEP drives the PEN of the
next WATCHOFF step low, in reverse order (R64), and after the last the kept wake acts (R70). -/
def Obligations.WatchKeepsAndTakesWakes : Prop :=
  ∀ (s : State) (src : BitVec 4),
    let u := if bitOf src.toNat 0 then puts s [(I.pinPerst, 0, 1)] else s
    let hit := Nat.land src.toNat (s.rd F.PMU_WAKE_WEN)
    let seen := puts u [(F.PMU_WAKE_WSTAT, 0, Nat.lor (s.rd F.PMU_WAKE_WSTAT) hit)]
    (s.mode ≠ mWATCH ∨ hit = 0 → exec (.wakeEvent src) s = .next u) ∧
    (s.mode = mWATCH → hit ≠ 0 → s.rd I.watchEntry ≠ 0 ∨ s.rd I.bootPh = 1 →
      exec (.wakeEvent src) s = .next (puts seen [(I.wakePend, 0, 1)])) ∧
    (s.mode = mWATCH → hit ≠ 0 → s.rd I.watchEntry = 0 → s.rd I.bootPh ≠ 1 → s.rd I.watchFromReset = 1 →
      Does (.wakeEvent src) s fun t => t.mode = mBOOT ∧ t.rd F.PMU_MODE_CAUSE = 3 ∧
        t.rd F.PMU_WAKE_WSTAT = Nat.lor (s.rd F.PMU_WAKE_WSTAT) hit ∧ t.rd I.bootPh = 1 ∧ t.rd I.strap = s.rd I.strap ∧
        t.rd I.nwCnt = s.rd I.nwCnt ∧ (∀ c, c < 32768 → ctxState t c = 0) ∧ t.rd F.FUS_STAT_LOADED = 0) ∧
    (s.mode ≠ mWATCH ∨ s.rd I.watchEntry = 0 → exec .watchPenOffStep s = .next s) ∧
    (s.mode = mWATCH → s.rd I.watchEntry ≠ 0 →
      let off := fun j => s.rd F.PMU_SEQSTEP_VALID j = 1 ∧ s.rd F.PMU_SEQSTEP_WATCHOFF j = 1
      (∀ j, j < s.rd I.watchEntry → j < 8 → off j → (∀ i, j < i → i < s.rd I.watchEntry → i < 8 → ¬ off i) →
        Puts .watchPenOffStep s [(I.pinPen, s.rd F.PMU_SEQSTEP_PEN j, 1), (I.watchEntry, 0, j)]) ∧
      ((∀ j, j < s.rd I.watchEntry → j < 8 → ¬ off j) →
        (s.rd I.wakePend = 0 → Puts .watchPenOffStep s [(I.watchEntry, 0, 0)]) ∧
        (s.rd I.wakePend = 1 → Does .watchPenOffStep s fun t => t.mode = mBOOT ∧ t.rd F.PMU_MODE_CAUSE = 3)))

/-- Checks 1 to 5 of R77 pass for a header, against the shadows of the key slots and of the rollback field. -/
def Sys2Proof.Safety.HeaderPasses (s : State) (h : List Byte) : Prop :=
  let slot := hdrLE h 6 1
  let len := hdrLE h 0x0C 4
  let load := hdrLE h 0x10 8
  let entry := hdrLE h 0x18 8
  (hdrBytes h 0 4 = [0x41, 0x4C, 0x42, 0x49] ∧ hdrLE h 4 2 = 1 ∧ hdrLE h 7 1 = 0 ∧ ∀ b ∈ hdrBytes h 0xE0 32, b = 0) ∧
    (slot ≤ 3 ∧ slotUsable s slot = true) ∧ Config.sha384 (hdrBytes h 0x20 96) = keySlot s slot ∧
    rollbackCount s ≤ hdrLE h 8 4 ∧
    (hdrLE h 8 4 ≤ 64 ∧ len % 16 = 0 ∧ len ≤ 6 * 2 ^ 20 ∧ 0x20000000 ≤ load ∧ load + len ≤ 0x20800000 ∧
      load ≤ entry ∧ entry < load + len)

/-- BOOT_IMAGE_CHECK of an image from UART: one that passes checks 1 to 5 and whose signature verifies over SHA-384 of
header bytes 0x00–0x7F and the body is placed at LOADADDR, sets AUTH, and starts SVC0 at ENTRY (R77, R79, R96); one
that fails checks 1 to 5 leaves memory and AUTH alone and records a failure code between 0x10 and 0x15; a source that
does not respond records TIMEOUT; in both the boot ROM waits for a new image (R78); and a boot ROM that does not wait
for an image does nothing.  SHA-384 and ECDSA P-384 are constants without a body (the model's choice, log entry 26). -/
def Obligations.BootRomRunsOnlyWhatPasses : Prop :=
  ∀ (s : State) (hdr body : List Byte),
    (s.rd I.romSt ≠ 1 → ∀ r, exec (.bootImageCheck r hdr body) s = .next s) ∧
    (s.mode = mBOOT → s.rd I.romSt = 1 → s.rd I.bootSrc = 3 →
      let b := hdrBytes body 0 (hdrLE hdr 0x0C 4)
      let u := puts s [(F.HIF_DOORBELL_H2S, 0, s.rd F.HIF_DOORBELL_H2S), (I.bootImg, 0, 0), (F.SYS_BOOTSTAT_CODE, 0, 0)]
      Puts (.bootImageCheck false hdr body) s [(F.SYS_BOOTSTAT_CODE, 0, 0x20), (I.romSt, 0, 1)] ∧
      (HeaderPasses s hdr → signatureOk hdr b = true → exec (.bootImageCheck true hdr body) s = .next (puts (u.writeBytes (hdrLE hdr 0x10 8) b)
        [(F.SYS_BOOTSTAT_AUTH, 0, 1), (F.SYS_BOOTSTAT_CODE, 0, 1), (F.SYS_BOOTSTAT_SLOT, 0, hdrLE hdr 6 1), (I.romSt, 0, 3),
         (I.pcb, 128, hdrLE hdr 0x18 8)])) ∧
      (HeaderPasses s hdr → signatureOk hdr b = false → exec (.bootImageCheck true hdr body) s = .next (puts (u.writeBytes (hdrLE hdr 0x10 8) b)
        [(F.SYS_BOOTSTAT_CODE, 0, 0x13), (I.romSt, 0, 1)])) ∧
      (¬ HeaderPasses s hdr → ∃ code ∈ [0x10, 0x11, 0x12, 0x14, 0x15], exec (.bootImageCheck true hdr body) s = .next (puts u
        [(F.SYS_BOOTSTAT_CODE, 0, code), (I.romSt, 0, 1)])))

/-- A burn of this bit that R81 forbids: the REVOKE bit of the last slot that is neither blank nor revoked in the array. -/
def Sys2Proof.Safety.LastKeyRevoked (s : State) (word bit : Nat) : Prop :=
  let live := fun k => (∃ j, j < 12 ∧ s.rd I.fuseArray (12 * k + j) ≠ 0) ∧ bitOf (s.rd I.fuseArray 48) k = false
  word = 48 ∧ bit < 4 ∧ live bit ∧ ∀ k, k < 4 → k ≠ bit → ¬ live k

/-- FUS_PROG by a supervisor core in supervisor privilege, with VFUSE present, in BOOT or SERVICE, starts the burn of the
bit it names; one that fails a condition of R83, or that R81 forbids, sets PROGERR and burns nothing; a write of GO
while a burn runs starts none (R9).  FUSE_BURN_DONE sets that bit of the array, and no other, and leaves the shadows
for the next BOOT (R83, R84).

PROTECTION_MAP_WRITE only tightens: a right, or a permission of PMMISC, holds after the write only if it held before
and was written as 1; LO only rises and HI only falls; nothing else changes (R90). -/
def Obligations.FusesBurnAndProtectionTightens : Prop :=
  ((∀ (s : State) (ini : Init) (vfuse : Bool) (v : Word), s.fabric = true →
    let word := bits v.toNat 22 16
    let bit := bits v.toNat 4 0
    let named := [(F.FUS_STAT_VFUSEOK, 0, b2n vfuse), (F.FUS_PROG_WORD, 0, word), (F.FUS_PROG_BIT, 0, bit)]
    let may := (∃ n : Fin 4, ini = .svc n ∧ bitOf (s.rd I.scr (n.val * 16)) 0 = true) ∧ vfuse = true ∧
      (s.mode = mBOOT ∨ s.mode = mSERVICE) ∧ ¬ LastKeyRevoked s word bit
    (s.rd F.FUS_STAT_BUSY = 1 ∨ v.toNat < 2 ^ 31 → Puts (.fusProg ini vfuse v) s named) ∧
    (s.rd F.FUS_STAT_BUSY = 0 → 2 ^ 31 ≤ v.toNat →
      (may → Puts (.fusProg ini vfuse v) s (named ++ [(F.FUS_STAT_BUSY, 0, 1), (F.FUS_PROG_GO, 0, 1), (I.fuseBurn, 0, word * 32 + bit + 1)])) ∧
      (¬ may → Puts (.fusProg ini vfuse v) s (named ++ [(F.FUS_STAT_PROGERR, 0, 1)])))) ∧
  (∀ (s : State) (word bit : Nat), word < 128 → bit < 32 → s.rd I.fuseBurn = word * 32 + bit + 1 →
    Does .fuseBurnDone s fun t =>
      (∀ w k, k < 32 → bitOf (t.rd I.fuseArray w) k = (bitOf (s.rd I.fuseArray w) k || (w == word && k == bit))) ∧
      t.rd I.fuseBurn = 0 ∧ t.rd F.FUS_STAT_BUSY = 0 ∧ t.rd F.FUS_PROG_GO = 0 ∧
      OnlyCells s t [(I.fuseArray, word), (I.fuseBurn, 0), (F.FUS_STAT_BUSY, 0), (F.FUS_PROG_GO, 0)]) ∧
  ∀ s : State, s.rd I.fuseBurn = 0 → exec .fuseBurnDone s = .next s) ∧
  (∀ (s : State) (ini : Init) (v : Word), s.fabric = true →
    (∀ (k : Fin 4) (f : Fld), [F.FUS_PMHOST_RIGHTS, F.FUS_PMDBG_RIGHTS, F.FUS_PMSGC_RIGHTS, F.FUS_PMCWY_RIGHTS][k.val]? = some f →
      Does (.protectionMapWrite ini (k.castLE (by decide)) v) s fun t =>
        (∀ b, b < 20 → bitOf (t.rd f) b = (bitOf (s.rd f) b && bitOf v.toNat b)) ∧ OnlyCells s t [(f, 0)]) ∧
    Does (.protectionMapWrite ini 4 v) s (fun t =>
      t.rd F.FUS_PMBAR2_LO = max (s.rd F.FUS_PMBAR2_LO) (bits v.toNat 15 0) ∧
      t.rd F.FUS_PMBAR2_HI = min (s.rd F.FUS_PMBAR2_HI) (bits v.toNat 31 16) ∧
      OnlyCells s t [(F.FUS_PMBAR2_LO, 0), (F.FUS_PMBAR2_HI, 0)]) ∧
    Does (.protectionMapWrite ini 5 v) s fun t =>
      t.rd F.FUS_PMMISC_RMBOX = min (s.rd F.FUS_PMMISC_RMBOX) (bitN v.toNat 2) ∧
      t.rd F.FUS_PMMISC_RMLS = min (s.rd F.FUS_PMMISC_RMLS) (bitN v.toNat 1) ∧
      t.rd F.FUS_PMMISC_RFENCE = min (s.rd F.FUS_PMMISC_RFENCE) (bitN v.toNat 0) ∧
      OnlyCells s t [(F.FUS_PMMISC_RMBOX, 0), (F.FUS_PMMISC_RMLS, 0), (F.FUS_PMMISC_RFENCE, 0)])

/-- The host interface: each doorbell is set and cleared alone, and setting S2H sends MSI vector 0 (R93); PERST_N low
resets the link, HIF_BAR2BASE and the host's select copies, sets PERSTSEEN, and touches nothing else (R16, R94, R532);
HIF_LINKSTAT shows the link's width and rate while it is up and zeroes while it is down (R532); the first write of
SYS_DEVNUM stores it and locks it, and later writes are ignored (R446). -/
def Obligations.HostInterfaceCommands : Prop :=
  ∀ (s : State) (ini : Init) (v : Word) (w : BitVec 2) (r : BitVec 4), s.fabric = true →
    Puts (.dbsetH2s ini) s [(F.HIF_DOORBELL_H2S, 0, 1)] ∧
    Puts (.dbsetS2h ini) s [(F.HIF_DOORBELL_S2H, 0, 1), (I.msiSent, 0, s.rd I.msiSent + 1)] ∧
    Puts (.dbclrH2s ini) s [(F.HIF_DOORBELL_H2S, 0, 0)] ∧ Puts (.dbclrS2h ini) s [(F.HIF_DOORBELL_S2H, 0, 0)] ∧
    Does .perstAssert s (fun t => t.rd F.HIF_LINKSTAT_UP = 0 ∧ t.rd F.HIF_LINKSTAT_WIDTH = 0 ∧ t.rd F.HIF_LINKSTAT_SPEED = 0 ∧
      t.rd F.HIF_LINKSTAT_PERSTSEEN = 1 ∧ t.rd F.HIF_BAR2BASE_BASE = 0x100 ∧ t.rd I.pinPerst = 0 ∧
      (∀ f ∈ [F.TSU_SELECT_INDEX, F.QUE_SELECT_INDEX, F.TMU_SELECT_INDEX, F.TMU_WPSEL_INDEX, F.PKE_SELECT_INDEX,
        F.TDX_SELECT_INDEX, F.CWY_SELECT_INDEX, F.HMN_SELECT_INDEX, F.CHW_SELECT_INDEX, F.DMA_SELECT_INDEX], t.rd f 4 = 0) ∧
      OnlyCells s t ([(F.HIF_LINKSTAT_UP, 0), (F.HIF_LINKSTAT_WIDTH, 0), (F.HIF_LINKSTAT_SPEED, 0), (F.HIF_LINKSTAT_PERSTSEEN, 0),
        (F.HIF_BAR2BASE_BASE, 0), (I.pinPerst, 0), (I.incrHeld, 16), (I.incrHeld, 17), (I.incrHeld, 18), (I.incrHeld, 19)] ++
        [F.TSU_SELECT_INDEX, F.QUE_SELECT_INDEX, F.TMU_SELECT_INDEX, F.TMU_WPSEL_INDEX, F.PKE_SELECT_INDEX, F.TDX_SELECT_INDEX,
         F.CWY_SELECT_INDEX, F.HMN_SELECT_INDEX, F.CHW_SELECT_INDEX, F.DMA_SELECT_INDEX, F.TSU_SELECT_SELERR, F.QUE_SELECT_SELERR,
         F.TMU_SELECT_SELERR, F.TMU_WPSEL_SELERR, F.PKE_SELECT_SELERR, F.TDX_SELECT_SELERR, F.CWY_SELECT_SELERR,
         F.HMN_SELECT_SELERR, F.CHW_SELECT_SELERR, F.DMA_SELECT_SELERR].map fun f => (f, 4))) ∧
    Puts (.pcieLinkChange true w r) s [(I.pinPerst, 0, 1), (F.HIF_LINKSTAT_UP, 0, 1), (F.HIF_LINKSTAT_WIDTH, 0, w.toNat),
      (F.HIF_LINKSTAT_SPEED, 0, r.toNat)] ∧
    Puts (.pcieLinkChange false w r) s [(F.HIF_LINKSTAT_UP, 0, 0), (F.HIF_LINKSTAT_WIDTH, 0, 0), (F.HIF_LINKSTAT_SPEED, 0, 0)] ∧
    (s.rd F.SYS_DEVNUM_LOCKED = 0 → Does (.devnumWrite ini v) s fun t => t.rd F.SYS_DEVNUM_DEVNUM = v.toNat % 2048 ∧
      t.rd F.SYS_DEVNUM_LOCKED = 1 ∧ OnlyCells s t [(F.SYS_DEVNUM_DEVNUM, 0), (F.SYS_DEVNUM_LOCKED, 0)]) ∧
    (s.rd F.SYS_DEVNUM_LOCKED = 1 → exec (.devnumWrite ini v) s = .next s)

/-! ## Clusters, banks, temperature and supply (chapter 2) -/

/-- The power-down of a cluster: each expiry takes it one state deeper only while it is in the state before, the idle
timer runs (every core in WAITJOB and nothing committed), no Dawn sequence runs, and FLOOR allows it; the last step
begins the write-back (R48, R49, R50).  CLUSTER_PWROFF of a cluster with no staged frame closes the gate: the local
memories and instruction caches of its cores lose their contents, and no other memory does (R48, R50).  CLUSTER_WAKE_REQUEST and
CLU_WAKE begin a Dawn sequence at the step that matches the state, and change nothing in RUN or in Dawn (R52, R53); the
Dawn steps pass through PLLOFF and GATED to RUN, where DAWN clears (R52, R531).  AVS is not active (R60).  That lost contents read
as unwritten is the model's choice (log entry 3). -/
def Obligations.ClustersDescendAndWake : Prop :=
  ∀ (s : State) (c : Fin 8), s.serving = true → avsActive s = false →
    let idle := s.rd F.CLU_STAT_DAWN c.val = 0 ∧ s.rd F.CLU_STAT_DRAINWB c.val = 0 ∧ ∀ k, k < 8 →
      (s.rd I.cJob (8 * c.val + k) = 0 ∧ s.rd I.waiting (8 * c.val + k) = 1 ∧ halted s (8 * c.val + k) = false ∧ s.rd I.cNext (8 * c.val + k) = 0)
    let st := cluSt s c.val
    let deeper := fun n => idle ∧ st = n ∧ n < s.rd F.CLU_CFG_FLOOR c.val
    let mask := BitVec.ofNat 32 (2 ^ c.val)
    let waked := fun t : State => t.rd F.CLU_STAT_DAWN c.val = 1 ∧ cluSt t c.val = st ∧
      t.rd I.cluPh c.val = (if st = clPWROFF then 1 else if st = clPLLOFF then 2 else 3) ∧
      OnlyCells s t [(F.CLU_STAT_DAWN, c.val), (F.CLU_DAWNCNT_COUNT, c.val), (I.cluPh, c.val)]
    (deeper clRUN → Puts (.clusterIdleExpiry c) s [(F.CLU_STAT_STATE, c.val, clGATED)]) ∧
    (deeper clGATED → Puts (.clusterPlldlyExpiry c) s [(F.CLU_STAT_STATE, c.val, clPLLOFF)]) ∧
    (deeper clPLLOFF → Puts (.clusterPwrdlyExpiry c) s [(F.CLU_STAT_DRAINWB, c.val, 1)]) ∧
    (s.rd F.CLU_CFG_FLOOR c.val ≤ st → exec (.clusterIdleExpiry c) s = .next s ∧ exec (.clusterPlldlyExpiry c) s = .next s ∧
      exec (.clusterPwrdlyExpiry c) s = .next s) ∧
    (s.rd F.CLU_STAT_DRAINWB c.val = 1 → cluFrames s c.val = [] → Does (.clusterPwroff c) s fun t =>
      cluSt t c.val = clPWROFF ∧ t.rd F.CLU_STAT_DRAINWB c.val = 0 ∧
      SameCells s t [(F.CLU_STAT_DRAINWB, c.val), (F.CLU_STAT_STATE, c.val)] ∧
      (∀ a, t.byte a = if 0x30000000 + c.val * 0x200000 ≤ a ∧ a < 0x30000000 + c.val * 0x200000 + 0x200000 then
        Memory.unwritten else s.byte a) ∧
      (∀ n, Tbl.get [] t.iLines n = if n / 8 = c.val then [] else Tbl.get [] s.iLines n) ∧
      t = { s with cells := t.cells, mem := t.mem, iLines := t.iLines }) ∧
    (s.rd F.CLU_STAT_DRAINWB c.val = 0 →
      (s.rd F.CLU_STAT_DAWN c.val = 0 → st ≠ clRUN → ∀ ini,
        Does (.clusterWakeRequest c) s waked ∧ Does (.cluWake ini mask) s waked) ∧
      (s.rd F.CLU_STAT_DAWN c.val = 1 ∨ st = clRUN → ∀ ini,
        exec (.clusterWakeRequest c) s = .next s ∧ exec (.cluWake ini mask) s = .next s)) ∧
    (s.rd F.CLU_STAT_DAWN c.val = 1 →
      (s.rd I.cluPh c.val = 1 → Puts (.dawnPowerGood c) s [(F.CLU_STAT_STATE, c.val, clPLLOFF), (I.cluPh, c.val, 2)]) ∧
      (s.rd I.cluPh c.val = 2 → Puts (.dawnPllLock c) s [(F.CLU_STAT_STATE, c.val, clGATED), (I.cluPh, c.val, 3)]) ∧
      (s.rd I.cluPh c.val = 3 → Puts (.dawnDone c) s [(F.CLU_STAT_STATE, c.val, clRUN), (I.cluPh, c.val, 0), (F.CLU_STAT_DAWN, c.val, 0)]))

/-- CSTBANK_WRITE that asks OFF for no bank gives every bank its mode: a bank in ON is awake, one in RETAIN is in
retention, and one in AUTO keeps its state; a write that asks OFF for one bank which holds an allocated page leaves that
bank's field and sets BANKERR, and the other banks' fields take effect (R55, R56).  BANK_RETENTION_ENTRY puts an AUTO
bank, and no other, into retention (R55). -/
def Obligations.CstBanksFollowTheirModes : Prop :=
  ∀ (s : State) (ini : Init) (v : Word), s.fabric = true →
    ((∀ k, k < 16 → bits v.toNat (2 * k + 1) (2 * k) ≠ 3) → Does (.cstbankWrite ini v) s fun t =>
      t.rd F.PMU_CSTBANK_MODE = v.toNat ∧
      (∀ k, k < 16 → bitOf (t.rd F.PMU_CSTSTAT_AWAKE) k = (bits v.toNat (2 * k + 1) (2 * k) == 0 ||
        (bits v.toNat (2 * k + 1) (2 * k) == 1 && bitOf (s.rd F.PMU_CSTSTAT_AWAKE) k))) ∧
      OnlyCells s t [(F.PMU_CSTBANK_MODE, 0), (F.PMU_CSTSTAT_AWAKE, 0)]) ∧
    (∀ b, b < 16 → bankAllocated s b = true → bankMode s b ≠ 3 →
      (∀ k, k < 16 → (bits v.toNat (2 * k + 1) (2 * k) = 3 ↔ k = b)) → Does (.cstbankWrite ini v) s fun t =>
        t.rd F.PMU_CSTSTAT_BANKERR = 1 ∧ bankMode t b = bankMode s b ∧
        (∀ k, k < 16 → k ≠ b → bankMode t k = bits v.toNat (2 * k + 1) (2 * k)) ∧ t.mem = s.mem) ∧
    ∀ b : Fin 16, (bankMode s b.val = 1 → Does (.bankRetentionEntry b) s fun t =>
        (∀ k, bitOf (t.rd F.PMU_CSTSTAT_AWAKE) k = (bitOf (s.rd F.PMU_CSTSTAT_AWAKE) k && k != b.val)) ∧
        OnlyCells s t [(F.PMU_CSTSTAT_AWAKE, 0)]) ∧
      (bankMode s b.val ≠ 1 → exec (.bankRetentionEntry b) s = .next s)

/-- TEMP_CONVERSION where the sensors run stores the reading and shows the hottest sensor; with no threshold in force
before, THWARN and THROT are raised as their thresholds are reached, and THROT throttles the clusters (R54, R66); in
RESET and WATCH no reading changes (R66).  THERMCFG_WRITE leaves a THROT or CRIT above its fuse value unchanged (R67).

Adaptive voltage scaling while it is active: a margin below MARGIN raises VDD by one step, or at VMAX sets ATMAX and
throttles; one 20 ps or more above MARGIN lowers VDD by one step, not below VMIN (R60, R61); a PMBus failure freezes AVS
and sets PMBFAIL (R61); the step a Dawn sequence raised is released once (R60).  While AVS is frozen or off the setpoint
stays.  A write of PMU_PMBCMD stores the transaction and, with GO, begins it; its end clears GO, reports an error and
returns a read's one or two bytes (R60).  An idle supervisor core halves its clock, down to SVCMAXDIV (R46). -/
def Obligations.TemperatureVoltageAndPmbus : Prop :=
  ((∀ (s : State) (k : Fin 16) (x : BitVec 12), s.mode = mRESET ∨ s.mode = mWATCH → exec (.tempConversion k x) s = .next s) ∧
  (∀ (s : State) (k : Fin 16) (x : BitVec 12), s.serving = true → (∀ j, j < 16 → j ≠ k.val → s.rd F.PMU_TEMP_VALID j = 0) →
    s.rd I.thWarn = 0 → s.rd I.thThrot = 0 → s.rd I.thCrit = 0 → s.rd I.throtSrc = 0 →
    let at' := fun (f : Fld) => 8 * signedOf 8 (s.rd f) ≤ x.toInt
    ¬ at' F.PMU_THERMCFG_CRIT → Does (.tempConversion k x) s fun t =>
      t.rd F.PMU_TEMP_TEMP k.val = x.toNat ∧ t.rd F.PMU_TEMP_VALID k.val = 1 ∧ t.rd F.PMU_THERMSTAT_HOTTEST = k.val ∧
      t.rd F.PMU_THERMSTAT_TMAX = x.toNat ∧
      (at' F.PMU_THERMCFG_WARN → t.rd F.PMU_IRQSTAT_THWARN = 1) ∧
      (¬ at' F.PMU_THERMCFG_WARN → t.rd F.PMU_IRQSTAT_THWARN = s.rd F.PMU_IRQSTAT_THWARN) ∧
      (at' F.PMU_THERMCFG_THROT → t.rd F.PMU_IRQSTAT_THROT = 1 ∧ t.rd F.PMU_THERMSTAT_THROTTLING = 1) ∧
      (¬ at' F.PMU_THERMCFG_THROT → t.rd F.PMU_IRQSTAT_THROT = s.rd F.PMU_IRQSTAT_THROT ∧ t.rd F.PMU_THERMSTAT_THROTTLING = 0) ∧
      OnlyCells s t [(F.PMU_TEMP_TEMP, k.val), (F.PMU_TEMP_VALID, k.val), (F.PMU_THERMSTAT_HOTTEST, 0), (F.PMU_THERMSTAT_TMAX, 0),
        (F.PMU_IRQSTAT_THWARN, 0), (F.PMU_IRQSTAT_THROT, 0), (I.thWarn, 0), (I.thThrot, 0), (I.thCrit, 0), (I.throtSrc, 0),
        (F.PMU_THERMSTAT_THROTTLING, 0)]) ∧
  ∀ (s : State) (ini : Init) (v : Word), s.fabric = true →
    let tight := fun (new fuse : Nat) => signedOf 8 new ≤ signedOf 8 fuse
    let fuse := s.rd F.FUS_SHADOW_WORD 68
    Does (.thermcfgWrite ini v) s fun t =>
      t.rd F.PMU_THERMCFG_WARN = bits v.toNat 15 8 ∧ t.rd F.PMU_THERMCFG_HYST = bits v.toNat 3 0 ∧
      t.rd F.PMU_THERMCFG_THROT = (if tight (bits v.toNat 23 16) (bits fuse 15 8) then bits v.toNat 23 16 else s.rd F.PMU_THERMCFG_THROT) ∧
      t.rd F.PMU_THERMCFG_CRIT = (if tight (bits v.toNat 31 24) (bits fuse 23 16) then bits v.toNat 31 24 else s.rd F.PMU_THERMCFG_CRIT) ∧
      OnlyCells s t [(F.PMU_THERMCFG_WARN, 0), (F.PMU_THERMCFG_HYST, 0), (F.PMU_THERMCFG_THROT, 0), (F.PMU_THERMCFG_CRIT, 0)]) ∧
  (∀ s : State, s.fabric = true →
    (avsActive s = true →
      (∀ m : BitVec 8, m.toInt < (s.rd F.PMU_AVSCFG_MARGIN : Int) →
        (s.rd I.vddCode < s.rd F.PMU_AVSCFG_VMAX → Puts (.avsMarginLow m) s
          [(F.PMU_AVSSTAT_LEASTMARGIN, 0, m.toNat), (I.vddCode, 0, s.rd I.vddCode + 1), (F.PMU_AVSSTAT_SETCODE, 0, s.rd I.vddCode + 1)]) ∧
        (s.rd F.PMU_AVSCFG_VMAX ≤ s.rd I.vddCode → Does (.avsMarginLow m) s fun t =>
          t.rd F.PMU_AVSSTAT_ATMAX = 1 ∧ bitOf (t.rd I.throtSrc) 1 = true ∧ t.rd F.PMU_THERMSTAT_THROTTLING = 1 ∧
          t.rd I.vddCode = s.rd I.vddCode ∧ OnlyCells s t [(F.PMU_AVSSTAT_LEASTMARGIN, 0), (F.PMU_AVSSTAT_ATMAX, 0),
            (F.PMU_IRQSTAT_ATMAX, 0), (I.throtSrc, 0), (F.PMU_THERMSTAT_THROTTLING, 0)])) ∧
      (∀ m : BitVec 8, (s.rd F.PMU_AVSCFG_MARGIN : Int) + 20 ≤ m.toInt → Does (.avsLower m) s fun t =>
        t.rd I.vddCode = (if s.rd F.PMU_AVSCFG_VMIN < s.rd I.vddCode then s.rd I.vddCode - 1 else s.rd I.vddCode) ∧
        t.rd F.PMU_AVSSTAT_ATMAX = 0 ∧ OnlyCells s t [(F.PMU_AVSSTAT_LEASTMARGIN, 0), (F.PMU_AVSSTAT_ATMAX, 0),
          (I.throtSrc, 0), (F.PMU_THERMSTAT_THROTTLING, 0), (I.vddCode, 0), (F.PMU_AVSSTAT_SETCODE, 0)]) ∧
      Puts .avsPmbfail s [(F.PMU_AVSSTAT_FROZEN, 0, 1), (F.PMU_AVSSTAT_PMBFAIL, 0, 1), (F.PMU_IRQSTAT_PMBFAIL, 0, 1)]) ∧
    (avsActive s = false → exec .avsPmbfail s = .next s ∧ ∀ m : BitVec 8,
      Puts (.avsMarginLow m) s [(F.PMU_AVSSTAT_LEASTMARGIN, 0, m.toNat)] ∧ Puts (.avsLower m) s [(F.PMU_AVSSTAT_LEASTMARGIN, 0, m.toNat)]) ∧
    (∀ c : Fin 8, s.rd I.cluAvs c.val = 1 → cluSt s c.val = clRUN → s.rd F.CLU_STAT_DAWN c.val = 0 →
      Does (.avsDawnStepRelease c) s fun t => t.rd I.cluAvs c.val = 0 ∧
        t.rd I.vddCode = (if s.rd F.PMU_AVSCFG_VMIN < s.rd I.vddCode then s.rd I.vddCode - 1 else s.rd I.vddCode) ∧
        OnlyCells s t [(I.cluAvs, c.val), (I.vddCode, 0), (F.PMU_AVSSTAT_SETCODE, 0)]) ∧
    (∀ (ini : Init) (v : Word), Puts (.pmbusTransaction ini v) s ([(F.PMU_PMBCMD_RD, 0, bitN v.toNat 29),
      (F.PMU_PMBCMD_WORD, 0, bitN v.toNat 28), (F.PMU_PMBCMD_ADDR, 0, bits v.toNat 22 16), (F.PMU_PMBCMD_CMD, 0, bits v.toNat 15 8)] ++
        if 2 ^ 31 ≤ v.toNat then [(F.PMU_PMBCMD_GO, 0, 1)] else [])) ∧
    (∀ (d : BitVec 16) (err : Bool), (s.rd F.PMU_PMBCMD_GO = 0 → exec (.pmbusTransactionDone d err) s = .next s) ∧
      (s.rd F.PMU_PMBCMD_GO = 1 → Puts (.pmbusTransactionDone d err) s ([(F.PMU_PMBCMD_GO, 0, 0), (F.PMU_PMBCMD_ERR, 0, b2n err)] ++
        if s.rd F.PMU_PMBCMD_RD = 1 ∧ err = false then
          [(F.PMU_PMBDATA_DATA, 0, if s.rd F.PMU_PMBCMD_WORD = 1 then d.toNat else d.toNat % 256)] else []))) ∧
    ∀ n : Fin 4, (s.rd I.svcDiv n.val < s.rd F.PMU_CLK_SVCMAXDIV → Puts (.svcIdleSlow n) s [(I.svcDiv, n.val, s.rd I.svcDiv n.val + 1)]) ∧
      (s.rd F.PMU_CLK_SVCMAXDIV ≤ s.rd I.svcDiv n.val → exec (.svcIdleSlow n) s = .next s))

/-! ## Irhiqua: arithmetic, logic and moves (chapter 5)

Each statement is about the bundle of one syllable of a core that is ready: a signal core with a job, or a supervisor
core, at a bundle boundary with nothing in flight.  `Issued` is its frame: the PC at the next syllable, the listed
registers at their new values from the next bundle on or as results in flight, and nothing else. -/

/-- The value written for an exact sum or difference (R161): 16-bit operation fits under MODE.SAT, 32-bit wraps. -/
def Sys2Proof.Safety.writtenSum (s : State) (b : Nat) (sz : Bool) (x : Int) : Nat :=
  if sz then ofInt 32 x else ofInt 16 (fitVal (bitOf (s.rd I.cmode b) 11) x 16)

/-- ADD, ADDI, SUB, NEG, ABS, CMP and CMPI: the exact result, fitted at 16 bits and wrapped at 32; Z, N from it modulo the
size, C the carry or no borrow, V the signed overflow whether or not the value saturates; ABS leaves C; CMP and CMPI
write no register (R161, R162).

AND, OR, XOR and shifts, with a register or an immediate: the result, Z and N from it, V = 0; the bitwise ones leave C,
and a shift puts the last bit shifted out into C, 0 for a count of 0; a shift takes its count modulo the size
(R159, R162). -/
def Obligations.SumsLogicAndShiftsSetTheFlags : Prop :=
  (∀ (s : State) (c : Fin 68) (sz : Bool) (rd ra rb : BitVec 5) (imm : BitVec 12), CoreReady s c.val →
    let b := rbank s c.val
    let n := szBits sz
    let x := readSz s b sz ra.toNat
    let y := readSz s b sz rb.toNat
    let k := immSz sz imm
    let dst := szCells s b sz rd.toNat
    let sumFlags := fun (x y : Nat) => [b2n (ofInt n (signedOf n x + signedOf n y) == 0),
      bitN (ofInt n (signedOf n x + signedOf n y)) (n - 1), b2n (decide (2 ^ n ≤ x + y)), b2n (!fitsS n (signedOf n x + signedOf n y))]
    let difFlags := fun (x y : Nat) => [b2n (ofInt n (signedOf n x - signedOf n y) == 0),
      bitN (ofInt n (signedOf n x - signedOf n y)) (n - 1), b2n (decide (y ≤ x)), b2n (!fitsS n (signedOf n x - signedOf n y))]
    let sum := fun (x y : Nat) (t : State) => Issued s t c.val (dst ++ flagCells b) [] ∧
      readSz t b sz rd.toNat = writtenSum s b sz (signedOf n x + signedOf n y) ∧ flagsOf t b = sumFlags x y
    let dif := fun (x y : Nat) (t : State) => Issued s t c.val (dst ++ flagCells b) [] ∧
      readSz t b sz rd.toNat = writtenSum s b sz (signedOf n x - signedOf n y) ∧ flagsOf t b = difFlags x y
    let only := fun (x y : Nat) (t : State) => Issued s t c.val (flagCells b) [] ∧ flagsOf t b = difFlags x y
    Does (.add c true sz rd ra rb) s (sum x y) ∧ Does (.addi c true sz rd ra imm) s (sum x k) ∧
    Does (.sub c true sz rd ra rb) s (dif x y) ∧ Does (.neg c true sz rd ra) s (dif 0 x) ∧
    Does (.cmp c true sz ra rb) s (only x y) ∧ Does (.cmpi c true sz ra imm) s (only x k) ∧
    Does (.abs c true sz rd ra) s fun t =>
      Issued s t c.val (dst ++ [(I.flZ, b), (I.flN, b), (I.flV, b)]) [] ∧
      readSz t b sz rd.toNat = writtenSum s b sz |signedOf n x| ∧
      flagsOf t b = [b2n (ofInt n |signedOf n x| == 0), bitN (ofInt n |signedOf n x|) (n - 1), s.rd I.flC b,
        b2n (!fitsS n |signedOf n x|)]) ∧
  (∀ (s : State) (c : Fin 68) (sz : Bool) (rd ra rb : BitVec 5) (imm : BitVec 12), CoreReady s c.val →
    let b := rbank s c.val
    let n := szBits sz
    let x := readSz s b sz ra.toNat
    let y := readSz s b sz rb.toNat
    let dst := szCells s b sz rd.toNat
    let logic := fun (r : Nat) (t : State) => Issued s t c.val (dst ++ [(I.flZ, b), (I.flN, b), (I.flV, b)]) [] ∧
      readSz t b sz rd.toNat = r ∧ flagsOf t b = [b2n (r == 0), bitN r (n - 1), s.rd I.flC b, 0]
    let shift := fun (r last : Nat) (t : State) => Issued s t c.val (dst ++ flagCells b) [] ∧
      readSz t b sz rd.toNat = r ∧ flagsOf t b = [b2n (r == 0), bitN r (n - 1), last, 0]
    let right := fun k : Nat => if k = 0 then 0 else bitN x (k - 1)
    let left := fun k : Nat => if k = 0 then 0 else bitN x (n - k)
    let a := fun k : Nat => ofInt n (signedOf n x / 2 ^ k)
    let j := y % n
    let i := imm.toNat % n
    Does (.and c true sz rd ra rb) s (logic (Nat.land x y)) ∧ Does (.andi c true sz rd ra imm) s (logic (Nat.land x (immSz sz imm))) ∧
    Does (.or c true sz rd ra rb) s (logic (Nat.lor x y)) ∧ Does (.ori c true sz rd ra imm) s (logic (Nat.lor x (immSz sz imm))) ∧
    Does (.xor c true sz rd ra rb) s (logic (Nat.xor x y)) ∧ Does (.xori c true sz rd ra imm) s (logic (Nat.xor x (immSz sz imm))) ∧
    Does (.asr c true sz rd ra rb) s (shift (a j) (right j)) ∧ Does (.asri c true sz rd ra imm) s (shift (a i) (right i)) ∧
    Does (.lsr c true sz rd ra rb) s (shift (x / 2 ^ j) (right j)) ∧ Does (.lsri c true sz rd ra imm) s (shift (x / 2 ^ i) (right i)) ∧
    Does (.lsl c true sz rd ra rb) s (shift (x * 2 ^ j % 2 ^ n) (left j)) ∧
    Does (.lsli c true sz rd ra imm) s (shift (x * 2 ^ i % 2 ^ n) (left i)))

/-- MIN, MAX, MULI and NORM set Z and N from their result alone; RND rounds a word by 16 bits and sets V from the fit; EXP
writes the count of redundant sign bits and sets no flag (R162, R168, R169). -/
def Obligations.SelectionsAndNormalisation : Prop :=
  ∀ (s : State) (c : Fin 68) (sz : Bool) (rd ra rb : BitVec 5), CoreReady s c.val →
    let b := rbank s c.val
    let n := szBits sz
    let x := readSz s b sz ra.toNat
    let y := readSz s b sz rb.toNat
    let zn := fun (sz : Bool) (r : Nat) (t : State) =>
      Issued s t c.val (szCells s b sz rd.toNat ++ [(I.flZ, b), (I.flN, b)]) [] ∧ readSz t b sz rd.toNat = r ∧
      flagsOf t b = [b2n (r == 0), bitN r (szBits sz - 1), s.rd I.flC b, s.rd I.flV b]
    Does (.min c true sz rd ra rb) s (zn sz (if signedOf n x ≤ signedOf n y then x else y)) ∧
    Does (.max c true sz rd ra rb) s (zn sz (if signedOf n x ≤ signedOf n y then y else x)) ∧
    Does (.muli c true rd ra rb) s
      (zn true (ofInt 32 (signedOf 16 (readD s b ra.toNat) * signedOf 16 (readD s b rb.toNat)))) ∧
    Does (.norm c true sz rd ra) s (zn sz (x * 2 ^ redundant n x % 2 ^ n)) ∧
    (let q := roundShift (bitOf (s.rd I.cmode b) 10) (signedOf 32 (readWord s b ra.toNat)) 16
     let r := ofInt 16 (fitVal (bitOf (s.rd I.cmode b) 11) q 16)
     Does (.rnd c true rd ra) s fun t => Issued s t c.val [dCell s b rd.toNat, (I.flZ, b), (I.flN, b), (I.flV, b)] [] ∧
       readD t b rd.toNat = r ∧ flagsOf t b = [b2n (r == 0), bitN r 15, s.rd I.flC b, b2n (!fitsS 16 q)]) ∧
    Does (.exp c true sz rd ra) s fun t => Issued s t c.val [dCell s b rd.toNat] [] ∧ readD t b rd.toNat = redundant n x

/-- The control registers that software can write on core c with bank b: number, writable bits, cells (R103, R133). -/
def Sys2Proof.Safety.writableCrs (c b : Nat) : List (Nat × Nat × List (Fld × Nat)) :=
  [(0, 0x9C0F, [(I.cmode, b)]), (1, 0xFF0F, (I.acov, b) :: flagCells b), (2, 0xF, [(I.rrb, b)]), (16, 0xFFFF, [(I.lc, 2 * b)]),
   (17, 0xFFFF, [(I.lc, 2 * b + 1)]), (18, 0xFFFFFFFF, [(I.ls, 2 * b)]), (19, 0xFFFFFFFF, [(I.ls, 2 * b + 1)]),
   (20, 0xFFFFFFFF, [(I.le, 2 * b)]), (21, 0xFFFFFFFF, [(I.le, 2 * b + 1)])] ++
  if c < 64 then
    [(5, 0xFFFFFFFF, [(I.trapv, b)]), (6, 0xFFFFFFFF, [(I.trpc, b)]), (7, 0xC0000F0F, [(I.tcause, b)]),
     (8, 0xFFFFFFFF, [(I.taddr, b)]), (9, 0x3F, [(I.tds, b)]), (10, 0xFFFFFFFF, [(I.tbtgt, b)])]
  else (List.range 13).map fun k => (32 + k, (if k = 0 ∨ k = 6 then 0xE3 else if k = 1 then 0xFFFFF000 else
    if k = 4 then 0xC0000F0F else if k = 7 then 0x3F else 0xFFFFFFFF), [(I.scr, 16 * (c - 64) + k)])

/-- Constants and moves: MOVI.H, MOVI.W, MOVHI and MOVR write their register alone (R163, R164); MOVC reads a control
register, and writes the writable bits of one from the second bundle on (R103, R165), the numbers of the supervisor in
supervisor privilege (R144); NOP and an empty L syllable do nothing (R157, R162). -/
def Obligations.ConstantsMovesAndControlRegisters : Prop :=
  ∀ (s : State) (c : Fin 68), CoreReady s c.val →
    let b := rbank s c.val
    (∀ (rd : BitVec 5) (imm : BitVec 16),
      Does (.moviH c true rd imm) s (fun t => Issued s t c.val [dCell s b rd.toNat] [] ∧ readD t b rd.toNat = imm.toNat) ∧
      Does (.moviW c true rd imm) s (fun t => Issued s t c.val (wordCells s b rd.toNat) [] ∧
        readWord t b rd.toNat = ofInt 32 imm.toInt) ∧
      Does (.movhi c true rd imm) s fun t => Issued s t c.val (wordCells s b rd.toNat) [] ∧
        readWord t b rd.toNat = imm.toNat * 2 ^ 16 + readWord s b rd.toNat % 2 ^ 16) ∧
    (∀ xd xs : BitVec 6, xd.toNat < 56 → xs.toNat < 56 → Does (.movr c true xd xs) s fun t =>
      Issued s t c.val (extCells s b xd.toNat) [] ∧ readExt t b xd.toNat = readExt s b xs.toNat) ∧
    (∀ (cr : BitVec 6) (rw : BitVec 5), crLegal (decide (64 ≤ c.val)) cr.toNat = true →
      (cr.toNat < 32 ∨ bitOf (s.rd I.scr (16 * (c.val - 64))) 0 = true) →
        Does (.movcRead c true cr rw) s (fun t => Issued s t c.val (wordCells s b rw.toNat) [] ∧
          readWord t b rw.toNat = readCr s c.val cr.toNat) ∧
        (∀ e ∈ writableCrs c.val b, e.1 = cr.toNat → Does (.movcWrite c true cr rw) s fun t =>
          Issued s t c.val [] e.2.2 ∧ readCr (settled t c.val) c.val cr.toNat = Nat.land (readWord s b rw.toNat) e.2.1) ∧
        ((∀ e ∈ writableCrs c.val b, e.1 ≠ cr.toNat) → Does (.movcWrite c true cr rw) s fun t => Issued s t c.val [] [])) ∧
    ∀ inL : Bool, Does (.nop c true inL) s fun t => Issued s t c.val [] []

/-! ## Accumulators (chapter 5) -/

/-- What acc_write stores in an accumulator half (R101): 40 bits, saturated under MODE.SATACC. -/
def Sys2Proof.Safety.accStored (s : State) (b : Nat) (x : Int) : Nat :=
  ofInt 40 (if bitOf (s.rd I.cmode b) 12 then clampS 40 x else x)

/-- ACOV records for accumulator n that one of the exact values does not fit 40 bits, and keeps every other bit (R150). -/
def Sys2Proof.Safety.ovNoted (s t : State) (b n : Nat) (xs : List Int) : Prop :=
  ∀ k, k < 8 → bitOf (t.rd I.acov b) k = (bitOf (s.rd I.acov b) k || (k == n && xs.any fun x => !fitsS 40 x))

/-- CMAC, MAC, QMAC and their families: the exact products are added to, subtracted from or replace each half of the
accumulator they write, stored as acc_write gives, and ACOV, visible two bundles later, is the only flag that changes
(R101, R147, R148, R149, R150).  The ARITH trap is off, and Z and quad operands have legal numbers (R143). -/
def Obligations.MultipliesAccumulateExactly : Prop :=
  ∀ (s : State) (c : Fin 68) (acc : BitVec 2) (d : BitVec 3) (ra rb : BitVec 5), CoreReady s c.val →
    let b := rbank s c.val
    let ac := fun h : Nat => 16 * b + 2 * d.toNat + h
    let x := fun k => signedOf 16 (readD s b (ra.toNat + k))
    let y := fun k => signedOf 16 (readD s b (rb.toNat + k))
    let combined := fun (h : Nat) (p : Int) =>
      let o := signedOf 40 (s.rd I.ac (ac h))
      if acc = 0 then o + p else if acc = 1 then o - p else if acc = 2 then p else -p
    let both := fun (p q : Int) (t : State) => Issued s t c.val [(I.ac, ac 0), (I.ac, ac 1)] [(I.acov, b)] ∧
      t.rd I.ac (ac 0) = accStored s b (combined 0 p) ∧ t.rd I.ac (ac 1) = accStored s b (combined 1 q) ∧
      ovNoted s (settled t c.val) b d.toNat [combined 0 p, combined 1 q]
    bitOf (s.rd I.cmode b) 15 = false →
      (ra.toNat % 2 = 0 → rb.toNat % 2 = 0 → ∀ cja cjb : Bool,
        let xi := if cja then -x 1 else x 1
        let yi := if cjb then -y 1 else y 1
        Does (.cmac c true acc d ra rb cja cjb) s (both (x 0 * y 0 - xi * yi) (x 0 * yi + xi * y 0))) ∧
      (∀ h : Bool, Does (.mac c true acc d ra rb h) s fun t =>
        Issued s t c.val [(I.ac, ac (b2n h))] [(I.acov, b)] ∧
        t.rd I.ac (ac (b2n h)) = accStored s b (combined (b2n h) (x 0 * y 0)) ∧
        ovNoted s (settled t c.val) b d.toNat [combined (b2n h) (x 0 * y 0)]) ∧
      (ra.toNat % 4 = 0 → rb.toNat % 4 = 0 →
        Does (.qmac c true acc d ra rb) s (both (x 0 * y 0 + x 1 * y 1) (x 2 * y 2 + x 3 * y 3)))

/-- The accumulator operations act on both halves (R152), and the butterfly writes its four results from the operands read
at issue, two bundles later, and changes no flag and no accumulator (R151). -/
def Obligations.AccumulatorOperationsAndButterfly : Prop :=
  ∀ (s : State) (c : Fin 68), CoreReady s c.val →
    let b := rbank s c.val
    (∀ d a : BitVec 3, bitOf (s.rd I.cmode b) 15 = false →
      let old := fun (n : BitVec 3) (h : Nat) => signedOf 40 (s.rd I.ac (16 * b + 2 * n.toNat + h))
      let halves := fun (f : Nat → Int) (t : State) =>
        Issued s t c.val [(I.ac, 16 * b + 2 * d.toNat), (I.ac, 16 * b + 2 * d.toNat + 1)] [(I.acov, b)] ∧
        (∀ h, h < 2 → t.rd I.ac (16 * b + 2 * d.toNat + h) = accStored s b (f h)) ∧
        ovNoted s (settled t c.val) b d.toNat [f 0, f 1]
      Does (.acclr c true d) s (halves fun _ => 0) ∧ Does (.acmov c true d a) s (halves (old a)) ∧
      Does (.acadd c true d a) s (halves fun h => old d h + old a h) ∧
      Does (.acsub c true d a) s (halves fun h => old d h - old a h) ∧
      Does (.acneg c true d a) s (halves fun h => -old a h) ∧
      ∀ sh : BitVec 5, Does (.acsha c true d sh) s (halves fun h =>
        if 0 ≤ sh.toInt then old d h * 2 ^ sh.toInt.toNat else old d h / 2 ^ (-sh.toInt).toNat)) ∧
    ∀ (ra rb rc : BitVec 5) (sc cjw : Bool), ra.toNat % 2 = 0 → rb.toNat % 2 = 0 → rc.toNat % 2 = 0 → ra ≠ rb →
      let x := fun k => signedOf 16 (readD s b k)
      let wr := x rc.toNat
      let wi := if cjw then -x (rc.toNat + 1) else x (rc.toNat + 1)
      let tre := x rb.toNat * wr - x (rb.toNat + 1) * wi
      let tim := x rb.toNat * wi + x (rb.toNat + 1) * wr
      let r := fun (v t : Int) => ofInt 16 (fitVal (bitOf (s.rd I.cmode b) 11)
        (roundShift (bitOf (s.rd I.cmode b) 10) (v * 32768 + t) (15 + b2n sc)) 16)
      Does (.bfly c true ra rb rc sc cjw) s fun t =>
        Issued s t c.val [] ([ra.toNat, ra.toNat + 1, rb.toNat, rb.toNat + 1].map (dCell s b)) ∧
        readD (settled t c.val) b ra.toNat = r (x ra.toNat) tre ∧ readD (settled t c.val) b (ra.toNat + 1) = r (x (ra.toNat + 1)) tim ∧
        readD (settled t c.val) b rb.toNat = r (x ra.toNat) (-tre) ∧
        readD (settled t c.val) b (rb.toNat + 1) = r (x (ra.toNat + 1)) (-tim)

/-- MOVA moves an accumulator half out through rounding, MODE.MSH and fitting, and sets V (R166); MOVAR and MOVTA move raw
bits and set no flag (R167); EXPA writes the redundant sign bits minus 8 (R170).  All results are visible two bundles
later. -/
def Obligations.AccumulatorsMoveThroughRoundingAndFit : Prop :=
  ∀ (s : State) (c : Fin 68) (rd : BitVec 5) (n : BitVec 3), CoreReady s c.val →
    let b := rbank s c.val
    let ac := fun h : Bool => s.rd I.ac (16 * b + 2 * n.toNat + b2n h)
    let msh := signedOf 4 (bits (s.rd I.cmode b) 3 0)
    let q := fun (h : Bool) (k : Int) => roundShift (bitOf (s.rd I.cmode b) 10) (signedOf 40 (ac h)) k
    let fitted := fun (m : Nat) (v : Int) => ofInt m (fitVal (bitOf (s.rd I.cmode b) 11) v m)
    let fin' := fun t : State => settled t c.val
    (∀ h : Bool,
      Does (.mova c true rd n h 0) s (fun t => Issued s t c.val [] [dCell s b rd.toNat, (I.flV, b)] ∧
        readD (fin' t) b rd.toNat = fitted 16 (q h (15 - msh)) ∧ (fin' t).rd I.flV b = b2n (!fitsS 16 (q h (15 - msh)))) ∧
      Does (.mova c true rd n h 1) s (fun t => Issued s t c.val [] (wordCells s b rd.toNat ++ [(I.flV, b)]) ∧
        readWord (fin' t) b rd.toNat = fitted 32 (q h (-1 - msh)) ∧ (fin' t).rd I.flV b = b2n (!fitsS 32 (q h (-1 - msh)))) ∧
      Does (.movar c true rd n h 0) s (fun t => Issued s t c.val [] (wordCells s b rd.toNat) ∧
        readWord (fin' t) b rd.toNat = ac h % 2 ^ 32) ∧
      Does (.movar c true rd n h 1) s (fun t => Issued s t c.val [] [dCell s b rd.toNat] ∧
        readD (fin' t) b rd.toNat = ofInt 16 (signedOf 8 (ac h / 2 ^ 32))) ∧
      Does (.movta c true rd n h 0) s (fun t => Issued s t c.val [] [(I.ac, 16 * b + 2 * n.toNat + b2n h)] ∧
        (fin' t).rd I.ac (16 * b + 2 * n.toNat + b2n h) = ofInt 40 (signedOf 32 (readWord s b rd.toNat))) ∧
      Does (.movta c true rd n h 1) s (fun t => Issued s t c.val [] [(I.ac, 16 * b + 2 * n.toNat + b2n h)] ∧
        (fin' t).rd I.ac (16 * b + 2 * n.toNat + b2n h) = readD s b rd.toNat % 256 * 2 ^ 32 + ac h % 2 ^ 32) ∧
      Does (.expa c true rd n h) s fun t => Issued s t c.val [] [dCell s b rd.toNat] ∧
        readD (fin' t) b rd.toNat = ofInt 16 ((redundant 40 (ac h) : Int) - 8)) ∧
    (rd.toNat % 2 = 0 → Does (.mova c true rd n false 2) s fun t =>
      Issued s t c.val [] [dCell s b rd.toNat, dCell s b (rd.toNat + 1), (I.flV, b)] ∧
      readD (fin' t) b rd.toNat = fitted 16 (q false (15 - msh)) ∧ readD (fin' t) b (rd.toNat + 1) = fitted 16 (q true (15 - msh)) ∧
      (fin' t).rd I.flV b = b2n (!fitsS 16 (q false (15 - msh)) || !fitsS 16 (q true (15 - msh))))

/-! ## Memory accesses (chapters 4 and 5) -/

/-- LD.H, LD.W, LD.L, ST.H, ST.W and ST.L of either port in a mode the port has, aligned and mapped: the access goes to the
address that the addressing gives, a load's data are in its D registers three bundles later, lowest address first, and
the pointer has its new value at once (R153, R154, R155, R157).  In the context view of a signal core's job a load reads
the staged page and changes no memory, and a store changes the bytes of its own size there and no other.  MOD updates
the pointer alone (R153).  An access takes effect as its bundle issues (the model's choice, log entry 32). -/
def Obligations.LoadsAndStoresMoveTheirBytes : Prop :=
  ∀ (s : State) (c : Fin 68) (port : Bool) (mode : LMode) (reg : BitVec 5) (ptr : BitVec 3), CoreReady s c.val →
    let b := rbank s c.val
    let p := (I.p, 16 * b + ptrOf port ptr.toNat)
    let at' := fun n : Nat => addressing s b port mode ptr.toNat (2 * n) false
    let moved := fun n : Nat => if (at' n).after.isSome then [p] else []
    let pointed := fun (n : Nat) (t : State) => ∀ v, (at' n).after = some v → t.rd p.1 p.2 = v % 2 ^ 32
    let legal := fun n : Nat => (at' n).illegal = false ∧ (at' n).badLen = false ∧ reg.toNat % n = 0
    let ld := fun (i : Instr) (n : Nat) => legal n →
      meetOf (fetched s c.val) c.val (.load (portSlot port) (2 * n) (at' n).addr (dCells s b reg.toNat n)) = .ok →
      let u := coreRead (begun s c.val) c.val (at' n).addr (2 * n)
      KeepsCore s u.2 c.val → Does i s fun t => IssuedAfter s u.2 t c.val (moved n) (dCells s b reg.toNat n) ∧ pointed n t ∧
        (∀ k, k < n → (settled t c.val).rd I.d (32 * b + physD s b (reg.toNat + k)) = u.1 / 2 ^ (16 * k) % 2 ^ 16) ∧
        (∀ f, c.val < 64 → (at' n).addr < 0x10000 → viewFrame s c.val (at' n).addr = some f →
          u.1 = s.readLE (frameAddr f + (at' n).addr % 4096) (2 * n) ∧ t.mem = s.mem)
    let st := fun (i : Instr) (n : Nat) => legal n →
      let v := dValue s b reg.toNat n
      meetOf (fetched s c.val) c.val (.store (portSlot port) (2 * n) (at' n).addr v) = .ok →
      let u := coreWrite (begun s c.val) c.val (at' n).addr (2 * n) v
      KeepsCore s u c.val → Does i s fun t => IssuedAfter s u t c.val (moved n) [] ∧ pointed n t ∧
        (∀ f, c.val < 64 → (at' n).addr < 0x10000 → viewFrame s c.val (at' n).addr = some f →
          let a := frameAddr f + (at' n).addr % 4096
          t.readLE a (2 * n) = v ∧ ∀ x, x < a ∨ a + 2 * n ≤ x → t.byte x = s.byte x)
    ld (.ldH c true .only port mode reg ptr) 1 ∧ ld (.ldW c true .only port mode reg ptr) 2 ∧
    ld (.ldL c true .only port mode reg ptr) 4 ∧ st (.stH c true .only port mode reg ptr) 1 ∧
    st (.stW c true .only port mode reg ptr) 2 ∧ st (.stL c true .only port mode reg ptr) 4 ∧
    ∀ v, v < 2 ^ 32 → addressing s b port mode ptr.toNat 0 true = ⟨readP s b (ptrOf port ptr.toNat), some v, false, false⟩ →
      Does (.mod c true .only port mode ptr) s fun t => Issued s t c.val [p] [] ∧ t.rd p.1 p.2 = v

/-! ## Branches and loops (chapters 4 and 5) -/

/-- BR, BRC, JL, JLR and JR begin two delay bundles with the target of R171; BRC is taken when its condition holds on the
flags (R172); JL and a linking JLR write the address of the third bundle after their own (R171).  A branch sets no flag. -/
def Obligations.BranchesTakeEffectAfterTwoDelayBundles : Prop :=
  ∀ (s : State) (c : Fin 68), CoreReady s c.val →
    let b := rbank s c.val
    let flow := [(I.dly, b), (I.btaken, b), (I.btgt, b)]
    let begins := fun (taken : Bool) (target : Int) (t : State) =>
      t.rd I.dly b = 2 ∧ t.rd I.btaken b = b2n taken ∧ t.rd I.btgt b = ofInt 32 target
    let third := (fun a => afterBundle s c.val a 4) ((fun a => afterBundle s c.val a 4) (pcOf s c.val + 4)) % 2 ^ 32
    let rel := fun off : Int => (pcOf s c.val : Int) + 4 * off
    (∀ off : BitVec 23, Does (.br c true off) s fun t => Issued s t c.val flow [] ∧ begins true (rel off.toInt) t) ∧
    (∀ (k : BitVec 4) (off : BitVec 19), k ≠ 15 →
      let z := s.rd I.flZ b == 1
      let n := s.rd I.flN b == 1
      let cy := s.rd I.flC b == 1
      let v := s.rd I.flV b == 1
      Does (.brc c true k off) s fun t => Issued s t c.val flow [] ∧
        begins (k == 14 || [z, n != v, z || n != v, cy, cy && !z, n, v].getD (k.toNat / 2) false != (k.toNat % 2 == 1))
          (rel off.toInt) t) ∧
    (∀ (pd : BitVec 4) (off : BitVec 19), Does (.jl c true pd off) s fun t =>
      Issued s t c.val (flow ++ [(I.p, 16 * b + pd.toNat)]) [] ∧ begins true (rel off.toInt) t ∧
      t.rd I.p (16 * b + pd.toNat) = third) ∧
    ∀ pd ps : BitVec 4, readP s b ps.toNat % 4 = 0 →
      Does (.jlr c true pd ps true) s (fun t => Issued s t c.val (flow ++ [(I.p, 16 * b + pd.toNat)]) [] ∧
        begins true (readP s b ps.toNat) t ∧ t.rd I.p (16 * b + pd.toNat) = third) ∧
      Does (.jlr c true 0 ps false) s fun t => Issued s t c.val flow [] ∧ begins true (readP s b ps.toNat) t

/-- LOOP and LOOPR take the first idle of the two levels: LS is the next bundle, LE the offset's address, LC the count;
a count of 0 goes on after the body and activates nothing; LOOPR marks the level for rotation (R120, R122, R173).  At
the body's end of an only level a count above 1 goes back to LS, lowers LC and, under LOOPR, RRB by one; a count of 1
ends the level and falls through (R120, R122).  At the end of the second delay bundle a taken branch reaches its
target (R116). -/
def Obligations.LoopsCountTheirBodies : Prop :=
  ∀ (s : State) (c : Fin 68), CoreAwake s c.val →
    let b := rbank s c.val
    let pc := pcOf s c.val
    let lev := if bitOf (s.rd I.act b) 0 then 1 else 0
    let k := 2 * b + lev
    let begins := fun (rot : Bool) (n : Nat) (off : BitVec 12) (t : State) =>
      let le := (pc + 4 * off.toNat) % 2 ^ 32
      Framed s t c.val [(I.ls, k), (I.le, k), (I.lc, k), (I.act, b), (I.rot, b)] [] ∧
        t.rd I.ls k = (pc + 4) % 2 ^ 32 ∧ t.rd I.le k = le ∧ t.rd I.lc k = n ∧
        if n = 0 then pcOf t c.val = afterBundle t c.val le 4 % 2 ^ 32 ∧ t.rd I.act b = s.rd I.act b ∧ t.rd I.rot b = s.rd I.rot b
        else pcOf t c.val = (pc + 4) % 2 ^ 32 ∧ t.rd I.act b = setBit (s.rd I.act b) lev ∧
          t.rd I.rot b = putBit (s.rd I.rot b) lev rot
    (s.rd I.dly b = 0 → s.rd I.act b ≠ 3 → atLoopEnd s b 0 = false → atLoopEnd s b 1 = false →
      ∀ off : BitVec 12, off ≠ 0 → (∀ n : BitVec 10,
        Does (.loop c true (.imm n) off) s (begins false n.toNat off) ∧ Does (.loopr c true (.imm n) off) s (begins true n.toNat off)) ∧
        ∀ r : BitVec 5, Does (.loop c true (.reg r) off) s (begins false (readD s b r.toNat) off) ∧
          Does (.loopr c true (.reg r) off) s (begins true (readD s b r.toNat) off)) ∧
    (s.rd I.dly b = 0 → s.rd I.act b = 1 → s.rd I.le (2 * b) = pc →
      (1 < s.rd I.lc (2 * b) → Does (.nop c true false) s fun t => pcOf t c.val = s.rd I.ls (2 * b) ∧
        t.rd I.lc (2 * b) = s.rd I.lc (2 * b) - 1 ∧ t.rd I.act b = 1 ∧
        t.rd I.rrb b = (if bitOf (s.rd I.rot b) 0 then (s.rd I.rrb b + 15) % 16 else s.rd I.rrb b)) ∧
      (s.rd I.lc (2 * b) = 1 → Does (.nop c true false) s fun t => pcOf t c.val = (pc + 4) % 2 ^ 32 ∧
        t.rd I.lc (2 * b) = 0 ∧ t.rd I.act b = 0 ∧
        t.rd I.rrb b = (if bitOf (s.rd I.rot b) 0 then (s.rd I.rrb b + 15) % 16 else s.rd I.rrb b))) ∧
    (s.rd I.act b = 0 → s.rd I.dly b = 1 → s.rd I.btaken b = 1 → Does (.nop c true false) s fun t =>
      pcOf t c.val = s.rd I.btgt b / 4 * 4 ∧ t.rd I.dly b = 0 ∧ t.rd I.btaken b = 0)

/-! ## Irhiqua: bundles, jobs, queues, traps and supervisor cores (chapters 4, 5 and 8) -/

/-- Syllables gather until the E bit ends their bundle (R110): a syllable without it only waits in the buffer; the next one
with it issues both, in one bundle whose operands were read before either result (R112), and the PC moves past both.
The ARITH trap is off. -/
def Obligations.SyllablesIssueAsOneBundle : Prop :=
  ∀ (s : State) (c : Fin 68) (acc : BitVec 2) (d : BitVec 3) (ra rb rd : BitVec 5) (h : Bool) (imm : BitVec 16),
    CoreReady s c.val → bitOf (s.rd I.cmode (rbank s c.val)) 15 = false →
    (fetchAddr (fetched s c.val) c.val (pcOf s c.val + 4)).isSome = true →
      let b := rbank s c.val
      let k := 16 * b + 2 * d.toNat + b2n h
      let old := signedOf 40 (s.rd I.ac k)
      let p := signedOf 16 (readD s b ra.toNat) * signedOf 16 (readD s b rb.toNat)
      let x := if acc = 0 then old + p else if acc = 1 then old - p else if acc = 2 then p else -p
      ∃ u, exec (.mac c false acc d ra rb h) s = .next u ∧ (bundleOf u c.val).n = 1 ∧
        u = { s with bundles := u.bundles, iLines := u.iLines, tlbs := u.tlbs, freeCtr := u.freeCtr } ∧
        Does (.moviH c true rd imm) u fun t => pcOf t c.val = (pcOf s c.val + 8) % 2 ^ 32 ∧ bundleOf t c.val = Bundle.empty ∧
          readD t b rd.toNat = imm.toNat ∧
          t.rd I.ac k = ofInt 40 (if bitOf (s.rd I.cmode b) 12 then clampS 40 x else x) ∧
          BundleFrame s t c.val [dCell s b rd.toNat, (I.ac, k)]

/-- The job instructions (R174): WAITJOB of an idle core blocks; ENDJOB of a job that is not late, holds no frame, and whose
task's condition does not hold ends the job and puts the task in WAIT (R204); YIELD leaves the core with SCAUSE = 3,
the task READY with RESUME at the tail of its level (R123, R126), or waits while the other bank is being saved
(R123).  SIGNAL sets flags of a task that is not EMPTY (R175); FENCE has nothing left to wait for (R177); TOUCH does
nothing outside the context view, without one, for a staged or a NOTPRESENT page, and asks for a page in DRAM (R176).  Every earlier
access has taken effect by then (the model's choice, log entry 32). -/
def Obligations.JobsEndYieldAndSignal : Prop :=
  (∀ (s : State) (c : Fin 68), c.val < 64 → s.rd I.cJob c.val = 0 → s.serving = true →
    Puts (.waitjob c true) s [(I.waiting, c.val, 1)]) ∧
  (∀ (s : State) (c : Fin 68), CoreReady s c.val → Does (.fence c true) s fun t => Issued s t c.val [] []) ∧
  ∀ (s : State) (c : Fin 68), CoreReady s c.val → c.val < 64 →
    let b := rbank s c.val
    let k := s.rd I.cJob c.val - 1
    (isLate s k = false → s.rd F.TSU_TRCCFG_EN = 0 → s.queues = [] → framesFor s k = [] →
      (s.on F.TSU_T_CFG_EN k && condition s k) = false → Does (.endjob c true none) s fun t =>
        t.rd I.cJob c.val = 0 ∧ t.rd I.waiting c.val = 1 ∧ t.rd I.bankJob b = 0 ∧
        taskSt t k = tWAIT ∧ t.rd F.TSU_T_STAT_RESUME k = 0 ∧ t.rd F.TSU_T_STAT_CVALID k = 0 ∧
        t.rd F.TSU_T_STAT_URGENT k = 0 ∧ t.rd I.jWs k = 0 ∧ bundleOf t c.val = Bundle.empty ∧ SameButCode s t ∧
        SameCells s t [(I.pcb, b), (I.cycle, b), (I.qstall, c.val), (I.cJob, c.val), (I.waiting, c.val), (I.swPend, c.val),
          (I.bankJob, b), (I.stSet, k), (I.stCore, k), (I.jWs, k), (I.jFault, k), (I.jTouch, k), (I.jRec, k), (I.jCancel, k),
          (F.TSU_T_CMD_CANCEL, k), (F.TSU_T_STAT_URGENT, k), (F.TSU_T_STAT_STATE, k), (F.TSU_T_STAT_RESUME, k),
          (F.TSU_T_STAT_CVALID, k)]) ∧
    (s.rd I.obusy c.val = 0 → s.rd I.cNext c.val = 0 → s.rd F.TSU_CTRL_RUN = 0 → Does (.yield c true) s fun t =>
      t.rd I.cJob c.val = 0 ∧ t.rd I.waiting c.val = 1 ∧ t.rd I.bank c.val = (1 - s.rd I.bank c.val) % 2 ∧
      t.rd I.cLeave c.val = (k + 1) % 2 ^ I.cLeave.w ∧ t.rd I.obusy c.val = 1 ∧ t.rd I.jScause k = 3 ∧
      taskSt t k = tREADY ∧ t.rd F.TSU_T_STAT_RESUME k = 1 ∧ t.rd I.tLvl k = s.rd F.TSU_T_CFG_LEVEL k % 2 ^ I.tLvl.w ∧
      t.rd I.tPos k = s.rd I.ordTail % 2 ^ I.tPos.w ∧ bundleOf t c.val = Bundle.empty ∧ SameButCode s t ∧
      SameCells s t [(I.pcb, b), (I.cycle, b), (I.qstall, c.val), (I.stSet, k), (I.stCore, k), (I.cLeave, c.val),
        (I.cLeaveRun, c.val), (I.cLeaveAddr, c.val), (I.obusy, c.val), (I.bank, c.val), (I.cJob, c.val), (I.waiting, c.val),
        (I.jRec, k), (I.jScause, k), (F.TSU_T_STAT_CVALID, k), (I.swPend, c.val), (F.TSU_T_STAT_STATE, k),
        (F.TSU_T_STAT_RESUME, k), (I.tLvl, k), (I.tPos, k), (I.ordTail, 0)]) ∧
    (s.rd I.obusy c.val = 1 → Does (.yield c true) s fun t => Issued s t c.val [(I.swPend, c.val), (I.swAddr, c.val)] [] ∧
      t.rd I.swPend c.val = 3) ∧
    ∀ ra : BitVec 5,
      let w := readWord s b ra.toNat
      let tid := w % 65536
      let cid := s.rd I.jCid k
      (taskSt s tid ≠ tEMPTY → Does (.signal c true ra) s fun t => Issued s t c.val [(F.TSU_T_FLAGS_FLAGS, tid)] [] ∧
        t.rd F.TSU_T_FLAGS_FLAGS tid = Nat.lor (s.rd F.TSU_T_FLAGS_FLAGS tid) (w / 65536)) ∧
      (taskSt s tid = tEMPTY → Does (.signal c true ra) s fun t => Issued s t c.val [] []) ∧
      (0x10000 ≤ w ∨ s.rd I.jCv k = 0 ∨ notPresent s cid (w / 4096) = true ∨
          ((framesOn s c.val cid (w / 4096)).any fun i => ownedBy s i k) = true →
        Does (.touch c true ra) s fun t => Issued s t c.val [] []) ∧
      (w < 0x10000 → s.rd I.jCv k = 1 → lvl s cid (w / 4096) = 2 →
          ((framesOn s c.val cid (w / 4096)).any fun i => ownedBy s i k) = false → (∀ j, s.rd I.jTouch j = 0) →
          popcount 16 (setBit (Nat.lor (s.rd I.jWs k) (s.rd I.stSet k)) (w / 4096)) ≤ 8 →
        Does (.touch c true ra) s fun t => Issued s t c.val [(I.jTouch, k)] [] ∧ t.rd I.jTouch k = 2 ^ (w / 4096))

/-- QRD of a queue that can be read takes its next word, visible three bundles later with C = 1 at an item's end; QWR of a
queue that can take a word appends it, END marking the item's end (R178, R255, R256).  Otherwise both stall the core
before their bundle issues (R179), and QUEUE_STALL_RELEASE completes a stalled QRD once there is a word (R258).  QTRY
acts alike and sets Z = 0, or, where the queue cannot serve it, changes nothing but sets Z = 1 (R178).  An access takes effect as
its bundle issues (the model's choice, log entry 32). -/
def Obligations.QueueInstructionsTransferWords : Prop :=
  ∀ (s : State) (c : Fin 68) (q : QSel) (rw : BitVec 4), CoreReady s c.val →
    let b := rbank s c.val
    let n := queueNo s b q
    let x := s.queue n
    let who := if 64 ≤ c.val then 0x10001 + (c.val - 64) else s.rd I.cJob c.val
    let u := fun y : Queue => (servePort (begun s c.val) c.val).setQueue n y
    let v := readWord s b rw.toNat
    let stalls := fun t : State => t.rd I.qstall c.val = 1 ∧ (bundleOf t c.val).closed = true ∧ pcOf t c.val = pcOf s c.val ∧
      t.queues = s.queues ∧ SameCells s t [(I.qstall, c.val)]
    let written := fun fin : Bool =>
      let last := fin || x.partialWords.length == 255
      let y := { x with prod := x.prod ++ [⟨v, last⟩], writer := if last then 0 else who }
      if last && x.flush && !x.fixed then { y with fixed := true, flushN := y.count } else y
    (∀ w r, x.canRead = true → x.cons = w :: r →
      let y := (x.read who).2
      y.cons = r ∧ y.prod = x.prod ∧ y.reader = (if w.last then 0 else who) ∧
      Does (.qrd c true q rw) s (fun t => IssuedAfter s (u y) t c.val [] (wordCells s b rw.toNat ++ [(I.flC, b)]) ∧
        readWord (settled t c.val) b rw.toNat = w.val % 2 ^ 32 ∧ (settled t c.val).rd I.flC b = b2n w.last) ∧
      ∀ fin, Does (.qtry c true false fin q rw) s fun t =>
        IssuedAfter s (u y) t c.val [] (wordCells s b rw.toNat ++ [(I.flC, b), (I.flZ, b)]) ∧
        readWord (settled t c.val) b rw.toNat = w.val % 2 ^ 32 ∧ (settled t c.val).rd I.flC b = b2n w.last ∧
        (settled t c.val).rd I.flZ b = 0) ∧
    (x.canRead = false → Does (.qrd c true q rw) s stalls ∧ ∀ fin, Does (.qtry c true false fin q rw) s fun t =>
      IssuedAfter s (begun s c.val) t c.val [] [(I.flZ, b)] ∧ (settled t c.val).rd I.flZ b = 1) ∧
    (x.canWrite = true → ∀ fin,
      Does (.qwr c true fin q rw) s (fun t => IssuedAfter s (u (written fin)) t c.val [] []) ∧
      Does (.qtry c true true fin q rw) s fun t =>
        IssuedAfter s (u (written fin)) t c.val [] [(I.flZ, b)] ∧ (settled t c.val).rd I.flZ b = 0) ∧
    (x.canWrite = false → ∀ fin, Does (.qwr c true fin q rw) s stalls ∧ Does (.qtry c true true fin q rw) s fun t =>
      IssuedAfter s (begun s c.val) t c.val [] [(I.flZ, b)] ∧ (settled t c.val).rd I.flZ b = 1) ∧
    (x.canRead = false → ∃ t, exec (.qrd c true q rw) s = .next t ∧ ∀ (x' : Queue) (w : QWord) (r : List QWord),
      x'.canRead = true → x'.cons = w :: r → Does (.queueStallRelease c) (t.setQueue n x') fun z =>
        z.queue n = (x'.read who).2 ∧ z.rd I.qstall c.val = 0 ∧ bundleOf z c.val = Bundle.empty ∧
        pcOf z c.val = (pcOf s c.val + 4) % 2 ^ 32 ∧ readWord (settled z c.val) b rw.toNat = w.val % 2 ^ 32) ∧
    exec (.queueStallRelease c) s = .next s

/-- LDLK on a mapped word reads it and links the core to its granule; STCN stores and writes 1 while the link holds on a
place that takes it, and otherwise writes 0 and stores nothing; STCN ends the link in either case (R139, R181).  A
supervisor core in supervisor privilege maintains its caches and TLB: invalidated lines and entries are gone, a clean
line is written back, and no other line changes (R182). -/
def Obligations.LinkedAccessesAndMaintenance : Prop :=
  ∀ (s : State) (c : Fin 68) (rd ra rb : BitVec 5), CoreReady s c.val → 64 ≤ c.val →
    let b := rbank s c.val
    let a := readWord s b ra.toNat
    let z := begun s c.val
    let f := fetched s c.val
    let dst := wordCells s b rd.toNat
    (16 ≤ ra.toNat → ∀ pa mt, translate f c.val a .load = some (pa, mt) → meetOf f c.val (.act (.ldlk a rd.toNat)) = .ok →
      let u := ldlkAct z c.val a
      KeepsCore s u.2 c.val → Does (.ldlk c true rd ra) s fun t => IssuedAfter s u.2 t c.val [] dst ∧
        valueOf (settled t c.val) dst = u.1 % 2 ^ 32 ∧ t.rd I.linkV (c.val - 64) = 1 ∧
        t.rd I.linkA (c.val - 64) = pa / 64 * 64 % 2 ^ I.linkA.w) ∧
    (16 ≤ ra.toNat → meetOf f c.val (.act (.stcn a (readWord s b rb.toNat) rd.toNat)) = .ok →
      (∀ pa mt, stcnGoes f c.val a = true → translate f c.val a .store = some (pa, mt) →
        let w := svcWrite (tlbNote z c.val a) c.val pa mt 4 (readWord s b rb.toNat)
        KeepsCore s (w.wr I.linkV (c.val - 64) 0) c.val → Does (.stcn c true rd ra rb) s fun t =>
          IssuedAfter s (w.wr I.linkV (c.val - 64) 0) t c.val [] dst ∧ valueOf (settled t c.val) dst = 1 ∧
          t.rd I.linkV (c.val - 64) = 0) ∧
      (stcnGoes f c.val a = false → Does (.stcn c true rd ra rb) s fun t =>
        Issued s t c.val [(I.linkV, c.val - 64)] dst ∧ valueOf (settled t c.val) dst = 0 ∧
        t.rd I.linkV (c.val - 64) = 0)) ∧
    (bitOf (s.rd I.scr (16 * (c.val - 64))) 0 = true →
      (∀ pa mt, translate f c.val a .any = some (pa, mt) → meetOf f c.val (.act (.cacheLine 0 a)) = .ok →
        Does (.cacheIinvLine c true ra) s (fun t => Issued s t c.val [] [] ∧
          Tbl.get [] t.iLines c.val = (Tbl.get [] f.iLines c.val).filter (· != pa / 64 * 64)) ∧
        ∀ d, dLine s (pa / 64 * 64) = some d → d.holders.contains c.val = true →
          let la := pa / 64 * 64
          let others := d.holders.filter (· != c.val)
          let kept := fun d : DLine => if others.isEmpty then none else some { d with holders := others }
          let u := fun op => cacheLine z c.val op a
          (KeepsCore s (u 1) c.val → Does (.cacheCleanLine c true ra) s fun t => IssuedAfter s (u 1) t c.val [] [] ∧
            dLine t la = some { d with dirty := false }) ∧
          (KeepsCore s (u 2) c.val → Does (.cacheDinvLine c true ra) s fun t => IssuedAfter s (u 2) t c.val [] [] ∧
            dLine t la = kept d ∧ t.mem = s.mem) ∧
          (KeepsCore s (u 3) c.val → Does (.cacheCleanInvLine c true ra) s fun t => IssuedAfter s (u 3) t c.val [] [] ∧
            dLine t la = kept { d with dirty := false })) ∧
      Does (.cacheIinvAll c true) s (fun t => Issued s t c.val [] [] ∧ Tbl.get [] t.iLines c.val = []) ∧
      (let u := cacheAll z c.val true
       KeepsCore s u c.val → Does (.cacheCleanInvAll c true) s fun t => IssuedAfter s u t c.val [] []) ∧
      (let asid := s.rd I.scr (16 * (c.val - 64) + 2) % 32
       let left := fun (gone : TlbEntry → Bool) (t : State) => Issued s t c.val [] [] ∧
         Tbl.get [] t.tlbs c.val = (Tbl.get [] f.tlbs c.val).filter fun e => !gone e
       Does (.tlbiPage c true ra) s (left fun e => e.vpn == a / 4096 && (bitOf e.entry 4 || e.asid == asid)) ∧
       Does (.tlbiAsid c true ra) s (left fun e => !bitOf e.entry 4 && e.asid == a % 32) ∧
       Does (.tlbiNonglobal c true) s (left fun e => !bitOf e.entry 4) ∧ Does (.tlbiAll c true) s (left fun _ => true)))

/-- A signal core takes a trap as R129 gives, a supervisor core an exception as R134 and R135 give: BKPT raises BREAK, or
halts the core for the debug port (R129, R507); a reserved syllable raises ILLEGAL (R143), and so does an instruction
on a core that has it not, and PRIV a privileged one in user privilege (R144); SYSCALL saves the bundle after its own
(R180).  RETT and ERET return from them (R131, R134). -/
def Obligations.TrapsAndExceptionsSaveAndReturn : Prop :=
  ∀ (s : State) (c : Fin 68), CoreReady s c.val →
    let b := rbank s c.val
    let halts := s.rd F.MLS_DBG_CFG_BKPTHALT = 1 ∧ dbgAvail s = true
    let slot := fun cls : BitVec 2 => if cls = 0 then 4 else if cls = 1 then 2 else if cls = 2 then 0 else Config.freeNat s.freeCtr % 16
    (halts → ∀ tag, Does (.bkpt c true tag) s fun t => halted t c.val = true ∧ pcOf t c.val = pcOf s c.val ∧ t.mem = s.mem) ∧
    (c.val < 64 → inTrap s b = false →
      (¬ halts → ∀ tag, Does (.bkpt c true tag) s fun t => Trapped s t c.val 9 4 0) ∧
      (∀ cls, Does (.reservedSyllable c true cls) s fun t => Trapped s t c.val 1 (slot cls) 0) ∧
      (∀ (rd ra rb : BitVec 5) (imm : BitVec 16), ∀ i ∈ ([.syscall c true imm, .ldlk c true rd ra, .stcn c true rd ra rb, .eret c true,
        .cacheIinvAll c true, .tlbiAll c true, .rett c true] : List Instr), Does i s fun t => Trapped s t c.val 1 4 0)) ∧
    (c.val < 64 → inTrap s b = true → Does (.rett c true) s fun t =>
      t.rd I.tcause b = clrBit (s.rd I.tcause b) 31 ∧ pcOf t c.val = s.rd I.trpc b / 4 * 4 ∧
      t.rd I.btgt b = s.rd I.tbtgt b ∧ t.rd I.dly b = s.rd I.tds b % 4 ∧ t.rd I.btaken b = b2n (s.rd I.tds b % 4 != 0) ∧
      t.rd I.act b = s.rd I.tds b / 4 % 4 ∧ t.rd I.rot b = s.rd I.tds b / 16 % 4 ∧ bundleOf t c.val = Bundle.empty ∧
      BundleFrame s t c.val [(I.tcause, b), (I.btgt, b), (I.dly, b), (I.btaken, b), (I.act, b), (I.rot, b)]) ∧
    (64 ≤ c.val →
      let r := fun k => s.rd I.scr (16 * (c.val - 64) + k)
      let pc := pcOf s c.val
      (¬ halts → ∀ tag, Does (.bkpt c true tag) s fun t => Excepted s t c.val pc 10 4 0 0x1C0) ∧
      (∀ cls, Does (.reservedSyllable c true cls) s fun t => Excepted s t c.val pc 1 (slot cls) 0 0x100) ∧
      (∀ ra : BitVec 5, ∀ i ∈ ([.waitjob c true, .endjob c true none, .yield c true, .signal c true ra, .touch c true ra,
        .rett c true] : List Instr), Does i s fun t => Excepted s t c.val pc 1 4 0 0x100) ∧
      (∀ imm : BitVec 16, Does (.syscall c true imm) s fun t => Excepted s t c.val ((pc + 4) % 2 ^ 32) 11 4 imm.toNat 0x40) ∧
      (bitOf (r 0) 0 = false → ∀ ra : BitVec 5, ∀ i ∈ ([.eret c true, .cacheIinvLine c true ra, .cacheCleanLine c true ra, .cacheDinvLine c true ra,
        .cacheCleanInvLine c true ra, .cacheIinvAll c true, .cacheCleanInvAll c true, .tlbiPage c true ra, .tlbiAsid c true ra,
        .tlbiNonglobal c true, .tlbiAll c true] : List Instr), Does i s fun t => Excepted s t c.val pc 5 4 0 0x100) ∧
      (bitOf (r 0) 0 = true → Does (.eret c true) s fun t =>
        t.rd I.scr (16 * (c.val - 64)) = r 6 ∧ pcOf t c.val = r 3 / 4 * 4 ∧ t.rd I.btgt b = r 8 ∧ t.rd I.dly b = r 7 % 4 ∧
        t.rd I.btaken b = b2n (r 7 % 4 != 0) ∧ t.rd I.act b = r 7 / 4 % 4 ∧ t.rd I.rot b = r 7 / 16 % 4 ∧
        bundleOf t c.val = Bundle.empty ∧
        BundleFrame s t c.val [(I.scr, 16 * (c.val - 64)), (I.btgt, b), (I.dly, b), (I.btaken, b), (I.act, b), (I.rot, b)]))

/-- ARITH_TRAP takes a due trap at a boundary, imprecise, and none where none is due (R130).  SVC_INTERRUPT enters the
interrupt vector of a core with IE = 1 whose line is asserted, and changes nothing of another (R134, R135).  SIC_CLAIM
returns the qualifying source of lowest PRIO, lowest number among equals, and marks it in service, or returns 0;
SIC_COMPLETE ends the service of a source the core holds, and of no other (R140, R141). -/
def Obligations.ImpreciseTrapsAndInterrupts : Prop :=
  (∀ (s : State) (c : Fin 68), let b := rbank s c.val
    (s.rd I.arith b = 0 → exec (.arithTrap c) s = .next s) ∧
    (∀ n, coreLive s c.val = true → halted s c.val = false → haltReq s c.val = false → stepping s c.val = false →
      atBoundary s c.val = true → inFlight s b = [] → s.rd I.arith b = n + 1 → n < 8 →
      (c.val < 64 → s.rd I.jCancel (s.rd I.cJob c.val - 1) = 0 → inTrap s b = false → Does (.arithTrap c) s fun t =>
        t.rd I.tcause b = 2 ^ 31 + 2 ^ 30 + n * 256 + 8 ∧ t.rd I.trpc b = pcOf s c.val ∧ t.rd I.tds b = dsWord s b ∧
        t.rd I.tbtgt b = s.rd I.btgt b ∧ t.rd I.taddr b = 0 ∧ pcOf t c.val = s.rd I.trapv b / 4 * 4 ∧ t.rd I.arith b = 0 ∧
        t.rd I.act b = 0 ∧ t.rd I.dly b = 0 ∧ t.rd I.btaken b = 0 ∧ bundleOf t c.val = Bundle.empty ∧
        SameCells s t ((I.pcb, b) :: (I.arith, b) :: (I.qstall, c.val) :: trapCells b) ∧ t.mem = s.mem) ∧
      (64 ≤ c.val → Does (.arithTrap c) s fun t =>
        t.rd I.scr (16 * (c.val - 64) + 4) = 2 ^ 30 + n * 256 + 9 ∧ t.rd I.scr (16 * (c.val - 64) + 3) = pcOf s c.val ∧
        pcOf t c.val = (s.rd I.scr (16 * (c.val - 64) + 1) + 0x180) % 2 ^ 32 ∧ t.rd I.arith b = 0 ∧
        SameCells s t ((I.pcb, b) :: (I.arith, b) :: (I.qstall, c.val) :: exceptionCells s c.val) ∧ t.mem = s.mem))) ∧
  (∀ (s : State) (n : Fin 4), let c := 64 + n.val
    let b := rbank s c
    let r := fun (u : State) (k : Nat) => u.rd I.scr (16 * n.val + k)
    (bitOf (r s 0) 1 = false ∨ sicLine s n.val = false → exec (.svcInterrupt n) s = .next s) ∧
    (coreLive s c = true → halted s c = false → atBoundary s c = true → inFlight s b = [] → bitOf (r s 0) 1 = true →
      sicLine s n.val = true → Does (.svcInterrupt n) s fun t =>
        r t 6 = r s 0 ∧ r t 0 = clrBit (setBit (r s 0) 0) 1 ∧ r t 3 = pcOf s c ∧ r t 4 = 2 ^ 31 ∧ r t 5 = 0 ∧ r t 7 = dsWord s b ∧
        r t 8 = s.rd I.btgt b ∧ pcOf t c = r s 1 ∧ t.rd I.act b = 0 ∧ t.rd I.dly b = 0 ∧ t.rd I.btaken b = 0 ∧
        t.rd I.linkV n.val = 0 ∧ bundleOf t c = Bundle.empty ∧
        SameCells s t ((I.pcb, b) :: (I.qstall, c) :: (I.svcDiv, n.val) :: exceptionCells s c) ∧ t.mem = s.mem)) ∧
  ∀ (s : State) (ini : Init) (n : Fin 4), s.fabric = true →
    (sicLine s n.val = false → exec (.sicClaim ini n) s = .next (s.seen (initCode ini) 0)) ∧
    (sicLine s n.val = true → ∃ k, k < 256 ∧ sicQualifies s n.val k = true ∧
      (∀ j, j < 256 → sicQualifies s n.val j = true → s.rd F.SIC_SRC_CFG_PRIO k ≤ s.rd F.SIC_SRC_CFG_PRIO j) ∧
      ((s.nonzero F.SIC_SRC_CFG_EN).Pairwise (· < ·) → ∀ j, j < 256 → sicQualifies s n.val j = true →
        s.rd F.SIC_SRC_CFG_PRIO j = s.rd F.SIC_SRC_CFG_PRIO k → k ≤ j) ∧
      exec (.sicClaim ini n) s =
        .next ((puts s [(I.sicOwn, k, n.val + 1), (F.SIC_SRC_CFG_INSVC, k, 1)]).seen (initCode ini) (2 ^ 31 + k))) ∧
    ∀ v : Word, let k := v.toNat % 256
      (s.rd I.sicOwn k = n.val + 1 → Puts (.sicComplete ini n v) s [(I.sicOwn, k, 0), (F.SIC_SRC_CFG_INSVC, k, 0)]) ∧
      (s.rd I.sicOwn k ≠ n.val + 1 → exec (.sicComplete ini n v) s = .next s)

/-! ## Task scheduling (chapter 6) -/

/-- Writes of a task's registers through the window of the slot the writer has selected: the first write of an EMPTY slot
makes it WAIT (R183); FLAGS sets and CLR clears flags, and a READY task whose condition no longer holds returns to WAIT
(R185, R186); TSU_SIGNAL sets flags of the task it names, and of no EMPTY slot (R175, R184); TSU_T_CFG stores its
fields, an AFF of 0 excepted, and EN = 0 takes a READY task back to WAIT (R206, R207).  CANCEL of a waiting task clears
its flags and disables it, and counts a race it wins (R26, R208, R211); FREE empties a disabled waiting slot and
is refused for another (R209).  The task holds no reservation, and nothing is traced. -/
def Obligations.TaskRegistersFollowTheirRules : Prop :=
  ∀ (s : State) (ini : Init) (k : Nat), s.fabric = true → selCopy ini = some k → s.rd F.TSU_TRCCFG_EN = 0 →
    let t := s.rd F.TSU_SELECT_INDEX k
    let first := if taskSt s t = tEMPTY then [(F.TSU_T_STAT_STATE, t, tWAIT)] else []
    let f := s.rd F.TSU_T_FLAGS_FLAGS t
    let flags := fun (i : Instr) (new : Nat) => taskSt s t ≠ tEMPTY →
      let back := taskSt s t = tREADY ∧ s.rd F.TSU_T_STAT_RESUME t = 0 ∧ condition (s.wr F.TSU_T_FLAGS_FLAGS t new) t = false
      (back → Puts i s [(F.TSU_T_FLAGS_FLAGS, t, new), (F.TSU_T_STAT_STATE, t, tWAIT), (F.TSU_T_STAT_URGENT, t, 0)]) ∧
      (¬ back → Puts i s [(F.TSU_T_FLAGS_FLAGS, t, new)])
    (∀ v : Word,
      Puts (.taskSlotFirstWrite ini 0x100 v) s (first ++ [(F.TSU_T_PC_ENTRY, t, v.toNat / 4)]) ∧
      (taskSt s t ≠ tREADY → Puts (.taskSlotFirstWrite ini 0x108 v) s (first ++ [(F.TSU_T_MASK_MASK, t, v.toNat % 65536)])) ∧
      (popcount 16 (v.toNat % 65536) ≤ 8 → Puts (.taskSlotFirstWrite ini 0x110 v) s (first ++
        [(F.TSU_T_CTX_CV, t, bitN v.toNat 31), (F.TSU_T_CTX_CID, t, bits v.toNat 30 16), (F.TSU_T_CTX_PSET, t, v.toNat % 65536)])) ∧
      Puts (.taskSlotFirstWrite ini 0x114 v) s (first ++ [(F.TSU_T_DL_DEADLINE, t, bits v.toNat 19 0)]) ∧
      Puts (.taskSlotFirstWrite ini 0x118 v) s (first ++ [(F.TSU_T_SG_SGRP, t, bits v.toNat 14 0)]) ∧
      (let n := v.toNat % 65536
       (taskSt s n = tEMPTY → exec (.tsuSignalWrite ini v) s = .next s) ∧
       (taskSt s n ≠ tEMPTY → Puts (.tsuSignalWrite ini v) s
         [(F.TSU_T_FLAGS_FLAGS, n, Nat.lor (s.rd F.TSU_T_FLAGS_FLAGS n) (v.toNat / 65536))])) ∧
      (taskSt s t ≠ tEMPTY → s.rd I.tResv t = 0 → Does (.taskCfgWrite ini v) s fun u =>
        let w := v.toNat
        let out := taskSt s t = tREADY ∧ s.rd F.TSU_T_STAT_RESUME t = 0 ∧ bitN w 31 = 0
        let moved := taskSt s t = tREADY ∧ s.rd I.tLvl t ≠ bits w 20 16
        u.rd F.TSU_T_CFG_EN t = bitN w 31 ∧ u.rd F.TSU_T_CFG_PRE t = bitN w 30 ∧ u.rd F.TSU_T_CFG_ALL t = bitN w 29 ∧
        u.rd F.TSU_T_CFG_SGEN t = bitN w 28 ∧ u.rd F.TSU_T_CFG_LEVEL t = bits w 20 16 ∧ u.rd F.TSU_T_CFG_BLEVEL t = bits w 12 8 ∧
        u.rd F.TSU_T_CFG_AFF t = (if bits w 7 0 = 0 then s.rd F.TSU_T_CFG_AFF t else bits w 7 0) ∧
        (out → taskSt u t = tWAIT) ∧ (¬ out → taskSt u t = taskSt s t) ∧
        (moved → u.rd I.tLvl t = bits w 20 16 ∧ u.rd I.tPos t = s.rd I.ordTail % 2 ^ I.tPos.w) ∧
        OnlyCells s u [(F.TSU_T_CFG_EN, t), (F.TSU_T_CFG_PRE, t), (F.TSU_T_CFG_ALL, t), (F.TSU_T_CFG_SGEN, t), (F.TSU_T_CFG_LEVEL, t),
          (F.TSU_T_CFG_BLEVEL, t), (F.TSU_T_CFG_AFF, t), (I.tLvl, t), (I.tPos, t), (I.ordTail, 0), (F.TSU_T_STAT_STATE, t),
          (F.TSU_T_STAT_URGENT, t)])) ∧
    (∀ fl : BitVec 16, flags (.taskFlagsSet ini fl) (Nat.lor f fl.toNat) ∧ flags (.taskFlagsClr ini fl) (f - Nat.land f fl.toNat)) ∧
    (taskSt s t = tWAIT → s.rd I.jCancel t = 0 → s.rd I.tResv t = 0 → ∀ race : Bool,
      let won := race = true ∧ s.rd F.TSU_T_CFG_EN t = 1 ∧ condition s t = true
      let gone := [(F.TSU_T_FLAGS_FLAGS, t, 0), (F.TSU_T_CFG_EN, t, 0), (F.TSU_T_CMD_REFUSED, t, 0)]
      (¬ won → Puts (.cancel ini race) s gone) ∧
      (won → s.rd F.TSU_RACECNT_COUNT + 2 < 2 ^ 32 → Puts (.cancel ini race) s
        ([(F.TSU_RACECNT_COUNT, 0, s.rd F.TSU_RACECNT_COUNT + 1), (F.TSU_IRQSTAT_RACE, 0, 1)] ++ gone))) ∧
    (s.rd I.jCancel t = 0 → s.rd I.tResv t = 0 →
      (s.rd F.TSU_T_CFG_EN t = 0 → taskSt s t = tWAIT → Does (.free ini) s fun u => taskSt u t = tEMPTY ∧
        u.rd F.TSU_T_FLAGS_FLAGS t = 0 ∧ u.rd F.TSU_T_MASK_MASK t = 0 ∧ u.rd F.TSU_T_CTX_CV t = 0 ∧ u.rd F.TSU_T_CFG_EN t = 0 ∧
        SameButCells s u ∧ ∀ g j, j ≠ t → u.rd g j = s.rd g j) ∧
      (s.rd F.TSU_T_CFG_EN t = 1 ∨ (taskSt s t ≠ tWAIT ∧ taskSt s t ≠ tEMPTY) → Puts (.free ini) s [(F.TSU_T_CMD_REFUSED, t, 1)]))

/-- The way of a task to its job and back, while nothing is traced and no running job is pre-empted: readiness (R186),
promotion (R197), the commit of a new job without a context (R188, R190, R193), its dispatch (R104, R193), a switch
to a pre-emptor (R201, R126), the return from a page fault (R203), and the save of a leaving job's bank (R126, R127, R227). -/
def Obligations.TasksMoveToTheirJobsAndBack : Prop :=
  ∀ s : State, s.rd F.TSU_TRCCFG_EN = 0 →
    let calm := fun t => s.rd F.TSU_CTRL_RUN = 0 ∨ (affinity s t).any (coreIdle s) = true
    (∀ t : BitVec 16, let n := t.toNat
      let ready := s.serving = true ∧ taskSt s n = tWAIT ∧ s.rd F.TSU_T_CFG_EN n = 1 ∧ condition s n = true ∧ s.rd I.jCancel n = 0
      (¬ ready → exec (.taskReady t) s = .next s) ∧
      (ready → calm n → Puts (.taskReady t) s [(F.TSU_T_STAT_STATE, n, tREADY), (F.TSU_T_STAT_RESUME, n, 0), (F.TSU_T_STAT_URGENT, n, 0),
        (I.tLvl, n, s.rd F.TSU_T_CFG_LEVEL n), (I.tSince, n, s.rd I.ordTail), (I.tPos, n, s.rd I.ordTail), (I.ordTail, 0, s.rd I.ordTail + 1),
        (I.jHasDl, n, b2n (s.rd F.TSU_T_DL_DEADLINE n != 0)),
        (F.TSU_T_ABSDL_ABSDL, n, if s.rd F.TSU_T_DL_DEADLINE n = 0 then 0 else tbNs s 2 + s.rd F.TSU_T_DL_DEADLINE n * 100)]) ∧
      (s.serving = true → promotable s n = true → calm n → Puts (.taskPromote t) s
        [(F.TSU_T_STAT_URGENT, n, 1), (I.tUrgPos, n, s.rd I.ordTail), (I.ordTail, 0, s.rd I.ordTail + 1)]) ∧
      (promotable s n = false → exec (.taskPromote t) s = .next s) ∧
      (taskSt s n ≠ tPAGEWAIT → exec (.pageArrived t) s = .next s) ∧
      (s.serving = true → taskSt s n = tPAGEWAIT → ((pagesOf (s.rd I.jFault n)).all fun v => lvl s (s.rd I.jCid n) v == 1) = true →
        calm n → Puts (.pageArrived t) s [(I.jWs, n, Nat.lor (s.rd I.jWs n) (s.rd I.jFault n)), (I.jFault, n, 0),
          (F.TSU_T_STAT_STATE, n, tREADY), (F.TSU_T_STAT_RESUME, n, 1), (F.TSU_T_STAT_CVALID, n, 0),
          (I.tLvl, n, s.rd F.TSU_T_CFG_LEVEL n), (I.tPos, n, s.rd I.ordHead), (I.ordHead, 0, s.rd I.ordHead - 1)])) ∧
    (committable s = [] → exec .taskCommit s = .next s) ∧
    (∀ t c, s.serving = true → firstInRank s (committable s) = some t → chooseCore s t = some c → s.rd F.TSU_T_STAT_RESUME t = 0 →
      s.rd I.jCancel t = 0 → s.rd I.tResv t = 0 → s.rd F.TSU_T_CTX_CV t = 0 → s.nonzero I.stCore = [] →
      cluSt s (c / 8) = clRUN → s.rd F.CLU_STAT_DAWN (c / 8) = 0 → s.rd F.CLU_STAT_DRAINWB (c / 8) = 0 →
        let used := Nat.land (s.rd F.TSU_T_FLAGS_FLAGS t) (s.rd F.TSU_T_MASK_MASK t)
        Puts .taskCommit s ([(I.jFlags, t, used), (F.TSU_T_FLAGS_FLAGS, t, s.rd F.TSU_T_FLAGS_FLAGS t - used),
          (F.TSU_T_STAT_JSEQ, t, s.rd F.TSU_T_STAT_JSEQ t + 1), (I.jEntry, t, s.rd F.TSU_T_PC_ENTRY t), (I.jCv, t, 0),
          (I.jCid, t, s.rd F.TSU_T_CTX_CID t), (I.jWs, t, 0), (I.jSgen, t, s.rd F.TSU_T_CFG_SGEN t), (I.jSgrp, t, s.rd F.TSU_T_SG_SGRP t),
          (I.jPre, t, s.rd F.TSU_T_CFG_PRE t), (I.jBl, t, s.rd F.TSU_T_CFG_BLEVEL t)] ++
          [I.jRan, I.jDisp, I.jRec, I.jRetry, I.jScause, I.jFault, I.jTouch, I.jCancel].map (fun g => (g, t, 0)) ++
          [(F.TSU_T_STAT_STATE, t, tCOMMITTED), (F.TSU_T_STAT_CVALID, t, 1), (F.TSU_T_STAT_CORE, t, c), (I.cNext, c, t + 1),
           (I.jOrd, t, s.rd I.commitSeq), (I.commitSeq, 0, s.rd I.commitSeq + 1)])) ∧
    ∀ c : Fin 64,
      let fresh := fun q => s.rd I.jRec q = 0 ∧ s.rd I.jCv q = 0 ∧ s.rd I.jCid q = 0 ∧ s.rd I.jWs q = 0 ∧ s.rd I.jRan q = 0 ∧
        s.nonzero I.bankJob = [] ∧ s.rd F.TSU_DISPCNT_COUNT + 2 < 2 ^ 32 ∧ q < 65536
      let runs := fun (q : Nat) (u : State) => taskSt u q = tRUNNING ∧ u.rd I.cJob c.val = q + 1 ∧ u.rd I.cNext c.val = 0 ∧
        pcOf u c.val = s.rd I.jEntry q * 4 ∧ u.rd I.jobid (rbank u c.val) = s.rd F.TSU_T_STAT_JSEQ q * 65536 + q ∧
        u.rd I.ctxv (rbank u c.val) = 0 ∧ u.rd I.cmode (rbank u c.val) = 0x800 ∧
        u.rd I.trapv (rbank u c.val) = s.rd F.TSU_TRAPV_ADDR * 4 ∧
        (∀ off ∈ recordOffsets, off ∉ [0x17C, 0x184, 0x188, 0x18C, 0x1A0] → recordRead u (rbank u c.val) off = 0) ∧
        u.rd F.TSU_DISPCNT_COUNT = s.rd F.TSU_DISPCNT_COUNT + 1 ∧ u.mem = s.mem
      (mayDispatch s c.val = false → exec (.taskDispatch c) s = .next s) ∧
      (∀ q, mayDispatch s c.val = true → s.rd I.cNext c.val = q + 1 → fresh q → Does (.taskDispatch c) s (runs q)) ∧
      (maySwitch s c.val = false → exec (.preemptSwitch c) s = .next s) ∧
      (∀ t p, maySwitch s c.val = true → s.rd F.TSU_CTRL_RUN = 0 → s.rd I.cJob c.val = t + 1 → s.rd I.cNext c.val = p + 1 → p ≠ t →
        fresh p → t < 65536 → s.rd I.arith (rbank s c.val) = 0 → inFlight s (rbank s c.val) = [] →
        s.rd F.TSU_PREEMPTCNT_COUNT + 2 < 2 ^ 32 → Does (.preemptSwitch c) s fun u => runs p u ∧
          u.rd I.bank c.val = 1 - s.rd I.bank c.val ∧ u.rd I.cLeave c.val = t + 1 ∧ u.rd I.obusy c.val = 1 ∧
          u.rd I.jRec t = 1 ∧ u.rd I.jScause t = 1 ∧ taskSt u t = tREADY ∧ u.rd F.TSU_T_STAT_RESUME t = 1 ∧
          u.rd I.tPos t = s.rd I.ordHead ∧ u.rd F.TSU_PREEMPTCNT_COUNT = s.rd F.TSU_PREEMPTCNT_COUNT + 1) ∧
      (s.rd I.obusy c.val = 0 → exec (.bankSaveDone c) s = .next s) ∧
      ∀ t i, s.rd I.obusy c.val = 1 → s.rd I.swPend c.val = 0 → s.rd I.cLeave c.val = t + 1 → s.rd I.jCv t = 1 →
        stagedFrame s c.val t (s.rd I.jCid t) 0 = some i → Does (.bankSaveDone c) s fun u =>
          u.mem = (saveRecord s (2 * c.val + (1 - s.rd I.bank c.val)) (frameAddr i + 0xC00) (s.rd I.cLeaveRun c.val) (s.rd I.cLeaveAddr c.val)).mem ∧
          u.rd I.cLeave c.val = 0 ∧ u.rd I.obusy c.val = 0 ∧ u.rd F.CPG_FRAME_STATE i = fWBPEND ∧ u.rd F.CPG_FRAME_DIRTY i = 1 ∧
          u = { s with cells := u.cells, mem := u.mem } ∧
          SameOtherCells s u [I.cLeave, I.obusy, F.CPG_FRAME_STATE, F.CPG_FRAME_DIRTY, F.CPG_FRAME_VPAGE, F.CPG_FRAME_CID,
            I.frOwner, I.frIn, I.frOut, I.frLru, I.useSeq, I.mapDirty]

/-- Budgets, cores and the trace: a new window lowers every account by its cap, not below 0, and holds a budget exactly while
its account has reached its cap (R198); an account that reaches its cap is held (R198); TSU_COREEN takes the written
bits (R210); TRCCLR empties the ring (R213); a read of word 0 of a trace entry latches the entry for its reader, whose reads
of the other words take the latch (R214). -/
def Obligations.BudgetsCoresAndTrace : Prop :=
  ∀ s : State, s.fabric = true →
    Does .budgetWindow s (fun t => (∀ b, b < 32 →
        let cap := s.rd F.TSU_LVLCFG_CAP b * 1024
        t.rd F.TSU_LVLSTAT_USED b = s.rd F.TSU_LVLSTAT_USED b - cap ∧
        t.rd F.TSU_LVLSTAT_HELD b = if 0 < cap ∧ cap ≤ s.rd F.TSU_LVLSTAT_USED b - cap then 1 else 0) ∧
      OnlyCells s t ((List.range 32).flatMap fun b => [(F.TSU_LVLSTAT_USED, b), (F.TSU_LVLSTAT_HELD, b)])) ∧
    (∀ (b : Fin 32) (t : BitVec 16), let cap := s.rd F.TSU_LVLCFG_CAP b.val * 1024
      (cap = 0 ∨ cap ≤ s.rd F.TSU_LVLSTAT_USED b.val → exec (.budgetHeld b t) s = .next s) ∧
      (s.serving = true → taskSt s t.toNat = tRUNNING → s.rd I.jBl t.toNat = b.val → s.rd F.TSU_LVLSTAT_USED b.val < cap →
        s.rd F.TSU_TRCCFG_EN = 0 → Puts (.budgetHeld b t) s [(F.TSU_LVLSTAT_USED, b.val, cap), (F.TSU_LVLSTAT_HELD, b.val, 1)])) ∧
    (∀ (ini : Init) (hi : Bool) (v : Word), s.nonzero I.tResv = [] → (∀ c, c < 64 → s.rd I.cNext c = 0) →
      let f := if hi then F.TSU_COREEN_HI_EN else F.TSU_COREEN_LO_EN
      Does (.coreenWrite ini hi v) s fun t => (∀ k, k < 32 → bitOf (t.rd f) k = bitOf v.toNat k) ∧ OnlyCells s t [(f, 0)]) ∧
    (∀ ini : Init, Puts (.trcclr ini) s [(F.TSU_TRCSTAT_COUNT, 0, 0), (F.TSU_TRCSTAT_WP, 0, 0), (F.TSU_TRCSTAT_FULL, 0, 0)]) ∧
    ∀ (ini : Init) (i : BitVec 12) (k : Nat), selCopy ini = some k →
      Does (.traceEntryRead ini i 0) s (fun t => Tbl.get 0 t.rdata (initCode ini) = s.rd I.trc (4 * i.toNat) ∧
        (∀ j, j < 4 → t.rd I.trcLatch (4 * k + j) = s.rd I.trc (4 * i.toNat + j)) ∧ t.rd I.trcLatchIx k = i.toNat + 1 ∧
        SameCells s t ((I.trcLatchIx, k) :: (List.range 4).map fun j => (I.trcLatch, 4 * k + j)) ∧
        t = { s with cells := t.cells, rdata := t.rdata }) ∧
      ∀ w : Fin 4, w ≠ 0 → exec (.traceEntryRead ini i w) s = .next (s.seen (initCode ini)
        (if s.rd I.trcLatchIx k = i.toNat + 1 then s.rd I.trcLatch (4 * k + w.val) else s.rd I.trc (4 * i.toNat + w.val)))

/-! ## Contexts, frames and memories (chapter 7) -/

/-- Context commands of the context the writer has selected: while one is in progress, or for two at once, RESULT = 2
(R222).  ALLOC of a context that is not FREE or has no pages fails with 3, and takes the page, on demand or zero-filled,
where it fits (R218, R220); RELEASE frees every page, or fails with 3 or 2, or waits for moves (R221, R237); SPILL and
LOAD fail with 3, 4 or 2, end at once where there is nothing to move, or go on (R235, R236); PUBLISH marks the
next control copy pending where CHW reaches it (R238, R239).  Which free page is taken is a free value (log entry 16). -/
def Obligations.ContextCommandsAnswerTheirResults : Prop :=
  ∀ (s : State) (ini : Init) (k cid : Nat), s.fabric = true → selCopy ini = some k → s.rd F.CHW_SELECT_INDEX k = cid → cid < 32768 →
    let ends := fun (i : Instr) (f : Fld) (r : Nat) => Puts i s [(f, cid, 0), (F.CHW_CTX_CMD_RESULT, cid, r)]
    let at' := fun l => ∃ v, v < 16 ∧ s.rd I.mapLvl (16 * cid + v) = l
    (cmdBusy s cid = true → ∀ i ∈ ([.alloc ini, .release ini, .spill ini, .load ini, .publish ini] : List Instr),
      Puts i s [(F.CHW_CTX_CMD_RESULT, cid, 2)]) ∧
    (cmdBusy s cid = false →
      (ctxState s cid ≠ cFREE ∨ s.rd F.CHW_CTX_LAYOUT_PAGES cid = 0 → ends (.alloc ini) F.CHW_CTX_CMD_ALLOC 3) ∧
      (∀ v : Fin 16, ctxState s cid = cFREE → s.rd F.CHW_CTX_LAYOUT_PAGES cid = 2 ^ v.val →
        s.rd F.CHW_CTX_ATTR_POOL cid ≠ 0 ∨ s.mode ≠ mDRAIN → fitsNow s 1 (s.rd F.CHW_CTX_ATTR_POOL cid) = true →
        let e := 16 * cid + v.val
        let taken := fun t : State => ctxState t cid = cALLOC ∧ t.rd F.CHW_CTX_CMD_ALLOC cid = 0 ∧ t.rd F.CHW_CTX_CMD_RESULT cid = 0 ∧
          t.rd I.ctxPool cid = s.rd F.CHW_CTX_ATTR_POOL cid
        (bitOf (s.rd F.CHW_CTX_ATTR_OD cid) v.val = true → Does (.alloc ini) s fun t => taken t ∧ t.rd I.mapOd e = 1 ∧
          t.rd I.mapLvl e = s.rd I.mapLvl e ∧ t.rd I.odLeft = (s.rd I.odLeft + 1) % 2 ^ I.odLeft.w ∧ SameButCells s t) ∧
        (bitOf (s.rd F.CHW_CTX_ATTR_OD cid) v.val = false →
          (∃ n, n < 32768 ∧ bankOk s (n / 2048) = true ∧ s.rd I.pgUse n = 0 ∧ s.rd I.pgBad n = 0) →
          Does (.alloc ini) s fun t => taken t ∧ t.rd I.mapLvl e = 1 ∧ ∃ n, n < 32768 ∧ bankOk s (n / 2048) = true ∧ s.rd I.pgUse n = 0 ∧
            s.rd I.pgBad n = 0 ∧ t.rd I.mapPage e = n ∧
            ∀ a, t.byte a = if 4096 * n ≤ a ∧ a < 4096 * n + 4096 then Memory.unwritten else s.byte a)) ∧
      (ctxState s cid = cFREE → ends (.release ini) F.CHW_CTX_CMD_RELEASE 3) ∧
      (ctxState s cid ≠ cFREE → jobPin s cid = true → ends (.release ini) F.CHW_CTX_CMD_RELEASE 2) ∧
      (ctxState s cid ≠ cFREE → jobPin s cid = false → at' 3 → Puts (.release ini) s [(F.CHW_CTX_CMD_RELEASE, cid, 1)]) ∧
      (ctxState s cid ≠ cFREE → jobPin s cid = false → ¬ at' 3 → Does (.release ini) s fun t => ctxState t cid = cFREE ∧
        t.rd F.CHW_CTX_CMD_RESULT cid = 0 ∧ (∀ v, v < 16 → t.rd I.mapLvl (16 * cid + v) = 0 ∧ t.rd I.mapOd (16 * cid + v) = 0) ∧
        SameButCells s t ∧ SameOtherCells s t [F.CHW_CTX_STAT_STATE, F.CHW_CTX_STAT_CTLPEND, F.CHW_CTX_STAT_AGE, I.ctxMoved, I.migFresh,
          F.CHW_CTX_CMD_RELEASE, F.CHW_CTX_CMD_RESULT, I.mapLvl, I.mapOd, I.mapMem, I.mapDirty, I.mapPage, I.pgUse, I.bankBusy,
          F.CPG_POOLUSE_USED, I.odLeft, I.stSet, I.stCore, F.CPG_FRAME_STATE, F.CPG_FRAME_DIRTY, F.CPG_FRAME_VPAGE, F.CPG_FRAME_CID,
          I.frOwner, I.frIn, I.frOut]) ∧
      (ctxState s cid ≠ cALLOC → ends (.spill ini) F.CHW_CTX_CMD_SPILL 3 ∧ ends (.load ini) F.CHW_CTX_CMD_LOAD 3) ∧
      (ctxState s cid = cALLOC →
        (maySpill s = false → ends (.spill ini) F.CHW_CTX_CMD_SPILL 4) ∧
        (maySpill s = true → coldEligible s cid = false → ends (.spill ini) F.CHW_CTX_CMD_SPILL 2) ∧
        (maySpill s = true → coldEligible s cid = true → ¬ at' 1 → ends (.spill ini) F.CHW_CTX_CMD_SPILL 0) ∧
        (maySpill s = true → coldEligible s cid = true → at' 1 → Does (.spill ini) s fun t => t.rd F.CHW_CTX_CMD_SPILL cid = 1 ∧
          (∀ v, v < 16 → s.rd I.mapLvl (16 * cid + v) = 1 → t.rd I.mapLvl (16 * cid + v) = 3 ∧ t.rd I.mapMove (16 * cid + v) = 1) ∧
          OnlyCells s t ((F.CHW_CTX_CMD_SPILL, cid) ::
            ((List.range 16).filter fun v => s.rd I.mapLvl (16 * cid + v) == 1).flatMap fun v =>
              [(I.mapLvl, 16 * cid + v), (I.mapMove, 16 * cid + v)])) ∧
        (spillArea s = false → ends (.load ini) F.CHW_CTX_CMD_LOAD 4) ∧
        (spillArea s = true → ¬ at' 2 → ¬ at' 3 → ends (.load ini) F.CHW_CTX_CMD_LOAD 0) ∧
        (spillArea s = true → at' 2 ∨ at' 3 → Puts (.load ini) s [(F.CHW_CTX_CMD_LOAD, cid, 1)])) ∧
      (chwReach s cid = true → Puts (.publish ini) s
        [(F.CHW_CTX_STAT_CTLPEND, cid, 1), (F.CHW_CTX_CMD_PUBLISH, cid, 0), (F.CHW_CTX_CMD_RESULT, cid, 0)]) ∧
      (chwReach s cid = false → Puts (.publish ini) s
        [(F.CHW_CTX_STAT_WERR, cid, 1), (F.CHW_CTX_CMD_PUBLISH, cid, 0), (F.CHW_CTX_CMD_RESULT, cid, 3)]))

/-- CHW_CTL_WRITE writes the word of the next control copy in CST where CHW reaches it, and sets WERR where it does not
(R238, R239).  Below LOW, spilling starts with the coldest context, and ends at HIGH or where none is cold (R235).  A
page in DRAM that someone waits for starts its way back to a free page, or waits or fails for want of room (R236).  Which free page
is taken is a free value (log entry 16). -/
def Obligations.ControlWritesSpillsAndReloads : Prop :=
  (∀ (s : State) (ini : Init) (k cid : Nat) (w : BitVec 7) (v : Word), s.fabric = true → selCopy ini = some k →
    s.rd F.CHW_SELECT_INDEX k = cid → cid < 32768 →
      (chwReach s cid = false → Puts (.chwCtlWrite ini w v) s [(F.CHW_CTX_STAT_WERR, cid, 1)]) ∧
      (chwReach s cid = true → ((frames s).filter fun i => holds s i cid 0) = [] → bankMode s (s.rd I.mapPage (16 * cid) / 2048) ≠ 1 →
        Does (.chwCtlWrite ini w v) s fun t =>
          let a := 4096 * s.rd I.mapPage (16 * cid) + 0x200 + 4 * w.toNat
          t.readLE a 4 = v.toNat ∧ (∀ x, x < a ∨ a + 4 ≤ x → t.byte x = s.byte x) ∧ t = { s with mem := t.mem })) ∧
  (∀ s : State,
    (s.fabric = false ∨ maySpill s = false → Puts .spillPressure s [(I.spillRun, 0, 0)]) ∧
    (s.fabric = true → maySpill s = true →
      (s.rd F.CPG_SPILLCFG_LOW ≤ freePages s → s.rd I.spillRun = 0 → exec .spillPressure s = .next s) ∧
      (freePages s < s.rd F.CPG_SPILLCFG_LOW → freePages s < s.rd F.CPG_SPILLCFG_HIGH →
        (coldest s none = none → Does .spillPressure s fun t => t.rd I.spillRun = 0 ∧ OnlyCells s t [(I.spillRun, 0)]) ∧
        ∀ cid, coldest s none = some cid → Does .spillPressure s fun t => t.rd I.spillRun = 1 ∧
          (∀ v, v < 16 → s.rd I.mapLvl (16 * cid + v) = 1 → t.rd I.mapLvl (16 * cid + v) = 3 ∧ t.rd I.mapMove (16 * cid + v) = 1) ∧
          OnlyCells s t ((I.spillRun, 0) :: ((List.range 16).filter fun v => s.rd I.mapLvl (16 * cid + v) == 1).flatMap fun v =>
            [(I.mapLvl, 16 * cid + v), (I.mapMove, 16 * cid + v)])) ∧
      (s.rd I.spillRun = 1 → s.rd F.CPG_SPILLCFG_LOW ≤ freePages s → s.rd F.CPG_SPILLCFG_HIGH ≤ freePages s →
        Puts .spillPressure s [(I.spillRun, 0, 0)]))) ∧
  ∀ (s : State) (cid : BitVec 15) (v : Fin 16),
    let c := cid.toNat
    let e := 16 * c + v.val
    let asked := wanted s c v.val = true ∨ s.rd F.CHW_CTX_CMD_LOAD c = 1
    let room := fitsNow s 1 (s.rd I.ctxPool c) = true ∧ inflight s < 1024
    (s.rd I.mapLvl e ≠ 2 ∨ ¬ asked → exec (.pageReload cid v) s = .next s) ∧
    (s.fabric = true → s.rd I.mapLvl e = 2 → spillArea s = true → asked →
      (room → (∃ n, n < 32768 ∧ bankOk s (n / 2048) = true ∧ s.rd I.pgUse n = 0 ∧ s.rd I.pgBad n = 0) →
        Does (.pageReload cid v) s fun t => t.rd I.mapLvl e = 3 ∧ t.rd I.mapMove e = 2 ∧ t.rd F.CPG_STAT_RELOADWAIT = 0 ∧ t.mem = s.mem ∧
          ∃ n, n < 32768 ∧ bankOk s (n / 2048) = true ∧ s.rd I.pgUse n = 0 ∧ s.rd I.pgBad n = 0 ∧ t.rd I.mapPage e = n) ∧
      (¬ room → maySpill s = false → spilling s = [] →
        (wanted s c v.val = true → Puts (.pageReload cid v) s [(F.CPG_STAT_RELOADWAIT, 0, 1), (F.CPG_IRQSTAT_RELOADWAIT, 0, 1)]) ∧
        (wanted s c v.val = false → Puts (.pageReload cid v) s [(F.CHW_CTX_CMD_LOAD, c, 0), (F.CHW_CTX_CMD_RESULT, c, 1)])))

/-- Staging and write-back: a set of one page that is in CST takes the frame that the order of R224 gives, its transfer in
flight; a completed transfer copies the page from CST and counts; a core's frames that await write-back start; a
completed write-back copies the frame to CST, but for offsets 0x200–0x3FF of page 0, leaves the frame CACHED and clean
and counts (R223, R224, R227, R230).  A page that has moved between CST and DRAM takes its new level (R235, R236). -/
def Obligations.FramesAreStagedAndWrittenBack : Prop :=
  (∀ (s : State) (c : Fin 64), s.serving = true → s.nonzero I.tProv = [] →
    (nextTask s c.val = none → exec (.setStage c) s = .next s) ∧
    ∀ (t : Nat) (v : Fin 16) (i : Nat), nextTask s c.val = some t → setCtx s t = true → s.rd I.stCore t = 0 →
      cluSt s (c.val / 8) ≠ clPWROFF → s.rd F.CLU_STAT_DRAINWB (c.val / 8) = 0 → setPages s t = [v.val] →
      lvl s (nextCid s t) v.val = 1 → stagingWaits s t (nextCid s t) v.val = false → cachedCopy s c.val (nextCid s t) v.val = none →
      chooseFrame s c.val (s.rd I.mapMem (16 * nextCid s t + v.val)) [] (reserveOk s c.val) = some i → inflight s < 1024 → t < 65536 →
        Does (.setStage c) s fun u => u.rd F.CPG_FRAME_STATE i = fSTAGED ∧ u.rd F.CPG_FRAME_CID i = nextCid s t ∧
          u.rd F.CPG_FRAME_VPAGE i = v.val ∧ u.rd I.frOwner i = t + 1 ∧ u.rd I.frIn i = 1 ∧ u.rd I.stSet t = 2 ^ v.val ∧
          u.rd I.stCore t = c.val + 1 ∧
          OnlyCells s u [(F.CPG_FRAME_STATE, i), (F.CPG_FRAME_DIRTY, i), (F.CPG_FRAME_VPAGE, i), (F.CPG_FRAME_CID, i), (I.frOwner, i),
            (I.frIn, i), (I.frOut, i), (I.frLru, i), (I.useSeq, 0), (I.jCv, t), (I.jCid, t), (I.stSet, t), (I.stCore, t)]) ∧
  ∀ (s : State) (c : Fin 64) (f : Fin 16), let i := 16 * c.val + f.val
    let cid := s.rd F.CPG_FRAME_CID i
    let v := s.rd F.CPG_FRAME_VPAGE i
    let a := 4096 * s.rd I.mapPage (16 * cid + v)
    let awake := bankMode s (a / 0x800000) ≠ 1
    (s.rd I.frIn i = 0 → exec (.pageTransferDone (.frame c f)) s = .next s) ∧
    (s.rd I.frIn i = 1 → awake → s.rd F.CPG_STAGECNT_COUNT + 2 < 2 ^ 32 → (s.rd I.frOwner i = 0 ∨ taskSt s (s.rd I.frOwner i - 1) ≠ tRUNNING) →
      exec (.pageTransferDone (.frame c f)) s = .next (puts (s.copyMem a (frameAddr i) 4096)
        [(I.frIn, i, 0), (F.CPG_STAGECNT_COUNT, 0, s.rd F.CPG_STAGECNT_COUNT + 1)])) ∧
    (∀ (d : BitVec 15) (p : Fin 16), s.rd I.mapMove (16 * d.toNat + p.val) = 0 →
      exec (.pageTransferDone (.dram d p)) s = .next s) ∧
    (∀ (d : BitVec 15) (p : Fin 16), s.rd I.mapMove (16 * d.toNat + p.val) = 2 → s.rd F.CHW_CTX_CMD_LOAD d.toNat = 0 →
      s.rd F.CHW_CTX_CMD_SPILL d.toNat = 0 → s.rd F.CHW_CTX_CMD_RELEASE d.toNat = 0 → s.nonzero F.CHW_CTX_CMD_ALLOC = [] →
      (∀ j, j < 64 → s.rd I.cJob j = 0) → s.rd F.CPG_RELOADCNT_COUNT + 2 < 2 ^ 32 →
      let e := 16 * d.toNat + p.val
      let b := 4096 * s.rd I.mapPage e
      bankMode s (b / 0x800000) ≠ 1 → exec (.pageTransferDone (.dram d p)) s = .next
        (puts (s.copyMem (s.rd F.CPG_SPILLBASE_BASE * 65536 + 4096 * e) b 4096)
          [(I.mapLvl, e, 1), (I.mapMove, e, 0), (F.CPG_RELOADCNT_COUNT, 0, s.rd F.CPG_RELOADCNT_COUNT + 1)])) ∧
    (inflight s + 16 ≤ 1024 → Does (.writebackStart c 0) s fun t => (∀ k, k < 16 →
        t.rd I.frOut (16 * c.val + k) = if frSt s (16 * c.val + k) = fWBPEND then 1 else s.rd I.frOut (16 * c.val + k)) ∧
      OnlyCells s t ((List.range 16).map fun k => (I.frOut, 16 * c.val + k))) ∧
    (s.rd I.frOut i = 0 → exec (.writebackDone c f) s = .next s) ∧
    (s.rd I.frOut i = 1 → frSt s i = fWBPEND → i % 8 ≠ 7 → awake → (∀ j ∈ frames s, j ≠ i → holds s j cid v = false) →
      s.rd F.CPG_WBCNT_COUNT + 2 < 2 ^ 32 → (∀ d, d < 64 → s.rd I.cJob d = 0) →
      exec (.writebackDone c f) s = .next (puts (if v = 0 then
          (s.copyMem (frameAddr i) a 0x200).copyMem (frameAddr i + 0x400) (a + 0x400) 0xC00 else s.copyMem (frameAddr i) a 4096)
        [(F.CPG_FRAME_DIRTY, i, 0), (I.frOut, i, 0), (I.mapDirty, 16 * cid + v, 0), (F.CPG_FRAME_STATE, i, fCACHED),
         (F.CPG_FRAME_DIRTY, i, 0), (I.frOwner, i, 0), (I.frLru, i, s.rd I.useSeq), (I.useSeq, 0, s.rd I.useSeq + 1),
         (F.CPG_WBCNT_COUNT, 0, s.rd F.CPG_WBCNT_COUNT + 1)]))

/-- What CPG_ECCREC and CPG_ECCADDR take from an uncorrectable error: the first one is kept (R245). -/
def Sys2Proof.Safety.eccRecorded (s : State) (a mem cv cid : Nat) : List (Fld × Nat × Nat) :=
  if s.rd F.CPG_ECCREC_VALID = 0 then
    [(F.CPG_ECCREC_VALID, 0, 1), (F.CPG_ECCREC_MEM, 0, mem), (F.CPG_ECCREC_CV, 0, cv), (F.CPG_ECCREC_CID, 0, cid),
     (F.CPG_ECCADDR_LO_ADDR, 0, a / 8 * 8), (F.CPG_ECCADDR_HI_ADDR, 0, a / 8 * 8 / 2 ^ 32), (F.CPG_IRQSTAT_ECCUNC, 0, 1)]
  else [(F.CPG_ECCREC_OVF, 0, 1), (F.CPG_IRQSTAT_ECCUNC, 0, 1)]

/-- Errors of the memories, while none of them is a Milestone trigger: an uncorrectable word of PKS or SYM is recorded;
of a free CST page, the page is retired; of a page of a context that no task, frame or DMA channel uses, the context is
quarantined; of DRAM read by another than CPG, DMC records it (R245, R246, R248).  A scrubbed page counts the words it
corrects (R245).  The first parity error of a running job retires the frame and returns the job to the head of its level
(R247). -/
def Obligations.MemoryErrorsAreContained : Prop :=
  ∀ s : State, bitOf (s.rd F.MLS_ERRSEL_SEL) 3 = false → bitOf (s.rd F.MLS_ERRSEL_SEL) 4 = false → bitOf (s.rd F.MLS_ERRSEL_SEL) 5 = false →
    (s.fabric = true →
      (∀ a : PAddr, let n := a.toNat / 4096
        (0x10000000 ≤ a.toNat ∧ a.toNat < 0x12000000 → Puts (.eccUncorrectable a (.init .host)) s (eccRecorded s a.toNat 1 0 0)) ∧
        (0x20000000 ≤ a.toNat ∧ a.toNat < 0x20800000 → Puts (.eccUncorrectable a (.init .host)) s (eccRecorded s a.toNat 2 0 0)) ∧
        (a.toNat < 0x8000000 → s.rd I.pgUse n = 0 → s.rd I.pgBad n = 0 → Puts (.eccUncorrectable a (.init .host)) s
          (eccRecorded s a.toNat 0 0 0 ++ [(I.pgBad, n, 1), (I.bankBusy, n / 2048, s.rd I.bankBusy (n / 2048) + 1), (F.CPG_IRQSTAT_RETIRE, 0, 1)])) ∧
        (∀ e, a.toNat < 0x8000000 → s.rd I.pgUse n = e + 1 → ctxState s (e / 16) ≠ cQUAR → frames s = [] → tasks s = [] →
          (∀ d, d < 32 → dmaActive s d = false) → s.rd F.CPG_QUARREC_VALID = 0 → Puts (.eccUncorrectable a (.init .host)) s
            (eccRecorded s a.toNat 0 1 (e / 16) ++ [(F.CHW_CTX_STAT_STATE, e / 16, cQUAR), (F.CPG_QUARREC_VALID, 0, 1),
              (F.CPG_QUARREC_CID, 0, e / 16), (F.CPG_IRQSTAT_QUAR, 0, 1)])) ∧
        (0x100000000 ≤ a.toNat ∧ a.toNat < 0x900000000 → s.rd F.DMC_ECCUNC_COUNT + 2 < 2 ^ 32 → s.rd F.DMC_ERRADDR_HI_VALID = 0 →
          Puts (.eccUncorrectable a (.init .host)) s [(F.DMC_ECCUNC_COUNT, 0, s.rd F.DMC_ECCUNC_COUNT + 1), (F.DMC_IRQSTAT_ECCUNC, 0, 1),
            (F.DMC_ERRADDR_HI_VALID, 0, 1), (F.DMC_ERRADDR_HI_ADDR, 0, a.toNat / 8 * 8 / 2 ^ 32), (F.DMC_ERRADDR_LO_ADDR, 0, a.toNat / 8 * 8)])) ∧
      (∀ (bad : Bool) (w : BitVec 9) (n : Nat), s.rd F.CPG_SCRUB_EN = 0 → exec (.scrubPage bad w n) s = .next s) ∧
      ∀ (w : BitVec 9) (n : Nat), s.rd F.CPG_SCRUB_EN = 1 → s.rd F.CPG_ECCCOR_COUNT + n + 1 < 2 ^ 32 →
        Puts (.scrubPage false w n) s [(I.scrubPage, 0, s.rd I.scrubPage + 1), (F.CPG_ECCCOR_COUNT, 0, s.rd F.CPG_ECCCOR_COUNT + n)]) ∧
    ∀ (c : Fin 64) (f : Fin 16) (t : Nat), let i := 16 * c.val + f.val
      (s.rd I.cJob c.val = 0 ∨ s.rd I.frBad i = 1 → exec (.frameParityError c f) s = .next s) ∧
      (s.serving = true → s.rd I.frBad i = 0 → s.rd I.cJob c.val = t + 1 → s.rd I.jCancel t = 0 → s.rd I.jRetry t = 0 →
        s.rd F.TSU_CTRL_RUN = 0 → Does (.frameParityError c f) s fun u =>
          u.rd F.CPG_IRQSTAT_PARITY = 1 ∧ u.rd F.CPG_IRQSTAT_RETIRE = 1 ∧ u.rd I.frBad i = 1 ∧ u.rd I.cJob c.val = 0 ∧
          u.rd I.waiting c.val = 1 ∧ taskSt u t = tREADY ∧ u.rd F.TSU_T_STAT_RESUME t = 1 ∧ u.rd I.jRetry t = 1 ∧
          u.rd I.tPos t = s.rd I.ordHead ∧ inFlight u (rbank s c.val) = [] ∧ bundleOf u c.val = Bundle.empty ∧
          SameOtherCells s u [F.CPG_PARCNT_COUNT, F.CPG_IRQSTAT_CNTOVF, F.CPG_IRQSTAT_PARITY, F.CPG_IRQSTAT_RETIRE, I.frBad,
            F.CPG_FRAME_STATE, F.CPG_FRAME_DIRTY, F.CPG_FRAME_VPAGE, F.CPG_FRAME_CID, I.frOwner, I.frIn, I.frOut, I.cJob, I.waiting,
            I.qstall, I.swPend, I.bankJob, I.stSet, I.stCore, I.jRetry, F.TSU_T_STAT_CVALID, F.TSU_T_STAT_STATE, F.TSU_T_STAT_RESUME,
            I.tLvl, I.tPos, I.ordHead])

/-! ## DMA channels, the DDR5 controller and the queues (chapters 7 and 8) -/

/-- The cells that a GO gives their values: the channel's registers as taken, its state and its class. -/
def Sys2Proof.Safety.goCells (n : Nat) : List (Fld × Nat) :=
  [(F.DMA_C_CTL_SPHYS, n), (F.DMA_C_CTL_DPHYS, n), (F.DMA_C_CTL_SIG, n), (F.DMA_C_CTL_IRQ, n), (I.dSrc, n), (I.dDst, n), (I.dLen, n),
   (I.dCtx, n), (I.dCmpl, n), (I.dMode, n), (F.DMA_C_STAT_CLASS, n), (F.DMA_C_OFS_OFS, n), (F.DMA_C_STAT_ERR, n), (F.DMA_C_STAT_STATE, n)]

/-- DMA and DMC.  GO takes the channel's registers and the writer's class and begins at OFS = 0, ends in ERROR with ALIGN
on a misaligned value or in DONE on a length of 0, and is only stored while the channel runs or waits; ABORT ends a channel
in RUN or WAIT and leaves OFS (R241, R243).  A burst between physical addresses of SYM copies up to 256 bytes within a page on
either side, moves OFS past them, and ends the channel in DONE at LEN; of a page that is not present it ends in
ERROR (R242, R243).  A waiting channel goes on when its page is ready (R242).  DMC INIT starts training, which ends in READY or
in TRAINERR and the step (R250).  In the endings the channel asks for no completion flags.  That the array reads as unwritten after
an INIT without RESUME is the model's choice (log entry 40). -/
def Obligations.DmaCopiesAndDramTrains : Prop :=
  (∀ (s : State) (ini : Init) (n : Fin 32), s.fabric = true →
    let ended := fun st err => [(F.DMA_C_STAT_STATE, n.val, st), (F.DMA_C_STAT_ERR, n.val, err), (I.dWait, n.val, 0)]
    let irq := [(F.DMA_IRQSTAT_CH, 0, setBit (s.rd F.DMA_IRQSTAT_CH) n.val)]
    let ctl := fun v : Word => [(F.DMA_C_CTL_SPHYS, n.val, bitN v.toNat 3), (F.DMA_C_CTL_DPHYS, n.val, bitN v.toNat 2),
      (F.DMA_C_CTL_SIG, n.val, bitN v.toNat 1), (F.DMA_C_CTL_IRQ, n.val, bitN v.toNat 0)]
    let src := sideAddr s F.DMA_C_SRC_LO_ADDR F.DMA_C_SRC_HI_ADDR n.val
    let dst := sideAddr s F.DMA_C_DST_LO_ADDR F.DMA_C_DST_HI_ADDR n.val
    let len := s.rd F.DMA_C_LEN_LEN n.val
    let took := fun (v : Word) (t : State) => t.rd I.dSrc n.val = src ∧ t.rd I.dDst n.val = dst ∧ t.rd I.dLen n.val = len ∧
      t.rd I.dMode n.val = v.toNat % 16 ∧ t.rd F.DMA_C_STAT_CLASS n.val = dmaClass s ini ∧ t.rd F.DMA_C_OFS_OFS n.val = 0
    (∀ v : Word, dmaActive s n.val = true → bitOf v.toNat 30 = false → Puts (.dmaGo ini n v) s (ctl v)) ∧
    (∀ v : Word, dmaActive s n.val = false → bitOf v.toNat 31 = false → Puts (.dmaGo ini n v) s (ctl v)) ∧
    (∀ v : Word, dmaActive s n.val = false → bitOf v.toNat 31 = true →
      let aligned := src % 4 = 0 ∧ dst % 4 = 0 ∧ len % 4 = 0
      (aligned → len ≠ 0 → Does (.dmaGo ini n v) s fun t => took v t ∧ t.rd F.DMA_C_STAT_STATE n.val = dRUN ∧
        t.rd F.DMA_C_STAT_ERR n.val = 0 ∧ OnlyCells s t (goCells n.val)) ∧
      (aligned → len = 0 → bitOf v.toNat 1 = false → Does (.dmaGo ini n v) s fun t => took v t ∧ t.rd F.DMA_C_STAT_STATE n.val = dDONE ∧
        t.rd F.DMA_C_STAT_ERR n.val = 0 ∧ OnlyCells s t (goCells n.val ++ [(I.dWait, n.val), (F.DMA_IRQSTAT_CH, 0)])) ∧
      (¬ aligned → bitOf v.toNat 1 = false → Does (.dmaGo ini n v) s fun t => took v t ∧ t.rd F.DMA_C_STAT_STATE n.val = dERROR ∧
        t.rd F.DMA_C_STAT_ERR n.val = 5 ∧ t.rd F.DMA_IRQSTAT_CH = setBit (s.rd F.DMA_IRQSTAT_CH) n.val ∧
        OnlyCells s t (goCells n.val ++ [(I.dWait, n.val), (F.DMA_IRQSTAT_CH, 0)]))) ∧
    (dmaActive s n.val = false → exec (.dmaAbort ini n) s = .next s) ∧
    (dmaActive s n.val = true → bitOf (s.rd I.dMode n.val) 1 = false → Puts (.dmaAbort ini n) s (ended dABORTED 0 ++ irq)) ∧
    (s.rd F.DMA_C_STAT_STATE n.val ≠ dWAIT → exec (.dmaResume n) s = .next s) ∧
    (s.rd F.DMA_C_STAT_STATE n.val = dWAIT → let e := s.rd I.dWait n.val - 1
      dmaMustWait s (e / 16) (e % 16) = false → Puts (.dmaResume n) s [(F.DMA_C_STAT_STATE, n.val, dRUN), (I.dWait, n.val, 0)]) ∧
    (s.rd F.DMA_C_STAT_STATE n.val ≠ dRUN → exec (.dmaBurst n) s = .next s) ∧
    (s.rd F.DMA_C_STAT_STATE n.val = dRUN → bitOf (s.rd I.dMode n.val) 1 = false →
      let ofs := s.rd F.DMA_C_OFS_OFS n.val
      let a := s.rd I.dSrc n.val + ofs
      let b := s.rd I.dDst n.val + ofs
      let m := burstLen a b (s.rd I.dLen n.val - ofs)
      let inSym := fun x => 0x20000000 ≤ x ∧ x + m ≤ 0x20800000 ∧ x % 4 = 0
      (bitOf (s.rd I.dMode n.val) 3 = true → bitOf (s.rd I.dMode n.val) 2 = true → inSym a → inSym b → s.rd I.dLen n.val % 4 = 0 →
        ofs ≤ s.rd I.dLen n.val → ofs % 4 = 0 → sideEnding s n a true false = .ok → sideEnding s n b true true = .ok →
        Does (.dmaBurst n) s fun t => (∀ x, t.byte x = if b ≤ x ∧ x < b + m then s.byte (a + (x - b)) else s.byte x) ∧
          t.rd F.DMA_C_OFS_OFS n.val = ofs + m ∧ t.rd F.DMA_C_STAT_STATE n.val = (if s.rd I.dLen n.val ≤ ofs + m then dDONE else dRUN) ∧
          t = { s with cells := t.cells, mem := t.mem } ∧
          SameOtherCells s t [I.linkV, I.txWr, I.txWrC, F.DMA_C_OFS_OFS, F.DMA_C_STAT_STATE, F.DMA_C_STAT_ERR, I.dWait, F.DMA_IRQSTAT_CH]) ∧
      (bitOf (s.rd I.dMode n.val) 3 = false → a < 0x10000 → bitOf (s.rd I.dCtx n.val) 15 = true →
        let cid := s.rd I.dCtx n.val % 32768
        ctxState s cid ≠ cQUAR → notPresent s cid (a / 4096) = true → Puts (.dmaBurst n) s (ended dERROR 2 ++ irq))) ∧
    (s.rd I.dmcTrain = 0 → Does (.dmcInit ini) s fun t => t.rd F.DMC_STAT_READY = 0 ∧ t.rd F.DMC_STAT_TRAINERR = 0 ∧
      t.rd F.DMC_STAT_STEP = 0 ∧ t.rd I.dmcTrain = 1 ∧ t.rd I.dmcSelfRef = 0 ∧
      (s.rd F.DMC_CTRL_RESUME = 1 → t.mem = s.mem) ∧ (∀ x, x < 0x100000000 ∨ 0x900000000 ≤ x → t.byte x = s.byte x) ∧
      SameOtherCells s t [F.DMC_STAT_READY, F.DMC_STAT_TRAINERR, F.DMC_STAT_STEP, F.DMC_STAT_INSR, F.DMC_CTRL_INIT, F.DMC_CTRL_RESUME,
        F.DMC_CTRL_SELFREF, I.dmcTrain, I.dmcSelfRef])) ∧
  ∀ (s : State) (ok : Bool) (step : BitVec 4),
    (s.rd I.dmcTrain = 0 → exec (.dmcTrainDone ok step) s = .next s) ∧
    (s.fabric = true → s.rd I.dmcTrain = 1 → Puts (.dmcTrainDone ok step) s ([(I.dmcTrain, 0, 0), (F.DMC_CTRL_INIT, 0, 0)] ++
      if ok then [(F.DMC_STAT_READY, 0, 1), (F.DMC_STAT_STEP, 0, 6)]
      else [(F.DMC_STAT_TRAINERR, 0, 1), (F.DMC_IRQSTAT_TRAINERR, 0, 1), (F.DMC_STAT_STEP, 0, step.toNat)]))

/-- Queues.  A swap makes the complete items the consumer bank, keeps the words of the item in progress, and accesses wait
for its end (R257).  FLUSH waits for the end of the item in progress, its flush point, and discards every item complete by
then once the consumer is between items; while a flush is pending, FLUSH has no effect (R264, R266).  RESET discards everything at
once (R265).  No other queue changes. -/
def Obligations.QueuesSwapFlushAndReset : Prop :=
  ∀ (s : State) (q : BitVec 8), s.fabric = true →
    let x := s.queue q.toNat
    let becomes := fun (i : Instr) (y : Queue) => Does i s fun t => t.queue q.toNat = y ∧
      (∀ r, r ≠ q.toNat → t.queue r = s.queue r) ∧ t = { s with queues := t.queues }
    (x.cons ≠ [] ∨ x.complete = [] ∨ x.swap = true → exec (.queueSwap q) s = .next s) ∧
    (x.cons = [] → x.complete ≠ [] → x.swap = false →
      x.complete ++ x.partialWords = x.prod ∧ (∀ w ∈ x.partialWords, w.last = false) ∧ x.complete.getLast?.map (·.last) = some true ∧
      becomes (.queueSwap q) { x with cons := x.complete, prod := x.partialWords, swap := true }) ∧
    becomes (.queueSwapDone q) { x with swap := false } ∧
    (∀ ini : Init, becomes (.queueReset ini q) Queue.empty ∧
      (x.flush = true → exec (.queueFlush ini q) s = .next s) ∧
      (x.flush = false → x.partialWords = [] →
        becomes (.queueFlush ini q) { x with flush := true, fixed := true, flushN := x.count }) ∧
      (x.flush = false → x.partialWords ≠ [] →
        becomes (.queueFlush ini q) { x with flush := true, fixed := false, flushN := 0 })) ∧
    (x.flush = false ∨ x.fixed = false ∨ x.reader ≠ 0 → exec (.queueFlushDone q) s = .next s) ∧
    (x.flush = true → x.fixed = true → x.reader = 0 →
      let inCons := (x.cons.filter (·.last)).length
      becomes (.queueFlushDone q) { x with cons := dropItems (min x.flushN inCons) x.cons, prod := dropItems (x.flushN - inCons) x.prod,
                                           flush := false, fixed := false, flushN := 0 })

/-! ## Voice channels (chapters 9 to 11) -/

/-- STS_STATE once a presented command is taken: ACKSEQ = CMDSEQ and LASTCMD = CMD (R286). -/
def Sys2Proof.Safety.takenWord (s : State) (i : Nat) : Nat :=
  putField (putField (mw s i 0x400) 31 24 (bits (mw s i 0) 31 24)) 19 16 (bits (mw s i 0) 19 16)

/-- The commands of a channel, each with the code CTL_CMD.CMD gives it. -/
def Sys2Proof.Safety.channelCommands (c : Fin 64) (w : Word) : List (Instr × Nat) :=
  [(.activate c w, 1), (.hold c, 2), (.resume c w, 3), (.stop c, 4), (.mark c, 5), (.rewind c, 6), (.clrstats c, 7)]

/-- The states that the commands of a channel that depend on its state allow (R283, R286). -/
def Sys2Proof.Safety.commandAllowed (cmd st : Nat) : Prop :=
  match cmd with
  | 1 => st = chALLOCATED
  | 2 => st = chACTIVE
  | 3 => st = chHELD
  | 4 => st = chARMED ∨ st = chACTIVE ∨ st = chHELD
  | _ => True

/-- A presented command of a channel is taken once, by its block program alone: ACKSEQ, LASTCMD, then the effect, then
CMDRES.  In a state that does not allow it the answer is REFUSED,
and ACTIVATE or RESUME of a bad configuration is answered BADCFG; nothing else changes.  ACTIVATE of a valid
configuration gives ARMED, or ACTIVE at START, with codecs, level banks and shapes taken; HOLD gives HELD; RESUME ACTIVE; STOP
ALLOCATED; MARK sets the mark at WIDX; REWIND fails with NOMARK, MARKLOST or BUSY or starts the copy; CLRSTATS clears the
counters (R281, R283, R286, R288, R300, R301).  An ARMED channel becomes ACTIVE at START (R283).

REWIND_DONE copies the records from the mark, oldest first, into the capture buffer, and sets DONE and COUNT (R301), where the
buffers lie apart.  JB_FILE drops a packet that is late or a duplicate and counts it; otherwise it writes payload and slot
header into slot s mod LEN, counts FILED and raises HSEQ; at the filing that passes slot 0, a length requested is taken first,
here with no packet in the slots it loses (R293–R295).  The words of working state are the model's choice (log entry 35). -/
def Obligations.ChannelsFollowCommandsAndPackets : Prop :=
  (∀ (s : State) (c : Fin 64) (w : Word),
    (mediaPage s c.val = none → (∀ p ∈ channelCommands c w, exec p.1 s = .next s) ∧ exec (.channelStart c w) s = .next s) ∧
    ∀ i, mediaPage s c.val = some i →
      (∀ p ∈ channelCommands c w, bits (mw s i 0) 19 16 ≠ p.2 ∨ cmdPending s i = false → exec p.1 s = .next s) ∧
      (chanState s i ≠ chARMED ∨ startDue s i w.toNat = false → exec (.channelStart c w) s = .next s) ∧
      (chanState s i = chARMED → startDue s i w.toNat = true →
        Does (.channelStart c w) s fun t => Words s t i [(0x400, putField (mw s i 0x400) 3 0 chACTIVE)]) ∧
      (cmdPending s i = true →
        let cmd := bits (mw s i 0) 19 16
        let st := chanState s i
        let answer := fun r => putField (takenWord s i) 23 20 r
        let moved := fun st => putField (putField (takenWord s i) 3 0 st) 23 20 0
        let codecs := [(0x500, putField (putField (mw s i 0x500) 31 28 (bits (mw s i 0x100) 31 28)) 11 8 0), (0x610, mw s i 0x100), (0x618, 0),
          (0x504, putField (putField (mw s i 0x504) 31 28 (bits (mw s i 0x108) 31 28)) 11 8 0), (0x614, mw s i 0x108), (0x61C, 0), (0x628, 0)]
        (∀ p ∈ channelCommands c w, cmd = p.2 → ¬ commandAllowed cmd st → Does p.1 s fun t => Words s t i [(0x400, answer 1)]) ∧
        ((cmd = 1 ∧ st = chALLOCATED) ∨ (cmd = 3 ∧ st = chHELD) → badCfg s i = true → popcount 16 (Nat.land (pagesNeeded s i) 0x7FFF) ≤ 8 →
          Does (if cmd = 1 then .activate c w else .resume c w) s fun t => Words s t i [(0x400, answer 5)]) ∧
        (cmd = 1 → st = chALLOCATED → badCfg s i = false → faxMode s i ≠ 2 → (∀ k, k < 4 → mw s i (0x184 + 4 * k) % 256 = 0) →
          Does (.activate c w) s fun t => mw t i 0x400 = moved (if startDue s i w.toNat then chACTIVE else chARMED) ∧
            (∀ p ∈ codecs, mw t i p.1 = p.2) ∧ (∀ k, k < 4 → mw t i (0x670 + 4 * k) = mw s i (0x184 + 4 * k)) ∧
            (∀ r, lvlBit t i r 3 = lvlTarget s i r ∧ lvlBit t i r 2 = false ∧ lvlLast t i r = lvlTarget s i r) ∧
            OnlyWords s t i ([0x400, 0x544, 0x660, 0x670, 0x674, 0x678, 0x67C] ++ codecs.map (·.1))) ∧
        (cmd = 2 → st = chACTIVE → (∀ r, lvlBit s i r 2 = false) → Does (.hold c) s fun t =>
          Words s t i [(0x400, moved chHELD), (0x480, putField (mw s i 0x480) 20 20 0), (0x640, 0)]) ∧
        (cmd = 3 → st = chHELD → badCfg s i = false → faxMode s i ≠ 2 → Does (.resume c w) s fun t =>
          Words s t i ((0x400, moved chACTIVE) :: codecs)) ∧
        (cmd = 4 → commandAllowed 4 st → Does (.stop c) s fun t => Words s t i [(0x400, moved chALLOCATED)]) ∧
        (let widx := bits (mw s i 0x418) 14 0
         cmd = 5 → Does (.mark c) s fun t => Words s t i [(0x400, answer 0), (0x418, 2 ^ 31 + widx * 65536 + widx),
           (0x410, putField (mw s i 0x410) 30 30 0), (0x600, putField (putField (mw s i 0x600) 0 0 1) 1 1 0)]) ∧
        (cmd = 6 → ∀ r, (markEver s i = false ∧ r = 3) ∨ (markEver s i = true ∧ bitOf (mw s i 0x418) 31 = false ∧ r = 4) ∨
            (markEver s i = true ∧ bitOf (mw s i 0x418) 31 = true ∧ bitOf (mw s i 0x41C) 31 = true ∧ r = 6) →
          Does (.rewind c) s fun t => Words s t i [(0x400, answer r)]) ∧
        (cmd = 6 → markEver s i = true → bitOf (mw s i 0x418) 31 = true → bitOf (mw s i 0x41C) 31 = false →
          Does (.rewind c) s fun t => Words s t i [(0x400, answer 0), (0x604, rewSpan s i), (0x41C, 2 ^ 31)]) ∧
        (cmd = 7 → Does (.clrstats c) s fun t => Words s t i ((0x400, answer 0) :: statOffsets.map fun o => (o, 0))))) ∧
  ((∀ (s : State) (c : Fin 64),
    (mediaPage s c.val = none → exec (.rewindDone c) s = .next s) ∧
    ∀ i, mediaPage s c.val = some i →
      (bitOf (mw s i 0x41C) 31 = false → exec (.rewindDone c) s = .next s) ∧
      (let n := mw s i 0x604
       let m := recSize s i
       bitOf (mw s i 0x41C) 31 = true → n < 32768 →
        (capAddr s i n ≤ rrAddr s i 0 ∨ rrAddr s i (rrLen s i) ≤ capAddr s i 0) →
        Does (.rewindDone c) s fun t => mw t i 0x41C = 2 ^ 30 + n ∧
          (∀ k x, k < n → x < m → t.byte (capAddr s i k + x) = s.byte (rrAddr s i ((bits (mw s i 0x418) 30 16 + k) % rrLen s i) + x)) ∧
          (∀ x, (x < capAddr s i 0 ∨ capAddr s i n ≤ x) → (x < frameAddr i + 0x41C ∨ frameAddr i + 0x420 ≤ x) → t.byte x = s.byte x))) ∧
  ∀ (s : State) (ofs : BitVec 19) (seq : BitVec 16) (marker : Bool) (pt : BitVec 7) (ts arrival : Word) (payload : List Byte),
    let h := jbHeader ofs.toNat
    let k := Instr.jbFile ofs seq marker pt ts arrival payload
    let len := jb16 s h 4
    let req := jb16 s h 0
    let i := seq.toNat % len
    let hseq := jb16 s h 8
    let newH := if 0 < diff16 seq.toNat hseq then seq.toNat else hseq
    let resizes := newH % len < hseq % len ∧ req ≠ len ∧ jbLenOk req = true
    let late := bitOf (s.byte (h + 0xC)).toNat 0 = true ∧ diff16 seq.toNat (jb16 s h 0xA) ≤ 0
    let dup := jbValid s h i = true ∧ jb16 s (jbSlot s h i) 0 = seq.toNat
    let bump := fun off => min (s.readLE (h + off) 4 + 1) (2 ^ 32 - 1)
    (s.fabric = false ∨ s.rd F.PKE_CTRL_RUN = 0 → exec k s = .next s) ∧
    (s.fabric = true → s.rd F.PKE_CTRL_RUN = 1 →
      (jb16 s h 2 < payload.length + 16 → s.rd F.PKE_CNT_COUNT 7 + 2 < 2 ^ 32 → Puts k s [(F.PKE_CNT_COUNT, 7, s.rd F.PKE_CNT_COUNT 7 + 1)]) ∧
      (payload.length + 16 ≤ jb16 s h 2 →
        (late → exec k s = .next (jbPut s (h + 0x14) 4 (bump 0x14))) ∧
        (¬ late → dup → exec k s = .next (jbPut s (h + 0x18) 4 (bump 0x18))) ∧
        (¬ late → ¬ dup → (resizes → ∀ j, req ≤ j → j < len → jbValid s h j = false) →
          Does k s fun t => ∃ len', ((resizes ∧ len' = req ∧ t.readLE (h + 4) 2 = req ∧ t.readLE (h + 6) 2 = len) ∨ (¬ resizes ∧ len' = len)) ∧
            let a := jbSlot s h (seq.toNat % len')
            (∀ x (hx : x < payload.length), t.byte (a + 16 + x) = payload[x]) ∧ t.readLE a 2 = seq.toNat ∧
            (t.byte (a + 2)).toNat = 1 + 2 * b2n marker ∧ (t.byte (a + 3)).toNat = pt.toNat ∧ t.readLE (a + 4) 4 = ts.toNat ∧
            t.readLE (a + 8) 4 = arrival.toNat ∧ t.readLE (a + 12) 2 = payload.length ∧ t.readLE (h + 8) 2 = newH ∧
            t.readLE (h + 0x10) 4 = bump 0x10 ∧
            (∀ x, (x < h + 8 ∨ h + 10 ≤ x) → (x < h + 0x10 ∨ h + 0x14 ≤ x) → (resizes → x < h + 4 ∨ h + 8 ≤ x) →
              (x < a ∨ a + 16 + payload.length ≤ x) → t.byte x = s.byte x) ∧
            SameOtherCells s t [I.linkV, I.txWr, I.txWrC] ∧ t = { s with cells := t.cells, mem := t.mem }))))

/-- The canceller of a channel has been cleared, from s to t (R325, R313): no probation or convergence is left, its estimators are
zero, and outside dense mode its windows lie at 0, 16, … within NWIN and TAIL; other bits of STS_EC0 but CLRSEQ keep. -/
def Sys2Proof.Safety.ecCleared (s t : State) (i : Nat) : Prop :=
  mw t i 0x640 = 0 ∧ mw t i 0x644 = 0 ∧ mw t i 0x648 = 0 ∧ (∀ b ∈ [20, 24, 25], bitOf (mw t i 0x480) b = false) ∧
    (∀ b ∈ [0, 1, 2, 3, 4, 5, 6, 7, 8, 9, 10, 11, 16, 17, 18, 19, 21, 22, 23, 26, 27], bitOf (mw t i 0x480) b = bitOf (mw s i 0x480) b) ∧
    ∀ k, k < 4 →
      (denseAct s i = true → bits (mw t i 0x490) (8 * k + 7) (8 * k) = bits (mw s i 0x490) (8 * k + 7) (8 * k) ∧ winUsed t i k = winUsed s i k) ∧
      (denseAct s i = false →
        let used := decide (k < ecNwin s i ∧ 16 * k + 16 ≤ ecTail s i)
        bits (mw t i 0x490) (8 * k + 7) (8 * k) = (if used then 16 * k else 0xFF) ∧ winUsed t i k = used)

/-- The event ring has taken an entry of a leg's code at its next place (R354): the words it writes, where `w` is the
word at 0x520 before. -/
def Sys2Proof.Safety.ringWords (s : State) (i w : Nat) (legP : Bool) (code : Nat) (more : Nat → Nat) : List (Nat × Nat) :=
  let ix := bits w 2 0
  let seq := (bits w 14 8 + 1) % 128
  [(0x524 + 4 * ix, blockNow s i % 65536 * 65536 + b2n legP * 32768 + seq * 256 + code % 256),
   (0x520, more (putField (putField w 14 8 seq) 2 0 (ix + 1)))]

/-- The commands of canceller, codecs and fax of a channel; each acts on the channel whose block program runs on the core, and
on none elsewhere.  EC_CLEAR and divergence clear the canceller (R319, R325); a recognised tone disables it or its processor as
its mode says, and a release ends both (R322–R324); a codec change is refused with its CODERR or resets the leg's codec (R333,
R337); a fax or modem signal moves the channel to VBD or T.38, and back to voice (R346).  The words of working state are the model's
choice (log entry 35). -/
def Obligations.CancellerCodecsAndFaxFollowSignals : Prop :=
  ∀ (s : State) (c : Fin 64) (kind : Fin 5) (onSin : Bool) (sig : FaxSig),
    (mediaPage s c.val = none → ∀ k ∈ ([.ecClear c, .ecDivergence c, .toneDisable c kind onSin, .toneDisableRelease c, .codecChange c,
      .faxSwitchover c sig, .returnToVoice c] : List Instr), exec k s = .next s) ∧
    ∀ i, mediaPage s c.val = some i →
      let w := fun off => mw s i off
      (bits (w 0x080) 27 24 = bits (w 0x480) 31 28 → exec (.ecClear c) s = .next s) ∧
      (bits (w 0x080) 27 24 ≠ bits (w 0x480) 31 28 → Does (.ecClear c) s fun t => ecCleared s t i ∧
        bits (mw t i 0x480) 31 28 = bits (w 0x080) 27 24 ∧ OnlyWords s t i [0x480, 0x490, 0x640, 0x644, 0x648]) ∧
      (bitOf (w 0x480) 27 = false → exec (.ecDivergence c) s = .next s) ∧
      (bitOf (w 0x480) 27 = true → w 0x4A4 + 2 < 2 ^ 32 → Does (.ecDivergence c) s fun t => ecCleared s t i ∧
        bits (mw t i 0x480) 31 28 = bits (w 0x480) 31 28 ∧ mw t i 0x4A4 = w 0x4A4 + 1 ∧
        OnlyWords s t i [0x480, 0x490, 0x640, 0x644, 0x648, 0x4A4]) ∧
      (let k := Instr.toneDisable c kind onSin
       let mode := bits (w 0x080) 21 20
       let dir := bits (w 0x080) 19 18
       let heard := putField (w 0x480) 11 8 kind.val
       let deaf := kind.val = 0 ∨ ecEn s i = false ∨ dir = 3 ∨ (dir = 1 ∧ onSin = true) ∨ (dir = 2 ∧ onSin = false)
       let whole := kind.val % 2 = 0 ∨ mode = 1
       let only := Does k s fun t => Words s t i [(0x480, heard)]
       (deaf → exec k s = .next s) ∧
       (¬ deaf → mode = 2 ∨ mode = 3 ∨ bitOf (w 0x480) 22 = true → only) ∧
       (¬ deaf → mode ≠ 2 → mode ≠ 3 → bitOf (w 0x480) 22 = false →
         (whole → w 0x4A0 + 2 < 2 ^ 32 → Does k s fun t => Words s t i
           [(0x480, putField (putField heard 20 20 0) 22 22 1), (0x640, 0), (0x4A0, w 0x4A0 + 1)]) ∧
         (¬ whole → bitOf (w 0x480) 21 = true → only) ∧
         (¬ whole → bitOf (w 0x480) 21 = false → w 0x4A0 + 2 < 2 ^ 32 → Does k s fun t => Words s t i
           [(0x480, putField heard 21 21 1), (0x4A0, w 0x4A0 + 1)]))) ∧
      (Does (.toneDisableRelease c) s fun t => Words s t i [(0x480, putField (w 0x480) 22 21 0)]) ∧
      (let renewed := fun l => codErr s i l == 0 && codKey (codWord s i l) != codKey (w (codInForce l))
       let leg := fun l => [(stsCod l, if renewed l then putField (putField (w (stsCod l)) 31 28 (bits (codWord s i l) 31 28)) 11 8 0
           else putField (w (stsCod l)) 11 8 (codErr s i l)),
         (codInForce l, if renewed l then codWord s i l else w (codInForce l)), (codInForce l + 8, if renewed l then 0 else w (codInForce l + 8))]
       Does (.codecChange c) s fun t => Words s t i (leg false ++ leg true)) ∧
      (let k := Instr.faxSwitchover c sig
       let tgt := faxTarget (faxMode s i) (bitOf (w 0x110) 29) (bitOf (w 0x600) 4) sig
       let live := chanState s i = chACTIVE ∨ chanState s i = chMOVING
       (¬ live ∨ tgt = 0 ∨ tgt ≤ faxState s i → exec k s = .next s) ∧
       (live → faxState s i < tgt → w 0x518 + 2 < 2 ^ 32 →
         (tgt = 1 → Does k s fun t => Words s t i [(0x518, w 0x518 + 1), (0x500, putField (putField (w 0x500) 25 24 1) 31 28 (vbdCodec s i)),
           (0x600, if sig = .ansam then putField (w 0x600) 4 4 1 else w 0x600)]) ∧
         (tgt = 2 → Does k s fun t => Words s t i ([(0x518, w 0x518 + 1), (0x500, putField (w 0x500) 25 24 2)] ++
           ringWords s i (w 0x520) false 0x30 fun v => putField (putField v 27 27 0) 26 26 0)))) ∧
      (let stays := faxState s i = 0 ∨ bitOf (w 0x110) 28 = true
       let voice := [(0x500, putField (putField (putField (w 0x500) 25 24 0) 31 28 (bits (w 0x100) 31 28)) 11 8 0),
         (0x600, putField (w 0x600) 4 4 0), (0x610, w 0x100), (0x618, 0)]
       (stays → exec (.returnToVoice c) s = .next s) ∧
       (¬ stays → faxState s i ≠ 2 → Does (.returnToVoice c) s fun t => Words s t i voice) ∧
       (¬ stays → faxState s i = 2 → Does (.returnToVoice c) s fun t =>
         Words s t i (voice ++ ringWords s i (w 0x520) false 0xB0 id)))

/-- The commands of tones and levels of a channel.  A generation command is taken once and replaces the one in progress, or ends it;
GEN_END ends it (R355).  A changed MTSEQ loads the channel's set, the definition in generation and PACEOFS (R351, R353).  A
detected event that is enabled, and a received one, reach the event ring (R354, R356).  A new target bank fades, or is kept for
the fade's end (R361, R362).  A changed bank word or LOADSEQ loads a shape (R359, R360).  The words of working state are the model's
choice (log entry 35). -/
def Obligations.TonesAndLevelsFollowCommands : Prop :=
  ∀ (s : State) (c : Fin 64) (legP received recv : Bool) (code : BitVec 8) (ended : BitVec 7) (bank : Fin 4),
    (mediaPage s c.val = none → ∀ k ∈ ([.genDtmf c, .genCallProgress c, .genStop c, .genEvent c, .genEnd c, .mediaTableReload c,
      .toneEvent c legP received code, .rxEventEnd c ended, .levelBankRequest c recv, .levelFadeEnd c recv, .shapeLoad c bank] : List Instr),
        exec k s = .next s) ∧
    ∀ i, mediaPage s c.val = some i →
      let w := fun off => mw s i off
      (let forms : List (Instr × Bool) := [(.genDtmf c, genKind s i == 0 && genDir s i != 2), (.genCallProgress c, genKind s i == 1 && genDir s i != 2),
         (.genStop c, genKind s i == 2), (.genEvent c, genDir s i == 2 && genKind s i != 2)]
       let taken := putField (putField (putField (w 0x520) 31 28 (bits (w 0x11C) 31 28)) 27 27 0) 26 26 0
       let plays := genKind s i ≤ 1 ∧ genDir s i ≠ 3 ∧ (genDir s i = 2 → eventCode (bits (w 0x11C) 23 16) = true)
       ∀ p ∈ forms, (p.2 = false ∨ genPending s i = false → exec p.1 s = .next s) ∧
         (p.2 = true → genPending s i = true → ¬ plays → Does p.1 s fun t => Words s t i [(0x520, taken)]) ∧
         (p.2 = true → genPending s i = true → plays → Does p.1 s fun t => Words s t i
           [(0x520, putField (putField taken 27 27 1) 26 26 (if genDir s i = 2 then 1 else 0))])) ∧
      (Does (.genEnd c) s fun t => Words s t i [(0x520, putField (putField (w 0x520) 27 27 0) 26 26 0)]) ∧
      (s.readLE mediaTable 4 = w 0x624 → exec (.mediaTableReload c) s = .next s) ∧
      (s.readLE mediaTable 4 ≠ w 0x624 → Does (.mediaTableReload c) s fun t =>
        mw t i 0x624 = s.readLE mediaTable 4 ∧ mw t i 0x62C = s.readLE (mediaTable + 4) 4 ∧
        (∀ x, x < 128 → t.byte (frameAddr i + 0x680 + x) = s.byte (mediaTable + 0x040 + 128 * bits (w 0x118) 25 24 + x)) ∧
        (∀ x, x < 32 → t.byte (frameAddr i + 0x8C0 + x) = s.byte (mediaTable + 0x040 + 32 * (bits (w 0x11C) 23 16 % 16) + x)) ∧
        (∀ x, (∀ r ∈ [(0x624, 4), (0x62C, 4), (0x680, 128), (0x8C0, 32)], x < frameAddr i + r.1 ∨ frameAddr i + r.1 + r.2 ≤ x) →
          t.byte x = s.byte x)) ∧
      (let k := Instr.toneEvent c legP received code
       let quiet := bitOf (w 0x520) 27 = true ∧ genDir s i = 0
       (received = true → bits (w 0x104) 30 24 = 0 → exec k s = .next s) ∧
       (received = true → bits (w 0x104) 30 24 ≠ 0 → quiet → Does k s fun t => Words s t i (ringWords s i (w 0x520) true code.toNat id)) ∧
       (received = true → bits (w 0x104) 30 24 ≠ 0 → ¬ quiet →
         Does k s fun t => Words s t i (ringWords s i (w 0x520) true code.toNat fun v => putField v 25 25 1)) ∧
       (received = false → toneEnabled s i legP code.toNat = false → exec k s = .next s) ∧
       (received = false → toneEnabled s i legP code.toNat = true →
         Does k s fun t => Words s t i (ringWords s i (w 0x520) legP code.toNat id))) ∧
      (bitOf (w 0x520) 25 = false → exec (.rxEventEnd c ended) s = .next s) ∧
      (bitOf (w 0x520) 25 = true → Does (.rxEventEnd c ended) s fun t =>
        Words s t i (ringWords s i (putField (w 0x520) 25 25 0) true (128 + ended.toNat) id)) ∧
      (let tgt := lvlTarget s i recv
       let act := lvlBit s i recv 3
       let fading := lvlBit s i recv 2
       let pend := lvlBit s i recv 1
       let ptgt := lvlBit s i recv 0
       let becomes := fun (t : State) (l : List Bool) => [3, 2, 1, 0].map (fun k => lvlBit t i recv k) = l ∧
         ∀ b, b < 32 → b < lvlLo recv ∨ lvlLo recv + 4 ≤ b → bitOf (mw t i 0x544) b = bitOf (w 0x544) b
       (tgt = lvlLast s i recv → exec (.levelBankRequest c recv) s = .next s) ∧
       (tgt ≠ lvlLast s i recv → Does (.levelBankRequest c recv) s fun t => mw t i 0x660 = putBit (w 0x660) (b2n recv) tgt ∧
         becomes t (if fading then [act, true, true, tgt] else [act, tgt != act, pend, ptgt]) ∧ OnlyWords s t i [0x544, 0x660]) ∧
       (fading = false → exec (.levelFadeEnd c recv) s = .next s) ∧
       (fading = true → Does (.levelFadeEnd c recv) s fun t => becomes t [!act, pend && (ptgt == act), false, ptgt] ∧ OnlyWords s t i [0x544])) ∧
      (let same := fun k => w (0x184 + 4 * k) = w (0x670 + 4 * k)
       let seqSame := bits (w 0x180) 3 0 = bits (w 0x544) 7 4
       let loaded := fun (t : State) (k : Nat) =>
         let v := w (0x184 + 4 * k)
         mw t i (0x670 + 4 * k) = v ∧ bitOf (mw t i 0x544) k = !shapeOk s i v ∧
         (1 ≤ v % 256 → v % 256 ≤ 63 → ∀ x, x < 64 → t.byte (frameAddr i + 0x700 + 64 * k + x) = s.byte (mediaTable + 0x1000 + 64 * (v % 256) + x))
       let frame := fun (t : State) (l : List Nat) => (∀ x, (∀ k ∈ l, x < frameAddr i + 0x670 + 4 * k ∨ frameAddr i + 0x670 + 4 * k + 4 ≤ x) →
           (∀ k ∈ l, x < frameAddr i + 0x700 + 64 * k ∨ frameAddr i + 0x700 + 64 * k + 64 ≤ x) →
           (x < frameAddr i + 0x544 ∨ frameAddr i + 0x548 ≤ x) → t.byte x = s.byte x) ∧
         SameOtherCells s t [F.CPG_FRAME_DIRTY, I.mapDirty] ∧ t = { s with cells := t.cells, mem := t.mem }
       (seqSame → same bank.val → exec (.shapeLoad c bank) s = .next s) ∧
       (seqSame → ¬ same bank.val → Does (.shapeLoad c bank) s fun t => loaded t bank.val ∧ frame t [bank.val] ∧
         ∀ b, b < 32 → b ≠ bank.val → bitOf (mw t i 0x544) b = bitOf (w 0x544) b) ∧
       (¬ seqSame → Does (.shapeLoad c bank) s fun t => (∀ k, k < 4 → loaded t k) ∧ frame t [0, 1, 2, 3] ∧
         bits (mw t i 0x544) 7 4 = bits (w 0x180) 3 0 ∧ ∀ b, 8 ≤ b → b < 32 → bitOf (mw t i 0x544) b = bitOf (w 0x544) b))

/-! ## The packet engine (chapter 12) -/

/-- What a write of PKE_P_CFG stores for port p: reserved modes and FEC choices leave their fields. -/
def Sys2Proof.Safety.portStored (p v en : Nat) : List (Fld × Nat × Nat) :=
  (if bits v 30 28 ≤ 4 then [(F.PKE_P_CFG_MODE, p, bits v 30 28)] else []) ++
    (if bits v 27 26 ≤ 2 then [(F.PKE_P_CFG_FEC, p, bits v 27 26)] else []) ++
    [(F.PKE_P_CFG_EN, p, en), (F.PKE_P_CFG_AN, p, bitN v 25), (F.PKE_P_CFG_MCAST, p, bitN v 24), (F.PKE_P_CFG_RQ, p, bits v 23 20),
     (F.PKE_P_CFG_PTPQ, p, bits v 19 16), (F.PKE_P_CFG_MAXFRM, p, bits v 11 0)]

/-- What the loss of a port's link writes. -/
def Sys2Proof.Safety.portLost (p : Nat) : List (Fld × Nat × Nat) :=
  [(F.PKE_P_STAT_UP, p, 0), (F.PKE_P_STAT_ANDONE, p, 0), (F.PKE_P_STAT_FECACT, p, 0), (F.PKE_P_STAT_LINKCHG, p, 1), (F.PKE_IRQSTAT_LINK, 0, 1)]

/-- A counter of port p, or of the packet engine, has counted n. -/
def Sys2Proof.Safety.counted (s : State) (p k n : Nat) : Fld × Nat × Nat := (F.PKE_P_CNT_COUNT, 12 * p + k, s.rd F.PKE_P_CNT_COUNT (12 * p + k) + n)
def Sys2Proof.Safety.pkeCounted (s : State) (k : Nat) : Fld × Nat × Nat := (F.PKE_CNT_COUNT, k, s.rd F.PKE_CNT_COUNT k + 1)

/-- Ports.  A rising EN applies MODE, FEC and AN and judges them; a clear takes the port down and ends its queues; other writes
are only stored (R363, R365).  A link that comes up loads its latencies, unless they are overridden (R403).  A received frame
that is damaged, too short or too long, of flow control, for another MAC, or beyond the parser's backlog is dropped and counted; a
good one for supervisor software takes a cell of its port's guarantee, whose choice is free, and reaches its receive queue with
the reason, its cell held by the queue (R366, R267, R376).  Of an RTP packet whose SRTP operation ends, the SSRC, authentication
and replay are judged, and a good one is filed as JB_FILE files it (R373–R375).  Header formats, the index estimate and the jitter
are those of the standards the spec names (presumed, log entries 29 and 31), SRTP is a constant without a body (log entry 28). -/
def Obligations.PortsReceiveFramesAndPackets : Prop :=
  (∀ (s : State) (ini : Init) (v : Word) (p : Nat), s.fabric = true → selPort s ini = some p →
    let n := v.toNat
    (s.rd F.PKE_P_CFG_EN p = 1 → Puts (.portEnable ini v) s (portStored p n 1)) ∧
    (s.rd F.PKE_P_CFG_EN p = 0 →
      let mode := if bits n 30 28 ≤ 4 then bits n 30 28 else s.rd F.PKE_P_CFG_MODE p
      let fec := if bits n 27 26 ≤ 2 then bits n 27 26 else s.rd F.PKE_P_CFG_FEC p
      Puts (.portEnable ini v) s (portStored p n 1 ++ [(I.pMode, p, mode), (I.pFec, p, fec), (I.pAn, p, bitN n 25),
        (F.PKE_P_STAT_CFGERR, p, if fecOffered mode fec then 0 else 1)]) ∧
      Puts (.portDisable ini v) s (portStored p n 0)) ∧
    (s.rd F.PKE_P_CFG_EN p = 1 → (∀ e ∈ s.egress, e.1 / 9 ≠ p) →
      Puts (.portDisable ini v) s (portStored p n 0 ++ if s.rd F.PKE_P_STAT_UP p = 1 then portLost p else []))) ∧
  (∀ (s : State) (p : Fin 8),
    let i := p.val
    let comes := s.serving = true ∧ s.rd F.PKE_P_CFG_EN i = 1 ∧ s.rd F.PKE_P_STAT_CFGERR i = 0 ∧ 1 ≤ s.rd I.pMode i ∧ s.rd F.PKE_P_STAT_UP i = 0
    let up := [(F.PKE_P_STAT_UP, i, 1), (F.PKE_P_STAT_ANDONE, i, s.rd I.pAn i), (F.PKE_P_STAT_FECACT, i, s.rd I.pFec i),
      (F.PKE_P_STAT_LINKCHG, i, 1), (F.PKE_IRQSTAT_LINK, 0, 1)]
    let trim := fun d => Config.latTrim i (s.rd I.pMode i) (s.rd I.pFec i) d ((List.range 27).map fun k => s.rd F.FUS_SHADOW_WORD (69 + k))
    (¬ comes → exec (.portLinkChange p true) s = .next s) ∧
    (comes → s.rd F.TMU_LAT_RX_OVR i = 1 → Puts (.portLinkChange p true) s up) ∧
    (comes → s.rd F.TMU_LAT_RX_OVR i = 0 → Puts (.portLinkChange p true) s (up ++
      [(F.TMU_LAT_RX_LAT, i, trim 0), (F.TMU_LAT_TX_LAT, i, trim 1), (F.TMU_LAT_RX_LOADED, i, 1)])) ∧
    (s.rd F.PKE_P_STAT_UP i = 0 → exec (.portLinkChange p false) s = .next s) ∧
    (s.rd F.PKE_P_STAT_UP i = 1 → Puts (.portLinkChange p false) s (portLost i))) ∧
  (∀ (s : State) (p : Fin 8) (b : List Byte) (sub : BitVec 9) (err full ecc : Bool),
    let k := Instr.frameReceive p b sub err full ecc
    let i := p.val
    let body := b.take (b.length - 4)
    let bad := err = true ∨ b.length < 64 ∨ maxFrm s i < b.length ∨ b.drop (b.length - 4) ≠ leBytes 4 (crc32 body)
    let room := ∀ j, s.rd F.PKE_P_CNT_COUNT j + 4096 < 2 ^ 32
    (s.rd F.PKE_CTRL_RUN = 0 ∨ s.rd F.PKE_P_STAT_UP i = 0 → exec k s = .next s) ∧
    (s.rd F.PKE_CTRL_RUN = 1 → s.rd F.PKE_P_STAT_UP i = 1 → room →
      (bad → Puts k s [counted s i 2 1]) ∧
      (¬ bad → beAt body 12 2 = 0x8808 → Puts k s [counted s i 3 1]) ∧
      (¬ bad → beAt body 12 2 ≠ 0x8808 → macAccepts s i (body.take 6) = false → exec k s = .next s) ∧
      (¬ bad → beAt body 12 2 ≠ 0x8808 → macAccepts s i (body.take 6) = true →
        (full = true → Puts k s [counted s i 0 1, counted s i 1 b.length, counted s i 4 1]) ∧
        ∀ (r q a : Nat), full = false → ecc = false → body.length ≤ 256 →
          (parseFrame s i body = .other r ∧ q = s.rd F.PKE_P_CFG_RQ i) ∨ (parseFrame s i body = .ptp ∧ r = 1 ∧ q = s.rd F.PKE_P_CFG_PTPQ i) →
          ringPlace (s.rd F.PKE_RQ_BASE_BASE q) (s.rd F.PKE_RQ_CFG_SIZE q) (s.rd F.PKE_RQ_WP_WP q) (s.rd F.PKE_RQ_RP_RP q) 32 = some a →
          cellH s i < cellG s i → cellH s (8 + q) < cellG s (8 + q) → (∃ j, j < cellCount s ∧ s.rd I.cellOwner j = 0) →
          (∀ j, j < cellCount s → a + 32 ≤ cellAddr s j ∨ cellAddr s j + 256 ≤ a) →
          Does k s fun t => ∃ j, j < cellCount s ∧ s.rd I.cellOwner j = 0 ∧ t.rd I.cellOwner j = 8 + q + 1 ∧
            t.rd F.PKE_CELLHELD_HELD i = cellH s i ∧ t.rd F.PKE_CELLHELD_HELD (8 + q) = cellH s (8 + q) + 1 ∧
            (∀ x (hx : x < body.length), t.byte (cellAddr s j + x) = body[x]) ∧
            t.readLE a 2 = body.length ∧ (t.byte (a + 2)).toNat = i ∧ (t.byte (a + 3)).toNat = r % 256 ∧
            (t.byte (a + 9)).toNat = 1 ∧ t.readLE (a + 16) 2 = j % 65536 ∧
            t.rd F.PKE_RQ_WP_WP q = (s.rd F.PKE_RQ_WP_WP q + 1) % 2 ^ F.PKE_RQ_WP_WP.w ∧
            t.rd F.PKE_IRQSTAT_RXQ = (if s.rd F.PKE_RQ_CFG_IE q = 1 then 1 else s.rd F.PKE_IRQSTAT_RXQ) ∧
            (∀ x, (x < a ∨ a + 32 ≤ x) → (x < cellAddr s j ∨ cellAddr s j + body.length ≤ x) → t.byte x = s.byte x) ∧
            SameOtherCells s t [F.PKE_P_CNT_COUNT, I.cellOwner, F.PKE_CELLHELD_HELD, F.PKE_RQ_WP_WP, F.PKE_IRQSTAT_RXQ, I.linkV, I.txWr, I.txWrC] ∧
            t = { s with cells := t.cells, mem := t.mem, freeCtr := t.freeCtr }))) ∧
  ∀ (s : State) (f : RxFrame) (j c : Nat), s.rxFrames = [f] → f.cells = [j] → s.rd I.cellOwner j = c + 1 →
    s.rd F.PKE_CNT_COUNT 4 + 2 < 2 ^ 32 → s.rd F.PKE_CNT_COUNT 5 + 2 < 2 ^ 32 → s.rd F.PKE_CNT_COUNT 6 + 2 < 2 ^ 32 →
    (∀ x, s.rd I.stCnt x + 2 < 2 ^ 32) →
    let k := Instr.srtpDone 0
    let freed := [(I.cellOwner, j, 0), (F.PKE_CELLHELD_HELD, c, cellH s c - 1)]
    let n := bits f.e3 14 0
    let idx := rxIndex s n (beAt f.pkt 2 2)
    let strm := fun w => (I.stCnt, 8 * n + w, s.rd I.stCnt (8 * n + w) + 1)
    let ends := fun l => exec k s = .next { puts s (freed ++ l) with rxFrames := [] }
    let keyed := f.inst = true ∧ f.dir = false ∧ 1 ≤ f.suite ∧ f.suite ≤ 6
    (ssrcBad s f (beAt f.pkt 8 4) = true → ends [pkeCounted s 4]) ∧
    (ssrcBad s f (beAt f.pkt 8 4) = false →
      (bitOf f.e0 26 = false → exec k s = .next { fileRtp (advanceStream (puts s freed) n idx) f idx f.pkt with rxFrames := [] }) ∧
      (bitOf f.e0 26 = true →
        (¬ keyed → ends [pkeCounted s 5, strm 6]) ∧
        (keyed → isReplay s n idx = true → ends [pkeCounted s 6, strm 7]) ∧
        (keyed → isReplay s n idx = false → Config.srtpOpen f.suite f.key f.salt idx f.pkt = none → ends [pkeCounted s 5, strm 6]) ∧
        ∀ b, keyed → isReplay s n idx = false → Config.srtpOpen f.suite f.key f.salt idx f.pkt = some b →
          exec k s = .next { fileRtp (advanceStream (puts s freed) n idx) f idx b with rxFrames := [] }))

/-- The classifier, the key store and the cells.  INSERT takes a free way of the key's bucket, or answers EXISTS or FULL; MODIFY
replaces an entry, DELETE removes it and READ copies it, or each answers NOTFOUND; MODIFY and DELETE stay in progress while frames
classified under the old entry remain; nothing is taken while a command is in progress (R368–R370).  INSTALL takes keys and
direction from the window, which it clears, and without KEEP starts the stream anew; CLEAR erases the keys; CLRCNT clears the
counters; a write of STRMSEL latches the stream's words for the writer (R378, R379).  CELLRET frees a cell to its holder;
guarantees beyond CELLCNT are refused; the region is fixed while RUN = 1 (R267, R389, R390). -/
def Obligations.ClassifierKeysAndCellsFollowCommands : Prop :=
  (∀ (s : State) (ini : Init), s.fabric = true →
    let cmds : List Instr := [.clsInsert ini, .clsModify ini, .clsDelete ini, .clsRead ini]
    let key := regKey s
    let words := fun i => [(I.clsE0, i, regE0 s % 2 ^ 31), (I.clsE1, i, s.rd F.PKE_CLS_E1_SSRC), (I.clsE2, i, regE2 s), (I.clsE3, i, regE3 s % 2 ^ 31)]
    let answer := fun op l r go => (F.PKE_CLS_CMD_OP, 0, op) :: l ++ [(F.PKE_CLS_CMD_RESULT, 0, r), (F.PKE_CLS_CMD_GO, 0, go)]
    let aged := fun i => s.rxFrames.map fun f => if f.ent = i then { f with old := true } else f
    let drains := fun i => if (aged i).any (·.old) then 1 else 0
    (s.rd F.PKE_CLS_CMD_GO = 1 → ∀ k ∈ cmds, exec k s = .next s) ∧
    (s.rd F.PKE_CLS_CMD_GO = 0 →
      (∀ i, clsFind s key = some i → Puts (.clsInsert ini) s (answer 0 [] 1 0) ∧
        exec (.clsModify ini) s = .next { puts s (answer 1 (words i) 0 (drains i)) with rxFrames := aged i } ∧
        exec (.clsDelete ini) s = .next
          { puts s (answer 2 [(I.clsV, i, 0), (F.PKE_CLS_CNT_CNT, 0, s.rd F.PKE_CLS_CNT_CNT - 1)] 0 (drains i)) with rxFrames := aged i } ∧
        (let e0 := s.rd I.clsE0 i
         let e2 := s.rd I.clsE2 i
         let e3 := s.rd I.clsE3 i
         Puts (.clsRead ini) s (answer 3 [(F.PKE_CLS_E0_VALID, 0, 1), (F.PKE_CLS_E0_KIND, 0, bits e0 30 29), (F.PKE_CLS_E0_SSRCM, 0, bits e0 28 27),
           (F.PKE_CLS_E0_SRTP, 0, bitN e0 26), (F.PKE_CLS_E0_FLAGEN, 0, bitN e0 25), (F.PKE_CLS_E0_CLK, 0, bits e0 24 23),
           (F.PKE_CLS_E0_RQ, 0, bits e0 22 19), (F.PKE_CLS_E0_JBOFS, 0, bits e0 18 0), (F.PKE_CLS_E1_SSRC, 0, s.rd I.clsE1 i),
           (F.PKE_CLS_E2_FLAGS, 0, bits e2 31 16), (F.PKE_CLS_E2_TID, 0, bits e2 15 0), (F.PKE_CLS_E3_LATCHED, 0, bitN e3 31),
           (F.PKE_CLS_E3_FWDDEV, 0, bits e3 26 16), (F.PKE_CLS_E3_STRM, 0, bits e3 14 0)] 0 0))) ∧
      (clsFind s key = none →
        Puts (.clsModify ini) s (answer 1 [] 3 0) ∧ Puts (.clsDelete ini) s (answer 2 [] 3 0) ∧ Puts (.clsRead ini) s (answer 3 [] 3 0) ∧
        ((∀ i ∈ clsWays key, s.rd I.clsV i = 1) → Puts (.clsInsert ini) s (answer 0 [] 2 0)) ∧
        (∀ i, (clsWays key).find? (fun i => !s.on I.clsV i) = some i → i ∈ clsWays key ∧ s.rd I.clsV i = 0 ∧
          Puts (.clsInsert ini) s (answer 0 ([(I.clsV, i, 1), (I.clsKey, i, key)] ++ words i ++
            [(F.PKE_CLS_CNT_CNT, 0, s.rd F.PKE_CLS_CNT_CNT + 1)]) 0 0)))) ∧
    (s.rd F.PKE_CLS_CMD_GO = 0 ∨ (∃ f ∈ s.rxFrames, f.old = true) → exec .clsDrainDone s = .next s) ∧
    (s.rd F.PKE_CLS_CMD_GO = 1 → (∀ f ∈ s.rxFrames, f.old = false) → Puts .clsDrainDone s [(F.PKE_CLS_CMD_GO, 0, 0)])) ∧
  (∀ (s : State) (ini : Init), s.fabric = true →
    let ks := fun (k op : Nat) => [(F.PKE_KS_CMD_KEEP, 0, k), (F.PKE_KS_CMD_OP, 0, op)]
    let result := fun r : Nat => [(F.PKE_KS_CMD_RESULT, 0, r)]
    let keep := s.rd F.PKE_KS_CMD_KEEP
    (ksStream s ini = none → (∀ b, Puts (.ksInstall ini b) s (ks (if b then 1 else 0) 0)) ∧ Puts (.ksClear ini) s (ks keep 1) ∧
      Puts (.ksClrcnt ini) s (ks keep 2)) ∧
    ∀ n, ksStream s ini = some n →
      let suite := bits (s.rd I.ksWin 0) 3 0
      let zeroed := (List.range 8).map fun k => (I.stCnt, 8 * n + k, 0)
      let keys := [(I.stInst, n, 1), (I.stSuite, n, suite), (I.stDir, n, bitN (s.rd I.ksWin 0) 31), (I.stKey, n, winBytes s 0x10 32),
        (I.stSalt, n, winBytes s 0x30 14)]
      let fresh := [(I.stRoc, n, s.rd I.ksWin 1), (I.stWin, n, 0), (I.stSeqV, n, 0)]
      let unlatched := ((s.nonzero I.clsV).filter fun j => bits (s.rd I.clsE3 j) 14 0 == n).map fun j => (I.clsE3, j, s.rd I.clsE3 j % 2 ^ 31)
      (7 ≤ suite → ∀ b, Puts (.ksInstall ini b) s (ks (if b then 1 else 0) 0 ++ result 4)) ∧
      (suite ≤ 6 →
        exec (.ksInstall ini true) s = .next (((puts s (ks 1 0 ++ keys)).clearFld I.ksWin).wr F.PKE_KS_CMD_RESULT 0 0) ∧
        exec (.ksInstall ini false) s = .next
          (((puts s (ks 0 0 ++ zeroed ++ fresh ++ unlatched ++ keys)).clearFld I.ksWin).wr F.PKE_KS_CMD_RESULT 0 0)) ∧
      Puts (.ksClear ini) s (ks keep 1 ++ [(I.stSuite, n, 0), (I.stKey, n, 0), (I.stSalt, n, 0)] ++ result 0) ∧
      Puts (.ksClrcnt ini) s (ks keep 2 ++ zeroed ++ result 0)) ∧
  ∀ (s : State) (ini : Init) (v : Word), s.fabric = true →
    (selCopy ini = none → exec (.strmselWrite ini v) s = .next s) ∧
    (∀ c, selCopy ini = some c → let n := v.toNat % 32768
      Puts (.strmselWrite ini v) s ((F.PKE_STRMSEL_STRM, c, n) :: (List.range 8).map fun k => (I.strmBuf, 8 * c + k, strmWord s n k))) ∧
    (let i := v.toNat % 2 ^ 18
     (s.rd I.cellOwner i = 0 → exec (.cellret ini v) s = .next s) ∧
     ∀ c, s.rd I.cellOwner i = c + 1 → Puts (.cellret ini v) s [(I.cellOwner, i, 0), (F.PKE_CELLHELD_HELD, c, s.rd F.PKE_CELLHELD_HELD c - 1)]) ∧
    (∀ c : Fin 25, let total := overConsumers fun d => if d = c.val then bits v.toNat 31 16 else s.rd F.PKE_CELLCFG_G d
      (cellCount s < total → Puts (.cellcfgWrite ini c v) s [(F.PKE_IRQSTAT_CELLERR, 0, 1)]) ∧
      (total ≤ cellCount s → Puts (.cellcfgWrite ini c v) s [(F.PKE_CELLCFG_G, c.val, bits v.toNat 31 16), (F.PKE_CELLCFG_F, c.val, bits v.toNat 4 0)])) ∧
    (s.rd F.PKE_CTRL_RUN = 1 → ∀ cnt, exec (.cellRegionWrite ini cnt v) s = .next s) ∧
    (s.rd F.PKE_CTRL_RUN = 0 → Puts (.cellRegionWrite ini true v) s [(F.PKE_CELLCNT_CNT, 0, bits v.toNat 17 0)] ∧
      Puts (.cellRegionWrite ini false v) s [(F.PKE_CELLBASE_BASE, 0, bits v.toNat 24 8)])

/-- Egress, for descriptors of signal cores that ask for no completion record.  A post joins its queue, prepared at once inside its
window, or ends as DOWN, BADDESC, FULL or ECC, counted in its port; a post of another initiator counts in POSTERR (R380, R382, R383,
R385).  The one timed frame of a port is prepared when it is due, sent from LAUNCH on, as LATE where it is late, or
dropped (R385, R386).  The one priority frame is sent where it fits before the next timed launch (R384).  Header formats are those
of the standards the spec names (presumed, log entry 29), SRTP is a constant without a body (log entry 28). -/
def Obligations.EgressFramesAreSentOrEnd : Prop :=
  ∀ s : State, (∀ k, s.rd F.PKE_P_CNT_COUNT k + 4096 < 2 ^ 32) → (∀ k, s.rd F.PKE_CNT_COUNT k + 2 < 2 ^ 32) → (∀ k, s.rd I.stCnt k + 4096 < 2 ^ 32) →
    let quiet := fun f : EgFrame => f.own = false ∧ f.svc = false ∧ bitOf f.w3 25 = false
    let ends := fun (f : EgFrame) (n : Nat) => [counted s (dPort f) n 1]
    (∀ (ini : Init) (v : Word) (ecc : Bool), s.fabric = true → mayPost ini = false → Puts (.egressPost ini v ecc) s [pkeCounted s 9]) ∧
    (∀ (c : Fin 64) (v : Word), s.fabric = true →
      let a := pksBase + bits v.toNat 24 4 * 16
      let f := newFrame (s.readLE a 4) (s.readLE (a + 4) 4) (s.readLE (a + 8) 4) (s.readLE (a + 12) 4) false none
      let k := fun ecc => Instr.egressPost (.sgc c) v ecc
      let q := if dTimed f then 8 else dPrio f
      let queue := egQueue s (dPort f) q
      quiet f →
        (bitOf (s.rd F.MLS_ERRSEL_SEL) 8 = false → Puts (k true) s ([pkeCounted s 10] ++ ends f 11 ++ [(F.PKE_IRQSTAT_ECC, 0, 1)])) ∧
        (portSends s (dPort f) = false → Puts (k false) s (ends f 10)) ∧
        (portSends s (dPort f) = true → badDesc s f = true → exec (k false) s = .next s) ∧
        (portSends s (dPort f) = true → badDesc s f = false →
          (queueRoom q ≤ queue.length → Puts (k false) s (ends f 9)) ∧
          (queue.length < queueRoom q →
            (dTimed f = false → exec (k false) s = .next (setQueue s (dPort f) q (queue ++ [f]))) ∧
            (dTimed f = true →
              let g := { f with late := decide (diff32 f.w2 (portNow s (dPort f)) < 0) }
              (20000 < diff32 f.w2 (portNow s (dPort f)) → exec (k false) s = .next (setQueue s (dPort f) 8 (queue ++ [g]))) ∧
              (diff32 f.w2 (portNow s (dPort f)) ≤ 20000 →
                exec (k false) s = .next (setQueue (prepare s g).2 (dPort f) 8 (queue ++ [(prepare s g).1]))))))) ∧
    ∀ (p : Fin 8) (sub : BitVec 9) (f : EgFrame), quiet f → dPort f = p.val →
      let at' := txStamp s p.val (s.rd F.PKE_P_TCFG_LTB p.val) sub.toNat
      let wireOf := fun g : EgFrame => wireFrame (if bitOf g.w1 11 then insertStamp (g.frame.getD []) g.w2 at' else g.frame.getD [])
      let n := dStrm f
      let sent := fun (u : State) (g : EgFrame) => [(F.PKE_P_CNT_COUNT, 12 * p.val + 5, u.rd F.PKE_P_CNT_COUNT (12 * p.val + 5) + 1),
        (F.PKE_P_CNT_COUNT, 12 * p.val + 6, u.rd F.PKE_P_CNT_COUNT (12 * p.val + 6) + (wireOf g).length)]
      let stream := fun g : EgFrame => [(I.stCnt, 8 * n + 1, s.rd I.stCnt (8 * n + 1) + 1), (I.stCnt, 8 * n + 2, s.rd I.stCnt (8 * n + 2) + g.octets)] ++
        (if dRaw g then [] else [(I.stCnt, 8 * n + 3, g.idx), (I.stCnt, 8 * n + 4, g.ts)]) ++ [(I.stCnt, 8 * n + 7, at' / 256)]
      let onWire := fun (u : State) (g : EgFrame) => { u with wire := Tbl.put [] p.val (wireOf g) u.wire }
      (egQueue s p.val 8 = [] → exec (.frameLaunch p sub) s = .next s ∧ (∀ ecc, exec (.timedFramePrepare p ecc) s = .next s)) ∧
      (egQueue s p.val 8 = [f] →
        (f.frame.isSome = true ∨ inWindow s p.val f.w2 = false → ∀ ecc, exec (.timedFramePrepare p ecc) s = .next s) ∧
        (f.frame = none → inWindow s p.val f.w2 = true →
          (badDesc s f = true → exec (.timedFramePrepare p false) s = .next (setQueue s p.val 8 [])) ∧
          (badDesc s f = false → exec (.timedFramePrepare p false) s = .next (setQueue (prepare s f).2 p.val 8 [(prepare s f).1]) ∧
            (dRaw f = true → prepare s f = ({ f with frame := some (dPayload s f), octets := dLen f }, s)))) ∧
        (f.frame = none → exec (.frameLaunch p sub) s = .next s) ∧
        (f.frame.isSome = true → f.octets ≤ 2048 → (wireOf f).length ≤ 2048 →
          let d := diff32 (at' / 256) f.w2
          let late := f.late = true ∨ (s.rd F.PKE_P_TCFG_LATETOL p.val : Int) < d
          let u := setQueue s p.val 8 []
          (d < 0 → f.late = false → exec (.frameLaunch p sub) s = .next s) ∧
          (0 ≤ d ∨ f.late = true →
            (portSends s p.val = false → exec (.frameLaunch p sub) s = .next (puts u (ends f 10))) ∧
            (portSends s p.val = true →
              (late → bitOf f.w3 27 = true → s.rd I.stCnt (8 * n + 6) + 2 < 2 ^ 32 →
                exec (.frameLaunch p sub) s = .next (puts u (ends f 8 ++ [(I.stCnt, 8 * n + 6, s.rd I.stCnt (8 * n + 6) + 1)]))) ∧
              (late → bitOf f.w3 27 = false → exec (.frameLaunch p sub) s = .next (puts (onWire u f) (sent s f ++ [counted s p.val 7 1] ++ stream f ++
                [(I.stCnt, 8 * n + 5, s.rd I.stCnt (8 * n + 5) + 1)]))) ∧
              (¬ late → exec (.frameLaunch p sub) s = .next (puts (onWire u f) (sent s f ++ stream f))))))) ∧
      ((∀ q, q < 8 → egQueue s p.val q = []) → ∀ ecc, exec (.priorityFrameSend p sub ecc) s = .next s) ∧
      (∀ q, q < 8 → egQueue s p.val q = [f] → (∀ r, q < r → r < 8 → egQueue s p.val r = []) →
        let k := Instr.priorityFrameSend p sub false
        (portSends s p.val = false → exec k s = .next (puts (setQueue s p.val q []) (ends f 10))) ∧
        (portSends s p.val = true → badDesc s f = true → exec k s = .next (setQueue s p.val q [])) ∧
        (portSends s p.val = true → badDesc s f = false → f.frame = none →
          let g := (prepare s f).1
          let len := max 64 ((g.frame.getD []).length + 4)
          (fitsBefore s p.val len = false → exec k s = .next s) ∧
          (fitsBefore s p.val len = true → (wireOf g).length ≤ 2048 →
            exec k s = .next (puts (onWire (setQueue (prepare s f).2 p.val q []) g) (sent s g ++ stream g)))))

/-! ## Time (chapter 13) -/

/-- What a step of base b by v writes. -/
def Sys2Proof.Safety.stepped (s : State) (b v : Nat) : List (Fld × Nat × Nat) :=
  [(F.TMU_TB_NS_NS, b, s.rd F.TMU_TB_NS_NS b + v), (F.TMU_TB_LASTSTEP_VALUE, b, v), (F.TMU_TB_STEPAT_VALUE, b, (s.rd F.TMU_TB_NS_NS b + v) % 2 ^ 32)]

/-- The time bases, the pins and PATHSTEP.  A write of INCR_LO is held for its writer; INCR_HI forms the increment, clamps and applies
it, or is refused while the guard or TB1's lock holds (R395, R412).  STEP adds to NS, is refused on TB2, or waits for the tick; a
Waypoint that a forward step skips is late, and one that a backward step puts 2^31 ns or more ahead is HELD (R398, R419, R420).  A read
of NS latches FRAC; CAPALL takes all four bases (R399).  TB1 follows its frames, locks after 64 good ones, and goes to holdover
without (R397).  A pulse ends, an active edge of an enabled input is captured once (R406, R407).  A second measurement pair of
PATHSTEP beyond both thresholds fires, and clearing FIRED drops the reference (R411, R412). -/
def Obligations.TimeBasesPinsAndPathstep : Prop :=
  ∀ s : State,
    (∀ (ini : Init) (v : Word), selBase s ini = none →
      exec (.tbIncrLoWrite ini v) s = .next s ∧ exec (.tbIncrHiWrite ini v) s = .next s ∧ exec (.tbStep ini v) s = .next s) ∧
    (∀ (ini : Init) (v : Word) (b k : Nat), s.fabric = true → selBase s ini = some b → selCopy ini = some k →
      Puts (.tbIncrLoWrite ini v) s [(I.incrHeld, 4 * k + b, v.toNat)] ∧
      (let fixed := tbGuard s b = true ∨ (b = 1 ∧ s.rd F.TMU_TB_CFG_LOCK 1 = 1)
       let incr := max 0x01FF7CED92 (min 0x020083126E (v.toNat % 256 * 2 ^ 32 + s.rd I.incrHeld (4 * k + b)))
       (fixed → Puts (.tbIncrHiWrite ini v) s [(I.incrHeld, 4 * k + b, 0), (F.TMU_TB_STAT_INCRERR, b, 1)]) ∧
       (¬ fixed → Puts (.tbIncrHiWrite ini v) s [(I.incrHeld, 4 * k + b, 0), (F.TMU_TB_INCR_HI_INCR, b, incr / 2 ^ 32),
         (F.TMU_TB_INCR_LO_INCR, b, incr % 2 ^ 32)])) ∧
      (Does (.tbNsRead ini) s fun t => Tbl.get 0 t.rdata (initCode ini) = s.rd F.TMU_TB_NS_NS b ∧
        t.rd F.TMU_TB_FRAC_FRAC (4 * k + b) = s.rd I.tbFrac b / 2 ^ 24 % 2 ^ F.TMU_TB_FRAC_FRAC.w ∧
        SameCells s t [(F.TMU_TB_FRAC_FRAC, 4 * k + b)] ∧ t = { s with cells := t.cells, rdata := t.rdata }) ∧
      (let x := s.rd F.TMU_TB_STEP_STEP b
       let d := signedOf 32 x
       let refused := b = 2 ∨ x = 0x80000000
       let k := Instr.tbStep ini v
       (bitOf v.toNat 0 = false → exec k s = .next s) ∧
       (bitOf v.toNat 0 = true → refused → Puts k s [(F.TMU_TB_STAT_STEPERR, b, 1)]) ∧
       (bitOf v.toNat 0 = true → ¬ refused → s.rd I.tickRun = 0 → Puts k s [(F.TMU_TB_CMD_STEP, b, 1)]) ∧
       (bitOf v.toNat 0 = true → ¬ refused → s.rd I.tickRun = 1 → (∀ p, p < 8 → s.rd F.PKE_P_TCFG_LTB p ≠ b) →
         (s.nonzero F.TMU_WP_STAT_STATE = [] → Puts k s (stepped s b x)) ∧
         ∀ n, s.nonzero F.TMU_WP_STAT_STATE = [n] → s.rd F.TMU_WP_STAT_STATE n = wpPENDING → s.rd I.wpTb n = b →
           let left := diff32 (s.rd F.TMU_WP_TARGET_TARGET n) (s.rd F.TMU_TB_NS_NS b)
           0 < left →
             (0 < d → d < left → Puts k s (stepped s b x)) ∧
             (0 < d → left ≤ d → s.rd F.TMU_WP_CTL_DROPLATE n = 1 → s.rd F.TMU_WP_PERIOD_PERIOD n = 0 → s.rd F.TMU_LATEDROP_COUNT + 2 < 2 ^ 32 →
               Puts k s (stepped s b x ++ [(F.TMU_LATEDROP_COUNT, 0, s.rd F.TMU_LATEDROP_COUNT + 1), (F.TMU_IRQSTAT_LATEDROP, 0, 1),
                 (F.TMU_WP_STAT_STATE, n, wpDONE)])) ∧
             (d ≤ 0 → left - d < 2 ^ 31 → Puts k s (stepped s b x)) ∧
             (d ≤ 0 → 2 ^ 31 ≤ left - d → Puts k s (stepped s b x ++ [(F.TMU_WP_STAT_STATE, n, wpHELD)]))))) ∧
    (∀ (ini : Init) (v : Word), s.fabric = true →
      (bitOf v.toNat 0 = false → exec (.capall ini v) s = .next s) ∧
      (bitOf v.toNat 0 = true → Puts (.capall ini v) s ((List.range 4).map fun b => (F.TMU_CAP_NS, b, s.rd F.TMU_TB_NS_NS b)))) ∧
    (∀ (ok : Bool) (incr : BitVec 40),
      let follows := tmuRuns s = true ∧ tb1Follows s = true
      let x := clampIncr incr.toNat
      let rate := [(F.TMU_TB_INCR_HI_INCR, 1, x / 2 ^ 32), (F.TMU_TB_INCR_LO_INCR, 1, x % 2 ^ 32)]
      let good := if ok then min 64 (s.rd I.tb1Good + 1) else 0
      (¬ follows → exec (.tb1FrameMeasure ok incr) s = .next s) ∧
      (follows → Puts (.tb1FrameMeasure ok incr) s (rate ++ [(F.TMU_TB_STAT_HOLDOVER, 1, 0), (I.tb1Good, 0, good)] ++
        if good = 64 then [(F.TMU_TB_STAT_LOCKED, 1, 1)] else [])) ∧
      (¬ follows ∨ s.rd F.TMU_TB_STAT_HOLDOVER 1 = 1 → exec (.tb1Holdover incr) s = .next s) ∧
      (follows → s.rd F.TMU_TB_STAT_HOLDOVER 1 = 0 → Puts (.tb1Holdover incr) s (rate ++ [(F.TMU_TB_STAT_LOCKED, 1, 0),
        (F.TMU_TB_STAT_HOLDOVER, 1, 1), (I.tb1Good, 0, 0), (F.TMU_IRQSTAT_TB1HOLD, 0, 1)]))) ∧
    (∀ k : Fin 5, Puts (.pulseEnd k) s [(I.pulse, k.val, 0)]) ∧
    (∀ (k : Fin 6) (rising : Bool) (sub : BitVec 9),
      let taken := s.fabric = true ∧ s.rd F.TMU_IO_CFG_EN k.val = 1 ∧ ioOut s k.val = false ∧
        (if rising then 1 else 0) ≠ s.rd F.TMU_IO_CFG_POL k.val
      let at' := stamp s (s.rd F.TMU_IO_CFG_TB k.val) sub.toNat 0
      (¬ taken → exec (.pinCapture k rising sub) s = .next s) ∧
      (taken → s.rd F.TMU_IO_CAPST_VALID k.val = 1 → Puts (.pinCapture k rising sub) s [(F.TMU_IO_CAPST_OVF, k.val, 1)]) ∧
      (taken → s.rd F.TMU_IO_CAPST_VALID k.val = 0 → Puts (.pinCapture k rising sub) s [(F.TMU_IO_CAP_NS, k.val, at' / 256),
        (F.TMU_IO_CAPST_FRAC, k.val, at' % 256), (F.TMU_IO_CAPST_VALID, k.val, 1), (F.TMU_IRQSTAT_CAPTURE, 0, 1)])) ∧
    ∀ (ini : Init) (p : Fin 8) (v : Word), s.fabric = true →
      let i := p.val
      let dO := diff32 (s.rd F.TMU_PS_OFS_VALUE i) (s.rd I.psOfs i)
      let dM := diff32 v.toNat (s.rd I.psMpd i)
      let fires := s.rd F.TMU_PS_STAT_REFVALID i = 1 ∧ max 1 (s.rd F.TMU_PS_THR_OFSTHR i) ≤ dO.natAbs ∧ max 1 (s.rd F.TMU_PS_THR_MPDTHR i) ≤ dM.natAbs
      let reference := [(I.psOfs, i, s.rd F.TMU_PS_OFS_VALUE i), (I.psMpd, i, v.toNat), (F.TMU_PS_STAT_REFVALID, i, 1)]
      (s.rd F.TMU_PS_CFG_EN i = 0 → Puts (.pathstepPair ini p v) s [(F.TMU_PS_MPD_VALUE, i, v.toNat)]) ∧
      (s.rd F.TMU_PS_CFG_EN i = 1 → fires → Puts (.pathstepPair ini p v) s ([(F.TMU_PS_MPD_VALUE, i, v.toNat), (F.TMU_PS_STAT_FIRED, i, 1),
        (F.TMU_PS_DOFS_VALUE, i, ofInt 32 dO), (F.TMU_PS_DMPD_VALUE, i, ofInt 32 dM), (F.TMU_IRQSTAT_PATHSTEP, 0, 1)] ++ reference)) ∧
      (s.rd F.TMU_PS_CFG_EN i = 1 → ¬ fires → Puts (.pathstepPair ini p v) s ((F.TMU_PS_MPD_VALUE, i, v.toNat) :: reference)) ∧
      (bitOf v.toNat 31 = false ∨ s.rd F.TMU_PS_STAT_FIRED i = 0 → exec (.pathstepClear ini p v) s = .next s) ∧
      (bitOf v.toNat 31 = true → s.rd F.TMU_PS_STAT_FIRED i = 1 → Puts (.pathstepClear ini p v) s
        [(F.TMU_PS_STAT_FIRED, i, 0), (F.TMU_PS_STAT_REFVALID, i, 0)])

/-- What a write of TMU_WP_CTL stores for Waypoint w: a reserved ACT leaves ACT. -/
def Sys2Proof.Safety.wpStored (w x en : Nat) : List (Fld × Nat × Nat) :=
  (if bits x 27 24 ≤ 8 then [(F.TMU_WP_CTL_ACT, w, bits x 27 24)] else []) ++
    [(F.TMU_WP_CTL_DROPLATE, w, bitN x 30), (F.TMU_WP_CTL_LA, w, bitN x 29), (F.TMU_WP_CTL_TB, w, bits x 21 20), (F.TMU_WP_CTL_EN, w, en)]

/-- Waypoints.  EN = 0 makes one IDLE; a new EN, or a TARGET written while EN = 1, arms it on its base, and one whose target has passed
is late: it fires at once as LATE, or under DROPLATE is dropped and counted (R413, R415).  One whose target has come fires: it
captures the time, takes its action and becomes DONE, or PENDING at its next future target (R414, R416, R418).  A HELD one
becomes PENDING when its difference turns positive (R413).  Within LOOKAHEAD of its target, a FLAGS Waypoint gives its notice
for each task it names, once (R417). -/
def Obligations.WaypointsArmFireAndGiveNotice : Prop :=
  ∀ s : State, (∀ f ∈ [F.TMU_LATECNT_COUNT, F.TMU_LATEDROP_COUNT], s.rd f + 2 < 2 ^ 32) → bitOf (s.rd F.MLS_ERRSEL_SEL) 10 = false →
    (∀ (ini : Init) (v : Word),
      (selWp s ini = none → (∀ ctl, exec (.waypointArm ini ctl v) s = .next s) ∧ exec (.waypointDisable ini v) s = .next s) ∧
      ∀ w, s.fabric = true → selWp s ini = some w →
        let x := v.toNat
        let target := s.rd F.TMU_WP_TARGET_TARGET w
        let now := fun b => s.rd F.TMU_TB_NS_NS b
        let armed := fun tb la => [(I.wpTb, w, tb), (I.wpLa, w, la), (F.TMU_WP_STAT_STATE, w, wpPENDING), (F.TMU_WP_STAT_LADONE, w, 0)]
        let dropped := [(F.TMU_LATEDROP_COUNT, 0, s.rd F.TMU_LATEDROP_COUNT + 1), (F.TMU_IRQSTAT_LATEDROP, 0, 1), (F.TMU_WP_STAT_STATE, w, wpDONE)]
        let late := fun b by' => [(F.TMU_WP_CAP_VALUE, w, now b), (F.TMU_WP_STAT_LATE, w, 1), (F.TMU_WP_LATENESS_VALUE, w, by'),
          (F.TMU_LATECNT_COUNT, 0, s.rd F.TMU_LATECNT_COUNT + 1), (F.TMU_IRQSTAT_LATE, 0, 1), (F.TMU_WP_STAT_STATE, w, wpDONE)]
        Puts (.waypointDisable ini v) s (wpStored w x 0 ++ [(F.TMU_WP_STAT_STATE, w, wpIDLE)]) ∧
        (bitOf x 31 = false → Puts (.waypointArm ini true v) s (wpStored w x 0 ++ [(F.TMU_WP_STAT_STATE, w, wpIDLE)])) ∧
        (bitOf x 31 = true → s.rd F.TMU_WP_CTL_EN w = 1 → Puts (.waypointArm ini true v) s (wpStored w x 1)) ∧
        (bitOf x 31 = true → s.rd F.TMU_WP_CTL_EN w = 0 →
          let b := bits x 21 20
          let d := diff32 target (now b)
          (tmuRuns s = false ∨ 0 < d → Puts (.waypointArm ini true v) s (wpStored w x 1 ++ armed b (bitN x 29))) ∧
          (tmuRuns s = true → d ≤ 0 → s.rd F.TMU_WP_PERIOD_PERIOD w = 0 →
            (bitOf x 30 = true → Puts (.waypointArm ini true v) s (wpStored w x 1 ++ armed b (bitN x 29) ++ dropped)) ∧
            (bitOf x 30 = false → bits x 27 24 = 0 →
              Puts (.waypointArm ini true v) s (wpStored w x 1 ++ armed b (bitN x 29) ++ late b (-d).toNat)))) ∧
        (s.rd F.TMU_WP_CTL_EN w = 0 → Puts (.waypointArm ini false v) s [(F.TMU_WP_TARGET_TARGET, w, x)]) ∧
        (s.rd F.TMU_WP_CTL_EN w = 1 → wpDue s w = false →
          let b := s.rd F.TMU_WP_CTL_TB w
          let d := diff32 x (now b)
          let put := (F.TMU_WP_TARGET_TARGET, w, x) :: armed b (s.rd F.TMU_WP_CTL_LA w)
          (tmuRuns s = false ∨ 0 < d → Puts (.waypointArm ini false v) s put) ∧
          (tmuRuns s = true → d ≤ 0 → s.rd F.TMU_WP_PERIOD_PERIOD w = 0 →
            (s.rd F.TMU_WP_CTL_DROPLATE w = 1 → Puts (.waypointArm ini false v) s (put ++ dropped)) ∧
            (s.rd F.TMU_WP_CTL_DROPLATE w = 0 → s.rd F.TMU_WP_CTL_ACT w = 0 →
              Puts (.waypointArm ini false v) s (put ++ late b (-d).toNat))))) ∧
    ∀ (n : BitVec 12) (rx : List (BitVec 15 × Byte)),
      let w := n.toNat
      let b := s.rd I.wpTb w
      let now := s.rd F.TMU_TB_NS_NS b
      let d := diff32 (s.rd F.TMU_WP_TARGET_TARGET w) now
      let st := s.rd F.TMU_WP_STAT_STATE w
      (tmuRuns s = false ∨ st ≠ wpPENDING ∨ 0 < d → exec (.waypointFire n rx) s = .next s) ∧
      (tmuRuns s = true → st = wpPENDING → d ≤ 0 → noticeDue s w = false →
        let a0 := s.rd F.TMU_WP_ARG0_ARG w
        let a1 := s.rd F.TMU_WP_ARG1_ARG w
        let u := s.wr F.TMU_WP_CAP_VALUE w now
        let fires := fun acted : State => exec (.waypointFire n rx) s = .next (rephase acted w now)
        let base := a0 % 4
        let act := s.rd F.TMU_WP_CTL_ACT w
        (∀ r : State, r.rd F.TMU_WP_PERIOD_PERIOD w = 0 → rephase r w now = puts r [(F.TMU_WP_STAT_STATE, w, wpDONE)]) ∧
        (∀ r : State, 1000 ≤ r.rd F.TMU_WP_PERIOD_PERIOD w → r.rd F.TMU_WP_PERIOD_PERIOD w < 2 ^ 31 →
          r.rd F.TMU_WP_TARGET_TARGET w = s.rd F.TMU_WP_TARGET_TARGET w →
          let p := r.rd F.TMU_WP_PERIOD_PERIOD w
          rephase r w now = puts r [(F.TMU_WP_TARGET_TARGET, w, s.rd F.TMU_WP_TARGET_TARGET w + ((diff32 now (s.rd F.TMU_WP_TARGET_TARGET w)).toNat / p + 1) * p),
            (F.TMU_WP_STAT_LADONE, w, 0), (F.TMU_WP_STAT_STATE, w, wpPENDING), (I.wpTb, w, r.rd F.TMU_WP_CTL_TB w), (I.wpLa, w, r.rd F.TMU_WP_CTL_LA w)]) ∧
        (act = 0 ∨ 8 < act → fires u) ∧
        (act = 1 → fires (setGroup u (a0 % 65536) (max 1 (min 1024 (a1 % 2048))) (bits a0 31 16))) ∧
        (act = 2 → fires (post u true a0 false)) ∧
        (act = 3 → fires (u.mlsTrig 2)) ∧
        (act = 4 → bitOf a0 0 = true → fires (realign u (bits a0 7 4) rx)) ∧
        (act = 4 → bitOf a0 0 = false → fires (puts u [(F.TMU_WP_CAP2_VALUE, w, s.rd I.tdxBndNs), (F.TMU_WP_CAP_VALUE, w, s.rd F.TMU_TB_NS_NS 1),
          (F.TMU_IRQSTAT_ALIGN, 0, 1)])) ∧
        (act = 5 → stepRefused base a1 = true → fires (puts u [(F.TMU_TB_STAT_STEPERR, base, 1)])) ∧
        (act = 5 → stepRefused base a1 = false → fires (puts u [(I.tbPend, base, 1), (I.tbPendV, base, s.rd I.tbPendV base + a1)])) ∧
        (act = 6 → s.serving = false → fires u) ∧
        (act = 6 → s.serving = true → fires (((List.range 8).filter (bitOf a0 ·)).foldl (fun v c => cluWake v c) u)) ∧
        (act = 7 → fires (hmSync (hmnModes u) (a0 % 16))) ∧
        (act = 8 → a0 % 8 < 5 → ioDrives s (pulsePin (a0 % 8)) = true → fires (puts u [(I.pulse, a0 % 8, 1)])) ∧
        (act = 8 → 5 ≤ a0 % 8 ∨ ioDrives s (pulsePin (a0 % 8)) = false → fires u)) ∧
      (tmuRuns s = false ∨ st ≠ wpHELD ∨ d ≤ 0 → exec (.waypointUnhold n) s = .next s) ∧
      (tmuRuns s = true → st = wpHELD → 0 < d → Puts (.waypointUnhold n) s [(F.TMU_WP_STAT_STATE, w, wpPENDING)]) ∧
      (let ready := tmuRuns s = true ∧ st = wpPENDING ∧ s.rd I.wpLa w = 1 ∧ s.rd F.TMU_WP_CTL_ACT w = 1 ∧ s.rd F.TMU_WP_STAT_LADONE w = 0 ∧
         d ≤ min 1000000 (s.rd F.TMU_LACFG_LOOKAHEAD)
       let base := s.rd F.TMU_WP_ARG0_ARG w % 65536
       let named := (tasks s).filter fun t => decide (base ≤ t) && decide (t < base + max 1 (min 1024 (s.rd F.TMU_WP_ARG1_ARG w % 2048)))
       let begun := puts s [(F.TMU_WP_STAT_LADONE, w, 1), (I.noticeSeq, 0, s.rd I.noticeSeq + 1)]
       (¬ ready → exec (.lookaheadNotice n) s = .next s) ∧
       (ready → s.serving = false → Puts (.lookaheadNotice n) s [(F.TMU_WP_STAT_LADONE, w, 1)]) ∧
       (ready → s.serving = true → exec (.lookaheadNotice n) s = .next
         (named.foldl (noticeTask (s.rd I.noticeSeq + 1) (s.rd F.TMU_WP_TARGET_TARGET w) b) (0, begun)).2))

/-! ## TDM highways (chapter 14) -/

/-- No timeslot is bound, in force or driven. -/
def Sys2Proof.Safety.mapBare (s : State) : Prop :=
  s.nonzero F.TDX_MAP_EN = [] ∧ s.nonzero F.TDX_MAP_SWAP = [] ∧ s.nonzero I.tdxForce = [] ∧ s.nonzero I.tdxOut = []

/-- One timeslot k of the reference group g is bound, in force as w, for reception; no handover is armed, and no group's store holds
a frame. -/
def Sys2Proof.Safety.oneTimeslot (s : State) (g k w : Nat) : Prop :=
  s.nonzero F.TDX_MAP_EN = [k] ∧ s.nonzero F.TDX_MAP_SWAP = [] ∧ s.nonzero I.tdxOut = [] ∧ Tbl.get [] s.cells I.tdxForce.id = [(k, w)] ∧
    tdxMapWord s k = w ∧ tdxSlotLive s g k = true ∧ s.rd F.TDX_CTRL_REFGRP = g ∧ s.rd F.TDX_SWAPCMD_ARM = 0 ∧ ∀ j, s.rd I.tdxFill j = 0

/-- Frames.  Without H.110 and with the clocks of the group good: a pulse in its place begins a frame, which in the reference group
advances FRAME, and BLKCNT at every 16th, and in another fills its store; a pulse elsewhere, or none, counts a frame error in a slave
group.  A byte received in the one bound timeslot reaches its place in the receive ring, expanded by its law (R424–R426, R429).  No
pulse for 375 µs sets LOSS and the clocks' status; a slip is counted and moves the store (R424, R426).  The code tables of the laws
are those of ITU-T G.711 (presumed, log entry 30).

The slot map, H.110 and handovers.  A map write that would bind what R430 forbids is refused and counted; any other is stored and
its use counted (R430).  With H.110, the loss of the A clocks takes the B clocks; CLKSEL = 1 takes B, and 0 returns to A at the next
pulse while A is good (R434).  ARM arms a handover, late where its time has passed, and ends no earlier one; at its frame every
entry with SWAP = 1 inverts EN: those enabled are disabled, and the one disabled is enabled where R430 does not refuse it (R436). -/
def Obligations.HighwaysFrameClockMapAndHandOver : Prop :=
  (∀ s : State, tdxH110 s = false → s.rd I.clkRet = 0 → (∀ k, s.rd F.TDX_CNT_COUNT k + 2 < 2 ^ 32) →
    let count := fun k => (F.TDX_CNT_COUNT, k, s.rd F.TDX_CNT_COUNT k + 1)
    let ref := s.rd F.TDX_CTRL_REFGRP
    let clocks := fun (g v : Nat) => if g = 0 then [(F.TDX_STAT_AOK, 0, v)] else if g = 1 then [(F.TDX_STAT_BOK, 0, v)] else []
    let f := s.rd F.TDX_FRAME_FRAME
    let inner := [(I.tdxFrmNs, 0, s.rd F.TMU_TB_NS_NS 0), (F.TDX_FRAME_FRAME, 0, f + 1)]
    let last := [(I.tdxFrmNs, 0, s.rd F.TMU_TB_NS_NS 0), (F.TDX_FRAME_FRAME, 0, 0), (F.TDX_BLKCNT_BLOCK, 0, s.rd F.TDX_BLKCNT_BLOCK + 1),
      (I.tdxBndNs, 0, s.rd F.TMU_TB_NS_NS 1)]
    let calm := s.rd F.TDX_SWAPCMD_ARM = 0 ∧ (∀ j, s.rd I.tdxFill j = 0) ∧ s.rd F.CWY_CTRL_RUN = 0
    (∀ (g : Fin 4) (kind : PulseKind) (rx : List (BitVec 15 × Byte)),
      let k := Instr.tdxFramePulse g kind rx
      let pulse := fun l => clocks g.val 1 ++ l
      let store := [(I.tdxFill, g.val, min 3 (s.rd I.tdxFill g.val + 1))]
      (groupOn s g.val = false → exec k s = .next s) ∧
      (groupOn s g.val = true →
        (cgMaster s g.val = true → kind = .absent → exec k s = .next s) ∧
        (cgMaster s g.val = false → kind = .absent → Puts k s [count 2]) ∧
        (s.rd F.TDX_CG_STAT_LOSS g.val = 0 → mapBare s →
          let whole := if g.val ≠ ref then store else if f < 15 then inner else last
          (g.val = ref → calm) →
            (kind = .onTime ∨ (cgMaster s g.val = true ∧ kind = .elsewhere) → Puts k s (pulse whole)) ∧
            (cgMaster s g.val = false → kind = .elsewhere → Puts k s (count 2 :: pulse whole))) ∧
        ∀ (e w : Nat), s.rd F.TDX_CG_STAT_LOSS g.val = 0 → kind = .onTime → oneTimeslot s g.val e w → eDriven w = false → eUse w = 0 →
          eWb w = false → bitOf w 24 = false → bitOf w 31 = true → f < 15 →
          let got := match rx.find? fun r => r.1.toNat == e with | some r => r.2.toNat | none => s.rd I.tdxHist e % 256
          exec k s = .next (puts (physWrite (puts s (clocks g.val 1 ++ [(I.tdxHist, e, s.rd I.tdxHist e * 256 + got)]))
            (rxRing (eRing w) + 2 * f + 32 * (s.rd F.TDX_BLKCNT_BLOCK % 4)) (leBytes 2 (lawExpand (eLaw w) got))) (inner ++ [(I.tdxXc, e, got)])))) ∧
    (∀ rx, (f ≠ 15 → exec (.tdxBlockBoundary rx) s = .next s) ∧
      (f = 15 → groupOn s ref = true → s.rd F.TDX_CG_STAT_LOSS ref = 0 → mapBare s → calm → Puts (.tdxBlockBoundary rx) s (clocks ref 1 ++ last))) ∧
    (∀ g : Fin 4,
      let slave := groupOn s g.val = true ∧ cgMaster s g.val = false
      (¬ slave → exec (.tdxClockLoss g) s = .next s) ∧
      (slave → Puts (.tdxClockLoss g) s ((if s.rd F.TDX_CG_STAT_LOSS g.val = 1 then [] else [(F.TDX_CG_STAT_LOSS, g.val, 1),
        (F.TDX_CG_STAT_LOSSCHG, g.val, 1), (F.TDX_IRQSTAT_CLKLOSS, 0, 1)]) ++ clocks g.val 0))) ∧
    (∀ (g : Fin 4) (slow : Bool),
      let drifts := groupOn s g.val = true ∧ g.val ≠ ref
      (¬ drifts → exec (.tdxSlip g slow) s = .next s) ∧
      (drifts → Puts (.tdxSlip g false) s [count 1, (F.TDX_IRQSTAT_SLIP, 0, 1), (I.tdxFill, g.val, s.rd I.tdxFill g.val - 1)]) ∧
      (drifts → s.nonzero I.tdxForce = [] →
        Puts (.tdxSlip g true) s [count 1, (F.TDX_IRQSTAT_SLIP, 0, 1), (I.tdxFill, g.val, min 3 (s.rd I.tdxFill g.val + 1))]))) ∧
  (∀ s : State, (∀ k, s.rd F.TDX_CNT_COUNT k + 2 < 2 ^ 32) →
    let count := fun k => (F.TDX_CNT_COUNT, k, s.rd F.TDX_CNT_COUNT k + 1)
    (∀ (ini : Init) (k : BitVec 15) (v : Word), s.fabric = true →
      let i := k.toNat
      let x := v.toNat
      let old := tdxMapWord s i
      (eBinds x = true → mapRefused s i x = true → Puts (.tdxMapWrite ini k v) s [count 5, (F.TDX_IRQSTAT_MAPERR, 0, 1)]) ∧
      (eBinds x = false ∨ mapRefused s i x = false → Puts (.tdxMapWrite ini k v) s (
        [(F.TDX_USECNT_CHAN, 0, s.rd F.TDX_USECNT_CHAN + useChan x - useChan old), (F.TDX_USECNT_XC, 0, s.rd F.TDX_USECNT_XC + useXc x - useXc old),
         (F.TDX_MAP_EN, i, bitN x 31), (F.TDX_MAP_DIR, i, bitN x 30)] ++ (if eUse x = 3 then [] else [(F.TDX_MAP_USE, i, eUse x)]) ++
        (if eLaw x = 3 then [] else [(F.TDX_MAP_LAW, i, eLaw x)]) ++
        [(F.TDX_MAP_WB, i, bitN x 25), (F.TDX_MAP_SWAP, i, bitN x 24), (F.TDX_MAP_TARGET, i, eTarget x)])) ∧
      Puts (.clkselWrite ini v) s ((if bitOf x 31 = true ∧ s.rd F.TDX_CTRL_RUN = 0 then [(F.TDX_BLKCNT_BLOCK, 0, 0), (F.TDX_FRAME_FRAME, 0, 0)] else []) ++
        [(F.TDX_CTRL_RUN, 0, bitN x 31), (F.TDX_CTRL_H110, 0, bitN x 30), (F.TDX_CTRL_REFGRP, 0, bits x 25 24)] ++
        (if bits x 29 28 = 3 then [] else [(F.TDX_CTRL_H110ROLE, 0, bits x 29 28)]) ++
        (if bitOf x 27 then [(F.TDX_CTRL_CLKSEL, 0, 1), (I.clkRet, 0, 0)]
         else if s.rd F.TDX_CTRL_CLKSEL = 1 ∧ s.rd F.TDX_STAT_AOK = 1 then [(I.clkRet, 0, 1)] else [])) ∧
      Puts (.handoverArm ini v) s ((if bitOf x 31 then [(F.TDX_SWAPCMD_LATE, 0, 0)] else []) ++ (if bitOf x 30 then [(F.TDX_SWAPCMD_DONE, 0, 0)] else []) ++
        (if bitOf x 0 = true ∧ s.rd F.TDX_SWAPCMD_ARM = 0 then [(F.TDX_SWAPCMD_ARM, 0, 1),
          (I.tdxLate, 0, if 0 ≤ diff32 (s.rd I.tdxFrmNs) ((s.rd F.TDX_SWAPT_T + 2 ^ 32 - 62500) % 2 ^ 32) then 1 else 0)] else []))) ∧
    (let lost := s.fabric = true ∧ s.rd F.TDX_CTRL_RUN = 1 ∧ tdxH110 s = true ∧ s.rd F.TDX_CTRL_CLKSEL = 0 ∧ cgMaster s 0 = false
     (¬ lost → exec .h110Failover s = .next s) ∧
     (lost → Puts .h110Failover s [(F.TDX_CTRL_CLKSEL, 0, 1), (F.TDX_STAT_AOK, 0, 0), (F.TDX_IRQSTAT_FAILOVER, 0, 1), count 3])) ∧
    ∀ rx : List (BitVec 15 × Byte),
      (handoverDue s = false → exec (.handoverApply rx) s = .next s) ∧
      (handoverDue s = true → tdxH110 s = false → groupOn s (s.rd F.TDX_CTRL_REFGRP) = true → s.rd F.TDX_FRAME_FRAME < 15 →
        Does (.handoverApply rx) s fun t => t.rd F.TDX_SWAPCMD_ARM = 0 ∧ t.rd F.TDX_SWAPCMD_DONE = 1 ∧ t.rd F.TDX_IRQSTAT_SWAPDONE = 1 ∧
          t.rd F.TDX_FRAME_FRAME = s.rd F.TDX_FRAME_FRAME + 1 ∧ (s.rd I.tdxLate = 1 → t.rd F.TDX_SWAPCMD_LATE = 1) ∧
          (∀ k, s.rd F.TDX_MAP_SWAP k = 0 → t.rd F.TDX_MAP_EN k = s.rd F.TDX_MAP_EN k) ∧
          (∀ k, s.rd F.TDX_MAP_SWAP k = 1 → t.rd F.TDX_MAP_SWAP k = 0 ∧ (s.rd F.TDX_MAP_EN k = 1 → t.rd F.TDX_MAP_EN k = 0)) ∧
          (∀ k, mapPlaces s = [k] → s.rd F.TDX_MAP_SWAP k = 1 → s.rd F.TDX_MAP_EN k = 0 →
            mapRefused s k (tdxMapWord s k + 2 ^ 31 - 2 ^ 24) = false → t.rd F.TDX_MAP_EN k = 1)))

/-! ## The health monitor (chapter 16) -/

/-- What a synchronising reset of the masked slices writes. -/
def Sys2Proof.Safety.syncCells (s : State) (mask : Nat) : List (Fld × Nat × Nat) :=
  (((List.range 4).filter fun j => bitOf mask j).flatMap fun j =>
      [(I.hmRst, j, s.rd I.hmNow), (I.hmWin, j, s.rd I.hmNow), (I.hmBnd, j, 0), (I.hmDwell, j, 0)]) ++
    (if s.rd F.HMN_CTRL_DDSSYNC = 1 ∧ mask % 16 ≠ 0 then
      [(I.hmDds, 0, 0), (I.hmChg, 0, s.rd I.hmNow + 1), (I.hmDds, 1, 0), (I.hmChg, 1, s.rd I.hmNow + 1)] else [])

/-- What selecting input j of slice k writes: the switch begins, or is remembered while one runs. -/
def Sys2Proof.Safety.switchCells (s : State) (k j : Nat) : List (Fld × Nat × Nat) :=
  if s.rd I.hmSw k = 0 then [(I.hmSw, k, j + 1), (I.hmWin, k, s.rd I.hmNow)] else [(I.hmNext, k, j + 1)]

/-- What one threshold of input n writes for an output; `toward`: the output meets the condition toward the other state; `action` is
0 or 1. -/
def Sys2Proof.Safety.thresholdCells (s : State) (n : Nat) (run act evt : Fld) (toward : Bool) (action : Nat) : List (Fld × Nat × Nat) :=
  if toward = false then [(run, n, 0)]
  else if s.rd run n + 1 < max 1 (s.rd F.HMN_SNS_THRCFG_PERSIST n) then [(run, n, s.rd run n + 1)]
  else if s.rd act n = 1 then [(run, n, 0), (act, n, 0)]
  else [(run, n, 0), (act, n, 1), (evt, n, 1)] ++ if action = 1 then [(F.HMN_IRQSTAT_THR, 0, 1)] else []

/-- The health monitor, outside WATCH, while its chain and its exciters follow the mode.  SYNC and a write of SLC_CFG reset slices; a selected
input is switched to, or remembered, and made with its gain and a reset; a scan step comes after DWELL outputs (R472, R481).  A fine
output is written with its flags, and a valid one without flags is judged by both thresholds with hysteresis and PERSIST (R479,
R483); a coarse sample by both comparators (R485), both without throttling or fatal actions.  A window's I and Q are written (R487); a
change of an exciter is noted (R488); a gain acts from the next fine step on (R489).  Time is counted in the modulator samples of
the model's tick (log entry 1). -/
def Obligations.HealthMonitorSlicesAndOutputs : Prop :=
  ∀ s : State, hmRate s = s.rd I.hmMode → (∀ d, d < 2 → hmExcites s d = s.on I.hmExc d) → bitOf (s.rd I.throtSrc) 2 = hmThrottles s →
    s.mode ≠ mWATCH →
    let now := s.rd I.hmNow
    (s.fabric = false → ∀ (ini : Init) (v : Word), exec (.hmnSync ini v) s = .next s ∧ (∀ k, exec (.slcCfgWrite ini k v) s = .next s) ∧
      (∀ e cfg, exec (.excitationChange ini e cfg v) s = .next s) ∧ exec (.gainWrite ini v) s = .next s) ∧
    (∀ (ini : Init) (v : Word), s.fabric = true →
      let x := v.toNat
      Puts (.hmnSync ini v) s (syncCells s (x % 16)) ∧
      (∀ k : Fin 4, Puts (.slcCfgWrite ini k v) s ([(F.HMN_SLC_CFG_FMODE, k.val, bitN x 31), (F.HMN_SLC_CFG_NHB, k.val, bits x 30 27),
        (F.HMN_SLC_CFG_MALEN, k.val, bits x 25 13), (F.HMN_SLC_CFG_PHASE, k.val, bits x 9 0)] ++ syncCells s (2 ^ k.val))) ∧
      (∀ k : Fin 4, let mux := [(F.HMN_SLC_MUX_SCAN, k.val, bitN x 31), (F.HMN_SLC_MUX_INMASK, k.val, bits x 27 24),
          (F.HMN_SLC_MUX_DISCH, k.val, bits x 21 16), (F.HMN_SLC_MUX_DWELL, k.val, bits x 15 8)]
        Puts (.inputSwitch ini k false v) s (mux ++ (if bitOf x 31 = true ∧ bits x 27 24 ≠ 0 then switchCells s k.val (scanNext (bits x 27 24) 3)
          else (F.HMN_SLC_MUX_CUR, k.val, bits x 1 0) :: switchCells s k.val (bits x 1 0)))) ∧
      (∀ e : Fin 2,
        let runs := fun en : Bool => if s.rd F.HMN_CTRL_EN = 1 ∧ en = true ∧ (s.mode = mBOOT ∨ s.serving = true) then 1 else 0
        Puts (.excitationChange ini e true v) s [(F.HMN_EXC_CFG_EN, e.val, bitN x 31), (F.HMN_EXC_CFG_AMP, e.val, bits x 7 0),
          (I.hmExc, e.val, runs (bitOf x 31)), (I.hmChg, e.val, now + 1)] ∧
        Puts (.excitationChange ini e false v) s [(F.HMN_EXC_FTW_FTW, e.val, max 10486 (min 209715200 x)),
          (I.hmExc, e.val, runs (s.on F.HMN_EXC_CFG_EN e.val)), (I.hmChg, e.val, now + 1)]) ∧
      (selIx s ini F.HMN_SELECT_INDEX 16 = none → exec (.gainWrite ini v) s = .next s) ∧
      ∀ n, selIx s ini F.HMN_SELECT_INDEX 16 = some n →
        let k := n / 4
        let g := bits x 26 24
        let regs := [(F.HMN_SNS_CFG_EXCSENSE, n, bitN x 27), (F.HMN_SNS_CFG_GAIN, n, g)]
        let idle := hmInput s k ≠ n ∨ s.rd I.hmSw k ≠ 0 ∨ g = s.rd I.hmG k
        (idle → Puts (.gainWrite ini v) s regs) ∧
        (¬ idle → Puts (.gainWrite ini v) s (regs ++ (if now < s.rd I.hmBnd k - 1 then [] else [(I.hmOldG, k, s.rd I.hmG k)]) ++
          [(I.hmG, k, g), (I.hmBnd, k, s.rd I.hmRst k + ((now - s.rd I.hmRst k) / 16 + 1) * 16 + 1)]))) ∧
    ∀ k : Fin 4, let i := k.val
      let runs := s.rd I.hmMode ≠ 0
      (¬ runs → exec (.inputMake k) s = .next s ∧ (∀ d, exec (.fineOutput k d) s = .next s) ∧ (∀ d, exec (.coarseCompare k d) s = .next s) ∧
        (∀ a b, exec (.demodWindowEnd k a b) s = .next s)) ∧
      (∀ (ini : Init) (v : Word), runs →
        let due := hmScans s i = true ∧ s.rd I.hmSw i = 0 ∧ max 1 (s.rd F.HMN_SLC_MUX_DWELL i) ≤ s.rd I.hmDwell i
        (¬ due → exec (.inputSwitch ini k true v) s = .next s) ∧
        (due → Puts (.inputSwitch ini k true v) s (switchCells s i (scanNext (s.rd F.HMN_SLC_MUX_INMASK i) (s.rd I.hmCur i))))) ∧
      (s.rd I.hmSw i = 0 → exec (.inputMake k) s = .next s) ∧
      (runs → s.rd I.hmSw i ≠ 0 → let j := s.rd I.hmSw i - 1
        Puts (.inputMake k) s ([(I.hmCur, i, j), (F.HMN_SLC_MUX_CUR, i, j), (I.hmSw, i, 0), (I.hmG, i, s.rd F.HMN_SNS_CFG_GAIN (4 * i + j))] ++
          syncCells s (2 ^ i) ++ if s.rd I.hmNext i = 0 then [] else [(I.hmNext, i, 0), (I.hmSw, i, s.rd I.hmNext i), (I.hmWin, i, now)])) ∧
      (∀ d : BitVec 24,
        let n := hmInput s i
        let word := fun valid v => (F.HMN_SNS_DATA_WORD, n, hmWord valid (hmUnsettled s i) (hmRangex s i) (hmChopRip s i) (hmGain s i) v)
        let counted := word true d.toNat :: if s.rd I.hmDwell i < 255 then [(I.hmDwell, i, s.rd I.hmDwell i + 1)] else []
        let good := hmUnsettled s i = false ∧ hmRangex s i = false ∧ hmChopRip s i = false
        let v : Int := signedOf 24 d.toNat * (2 ^ (7 - hmGain s i) : Nat)
        let hyst : Int := (s.rd F.HMN_SNS_THRCFG_HYST n * 256 : Nat)
        let hi := signedOf 32 (s.rd F.HMN_SNS_THRHI_THR n)
        let lo := signedOf 32 (s.rd F.HMN_SNS_THRLO_THR n)
        (s.rd I.hmSw i ≠ 0 → exec (.fineOutput k d) s = .next s) ∧
        (runs → s.rd I.hmSw i = 0 → hmFilling s i = true → Puts (.fineOutput k d) s [word false 0]) ∧
        (runs → s.rd I.hmSw i = 0 → hmFilling s i = false →
          (¬ good → Puts (.fineOutput k d) s counted) ∧
          (good → s.rd F.HMN_SNS_THRCFG_ACTHI n ≤ 1 → s.rd F.HMN_SNS_THRCFG_ACTLO n ≤ 1 → Puts (.fineOutput k d) s (counted ++
            thresholdCells s n I.hmRunHi F.HMN_SNS_STAT_HIACT F.HMN_SNS_STAT_HIEVT
              (if s.rd F.HMN_SNS_STAT_HIACT n = 1 then decide (v < hi - hyst) else decide (hi ≤ v)) (s.rd F.HMN_SNS_THRCFG_ACTHI n) ++
            thresholdCells s n I.hmRunLo F.HMN_SNS_STAT_LOACT F.HMN_SNS_STAT_LOEVT
              (if s.rd F.HMN_SNS_STAT_LOACT n = 1 then decide (lo + hyst < v) else decide (v ≤ lo)) (s.rd F.HMN_SNS_THRCFG_ACTLO n))))) ∧
      (∀ d : BitVec 16,
        let v := signedOf 16 d.toNat
        let above := s.rd F.HMN_SLC_CCFG_OVEN i = 1 ∧ signedOf 16 (s.rd F.HMN_SLC_COARSE_COVER i) ≤ v
        let below := s.rd F.HMN_SLC_CCFG_UNEN i = 1 ∧ v ≤ signedOf 16 (s.rd F.HMN_SLC_COARSE_CUNDER i)
        let sample := [(F.HMN_SLC_CDATA_CODE, i, d.toNat), (F.HMN_SLC_CDATA_VALID, i, if s.rd I.hmRst i + hmDelay s i + 48 ≤ now then 1 else 0)]
        let act := fun n : Nat => if n = 1 then [(F.HMN_IRQSTAT_COARSE, 0, 1)] else []
        (s.rd I.hmMode ≠ 1 ∨ s.rd I.hmSw i ≠ 0 → exec (.coarseCompare k d) s = .next s) ∧
        (s.rd I.hmMode = 1 → s.rd I.hmSw i = 0 →
          (coarseActs s i = false → Puts (.coarseCompare k d) s sample) ∧
          (coarseActs s i = true → s.rd F.HMN_SLC_CCFG_OVACT i ≤ 1 → s.rd F.HMN_SLC_CCFG_UNACT i ≤ 1 → Puts (.coarseCompare k d) s (sample ++
            [(F.HMN_SLC_STAT_OVER, i, if above then 1 else 0), (F.HMN_SLC_STAT_UNDER, i, if below then 1 else 0)] ++
            (if above then (F.HMN_SLC_STAT_OVEVT, i, 1) :: act (s.rd F.HMN_SLC_CCFG_OVACT i) else []) ++
            (if below then (F.HMN_SLC_STAT_UNEVT, i, 1) :: act (s.rd F.HMN_SLC_CCFG_UNACT i) else []))))) ∧
      ∀ a b : BitVec 24,
        (hmDemods s i = false → exec (.demodWindowEnd k a b) s = .next s) ∧
        (runs → hmDemods s i = true →
          let word := fun v => hmWord (decide (s.rd I.hmRst i + hmDelay s i + 2 ≤ s.rd I.hmWin i)) (demUnsettled s i) (hmRangexWin s i) (demChop s i) (hmGain s i) v
          Puts (.demodWindowEnd k a b) s [(F.HMN_SNS_DEMI_WORD, hmInput s i, word a.toNat), (F.HMN_SNS_DEMQ_WORD, hmInput s i, word b.toNat),
            (I.hmWin, i, now), (F.HMN_IRQSTAT_DEMRDY, 0, 1)])

/-! ## Milestones and the debug port (chapter 17) -/

/-- What a trigger from sources n does, by a command that also writes `also`: no enabled source, nothing; armed, the Milestone is
accepted; otherwise it is missed (R493–R495). -/
def Sys2Proof.Safety.Triggers (i : Instr) (s : State) (n : Nat) (also : List (Fld × Nat × Nat)) : Prop :=
  let en := Nat.land n (s.rd F.MLS_SRCEN_SRCEN)
  let wrote := fun t : State => ∀ p ∈ also, t.rd p.1 p.2.1 = p.2.2
  let places := also.map fun p => (p.1, p.2.1)
  (en = 0 → Does i s fun t => wrote t ∧ OnlyCells s t places) ∧
    (en ≠ 0 → s.rd F.MLS_STAT_ARMED = 1 → Does i s fun t => wrote t ∧ t.rd F.MLS_STAT_ARMED = 0 ∧
      t.rd F.MLS_STAT_SEQ = (s.rd F.MLS_STAT_SEQ + 1) % 2 ^ 16 ∧ t.rd F.MLS_STAT_SRC = en % 2 ^ 5 ∧ t.rd I.mlsLatch = 1 ∧
      OnlyCells s t ([(F.MLS_STAT_ARMED, 0), (F.MLS_STAT_SEQ, 0), (F.MLS_STAT_SRC, 0), (I.mlsLatch, 0)] ++ places)) ∧
    (en ≠ 0 → s.rd F.MLS_STAT_ARMED = 0 → Does i s fun t => wrote t ∧ t.rd F.MLS_IRQSTAT_MISS = 1 ∧
      t.rd F.MLS_MISSCNT_COUNT = min (s.rd F.MLS_MISSCNT_COUNT + 1) (2 ^ 32 - 1) ∧
      OnlyCells s t ([(F.MLS_IRQSTAT_MISS, 0), (F.MLS_MISSCNT_COUNT, 0), (F.MLS_IRQSTAT_CNTOVF, 0)] ++ places))

/-- The snapshot registers. -/
def Sys2Proof.Safety.snapCells : List Fld :=
  [F.PMU_SNAP_MODE_VALUE, F.PMU_SNAP_NWCNT_LO_VALUE, F.PMU_SNAP_NWCNT_HI_VALUE, F.PMU_SNAP_NWOFS_OFS, F.PMU_SNAP_AVS_VALUE,
   F.PMU_SNAP_THERM_VALUE, F.CLU_SNAP_STATE_STATE, F.SYS_SNAP_STATUS_VALUE, F.SYS_SNAP_ERRINFO_VALUE, F.SIC_SNAP_PEND_VALUE,
   F.TSU_SNAP_READYCNT_VALUE, F.TSU_SNAP_URGCNT_VALUE, F.TSU_SNAP_TRCSTAT_VALUE, F.TSU_SNAP_DISPCNT_VALUE, F.TSU_SNAP_BUSY_LO_VALUE,
   F.TSU_SNAP_BUSY_HI_VALUE, F.CPG_SNAP_FREE_VALUE, F.CPG_SNAP_STAT_VALUE, F.CPG_SNAP_STAGECNT_VALUE, F.CPG_SNAP_WBCNT_VALUE,
   F.DMA_SNAP_BUSY_VALUE, F.DMC_SNAP_STAT_VALUE, F.DMC_SNAP_ECCCOR_VALUE, F.PKE_SNAP_CELLSTAT_VALUE, F.PKE_SNAP_CLSCNT_VALUE,
   F.PKE_SNAP_TXFRM_VALUE, F.PKE_SNAP_RXFRM_VALUE, F.TMU_SNAP_NS_VALUE, F.TMU_SNAP_LATECNT_VALUE, F.TDX_SNAP_BLKCNT_VALUE,
   F.TDX_SNAP_FRAME_VALUE, F.TDX_SNAP_CTRL_VALUE, F.TDX_SNAP_USECNT_VALUE, F.CWY_SNAP_LSTAT_VALUE, F.CWY_SNAP_EPOCH_VALUE,
   F.HMN_SNS_SNAP_VALUE, F.MLS_SNAP_STAT_VALUE, F.MLS_SNAP_MISSCNT_VALUE]

/-- Milestones.  A trigger from an enabled source is accepted while armed, and missed and counted otherwise; MLIN triggers on its level,
MLS_TRIG by software, a received MLSTONE frame is recorded and triggers unless the protection map discards it (R493–R495,
R499).  The latch copies the snapshots and ends nothing else; POSTCNT entries later the trace ring is held (R494, R497, R498,
R501).  ARM releases it (R495, R501).  No MLSTONE is sent here, and no fatal error waits for the latch.  Which side of its edge the
Nightwatch counter is taken on is a free value (log entry 22), and the latch is where a deferred entry to FENCED happens (log entry
42). -/
def Obligations.MilestonesAreTakenOrMissed : Prop :=
  ∀ s : State,
    (s.fabric = false → (∀ n, exec (.mlsTrigger n) s = .next s) ∧ (∀ r, exec (.mlinEdge r) s = .next s) ∧
      (∀ (ini : Init) (v : Word), exec (.mlsTrig ini v) s = .next s ∧ exec (.mlsArm ini v) s = .next s) ∧
      (∀ d q, exec (.mlstoneRx d q) s = .next s) ∧ ∀ o, exec (.milestoneLatch o) s = .next s) ∧
    (s.fabric = true →
      (∀ n : BitVec 5, Triggers (.mlsTrigger n) s n.toNat []) ∧
      (∀ r : Bool, ((if r then 1 else 0) ≠ s.rd F.MLS_SRCEN_MLINPOL → exec (.mlinEdge r) s = .next s) ∧
        ((if r then 1 else 0) = s.rd F.MLS_SRCEN_MLINPOL → Triggers (.mlinEdge r) s 1 [])) ∧
      (∀ (ini : Init) (v : Word),
        (bitOf v.toNat 0 = false → exec (.mlsTrig ini v) s = .next s ∧ exec (.mlsArm ini v) s = .next s) ∧
        (bitOf v.toNat 0 = true → Triggers (.mlsTrig ini v) s 4 [] ∧
          Puts (.mlsArm ini v) s [(F.MLS_STAT_ARMED, 0, 1), (F.MLS_STAT_TRCHELD, 0, 0), (I.mlsPost, 0, 0)])) ∧
      (∀ (d : BitVec 11) (q : BitVec 16),
        (s.rd F.FUS_PMMISC_RMLS = 0 → exec (.mlstoneRx d q) s = .next s) ∧
        (s.rd F.FUS_PMMISC_RMLS = 1 → Triggers (.mlstoneRx d q) s 16 [(F.MLS_RREC_VALID, 0, 1), (F.MLS_RREC_DEV, 0, d.toNat),
          (F.MLS_RREC_RSEQ, 0, q.toNat), (F.MLS_IRQSTAT_REMOTE, 0, 1)])) ∧
      ∀ o : BitVec 15,
        (s.rd I.mlsLatch = 0 → exec (.milestoneLatch o) s = .next s) ∧
        (s.rd I.mlsLatch = 1 → (∀ k, k < 8 → s.rd F.MLS_CWDEV_VALID k = 0) → s.rd I.fencePend = 0 → Does (.milestoneLatch o) s fun t =>
          t.rd I.mlsLatch = 0 ∧ t.rd F.MLS_IRQSTAT_TAKEN = 1 ∧ t.rd F.PMU_SNAP_NWOFS_OFS = o.toNat ∧
          (∀ n, n < 16 → t.rd F.HMN_SNS_SNAP_VALUE n = s.rd F.HMN_SNS_DATA_WORD n) ∧
          (∀ b, b < 4 → t.rd F.TMU_SNAP_NS_VALUE b = s.rd F.TMU_TB_NS_NS b) ∧
          (∀ p, p < 8 → t.rd F.PKE_SNAP_TXFRM_VALUE p = s.rd F.PKE_P_CNT_COUNT (12 * p + 5) ∧
            t.rd F.PKE_SNAP_RXFRM_VALUE p = s.rd F.PKE_P_CNT_COUNT (12 * p)) ∧
          t.rd I.mlsPost = (if s.rd F.MLS_TRCCFG_HOLDEN = 1 then (s.rd F.MLS_TRCCFG_POSTCNT + 1) % 2 ^ I.mlsPost.w else s.rd I.mlsPost) ∧
          t.rd I.mlOut = (if s.rd F.MLS_OUTCFG_EN = 1 then 1 else s.rd I.mlOut) ∧
          SameOtherCells s t ([I.mlsLatch, I.mlsPost, I.mlOut, F.MLS_IRQSTAT_TAKEN] ++ snapCells) ∧
          t = { s with cells := t.cells, freeCtr := s.freeCtr + 1 })) ∧
    (s.rd I.mlsPost ≠ 1 → exec .traceHold s = .next s) ∧
    (s.rd I.mlsPost = 1 → Puts .traceHold s [(F.MLS_STAT_TRCHELD, 0, 1), (I.mlsPost, 0, 0)]) ∧
    Puts .mloutPulseEnd s [(I.mlOut, 0, 0)]

/-- The debug port.  A reset of the TAP selects IDCODE; an instruction is selected, and a boundary-scan instruction in service is a
fatal error (R502, R503).  DBGCHAL captures a fresh nonce, a free value; a response to it unlocks, or counts as a failure, and after
three none is taken (R505).  DBGACC, selected and available, makes its access and records how it ended, and unavailable it only
says so (R504).  A core at a boundary halts when its bit is set and resumes when it is cleared; STEP lets a halted core issue; a
register of a halted core is written; other initiators do none of this (R506).  The nonce is a free value, and SHA-384 and ECDSA
P-384 are constants without a body (the model's choices, log entries 20 and 26). -/
def Obligations.DebugPortUnlocksHaltsAndAccesses : Prop :=
  ∀ s : State,
    Puts .tapReset s [(I.dbgIr, 0, 1)] ∧
    (∀ ir : BitVec 8, let scan := s.serving = true ∧ ir.toNat ∈ [3, 4, 5]
      (¬ scan → Puts (.tapInstructionLoad ir) s [(I.dbgIr, 0, ir.toNat)]) ∧
      (scan → exec (.tapInstructionLoad ir) s = .next (fatalError (puts s [(I.dbgIr, 0, ir.toNat)]) 5))) ∧
    (debugLevel s ≠ 1 ∨ s.rd I.dbgIr ≠ 0x10 → exec .dbgchal s = .next s) ∧
    (debugLevel s = 1 → s.rd I.dbgIr = 0x10 → Does .dbgchal s fun t => t.rd I.dbgNonce = Config.freeNat s.freeCtr % 2 ^ I.dbgNonce.w ∧
      t.rd I.dbgChal = 1 ∧ SameCells s t [(I.dbgNonce, 0), (I.dbgChal, 0)] ∧ t = { s with cells := t.cells, freeCtr := s.freeCtr + 1 }) ∧
    (∀ (slot : BitVec 2) (key sig : List Byte), let k := Instr.dbgresp slot key sig
      let taken := debugLevel s = 1 ∧ s.rd I.dbgIr = 0x11 ∧ s.rd I.dbgFails < 3
      (¬ taken → exec k s = .next s) ∧
      (taken → responseOk s slot.toNat key sig = true → Puts k s [(I.dbgChal, 0, 0), (I.dbgUnl, 0, 1)]) ∧
      (taken → responseOk s slot.toNat key sig = false → Puts k s [(I.dbgChal, 0, 0), (I.dbgFails, 0, s.rd I.dbgFails + 1)])) ∧
    (∀ (op : BitVec 2) (a : PAddr) (v : Word), let k := Instr.dbgacc op a v
      (s.rd I.dbgIr ≠ 0x20 ∨ s.fabric = false → exec k s = .next s) ∧
      (s.rd I.dbgIr = 0x20 → s.fabric = true →
        (dbgAvail s = false → Puts k s [(I.dbgStatus, 0, 3)]) ∧
        (dbgAvail s = true →
          (op.toNat = 0 ∨ op.toNat = 3 → exec k s = .next s) ∧
          (op.toNat = 2 → let r := busWrite s .dbg a.toNat (leBytes 4 v.toNat)
            exec k s = .next (r.2.wr I.dbgStatus 0 (if r.1 = .ok then 0 else 2))) ∧
          (op.toNat = 1 → let r := busRead s .dbg a.toNat 4
            exec k s = .next (((r.2.2.wr I.dbgStatus 0 (if r.1 = .ok then 0 else 2)).wr I.dbgData 0 r.2.1).seen (initCode .dbg) r.2.1))))) ∧
    (s.fabric = true →
      (∀ (ini : Init) (v : Word), ini ≠ .dbg → (∀ a b, exec (.dbgHalt ini a b v) s = .next s) ∧ exec (.dbgStep ini v) s = .next s ∧
        exec (.dbgRegdataWrite ini v) s = .next s) ∧
      (∀ (svc hi : Bool) (req fld : Fld) (base n k : Nat) (v : Word),
        (svc = false ∧ hi = false ∧ req = F.MLS_DBG_HALT_LO_CORES ∧ fld = F.MLS_DBG_HALTED_LO_CORES ∧ base = 0 ∧ n = 32) ∨
          (svc = false ∧ hi = true ∧ req = F.MLS_DBG_HALT_HI_CORES ∧ fld = F.MLS_DBG_HALTED_HI_CORES ∧ base = 32 ∧ n = 32) ∨
          (svc = true ∧ req = F.MLS_DBG_HALT_SVC_CORES ∧ fld = F.MLS_DBG_HALTED_SVC_CORES ∧ base = 64 ∧ n = 4) → k < n →
        (v.toNat = 2 ^ k → s.rd fld = 0 → atBoundary s (base + k) = true → Does (.dbgHalt .dbg svc hi v) s fun t =>
          t.rd req = v.toNat ∧ t.rd fld = v.toNat ∧ bundleOf t (base + k) = Bundle.empty ∧ (∀ d, d ≠ base + k → bundleOf t d = bundleOf s d) ∧
          SameCells s t [(req, 0), (fld, 0), (I.qstall, base + k)] ∧ t = { s with cells := t.cells, bundles := t.bundles }) ∧
        (v.toNat = 0 → s.rd fld = 2 ^ k → (64 ≤ base + k ∨ s.rd I.cJob (base + k) = 0 ∨ s.rd I.jCancel (s.rd I.cJob (base + k) - 1) = 0) →
          Puts (.dbgHalt .dbg svc hi v) s [(req, 0, 0), (fld, 0, 0)])) ∧
      ∀ v : Word,
        (let c := bits v.toNat 6 0
         let sel := [(F.MLS_DBG_STEP_CORE, 0, c), (F.MLS_DBG_STEP_GO, 0, 0)]
         let goes := bitOf v.toNat 31 = true ∧ c ≤ 0x43 ∧ halted s c = true ∧ coreLive s c = true
         (goes → Puts (.dbgStep .dbg v) s (sel ++ [(F.MLS_DBG_STEP_GO, 0, 1)])) ∧ (¬ goes → Puts (.dbgStep .dbg v) s sel)) ∧
        (let c := s.rd F.MLS_DBG_REGSEL_CORE
         let off := 4 * s.rd F.MLS_DBG_REGSEL_OFS
         let k := Instr.dbgRegdataWrite .dbg v
         (0x43 < c ∨ halted s c = false → exec k s = .next s) ∧
         (c < 64 → halted s c = true → exec k s = .next (recordWrite s (rbank s c) off v.toNat)) ∧
         (64 ≤ c → c ≤ 0x43 → halted s c = true →
           (off < 0x1A0 → exec k s = .next (recordWrite s (rbank s c) off v.toNat)) ∧
           (0x1C0 < off → exec k s = .next s) ∧
           (∀ r, svcRegAt off = some r → Puts k s [(I.scr, 16 * (c - 64) + r, Nat.land v.toNat (scrMask r))]))))

/-! ## Causeway (chapter 15) -/

/-- What a link's entry to UP writes, with its latencies overridden or those of a tunnel (R441, R445). -/
def Sys2Proof.Safety.enteredUp (l : Nat) : List (Fld × Nat × Nat) :=
  [(F.CWY_L_STAT_STATE, l, ckUP), (F.CWY_L_STAT_UP, l, 1), (F.CWY_L_STAT_LINKCHG, l, 1), (F.CWY_IRQSTAT_LINK, 0, 1), (I.cwRounds, l, 0),
   (I.cwTx, l, 0), (I.cwRx, l, 0), (I.tmHave, l, 0)]

/-- Link l counts in its counter k; the device counts in its counter k. -/
def Sys2Proof.Safety.linkCounted (s : State) (l k : Nat) : Fld × Nat × Nat := (F.CWY_L_CNT_COUNT, 6 * l + k, s.rd F.CWY_L_CNT_COUNT (6 * l + k) + 1)
def Sys2Proof.Safety.cwCounted (s : State) (k : Nat) : Fld × Nat × Nat := (F.CWY_CNT_COUNT, k, s.rd F.CWY_CNT_COUNT k + 1)

/-- Link l is down: its unacknowledged frames are lost and counted, its fall from UP is counted and told, and its state is cleared. -/
def Sys2Proof.Safety.linkFallen (s : State) (l : Nat) : State :=
  { puts s ([(F.CWY_L_CNT_COUNT, 6 * l + 5, s.rd F.CWY_L_CNT_COUNT (6 * l + 5) + (linkOf s l).replay.length)] ++
      (if cwUp s l then [(F.CWY_L_STAT_UP, l, 0), (F.CWY_L_STAT_LINKCHG, l, 1), (F.CWY_IRQSTAT_LINK, 0, 1), linkCounted s l 4] else []) ++
      [(F.CWY_L_STAT_STATE, l, 0), (I.cwSent, l, 0), (I.cwGot, l, 0), (I.cwRounds, l, 0), (I.tmHave, l, 0)]) with
    links := Tbl.put Link.empty l Link.empty s.links }

/-- A frame that this device builds, for a device or a link's peer. -/
def Sys2Proof.Safety.ownFrame (s : State) (type dev : Nat) (p : List Byte) : CwFrame := ⟨type, dev, ownDev s, s.rd F.CWY_EPOCH_EPOCH, 15, p⟩

/-- A command that writes `pre` and sends one sequenced frame on its way to a device: with its number locked and an UP route to a
link with room the frame is sent and `done` is written; without number or route it is counted in UNREACH and `lost` is written
(R445, R446). -/
def Sys2Proof.Safety.Sends (i : Instr) (s : State) (pre : List (Fld × Nat × Nat)) (type dev : Nat) (p : List Byte)
    (done lost : List (Fld × Nat × Nat)) : Prop :=
  (∀ k, devLocked s = true → cwRoute s dev = some k → LinkOpen s k (ownFrame s type dev p) →
    exec i s = .next (puts (sentFrame (puts s pre) k (ownFrame s type dev p)) done)) ∧
  (devLocked s = false ∨ cwRoute s dev = none → s.rd F.CWY_CNT_COUNT 0 + 2 < 2 ^ 32 → Puts i s (pre ++ cwCounted s 0 :: lost))

/-- Links.  Training ends in HELLO, loss and silence in DOWN (R441).  In HELLO and UP a keepalive sends a LINK frame, and the
first LINK frames sent and received take the link UP (R441, R443).  A round of retransmission sends the unacknowledged frames again,
and after 8 rounds the link goes DOWN (R445).  A TIME frame is sent with the stamps of R457.  No migration is in progress.  The CRC
is that of IEEE 802.3, its bytes in network order (log entry 29). -/
def Obligations.CausewayLinksTrainAndFall : Prop :=
  ∀ (s : State) (l : Fin 14),
    let i := l.val
    let state := s.rd F.CWY_L_STAT_STATE i
    let calm := s.nonzero F.CWY_M_STAT_STATE = []
    let room := ∀ j, s.rd F.CWY_L_CNT_COUNT j + (linkOf s i).replay.length + 3 < 2 ^ 32
    let starts := state = ckDOWN ∧ cwMayRun s i = true
    let hello := ownFrame s cwLINK 0 (beBytes 4 (b2n (devLocked s) * 2 ^ 31 + ownDev s) ++ [0, 0, 0, 0])
    (state = ckTRAIN ∨ starts → Does (.cwLinkTrained l) s fun t => t.rd F.CWY_L_STAT_STATE i = ckHELLO ∧ OnlyCells s t [(F.CWY_L_STAT_STATE, i)]) ∧
    (¬ (state = ckTRAIN ∨ starts) → exec (.cwLinkTrained l) s = .next s) ∧
    (calm → state = ckDOWN → exec (.cwLinkDown l) s = .next s) ∧
    (calm → room → state ≠ ckDOWN → (linkOf s i).waiting = [] → exec (.cwLinkDown l) s = .next (linkFallen s i)) ∧
    (¬ starts → state ≠ ckHELLO → cwUp s i = false → exec (.cwLinkKeepalive l) s = .next s) ∧
    (starts → i < 6 → cwUp s i = false → Puts (.cwLinkKeepalive l) s [(F.CWY_L_STAT_STATE, i, ckTRAIN)]) ∧
    (room → i < 6 → state = ckHELLO ∨ (state ≠ ckDOWN ∧ cwUp s i = true) →
      (¬ (state = ckHELLO ∧ s.rd I.cwGot i = 1) → exec (.cwLinkKeepalive l) s = .next (puts (sentOnce s i 0 hello) [(I.cwSent, i, 1)])) ∧
      (state = ckHELLO → s.rd I.cwGot i = 1 → s.rd F.TMU_LAT_RX_OVR (8 + i) = 1 →
        exec (.cwLinkKeepalive l) s = .next (puts (sentOnce s i 0 hello) ((I.cwSent, i, 1) :: enteredUp i)))) ∧
    (cwUp s i = false → exec (.cwRetransmit l) s = .next s) ∧
    (calm → cwUp s i = true → (linkOf s i).replay = [] → exec (.cwRetransmit l) s = .next s) ∧
    (calm → room → cwUp s i = true → (linkOf s i).replay ≠ [] →
      (s.rd I.cwRounds i ≠ 8 → i < 6 → exec (.cwRetransmit l) s = .next ((linkOf s i).replay.foldl (fun u e => sentOnce u i e.1 e.2)
        (puts s [(I.cwRounds, i, s.rd I.cwRounds i + 1), linkCounted s i 3]))) ∧
      (s.rd I.cwRounds i = 8 → state ≠ ckDOWN → (linkOf s i).waiting = [] → exec (.cwRetransmit l) s = .next (linkFallen s i))) ∧
    ∀ sub : BitVec 9,
      (cwUp s i = false → exec (.timeSend l sub) s = .next s) ∧
      (room → cwUp s i = true → i < 6 →
        let n := s.rd I.tmSeq i
        let at_ := txStamp s (8 + i) (s.rd F.CWY_L_CFG_TTB i) sub.toNat
        let last := 16 * i + (n + 65535) % 65536 % 16
        let p := beBytes 2 n ++ beBytes 2 (s.rd I.tmRxSeq i) ++ beBytes 4 (s.rd I.tmRxNs i) ++ beBytes 4 (s.rd I.tmTxNs last) ++
          [BitVec.ofNat 8 (s.rd I.tmRxFr i), BitVec.ofNat 8 (s.rd I.tmTxFr last), 0, 0] ++ [0, 0, 0, 0]
        exec (.timeSend l sub) s = .next (sentOnce
          (puts s [(I.tmTxNs, 16 * i + n % 16, at_ / 256), (I.tmTxFr, 16 * i + n % 16, at_ % 256), (I.tmSeq, i, n + 1)]) i 0
          (ownFrame s cwTIME 0 p)))

/-- Received frames.  A link below HELLO takes none.  A damaged frame is discarded and counted, in CRCERR or BADFRM, as is one of a
reserved type; a sequenced frame out of its place is dropped silently; a routed one of another epoch is counted in EPOCHREJ (R443–R445).
A frame for another device goes on with one hop fewer, or is counted in HOPDROP; a device without a number drops it (R446).  A tunnel
trims the padding.  LINK frames tell the peer and may take the link UP; TIME frames latch the set of stamps that they complete, and a
read of TT1 latches it for the reader (R441, R444, R457, R458).  A write of the epoch takes effect (R459).  The CRC is that of IEEE
802.3, its bytes in network order (log entry 29). -/
def Obligations.CausewayFramesAreJudgedAndRouted : Prop :=
  (∀ (s : State) (l : Fin 14) (b : List Byte) (sub : BitVec 9),
    let i := l.val
    let k := Instr.cwFrameReceive l b sub
    let f := cwParse b
    let hears := ckHELLO ≤ s.rd F.CWY_L_STAT_STATE i
    let bad := fun c => Puts k s [c, (F.CWY_IRQSTAT_EPOCH, 0, 1)]
    let room := ∀ n, s.rd F.CWY_CNT_COUNT n + 2 < 2 ^ 32
    let crcOk := b.drop (b.length - 4) = beBytes 4 (crc32 (b.take (b.length - 4)))
    (¬ hears → exec k s = .next s) ∧
    (hears → i < 6 → room →
      (b.length < 20 → bad (cwCounted s 9)) ∧
      (20 ≤ b.length → ¬ crcOk → s.rd F.CWY_L_CNT_COUNT (6 * i + 2) + 2 < 2 ^ 32 → bad (linkCounted s i 2)) ∧
      (20 ≤ b.length → crcOk → byteAt b 0 / 16 ≠ 1 ∨ 4112 < cwLen b ∨ b.length ≠ 20 + cwLen b → bad (cwCounted s 9))) ∧
    (FrameWhole s i b → room →
      (6 ≤ i → ∀ pad, exec (.cwFrameReceive l (b ++ pad) sub) s = exec k s) ∧
      (13 ≤ f.type → Puts k s [linkCounted s i 1, cwCounted s 9]) ∧
      (f.type < 13 → (linkOf s i).replay = [] → cwSequenced f.type = true → beAt b 8 2 ≠ s.rd I.cwRx i → Puts k s [linkCounted s i 1])) ∧
    (FrameInPlace s i b → cwLocal f.type = false → room →
      (f.epoch ≠ s.rd F.CWY_EPOCH_EPOCH → Puts k s (arrived s i b ++ [cwCounted s 1, (F.CWY_IRQSTAT_EPOCH, 0, 1)])) ∧
      (f.epoch = s.rd F.CWY_EPOCH_EPOCH →
        (cwUp s i = false ∨ devLocked s = false → Puts k s (arrived s i b)) ∧
        (cwUp s i = true → devLocked s = true → f.dst ≠ ownDev s →
          let r := s.rd F.CWY_ROUTE_LINK f.dst
          let valid := s.rd F.CWY_ROUTE_VALID f.dst = 1 ∧ r < 14
          (f.hops = 0 ∨ ¬ valid → Puts k s (arrived s i b ++ [cwCounted s 10])) ∧
          (f.hops ≠ 0 → valid → cwUp s r = false → Puts k s (arrived s i b)) ∧
          (f.hops ≠ 0 → valid → cwUp s r = true → LinkOpen s r f →
            (cwSequenced f.type = true → exec k s = .next (sentFrame (puts s (arrived s i b)) r { f with hops := f.hops - 1 })) ∧
            (cwSequenced f.type = false → exec k s = .next (sentOnce (puts s (arrived s i b)) r 0 { f with hops := f.hops - 1 })))))) ∧
    (f.type ≠ cwLINK → exec (.linkRx l b) s = .next s) ∧ (f.type ≠ cwTIME → exec (.timeRx l b sub) s = .next s) ∧
    (FrameInPlace s i b →
      let p := f.payload
      (f.type = cwLINK → ∀ c ∈ [Instr.linkRx l b, k],
        let told := arrived s i b ++ [(F.CWY_L_STAT_DNV, i, byteAt p 0 / 128), (F.CWY_L_STAT_PEERDEV, i, beAt p 2 2 % 2048),
          (F.CWY_L_PEEREPOCH_EPOCH, i, f.epoch), (I.cwGot, i, 1)]
        let rises := s.rd F.CWY_L_STAT_STATE i = ckHELLO ∧ s.rd I.cwSent i = 1
        (¬ rises → Puts c s told) ∧ (rises → 6 ≤ i ∨ s.rd F.TMU_LAT_RX_OVR (8 + i) = 1 → Puts c s (told ++ enteredUp i))) ∧
      (f.type = cwTIME → ∀ c ∈ [Instr.timeRx l b sub, k],
        let st := rxStamp s (stampPlace s i) (s.rd F.CWY_L_CFG_TTB i) sub.toNat
        let follows := s.rd I.tmHave i = 1 ∧ beAt p 0 2 = (s.rd I.tmRxSeq i + 1) % 65536 ∧ timeKept s i (s.rd I.tmOurs i) = true
        let kept := 16 * i + s.rd I.tmOurs i % 16
        let latch := [(F.CWY_L_TT_VALUE, 4 * i, s.rd I.tmTxNs kept), (F.CWY_L_TT_VALUE, 4 * i + 1, s.rd I.tmT2 i),
          (F.CWY_L_TT_VALUE, 4 * i + 2, beAt p 8 4), (F.CWY_L_TT_VALUE, 4 * i + 3, s.rd I.tmRxNs i),
          (F.CWY_L_TTFRAC_VALUE, i, s.rd I.tmTxFr kept * 2 ^ 24 + s.rd I.tmT2Fr i * 2 ^ 16 + byteAt p 13 * 256 + s.rd I.tmRxFr i),
          (F.CWY_L_TTSEQ_VALUE, i, 2 ^ 31 + (s.rd F.CWY_L_TTSEQ_VALUE i + 1) % 65536)]
        let noted := [(I.tmRxSeq, i, beAt p 0 2), (I.tmRxNs, i, st / 256), (I.tmRxFr, i, st % 256), (I.tmOurs, i, beAt p 2 2),
          (I.tmT2, i, beAt p 4 4), (I.tmT2Fr, i, byteAt p 12), (I.tmHave, i, 1)]
        (follows → Puts c s (arrived s i b ++ latch ++ noted)) ∧ (¬ follows → Puts c s (arrived s i b ++ noted))))) ∧
  ∀ (s : State) (ini : Init),
    (s.fabric = false → exec (.tt1Read ini) s = .next s ∧ ∀ v, exec (.epochWrite ini v) s = .next s) ∧
    (s.fabric = true →
      (∀ v : Word, Puts (.epochWrite ini v) s [(F.CWY_EPOCH_EPOCH, 0, v.toNat)]) ∧
      (selLink s ini = none → exec (.tt1Read ini) s = .next (s.seen (initCode ini) 0)) ∧
      ∀ l c, selLink s ini = some l → selCopy ini = some c → exec (.tt1Read ini) s = .next ((puts s ((List.range 6).map fun k =>
        (I.ttBuf, 6 * c + k, ttWord s l k))).seen (initCode ini) (s.rd F.CWY_L_TT_VALUE (4 * l))))

/-- Bridge b has received a slot: into the receive slot of the block in progress, or the transmit slot of the next, of its ring, or it
is counted in BRDROP (R455, R456). -/
def Sys2Proof.Safety.slotTaken (s : State) (b : Nat) (wb : Bool) (slot : List Byte) : State :=
  let n := if wb then 64 else 32
  let m := s.rd F.TDX_BLKCNT_BLOCK
  if s.rd F.CWY_BR_CFG_EN b = 1 ∧ s.rd F.CWY_BR_CFG_WB b = b2n wb ∧ s.rd F.CWY_BR_CFG_KIND b = 2 then
    physWrite s (rxRing (s.rd F.CWY_BR_CFG_RING b) + n * (m % 4)) slot
  else if s.rd F.CWY_BR_CFG_EN b = 1 ∧ s.rd F.CWY_BR_CFG_WB b = b2n wb ∧ s.rd F.CWY_BR_CFG_KIND b = 3 then
    physWrite s (txRing (s.rd F.CWY_BR_CFG_RING b) + n * ((m + 1) % 4)) slot
  else cwCnt s 4

/-- The bytes of the entries of a BRIDGE frame: a tag, and its slot (R456). -/
def Sys2Proof.Safety.bridgeBytes (l : List (Nat × Bool × List Byte)) : List Byte :=
  l.flatMap fun e => beBytes 4 (b2n e.2.1 * 2 ^ 15 + e.1) ++ e.2.2

/-- What devices say to each other.  A remote event, a message, a fence and a remote access are sent, or end in UNREACH; a bad message
ends in BADARG; nothing is sent while one is in progress (R446, R449–R452).  At the receiver an EVENT sets the task's flags, a MBOX is put in the
ring or counted in MBDROP, a RACC makes its access and is answered, a RRSP ends the access it answers, a FENCE is obeyed or counted, a
PKTFWD is classified as port 8's under consumer 24, a BRIDGE fills its slots, and BOOT frames carry an image to a device that boots
over Causeway (R449–R452, R454–R456, R468).  An unanswered access ends in TIMEOUT (R451).  A frame of another type is not taken.
The CRC is that of IEEE 802.3, its bytes in network order (log entry 29). -/
def Obligations.CausewayMessagesActAtTheirDevice : Prop :=
  (∀ (s : State) (ini : Init) (v : Word), let n := v.toNat
    let sends := [Instr.revtSend ini v, .mbsSend ini v, .fencecmd ini v, .raCmd ini v]
    (s.fabric = false → ∀ k ∈ sends, exec k s = .next s) ∧
    (s.fabric = true →
      Sends (.revtSend ini v) s [] cwEVENT (s.rd F.CWY_REVT_DEV_DEV (initCode ini)) (beBytes 4 n) [] [] ∧
      (let pre := [(F.CWY_FENCECMD_DEV, 0, bits n 10 0)]
       let go := bitOf n 31 = true ∧ s.rd F.CWY_FENCECMD_GO = 0
       (¬ go → Puts (.fencecmd ini v) s pre) ∧
       (go → Sends (.fencecmd ini v) s (pre ++ [(F.CWY_FENCECMD_GO, 0, 1)]) cwFENCE (bits n 10 0) []
         [(F.CWY_FENCECMD_GO, 0, 0), (F.CWY_FENCECMD_RESULT, 0, 0)] [(F.CWY_FENCECMD_GO, 0, 0), (F.CWY_FENCECMD_RESULT, 0, 1)])) ∧
      (let pre := [(F.CWY_RA_CMD_WR, 0, bitN n 30), (F.CWY_RA_CMD_DEV, 0, bits n 10 0)]
       let go := bitOf n 31 = true ∧ s.rd F.CWY_RA_CMD_GO = 0
       let tag := (s.rd I.raTag + 1) % 65536
       (¬ go → Puts (.raCmd ini v) s pre) ∧
       (go → Sends (.raCmd ini v) s (pre ++ [(I.raTag, 0, tag), (F.CWY_RA_CMD_GO, 0, 1)]) cwRACC (bits n 10 0)
         (beBytes 4 (bitN n 30 * 2 ^ 31 + tag) ++ beBytes 4 (s.rd F.CWY_RA_ADDR_HI_ADDR) ++ beBytes 4 (s.rd F.CWY_RA_ADDR_LO_ADDR) ++
           beBytes 4 (s.rd F.CWY_RA_DATA_DATA)) [] [(F.CWY_RA_CMD_GO, 0, 0), (F.CWY_RA_CMD_RESULT, 0, 4)])) ∧
      (let pre := [(F.CWY_MBS_CMD_BOOT, 0, bitN n 30), (F.CWY_MBS_CMD_LEN, 0, bits n 23 11), (F.CWY_MBS_CMD_DEV, 0, bits n 10 0)]
       let go := bitOf n 31 = true ∧ s.rd F.CWY_MBS_CMD_GO = 0
       let len := bits n 23 11
       let a := s.rd F.CWY_MBS_ADDR_HI_ADDR * 2 ^ 32 + s.rd F.CWY_MBS_ADDR_LO_ADDR
       let msg := s.readBytes a len
       let ok := 4 ≤ len ∧ len % 4 = 0 ∧ len ≤ (if bitOf n 30 then 4104 else 240) ∧ inSymPks a len = true
       let l := bits n 10 0 % 16
       let unreach := [(F.CWY_MBS_CMD_GO, 0, 0), (F.CWY_MBS_CMD_RESULT, 0, 1)]
       (¬ go → Puts (.mbsSend ini v) s pre) ∧
       (go → ¬ ok → Puts (.mbsSend ini v) s (pre ++ [(F.CWY_MBS_CMD_RESULT, 0, 2)])) ∧
       (go → ok → bitOf n 30 = false → Sends (.mbsSend ini v) s (pre ++ [(F.CWY_MBS_CMD_GO, 0, 1)]) cwMBOX (bits n 10 0) msg
         [(F.CWY_MBS_CMD_GO, 0, 0), (F.CWY_MBS_CMD_RESULT, 0, 0)] unreach) ∧
       (go → ok → bitOf n 30 = true →
         (l < 6 → cwUp s l = true → s.rd F.CWY_L_CNT_COUNT (6 * l) + 2 < 2 ^ 32 → exec (.mbsSend ini v) s =
           .next (puts (sentOnce (puts s pre) l 0 (ownFrame s cwBOOT 0 msg)) [(F.CWY_MBS_CMD_RESULT, 0, 0)])) ∧
         (14 ≤ l ∨ cwUp s l = false → s.rd F.CWY_CNT_COUNT 0 + 2 < 2 ^ 32 → Puts (.mbsSend ini v) s (pre ++ cwCounted s 0 :: unreach)))))) ∧
  (∀ s : State,
    (s.rd F.CWY_RA_CMD_GO = 0 → exec .raTimeout s = .next s) ∧
    (s.rd F.CWY_RA_CMD_GO = 1 → Puts .raTimeout s [(F.CWY_RA_CMD_GO, 0, 0), (F.CWY_RA_CMD_RESULT, 0, 3)]) ∧
    (let asks := cwBooting s = true ∧ cwUp s 0 = true
     (¬ asks → exec .bootRequestSend s = .next s) ∧
     (asks → s.rd F.CWY_L_CNT_COUNT 0 + 2 < 2 ^ 32 → exec .bootRequestSend s = .next (sentOnce s 0 0 (ownFrame s cwBOOT 0
       (beBytes 4 0 ++ beBytes 4 (s.rd F.FUS_SHADOW_WORD 124) ++ beBytes 4 (s.rd F.FUS_SHADOW_WORD 125))))))) ∧
  ∀ (s : State) (l : Fin 14) (b : List Byte),
    let i := l.val
    let f := cwParse b
    let p := f.payload
    (∀ c ∈ [(Instr.eventRx l b, cwEVENT), (.mboxRx l b, cwMBOX), (.raccRx l b, cwRACC), (.rrspRx l b, cwRRSP), (.fenceRx l b, cwFENCE),
        (.pktfwdRx l b, cwPKTFWD), (.bridgeRx l b, cwBRIDGE), (.bootRx l b, cwBOOT)], f.type ≠ c.2 → exec c.1 s = .next s) ∧
    (FrameInPlace s i b → FrameOurs s i b → (∀ n, s.rd F.CWY_CNT_COUNT n + 2 < 2 ^ 32) →
      let came := arrived s i b
      let here := puts s came
      let slot := ringPlace (s.rd F.CWY_MBR_BASE_BASE) (s.rd F.CWY_MBR_CFG_SIZE) (s.rd F.CWY_MBR_WP_WP) (s.rd F.CWY_MBR_RP_RP) 256
      let message := fun src : Nat => leBytes 4 (p.length * 65536 + src) ++ leBytes 4 f.epoch ++ leBytes 4 (s.rd F.TMU_TB_NS_NS 0) ++ [0, 0, 0, 0] ++ p
      (f.type = cwEVENT → ∀ k ∈ [Instr.eventRx l b, .cwFrameReceive l b 0],
        let t := beAt p 0 4 % 65536
        (taskSt s t = tEMPTY → Puts k s came) ∧
        (taskSt s t ≠ tEMPTY → Puts k s (came ++ [(F.TSU_T_FLAGS_FLAGS, t, Nat.lor (s.rd F.TSU_T_FLAGS_FLAGS t) (bits (beAt p 0 4) 31 16))]))) ∧
      (∀ c ∈ [(Instr.mboxRx l b, cwMBOX), (.cwFrameReceive l b 0, cwMBOX), (.bootRx l b, cwBOOT), (.cwFrameReceive l b 0, cwBOOT)],
        f.type = c.2 → (c.2 = cwBOOT → cwBooting s = false ∧ beAt p 0 4 = 0) →
        let fits := s.rd F.FUS_PMMISC_RMBOX = 1 ∧ p.length ≤ 240
        (¬ fits ∨ slot = none → Puts c.1 s (came ++ [cwCounted s 5])) ∧
        ∀ a, fits → slot = some a → exec c.1 s = .next (puts (physWrite here a (message (if c.2 = cwBOOT then 0 else f.src)))
          [(F.CWY_MBR_WP_WP, 0, s.rd F.CWY_MBR_WP_WP + 1), (F.CWY_IRQSTAT_MBRX, 0, 1)])) ∧
      (f.type = cwRACC → ∀ k ∈ [Instr.raccRx l b, .cwFrameReceive l b 0],
        let a := byteAt p 7 * 2 ^ 32 + beAt p 8 4
        let wr := busWrite here .racc a (leBytes 4 (beAt p 12 4))
        let rd := busRead here .racc a 4
        let made := if bitOf (byteAt p 0) 7 then wr.2 else rd.2.2
        let status := match (if bitOf (byteAt p 0) 7 then wr.1 else rd.1) with | .ok => 0 | .prot => 1 | .decode => 2
        let data := if bitOf (byteAt p 0) 7 then 0 else rd.2.1
        let answer := ownFrame made cwRRSP f.src (beBytes 4 (status * 2 ^ 24 + beAt p 2 2) ++ beBytes 4 data)
        (∀ r, devLocked made = true → cwRoute made f.src = some r → LinkOpen made r answer → exec k s = .next (sentFrame made r answer)) ∧
        (devLocked made = false ∨ cwRoute made f.src = none → made.rd F.CWY_CNT_COUNT 0 + 2 < 2 ^ 32 →
          exec k s = .next (puts made [cwCounted made 0]))) ∧
      (f.type = cwRRSP → ∀ k ∈ [Instr.rrspRx l b, .cwFrameReceive l b 0],
        let answers := s.rd F.CWY_RA_CMD_GO = 1 ∧ beAt p 2 2 = s.rd I.raTag
        (¬ answers → Puts k s came) ∧
        (answers → Puts k s (came ++ (if s.rd F.CWY_RA_CMD_WR = 0 ∧ byteAt p 0 = 0 then [(F.CWY_RA_DATA_DATA, 0, beAt p 4 4)] else []) ++
          [(F.CWY_RA_CMD_GO, 0, 0), (F.CWY_RA_CMD_RESULT, 0, byteAt p 0)]))) ∧
      (f.type = cwFENCE → ∀ k ∈ [Instr.fenceRx l b, .cwFrameReceive l b 0],
        (s.rd F.FUS_PMMISC_RFENCE = 0 → Puts k s (came ++ [cwCounted s 7])) ∧
        (s.rd F.FUS_PMMISC_RFENCE = 1 → Does k s fun t => s.mode ≠ mRESET → s.mode ≠ mFENCED →
          t.mode = mFENCED ∧ t.rd F.PMU_MODE_CAUSE = 7 ∧ t = enterFenced here 7)) ∧
      (f.type = cwPKTFWD → ∀ k ∈ [Instr.pktfwdRx l b, .cwFrameReceive l b 0],
        let frame := p.drop 16
        (takeCells here 24 ((frame.length + 255) / 256) = none → Puts k s came) ∧
        ∀ cells u, takeCells here 24 ((frame.length + 255) / 256) = some (cells, u) →
          exec k s = .next (classify (storeCells { u with freeCtr := u.freeCtr + 1 } frame cells)
            ⟨8, beAt p 8 4 * 256, beAt p 8 4, cells, frame⟩ (byteAt p 1 % 16) (beAt p 2 2) (Config.freeNat u.freeCtr % 16) (udpPayload frame))) ∧
      (f.type = cwBRIDGE → ∀ (es : List (Nat × Bool × List Byte)), p = bridgeBytes es → es.length ≤ 64 →
        (∀ e ∈ es, e.1 < 1024 ∧ e.2.2.length = if e.2.1 then 64 else 32) → ∀ k ∈ [Instr.bridgeRx l b, .cwFrameReceive l b 0],
        exec k s = .next (es.foldl (fun u e => slotTaken u e.1 e.2.1 e.2.2) here)) ∧
      (f.type = cwBOOT → ∀ k ∈ [Instr.bootRx l b, .cwFrameReceive l b 0],
        (cwBooting s = false → beAt p 0 4 ≠ 0 → Puts k s came) ∧
        (cwBooting s = true →
          (beAt p 0 4 = 1 → beAt p 4 4 < 0x800000 → beAt p 4 4 + (p.length - 8) ≤ 0x800000 →
            exec k s = .next (here.writeBytes (0x20000000 + beAt p 4 4) (p.drop 8))) ∧
          (beAt p 0 4 = 1 → 0x800000 < beAt p 4 4 + (p.length - 8) → Puts k s came) ∧
          (beAt p 0 4 = 2 → Puts k s (came ++ [(I.bootImg, 0, 1)])) ∧
          (beAt p 0 4 ≠ 1 → beAt p 0 4 ≠ 2 → Puts k s came))))

/-! ## Migrations (chapter 15) -/

/-- What the end of migration entry m writes: its state and reason, MIG, the mark that a source has handed its channel over, and the
context's bit (R462, R463, R466). -/
def Sys2Proof.Safety.migEndCells (s : State) (m e why : Nat) : List (Fld × Nat × Nat) :=
  [(F.CWY_M_STAT_STATE, m, e), (F.CWY_M_STAT_REASON, m, why), (F.CWY_M_CTL_ABORT, m, 0), (F.CWY_IRQSTAT_MIG, 0, 1)] ++
    (if miSt s m = miCOMMITTED ∨ miSt s m = miGRACE then [(I.ctxMoved, miCid s m, 1)] else []) ++ [(I.ctxMig, miCid s m, 0)]

/-- The context of entry m is no other running entry's. -/
def Sys2Proof.Safety.AloneInContext (s : State) (m : Nat) : Prop := ∀ j, j < 64 → j ≠ m → miBusy s j = false ∨ miCid s j ≠ miCid s m

/-- Entry m's frames can be sent at once, on link k. -/
def Sys2Proof.Safety.PeerOpen (s : State) (m k : Nat) : Prop :=
  devLocked s = true ∧ cwRoute s (miPeer s m) = some k ∧ k < 6 ∧ (linkOf s k).replay = [] ∧ (linkOf s k).waiting = [] ∧
    s.rd F.CWY_L_CNT_COUNT (6 * k) + 3 < 2 ^ 32

/-- A MIGCTL frame of entry m under a MIGID (R461). -/
def Sys2Proof.Safety.migCtl (s : State) (m id op why mask : Nat) : CwFrame :=
  ownFrame s cwMIGCTL (miPeer s m) (beBytes 4 (op * 2 ^ 24 + why * 2 ^ 16 + id) ++ beBytes 4 (s.rd F.CWY_M_T_T m) ++
    beBytes 4 (mask * 65536) ++ [0, 0, 0, 0])

/-- Software and time move a migration.  GO starts an entry, a source with its pages and PCDONE, a destination in RECEIVING; a written
ABORT ends a receiving destination and waits at a source (R462, R463).  At T − FRZ the source disables its task, and commits once
nothing holds the context; at T − GUARD one that has not committed aborts with the reason; T, T + ACKWAIT and T + GRACE end what has
not been answered, or is done (R462–R464).  Here no page of the context is in CST, no key is forwarded and no handover of TDX is asked. -/
def Obligations.MigrationsFollowTheirTimes : Prop :=
  ∀ (s : State) (m : Fin 64),
    let i := m.val
    let st := miSt s i
    let id := s.rd F.CWY_M_CTL_MIGID i
    let noKeys := s.rd F.CWY_M_KEY0_VALID i = 0 ∧ s.rd F.CWY_M_KEY1_VALID i = 0
    let noPages := ∀ p, p < 16 → lvl s (miCid s i) p ≠ 1
    let alone := AloneInContext s i
    let timers := [Instr.migGuard m, .migTPass m, .migAckwait m, .migGraceEnd m]
    (∀ (ini : Init) (v : Word),
      let fields := fun w => [(F.CWY_M_CTL_ROLE, i, bitN w 29), (F.CWY_M_CTL_TDM, i, bitN w 28), (F.CWY_M_CTL_MIGID, i, bits w 15 0)]
      (s.fabric = false → exec (.migGo ini m v) s = .next s ∧ exec (.migAbortWrite ini m v) s = .next s) ∧
      (s.fabric = true →
        (let w := setBit v.toNat 31
         let start := [(F.CWY_M_STAT_REASON, i, 0), (F.CWY_M_STAT_PAGES, i, 0), (I.ctxMig, miCid s i, 1)]
         bitOf w 30 = false →
          (miBusy s i = true → Puts (.migGo ini m v) s (fields w)) ∧
          (miBusy s i = false → bitOf w 29 = true → Puts (.migGo ini m v) s
            (fields w ++ (F.CWY_M_STAT_STATE, i, miRECEIVING) :: start ++ [(I.migFresh, miCid s i, 1)])) ∧
          ∀ k, miBusy s i = false → bitOf w 29 = false → noPages → PeerOpen s i k → exec (.migGo ini m v) s = .next (puts
            (sentFrame (puts s (fields w ++ (F.CWY_M_STAT_STATE, i, miPRECOPY) :: start ++ [(I.mTask, i, 0), (I.mKeyF, 2 * i, 0), (I.mKeyF, 2 * i + 1, 0)]))
              k (migCtl s i (bits w 15 0) opPCDONE 0 0)) [(F.CWY_M_STAT_STATE, i, miWAITARM)])) ∧
        (let w := setBit v.toNat 30
         bitOf w 31 = false ∨ miBusy s i = true →
          (miPRECOPY ≤ st → st ≤ miFROZEN → Puts (.migAbortWrite ini m v) s (fields w ++ [(F.CWY_M_CTL_ABORT, i, 1)])) ∧
          (st < miPRECOPY ∨ miFROZEN < st → st ≠ miRECEIVING → Puts (.migAbortWrite ini m v) s (fields w)) ∧
          ∀ k, st = miRECEIVING → PeerOpen s i k → alone → exec (.migAbortWrite ini m v) s = .next (puts
            (sentFrame (puts s (fields w)) k (migCtl s i (bits w 15 0) opABORT rsUSER 0)) (migEndCells s i miABORTED rsUSER))))) ∧
    (s.fabric = false → ∀ k ∈ timers, exec k s = .next s) ∧
    (let due := s.fabric = true ∧ st = miARMSEEN ∧ -(miFrz s i : Int) ≤ sinceT s i
     let u := puts (taskRegWrite s (miTid s i) 0x104 (putBit (cfgWord s (miTid s i)) 31 false)) [(I.mTask, i, 1), (F.CWY_M_STAT_STATE, i, miFROZEN)]
     let waits := fun w : State => miHeld w i = true ∨ miQuar w i = true ∨ cwRoute w (miPeer w i) = none
     (¬ due → st ≠ miFROZEN → exec (.migFreeze m) s = .next s) ∧
     (due → waits u → exec (.migFreeze m) s = .next u) ∧
     (st = miFROZEN → waits s → exec (.migFreeze m) s = .next s) ∧
     ∀ k, st = miFROZEN → ¬ waits s → PeerOpen s i k → noKeys → noPages → clsDraining s = false → s.rd F.CWY_M_CTL_TDM i = 0 →
       s.rd F.CWY_M_JBLEN_LEN i = 0 → exec (.migFreeze m) s = .next (puts
         (sentFrame (puts s [(F.CWY_M_STAT_PAGES, i, 0)]) k (migCtl s i id opCOMMIT 0 0)) [(F.CWY_M_STAT_STATE, i, miCOMMITTED)])) ∧
    (s.fabric = true →
      let since := sinceT s i
      let lost := bitOf (s.rd F.MLS_ERRSEL_SEL) 9 = false
      (let runs := miPRECOPY ≤ st ∧ st ≤ miFROZEN ∧ -(miGuard s i : Int) ≤ since
       let away := cwRoute s (miPeer s i) = none
       let fails := fun r => (st < miARMSEEN ∧ r = rsTIMEOUT) ∨ (miARMSEEN ≤ st ∧
         ((miHeld s i = true ∧ r = rsBUSYJOB) ∨ (miHeld s i = false ∧
           ((miQuar s i = true ∧ r = rsQUAR) ∨ (miQuar s i = false ∧ ((tdmBusy s i = true ∧ r = rsTDMBUSY) ∨ (tdmBusy s i = false ∧
             ((away ∧ r = rsLINKDOWN) ∨ (¬ away ∧ s.rd F.CWY_M_CTL_ABORT i = 1 ∧ r = rsUSER)))))))))
       (¬ runs → exec (.migGuard m) s = .next s) ∧
       (runs → (∀ r, ¬ fails r) → exec (.migGuard m) s = .next s) ∧
       (∀ r, runs → fails r → alone → noKeys → s.rd I.mTask i = 0 →
         (away → s.rd F.CWY_CNT_COUNT 0 + 2 < 2 ^ 32 → Puts (.migGuard m) s (cwCounted s 0 :: migEndCells s i miABORTED r)) ∧
         ∀ k, PeerOpen s i k → exec (.migGuard m) s = .next (puts (sentFrame s k (migCtl s i id opABORT r 0)) (migEndCells s i miABORTED r)))) ∧
      (since < 0 ∨ (st ≠ miRECEIVING ∧ st ≠ miARMED) → exec (.migTPass m) s = .next s) ∧
      (0 ≤ since → alone → (st = miRECEIVING → Puts (.migTPass m) s (migEndCells s i miABORTED rsTIMEOUT)) ∧
        (st = miARMED → lost → Puts (.migTPass m) s (migEndCells s i miLOST 0))) ∧
      (since < miAckwait s i ∨ (st ≠ miCOMMITTED ∧ st ≠ miRUNNING) → exec (.migAckwait m) s = .next s) ∧
      (miAckwait s i ≤ since → alone → (st = miCOMMITTED → lost → Puts (.migAckwait m) s (migEndCells s i miLOST 0)) ∧
        (st = miRUNNING → Puts (.migAckwait m) s (migEndCells s i miDONE 0))) ∧
      (since < miGrace s i ∨ st ≠ miGRACE → exec (.migGraceEnd m) s = .next s) ∧
      (miGrace s i ≤ since → st = miGRACE → alone → noKeys → Puts (.migGraceEnd m) s (migEndCells s i miDONE 0)))

/-- The frames of a migration.  A frame that no entry in a suitable state matches is counted in MIGDROP (R461).  A MIGPAGE is written
into the context through CPG, or to the jitter buffer; PCDONE, once every page has come, is answered with ARMED or, after a failed
check, ABORT; COMMIT before T enables the task and is answered, and after T, or against another handover, ends in MIG_LOST (R463);
ARMED and COMMITACK move the source on (R462); ABORT ends the destination (R463).  The CRC is that of IEEE 802.3, its bytes in
network order (log entry 29). -/
def Obligations.MigrationFramesMoveTheirEntry : Prop :=
  ∀ (s : State) (l : Fin 14) (b : List Byte),
    let i := l.val
    let f := cwParse b
    let p := f.payload
    let ops := [(Instr.pcdone l b, opPCDONE, [miRECEIVING]), (.armed l b, opARMED, [miPRECOPY, miWAITARM]), (.commit l b, opCOMMIT, [miARMED]),
      (.commitack l b, opCOMMITACK, [miCOMMITTED]), (.migAbortRx l b, opABORT, [miRECEIVING, miARMED])]
    (f.type ≠ cwMIGPAGE → exec (.migpageRx l b) s = .next s) ∧
    (∀ o ∈ ops, ¬ (f.type = cwMIGCTL ∧ byteAt b 16 = o.2.1) → exec o.1 s = .next s) ∧
    (FrameInPlace s i b → FrameOurs s i b → s.rd F.CWY_CNT_COUNT 2 + 2 < 2 ^ 32 → 16 ≤ p.length →
      let came := arrived s i b
      let here := puts s came
      let finds := fun sts => miMatch s f.src (beAt p 2 2) sts
      (f.type = cwMIGPAGE → ∀ k ∈ [Instr.migpageRx l b, .cwFrameReceive l b 0],
        let ofs := beAt p 4 4
        let data := p.drop 16
        (finds [miRECEIVING, miARMED] = none → Puts k s (came ++ [cwCounted s 2])) ∧
        ∀ m, finds [miRECEIVING, miARMED] = some m →
          let jb := 64 * s.rd F.CWY_M_JBDST_OFS m + ofs
          let v := byteAt p 1 % 16
          (byteAt p 0 = 1 → ofs + data.length ≤ 65536 → jb + data.length ≤ 0x2000000 → exec k s = .next (physWrite here (pksBase + jb) data)) ∧
          (byteAt p 0 = 0 → ofs + data.length ≤ 4096 →
            let u := cpgWrite here (miCid s m) v ofs data
            exec k s = .next (if ofs + data.length = 4096 then puts u [(F.CWY_M_STAT_PAGES, m, setBit (u.rd F.CWY_M_STAT_PAGES m) v)] else u) ∧
            (lvl s (miCid s m) v = 2 → (frames s).filter (fun j => holds s j (miCid s m) v) = [] →
              u = physWrite here (slotAddr s (miCid s m) v + ofs) data))) ∧
      (∀ o ∈ ops, f.type = cwMIGCTL → byteAt b 16 = o.2.1 → ∀ k ∈ [o.1, .cwFrameReceive l b 0],
        (finds o.2.2 = none → Puts k s (came ++ [cwCounted s 2])) ∧
        ∀ m, finds o.2.2 = some m →
          let id := s.rd F.CWY_M_CTL_MIGID m
          let alone := AloneInContext s m
          let lost := bitOf (s.rd F.MLS_ERRSEL_SEL) 9 = false
          (o.2.1 = opPCDONE →
            let mask := beAt p 8 2
            let u := puts s (came ++ [(I.mPmask, m, mask)])
            let whole := Nat.land mask (s.rd F.CWY_M_STAT_PAGES m) = mask
            let sameT := beAt p 4 4 = s.rd F.CWY_M_T_T m
            let ready := (∀ v ∈ pagesOf mask, notPresent s (miCid s m) v = false) ∧ s.rd F.TSU_T_CFG_EN (miTid s m) = 0
            (¬ whole → exec k s = .next u) ∧
            ∀ r, whole → PeerOpen s m r →
              (¬ sameT → alone → exec k s = .next (puts (sentFrame u r (migCtl s m id opABORT rsBADT 0)) (migEndCells s m miABORTED rsBADT))) ∧
              (sameT → ¬ ready → alone →
                exec k s = .next (puts (sentFrame u r (migCtl s m id opABORT rsBADLAYOUT 0)) (migEndCells s m miABORTED rsBADLAYOUT))) ∧
              (sameT → ready → exec k s = .next (puts (sentFrame u r (migCtl s m id opARMED 0 mask))
                [(F.CWY_M_STAT_PAGES, m, 0), (F.CWY_M_STAT_STATE, m, miARMED)]))) ∧
          (o.2.1 = opARMED → Puts k s (came ++ [(F.CWY_M_STAT_STATE, m, miARMSEEN)])) ∧
          (o.2.1 = opCOMMIT →
            (0 ≤ sinceT s m ∨ tdmBusy s m = true → alone → lost → Puts k s (came ++ migEndCells s m miLOST 0)) ∧
            (sinceT s m < 0 → s.rd F.CWY_M_CTL_TDM m = 0 →
              let u := taskRegWrite here (miTid s m) 0x104 (putBit (cfgWord s (miTid s m)) 31 true)
              ∀ r, PeerOpen u m r → exec k s = .next (puts (sentFrame u r (migCtl u m (u.rd F.CWY_M_CTL_MIGID m) opCOMMITACK 0 0))
                [(F.CWY_M_STAT_STATE, m, miRUNNING)]))) ∧
          (o.2.1 = opCOMMITACK → Puts k s (came ++ [(F.CWY_M_STAT_STATE, m, miGRACE)])) ∧
          (o.2.1 = opABORT → alone → Puts k s (came ++ migEndCells s m miABORTED (byteAt p 1 % 16)))))
end

