-- ==== Sys2Proof/Laws/Arith.lean ====
section
/-! SUPPORT.  Numbers, their signed views, and the registers' ranges. -/

namespace Sys2Proof.Machine

theorem ofInt_lt (w : Nat) (i : Int) : ofInt w i < 2 ^ w := by
  unfold ofInt
  have h : (0 : Int) < (2 ^ w : Nat) := by exact_mod_cast Nat.two_pow_pos w
  have h1 := Int.emod_nonneg i (Int.ne_of_gt h)
  have h2 := Int.emod_lt_of_pos i h
  omega

theorem ofInt_natCast (w v : Nat) : ofInt w (v : Int) = v % 2 ^ w := by
  unfold ofInt
  rw [← Int.natCast_emod]
  rfl

theorem ofInt_congr (w : Nat) {i j : Int} (h : i % (2 ^ w : Nat) = j % (2 ^ w : Nat)) : ofInt w i = ofInt w j := by
  unfold ofInt; rw [h]

theorem signedOf_emod (w v : Nat) : signedOf w v % (2 ^ w : Nat) = (v : Int) % (2 ^ w : Nat) := by
  unfold signedOf
  simp only
  split
  · rw [Int.natCast_emod, Int.emod_emod]
  · rw [Int.sub_emod, Int.emod_self, Int.natCast_emod, Int.emod_emod]
    simp

theorem ofInt_signedOf (w v : Nat) : ofInt w (signedOf w v) = v % 2 ^ w := by
  rw [← ofInt_natCast]
  exact ofInt_congr w (signedOf_emod w v)

/-- A sum of signed views, narrowed, is the sum modulo 2^w. -/
theorem ofInt_add (w a b : Nat) : ofInt w (signedOf w a + signedOf w b) = (a + b) % 2 ^ w := by
  rw [← ofInt_natCast]
  apply ofInt_congr
  rw [Int.add_emod, signedOf_emod, signedOf_emod, ← Int.add_emod]
  norm_cast

/-- A difference of signed views, narrowed. -/
theorem ofInt_sub (w a b : Nat) (hb : b < 2 ^ w) : ofInt w (signedOf w a - signedOf w b) = (a + 2 ^ w - b) % 2 ^ w := by
  rw [← ofInt_natCast]
  apply ofInt_congr
  rw [Int.sub_emod, signedOf_emod, signedOf_emod, ← Int.sub_emod]
  have : ((a + 2 ^ w - b : Nat) : Int) = (a : Int) - b + (2 ^ w : Nat) := by omega
  rw [this]
  simp

/-! ## Ranges -/

theorem rd_mod_lt (s : State) (f : Fld) (i : Nat) : s.rd f i < 2 ^ f.w := Nat.mod_lt _ (Nat.two_pow_pos _)

end Sys2Proof.Machine
end

