-- ==== Sys2Proof/Laws/Tbl.lean ====
section
/-! SUPPORT.  Reading a sparse table after a change, and the canonical form that every change keeps. -/

namespace Sys2Proof.Machine

variable {α : Type}

/-! ## Reading after a change -/

theorem Tbl.get_drop (d : α) (k j : Nat) (t : Tbl α) :
    Tbl.get d (Tbl.drop k t) j = if k = j then d else Tbl.get d t j := by
  induction t with
  | nil => simp [Tbl.drop, Tbl.get]
  | cons e r ih =>
    obtain ⟨i, a⟩ := e
    by_cases h : i = k <;> by_cases g : i = j <;> simp_all [Tbl.drop, Tbl.get]
    exact fun e => absurd e.symm h

theorem Tbl.get_ins (d : α) (k j : Nat) (v : α) (t : Tbl α) (h : Tbl.get none (t.map fun e => (e.1, some e.2)) k = none) :
    Tbl.get d (Tbl.ins k v t) j = if k = j then v else Tbl.get d t j := by
  induction t with
  | nil => simp [Tbl.ins, Tbl.get]
  | cons e r ih =>
    obtain ⟨i, a⟩ := e
    by_cases hk : i = k
    · simp [Tbl.get, hk] at h
    · have h' : Tbl.get none (r.map fun e => (e.1, some e.2)) k = none := by simpa [Tbl.get, hk] using h
      by_cases hlt : k < i
      · simp [Tbl.ins, hlt, Tbl.get]
      · simp only [Tbl.ins, hlt, if_false, Tbl.get]
        by_cases g : i = j
        · have : k ≠ j := fun e => hk (g.trans e.symm)
          simp [g, this]
        · simp [g, ih h']

theorem Tbl.absent_drop (k : Nat) (t : Tbl α) :
    Tbl.get none ((Tbl.drop k t).map fun e => (e.1, some e.2)) k = none := by
  induction t with
  | nil => rfl
  | cons e r ih =>
    obtain ⟨i, a⟩ := e
    by_cases h : i = k <;> simp_all [Tbl.drop, Tbl.get]

/-- A read after a write: the value written, else what stood there. -/
theorem Tbl.get_put [DecidableEq α] (d : α) (k j : Nat) (v : α) (t : Tbl α) :
    Tbl.get d (Tbl.put d k v t) j = if k = j then v else Tbl.get d t j := by
  unfold Tbl.put
  split
  · next h => subst h; rw [Tbl.get_drop]
  · rw [Tbl.get_ins _ _ _ _ _ (Tbl.absent_drop k t), Tbl.get_drop]
    split <;> simp_all

@[simp] theorem Tbl.get_put_same [DecidableEq α] (d : α) (k : Nat) (v : α) (t : Tbl α) :
    Tbl.get d (Tbl.put d k v t) k = v := by simp [Tbl.get_put]

/-- A write leaves every other key, whatever default it is read with. -/
theorem Tbl.get_put_ne [DecidableEq α] (d d' : α) {k j : Nat} (h : k ≠ j) (v : α) (t : Tbl α) :
    Tbl.get d' (Tbl.put d k v t) j = Tbl.get d' t j := by
  unfold Tbl.put
  split
  · simp [Tbl.get_drop, h]
  · rw [Tbl.get_ins _ _ _ _ _ (Tbl.absent_drop k t), Tbl.get_drop]
    simp [h]

/-! ## The canonical form -/

theorem Tbl.sortedFrom_mono {a b : Nat} (h : a ≤ b) (t : Tbl α) (ht : Tbl.sortedFrom b t = true) :
    Tbl.sortedFrom a t = true := by
  cases t with
  | nil => rfl
  | cons e r =>
    obtain ⟨i, x⟩ := e
    simp only [Tbl.sortedFrom, Bool.and_eq_true, decide_eq_true_eq] at ht ⊢
    exact ⟨Nat.le_trans h ht.1, ht.2⟩

theorem Tbl.sortedFrom_drop (k lo : Nat) (t : Tbl α) (h : Tbl.sortedFrom lo t = true) :
    Tbl.sortedFrom lo (Tbl.drop k t) = true := by
  induction t generalizing lo with
  | nil => rfl
  | cons e r ih =>
    obtain ⟨i, x⟩ := e
    simp only [Tbl.sortedFrom, Bool.and_eq_true, decide_eq_true_eq] at h
    simp only [Tbl.drop]
    split
    · exact Tbl.sortedFrom_mono (Nat.le_succ_of_le h.1) _ (ih _ h.2)
    · simpa [Tbl.sortedFrom, h.1] using ih _ h.2

theorem Tbl.sortedFrom_keep (p : Nat → Bool) (lo : Nat) (t : Tbl α) (h : Tbl.sortedFrom lo t = true) :
    Tbl.sortedFrom lo (Tbl.keep p t) = true := by
  induction t generalizing lo with
  | nil => rfl
  | cons e r ih =>
    obtain ⟨i, x⟩ := e
    simp only [Tbl.sortedFrom, Bool.and_eq_true, decide_eq_true_eq] at h
    simp only [Tbl.keep, List.filter_cons]
    split
    · simpa [Tbl.sortedFrom, h.1, Tbl.keep] using ih _ h.2
    · exact Tbl.sortedFrom_mono (Nat.le_succ_of_le h.1) _ (ih _ h.2)

theorem Tbl.absent_of_sorted (k lo : Nat) (t : Tbl α) (h : Tbl.sortedFrom lo t = true) (hk : k < lo) :
    Tbl.drop k t = t := by
  induction t generalizing lo with
  | nil => rfl
  | cons e r ih =>
    obtain ⟨i, x⟩ := e
    simp only [Tbl.sortedFrom, Bool.and_eq_true, decide_eq_true_eq] at h
    have : i ≠ k := by omega
    simp [Tbl.drop, this, ih _ h.2 (by omega)]

theorem Tbl.sortedFrom_ins (k lo : Nat) (v : α) (t : Tbl α) (h : Tbl.sortedFrom lo t = true) (hk : lo ≤ k)
    (hd : Tbl.drop k t = t) : Tbl.sortedFrom lo (Tbl.ins k v t) = true := by
  induction t generalizing lo with
  | nil => simp [Tbl.ins, Tbl.sortedFrom, hk]
  | cons e r ih =>
    obtain ⟨i, x⟩ := e
    simp only [Tbl.sortedFrom, Bool.and_eq_true, decide_eq_true_eq] at h
    by_cases hik : i = k
    · exfalso
      have : (Tbl.drop k ((i, x) :: r)).length = ((i, x) :: r).length := by rw [hd]
      have hle : ∀ u : Tbl α, (Tbl.drop k u).length ≤ u.length := by
        intro u
        induction u with
        | nil => simp [Tbl.drop]
        | cons f w iw => obtain ⟨p, q⟩ := f; simp only [Tbl.drop]; split <;> simp <;> omega
      have := hle r
      simp only [Tbl.drop, hik, if_true, List.length_cons] at *
      omega
    · have hd' : Tbl.drop k r = r := by simpa [Tbl.drop, hik] using hd
      by_cases hlt : k < i
      · simp only [Tbl.ins, hlt, if_true, Tbl.sortedFrom, Bool.and_eq_true, decide_eq_true_eq]
        exact ⟨hk, hlt, h.2⟩
      · simp only [Tbl.ins, hlt, if_false, Tbl.sortedFrom, Bool.and_eq_true, decide_eq_true_eq]
        exact ⟨h.1, ih _ h.2 (by omega) hd'⟩

theorem Tbl.drop_drop (k : Nat) (t : Tbl α) : Tbl.drop k (Tbl.drop k t) = Tbl.drop k t := by
  induction t with
  | nil => rfl
  | cons e r ih =>
    obtain ⟨i, x⟩ := e
    by_cases h : i = k <;> simp [Tbl.drop, h, ih]

theorem Tbl.mem_drop {k : Nat} {t : Tbl α} {e : Nat × α} (h : e ∈ Tbl.drop k t) : e ∈ t := by
  induction t with
  | nil => exact h
  | cons f r ih =>
    obtain ⟨i, x⟩ := f
    simp only [Tbl.drop] at h
    split at h
    · exact List.mem_cons_of_mem _ (ih h)
    · rcases List.mem_cons.mp h with h | h
      · simp [h]
      · exact List.mem_cons_of_mem _ (ih h)

theorem Tbl.mem_ins {k : Nat} {v : α} {t : Tbl α} {e : Nat × α} (h : e ∈ Tbl.ins k v t) : e = (k, v) ∨ e ∈ t := by
  induction t with
  | nil => simpa [Tbl.ins] using h
  | cons f r ih =>
    obtain ⟨i, x⟩ := f
    simp only [Tbl.ins] at h
    split at h
    · simpa using h
    · rcases List.mem_cons.mp h with h | h
      · exact Or.inr (by simp [h])
      · rcases ih h with h | h
        · exact Or.inl h
        · exact Or.inr (List.mem_cons_of_mem _ h)

/-- A write keeps the canonical form. -/
theorem Tbl.wf_put [DecidableEq α] (d : α) (k : Nat) (v : α) (t : Tbl α) (h : Tbl.wf d t = true) :
    Tbl.wf d (Tbl.put d k v t) = true := by
  simp only [Tbl.wf, Bool.and_eq_true, List.all_eq_true, decide_eq_true_eq] at h ⊢
  unfold Tbl.put
  split
  · exact ⟨Tbl.sortedFrom_drop _ _ _ h.1, fun e he => h.2 e (Tbl.mem_drop he)⟩
  · next hv =>
    refine ⟨Tbl.sortedFrom_ins _ _ _ _ (Tbl.sortedFrom_drop _ _ _ h.1) (Nat.zero_le _) (Tbl.drop_drop _ _), ?_⟩
    intro e he
    rcases Tbl.mem_ins he with rfl | he
    · exact hv
    · exact h.2 e (Tbl.mem_drop he)

theorem Tbl.wf_keep [DecidableEq α] (d : α) (p : Nat → Bool) (t : Tbl α) (h : Tbl.wf d t = true) :
    Tbl.wf d (Tbl.keep p t) = true := by
  simp only [Tbl.wf, Bool.and_eq_true, List.all_eq_true, decide_eq_true_eq] at h ⊢
  exact ⟨Tbl.sortedFrom_keep _ _ _ h.1, fun e he => h.2 e (List.mem_filter.mp he |>.1)⟩

theorem Tbl.wf_clearRange [DecidableEq α] (d : α) (a n : Nat) (t : Tbl α) (h : Tbl.wf d t = true) :
    Tbl.wf d (Tbl.clearRange a n t) = true := Tbl.wf_keep _ _ _ h

theorem Tbl.wf_copyRange [DecidableEq α] (d : α) (a b n : Nat) (t : Tbl α) (h : Tbl.wf d t = true) :
    Tbl.wf d (Tbl.copyRange d a b n t) = true := by
  unfold Tbl.copyRange
  have : ∀ (l : List (Nat × α)) (u : Tbl α), Tbl.wf d u = true →
      Tbl.wf d (l.foldl (fun u e => Tbl.put d (b + (e.1 - a)) e.2 u) u) = true := by
    intro l
    induction l with
    | nil => intro u hu; exact hu
    | cons e r ih => intro u hu; exact ih _ (Tbl.wf_put _ _ _ _ hu)
  exact this _ _ (Tbl.wf_keep _ _ _ h)

end Sys2Proof.Machine
end

