-- ==== Sys2Proof/Laws/State.lean ====
section
/-! SUPPORT.  What each update of the state leaves in each field: one lemma per field and update, and the
laws of cells and of memory. -/

namespace Sys2Proof.Machine

/-! ## Cells -/

/-- A cell reads as what was last written to it. -/
@[simp] theorem State.rd_wr_same (s : State) (f : Fld) (i v : Nat) : (s.wr f i v).rd f i = v % 2 ^ f.w := by
  simp [State.rd, State.wr]

/-- A write of one cell leaves every other cell. -/
theorem State.rd_wr_cell (s : State) (f g : Fld) (i j v : Nat) (h : f.id ≠ g.id) : (s.wr f i v).rd g j = s.rd g j := by
  simp [State.rd, State.wr, Tbl.get_put, h]

/-- A write of one instance leaves every other instance. -/
theorem State.rd_wr_inst (s : State) (f : Fld) (i j v : Nat) (h : i ≠ j) : (s.wr f i v).rd f j = s.rd f j := by
  simp [State.rd, State.wr, Tbl.get_put_ne _ _ h]

/-- A write leaves every instance of every cell but its own. -/
theorem State.rd_wr_other (s : State) (f g : Fld) (i j v : Nat) (h : f.id = g.id → i ≠ j) :
    (s.wr f i v).rd g j = s.rd g j := by
  by_cases hf : f.id = g.id
  · have hi := h hf
    simp [State.rd, State.wr, hf, Tbl.get_put_ne _ _ hi]
  · exact State.rd_wr_cell s f g i j v hf

/-- Any cell after a write of an instance of it. -/
theorem State.rd_wr (s : State) (f : Fld) (i j v : Nat) :
    (s.wr f i v).rd f j = if i = j then v % 2 ^ f.w else s.rd f j := by
  by_cases h : i = j
  · subst h; simp
  · simp [h, State.rd_wr_inst]

@[simp] theorem State.set_eq_wr (s : State) (f : Fld) (v : Nat) : s.set f v = s.wr f 0 v := rfl

theorem State.on_eq (s : State) (f : Fld) (i : Nat) : s.on f i = (s.rd f i != 0) := rfl

/-- A cell holds a number of its width. -/
theorem State.rd_lt (s : State) (f : Fld) (i : Nat) : s.rd f i < 2 ^ f.w := Nat.mod_lt _ (Nat.two_pow_pos _)

/-- At reset every cell holds its reset value. -/
theorem State.reset_rd (f : Fld) (i : Nat) : State.reset.rd f i = f.resetAt i % 2 ^ f.w := rfl

/-- Folding an operation over a list leaves what each application leaves. -/
theorem State.over_rd {α : Type} (s : State) (l : List α) (f : State → α → State) (g : Fld) (j : Nat)
    (h : ∀ s a, (f s a).rd g j = s.rd g j) : (s.over l f).rd g j = s.rd g j := by
  unfold State.over
  induction l generalizing s with
  | nil => rfl
  | cons a r ih => simp [ih, h]

/-- Folding an operation over a list leaves what each application leaves, for any reading of the state. -/
theorem State.over_keeps {α β : Type} (p : State → β) (s : State) (l : List α) (f : State → α → State)
    (h : ∀ s a, p (f s a) = p s) : p (s.over l f) = p s := by
  unfold State.over
  induction l generalizing s with
  | nil => rfl
  | cons a r ih => simp [ih, h]

/-! ## wr changes `cells` alone -/

@[simp] theorem State.wr_pending (s : State) (f : Fld) (i v : Nat) : (s.wr f i v).pending = s.pending := rfl
@[simp] theorem State.wr_mem (s : State) (f : Fld) (i v : Nat) : (s.wr f i v).mem = s.mem := rfl
@[simp] theorem State.wr_freeCtr (s : State) (f : Fld) (i v : Nat) : (s.wr f i v).freeCtr = s.freeCtr := rfl
@[simp] theorem State.wr_rdata (s : State) (f : Fld) (i v : Nat) : (s.wr f i v).rdata = s.rdata := rfl
@[simp] theorem State.wr_partialFuses (s : State) (f : Fld) (i v : Nat) : (s.wr f i v).partialFuses = s.partialFuses := rfl
@[simp] theorem State.wr_bundles (s : State) (f : Fld) (i v : Nat) : (s.wr f i v).bundles = s.bundles := rfl
@[simp] theorem State.wr_landings (s : State) (f : Fld) (i v : Nat) : (s.wr f i v).landings = s.landings := rfl
@[simp] theorem State.wr_macShadow (s : State) (f : Fld) (i v : Nat) : (s.wr f i v).macShadow = s.macShadow := rfl
@[simp] theorem State.wr_iLines (s : State) (f : Fld) (i v : Nat) : (s.wr f i v).iLines = s.iLines := rfl
@[simp] theorem State.wr_dLines (s : State) (f : Fld) (i v : Nat) : (s.wr f i v).dLines = s.dLines := rfl
@[simp] theorem State.wr_tlbs (s : State) (f : Fld) (i v : Nat) : (s.wr f i v).tlbs = s.tlbs := rfl
@[simp] theorem State.wr_queues (s : State) (f : Fld) (i v : Nat) : (s.wr f i v).queues = s.queues := rfl
@[simp] theorem State.wr_rxFrames (s : State) (f : Fld) (i v : Nat) : (s.wr f i v).rxFrames = s.rxFrames := rfl
@[simp] theorem State.wr_egress (s : State) (f : Fld) (i v : Nat) : (s.wr f i v).egress = s.egress := rfl
@[simp] theorem State.wr_links (s : State) (f : Fld) (i v : Nat) : (s.wr f i v).links = s.links := rfl
@[simp] theorem State.wr_wire (s : State) (f : Fld) (i v : Nat) : (s.wr f i v).wire = s.wire := rfl

/-! ## clearFld changes `cells` alone -/

@[simp] theorem State.clearFld_pending (s : State) (f : Fld) : (s.clearFld f).pending = s.pending := rfl
@[simp] theorem State.clearFld_mem (s : State) (f : Fld) : (s.clearFld f).mem = s.mem := rfl
@[simp] theorem State.clearFld_freeCtr (s : State) (f : Fld) : (s.clearFld f).freeCtr = s.freeCtr := rfl
@[simp] theorem State.clearFld_rdata (s : State) (f : Fld) : (s.clearFld f).rdata = s.rdata := rfl
@[simp] theorem State.clearFld_partialFuses (s : State) (f : Fld) : (s.clearFld f).partialFuses = s.partialFuses := rfl
@[simp] theorem State.clearFld_bundles (s : State) (f : Fld) : (s.clearFld f).bundles = s.bundles := rfl
@[simp] theorem State.clearFld_landings (s : State) (f : Fld) : (s.clearFld f).landings = s.landings := rfl
@[simp] theorem State.clearFld_macShadow (s : State) (f : Fld) : (s.clearFld f).macShadow = s.macShadow := rfl
@[simp] theorem State.clearFld_iLines (s : State) (f : Fld) : (s.clearFld f).iLines = s.iLines := rfl
@[simp] theorem State.clearFld_dLines (s : State) (f : Fld) : (s.clearFld f).dLines = s.dLines := rfl
@[simp] theorem State.clearFld_tlbs (s : State) (f : Fld) : (s.clearFld f).tlbs = s.tlbs := rfl
@[simp] theorem State.clearFld_queues (s : State) (f : Fld) : (s.clearFld f).queues = s.queues := rfl
@[simp] theorem State.clearFld_rxFrames (s : State) (f : Fld) : (s.clearFld f).rxFrames = s.rxFrames := rfl
@[simp] theorem State.clearFld_egress (s : State) (f : Fld) : (s.clearFld f).egress = s.egress := rfl
@[simp] theorem State.clearFld_links (s : State) (f : Fld) : (s.clearFld f).links = s.links := rfl
@[simp] theorem State.clearFld_wire (s : State) (f : Fld) : (s.clearFld f).wire = s.wire := rfl

/-! ## putByte changes `mem` alone -/

@[simp] theorem State.putByte_pending (s : State) (a : Nat) (b : Byte) : (s.putByte a b).pending = s.pending := rfl
@[simp] theorem State.putByte_cells (s : State) (a : Nat) (b : Byte) : (s.putByte a b).cells = s.cells := rfl
@[simp] theorem State.putByte_freeCtr (s : State) (a : Nat) (b : Byte) : (s.putByte a b).freeCtr = s.freeCtr := rfl
@[simp] theorem State.putByte_rdata (s : State) (a : Nat) (b : Byte) : (s.putByte a b).rdata = s.rdata := rfl
@[simp] theorem State.putByte_partialFuses (s : State) (a : Nat) (b : Byte) : (s.putByte a b).partialFuses = s.partialFuses := rfl
@[simp] theorem State.putByte_bundles (s : State) (a : Nat) (b : Byte) : (s.putByte a b).bundles = s.bundles := rfl
@[simp] theorem State.putByte_landings (s : State) (a : Nat) (b : Byte) : (s.putByte a b).landings = s.landings := rfl
@[simp] theorem State.putByte_macShadow (s : State) (a : Nat) (b : Byte) : (s.putByte a b).macShadow = s.macShadow := rfl
@[simp] theorem State.putByte_iLines (s : State) (a : Nat) (b : Byte) : (s.putByte a b).iLines = s.iLines := rfl
@[simp] theorem State.putByte_dLines (s : State) (a : Nat) (b : Byte) : (s.putByte a b).dLines = s.dLines := rfl
@[simp] theorem State.putByte_tlbs (s : State) (a : Nat) (b : Byte) : (s.putByte a b).tlbs = s.tlbs := rfl
@[simp] theorem State.putByte_queues (s : State) (a : Nat) (b : Byte) : (s.putByte a b).queues = s.queues := rfl
@[simp] theorem State.putByte_rxFrames (s : State) (a : Nat) (b : Byte) : (s.putByte a b).rxFrames = s.rxFrames := rfl
@[simp] theorem State.putByte_egress (s : State) (a : Nat) (b : Byte) : (s.putByte a b).egress = s.egress := rfl
@[simp] theorem State.putByte_links (s : State) (a : Nat) (b : Byte) : (s.putByte a b).links = s.links := rfl
@[simp] theorem State.putByte_wire (s : State) (a : Nat) (b : Byte) : (s.putByte a b).wire = s.wire := rfl
@[simp] theorem State.putByte_rd (s : State) (a : Nat) (b : Byte) (g : Fld) (j : Nat) : (s.putByte a b).rd g j = s.rd g j := rfl

/-! ## copyMem changes `mem` alone -/

@[simp] theorem State.copyMem_pending (s : State) (a b n : Nat) : (s.copyMem a b n).pending = s.pending := rfl
@[simp] theorem State.copyMem_cells (s : State) (a b n : Nat) : (s.copyMem a b n).cells = s.cells := rfl
@[simp] theorem State.copyMem_freeCtr (s : State) (a b n : Nat) : (s.copyMem a b n).freeCtr = s.freeCtr := rfl
@[simp] theorem State.copyMem_rdata (s : State) (a b n : Nat) : (s.copyMem a b n).rdata = s.rdata := rfl
@[simp] theorem State.copyMem_partialFuses (s : State) (a b n : Nat) : (s.copyMem a b n).partialFuses = s.partialFuses := rfl
@[simp] theorem State.copyMem_bundles (s : State) (a b n : Nat) : (s.copyMem a b n).bundles = s.bundles := rfl
@[simp] theorem State.copyMem_landings (s : State) (a b n : Nat) : (s.copyMem a b n).landings = s.landings := rfl
@[simp] theorem State.copyMem_macShadow (s : State) (a b n : Nat) : (s.copyMem a b n).macShadow = s.macShadow := rfl
@[simp] theorem State.copyMem_iLines (s : State) (a b n : Nat) : (s.copyMem a b n).iLines = s.iLines := rfl
@[simp] theorem State.copyMem_dLines (s : State) (a b n : Nat) : (s.copyMem a b n).dLines = s.dLines := rfl
@[simp] theorem State.copyMem_tlbs (s : State) (a b n : Nat) : (s.copyMem a b n).tlbs = s.tlbs := rfl
@[simp] theorem State.copyMem_queues (s : State) (a b n : Nat) : (s.copyMem a b n).queues = s.queues := rfl
@[simp] theorem State.copyMem_rxFrames (s : State) (a b n : Nat) : (s.copyMem a b n).rxFrames = s.rxFrames := rfl
@[simp] theorem State.copyMem_egress (s : State) (a b n : Nat) : (s.copyMem a b n).egress = s.egress := rfl
@[simp] theorem State.copyMem_links (s : State) (a b n : Nat) : (s.copyMem a b n).links = s.links := rfl
@[simp] theorem State.copyMem_wire (s : State) (a b n : Nat) : (s.copyMem a b n).wire = s.wire := rfl
@[simp] theorem State.copyMem_rd (s : State) (a b n : Nat) (g : Fld) (j : Nat) : (s.copyMem a b n).rd g j = s.rd g j := rfl

/-! ## loseMem changes `mem` alone -/

@[simp] theorem State.loseMem_pending (s : State) (a n : Nat) : (s.loseMem a n).pending = s.pending := rfl
@[simp] theorem State.loseMem_cells (s : State) (a n : Nat) : (s.loseMem a n).cells = s.cells := rfl
@[simp] theorem State.loseMem_freeCtr (s : State) (a n : Nat) : (s.loseMem a n).freeCtr = s.freeCtr := rfl
@[simp] theorem State.loseMem_rdata (s : State) (a n : Nat) : (s.loseMem a n).rdata = s.rdata := rfl
@[simp] theorem State.loseMem_partialFuses (s : State) (a n : Nat) : (s.loseMem a n).partialFuses = s.partialFuses := rfl
@[simp] theorem State.loseMem_bundles (s : State) (a n : Nat) : (s.loseMem a n).bundles = s.bundles := rfl
@[simp] theorem State.loseMem_landings (s : State) (a n : Nat) : (s.loseMem a n).landings = s.landings := rfl
@[simp] theorem State.loseMem_macShadow (s : State) (a n : Nat) : (s.loseMem a n).macShadow = s.macShadow := rfl
@[simp] theorem State.loseMem_iLines (s : State) (a n : Nat) : (s.loseMem a n).iLines = s.iLines := rfl
@[simp] theorem State.loseMem_dLines (s : State) (a n : Nat) : (s.loseMem a n).dLines = s.dLines := rfl
@[simp] theorem State.loseMem_tlbs (s : State) (a n : Nat) : (s.loseMem a n).tlbs = s.tlbs := rfl
@[simp] theorem State.loseMem_queues (s : State) (a n : Nat) : (s.loseMem a n).queues = s.queues := rfl
@[simp] theorem State.loseMem_rxFrames (s : State) (a n : Nat) : (s.loseMem a n).rxFrames = s.rxFrames := rfl
@[simp] theorem State.loseMem_egress (s : State) (a n : Nat) : (s.loseMem a n).egress = s.egress := rfl
@[simp] theorem State.loseMem_links (s : State) (a n : Nat) : (s.loseMem a n).links = s.links := rfl
@[simp] theorem State.loseMem_wire (s : State) (a n : Nat) : (s.loseMem a n).wire = s.wire := rfl
@[simp] theorem State.loseMem_rd (s : State) (a n : Nat) (g : Fld) (j : Nat) : (s.loseMem a n).rd g j = s.rd g j := rfl

/-! ## seen changes `rdata` alone -/

@[simp] theorem State.seen_pending (s : State) (c v : Nat) : (s.seen c v).pending = s.pending := rfl
@[simp] theorem State.seen_cells (s : State) (c v : Nat) : (s.seen c v).cells = s.cells := rfl
@[simp] theorem State.seen_mem (s : State) (c v : Nat) : (s.seen c v).mem = s.mem := rfl
@[simp] theorem State.seen_freeCtr (s : State) (c v : Nat) : (s.seen c v).freeCtr = s.freeCtr := rfl
@[simp] theorem State.seen_partialFuses (s : State) (c v : Nat) : (s.seen c v).partialFuses = s.partialFuses := rfl
@[simp] theorem State.seen_bundles (s : State) (c v : Nat) : (s.seen c v).bundles = s.bundles := rfl
@[simp] theorem State.seen_landings (s : State) (c v : Nat) : (s.seen c v).landings = s.landings := rfl
@[simp] theorem State.seen_macShadow (s : State) (c v : Nat) : (s.seen c v).macShadow = s.macShadow := rfl
@[simp] theorem State.seen_iLines (s : State) (c v : Nat) : (s.seen c v).iLines = s.iLines := rfl
@[simp] theorem State.seen_dLines (s : State) (c v : Nat) : (s.seen c v).dLines = s.dLines := rfl
@[simp] theorem State.seen_tlbs (s : State) (c v : Nat) : (s.seen c v).tlbs = s.tlbs := rfl
@[simp] theorem State.seen_queues (s : State) (c v : Nat) : (s.seen c v).queues = s.queues := rfl
@[simp] theorem State.seen_rxFrames (s : State) (c v : Nat) : (s.seen c v).rxFrames = s.rxFrames := rfl
@[simp] theorem State.seen_egress (s : State) (c v : Nat) : (s.seen c v).egress = s.egress := rfl
@[simp] theorem State.seen_links (s : State) (c v : Nat) : (s.seen c v).links = s.links := rfl
@[simp] theorem State.seen_wire (s : State) (c v : Nat) : (s.seen c v).wire = s.wire := rfl
@[simp] theorem State.seen_rd (s : State) (c v : Nat) (g : Fld) (j : Nat) : (s.seen c v).rd g j = s.rd g j := rfl

/-! ## withPending changes `pending` alone -/

@[simp] theorem State.withPending_cells (s : State) (q : List Instr) : (s.withPending q).cells = s.cells := rfl
@[simp] theorem State.withPending_mem (s : State) (q : List Instr) : (s.withPending q).mem = s.mem := rfl
@[simp] theorem State.withPending_freeCtr (s : State) (q : List Instr) : (s.withPending q).freeCtr = s.freeCtr := rfl
@[simp] theorem State.withPending_rdata (s : State) (q : List Instr) : (s.withPending q).rdata = s.rdata := rfl
@[simp] theorem State.withPending_partialFuses (s : State) (q : List Instr) : (s.withPending q).partialFuses = s.partialFuses := rfl
@[simp] theorem State.withPending_bundles (s : State) (q : List Instr) : (s.withPending q).bundles = s.bundles := rfl
@[simp] theorem State.withPending_landings (s : State) (q : List Instr) : (s.withPending q).landings = s.landings := rfl
@[simp] theorem State.withPending_macShadow (s : State) (q : List Instr) : (s.withPending q).macShadow = s.macShadow := rfl
@[simp] theorem State.withPending_iLines (s : State) (q : List Instr) : (s.withPending q).iLines = s.iLines := rfl
@[simp] theorem State.withPending_dLines (s : State) (q : List Instr) : (s.withPending q).dLines = s.dLines := rfl
@[simp] theorem State.withPending_tlbs (s : State) (q : List Instr) : (s.withPending q).tlbs = s.tlbs := rfl
@[simp] theorem State.withPending_queues (s : State) (q : List Instr) : (s.withPending q).queues = s.queues := rfl
@[simp] theorem State.withPending_rxFrames (s : State) (q : List Instr) : (s.withPending q).rxFrames = s.rxFrames := rfl
@[simp] theorem State.withPending_egress (s : State) (q : List Instr) : (s.withPending q).egress = s.egress := rfl
@[simp] theorem State.withPending_links (s : State) (q : List Instr) : (s.withPending q).links = s.links := rfl
@[simp] theorem State.withPending_wire (s : State) (q : List Instr) : (s.withPending q).wire = s.wire := rfl
@[simp] theorem State.withPending_rd (s : State) (q : List Instr) (g : Fld) (j : Nat) : (s.withPending q).rd g j = s.rd g j := rfl

@[simp] theorem State.withPending_pending (s : State) (q : List Instr) : (s.withPending q).pending = q := rfl

/-! ## A change of a field that is not `cells` leaves every cell -/

@[simp] theorem State.rd_with_pending (s : State) (x : List Instr) (g : Fld) (j : Nat) :
    State.rd (State.mk x s.cells s.mem s.freeCtr s.rdata s.partialFuses s.bundles s.landings s.macShadow s.iLines s.dLines s.tlbs s.queues s.rxFrames s.egress s.links s.wire) g j = s.rd g j := rfl
@[simp] theorem State.rd_with_mem (s : State) (x : List Host.Cell) (g : Fld) (j : Nat) :
    State.rd (State.mk s.pending s.cells x s.freeCtr s.rdata s.partialFuses s.bundles s.landings s.macShadow s.iLines s.dLines s.tlbs s.queues s.rxFrames s.egress s.links s.wire) g j = s.rd g j := rfl
@[simp] theorem State.rd_with_freeCtr (s : State) (x : Nat) (g : Fld) (j : Nat) :
    State.rd (State.mk s.pending s.cells s.mem x s.rdata s.partialFuses s.bundles s.landings s.macShadow s.iLines s.dLines s.tlbs s.queues s.rxFrames s.egress s.links s.wire) g j = s.rd g j := rfl
@[simp] theorem State.rd_with_rdata (s : State) (x : Tbl Nat) (g : Fld) (j : Nat) :
    State.rd (State.mk s.pending s.cells s.mem s.freeCtr x s.partialFuses s.bundles s.landings s.macShadow s.iLines s.dLines s.tlbs s.queues s.rxFrames s.egress s.links s.wire) g j = s.rd g j := rfl
@[simp] theorem State.rd_with_partialFuses (s : State) (x : List Nat) (g : Fld) (j : Nat) :
    State.rd (State.mk s.pending s.cells s.mem s.freeCtr s.rdata x s.bundles s.landings s.macShadow s.iLines s.dLines s.tlbs s.queues s.rxFrames s.egress s.links s.wire) g j = s.rd g j := rfl
@[simp] theorem State.rd_with_bundles (s : State) (x : Tbl Bundle) (g : Fld) (j : Nat) :
    State.rd (State.mk s.pending s.cells s.mem s.freeCtr s.rdata s.partialFuses x s.landings s.macShadow s.iLines s.dLines s.tlbs s.queues s.rxFrames s.egress s.links s.wire) g j = s.rd g j := rfl
@[simp] theorem State.rd_with_landings (s : State) (x : Tbl (List Landing)) (g : Fld) (j : Nat) :
    State.rd (State.mk s.pending s.cells s.mem s.freeCtr s.rdata s.partialFuses s.bundles x s.macShadow s.iLines s.dLines s.tlbs s.queues s.rxFrames s.egress s.links s.wire) g j = s.rd g j := rfl
@[simp] theorem State.rd_with_macShadow (s : State) (x : Tbl (List (Nat × Nat))) (g : Fld) (j : Nat) :
    State.rd (State.mk s.pending s.cells s.mem s.freeCtr s.rdata s.partialFuses s.bundles s.landings x s.iLines s.dLines s.tlbs s.queues s.rxFrames s.egress s.links s.wire) g j = s.rd g j := rfl
@[simp] theorem State.rd_with_iLines (s : State) (x : Tbl (List Nat)) (g : Fld) (j : Nat) :
    State.rd (State.mk s.pending s.cells s.mem s.freeCtr s.rdata s.partialFuses s.bundles s.landings s.macShadow x s.dLines s.tlbs s.queues s.rxFrames s.egress s.links s.wire) g j = s.rd g j := rfl
@[simp] theorem State.rd_with_dLines (s : State) (x : Tbl DLine) (g : Fld) (j : Nat) :
    State.rd (State.mk s.pending s.cells s.mem s.freeCtr s.rdata s.partialFuses s.bundles s.landings s.macShadow s.iLines x s.tlbs s.queues s.rxFrames s.egress s.links s.wire) g j = s.rd g j := rfl
@[simp] theorem State.rd_with_tlbs (s : State) (x : Tbl (List TlbEntry)) (g : Fld) (j : Nat) :
    State.rd (State.mk s.pending s.cells s.mem s.freeCtr s.rdata s.partialFuses s.bundles s.landings s.macShadow s.iLines s.dLines x s.queues s.rxFrames s.egress s.links s.wire) g j = s.rd g j := rfl
@[simp] theorem State.rd_with_queues (s : State) (x : Tbl Queue) (g : Fld) (j : Nat) :
    State.rd (State.mk s.pending s.cells s.mem s.freeCtr s.rdata s.partialFuses s.bundles s.landings s.macShadow s.iLines s.dLines s.tlbs x s.rxFrames s.egress s.links s.wire) g j = s.rd g j := rfl
@[simp] theorem State.rd_with_rxFrames (s : State) (x : List RxFrame) (g : Fld) (j : Nat) :
    State.rd (State.mk s.pending s.cells s.mem s.freeCtr s.rdata s.partialFuses s.bundles s.landings s.macShadow s.iLines s.dLines s.tlbs s.queues x s.egress s.links s.wire) g j = s.rd g j := rfl
@[simp] theorem State.rd_with_egress (s : State) (x : Tbl (List EgFrame)) (g : Fld) (j : Nat) :
    State.rd (State.mk s.pending s.cells s.mem s.freeCtr s.rdata s.partialFuses s.bundles s.landings s.macShadow s.iLines s.dLines s.tlbs s.queues s.rxFrames x s.links s.wire) g j = s.rd g j := rfl
@[simp] theorem State.rd_with_links (s : State) (x : Tbl Link) (g : Fld) (j : Nat) :
    State.rd (State.mk s.pending s.cells s.mem s.freeCtr s.rdata s.partialFuses s.bundles s.landings s.macShadow s.iLines s.dLines s.tlbs s.queues s.rxFrames s.egress x s.wire) g j = s.rd g j := rfl
@[simp] theorem State.rd_with_wire (s : State) (x : Tbl (List Byte)) (g : Fld) (j : Nat) :
    State.rd (State.mk s.pending s.cells s.mem s.freeCtr s.rdata s.partialFuses s.bundles s.landings s.macShadow s.iLines s.dLines s.tlbs s.queues s.rxFrames s.egress s.links x) g j = s.rd g j := rfl

end Sys2Proof.Machine
end

