-- ==== Sys2Proof/Laws/Issue.lean ====
section
/-! SUPPORT.  What the issue of a bundle of one syllable does on a core with nothing outstanding: one law for
every syllable whose effects stay in the core. -/

namespace Sys2Proof.Machine

open Sys2Proof.Safety

/-- The cells of the register banks that a result can land in. -/
def resultCells : List Fld :=
  [I.d, I.p, I.m, I.bb, I.ll, I.ac, I.flZ, I.flN, I.flC, I.flV, I.cmode, I.acov, I.rrb, I.trapv, I.trpc, I.tcause,
   I.taddr, I.tds, I.tbtgt, I.lc, I.ls, I.le, I.scr]

/-- Those, and what a bundle's issue writes. -/
def bankCells : List Fld := resultCells ++ [I.pcb, I.cycle, I.qstall]

theorem bankCells_ne_controlCells : ∀ f ∈ bankCells, ∀ g ∈ controlCells, f.id ≠ g.id := by decide

theorem resultCells_ne_issue : ∀ f ∈ resultCells, f.id ≠ I.pcb.id ∧ f.id ≠ I.cycle.id ∧ f.id ≠ I.qstall.id := by decide


/-- Two states that agree but for what the fetching of code changes. -/
def SameButFetch (s t : State) : Prop := t = { s with iLines := t.iLines, tlbs := t.tlbs, freeCtr := t.freeCtr }

theorem SameButFetch.trans {s t u : State} (h : SameButFetch s t) (k : SameButFetch t u) : SameButFetch s u := by
  unfold SameButFetch at *
  rw [k, h]

theorem tlbNote_same (s : State) (c a : Nat) : SameButFetch s (tlbNote s c a) := by
  unfold tlbNote
  split
  · cases walk s c a with
    | none => rfl
    | some e => by_cases hl : (tlbOf s c).length < 64 <;> simp only [hl, if_true, if_false] <;> rfl
  · rfl

theorem fetchLine_same (s : State) (c a : Nat) : SameButFetch s (fetchLine s c a) := by
  unfold fetchLine
  cases fetchAddr s c a with
  | none => rfl
  | some pa =>
    simp only []
    split
    · rfl
    · split <;> split
      all_goals first
        | rfl
        | exact SameButFetch.trans (t := tlbNote s c a) (tlbNote_same s c a) rfl
        | exact SameButFetch.trans (t := tlbNote s.draw.2 c a) ((show SameButFetch s s.draw.2 from rfl).trans (tlbNote_same _ c a)) rfl
theorem SameButFetch.rd {s t : State} (h : SameButFetch s t) (g : Fld) (j : Nat) : t.rd g j = s.rd g j := by
  unfold SameButFetch at h
  rw [h]; rfl

/-! ## Effects that stay in the core -/

/-- Effects that write registers of the core alone. -/
def Quiet : Eff → Prop
  | .put f _ _ _ => f ∈ resultCells
  | .putBits f _ _ _ _ => f ∈ resultCells
  | .accPut _ _ => True
  | .overflow _ => True
  | _ => False

/-- The results of an effect that stays in the core. -/
def newOf (b : Nat) : Eff → List Landing
  | .put f i v lat => [putLanding f i v lat]
  | .putBits f i v mask lat => [⟨lat, f, i, v, some mask⟩]
  | .accPut i v => [putLanding I.ac i v 1]
  | .overflow acc => [⟨2, I.acov, b, 2 ^ acc, some (2 ^ acc)⟩]
  | _ => []

theorem effsNow_quiet (s : State) (c : Nat) (effs : List Eff) (h : ∀ x ∈ effs, Quiet x) :
    effsNow c s effs = (s, effs.flatMap (newOf (rbank s c))) := by
  induction effs with
  | nil => rfl
  | cons x r ih =>
    have hx := h x (by simp)
    have hr := ih fun y hy => h y (by simp [hy])
    cases x <;> simp_all [effsNow, effNow, newOf, Quiet]

theorem issueOrder_quiet (c : Nat) (effs : List Eff) (h : ∀ x ∈ effs, Quiet x) : issueOrder c effs = effs := by
  have h1 : effs.filter (fun x => !x.isStore && !x.isAct) = effs := by
    apply List.filter_eq_self.mpr
    intro x hx; have := h x hx
    cases x <;> simp_all [Quiet, Eff.isStore, Eff.isAct]
  have h2 : effs.filter Eff.isStore = [] := by
    apply List.filter_eq_nil_iff.mpr
    intro x hx; have := h x hx
    cases x <;> simp_all [Quiet, Eff.isStore]
  have h3 : effs.filter Eff.isAct = [] := by
    apply List.filter_eq_nil_iff.mpr
    intro x hx; have := h x hx
    cases x <;> simp_all [Quiet, Eff.isAct]
  unfold issueOrder
  split
  · rfl
  · rw [h1, h2, h3]; simp

theorem bundleAct_quiet (effs : List Eff) (h : ∀ x ∈ effs, Quiet x) : bundleAct effs = none := by
  unfold bundleAct
  apply List.findSome?_eq_none_iff.mpr
  intro x hx; have := h x hx
  cases x <;> simp_all [Quiet]

theorem meetOf_quiet (s : State) (c : Nat) (x : Eff) (h : Quiet x) : meetOf s c x = .ok := by
  cases x <;> simp_all [Quiet, meetOf]

theorem meetCauses_quiet (s : State) (c : Nat) (effs : List Eff) (h : ∀ x ∈ effs, Quiet x) : meetCauses s c effs = [] := by
  unfold meetCauses
  apply List.filterMap_eq_nil_iff.mpr
  intro x hx
  rw [meetOf_quiet s c x (h x hx)]

theorem faultAddrs_quiet (s : State) (c : Nat) (effs : List Eff) (h : ∀ x ∈ effs, Quiet x) : faultAddrs s c effs = [] := by
  unfold faultAddrs
  apply List.filterMap_eq_nil_iff.mpr
  intro x hx
  rw [meetOf_quiet s c x (h x hx)]
  simp

theorem queueWaits_quiet (s : State) (effs : List Eff) (h : ∀ x ∈ effs, Quiet x) : effs.any (queueWaits s) = false := by
  apply List.any_eq_false.mpr
  intro x hx; have := h x hx
  cases x <;> simp_all [Quiet, queueWaits]

/-! ## The flow of control outside loops and delay bundles -/

theorem seqCauses_none (s : State) (b : Nat) (act : Option Act) (ha : s.rd I.act b = 0) (hd : s.rd I.dly b = 0) :
    seqCauses s b act = [] := by
  simp [seqCauses, atLoopEnd, loopActive, ha, hd, State.on, bitOf]

theorem advance_plain (s : State) (b n : Nat) (ha : s.rd I.act b = 0) (hd : s.rd I.dly b = 0) :
    advance s b n none = s.wr I.pcb b (s.rd I.pcb b + 4 * n) := by
  have hd' : (s.wr I.pcb b (s.rd I.pcb b + 4 * n)).rd I.dly b = 0 := by
    rw [State.rd_wr_cell _ _ _ _ _ _ (by decide), hd]
  simp [advance, loopEnds, loopEnd, atLoopEnd, loopActive, ha, bitOf, State.on, hd']

/-! ## Landings of a core with nothing in flight -/

/-- The results that land at the end of their bundle. -/
def landNow (s : State) (new : List Landing) : State := s.over (new.filter fun l => decide (l.left ≤ 1)) land

/-- The results that stay in flight. -/
def stay (new : List Landing) : List Landing :=
  (new.filter fun l => decide (1 < l.left)).map fun l => { l with left := l.left - 1 }

theorem landings_empty (s : State) (b : Nat) (new : List Landing) (h : inFlight s b = []) :
    landings s b new = { landNow s new with landings := Tbl.put [] b (stay new) (landNow s new).landings } := by
  simp [landings, h, landDue, State.over, landNow, stay]

theorem SameButCells.trans {s t u : State} (h : SameButCells s t) (k : SameButCells t u) : SameButCells s u := by
  unfold SameButCells at *
  rw [k, h]

theorem over_sameButCells {α : Type} (s : State) (l : List α) (f : State → α → State)
    (h : ∀ u a, SameButCells u (f u a)) : SameButCells s (s.over l f) := by
  unfold State.over
  induction l generalizing s with
  | nil => rfl
  | cons a r ih => exact SameButCells.trans (h s a) (ih _)

theorem landNow_same (s : State) (new : List Landing) : SameButCells s (landNow s new) :=
  over_sameButCells _ _ _ fun _ _ => rfl

theorem landNow_rd (s : State) (new : List Landing) (g : Fld) (j : Nat)
    (h : ∀ l ∈ new, l.left ≤ 1 → l.fld.id = g.id → l.inst ≠ j) : (landNow s new).rd g j = s.rd g j := by
  unfold landNow State.over
  induction new generalizing s with
  | nil => rfl
  | cons a r ih =>
    by_cases ha : a.left ≤ 1
    · simp only [List.filter_cons, ha, decide_true, if_true, List.foldl_cons]
      rw [ih _ (fun l hl => h l (by simp [hl]))]
      exact State.rd_wr_other _ _ _ _ _ _ (h a (by simp) ha)
    · simp only [List.filter_cons, ha, decide_false]
      exact ih s (fun l hl => h l (by simp [hl]))


/-! ## The end of a bundle -/

/-- What the end of a bundle does in bank b: results that are due land, the others stay in flight. -/
def bundleEnd (u : State) (b : Nat) (new : List Landing) (shadow : List (Nat × Nat)) : State :=
  ({ landNow u new with
      landings := Tbl.put [] b (stay new) (landNow u new).landings
      macShadow := Tbl.put [] b shadow (landNow u new).macShadow
      freeCtr := (landNow u new).freeCtr + 1 } : State).wr I.cycle b ((landNow u new).rd I.cycle b + 1)

theorem landNow_eq (u : State) (new : List Landing) : landNow u new = { u with cells := (landNow u new).cells } :=
  landNow_same u new

theorem bundleEnd_rd (u : State) (b : Nat) (new : List Landing) (shadow : List (Nat × Nat)) (g : Fld) (j : Nat)
    (hc : I.cycle.id = g.id → b ≠ j) (h : ∀ l ∈ new, l.left ≤ 1 → l.fld.id = g.id → l.inst ≠ j) :
    (bundleEnd u b new shadow).rd g j = u.rd g j :=
  (State.rd_wr_other _ _ _ _ _ _ hc).trans (landNow_rd u new g j h)

theorem bundleEnd_landed (u : State) (b : Nat) (new : List Landing) (shadow : List (Nat × Nat)) (g : Fld) (j : Nat)
    (hc : I.cycle.id = g.id → b ≠ j) : (bundleEnd u b new shadow).rd g j = (landNow u new).rd g j :=
  State.rd_wr_other _ _ _ _ _ _ hc

theorem bundleEnd_inFlight (u : State) (b : Nat) (new : List Landing) (shadow : List (Nat × Nat)) :
    inFlight (bundleEnd u b new shadow) b = stay new := by
  simp [bundleEnd, inFlight]

theorem bundleEnd_inFlight_ne (u : State) (b d : Nat) (new : List Landing) (shadow : List (Nat × Nat)) (h : d ≠ b) :
    inFlight (bundleEnd u b new shadow) d = inFlight u d := by
  have hs := landNow_eq u new
  rw [bundleEnd, hs]
  simp [inFlight, Tbl.get_put_ne, h.symm]

theorem bundleEnd_same (u : State) (b : Nat) (new : List Landing) (shadow : List (Nat × Nat)) :
    bundleEnd u b new shadow = { u with
      cells := (bundleEnd u b new shadow).cells, landings := Tbl.put [] b (stay new) u.landings,
      macShadow := Tbl.put [] b shadow u.macShadow, freeCtr := u.freeCtr + 1 } := by
  have hs := landNow_eq u new
  rw [bundleEnd, hs]; rfl

theorem rbank_congr {s t : State} (c : Nat) (h : t.rd I.bank c = s.rd I.bank c) : rbank t c = rbank s c := by
  unfold rbank; rw [h]

theorem started_rd (s : State) (c : Nat) (g : Fld) (j : Nat) (h : I.qstall.id = g.id → c ≠ j) :
    (started s c).rd g j = s.rd g j := State.rd_wr_other s _ _ _ _ _ h

theorem arithNote_none (s : State) (b : Nat) (effs : List Eff) (hr : s.rd I.arith b = 0)
    (ho : (∀ a, Eff.overflow a ∉ effs) ∨ modeOVTRAP s b = false) : arithNote s b effs = s := by
  unfold arithNote
  rw [State.on_eq, hr]
  simp only [bne_self_eq_false, Bool.false_eq_true, if_false]
  rcases ho with ho | ho
  · split
    · next acc hacc =>
      obtain ⟨e, he, hv⟩ := List.exists_of_findSome?_eq_some hacc
      cases e <;> simp_all
    · rfl
  · split <;> simp [ho]

/-- The issue of a bundle of one syllable, by a core with nothing in flight. -/
theorem issue_one (s : State) (c : Nat) (x : Bundle) (hn : x.n = 1)
    (hf : inFlight (advance (effsNow c (started s c) (issueOrder c x.effs)).1 (rbank s c) 1 (bundleAct x.effs)) (rbank s c) = [])
    (ha : arithNote (advance (effsNow c (started s c) (issueOrder c x.effs)).1 (rbank s c) 1 (bundleAct x.effs))
      (rbank s c) x.effs = advance (effsNow c (started s c) (issueOrder c x.effs)).1 (rbank s c) 1 (bundleAct x.effs)) :
    issue s c x =
      arithDue (match bundleAct x.effs with
        | some a => actAfter (bundleEnd (advance (effsNow c (started s c) (issueOrder c x.effs)).1 (rbank s c) 1
            (bundleAct x.effs)) (rbank s c) (effsNow c (started s c) (issueOrder c x.effs)).2 (macOld s x.effs))
            c (s.rd I.pcb (rbank s c)) 1 a
        | none => bundleEnd (advance (effsNow c (started s c) (issueOrder c x.effs)).1 (rbank s c) 1 (bundleAct x.effs))
            (rbank s c) (effsNow c (started s c) (issueOrder c x.effs)).2 (macOld s x.effs)) c := by
  have hmac : macOld (started s c) x.effs = macOld s x.effs := by
    unfold macOld
    congr 1
    funext e
    have hac : ∀ i, (started s c).rd I.ac i = s.rd I.ac i := fun i => started_rd s c I.ac i (fun h => absurd h (by decide))
    cases e <;> simp [hac]
  unfold issue
  simp only [hn]
  change arithDue (match bundleAct x.effs with | some a => _ | none => _) c = _
  generalize hp : effsNow c (started s c) (issueOrder c x.effs) = p at *
  have hp' : effsNow c { s.wr I.qstall c 0 with bundles := Tbl.drop c s.bundles } (issueOrder c x.effs) = p := hp
  have hm' : macOld { s.wr I.qstall c 0 with bundles := Tbl.drop c s.bundles } x.effs = macOld s x.effs := hmac
  simp only [hp', hm', ha, landings_empty _ _ p.2 hf]
  rfl

/-! ## What control reads -/

theorem SameControl.trans {s t u : State} (h : SameControl s t) (k : SameControl t u) : SameControl s u :=
  fun g hg j => (k g hg j).trans (h g hg j)

theorem coreBit_congr {s t : State} (lo hi svc : Fld) (c : Nat) (h1 : t.rd lo = s.rd lo) (h2 : t.rd hi = s.rd hi)
    (h3 : t.rd svc = s.rd svc) : coreBit t lo hi svc c = coreBit s lo hi svc c := by
  simp [coreBit, h1, h2, h3]

theorem ready_awake {s : State} {c : Nat} (h : CoreReady s c) : CoreAwake s c :=
  ⟨h.1, h.2.1, h.2.2.1, h.2.2.2.1, h.2.2.2.2.1, h.2.2.2.2.2.1, h.2.2.2.2.2.2.1, h.2.2.2.2.2.2.2.2.2.1,
    h.2.2.2.2.2.2.2.2.2.2.1, h.2.2.2.2.2.2.2.2.2.2.2⟩

theorem wake_control : ∀ g ∈ wakeCells, g ∈ controlCells := by decide

theorem control_wake {s t : State} (h : SameControl s t) : SameWake s t := fun g hg j => h g (wake_control g hg) j

theorem boundary_awake {s u : State} {c : Nat} (h : CoreAwake s c) (k : SameWake s u) : boundary u c = u := by
  obtain ⟨h1, h2, h3, h4, h5, h6, h7, h10, h11, h12⟩ := h
  have e1 : stepping u c = false := by
    unfold stepping State.on at *
    rw [k F.MLS_DBG_STEP_GO (by simp [wakeCells]), k F.MLS_DBG_STEP_CORE (by simp [wakeCells])]; exact h4
  have e2 : haltReq u c = false := by
    unfold haltReq at *
    rw [coreBit_congr (s := s) _ _ _ _ (k F.MLS_DBG_HALT_LO_CORES (by simp [wakeCells]) 0)
      (k F.MLS_DBG_HALT_HI_CORES (by simp [wakeCells]) 0) (k F.MLS_DBG_HALT_SVC_CORES (by simp [wakeCells]) 0)]
    exact h3
  unfold boundary
  rw [e1]
  simp only [Bool.false_eq_true, if_false, e2]
  rw [if_neg]
  intro hc
  simp only [Bool.and_eq_true, Bool.not_eq_true', State.on] at hc
  rw [k I.cJob (by simp [wakeCells]), k I.jCancel (by simp [wakeCells])] at hc
  rcases h11 with h11 | h11
  · rw [h11] at hc; simp at hc
  · unfold State.on at h11; rw [h11] at hc; simp at hc

theorem arithDue_awake {s u : State} {c : Nat} (h : CoreAwake s c) (k : SameWake s u) : arithDue u c = u := by
  obtain ⟨-, -, -, -, -, -, -, h10, -, -⟩ := h
  unfold arithDue
  rw [rbank_congr c (k I.bank (by simp [wakeCells]) c), State.on_eq, k I.arith (by simp [wakeCells]), h10]
  simp

theorem boundary_calm {s u : State} {c : Nat} (h : CoreReady s c) (k : SameControl s u) : boundary u c = u :=
  boundary_awake (ready_awake h) (control_wake k)

theorem arithDue_calm {s u : State} {c : Nat} (h : CoreReady s c) (k : SameControl s u) : arithDue u c = u :=
  arithDue_awake (ready_awake h) (control_wake k)

/-! ## A syllable that ends its bundle -/

theorem fetched_same (s : State) (c : Nat) : SameButFetch s (fetched s c) := fetchLine_same s c _

/-- A bundle of one syllable, that ends it, of a core with nothing outstanding. -/
def oneOf (cls : Nat) (effs : List Eff) : Bundle := ⟨1, b2n (cls == 2), cls == 1, cls == 0, effs, [], false⟩

theorem syllable_awake {s : State} {c : Nat} (h : CoreAwake s c) (cls : Nat) (effs : List Eff)
    (hm : meetCauses (fetched s c) c effs = []) (hq : faultAddrs (fetched s c) c effs = [])
    (hw : effs.any (queueWaits (fetched s c)) = false) (hcls : cls ≤ 2)
    (hseq : seqCauses s (rbank s c) (bundleAct effs) = []) :
    syllable s c true cls .only effs [] = boundary (issue (fetched s c) c (oneOf cls effs)) c := by
  obtain ⟨h1, h2, h3, h4, h5, h6, h7, h10, h11, h12⟩ := h
  have hsame := fetched_same s c
  have hmay : mayIssue s c = true := by simp [mayIssue, h1, h2]
  have hfa : fetchAddr s c (s.rd I.pcb (rbank s c)) ≠ none := by
    intro hn; rw [hn] at h12; simp at h12
  have hmis : misplaced Bundle.empty cls = false := by
    obtain h | h | h : cls = 0 ∨ cls = 1 ∨ cls = 2 := by omega
    all_goals subst h; rfl
  have hadd : Bundle.add Bundle.empty s c true cls effs [] = oneOf cls effs := by
    have : (fetchAddr s c (s.rd I.pcb (rbank s c))).isNone = false := by
      cases hx : fetchAddr s c (s.rd I.pcb (rbank s c)) <;> simp_all
    simp only [Bundle.add, hmis]
    simp [Bundle.empty, oneOf, this, clsM, clsL, clsS]
  have hsyl : syllable s c true cls .only effs [] = closeBundle (fetched s c) c (oneOf cls effs) := by
    unfold syllable
    rw [h5]
    simp [hmay, hadd, fetched, pcOf, show Bundle.empty.closed = false from rfl, show Bundle.empty.n = 0 from rfl]
  rw [hsyl]
  unfold closeBundle
  have hb : rbank (fetched s c) c = rbank s c := rbank_congr c (hsame.rd _ _)
  have hseq' : seqCauses (fetched s c) (rbank (fetched s c) c) (bundleAct effs) = [] := by
    have hf : (fetched s c).freeCtr = s.freeCtr ∨ seqCauses s (rbank s c) (bundleAct effs) = [] := .inr hseq
    rw [hb]
    unfold seqCauses atLoopEnd loopActive State.on at hseq ⊢
    simp only [hsame.rd]
    simp only [] at hseq ⊢
    split at hseq
    · simp at hseq
    · rename_i hn
      rw [if_neg hn]
      split at hseq
      · simp at hseq
      · rename_i hn2
        rw [if_neg hn2]
  simp only [oneOf, hseq', hm, hq, hw, List.append_nil, firstCause]
  simp

theorem syllable_one {s : State} {c : Nat} (h : CoreReady s c) (cls : Nat) (effs : List Eff)
    (hm : meetCauses (fetched s c) c effs = []) (hq : faultAddrs (fetched s c) c effs = [])
    (hw : effs.any (queueWaits (fetched s c)) = false) (hcls : cls ≤ 2) :
    syllable s c true cls .only effs [] = boundary (issue (fetched s c) c (oneOf cls effs)) c :=
  syllable_awake (ready_awake h) cls effs hm hq hw hcls
    (seqCauses_none _ _ _ h.2.2.2.2.2.2.2.1 h.2.2.2.2.2.2.2.2.1)

/-! ## A syllable whose effects stay in the core -/

theorem newOf_fld (b : Nat) (effs : List Eff) (h : ∀ x ∈ effs, Quiet x) :
    ∀ l ∈ effs.flatMap (newOf b), l.fld ∈ resultCells := by
  intro l hl
  obtain ⟨x, hx, hlx⟩ := List.mem_flatMap.mp hl
  have := h x hx
  cases x <;> simp_all [Quiet, newOf, putLanding]
  · simp [resultCells]
  · simp [resultCells]

/-- The state after a bundle of one syllable whose effects stay in the core. -/
def afterQuiet (s : State) (c : Nat) (effs : List Eff) : State :=
  bundleEnd ((started (fetched s c) c).wr I.pcb (rbank s c) (pcOf s c + 4)) (rbank s c) (effs.flatMap (newOf (rbank s c)))
    (macOld (fetched s c) effs)

theorem afterQuiet_control (s : State) (c : Nat) (effs : List Eff) (hx : ∀ x ∈ effs, Quiet x) :
    SameControl s (afterQuiet s c effs) := by
  intro g hg j
  have ne : ∀ f ∈ bankCells, f.id ≠ g.id := fun f hf => bankCells_ne_controlCells f hf g hg
  unfold afterQuiet
  rw [bundleEnd_rd, State.rd_wr_cell _ _ _ _ _ _ (ne I.pcb (by simp [bankCells])), started_rd, (fetched_same s c).rd]
  · intro h; exact absurd h (ne I.qstall (by simp [bankCells]))
  · intro h; exact absurd h (ne I.cycle (by simp [bankCells]))
  · intro l hl _ he
    exact absurd he (ne l.fld (List.mem_append_left _ (newOf_fld _ _ hx l hl)))

theorem exec_quiet {s : State} {c : Nat} (h : CoreReady s c) (cls : Nat) (effs : List Eff) (hcls : cls ≤ 2)
    (hx : ∀ x ∈ effs, Quiet x)
    (ho : (∀ a, Eff.overflow a ∉ effs) ∨ bitOf (s.rd I.cmode (rbank s c)) 15 = false) :
    syllable s c true cls .only effs [] = afterQuiet s c effs := by
  have hsame := fetched_same s c
  have hb : rbank (fetched s c) c = rbank s c := rbank_congr c (hsame.rd _ _)
  have hb' : rbank (started (fetched s c) c) c = rbank s c :=
    (rbank_congr c (started_rd _ _ _ _ (fun h => absurd h (by decide)))).trans hb
  have hc := h
  obtain ⟨h1, h2, h3, h4, h5, h6, h7, h8, h9, h10, h11, h12⟩ := h
  rw [syllable_one hc cls effs (meetCauses_quiet _ _ _ hx) (faultAddrs_quiet _ _ _ hx) (queueWaits_quiet _ _ hx) hcls]
  have hrd : ∀ g j, I.qstall.id ≠ g.id → (started (fetched s c) c).rd g j = s.rd g j := fun g j hg => by
    rw [started_rd _ _ _ _ (fun h => absurd h hg), hsame.rd]
  have hadv : advance (started (fetched s c) c) (rbank s c) 1 none =
      (started (fetched s c) c).wr I.pcb (rbank s c) (pcOf s c + 4) := by
    rw [advance_plain _ _ _ ((hrd _ _ (by decide)).trans h8) ((hrd _ _ (by decide)).trans h9), hrd _ _ (by decide)]
    rfl
  have hland : inFlight ((started (fetched s c) c).wr I.pcb (rbank s c) (pcOf s c + 4)) (rbank s c) = [] := by
    have : inFlight (fetched s c) (rbank s c) = [] := by
      unfold SameButFetch at hsame; rw [hsame]; exact h6
    exact this
  have hnote : arithNote ((started (fetched s c) c).wr I.pcb (rbank s c) (pcOf s c + 4)) (rbank s c) effs =
      (started (fetched s c) c).wr I.pcb (rbank s c) (pcOf s c + 4) := by
    apply arithNote_none
    · rw [State.rd_wr_cell _ _ _ _ _ _ (by decide), hrd _ _ (by decide)]; exact h10
    · rcases ho with ho | ho
      · exact .inl ho
      · right
        simp only [modeOVTRAP, modeReg, State.cr, hland, List.filter_nil, List.map_nil, List.isEmpty_nil, if_true]
        rw [State.rd_wr_cell _ _ _ _ _ _ (by decide), hrd _ _ (by decide)]
        exact ho
  rw [issue_one _ c (oneOf cls effs) rfl
    (by rw [show (oneOf cls effs).effs = effs from rfl, issueOrder_quiet c _ hx, effsNow_quiet _ c _ hx, bundleAct_quiet _ hx, hb, hadv]; exact hland)
    (by rw [show (oneOf cls effs).effs = effs from rfl, issueOrder_quiet c _ hx, effsNow_quiet _ c _ hx, bundleAct_quiet _ hx, hb, hadv]; exact hnote)]
  simp only [oneOf, issueOrder_quiet c _ hx, effsNow_quiet _ c _ hx, bundleAct_quiet _ hx, hb, hb', hadv]
  have hctl := afterQuiet_control s c effs hx
  change boundary (arithDue (afterQuiet s c effs) c) c = _
  rw [arithDue_calm hc hctl, boundary_calm hc hctl]

/-! ## What a cell holds after results -/

/-- What instance j of a cell that held v holds after results, in their order. -/
def afterLandings (g : Fld) (j : Nat) : List Landing → Nat → Nat
  | [], v => v
  | l :: r, v => afterLandings g j r (if l.fld.id = g.id ∧ l.inst = j then l.into v % 2 ^ g.w else v)

theorem resultCells_id : ∀ f ∈ resultCells, ∀ g ∈ resultCells, f.id = g.id → f = g := by decide

theorem fold_land_rd (u : State) (ls : List Landing) (g : Fld) (j : Nat) (hg : g ∈ resultCells)
    (h : ∀ l ∈ ls, l.fld ∈ resultCells) : (ls.foldl land u).rd g j = afterLandings g j ls (u.rd g j) := by
  induction ls generalizing u with
  | nil => rfl
  | cons a r ih =>
    simp only [List.foldl_cons, afterLandings]
    rw [ih _ fun l hl => h l (by simp [hl])]
    congr 1
    by_cases hid : a.fld.id = g.id
    · have hf := resultCells_id _ (h a (by simp)) _ hg hid
      unfold land
      rw [hf, State.rd_wr]
      by_cases hj : a.inst = j <;> simp [hj]
    · simp only [hid, false_and, if_false]
      exact State.rd_wr_cell _ _ _ _ _ _ hid

theorem fold_land_other (u : State) (ls : List Landing) (g : Fld) (j : Nat)
    (h : ∀ l ∈ ls, l.fld.id = g.id → l.inst ≠ j) : (ls.foldl land u).rd g j = u.rd g j := by
  induction ls generalizing u with
  | nil => rfl
  | cons a r ih =>
    simp only [List.foldl_cons]
    rw [ih _ fun l hl => h l (by simp [hl])]
    exact State.rd_wr_other _ _ _ _ _ _ (h a (by simp))

/-- The order in which results in flight of a bank land at its end. -/
def landOrder (ls : List Landing) : List Landing :=
  let due := fun k : Nat => (ls.filter (·.left == k)).filter (·.mask.isNone) ++ (ls.filter (·.left == k)).filter (·.mask.isSome)
  due 1 ++ due 2 ++ due 3

theorem foldl_land_same (t : State) (ls : List Landing) : SameButCells t (ls.foldl land t) :=
  over_sameButCells t ls land fun _ _ => rfl

theorem inFlight_foldl_land (t : State) (ls : List Landing) (b : Nat) : inFlight (ls.foldl land t) b = inFlight t b := by
  have h := foldl_land_same t ls
  unfold SameButCells at h
  rw [h]; rfl

theorem landAll_eq (t : State) (b : Nat) : landAll t b =
    { (landOrder (inFlight t b)).foldl land t with
      landings := Tbl.drop b ((landOrder (inFlight t b)).foldl land t).landings
      macShadow := Tbl.drop b ((landOrder (inFlight t b)).foldl land t).macShadow } := by
  simp only [landAll, landDue, State.over, landOrder, List.foldl_cons, List.foldl_nil, List.foldl_append,
    inFlight_foldl_land]

theorem landOrder_mem {ls : List Landing} {l : Landing} (h : l ∈ landOrder ls) : l ∈ ls := by
  simp only [landOrder, List.mem_append, List.mem_filter] at h
  rcases h with ((h | h) | (h | h)) | (h | h) <;> exact h.1.1

theorem landAll_same (t : State) (b : Nat) : landAll t b =
    { t with cells := (landAll t b).cells, landings := Tbl.drop b t.landings, macShadow := Tbl.drop b t.macShadow } := by
  have h := foldl_land_same t (landOrder (inFlight t b))
  unfold SameButCells at h
  rw [landAll_eq, h]

theorem landAll_rd (t : State) (b : Nat) (g : Fld) (j : Nat) (hg : g ∈ resultCells)
    (h : ∀ l ∈ inFlight t b, l.fld ∈ resultCells) :
    (landAll t b).rd g j = afterLandings g j (landOrder (inFlight t b)) (t.rd g j) := by
  rw [landAll_eq]
  exact fold_land_rd t _ g j hg fun l hl => h l (landOrder_mem hl)

theorem landAll_other (t : State) (b : Nat) (g : Fld) (j : Nat)
    (h : ∀ l ∈ inFlight t b, l.fld.id = g.id → l.inst ≠ j) : (landAll t b).rd g j = t.rd g j := by
  rw [landAll_eq]
  exact fold_land_other t _ g j fun l hl => h l (landOrder_mem hl)

/-! ## The issue of a bundle of one syllable whose effects stay in the core -/

theorem afterQuiet_inFlight (s : State) (c : Nat) (effs : List Eff) :
    inFlight (afterQuiet s c effs) (rbank s c) = stay (effs.flatMap (newOf (rbank s c))) := bundleEnd_inFlight _ _ _ _

/-- The value of a register after a syllable whose effects stay in the core: its results of latency 1. -/
theorem afterQuiet_result (s : State) (c : Nat) (effs : List Eff) (hx : ∀ x ∈ effs, Quiet x) (g : Fld) (j : Nat)
    (hg : g ∈ resultCells) : (afterQuiet s c effs).rd g j =
      afterLandings g j ((effs.flatMap (newOf (rbank s c))).filter fun l => decide (l.left ≤ 1)) (s.rd g j) := by
  have hne := resultCells_ne_issue g hg
  unfold afterQuiet
  rw [bundleEnd_landed _ _ _ _ _ _ fun h => absurd h hne.2.1.symm]
  unfold landNow State.over
  rw [fold_land_rd _ _ _ _ hg fun l hl => newOf_fld _ _ hx l (List.mem_filter.mp hl).1,
    State.rd_wr_cell _ _ _ _ _ _ hne.1.symm, started_rd _ _ _ _ (fun h => absurd h hne.2.2.symm), (fetched_same s c).rd]

theorem afterQuiet_other (s : State) (c : Nat) (effs : List Eff) (g : Fld) (j : Nat)
    (h : ∀ l ∈ effs.flatMap (newOf (rbank s c)), l.left ≤ 1 → l.fld.id = g.id → l.inst ≠ j)
    (hp : I.pcb.id = g.id → rbank s c ≠ j) (hc : I.cycle.id = g.id → rbank s c ≠ j) (hq : I.qstall.id = g.id → c ≠ j) :
    (afterQuiet s c effs).rd g j = s.rd g j := by
  unfold afterQuiet
  rw [bundleEnd_rd _ _ _ _ _ _ hc h, State.rd_wr_other _ _ _ _ _ _ hp, started_rd _ _ _ _ hq, (fetched_same s c).rd]

theorem afterQuiet_pc (s : State) (c : Nat) (effs : List Eff) (hx : ∀ x ∈ effs, Quiet x) :
    pcOf (afterQuiet s c effs) c = (pcOf s c + 4) % 2 ^ 32 := by
  have hb : rbank (afterQuiet s c effs) c = rbank s c :=
    rbank_congr c (afterQuiet_control s c effs hx I.bank (by simp [controlCells]) c)
  unfold pcOf
  rw [hb]
  unfold afterQuiet
  rw [bundleEnd_rd, State.rd_wr_same]
  · rfl
  · intro h; exact absurd h (by decide)
  · intro l hl _ he
    exact absurd he (resultCells_ne_issue _ (newOf_fld _ _ hx l hl)).1

theorem afterQuiet_same (s : State) (c : Nat) (effs : List Eff) : afterQuiet s c effs = { s with
    cells := (afterQuiet s c effs).cells, iLines := (afterQuiet s c effs).iLines, tlbs := (afterQuiet s c effs).tlbs,
    freeCtr := (afterQuiet s c effs).freeCtr, bundles := Tbl.drop c s.bundles,
    landings := Tbl.put [] (rbank s c) (stay (effs.flatMap (newOf (rbank s c)))) s.landings,
    macShadow := Tbl.put [] (rbank s c) (macOld (fetched s c) effs) s.macShadow } := by
  have h := fetched_same s c
  unfold SameButFetch at h
  have h2 := bundleEnd_same ((started (fetched s c) c).wr I.pcb (rbank s c) (pcOf s c + 4)) (rbank s c)
    (effs.flatMap (newOf (rbank s c))) (macOld (fetched s c) effs)
  change afterQuiet s c effs = _ at h2
  generalize hm : macOld (fetched s c) effs = m at *
  generalize afterQuiet s c effs = t at *
  rw [h2, h]
  rfl

theorem issued_quiet (s : State) (c : Nat) (effs : List Eff) (hx : ∀ x ∈ effs, Quiet x) (now late : List (Fld × Nat))
    (hnow : ∀ l ∈ effs.flatMap (newOf (rbank s c)), l.left ≤ 1 → ∃ p ∈ now, p.1.id = l.fld.id ∧ p.2 = l.inst)
    (hlate : ∀ l ∈ effs.flatMap (newOf (rbank s c)), ∃ p ∈ now ++ late, p.1.id = l.fld.id ∧ p.2 = l.inst) :
    Issued s (afterQuiet s c effs) c now late := by
  have hb : rbank (afterQuiet s c effs) c = rbank s c :=
    rbank_congr c (afterQuiet_control s c effs hx I.bank (by simp [controlCells]) c)
  have hsame := afterQuiet_same s c effs
  have hother : SameCells s (afterQuiet s c effs) ([(I.pcb, rbank s c), (I.cycle, rbank s c), (I.qstall, c)] ++ now) := by
    intro g j hj
    apply afterQuiet_other
    · intro l hl h1 he hi
      obtain ⟨p, hp, e1, e2⟩ := hnow l hl h1
      exact hj p (by simp [hp]) (e1.trans he) (e2.trans hi)
    · exact fun h => hj (I.pcb, rbank s c) (by simp) h
    · exact fun h => hj (I.cycle, rbank s c) (by simp) h
    · exact fun h => hj (I.qstall, c) (by simp) h
  have hbun : ∀ (t : State), t.bundles = Tbl.drop c s.bundles → ∀ d, d ≠ c → bundleOf t d = bundleOf s d := by
    intro t ht d hd
    simp [bundleOf, ht, Tbl.get_drop, Ne.symm hd]
  have hfields : (afterQuiet s c effs).bundles = Tbl.drop c s.bundles ∧
      (afterQuiet s c effs).landings = Tbl.put [] (rbank s c) (stay (effs.flatMap (newOf (rbank s c)))) s.landings :=
    ⟨by rw [hsame], by rw [hsame]⟩
  have hall := landAll_same (afterQuiet s c effs) (rbank s c)
  refine ⟨afterQuiet_pc s c effs hx, ?_, ⟨?_, hbun _ hfields.1, ?_, hother⟩, ?_, ?_, ?_, ?_⟩
  · simp [bundleOf, hfields.1, Tbl.get_drop]
  · unfold SameButCode
    generalize afterQuiet s c effs = t at *
    rw [hsame]
  · intro b hbn
    simp [inFlight, hfields.2, Tbl.get_put_ne, Ne.symm hbn]
  · unfold SameButCode settled
    rw [hb]
    generalize landAll (afterQuiet s c effs) (rbank s c) = u at *
    generalize afterQuiet s c effs = t at *
    rw [hall, hsame]
  · apply hbun
    unfold settled
    rw [hb, hall]
    exact hfields.1
  · intro b hbn
    unfold settled
    rw [hb, hall]
    simp [inFlight, hfields.2, Tbl.get_put_ne, Tbl.get_drop, Ne.symm hbn]
  · intro g j hj
    unfold settled
    rw [hb, landAll_other, hother g j fun p hp => hj p (by simp at hp ⊢; grind)]
    intro l hl he hi
    rw [afterQuiet_inFlight] at hl
    simp only [stay, List.mem_map, List.mem_filter] at hl
    obtain ⟨m, ⟨hm, -⟩, rfl⟩ := hl
    obtain ⟨p, hp, e1, e2⟩ := hlate m hm
    exact hj p (by simp at hp ⊢; grind) (e1.trans he) (e2.trans hi)


/-! ## Accesses and acts -/

theorem advance_other (s : State) (b n : Nat) (a : Act) (h : a.isBranch = false) (ha : s.rd I.act b = 0)
    (hd : s.rd I.dly b = 0) : advance s b n (some a) = s.wr I.pcb b (s.rd I.pcb b + 4 * n) := by
  have := advance_plain s b n ha hd
  cases a <;> simp_all [advance, Act.isBranch]

theorem advance_branch (s : State) (b n : Nat) (taken relative : Bool) (target : Int) (ha : s.rd I.act b = 0)
    (hd : s.rd I.dly b = 0) : advance s b n (some (.branch taken relative target)) =
      (((s.wr I.pcb b (s.rd I.pcb b + 4 * n)).wr I.dly b 2).wr I.btaken b (b2n taken)).wr I.btgt b
        (ofInt 32 (if relative then (s.rd I.pcb b + 4 * (n - 1 : Nat) + target : Int) else target)) := by
  have := advance_plain s b n ha hd
  simp only [advance] at *
  rw [this]

theorem begun_rd (s : State) (c : Nat) (g : Fld) (j : Nat) (h : I.qstall.id = g.id → c ≠ j) :
    (begun s c).rd g j = s.rd g j := by
  unfold begun; rw [started_rd _ _ _ _ h, (fetched_same s c).rd]

theorem begun_inFlight (s : State) (c b : Nat) : inFlight (begun s c) b = inFlight s b := by
  have h := fetched_same s c
  unfold SameButFetch at h
  unfold begun; rw [h]; rfl

theorem begun_keeps {s : State} {c : Nat} (h : CoreReady s c) : KeepsCore s (begun s c) c := by
  refine ⟨fun g hg j => begun_rd s c g j fun he => ?_, begun_rd s c _ _ fun he => absurd he (by decide), ?_, ?_⟩
  · exact absurd he (bankCells_ne_controlCells I.qstall (by simp [bankCells]) g hg)
  · rw [begun_inFlight]; exact h.2.2.2.2.2.1
  · simp [begun, started, bundleOf, Tbl.get_drop]

/-! ## Advancing the PC changes cells alone, and of those the PC and the state of loops and delay bundles -/

/-- The cells that advancing the PC of a bank may write. -/
def flowCells : List Fld := [I.pcb, I.act, I.lc, I.rrb, I.dly, I.btaken, I.btgt]

/-- Two states agree but for the cells of the flow of control. -/
def SameButFlow (s t : State) : Prop :=
  t = { s with cells := t.cells } ∧ ∀ g, (∀ f ∈ flowCells, f.id ≠ g.id) → ∀ j, t.rd g j = s.rd g j

theorem flow_refl (s : State) : SameButFlow s s := ⟨rfl, fun _ _ _ => rfl⟩

theorem flow_trans {s t u : State} (h : SameButFlow s t) (k : SameButFlow t u) : SameButFlow s u :=
  ⟨SameButCells.trans h.1 k.1, fun g hg j => (k.2 g hg j).trans (h.2 g hg j)⟩

theorem flow_wr (s : State) (f : Fld) (i v : Nat) (hf : f ∈ flowCells) : SameButFlow s (s.wr f i v) :=
  ⟨rfl, fun g hg j => State.rd_wr_cell _ _ _ _ _ _ (hg f hf)⟩

theorem loopEnd_flow (s : State) (b n : Nat) : SameButFlow s (loopEnd s b n).1 := by
  have hr : SameButFlow s (rotate s b n) := by
    unfold rotate
    split
    · exact flow_wr _ _ _ _ (by decide)
    · exact flow_refl s
  unfold loopEnd
  split
  · dsimp only
    split
    · exact flow_trans hr (flow_trans (flow_wr _ _ _ _ (by decide)) (flow_wr _ _ _ _ (by decide)))
    · exact flow_trans hr (flow_trans (flow_wr _ _ _ _ (by decide)) (flow_wr _ _ _ _ (by decide)))
  · exact flow_refl s

theorem loopEnds_flow (s : State) (b next : Nat) : SameButFlow s (loopEnds s b next) := by
  unfold loopEnds
  dsimp only
  split
  · split
    · exact flow_trans (flow_trans (loopEnd_flow s b 1) (loopEnd_flow _ b 0)) (flow_wr _ _ _ _ (by decide))
    · exact flow_trans (loopEnd_flow s b 1) (loopEnd_flow _ b 0)
  · exact loopEnd_flow s b 1

theorem takeBranch_flow (s : State) (b : Nat) : SameButFlow s (takeBranch s b) := by
  have h0 : SameButFlow s ((s.wr I.pcb b (s.rd I.btgt b / 4 * 4)).wr I.btaken b 0) :=
    flow_trans (flow_wr _ _ _ _ (by decide)) (flow_wr _ _ _ _ (by decide))
  unfold takeBranch
  dsimp only
  split
  · exact flow_trans h0 (flow_wr _ _ _ _ (by decide))
  · split
    · exact flow_trans h0 (flow_wr _ _ _ _ (by decide))
    · exact h0

theorem advance_flow (s : State) (b n : Nat) (act : Option Act) : SameButFlow s (advance s b n act) := by
  have h1 := loopEnds_flow s b (s.rd I.pcb b + 4 * n)
  have h2 : ∀ u, SameButFlow u (if u.on I.dly b then
      (if !(u.wr I.dly b (u.rd I.dly b - 1)).on I.dly b && (u.wr I.dly b (u.rd I.dly b - 1)).on I.btaken b then
        takeBranch (u.wr I.dly b (u.rd I.dly b - 1)) b else u.wr I.dly b (u.rd I.dly b - 1)) else u) := by
    intro u
    split
    · have h0 : SameButFlow u (u.wr I.dly b (u.rd I.dly b - 1)) := flow_wr _ _ _ _ (by decide)
      split
      · exact flow_trans h0 (takeBranch_flow _ b)
      · exact h0
    · exact flow_refl u
  have h3 := flow_trans h1 (h2 _)
  unfold advance
  dsimp only
  split
  · exact flow_trans h3 (flow_trans (flow_wr _ _ _ _ (by decide)) (flow_trans (flow_wr _ _ _ _ (by decide)) (flow_wr _ _ _ _ (by decide))))
  · exact h3

/-- A syllable in a bundle of its own, of a core at a boundary: what issues, up to the act and the boundary. -/
theorem awake_issue {s : State} {c : Nat} (h : CoreAwake s c) (cls : Nat) (effs : List Eff) (hcls : cls ≤ 2)
    (hseq : seqCauses s (rbank s c) (bundleAct effs) = [])
    (hm : meetCauses (fetched s c) c effs = []) (hq : faultAddrs (fetched s c) c effs = [])
    (hw : effs.any (queueWaits (fetched s c)) = false) (ho : ∀ a, Eff.overflow a ∉ effs) {u : State} {new : List Landing}
    (hp : effsNow c (begun s c) (issueOrder c effs) = (u, new)) (hfl : inFlight u (rbank s c) = [])
    (harith : u.rd I.arith (rbank s c) = 0) :
    syllable s c true cls .only effs [] =
      boundary (arithDue (match bundleAct effs with
        | some a => actAfter (bundleEnd (advance u (rbank s c) 1 (bundleAct effs)) (rbank s c) new
            (macOld (fetched s c) effs)) c (pcOf s c) 1 a
        | none => bundleEnd (advance u (rbank s c) 1 (bundleAct effs)) (rbank s c) new (macOld (fetched s c) effs)) c) c := by
  have hsame := fetched_same s c
  have hb : rbank (fetched s c) c = rbank s c := rbank_congr c (hsame.rd _ _)
  have hadv : inFlight (advance u (rbank s c) 1 (bundleAct effs)) (rbank s c) = [] ∧
      (advance u (rbank s c) 1 (bundleAct effs)).rd I.arith (rbank s c) = 0 := by
    obtain ⟨h1, h2⟩ := advance_flow u (rbank s c) 1 (bundleAct effs)
    constructor
    · rw [h1]; exact hfl
    · rw [h2 _ (by decide)]; exact harith
  rw [syllable_awake h cls effs hm hq hw hcls hseq]
  have hp' : effsNow c (started (fetched s c) c) (issueOrder c effs) = (u, new) := hp
  rw [issue_one _ c (oneOf cls effs) rfl (by rw [show (oneOf cls effs).effs = effs from rfl, hp', hb]; exact hadv.1)
    (by
      rw [show (oneOf cls effs).effs = effs from rfl, hp', hb]
      exact arithNote_none _ _ _ hadv.2 (.inl ho))]
  have hpcf : (fetched s c).rd I.pcb (rbank s c) = pcOf s c := hsame.rd _ _
  simp only [show (oneOf cls effs).effs = effs from rfl, hp', hb, hpcf]

/-- The same, of a core that is ready. -/
theorem syllable_issue {s : State} {c : Nat} (h : CoreReady s c) (cls : Nat) (effs : List Eff) (hcls : cls ≤ 2)
    (hm : meetCauses (fetched s c) c effs = []) (hq : faultAddrs (fetched s c) c effs = [])
    (hw : effs.any (queueWaits (fetched s c)) = false) (ho : ∀ a, Eff.overflow a ∉ effs) {u : State} {new : List Landing}
    (hp : effsNow c (begun s c) (issueOrder c effs) = (u, new)) (hk : KeepsCore s u c) :
    syllable s c true cls .only effs [] =
      boundary (arithDue (match bundleAct effs with
        | some a => actAfter (bundleEnd (advance u (rbank s c) 1 (bundleAct effs)) (rbank s c) new
            (macOld (fetched s c) effs)) c (pcOf s c) 1 a
        | none => bundleEnd (advance u (rbank s c) 1 (bundleAct effs)) (rbank s c) new (macOld (fetched s c) effs)) c) c :=
  awake_issue (ready_awake h) cls effs hcls (seqCauses_none _ _ _ h.2.2.2.2.2.2.2.1 h.2.2.2.2.2.2.2.2.1) hm hq hw ho hp hk.2.2.1
    ((hk.1 _ (by simp [controlCells]) _).trans h.2.2.2.2.2.2.2.2.2.1)

/-- The end of a bundle whose accesses left the state u. -/
def afterAccess (s u : State) (c : Nat) (new : List Landing) (shadow : List (Nat × Nat)) : State :=
  bundleEnd (u.wr I.pcb (rbank s c) (pcOf s c + 4)) (rbank s c) new shadow

theorem afterAccess_inFlight (s u : State) (c : Nat) (new : List Landing) (shadow : List (Nat × Nat)) :
    inFlight (afterAccess s u c new shadow) (rbank s c) = stay new := bundleEnd_inFlight _ _ _ _

theorem afterAccess_other (s u : State) (c : Nat) (new : List Landing) (shadow : List (Nat × Nat)) (g : Fld) (j : Nat)
    (h : ∀ l ∈ new, l.left ≤ 1 → l.fld.id = g.id → l.inst ≠ j) (hp : I.pcb.id = g.id → rbank s c ≠ j)
    (hc : I.cycle.id = g.id → rbank s c ≠ j) : (afterAccess s u c new shadow).rd g j = u.rd g j := by
  unfold afterAccess
  rw [bundleEnd_rd _ _ _ _ _ _ hc h, State.rd_wr_other _ _ _ _ _ _ hp]

theorem afterAccess_result (s u : State) (c : Nat) (new : List Landing) (shadow : List (Nat × Nat)) (g : Fld) (j : Nat)
    (hg : g ∈ resultCells) (hl : ∀ l ∈ new, l.fld ∈ resultCells) : (afterAccess s u c new shadow).rd g j =
      afterLandings g j (new.filter fun l => decide (l.left ≤ 1)) (u.rd g j) := by
  have hne := resultCells_ne_issue g hg
  unfold afterAccess
  rw [bundleEnd_landed _ _ _ _ _ _ fun h => absurd h hne.2.1.symm]
  unfold landNow State.over
  rw [fold_land_rd _ _ _ _ hg fun l hh => hl l (List.mem_filter.mp hh).1, State.rd_wr_cell _ _ _ _ _ _ hne.1.symm]

theorem afterAccess_control {s u : State} {c : Nat} (hk : SameControl s u) (new : List Landing) (shadow : List (Nat × Nat))
    (hl : ∀ l ∈ new, l.fld ∈ resultCells) : SameControl s (afterAccess s u c new shadow) := by
  intro g hg j
  have ne : ∀ f ∈ bankCells, f.id ≠ g.id := fun f hf => bankCells_ne_controlCells f hf g hg
  rw [afterAccess_other, hk g hg j]
  · intro l hh _ he; exact absurd he (ne _ (List.mem_append_left _ (hl l hh)))
  · intro h; exact absurd h (ne I.pcb (by simp [bankCells]))
  · intro h; exact absurd h (ne I.cycle (by simp [bankCells]))

/-- A syllable of accesses without an act, in a bundle of its own. -/
theorem exec_access {s : State} {c : Nat} (h : CoreReady s c) (cls : Nat) (effs : List Eff) (hcls : cls ≤ 2)
    (hm : meetCauses (fetched s c) c effs = []) (hq : faultAddrs (fetched s c) c effs = [])
    (hw : effs.any (queueWaits (fetched s c)) = false) (ho : ∀ a, Eff.overflow a ∉ effs) (ha : bundleAct effs = none)
    {u : State} {new : List Landing} (hp : effsNow c (begun s c) (issueOrder c effs) = (u, new)) (hk : KeepsCore s u c)
    (hl : ∀ l ∈ new, l.fld ∈ resultCells) :
    syllable s c true cls .only effs [] = afterAccess s u c new (macOld (fetched s c) effs) := by
  have hk' := hk
  obtain ⟨hctl, hpc, hfl, hbu⟩ := hk
  have hact : u.rd I.act (rbank s c) = 0 := (hctl _ (by simp [controlCells]) _).trans h.2.2.2.2.2.2.2.1
  have hdly : u.rd I.dly (rbank s c) = 0 := (hctl _ (by simp [controlCells]) _).trans h.2.2.2.2.2.2.2.2.1
  rw [syllable_issue h cls effs hcls hm hq hw ho hp hk', ha]
  simp only [advance_plain _ _ _ hact hdly, hpc]
  have hc := afterAccess_control (c := c) hctl new (macOld (fetched s c) effs) hl
  change boundary (arithDue (afterAccess s u c new (macOld (fetched s c) effs)) c) c = _
  rw [arithDue_calm h hc, boundary_calm h hc]

/-- The frame of such a syllable. -/
theorem issued_access {s u : State} {c : Nat} (hk : KeepsCore s u c) (new : List Landing) (shadow : List (Nat × Nat))
    (hl : ∀ l ∈ new, l.fld ∈ resultCells) (now late : List (Fld × Nat))
    (hnow : ∀ l ∈ new, l.left ≤ 1 → ∃ p ∈ now, p.1.id = l.fld.id ∧ p.2 = l.inst)
    (hlate : ∀ l ∈ new, ∃ p ∈ now ++ late, p.1.id = l.fld.id ∧ p.2 = l.inst) :
    IssuedAfter s u (afterAccess s u c new shadow) c now late := by
  obtain ⟨hctl, hpc, hfl, hbu⟩ := hk
  have hbu' : rbank u c = rbank s c := rbank_congr c (hctl I.bank (by simp [controlCells]) c)
  have hb : rbank (afterAccess s u c new shadow) c = rbank s c :=
    rbank_congr c (afterAccess_control hctl new shadow hl I.bank (by simp [controlCells]) c)
  have hsame : afterAccess s u c new shadow = { u with
      cells := (afterAccess s u c new shadow).cells, landings := Tbl.put [] (rbank s c) (stay new) u.landings,
      macShadow := Tbl.put [] (rbank s c) shadow u.macShadow, freeCtr := u.freeCtr + 1 } := bundleEnd_same _ _ _ _
  have hother : SameCells u (afterAccess s u c new shadow) ([(I.pcb, rbank u c), (I.cycle, rbank u c), (I.qstall, c)] ++ now) := by
    intro g j hj
    rw [hbu'] at hj
    apply afterAccess_other
    · intro l hll h1 he hi
      obtain ⟨p, hp, e1, e2⟩ := hnow l hll h1
      exact hj p (by simp [hp]) (e1.trans he) (e2.trans hi)
    · exact fun h => hj (I.pcb, rbank s c) (by simp) h
    · exact fun h => hj (I.cycle, rbank s c) (by simp) h
  have hfields : (afterAccess s u c new shadow).bundles = u.bundles ∧
      (afterAccess s u c new shadow).landings = Tbl.put [] (rbank s c) (stay new) u.landings :=
    ⟨by rw [hsame], by rw [hsame]⟩
  have hall := landAll_same (afterAccess s u c new shadow) (rbank s c)
  refine ⟨?_, ?_, ⟨?_, fun d _ => by simp [bundleOf, hfields.1], ?_, hother⟩, ?_, ?_, ?_, ?_⟩
  · unfold pcOf
    rw [hb]
    unfold afterAccess
    rw [bundleEnd_rd, State.rd_wr_same]
    · rfl
    · intro h; exact absurd h (by decide)
    · intro l hll _ he
      exact absurd he (resultCells_ne_issue _ (hl l hll)).1
  · simp only [bundleOf, hfields.1]; exact hbu
  · unfold SameButCode
    generalize afterAccess s u c new shadow = t at *
    rw [hsame]
  · intro b hbn
    rw [hbu'] at hbn
    simp [inFlight, hfields.2, Tbl.get_put_ne, Ne.symm hbn]
  · unfold SameButCode settled
    rw [hb]
    generalize landAll (afterAccess s u c new shadow) (rbank s c) = v at *
    generalize afterAccess s u c new shadow = t at *
    rw [hall, hsame]
  · intro d _
    unfold settled
    rw [hb, hall]
    simp [bundleOf, hfields.1]
  · intro b hbn
    rw [hbu'] at hbn
    unfold settled
    rw [hb, hall]
    simp [inFlight, hfields.2, Tbl.get_put_ne, Tbl.get_drop, Ne.symm hbn]
  · intro g j hj
    unfold settled
    rw [hb, landAll_other, hother g j fun p hp => hj p (by simp at hp ⊢; grind)]
    intro l hll he hi
    rw [afterAccess_inFlight] at hll
    simp only [stay, List.mem_map, List.mem_filter] at hll
    obtain ⟨m, ⟨hm, -⟩, rfl⟩ := hll
    obtain ⟨p, hp, e1, e2⟩ := hlate m hm
    exact hj p (by simp at hp ⊢; grind) (e1.trans he) (e2.trans hi)

/-- A cell after the results of such a syllable have landed. -/
theorem settled_access {s u : State} {c : Nat} (hk : KeepsCore s u c) (new : List Landing) (shadow : List (Nat × Nat))
    (hl : ∀ l ∈ new, l.fld ∈ resultCells) (g : Fld) (j : Nat) (hg : g ∈ resultCells) :
    (settled (afterAccess s u c new shadow) c).rd g j = afterLandings g j (landOrder (stay new))
      (afterLandings g j (new.filter fun l => decide (l.left ≤ 1)) (u.rd g j)) := by
  have hb : rbank (afterAccess s u c new shadow) c = rbank s c :=
    rbank_congr c (afterAccess_control hk.1 new shadow hl I.bank (by simp [controlCells]) c)
  unfold settled
  rw [hb, landAll_rd _ _ _ _ hg, afterAccess_inFlight, afterAccess_result s u c new shadow g j hg hl]
  intro l hh
  rw [afterAccess_inFlight] at hh
  simp only [stay, List.mem_map, List.mem_filter] at hh
  obtain ⟨m, ⟨hm, -⟩, rfl⟩ := hh
  exact hl m hm

theorem settled_access_still {s u : State} {c : Nat} (hk : KeepsCore s u c) (new : List Landing) (shadow : List (Nat × Nat))
    (hl : ∀ l ∈ new, l.fld ∈ resultCells) : inFlight (settled (afterAccess s u c new shadow) c) (rbank s c) = [] := by
  have hb : rbank (afterAccess s u c new shadow) c = rbank s c :=
    rbank_congr c (afterAccess_control hk.1 new shadow hl I.bank (by simp [controlCells]) c)
  rw [settled, hb, landAll_same]
  simp [inFlight, Tbl.get_drop]

/-! ## Frames of bundles with acts -/

theorem begun_fields (s : State) (c : Nat) : SameButCode s (begun s c) ∧ (begun s c).bundles = Tbl.drop c s.bundles ∧
    (begun s c).landings = s.landings ∧ SameCells s (begun s c) [(I.qstall, c)] := by
  have h := fetched_same s c
  unfold SameButFetch at h
  refine ⟨?_, ?_, ?_, fun g j hj => begun_rd s c g j (hj (I.qstall, c) (by simp))⟩
  · unfold SameButCode begun started
    rw [h]; rfl
  · unfold begun started; rw [h]
  · unfold begun started; rw [h]; rfl

/-- The frame of the end of a bundle: w is the state as the bundle ends, whose cells `now` alone differ. -/
theorem framed_end {s w : State} {c : Nat} (h1 : SameButCode s w) (h2 : w.bundles = Tbl.drop c s.bundles)
    (h3 : w.landings = s.landings) (now late : List (Fld × Nat)) (new : List Landing) (shadow : List (Nat × Nat))
    (h4 : SameCells s w ([(I.pcb, rbank s c), (I.cycle, rbank s c), (I.qstall, c)] ++ now))
    (hb : ∀ p ∈ now, p.1.id ≠ I.bank.id) (hl : ∀ l ∈ new, l.fld ∈ resultCells)
    (hnow : ∀ l ∈ new, l.left ≤ 1 → ∃ p ∈ now, p.1.id = l.fld.id ∧ p.2 = l.inst)
    (hlate : ∀ l ∈ new, ∃ p ∈ now ++ late, p.1.id = l.fld.id ∧ p.2 = l.inst) :
    Framed s (bundleEnd w (rbank s c) new shadow) c now late := by
  have hsame := bundleEnd_same w (rbank s c) new shadow
  have hcells : SameCells s (bundleEnd w (rbank s c) new shadow) ([(I.pcb, rbank s c), (I.cycle, rbank s c), (I.qstall, c)] ++ now) := by
    intro g j hj
    rw [bundleEnd_rd, h4 g j hj]
    · exact fun h => hj (I.cycle, rbank s c) (by simp) h
    · intro l hll h1 he hi
      obtain ⟨p, hp, e1, e2⟩ := hnow l hll h1
      exact hj p (by simp [hp]) (e1.trans he) (e2.trans hi)
  have hbank : rbank (bundleEnd w (rbank s c) new shadow) c = rbank s c := by
    apply rbank_congr
    apply hcells
    intro p hp he
    simp only [List.cons_append, List.nil_append, List.mem_cons] at hp
    rcases hp with rfl | rfl | rfl | hp
    · exact absurd he (show I.pcb.id ≠ I.bank.id by decide)
    · exact absurd he (show I.cycle.id ≠ I.bank.id by decide)
    · exact absurd he (show I.qstall.id ≠ I.bank.id by decide)
    · exact absurd he (hb p hp)
  have hfields : (bundleEnd w (rbank s c) new shadow).bundles = Tbl.drop c s.bundles ∧
      (bundleEnd w (rbank s c) new shadow).landings = Tbl.put [] (rbank s c) (stay new) s.landings :=
    ⟨by rw [hsame]; exact h2, by rw [hsame, h3]⟩
  have hall := landAll_same (bundleEnd w (rbank s c) new shadow) (rbank s c)
  have hcode : SameButCode s (bundleEnd w (rbank s c) new shadow) := by
    unfold SameButCode at h1 ⊢
    generalize bundleEnd w (rbank s c) new shadow = t at *
    rw [hsame, h1]
  refine ⟨by simp [bundleOf, hfields.1, Tbl.get_drop], ⟨hcode, ?_, ?_, hcells⟩, ?_, ?_, ?_, ?_⟩
  · intro d hd
    simp [bundleOf, hfields.1, Tbl.get_drop, Ne.symm hd]
  · intro b hbn
    simp [inFlight, hfields.2, Tbl.get_put_ne, Ne.symm hbn]
  · unfold SameButCode settled at *
    rw [hbank]
    generalize landAll (bundleEnd w (rbank s c) new shadow) (rbank s c) = u at *
    generalize bundleEnd w (rbank s c) new shadow = t at *
    rw [hall, hcode]
  · intro d hd
    unfold settled
    rw [hbank, hall]
    simp [bundleOf, hfields.1, Tbl.get_drop, Ne.symm hd]
  · intro b hbn
    unfold settled
    rw [hbank, hall]
    simp [inFlight, hfields.2, Tbl.get_put_ne, Tbl.get_drop, Ne.symm hbn]
  · intro g j hj
    unfold settled
    rw [hbank, landAll_other, hcells g j fun p hp => hj p (by simp at hp ⊢; grind)]
    intro l hll he hi
    rw [bundleEnd_inFlight] at hll
    simp only [stay, List.mem_map, List.mem_filter] at hll
    obtain ⟨m, ⟨hm, -⟩, rfl⟩ := hll
    obtain ⟨p, hp, e1, e2⟩ := hlate m hm
    exact hj p (by simp at hp ⊢; grind) (e1.trans he) (e2.trans hi)

end Sys2Proof.Machine
end

