-- ==== Sys2Proof/Laws/Result.lean ====
section
/-! SUPPORT.  What the results of a syllable leave in registers and flags: one law for every instruction that
writes a register of an SR or SI form and flags. -/

namespace Sys2Proof.Machine

open Sys2Proof.Safety

theorem quiet_putCells (cells : List (Fld × Nat)) (v lat : Nat) (h : ∀ p ∈ cells, p.1 ∈ resultCells) :
    ∀ x ∈ putCells cells v lat, Quiet x := by
  induction cells generalizing v with
  | nil => simp [putCells]
  | cons p r ih =>
    obtain ⟨f, i⟩ := p
    intro x hx
    simp only [putCells, List.mem_cons] at hx
    rcases hx with rfl | hx
    · exact h (f, i) (by simp)
    · exact ih (v / 2 ^ f.w) (fun q hq => h q (by simp [hq])) x hx

theorem wordCells_fld (s : State) (b r : Nat) : ∀ p ∈ wordCells s b r, p.1 ∈ resultCells := by
  unfold wordCells
  split <;> simp [resultCells]

theorem quiet_putSz (s : State) (b : Nat) (sz : Bool) (r v : Nat) : ∀ x ∈ putSz s b sz r v, Quiet x := by
  unfold putSz
  split
  · exact quiet_putCells _ _ _ (wordCells_fld s b r)
  · simp [putD, Quiet, resultCells]

theorem quiet_putFlag (f : Fld) (b lat : Nat) (v : Option Bool) (h : f ∈ resultCells) : ∀ x ∈ putFlag f b lat v, Quiet x := by
  cases v <;> simp [putFlag, Quiet, h]

theorem quiet_putFlags (b lat : Nat) (fs : FlagSet) : ∀ x ∈ putFlags b lat fs, Quiet x := by
  intro x hx
  simp only [putFlags, List.mem_append] at hx
  rcases hx with ((h | h) | h) | h
  all_goals exact quiet_putFlag _ _ _ _ (by simp [resultCells]) x h

theorem physD_inj (s : State) (b : Nat) {k l : Nat} (hk : k < 32) (hl : l < 32) :
    physD s b k = physD s b l ↔ k = l := by
  unfold physD
  constructor
  · intro h
    split at h <;> split at h <;> omega
  · rintro rfl; rfl

/-- The landings of results spread over cells. -/
theorem new_putCells (b : Nat) (cells : List (Fld × Nat)) (v lat : Nat) :
    (putCells cells v lat).flatMap (newOf b) = spreadOver cells v lat := by
  induction cells generalizing v with
  | nil => rfl
  | cons p r ih =>
    obtain ⟨f, i⟩ := p
    simp [putCells, spreadOver, newOf, ih]

/-! ## Reading a bank with nothing in flight -/

theorem cr_still {t : State} {b : Nat} (h : inFlight t b = []) (f : Fld) (i : Nat) : t.cr b f i = t.rd f i := by
  simp [State.cr, h]

theorem physD_still {s t : State} {b : Nat} (hs : inFlight s b = []) (ht : inFlight t b = [])
    (h : t.rd I.rrb b = s.rd I.rrb b) (k : Nat) : physD t b k = physD s b k := by
  unfold physD
  rw [cr_still hs, cr_still ht, h]

/-- The cells a set of flags takes. -/
def FlagSet.cells (b : Nat) (fs : FlagSet) : List (Fld × Nat) :=
  (fs.z.toList.map fun _ => (I.flZ, b)) ++ (fs.n.toList.map fun _ => (I.flN, b)) ++ (fs.c.toList.map fun _ => (I.flC, b)) ++
    (fs.v.toList.map fun _ => (I.flV, b))

/-- A flag after an operation. -/
def flagAfter (old : Nat) : Option Bool → Nat
  | some v => b2n v
  | none => old

theorem new_putFlags (b b' lat : Nat) (fs : FlagSet) : (putFlags b lat fs).flatMap (newOf b') =
    (fs.z.toList.map fun v => putLanding I.flZ b (b2n v) lat) ++ (fs.n.toList.map fun v => putLanding I.flN b (b2n v) lat) ++
    (fs.c.toList.map fun v => putLanding I.flC b (b2n v) lat) ++ (fs.v.toList.map fun v => putLanding I.flV b (b2n v) lat) := by
  obtain ⟨z, n, c, v⟩ := fs
  cases z <;> cases n <;> cases c <;> cases v <;> rfl

theorem afterLandings_append (g : Fld) (j : Nat) (l r : List Landing) (v : Nat) :
    afterLandings g j (l ++ r) v = afterLandings g j r (afterLandings g j l v) := by
  induction l generalizing v with
  | nil => rfl
  | cons a l ih => simp [afterLandings, ih]

theorem afterLandings_none (g : Fld) (j : Nat) (l : List Landing) (v : Nat) (h : ∀ x ∈ l, x.fld.id = g.id → x.inst ≠ j) :
    afterLandings g j l v = v := by
  induction l generalizing v with
  | nil => rfl
  | cons a l ih =>
    simp only [afterLandings]
    rw [if_neg fun hc => h a (by simp) hc.1 hc.2]
    exact ih v fun x hx => h x (by simp [hx])

theorem b2n_lt (v : Bool) : b2n v % 2 = b2n v := by cases v <;> rfl

theorem afterLandings_flags (b lat : Nat) (fs : FlagSet) (b' : Nat) (oz on oc ov : Nat) :
    afterLandings I.flZ b ((putFlags b lat fs).flatMap (newOf b')) oz = flagAfter oz fs.z ∧
    afterLandings I.flN b ((putFlags b lat fs).flatMap (newOf b')) on = flagAfter on fs.n ∧
    afterLandings I.flC b ((putFlags b lat fs).flatMap (newOf b')) oc = flagAfter oc fs.c ∧
    afterLandings I.flV b ((putFlags b lat fs).flatMap (newOf b')) ov = flagAfter ov fs.v := by
  rw [new_putFlags]
  obtain ⟨z, n, c, v⟩ := fs
  refine ⟨?_, ?_, ?_, ?_⟩ <;> cases z <;> cases n <;> cases c <;> cases v <;>
    simp [afterLandings, putLanding, Landing.into, flagAfter, I.flZ, I.flN, I.flC, I.flV, b2n_lt]

theorem new_putSz (s : State) (b b' : Nat) (sz : Bool) (r v : Nat) : (putSz s b sz r v).flatMap (newOf b') =
    if sz then spreadOver (wordCells s b r) v 1 else [putLanding I.d (32 * b + physD s b r) v 1] := by
  unfold putSz
  split
  · exact new_putCells _ _ _ _
  · rfl

theorem spreadOver_left (cells : List (Fld × Nat)) (v lat : Nat) : ∀ l ∈ spreadOver cells v lat, l.left = lat ∧ l.mask = none := by
  induction cells generalizing v with
  | nil => simp [spreadOver]
  | cons p r ih =>
    obtain ⟨f, i⟩ := p
    intro l hl
    simp only [spreadOver, List.mem_cons] at hl
    rcases hl with rfl | hl
    · exact ⟨rfl, rfl⟩
    · exact ih _ l hl

theorem spreadOver_mem (cells : List (Fld × Nat)) (v lat : Nat) : ∀ l ∈ spreadOver cells v lat, (l.fld, l.inst) ∈ cells := by
  induction cells generalizing v with
  | nil => simp [spreadOver]
  | cons p r ih =>
    obtain ⟨f, i⟩ := p
    intro l hl
    simp only [spreadOver, List.mem_cons] at hl
    rcases hl with rfl | hl
    · simp [putLanding]
    · exact List.mem_cons_of_mem _ (ih _ l hl)

/-- A word-space register reads as its new value once its landings are in. -/
theorem readWord_spread {s t : State} {b r v lat : Nat} (hr : r < 32) (hs : inFlight s b = []) (ht : inFlight t b = [])
    (hrrb : t.rd I.rrb b = s.rd I.rrb b) (hv : v < 2 ^ 32)
    (h : ∀ f i, (f, i) ∈ wordCells s b r → t.rd f i = afterLandings f i (spreadOver (wordCells s b r) v lat) (s.rd f i)) :
    readWord t b r = v := by
  have hp := physD_still hs ht hrrb
  by_cases h16 : r < 16
  · have hc : wordCells s b r = [(I.d, 32 * b + physD s b (2 * r)), (I.d, 32 * b + physD s b (2 * r + 1))] := by
      simp [wordCells, h16]
    have hne : physD s b (2 * r) ≠ physD s b (2 * r + 1) := fun he =>
      absurd ((physD_inj s b (by omega) (by omega)).mp he) (by omega)
    rw [hc] at h
    have h0 := h I.d (32 * b + physD s b (2 * r)) (by simp)
    have h1 := h I.d (32 * b + physD s b (2 * r + 1)) (by simp)
    simp only [spreadOver, afterLandings, putLanding, Landing.into, true_and, if_true] at h0 h1
    rw [if_neg (by omega)] at h0
    have hw : I.d.w = 16 := rfl
    simp only [hw, Nat.mod_mod] at h0 h1
    simp only [readWord, h16, if_true, readW, readD, cr_still ht, hp, h0, h1]
    omega
  · have hc : wordCells s b r = [(I.p, 16 * b + (r - 16))] := by simp [wordCells, h16]
    rw [hc] at h
    have h0 := h I.p (16 * b + (r - 16)) (by simp)
    simp only [spreadOver, afterLandings, putLanding, Landing.into, true_and, if_true] at h0
    have hw : I.p.w = 32 := rfl
    simp only [hw, Nat.mod_mod] at h0
    simp only [readWord, h16, if_false, readP, cr_still ht, h0]
    omega

theorem readD_put {s t : State} {b r v lat : Nat} (hs : inFlight s b = []) (ht : inFlight t b = [])
    (hrrb : t.rd I.rrb b = s.rd I.rrb b) (hv : v < 2 ^ 16)
    (h : t.rd I.d (32 * b + physD s b r) =
      afterLandings I.d (32 * b + physD s b r) [putLanding I.d (32 * b + physD s b r) v lat] (s.rd I.d (32 * b + physD s b r))) :
    readD t b r = v := by
  simp only [afterLandings, putLanding, Landing.into, true_and, if_true] at h
  have hw : I.d.w = 16 := rfl
  simp only [hw, Nat.mod_mod] at h
  simp only [readD, cr_still ht, physD_still hs ht hrrb, h]
  omega

theorem stay_none (l : List Landing) (h : ∀ x ∈ l, x.left ≤ 1) : stay l = [] := by
  simp only [stay, List.map_eq_nil_iff, List.filter_eq_nil_iff]
  intro x hx
  have := h x hx
  simp; omega

theorem filter_now (l : List Landing) (h : ∀ x ∈ l, x.left ≤ 1) : (l.filter fun x => decide (x.left ≤ 1)) = l := by
  apply List.filter_eq_self.mpr
  intro x hx
  simp [h x hx]

theorem putFlags_left (b b' : Nat) (fs : FlagSet) : ∀ l ∈ (putFlags b 1 fs).flatMap (newOf b'),
    l.left = 1 ∧ ∃ p ∈ FlagSet.cells b fs, p.1.id = l.fld.id ∧ p.2 = l.inst := by
  rw [new_putFlags]
  obtain ⟨z, n, c, v⟩ := fs
  intro l hl
  cases z <;> cases n <;> cases c <;> cases v <;> simp [FlagSet.cells, putLanding] at hl ⊢ <;> grind

theorem putFlags_flag (b b' : Nat) (fs : FlagSet) : ∀ l ∈ (putFlags b 1 fs).flatMap (newOf b'),
    l.fld ∈ [I.flZ, I.flN, I.flC, I.flV] := by
  rw [new_putFlags]
  obtain ⟨z, n, c, v⟩ := fs
  intro l hl
  cases z <;> cases n <;> cases c <;> cases v <;> simp [putLanding] at hl ⊢ <;> grind

/-- The results of an operation: flags alone, of latency 1. -/
theorem exec_flags {s : State} {c : Nat} (h : CoreReady s c) (cls : Nat) (hcls : cls ≤ 2) (fs : FlagSet) {t : State}
    (hdef : t = afterQuiet s c (putFlags (rbank s c) 1 fs)) :
    syllable s c true cls .only (putFlags (rbank s c) 1 fs) [] = t ∧ Issued s t c (FlagSet.cells (rbank s c) fs) [] ∧
    flagsOf t (rbank s c) = [flagAfter (s.rd I.flZ (rbank s c)) fs.z, flagAfter (s.rd I.flN (rbank s c)) fs.n,
      flagAfter (s.rd I.flC (rbank s c)) fs.c, flagAfter (s.rd I.flV (rbank s c)) fs.v] := by
  have hx := quiet_putFlags (rbank s c) 1 fs
  have hno : ∀ a, Eff.overflow a ∉ putFlags (rbank s c) 1 fs := by
    intro a ha
    obtain ⟨z, n, c, v⟩ := fs
    cases z <;> cases n <;> cases c <;> cases v <;> simp [putFlags, putFlag] at ha
  have hleft := putFlags_left (rbank s c) (rbank s c) fs
  refine ⟨hdef ▸ exec_quiet h cls _ hcls hx (.inl hno), ?_, ?_⟩
  · rw [hdef]
    exact issued_quiet s c _ hx _ _ (fun l hl _ => (hleft l hl).2) (by simpa using fun l hl => (hleft l hl).2)
  · have hfl : ∀ g, g ∈ [I.flZ, I.flN, I.flC, I.flV] → t.rd g (rbank s c) =
        afterLandings g (rbank s c) ((putFlags (rbank s c) 1 fs).flatMap (newOf (rbank s c))) (s.rd g (rbank s c)) := by
      intro g hg
      rw [hdef, afterQuiet_result s c _ hx g _ (by simp [resultCells] at *; grind),
        filter_now _ fun l hl => Nat.le_of_eq (hleft l hl).1]
    have hf := afterLandings_flags (rbank s c) 1 fs (rbank s c) (s.rd I.flZ (rbank s c)) (s.rd I.flN (rbank s c))
      (s.rd I.flC (rbank s c)) (s.rd I.flV (rbank s c))
    simp only [flagsOf, hfl I.flZ (by simp), hfl I.flN (by simp), hfl I.flC (by simp), hfl I.flV (by simp), hf]

/-- The results of an operation: a value in an SR or SI register, and flags, all of latency 1. -/
theorem exec_result {s : State} {c : Nat} (h : CoreReady s c) (cls : Nat) (hcls : cls ≤ 2) (sz : Bool) (r v : Nat)
    (fs : FlagSet) (hr : r < 32) (hv : v < 2 ^ szBits sz) {t : State}
    (hdef : t = afterQuiet s c (putSz s (rbank s c) sz r v ++ putFlags (rbank s c) 1 fs)) :
    syllable s c true cls .only (putSz s (rbank s c) sz r v ++ putFlags (rbank s c) 1 fs) [] = t ∧
    Issued s t c (szCells s (rbank s c) sz r ++ FlagSet.cells (rbank s c) fs) [] ∧
    readSz t (rbank s c) sz r = v ∧
    flagsOf t (rbank s c) = [flagAfter (s.rd I.flZ (rbank s c)) fs.z, flagAfter (s.rd I.flN (rbank s c)) fs.n,
      flagAfter (s.rd I.flC (rbank s c)) fs.c, flagAfter (s.rd I.flV (rbank s c)) fs.v] := by
  generalize hb : rbank s c = b at *
  have hs : inFlight s b = [] := by rw [← hb]; exact h.2.2.2.2.2.1
  have hx : ∀ x ∈ putSz s b sz r v ++ putFlags b 1 fs, Quiet x := by
    intro x hx
    rcases List.mem_append.mp hx with hx | hx
    · exact quiet_putSz _ _ _ _ _ x hx
    · exact quiet_putFlags _ _ _ x hx
  have hno : ∀ a, Eff.overflow a ∉ putSz s b sz r v ++ putFlags b 1 fs := by
    intro a ha
    rcases List.mem_append.mp ha with ha | ha
    · unfold putSz at ha
      split at ha
      · have : ∀ (cs : List (Fld × Nat)) (v : Nat), Eff.overflow a ∉ putCells cs v 1 := by
          intro cs
          induction cs with
          | nil => simp [putCells]
          | cons p r ih => intro v; simp [putCells, ih]
        exact this _ _ ha
      · simp [putD] at ha
    · obtain ⟨z, n, c, v⟩ := fs
      cases z <;> cases n <;> cases c <;> cases v <;> simp [putFlags, putFlag] at ha
  have hsz : ∀ l ∈ (putSz s b sz r v).flatMap (newOf b), l.left = 1 ∧ (l.fld, l.inst) ∈ szCells s b sz r ∧
      (l.fld = I.d ∨ l.fld = I.p) := by
    rw [new_putSz]
    intro l hl
    unfold szCells
    cases sz <;> simp only [if_true, if_false, Bool.false_eq_true] at hl ⊢
    · simp only [List.mem_singleton] at hl; subst hl; simp [putLanding, dCell]
    · have h1 := spreadOver_mem _ _ _ l hl
      refine ⟨(spreadOver_left _ _ _ l hl).1, h1, ?_⟩
      unfold wordCells at h1
      split at h1 <;> simp at h1 <;> grind
  have hleft : ∀ l ∈ (putSz s b sz r v ++ putFlags b 1 fs).flatMap (newOf b), l.left ≤ 1 := by
    intro l hl
    rw [List.flatMap_append] at hl
    rcases List.mem_append.mp hl with hl | hl
    · rw [(hsz l hl).1]
    · rw [(putFlags_left _ _ _ l hl).1]
  have hcells : ∀ l ∈ (putSz s b sz r v ++ putFlags b 1 fs).flatMap (newOf b),
      ∃ p ∈ szCells s b sz r ++ FlagSet.cells b fs, p.1.id = l.fld.id ∧ p.2 = l.inst := by
    intro l hl
    rw [List.flatMap_append] at hl
    rcases List.mem_append.mp hl with hl | hl
    · exact ⟨(l.fld, l.inst), List.mem_append_left _ (hsz l hl).2.1, rfl, rfl⟩
    · obtain ⟨p, hp, e⟩ := (putFlags_left _ _ _ l hl).2
      exact ⟨p, List.mem_append_right _ hp, e⟩
  have hres : ∀ g ∈ resultCells, ∀ j, t.rd g j =
      afterLandings g j ((putFlags b 1 fs).flatMap (newOf b))
        (afterLandings g j ((putSz s b sz r v).flatMap (newOf b)) (s.rd g j)) := by
    intro g hg j
    have := afterQuiet_result s c (putSz s b sz r v ++ putFlags b 1 fs) hx g j hg
    rw [hb, filter_now _ hleft, List.flatMap_append, afterLandings_append] at this
    exact hdef ▸ this
  have ht : inFlight t b = [] := by
    have := afterQuiet_inFlight s c (putSz s b sz r v ++ putFlags b 1 fs)
    rw [hb, stay_none _ hleft] at this
    exact hdef ▸ this
  have hnf : ∀ g, g ∈ resultCells → g ∉ [I.flZ, I.flN, I.flC, I.flV] → ∀ j w,
      afterLandings g j ((putFlags b 1 fs).flatMap (newOf b)) w = w := by
    intro g hg hgf j w
    apply afterLandings_none
    intro l hl he
    have := putFlags_flag b b fs l hl
    exact absurd (resultCells_id _ (by simp [resultCells] at *; grind) _ hg he ▸ this) hgf
  have hrrb : t.rd I.rrb b = s.rd I.rrb b := by
    rw [hres I.rrb (by simp [resultCells]), hnf _ (by simp [resultCells]) (by decide)]
    apply afterLandings_none
    intro l hl he
    rcases (hsz l hl).2.2 with h' | h' <;> rw [h'] at he <;> exact absurd he (by decide)
  refine ⟨hdef ▸ exec_quiet h cls _ hcls hx (.inl hno), ?_, ?_, ?_⟩
  · rw [hdef]
    exact issued_quiet s c _ hx _ _ (by rw [hb]; exact fun l hl _ => hcells l hl) (by
      rw [hb]; intro l hl; simpa using hcells l hl)
  · unfold readSz
    cases sz
    · simp only [Bool.false_eq_true, if_false]
      apply readD_put (lat := 1) hs ht hrrb hv
      rw [hres _ (by simp [resultCells]), hnf _ (by simp [resultCells]) (by decide), new_putSz]
      rfl
    · simp only [if_true]
      apply readWord_spread (lat := 1) hr hs ht hrrb hv
      intro f i hf
      have hfr : f ∈ resultCells := wordCells_fld s b r (f, i) hf
      have hff : f ∉ [I.flZ, I.flN, I.flC, I.flV] := by
        unfold wordCells at hf
        split at hf <;> simp at hf
        · rcases hf with hf | hf <;> rw [hf.1] <;> decide
        · rw [hf.1]; decide
      rw [hres f hfr, hnf f hfr hff, new_putSz]
      rfl
  · have hfl : ∀ g, g ∈ [I.flZ, I.flN, I.flC, I.flV] → t.rd g b =
        afterLandings g b ((putFlags b 1 fs).flatMap (newOf b)) (s.rd g b) := by
      intro g hg
      rw [hres g (by simp [resultCells] at *; grind)]
      congr 1
      apply afterLandings_none
      intro l hl he
      have : I.d.id ∉ [I.flZ, I.flN, I.flC, I.flV].map Fld.id ∧ I.p.id ∉ [I.flZ, I.flN, I.flC, I.flV].map Fld.id := by decide
      rcases (hsz l hl).2.2 with h' | h' <;> rw [h'] at he
      · exact absurd (he ▸ List.mem_map_of_mem hg) this.1
      · exact absurd (he ▸ List.mem_map_of_mem hg) this.2
    have hf := afterLandings_flags b 1 fs b (s.rd I.flZ b) (s.rd I.flN b) (s.rd I.flC b) (s.rd I.flV b)
    simp only [flagsOf, hfl I.flZ (by simp), hfl I.flN (by simp), hfl I.flC (by simp), hfl I.flV (by simp), hf]

/-! ## Ranges, modes, and the law in the form of the statements -/

theorem readD_lt {s : State} {b : Nat} (h : inFlight s b = []) (k : Nat) : readD s b k < 2 ^ 16 := by
  unfold readD; rw [cr_still h]; exact rd_mod_lt s I.d _

theorem readWord_lt {s : State} {b : Nat} (h : inFlight s b = []) (k : Nat) : readWord s b k < 2 ^ 32 := by
  unfold readWord
  split
  · have := readD_lt h (2 * k); have := readD_lt h (2 * k + 1); unfold readW; omega
  · unfold readP; rw [cr_still h]; exact rd_mod_lt s I.p _

theorem readSz_lt {s : State} {b : Nat} (h : inFlight s b = []) (sz : Bool) (k : Nat) : readSz s b sz k < 2 ^ szBits sz := by
  cases sz
  · exact readD_lt h k
  · exact readWord_lt h k

theorem immSz_lt (sz : Bool) (imm : BitVec 12) : immSz sz imm < 2 ^ szBits sz := ofInt_lt _ _

theorem bitN_eq (v k : Nat) : bitN v k = b2n (bitOf v k) := by
  unfold bitN bitOf b2n
  have : v / 2 ^ k % 2 < 2 := Nat.mod_lt _ (by decide)
  split <;> simp_all <;> omega

theorem modeSAT_still {s : State} {b : Nat} (h : inFlight s b = []) : modeSAT s b = bitOf (s.rd I.cmode b) 11 := by
  unfold modeSAT modeReg; rw [cr_still h]
theorem modeRM_still {s : State} {b : Nat} (h : inFlight s b = []) : modeRM s b = bitOf (s.rd I.cmode b) 10 := by
  unfold modeRM modeReg; rw [cr_still h]

theorem ready_inFlight {s : State} {c : Nat} (h : CoreReady s c) : inFlight s (rbank s c) = [] := h.2.2.2.2.2.1

/-- A syllable whose results are a register and flags does what they say. -/
theorem does_result {s : State} {c : Fin 68} (h : CoreReady s c.val) (i : Instr) (sz : Bool) (r v : Nat) (fs : FlagSet)
    (hr : r < 32) (hv : v < 2 ^ szBits sz) {post : State → Prop}
    (hi : exec i s = sSyl s c.val true (putSz s (rbank s c.val) sz r v ++ putFlags (rbank s c.val) 1 fs) [])
    (hp : ∀ t, Issued s t c.val (szCells s (rbank s c.val) sz r ++ FlagSet.cells (rbank s c.val) fs) [] →
      readSz t (rbank s c.val) sz r = v →
      flagsOf t (rbank s c.val) = [flagAfter (s.rd I.flZ (rbank s c.val)) fs.z, flagAfter (s.rd I.flN (rbank s c.val)) fs.n,
      flagAfter (s.rd I.flC (rbank s c.val)) fs.c, flagAfter (s.rd I.flV (rbank s c.val)) fs.v] → post t) :
    Does i s post := by
  obtain ⟨h1, h2, h3, h4⟩ := exec_result h clsS (by decide) sz r v fs hr hv rfl
  exact ⟨_, by rw [hi, sSyl, h1], hp _ h2 h3 h4⟩

theorem does_flags {s : State} {c : Fin 68} (h : CoreReady s c.val) (i : Instr) (fs : FlagSet) {post : State → Prop}
    (hi : exec i s = sSyl s c.val true (putFlags (rbank s c.val) 1 fs) [])
    (hp : ∀ t, Issued s t c.val (FlagSet.cells (rbank s c.val) fs) [] →
      flagsOf t (rbank s c.val) = [flagAfter (s.rd I.flZ (rbank s c.val)) fs.z, flagAfter (s.rd I.flN (rbank s c.val)) fs.n,
      flagAfter (s.rd I.flC (rbank s c.val)) fs.c, flagAfter (s.rd I.flV (rbank s c.val)) fs.v] → post t) :
    Does i s post := by
  obtain ⟨h1, h2, h3⟩ := exec_flags h clsS (by decide) fs rfl
  exact ⟨_, by rw [hi, sSyl, h1], hp _ h2 h3⟩

theorem arithVal_lt (sat : Bool) (sz : Bool) (x : Int) : arithVal sat (szBits sz) x < 2 ^ szBits sz := by
  unfold arithVal
  split
  · next h => rw [h]; exact ofInt_lt _ _
  · exact ofInt_lt _ _

theorem arithVal_eq (sat sz : Bool) (x : Int) : arithVal sat (szBits sz) x =
    if sz then ofInt 32 x else ofInt 16 (fitVal sat x 16) := by
  cases sz <;> simp [arithVal, szBits]

theorem sub_flags (n x y : Nat) (hy : y < 2 ^ n) : subFlags n x y =
    ⟨some (ofInt n (signedOf n x - signedOf n y) == 0), some (bitOf (ofInt n (signedOf n x - signedOf n y)) (n - 1)),
      some (decide (y ≤ x)), some (!fitsS n (signedOf n x - signedOf n y))⟩ := by
  simp only [subFlags, znOf, ofInt_sub n x y hy, Nat.mod_mod]

theorem znOf_mod (n r : Nat) (hn : 0 < n) (c v : Option Bool) : znOf n r c v = znOf n (r % 2 ^ n) c v := by
  unfold znOf
  rw [Nat.mod_mod]
  congr 2
  unfold bitOf
  congr 1
  have h1 := Nat.testBit_mod_two_pow r n (n - 1)
  have : n - 1 < n := by omega
  simp only [Nat.testBit, this, decide_true, Bool.true_and] at h1
  simp only [Nat.shiftRight_eq_div_pow, Nat.one_and_eq_mod_two] at h1
  have ha : r / 2 ^ (n - 1) % 2 < 2 := Nat.mod_lt _ (by decide)
  have hb : r % 2 ^ n / 2 ^ (n - 1) % 2 < 2 := Nat.mod_lt _ (by decide)
  generalize r / 2 ^ (n - 1) % 2 = a at *
  generalize r % 2 ^ n / 2 ^ (n - 1) % 2 = b at *
  match a, b, ha, hb with
  | 0, 0, _, _ => rfl
  | 0, 1, _, _ => simp at h1
  | 1, 0, _, _ => simp at h1
  | 1, 1, _, _ => rfl

theorem redundant_lt (n v : Nat) (h : 0 < n) : redundant n v < n := by
  unfold redundant
  have := (List.takeWhile_prefix (fun k => bitOf v k == bitOf v (n - 1)) (l := (List.range (n - 1)).reverse)).length_le
  simp only [List.length_reverse, List.length_range] at this
  dsimp only
  omega

/-! ## Results of latency 2 -/

/-- A cell once every result of a syllable whose effects stay in the core has landed. -/
theorem settled_quiet (s : State) (c : Nat) (effs : List Eff) (hx : ∀ x ∈ effs, Quiet x) (g : Fld) (j : Nat)
    (hg : g ∈ resultCells) : (settled (afterQuiet s c effs) c).rd g j =
      afterLandings g j (landOrder (stay (effs.flatMap (newOf (rbank s c)))))
        (afterLandings g j ((effs.flatMap (newOf (rbank s c))).filter fun l => decide (l.left ≤ 1)) (s.rd g j)) := by
  have hb : rbank (afterQuiet s c effs) c = rbank s c :=
    rbank_congr c (afterQuiet_control s c effs hx I.bank (by simp [controlCells]) c)
  unfold settled
  rw [hb, landAll_rd _ _ _ _ hg, afterQuiet_inFlight, afterQuiet_result s c effs hx g j hg]
  intro l hl
  rw [afterQuiet_inFlight] at hl
  simp only [stay, List.mem_map, List.mem_filter] at hl
  obtain ⟨m, ⟨hm, -⟩, rfl⟩ := hl
  exact newOf_fld _ _ hx m hm

theorem stay_two (l : List Landing) (h : ∀ x ∈ l, x.left = 2 ∧ x.mask = none) :
    landOrder (stay l) = l.map fun x => { x with left := 1 } := by
  have h1 : stay l = l.map fun x => { x with left := 1 } := by
    unfold stay
    rw [List.filter_eq_self.mpr fun x hx => by simp [(h x hx).1]]
    apply List.map_congr_left
    intro x hx; simp [(h x hx).1]
  have hm : ∀ y ∈ l.map (fun x => ({ x with left := 1 } : Landing)), y.left = 1 ∧ y.mask = none := by
    intro y hy
    obtain ⟨x, hx, rfl⟩ := List.mem_map.mp hy
    exact ⟨rfl, (h x hx).2⟩
  rw [h1]
  generalize l.map (fun x => ({ x with left := 1 } : Landing)) = m at hm
  unfold landOrder
  have e1 : m.filter (fun x => x.left == 1) = m := List.filter_eq_self.mpr fun x hx => by simp [(hm x hx).1]
  have e2 : m.filter (fun x => x.left == 2) = [] := List.filter_eq_nil_iff.mpr fun x hx => by simp [(hm x hx).1]
  have e3 : m.filter (fun x => x.left == 3) = [] := List.filter_eq_nil_iff.mpr fun x hx => by simp [(hm x hx).1]
  have e4 : m.filter (fun x => x.mask.isNone) = m := List.filter_eq_self.mpr fun x hx => by simp [(hm x hx).2]
  have e5 : m.filter (fun x => x.mask.isSome) = [] := List.filter_eq_nil_iff.mpr fun x hx => by simp [(hm x hx).2]
  simp [e1, e2, e3, e4, e5]

theorem afterLandings_left (g : Fld) (j : Nat) (l : List Landing) (v : Nat) :
    afterLandings g j (l.map fun x => { x with left := 1 }) v = afterLandings g j l v := by
  induction l generalizing v with
  | nil => rfl
  | cons a l ih => simp [afterLandings, Landing.into, ih]

/-- A cell once results of latency 2 have landed. -/
theorem settled_two (s : State) (c : Nat) (effs : List Eff) (hx : ∀ x ∈ effs, Quiet x)
    (h : ∀ l ∈ effs.flatMap (newOf (rbank s c)), l.left = 2 ∧ l.mask = none) (g : Fld) (j : Nat) (hg : g ∈ resultCells) :
    (settled (afterQuiet s c effs) c).rd g j = afterLandings g j (effs.flatMap (newOf (rbank s c))) (s.rd g j) := by
  rw [settled_quiet s c effs hx g j hg, stay_two _ h, afterLandings_left]
  congr 1
  rw [List.filter_eq_nil_iff.mpr fun x hx => by simp [(h x hx).1]]
  rfl

/-- A syllable whose results all have latency 2. -/
theorem exec_late {s : State} {c : Nat} (h : CoreReady s c) (cls : Nat) (hcls : cls ≤ 2) (effs : List Eff)
    (hx : ∀ x ∈ effs, Quiet x) (ho : ∀ a, Eff.overflow a ∉ effs) (dst : List (Fld × Nat))
    (hl : ∀ l ∈ effs.flatMap (newOf (rbank s c)), l.left = 2 ∧ l.mask = none ∧ l.fld ≠ I.rrb ∧
      ∃ p ∈ dst, p.1.id = l.fld.id ∧ p.2 = l.inst) {t : State} (hdef : t = afterQuiet s c effs) :
    syllable s c true cls .only effs [] = t ∧ Issued s t c [] dst ∧
    (∀ g ∈ resultCells, ∀ j, (settled t c).rd g j =
      afterLandings g j (effs.flatMap (newOf (rbank s c))) (s.rd g j)) ∧
    inFlight (settled t c) (rbank s c) = [] ∧ (settled t c).rd I.rrb (rbank s c) = s.rd I.rrb (rbank s c) := by
  have h2 := settled_two s c effs hx fun l hh => ⟨(hl l hh).1, (hl l hh).2.1⟩
  have hb : rbank (afterQuiet s c effs) c = rbank s c :=
    rbank_congr c (afterQuiet_control s c effs hx I.bank (by simp [controlCells]) c)
  refine ⟨hdef ▸ exec_quiet h cls _ hcls hx (.inl ho), ?_, ?_, ?_, ?_⟩
  · rw [hdef]
    exact issued_quiet s c _ hx _ _ (fun l hh h1 => absurd (hl l hh).1 (by omega)) (fun l hh => (hl l hh).2.2.2)
  · intro g hg j
    rw [hdef, h2 g j hg]
  · rw [hdef, settled, hb, landAll_same]
    simp [inFlight, Tbl.get_drop]
  · rw [hdef, h2 _ _ (by simp [resultCells])]
    apply afterLandings_none
    intro l hh he
    exact absurd (resultCells_id _ (newOf_fld _ _ hx l hh) _ (by simp [resultCells]) he) (hl l hh).2.2.1

end Sys2Proof.Machine
end

