-- ==== Sys2Proof/Laws/Acc.lean ====
section
/-! SUPPORT.  What accumulations leave: acc_write of halves of one accumulator, and the sticky overflow bit. -/

namespace Sys2Proof.Machine

open Sys2Proof.Safety

theorem bitOf_testBit (x k : Nat) : bitOf x k = Nat.testBit x k := by
  unfold bitOf
  rw [Nat.testBit_eq_decide_div_mod_eq]
  rfl

theorem bit_or (v n k : Nat) : bitOf (v ||| 2 ^ n) k = (bitOf v k || k == n) := by
  rw [bitOf_testBit, bitOf_testBit, Nat.testBit_or, Nat.testBit_two_pow]
  congr 1
  by_cases h : n = k
  · subst h; simp
  · simp [h, Ne.symm h]

theorem and_two_pow (v n : Nat) : v &&& 2 ^ n = if v.testBit n then 2 ^ n else 0 := by
  apply Nat.eq_of_testBit_eq
  intro i
  rw [Nat.testBit_and, Nat.testBit_two_pow]
  by_cases h : n = i
  · subst h; cases hv : v.testBit n <;> simp
  · cases hv : v.testBit n <;> simp [h]

theorem or_two_pow (v n : Nat) : v - Nat.land v (2 ^ n) + Nat.land (2 ^ n) (2 ^ n) = v ||| 2 ^ n := by
  have e1 : Nat.land (2 ^ n) (2 ^ n) = 2 ^ n := Nat.and_self _
  have e2 : Nat.land v (2 ^ n) = v &&& 2 ^ n := rfl
  rw [e1, e2]
  have h : v % 2 ^ n < 2 ^ n := Nat.mod_lt _ (Nat.two_pow_pos n)
  cases hb : v.testBit n
  · have h0 : v &&& 2 ^ n = 0 := by rw [and_two_pow]; simp [hb]
    rw [h0, Nat.sub_zero]
    have hd : v / 2 ^ n % 2 = 0 := by
      rw [Nat.testBit_eq_decide_div_mod_eq] at hb
      simp at hb; omega
    apply Nat.eq_of_testBit_eq
    intro i
    rw [Nat.testBit_or, Nat.testBit_two_pow]
    have hv : v = 2 ^ n * (v / 2 ^ n) + v % 2 ^ n := (Nat.div_add_mod v (2 ^ n)).symm
    have hs : v + 2 ^ n = 2 ^ n * (v / 2 ^ n + 1) + v % 2 ^ n := by rw [Nat.mul_add]; omega
    rw [hs]
    conv => rhs; rw [hv]
    rw [Nat.testBit_two_pow_mul_add _ h, Nat.testBit_two_pow_mul_add _ h]
    by_cases hi : i < n
    · have : ¬ n = i := by omega
      simp [hi, this]
    · simp only [hi, if_false]
      by_cases he : n = i
      · subst he
        have : v / 2 ^ n + 1 = 2 * (v / 2 ^ n / 2) + 1 := by omega
        rw [this]; simp
      · obtain ⟨j, hj⟩ : ∃ j, i - n = j + 1 := ⟨i - n - 1, by omega⟩
        rw [hj, Nat.testBit_succ, Nat.testBit_succ]
        have : (v / 2 ^ n + 1) / 2 = v / 2 ^ n / 2 := by omega
        simp [this, he]
  · have h1 : v &&& 2 ^ n = 2 ^ n := by rw [and_two_pow]; simp [hb]
    rw [h1]
    have := Nat.ge_two_pow_of_testBit hb
    rw [Nat.sub_add_cancel this]
    apply Nat.eq_of_testBit_eq
    intro i
    rw [Nat.testBit_or, Nat.testBit_two_pow]
    by_cases hi : n = i
    · subst hi; simp [hb]
    · simp [hi]

theorem or_lt (v n : Nat) (hn : n < 8) (hv : v < 2 ^ 8) : v ||| 2 ^ n < 2 ^ 8 :=
  Nat.or_lt_two_pow hv (Nat.pow_lt_pow_right (by decide) hn)

/-- The result in flight that sets the sticky bit of ACn. -/
def overflowLanding (b n left : Nat) : Landing := ⟨left, I.acov, b, 2 ^ n, some (2 ^ n)⟩

/-- The sticky bits after results in flight that set bit n. -/
theorem after_overflows (b n : Nat) (hn : n < 8) {α : Type} (l : List α) (v : Nat) (hv : v < 2 ^ 8) :
    afterLandings I.acov b (l.map fun _ => overflowLanding b n 1) v = if l.isEmpty then v else v ||| 2 ^ n := by
  induction l generalizing v with
  | nil => rfl
  | cons a r ih =>
    have hw : I.acov.w = 8 := rfl
    simp only [List.map_cons, afterLandings, overflowLanding, Landing.into, and_self, if_true, or_two_pow, hw,
      Nat.mod_eq_of_lt (or_lt v n hn hv)]
    have := ih (v ||| 2 ^ n) (or_lt v n hn hv)
    simp only [overflowLanding] at this
    rw [this]
    have hidem : v ||| 2 ^ n ||| 2 ^ n = v ||| 2 ^ n := by rw [Nat.or_assoc, Nat.or_self]
    split <;> simp [hidem]

/-- The effects of writing halves of ACn. -/
def accEffs (s : State) (b n : Nat) (hs : List (Nat × Int)) : List Eff := hs.flatMap fun p => accWrite s b n p.1 p.2

theorem accEffs_quiet (s : State) (b n : Nat) (hs : List (Nat × Int)) : ∀ x ∈ accEffs s b n hs, Quiet x := by
  intro x hx
  obtain ⟨p, -, hp⟩ := List.mem_flatMap.mp hx
  simp only [accWrite, List.mem_cons] at hp
  rcases hp with rfl | hp
  · trivial
  · split at hp <;> simp at hp; subst hp; trivial

theorem new_accEffs (s : State) (b n : Nat) (hs : List (Nat × Int)) : (accEffs s b n hs).flatMap (newOf b) =
    hs.flatMap fun p => putLanding I.ac (16 * b + 2 * n + p.1) (accStore (modeSATACC s b) p.2) 1 ::
      (if accOv p.2 then [overflowLanding b n 2] else []) := by
  unfold accEffs
  rw [List.flatMap_assoc]
  congr 1
  funext p
  simp only [accWrite]
  split <;> rfl

theorem now_accEffs (s : State) (b n : Nat) (hs : List (Nat × Int)) :
    ((accEffs s b n hs).flatMap (newOf b)).filter (fun l => decide (l.left ≤ 1)) =
      hs.map fun p => putLanding I.ac (16 * b + 2 * n + p.1) (accStore (modeSATACC s b) p.2) 1 := by
  rw [new_accEffs]
  induction hs with
  | nil => rfl
  | cons p r ih =>
    simp only [List.flatMap_cons, List.filter_append, ih, List.map_cons]
    split <;> simp [putLanding, overflowLanding]

theorem late_accEffs (s : State) (b n : Nat) (hs : List (Nat × Int)) :
    landOrder (stay ((accEffs s b n hs).flatMap (newOf b))) =
      (hs.filter fun p => accOv p.2).map fun _ => overflowLanding b n 1 := by
  have h1 : stay ((accEffs s b n hs).flatMap (newOf b)) = (hs.filter fun p => accOv p.2).map fun _ => overflowLanding b n 1 := by
    rw [new_accEffs]
    induction hs with
    | nil => rfl
    | cons p r ih =>
      unfold stay at *
      simp only [List.flatMap_cons, List.filter_append, List.map_append, ih]
      by_cases hp : accOv p.2 = true <;> simp [hp, putLanding, overflowLanding]
  rw [h1]
  generalize hs.filter (fun p => accOv p.2) = l
  have hl : ∀ x ∈ l.map fun _ => overflowLanding b n 1, x.left = 1 ∧ x.mask.isSome = true := by
    intro x hx
    obtain ⟨_, -, rfl⟩ := List.mem_map.mp hx
    exact ⟨rfl, rfl⟩
  generalize l.map (fun _ => overflowLanding b n 1) = m at hl
  have e1 : m.filter (fun x => x.left == 1) = m := List.filter_eq_self.mpr fun x hx => by simp [(hl x hx).1]
  have e2 : m.filter (fun x => x.left == 2) = [] := List.filter_eq_nil_iff.mpr fun x hx => by simp [(hl x hx).1]
  have e3 : m.filter (fun x => x.left == 3) = [] := List.filter_eq_nil_iff.mpr fun x hx => by simp [(hl x hx).1]
  have e4 : m.filter (fun x => x.mask.isNone) = [] := List.filter_eq_nil_iff.mpr fun x hx => by
    have := (hl x hx).2; cases hm : x.mask <;> simp_all
  have e5 : m.filter (fun x => x.mask.isSome) = m := List.filter_eq_self.mpr fun x hx => (hl x hx).2
  simp [landOrder, e1, e2, e3, e4, e5]

/-- An M syllable that writes halves of ACn: the halves at once, the sticky bit one bundle later. -/
theorem exec_acc {s : State} {c : Nat} (h : CoreReady s c) (n : Nat) (hs : List (Nat × Int)) (hn : n < 8)
    (hov : bitOf (s.rd I.cmode (rbank s c)) 15 = false) {t : State} (hdef : t = afterQuiet s c (accEffs s (rbank s c) n hs)) :
    syllable s c true clsM .only (accEffs s (rbank s c) n hs) [] = t ∧
    Issued s t c (hs.map fun p => (I.ac, 16 * rbank s c + 2 * n + p.1)) [(I.acov, rbank s c)] ∧
    (∀ j, t.rd I.ac j = afterLandings I.ac j
      (hs.map fun p => putLanding I.ac (16 * rbank s c + 2 * n + p.1) (accStore (modeSATACC s (rbank s c)) p.2) 1)
      (s.rd I.ac j)) ∧
    ∀ k, bitOf ((settled t c).rd I.acov (rbank s c)) k =
      (bitOf (s.rd I.acov (rbank s c)) k || (k == n && hs.any fun p => accOv p.2)) := by
  have hx := accEffs_quiet s (rbank s c) n hs
  refine ⟨hdef ▸ exec_quiet h clsM _ (by decide) hx (.inr hov), ?_, ?_, ?_⟩
  · rw [hdef]
    refine issued_quiet s c _ hx _ _ ?_ ?_
    · intro l hl h1
      have : l ∈ ((accEffs s (rbank s c) n hs).flatMap (newOf (rbank s c))).filter (fun l => decide (l.left ≤ 1)) :=
        List.mem_filter.mpr ⟨hl, by simpa using h1⟩
      rw [now_accEffs] at this
      obtain ⟨p, hp, rfl⟩ := List.mem_map.mp this
      exact ⟨_, List.mem_map_of_mem hp, rfl, rfl⟩
    · intro l hl
      rw [new_accEffs] at hl
      obtain ⟨p, hp, hlp⟩ := List.mem_flatMap.mp hl
      simp only [List.mem_cons] at hlp
      rcases hlp with rfl | hlp
      · exact ⟨_, List.mem_append_left _ (List.mem_map_of_mem hp), rfl, rfl⟩
      · split at hlp
        · simp at hlp; subst hlp; exact ⟨(I.acov, rbank s c), by simp, rfl, rfl⟩
        · simp at hlp
  · intro j
    rw [hdef, afterQuiet_result s c _ hx _ _ (by decide), now_accEffs]
  · intro k
    rw [hdef, settled_quiet s c _ hx _ _ (by decide), now_accEffs, late_accEffs, after_overflows _ _ hn]
    · rw [afterLandings_none]
      · cases hany : hs.any fun p => accOv p.2
        · have : (hs.filter fun p => accOv p.2) = [] := by
            apply List.filter_eq_nil_iff.mpr
            intro p hp
            have := List.any_eq_false.mp hany p hp
            simpa using this
          simp [this]
        · have : (hs.filter fun p => accOv p.2).isEmpty = false := by
            obtain ⟨p, hp, hv⟩ := List.any_eq_true.mp hany
            cases hf : hs.filter fun p => accOv p.2 with
            | nil => exact absurd hv (by simpa using List.filter_eq_nil_iff.mp hf p hp)
            | cons _ _ => rfl
          simp [this, bit_or]
      · intro l hl he
        obtain ⟨p, -, rfl⟩ := List.mem_map.mp hl
        exact absurd he (show ¬ I.ac.id = I.acov.id by decide)
    · rw [afterLandings_none]
      · exact rd_mod_lt s I.acov _
      · intro l hl he
        obtain ⟨p, -, rfl⟩ := List.mem_map.mp hl
        exact absurd he (show ¬ I.ac.id = I.acov.id by decide)

theorem accStore_lt (sat : Bool) (x : Int) : accStore sat x < 2 ^ 40 := by
  unfold accStore; split <;> exact ofInt_lt _ _

end Sys2Proof.Machine
end

