-- ==== Sys2Proof/Laws/CaseAlu.lean ====
section
/-! SUPPORT.  What the arithmetic and move syllables of a ready core do: one lemma per shape. -/

namespace Sys2Proof.Machine

open Safety

theorem add_case {s : State} {c : Fin 68} (h : CoreReady s c.val) (i : Instr) (sz : Bool) (rd : BitVec 5) (x y : Nat)
    (hi : exec i s = sSyl s c.val true (resultSz s (rbank s c.val) sz rd.toNat (addOp (satOf s c.val) (szBits sz) x y).1
      (addOp (satOf s c.val) (szBits sz) x y).2) []) :
    Does i s (fun t => Issued s t c.val (szCells s (rbank s c.val) sz rd.toNat ++ flagCells (rbank s c.val)) [] ∧
      readSz t (rbank s c.val) sz rd.toNat = (if sz then ofInt 32 (signedOf (szBits sz) x + signedOf (szBits sz) y) else
        ofInt 16 (fitVal (bitOf (s.rd I.cmode (rbank s c.val)) 11) (signedOf (szBits sz) x + signedOf (szBits sz) y) 16)) ∧
      flagsOf t (rbank s c.val) = [b2n (ofInt (szBits sz) (signedOf (szBits sz) x + signedOf (szBits sz) y) == 0),
        bitN (ofInt (szBits sz) (signedOf (szBits sz) x + signedOf (szBits sz) y)) (szBits sz - 1),
        b2n (decide (2 ^ szBits sz ≤ x + y)), b2n (!fitsS (szBits sz) (signedOf (szBits sz) x + signedOf (szBits sz) y))]) := by
  refine does_result h i sz _ _ _ rd.isLt (arithVal_lt _ _ _) hi ?_
  intro t h1 h2 h3
  refine ⟨h1, ?_, ?_⟩
  · rw [h2, arithVal_eq, satOf, modeSAT_still (ready_inFlight h)]
  · rw [h3]
    simp only [addOp, addFlags, znOf, flagAfter, ofInt_add, bitN_eq, Nat.mod_mod]

theorem cmp_case {s : State} {c : Fin 68} (h : CoreReady s c.val) (i : Instr) (n x y : Nat) (hy : y < 2 ^ n)
    (hi : exec i s = sSyl s c.val true (putFlags (rbank s c.val) 1 (subFlags n x y)) []) :
    Does i s (fun t => Issued s t c.val (flagCells (rbank s c.val)) [] ∧
      flagsOf t (rbank s c.val) = [b2n (ofInt n (signedOf n x - signedOf n y) == 0),
        bitN (ofInt n (signedOf n x - signedOf n y)) (n - 1), b2n (decide (y ≤ x)),
        b2n (!fitsS n (signedOf n x - signedOf n y))]) := by
  refine does_flags h i (subFlags n x y) hi ?_
  intro t h1 h3
  refine ⟨h1, ?_⟩
  rw [h3]; simp only [sub_flags _ _ _ hy, flagAfter, bitN_eq]

theorem bit_case {s : State} {c : Fin 68} (h : CoreReady s c.val) (i : Instr) (sz : Bool) (rd : BitVec 5)
    (f : Nat → Nat → Nat) (x y : Nat) (hlt : f x y < 2 ^ szBits sz)
    (hi : exec i s = sSyl s c.val true (resultSz s (rbank s c.val) sz rd.toNat (bitOp f (szBits sz) x y).1
      (bitOp f (szBits sz) x y).2) []) :
    Does i s (fun t => Issued s t c.val (szCells s (rbank s c.val) sz rd.toNat ++
        [(I.flZ, rbank s c.val), (I.flN, rbank s c.val), (I.flV, rbank s c.val)]) [] ∧
      readSz t (rbank s c.val) sz rd.toNat = f x y ∧
      flagsOf t (rbank s c.val) = [b2n (f x y == 0), bitN (f x y) (szBits sz - 1), s.rd I.flC (rbank s c.val), 0]) := by
  refine does_result h i sz _ _ _ rd.isLt (Nat.mod_lt _ (Nat.two_pow_pos _)) hi ?_
  intro t h1 h2 h3
  refine ⟨by simpa [FlagSet.cells, bitOp, znOf, List.append_assoc] using h1, ?_, ?_⟩
  · rw [h2, Nat.mod_eq_of_lt hlt]
  · rw [h3]; simp only [bitOp, znOf, flagAfter, bitN_eq, Nat.mod_eq_of_lt hlt]; rfl

theorem shr_last (x k : Nat) : b2n (shrCarry x k) = if k = 0 then 0 else bitN x (k - 1) := by
  unfold shrCarry; rw [bitN_eq]
  split <;> simp_all [b2n]

theorem shl_last (n x k : Nat) : b2n (shlCarry n x k) = if k = 0 then 0 else bitN x (n - k) := by
  unfold shlCarry; rw [bitN_eq]
  split <;> simp_all [b2n]

theorem shift_case {s : State} {c : Fin 68} (h : CoreReady s c.val) (i : Instr) (sz : Bool) (rd : BitVec 5)
    (r : Nat) (carry : Bool) (last : Nat) (hlt : r < 2 ^ szBits sz) (fs : FlagSet)
    (hfs : fs = znOf (szBits sz) r (some carry) (some false)) (hl : b2n carry = last)
    (hi : exec i s = sSyl s c.val true (resultSz s (rbank s c.val) sz rd.toNat r fs) []) :
    Does i s (fun t => Issued s t c.val (szCells s (rbank s c.val) sz rd.toNat ++ flagCells (rbank s c.val)) [] ∧
      readSz t (rbank s c.val) sz rd.toNat = r ∧
      flagsOf t (rbank s c.val) = [b2n (r == 0), bitN r (szBits sz - 1), last, 0]) := by
  subst hfs
  refine does_result h i sz _ _ _ rd.isLt hlt hi ?_
  intro t h1 h2 h3
  refine ⟨h1, h2, ?_⟩
  rw [h3]; simp only [znOf, flagAfter, bitN_eq, Nat.mod_eq_of_lt hlt, hl]; rfl

theorem imm_count (sz : Bool) (imm : BitVec 12) : immSz sz imm % szBits sz = imm.toNat % szBits sz := by
  have : ∀ m : Nat, (m = 16 ∨ m = 32) → (ofInt m imm.toInt) % m = imm.toNat % m := by
    intro m hm
    unfold ofInt
    have h1 : imm.toInt = (imm.toNat : Int) ∨ imm.toInt = (imm.toNat : Int) - 4096 := by
      rw [BitVec.toInt_eq_toNat_cond]; split <;> simp
    have h2 := imm.isLt
    rcases hm with rfl | rfl <;> rcases h1 with h1 | h1 <;> rw [h1] <;> simp only [Nat.reducePow] <;> omega
  cases sz
  · exact this 16 (.inl rfl)
  · exact this 32 (.inr rfl)

theorem zn_case {s : State} {c : Fin 68} (h : CoreReady s c.val) (i : Instr) (sz : Bool) (rd : BitVec 5)
    (r : Nat) (hlt : r < 2 ^ szBits sz) (fs : FlagSet) (hfs : fs = znOf (szBits sz) r none none)
    (hi : exec i s = sSyl s c.val true (resultSz s (rbank s c.val) sz rd.toNat r fs) []) :
    Does i s (fun t => Issued s t c.val (szCells s (rbank s c.val) sz rd.toNat ++ [(I.flZ, rbank s c.val), (I.flN, rbank s c.val)]) [] ∧
      readSz t (rbank s c.val) sz rd.toNat = r ∧
      flagsOf t (rbank s c.val) = [b2n (r == 0), bitN r (szBits sz - 1), s.rd I.flC (rbank s c.val), s.rd I.flV (rbank s c.val)]) := by
  subst hfs
  refine does_result h i sz _ _ _ rd.isLt hlt hi ?_
  intro t h1 h2 h3
  refine ⟨by simpa [FlagSet.cells, znOf] using h1, h2, ?_⟩
  rw [h3]; simp only [znOf, flagAfter, bitN_eq, Nat.mod_eq_of_lt hlt]

theorem word_case {s : State} {c : Fin 68} (h : CoreReady s c.val) (i : Instr) (rd v : Nat) (hr : rd < 32) (hv : v < 2 ^ 32)
    (hi : exec i s = sSyl s c.val true (putWord s (rbank s c.val) rd v 1) []) :
    Does i s (fun t => Issued s t c.val (wordCells s (rbank s c.val) rd) [] ∧ readWord t (rbank s c.val) rd = v) := by
  refine does_result h i true rd v ⟨none, none, none, none⟩ hr hv (by rw [hi]; simp [putSz, putFlags, putFlag]) ?_
  intro t h1 h2 _
  exact ⟨by simpa [FlagSet.cells, szCells] using h1, h2⟩

theorem nop_case {s : State} {c : Fin 68} (h : CoreReady s c.val) (cls : Nat) (hc : cls ≤ 2) :
    Issued s (syllable s c.val true cls .only [] []) c.val [] [] := by
  rw [exec_quiet h cls [] hc (by simp) (.inl (by simp))]
  exact issued_quiet s c.val [] (by simp) _ _ (by simp) (by simp)

theorem one_put {s : State} {c : Fin 68} (h : CoreReady s c.val) (f : Fld) (i v : Nat) (hf : f ∈ resultCells) :
    let t := afterQuiet s c.val [.put f i v 1]
    syllable s c.val true clsS .only [.put f i v 1] [] = t ∧ Issued s t c.val [(f, i)] [] ∧ t.rd f i = v % 2 ^ f.w ∧
      inFlight t (rbank s c.val) = [] ∧ (f ≠ I.rrb → t.rd I.rrb (rbank s c.val) = s.rd I.rrb (rbank s c.val)) := by
  have hx : ∀ x ∈ [Eff.put f i v 1], Quiet x := by simpa [Quiet] using hf
  have hnew : [Eff.put f i v 1].flatMap (newOf (rbank s c.val)) = [putLanding f i v 1] := rfl
  refine ⟨exec_quiet h clsS _ (by decide) hx (.inl (by simp)), ?_, ?_, ?_, ?_⟩
  · exact issued_quiet s c.val _ hx _ _ (by simp [hnew, putLanding]) (by simp [hnew, putLanding])
  · rw [afterQuiet_result s c.val _ hx f i hf, hnew]
    simp [afterLandings, putLanding, Landing.into]
  · rw [afterQuiet_inFlight, hnew]; simp [stay, putLanding]
  · intro hne
    rw [afterQuiet_result s c.val _ hx _ _ (by simp [resultCells]), hnew]
    have : f.id ≠ I.rrb.id := fun he => hne (resultCells_id _ hf _ (by simp [resultCells]) he)
    simp [afterLandings, putLanding, this]

theorem readExt_lt {s : State} {b : Nat} (h : inFlight s b = []) (r : Nat) : readExt s b r < 2 ^ 32 := by
  unfold readExt
  split
  · exact readWord_lt h r
  · split
    · rw [cr_still h]; exact rd_mod_lt s I.m _
    · split
      · rw [cr_still h]; exact rd_mod_lt s I.bb _
      · rw [cr_still h]; exact rd_mod_lt s I.ll _

theorem readCr_lt {s : State} {c : Nat} (hc : c < 68) (h : inFlight s (rbank s c) = []) (n : Nat) : readCr s c n < 2 ^ 32 := by
  have hr := fun (f : Fld) i => rd_mod_lt s f i
  unfold readCr
  simp only [cr_still h, modeReg]
  have h1 := hr I.acov (rbank s c); have h2 := hr I.flV (rbank s c); have h3 := hr I.flC (rbank s c)
  have h4 := hr I.flN (rbank s c); have h5 := hr I.flZ (rbank s c)
  have h6 := hr I.bank c; have h7 := hr I.obusy c
  split
  all_goals try exact Nat.lt_of_lt_of_le (hr _ _) (by decide)
  · simp only [I.acov, I.flV, I.flC, I.flN, I.flZ] at *; omega
  · omega
  · split
    · decide
    · simp only [I.bank, I.obusy] at *; omega
  · split
    · exact Nat.lt_of_lt_of_le (hr _ _) (by decide)
    · decide

theorem write_one {s : State} {c : Fin 68} (h : CoreReady s c.val) (i : Instr) (f : Fld) (j v : Nat) (hf : f ∈ resultCells)
    (hi : exec i s = sSyl s c.val true [.put f j v 2] []) (post : State → Prop)
    (hp : ∀ t, (settled t c.val).rd f j = v % 2 ^ f.w → inFlight (settled t c.val) (rbank s c.val) = [] →
      rbank (settled t c.val) c.val = rbank s c.val → post t) :
    Does i s (fun t => Issued s t c.val [] [(f, j)] ∧ post t) := by
  have hx : ∀ x ∈ [Eff.put f j v 2], Quiet x := by simpa [Quiet] using hf
  have hnew : [Eff.put f j v 2].flatMap (newOf (rbank s c.val)) = [putLanding f j v 2] := rfl
  refine ⟨_, by rw [hi, sSyl, exec_quiet h clsS _ (by decide) hx (.inl (by simp))], ?_, hp _ ?_ ?_ ?_⟩
  · exact issued_quiet s c.val _ hx _ _ (by simp [hnew, putLanding]) (by simp [hnew, putLanding])
  · rw [settled_two s c.val _ hx (by simp [hnew, putLanding]) f j hf, hnew]
    simp [afterLandings, putLanding, Landing.into]
  · have hb := rbank_congr c.val (afterQuiet_control s c.val _ hx I.bank (by simp [controlCells]) c.val)
    unfold settled
    rw [hb, landAll_same]
    simp [inFlight, Tbl.get_drop]
  · have hb := rbank_congr c.val (afterQuiet_control s c.val _ hx I.bank (by simp [controlCells]) c.val)
    unfold settled
    rw [hb]
    refine (rbank_congr c.val ?_).trans hb
    apply landAll_other
    intro l hl he
    rw [afterQuiet_inFlight, hnew] at hl
    simp [stay, putLanding] at hl
    rw [hl] at he
    exact absurd he (bankCells_ne_controlCells f (List.mem_append_left _ hf) _ (by simp [controlCells]))

theorem land_step (v m : Nat) : v &&& m = 2 * (v / 2 &&& m / 2) + v % 2 * (m % 2) := by
  have h1 : (v &&& m) / 2 = v / 2 &&& m / 2 := by simpa using Nat.and_div_two_pow (a := v) (b := m) (n := 1)
  have h2 : (v &&& m) % 2 = (v % 2) * (m % 2) := by
    have := Nat.and_mod_two_pow (a := v) (b := m) (n := 1)
    simp only [Nat.pow_one] at this
    rw [this]
    rcases Nat.mod_two_eq_zero_or_one v with h | h <;> rcases Nat.mod_two_eq_zero_or_one m with h' | h' <;> rw [h, h'] <;> rfl
  omega

theorem land_flags (v : Nat) : v &&& 0xFF0F = v / 256 % 256 * 256 + v % 16 := by
  rw [land_step (v), land_step (v / 2), land_step (v / 2 / 2), land_step (v / 2 / 2 / 2), land_step (v / 2 / 2 / 2 / 2), land_step (v / 2 / 2 / 2 / 2 / 2), land_step (v / 2 / 2 / 2 / 2 / 2 / 2), land_step (v / 2 / 2 / 2 / 2 / 2 / 2 / 2), land_step (v / 2 / 2 / 2 / 2 / 2 / 2 / 2 / 2), land_step (v / 2 / 2 / 2 / 2 / 2 / 2 / 2 / 2 / 2), land_step (v / 2 / 2 / 2 / 2 / 2 / 2 / 2 / 2 / 2 / 2), land_step (v / 2 / 2 / 2 / 2 / 2 / 2 / 2 / 2 / 2 / 2 / 2), land_step (v / 2 / 2 / 2 / 2 / 2 / 2 / 2 / 2 / 2 / 2 / 2 / 2), land_step (v / 2 / 2 / 2 / 2 / 2 / 2 / 2 / 2 / 2 / 2 / 2 / 2 / 2), land_step (v / 2 / 2 / 2 / 2 / 2 / 2 / 2 / 2 / 2 / 2 / 2 / 2 / 2 / 2), land_step (v / 2 / 2 / 2 / 2 / 2 / 2 / 2 / 2 / 2 / 2 / 2 / 2 / 2 / 2 / 2)]
  simp only [Nat.reduceDiv, Nat.reduceMod, Nat.and_zero]
  omega

end Sys2Proof.Machine
end

