-- ==== Sys2Proof/Laws/CaseAcc.lean ====
section
/-! SUPPORT.  What the accumulator syllables of a ready core do. -/

namespace Sys2Proof.Machine

open Safety

theorem ready_macs {s : State} {c : Nat} (h : CoreReady s c) : Tbl.get [] s.macShadow (rbank s c) = [] := h.2.2.2.2.2.2.1

theorem readAc_still {s : State} {b : Nat} (h : inFlight s b = []) (n hh : Nat) :
    readAc s b n hh = signedOf 40 (s.rd I.ac (16 * b + 2 * n + hh)) := by unfold readAc; rw [cr_still h]

theorem readAcLate_ready {s : State} {c : Nat} (h : CoreReady s c) (n hh : Nat) :
    readAcLate s (rbank s c) n hh = signedOf 40 (s.rd I.ac (16 * rbank s c + 2 * n + hh)) := by
  unfold readAcLate
  rw [ready_macs h]
  exact readAc_still (ready_inFlight h) n hh

theorem sat_still {s : State} {b : Nat} (h : inFlight s b = []) : modeSATACC s b = bitOf (s.rd I.cmode b) 12 := by
  unfold modeSATACC modeReg; rw [cr_still h]

theorem store_eq (p : Bool) (x : Int) : accStore p x = ofInt 40 (if p then clampS 40 x else x) := by
  unfold accStore; cases p <;> rfl

theorem comb_eq (acc : BitVec 2) (o t : Int) : combine acc.toNat o t =
    if acc = 0 then o + t else if acc = 1 then o - t else if acc = 2 then t else -t := by
  have : ∀ a : BitVec 2, a = 0 ∨ a = 1 ∨ a = 2 ∨ a = 3 := by decide
  rcases this acc with h | h | h | h <;> subst h <;> rfl

theorem two_halves {s : State} {c : Fin 68} (h : CoreReady s c.val) (i : Instr) (n : BitVec 3) (x0 x1 : Int)
    (hov : bitOf (s.rd I.cmode (rbank s c.val)) 15 = false)
    (hi : exec i s = go (syllable s c.val true clsM .only (accWrite s (rbank s c.val) n.toNat 0 x0 ++ accWrite s (rbank s c.val) n.toNat 1 x1) [])) :
    Does i s (fun t => Issued s t c.val [(I.ac, 16 * rbank s c.val + 2 * n.toNat + 0), (I.ac, 16 * rbank s c.val + 2 * n.toNat + 1)] [(I.acov, rbank s c.val)] ∧
      t.rd I.ac (16 * rbank s c.val + 2 * n.toNat + 0) = ofInt 40 (if bitOf (s.rd I.cmode (rbank s c.val)) 12 then clampS 40 x0 else x0) ∧
      t.rd I.ac (16 * rbank s c.val + 2 * n.toNat + 1) = ofInt 40 (if bitOf (s.rd I.cmode (rbank s c.val)) 12 then clampS 40 x1 else x1) ∧
      ∀ k, k < 8 → bitOf ((settled t c.val).rd I.acov (rbank s c.val)) k =
        (bitOf (s.rd I.acov (rbank s c.val)) k || (k == n.toNat && [x0, x1].any fun x => !fitsS 40 x))) := by
  have he : accWrite s (rbank s c.val) n.toNat 0 x0 ++ accWrite s (rbank s c.val) n.toNat 1 x1 =
      accEffs s (rbank s c.val) n.toNat [(0, x0), (1, x1)] := by simp [accEffs]
  obtain ⟨h1, h2, h3, h4⟩ := exec_acc h n.toNat [(0, x0), (1, x1)] n.isLt hov rfl
  have hs := sat_still (ready_inFlight h)
  refine ⟨_, by rw [hi, he, h1], h2, ?_, ?_, fun k _ => ?_⟩
  · rw [h3]
    simp [afterLandings, putLanding, Landing.into, hs, ← store_eq]
    exact Nat.mod_eq_of_lt (accStore_lt _ _)
  · rw [h3]
    simp [afterLandings, putLanding, Landing.into, hs, ← store_eq]
    exact Nat.mod_eq_of_lt (accStore_lt _ _)
  · rw [h4]; simp [accOv]

theorem one_half {s : State} {c : Fin 68} (h : CoreReady s c.val) (i : Instr) (n : BitVec 3) (hh : Nat) (x : Int)
    (hov : bitOf (s.rd I.cmode (rbank s c.val)) 15 = false)
    (hi : exec i s = go (syllable s c.val true clsM .only (accWrite s (rbank s c.val) n.toNat hh x) [])) :
    Does i s (fun t => Issued s t c.val [(I.ac, 16 * rbank s c.val + 2 * n.toNat + hh)] [(I.acov, rbank s c.val)] ∧
      t.rd I.ac (16 * rbank s c.val + 2 * n.toNat + hh) = ofInt 40 (if bitOf (s.rd I.cmode (rbank s c.val)) 12 then clampS 40 x else x) ∧
      ∀ k, k < 8 → bitOf ((settled t c.val).rd I.acov (rbank s c.val)) k =
        (bitOf (s.rd I.acov (rbank s c.val)) k || (k == n.toNat && [x].any fun x => !fitsS 40 x))) := by
  have he : accWrite s (rbank s c.val) n.toNat hh x = accEffs s (rbank s c.val) n.toNat [(hh, x)] := by simp [accEffs]
  obtain ⟨h1, h2, h3, h4⟩ := exec_acc h n.toNat [(hh, x)] n.isLt hov rfl
  have hs := sat_still (ready_inFlight h)
  refine ⟨_, by rw [hi, he, h1], h2, ?_, fun k _ => ?_⟩
  · rw [h3]
    simp [afterLandings, putLanding, Landing.into, hs, ← store_eq]
    exact Nat.mod_eq_of_lt (accStore_lt _ _)
  · rw [h4]; simp [accOv]

theorem acc_case {s : State} {c : Fin 68} (h : CoreReady s c.val) (i : Instr) (d : BitVec 3) (f : Nat → Int)
    (hov : bitOf (s.rd I.cmode (rbank s c.val)) 15 = false)
    (hi : exec i s = go (syllable s c.val true clsM .only (accWrite s (rbank s c.val) d.toNat 0 (f 0) ++ accWrite s (rbank s c.val) d.toNat 1 (f 1)) [])) :
    Does i s (fun t => Issued s t c.val [(I.ac, 16 * rbank s c.val + 2 * d.toNat), (I.ac, 16 * rbank s c.val + 2 * d.toNat + 1)] [(I.acov, rbank s c.val)] ∧
      (∀ h, h < 2 → t.rd I.ac (16 * rbank s c.val + 2 * d.toNat + h) =
        ofInt 40 (if bitOf (s.rd I.cmode (rbank s c.val)) 12 then clampS 40 (f h) else f h)) ∧
      ∀ k, k < 8 → bitOf ((settled t c.val).rd I.acov (rbank s c.val)) k =
        (bitOf (s.rd I.acov (rbank s c.val)) k || (k == d.toNat && (!fitsS 40 (f 0) || !fitsS 40 (f 1))))) := by
  obtain ⟨t, e, h1, h2, h3, h4⟩ := two_halves h i d (f 0) (f 1) hov hi
  refine ⟨t, e, h1, fun k hk => ?_, fun k hk => ?_⟩
  · have : k = 0 ∨ k = 1 := by omega
    rcases this with rfl | rfl
    · exact h2
    · exact h3
  · rw [h4 k hk]; simp

theorem D_two {s u : State} {b k v : Nat} (hs : inFlight s b = []) (hu : inFlight u b = []) (hr : u.rd I.rrb b = s.rd I.rrb b) (hv : v < 2 ^ 16)
    (h : u.rd I.d (32 * b + physD s b k) = v % 2 ^ 16) : readD u b k = v := by
  unfold readD
  rw [cr_still hu, physD_still hs hu hr, h]; exact Nat.mod_eq_of_lt hv

theorem late_D {s : State} {c : Fin 68} (h : CoreReady s c.val) (i : Instr) (k v : Nat) (hv : v < 2 ^ 16)
    (hi : exec i s = sSyl s c.val true [putD s (rbank s c.val) k v 2] []) :
    Does i s (fun t => Issued s t c.val [] [dCell s (rbank s c.val) k] ∧ readD (settled t c.val) (rbank s c.val) k = v) := by
  obtain ⟨h1, h2, h3, h4, h5⟩ := exec_late h clsS (by decide) [putD s (rbank s c.val) k v 2] (by simp [putD, Quiet, resultCells])
    (by simp [putD]) [dCell s (rbank s c.val) k] (by simp [putD, newOf, putLanding, dCell, I.d, I.rrb]) rfl
  refine ⟨_, by rw [hi, sSyl, h1], h2, D_two (ready_inFlight h) h4 h5 hv ?_⟩
  rw [h3 _ (by decide)]
  simp [putD, newOf, afterLandings, putLanding, Landing.into, I.d]

theorem late_word {s : State} {c : Fin 68} (h : CoreReady s c.val) (i : Instr) (k v : Nat) (hk : k < 32) (hv : v < 2 ^ 32)
    (hi : exec i s = sSyl s c.val true (putWord s (rbank s c.val) k v 2) []) :
    Does i s (fun t => Issued s t c.val [] (wordCells s (rbank s c.val) k) ∧ readWord (settled t c.val) (rbank s c.val) k = v) := by
  have hno : ∀ (cs : List (Fld × Nat)) (v a : Nat), Eff.overflow a ∉ putCells cs v 2 := by
    intro cs
    induction cs with
    | nil => simp [putCells]
    | cons p r ih => intro v; simp [putCells, ih]
  have hf : ∀ p ∈ wordCells s (rbank s c.val) k, p.1 ≠ I.rrb := by
    unfold wordCells; split <;> simp [I.d, I.p, I.rrb]
  obtain ⟨h1, h2, h3, h4, h5⟩ := exec_late h clsS (by decide) (putWord s (rbank s c.val) k v 2)
    (quiet_putCells _ _ _ (wordCells_fld s _ k)) (hno _ _) (wordCells s (rbank s c.val) k) (by
      unfold putWord
      rw [new_putCells]
      intro l hl
      have hm := spreadOver_mem _ _ _ l hl
      exact ⟨(spreadOver_left _ _ _ l hl).1, (spreadOver_left _ _ _ l hl).2, hf _ hm, _, hm, rfl, rfl⟩) rfl
  refine ⟨_, by rw [hi, sSyl, h1], h2, readWord_spread (lat := 2) hk (ready_inFlight h) h4 h5 hv ?_⟩
  intro f j hfj
  rw [h3 f (wordCells_fld s _ k _ hfj)]
  unfold putWord
  rw [new_putCells]

theorem fit_eq (s : State) (b : Nat) (hs : inFlight s b = []) : modeMSH s b = signedOf 4 (bits (s.rd I.cmode b) 3 0) := by
  unfold modeMSH modeReg; rw [cr_still hs]

theorem b2n_two (p : Bool) : b2n p % 2 = b2n p := by cases p <;> rfl

theorem late_DV {s : State} {c : Fin 68} (h : CoreReady s c.val) (i : Instr) (k r : Nat) (v : Bool) (hv : r < 2 ^ 16)
    (hi : exec i s = sSyl s c.val true [putD s (rbank s c.val) k r 2, .put I.flV (rbank s c.val) (b2n v) 2] []) :
    Does i s (fun t => Issued s t c.val [] [dCell s (rbank s c.val) k, (I.flV, rbank s c.val)] ∧
      readD (settled t c.val) (rbank s c.val) k = r ∧ (settled t c.val).rd I.flV (rbank s c.val) = b2n v) := by
  obtain ⟨h1, h2, h3, h4, h5⟩ := exec_late h clsS (by decide) [putD s (rbank s c.val) k r 2, .put I.flV (rbank s c.val) (b2n v) 2]
    (by simp [putD, Quiet, resultCells]) (by simp [putD]) [dCell s (rbank s c.val) k, (I.flV, rbank s c.val)]
    (by simp [putD, newOf, putLanding, dCell, I.d, I.rrb, I.flV]) rfl
  refine ⟨_, by rw [hi, sSyl, h1], h2, D_two (ready_inFlight h) h4 h5 hv ?_, ?_⟩
  · rw [h3 _ (by decide)]
    simp [putD, newOf, afterLandings, putLanding, Landing.into, I.d, I.flV]
  · rw [h3 _ (by decide)]
    simp [putD, newOf, afterLandings, putLanding, Landing.into, I.d, I.flV, b2n_two]

theorem late_ZV {s : State} {c : Fin 68} (h : CoreReady s c.val) (i : Instr) (k r q : Nat) (v : Bool) (hk : k + 1 < 32)
    (hr : r < 2 ^ 16) (hq : q < 2 ^ 16)
    (hi : exec i s = sSyl s c.val true [putD s (rbank s c.val) k r 2, putD s (rbank s c.val) (k + 1) q 2,
      .put I.flV (rbank s c.val) (b2n v) 2] []) :
    Does i s (fun t => Issued s t c.val [] [dCell s (rbank s c.val) k, dCell s (rbank s c.val) (k + 1), (I.flV, rbank s c.val)] ∧
      readD (settled t c.val) (rbank s c.val) k = r ∧ readD (settled t c.val) (rbank s c.val) (k + 1) = q ∧
      (settled t c.val).rd I.flV (rbank s c.val) = b2n v) := by
  have hne : physD s (rbank s c.val) k ≠ physD s (rbank s c.val) (k + 1) := fun he =>
    absurd ((physD_inj s _ (by omega) (by omega)).mp he) (by omega)
  obtain ⟨h1, h2, h3, h4, h5⟩ := exec_late h clsS (by decide) [putD s (rbank s c.val) k r 2, putD s (rbank s c.val) (k + 1) q 2,
      .put I.flV (rbank s c.val) (b2n v) 2]
    (by simp [putD, Quiet, resultCells]) (by simp [putD]) [dCell s (rbank s c.val) k, dCell s (rbank s c.val) (k + 1), (I.flV, rbank s c.val)]
    (by simp [putD, newOf, putLanding, dCell, I.d, I.rrb, I.flV]) rfl
  refine ⟨_, by rw [hi, sSyl, h1], h2, D_two (ready_inFlight h) h4 h5 hr ?_, D_two (ready_inFlight h) h4 h5 hq ?_, ?_⟩
  · rw [h3 _ (by decide)]
    simp [putD, newOf, afterLandings, putLanding, Landing.into, I.d, I.flV, Ne.symm hne]
  · rw [h3 _ (by decide)]
    simp [putD, newOf, afterLandings, putLanding, Landing.into, I.d, I.flV]
  · rw [h3 _ (by decide)]
    simp [putD, newOf, afterLandings, putLanding, Landing.into, I.d, I.flV, b2n_two]

theorem late_WV {s : State} {c : Fin 68} (h : CoreReady s c.val) (i : Instr) (k r : Nat) (v : Bool) (hk : k < 32) (hr : r < 2 ^ 32)
    (hi : exec i s = sSyl s c.val true (putWord s (rbank s c.val) k r 2 ++ [.put I.flV (rbank s c.val) (b2n v) 2]) []) :
    Does i s (fun t => Issued s t c.val [] (wordCells s (rbank s c.val) k ++ [(I.flV, rbank s c.val)]) ∧
      readWord (settled t c.val) (rbank s c.val) k = r ∧ (settled t c.val).rd I.flV (rbank s c.val) = b2n v) := by
  have hno : ∀ (cs : List (Fld × Nat)) (v a : Nat), Eff.overflow a ∉ putCells cs v 2 := by
    intro cs
    induction cs with
    | nil => simp [putCells]
    | cons p r ih => intro v; simp [putCells, ih]
  have hf : ∀ p ∈ wordCells s (rbank s c.val) k, p.1 ≠ I.rrb ∧ p.1.id ≠ I.flV.id := by
    unfold wordCells; split <;> simp [I.d, I.p, I.rrb, I.flV]
  have hnew : (putWord s (rbank s c.val) k r 2 ++ [Eff.put I.flV (rbank s c.val) (b2n v) 2]).flatMap (newOf (rbank s c.val)) =
      spreadOver (wordCells s (rbank s c.val) k) r 2 ++ [putLanding I.flV (rbank s c.val) (b2n v) 2] := by
    unfold putWord
    rw [List.flatMap_append, new_putCells]; rfl
  obtain ⟨h1, h2, h3, h4, h5⟩ := exec_late h clsS (by decide) (putWord s (rbank s c.val) k r 2 ++ [.put I.flV (rbank s c.val) (b2n v) 2])
    (by
      intro x hx
      rcases List.mem_append.mp hx with hx | hx
      · exact quiet_putCells _ _ _ (wordCells_fld s _ k) x hx
      · simp at hx; subst hx; simp [Quiet, resultCells])
    (by intro a ha
        rcases List.mem_append.mp ha with ha | ha
        · exact hno _ _ _ ha
        · simp at ha) (wordCells s (rbank s c.val) k ++ [(I.flV, rbank s c.val)]) (by
      rw [hnew]
      intro l hl
      rcases List.mem_append.mp hl with hl | hl
      · have hm := spreadOver_mem _ _ _ l hl
        exact ⟨(spreadOver_left _ _ _ l hl).1, (spreadOver_left _ _ _ l hl).2, (hf _ hm).1, _, List.mem_append_left _ hm, rfl, rfl⟩
      · simp at hl; subst hl
        exact ⟨rfl, rfl, show I.flV ≠ I.rrb by decide, (I.flV, rbank s c.val), by simp, rfl, rfl⟩) rfl
  refine ⟨_, by rw [hi, sSyl, h1], h2, readWord_spread (lat := 2) hk (ready_inFlight h) h4 h5 hr ?_, ?_⟩
  · intro f j hfj
    rw [h3 f (wordCells_fld s _ k _ hfj), hnew, afterLandings_append]
    simp [afterLandings, putLanding, (hf _ hfj).2.symm]
  · rw [h3 _ (by decide), hnew, afterLandings_append]
    simp [afterLandings, putLanding, Landing.into, I.flV, b2n_two]

theorem ac_one {s : State} {c : Fin 68} (h : CoreReady s c.val) (i : Instr) (j v : Nat) (m : Option Nat)
    (x : Eff) (hxe : x = match m with | none => Eff.put I.ac j v 2 | some m => Eff.putBits I.ac j v m 2)
    (hi : exec i s = sSyl s c.val true [x] []) (r : Nat) (hr : r < 2 ^ 40)
    (hval : (Landing.into ⟨1, I.ac, j, v, m⟩ (s.rd I.ac j)) % 2 ^ 40 = r) :
    Does i s (fun t => Issued s t c.val [] [(I.ac, j)] ∧ (settled t c.val).rd I.ac j = r) := by
  have hx : ∀ e ∈ [x], Quiet e := by subst hxe; cases m <;> simp [Quiet, resultCells]
  have hnew : [x].flatMap (newOf (rbank s c.val)) = [⟨2, I.ac, j, v, m⟩] := by subst hxe; cases m <;> rfl
  refine ⟨_, by rw [hi, sSyl, exec_quiet h clsS _ (by decide) hx (.inl (by subst hxe; cases m <;> simp))], ?_, ?_⟩
  · exact issued_quiet s c.val _ hx _ _ (by simp [hnew]) (by simp [hnew])
  · rw [settled_quiet s c.val _ hx _ _ (by decide), hnew]
    have hs : landOrder (stay [(⟨2, I.ac, j, v, m⟩ : Landing)]) = [⟨1, I.ac, j, v, m⟩] := by cases m <;> simp [stay, landOrder]
    rw [hs]
    simp only [afterLandings, and_self, if_true, List.filter_cons]
    exact hval

theorem land_low (v : Nat) : Nat.land v (255 * 2 ^ 32) = v / 2 ^ 32 % 256 * 2 ^ 32 := by
  apply Nat.eq_of_testBit_eq
  intro i
  have h0 : (255 * 2 ^ 32 : Nat) = (2 ^ 8 - 1) <<< 32 := by decide
  have h1 : Nat.land v (255 * 2 ^ 32) = v &&& (2 ^ 8 - 1) <<< 32 := by rw [← h0]; rfl
  have h2 : v / 2 ^ 32 % 256 * 2 ^ 32 = ((v >>> 32) % 2 ^ 8) <<< 32 := by
    rw [Nat.shiftLeft_eq, Nat.shiftRight_eq_div_pow, show (256 : Nat) = 2 ^ 8 from rfl]
  rw [h1, h2, Nat.testBit_and, Nat.testBit_shiftLeft, Nat.testBit_shiftLeft, Nat.testBit_mod_two_pow, Nat.testBit_shiftRight,
    Nat.testBit_two_pow_sub_one]
  by_cases hi : 32 ≤ i
  · have : 32 + (i - 32) = i := by omega
    simp [hi, this, Bool.and_comm]
  · simp [hi]

end Sys2Proof.Machine
end

