-- ==== Sys2Proof/Laws/Memory.lean ====
section
/-! SUPPORT.  Memory: reads after writes, and every operation keeps the canonical form. -/

namespace Sys2Proof.Machine

/-! ## Reads after writes -/

theorem State.byte_putByte (s : State) (a x : Nat) (b : Byte) : (s.putByte a b).byte x = if a = x then b else s.byte x := by
  simp [State.byte, State.putByte, Tbl.get_put]

/-- A byte string written at a. -/
theorem State.byte_writeBytes (s : State) (a x : Nat) (l : List Byte) :
    (s.writeBytes a l).byte x = if h : a ≤ x ∧ x < a + l.length then l[x - a] else s.byte x := by
  induction l generalizing s a with
  | nil =>
    simp only [State.writeBytes, List.length_nil]
    rw [dif_neg (by omega)]
  | cons b r ih =>
    simp only [State.writeBytes]
    rw [ih, State.byte_putByte]
    by_cases h1 : a + 1 ≤ x ∧ x < a + 1 + r.length
    · have h2 : a ≤ x ∧ x < a + (b :: r).length := by simp; omega
      rw [dif_pos h1, dif_pos h2]
      have : x - a = x - (a + 1) + 1 := by omega
      simp [this]
    · rw [dif_neg h1]
      by_cases hx : a = x
      · subst hx
        rw [if_pos rfl, dif_pos (by simp)]
        simp
      · rw [if_neg hx, dif_neg (by simp; omega)]

theorem leBytes_length (n v : Nat) : (leBytes n v).length = n := by
  induction n generalizing v with
  | zero => rfl
  | succ n ih => simp [leBytes, ih]

theorem leBytes_get (n v k : Nat) (h : k < (leBytes n v).length) : (leBytes n v)[k] = BitVec.ofNat 8 (v / 256 ^ k) := by
  induction n generalizing v k with
  | zero => simp [leBytes] at h
  | succ n ih =>
    cases k with
    | zero => simp [leBytes]
    | succ k =>
      simp only [leBytes, List.getElem_cons_succ]
      rw [ih, Nat.div_div_eq_div_mul, Nat.pow_succ, Nat.mul_comm 256]

/-- A little-endian number written at a. -/
theorem State.byte_writeLE (s : State) (a n v x : Nat) : (s.writeLE a n v).byte x =
    if a ≤ x ∧ x < a + n then BitVec.ofNat 8 (v / 256 ^ (x - a)) else s.byte x := by
  unfold State.writeLE
  rw [State.byte_writeBytes]
  by_cases h : a ≤ x ∧ x < a + n
  · rw [dif_pos (by rw [leBytes_length]; exact h), if_pos h, leBytes_get]
  · rw [dif_neg (by rw [leBytes_length]; exact h), if_neg h]

theorem State.writeBytes_same (s : State) (a : Nat) (l : List Byte) : s.writeBytes a l = { s with mem := (s.writeBytes a l).mem } := by
  induction l generalizing s a with
  | nil => rfl
  | cons b r ih =>
    simp only [State.writeBytes]
    conv => lhs; rw [ih]
    rfl

@[simp] theorem State.writeBytes_rd (s : State) (a : Nat) (l : List Byte) (g : Fld) (j : Nat) :
    (s.writeBytes a l).rd g j = s.rd g j := by rw [State.writeBytes_same]; rfl

/-- What is written at a reads back. -/
theorem State.readBytes_writeBytes (s : State) (a : Nat) (l : List Byte) : (s.writeBytes a l).readBytes a l.length = l := by
  unfold State.readBytes
  apply List.ext_getElem
  · simp
  · intro i h1 h2
    simp only [List.length_map, List.length_range] at h1
    simp only [List.getElem_map, List.getElem_range, State.byte_writeBytes]
    rw [dif_pos (by omega)]
    congr 1; omega

theorem ofLE_leBytes (n v : Nat) : ofLE (leBytes n v) = v % 256 ^ n := by
  induction n generalizing v with
  | zero => simp [leBytes, ofLE, Nat.mod_one]
  | succ n ih =>
    have h : 256 ^ (n + 1) = 256 * 256 ^ n := by rw [Nat.pow_succ, Nat.mul_comm]
    rw [h, Nat.mod_mul]
    simp only [leBytes, ofLE, ih, BitVec.toNat_ofNat, Nat.reducePow]

/-- A number written little-endian reads back. -/
theorem State.readLE_writeLE (s : State) (a n v : Nat) : (s.writeLE a n v).readLE a n = v % 256 ^ n := by
  unfold State.readLE State.writeLE
  have := State.readBytes_writeBytes s a (leBytes n v)
  rw [leBytes_length] at this
  rw [this, ofLE_leBytes]

/-! ## The canonical form -/

theorem State.putByte_wf (s : State) (a : Nat) (b : Byte) (h : Memory.wf s.mem = true) : Memory.wf (s.putByte a b).mem = true :=
  Tbl.wf_put _ _ _ _ h

theorem State.writeBytes_wf (s : State) (a : Nat) (l : List Byte) (h : Memory.wf s.mem = true) :
    Memory.wf (s.writeBytes a l).mem = true := by
  induction l generalizing s a with
  | nil => exact h
  | cons b r ih => exact ih _ _ (State.putByte_wf s a b h)

theorem State.writeLE_wf (s : State) (a n v : Nat) (h : Memory.wf s.mem = true) : Memory.wf (s.writeLE a n v).mem = true :=
  State.writeBytes_wf _ _ _ h

theorem State.copyMem_wf (s : State) (a b n : Nat) (h : Memory.wf s.mem = true) : Memory.wf (s.copyMem a b n).mem = true :=
  Tbl.wf_copyRange _ _ _ _ _ h

theorem State.loseMem_wf (s : State) (a n : Nat) (h : Memory.wf s.mem = true) : Memory.wf (s.loseMem a n).mem = true :=
  Tbl.wf_clearRange _ _ _ _ h

theorem State.over_wf {α : Type} (s : State) (l : List α) (f : State → α → State)
    (hf : ∀ s a, Memory.wf s.mem = true → Memory.wf (f s a).mem = true) (h : Memory.wf s.mem = true) :
    Memory.wf (s.over l f).mem = true := by
  unfold State.over
  induction l generalizing s with
  | nil => exact h
  | cons a r ih => exact ih _ (hf s a h)

theorem Tbl.get_keep {α : Type} (d : α) (p : Nat → Bool) (t : Tbl α) (k : Nat) :
    Tbl.get d (Tbl.keep p t) k = if p k then Tbl.get d t k else d := by
  induction t with
  | nil => simp [Tbl.keep, Tbl.get]
  | cons e r ih =>
    obtain ⟨i, a⟩ := e
    simp only [Tbl.keep] at ih
    by_cases hp : p i
    · simp only [Tbl.keep, List.filter_cons, hp, if_true, Tbl.get, ih]
      by_cases hk : i = k
      · subst hk; simp [hp]
      · simp [hk]
    · simp only [Tbl.keep, List.filter_cons, hp, Tbl.get]
      by_cases hk : i = k
      · subst hk; simp [hp, ih]
      · simp [hk, ih]

theorem Tbl.get_foldl_put {α : Type} [DecidableEq α] (d : α) (src dst : Nat) (l : Tbl α) (u : Tbl α) (j : Nat)
    (h : ∀ e ∈ l, dst + (e.1 - src) ≠ j) : Tbl.get d (l.foldl (fun u e => Tbl.put d (dst + (e.1 - src)) e.2 u) u) j = Tbl.get d u j := by
  induction l generalizing u with
  | nil => rfl
  | cons e r ih =>
    rw [List.foldl_cons, ih _ fun x hx => h x (List.mem_cons_of_mem _ hx), Tbl.get_put, if_neg (h e (by simp))]

theorem State.byte_copyMem_other (s : State) (a b n x : Nat) (h : x < b ∨ b + n ≤ x) : (s.copyMem a b n).byte x = s.byte x := by
  show Tbl.get _ (Tbl.copyRange _ a b n s.mem) x = Tbl.get _ s.mem x
  unfold Tbl.copyRange
  rw [Tbl.get_foldl_put, Tbl.get_keep, if_pos]
  · simp; omega
  · intro e he
    have := (List.mem_filter.mp he).2
    have := of_decide_eq_true this
    omega

theorem State.readLE_copyMem_other (s : State) (a b n x m : Nat) (h : x + m ≤ b ∨ b + n ≤ x) : (s.copyMem a b n).readLE x m = s.readLE x m := by
  unfold State.readLE State.readBytes
  congr 1
  refine List.map_congr_left fun k hk => ?_
  have := List.mem_range.mp hk
  exact State.byte_copyMem_other _ _ _ _ _ (by omega)

end Sys2Proof.Machine
end

