-- ==== Sys2Proof/Laws/CaseMem.lean ====
section
/-! SUPPORT.  What the accesses of a ready core do. -/

namespace Sys2Proof.Machine

open Safety

theorem access_frame {s : State} {c : Nat} (h : CoreReady s c) (effs : List Eff) {u : State} {new : List Landing}
    (hm : meetCauses (fetched s c) c effs = []) (hq : faultAddrs (fetched s c) c effs = [])
    (hw : effs.any (queueWaits (fetched s c)) = false) (ho : ∀ a, Eff.overflow a ∉ effs) (ha : bundleAct effs = none)
    (hp : effsNow c (begun s c) (issueOrder c effs) = (u, new)) (hk : KeepsCore s u c)
    (hl : ∀ l ∈ new, l.fld ∈ resultCells) (now late : List (Fld × Nat))
    (hnow : ∀ l ∈ new, l.left ≤ 1 → ∃ p ∈ now, p.1.id = l.fld.id ∧ p.2 = l.inst)
    (hlate : ∀ l ∈ new, ∃ p ∈ now ++ late, p.1.id = l.fld.id ∧ p.2 = l.inst) :
    syllable s c true clsL .only effs [] = afterAccess s u c new (macOld (fetched s c) effs) ∧
    IssuedAfter s u (afterAccess s u c new (macOld (fetched s c) effs)) c now late :=
  ⟨exec_access h clsL effs (by decide) hm hq hw ho ha hp hk hl, issued_access hk new _ hl now late hnow hlate⟩

theorem spread_get (reg : Nat) (cell : Nat → Nat) (hinj : ∀ k l, cell k = cell l → k = l) (lat : Nat) :
    ∀ (m o v k old : Nat), k < m → afterLandings I.d (cell (o + k))
      (spreadOver ((List.range m).map fun k => (I.d, cell (o + k))) v lat) old = v / 2 ^ (16 * k) % 2 ^ 16 := by
  intro m
  induction m with
  | zero => intro o v k old hk; omega
  | succ m ih =>
    intro o v k old hk
    rw [List.range_succ_eq_map, List.map_cons, List.map_map]
    have hf : ((fun k => (I.d, cell (o + k))) ∘ Nat.succ) = fun k => (I.d, cell (o + 1 + k)) := by
      funext k; simp only [Function.comp]; congr 2; omega
    rw [hf]
    simp only [spreadOver, afterLandings, putLanding]
    cases k with
    | zero =>
      simp only [Nat.add_zero, and_self, if_true, Landing.into]
      rw [afterLandings_none]
      · simp [I.d]
      · intro l hl _ hi
        have hm := spreadOver_mem _ _ _ l hl
        simp at hm
        obtain ⟨j, hj, hj2, hj3⟩ := hm
        have := hinj _ _ (hj3.trans hi)
        omega
    | succ k =>
      have : o + (k + 1) = o + 1 + k := by omega
      rw [this, ih (o + 1) _ k _ (by omega), Nat.div_div_eq_div_mul, ← Nat.pow_add]
      have hw : I.d.w = 16 := rfl
      rw [hw]
      congr 3; omega

theorem inj_phys (s : State) (b n reg : Nat) (hr : reg + n ≤ 32) : ∀ k l, k < n → l < n →
    32 * b + physD s b (reg + k) = 32 * b + physD s b (reg + l) → k = l := by
  intro k l hk hl he
  have := (physD_inj s b (k := reg + k) (l := reg + l) (by omega) (by omega)).mp (by omega)
  omega

theorem spread_get' (cell : Nat → Nat) (n : Nat) (hinj : ∀ k l, k < n → l < n → cell k = cell l → k = l) (lat v k old : Nat) (hk : k < n) :
    afterLandings I.d (cell k) (spreadOver ((List.range n).map fun k => (I.d, cell k)) v lat) old = v / 2 ^ (16 * k) % 2 ^ 16 := by
  let cell' : Nat → Nat := fun k => if k < n then cell k else (List.range n).foldr (fun j a => max (cell j + 1) a) 0 + k
  have hbig : ∀ j, j < n → cell j < (List.range n).foldr (fun j a => max (cell j + 1) a) 0 := by
    intro j hj
    have : ∀ l : List Nat, j ∈ l → cell j < l.foldr (fun j a => max (cell j + 1) a) 0 := by
      intro l
      induction l with
      | nil => simp
      | cons a r ih =>
        intro hm
        simp only [List.foldr_cons]
        rcases List.mem_cons.mp hm with rfl | hm
        · omega
        · have := ih hm; omega
    exact this _ (by simpa using hj)
  have hinj' : ∀ k l, cell' k = cell' l → k = l := by
    intro k l he
    simp only [cell'] at he
    split at he <;> split at he
    · exact hinj _ _ ‹_› ‹_› he
    · have := hbig k ‹_›; omega
    · have := hbig l ‹_›; omega
    · omega
  have := spread_get 0 cell' hinj' lat n 0 v k old hk
  have e1 : ((List.range n).map fun k => (I.d, cell' (0 + k))) = (List.range n).map fun k => (I.d, cell k) := by
    apply List.map_congr_left
    intro j hj
    have : j < n := by simpa using hj
    simp [cell', this]
  rw [e1] at this
  simpa [cell', hk] using this

theorem stay_three (p : Option Landing) (l : List Landing) (hp : ∀ x, p = some x → x.left ≤ 1) (h : ∀ x ∈ l, x.left = 3 ∧ x.mask = none) :
    landOrder (stay (l ++ p.toList)) = l.map fun x => { x with left := 2 } := by
  have h1 : stay (l ++ p.toList) = l.map fun x => { x with left := 2 } := by
    unfold stay
    rw [List.filter_append, List.filter_eq_self.mpr fun x hx => by simp [(h x hx).1],
      List.filter_eq_nil_iff.mpr fun x hx => by
        have := hp x (by simpa using hx)
        simp; omega, List.append_nil]
    apply List.map_congr_left
    intro x hx; simp [(h x hx).1]
  have hm : ∀ y ∈ l.map (fun x => ({ x with left := 2 } : Landing)), y.left = 2 ∧ y.mask = none := by
    intro y hy
    obtain ⟨x, hx, rfl⟩ := List.mem_map.mp hy
    exact ⟨rfl, (h x hx).2⟩
  rw [h1]
  generalize l.map (fun x => ({ x with left := 2 } : Landing)) = m at hm
  unfold landOrder
  have e1 : m.filter (fun x => x.left == 1) = [] := List.filter_eq_nil_iff.mpr fun x hx => by simp [(hm x hx).1]
  have e2 : m.filter (fun x => x.left == 2) = m := List.filter_eq_self.mpr fun x hx => by simp [(hm x hx).1]
  have e3 : m.filter (fun x => x.left == 3) = [] := List.filter_eq_nil_iff.mpr fun x hx => by simp [(hm x hx).1]
  have e4 : m.filter (fun x => x.mask.isNone) = m := List.filter_eq_self.mpr fun x hx => by simp [(hm x hx).2]
  have e5 : m.filter (fun x => x.mask.isSome) = [] := List.filter_eq_nil_iff.mpr fun x hx => by simp [(hm x hx).2]
  simp [e1, e2, e3, e4, e5]

theorem afterLandings_left2 (g : Fld) (j : Nat) (l : List Landing) (v : Nat) :
    afterLandings g j (l.map fun x => { x with left := 2 }) v = afterLandings g j l v := by
  induction l generalizing v with
  | nil => rfl
  | cons a l ih => simp [afterLandings, Landing.into, ih]

theorem load_case {s : State} {c : Fin 68} (h : CoreReady s c.val) (i : Instr) (port : Bool) (mode : LMode) (reg : BitVec 5) (ptr : BitVec 3) (n : Nat)
    (hn : n = 1 ∨ n = 2 ∨ n = 4)
    (hi : exec i s = loadD s c.val true .only port mode reg.toNat ptr.toNat n)
    (ha : (addressing s (rbank s c.val) port mode ptr.toNat (2 * n) false).illegal = false)
    (hb : (addressing s (rbank s c.val) port mode ptr.toNat (2 * n) false).badLen = false) (hr : reg.toNat % n = 0)
    (hm : meetOf (fetched s c.val) c.val (.load (portSlot port) (2 * n) (addressing s (rbank s c.val) port mode ptr.toNat (2 * n) false).addr (dCells s (rbank s c.val) reg.toNat n)) = .ok)
    (hk : KeepsCore s (coreRead (begun s c.val) c.val (addressing s (rbank s c.val) port mode ptr.toNat (2 * n) false).addr (2 * n)).2 c.val) :
    Does i s (fun t =>
        IssuedAfter s (coreRead (begun s c.val) c.val (addressing s (rbank s c.val) port mode ptr.toNat (2 * n) false).addr (2 * n)).2 t c.val (if (addressing s (rbank s c.val) port mode ptr.toNat (2 * n) false).after.isSome then [(I.p, 16 * (rbank s c.val) + ptrOf port ptr.toNat)] else []) (dCells s (rbank s c.val) reg.toNat n) ∧
        (∀ v, (addressing s (rbank s c.val) port mode ptr.toNat (2 * n) false).after = some v → t.rd I.p (16 * (rbank s c.val) + ptrOf port ptr.toNat) = v % 2 ^ 32) ∧
        ∀ k, k < n → (settled t c.val).rd I.d (32 * (rbank s c.val) + physD s (rbank s c.val) (reg.toNat + k)) = (coreRead (begun s c.val) c.val (addressing s (rbank s c.val) port mode ptr.toNat (2 * n) false).addr (2 * n)).1 / 2 ^ (16 * k) % 2 ^ 16) := by
  have hi2 : exec i s = go (syllable s c.val true clsL .only
      ([.load (portSlot port) (2 * n) (addressing s (rbank s c.val) port mode ptr.toNat (2 * n) false).addr (dCells s (rbank s c.val) reg.toNat n)] ++ pointerPut (rbank s c.val) port ptr.toNat (addressing s (rbank s c.val) port mode ptr.toNat (2 * n) false).after) []) := by
    rw [hi]; unfold loadD access
    simp [ha, hb, hr]
  generalize addressing s (rbank s c.val) port mode ptr.toNat (2 * n) false = a at *
  generalize hbb : rbank s c.val = b at *
  have hreg : reg.toNat + n ≤ 32 := by have := reg.isLt; rcases hn with rfl | rfl | rfl <;> omega
  generalize hrd : coreRead (begun s c.val) c.val a.addr (2 * n) = r at *
  have hpp : ∀ (s' : State), effsNow c.val s' (pointerPut b port ptr.toNat a.after) = (s', (a.after.map fun v => putLanding I.p (16 * b + ptrOf port ptr.toNat) v 1).toList) := by
    intro s'; cases a.after <;> rfl
  have hord : issueOrder c.val ([Eff.load (portSlot port) (2 * n) a.addr (dCells s b reg.toNat n)] ++ pointerPut b port ptr.toNat a.after) =
      [Eff.load (portSlot port) (2 * n) a.addr (dCells s b reg.toNat n)] ++ pointerPut b port ptr.toNat a.after := by
    unfold issueOrder
    cases a.after <;> simp [pointerPut, Eff.isStore, Eff.isAct]
  have hmp : ∀ f j v l, meetOf (fetched s c.val) c.val (.put f j v l) = .ok := fun _ _ _ _ => rfl
  have hcell : ∀ p ∈ dCells s b reg.toNat n, p.1 = I.d := by simp [dCells]
  have hsp : ∀ l ∈ spreadOver (dCells s b reg.toNat n) r.1 3, l.fld = I.d := fun l hl => hcell _ (spreadOver_mem _ _ _ l hl)
  obtain ⟨h1, h2⟩ := access_frame h ([.load (portSlot port) (2 * n) a.addr (dCells s b reg.toNat n)] ++ pointerPut b port ptr.toNat a.after)
    (u := r.2) (new := spreadOver (dCells s b reg.toNat n) r.1 3 ++
      (a.after.map fun v => putLanding I.p (16 * b + ptrOf port ptr.toNat) v 1).toList)
    (by cases a.after <;> simp [meetCauses, hm, pointerPut, hmp]) (by cases a.after <;> simp [faultAddrs, hm, pointerPut, hmp])
    (by cases a.after <;> simp [pointerPut, queueWaits]) (by cases a.after <;> simp [pointerPut])
    (by cases a.after <;> rfl)
    (by rw [hord]; simp only [List.singleton_append, effsNow, effNow, hrd, hpp]) hk
    (by
      intro l hl
      rcases List.mem_append.mp hl with hl | hl
      · rw [hsp l hl]; decide
      · cases hh : a.after <;> rw [hh] at hl <;> simp at hl
        subst hl; simp [putLanding, resultCells])
    (if a.after.isSome then [(I.p, 16 * b + ptrOf port ptr.toNat)] else []) (dCells s b reg.toNat n)
    (by
      intro l hl h1
      rcases List.mem_append.mp hl with hl | hl
      · have := (spreadOver_left _ _ _ l hl).1; omega
      · cases hh : a.after <;> rw [hh] at hl <;> simp at hl
        subst hl; simp [putLanding])
    (by
      intro l hl
      rcases List.mem_append.mp hl with hl | hl
      · exact ⟨_, List.mem_append_right _ (spreadOver_mem _ _ _ l hl), rfl, rfl⟩
      · cases hh : a.after <;> rw [hh] at hl <;> simp at hl
        subst hl; simp [putLanding])
  have hflds : ∀ l ∈ spreadOver (dCells s b reg.toNat n) r.1 3 ++ (a.after.map fun v => putLanding I.p (16 * b + ptrOf port ptr.toNat) v 1).toList,
      l.fld ∈ resultCells := by
      intro l hl
      rcases List.mem_append.mp hl with hl | hl
      · rw [hsp l hl]; decide
      · cases hh : a.after <;> rw [hh] at hl <;> simp at hl
        subst hl; simp [putLanding, resultCells]
  have hfil : (spreadOver (dCells s b reg.toNat n) r.1 3 ++ (a.after.map fun v => putLanding I.p (16 * b + ptrOf port ptr.toNat) v 1).toList).filter (fun l => decide (l.left ≤ 1)) =
      (a.after.map fun v => putLanding I.p (16 * b + ptrOf port ptr.toNat) v 1).toList := by
    rw [List.filter_append, List.filter_eq_nil_iff.mpr, List.nil_append]
    · cases a.after <;> simp [putLanding]
    · intro l hl; have := (spreadOver_left _ _ _ l hl).1; simp; omega
  refine ⟨_, by rw [hi2, h1], h2, ?_, ?_⟩
  · intro v hv
    rw [afterAccess_result _ _ _ _ _ _ _ (by decide) hflds, hfil, hv]
    simp [afterLandings, putLanding, Landing.into, I.p]
  · intro k hk'
    rw [settled_access hk _ _ hflds _ _ (by decide), hfil, stay_three _ _ (by
      intro x hx; cases hh : a.after <;> rw [hh] at hx <;> simp at hx
      subst hx; simp [putLanding]) (fun x hx => ⟨(spreadOver_left _ _ _ x hx).1, (spreadOver_left _ _ _ x hx).2⟩), afterLandings_left2]
    exact spread_get' (fun k => 32 * b + physD s b (reg.toNat + k)) n (inj_phys s b n reg.toNat hreg) 3 _ k _ hk'

theorem horner (f : Nat → Nat) (B : Nat) : ∀ n o, (List.range' o n).foldr (fun k v => f k + B * v) 0 * B ^ o =
      ((List.range' o n).map fun k => f k * B ^ k).sum := by
  intro n
  induction n with
  | zero => intro o; simp
  | succ n ih =>
    intro o
    simp only [List.range'_succ, List.foldr_cons, List.map_cons, List.sum_cons]
    rw [← ih (o + 1), Nat.add_mul, Nat.pow_succ]
    congr 1
    generalize (List.range' (o + 1) n).foldr _ 0 = w
    rw [Nat.mul_comm B w, Nat.mul_assoc, Nat.mul_comm B]

theorem dval_sum (s : State) (b reg n : Nat) :
    dValue s b reg n = ((List.range n).map fun k => readD s b (reg + k) * 2 ^ (16 * k)).sum := by
  have h := horner (fun k => readD s b (reg + k)) (2 ^ 16) n 0
  rw [Nat.pow_zero, Nat.mul_one, ← List.range_eq_range'] at h
  unfold dValue
  rw [h]
  congr 1
  apply List.map_congr_left
  intro k _
  rw [← Nat.pow_mul]

theorem store_case {s : State} {c : Fin 68} (h : CoreReady s c.val) (i : Instr) (port : Bool) (mode : LMode) (reg : BitVec 5) (ptr : BitVec 3) (n : Nat) (v : Nat)
    (hv : v = dValue s (rbank s c.val) reg.toNat n)
    (hi : exec i s = storeD s c.val true .only port mode reg.toNat ptr.toNat n)
    (ha : (addressing s (rbank s c.val) port mode ptr.toNat (2 * n) false).illegal = false)
    (hb : (addressing s (rbank s c.val) port mode ptr.toNat (2 * n) false).badLen = false) (hr : reg.toNat % n = 0)
    (hm : meetOf (fetched s c.val) c.val (.store (portSlot port) (2 * n) (addressing s (rbank s c.val) port mode ptr.toNat (2 * n) false).addr v) = .ok)
    (hk : KeepsCore s (coreWrite (begun s c.val) c.val (addressing s (rbank s c.val) port mode ptr.toNat (2 * n) false).addr (2 * n) v) c.val) :
    Does i s (fun t =>
        IssuedAfter s (coreWrite (begun s c.val) c.val (addressing s (rbank s c.val) port mode ptr.toNat (2 * n) false).addr (2 * n) v) t c.val (if (addressing s (rbank s c.val) port mode ptr.toNat (2 * n) false).after.isSome then [(I.p, 16 * (rbank s c.val) + ptrOf port ptr.toNat)] else []) [] ∧
        (∀ v, (addressing s (rbank s c.val) port mode ptr.toNat (2 * n) false).after = some v → t.rd I.p (16 * (rbank s c.val) + ptrOf port ptr.toNat) = v % 2 ^ 32)) := by
  have hi2 : exec i s = go (syllable s c.val true clsL .only
      ([.store (portSlot port) (2 * n) (addressing s (rbank s c.val) port mode ptr.toNat (2 * n) false).addr v] ++ pointerPut (rbank s c.val) port ptr.toNat (addressing s (rbank s c.val) port mode ptr.toNat (2 * n) false).after) []) := by
    rw [hi, hv]; unfold storeD access
    simp [ha, hb, hr]
  clear hv
  generalize addressing s (rbank s c.val) port mode ptr.toNat (2 * n) false = a at *
  generalize hbb : rbank s c.val = b at *
  generalize hrd : coreWrite (begun s c.val) c.val a.addr (2 * n) v = u at *
  have hpp : ∀ (s' : State), effsNow c.val s' (pointerPut b port ptr.toNat a.after) = (s', (a.after.map fun v => putLanding I.p (16 * b + ptrOf port ptr.toNat) v 1).toList) := by
    intro s'; cases a.after <;> rfl
  have hnow : effsNow c.val (begun s c.val) (issueOrder c.val ([Eff.store (portSlot port) (2 * n) a.addr v] ++ pointerPut b port ptr.toNat a.after)) =
      (u, (a.after.map fun v => putLanding I.p (16 * b + ptrOf port ptr.toNat) v 1).toList) := by
    unfold issueOrder
    cases a.after <;> cases isSvc c.val <;> simp [pointerPut, Eff.isStore, Eff.isAct, effsNow, effNow, hrd, List.filter]
  have hmp : ∀ f j v l, meetOf (fetched s c.val) c.val (.put f j v l) = .ok := fun _ _ _ _ => rfl
  have hflds : ∀ l ∈ (a.after.map fun v => putLanding I.p (16 * b + ptrOf port ptr.toNat) v 1).toList, l.left = 1 ∧ l.fld = I.p ∧ l.inst = 16 * b + ptrOf port ptr.toNat ∧ a.after.isSome := by
    intro l hl
    cases hh : a.after <;> rw [hh] at hl <;> simp at hl
    subst hl; simp [putLanding]
  obtain ⟨h1, h2⟩ := access_frame h ([.store (portSlot port) (2 * n) a.addr v] ++ pointerPut b port ptr.toNat a.after)
    (u := u) (new := (a.after.map fun v => putLanding I.p (16 * b + ptrOf port ptr.toNat) v 1).toList)
    (by cases a.after <;> simp [meetCauses, hm, pointerPut, hmp]) (by cases a.after <;> simp [faultAddrs, hm, pointerPut, hmp])
    (by cases a.after <;> simp [pointerPut, queueWaits]) (by cases a.after <;> simp [pointerPut])
    (by cases a.after <;> rfl) hnow hk (fun l hl => by rw [(hflds l hl).2.1]; decide)
    (if a.after.isSome then [(I.p, 16 * b + ptrOf port ptr.toNat)] else []) []
    (fun l hl _ => by obtain ⟨_, e1, e2, e3⟩ := hflds l hl; simp [e3, e1, e2])
    (fun l hl => by obtain ⟨_, e1, e2, e3⟩ := hflds l hl; simp [e3, e1, e2])
  refine ⟨_, by rw [hi2, h1], h2, ?_⟩
  intro w hw
  rw [afterAccess_result _ _ _ _ _ _ _ (by decide) (fun l hl => by rw [(hflds l hl).2.1]; decide), hw]
  simp [afterLandings, putLanding, Landing.into, I.p]

theorem put_I_p {s : State} {c : Fin 68} (h : CoreReady s c.val) (port : Bool) (mode : LMode) (ptr : BitVec 3) (v : Nat) (hv : v < 2 ^ 32)
    (ha : addressing s (rbank s c.val) port mode ptr.toNat 0 true = ⟨readP s (rbank s c.val) (ptrOf port ptr.toNat), some v, false, false⟩) :
    Does (.mod c true .only port mode ptr) s (fun t => Issued s t c.val [(I.p, 16 * rbank s c.val + ptrOf port ptr.toNat)] [] ∧
      t.rd I.p (16 * rbank s c.val + ptrOf port ptr.toNat) = v) := by
  have hx : ∀ x ∈ [Eff.put I.p (16 * rbank s c.val + ptrOf port ptr.toNat) v 1], Quiet x := by simp [Quiet, resultCells]
  have hi : exec (.mod c true .only port mode ptr) s = go (syllable s c.val true clsL .only [.put I.p (16 * rbank s c.val + ptrOf port ptr.toNat) v 1] []) := by
    show execMod c true .only port mode ptr s = _
    unfold execMod access
    simp [ha, pointerPut]
  refine ⟨_, by rw [hi, exec_quiet h clsL _ (by decide) hx (.inl (by simp))], ?_, ?_⟩
  · exact issued_quiet s c.val _ hx _ _ (by simp [newOf, putLanding]) (by simp [newOf, putLanding])
  · rw [afterQuiet_result s c.val _ hx _ _ (by decide)]
    simp [newOf, putLanding, afterLandings, Landing.into, I.p]; omega

end Sys2Proof.Machine
end

