-- ==== Sys2Proof/Laws/CaseFlow.lean ====
section
/-! SUPPORT.  What branches, loops and delay bundles of a core do. -/

namespace Sys2Proof.Machine

open Safety

theorem begun_ready {s : State} {c : Nat} (g : Fld) (j : Nat) (h : I.qstall.id ≠ g.id) : (begun s c).rd g j = s.rd g j :=
  begun_rd s c g j fun he => absurd he h

/-- A syllable with a branch. -/
theorem branch_case {s : State} {c : Fin 68} (h : CoreReady s c.val) (i : Instr) (taken relative : Bool) (target : Int) (link : Option (Nat × Nat))
    (hi : exec i s = sSyl s c.val true ((link.map fun p => Eff.put I.p p.1 p.2 1).toList ++ [.act (.branch taken relative target)]) []) :
    Does i s (fun t => (Issued s t c.val ([(I.dly, rbank s c.val), (I.btaken, rbank s c.val), (I.btgt, rbank s c.val)] ++ (link.map fun p => (I.p, p.1)).toList) [] ∧
      t.rd I.dly (rbank s c.val) = 2 ∧ t.rd I.btaken (rbank s c.val) = b2n taken ∧
      t.rd I.btgt (rbank s c.val) = ofInt 32 (if relative then (pcOf s c.val : Int) + target else target)) ∧
      ∀ p, link = some p → t.rd I.p p.1 = p.2 % 2 ^ 32) := by
  have hk := begun_keeps h
  have hord : issueOrder c.val ((link.map fun p => Eff.put I.p p.1 p.2 1).toList ++ [.act (.branch taken relative target)]) =
      (link.map fun p => Eff.put I.p p.1 p.2 1).toList ++ [.act (.branch taken relative target)] := by
    unfold issueOrder
    cases link <;> simp [Eff.isStore, Eff.isAct]
  have hnow : effsNow c.val (begun s c.val) (issueOrder c.val ((link.map fun p => Eff.put I.p p.1 p.2 1).toList ++ [.act (.branch taken relative target)])) =
      (begun s c.val, (link.map fun p => putLanding I.p p.1 p.2 1).toList) := by
    rw [hord]; cases link <;> rfl
  have hact : bundleAct ((link.map fun p => Eff.put I.p p.1 p.2 1).toList ++ [.act (.branch taken relative target)]) = some (.branch taken relative target) := by
    cases link <;> rfl
  have hiss := syllable_issue h clsS _ (by decide) (by cases link <;> rfl)
    (by cases link <;> simp [faultAddrs, meetOf]) (by cases link <;> rfl)
    (by cases link <;> simp) hnow hk
  simp only [hact, actAfter] at hiss
  have hpc : (begun s c.val).rd I.pcb (rbank s c.val) = pcOf s c.val := begun_ready _ _ (by decide)
  have hadv := advance_branch (begun s c.val) (rbank s c.val) 1 taken relative target
    ((begun_ready _ _ (by decide)).trans h.2.2.2.2.2.2.2.1) ((begun_ready _ _ (by decide)).trans h.2.2.2.2.2.2.2.2.1)
  rw [hpc] at hadv
  generalize hw : advance (begun s c.val) (rbank s c.val) 1 (some (.branch taken relative target)) = w at *
  generalize hx : (if relative = true then ((pcOf s c.val : Int) + 4 * ((1 - 1 : Nat) : Int) + target : Int) else target) = x at hadv
  have hx' : (if relative then (pcOf s c.val : Int) + target else target) = x := by rw [← hx]; simp
  generalize hm : macOld (fetched s c.val) ((link.map fun p => Eff.put I.p p.1 p.2 1).toList ++ [Eff.act (.branch taken relative target)]) = m at *
  obtain ⟨b1, b2, b3, b4⟩ := begun_fields s c.val
  have hwrd : ∀ g j, (I.pcb.id = g.id → rbank s c.val ≠ j) → (I.dly.id = g.id → rbank s c.val ≠ j) → (I.btaken.id = g.id → rbank s c.val ≠ j) →
      (I.btgt.id = g.id → rbank s c.val ≠ j) → (I.qstall.id = g.id → c.val ≠ j) → w.rd g j = s.rd g j := by
    intro g j h1 h2 h3 h4 h5
    rw [hadv, State.rd_wr_other _ _ _ _ _ _ h4, State.rd_wr_other _ _ _ _ _ _ h3, State.rd_wr_other _ _ _ _ _ _ h2, State.rd_wr_other _ _ _ _ _ _ h1, begun_rd _ _ _ _ h5]
  have hlm : ∀ l ∈ (link.map fun p => putLanding I.p p.1 p.2 1).toList, l.fld = I.p ∧ l.left = 1 ∧ ∃ p, link = some p ∧ l.inst = p.1 := by
    intro l hl
    cases link <;> simp at hl
    subst hl; simp [putLanding]
  have hframe : Framed s (bundleEnd w (rbank s c.val) (link.map fun p => putLanding I.p p.1 p.2 1).toList m) c.val
      ([(I.dly, rbank s c.val), (I.btaken, rbank s c.val), (I.btgt, rbank s c.val)] ++ (link.map fun p => (I.p, p.1)).toList) [] := by
    refine framed_end ?_ ?_ ?_ _ _ _ _ ?_ ?_ ?_ ?_ ?_
    · rw [hadv]; unfold SameButCode at *; rw [b1]; rfl
    · rw [hadv]; exact b2
    · rw [hadv]; exact b3
    · intro g j hj
      apply hwrd
      · exact hj (I.pcb, rbank s c.val) (by simp)
      · exact hj (I.dly, rbank s c.val) (by simp)
      · exact hj (I.btaken, rbank s c.val) (by simp)
      · exact hj (I.btgt, rbank s c.val) (by simp)
      · exact hj (I.qstall, c.val) (by simp)
    · cases link <;> simp [I.dly, I.btaken, I.btgt, I.bank, I.p]
    · intro l hl; rw [(hlm l hl).1]; decide
    · intro l hl _
      obtain ⟨e, _, p, hp, hi⟩ := hlm l hl
      exact ⟨(I.p, p.1), by simp [hp], by rw [e], hi.symm⟩
    · intro l hl
      obtain ⟨e, _, p, hp, hi⟩ := hlm l hl
      exact ⟨(I.p, p.1), by simp [hp], by rw [e], hi.symm⟩
  have hend : ∀ g j, (I.cycle.id = g.id → rbank s c.val ≠ j) → I.p.id ≠ g.id → (bundleEnd w (rbank s c.val) (link.map fun p => putLanding I.p p.1 p.2 1).toList m).rd g j = w.rd g j := by
    intro g j hc hp
    apply bundleEnd_rd _ _ _ _ _ _ hc
    intro l hl _ he
    rw [(hlm l hl).1] at he
    exact absurd he hp
  have hwake : SameWake s (bundleEnd w (rbank s c.val) (link.map fun p => putLanding I.p p.1 p.2 1).toList m) := by
    intro g hg j
    have ne : ∀ f ∈ [I.cycle, I.p, I.pcb, I.dly, I.btaken, I.btgt, I.qstall], ∀ g ∈ wakeCells, f.id ≠ g.id := by decide
    rw [hend g j (fun h => absurd h (ne _ (by simp) g hg)) (ne _ (by simp) g hg)]
    exact hwrd g j (fun h => absurd h (ne _ (by simp) g hg)) (fun h => absurd h (ne _ (by simp) g hg)) (fun h => absurd h (ne _ (by simp) g hg)) (fun h => absurd h (ne _ (by simp) g hg)) (fun h => absurd h (ne _ (by simp) g hg))
  rw [arithDue_awake (ready_awake h) hwake, boundary_awake (ready_awake h) hwake] at hiss
  have hrb : rbank (bundleEnd w (rbank s c.val) (link.map fun p => putLanding I.p p.1 p.2 1).toList m) c.val = rbank s c.val :=
    rbank_congr _ (hwake I.bank (by simp [wakeCells]) c.val)
  refine ⟨_, by rw [hi, sSyl, hiss], ⟨⟨?_, hframe⟩, ?_, ?_, ?_⟩, ?_⟩
  · unfold pcOf at *
    rw [hrb, hend _ _ (fun h => absurd h (by decide)) (by decide), hadv, State.rd_wr_cell _ _ _ _ _ _ (by decide), State.rd_wr_cell _ _ _ _ _ _ (by decide), State.rd_wr_cell _ _ _ _ _ _ (by decide), State.rd_wr_same]
    rfl
  · rw [hend _ _ (fun h => absurd h (by decide)) (by decide), hadv, State.rd_wr_cell _ _ _ _ _ _ (by decide), State.rd_wr_cell _ _ _ _ _ _ (by decide), State.rd_wr_same]
    rfl
  · rw [hend _ _ (fun h => absurd h (by decide)) (by decide), hadv, State.rd_wr_cell _ _ _ _ _ _ (by decide), State.rd_wr_same]
    cases taken <;> rfl
  · rw [hend _ _ (fun h => absurd h (by decide)) (by decide), hadv, State.rd_wr_same, hx']
    exact Nat.mod_eq_of_lt (ofInt_lt _ _)
  · intro p hp
    rw [bundleEnd_landed _ _ _ _ _ _ (fun h => absurd h (by decide))]
    subst hp
    simp [landNow, State.over, putLanding, land, Landing.into, I.p]

theorem cond_eq (z n c v : Bool) : ∀ k : BitVec 4, k ≠ 15#4 → condHolds k.toNat z n c v =
    (k == 14#4 || [z, n != v, z || n != v, c, c && !z, n, v].getD (k.toNat / 2) false != (k.toNat % 2 == 1)) := by
  revert z n c v; decide

theorem awake_nop {s : State} {c : Fin 68} (h : CoreAwake s c.val) (inL : Bool)
    (hends : s.on I.dly (rbank s c.val) = true → atLoopEnd s (rbank s c.val) 0 = false ∧ atLoopEnd s (rbank s c.val) 1 = false)
    (now : List (Fld × Nat)) (hnow : ∀ p ∈ now, p.1 ∈ flowCells)
    (hcells : SameCells (begun s c.val) (advance (begun s c.val) (rbank s c.val) 1 none) ((I.pcb, rbank s c.val) :: now)) :
    ∃ t, exec (.nop c true inL) s = .next t ∧ Framed s t c.val now [] ∧
      (∀ g ∈ flowCells, ∀ j, t.rd g j = (advance (begun s c.val) (rbank s c.val) 1 none).rd g j) ∧
      pcOf t c.val = (advance (begun s c.val) (rbank s c.val) 1 none).rd I.pcb (rbank s c.val) := by
  have hseq : seqCauses s (rbank s c.val) (bundleAct []) = [] := by
    unfold seqCauses
    simp only [bundleAct, List.findSome?_nil, Option.any_none, Bool.and_false, Bool.or_self, Bool.false_eq_true, if_false, Bool.false_and]
    rw [if_neg]
    intro hc
    simp only [Bool.and_eq_true, Bool.or_eq_true] at hc
    have := hends hc.2
    simp [this.1, this.2] at hc
  have hcls : (if inL then clsL else clsS) ≤ 2 := by cases inL <;> decide
  have hfl : inFlight (begun s c.val) (rbank s c.val) = [] := by rw [begun_inFlight]; exact h.2.2.2.2.2.1
  have hord : issueOrder c.val [] = [] := issueOrder_quiet c.val [] (by simp)
  have hiss := awake_issue h _ [] hcls hseq rfl rfl rfl (by simp) (u := begun s c.val) (new := []) (by rw [hord]; rfl) hfl
    ((begun_ready _ _ (by decide)).trans h.2.2.2.2.2.2.2.1)
  have hact : bundleAct [] = none := rfl
  simp only [hact] at hiss
  obtain ⟨a1, a2⟩ := advance_flow (begun s c.val) (rbank s c.val) 1 none
  obtain ⟨b1, b2, b3, b4⟩ := begun_fields s c.val
  generalize hw : advance (begun s c.val) (rbank s c.val) 1 none = w at *
  have hend : ∀ g j, (I.cycle.id = g.id → rbank s c.val ≠ j) → (bundleEnd w (rbank s c.val) [] (macOld (fetched s c.val) [])).rd g j = w.rd g j :=
    fun g j hc => bundleEnd_rd _ _ _ _ _ _ hc (by simp)
  have hwake : SameWake s (bundleEnd w (rbank s c.val) [] (macOld (fetched s c.val) [])) := by
    intro g hg j
    have ne : ∀ f ∈ I.cycle :: I.qstall :: flowCells, ∀ g ∈ wakeCells, f.id ≠ g.id := by decide
    rw [hend g j (fun h => absurd h (ne _ (by simp) g hg)), a2 g (fun f hf => ne f (by simp [hf]) g hg)]
    exact begun_ready g j (ne I.qstall (by simp) g hg)
  rw [arithDue_awake h hwake, boundary_awake h hwake] at hiss
  have hrb : rbank (bundleEnd w (rbank s c.val) [] (macOld (fetched s c.val) [])) c.val = rbank s c.val :=
    rbank_congr _ (hwake I.bank (by simp [wakeCells]) c.val)
  refine ⟨_, by show go (syllable s c.val true _ _ _ _) = _; rw [hiss], ?_, ?_, ?_⟩
  · refine framed_end ?_ ?_ ?_ _ _ _ _ ?_ ?_ (by simp) (by simp) (by simp)
    · unfold SameButCode at *; rw [a1, b1]
    · rw [a1]; exact b2
    · rw [a1]; exact b3
    · intro g j hj
      rw [hcells g j, b4 g j]
      · intro p hp; exact hj p (by simp at hp ⊢; simp [hp])
      · intro p hp
        rcases List.mem_cons.mp hp with rfl | hp
        · exact hj _ (by simp)
        · exact hj p (by simp [hp])
    · intro p hp
      have : ∀ f ∈ flowCells, f.id ≠ I.bank.id := by decide
      exact this _ (hnow p hp)
  · intro g hg j
    have : ∀ f ∈ flowCells, I.cycle.id ≠ f.id := by decide
    exact hend g j fun h => absurd h (this g hg)
  · unfold pcOf
    rw [hrb, hend _ _ (fun h => absurd h (by decide))]

theorem fetchAddr_congr {s t : State} (c a : Nat) (h1 : t.mem = s.mem) (h2 : t.tlbs = s.tlbs) (h3 : t.landings = s.landings)
    (h4 : t.freeCtr = s.freeCtr) (h5 : ∀ j, t.rd I.scr j = s.rd I.scr j) (h6 : t.rd I.bank c = s.rd I.bank c) :
    fetchAddr t c a = fetchAddr s c a := by
  have hs : ∀ k, scrOf t c k = scrOf s c k := by
    intro k
    unfold scrOf State.cr rbank inFlight
    rw [h6, h3, h4, h5]
  have hr : ∀ x n, t.readLE x n = s.readLE x n := by
    intro x n; unfold State.readLE State.readBytes State.byte; rw [h1]
  unfold fetchAddr translate pageEntry mmuOn permits tlbOf asidOf walk
  simp only [hs, hr, h2]

theorem afterBundle_congr {s t : State} (c : Nat) (h1 : t.mem = s.mem) (h2 : t.tlbs = s.tlbs) (h3 : t.landings = s.landings)
    (h4 : t.freeCtr = s.freeCtr) (h5 : ∀ j, t.rd I.scr j = s.rd I.scr j) (h6 : t.rd I.bank c = s.rd I.bank c) (n a : Nat) :
    afterBundle t c a n = afterBundle s c a n := by
  have he : ∀ x, endsBundle t c x = endsBundle s c x := by
    intro x
    unfold endsBundle
    rw [fetchAddr_congr c x h1 h2 h3 h4 h5 h6]
    have hr : ∀ x n, t.readLE x n = s.readLE x n := by
      intro x n; unfold State.readLE State.readBytes State.byte; rw [h1]
    simp only [hr]
  induction n generalizing a with
  | zero => rfl
  | succ n ih => simp only [afterBundle, he, ih]

theorem plain_framed (s : State) (c x : Nat) (sh : List (Nat × Nat)) :
    Framed s (bundleEnd ((begun s c).wr I.pcb (rbank s c) x) (rbank s c) [] sh) c [] [] := by
  obtain ⟨b1, b2, b3, b4⟩ := begun_fields s c
  refine framed_end (w := (begun s c).wr I.pcb (rbank s c) x) ?_ b2 b3 [] [] [] sh ?_ (by simp) (by simp) (by simp) (by simp)
  · unfold SameButCode at *; rw [b1]; rfl
  · intro g j hj
    rw [State.rd_wr_other _ _ _ _ _ _ (hj (I.pcb, rbank s c) (by simp)), begun_rd _ _ _ _ (hj (I.qstall, c) (by simp))]

theorem loopAct_says {v : State} {c pc count leoff act rot pcv : Nat} {rotates : Bool} (ha : v.rd I.act (rbank v c) = act)
    (hr : v.rd I.rot (rbank v c) = rot) (hp : v.rd I.pcb (rbank v c) = pcv) (hcount : count < 65536) :
    let b := rbank v c
    let lev := if bitOf act 0 then 1 else 0
    let k := 2 * b + lev
    let le := (pc + 4 * leoff) % 2 ^ 32
    let t := loopAct v c pc 1 rotates count leoff
    SameCells v t [(I.ls, k), (I.le, k), (I.lc, k), (I.act, b), (I.rot, b), (I.pcb, b)] ∧ t = { v with cells := t.cells } ∧
    t.rd I.ls k = (pc + 4) % 2 ^ 32 ∧ t.rd I.le k = le ∧ t.rd I.lc k = count ∧
    if count = 0 then t.rd I.pcb b = afterBundle t c le 4 % 2 ^ 32 ∧ t.rd I.act b = act ∧ t.rd I.rot b = rot
    else t.rd I.pcb b = pcv ∧ t.rd I.act b = setBit act lev ∧ t.rd I.rot b = putBit rot lev rotates := by
  intro b lev k le t
  have hb : rbank v c = b := rfl
  rw [hb] at ha hr hp
  have hlev : (if loopActive v b 0 then 1 else 0) = lev := by unfold loopActive; rw [ha]
  have hle : (pc + 4 * (1 - 1) + 4 * leoff) % 2 ^ 32 = le := by simp [le]
  have hm : count % 2 ^ I.lc.w = count := Nat.mod_eq_of_lt hcount
  have hlm : le % 2 ^ I.le.w = le := Nat.mod_mod _ _
  let w := ((v.wr I.ls k (pc + 4)).wr I.le k le).wr I.lc k count
  have hloop : t = if count = 0 then w.wr I.pcb b (afterBundle w c le 4)
       else (w.wr I.act b (setBit (w.rd I.act b) lev)).wr I.rot b (putBit (w.rd I.rot b) lev rotates) := by
    show loopAct v c pc 1 rotates count leoff = _
    unfold loopAct
    dsimp only
    rw [hb, hlev, hle]
  have hw : ∀ g j, (I.ls.id = g.id → k ≠ j) → (I.le.id = g.id → k ≠ j) → (I.lc.id = g.id → k ≠ j) → w.rd g j = v.rd g j := by
    intro g j h1 h2 h3
    show (((v.wr I.ls k (pc + 4)).wr I.le k le).wr I.lc k count).rd g j = _
    rw [State.rd_wr_other _ _ _ _ _ _ h3, State.rd_wr_other _ _ _ _ _ _ h2, State.rd_wr_other _ _ _ _ _ _ h1]
  have w1 : w.rd I.ls k = (pc + 4) % 2 ^ 32 := by
    show (((v.wr I.ls k (pc + 4)).wr I.le k le).wr I.lc k count).rd I.ls k = _
    rw [State.rd_wr_cell _ _ _ _ _ _ (by decide), State.rd_wr_cell _ _ _ _ _ _ (by decide), State.rd_wr_same]; rfl
  have w2 : w.rd I.le k = le := by
    show (((v.wr I.ls k (pc + 4)).wr I.le k le).wr I.lc k count).rd I.le k = _
    rw [State.rd_wr_cell _ _ _ _ _ _ (by decide), State.rd_wr_same]; exact hlm
  have w3 : w.rd I.lc k = count := by
    show (((v.wr I.ls k (pc + 4)).wr I.le k le).wr I.lc k count).rd I.lc k = _
    rw [State.rd_wr_same]; exact hm
  have wa : w.rd I.act b = act := by rw [hw _ _ (fun h => absurd h (by decide)) (fun h => absurd h (by decide)) (fun h => absurd h (by decide))]; exact ha
  have wr' : w.rd I.rot b = rot := by rw [hw _ _ (fun h => absurd h (by decide)) (fun h => absurd h (by decide)) (fun h => absurd h (by decide))]; exact hr
  have wp : w.rd I.pcb b = pcv := by rw [hw _ _ (fun h => absurd h (by decide)) (fun h => absurd h (by decide)) (fun h => absurd h (by decide))]; exact hp
  have hwc : w = { v with cells := w.cells } := rfl
  rw [hloop]
  by_cases hc : count = 0
  · rw [if_pos hc, if_pos hc]
    refine ⟨?_, rfl, ?_, ?_, ?_, ?_, ?_, ?_⟩
    · intro g j hj
      rw [State.rd_wr_other _ _ _ _ _ _ (hj (I.pcb, b) (by simp)), hw g j (hj (I.ls, k) (by simp)) (hj (I.le, k) (by simp)) (hj (I.lc, k) (by simp))]
    · rw [State.rd_wr_cell _ _ _ _ _ _ (by decide)]; exact w1
    · rw [State.rd_wr_cell _ _ _ _ _ _ (by decide)]; exact w2
    · rw [State.rd_wr_cell _ _ _ _ _ _ (by decide)]; exact w3
    · rw [State.rd_wr_same]
      exact congrArg (· % 2 ^ 32) (afterBundle_congr (s := w) (t := w.wr I.pcb b (afterBundle w c le 4)) c rfl rfl rfl rfl (fun j => State.rd_wr_cell _ _ _ _ _ _ (by decide)) (State.rd_wr_cell _ _ _ _ _ _ (by decide)) 4 le).symm
    · rw [State.rd_wr_cell _ _ _ _ _ _ (by decide)]; exact wa
    · rw [State.rd_wr_cell _ _ _ _ _ _ (by decide)]; exact wr'
  · rw [if_neg hc, if_neg hc]
    have hal : act < 4 := ha ▸ rd_mod_lt v I.act b
    have hrl : rot < 4 := hr ▸ rd_mod_lt v I.rot b
    have fin1 : ∀ x : Fin 4, ∀ l : Fin 2, ∀ p : Bool, setBit x.val l.val % 4 = setBit x.val l.val ∧ putBit x.val l.val p % 4 = putBit x.val l.val p := by decide
    have hl2 : lev < 2 := by simp only [lev]; split <;> decide
    refine ⟨?_, rfl, ?_, ?_, ?_, ?_, ?_, ?_⟩
    · intro g j hj
      rw [State.rd_wr_other _ _ _ _ _ _ (hj (I.rot, b) (by simp)), State.rd_wr_other _ _ _ _ _ _ (hj (I.act, b) (by simp)), hw g j (hj (I.ls, k) (by simp)) (hj (I.le, k) (by simp)) (hj (I.lc, k) (by simp))]
    · rw [State.rd_wr_cell _ _ _ _ _ _ (by decide), State.rd_wr_cell _ _ _ _ _ _ (by decide)]; exact w1
    · rw [State.rd_wr_cell _ _ _ _ _ _ (by decide), State.rd_wr_cell _ _ _ _ _ _ (by decide)]; exact w2
    · rw [State.rd_wr_cell _ _ _ _ _ _ (by decide), State.rd_wr_cell _ _ _ _ _ _ (by decide)]; exact w3
    · rw [State.rd_wr_cell _ _ _ _ _ _ (by decide), State.rd_wr_cell _ _ _ _ _ _ (by decide)]; exact wp
    · rw [State.rd_wr_cell _ _ _ _ _ _ (by decide), State.rd_wr_same, wa]
      exact (fin1 ⟨_, hal⟩ ⟨lev, hl2⟩ true).1
    · rw [State.rd_wr_same, wr']
      exact (fin1 ⟨_, hrl⟩ ⟨lev, hl2⟩ rotates).2

theorem loop_case {s : State} {c : Fin 68} (h : CoreAwake s c.val) (count : Nat) (leoff : BitVec 12) (rotates : Bool) (i : Instr)
    (hdly : s.rd I.dly (rbank s c.val) = 0) (hact : s.rd I.act (rbank s c.val) ≠ 3) (hcount : count < 65536)
    (h0 : atLoopEnd s (rbank s c.val) 0 = false) (h1 : atLoopEnd s (rbank s c.val) 1 = false)
    (hi : exec i s = sSyl s c.val true [.act (.loop rotates count leoff.toNat)] []) :
    let b := rbank s c.val
    let pc := pcOf s c.val
    let lev := if bitOf (s.rd I.act b) 0 then 1 else 0
    let k := 2 * b + lev
    let le := (pc + 4 * leoff.toNat) % 2 ^ 32
    Does i s fun t => Framed s t c.val [(I.ls, k), (I.le, k), (I.lc, k), (I.act, b), (I.rot, b)] [] ∧
      t.rd I.ls k = (pc + 4) % 2 ^ 32 ∧ t.rd I.le k = le ∧ t.rd I.lc k = count ∧
      if count = 0 then pcOf t c.val = afterBundle t c.val le 4 % 2 ^ 32 ∧ t.rd I.act b = s.rd I.act b ∧
        t.rd I.rot b = s.rd I.rot b
      else pcOf t c.val = (pc + 4) % 2 ^ 32 ∧ t.rd I.act b = setBit (s.rd I.act b) lev ∧
        t.rd I.rot b = putBit (s.rd I.rot b) lev rotates := by
  intro b pc lev k le
  have r : ∀ (g : Fld) j, I.qstall.id ≠ g.id → (begun s c.val).rd g j = s.rd g j := fun g j hg => begun_ready g j hg
  have hseq : seqCauses s b (bundleAct [.act (.loop rotates count leoff.toNat)]) = [] := by
    have hd : s.on I.dly b = false := by rw [State.on_eq]; simp [hdly, b]
    have ha : (s.rd I.act b == 3) = false := by simpa [b] using hact
    have h0' : atLoopEnd s b 0 = false := h0
    have h1' : atLoopEnd s b 1 = false := h1
    simp [seqCauses, bundleAct, Act.isLoop, Act.barred, Act.isBranch, hd, ha, h0', h1']
  have hord : issueOrder c.val [.act (.loop rotates count leoff.toNat)] = [.act (.loop rotates count leoff.toNat)] := by
    unfold issueOrder; simp [Eff.isStore, Eff.isAct]
  have hfl : inFlight (begun s c.val) b = [] := by rw [begun_inFlight]; exact h.2.2.2.2.2.1
  have hiss := awake_issue h clsS [.act (.loop rotates count leoff.toNat)] (by decide) hseq rfl (by simp [faultAddrs, meetOf]) rfl (by simp)
    (u := begun s c.val) (new := []) (by rw [hord]; rfl) hfl ((begun_ready _ _ (by decide)).trans h.2.2.2.2.2.2.2.1)
  have hba : bundleAct [.act (.loop rotates count leoff.toNat)] = some (.loop rotates count leoff.toNat) := rfl
  simp only [hba, actAfter] at hiss
  have hadv : advance (begun s c.val) b 1 (some (.loop rotates count leoff.toNat)) = (begun s c.val).wr I.pcb b (pc + 4) := by
    have e : ∀ n, atLoopEnd (begun s c.val) b n = atLoopEnd s b n := by
      intro n; unfold atLoopEnd loopActive
      rw [r _ _ (by decide), r _ _ (by decide), r _ _ (by decide)]
    have hends : loopEnds (begun s c.val) b ((begun s c.val).rd I.pcb b + 4 * 1) = (begun s c.val).wr I.pcb b (pc + 4) := by
      have h0' : atLoopEnd s b 0 = false := h0
      have h1' : atLoopEnd s b 1 = false := h1
      simp [loopEnds, loopEnd, e, h0', h1', r I.pcb b (by decide), pc, pcOf, b]
    unfold advance
    dsimp only
    rw [hends]
    have hd : ((begun s c.val).wr I.pcb b (pc + 4)).rd I.dly b = 0 := by
      rw [State.rd_wr_cell _ _ _ _ _ _ (by decide), r _ _ (by decide)]; exact hdly
    rw [State.on_eq, hd]; rfl
  obtain ⟨b1, b2, b3, b4⟩ := begun_fields s c.val
  have hiss' : syllable s c.val true clsS .only [.act (.loop rotates count leoff.toNat)] [] = boundary (arithDue (loopAct (bundleEnd ((begun s c.val).wr I.pcb b (pc + 4)) b [] (macOld (fetched s c.val) [.act (.loop rotates count leoff.toNat)])) c.val pc 1 rotates count leoff.toNat) c.val) c.val := by
    rw [← hadv]; exact hiss
  generalize hv : bundleEnd ((begun s c.val).wr I.pcb b (pc + 4)) b [] (macOld (fetched s c.val) [.act (.loop rotates count leoff.toNat)]) = v at hiss'
  have hvr : ∀ g j, (I.cycle.id = g.id → b ≠ j) → (I.pcb.id = g.id → b ≠ j) → (I.qstall.id = g.id → c.val ≠ j) → v.rd g j = s.rd g j := by
    intro g j h2 h3 h4
    rw [← hv, bundleEnd_rd _ _ _ _ _ _ h2 (by simp), State.rd_wr_other _ _ _ _ _ _ h3, begun_rd _ _ _ _ h4]
  have hvf : Framed s v c.val [] [] := by
    rw [← hv]
    exact plain_framed s c.val (pc + 4) _
  have hvb : rbank v c.val = b := rbank_congr _ (hvr _ _ (fun h => absurd h (by decide)) (fun h => absurd h (by decide)) (fun h => absurd h (by decide)))
  have hvact : v.rd I.act b = s.rd I.act b := hvr _ _ (fun h => absurd h (by decide)) (fun h => absurd h (by decide)) (fun h => absurd h (by decide))
  have hvrot : v.rd I.rot b = s.rd I.rot b := hvr _ _ (fun h => absurd h (by decide)) (fun h => absurd h (by decide)) (fun h => absurd h (by decide))
  have hvpc : v.rd I.pcb b = (pc + 4) % 2 ^ 32 := by
    rw [← hv, bundleEnd_rd _ _ _ _ _ _ (fun h => absurd h (by decide)) (by simp), State.rd_wr_same]; rfl
  have hvin : inFlight v b = [] := by rw [← hv, bundleEnd_inFlight]; rfl
  have hsay := loopAct_says (v := v) (c := c.val) (pc := pc) (leoff := leoff.toNat) (rotates := rotates) (hvb.symm ▸ hvact) (hvb.symm ▸ hvrot) (hvb.symm ▸ hvpc) hcount
  rw [hvb] at hsay
  generalize ht : loopAct v c.val pc 1 rotates count leoff.toNat = t at hiss' hsay
  obtain ⟨hsc, hts, k1, k2, k3, k4⟩ := hsay
  have htr : ∀ g j, (I.ls.id = g.id → k ≠ j) → (I.le.id = g.id → k ≠ j) → (I.lc.id = g.id → k ≠ j) → (I.act.id = g.id → b ≠ j) →
      (I.rot.id = g.id → b ≠ j) → (I.pcb.id = g.id → b ≠ j) → t.rd g j = v.rd g j := by
    intro g j h1 h2 h3 h4 h5 h6
    apply hsc
    simpa using ⟨h1, h2, h3, h4, h5, h6⟩
  have hwake : SameWake s t := by
    intro g hg j
    have ne : ∀ f ∈ [I.cycle, I.pcb, I.qstall, I.ls, I.le, I.lc, I.act, I.rot], ∀ g ∈ wakeCells, f.id ≠ g.id := by decide
    have a := fun f hf => ne f hf g hg
    rw [htr g j (fun h => absurd h (a _ (by simp))) (fun h => absurd h (a _ (by simp))) (fun h => absurd h (a _ (by simp))) (fun h => absurd h (a _ (by simp))) (fun h => absurd h (a _ (by simp))) (fun h => absurd h (a _ (by simp))),
      hvr g j (fun h => absurd h (a _ (by simp))) (fun h => absurd h (a _ (by simp))) (fun h => absurd h (a _ (by simp)))]
  have htb : rbank t c.val = b := rbank_congr _ (hwake I.bank (by simp [wakeCells]) c.val)
  rw [arithDue_awake h hwake, boundary_awake h hwake] at hiss'
  have hframe : Framed s t c.val [(I.ls, k), (I.le, k), (I.lc, k), (I.act, b), (I.rot, b)] [] := by
    obtain ⟨g1, ⟨g2, g3, g4, g5⟩, -⟩ := hvf
    have hin : ∀ d, inFlight t d = inFlight v d := by intro d; rw [hts]; rfl
    have hcell : SameCells s t ([(I.pcb, b), (I.cycle, b), (I.qstall, c.val)] ++ [(I.ls, k), (I.le, k), (I.lc, k), (I.act, b), (I.rot, b)]) := by
      intro g j hj
      rw [htr g j (hj (I.ls, k) (by simp)) (hj (I.le, k) (by simp)) (hj (I.lc, k) (by simp)) (hj (I.act, b) (by simp)) (hj (I.rot, b) (by simp)) (hj (I.pcb, b) (by simp))]
      exact hvr g j (hj (I.cycle, b) (by simp)) (hj (I.pcb, b) (by simp)) (hj (I.qstall, c.val) (by simp))
    have hcode : SameButCode s t := by unfold SameButCode at *; rw [hts, g2]
    have hbf : BundleFrame s t c.val [(I.ls, k), (I.le, k), (I.lc, k), (I.act, b), (I.rot, b)] :=
      ⟨hcode, fun d hd => by rw [← g3 d hd, hts]; rfl, fun d hd => by rw [hin]; exact g4 d hd, hcell⟩
    have hall := landAll_same t b
    have hempty : inFlight t b = [] := by rw [hin]; exact hvin
    have hsr : ∀ g j, (settled t c.val).rd g j = t.rd g j := by
      intro g j; unfold settled; rw [htb]; exact landAll_other t b g j (by rw [hempty]; simp)
    refine ⟨by rw [← g1, hts]; rfl, hbf, ?_, ?_, ?_, ?_⟩
    · unfold SameButCode settled at *
      rw [htb, hall, hcode]
    · intro d hd; rw [← hbf.2.1 d hd]; unfold settled; rw [htb, hall]; rfl
    · intro d hd
      unfold settled; rw [htb, hall]
      have := hbf.2.2.1 d hd
      have hdb : b ≠ d := fun e => hd e.symm
      simp only [inFlight, Tbl.get_drop, hdb, if_false] at this ⊢
      exact this
    · intro g j hj
      rw [hsr]; exact hcell g j (fun p hp => hj p (by simpa using hp))
  refine ⟨t, by rw [hi, sSyl, hiss'], hframe, k1, k2, k3, ?_⟩
  unfold pcOf
  rw [htb]
  exact k4

end Sys2Proof.Machine
end

