-- ==== Sys2Proof/Laws/CaseAct.lean ====
section
/-! SUPPORT.  What syllables with an act of a core do: events, queues, stalls. -/

namespace Sys2Proof.Machine

open Safety

/-- A complete bundle of one syllable, of a core at a boundary, closes. -/
theorem syllable_closes {s : State} {c : Nat} (h : CoreAwake s c) (cls : Nat) (effs : List Eff) (causes : List Cause) (hcls : cls ≤ 3) :
    syllable s c true cls .only effs causes = closeBundle (fetched s c) c { oneOf cls effs with causes := causes } := by
  obtain ⟨h1, h2, h3, h4, h5, h6, h7, h10, h11, h12⟩ := h
  have hmay : mayIssue s c = true := by simp [mayIssue, h1, h2]
  have hmis : misplaced Bundle.empty cls = false := by
    obtain h | h | h | h : cls = 0 ∨ cls = 1 ∨ cls = 2 ∨ cls = 3 := by omega
    all_goals subst h; rfl
  have hadd : Bundle.add Bundle.empty s c true cls effs causes = { oneOf cls effs with causes := causes } := by
    have : (fetchAddr s c (s.rd I.pcb (rbank s c))).isNone = false := by
      cases hx : fetchAddr s c (s.rd I.pcb (rbank s c)) <;> simp_all
    simp only [Bundle.add, hmis]
    simp [Bundle.empty, oneOf, this, clsM, clsL, clsS]
  unfold syllable
  rw [h5]
  simp [hmay, hadd, fetched, pcOf, show Bundle.empty.closed = false from rfl, show Bundle.empty.n = 0 from rfl]

theorem act_plain {s : State} {c : Nat} (h : CoreReady s c) (a : Act) (hloop : a.isLoop = false) (hbr : a.isBranch = false)
    (haft : ∀ v pc n, actAfter v c pc n a = v)
    (hm : meetOf (fetched s c) c (.act a) = .ok)
    (hw : queueWaits (fetched s c) (.act a) = false) {u : State} {new : List Landing}
    (hp : actNow (begun s c) c a = (u, new)) (hk : KeepsCore s u c)
    (hl : ∀ l ∈ new, l.fld ∈ resultCells) :
    syllable s c true clsS .only [.act a] [] = afterAccess s u c new [] := by
  have hk' := hk
  obtain ⟨hctl, hpc, hfl, hbu⟩ := hk
  have hact : u.rd I.act (rbank s c) = 0 := (hctl _ (by simp [controlCells]) _).trans h.2.2.2.2.2.2.2.1
  have hdly : u.rd I.dly (rbank s c) = 0 := (hctl _ (by simp [controlCells]) _).trans h.2.2.2.2.2.2.2.2.1
  have hord : issueOrder c [.act a] = [.act a] := by
    unfold issueOrder; simp [Eff.isStore, Eff.isAct]
  have hadv : advance u (rbank s c) 1 (some a) = advance u (rbank s c) 1 none := by
    cases a <;> simp [Act.isBranch] at hbr <;> rfl
  rw [syllable_issue h clsS [.act a] (by decide) (by simp [meetCauses, hm]) (by simp [faultAddrs, hm]) (by simp [hw]) (by simp)
    (by rw [hord]; show ((actNow (begun s c) c a).1, (actNow (begun s c) c a).2 ++ []) = (u, new); rw [hp, List.append_nil]) hk']
  simp only [show bundleAct [.act a] = some a from rfl, hadv, advance_plain _ _ _ hact hdly, hpc, haft]
  have hc := afterAccess_control (c := c) hctl new [] hl
  change boundary (arithDue (afterAccess s u c new []) c) c = _
  rw [arithDue_calm h hc, boundary_calm h hc]

theorem qstall_ne_control : ∀ g ∈ controlCells, I.qstall.id ≠ g.id := by decide

theorem begun_control (s : State) (c : Nat) : SameControl s (begun s c) := by
  intro g hg j
  exact begun_ready g j (qstall_ne_control g hg)

theorem act_still {s : State} {c : Nat} (h : CoreReady s c) (a : Act) (hloop : a.isLoop = false) (hbr : a.isBranch = false)
    (haft : ∀ v pc n, actAfter v c pc n a = v)
    (hm : meetOf (fetched s c) c (.act a) = .ok)
    (hw : queueWaits (fetched s c) (.act a) = false) {u : State} {new : List Landing} {now late : List (Fld × Nat)}
    (hp : actNow (begun s c) c a = (u, new)) (hcode : SameButCode s u) (hcells : SameCells s u ([(I.qstall, c)] ++ now))
    (hbun : u.bundles = Tbl.drop c s.bundles) (hlan : u.landings = s.landings)
    (hnowc : ∀ p ∈ now, p.1.id ∉ controlCells.map (·.id) ∧ p.1.id ≠ I.pcb.id)
    (hl : ∀ l ∈ new, l.fld ∈ resultCells) (hleft : ∀ l ∈ new, 1 < l.left)
    (hlate : ∀ l ∈ new, ∃ p ∈ late, p.1.id = l.fld.id ∧ p.2 = l.inst) :
    syllable s c true clsS .only [.act a] [] = afterAccess s u c new [] ∧ KeepsCore s u c ∧
      Issued s (afterAccess s u c new []) c now late := by
  have hk : KeepsCore s u c := by
    refine ⟨?_, ?_, ?_, ?_⟩
    · intro g hg j
      refine hcells g j ?_
      intro p hp he
      simp at hp
      rcases hp with rfl | hp
      · exact absurd he (qstall_ne_control g hg)
      · exact absurd (List.mem_map.mpr ⟨g, hg, he.symm⟩) (hnowc p hp).1
    · refine hcells _ _ ?_
      intro p hp he
      simp at hp
      rcases hp with rfl | hp
      · exact absurd he (show I.qstall.id ≠ I.pcb.id by decide)
      · exact absurd he (hnowc p hp).2
    · unfold inFlight; rw [hlan]; exact ready_inFlight h
    · unfold bundleOf; rw [hbun, Tbl.get_drop]; simp
  refine ⟨act_plain h a hloop hbr haft hm hw hp hk hl, hk, ?_, ?_⟩
  · have hia := issued_access hk new [] hl [] late (fun l hl' h1 => absurd h1 (by have := hleft l hl'; omega)) (by simpa using hlate)
    exact hia.1
  · refine framed_end (w := u.wr I.pcb (rbank s c) (pcOf s c + 4)) ?_ hbun hlan now late new [] ?_ ?_ hl ?_ ?_
    · unfold SameButCode at *; rw [hcode]; rfl
    · intro g j hj
      rw [State.rd_wr_other _ _ _ _ _ _ (hj (I.pcb, rbank s c) (by simp)), hcells g j]
      intro p hp
      apply hj p
      simp at hp ⊢
      rcases hp with rfl | hp
      · simp
      · simp [hp]
    · intro p hp he
      have := (hnowc p hp).1
      rw [he] at this
      exact this (by decide)
    · intro l hl' h1; have := hleft l hl'; omega
    · intro l hl'
      obtain ⟨p, hp, e⟩ := hlate l hl'
      exact ⟨p, by simp [hp], e⟩

theorem wordCells_DP (s : State) (b r : Nat) : ∀ p ∈ wordCells s b r, p.1 = I.d ∨ p.1 = I.p := by
  unfold wordCells
  split <;> simp

theorem spread_mod (s : State) (b r v lat : Nat) : spreadOver (wordCells s b r) v lat = spreadOver (wordCells s b r) (v % 2 ^ 32) lat := by
  have e1 : v % 2 ^ 32 % 2 ^ 16 = v % 2 ^ 16 := by omega
  have e2 : v % 2 ^ 32 / 2 ^ 16 % 2 ^ 16 = v / 2 ^ 16 % 2 ^ 16 := by omega
  unfold wordCells
  split
  · simp only [spreadOver, show I.d.w = 16 from rfl, e1, e2]
  · simp only [spreadOver, show I.p.w = 32 from rfl, Nat.mod_mod]

theorem act_word {s : State} {c : Nat} (h : CoreReady s c) (a : Act) (hloop : a.isLoop = false) (hbr : a.isBranch = false)
    (haft : ∀ v pc n, actAfter v c pc n a = v)
    (hm : meetOf (fetched s c) c (.act a) = .ok)
    (hw : queueWaits (fetched s c) (.act a) = false) {u : State} (r v : Nat) (fl : List (Fld × Nat)) (hr : r < 32)
    (hfl : ∀ p ∈ fl, p.1 ∈ resultCells ∧ p.1.id ≠ I.d.id ∧ p.1.id ≠ I.p.id ∧ p.1.id ≠ I.rrb.id)
    (hp : actNow (begun s c) c a = (u, spreadOver (wordCells s (rbank s c) r) v 3 ++ fl.map (fun p => putLanding p.1 (rbank s c) p.2 3)))
    (hk : KeepsCore s u c) (hrrb : u.rd I.rrb (rbank s c) = s.rd I.rrb (rbank s c)) (hu : ∀ p ∈ wordCells s (rbank s c) r, u.rd p.1 p.2 = s.rd p.1 p.2) :
    ∃ t, syllable s c true clsS .only [.act a] [] = t ∧
      IssuedAfter s u t c [] (wordCells s (rbank s c) r ++ fl.map (fun p => (p.1, rbank s c))) ∧
      readWord (settled t c) (rbank s c) r = v % 2 ^ 32 ∧
      ∀ g ∈ fl.map (·.1), (settled t c).rd g (rbank s c) = afterLandings g (rbank s c) (fl.map (fun p => putLanding p.1 (rbank s c) p.2 3)) (u.rd g (rbank s c)) := by
  generalize hnew : spreadOver (wordCells s (rbank s c) r) v 3 ++ fl.map (fun p => putLanding p.1 (rbank s c) p.2 3) = new at hp
  have hl : ∀ l ∈ new, l.fld ∈ resultCells ∧ l.left = 3 ∧ l.mask = none ∧
      (((l.fld, l.inst) ∈ wordCells s (rbank s c) r) ∨ ((l.fld, l.inst) ∈ fl.map (fun p => (p.1, rbank s c)))) := by
    intro l hl
    rw [← hnew] at hl
    rcases List.mem_append.mp hl with hl | hl
    · have h1 := spreadOver_mem _ _ _ l hl
      have h2 := spreadOver_left _ _ _ l hl
      exact ⟨wordCells_fld s _ r _ h1, h2.1, h2.2, .inl h1⟩
    · obtain ⟨p, hp, rfl⟩ := List.mem_map.mp hl
      exact ⟨(hfl p hp).1, rfl, rfl, .inr (List.mem_map.mpr ⟨p, hp, rfl⟩)⟩
  have hres : ∀ l ∈ new, l.fld ∈ resultCells := fun l h => (hl l h).1
  have hstay := stay_three none new (by simp) (fun x hx => ⟨(hl x hx).2.1, (hl x hx).2.2.1⟩)
  simp only [Option.toList, List.append_nil] at hstay
  have hnow : (new.filter fun l => decide (l.left ≤ 1)) = [] := List.filter_eq_nil_iff.mpr fun x hx => by simp [(hl x hx).2.1]
  have hset : ∀ g j, g ∈ resultCells → (settled (afterAccess s u c new []) c).rd g j = afterLandings g j new (u.rd g j) := by
    intro g j hg
    rw [settled_access hk new [] hres g j hg, hstay, hnow, afterLandings_left2]; rfl
  have hstill := settled_access_still hk new [] hres
  refine ⟨_, act_plain h a hloop hbr haft hm hw hp hk hres, ?_, ?_, ?_⟩
  · refine issued_access hk new [] hres [] _ (fun l hl' h1 => absurd h1 (by have := (hl l hl').2.1; omega)) ?_
    intro l hl'
    rcases (hl l hl').2.2.2 with h1 | h1
    · exact ⟨_, by simp only [List.nil_append]; exact List.mem_append_left _ h1, rfl, rfl⟩
    · exact ⟨_, by simp only [List.nil_append]; exact List.mem_append_right _ h1, rfl, rfl⟩
  · refine readWord_spread (lat := 3) hr (ready_inFlight h) hstill ?_ (Nat.mod_lt _ (by decide)) ?_
    · rw [hset _ _ (by decide), afterLandings_none, hrrb]
      intro l hl' he
      rcases (hl l hl').2.2.2 with h1 | h1
      · have : l.fld = I.d ∨ l.fld = I.p := wordCells_DP _ _ _ _ h1
        rcases this with h2 | h2 <;> rw [h2] at he <;> exact absurd he (by decide)
      · obtain ⟨p, hp, e⟩ := List.mem_map.mp h1
        have e' : p.1 = l.fld := congrArg Prod.fst e
        exact absurd he (e' ▸ (hfl p hp).2.2.2)
    · intro f i hfi
      rw [hset f i (wordCells_fld s _ r _ hfi), ← hnew, afterLandings_append, hu _ hfi, ← spread_mod, afterLandings_none]
      intro l hl' he
      obtain ⟨p, hp, rfl⟩ := List.mem_map.mp hl'
      have : f = I.d ∨ f = I.p := wordCells_DP _ _ _ _ hfi
      rcases this with rfl | rfl
      · exact absurd he (hfl p hp).2.1
      · exact absurd he (hfl p hp).2.2.1
  · intro g hg
    obtain ⟨p, hp, rfl⟩ := List.mem_map.mp hg
    have e := afterLandings_none p.1 (rbank s c) (spreadOver (wordCells s (rbank s c) r) v 3) (u.rd p.1 (rbank s c)) (by
      intro l hl' he
      have h1 := spreadOver_mem _ _ _ l hl'
      have : l.fld = I.d ∨ l.fld = I.p := wordCells_DP _ _ _ _ h1
      rcases this with h2 | h2 <;> rw [h2] at he
      · exact absurd he.symm (hfl p hp).2.1
      · exact absurd he.symm (hfl p hp).2.2.1)
    rw [hset _ _ (hfl p hp).1, ← hnew, afterLandings_append, e]

/-- Flags alone, late. -/
theorem act_flags {s : State} {c : Nat} (h : CoreReady s c) (a : Act) (hloop : a.isLoop = false) (hbr : a.isBranch = false)
    (haft : ∀ v pc n, actAfter v c pc n a = v)
    (hm : meetOf (fetched s c) c (.act a) = .ok)
    (hw : queueWaits (fetched s c) (.act a) = false) {u : State} (fl : List (Fld × Nat))
    (hfl : ∀ p ∈ fl, p.1 ∈ resultCells)
    (hp : actNow (begun s c) c a = (u, fl.map (fun p => putLanding p.1 (rbank s c) p.2 3)))
    (hk : KeepsCore s u c) :
    ∃ t, syllable s c true clsS .only [.act a] [] = t ∧
      IssuedAfter s u t c [] (fl.map (fun p => (p.1, rbank s c))) ∧
      ∀ g ∈ fl.map (·.1), (settled t c).rd g (rbank s c) = afterLandings g (rbank s c) (fl.map (fun p => putLanding p.1 (rbank s c) p.2 3)) (u.rd g (rbank s c)) := by
  generalize hnew : fl.map (fun p => putLanding p.1 (rbank s c) p.2 3) = new at hp ⊢
  have hl : ∀ l ∈ new, l.fld ∈ resultCells ∧ l.left = 3 ∧ l.mask = none ∧ (l.fld, l.inst) ∈ fl.map (fun p => (p.1, rbank s c)) := by
    intro l hl
    rw [← hnew] at hl
    obtain ⟨p, hp, rfl⟩ := List.mem_map.mp hl
    exact ⟨hfl p hp, rfl, rfl, List.mem_map.mpr ⟨p, hp, rfl⟩⟩
  have hres : ∀ l ∈ new, l.fld ∈ resultCells := fun l h => (hl l h).1
  have hstay := stay_three none new (by simp) (fun x hx => ⟨(hl x hx).2.1, (hl x hx).2.2.1⟩)
  simp only [Option.toList, List.append_nil] at hstay
  have hnow : (new.filter fun l => decide (l.left ≤ 1)) = [] := List.filter_eq_nil_iff.mpr fun x hx => by simp [(hl x hx).2.1]
  refine ⟨_, act_plain h a hloop hbr haft hm hw hp hk hres, ?_, ?_⟩
  · refine issued_access hk new [] hres [] _ (fun l hl' h1 => absurd h1 (by have := (hl l hl').2.1; omega)) ?_
    intro l hl'
    exact ⟨_, by simp only [List.nil_append]; exact (hl l hl').2.2.2, rfl, rfl⟩
  · intro g hg
    obtain ⟨p, hp, rfl⟩ := List.mem_map.mp hg
    rw [settled_access hk new [] hres _ _ (hfl p hp), hstay, hnow, afterLandings_left2]; rfl

theorem begun_queue (s : State) (c n : Nat) : (begun s c).queue n = s.queue n := by
  have h := (begun_fields s c).1
  unfold SameButCode at h
  unfold State.queue; rw [h]

theorem begun_word {s : State} {c b : Nat} (h : inFlight s b = []) (r : Nat) : wordCells (begun s c) b r = wordCells s b r := by
  have hp := physD_still h (t := begun s c) (by rw [begun_inFlight]; exact h) (begun_ready I.rrb b (by decide))
  unfold wordCells; rw [hp, hp]

theorem begun_who {s : State} (c d : Nat) : queueWho (begun s c) d = if 64 ≤ d then 0x10001 + (d - 64) else s.rd I.cJob d := by
  unfold queueWho isSvc
  rw [begun_ready _ _ (by decide)]
  simp

theorem served_keeps {s : State} {c : Nat} (h : CoreReady s c) (port n : Nat) (y : Queue) :
    KeepsCore s ((servePort (begun s c) port).setQueue n y) c := by
  obtain ⟨k1, k2, k3, k4⟩ := begun_keeps h
  refine ⟨fun g hg j => ?_, ?_, k3, k4⟩
  · show (servePort (begun s c) port).rd g j = _
    unfold servePort
    have ne : ∀ g ∈ controlCells, I.quePtr.id ≠ g.id := by decide
    rw [State.set_eq_wr, State.rd_wr_cell _ _ _ _ _ _ (ne g hg)]
    exact k1 g hg j
  · show (servePort (begun s c) port).rd I.pcb _ = _
    unfold servePort
    rw [State.set_eq_wr, State.rd_wr_cell _ _ _ _ _ _ (by decide)]
    exact k2

theorem served_rd {s : State} {c : Nat} (port n : Nat) (y : Queue) (g : Fld) (j : Nat) (h1 : I.quePtr.id ≠ g.id) (h2 : I.qstall.id ≠ g.id) :
    ((servePort (begun s c) port).setQueue n y).rd g j = s.rd g j := by
  show (servePort (begun s c) port).rd g j = _
  unfold servePort
  rw [State.set_eq_wr, State.rd_wr_cell _ _ _ _ _ _ h1]
  exact begun_ready g j h2

theorem setQueue_queue (s : State) (n : Nat) (y : Queue) : (s.setQueue n y).queue n = y := by
  unfold State.queue State.setQueue
  rw [Tbl.get_put]; simp

theorem issuedAfter_queue {s u t : State} {c : Nat} {now late : List (Fld × Nat)} (h : IssuedAfter s u t c now late) (n : Nat) :
    t.queue n = u.queue n := by
  have := h.2.2.1.1
  unfold SameButCode at this
  unfold State.queue; rw [this]

theorem stall_bound (z : State) (c : Nat) (h : boundary z c = z) : (if stepping z c = true then z else boundary z c) = z := by
  rw [h]; split <;> rfl

end Sys2Proof.Machine
end

