-- ==== Sys2Proof/Laws/Frame.lean ====
section
/-! SUPPORT.  Frames: what writes of cells, folds and branches leave, for the relations of Safety. -/

namespace Sys2Proof.Safety

open Machine

theorem SameCells.refl (s : State) (l : List (Fld × Nat)) : SameCells s s l := fun _ _ _ => rfl

theorem SameCells.trans {s t u : State} {l : List (Fld × Nat)} (h : SameCells s t l) (k : SameCells t u l) : SameCells s u l :=
  fun g j hj => (k g j hj).trans (h g j hj)

theorem SameCells.mono {s t : State} {l m : List (Fld × Nat)} (h : SameCells s t l) (hm : ∀ p ∈ l, p ∈ m) : SameCells s t m :=
  fun g j hj => h g j fun p hp => hj p (hm p hp)

theorem SameCells.wr {s t : State} {l : List (Fld × Nat)} {f : Fld} {i : Nat} {v : Nat} (h : SameCells s t l) (hm : (f, i) ∈ l) :
    SameCells s (t.wr f i v) l :=
  fun g j hj => (State.rd_wr_other _ _ _ _ _ _ (hj _ hm)).trans (h g j hj)

theorem SameCells.of_rd {s t u : State} {l : List (Fld × Nat)} (h : SameCells s t l) (hr : ∀ g j, u.rd g j = t.rd g j) : SameCells s u l :=
  fun g j hj => (hr g j).trans (h g j hj)

theorem SameButCells.refl (s : State) : SameButCells s s := rfl

theorem SameButCells.trans {s t u : State} (h : SameButCells s t) (k : SameButCells t u) : SameButCells s u := by
  unfold SameButCells at *
  rw [k, h]

theorem SameButCells.wr {s t : State} {f : Fld} {i v : Nat} (h : SameButCells s t) : SameButCells s (t.wr f i v) := by
  unfold SameButCells at *
  rw [h]; rfl

theorem OnlyCells.refl (s : State) (l : List (Fld × Nat)) : OnlyCells s s l := ⟨rfl, SameCells.refl s l⟩

theorem OnlyCells.wr {s t : State} {l : List (Fld × Nat)} {f : Fld} {i v : Nat} (h : OnlyCells s t l) (hm : (f, i) ∈ l) :
    OnlyCells s (t.wr f i v) l := ⟨SameButCells.wr h.1, SameCells.wr h.2 hm⟩

theorem OnlyCells.mono {s t : State} {l m : List (Fld × Nat)} (h : OnlyCells s t l) (hm : ∀ p ∈ l, p ∈ m) : OnlyCells s t m :=
  ⟨h.1, h.2.mono hm⟩

theorem OnlyCells.trans {s t u : State} {l : List (Fld × Nat)} (h : OnlyCells s t l) (k : OnlyCells t u l) : OnlyCells s u l := by
  refine ⟨?_, h.2.trans k.2⟩
  have h1 := h.1
  have k1 := k.1
  unfold SameButCells at *
  rw [k1, h1]

theorem SameOtherCells.refl (s : State) (l : List Fld) : SameOtherCells s s l := fun _ _ _ => rfl

theorem SameOtherCells.wr {s t : State} {l : List Fld} {f : Fld} {i v : Nat} (h : SameOtherCells s t l) (hm : f ∈ l) :
    SameOtherCells s (t.wr f i v) l :=
  fun g j hj => (State.rd_wr_cell _ _ _ _ _ _ (hj f hm)).trans (h g j hj)

theorem SameOtherCells.trans {s t u : State} {l : List Fld} (h : SameOtherCells s t l) (k : SameOtherCells t u l) : SameOtherCells s u l :=
  fun g j hj => (k g j hj).trans (h g j hj)

theorem SameOtherCells.mono {s t : State} {l m : List Fld} (h : SameOtherCells s t l) (hm : ∀ p ∈ l, p ∈ m) : SameOtherCells s t m :=
  fun g j hj => h g j fun f hf => hj f (hm f hf)

theorem SameOtherCells.over {α : Type} {s t : State} {l : List Fld} (h : SameOtherCells s t l) (xs : List α) (f : State → α → State)
    (hf : ∀ u x, SameOtherCells u (f u x) l) : SameOtherCells s (t.over xs f) l := by
  unfold State.over
  induction xs generalizing t with
  | nil => exact h
  | cons a r ih => exact ih (h.trans (hf t a))

theorem SameButCells.over {α : Type} {s t : State} (h : SameButCells s t) (xs : List α) (f : State → α → State)
    (hf : ∀ u x, SameButCells u (f u x)) : SameButCells s (t.over xs f) := by
  unfold State.over
  induction xs generalizing t with
  | nil => exact h
  | cons a r ih =>
    refine ih ?_
    have := hf t a
    unfold SameButCells at *
    rw [this, h]

theorem OnlyCells.over {α : Type} {s t : State} {l : List (Fld × Nat)} (h : OnlyCells s t l) (xs : List α) (f : State → α → State)
    (hf : ∀ u, ∀ x ∈ xs, OnlyCells u (f u x) l) : OnlyCells s (t.over xs f) l := by
  unfold State.over
  induction xs generalizing t with
  | nil => exact h
  | cons a r ih => exact ih (h.trans (hf t a (by simp))) fun u x hx => hf u x (by simp [hx])

theorem OnlyCells.ite {s t u : State} {l : List (Fld × Nat)} {p : Prop} [Decidable p] (h : OnlyCells s t l) (k : OnlyCells s u l) :
    OnlyCells s (if p then t else u) l := by split <;> assumption

/-- Writes of cells change cells alone. -/
theorem SameButCells.puts (s : State) (l : List (Fld × Nat × Nat)) : SameButCells s (puts s l) := by
  unfold Safety.puts
  induction l generalizing s with
  | nil => rfl
  | cons p r ih =>
    have := ih (s.wr p.1 p.2.1 p.2.2)
    unfold SameButCells at *
    exact this

/-- Writes of cells leave every instance that none of them writes. -/
theorem OnlyCells.puts (s : State) (l : List (Fld × Nat × Nat)) : OnlyCells s (puts s l) (l.map fun p => (p.1, p.2.1)) := by
  refine ⟨SameButCells.puts s l, ?_⟩
  unfold Safety.puts
  suffices h : ∀ (m : List (Fld × Nat)) (t : State), (∀ p ∈ l, (p.1, p.2.1) ∈ m) → SameCells s t m →
      SameCells s (l.foldl (fun u p => u.wr p.1 p.2.1 p.2.2) t) m by
    exact h _ s (fun p hp => List.mem_map.mpr ⟨p, hp, rfl⟩) (SameCells.refl _ _)
  induction l with
  | nil => exact fun _ _ _ h => h
  | cons p r ih => exact fun m t hm h => ih m _ (fun q hq => hm q (by simp [hq])) (h.wr (hm p (by simp)))

theorem puts_append (s : State) (l m : List (Fld × Nat × Nat)) : puts s (l ++ m) = puts (puts s l) m := by
  unfold Safety.puts; rw [List.foldl_append]

theorem puts_cons (s : State) (f : Fld) (i v : Nat) (l : List (Fld × Nat × Nat)) : puts s ((f, i, v) :: l) = puts (s.wr f i v) l := rfl

theorem puts_nil (s : State) : puts s [] = s := rfl

/-- A cell that none of the writes names. -/
theorem puts_cell (s : State) (l : List (Fld × Nat × Nat)) (g : Fld) (j : Nat) (h : ∀ p ∈ l, p.1.id ≠ g.id) : (puts s l).rd g j = s.rd g j := by
  refine (OnlyCells.puts s l).2 g j fun p hp he => ?_
  obtain ⟨q, hq, rfl⟩ := List.mem_map.mp hp
  exact absurd he (h q hq)

end Sys2Proof.Safety
end

