-- ==== Sys2Proof/Laws/CaseTrap.lean ====
section
/-! SUPPORT.  What traps, exceptions and the returns from them do. -/

namespace Sys2Proof.Machine

open Safety

theorem cause_taken {s : State} {c : Nat} (h : CoreReady s c) (cls : Nat) (hcls : cls ≤ 3) (effs : List Eff) (k : Cause)
    (hm : meetCauses (fetched s c) c effs = []) :
    syllable s c true cls .only effs [k] = boundary (takeCause (fetched s c) c k) c := by
  have hsame := fetched_same s c
  have hb : rbank (fetched s c) c = rbank s c := rbank_congr _ (hsame.rd _ _)
  have hseq : seqCauses (fetched s c) (rbank s c) (bundleAct effs) = [] :=
    seqCauses_none _ _ _ ((hsame.rd _ _).trans h.2.2.2.2.2.2.2.1) ((hsame.rd _ _).trans h.2.2.2.2.2.2.2.2.1)
  rw [syllable_closes (ready_awake h) _ _ _ hcls]
  unfold closeBundle
  simp only [oneOf, hb, hseq, hm, List.append_nil, firstCause]

theorem dsWord_congr {s t : State} {b : Nat} (h : ∀ g ∈ [I.dly, I.btaken, I.act, I.rot], t.rd g b = s.rd g b) : dsWord t b = dsWord s b := by
  unfold dsWord recordRead pdb State.on
  simp [recordWord, spell, h]

/-- The bundle of core c is gone and nothing is in flight in its bank. -/
theorem quiet_landAll {v : State} {b : Nat} (h : inFlight v b = []) (g : Fld) (j : Nat) : (landAll v b).rd g j = v.rd g j :=
  landAll_other v b g j (by rw [h]; simp)

theorem dsWord_eq (s : State) (b : Nat) : dsWord s b = pdb s b + 4 * (s.rd I.act b + 4 * s.rd I.rot b) := by
  unfold dsWord recordRead
  simp [recordWord, spell]

theorem dsWord_lt (s : State) (b : Nat) : dsWord s b < 64 := by
  rw [dsWord_eq]
  have h1 : s.rd I.act b < 4 := rd_mod_lt s I.act b
  have h2 : s.rd I.rot b < 4 := rd_mod_lt s I.rot b
  have h3 : s.rd I.dly b < 4 := rd_mod_lt s I.dly b
  unfold pdb
  split <;> omega

theorem trapBank_says (u : State) (b code info addr : Nat) (imp : Bool) (h : inFlight u b = []) (hc : code < 16) (hi : info < 16) :
    let t := trapBank u b code info addr imp
    (t.rd I.trpc b = u.rd I.pcb b ∧ t.rd I.tds b = dsWord u b ∧ t.rd I.tbtgt b = u.rd I.btgt b ∧
    t.rd I.taddr b = addr % 2 ^ 32 ∧ t.rd I.tcause b = 2 ^ 31 + b2n imp * 2 ^ 30 + info * 256 + code ∧
    t.rd I.pcb b = u.rd I.trapv b / 4 * 4 ∧ t.rd I.act b = 0 ∧ t.rd I.dly b = 0 ∧ t.rd I.btaken b = 0) ∧
    SameCells u t ((I.pcb, b) :: trapCells b) ∧
    t = { u with cells := t.cells, landings := Tbl.drop b u.landings, macShadow := Tbl.drop b u.macShadow } := by
  intro t
  have hl := quiet_landAll h
  have hlat := landAll_same u b
  have ht : t = trapBank u b code info addr imp := rfl
  unfold trapBank at ht
  generalize landAll u b = v at ht hl hlat
  have hds : dsWord (v.wr I.trpc b (v.rd I.pcb b)) b = dsWord u b := dsWord_congr (by
    intro g hg
    have : ∀ g ∈ [I.dly, I.btaken, I.act, I.rot], I.trpc.id ≠ g.id := by decide
    rw [State.rd_wr_cell _ _ _ _ _ _ (this g hg), hl])
  have hds' : dsWord v b = dsWord u b := dsWord_congr (by intro g _; exact hl g b)
  have hcw : 2 ^ 31 + b2n imp * 2 ^ 30 + info % 16 * 256 + code % 16 < 2 ^ 32 := by
    have : b2n imp ≤ 1 := by cases imp <;> decide
    omega
  have hpc : u.rd I.pcb b < 2 ^ 32 := rd_mod_lt u I.pcb b
  have htv : u.rd I.trapv b < 2 ^ 32 := rd_mod_lt u I.trapv b
  have hbt : u.rd I.btgt b < 2 ^ 32 := rd_mod_lt u I.btgt b
  have hd := dsWord_lt u b
  dsimp only at ht
  refine ⟨?_, ?_, ?_⟩
  · rw [ht]
    simp (disch := decide) only [State.rd_wr_cell, State.rd_wr_same, hl, hds', hds]
    simp only [show I.trpc.w = 32 from rfl, show I.tds.w = 6 from rfl, show I.tbtgt.w = 32 from rfl, show I.taddr.w = 32 from rfl,
      show I.tcause.w = 32 from rfl, show I.pcb.w = 32 from rfl, show I.act.w = 2 from rfl, show I.dly.w = 2 from rfl, show I.btaken.w = 1 from rfl]
    refine ⟨?_, ?_, ?_, ?_, ?_, ?_, ?_, ?_, ?_⟩ <;> first | trivial | omega
  · rw [ht]
    refine .wr (.wr (.wr (.wr (.wr (.wr (.wr (.wr (.wr (.of_rd (.refl _ _) hl) ?_) ?_) ?_) ?_) ?_) ?_) ?_) ?_) ?_ <;> simp [trapCells]
  · have e : SameButCells v t := by
      rw [ht]
      exact .wr (.wr (.wr (.wr (.wr (.wr (.wr (.wr (.wr (.refl _)))))))))
    clear_value t
    unfold SameButCells at e
    refine e.trans ?_
    conv => lhs; rw [hlat]

theorem scr_still {x : State} {c : Nat} (hc : isSvc c = true) (h : inFlight x (2 * c) = []) (k : Nat) :
    scrOf x c k = x.rd I.scr (16 * (c - 64) + k) := by
  have hb : rbank x c = 2 * c := by unfold rbank; rw [hc]; rfl
  unfold scrOf; rw [hb, cr_still h]

theorem statusWord_lt (v : Nat) (h : v < 2 ^ 32) : clrBit (setBit v 0) 1 < 2 ^ 32 := by
  have h1 : setBit v 0 < 2 ^ 32 := by
    unfold setBit
    split
    · exact h
    · rename_i hb
      have : v % 2 ≠ 1 := by simpa [bitOf] using hb
      omega
  unfold clrBit; split <;> omega

theorem svcException_eq (u : State) (c code ecause eaddr : Nat) (hc : isSvc c = true) :
    svcException u c code ecause eaddr =
      (let b := 2 * c
       let x := 16 * (c - 64)
       let v := landAll u b
       let w : State := { v.wr I.qstall c 0 with bundles := Tbl.drop c v.bundles }
       let st := scrOf w c 0
       let s3 := (w.wr I.scr (x + 6) st).wr I.scr (x + 0) (clrBit (setBit st 0) 1)
       let s4 := ((s3.wr I.scr (x + 3) (s3.rd I.pcb b)).wr I.scr (x + 4) ecause).wr I.scr (x + 5) eaddr
       let s5 := (s4.wr I.scr (x + 7) (dsWord s4 b)).wr I.scr (x + 8) (s4.rd I.btgt b)
       let s6 := (s5.wr I.pcb b ((scrOf s5 c 1 + vectorOf code) % 2 ^ 32)).wr I.act b 0
       ((s6.wr I.dly b 0).wr I.btaken b 0).wr I.linkV (c - 64) 0) := by
  have hbk : rbank u c = 2 * c := by unfold rbank; rw [hc]; rfl
  unfold svcException
  rw [hbk]
  rfl

theorem svcException_says (u : State) (c code ecause eaddr : Nat) (hc : isSvc c = true) (h : inFlight u (2 * c) = []) (he : ecause < 2 ^ 32) :
    let b := 2 * c
    let t := svcException u c code ecause eaddr
    let r := fun (x : State) (k : Nat) => x.rd I.scr (16 * (c - 64) + k)
    (r t 6 = r u 0 ∧ r t 0 = clrBit (setBit (r u 0) 0) 1 ∧ r t 3 = u.rd I.pcb b ∧ r t 4 = ecause ∧ r t 5 = eaddr % 2 ^ 32 ∧
    r t 7 = dsWord u b ∧ r t 8 = u.rd I.btgt b ∧ t.rd I.pcb b = (r u 1 + vectorOf code) % 2 ^ 32 ∧ t.rd I.act b = 0 ∧ t.rd I.dly b = 0 ∧
    t.rd I.btaken b = 0 ∧ t.rd I.linkV (c - 64) = 0) ∧
    SameCells u t ([(I.pcb, b), (I.qstall, c)] ++ exceptionCells u c) ∧
    t = { u with cells := t.cells, landings := Tbl.drop b u.landings, macShadow := Tbl.drop b u.macShadow, bundles := Tbl.drop c u.bundles } := by
  intro b t r
  have hl := quiet_landAll h
  have hlat := landAll_same u b
  have hbk : rbank u c = 2 * c := by unfold rbank; rw [hc]; rfl
  have ht : t = svcException u c code ecause eaddr := rfl
  rw [svcException_eq _ _ _ _ _ hc] at ht
  clear_value t
  have hvf : inFlight (landAll u (2 * c)) b = [] := by
    show Tbl.get [] (landAll u b).landings b = []
    rw [hlat]; simp [Tbl.get_drop]
  change landAll u b = _ at hlat
  dsimp only at ht
  change inFlight (landAll u b) b = [] at hvf
  change t = _ at ht
  rw [show 2 * c = b from rfl] at ht
  generalize landAll u b = v at ht hl hlat hvf
  generalize hx : 16 * (c - 64) = x at *
  generalize hwd : ({ v.wr I.qstall c 0 with bundles := Tbl.drop c v.bundles } : State) = w at ht
  have hw : ∀ g j, I.qstall.id ≠ g.id → w.rd g j = u.rd g j := fun g j hg => by
    rw [← hwd]; exact (State.rd_wr_cell _ _ _ _ _ _ hg).trans (hl g j)
  have hwf : inFlight w b = [] := by rw [← hwd]; exact hvf
  have hwq : SameCells u w [(I.qstall, c)] := fun g j hj => by
    rw [← hwd]; exact (State.rd_wr_other _ _ _ _ _ _ (hj (I.qstall, c) (by simp))).trans (hl g j)
  have hws : w = { u with cells := w.cells, landings := Tbl.drop b u.landings, macShadow := Tbl.drop b u.macShadow, bundles := Tbl.drop c u.bundles } := by
    rw [← hwd]
    show { (v.wr I.qstall c 0) with bundles := Tbl.drop c v.bundles } = _
    have hb : v.bundles = u.bundles := by rw [hlat]
    rw [hb]
    conv => lhs; rw [hlat]
    rfl
  clear hwd hl hlat hvf
  have hstill : ∀ (y : State) (k : Nat), y.landings = w.landings → scrOf y c k = y.rd I.scr (x + k) := by
    intro y k hy
    rw [← hx]
    refine scr_still hc ?_ k
    unfold inFlight at *; rw [hy]; exact hwf
  have hds : ∀ y : State, (∀ g ∈ [I.dly, I.btaken, I.act, I.rot], y.rd g b = w.rd g b) → dsWord y b = dsWord u b := by
    intro y hy
    have ne : ∀ g ∈ [I.dly, I.btaken, I.act, I.rot], I.qstall.id ≠ g.id := by decide
    exact dsWord_congr fun g hg => (hy g hg).trans (hw g b (ne g hg))
  rw [hstill w 0 rfl, hw _ _ (by decide)] at ht
  generalize hst : u.rd I.scr (x + 0) = st at *
  generalize h3 : (w.wr I.scr (x + 6) st).wr I.scr (x + 0) (clrBit (setBit st 0) 1) = s3 at ht
  have p3 : s3.rd I.pcb b = u.rd I.pcb b := by rw [← h3]; simp (disch := decide) only [State.rd_wr_cell, hw]
  rw [p3] at ht
  generalize h4 : ((s3.wr I.scr (x + 3) (u.rd I.pcb b)).wr I.scr (x + 4) ecause).wr I.scr (x + 5) eaddr = s4 at ht
  have p4 : dsWord s4 b = dsWord u b := hds _ (by
    intro g hg
    have ne : ∀ g ∈ [I.dly, I.btaken, I.act, I.rot], I.scr.id ≠ g.id := by decide
    have hg' := ne g hg
    rw [← h4, ← h3, State.rd_wr_cell _ _ _ _ _ _ hg', State.rd_wr_cell _ _ _ _ _ _ hg', State.rd_wr_cell _ _ _ _ _ _ hg', State.rd_wr_cell _ _ _ _ _ _ hg',
      State.rd_wr_cell _ _ _ _ _ _ hg'])
  have p4' : s4.rd I.btgt b = u.rd I.btgt b := by rw [← h4, ← h3]; simp (disch := decide) only [State.rd_wr_cell, hw]
  rw [p4, p4'] at ht
  generalize h5 : (s4.wr I.scr (x + 7) (dsWord u b)).wr I.scr (x + 8) (u.rd I.btgt b) = s5 at ht
  have p5 : scrOf s5 c 1 = u.rd I.scr (x + 1) := by
    rw [hstill s5 1 (by rw [← h5, ← h4, ← h3]; rfl), ← h5, ← h4, ← h3]
    simp (disch := first | decide | omega) only [State.rd_wr_inst, hw]
  rw [p5] at ht
  have hpc : u.rd I.pcb b < 2 ^ 32 := rd_mod_lt u I.pcb b
  have hbt : u.rd I.btgt b < 2 ^ 32 := rd_mod_lt u I.btgt b
  have hstl : st < 2 ^ 32 := hst ▸ rd_mod_lt u I.scr _
  have hst2 := statusWord_lt _ hstl
  have hd := dsWord_lt u b
  refine ⟨?_, ?_, ?_⟩
  · have hscw : I.scr.w = 32 := rfl
    rw [ht, ← h5, ← h4, ← h3]
    simp only [r, hx]
    simp (disch := first | decide | omega) only [State.rd_wr_cell, State.rd_wr_inst, State.rd_wr_same]
    simp only [hscw, show I.pcb.w = 32 from rfl, show I.act.w = 2 from rfl, show I.dly.w = 2 from rfl, show I.btaken.w = 1 from rfl,
      show I.linkV.w = 1 from rfl, hst]
    refine ⟨?_, ?_, ?_, ?_, ?_, ?_, ?_, ?_, ?_, ?_, ?_, ?_⟩ <;> first | trivial | omega
  · rw [ht, ← h5, ← h4, ← h3]
    refine .wr (.wr (.wr (.wr (.wr (.wr (.wr (.wr (.wr (.wr (.wr (.wr (hwq.mono ?_) ?_) ?_) ?_) ?_) ?_) ?_) ?_) ?_) ?_) ?_) ?_) ?_
    all_goals simp [exceptionCells, hbk, ← hx, b]
  · have e : SameButCells w t := by
      rw [ht, ← h5, ← h4, ← h3]
      exact .wr (.wr (.wr (.wr (.wr (.wr (.wr (.wr (.wr (.wr (.wr (.wr (.refl _))))))))))))
    unfold SameButCells at e
    refine e.trans ?_
    conv => lhs; rw [hws]

/-- The cells a trap or exception writes decide nothing of whether a core is awake. -/
theorem boundary_after {s f t : State} {c : Nat} (h : CoreAwake s c) (hf : ∀ g j, f.rd g j = s.rd g j) {l : List (Fld × Nat)}
    (hc : SameCells f t l) (hl : ∀ p ∈ l, ∀ g ∈ wakeCells, p.1.id ≠ g.id) : boundary t c = t :=
  boundary_awake h fun g hg j => (hc g j fun p hp he => absurd he (hl p hp g hg)).trans (hf g j)

theorem not_svc {c : Nat} (h : c < 64) : isSvc c = false := by unfold isSvc; simp; omega

theorem is_svc {c : Nat} (h : 64 ≤ c) : isSvc c = true := by unfold isSvc; simp [h]

theorem trap_case {s : State} {c : Fin 68} (h : CoreReady s c.val) (hc : c.val < 64) (hin : inTrap s (rbank s c.val) = false)
    (i : Instr) (effs : List Eff) (k : Cause) (hm : meetCauses (fetched s c.val) c.val effs = [])
    (hi : exec i s = sSyl s c.val true effs [k]) (hslot : k.slot = 4) (haddr : k.addr = 0) (hcode : k.code < 16)
    (hk : k.code ≠ 9 ∨ (s.on F.MLS_DBG_CFG_BKPTHALT && dbgAvail s) = false) :
    Does i s (fun t => Trapped s t c.val k.code 4 0) := by
  have hsame := fetched_same s c.val
  obtain ⟨b1, b2, b3, b4⟩ := begun_fields s c.val
  have hsv := not_svc hc
  have hb : ∀ x : State, x.rd I.bank c.val = s.rd I.bank c.val → rbank x c.val = rbank s c.val := fun x hx => rbank_congr _ hx
  have hfb := hb (fetched s c.val) (hsame.rd _ _)
  have hnb : (k.code == 9 && (fetched s c.val).on F.MLS_DBG_CFG_BKPTHALT && dbgAvail (fetched s c.val)) = false := by
    have e : ((fetched s c.val).on F.MLS_DBG_CFG_BKPTHALT && dbgAvail (fetched s c.val)) = (s.on F.MLS_DBG_CFG_BKPTHALT && dbgAvail s) := by
      unfold SameButFetch at hsame
      rw [hsame]; rfl
    rcases hk with hk | hk
    · simp [hk]
    · rw [Bool.and_assoc, e, hk, Bool.and_false]
  have hrun : takeCause (fetched s c.val) c.val k = trapBank (begun s c.val) (rbank s c.val) k.code 4 0 false := by
    unfold takeCause
    rw [if_neg (by simp [hnb]), hsv]
    unfold sgcTrap inTrap at *
    rw [hfb, hsame.rd, hin, hslot, haddr]
    rfl
  have hin' : inFlight (begun s c.val) (rbank s c.val) = [] := by rw [begun_inFlight]; exact ready_inFlight h
  obtain ⟨q, qc, qs⟩ := trapBank_says (begun s c.val) (rbank s c.val) k.code 4 0 false hin' hcode (by decide)
  rw [Does, hi, sSyl, cause_taken h clsS (by decide) effs k hm, hrun]
  generalize trapBank (begun s c.val) (rbank s c.val) k.code 4 0 false = t at *
  have hcells : SameCells s t ([(I.pcb, rbank s c.val), (I.cycle, rbank s c.val), (I.qstall, c.val)] ++ trapCells (rbank s c.val)) := by
    refine (b4.mono ?_).trans (qc.mono ?_)
    · simp
    · intro p hp; simp at hp ⊢; rcases hp with rfl | hp <;> simp [*]
  have hbt : boundary t c.val = t := boundary_after (f := s) (ready_awake h) (fun _ _ => rfl) hcells (by
    intro p hp
    have e : p.1 ∈ [I.pcb, I.cycle, I.qstall, I.trpc, I.tds, I.tbtgt, I.taddr, I.tcause, I.act, I.dly, I.btaken] := by
      simp [trapCells] at hp
      rcases hp with rfl | rfl | rfl | rfl | rfl | rfl | rfl | rfl | rfl | rfl | rfl <;> simp
    have : ∀ f ∈ [I.pcb, I.cycle, I.qstall, I.trpc, I.tds, I.tbtgt, I.taddr, I.tcause, I.act, I.dly, I.btaken], ∀ g ∈ wakeCells, f.id ≠ g.id := by decide
    exact this _ e)
  have hr : ∀ g j, I.qstall.id ≠ g.id → (begun s c.val).rd g j = s.rd g j := fun g j hg => begun_ready g j hg
  have htb : rbank t c.val = rbank s c.val := by
    refine hb t (hcells _ _ ?_)
    intro p hp he
    have e : p.1 ∈ [I.pcb, I.cycle, I.qstall, I.trpc, I.tds, I.tbtgt, I.taddr, I.tcause, I.act, I.dly, I.btaken] := by
      simp [trapCells] at hp
      rcases hp with rfl | rfl | rfl | rfl | rfl | rfl | rfl | rfl | rfl | rfl | rfl <;> simp
    have ne : ∀ f ∈ [I.pcb, I.cycle, I.qstall, I.trpc, I.tds, I.tbtgt, I.taddr, I.tcause, I.act, I.dly, I.btaken], f.id ≠ I.bank.id := by decide
    exact absurd he (ne _ e)
  refine ⟨_, congrArg Host.Outcome.next hbt, ?_⟩
  unfold Trapped pcOf
  rw [htb]
  obtain ⟨q1, q2, q3, q4, q5, q6, q7, q8, q9⟩ := q
  rw [hr _ _ (by decide)] at q1 q3 q6
  rw [dsWord_congr (fun g hg => hr g _ (by revert hg; revert g; decide))] at q2
  refine ⟨q1, q2, q3, q4, ?_, q6, q7, q8, q9, ?_, ?_, ?_, ?_, hcells⟩
  · rw [q5]; simp [b2n]
  · unfold bundleOf; rw [qs]; show Tbl.get _ (begun s c.val).bundles _ = _; rw [b2, Tbl.get_drop]; simp
  · unfold SameButCode at *; rw [qs, b1]
  · intro d hd; unfold bundleOf; rw [qs]; show Tbl.get _ (begun s c.val).bundles _ = _; rw [b2, Tbl.get_drop]; simp [Ne.symm hd]
  · intro d hd; unfold inFlight; rw [qs]; show Tbl.get _ (Tbl.drop _ (begun s c.val).landings) _ = _; rw [b3, Tbl.get_drop]; simp [Ne.symm hd]

theorem excCells_mem (s : State) (c : Nat) : ∀ p ∈ [(I.pcb, rbank s c), (I.cycle, rbank s c), (I.qstall, c)] ++ exceptionCells s c,
    p.1 ∈ [I.pcb, I.cycle, I.qstall, I.act, I.dly, I.btaken, I.linkV, I.scr] := by
  intro p hp
  simp only [exceptionCells, List.cons_append, List.nil_append, List.mem_cons, List.map_cons, List.map_nil, List.not_mem_nil, or_false] at hp
  rcases hp with rfl | rfl | rfl | rfl | rfl | rfl | rfl | rfl | rfl | rfl | rfl | rfl | rfl | rfl <;> simp

theorem excCells_wake : ∀ f ∈ [I.pcb, I.cycle, I.qstall, I.act, I.dly, I.btaken, I.linkV, I.scr], ∀ g ∈ wakeCells, f.id ≠ g.id := by decide

/-- An exception from a state u that differs from s in the PC, CYCLE and the stall alone. -/
theorem excepted_from {s u : State} {c : Nat} (hc : 64 ≤ c) (hin : inFlight u (rbank s c) = [])
    (hcode : SameButCode s u) (hbun : ∀ d, d ≠ c → bundleOf u d = bundleOf s d) (hlan : ∀ b, b ≠ rbank s c → inFlight u b = inFlight s b)
    (hcells : SameCells s u [(I.pcb, rbank s c), (I.cycle, rbank s c), (I.qstall, c)]) (code slot addr : Nat) (hx : slot * 256 + code < 2 ^ 32) :
    Excepted s (svcException u c code (slot * 256 + code) addr) c (u.rd I.pcb (rbank s c)) code slot addr (vectorOf code) := by
  have hs := is_svc hc
  have hb : rbank s c = 2 * c := by unfold rbank; rw [hs]; rfl
  have hbt : ∀ x : State, rbank x c = 2 * c := by intro x; unfold rbank; rw [hs]; rfl
  rw [hb] at hin hlan hcells ⊢
  obtain ⟨q, qc, qs⟩ := svcException_says u c code (slot * 256 + code) addr hs hin hx
  generalize svcException u c code (slot * 256 + code) addr = t at *
  have hr : ∀ g j, g.id ∉ [I.pcb.id, I.cycle.id, I.qstall.id] → u.rd g j = s.rd g j := by
    intro g j hg
    apply hcells
    intro p hp he
    simp at hp
    rcases hp with rfl | rfl | rfl <;> exact absurd (by rw [← he]; simp) hg
  obtain ⟨q1, q2, q3, q4, q5, q6, q7, q8, q9, q10, q11, q12⟩ := q
  dsimp only at q1 q2 q8
  rw [hr _ _ (by decide)] at q1 q2 q7 q8
  have hds : dsWord u (2 * c) = dsWord s (2 * c) := dsWord_congr (fun g hg => hr g _ (by
    have : ∀ g ∈ [I.dly, I.btaken, I.act, I.rot], g.id ∉ [I.pcb.id, I.cycle.id, I.qstall.id] := by decide
    exact this g hg))
  rw [hds] at q6
  unfold Excepted pcOf
  rw [hbt t, hb]
  refine ⟨q1, q2, q3, q4, q5, q6, q7, q8, q9, q10, q11, q12, ?_, ?_, ?_, ?_, ?_⟩
  · unfold bundleOf; rw [qs]; show Tbl.get _ (Tbl.drop _ _) _ = _; rw [Tbl.get_drop]; simp
  · unfold SameButCode at *; rw [qs, hcode]
  · intro d hd
    rw [← hbun d hd]; unfold bundleOf; rw [qs]; show Tbl.get _ (Tbl.drop _ _) _ = _; rw [Tbl.get_drop]; simp [Ne.symm hd]
  · intro d hd
    rw [hb] at hd
    rw [← hlan d hd]; unfold inFlight; rw [qs]; show Tbl.get _ (Tbl.drop _ _) _ = _; rw [Tbl.get_drop]; simp [Ne.symm hd]
  · rw [hb]
    refine (hcells.mono ?_).trans (qc.mono ?_)
    · intro p hp; exact List.mem_append_left _ hp
    · intro p hp
      unfold exceptionCells at *
      rw [hbt u] at hp
      rw [hb]
      rcases List.mem_append.mp hp with hp | hp
      · apply List.mem_append_left; simp at hp ⊢; rcases hp with rfl | rfl <;> simp
      · exact List.mem_append_right _ hp

theorem excepted_calm {s t : State} {c epc code slot addr vector : Nat} (h : CoreAwake s c) (he : Excepted s t c epc code slot addr vector) :
    boundary t c = t :=
  boundary_after (f := s) h (fun _ _ => rfl) he.2.2.2.2.2.2.2.2.2.2.2.2.2.2.2.2 (fun p hp => excCells_wake _ (excCells_mem s c p hp))

theorem exception_case {s : State} {c : Fin 68} (h : CoreReady s c.val) (hc : 64 ≤ c.val)
    (i : Instr) (effs : List Eff) (k : Cause) (hm : meetCauses (fetched s c.val) c.val effs = [])
    (hi : exec i s = sSyl s c.val true effs [k]) (hslot : k.slot = 4) (haddr : k.addr = 0) (hcode : k.svcCode < 16)
    (hk : k.code ≠ 9 ∨ (s.on F.MLS_DBG_CFG_BKPTHALT && dbgAvail s) = false) :
    Does i s (fun t => Excepted s t c.val (pcOf s c.val) k.svcCode 4 0 (vectorOf k.svcCode)) := by
  have hsame := fetched_same s c.val
  have hs2 := hsame
  unfold SameButFetch at hs2
  have hlan : (fetched s c.val).landings = s.landings := by rw [hs2]
  have hbun : (fetched s c.val).bundles = s.bundles := by rw [hs2]
  have hnb : (k.code == 9 && (fetched s c.val).on F.MLS_DBG_CFG_BKPTHALT && dbgAvail (fetched s c.val)) = false := by
    have e : ((fetched s c.val).on F.MLS_DBG_CFG_BKPTHALT && dbgAvail (fetched s c.val)) = (s.on F.MLS_DBG_CFG_BKPTHALT && dbgAvail s) := by
      rw [hs2]; rfl
    rcases hk with hk | hk
    · simp [hk]
    · rw [Bool.and_assoc, e, hk, Bool.and_false]
  have hrun : takeCause (fetched s c.val) c.val k = svcException (fetched s c.val) c.val k.svcCode (4 * 256 + k.svcCode) 0 := by
    unfold takeCause
    rw [if_neg (by simp [hnb]), is_svc hc, hslot, haddr]
    rfl
  have hx := excepted_from (s := s) (u := fetched s c.val) hc (by rw [inFlight, hlan]; exact ready_inFlight h)
    (by unfold SameButCode; rw [hs2]) (by intro d _; rw [bundleOf, hbun]; rfl) (by intro b _; rw [inFlight, hlan]; rfl)
    (fun g j _ => hsame.rd g j) k.svcCode 4 0 (by omega)
  rw [hsame.rd] at hx
  rw [Does, hi, sSyl, cause_taken h clsS (by decide) effs k hm, hrun]
  exact ⟨_, congrArg Host.Outcome.next (excepted_calm (ready_awake h) hx), hx⟩

theorem resumeAt_eq (s : State) (b pc ds tgt : Nat) : resumeAt s b pc ds tgt =
    (((((s.wr I.pcb b (pc / 4 * 4)).wr I.btgt b tgt).wr I.dly b (ds % 4)).wr I.btaken b (b2n (ds % 4 != 0))).wr I.act b (ds / 4 % 2 ^ 2)).wr
      I.rot b (ds / 4 / 2 ^ 2 % 2 ^ 28) := by
  unfold resumeAt recordWrite
  simp [recordWord, unspell]

theorem resumeAt_says {s : State} {b pc ds tgt : Nat} (hp : pc < 2 ^ 32) (ht : tgt < 2 ^ 32) :
    let t := resumeAt s b pc ds tgt
    (t.rd I.pcb b = pc / 4 * 4 ∧ t.rd I.btgt b = tgt ∧ t.rd I.dly b = ds % 4 ∧ t.rd I.btaken b = b2n (ds % 4 != 0) ∧
      t.rd I.act b = ds / 4 % 4 ∧ t.rd I.rot b = ds / 16 % 4) ∧
    OnlyCells s t [(I.pcb, b), (I.btgt, b), (I.dly, b), (I.btaken, b), (I.act, b), (I.rot, b)] := by
  intro t
  have e : t = _ := resumeAt_eq s b pc ds tgt
  rw [e]
  constructor
  · simp (disch := decide) only [State.rd_wr_cell, State.rd_wr_same]
    simp only [show I.pcb.w = 32 from rfl, show I.btgt.w = 32 from rfl, show I.dly.w = 2 from rfl, show I.btaken.w = 1 from rfl,
      show I.act.w = 2 from rfl, show I.rot.w = 2 from rfl]
    have hb : b2n (ds % 4 != 0) % 2 = b2n (ds % 4 != 0) := b2n_two _
    refine ⟨by omega, by omega, by omega, by simpa using hb, by omega, by omega⟩
  · refine .wr (.wr (.wr (.wr (.wr (.wr (.refl _ _) ?_) ?_) ?_) ?_) ?_) ?_ <;> simp

/-- A syllable with an act that goes on from the end of its bundle. -/
theorem act_goes {s : State} {c : Nat} (h : CoreReady s c) (a : Act) (hbr : a.isBranch = false)
    (hm : meetOf (fetched s c) c (.act a) = .ok) (hw : queueWaits (fetched s c) (.act a) = false)
    (hn : actNow (begun s c) c a = (begun s c, [])) :
    ∃ v, syllable s c true clsS .only [.act a] [] = boundary (arithDue (actAfter v c (pcOf s c) 1 a) c) c ∧
      Framed s v c [] [] ∧ v.rd I.pcb (rbank s c) = (pcOf s c + 4) % 2 ^ 32 ∧ inFlight v (rbank s c) = [] ∧
      v = { s with cells := v.cells, iLines := v.iLines, tlbs := v.tlbs, freeCtr := v.freeCtr, bundles := v.bundles, landings := v.landings, macShadow := v.macShadow } := by
  have hk := begun_keeps h
  have hord : issueOrder c [.act a] = [.act a] := by unfold issueOrder; simp [Eff.isStore, Eff.isAct]
  have hiss := syllable_issue h clsS [.act a] (by decide) (by simp [meetCauses, hm]) (by simp [faultAddrs, hm]) (by simp [hw]) (by simp)
    (u := begun s c) (new := []) (by rw [hord]; show ((actNow (begun s c) c a).1, (actNow (begun s c) c a).2 ++ []) = _; rw [hn]; rfl) hk
  have hadv : advance (begun s c) (rbank s c) 1 (some a) = (begun s c).wr I.pcb (rbank s c) (pcOf s c + 4) := by
    have := advance_plain (begun s c) (rbank s c) 1 ((begun_ready _ _ (by decide)).trans h.2.2.2.2.2.2.2.1) ((begun_ready _ _ (by decide)).trans h.2.2.2.2.2.2.2.2.1)
    have e : advance (begun s c) (rbank s c) 1 (some a) = advance (begun s c) (rbank s c) 1 none := by
      cases a <;> simp [Act.isBranch] at hbr <;> rfl
    rw [e, this, begun_ready _ _ (by decide)]
    rfl
  simp only [show bundleAct [.act a] = some a from rfl, hadv] at hiss
  have hfr := plain_framed s c (pcOf s c + 4) (macOld (fetched s c) [.act a])
  refine ⟨_, hiss, hfr, ?_, ?_, hfr.2.1.1⟩
  · rw [bundleEnd_rd _ _ _ _ _ _ (fun h => absurd h (by decide)) (by simp), State.rd_wr_same]; rfl
  · rw [bundleEnd_inFlight]; rfl

/-- The end of a resuming act. -/
theorem resumed_frame {s v t : State} {c : Nat} (hv : Framed s v c [] []) {l : List (Fld × Nat)} (ht : OnlyCells v t ((I.pcb, rbank s c) :: l)) :
    bundleOf t c = Bundle.empty ∧ BundleFrame s t c l := by
  obtain ⟨g1, ⟨g2, g3, g4, g5⟩, -⟩ := hv
  obtain ⟨t1, t2⟩ := ht
  unfold SameButCells at t1
  refine ⟨?_, ?_, ?_, ?_, ?_⟩
  · rw [← g1]; unfold bundleOf; rw [t1]
  · unfold SameButCode at *; rw [t1, g2]
  · intro d hd; rw [← g3 d hd]; unfold bundleOf; rw [t1]
  · intro d hd; rw [← g4 d hd]; unfold inFlight; rw [t1]
  · refine (g5.mono ?_).trans (t2.mono ?_)
    · simp
    · intro p hp; simp at hp ⊢; rcases hp with rfl | hp <;> simp [*]

end Sys2Proof.Machine
end

