-- ==== Sys2Proof/Laws/CaseMls.lean ====
section
/-! SUPPORT.  Counters, Milestones and halts. -/

namespace Sys2Proof.Machine

open Safety

theorem wr_at (s : State) (f : Fld) (i v : Nat) : (s.wr f i v).rd f i = v % 2 ^ f.w := State.rd_wr_same _ _ _ _

theorem bump_rd (s : State) (f g : Fld) (i : Nat) (h : g.id ≠ f.id) : (s.bump f i (some g)).rd f i = min (s.rd f i + 1) (2 ^ f.w - 1) := by
  have hlt : s.rd f i < 2 ^ f.w := Nat.mod_lt _ (Nat.two_pow_pos _)
  unfold State.bump
  dsimp only
  split
  · rename_i h1
    have e : (s.wr f i (s.rd f i + 1)).rd f i = s.rd f i + 1 := by rw [wr_at, Nat.mod_eq_of_lt h1]
    split
    · rw [State.set_eq_wr, State.rd_wr_cell _ _ _ _ _ _ h, e]; omega
    · rw [e]; omega
  · omega

theorem bump_only (s : State) (f g : Fld) (i : Nat) (l : List (Fld × Nat)) (h1 : (f, i) ∈ l) (h2 : (g, 0) ∈ l) : OnlyCells s (s.bump f i (some g)) l := by
  unfold State.bump
  dsimp only
  split
  · split
    · exact .wr (.wr (.refl _ _) h1) h2
    · exact .wr (.refl _ _) h1
  · exact .refl _ _

theorem bump_other (s : State) (f g k : Fld) (i j : Nat) (h1 : f.id ≠ k.id) (h2 : g.id ≠ k.id) : (s.bump f i (some g)).rd k j = s.rd k j :=
  (bump_only s f g i [(f, i), (g, 0)] (by simp) (by simp)).2 k j (fun p hp he => by
    simp at hp; rcases hp with rfl | rfl
    · exact absurd he h1
    · exact absurd he h2)

theorem mlsTrig_none (s : State) (n : Nat) (h : Nat.land n (s.rd F.MLS_SRCEN_SRCEN) = 0) : s.mlsTrig n = s := by
  unfold State.mlsTrig; dsimp only; rw [if_pos h]

theorem mlsTrig_taken (s : State) (n : Nat) (h : Nat.land n (s.rd F.MLS_SRCEN_SRCEN) ≠ 0) (ha : s.rd F.MLS_STAT_ARMED = 1) :
    let t := s.mlsTrig n
    (t.rd F.MLS_STAT_ARMED = 0 ∧ t.rd F.MLS_STAT_SEQ = (s.rd F.MLS_STAT_SEQ + 1) % 2 ^ 16 ∧
      t.rd F.MLS_STAT_SRC = Nat.land n (s.rd F.MLS_SRCEN_SRCEN) % 2 ^ 5 ∧ t.rd I.mlsLatch = 1) ∧
    OnlyCells s t [(F.MLS_STAT_ARMED, 0), (F.MLS_STAT_SEQ, 0), (F.MLS_STAT_SRC, 0), (I.mlsLatch, 0)] := by
  intro t
  have ht : t = (((s.wr F.MLS_STAT_ARMED 0 0).wr F.MLS_STAT_SEQ 0 (s.rd F.MLS_STAT_SEQ + 1)).wr F.MLS_STAT_SRC 0 (Nat.land n (s.rd F.MLS_SRCEN_SRCEN))).wr I.mlsLatch 0 1 := by
    show s.mlsTrig n = _
    unfold State.mlsTrig
    dsimp only
    rw [if_neg h, if_pos (by rw [State.on_eq, ha]; rfl)]
    rfl
  clear_value t
  rw [ht]
  refine ⟨?_, .wr (.wr (.wr (.wr (.refl _ _) ?_) ?_) ?_) ?_⟩
  rotate_left
  · simp
  · simp
  · simp
  · simp
  refine ⟨?_, ?_, ?_, ?_⟩
  all_goals simp (disch := decide) only [State.rd_wr_cell, State.rd_wr_same]
  all_goals rfl

theorem mlsTrig_missed (s : State) (n : Nat) (h : Nat.land n (s.rd F.MLS_SRCEN_SRCEN) ≠ 0) (ha : s.rd F.MLS_STAT_ARMED = 0) :
    let t := s.mlsTrig n
    (t.rd F.MLS_IRQSTAT_MISS = 1 ∧ t.rd F.MLS_MISSCNT_COUNT = min (s.rd F.MLS_MISSCNT_COUNT + 1) (2 ^ 32 - 1)) ∧
    OnlyCells s t [(F.MLS_IRQSTAT_MISS, 0), (F.MLS_MISSCNT_COUNT, 0), (F.MLS_IRQSTAT_CNTOVF, 0)] := by
  intro t
  have ht : t = (s.bump F.MLS_MISSCNT_COUNT 0 (some F.MLS_IRQSTAT_CNTOVF)).wr F.MLS_IRQSTAT_MISS 0 1 := by
    show s.mlsTrig n = _
    unfold State.mlsTrig
    dsimp only
    rw [if_neg h, if_neg (by rw [State.on_eq, ha]; decide)]
    rfl
  clear_value t
  rw [ht]
  refine ⟨⟨?_, ?_⟩, .wr (bump_only _ _ _ _ _ ?_ ?_) ?_⟩
  · rw [wr_at]; rfl
  · rw [State.rd_wr_cell _ _ _ _ _ _ (by decide), bump_rd _ _ _ _ (by decide)]; rfl
  all_goals simp

theorem onlyCells_from {s u t : State} {l m : List (Fld × Nat)} (h : OnlyCells s u m) (k : OnlyCells u t l) : OnlyCells s t (l ++ m) :=
  (h.mono (by intro p hp; simp [hp])).trans (k.mono (by intro p hp; simp [hp]))

theorem triggers_from {s u : State} {i : Instr} {n : Nat} {also : List (Fld × Nat)} (hu : OnlyCells s u also)
    (hc : ∀ g ∈ [F.MLS_SRCEN_SRCEN, F.MLS_STAT_ARMED, F.MLS_STAT_SEQ, F.MLS_MISSCNT_COUNT], u.rd g = s.rd g) (hi : exec i s = .next (u.mlsTrig n)) :
    let en := Nat.land n (s.rd F.MLS_SRCEN_SRCEN)
    (en = 0 → Does i s fun t => OnlyCells s t also) ∧
      (en ≠ 0 → s.rd F.MLS_STAT_ARMED = 1 → Does i s fun t => t.rd F.MLS_STAT_ARMED = 0 ∧
        t.rd F.MLS_STAT_SEQ = (s.rd F.MLS_STAT_SEQ + 1) % 2 ^ 16 ∧ t.rd F.MLS_STAT_SRC = en % 2 ^ 5 ∧ t.rd I.mlsLatch = 1 ∧
        OnlyCells s t ([(F.MLS_STAT_ARMED, 0), (F.MLS_STAT_SEQ, 0), (F.MLS_STAT_SRC, 0), (I.mlsLatch, 0)] ++ also)) ∧
      (en ≠ 0 → s.rd F.MLS_STAT_ARMED = 0 → Does i s fun t => t.rd F.MLS_IRQSTAT_MISS = 1 ∧
        t.rd F.MLS_MISSCNT_COUNT = min (s.rd F.MLS_MISSCNT_COUNT + 1) (2 ^ 32 - 1) ∧
        OnlyCells s t ([(F.MLS_IRQSTAT_MISS, 0), (F.MLS_MISSCNT_COUNT, 0), (F.MLS_IRQSTAT_CNTOVF, 0)] ++ also)) := by
  intro en
  have e1 := hc F.MLS_SRCEN_SRCEN (by simp)
  have e2 := hc F.MLS_STAT_ARMED (by simp)
  have e3 := hc F.MLS_STAT_SEQ (by simp)
  have e4 := hc F.MLS_MISSCNT_COUNT (by simp)
  refine ⟨fun h => ⟨_, hi, ?_⟩, fun h ha => ⟨_, hi, ?_⟩, fun h ha => ⟨_, hi, ?_⟩⟩
  · rw [mlsTrig_none u n (by rw [e1]; exact h)]; exact hu
  · obtain ⟨q, qo⟩ := mlsTrig_taken u n (by rw [e1]; exact h) (by rw [e2]; exact ha)
    rw [e1, e3] at q
    exact ⟨q.1, q.2.1, q.2.2.1, q.2.2.2, onlyCells_from hu qo⟩
  · obtain ⟨q, qo⟩ := mlsTrig_missed u n (by rw [e1]; exact h) (by rw [e2]; exact ha)
    rw [e4] at q
    exact ⟨q.1, q.2, onlyCells_from hu qo⟩

theorem mlstone_exec {s : State} (hf : s.fabric = true) (dev : BitVec 11) (seq : BitVec 16) (hr : s.on F.FUS_PMMISC_RMLS = true) :
    exec (.mlstoneRx dev seq) s = .next (((((s.wr F.MLS_RREC_VALID 0 1).wr F.MLS_RREC_DEV 0 dev.toNat).wr F.MLS_RREC_RSEQ 0 seq.toNat).wr F.MLS_IRQSTAT_REMOTE 0 1).mlsTrig 16) := by
  show execMlstoneRx dev seq s = _
  unfold execMlstoneRx mlstoneReceive
  rw [if_pos hf, if_pos hr]; rfl

theorem mlsTrig_keeps (u : State) (n : Nat) (g : Fld) (h : ∀ f ∈ [F.MLS_STAT_ARMED, F.MLS_STAT_SEQ, F.MLS_STAT_SRC, I.mlsLatch, F.MLS_IRQSTAT_MISS,
    F.MLS_MISSCNT_COUNT, F.MLS_IRQSTAT_CNTOVF], f.id ≠ g.id) (j : Nat) : (u.mlsTrig n).rd g j = u.rd g j := by
  have hl : u.rd F.MLS_STAT_ARMED < 2 := Nat.mod_lt _ (by decide)
  by_cases e : Nat.land n (u.rd F.MLS_SRCEN_SRCEN) = 0
  · rw [mlsTrig_none u n e]
  · rcases (by omega : u.rd F.MLS_STAT_ARMED = 1 ∨ u.rd F.MLS_STAT_ARMED = 0) with ha | ha
    · refine (mlsTrig_taken u n e ha).2.2 g j fun p hp he => absurd he (h p.1 ?_)
      simp at hp; rcases hp with rfl | rfl | rfl | rfl <;> simp
    · refine (mlsTrig_missed u n e ha).2.2 g j fun p hp he => absurd he (h p.1 ?_)
      simp at hp; rcases hp with rfl | rfl | rfl <;> simp

theorem snap_other {s t : State} {l : List Fld} {f : Fld} (h : SameOtherCells s t l) (hm : f ∈ l) (i blk off : Nat) : SameOtherCells s (snap t f i blk off) l :=
  SameOtherCells.wr h hm

def systemCells : List Fld := [F.PMU_SNAP_MODE_VALUE, F.PMU_SNAP_NWCNT_LO_VALUE,
        F.PMU_SNAP_NWCNT_HI_VALUE, F.PMU_SNAP_NWOFS_OFS, F.PMU_SNAP_AVS_VALUE, F.PMU_SNAP_THERM_VALUE, F.CLU_SNAP_STATE_STATE,
        F.SYS_SNAP_STATUS_VALUE, F.SYS_SNAP_ERRINFO_VALUE, F.SIC_SNAP_PEND_VALUE]

def jobsCells : List Fld := [F.TSU_SNAP_READYCNT_VALUE,
        F.TSU_SNAP_URGCNT_VALUE, F.TSU_SNAP_TRCSTAT_VALUE, F.TSU_SNAP_DISPCNT_VALUE, F.TSU_SNAP_BUSY_LO_VALUE,
        F.TSU_SNAP_BUSY_HI_VALUE, F.CPG_SNAP_FREE_VALUE, F.CPG_SNAP_STAT_VALUE, F.CPG_SNAP_STAGECNT_VALUE,
        F.CPG_SNAP_WBCNT_VALUE, F.DMA_SNAP_BUSY_VALUE, F.DMC_SNAP_STAT_VALUE, F.DMC_SNAP_ECCCOR_VALUE]

def mediaCells1 : List Fld := [F.PKE_SNAP_CELLSTAT_VALUE, F.PKE_SNAP_CLSCNT_VALUE]

def mediaCells2 : List Fld := [
        F.TMU_SNAP_NS_VALUE, F.TMU_SNAP_LATECNT_VALUE, F.TDX_SNAP_BLKCNT_VALUE, F.TDX_SNAP_FRAME_VALUE, F.TDX_SNAP_CTRL_VALUE,
        F.TDX_SNAP_USECNT_VALUE, F.CWY_SNAP_LSTAT_VALUE, F.CWY_SNAP_EPOCH_VALUE]

theorem sbc_trans {s t u : State} (h : SameButCells s t) (k : SameButCells t u) : SameButCells s u := by
  unfold SameButCells at *; rw [k, h]

theorem over_put (s : State) (l : List Nat) (f : Fld) (g : State → Nat → Nat) (hg : ∀ u i v n, g (u.wr f i v) n = g u n) (j : Nat) :
    (s.over l fun s n => s.wr f n (g s n)).rd f j = if j ∈ l then g s j % 2 ^ f.w else s.rd f j := by
  unfold State.over
  induction l generalizing s with
  | nil => rfl
  | cons a r ih =>
    show (List.foldl _ (s.wr f a (g s a)) r).rd f j = _
    rw [ih, hg]
    by_cases h1 : j ∈ r
    · simp [h1]
    · by_cases h2 : j = a
      · subst h2; simp [h1]
      · have : (s.wr f a (g s a)).rd f j = s.rd f j := State.rd_wr_inst _ _ _ _ _ (Ne.symm h2)
        simp [h1, h2, this]

theorem snapSystem_says (s : State) (ofs : Nat) : let t := snapSystem s ofs
    t.rd F.PMU_SNAP_NWOFS_OFS = ofs % 2 ^ 15 ∧ SameOtherCells s t systemCells ∧ t = { s with cells := t.cells, freeCtr := s.freeCtr + 1 } := by
  intro t
  have hd : ∀ g j, s.draw.2.rd g j = s.rd g j := fun _ _ => rfl
  generalize hr : s.draw = r at hd
  generalize hc : s.rd I.nwCnt + r.1 % 2 = c
  generalize hu : ((((snap r.2 F.PMU_SNAP_MODE_VALUE 0 bPMU 0x800).set F.PMU_SNAP_NWCNT_LO_VALUE c).set F.PMU_SNAP_NWCNT_HI_VALUE (c % 2 ^ 48 / 2 ^ 32))).set
    F.PMU_SNAP_NWOFS_OFS ofs = u
  have ht : t = ((((snap (snap u F.PMU_SNAP_AVS_VALUE 0 bPMU 0x844) F.PMU_SNAP_THERM_VALUE 0 bPMU 0x894)).set F.CLU_SNAP_STATE_STATE
      (cluStates (snap (snap u F.PMU_SNAP_AVS_VALUE 0 bPMU 0x844) F.PMU_SNAP_THERM_VALUE 0 bPMU 0x894)))|> fun v =>
      (snap (snap v F.SYS_SNAP_STATUS_VALUE 0 bSYS 0x80C) F.SYS_SNAP_ERRINFO_VALUE 0 bSYS 0x828).over (List.range 8) fun s k => snap s F.SIC_SNAP_PEND_VALUE k bSIC (0x840 + 4 * k)) := by
    show snapSystem s ofs = _
    rw [← hu, ← hc, ← hr]; simp only [snapSystem]
  clear_value t
  have hu1 : u.rd F.PMU_SNAP_NWOFS_OFS = ofs % 2 ^ 15 := by rw [← hu, State.set_eq_wr, wr_at]; rfl
  have hu2 : SameOtherCells s u systemCells := by
    rw [← hu]
    have h0 : SameOtherCells s r.2 systemCells := fun g j _ => hd g j
    refine .wr (.wr (.wr (snap_other h0 ?_ _ _ _) ?_) ?_) ?_ <;> simp [systemCells]
  have hu3 : SameButCells r.2 u := by rw [← hu]; exact .wr (.wr (.wr (.wr (.refl _))))
  have hst : SameOtherCells u t [F.PMU_SNAP_AVS_VALUE, F.PMU_SNAP_THERM_VALUE, F.CLU_SNAP_STATE_STATE, F.SYS_SNAP_STATUS_VALUE,
      F.SYS_SNAP_ERRINFO_VALUE, F.SIC_SNAP_PEND_VALUE] := by
    rw [ht]
    refine .over (snap_other (snap_other (.wr (snap_other (snap_other (.refl _ _) ?_ _ _ _) ?_ _ _ _) ?_) ?_ _ _ _) ?_ _ _ _) _ _ (fun v k => snap_other (.refl _ _) ?_ _ _ _) <;> simp
  have hsb : SameButCells u t := by
    rw [ht]
    exact .over (.wr (.wr (.wr (.wr (.wr (.refl _)))))) _ _ (fun v k => .wr (.refl _))
  refine ⟨?_, hu2.trans (hst.mono (by simp [systemCells])), ?_⟩
  · rw [hst _ _ (by decide)]; exact hu1
  · have := sbc_trans hu3 hsb
    unfold SameButCells at this
    rw [this, ← hr]; rfl

theorem snapJobs_says (s : State) : SameOtherCells s (snapJobs s) jobsCells ∧ SameButCells s (snapJobs s) := by
  constructor
  · unfold snapJobs
    refine snap_other (snap_other (snap_other (snap_other (snap_other (snap_other (snap_other (.wr (.wr (snap_other (snap_other (snap_other (snap_other (.refl _ _) ?_ _ _ _) ?_ _ _ _)
      ?_ _ _ _) ?_ _ _ _) ?_) ?_) ?_ _ _ _) ?_ _ _ _) ?_ _ _ _) ?_ _ _ _) ?_ _ _ _) ?_ _ _ _) ?_ _ _ _ <;> simp [jobsCells]
  · unfold snapJobs
    exact .wr (.wr (.wr (.wr (.wr (.wr (.wr (.wr (.wr (.wr (.wr (.wr (.wr (.refl _)))))))))))))

theorem snapMedia_says (s : State) : let t := snapMedia s
    (∀ n, n < 16 → t.rd F.HMN_SNS_SNAP_VALUE n = s.rd F.HMN_SNS_DATA_WORD n) ∧
      (∀ p, p < 8 → t.rd F.PKE_SNAP_TXFRM_VALUE p = s.rd F.PKE_P_CNT_COUNT (12 * p + 5) ∧
        t.rd F.PKE_SNAP_RXFRM_VALUE p = s.rd F.PKE_P_CNT_COUNT (12 * p)) ∧
    SameOtherCells s t (mediaCells1 ++ [F.PKE_SNAP_TXFRM_VALUE, F.PKE_SNAP_RXFRM_VALUE] ++ mediaCells2 ++ [F.HMN_SNS_SNAP_VALUE, F.MLS_SNAP_STAT_VALUE, F.MLS_SNAP_MISSCNT_VALUE]) ∧
    SameButCells s t := by
  intro t
  generalize h1 : snap (snap s F.PKE_SNAP_CELLSTAT_VALUE 0 bPKE 0x80C) F.PKE_SNAP_CLSCNT_VALUE 0 bPKE 0x838 = u1
  generalize h2 : (u1.over (List.range 8) fun s p =>
    (s.wr F.PKE_SNAP_TXFRM_VALUE p (s.rd F.PKE_P_CNT_COUNT (12 * p + 5))).wr F.PKE_SNAP_RXFRM_VALUE p (s.rd F.PKE_P_CNT_COUNT (12 * p))) = u2
  generalize h3 : (let s := u2.over (List.range 4) fun s b => s.wr F.TMU_SNAP_NS_VALUE b (tbNs s b)
    let s := snap s F.TMU_SNAP_LATECNT_VALUE 0 bTMU 0x820
    let s := snap (snap s F.TDX_SNAP_BLKCNT_VALUE 0 bTDX 0x830) F.TDX_SNAP_FRAME_VALUE 0 bTDX 0x834
    let s := snap (snap s F.TDX_SNAP_CTRL_VALUE 0 bTDX 0x800) F.TDX_SNAP_USECNT_VALUE 0 bTDX 0x838
    let s := s.over (List.range 14) fun s l => s.wr F.CWY_SNAP_LSTAT_VALUE l (lStatWord s l)
    snap s F.CWY_SNAP_EPOCH_VALUE 0 bCWY 0x804) = u3
  generalize h4 : (u3.over (List.range 16) fun s n => s.wr F.HMN_SNS_SNAP_VALUE n (s.rd F.HMN_SNS_DATA_WORD n)) = u4
  have ht : t = snap (snap u4 F.MLS_SNAP_STAT_VALUE 0 bMLS 0x810) F.MLS_SNAP_MISSCNT_VALUE 0 bMLS 0x814 := by
    show snapMedia s = _
    rw [← h4, ← h3, ← h2, ← h1]; simp only [snapMedia]
  clear_value t
  have a1 : SameOtherCells s u1 mediaCells1 := by
    rw [← h1]; refine snap_other (snap_other (.refl _ _) ?_ _ _ _) ?_ _ _ _ <;> simp [mediaCells1]
  have b1 : SameButCells s u1 := by rw [← h1]; exact .wr (.wr (.refl _))
  have a2 : SameOtherCells u1 u2 [F.PKE_SNAP_TXFRM_VALUE, F.PKE_SNAP_RXFRM_VALUE] := by
    rw [← h2]; exact .over (.refl _ _) _ _ (fun v k => .wr (.wr (.refl _ _) (by simp)) (by simp))
  have b2 : SameButCells u1 u2 := by rw [← h2]; exact .over (.refl _) _ _ (fun v k => .wr (.wr (.refl _)))
  have a3 : SameOtherCells u2 u3 mediaCells2 := by
    rw [← h3]
    refine snap_other (.over (snap_other (snap_other (snap_other (snap_other (snap_other (.over (.refl _ _) _ _ (fun v k => .wr (.refl _ _) ?_)) ?_ _ _ _) ?_ _ _ _) ?_ _ _ _) ?_ _ _ _) ?_ _ _ _)
      _ _ (fun v k => .wr (.refl _ _) ?_)) ?_ _ _ _ <;> simp [mediaCells2]
  have b3 : SameButCells u2 u3 := by
    rw [← h3]
    exact .wr (.over (.wr (.wr (.wr (.wr (.wr (.over (.refl _) _ _ (fun v k => .wr (.refl _)))))))) _ _ (fun v k => .wr (.refl _)))
  have a4 : SameOtherCells u3 u4 [F.HMN_SNS_SNAP_VALUE] := by
    rw [← h4]; exact .over (.refl _ _) _ _ (fun v k => .wr (.refl _ _) (by simp))
  have b4 : SameButCells u3 u4 := by rw [← h4]; exact .over (.refl _) _ _ (fun v k => .wr (.refl _))
  have a5 : SameOtherCells u4 t [F.MLS_SNAP_STAT_VALUE, F.MLS_SNAP_MISSCNT_VALUE] := by
    rw [ht]; refine snap_other (snap_other (.refl _ _) ?_ _ _ _) ?_ _ _ _ <;> simp
  have b5 : SameButCells u4 t := by rw [ht]; exact .wr (.wr (.refl _))
  have hv4 : ∀ n, n < 16 → u4.rd F.HMN_SNS_SNAP_VALUE n = u3.rd F.HMN_SNS_DATA_WORD n := by
    intro n hn
    rw [← h4, over_put u3 (List.range 16) F.HMN_SNS_SNAP_VALUE (fun s n => s.rd F.HMN_SNS_DATA_WORD n)
      (fun u i v n => State.rd_wr_cell _ _ _ _ _ _ (by decide)), if_pos (by simp [hn])]
    exact Nat.mod_eq_of_lt (Nat.mod_lt _ (by decide))
  have hv2 : ∀ p, p < 8 → u2.rd F.PKE_SNAP_TXFRM_VALUE p = u1.rd F.PKE_P_CNT_COUNT (12 * p + 5) ∧
        u2.rd F.PKE_SNAP_RXFRM_VALUE p = u1.rd F.PKE_P_CNT_COUNT (12 * p) := by
    have key : ∀ (l : List Nat) (s : State) (p : Nat), ((s.over l fun s p =>
        (s.wr F.PKE_SNAP_TXFRM_VALUE p (s.rd F.PKE_P_CNT_COUNT (12 * p + 5))).wr F.PKE_SNAP_RXFRM_VALUE p (s.rd F.PKE_P_CNT_COUNT (12 * p))).rd F.PKE_SNAP_TXFRM_VALUE p =
          if p ∈ l then s.rd F.PKE_P_CNT_COUNT (12 * p + 5) else s.rd F.PKE_SNAP_TXFRM_VALUE p) ∧
        ((s.over l fun s p =>
        (s.wr F.PKE_SNAP_TXFRM_VALUE p (s.rd F.PKE_P_CNT_COUNT (12 * p + 5))).wr F.PKE_SNAP_RXFRM_VALUE p (s.rd F.PKE_P_CNT_COUNT (12 * p))).rd F.PKE_SNAP_RXFRM_VALUE p =
          if p ∈ l then s.rd F.PKE_P_CNT_COUNT (12 * p) else s.rd F.PKE_SNAP_RXFRM_VALUE p) := by
      intro l
      induction l with
      | nil => intro s p; exact ⟨rfl, rfl⟩
      | cons a r ih =>
        intro s p
        generalize hu : (s.wr F.PKE_SNAP_TXFRM_VALUE a (s.rd F.PKE_P_CNT_COUNT (12 * a + 5))).wr F.PKE_SNAP_RXFRM_VALUE a (s.rd F.PKE_P_CNT_COUNT (12 * a)) = u
        have e : (s.over (a :: r) fun s p => (s.wr F.PKE_SNAP_TXFRM_VALUE p (s.rd F.PKE_P_CNT_COUNT (12 * p + 5))).wr F.PKE_SNAP_RXFRM_VALUE p (s.rd F.PKE_P_CNT_COUNT (12 * p))) =
            u.over r fun s p => (s.wr F.PKE_SNAP_TXFRM_VALUE p (s.rd F.PKE_P_CNT_COUNT (12 * p + 5))).wr F.PKE_SNAP_RXFRM_VALUE p (s.rd F.PKE_P_CNT_COUNT (12 * p)) := by
          rw [← hu]; simp only [State.over, List.foldl_cons]
        rw [e, (ih u p).1, (ih u p).2]
        have c1 : ∀ j, u.rd F.PKE_P_CNT_COUNT j = s.rd F.PKE_P_CNT_COUNT j := by intro j; rw [← hu]; simp (disch := decide) only [State.rd_wr_cell]
        rw [c1, c1]
        by_cases g1 : p ∈ r
        · simp [g1]
        · by_cases g2 : p = a
          · subst g2
            simp only [g1, if_false, List.mem_cons, true_or, if_true]
            rw [← hu]
            simp (disch := decide) only [State.rd_wr_cell, State.rd_wr_same]
            exact ⟨Nat.mod_eq_of_lt (Nat.mod_lt _ (by decide)), Nat.mod_eq_of_lt (Nat.mod_lt _ (by decide))⟩
          · simp only [g1, g2, if_false, List.mem_cons, or_self]
            rw [← hu]
            rw [State.rd_wr_cell _ _ _ _ _ _ (by decide), State.rd_wr_inst _ _ _ _ _ (Ne.symm g2), State.rd_wr_inst _ _ _ _ _ (Ne.symm g2), State.rd_wr_cell _ _ _ _ _ _ (by decide)]
            exact ⟨rfl, rfl⟩
    intro p hp
    rw [← h2, (key _ _ p).1, (key _ _ p).2, if_pos (by simp [hp]), if_pos (by simp [hp])]
    exact ⟨rfl, rfl⟩
  refine ⟨fun n hn => ?_, fun p hp => ?_, ?_, sbc_trans b1 (sbc_trans b2 (sbc_trans b3 (sbc_trans b4 b5)))⟩
  · rw [a5 _ _ (by decide), hv4 n hn, a3 _ _ (by decide), a2 _ _ (by decide), a1 _ _ (by decide)]
  · rw [a5 _ _ (by decide), a4 _ _ (by decide), a3 _ _ (by decide), (hv2 p hp).1, a1 _ _ (by decide)]
    rw [a5 _ _ (by decide), a4 _ _ (by decide), a3 _ _ (by decide), (hv2 p hp).2, a1 _ _ (by decide)]
    exact ⟨rfl, rfl⟩
  · refine (a1.mono ?_).trans ((a2.mono ?_).trans ((a3.mono ?_).trans ((a4.mono ?_).trans (a5.mono ?_)))) <;> decide

theorem sendMlstones_none (s : State) (h : ∀ k, k < 8 → s.rd F.MLS_CWDEV_VALID k = 0) : sendMlstones s = s := by
  unfold sendMlstones
  split
  · rfl
  · have : (List.range 8).filter (s.on F.MLS_CWDEV_VALID ·) = [] := by
      rw [List.filter_eq_nil_iff]
      intro a ha
      rw [List.mem_range] at ha
      rw [State.on_eq, h a ha]; decide
    rw [this]; rfl

theorem latch_let (s u0 u1 u2 t v : State) (ofs : Nat) (h0 : s.set I.mlsLatch 0 = u0)
    (h1 : (if u0.on F.MLS_TRCCFG_HOLDEN then u0.set I.mlsPost (u0.rd F.MLS_TRCCFG_POSTCNT + 1) else u0) = u1)
    (h2 : (snapMedia (snapJobs (snapSystem u1 ofs))).set F.MLS_IRQSTAT_TAKEN 1 = u2)
    (h3 : (if u2.on F.MLS_OUTCFG_EN then u2.set I.mlOut 1 else u2) = t) (h4 : sendMlstones t = v) :
    milestoneLatch s ofs = if v.on I.fencePend then enterFenced v (v.rd I.fencePend - 1) else v := by
  subst h0; subst h1; subst h2; subst h3; subst h4
  unfold milestoneLatch
  rfl

theorem latch_cond {s : State} (u0 : State) (h : s.wr I.mlsLatch 0 0 = u0) : u0.on F.MLS_TRCCFG_HOLDEN = s.on F.MLS_TRCCFG_HOLDEN ∧
    u0.rd F.MLS_TRCCFG_POSTCNT = s.rd F.MLS_TRCCFG_POSTCNT := by
  subst h
  rw [State.on_eq, State.rd_wr_cell _ _ _ _ _ _ (by decide), State.rd_wr_cell _ _ _ _ _ _ (by decide)]
  exact ⟨rfl, rfl⟩

theorem over_one {s t : State} {l pre post : List Nat} {c : Nat} {f : State → Nat → State} (hl : l = pre ++ c :: post)
    (h1 : ∀ d ∈ pre, f s d = s) (h2 : f s c = t) (h3 : ∀ d ∈ post, f t d = t) : s.over l f = t := by
  have still : ∀ (u : State) (m : List Nat), (∀ d ∈ m, f u d = u) → List.foldl f u m = u := by
    intro u m hm
    induction m with
    | nil => rfl
    | cons a r ih =>
      show List.foldl f (f u a) r = u
      rw [hm a (by simp)]; exact ih fun d hd => hm d (by simp [hd])
  unfold State.over
  rw [hl, List.foldl_append, still s pre h1, List.foldl_cons, h2, still t post h3]

theorem range_split {n c : Nat} (h : c < n) : List.range n = List.range c ++ c :: List.range' (c + 1) (n - c - 1) := by
  have h1 : List.range n = List.range' 0 n := List.range_eq_range' ..
  have h2 : List.range c = List.range' 0 c := List.range_eq_range' ..
  rw [h1, h2]
  have : n = c + (1 + (n - c - 1)) := by omega
  conv => lhs; rw [this]
  rw [← List.range'_append_1, Nat.zero_add, ← List.range'_append_1]
  rfl

theorem bitOf_two_pow (p v : Nat) : bitOf (2 ^ v) p = decide (v = p) := by
  have h := Nat.testBit_two_pow (n := v) (m := p)
  unfold bitOf; rw [← h, Nat.testBit_eq_decide_div_mod_eq]; rfl

theorem halt_case {s : State} {c : Nat} {v : Word} (hf : s.fabric = true) (hc : c < 32) (hv : v.toNat = 2 ^ c) (h0 : s.rd F.MLS_DBG_HALTED_LO_CORES = 0)
    (hb : atBoundary s c = true) :
    Does (.dbgHalt .dbg false false v) s (fun t => t.rd F.MLS_DBG_HALT_LO_CORES = v.toNat ∧
        t.rd F.MLS_DBG_HALTED_LO_CORES = v.toNat ∧ bundleOf t c = Bundle.empty ∧ (∀ d, d ≠ c → bundleOf t d = bundleOf s d) ∧
        SameCells s t [(F.MLS_DBG_HALT_LO_CORES, 0), (F.MLS_DBG_HALTED_LO_CORES, 0), (I.qstall, c)] ∧
        t = { s with cells := t.cells, bundles := t.bundles }) := by
  have h32 : v.toNat % 2 ^ 32 = v.toNat := Nat.mod_eq_of_lt v.isLt
  generalize hu : s.wr F.MLS_DBG_HALT_LO_CORES 0 v.toNat = u
  have hu1 : u.rd F.MLS_DBG_HALT_LO_CORES = 2 ^ c := by rw [← hu, wr_at, ← hv]; exact h32
  have hu2 : u.rd F.MLS_DBG_HALTED_LO_CORES = 0 := by rw [← hu, State.rd_wr_cell _ _ _ _ _ _ (by decide)]; exact h0
  have hub : atBoundary u c = true := by
    have : ∀ x : State, x.wr F.MLS_DBG_HALT_LO_CORES 0 v.toNat = u → atBoundary u c = atBoundary x c := by
      intro x hx
      rw [← hx]
      unfold atBoundary
      have : (x.wr F.MLS_DBG_HALT_LO_CORES 0 v.toNat).on I.qstall c = x.on I.qstall c := by
        rw [State.on_eq, State.rd_wr_cell _ _ _ _ _ _ (by decide)]; rfl
      rw [this]; rfl
    rw [this s hu]; exact hb
  generalize hw : ({ u.wr I.qstall c 0 with bundles := Tbl.drop c u.bundles } : State) = w
  have hw0 : w.rd F.MLS_DBG_HALTED_LO_CORES = 0 := by
    have : w.rd F.MLS_DBG_HALTED_LO_CORES = (u.wr I.qstall c 0).rd F.MLS_DBG_HALTED_LO_CORES := by rw [← hw]; rfl
    rw [this, State.rd_wr_cell _ _ _ _ _ _ (by decide)]; exact hu2
  generalize ht : w.wr F.MLS_DBG_HALTED_LO_CORES 0 (2 ^ c) = t
  have ht1 : t.rd F.MLS_DBG_HALTED_LO_CORES = 2 ^ c := by rw [← ht, wr_at, ← hv]; exact h32
  have htw : ∀ g j, I.qstall.id ≠ g.id → F.MLS_DBG_HALTED_LO_CORES.id ≠ g.id → t.rd g j = u.rd g j := by
    intro g j n1 n2
    rw [← ht, State.rd_wr_cell _ _ _ _ _ _ n2, ← hw]
    exact State.rd_wr_cell _ _ _ _ _ _ n1
  have hset : setHalted w c true = t := by
    unfold setHalted
    simp only [hc, if_true, State.set_eq_wr, hw0]
    rw [← ht]
    have : putBit 0 c true = 2 ^ c := by simp [putBit, setBit, bitOf]
    rw [this]
  have hnow : haltNow u c = t := by
    unfold haltNow
    rw [if_pos hub, ← hset, ← hw]
  have reqU : ∀ d, d < 32 → haltReq u d = decide (c = d) := by
    intro d hd
    unfold haltReq coreBit
    simp only [hd, if_true, hu1]
    exact bitOf_two_pow _ _
  have hltU : ∀ d, d < 32 → halted u d = false := by
    intro d hd
    unfold halted coreBit
    simp only [hd, if_true, hu2]
    simp [bitOf]
  have reqT : ∀ d, d < 32 → haltReq t d = decide (c = d) := by
    intro d hd
    unfold haltReq coreBit
    simp only [hd, if_true, htw F.MLS_DBG_HALT_LO_CORES 0 (by decide) (by decide), hu1]
    exact bitOf_two_pow _ _
  have hltT : ∀ d, d < 32 → halted t d = decide (c = d) := by
    intro d hd
    unfold halted coreBit
    simp only [hd, if_true, ht1]
    exact bitOf_two_pow _ _
  have hrun : exec (.dbgHalt .dbg false false v) s = .next t := by
    show execDbgHalt .dbg false false v s = _
    unfold execDbgHalt
    rw [if_pos hf]
    have e : haltWrite s .dbg (if false then 2 else b2n false) v.toNat = u.over (List.range 32) haltFollow := by
      rw [← hu]; rfl
    rw [e]
    refine congrArg Host.Outcome.next (over_one (range_split hc) ?_ ?_ ?_)
    · intro d hd
      rw [List.mem_range] at hd
      unfold haltFollow
      rw [reqU d (by omega), hltU d (by omega)]
      simp; omega
    · unfold haltFollow
      rw [reqU c hc, hltU c hc, hnow]; simp
    · intro d hd
      rw [List.mem_range'_1] at hd
      unfold haltFollow
      rw [reqT d (by omega), hltT d (by omega)]
      have : decide (c = d) = false := by simp; omega
      rw [this]; simp
  have hbu : t.bundles = Tbl.drop c s.bundles := by rw [← ht, ← hw, ← hu]; rfl
  refine ⟨t, hrun, ?_, ?_, ?_, ?_, ?_, ?_⟩
  · rw [htw _ _ (by decide) (by decide), hu1, hv]
  · rw [ht1, hv]
  · unfold bundleOf; rw [hbu, Tbl.get_drop]; simp
  · intro d hd; unfold bundleOf; rw [hbu, Tbl.get_drop]; simp [Ne.symm hd]
  · rw [← ht]
    refine .wr (.of_rd (t := u.wr I.qstall c 0) ?_ (fun g j => by rw [← hw]; rfl)) (by simp)
    rw [← hu]
    exact .wr (.wr (.refl _ _) (by simp)) (by simp)
  · rw [← ht, ← hw, ← hu]; rfl

end Sys2Proof.Machine
end

