-- ==== Sys2Proof/Laws/CaseBus.lean ====
section
/-! SUPPORT.  Register fields, select registers, and accesses of memory by the host and the debug port. -/

namespace Sys2Proof.Machine

open Safety

theorem bits_lt (v hi lo : Nat) : bits v hi lo < 2 ^ (hi + 1 - lo) := Nat.mod_lt _ (Nat.two_pow_pos _)

theorem fieldWrite_only (s : State) (i : Nat) (f : RegFld) (x : Nat) : OnlyCells s (fieldWrite s i f x) [(f.fld, i)] := by
  unfold fieldWrite
  cases f.acc <;> dsimp only <;> (try split) <;> first | exact .refl _ _ | exact .wr (.refl _ _) (by simp)

theorem fields_over (v k : Nat) (l : List RegFld) (s : State) :
    OnlyCells s (s.over l fun s f => fieldWrite s k f (bits v (f.lo + f.fld.w - 1) f.lo)) (l.map fun g => (g.fld, k)) := by
  induction l generalizing s with
  | nil => exact .refl _ _
  | cons a r ih =>
    have h1 := fieldWrite_only s k a (bits v (a.lo + a.fld.w - 1) a.lo)
    exact (h1.mono (by intro p hp; simp at hp; simp [hp])).trans ((ih _).mono (by intro p hp; simp at hp ⊢; exact .inr hp))

theorem field_of (v k : Nat) (l : List RegFld) (hp : l.Pairwise fun a b => a.fld.id ≠ b.fld.id) (s : State) (f : RegFld) (hf : f ∈ l) :
    (s.over l fun s f => fieldWrite s k f (bits v (f.lo + f.fld.w - 1) f.lo)).rd f.fld k =
      (fieldWrite s k f (bits v (f.lo + f.fld.w - 1) f.lo)).rd f.fld k := by
  induction l generalizing s with
  | nil => simp at hf
  | cons a r ih =>
    rw [List.pairwise_cons] at hp
    have e : (s.over (a :: r) fun s f => fieldWrite s k f (bits v (f.lo + f.fld.w - 1) f.lo)) =
      (fieldWrite s k a (bits v (a.lo + a.fld.w - 1) a.lo)).over r fun s f => fieldWrite s k f (bits v (f.lo + f.fld.w - 1) f.lo) := rfl
    rw [e]
    rcases List.mem_cons.mp hf with rfl | hr
    · refine (fields_over v k r _).2 _ _ ?_
      intro p hpm he
      simp at hpm
      obtain ⟨b, hb, rfl⟩ := hpm
      exact absurd he (hp.1 b hb).symm
    · rw [ih hp.2 _ hr]
      have h1 := fieldWrite_only s k a (bits v (a.lo + a.fld.w - 1) a.lo)
      have h2 : (fieldWrite s k a (bits v (a.lo + a.fld.w - 1) a.lo)).rd f.fld k = s.rd f.fld k :=
        h1.2 _ _ (fun p hpm he => by simp at hpm; subst hpm; exact absurd he (hp.1 f hr))
      generalize fieldWrite s k a (bits v (a.lo + a.fld.w - 1) a.lo) = u at *
      have key : ∀ x : Nat, (u.wr f.fld k x).rd f.fld k = (s.wr f.fld k x).rd f.fld k := by intro x; rw [State.rd_wr_same, State.rd_wr_same]
      unfold fieldWrite
      rw [h2]
      cases f.acc <;> dsimp only <;> (try split) <;> first | exact key _ | exact h2

theorem findReg_mem {off : Nat} {l : List Reg} {r : Reg} {k : Nat} (h : findReg off l = some (r, k)) : r ∈ l := by
  induction l with
  | nil => simp [findReg] at h
  | cons a t ih =>
    unfold findReg at h
    split at h
    · cases h; simp
    · simp [ih h]

theorem sys_kinds : ∀ r ∈ regTable_SYS, r.kind = .arr ∧ (r.fields.Pairwise fun a b => a.fld.id ≠ b.fld.id) ∧ ∀ f ∈ r.fields, 0 < f.fld.w := by decide

theorem svc_clock (s : State) (ini : Init) (h : ∀ n, ini ≠ .svc n) : svcFullClock s ini = s := by
  cases ini <;> first | rfl | exact absurd rfl (h _)

theorem select_ids (b : Nat) : ∀ i e n, selectOf b = some (i, e, n) → i.id ≠ e.id ∧ i.w = 16 ∧ e.w = 1 := by
  intro i e n h
  unfold selectOf at h
  split at h <;> first | (cases h; decide) | exact absurd h (by simp)

theorem select_case {s : State} {ini : Init} {v : Nat} {i : Instr} {sel : Fld × Fld × Nat} (h : sel.1.id ≠ sel.2.1.id ∧ sel.1.w = 16 ∧ sel.2.1.w = 1)
    (hi : exec i s = .next (selectWrite s ini sel v)) : (selCopy ini = none → Does i s (fun t => t = s)) ∧
      ∀ k, selCopy ini = some k → Does i s (fun t => t.rd sel.1 k = v % 65536 ∧
        t.rd sel.2.1 k = (if sel.2.2 ≤ v % 65536 then 1 else 0) ∧ OnlyCells s t [(sel.1, k), (sel.2.1, k)]) := by
  constructor
  · intro hc
    refine ⟨s, ?_, rfl⟩
    rw [hi]; unfold selectWrite; rw [hc]
  · intro k hc
    refine ⟨_, hi, ?_⟩
    unfold selectWrite; rw [hc]
    dsimp only
    refine ⟨?_, ?_, .wr (.wr (.refl _ _) (by simp)) (by simp)⟩
    · rw [State.rd_wr_cell _ _ _ _ _ _ h.1.symm, State.rd_wr_same, h.2.1]; exact Nat.mod_mod _ _
    · rw [State.rd_wr_same, h.2.2]
      by_cases g : sel.2.2 ≤ v % 65536 <;> simp [g, b2n]

theorem markRings_only (s : State) (a n : Nat) : SameOtherCells s (markRings s a n) [I.linkV, I.txWr, I.txWrC] ∧ SameButCells s (markRings s a n) := by
  unfold markRings
  split
  · exact ⟨.refl _ _, .refl _⟩
  · constructor
    · refine .over (.refl _ _) _ _ fun v k => ?_
      split
      · exact .wr (.wr (.refl _ _) (by simp)) (by simp)
      · exact .refl _ _
    · refine .over (.refl _) _ _ fun v k => ?_
      split
      · exact .wr (.wr (.refl _))
      · exact .refl _

theorem breakLinks_only (s : State) (a n : Nat) : SameOtherCells s (breakLinks s a n) [I.linkV, I.txWr, I.txWrC] ∧ SameButCells s (breakLinks s a n) := by
  unfold breakLinks
  exact ⟨.over (.refl _ _) _ _ fun v k => .wr (.refl _ _) (by simp), .over (.refl _) _ _ fun v k => .wr (.refl _)⟩

theorem physWrite_says (s : State) (a : Nat) (l : List Byte) : let t := physWrite s a l
    t.mem = (s.writeBytes a l).mem ∧ SameOtherCells s t [I.linkV, I.txWr, I.txWrC] ∧ t = { s with cells := t.cells, mem := t.mem } := by
  intro t
  obtain ⟨a1, b1⟩ := markRings_only (s.writeBytes a l) a l.length
  obtain ⟨a2, b2⟩ := breakLinks_only (markRings (s.writeBytes a l) a l.length) a l.length
  have ht : t = breakLinks (markRings (s.writeBytes a l) a l.length) a l.length := rfl
  rw [← ht] at a2 b2
  clear_value t
  unfold SameButCells at b1 b2
  have hm : t.mem = (s.writeBytes a l).mem := by rw [b2, b1]
  refine ⟨hm, ?_, ?_⟩
  · exact SameOtherCells.trans (t := s.writeBytes a l) (fun g j _ => State.writeBytes_rd _ _ _ _ _) (a1.trans a2)
  · rw [hm]
    have h0 := State.writeBytes_same s a l
    refine b2.trans ?_
    conv => lhs; rw [b1]
    generalize s.writeBytes a l = u at *
    conv => lhs; rw [h0]

theorem stored_says (s : State) (a n x : Nat) (l : List Byte) (hl : l = leBytes n x) : let t := physWrite s a l
    t.readLE a n = x % 256 ^ n ∧ (∀ y, y < a ∨ a + n ≤ y → t.byte y = s.byte y) := by
  intro t
  obtain ⟨hm, -⟩ := physWrite_says s a l
  subst hl
  have hb : ∀ y, t.byte y = (s.writeLE a n x).byte y := by intro y; unfold State.byte State.writeLE; rw [← hm]
  constructor
  · rw [← State.readLE_writeLE s a n x]
    unfold State.readLE State.readBytes
    simp only [hb]
  · intro y hy
    rw [hb, State.byte_writeLE, if_neg (by omega)]

theorem write_pks {s : State} {ini : Init} {a n x : Nat} (he : ending s ini a n true = .ok) (hp : place s a = .pks) :
    busWrite s ini a (leBytes n x) = (.ok, physWrite s a (leBytes n x)) := by
  unfold busWrite
  rw [leBytes_length, he]
  dsimp only
  rw [hp]; rfl

theorem read_pks {s : State} {ini : Init} {a n : Nat} (he : ending s ini a n false = .ok) (hp : place s a = .pks) :
    busRead s ini a n = (.ok, s.readLE a n, s) := by
  unfold busRead
  rw [he]
  dsimp only
  rw [hp]; rfl

theorem record_says (s : State) (ini : Init) (write : Bool) (p : Nat) (h1 : s.rd F.SYS_ERRINFO_VALID = 0) (h2 : bitOf (s.rd F.MLS_ERRSEL_SEL) 0 = false) :
    let t := s.recordErr ini 0 write p
    (t.rd F.SYS_ERRADDR_LO_ADDR = p % 2 ^ 32 ∧
      t.rd F.SYS_ERRADDR_HI_ADDR = p / 2 ^ 32 % 2 ^ F.SYS_ERRADDR_HI_ADDR.w ∧ t.rd F.SYS_ERRINFO_KIND = 0 ∧
      t.rd F.SYS_ERRINFO_WRITE = b2n write ∧ t.rd F.SYS_ERRINFO_INIT = initCode ini % 256 ∧ t.rd F.SYS_ERRINFO_VALID = 1 ∧ t.mem = s.mem) := by
  intro t
  have ht : t = (((((s.wr F.SYS_ERRADDR_LO_ADDR 0 p).wr F.SYS_ERRADDR_HI_ADDR 0 (p / 2 ^ 32)).wr F.SYS_ERRINFO_KIND 0 0).wr F.SYS_ERRINFO_WRITE 0 (b2n write)).wr
      F.SYS_ERRINFO_INIT 0 (initCode ini)).wr F.SYS_ERRINFO_VALID 0 1 := by
    show s.recordErr ini 0 write p = _
    unfold State.recordErr
    rw [if_neg (by rw [State.on_eq, h1]; decide)]
    unfold State.errEvent
    rw [if_neg]; · rfl
    simp (disch := decide) only [State.set_eq_wr, State.rd_wr_cell]
    rw [h2]; decide
  clear_value t
  rw [ht]
  refine ⟨?_, ?_, ?_, ?_, ?_, ?_, rfl⟩
  all_goals simp (disch := decide) only [State.rd_wr_cell, State.rd_wr_same]
  · rfl
  · rfl
  · cases write <;> rfl
  · rfl
  · rfl

theorem write_decode {s : State} {ini : Init} {a n x : Nat} (he : ending s ini a n true = .decode) :
    busWrite s ini a (leBytes n x) = (.decode, s.recordErr ini 0 true a) := by
  unfold busWrite
  rw [leBytes_length, he]
  rfl

theorem read_decode {s : State} {ini : Init} {a n : Nat} (he : ending s ini a n false = .decode) :
    busRead s ini a n = (.decode, 0, s.recordErr ini 0 false a) := by
  unfold busRead
  rw [he]
  rfl

theorem record_host (s : State) (write : Bool) (p : Nat) (h1 : s.rd F.SYS_ERRINFO_VALID = 0) (h2 : bitOf (s.rd F.MLS_ERRSEL_SEL) 0 = false) (t : State)
    (ht : s.recordErr .host 0 write p = t) (n : Nat) (hn : b2n write = n) :
    t.rd F.SYS_ERRADDR_LO_ADDR = p % 2 ^ 32 ∧
      t.rd F.SYS_ERRADDR_HI_ADDR = p / 2 ^ 32 % 2 ^ F.SYS_ERRADDR_HI_ADDR.w ∧ t.rd F.SYS_ERRINFO_KIND = 0 ∧
      t.rd F.SYS_ERRINFO_WRITE = n ∧ t.rd F.SYS_ERRINFO_INIT = 0x48 ∧ t.rd F.SYS_ERRINFO_VALID = 1 ∧ t.mem = s.mem := by
  have q := record_says s .host write p h1 h2
  dsimp only at q
  rw [ht, hn] at q
  exact q

theorem ofLE_lt (l : List Byte) : ofLE l < 256 ^ l.length := by
  induction l with
  | nil => decide
  | cons b r ih =>
    show b.toNat + 256 * ofLE r < 256 ^ (r.length + 1)
    have := b.isLt
    rw [Nat.pow_succ]; omega

theorem readLE_lt (s : State) (a n : Nat) : s.readLE a n < 256 ^ n := by
  have := ofLE_lt (s.readBytes a n)
  rw [show (s.readBytes a n).length = n by simp [State.readBytes]] at this
  exact this

end Sys2Proof.Machine
end

