-- ==== Sys2Proof/Laws/CaseClu.lean ====
section
/-! SUPPORT.  Bits of numbers, lost memory, cluster power and CST banks. -/

namespace Sys2Proof.Machine

open Safety

theorem bitOf_setBit (v k j : Nat) : bitOf (setBit v k) j = (bitOf v j || j == k) := by
  unfold setBit
  split
  · rename_i h
    by_cases e : j = k
    · subst e; rw [h]; rfl
    · simp [e]
  · rename_i h
    have h0 : bitOf v k = false := by simpa using h
    have : v + 2 ^ k = v ||| 2 ^ k := by
      have hb : v &&& 2 ^ k = 0 := by
        rw [and_two_pow]
        rw [bitOf_testBit] at h0
        rw [h0]; rfl
      have h1 := or_two_pow v k
      have e1 : Nat.land (2 ^ k) (2 ^ k) = 2 ^ k := Nat.and_self _
      have e2 : Nat.land v (2 ^ k) = 0 := hb
      rw [e1, e2] at h1
      exact h1
    rw [this, bit_or]

theorem bitOf_clrBit (v k j : Nat) : bitOf (clrBit v k) j = (bitOf v j && j != k) := by
  unfold clrBit
  split
  · rename_i h
    have hv : v / 2 ^ k % 2 = 1 := by simpa [bitOf] using h
    have hle : 2 ^ k ≤ v := by
      rcases Nat.lt_or_ge v (2 ^ k) with g | g
      · rw [Nat.div_eq_of_lt g] at hv; omega
      · exact g
    have hw : bitOf (v - 2 ^ k) k = false := by
      have e : v / 2 ^ k = (v - 2 ^ k) / 2 ^ k + 1 := by
        conv => lhs; rw [show v = (v - 2 ^ k) + 2 ^ k by omega]
        exact Nat.add_div_right _ (Nat.two_pow_pos _)
      unfold bitOf
      have : (v - 2 ^ k) / 2 ^ k % 2 = 0 := by omega
      rw [this]; rfl
    have hs : setBit (v - 2 ^ k) k = v := by unfold setBit; rw [hw]; exact Nat.sub_add_cancel hle
    have hj := bitOf_setBit (v - 2 ^ k) k j
    rw [hs] at hj
    by_cases e : j = k
    · subst e; rw [hw]; simp
    · have e2 : (j == k) = false := by simpa using e
      have e3 : (j != k) = true := by simpa using e
      rw [hj, e2, e3, Bool.or_false, Bool.and_true]
  · rename_i h
    by_cases e : j = k
    · subst e; simpa using h
    · simp [e]

theorem lt_of_bits {v n : Nat} (h : ∀ k, n ≤ k → bitOf v k = false) : v < 2 ^ n := by
  apply Nat.lt_pow_two_of_testBit
  intro i hi
  have := h i hi
  rwa [bitOf_testBit] at this

theorem bits_of_lt {v n k : Nat} (h : v < 2 ^ n) (hk : n ≤ k) : bitOf v k = false := by
  rw [bitOf_testBit]
  exact Nat.testBit_lt_two_pow (Nat.lt_of_lt_of_le h (Nat.pow_le_pow_right (by decide) hk))

theorem byte_loseMem (s : State) (a n x : Nat) : (s.loseMem a n).byte x = if a ≤ x ∧ x < a + n then Memory.unwritten else s.byte x := by
  have key : ∀ t : Tbl Byte, Tbl.get Memory.unwritten (Tbl.clearRange a n t) x = if a ≤ x ∧ x < a + n then Memory.unwritten else Tbl.get Memory.unwritten t x := by
    intro t
    induction t with
    | nil => simp [Tbl.clearRange, Tbl.keep, Tbl.get]
    | cons e r ih =>
      unfold Tbl.clearRange Tbl.keep at *
      rw [List.filter_cons]
      by_cases hx : a ≤ x ∧ x < a + n
      · rw [if_pos hx] at ih ⊢
        split
        · rename_i he
          have hne : e.1 ≠ x := by intro h; subst h; simp [hx] at he
          show Tbl.get _ ((e.1, e.2) :: _) x = _
          unfold Tbl.get
          rw [if_neg hne]; exact ih
        · exact ih
      · rw [if_neg hx] at ih ⊢
        split
        · show Tbl.get _ ((e.1, e.2) :: _) x = Tbl.get _ ((e.1, e.2) :: r) x
          unfold Tbl.get
          split
          · rfl
          · exact ih
        · rename_i he
          have hne : e.1 ≠ x := by intro h; subst h; simp [hx] at he
          show _ = Tbl.get _ ((e.1, e.2) :: r) x
          conv => rhs; unfold Tbl.get
          rw [if_neg hne]; exact ih
  exact key s.mem

theorem cluLoseMem_says (s : State) (c : Nat) : let t := cluLoseMem s c
    (∀ a, t.byte a = if 0x30000000 + c * 0x200000 ≤ a ∧ a < 0x30000000 + c * 0x200000 + 0x200000 then Memory.unwritten else s.byte a) ∧
      (∀ n, Tbl.get [] t.iLines n = if n / 8 = c then [] else Tbl.get [] s.iLines n) ∧ t = { s with mem := t.mem, iLines := t.iLines } := by
  have step : ∀ (l : List Nat) (s : State),
      let t := s.over l fun s n => { s.loseMem (0x30000000 + n * 0x40000) 0x40000 with iLines := Tbl.drop n s.iLines }
      (∀ a, t.byte a = if ∃ n ∈ l, 0x30000000 + n * 0x40000 ≤ a ∧ a < 0x30000000 + n * 0x40000 + 0x40000 then Memory.unwritten else s.byte a) ∧
      (∀ n, Tbl.get [] t.iLines n = if n ∈ l then [] else Tbl.get [] s.iLines n) ∧ t = { s with mem := t.mem, iLines := t.iLines } := by
    intro l
    induction l with
    | nil => intro s; refine ⟨?_, ?_, rfl⟩ <;> intro a <;> simp [State.over]
    | cons n r ih =>
      intro s
      generalize hu : ({ s.loseMem (0x30000000 + n * 0x40000) 0x40000 with iLines := Tbl.drop n s.iLines } : State) = u
      obtain ⟨h1, h2, h3⟩ := ih u
      intro t
      have ht : t = u.over r fun s n => { s.loseMem (0x30000000 + n * 0x40000) 0x40000 with iLines := Tbl.drop n s.iLines } := by
        rw [← hu]; rfl
      rw [← ht] at h1 h2 h3
      clear_value t
      have hub : ∀ a, u.byte a = (s.loseMem (0x30000000 + n * 0x40000) 0x40000).byte a := by intro a; rw [← hu]; rfl
      have hui : u.iLines = Tbl.drop n s.iLines := by rw [← hu]
      refine ⟨fun a => ?_, fun m => ?_, ?_⟩
      · rw [h1, hub, byte_loseMem]
        by_cases e1 : ∃ n ∈ r, 0x30000000 + n * 0x40000 ≤ a ∧ a < 0x30000000 + n * 0x40000 + 0x40000
        · have : ∃ m ∈ n :: r, 0x30000000 + m * 0x40000 ≤ a ∧ a < 0x30000000 + m * 0x40000 + 0x40000 := by
            obtain ⟨m, hm, h⟩ := e1; exact ⟨m, by simp [hm], h⟩
          rw [if_pos e1, if_pos this]
        · rw [if_neg e1]
          by_cases e2 : 0x30000000 + n * 0x40000 ≤ a ∧ a < 0x30000000 + n * 0x40000 + 0x40000
          · rw [if_pos e2, if_pos ⟨n, by simp, e2⟩]
          · rw [if_neg e2, if_neg]
            rintro ⟨m, hm, h⟩
            rcases List.mem_cons.mp hm with rfl | hm
            · exact e2 h
            · exact e1 ⟨m, hm, h⟩
      · rw [h2, hui, Tbl.get_drop]
        by_cases e1 : m ∈ r
        · simp [e1]
        · by_cases e2 : m = n
          · subst e2; simp
          · simp [e1, e2, Ne.symm e2]
      · refine h3.trans ?_
        rw [← hu]; rfl
  intro t
  obtain ⟨h1, h2, h3⟩ := step (cluCores c) s
  refine ⟨fun a => ?_, fun n => ?_, h3⟩
  · refine (h1 a).trans ?_
    by_cases e : 0x30000000 + c * 0x200000 ≤ a ∧ a < 0x30000000 + c * 0x200000 + 0x200000
    · rw [if_pos e, if_pos]
      refine ⟨8 * c + (a - (0x30000000 + c * 0x200000)) / 0x40000, ?_, ?_⟩
      · exact List.mem_map.mpr ⟨(a - (0x30000000 + c * 0x200000)) / 0x40000, List.mem_range.mpr (by omega), rfl⟩
      · have hq := Nat.div_add_mod (a - (0x30000000 + c * 0x200000)) 0x40000
        have hm := Nat.mod_lt (a - (0x30000000 + c * 0x200000)) (show 0 < 0x40000 by decide)
        have e1 : ∀ q, (8 * c + q) * 0x40000 = c * 0x200000 + 0x40000 * q := by
          intro q; rw [Nat.add_mul, Nat.mul_comm 8 c, Nat.mul_assoc, Nat.mul_comm q]
        rw [e1]
        generalize 0x40000 * ((a - (0x30000000 + c * 0x200000)) / 0x40000) = x at *
        generalize (a - (0x30000000 + c * 0x200000)) % 0x40000 = r at *
        generalize c * 0x200000 = y at *
        obtain ⟨e2, e3⟩ := e
        constructor
        · omega
        · omega
    · rw [if_neg e, if_neg]
      rintro ⟨n, hn, h⟩
      simp [cluCores] at hn
      obtain ⟨k, hk, rfl⟩ := hn
      omega
  · refine (h2 n).trans ?_
    by_cases e : n / 8 = c
    · rw [if_pos e, if_pos]
      simp [cluCores]; exact ⟨n - 8 * c, by omega, by omega⟩
    · rw [if_neg e, if_neg]
      simp [cluCores]; intro k hk; omega

theorem descend {s : State} {c st : Nat} (h : s.serving = true ∧ s.rd F.CLU_STAT_DAWN c = 0 ∧ s.rd F.CLU_STAT_DRAINWB c = 0 ∧ cluIdle s c = true)
    (h1 : cluSt s c = st) (h2 : st < s.rd F.CLU_CFG_FLOOR c) : mayDescend s c st = true := by
  unfold mayDescend
  rw [h.1, h1, State.on_eq, State.on_eq, h.2.1, h.2.2.1, h.2.2.2]
  simp [h2]

theorem bump_none_only (s : State) (f : Fld) (i : Nat) (l : List (Fld × Nat)) (h1 : (f, i) ∈ l) : OnlyCells s (s.bump f i none) l := by
  unfold State.bump
  dsimp only
  split
  · split
    · exact .wr (.refl _ _) h1
    · exact .wr (.refl _ _) h1
  · exact .refl _ _

theorem wake_case {s : State} {c : Nat} (h1 : s.rd F.CLU_STAT_DAWN c = 0) (h2 : s.rd F.CLU_STAT_DRAINWB c = 0) (h3 : cluSt s c ≠ 0) (h4 : avsActive s = false) :
    let t := cluWake s c
    t.rd F.CLU_STAT_DAWN c = 1 ∧ cluSt t c = cluSt s c ∧
      t.rd I.cluPh c = (if cluSt s c = 3 then 1 else if cluSt s c = 2 then 2 else 3) ∧
      OnlyCells s t [(F.CLU_STAT_DAWN, c), (F.CLU_DAWNCNT_COUNT, c), (I.cluPh, c)] := by
  generalize hp : (if cluSt s c = 3 then 1 else if cluSt s c = 2 then 2 else 3) = ph
  have hph : ph < 4 := by rw [← hp]; split <;> (try split) <;> omega
  generalize hu : ((s.wr F.CLU_STAT_DAWN c 1).bump F.CLU_DAWNCNT_COUNT c none).wr I.cluPh c ph = u
  have hb := bump_none_only (s.wr F.CLU_STAT_DAWN c 1) F.CLU_DAWNCNT_COUNT c [(F.CLU_STAT_DAWN, c), (F.CLU_DAWNCNT_COUNT, c), (I.cluPh, c)] (by simp)
  have hbc := bump_none_only (s.wr F.CLU_STAT_DAWN c 1) F.CLU_DAWNCNT_COUNT c [(F.CLU_DAWNCNT_COUNT, c)] (by simp)
  have ho : OnlyCells s u [(F.CLU_STAT_DAWN, c), (F.CLU_DAWNCNT_COUNT, c), (I.cluPh, c)] := by
    rw [← hu]
    exact .wr ((OnlyCells.wr (.refl _ _) (by simp)).trans hb) (by simp)
  have hr : ∀ g j, (∀ f ∈ [F.CLU_STAT_DAWN, F.CLU_DAWNCNT_COUNT, I.cluPh], f.id ≠ g.id) → u.rd g j = s.rd g j := by
    intro g j hg
    exact ho.2 g j (fun p hpm he => by simp at hpm; rcases hpm with rfl | rfl | rfl <;> exact absurd he (hg _ (by simp)))
  have hav : avsActive u = false := by
    rw [← h4]; unfold avsActive State.fabric State.mode State.on
    rw [hr _ _ (by decide), hr _ _ (by decide), hr _ _ (by decide)]
  have ht : cluWake s c = u := by
    unfold cluWake
    rw [if_neg (by rw [State.on_eq, h1]; decide), if_neg (by rw [State.on_eq, h2]; decide), if_neg h3]
    unfold dawnStart
    dsimp only
    have : (if cluSt s c = clPWROFF then 1 else if cluSt s c = clPLLOFF then 2 else 3) = ph := hp
    rw [this, hu, hav]
    simp
  intro t
  have : t = u := ht
  rw [this]
  refine ⟨?_, hr _ _ (by decide), ?_, ho⟩
  · rw [← hu, State.rd_wr_cell _ _ _ _ _ _ (by decide), hbc.2 _ _ (by simp; decide), State.rd_wr_same]; rfl
  · rw [← hu, State.rd_wr_same]; exact Nat.mod_eq_of_lt hph

theorem dawn_case {s : State} {c ph st : Nat} (h1 : s.rd F.CLU_STAT_DAWN c = 1) (h2 : s.rd I.cluPh c = ph) :
    dawnStep s c ph st = (s.wr F.CLU_STAT_STATE c st).wr I.cluPh c ((ph + 1) % 4) := by
  unfold dawnStep
  rw [if_pos (by rw [State.on_eq, h1, h2]; simp)]

theorem banks_over (v : Nat) (n : Nat) (s : State) (hv : ∀ k, k < n → bits v (2 * k + 1) (2 * k) ≠ 3) (hn : n ≤ 16) :
    let t := s.over (List.range n) fun s b => setBank s b (bits v (2 * b + 1) (2 * b))
    t.rd F.PMU_CSTBANK_MODE = v % 4 ^ n + s.rd F.PMU_CSTBANK_MODE / 4 ^ n * 4 ^ n ∧
      (∀ k, bitOf (t.rd F.PMU_CSTSTAT_AWAKE) k = if k < n then (bits v (2 * k + 1) (2 * k) == 0 || (bits v (2 * k + 1) (2 * k) == 1 && bitOf (s.rd F.PMU_CSTSTAT_AWAKE) k))
        else bitOf (s.rd F.PMU_CSTSTAT_AWAKE) k) ∧ OnlyCells s t [(F.PMU_CSTBANK_MODE, 0), (F.PMU_CSTSTAT_AWAKE, 0)] := by
  induction n with
  | zero =>
    refine ⟨?_, fun k => by simp; rfl, .refl _ _⟩
    show s.rd F.PMU_CSTBANK_MODE = _
    simp [Nat.mod_one]
  | succ n ih =>
    obtain ⟨h1, h2, h3⟩ := ih (fun k hk => hv k (by omega)) (by omega)
    intro t
    have ht : t = setBank (s.over (List.range n) fun s b => setBank s b (bits v (2 * b + 1) (2 * b))) n (bits v (2 * n + 1) (2 * n)) := by
      show s.over (List.range (n + 1)) _ = _
      unfold State.over
      rw [List.range_succ, List.foldl_append]; rfl
    generalize (s.over (List.range n) fun s b => setBank s b (bits v (2 * b + 1) (2 * b))) = u at *
    clear_value t
    have hm3 := hv n (by omega)
    generalize hm : bits v (2 * n + 1) (2 * n) = m at *
    have hm4 : m = v / 4 ^ n % 4 := by
      rw [← hm]
      show v / 2 ^ (2 * n) % 2 ^ (2 * n + 1 + 1 - 2 * n) = _
      rw [Nat.pow_mul, show 2 * n + 1 + 1 - 2 * n = 2 by omega, show (2 : Nat) ^ 2 = 4 from rfl]
    have hold : bits (u.rd F.PMU_CSTBANK_MODE) (2 * n + 1) (2 * n) = s.rd F.PMU_CSTBANK_MODE / 4 ^ n % 4 := by
      show u.rd F.PMU_CSTBANK_MODE / 2 ^ (2 * n) % 2 ^ (2 * n + 1 + 1 - 2 * n) = _
      rw [Nat.pow_mul, show 2 * n + 1 + 1 - 2 * n = 2 by omega, h1]
      show (v % 4 ^ n + s.rd F.PMU_CSTBANK_MODE / 4 ^ n * 4 ^ n) / 4 ^ n % 4 = _
      rw [Nat.add_mul_div_right _ _ (Nat.pow_pos (by decide)), Nat.div_eq_of_lt (Nat.mod_lt _ (Nat.pow_pos (by decide))), Nat.zero_add]
    have hmode : u.rd F.PMU_CSTBANK_MODE - s.rd F.PMU_CSTBANK_MODE / 4 ^ n % 4 * 4 ^ n + m * 4 ^ n =
        v % 4 ^ (n + 1) + s.rd F.PMU_CSTBANK_MODE / 4 ^ (n + 1) * 4 ^ (n + 1) := by
      rw [h1, hm4]
      generalize s.rd F.PMU_CSTBANK_MODE = o
      rw [Nat.pow_succ, Nat.mod_mul, ← Nat.div_div_eq_div_mul]
      generalize hq : 4 ^ n = q
      generalize v / q % 4 = a
      generalize v % q = b
      generalize hoq : o / q = z
      have hz := Nat.div_add_mod z 4
      generalize z / 4 = y at *
      generalize z % 4 = x at *
      subst hz
      have e1 : (4 * y + x) * q = y * (q * 4) + x * q := by rw [Nat.add_mul]; congr 1; rw [Nat.mul_comm 4 y, Nat.mul_assoc, Nat.mul_comm 4 q]
      rw [e1, Nat.mul_comm q a]
      omega
    have hlt : v % 4 ^ (n + 1) + s.rd F.PMU_CSTBANK_MODE / 4 ^ (n + 1) * 4 ^ (n + 1) < 2 ^ 32 := by
      have hs : s.rd F.PMU_CSTBANK_MODE < 2 ^ 32 := State.rd_lt _ _ _
      generalize s.rd F.PMU_CSTBANK_MODE = o at *
      have hp : 2 ^ 32 = 4 ^ (15 - n) * 4 ^ (n + 1) := by
        rw [← Nat.pow_add, show 15 - n + (n + 1) = 16 by omega]; norm_num
      rw [hp] at hs ⊢
      have h4 : 0 < 4 ^ (n + 1) := Nat.pow_pos (by decide)
      have hd : o / 4 ^ (n + 1) < 4 ^ (15 - n) := by rw [Nat.div_lt_iff_lt_mul h4]; exact hs
      have hvm : v % 4 ^ (n + 1) < 4 ^ (n + 1) := Nat.mod_lt _ h4
      calc v % 4 ^ (n + 1) + o / 4 ^ (n + 1) * 4 ^ (n + 1) < 4 ^ (n + 1) + o / 4 ^ (n + 1) * 4 ^ (n + 1) := by omega
        _ = (o / 4 ^ (n + 1) + 1) * 4 ^ (n + 1) := by rw [Nat.add_mul]; omega
        _ ≤ 4 ^ (15 - n) * 4 ^ (n + 1) := Nat.mul_le_mul_right _ hd
    generalize haw : (if m = 0 then setBit (u.rd F.PMU_CSTSTAT_AWAKE) n else if m = 1 then u.rd F.PMU_CSTSTAT_AWAKE else clrBit (u.rd F.PMU_CSTSTAT_AWAKE) n) = aw at *
    have hset : setBank u n m = (u.wr F.PMU_CSTBANK_MODE 0 (v % 4 ^ (n + 1) + s.rd F.PMU_CSTBANK_MODE / 4 ^ (n + 1) * 4 ^ (n + 1))).wr F.PMU_CSTSTAT_AWAKE 0 aw := by
      unfold setBank
      rw [if_neg (by simp [hm3])]
      dsimp only
      rw [if_neg hm3, hold, hmode, State.set_eq_wr, State.set_eq_wr, State.rd_wr_cell _ _ _ _ _ _ (by decide), haw]
    rw [hset] at ht
    have hbit : ∀ k, bitOf aw k = if k < n + 1 then (bits v (2 * k + 1) (2 * k) == 0 || (bits v (2 * k + 1) (2 * k) == 1 && bitOf (s.rd F.PMU_CSTSTAT_AWAKE) k))
        else bitOf (s.rd F.PMU_CSTSTAT_AWAKE) k := by
      intro k
      rw [← haw]
      by_cases hk : k = n
      · subst hk
        have hu2 := h2 k
        simp only [Nat.lt_irrefl, if_false] at hu2
        simp only [Nat.lt_succ_self, if_true, hm]
        split
        · rename_i h0; rw [bitOf_setBit, h0]; simp
        · split
          · rename_i h0; rw [h0, hu2]; simp
          · rename_i h0 h01
            rw [bitOf_clrBit]
            have a1 : (m == 0) = false := by simpa using h0
            have a2 : (m == 1) = false := by simpa using h01
            rw [a1, a2]; simp
      · have hu2 := h2 k
        have e1 : (k < n + 1) ↔ (k < n) := by omega
        simp only [e1]
        rw [← hu2]
        have hkn : (k == n) = false := by simpa using hk
        split
        · rw [bitOf_setBit, hkn]; simp
        · split
          · rfl
          · rw [bitOf_clrBit]
            have : (k != n) = true := by simpa using hk
            rw [this]; simp
    have haw16 : aw < 2 ^ 16 := by
      apply lt_of_bits
      intro k hk
      rw [hbit, if_neg (by omega)]
      exact bits_of_lt (State.rd_lt s F.PMU_CSTSTAT_AWAKE 0) hk
    rw [ht]
    refine ⟨?_, fun k => ?_, .wr (.wr h3 (by simp)) (by simp)⟩
    · rw [State.rd_wr_cell _ _ _ _ _ _ (by decide), State.rd_wr_same]
      exact Nat.mod_eq_of_lt hlt
    · rw [State.rd_wr_same, Nat.mod_eq_of_lt (show aw < 2 ^ F.PMU_CSTSTAT_AWAKE.w from haw16)]
      exact hbit k

end Sys2Proof.Machine
end

