-- ==== Sys2Proof/Laws/CaseBoot.lean ====
section
/-! SUPPORT.  Reset, modes and boot: what the shared operations leave. -/

namespace Sys2Proof.Machine

open Safety

theorem loseAll_rd (s : State) (keep : Nat → Bool) (g : Fld) (j : Nat) :
    (s.loseAll keep).rd g j = if keep g.id then s.rd g j else State.reset.rd g j := by
  show Tbl.get _ (Tbl.get [] (Tbl.keep keep s.cells) g.id) j % _ = _
  rw [Tbl.get_keep]
  split <;> rfl

theorem setPens_rd (s : State) (v k : Nat) (h : k < 8) : (s.setPens v).rd I.pinPen k = v % 4 := by
  have : (s.setPens v) = (((((((s.wr I.pinPen 0 v).wr I.pinPen 1 v).wr I.pinPen 2 v).wr I.pinPen 3 v).wr I.pinPen 4 v).wr I.pinPen 5 v).wr I.pinPen 6 v).wr I.pinPen 7 v := rfl
  rw [this]
  simp only [State.rd_wr]
  have e : (2 : Nat) ^ I.pinPen.w = 4 := rfl
  rw [e]
  have : k = 0 ∨ k = 1 ∨ k = 2 ∨ k = 3 ∨ k = 4 ∨ k = 5 ∨ k = 6 ∨ k = 7 := by omega
  rcases this with rfl | rfl | rfl | rfl | rfl | rfl | rfl | rfl <;> rfl

theorem setPens_other (s : State) (v : Nat) (g : Fld) (j : Nat) (h : I.pinPen.id ≠ g.id) : (s.setPens v).rd g j = s.rd g j :=
  State.over_rd s (List.range 8) (fun s k => s.wr I.pinPen k v) g j fun _ _ => State.rd_wr_cell _ _ _ _ _ _ h

theorem setPens_only (s : State) (v : Nat) : SameButCells s (s.setPens v) :=
  SameButCells.over (SameButCells.refl s) (List.range 8) (fun s k => s.wr I.pinPen k v) fun u _ => SameButCells.wr (SameButCells.refl u)

/-- Entry to RESET: the cells kept keep their values, the others take their reset values, but for those of the transition. -/
theorem enterReset_says (s : State) (cause : Nat) (hb : s.rd I.fuseBurn = 0) (hc : cause < 16) : let t := enterReset s cause
    t.mode = mRESET ∧ t.rd F.PMU_MODE_CAUSE = cause ∧ t.rd F.PMU_MODE_REFUSED = 0 ∧ t.rd F.PMU_IRQSTAT_MODEDONE = 1 ∧
      (∀ k, k < 8 → t.rd I.pinPen k = 0) ∧
      (∀ g j, (∀ f ∈ [F.PMU_MODE_CURRENT, F.PMU_MODE_CAUSE, F.PMU_MODE_REFUSED, I.watchEntry, I.wakePend, I.watchFromReset,
        F.PMU_IRQSTAT_MODEDONE, I.pinPen], f.id ≠ g.id) → t.rd g j = if keptByReset g.id then s.rd g j else State.reset.rd g j) ∧
      t = { State.reset with pending := s.pending, cells := t.cells, mem := s.mem, freeCtr := s.freeCtr, rdata := s.rdata, partialFuses := s.partialFuses } := by
  have he : enterReset s cause = ((puts (s.loseAll keptByReset) [(F.PMU_MODE_CURRENT, 0, mRESET), (F.PMU_MODE_CAUSE, 0, cause), (F.PMU_MODE_REFUSED, 0, 0),
      (I.watchEntry, 0, 0), (I.wakePend, 0, 0), (I.watchFromReset, 0, 0), (F.PMU_IRQSTAT_MODEDONE, 0, 1)]).setPens 0) := by
    unfold enterReset
    rw [State.on_eq, hb]; rfl
  dsimp only
  rw [he]
  have hr := loseAll_rd s keptByReset
  have hs : SameButCells (s.loseAll keptByReset) { State.reset with pending := s.pending, cells := (s.loseAll keptByReset).cells, mem := s.mem, freeCtr := s.freeCtr, rdata := s.rdata, partialFuses := s.partialFuses } := rfl
  have hlose : s.loseAll keptByReset = { State.reset with pending := s.pending, cells := (s.loseAll keptByReset).cells, mem := s.mem, freeCtr := s.freeCtr, rdata := s.rdata, partialFuses := s.partialFuses } := rfl
  generalize s.loseAll keptByReset = u at *
  refine ⟨?_, ?_, ?_, ?_, fun k hk => setPens_rd _ 0 k hk, fun g j hg => ?_, ?_⟩
  · unfold State.mode; rw [setPens_other _ _ _ _ (by decide)]; simp only [puts, List.foldl_cons, List.foldl_nil]
    simp (disch := decide) only [State.rd_wr_cell, State.rd_wr_same]; rfl
  · rw [setPens_other _ _ _ _ (by decide)]; simp only [puts, List.foldl_cons, List.foldl_nil]
    simp (disch := decide) only [State.rd_wr_cell, State.rd_wr_same]; exact Nat.mod_eq_of_lt hc
  · rw [setPens_other _ _ _ _ (by decide)]; simp only [puts, List.foldl_cons, List.foldl_nil]
    simp (disch := decide) only [State.rd_wr_cell, State.rd_wr_same]; rfl
  · rw [setPens_other _ _ _ _ (by decide)]; simp only [puts, List.foldl_cons, List.foldl_nil]
    simp (disch := decide) only [State.rd_wr_cell, State.rd_wr_same]; rfl
  · simp only [List.mem_cons, List.not_mem_nil, or_false, forall_eq_or_imp, forall_eq] at hg
    obtain ⟨h1, h2, h3, h4, h5, h6, h7, h8⟩ := hg
    rw [setPens_other _ _ _ _ h8]
    simp only [puts, List.foldl_cons, List.foldl_nil]
    rw [State.rd_wr_cell _ _ _ _ _ _ h7, State.rd_wr_cell _ _ _ _ _ _ h6, State.rd_wr_cell _ _ _ _ _ _ h5, State.rd_wr_cell _ _ _ _ _ _ h4,
      State.rd_wr_cell _ _ _ _ _ _ h3, State.rd_wr_cell _ _ _ _ _ _ h2, State.rd_wr_cell _ _ _ _ _ _ h1]
    exact hr g j
  · have h1 := setPens_only (puts u [(F.PMU_MODE_CURRENT, 0, mRESET), (F.PMU_MODE_CAUSE, 0, cause), (F.PMU_MODE_REFUSED, 0, 0),
      (I.watchEntry, 0, 0), (I.wakePend, 0, 0), (I.watchFromReset, 0, 0), (F.PMU_IRQSTAT_MODEDONE, 0, 1)]) 0
    have h2 := SameButCells.puts u [(F.PMU_MODE_CURRENT, 0, mRESET), (F.PMU_MODE_CAUSE, 0, cause), (F.PMU_MODE_REFUSED, 0, 0),
      (I.watchEntry, 0, 0), (I.wakePend, 0, 0), (I.watchFromReset, 0, 0), (F.PMU_IRQSTAT_MODEDONE, 0, 1)]
    generalize puts u _ = a at *
    generalize a.setPens 0 = t at *
    unfold SameButCells at h1 h2
    rw [h2] at h1
    exact h1.trans (congrArg (fun (x : State) => { x with cells := t.cells }) hlose)

/-- The last of eight numbers with a property. -/
theorem find_last (p : Nat → Bool) (k : Nat) (hk : k < 8) (h : p k = true) (hn : ∀ j, k < j → j < 8 → p j = false) :
    (List.range 8).reverse.find? p = some k := by
  have : k = 0 ∨ k = 1 ∨ k = 2 ∨ k = 3 ∨ k = 4 ∨ k = 5 ∨ k = 6 ∨ k = 7 := by omega
  have e : (List.range 8).reverse = [7, 6, 5, 4, 3, 2, 1, 0] := rfl
  rw [e]
  have g := fun j h1 h2 => hn j h1 h2
  rcases this with rfl | rfl | rfl | rfl | rfl | rfl | rfl | rfl
  · simp [List.find?_cons, h, g 1 (by decide) (by decide), g 2 (by decide) (by decide), g 3 (by decide) (by decide), g 4 (by decide) (by decide), g 5 (by decide) (by decide), g 6 (by decide) (by decide), g 7 (by decide) (by decide)]
  · simp [List.find?_cons, h, g 2 (by decide) (by decide), g 3 (by decide) (by decide), g 4 (by decide) (by decide), g 5 (by decide) (by decide), g 6 (by decide) (by decide), g 7 (by decide) (by decide)]
  · simp [List.find?_cons, h, g 3 (by decide) (by decide), g 4 (by decide) (by decide), g 5 (by decide) (by decide), g 6 (by decide) (by decide), g 7 (by decide) (by decide)]
  · simp [List.find?_cons, h, g 4 (by decide) (by decide), g 5 (by decide) (by decide), g 6 (by decide) (by decide), g 7 (by decide) (by decide)]
  · simp [List.find?_cons, h, g 5 (by decide) (by decide), g 6 (by decide) (by decide), g 7 (by decide) (by decide)]
  · simp [List.find?_cons, h, g 6 (by decide) (by decide), g 7 (by decide) (by decide)]
  · simp [List.find?_cons, h, g 7 (by decide) (by decide)]
  · simp [List.find?_cons, h]

theorem find_none (p : Nat → Bool) (hn : ∀ j, j < 8 → p j = false) : (List.range 8).reverse.find? p = none := by
  rw [List.find?_eq_none]
  intro x hx
  simp at hx
  simp [hn x hx]

theorem rd_loseMem (s : State) (a n : Nat) (g : Fld) (j : Nat) : (s.loseMem a n).rd g j = s.rd g j := rfl

/-- Entry to BOOT from a WATCH that a RESET led to. -/
theorem enterBoot_says (u : State) (cause : Nat) (hcs : cause < 16) (hm : u.mode = mWATCH) (hfr : u.rd I.watchFromReset = 1) : let t := enterBoot u cause
    t.mode = mBOOT ∧ t.rd F.PMU_MODE_CAUSE = cause ∧ t.rd F.PMU_WAKE_WSTAT = u.rd F.PMU_WAKE_WSTAT ∧ t.rd I.bootPh = 1 := by
  generalize hc : cpgBeforeBoot u false false = c
  have hcr : c.rd F.PMU_WAKE_WSTAT = u.rd F.PMU_WAKE_WSTAT := by
    rw [← hc]
    unfold cpgBeforeBoot banksHoldRetired
    simp only [Bool.false_and, Bool.false_eq_true, if_false]
    rw [rd_loseMem]
    exact State.over_rd _ _ _ _ _ fun s a => State.rd_wr_cell _ _ _ _ _ _ (by decide)
  have hl := loseAll_rd c keptByReset F.PMU_WAKE_WSTAT 0
  rw [if_pos (by decide), hcr] at hl
  have hbo : enterBoot u cause = perstSeen ((List.range 8).foldl (fun s k => if s.rd I.pinPen k = 0 then s.wr I.pinPen k 1 else s)
      (puts (c.loseAll keptByReset) [(F.PMU_MODE_CURRENT, 0, mBOOT), (F.PMU_MODE_CAUSE, 0, cause), (I.bootPh, 0, 1), (I.watchEntry, 0, 0), (I.wakePend, 0, 0),
    (I.watchFromReset, 0, 0), (F.PMU_IRQSTAT_MODEDONE, 0, 1)])) := by
    unfold enterBoot
    have w1 : (u.mode == mWATCH) = true := by rw [hm]; rfl
    have w2 : u.on I.watchFromReset = true := by rw [State.on_eq, hfr]; rfl
    dsimp only
    rw [w1, w2]
    simp only [Bool.not_true, Bool.and_false, Bool.false_and, hc, Bool.not_false, Bool.and_true, if_true]
    rfl
  dsimp only
  rw [hbo]
  clear hbo
  generalize c.loseAll keptByReset = d at *
  generalize he : puts d [(F.PMU_MODE_CURRENT, 0, mBOOT), (F.PMU_MODE_CAUSE, 0, cause), (I.bootPh, 0, 1), (I.watchEntry, 0, 0), (I.wakePend, 0, 0),
    (I.watchFromReset, 0, 0), (F.PMU_IRQSTAT_MODEDONE, 0, 1)] = e
  generalize hfx : (List.range 8).foldl (fun s k => if s.rd I.pinPen k = 0 then s.wr I.pinPen k 1 else s) e = f
  have hfr : ∀ g, I.pinPen.id ≠ g.id → f.rd g = e.rd g := by
    intro g hg
    rw [← hfx]
    refine State.over_rd e (List.range 8) (fun s k => if s.rd I.pinPen k = 0 then s.wr I.pinPen k 1 else s) g 0 fun s a => ?_
    split
    · exact State.rd_wr_cell _ _ _ _ _ _ hg
    · rfl
  have hpe : ∀ g, F.HIF_LINKSTAT_PERSTSEEN.id ≠ g.id → (perstSeen f).rd g = f.rd g := by
    intro g hg; unfold perstSeen; split
    · rfl
    · exact State.rd_wr_cell _ _ _ _ _ _ hg
  refine ⟨?_, ?_, ?_, ?_⟩
  · unfold State.mode; rw [hpe _ (by decide), hfr _ (by decide), ← he]; simp only [puts_cons, puts_nil]
    simp (disch := decide) only [State.rd_wr_cell, State.rd_wr_same]; rfl
  · rw [hpe _ (by decide), hfr _ (by decide), ← he]; simp only [puts_cons, puts_nil]
    simp (disch := decide) only [State.rd_wr_cell, State.rd_wr_same]; exact Nat.mod_eq_of_lt hcs
  · rw [hpe _ (by decide), hfr _ (by decide), ← he]; simp only [puts_cons, puts_nil]
    simp (disch := decide) only [State.rd_wr_cell]; exact hl
  · rw [hpe _ (by decide), hfr _ (by decide), ← he]; simp only [puts_cons, puts_nil]
    simp (disch := decide) only [State.rd_wr_cell, State.rd_wr_same]; rfl

end Sys2Proof.Machine
end

