-- ==== Sys2Proof/Laws/CaseCtx.lean ====
section
/-! SUPPORT.  Context commands: what the shared operations of CPG leave. -/

namespace Sys2Proof.Machine

open Safety

theorem chw_goes {s : State} {ini : Init} {k cid : Nat} (hf : s.fabric = true) (hk : selCopy ini = some k) (hi : s.rd F.CHW_SELECT_INDEX k = cid) (hc : cid < 32768)
    (v : Nat) : chwCommand s ini v = ctxCommand s cid v := by
  unfold chwCommand selIx
  rw [if_pos hf, hk]
  dsimp only
  rw [hi, if_pos hc]

theorem sel_context {s : State} {ini : Init} {k cid : Nat} (hk : selCopy ini = some k) (hi : s.rd F.CHW_SELECT_INDEX k = cid) (hc : cid < 32768) :
    selIx s ini F.CHW_SELECT_INDEX 32768 = some cid := by
  unfold selIx
  rw [hk]
  dsimp only
  rw [hi, if_pos hc]

/-- The search for a free page, from k pages before its end, finds one where there is one. -/
theorem findPage_some (s : State) (p : Nat → Bool) (start : Nat) (k : Nat) (hk : k ≤ 32768)
    (h : ∃ j, 32768 - k ≤ j ∧ j < 32768 ∧ (let n := (start + j) % 32768; p (n / 2048) = true ∧ s.rd I.pgUse n = 0 ∧ s.rd I.pgBad n = 0)) :
    ∃ n, findPage s p start k = some n ∧ n < 32768 ∧ p (n / 2048) = true ∧ s.rd I.pgUse n = 0 ∧ s.rd I.pgBad n = 0 := by
  induction k with
  | zero => obtain ⟨j, h1, h2, -⟩ := h; omega
  | succ k ih =>
    unfold findPage
    by_cases hc : p ((start + (32767 - k)) % 32768 / 2048) && !s.on I.pgUse ((start + (32767 - k)) % 32768) && !s.on I.pgBad ((start + (32767 - k)) % 32768)
    · dsimp only
      rw [if_pos hc]
      simp only [State.on_eq, Bool.and_eq_true, Bool.not_eq_true', bne_eq_false_iff_eq] at hc
      exact ⟨_, rfl, Nat.mod_lt _ (by decide), hc.1.1, hc.1.2, hc.2⟩
    · dsimp only
      rw [if_neg hc]
      apply ih (by omega)
      obtain ⟨j, h1, h2, h3⟩ := h
      by_cases hj : j = 32767 - k
      · subst hj
        exfalso
        apply hc
        simp only [State.on_eq, Bool.and_eq_true, Bool.not_eq_true', bne_eq_false_iff_eq]
        exact ⟨⟨h3.1, h3.2.1⟩, h3.2.2⟩
      · exact ⟨j, by omega, h2, h3⟩

/-- CPG takes a free page where there is one. -/
theorem pickPage_some (s : State) (p : Nat → Bool) (h : ∃ n, n < 32768 ∧ p (n / 2048) = true ∧ s.rd I.pgUse n = 0 ∧ s.rd I.pgBad n = 0) :
    ∃ n, pickPage s p = some (n, { s with freeCtr := s.freeCtr + 1 }) ∧ n < 32768 ∧ p (n / 2048) = true ∧ s.rd I.pgUse n = 0 ∧ s.rd I.pgBad n = 0 := by
  obtain ⟨n, h1, h2⟩ := h
  obtain ⟨m, hm, hr⟩ := findPage_some s p (s.draw.1 % 32768) 32768 (Nat.le_refl _) ⟨(n + 32768 - s.draw.1 % 32768) % 32768, by omega, Nat.mod_lt _ (by decide), by
    dsimp only
    have e : (s.draw.1 % 32768 + (n + 32768 - s.draw.1 % 32768) % 32768) % 32768 = n := by
      have : s.draw.1 % 32768 < 32768 := Nat.mod_lt _ (by decide)
      generalize s.draw.1 % 32768 = x at *
      omega
    rw [e]; exact h2⟩
  refine ⟨m, ?_, hr⟩
  unfold pickPage
  dsimp only
  rw [hm]; rfl

theorem pagesOf_one (v : Fin 16) : pagesOf (2 ^ v.val) = [v.val] ∧ popcount 16 (2 ^ v.val) = 1 := by
  revert v; decide

theorem atLevel_none {s : State} {cid l : Nat} : (atLevel s cid l == 0) = true ↔ ¬ ∃ v, v < 16 ∧ s.rd I.mapLvl (16 * cid + v) = l := by
  unfold atLevel
  simp only [beq_iff_eq, List.length_eq_zero_iff, List.filter_eq_nil_iff, List.mem_range]
  constructor
  · rintro h ⟨v, hv, he⟩; exact h v hv (by simpa [lvl, entry] using he)
  · intro h v hv he; exact h ⟨v, hv, by simpa [lvl, entry] using he⟩

/-- The cells that the release of a context may change. -/
abbrev releaseCells : List Fld :=
  [F.CHW_CTX_STAT_STATE, F.CHW_CTX_STAT_CTLPEND, F.CHW_CTX_STAT_AGE, I.ctxMoved, I.migFresh, F.CHW_CTX_CMD_RELEASE,
   F.CHW_CTX_CMD_RESULT, I.mapLvl, I.mapOd, I.mapMem, I.mapDirty, I.mapPage, I.pgUse, I.bankBusy, F.CPG_POOLUSE_USED,
   I.odLeft, I.stSet, I.stCore, F.CPG_FRAME_STATE, F.CPG_FRAME_DIRTY, F.CPG_FRAME_VPAGE, F.CPG_FRAME_CID, I.frOwner,
   I.frIn, I.frOut]

theorem unbindPage_says (s : State) (cid v : Nat) : SameButCells s (unbindPage s cid v) ∧ SameOtherCells s (unbindPage s cid v)
    [I.pgUse, I.mapPage, I.bankBusy, F.CPG_POOLUSE_USED] := by
  unfold unbindPage useLess
  dsimp only
  split
  · exact ⟨.wr (.wr (.wr (.refl _))), .wr (.wr (.wr (.refl _ _) (by simp)) (by simp)) (by simp)⟩
  · exact ⟨.wr (.wr (.wr (.wr (.refl _)))), .wr (.wr (.wr (.wr (.refl _ _) (by simp)) (by simp)) (by simp)) (by simp)⟩

theorem releaseOne_says (s : State) (cid v : Nat) : SameButCells s (releaseOne s cid v) ∧ SameOtherCells s (releaseOne s cid v) releaseCells ∧
    (releaseOne s cid v).rd I.mapLvl (16 * cid + v) = 0 ∧ (releaseOne s cid v).rd I.mapOd (16 * cid + v) = 0 ∧
    (∀ j, j ≠ 16 * cid + v → (releaseOne s cid v).rd I.mapLvl j = s.rd I.mapLvl j ∧ (releaseOne s cid v).rd I.mapOd j = s.rd I.mapOd j) := by
  generalize ha : (if lvl s cid v = 1 then unbindPage s cid v
    else if untouched s cid v then (useLess s (s.rd I.ctxPool cid)).set I.odLeft (s.rd I.odLeft - 1) else s) = a
  have hx : releaseOne s cid v = ((((a.wr I.mapLvl (16 * cid + v) 0).wr I.mapOd (16 * cid + v) 0).wr I.mapMem (16 * cid + v) 0).wr I.mapDirty (16 * cid + v) 0).wr I.mapPage (16 * cid + v) 0 := by
    rw [← ha]; rfl
  have hb : SameButCells s a ∧ SameOtherCells s a [I.pgUse, I.mapPage, I.bankBusy, F.CPG_POOLUSE_USED, I.odLeft] := by
    rw [← ha]; split
    · exact ⟨(unbindPage_says s cid v).1, (unbindPage_says s cid v).2.mono (by simp)⟩
    · split
      · exact ⟨.wr (.wr (.refl _)), .wr (.wr (.refl _ _) (by simp)) (by simp)⟩
      · exact ⟨.refl _, .refl _ _⟩
  rw [hx]
  refine ⟨.wr (.wr (.wr (.wr (.wr hb.1)))), .wr (.wr (.wr (.wr (.wr (hb.2.mono (by simp)) (by simp)) (by simp)) (by simp)) (by simp)) (by simp), ?_, ?_, fun j hj => ⟨?_, ?_⟩⟩
  · simp (disch := decide) only [State.rd_wr_cell, State.rd_wr_same]; rfl
  · simp (disch := decide) only [State.rd_wr_cell, State.rd_wr_same]; rfl
  · simp (disch := decide) only [State.rd_wr_cell]
    rw [State.rd_wr_inst _ _ _ _ _ (Ne.symm hj), hb.2 _ _ (by decide)]
  · simp (disch := decide) only [State.rd_wr_cell]
    rw [State.rd_wr_inst _ _ _ _ _ (Ne.symm hj), State.rd_wr_cell _ _ _ _ _ _ (by decide), hb.2 _ _ (by decide)]

theorem releaseAll_says (s : State) (cid : Nat) (n : Nat) : let t := s.over (List.range n) (fun s v => releaseOne s cid v)
    SameButCells s t ∧ SameOtherCells s t releaseCells ∧ (∀ v, v < n → t.rd I.mapLvl (16 * cid + v) = 0 ∧ t.rd I.mapOd (16 * cid + v) = 0) := by
  induction n with
  | zero => exact ⟨.refl _, .refl _ _, fun v h => absurd h (by omega)⟩
  | succ n ih =>
    obtain ⟨i1, i2, i3⟩ := ih
    have e : s.over (List.range (n + 1)) (fun s v => releaseOne s cid v) = releaseOne (s.over (List.range n) (fun s v => releaseOne s cid v)) cid n := by
      unfold State.over; rw [List.range_succ, List.foldl_append]; rfl
    dsimp only at i1 i2 i3 ⊢
    rw [e]
    generalize s.over (List.range n) (fun s v => releaseOne s cid v) = u at *
    obtain ⟨r1, r2, r3, r4, r5⟩ := releaseOne_says u cid n
    refine ⟨i1.trans r1, i2.trans r2, fun v hv => ?_⟩
    by_cases h : v = n
    · subst h; exact ⟨r3, r4⟩
    · obtain ⟨q1, q2⟩ := r5 (16 * cid + v) (by omega)
      rw [q1, q2]; exact i3 v (by omega)

theorem emptyFrame_says (s : State) (i : Nat) : SameButCells s (emptyFrame s i) ∧ SameOtherCells s (emptyFrame s i)
    [F.CPG_FRAME_STATE, F.CPG_FRAME_DIRTY, F.CPG_FRAME_VPAGE, F.CPG_FRAME_CID, I.frOwner, I.frIn, I.frOut] := by
  unfold emptyFrame
  exact ⟨.wr (.wr (.wr (.wr (.wr (.wr (.wr (.refl _))))))), .wr (.wr (.wr (.wr (.wr (.wr (.wr (.refl _ _) (by simp)) (by simp)) (by simp)) (by simp)) (by simp)) (by simp)) (by simp)⟩

theorem releaseNow_says (s : State) (cid : Nat) : let t := releaseNow s cid
    t.rd F.CHW_CTX_STAT_STATE cid = cFREE ∧ t.rd F.CHW_CTX_CMD_RELEASE cid = 0 ∧ t.rd F.CHW_CTX_CMD_RESULT cid = 0 ∧
      (∀ v, v < 16 → t.rd I.mapLvl (16 * cid + v) = 0 ∧ t.rd I.mapOd (16 * cid + v) = 0) ∧ SameButCells s t ∧ SameOtherCells s t releaseCells := by
  have h1 : SameButCells s (discardContext s cid) ∧ SameOtherCells s (discardContext s cid) releaseCells := by
    unfold discardContext
    exact ⟨SameButCells.over (.refl s) _ _ fun u i => (emptyFrame_says u i).1,
      SameOtherCells.over (.refl s _) _ _ fun u i => (emptyFrame_says u i).2.mono (by simp)⟩
  generalize hu : discardContext s cid = u at *
  generalize hw : u.over ((u.nonzero I.stCore).filter fun t => u.rd I.jCid t == cid) noSet = w
  have h2 : SameButCells u w ∧ SameOtherCells u w releaseCells := by
    rw [← hw]
    exact ⟨SameButCells.over (.refl u) _ _ fun u i => .wr (.wr (.refl _)),
      SameOtherCells.over (.refl u _) _ _ fun u i => .wr (.wr (.refl _ _) (by simp)) (by simp)⟩
  obtain ⟨i1, i2, i3⟩ := releaseAll_says w cid 16
  generalize hx : w.over (List.range 16) (fun s v => releaseOne s cid v) = x at *
  have ht : releaseNow s cid = puts x [(F.CHW_CTX_STAT_STATE, cid, cFREE), (F.CHW_CTX_STAT_CTLPEND, cid, 0), (F.CHW_CTX_STAT_AGE, cid, 0), (I.ctxMoved, cid, 0),
      (I.migFresh, cid, 0), (F.CHW_CTX_CMD_RELEASE, cid, 0), (F.CHW_CTX_CMD_RESULT, cid, 0)] := by
    unfold releaseNow
    rw [hu]
    dsimp only
    rw [hw, hx]; rfl
  dsimp only
  rw [ht]
  simp only [puts_cons, puts_nil]
  refine ⟨?_, ?_, ?_, fun v hv => ⟨?_, ?_⟩, .wr (.wr (.wr (.wr (.wr (.wr (.wr (h1.1.trans (h2.1.trans i1)))))))),
    .wr (.wr (.wr (.wr (.wr (.wr (.wr (h1.2.trans (h2.2.trans i2)) (by simp)) (by simp)) (by simp)) (by simp)) (by simp)) (by simp)) (by simp)⟩
  · simp (disch := decide) only [State.rd_wr_cell, State.rd_wr_same]; rfl
  · simp (disch := decide) only [State.rd_wr_cell, State.rd_wr_same]; rfl
  · simp (disch := decide) only [State.rd_wr_same]; rfl
  · simp (disch := decide) only [State.rd_wr_cell]; exact (i3 v hv).1
  · simp (disch := decide) only [State.rd_wr_cell]; exact (i3 v hv).2

/-- Entries of a context become MOVING towards DRAM. -/
theorem moveAway_says (cid : Nat) (l : List Nat) : ∀ (s : State),
    let t := s.over l (fun s v => (s.wr I.mapLvl (entry cid v) 3).wr I.mapMove (entry cid v) 1)
    (∀ v, v ∈ l ∨ (s.rd I.mapLvl (16 * cid + v) = 3 ∧ s.rd I.mapMove (16 * cid + v) = 1) → t.rd I.mapLvl (16 * cid + v) = 3 ∧ t.rd I.mapMove (16 * cid + v) = 1) ∧
      OnlyCells s t (l.flatMap fun v => [(I.mapLvl, 16 * cid + v), (I.mapMove, 16 * cid + v)]) := by
  induction l with
  | nil => intro s; exact ⟨fun v h => h.resolve_left (by simp), .refl _ _⟩
  | cons x r ih =>
    intro s
    generalize hu : (s.wr I.mapLvl (16 * cid + x) 3).wr I.mapMove (16 * cid + x) 1 = u
    obtain ⟨i1, i2⟩ := ih u
    have e : s.over (x :: r) (fun s v => (s.wr I.mapLvl (entry cid v) 3).wr I.mapMove (entry cid v) 1) = u.over r (fun s v => (s.wr I.mapLvl (entry cid v) 3).wr I.mapMove (entry cid v) 1) := by
      rw [← hu]; rfl
    have hx : u.rd I.mapLvl (16 * cid + x) = 3 ∧ u.rd I.mapMove (16 * cid + x) = 1 := by
      rw [← hu, State.rd_wr_cell _ _ _ _ _ _ (by decide), State.rd_wr_same, State.rd_wr_same]; exact ⟨rfl, rfl⟩
    have huo : OnlyCells s u [(I.mapLvl, 16 * cid + x), (I.mapMove, 16 * cid + x)] := by
      rw [← hu]; exact .wr (.wr (.refl _ _) (by simp)) (by simp)
    dsimp only
    rw [e]
    refine ⟨fun v hv => i1 v ?_, (huo.mono (by simp)).trans (i2.mono (fun p hp => ?_))⟩
    · by_cases h : v = x
      · subst h; exact Or.inr hx
      · rcases hv with hv | hv
        · exact Or.inl (by simpa [h] using hv)
        · refine Or.inr ?_
          rw [← hu]
          rw [State.rd_wr_cell _ _ _ _ _ _ (by decide), State.rd_wr_inst _ _ _ _ _ (by omega), State.rd_wr_inst _ _ _ _ _ (by omega), State.rd_wr_cell _ _ _ _ _ _ (by decide)]
          exact hv
    · exact List.mem_append_right _ hp

end Sys2Proof.Machine
end

