-- ==== Sys2Proof/Laws/CaseJob.lean ====
section
/-! SUPPORT.  How jobs leave their cores, and TOUCH. -/

namespace Sys2Proof.Machine

open Safety

/-- Two states agree on the whole tables of every cell but those with the listed ids. -/
def SameTables (s t : State) (ids : List Nat) : Prop := ∀ n, n ∉ ids → Tbl.get [] t.cells n = Tbl.get [] s.cells n

theorem SameTables.refl (s : State) (l : List Nat) : SameTables s s l := fun _ _ => rfl

theorem SameTables.wr {s t : State} {l : List Nat} {f : Fld} {i v : Nat} (h : SameTables s t l) (hm : f.id ∈ l) : SameTables s (t.wr f i v) l := by
  intro n hn
  have : f.id ≠ n := fun e => hn (e ▸ hm)
  rw [← h n hn]
  show Tbl.get [] (Tbl.put [] f.id _ t.cells) n = _
  rw [Tbl.get_put]; simp [this]

theorem SameTables.trans {s t u : State} {l : List Nat} (h : SameTables s t l) (k : SameTables t u l) : SameTables s u l :=
  fun n hn => (k n hn).trans (h n hn)

theorem SameTables.mono {s t : State} {l m : List Nat} (h : SameTables s t l) (hm : ∀ n ∈ l, n ∈ m) : SameTables s t m :=
  fun n hn => h n fun e => hn (hm n e)

theorem SameTables.rd {s t : State} {l : List Nat} (h : SameTables s t l) (g : Fld) (j : Nat) (hg : g.id ∉ l) : t.rd g j = s.rd g j := by
  unfold State.rd; rw [h _ hg]

theorem SameTables.nonzero {s t : State} {l : List Nat} (h : SameTables s t l) (g : Fld) (hg : g.id ∉ l) : t.nonzero g = s.nonzero g := by
  unfold State.nonzero; rw [h _ hg]

/-- The cells an issue without results writes. -/
def plainIds : List Nat := [I.pcb.id, I.cycle.id, I.qstall.id]

theorem begun_tables (s : State) (c : Nat) : SameTables s (begun s c) plainIds := by
  have h := fetched_same s c
  unfold SameButFetch at h
  intro n hn
  have : (started (fetched s c) c).cells = ((fetched s c).wr I.qstall c 0).cells := rfl
  have e : Tbl.get [] ((fetched s c).wr I.qstall c 0).cells n = Tbl.get [] (fetched s c).cells n :=
    SameTables.wr (.refl (fetched s c) plainIds) (by decide) n hn
  unfold begun
  rw [this, e, h]

theorem plain_tables (s : State) (c x : Nat) (sh : List (Nat × Nat)) :
    SameTables s (bundleEnd ((begun s c).wr I.pcb (rbank s c) x) (rbank s c) [] sh) plainIds := by
  have h : SameTables s ((begun s c).wr I.pcb (rbank s c) x) plainIds := (begun_tables s c).wr (by decide)
  generalize (begun s c).wr I.pcb (rbank s c) x = u at h
  have e : (bundleEnd u (rbank s c) [] sh).cells = (u.wr I.cycle (rbank s c) (u.rd I.cycle (rbank s c) + 1)).cells := rfl
  intro n hn
  rw [e]
  exact h.wr (by decide) n hn

/-- A syllable with an act that goes on from the end of its bundle, with the tables it leaves. -/
theorem act_goes_on {s : State} {c : Nat} (h : CoreReady s c) (a : Act) (hbr : a.isBranch = false)
    (hm : meetOf (fetched s c) c (.act a) = .ok) (hw : queueWaits (fetched s c) (.act a) = false)
    (hn : actNow (begun s c) c a = (begun s c, [])) :
    ∃ v, syllable s c true clsS .only [.act a] [] = boundary (arithDue (actAfter v c (pcOf s c) 1 a) c) c ∧
      Framed s v c [] [] ∧ v.rd I.pcb (rbank s c) = (pcOf s c + 4) % 2 ^ 32 ∧ inFlight v (rbank s c) = [] ∧ SameTables s v plainIds := by
  have hk := begun_keeps h
  have hord : issueOrder c [.act a] = [.act a] := by unfold issueOrder; simp [Eff.isStore, Eff.isAct]
  have hiss := syllable_issue h clsS [.act a] (by decide) (by simp [meetCauses, hm]) (by simp [faultAddrs, hm]) (by simp [hw]) (by simp)
    (u := begun s c) (new := []) (by rw [hord]; show ((actNow (begun s c) c a).1, (actNow (begun s c) c a).2 ++ []) = _; rw [hn]; rfl) hk
  have hadv : advance (begun s c) (rbank s c) 1 (some a) = (begun s c).wr I.pcb (rbank s c) (pcOf s c + 4) := by
    have := advance_plain (begun s c) (rbank s c) 1 ((begun_ready _ _ (by decide)).trans h.2.2.2.2.2.2.2.1) ((begun_ready _ _ (by decide)).trans h.2.2.2.2.2.2.2.2.1)
    have e : advance (begun s c) (rbank s c) 1 (some a) = advance (begun s c) (rbank s c) 1 none := by
      cases a <;> simp [Act.isBranch] at hbr <;> rfl
    rw [e, this, begun_ready _ _ (by decide)]
    rfl
  simp only [show bundleAct [.act a] = some a from rfl, hadv] at hiss
  have hfr := plain_framed s c (pcOf s c + 4) (macOld (fetched s c) [.act a])
  refine ⟨_, hiss, hfr, ?_, ?_, plain_tables _ _ _ _⟩
  · rw [bundleEnd_rd _ _ _ _ _ _ (fun h => absurd h (by decide)) (by simp), State.rd_wr_same]; rfl
  · rw [bundleEnd_inFlight]; rfl

/-- A core whose job has gone meets nothing at the boundary. -/
theorem gone_calm {s t : State} {c : Nat} (h : CoreReady s c) (hc : c < 64) (hj : t.rd I.cJob c = 0) (hs : ∀ g ∈ [F.MLS_DBG_HALT_LO_CORES, F.MLS_DBG_HALT_HI_CORES,
    F.MLS_DBG_HALT_SVC_CORES, F.MLS_DBG_STEP_GO, F.MLS_DBG_STEP_CORE], t.rd g 0 = s.rd g 0) : boundary (arithDue t c) c = t := by
  have e0 : arithDue t c = t := by
    unfold arithDue coreLive
    rw [not_svc hc, State.on_eq _ I.cJob, hj]
    simp
  rw [e0]
  obtain ⟨h1, h2, h3, h4, -⟩ := h
  have e1 : stepping t c = false := by
    unfold stepping State.on at *
    rw [hs F.MLS_DBG_STEP_GO (by simp), hs F.MLS_DBG_STEP_CORE (by simp)]; exact h4
  have e2 : haltReq t c = false := by
    unfold haltReq at *
    rw [coreBit_congr (s := s) _ _ _ _ (hs F.MLS_DBG_HALT_LO_CORES (by simp))
      (hs F.MLS_DBG_HALT_HI_CORES (by simp)) (hs F.MLS_DBG_HALT_SVC_CORES (by simp))]
    exact h3
  unfold boundary
  rw [e1]
  simp only [Bool.false_eq_true, if_false, e2]
  rw [if_neg]
  rw [State.on_eq _ I.cJob, hj]; simp

/-- The cells that the end of a job writes, where nothing of it is left in frames. -/
def endCells (c b k : Nat) : List (Fld × Nat) :=
  [(I.qstall, c), (I.cJob, c), (I.waiting, c), (I.swPend, c), (I.bankJob, b), (I.stSet, k), (I.stCore, k), (I.jWs, k), (I.jFault, k),
    (I.jTouch, k), (I.jRec, k), (I.jCancel, k), (F.TSU_T_CMD_CANCEL, k), (F.TSU_T_STAT_URGENT, k), (F.TSU_T_STAT_STATE, k),
    (F.TSU_T_STAT_RESUME, k), (F.TSU_T_STAT_CVALID, k)]

theorem freeCore_eq (w : State) (c : Nat) : freeCore w c =
    ((((({ w with bundles := Tbl.drop c w.bundles, landings := Tbl.drop (rbank w c) w.landings, macShadow := Tbl.drop (rbank w c) w.macShadow } : State).wr
        I.cJob c 0).wr I.waiting c 1).wr I.qstall c 0).wr I.swPend c 0).wr I.bankJob (rbank w c) 0 := rfl

theorem framesFor_tables {s t : State} {l : List Nat} (h : SameTables s t l) (k : Nat) (hl : ∀ g ∈ [F.CPG_FRAME_STATE, I.frOwner], g.id ∉ l) :
    framesFor t k = framesFor s k := by
  unfold framesFor frames ownedBy
  rw [h.nonzero _ (hl _ (by simp))]
  simp only [h.rd I.frOwner _ (hl _ (by simp))]

theorem closeJob_plain (x : State) (k : Nat) (hq : x.queues = []) (hf : framesFor x k = []) : closeJob x k =
    ((((((((((((x.wr I.stSet k 0).wr I.stCore k 0).wr I.jWs k 0).wr I.jFault k 0).wr I.jTouch k 0).wr I.jRec k 0).wr I.jCancel k 0).wr
      F.TSU_T_CMD_CANCEL k 0).wr F.TSU_T_STAT_URGENT k 0).wr F.TSU_T_STAT_STATE k tWAIT).wr F.TSU_T_STAT_RESUME k 0).wr F.TSU_T_STAT_CVALID k 0) := by
  have e3 : discardPartial x (k + 1) = x := by
    unfold discardPartial; rw [hq]; rfl
  have e4 : releaseFrames x k = x := by
    unfold releaseFrames; rw [hf]; rfl
  unfold closeJob noSet
  rw [e3]
  simp only [e4, ite_self]

theorem endJob_plain (w : State) (c : Nat) (hlate : isLate w (w.rd I.cJob c - 1) = false) (htr : w.rd F.TSU_TRCCFG_EN = 0) (hq : w.queues = [])
    (hf : framesFor w (w.rd I.cJob c - 1) = []) (hre : (w.on F.TSU_T_CFG_EN (w.rd I.cJob c - 1) && condition w (w.rd I.cJob c - 1)) = false) :
    let k := w.rd I.cJob c - 1
    let t := endJob w c
    (t.rd I.cJob c = 0 ∧ t.rd I.waiting c = 1 ∧ t.rd I.bankJob (rbank w c) = 0 ∧ taskSt t k = tWAIT ∧ t.rd F.TSU_T_STAT_RESUME k = 0 ∧
      t.rd F.TSU_T_STAT_CVALID k = 0 ∧ t.rd F.TSU_T_STAT_URGENT k = 0 ∧ t.rd I.jWs k = 0) ∧
    SameCells w t (endCells c (rbank w c) k) ∧
    t = { w with cells := t.cells, bundles := Tbl.drop c w.bundles, landings := Tbl.drop (rbank w c) w.landings, macShadow := Tbl.drop (rbank w c) w.macShadow } := by
  intro k t
  have htrace : ∀ ev core aux, trace w ev k core aux = w := by
    intro ev core aux
    unfold trace traced
    rw [State.on_eq, htr]; rfl
  have ht : t = reevaluate (closeJob (freeCore w c) k) k := by
    show endJob w c = _
    unfold endJob countMiss
    dsimp only
    rw [hlate]
    simp only [Bool.false_eq_true, if_false]
    rw [htrace]
  clear_value t
  generalize hw0 : ({ w with bundles := Tbl.drop c w.bundles, landings := Tbl.drop (rbank w c) w.landings, macShadow := Tbl.drop (rbank w c) w.macShadow } : State) = w0
  have hw0r : ∀ g j, w0.rd g j = w.rd g j := by rw [← hw0]; intro g j; rfl
  have hfc : freeCore w c = ((((w0.wr I.cJob c 0).wr I.waiting c 1).wr I.qstall c 0).wr I.swPend c 0).wr I.bankJob (rbank w c) 0 := by
    rw [freeCore_eq, hw0]
  have hw0t : SameTables w w0 [I.cJob.id, I.waiting.id, I.qstall.id, I.swPend.id, I.bankJob.id] := by rw [← hw0]; exact .refl _ _
  have hxt : SameTables w (freeCore w c) [I.cJob.id, I.waiting.id, I.qstall.id, I.swPend.id, I.bankJob.id] := by
    rw [hfc]
    exact ((((hw0t.wr (by simp)).wr (by simp)).wr (by simp)).wr (by simp)).wr (by simp)
  have hxf : framesFor (freeCore w c) k = [] := (framesFor_tables hxt k (by decide)).trans hf
  have hxq : (freeCore w c).queues = [] := by rw [freeCore_eq]; exact hq
  have hcl := closeJob_plain (freeCore w c) k hxq hxf
  have hre' : (closeJob (freeCore w c) k).on F.TSU_T_CFG_EN k = false ∨ condition (closeJob (freeCore w c) k) k = false := by
    have e : ∀ g ∈ [F.TSU_T_CFG_EN, F.TSU_T_MASK_MASK, F.TSU_T_FLAGS_FLAGS, F.TSU_T_CFG_ALL], ∀ j, (closeJob (freeCore w c) k).rd g j = w.rd g j := by
      intro g hg j
      have a : ∀ f ∈ [I.stSet, I.stCore, I.jWs, I.jFault, I.jTouch, I.jRec, I.jCancel, F.TSU_T_CMD_CANCEL, F.TSU_T_STAT_URGENT, F.TSU_T_STAT_STATE,
          F.TSU_T_STAT_RESUME, F.TSU_T_STAT_CVALID], ∀ g ∈ [F.TSU_T_CFG_EN, F.TSU_T_MASK_MASK, F.TSU_T_FLAGS_FLAGS, F.TSU_T_CFG_ALL], f.id ≠ g.id := by decide
      have n := fun f hf => a f hf g hg
      rw [hcl, State.rd_wr_cell _ _ _ _ _ _ (n _ (by simp)), State.rd_wr_cell _ _ _ _ _ _ (n _ (by simp)), State.rd_wr_cell _ _ _ _ _ _ (n _ (by simp)),
        State.rd_wr_cell _ _ _ _ _ _ (n _ (by simp)), State.rd_wr_cell _ _ _ _ _ _ (n _ (by simp)), State.rd_wr_cell _ _ _ _ _ _ (n _ (by simp)),
        State.rd_wr_cell _ _ _ _ _ _ (n _ (by simp)), State.rd_wr_cell _ _ _ _ _ _ (n _ (by simp)), State.rd_wr_cell _ _ _ _ _ _ (n _ (by simp)),
        State.rd_wr_cell _ _ _ _ _ _ (n _ (by simp)), State.rd_wr_cell _ _ _ _ _ _ (n _ (by simp)), State.rd_wr_cell _ _ _ _ _ _ (n _ (by simp))]
      exact hxt.rd g j (by
        have b : ∀ g ∈ [F.TSU_T_CFG_EN, F.TSU_T_MASK_MASK, F.TSU_T_FLAGS_FLAGS, F.TSU_T_CFG_ALL],
          g.id ∉ [I.cJob.id, I.waiting.id, I.qstall.id, I.swPend.id, I.bankJob.id] := by decide
        exact b g hg)
    have hcond : condition (closeJob (freeCore w c) k) k = condition w k := by
      unfold condition
      simp only [State.on_eq, e _ (show F.TSU_T_MASK_MASK ∈ _ by simp), e _ (show F.TSU_T_FLAGS_FLAGS ∈ _ by simp), e _ (show F.TSU_T_CFG_ALL ∈ _ by simp)]
      rfl
    rw [State.on_eq, e _ (by simp), ← State.on_eq, hcond]
    have hre : (w.on F.TSU_T_CFG_EN k && condition w k) = false := hre
    cases h1 : w.on F.TSU_T_CFG_EN k
    · exact .inl rfl
    · rw [h1] at hre; exact .inr (by simpa using hre)
  have hr : reevaluate (closeJob (freeCore w c) k) k = closeJob (freeCore w c) k := by
    unfold reevaluate
    rcases hre' with h | h <;> simp [h]
  rw [hr, hcl, hfc] at ht
  clear hr hre' hcl hxf hxq hxt hfc hw0t
  refine ⟨?_, ?_, ?_⟩
  · rw [ht]
    unfold taskSt
    simp (disch := decide) only [State.rd_wr_cell, State.rd_wr_same]
    decide
  · rw [ht]
    have h0 : SameCells w w0 (endCells c (rbank w c) k) := fun g j _ => hw0r g j
    refine .wr (.wr (.wr (.wr (.wr (.wr (.wr (.wr (.wr (.wr (.wr (.wr (.wr (.wr (.wr (.wr (.wr h0 ?_) ?_) ?_) ?_) ?_) ?_) ?_) ?_) ?_) ?_) ?_) ?_) ?_) ?_) ?_) ?_) ?_ <;> simp [endCells]
  · have e : SameButCells w0 t := by
      rw [ht]
      exact .wr (.wr (.wr (.wr (.wr (.wr (.wr (.wr (.wr (.wr (.wr (.wr (.wr (.wr (.wr (.wr (.wr (.refl _)))))))))))))))))
    unfold SameButCells at e
    refine e.trans ?_
    conv => lhs; rw [← hw0]

theorem landAll_cells {v : State} {b : Nat} (h : inFlight v b = []) : (landAll v b).cells = v.cells := by
  rw [landAll_eq, h]; rfl

theorem condition_congr {s t : State} {k : Nat} (h : ∀ g ∈ [F.TSU_T_MASK_MASK, F.TSU_T_FLAGS_FLAGS, F.TSU_T_CFG_ALL], t.rd g k = s.rd g k) :
    condition t k = condition s k := by
  unfold condition State.on
  simp only [h _ (show F.TSU_T_MASK_MASK ∈ _ by simp), h _ (show F.TSU_T_FLAGS_FLAGS ∈ _ by simp), h _ (show F.TSU_T_CFG_ALL ∈ _ by simp)]

theorem endAct_plain {v : State} {c : Nat} (h : v.on I.jCancel (coreTask v c) = false) : endAct v c none = endJob (landAll v (rbank v c)) c := by
  unfold endAct
  rw [h]
  simp only [Bool.false_eq_true, if_false]

theorem endjob_case {s : State} {c : Fin 68} (h : CoreReady s c.val) (hc : c.val < 64) (b k : Nat) (hb : rbank s c.val = b) (hk : s.rd I.cJob c.val - 1 = k)
    (hlate : isLate s k = false) (htr : s.rd F.TSU_TRCCFG_EN = 0) (hq : s.queues = []) (hfr : framesFor s k = [])
    (hre : (s.on F.TSU_T_CFG_EN k && condition s k) = false) :
    Does (.endjob c true none) s (fun t => t.rd I.cJob c.val = 0 ∧ t.rd I.waiting c.val = 1 ∧ t.rd I.bankJob b = 0 ∧
        taskSt t k = tWAIT ∧ t.rd F.TSU_T_STAT_RESUME k = 0 ∧ t.rd F.TSU_T_STAT_CVALID k = 0 ∧
        t.rd F.TSU_T_STAT_URGENT k = 0 ∧ t.rd I.jWs k = 0 ∧ bundleOf t c.val = Bundle.empty ∧ SameButCode s t ∧
        SameCells s t [(I.pcb, b), (I.cycle, b), (I.qstall, c.val), (I.cJob, c.val), (I.waiting, c.val), (I.swPend, c.val),
          (I.bankJob, b), (I.stSet, k), (I.stCore, k), (I.jWs, k), (I.jFault, k), (I.jTouch, k), (I.jRec, k), (I.jCancel, k),
          (F.TSU_T_CMD_CANCEL, k), (F.TSU_T_STAT_URGENT, k), (F.TSU_T_STAT_STATE, k), (F.TSU_T_STAT_RESUME, k),
          (F.TSU_T_STAT_CVALID, k)]) := by
  have hs := not_svc hc
  have hrun : exec (.endjob c true none) s = sSyl s c.val true [.act (.endJob none)] [] := by
    show sgcSyl s c.val true (.endJob none) = _
    unfold sgcSyl; rw [hs]; rfl
  obtain ⟨v, hv1, hv2, hv3, hv4, hv5⟩ := act_goes_on h (.endJob none) rfl rfl rfl rfl
  rw [hb] at hv3 hv4
  have hvr : ∀ g j, g.id ∉ plainIds → v.rd g j = s.rd g j := fun g j hg => hv5.rd g j hg
  have hvb : rbank v c.val = b := (rbank_congr _ (hvr _ _ (by decide))).trans hb
  have hcan : s.on I.jCancel k = false := by
    have := h.2.2.2.2.2.2.2.2.2.2.1
    rw [hs, hk] at this; simpa using this
  have hvk : v.rd I.cJob c.val - 1 = k := by rw [hvr _ _ (by decide)]; exact hk
  have e1 : actAfter v c.val (pcOf s c.val) 1 (.endJob none) = endJob (landAll v b) c.val := by
    have hc2 : v.on I.jCancel (coreTask v c.val) = false := by
      unfold coreTask
      rw [hvk, State.on_eq, hvr I.jCancel k (by decide), ← State.on_eq]; exact hcan
    rw [← hvb]
    exact endAct_plain hc2
  have hl := quiet_landAll (v := v) (b := b) hv4
  have hls := landAll_same v b
  have hlc : (landAll v b).cells = v.cells := landAll_cells hv4
  have hvq : v.queues = [] := by
    have := hv2.2.1.1
    unfold SameButCode at this
    rw [this]; exact hq
  generalize hw : landAll v b = w at e1 hl hls hlc
  have hwr : ∀ g j, g.id ∉ plainIds → w.rd g j = s.rd g j := fun g j hg => (hl g j).trans (hvr g j hg)
  have hwt : SameTables s w plainIds := fun n hn => by rw [hlc]; exact hv5 n hn
  have hwb : rbank w c.val = b := (rbank_congr _ (hwr _ _ (by decide))).trans hb
  have hwk : w.rd I.cJob c.val - 1 = k := by rw [hwr _ _ (by decide)]; exact hk
  have hwl : isLate w k = false := by
    unfold isLate tbNs at *
    rw [State.on_eq, hwr _ _ (by decide), hwr _ _ (by decide), hwr _ _ (by decide), ← State.on_eq]; exact hlate
  have hcond : condition w k = condition s k := by
    have n : ∀ g ∈ [F.TSU_T_MASK_MASK, F.TSU_T_FLAGS_FLAGS, F.TSU_T_CFG_ALL], g.id ∉ plainIds := by decide
    exact condition_congr fun g hg => hwr g k (n g hg)
  obtain ⟨q, qc, qs⟩ := endJob_plain w c.val (by rw [hwk]; exact hwl) (by rw [hwr _ _ (by decide)]; exact htr) (by rw [hls]; exact hvq)
    (by rw [hwk, framesFor_tables hwt k (by decide)]; exact hfr)
    (by rw [hwk, hcond, State.on_eq, hwr _ _ (by decide), ← State.on_eq]; exact hre)
  rw [← e1] at q qc qs
  rw [hwk, hwb] at qc
  rw [hwb] at qs
  rw [hwk, hwb] at q
  generalize actAfter v c.val (pcOf s c.val) 1 (.endJob none) = t at *
  have hcalm := gone_calm (t := t) h hc q.1 (by
    intro g hg
    have n : ∀ f ∈ [I.qstall, I.cJob, I.waiting, I.swPend, I.bankJob, I.stSet, I.stCore, I.jWs, I.jFault, I.jTouch, I.jRec, I.jCancel,
      F.TSU_T_CMD_CANCEL, F.TSU_T_STAT_URGENT, F.TSU_T_STAT_STATE, F.TSU_T_STAT_RESUME, F.TSU_T_STAT_CVALID],
      ∀ g ∈ [F.MLS_DBG_HALT_LO_CORES, F.MLS_DBG_HALT_HI_CORES, F.MLS_DBG_HALT_SVC_CORES, F.MLS_DBG_STEP_GO, F.MLS_DBG_STEP_CORE], f.id ≠ g.id := by decide
    rw [qc g 0 (fun p hp he => absurd he (n p.1 (by
      simp [endCells] at hp
      rcases hp with rfl | rfl | rfl | rfl | rfl | rfl | rfl | rfl | rfl | rfl | rfl | rfl | rfl | rfl | rfl | rfl | rfl <;> simp) g hg))]
    have n2 : ∀ g ∈ [F.MLS_DBG_HALT_LO_CORES, F.MLS_DBG_HALT_HI_CORES, F.MLS_DBG_HALT_SVC_CORES, F.MLS_DBG_STEP_GO, F.MLS_DBG_STEP_CORE], g.id ∉ plainIds := by decide
    exact hwr g 0 (n2 g hg))
  refine ⟨t, hrun.trans (congrArg Host.Outcome.next (hv1.trans hcalm)), q.1, q.2.1, q.2.2.1, q.2.2.2.1, q.2.2.2.2.1, q.2.2.2.2.2.1, q.2.2.2.2.2.2.1,
    q.2.2.2.2.2.2.2, ?_, ?_, ?_⟩
  · unfold bundleOf; rw [qs]; show Tbl.get _ (Tbl.drop _ _) _ = _; rw [Tbl.get_drop]; simp
  · have := hv2.2.1.1
    unfold SameButCode at *
    rw [qs, hls, this]
  · refine (hv2.2.1.2.2.2.mono ?_).trans (SameCells.trans (t := w) (fun g j _ => hl g j) (qc.mono ?_))
    · intro p hp; simp at hp ⊢; rcases hp with rfl | rfl | rfl <;> simp [hb]
    · intro p hp
      simp [endCells] at hp ⊢
      rcases hp with rfl | rfl | rfl | rfl | rfl | rfl | rfl | rfl | rfl | rfl | rfl | rfl | rfl | rfl | rfl | rfl | rfl <;> simp

/-- The cells that a boundary reads. -/
def boundaryCells : List Fld := [F.MLS_DBG_HALT_LO_CORES, F.MLS_DBG_HALT_HI_CORES, F.MLS_DBG_HALT_SVC_CORES, F.MLS_DBG_STEP_GO,
  F.MLS_DBG_STEP_CORE, F.MLS_DBG_HALTED_LO_CORES, F.MLS_DBG_HALTED_HI_CORES, F.MLS_DBG_HALTED_SVC_CORES, I.cJob, I.jCancel]

theorem boundary_reads {s t : State} {c : Nat} (h : CoreAwake s c) (hs : ∀ g ∈ boundaryCells, ∀ j, t.rd g j = s.rd g j) : boundary t c = t := by
  obtain ⟨h1, h2, h3, h4, h5, h6, h7, h10, h11, h12⟩ := h
  have e1 : stepping t c = false := by
    unfold stepping State.on at *
    rw [hs F.MLS_DBG_STEP_GO (by simp [boundaryCells]), hs F.MLS_DBG_STEP_CORE (by simp [boundaryCells])]; exact h4
  have e2 : haltReq t c = false := by
    unfold haltReq at *
    rw [coreBit_congr (s := s) _ _ _ _ (hs F.MLS_DBG_HALT_LO_CORES (by simp [boundaryCells]) 0)
      (hs F.MLS_DBG_HALT_HI_CORES (by simp [boundaryCells]) 0) (hs F.MLS_DBG_HALT_SVC_CORES (by simp [boundaryCells]) 0)]
    exact h3
  unfold boundary
  rw [e1]
  simp only [Bool.false_eq_true, if_false, e2]
  rw [if_neg]
  intro hc
  simp only [Bool.and_eq_true, Bool.not_eq_true', State.on] at hc
  rw [hs I.cJob (by simp [boundaryCells]), hs I.jCancel (by simp [boundaryCells])] at hc
  rcases h11 with h11 | h11
  · rw [h11] at hc; simp at hc
  · unfold State.on at h11; rw [h11] at hc; simp at hc

theorem yield_goes {s : State} {c : Fin 68} (h : CoreReady s c.val) (hc : c.val < 64) :
    ∃ v, exec (.yield c true) s = .next (boundary (arithDue (requestSwitch v c.val 3 0) c.val) c.val) ∧
      Framed s v c.val [] [] ∧ v.rd I.pcb (rbank s c.val) = (pcOf s c.val + 4) % 2 ^ 32 ∧ inFlight v (rbank s c.val) = [] ∧ SameTables s v plainIds := by
  have hs := not_svc hc
  have hrun : exec (.yield c true) s = sSyl s c.val true [.act .yield] [] := by
    show sgcSyl s c.val true .yield = _
    unfold sgcSyl; rw [hs]; rfl
  obtain ⟨v, hv1, hv2, hv3, hv4, hv5⟩ := act_goes_on h .yield rfl rfl rfl rfl
  have hcan : s.on I.jCancel (s.rd I.cJob c.val - 1) = false := by
    have := h.2.2.2.2.2.2.2.2.2.2.1
    rw [hs] at this; simpa using this
  have e : actAfter v c.val (pcOf s c.val) 1 .yield = requestSwitch v c.val 3 0 := by
    have hc2 : v.on I.jCancel (coreTask v c.val) = false := by
      unfold coreTask
      rw [State.on_eq, hv5.rd I.jCancel _ (by decide), hv5.rd I.cJob _ (by decide), ← State.on_eq]; exact hcan
    show (if v.on I.jCancel (coreTask v c.val) then stopCancelled v c.val else requestSwitch v c.val 3 0) = _
    rw [hc2]; rfl
  rw [e] at hv1
  exact ⟨v, hrun.trans (congrArg Host.Outcome.next hv1), hv2, hv3, hv4, hv5⟩

theorem framed_more {s v t : State} {c : Nat} (hv : Framed s v c [] []) {l : List (Fld × Nat)} (ht : OnlyCells v t l)
    (hb : rbank t c = rbank s c) (hl : inFlight v (rbank s c) = []) : Framed s t c l [] := by
  obtain ⟨g1, ⟨g2, g3, g4, g5⟩, -⟩ := hv
  obtain ⟨t1, t2⟩ := ht
  unfold SameButCells at t1
  have hbf : BundleFrame s t c l := by
    refine ⟨?_, ?_, ?_, ?_⟩
    · unfold SameButCode at *; rw [t1, g2]
    · intro d hd; rw [← g3 d hd]; unfold bundleOf; rw [t1]
    · intro d hd; rw [← g4 d hd]; unfold inFlight; rw [t1]
    · refine (g5.mono ?_).trans (t2.mono ?_)
      · simp
      · intro p hp; simp [hp]
  have hin : inFlight t (rbank s c) = [] := by rw [← hl]; unfold inFlight; rw [t1]
  have hs := landAll_same t (rbank s c)
  have hc := landAll_cells hin
  have hse : settled t c = landAll t (rbank s c) := by unfold settled; rw [hb]
  refine ⟨?_, hbf, ?_⟩
  · rw [← g1]; unfold bundleOf; rw [t1]
  · rw [hse]
    obtain ⟨f1, f2, f3, f4⟩ := hbf
    refine ⟨?_, ?_, ?_, ?_⟩
    · unfold SameButCode at *; rw [hs, f1]
    · intro d hd; rw [← f2 d hd]; unfold bundleOf; rw [hs]
    · intro d hd; rw [← f3 d hd]; unfold inFlight; rw [hs]; show Tbl.get _ (Tbl.drop _ _) _ = _; rw [Tbl.get_drop]; simp [Ne.symm hd]
    · intro g j hj
      have : (landAll t (rbank s c)).rd g j = t.rd g j := quiet_landAll hin g j
      rw [this]
      exact f4 g j (by simpa using hj)

theorem yield_waits {s : State} {c : Fin 68} (h : CoreReady s c.val) (hc : c.val < 64) (ho : s.rd I.obusy c.val = 1) :
    Does (.yield c true) s (fun t =>
      Issued s t c.val [(I.swPend, c.val), (I.swAddr, c.val)] [] ∧ t.rd I.swPend c.val = 3 ∧ t.rd I.swAddr c.val = 0) := by
  obtain ⟨v, hv1, hv2, hv3, hv4, hv5⟩ := yield_goes h hc
  have e : requestSwitch v c.val 3 0 = (v.wr I.swPend c.val 3).wr I.swAddr c.val 0 := by
    unfold requestSwitch
    rw [State.on_eq, hv5.rd I.obusy _ (by decide), ho]; rfl
  rw [e] at hv1
  have hr : ∀ g j, g.id ∉ plainIds → I.swPend.id ≠ g.id → I.swAddr.id ≠ g.id → ((v.wr I.swPend c.val 3).wr I.swAddr c.val 0).rd g j = s.rd g j := by
    intro g j h1 h2 h3
    rw [State.rd_wr_cell _ _ _ _ _ _ h3, State.rd_wr_cell _ _ _ _ _ _ h2]; exact hv5.rd g j h1
  have hb : rbank ((v.wr I.swPend c.val 3).wr I.swAddr c.val 0) c.val = rbank s c.val := rbank_congr _ (hr _ _ (by decide) (by decide) (by decide))
  have har : arithDue ((v.wr I.swPend c.val 3).wr I.swAddr c.val 0) c.val = (v.wr I.swPend c.val 3).wr I.swAddr c.val 0 := by
    unfold arithDue
    rw [hb, State.on_eq, hr _ _ (by decide) (by decide) (by decide), h.2.2.2.2.2.2.2.2.2.1]; rfl
  have hbd : boundary ((v.wr I.swPend c.val 3).wr I.swAddr c.val 0) c.val = (v.wr I.swPend c.val 3).wr I.swAddr c.val 0 := by
    refine boundary_reads (ready_awake h) fun g hg j => ?_
    have n : ∀ g ∈ boundaryCells, g.id ∉ plainIds ∧ I.swPend.id ≠ g.id ∧ I.swAddr.id ≠ g.id := by decide
    exact hr g j (n g hg).1 (n g hg).2.1 (n g hg).2.2
  rw [har, hbd] at hv1
  refine ⟨_, hv1, ⟨?_, ?_⟩, ?_, ?_⟩
  · unfold pcOf; rw [hb, State.rd_wr_cell _ _ _ _ _ _ (by decide), State.rd_wr_cell _ _ _ _ _ _ (by decide)]; exact hv3
  · refine framed_more hv2 (OnlyCells.wr (.wr (.refl _ _) (by simp)) (by simp)) ?_ ?_
    · exact hb
    · exact hv4
  · rw [State.rd_wr_cell _ _ _ _ _ _ (by decide), State.rd_wr_same]; rfl
  · rw [State.rd_wr_same]; rfl

/-- The cells that a switch without a successor writes. -/
def switchCells (c k : Nat) : List (Fld × Nat) :=
  [(I.qstall, c), (I.stSet, k), (I.stCore, k), (I.cLeave, c), (I.cLeaveRun, c), (I.cLeaveAddr, c), (I.obusy, c), (I.bank, c), (I.cJob, c),
    (I.waiting, c), (I.jRec, k), (I.jScause, k), (F.TSU_T_STAT_CVALID, k), (I.swPend, c), (F.TSU_T_STAT_STATE, k), (F.TSU_T_STAT_RESUME, k),
    (I.tLvl, k), (I.tPos, k), (I.ordTail, 0)]

/-- The core's part of leaving, from the state u whose results have landed. -/
def leftFrom (u : State) (c k scause saddr : Nat) : State :=
  (((({ noSet u k with bundles := Tbl.drop c (noSet u k).bundles } : State).wr I.cLeave c (k + 1)).wr I.cLeaveRun c scause).wr I.cLeaveAddr c saddr).wr I.obusy c 1

theorem leaveCore_let (v : State) (c scause saddr : Nat) (u x : State) (hu : arithBank (landAll v (rbank v c)) (rbank v c) = u)
    (hx : leftFrom u c (v.rd I.cJob c - 1) scause saddr = x) :
    leaveCore v c scause saddr = ((((((x.wr I.bank c (1 - x.rd I.bank c)).wr I.cJob c 0).wr I.waiting c 1).wr I.qstall c 0).wr I.jRec (v.rd I.cJob c - 1) 1).wr
      I.jScause (v.rd I.cJob c - 1) scause).wr F.TSU_T_STAT_CVALID (v.rd I.cJob c - 1) 0 := by
  subst hu; subst hx; simp only [leaveCore, leftFrom]

theorem leaveCore_plain (v : State) (c scause saddr : Nat) (ha : v.rd I.arith (rbank v c) = 0) (hl : inFlight v (rbank v c) = []) (k : Nat) (hk : v.rd I.cJob c - 1 = k)
    (w : State) (hw : ({ v with bundles := Tbl.drop c v.bundles, landings := Tbl.drop (rbank v c) v.landings, macShadow := Tbl.drop (rbank v c) v.macShadow } : State) = w) :
    leaveCore v c scause saddr =
      (((((((((((((w.wr I.stSet k 0).wr I.stCore k 0).wr I.cLeave c (k + 1)).wr I.cLeaveRun c scause).wr I.cLeaveAddr c saddr).wr I.obusy c 1).wr
        I.bank c (1 - v.rd I.bank c)).wr I.cJob c 0).wr I.waiting c 1).wr I.qstall c 0).wr I.jRec k 1).wr I.jScause k scause).wr F.TSU_T_STAT_CVALID k 0) := by
  have hs := landAll_same v (rbank v c)
  have hc := landAll_cells hl
  have hr : ∀ g j, (landAll v (rbank v c)).rd g j = v.rd g j := quiet_landAll hl
  have har : arithBank (landAll v (rbank v c)) (rbank v c) = landAll v (rbank v c) := by
    unfold arithBank
    rw [State.on_eq, hr, ha]; rfl
  rw [hc] at hs
  have hx : leftFrom (landAll v (rbank v c)) c k scause saddr = (((((w.wr I.stSet k 0).wr I.stCore k 0).wr I.cLeave c (k + 1)).wr I.cLeaveRun c scause).wr I.cLeaveAddr c saddr).wr I.obusy c 1 := by
    rw [hs, ← hw]; rfl
  rw [← hk] at hx ⊢
  rw [leaveCore_let v c scause saddr _ _ har hx]
  have hwr : w.rd I.bank c = v.rd I.bank c := by rw [← hw]; rfl
  have : ((((((w.wr I.stSet (v.rd I.cJob c - 1) 0).wr I.stCore (v.rd I.cJob c - 1) 0).wr I.cLeave c (v.rd I.cJob c - 1 + 1)).wr I.cLeaveRun c scause).wr I.cLeaveAddr c saddr).wr I.obusy c 1).rd I.bank c = v.rd I.bank c := by
    simp (disch := decide) only [State.rd_wr_cell]
    exact hwr
  rw [this]

theorem placed_plain (x : State) (k : Nat) (hrun : x.rd F.TSU_CTRL_RUN = 0) : placeLeaver x k 3 =
    ((((((x.wr F.TSU_T_STAT_STATE k tREADY).wr F.TSU_T_STAT_RESUME k 1).wr F.TSU_T_STAT_CVALID k 0).wr I.tLvl k (x.rd F.TSU_T_CFG_LEVEL k)).wr I.tPos k (x.rd I.ordTail)).wr
      I.ordTail 0 (x.rd I.ordTail + 1)) := by
  have hpc : ∀ y : State, y.rd F.TSU_CTRL_RUN = 0 → preemptChoose y k = y := by
    intro y hy
    unfold preemptChoose eligible
    rw [State.on_eq, hy]; rfl
  generalize hy : ((x.wr F.TSU_T_STAT_STATE k tREADY).wr F.TSU_T_STAT_RESUME k 1).wr F.TSU_T_STAT_CVALID k 0 = y
  have e1 : y.rd F.TSU_T_CFG_LEVEL k = x.rd F.TSU_T_CFG_LEVEL k := by
    rw [← hy]; simp (disch := decide) only [State.rd_wr_cell]
  have e2 : ∀ (z : State), y.wr I.tLvl k (x.rd F.TSU_T_CFG_LEVEL k) = z → z.rd I.ordTail = x.rd I.ordTail ∧ z.rd F.TSU_CTRL_RUN = 0 := by
    intro z hz
    rw [← hz, ← hy]
    constructor
    · simp (disch := decide) only [State.rd_wr_cell]
    · simp (disch := decide) only [State.rd_wr_cell]; exact hrun
  have : placeLeaver x k 3 = preemptChoose (placeTail (y.wr I.tLvl k (y.rd F.TSU_T_CFG_LEVEL k)) I.tPos k) k := by
    subst hy; simp only [placeLeaver, reenterReady, show ¬ (3 = 2) by decide, if_false, show (3 == 1) = false by decide, Bool.false_eq_true]
  rw [this, e1]
  generalize y.wr I.tLvl k (x.rd F.TSU_T_CFG_LEVEL k) = z at e2
  obtain ⟨e3, e4⟩ := e2 z rfl
  clear this e1
  have e5 : placeTail z I.tPos k = (z.wr I.tPos k (x.rd I.ordTail)).wr I.ordTail 0 (x.rd I.ordTail + 1) := by
    unfold placeTail State.set
    rw [e3]
  rw [e5]
  exact hpc _ (by simp (disch := decide) only [State.rd_wr_cell]; exact e4)

theorem switch_plain (v : State) (c : Nat) (ha : v.rd I.arith (rbank v c) = 0) (hl : inFlight v (rbank v c) = []) (hn : v.rd I.cNext c = 0)
    (hrun : v.rd F.TSU_CTRL_RUN = 0) (k : Nat) (hkk : v.rd I.cJob c - 1 = k) (t : State) (ht : switchNow v c 3 0 = t) :
    (t.rd I.cJob c = 0 ∧ t.rd I.waiting c = 1 ∧ t.rd I.bank c = (1 - v.rd I.bank c) % 2 ∧ t.rd I.cLeave c = (k + 1) % 2 ^ I.cLeave.w ∧ t.rd I.cLeaveRun c = 3 ∧
        t.rd I.obusy c = 1 ∧ t.rd I.jScause k = 3 ∧ t.rd I.jRec k = 1 ∧ taskSt t k = tREADY ∧
        t.rd F.TSU_T_STAT_RESUME k = 1 ∧ t.rd I.tLvl k = v.rd F.TSU_T_CFG_LEVEL k % 2 ^ I.tLvl.w ∧ t.rd I.tPos k = v.rd I.ordTail % 2 ^ I.tPos.w) ∧
    SameCells v t (switchCells c k) ∧
    t = { v with cells := t.cells, bundles := Tbl.drop c v.bundles, landings := Tbl.drop (rbank v c) v.landings, macShadow := Tbl.drop (rbank v c) v.macShadow } := by
  generalize hw0 : ({ v with bundles := Tbl.drop c v.bundles, landings := Tbl.drop (rbank v c) v.landings, macShadow := Tbl.drop (rbank v c) v.macShadow } : State) = w
  have hlc := leaveCore_plain v c 3 0 ha hl k hkk w hw0
  have hwr : ∀ g j, w.rd g j = v.rd g j := by rw [← hw0]; intro g j; rfl
  have hsw : switchNow v c 3 0 = placeLeaver ((leaveCore v c 3 0).wr I.swPend c 0) k 3 := by
    unfold switchNow
    rw [State.on_eq, hn, hkk]; rfl
  rw [hsw, hlc] at ht
  clear hsw hlc
  rw [placed_plain _ _ (by simp (disch := decide) only [State.rd_wr_cell]; rw [hwr]; exact hrun)] at ht
  simp (disch := decide) only [State.rd_wr_cell] at ht
  rw [hwr, hwr] at ht
  refine ⟨?_, ?_, ?_⟩
  · rw [← ht]
    unfold taskSt
    simp (disch := decide) only [State.rd_wr_cell, State.rd_wr_same]
    exact ⟨rfl, rfl, rfl, trivial, rfl, rfl, rfl, rfl, rfl, rfl, trivial, trivial⟩
  · rw [← ht]
    have h0 : SameCells v w (switchCells c k) := fun g j _ => hwr g j
    refine .wr (.wr (.wr (.wr (.wr (.wr (.wr (.wr (.wr (.wr (.wr (.wr (.wr (.wr (.wr (.wr (.wr (.wr (.wr (.wr h0 ?_) ?_) ?_) ?_) ?_) ?_) ?_) ?_) ?_) ?_) ?_) ?_) ?_) ?_) ?_) ?_) ?_) ?_) ?_) ?_ <;> simp [switchCells]
  · have e : SameButCells w t := by
      rw [← ht]
      exact .wr (.wr (.wr (.wr (.wr (.wr (.wr (.wr (.wr (.wr (.wr (.wr (.wr (.wr (.wr (.wr (.wr (.wr (.wr (.wr (.refl _))))))))))))))))))))
    unfold SameButCells at e
    refine e.trans ?_
    conv => lhs; rw [← hw0]

theorem switchCells_ids (c k : Nat) : ∀ p ∈ switchCells c k, ∀ g ∈ [F.MLS_DBG_HALT_LO_CORES, F.MLS_DBG_HALT_HI_CORES, F.MLS_DBG_HALT_SVC_CORES,
    F.MLS_DBG_STEP_GO, F.MLS_DBG_STEP_CORE], p.1.id ≠ g.id := by
  have n : ∀ f ∈ [I.qstall, I.stSet, I.stCore, I.cLeave, I.cLeaveRun, I.cLeaveAddr, I.obusy, I.bank, I.cJob, I.waiting, I.jRec, I.jScause,
    F.TSU_T_STAT_CVALID, I.swPend, F.TSU_T_STAT_STATE, F.TSU_T_STAT_RESUME, I.tLvl, I.tPos, I.ordTail],
    ∀ g ∈ [F.MLS_DBG_HALT_LO_CORES, F.MLS_DBG_HALT_HI_CORES, F.MLS_DBG_HALT_SVC_CORES, F.MLS_DBG_STEP_GO, F.MLS_DBG_STEP_CORE], f.id ≠ g.id := by decide
  intro p hp
  have : p.1 ∈ (switchCells c k).map (·.1) := List.mem_map_of_mem hp
  exact n p.1 this

theorem yield_goes_on {s : State} {c : Fin 68} (h : CoreReady s c.val) (hc : c.val < 64) (b k : Nat) (hb : rbank s c.val = b) (hk : s.rd I.cJob c.val - 1 = k)
    (ho : s.rd I.obusy c.val = 0) (hn : s.rd I.cNext c.val = 0) (hrun : s.rd F.TSU_CTRL_RUN = 0) :
    Does (.yield c true) s (fun t => (t.rd I.cJob c.val = 0 ∧ t.rd I.waiting c.val = 1 ∧ t.rd I.bank c.val = (1 - s.rd I.bank c.val) % 2 ∧
        t.rd I.cLeave c.val = (k + 1) % 2 ^ I.cLeave.w ∧ t.rd I.cLeaveRun c.val = 3 ∧
        t.rd I.obusy c.val = 1 ∧ t.rd I.jScause k = 3 ∧ t.rd I.jRec k = 1 ∧ taskSt t k = tREADY ∧
        t.rd F.TSU_T_STAT_RESUME k = 1 ∧ t.rd I.tLvl k = s.rd F.TSU_T_CFG_LEVEL k % 2 ^ I.tLvl.w ∧ t.rd I.tPos k = s.rd I.ordTail % 2 ^ I.tPos.w) ∧
        bundleOf t c.val = Bundle.empty ∧ SameButCode s t ∧
        SameCells s t ([(I.pcb, b), (I.cycle, b), (I.qstall, c.val)] ++ switchCells c.val k)) := by
  obtain ⟨v, hv1, hv2, hv3, hv4, hv5⟩ := yield_goes h hc
  have hvr : ∀ g j, g.id ∉ plainIds → v.rd g j = s.rd g j := fun g j hg => hv5.rd g j hg
  have hvb : rbank v c.val = b := (rbank_congr _ (hvr _ _ (by decide))).trans hb
  have e : requestSwitch v c.val 3 0 = switchNow v c.val 3 0 := by
    unfold requestSwitch
    rw [if_neg]
    rw [State.on_eq, hvr I.obusy _ (by decide), ho]; decide
  rw [e] at hv1
  have a1 : v.rd I.arith (rbank v c.val) = 0 := by
    have := h.2.2.2.2.2.2.2.2.2.1
    rw [hvb, hvr I.arith _ (by decide), ← hb]; exact this
  have a2 : inFlight v (rbank v c.val) = [] := by rw [hvb, ← hb]; exact hv4
  have a3 : v.rd I.cNext c.val = 0 := (hvr I.cNext _ (by decide)).trans hn
  have a4 : v.rd F.TSU_CTRL_RUN = 0 := (hvr F.TSU_CTRL_RUN _ (by decide)).trans hrun
  have a5 : v.rd I.cJob c.val = s.rd I.cJob c.val := hvr I.cJob _ (by decide)
  have a7 : v.rd I.cJob c.val - 1 = k := by rw [a5]; exact hk
  generalize ht : switchNow v c.val 3 0 = t at hv1
  obtain ⟨q, qc, qs⟩ := switch_plain v c.val a1 a2 a3 a4 k a7 t ht
  rw [hvr I.bank _ (by decide), hvr F.TSU_T_CFG_LEVEL _ (by decide), hvr I.ordTail _ (by decide)] at q
  have hcalm := gone_calm (t := t) h hc q.1 (by
    intro g hg
    rw [qc g 0 (fun p hp he => absurd he (switchCells_ids c.val k p hp g hg))]
    have n2 : ∀ g ∈ [F.MLS_DBG_HALT_LO_CORES, F.MLS_DBG_HALT_HI_CORES, F.MLS_DBG_HALT_SVC_CORES, F.MLS_DBG_STEP_GO, F.MLS_DBG_STEP_CORE], g.id ∉ plainIds := by decide
    exact hvr g 0 (n2 g hg))
  refine ⟨t, hv1.trans (congrArg Host.Outcome.next hcalm), q, ?_, ?_, ?_⟩
  · unfold bundleOf; rw [qs]; show Tbl.get _ (Tbl.drop _ _) _ = _; rw [Tbl.get_drop]; simp
  · have := hv2.2.1.1
    unfold SameButCode at *
    rw [qs, this]
  · refine (hv2.2.1.2.2.2.mono ?_).trans (qc.mono ?_)
    · intro p hp; simp at hp ⊢; rcases hp with rfl | rfl | rfl <;> simp [hb]
    · intro p hp; exact List.mem_append_right _ hp

theorem touch_goes {s : State} {c : Fin 68} (h : CoreReady s c.val) (hc : c.val < 64) (ra : BitVec 5) :
    ∃ v, exec (.touch c true ra) s = .next (boundary (arithDue (touchAct v c.val (readWord s (rbank s c.val) ra.toNat)) c.val) c.val) ∧
      Framed s v c.val [] [] ∧ v.rd I.pcb (rbank s c.val) = (pcOf s c.val + 4) % 2 ^ 32 ∧ inFlight v (rbank s c.val) = [] ∧ SameTables s v plainIds := by
  have hs := not_svc hc
  have hrun : exec (.touch c true ra) s = sSyl s c.val true [.act (.touch (readWord s (rbank s c.val) ra.toNat))] [] := by
    show sgcSyl s c.val true (.touch _) = _
    unfold sgcSyl; rw [hs]; rfl
  obtain ⟨v, hv1, hv2, hv3, hv4, hv5⟩ := act_goes_on h (.touch (readWord s (rbank s c.val) ra.toNat)) rfl rfl rfl rfl
  exact ⟨v, hrun.trans (congrArg Host.Outcome.next hv1), hv2, hv3, hv4, hv5⟩

theorem touch_done {s v w : State} {c : Fin 68} (h : CoreReady s c.val) (l : List (Fld × Nat)) (hv2 : Framed s v c.val [] [])
    (hv3 : v.rd I.pcb (rbank s c.val) = (pcOf s c.val + 4) % 2 ^ 32) (hv4 : inFlight v (rbank s c.val) = []) (hv5 : SameTables s v plainIds)
    (hw : OnlyCells v w l) (hl : ∀ p ∈ l, p.1 = I.jTouch) :
    boundary (arithDue w c.val) c.val = w ∧ Issued s w c.val l [] := by
  have hr : ∀ g j, g.id ∉ plainIds → I.jTouch.id ≠ g.id → w.rd g j = s.rd g j := by
    intro g j h1 h2
    rw [hw.2 g j (fun p hp he => absurd ((hl p hp) ▸ he) h2)]; exact hv5.rd g j h1
  have hb : rbank w c.val = rbank s c.val := rbank_congr _ (hr _ _ (by decide) (by decide))
  have har : arithDue w c.val = w := by
    unfold arithDue
    rw [hb, State.on_eq, hr _ _ (by decide) (by decide), h.2.2.2.2.2.2.2.2.2.1]; rfl
  have hbd : boundary w c.val = w := by
    refine boundary_reads (ready_awake h) fun g hg j => ?_
    have n : ∀ g ∈ boundaryCells, g.id ∉ plainIds ∧ I.jTouch.id ≠ g.id := by decide
    exact hr g j (n g hg).1 (n g hg).2
  rw [har, hbd]
  refine ⟨rfl, ?_, framed_more hv2 hw hb hv4⟩
  unfold pcOf
  rw [hb, hw.2 I.pcb _ (fun p hp he => absurd ((hl p hp) ▸ he) (by decide))]; exact hv3

theorem touch_none {v : State} {c a : Nat} (h : 0x10000 ≤ a ∨ v.rd I.jCv (coreTask v c) = 0 ∨ notPresent v (coreCid v c) (a / 4096) = true ∨
    ((framesOn v c (coreCid v c) (a / 4096)).any fun i => ownedBy v i (coreTask v c)) = true) : touchAct v c a = v := by
  unfold touchAct
  dsimp only
  rw [if_pos]
  rcases h with h | h | h | h
  · simp [h]
  · simp [State.on_eq, h]
  · simp [h]
  · simp [h]

theorem over_still {α : Type} (u : State) (l : List α) (f : State → α → State) (h : ∀ x ∈ l, f u x = u) : u.over l f = u := by
  unfold State.over
  induction l with
  | nil => rfl
  | cons x l ih =>
    show List.foldl f (f u x) l = u
    rw [h x (by simp)]
    exact ih fun y hy => h y (by simp [hy])

theorem bitOf_pow (p v : Nat) : bitOf (2 ^ v) p = decide (v = p) := by
  have h := Nat.testBit_two_pow (n := v) (m := p)
  unfold bitOf; rw [← h, Nat.testBit_eq_decide_div_mod_eq]; rfl

theorem touchedArrive_still (v : State) (k vp cid : Nat) (hj : ∀ j, v.rd I.jTouch j = 0) (hcid : v.rd I.jCid k = cid) (hl : lvl v cid vp = 2)
    (hv : vp < 16) : touchedArrive (v.wr I.jTouch k (2 ^ vp)) = v.wr I.jTouch k (2 ^ vp) := by
  have h2 : lvl (v.wr I.jTouch k (2 ^ vp)) cid vp = 2 := by
    unfold lvl; rw [State.rd_wr_cell _ _ _ _ _ _ (by decide)]; exact hl
  have h3 : (v.wr I.jTouch k (2 ^ vp)).rd I.jCid k = cid := by
    rw [State.rd_wr_cell _ _ _ _ _ _ (by decide)]; exact hcid
  have h1 : ∀ j, (v.wr I.jTouch k (2 ^ vp)).rd I.jTouch j = if j = k then 2 ^ vp else 0 := by
    intro j
    by_cases e : j = k
    · rw [e, State.rd_wr_same, if_pos rfl]
      show 2 ^ vp % 2 ^ 16 = _
      exact Nat.mod_eq_of_lt (Nat.pow_lt_pow_right (by decide) hv)
    · rw [State.rd_wr_inst _ _ _ _ _ (Ne.symm e), hj, if_neg e]
  generalize v.wr I.jTouch k (2 ^ vp) = u at *
  unfold touchedArrive
  apply over_still
  intro d hd
  apply over_still
  intro p hp
  exfalso
  simp only [List.mem_filter, pagesOf, h1] at hp
  by_cases e : u.rd I.cJob d - 1 = k
  · simp only [e, if_true, bitOf_pow, h3, decide_eq_true_eq, Bool.and_eq_true, beq_iff_eq] at hp
    obtain ⟨⟨-, rfl⟩, h4, -⟩ := hp
    rw [h2] at h4; exact absurd h4 (by decide)
  · simp [e, bitOf] at hp

end Sys2Proof.Machine
end

