-- ==== Sys2Proof/Laws/CasePage.lean ====
section
/-! SUPPORT.  Page transfers: what the shared operations of CPG leave. -/

namespace Sys2Proof.Machine

open Safety

theorem Tbl.length_drop {α : Type} (k : Nat) (t : Tbl α) : (Tbl.drop k t).length ≤ t.length := by
  induction t with
  | nil => simp [Tbl.drop]
  | cons e r ih => obtain ⟨i, a⟩ := e; simp only [Tbl.drop]; split <;> simp <;> omega

theorem Tbl.length_ins {α : Type} (k : Nat) (v : α) (t : Tbl α) : (Tbl.ins k v t).length = t.length + 1 := by
  induction t with
  | nil => rfl
  | cons e r ih => obtain ⟨i, a⟩ := e; simp only [Tbl.ins]; split <;> simp [ih]

theorem nonzero_wr_same (s : State) (f : Fld) (i v : Nat) : ((s.wr f i v).nonzero f).length ≤ (s.nonzero f).length + 1 := by
  unfold State.nonzero
  have e : Tbl.get [] (s.wr f i v).cells f.id = Tbl.put (f.resetAt i) i (v % 2 ^ f.w) (Tbl.get [] s.cells f.id) := by
    show Tbl.get [] (Tbl.put _ _ _ _) _ = _
    rw [Tbl.get_put_same]
  rw [e, List.length_map, List.length_map]
  unfold Tbl.put
  have := Tbl.length_drop i (Tbl.get [] s.cells f.id)
  split
  · omega
  · rw [Tbl.length_ins]; omega

theorem nonzero_wr_reset (s : State) (f : Fld) (i : Nat) (h : 0 % 2 ^ f.w = f.resetAt i) : ((s.wr f i 0).nonzero f).length ≤ (s.nonzero f).length := by
  unfold State.nonzero
  have e : Tbl.get [] (s.wr f i 0).cells f.id = Tbl.put (f.resetAt i) i (0 % 2 ^ f.w) (Tbl.get [] s.cells f.id) := by
    show Tbl.get [] (Tbl.put _ _ _ _) _ = _
    rw [Tbl.get_put_same]
  rw [e, List.length_map, List.length_map]
  unfold Tbl.put
  rw [if_pos h]
  exact Tbl.length_drop i _

theorem nonzero_wr_other (s : State) (f g : Fld) (i v : Nat) (h : f.id ≠ g.id) : (s.wr f i v).nonzero g = s.nonzero g := by
  unfold State.nonzero
  show List.map _ (Tbl.get [] (Tbl.put _ _ _ _) _) = _
  rw [Tbl.get_put]; simp [h]

theorem maskOf_one (v : Fin 16) : maskOf [v.val] = 2 ^ v.val := by revert v; decide

/-- A frame given to a page. -/
theorem giveFrame_says (s : State) (i cid v owner st : Nat) (h1 : cid < 2 ^ 15) (h2 : v < 16) (h3 : owner < 2 ^ 17) (h4 : st < 8) : let u := giveFrame s i cid v owner st
    u.rd F.CPG_FRAME_STATE i = st ∧ u.rd F.CPG_FRAME_CID i = cid ∧ u.rd F.CPG_FRAME_VPAGE i = v ∧ u.rd I.frOwner i = owner ∧ u.rd I.frIn i = 1 ∧
      OnlyCells s u [(F.CPG_FRAME_STATE, i), (F.CPG_FRAME_DIRTY, i), (F.CPG_FRAME_VPAGE, i), (F.CPG_FRAME_CID, i),
          (I.frOwner, i), (I.frIn, i), (I.frOut, i), (I.frLru, i), (I.useSeq, 0)] ∧ inflight u ≤ inflight s + 1 := by
  have hu : giveFrame s i cid v owner st = (puts s [(F.CPG_FRAME_STATE, i, 0), (F.CPG_FRAME_DIRTY, i, 0), (F.CPG_FRAME_VPAGE, i, 0), (F.CPG_FRAME_CID, i, 0),
      (I.frOwner, i, 0), (I.frIn, i, 0), (I.frOut, i, 0), (F.CPG_FRAME_STATE, i, st), (F.CPG_FRAME_CID, i, cid), (F.CPG_FRAME_VPAGE, i, v), (I.frOwner, i, owner),
      (I.frIn, i, 1), (I.frLru, i, s.rd I.useSeq), (I.useSeq, 0, s.rd I.useSeq + 1)]) := by
    unfold giveFrame touchFrame emptyFrame
    simp only [State.set_eq_wr]
    simp (disch := decide) only [State.rd_wr_cell]
    rfl
  dsimp only
  rw [hu]
  have ho := OnlyCells.puts s [(F.CPG_FRAME_STATE, i, 0), (F.CPG_FRAME_DIRTY, i, 0), (F.CPG_FRAME_VPAGE, i, 0), (F.CPG_FRAME_CID, i, 0),
      (I.frOwner, i, 0), (I.frIn, i, 0), (I.frOut, i, 0), (F.CPG_FRAME_STATE, i, st), (F.CPG_FRAME_CID, i, cid), (F.CPG_FRAME_VPAGE, i, v), (I.frOwner, i, owner),
      (I.frIn, i, 1), (I.frLru, i, s.rd I.useSeq), (I.useSeq, 0, s.rd I.useSeq + 1)]
  refine ⟨?_, ?_, ?_, ?_, ?_, ho.mono (by simp), ?_⟩
  · simp only [puts_cons, puts_nil]; simp (disch := decide) only [State.rd_wr_cell, State.rd_wr_same]; exact Nat.mod_eq_of_lt h4
  · simp only [puts_cons, puts_nil]; simp (disch := decide) only [State.rd_wr_cell, State.rd_wr_same]; exact Nat.mod_eq_of_lt h1
  · simp only [puts_cons, puts_nil]; simp (disch := decide) only [State.rd_wr_cell, State.rd_wr_same]; exact Nat.mod_eq_of_lt h2
  · simp only [puts_cons, puts_nil]; simp (disch := decide) only [State.rd_wr_cell, State.rd_wr_same]; exact Nat.mod_eq_of_lt h3
  · simp only [puts_cons, puts_nil]; simp (disch := decide) only [State.rd_wr_cell, State.rd_wr_same]; rfl
  · unfold inflight
    simp only [puts_cons, puts_nil]
    simp (disch := decide) only [nonzero_wr_other]
    have a := nonzero_wr_same ((puts s [(F.CPG_FRAME_STATE, i, 0), (F.CPG_FRAME_DIRTY, i, 0), (F.CPG_FRAME_VPAGE, i, 0), (F.CPG_FRAME_CID, i, 0),
      (I.frOwner, i, 0), (I.frIn, i, 0), (I.frOut, i, 0), (F.CPG_FRAME_STATE, i, st), (F.CPG_FRAME_CID, i, cid), (F.CPG_FRAME_VPAGE, i, v), (I.frOwner, i, owner)])) I.frIn i 1
    simp only [puts_cons, puts_nil] at a
    simp (disch := decide) only [nonzero_wr_other] at a
    have b := nonzero_wr_reset (puts s [(F.CPG_FRAME_STATE, i, 0), (F.CPG_FRAME_DIRTY, i, 0), (F.CPG_FRAME_VPAGE, i, 0), (F.CPG_FRAME_CID, i, 0), (I.frOwner, i, 0)]) I.frIn i rfl
    simp only [puts_cons, puts_nil] at b
    simp (disch := decide) only [nonzero_wr_other] at b
    have c := nonzero_wr_reset (puts s [(F.CPG_FRAME_STATE, i, 0), (F.CPG_FRAME_DIRTY, i, 0), (F.CPG_FRAME_VPAGE, i, 0), (F.CPG_FRAME_CID, i, 0), (I.frOwner, i, 0), (I.frIn, i, 0)]) I.frOut i rfl
    simp only [puts_cons, puts_nil] at c
    simp (disch := decide) only [nonzero_wr_other] at c
    omega

theorem bumpBy_room (s : State) (f : Fld) (i : Nat) (o : Option Fld) (n : Nat) (h : s.rd f i + n + 1 < 2 ^ f.w) : s.bumpBy f i o n = s.wr f i (s.rd f i + n) := by
  unfold State.bumpBy
  dsimp only
  rw [if_neg (by simp; omega), if_pos (by omega)]

theorem bump_room (s : State) (f : Fld) (i : Nat) (o : Option Fld) (h : s.rd f i + 2 < 2 ^ f.w) : s.bump f i o = s.wr f i (s.rd f i + 1) := by
  unfold State.bump
  dsimp only
  rw [if_pos (by omega), if_neg (by omega)]

theorem cstTouch_cold (s : State) (a : Nat) (h : bankMode s (a / 0x800000) ≠ 1) : cstTouch s a = s := by
  unfold cstTouch
  dsimp only
  rw [if_neg (by
    have : (bankMode s (a / 0x800000) == 1) = false := by simpa using h
    rw [this, Bool.and_false]; decide)]

theorem rd_copyMem (s : State) (a b n : Nat) (g : Fld) (j : Nat) : (s.copyMem a b n).rd g j = s.rd g j := rfl

theorem nonzero_copyMem (s : State) (a b n : Nat) (g : Fld) : (s.copyMem a b n).nonzero g = s.nonzero g := rfl

theorem frameFilled_says (s : State) (i : Nat) (hc : bankMode s (pageAddr s (s.rd F.CPG_FRAME_CID i) (s.rd F.CPG_FRAME_VPAGE i) / 0x800000) ≠ 1)
    (hr : s.rd F.CPG_STAGECNT_COUNT + 2 < 2 ^ 32) : frameFilled s i =
    let u := puts (s.copyMem (pageAddr s (s.rd F.CPG_FRAME_CID i) (s.rd F.CPG_FRAME_VPAGE i)) (frameAddr i) 4096)
      [(I.frIn, i, 0), (F.CPG_STAGECNT_COUNT, 0, s.rd F.CPG_STAGECNT_COUNT + 1)]
    if s.on I.frOwner i && taskSt s (s.rd I.frOwner i - 1) == tRUNNING && s.rd I.jCid (s.rd I.frOwner i - 1) == s.rd F.CPG_FRAME_CID i then
      u.wr I.jWs (s.rd I.frOwner i - 1) (setBit (s.rd I.jWs (s.rd I.frOwner i - 1)) (s.rd F.CPG_FRAME_VPAGE i)) else u := by
  unfold frameFilled
  dsimp only
  generalize pageAddr s (s.rd F.CPG_FRAME_CID i) (s.rd F.CPG_FRAME_VPAGE i) = a at *
  rw [cstTouch_cold _ _ (by exact hc)]
  unfold cpgCount taskSt
  rw [bumpBy_room _ _ _ _ _ (by rw [State.rd_wr_cell _ _ _ _ _ _ (by decide), rd_copyMem]; exact hr)]
  simp (disch := decide) only [State.on_eq, State.rd_wr_cell, rd_copyMem]
  rfl

theorem writeBackFrame_says (s : State) (i : Nat) (hw : frSt s i = fWBPEND) (hrv : i % 8 ≠ 7)
    (hc : bankMode s (pageAddr s (s.rd F.CPG_FRAME_CID i) (s.rd F.CPG_FRAME_VPAGE i) / 0x800000) ≠ 1)
    (ho : ∀ j ∈ frames s, j ≠ i → holds s j (s.rd F.CPG_FRAME_CID i) (s.rd F.CPG_FRAME_VPAGE i) = false) (hr : s.rd F.CPG_WBCNT_COUNT + 2 < 2 ^ 32) :
    writeBackFrame s i = puts (if s.rd F.CPG_FRAME_VPAGE i = 0 then
        (s.copyMem (frameAddr i) (pageAddr s (s.rd F.CPG_FRAME_CID i) (s.rd F.CPG_FRAME_VPAGE i)) 0x200).copyMem (frameAddr i + 0x400) (pageAddr s (s.rd F.CPG_FRAME_CID i) (s.rd F.CPG_FRAME_VPAGE i) + 0x400) 0xC00
        else s.copyMem (frameAddr i) (pageAddr s (s.rd F.CPG_FRAME_CID i) (s.rd F.CPG_FRAME_VPAGE i)) 4096)
      [(F.CPG_FRAME_DIRTY, i, 0), (I.frOut, i, 0), (I.mapDirty, 16 * s.rd F.CPG_FRAME_CID i + s.rd F.CPG_FRAME_VPAGE i, 0), (F.CPG_FRAME_STATE, i, fCACHED),
        (F.CPG_FRAME_DIRTY, i, 0), (I.frOwner, i, 0), (I.frLru, i, s.rd I.useSeq), (I.useSeq, 0, s.rd I.useSeq + 1),
        (F.CPG_WBCNT_COUNT, 0, s.rd F.CPG_WBCNT_COUNT + 1)] := by
  generalize ha : pageAddr s (s.rd F.CPG_FRAME_CID i) (s.rd F.CPG_FRAME_VPAGE i) = a at *
  generalize hu : (if s.rd F.CPG_FRAME_VPAGE i = 0 then (s.copyMem (frameAddr i) a 0x200).copyMem (frameAddr i + 0x400) (a + 0x400) 0xC00
        else s.copyMem (frameAddr i) a 4096) = u
  have hur : ∀ g j, u.rd g j = s.rd g j := by intro g j; rw [← hu]; split <;> rfl
  have hun : ∀ g, u.nonzero g = s.nonzero g := by intro g; rw [← hu]; split <;> rfl
  have hf : frameToCst s i = u := by
    unfold frameToCst
    dsimp only
    rw [ha, cstTouch_cold _ _ hc, hu]
  have hfs : ∀ j, frSt u j = frSt s j := fun j => by unfold frSt; rw [State.on_eq, State.on_eq, hur, hur]
  have hi : invalidateOthers u i (s.rd F.CPG_FRAME_CID i) (s.rd F.CPG_FRAME_VPAGE i) = u := by
    unfold invalidateOthers
    rw [List.filter_eq_nil_iff.mpr (fun j hj => ?_)]
    · rfl
    · have hj' : j ∈ frames s := by unfold frames at *; rw [hun] at hj; exact hj
      have : holds u j (s.rd F.CPG_FRAME_CID i) (s.rd F.CPG_FRAME_VPAGE i) = holds s j (s.rd F.CPG_FRAME_CID i) (s.rd F.CPG_FRAME_VPAGE i) := by
        unfold holds; rw [hur, hur, hfs]
      rw [this]
      by_cases e : j = i
      · simp [e]
      · rw [ho j hj' e]; simp
  unfold writeBackFrame
  dsimp only
  rw [hf, hi]
  have hfs2 : frSt (((u.wr F.CPG_FRAME_DIRTY i 0).wr I.frOut i 0).wr I.mapDirty (entry (s.rd F.CPG_FRAME_CID i) (s.rd F.CPG_FRAME_VPAGE i)) 0) i = fWBPEND := by
    rw [← hw]
    unfold frSt
    simp (disch := decide) only [State.on_eq, State.rd_wr_cell, hur]
    rfl
  rw [if_pos hfs2]
  unfold toCached
  have hnr : isReserve i = false := by unfold isReserve; simpa using hrv
  rw [hnr, if_neg (by decide)]
  unfold touchFrame cpgCount
  have hr' : u.rd F.CPG_WBCNT_COUNT + 1 + 1 < 2 ^ F.CPG_WBCNT_COUNT.w := by rw [hur]; exact hr
  rw [bumpBy_room _ _ _ _ _ (by simp (disch := decide) only [State.set_eq_wr, State.rd_wr_cell]; exact hr')]
  simp only [State.set_eq_wr]
  simp (disch := decide) only [State.rd_wr_cell, hur]
  rfl

theorem touchedArrive_idle (s : State) (h : ∀ d, d < 64 → s.rd I.cJob d = 0) : touchedArrive s = s := by
  unfold touchedArrive
  rw [List.filter_eq_nil_iff.mpr (fun d hd => by
    rw [State.on_eq, h d (by simpa using hd)]; simp)]
  rfl

/-- The write-backs of the frames of a core that await them. -/
theorem writeBacks_says (c : Nat) (n : Nat) (s : State) (hn : n ≤ 16) (h : inflight s + n ≤ 1024) :
    let u := s.over (List.range n) fun s f => writeBackStart s (frameNo c f) (bitOf (0 : BitVec 16).toNat f)
    (∀ k, k < n → u.rd I.frOut (16 * c + k) = if frSt s (16 * c + k) = fWBPEND then 1 else s.rd I.frOut (16 * c + k)) ∧
      (∀ k, n ≤ k → u.rd I.frOut (16 * c + k) = s.rd I.frOut (16 * c + k)) ∧
      OnlyCells s u ((List.range n).map fun k => (I.frOut, 16 * c + k)) ∧ inflight u ≤ inflight s + n := by
  induction n with
  | zero => exact ⟨fun k hk => absurd hk (by omega), fun _ _ => rfl, .refl _ _, Nat.le_refl _⟩
  | succ n ih =>
    obtain ⟨i1, i2, i3, i4⟩ := ih (by omega) (by omega)
    have e : s.over (List.range (n + 1)) (fun s f => writeBackStart s (frameNo c f) (bitOf (0 : BitVec 16).toNat f)) =
        writeBackStart (s.over (List.range n) fun s f => writeBackStart s (frameNo c f) (bitOf (0 : BitVec 16).toNat f)) (frameNo c n) (bitOf (0 : BitVec 16).toNat n) := by
      unfold State.over; rw [List.range_succ, List.foldl_append]; rfl
    dsimp only at i1 i2 i3 i4 ⊢
    rw [e]
    generalize s.over (List.range n) (fun s f => writeBackStart s (frameNo c f) (bitOf (0 : BitVec 16).toNat f)) = u at *
    have hb : bitOf (0 : BitVec 16).toNat n = false := by simp [bitOf]
    have hfr : ∀ j, frSt u j = frSt s j := by
      intro j
      unfold frSt
      rw [State.on_eq, State.on_eq, i3.2 _ _ (by
        intro p hp he
        obtain ⟨x, -, rfl⟩ := List.mem_map.mp hp
        exact absurd he (by dsimp only; decide)), i3.2 _ _ (by
        intro p hp he
        obtain ⟨x, -, rfl⟩ := List.mem_map.mp hp
        exact absurd he (by dsimp only; decide))]
    have hbool : u.rd I.frOut (16 * c + n) < 2 ^ 1 := State.rd_lt u I.frOut _
    have ho := i2 n (Nat.le_refl _)
    unfold writeBackStart frameNo
    rw [hb]
    by_cases hw : (frSt u (16 * c + n) == fWBPEND && !u.on I.frOut (16 * c + n)) = true
    · rw [if_pos hw, if_neg (by decide), if_pos (by omega)]
      have hw1 : frSt s (16 * c + n) = fWBPEND := by
        rw [← hfr]; simp only [Bool.and_eq_true, beq_iff_eq] at hw; exact hw.1
      refine ⟨fun k hk => ?_, fun k hk => ?_, (i3.mono (fun p hp => ?_)).wr ?_, ?_⟩
      · by_cases hkn : k = n
        · subst hkn; rw [State.rd_wr_same, if_pos hw1]; rfl
        · rw [State.rd_wr_inst _ _ _ _ _ (by omega)]; exact i1 k (by omega)
      · rw [State.rd_wr_inst _ _ _ _ _ (by omega)]; exact i2 k (by omega)
      · obtain ⟨x, hx, rfl⟩ := List.mem_map.mp hp
        exact List.mem_map.mpr ⟨x, by simp at hx ⊢; omega, rfl⟩
      · exact List.mem_map.mpr ⟨n, by simp, rfl⟩
      · have := nonzero_wr_same u I.frOut (16 * c + n) 1
        unfold inflight at *
        rw [nonzero_wr_other _ _ I.frIn _ _ (by decide), nonzero_wr_other _ _ I.mapMove _ _ (by decide)]
        omega
    · rw [if_neg hw]
      refine ⟨fun k hk => ?_, fun k hk => i2 k (by omega), i3.mono (fun p hp => ?_), by omega⟩
      · by_cases hkn : k = n
        · subst hkn
          rw [ho]
          by_cases h1 : frSt s (16 * c + k) = fWBPEND
          · rw [if_pos h1]
            have : u.on I.frOut (16 * c + k) = true := by
              rw [hfr, h1] at hw
              simpa using hw
            rw [State.on_eq] at this
            simp at this
            omega
          · rw [if_neg h1]
        · exact i1 k (by omega)
      · obtain ⟨x, hx, rfl⟩ := List.mem_map.mp hp
        exact List.mem_map.mpr ⟨x, by simp at hx ⊢; omega, rfl⟩

theorem wrLE_over {α : Type} (s : State) (l : List α) (f : State → α → State) (h : ∀ u x, f u x = { u with mem := (f u x).mem }) :
    s.over l f = { s with mem := (s.over l f).mem } := by
  unfold State.over
  induction l generalizing s with
  | nil => rfl
  | cons a r ih =>
    simp only [List.foldl_cons]
    have h1 := ih (f s a)
    have h2 := h s a
    generalize List.foldl f (f s a) r = u at *
    conv => lhs; rw [h1]
    conv => lhs; rw [h2]

theorem saveRecord_mem (s : State) (b a x y : Nat) : saveRecord s b a x y = { s with mem := (saveRecord s b a x y).mem } := by
  unfold saveRecord
  dsimp only
  have h := wrLE_over s recordOffsets (fun t off => t.writeLE (a + off) 4 (recordRead s b off)) fun u x => State.writeBytes_same _ _ _
  generalize s.over recordOffsets (fun t off => t.writeLE (a + off) 4 (recordRead s b off)) = u at *
  have h1 := State.writeBytes_same u (a + 0x198) (leBytes 4 x)
  have e1 : u.writeLE (a + 0x198) 4 x = u.writeBytes (a + 0x198) (leBytes 4 x) := rfl
  rw [e1]
  generalize u.writeBytes (a + 0x198) (leBytes 4 x) = v at *
  have h2 := State.writeBytes_same v (a + 0x19C) (leBytes 4 y)
  have e2 : v.writeLE (a + 0x19C) 4 y = v.writeBytes (a + 0x19C) (leBytes 4 y) := rfl
  rw [e2]
  generalize v.writeBytes (a + 0x19C) (leBytes 4 y) = w at *
  show { w with mem := _ } = _
  have h3 := h2.trans (congrArg (fun (z : State) => { z with mem := w.mem }) (h1.trans (congrArg (fun (z : State) => { z with mem := v.mem }) h)))
  exact congrArg (fun (z : State) => { z with mem := Tbl.clearRange (a + 0x1B8) 72 w.mem }) h3

theorem toCached_only (s : State) (i : Nat) : SameButCells s (toCached s i) ∧ SameOtherCells s (toCached s i)
    [F.CPG_FRAME_STATE, F.CPG_FRAME_DIRTY, F.CPG_FRAME_VPAGE, F.CPG_FRAME_CID, I.frOwner, I.frIn, I.frOut, I.frLru, I.useSeq] ∧
    (∀ j, j ≠ i → (toCached s i).rd F.CPG_FRAME_STATE j = s.rd F.CPG_FRAME_STATE j ∧ (toCached s i).rd F.CPG_FRAME_DIRTY j = s.rd F.CPG_FRAME_DIRTY j) := by
  unfold toCached
  split
  · refine ⟨(emptyFrame_says s i).1, (emptyFrame_says s i).2.mono (by simp), fun j hj => ?_⟩
    unfold emptyFrame
    simp (disch := decide) only [State.rd_wr_cell]
    rw [State.rd_wr_inst _ _ _ _ _ (Ne.symm hj), State.rd_wr_inst _ _ _ _ _ (Ne.symm hj)]
    simp (disch := decide) only [State.rd_wr_cell]
    exact ⟨trivial, trivial⟩
  · unfold touchFrame
    refine ⟨.wr (.wr (.wr (.wr (.wr (.refl _))))), .wr (.wr (.wr (.wr (.wr (.refl _ _) (by simp)) (by simp)) (by simp)) (by simp)) (by simp), fun j hj => ?_⟩
    simp (disch := decide) only [State.rd_wr_cell, State.set_eq_wr]
    rw [State.rd_wr_inst _ _ _ _ _ (Ne.symm hj), State.rd_wr_inst _ _ _ _ _ (Ne.symm hj)]
    simp (disch := decide) only [State.rd_wr_cell]
    exact ⟨trivial, trivial⟩

/-- Frames released one after another: a dirty one awaits its write-back. -/
theorem release_over (l : List Nat) (i : Nat) : ∀ (s : State), s.rd F.CPG_FRAME_DIRTY i = 1 →
    let u := s.over l fun s i => if s.on F.CPG_FRAME_DIRTY i then (s.wr F.CPG_FRAME_STATE i fWBPEND).wr I.frOwner i 0 else toCached s i
    (i ∈ l ∨ s.rd F.CPG_FRAME_STATE i = fWBPEND → u.rd F.CPG_FRAME_STATE i = fWBPEND) ∧ u.rd F.CPG_FRAME_DIRTY i = 1 ∧ SameButCells s u ∧
      SameOtherCells s u [F.CPG_FRAME_STATE, F.CPG_FRAME_DIRTY, F.CPG_FRAME_VPAGE, F.CPG_FRAME_CID, I.frOwner, I.frIn, I.frOut, I.frLru, I.useSeq] := by
  induction l with
  | nil => intro s hd; exact ⟨fun h => h.resolve_left (by simp), hd, .refl _, .refl _ _⟩
  | cons x r ih =>
    intro s hd
    have e : s.over (x :: r) (fun s i => if s.on F.CPG_FRAME_DIRTY i then (s.wr F.CPG_FRAME_STATE i fWBPEND).wr I.frOwner i 0 else toCached s i) =
      (if s.on F.CPG_FRAME_DIRTY x then (s.wr F.CPG_FRAME_STATE x fWBPEND).wr I.frOwner x 0 else toCached s x).over r
        (fun s i => if s.on F.CPG_FRAME_DIRTY i then (s.wr F.CPG_FRAME_STATE i fWBPEND).wr I.frOwner i 0 else toCached s i) := rfl
    generalize hu : (if s.on F.CPG_FRAME_DIRTY x then (s.wr F.CPG_FRAME_STATE x fWBPEND).wr I.frOwner x 0 else toCached s x) = u at *
    have hb : SameButCells s u ∧ SameOtherCells s u [F.CPG_FRAME_STATE, F.CPG_FRAME_DIRTY, F.CPG_FRAME_VPAGE, F.CPG_FRAME_CID, I.frOwner, I.frIn, I.frOut, I.frLru, I.useSeq] := by
      rw [← hu]; split
      · exact ⟨.wr (.wr (.refl _)), .wr (.wr (.refl _ _) (by simp)) (by simp)⟩
      · exact ⟨(toCached_only s x).1, (toCached_only s x).2.1⟩
    have hud : u.rd F.CPG_FRAME_DIRTY i = 1 ∧ (i = x ∨ s.rd F.CPG_FRAME_STATE i = fWBPEND → u.rd F.CPG_FRAME_STATE i = fWBPEND) := by
      by_cases hx : i = x
      · subst hx
        rw [← hu, if_pos (by rw [State.on_eq, hd]; rfl)]
        refine ⟨by simp (disch := decide) only [State.rd_wr_cell]; exact hd, fun _ => ?_⟩
        rw [State.rd_wr_cell _ _ _ _ _ _ (by decide), State.rd_wr_same]; rfl
      · rw [← hu]; split
        · refine ⟨by simp (disch := decide) only [State.rd_wr_cell]; exact hd, fun h => ?_⟩
          rw [State.rd_wr_cell _ _ _ _ _ _ (by decide), State.rd_wr_inst _ _ _ _ _ (Ne.symm hx)]
          exact h.resolve_left hx
        · obtain ⟨-, -, q⟩ := toCached_only s x
          obtain ⟨q1, q2⟩ := q i hx
          rw [q1, q2]
          exact ⟨hd, fun h => h.resolve_left hx⟩
    obtain ⟨j1, j2, j3, j4⟩ := ih u hud.1
    dsimp only at j1 j2 j3 j4 ⊢
    rw [e]
    refine ⟨fun h => j1 ?_, j2, hb.1.trans j3, hb.2.trans j4⟩
    rcases h with h | h
    · rcases List.mem_cons.mp h with h | h
      · exact Or.inr (hud.2 (Or.inl h))
      · exact Or.inl h
    · exact Or.inr (hud.2 (Or.inr h))

theorem bankSaved_says (s : State) (c t cid i : Nat) (h2 : s.rd I.swPend c = 0) (h3 : s.rd I.cLeave c = t + 1) (h4 : s.rd I.jCv t = 1) (h5 : s.rd I.jCid t = cid)
    (h6 : stagedFrame s c t cid 0 = some i) : let u := bankSaved s c
    u.mem = (saveRecord s (2 * c + (1 - s.rd I.bank c)) (frameAddr i + 0xC00) (s.rd I.cLeaveRun c) (s.rd I.cLeaveAddr c)).mem ∧
        u.rd I.cLeave c = 0 ∧ u.rd I.obusy c = 0 ∧ u.rd F.CPG_FRAME_STATE i = fWBPEND ∧ u.rd F.CPG_FRAME_DIRTY i = 1 ∧
        u = { s with cells := u.cells, mem := u.mem } ∧
        SameOtherCells s u [I.cLeave, I.obusy, F.CPG_FRAME_STATE, F.CPG_FRAME_DIRTY, F.CPG_FRAME_VPAGE, F.CPG_FRAME_CID,
          I.frOwner, I.frIn, I.frOut, I.frLru, I.useSeq, I.mapDirty] := by
  have hr := saveRecord_mem s (2 * c + (1 - s.rd I.bank c)) (frameAddr i + 0xC00) (s.rd I.cLeaveRun c) (s.rd I.cLeaveAddr c)
  generalize hw : saveRecord s (2 * c + (1 - s.rd I.bank c)) (frameAddr i + 0xC00) (s.rd I.cLeaveRun c) (s.rd I.cLeaveAddr c) = w at *
  have hwr : ∀ g j, w.rd g j = s.rd g j := by intro g j; rw [hr]; rfl
  have hwn : ∀ g, w.nonzero g = s.nonzero g := by intro g; rw [hr]; rfl
  generalize hm : markDirty w i = m
  have hmd : m.rd F.CPG_FRAME_DIRTY i = 1 := by
    rw [← hm]; unfold markDirty; rw [State.rd_wr_cell _ _ _ _ _ _ (by decide), State.rd_wr_same]; rfl
  have hmo : SameButCells w m ∧ SameOtherCells w m [F.CPG_FRAME_DIRTY, I.mapDirty] := by
    rw [← hm]; exact ⟨.wr (.wr (.refl _)), .wr (.wr (.refl _ _) (by simp)) (by simp)⟩
  have hmn : m.nonzero F.CPG_FRAME_STATE = s.nonzero F.CPG_FRAME_STATE := by
    rw [← hm]; unfold markDirty; rw [nonzero_wr_other _ _ _ _ _ (by decide), nonzero_wr_other _ _ _ _ _ (by decide), hwn]
  have hff : framesFor m t = framesFor s t := by
    unfold framesFor frames ownedBy
    rw [hmn]
    simp only [hmo.2 I.frOwner _ (by decide), hwr]
  have hi : i ∈ framesFor m t := by
    rw [hff]
    unfold stagedFrame framesOn at h6
    have h7 := List.mem_of_find?_eq_some h6
    have h8 := List.find?_some h6
    simp only [Bool.and_eq_true] at h8
    unfold framesFor
    exact List.mem_filter.mpr ⟨(List.mem_filter.mp h7).1, h8.1.1⟩
  obtain ⟨r1, r2, r3, r4⟩ := release_over (framesFor m t) i m hmd
  have hrel : releaseFrames m t = m.over (framesFor m t) fun s i => if s.on F.CPG_FRAME_DIRTY i then (s.wr F.CPG_FRAME_STATE i fWBPEND).wr I.frOwner i 0 else toCached s i := rfl
  rw [← hrel] at r1 r2 r3 r4
  generalize hx : releaseFrames m t = x at *
  have hb : bankSaved s c = (x.wr I.cLeave c 0).wr I.obusy c 0 := by
    unfold bankSaved
    have ht : s.rd I.cLeave c - 1 = t := by omega
    rw [ht]
    dsimp only
    have hon : s.on I.jCv t = true := by rw [State.on_eq, h4]; rfl
    rw [hon, h5]
    simp only [if_true, h6]
    rw [hw, hm, hx, if_neg ?_]
    have : ((x.wr I.cLeave c 0).wr I.obusy c 0).rd I.swPend c = s.rd I.swPend c := by
      simp (disch := decide) only [State.rd_wr_cell]
      rw [r4 _ _ (by decide), hmo.2 _ _ (by decide), hwr]
    rw [State.on_eq, this, h2]; decide
  dsimp only
  rw [hb]
  have hmem : x.mem = w.mem := by
    have a := r3; have b := hmo.1
    unfold SameButCells at a b
    rw [a, b]
  refine ⟨hmem, ?_, ?_, ?_, ?_, ?_, ?_⟩
  · rw [State.rd_wr_cell _ _ _ _ _ _ (by decide), State.rd_wr_same]; rfl
  · rw [State.rd_wr_same]; rfl
  · simp (disch := decide) only [State.rd_wr_cell]; exact r1 (Or.inl hi)
  · simp (disch := decide) only [State.rd_wr_cell]; exact r2
  · have a : SameButCells w ((x.wr I.cLeave c 0).wr I.obusy c 0) := hmo.1.trans (r3.trans (.wr (.wr (.refl _))))
    unfold SameButCells at a
    generalize (x.wr I.cLeave c 0).wr I.obusy c 0 = y at *
    have : y.mem = w.mem := by rw [a]
    rw [this]
    exact a.trans (congrArg (fun (z : State) => { z with cells := y.cells }) hr)
  · have a : SameOtherCells s w [] := fun g j _ => hwr g j
    exact SameOtherCells.wr (SameOtherCells.wr ((a.mono (by simp)).trans ((hmo.2.mono (by simp)).trans (r4.mono (by simp)))) (by simp)) (by simp)

end Sys2Proof.Machine
end

