-- ==== Sys2Proof/Laws/CasePmu.lean ====
section
/-! SUPPORT.  Clocks, temperature and voltage: what the shared operations of PMU do to cells. -/

namespace Sys2Proof.Machine

open Safety

theorem on_b2n (s : State) (f : Fld) (i : Nat) (b : Bool) (h : 1 < 2 ^ f.w) : (s.wr f i (b2n b)).on f i = b := by
  rw [State.on_eq, State.rd_wr_same]
  cases b
  · simp [b2n]
  · rw [Nat.mod_eq_of_lt (by exact h)]; rfl

theorem bitOf_putBit (v k j : Nat) (b : Bool) : bitOf (putBit v k b) j = if j = k then b else bitOf v j := by
  unfold putBit
  by_cases e : j = k
  · subst e; cases b <;> simp [bitOf_setBit, bitOf_clrBit]
  · cases b <;> simp [bitOf_setBit, bitOf_clrBit, e]

theorem putBit_lt {v n k : Nat} {b : Bool} (h : v < 2 ^ n) (hk : k < n) : putBit v k b < 2 ^ n := by
  apply lt_of_bits
  intro j hj
  rw [bitOf_putBit, if_neg (by omega)]
  exact bits_of_lt h hj

theorem setThrottle_says (s : State) (k : Nat) (b : Bool) (hk : k < I.throtSrc.w) : let t := setThrottle s k b
    (∀ j, bitOf (t.rd I.throtSrc) j = if j = k then b else bitOf (s.rd I.throtSrc) j) ∧ t.on F.PMU_THERMSTAT_THROTTLING = t.on I.throtSrc ∧
      OnlyCells s t [(I.throtSrc, 0), (F.PMU_THERMSTAT_THROTTLING, 0)] := by
  have hv : (putBit (s.rd I.throtSrc) k b) % 2 ^ I.throtSrc.w = putBit (s.rd I.throtSrc) k b := Nat.mod_eq_of_lt (putBit_lt (State.rd_lt _ _ _) hk)
  have ht : setThrottle s k b = (s.wr I.throtSrc 0 (putBit (s.rd I.throtSrc) k b)).wr F.PMU_THERMSTAT_THROTTLING 0 (b2n (putBit (s.rd I.throtSrc) k b != 0)) := rfl
  dsimp only
  rw [ht]
  refine ⟨fun j => ?_, ?_, .wr (.wr (.refl _ _) (by simp)) (by simp)⟩
  · rw [State.rd_wr_cell _ _ _ _ _ _ (by decide), State.rd_wr_same, hv, bitOf_putBit]
  · rw [on_b2n _ _ _ _ (by decide), State.on_eq, State.rd_wr_cell _ _ _ _ _ _ (by decide), State.rd_wr_same, hv]

theorem bitN_lt (v k : Nat) : bitN v k < 2 := Nat.mod_lt _ (by decide)

theorem setAtMax_says (s : State) (b : Bool) : let t := setAtMax s b
    t.rd F.PMU_AVSSTAT_ATMAX = b2n b ∧ bitOf (t.rd I.throtSrc) 1 = b ∧
      OnlyCells s t [(F.PMU_AVSSTAT_ATMAX, 0), (F.PMU_IRQSTAT_ATMAX, 0), (I.throtSrc, 0), (F.PMU_THERMSTAT_THROTTLING, 0)] := by
  generalize ha : (if b && !s.on F.PMU_AVSSTAT_ATMAX then s.wr F.PMU_IRQSTAT_ATMAX 0 1 else s) = a
  have hao : OnlyCells s a [(F.PMU_IRQSTAT_ATMAX, 0)] := by
    rw [← ha]; split
    · exact .wr (.refl _ _) (by simp)
    · exact .refl _ _
  obtain ⟨e1, e2, e3⟩ := setThrottle_says (a.wr F.PMU_AVSSTAT_ATMAX 0 (b2n b)) 1 b (by decide)
  have ht : setAtMax s b = setThrottle (a.wr F.PMU_AVSSTAT_ATMAX 0 (b2n b)) 1 b := by rw [← ha]; rfl
  dsimp only
  rw [ht]
  refine ⟨?_, by rw [e1]; rfl, (hao.mono (by simp)).trans (OnlyCells.trans (.wr (.refl _ _) (by simp)) (e3.mono (by simp)))⟩
  rw [e3.2 _ _ (by simp; decide), State.rd_wr_same]
  cases b <;> rfl

theorem vdd_lt (s : State) : s.rd I.vddCode < 2 ^ 6 := State.rd_lt s I.vddCode 0

theorem setVdd_says (s : State) (x : Nat) (h : x < 2 ^ 6) : let t := setVdd s x
    t.rd I.vddCode = x ∧ t.rd F.PMU_AVSSTAT_SETCODE = x ∧ OnlyCells s t [(I.vddCode, 0), (F.PMU_AVSSTAT_SETCODE, 0)] := by
  refine ⟨?_, ?_, .wr (.wr (.refl _ _) (by simp)) (by simp)⟩
  · unfold setVdd; rw [State.set_eq_wr, State.rd_wr_cell _ _ _ _ _ _ (by decide), State.set_eq_wr, State.rd_wr_same]; exact Nat.mod_eq_of_lt h
  · unfold setVdd; rw [State.set_eq_wr, State.rd_wr_same]; exact Nat.mod_eq_of_lt h

theorem lowerVdd_says (s : State) : let t := lowerVdd s
    t.rd I.vddCode = (if s.rd F.PMU_AVSCFG_VMIN < s.rd I.vddCode then s.rd I.vddCode - 1 else s.rd I.vddCode) ∧
      OnlyCells s t [(I.vddCode, 0), (F.PMU_AVSSTAT_SETCODE, 0)] := by
  have hl := vdd_lt s
  unfold lowerVdd
  dsimp only
  split
  · obtain ⟨h1, -, h3⟩ := setVdd_says s (s.rd I.vddCode - 1) (by omega)
    exact ⟨h1, h3⟩
  · exact ⟨rfl, .refl _ _⟩

theorem avs_fabric {s : State} (h : avsActive s = true) : s.fabric = true := by
  unfold avsActive at h; simp at h; exact h.2

end Sys2Proof.Machine
end

