-- ==== Sys2Proof/Laws/CaseErr.lean ====
section
/-! SUPPORT.  Spills, reloads, errors and retries: what the shared operations of CPG leave. -/

namespace Sys2Proof.Machine

open Safety

theorem eccRecord_says (s : State) (a mem cv cid : Nat) (h : bitOf (s.rd F.MLS_ERRSEL_SEL) 3 = false) : eccRecord s a mem cv cid =
    puts s (if s.rd F.CPG_ECCREC_VALID = 0 then
        [(F.CPG_ECCREC_VALID, 0, 1), (F.CPG_ECCREC_MEM, 0, mem), (F.CPG_ECCREC_CV, 0, cv), (F.CPG_ECCREC_CID, 0, cid),
         (F.CPG_ECCADDR_LO_ADDR, 0, a / 8 * 8), (F.CPG_ECCADDR_HI_ADDR, 0, a / 8 * 8 / 2 ^ 32), (F.CPG_IRQSTAT_ECCUNC, 0, 1)]
      else [(F.CPG_ECCREC_OVF, 0, 1), (F.CPG_IRQSTAT_ECCUNC, 0, 1)]) := by
  unfold eccRecord State.errEvent
  by_cases hv : s.rd F.CPG_ECCREC_VALID = 0
  · rw [if_pos hv, State.on_eq, hv]
    simp only [Nat.reduceBNe, Bool.false_eq_true, if_false, State.set_eq_wr]
    simp (disch := decide) only [State.rd_wr_cell]
    rw [h]; rfl
  · have hon : s.on F.CPG_ECCREC_VALID = true := by rw [State.on_eq]; simpa using hv
    rw [if_neg hv, hon]
    simp only [State.set_eq_wr, if_true]
    simp (disch := decide) only [State.rd_wr_cell]
    rw [h]; rfl

theorem eccRec_cells (s : State) (a mem cv cid : Nat) (g : Fld) (hg : g.id ∉ [F.CPG_ECCREC_VALID.id, F.CPG_ECCREC_MEM.id, F.CPG_ECCREC_CV.id, F.CPG_ECCREC_CID.id,
      F.CPG_ECCADDR_LO_ADDR.id, F.CPG_ECCADDR_HI_ADDR.id, F.CPG_IRQSTAT_ECCUNC.id, F.CPG_ECCREC_OVF.id]) :
    ∀ p ∈ (if s.rd F.CPG_ECCREC_VALID = 0 then
        [(F.CPG_ECCREC_VALID, 0, 1), (F.CPG_ECCREC_MEM, 0, mem), (F.CPG_ECCREC_CV, 0, cv), (F.CPG_ECCREC_CID, 0, cid),
         (F.CPG_ECCADDR_LO_ADDR, 0, a / 8 * 8), (F.CPG_ECCADDR_HI_ADDR, 0, a / 8 * 8 / 2 ^ 32), (F.CPG_IRQSTAT_ECCUNC, 0, 1)]
      else [(F.CPG_ECCREC_OVF, 0, 1), (F.CPG_IRQSTAT_ECCUNC, 0, 1)]), p.1.id ≠ g.id := by
  intro p hp he
  apply hg
  rw [← he]
  split at hp
  · simp only [List.mem_cons, List.not_mem_nil, or_false] at hp ⊢
    rcases hp with rfl | rfl | rfl | rfl | rfl | rfl | rfl <;> simp
  · simp only [List.mem_cons, List.not_mem_nil, or_false] at hp ⊢
    rcases hp with rfl | rfl <;> simp

theorem nonzero_puts (s : State) (l : List (Fld × Nat × Nat)) (g : Fld) (h : ∀ p ∈ l, p.1.id ≠ g.id) : (puts s l).nonzero g = s.nonzero g := by
  unfold Safety.puts
  induction l generalizing s with
  | nil => rfl
  | cons p r ih =>
    rw [List.foldl_cons, ih _ (fun q hq => h q (by simp [hq])), nonzero_wr_other _ _ _ _ _ (h p (by simp))]

theorem commandsGoOn_calm (s : State) (cid : Nat) (h1 : s.rd F.CHW_CTX_CMD_SPILL cid = 0) (h2 : s.rd F.CHW_CTX_CMD_LOAD cid = 0)
    (h3 : s.rd F.CHW_CTX_CMD_RELEASE cid = 0) (h4 : s.nonzero F.CHW_CTX_CMD_ALLOC = []) : commandsGoOn s cid = s := by
  have e1 : s.on F.CHW_CTX_CMD_SPILL cid = false := by rw [State.on_eq, h1]; rfl
  have e2 : s.on F.CHW_CTX_CMD_LOAD cid = false := by rw [State.on_eq, h2]; rfl
  have e3 : s.on F.CHW_CTX_CMD_RELEASE cid = false := by rw [State.on_eq, h3]; rfl
  unfold commandsGoOn
  simp only [e1, Bool.false_and, Bool.false_eq_true, if_false, e2, e3, h4]
  rfl

theorem coldest_spillRun (s : State) (x : Option Nat) : coldest (s.wr I.spillRun 0 1) x = coldest s x := by
  have r1 : ∀ g j, I.spillRun.id ≠ g.id → (s.wr I.spillRun 0 1).rd g j = s.rd g j := fun g j h => State.rd_wr_cell _ _ _ _ _ _ h
  have r2 : ∀ g, I.spillRun.id ≠ g.id → (s.wr I.spillRun 0 1).nonzero g = s.nonzero g := fun g h => nonzero_wr_other _ _ _ _ _ h
  generalize s.wr I.spillRun 0 1 = u at *
  unfold coldest contexts coldEligible atLevel pinned heldByJob tasks frames jobInProgress taskSt holds frSt lvl ctxState
  simp (disch := decide) only [State.on_eq, r1, r2]
  rfl

theorem puts_freeCtr (s : State) (c : Nat) (l : List (Fld × Nat × Nat)) : puts { s with freeCtr := c } l = { puts s l with freeCtr := c } := by
  unfold Safety.puts
  induction l generalizing s with
  | nil => rfl
  | cons p r ih => exact ih (s.wr p.1 p.2.1 p.2.2)

theorem quarantine_plain (u : State) (cid : Nat) (h1 : frames u = []) (h2 : tasks u = []) (h3 : ∀ n, n < 32 → dmaActive u n = false)
    (h4 : u.rd F.CPG_QUARREC_VALID = 0) (h5 : bitOf (u.rd F.MLS_ERRSEL_SEL) 4 = false) : quarantine u cid =
    puts u [(F.CHW_CTX_STAT_STATE, cid, cQUAR), (F.CPG_QUARREC_VALID, 0, 1), (F.CPG_QUARREC_CID, 0, cid), (F.CPG_IRQSTAT_QUAR, 0, 1)] := by
  have hr : ∀ g j, F.CHW_CTX_STAT_STATE.id ≠ g.id → (u.wr F.CHW_CTX_STAT_STATE cid cQUAR).rd g j = u.rd g j := fun g j h => State.rd_wr_cell _ _ _ _ _ _ h
  have hn : ∀ g, F.CHW_CTX_STAT_STATE.id ≠ g.id → (u.wr F.CHW_CTX_STAT_STATE cid cQUAR).nonzero g = u.nonzero g := fun g h => nonzero_wr_other _ _ _ _ _ h
  rw [puts_cons]
  unfold quarantine
  generalize u.wr F.CHW_CTX_STAT_STATE cid cQUAR = v at *
  have hd : discardContext v cid = v := by
    unfold discardContext
    have : frames v = [] := by rw [← h1]; unfold frames; rw [hn _ (by decide)]
    rw [this]; rfl
  have ht : tasksOn v cid = [] := by
    unfold tasksOn
    have : tasks v = [] := by rw [← h2]; unfold tasks; rw [hn _ (by decide)]
    rw [this]; rfl
  have hv : v.on F.CPG_QUARREC_VALID = false := by rw [State.on_eq, hr _ _ (by decide), h4]; rfl
  have e0 : v.over ([] : List Nat) (fun s t => cancelTask s t false) = v := rfl
  dsimp only
  rw [hd, ht, e0, if_neg (by rw [hv]; decide)]
  have he : ((((v.set F.CPG_QUARREC_VALID 1).set F.CPG_QUARREC_CID cid).set F.CPG_IRQSTAT_QUAR 1).errEvent 4) =
      puts v [(F.CPG_QUARREC_VALID, 0, 1), (F.CPG_QUARREC_CID, 0, cid), (F.CPG_IRQSTAT_QUAR, 0, 1)] := by
    unfold State.errEvent
    rw [if_neg (by
      simp (disch := decide) only [State.rd_wr_cell, State.set_eq_wr]
      rw [hr _ _ (by decide), h5]; decide)]
    rfl
  rw [he]
  have hd2 : (List.range 32).filter (fun n => dmaOn (puts v [(F.CPG_QUARREC_VALID, 0, 1), (F.CPG_QUARREC_CID, 0, cid), (F.CPG_IRQSTAT_QUAR, 0, 1)]) n cid) = [] := by
    rw [List.filter_eq_nil_iff]
    intro n hn2
    have := h3 n (by simpa using hn2)
    unfold dmaOn dmaActive at *
    rw [puts_cell _ _ F.DMA_C_STAT_STATE _ (by simp; decide), hr _ _ (by decide), this]
    simp
  rw [hd2]
  rfl

theorem bumpBy_only (s : State) (f g : Fld) (i n : Nat) : SameOtherCells s (s.bumpBy f i (some g) n) [f, g] ∧ SameButCells s (s.bumpBy f i (some g) n) := by
  unfold State.bumpBy
  dsimp only
  split
  · exact ⟨.wr (.wr (.refl _ _) (by simp)) (by simp), .wr (.wr (.refl _))⟩
  · split
    · exact ⟨.wr (.refl _ _) (by simp), .wr (.refl _)⟩
    · exact ⟨.refl _ _, .refl _⟩

theorem cpgCount_only (s : State) (f : Fld) (n : Nat) : SameOtherCells s (cpgCount s f n) [f, F.CPG_IRQSTAT_CNTOVF] ∧ SameButCells s (cpgCount s f n) :=
  bumpBy_only s f _ 0 n

/-- A job returns to the head of its level while TSU does not run. -/
theorem reenter_head (x : State) (k : Nat) (hrun : x.rd F.TSU_CTRL_RUN = 0) : reenterReady x k true =
    puts x [(F.TSU_T_STAT_STATE, k, tREADY), (F.TSU_T_STAT_RESUME, k, 1), (F.TSU_T_STAT_CVALID, k, 0), (I.tLvl, k, x.rd F.TSU_T_CFG_LEVEL k),
      (I.tPos, k, x.rd I.ordHead), (I.ordHead, 0, x.rd I.ordHead - 1)] := by
  unfold reenterReady placeHead
  simp only [if_true]
  unfold preemptChoose eligible
  rw [if_neg (by
    simp only [State.set_eq_wr, State.on_eq]
    simp (disch := decide) only [State.rd_wr_cell]
    rw [hrun]; simp)]
  simp only [State.set_eq_wr]
  simp (disch := decide) only [State.rd_wr_cell]
  rfl

/-- The first parity error of a running job: the job is retried. -/
theorem frameParity_says (s : State) (c t i : Nat) (hq : bitOf (s.rd F.MLS_ERRSEL_SEL) 5 = false) (hj : s.rd I.cJob c = t + 1) (hc : s.rd I.jCancel t = 0)
    (hr : s.rd I.jRetry t = 0) (hrun : s.rd F.TSU_CTRL_RUN = 0) : let u := frameParity s c i
    u.rd F.CPG_IRQSTAT_PARITY = 1 ∧ u.rd F.CPG_IRQSTAT_RETIRE = 1 ∧ u.rd I.frBad i = 1 ∧ u.rd I.cJob c = 0 ∧
        u.rd I.waiting c = 1 ∧ u.rd F.TSU_T_STAT_STATE t = tREADY ∧ u.rd F.TSU_T_STAT_RESUME t = 1 ∧ u.rd I.jRetry t = 1 ∧
        u.rd I.tPos t = s.rd I.ordHead ∧ inFlight u (rbank s c) = [] ∧ bundleOf u c = Bundle.empty ∧
        SameOtherCells s u [F.CPG_PARCNT_COUNT, F.CPG_IRQSTAT_CNTOVF, F.CPG_IRQSTAT_PARITY, F.CPG_IRQSTAT_RETIRE, I.frBad,
          F.CPG_FRAME_STATE, F.CPG_FRAME_DIRTY, F.CPG_FRAME_VPAGE, F.CPG_FRAME_CID, I.frOwner, I.frIn, I.frOut, I.cJob, I.waiting,
          I.qstall, I.swPend, I.bankJob, I.stSet, I.stCore, I.jRetry, F.TSU_T_STAT_CVALID, F.TSU_T_STAT_STATE, F.TSU_T_STAT_RESUME,
          I.tLvl, I.tPos, I.ordHead] := by
  have p1 : SameOtherCells s (parityError s) [F.CPG_PARCNT_COUNT, F.CPG_IRQSTAT_CNTOVF, F.CPG_IRQSTAT_PARITY] ∧ (parityError s).rd F.CPG_IRQSTAT_PARITY = 1 ∧
      SameButCells s (parityError s) := by
    have hb := cpgCount_only s F.CPG_PARCNT_COUNT 1
    unfold parityError State.errEvent
    rw [if_neg (by
      rw [State.set_eq_wr, State.rd_wr_cell _ _ _ _ _ _ (by decide), hb.1 _ _ (by decide), hq]; decide)]
    exact ⟨(hb.1.mono (by simp)).wr (by simp), by rw [State.set_eq_wr, State.rd_wr_same]; rfl, hb.2.wr⟩
  generalize hp : parityError s = p at *
  have r1 : SameOtherCells p (retireFrame p i) [F.CPG_FRAME_STATE, F.CPG_FRAME_DIRTY, F.CPG_FRAME_VPAGE, F.CPG_FRAME_CID, I.frOwner, I.frIn, I.frOut, I.frBad, F.CPG_IRQSTAT_RETIRE] ∧
      SameButCells p (retireFrame p i) ∧ (retireFrame p i).rd I.frBad i = 1 ∧ (retireFrame p i).rd F.CPG_IRQSTAT_RETIRE = 1 := by
    unfold retireFrame
    refine ⟨.wr (.wr ((emptyFrame_says p i).2.mono (by simp)) (by simp)) (by simp), .wr (.wr (emptyFrame_says p i).1), ?_, ?_⟩
    · rw [State.set_eq_wr, State.rd_wr_cell _ _ _ _ _ _ (by decide), State.rd_wr_same]; rfl
    · rw [State.set_eq_wr, State.rd_wr_same]; rfl
  generalize hr1 : retireFrame p i = r at *
  have dsc : ∀ (x : State), SameOtherCells x (discardFrames x t) [F.CPG_FRAME_STATE, F.CPG_FRAME_DIRTY, F.CPG_FRAME_VPAGE, F.CPG_FRAME_CID, I.frOwner, I.frIn, I.frOut] ∧
      SameButCells x (discardFrames x t) := by
    intro x
    unfold discardFrames
    exact ⟨SameOtherCells.over (.refl x _) _ _ fun u k => (emptyFrame_says u k).2, SameButCells.over (.refl x) _ _ fun u k => (emptyFrame_says u k).1⟩
  have d1 := dsc r
  generalize hd : discardFrames r t = d at *
  have hdo : SameOtherCells s d [F.CPG_PARCNT_COUNT, F.CPG_IRQSTAT_CNTOVF, F.CPG_IRQSTAT_PARITY, F.CPG_IRQSTAT_RETIRE, I.frBad,
          F.CPG_FRAME_STATE, F.CPG_FRAME_DIRTY, F.CPG_FRAME_VPAGE, F.CPG_FRAME_CID, I.frOwner, I.frIn, I.frOut] :=
    (p1.1.mono (by simp)).trans ((r1.1.mono (by simp)).trans (d1.1.mono (by simp)))
  have hdb : SameButCells s d := p1.2.2.trans (r1.2.1.trans d1.2)
  have hbank : rbank d c = rbank s c := by unfold rbank; rw [hdo _ _ (by decide)]
  -- the core is free
  have f0 := freeCore_eq d c
  rw [hbank] at f0
  generalize hf : freeCore d c = f at *
  have fo : SameOtherCells d f [I.cJob, I.waiting, I.qstall, I.swPend, I.bankJob] := by
    rw [f0]
    have z : SameOtherCells d ({ d with bundles := Tbl.drop c d.bundles, landings := Tbl.drop (rbank s c) d.landings, macShadow := Tbl.drop (rbank s c) d.macShadow } : State) [] := fun g j _ => rfl
    exact .wr (.wr (.wr (.wr (.wr (z.mono (by simp)) (by simp)) (by simp)) (by simp)) (by simp)) (by simp)
  have f1 : f.rd I.cJob c = 0 := by rw [f0]; simp (disch := decide) only [State.rd_wr_cell, State.rd_wr_same]; rfl
  have f2 : f.rd I.waiting c = 1 := by rw [f0]; simp (disch := decide) only [State.rd_wr_cell, State.rd_wr_same]; rfl
  have f3 : f.landings = Tbl.drop (rbank s c) d.landings ∧ f.bundles = Tbl.drop c d.bundles := by rw [f0]; exact ⟨rfl, rfl⟩
  -- its items and frames are discarded
  have g0 : SameOtherCells f (discardPartial f (t + 1)) [] ∧ (discardPartial f (t + 1)).landings = f.landings ∧ (discardPartial f (t + 1)).bundles = f.bundles := by
    unfold discardPartial
    refine ⟨SameOtherCells.over (.refl f _) _ _ fun u q => fun g j _ => rfl, ?_, ?_⟩
    · exact State.over_keeps (fun s => s.landings) f _ _ fun _ _ => rfl
    · exact State.over_keeps (fun s => s.bundles) f _ _ fun _ _ => rfl
  generalize hg : discardPartial f (t + 1) = g at *
  have h0 := dsc g
  generalize hh : discardFrames g t = h at *
  have hlb : h.landings = g.landings ∧ h.bundles = g.bundles := by
    have := h0.2; unfold SameButCells at this; rw [this]; exact ⟨rfl, rfl⟩
  have hho : SameOtherCells s h [F.CPG_PARCNT_COUNT, F.CPG_IRQSTAT_CNTOVF, F.CPG_IRQSTAT_PARITY, F.CPG_IRQSTAT_RETIRE, I.frBad,
          F.CPG_FRAME_STATE, F.CPG_FRAME_DIRTY, F.CPG_FRAME_VPAGE, F.CPG_FRAME_CID, I.frOwner, I.frIn, I.frOut, I.cJob, I.waiting, I.qstall, I.swPend, I.bankJob] :=
    (hdo.mono (by simp)).trans ((fo.mono (by simp)).trans ((g0.1.mono (by simp)).trans (h0.1.mono (by simp))))
  have hfin : frameParity s c i = reenterReady ((((h.wr I.stSet t 0).wr I.stCore t 0).wr I.jRetry t 1).wr F.TSU_T_STAT_CVALID t 0) t true := by
    unfold frameParity
    have ht : s.rd I.cJob c - 1 = t := by omega
    dsimp only
    rw [ht, hp, hr1, hd]
    rw [if_neg (by rw [State.on_eq, hdo _ _ (by decide), hc]; decide), if_pos (by rw [State.on_eq, hdo _ _ (by decide), hr]; rfl)]
    unfold retryJob noSet
    rw [hf, hg, hh]
  have hrr := reenter_head ((((h.wr I.stSet t 0).wr I.stCore t 0).wr I.jRetry t 1).wr F.TSU_T_STAT_CVALID t 0) t (by
    simp (disch := decide) only [State.rd_wr_cell]; rw [hho _ _ (by decide), hrun])
  rw [hrr] at hfin
  have hoh : ((((h.wr I.stSet t 0).wr I.stCore t 0).wr I.jRetry t 1).wr F.TSU_T_STAT_CVALID t 0).rd I.ordHead = s.rd I.ordHead := by
    simp (disch := decide) only [State.rd_wr_cell]; exact hho _ _ (by decide)
  rw [hoh] at hfin
  generalize ((((h.wr I.stSet t 0).wr I.stCore t 0).wr I.jRetry t 1).wr F.TSU_T_STAT_CVALID t 0).rd F.TSU_T_CFG_LEVEL t = lv at *
  dsimp only
  rw [hfin]
  simp only [puts_cons, puts_nil]
  have bk : ∀ g, F.CPG_IRQSTAT_PARITY.id = g.id ∨ F.CPG_IRQSTAT_RETIRE.id = g.id ∨ I.frBad.id = g.id → ∀ j, h.rd g j = r.rd g j := by
    intro g' hg' j
    rw [h0.1 _ _ (by rcases hg' with e | e | e <;> rw [← e] <;> decide), g0.1 _ _ (by simp), fo _ _ (by rcases hg' with e | e | e <;> rw [← e] <;> decide), d1.1 _ _ (by rcases hg' with e | e | e <;> rw [← e] <;> decide)]
  refine ⟨?_, ?_, ?_, ?_, ?_, ?_, ?_, ?_, ?_, ?_, ?_, ?_⟩
  · simp (disch := decide) only [State.rd_wr_cell]; rw [bk _ (Or.inl rfl), r1.1 _ _ (by decide)]; exact p1.2.1
  · simp (disch := decide) only [State.rd_wr_cell]; rw [bk _ (Or.inr (Or.inl rfl))]; exact r1.2.2.2
  · simp (disch := decide) only [State.rd_wr_cell]; rw [bk _ (Or.inr (Or.inr rfl))]; exact r1.2.2.1
  · simp (disch := decide) only [State.rd_wr_cell]; rw [h0.1 _ _ (by decide), g0.1 _ _ (by simp)]; exact f1
  · simp (disch := decide) only [State.rd_wr_cell]; rw [h0.1 _ _ (by decide), g0.1 _ _ (by simp)]; exact f2
  · simp (disch := decide) only [State.rd_wr_cell, State.rd_wr_same]; rfl
  · simp (disch := decide) only [State.rd_wr_cell, State.rd_wr_same]; rfl
  · simp (disch := decide) only [State.rd_wr_cell, State.rd_wr_same]; rfl
  · simp (disch := decide) only [State.rd_wr_cell, State.rd_wr_same]; exact Nat.mod_eq_of_lt (State.rd_lt s I.ordHead 0)
  · unfold inFlight
    simp only [State.wr_landings]
    rw [hlb.1, g0.2.1, f3.1, Tbl.get_drop, if_pos rfl]
  · unfold bundleOf
    simp only [State.wr_bundles]
    rw [hlb.2, g0.2.2, f3.2, Tbl.get_drop, if_pos rfl]
  · exact .wr (.wr (.wr (.wr (.wr (.wr (.wr (.wr (.wr (.wr (hho.mono (by simp)) (by simp)) (by simp)) (by simp)) (by simp)) (by simp)) (by simp)) (by simp)) (by simp)) (by simp)) (by simp)

end Sys2Proof.Machine
end

