-- ==== Sys2Proof/Laws/CaseTask.lean ====
section
/-! SUPPORT.  Tasks, budgets and the trace ring: what the shared operations of TSU leave. -/

namespace Sys2Proof.Machine

open Safety

theorem winWrite_at (s : State) (ini : Init) (k t off v : Nat) (h1 : s.fabric = true) (h2 : selCopy ini = some k) (h3 : s.rd F.TSU_SELECT_INDEX k = t)
    (h4 : t < 65536) : tsuWinWrite s ini off v = taskWinWrite s t off v := by
  unfold tsuWinWrite selIx
  rw [h2]
  dsimp only
  rw [h3, if_pos h1, if_pos h4]

theorem on_of {s : State} {f : Fld} {i : Nat} (n : Nat) (h : s.rd f i = n) : s.on f i = (n != 0) := by rw [State.on_eq, h]

theorem condition_of_zero {s : State} {t : Nat} (h : Nat.land (s.rd F.TSU_T_FLAGS_FLAGS t) (s.rd F.TSU_T_MASK_MASK t) = 0) (h2 : s.rd F.TSU_T_CFG_ALL t = 0) :
    condition s t = false := by
  unfold condition
  simp only [h]
  rw [on_of 0 h2]; rfl

theorem backToWait_other {s : State} {t : Nat} (h : taskSt s t ≠ tREADY) : backToWait s t = s := by
  unfold backToWait
  rw [if_neg (by simp [h])]

theorem recheck_other {s : State} {t : Nat} (h : taskSt s t ≠ tREADY) : recheck s t = s := by
  unfold recheck
  split
  · rfl
  · exact backToWait_other h

theorem backToWait_ready {s : State} {t : Nat} (h : taskSt s t = tREADY) (h2 : s.rd F.TSU_T_STAT_RESUME t = 0) : backToWait s t =
    puts s [(F.TSU_T_STAT_STATE, t, tWAIT), (F.TSU_T_STAT_URGENT, t, 0)] := by
  unfold backToWait
  rw [if_pos (by rw [h, on_of 0 h2]; rfl)]; rfl

theorem trace_silent (s : State) (ev t aux : Nat) (core : Option Nat) (h : s.rd F.TSU_TRCCFG_EN = 0) : trace s ev t core aux = s := by
  unfold trace traced
  rw [on_of 0 h]; rfl

/-- Numbers of n bits with the same bits are equal. -/
theorem eq_of_bits {a b n : Nat} (ha : a < 2 ^ n) (hb : b < 2 ^ n) (h : ∀ k, k < n → bitOf a k = bitOf b k) : a = b := by
  apply Nat.eq_of_testBit_eq
  intro k
  by_cases hk : k < n
  · have := h k hk
    unfold bitOf at this
    rw [Nat.testBit_eq_decide_div_mod_eq, Nat.testBit_eq_decide_div_mod_eq]
    exact this
  · rw [Nat.testBit_lt_two_pow (Nat.lt_of_lt_of_le ha (Nat.pow_le_pow_right (by omega) (by omega))),
      Nat.testBit_lt_two_pow (Nat.lt_of_lt_of_le hb (Nat.pow_le_pow_right (by omega) (by omega)))]

/-- One budget window (R198). -/
theorem windowBudget_says (s : State) (b : Nat) : windowBudget s b = (s.wr F.TSU_LVLSTAT_USED b (s.rd F.TSU_LVLSTAT_USED b - s.rd F.TSU_LVLCFG_CAP b * 1024)).wr
    F.TSU_LVLSTAT_HELD b (if 0 < s.rd F.TSU_LVLCFG_CAP b * 1024 ∧ s.rd F.TSU_LVLCFG_CAP b * 1024 ≤ s.rd F.TSU_LVLSTAT_USED b - s.rd F.TSU_LVLCFG_CAP b * 1024 then 1 else 0) := by
  unfold windowBudget
  dsimp only
  have hu := s.rd_lt F.TSU_LVLSTAT_USED b
  have e : (s.rd F.TSU_LVLSTAT_USED b - s.rd F.TSU_LVLCFG_CAP b * 1024) % 2 ^ F.TSU_LVLSTAT_USED.w = s.rd F.TSU_LVLSTAT_USED b - s.rd F.TSU_LVLCFG_CAP b * 1024 :=
    Nat.mod_eq_of_lt (Nat.lt_of_le_of_lt (Nat.sub_le _ _) hu)
  congr 1
  unfold budgetHeld
  rw [State.on_eq, State.rd_wr_same, State.rd_wr_cell _ _ _ _ _ _ (by decide), e]
  generalize s.rd F.TSU_LVLCFG_CAP b = x
  by_cases h : x = 0
  · subst h; simp [b2n]
  · have : 0 < x * 1024 := by omega
    by_cases h2 : x * 1024 ≤ s.rd F.TSU_LVLSTAT_USED b - x * 1024 <;> simp [b2n, h, this, h2]

theorem windows_says (s : State) (n : Nat) : let u := s.over (List.range n) windowBudget
    (∀ b, u.rd F.TSU_LVLSTAT_USED b = if b < n then s.rd F.TSU_LVLSTAT_USED b - s.rd F.TSU_LVLCFG_CAP b * 1024 else s.rd F.TSU_LVLSTAT_USED b) ∧
    (∀ b, b < n → u.rd F.TSU_LVLSTAT_HELD b = if 0 < s.rd F.TSU_LVLCFG_CAP b * 1024 ∧
      s.rd F.TSU_LVLCFG_CAP b * 1024 ≤ s.rd F.TSU_LVLSTAT_USED b - s.rd F.TSU_LVLCFG_CAP b * 1024 then 1 else 0) ∧
    OnlyCells s u ((List.range n).flatMap fun b => [(F.TSU_LVLSTAT_USED, b), (F.TSU_LVLSTAT_HELD, b)]) := by
  induction n with
  | zero => exact ⟨fun b => by simp [State.over], fun b h => absurd h (by omega), OnlyCells.refl _ _⟩
  | succ n ih =>
    dsimp only at ih ⊢
    have hs : s.over (List.range (n + 1)) windowBudget = windowBudget (s.over (List.range n) windowBudget) n := by
      unfold State.over; rw [List.range_succ, List.foldl_append]; rfl
    rw [hs, windowBudget_says]
    generalize s.over (List.range n) windowBudget = u at *
    obtain ⟨i1, i2, i3⟩ := ih
    have hc : ∀ b, u.rd F.TSU_LVLCFG_CAP b = s.rd F.TSU_LVLCFG_CAP b := fun b => i3.2 _ _ (by
      intro p hp he
      obtain ⟨x, -, hx⟩ := List.mem_flatMap.mp hp
      simp only [List.mem_cons, List.not_mem_nil, or_false] at hx
      rcases hx with rfl | rfl <;> exact absurd he (by dsimp only; decide))
    have hn := i1 n
    rw [if_neg (by omega)] at hn
    rw [hn, hc]
    have hu := s.rd_lt F.TSU_LVLSTAT_USED n
    refine ⟨fun b => ?_, fun b hb => ?_, ?_⟩
    · rw [State.rd_wr_cell _ _ _ _ _ _ (by decide), State.rd_wr, i1]
      by_cases h : n = b
      · subst h
        rw [if_pos rfl, if_pos (by omega)]
        exact Nat.mod_eq_of_lt (Nat.lt_of_le_of_lt (Nat.sub_le _ _) hu)
      · rw [if_neg h]
        by_cases h2 : b < n
        · rw [if_pos h2, if_pos (by omega)]
        · rw [if_neg h2, if_neg (by omega)]
    · rw [State.rd_wr]
      by_cases h : n = b
      · subst h
        rw [if_pos rfl]
        split <;> rfl
      · rw [if_neg h, State.rd_wr_cell _ _ _ _ _ _ (by decide)]
        exact i2 b (by omega)
    · refine .wr (.wr (i3.mono ?_) ?_) ?_
      · intro p hp
        rw [List.range_succ, List.flatMap_append]
        exact List.mem_append_left _ hp
      · rw [List.range_succ, List.flatMap_append]; exact List.mem_append_right _ (by simp)
      · rw [List.range_succ, List.flatMap_append]; exact List.mem_append_right _ (by simp)

/-- A core enabled or disabled while nothing is committed or reserved (R210). -/
theorem setCoreEn_says (s : State) (c : Nat) (en : Bool) (h1 : s.nonzero I.tResv = []) (h2 : s.rd I.cNext c = 0) : setCoreEn s c en =
    if c < 32 then s.wr F.TSU_COREEN_LO_EN 0 (putBit (s.rd F.TSU_COREEN_LO_EN) c en)
    else s.wr F.TSU_COREEN_HI_EN 0 (putBit (s.rd F.TSU_COREEN_HI_EN) (c - 32) en) := by
  unfold setCoreEn
  have hr : reservedOn s c = [] := by unfold reservedOn; rw [h1]; rfl
  have hover : ∀ u : State, u.over ([] : List Nat) loseResv = u := fun _ => rfl
  rw [hr]
  dsimp only
  simp only [hover, State.set_eq_wr]
  split
  · rfl
  · have : (if c < 32 then s.wr F.TSU_COREEN_LO_EN 0 (putBit (s.rd F.TSU_COREEN_LO_EN) c en)
        else s.wr F.TSU_COREEN_HI_EN 0 (putBit (s.rd F.TSU_COREEN_HI_EN) (c - 32) en)).on I.cNext c = false := by
      split <;> rw [on_of 0 (by rw [State.rd_wr_cell _ _ _ _ _ _ (by decide)]; exact h2)] <;> rfl
    rw [this]; rfl

theorem coreens_says (s : State) (lo : Bool) (f : Fld) (hf : f = if lo then F.TSU_COREEN_LO_EN else F.TSU_COREEN_HI_EN) (v : Nat)
    (h1 : s.nonzero I.tResv = []) (h2 : ∀ c, c < 64 → s.rd I.cNext c = 0) (n : Nat) (hn : n ≤ 32) :
    let u := s.over (List.range n) fun s k => setCoreEn s (k + 32 * b2n !lo) (bitOf v k)
    (∀ k, k < 32 → bitOf (u.rd f) k = if k < n then bitOf v k else bitOf (s.rd f) k) ∧ OnlyCells s u [(f, 0)] ∧ u.nonzero I.tResv = [] := by
  induction n with
  | zero => exact ⟨fun k _ => by simp [State.over], OnlyCells.refl _ _, h1⟩
  | succ n ih =>
    dsimp only at ih ⊢
    have hs : s.over (List.range (n + 1)) (fun s k => setCoreEn s (k + 32 * b2n !lo) (bitOf v k)) =
        setCoreEn (s.over (List.range n) fun s k => setCoreEn s (k + 32 * b2n !lo) (bitOf v k)) (n + 32 * b2n !lo) (bitOf v n) := by
      unfold State.over; rw [List.range_succ, List.foldl_append]; rfl
    rw [hs]
    generalize (s.over (List.range n) fun s k => setCoreEn s (k + 32 * b2n !lo) (bitOf v k)) = u at *
    obtain ⟨i1, i2, i3⟩ := ih (by omega)
    have hw : f.w = 32 := by rw [hf]; cases lo <;> rfl
    have hid : f.id ≠ I.cNext.id ∧ f.id ≠ I.tResv.id := by rw [hf]; cases lo <;> decide
    have hc : u.rd I.cNext (n + 32 * b2n !lo) = 0 := by
      rw [i2.2 _ _ (by intro p hp he; simp only [List.mem_cons, List.not_mem_nil, or_false] at hp; subst hp; exact absurd he hid.1)]
      exact h2 _ (by cases lo <;> simp [b2n] <;> omega)
    rw [setCoreEn_says _ _ _ i3 hc]
    have he : (if n + 32 * b2n (!lo) < 32 then u.wr F.TSU_COREEN_LO_EN 0 (putBit (u.rd F.TSU_COREEN_LO_EN) (n + 32 * b2n !lo) (bitOf v n))
        else u.wr F.TSU_COREEN_HI_EN 0 (putBit (u.rd F.TSU_COREEN_HI_EN) (n + 32 * b2n (!lo) - 32) (bitOf v n))) =
        u.wr f 0 (putBit (u.rd f) n (bitOf v n)) := by
      cases lo
      · have : n + 32 * b2n (!false) = n + 32 := rfl
        rw [this, if_neg (by omega), hf, Nat.add_sub_cancel]; rfl
      · have : n + 32 * b2n (!true) = n := rfl
        rw [this, if_pos (by omega), hf]; rfl
    rw [he]
    have hlt : putBit (u.rd f) n (bitOf v n) < 2 ^ 32 := putBit_lt (by have := u.rd_lt f 0; rw [hw] at this; exact this) (by omega)
    refine ⟨fun k hk => ?_, .wr i2 (by simp), ?_⟩
    · rw [State.rd_wr_same, hw, Nat.mod_eq_of_lt hlt, bitOf_putBit]
      by_cases h : k = n
      · rw [if_pos h, if_pos (by omega), h]
      · rw [if_neg h, i1 k hk]
        by_cases h' : k < n
        · rw [if_pos h', if_pos (by omega)]
        · rw [if_neg h', if_neg (by omega)]
    · rw [nonzero_wr_other _ _ _ _ _ hid.2]; exact i3

end Sys2Proof.Machine
end

