-- ==== Sys2Proof/Laws/CasePort.lean ====
section
/-! SUPPORT.  Lemmas about bits written in registers, ports and what is queued for them. -/

namespace Sys2Proof.Machine

open Safety

theorem bits_add_high (v hi lo k : Nat) (h : hi < k) (hl : lo ≤ hi) : bits (v + 2 ^ k) hi lo = bits v hi lo := by
  unfold bits
  have e : 2 ^ k = 2 ^ (k - (hi + 1)) * 2 ^ (hi + 1 - lo) * 2 ^ lo := by rw [← Nat.pow_add, ← Nat.pow_add]; congr 1; omega
  rw [e, Nat.add_mul_div_right _ _ (Nat.two_pow_pos _), Nat.add_mul_mod_self_right]

theorem bits_setBit (v hi lo k : Nat) (h : hi < k) (hl : lo ≤ hi) : bits (setBit v k) hi lo = bits v hi lo := by
  unfold setBit
  by_cases hb : bitOf v k = true
  · rw [if_pos hb]
  · rw [if_neg hb, bits_add_high _ _ _ _ h hl]

theorem bits_clrBit (v hi lo k : Nat) (h : hi < k) (hl : lo ≤ hi) : bits (clrBit v k) hi lo = bits v hi lo := by
  unfold clrBit
  by_cases hb : bitOf v k = true
  · rw [if_pos hb]
    have hv : 2 ^ k ≤ v := by
      rcases Nat.lt_or_ge v (2 ^ k) with hv | hv
      · rw [bitOf, Nat.div_eq_of_lt hv] at hb; simp at hb
      · exact hv
    have := bits_add_high (v - 2 ^ k) hi lo k h hl
    rw [Nat.sub_add_cancel hv] at this
    exact this.symm
  · rw [if_neg hb]

theorem bitN_bits (v k : Nat) : bitN v k = bits v k k := by
  unfold bitN bits
  rw [show k + 1 - k = 1 by omega, Nat.pow_one]

theorem bitN_of (v k : Nat) : bitN v k = b2n (bitOf v k) := by
  unfold bitN bitOf
  rcases Nat.mod_two_eq_zero_or_one (v / 2 ^ k) with h | h <;> rw [h] <;> rfl

/-- The cells that a write of PKE_P_CFG stores. -/
def portCells (p v en : Nat) : List (Fld × Nat × Nat) :=
  (if bits v 30 28 ≤ 4 then [(F.PKE_P_CFG_MODE, p, bits v 30 28)] else []) ++ (if bits v 27 26 ≤ 2 then [(F.PKE_P_CFG_FEC, p, bits v 27 26)] else []) ++
      [(F.PKE_P_CFG_EN, p, en), (F.PKE_P_CFG_AN, p, bitN v 25), (F.PKE_P_CFG_MCAST, p, bitN v 24), (F.PKE_P_CFG_RQ, p, bits v 23 20),
       (F.PKE_P_CFG_PTPQ, p, bits v 19 16), (F.PKE_P_CFG_MAXFRM, p, bits v 11 0)]

theorem portCfg_plain (s : State) (p v : Nat) (en : Bool) (hv : bitOf v 31 = en) : portCfgWrite s p v =
    (let u := puts s (portCells p v (b2n en))
    if en && !s.on F.PKE_P_CFG_EN p then
      let u := ((u.wr I.pMode p (u.rd F.PKE_P_CFG_MODE p)).wr I.pFec p (u.rd F.PKE_P_CFG_FEC p)).wr I.pAn p (u.rd F.PKE_P_CFG_AN p)
      u.wr F.PKE_P_STAT_CFGERR p (b2n (!fecOffered (u.rd I.pMode p) (u.rd I.pFec p)))
    else if !en && s.on F.PKE_P_CFG_EN p then endQueued (portDown u p) p else u) := by
  have hb : bitN v 31 = b2n en := by rw [bitN_of, hv]
  unfold portCfgWrite portCells
  simp only [hv, hb]
  by_cases h1 : bits v 30 28 ≤ 4 <;> by_cases h2 : bits v 27 26 ≤ 2 <;> simp only [h1, h2, if_true, if_false] <;> rfl

theorem portCells_congr (p v w en : Nat) (h : ∀ hi lo, hi < 31 → lo ≤ hi → bits v hi lo = bits w hi lo) : portCells p v en = portCells p w en := by
  unfold portCells
  simp only [bitN_bits]
  rw [h 30 28 (by decide) (by decide), h 27 26 (by decide) (by decide), h 25 25 (by decide) (by decide), h 24 24 (by decide) (by decide), h 23 20 (by decide) (by decide),
    h 19 16 (by decide) (by decide), h 11 0 (by decide) (by decide)]

theorem portCells_reads (s : State) (p v en : Nat) : let u := puts s (portCells p v en)
    u.rd F.PKE_P_CFG_MODE p = (if bits v 30 28 ≤ 4 then bits v 30 28 else s.rd F.PKE_P_CFG_MODE p) ∧
    u.rd F.PKE_P_CFG_FEC p = (if bits v 27 26 ≤ 2 then bits v 27 26 else s.rd F.PKE_P_CFG_FEC p) ∧ u.rd F.PKE_P_CFG_AN p = bitN v 25 ∧
    u.rd I.pMode p = s.rd I.pMode p := by
  have e1 : bits v 30 28 < 8 := Nat.mod_lt _ (by decide)
  have e2 : bits v 27 26 < 4 := Nat.mod_lt _ (by decide)
  have e3 : bitN v 25 < 2 := Nat.mod_lt _ (by decide)
  unfold portCells
  rw [puts_append, puts_append]
  dsimp only
  have m1 : bits v 30 28 % 2 ^ F.PKE_P_CFG_MODE.w = bits v 30 28 := Nat.mod_eq_of_lt e1
  have m2 : bits v 27 26 % 2 ^ F.PKE_P_CFG_FEC.w = bits v 27 26 := Nat.mod_eq_of_lt e2
  have m3 : bitN v 25 % 2 ^ F.PKE_P_CFG_AN.w = bitN v 25 := Nat.mod_eq_of_lt e3
  by_cases h1 : bits v 30 28 ≤ 4 <;> by_cases h2 : bits v 27 26 ≤ 2 <;> simp only [h1, h2, if_true, if_false, puts_cons, puts_nil] <;>
    simp (disch := decide) only [State.rd_wr_cell, State.rd_wr_same, m1, m2, m3, and_self]

theorem portDown_up (s : State) (p : Nat) (h : s.rd F.PKE_P_STAT_UP p = 1) : portDown s p = puts s [(F.PKE_P_STAT_UP, p, 0), (F.PKE_P_STAT_ANDONE, p, 0), (F.PKE_P_STAT_FECACT, p, 0), (F.PKE_P_STAT_LINKCHG, p, 1),
      (F.PKE_IRQSTAT_LINK, 0, 1)] := by
  unfold portDown
  rw [if_pos (by rw [on_of 1 h]; rfl)]
  rfl

theorem Tbl.drop_absent {α : Type} (k : Nat) (t : Tbl α) (h : ∀ e ∈ t, e.1 ≠ k) : Tbl.drop k t = t := by
  induction t with
  | nil => rfl
  | cons e r ih =>
    obtain ⟨i, a⟩ := e
    unfold Tbl.drop
    rw [if_neg (h (i, a) (by simp)), ih fun x hx => h x (List.mem_cons_of_mem _ hx)]

theorem Tbl.get_absent {α : Type} (d : α) (k : Nat) (t : Tbl α) (h : ∀ e ∈ t, e.1 ≠ k) : Tbl.get d t k = d := by
  induction t with
  | nil => rfl
  | cons e r ih =>
    obtain ⟨i, a⟩ := e
    unfold Tbl.get
    rw [if_neg (h (i, a) (by simp)), ih fun x hx => h x (List.mem_cons_of_mem _ hx)]

theorem endQueued_none (s : State) (p : Nat) (h : ∀ e ∈ s.egress, e.1 / 9 ≠ p) : endQueued s p = s := by
  unfold endQueued State.over
  have hq : ∀ q ∈ List.range 9, ∀ e ∈ s.egress, e.1 ≠ 9 * p + q := by
    intro q hq e he hh
    have := h e he
    have := List.mem_range.mp hq
    omega
  generalize List.range 9 = l at hq
  induction l with
  | nil => rfl
  | cons q r ih =>
    rw [List.foldl_cons]
    have h1 := hq q (by simp)
    have e1 : egQueue s p q = [] := Tbl.get_absent _ _ _ h1
    have e2 : setQueue s p q [] = s := by
      unfold setQueue
      have : Tbl.put [] (9 * p + q) [] s.egress = s.egress := by
        unfold Tbl.put
        rw [if_pos rfl, Tbl.drop_absent _ _ h1]
      rw [this]
    rw [e1, List.foldl_nil, e2]
    exact ih fun q' hq' => hq q' (List.mem_cons_of_mem _ hq')

theorem puts_egress (s : State) (l : List (Fld × Nat × Nat)) : (puts s l).egress = s.egress := by
  induction l generalizing s with
  | nil => rfl
  | cons p r ih => exact ih _

end Sys2Proof.Machine
end

