-- ==== Sys2Proof/Laws/CaseClass.lean ====
section
/-! SUPPORT.  Lemmas about the classifier's commands and the key store. -/

namespace Sys2Proof.Machine

open Safety

theorem clsFind_wr (s : State) (f : Fld) (i v key : Nat) (h1 : f.id ≠ I.clsV.id) (h2 : f.id ≠ I.clsKey.id) : clsFind (s.wr f i v) key = clsFind s key := by
  unfold clsFind
  simp only [State.on_eq, State.rd_wr_cell _ _ _ _ _ _ h1, State.rd_wr_cell _ _ _ _ _ _ h2]

/-- What command `op` of the classifier does from state u, with the registers of s. -/
def clsRun (s u : State) : Nat → State
  | 0 => clsEnd false (clsInsert u (regKey s) (regE0 s) (s.rd F.PKE_CLS_E1_SSRC 0) (regE2 s) (regE3 s))
  | 1 => clsEnd true (clsModify u (regKey s) (regE0 s) (s.rd F.PKE_CLS_E1_SSRC 0) (regE2 s) (regE3 s))
  | 2 => clsEnd true (clsDelete u (regKey s))
  | 3 => clsEnd false (clsReadCmd u)
  | _ => clsEnd false (4, u)

theorem regKey_op (s : State) (v : Nat) : regKey (s.wr F.PKE_CLS_CMD_OP 0 v) = regKey s := by
  unfold regKey; simp (disch := decide) only [State.rd_wr_cell]

theorem clsCmd_says (s : State) (op v : Nat) (h : s.rd F.PKE_CLS_CMD_GO 0 = 0) (hb : bitOf v 31 = true) (ho : bits v 2 0 = op) : clsCmdWrite s v = clsRun s (s.wr F.PKE_CLS_CMD_OP 0 op) op := by
  subst ho
  unfold clsCmdWrite State.set
  rw [if_neg (by rw [on_of 0 h]; decide)]
  dsimp only
  rw [if_neg (by rw [hb]; decide)]
  have e2 : regE0 (s.wr F.PKE_CLS_CMD_OP 0 (bits v 2 0)) = regE0 s := by
    unfold regE0; simp (disch := decide) only [State.rd_wr_cell]
  have e3 : regE2 (s.wr F.PKE_CLS_CMD_OP 0 (bits v 2 0)) = regE2 s := by
    unfold regE2; simp (disch := decide) only [State.rd_wr_cell]
  have e4 : regE3 (s.wr F.PKE_CLS_CMD_OP 0 (bits v 2 0)) = regE3 s := by
    unfold regE3; simp (disch := decide) only [State.rd_wr_cell]
  rw [regKey_op, e2, e3, e4, State.rd_wr_cell _ _ _ _ _ _ (by decide)]
  generalize s.wr F.PKE_CLS_CMD_OP 0 (bits v 2 0) = u
  generalize bits v 2 0 = op
  match op with
  | 0 => rfl
  | 1 => rfl
  | 2 => rfl
  | 3 => rfl
  | n + 4 => rfl

theorem clsEnd_plain (r : Nat × State) (w : Bool) (h : (w && r.1 == 0 && clsDraining r.2) = false) :
    clsEnd w r = puts r.2 [(F.PKE_CLS_CMD_RESULT, 0, r.1), (F.PKE_CLS_CMD_GO, 0, 0)] := by
  unfold clsEnd
  dsimp only
  rw [if_neg]
  · rfl
  · show ¬ ((w && r.1 == 0 && clsDraining r.2) = true)
    rw [h]; decide

/-- What a write of PKE_KS_CMD with GO does, from the state with KEEP and OP written. -/
def ksRun (s u : State) (ini : Init) (op : Nat) (keep : Bool) : State :=
  match ksStream s ini with
  | none => u
  | some n =>
    match op with
    | 0 =>
      let r := ksInstall u n keep
      r.2.set F.PKE_KS_CMD_RESULT r.1
    | 1 => (ksClear u n).set F.PKE_KS_CMD_RESULT 0
    | _ => (strmClear u n).set F.PKE_KS_CMD_RESULT 0

theorem ksCmd_says (s : State) (ini : Init) (v op k : Nat) (hb : bitOf v 31 = true) (ho : bits v 2 0 = op) (hl : op ≤ 2) (hk : bitN v 3 = k) :
    ksCmdWrite s ini v = ksRun s (puts s [(F.PKE_KS_CMD_KEEP, 0, k), (F.PKE_KS_CMD_OP, 0, op)]) ini op (k != 0) := by
  subst ho hk
  unfold ksCmdWrite State.set ksRun
  dsimp only
  rw [if_pos hl, if_neg (by rw [hb]; decide)]
  have e1 : ksStream ((s.wr F.PKE_KS_CMD_KEEP 0 (bitN v 3)).wr F.PKE_KS_CMD_OP 0 (bits v 2 0)) ini = ksStream s ini := by
    unfold ksStream; simp (disch := decide) only [State.rd_wr_cell]
  have e2 : ((s.wr F.PKE_KS_CMD_KEEP 0 (bitN v 3)).wr F.PKE_KS_CMD_OP 0 (bits v 2 0)).rd F.PKE_KS_CMD_OP 0 = bits v 2 0 := by
    rw [State.rd_wr_same]; exact Nat.mod_eq_of_lt (by show bits v 2 0 < 8; omega)
  have e3 : ((s.wr F.PKE_KS_CMD_KEEP 0 (bitN v 3)).wr F.PKE_KS_CMD_OP 0 (bits v 2 0)).on F.PKE_KS_CMD_KEEP 0 = (bitN v 3 != 0) := by
    have : bitN v 3 < 2 := Nat.mod_lt _ (by decide)
    rw [State.on_eq, State.rd_wr_cell _ _ _ _ _ _ (by decide), State.rd_wr_same, Nat.mod_eq_of_lt (by show _ < 2; exact this)]
  rw [e1, e2, e3]
  rfl

theorem strmClear_puts (s : State) (n : Nat) : strmClear s n = puts s ((List.range 8).map fun k => (I.stCnt, 8 * n + k, 0)) := by
  unfold strmClear State.over puts
  rw [List.foldl_map]

theorem unlatch_puts (s : State) (l : List Nat) : (s.over l fun s i => s.wr I.clsE3 i (s.rd I.clsE3 i % 2 ^ 31)) =
    puts s (l.map fun j => (I.clsE3, j, s.rd I.clsE3 j % 2 ^ 31)) := by
  have key : ∀ u : State, (∀ j, u.rd I.clsE3 j = s.rd I.clsE3 j ∨ u.rd I.clsE3 j = s.rd I.clsE3 j % 2 ^ 31) →
      (u.over l fun s i => s.wr I.clsE3 i (s.rd I.clsE3 i % 2 ^ 31)) = puts u (l.map fun j => (I.clsE3, j, s.rd I.clsE3 j % 2 ^ 31)) := by
    induction l with
    | nil => intro u h; rfl
    | cons i r ih =>
      intro u h
      have e : u.rd I.clsE3 i % 2 ^ 31 = s.rd I.clsE3 i % 2 ^ 31 := by
        rcases h i with h | h <;> rw [h]; exact Nat.mod_mod _ _
      rw [List.map_cons, puts_cons, ← e]
      refine Eq.trans ?_ ((ih (u.wr I.clsE3 i (u.rd I.clsE3 i % 2 ^ 31)) ?_).trans ?_)
      · rfl
      · intro j
        by_cases hj : i = j
        · subst hj
          rw [State.rd_wr_same, Nat.mod_eq_of_lt (Nat.lt_of_lt_of_le (Nat.mod_lt _ (by decide)) (by decide)), e]
          exact Or.inr rfl
        · rw [State.rd_wr_inst _ _ _ _ _ hj]; exact h j
      · rfl
  exact key s fun j => Or.inl rfl

theorem winBytes_congr (s u : State) (k n : Nat) (h : ∀ k, u.rd I.ksWin k = s.rd I.ksWin k) : winBytes u k n = winBytes s k n := by
  unfold winBytes
  simp only [h]

theorem ksInstall_let (u : State) (n : Nat) (keep : Bool) (h : bits (u.rd I.ksWin 0) 3 0 ≤ 6) (v : State)
    (hv : v = if keep then u else unlatch ((((strmClear u n).wr I.stRoc n (u.rd I.ksWin 1)).wr I.stWin n 0).wr I.stSeqV n 0) n)
    (s : State) (hw : ∀ k, v.rd I.ksWin k = s.rd I.ksWin k) (hz : bits (u.rd I.ksWin 0) 3 0 = bits (s.rd I.ksWin 0) 3 0) :
    ksInstall u n keep = (0, (puts v [(I.stInst, n, 1), (I.stSuite, n, bits (s.rd I.ksWin 0) 3 0), (I.stDir, n, bitN (s.rd I.ksWin 0) 31),
      (I.stKey, n, winBytes s 0x10 32), (I.stSalt, n, winBytes s 0x30 14)]).clearFld I.ksWin) := by
  unfold ksInstall
  dsimp only
  rw [if_neg (by omega), ← hv]
  rw [winBytes_congr s _ 16 32 (fun k => by simp (disch := decide) only [State.rd_wr_cell]; exact hw k),
    winBytes_congr s _ 0x30 14 (fun k => by simp (disch := decide) only [State.rd_wr_cell]; exact hw k), hw, hz]
  rfl

theorem ksInstall_says (s u : State) (n : Nat) (keep : Bool) (l : List (Fld × Nat × Nat)) (hu : u = puts s l) (hl : ∀ p ∈ l, p.1.id ≠ I.ksWin.id ∧ p.1.id ≠ I.clsV.id ∧ p.1.id ≠ I.clsE3.id)
    (h : bits (s.rd I.ksWin 0) 3 0 ≤ 6) : ksInstall u n keep = (0, (puts u ((if keep then [] else ((List.range 8).map fun k => (I.stCnt, 8 * n + k, 0)) ++ [(I.stRoc, n, s.rd I.ksWin 1), (I.stWin, n, 0), (I.stSeqV, n, 0)] ++
      ((s.nonzero I.clsV).filter fun j => bits (s.rd I.clsE3 j) 14 0 == n).map fun j => (I.clsE3, j, s.rd I.clsE3 j % 2 ^ 31)) ++
      [(I.stInst, n, 1), (I.stSuite, n, bits (s.rd I.ksWin 0) 3 0), (I.stDir, n, bitN (s.rd I.ksWin 0) 31), (I.stKey, n, winBytes s 0x10 32), (I.stSalt, n, winBytes s 0x30 14)])).clearFld I.ksWin) := by
  have hw : ∀ (m : List (Fld × Nat × Nat)) k, (∀ p ∈ m, p.1.id ≠ I.ksWin.id) → (puts u m).rd I.ksWin k = s.rd I.ksWin k := by
    intro m k hm
    rw [puts_cell _ _ _ _ hm, hu, puts_cell _ _ _ _ fun p hp => (hl p hp).1]
  have hz : bits (u.rd I.ksWin 0) 3 0 = bits (s.rd I.ksWin 0) 3 0 := by rw [hu, puts_cell _ _ _ _ fun p hp => (hl p hp).1]
  cases keep
  · simp only [Bool.false_eq_true, if_false]
    have e3 : ∀ (m : List (Fld × Nat × Nat)), (∀ p ∈ m, p.1.id ≠ I.clsV.id ∧ p.1.id ≠ I.clsE3.id) → unlatch (puts u m) n =
        puts (puts u m) (((s.nonzero I.clsV).filter fun j => bits (s.rd I.clsE3 j) 14 0 == n).map fun j => (I.clsE3, j, s.rd I.clsE3 j % 2 ^ 31)) := by
      intro m hm
      have a : ∀ j, (puts u m).rd I.clsE3 j = s.rd I.clsE3 j := by
        intro j; rw [puts_cell _ _ _ _ fun p hp => (hm p hp).2, hu, puts_cell _ _ _ _ fun p hp => (hl p hp).2.2]
      unfold unlatch
      rw [unlatch_puts, nonzero_puts _ _ _ fun p hp => (hm p hp).1, hu, nonzero_puts _ _ _ fun p hp => (hl p hp).2.1, ← hu]
      simp only [a]
    rw [puts_append, puts_append]
    refine ksInstall_let u n false (by rw [hz]; exact h) _ ?_ s ?_ hz
    · rw [if_neg (by decide), strmClear_puts]
      have e4 := e3 ((List.range 8).map (fun k => (I.stCnt, 8 * n + k, 0)) ++ [(I.stRoc, n, s.rd I.ksWin 1), (I.stWin, n, 0), (I.stSeqV, n, 0)]) (by
        intro p hp
        rw [List.mem_append] at hp
        rcases hp with hp | hp
        · obtain ⟨k, _, rfl⟩ := List.mem_map.mp hp; dsimp only; decide
        · simp only [List.mem_cons, List.not_mem_nil, or_false] at hp
          rcases hp with rfl | rfl | rfl <;> dsimp only <;> decide)
      refine e4.symm.trans ?_
      rw [puts_append, hu, puts_cell s l I.ksWin 1 fun p hp => (hl p hp).1]
      rfl
    · intro k
      rw [puts_cell, puts_cell, hu, puts_cell _ _ _ _ fun p hp => (hl p hp).1]
      · intro p hp
        rw [List.mem_append] at hp
        rcases hp with hp | hp
        · obtain ⟨k, _, rfl⟩ := List.mem_map.mp hp; dsimp only; decide
        · simp only [List.mem_cons, List.not_mem_nil, or_false] at hp
          rcases hp with rfl | rfl | rfl <;> dsimp only <;> decide
      · intro p hp
        obtain ⟨k, _, rfl⟩ := List.mem_map.mp hp; dsimp only; decide
  · simp only [if_true, List.nil_append]
    exact ksInstall_let u n true (by rw [hz]; exact h) u (by rw [if_pos rfl]) s (fun k => by rw [hu, puts_cell _ _ _ _ fun p hp => (hl p hp).1]) hz

theorem ksInstall_kept (s : State) (ini : Init) (n : Nat) (hf : s.fabric = true) (hn : ksStream s ini = some n) (h1 : bits (s.rd I.ksWin 0) 3 0 ≤ 6) :
    let suite := bits (s.rd I.ksWin 0) 3 0
    let zeroed := (List.range 8).map fun k => (I.stCnt, 8 * n + k, 0)
    let keys := [(I.stInst, n, 1), (I.stSuite, n, suite), (I.stDir, n, bitN (s.rd I.ksWin 0) 31), (I.stKey, n, winBytes s 0x10 32), (I.stSalt, n, winBytes s 0x30 14)]
    let fresh := [(I.stRoc, n, s.rd I.ksWin 1), (I.stWin, n, 0), (I.stSeqV, n, 0)]
    let unlatched := ((s.nonzero I.clsV).filter fun j => bits (s.rd I.clsE3 j) 14 0 == n).map fun j => (I.clsE3, j, s.rd I.clsE3 j % 2 ^ 31)
    let ks := fun (k op : Nat) => [(F.PKE_KS_CMD_KEEP, 0, k), (F.PKE_KS_CMD_OP, 0, op)]
    exec (.ksInstall ini true) s = .next (((puts s (ks 1 0 ++ keys)).clearFld I.ksWin).wr F.PKE_KS_CMD_RESULT 0 0) := by
  intro suite zeroed keys fresh unlatched ks
  show execKsInstall ini true s = _
  unfold execKsInstall
  rw [if_pos hf, ksCmd_says s ini _ 0 1 (by decide) (by decide) (by decide) (by decide)]
  unfold ksRun
  rw [hn]
  dsimp only
  rw [ksInstall_says s _ n _ _ rfl (by simp; decide) h1, ← puts_append]
  rw [show ((1 : Nat) != 0) = true from rfl, if_pos rfl, List.nil_append]
  unfold State.set
  rfl

theorem ksInstall_new (s : State) (ini : Init) (n : Nat) (hf : s.fabric = true) (hn : ksStream s ini = some n) (h1 : bits (s.rd I.ksWin 0) 3 0 ≤ 6) :
    let suite := bits (s.rd I.ksWin 0) 3 0
    let zeroed := (List.range 8).map fun k => (I.stCnt, 8 * n + k, 0)
    let keys := [(I.stInst, n, 1), (I.stSuite, n, suite), (I.stDir, n, bitN (s.rd I.ksWin 0) 31), (I.stKey, n, winBytes s 0x10 32), (I.stSalt, n, winBytes s 0x30 14)]
    let fresh := [(I.stRoc, n, s.rd I.ksWin 1), (I.stWin, n, 0), (I.stSeqV, n, 0)]
    let unlatched := ((s.nonzero I.clsV).filter fun j => bits (s.rd I.clsE3 j) 14 0 == n).map fun j => (I.clsE3, j, s.rd I.clsE3 j % 2 ^ 31)
    let ks := fun (k op : Nat) => [(F.PKE_KS_CMD_KEEP, 0, k), (F.PKE_KS_CMD_OP, 0, op)]
    exec (.ksInstall ini false) s = .next (((puts s (ks 0 0 ++ zeroed ++ fresh ++ unlatched ++ keys)).clearFld I.ksWin).wr F.PKE_KS_CMD_RESULT 0 0) := by
  intro suite zeroed keys fresh unlatched ks
  show execKsInstall ini false s = _
  unfold execKsInstall
  rw [if_pos hf, ksCmd_says s ini _ 0 0 (by decide) (by decide) (by decide) (by decide)]
  unfold ksRun
  rw [hn]
  dsimp only
  rw [ksInstall_says s _ n _ _ rfl (by simp; decide) h1, ← puts_append]
  simp only [bne_self_eq_false, Bool.false_eq_true, if_false, List.append_assoc]
  rfl

end Sys2Proof.Machine
end

