-- ==== Sys2Proof/Laws/CaseTime.lean ====
section
/-! SUPPORT.  Lemmas about time bases, flags of one bit and path steps. -/

namespace Sys2Proof.Machine

open Safety

theorem on_one {s : State} {f : Fld} {i : Nat} (hw : f.w = 1) : s.on f i = true ↔ s.rd f i = 1 := by
  have h := s.rd_lt f i
  rw [hw] at h
  rw [State.on_eq, bne_iff_ne]
  omega

theorem tbGuard_wr (s : State) (k v b : Nat) : tbGuard (s.wr I.incrHeld k v) b = tbGuard s b := by
  unfold tbGuard
  simp (disch := decide) only [State.on_eq, State.rd_wr_cell]

theorem tbStep_plain (s : State) (b v : Nat) (h : s.nonzero F.TMU_WP_STAT_STATE = []) (hp : ∀ p, p < 8 → s.rd F.PKE_P_TCFG_LTB p ≠ b) :
    tbStep s b v = puts s [(F.TMU_TB_NS_NS, b, s.rd F.TMU_TB_NS_NS b + v), (F.TMU_TB_LASTSTEP_VALUE, b, v), (F.TMU_TB_STEPAT_VALUE, b, (s.rd F.TMU_TB_NS_NS b + v) % 2 ^ 32)] := by
  have hpend : pendingOn s b = [] := by unfold pendingOn; rw [h]; rfl
  unfold tbStep
  dsimp only
  rw [hpend]
  simp only [List.filter, State.over, List.foldl_nil]
  rw [hpend]
  simp only [List.filter, List.foldl_nil]
  have hx : ∀ u : State, (∀ p, p < 8 → u.rd F.PKE_P_TCFG_LTB p ≠ b) → ∀ ns d, skipLaunches u b ns d = u := by
    intro u hu ns d
    unfold skipLaunches
    have : (List.range 8).filter (fun p => u.rd F.PKE_P_TCFG_LTB p == b) = [] := by
      rw [List.filter_eq_nil_iff]
      intro p hp
      have := hu p (List.mem_range.mp hp)
      simpa using this
    rw [this]
    rfl
  rw [hx]
  · have e : ∀ x : State, (if 0 < signedOf 32 v then x else x) = x := fun x => by split <;> rfl
    rw [e]
    unfold tbNs
    rw [State.rd_wr_same]
    rfl
  · intro p hp8
    simp (disch := decide) only [State.rd_wr_cell]
    exact hp p hp8

theorem psPair_on (s : State) (p v : Nat) (h : s.rd F.TMU_PS_CFG_EN p = 1) (fires : Bool)
    (hf : (s.on F.TMU_PS_STAT_REFVALID p && decide (max 1 (s.rd F.TMU_PS_THR_OFSTHR p) ≤ (diff32 (s.rd F.TMU_PS_OFS_VALUE p) (s.rd I.psOfs p)).natAbs) &&
      decide (max 1 (s.rd F.TMU_PS_THR_MPDTHR p) ≤ (diff32 v (s.rd I.psMpd p)).natAbs)) = fires) :
    psPair s p v = puts s ([(F.TMU_PS_MPD_VALUE, p, v)] ++ (if fires then [(F.TMU_PS_STAT_FIRED, p, 1), (F.TMU_PS_DOFS_VALUE, p, ofInt 32 (diff32 (s.rd F.TMU_PS_OFS_VALUE p) (s.rd I.psOfs p))),
      (F.TMU_PS_DMPD_VALUE, p, ofInt 32 (diff32 v (s.rd I.psMpd p))), (F.TMU_IRQSTAT_PATHSTEP, 0, 1)] else []) ++
      [(I.psOfs, p, s.rd F.TMU_PS_OFS_VALUE p), (I.psMpd, p, v), (F.TMU_PS_STAT_REFVALID, p, 1)]) := by
  unfold psPair State.set
  dsimp only
  simp (disch := decide) only [State.on_eq, State.rd_wr_cell]
  simp only [State.on_eq] at hf
  rw [hf, if_neg (by rw [h]; decide)]
  cases fires
  · rfl
  · rfl

end Sys2Proof.Machine
end

