-- ==== Sys2Proof/Laws/CaseWay.lean ====
section
/-! SUPPORT.  Lemmas about Waypoints: their registers, arming and actions. -/

namespace Sys2Proof.Machine

open Safety

theorem bits_low (v hi lo : Nat) (h : hi < 31) (hl : lo ≤ hi) : bits (v % 2 ^ 31) hi lo = bits v hi lo := by
  unfold bits
  rw [← Nat.div_add_mod v (2 ^ 31)]
  have e : (2 : Nat) ^ 31 = 2 ^ lo * (2 ^ (hi + 1 - lo) * 2 ^ (30 - hi)) := by rw [← Nat.pow_add, ← Nat.pow_add]; congr 1; omega
  have em : (2 ^ 31 * (v / 2 ^ 31) + v % 2 ^ 31) % 2 ^ 31 = v % 2 ^ 31 := by rw [Nat.mul_add_mod, Nat.mod_mod]
  rw [em]
  generalize v % 2 ^ 31 = r
  generalize v / 2 ^ 31 = q
  rw [e, Nat.mul_assoc, Nat.mul_add_div (Nat.two_pow_pos _), Nat.mul_assoc, Nat.mul_add_mod]

theorem wpDue_iff (s : State) (n : Nat) : wpDue s n = true ↔ tmuRuns s = true ∧ s.rd F.TMU_WP_STAT_STATE n = 1 ∧ diff32 (s.rd F.TMU_WP_TARGET_TARGET n) (s.rd F.TMU_TB_NS_NS (s.rd I.wpTb n)) ≤ 0 := by
  unfold wpDue wpLeft tbNs
  simp [and_assoc]

theorem tmuRuns_wr (s : State) (f : Fld) (i v : Nat) (h : ∀ g ∈ [F.PMU_MODE_CURRENT, I.tickRun], f.id ≠ g.id) : tmuRuns (s.wr f i v) = tmuRuns s := by
  unfold tmuRuns State.fabric State.mode
  simp only [State.on_eq, State.rd_wr_cell s f F.PMU_MODE_CURRENT i _ v (h _ (by simp)), State.rd_wr_cell s f I.tickRun i _ v (h _ (by simp))]

/-- What a write of TMU_WP_CTL stores. -/
def wpCells (w x en : Nat) : List (Fld × Nat × Nat) := (if bits x 27 24 ≤ 8 then [(F.TMU_WP_CTL_ACT, w, bits x 27 24)] else []) ++
      [(F.TMU_WP_CTL_DROPLATE, w, bitN x 30), (F.TMU_WP_CTL_LA, w, bitN x 29), (F.TMU_WP_CTL_TB, w, bits x 21 20), (F.TMU_WP_CTL_EN, w, en)]

theorem wpCtl_plain (s : State) (n v : Nat) : wpCtlWrite s n v = (let u := puts s (wpCells n v (bitN v 31))
    if !bitOf v 31 then u.wr F.TMU_WP_STAT_STATE n wpIDLE else if s.on F.TMU_WP_CTL_EN n then u else wpArm u n) := by
  unfold wpCtlWrite wpCells
  dsimp only
  by_cases h : bits v 27 24 ≤ 8
  · rw [if_pos h, if_pos h]; rfl
  · rw [if_neg h, if_neg h]; rfl

theorem wpArm_says (u : State) (n : Nat) : wpArm u n = (let r := puts u [(I.wpTb, n, u.rd F.TMU_WP_CTL_TB n), (I.wpLa, n, u.rd F.TMU_WP_CTL_LA n), (F.TMU_WP_STAT_STATE, n, 1), (F.TMU_WP_STAT_LADONE, n, 0)]
    if wpDue r n then wpLate r n (-(wpLeft r n)).toNat else r) := by
  unfold wpArm
  rfl

theorem wpArm_due (u : State) (n : Nat) : let r := puts u [(I.wpTb, n, u.rd F.TMU_WP_CTL_TB n), (I.wpLa, n, u.rd F.TMU_WP_CTL_LA n), (F.TMU_WP_STAT_STATE, n, 1), (F.TMU_WP_STAT_LADONE, n, 0)]
    wpDue r n = true ↔ tmuRuns u = true ∧ diff32 (u.rd F.TMU_WP_TARGET_TARGET n) (u.rd F.TMU_TB_NS_NS (u.rd F.TMU_WP_CTL_TB n)) ≤ 0 := by
  intro r
  rw [wpDue_iff]
  have hw : u.rd F.TMU_WP_CTL_TB n % 2 ^ I.wpTb.w = u.rd F.TMU_WP_CTL_TB n := Nat.mod_eq_of_lt (u.rd_lt _ _)
  have e1 : tmuRuns r = tmuRuns u := by
    show tmuRuns ((((u.wr I.wpTb n _).wr I.wpLa n _).wr F.TMU_WP_STAT_STATE n _).wr F.TMU_WP_STAT_LADONE n _) = _
    rw [tmuRuns_wr _ _ _ _ (by decide), tmuRuns_wr _ _ _ _ (by decide), tmuRuns_wr _ _ _ _ (by decide), tmuRuns_wr _ _ _ _ (by decide)]
  have e2 : r.rd I.wpTb n = u.rd F.TMU_WP_CTL_TB n := by
    show ((((u.wr I.wpTb n _).wr I.wpLa n _).wr F.TMU_WP_STAT_STATE n _).wr F.TMU_WP_STAT_LADONE n _).rd I.wpTb n = _
    simp (disch := decide) only [State.rd_wr_cell, State.rd_wr_same]
    exact hw
  have e3 : r.rd F.TMU_WP_STAT_STATE n = 1 := by
    show ((((u.wr I.wpTb n _).wr I.wpLa n _).wr F.TMU_WP_STAT_STATE n _).wr F.TMU_WP_STAT_LADONE n _).rd F.TMU_WP_STAT_STATE n = _
    simp (disch := decide) only [State.rd_wr_cell, State.rd_wr_same]
    rfl
  have e4 : ∀ j, r.rd F.TMU_TB_NS_NS j = u.rd F.TMU_TB_NS_NS j := fun j => puts_cell _ _ _ _ (by simp; decide)
  have e5 : r.rd F.TMU_WP_TARGET_TARGET n = u.rd F.TMU_WP_TARGET_TARGET n := puts_cell _ _ _ _ (by simp; decide)
  rw [e1, e2, e3, e4, e5]
  simp

theorem wpCells_reads (s : State) (w x en : Nat) : let u := puts s (wpCells w x en)
    u.rd F.TMU_WP_CTL_TB w = bits x 21 20 ∧ u.rd F.TMU_WP_CTL_LA w = bitN x 29 ∧ tmuRuns u = tmuRuns s ∧ u.rd F.TMU_WP_TARGET_TARGET w = s.rd F.TMU_WP_TARGET_TARGET w ∧
    ∀ j, u.rd F.TMU_TB_NS_NS j = s.rd F.TMU_TB_NS_NS j := by
  have a1 : bits x 21 20 % 2 ^ F.TMU_WP_CTL_TB.w = bits x 21 20 := Nat.mod_eq_of_lt (Nat.mod_lt _ (by decide))
  have a2 : bitN x 29 % 2 ^ F.TMU_WP_CTL_LA.w = bitN x 29 := Nat.mod_eq_of_lt (Nat.mod_lt _ (by decide))
  have hr : ∀ (f : Fld) (i v : Nat) (u : State), (∀ g ∈ [F.PMU_MODE_CURRENT, I.tickRun], f.id ≠ g.id) → tmuRuns (u.wr f i v) = tmuRuns u := fun f i v u h => tmuRuns_wr u f i v h
  unfold wpCells
  by_cases h : bits x 27 24 ≤ 8
  · rw [if_pos h]
    simp only [List.cons_append, List.nil_append, puts_cons, puts_nil]
    refine ⟨?_, ?_, ?_, ?_, fun j => ?_⟩
    · simp (disch := decide) only [State.rd_wr_cell, State.rd_wr_same, a1]
    · simp (disch := decide) only [State.rd_wr_cell, State.rd_wr_same, a2]
    · rw [hr _ _ _ _ (by decide), hr _ _ _ _ (by decide), hr _ _ _ _ (by decide), hr _ _ _ _ (by decide), hr _ _ _ _ (by decide)]
    · simp (disch := decide) only [State.rd_wr_cell]
    · simp (disch := decide) only [State.rd_wr_cell]
  · rw [if_neg h]
    simp only [List.nil_append, puts_cons, puts_nil]
    refine ⟨?_, ?_, ?_, ?_, fun j => ?_⟩
    · simp (disch := decide) only [State.rd_wr_cell, State.rd_wr_same, a1]
    · simp (disch := decide) only [State.rd_wr_cell, State.rd_wr_same, a2]
    · rw [hr _ _ _ _ (by decide), hr _ _ _ _ (by decide), hr _ _ _ _ (by decide), hr _ _ _ _ (by decide)]
    · simp (disch := decide) only [State.rd_wr_cell]
    · simp (disch := decide) only [State.rd_wr_cell]

theorem wpAction_congr (u : State) (w : Nat) (s : State) (h : u = puts s [(F.TMU_WP_CAP_VALUE, w, s.rd F.TMU_TB_NS_NS (s.rd I.wpTb w))]) :
    u.rd F.TMU_WP_CTL_ACT w = s.rd F.TMU_WP_CTL_ACT w ∧ u.rd F.TMU_WP_ARG0_ARG w = s.rd F.TMU_WP_ARG0_ARG w ∧ u.rd F.TMU_WP_ARG1_ARG w = s.rd F.TMU_WP_ARG1_ARG w := by
  subst h
  exact ⟨puts_cell _ _ _ _ (by simp; decide), puts_cell _ _ _ _ (by simp; decide), puts_cell _ _ _ _ (by simp; decide)⟩

theorem rephase_once (r : State) (w now : Nat) (h : r.rd F.TMU_WP_PERIOD_PERIOD w = 0) : rephase r w now = puts r [(F.TMU_WP_STAT_STATE, w, 3)] := by
  unfold rephase
  rw [h]
  rfl

theorem wpAction_0 (s : State) (n : Nat) (rx : List (BitVec 15 × Byte)) (h : s.rd F.TMU_WP_CTL_ACT n = 0) : wpAction s n rx = s := by
  unfold wpAction; rw [h]; rfl

theorem wpAction_1 (s : State) (n : Nat) (rx : List (BitVec 15 × Byte)) (h : s.rd F.TMU_WP_CTL_ACT n = 1) : wpAction s n rx =
    setGroup s (s.rd F.TMU_WP_ARG0_ARG n % 65536) (flagsCount (s.rd F.TMU_WP_ARG1_ARG n)) (bits (s.rd F.TMU_WP_ARG0_ARG n) 31 16) := by
  unfold wpAction; rw [h]; rfl

theorem wpAction_2 (s : State) (n : Nat) (rx : List (BitVec 15 × Byte)) (h : s.rd F.TMU_WP_CTL_ACT n = 2) : wpAction s n rx = post s true (s.rd F.TMU_WP_ARG0_ARG n) false := by
  unfold wpAction; rw [h]; rfl

theorem wpAction_3 (s : State) (n : Nat) (rx : List (BitVec 15 × Byte)) (h : s.rd F.TMU_WP_CTL_ACT n = 3) : wpAction s n rx = s.mlsTrig 2 := by
  unfold wpAction; rw [h]; rfl

theorem wpAction_4 (s : State) (n : Nat) (rx : List (BitVec 15 × Byte)) (h : s.rd F.TMU_WP_CTL_ACT n = 4) : wpAction s n rx =
    if bitOf (s.rd F.TMU_WP_ARG0_ARG n) 0 then realign s (bits (s.rd F.TMU_WP_ARG0_ARG n) 7 4) rx
    else ((s.wr F.TMU_WP_CAP2_VALUE n (s.rd I.tdxBndNs)).wr F.TMU_WP_CAP_VALUE n (tbNs s 1)).set F.TMU_IRQSTAT_ALIGN 1 := by
  unfold wpAction; rw [h]; rfl

theorem wpAction_5 (s : State) (n : Nat) (rx : List (BitVec 15 × Byte)) (h : s.rd F.TMU_WP_CTL_ACT n = 5) : wpAction s n rx =
    if stepRefused (s.rd F.TMU_WP_ARG0_ARG n % 4) (s.rd F.TMU_WP_ARG1_ARG n) then s.wr F.TMU_TB_STAT_STEPERR (s.rd F.TMU_WP_ARG0_ARG n % 4) 1
    else (s.wr I.tbPend (s.rd F.TMU_WP_ARG0_ARG n % 4) 1).wr I.tbPendV (s.rd F.TMU_WP_ARG0_ARG n % 4) (s.rd I.tbPendV (s.rd F.TMU_WP_ARG0_ARG n % 4) + s.rd F.TMU_WP_ARG1_ARG n) := by
  unfold wpAction; rw [h]; rfl

theorem wpAction_6 (s : State) (n : Nat) (rx : List (BitVec 15 × Byte)) (h : s.rd F.TMU_WP_CTL_ACT n = 6) : wpAction s n rx =
    if s.serving then s.over ((List.range 8).filter (bitOf (s.rd F.TMU_WP_ARG0_ARG n) ·)) fun s c => cluWake s c else s := by
  unfold wpAction; rw [h]; rfl

theorem wpAction_7 (s : State) (n : Nat) (rx : List (BitVec 15 × Byte)) (h : s.rd F.TMU_WP_CTL_ACT n = 7) : wpAction s n rx = hmSync (hmnModes s) (s.rd F.TMU_WP_ARG0_ARG n % 16) := by
  unfold wpAction; rw [h]; rfl

theorem wpAction_8 (s : State) (n : Nat) (rx : List (BitVec 15 × Byte)) (h : s.rd F.TMU_WP_CTL_ACT n = 8) : wpAction s n rx =
    if s.rd F.TMU_WP_ARG0_ARG n % 8 < 5 && ioDrives s (pulsePin (s.rd F.TMU_WP_ARG0_ARG n % 8)) then s.wr I.pulse (s.rd F.TMU_WP_ARG0_ARG n % 8) 1 else s := by
  unfold wpAction; rw [h]; rfl

theorem serving_wr (s : State) (f : Fld) (i v : Nat) (h : f.id ≠ F.PMU_MODE_CURRENT.id) : (s.wr f i v).serving = s.serving := by
  unfold State.serving State.mode
  rw [State.rd_wr_cell _ _ _ _ _ _ h]

theorem notice_says (s : State) (n : Nat) (h : s.serving = true) : notice s n = (((tasks s).filter fun t => decide (s.rd F.TMU_WP_ARG0_ARG n % 65536 ≤ t) && decide (t < s.rd F.TMU_WP_ARG0_ARG n % 65536 + flagsCount (s.rd F.TMU_WP_ARG1_ARG n))).foldl
      (noticeTask (s.rd I.noticeSeq 0 + 1) (s.rd F.TMU_WP_TARGET_TARGET n) (s.rd I.wpTb n)) (0, puts s [(F.TMU_WP_STAT_LADONE, n, 1), (I.noticeSeq, 0, s.rd I.noticeSeq 0 + 1)])).2 := by
  unfold notice State.set
  dsimp only
  rw [if_neg (by rw [serving_wr _ _ _ _ (by decide), h]; decide)]
  have ht : ∀ k, tasks ((s.wr F.TMU_WP_STAT_LADONE n 1).wr I.noticeSeq 0 k) = tasks s := by
    intro k
    unfold tasks
    rw [nonzero_wr_other _ _ _ _ _ (by decide), nonzero_wr_other _ _ _ _ _ (by decide)]
  simp (disch := decide) only [State.rd_wr_cell, ht]
  rfl

end Sys2Proof.Machine
end

