-- ==== Sys2Proof/Laws/CaseTdx.lean ====
section
/-! SUPPORT.  How the highways of TDX take their frames. -/

namespace Sys2Proof.Machine

open Safety

theorem framePulse_plain (s : State) (g : Nat) (rx : List (BitVec 15 × Byte)) (h1 : tdxH110 s = false) (h2 : s.rd F.TDX_CG_STAT_LOSS g = 0) (h3 : s.rd I.clkRet 0 = 0) :
    framePulse s g rx = groupFrame (puts s (if g = 0 then [(F.TDX_STAT_AOK, 0, 1)] else if g = 1 then [(F.TDX_STAT_BOK, 0, 1)] else [])) g rx := by
  have e1 : setLoss s g false = s := by
    unfold setLoss
    rw [on_of 0 h2]; rfl
  have e2 : clocksOk s g true = puts s (if g = 0 then [(F.TDX_STAT_AOK, 0, 1)] else if g = 1 then [(F.TDX_STAT_BOK, 0, 1)] else []) := by
    match g with
    | 0 => rfl
    | 1 => rfl
    | n + 2 => rfl
  have e3 : tdxH110 (puts s (if g = 0 then [(F.TDX_STAT_AOK, 0, 1)] else if g = 1 then [(F.TDX_STAT_BOK, 0, 1)] else [])) = false := by
    unfold tdxH110 at *
    rw [State.on_eq] at *
    rw [puts_cell]
    · exact h1
    · intro p hp; split at hp
      · simp at hp; subst hp; dsimp only; decide
      · split at hp
        · simp at hp; subst hp; dsimp only; decide
        · simp at hp
  have e4 : (puts s (if g = 0 then [(F.TDX_STAT_AOK, 0, 1)] else if g = 1 then [(F.TDX_STAT_BOK, 0, 1)] else [])).on I.clkRet 0 = false := by
    rw [State.on_eq, puts_cell]
    · rw [h3]; rfl
    · intro p hp; split at hp
      · simp at hp; subst hp; dsimp only; decide
      · split at hp
        · simp at hp; subst hp; dsimp only; decide
        · simp at hp
  unfold framePulse
  dsimp only
  rw [e1, e2, e4, Bool.and_false, if_neg (by decide)]
  unfold pulseGroup
  rw [e3]
  rfl

theorem forced_nil {s : State} (h : s.nonzero I.tdxForce = []) : forced s = [] := by
  unfold State.nonzero at h
  exact List.map_eq_nil_iff.mp h

theorem receiveFrame_none (s : State) (g : Nat) (rx : List (BitVec 15 × Byte)) (h : s.nonzero I.tdxForce = []) : receiveFrame s g rx = s := by
  unfold receiveFrame
  rw [forced_nil h]
  rfl

theorem live_none (s : State) (h : s.nonzero I.tdxForce = []) : liveEntries s = [] := by
  unfold liveEntries
  rw [forced_nil h]
  rfl

theorem storeFrame_none (s : State) (h : s.nonzero I.tdxForce = []) : storeFrame s = s := by
  unfold storeFrame
  rw [live_none s h]
  rfl

theorem keepSources_none (s : State) (h : s.nonzero I.tdxForce = []) : keepSources s = s := by
  unfold keepSources
  rw [live_none s h]
  rfl

theorem driveFrame_none (s : State) (g : Nat) (h : s.nonzero I.tdxForce = []) (h2 : s.nonzero I.tdxOut = []) : driveFrame s g = s := by
  unfold driveFrame
  rw [h2]
  have e : ∀ p f, (s.over (List.filter p ([] : List Nat)) f) = s := fun p f => rfl
  dsimp only
  rw [e]
  by_cases hp : pinsDrive s = true
  · rw [if_neg (by rw [hp]; decide), forced_nil h]; rfl
  · rw [if_pos (by simpa using hp)]

theorem mapPlaces_none (s : State) (h1 : s.nonzero F.TDX_MAP_EN = []) (h2 : s.nonzero F.TDX_MAP_SWAP = []) (h3 : s.nonzero I.tdxForce = []) : mapPlaces s = [] := by
  unfold mapPlaces
  rw [h1, h2, h3]; rfl

theorem mapForce_none (s : State) (g : Nat) (h : mapPlaces s = []) : mapForce s g = s := by
  unfold mapForce
  rw [h]; rfl

/-- The tables of TDX that a frame looks at. -/
def TdxBare (s : State) : Prop := s.nonzero F.TDX_MAP_EN = [] ∧ s.nonzero F.TDX_MAP_SWAP = [] ∧ s.nonzero I.tdxForce = [] ∧ s.nonzero I.tdxOut = []

theorem TdxBare.wr {s : State} (h : TdxBare s) (f : Fld) (i v : Nat) (hf : ∀ g ∈ [F.TDX_MAP_EN, F.TDX_MAP_SWAP, I.tdxForce, I.tdxOut], f.id ≠ g.id) : TdxBare (s.wr f i v) := by
  obtain ⟨a, b, c, d⟩ := h
  refine ⟨?_, ?_, ?_, ?_⟩
  · rw [nonzero_wr_other _ _ _ _ _ (hf _ (by simp))]; exact a
  · rw [nonzero_wr_other _ _ _ _ _ (hf _ (by simp))]; exact b
  · rw [nonzero_wr_other _ _ _ _ _ (hf _ (by simp))]; exact c
  · rw [nonzero_wr_other _ _ _ _ _ (hf _ (by simp))]; exact d

theorem puts_clocks (s : State) (l : List (Fld × Nat × Nat)) (h : ∀ p ∈ l, ∀ q ∈ [F.TDX_CTRL_H110, F.TDX_CTRL_H110ROLE, F.TDX_CG_CFG_MASTER], p.1.id ≠ q.id) (g : Nat) :
    tdxH110 (puts s l) = tdxH110 s ∧ cgMaster (puts s l) g = cgMaster s g := by
  have h1 := fun j => puts_cell s l F.TDX_CTRL_H110 j fun p hp => h p hp _ (by simp)
  have h2 := fun j => puts_cell s l F.TDX_CTRL_H110ROLE j fun p hp => h p hp _ (by simp)
  have h3 := fun j => puts_cell s l F.TDX_CG_CFG_MASTER j fun p hp => h p hp _ (by simp)
  have e : tdxH110 (puts s l) = tdxH110 s := by unfold tdxH110; rw [State.on_eq, h1, ← State.on_eq]
  refine ⟨e, ?_⟩
  unfold cgMaster
  rw [e, h2, State.on_eq, h3, ← State.on_eq]

theorem tables_over {α : Type} {s t : State} {l : List Nat} (h : SameTables s t l) (xs : List α) (f : State → α → State) (hf : ∀ u x, SameTables u (f u x) l) : SameTables s (t.over xs f) l := by
  unfold State.over
  induction xs generalizing t with
  | nil => exact h
  | cons x r ih => exact ih (h.trans (hf t x))

theorem physWrite_tables (s : State) (a : Nat) (b : List Byte) : SameTables s (physWrite s a b) [I.linkV.id, I.txWr.id, I.txWrC.id] := by
  have h0 : SameTables s (s.writeBytes a b) [I.linkV.id, I.txWr.id, I.txWrC.id] := by
    rw [State.writeBytes_same]; exact .refl _ _
  have h1 : SameTables s (markRings (s.writeBytes a b) a b.length) [I.linkV.id, I.txWr.id, I.txWrC.id] := by
    unfold markRings
    split
    · exact h0
    · refine tables_over h0 _ _ fun u x => ?_
      split
      · exact ((SameTables.refl _ _).wr (by decide)).wr (by decide)
      · exact .refl _ _
  unfold physWrite breakLinks
  exact tables_over h1 _ _ fun u x => (SameTables.refl _ _).wr (by decide)

theorem mapWord_lt (s : State) (k : Nat) : tdxMapWord s k < 2 ^ 32 := by
  have b1 : s.rd F.TDX_MAP_EN k < 2 := Nat.mod_lt _ (by decide)
  have b2 : s.rd F.TDX_MAP_DIR k < 2 := Nat.mod_lt _ (by decide)
  have b3 : s.rd F.TDX_MAP_USE k < 4 := Nat.mod_lt _ (by decide)
  have b4 : s.rd F.TDX_MAP_LAW k < 4 := Nat.mod_lt _ (by decide)
  have b5 : s.rd F.TDX_MAP_WB k < 2 := Nat.mod_lt _ (by decide)
  have b6 : s.rd F.TDX_MAP_SWAP k < 2 := Nat.mod_lt _ (by decide)
  have b7 : s.rd F.TDX_MAP_TARGET k < 32768 := Nat.mod_lt _ (by decide)
  unfold tdxMapWord
  omega

/-- The cells a frame of a receiving highway changes. -/
def frameIds : List Nat := [I.linkV, I.txWr, I.txWrC, F.TDX_STAT_AOK, F.TDX_STAT_BOK, I.tdxHist, I.tdxXc, I.tdxFrmNs, F.TDX_FRAME_FRAME].map Fld.id

/-- One received timeslot of the reference group: what the frame looks at. -/
def OneIn (s : State) (g k w : Nat) : Prop :=
  s.nonzero F.TDX_MAP_EN = [k] ∧ s.nonzero F.TDX_MAP_SWAP = [] ∧ s.nonzero I.tdxOut = [] ∧ Tbl.get [] s.cells I.tdxForce.id = [(k, w)] ∧
    tdxMapWord s k = w ∧ tdxSlotLive s g k = true ∧ s.rd F.TDX_CTRL_REFGRP 0 = g ∧ s.rd F.TDX_SWAPCMD_ARM 0 = 0 ∧ ∀ j, s.rd I.tdxFill j = 0

theorem OneIn.keep {s t : State} {g k w : Nat} (h : OneIn s g k w) (ht : SameTables s t frameIds) : OneIn t g k w := by
  obtain ⟨a, b, c, d, e, f, i, j, l⟩ := h
  refine ⟨by rw [ht.nonzero _ (by decide)]; exact a, by rw [ht.nonzero _ (by decide)]; exact b, by rw [ht.nonzero _ (by decide)]; exact c, by rw [ht _ (by decide)]; exact d, ?_, ?_, by rw [ht.rd _ _ (by decide)]; exact i,
    by rw [ht.rd _ _ (by decide)]; exact j, fun x => by rw [ht.rd _ _ (by decide)]; exact l x⟩
  · unfold tdxMapWord at *
    rw [ht.rd _ _ (by decide), ht.rd _ _ (by decide), ht.rd _ _ (by decide), ht.rd _ _ (by decide), ht.rd _ _ (by decide), ht.rd _ _ (by decide), ht.rd _ _ (by decide)]
    exact e
  · unfold tdxSlotLive hwRuns hwSlots hwCfgErr cgFreq hwGroup hwRate tdxH110 at *
    simp only [State.on_eq] at *
    simp (disch := decide) only [ht.rd _ _]
    exact f

theorem OneIn.group {s : State} {g k w : Nat} (h : OneIn s g k w) : hwGroup s (k / 256) = g := by
  obtain ⟨a, b, c, d, e, f, i, j, l⟩ := h
  unfold tdxSlotLive at f
  simp only [Bool.and_eq_true, beq_iff_eq] at f
  exact f.1.1

theorem OneIn.live {s : State} {g k w : Nat} (h : OneIn s g k w) : liveEntries s = [(k, w)] := by
  have hg := h.group
  obtain ⟨a, b, c, d, e, f, i, j, l⟩ := h
  unfold liveEntries forced
  rw [d]
  simp only [List.filter_cons, List.filter_nil]
  rw [hg, f, if_pos rfl]

theorem OneIn.force {s : State} {g k w : Nat} (h : OneIn s g k w) (h31 : bitOf w 31 = true) (h24 : bitOf w 24 = false) : mapForce s g = s := by
  have hg := h.group
  obtain ⟨a, b, c, d, e, f, i, j, l⟩ := h
  have hf : s.nonzero I.tdxForce = [k] := by unfold State.nonzero; rw [d]; rfl
  have hp : mapPlaces s = [k] := by
    unfold mapPlaces
    rw [a, b, hf]
    simp [List.eraseDups_cons]
  have he : putBit w 24 false = w := by
    unfold putBit clrBit
    simp [h24]
  have hr : s.rd I.tdxForce k = w := by
    unfold State.rd
    rw [d]
    have : w < 2 ^ 32 := e ▸ mapWord_lt s k
    simp only [Tbl.get]
    simp
    exact Nat.mod_eq_of_lt this
  unfold mapForce
  rw [hp]
  simp only [List.filter_cons, List.filter_nil, hg, beq_self_eq_true, if_true]
  unfold State.over
  simp only [List.foldl_cons, List.foldl_nil]
  rw [e, he, hr]
  have hen : s.on F.TDX_MAP_EN k = true := by
    rw [State.on_eq]
    cases hz : (s.rd F.TDX_MAP_EN k != 0)
    · exfalso
      have hz' : s.rd F.TDX_MAP_EN k = 0 := by simpa using hz
      have b2 : s.rd F.TDX_MAP_DIR k < 2 := Nat.mod_lt _ (by decide)
      have b3 : s.rd F.TDX_MAP_USE k < 4 := Nat.mod_lt _ (by decide)
      have b4 : s.rd F.TDX_MAP_LAW k < 4 := Nat.mod_lt _ (by decide)
      have b5 : s.rd F.TDX_MAP_WB k < 2 := Nat.mod_lt _ (by decide)
      have b6 : s.rd F.TDX_MAP_SWAP k < 2 := Nat.mod_lt _ (by decide)
      have b7 : s.rd F.TDX_MAP_TARGET k < 32768 := Nat.mod_lt _ (by decide)
      have hlt : w < 2 ^ 31 := by
        rw [← e]; unfold tdxMapWord; rw [hz']; omega
      unfold bitOf at h31
      have : w / 2 ^ 31 = 0 := Nat.div_eq_of_lt hlt
      rw [this] at h31
      exact absurd h31 (by decide)
    · rfl
  rw [if_pos hen, if_pos rfl]

theorem fills_none (s : State) (h : ∀ j, s.rd I.tdxFill j = 0) (ref : Nat) :
    s.over (List.range 4) (fun s g => if g != ref && s.on I.tdxFill g then s.wr I.tdxFill g (s.rd I.tdxFill g - 1) else s) = s := by
  have e : ∀ g, (if g != ref && s.on I.tdxFill g then s.wr I.tdxFill g (s.rd I.tdxFill g - 1) else s) = s := by
    intro g
    rw [State.on_eq, h g, show ((0 : Nat) != 0) = false from rfl, Bool.and_false, if_neg (by decide)]
  unfold State.over
  generalize List.range 4 = l
  induction l with
  | nil => rfl
  | cons x r ih => rw [List.foldl_cons, e]; exact ih

theorem due_idle (s : State) (h : s.rd F.TDX_SWAPCMD_ARM 0 = 0) : handoverDue s = false := by
  unfold handoverDue
  rw [State.on_eq, h]; rfl

theorem refBoundary_bare (s : State) (next : Nat) (hb : TdxBare s) (h1 : s.rd F.TDX_SWAPCMD_ARM 0 = 0) (h2 : ∀ j, s.rd I.tdxFill j = 0) (h3 : s.rd F.CWY_CTRL_RUN 0 = 0 ∨ next ≠ 0) :
    refBoundary s next = puts s ([(I.tdxFrmNs, 0, s.rd F.TMU_TB_NS_NS 0), (F.TDX_FRAME_FRAME, 0, next)] ++
      (if next = 0 then [(F.TDX_BLKCNT_BLOCK, 0, s.rd F.TDX_BLKCNT_BLOCK 0 + 1), (I.tdxBndNs, 0, s.rd F.TMU_TB_NS_NS 1)] else [])) := by
  have b1 : TdxBare (s.set I.tdxFrmNs (s.rd F.TMU_TB_NS_NS 0)) := hb.wr _ _ _ (by decide)
  have b2 : TdxBare ((s.set I.tdxFrmNs (s.rd F.TMU_TB_NS_NS 0)).set F.TDX_FRAME_FRAME next) := b1.wr _ _ _ (by decide)
  have e1 : handoverDue (s.set I.tdxFrmNs (s.rd F.TMU_TB_NS_NS 0)) = false := due_idle _ (by unfold State.set; rw [State.rd_wr_cell _ _ _ _ _ _ (by decide)]; exact h1)
  unfold refBoundary
  dsimp only
  simp only [e1, Bool.false_eq_true, if_false]
  rw [mapForce_none _ _ (mapPlaces_none _ b1.1 b1.2.1 b1.2.2.1)]
  by_cases hn : next = 0
  · rw [if_pos hn, if_pos hn]
    have e2 : blockBoundary ((s.set I.tdxFrmNs (s.rd F.TMU_TB_NS_NS 0)).set F.TDX_FRAME_FRAME next) =
        puts s ([(I.tdxFrmNs, 0, s.rd F.TMU_TB_NS_NS 0), (F.TDX_FRAME_FRAME, 0, next)] ++ [(F.TDX_BLKCNT_BLOCK, 0, s.rd F.TDX_BLKCNT_BLOCK 0 + 1), (I.tdxBndNs, 0, s.rd F.TMU_TB_NS_NS 1)]) := by
      unfold blockBoundary bridgeSend
      dsimp only
      have b3 := (b2.wr F.TDX_BLKCNT_BLOCK 0 (s.rd F.TDX_BLKCNT_BLOCK 0 + 1) (by decide)).wr I.tdxBndNs 0 (s.rd F.TMU_TB_NS_NS 1) (by decide)
      have c1 : ((s.set I.tdxFrmNs (s.rd F.TMU_TB_NS_NS 0)).set F.TDX_FRAME_FRAME next).rd F.TDX_BLKCNT_BLOCK 0 = s.rd F.TDX_BLKCNT_BLOCK 0 := by
        simp (disch := decide) only [State.set_eq_wr, State.rd_wr_cell]
      have c2 : ((s.set I.tdxFrmNs (s.rd F.TMU_TB_NS_NS 0)).set F.TDX_FRAME_FRAME next).rd F.TMU_TB_NS_NS 1 = s.rd F.TMU_TB_NS_NS 1 := by
        simp (disch := decide) only [State.set_eq_wr, State.rd_wr_cell]
      rw [c1, c2]
      unfold State.set at b3 ⊢
      rw [live_none _ b3.2.2.1]
      have c3 : ∀ (u : State) (p : Nat × Nat → Bool) (f : State → Nat × Nat → State), u.over (List.filter p []) f = u := fun _ _ _ => rfl
      rw [c3, if_pos]
      · rfl
      · rw [State.on_eq]
        simp (disch := decide) only [State.rd_wr_cell]
        rcases h3 with h3 | h3
        · rw [h3]; rfl
        · exact absurd hn h3
    rw [e2]
    have b4 : TdxBare (puts s ([(I.tdxFrmNs, 0, s.rd F.TMU_TB_NS_NS 0), (F.TDX_FRAME_FRAME, 0, next)] ++ [(F.TDX_BLKCNT_BLOCK, 0, s.rd F.TDX_BLKCNT_BLOCK 0 + 1), (I.tdxBndNs, 0, s.rd F.TMU_TB_NS_NS 1)])) :=
      (b2.wr F.TDX_BLKCNT_BLOCK 0 (s.rd F.TDX_BLKCNT_BLOCK 0 + 1) (by decide)).wr I.tdxBndNs 0 (s.rd F.TMU_TB_NS_NS 1) (by decide)
    rw [driveFrame_none _ _ b4.2.2.1 b4.2.2.2, keepSources_none _ b4.2.2.1]
    exact fills_none _ (fun j => by rw [puts_cell _ _ _ _ (by simp; decide)]; exact h2 j) _
  · rw [if_neg hn, if_neg hn, driveFrame_none _ _ b2.2.2.1 b2.2.2.2, keepSources_none _ b2.2.2.1, List.append_nil]
    exact fills_none _ (fun j => by unfold State.set; rw [State.rd_wr_cell _ _ _ _ _ _ (by decide), State.rd_wr_cell _ _ _ _ _ _ (by decide)]; exact h2 j) _

theorem slot_says (s : State) (g k w : Nat) (rx : List (BitVec 15 × Byte)) (h : OneIn s g k w) (h1 : eDriven w = false) (h2 : eUse w = 0) (h3 : eWb w = false) (h24 : bitOf w 24 = false) (h31 : bitOf w 31 = true) (got : Nat)
    (hgot : got = (match rx.find? fun r => r.1.toNat == k with | some r => r.2.toNat | none => s.rd I.tdxHist k % 256)) (hf : s.rd F.TDX_FRAME_FRAME 0 < 15) :
    groupFrame s g rx = puts (physWrite (puts s [(I.tdxHist, k, s.rd I.tdxHist k * 256 + got)])
      (rxRing (eRing w) + 2 * s.rd F.TDX_FRAME_FRAME 0 + 32 * (s.rd F.TDX_BLKCNT_BLOCK 0 % 4)) (leBytes 2 (lawExpand (eLaw w) got)))
      [(I.tdxFrmNs, 0, s.rd F.TMU_TB_NS_NS 0), (F.TDX_FRAME_FRAME, 0, s.rd F.TDX_FRAME_FRAME 0 + 1), (I.tdxXc, k, got)] := by
  have hlt : got < 256 := by
    rw [hgot]; split
    · exact BitVec.isLt _
    · exact Nat.mod_lt _ (by decide)
  have hsl : eSlots k w = [k] := by unfold eSlots; rw [h3]; rfl
  have e1 : receiveFrame s g rx = puts s [(I.tdxHist, k, s.rd I.tdxHist k * 256 + got)] := by
    obtain ⟨a, b, c, d, e, f, i, j, l⟩ := h
    unfold receiveFrame forced
    rw [d]
    simp only [List.filter_cons, List.filter_nil]
    rw [h1, f]
    simp only [Bool.not_false, Bool.and_self, if_true]
    unfold State.over
    simp only [List.foldl_cons, List.foldl_nil, hsl]
    rw [hgot]
    rfl
  have k1 : SameTables s (puts s [(I.tdxHist, k, s.rd I.tdxHist k * 256 + got)]) frameIds := (SameTables.refl _ _).wr (f := I.tdxHist) (by decide)
  have hh : (puts s [(I.tdxHist, k, s.rd I.tdxHist k * 256 + got)]).rd I.tdxHist k % 256 = got := by
    show (State.wr _ _ _ _).rd _ _ % 256 = got
    rw [State.rd_wr_same]
    show (s.rd I.tdxHist k * 256 + got) % 2 ^ 24 % 256 = got
    omega
  have r1 := k1.rd F.TDX_FRAME_FRAME 0
  have f1 : (puts s [(I.tdxHist, k, s.rd I.tdxHist k * 256 + got)]).rd F.TDX_FRAME_FRAME 0 = s.rd F.TDX_FRAME_FRAME 0 := State.rd_wr_cell _ I.tdxHist _ _ _ _ (by decide)
  have f2 : (puts s [(I.tdxHist, k, s.rd I.tdxHist k * 256 + got)]).rd F.TDX_BLKCNT_BLOCK 0 = s.rd F.TDX_BLKCNT_BLOCK 0 := State.rd_wr_cell _ I.tdxHist _ _ _ _ (by decide)
  have f3 : (puts s [(I.tdxHist, k, s.rd I.tdxHist k * 256 + got)]).rd F.TMU_TB_NS_NS 0 = s.rd F.TMU_TB_NS_NS 0 := State.rd_wr_cell _ I.tdxHist _ _ _ _ (by decide)
  unfold groupFrame
  dsimp only
  rw [e1]
  generalize puts s [(I.tdxHist, k, s.rd I.tdxHist k * 256 + got)] = u at *
  have o1 : OneIn u g k w := h.keep k1
  have t1 : ∀ t, OneIn t g k w → t.rd I.tdxHist k % 256 = got → takenByte t k = got := by
    intro t ht hb
    unfold takenByte
    dsimp only
    rw [ht.group, ht.2.2.2.2.2.2.1, if_pos rfl, Nat.pow_zero, Nat.div_one]
    exact hb
  have e2 : storeFrame u = physWrite u (rxRing (eRing w) + 2 * s.rd F.TDX_FRAME_FRAME 0 + 32 * (s.rd F.TDX_BLKCNT_BLOCK 0 % 4)) (leBytes 2 (lawExpand (eLaw w) got)) := by
    unfold storeFrame
    dsimp only
    rw [o1.live]
    simp only [List.filter_cons, List.filter_nil]
    rw [h1, h2]
    simp only [Bool.not_false, Bool.and_self, if_true, beq_self_eq_true]
    unfold State.over
    simp only [List.foldl_cons, List.foldl_nil, hsl, List.zipIdx_cons, List.zipIdx_nil]
    rw [h3, t1 u o1 hh, f1, f2]
    unfold sampleAddr
    rw [h3]
    simp only [Bool.false_eq_true, if_false, Nat.one_mul, Nat.add_zero]
  rw [o1.2.2.2.2.2.2.1, if_pos rfl, e2]
  have k2 : SameTables u (physWrite u (rxRing (eRing w) + 2 * s.rd F.TDX_FRAME_FRAME 0 + 32 * (s.rd F.TDX_BLKCNT_BLOCK 0 % 4)) (leBytes 2 (lawExpand (eLaw w) got))) [I.linkV.id, I.txWr.id, I.txWrC.id] := physWrite_tables _ _ _
  generalize physWrite u (rxRing (eRing w) + 2 * s.rd F.TDX_FRAME_FRAME 0 + 32 * (s.rd F.TDX_BLKCNT_BLOCK 0 % 4)) (leBytes 2 (lawExpand (eLaw w) got)) = x at *
  have o2 : OneIn x g k w := o1.keep (k2.mono (by decide))
  have hx : x.rd I.tdxHist k % 256 = got := by rw [k2.rd _ _ (by decide)]; exact hh
  have g3 : x.rd F.TMU_TB_NS_NS 0 = s.rd F.TMU_TB_NS_NS 0 := by rw [k2.rd _ _ (by decide)]; exact f3
  rw [f1, Nat.mod_eq_of_lt (by omega)]
  unfold refBoundary
  dsimp only
  rw [g3]
  have o3 : OneIn (x.set I.tdxFrmNs (s.rd F.TMU_TB_NS_NS 0)) g k w := o2.keep ((SameTables.refl _ _).wr (by decide))
  have o4 : OneIn ((x.set I.tdxFrmNs (s.rd F.TMU_TB_NS_NS 0)).set F.TDX_FRAME_FRAME (s.rd F.TDX_FRAME_FRAME 0 + 1)) g k w := o3.keep ((SameTables.refl _ _).wr (by decide))
  have hy : ((x.set I.tdxFrmNs (s.rd F.TMU_TB_NS_NS 0)).set F.TDX_FRAME_FRAME (s.rd F.TDX_FRAME_FRAME 0 + 1)).rd I.tdxHist k % 256 = got := by
    simp (disch := decide) only [State.set_eq_wr, State.rd_wr_cell]; exact hx
  simp only [due_idle _ o3.2.2.2.2.2.2.2.1, Bool.false_eq_true, if_false]
  rw [o3.2.2.2.2.2.2.1, o3.force h31 h24, if_neg (by omega)]
  have hd : ∀ t, OneIn t g k w → driveFrame t g = t := by
    intro t ht
    obtain ⟨a, b, c, d, e, f, i, j, l⟩ := ht
    unfold driveFrame forced
    rw [c]
    have e : ∀ p f, (t.over (List.filter p ([] : List Nat)) f) = t := fun p f => rfl
    dsimp only
    rw [e]
    by_cases hp : pinsDrive t = true
    · rw [if_neg (by rw [hp]; decide), d]
      simp only [List.filter_cons, List.filter_nil]
      rw [h1]; rfl
    · rw [if_pos (by simpa using hp)]
  rw [hd _ o4]
  have hks : keepSources ((x.set I.tdxFrmNs (s.rd F.TMU_TB_NS_NS 0)).set F.TDX_FRAME_FRAME (s.rd F.TDX_FRAME_FRAME 0 + 1)) =
      puts x [(I.tdxFrmNs, 0, s.rd F.TMU_TB_NS_NS 0), (F.TDX_FRAME_FRAME, 0, s.rd F.TDX_FRAME_FRAME 0 + 1), (I.tdxXc, k, got)] := by
    unfold keepSources
    rw [o4.live]
    simp only [List.filter_cons, List.filter_nil]
    rw [h1]
    simp only [Bool.not_false, if_true]
    unfold State.over
    simp only [List.foldl_cons, List.foldl_nil]
    rw [t1 _ o4 hy]
    rfl
  rw [hks]
  exact fills_none _ (fun j => by rw [puts_cell _ _ _ _ (by simp; decide)]; exact o2.2.2.2.2.2.2.2.2 j) _

theorem clkCtrl_says (s : State) (x : Nat) : tdxCtrlWrite s x = puts s ((if bitOf x 31 = true ∧ s.rd F.TDX_CTRL_RUN 0 = 0 then [(F.TDX_BLKCNT_BLOCK, 0, 0), (F.TDX_FRAME_FRAME, 0, 0)] else []) ++
        [(F.TDX_CTRL_RUN, 0, bitN x 31), (F.TDX_CTRL_H110, 0, bitN x 30), (F.TDX_CTRL_REFGRP, 0, bits x 25 24)] ++ (if bits x 29 28 = 3 then [] else [(F.TDX_CTRL_H110ROLE, 0, bits x 29 28)]) ++
        (if bitOf x 27 then [(F.TDX_CTRL_CLKSEL, 0, 1), (I.clkRet, 0, 0)] else if s.rd F.TDX_CTRL_CLKSEL 0 = 1 ∧ s.rd F.TDX_STAT_AOK 0 = 1 then [(I.clkRet, 0, 1)] else [])) := by
  have e1 : (if (bitOf x 31 && !s.on F.TDX_CTRL_RUN) = true then (s.set F.TDX_BLKCNT_BLOCK 0).set F.TDX_FRAME_FRAME 0 else s) =
      puts s (if bitOf x 31 = true ∧ s.rd F.TDX_CTRL_RUN 0 = 0 then [(F.TDX_BLKCNT_BLOCK, 0, 0), (F.TDX_FRAME_FRAME, 0, 0)] else []) := by
    by_cases h : bitOf x 31 = true ∧ s.rd F.TDX_CTRL_RUN 0 = 0
    · rw [if_pos h, if_pos (by rw [h.1, on_of 0 h.2]; rfl)]; rfl
    · rw [if_neg h, if_neg]
      · rfl
      · intro hh
        rw [Bool.and_eq_true] at hh
        refine h ⟨hh.1, ?_⟩
        have := hh.2
        rw [State.on_eq] at this
        simpa using this
  have e2 : ∀ u : State, (if bits x 29 28 = 3 then u else u.set F.TDX_CTRL_H110ROLE (bits x 29 28)) = puts u (if bits x 29 28 = 3 then [] else [(F.TDX_CTRL_H110ROLE, 0, bits x 29 28)]) := by
    intro u; split <;> rfl
  have e3 : ∀ u : State, clkselWrite u (bitOf x 27) = puts u (if bitOf x 27 then [(F.TDX_CTRL_CLKSEL, 0, 1), (I.clkRet, 0, 0)] else if u.rd F.TDX_CTRL_CLKSEL 0 = 1 ∧ u.rd F.TDX_STAT_AOK 0 = 1 then [(I.clkRet, 0, 1)] else []) := by
    intro u
    unfold clkselWrite
    by_cases h : bitOf x 27 = true
    · rw [if_pos h, if_pos h]; rfl
    · rw [if_neg h, if_neg h]
      by_cases h2 : u.rd F.TDX_CTRL_CLKSEL 0 = 1 ∧ u.rd F.TDX_STAT_AOK 0 = 1
      · rw [if_pos h2, if_pos (by rw [on_of 1 h2.1, on_of 1 h2.2]; rfl)]; rfl
      · rw [if_neg h2, if_neg]
        · rfl
        · intro hh
          rw [Bool.and_eq_true] at hh
          exact h2 ⟨(on_one rfl).mp hh.1, (on_one rfl).mp hh.2⟩
  unfold tdxCtrlWrite
  rw [e1]
  dsimp only
  rw [e2, e3]
  have hc : ∀ q : Fld, (∀ c ∈ [F.TDX_BLKCNT_BLOCK, F.TDX_FRAME_FRAME, F.TDX_CTRL_RUN, F.TDX_CTRL_H110, F.TDX_CTRL_REFGRP, F.TDX_CTRL_H110ROLE], c.id ≠ q.id) → ∀ l : List (Fld × Nat × Nat),
      (l = [(F.TDX_BLKCNT_BLOCK, 0, 0), (F.TDX_FRAME_FRAME, 0, 0)] ∨ l = []) → ∀ m : List (Fld × Nat × Nat), (m = [(F.TDX_CTRL_H110ROLE, 0, bits x 29 28)] ∨ m = []) →
      (puts ((((puts s l).set F.TDX_CTRL_RUN (bitN x 31)).set F.TDX_CTRL_H110 (bitN x 30)).set F.TDX_CTRL_REFGRP (bits x 25 24)) m).rd q 0 = s.rd q 0 := by
    intro q hq l hl m hm
    have a : ∀ u : State, (puts u m).rd q 0 = u.rd q 0 := by
      intro u
      rcases hm with rfl | rfl
      · exact State.rd_wr_cell _ _ _ _ _ _ (hq _ (by simp))
      · rfl
    have b : (puts s l).rd q 0 = s.rd q 0 := by
      rcases hl with rfl | rfl
      · exact (State.rd_wr_cell _ _ _ _ _ _ (hq _ (by simp))).trans (State.rd_wr_cell _ _ _ _ _ _ (hq _ (by simp)))
      · rfl
    rw [a]
    unfold State.set
    rw [State.rd_wr_cell _ _ _ _ _ _ (hq _ (by simp)), State.rd_wr_cell _ _ _ _ _ _ (hq _ (by simp)), State.rd_wr_cell _ _ _ _ _ _ (hq _ (by simp)), b]
  have hl : (if bitOf x 31 = true ∧ s.rd F.TDX_CTRL_RUN 0 = 0 then [(F.TDX_BLKCNT_BLOCK, 0, 0), (F.TDX_FRAME_FRAME, 0, 0)] else []) = [(F.TDX_BLKCNT_BLOCK, 0, 0), (F.TDX_FRAME_FRAME, 0, 0)] ∨
      (if bitOf x 31 = true ∧ s.rd F.TDX_CTRL_RUN 0 = 0 then [(F.TDX_BLKCNT_BLOCK, 0, 0), (F.TDX_FRAME_FRAME, 0, 0)] else []) = [] := by
    split
    · exact Or.inl rfl
    · exact Or.inr rfl
  have hm : (if bits x 29 28 = 3 then [] else [(F.TDX_CTRL_H110ROLE, 0, bits x 29 28)]) = [(F.TDX_CTRL_H110ROLE, 0, bits x 29 28)] ∨
      (if bits x 29 28 = 3 then [] else [(F.TDX_CTRL_H110ROLE, 0, bits x 29 28)]) = [] := by
    split
    · exact Or.inr rfl
    · exact Or.inl rfl
  rw [hc F.TDX_CTRL_CLKSEL (by decide) _ hl _ hm, hc F.TDX_STAT_AOK (by decide) _ hl _ hm]
  simp only [puts_append]
  rfl

theorem swap_says (s : State) (x : Nat) : swapcmdWrite s x = puts s ((if bitOf x 31 then [(F.TDX_SWAPCMD_LATE, 0, 0)] else []) ++ (if bitOf x 30 then [(F.TDX_SWAPCMD_DONE, 0, 0)] else []) ++
    (if bitOf x 0 = true ∧ s.rd F.TDX_SWAPCMD_ARM 0 = 0 then [(F.TDX_SWAPCMD_ARM, 0, 1), (I.tdxLate, 0, b2n (decide (0 ≤ diff32 (s.rd I.tdxFrmNs 0) ((s.rd F.TDX_SWAPT_T 0 + 2 ^ 32 - 62500) % 2 ^ 32))))] else [])) := by
  have key : ∀ u : State, (∀ q ∈ [F.TDX_SWAPCMD_ARM, I.tdxFrmNs, F.TDX_SWAPT_T], u.rd q 0 = s.rd q 0) →
      (if bitOf x 0 && !u.on F.TDX_SWAPCMD_ARM then
        let passed := decide (0 ≤ diff32 (u.rd I.tdxFrmNs) ((u.rd F.TDX_SWAPT_T + 2 ^ 32 - 62500) % 2 ^ 32))
        (u.set F.TDX_SWAPCMD_ARM 1).set I.tdxLate (b2n passed)
      else u) = puts u (if bitOf x 0 = true ∧ s.rd F.TDX_SWAPCMD_ARM 0 = 0 then [(F.TDX_SWAPCMD_ARM, 0, 1), (I.tdxLate, 0, b2n (decide (0 ≤ diff32 (s.rd I.tdxFrmNs 0) ((s.rd F.TDX_SWAPT_T 0 + 2 ^ 32 - 62500) % 2 ^ 32))))] else []) := by
    intro u hu
    dsimp only
    rw [State.on_eq, hu F.TDX_SWAPCMD_ARM (by simp), hu I.tdxFrmNs (by simp), hu F.TDX_SWAPT_T (by simp)]
    by_cases h : bitOf x 0 = true ∧ s.rd F.TDX_SWAPCMD_ARM 0 = 0
    · have hc : (bitOf x 0 && !(s.rd F.TDX_SWAPCMD_ARM 0 != 0)) = true := by rw [h.1, h.2]; decide
      rw [if_pos h, if_pos hc]
      generalize decide (0 ≤ diff32 (s.rd I.tdxFrmNs) ((s.rd F.TDX_SWAPT_T + 2 ^ 32 - 62500) % 2 ^ 32)) = d
      exact rfl
    · rw [if_neg h, if_neg]
      · rfl
      · intro hh
        rw [Bool.and_eq_true] at hh
        exact h ⟨hh.1, by simpa using hh.2⟩
  unfold swapcmdWrite
  simp only [puts_append]
  by_cases a : bitOf x 31 = true <;> by_cases b : bitOf x 30 = true <;> simp only [a, b, if_true, if_false, puts_nil, Bool.false_eq_true]
  · exact key _ (by
      intro q hq
      simp only [List.mem_cons, List.not_mem_nil, or_false] at hq
      rcases hq with rfl | rfl | rfl <;> simp (disch := decide) only [State.set_eq_wr, State.rd_wr_cell])
  · exact key _ (by
      intro q hq
      simp only [List.mem_cons, List.not_mem_nil, or_false] at hq
      rcases hq with rfl | rfl | rfl <;> simp (disch := decide) only [State.set_eq_wr, State.rd_wr_cell])
  · exact key _ (by
      intro q hq
      simp only [List.mem_cons, List.not_mem_nil, or_false] at hq
      rcases hq with rfl | rfl | rfl <;> simp (disch := decide) only [State.set_eq_wr, State.rd_wr_cell])
  · exact key _ (by intro q hq; rfl)

end Sys2Proof.Machine
end

