-- ==== Sys2Proof/Laws/CaseHmn.lean ====
section
/-! SUPPORT.  How the health monitor takes its commands. -/

namespace Sys2Proof.Machine

open Safety

theorem puts_flat {α : Type} (s : State) (xs : List α) (f : State → α → State) (l : α → List (Fld × Nat × Nat)) (h : ∀ u x, (∀ g, (∀ y, ∀ p ∈ l y, p.1.id ≠ g.id) → ∀ j, u.rd g j = s.rd g j) → f u x = puts u (l x)) :
    s.over xs f = puts s (xs.flatMap l) := by
  have : ∀ (xs : List α) (u : State), (∀ g, (∀ y, ∀ p ∈ l y, p.1.id ≠ g.id) → ∀ j, u.rd g j = s.rd g j) → u.over xs f = puts u (xs.flatMap l) := by
    intro xs
    induction xs with
    | nil => intro u _; rfl
    | cons x r ih =>
      intro u hu
      show (f u x).over r f = _
      rw [h u x hu, List.flatMap_cons, puts_append]
      exact ih _ fun g hg j => by rw [puts_cell _ _ _ _ (hg x)]; exact hu g hg j
  exact this xs s fun _ _ _ => rfl

/-- What a synchronising reset writes. -/
def syncs (s : State) (mask : Nat) : List (Fld × Nat × Nat) :=
  (((List.range 4).filter fun j => bitOf mask j).flatMap fun j => [(I.hmRst, j, s.rd I.hmNow 0), (I.hmWin, j, s.rd I.hmNow 0), (I.hmBnd, j, 0), (I.hmDwell, j, 0)]) ++
    (if s.rd F.HMN_CTRL_DDSSYNC 0 = 1 ∧ mask % 16 ≠ 0 then [(I.hmDds, 0, 0), (I.hmChg, 0, s.rd I.hmNow 0 + 1), (I.hmDds, 1, 0), (I.hmChg, 1, s.rd I.hmNow 0 + 1)] else [])

theorem hmSync_says (s : State) (mask : Nat) : hmSync s mask = puts s (syncs s mask) := by
  have e1 : (s.over ((List.range 4).filter fun k => bitOf mask k) fun s k =>
      (((s.wr I.hmRst k (s.rd I.hmNow)).wr I.hmWin k (s.rd I.hmNow)).wr I.hmBnd k 0).wr I.hmDwell k 0) =
      puts s (((List.range 4).filter fun j => bitOf mask j).flatMap fun j => [(I.hmRst, j, s.rd I.hmNow 0), (I.hmWin, j, s.rd I.hmNow 0), (I.hmBnd, j, 0), (I.hmDwell, j, 0)]) := by
    refine puts_flat _ _ _ _ fun u x hu => ?_
    have : u.rd I.hmNow 0 = s.rd I.hmNow 0 := hu I.hmNow (by simp; decide) 0
    rw [this]
    rfl
  have hc : ∀ q : Fld, (∀ c ∈ [I.hmRst, I.hmWin, I.hmBnd, I.hmDwell], c.id ≠ q.id) → ∀ j, (puts s (((List.range 4).filter fun j => bitOf mask j).flatMap fun j => [(I.hmRst, j, s.rd I.hmNow 0), (I.hmWin, j, s.rd I.hmNow 0), (I.hmBnd, j, 0), (I.hmDwell, j, 0)])).rd q j = s.rd q j := by
    intro q hq j
    refine puts_cell _ _ _ _ fun p hp => ?_
    simp only [List.mem_flatMap, List.mem_cons, List.not_mem_nil, or_false] at hp
    obtain ⟨a, -, hp⟩ := hp
    rcases hp with rfl | rfl | rfl | rfl <;> exact hq _ (by simp)
  unfold hmSync syncs
  dsimp only
  rw [e1, puts_append]
  generalize hu : puts s (((List.range 4).filter fun j => bitOf mask j).flatMap fun j => [(I.hmRst, j, s.rd I.hmNow 0), (I.hmWin, j, s.rd I.hmNow 0), (I.hmBnd, j, 0), (I.hmDwell, j, 0)]) = u at *
  have c1 := hc F.HMN_CTRL_DDSSYNC (by decide) 0
  have c2 := hc I.hmNow (by decide) 0
  by_cases hd : s.rd F.HMN_CTRL_DDSSYNC 0 = 1 ∧ mask % 16 ≠ 0
  · rw [if_pos hd, if_pos (by rw [on_of 1 (c1.trans hd.1)]; simpa using hd.2)]
    unfold State.over hmChange
    simp only [List.foldl_cons, List.foldl_nil]
    simp (disch := decide) only [State.rd_wr_cell]
    rw [c2]
    rfl
  · rw [if_neg hd, if_neg]
    · rfl
    · intro hh
      rw [Bool.and_eq_true, on_one rfl, c1] at hh
      exact hd ⟨hh.1, by simpa using hh.2⟩

theorem syncs_congr (s t : State) (mask : Nat) (h1 : t.rd I.hmNow 0 = s.rd I.hmNow 0) (h2 : t.rd F.HMN_CTRL_DDSSYNC 0 = s.rd F.HMN_CTRL_DDSSYNC 0) : syncs t mask = syncs s mask := by
  unfold syncs; rw [h1, h2]

theorem syncs_ids (s : State) (mask : Nat) (q : Fld) (h : ∀ c ∈ [I.hmRst, I.hmWin, I.hmBnd, I.hmDwell, I.hmDds, I.hmChg], c.id ≠ q.id) : ∀ p ∈ syncs s mask, p.1.id ≠ q.id := by
  intro p hp
  unfold syncs at hp
  rw [List.mem_append] at hp
  rcases hp with hp | hp
  · simp only [List.mem_flatMap, List.mem_cons, List.not_mem_nil, or_false] at hp
    obtain ⟨a, -, hp⟩ := hp
    rcases hp with rfl | rfl | rfl | rfl <;> exact h _ (by simp)
  · split at hp
    · simp only [List.mem_cons, List.not_mem_nil, or_false] at hp
      rcases hp with rfl | rfl | rfl | rfl <;> exact h _ (by simp)
    · simp at hp

theorem hmnModes_even (s : State) (h1 : hmRate s = s.rd I.hmMode 0) (h2 : ∀ d, d < 2 → hmExcites s d = s.on I.hmExc d) : hmnModes s = s := by
  unfold hmnModes
  dsimp only
  rw [if_pos h1]
  unfold State.over
  simp only [List.foldl_cons, List.foldl_nil, h2 0 (by decide), h2 1 (by decide), beq_self_eq_true, if_true]

theorem switchStart_says (s : State) (k j : Nat) : switchStart s k j = puts s (if s.rd I.hmSw k = 0 then [(I.hmSw, k, j + 1), (I.hmWin, k, s.rd I.hmNow 0)] else [(I.hmNext, k, j + 1)]) := by
  unfold switchStart
  rw [State.on_eq]
  by_cases h : s.rd I.hmSw k = 0
  · rw [if_neg (by rw [h]; decide), if_pos h]
    rfl
  · rw [if_pos (by simpa using h), if_neg h]; rfl

theorem thr_no (s : State) (n : Nat) (run act evt : Fld) (action : Nat) : thrStep s n run act evt false action = s.wr run n 0 := rfl

theorem thr_run (s : State) (n : Nat) (run act evt : Fld) (action : Nat) (h : s.rd run n + 1 < max 1 (s.rd F.HMN_SNS_THRCFG_PERSIST n)) :
    thrStep s n run act evt true action = s.wr run n (s.rd run n + 1) := by
  unfold thrStep
  rw [if_neg (by decide), if_pos h]

theorem thr_new (s : State) (n : Nat) (run act evt : Fld) (h : max 1 (s.rd F.HMN_SNS_THRCFG_PERSIST n) ≤ s.rd run n + 1) (ha : s.rd act n = 0) (hr : run.id ≠ act.id) :
    thrStep s n run act evt true 0 = puts s [(run, n, 0), (act, n, 1), (evt, n, 1)] := by
  unfold thrStep
  rw [if_neg (by decide), if_neg (by omega)]
  dsimp only
  rw [State.on_eq]
  rw [State.rd_wr_cell _ _ _ _ _ _ hr, ha]
  rfl

/-- What the word and the count of outputs of a slice leave alone. -/
def SameHm (s u : State) : Prop := ∀ (q : Fld) (j : Nat), F.HMN_SNS_DATA_WORD.id ≠ q.id → I.hmDwell.id ≠ q.id → u.rd q j = s.rd q j

theorem SameHm.checks {s u : State} (h : SameHm s u) (k : Nat) :
    hmUnsettled u k = hmUnsettled s k ∧ hmRangex u k = hmRangex s k ∧ hmChopRip u k = hmChopRip s k ∧ hmGain u k = hmGain s k := by
  refine ⟨?_, ?_, ?_, ?_⟩
  · unfold hmUnsettled fineExciters hmSettle hmGroupDelay hmDelay hmDecim hmNhb hmLen hmInput
    simp (disch := decide) only [State.on_eq, h _ _]
    try rfl
  · unfold hmRangex hmFill hmDelay hmNhb hmLen
    simp (disch := decide) only [State.on_eq, h _ _]
    try rfl
  · unfold hmChopRip hmNhb hmLen
    simp (disch := decide) only [State.on_eq, h _ _]
    try rfl
  · unfold hmGain hmDelay
    simp (disch := decide) only [State.on_eq, h _ _]
    try rfl

theorem fine_says (s : State) (k data : Nat) (hsw : s.rd I.hmSw k = 0) (hf : hmFilling s k = false) :
    let w := (F.HMN_SNS_DATA_WORD, hmInput s k, hmWord true (hmUnsettled s k) (hmRangex s k) (hmChopRip s k) (hmGain s k) data)
    let u := puts s (w :: (if s.rd I.hmDwell k < 255 then [(I.hmDwell, k, s.rd I.hmDwell k + 1)] else []))
    SameHm s u ∧ fineOutput s k data = (if hmUnsettled s k = false ∧ hmRangex s k = false ∧ hmChopRip s k = false then compareOutput u (hmInput s k) (signedOf 24 data * (2 ^ (7 - hmGain s k) : Nat)) else u) := by
  intro w u
  have hu : SameHm s u := by
    intro q j h1 h2
    refine puts_cell _ _ _ _ fun p hp => ?_
    rw [List.mem_cons] at hp
    rcases hp with rfl | hp
    · exact h1
    · split at hp
      · simp only [List.mem_cons, List.not_mem_nil, or_false] at hp
        subst hp; exact h2
      · simp at hp
  refine ⟨hu, ?_⟩
  unfold fineOutput
  rw [on_of 0 hsw, if_neg (by decide), hf]
  dsimp only
  have e : (if (!false && decide ((s.wr F.HMN_SNS_DATA_WORD (hmInput s k) (hmWord (!false) (hmUnsettled s k) (hmRangex s k) (hmChopRip s k) (hmGain s k) (if (!false) = true then data else 0))).rd I.hmDwell k < 255)) = true then
      (s.wr F.HMN_SNS_DATA_WORD (hmInput s k) (hmWord (!false) (hmUnsettled s k) (hmRangex s k) (hmChopRip s k) (hmGain s k) (if (!false) = true then data else 0))).wr I.hmDwell k
        ((s.wr F.HMN_SNS_DATA_WORD (hmInput s k) (hmWord (!false) (hmUnsettled s k) (hmRangex s k) (hmChopRip s k) (hmGain s k) (if (!false) = true then data else 0))).rd I.hmDwell k + 1)
      else s.wr F.HMN_SNS_DATA_WORD (hmInput s k) (hmWord (!false) (hmUnsettled s k) (hmRangex s k) (hmChopRip s k) (hmGain s k) (if (!false) = true then data else 0))) = u := by
    rw [State.rd_wr_cell _ _ _ _ _ _ (by decide)]
    show _ = puts s (w :: _)
    by_cases hd : s.rd I.hmDwell k < 255
    · rw [if_pos hd, if_pos (by simpa using hd)]; rfl
    · rw [if_neg hd, if_neg (by simpa using hd)]; rfl
  rw [e]
  clear e
  clear_value u
  obtain ⟨c1, c2, c3, c4⟩ := hu.checks k
  rw [c1, c2, c3, c4]
  by_cases hc : hmUnsettled s k = false ∧ hmRangex s k = false ∧ hmChopRip s k = false
  · rw [if_pos hc, if_pos (by rw [hc.1, hc.2.1, hc.2.2]; rfl)]
  · rw [if_neg hc, if_neg]
    intro hh
    simp only [Bool.and_eq_true, Bool.not_eq_true', Bool.not_false] at hh
    exact hc ⟨hh.1.1.2, hh.1.2, hh.2⟩

theorem coarse_says (s : State) (k code : Nat) :
    let above := s.on F.HMN_SLC_CCFG_OVEN k && decide (signedOf 16 (s.rd F.HMN_SLC_COARSE_COVER k) ≤ signedOf 16 code)
    let below := s.on F.HMN_SLC_CCFG_UNEN k && decide (signedOf 16 code ≤ signedOf 16 (s.rd F.HMN_SLC_COARSE_CUNDER k))
    let u := puts s [(F.HMN_SLC_CDATA_CODE, k, code), (F.HMN_SLC_CDATA_VALID, k, b2n (decide (s.rd I.hmRst k + hmDelay s k + 48 ≤ s.rd I.hmNow 0)))]
    let met := puts s ([(F.HMN_SLC_CDATA_CODE, k, code), (F.HMN_SLC_CDATA_VALID, k, b2n (decide (s.rd I.hmRst k + hmDelay s k + 48 ≤ s.rd I.hmNow 0)))] ++ [(F.HMN_SLC_STAT_OVER, k, b2n above), (F.HMN_SLC_STAT_UNDER, k, b2n below)])
    coarseSample s k code = if coarseActs s k = false then u else
      let a := if above = true then hmAct ((hmThrottle met).wr F.HMN_SLC_STAT_OVEVT k 1) ((hmThrottle met).rd F.HMN_SLC_CCFG_OVACT k) F.HMN_IRQSTAT_COARSE else hmThrottle met
      if below = true then hmAct (a.wr F.HMN_SLC_STAT_UNEVT k 1) (a.rd F.HMN_SLC_CCFG_UNACT k) F.HMN_IRQSTAT_COARSE else a := by
  intro above below u met
  have hu : ∀ (q : Fld) (j : Nat), F.HMN_SLC_CDATA_CODE.id ≠ q.id → F.HMN_SLC_CDATA_VALID.id ≠ q.id → u.rd q j = s.rd q j := by
    intro q j h1 h2
    exact (State.rd_wr_cell _ _ _ _ _ _ h2).trans (State.rd_wr_cell _ _ _ _ _ _ h1)
  have e0 : (s.wr F.HMN_SLC_CDATA_CODE k code).wr F.HMN_SLC_CDATA_VALID k (b2n (decide (s.rd I.hmRst k + hmDelay s k + 48 ≤ s.rd I.hmNow 0))) = u := rfl
  have em : met = (u.wr F.HMN_SLC_STAT_OVER k (b2n above)).wr F.HMN_SLC_STAT_UNDER k (b2n below) := rfl
  have ec : coarseActs u k = coarseActs s k := by
    unfold coarseActs
    simp (disch := decide) only [State.on_eq, hu _ _]
  have eo : (u.on F.HMN_SLC_CCFG_OVEN k && decide (signedOf 16 (u.rd F.HMN_SLC_COARSE_COVER k) ≤ signedOf 16 code)) = above := by
    simp (disch := decide) only [State.on_eq, hu _ _]; rfl
  have eu : (u.on F.HMN_SLC_CCFG_UNEN k && decide (signedOf 16 code ≤ signedOf 16 (u.rd F.HMN_SLC_COARSE_CUNDER k))) = below := by
    simp (disch := decide) only [State.on_eq, hu _ _]; rfl
  unfold coarseSample
  dsimp only
  rw [e0, ec, eo, eu, ← em]
  cases coarseActs s k
  · rfl
  · simp only [Bool.not_true, Bool.false_eq_true, if_false, reduceCtorEq]

theorem hmThrottles_cell (s : State) (f : Fld) (i v : Nat) (h : ∀ q ∈ [F.HMN_SNS_STAT_HIACT, F.HMN_SNS_THRCFG_ACTHI, F.HMN_SNS_STAT_LOACT, F.HMN_SNS_THRCFG_ACTLO, F.HMN_SLC_STAT_OVER, F.HMN_SLC_CCFG_OVACT, F.HMN_SLC_STAT_UNDER, F.HMN_SLC_CCFG_UNACT], f.id ≠ q.id) :
    hmThrottles (s.wr f i v) = hmThrottles s := by
  have r : ∀ q ∈ [F.HMN_SNS_STAT_HIACT, F.HMN_SNS_THRCFG_ACTHI, F.HMN_SNS_STAT_LOACT, F.HMN_SNS_THRCFG_ACTLO, F.HMN_SLC_STAT_OVER, F.HMN_SLC_CCFG_OVACT, F.HMN_SLC_STAT_UNDER, F.HMN_SLC_CCFG_UNACT], ∀ j, (s.wr f i v).rd q j = s.rd q j :=
    fun q hq j => State.rd_wr_cell _ _ _ _ _ _ (h q hq)
  unfold hmThrottles
  simp only [State.on_eq]
  simp only [r F.HMN_SNS_STAT_HIACT (by simp), r F.HMN_SNS_THRCFG_ACTHI (by simp), r F.HMN_SNS_STAT_LOACT (by simp), r F.HMN_SNS_THRCFG_ACTLO (by simp), r F.HMN_SLC_STAT_OVER (by simp), r F.HMN_SLC_CCFG_OVACT (by simp), r F.HMN_SLC_STAT_UNDER (by simp), r F.HMN_SLC_CCFG_UNACT (by simp)]

theorem hmThrottle_same (s : State) (h : bitOf (s.rd I.throtSrc 0) 2 = hmThrottles s) : hmThrottle s = s := by
  unfold hmThrottle
  rw [if_pos (by rw [h]; exact beq_self_eq_true _)]

end Sys2Proof.Machine
end

