-- ==== Sys2Proof/Laws/CaseCwy.lean ====
section
/-! SUPPORT.  How a received Causeway frame is checked. -/

namespace Sys2Proof.Machine

open Safety

theorem cwTrim_whole (l : Nat) (b : List Byte) (h : b.length = 20 + cwLen b) : cwTrim l b = b := by
  unfold cwTrim
  split
  · rw [← h, List.take_length]
  · rfl

theorem cwTrim_pad (l : Nat) (b pad : List Byte) (hl : 6 ≤ l) (h : b.length = 20 + cwLen b) : cwTrim l (b ++ pad) = b := by
  have e : cwLen (b ++ pad) = cwLen b := by
    unfold cwLen beAt
    rw [List.drop_append_of_le_length (by omega), List.take_append_of_le_length (by rw [List.length_drop]; omega)]
  unfold cwTrim isTunnel
  rw [if_pos (by simpa using hl), e, List.take_append_of_le_length (by omega), ← h, List.take_length]

theorem linkCnt_room (s : State) (l k : Nat) (h : s.rd F.CWY_L_CNT_COUNT (6 * l + k) + 2 < 2 ^ 32) : linkCnt s l k = puts s [(F.CWY_L_CNT_COUNT, 6 * l + k, s.rd F.CWY_L_CNT_COUNT (6 * l + k) + 1)] := by
  unfold linkCnt
  rw [bumpBy_room _ _ _ _ _ h]
  rfl

theorem cwCnt_room (s : State) (k : Nat) (h : s.rd F.CWY_CNT_COUNT k + 2 < 2 ^ 32) : cwCnt s k = puts s [(F.CWY_CNT_COUNT, k, s.rd F.CWY_CNT_COUNT k + 1)] := by
  unfold cwCnt
  rw [bump_room _ _ _ _ h]
  rfl

/-- The state in which a whole frame has been counted. -/
def taken1 (s : State) (l : Nat) : State := puts s [(F.CWY_L_CNT_COUNT, 6 * l + 1, s.rd F.CWY_L_CNT_COUNT (6 * l + 1) + 1)]

theorem receive_whole (s : State) (l sub : Nat) (b : List Byte) (h : FrameWhole s l b) :
    cwReceive s l sub b = if 13 ≤ byteAt b 0 % 16 then cwCnt (taken1 s l) 9 else
      (if cwSequenced (byteAt b 0 % 16) && beAt b 8 2 != (cwAck (taken1 s l) l (beAt b 10 2)).rd I.cwRx l then cwAck (taken1 s l) l (beAt b 10 2)
        else cwRouteFrame (cwAck (taken1 s l) l (beAt b 10 2)) l sub (cwParse b)) := by
  obtain ⟨h1, h2, h3, h4, h5, h6⟩ := h
  unfold cwReceive
  dsimp only
  rw [cwTrim_whole l b h2, if_neg (by omega), if_neg (by omega), if_neg (by rw [h4]; simp), if_neg (by rw [h5]; simp; omega), linkCnt_room _ _ _ h6]
  rfl

theorem ack_none (s : State) (l ack : Nat) (h : (linkOf s l).replay = []) : cwAck s l ack = s := by
  unfold cwAck
  dsimp only
  rw [h]
  rfl

theorem receive_in_place (s : State) (l sub : Nat) (b : List Byte) (h : FrameInPlace s l b) : cwReceive s l sub b = cwRouteFrame (taken1 s l) l sub (cwParse b) := by
  obtain ⟨h1, h2, h3, h4⟩ := h
  rw [receive_whole s l sub b h1, if_neg (by omega), ack_none _ _ _ (show (linkOf (taken1 s l) l).replay = [] from h3), if_neg]
  intro hh
  rw [Bool.and_eq_true] at hh
  have := h4 hh.1
  have e : (taken1 s l).rd I.cwRx l = s.rd I.cwRx l := State.rd_wr_cell _ F.CWY_L_CNT_COUNT _ _ _ _ (by decide)
  rw [e, this] at hh
  exact absurd hh.2 (by simp)

theorem advance_says (s : State) (l : Nat) (b : List Byte) : cwAdvance (taken1 s l) l (cwParse b) = puts s (arrived s l b) := by
  have e : (taken1 s l).rd I.cwRx l = s.rd I.cwRx l := State.rd_wr_cell _ F.CWY_L_CNT_COUNT _ _ _ _ (by decide)
  unfold cwAdvance arrived
  rw [e]
  by_cases hq : cwSequenced (byteAt b 0 % 16) = true
  · rw [if_pos hq, if_pos (show cwSequenced (cwParse b).type = true from hq)]; rfl
  · rw [if_neg hq, if_neg (show ¬ cwSequenced (cwParse b).type = true from hq)]; rfl

theorem arrived_cell (s : State) (l : Nat) (b : List Byte) (q : Fld) (j : Nat) (h1 : F.CWY_L_CNT_COUNT.id ≠ q.id) (h2 : I.cwRx.id ≠ q.id) : (puts s (arrived s l b)).rd q j = s.rd q j := by
  refine puts_cell _ _ _ _ fun p hp => ?_
  unfold arrived at hp
  rw [List.mem_cons] at hp
  rcases hp with rfl | hp
  · exact h1
  · split at hp
    · simp only [List.mem_cons, List.not_mem_nil, or_false] at hp
      subst hp; exact h2
    · simp at hp

theorem taken1_cell (s : State) (l : Nat) (q : Fld) (j : Nat) (h : F.CWY_L_CNT_COUNT.id ≠ q.id) : (taken1 s l).rd q j = s.rd q j := State.rd_wr_cell _ _ _ _ _ _ h

theorem room_taken (s : State) (l j : Nat) : cwRoom (taken1 s l) j = cwRoom s j := by
  unfold cwRoom maxFrm
  rw [State.on_eq, taken1_cell _ _ _ _ (by decide), taken1_cell _ _ _ _ (by decide), taken1_cell _ _ _ _ (by decide), ← State.on_eq]

theorem forward_taken (s : State) (l : Nat) (f : CwFrame) : f.hops ≠ 0 → s.rd F.CWY_ROUTE_VALID f.dst = 1 → s.rd F.CWY_ROUTE_LINK f.dst < 14 → cwForward (taken1 s l) l f =
      (if (!cwUp (taken1 s l) (s.rd F.CWY_ROUTE_LINK f.dst)) = true then cwAdvance (taken1 s l) l f
      else if cwRoom (taken1 s l) (s.rd F.CWY_ROUTE_LINK f.dst) < f.payload.length then
        if f.type = cwPKTFWD then cwCnt (taken1 s l) 8 else cwAdvance (taken1 s l) l f
      else if (cwSequenced f.type && !(replayRoom (taken1 s l) (s.rd F.CWY_ROUTE_LINK f.dst) f && (linkOf (taken1 s l) (s.rd F.CWY_ROUTE_LINK f.dst)).waiting.isEmpty)) = true then taken1 s l
      else cwGive (cwAdvance (taken1 s l) l f) (s.rd F.CWY_ROUTE_LINK f.dst) 0 { f with hops := f.hops - 1 }) := by
  intro p3 p4 p5
  unfold cwForward
  dsimp only
  rw [taken1_cell _ _ F.CWY_ROUTE_LINK _ (by decide), State.on_eq, taken1_cell _ _ F.CWY_ROUTE_VALID _ (by decide), if_neg]
  have : ¬ 14 ≤ s.rd F.CWY_ROUTE_LINK f.dst := by omega
  simp [p3, p4, this]

theorem puts_links (s : State) (l : List (Fld × Nat × Nat)) : (puts s l).links = s.links := by
  induction l generalizing s with
  | nil => rfl
  | cons x r ih => exact ih (s.wr x.1 x.2.1 x.2.2)

end Sys2Proof.Machine
end

