-- ==== Sys2Proof/Laws/CaseCwyTake.lean ====
section
/-! SUPPORT.  What the Causeway frames that a device consumes do. -/

namespace Sys2Proof.Machine

open Safety

theorem receive_ours (s : State) (l sub : Nat) (b : List Byte) (hp : FrameInPlace s l b) (h : FrameOurs s l b) : cwReceive s l sub b = cwConsume (puts s (arrived s l b)) l sub (cwParse b) := by
  rw [receive_in_place _ _ _ _ hp]
  have t1 : ∀ (q : Fld) (j : Nat), F.CWY_L_CNT_COUNT.id ≠ q.id → (taken1 s l).rd q j = s.rd q j := fun q j h => State.rd_wr_cell _ _ _ _ _ _ h
  unfold FrameOurs at h
  by_cases hloc : cwLocal (cwParse b).type = true
  · unfold cwRouteFrame
    rw [if_pos hloc]
    have hns : cwSequenced (byteAt b 0 % 16) = false := by
      have : cwLocal (byteAt b 0 % 16) = true := hloc
      unfold cwLocal at this
      simp only [Bool.or_eq_true, beq_iff_eq] at this
      rcases this with (h | h) | h <;> rw [h] <;> rfl
    have : puts s (arrived s l b) = taken1 s l := by
      unfold arrived
      rw [if_neg (by rw [hns]; decide)]; rfl
    rw [this]
  · rcases h with h | h
    · exact absurd h hloc
    · obtain ⟨h1, h2, h3, h4⟩ := h
      have hup : cwUp (taken1 s l) l = true := by unfold cwUp at *; rw [State.on_eq, t1 _ _ (by decide), ← State.on_eq]; exact h2
      have hlk : devLocked (taken1 s l) = true := by unfold devLocked at *; rw [State.on_eq, t1 _ _ (by decide), ← State.on_eq]; exact h3
      have hown : ownDev (taken1 s l) = s.rd F.SYS_DEVNUM_DEVNUM 0 := by unfold ownDev; rw [hlk, if_pos rfl, t1 _ _ (by decide)]
      unfold cwRouteFrame
      rw [if_neg hloc, t1 F.CWY_EPOCH_EPOCH _ (by decide), h1, if_neg (by simp), hup, hlk, if_neg (by decide), hown, if_pos h4, advance_says]

theorem linkTake_says (s : State) (l : Nat) (f : CwFrame) :
    let w := puts s [(F.CWY_L_STAT_DNV, l, byteAt f.payload 0 / 128), (F.CWY_L_STAT_PEERDEV, l, beAt f.payload 2 2 % 2048), (F.CWY_L_PEEREPOCH_EPOCH, l, f.epoch), (I.cwGot, l, 1)]
    (¬ (s.rd F.CWY_L_STAT_STATE l = ckHELLO ∧ s.rd I.cwSent l = 1) → linkTake s l f = w) ∧
    ((s.rd F.CWY_L_STAT_STATE l = ckHELLO ∧ s.rd I.cwSent l = 1) → 6 ≤ l → linkTake s l f = puts w [(F.CWY_L_STAT_STATE, l, ckUP), (F.CWY_L_STAT_UP, l, 1), (F.CWY_L_STAT_LINKCHG, l, 1), (F.CWY_IRQSTAT_LINK, 0, 1),
        (I.cwRounds, l, 0), (I.cwTx, l, 0), (I.cwRx, l, 0), (I.tmHave, l, 0)]) := by
  intro w
  have hw : linkTake s l f = cwHello w l := rfl
  have g : w.rd I.cwGot l = 1 := State.rd_wr_same _ _ _ _
  have c1 : w.rd F.CWY_L_STAT_STATE l = s.rd F.CWY_L_STAT_STATE l := puts_cell _ _ _ _ (by simp; decide)
  have c2 : w.rd I.cwSent l = s.rd I.cwSent l := puts_cell _ _ _ _ (by simp; decide)
  rw [hw]
  clear_value w
  unfold cwHello
  rw [c1, on_of 1 g]
  refine ⟨fun h => ?_, fun h hl => ?_⟩
  · rw [if_neg]
    intro hh
    simp only [Bool.and_eq_true, beq_iff_eq] at hh
    rw [on_one rfl, c2] at hh
    exact h ⟨hh.1.1, hh.1.2⟩
  · rw [if_pos (by rw [h.1, on_of 1 (c2.trans h.2)]; rfl)]
    unfold cwEnterUp isTunnel
    dsimp only
    rw [if_pos (by simpa using hl)]
    rfl

theorem stamp_cells (s t : State) (i b sub : Nat) (h : ∀ q ∈ [F.TMU_TB_NS_NS, I.tbFrac, F.TMU_LAT_RX_LAT], ∀ j, t.rd q j = s.rd q j) : rxStamp t i b sub = rxStamp s i b sub := by
  unfold rxStamp stamp latRx
  rw [h _ (by simp), h _ (by simp), h _ (by simp)]

theorem timeTake_says (s : State) (l sub : Nat) (p : List Byte) :
    let st := rxStamp s (stampPlace s l) (s.rd F.CWY_L_CFG_TTB l) sub
    let follows := s.rd I.tmHave l = 1 ∧ beAt p 0 2 = (s.rd I.tmRxSeq l + 1) % 65536 ∧ timeKept s l (s.rd I.tmOurs l) = true
    let kept := 16 * l + s.rd I.tmOurs l % 16
    let latch := [(F.CWY_L_TT_VALUE, 4 * l, s.rd I.tmTxNs kept), (F.CWY_L_TT_VALUE, 4 * l + 1, s.rd I.tmT2 l), (F.CWY_L_TT_VALUE, 4 * l + 2, beAt p 8 4), (F.CWY_L_TT_VALUE, 4 * l + 3, s.rd I.tmRxNs l),
      (F.CWY_L_TTFRAC_VALUE, l, s.rd I.tmTxFr kept * 2 ^ 24 + s.rd I.tmT2Fr l * 2 ^ 16 + byteAt p 13 * 256 + s.rd I.tmRxFr l), (F.CWY_L_TTSEQ_VALUE, l, 2 ^ 31 + (s.rd F.CWY_L_TTSEQ_VALUE l + 1) % 65536)]
    timeTake s l sub p = puts s ((if follows then latch else []) ++ [(I.tmRxSeq, l, beAt p 0 2), (I.tmRxNs, l, st / 256), (I.tmRxFr, l, st % 256), (I.tmOurs, l, beAt p 2 2), (I.tmT2, l, beAt p 4 4), (I.tmT2Fr, l, byteAt p 12), (I.tmHave, l, 1)]) := by
  intro st follows kept latch
  have hl : timeLatch s l p = puts s latch := by
    unfold timeLatch
    simp (disch := decide) only [State.rd_wr_cell]
    rfl
  rw [puts_append]
  unfold timeTake
  by_cases hf : follows
  · have hf' : (s.on I.tmHave l && beAt p 0 2 == (s.rd I.tmRxSeq l + 1) % 65536 && timeKept s l (s.rd I.tmOurs l)) = true := by
      rw [on_of 1 hf.1, hf.2.1, hf.2.2]; simp
    rw [if_pos hf]
    dsimp only
    rw [hf', if_pos rfl, hl]
    rfl
  · have hf' : (s.on I.tmHave l && beAt p 0 2 == (s.rd I.tmRxSeq l + 1) % 65536 && timeKept s l (s.rd I.tmOurs l)) = false := by
      cases hh : (s.on I.tmHave l && beAt p 0 2 == (s.rd I.tmRxSeq l + 1) % 65536 && timeKept s l (s.rd I.tmOurs l))
      · rfl
      · rw [Bool.and_eq_true, Bool.and_eq_true, on_one rfl, beq_iff_eq] at hh
        exact absurd ⟨hh.1.1, hh.1.2, hh.2⟩ hf
    rw [if_neg hf]
    dsimp only
    rw [hf', if_neg (by decide)]
    rfl

theorem mboxTake_says (s : State) (src epoch : Nat) (p : List Byte) :
    let place := ringPlace (s.rd F.CWY_MBR_BASE_BASE 0) (s.rd F.CWY_MBR_CFG_SIZE 0) (s.rd F.CWY_MBR_WP_WP 0) (s.rd F.CWY_MBR_RP_RP 0) 256
    let ok := s.rd F.FUS_PMMISC_RMBOX 0 = 1 ∧ p.length ≤ 240
    (∀ a, ok → place = some a → mboxTake s src epoch p = puts (physWrite s a (leBytes 4 (p.length * 65536 + src) ++ leBytes 4 epoch ++ leBytes 4 (s.rd F.TMU_TB_NS_NS 0) ++ [0, 0, 0, 0] ++ p))
      [(F.CWY_MBR_WP_WP, 0, s.rd F.CWY_MBR_WP_WP 0 + 1), (F.CWY_IRQSTAT_MBRX, 0, 1)]) ∧
    (¬ ok ∨ place = none → mboxTake s src epoch p = cwCnt s 5) := by
  intro place ok
  have hplace : ringPlace (s.rd F.CWY_MBR_BASE_BASE 0) (s.rd F.CWY_MBR_CFG_SIZE 0) (s.rd F.CWY_MBR_WP_WP 0) (s.rd F.CWY_MBR_RP_RP 0) 256 = place := rfl
  unfold mboxTake
  dsimp only
  rw [hplace]
  clear_value place
  refine ⟨fun a h1 h2 => ?_, fun h => ?_⟩
  · rw [if_pos (by rw [on_of 1 h1.1]; simpa using h1.2), h2]
    dsimp only
    obtain ⟨-, hc, -⟩ := physWrite_says s a (leBytes 4 (p.length * 65536 + src) ++ leBytes 4 epoch ++ leBytes 4 (s.rd F.TMU_TB_NS_NS 0) ++ [0, 0, 0, 0] ++ p)
    rw [hc F.CWY_MBR_WP_WP 0 (by decide)]
    rfl
  · by_cases ho : ok
    · rw [if_pos (by rw [on_of 1 ho.1]; simpa using ho.2)]
      rcases h with h | h
      · exact absurd ho h
      · rw [h]
    · rw [if_neg]
      intro hh
      rw [Bool.and_eq_true, on_one rfl] at hh
      exact ho ⟨hh.1, by simpa using hh.2⟩

theorem slot_one (s : State) (p : List Byte) (h : p.length = (if bitOf (beAt p 0 4) 15 = true then 64 else 32) + 4) :
    bridgeTake s p 64 = bridgeSlot s (beAt p 0 4 % 1024) (bitOf (beAt p 0 4) 15) (p.drop 4) := by
  have hn : (if bitOf (beAt p 0 4) 15 = true then 68 else 36) = p.length := by rw [h]; split <;> rfl
  unfold bridgeTake
  dsimp only
  rw [hn, if_neg (by omega), List.take_length, List.drop_length]
  generalize bridgeSlot s (beAt p 0 4 % 1024) (bitOf (beAt p 0 4) 15) (p.drop 4) = u
  rfl

theorem slot_taken (s : State) (b : Nat) (wb : Bool) (slot : List Byte) :
    let binds := s.rd F.CWY_BR_CFG_EN b = 1 ∧ s.on F.CWY_BR_CFG_WB b = wb
    let size := if wb then 64 else 32
    (binds → s.rd F.CWY_BR_CFG_KIND b = 2 → bridgeSlot s b wb slot = physWrite s (rxRing (s.rd F.CWY_BR_CFG_RING b) + size * (s.rd F.TDX_BLKCNT_BLOCK 0 % 4)) slot) ∧
    (binds → s.rd F.CWY_BR_CFG_KIND b = 3 → bridgeSlot s b wb slot = physWrite s (txRing (s.rd F.CWY_BR_CFG_RING b) + size * ((s.rd F.TDX_BLKCNT_BLOCK 0 + 1) % 4)) slot) ∧
    (¬ binds ∨ s.rd F.CWY_BR_CFG_KIND b < 2 → bridgeSlot s b wb slot = cwCnt s 4) := by
  intro binds size
  have hb : binds → (s.on F.CWY_BR_CFG_EN b && s.on F.CWY_BR_CFG_WB b == wb) = true := by
    intro h; rw [on_of 1 h.1, h.2]; simp
  have hnb : ¬ binds → (s.on F.CWY_BR_CFG_EN b && s.on F.CWY_BR_CFG_WB b == wb) = false := by
    intro h
    cases hh : (s.on F.CWY_BR_CFG_EN b && s.on F.CWY_BR_CFG_WB b == wb)
    · rfl
    · rw [Bool.and_eq_true, on_one rfl, beq_iff_eq] at hh
      exact absurd hh h
  refine ⟨fun h1 h2 => ?_, fun h1 h2 => ?_, fun h => ?_⟩
  · unfold bridgeSlot
    dsimp only
    rw [hb h1, if_pos rfl, h2]
    rfl
  · unfold bridgeSlot
    dsimp only
    rw [hb h1, if_pos rfl, h2]
    rfl
  · by_cases h1 : binds
    · rcases h with h | h
      · exact absurd h1 h
      · unfold bridgeSlot
        dsimp only
        rw [hb h1, if_pos rfl]
        generalize s.rd F.CWY_BR_CFG_KIND b = kd at h
        match kd, h with
        | 0, _ => rfl
        | 1, _ => rfl
    · unfold bridgeSlot
      dsimp only
      rw [hnb h1, if_neg (by decide)]

theorem bootTake_data (s : State) (p : List Byte) (h1 : beAt p 0 4 = 1) (h2 : beAt p 4 4 + (p.length - 8) ≤ 0x800000) (h3 : beAt p 4 4 < 0x800000) :
    bootTake s p = s.writeBytes (0x20000000 + beAt p 4 4) (p.drop 8) := by
  have : (inSymPks (0x20000000 + beAt p 4 4) (p.length - 8) && decide (beAt p 4 4 < 0x800000)) = true := by
    unfold inSymPks
    simp only [Bool.and_eq_true, Bool.or_eq_true, decide_eq_true_eq]
    exact ⟨Or.inl ⟨by omega, by omega⟩, h3⟩
  have e : bootTake s p = (if inSymPks (0x20000000 + beAt p 4 4) (p.length - 8) && decide (beAt p 4 4 < 0x800000) then s.writeBytes (0x20000000 + beAt p 4 4) (p.drop 8) else s) := by
    unfold bootTake
    rw [h1]
    rfl
  rw [e, if_pos this]

theorem racc_write (s : State) (src : Nat) (p : List Byte) (h : bitOf (byteAt p 0) 7 = true) : raccTake s src p =
    cwSend (busWrite s .racc (byteAt p 7 * 2 ^ 32 + beAt p 8 4) (leBytes 4 (beAt p 12 4))).2 0 cwRRSP src
      (beBytes 4 (raccStatus (busWrite s .racc (byteAt p 7 * 2 ^ 32 + beAt p 8 4) (leBytes 4 (beAt p 12 4))).1 * 2 ^ 24 + beAt p 2 2) ++ beBytes 4 0) := by
  unfold raccTake
  rw [h]
  simp only [if_true]

theorem racc_read (s : State) (src : Nat) (p : List Byte) (h : bitOf (byteAt p 0) 7 = false) : raccTake s src p =
    cwSend (busRead s .racc (byteAt p 7 * 2 ^ 32 + beAt p 8 4) 4).2.2 0 cwRRSP src
      (beBytes 4 (raccStatus (busRead s .racc (byteAt p 7 * 2 ^ 32 + beAt p 8 4) 4).1 * 2 ^ 24 + beAt p 2 2) ++ beBytes 4 (busRead s .racc (byteAt p 7 * 2 ^ 32 + beAt p 8 4) 4).2.1) := by
  unfold raccTake
  rw [h]
  simp only [Bool.false_eq_true, if_false]

end Sys2Proof.Machine
end

