-- ==== Sys2Proof/Laws/CaseCwySend.lean ====
section
/-! SUPPORT.  How Causeway sends. -/

namespace Sys2Proof.Machine

open Safety

/-- The cells that sending looks at, beside a link's counter of sent frames. -/
def routeCells : List Fld := [F.SYS_DEVNUM_LOCKED, F.SYS_DEVNUM_DEVNUM, F.CWY_ROUTE_LINK, F.CWY_ROUTE_VALID, F.CWY_L_STAT_UP, F.CWY_EPOCH_EPOCH, F.CWY_CNT_COUNT]

/-- The cells that sending looks at. -/
def sendCells : List Fld := F.CWY_L_CNT_COUNT :: routeCells

/-- Two states send alike. -/
def SendAlike (s t : State) : Prop := (∀ q ∈ routeCells, ∀ j, t.rd q j = s.rd q j) ∧ t.links = s.links ∧ ∀ k, t.rd F.CWY_L_CNT_COUNT (6 * k) = s.rd F.CWY_L_CNT_COUNT (6 * k)

theorem puts_alike (s : State) (l : List (Fld × Nat × Nat)) (h : ∀ p ∈ l, ∀ q ∈ sendCells, p.1.id ≠ q.id) : SendAlike s (puts s l) :=
  ⟨fun q hq j => puts_cell _ _ _ _ fun p hp => h p hp q (List.mem_cons_of_mem _ hq), puts_links s l, fun _ => puts_cell _ _ _ _ fun p hp => h p hp _ (List.mem_cons_self ..)⟩

theorem alike_ids (s : State) (l : List (Fld × Nat × Nat)) (ids : List Nat) (h : l.map (fun p => p.1.id) = ids) (h2 : ∀ a ∈ ids, ∀ q ∈ sendCells, a ≠ q.id) : SendAlike s (puts s l) :=
  puts_alike s l fun p hp q hq => h2 _ (h ▸ List.mem_map_of_mem hp) q hq

theorem SendAlike.trans {s t u : State} (h : SendAlike s t) (k : SendAlike t u) : SendAlike s u :=
  ⟨fun q hq j => (k.1 q hq j).trans (h.1 q hq j), k.2.1.trans h.2.1, fun i => (k.2.2 i).trans (h.2.2 i)⟩

theorem SendAlike.says {s t : State} (h : SendAlike s t) (dev : Nat) : devLocked t = devLocked s ∧ ownDev t = ownDev s ∧ cwRoute t dev = cwRoute s dev ∧ t.rd F.CWY_EPOCH_EPOCH 0 = s.rd F.CWY_EPOCH_EPOCH 0 ∧
    t.rd F.CWY_CNT_COUNT 0 = s.rd F.CWY_CNT_COUNT 0 ∧ (∀ k f, LinkOpen t k f ↔ LinkOpen s k f) := by
  obtain ⟨h, hl, hc⟩ := h
  have e1 : devLocked t = devLocked s := by unfold devLocked; rw [State.on_eq, h _ (by simp [routeCells]), ← State.on_eq]
  refine ⟨e1, ?_, ?_, h _ (by simp [routeCells]) _, h _ (by simp [routeCells]) _, fun k f => ?_⟩
  · unfold ownDev; rw [e1, h _ (by simp [routeCells])]
  · unfold cwRoute cwUp
    dsimp only
    rw [h F.CWY_ROUTE_LINK (by simp [routeCells]), State.on_eq t, h F.CWY_ROUTE_VALID (by simp [routeCells]), State.on_eq t, h F.CWY_L_STAT_UP (by simp [routeCells])]
    simp only [State.on_eq]
    rfl
  · unfold LinkOpen replayRoom linkOf
    rw [hl, hc]

theorem transmit_says (s : State) (l seq : Nat) (f : CwFrame) (hl : l < 6) (hr : s.rd F.CWY_L_CNT_COUNT (6 * l) + 2 < 2 ^ 32) : cwTransmit s l seq f = sentOnce s l seq f := by
  unfold cwTransmit isTunnel
  dsimp only
  rw [if_neg (by simp; omega), linkCnt_room s l 0 (by rw [Nat.add_zero]; exact hr)]
  rfl

theorem place_says (s : State) (l who : Nat) (f : CwFrame) (h : LinkOpen s l f) : cwPlace s l who f = cwPlaced (sentFrame s l f) who := by
  obtain ⟨h1, h2, h3, h4⟩ := h
  have hc : (setLink (s.wr I.cwTx l (s.rd I.cwTx l + 1)) l { linkOf s l with replay := (linkOf s l).replay ++ [(s.rd I.cwTx l, f)] }).rd F.CWY_L_CNT_COUNT (6 * l) = s.rd F.CWY_L_CNT_COUNT (6 * l) := by
    show (s.wr I.cwTx l (s.rd I.cwTx l + 1)).rd F.CWY_L_CNT_COUNT (6 * l) = _
    rw [State.rd_wr_cell _ _ _ _ _ _ (by decide)]
  have hb : cwBytes (setLink (s.wr I.cwTx l (s.rd I.cwTx l + 1)) l { linkOf s l with replay := (linkOf s l).replay ++ [(s.rd I.cwTx l, f)] }) l (s.rd I.cwTx l) f = cwBytes s l (s.rd I.cwTx l) f := by
    unfold cwBytes
    have : (setLink (s.wr I.cwTx l (s.rd I.cwTx l + 1)) l { linkOf s l with replay := (linkOf s l).replay ++ [(s.rd I.cwTx l, f)] }).rd I.cwRx l = s.rd I.cwRx l := by
      show (s.wr I.cwTx l (s.rd I.cwTx l + 1)).rd I.cwRx l = _
      rw [State.rd_wr_cell _ _ _ _ _ _ (by decide)]
    rw [this]
  unfold cwPlace
  dsimp only
  rw [transmit_says _ _ _ _ h1 (by rw [hc]; exact h4)]
  unfold sentOnce
  rw [hb, hc]
  rfl

theorem give_open (s : State) (l who : Nat) (f : CwFrame) (h : LinkOpen s l f) (hq : cwSequenced f.type = true) : cwGive s l who f = cwPlaced (sentFrame s l f) who := by
  unfold cwGive
  dsimp only
  rw [if_pos hq, h.2.1, h.2.2.1, if_pos (by rfl), place_says s l who f h]

theorem give_local (s : State) (l who : Nat) (f : CwFrame) (hl : l < 6) (hr : s.rd F.CWY_L_CNT_COUNT (6 * l) + 2 < 2 ^ 32) (hq : cwLocal f.type = true) : cwGive s l who f = sentOnce s l 0 f := by
  have hns : cwSequenced f.type = false := by
    have this := hq
    unfold cwLocal at this
    simp only [Bool.or_eq_true, beq_iff_eq] at this
    rcases this with (h | h) | h <;> rw [h] <;> rfl
  unfold cwGive
  dsimp only
  rw [hns, if_neg (by decide), hq, if_pos (by rfl), transmit_says _ _ _ _ hl hr]

theorem sendLocal_says (s : State) (l type : Nat) (p : List Byte) (hl : l < 6) (hr : s.rd F.CWY_L_CNT_COUNT (6 * l) + 2 < 2 ^ 32) (hq : cwLocal type = true) :
    cwSendLocal s l type p = sentOnce s l 0 ⟨type, 0, ownDev s, s.rd F.CWY_EPOCH_EPOCH 0, 15, p⟩ := give_local s l 0 ⟨type, 0, ownDev s, s.rd F.CWY_EPOCH_EPOCH 0, 15, p⟩ hl hr hq

/-- Sending from a state that sends like s. -/
theorem send_alike {s t : State} (h : SendAlike s t) (who type dev k : Nat) (p : List Byte) (hq : cwSequenced type = true) :
    (devLocked s = true ∧ cwRoute s dev = some k ∧ LinkOpen s k ⟨type, dev, ownDev s, s.rd F.CWY_EPOCH_EPOCH 0, 15, p⟩ →
      cwSend t who type dev p = cwPlaced (sentFrame t k ⟨type, dev, ownDev s, s.rd F.CWY_EPOCH_EPOCH 0, 15, p⟩) who) ∧
    (devLocked s = false ∨ cwRoute s dev = none → s.rd F.CWY_CNT_COUNT 0 + 2 < 2 ^ 32 → cwSend t who type dev p = match who with
      | 1 => puts t [(F.CWY_CNT_COUNT, 0, s.rd F.CWY_CNT_COUNT 0 + 1), (F.CWY_MBS_CMD_GO, 0, 0), (F.CWY_MBS_CMD_RESULT, 0, 1)]
      | 2 => puts t [(F.CWY_CNT_COUNT, 0, s.rd F.CWY_CNT_COUNT 0 + 1), (F.CWY_FENCECMD_GO, 0, 0), (F.CWY_FENCECMD_RESULT, 0, 1)]
      | 3 => puts t [(F.CWY_CNT_COUNT, 0, s.rd F.CWY_CNT_COUNT 0 + 1), (F.CWY_RA_CMD_GO, 0, 0), (F.CWY_RA_CMD_RESULT, 0, 4)]
      | _ => puts t [(F.CWY_CNT_COUNT, 0, s.rd F.CWY_CNT_COUNT 0 + 1)]) := by
  obtain ⟨e1, e2, e3, e4, e5, e6⟩ := h.says dev
  refine ⟨fun hs => ?_, fun hs hr => ?_⟩
  · unfold cwSend
    rw [e1, hs.1, if_pos rfl, e3, hs.2.1]
    dsimp only
    rw [e2, e4]
    exact give_open t k who _ ((e6 _ _).mpr hs.2.2) hq
  · have hn : (if devLocked t = true then cwRoute t dev else none) = none := by
      rw [e1, e3]
      rcases hs with h | h
      · rw [h]; rfl
      · rw [h]; simp
    unfold cwSend
    rw [hn]
    dsimp only
    unfold cwUnreach
    rw [cwCnt_room _ _ (by rw [e5]; exact hr), e5]
    match who with
    | 0 => rfl
    | 1 => rfl
    | 2 => rfl
    | 3 => rfl
    | n + 4 => rfl

theorem linkCheck_calm (s : State) (h : s.nonzero F.CWY_M_STAT_STATE = []) : migLinkCheck s = s := by
  unfold migLinkCheck
  rw [h]
  rfl

/-- A link goes DOWN once its frames are gone. -/
def downTail (w : State) (l : Nat) : State :=
  let v := if w.on F.CWY_L_STAT_UP l then linkCnt (((w.wr F.CWY_L_STAT_UP l 0).wr F.CWY_L_STAT_LINKCHG l 1).set F.CWY_IRQSTAT_LINK 1) l 4 else w
  let v := ((v.wr F.CWY_L_STAT_STATE l 0).wr I.cwSent l 0).wr I.cwGot l 0
  (v.wr I.cwRounds l 0).wr I.tmHave l 0

theorem cwDown_tail (s : State) (l : Nat) (h0 : s.rd F.CWY_L_STAT_STATE l ≠ 0) (h2 : (linkOf s l).waiting = []) :
    cwDown s l = downTail (linkCnt (setLink s l Link.empty) l 5 (linkOf s l).replay.length) l := by
  unfold cwDown
  rw [if_neg h0]
  dsimp only
  rw [h2]
  rfl

theorem downTail_says (w : State) (l : Nat) (hr : w.rd F.CWY_L_CNT_COUNT (6 * l + 4) + 2 < 2 ^ 32) :
    downTail w l = puts w ((if cwUp w l then [(F.CWY_L_STAT_UP, l, 0), (F.CWY_L_STAT_LINKCHG, l, 1), (F.CWY_IRQSTAT_LINK, 0, 1), (F.CWY_L_CNT_COUNT, 6 * l + 4, w.rd F.CWY_L_CNT_COUNT (6 * l + 4) + 1)] else []) ++
      [(F.CWY_L_STAT_STATE, l, 0), (I.cwSent, l, 0), (I.cwGot, l, 0), (I.cwRounds, l, 0), (I.tmHave, l, 0)]) := by
  have hq : (((w.wr F.CWY_L_STAT_UP l 0).wr F.CWY_L_STAT_LINKCHG l 1).set F.CWY_IRQSTAT_LINK 1).rd F.CWY_L_CNT_COUNT (6 * l + 4) = w.rd F.CWY_L_CNT_COUNT (6 * l + 4) := by
    unfold State.set
    rw [State.rd_wr_cell _ _ _ _ _ _ (by decide), State.rd_wr_cell _ _ _ _ _ _ (by decide), State.rd_wr_cell _ _ _ _ _ _ (by decide)]
  unfold downTail
  rw [linkCnt_room _ _ _ (by rw [hq]; exact hr), hq, puts_append]
  unfold cwUp
  by_cases hu : w.on F.CWY_L_STAT_UP l = true
  · rw [if_pos hu, if_pos hu]; rfl
  · rw [if_neg hu, if_neg hu]; rfl

theorem puts_linked (s : State) (k : Tbl Link) (l : List (Fld × Nat × Nat)) : puts { s with links := k } l = { puts s l with links := k } := by
  induction l generalizing s with
  | nil => rfl
  | cons x r ih => exact ih (s.wr x.1 x.2.1 x.2.2)

theorem down_says (s : State) (l n : Nat) (h0 : s.rd F.CWY_L_STAT_STATE l ≠ 0) (h1 : (linkOf s l).replay.length = n) (h2 : (linkOf s l).waiting = []) (hr : ∀ i, s.rd F.CWY_L_CNT_COUNT i + n + 2 < 2 ^ 32) :
    cwDown s l = { puts s ([(F.CWY_L_CNT_COUNT, 6 * l + 5, s.rd F.CWY_L_CNT_COUNT (6 * l + 5) + n)] ++
      (if cwUp s l then [(F.CWY_L_STAT_UP, l, 0), (F.CWY_L_STAT_LINKCHG, l, 1), (F.CWY_IRQSTAT_LINK, 0, 1), (F.CWY_L_CNT_COUNT, 6 * l + 4, s.rd F.CWY_L_CNT_COUNT (6 * l + 4) + 1)] else []) ++
      [(F.CWY_L_STAT_STATE, l, 0), (I.cwSent, l, 0), (I.cwGot, l, 0), (I.cwRounds, l, 0), (I.tmHave, l, 0)]) with links := Tbl.put Link.empty l Link.empty s.links } := by
  obtain ⟨w, hw⟩ : ∃ w : State, w = { s.wr F.CWY_L_CNT_COUNT (6 * l + 5) (s.rd F.CWY_L_CNT_COUNT (6 * l + 5) + n) with links := Tbl.put Link.empty l Link.empty s.links } := ⟨_, rfl⟩
  have e1 : linkCnt (setLink s l Link.empty) l 5 n = w := by
    unfold linkCnt
    have hq : (setLink s l Link.empty).rd F.CWY_L_CNT_COUNT (6 * l + 5) = s.rd F.CWY_L_CNT_COUNT (6 * l + 5) := rfl
    rw [bumpBy_room _ _ _ _ _ (by rw [hq]; show _ < 2 ^ 32; have := hr (6 * l + 5); omega), hw]
    rfl
  have eu : cwUp w l = cwUp s l := by
    rw [hw]
    show ((s.wr F.CWY_L_CNT_COUNT (6 * l + 5) (s.rd F.CWY_L_CNT_COUNT (6 * l + 5) + n)).on F.CWY_L_STAT_UP l) = _
    unfold cwUp
    rw [State.on_eq, State.rd_wr_cell _ _ _ _ _ _ (by decide), ← State.on_eq]
  have ec : w.rd F.CWY_L_CNT_COUNT (6 * l + 4) = s.rd F.CWY_L_CNT_COUNT (6 * l + 4) := by
    rw [hw]
    show (s.wr F.CWY_L_CNT_COUNT (6 * l + 5) (s.rd F.CWY_L_CNT_COUNT (6 * l + 5) + n)).rd F.CWY_L_CNT_COUNT (6 * l + 4) = _
    exact State.rd_wr_inst _ _ _ _ _ (by omega)
  rw [cwDown_tail s l h0 h2, h1, e1, downTail_says _ _ (by rw [ec]; have := hr (6 * l + 4); omega), eu, ec, hw, puts_linked, List.append_assoc, puts_append s]
  rfl

theorem hello_says (s : State) (l : Nat) (p : List Byte) (f : CwFrame) (hf : f = ⟨cwLINK, 0, ownDev s, s.rd F.CWY_EPOCH_EPOCH 0, 15, p⟩)
    (hp : p = beBytes 4 (b2n (devLocked s) * 2 ^ 31 + ownDev s) ++ [0, 0, 0, 0]) (hl : l < 6) (hr : s.rd F.CWY_L_CNT_COUNT (6 * l) + 2 < 2 ^ 32) :
    (¬ (s.rd F.CWY_L_STAT_STATE l = ckHELLO ∧ s.rd I.cwGot l = 1) → linkSend s l = puts (sentOnce s l 0 f) [(I.cwSent, l, 1)]) ∧
    (s.rd F.CWY_L_STAT_STATE l = ckHELLO ∧ s.rd I.cwGot l = 1 → s.rd F.TMU_LAT_RX_OVR (8 + l) = 1 → linkSend s l = puts (sentOnce s l 0 f) ((I.cwSent, l, 1) ::
      [(F.CWY_L_STAT_STATE, l, ckUP), (F.CWY_L_STAT_UP, l, 1), (F.CWY_L_STAT_LINKCHG, l, 1), (F.CWY_IRQSTAT_LINK, 0, 1), (I.cwRounds, l, 0), (I.cwTx, l, 0), (I.cwRx, l, 0), (I.tmHave, l, 0)])) := by
  have e : linkSend s l = cwHello ((sentOnce s l 0 f).wr I.cwSent l 1) l := by
    unfold linkSend
    rw [sendLocal_says s l cwLINK _ hl hr rfl, hf, hp]
  have r : ∀ (q : Fld) (j : Nat), F.CWY_L_CNT_COUNT.id ≠ q.id → (sentOnce s l 0 f).rd q j = s.rd q j := fun q j h => State.rd_wr_cell s F.CWY_L_CNT_COUNT q _ _ _ h
  rw [e]
  generalize sentOnce s l 0 f = w at r
  have c1 : (w.wr I.cwSent l 1).rd F.CWY_L_STAT_STATE l = s.rd F.CWY_L_STAT_STATE l := by rw [State.rd_wr_cell _ _ _ _ _ _ (by decide), r _ _ (by decide)]
  have c2 : (w.wr I.cwSent l 1).rd I.cwGot l = s.rd I.cwGot l := by rw [State.rd_wr_cell _ _ _ _ _ _ (by decide), r _ _ (by decide)]
  have c3 : (w.wr I.cwSent l 1).rd I.cwSent l = 1 := State.rd_wr_same _ _ _ _
  have c4 : (w.wr I.cwSent l 1).rd F.TMU_LAT_RX_OVR (8 + l) = s.rd F.TMU_LAT_RX_OVR (8 + l) := by rw [State.rd_wr_cell _ _ _ _ _ _ (by decide), r _ _ (by decide)]
  have hp2 : ∀ L, puts w ((I.cwSent, l, 1) :: L) = puts (w.wr I.cwSent l 1) L := fun L => rfl
  rw [hp2, hp2]
  generalize w.wr I.cwSent l 1 = u at *
  unfold cwHello
  rw [c1, on_of 1 c3]
  refine ⟨fun h => ?_, fun h ho => ?_⟩
  · rw [if_neg]
    · rfl
    · intro hh
      simp only [Bool.and_eq_true, beq_iff_eq] at hh
      rw [on_one rfl, c2] at hh
      exact h ⟨hh.1.1, hh.2⟩
  · rw [if_pos (by rw [h.1, on_of 1 (c2.trans h.2)]; rfl)]
    unfold cwEnterUp isTunnel
    dsimp only
    rw [if_neg (by simp; omega)]
    unfold loadLatency
    rw [if_pos]
    · rfl
    · rw [State.on_eq]
      simp (disch := decide) only [State.set_eq_wr, State.rd_wr_cell]
      rw [c4, ho]; rfl

/-- The state after the fields of a message command are written. -/
def mbsFields (s : State) (x : Nat) : State := puts s [(F.CWY_MBS_CMD_BOOT, 0, bitN x 30), (F.CWY_MBS_CMD_LEN, 0, bits x 23 11), (F.CWY_MBS_CMD_DEV, 0, bits x 10 0)]

theorem mbs_says (s : State) (x : Nat) : mbsCmdWrite s x = if bitOf x 31 = true ∧ s.rd F.CWY_MBS_CMD_GO 0 = 0 then
    mbsGo (mbsFields s x)
    else puts s [(F.CWY_MBS_CMD_BOOT, 0, bitN x 30), (F.CWY_MBS_CMD_LEN, 0, bits x 23 11), (F.CWY_MBS_CMD_DEV, 0, bits x 10 0)] := by
  have e : (puts s [(F.CWY_MBS_CMD_BOOT, 0, bitN x 30), (F.CWY_MBS_CMD_LEN, 0, bits x 23 11), (F.CWY_MBS_CMD_DEV, 0, bits x 10 0)]).rd F.CWY_MBS_CMD_GO 0 = s.rd F.CWY_MBS_CMD_GO 0 := puts_cell _ _ _ _ (by simp; decide)
  have e0 : mbsCmdWrite s x = (if bitOf x 31 && !(puts s [(F.CWY_MBS_CMD_BOOT, 0, bitN x 30), (F.CWY_MBS_CMD_LEN, 0, bits x 23 11), (F.CWY_MBS_CMD_DEV, 0, bits x 10 0)]).on F.CWY_MBS_CMD_GO then
    mbsGo (puts s [(F.CWY_MBS_CMD_BOOT, 0, bitN x 30), (F.CWY_MBS_CMD_LEN, 0, bits x 23 11), (F.CWY_MBS_CMD_DEV, 0, bits x 10 0)])
    else puts s [(F.CWY_MBS_CMD_BOOT, 0, bitN x 30), (F.CWY_MBS_CMD_LEN, 0, bits x 23 11), (F.CWY_MBS_CMD_DEV, 0, bits x 10 0)]) := rfl
  rw [e0, State.on_eq, e]
  by_cases h : bitOf x 31 = true ∧ s.rd F.CWY_MBS_CMD_GO 0 = 0
  · rw [if_pos h, if_pos (by rw [h.1, h.2]; rfl)]
    rfl
  · rw [if_neg h, if_neg]
    intro hh
    rw [Bool.and_eq_true] at hh
    exact h ⟨hh.1, by simpa using hh.2⟩

/-- What a message command asks of its message. -/
def MbsOk (s : State) (x : Nat) : Prop := 4 ≤ bits x 23 11 ∧ bits x 23 11 % 4 = 0 ∧ bits x 23 11 ≤ (if bitOf x 30 then 4104 else 240) ∧
  inSymPks (s.rd F.CWY_MBS_ADDR_HI_ADDR 0 * 2 ^ 32 + s.rd F.CWY_MBS_ADDR_LO_ADDR 0) (bits x 23 11) = true

theorem bitN_on (x k : Nat) : (bitN x k != 0) = bitOf x k := by
  unfold bitOf bitN
  have : x / 2 ^ k % 2 < 2 := Nat.mod_lt _ (by decide)
  generalize x / 2 ^ k % 2 = z at *
  match z, this with
  | 0, _ => rfl
  | 1, _ => rfl

theorem mbsFields_reads (s : State) (x : Nat) : (mbsFields s x).rd F.CWY_MBS_CMD_LEN 0 = bits x 23 11 ∧ (mbsFields s x).rd F.CWY_MBS_CMD_DEV 0 = bits x 10 0 ∧
    (mbsFields s x).on F.CWY_MBS_CMD_BOOT = bitOf x 30 ∧ (∀ q j, (∀ c ∈ [F.CWY_MBS_CMD_BOOT, F.CWY_MBS_CMD_LEN, F.CWY_MBS_CMD_DEV], c.id ≠ q.id) → (mbsFields s x).rd q j = s.rd q j) := by
  have b1 : bits x 23 11 < 8192 := Nat.mod_lt _ (by decide)
  have b2 : bits x 10 0 < 2048 := Nat.mod_lt _ (by decide)
  have b3 : bitN x 30 < 2 := Nat.mod_lt _ (by decide)
  refine ⟨?_, ?_, ?_, ?_⟩
  · unfold mbsFields
    simp (disch := decide) only [puts_cons, puts_nil, State.rd_wr_cell, State.rd_wr_same]
    exact Nat.mod_eq_of_lt b1
  · unfold mbsFields
    simp (disch := decide) only [puts_cons, puts_nil, State.rd_wr_cell, State.rd_wr_same]
    exact Nat.mod_eq_of_lt b2
  · unfold mbsFields
    rw [State.on_eq]
    simp (disch := decide) only [puts_cons, puts_nil, State.rd_wr_cell, State.rd_wr_same]
    rw [show (2 : Nat) ^ F.CWY_MBS_CMD_BOOT.w = 2 from rfl, Nat.mod_eq_of_lt b3, bitN_on]
  · intro q j h
    exact puts_cell _ _ _ _ (by
      intro p hp
      simp only [List.mem_cons, List.not_mem_nil, or_false] at hp
      rcases hp with rfl | rfl | rfl <;> exact h _ (by simp))

theorem mbsArg_says (s : State) (x : Nat) : mbsArgOk (mbsFields s x) = true ↔ MbsOk s x := by
  obtain ⟨r1, r2, r3, r4⟩ := mbsFields_reads s x
  unfold mbsArgOk MbsOk
  dsimp only
  rw [r1, r3, r4 F.CWY_MBS_ADDR_HI_ADDR 0 (by decide), r4 F.CWY_MBS_ADDR_LO_ADDR 0 (by decide)]
  simp only [Bool.and_eq_true, decide_eq_true_eq, beq_iff_eq, and_assoc]

theorem mbsGo_bad (s : State) (x : Nat) (h : ¬ MbsOk s x) : mbsGo (mbsFields s x) = puts (mbsFields s x) [(F.CWY_MBS_CMD_RESULT, 0, 2)] := by
  have : mbsArgOk (mbsFields s x) = false := by
    cases hh : mbsArgOk (mbsFields s x)
    · rfl
    · exact absurd ((mbsArg_says s x).mp hh) h
  unfold mbsGo
  dsimp only
  rw [this]
  rfl

theorem mbsGo_mbox (s : State) (x : Nat) (h : MbsOk s x) (h30 : bitOf x 30 = false) : mbsGo (mbsFields s x) =
    cwSend (puts (mbsFields s x) [(F.CWY_MBS_CMD_GO, 0, 1)]) 1 cwMBOX (bits x 10 0) (s.readBytes (s.rd F.CWY_MBS_ADDR_HI_ADDR 0 * 2 ^ 32 + s.rd F.CWY_MBS_ADDR_LO_ADDR 0) (bits x 23 11)) := by
  obtain ⟨r1, r2, r3, r4⟩ := mbsFields_reads s x
  have hm : ∀ a n, (mbsFields s x).readBytes a n = s.readBytes a n := fun a n => rfl
  unfold mbsGo
  dsimp only
  rw [(mbsArg_says s x).mpr h, r3, h30, if_neg (by decide), if_neg (by decide), r1, r2, r4 F.CWY_MBS_ADDR_HI_ADDR 0 (by decide), r4 F.CWY_MBS_ADDR_LO_ADDR 0 (by decide), hm]
  rfl

theorem mbsGo_boot (s : State) (x : Nat) (h : MbsOk s x) (h30 : bitOf x 30 = true) (hl : bits x 10 0 % 16 < 6) (hu : cwUp s (bits x 10 0 % 16) = true) : mbsGo (mbsFields s x) =
    (cwSendLocal (mbsFields s x) (bits x 10 0 % 16) cwBOOT (s.readBytes (s.rd F.CWY_MBS_ADDR_HI_ADDR 0 * 2 ^ 32 + s.rd F.CWY_MBS_ADDR_LO_ADDR 0) (bits x 23 11))).set F.CWY_MBS_CMD_RESULT 0 := by
  obtain ⟨r1, r2, r3, r4⟩ := mbsFields_reads s x
  have hm : ∀ a n, (mbsFields s x).readBytes a n = s.readBytes a n := fun a n => rfl
  have hu' : cwUp (mbsFields s x) (bits x 10 0 % 16) = true := by unfold cwUp at *; rw [State.on_eq, r4 _ _ (by decide), ← State.on_eq]; exact hu
  unfold mbsGo
  dsimp only
  rw [(mbsArg_says s x).mpr h, r3, h30, if_neg (by decide), if_pos (by rfl), r1, r2, r4 F.CWY_MBS_ADDR_HI_ADDR 0 (by decide), r4 F.CWY_MBS_ADDR_LO_ADDR 0 (by decide), hm, hu', if_pos (by simp; omega)]

theorem ra_says (s : State) (x : Nat) : raCmdWrite s x = if bitOf x 31 = true ∧ s.rd F.CWY_RA_CMD_GO 0 = 0 then
    cwSend (puts s [(F.CWY_RA_CMD_WR, 0, bitN x 30), (F.CWY_RA_CMD_DEV, 0, bits x 10 0), (I.raTag, 0, (s.rd I.raTag 0 + 1) % 65536), (F.CWY_RA_CMD_GO, 0, 1)]) 3 cwRACC (bits x 10 0)
      (beBytes 4 (bitN x 30 * 2 ^ 31 + (s.rd I.raTag 0 + 1) % 65536) ++ beBytes 4 (s.rd F.CWY_RA_ADDR_HI_ADDR 0) ++ beBytes 4 (s.rd F.CWY_RA_ADDR_LO_ADDR 0) ++ beBytes 4 (s.rd F.CWY_RA_DATA_DATA 0))
    else puts s [(F.CWY_RA_CMD_WR, 0, bitN x 30), (F.CWY_RA_CMD_DEV, 0, bits x 10 0)] := by
  have b2 : bits x 10 0 < 2048 := Nat.mod_lt _ (by decide)
  have b3 : bitN x 30 < 2 := Nat.mod_lt _ (by decide)
  unfold raCmdWrite
  dsimp only
  simp (disch := decide) only [State.set_eq_wr, State.on_eq, State.rd_wr_cell, State.rd_wr_same]
  rw [show bitN x 30 % 2 ^ F.CWY_RA_CMD_WR.w = bitN x 30 from Nat.mod_eq_of_lt b3, show bits x 10 0 % 2 ^ F.CWY_RA_CMD_DEV.w = bits x 10 0 from Nat.mod_eq_of_lt b2]
  by_cases h : bitOf x 31 = true ∧ s.rd F.CWY_RA_CMD_GO 0 = 0
  · rw [if_pos h, if_pos (by rw [h.1, h.2]; rfl)]
    rfl
  · rw [if_neg h, if_neg]
    · rfl
    · intro hh
      rw [Bool.and_eq_true] at hh
      exact h ⟨hh.1, by simpa using hh.2⟩

theorem fence_says (s : State) (x : Nat) : fencecmdWrite s x = if bitOf x 31 = true ∧ s.rd F.CWY_FENCECMD_GO 0 = 0 then
    cwSend (puts s [(F.CWY_FENCECMD_DEV, 0, bits x 10 0), (F.CWY_FENCECMD_GO, 0, 1)]) 2 cwFENCE (bits x 10 0) []
    else puts s [(F.CWY_FENCECMD_DEV, 0, bits x 10 0)] := by
  have b2 : bits x 10 0 < 2048 := Nat.mod_lt _ (by decide)
  unfold fencecmdWrite
  dsimp only
  simp (disch := decide) only [State.set_eq_wr, State.on_eq, State.rd_wr_cell, State.rd_wr_same]
  rw [show bits x 10 0 % 2 ^ F.CWY_FENCECMD_DEV.w = bits x 10 0 from Nat.mod_eq_of_lt b2]
  by_cases h : bitOf x 31 = true ∧ s.rd F.CWY_FENCECMD_GO 0 = 0
  · rw [if_pos h, if_pos (by rw [h.1, h.2]; rfl)]
    rfl
  · rw [if_neg h, if_neg]
    · rfl
    · intro hh
      rw [Bool.and_eq_true] at hh
      exact h ⟨hh.1, by simpa using hh.2⟩

theorem alike_mb (s : State) (a b c : Nat) : SendAlike s (puts s [(F.CWY_MBS_CMD_BOOT, 0, a), (F.CWY_MBS_CMD_LEN, 0, b), (F.CWY_MBS_CMD_DEV, 0, c)]) := puts_alike _ _ (by simp [sendCells, routeCells]; decide)

theorem alike_msg (s : State) (a b c d : Nat) : SendAlike s (puts s ([(F.CWY_MBS_CMD_BOOT, 0, a), (F.CWY_MBS_CMD_LEN, 0, b), (F.CWY_MBS_CMD_DEV, 0, c)] ++ [(F.CWY_MBS_CMD_GO, 0, d)])) := puts_alike _ _ (by simp [sendCells, routeCells]; decide)

theorem alike_ra (s : State) (a b c d : Nat) : SendAlike s (puts s ([(F.CWY_RA_CMD_WR, 0, a), (F.CWY_RA_CMD_DEV, 0, b)] ++ [(I.raTag, 0, c), (F.CWY_RA_CMD_GO, 0, d)])) := puts_alike _ _ (by simp [sendCells, routeCells]; decide)

theorem alike_fence (s : State) (a b : Nat) : SendAlike s (puts s [(F.CWY_FENCECMD_DEV, 0, a), (F.CWY_FENCECMD_GO, 0, b)]) := puts_alike _ _ (by simp [sendCells, routeCells]; decide)

end Sys2Proof.Machine
end

