-- ==== Sys2Proof/Laws/CaseCwyMig.lean ====
section
/-! SUPPORT.  The migrations: what an entry's operations and its frames say (R460-R466, R469). -/

namespace Sys2Proof.Machine

open Safety

theorem sentFrame_cell (s : State) (k : Nat) (f : CwFrame) (q : Fld) (j : Nat) (h1 : I.cwTx.id ≠ q.id) (h2 : F.CWY_L_CNT_COUNT.id ≠ q.id) : (sentFrame s k f).rd q j = s.rd q j :=
  (State.rd_wr_cell _ _ _ _ _ _ h2).trans (State.rd_wr_cell _ _ _ _ _ _ h1)

/-- What the end of entry m writes. -/
def miEnds (s : State) (m e why : Nat) : List (Fld × Nat × Nat) :=
  [(F.CWY_M_STAT_STATE, m, e), (F.CWY_M_STAT_REASON, m, why), (F.CWY_M_CTL_ABORT, m, 0), (F.CWY_IRQSTAT_MIG, 0, 1)] ++
    (if miSt s m = miCOMMITTED ∨ miSt s m = miGRACE then [(I.ctxMoved, miCid s m, 1)] else []) ++ [(I.ctxMig, miCid s m, 0)]

/-- The context of entry m is no other busy entry's. -/
def MiAlone (s : State) (m : Nat) : Prop := ∀ j, j < 64 → j ≠ m → miBusy s j = false ∨ miCid s j ≠ miCid s m

/-- Two states agree on the entries of migrations. -/
def SameMig (s t : State) : Prop := ∀ q ∈ [F.CWY_M_STAT_STATE, F.CWY_M_CTX_CID, F.CWY_M_CTX_TID, F.CWY_M_PEER_PEERDEV, F.CWY_M_T_T], ∀ j, t.rd q j = s.rd q j

theorem SameMig.puts {s t : State} (h : SameMig s t) (l : List (Fld × Nat × Nat)) (hl : ∀ p ∈ l, ∀ q ∈ [F.CWY_M_STAT_STATE, F.CWY_M_CTX_CID, F.CWY_M_CTX_TID, F.CWY_M_PEER_PEERDEV, F.CWY_M_T_T], p.1.id ≠ q.id) : SameMig s (puts t l) :=
  fun q hq j => (puts_cell _ _ _ _ fun p hp => hl p hp q hq).trans (h q hq j)

theorem SameMig.sent {s t : State} (h : SameMig s t) (k : Nat) (f : CwFrame) : SameMig s (sentFrame t k f) := by
  intro q hq j
  rw [← h q hq j]
  simp only [List.mem_cons, List.not_mem_nil, or_false] at hq
  rcases hq with rfl | rfl | rfl | rfl | rfl <;> exact sentFrame_cell _ _ _ _ _ (by decide) (by decide)

theorem SameMig.refl (s : State) : SameMig s s := fun _ _ _ => rfl

theorem SameMig.reads {s t : State} (h : SameMig s t) (m : Nat) : miSt t m = miSt s m ∧ miCid t m = miCid s m ∧ miTid t m = miTid s m ∧ miPeer t m = miPeer s m ∧ miBusy t m = miBusy s m := by
  have a := h F.CWY_M_STAT_STATE (by simp) m
  refine ⟨a, h F.CWY_M_CTX_CID (by simp) m, h F.CWY_M_CTX_TID (by simp) m, h F.CWY_M_PEER_PEERDEV (by simp) m, ?_⟩
  unfold miBusy miSt; rw [a]

theorem SameMig.ends {s t : State} (h : SameMig s t) (m e why : Nat) : miEnds t m e why = miEnds s m e why := by
  unfold miEnds; rw [(h.reads m).1, (h.reads m).2.1]

theorem SameMig.alone {s t : State} (h : SameMig s t) {m : Nat} (ha : MiAlone s m) : MiAlone t m := by
  intro j h1 h2
  rw [(h.reads j).2.2.2.2, (h.reads j).2.1, (h.reads m).2.1]
  exact ha j h1 h2

theorem miEnd_says (s : State) (m e why : Nat) (ha : MiAlone s m) : miEnd s m e why = if e = miLOST then (puts s (miEnds s m e why)).errEvent 9 else puts s (miEnds s m e why) := by
  have hc : ∀ u : State, (∀ q ∈ [F.CWY_M_CTX_CID], ∀ j, u.rd q j = s.rd q j) → (∀ j, j ≠ m → u.rd F.CWY_M_STAT_STATE j = s.rd F.CWY_M_STAT_STATE j) →
      ((List.range 64).any fun k => k != m && miBusy u k && miCid u k == miCid u m) = false := by
    intro u h1 h2
    rw [List.any_eq_false]
    intro j hj
    have hj' : j < 64 := List.mem_range.mp hj
    by_cases hm : j = m
    · rw [hm]; simp
    · have hb : miBusy u j = miBusy s j := by unfold miBusy miSt; rw [h2 j hm]
      have hcj : miCid u j = miCid s j := h1 F.CWY_M_CTX_CID (by simp) j
      have hcm : miCid u m = miCid s m := h1 F.CWY_M_CTX_CID (by simp) m
      rw [hb, hcj, hcm]
      rcases ha j hj' hm with h | h
      · rw [h]; simp
      · simp [h]
  have e0 : ∀ u : State, (∀ q ∈ [F.CWY_M_CTX_CID], ∀ j, u.rd q j = s.rd q j) → miCid u m = miCid s m := fun u h => h F.CWY_M_CTX_CID (by simp) m
  have hh : ((miSt s m == miCOMMITTED || miSt s m == miGRACE) = true) ↔ (miSt s m = miCOMMITTED ∨ miSt s m = miGRACE) := by
    rw [Bool.or_eq_true, beq_iff_eq, beq_iff_eq]
  unfold miEnd
  dsimp only
  have hw : ∀ w : State, w = puts s ([(F.CWY_M_STAT_STATE, m, e), (F.CWY_M_STAT_REASON, m, why), (F.CWY_M_CTL_ABORT, m, 0), (F.CWY_IRQSTAT_MIG, 0, 1)] ++
      (if miSt s m = miCOMMITTED ∨ miSt s m = miGRACE then [(I.ctxMoved, miCid s m, 1)] else [])) →
      (∀ q ∈ [F.CWY_M_CTX_CID], ∀ j, w.rd q j = s.rd q j) ∧ (∀ j, j ≠ m → w.rd F.CWY_M_STAT_STATE j = s.rd F.CWY_M_STAT_STATE j) := by
    intro w hw
    refine ⟨fun q hq j => ?_, fun j hj => ?_⟩
    · simp only [List.mem_cons, List.not_mem_nil, or_false] at hq
      subst hq
      rw [hw]
      refine puts_cell _ _ _ _ fun p hp => ?_
      rw [List.mem_append] at hp
      rcases hp with hp | hp
      · simp only [List.mem_cons, List.not_mem_nil, or_false] at hp
        rcases hp with rfl | rfl | rfl | rfl <;> (dsimp only; decide)
      · split at hp
        · simp only [List.mem_cons, List.not_mem_nil, or_false] at hp
          subst hp; dsimp only; decide
        · simp at hp
    · rw [hw, puts_append]
      have : (puts s [(F.CWY_M_STAT_STATE, m, e), (F.CWY_M_STAT_REASON, m, why), (F.CWY_M_CTL_ABORT, m, 0), (F.CWY_IRQSTAT_MIG, 0, 1)]).rd F.CWY_M_STAT_STATE j = s.rd F.CWY_M_STAT_STATE j := by
        rw [puts_cons, puts_cell _ _ _ _ (by simp; decide), State.rd_wr_inst _ _ _ _ _ (Ne.symm hj)]
      rw [← this]
      refine puts_cell _ _ _ _ fun p hp => ?_
      split at hp
      · simp only [List.mem_cons, List.not_mem_nil, or_false] at hp
        subst hp; dsimp only; decide
      · simp at hp
  obtain ⟨w, hweq⟩ : ∃ w : State, w = puts s ([(F.CWY_M_STAT_STATE, m, e), (F.CWY_M_STAT_REASON, m, why), (F.CWY_M_CTL_ABORT, m, 0), (F.CWY_IRQSTAT_MIG, 0, 1)] ++
      (if miSt s m = miCOMMITTED ∨ miSt s m = miGRACE then [(I.ctxMoved, miCid s m, 1)] else [])) := ⟨_, rfl⟩
  have e1 : (if (miSt s m == miCOMMITTED || miSt s m == miGRACE) = true then
      ((((s.wr F.CWY_M_STAT_STATE m e).wr F.CWY_M_STAT_REASON m why).wr F.CWY_M_CTL_ABORT m 0).set F.CWY_IRQSTAT_MIG 1).wr I.ctxMoved
        (miCid ((((s.wr F.CWY_M_STAT_STATE m e).wr F.CWY_M_STAT_REASON m why).wr F.CWY_M_CTL_ABORT m 0).set F.CWY_IRQSTAT_MIG 1) m) 1
      else (((s.wr F.CWY_M_STAT_STATE m e).wr F.CWY_M_STAT_REASON m why).wr F.CWY_M_CTL_ABORT m 0).set F.CWY_IRQSTAT_MIG 1) = w := by
    rw [e0 _ (by
      intro q hq j
      simp only [List.mem_cons, List.not_mem_nil, or_false] at hq
      subst hq
      simp (disch := decide) only [State.set_eq_wr, State.rd_wr_cell]), hweq, puts_append]
    by_cases hc : miSt s m = miCOMMITTED ∨ miSt s m = miGRACE
    · rw [if_pos hc, if_pos (hh.mpr hc)]; rfl
    · rw [if_neg hc, if_neg (fun h => hc (hh.mp h))]; rfl
  rw [e1]
  obtain ⟨w1, w2⟩ := hw w hweq
  rw [hc w w1 w2, e0 w w1]
  simp only [Bool.false_eq_true, if_false]
  unfold miEnds
  rw [puts_append, ← hweq]
  rfl

/-- A device that entry m's frames can be sent to at once. -/
def MiRoute (s : State) (m k : Nat) : Prop :=
  devLocked s = true ∧ cwRoute s (miPeer s m) = some k ∧ k < 6 ∧ (linkOf s k).replay = [] ∧ (linkOf s k).waiting = [] ∧ s.rd F.CWY_L_CNT_COUNT (6 * k) + 3 < 2 ^ 32

theorem MiRoute.open {s : State} {m k : Nat} (h : MiRoute s m k) (f : CwFrame) (hf : f.payload.length ≤ 4112) : LinkOpen s k f := by
  obtain ⟨h1, h2, h3, h4, h5, h6⟩ := h
  refine ⟨h3, ?_, h5, by omega⟩
  unfold replayRoom replayBytes
  rw [h4]
  simp; omega

theorem beBytes_length (n v : Nat) : (beBytes n v).length = n := by
  unfold beBytes
  rw [List.length_reverse, leBytes_length]

/-- A MIGCTL frame with its words. -/
def ctlFrame (s : State) (peer op why id t mask : Nat) : CwFrame := ⟨cwMIGCTL, peer, ownDev s, s.rd F.CWY_EPOCH_EPOCH 0, 15,
  beBytes 4 (op * 2 ^ 24 + why * 2 ^ 16 + id) ++ beBytes 4 t ++ beBytes 4 (mask * 65536) ++ [0, 0, 0, 0]⟩

theorem migctl_says {s t : State} (ha : SendAlike s t) (hm : SameMig s t) (m op why mask k id : Nat) (hid : t.rd F.CWY_M_CTL_MIGID m = id) (hr : MiRoute s m k) :
    migctl t m op why mask = sentFrame t k (ctlFrame s (miPeer s m) op why id (s.rd F.CWY_M_T_T m) mask) := by
  have e1 : miPeer t m = miPeer s m := (hm.reads m).2.2.2.1
  have e2 : t.rd F.CWY_M_T_T m = s.rd F.CWY_M_T_T m := hm _ (by simp) m
  unfold migctl
  rw [e1, e2, hid]
  exact (send_alike ha 0 cwMIGCTL (miPeer s m) k _ rfl).1 ⟨hr.1, hr.2.1, hr.open _ (by simp [beBytes_length])⟩

/-- The fields of a write of CWY_M_CTL. -/
def ctlFields (m w : Nat) : List (Fld × Nat × Nat) := [(F.CWY_M_CTL_ROLE, m, bitN w 29), (F.CWY_M_CTL_TDM, m, bitN w 28), (F.CWY_M_CTL_MIGID, m, bits w 15 0)]

theorem ctlFields_same (s : State) (m w : Nat) : SameMig s (puts s (ctlFields m w)) ∧ SendAlike s (puts s (ctlFields m w)) ∧ (puts s (ctlFields m w)).on F.CWY_M_CTL_ROLE m = bitOf w 29 ∧
    (puts s (ctlFields m w)).rd F.CWY_M_CTL_MIGID m = bits w 15 0 := by
  have b1 : bitN w 29 < 2 := Nat.mod_lt _ (by decide)
  have b2 : bits w 15 0 < 65536 := Nat.mod_lt _ (by decide)
  refine ⟨SameMig.puts (.refl s) _ (by unfold ctlFields; simp; decide), puts_alike _ _ (by unfold ctlFields; simp [sendCells, routeCells]; decide), ?_, ?_⟩
  · unfold ctlFields
    rw [State.on_eq]
    simp (disch := decide) only [puts_cons, puts_nil, State.rd_wr_cell, State.rd_wr_same]
    rw [show (2 : Nat) ^ F.CWY_M_CTL_ROLE.w = 2 from rfl, Nat.mod_eq_of_lt b1, bitN_on]
  · unfold ctlFields
    simp (disch := decide) only [puts_cons, puts_nil, State.rd_wr_cell, State.rd_wr_same]
    exact Nat.mod_eq_of_lt b2

theorem mctl_says (s : State) (m w : Nat) : mCtlWrite s m w =
    let u := puts s (ctlFields m w)
    let t := if bitOf w 31 && !miBusy s m then (if bitOf w 29 then destGo u m else sourceGo u m) else u
    if bitOf w 30 then
      if miSt t m == miRECEIVING then destAbort t m rsUSER
      else if miPRECOPY ≤ miSt t m && miSt t m ≤ miFROZEN then t.wr F.CWY_M_CTL_ABORT m 1
      else t
    else t := by
  obtain ⟨h1, h2, h3, h4⟩ := ctlFields_same s m w
  have e1 : miBusy (puts s (ctlFields m w)) m = miBusy s m := (h1.reads m).2.2.2.2
  dsimp only
  rw [← e1, ← h3]
  unfold mCtlWrite
  simp only [beq_iff_eq]
  rfl

theorem destGo_says (s : State) (m : Nat) : destGo s m = puts s [(F.CWY_M_STAT_STATE, m, miRECEIVING), (F.CWY_M_STAT_REASON, m, 0), (F.CWY_M_STAT_PAGES, m, 0), (I.ctxMig, miCid s m, 1), (I.migFresh, miCid s m, 1)] := by
  have e : ∀ u : State, u.rd F.CWY_M_CTX_CID m = s.rd F.CWY_M_CTX_CID m → miCid u m = miCid s m := fun _ h => h
  unfold destGo
  dsimp only
  rw [e (State.wr _ _ _ _) (by simp (disch := decide) only [State.rd_wr_cell])]
  rfl

theorem migPages_none (s : State) (m : Nat) (h : ∀ p, p < 16 → lvl s (miCid s m) p ≠ 1) : migPages s m = s := by
  have : ((List.range 16).filter fun v => lvl s (miCid s m) v == 1) = [] := by
    rw [List.filter_eq_nil_iff]
    intro v hv
    simpa using h v (List.mem_range.mp hv)
  unfold migPages
  dsimp only
  rw [this]
  rfl

/-- What GO of a source writes. -/
def goCells (s : State) (m : Nat) : List (Fld × Nat × Nat) :=
  [(F.CWY_M_STAT_STATE, m, miPRECOPY), (F.CWY_M_STAT_REASON, m, 0), (F.CWY_M_STAT_PAGES, m, 0), (I.ctxMig, miCid s m, 1), (I.mTask, m, 0), (I.mKeyF, 2 * m, 0), (I.mKeyF, 2 * m + 1, 0)]

theorem lvl_keep (s t : State) (h : ∀ j, t.rd I.mapLvl j = s.rd I.mapLvl j) (cid p : Nat) : lvl t cid p = lvl s cid p := h _

theorem sourceGo_says (s : State) (m : Nat) (h : ∀ p, p < 16 → lvl s (miCid s m) p ≠ 1) : sourceGo s m = (migctl (puts s (goCells s m)) m opPCDONE 0 0).wr F.CWY_M_STAT_STATE m miWAITARM := by
  have e : ∀ u : State, u.rd F.CWY_M_CTX_CID m = s.rd F.CWY_M_CTX_CID m → miCid u m = miCid s m := fun _ h => h
  unfold sourceGo
  dsimp only
  rw [e (State.wr _ _ _ _) (by simp (disch := decide) only [State.rd_wr_cell])]
  have e2 : (((((((s.wr F.CWY_M_STAT_STATE m miPRECOPY).wr F.CWY_M_STAT_REASON m 0).wr F.CWY_M_STAT_PAGES m 0).wr I.ctxMig (miCid s m) 1).wr I.mTask m 0).wr I.mKeyF (2 * m) 0).wr I.mKeyF (2 * m + 1) 0) = puts s (goCells s m) := rfl
  rw [e2]
  have c1 : miCid (puts s (goCells s m)) m = miCid s m := e _ (puts_cell _ _ _ _ (by unfold goCells; simp; decide))
  have c2 : (puts s (goCells s m)).rd F.CWY_M_STAT_PAGES m = 0 := by
    unfold goCells
    simp (disch := decide) only [puts_cons, puts_nil, State.rd_wr_cell, State.rd_wr_same]
    rfl
  rw [migPages_none _ _ (by
    intro p hp
    rw [c1, lvl_keep s _ fun j => puts_cell _ _ _ _ (by unfold goCells; simp; decide)]
    exact h p hp), c2]

theorem goCells_same (s : State) (m : Nat) : SendAlike s (puts s (goCells s m)) ∧ (puts s (goCells s m)).rd F.CWY_M_PEER_PEERDEV m = s.rd F.CWY_M_PEER_PEERDEV m ∧ (puts s (goCells s m)).rd F.CWY_M_T_T m = s.rd F.CWY_M_T_T m ∧
    (puts s (goCells s m)).rd F.CWY_M_CTL_MIGID m = s.rd F.CWY_M_CTL_MIGID m :=
  ⟨alike_ids _ _ [F.CWY_M_STAT_STATE.id, F.CWY_M_STAT_REASON.id, F.CWY_M_STAT_PAGES.id, I.ctxMig.id, I.mTask.id, I.mKeyF.id, I.mKeyF.id] rfl (by decide), puts_cell _ _ _ _ (by unfold goCells; simp; decide), puts_cell _ _ _ _ (by unfold goCells; simp; decide), puts_cell _ _ _ _ (by unfold goCells; simp; decide)⟩

theorem migctl_reads {s t : State} (ha : SendAlike s t) (m op why mask k id : Nat) (e1 : t.rd F.CWY_M_PEER_PEERDEV m = s.rd F.CWY_M_PEER_PEERDEV m) (e2 : t.rd F.CWY_M_T_T m = s.rd F.CWY_M_T_T m) (hid : t.rd F.CWY_M_CTL_MIGID m = id) (hr : MiRoute s m k) :
    migctl t m op why mask = sentFrame t k (ctlFrame s (miPeer s m) op why id (s.rd F.CWY_M_T_T m) mask) := by
  have e1 : miPeer t m = miPeer s m := e1
  unfold migctl
  rw [e1, e2, hid]
  exact (send_alike ha 0 cwMIGCTL (miPeer s m) k _ rfl).1 ⟨hr.1, hr.2.1, hr.open _ (by simp [beBytes_length])⟩

theorem destAbort_says {s t : State} (ha : SendAlike s t) (hm : SameMig s t) (m why k id : Nat) (hid : t.rd F.CWY_M_CTL_MIGID m = id) (hr : MiRoute s m k) (hal : MiAlone s m) :
    destAbort t m why = puts (sentFrame t k (ctlFrame s (miPeer s m) opABORT why id (s.rd F.CWY_M_T_T m) 0)) (miEnds s m miABORTED why) := by
  unfold destAbort
  rw [migctl_says ha hm m _ _ _ k id hid hr, miEnd_says _ _ _ _ ((hm.sent _ _).alone hal), if_neg (by decide), (hm.sent _ _).ends]

theorem freeze_says (s : State) (m : Nat) : freeze s m = puts (taskRegWrite s (miTid s m) 0x104 (putBit (cfgWord s (miTid s m)) 31 false)) [(I.mTask, m, 1), (F.CWY_M_STAT_STATE, m, miFROZEN)] := by
  unfold freeze miTaskEn
  generalize taskRegWrite s (miTid s m) 0x104 (putBit (cfgWord s (miTid s m)) 31 false) = u
  rfl

theorem frozen_other (s : State) (m : Nat) (h : miSt s m ≠ miFROZEN) : frozenStep s m = s := by
  unfold frozenStep
  rw [if_pos (by simp [h])]

theorem frozen_waits (s : State) (m : Nat) (h : miHeld s m = true ∨ miQuar s m = true ∨ cwRoute s (miPeer s m) = none) : frozenStep s m = s := by
  unfold frozenStep
  rw [if_pos]
  rcases h with h | h | h
  · rw [h]; simp
  · rw [h]; simp
  · rw [h]; simp

theorem keyForward_none (s : State) (m k : Nat) (h1 : s.rd F.CWY_M_KEY0_VALID m = 0) (h2 : s.rd F.CWY_M_KEY1_VALID m = 0) : keyForward s m k = s ∧ keyRestore s m k = s ∧ keyDelete s m k = s := by
  have e : miKey s m k = none := by
    unfold miKey
    rw [on_of 0 h1, on_of 0 h2]
    simp
  unfold keyForward keyRestore keyDelete
  rw [e]
  exact ⟨rfl, rfl, rfl⟩

theorem migSend_zero (s : State) (m kind v a : Nat) : migSend s m kind v a 0 = s := by
  have : (List.range ((0 + migChunk s (miPeer s m) - 1) / migChunk s (miPeer s m))) = [] := by
    have hc : 0 < migChunk s (miPeer s m) := by
      unfold migChunk
      split
      · split <;> decide
      · decide
    rw [Nat.div_eq_of_lt (by omega)]
    rfl
  unfold migSend
  dsimp only
  rw [this]
  rfl

theorem frozen_commits (s : State) (m k : Nat) (h1 : miSt s m = miFROZEN) (h2 : miHeld s m = false) (h3 : miQuar s m = false) (hr : MiRoute s m k) (k0 : s.rd F.CWY_M_KEY0_VALID m = 0) (k1 : s.rd F.CWY_M_KEY1_VALID m = 0)
    (hp : ∀ p, p < 16 → lvl s (miCid s m) p ≠ 1) (hd : clsDraining s = false) (ht : s.rd F.CWY_M_CTL_TDM m = 0) (hj : s.rd F.CWY_M_JBLEN_LEN m = 0) :
    frozenStep s m = puts (sentFrame (puts s [(F.CWY_M_STAT_PAGES, m, 0)]) k (ctlFrame s (miPeer s m) opCOMMIT 0 (s.rd F.CWY_M_CTL_MIGID m) (s.rd F.CWY_M_T_T m) 0)) [(F.CWY_M_STAT_STATE, m, miCOMMITTED)] := by
  have e1 : (s.over ((List.range 2).filter fun j => !s.on I.mKeyF (2 * m + j)) fun s j => keyForward s m j) = s := by
    unfold State.over
    generalize (List.range 2).filter (fun j => !s.on I.mKeyF (2 * m + j)) = xs
    induction xs with
    | nil => rfl
    | cons x r ih => rw [List.foldl_cons, (keyForward_none s m x k0 k1).1]; exact ih
  have e2 : tdmBusy s m = false := by unfold tdmBusy; rw [on_of 0 ht]; rfl
  have c : ∀ q j, F.CWY_M_STAT_PAGES.id ≠ q.id → (s.wr F.CWY_M_STAT_PAGES m 0).rd q j = s.rd q j := fun q j h => State.rd_wr_cell _ _ _ _ _ _ h
  have ec : miCid (s.wr F.CWY_M_STAT_PAGES m 0) m = miCid s m := c _ _ (by decide)
  have e3 : migPages (s.wr F.CWY_M_STAT_PAGES m 0) m = s.wr F.CWY_M_STAT_PAGES m 0 := migPages_none _ _ (by
    intro p hq
    rw [ec, lvl_keep s _ fun j => c _ _ (by decide)]
    exact hp p hq)
  have e4 : armTdx (s.wr F.CWY_M_STAT_PAGES m 0) m = s.wr F.CWY_M_STAT_PAGES m 0 := by
    unfold armTdx
    rw [on_of 0 ((c _ _ (by decide)).trans ht)]; rfl
  have e5 : (s.wr F.CWY_M_STAT_PAGES m 0).rd F.CWY_M_STAT_PAGES m = 0 := by rw [State.rd_wr_same]; rfl
  unfold frozenStep
  rw [if_neg (by rw [h1, h2, h3, hr.2.1]; simp)]
  dsimp only
  rw [e1, hd, e2, if_neg (by decide), e3, c F.CWY_M_JBLEN_LEN _ (by decide), hj]
  rw [show min 65536 (0 / 64 * 64) = 0 from rfl, migSend_zero, e4, e5]
  have ha : SendAlike s (s.wr F.CWY_M_STAT_PAGES m 0) := alike_ids s [(F.CWY_M_STAT_PAGES, m, 0)] [F.CWY_M_STAT_PAGES.id] rfl (by decide)
  rw [migctl_reads ha m opCOMMIT 0 0 k (s.rd F.CWY_M_CTL_MIGID m) (c _ _ (by decide)) (c _ _ (by decide)) (c _ _ (by decide)) hr]
  rfl

theorem miAbort_says (s : State) (m why k : Nat) (hr : MiRoute s m k) (hal : MiAlone s m) (k0 : s.rd F.CWY_M_KEY0_VALID m = 0) (k1 : s.rd F.CWY_M_KEY1_VALID m = 0) (ht : s.rd I.mTask m = 0) :
    miAbort s m why = puts (sentFrame s k (ctlFrame s (miPeer s m) opABORT why (s.rd F.CWY_M_CTL_MIGID m) (s.rd F.CWY_M_T_T m) 0)) (miEnds s m miABORTED why) := by
  have ha : SendAlike s s := ⟨fun _ _ _ => rfl, rfl, fun _ => rfl⟩
  have hm : SameMig s (sentFrame s k (ctlFrame s (miPeer s m) opABORT why (s.rd F.CWY_M_CTL_MIGID m) (s.rd F.CWY_M_T_T m) 0)) := (SameMig.refl s).sent _ _
  unfold miAbort
  dsimp only
  rw [migctl_says ha (.refl s) m opABORT why 0 k _ rfl hr]
  have r := fun q j a b => sentFrame_cell s k (ctlFrame s (miPeer s m) opABORT why (s.rd F.CWY_M_CTL_MIGID m) (s.rd F.CWY_M_T_T m) 0) q j a b
  generalize sentFrame s k (ctlFrame s (miPeer s m) opABORT why (s.rd F.CWY_M_CTL_MIGID m) (s.rd F.CWY_M_T_T m) 0) = u at *
  have q0 : u.rd F.CWY_M_KEY0_VALID m = 0 := (r _ _ (by decide) (by decide)).trans k0
  have q1 : u.rd F.CWY_M_KEY1_VALID m = 0 := (r _ _ (by decide) (by decide)).trans k1
  rw [on_of 0 ((r _ _ (by decide) (by decide)).trans ht), if_neg (by decide), (keyForward_none u m 0 q0 q1).2.1, (keyForward_none u m 1 q0 q1).2.1,
    miEnd_says _ _ _ _ (hm.alone hal), if_neg (by decide), hm.ends]

theorem arrived_alike (s : State) (l : Nat) (b : List Byte) : SendAlike s (puts s (arrived s l b)) := by
  refine ⟨fun q hq j => ?_, puts_links _ _, fun k => ?_⟩
  · have : F.CWY_L_CNT_COUNT.id ≠ q.id ∧ I.cwRx.id ≠ q.id := by
      simp only [routeCells, List.mem_cons, List.not_mem_nil, or_false] at hq
      rcases hq with rfl | rfl | rfl | rfl | rfl | rfl | rfl <;> decide
    exact arrived_cell _ _ _ _ _ this.1 this.2
  · unfold arrived
    rw [puts_cons, puts_cell, State.rd_wr_inst _ _ _ _ _ (by omega)]
    intro p hp
    split at hp
    · simp only [List.mem_cons, List.not_mem_nil, or_false] at hp
      subst hp; dsimp only; decide
    · simp at hp

theorem arrived_mig (s : State) (l : Nat) (b : List Byte) : SameMig s (puts s (arrived s l b)) := by
  intro q hq j
  have : F.CWY_L_CNT_COUNT.id ≠ q.id ∧ I.cwRx.id ≠ q.id := by
    simp only [List.mem_cons, List.not_mem_nil, or_false] at hq
    rcases hq with rfl | rfl | rfl | rfl | rfl <;> decide
  exact arrived_cell _ _ _ _ _ this.1 this.2

theorem physWrite_cell (s : State) (a : Nat) (d : List Byte) (q : Fld) (j : Nat) (h : ∀ c ∈ [I.linkV, I.txWr, I.txWrC], c.id ≠ q.id) : (physWrite s a d).rd q j = s.rd q j := (physWrite_says s a d).2.1 q j h

theorem arrived_nonzero (s : State) (l : Nat) (b : List Byte) (q : Fld) (h1 : F.CWY_L_CNT_COUNT.id ≠ q.id) (h2 : I.cwRx.id ≠ q.id) : (puts s (arrived s l b)).nonzero q = s.nonzero q := by
  refine nonzero_puts _ _ _ fun p hp => ?_
  unfold arrived at hp
  rw [List.mem_cons] at hp
  rcases hp with rfl | hp
  · exact h1
  · split at hp
    · simp only [List.mem_cons, List.not_mem_nil, or_false] at hp
      subst hp; exact h2
    · simp at hp

theorem match_arrived (s : State) (l : Nat) (b : List Byte) (src id : Nat) (sts : List Nat) : miMatch (puts s (arrived s l b)) src id sts = miMatch s src id sts := by
  have hm := arrived_mig s l b
  unfold miMatch
  congr 1
  funext m
  rw [(hm.reads m).2.2.2.1, (hm.reads m).1, arrived_cell s l b F.CWY_M_CTL_MIGID m (by decide) (by decide)]

theorem payload_byte (b : List Byte) (k : Nat) (h : b.length = 20 + cwLen b) (hk : k < cwLen b) : byteAt (cwParse b).payload k = byteAt b (16 + k) := by
  unfold byteAt cwParse
  dsimp only
  rw [List.getD_eq_getElem?_getD, List.getD_eq_getElem?_getD, List.getElem?_take, List.getElem?_drop, if_pos (by omega)]

theorem page_jb (s : State) (m : Nat) (p : List Byte) (h : byteAt p 0 = 1) (h1 : beAt p 4 4 + (p.drop 16).length ≤ 65536) (h2 : 64 * s.rd F.CWY_M_JBDST_OFS m + beAt p 4 4 + (p.drop 16).length ≤ 0x2000000) :
    migPage s m p = physWrite s (pksBase + (64 * s.rd F.CWY_M_JBDST_OFS m + beAt p 4 4)) (p.drop 16) := by
  unfold migPage
  dsimp only
  rw [if_pos h, if_pos]
  rw [Bool.and_eq_true, decide_eq_true_eq, decide_eq_true_eq]
  exact ⟨h1, h2⟩

theorem dram_write (s : State) (cid v ofs : Nat) (d : List Byte) (h : lvl s cid v = 2) (hf : (frames s).filter (fun i => holds s i cid v) = []) : cpgWrite s cid v ofs d = physWrite s (slotAddr s cid v + ofs) d := by
  have e1 : faultPage s cid v = s := by
    unfold faultPage untouched
    rw [h]; rfl
  have e2 : settlePage s cid v = s := by
    unfold settlePage
    rw [hf]; rfl
  unfold cpgWrite
  dsimp only
  rw [e1, e2, h, if_neg (by decide), if_pos rfl]

theorem page_dram (s : State) (m : Nat) (p : List Byte) (h : byteAt p 0 = 0) (hl : lvl s (miCid s m) (byteAt p 1 % 16) = 2) (hf : (frames s).filter (fun i => holds s i (miCid s m) (byteAt p 1 % 16)) = []) (h1 : beAt p 4 4 + (p.drop 16).length ≤ 4096) :
    migPage s m p = puts (physWrite s (slotAddr s (miCid s m) (byteAt p 1 % 16) + beAt p 4 4) (p.drop 16)) (if beAt p 4 4 + (p.drop 16).length = 4096 then [(F.CWY_M_STAT_PAGES, m, setBit (s.rd F.CWY_M_STAT_PAGES m) (byteAt p 1 % 16))] else []) := by
  unfold migPage
  dsimp only
  rw [if_neg (by omega), if_pos h1, dram_write _ _ _ _ _ hl hf, physWrite_cell _ _ _ _ _ (by decide)]
  by_cases hq : beAt p 4 4 + (p.drop 16).length = 4096
  · rw [if_pos hq, if_pos (by omega)]; rfl
  · rw [if_neg hq, if_neg (by omega)]; rfl

theorem pcdone_part (s : State) (m t' mask : Nat) (h : Nat.land mask (s.rd F.CWY_M_STAT_PAGES m) ≠ mask) : pcdone s m t' mask = s.wr I.mPmask m mask := by
  unfold pcdone
  dsimp only
  rw [State.rd_wr_cell _ _ _ _ _ _ (by decide), if_pos (by simpa using h)]

theorem pcdone_whole (s : State) (m t' mask : Nat) (h : Nat.land mask (s.rd F.CWY_M_STAT_PAGES m) = mask) : pcdone s m t' mask = (let u := s.wr I.mPmask m mask
    if t' ≠ s.rd F.CWY_M_T_T m then destAbort u m rsBADT
    else if ((pagesOf mask).any (fun v => notPresent s (miCid s m) v) || s.on F.TSU_T_CFG_EN (miTid s m)) = true then destAbort u m rsBADLAYOUT
    else puts (migctl u m opARMED 0 mask) [(F.CWY_M_STAT_PAGES, m, 0), (F.CWY_M_STAT_STATE, m, miARMED)]) := by
  have c : ∀ q j, I.mPmask.id ≠ q.id → (s.wr I.mPmask m mask).rd q j = s.rd q j := fun q j h => State.rd_wr_cell _ _ _ _ _ _ h
  have e1 : ∀ v, notPresent (s.wr I.mPmask m mask) (miCid (s.wr I.mPmask m mask) m) v = notPresent s (miCid s m) v := by
    intro v
    unfold notPresent lvl miCid
    rw [State.on_eq, State.on_eq, c _ _ (by decide), c _ _ (by decide), c _ _ (by decide)]
  have e2 : miTid (s.wr I.mPmask m mask) m = miTid s m := c _ _ (by decide)
  unfold pcdone
  dsimp only
  rw [c _ _ (by decide), h, if_neg (by simp), c _ _ (by decide), e2, State.on_eq, c _ _ (by decide), ← State.on_eq]
  simp only [e1, bne_iff_ne]
  rfl

theorem commit_late (s : State) (m : Nat) (h : 0 ≤ sinceT s m) : commit s m = miEnd s m miLOST 0 := by
  unfold commit
  rw [if_pos (by simp [h])]

theorem miTaskEn_says (s : State) (i : Nat) (en : Bool) : miTaskEn s i en = taskRegWrite s i 0x104 (putBit (cfgWord s i) 31 en) := by
  unfold miTaskEn
  exact Eq.refl _

theorem commit_timely (s : State) (m : Nat) (h : sinceT s m < 0) (ht : s.rd F.CWY_M_CTL_TDM m = 0) : (decide (0 ≤ sinceT s m) || tdmBusy s m) = false := by
  have e1 : tdmBusy s m = false := by unfold tdmBusy; rw [on_of 0 ht]; rfl
  rw [e1, Bool.or_false]
  exact decide_eq_false (Int.not_le.mpr h)

theorem armTdx_none (s : State) (m : Nat) (ht : s.rd F.CWY_M_CTL_TDM m = 0) : armTdx s m = s := by
  unfold armTdx
  rw [on_of 0 ht]; rfl

theorem commit_body (s : State) (m : Nat) (h : (decide (0 ≤ sinceT s m) || tdmBusy s m) = false) :
    commit s m = (migctl (miTaskEn (armTdx s m) (miTid s m) true) m opCOMMITACK 0 0).wr F.CWY_M_STAT_STATE m miRUNNING := by
  have hb : ¬ (decide (0 ≤ sinceT s m) || tdmBusy s m) = true := by rw [h]; exact Bool.false_ne_true
  unfold commit
  exact if_neg hb

theorem commit_moves (u : State) (m : Nat) : (migctl u m opCOMMITACK 0 0).wr F.CWY_M_STAT_STATE m miRUNNING = puts (migctl u m opCOMMITACK 0 0) [(F.CWY_M_STAT_STATE, m, miRUNNING)] := by
  generalize migctl u m opCOMMITACK 0 0 = w
  exact Eq.refl _

theorem commitack_same (s u : State) (i m : Nat) (h : u = s) : migctl (miTaskEn u i true) m opCOMMITACK 0 0 = migctl (miTaskEn s i true) m opCOMMITACK 0 0 :=
  congrArg (fun u => migctl (miTaskEn u i true) m opCOMMITACK 0 0) h

theorem commitack_alone (s : State) (m : Nat) (ht : s.rd F.CWY_M_CTL_TDM m = 0) :
    migctl (miTaskEn (armTdx s m) (miTid s m) true) m opCOMMITACK 0 0 = migctl (miTaskEn s (miTid s m) true) m opCOMMITACK 0 0 :=
  commitack_same s (armTdx s m) (miTid s m) m (armTdx_none s m ht)

theorem commit_runs (s : State) (m : Nat) (h : sinceT s m < 0) (ht : s.rd F.CWY_M_CTL_TDM m = 0) :
    commit s m = (migctl (miTaskEn s (miTid s m) true) m opCOMMITACK 0 0).wr F.CWY_M_STAT_STATE m miRUNNING :=
  (commit_body s m (commit_timely s m h ht)).trans (congrArg (fun u => u.wr F.CWY_M_STAT_STATE m miRUNNING) (commitack_alone s m ht))

theorem commit_puts (u : State) (i m : Nat) : (migctl (miTaskEn u i true) m opCOMMITACK 0 0).wr F.CWY_M_STAT_STATE m miRUNNING =
    puts (migctl (miTaskEn u i true) m opCOMMITACK 0 0) [(F.CWY_M_STAT_STATE, m, miRUNNING)] := commit_moves _ _

theorem commit_says (s : State) (m : Nat) (h : sinceT s m < 0) (ht : s.rd F.CWY_M_CTL_TDM m = 0) :
    commit s m = puts (migctl (miTaskEn s (miTid s m) true) m opCOMMITACK 0 0) [(F.CWY_M_STAT_STATE, m, miRUNNING)] :=
  (commit_runs s m h ht).trans (commit_puts s (miTid s m) m)

theorem migctlRx_found {s : State} {src m op : Nat} {p : List Byte} (h1 : byteAt p 0 = op) (h2 : miMatch s src (beAt p 2 2) (opStates op) = some m) :
    migctlRx s src p = if op = 1 then pcdone s m (beAt p 4 4) (beAt p 8 2)
      else if op = 2 then s.wr F.CWY_M_STAT_STATE m miARMSEEN
      else if op = 3 then commit s m
      else if op = 4 then s.wr F.CWY_M_STAT_STATE m miGRACE
      else miEnd s m miABORTED (byteAt p 1 % 16) := by
  unfold migctlRx
  dsimp only
  rw [h1, h2]

theorem ctlRx_says (s : State) (src m : Nat) (p : List Byte) : 
    (byteAt p 0 = 1 → miMatch s src (beAt p 2 2) [miRECEIVING] = some m → migctlRx s src p = pcdone s m (beAt p 4 4) (beAt p 8 2)) ∧
    (byteAt p 0 = 2 → miMatch s src (beAt p 2 2) [miPRECOPY, miWAITARM] = some m → migctlRx s src p = s.wr F.CWY_M_STAT_STATE m miARMSEEN) ∧
    (byteAt p 0 = 3 → miMatch s src (beAt p 2 2) [miARMED] = some m → migctlRx s src p = commit s m) ∧
    (byteAt p 0 = 4 → miMatch s src (beAt p 2 2) [miCOMMITTED] = some m → migctlRx s src p = s.wr F.CWY_M_STAT_STATE m miGRACE) ∧
    (byteAt p 0 = 5 → miMatch s src (beAt p 2 2) [miRECEIVING, miARMED] = some m → migctlRx s src p = miEnd s m miABORTED (byteAt p 1 % 16)) := by
  refine ⟨?_, ?_, ?_, ?_, ?_⟩
  · intro h1 h2
    rw [migctlRx_found h1 (show miMatch s src (beAt p 2 2) (opStates 1) = some m from h2)]
    rw [if_pos rfl]
  · intro h1 h2
    rw [migctlRx_found h1 (show miMatch s src (beAt p 2 2) (opStates 2) = some m from h2)]
    rw [if_neg (by decide), if_pos rfl]
  · intro h1 h2
    rw [migctlRx_found h1 (show miMatch s src (beAt p 2 2) (opStates 3) = some m from h2)]
    rw [if_neg (by decide), if_neg (by decide), if_pos rfl]
  · intro h1 h2
    rw [migctlRx_found h1 (show miMatch s src (beAt p 2 2) (opStates 4) = some m from h2)]
    rw [if_neg (by decide), if_neg (by decide), if_neg (by decide), if_pos rfl]
  · intro h1 h2
    rw [migctlRx_found h1 (show miMatch s src (beAt p 2 2) (opStates 5) = some m from h2)]
    rw [if_neg (by decide), if_neg (by decide), if_neg (by decide), if_neg (by decide)]

end Sys2Proof.Machine
end

