-- ==== Sys2Proof/Laws/CaseDma.lean ====
section
/-! SUPPORT.  DMA channels and the DDR5 controller: what their shared operations leave. -/

namespace Sys2Proof.Machine

open Safety

/-- A channel without completion flags ends (R243). -/
theorem dmaEnd_plain (s : State) (n st err : Nat) (h : bitOf (s.rd I.dMode n) 1 = false) : dmaEnd s n st err =
    puts s ([(F.DMA_C_STAT_STATE, n, st), (F.DMA_C_STAT_ERR, n, err), (I.dWait, n, 0)] ++
      if st != dDONE || bitOf (s.rd I.dMode n) 0 then [(F.DMA_IRQSTAT_CH, 0, setBit (s.rd F.DMA_IRQSTAT_CH) n)] else []) := by
  unfold dmaEnd
  simp (disch := decide) only [State.rd_wr_cell, State.set_eq_wr, h]
  simp only [Bool.false_eq_true, if_false]
  simp (disch := decide) only [State.rd_wr_cell]
  split <;> rfl

theorem rd_puts_last (s : State) (l : List (Fld × Nat × Nat)) (f : Fld) (i v : Nat) : (puts s (l ++ [(f, i, v)])).rd f i = v % 2 ^ f.w := by
  rw [puts_append]
  simp only [puts_cons, puts_nil, State.rd_wr_same]

theorem burstRead_sym (s : State) (n : Fin 32) (k a : Nat) (h1 : 0x20000000 ≤ a) (h2 : a + 4 * k ≤ 0x20800000) :
    burstRead s n a k = (s.readBytes a (4 * k), s) := by
  induction k generalizing a with
  | zero => rfl
  | succ k ih =>
    have hp : place s a = .sym := by
      unfold place
      rw [if_neg (by omega), if_neg (by simp; omega), if_pos (by simp; omega)]
    unfold burstRead
    rw [hp]
    show (leBytes 4 (s.readLE a 4) ++ (burstRead s n (a + 4) k).1, (burstRead s n (a + 4) k).2) = _
    rw [ih (a + 4) (by omega) (by omega)]
    have e : leBytes 4 (s.readLE a 4) = s.readBytes a 4 := by
      unfold State.readLE State.readBytes
      have hl : ∀ l : List Byte, leBytes l.length (ofLE l) = l := by
        intro l
        induction l with
        | nil => rfl
        | cons b r ih =>
          show BitVec.ofNat 8 (b.toNat + 256 * ofLE r) :: leBytes r.length ((b.toNat + 256 * ofLE r) / 256) = _
          have hb := b.isLt
          rw [show (b.toNat + 256 * ofLE r) / 256 = ofLE r by omega, ih]
          congr 1
          apply BitVec.eq_of_toNat_eq
          rw [BitVec.toNat_ofNat]
          omega
      have := hl ((List.range 4).map fun k => s.byte (a + k))
      simpa using this
    rw [e]
    congr 1
    unfold State.readBytes
    rw [show 4 * (k + 1) = 4 + 4 * k by omega, List.range_add, List.map_append, List.map_map]
    congr 1
    apply List.map_congr_left
    intro x _
    show s.byte (a + 4 + x) = s.byte (a + (4 + x))
    rw [Nat.add_assoc]

theorem burstWrite_sym (n : Fin 32) (k : Nat) (s : State) (a : Nat) (l : List Byte) (h1 : 0x20000000 ≤ a) (h2 : a + 4 * k ≤ 0x20800000) (hl : l.length = 4 * k) :
    let u := burstWrite s n a k l
    (∀ x, u.byte x = if h : a ≤ x ∧ x < a + 4 * k then l[x - a]'(by omega) else s.byte x) ∧ u = { s with cells := u.cells, mem := u.mem } ∧
      SameOtherCells s u [I.linkV, I.txWr, I.txWrC] := by
  induction k generalizing s a l with
  | zero =>
    refine ⟨fun x => ?_, rfl, .refl _ _⟩
    rw [dif_neg (by omega)]; rfl
  | succ k ih =>
    have hp : place s a = .sym := by
      unfold place
      rw [if_neg (by omega), if_neg (by simp; omega), if_pos (by simp; omega)]
    have hb : burstWrite s n a (k + 1) l = burstWrite (physWrite s a (l.take 4)) n (a + 4) k (l.drop 4) := by
      show burstWrite (placeWrite s (.dma n) a (l.take 4) (place s a)) n (a + 4) k (l.drop 4) = _
      rw [hp]; rfl
    intro u
    rw [show u = _ from hb]
    obtain ⟨p1, p2, p3⟩ := physWrite_says s a (l.take 4)
    generalize physWrite s a (l.take 4) = w at *
    obtain ⟨i1, i2, i3⟩ := ih w (a + 4) (l.drop 4) (by omega) (by omega) (by rw [List.length_drop]; omega)
    generalize burstWrite w n (a + 4) k (l.drop 4) = u at *
    refine ⟨fun x => ?_, ?_, p2.trans i3⟩
    · rw [i1 x]
      have hw : w.byte x = (s.writeBytes a (l.take 4)).byte x := by unfold State.byte; rw [p1]
      by_cases hx : a + 4 ≤ x ∧ x < a + 4 + 4 * k
      · rw [dif_pos hx, dif_pos (by omega)]
        rw [List.getElem_drop]
        congr 1
        omega
      · rw [dif_neg hx, hw, State.byte_writeBytes]
        have ht : (l.take 4).length = 4 := by rw [List.length_take]; omega
        by_cases h4 : a ≤ x ∧ x < a + 4
        · rw [dif_pos (show a ≤ x ∧ x < a + (l.take 4).length by rw [ht]; exact h4), dif_pos (show a ≤ x ∧ x < a + 4 * (k + 1) by omega)]
          rw [List.getElem_take]
        · rw [dif_neg (show ¬ (a ≤ x ∧ x < a + (l.take 4).length) by rw [ht]; exact h4), dif_neg (show ¬ (a ≤ x ∧ x < a + 4 * (k + 1)) by omega)]
    · rw [i2]
      conv => lhs; rw [p3]

theorem burstCopy_let (s u : State) (n : Fin 32) (src dst len ofs : Nat) (r : List Byte) (hr : burstRead s n src (len / 4) = (r, s))
    (hu : burstWrite s n dst (len / 4) r = u) (ho : u.rd F.DMA_C_OFS_OFS n.val = ofs) : burstCopy s n src dst len =
    if (u.wr F.DMA_C_OFS_OFS n.val (ofs + len)).rd F.DMA_C_STAT_STATE n.val = dRUN &&
      decide ((u.wr F.DMA_C_OFS_OFS n.val (ofs + len)).rd I.dLen n.val ≤ ofs + len) then dmaEnd (u.wr F.DMA_C_OFS_OFS n.val (ofs + len)) n.val dDONE 0
    else u.wr F.DMA_C_OFS_OFS n.val (ofs + len) := by
  simp only [burstCopy, hr, hu, ho]

/-- A write of DMC_CTRL with INIT = 1 while no training runs (R250). -/
theorem dmcInit_says (s : State) (h2 : s.rd I.dmcTrain = 0) :
    let l := [(F.DMC_CTRL_RESUME, 0, s.rd F.DMC_CTRL_RESUME), (F.DMC_CTRL_SELFREF, 0, s.rd F.DMC_CTRL_SELFREF)] ++
        (if s.rd F.DMC_STAT_READY = 0 then [] else [(F.DMC_STAT_INSR, 0, s.rd F.DMC_CTRL_SELFREF)]) ++
        [(F.DMC_STAT_READY, 0, 0), (F.DMC_STAT_TRAINERR, 0, 0), (F.DMC_STAT_STEP, 0, 0), (I.dmcTrain, 0, 1), (F.DMC_CTRL_INIT, 0, 1),
         (F.DMC_STAT_INSR, 0, 0), (I.dmcSelfRef, 0, 0)]
    dmcCtrlWrite s (s.rd F.DMC_CTRL_RESUME * 4 + s.rd F.DMC_CTRL_SELFREF * 2 + 1) =
      if s.rd F.DMC_CTRL_RESUME = 1 then puts s l else (puts s l).loseMem 0x100000000 0x800000000 := by
  have r1 : s.rd F.DMC_CTRL_RESUME < 2 := s.rd_lt F.DMC_CTRL_RESUME 0
  have r2 : s.rd F.DMC_CTRL_SELFREF < 2 := s.rd_lt F.DMC_CTRL_SELFREF 0
  generalize hr : s.rd F.DMC_CTRL_RESUME = r at *
  generalize hf : s.rd F.DMC_CTRL_SELFREF = f at *
  have b2 : bitN (r * 4 + f * 2 + 1) 2 = r := by unfold bitN; omega
  have b1 : bitN (r * 4 + f * 2 + 1) 1 = f := by unfold bitN; omega
  have b0 : bitOf (r * 4 + f * 2 + 1) 0 = true := by
    unfold bitOf; have : (r * 4 + f * 2 + 1) / 2 ^ 0 % 2 = 1 := by omega
    rw [this]; rfl
  have b2' : bitOf (r * 4 + f * 2 + 1) 2 = (r == 1) := by
    unfold bitOf; have : (r * 4 + f * 2 + 1) / 2 ^ 2 % 2 = r := by omega
    rw [this]
  intro l
  have hg : ∃ u, u = puts s ([(F.DMC_CTRL_RESUME, 0, r), (F.DMC_CTRL_SELFREF, 0, f)] ++ (if s.rd F.DMC_STAT_READY = 0 then [] else [(F.DMC_STAT_INSR, 0, f)])) ∧
      u.rd I.dmcTrain = 0 ∧ (if (((s.set F.DMC_CTRL_RESUME r).set F.DMC_CTRL_SELFREF f).on F.DMC_STAT_READY) = true
        then ((s.set F.DMC_CTRL_RESUME r).set F.DMC_CTRL_SELFREF f).set F.DMC_STAT_INSR f else (s.set F.DMC_CTRL_RESUME r).set F.DMC_CTRL_SELFREF f) = u := by
    refine ⟨_, rfl, ?_, ?_⟩
    · rw [puts_cell _ _ _ _ (by intro p hp; split at hp <;> simp at hp <;> rcases hp with rfl | rfl | rfl <;> dsimp only <;> decide)]; exact h2
    · have hrd : ((s.set F.DMC_CTRL_RESUME r).set F.DMC_CTRL_SELFREF f).rd F.DMC_STAT_READY = s.rd F.DMC_STAT_READY := by
        simp (disch := decide) only [State.rd_wr_cell, State.set_eq_wr]
      rw [State.on_eq, hrd]
      by_cases h : s.rd F.DMC_STAT_READY = 0
      · rw [h, if_pos rfl]; rfl
      · rw [if_neg h, if_pos (by simpa using h)]; rfl
  obtain ⟨u, hu, ht, he⟩ := hg
  unfold dmcCtrlWrite
  dsimp only
  rw [b1, b2, he, b0, b2', on_of 0 ht]
  simp only [l]
  rw [puts_append, ← hu]
  by_cases h1 : r = 1
  · rw [if_pos h1, h1]; rfl
  · rw [if_neg h1]
    have : (r == 1) = false := by simpa using h1
    rw [this]; rfl

theorem burst_ends (s u : State) (n : Fin 32) (from_ to_ m : Nat)
    (hby : ∀ a, u.byte a = if to_ ≤ a ∧ a < to_ + m then s.byte (from_ + (a - to_)) else s.byte a) (b2 : u = { s with cells := u.cells, mem := u.mem })
    (b3 : SameOtherCells s u [I.linkV, I.txWr, I.txWrC]) (h2 : s.rd F.DMA_C_STAT_STATE n.val = dRUN) (h5 : bitOf (s.rd I.dMode n.val) 1 = false)
    (hlet : burstCopy s n from_ to_ m = if (u.wr F.DMA_C_OFS_OFS n.val (s.rd F.DMA_C_OFS_OFS n.val + m)).rd F.DMA_C_STAT_STATE n.val = dRUN &&
      decide ((u.wr F.DMA_C_OFS_OFS n.val (s.rd F.DMA_C_OFS_OFS n.val + m)).rd I.dLen n.val ≤ s.rd F.DMA_C_OFS_OFS n.val + m)
      then dmaEnd (u.wr F.DMA_C_OFS_OFS n.val (s.rd F.DMA_C_OFS_OFS n.val + m)) n.val dDONE 0
      else u.wr F.DMA_C_OFS_OFS n.val (s.rd F.DMA_C_OFS_OFS n.val + m)) (h14 : s.rd F.DMA_C_OFS_OFS n.val + m ≤ s.rd I.dLen n.val) : let t := burstCopy s n from_ to_ m
    (∀ a, t.byte a = if to_ ≤ a ∧ a < to_ + m then s.byte (from_ + (a - to_)) else s.byte a) ∧ t.rd F.DMA_C_OFS_OFS n.val = s.rd F.DMA_C_OFS_OFS n.val + m ∧
        t.rd F.DMA_C_STAT_STATE n.val = (if s.rd I.dLen n.val ≤ s.rd F.DMA_C_OFS_OFS n.val + m then dDONE else dRUN) ∧ t = { s with cells := t.cells, mem := t.mem } ∧
        SameOtherCells s t [I.linkV, I.txWr, I.txWrC, F.DMA_C_OFS_OFS, F.DMA_C_STAT_STATE, F.DMA_C_STAT_ERR, I.dWait, F.DMA_IRQSTAT_CH] := by
  intro t
  rw [show t = _ from hlet]
  clear t
  have hlen : u.rd I.dLen n.val = s.rd I.dLen n.val := b3 _ _ (by decide)
  have hst : u.rd F.DMA_C_STAT_STATE n.val = dRUN := (b3 _ _ (by decide)).trans h2
  have hmo : u.rd I.dMode n.val = s.rd I.dMode n.val := b3 _ _ (by decide)
  have hlt := s.rd_lt I.dLen n.val
  have hw32 : (s.rd F.DMA_C_OFS_OFS n.val + m) % 2 ^ F.DMA_C_OFS_OFS.w = s.rd F.DMA_C_OFS_OFS n.val + m := Nat.mod_eq_of_lt (Nat.lt_of_le_of_lt h14 hlt)
  generalize hofs : s.rd F.DMA_C_OFS_OFS n.val = ofs at *
  by_cases hdone : s.rd I.dLen n.val ≤ ofs + m
  · rw [if_pos (by
      simp (disch := decide) only [State.rd_wr_cell]
      have h1 : u.rd F.DMA_C_STAT_STATE n.val = dRUN := hst
      have h2 : u.rd I.dLen n.val = s.rd I.dLen n.val := hlen
      rw [h1, h2]; simpa using hdone)]
    rw [dmaEnd_plain _ _ _ _ (by simp (disch := decide) only [State.rd_wr_cell]; exact hmo ▸ h5)]
    have hq : ∀ (P : Prop) [Decidable P], ∃ l : List (Fld × Nat × Nat), (∀ p ∈ l, p.1 = F.DMA_IRQSTAT_CH) ∧
        (if P then [(F.DMA_IRQSTAT_CH, 0, setBit ((u.wr F.DMA_C_OFS_OFS n.val (ofs + m)).rd F.DMA_IRQSTAT_CH) n.val)] else []) = l := by
      intro P _
      refine ⟨_, ?_, rfl⟩
      split <;> simp
    obtain ⟨l, hl, he⟩ := hq ((dDONE != dDONE || bitOf ((u.wr F.DMA_C_OFS_OFS n.val (ofs + m)).rd I.dMode n.val) 0) = true)
    rw [he, puts_append]
    have hfin : ∀ (z : State), (∀ g j, F.DMA_IRQSTAT_CH.id ≠ g.id → (puts z l).rd g j = z.rd g j) ∧ SameButCells z (puts z l) := by
      intro z
      exact ⟨fun g j hg => puts_cell _ _ _ _ fun p hp => by rw [hl p hp]; exact hg, SameButCells.puts _ _⟩
    simp only [puts_cons, puts_nil]
    have z1 : ((((u.wr F.DMA_C_OFS_OFS n.val (ofs + m)).wr F.DMA_C_STAT_STATE n.val dDONE).wr F.DMA_C_STAT_ERR n.val 0).wr I.dWait n.val 0).rd F.DMA_C_OFS_OFS n.val = ofs + m := by
      simp (disch := decide) only [State.rd_wr_cell]
      exact (State.rd_wr_same _ _ _ _).trans hw32
    have z2 : ((((u.wr F.DMA_C_OFS_OFS n.val (ofs + m)).wr F.DMA_C_STAT_STATE n.val dDONE).wr F.DMA_C_STAT_ERR n.val 0).wr I.dWait n.val 0).rd F.DMA_C_STAT_STATE n.val = dDONE := by
      simp (disch := decide) only [State.rd_wr_cell]
      exact State.rd_wr_same _ _ _ _
    have z3 : SameButCells u ((((u.wr F.DMA_C_OFS_OFS n.val (ofs + m)).wr F.DMA_C_STAT_STATE n.val dDONE).wr F.DMA_C_STAT_ERR n.val 0).wr I.dWait n.val 0) := .wr (.wr (.wr (.wr (.refl _))))
    have z4 : SameOtherCells u ((((u.wr F.DMA_C_OFS_OFS n.val (ofs + m)).wr F.DMA_C_STAT_STATE n.val dDONE).wr F.DMA_C_STAT_ERR n.val 0).wr I.dWait n.val 0)
      [F.DMA_C_OFS_OFS, F.DMA_C_STAT_STATE, F.DMA_C_STAT_ERR, I.dWait] := .wr (.wr (.wr (.wr (.refl _ _) (by simp)) (by simp)) (by simp)) (by simp)
    generalize (((u.wr F.DMA_C_OFS_OFS n.val (ofs + m)).wr F.DMA_C_STAT_STATE n.val dDONE).wr F.DMA_C_STAT_ERR n.val 0).wr I.dWait n.val 0 = z at *
    obtain ⟨f1, f2⟩ := hfin z
    generalize puts z l = t at *
    have ht := z3.trans f2
    unfold SameButCells at ht
    refine ⟨fun a => ?_, (f1 _ _ (by decide)).trans z1, ?_, ?_, ?_⟩
    · rw [← hby a, ht]; rfl
    · rw [if_pos hdone]; exact (f1 _ _ (by decide)).trans z2
    · rw [ht]
      conv => lhs; rw [b2]
    · intro g j hg
      rw [f1 _ _ (hg _ (by simp)), z4 _ _ (fun f hf => hg f (by simp only [List.mem_cons, List.not_mem_nil, or_false] at hf; rcases hf with rfl | rfl | rfl | rfl <;> simp)),
        b3 _ _ (fun f hf => hg f (by simp only [List.mem_cons, List.not_mem_nil, or_false] at hf; rcases hf with rfl | rfl | rfl <;> simp))]
  · rw [if_neg (by
      simp (disch := decide) only [State.rd_wr_cell]
      have h2 : u.rd I.dLen n.val = s.rd I.dLen n.val := hlen
      rw [h2]; simpa using fun _ => hdone)]
    have ht : SameButCells u (u.wr F.DMA_C_OFS_OFS n.val (ofs + m)) := .wr (.refl _)
    have z1 : (u.wr F.DMA_C_OFS_OFS n.val (ofs + m)).rd F.DMA_C_OFS_OFS n.val = ofs + m := (State.rd_wr_same _ _ _ _).trans hw32
    have z2 : ∀ g j, F.DMA_C_OFS_OFS.id ≠ g.id → (u.wr F.DMA_C_OFS_OFS n.val (ofs + m)).rd g j = u.rd g j := fun g j h => State.rd_wr_cell _ _ _ _ _ _ h
    generalize u.wr F.DMA_C_OFS_OFS n.val (ofs + m) = t at *
    unfold SameButCells at ht
    refine ⟨fun a => ?_, z1, ?_, ?_, ?_⟩
    · rw [← hby a, ht]; rfl
    · rw [if_neg hdone, z2 _ _ (by decide)]; exact hst
    · rw [ht]
      conv => lhs; rw [b2]
    · intro g j hg
      rw [z2 _ _ (hg _ (by simp)), b3 _ _ (fun f hf => hg f (by simp only [List.mem_cons, List.not_mem_nil, or_false] at hf; rcases hf with rfl | rfl | rfl <;> simp))]

end Sys2Proof.Machine
end

