-- ==== Sys2Proof/Laws/CasePacket.lean ====
section
/-! SUPPORT.  Lemmas about received packets, their cells and the jitter buffer. -/

namespace Sys2Proof.Machine

open Safety

theorem pkeCnt_room (s : State) (k : Nat) (h : s.rd F.PKE_CNT_COUNT k + 2 < 2 ^ 32) : pkeCnt s k = puts s [(F.PKE_CNT_COUNT, k, s.rd F.PKE_CNT_COUNT k + 1)] := by
  unfold pkeCnt
  rw [bump_room _ _ _ _ h]
  rfl

theorem portCnt_room (s : State) (p k n : Nat) (h : s.rd F.PKE_P_CNT_COUNT (12 * p + k) + n + 1 < 2 ^ 32) : portCnt s p k n = s.wr F.PKE_P_CNT_COUNT (12 * p + k) (s.rd F.PKE_P_CNT_COUNT (12 * p + k) + n) := by
  unfold portCnt
  rw [bumpBy_room _ _ _ _ _ h]

theorem readLE_physWrite (s : State) (a : Nat) (b : List Byte) (x n : Nat) (h : x + n ≤ a ∨ a + b.length ≤ x) : (physWrite s a b).readLE x n = s.readLE x n := by
  obtain ⟨hb, -, -⟩ := physWrite_says s a b
  unfold State.readLE State.readBytes
  congr 1
  refine List.map_congr_left fun k hk => ?_
  have hk := List.mem_range.mp hk
  show Tbl.get _ (physWrite s a b).mem _ = Tbl.get _ s.mem _
  rw [hb]
  show (s.writeBytes a b).byte _ = s.byte _
  rw [State.byte_writeBytes, dif_neg (by omega)]

theorem fileRtp_done (s : State) (f : RxFrame) (idx : Nat) (b : List Byte) : fileRtp s { f with done := true } idx b = fileRtp s f idx b := by
  unfold fileRtp latchSsrc
  rfl

theorem rtpProcess_done (s : State) (f : RxFrame) : rtpProcess s { f with done := true } = rtpProcess s f := by
  unfold rtpProcess ssrcBad judgeE1 judgeE3
  simp only [fileRtp_done]

theorem settle_one (s : State) (f : RxFrame) (hf : s.rxFrames = [f]) : rxSettle s [] (markDone 0 s.rxFrames) = { rtpProcess s f with rxFrames := [] } := by
  rw [hf, ← rtpProcess_done s f]
  show rxSettle s [] [{ f with done := true }] = _
  unfold rxSettle
  rw [if_pos (by simp)]
  unfold rxSettle
  rfl

theorem jbFile_filed (s : State) (h : Nat) (k : JbPacket) (h1 : k.payload.length + 16 ≤ jb16 s h 2) (h2 : ¬ (bitOf (s.byte (h + 0xC)).toNat 0 = true ∧ diff16 k.seq (jb16 s h 0xA) ≤ 0))
    (h3 : ¬ (jbValid s h (k.seq % jb16 s h 4) = true ∧ jb16 s (jbSlot s h (k.seq % jb16 s h 4)) 0 = k.seq)) (h4 : jb16 s h 0 = jb16 s h 4) :
    jbFile s h k = (true, jbPut (jbPut (jbStore s h k) (h + 8) 2 (if 0 < diff16 k.seq (jb16 s h 8) then k.seq else jb16 s h 8)) (h + 0x10) 4 (min (s.readLE (h + 0x10) 4 + 1) (2 ^ 32 - 1))) := by
  unfold jbFile
  rw [if_neg (by omega), if_neg (by simpa using h2)]
  dsimp only
  rw [if_neg (by simpa using h3), if_neg (by rw [h4]; simp)]
  unfold jbCount
  rw [if_neg (by decide)]
  have hr : (jbPut (jbStore s h k) (h + 8) 2 (if 0 < diff16 k.seq (jb16 s h 8) then k.seq else jb16 s h 8)).readLE (h + 0x10) 4 = s.readLE (h + 0x10) 4 := ?_
  · rw [hr]
  unfold jbPut jbStore
  dsimp only
  rw [readLE_physWrite _ _ _ _ _ (by right; rw [leBytes_length]; omega), readLE_physWrite _ _ _ _ _ (by left; unfold jbSlot; omega), readLE_physWrite _ _ _ _ _ (by left; unfold jbSlot; omega)]

/-- The frame passes the port's first checks. -/
theorem admit_bad (s : State) (p sub : Nat) (b : List Byte) (e k ecc : Bool)
    (h : e = true ∨ b.length < 64 ∨ maxFrm s p < b.length ∨ b.drop (b.length - 4) ≠ leBytes 4 (crc32 (b.take (b.length - 4)))) :
    admitFrame s p sub b e k ecc = (portCnt s p 2, none) := by
  unfold admitFrame
  dsimp only
  rw [if_pos]
  rcases h with h | h | h | h <;> simp [h]

theorem admit_pass (s : State) (p sub : Nat) (b : List Byte) (e k ecc : Bool) (body : List Byte) (hb : b.take (b.length - 4) = body)
    (h : ¬ (e = true ∨ b.length < 64 ∨ maxFrm s p < b.length ∨ b.drop (b.length - 4) ≠ leBytes 4 (crc32 body))) :
    admitFrame s p sub b e k ecc = if beAt body 12 2 = 0x8808 then (portCnt s p 3, none)
      else if !macAccepts s p (body.take 6) then (s, none)
      else
        let s := portCnt (portCnt s p 0) p 1 b.length
        if k then (portCnt s p 4, none)
        else match takeCells s p ((body.length + 255) / 256) with
          | none => (portCnt s p 4, none)
          | some (cells, t) =>
            if ecc then (((pkeCnt (freeCells t cells) 10).set F.PKE_IRQSTAT_ECC 1).errEvent 8, none)
            else
              let st := rxStamp t p (t.rd F.PKE_P_TCFG_TSTB p) sub
              (storeCells t body cells, some ⟨p, st, rxStamp t p 0 sub / 256, cells, body⟩) := by
  subst hb
  unfold admitFrame
  refine (if_neg ?_)
  intro hh
  apply h
  simp only [Bool.or_eq_true, decide_eq_true_eq, bne_iff_ne] at hh
  rcases hh with ((hh | hh) | hh) | hh
  · exact Or.inl hh
  · exact Or.inr (Or.inl hh)
  · exact Or.inr (Or.inr (Or.inl hh))
  · exact Or.inr (Or.inr (Or.inr hh))

end Sys2Proof.Machine
end

