-- ==== Sys2Proof/Laws/CaseEgress.lean ====
section
/-! SUPPORT.  Lemmas about the end of a descriptor. -/

namespace Sys2Proof.Machine

open Safety

theorem strmCnt_room (s : State) (n k b : Nat) (h : s.rd I.stCnt (8 * n + k) + b + 1 < 2 ^ 32) : strmCnt s n k b = s.wr I.stCnt (8 * n + k) (s.rd I.stCnt (8 * n + k) + b) := by
  unfold strmCnt
  rw [bumpBy_room _ _ _ _ _ h]

theorem egEnd_plain (s : State) (f : EgFrame) (st at' o l : Nat) (h1 : f.own = false) (h2 : bitOf f.w3 25 = false) (h3 : f.svc = false) :
    egEnd s f st at' o l = endStream (endPortCnt s (dPort f) st o) f st at' := by
  unfold egEnd
  rw [h1, h2, h3]
  rfl

theorem portCells2 (s : State) (p k n j m : Nat) (hne : k ≠ j) : (s.wr F.PKE_P_CNT_COUNT (12 * p + k) n).rd F.PKE_P_CNT_COUNT (12 * p + j) = s.rd F.PKE_P_CNT_COUNT (12 * p + j) :=
  State.rd_wr_inst _ _ _ _ _ (by omega)

theorem endStream_sent (s : State) (f : EgFrame) (at' : Nat) (h : ∀ k, s.rd I.stCnt k + 4096 < 2 ^ 32) (ho : f.octets ≤ 2048) : endStream s f egSENT at' =
    puts s ([(I.stCnt, 8 * dStrm f + 1, s.rd I.stCnt (8 * dStrm f + 1) + 1), (I.stCnt, 8 * dStrm f + 2, s.rd I.stCnt (8 * dStrm f + 2) + f.octets)] ++
        (if dRaw f then [] else [(I.stCnt, 8 * dStrm f + 3, f.idx), (I.stCnt, 8 * dStrm f + 4, f.ts)]) ++ [(I.stCnt, 8 * dStrm f + 7, at' / 256)]) := by
  unfold endStream
  dsimp only
  rw [if_pos (by decide), if_neg (by decide), strmCnt_room s _ _ _ (by have := h (8 * dStrm f + 1); omega), strmCnt_room _ _ 2 _ (by rw [State.rd_wr_inst _ _ _ _ _ (by omega)]; have := h (8 * dStrm f + 2); omega),
    State.rd_wr_inst _ _ _ _ _ (by omega)]
  cases dRaw f
  · rfl
  · rfl

theorem endStream_late (s : State) (f : EgFrame) (at' : Nat) (h : ∀ k, s.rd I.stCnt k + 4096 < 2 ^ 32) (ho : f.octets ≤ 2048) : endStream s f egLATE at' =
    puts s ([(I.stCnt, 8 * dStrm f + 1, s.rd I.stCnt (8 * dStrm f + 1) + 1), (I.stCnt, 8 * dStrm f + 2, s.rd I.stCnt (8 * dStrm f + 2) + f.octets)] ++
        (if dRaw f then [] else [(I.stCnt, 8 * dStrm f + 3, f.idx), (I.stCnt, 8 * dStrm f + 4, f.ts)]) ++ [(I.stCnt, 8 * dStrm f + 7, at' / 256), (I.stCnt, 8 * dStrm f + 5, s.rd I.stCnt (8 * dStrm f + 5) + 1)]) := by
  unfold endStream
  dsimp only
  rw [if_pos (by decide), if_pos (by decide), strmCnt_room s _ _ _ (by have := h (8 * dStrm f + 1); omega), strmCnt_room _ _ 2 _ (by rw [State.rd_wr_inst _ _ _ _ _ (by omega)]; have := h (8 * dStrm f + 2); omega),
    State.rd_wr_inst _ _ _ _ _ (by omega)]
  have h5 := h (8 * dStrm f + 5)
  cases dRaw f
  · simp only [Bool.false_eq_true, if_false]
    rw [strmCnt_room]
    · repeat rw [State.rd_wr_inst _ _ _ _ _ (by omega)]
      rfl
    · repeat rw [State.rd_wr_inst _ _ _ _ _ (by omega)]
      omega
  · simp only [if_true]
    rw [strmCnt_room]
    · repeat rw [State.rd_wr_inst _ _ _ _ _ (by omega)]
      rfl
    · repeat rw [State.rd_wr_inst _ _ _ _ _ (by omega)]
      omega

theorem earliest_one (s : State) (p : Nat) (f : EgFrame) : earliest s p [f] = some f := rfl

theorem dropFirst_one (f : EgFrame) : dropFirst f [f] = [] := by
  unfold dropFirst
  rw [if_pos rfl]

end Sys2Proof.Machine
end

