-- ==== Sys2Proof/Laws/CaseLife.lean ====
section
/-! SUPPORT.  The life of a task: what the shared operations of TSU and of a core's banks leave. -/

namespace Sys2Proof.Machine

open Safety

/-- The cells of a register bank (R127). -/
def bankRegs : List Fld := [I.d, I.ac, I.p, I.m, I.bb, I.ll, I.lc, I.ls, I.le, I.rrb, I.cmode, I.flZ, I.flN, I.flC, I.flV, I.acov, I.jobid, I.ctxv,
      I.pcb, I.act, I.rot, I.btgt, I.trapv, I.trpc, I.tcause, I.taddr, I.tds, I.tbtgt, I.dly, I.btaken, I.cycle, I.arith, I.arithAge]

theorem bankRegs_inj : ∀ f ∈ bankRegs, ∀ g ∈ bankRegs, f.id = g.id → f = g := by decide

/-- A cell of a bank after a zero: as it was, or zero. -/
theorem wr_zero (w : State) (f g : Fld) (i j : Nat) (hf : f ∈ bankRegs) (hg : g ∈ bankRegs) :
    (w.wr f i 0).rd g j = w.rd g j ∨ (w.wr f i 0).rd g j = 0 := by
  by_cases he : f.id = g.id ∧ i = j
  · right
    have := bankRegs_inj f hf g hg he.1
    subst this; rw [he.2, State.rd_wr_same, Nat.zero_mod]
  · left; exact State.rd_wr_other _ _ _ _ _ _ fun h1 h2 => he ⟨h1, h2⟩

/-- A cell after a word of zeros is spelled into some cells: as it was, or zero. -/
theorem unspell_zero (l : List (Fld × Nat × Nat)) (s : State) (g : Fld) (j : Nat) (hl : ∀ p ∈ l, p.1 ∈ bankRegs) (hg : g ∈ bankRegs) : (unspell s 0 l).rd g j = s.rd g j ∨ (unspell s 0 l).rd g j = 0 := by
  induction l generalizing s with
  | nil => exact Or.inl rfl
  | cons a r ih =>
    obtain ⟨f, i, n⟩ := a
    have e : unspell s 0 ((f, i, n) :: r) = unspell (s.wr f i 0) 0 r := by
      show unspell (s.wr f i (0 % 2 ^ n)) (0 / 2 ^ n) r = _
      rw [Nat.zero_mod, Nat.zero_div]
    rw [e]
    rcases ih (s.wr f i 0) fun p hp => hl p (by simp [hp]) with h | h
    · rw [h]
      exact wr_zero s f g i j (hl (f, i, n) (by simp)) hg
    · exact Or.inr h

theorem unspell_zeroes (l : List (Fld × Nat × Nat)) (s : State) (p : Fld × Nat × Nat) (h : p ∈ l) (hl : ∀ p ∈ l, p.1 ∈ bankRegs) : (unspell s 0 l).rd p.1 p.2.1 = 0 := by
  induction l generalizing s with
  | nil => exact absurd h (by simp)
  | cons a r ih =>
    obtain ⟨f, i, n⟩ := a
    have e : unspell s 0 ((f, i, n) :: r) = unspell (s.wr f i 0) 0 r := by
      show unspell (s.wr f i (0 % 2 ^ n)) (0 / 2 ^ n) r = _
      rw [Nat.zero_mod, Nat.zero_div]
    rw [e]
    rcases List.mem_cons.mp h with rfl | h
    · rcases unspell_zero r (s.wr f i 0) f i (fun p hp => hl p (by simp [hp])) (hl (f, i, n) (by simp)) with h | h
      · rw [h, State.rd_wr_same, Nat.zero_mod]
      · exact h
    · exact ih _ h fun p hp => hl p (by simp [hp])

theorem unspell_ac (l : List (Fld × Nat × Nat)) (v : Nat) (s : State) (g : Fld) (h : ∀ p ∈ l, p.1.id ≠ g.id) (j : Nat) : (unspell s v l).rd g j = s.rd g j := by
  induction l generalizing s v with
  | nil => rfl
  | cons a r ih =>
    obtain ⟨f, i, n⟩ := a
    show (unspell (s.wr f i (v % 2 ^ n)) (v / 2 ^ n) r).rd g j = _
    rw [ih _ _ fun p hp => h p (by simp [hp])]
    exact State.rd_wr_cell _ _ _ _ _ _ (h (f, i, n) (by simp))

theorem unspell_same (l : List (Fld × Nat × Nat)) (v : Nat) (s : State) : SameButCells s (unspell s v l) := by
  induction l generalizing s v with
  | nil => rfl
  | cons a r ih =>
    obtain ⟨f, i, n⟩ := a
    exact (SameButCells.wr (SameButCells.refl s)).trans (ih _ _)

theorem recordWord_cells (b off : Nat) : ∀ p ∈ recordWord b off, p.1 ∈ bankRegs ∧ p.1.id ≠ I.ac.id := by
  have hc : ∀ f ∈ [I.d, I.p, I.m, I.bb, I.ll, I.lc, I.ls, I.le, I.rrb, I.cmode, I.flZ, I.flN, I.flC, I.flV, I.acov, I.jobid, I.ctxv,
      I.pcb, I.act, I.rot, I.btgt, I.trapv, I.trpc, I.tcause, I.taddr, I.tds, I.tbtgt], f ∈ bankRegs ∧ f.id ≠ I.ac.id := by decide
  intro p hp
  refine hc _ ?_
  revert p
  generalize hL : [I.d, I.p, I.m, I.bb, I.ll, I.lc, I.ls, I.le, I.rrb, I.cmode, I.flZ, I.flN, I.flC, I.flV, I.acov, I.jobid, I.ctxv,
      I.pcb, I.act, I.rot, I.btgt, I.trapv, I.trpc, I.tcause, I.taddr, I.tds, I.tbtgt] = L
  clear hc
  unfold recordWord
  by_cases h0 : off < 0x40
  · rw [if_pos h0]; intro p hp; simp only [List.mem_cons, List.not_mem_nil, or_false] at hp; rcases hp with rfl | rfl <;> rw [← hL] <;> dsimp only <;> decide
  rw [if_neg h0]
  by_cases h1 : off < 0xC0
  · rw [if_pos h1]; intro p hp; exact absurd hp (by simp)
  rw [if_neg h1]
  by_cases h2 : off < 0x100
  · rw [if_pos h2]; intro p hp; simp only [List.mem_cons, List.not_mem_nil, or_false] at hp; subst hp; rw [← hL]; dsimp only; decide
  rw [if_neg h2]
  by_cases h3 : off < 0x120
  · rw [if_pos h3]; intro p hp; simp only [List.mem_cons, List.not_mem_nil, or_false] at hp; subst hp; rw [← hL]; dsimp only; decide
  rw [if_neg h3]
  by_cases h4 : off < 0x140
  · rw [if_pos h4]; intro p hp; simp only [List.mem_cons, List.not_mem_nil, or_false] at hp; subst hp; rw [← hL]; dsimp only; decide
  rw [if_neg h4]
  by_cases h5 : off < 0x160
  · rw [if_pos h5]; intro p hp; simp only [List.mem_cons, List.not_mem_nil, or_false] at hp; subst hp; rw [← hL]; dsimp only; decide
  rw [if_neg h5]
  by_cases h6 : off < 0x168
  · rw [if_pos h6]; intro p hp; simp only [List.mem_cons, List.not_mem_nil, or_false] at hp; subst hp; rw [← hL]; dsimp only; decide
  rw [if_neg h6]
  by_cases h7 : off < 0x170
  · rw [if_pos h7]; intro p hp; simp only [List.mem_cons, List.not_mem_nil, or_false] at hp; subst hp; rw [← hL]; dsimp only; decide
  rw [if_neg h7]
  by_cases h8 : off < 0x178
  · rw [if_pos h8]; intro p hp; simp only [List.mem_cons, List.not_mem_nil, or_false] at hp; subst hp; rw [← hL]; dsimp only; decide
  rw [if_neg h8]
  clear h0 h1 h2 h3 h4 h5 h6 h7 h8
  split
  all_goals
    intro p hp
    simp only [List.mem_cons, List.not_mem_nil, or_false] at hp
    try first
    | exact hp.elim
    | (subst hp; rw [← hL]; dsimp only; decide)
    | (rcases hp with rfl | rfl <;> rw [← hL] <;> dsimp only <;> decide)
    | (rcases hp with rfl | rfl | rfl | rfl | rfl <;> rw [← hL] <;> dsimp only <;> decide)

theorem recordWord_plain (b off : Nat) : off ∉ [0x17C, 0x184, 0x188, 0x18C, 0x1A0] → ∀ p ∈ recordWord b off,
    p.1.id ∉ [I.cmode.id, I.jobid.id, I.ctxv.id, I.pcb.id, I.trapv.id] := by
  have hc : ∀ f ∈ [I.d, I.p, I.m, I.bb, I.ll, I.lc, I.ls, I.le, I.rrb, I.flZ, I.flN, I.flC, I.flV, I.acov,
      I.act, I.rot, I.btgt, I.trpc, I.tcause, I.taddr, I.tds, I.tbtgt], f.id ∉ [I.cmode.id, I.jobid.id, I.ctxv.id, I.pcb.id, I.trapv.id] := by decide
  suffices h : off ∉ [0x17C, 0x184, 0x188, 0x18C, 0x1A0] → ∀ p ∈ recordWord b off, p.1 ∈ [I.d, I.p, I.m, I.bb, I.ll, I.lc, I.ls, I.le, I.rrb, I.flZ, I.flN, I.flC, I.flV, I.acov,
      I.act, I.rot, I.btgt, I.trpc, I.tcause, I.taddr, I.tds, I.tbtgt] from fun hx p hp => hc _ (h hx p hp)
  generalize hL : [I.d, I.p, I.m, I.bb, I.ll, I.lc, I.ls, I.le, I.rrb, I.flZ, I.flN, I.flC, I.flV, I.acov,
      I.act, I.rot, I.btgt, I.trpc, I.tcause, I.taddr, I.tds, I.tbtgt] = L
  clear hc
  unfold recordWord
  by_cases h0 : off < 0x40
  · rw [if_pos h0]; intro _ p hp; simp only [List.mem_cons, List.not_mem_nil, or_false] at hp; rcases hp with rfl | rfl <;> rw [← hL] <;> dsimp only <;> decide
  rw [if_neg h0]
  by_cases h1 : off < 0xC0
  · rw [if_pos h1]; intro _ p hp; exact absurd hp (by simp)
  rw [if_neg h1]
  by_cases h2 : off < 0x100
  · rw [if_pos h2]; intro _ p hp; simp only [List.mem_cons, List.not_mem_nil, or_false] at hp; subst hp; rw [← hL]; dsimp only; decide
  rw [if_neg h2]
  by_cases h3 : off < 0x120
  · rw [if_pos h3]; intro _ p hp; simp only [List.mem_cons, List.not_mem_nil, or_false] at hp; subst hp; rw [← hL]; dsimp only; decide
  rw [if_neg h3]
  by_cases h4 : off < 0x140
  · rw [if_pos h4]; intro _ p hp; simp only [List.mem_cons, List.not_mem_nil, or_false] at hp; subst hp; rw [← hL]; dsimp only; decide
  rw [if_neg h4]
  by_cases h5 : off < 0x160
  · rw [if_pos h5]; intro _ p hp; simp only [List.mem_cons, List.not_mem_nil, or_false] at hp; subst hp; rw [← hL]; dsimp only; decide
  rw [if_neg h5]
  by_cases h6 : off < 0x168
  · rw [if_pos h6]; intro _ p hp; simp only [List.mem_cons, List.not_mem_nil, or_false] at hp; subst hp; rw [← hL]; dsimp only; decide
  rw [if_neg h6]
  by_cases h7 : off < 0x170
  · rw [if_pos h7]; intro _ p hp; simp only [List.mem_cons, List.not_mem_nil, or_false] at hp; subst hp; rw [← hL]; dsimp only; decide
  rw [if_neg h7]
  by_cases h8 : off < 0x178
  · rw [if_pos h8]; intro _ p hp; simp only [List.mem_cons, List.not_mem_nil, or_false] at hp; subst hp; rw [← hL]; dsimp only; decide
  rw [if_neg h8]
  clear h0 h1 h2 h3 h4 h5 h6 h7 h8
  split
  all_goals
    intro hx p hp
    simp only [List.mem_cons, List.not_mem_nil, or_false] at hp
    try first
    | exact hp.elim
    | exact absurd hx (by decide)
    | (subst hp; rw [← hL]; dsimp only; decide)
    | (rcases hp with rfl | rfl <;> rw [← hL] <;> dsimp only <;> decide)
    | (rcases hp with rfl | rfl | rfl | rfl | rfl <;> rw [← hL] <;> dsimp only <;> decide)

theorem recordWord_mode (b : Nat) : recordWord b 0x17C = [(I.cmode, b, 32)] := rfl

theorem recordWord_cause (b : Nat) : recordWord b 0x1A8 = [(I.tcause, b, 32)] := rfl

theorem recordWrite_same (s : State) (b off v : Nat) : SameButCells s (recordWrite s b off v) := by
  unfold recordWrite
  split
  · exact SameButCells.wr (SameButCells.refl s)
  split
  · exact (SameButCells.wr (SameButCells.wr (SameButCells.refl s))).trans (unspell_same _ _ _)
  split
  · exact SameButCells.wr (SameButCells.refl s)
  split
  · exact SameButCells.wr (SameButCells.refl s)
  · exact unspell_same _ _ _

theorem recordWrite_other (s : State) (b off v : Nat) : SameOtherCells s (recordWrite s b off v) bankRegs := by
  have hu : ∀ (w : State) (x : Nat), SameOtherCells w (unspell w x (recordWord b off)) bankRegs := fun w x g j hg =>
    unspell_ac _ _ _ _ (fun p hp => hg _ (recordWord_cells b off p hp).1) j
  unfold recordWrite
  split
  · exact (SameOtherCells.refl s _).wr (by simp [bankRegs])
  split
  · exact (((SameOtherCells.refl s _).wr (by simp [bankRegs])).wr (by simp [bankRegs])).trans (hu _ _)
  split
  · exact (SameOtherCells.refl s _).wr (by simp [bankRegs])
  split
  · exact (SameOtherCells.refl s _).wr (by simp [bankRegs])
  · exact hu _ _

theorem recordWrite_nonzero (s : State) (b off v : Nat) (g : Fld) (hg : ∀ f ∈ bankRegs, f.id ≠ g.id) : (recordWrite s b off v).nonzero g = s.nonzero g := by
  have hw : ∀ (w : State) (f : Fld) (i x : Nat), f ∈ bankRegs → (w.wr f i x).nonzero g = w.nonzero g := fun w f i x hf => nonzero_wr_other _ _ _ _ _ (hg f hf)
  have hu : ∀ (l : List (Fld × Nat × Nat)) (w : State) (x : Nat), (∀ p ∈ l, p.1 ∈ bankRegs) → (unspell w x l).nonzero g = w.nonzero g := by
    intro l
    induction l with
    | nil => exact fun _ _ _ => rfl
    | cons a r ih =>
      intro w x h
      obtain ⟨f, i, n⟩ := a
      show (unspell (w.wr f i (x % 2 ^ n)) (x / 2 ^ n) r).nonzero g = _
      rw [ih _ _ fun p hp => h p (by simp [hp]), hw _ _ _ _ (h (f, i, n) (by simp))]
  have hu' : ∀ (w : State) (x : Nat), (unspell w x (recordWord b off)).nonzero g = w.nonzero g := fun w x => hu _ w x fun p hp => (recordWord_cells b off p hp).1
  unfold recordWrite
  split
  · exact hw _ _ _ _ (by simp [bankRegs])
  split
  · rw [hu', hw _ _ _ _ (by simp [bankRegs]), hw _ _ _ _ (by simp [bankRegs])]
  split
  · exact hw _ _ _ _ (by simp [bankRegs])
  split
  · exact hw _ _ _ _ (by simp [bankRegs])
  · exact hu' _ _

theorem clearBank_nonzero (s : State) (b : Nat) (g : Fld) (hg : ∀ f ∈ bankRegs, f.id ≠ g.id) : (clearBank s b).nonzero g = s.nonzero g := by
  have hw : ∀ (w : State) (f : Fld) (i x : Nat), f ∈ bankRegs → (w.wr f i x).nonzero g = w.nonzero g := fun w f i x hf => nonzero_wr_other _ _ _ _ _ (hg f hf)
  unfold clearBank
  dsimp only
  rw [hw _ _ _ _ (by simp [bankRegs]), hw _ _ _ _ (by simp [bankRegs]), hw _ _ _ _ (by simp [bankRegs]), hw _ _ _ _ (by simp [bankRegs])]
  exact State.over_keeps (fun u => u.nonzero g) _ _ _ fun u x => recordWrite_nonzero u b x 0 g hg

/-- A zero word written to a bank leaves every cell but AC as it was, or zero. -/
theorem recordWrite_zero (s : State) (b off : Nat) (g : Fld) (j : Nat) (hgb : g ∈ bankRegs) (hg : I.ac.id ≠ g.id) :
    (recordWrite s b off 0).rd g j = s.rd g j ∨ (recordWrite s b off 0).rd g j = 0 := by
  have hz : ∀ (w : State) (f : Fld) (i : Nat), f ∈ bankRegs → (w.wr f i 0).rd g j = w.rd g j ∨ (w.wr f i 0).rd g j = 0 := fun w f i hf => wr_zero w f g i j hf hgb
  have hwc : ∀ p ∈ recordWord b off, p.1 ∈ bankRegs := fun p hp => (recordWord_cells b off p hp).1
  unfold recordWrite
  split
  · left; exact State.rd_wr_cell _ _ _ _ _ _ hg
  split
  · show (unspell ((s.wr I.dly b 0).wr I.btaken b 0) 0 _).rd g j = _ ∨ (unspell ((s.wr I.dly b 0).wr I.btaken b 0) 0 _).rd g j = 0
    rcases unspell_zero (recordWord b off) ((s.wr I.dly b 0).wr I.btaken b 0) g j hwc hgb with h | h
    · rw [h]
      rcases hz (s.wr I.dly b 0) I.btaken b (by simp [bankRegs]) with h | h
      · rw [h]; exact hz _ _ _ (by simp [bankRegs])
      · exact Or.inr h
    · exact Or.inr h
  split
  · rw [show Nat.land 0 maskMode = 0 from Nat.zero_and _]; exact hz _ _ _ (by simp [bankRegs])
  split
  · rw [show Nat.land 0 maskCause = 0 from Nat.zero_and _]; exact hz _ _ _ (by simp [bankRegs])
  · exact unspell_zero _ _ _ _ hwc hgb

/-- A zero word written to a bank zeroes its cells. -/
theorem recordWrite_zeroes (s : State) (b off : Nat) (hoff : (0x40 ≤ off && off < 0xC0) = false) (p : Fld × Nat × Nat) (hp : p ∈ recordWord b off) :
    (recordWrite s b off 0).rd p.1 p.2.1 = 0 := by
  have hwc : ∀ p ∈ recordWord b off, p.1 ∈ bankRegs := fun p hp => (recordWord_cells b off p hp).1
  unfold recordWrite
  rw [hoff]
  simp only [Bool.false_eq_true, if_false]
  split
  · exact unspell_zeroes _ _ _ hp hwc
  split
  · rename_i h; subst h; rw [recordWord_mode] at hp
    simp only [List.mem_cons, List.not_mem_nil, or_false] at hp; subst hp
    rw [show Nat.land 0 maskMode = 0 from Nat.zero_and _, State.rd_wr_same, Nat.zero_mod]
  split
  · rename_i h; subst h; rw [recordWord_cause] at hp
    simp only [List.mem_cons, List.not_mem_nil, or_false] at hp; subst hp
    rw [show Nat.land 0 maskCause = 0 from Nat.zero_and _, State.rd_wr_same, Nat.zero_mod]
  · exact unspell_zeroes _ _ _ hp hwc

/-- What a zero word leaves of the accumulators. -/
theorem recordWrite_ac (s : State) (b off j : Nat) :
    ((s.rd I.ac j % 2 ^ 32 = 0 ∨ ((0x40 ≤ off && off < 0xC0) = true ∧ (off - 0x40) % 8 = 0 ∧ j = 16 * b + (off - 0x40) / 8)) →
      (recordWrite s b off 0).rd I.ac j % 2 ^ 32 = 0) ∧
    ((s.rd I.ac j / 2 ^ 32 = 0 ∨ ((0x40 ≤ off && off < 0xC0) = true ∧ (off - 0x40) % 8 ≠ 0 ∧ j = 16 * b + (off - 0x40) / 8)) →
      (recordWrite s b off 0).rd I.ac j / 2 ^ 32 = 0) := by
  by_cases ho : (0x40 ≤ off && off < 0xC0) = true
  · have hw : recordWrite s b off 0 = s.wr I.ac (16 * b + (off - 0x40) / 8)
        (if (off - 0x40) % 8 = 0 then s.rd I.ac (16 * b + (off - 0x40) / 8) / 2 ^ 32 * 2 ^ 32 else s.rd I.ac (16 * b + (off - 0x40) / 8) % 2 ^ 32) := by
      unfold recordWrite
      rw [if_pos ho]
      have e1 : ∀ x, x * 2 ^ 32 + 0 % 2 ^ 32 = x * 2 ^ 32 := fun x => by rw [Nat.zero_mod, Nat.add_zero]
      have e2 : ∀ x, 0 % 256 * 2 ^ 32 + x = x := fun x => by rw [Nat.zero_mod, Nat.zero_mul, Nat.zero_add]
      simp only [e1, e2]
    have hlt := s.rd_lt I.ac j
    have hw40 : I.ac.w = 40 := rfl
    rw [hw40] at hlt
    rw [hw, State.rd_wr, hw40]
    by_cases hj : 16 * b + (off - 0x40) / 8 = j
    · subst hj
      rw [if_pos rfl]
      by_cases h8 : (off - 0x40) % 8 = 0
      · rw [if_pos h8]
        refine ⟨fun _ => by omega, fun h => ?_⟩
        rcases h with h | h
        · rw [h]; norm_num
        · exact absurd h8 h.2.1
      · rw [if_neg h8]
        refine ⟨fun h => ?_, fun _ => by omega⟩
        rcases h with h | h
        · rw [h]; norm_num
        · exact absurd h.2.1 h8
    · rw [if_neg hj]
      exact ⟨fun h => h.elim id fun h => absurd h.2.2.symm hj, fun h => h.elim id fun h => absurd h.2.2.symm hj⟩
  · have hu : (recordWrite s b off 0).rd I.ac j = s.rd I.ac j := by
      have hz : ∀ (w : State), (unspell w 0 (recordWord b off)).rd I.ac j = w.rd I.ac j := fun w => unspell_ac _ _ _ _ (fun p hp => (recordWord_cells b off p hp).2) j
      unfold recordWrite
      rw [if_neg ho]
      split
      · show (unspell ((s.wr I.dly b 0).wr I.btaken b 0) 0 _).rd I.ac j = _
        rw [hz]; simp (disch := decide) only [State.rd_wr_cell]
      split
      · exact State.rd_wr_cell _ _ _ _ _ _ (by decide)
      split
      · exact State.rd_wr_cell _ _ _ _ _ _ (by decide)
      · exact hz _
    rw [hu]
    exact ⟨fun h => h.elim id fun h => absurd h.1 ho, fun h => h.elim id fun h => absurd h.1 ho⟩

/-- A property that every step of a fold keeps, and that one element's step establishes. -/
theorem over_gets {α : Type} (P : State → Prop) (f : State → α → State) (l : List α) (s : State) (a : α) (ha : a ∈ l)
    (hk : ∀ u x, P u → P (f u x)) (hg : ∀ u, P (f u a)) : P (s.over l f) := by
  have hkeep : ∀ (l : List α) (u : State), P u → P (u.over l f) := by
    intro l
    induction l with
    | nil => exact fun _ h => h
    | cons x r ih => exact fun u h => ih _ (hk u x h)
  induction l generalizing s with
  | nil => exact absurd ha (by simp)
  | cons x r ih =>
    rcases List.mem_cons.mp ha with rfl | h
    · exact hkeep r _ (hg s)
    · exact ih _ h

/-- Every register of a cleared bank is zero (R104). -/
theorem clearBank_says (s : State) (b : Nat) : let u := clearBank s b
    (∀ off ∈ recordOffsets, ∀ p ∈ recordWord b off, u.rd p.1 p.2.1 = 0) ∧ (∀ k, k < 16 → u.rd I.ac (16 * b + k) = 0) ∧
    u.rd I.dly b = 0 ∧ u.rd I.btaken b = 0 ∧ SameButCells s u ∧ SameOtherCells s u bankRegs := by
  have ho : ∀ off ∈ recordOffsets, (0x40 ≤ off && off < 0xC0) = true → recordWord b off = [] := by
    intro off _ h
    simp only [Bool.and_eq_true, decide_eq_true_eq] at h
    unfold recordWord
    rw [if_neg (by omega), if_pos h.2]
  have h1 : ∀ off ∈ recordOffsets, ∀ p ∈ recordWord b off, (s.over recordOffsets fun s off => recordWrite s b off 0).rd p.1 p.2.1 = 0 := by
    intro off hoff p hp
    refine over_gets (fun u => u.rd p.1 p.2.1 = 0) _ _ _ off hoff (fun u x hu => ?_) (fun u => ?_)
    · rcases recordWrite_zero u b x p.1 p.2.1 (recordWord_cells b off p hp).1 (fun e => (recordWord_cells b off p hp).2 e.symm) with h | h
      · exact h.trans hu
      · exact h
    · refine recordWrite_zeroes u b off ?_ p hp
      by_cases h : (0x40 ≤ off && off < 0xC0) = true
      · rw [ho off hoff h] at hp; exact absurd hp (by simp)
      · simpa using h
  have h2 : ∀ k, k < 16 → (s.over recordOffsets fun s off => recordWrite s b off 0).rd I.ac (16 * b + k) = 0 := by
    intro k hk
    have hm : ∀ o, o < 110 → 4 * o ∈ recordOffsets := by
      intro o ho
      unfold recordOffsets
      exact List.mem_map.mpr ⟨o, by simp [ho], rfl⟩
    have a1 : (s.over recordOffsets fun s off => recordWrite s b off 0).rd I.ac (16 * b + k) % 2 ^ 32 = 0 := by
      refine over_gets (fun u => u.rd I.ac (16 * b + k) % 2 ^ 32 = 0) _ _ _ (4 * (16 + 2 * k)) (hm _ (by omega)) (fun u x hu => (recordWrite_ac u b x _).1 (Or.inl hu)) fun u => ?_
      exact (recordWrite_ac u b _ _).1 (Or.inr ⟨by simp only [Bool.and_eq_true, decide_eq_true_eq]; constructor <;> omega, by omega, by omega⟩)
    have a2 : (s.over recordOffsets fun s off => recordWrite s b off 0).rd I.ac (16 * b + k) / 2 ^ 32 = 0 := by
      refine over_gets (fun u => u.rd I.ac (16 * b + k) / 2 ^ 32 = 0) _ _ _ (4 * (16 + 2 * k + 1)) (hm _ (by omega)) (fun u x hu => (recordWrite_ac u b x _).2 (Or.inl hu)) fun u => ?_
      exact (recordWrite_ac u b _ _).2 (Or.inr ⟨by simp only [Bool.and_eq_true, decide_eq_true_eq]; constructor <;> omega, by omega, by omega⟩)
    omega
  have h3 : (s.over recordOffsets fun s off => recordWrite s b off 0).rd I.dly b = 0 := by
    have hw : ∀ u : State, (recordWrite u b 0x190 0).rd I.dly b = 0 := by
      intro u
      show (unspell ((u.wr I.dly b 0).wr I.btaken b 0) 0 [(I.act, b, 2), (I.rot, b, 28)]).rd I.dly b = 0
      rw [unspell_ac _ _ _ _ (by intro p hp; simp only [List.mem_cons, List.not_mem_nil, or_false] at hp; rcases hp with rfl | rfl <;> dsimp only <;> decide)]
      rw [State.rd_wr_cell _ _ _ _ _ _ (by decide), State.rd_wr_same]; rfl
    exact over_gets (fun u => u.rd I.dly b = 0) _ _ _ 0x190 (by decide) (fun u x hu => by
      rcases recordWrite_zero u b x I.dly b (by simp [bankRegs]) (by decide) with h | h
      · exact h.trans hu
      · exact h) hw
  have h4 : (s.over recordOffsets fun s off => recordWrite s b off 0).rd I.btaken b = 0 := by
    have hw : ∀ u : State, (recordWrite u b 0x190 0).rd I.btaken b = 0 := by
      intro u
      show (unspell ((u.wr I.dly b 0).wr I.btaken b 0) 0 [(I.act, b, 2), (I.rot, b, 28)]).rd I.btaken b = 0
      rw [unspell_ac _ _ _ _ (by intro p hp; simp only [List.mem_cons, List.not_mem_nil, or_false] at hp; rcases hp with rfl | rfl <;> dsimp only <;> decide)]
      rw [State.rd_wr_same]; rfl
    exact over_gets (fun u => u.rd I.btaken b = 0) _ _ _ 0x190 (by decide) (fun u x hu => by
      rcases recordWrite_zero u b x I.btaken b (by simp [bankRegs]) (by decide) with h | h
      · exact h.trans hu
      · exact h) hw
  have h5 := SameButCells.over (SameButCells.refl s) recordOffsets (fun s off => recordWrite s b off 0) fun u x => recordWrite_same u b x 0
  have h6 := SameOtherCells.over (SameOtherCells.refl s bankRegs) recordOffsets (fun s off => recordWrite s b off 0) fun u x => recordWrite_other u b x 0
  unfold clearBank
  dsimp only
  generalize s.over recordOffsets (fun s off => recordWrite s b off 0) = u at *
  have hkeep : ∀ g j, I.cycle.id ≠ g.id → I.btaken.id ≠ g.id → I.arith.id ≠ g.id → I.arithAge.id ≠ g.id →
      ((((u.wr I.cycle b 0).wr I.btaken b 0).wr I.arith b 0).wr I.arithAge b 0).rd g j = u.rd g j := by
    intro g j e1 e2 e3 e4
    rw [State.rd_wr_cell _ _ _ _ _ _ e4, State.rd_wr_cell _ _ _ _ _ _ e3, State.rd_wr_cell _ _ _ _ _ _ e2, State.rd_wr_cell _ _ _ _ _ _ e1]
  refine ⟨fun off hoff p hp => ?_, fun k hk => ?_, ?_, ?_, ?_, ?_⟩
  · have hz := h1 off hoff p hp
    have hwz : ∀ (w : State) (f : Fld) (i : Nat), f ∈ bankRegs → w.rd p.1 p.2.1 = 0 → (w.wr f i 0).rd p.1 p.2.1 = 0 := by
      intro w f i hf hw
      rcases wr_zero w f p.1 i p.2.1 hf (recordWord_cells b off p hp).1 with h | h
      · exact h.trans hw
      · exact h
    exact hwz _ _ _ (by simp [bankRegs]) (hwz _ _ _ (by simp [bankRegs]) (hwz _ _ _ (by simp [bankRegs]) (hwz _ _ _ (by simp [bankRegs]) hz)))
  · rw [hkeep _ _ (by decide) (by decide) (by decide) (by decide)]; exact h2 k hk
  · rw [hkeep _ _ (by decide) (by decide) (by decide) (by decide)]; exact h3
  · rw [State.rd_wr_cell _ _ _ _ _ _ (by decide), State.rd_wr_cell _ _ _ _ _ _ (by decide), State.rd_wr_same]; rfl
  · exact .trans h5 (.wr (.wr (.wr (.wr (.refl _)))))
  · exact .trans h6 (.wr (.wr (.wr (.wr (.refl _ _) (by simp [bankRegs])) (by simp [bankRegs])) (by simp [bankRegs])) (by simp [bankRegs]))

theorem spell_zero (s : State) (l : List (Fld × Nat × Nat)) (h : ∀ p ∈ l, s.rd p.1 p.2.1 = 0) : spell s l = 0 := by
  induction l with
  | nil => rfl
  | cons a r ih =>
    obtain ⟨f, i, n⟩ := a
    show s.rd f i + 2 ^ n * spell s r = 0
    rw [ih fun p hp => h p (by simp [hp]), h (f, i, n) (by simp), Nat.mul_zero]

/-- The core's part of a dispatch, from the state i whose bank is set up. -/
def startJob (i : State) (c q b : Nat) : State :=
  { (((((((i.wr F.TSU_T_STAT_STATE q tRUNNING).wr F.TSU_T_STAT_RESUME q 0).wr I.cJob c (q + 1)).wr I.cNext c 0).wr I.waiting c 0).wr I.bankJob b (q + 1)).wr I.jDisp q 1)
      with bundles := Tbl.drop c i.bundles }

theorem startJob_rd (i : State) (c q b : Nat) (g : Fld) (j : Nat) : (startJob i c q b).rd g j =
    (((((((i.wr F.TSU_T_STAT_STATE q tRUNNING).wr F.TSU_T_STAT_RESUME q 0).wr I.cJob c (q + 1)).wr I.cNext c 0).wr I.waiting c 0).wr I.bankJob b (q + 1)).wr I.jDisp q 1).rd g j :=
  State.rd_with_bundles ..

theorem startJob_frame (i : State) (c q b : Nat) (hq : q < 65536) :
    (∀ g j, g.id ∉ [F.TSU_T_STAT_STATE.id, F.TSU_T_STAT_RESUME.id, I.cJob.id, I.cNext.id, I.waiting.id, I.bankJob.id, I.jDisp.id] →
      (startJob i c q b).rd g j = i.rd g j) ∧
    (SameOtherCells i (startJob i c q b) [F.TSU_T_STAT_STATE, F.TSU_T_STAT_RESUME, I.cJob, I.cNext, I.waiting, I.bankJob, I.jDisp]) ∧
    (startJob i c q b = { i with cells := (startJob i c q b).cells, bundles := (startJob i c q b).bundles }) := by
  have hy : ∀ g j, g.id ∉ [F.TSU_T_STAT_STATE.id, F.TSU_T_STAT_RESUME.id, I.cJob.id, I.cNext.id, I.waiting.id, I.bankJob.id, I.jDisp.id] →
      (startJob i c q b).rd g j = i.rd g j := by
    intro g j hg
    simp only [List.mem_cons, List.not_mem_nil, or_false, not_or] at hg
    rw [startJob_rd, State.rd_wr_cell _ _ _ _ _ _ (fun e => hg.2.2.2.2.2.2 e.symm), State.rd_wr_cell _ _ _ _ _ _ (fun e => hg.2.2.2.2.2.1 e.symm),
      State.rd_wr_cell _ _ _ _ _ _ (fun e => hg.2.2.2.2.1 e.symm), State.rd_wr_cell _ _ _ _ _ _ (fun e => hg.2.2.2.1 e.symm),
      State.rd_wr_cell _ _ _ _ _ _ (fun e => hg.2.2.1 e.symm), State.rd_wr_cell _ _ _ _ _ _ (fun e => hg.2.1 e.symm), State.rd_wr_cell _ _ _ _ _ _ (fun e => hg.1 e.symm)]
  have y6 : SameOtherCells i (startJob i c q b) [F.TSU_T_STAT_STATE, F.TSU_T_STAT_RESUME, I.cJob, I.cNext, I.waiting, I.bankJob, I.jDisp] := by
    intro g j hg
    exact hy g j (by
      simp only [List.mem_cons, List.not_mem_nil, or_false, not_or]
      exact ⟨fun e => hg _ (by simp) e.symm, fun e => hg _ (by simp) e.symm, fun e => hg _ (by simp) e.symm, fun e => hg _ (by simp) e.symm, fun e => hg _ (by simp) e.symm,
        fun e => hg _ (by simp) e.symm, fun e => hg _ (by simp) e.symm⟩)
  have y8 : startJob i c q b = { i with cells := (startJob i c q b).cells, bundles := (startJob i c q b).bundles } := by
    have h : SameButCells i (((((((i.wr F.TSU_T_STAT_STATE q tRUNNING).wr F.TSU_T_STAT_RESUME q 0).wr I.cJob c (q + 1)).wr I.cNext c 0).wr I.waiting c 0).wr I.bankJob b (q + 1)).wr I.jDisp q 1) :=
      .wr (.wr (.wr (.wr (.wr (.wr (.wr (.refl _)))))))
    unfold startJob
    generalize ((((((i.wr F.TSU_T_STAT_STATE q tRUNNING).wr F.TSU_T_STAT_RESUME q 0).wr I.cJob c (q + 1)).wr I.cNext c 0).wr I.waiting c 0).wr I.bankJob b (q + 1)).wr I.jDisp q 1 = z at *
    unfold SameButCells at h
    exact congrArg (fun z : State => { z with bundles := Tbl.drop c i.bundles }) h
  exact ⟨hy, y6, y8⟩

theorem startJob_cells (i : State) (c q b : Nat) (hq : q < 65536) :
    ((startJob i c q b).rd F.TSU_T_STAT_STATE q = tRUNNING) ∧
    ((startJob i c q b).rd F.TSU_T_STAT_RESUME q = 0) ∧
    ((startJob i c q b).rd I.cJob c = q + 1) ∧
    ((startJob i c q b).rd I.cNext c = 0) ∧
    ((startJob i c q b).rd I.waiting c = 0) ∧
    (bundleOf (startJob i c q b) c = Bundle.empty) := by
  have y1 : (startJob i c q b).rd F.TSU_T_STAT_STATE q = tRUNNING := by
    rw [startJob_rd]; simp (disch := decide) only [State.rd_wr_cell, State.rd_wr_same]; rfl
  have y2 : (startJob i c q b).rd F.TSU_T_STAT_RESUME q = 0 := by
    rw [startJob_rd]; simp (disch := decide) only [State.rd_wr_cell, State.rd_wr_same]; rfl
  have y3 : (startJob i c q b).rd I.cJob c = q + 1 := by
    rw [startJob_rd]; simp (disch := decide) only [State.rd_wr_cell, State.rd_wr_same]
    exact Nat.mod_eq_of_lt (by show _ < 2 ^ 17; omega)
  have y4 : (startJob i c q b).rd I.cNext c = 0 := by
    rw [startJob_rd]; simp (disch := decide) only [State.rd_wr_cell, State.rd_wr_same]; rfl
  have y5 : (startJob i c q b).rd I.waiting c = 0 := by
    rw [startJob_rd]; simp (disch := decide) only [State.rd_wr_cell, State.rd_wr_same]; rfl
  have y7 : bundleOf (startJob i c q b) c = Bundle.empty := by
    show Tbl.get Bundle.empty (Tbl.drop c i.bundles) c = _
    rw [Tbl.get_drop, if_pos rfl]
  exact ⟨y1, y2, y3, y4, y5, y7⟩

theorem startJob_tasks (i : State) (c q b : Nat) (hq : q < 65536) :
    (∀ g, g.id ∈ [F.TSU_T_STAT_STATE.id, F.TSU_T_STAT_RESUME.id] → ∀ j, j ≠ q → (startJob i c q b).rd g j = i.rd g j) := by
  have y9 : ∀ g, g.id ∈ [F.TSU_T_STAT_STATE.id, F.TSU_T_STAT_RESUME.id] → ∀ j, j ≠ q → (startJob i c q b).rd g j = i.rd g j := by
    intro g hg j hj
    rw [startJob_rd]
    have n1 : ∀ f ∈ [I.cJob, I.cNext, I.waiting, I.bankJob, I.jDisp], f.id ≠ g.id := by
      intro f hf he
      simp only [List.mem_cons, List.not_mem_nil, or_false] at hg hf
      rcases hg with h | h <;> rw [h] at he <;> rcases hf with rfl | rfl | rfl | rfl | rfl <;> exact absurd he (by decide)
    rw [State.rd_wr_cell _ _ _ _ _ _ (n1 _ (by simp)), State.rd_wr_cell _ _ _ _ _ _ (n1 _ (by simp)), State.rd_wr_cell _ _ _ _ _ _ (n1 _ (by simp)),
      State.rd_wr_cell _ _ _ _ _ _ (n1 _ (by simp)), State.rd_wr_cell _ _ _ _ _ _ (n1 _ (by simp)), State.rd_wr_other _ _ _ _ _ _ (fun _ e => hj e.symm),
      State.rd_wr_other _ _ _ _ _ _ (fun _ e => hj e.symm)]
  exact y9

theorem dispatchOn_let (w : State) (c q b : Nat) (i y : State) (hq : w.rd I.cNext c - 1 = q) (c1 : w.on I.jCv q = false) (c2 : w.on I.jRec q = false)
    (hi : initBank w (rbank w c) q = i) (hb : rbank i c = b) (hn : i.nonzero I.bankJob = []) (hy : startJob i c q b = y) :
    dispatchOn w c = if y.on I.jRec q then trace y evRESUME q (some c) (y.rd I.jScause q)
      else trace (if y.on I.jRan q then y else (tsuCount y F.TSU_DISPCNT_COUNT).wr I.jRan q 1) evDISPATCH q (some c)
        ((if y.on I.jRan q then y else (tsuCount y F.TSU_DISPCNT_COUNT).wr I.jRan q 1).rd I.jFlags q) := by
  subst hy
  have hor : ∀ x : State, x.over (([] : List Nat).filter fun k => i.rd I.bankJob k == q + 1) (fun s k => s.wr I.bankJob k 0) = x := fun _ => rfl
  simp only [dispatchOn, hq, c1, c2, hi, hb, hn, Bool.false_eq_true, if_false, hor]
  rfl

/-- The bank of a new job without a context (R104). -/
theorem initBank_says (w : State) (c q : Nat) (h2 : w.rd I.jCv q = 0) (h3 : w.rd I.jCid q = 0)
    (h4 : w.rd I.jWs q = 0) (h6 : w.nonzero I.bankJob = []) (hq : q < 65536) :
    ∃ i : State, i = initBank w (rbank w c) q ∧ SameButCells w i ∧ SameOtherCells w i bankRegs ∧
      i.rd I.pcb (rbank w c) = w.rd I.jEntry q * 4 ∧ i.rd I.jobid (rbank w c) = w.rd F.TSU_T_STAT_JSEQ q * 65536 + q ∧ i.rd I.ctxv (rbank w c) = 0 ∧
      i.rd I.cmode (rbank w c) = 0x800 ∧ i.rd I.trapv (rbank w c) = w.rd F.TSU_TRAPV_ADDR * 4 ∧ i.nonzero I.bankJob = [] ∧
      (∀ off ∈ recordOffsets, off ∉ [0x17C, 0x184, 0x188, 0x18C, 0x1A0] → recordRead i (rbank w c) off = 0) := by
  obtain ⟨z1, z2, z3, z4, z5, z6⟩ := clearBank_says w (rbank w c)
  have ho : ∀ g j, (∀ f ∈ bankRegs, f.id ≠ g.id) → (clearBank w (rbank w c)).rd g j = w.rd g j := fun g j h => z6 g j h
  have hnz := clearBank_nonzero w (rbank w c) I.bankJob (by decide)
  refine ⟨_, rfl, ?_⟩
  unfold initBank
  dsimp only
  generalize clearBank w (rbank w c) = z at *
  have e1 := ho I.jEntry q (by decide)
  have e2 := ho F.TSU_T_STAT_JSEQ q (by decide)
  have e3 := ho F.TSU_TRAPV_ADDR 0 (by decide)
  have e4 := ho I.jWs q (by decide)
  have e5 := ho I.jCv q (by decide)
  have e6 := ho I.jCid q (by decide)
  have l1 := w.rd_lt I.jEntry q
  have l2 := w.rd_lt F.TSU_T_STAT_JSEQ q
  have l3 := w.rd_lt F.TSU_TRAPV_ADDR 0
  simp (disch := decide) only [State.rd_wr_cell]
  rw [e1, e2, e3, e4, e5, e6, h2, h3, h4]
  have w1 : I.jEntry.w = 30 := rfl
  have w2 : F.TSU_T_STAT_JSEQ.w = 16 := rfl
  have w3 : F.TSU_TRAPV_ADDR.w = 30 := rfl
  rw [w1] at l1; rw [w2] at l2; rw [w3] at l3
  refine ⟨z5.trans (.wr (.wr (.wr (.wr (.wr (.refl _)))))), z6.trans (.wr (.wr (.wr (.wr (.wr (.refl _ _) (by simp [bankRegs])) (by simp [bankRegs])) (by simp [bankRegs])) (by simp [bankRegs])) (by simp [bankRegs])), ?_, ?_, ?_, ?_, ?_, ?_, ?_⟩
  · simp (disch := decide) only [State.rd_wr_cell, State.rd_wr_same]
    exact Nat.mod_eq_of_lt (by show _ < 2 ^ 32; omega)
  · simp (disch := decide) only [State.rd_wr_cell, State.rd_wr_same]
    exact Nat.mod_eq_of_lt (by show _ < 2 ^ 32; omega)
  · simp (disch := decide) only [State.rd_wr_cell, State.rd_wr_same]
    rfl
  · simp (disch := decide) only [State.rd_wr_cell, State.rd_wr_same]
    rfl
  · simp (disch := decide) only [State.rd_wr_cell, State.rd_wr_same]
    exact Nat.mod_eq_of_lt (by show _ < 2 ^ 32; omega)
  · simp (disch := decide) only [nonzero_wr_other]
    rw [hnz, h6]
  · intro off hoff hno
    have hp : ∀ (g : Fld) (j : Nat), g.id ∉ [I.cmode.id, I.jobid.id, I.ctxv.id, I.pcb.id, I.trapv.id] →
        (((((z.wr I.pcb (rbank w c) (w.rd I.jEntry q * 4)).wr I.jobid (rbank w c) (w.rd F.TSU_T_STAT_JSEQ q * 65536 + q)).wr I.ctxv (rbank w c) (0 * 65536 + 0 * 32768 + 0)).wr
          I.cmode (rbank w c) 2048).wr I.trapv (rbank w c) (w.rd F.TSU_TRAPV_ADDR * 4)).rd g j = z.rd g j := by
      intro g j hg
      simp only [List.mem_cons, List.not_mem_nil, or_false, not_or] at hg
      rw [State.rd_wr_cell _ _ _ _ _ _ (fun e => hg.2.2.2.2 e.symm), State.rd_wr_cell _ _ _ _ _ _ (fun e => hg.1 e.symm), State.rd_wr_cell _ _ _ _ _ _ (fun e => hg.2.2.1 e.symm),
        State.rd_wr_cell _ _ _ _ _ _ (fun e => hg.2.1 e.symm), State.rd_wr_cell _ _ _ _ _ _ (fun e => hg.2.2.2.1 e.symm)]
    have hsp : ∀ u : State, (∀ (g : Fld) (j : Nat), g.id ∉ [I.cmode.id, I.jobid.id, I.ctxv.id, I.pcb.id, I.trapv.id] → u.rd g j = z.rd g j) → recordRead u (rbank w c) off = 0 := by
      intro u hu
      have hs0 : spell u (recordWord (rbank w c) off) = 0 := spell_zero _ _ fun p hp => (hu _ _ (recordWord_plain _ _ hno p hp)).trans (z1 off hoff p hp)
      unfold recordRead
      split
      · rename_i hr
        simp only [Bool.and_eq_true, decide_eq_true_eq] at hr
        dsimp only
        rw [hu _ _ (by decide), z2 _ (by omega)]
        split <;> rfl
      split
      · unfold pdb
        rw [on_of (f := I.btaken) 0 ((hu _ _ (by decide)).trans z4), hs0]; rfl
      · exact hs0
    exact hsp _ hp

/-- A new job without a context dispatched (R104, R193). -/
theorem dispatch_says (w : State) (c q : Nat) (hc : c < 64) (hn : w.rd I.cNext c = q + 1) (h1 : w.rd I.jRec q = 0) (h2 : w.rd I.jCv q = 0) (h3 : w.rd I.jCid q = 0)
    (h4 : w.rd I.jWs q = 0) (h5 : w.rd I.jRan q = 0) (h6 : w.nonzero I.bankJob = []) (h7 : w.rd F.TSU_DISPCNT_COUNT + 2 < 2 ^ 32) (hq : q < 65536)
    (htr : w.rd F.TSU_TRCCFG_EN = 0) : let v := dispatchOn w c
    (v.rd F.TSU_T_STAT_STATE q = tRUNNING ∧ v.rd F.TSU_T_STAT_RESUME q = 0 ∧ v.rd I.cJob c = q + 1 ∧ v.rd I.cNext c = 0 ∧ v.rd I.waiting c = 0 ∧
      v.rd I.pcb (rbank v c) = w.rd I.jEntry q * 4 ∧ v.rd I.jobid (rbank v c) = w.rd F.TSU_T_STAT_JSEQ q * 65536 + q ∧
      v.rd I.ctxv (rbank v c) = 0 ∧ v.rd I.cmode (rbank v c) = 0x800 ∧ v.rd I.trapv (rbank v c) = w.rd F.TSU_TRAPV_ADDR * 4 ∧
      (∀ off ∈ recordOffsets, off ∉ [0x17C, 0x184, 0x188, 0x18C, 0x1A0] → recordRead v (rbank v c) off = 0) ∧
      v.rd F.TSU_DISPCNT_COUNT = w.rd F.TSU_DISPCNT_COUNT + 1 ∧ bundleOf v c = Bundle.empty) ∧
    v = { w with cells := v.cells, bundles := v.bundles } ∧
    SameOtherCells w v (bankRegs ++ [F.TSU_T_STAT_STATE, F.TSU_T_STAT_RESUME, I.cJob, I.cNext, I.waiting, I.bankJob, I.jDisp, I.jRan, F.TSU_DISPCNT_COUNT]) ∧
    (∀ g, g.id ∈ [F.TSU_T_STAT_STATE.id, F.TSU_T_STAT_RESUME.id] → ∀ j, j ≠ q → v.rd g j = w.rd g j) := by
  have hb : ∀ u : State, u.rd I.bank c = w.rd I.bank c → rbank u c = rbank w c := by
    intro u hu; unfold rbank; rw [hu]
  have hi := initBank_says w c q h2 h3 h4 h6 hq
  obtain ⟨i, hie, i1, i2, i3, i4, i5, i6, i7, i8, i9⟩ := hi
  have hov : ∀ g j, (∀ f ∈ bankRegs, f.id ≠ g.id) → i.rd g j = w.rd g j := fun g j h => i2 g j h
  have hbi := hb i (hov _ _ (by decide))
  have hq1 : w.rd I.cNext c - 1 = q := by omega
  have hlet := dispatchOn_let w c q (rbank w c) i _ hq1 (by rw [on_of 0 h2]; rfl) (by rw [on_of 0 h1]; rfl) hie.symm hbi i8 rfl
  obtain ⟨hy, y6, y8⟩ := startJob_frame i c q (rbank w c) hq
  obtain ⟨y1, y2, y3, y4, y5, y7⟩ := startJob_cells i c q (rbank w c) hq
  have y9 := startJob_tasks i c q (rbank w c) hq
  generalize startJob i c q (rbank w c) = y at *
  have c3 : y.on I.jRec q = false := by rw [on_of 0 ((hy _ _ (by decide)).trans ((hov _ _ (by decide)).trans h1))]; rfl
  have c4 : y.on I.jRan q = false := by rw [on_of 0 ((hy _ _ (by decide)).trans ((hov _ _ (by decide)).trans h5))]; rfl
  have c5 : y.rd F.TSU_DISPCNT_COUNT = w.rd F.TSU_DISPCNT_COUNT := (hy _ _ (by decide)).trans (hov _ _ (by decide))
  have c6 : y.rd F.TSU_TRCCFG_EN = 0 := (hy _ _ (by decide)).trans ((hov _ _ (by decide)).trans htr)
  rw [c3, c4] at hlet
  simp only [Bool.false_eq_true, if_false] at hlet
  have hd : dispatchOn w c = (y.wr F.TSU_DISPCNT_COUNT 0 (w.rd F.TSU_DISPCNT_COUNT + 1)).wr I.jRan q 1 := by
    rw [hlet]
    unfold tsuCount
    rw [bump_room _ _ _ _ (by rw [c5]; exact h7), c5]
    exact trace_silent _ _ _ _ _ (by simp (disch := decide) only [State.rd_wr_cell]; exact c6)
  clear hlet
  dsimp only
  rw [hd]
  have hv : ∀ g j, g.id ≠ F.TSU_DISPCNT_COUNT.id → g.id ≠ I.jRan.id → ((y.wr F.TSU_DISPCNT_COUNT 0 (w.rd F.TSU_DISPCNT_COUNT + 1)).wr I.jRan q 1).rd g j = y.rd g j := by
    intro g j e1 e2
    rw [State.rd_wr_cell _ _ _ _ _ _ (Ne.symm e2), State.rd_wr_cell _ _ _ _ _ _ (Ne.symm e1)]
  have hsame : (y.wr F.TSU_DISPCNT_COUNT 0 (w.rd F.TSU_DISPCNT_COUNT + 1)).wr I.jRan q 1 = { y with cells := ((y.wr F.TSU_DISPCNT_COUNT 0 (w.rd F.TSU_DISPCNT_COUNT + 1)).wr I.jRan q 1).cells } := rfl
  have hdc : ((y.wr F.TSU_DISPCNT_COUNT 0 (w.rd F.TSU_DISPCNT_COUNT + 1)).wr I.jRan q 1).rd F.TSU_DISPCNT_COUNT = w.rd F.TSU_DISPCNT_COUNT + 1 := by
    rw [State.rd_wr_cell _ _ _ _ _ _ (by decide), State.rd_wr_same]
    exact Nat.mod_eq_of_lt (by show _ < 2 ^ 32; omega)
  have hoc : SameOtherCells y ((y.wr F.TSU_DISPCNT_COUNT 0 (w.rd F.TSU_DISPCNT_COUNT + 1)).wr I.jRan q 1) [I.jRan, F.TSU_DISPCNT_COUNT] := .wr (.wr (.refl _ _) (by simp)) (by simp)
  generalize (y.wr F.TSU_DISPCNT_COUNT 0 (w.rd F.TSU_DISPCNT_COUNT + 1)).wr I.jRan q 1 = v at *
  have hrb : rbank v c = rbank w c := hb v ((hv _ _ (by decide) (by decide)).trans ((hy _ _ (by decide)).trans (hov _ _ (by decide))))
  have hvi : ∀ g, g ∈ bankRegs → ∀ j, v.rd g j = i.rd g j := by
    have n : ∀ g ∈ bankRegs, g.id ≠ F.TSU_DISPCNT_COUNT.id ∧ g.id ≠ I.jRan.id ∧ g.id ∉ [F.TSU_T_STAT_STATE.id, F.TSU_T_STAT_RESUME.id, I.cJob.id, I.cNext.id, I.waiting.id, I.bankJob.id, I.jDisp.id] := by decide
    intro g hg j
    rw [hv _ _ (n g hg).1 (n g hg).2.1, hy _ _ (n g hg).2.2]
  rw [hrb]
  refine ⟨⟨?_, ?_, ?_, ?_, ?_, ?_, ?_, ?_, ?_, ?_, ?_, hdc, ?_⟩, ?_, ?_, ?_⟩
  · rw [hv _ _ (by decide) (by decide)]; exact y1
  · rw [hv _ _ (by decide) (by decide)]; exact y2
  · rw [hv _ _ (by decide) (by decide)]; exact y3
  · rw [hv _ _ (by decide) (by decide)]; exact y4
  · rw [hv _ _ (by decide) (by decide)]; exact y5
  · rw [hvi _ (by simp [bankRegs])]; exact i3
  · rw [hvi _ (by simp [bankRegs])]; exact i4
  · rw [hvi _ (by simp [bankRegs])]; exact i5
  · rw [hvi _ (by simp [bankRegs])]; exact i6
  · rw [hvi _ (by simp [bankRegs])]; exact i7
  · intro off hoff hno
    rw [← i9 off hoff hno]
    have hsp : ∀ l : List (Fld × Nat × Nat), (∀ p ∈ l, p.1 ∈ bankRegs) → spell v l = spell i l := by
      intro l
      induction l with
      | nil => exact fun _ => rfl
      | cons a r ih =>
        intro h
        obtain ⟨f, k, n⟩ := a
        show v.rd f k + 2 ^ n * spell v r = i.rd f k + 2 ^ n * spell i r
        rw [ih fun p hp => h p (by simp [hp]), hvi f (h (f, k, n) (by simp))]
    unfold recordRead pdb State.on
    dsimp only
    rw [hvi I.ac (by simp [bankRegs]), hvi I.btaken (by simp [bankRegs]), hvi I.dly (by simp [bankRegs]), hsp _ fun p hp => (recordWord_cells _ _ p hp).1]
  · rw [hsame]; exact y7
  · unfold SameButCells at i1
    rw [hsame]
    conv => lhs; rw [y8]
    conv => lhs; rw [i1]
  · intro g j hg
    rw [hoc g j fun f hf => hg f (by simp only [List.mem_cons, List.not_mem_nil, or_false] at hf; rcases hf with rfl | rfl <;> simp),
      y6 g j fun f hf => hg f (by simp only [List.mem_cons, List.not_mem_nil, or_false] at hf; rcases hf with rfl | rfl | rfl | rfl | rfl | rfl | rfl <;> simp),
      i2 g j fun f hf => hg f (List.mem_append_left _ hf)]
  · intro g hg j hj
    have n2 : g.id ≠ F.TSU_DISPCNT_COUNT.id ∧ g.id ≠ I.jRan.id ∧ ∀ f ∈ bankRegs, f.id ≠ g.id := by
      simp only [List.mem_cons, List.not_mem_nil, or_false] at hg
      rcases hg with h | h <;> rw [h] <;> decide
    rw [hv _ _ n2.1 n2.2.1, y9 g hg j hj, hov _ _ n2.2.2]

theorem recordRead_congr {u v : State} (h : ∀ g ∈ bankRegs, ∀ j, u.rd g j = v.rd g j) (b off : Nat) : recordRead u b off = recordRead v b off := by
  have hsp : ∀ l : List (Fld × Nat × Nat), (∀ p ∈ l, p.1 ∈ bankRegs) → spell u l = spell v l := by
    intro l
    induction l with
    | nil => exact fun _ => rfl
    | cons a r ih =>
      intro hl
      obtain ⟨f, k, n⟩ := a
      show u.rd f k + 2 ^ n * spell u r = v.rd f k + 2 ^ n * spell v r
      rw [ih fun p hp => hl p (by simp [hp]), h f (hl (f, k, n) (by simp))]
  unfold recordRead pdb State.on
  dsimp only
  rw [h I.ac (by simp [bankRegs]), h I.btaken (by simp [bankRegs]), h I.dly (by simp [bankRegs]), hsp _ fun p hp => (recordWord_cells _ _ p hp).1]

theorem puts_bundles (s : State) (l : List (Fld × Nat × Nat)) : (puts s l).bundles = s.bundles := by
  have h := SameButCells.puts s l
  unfold SameButCells at h
  rw [h]

theorem preemptChoose_off (s : State) (t : Nat) (h : s.rd F.TSU_CTRL_RUN = 0) : preemptChoose s t = s := by
  unfold preemptChoose eligible
  rw [on_of 0 h]; rfl

theorem setReady_new {s : State} {c q : Nat} (h1 : s.rd I.jCv q = 0) (h2 : leaving s q = false) : setReady s c q = true := by
  unfold setReady
  rw [on_of 0 h1, h2]; rfl

theorem beginJob_plain (s : State) (t : Nat) (h : s.rd F.TSU_T_CTX_CV t = 0) : beginJob s t = puts s
    ([(I.jFlags, t, Nat.land (s.rd F.TSU_T_FLAGS_FLAGS t) (s.rd F.TSU_T_MASK_MASK t)),
      (F.TSU_T_FLAGS_FLAGS, t, s.rd F.TSU_T_FLAGS_FLAGS t - Nat.land (s.rd F.TSU_T_FLAGS_FLAGS t) (s.rd F.TSU_T_MASK_MASK t)), (F.TSU_T_STAT_JSEQ, t, s.rd F.TSU_T_STAT_JSEQ t + 1),
        (I.jEntry, t, s.rd F.TSU_T_PC_ENTRY t), (I.jCv, t, 0), (I.jCid, t, s.rd F.TSU_T_CTX_CID t), (I.jWs, t, 0), (I.jSgen, t, s.rd F.TSU_T_CFG_SGEN t),
        (I.jSgrp, t, s.rd F.TSU_T_SG_SGRP t), (I.jPre, t, s.rd F.TSU_T_CFG_PRE t), (I.jBl, t, s.rd F.TSU_T_CFG_BLEVEL t)] ++
       [I.jRan, I.jDisp, I.jRec, I.jRetry, I.jScause, I.jFault, I.jTouch, I.jCancel].map (fun g => (g, t, 0))) := by
  unfold beginJob
  simp (disch := decide) only [State.rd_wr_cell, h]
  rfl

/-- The place of a leaver that was pre-empted. -/
theorem placeLeaver_head (x : State) (t : Nat) (h : x.rd F.TSU_CTRL_RUN = 0) : placeLeaver x t 1 = puts x [(F.TSU_T_STAT_STATE, t, tREADY), (F.TSU_T_STAT_RESUME, t, 1),
    (F.TSU_T_STAT_CVALID, t, 0), (I.tLvl, t, x.rd F.TSU_T_CFG_LEVEL t), (I.tPos, t, x.rd I.ordHead), (I.ordHead, 0, x.rd I.ordHead - 1)] := by
  unfold placeLeaver
  rw [if_neg (by decide)]
  exact reenter_head x t h

/-- Core c after its job has left it for a pre-emptor. -/
theorem left_says (s w : State) (cc : Fin 64) (t : Nat) (h4 : t < 65536) (hwr : ∀ g j, w.rd g j = s.rd g j) (hwn : ∀ g, w.nonzero g = s.nonzero g) :
    ∃ l : State, l = ((((((((((((((w.wr I.stSet t 0).wr I.stCore t 0).wr I.cLeave cc.val (t + 1)).wr I.cLeaveRun cc.val 1).wr I.cLeaveAddr cc.val 0).wr I.obusy cc.val 1).wr
        I.bank cc.val (1 - s.rd I.bank cc.val)).wr I.cJob cc.val 0).wr I.waiting cc.val 1).wr I.qstall cc.val 0).wr I.jRec t 1).wr I.jScause t 1).wr F.TSU_T_STAT_CVALID t 0).wr I.swPend cc.val 0) ∧
        (∀ g j, (∀ f ∈ [I.stSet, I.stCore, I.cLeave, I.cLeaveRun, I.cLeaveAddr, I.obusy, I.bank, I.cJob, I.waiting, I.qstall, I.jRec, I.jScause, F.TSU_T_STAT_CVALID, I.swPend], f.id ≠ g.id) →
          l.rd g j = s.rd g j) ∧ l.rd I.bank cc.val = 1 - s.rd I.bank cc.val ∧ l.rd I.cLeave cc.val = t + 1 ∧ l.rd I.cLeaveRun cc.val = 1 ∧ l.rd I.obusy cc.val = 1 ∧
        l.rd I.jRec t = 1 ∧ l.rd I.jScause t = 1 ∧ (∀ j, j ≠ t → l.rd I.jRec j = s.rd I.jRec j) ∧ l.nonzero I.bankJob = s.nonzero I.bankJob := by
  have hbk : s.rd I.bank cc.val < 2 := s.rd_lt I.bank cc.val
  refine ⟨_, rfl, fun g j hg => ?_, ?_, ?_, ?_, ?_, ?_, ?_, fun j hj => ?_, ?_⟩
  · have n : ∀ f ∈ [I.stSet, I.stCore, I.cLeave, I.cLeaveRun, I.cLeaveAddr, I.obusy, I.bank, I.cJob, I.waiting, I.qstall, I.jRec, I.jScause, F.TSU_T_STAT_CVALID, I.swPend], f.id ≠ g.id := hg
    rw [State.rd_wr_cell _ _ _ _ _ _ (n _ (by simp)), State.rd_wr_cell _ _ _ _ _ _ (n _ (by simp)), State.rd_wr_cell _ _ _ _ _ _ (n _ (by simp)), State.rd_wr_cell _ _ _ _ _ _ (n _ (by simp)),
      State.rd_wr_cell _ _ _ _ _ _ (n _ (by simp)), State.rd_wr_cell _ _ _ _ _ _ (n _ (by simp)), State.rd_wr_cell _ _ _ _ _ _ (n _ (by simp)), State.rd_wr_cell _ _ _ _ _ _ (n _ (by simp)),
      State.rd_wr_cell _ _ _ _ _ _ (n _ (by simp)), State.rd_wr_cell _ _ _ _ _ _ (n _ (by simp)), State.rd_wr_cell _ _ _ _ _ _ (n _ (by simp)), State.rd_wr_cell _ _ _ _ _ _ (n _ (by simp)),
      State.rd_wr_cell _ _ _ _ _ _ (n _ (by simp)), State.rd_wr_cell _ _ _ _ _ _ (n _ (by simp)), hwr]
  · simp (disch := decide) only [State.rd_wr_cell, State.rd_wr_same]
    exact Nat.mod_eq_of_lt (by show _ < 2 ^ 1; omega)
  · simp (disch := decide) only [State.rd_wr_cell, State.rd_wr_same]
    exact Nat.mod_eq_of_lt (by show _ < 2 ^ 17; omega)
  · simp (disch := decide) only [State.rd_wr_cell, State.rd_wr_same]; rfl
  · simp (disch := decide) only [State.rd_wr_cell, State.rd_wr_same]; rfl
  · simp (disch := decide) only [State.rd_wr_cell, State.rd_wr_same]; rfl
  · simp (disch := decide) only [State.rd_wr_cell, State.rd_wr_same]; rfl
  · simp (disch := decide) only [State.rd_wr_cell]
    rw [State.rd_wr_inst _ _ _ _ _ (fun e => hj e.symm)]
    simp (disch := decide) only [State.rd_wr_cell]; exact hwr _ _
  · simp (disch := decide) only [nonzero_wr_other]; exact hwn _

/-- A pre-emption taken (R201, R126, R193). -/
theorem preempt_says (s : State) (cc : Fin 64) (t p : Nat) (p2 : s.rd F.TSU_CTRL_RUN = 0) (p3 : s.rd F.TSU_TRCCFG_EN = 0) (h1 : s.rd I.cJob cc.val = t + 1)
    (h2 : s.rd I.cNext cc.val = p + 1) (n1 : s.rd I.jRec p = 0) (n2 : s.rd I.jCv p = 0) (n3 : s.rd I.jCid p = 0) (n4 : s.rd I.jWs p = 0) (n5 : s.rd I.jRan p = 0)
    (n6 : leaving s p = false) (n7 : s.nonzero I.bankJob = []) (n8 : s.rd F.TSU_DISPCNT_COUNT + 2 < 2 ^ 32) (n9 : p < 65536) (h3 : p ≠ t) (h4 : t < 65536)
    (h9 : s.rd I.arith (rbank s cc.val) = 0) (h10 : inFlight s (rbank s cc.val) = []) (h11 : s.rd F.TSU_PREEMPTCNT_COUNT + 2 < 2 ^ 32) : let u := switchNow s cc.val 1 0
    (u.rd F.TSU_T_STAT_STATE p = tRUNNING ∧ u.rd F.TSU_T_STAT_RESUME p = 0 ∧ u.rd I.cJob cc.val = p + 1 ∧ u.rd I.cNext cc.val = 0 ∧ u.rd I.waiting cc.val = 0 ∧
      u.rd I.pcb (rbank u cc.val) = s.rd I.jEntry p * 4 ∧ u.rd I.jobid (rbank u cc.val) = s.rd F.TSU_T_STAT_JSEQ p * 65536 + p ∧
      u.rd I.ctxv (rbank u cc.val) = 0 ∧ u.rd I.cmode (rbank u cc.val) = 0x800 ∧ u.rd I.trapv (rbank u cc.val) = s.rd F.TSU_TRAPV_ADDR * 4 ∧
      (∀ off ∈ recordOffsets, off ∉ [0x17C, 0x184, 0x188, 0x18C, 0x1A0] → recordRead u (rbank u cc.val) off = 0) ∧
      u.rd F.TSU_DISPCNT_COUNT = s.rd F.TSU_DISPCNT_COUNT + 1 ∧ bundleOf u cc.val = Bundle.empty) ∧
    u.rd I.bank cc.val = 1 - s.rd I.bank cc.val ∧ u.rd I.cLeave cc.val = t + 1 ∧ u.rd I.cLeaveRun cc.val = 1 ∧
        u.rd I.obusy cc.val = 1 ∧ u.rd I.jRec t = 1 ∧ u.rd I.jScause t = 1 ∧ u.rd F.TSU_T_STAT_STATE t = tREADY ∧ u.rd F.TSU_T_STAT_RESUME t = 1 ∧
        u.rd I.tPos t = s.rd I.ordHead ∧ u.rd F.TSU_PREEMPTCNT_COUNT = s.rd F.TSU_PREEMPTCNT_COUNT + 1 ∧
        SameOtherCells s u (bankRegs ++ [F.TSU_T_STAT_STATE, F.TSU_T_STAT_RESUME, I.cJob, I.cNext, I.waiting, I.bankJob, I.jDisp, I.jRan, F.TSU_DISPCNT_COUNT] ++
          [I.stSet, I.stCore, I.cLeave, I.cLeaveRun, I.cLeaveAddr, I.obusy, I.bank, I.qstall, I.jRec,
          I.jScause, F.TSU_T_STAT_CVALID, I.swPend, I.tLvl, I.tPos, I.ordHead, F.TSU_PREEMPTCNT_COUNT]) := by
  have ht1 : s.rd I.cJob cc.val - 1 = t := by omega
  have hlc := leaveCore_plain s cc.val 1 0 h9 h10 t ht1 _ rfl
  have hreq : (s.on I.cNext cc.val && setReady s cc.val (s.rd I.cNext cc.val - 1)) = true := by
    rw [on_of (p + 1) h2, h2, Nat.add_sub_cancel, setReady_new n2 n6]; simp
  have hsw : switchNow s cc.val 1 0 = placeLeaver (dispatchOn (tsuCount ((leaveCore s cc.val 1 0).wr I.swPend cc.val 0) F.TSU_PREEMPTCNT_COUNT) cc.val) t 1 := by
    simp only [switchNow, hreq, ht1, if_true]
  rw [hlc] at hsw
  generalize hw : ({ s with bundles := Tbl.drop cc.val s.bundles, landings := Tbl.drop (rbank s cc.val) s.landings, macShadow := Tbl.drop (rbank s cc.val) s.macShadow } : State) = w at *
  have hwr : ∀ g j, w.rd g j = s.rd g j := by rw [← hw]; exact fun _ _ => rfl
  have hwn : ∀ g, w.nonzero g = s.nonzero g := by rw [← hw]; exact fun _ => rfl
  clear hlc
  have hl := left_says s w cc t h4 hwr hwn
  obtain ⟨l, hle, l0, l1, l2, l3, l4, l5, l6, l7, l8⟩ := hl
  rw [← hle] at hsw
  have hpc : tsuCount l F.TSU_PREEMPTCNT_COUNT = l.wr F.TSU_PREEMPTCNT_COUNT 0 (s.rd F.TSU_PREEMPTCNT_COUNT + 1) := by
    unfold tsuCount
    rw [bump_room _ _ _ _ (by rw [l0 _ _ (by decide)]; exact h11), l0 _ _ (by decide)]
  rw [hpc] at hsw
  have m0 : ∀ g j, g.id ≠ F.TSU_PREEMPTCNT_COUNT.id → (l.wr F.TSU_PREEMPTCNT_COUNT 0 (s.rd F.TSU_PREEMPTCNT_COUNT + 1)).rd g j = l.rd g j := fun g j h => State.rd_wr_cell _ _ _ _ _ _ (Ne.symm h)
  have m1 : (l.wr F.TSU_PREEMPTCNT_COUNT 0 (s.rd F.TSU_PREEMPTCNT_COUNT + 1)).rd F.TSU_PREEMPTCNT_COUNT = s.rd F.TSU_PREEMPTCNT_COUNT + 1 := by
    rw [State.rd_wr_same]; exact Nat.mod_eq_of_lt (by show _ < 2 ^ 32; omega)
  have m2 : (l.wr F.TSU_PREEMPTCNT_COUNT 0 (s.rd F.TSU_PREEMPTCNT_COUNT + 1)).nonzero I.bankJob = [] := by
    rw [nonzero_wr_other _ _ _ _ _ (by decide), l8, n7]
  generalize l.wr F.TSU_PREEMPTCNT_COUNT 0 (s.rd F.TSU_PREEMPTCNT_COUNT + 1) = m at *
  have mm : ∀ g j, g.id ≠ F.TSU_PREEMPTCNT_COUNT.id → (∀ f ∈ [I.stSet, I.stCore, I.cLeave, I.cLeaveRun, I.cLeaveAddr, I.obusy, I.bank, I.cJob, I.waiting, I.qstall, I.jRec, I.jScause, F.TSU_T_STAT_CVALID, I.swPend], f.id ≠ g.id) →
      m.rd g j = s.rd g j := fun g j a b => (m0 g j a).trans (l0 g j b)
  obtain ⟨⟨d1, d2, d3, d4, d5, d6, d7, d8, d9, d10, d11, d12, d13⟩, dm, dc, dt⟩ := dispatch_says m cc.val p cc.isLt ((mm _ _ (by decide) (by decide)).trans h2)
    ((m0 _ _ (by decide)).trans ((l7 p h3).trans n1)) ((mm _ _ (by decide) (by decide)).trans n2) ((mm _ _ (by decide) (by decide)).trans n3)
    ((mm _ _ (by decide) (by decide)).trans n4) ((mm _ _ (by decide) (by decide)).trans n5) m2 (by rw [mm _ _ (by decide) (by decide)]; exact n8) n9
    ((mm _ _ (by decide) (by decide)).trans p3)
  generalize dispatchOn m cc.val = v at *
  have vs : ∀ g j, (∀ f ∈ bankRegs ++ [F.TSU_T_STAT_STATE, F.TSU_T_STAT_RESUME, I.cJob, I.cNext, I.waiting, I.bankJob, I.jDisp, I.jRan, F.TSU_DISPCNT_COUNT], f.id ≠ g.id) → v.rd g j = m.rd g j := dc
  have hpl := placeLeaver_head v t ((vs _ _ (by decide)).trans ((mm _ _ (by decide) (by decide)).trans p2))
  have hoh : v.rd I.ordHead = s.rd I.ordHead := (vs _ _ (by decide)).trans (mm _ _ (by decide) (by decide))
  rw [hoh] at hpl
  rw [hpl] at hsw
  have hfin : ∀ g j, (∀ f ∈ [F.TSU_T_STAT_STATE, F.TSU_T_STAT_RESUME, F.TSU_T_STAT_CVALID, I.tLvl, I.tPos, I.ordHead], f.id ≠ g.id) → (switchNow s cc.val 1 0).rd g j = v.rd g j := by
    intro g j hg
    rw [hsw]
    refine puts_cell _ _ _ _ fun q hq => ?_
    simp only [List.mem_cons, List.not_mem_nil, or_false] at hq
    rcases hq with rfl | rfl | rfl | rfl | rfl | rfl <;> exact hg _ (by simp)
  have f1 : (switchNow s cc.val 1 0).rd F.TSU_T_STAT_STATE t = tREADY := by
    rw [hsw]; simp only [puts_cons, puts_nil]; simp (disch := decide) only [State.rd_wr_cell, State.rd_wr_same]; rfl
  have f2 : (switchNow s cc.val 1 0).rd F.TSU_T_STAT_RESUME t = 1 := by
    rw [hsw]; simp only [puts_cons, puts_nil]; simp (disch := decide) only [State.rd_wr_cell, State.rd_wr_same]; rfl
  have f3 : (switchNow s cc.val 1 0).rd I.tPos t = s.rd I.ordHead := by
    rw [hsw]; simp only [puts_cons, puts_nil]; simp (disch := decide) only [State.rd_wr_cell, State.rd_wr_same]
    exact Nat.mod_eq_of_lt (State.rd_lt s I.ordHead 0)
  have f4 : (switchNow s cc.val 1 0).rd F.TSU_T_STAT_STATE p = tRUNNING := by
    rw [hsw]; simp only [puts_cons, puts_nil]; simp (disch := decide) only [State.rd_wr_cell]
    rw [State.rd_wr_inst _ _ _ _ _ (fun e => h3 e.symm)]; exact d1
  have f5 : (switchNow s cc.val 1 0).rd F.TSU_T_STAT_RESUME p = 0 := by
    rw [hsw]; simp only [puts_cons, puts_nil]; simp (disch := decide) only [State.rd_wr_cell]
    rw [State.rd_wr_inst _ _ _ _ _ (fun e => h3 e.symm)]
    simp (disch := decide) only [State.rd_wr_cell]; exact d2
  have f6 : (switchNow s cc.val 1 0).bundles = v.bundles := by rw [hsw]; exact puts_bundles _ _
  clear hsw hpl
  generalize switchNow s cc.val 1 0 = z at *
  have hbz : rbank z cc.val = rbank v cc.val := by unfold rbank; rw [hfin _ _ (by decide)]
  have hbr : ∀ g ∈ bankRegs, ∀ j, z.rd g j = v.rd g j := fun g hg j => hfin g j (by
    have n : ∀ g ∈ bankRegs, ∀ f ∈ [F.TSU_T_STAT_STATE, F.TSU_T_STAT_RESUME, F.TSU_T_STAT_CVALID, I.tLvl, I.tPos, I.ordHead], f.id ≠ g.id := by decide
    exact n g hg)
  refine ⟨⟨f4, f5, ?_, ?_, ?_, ?_, ?_, ?_, ?_, ?_, ?_, ?_, ?_⟩, ?_, ?_, ?_, ?_, ?_, ?_, f1, f2, f3, ?_, ?_⟩
  · rw [hfin _ _ (by decide)]; exact d3
  · rw [hfin _ _ (by decide)]; exact d4
  · rw [hfin _ _ (by decide)]; exact d5
  · rw [hbz, hbr _ (by simp [bankRegs]), d6, mm _ _ (by decide) (by decide)]
  · rw [hbz, hbr _ (by simp [bankRegs]), d7, mm _ _ (by decide) (by decide)]
  · rw [hbz, hbr _ (by simp [bankRegs]), d8]
  · rw [hbz, hbr _ (by simp [bankRegs]), d9]
  · rw [hbz, hbr _ (by simp [bankRegs]), d10, mm _ _ (by decide) (by decide)]
  · intro off ho hno
    rw [← d11 off ho hno, hbz]
    exact recordRead_congr hbr _ _
  · rw [hfin _ _ (by decide), d12, mm _ _ (by decide) (by decide)]
  · unfold bundleOf at *; rw [f6]; exact d13
  · rw [hfin _ _ (by decide), vs _ _ (by decide), m0 _ _ (by decide)]; exact l1
  · rw [hfin _ _ (by decide), vs _ _ (by decide), m0 _ _ (by decide)]; exact l2
  · rw [hfin _ _ (by decide), vs _ _ (by decide), m0 _ _ (by decide)]; exact l3
  · rw [hfin _ _ (by decide), vs _ _ (by decide), m0 _ _ (by decide)]; exact l4
  · rw [hfin _ _ (by decide), vs _ _ (by decide), m0 _ _ (by decide)]; exact l5
  · rw [hfin _ _ (by decide), vs _ _ (by decide), m0 _ _ (by decide)]; exact l6
  · rw [hfin _ _ (by decide), vs _ _ (by decide)]; exact m1
  · intro g j hg
    have hg' : ∀ f ∈ bankRegs ++ ([F.TSU_T_STAT_STATE, F.TSU_T_STAT_RESUME, I.cJob, I.cNext, I.waiting, I.bankJob, I.jDisp, I.jRan, F.TSU_DISPCNT_COUNT] ++
      [I.stSet, I.stCore, I.cLeave, I.cLeaveRun, I.cLeaveAddr, I.obusy, I.bank, I.qstall, I.jRec,
        I.jScause, F.TSU_T_STAT_CVALID, I.swPend, I.tLvl, I.tPos, I.ordHead, F.TSU_PREEMPTCNT_COUNT]), f.id ≠ g.id := by
      rw [← List.append_assoc]; exact hg
    have hx : ∀ f ∈ [F.TSU_T_STAT_STATE, F.TSU_T_STAT_RESUME, I.cJob, I.cNext, I.waiting, I.bankJob, I.jDisp, I.jRan, F.TSU_DISPCNT_COUNT] ++
      [I.stSet, I.stCore, I.cLeave, I.cLeaveRun, I.cLeaveAddr, I.obusy, I.bank, I.qstall, I.jRec,
        I.jScause, F.TSU_T_STAT_CVALID, I.swPend, I.tLvl, I.tPos, I.ordHead, F.TSU_PREEMPTCNT_COUNT], f.id ≠ g.id := fun f hf => hg' f (List.mem_append_right _ hf)
    rw [hfin g j fun f hf => hx f (by simp only [List.mem_cons, List.not_mem_nil, or_false] at hf; rcases hf with rfl | rfl | rfl | rfl | rfl | rfl <;> simp),
      vs g j fun f hf => by
        rcases List.mem_append.mp hf with hf | hf
        · exact hg' f (List.mem_append_left _ hf)
        · exact hx f (List.mem_append_left _ hf),
      mm g j (fun e => hx F.TSU_PREEMPTCNT_COUNT (by simp) e.symm) fun f hf => hx f (by
        simp only [List.mem_cons, List.not_mem_nil, or_false] at hf
        rcases hf with rfl | rfl | rfl | rfl | rfl | rfl | rfl | rfl | rfl | rfl | rfl | rfl | rfl | rfl <;> simp)]

end Sys2Proof.Machine
end

