-- ==== Sys2Proof/Laws/CaseMaint.lean ====
section
/-! SUPPORT.  What linked accesses and the maintenance of caches do. -/

namespace Sys2Proof.Machine

open Safety

theorem translate_congr {s t : State} (c a : Nat) (w : Want) (h1 : t.mem = s.mem) (h2 : t.tlbs = s.tlbs) (h3 : t.landings = s.landings)
    (h4 : t.freeCtr = s.freeCtr) (h5 : ∀ j, t.rd I.scr j = s.rd I.scr j) (h6 : t.rd I.bank c = s.rd I.bank c) :
    translate t c a w = translate s c a w := by
  have hs : ∀ k, scrOf t c k = scrOf s c k := by
    intro k
    unfold scrOf State.cr rbank inFlight
    rw [h6, h3, h4, h5]
  have hr : ∀ x n, t.readLE x n = s.readLE x n := by
    intro x n; unfold State.readLE State.readBytes State.byte; rw [h1]
  unfold translate pageEntry mmuOn permits tlbOf asidOf walk
  simp only [hs, hr, h2]

theorem begun_translate (s : State) (c a : Nat) (w : Want) : translate (begun s c) c a w = translate (fetched s c) c a w :=
  translate_congr c a w rfl rfl rfl rfl (fun j => started_rd _ _ _ _ fun h => absurd h (by decide)) (started_rd _ _ _ _ fun h => absurd h (by decide))

theorem act_cells {s : State} {c : Nat} (h : CoreReady s c) (a : Act) (hloop : a.isLoop = false) (hbr : a.isBranch = false)
    (haft : ∀ v pc n, actAfter v c pc n a = v)
    (hm : meetOf (fetched s c) c (.act a) = .ok)
    (hw : queueWaits (fetched s c) (.act a) = false) {u : State} (r v : Nat) (hr : r < 32)
    (hp : actNow (begun s c) c a = (u, spreadOver (wordCells s (rbank s c) r) v 3)) (hk : KeepsCore s u c) :
    ∃ t, syllable s c true clsS .only [.act a] [] = t ∧
      IssuedAfter s u t c [] (wordCells s (rbank s c) r) ∧ valueOf (settled t c) (wordCells s (rbank s c) r) = v % 2 ^ 32 := by
  generalize hnew : spreadOver (wordCells s (rbank s c) r) v 3 = new at hp
  have hl : ∀ l ∈ new, l.fld ∈ resultCells ∧ l.left = 3 ∧ l.mask = none ∧ (l.fld, l.inst) ∈ wordCells s (rbank s c) r := by
    intro l hl
    rw [← hnew] at hl
    have h1 := spreadOver_mem _ _ _ l hl
    have h2 := spreadOver_left _ _ _ l hl
    exact ⟨wordCells_fld s _ r _ h1, h2.1, h2.2, h1⟩
  have hres : ∀ l ∈ new, l.fld ∈ resultCells := fun l h => (hl l h).1
  have hstay := stay_three none new (by simp) (fun x hx => ⟨(hl x hx).2.1, (hl x hx).2.2.1⟩)
  simp only [Option.toList, List.append_nil] at hstay
  have hnow : (new.filter fun l => decide (l.left ≤ 1)) = [] := List.filter_eq_nil_iff.mpr fun x hx => by simp [(hl x hx).2.1]
  have hset : ∀ g j, g ∈ resultCells → (settled (afterAccess s u c new []) c).rd g j = afterLandings g j new (u.rd g j) := by
    intro g j hg
    rw [settled_access hk new [] hres g j hg, hstay, hnow, afterLandings_left2]; rfl
  refine ⟨_, act_plain h a hloop hbr haft hm hw hp hk hres, ?_, ?_⟩
  · refine issued_access hk new [] hres [] _ (fun l hl' h1 => absurd h1 (by have := (hl l hl').2.1; omega)) ?_
    intro l hl'
    exact ⟨_, by simp only [List.nil_append]; exact (hl l hl').2.2.2, rfl, rfl⟩
  · generalize settled (afterAccess s u c new []) c = w at *
    rw [← hnew] at hset
    by_cases h16 : r < 16
    · have hc : wordCells s (rbank s c) r = [(I.d, 32 * rbank s c + physD s (rbank s c) (2 * r)), (I.d, 32 * rbank s c + physD s (rbank s c) (2 * r + 1))] := by
        simp [wordCells, h16]
      have hne : physD s (rbank s c) (2 * r) ≠ physD s (rbank s c) (2 * r + 1) := fun he =>
        absurd ((physD_inj s _ (by omega) (by omega)).mp he) (by omega)
      rw [hc] at hset ⊢
      have h0 := hset I.d (32 * rbank s c + physD s (rbank s c) (2 * r)) (by decide)
      have h1 := hset I.d (32 * rbank s c + physD s (rbank s c) (2 * r + 1)) (by decide)
      simp only [spreadOver, afterLandings, putLanding, Landing.into, true_and, if_true] at h0 h1
      rw [if_neg (by omega)] at h0
      have hw : I.d.w = 16 := rfl
      simp only [hw, Nat.mod_mod] at h0 h1
      simp only [valueOf, List.foldr, h0, h1, hw]
      omega
    · have hc : wordCells s (rbank s c) r = [(I.p, 16 * rbank s c + (r - 16))] := by simp [wordCells, h16]
      rw [hc] at hset ⊢
      have h0 := hset I.p (16 * rbank s c + (r - 16)) (by decide)
      simp only [spreadOver, afterLandings, putLanding, Landing.into, true_and, if_true] at h0
      have hw : I.p.w = 32 := rfl
      simp only [hw, Nat.mod_mod] at h0
      simp only [valueOf, List.foldr, h0, hw]
      omega

theorem issuedAfter_rd {s u t : State} {c : Nat} {late : List (Fld × Nat)} (h : IssuedAfter s u t c [] late) (g : Fld) (j : Nat)
    (hg : g.id ∉ [I.pcb.id, I.cycle.id, I.qstall.id]) : t.rd g j = u.rd g j := by
  refine h.2.2.1.2.2.2 g j fun p hp he => ?_
  simp at hp
  rcases hp with rfl | rfl | rfl <;> exact absurd (by rw [← he]; simp) hg

theorem issued_code {s u : State} {c : Nat} (h : CoreReady s c) (a : Act) (hloop : a.isLoop = false) (hbr : a.isBranch = false)
    (haft : ∀ v pc n, actAfter v c pc n a = v) (hm : meetOf (fetched s c) c (.act a) = .ok)
    (hw : queueWaits (fetched s c) (.act a) = false) (hp : actNow (begun s c) c a = (u, []))
    (hu : u = { begun s c with iLines := u.iLines, tlbs := u.tlbs, freeCtr := u.freeCtr }) :
    ∃ t, syllable s c true clsS .only [.act a] [] = t ∧ Issued s t c [] [] ∧ t.tlbs = u.tlbs ∧ t.iLines = u.iLines := by
  obtain ⟨b1, b2, b3, b4⟩ := begun_fields s c
  obtain ⟨e1, -, e2⟩ := act_still h a hloop hbr haft hm hw (now := []) (late := []) hp
    (by unfold SameButCode at *; rw [hu, b1]) (by
      intro g j hj
      have : u.rd g j = (begun s c).rd g j := by rw [hu]; rfl
      rw [this]; exact b4 g j (by simpa using hj)) (by rw [hu]; exact b2) (by rw [hu]; exact b3) (by simp) (by simp) (by simp) (by simp)
  have hs : afterAccess s u c [] [] = { u with
      cells := (afterAccess s u c [] []).cells, landings := Tbl.put [] (rbank s c) (stay []) u.landings,
      macShadow := Tbl.put [] (rbank s c) [] u.macShadow, freeCtr := u.freeCtr + 1 } := bundleEnd_same _ _ _ _
  exact ⟨_, e1, e2, by rw [hs], by rw [hs]⟩

def tlbGone (asid op v : Nat) (t : TlbEntry) : Bool :=
  match op with
  | 0 => t.matches (v / 4096) asid
  | 1 => !bitOf t.entry entG && t.asid == v % 32
  | 2 => !bitOf t.entry entG
  | _ => true

theorem tlbInvalidate_eq (s : State) (c op v : Nat) : tlbInvalidate s c op v =
    { s with tlbs := Tbl.put [] c ((tlbOf s c).filter (!tlbGone (asidOf s c) op v ·)) s.tlbs } := rfl

theorem tlbNote_lines (s : State) (c a : Nat) : (tlbNote s c a).iLines = s.iLines := by
  unfold tlbNote
  split
  · cases walk s c a with
    | none => rfl
    | some e => by_cases hl : (tlbOf s c).length < 64 <;> simp only [hl, if_true, if_false] <;> rfl
  · rfl

theorem find_ins (k : Nat) (v : α) (t : Tbl α) : ((Tbl.ins k v (Tbl.drop k t)).find? fun e => e.1 == k) = some (k, v) := by
  have : ∀ t : Tbl α, (∀ e ∈ t, e.1 ≠ k) → ((Tbl.ins k v t).find? fun e => e.1 == k) = some (k, v) := by
    intro t
    induction t with
    | nil => intro _; simp [Tbl.ins]
    | cons a r ih =>
      intro ha
      obtain ⟨i, x⟩ := a
      unfold Tbl.ins
      split
      · simp
      · have hi : i ≠ k := ha (i, x) (by simp)
        rw [List.find?_cons_of_neg (by simpa using hi)]
        exact ih fun e he => ha e (by simp [he])
  refine this _ ?_
  induction t with
  | nil => simp [Tbl.drop]
  | cons a r ih =>
    obtain ⟨i, x⟩ := a
    unfold Tbl.drop
    split
    · exact ih
    · intro e he
      rcases List.mem_cons.mp he with rfl | he
      · assumption
      · exact ih e he

theorem find_drop (k : Nat) (t : Tbl α) : ((Tbl.drop k t).find? fun e => e.1 == k) = none := by
  induction t with
  | nil => rfl
  | cons a r ih =>
    obtain ⟨i, x⟩ := a
    unfold Tbl.drop
    split
    · exact ih
    · rename_i hi
      rw [List.find?_cons_of_neg (by simpa using hi)]; exact ih

theorem dLine_setLine (s : State) (la : Nat) (d : DLine) : dLine (setLine s la d) la = if d.holders.isEmpty then none else some d := by
  unfold dLine setLine
  split
  · dsimp only; rw [find_drop]; rfl
  · dsimp only; rw [find_ins]; rfl

end Sys2Proof.Machine
end

