-- ==== Sys2Proof/Laws/CaseMedia.lean ====
section
/-! SUPPORT.  Voice channels: what writes of words of page 0 leave, and the channel's commands. -/

namespace Sys2Proof.Machine

open Safety

theorem setW_byte (s : State) (i off v x : Nat) : (setW s i off v).byte x = (s.writeLE (frameAddr i + off) 4 v).byte x := rfl

theorem setW_rd (s : State) (i off v : Nat) (g : Fld) (j : Nat) (h1 : F.CPG_FRAME_DIRTY.id ≠ g.id) (h2 : I.mapDirty.id ≠ g.id) : (setW s i off v).rd g j = s.rd g j := by
  unfold setW markDirty
  rw [State.rd_wr_cell _ _ _ _ _ _ h2, State.rd_wr_cell _ _ _ _ _ _ h1]
  exact State.writeBytes_rd _ _ _ _ _

theorem setF_rd (s : State) (i off hi lo x : Nat) (g : Fld) (j : Nat) (h1 : F.CPG_FRAME_DIRTY.id ≠ g.id) (h2 : I.mapDirty.id ≠ g.id) :
    (setF s i off hi lo x).rd g j = s.rd g j := setW_rd _ _ _ _ _ _ h1 h2

theorem mw_lt (s : State) (i off : Nat) : mw s i off < 2 ^ 32 := readLE_lt _ _ _

theorem mw_setW_same (s : State) (i off v : Nat) : mw (setW s i off v) i off = v % 2 ^ 32 := by
  show (s.writeLE (frameAddr i + off) 4 v).readLE (frameAddr i + off) 4 = _
  rw [State.readLE_writeLE]
  rfl

theorem mw_setW_small (s : State) (i off v : Nat) (h : v < 2 ^ 32) : mw (setW s i off v) i off = v := by
  rw [mw_setW_same, Nat.mod_eq_of_lt h]

theorem readLE_setW (s : State) (i off v a n : Nat) (h : a + n ≤ frameAddr i + off ∨ frameAddr i + off + 4 ≤ a) : (setW s i off v).readLE a n = s.readLE a n := by
  unfold State.readLE State.readBytes
  congr 1
  apply List.map_congr_left
  intro k hk
  rw [List.mem_range] at hk
  rw [setW_byte, State.byte_writeLE, if_neg (by omega)]

theorem mw_setW_other (s : State) (i off off' v : Nat) (h : off ≠ off') (h1 : off % 4 = 0) (h2 : off' % 4 = 0) : mw (setW s i off v) i off' = mw s i off' :=
  readLE_setW _ _ _ _ _ _ (by omega)

theorem putField_lt {v hi lo x : Nat} (h : v < 2 ^ 32) (h1 : hi < 32) (h2 : lo ≤ hi) : putField v hi lo x < 2 ^ 32 := by
  unfold putField bits
  have hb : v / 2 ^ lo % 2 ^ (hi + 1 - lo) * 2 ^ lo ≤ v := by
    have a1 : v / 2 ^ lo % 2 ^ (hi + 1 - lo) ≤ v / 2 ^ lo := Nat.mod_le _ _
    exact Nat.le_trans (Nat.mul_le_mul_right _ a1) (Nat.div_mul_le_self _ _)
  -- v = high * 2^(hi+1) + field * 2^lo + low
  have e1 : 2 ^ (hi + 1) = 2 ^ lo * 2 ^ (hi + 1 - lo) := by rw [← Nat.pow_add]; congr 1; omega
  have e2 : v = v / 2 ^ (hi + 1) * 2 ^ (hi + 1) + (v / 2 ^ lo % 2 ^ (hi + 1 - lo) * 2 ^ lo + v % 2 ^ lo) := by
    have q1 := Nat.div_add_mod v (2 ^ lo)
    have q2 := Nat.div_add_mod (v / 2 ^ lo) (2 ^ (hi + 1 - lo))
    have q3 : v / 2 ^ (hi + 1) = v / 2 ^ lo / 2 ^ (hi + 1 - lo) := by rw [e1, Nat.div_div_eq_div_mul]
    rw [q3, e1]
    generalize v % 2 ^ lo = z at *
    generalize v / 2 ^ lo = q at *
    generalize q / 2 ^ (hi + 1 - lo) = q' at *
    generalize q % 2 ^ (hi + 1 - lo) = r at *
    rw [← q2, Nat.mul_add] at q1
    rw [← q1]
    ac_rfl
  have hx : x % 2 ^ (hi + 1 - lo) < 2 ^ (hi + 1 - lo) := Nat.mod_lt _ (Nat.two_pow_pos _)
  have hx2 : x % 2 ^ (hi + 1 - lo) * 2 ^ lo + v % 2 ^ lo < 2 ^ (hi + 1) := by
    rw [e1]
    have m1 := Nat.mod_lt v (Nat.two_pow_pos lo)
    calc x % 2 ^ (hi + 1 - lo) * 2 ^ lo + v % 2 ^ lo < x % 2 ^ (hi + 1 - lo) * 2 ^ lo + 2 ^ lo := by omega
      _ = (x % 2 ^ (hi + 1 - lo) + 1) * 2 ^ lo := by rw [Nat.add_mul, Nat.one_mul]
      _ ≤ 2 ^ (hi + 1 - lo) * 2 ^ lo := Nat.mul_le_mul_right _ hx
      _ = 2 ^ lo * 2 ^ (hi + 1 - lo) := Nat.mul_comm _ _
  have hq : v / 2 ^ (hi + 1) < 2 ^ (32 - (hi + 1)) := by
    rw [Nat.div_lt_iff_lt_mul (Nat.two_pow_pos _), ← Nat.pow_add, show 32 - (hi + 1) + (hi + 1) = 32 by omega]
    exact h
  have hq2 : v / 2 ^ (hi + 1) * 2 ^ (hi + 1) + 2 ^ (hi + 1) ≤ 2 ^ 32 := by
    have : (v / 2 ^ (hi + 1) + 1) * 2 ^ (hi + 1) ≤ 2 ^ (32 - (hi + 1)) * 2 ^ (hi + 1) := Nat.mul_le_mul_right _ hq
    rw [← Nat.pow_add, show 32 - (hi + 1) + (hi + 1) = 32 by omega, Nat.add_mul, Nat.one_mul] at this
    exact this
  omega

theorem putField_zero {v : Nat} (h : v < 2 ^ 32) : putField v 31 0 0 = 0 := by
  unfold putField bits
  omega

theorem putBit_lt32 {v k : Nat} {b : Bool} (h : v < 2 ^ 32) (hk : k < 32) : putBit v k b < 2 ^ 32 := putBit_lt h hk

theorem mw_setF_same (s : State) (i off hi lo x : Nat) (h1 : hi < 32) (h2 : lo ≤ hi) : mw (setF s i off hi lo x) i off = putField (mw s i off) hi lo x := by
  unfold setF
  rw [mw_setW_small _ _ _ _ (putField_lt (mw_lt _ _ _) h1 h2)]

theorem mw_setF_other (s : State) (i off off' hi lo x : Nat) (h : off ≠ off') (h1 : off % 4 = 0) (h2 : off' % 4 = 0) : mw (setF s i off hi lo x) i off' = mw s i off' :=
  mw_setW_other _ _ _ _ _ h h1 h2

theorem onlyWords_refl (s : State) (i : Nat) (l : List Nat) : OnlyWords s s i l := ⟨fun _ _ => rfl, .refl _ _, rfl⟩

theorem onlyWords_mono {s t : State} {i : Nat} {l m : List Nat} (h : OnlyWords s t i l) (hm : ∀ o ∈ l, o ∈ m) : OnlyWords s t i m :=
  ⟨fun a ha => h.1 a fun o ho => ha o (hm o ho), h.2⟩

theorem onlyWords_trans {s t u : State} {i : Nat} {l : List Nat} (h : OnlyWords s t i l) (k : OnlyWords t u i l) : OnlyWords s u i l := by
  refine ⟨fun a ha => (k.1 a ha).trans (h.1 a ha), h.2.1.trans k.2.1, ?_⟩
  have h1 := h.2.2
  rw [k.2.2]
  conv => lhs; rw [h1]

theorem setW_only (s : State) (i off v : Nat) : OnlyWords s (setW s i off v) i [off] := by
  refine ⟨fun a ha => ?_, fun g j hg => setW_rd _ _ _ _ _ _ (hg _ (by simp)) (hg _ (by simp)), ?_⟩
  · rw [setW_byte, State.byte_writeLE, if_neg (by have := ha off (by simp); omega)]
  · have h := State.writeBytes_same s (frameAddr i + off) (leBytes 4 v)
    show markDirty (s.writeBytes (frameAddr i + off) (leBytes 4 v)) i = _
    generalize hw : s.writeBytes (frameAddr i + off) (leBytes 4 v) = w at *
    have hm : SameButCells w (markDirty w i) := .wr (.wr (.refl _))
    have hs : setW s i off v = markDirty w i := by unfold setW State.writeLE; rw [hw]
    rw [hs]
    generalize markDirty w i = z at *
    unfold SameButCells at hm
    rw [hm]
    conv => lhs; rw [h]

theorem onlyWords_setW {s t : State} {i off v : Nat} {l : List Nat} (h : OnlyWords s t i l) (hm : off ∈ l) : OnlyWords s (setW t i off v) i l :=
  onlyWords_trans h (onlyWords_mono (setW_only t i off v) fun o ho => by simp only [List.mem_cons, List.not_mem_nil, or_false] at ho; rw [ho]; exact hm)

theorem onlyWords_setF {s t : State} {i off hi lo x : Nat} {l : List Nat} (h : OnlyWords s t i l) (hm : off ∈ l) : OnlyWords s (setF t i off hi lo x) i l :=
  onlyWords_setW h hm

theorem onlyWords_over {α : Type} {s t : State} {i : Nat} {l : List Nat} (h : OnlyWords s t i l) (xs : List α) (f : State → α → State)
    (hf : ∀ u, ∀ x ∈ xs, OnlyWords u (f u x) i l) : OnlyWords s (t.over xs f) i l := by
  unfold State.over
  induction xs generalizing t with
  | nil => exact h
  | cons a r ih => exact ih (onlyWords_trans h (hf t a (by simp))) fun u x hx => hf u x (by simp [hx])

/-- A presented command as it is acknowledged. -/
def acked (s : State) (i cmd : Nat) : State := setF (setF s i 0x400 31 24 (bits (mw s i 0x000) 31 24)) i 0x400 19 16 cmd

theorem take_says {s : State} {c i : Nat} (cmd now : Nat) (hp : mediaPage s c = some i) (hc : bits (mw s i 0) 19 16 = cmd) (hq : cmdPending s i = true) :
    takeIf s c cmd now = .next (setF (actCommand (acked s i cmd) i cmd now).2 i 0x400 23 20 (actCommand (acked s i cmd) i cmd now).1) := by
  unfold takeIf onChannel
  rw [hp]
  dsimp only
  rw [if_pos (by rw [hc]; simp)]
  unfold takeCommand
  rw [if_neg (by rw [hq]; decide), hc]
  rfl

theorem acked_words (s : State) (i cmd : Nat) : (∀ off, off % 4 = 0 → off ≠ 0x400 → mw (acked s i cmd) i off = mw s i off) ∧
    mw (acked s i cmd) i 0x400 = putField (putField (mw s i 0x400) 31 24 (bits (mw s i 0) 31 24)) 19 16 cmd ∧ OnlyWords s (acked s i cmd) i [0x400] := by
  refine ⟨fun off h h' => ?_, ?_, ?_⟩
  · unfold acked
    rw [mw_setF_other _ _ _ _ _ _ _ (Ne.symm h') (by decide) h, mw_setF_other _ _ _ _ _ _ _ (Ne.symm h') (by decide) h]
  · unfold acked
    rw [mw_setF_same _ _ _ _ _ _ (by decide) (by decide), mw_setF_same _ _ _ _ _ _ (by decide) (by decide)]
  · exact onlyWords_setF (onlyWords_setF (onlyWords_refl _ _ _) (by simp)) (by simp)

/-- Bits below a field do not feel it. -/
theorem bits_putField_low {v hi lo x h : Nat} (hh : h < lo) : bits (putField v hi lo x) h 0 = bits v h 0 := by
  unfold putField bits
  simp only [Nat.pow_zero, Nat.div_one, Nat.sub_zero]
  have hb : v / 2 ^ lo % 2 ^ (hi + 1 - lo) * 2 ^ lo ≤ v :=
    Nat.le_trans (Nat.mul_le_mul_right _ (Nat.mod_le _ _)) (Nat.div_mul_le_self _ _)
  have e : 2 ^ lo = 2 ^ (h + 1) * 2 ^ (lo - (h + 1)) := by rw [← Nat.pow_add]; congr 1; omega
  have h2 : 2 ^ (h + 1) ∣ 2 ^ lo := ⟨_, e⟩
  obtain ⟨k, hk⟩ : ∃ k, v / 2 ^ lo % 2 ^ (hi + 1 - lo) * 2 ^ lo = 2 ^ (h + 1) * k := ⟨v / 2 ^ lo % 2 ^ (hi + 1 - lo) * 2 ^ (lo - (h + 1)), by rw [e]; ac_rfl⟩
  obtain ⟨k', hk'⟩ : ∃ k, x % 2 ^ (hi + 1 - lo) * 2 ^ lo = 2 ^ (h + 1) * k := ⟨x % 2 ^ (hi + 1 - lo) * 2 ^ (lo - (h + 1)), by rw [e]; ac_rfl⟩
  rw [hk'] 
  rw [hk] at hb ⊢
  rw [Nat.add_mul_mod_self_left]
  have hd : (v - 2 ^ (h + 1) * k) + 2 ^ (h + 1) * k = v := Nat.sub_add_cancel hb
  conv => rhs; rw [← hd, Nat.add_mul_mod_self_left]

theorem acked_state (s : State) (i cmd : Nat) : chanState (acked s i cmd) i = chanState s i := by
  unfold chanState
  rw [(acked_words s i cmd).2.1, bits_putField_low (by decide), bits_putField_low (by decide)]

theorem badCfg_congr {s u : State} {i : Nat} (h : ∀ off, off % 4 = 0 → off ≠ 0x400 → mw u i off = mw s i off)
    (hc : ∀ g ∈ [I.frOwner, I.ctxv, I.bank], ∀ j, u.rd g j = s.rd g j) : badCfg u i = badCfg s i := by
  have e1 : frameTask u i = frameTask s i := by unfold frameTask; rw [hc _ (by simp)]
  have e2 : rbank u (i / 16) = rbank s (i / 16) := by unfold rbank; rw [hc _ (by simp)]
  have e3 : jobPset u i = jobPset s i := by unfold jobPset; rw [e2, hc _ (by simp)]
  have h0 : ∀ off, off % 4 = 0 → off ≠ 0x400 → mw u i off = mw s i off := h
  have w1 : chanWB u i = chanWB s i := by unfold chanWB; rw [h _ (by decide) (by decide)]
  have w2 : chanLong u i = chanLong s i := by unfold chanLong; rw [h _ (by decide) (by decide)]
  have w3 : chanPkt u i = chanPkt s i := by unfold chanPkt; rw [h _ (by decide) (by decide)]
  have w4 : chanLine u i = chanLine s i := by unfold chanLine; rw [h _ (by decide) (by decide)]
  have w5 : chanSlot u i = chanSlot s i := by unfold chanSlot; rw [h _ (by decide) (by decide)]
  have w6 : blockMs u i = blockMs s i := by unfold blockMs; rw [w2]
  have w7 : ∀ l, codWord u i l = codWord s i l := by intro l; unfold codWord; cases l <;> exact h _ (by decide) (by decide)
  have w8 : ∀ l, ptimeOf u i l = ptimeOf s i l := by
    intro l; unfold ptimeOf; cases l
    · have := h 0x010 (by decide) (by decide); simp only [Bool.false_eq_true, if_false, this]
    · have := h 0x020 (by decide) (by decide); simp only [if_true, this]
  have w9 : ecEn u i = ecEn s i := by unfold ecEn; rw [h _ (by decide) (by decide), w4]
  have w10 : ecDense u i = ecDense s i := by unfold ecDense; rw [h _ (by decide) (by decide)]
  have w11 : faxMode u i = faxMode s i := by unfold faxMode; rw [h _ (by decide) (by decide)]
  have p1 : pagesP u i = pagesP s i := by unfold pagesP; rw [w3, w4, w7]
  have p2 : pagesL u i = pagesL s i := by unfold pagesL; rw [w4, w7]
  have p3 : pagesEc u i = pagesEc s i := by unfold pagesEc; rw [w9, w1]
  have p4 : pagesFax u i = pagesFax s i := by unfold pagesFax; rw [w11, w1]
  have p5 : pagesNeeded u i = pagesNeeded s i := by unfold pagesNeeded; rw [p1, p2, p3, p4, w9, w10]
  have p6 : ∀ m, pagesIn u i m = pagesIn s i m := by intro m; unfold pagesIn; rw [e3]
  have p7 : ∀ l, ptimeBad u i l = ptimeBad s i l := by intro l; unfold ptimeBad; rw [w7, w8]
  have p8 : ∀ l, legBound u i l = legBound s i l := by intro l; unfold legBound; rw [w3, w4]
  have c1 : ∀ l, codErr u i l = codErr s i l := by
    intro l; unfold codErr
    rw [p8, w7, w1, p7, p6, p6, p1, p2, w9, w7, w11, w4, p4, p5, h 0x110 (by decide) (by decide), h 0x080 (by decide) (by decide)]
  unfold badCfg
  rw [e1, w5, w1, w2, w4, p6, p5, w11, h 0x110 (by decide) (by decide), h 0x080 (by decide) (by decide), h 0x038 (by decide) (by decide), h 0x03C (by decide) (by decide)]
  simp only [p8, w8, w6, c1]

theorem onlyWords_rd {s t : State} {i : Nat} {l : List Nat} (h : OnlyWords s t i l) (g : Fld) (j : Nat) (h1 : F.CPG_FRAME_DIRTY.id ≠ g.id) (h2 : I.mapDirty.id ≠ g.id) :
    t.rd g j = s.rd g j := h.2.1 g j (by
      intro f hf
      simp only [List.mem_cons, List.not_mem_nil, or_false] at hf
      rcases hf with rfl | rfl
      · exact h1
      · exact h2)

theorem onlyWords_mw {s t : State} {i : Nat} {l : List Nat} (h : OnlyWords s t i l) (hl : ∀ o ∈ l, o % 4 = 0) (off : Nat) (h4 : off % 4 = 0) (hn : off ∉ l) :
    mw t i off = mw s i off := by
  unfold mw State.readLE State.readBytes
  congr 1
  apply List.map_congr_left
  intro k hk
  rw [List.mem_range] at hk
  refine h.1 _ fun o ho => ?_
  have : o ≠ off := fun e => hn (e ▸ ho)
  have := hl o ho
  omega

theorem acked_cfg (s : State) (i cmd : Nat) : badCfg (acked s i cmd) i = badCfg s i :=
  badCfg_congr (acked_words s i cmd).1 fun g hg j => onlyWords_rd (acked_words s i cmd).2.2 g j
    (by simp only [List.mem_cons, List.not_mem_nil, or_false] at hg; rcases hg with rfl | rfl | rfl <;> decide)
    (by simp only [List.mem_cons, List.not_mem_nil, or_false] at hg; rcases hg with rfl | rfl | rfl <;> decide)

/-- Offsets of what becoming active writes. -/
def audioOffs : List Nat := [0x500, 0x610, 0x618, 0x504, 0x614, 0x61C, 0x628]

theorem codecForce_words (s : State) (i : Nat) (l : Bool) : mw (codecForce s i l) i (stsCod l) = putField (putField (mw s i (stsCod l)) 31 28 (bits (codWord s i l) 31 28)) 11 8 0 ∧
    mw (codecForce s i l) i (codInForce l) = codWord s i l ∧ mw (codecForce s i l) i (codInForce l + 8) = 0 ∧
    OnlyWords s (codecForce s i l) i [stsCod l, codInForce l, codInForce l + 8] := by
  have hw : codWord s i l < 2 ^ 32 := mw_lt _ _ _
  unfold codecForce
  dsimp only
  have ne : stsCod l ≠ codInForce l ∧ stsCod l ≠ codInForce l + 8 ∧ codInForce l ≠ codInForce l + 8 ∧ stsCod l % 4 = 0 ∧ codInForce l % 4 = 0 ∧ (codInForce l + 8) % 4 = 0 := by
    cases l <;> decide
  obtain ⟨n1, n2, n3, n4, n5, n6⟩ := ne
  refine ⟨?_, ?_, ?_, ?_⟩
  · rw [mw_setW_other _ _ _ _ _ (Ne.symm n2) n6 n4, mw_setW_other _ _ _ _ _ (Ne.symm n1) n5 n4, mw_setF_same _ _ _ _ _ _ (by decide) (by decide), mw_setF_same _ _ _ _ _ _ (by decide) (by decide)]
  · rw [mw_setW_other _ _ _ _ _ (Ne.symm n3) n6 n5, mw_setW_small _ _ _ _ hw]
  · rw [mw_setW_same, Nat.zero_mod]
  · exact onlyWords_setW (onlyWords_setW (onlyWords_setF (onlyWords_setF (onlyWords_refl _ _ _) (by simp)) (by simp)) (by simp)) (by simp)

theorem startAudio_words (s : State) (i : Nat) (h : faxMode s i ≠ 2) : let t := startAudio s i
    mw t i 0x500 = putField (putField (mw s i 0x500) 31 28 (bits (mw s i 0x100) 31 28)) 11 8 0 ∧ mw t i 0x610 = mw s i 0x100 ∧ mw t i 0x618 = 0 ∧
    mw t i 0x504 = putField (putField (mw s i 0x504) 31 28 (bits (mw s i 0x108) 31 28)) 11 8 0 ∧ mw t i 0x614 = mw s i 0x108 ∧ mw t i 0x61C = 0 ∧ mw t i 0x628 = 0 ∧
    OnlyWords s t i audioOffs := by
  obtain ⟨a1, a2, a3, a4⟩ := codecForce_words s i false
  obtain ⟨b1, b2, b3, b4⟩ := codecForce_words (codecForce s i false) i true
  have hx : startAudio s i = setW (codecForce (codecForce s i false) i true) i 0x628 0 := by
    unfold startAudio
    dsimp only
    rw [if_neg ?_]
    have hfm : faxMode (setW (codecForce (codecForce s i false) i true) i 0x628 0) i = faxMode s i := by
      unfold faxMode
      rw [mw_setW_other _ _ _ _ _ (by decide) (by decide) (by decide), onlyWords_mw b4 (by decide) _ (by decide) (by decide), onlyWords_mw a4 (by decide) _ (by decide) (by decide)]
    rw [hfm]
    simp [h]
  intro t
  rw [show t = _ from hx]
  have am : ∀ off, off % 4 = 0 → off ∉ [stsCod false, codInForce false, codInForce false + 8] → mw (codecForce s i false) i off = mw s i off := fun off h1 h2 =>
    onlyWords_mw a4 (by decide) _ h1 h2
  have bm : ∀ off, off % 4 = 0 → off ∉ [stsCod true, codInForce true, codInForce true + 8] → mw (codecForce (codecForce s i false) i true) i off = mw (codecForce s i false) i off := fun off h1 h2 =>
    onlyWords_mw b4 (by decide) _ h1 h2
  refine ⟨?_, ?_, ?_, ?_, ?_, ?_, ?_, ?_⟩
  · rw [mw_setW_other _ _ _ _ _ (by decide) (by decide) (by decide), bm _ (by decide) (by decide)]; exact a1
  · rw [mw_setW_other _ _ _ _ _ (by decide) (by decide) (by decide), bm _ (by decide) (by decide)]; exact a2
  · rw [mw_setW_other _ _ _ _ _ (by decide) (by decide) (by decide), bm _ (by decide) (by decide)]; exact a3
  · rw [mw_setW_other _ _ _ _ _ (by decide) (by decide) (by decide)]
    refine b1.trans ?_
    have e : codWord (codecForce s i false) i true = mw s i 0x108 := am _ (by decide) (by decide)
    rw [e, am _ (by decide) (by decide)]; rfl
  · rw [mw_setW_other _ _ _ _ _ (by decide) (by decide) (by decide)]
    exact b2.trans (am _ (by decide) (by decide))
  · rw [mw_setW_other _ _ _ _ _ (by decide) (by decide) (by decide)]; exact b3
  · rw [mw_setW_same, Nat.zero_mod]
  · refine onlyWords_setW (onlyWords_trans (onlyWords_mono a4 ?_) (onlyWords_mono b4 ?_)) (by simp [audioOffs]) <;> decide

theorem setLvl_words (s : State) (i : Nat) (r : Bool) (k : Nat) (b : Bool) (hk : k ≤ 3) : mw (setLvl s i r k b) i 0x544 = putBit (mw s i 0x544) (lvlLo r + k) b := by
  unfold setLvl
  rw [mw_setW_small _ _ _ _ (putBit_lt32 (mw_lt _ _ _) (by unfold lvlLo; cases r <;> simp <;> omega))]

theorem levelActivate_words (s : State) (i : Nat) (r : Bool) : let t := levelActivate s i r
    mw t i 0x544 = putBit (putBit (putBit (mw s i 0x544) (lvlLo r + 3) (lvlTarget s i r)) (lvlLo r + 2) false) (lvlLo r + 1) false ∧
    mw t i 0x660 = putBit (mw s i 0x660) (b2n r) (lvlTarget s i r) ∧ OnlyWords s t i [0x544, 0x660] := by
  unfold levelActivate
  dsimp only
  refine ⟨?_, ?_, ?_⟩
  · unfold setLvlLast
    rw [mw_setW_other _ _ _ _ _ (by decide) (by decide) (by decide), setLvl_words _ _ _ _ _ (by decide), setLvl_words _ _ _ _ _ (by decide), setLvl_words _ _ _ _ _ (by decide)]
  · unfold setLvlLast
    rw [mw_setW_small _ _ _ _ (putBit_lt32 (mw_lt _ _ _) (by cases r <;> decide))]
    unfold setLvl
    rw [mw_setW_other _ _ _ _ _ (by decide) (by decide) (by decide), mw_setW_other _ _ _ _ _ (by decide) (by decide) (by decide), mw_setW_other _ _ _ _ _ (by decide) (by decide) (by decide)]
  · exact onlyWords_setW (onlyWords_setW (onlyWords_setW (onlyWords_setW (onlyWords_refl _ _ _) (by simp)) (by simp)) (by simp)) (by simp)

theorem loadShape_words (s : State) (i k : Nat) (hk : k < 4) (h : mw s i (0x184 + 4 * k) % 256 = 0) : let t := loadShape s i k
    mw t i 0x544 = putBit (mw s i 0x544) k false ∧ mw t i (0x670 + 4 * k) = mw s i (0x184 + 4 * k) ∧ OnlyWords s t i [0x544, 0x670 + 4 * k] := by
  unfold loadShape
  dsimp only
  rw [h]
  simp only [bne_self_eq_false, Bool.and_false, Bool.false_eq_true, if_false]
  have hok : shapeOk (setW s i (0x670 + 4 * k) (mw s i (0x184 + 4 * k))) i (mw s i (0x184 + 4 * k)) = true := by
    unfold shapeOk
    dsimp only
    rw [h]; rfl
  rw [hok]
  refine ⟨?_, ?_, ?_⟩
  · rw [mw_setW_small _ _ _ _ (putBit_lt32 (mw_lt _ _ _) (by omega)), mw_setW_other _ _ _ _ _ (by omega) (by omega) (by decide)]; rfl
  · rw [mw_setW_other _ _ _ _ _ (by omega) (by decide) (by omega), mw_setW_small _ _ _ _ (mw_lt _ _ _)]
  · exact onlyWords_setW (onlyWords_setW (onlyWords_refl _ _ _) (by simp)) (by simp)

theorem loadShapes_words (s : State) (i : Nat) (h : ∀ k, k < 4 → mw s i (0x184 + 4 * k) % 256 = 0) : let t := s.over (List.range 4) fun s k => loadShape s i k
    mw t i 0x544 = putBit (putBit (putBit (putBit (mw s i 0x544) 0 false) 1 false) 2 false) 3 false ∧ (∀ k, k < 4 → mw t i (0x670 + 4 * k) = mw s i (0x184 + 4 * k)) ∧
    OnlyWords s t i [0x544, 0x670, 0x674, 0x678, 0x67C] := by
  intro t
  have ht : t = loadShape (loadShape (loadShape (loadShape s i 0) i 1) i 2) i 3 := rfl
  rw [ht]
  clear ht t
  obtain ⟨a1, a2, a3⟩ := loadShape_words s i 0 (by decide) (h 0 (by decide))
  generalize loadShape s i 0 = u0 at *
  have m0 : ∀ off, off % 4 = 0 → off ∉ [0x544, 0x670 + 4 * 0] → mw u0 i off = mw s i off := fun off h1 h2 => onlyWords_mw a3 (by decide) _ h1 h2
  obtain ⟨b1, b2, b3⟩ := loadShape_words u0 i 1 (by decide) (by rw [m0 _ (by decide) (by decide)]; exact h 1 (by decide))
  generalize loadShape u0 i 1 = u1 at *
  have m1 : ∀ off, off % 4 = 0 → off ∉ [0x544, 0x670 + 4 * 1] → mw u1 i off = mw u0 i off := fun off h1 h2 => onlyWords_mw b3 (by decide) _ h1 h2
  obtain ⟨c1, c2, c3⟩ := loadShape_words u1 i 2 (by decide) (by rw [m1 _ (by decide) (by decide), m0 _ (by decide) (by decide)]; exact h 2 (by decide))
  generalize loadShape u1 i 2 = u2 at *
  have m2 : ∀ off, off % 4 = 0 → off ∉ [0x544, 0x670 + 4 * 2] → mw u2 i off = mw u1 i off := fun off h1 h2 => onlyWords_mw c3 (by decide) _ h1 h2
  obtain ⟨d1, d2, d3⟩ := loadShape_words u2 i 3 (by decide) (by rw [m2 _ (by decide) (by decide), m1 _ (by decide) (by decide), m0 _ (by decide) (by decide)]; exact h 3 (by decide))
  generalize loadShape u2 i 3 = u3 at *
  have m3 : ∀ off, off % 4 = 0 → off ∉ [0x544, 0x670 + 4 * 3] → mw u3 i off = mw u2 i off := fun off h1 h2 => onlyWords_mw d3 (by decide) _ h1 h2
  refine ⟨by rw [d1, c1, b1, a1], fun k hk => ?_, ?_⟩
  · have : k = 0 ∨ k = 1 ∨ k = 2 ∨ k = 3 := by omega
    rcases this with rfl | rfl | rfl | rfl
    · rw [m3 _ (by decide) (by decide), m2 _ (by decide) (by decide), m1 _ (by decide) (by decide), a2]
    · rw [m3 _ (by decide) (by decide), m2 _ (by decide) (by decide), b2, m0 _ (by decide) (by decide)]
    · rw [m3 _ (by decide) (by decide), c2, m1 _ (by decide) (by decide), m0 _ (by decide) (by decide)]
    · rw [d2, m2 _ (by decide) (by decide), m1 _ (by decide) (by decide), m0 _ (by decide) (by decide)]
  · exact onlyWords_trans (onlyWords_trans (onlyWords_trans (onlyWords_mono a3 (by decide)) (onlyWords_mono b3 (by decide))) (onlyWords_mono c3 (by decide))) (onlyWords_mono d3 (by decide))

theorem words_of {s t : State} {i : Nat} {l : List (Nat × Nat)} (h : ∀ p ∈ l, mw t i p.1 = p.2) (o : OnlyWords s t i (l.map (·.1))) : Words s t i l := ⟨h, o⟩

/-- ACTIVATE (R285, R286). -/
theorem activate_words (u : State) (i now : Nat) (h1 : chanState u i = chALLOCATED) (h2 : badCfg u i = false) (h3 : faxMode u i ≠ 2)
    (h4 : ∀ k, k < 4 → mw u i (0x184 + 4 * k) % 256 = 0) : ∃ t, activate u i now = (0, t) ∧
    mw t i 0x400 = putField (mw u i 0x400) 3 0 (if startDue u i now then chACTIVE else chARMED) ∧
    (mw t i 0x500 = putField (putField (mw u i 0x500) 31 28 (bits (mw u i 0x100) 31 28)) 11 8 0 ∧ mw t i 0x610 = mw u i 0x100 ∧ mw t i 0x618 = 0 ∧
      mw t i 0x504 = putField (putField (mw u i 0x504) 31 28 (bits (mw u i 0x108) 31 28)) 11 8 0 ∧ mw t i 0x614 = mw u i 0x108 ∧ mw t i 0x61C = 0 ∧ mw t i 0x628 = 0) ∧
    (∀ k, k < 4 → mw t i (0x670 + 4 * k) = mw u i (0x184 + 4 * k)) ∧
    (∀ r, lvlBit t i r 3 = lvlTarget u i r ∧ lvlBit t i r 2 = false ∧ lvlLast t i r = lvlTarget u i r) ∧
    OnlyWords u t i ([0x400, 0x544, 0x660, 0x670, 0x674, 0x678, 0x67C] ++ audioOffs) := by
  obtain ⟨a1, a2, a3, a4, a5, a6, a7, a8⟩ := startAudio_words u i h3
  have hx : activate u i now = (0, setChanState ((levelActivate (levelActivate (startAudio u i) i false) i true).over (List.range 4) fun s k => loadShape s i k) i
      (if startDue ((levelActivate (levelActivate (startAudio u i) i false) i true).over (List.range 4) fun s k => loadShape s i k) i now then chACTIVE else chARMED)) := by
    unfold activate
    rw [if_neg (by rw [h1]; decide), if_neg (by rw [h2]; decide)]
  refine ⟨_, hx, ?_⟩
  clear hx
  generalize startAudio u i = v at *
  have mv : ∀ off, off % 4 = 0 → off ∉ audioOffs → mw v i off = mw u i off := fun off h1 h2 => onlyWords_mw a8 (by decide) _ h1 h2
  obtain ⟨b1, b2, b3⟩ := levelActivate_words v i false
  generalize levelActivate v i false = v1 at *
  have mv1 : ∀ off, off % 4 = 0 → off ∉ [0x544, 0x660] → mw v1 i off = mw v i off := fun off h1 h2 => onlyWords_mw b3 (by decide) _ h1 h2
  obtain ⟨c1, c2, c3⟩ := levelActivate_words v1 i true
  generalize levelActivate v1 i true = v2 at *
  have mv2 : ∀ off, off % 4 = 0 → off ∉ [0x544, 0x660] → mw v2 i off = mw v1 i off := fun off h1 h2 => onlyWords_mw c3 (by decide) _ h1 h2
  have hb : ∀ k, k < 4 → mw v2 i (0x184 + 4 * k) = mw u i (0x184 + 4 * k) := by
    intro k hk
    have hno : ∀ k < 4, 0x184 + 4 * k ∉ [0x544, 0x660] ∧ 0x184 + 4 * k ∉ audioOffs ∧ (0x184 + 4 * k) % 4 = 0 := by decide
    obtain ⟨n1, n2, n3⟩ := hno k hk
    rw [mv2 _ n3 n1, mv1 _ n3 n1, mv _ n3 n2]
  obtain ⟨d1, d2, d3⟩ := loadShapes_words v2 i fun k hk => by rw [hb k hk]; exact h4 k hk
  generalize v2.over (List.range 4) (fun s k => loadShape s i k) = v3 at *
  have mv3 : ∀ off, off % 4 = 0 → off ∉ [0x544, 0x670, 0x674, 0x678, 0x67C] → mw v3 i off = mw v2 i off := fun off h1 h2 => onlyWords_mw d3 (by decide) _ h1 h2
  have mall : ∀ off, off % 4 = 0 → off ∉ [0x544, 0x670, 0x674, 0x678, 0x67C] → off ∉ [0x544, 0x660] → mw v3 i off = mw v i off := fun off h x y => by
    rw [mv3 _ h x, mv2 _ h y, mv1 _ h y]
  have t1 : ∀ r, lvlTarget v i r = lvlTarget u i r := by intro r; unfold lvlTarget; rw [mv _ (by decide) (by decide)]
  have t2 : ∀ r, lvlTarget v1 i r = lvlTarget u i r := by intro r; unfold lvlTarget; rw [mv1 _ (by decide) (by decide), mv _ (by decide) (by decide)]
  have hdue : startDue v3 i now = startDue u i now := by unfold startDue; rw [mall _ (by decide) (by decide) (by decide), mv _ (by decide) (by decide)]
  rw [hdue]
  generalize (if startDue u i now = true then chACTIVE else chARMED) = st
  have mf : ∀ off, off % 4 = 0 → off ≠ 0x400 → mw (setChanState v3 i st) i off = mw v3 i off := fun off h1 h2 => mw_setF_other _ _ _ _ _ _ _ (Ne.symm h2) (by decide) h1
  refine ⟨?_, ⟨?_, ?_, ?_, ?_, ?_, ?_, ?_⟩, fun k hk => ?_, fun r => ?_, ?_⟩
  · unfold setChanState
    rw [mw_setF_same _ _ _ _ _ _ (by decide) (by decide), mall _ (by decide) (by decide) (by decide), mv _ (by decide) (by decide)]
  · rw [mf _ (by decide) (by decide), mall _ (by decide) (by decide) (by decide)]; exact a1
  · rw [mf _ (by decide) (by decide), mall _ (by decide) (by decide) (by decide)]; exact a2
  · rw [mf _ (by decide) (by decide), mall _ (by decide) (by decide) (by decide)]; exact a3
  · rw [mf _ (by decide) (by decide), mall _ (by decide) (by decide) (by decide)]; exact a4
  · rw [mf _ (by decide) (by decide), mall _ (by decide) (by decide) (by decide)]; exact a5
  · rw [mf _ (by decide) (by decide), mall _ (by decide) (by decide) (by decide)]; exact a6
  · rw [mf _ (by decide) (by decide), mall _ (by decide) (by decide) (by decide)]; exact a7
  · rw [mf _ (by omega) (by omega), d2 k hk, hb k hk]
  · have e544 : mw (setChanState v3 i st) i 0x544 = putBit (putBit (putBit (putBit (putBit (putBit (putBit (putBit (putBit (putBit (mw v i 0x544) 31 (lvlTarget u i false)) 30 false) 29 false)
        23 (lvlTarget u i true)) 22 false) 21 false) 0 false) 1 false) 2 false) 3 false := by
      rw [mf _ (by decide) (by decide), d1, c1, b1, t1, t2]
      rfl
    have e660 : mw (setChanState v3 i st) i 0x660 = putBit (putBit (mw v i 0x660) 0 (lvlTarget u i false)) 1 (lvlTarget u i true) := by
      rw [mf _ (by decide) (by decide), mv3 _ (by decide) (by decide), c2, b2, t1, t2]; rfl
    unfold lvlBit lvlLast
    rw [e544, e660]
    cases r
    · simp [lvlLo, bitOf_putBit, b2n]
    · simp [lvlLo, bitOf_putBit, b2n]
  · exact onlyWords_setF (onlyWords_trans (onlyWords_trans (onlyWords_trans (onlyWords_mono a8 (by decide)) (onlyWords_mono b3 (by decide))) (onlyWords_mono c3 (by decide)))
      (onlyWords_mono d3 (by decide))) (by decide)

theorem takes {s : State} {c : Fin 64} {i : Nat} (k : Instr) (cmd now : Nat) (r : Nat) (t : State) (hk : exec k s = takeIf s c.val cmd now)
    (hp : mediaPage s c.val = some i) (hc : bits (mw s i 0) 19 16 = cmd) (hq : cmdPending s i = true)
    (ha : actCommand (acked s i cmd) i cmd now = (r, t)) : exec k s = .next (setF t i 0x400 23 20 r) := by
  rw [hk, take_says cmd now hp hc hq, ha]

/-- A command that does nothing but answer with a result. -/
theorem takes_only {s : State} {c : Fin 64} {i : Nat} (k : Instr) (cmd now : Nat) (r : Nat) (hk : exec k s = takeIf s c.val cmd now)
    (hp : mediaPage s c.val = some i) (hc : bits (mw s i 0) 19 16 = cmd) (hq : cmdPending s i = true)
    (ha : actCommand (acked s i cmd) i cmd now = (r, acked s i cmd)) :
    Does k s fun t => Words s t i [(0x400, putField (putField (putField (mw s i 0x400) 31 24 (bits (mw s i 0) 31 24)) 19 16 (bits (mw s i 0) 19 16)) 23 20 r)] := by
  refine ⟨_, takes k cmd now r _ hk hp hc hq ha, words_of (fun p hp => ?_) ?_⟩
  · simp only [List.mem_cons, List.not_mem_nil, or_false] at hp
    subst hp
    dsimp only
    rw [mw_setF_same _ _ _ _ _ _ (by decide) (by decide), (acked_words s i cmd).2.1, hc]
  · exact onlyWords_setF (acked_words s i cmd).2.2 (by simp)

theorem act_activate (s : State) (i w : Nat) : actCommand s i 1 w = activate s i w := rfl

theorem act_hold (s : State) (i w : Nat) : actCommand s i 2 w = hold s i := rfl

theorem act_resume (s : State) (i w : Nat) : actCommand s i 3 w = resume s i := rfl

theorem act_stop (s : State) (i w : Nat) : actCommand s i 4 w = stop s i := rfl

theorem act_mark (s : State) (i w : Nat) : actCommand s i 5 w = (0, setMark s i) := rfl

theorem act_rewind (s : State) (i w : Nat) : actCommand s i 6 w = rewind s i := rfl

theorem act_clear (s : State) (i w : Nat) : actCommand s i 7 w = (0, s.over statOffsets fun s off => setW s i off 0) := rfl

theorem activate_refused (s : State) (i w : Nat) (hs : chanState s i ≠ chALLOCATED) : activate s i w = (1, s) := by
  unfold activate
  exact if_pos (by simpa using hs)

theorem hold_refused (s : State) (i : Nat) (hs : chanState s i ≠ chACTIVE) : hold s i = (1, s) := by
  unfold hold
  exact if_pos (by simpa using hs)

theorem hold_plain (s : State) (i : Nat) (hs : chanState s i = chACTIVE) (h : ∀ r, lvlBit s i r 2 = false) : hold s i =
    (0, setChanState (setF (setF s i 0x480 20 20 0) i 0x640 31 0 0) i chHELD) := by
  have hlv : ∀ r, levelHold s i r = s := by
    intro r
    have hf : levelFadeEnd s i r = s := by
      unfold levelFadeEnd
      exact if_neg (by rw [h]; decide)
    unfold levelHold
    rw [hf]
    exact if_neg (by rw [h]; decide)
  unfold hold
  rw [if_neg (by simp [hs]), hlv, hlv]
  rfl

theorem resume_plain (s : State) (i : Nat) (hs : chanState s i = chHELD) (hb : badCfg s i = false) : resume s i = (0, setChanState (startAudio s i) i chACTIVE) := by
  unfold resume
  rw [if_neg (by simp [hs]), if_neg (by simp [hb])]

theorem stop_says (s : State) (i : Nat) : stop s i =
    if chanState s i = chARMED ∨ chanState s i = chACTIVE ∨ chanState s i = chHELD then (0, setChanState s i chALLOCATED) else (1, s) := by
  unfold stop
  simp only [Bool.or_eq_true, beq_iff_eq, or_assoc]

theorem rewind_bad (s : State) (i r : Nat) (h : (markEver s i = false ∧ r = 3) ∨ (markEver s i = true ∧ bitOf (mw s i 0x418) 31 = false ∧ r = 4) ∨
    (markEver s i = true ∧ bitOf (mw s i 0x418) 31 = true ∧ bitOf (mw s i 0x41C) 31 = true ∧ r = 6)) : rewind s i = (r, s) := by
  unfold rewind
  rcases h with ⟨h1, rfl⟩ | ⟨h1, h2, rfl⟩ | ⟨h1, h2, h3, rfl⟩
  · rw [if_pos (by rw [h1]; rfl)]
  · rw [if_neg (by rw [h1]; decide), if_pos (by rw [h2]; rfl)]
  · rw [if_neg (by rw [h1]; decide), if_neg (by rw [h2]; decide), if_pos h3]

theorem rewind_ok (s : State) (i : Nat) (h1 : markEver s i = true) (h2 : bitOf (mw s i 0x418) 31 = true) (h3 : bitOf (mw s i 0x41C) 31 = false) :
    rewind s i = (0, setW (setW s i 0x604 (rewSpan s i)) i 0x41C (2 ^ 31)) := by
  unfold rewind
  rw [if_neg (by rw [h1]; decide), if_neg (by rw [h2]; decide), if_neg (by rw [h3]; decide)]

theorem clears_words (s : State) (i : Nat) (l : List Nat) (hl : ∀ o ∈ l, o % 4 = 0) :
    (∀ o ∈ l, mw (s.over l fun s off => setW s i off 0) i o = 0) ∧ OnlyWords s (s.over l fun s off => setW s i off 0) i l := by
  constructor
  · intro o ho
    refine over_gets (fun u => mw u i o = 0) _ _ _ o ho (fun u x hu => ?_) (fun u => by rw [mw_setW_same, Nat.zero_mod])
    by_cases hx : x = o
    · subst hx; rw [mw_setW_same, Nat.zero_mod]
    · by_cases h4 : x % 4 = 0
      · rw [mw_setW_other _ _ _ _ _ hx h4 (hl o ho)]; exact hu
      · -- an unaligned word never comes; its four bytes are zero either way
        have : ∀ k, k < 4 → (setW u i x 0).byte (frameAddr i + o + k) = 0#8 := by
          intro k hk
          rw [setW_byte, State.byte_writeLE]
          split
          · rw [Nat.zero_div]
          · have hz : ∀ b : List Byte, ofLE b = 0 → ∀ y ∈ b, y = 0#8 := by
              intro b
              induction b with
              | nil => exact fun _ y hy => absurd hy (by simp)
              | cons a r ih =>
                intro h y hy
                have h' : a.toNat + 256 * ofLE r = 0 := h
                rcases List.mem_cons.mp hy with rfl | hy
                · apply BitVec.eq_of_toNat_eq; show _ = 0; omega
                · exact ih (by omega) y hy
            refine hz _ (show ofLE (u.readBytes (frameAddr i + o) 4) = 0 from hu) _ ?_
            unfold State.readBytes
            exact List.mem_map.mpr ⟨k, by simp [hk], rfl⟩
        unfold mw State.readLE State.readBytes
        have he : (List.range 4).map (fun k => (setW u i x 0).byte (frameAddr i + o + k)) = (List.range 4).map fun _ => 0#8 :=
          List.map_congr_left fun k hk => this k (List.mem_range.mp hk)
        rw [he]; rfl
  · exact onlyWords_over (onlyWords_refl _ _ _) _ _ fun u x hx => onlyWords_mono (setW_only u i x 0) fun o ho => by
      simp only [List.mem_cons, List.not_mem_nil, or_false] at ho; rw [ho]; exact hx

theorem rewSpan_lt (s : State) (i : Nat) : rewSpan s i < 2 ^ 32 := by
  unfold rewSpan
  have : bits (mw s i 0x044) 14 0 < 2 ^ 15 := bits_lt _ _ _
  exact Nat.lt_of_le_of_lt (Nat.min_le_right _ _) (Nat.lt_trans this (by decide))

theorem codecChange_same (s : State) (i : Nat) (l : Bool) (h : codErr s i l = 0) (hk : codKey (codWord s i l) = codKey (mw s i (codInForce l))) :
    codecChange s i l = setF s i (stsCod l) 11 8 0 := by
  unfold codecChange
  rw [h]
  dsimp only
  rw [if_neg (by decide), if_neg (by rw [hk]; simp)]

theorem codecChange_new (s : State) (i : Nat) (l : Bool) (h : codErr s i l = 0) (hk : codKey (codWord s i l) ≠ codKey (mw s i (codInForce l))) :
    codecChange s i l = codecForce s i l := by
  unfold codecChange
  rw [h]
  dsimp only
  rw [if_neg (by decide), if_pos (by simpa using hk)]

theorem codErr_congr {s u : State} {i : Nat} {offs : List Nat} (h : OnlyWords s u i offs) (ho : ∀ o ∈ offs, o % 4 = 0 ∧ 0x400 ≤ o) (l : Bool) : codErr u i l = codErr s i l := by
  have hm : ∀ off, off % 4 = 0 → off < 0x400 → mw u i off = mw s i off := fun off h4 hlt => onlyWords_mw h (fun o ho' => (ho o ho').1) off h4 fun hin => by
    have := (ho off hin).2; omega
  have e1 : jobPset u i = jobPset s i := by
    unfold jobPset rbank
    rw [onlyWords_rd h _ _ (by decide) (by decide), onlyWords_rd h _ _ (by decide) (by decide)]
  have w1 : chanWB u i = chanWB s i := by unfold chanWB; rw [hm _ (by decide) (by decide)]
  have w3 : chanPkt u i = chanPkt s i := by unfold chanPkt; rw [hm _ (by decide) (by decide)]
  have w4 : chanLine u i = chanLine s i := by unfold chanLine; rw [hm _ (by decide) (by decide)]
  have w7 : ∀ l, codWord u i l = codWord s i l := by intro l; unfold codWord; cases l <;> exact hm _ (by decide) (by decide)
  have w8 : ∀ l, ptimeOf u i l = ptimeOf s i l := by
    intro l; unfold ptimeOf; cases l
    · have := hm 0x010 (by decide) (by decide); simp only [Bool.false_eq_true, if_false, this]
    · have := hm 0x020 (by decide) (by decide); simp only [if_true, this]
  have w9 : ecEn u i = ecEn s i := by unfold ecEn; rw [hm _ (by decide) (by decide), w4]
  have w10 : ecDense u i = ecDense s i := by unfold ecDense; rw [hm _ (by decide) (by decide)]
  have w11 : faxMode u i = faxMode s i := by unfold faxMode; rw [hm _ (by decide) (by decide)]
  have p1 : pagesP u i = pagesP s i := by unfold pagesP; rw [w3, w4, w7]
  have p2 : pagesL u i = pagesL s i := by unfold pagesL; rw [w4, w7]
  have p3 : pagesEc u i = pagesEc s i := by unfold pagesEc; rw [w9, w1]
  have p4 : pagesFax u i = pagesFax s i := by unfold pagesFax; rw [w11, w1]
  have p5 : pagesNeeded u i = pagesNeeded s i := by unfold pagesNeeded; rw [p1, p2, p3, p4, w9, w10]
  have p6 : ∀ m, pagesIn u i m = pagesIn s i m := by intro m; unfold pagesIn; rw [e1]
  have p7 : ∀ l, ptimeBad u i l = ptimeBad s i l := by intro l; unfold ptimeBad; rw [w7, w8]
  have p8 : ∀ l, legBound u i l = legBound s i l := by intro l; unfold legBound; rw [w3, w4]
  unfold codErr
  rw [p8, w7, w1, p7, p6, p6, p1, p2, w9, w7, w11, w4, p4, p5, hm 0x110 (by decide) (by decide), hm 0x080 (by decide) (by decide)]

end Sys2Proof.Machine
end

