-- ==== Sys2Proof/Laws/CaseQue.lean ====
section
/-! SUPPORT.  Hardware queues and interrupt claims. -/

namespace Sys2Proof.Machine

open Safety

theorem queue_set_same (s : State) (n : Nat) (y : Queue) : (s.setQueue n y).queue n = y := Tbl.get_put_same _ _ _ _

theorem queue_set_frame (s : State) (n : Nat) (y : Queue) : (s.setQueue n y).queue n = y ∧ (∀ r, r ≠ n → (s.setQueue n y).queue r = s.queue r) ∧
    s.setQueue n y = { s with queues := (s.setQueue n y).queues } :=
  ⟨Tbl.get_put_same _ _ _ _, fun _ h => Tbl.get_put_ne _ _ (Ne.symm h) _ _, rfl⟩

theorem prod_split (x : Queue) : x.prod = x.complete ++ x.partialWords := by
  unfold Queue.complete Queue.partialWords
  rw [← List.reverse_append, List.takeWhile_append_dropWhile, List.reverse_reverse]

theorem partial_open (x : Queue) : ∀ w ∈ x.partialWords, w.last = false := by
  intro w hw
  unfold Queue.partialWords at hw
  rw [List.mem_reverse] at hw
  have := List.all_takeWhile (p := fun w : QWord => !w.last) (l := x.prod.reverse)
  rw [List.all_eq_true] at this
  simpa using this w hw

theorem complete_ends (x : Queue) (h : x.complete ≠ []) : x.complete.getLast?.map (·.last) = some true := by
  unfold Queue.complete at *
  rw [List.getLast?_reverse]
  cases hd : x.prod.reverse.dropWhile (!·.last) with
  | nil => rw [hd] at h; exact absurd rfl h
  | cons a r =>
    have := List.head?_dropWhile_not (fun w : QWord => !w.last) x.prod.reverse
    rw [hd] at this
    simpa using this

/-- The choice of a fold is in the list and has the lowest PRIO of it. -/
theorem best_of (p : Nat → Nat) (l : List Nat) (m : Option Nat) :
    let r := l.foldl (fun m k => match m with | none => some k | some j => if p k < p j then some k else some j) m
    (r = none → m = none ∧ l = []) ∧ ∀ k, r = some k → (m = some k ∨ k ∈ l) ∧ (∀ j ∈ l, p k ≤ p j) ∧ ∀ j, m = some j → p k ≤ p j := by
  induction l generalizing m with
  | nil => intro r; exact ⟨fun h => ⟨h, rfl⟩, fun k h => ⟨.inl h, by simp, fun j hj => by
      have hm : m = some k := h
      rw [hm] at hj; cases hj; exact Nat.le_refl _⟩⟩
  | cons a l ih =>
    intro r
    cases m with
    | none =>
      have h := ih (some a)
      refine ⟨fun hr => absurd (h.1 hr).1 (by simp), fun k hk => ?_⟩
      obtain ⟨h1, h2, h3⟩ := h.2 k hk
      refine ⟨.inr ?_, ?_, by simp⟩
      · rcases h1 with h1 | h1
        · cases h1; simp
        · simp [h1]
      · intro j hj
        rcases List.mem_cons.mp hj with rfl | hj
        · exact h3 _ rfl
        · exact h2 j hj
    | some b =>
      by_cases e : p a < p b
      · have h := ih (some a)
        have hr : r = l.foldl (fun m k => match m with | none => some k | some j => if p k < p j then some k else some j) (some a) := by
          show List.foldl _ (if p a < p b then some a else some b) l = _
          rw [if_pos e]
        rw [hr]
        refine ⟨fun hr => absurd (h.1 hr).1 (by simp), fun k hk => ?_⟩
        obtain ⟨h1, h2, h3⟩ := h.2 k hk
        have h4 := h3 a rfl
        refine ⟨.inr ?_, ?_, ?_⟩
        · rcases h1 with h1 | h1
          · cases h1; simp
          · simp [h1]
        · intro j hj
          rcases List.mem_cons.mp hj with rfl | hj
          · exact h4
          · exact h2 j hj
        · intro j hj; cases hj; omega
      · have h := ih (some b)
        have hr : r = l.foldl (fun m k => match m with | none => some k | some j => if p k < p j then some k else some j) (some b) := by
          show List.foldl _ (if p a < p b then some a else some b) l = _
          rw [if_neg e]
        rw [hr]
        refine ⟨fun hr => absurd (h.1 hr).1 (by simp), fun k hk => ?_⟩
        obtain ⟨h1, h2, h3⟩ := h.2 k hk
        have h4 := h3 b rfl
        refine ⟨?_, ?_, h3⟩
        · rcases h1 with h1 | h1
          · exact .inl h1
          · exact .inr (by simp [h1])
        · intro j hj
          rcases List.mem_cons.mp hj with rfl | hj
          · omega
          · exact h2 j hj

theorem sicBest_none {s : State} {n : Nat} (h : sicLine s n = false) : sicBest s n = none := by
  unfold sicBest
  have : (sicEnabled s).filter (sicQualifies s n) = [] := by
    unfold sicLine at h
    rw [List.filter_eq_nil_iff]
    intro a ha
    rw [List.any_eq_false] at h
    exact h a ha
  rw [this]; rfl

theorem sicBest_some {s : State} {n : Nat} (h : sicLine s n = true) : ∃ k, sicBest s n = some k ∧ sicQualifies s n k = true ∧
    ∀ i ∈ sicEnabled s, sicQualifies s n i = true → s.rd F.SIC_SRC_CFG_PRIO k ≤ s.rd F.SIC_SRC_CFG_PRIO i := by
  have hb := best_of (s.rd F.SIC_SRC_CFG_PRIO ·) ((sicEnabled s).filter (sicQualifies s n)) none
  change (sicBest s n = none → _) ∧ ∀ k, sicBest s n = some k → _ at hb
  cases e : sicBest s n with
  | none =>
    have := (hb.1 e).2
    unfold sicLine at h
    rw [List.any_eq_true] at h
    obtain ⟨x, hx, hq⟩ := h
    have : x ∈ (sicEnabled s).filter (sicQualifies s n) := List.mem_filter.mpr ⟨hx, hq⟩
    simp_all
  | some k =>
    obtain ⟨h1, h2, -⟩ := hb.2 k e
    refine ⟨k, rfl, ?_, fun i hi hq => h2 i (List.mem_filter.mpr ⟨hi, hq⟩)⟩
    rcases h1 with h1 | h1
    · cases h1
    · exact (List.mem_filter.mp h1).2

end Sys2Proof.Machine
end

