-- ==== Sys2Proof/Laws/CaseSeq.lean ====
section
/-! SUPPORT.  The boot sequence, images and fuses: what the shared operations leave. -/

namespace Sys2Proof.Machine

open Safety

/-- A cell filled in rising order. -/
theorem fill_rd (f : Fld) (v : Nat → Nat) (n : Nat) (s : State) (j : Nat) :
    ((List.range n).foldl (fun t w => t.wr f w (v w)) s).rd f j = if j < n then v j % 2 ^ f.w else s.rd f j := by
  induction n with
  | zero => rfl
  | succ n ih =>
    rw [List.range_succ, List.foldl_append]
    simp only [List.foldl_cons, List.foldl_nil, State.rd_wr, ih]
    by_cases h : n = j
    · subst h; simp
    · rw [if_neg h]
      by_cases h2 : j < n
      · rw [if_pos h2, if_pos (by omega)]
      · rw [if_neg h2, if_neg (by omega)]

theorem fill_other (f : Fld) (v : Nat → Nat) (n : Nat) (s : State) (g : Fld) (j : Nat) (h : f.id ≠ g.id) :
    ((List.range n).foldl (fun t w => t.wr f w (v w)) s).rd g j = s.rd g j :=
  State.over_rd s (List.range n) (fun t w => t.wr f w (v w)) g j fun _ _ => State.rd_wr_cell _ _ _ _ _ _ h

theorem loadShadows_says (s : State) (h : s.partialFuses = []) : let t := loadShadows s
    (∀ w, w < 128 → t.rd F.FUS_SHADOW_WORD w = s.rd I.fuseArray w) ∧ SameButCells s t ∧ SameOtherCells s t [F.FUS_SHADOW_WORD] := by
  have hw : ∀ w, readFuseWord s w = s.rd I.fuseArray w := by intro w; unfold readFuseWord; rw [h]; rfl
  have ht : loadShadows s = (List.range 128).foldl (fun t w => t.wr F.FUS_SHADOW_WORD w (s.rd I.fuseArray w)) s := by
    unfold loadShadows
    simp only [hw, h, List.length_nil, Nat.add_zero]
    have hb : SameButCells s ((List.range 128).foldl (fun t w => t.wr F.FUS_SHADOW_WORD w (s.rd I.fuseArray w)) s) :=
      SameButCells.over (SameButCells.refl s) (List.range 128) (fun t w => t.wr F.FUS_SHADOW_WORD w (s.rd I.fuseArray w)) fun u _ => SameButCells.wr (SameButCells.refl u)
    generalize (List.range 128).foldl (fun t w => t.wr F.FUS_SHADOW_WORD w (s.rd I.fuseArray w)) s = u at *
    unfold SameButCells at hb
    conv => rhs; rw [hb]
    conv => lhs; rw [hb]
  dsimp only
  rw [ht]
  refine ⟨fun w hw => ?_, ?_, ?_⟩
  · rw [fill_rd, if_pos hw]
    exact Nat.mod_eq_of_lt (State.rd_lt s I.fuseArray w)
  · exact SameButCells.over (SameButCells.refl s) (List.range 128) (fun t w => t.wr F.FUS_SHADOW_WORD w (s.rd I.fuseArray w)) fun u _ => SameButCells.wr (SameButCells.refl u)
  · intro g j hg
    exact fill_other _ _ _ _ _ _ (hg _ (by simp))

theorem loadProtection_says (s : State) (ok : Bool) : loadProtection s ok =
    let g := fun w => if ok then shadow s w else 0
    puts s [(F.FUS_PMHOST_RIGHTS, 0, g 51), (F.FUS_PMDBG_RIGHTS, 0, g 52), (F.FUS_PMSGC_RIGHTS, 0, g 53), (F.FUS_PMCWY_RIGHTS, 0, g 54),
      (F.FUS_PMBAR2_HI, 0, g 55 / 2 ^ 16), (F.FUS_PMBAR2_LO, 0, g 55), (F.FUS_PMMISC_RMBOX, 0, bitN (g 56) 2),
      (F.FUS_PMMISC_RMLS, 0, bitN (g 56) 1), (F.FUS_PMMISC_RFENCE, 0, bitN (g 56) 0)] := rfl

/-- The cells of a step of the power sequence. -/
theorem loadSeqStep_only (s : State) (n : Nat) : SameButCells s (loadSeqStep s n) ∧ SameOtherCells s (loadSeqStep s n)
    [F.PMU_SEQSTEP_VALID, F.PMU_SEQSTEP_WATCHOFF, F.PMU_SEQSTEP_WAITPG, F.PMU_SEQSTEP_PEN, F.PMU_SEQSTEP_DELAY] := by
  unfold loadSeqStep
  exact ⟨.wr (.wr (.wr (.wr (.wr (.refl _))))),
    .wr (.wr (.wr (.wr (.wr (.refl _ _) (by simp)) (by simp)) (by simp)) (by simp)) (by simp)⟩

theorem loadFuseDefaults_says (s : State) : let t := loadFuseDefaults s
    t.rd F.PMU_THERMCFG_CRIT = bits (shadow s 68) 23 16 ∧ t.rd F.PMU_THERMCFG_THROT = bits (shadow s 68) 15 8 ∧
      t.rd F.PMU_THERMCFG_WARN = bits (shadow s 68) 7 0 ∧ t.rd F.SYS_SERIAL_LO_SERIAL = shadow s 124 ∧
      t.rd F.SYS_SERIAL_HI_SERIAL = shadow s 125 ∧ SameButCells s t ∧ SameOtherCells s t
        [F.PMU_SEQSTEP_VALID, F.PMU_SEQSTEP_WATCHOFF, F.PMU_SEQSTEP_WAITPG, F.PMU_SEQSTEP_PEN, F.PMU_SEQSTEP_DELAY,
         F.PMU_AVSCFG_EN, F.PMU_AVSCFG_ADDR, F.PMU_AVSCFG_MARGIN, F.PMU_THERMCFG_CRIT, F.PMU_THERMCFG_THROT,
         F.PMU_THERMCFG_WARN, F.SYS_ID_GRADE, F.SYS_SERIAL_LO_SERIAL, F.SYS_SERIAL_HI_SERIAL] := by
  have hb : SameButCells s (s.over (List.range 8) loadSeqStep) := SameButCells.over (.refl s) _ _ fun u k => (loadSeqStep_only u k).1
  have ho : SameOtherCells s (s.over (List.range 8) loadSeqStep) _ := SameOtherCells.over (.refl s _) (List.range 8) loadSeqStep fun u k => (loadSeqStep_only u k).2
  have hsh : ∀ w, shadow (s.over (List.range 8) loadSeqStep) w = shadow s w := fun w => ho _ _ (by decide)
  have he : loadFuseDefaults s = puts (s.over (List.range 8) loadSeqStep)
      [(F.PMU_AVSCFG_EN, 0, bitN (shadow s 67) 15), (F.PMU_AVSCFG_ADDR, 0, bits (shadow s 67) 14 8), (F.PMU_AVSCFG_MARGIN, 0, bits (shadow s 67) 7 0),
       (F.PMU_THERMCFG_CRIT, 0, bits (shadow s 68) 23 16), (F.PMU_THERMCFG_THROT, 0, bits (shadow s 68) 15 8), (F.PMU_THERMCFG_WARN, 0, bits (shadow s 68) 7 0),
       (F.SYS_ID_GRADE, 0, bitN (shadow s 48) 7), (F.SYS_SERIAL_LO_SERIAL, 0, shadow s 124), (F.SYS_SERIAL_HI_SERIAL, 0, shadow s 125)] := by
    unfold loadFuseDefaults
    dsimp only
    have h0 : (List.range 8).foldl loadSeqStep s = s.over (List.range 8) loadSeqStep := rfl
    rw [h0]
    generalize s.over (List.range 8) loadSeqStep = u at *
    have a1 : ∀ (u : State) (g : Fld) (x : Nat) w, F.FUS_SHADOW_WORD.id ≠ g.id → shadow (u.set g x) w = shadow u w :=
      fun u g x w hg => State.rd_wr_cell _ _ _ _ _ _ (Ne.symm hg)
    simp (disch := decide) only [a1, hsh]
    rfl
  dsimp only
  rw [he]
  generalize s.over (List.range 8) loadSeqStep = u at *
  refine ⟨?_, ?_, ?_, ?_, ?_, ?_, ?_⟩
  · simp only [puts_cons, puts_nil]; simp (disch := decide) only [State.rd_wr_cell, State.rd_wr_same]; exact Nat.mod_eq_of_lt (bits_lt _ _ _)
  · simp only [puts_cons, puts_nil]; simp (disch := decide) only [State.rd_wr_cell, State.rd_wr_same]; exact Nat.mod_eq_of_lt (bits_lt _ _ _)
  · simp only [puts_cons, puts_nil]; simp (disch := decide) only [State.rd_wr_cell, State.rd_wr_same]; exact Nat.mod_eq_of_lt (bits_lt _ _ _)
  · simp only [puts_cons, puts_nil]; simp (disch := decide) only [State.rd_wr_cell, State.rd_wr_same]; exact Nat.mod_eq_of_lt (State.rd_lt s F.FUS_SHADOW_WORD 124)
  · simp only [puts_cons, puts_nil]; simp (disch := decide) only [State.rd_wr_same]; exact Nat.mod_eq_of_lt (State.rd_lt s F.FUS_SHADOW_WORD 125)
  · exact hb.trans (SameButCells.puts _ _)
  · refine (ho.mono (by simp)).trans ?_
    simp only [puts_cons, puts_nil]
    exact .wr (.wr (.wr (.wr (.wr (.wr (.wr (.wr (.wr (.refl _ _) (by simp)) (by simp)) (by simp)) (by simp)) (by simp)) (by simp)) (by simp)) (by simp)) (by simp)

theorem seqFrom_next (s : State) (k : Nat) (hk : k < 8) (hv : s.rd F.PMU_SEQSTEP_VALID k = 1) :
    seqFrom s k = puts s [(I.seqIdx, 0, k), (I.seqWaitPg, 0, 0), (I.pinPen, s.rd F.PMU_SEQSTEP_PEN k, 2)] := by
  unfold seqFrom
  have : ((List.range 8).find? fun j => decide (k ≤ j) && s.on F.PMU_SEQSTEP_VALID j) = some k := by
    have hp : (decide (k ≤ k) && s.on F.PMU_SEQSTEP_VALID k) = true := by rw [State.on_eq, hv]; simp
    have : k = 0 ∨ k = 1 ∨ k = 2 ∨ k = 3 ∨ k = 4 ∨ k = 5 ∨ k = 6 ∨ k = 7 := by omega
    have e : List.range 8 = [0, 1, 2, 3, 4, 5, 6, 7] := rfl
    rw [e]
    rcases this with rfl | rfl | rfl | rfl | rfl | rfl | rfl | rfl <;> simp at hp <;> simp [List.find?_cons, hp]
  rw [this]
  rfl

theorem seqFrom_last (s : State) (k : Nat) (hk : 8 ≤ k) :
    seqFrom s k = romStart (puts s [(F.PMU_SEQCFG_DONE, 0, 1), (I.seqIdx, 0, 8), (I.seqWaitPg, 0, 0), (I.bootPh, 0, 5)]) := by
  unfold seqFrom
  have : ((List.range 8).find? fun j => decide (k ≤ j) && s.on F.PMU_SEQSTEP_VALID j) = none := by
    rw [List.find?_eq_none]
    intro x hx
    simp at hx
    simp; omega
  rw [this]; rfl

theorem resetBlock_rd (s : State) (blk : Nat) (g : Fld) (j : Nat) :
    (resetBlock s blk).rd g j = if g.id / 32 / 0x100000 = blk then State.reset.rd g j else s.rd g j := by
  unfold resetBlock State.rd
  dsimp only
  rw [Tbl.get_keep]
  by_cases h : g.id / 32 / 0x100000 = blk
  · rw [if_neg (by simp [h]), if_pos h]; rfl
  · rw [if_pos (by simp [h]), if_neg h]

/-- The start of the power sequence, its first step valid. -/
theorem seqStart_says (s : State) (hv : s.rd F.PMU_SEQSTEP_VALID 0 = 1) : let t := seqStart s
    t.rd F.PMU_SEQCFG_DONE = 0 ∧ t.rd F.PMU_SEQCFG_SEQFAIL = 0 ∧ t.rd I.bootPh = 4 ∧ t.rd I.seqIdx = 0 ∧
      t.rd I.pinPen (s.rd F.PMU_SEQSTEP_PEN 0) = 2 ∧ SameButCells s t ∧
      SameOtherCells s t [F.PMU_SEQCFG_DONE, F.PMU_SEQCFG_SEQFAIL, I.bootPh, I.pinPen, I.seqIdx, I.seqWaitPg] := by
  generalize ha : puts s [(F.PMU_SEQCFG_DONE, 0, 0), (F.PMU_SEQCFG_SEQFAIL, 0, 0), (I.bootPh, 0, 4)] = a
  generalize hb : a.over (List.range 8) (fun s k => if s.rd I.pinPen k = 0 then s.wr I.pinPen k 1 else s) = b
  have hs : seqStart s = seqFrom b 0 := by rw [← hb, ← ha]; rfl
  have hao : SameOtherCells s a [F.PMU_SEQCFG_DONE, F.PMU_SEQCFG_SEQFAIL, I.bootPh] := by
    rw [← ha]; simp only [puts_cons, puts_nil]; exact .wr (.wr (.wr (.refl _ _) (by simp)) (by simp)) (by simp)
  have hbo : SameOtherCells a b [I.pinPen] := by
    rw [← hb]
    refine SameOtherCells.over (.refl a _) _ _ fun u k => ?_
    split
    · exact .wr (.refl _ _) (by simp)
    · exact .refl _ _
  have hbb : SameButCells a b := by
    rw [← hb]
    refine SameButCells.over (.refl a) _ _ fun u k => ?_
    split
    · exact .wr (.refl _)
    · exact .refl _
  have hab : SameButCells s a := by rw [← ha]; exact SameButCells.puts _ _
  have h0 : ∀ g j, g.id ∉ [F.PMU_SEQCFG_DONE.id, F.PMU_SEQCFG_SEQFAIL.id, I.bootPh.id, I.pinPen.id] → b.rd g j = s.rd g j := by
    intro g j hg
    simp only [List.mem_cons, List.not_mem_nil, or_false, not_or] at hg
    rw [hbo g j (by simp only [List.mem_cons, List.not_mem_nil, or_false, forall_eq]; exact Ne.symm hg.2.2.2), hao g j ?_]
    simp only [List.mem_cons, List.not_mem_nil, or_false, forall_eq_or_imp, forall_eq]
    exact ⟨Ne.symm hg.1, Ne.symm hg.2.1, Ne.symm hg.2.2.1⟩
  have hf := seqFrom_next b 0 (by decide) ((h0 _ _ (by decide)).trans hv)
  rw [h0 F.PMU_SEQSTEP_PEN 0 (by decide)] at hf
  dsimp only
  rw [hs, hf]
  have hb1 : b.rd F.PMU_SEQCFG_DONE = 0 := by
    rw [hbo _ _ (by decide), ← ha]; simp only [puts_cons, puts_nil]; simp (disch := decide) only [State.rd_wr_cell, State.rd_wr_same]; rfl
  have hb2 : b.rd F.PMU_SEQCFG_SEQFAIL = 0 := by
    rw [hbo _ _ (by decide), ← ha]; simp only [puts_cons, puts_nil]; simp (disch := decide) only [State.rd_wr_cell, State.rd_wr_same]; rfl
  have hb3 : b.rd I.bootPh = 4 := by
    rw [hbo _ _ (by decide), ← ha]; simp only [puts_cons, puts_nil]; simp (disch := decide) only [State.rd_wr_same]; rfl
  refine ⟨?_, ?_, ?_, ?_, ?_, hab.trans (hbb.trans (SameButCells.puts _ _)), (hao.mono (by simp)).trans ((hbo.mono (by simp)).trans ?_)⟩
  · rw [puts_cell _ _ _ _ (by simp; decide)]; exact hb1
  · rw [puts_cell _ _ _ _ (by simp; decide)]; exact hb2
  · rw [puts_cell _ _ _ _ (by simp; decide)]; exact hb3
  · simp only [puts_cons, puts_nil]; simp (disch := decide) only [State.rd_wr_cell, State.rd_wr_same]; rfl
  · simp only [puts_cons, puts_nil]; simp (disch := decide) only [State.rd_wr_same]; rfl
  · simp only [puts_cons, puts_nil]; exact .wr (.wr (.wr (.refl _ _) (by simp)) (by simp)) (by simp)

theorem headerFault_congr (s u : State) (h : List Byte) (hs : ∀ w, shadow u w = shadow s w) : headerFault u h = headerFault s h := by
  unfold headerFault slotUsable keySlot rollbackCount
  simp only [hs]

/-- A write of FUS_PROG that asks for a burn. -/
theorem fusProg_reads (s : State) (v : Word) (hf : s.fabric = true) (hb : s.rd F.FUS_STAT_BUSY = 0) (hg : bitOf v.toNat 31 = true) :
    let u := puts s [(F.FUS_STAT_VFUSEOK, 0, 1), (F.FUS_PROG_WORD, 0, bits v.toNat 22 16), (F.FUS_PROG_BIT, 0, bits v.toNat 4 0)]
    (∀ n, execFusProg (.svc n) true v s = .next (if (fromSupervisor u (.svc n) && true && (s.mode == mBOOT || s.mode == mSERVICE) &&
        !revokesLast u (bits v.toNat 22 16) (bits v.toNat 4 0)) = true then
      ((u.set F.FUS_STAT_BUSY 1).set F.FUS_PROG_GO 1).set I.fuseBurn (u.rd F.FUS_PROG_WORD * 32 + u.rd F.FUS_PROG_BIT + 1)
      else u.set F.FUS_STAT_PROGERR 1)) ∧
    u = u ∧ u.rd F.FUS_PROG_WORD = bits v.toNat 22 16 ∧ u.rd F.FUS_PROG_BIT = bits v.toNat 4 0 ∧ (∀ i, fromSupervisor u i = fromSupervisor s i) ∧ u.mode = s.mode := by
  intro u
  have hr : ∀ g, g.id ∉ [F.FUS_STAT_VFUSEOK.id, F.FUS_PROG_WORD.id, F.FUS_PROG_BIT.id] → ∀ j, u.rd g j = s.rd g j :=
    fun g hg j => puts_cell _ _ _ _ (by
      intro p hp he
      simp only [List.mem_cons, List.not_mem_nil, or_false] at hp
      apply hg
      rw [← he]
      rcases hp with rfl | rfl | rfl <;> dsimp only <;> decide)
  have hw : u.rd F.FUS_PROG_WORD = bits v.toNat 22 16 := by
    simp only [u, puts_cons, puts_nil]; simp (disch := decide) only [State.rd_wr_cell, State.rd_wr_same]; exact Nat.mod_eq_of_lt (bits_lt _ _ _)
  have hbt : u.rd F.FUS_PROG_BIT = bits v.toNat 4 0 := by
    simp only [u, puts_cons, puts_nil]; simp (disch := decide) only [State.rd_wr_same]; exact Nat.mod_eq_of_lt (bits_lt _ _ _)
  have hsu : ∀ i, fromSupervisor u i = fromSupervisor s i := by
    intro i; unfold fromSupervisor; split
    · rw [hr _ (by decide)]
    · rfl
  have hmode : u.mode = s.mode := hr _ (by decide) _
  refine ⟨fun n => ?_, rfl, hw, hbt, hsu, hmode⟩
  unfold execFusProg
  rw [if_pos hf]
  unfold fusProgWrite
  have hu : (((s.set F.FUS_STAT_VFUSEOK (b2n true)).set F.FUS_PROG_WORD (bits v.toNat 22 16)).set F.FUS_PROG_BIT (bits v.toNat 4 0)) = u := rfl
  dsimp only
  rw [hu]
  clear_value u
  rw [if_neg (by rw [hg, State.on_eq, hr _ (by decide), hb]; decide), hw, hbt, hmode]

theorem down_quiet (s : State) (h1 : ∀ p, p < 8 → s.rd F.PKE_P_STAT_UP p = 0) (h2 : ∀ l, l < 14 → s.rd F.CWY_L_STAT_STATE l = 0) :
    fenceInterfaces s = { s with egress := [] } := by
  unfold fenceInterfaces
  have hx : ∀ (u : State), (∀ p, p < 8 → u.rd F.PKE_P_STAT_UP p = 0) → ∀ n, n ≤ 8 → (List.range n).foldl portDown u = u := by
    intro u hu n
    induction n with
    | zero => intro _; rfl
    | succ n ih =>
      intro hn
      rw [List.range_succ, List.foldl_append, ih (by omega)]
      show portDown u n = u
      unfold portDown; rw [if_neg (by rw [State.on_eq, hu n (by omega)]; decide)]
  have hy : ∀ (u : State), (∀ l, l < 14 → u.rd F.CWY_L_STAT_STATE l = 0) → ∀ n, n ≤ 14 → (List.range n).foldl cwDown u = u := by
    intro u hu n
    induction n with
    | zero => intro _; rfl
    | succ n ih =>
      intro hn
      rw [List.range_succ, List.foldl_append, ih (by omega)]
      show cwDown u n = u
      unfold cwDown; rw [if_pos (hu n (by omega))]
  dsimp only
  rw [hx { s with egress := [] } h1 8 (by omega), hy { s with egress := [] } h2 14 (by omega)]

theorem fatalError_quiet (s : State) (cause : Nat) (hm : s.mode ≠ mRESET ∧ s.mode ≠ mFENCED) (h0 : bitOf (s.rd F.MLS_ERRSEL_SEL) 6 = false)
    (h1 : ∀ p, p < 8 → s.rd F.PKE_P_STAT_UP p = 0) (h2 : ∀ l, l < 14 → s.rd F.CWY_L_STAT_STATE l = 0) :
    fatalError s cause = { puts s ([(F.PMU_MODE_CURRENT, 0, mFENCED), (F.PMU_MODE_CAUSE, 0, cause), (F.PMU_IRQSTAT_MODEDONE, 0, 1), (I.fencePend, 0, 0),
        (I.watchEntry, 0, 0), (I.wakePend, 0, 0), (I.bootPh, 0, 0)] ++ (List.range 8).map fun k => (I.pinPen, k, 0)) with egress := [] } := by
  have hev : s.errEvent 6 = s := by unfold State.errEvent; rw [h0]; rfl
  unfold fatalError
  have e1 : (s.mode == mRESET) = false := by simpa using hm.1
  have e2 : (s.mode == mFENCED) = false := by simpa using hm.2
  rw [e1, h0, if_neg (by decide), if_neg (by simp), hev]
  unfold enterFenced
  rw [e1, e2, if_neg (by decide), if_neg (by decide)]
  have hc : ∀ g, (∀ p ∈ ([(F.PMU_MODE_CURRENT, 0, mFENCED), (F.PMU_MODE_CAUSE, 0, cause), (F.PMU_IRQSTAT_MODEDONE, 0, 1), (I.fencePend, 0, 0),
        (I.watchEntry, 0, 0), (I.wakePend, 0, 0), (I.bootPh, 0, 0)] ++ (List.range 8).map fun k => (I.pinPen, k, 0)), p.1.id ≠ g.id) → ∀ j,
      (puts s ([(F.PMU_MODE_CURRENT, 0, mFENCED), (F.PMU_MODE_CAUSE, 0, cause), (F.PMU_IRQSTAT_MODEDONE, 0, 1), (I.fencePend, 0, 0),
        (I.watchEntry, 0, 0), (I.wakePend, 0, 0), (I.bootPh, 0, 0)] ++ (List.range 8).map fun k => (I.pinPen, k, 0))).rd g j = s.rd g j := fun g hg j => puts_cell _ _ _ _ hg
  rw [← down_quiet]
  · rfl
  · intro p hp
    rw [hc _ (by
      intro q hq
      simp only [List.mem_append, List.mem_cons, List.not_mem_nil, or_false, List.mem_map] at hq
      rcases hq with (rfl | rfl | rfl | rfl | rfl | rfl | rfl) | ⟨k, -, rfl⟩ <;> dsimp only <;> decide)]
    exact h1 p hp
  · intro p hp
    rw [hc _ (by
      intro q hq
      simp only [List.mem_append, List.mem_cons, List.not_mem_nil, or_false, List.mem_map] at hq
      rcases hq with (rfl | rfl | rfl | rfl | rfl | rfl | rfl) | ⟨k, -, rfl⟩ <;> dsimp only <;> decide)]
    exact h2 p hp

end Sys2Proof.Machine
end

