-- ==== Sys2Proof/Laws/CaseSignal.lean ====
section
/-! SUPPORT.  Lemmas about the words of a channel that signals change: the canceller, generation, events. -/

namespace Sys2Proof.Machine

open Safety

theorem putField_split (v hi lo x : Nat) (h2 : lo ≤ hi) : putField v hi lo x = v / 2 ^ (hi + 1) * 2 ^ (hi + 1) + (x % 2 ^ (hi + 1 - lo) * 2 ^ lo + v % 2 ^ lo) := by
  unfold putField bits
  have e1 : 2 ^ (hi + 1) = 2 ^ lo * 2 ^ (hi + 1 - lo) := by rw [← Nat.pow_add]; congr 1; omega
  have e2 : v = v / 2 ^ (hi + 1) * 2 ^ (hi + 1) + (v / 2 ^ lo % 2 ^ (hi + 1 - lo) * 2 ^ lo + v % 2 ^ lo) := by
    have q1 := Nat.div_add_mod v (2 ^ lo)
    have q2 := Nat.div_add_mod (v / 2 ^ lo) (2 ^ (hi + 1 - lo))
    have q3 : v / 2 ^ (hi + 1) = v / 2 ^ lo / 2 ^ (hi + 1 - lo) := by rw [e1, Nat.div_div_eq_div_mul]
    rw [q3, e1]
    generalize v % 2 ^ lo = z at *
    generalize v / 2 ^ lo = q at *
    generalize q / 2 ^ (hi + 1 - lo) = q' at *
    generalize q % 2 ^ (hi + 1 - lo) = r at *
    rw [← q2, Nat.mul_add] at q1
    rw [← q1]
    ac_rfl
  omega

theorem bitOf_putField_high {v hi lo x k : Nat} (h2 : lo ≤ hi) (hk : hi < k) : bitOf (putField v hi lo x) k = bitOf v k := by
  have e1 : 2 ^ (hi + 1) = 2 ^ lo * 2 ^ (hi + 1 - lo) := by rw [← Nat.pow_add]; congr 1; omega
  have hx : x % 2 ^ (hi + 1 - lo) < 2 ^ (hi + 1 - lo) := Nat.mod_lt _ (Nat.two_pow_pos _)
  have hx2 : x % 2 ^ (hi + 1 - lo) * 2 ^ lo + v % 2 ^ lo < 2 ^ (hi + 1) := by
    rw [e1]
    have m1 := Nat.mod_lt v (Nat.two_pow_pos lo)
    calc x % 2 ^ (hi + 1 - lo) * 2 ^ lo + v % 2 ^ lo < x % 2 ^ (hi + 1 - lo) * 2 ^ lo + 2 ^ lo := by omega
      _ = (x % 2 ^ (hi + 1 - lo) + 1) * 2 ^ lo := by rw [Nat.add_mul, Nat.one_mul]
      _ ≤ 2 ^ (hi + 1 - lo) * 2 ^ lo := Nat.mul_le_mul_right _ hx
      _ = 2 ^ lo * 2 ^ (hi + 1 - lo) := Nat.mul_comm _ _
  have hd : putField v hi lo x / 2 ^ (hi + 1) = v / 2 ^ (hi + 1) := by
    rw [putField_split v hi lo x h2, Nat.add_comm, Nat.add_mul_div_right _ _ (Nat.two_pow_pos _), Nat.div_eq_of_lt hx2, Nat.zero_add]
  have hk2 : 2 ^ k = 2 ^ (hi + 1) * 2 ^ (k - (hi + 1)) := by rw [← Nat.pow_add]; congr 1; omega
  unfold bitOf
  rw [hk2, ← Nat.div_div_eq_div_mul, ← Nat.div_div_eq_div_mul, hd]

theorem stsCount_room (s : State) (i off : Nat) (h : mw s i off + 2 < 2 ^ 32) : stsCount s i off 1 = setW s i off (mw s i off + 1) := by
  unfold stsCount
  dsimp only
  have e : min (mw s i off + 1) (2 ^ 32 - 1) = mw s i off + 1 := by omega
  rw [e, if_neg (by simp; omega), if_neg (by omega)]

theorem ecClear_dense (s : State) (i : Nat) (h : denseAct s i = true) : let t := ecClear s i
    mw t i 0x480 = putField (putField (putField (mw s i 0x480) 20 20 0) 25 25 0) 24 24 0 ∧ mw t i 0x640 = 0 ∧ mw t i 0x644 = 0 ∧ mw t i 0x648 = 0 ∧
    OnlyWords s t i [0x480, 0x640, 0x644, 0x648] := by
  have hx : ecClear s i = setW (setW (setF (setF (setF (setF s i 0x480 20 20 0) i 0x640 31 0 0) i 0x480 25 25 0) i 0x480 24 24 0) i 0x644 0) i 0x648 0 := by
    unfold ecClear
    dsimp only
    refine if_pos ?_
    unfold noProbation
    simp only [Bool.false_eq_true, if_false]
    unfold denseAct at *
    rw [mw_setW_other _ _ _ _ _ (by decide) (by decide) (by decide), mw_setW_other _ _ _ _ _ (by decide) (by decide) (by decide), mw_setF_same _ _ _ _ _ _ (by decide) (by decide),
      mw_setF_same _ _ _ _ _ _ (by decide) (by decide), mw_setF_other _ _ _ _ _ _ _ (by decide) (by decide) (by decide), mw_setF_same _ _ _ _ _ _ (by decide) (by decide),
      bitOf_putField_high (by decide) (by decide), bitOf_putField_high (by decide) (by decide), bitOf_putField_high (by decide) (by decide)]
    exact h
  intro t
  rw [show t = _ from hx]
  refine ⟨?_, ?_, ?_, ?_, ?_⟩
  · rw [mw_setW_other _ _ _ _ _ (by decide) (by decide) (by decide), mw_setW_other _ _ _ _ _ (by decide) (by decide) (by decide), mw_setF_same _ _ _ _ _ _ (by decide) (by decide),
      mw_setF_same _ _ _ _ _ _ (by decide) (by decide), mw_setF_other _ _ _ _ _ _ _ (by decide) (by decide) (by decide), mw_setF_same _ _ _ _ _ _ (by decide) (by decide)]
  · rw [mw_setW_other _ _ _ _ _ (by decide) (by decide) (by decide), mw_setW_other _ _ _ _ _ (by decide) (by decide) (by decide), mw_setF_other _ _ _ _ _ _ _ (by decide) (by decide) (by decide),
      mw_setF_other _ _ _ _ _ _ _ (by decide) (by decide) (by decide), mw_setF_same _ _ _ _ _ _ (by decide) (by decide), putField_zero (mw_lt _ _ _)]
  · rw [mw_setW_other _ _ _ _ _ (by decide) (by decide) (by decide), mw_setW_same, Nat.zero_mod]
  · rw [mw_setW_same, Nat.zero_mod]
  · exact onlyWords_setW (onlyWords_setW (onlyWords_setF (onlyWords_setF (onlyWords_setF (onlyWords_setF (onlyWords_refl _ _ _) (by decide)) (by decide)) (by decide)) (by decide)) (by decide)) (by decide)

theorem onChannel_says {s : State} {c i : Nat} (hp : mediaPage s c = some i) (f : State → Nat → State) : onChannel s c f = .next (f s i) := by
  unfold onChannel
  rw [hp]

theorem ringEvent_words (s : State) (i : Nat) (p : Bool) (code : Nat) : let t := ringEvent s i p code
    mw t i (0x524 + 4 * bits (mw s i 0x520) 2 0) = blockNow s i % 65536 * 65536 + b2n p * 32768 + (bits (mw s i 0x520) 14 8 + 1) % 128 * 256 + code % 256 ∧
    mw t i 0x520 = putField (putField (mw s i 0x520) 14 8 ((bits (mw s i 0x520) 14 8 + 1) % 128)) 2 0 (bits (mw s i 0x520) 2 0 + 1) ∧
    OnlyWords s t i [0x524 + 4 * bits (mw s i 0x520) 2 0, 0x520] := by
  unfold ringEvent
  dsimp only
  have hb : b2n p ≤ 1 := by cases p <;> decide
  refine ⟨?_, ?_, ?_⟩
  · rw [mw_setW_other _ _ _ _ _ (by omega) (by decide) (by omega), mw_setW_small _ _ _ _ (by omega)]
  · rw [mw_setW_small _ _ _ _ (putField_lt (putField_lt (mw_lt _ _ _) (by decide) (by decide)) (by decide) (by decide)), mw_setW_other _ _ _ _ _ (by omega) (by omega) (by decide)]
  · exact onlyWords_setW (onlyWords_setW (onlyWords_refl _ _ _) (by simp)) (by simp)

theorem genTake_says (s : State) (i : Nat) (hp : genPending s i = true) (k : Bool) (hk : (genKind s i == 2 || genKind s i == 3 || genDir s i == 3 ||
      (genDir s i == 2 && !eventCode (bits (mw s i 0x11C) 23 16))) = !k) : let t := genTake s i
    mw t i 0x520 = (if k then putField (putField (putField (putField (putField (mw s i 0x520) 31 28 (bits (mw s i 0x11C) 31 28)) 27 27 0) 26 26 0) 27 27 1) 26 26 (b2n (genDir s i == 2))
      else putField (putField (putField (mw s i 0x520) 31 28 (bits (mw s i 0x11C) 31 28)) 27 27 0) 26 26 0) ∧ OnlyWords s t i [0x520] := by
  unfold genTake genStop
  rw [if_neg (by rw [hp]; decide)]
  have e : ∀ u : State, mw u i 0x11C = mw s i 0x11C → genKind u i = genKind s i ∧ genDir u i = genDir s i := by
    intro u hu; unfold genKind genDir; rw [hu]; exact ⟨rfl, rfl⟩
  obtain ⟨e1, e2⟩ := e (setF (setF (setF s i 0x520 31 28 (bits (mw s i 0x11C) 31 28)) i 0x520 27 27 0) i 0x520 26 26 0) (by
    rw [mw_setF_other _ _ _ _ _ _ _ (by decide) (by decide) (by decide), mw_setF_other _ _ _ _ _ _ _ (by decide) (by decide) (by decide), mw_setF_other _ _ _ _ _ _ _ (by decide) (by decide) (by decide)])
  dsimp only
  rw [e1, e2, hk]
  cases k
  · simp only [Bool.not_false, if_true, Bool.false_eq_true, if_false]
    refine ⟨?_, ?_⟩
    · rw [mw_setF_same _ _ _ _ _ _ (by decide) (by decide), mw_setF_same _ _ _ _ _ _ (by decide) (by decide), mw_setF_same _ _ _ _ _ _ (by decide) (by decide)]
    · exact onlyWords_setF (onlyWords_setF (onlyWords_setF (onlyWords_refl _ _ _) (by simp)) (by simp)) (by simp)
  · simp only [Bool.not_true, if_true, Bool.false_eq_true, if_false]
    refine ⟨?_, ?_⟩
    · rw [mw_setF_same _ _ _ _ _ _ (by decide) (by decide), mw_setF_same _ _ _ _ _ _ (by decide) (by decide), mw_setF_same _ _ _ _ _ _ (by decide) (by decide),
        mw_setF_same _ _ _ _ _ _ (by decide) (by decide), mw_setF_same _ _ _ _ _ _ (by decide) (by decide)]
    · exact onlyWords_setF (onlyWords_setF (onlyWords_setF (onlyWords_setF (onlyWords_setF (onlyWords_refl _ _ _) (by simp)) (by simp)) (by simp)) (by simp)) (by simp)

theorem words_nil (s : State) (i : Nat) : Words s s i [] := ⟨fun p hp => absurd hp (by simp), onlyWords_refl _ _ _⟩

theorem words_one {s t : State} {i off v : Nat} (h : mw t i off = v) (o : OnlyWords s t i [off]) : Words s t i [(off, v)] :=
  ⟨fun p hp => by simp only [List.mem_cons, List.not_mem_nil, or_false] at hp; subst hp; exact h, o⟩

end Sys2Proof.Machine
end

