-- ==== Sys2Proof/Tests/Slice0.lean ====
section
/-! SUPPORT.  Tests: an ill-formed term for each check of well-formedness; syllables written out from the layouts
of chapter 5; the worked examples of the spec, one step each; and for each statement with hypotheses, states and
operands that meet them, clause by clause.  The states are State.reset with a few cells written. -/

open Sys2Proof Sys2Proof.Machine Sys2Proof.Safety

set_option linter.unreachableTactic false
set_option linter.unusedTactic false
set_option linter.unnecessarySeqFocus false

namespace Sys2Proof.Tests

set_option Elab.async false

/-- A cell whose listed values and reset values all have a property has it at every instance. -/
theorem every_value (s : State) (f : Fld) (P : Nat → Prop) [DecidablePred P]
    (h : P (f.reset % 2 ^ f.w) ∧ (∀ e ∈ f.special, P (e.2 % 2 ^ f.w)) ∧ ∀ e ∈ Tbl.get [] s.cells f.id, P (e.2 % 2 ^ f.w)) (n : Nat) :
    P (s.rd f n) := by
  have get_of : ∀ (t : Tbl Nat) (d : Nat), P (d % 2 ^ f.w) → (∀ e ∈ t, P (e.2 % 2 ^ f.w)) → P (Tbl.get d t n % 2 ^ f.w) := by
    intro t d hd ht
    induction t with
    | nil => exact hd
    | cons e r ih =>
      obtain ⟨i, a⟩ := e
      simp only [Tbl.get]
      split
      · exact ht _ (List.mem_cons_self ..)
      · exact ih fun x hx => ht x (List.mem_cons_of_mem _ hx)
  exact get_of _ _ (get_of _ _ h.1 h.2.1) h.2.2

/-- Cells whose tables are equal read the same. -/
theorem same_values (s t : State) (l : List Fld) (h : ∀ g ∈ l, Tbl.get [] t.cells g.id = Tbl.get [] s.cells g.id) :
    ∀ g ∈ l, ∀ j, t.rd g j = s.rd g j := by
  intro g hg j
  simp only [State.rd, h g hg]

/-- The commands that the channel's state does not allow. -/
theorem not_allowed (c st : Nat) (h : (c = 1 ∧ st ≠ chALLOCATED) ∨ (c = 2 ∧ st ≠ chACTIVE) ∨ (c = 3 ∧ st ≠ chHELD) ∨
    (c = 4 ∧ st ≠ chARMED ∧ st ≠ chACTIVE ∧ st ≠ chHELD)) : ¬ commandAllowed c st := by
  rcases h with ⟨rfl, h⟩ | ⟨rfl, h⟩ | ⟨rfl, h⟩ | ⟨rfl, h⟩ <;> simpa [commandAllowed] using h
def base (m : Nat) : State := puts State.reset [(F.PMU_MODE_CURRENT, 0, m)]
def regs (b : Nat) : List (Fld × Nat × Nat) := [(I.d, 32 * b, 0xFF00), (I.d, 32 * b + 1, 0xAF39), (I.p, 16 * b + 1, 0x40000040), (I.p, 16 * b + 2, 0x40000080)]
def sg (m : Nat) : State := puts (base mSERVICE) ([(I.cJob, 0, 1), (I.waiting, 0, 0), (F.CLU_STAT_STATE, 0, clRUN), (I.pcb, 0, 0x21000100), (I.cmode, 0, m), (I.cycle, 0, 0xFFFFFFFF)] ++ regs 0)
def sv (m : Nat) : State := puts (base mSERVICE) ([(I.romSt, 0, 3), (I.pcb, 130, 0x20000100), (I.cmode, 130, m)] ++ regs 130)
def staged (i v : Nat) : List (Fld × Nat × Nat) :=
  [(F.CPG_FRAME_STATE, i, fSTAGED), (F.CPG_FRAME_CID, i, 5), (F.CPG_FRAME_VPAGE, i, v), (I.frOwner, i, 1), (I.mapLvl, 16 * 5 + v, 1), (I.mapPage, 16 * 5 + v, 10 + v), (I.pgUse, 10 + v, 16 * 5 + v + 1)]
def view (s : State) : State := { puts s (staged 2 1 ++ staged 9 0 ++ [(F.TSU_T_STAT_STATE, 0, tRUNNING), (I.jCv, 0, 1), (I.jCid, 0, 5), (I.jWs, 0, 3), (F.TSU_T_CTX_CID, 0, 5), (F.TSU_T_CTX_CV, 0, 1),
  (I.p, 0, 0x1040), (I.p, 1, 0x10000040), (I.p, 6, 0x30000100), (I.p, 8, 0x1FFC), (I.p, 9, 0x20000080), (I.p, 14, 0x0008), (F.FUS_PMSGC_RIGHTS, 0, 0xFFFFF)]) with
    mem := [(0x30002040, 0x11), (0x30002041, 0x22), (0x30002044, 0x33), (0x30002046, 0x77)] }
def md (l : List (Nat × Nat)) : State := l.foldl (fun s p => s.writeLE (0x30011000 + p.1) 4 p.2) { view (sg 0) with mem := [] }
def md2 (s : State) (l : List (Nat × Nat)) : State := l.foldl (fun s p => s.writeLE p.1 4 p.2) s
def cw (st cmd : Nat) (l : List (Nat × Nat)) : State := md ([(0, 0x05000000 + cmd * 0x10000), (0x400, 0x04000000 + st), (0x104, 0)] ++ l)
def fb (type dst src epoch seq hops : Nat) (p : List Byte) : List Byte := cwBytes State.reset 0 seq ⟨type, dst, src, epoch, hops, p⟩
def C (l : List (Fld × Nat × Nat)) : State := puts (base mSERVICE) ([(F.CWY_CTRL_RUN, 0, 1), (F.CWY_L_CFG_EN, 0, 1), (F.CWY_L_CFG_EN, 1, 1), (F.SYS_DEVNUM_LOCKED, 0, 1), (F.SYS_DEVNUM_DEVNUM, 0, 3), (F.CWY_EPOCH_EPOCH, 0, 5),
  (F.CWY_L_STAT_STATE, 0, ckHELLO), (F.CWY_L_STAT_STATE, 1, ckUP), (F.CWY_L_STAT_UP, 1, 1), (F.CWY_ROUTE_VALID, 9, 1), (F.CWY_ROUTE_LINK, 9, 1), (F.CWY_ROUTE_VALID, 10, 1), (F.CWY_ROUTE_LINK, 10, 0), (F.TMU_LAT_RX_OVR, 8, 1), (F.CWY_SELECT_INDEX, 4, 1), (F.CWY_SELECT_INDEX, 0, 20), (F.TMU_TB_NS_NS, 0, 123456)] ++ l)

/-! ## Well-formedness: an ill-formed term for each check, and a well-formed one -/

/-- The findings of a leg of no samples. -/
def quietLeg : LegBlock := ⟨0, 0, [], 0, 0, 0, 0, false, false, 0, 0, 0, []⟩
/-- The findings of a block: n samples out, and the windows found least. -/
def blockOf (n : Nat) (least : List (Fin 4)) : BlockEnd :=
  ⟨0, [1], List.replicate n 1, [1], ⟨0, 0, 0, 0, 0, 0, 0, 0, 0, false, 0, 0, false, least, []⟩, quietLeg, quietLeg, 0⟩

theorem test_wf_register_access : (Instr.registerWrite .host 0 0x814 8 0).wellFormed = false ∧
    (Instr.registerWrite .host 0 0x814 3 0).wellFormed = false ∧ (Instr.registerWrite .host 0 0x814 4 0).wellFormed = true := by decide
theorem test_wf_counter_offset : (Instr.counterClear .host 11 0x816 0).wellFormed = false ∧
    (Instr.counterClear .host 11 0x814 0).wellFormed = true := by decide
theorem test_wf_host_access : (Instr.hostAccess false 1 true 2 0).wellFormed = false ∧
    (Instr.hostAccess false 2 true 2 0).wellFormed = true := by decide
theorem test_wf_task_slot : (Instr.taskSlotFirstWrite .host 0x102 0).wellFormed = false ∧
    (Instr.taskSlotFirstWrite .host 0x104 0).wellFormed = true := by decide
theorem test_wf_boot_image : (Instr.bootImageCheck false [1] []).wellFormed = false ∧
    (Instr.bootImageCheck false [] []).wellFormed = true := by decide
theorem test_wf_events : (Instr.wakeEvent 0).wellFormed = false ∧ (Instr.mlsTrigger 0).wellFormed = false ∧
    (Instr.wakeEvent 1).wellFormed = true ∧ (Instr.mlsTrigger 1).wellFormed = true := by decide
theorem test_wf_dbgresp : (Instr.dbgresp 0 [] []).wellFormed = false ∧
    (Instr.dbgresp 0 (List.replicate 96 0) (List.replicate 96 0)).wellFormed = true := by decide +kernel
theorem test_wf_block_end : (Instr.endjob 0 true (some (blockOf 2 []))).wellFormed = false ∧
    (Instr.endjob 0 true (some (blockOf 1 [2, 2]))).wellFormed = false ∧
    (Instr.endjob 0 true (some (blockOf 1 [2, 1]))).wellFormed = true := by decide
theorem test_wf_access_place :
    (Instr.ldH 0 true .first true (.dual 0) 0 0).wellFormed = false ∧ (Instr.ldW 0 true .second false (.dual 0) 0 0).wellFormed = false ∧
    (Instr.ldL 0 true .first false (.single 0 0 0) 0 0).wellFormed = false ∧ (Instr.stH 0 true .first true (.dual 0) 0 0).wellFormed = false ∧
    (Instr.stW 0 true .second false (.dual 0) 0 0).wellFormed = false ∧ (Instr.stL 0 true .second true (.single 0 0 0) 0 0).wellFormed = false ∧
    (Instr.mod 0 true .first true (.dual 2) 0).wellFormed = false ∧ (Instr.mod 0 true .only true (.dual 2) 0).wellFormed = true := by decide
theorem test_wf_timeslots : (Instr.waypointFire 0 [(3, 1), (3, 2)]).wellFormed = false ∧
    (Instr.tdxFramePulse 0 .onTime [(3, 1), (3, 2)]).wellFormed = false ∧ (Instr.tdxBlockBoundary [(3, 1), (3, 2)]).wellFormed = false ∧
    (Instr.handoverApply [(3, 1), (3, 2)]).wellFormed = false ∧ (Instr.waypointFire 0 [(3, 1), (4, 1)]).wellFormed = true := by decide

/-! ## Syllables, written out from the layouts of chapter 5 -/

/-- "Worked example: encoding a bundle" (chapter 5): the three syllables it derives. -/
theorem test_decode_worked_bundle : decodeSyllable 0 0x41486000 = [.cmac 0 false 0 2 8 12 false false] ∧
    decodeSyllable 0 0x2482A618 = [.ldW 0 false .first false (.dual 1) 8 1, .ldW 0 false .second true (.dual 2) 12 1] ∧
    decodeSyllable 0 0x884E7040 = [.addi 0 true true 19 19 64] := by decide
theorem test_encode_worked_bundle : encodeSyllable (.cmac 0 false 0 2 8 12 false false) = some 0x41486000 ∧
    encodePair false (.ldW 0 false .first false (.dual 1) 8 1) (.ldW 0 false .second true (.dual 2) 12 1) = some 0x2482A618 ∧
    encodeSyllable (.addi 0 true true 19 19 64) = some 0x884E7040 := by decide
/-- M: E 1, class 10, OP 00010, ACD 101, RA 00111, RB 11110, RC 00000, ACC 01, OPT 1000 (R146). -/
theorem test_decode_mac : decodeSyllable 3 0b11000010101001111111000000011000 = [.mac 3 true 1 5 7 30 true] := by decide
/-- M: E 0, class 10, OP 00101, ACD 011, RA 00110, RB 00000, RC 00000, ACC 00, OPT 0011 (R152). -/
theorem test_decode_acsub : decodeSyllable 0 0b01000101011001100000000000000011 = [.acsub 0 false 3 6] := by decide
/-- L single: E 0, class 01, LF 1, PORT 1, OP 011, REG 01000, PTR 010, AM 101, MSEL 000, IMM 1111111000 (R153, R155). -/
theorem test_decode_single_load : decodeSyllable 0 0b00111011010000101010001111111000 =
    [.ldL 0 false .only true (.single 5 0 0x3F8) 8 2] := by decide
/-- S format SR: E 1, class 00, OP 000001, RD 00001, RA 00010, RB 00011, SZ 1 (R159, R160). -/
theorem test_decode_add : decodeSyllable 0 0b10000000100001000100001110000000 = [.add 0 true true 1 2 3] := by decide
/-- S format SC: OP 011010, CR 000111, DIR 1, RW 10001. -/
theorem test_decode_movc : decodeSyllable 0 0b00001101000011111000100000000000 = [.movcWrite 0 false 7 17] := by decide
/-- S format SA: OP 100000, RD 00100, ACN 110, H 1, FORM 01. -/
theorem test_decode_mova : decodeSyllable 0 0b00010000000100110101000000000000 = [.mova 0 false 4 6 true 1] := by decide
/-- S formats SB, SBC and SL: OP 101000 with OFF23 −2; OP 101001, COND 0011, OFF19 −1; OP 101100, CR 0, CNT10 5, LEOFF 9. -/
theorem test_decode_flow : decodeSyllable 0 0b00010100011111111111111111111110 = [.br 0 false 0x7FFFFE] ∧
    decodeSyllable 0 0b00010100100111111111111111111111 = [.brc 0 false 3 0x7FFFF] ∧
    decodeSyllable 0 0b00010110000000000101000000001001 = [.loop 0 false (.imm 5) 9] := by decide
/-- S format SQ: OP 110101, RW 0010, QR 0, QNUM 11111111; SM: OP 111110, OPC 000, RA 01001. -/
theorem test_decode_system : decodeSyllable 65 0b00011010100010000000000011111111 = [.qrd 65 false (.num 255) 2] ∧
    decodeSyllable 65 0b00011111000000010010000000000000 = [.tlbiPage 65 false 9] := by decide
/-- Reserved: class 11, M opcode 0, S opcode 0x23, NOP with a bit set (R143, R146, R160). -/
theorem test_decode_reserved : decodeSyllable 0 0x60000000 = [.reservedSyllable 0 false 3] ∧
    decodeSyllable 0 0x40000000 = [.reservedSyllable 0 false 2] ∧ decodeSyllable 0 0x11800000 = [.reservedSyllable 0 false 0] ∧
    decodeSyllable 0 1 = [.reservedSyllable 0 false 0] := by decide
/-- No row of the table has bits. -/
theorem test_no_word_is_a_command : decodeTableWord 32 0x41486000 = none := rfl

/-! ## Worked examples of the spec, one step each -/

/-- A cell after a command. -/
def left (o : Host.Outcome State Fault Refusal) (f : Fld) (i : Nat) : Option Nat :=
  match o with
  | .next t => some (t.rd f i)
  | _ => none
/-- A cell after the results of core 0 have landed. -/
def landed (o : Host.Outcome State Fault Refusal) (f : Fld) (i : Nat) : Option Nat :=
  match o with
  | .next t => some ((settled t 0).rd f i)
  | _ => none
/-- Signal core 0 with a MODE and the low half of two accumulators, D0 = D1 = 0x4000. -/
def cored (mode ac0 ac1 : Nat) : State :=
  puts (sg mode) [(I.ac, 0, ac0), (I.ac, 2, ac1), (I.d, 0, 0x4000), (I.d, 1, 0x4000), (I.acov, 0, 0)]

/-- "Rounding" (chapter 5): SAT and convergent give 0x246A twice; toward minus infinity 0x2469 and 0x246A. -/
theorem test_mova_rounds : landed (exec (.mova 0 true 0 0 false 0) (cored 0x800 0x1234C000 0)) I.d 0 = some 0x246A ∧
    landed (exec (.mova 0 true 0 0 false 0) (cored 0x800 0x12354000 0)) I.d 0 = some 0x246A ∧
    landed (exec (.mova 0 true 0 0 false 0) (cored 0xC00 0x1234C000 0)) I.d 0 = some 0x2469 := by decide +kernel
/-- "Saturation": with MSH = 2 D0 receives 0x7FFF and V is 1; without SAT 0x91A6 and V is 1. -/
theorem test_mova_saturates : landed (exec (.mova 0 true 0 0 false 0) (cored 0x802 0x1234C000 0)) I.d 0 = some 0x7FFF ∧
    landed (exec (.mova 0 true 0 0 false 0) (cored 2 0x1234C000 0)) I.d 0 = some 0x91A6 ∧
    landed (exec (.mova 0 true 0 0 false 0) (cored 2 0x1234C000 0)) I.flV 0 = some 1 := by decide +kernel
/-- "Guard overflow": MAC AC1, D0, D1 wraps to 0x80_0FFF_F000, or saturates, with ACOV bit 1. -/
theorem test_mac_guard : landed (exec (.mac 0 true 0 1 0 1 false) (cored 0 0 0x7FFFFFF000)) I.ac 2 = some 0x800FFFF000 ∧
    landed (exec (.mac 0 true 0 1 0 1 false) (cored 0x1000 0 0x7FFFFFF000)) I.ac 2 = some 0x7FFFFFFFFF ∧
    landed (exec (.mac 0 true 0 1 0 1 false) (cored 0 0 0x7FFFFFF000)) I.acov 0 = some 2 := by decide +kernel
/-- MSU takes the product off again: 0x7F_FFFF_F000 from 0x80_0FFF_F000, and 0x7F_EFFF_FFFF from the saturated sum. -/
theorem test_msu_guard : landed (exec (.mac 0 true 1 1 0 1 false) (cored 0 0 0x800FFFF000)) I.ac 2 = some 0x7FFFFFF000 ∧
    landed (exec (.mac 0 true 1 1 0 1 false) (cored 0x1000 0 0x7FFFFFFFFF)) I.ac 2 = some 0x7FEFFFFFFF := by decide +kernel
/-- "A protection map" (chapter 3): PMHOST is ANDed, and a higher PMBAR2.HI changes nothing. -/
theorem test_protection_map :
    left (exec (.protectionMapWrite (.svc 0) 0 0x101C) (puts (base mSERVICE) [(F.FUS_PMHOST_RIGHTS, 0, 0x103C)])) F.FUS_PMHOST_RIGHTS 0 = some 0x101C ∧
    left (exec (.protectionMapWrite (.svc 0) 0 0x103C) (puts (base mSERVICE) [(F.FUS_PMHOST_RIGHTS, 0, 0x101C)])) F.FUS_PMHOST_RIGHTS 0 = some 0x101C ∧
    left (exec (.protectionMapWrite (.svc 0) 4 0x21001000) (puts (base mSERVICE) [(F.FUS_PMBAR2_HI, 0, 0x200F), (F.FUS_PMBAR2_LO, 0, 0x1000)]))
      F.FUS_PMBAR2_HI 0 = some 0x200F := by decide +kernel
/-- "Reading a saturated counter" (chapter 0): it stands at all-ones, a write of zero clears it, the next drop counts 1. -/
theorem test_saturated_counter :
    ((puts (base mSERVICE) [(F.TMU_LATECNT_COUNT, 0, 0xFFFFFFFF)]).bump F.TMU_LATECNT_COUNT 0 none).rd F.TMU_LATECNT_COUNT = 0xFFFFFFFF ∧
    left (exec (.counterClear (.svc 0) 6 0x820 0) (puts (base mSERVICE) [(F.TMU_LATECNT_COUNT, 0, 0xFFFFFFFF)])) F.TMU_LATECNT_COUNT 0 = some 0 ∧
    ((base mSERVICE).bump F.TMU_LATECNT_COUNT 0 none).rd F.TMU_LATECNT_COUNT = 1 := by decide +kernel
/-- "A periodic Waypoint" (chapter 13): the differences of its steps 1, 2 and 8. -/
theorem test_waypoint_differences : diff32 0x7FC0 0xFFF13D80 = 1000000 ∧ diff32 0x7FC0 0xFFFFBC70 = 50000 ∧
    diff32 2151600000 4600000 = 2147000000 := by decide

/-! ## Witnesses of the statements about a whole step -/

/-- A Nightwatch that runs with nothing waiting, a phase short of its edge and one at it; a step that goes on from a
canonical memory; a command that changes the mode. -/
theorem test_meets_whole_step :
    ((puts State.reset [(I.nwStarted, 0, 1)]).pending = [] ∧ (puts State.reset [(I.nwStarted, 0, 1)]).rd I.nwStarted = 1 ∧
      (puts State.reset [(I.nwStarted, 0, 1)]).rd I.nwPhase + 32768 < 500000000) ∧
    (500000000 ≤ (puts State.reset [(I.nwStarted, 0, 1), (I.nwPhase, 0, 499990000)]).rd I.nwPhase + 32768) ∧
    Memory.wf (view (sg 0)).mem = true ∧ step (view (sg 0)) = .next (tick (view (sg 0))) :=
  ⟨by decide +kernel, by decide +kernel, by decide +kernel, rfl⟩

/-- RST_N low leaves a mode other than RESET: a command that changes the mode. -/
theorem test_meets_ModeChangesOnlyAsTheTableAllows : left (exec .rstNLow (puts (base mSERVICE) [(I.nwStarted, 0, 1)])) F.PMU_MODE_CURRENT 0 = some mRESET ∧
    (puts (base mSERVICE) [(I.nwStarted, 0, 1)]).mode ≠ mRESET := by decide +kernel

/-- A register of SYS that a write reaches, and an offset that none occupies (RegisterWritesFollowAccessTypes, first clause). -/
theorem test_meets_RegisterWrites_first : (base mSERVICE).fabric = true ∧ (findReg 0x800 regTable_SYS).isSome = true ∧
    findReg 0x7F4 regTable_SYS = none := by decide +kernel

/-- A signal core and a supervisor core at a bundle boundary that nothing halts, and the same cores halted
(DebugPortUnlocksHaltsAndAccesses, the clauses of DBG_HALT). -/
theorem test_meets_DebugPort_halts : (base mSERVICE).fabric = true ∧
    (base mSERVICE).rd F.MLS_DBG_HALTED_LO_CORES = 0 ∧ atBoundary (base mSERVICE) 0 = true ∧ atBoundary (base mSERVICE) 31 = true ∧
    (base mSERVICE).rd F.MLS_DBG_HALTED_HI_CORES = 0 ∧ atBoundary (base mSERVICE) 63 = true ∧
    (base mSERVICE).rd F.MLS_DBG_HALTED_SVC_CORES = 0 ∧ atBoundary (base mSERVICE) 67 = true ∧
    (puts (base mSERVICE) [(F.MLS_DBG_HALTED_LO_CORES, 0, 2 ^ 31)]).rd F.MLS_DBG_HALTED_LO_CORES = 2 ^ 31 ∧
    (puts (base mSERVICE) [(F.MLS_DBG_HALTED_LO_CORES, 0, 2 ^ 31)]).rd I.cJob 31 = 0 ∧
    (puts (base mSERVICE) [(F.MLS_DBG_HALTED_SVC_CORES, 0, 8)]).rd F.MLS_DBG_HALTED_SVC_CORES = 2 ^ 3 := by decide +kernel


/-! ## What meets the hypotheses of the statements -/

namespace Regs

def linkUp : State := puts (base mSERVICE) [(F.HIF_LINKSTAT_UP, 0, 1), (F.FUS_PMHOST_RIGHTS, 0, 0xFFF)]
def w1 : State := puts linkUp [(F.HIF_BAR2BASE_BASE, 0, 0x100), (F.FUS_PMBAR2_LO, 0, 0x1000), (F.FUS_PMBAR2_HI, 0, 0x11FF)]
def w2 : State := puts w1 [(F.FUS_PMHOST_RIGHTS, 0, 0)]
def w3 : State := puts (base mBOOT) [(F.CPG_HITCNT_COUNT, 0, 2 ^ 32 - 1), (F.PKE_CNT_COUNT, 3, 2 ^ 32 - 1)]
def g01x0 : Fld × Fld × ℕ := (F.TSU_SELECT_INDEX, F.TSU_SELECT_SELERR, 65536)

/-- States and operands that meet the hypotheses of RegisterWritesFollowAccessTypes, clause by clause: each group in parentheses meets
those of one clause together. -/
theorem test_meets_RegisterWritesFollowAccessTypes :
  ((∀ (n : Fin 4), Init.host ≠ Init.svc n) ∧ State.reset.fabric = false) ∧
  ((∀ (n : Fin 4), Init.host ≠ Init.svc n) ∧ (base mSERVICE).fabric = true ∧ 2072 % 4 = 0 ∧ 2072 ≠ 2068) ∧
  ((∀ (n : Fin 4), Init.host ≠ Init.svc n) ∧ (base mSERVICE).fabric = true ∧ 0 % 4 = 0 ∧ 0 ≠ 2068 ∧ findReg 0 regTable_SYS = none) ∧
  ((base mSERVICE).fabric = true ∧ (if false = true then 3 = 6 ∧ g01x0 = wpSelect else selectOf 3 = some g01x0) ∧ selCopy (Init.sgc 3) = none) ∧
  ((base mSERVICE).fabric = true ∧ (if false = true then 3 = 6 ∧ g01x0 = wpSelect else selectOf 3 = some g01x0) ∧ selCopy (Init.svc 0) = some 0) ∧
  ((base mSERVICE).fabric = true ∧ 1 ≠ 0) ∧
  (w3.fabric = true ∧ w3.rd (2132, F.CPG_HITCNT_COUNT, 0).2.1 (2132, F.CPG_HITCNT_COUNT, 0).2.2 + 1 = 2 ^ (2132, F.CPG_HITCNT_COUNT, 0).2.1.w) := by
  refine ⟨⟨?h1, ?r1⟩, ⟨?h1, ?h3, ?r2⟩, ⟨?h1, ?h3, ?r3⟩, ⟨?h3, ?h9, ?r4⟩, ⟨?h3, ?h9, ?r5⟩, ⟨?h3, ?r6⟩, ?r7⟩
  all_goals try decide +kernel
  all_goals repeat' apply And.intro
  all_goals first
    | decide +kernel
    | (intro n h; cases h)

/-- States and operands that meet the hypotheses of HostAccessReachesWhatItsRightsAllow, clause by clause: each group in parentheses meets
those of one clause together. -/
theorem test_meets_HostAccessReachesWhatItsRightsAllow :
  (State.reset.rd F.HIF_LINKSTAT_UP = 0) ∧
  (w1.fabric = true ∧ w1.rd F.HIF_LINKSTAT_UP = 1 ∧ accessSize 1 = true ∧ (true = true → (w1.rd F.FUS_PMBAR2_LO * 65536 ≤ if true = true then w1.rd
    F.HIF_BAR2BASE_BASE * 1048576 + 0 else 4026531840 + 0) ∧ (if true = true then w1.rd F.HIF_BAR2BASE_BASE * 1048576 + 0 else 4026531840 + 0) + 1 ≤
    w1.rd F.FUS_PMBAR2_HI * 65536 + 65536 ∧ (if true = true then w1.rd F.HIF_BAR2BASE_BASE * 1048576 + 0 else 4026531840 + 0) + 1 ≤ 4294967296) ∧
    (268435456 ≤ if true = true then w1.rd F.HIF_BAR2BASE_BASE * 1048576 + 0 else 4026531840 + 0) ∧ (if true = true then w1.rd F.HIF_BAR2BASE_BASE *
    1048576 + 0 else 4026531840 + 0) + 1 ≤ 301989888 ∧ bitOf (w1.rd F.FUS_PMHOST_RIGHTS) 3 = true ∧ ((0 < if true = true then w1.rd
    F.HIF_BAR2BASE_BASE * 1048576 + 0 else 4026531840 + 0) ∨ (if true = true then w1.rd F.HIF_BAR2BASE_BASE * 1048576 + 0 else 4026531840 + 0) + 1 ≤
    0)) ∧
  (w1.fabric = true ∧ w1.rd F.HIF_LINKSTAT_UP = 1 ∧ accessSize 1 = true ∧ (true = true → (w1.rd F.FUS_PMBAR2_LO * 65536 ≤ if true = true then w1.rd
    F.HIF_BAR2BASE_BASE * 1048576 + 0 else 4026531840 + 0) ∧ (if true = true then w1.rd F.HIF_BAR2BASE_BASE * 1048576 + 0 else 4026531840 + 0) + 1 ≤
    w1.rd F.FUS_PMBAR2_HI * 65536 + 65536 ∧ (if true = true then w1.rd F.HIF_BAR2BASE_BASE * 1048576 + 0 else 4026531840 + 0) + 1 ≤ 4294967296) ∧
    (268435456 ≤ if true = true then w1.rd F.HIF_BAR2BASE_BASE * 1048576 + 0 else 4026531840 + 0) ∧ (if true = true then w1.rd F.HIF_BAR2BASE_BASE *
    1048576 + 0 else 4026531840 + 0) + 1 ≤ 301989888 ∧ bitOf (w1.rd F.FUS_PMHOST_RIGHTS) 2 = true) ∧
  (linkUp.fabric = true ∧ linkUp.rd F.HIF_LINKSTAT_UP = 1 ∧ accessSize 1 = true ∧ (false = true → (linkUp.rd F.FUS_PMBAR2_LO * 65536 ≤ if false = true
    then linkUp.rd F.HIF_BAR2BASE_BASE * 1048576 + 32505856 else 4026531840 + 32505856) ∧ (if false = true then linkUp.rd F.HIF_BAR2BASE_BASE *
    1048576 + 32505856 else 4026531840 + 32505856) + 1 ≤ linkUp.rd F.FUS_PMBAR2_HI * 65536 + 65536 ∧ (if false = true then linkUp.rd
    F.HIF_BAR2BASE_BASE * 1048576 + 32505856 else 4026531840 + 32505856) + 1 ≤ 4294967296) ∧ linkUp.rd F.SYS_ERRINFO_VALID = 0 ∧ bitOf (linkUp.rd
    F.MLS_ERRSEL_SEL) 0 = false ∧ place linkUp (if false = true then linkUp.rd F.HIF_BAR2BASE_BASE * 1048576 + 32505856 else 4026531840 + 32505856) =
    Place.nothing) ∧
  (w2.fabric = true ∧ w2.rd F.HIF_LINKSTAT_UP = 1 ∧ accessSize 1 = true ∧ (true = true → (w2.rd F.FUS_PMBAR2_LO * 65536 ≤ if true = true then w2.rd
    F.HIF_BAR2BASE_BASE * 1048576 + 0 else 4026531840 + 0) ∧ (if true = true then w2.rd F.HIF_BAR2BASE_BASE * 1048576 + 0 else 4026531840 + 0) + 1 ≤
    w2.rd F.FUS_PMBAR2_HI * 65536 + 65536 ∧ (if true = true then w2.rd F.HIF_BAR2BASE_BASE * 1048576 + 0 else 4026531840 + 0) + 1 ≤ 4294967296) ∧
    w2.rd F.SYS_ERRINFO_VALID = 0 ∧ bitOf (w2.rd F.MLS_ERRSEL_SEL) 0 = false ∧ (268435456 ≤ if true = true then w2.rd F.HIF_BAR2BASE_BASE * 1048576 +
    0 else 4026531840 + 0) ∧ (if true = true then w2.rd F.HIF_BAR2BASE_BASE * 1048576 + 0 else 4026531840 + 0) + 1 ≤ 301989888 ∧ bitOf (w2.rd
    F.FUS_PMHOST_RIGHTS) 3 = false) ∧
  (w2.fabric = true ∧ w2.rd F.HIF_LINKSTAT_UP = 1 ∧ accessSize 1 = true ∧ (true = true → (w2.rd F.FUS_PMBAR2_LO * 65536 ≤ if true = true then w2.rd
    F.HIF_BAR2BASE_BASE * 1048576 + 0 else 4026531840 + 0) ∧ (if true = true then w2.rd F.HIF_BAR2BASE_BASE * 1048576 + 0 else 4026531840 + 0) + 1 ≤
    w2.rd F.FUS_PMBAR2_HI * 65536 + 65536 ∧ (if true = true then w2.rd F.HIF_BAR2BASE_BASE * 1048576 + 0 else 4026531840 + 0) + 1 ≤ 4294967296) ∧
    w2.rd F.SYS_ERRINFO_VALID = 0 ∧ bitOf (w2.rd F.MLS_ERRSEL_SEL) 0 = false ∧ (268435456 ≤ if true = true then w2.rd F.HIF_BAR2BASE_BASE * 1048576 +
    0 else 4026531840 + 0) ∧ (if true = true then w2.rd F.HIF_BAR2BASE_BASE * 1048576 + 0 else 4026531840 + 0) + 1 ≤ 301989888 ∧ bitOf (w2.rd
    F.FUS_PMHOST_RIGHTS) 2 = false) ∧
  (linkUp.fabric = true ∧ linkUp.rd F.HIF_LINKSTAT_UP = 1 ∧ accessSize 1 = true ∧ (¬(true = true → (linkUp.rd F.FUS_PMBAR2_LO * 65536 ≤ if true = true
    then linkUp.rd F.HIF_BAR2BASE_BASE * 1048576 + 0 else 4026531840 + 0) ∧ (if true = true then linkUp.rd F.HIF_BAR2BASE_BASE * 1048576 + 0 else
    4026531840 + 0) + 1 ≤ linkUp.rd F.FUS_PMBAR2_HI * 65536 + 65536 ∧ (if true = true then linkUp.rd F.HIF_BAR2BASE_BASE * 1048576 + 0 else 4026531840
    + 0) + 1 ≤ 4294967296)) ∧ linkUp.rd F.SYS_ERRINFO_VALID = 0 ∧ bitOf (linkUp.rd F.MLS_ERRSEL_SEL) 0 = false) := by
  refine ⟨?r1, ⟨?h2, ?h3, ?h4, ?h5, ?h6, ?h7, ?r2⟩, ⟨?h2, ?h3, ?h4, ?h5, ?h6, ?h7, ?r3⟩, ⟨?h11, ?h12, ?h4, ?r4⟩, ⟨?h17, ?h18, ?h4, ?h19, ?h20, ?h21,
    ?h22, ?h23, ?r5⟩, ⟨?h17, ?h18, ?h4, ?h19, ?h20, ?h21, ?h22, ?h23, ?r6⟩, ⟨?h11, ?h12, ?h4, ?r7⟩⟩
  all_goals decide +kernel

/-- States and operands that meet the hypotheses of OnlyAlignedWordsReachRegisters, clause by clause: each group in parentheses meets
those of one clause together. -/
theorem test_meets_OnlyAlignedWordsReachRegisters :
  ((base mSERVICE).fabric = true ∧ (0 ≠ 4 ∨ 0 % 4 ≠ 0) ∧ (∀ (n : Fin 4), Init.host ≠ Init.svc n)) := by
  refine ?r1
  all_goals try decide +kernel
  all_goals repeat' apply And.intro
  all_goals first
    | decide +kernel
    | (intro n h; cases h)

end Regs

namespace Life

def w4 : State := puts State.reset [(I.nwStarted, 0, 1), (I.nwPhase, 0, 500000000 - 32768)]
def fl1 : State := puts (base mBOOT) [(I.bootPh, 0, 1), (I.fuseArray, 51, 0xABCDE), (I.fuseArray, 68, 0x7F6E5D), (I.fuseArray, 124, 77), (I.fuseArray, 55, 0x12345678), (I.fuseArray, 4, 0x8192)]
def fl2 : State := puts (base mBOOT) [(I.bootPh, 0, 2)]
def sq0 : State := puts (base mBOOT) [(I.bootPh, 0, 3), (F.PMU_SEQSTEP_VALID, 0, 1), (F.PMU_SEQSTEP_PEN, 0, 7), (F.TMU_LATECNT_COUNT, 0, 5)]
def sq1 : State := puts (base mBOOT) [(I.bootPh, 0, 4), (I.seqIdx, 0, 1), (F.PMU_SEQSTEP_VALID, 0, 1), (F.PMU_SEQSTEP_VALID, 1, 1), (F.PMU_SEQSTEP_VALID, 4, 1), (F.PMU_SEQSTEP_PEN, 4, 3),(F.PMU_SEQSTEP_VALID, 7, 1)]
def sq2 : State := puts sq1 [(F.PMU_SEQSTEP_WAITPG, 1, 1)]
def sq3 : State := puts sq1 [(I.seqIdx, 0, 7)]
def sq4 : State := puts sq1 [(I.seqWaitPg, 0, 1)]
def sq5 : State := puts sq3 [(I.seqWaitPg, 0, 1)]
def fe1 : State := puts (base mSERVICE) [(F.PMU_SEQCFG_DONE, 0, 1), (I.pinPgood, 0, 1), (F.MLS_ERRSEL_SEL, 0, 0)]
def wk1 : State := puts (base mWATCH) [(F.PMU_WAKE_WEN, 0, 15), (I.watchFromReset, 0, 1), (I.strap, 0, 4), (I.nwCnt, 0, 99)]
def wk2 : State := puts wk1 [(I.watchEntry, 0, 8), (F.PMU_SEQSTEP_VALID, 6, 1), (F.PMU_SEQSTEP_WATCHOFF, 6, 1), (F.PMU_SEQSTEP_PEN, 6, 2)]
def wk3 : State := puts wk1 [(I.watchEntry, 0, 8)]
def wk4 : State := puts wk1 [(I.watchEntry, 0, 1), (I.wakePend, 0, 1)]

/-- States and operands that meet the hypotheses of ResetKeepsNightwatchAndStraps, clause by clause: each group in parentheses meets
those of one clause together. -/
theorem test_meets_ResetKeepsNightwatchAndStraps :
  (State.reset.rd I.nwStarted = 0) ∧
  (w4.rd I.fuseBurn = 0 ∧ w4.rd I.nwStarted = 1 ∧ 0 < 8) ∧
  (w4.rd I.fuseBurn = 0 ∧ w4.rd I.nwStarted = 1 ∧ (∀ f ∈ resetEntryCells ++ [I.pinRstN], f.id ≠ F.TMU_LATECNT_COUNT.id)) ∧
  (State.reset.rd I.fuseBurn = 0 ∧ 0 < 8) ∧
  (State.reset.rd I.fuseBurn = 0 ∧ (∀ f ∈ resetEntryCells ++ [], f.id ≠ F.TMU_LATECNT_COUNT.id)) ∧
  ((State.reset.rd I.nwStarted = 0 ∨ State.reset.mode ≠ mRESET)) ∧
  (w4.rd I.nwStarted = 1 ∧ w4.mode = mRESET ∧ 0 < 8) := by
  refine ⟨?r1, ⟨?h2, ?h3, ?h4⟩, ⟨?h2, ?h3, ?r2⟩, ⟨?h6, ?h4⟩, ⟨?h6, ?r3⟩, ?r4, ⟨?h3, ?r5⟩⟩
  all_goals decide +kernel

/-- States and operands that meet the hypotheses of NightwatchCountsAndCompares, clause by clause: each group in parentheses meets
those of one clause together. -/
theorem test_meets_NightwatchCountsAndCompares :
  ((base mSERVICE).fabric = true) ∧
  (State.reset.rd I.nwStarted = 0) ∧
  (w4.rd I.nwStarted = 1 ∧ w4.mode ≠ mWATCH) := by
  refine ⟨?r1, ?r2, ?r3⟩
  all_goals decide +kernel

/-- States and operands that meet the hypotheses of FusesClocksAndPowerComeUpInOrder, clause by clause: each group in parentheses meets
those of one clause together. -/
theorem test_meets_FusesClocksAndPowerComeUpInOrder :
  (fl1.mode = mBOOT ∧ fl1.rd I.bootPh = 1 ∧ fl1.rd F.FUS_STAT_BUSY = 0 ∧ fl1.partialFuses = [] ∧ 0 < 128) ∧
  (fl2.mode = mBOOT ∧ fl2.rd I.bootPh = 2) ∧
  (sq0.mode = mBOOT ∧ sq0.rd I.bootPh = 3 ∧ sq0.rd F.PMU_SEQSTEP_VALID = 1 ∧ sq0.rd F.PMU_SEQSTEP_PEN < 8 ∧ (∀ f ∈ [F.PMU_CLK_PLLLOCK, I.tickRun,
    F.PMU_SEQCFG_DONE, F.PMU_SEQCFG_SEQFAIL, I.bootPh, I.pinPen, I.seqIdx, I.seqWaitPg], f.id ≠ F.TMU_LATECNT_COUNT.id)) ∧
  (1 < 8 ∧ sq2.mode = mBOOT ∧ sq2.rd I.bootPh = 4 ∧ sq2.rd I.seqIdx = 1 ∧ sq2.rd I.seqWaitPg = 0 ∧ (sq2.rd F.PMU_SEQSTEP_WAITPG 1 = 1 ∧ sq2.rd
    I.pinPgood = 0)) ∧
  (1 < 8 ∧ sq1.mode = mBOOT ∧ sq1.rd I.bootPh = 4 ∧ sq1.rd I.seqIdx = 1 ∧ sq1.rd I.seqWaitPg = 0 ∧ (¬(sq1.rd F.PMU_SEQSTEP_WAITPG 1 = 1 ∧ sq1.rd
    I.pinPgood = 0)) ∧ 1 < 4 ∧ 4 < 8 ∧ (∀ (j : ℕ), 1 < j → j < 4 → sq1.rd F.PMU_SEQSTEP_VALID j = 0) ∧ sq1.rd F.PMU_SEQSTEP_VALID 4 = 1) ∧
  (7 < 8 ∧ sq3.mode = mBOOT ∧ sq3.rd I.bootPh = 4 ∧ sq3.rd I.seqIdx = 7 ∧ sq3.rd I.seqWaitPg = 0 ∧ (¬(sq3.rd F.PMU_SEQSTEP_WAITPG 7 = 1 ∧ sq3.rd
    I.pinPgood = 0)) ∧ (∀ (j : ℕ), 7 < j → j < 8 → sq3.rd F.PMU_SEQSTEP_VALID j = 0) ∧ sq3.rd F.FUS_STAT_FUSEERR = 0 ∧ sq3.rd I.strap = 0) ∧
  (1 < 8 ∧ sq4.mode = mBOOT ∧ sq4.rd I.bootPh = 4 ∧ sq4.rd I.seqIdx = 1 ∧ sq4.rd I.seqWaitPg = 1 ∧ 1 < 4 ∧ 4 < 8 ∧ (∀ (j : ℕ), 1 < j → j < 4 → sq4.rd
    F.PMU_SEQSTEP_VALID j = 0) ∧ sq4.rd F.PMU_SEQSTEP_VALID 4 = 1) ∧
  (7 < 8 ∧ sq5.mode = mBOOT ∧ sq5.rd I.bootPh = 4 ∧ sq5.rd I.seqIdx = 7 ∧ sq5.rd I.seqWaitPg = 1 ∧ (∀ (j : ℕ), 7 < j → j < 8 → sq5.rd
    F.PMU_SEQSTEP_VALID j = 0) ∧ sq5.rd F.FUS_STAT_FUSEERR = 0 ∧ sq5.rd I.strap = 0) := by
  refine ⟨?r1, ?r2, ?r3, ⟨?h13, ?r4⟩, ⟨?h13, ?r5⟩, ⟨?h28, ?r6⟩, ⟨?h13, ?r7⟩, ⟨?h28, ?r8⟩⟩
  all_goals try decide +kernel
  all_goals repeat' apply And.intro
  all_goals first
    | decide +kernel
    | (intro r h1 h2; interval_cases r <;> decide +kernel)

/-- States and operands that meet the hypotheses of ModesFollowErrorsAndRequests, clause by clause: each group in parentheses meets
those of one clause together. -/
theorem test_meets_ModesFollowErrorsAndRequests :
  (LinksDown sq4 ∧ bitOf (sq4.rd F.MLS_ERRSEL_SEL) 6 = false ∧ sq4.mode = mBOOT ∧ sq4.rd I.bootPh = 4 ∧ sq4.rd I.seqIdx < 8 ∧ sq4.rd I.seqWaitPg = 1 ∧
    sq4.rd I.pinPgood = 0) ∧
  (LinksDown State.reset ∧ bitOf (State.reset.rd F.MLS_ERRSEL_SEL) 6 = false ∧ State.reset.rd I.seqWaitPg = 0) ∧
  (LinksDown fe1 ∧ bitOf (fe1.rd F.MLS_ERRSEL_SEL) 6 = false ∧ fe1.rd F.PMU_SEQCFG_DONE = 1 ∧ (fe1.mode = mBOOT ∨ fe1.mode = mSERVICE ∨ fe1.mode =
    mDRAIN)) ∧
  (LinksDown State.reset ∧ bitOf (State.reset.rd F.MLS_ERRSEL_SEL) 6 = false ∧ State.reset.rd F.PMU_SEQCFG_DONE = 0) ∧
  (LinksDown (base mSERVICE) ∧ bitOf ((base mSERVICE).rd F.MLS_ERRSEL_SEL) 6 = false ∧ ((base mSERVICE).mode = mBOOT ∨ (base mSERVICE).mode = mSERVICE ∨
    (base mSERVICE).mode = mDRAIN)) ∧
  (LinksDown State.reset ∧ bitOf (State.reset.rd F.MLS_ERRSEL_SEL) 6 = false ∧ (State.reset.mode = mRESET ∨ State.reset.mode = mWATCH)) ∧
  ((base mSERVICE).fabric = true ∧ 0 < 2 ^ 31) ∧
  ((base mSERVICE).fabric = true ∧ 2 ^ 31 ≤ 2147549184 ∧ (¬MayRequest (base mSERVICE) ((if bits 2147549184 18 16 ≤ 5 then puts (base mSERVICE)
    [(F.PMU_MODE_TARGET, 0, bits 2147549184 18 16)] else base mSERVICE).rd F.PMU_MODE_TARGET))) ∧
  ((base mSERVICE).fabric = true ∧ 2 ^ 31 ≤ 2147745792 ∧ MayRequest (base mSERVICE) ((if bits 2147745792 18 16 ≤ 5 then puts (base mSERVICE)
    [(F.PMU_MODE_TARGET, 0, bits 2147745792 18 16)] else base mSERVICE).rd F.PMU_MODE_TARGET) ∧ ((if bits 2147745792 18 16 ≤ 5 then puts (base
    mSERVICE) [(F.PMU_MODE_TARGET, 0, bits 2147745792 18 16)] else base mSERVICE).rd F.PMU_MODE_TARGET = mSERVICE ∨ (if bits 2147745792 18 16 ≤ 5 then
    puts (base mSERVICE) [(F.PMU_MODE_TARGET, 0, bits 2147745792 18 16)] else base mSERVICE).rd F.PMU_MODE_TARGET = mDRAIN)) ∧
  ((base mSERVICE).fabric = true ∧ 2 ^ 31 ≤ 2147745792 ∧ MayRequest (base mSERVICE) ((if bits 2147745792 18 16 ≤ 5 then puts (base mSERVICE)
    [(F.PMU_MODE_TARGET, 0, bits 2147745792 18 16)] else base mSERVICE).rd F.PMU_MODE_TARGET) ∧ (if bits 2147745792 18 16 ≤ 5 then puts (base
    mSERVICE) [(F.PMU_MODE_TARGET, 0, bits 2147745792 18 16)] else base mSERVICE).rd F.PMU_MODE_TARGET ≠ (base mSERVICE).mode) := by
  refine ⟨?r1, ⟨?h8, ?h9, ?r2⟩, ?r3, ⟨?h8, ?h9, ?r4⟩, ?r5, ⟨?h8, ?h9, ?r6⟩, ⟨?h20, ?r7⟩, ⟨?h20, ?r8⟩, ⟨?h20, ?h24, ?h25, ?r9⟩, ⟨?h20, ?h24, ?h25, ?r10⟩⟩
  all_goals try unfold LinksDown
  all_goals try unfold MayRequest
  all_goals try decide +kernel
  all_goals repeat' apply And.intro
  all_goals first
    | decide +kernel
    | exact every_value _ _ (fun v => v = 0) (by decide +kernel)

/-- States and operands that meet the hypotheses of WatchKeepsAndTakesWakes, clause by clause: each group in parentheses meets
those of one clause together. -/
theorem test_meets_WatchKeepsAndTakesWakes :
  ((State.reset.mode ≠ mWATCH ∨ Nat.land 0 (State.reset.rd F.PMU_WAKE_WEN) = 0)) ∧
  (wk2.mode = mWATCH ∧ Nat.land 1 (wk2.rd F.PMU_WAKE_WEN) ≠ 0 ∧ (wk2.rd I.watchEntry ≠ 0 ∨ wk2.rd I.bootPh = 1)) ∧
  (wk1.mode = mWATCH ∧ Nat.land 1 (wk1.rd F.PMU_WAKE_WEN) ≠ 0 ∧ wk1.rd I.watchEntry = 0 ∧ wk1.rd I.bootPh ≠ 1 ∧ wk1.rd I.watchFromReset = 1 ∧ 0 < 32768) ∧
  ((State.reset.mode ≠ mWATCH ∨ State.reset.rd I.watchEntry = 0)) ∧
  (wk2.mode = mWATCH ∧ wk2.rd I.watchEntry ≠ 0 ∧ 6 < wk2.rd I.watchEntry ∧ 6 < 8 ∧ (wk2.rd F.PMU_SEQSTEP_VALID 6 = 1 ∧ wk2.rd F.PMU_SEQSTEP_WATCHOFF 6 =
    1) ∧ (∀ (i : ℕ), 6 < i → i < wk2.rd I.watchEntry → i < 8 → ¬(wk2.rd F.PMU_SEQSTEP_VALID i = 1 ∧ wk2.rd F.PMU_SEQSTEP_WATCHOFF i = 1))) ∧
  (wk3.mode = mWATCH ∧ wk3.rd I.watchEntry ≠ 0 ∧ (∀ j < wk3.rd I.watchEntry, j < 8 → ¬(wk3.rd F.PMU_SEQSTEP_VALID j = 1 ∧ wk3.rd F.PMU_SEQSTEP_WATCHOFF
    j = 1)) ∧ wk3.rd I.wakePend = 0) ∧
  (wk4.mode = mWATCH ∧ wk4.rd I.watchEntry ≠ 0 ∧ (∀ j < wk4.rd I.watchEntry, j < 8 → ¬(wk4.rd F.PMU_SEQSTEP_VALID j = 1 ∧ wk4.rd F.PMU_SEQSTEP_WATCHOFF
    j = 1)) ∧ wk4.rd I.wakePend = 1) := by
  refine ⟨?r1, ⟨?h2, ?r2⟩, ?r3, ?r4, ⟨?h2, ?r5⟩, ?r6, ?r7⟩
  all_goals try decide +kernel
  all_goals repeat' apply And.intro
  all_goals first
    | decide +kernel
    | (intro r h1 h2 h3; interval_cases r <;> decide +kernel)

end Life

namespace Power

def bt1 : State := puts (base mBOOT) [(I.romSt, 0, 1), (I.bootSrc, 0, 3)]
def fz1 : State := puts (base mSERVICE) [(I.scr, 0, 1), (I.fuseArray, 12, 1)]
def fz2 : State := puts fz1 [(I.fuseBurn, 0, 48 * 32 + 3), (I.fuseArray, 48, 9)]
def fz3 : State := puts fz1 [(F.FUS_STAT_BUSY, 0, 1), (I.fuseBurn, 0, 4096), (F.SYS_DEVNUM_LOCKED, 0, 1), (F.FUS_PMHOST_RIGHTS, 0, 0xABCDE), (F.FUS_PMMISC_RMLS, 0, 1), (F.FUS_PMBAR2_HI, 0, 0x9999), (I.svcDiv, 2, 3)]
def idleCells (c : Nat) : List (Fld × Nat × Nat) := (List.range 8).map fun k => (I.waiting, 8 * c + k, 1)
def cl1 : State := puts (base mSERVICE) (idleCells 0 ++ idleCells 1 ++ idleCells 7 ++ [(F.CLU_STAT_STATE, 0, clRUN), (F.CLU_STAT_STATE, 1, clGATED), (F.CLU_STAT_STATE, 7, clPLLOFF), (F.CLU_CFG_FLOOR, 0, 3), (F.CLU_CFG_FLOOR, 1, 3), (F.CLU_CFG_FLOOR, 7, 3)])
def cl2 : State := { puts (base mDRAIN) [(F.CLU_STAT_DRAINWB, 7, 1), (F.CLU_STAT_STATE, 7, clPLLOFF), (F.CLU_STAT_DAWN, 0, 1), (F.CLU_STAT_DAWN, 1, 1), (I.cluPh, 0, 1), (I.cluPh, 1, 2)] with mem := [(0x30E00005, 7), (0x40000000, 1)], iLines := [(57, [3]), (3, [1])] }
def cl3 : State := puts (base mDRAIN) [(F.CLU_STAT_DAWN, 7, 1), (I.cluPh, 7, 3), (F.CLU_STAT_STATE, 7, clGATED)]
def avs : State := puts (base mSERVICE) [(F.PMU_AVSCFG_EN, 0, 1), (F.PMU_AVSCFG_MARGIN, 0, 5), (I.vddCode, 0, 30), (F.PMU_SEQCFG_DONE, 0, 1), (I.cluAvs, 0, 1), (F.CLU_STAT_STATE, 0, clRUN), (F.PMU_AVSCFG_VMIN, 0, 10)]
def avs2 : State := puts avs [(I.vddCode, 0, 40), (F.PMU_PMBCMD_GO, 0, 1), (F.PMU_PMBCMD_RD, 0, 1), (F.PMU_PMBCMD_WORD, 0, 1)]
def th1 : State := puts (base mSERVICE) [(F.PMU_THERMCFG_WARN, 0, 80), (F.PMU_THERMCFG_THROT, 0, 90), (F.PMU_THERMCFG_CRIT, 0, 110), (F.FUS_SHADOW_WORD, 68, 0x6E5A50)]
def bk1 : State := puts (base mSERVICE) [(F.PMU_CSTBANK_MODE, 0, 0x55555545), (I.pgUse, 0, 1), (I.pgUse, 2048 * 15 + 7, 1)]

/-- States and operands that meet the hypotheses of BootRomRunsOnlyWhatPasses, clause by clause: each group in parentheses meets
those of one clause together. -/
theorem test_meets_BootRomRunsOnlyWhatPasses :
  (State.reset.rd I.romSt ≠ 1) ∧
  (bt1.mode = mBOOT ∧ bt1.rd I.romSt = 1 ∧ bt1.rd I.bootSrc = 3 ∧ (¬HeaderPasses bt1 [])) := by
  refine ⟨?r1, ?r2⟩
  all_goals try unfold HeaderPasses
  all_goals try decide +kernel
  all_goals repeat' apply And.intro
  all_goals first
    | decide +kernel
    | exact every_value _ _ (fun v => v = 0) (by decide +kernel)

/-- States and operands that meet the hypotheses of FusesBurnAndProtectionTightens, clause by clause: each group in parentheses meets
those of one clause together. -/
theorem test_meets_FusesBurnAndProtectionTightens :
  ((base mSERVICE).fabric = true ∧ ((base mSERVICE).rd F.FUS_STAT_BUSY = 1 ∨ 0 < 2 ^ 31)) ∧
  ((base mSERVICE).fabric = true ∧ (base mSERVICE).rd F.FUS_STAT_BUSY = 0 ∧ 2 ^ 31 ≤ 2147549184 ∧ ((∃ n, Init.svc 0 = Init.svc n ∧ bitOf ((base
    mSERVICE).rd I.scr (↑n * 16)) 0 = true) ∧ true = true ∧ ((base mSERVICE).mode = mBOOT ∨ (base mSERVICE).mode = mSERVICE) ∧ ¬LastKeyRevoked (base
    mSERVICE) (bits 2147549184 22 16) (bits 2147549184 4 0))) ∧
  ((base mSERVICE).fabric = true ∧ (base mSERVICE).rd F.FUS_STAT_BUSY = 0 ∧ 2 ^ 31 ≤ 2147549184 ∧ (¬((∃ n, Init.svc 0 = Init.svc n ∧ bitOf ((base
    mSERVICE).rd I.scr (↑n * 16)) 0 = true) ∧ false = true ∧ ((base mSERVICE).mode = mBOOT ∨ (base mSERVICE).mode = mSERVICE) ∧ ¬LastKeyRevoked (base
    mSERVICE) (bits 2147549184 22 16) (bits 2147549184 4 0)))) ∧
  (48 < 128 ∧ 2 < 32 ∧ fz2.rd I.fuseBurn = 48 * 32 + 2 + 1 ∧ 0 < 32) ∧
  (State.reset.rd I.fuseBurn = 0) ∧
  ((base mSERVICE).fabric = true ∧ 0 < 20) := by
  refine ⟨⟨?h1, ?r1⟩, ⟨?h1, ?h3, ?h4, ?r2⟩, ⟨?h1, ?h3, ?h4, ?r3⟩, ?r4, ?r5, ⟨?h1, ?r6⟩⟩
  all_goals try unfold LastKeyRevoked
  all_goals try decide +kernel
  all_goals repeat' apply And.intro
  all_goals first
    | decide +kernel
    | exact every_value _ _ (fun v => v = 0) (by decide +kernel)

/-- States and operands that meet the hypotheses of HostInterfaceCommands, clause by clause: each group in parentheses meets
those of one clause together. -/
theorem test_meets_HostInterfaceCommands :
  ((base mSERVICE).fabric = true ∧ (base mSERVICE).rd F.SYS_DEVNUM_LOCKED = 0) ∧
  (fz3.fabric = true ∧ fz3.rd F.SYS_DEVNUM_LOCKED = 1) := by
  refine ⟨?r1, ?r2⟩
  all_goals decide +kernel

/-- States and operands that meet the hypotheses of ClustersDescendAndWake, clause by clause: each group in parentheses meets
those of one clause together. -/
theorem test_meets_ClustersDescendAndWake :
  (cl1.serving = true ∧ avsActive cl1 = false ∧ ((cl1.rd F.CLU_STAT_DAWN = 0 ∧ cl1.rd F.CLU_STAT_DRAINWB = 0 ∧ ∀ k < 8, cl1.rd I.cJob (8 * 0 + k) = 0 ∧
    cl1.rd I.waiting (8 * 0 + k) = 1 ∧ halted cl1 (8 * 0 + k) = false ∧ cl1.rd I.cNext (8 * 0 + k) = 0) ∧ cluSt cl1 0 = clRUN ∧ clRUN < cl1.rd
    F.CLU_CFG_FLOOR)) ∧
  (cl1.serving = true ∧ avsActive cl1 = false ∧ ((cl1.rd F.CLU_STAT_DAWN 1 = 0 ∧ cl1.rd F.CLU_STAT_DRAINWB 1 = 0 ∧ ∀ k < 8, cl1.rd I.cJob (8 * 1 + k) =
    0 ∧ cl1.rd I.waiting (8 * 1 + k) = 1 ∧ halted cl1 (8 * 1 + k) = false ∧ cl1.rd I.cNext (8 * 1 + k) = 0) ∧ cluSt cl1 1 = clGATED ∧ clGATED < cl1.rd
    F.CLU_CFG_FLOOR 1)) ∧
  (cl1.serving = true ∧ avsActive cl1 = false ∧ ((cl1.rd F.CLU_STAT_DAWN 7 = 0 ∧ cl1.rd F.CLU_STAT_DRAINWB 7 = 0 ∧ ∀ k < 8, cl1.rd I.cJob (8 * 7 + k) =
    0 ∧ cl1.rd I.waiting (8 * 7 + k) = 1 ∧ halted cl1 (8 * 7 + k) = false ∧ cl1.rd I.cNext (8 * 7 + k) = 0) ∧ cluSt cl1 7 = clPLLOFF ∧ clPLLOFF <
    cl1.rd F.CLU_CFG_FLOOR 7)) ∧
  ((base mSERVICE).serving = true ∧ avsActive (base mSERVICE) = false ∧ (base mSERVICE).rd F.CLU_CFG_FLOOR ≤ cluSt (base mSERVICE) 0) ∧
  (cl2.serving = true ∧ avsActive cl2 = false ∧ cl2.rd F.CLU_STAT_DRAINWB 7 = 1 ∧ cluFrames cl2 7 = []) ∧
  ((base mSERVICE).serving = true ∧ avsActive (base mSERVICE) = false ∧ (base mSERVICE).rd F.CLU_STAT_DRAINWB = 0 ∧ (base mSERVICE).rd F.CLU_STAT_DAWN =
    0 ∧ cluSt (base mSERVICE) 0 ≠ clRUN) ∧
  (cl1.serving = true ∧ avsActive cl1 = false ∧ cl1.rd F.CLU_STAT_DRAINWB = 0 ∧ (cl1.rd F.CLU_STAT_DAWN = 1 ∨ cluSt cl1 0 = clRUN)) ∧
  (cl2.serving = true ∧ avsActive cl2 = false ∧ cl2.rd F.CLU_STAT_DAWN = 1 ∧ cl2.rd I.cluPh = 1) ∧
  (cl2.serving = true ∧ avsActive cl2 = false ∧ cl2.rd F.CLU_STAT_DAWN 1 = 1 ∧ cl2.rd I.cluPh 1 = 2) ∧
  (cl3.serving = true ∧ avsActive cl3 = false ∧ cl3.rd F.CLU_STAT_DAWN 7 = 1 ∧ cl3.rd I.cluPh 7 = 3) := by
  refine ⟨⟨?h1, ?h2, ?r1⟩, ⟨?h1, ?h2, ?r2⟩, ⟨?h1, ?h2, ?r3⟩, ⟨?h6, ?h7, ?r4⟩, ⟨?h9, ?h10, ?r5⟩, ⟨?h6, ?h7, ?r6⟩, ⟨?h1, ?h2, ?r7⟩, ⟨?h9, ?h10, ?r8⟩,
    ⟨?h9, ?h10, ?r9⟩, ?r10⟩
  all_goals decide +kernel

/-- States and operands that meet the hypotheses of CstBanksFollowTheirModes, clause by clause: each group in parentheses meets
those of one clause together. -/
theorem test_meets_CstBanksFollowTheirModes :
  ((base mSERVICE).fabric = true ∧ (∀ k < 16, bits 0 (2 * k + 1) (2 * k) ≠ 3) ∧ 0 < 16) ∧
  (bk1.fabric = true ∧ 0 < 16 ∧ bankAllocated bk1 0 = true ∧ bankMode bk1 0 ≠ 3 ∧ (∀ k < 16, bits 3 (2 * k + 1) (2 * k) = 3 ↔ k = 0) ∧ 1 < 16 ∧ 1 ≠ 0) ∧
  ((base mSERVICE).fabric = true ∧ bankMode (base mSERVICE) 0 = 1) ∧
  (bk1.fabric = true ∧ bankMode bk1 2 ≠ 1) := by
  refine ⟨⟨?h1, ?r1⟩, ⟨?h4, ?h3, ?r2⟩, ⟨?h1, ?r3⟩, ⟨?h4, ?r4⟩⟩
  all_goals decide +kernel

/-- States and operands that meet the hypotheses of TemperatureVoltageAndPmbus, clause by clause: each group in parentheses meets
those of one clause together. -/
theorem test_meets_TemperatureVoltageAndPmbus :
  ((State.reset.mode = mRESET ∨ State.reset.mode = mWATCH)) ∧
  (th1.serving = true ∧ (∀ j < 16, j ≠ 0 → th1.rd F.PMU_TEMP_VALID j = 0) ∧ th1.rd I.thWarn = 0 ∧ th1.rd I.thThrot = 0 ∧ th1.rd I.thCrit = 0 ∧ th1.rd
    I.throtSrc = 0 ∧ (¬8 * signedOf 8 (th1.rd F.PMU_THERMCFG_CRIT) ≤ 640) ∧ 8 * signedOf 8 (th1.rd F.PMU_THERMCFG_WARN) ≤ 640) ∧
  ((base mSERVICE).serving = true ∧ (∀ j < 16, j ≠ 0 → (base mSERVICE).rd F.PMU_TEMP_VALID j = 0) ∧ (base mSERVICE).rd I.thWarn = 0 ∧ (base mSERVICE).rd
    I.thThrot = 0 ∧ (base mSERVICE).rd I.thCrit = 0 ∧ (base mSERVICE).rd I.throtSrc = 0 ∧ (¬8 * signedOf 8 ((base mSERVICE).rd F.PMU_THERMCFG_CRIT) ≤
    -1) ∧ (¬8 * signedOf 8 ((base mSERVICE).rd F.PMU_THERMCFG_WARN) ≤ -1)) ∧
  (th1.serving = true ∧ (∀ j < 16, j ≠ 0 → th1.rd F.PMU_TEMP_VALID j = 0) ∧ th1.rd I.thWarn = 0 ∧ th1.rd I.thThrot = 0 ∧ th1.rd I.thCrit = 0 ∧ th1.rd
    I.throtSrc = 0 ∧ (¬8 * signedOf 8 (th1.rd F.PMU_THERMCFG_CRIT) ≤ 720) ∧ 8 * signedOf 8 (th1.rd F.PMU_THERMCFG_THROT) ≤ 720) ∧
  ((base mSERVICE).serving = true ∧ (∀ j < 16, j ≠ 0 → (base mSERVICE).rd F.PMU_TEMP_VALID j = 0) ∧ (base mSERVICE).rd I.thWarn = 0 ∧ (base mSERVICE).rd
    I.thThrot = 0 ∧ (base mSERVICE).rd I.thCrit = 0 ∧ (base mSERVICE).rd I.throtSrc = 0 ∧ (¬8 * signedOf 8 ((base mSERVICE).rd F.PMU_THERMCFG_CRIT) ≤
    -1) ∧ (¬8 * signedOf 8 ((base mSERVICE).rd F.PMU_THERMCFG_THROT) ≤ -1)) ∧
  (avs.fabric = true ∧ avsActive avs = true ∧ 0 < ↑(avs.rd F.PMU_AVSCFG_MARGIN) ∧ avs.rd I.vddCode < avs.rd F.PMU_AVSCFG_VMAX) ∧
  (avs2.fabric = true ∧ avsActive avs2 = true ∧ 0 < ↑(avs2.rd F.PMU_AVSCFG_MARGIN) ∧ avs2.rd F.PMU_AVSCFG_VMAX ≤ avs2.rd I.vddCode) ∧
  (avs.fabric = true ∧ avsActive avs = true ∧ ↑(avs.rd F.PMU_AVSCFG_MARGIN) + 20 ≤ 25) ∧
  ((base mSERVICE).fabric = true ∧ avsActive (base mSERVICE) = false) ∧
  (avs.fabric = true ∧ avs.rd I.cluAvs = 1 ∧ cluSt avs 0 = clRUN ∧ avs.rd F.CLU_STAT_DAWN = 0) ∧
  ((base mSERVICE).fabric = true ∧ (base mSERVICE).rd F.PMU_PMBCMD_GO = 0) ∧
  (avs2.fabric = true ∧ avs2.rd F.PMU_PMBCMD_GO = 1) ∧
  ((base mSERVICE).fabric = true ∧ (base mSERVICE).rd I.svcDiv < (base mSERVICE).rd F.PMU_CLK_SVCMAXDIV) ∧
  (fz3.fabric = true ∧ fz3.rd F.PMU_CLK_SVCMAXDIV ≤ fz3.rd I.svcDiv 2) := by
  refine ⟨?r1, ⟨?h2, ?h3, ?h4, ?h5, ?h6, ?h7, ?r2⟩, ⟨?h10, ?h11, ?h12, ?h13, ?h14, ?h15, ?h16, ?r3⟩, ⟨?h2, ?h3, ?h4, ?h5, ?h6, ?h7, ?r4⟩, ⟨?h10, ?h11,
    ?h12, ?h13, ?h14, ?h15, ?h16, ?r5⟩, ⟨?h21, ?h22, ?r6⟩, ⟨?h25, ?r7⟩, ⟨?h21, ?h22, ?r8⟩, ⟨?h30, ?r9⟩, ⟨?h21, ?r10⟩, ⟨?h30, ?r11⟩, ⟨?h25, ?r12⟩,
    ⟨?h30, ?r13⟩, ?r14⟩
  all_goals decide +kernel

end Power

namespace Alu


/-- States and operands that meet the hypotheses of SumsLogicAndShiftsSetTheFlags, clause by clause: each group in parentheses meets
those of one clause together. -/
theorem test_meets_SumsLogicAndShiftsSetTheFlags :
  (CoreReady (sg 0) 0 ∧ 1 ≠ 0) ∧
  (CoreReady (sg 0) 0 ∧ 1 ≠ rbank (sg 0) 0) := by
  refine ⟨⟨?h1, ?r1⟩, ⟨?h1, ?r2⟩⟩
  all_goals try unfold CoreReady
  all_goals try decide +kernel
  all_goals repeat' apply And.intro
  all_goals first
    | decide +kernel
    | exact every_value _ _ (fun v => v = 0) (by decide +kernel)

/-- States and operands that meet the hypotheses of SelectionsAndNormalisation, clause by clause: each group in parentheses meets
those of one clause together. -/
theorem test_meets_SelectionsAndNormalisation :
  (CoreReady (sg 0) 0 ∧ 1 ≠ 0) ∧
  (CoreReady (sg 0) 0 ∧ 1 ≠ rbank (sg 0) 0) := by
  refine ⟨⟨?h1, ?r1⟩, ⟨?h1, ?r2⟩⟩
  all_goals try unfold CoreReady
  all_goals try decide +kernel
  all_goals repeat' apply And.intro
  all_goals first
    | decide +kernel
    | exact every_value _ _ (fun v => v = 0) (by decide +kernel)

/-- States and operands that meet the hypotheses of MultipliesAccumulateExactly, clause by clause: each group in parentheses meets
those of one clause together. -/
theorem test_meets_MultipliesAccumulateExactly :
  (CoreReady (sg 0) 0 ∧ bitOf ((sg 0).rd I.cmode (rbank (sg 0) 0)) 15 = false ∧ 0 % 2 = 0 ∧ 1 ≠ 0) ∧
  (CoreReady (sg 0) 0 ∧ bitOf ((sg 0).rd I.cmode (rbank (sg 0) 0)) 15 = false ∧ 0 % 2 = 0 ∧ 1 ≠ rbank (sg 0) 0) ∧
  (CoreReady (sg 0) 0 ∧ bitOf ((sg 0).rd I.cmode (rbank (sg 0) 0)) 15 = false ∧ 0 % 2 = 0 ∧ 0 < 8) ∧
  (CoreReady (sg 0) 0 ∧ bitOf ((sg 0).rd I.cmode (rbank (sg 0) 0)) 15 = false ∧ 0 % 4 = 0 ∧ 1 ≠ 0) ∧
  (CoreReady (sg 0) 0 ∧ bitOf ((sg 0).rd I.cmode (rbank (sg 0) 0)) 15 = false ∧ 0 % 4 = 0 ∧ 1 ≠ rbank (sg 0) 0) ∧
  (CoreReady (sg 0) 0 ∧ bitOf ((sg 0).rd I.cmode (rbank (sg 0) 0)) 15 = false ∧ 0 % 4 = 0 ∧ 0 < 8) := by
  refine ⟨⟨?h1, ?h2, ?h3, ?h4⟩, ⟨?h1, ?h2, ?h3, ?h5⟩, ⟨?h1, ?h2, ?h3, ?h6⟩, ⟨?h1, ?h2, ?h7, ?h4⟩, ⟨?h1, ?h2, ?h7, ?h5⟩, ⟨?h1, ?h2, ?h7, ?h6⟩⟩
  all_goals try unfold CoreReady
  all_goals try decide +kernel
  all_goals repeat' apply And.intro
  all_goals first
    | decide +kernel
    | exact every_value _ _ (fun v => v = 0) (by decide +kernel)

/-- States and operands that meet the hypotheses of AccumulatorOperationsAndButterfly, clause by clause: each group in parentheses meets
those of one clause together. -/
theorem test_meets_AccumulatorOperationsAndButterfly :
  (CoreReady (sg 0) 0 ∧ bitOf ((sg 0).rd I.cmode (rbank (sg 0) 0)) 15 = false ∧ 1 ≠ 0) ∧
  (CoreReady (sg 0) 0 ∧ bitOf ((sg 0).rd I.cmode (rbank (sg 0) 0)) 15 = false ∧ 1 ≠ rbank (sg 0) 0) ∧
  (CoreReady (sg 0) 0 ∧ bitOf ((sg 0).rd I.cmode (rbank (sg 0) 0)) 15 = false ∧ 0 < 2) ∧
  (CoreReady (sg 0) 0 ∧ bitOf ((sg 0).rd I.cmode (rbank (sg 0) 0)) 15 = false ∧ 0 < 8) ∧
  (CoreReady (sg 0) 0 ∧ 0 % 2 = 0 ∧ 2 % 2 = 0 ∧ 0 ≠ 2 ∧ 1 ≠ 0) ∧
  (CoreReady (sg 0) 0 ∧ 0 % 2 = 0 ∧ 2 % 2 = 0 ∧ 0 ≠ 2 ∧ 1 ≠ rbank (sg 0) 0) := by
  refine ⟨⟨?h1, ?h2, ?h3⟩, ⟨?h1, ?h2, ?h4⟩, ⟨?h1, ?h2, ?r1⟩, ⟨?h1, ?h2, ?r2⟩, ⟨?h1, ?h7, ?h8, ?h9, ?h3⟩, ⟨?h1, ?h7, ?h8, ?h9, ?h4⟩⟩
  all_goals try unfold CoreReady
  all_goals try decide +kernel
  all_goals repeat' apply And.intro
  all_goals first
    | decide +kernel
    | exact every_value _ _ (fun v => v = 0) (by decide +kernel)

/-- States and operands that meet the hypotheses of AccumulatorsMoveThroughRoundingAndFit, clause by clause: each group in parentheses meets
those of one clause together. -/
theorem test_meets_AccumulatorsMoveThroughRoundingAndFit :
  (CoreReady (sg 0) 0 ∧ 0 % 2 = 0 ∧ 1 ≠ 0) ∧
  (CoreReady (sg 0) 0 ∧ 0 % 2 = 0 ∧ 1 ≠ rbank (sg 0) 0) := by
  refine ⟨⟨?h1, ?h2, ?r1⟩, ⟨?h1, ?h2, ?r2⟩⟩
  all_goals try unfold CoreReady
  all_goals try decide +kernel
  all_goals repeat' apply And.intro
  all_goals first
    | decide +kernel
    | exact every_value _ _ (fun v => v = 0) (by decide +kernel)

end Alu

namespace Moves


/-- States and operands that meet the hypotheses of ConstantsMovesAndControlRegisters, clause by clause: each group in parentheses meets
those of one clause together. -/
theorem test_meets_ConstantsMovesAndControlRegisters :
  (CoreReady (sg 0) 0 ∧ 0 < 56 ∧ 1 ≠ 0) ∧
  (CoreReady (sg 0) 0 ∧ 0 < 56 ∧ 1 ≠ rbank (sg 0) 0) ∧
  (CoreReady (sg 0) 0 ∧ crLegal (decide (64 ≤ 0)) 0 = true ∧ (0 < 32 ∨ bitOf ((sg 0).rd I.scr (16 * (0 - 64))) 0 = true) ∧ 0 = 0 ∧ 1 ≠ 0) ∧
  (CoreReady (sg 0) 0 ∧ crLegal (decide (64 ≤ 0)) 0 = true ∧ (0 < 32 ∨ bitOf ((sg 0).rd I.scr (16 * (0 - 64))) 0 = true) ∧ 0 = 0 ∧ 1 ≠ rbank (sg 0) 0) ∧
  (CoreReady (sg 0) 0 ∧ crLegal (decide (64 ≤ 0)) 3 = true ∧ (3 < 32 ∨ bitOf ((sg 0).rd I.scr (16 * (0 - 64))) 0 = true) ∧ (∀ e ∈ writableCrs 0 (rbank
    (sg 0) 0), e.1 ≠ 3) ∧ 1 ≠ 0) ∧
  (CoreReady (sg 0) 0 ∧ crLegal (decide (64 ≤ 0)) 3 = true ∧ (3 < 32 ∨ bitOf ((sg 0).rd I.scr (16 * (0 - 64))) 0 = true) ∧ (∀ e ∈ writableCrs 0 (rbank
    (sg 0) 0), e.1 ≠ 3) ∧ 1 ≠ rbank (sg 0) 0) := by
  refine ⟨⟨?h1, ?h2, ?h3⟩, ⟨?h1, ?h2, ?h4⟩, ⟨?h1, ?h5, ?h6, ?h7, ?h3⟩, ⟨?h1, ?h5, ?h6, ?h7, ?h4⟩, ⟨?h1, ?h8, ?h9, ?h10, ?h3⟩, ⟨?h1, ?h8, ?h9, ?h10,
    ?h4⟩⟩
  all_goals try unfold CoreReady
  all_goals try decide +kernel
  all_goals repeat' apply And.intro
  all_goals first
    | decide +kernel
    | exact every_value _ _ (fun v => v = 0) (by decide +kernel)

end Moves

namespace Memory


/-- States and operands that meet the hypotheses of LoadsAndStoresMoveTheirBytes, clause by clause: each group in parentheses meets
those of one clause together. -/
theorem test_meets_LoadsAndStoresMoveTheirBytes_1 :
  (CoreReady (view (sg 0)) 0 ∧ ((addressing (view (sg 0)) (rbank (view (sg 0)) 0) false (LMode.dual 0) 0 (2 * 1) false).illegal = false ∧ (addressing
    (view (sg 0)) (rbank (view (sg 0)) 0) false (LMode.dual 0) 0 (2 * 1) false).badLen = false ∧ 0 % 1 = 0) ∧ meetOf (fetched (view (sg 0)) 0) 0
    (Eff.load (portSlot false) (2 * 1) (addressing (view (sg 0)) (rbank (view (sg 0)) 0) false (LMode.dual 0) 0 (2 * 1) false).addr (dCells (view (sg
    0)) (rbank (view (sg 0)) 0) 0 1)) = Meet.ok ∧ KeepsCore (view (sg 0)) (coreRead (begun (view (sg 0)) 0) 0 (addressing (view (sg 0)) (rbank (view
    (sg 0)) 0) false (LMode.dual 0) 0 (2 * 1) false).addr (2 * 1)).2 0 ∧ 1 ≠ 0) ∧
  (CoreReady (view (sg 0)) 0 ∧ ((addressing (view (sg 0)) (rbank (view (sg 0)) 0) false (LMode.dual 0) 0 (2 * 1) false).illegal = false ∧ (addressing
    (view (sg 0)) (rbank (view (sg 0)) 0) false (LMode.dual 0) 0 (2 * 1) false).badLen = false ∧ 0 % 1 = 0) ∧ meetOf (fetched (view (sg 0)) 0) 0
    (Eff.load (portSlot false) (2 * 1) (addressing (view (sg 0)) (rbank (view (sg 0)) 0) false (LMode.dual 0) 0 (2 * 1) false).addr (dCells (view (sg
    0)) (rbank (view (sg 0)) 0) 0 1)) = Meet.ok ∧ KeepsCore (view (sg 0)) (coreRead (begun (view (sg 0)) 0) 0 (addressing (view (sg 0)) (rbank (view
    (sg 0)) 0) false (LMode.dual 0) 0 (2 * 1) false).addr (2 * 1)).2 0 ∧ 1 ≠ rbank (coreRead (begun (view (sg 0)) 0) 0 (addressing (view (sg 0))
    (rbank (view (sg 0)) 0) false (LMode.dual 0) 0 (2 * 1) false).addr (2 * 1)).2 0) ∧
  (CoreReady (view (sg 0)) 0 ∧ ((addressing (view (sg 0)) (rbank (view (sg 0)) 0) false (LMode.dual 1) 0 (2 * 1) false).illegal = false ∧ (addressing
    (view (sg 0)) (rbank (view (sg 0)) 0) false (LMode.dual 1) 0 (2 * 1) false).badLen = false ∧ 0 % 1 = 0) ∧ meetOf (fetched (view (sg 0)) 0) 0
    (Eff.load (portSlot false) (2 * 1) (addressing (view (sg 0)) (rbank (view (sg 0)) 0) false (LMode.dual 1) 0 (2 * 1) false).addr (dCells (view (sg
    0)) (rbank (view (sg 0)) 0) 0 1)) = Meet.ok ∧ KeepsCore (view (sg 0)) (coreRead (begun (view (sg 0)) 0) 0 (addressing (view (sg 0)) (rbank (view
    (sg 0)) 0) false (LMode.dual 1) 0 (2 * 1) false).addr (2 * 1)).2 0 ∧ (addressing (view (sg 0)) (rbank (view (sg 0)) 0) false (LMode.dual 1) 0 (2 *
    1) false).after = some 4162) ∧
  (CoreReady (view (sg 0)) 0 ∧ ((addressing (view (sg 0)) (rbank (view (sg 0)) 0) false (LMode.dual 0) 0 (2 * 1) false).illegal = false ∧ (addressing
    (view (sg 0)) (rbank (view (sg 0)) 0) false (LMode.dual 0) 0 (2 * 1) false).badLen = false ∧ 0 % 1 = 0) ∧ meetOf (fetched (view (sg 0)) 0) 0
    (Eff.load (portSlot false) (2 * 1) (addressing (view (sg 0)) (rbank (view (sg 0)) 0) false (LMode.dual 0) 0 (2 * 1) false).addr (dCells (view (sg
    0)) (rbank (view (sg 0)) 0) 0 1)) = Meet.ok ∧ KeepsCore (view (sg 0)) (coreRead (begun (view (sg 0)) 0) 0 (addressing (view (sg 0)) (rbank (view
    (sg 0)) 0) false (LMode.dual 0) 0 (2 * 1) false).addr (2 * 1)).2 0 ∧ 0 < 1) ∧
  (CoreReady (view (sg 0)) 0 ∧ ((addressing (view (sg 0)) (rbank (view (sg 0)) 0) false (LMode.dual 0) 0 (2 * 1) false).illegal = false ∧ (addressing
    (view (sg 0)) (rbank (view (sg 0)) 0) false (LMode.dual 0) 0 (2 * 1) false).badLen = false ∧ 0 % 1 = 0) ∧ meetOf (fetched (view (sg 0)) 0) 0
    (Eff.load (portSlot false) (2 * 1) (addressing (view (sg 0)) (rbank (view (sg 0)) 0) false (LMode.dual 0) 0 (2 * 1) false).addr (dCells (view (sg
    0)) (rbank (view (sg 0)) 0) 0 1)) = Meet.ok ∧ KeepsCore (view (sg 0)) (coreRead (begun (view (sg 0)) 0) 0 (addressing (view (sg 0)) (rbank (view
    (sg 0)) 0) false (LMode.dual 0) 0 (2 * 1) false).addr (2 * 1)).2 0 ∧ 0 < 64 ∧ (addressing (view (sg 0)) (rbank (view (sg 0)) 0) false (LMode.dual
    0) 0 (2 * 1) false).addr < 65536 ∧ viewFrame (view (sg 0)) 0 (addressing (view (sg 0)) (rbank (view (sg 0)) 0) false (LMode.dual 0) 0 (2 * 1)
    false).addr = some 2) ∧
  (CoreReady (view (sg 0)) 0 ∧ ((addressing (view (sg 0)) (rbank (view (sg 0)) 0) false (LMode.dual 0) 0 (2 * 2) false).illegal = false ∧ (addressing
    (view (sg 0)) (rbank (view (sg 0)) 0) false (LMode.dual 0) 0 (2 * 2) false).badLen = false ∧ 0 % 2 = 0) ∧ meetOf (fetched (view (sg 0)) 0) 0
    (Eff.load (portSlot false) (2 * 2) (addressing (view (sg 0)) (rbank (view (sg 0)) 0) false (LMode.dual 0) 0 (2 * 2) false).addr (dCells (view (sg
    0)) (rbank (view (sg 0)) 0) 0 2)) = Meet.ok ∧ KeepsCore (view (sg 0)) (coreRead (begun (view (sg 0)) 0) 0 (addressing (view (sg 0)) (rbank (view
    (sg 0)) 0) false (LMode.dual 0) 0 (2 * 2) false).addr (2 * 2)).2 0 ∧ 1 ≠ 0) ∧
  (CoreReady (view (sg 0)) 0 ∧ ((addressing (view (sg 0)) (rbank (view (sg 0)) 0) false (LMode.dual 0) 0 (2 * 2) false).illegal = false ∧ (addressing
    (view (sg 0)) (rbank (view (sg 0)) 0) false (LMode.dual 0) 0 (2 * 2) false).badLen = false ∧ 0 % 2 = 0) ∧ meetOf (fetched (view (sg 0)) 0) 0
    (Eff.load (portSlot false) (2 * 2) (addressing (view (sg 0)) (rbank (view (sg 0)) 0) false (LMode.dual 0) 0 (2 * 2) false).addr (dCells (view (sg
    0)) (rbank (view (sg 0)) 0) 0 2)) = Meet.ok ∧ KeepsCore (view (sg 0)) (coreRead (begun (view (sg 0)) 0) 0 (addressing (view (sg 0)) (rbank (view
    (sg 0)) 0) false (LMode.dual 0) 0 (2 * 2) false).addr (2 * 2)).2 0 ∧ 1 ≠ rbank (coreRead (begun (view (sg 0)) 0) 0 (addressing (view (sg 0))
    (rbank (view (sg 0)) 0) false (LMode.dual 0) 0 (2 * 2) false).addr (2 * 2)).2 0) ∧
  (CoreReady (view (sg 0)) 0 ∧ ((addressing (view (sg 0)) (rbank (view (sg 0)) 0) false (LMode.dual 1) 0 (2 * 2) false).illegal = false ∧ (addressing
    (view (sg 0)) (rbank (view (sg 0)) 0) false (LMode.dual 1) 0 (2 * 2) false).badLen = false ∧ 0 % 2 = 0) ∧ meetOf (fetched (view (sg 0)) 0) 0
    (Eff.load (portSlot false) (2 * 2) (addressing (view (sg 0)) (rbank (view (sg 0)) 0) false (LMode.dual 1) 0 (2 * 2) false).addr (dCells (view (sg
    0)) (rbank (view (sg 0)) 0) 0 2)) = Meet.ok ∧ KeepsCore (view (sg 0)) (coreRead (begun (view (sg 0)) 0) 0 (addressing (view (sg 0)) (rbank (view
    (sg 0)) 0) false (LMode.dual 1) 0 (2 * 2) false).addr (2 * 2)).2 0 ∧ (addressing (view (sg 0)) (rbank (view (sg 0)) 0) false (LMode.dual 1) 0 (2 *
    2) false).after = some 4164) ∧
  (CoreReady (view (sg 0)) 0 ∧ ((addressing (view (sg 0)) (rbank (view (sg 0)) 0) false (LMode.dual 0) 0 (2 * 2) false).illegal = false ∧ (addressing
    (view (sg 0)) (rbank (view (sg 0)) 0) false (LMode.dual 0) 0 (2 * 2) false).badLen = false ∧ 0 % 2 = 0) ∧ meetOf (fetched (view (sg 0)) 0) 0
    (Eff.load (portSlot false) (2 * 2) (addressing (view (sg 0)) (rbank (view (sg 0)) 0) false (LMode.dual 0) 0 (2 * 2) false).addr (dCells (view (sg
    0)) (rbank (view (sg 0)) 0) 0 2)) = Meet.ok ∧ KeepsCore (view (sg 0)) (coreRead (begun (view (sg 0)) 0) 0 (addressing (view (sg 0)) (rbank (view
    (sg 0)) 0) false (LMode.dual 0) 0 (2 * 2) false).addr (2 * 2)).2 0 ∧ 0 < 2) ∧
  (CoreReady (view (sg 0)) 0 ∧ ((addressing (view (sg 0)) (rbank (view (sg 0)) 0) false (LMode.dual 0) 0 (2 * 2) false).illegal = false ∧ (addressing
    (view (sg 0)) (rbank (view (sg 0)) 0) false (LMode.dual 0) 0 (2 * 2) false).badLen = false ∧ 0 % 2 = 0) ∧ meetOf (fetched (view (sg 0)) 0) 0
    (Eff.load (portSlot false) (2 * 2) (addressing (view (sg 0)) (rbank (view (sg 0)) 0) false (LMode.dual 0) 0 (2 * 2) false).addr (dCells (view (sg
    0)) (rbank (view (sg 0)) 0) 0 2)) = Meet.ok ∧ KeepsCore (view (sg 0)) (coreRead (begun (view (sg 0)) 0) 0 (addressing (view (sg 0)) (rbank (view
    (sg 0)) 0) false (LMode.dual 0) 0 (2 * 2) false).addr (2 * 2)).2 0 ∧ 0 < 64 ∧ (addressing (view (sg 0)) (rbank (view (sg 0)) 0) false (LMode.dual
    0) 0 (2 * 2) false).addr < 65536 ∧ viewFrame (view (sg 0)) 0 (addressing (view (sg 0)) (rbank (view (sg 0)) 0) false (LMode.dual 0) 0 (2 * 2)
    false).addr = some 2) ∧
  (CoreReady (view (sg 0)) 0 ∧ ((addressing (view (sg 0)) (rbank (view (sg 0)) 0) false (LMode.dual 0) 0 (2 * 4) false).illegal = false ∧ (addressing
    (view (sg 0)) (rbank (view (sg 0)) 0) false (LMode.dual 0) 0 (2 * 4) false).badLen = false ∧ 0 % 4 = 0) ∧ meetOf (fetched (view (sg 0)) 0) 0
    (Eff.load (portSlot false) (2 * 4) (addressing (view (sg 0)) (rbank (view (sg 0)) 0) false (LMode.dual 0) 0 (2 * 4) false).addr (dCells (view (sg
    0)) (rbank (view (sg 0)) 0) 0 4)) = Meet.ok ∧ KeepsCore (view (sg 0)) (coreRead (begun (view (sg 0)) 0) 0 (addressing (view (sg 0)) (rbank (view
    (sg 0)) 0) false (LMode.dual 0) 0 (2 * 4) false).addr (2 * 4)).2 0 ∧ 1 ≠ 0) ∧
  (CoreReady (view (sg 0)) 0 ∧ ((addressing (view (sg 0)) (rbank (view (sg 0)) 0) false (LMode.dual 0) 0 (2 * 4) false).illegal = false ∧ (addressing
    (view (sg 0)) (rbank (view (sg 0)) 0) false (LMode.dual 0) 0 (2 * 4) false).badLen = false ∧ 0 % 4 = 0) ∧ meetOf (fetched (view (sg 0)) 0) 0
    (Eff.load (portSlot false) (2 * 4) (addressing (view (sg 0)) (rbank (view (sg 0)) 0) false (LMode.dual 0) 0 (2 * 4) false).addr (dCells (view (sg
    0)) (rbank (view (sg 0)) 0) 0 4)) = Meet.ok ∧ KeepsCore (view (sg 0)) (coreRead (begun (view (sg 0)) 0) 0 (addressing (view (sg 0)) (rbank (view
    (sg 0)) 0) false (LMode.dual 0) 0 (2 * 4) false).addr (2 * 4)).2 0 ∧ 1 ≠ rbank (coreRead (begun (view (sg 0)) 0) 0 (addressing (view (sg 0))
    (rbank (view (sg 0)) 0) false (LMode.dual 0) 0 (2 * 4) false).addr (2 * 4)).2 0) ∧
  (CoreReady (view (sg 0)) 0 ∧ ((addressing (view (sg 0)) (rbank (view (sg 0)) 0) false (LMode.dual 1) 0 (2 * 4) false).illegal = false ∧ (addressing
    (view (sg 0)) (rbank (view (sg 0)) 0) false (LMode.dual 1) 0 (2 * 4) false).badLen = false ∧ 0 % 4 = 0) ∧ meetOf (fetched (view (sg 0)) 0) 0
    (Eff.load (portSlot false) (2 * 4) (addressing (view (sg 0)) (rbank (view (sg 0)) 0) false (LMode.dual 1) 0 (2 * 4) false).addr (dCells (view (sg
    0)) (rbank (view (sg 0)) 0) 0 4)) = Meet.ok ∧ KeepsCore (view (sg 0)) (coreRead (begun (view (sg 0)) 0) 0 (addressing (view (sg 0)) (rbank (view
    (sg 0)) 0) false (LMode.dual 1) 0 (2 * 4) false).addr (2 * 4)).2 0 ∧ (addressing (view (sg 0)) (rbank (view (sg 0)) 0) false (LMode.dual 1) 0 (2 *
    4) false).after = some 4168) := by
  refine ⟨⟨?h1, ?h2, ?h3, ?h4, ?h5⟩, ⟨?h1, ?h2, ?h3, ?h4, ?r1⟩, ⟨?h1, ?r2⟩, ⟨?h1, ?h2, ?h3, ?h4, ?r3⟩, ⟨?h1, ?h2, ?h3, ?h4, ?h12, ?r4⟩, ⟨?h1, ?h15,
    ?h16, ?h17, ?h5⟩, ⟨?h1, ?h15, ?h16, ?h17, ?r5⟩, ⟨?h1, ?r6⟩, ⟨?h1, ?h15, ?h16, ?h17, ?r7⟩, ⟨?h1, ?h15, ?h16, ?h17, ?h12, ?r8⟩, ⟨?h1, ?h26, ?h27,
    ?h28, ?h5⟩, ⟨?h1, ?h26, ?h27, ?h28, ?r9⟩, ⟨?h1, ?r10⟩⟩
  all_goals try unfold CoreReady
  all_goals try unfold KeepsCore
  all_goals try decide +kernel
  all_goals repeat' apply And.intro
  all_goals first
    | decide +kernel
    | exact same_values _ _ _ (by decide +kernel)
    | exact every_value _ _ (fun v => v = 0) (by decide +kernel)

/-- States and operands that meet the hypotheses of LoadsAndStoresMoveTheirBytes, clause by clause: each group in parentheses meets
those of one clause together. -/
theorem test_meets_LoadsAndStoresMoveTheirBytes_2 :
  (CoreReady (view (sg 0)) 0 ∧ ((addressing (view (sg 0)) (rbank (view (sg 0)) 0) false (LMode.dual 0) 0 (2 * 4) false).illegal = false ∧ (addressing
    (view (sg 0)) (rbank (view (sg 0)) 0) false (LMode.dual 0) 0 (2 * 4) false).badLen = false ∧ 0 % 4 = 0) ∧ meetOf (fetched (view (sg 0)) 0) 0
    (Eff.load (portSlot false) (2 * 4) (addressing (view (sg 0)) (rbank (view (sg 0)) 0) false (LMode.dual 0) 0 (2 * 4) false).addr (dCells (view (sg
    0)) (rbank (view (sg 0)) 0) 0 4)) = Meet.ok ∧ KeepsCore (view (sg 0)) (coreRead (begun (view (sg 0)) 0) 0 (addressing (view (sg 0)) (rbank (view
    (sg 0)) 0) false (LMode.dual 0) 0 (2 * 4) false).addr (2 * 4)).2 0 ∧ 0 < 4) ∧
  (CoreReady (view (sg 0)) 0 ∧ ((addressing (view (sg 0)) (rbank (view (sg 0)) 0) false (LMode.dual 0) 0 (2 * 4) false).illegal = false ∧ (addressing
    (view (sg 0)) (rbank (view (sg 0)) 0) false (LMode.dual 0) 0 (2 * 4) false).badLen = false ∧ 0 % 4 = 0) ∧ meetOf (fetched (view (sg 0)) 0) 0
    (Eff.load (portSlot false) (2 * 4) (addressing (view (sg 0)) (rbank (view (sg 0)) 0) false (LMode.dual 0) 0 (2 * 4) false).addr (dCells (view (sg
    0)) (rbank (view (sg 0)) 0) 0 4)) = Meet.ok ∧ KeepsCore (view (sg 0)) (coreRead (begun (view (sg 0)) 0) 0 (addressing (view (sg 0)) (rbank (view
    (sg 0)) 0) false (LMode.dual 0) 0 (2 * 4) false).addr (2 * 4)).2 0 ∧ 0 < 64 ∧ (addressing (view (sg 0)) (rbank (view (sg 0)) 0) false (LMode.dual
    0) 0 (2 * 4) false).addr < 65536 ∧ viewFrame (view (sg 0)) 0 (addressing (view (sg 0)) (rbank (view (sg 0)) 0) false (LMode.dual 0) 0 (2 * 4)
    false).addr = some 2) ∧
  (CoreReady (view (sg 0)) 0 ∧ ((addressing (view (sg 0)) (rbank (view (sg 0)) 0) false (LMode.dual 0) 0 (2 * 1) false).illegal = false ∧ (addressing
    (view (sg 0)) (rbank (view (sg 0)) 0) false (LMode.dual 0) 0 (2 * 1) false).badLen = false ∧ 0 % 1 = 0) ∧ meetOf (fetched (view (sg 0)) 0) 0
    (Eff.store (portSlot false) (2 * 1) (addressing (view (sg 0)) (rbank (view (sg 0)) 0) false (LMode.dual 0) 0 (2 * 1) false).addr (dValue (view (sg
    0)) (rbank (view (sg 0)) 0) 0 1)) = Meet.ok ∧ KeepsCore (view (sg 0)) (coreWrite (begun (view (sg 0)) 0) 0 (addressing (view (sg 0)) (rbank (view
    (sg 0)) 0) false (LMode.dual 0) 0 (2 * 1) false).addr (2 * 1) (dValue (view (sg 0)) (rbank (view (sg 0)) 0) 0 1)) 0 ∧ 1 ≠ 0) ∧
  (CoreReady (view (sg 0)) 0 ∧ ((addressing (view (sg 0)) (rbank (view (sg 0)) 0) false (LMode.dual 0) 0 (2 * 1) false).illegal = false ∧ (addressing
    (view (sg 0)) (rbank (view (sg 0)) 0) false (LMode.dual 0) 0 (2 * 1) false).badLen = false ∧ 0 % 1 = 0) ∧ meetOf (fetched (view (sg 0)) 0) 0
    (Eff.store (portSlot false) (2 * 1) (addressing (view (sg 0)) (rbank (view (sg 0)) 0) false (LMode.dual 0) 0 (2 * 1) false).addr (dValue (view (sg
    0)) (rbank (view (sg 0)) 0) 0 1)) = Meet.ok ∧ KeepsCore (view (sg 0)) (coreWrite (begun (view (sg 0)) 0) 0 (addressing (view (sg 0)) (rbank (view
    (sg 0)) 0) false (LMode.dual 0) 0 (2 * 1) false).addr (2 * 1) (dValue (view (sg 0)) (rbank (view (sg 0)) 0) 0 1)) 0 ∧ 1 ≠ rbank (coreWrite (begun
    (view (sg 0)) 0) 0 (addressing (view (sg 0)) (rbank (view (sg 0)) 0) false (LMode.dual 0) 0 (2 * 1) false).addr (2 * 1) (dValue (view (sg 0))
    (rbank (view (sg 0)) 0) 0 1)) 0) ∧
  (CoreReady (view (sg 0)) 0 ∧ ((addressing (view (sg 0)) (rbank (view (sg 0)) 0) false (LMode.dual 1) 0 (2 * 1) false).illegal = false ∧ (addressing
    (view (sg 0)) (rbank (view (sg 0)) 0) false (LMode.dual 1) 0 (2 * 1) false).badLen = false ∧ 0 % 1 = 0) ∧ meetOf (fetched (view (sg 0)) 0) 0
    (Eff.store (portSlot false) (2 * 1) (addressing (view (sg 0)) (rbank (view (sg 0)) 0) false (LMode.dual 1) 0 (2 * 1) false).addr (dValue (view (sg
    0)) (rbank (view (sg 0)) 0) 0 1)) = Meet.ok ∧ KeepsCore (view (sg 0)) (coreWrite (begun (view (sg 0)) 0) 0 (addressing (view (sg 0)) (rbank (view
    (sg 0)) 0) false (LMode.dual 1) 0 (2 * 1) false).addr (2 * 1) (dValue (view (sg 0)) (rbank (view (sg 0)) 0) 0 1)) 0 ∧ (addressing (view (sg 0))
    (rbank (view (sg 0)) 0) false (LMode.dual 1) 0 (2 * 1) false).after = some 4162) ∧
  (CoreReady (view (sg 0)) 0 ∧ ((addressing (view (sg 0)) (rbank (view (sg 0)) 0) false (LMode.dual 0) 0 (2 * 1) false).illegal = false ∧ (addressing
    (view (sg 0)) (rbank (view (sg 0)) 0) false (LMode.dual 0) 0 (2 * 1) false).badLen = false ∧ 0 % 1 = 0) ∧ meetOf (fetched (view (sg 0)) 0) 0
    (Eff.store (portSlot false) (2 * 1) (addressing (view (sg 0)) (rbank (view (sg 0)) 0) false (LMode.dual 0) 0 (2 * 1) false).addr (dValue (view (sg
    0)) (rbank (view (sg 0)) 0) 0 1)) = Meet.ok ∧ KeepsCore (view (sg 0)) (coreWrite (begun (view (sg 0)) 0) 0 (addressing (view (sg 0)) (rbank (view
    (sg 0)) 0) false (LMode.dual 0) 0 (2 * 1) false).addr (2 * 1) (dValue (view (sg 0)) (rbank (view (sg 0)) 0) 0 1)) 0 ∧ 0 < 64 ∧ (addressing (view
    (sg 0)) (rbank (view (sg 0)) 0) false (LMode.dual 0) 0 (2 * 1) false).addr < 65536 ∧ viewFrame (view (sg 0)) 0 (addressing (view (sg 0)) (rbank
    (view (sg 0)) 0) false (LMode.dual 0) 0 (2 * 1) false).addr = some 2 ∧ (0 < frameAddr 2 + (addressing (view (sg 0)) (rbank (view (sg 0)) 0) false
    (LMode.dual 0) 0 (2 * 1) false).addr % 4096 ∨ frameAddr 2 + (addressing (view (sg 0)) (rbank (view (sg 0)) 0) false (LMode.dual 0) 0 (2 * 1)
    false).addr % 4096 + 2 * 1 ≤ 0)) ∧
  (CoreReady (view (sg 0)) 0 ∧ ((addressing (view (sg 0)) (rbank (view (sg 0)) 0) false (LMode.dual 0) 0 (2 * 2) false).illegal = false ∧ (addressing
    (view (sg 0)) (rbank (view (sg 0)) 0) false (LMode.dual 0) 0 (2 * 2) false).badLen = false ∧ 0 % 2 = 0) ∧ meetOf (fetched (view (sg 0)) 0) 0
    (Eff.store (portSlot false) (2 * 2) (addressing (view (sg 0)) (rbank (view (sg 0)) 0) false (LMode.dual 0) 0 (2 * 2) false).addr (dValue (view (sg
    0)) (rbank (view (sg 0)) 0) 0 2)) = Meet.ok ∧ KeepsCore (view (sg 0)) (coreWrite (begun (view (sg 0)) 0) 0 (addressing (view (sg 0)) (rbank (view
    (sg 0)) 0) false (LMode.dual 0) 0 (2 * 2) false).addr (2 * 2) (dValue (view (sg 0)) (rbank (view (sg 0)) 0) 0 2)) 0 ∧ 1 ≠ 0) ∧
  (CoreReady (view (sg 0)) 0 ∧ ((addressing (view (sg 0)) (rbank (view (sg 0)) 0) false (LMode.dual 0) 0 (2 * 2) false).illegal = false ∧ (addressing
    (view (sg 0)) (rbank (view (sg 0)) 0) false (LMode.dual 0) 0 (2 * 2) false).badLen = false ∧ 0 % 2 = 0) ∧ meetOf (fetched (view (sg 0)) 0) 0
    (Eff.store (portSlot false) (2 * 2) (addressing (view (sg 0)) (rbank (view (sg 0)) 0) false (LMode.dual 0) 0 (2 * 2) false).addr (dValue (view (sg
    0)) (rbank (view (sg 0)) 0) 0 2)) = Meet.ok ∧ KeepsCore (view (sg 0)) (coreWrite (begun (view (sg 0)) 0) 0 (addressing (view (sg 0)) (rbank (view
    (sg 0)) 0) false (LMode.dual 0) 0 (2 * 2) false).addr (2 * 2) (dValue (view (sg 0)) (rbank (view (sg 0)) 0) 0 2)) 0 ∧ 1 ≠ rbank (coreWrite (begun
    (view (sg 0)) 0) 0 (addressing (view (sg 0)) (rbank (view (sg 0)) 0) false (LMode.dual 0) 0 (2 * 2) false).addr (2 * 2) (dValue (view (sg 0))
    (rbank (view (sg 0)) 0) 0 2)) 0) ∧
  (CoreReady (view (sg 0)) 0 ∧ ((addressing (view (sg 0)) (rbank (view (sg 0)) 0) false (LMode.dual 1) 0 (2 * 2) false).illegal = false ∧ (addressing
    (view (sg 0)) (rbank (view (sg 0)) 0) false (LMode.dual 1) 0 (2 * 2) false).badLen = false ∧ 0 % 2 = 0) ∧ meetOf (fetched (view (sg 0)) 0) 0
    (Eff.store (portSlot false) (2 * 2) (addressing (view (sg 0)) (rbank (view (sg 0)) 0) false (LMode.dual 1) 0 (2 * 2) false).addr (dValue (view (sg
    0)) (rbank (view (sg 0)) 0) 0 2)) = Meet.ok ∧ KeepsCore (view (sg 0)) (coreWrite (begun (view (sg 0)) 0) 0 (addressing (view (sg 0)) (rbank (view
    (sg 0)) 0) false (LMode.dual 1) 0 (2 * 2) false).addr (2 * 2) (dValue (view (sg 0)) (rbank (view (sg 0)) 0) 0 2)) 0 ∧ (addressing (view (sg 0))
    (rbank (view (sg 0)) 0) false (LMode.dual 1) 0 (2 * 2) false).after = some 4164) ∧
  (CoreReady (view (sg 0)) 0 ∧ ((addressing (view (sg 0)) (rbank (view (sg 0)) 0) false (LMode.dual 0) 0 (2 * 2) false).illegal = false ∧ (addressing
    (view (sg 0)) (rbank (view (sg 0)) 0) false (LMode.dual 0) 0 (2 * 2) false).badLen = false ∧ 0 % 2 = 0) ∧ meetOf (fetched (view (sg 0)) 0) 0
    (Eff.store (portSlot false) (2 * 2) (addressing (view (sg 0)) (rbank (view (sg 0)) 0) false (LMode.dual 0) 0 (2 * 2) false).addr (dValue (view (sg
    0)) (rbank (view (sg 0)) 0) 0 2)) = Meet.ok ∧ KeepsCore (view (sg 0)) (coreWrite (begun (view (sg 0)) 0) 0 (addressing (view (sg 0)) (rbank (view
    (sg 0)) 0) false (LMode.dual 0) 0 (2 * 2) false).addr (2 * 2) (dValue (view (sg 0)) (rbank (view (sg 0)) 0) 0 2)) 0 ∧ 0 < 64 ∧ (addressing (view
    (sg 0)) (rbank (view (sg 0)) 0) false (LMode.dual 0) 0 (2 * 2) false).addr < 65536 ∧ viewFrame (view (sg 0)) 0 (addressing (view (sg 0)) (rbank
    (view (sg 0)) 0) false (LMode.dual 0) 0 (2 * 2) false).addr = some 2 ∧ (0 < frameAddr 2 + (addressing (view (sg 0)) (rbank (view (sg 0)) 0) false
    (LMode.dual 0) 0 (2 * 2) false).addr % 4096 ∨ frameAddr 2 + (addressing (view (sg 0)) (rbank (view (sg 0)) 0) false (LMode.dual 0) 0 (2 * 2)
    false).addr % 4096 + 2 * 2 ≤ 0)) ∧
  (CoreReady (view (sg 0)) 0 ∧ ((addressing (view (sg 0)) (rbank (view (sg 0)) 0) false (LMode.dual 0) 0 (2 * 4) false).illegal = false ∧ (addressing
    (view (sg 0)) (rbank (view (sg 0)) 0) false (LMode.dual 0) 0 (2 * 4) false).badLen = false ∧ 0 % 4 = 0) ∧ meetOf (fetched (view (sg 0)) 0) 0
    (Eff.store (portSlot false) (2 * 4) (addressing (view (sg 0)) (rbank (view (sg 0)) 0) false (LMode.dual 0) 0 (2 * 4) false).addr (dValue (view (sg
    0)) (rbank (view (sg 0)) 0) 0 4)) = Meet.ok ∧ KeepsCore (view (sg 0)) (coreWrite (begun (view (sg 0)) 0) 0 (addressing (view (sg 0)) (rbank (view
    (sg 0)) 0) false (LMode.dual 0) 0 (2 * 4) false).addr (2 * 4) (dValue (view (sg 0)) (rbank (view (sg 0)) 0) 0 4)) 0 ∧ 1 ≠ 0) ∧
  (CoreReady (view (sg 0)) 0 ∧ ((addressing (view (sg 0)) (rbank (view (sg 0)) 0) false (LMode.dual 0) 0 (2 * 4) false).illegal = false ∧ (addressing
    (view (sg 0)) (rbank (view (sg 0)) 0) false (LMode.dual 0) 0 (2 * 4) false).badLen = false ∧ 0 % 4 = 0) ∧ meetOf (fetched (view (sg 0)) 0) 0
    (Eff.store (portSlot false) (2 * 4) (addressing (view (sg 0)) (rbank (view (sg 0)) 0) false (LMode.dual 0) 0 (2 * 4) false).addr (dValue (view (sg
    0)) (rbank (view (sg 0)) 0) 0 4)) = Meet.ok ∧ KeepsCore (view (sg 0)) (coreWrite (begun (view (sg 0)) 0) 0 (addressing (view (sg 0)) (rbank (view
    (sg 0)) 0) false (LMode.dual 0) 0 (2 * 4) false).addr (2 * 4) (dValue (view (sg 0)) (rbank (view (sg 0)) 0) 0 4)) 0 ∧ 1 ≠ rbank (coreWrite (begun
    (view (sg 0)) 0) 0 (addressing (view (sg 0)) (rbank (view (sg 0)) 0) false (LMode.dual 0) 0 (2 * 4) false).addr (2 * 4) (dValue (view (sg 0))
    (rbank (view (sg 0)) 0) 0 4)) 0) := by
  refine ⟨⟨?h1, ?h2, ?h3, ?h4, ?r1⟩, ⟨?h1, ?h2, ?h3, ?h4, ?h6, ?r2⟩, ⟨?h1, ?h9, ?h10, ?h11, ?h12⟩, ⟨?h1, ?h9, ?h10, ?h11, ?r3⟩, ⟨?h1, ?r4⟩, ⟨?h1, ?h9,
    ?h10, ?h11, ?h6, ?r5⟩, ⟨?h1, ?h21, ?h22, ?h23, ?h12⟩, ⟨?h1, ?h21, ?h22, ?h23, ?r6⟩, ⟨?h1, ?r7⟩, ⟨?h1, ?h21, ?h22, ?h23, ?h6, ?r8⟩, ⟨?h1, ?h2,
    ?h32, ?h33, ?h12⟩, ⟨?h1, ?h2, ?h32, ?h33, ?r9⟩⟩
  all_goals try unfold CoreReady
  all_goals try unfold KeepsCore
  all_goals try decide +kernel
  all_goals repeat' apply And.intro
  all_goals first
    | decide +kernel
    | exact same_values _ _ _ (by decide +kernel)
    | exact every_value _ _ (fun v => v = 0) (by decide +kernel)

/-- States and operands that meet the hypotheses of LoadsAndStoresMoveTheirBytes, clause by clause: each group in parentheses meets
those of one clause together. -/
theorem test_meets_LoadsAndStoresMoveTheirBytes_3 :
  (CoreReady (view (sg 0)) 0 ∧ ((addressing (view (sg 0)) (rbank (view (sg 0)) 0) false (LMode.dual 1) 0 (2 * 4) false).illegal = false ∧ (addressing
    (view (sg 0)) (rbank (view (sg 0)) 0) false (LMode.dual 1) 0 (2 * 4) false).badLen = false ∧ 0 % 4 = 0) ∧ meetOf (fetched (view (sg 0)) 0) 0
    (Eff.store (portSlot false) (2 * 4) (addressing (view (sg 0)) (rbank (view (sg 0)) 0) false (LMode.dual 1) 0 (2 * 4) false).addr (dValue (view (sg
    0)) (rbank (view (sg 0)) 0) 0 4)) = Meet.ok ∧ KeepsCore (view (sg 0)) (coreWrite (begun (view (sg 0)) 0) 0 (addressing (view (sg 0)) (rbank (view
    (sg 0)) 0) false (LMode.dual 1) 0 (2 * 4) false).addr (2 * 4) (dValue (view (sg 0)) (rbank (view (sg 0)) 0) 0 4)) 0 ∧ (addressing (view (sg 0))
    (rbank (view (sg 0)) 0) false (LMode.dual 1) 0 (2 * 4) false).after = some 4168) ∧
  (CoreReady (view (sg 0)) 0 ∧ ((addressing (view (sg 0)) (rbank (view (sg 0)) 0) false (LMode.dual 0) 0 (2 * 4) false).illegal = false ∧ (addressing
    (view (sg 0)) (rbank (view (sg 0)) 0) false (LMode.dual 0) 0 (2 * 4) false).badLen = false ∧ 0 % 4 = 0) ∧ meetOf (fetched (view (sg 0)) 0) 0
    (Eff.store (portSlot false) (2 * 4) (addressing (view (sg 0)) (rbank (view (sg 0)) 0) false (LMode.dual 0) 0 (2 * 4) false).addr (dValue (view (sg
    0)) (rbank (view (sg 0)) 0) 0 4)) = Meet.ok ∧ KeepsCore (view (sg 0)) (coreWrite (begun (view (sg 0)) 0) 0 (addressing (view (sg 0)) (rbank (view
    (sg 0)) 0) false (LMode.dual 0) 0 (2 * 4) false).addr (2 * 4) (dValue (view (sg 0)) (rbank (view (sg 0)) 0) 0 4)) 0 ∧ 0 < 64 ∧ (addressing (view
    (sg 0)) (rbank (view (sg 0)) 0) false (LMode.dual 0) 0 (2 * 4) false).addr < 65536 ∧ viewFrame (view (sg 0)) 0 (addressing (view (sg 0)) (rbank
    (view (sg 0)) 0) false (LMode.dual 0) 0 (2 * 4) false).addr = some 2 ∧ (0 < frameAddr 2 + (addressing (view (sg 0)) (rbank (view (sg 0)) 0) false
    (LMode.dual 0) 0 (2 * 4) false).addr % 4096 ∨ frameAddr 2 + (addressing (view (sg 0)) (rbank (view (sg 0)) 0) false (LMode.dual 0) 0 (2 * 4)
    false).addr % 4096 + 2 * 4 ≤ 0)) ∧
  (CoreReady (view (sg 0)) 0 ∧ 1 ≠ rbank (view (sg 0)) 0) := by
  refine ⟨⟨?h1, ?r1⟩, ⟨?h1, ?r2⟩, ⟨?h1, ?r3⟩⟩
  all_goals try unfold CoreReady
  all_goals try unfold KeepsCore
  all_goals try decide +kernel
  all_goals repeat' apply And.intro
  all_goals first
    | decide +kernel
    | exact same_values _ _ _ (by decide +kernel)
    | exact every_value _ _ (fun v => v = 0) (by decide +kernel)

end Memory

namespace Flow

def lpp (s : State) (b a d l lc : Nat) : State := puts s [(I.act, b, a), (I.dly, b, d), (I.btaken, b, 1), (I.btgt, b, 0x21000403), (I.le, 2 * b, if l = 1 then s.rd I.pcb b else 5), (I.lc, 2 * b, lc), (I.ls, 2 * b, 0x21000040), (I.rot, b, a)]
def g04ds0 : State := lpp (sg 0) 0 1 0 1 1
def g04ds1 : State := lpp (sg 0) 0 1 0 1 5
def g04ds3 : State := lpp (sg 0) 0 0 1 0 0

/-- States and operands that meet the hypotheses of BranchesTakeEffectAfterTwoDelayBundles, clause by clause: each group in parentheses meets
those of one clause together. -/
theorem test_meets_BranchesTakeEffectAfterTwoDelayBundles :
  (CoreReady (view (sg 0)) 0 ∧ 0 ≠ 15 ∧ 1 ≠ 0) ∧
  (CoreReady (view (sg 0)) 0 ∧ 0 ≠ 15 ∧ 1 ≠ rbank (view (sg 0)) 0) ∧
  (CoreReady (view (sg 0)) 0 ∧ readP (view (sg 0)) (rbank (view (sg 0)) 0) 0 % 4 = 0 ∧ 1 ≠ 0) ∧
  (CoreReady (view (sg 0)) 0 ∧ readP (view (sg 0)) (rbank (view (sg 0)) 0) 0 % 4 = 0 ∧ 1 ≠ rbank (view (sg 0)) 0) := by
  refine ⟨⟨?h1, ?h2, ?h3⟩, ⟨?h1, ?h2, ?h4⟩, ⟨?h1, ?h5, ?h3⟩, ⟨?h1, ?h5, ?h4⟩⟩
  all_goals try unfold CoreReady
  all_goals try decide +kernel
  all_goals repeat' apply And.intro
  all_goals first
    | decide +kernel
    | exact every_value _ _ (fun v => v = 0) (by decide +kernel)

/-- States and operands that meet the hypotheses of LoopsCountTheirBodies, clause by clause: each group in parentheses meets
those of one clause together. -/
theorem test_meets_LoopsCountTheirBodies :
  (CoreAwake (view (sg 0)) 0 ∧ (view (sg 0)).rd I.dly (rbank (view (sg 0)) 0) = 0 ∧ (view (sg 0)).rd I.act (rbank (view (sg 0)) 0) ≠ 3 ∧ atLoopEnd (view
    (sg 0)) (rbank (view (sg 0)) 0) 0 = false ∧ atLoopEnd (view (sg 0)) (rbank (view (sg 0)) 0) 1 = false ∧ 1 ≠ 0 ∧ 1 ≠ rbank (view (sg 0)) 0) ∧
  (CoreAwake g04ds1 0 ∧ g04ds1.rd I.dly (rbank g04ds1 0) = 0 ∧ g04ds1.rd I.act (rbank g04ds1 0) = 1 ∧ g04ds1.rd I.le (2 * rbank g04ds1 0) = pcOf g04ds1
    0 ∧ 1 < g04ds1.rd I.lc (2 * rbank g04ds1 0)) ∧
  (CoreAwake g04ds0 0 ∧ g04ds0.rd I.dly (rbank g04ds0 0) = 0 ∧ g04ds0.rd I.act (rbank g04ds0 0) = 1 ∧ g04ds0.rd I.le (2 * rbank g04ds0 0) = pcOf g04ds0
    0 ∧ g04ds0.rd I.lc (2 * rbank g04ds0 0) = 1) ∧
  (CoreAwake g04ds3 0 ∧ g04ds3.rd I.act (rbank g04ds3 0) = 0 ∧ g04ds3.rd I.dly (rbank g04ds3 0) = 1 ∧ g04ds3.rd I.btaken (rbank g04ds3 0) = 1) := by
  refine ⟨?r1, ?r2, ?r3, ?r4⟩
  all_goals try unfold CoreAwake
  all_goals try decide +kernel
  all_goals repeat' apply And.intro
  all_goals first
    | decide +kernel
    | exact every_value _ _ (fun v => v = 0) (by decide +kernel)

/-- States and operands that meet the hypotheses of SyllablesIssueAsOneBundle, clause by clause: each group in parentheses meets
those of one clause together. -/
theorem test_meets_SyllablesIssueAsOneBundle :
  (CoreReady (view (sg 0)) 0 ∧ bitOf ((view (sg 0)).rd I.cmode (rbank (view (sg 0)) 0)) 15 = false ∧ (fetchAddr (fetched (view (sg 0)) 0) 0 (pcOf (view
    (sg 0)) 0 + 4)).isSome = true ∧ 1 ≠ 0) ∧
  (CoreReady (view (sg 0)) 0 ∧ bitOf ((view (sg 0)).rd I.cmode (rbank (view (sg 0)) 0)) 15 = false ∧ (fetchAddr (fetched (view (sg 0)) 0) 0 (pcOf (view
    (sg 0)) 0 + 4)).isSome = true ∧ 1 ≠ rbank (view (sg 0)) 0) := by
  refine ⟨⟨?h1, ?h2, ?h3, ?r1⟩, ⟨?h1, ?h2, ?h3, ?r2⟩⟩
  all_goals try unfold CoreReady
  all_goals try decide +kernel
  all_goals repeat' apply And.intro
  all_goals first
    | decide +kernel
    | exact every_value _ _ (fun v => v = 0) (by decide +kernel)

end Flow

namespace Jobs

def dr : State := puts (view (sg 0)) [(I.mapLvl, 16 * 5 + 3, 2), (I.p, 2, 0x3004), (I.d, 4, 0x3004), (I.d, 5, 0), (I.d,0,7),(I.d,1,0x8000),(F.TSU_T_STAT_STATE, 7, tWAIT), (F.TSU_T_FLAGS_FLAGS, 7, 3), (I.d, 2, 9), (I.d, 3, 1), (F.TSU_TRCCFG_EN, 0, 0)]
def jb1 : State := puts dr [(I.obusy, 0, 1)]
def qs (prod cons : List QWord) (sw : Bool) : Queue := ⟨prod, cons, 0, 0, false, false, 0, sw⟩
def q1 (s : State) : State := ((s.setQueue 3 (qs [⟨5, false⟩] [⟨0x12345678, true⟩, ⟨9, false⟩] false)).setQueue 255 (qs [] [⟨1, false⟩] false)).setQueue 0 (qs [] [] true)

/-- States and operands that meet the hypotheses of JobsEndYieldAndSignal, clause by clause: each group in parentheses meets
those of one clause together. -/
theorem test_meets_JobsEndYieldAndSignal :
  (0 < 64 ∧ (base mSERVICE).rd I.cJob = 0 ∧ (base mSERVICE).serving = true) ∧
  (CoreReady (sg 0) 0 ∧ 0 < 64 ∧ isLate (sg 0) ((sg 0).rd I.cJob - 1) = false ∧ (sg 0).rd F.TSU_TRCCFG_EN = 0 ∧ (sg 0).queues = [] ∧ framesFor (sg 0)
    ((sg 0).rd I.cJob - 1) = [] ∧ ((sg 0).on F.TSU_T_CFG_EN ((sg 0).rd I.cJob - 1) && condition (sg 0) ((sg 0).rd I.cJob - 1)) = false) ∧
  (CoreReady (sg 0) 0 ∧ 0 < 64 ∧ (sg 0).rd I.obusy = 0 ∧ (sg 0).rd I.cNext = 0 ∧ (sg 0).rd F.TSU_CTRL_RUN = 0) ∧
  (CoreReady jb1 0 ∧ 0 < 64 ∧ jb1.rd I.obusy = 1 ∧ 1 ≠ 0) ∧
  (CoreReady jb1 0 ∧ 0 < 64 ∧ jb1.rd I.obusy = 1 ∧ 1 ≠ rbank jb1 0) ∧
  (CoreReady dr 0 ∧ 0 < 64 ∧ taskSt dr (readWord dr (rbank dr 0) 0 % 65536) ≠ tEMPTY ∧ 1 ≠ 0) ∧
  (CoreReady dr 0 ∧ 0 < 64 ∧ taskSt dr (readWord dr (rbank dr 0) 0 % 65536) ≠ tEMPTY ∧ 1 ≠ rbank dr 0) ∧
  (CoreReady (sg 0) 0 ∧ 0 < 64 ∧ taskSt (sg 0) (readWord (sg 0) (rbank (sg 0) 0) 0 % 65536) = tEMPTY ∧ 1 ≠ 0) ∧
  (CoreReady (sg 0) 0 ∧ 0 < 64 ∧ taskSt (sg 0) (readWord (sg 0) (rbank (sg 0) 0) 0 % 65536) = tEMPTY ∧ 1 ≠ rbank (sg 0) 0) ∧
  (CoreReady (sg 0) 0 ∧ 0 < 64 ∧ (65536 ≤ readWord (sg 0) (rbank (sg 0) 0) 0 ∨ (sg 0).rd I.jCv ((sg 0).rd I.cJob - 1) = 0 ∨ notPresent (sg 0) ((sg 0).rd
    I.jCid ((sg 0).rd I.cJob - 1)) (readWord (sg 0) (rbank (sg 0) 0) 0 / 4096) = true ∨ ((framesOn (sg 0) 0 ((sg 0).rd I.jCid ((sg 0).rd I.cJob - 1))
    (readWord (sg 0) (rbank (sg 0) 0) 0 / 4096)).any fun i => ownedBy (sg 0) i ((sg 0).rd I.cJob - 1)) = true) ∧ 1 ≠ 0) ∧
  (CoreReady (sg 0) 0 ∧ 0 < 64 ∧ (65536 ≤ readWord (sg 0) (rbank (sg 0) 0) 0 ∨ (sg 0).rd I.jCv ((sg 0).rd I.cJob - 1) = 0 ∨ notPresent (sg 0) ((sg 0).rd
    I.jCid ((sg 0).rd I.cJob - 1)) (readWord (sg 0) (rbank (sg 0) 0) 0 / 4096) = true ∨ ((framesOn (sg 0) 0 ((sg 0).rd I.jCid ((sg 0).rd I.cJob - 1))
    (readWord (sg 0) (rbank (sg 0) 0) 0 / 4096)).any fun i => ownedBy (sg 0) i ((sg 0).rd I.cJob - 1)) = true) ∧ 1 ≠ rbank (sg 0) 0) ∧
  (CoreReady dr 0 ∧ 0 < 64 ∧ readWord dr (rbank dr 0) 2 < 65536 ∧ dr.rd I.jCv (dr.rd I.cJob - 1) = 1 ∧ lvl dr (dr.rd I.jCid (dr.rd I.cJob - 1))
    (readWord dr (rbank dr 0) 2 / 4096) = 2 ∧ (((framesOn dr 0 (dr.rd I.jCid (dr.rd I.cJob - 1)) (readWord dr (rbank dr 0) 2 / 4096)).any fun i =>
    ownedBy dr i (dr.rd I.cJob - 1)) = false) ∧ (∀ (j : ℕ), dr.rd I.jTouch j = 0) ∧ popcount 16 (setBit ((dr.rd I.jWs (dr.rd I.cJob - 1)).lor (dr.rd
    I.stSet (dr.rd I.cJob - 1))) (readWord dr (rbank dr 0) 2 / 4096)) ≤ 8 ∧ 1 ≠ 0) ∧
  (CoreReady dr 0 ∧ 0 < 64 ∧ readWord dr (rbank dr 0) 2 < 65536 ∧ dr.rd I.jCv (dr.rd I.cJob - 1) = 1 ∧ lvl dr (dr.rd I.jCid (dr.rd I.cJob - 1))
    (readWord dr (rbank dr 0) 2 / 4096) = 2 ∧ (((framesOn dr 0 (dr.rd I.jCid (dr.rd I.cJob - 1)) (readWord dr (rbank dr 0) 2 / 4096)).any fun i =>
    ownedBy dr i (dr.rd I.cJob - 1)) = false) ∧ (∀ (j : ℕ), dr.rd I.jTouch j = 0) ∧ popcount 16 (setBit ((dr.rd I.jWs (dr.rd I.cJob - 1)).lor (dr.rd
    I.stSet (dr.rd I.cJob - 1))) (readWord dr (rbank dr 0) 2 / 4096)) ≤ 8 ∧ 1 ≠ rbank dr 0) := by
  refine ⟨⟨?h1, ?r1⟩, ⟨?h4, ?h1, ?r2⟩, ⟨?h4, ?h1, ?r3⟩, ⟨?h13, ?h1, ?h14, ?h15⟩, ⟨?h13, ?h1, ?h14, ?r4⟩, ⟨?h17, ?h1, ?h18, ?h15⟩, ⟨?h17, ?h1, ?h18,
    ?h19⟩, ⟨?h4, ?h1, ?h20, ?h15⟩, ⟨?h4, ?h1, ?h20, ?h21⟩, ⟨?h4, ?h1, ?h22, ?h15⟩, ⟨?h4, ?h1, ?h22, ?h21⟩, ⟨?h17, ?h1, ?h23, ?h24, ?h25, ?h26, ?h27,
    ?h28, ?h15⟩, ⟨?h17, ?h1, ?h23, ?h24, ?h25, ?h26, ?h27, ?h28, ?h19⟩⟩
  all_goals try unfold CoreReady
  all_goals try decide +kernel
  all_goals repeat' apply And.intro
  all_goals first
    | decide +kernel
    | exact every_value _ _ (fun v => v = 0) (by decide +kernel)

/-- States and operands that meet the hypotheses of QueueInstructionsTransferWords, clause by clause: each group in parentheses meets
those of one clause together. -/
theorem test_meets_QueueInstructionsTransferWords :
  (CoreReady (q1 (sg 0)) 0 ∧ ((q1 (sg 0)).queue (queueNo (q1 (sg 0)) (rbank (q1 (sg 0)) 0) (QSel.num 3))).canRead = true ∧ 1 ≠ 0) ∧
  (CoreReady (q1 (sg 0)) 0 ∧ ((q1 (sg 0)).queue (queueNo (q1 (sg 0)) (rbank (q1 (sg 0)) 0) (QSel.num 3))).canRead = true ∧ 1 ≠ rbank ((servePort (begun
    (q1 (sg 0)) 0) 0).setQueue (queueNo (q1 (sg 0)) (rbank (q1 (sg 0)) 0) (QSel.num 3)) (((q1 (sg 0)).queue (queueNo (q1 (sg 0)) (rbank (q1 (sg 0)) 0)
    (QSel.num 3))).read (if 64 ≤ 0 then 65537 + (0 - 64) else (q1 (sg 0)).rd I.cJob)).2) 0) ∧
  (CoreReady (sg 0) 0 ∧ ((sg 0).queue (queueNo (sg 0) (rbank (sg 0) 0) (QSel.num 3))).canRead = false ∧ 1 ≠ 0) ∧
  (CoreReady (sg 0) 0 ∧ ((sg 0).queue (queueNo (sg 0) (rbank (sg 0) 0) (QSel.num 3))).canRead = false ∧ 1 ≠ rbank (begun (sg 0) 0) 0) ∧
  (CoreReady (sg 0) 0 ∧ ((sg 0).queue (queueNo (sg 0) (rbank (sg 0) 0) (QSel.num 3))).canWrite = true ∧ 1 ≠ 0) ∧
  (CoreReady (sg 0) 0 ∧ ((sg 0).queue (queueNo (sg 0) (rbank (sg 0) 0) (QSel.num 3))).canWrite = true ∧ (1 ≠ rbank ((servePort (begun (sg 0) 0)
    0).setQueue (queueNo (sg 0) (rbank (sg 0) 0) (QSel.num 3)) (if ((false || ((sg 0).queue (queueNo (sg 0) (rbank (sg 0) 0) (QSel.num
    3))).partialWords.length == 255) && ((sg 0).queue (queueNo (sg 0) (rbank (sg 0) 0) (QSel.num 3))).flush && !((sg 0).queue (queueNo (sg 0) (rbank
    (sg 0) 0) (QSel.num 3))).fixed) = true then Queue.mk (Queue.mk (((sg 0).queue (queueNo (sg 0) (rbank (sg 0) 0) (QSel.num 3))).prod ++ [QWord.mk
    (readWord (sg 0) (rbank (sg 0) 0) 0) (false || ((sg 0).queue (queueNo (sg 0) (rbank (sg 0) 0) (QSel.num 3))).partialWords.length == 255)]) ((sg
    0).queue (queueNo (sg 0) (rbank (sg 0) 0) (QSel.num 3))).cons (if (false || ((sg 0).queue (queueNo (sg 0) (rbank (sg 0) 0) (QSel.num
    3))).partialWords.length == 255) = true then 0 else if 64 ≤ 0 then 65537 + (0 - 64) else (sg 0).rd I.cJob) ((sg 0).queue (queueNo (sg 0) (rbank
    (sg 0) 0) (QSel.num 3))).reader ((sg 0).queue (queueNo (sg 0) (rbank (sg 0) 0) (QSel.num 3))).flush ((sg 0).queue (queueNo (sg 0) (rbank (sg 0) 0)
    (QSel.num 3))).fixed ((sg 0).queue (queueNo (sg 0) (rbank (sg 0) 0) (QSel.num 3))).flushN ((sg 0).queue (queueNo (sg 0) (rbank (sg 0) 0) (QSel.num
    3))).swap).prod (Queue.mk (((sg 0).queue (queueNo (sg 0) (rbank (sg 0) 0) (QSel.num 3))).prod ++ [QWord.mk (readWord (sg 0) (rbank (sg 0) 0) 0)
    (false || ((sg 0).queue (queueNo (sg 0) (rbank (sg 0) 0) (QSel.num 3))).partialWords.length == 255)]) ((sg 0).queue (queueNo (sg 0) (rbank (sg 0)
    0) (QSel.num 3))).cons (if (false || ((sg 0).queue (queueNo (sg 0) (rbank (sg 0) 0) (QSel.num 3))).partialWords.length == 255) = true then 0 else
    if 64 ≤ 0 then 65537 + (0 - 64) else (sg 0).rd I.cJob) ((sg 0).queue (queueNo (sg 0) (rbank (sg 0) 0) (QSel.num 3))).reader ((sg 0).queue (queueNo
    (sg 0) (rbank (sg 0) 0) (QSel.num 3))).flush ((sg 0).queue (queueNo (sg 0) (rbank (sg 0) 0) (QSel.num 3))).fixed ((sg 0).queue (queueNo (sg 0)
    (rbank (sg 0) 0) (QSel.num 3))).flushN ((sg 0).queue (queueNo (sg 0) (rbank (sg 0) 0) (QSel.num 3))).swap).cons (Queue.mk (((sg 0).queue (queueNo
    (sg 0) (rbank (sg 0) 0) (QSel.num 3))).prod ++ [QWord.mk (readWord (sg 0) (rbank (sg 0) 0) 0) (false || ((sg 0).queue (queueNo (sg 0) (rbank (sg
    0) 0) (QSel.num 3))).partialWords.length == 255)]) ((sg 0).queue (queueNo (sg 0) (rbank (sg 0) 0) (QSel.num 3))).cons (if (false || ((sg 0).queue
    (queueNo (sg 0) (rbank (sg 0) 0) (QSel.num 3))).partialWords.length == 255) = true then 0 else if 64 ≤ 0 then 65537 + (0 - 64) else (sg 0).rd
    I.cJob) ((sg 0).queue (queueNo (sg 0) (rbank (sg 0) 0) (QSel.num 3))).reader ((sg 0).queue (queueNo (sg 0) (rbank (sg 0) 0) (QSel.num 3))).flush
    ((sg 0).queue (queueNo (sg 0) (rbank (sg 0) 0) (QSel.num 3))).fixed ((sg 0).queue (queueNo (sg 0) (rbank (sg 0) 0) (QSel.num 3))).flushN ((sg
    0).queue (queueNo (sg 0) (rbank (sg 0) 0) (QSel.num 3))).swap).writer (Queue.mk (((sg 0).queue (queueNo (sg 0) (rbank (sg 0) 0) (QSel.num
    3))).prod ++ [QWord.mk (readWord (sg 0) (rbank (sg 0) 0) 0) (false || ((sg 0).queue (queueNo (sg 0) (rbank (sg 0) 0) (QSel.num
    3))).partialWords.length == 255)]) ((sg 0).queue (queueNo (sg 0) (rbank (sg 0) 0) (QSel.num 3))).cons (if (false || ((sg 0).queue (queueNo (sg 0)
    (rbank (sg 0) 0) (QSel.num 3))).partialWords.length == 255) = true then 0 else if 64 ≤ 0 then 65537 + (0 - 64) else (sg 0).rd I.cJob) ((sg
    0).queue (queueNo (sg 0) (rbank (sg 0) 0) (QSel.num 3))).reader ((sg 0).queue (queueNo (sg 0) (rbank (sg 0) 0) (QSel.num 3))).flush ((sg 0).queue
    (queueNo (sg 0) (rbank (sg 0) 0) (QSel.num 3))).fixed ((sg 0).queue (queueNo (sg 0) (rbank (sg 0) 0) (QSel.num 3))).flushN ((sg 0).queue (queueNo
    (sg 0) (rbank (sg 0) 0) (QSel.num 3))).swap).reader (Queue.mk (((sg 0).queue (queueNo (sg 0) (rbank (sg 0) 0) (QSel.num 3))).prod ++ [QWord.mk
    (readWord (sg 0) (rbank (sg 0) 0) 0) (false || ((sg 0).queue (queueNo (sg 0) (rbank (sg 0) 0) (QSel.num 3))).partialWords.length == 255)]) ((sg
    0).queue (queueNo (sg 0) (rbank (sg 0) 0) (QSel.num 3))).cons (if (false || ((sg 0).queue (queueNo (sg 0) (rbank (sg 0) 0) (QSel.num
    3))).partialWords.length == 255) = true then 0 else if 64 ≤ 0 then 65537 + (0 - 64) else (sg 0).rd I.cJob) ((sg 0).queue (queueNo (sg 0) (rbank
    (sg 0) 0) (QSel.num 3))).reader ((sg 0).queue (queueNo (sg 0) (rbank (sg 0) 0) (QSel.num 3))).flush ((sg 0).queue (queueNo (sg 0) (rbank (sg 0) 0)
    (QSel.num 3))).fixed ((sg 0).queue (queueNo (sg 0) (rbank (sg 0) 0) (QSel.num 3))).flushN ((sg 0).queue (queueNo (sg 0) (rbank (sg 0) 0) (QSel.num
    3))).swap).flush true (Queue.mk (((sg 0).queue (queueNo (sg 0) (rbank (sg 0) 0) (QSel.num 3))).prod ++ [QWord.mk (readWord (sg 0) (rbank (sg 0) 0)
    0) (false || ((sg 0).queue (queueNo (sg 0) (rbank (sg 0) 0) (QSel.num 3))).partialWords.length == 255)]) ((sg 0).queue (queueNo (sg 0) (rbank (sg
    0) 0) (QSel.num 3))).cons (if (false || ((sg 0).queue (queueNo (sg 0) (rbank (sg 0) 0) (QSel.num 3))).partialWords.length == 255) = true then 0
    else if 64 ≤ 0 then 65537 + (0 - 64) else (sg 0).rd I.cJob) ((sg 0).queue (queueNo (sg 0) (rbank (sg 0) 0) (QSel.num 3))).reader ((sg 0).queue
    (queueNo (sg 0) (rbank (sg 0) 0) (QSel.num 3))).flush ((sg 0).queue (queueNo (sg 0) (rbank (sg 0) 0) (QSel.num 3))).fixed ((sg 0).queue (queueNo
    (sg 0) (rbank (sg 0) 0) (QSel.num 3))).flushN ((sg 0).queue (queueNo (sg 0) (rbank (sg 0) 0) (QSel.num 3))).swap).count (Queue.mk (((sg 0).queue
    (queueNo (sg 0) (rbank (sg 0) 0) (QSel.num 3))).prod ++ [QWord.mk (readWord (sg 0) (rbank (sg 0) 0) 0) (false || ((sg 0).queue (queueNo (sg 0)
    (rbank (sg 0) 0) (QSel.num 3))).partialWords.length == 255)]) ((sg 0).queue (queueNo (sg 0) (rbank (sg 0) 0) (QSel.num 3))).cons (if (false ||
    ((sg 0).queue (queueNo (sg 0) (rbank (sg 0) 0) (QSel.num 3))).partialWords.length == 255) = true then 0 else if 64 ≤ 0 then 65537 + (0 - 64) else
    (sg 0).rd I.cJob) ((sg 0).queue (queueNo (sg 0) (rbank (sg 0) 0) (QSel.num 3))).reader ((sg 0).queue (queueNo (sg 0) (rbank (sg 0) 0) (QSel.num
    3))).flush ((sg 0).queue (queueNo (sg 0) (rbank (sg 0) 0) (QSel.num 3))).fixed ((sg 0).queue (queueNo (sg 0) (rbank (sg 0) 0) (QSel.num
    3))).flushN ((sg 0).queue (queueNo (sg 0) (rbank (sg 0) 0) (QSel.num 3))).swap).swap else Queue.mk (((sg 0).queue (queueNo (sg 0) (rbank (sg 0) 0)
    (QSel.num 3))).prod ++ [QWord.mk (readWord (sg 0) (rbank (sg 0) 0) 0) (false || ((sg 0).queue (queueNo (sg 0) (rbank (sg 0) 0) (QSel.num
    3))).partialWords.length == 255)]) ((sg 0).queue (queueNo (sg 0) (rbank (sg 0) 0) (QSel.num 3))).cons (if (false || ((sg 0).queue (queueNo (sg 0)
    (rbank (sg 0) 0) (QSel.num 3))).partialWords.length == 255) = true then 0 else if 64 ≤ 0 then 65537 + (0 - 64) else (sg 0).rd I.cJob) ((sg
    0).queue (queueNo (sg 0) (rbank (sg 0) 0) (QSel.num 3))).reader ((sg 0).queue (queueNo (sg 0) (rbank (sg 0) 0) (QSel.num 3))).flush ((sg 0).queue
    (queueNo (sg 0) (rbank (sg 0) 0) (QSel.num 3))).fixed ((sg 0).queue (queueNo (sg 0) (rbank (sg 0) 0) (QSel.num 3))).flushN ((sg 0).queue (queueNo
    (sg 0) (rbank (sg 0) 0) (QSel.num 3))).swap)) 0)) ∧
  (CoreReady (q1 (sg 0)) 0 ∧ ((q1 (sg 0)).queue (queueNo (q1 (sg 0)) (rbank (q1 (sg 0)) 0) (QSel.num 0))).canWrite = false ∧ 1 ≠ 0) ∧
  (CoreReady (q1 (sg 0)) 0 ∧ ((q1 (sg 0)).queue (queueNo (q1 (sg 0)) (rbank (q1 (sg 0)) 0) (QSel.num 0))).canWrite = false ∧ 1 ≠ rbank (begun (q1 (sg
    0)) 0) 0) ∧
  (CoreReady (sg 0) 0 ∧ ((sg 0).queue (queueNo (sg 0) (rbank (sg 0) 0) (QSel.num 3))).canRead = false ∧ (qs [] [QWord.mk 2147483649 true] false).canRead
    = true) := by
  refine ⟨⟨?h1, ?h2, ?h3⟩, ⟨?h1, ?h2, ?r1⟩, ⟨?h5, ?h6, ?h3⟩, ⟨?h5, ?h6, ?r2⟩, ⟨?h5, ?h8, ?h3⟩, ⟨?h5, ?h8, ?r3⟩, ⟨?h1, ?h10, ?h3⟩, ⟨?h1, ?h10, ?r4⟩,
    ⟨?h5, ?h6, ?r5⟩⟩
  all_goals try unfold CoreReady
  all_goals try decide +kernel
  all_goals repeat' apply And.intro
  all_goals first
    | decide +kernel
    | exact every_value _ _ (fun v => v = 0) (by decide +kernel)

end Jobs

namespace Maint

def dl (d : Bool) : DLine := ⟨List.replicate 64 3, d, 65, [65, 64]⟩
def sv1 : State := { puts (sv 5) [(I.scr, 16, 0xC1), (I.p, 16 * 130 + 2, 0x20001000), (I.p, 16 * 130 + 15, 0x20001044), (I.linkV, 1, 1), (I.linkA, 1, 0x20001000)] with
   dLines := [(0x20001000, dl true)], iLines := [(65, [0x20001000, 0x20001040])], tlbs := [(65, [⟨0x20001, 3, 0x1F⟩, ⟨0x5, 0, 0x0F⟩])] }
def svu : State := puts (sv 5) [(I.scr, 16, 0), (I.scr, 22, 3), (I.scr, 19, 0x20000207), (I.scr, 23, 0x3F)]
def tr : State := puts (sg 0) [(I.tcause, 0, 0x80000901), (I.tds, 0, 0x2D), (I.trpc, 0, 0x21000033), (I.trapv, 0, 0x21000800)]
def ar (s : State) (b : Nat) : State := puts s [(I.arith, b, 3), (I.trapv, 0, 0x21000801)]
def irq : State := puts (sv 5) [(I.scr, 16, 3), (I.scr, 17, 0x20004000), (F.SIC_SRC_CFG_EN, 0, 1), (F.SIC_SRC_CFG_EN, 145, 1), (F.SIC_SRC_CFG_TARGET, 0, 2), (F.SIC_SRC_CFG_TARGET, 145, 15), (F.SIC_SRC_CFG_PRIO, 0, 5), (F.SIC_SRC_CFG_PRIO, 145, 5), (F.SIC_SWSRC_SW, 0, 2), (I.sicOwn, 5, 2), (F.SIC_SRC_CFG_INSVC, 5, 1), (F.SIC_THRESH_THRESH, 1, 63), (F.SYS_ERRINFO_VALID, 0, 1)]

/-- States and operands that meet the hypotheses of LinkedAccessesAndMaintenance, clause by clause: each group in parentheses meets
those of one clause together. -/
theorem test_meets_LinkedAccessesAndMaintenance_1 :
  (CoreReady (sv 5) 65 ∧ 64 ≤ 65 ∧ 16 ≤ 18 ∧ Machine.translate (fetched (sv 5) 65) 65 (readWord (sv 5) (rbank (sv 5) 65) 18) Want.load = some
    (1073741952, 2) ∧ meetOf (fetched (sv 5) 65) 65 (Eff.act (Act.ldlk (readWord (sv 5) (rbank (sv 5) 65) 18) 0)) = Meet.ok ∧ KeepsCore (sv 5)
    (ldlkAct (begun (sv 5) 65) 65 (readWord (sv 5) (rbank (sv 5) 65) 18)).2 65 ∧ 0 ≠ 65) ∧
  (CoreReady (sv 5) 65 ∧ 64 ≤ 65 ∧ 16 ≤ 18 ∧ Machine.translate (fetched (sv 5) 65) 65 (readWord (sv 5) (rbank (sv 5) 65) 18) Want.load = some
    (1073741952, 2) ∧ meetOf (fetched (sv 5) 65) 65 (Eff.act (Act.ldlk (readWord (sv 5) (rbank (sv 5) 65) 18) 0)) = Meet.ok ∧ KeepsCore (sv 5)
    (ldlkAct (begun (sv 5) 65) 65 (readWord (sv 5) (rbank (sv 5) 65) 18)).2 65 ∧ 0 ≠ rbank (ldlkAct (begun (sv 5) 65) 65 (readWord (sv 5) (rbank (sv
    5) 65) 18)).2 65) ∧
  (CoreReady (sv 5) 65 ∧ 64 ≤ 65 ∧ 16 ≤ 18 ∧ meetOf (fetched (sv 5) 65) 65 (Eff.act (Act.stcn (readWord (sv 5) (rbank (sv 5) 65) 18) (readWord (sv 5)
    (rbank (sv 5) 65) 0) 0)) = Meet.ok ∧ stcnGoes (fetched (sv 5) 65) 65 (readWord (sv 5) (rbank (sv 5) 65) 18) = false ∧ 0 ≠ 65) ∧
  (CoreReady (sv 5) 65 ∧ 64 ≤ 65 ∧ 16 ≤ 18 ∧ meetOf (fetched (sv 5) 65) 65 (Eff.act (Act.stcn (readWord (sv 5) (rbank (sv 5) 65) 18) (readWord (sv 5)
    (rbank (sv 5) 65) 0) 0)) = Meet.ok ∧ stcnGoes (fetched (sv 5) 65) 65 (readWord (sv 5) (rbank (sv 5) 65) 18) = false ∧ 0 ≠ rbank (sv 5) 65) ∧
  (CoreReady (sv 5) 65 ∧ 64 ≤ 65 ∧ bitOf ((sv 5).rd I.scr (16 * (65 - 64))) 0 = true ∧ Machine.translate (fetched (sv 5) 65) 65 (readWord (sv 5) (rbank
    (sv 5) 65) 0) Want.any = some (2939813632, 2) ∧ meetOf (fetched (sv 5) 65) 65 (Eff.act (Act.cacheLine 0 (readWord (sv 5) (rbank (sv 5) 65) 0))) =
    Meet.ok ∧ 0 ≠ 65) ∧
  (CoreReady (sv 5) 65 ∧ 64 ≤ 65 ∧ bitOf ((sv 5).rd I.scr (16 * (65 - 64))) 0 = true ∧ Machine.translate (fetched (sv 5) 65) 65 (readWord (sv 5) (rbank
    (sv 5) 65) 0) Want.any = some (2939813632, 2) ∧ meetOf (fetched (sv 5) 65) 65 (Eff.act (Act.cacheLine 0 (readWord (sv 5) (rbank (sv 5) 65) 0))) =
    Meet.ok ∧ 0 ≠ rbank (sv 5) 65) ∧
  (CoreReady sv1 65 ∧ 64 ≤ 65 ∧ bitOf (sv1.rd I.scr (16 * (65 - 64))) 0 = true ∧ Machine.translate (fetched sv1 65) 65 (readWord sv1 (rbank sv1 65) 18)
    Want.any = some (536875008, 2) ∧ meetOf (fetched sv1 65) 65 (Eff.act (Act.cacheLine 0 (readWord sv1 (rbank sv1 65) 18))) = Meet.ok ∧ KeepsCore sv1
    (cacheLine (begun sv1 65) 65 1 (readWord sv1 (rbank sv1 65) 18)) 65 ∧ 0 ≠ 65) ∧
  (CoreReady sv1 65 ∧ 64 ≤ 65 ∧ bitOf (sv1.rd I.scr (16 * (65 - 64))) 0 = true ∧ Machine.translate (fetched sv1 65) 65 (readWord sv1 (rbank sv1 65) 18)
    Want.any = some (536875008, 2) ∧ meetOf (fetched sv1 65) 65 (Eff.act (Act.cacheLine 0 (readWord sv1 (rbank sv1 65) 18))) = Meet.ok ∧ KeepsCore sv1
    (cacheLine (begun sv1 65) 65 1 (readWord sv1 (rbank sv1 65) 18)) 65 ∧ 0 ≠ rbank (cacheLine (begun sv1 65) 65 1 (readWord sv1 (rbank sv1 65) 18))
    65) ∧
  (CoreReady sv1 65 ∧ 64 ≤ 65 ∧ bitOf (sv1.rd I.scr (16 * (65 - 64))) 0 = true ∧ Machine.translate (fetched sv1 65) 65 (readWord sv1 (rbank sv1 65) 18)
    Want.any = some (536875008, 2) ∧ meetOf (fetched sv1 65) 65 (Eff.act (Act.cacheLine 0 (readWord sv1 (rbank sv1 65) 18))) = Meet.ok ∧ KeepsCore sv1
    (cacheLine (begun sv1 65) 65 2 (readWord sv1 (rbank sv1 65) 18)) 65 ∧ 0 ≠ 65) ∧
  (CoreReady sv1 65 ∧ 64 ≤ 65 ∧ bitOf (sv1.rd I.scr (16 * (65 - 64))) 0 = true ∧ Machine.translate (fetched sv1 65) 65 (readWord sv1 (rbank sv1 65) 18)
    Want.any = some (536875008, 2) ∧ meetOf (fetched sv1 65) 65 (Eff.act (Act.cacheLine 0 (readWord sv1 (rbank sv1 65) 18))) = Meet.ok ∧ KeepsCore sv1
    (cacheLine (begun sv1 65) 65 2 (readWord sv1 (rbank sv1 65) 18)) 65 ∧ 0 ≠ rbank (cacheLine (begun sv1 65) 65 2 (readWord sv1 (rbank sv1 65) 18))
    65) := by
  refine ⟨⟨?h1, ?h2, ?h3, ?h4, ?h5, ?h6, ?h7⟩, ⟨?h1, ?h2, ?h3, ?h4, ?h5, ?h6, ?r1⟩, ⟨?h1, ?h2, ?h3, ?h9, ?h10, ?h7⟩, ⟨?h1, ?h2, ?h3, ?h9, ?h10, ?h11⟩,
    ⟨?h1, ?h2, ?h12, ?h13, ?h14, ?h7⟩, ⟨?h1, ?h2, ?h12, ?h13, ?h14, ?h11⟩, ⟨?h15, ?h2, ?h16, ?h17, ?h18, ?h19, ?h7⟩, ⟨?h15, ?h2, ?h16, ?h17, ?h18,
    ?h19, ?r2⟩, ⟨?h15, ?h2, ?h16, ?h17, ?h18, ?h21, ?h7⟩, ⟨?h15, ?h2, ?h16, ?h17, ?h18, ?h21, ?r3⟩⟩
  all_goals try unfold CoreReady
  all_goals try unfold KeepsCore
  all_goals try decide +kernel
  all_goals repeat' apply And.intro
  all_goals first
    | decide +kernel
    | exact same_values _ _ _ (by decide +kernel)
    | exact every_value _ _ (fun v => v = 0) (by decide +kernel)

/-- States and operands that meet the hypotheses of LinkedAccessesAndMaintenance, clause by clause: each group in parentheses meets
those of one clause together. -/
theorem test_meets_LinkedAccessesAndMaintenance_2 :
  (CoreReady sv1 65 ∧ 64 ≤ 65 ∧ bitOf (sv1.rd I.scr (16 * (65 - 64))) 0 = true ∧ Machine.translate (fetched sv1 65) 65 (readWord sv1 (rbank sv1 65) 18)
    Want.any = some (536875008, 2) ∧ meetOf (fetched sv1 65) 65 (Eff.act (Act.cacheLine 0 (readWord sv1 (rbank sv1 65) 18))) = Meet.ok ∧ KeepsCore sv1
    (cacheLine (begun sv1 65) 65 3 (readWord sv1 (rbank sv1 65) 18)) 65 ∧ 0 ≠ 65) ∧
  (CoreReady sv1 65 ∧ 64 ≤ 65 ∧ bitOf (sv1.rd I.scr (16 * (65 - 64))) 0 = true ∧ Machine.translate (fetched sv1 65) 65 (readWord sv1 (rbank sv1 65) 18)
    Want.any = some (536875008, 2) ∧ meetOf (fetched sv1 65) 65 (Eff.act (Act.cacheLine 0 (readWord sv1 (rbank sv1 65) 18))) = Meet.ok ∧ KeepsCore sv1
    (cacheLine (begun sv1 65) 65 3 (readWord sv1 (rbank sv1 65) 18)) 65 ∧ 0 ≠ rbank (cacheLine (begun sv1 65) 65 3 (readWord sv1 (rbank sv1 65) 18))
    65) ∧
  (CoreReady (sv 5) 65 ∧ 64 ≤ 65 ∧ bitOf ((sv 5).rd I.scr (16 * (65 - 64))) 0 = true ∧ KeepsCore (sv 5) (cacheAll (begun (sv 5) 65) 65 true) 65 ∧ 0 ≠
    65) ∧
  (CoreReady (sv 5) 65 ∧ 64 ≤ 65 ∧ bitOf ((sv 5).rd I.scr (16 * (65 - 64))) 0 = true ∧ KeepsCore (sv 5) (cacheAll (begun (sv 5) 65) 65 true) 65 ∧ 0 ≠
    rbank (cacheAll (begun (sv 5) 65) 65 true) 65) := by
  refine ⟨⟨?h1, ?h2, ?h3, ?h4, ?h5, ?h6, ?h7⟩, ⟨?h1, ?h2, ?h3, ?h4, ?h5, ?h6, ?r1⟩, ⟨?h9, ?h2, ?h10, ?h11, ?h7⟩, ⟨?h9, ?h2, ?h10, ?h11, ?r2⟩⟩
  all_goals try unfold CoreReady
  all_goals try unfold KeepsCore
  all_goals try decide +kernel
  all_goals repeat' apply And.intro
  all_goals first
    | decide +kernel
    | exact same_values _ _ _ (by decide +kernel)
    | exact every_value _ _ (fun v => v = 0) (by decide +kernel)

/-- States and operands that meet the hypotheses of TrapsAndExceptionsSaveAndReturn, clause by clause: each group in parentheses meets
those of one clause together. -/
theorem test_meets_TrapsAndExceptionsSaveAndReturn :
  (CoreReady (sg 0) 0 ∧ 0 < 64 ∧ inTrap (sg 0) (rbank (sg 0) 0) = false ∧ (¬((sg 0).rd F.MLS_DBG_CFG_BKPTHALT = 1 ∧ dbgAvail (sg 0) = true)) ∧ 1 ≠ 0) ∧
  (CoreReady (sg 0) 0 ∧ 0 < 64 ∧ inTrap (sg 0) (rbank (sg 0) 0) = false ∧ (¬((sg 0).rd F.MLS_DBG_CFG_BKPTHALT = 1 ∧ dbgAvail (sg 0) = true)) ∧ 1 ≠ rbank
    (sg 0) 0) ∧
  (CoreReady tr 0 ∧ 0 < 64 ∧ inTrap tr (rbank tr 0) = true ∧ 1 ≠ 0) ∧
  (CoreReady tr 0 ∧ 0 < 64 ∧ inTrap tr (rbank tr 0) = true ∧ 1 ≠ rbank tr 0) ∧
  (CoreReady (sv 5) 65 ∧ 64 ≤ 65 ∧ (¬((sv 5).rd F.MLS_DBG_CFG_BKPTHALT = 1 ∧ dbgAvail (sv 5) = true)) ∧ 0 ≠ 65) ∧
  (CoreReady (sv 5) 65 ∧ 64 ≤ 65 ∧ (¬((sv 5).rd F.MLS_DBG_CFG_BKPTHALT = 1 ∧ dbgAvail (sv 5) = true)) ∧ 0 ≠ rbank (sv 5) 65) ∧
  (CoreReady svu 65 ∧ 64 ≤ 65 ∧ bitOf (svu.rd I.scr (16 * (65 - 64) + 0)) 0 = false ∧ 0 ≠ 65) ∧
  (CoreReady svu 65 ∧ 64 ≤ 65 ∧ bitOf (svu.rd I.scr (16 * (65 - 64) + 0)) 0 = false ∧ 0 ≠ rbank svu 65) ∧
  (CoreReady (sv 5) 65 ∧ 64 ≤ 65 ∧ bitOf ((sv 5).rd I.scr (16 * (65 - 64) + 0)) 0 = true ∧ 0 ≠ 65) ∧
  (CoreReady (sv 5) 65 ∧ 64 ≤ 65 ∧ bitOf ((sv 5).rd I.scr (16 * (65 - 64) + 0)) 0 = true ∧ 0 ≠ rbank (sv 5) 65) := by
  refine ⟨⟨?h1, ?h2, ?h3, ?h4, ?h5⟩, ⟨?h1, ?h2, ?h3, ?h4, ?r1⟩, ⟨?h7, ?h2, ?h8, ?h5⟩, ⟨?h7, ?h2, ?h8, ?r2⟩, ⟨?h10, ?h11, ?h12, ?h13⟩, ⟨?h10, ?h11, ?h12,
    ?h14⟩, ⟨?h15, ?h11, ?h16, ?h13⟩, ⟨?h15, ?h11, ?h16, ?r3⟩, ⟨?h10, ?h11, ?h18, ?h13⟩, ⟨?h10, ?h11, ?h18, ?h14⟩⟩
  all_goals try unfold CoreReady
  all_goals try decide +kernel
  all_goals repeat' apply And.intro
  all_goals first
    | decide +kernel
    | exact every_value _ _ (fun v => v = 0) (by decide +kernel)

/-- States and operands that meet the hypotheses of ImpreciseTrapsAndInterrupts, clause by clause: each group in parentheses meets
those of one clause together. -/
theorem test_meets_ImpreciseTrapsAndInterrupts :
  ((base mSERVICE).rd I.arith (rbank (base mSERVICE) 0) = 0) ∧
  (coreLive (ar (sg 0) 0) 0 = true ∧ halted (ar (sg 0) 0) 0 = false ∧ haltReq (ar (sg 0) 0) 0 = false ∧ stepping (ar (sg 0) 0) 0 = false ∧ atBoundary
    (ar (sg 0) 0) 0 = true ∧ inFlight (ar (sg 0) 0) (rbank (ar (sg 0) 0) 0) = [] ∧ (ar (sg 0) 0).rd I.arith (rbank (ar (sg 0) 0) 0) = 2 + 1 ∧ 2 < 8 ∧
    0 < 64 ∧ (ar (sg 0) 0).rd I.jCancel ((ar (sg 0) 0).rd I.cJob - 1) = 0 ∧ inTrap (ar (sg 0) 0) (rbank (ar (sg 0) 0) 0) = false) ∧
  (coreLive (ar sv1 130) 65 = true ∧ halted (ar sv1 130) 65 = false ∧ haltReq (ar sv1 130) 65 = false ∧ stepping (ar sv1 130) 65 = false ∧ atBoundary
    (ar sv1 130) 65 = true ∧ inFlight (ar sv1 130) (rbank (ar sv1 130) 65) = [] ∧ (ar sv1 130).rd I.arith (rbank (ar sv1 130) 65) = 2 + 1 ∧ 2 < 8 ∧ 64
    ≤ 65) ∧
  ((bitOf ((base mSERVICE).rd I.scr (16 * 0 + 0)) 1 = false ∨ sicLine (base mSERVICE) 0 = false)) ∧
  (coreLive irq (64 + 1) = true ∧ halted irq (64 + 1) = false ∧ atBoundary irq (64 + 1) = true ∧ inFlight irq (rbank irq (64 + 1)) = [] ∧ bitOf (irq.rd
    I.scr (16 * 1 + 0)) 1 = true ∧ sicLine irq 1 = true) ∧
  ((base mSERVICE).fabric = true ∧ sicLine (base mSERVICE) 0 = false) ∧
  (irq.fabric = true ∧ sicLine irq 0 = true) ∧
  (irq.fabric = true ∧ irq.rd I.sicOwn (2147483653 % 256) = 1 + 1) ∧
  ((base mSERVICE).fabric = true ∧ (base mSERVICE).rd I.sicOwn (0 % 256) ≠ 0 + 1) := by
  refine ⟨?r1, ?r2, ?r3, ?r4, ?r5, ⟨?h28, ?r6⟩, ⟨?h30, ?r7⟩, ⟨?h30, ?r8⟩, ⟨?h28, ?r9⟩⟩
  all_goals decide +kernel

end Maint

namespace Tasks

def wait64 : List (Fld × Nat × Nat) := (List.range 64).map (fun c => (I.waiting, c, 1)) ++ (List.range 8).map (fun c => (F.CLU_STAT_STATE, c, clRUN))
def task (t st en fl mk : Nat) : List (Fld × Nat × Nat) := [(F.TSU_T_STAT_STATE, t, st), (F.TSU_T_CFG_EN, t, en), (F.TSU_T_FLAGS_FLAGS, t, fl), (F.TSU_T_MASK_MASK, t, mk)]
def t0 : State := puts (base mSERVICE) (wait64 ++ [(F.TSU_SELECT_INDEX, 0, 1), (F.TSU_SELECT_INDEX, 4, 2), (F.TMU_TB_NS_NS, 2, 77777)] ++ task 1 tWAIT 1 3 1 ++ task 2 tREADY 0 4 4 ++ task 5 tWAIT 0 0 0)
def tx (l : List (Fld × Nat × Nat)) : State := puts t0 l
def x1 := tx (task 1 tREADY 1 1 3 ++ [(F.TSU_T_CFG_LEVEL, 1, 0), (I.tLvl, 1, 3)] ++ task 2 tWAIT 0 7 8)
def x4 := tx (task 1 tREADY 1 1 1 ++ [(I.jHasDl, 1, 1), (F.TSU_T_ABSDL_ABSDL, 1, 77778), (F.TSU_LVLCFG_FLOOR, 0, 3), (I.tLvl,1,0)] ++ task 2 tPAGEWAIT 1 0 1 ++ [(I.jCid, 2, 5), (I.jCv, 2, 1), (I.jFault, 2, 6), (I.jWs, 2, 1), (I.mapLvl, 81, 1), (I.mapLvl, 82, 1), (I.mapLvl, 80, 1)])
def run1 (s : State) : State := puts s [(F.TSU_CTRL_RUN, 0, 1)]
def x5 := run1 (tx (task 2 tREADY 1 4 4 ++ [(F.TSU_T_PC_ENTRY, 2, 0x8400000), (F.TSU_T_CFG_SGEN, 2, 1), (F.TSU_T_SG_SGRP, 2, 6), (F.TSU_T_CTX_CID, 2, 9)]))
def x6 := tx (task 2 tCOMMITTED 1 4 4 ++ [(I.cNext, 0, 3), (I.jEntry, 2, 0x8400000), (F.TSU_T_STAT_JSEQ, 2, 9), (F.TSU_TRAPV_ADDR, 0, 0x123)] )
def x7 := puts (sg 0) (wait64 ++ task 1 tRUNNING 1 1 1 ++ task 2 tCOMMITTED 1 4 4 ++ [(I.waiting, 0, 0), (I.cJob, 0, 2), (I.cNext, 0, 3), (I.jEntry, 2, 0x8400000), (F.TSU_TRAPV_ADDR, 0, 0x123)] ++ regs 1)
def x8 := puts (view (sg 0)) ([(I.obusy, 0, 1), (I.cLeave, 0, 1), (I.cLeaveRun, 0, 1), (F.TSU_T_STAT_STATE, 0, tREADY), (F.TSU_T_STAT_RESUME, 0, 1), (I.cJob, 0, 0)] ++ regs 1)
def x9 := puts t0 ([(F.TSU_LVLCFG_CAP, 0, 2), (F.TSU_LVLSTAT_USED, 0, 5000), (F.TSU_LVLCFG_CAP, 1, 2), (F.TSU_LVLSTAT_USED, 1, 4000),(F.TSU_LVLCFG_CAP, 31, 3)] ++ task 1 tRUNNING 1 1 1 ++ [(I.jBl, 1, 31)])

/-- States and operands that meet the hypotheses of TaskRegistersFollowTheirRules, clause by clause: each group in parentheses meets
those of one clause together. -/
theorem test_meets_TaskRegistersFollowTheirRules_1 :
  ((base mSERVICE).fabric = true ∧ selCopy (Init.svc 0) = some 0 ∧ (base mSERVICE).rd F.TSU_TRCCFG_EN = 0 ∧ taskSt (base mSERVICE) ((base mSERVICE).rd
    F.TSU_SELECT_INDEX) ≠ tREADY) ∧
  ((base mSERVICE).fabric = true ∧ selCopy (Init.svc 0) = some 0 ∧ (base mSERVICE).rd F.TSU_TRCCFG_EN = 0 ∧ popcount 16 (0 % 65536) ≤ 8) ∧
  ((base mSERVICE).fabric = true ∧ selCopy (Init.svc 0) = some 0 ∧ (base mSERVICE).rd F.TSU_TRCCFG_EN = 0 ∧ taskSt (base mSERVICE) (0 % 65536) = tEMPTY) ∧
  (t0.fabric = true ∧ selCopy (Init.svc 0) = some 0 ∧ t0.rd F.TSU_TRCCFG_EN = 0 ∧ taskSt t0 (131074 % 65536) ≠ tEMPTY) ∧
  (t0.fabric = true ∧ selCopy Init.host = some 4 ∧ t0.rd F.TSU_TRCCFG_EN = 0 ∧ taskSt t0 (t0.rd F.TSU_SELECT_INDEX 4) ≠ tEMPTY ∧ t0.rd I.tResv (t0.rd
    F.TSU_SELECT_INDEX 4) = 0 ∧ (taskSt t0 (t0.rd F.TSU_SELECT_INDEX 4) = tREADY ∧ t0.rd F.TSU_T_STAT_RESUME (t0.rd F.TSU_SELECT_INDEX 4) = 0 ∧ bitN 0
    31 = 0)) ∧
  (t0.fabric = true ∧ selCopy (Init.svc 0) = some 0 ∧ t0.rd F.TSU_TRCCFG_EN = 0 ∧ taskSt t0 (t0.rd F.TSU_SELECT_INDEX) ≠ tEMPTY ∧ t0.rd I.tResv (t0.rd
    F.TSU_SELECT_INDEX) = 0 ∧ (¬(taskSt t0 (t0.rd F.TSU_SELECT_INDEX) = tREADY ∧ t0.rd F.TSU_T_STAT_RESUME (t0.rd F.TSU_SELECT_INDEX) = 0 ∧ bitN 0 31
    = 0))) ∧
  (t0.fabric = true ∧ selCopy Init.host = some 4 ∧ t0.rd F.TSU_TRCCFG_EN = 0 ∧ taskSt t0 (t0.rd F.TSU_SELECT_INDEX 4) ≠ tEMPTY ∧ t0.rd I.tResv (t0.rd
    F.TSU_SELECT_INDEX 4) = 0 ∧ (taskSt t0 (t0.rd F.TSU_SELECT_INDEX 4) = tREADY ∧ t0.rd I.tLvl (t0.rd F.TSU_SELECT_INDEX 4) ≠ bits 0 20 16)) ∧
  (t0.fabric = true ∧ selCopy (Init.svc 0) = some 0 ∧ t0.rd F.TSU_TRCCFG_EN = 0 ∧ taskSt t0 (t0.rd F.TSU_SELECT_INDEX) ≠ tEMPTY ∧ (¬(taskSt t0 (t0.rd
    F.TSU_SELECT_INDEX) = tREADY ∧ t0.rd F.TSU_T_STAT_RESUME (t0.rd F.TSU_SELECT_INDEX) = 0 ∧ condition (t0.wr F.TSU_T_FLAGS_FLAGS (t0.rd
    F.TSU_SELECT_INDEX) ((t0.rd F.TSU_T_FLAGS_FLAGS (t0.rd F.TSU_SELECT_INDEX)).lor 0)) (t0.rd F.TSU_SELECT_INDEX) = false))) ∧
  (t0.fabric = true ∧ selCopy Init.host = some 4 ∧ t0.rd F.TSU_TRCCFG_EN = 0 ∧ taskSt t0 (t0.rd F.TSU_SELECT_INDEX 4) ≠ tEMPTY ∧ (taskSt t0 (t0.rd
    F.TSU_SELECT_INDEX 4) = tREADY ∧ t0.rd F.TSU_T_STAT_RESUME (t0.rd F.TSU_SELECT_INDEX 4) = 0 ∧ condition (t0.wr F.TSU_T_FLAGS_FLAGS (t0.rd
    F.TSU_SELECT_INDEX 4) (t0.rd F.TSU_T_FLAGS_FLAGS (t0.rd F.TSU_SELECT_INDEX 4) - (t0.rd F.TSU_T_FLAGS_FLAGS (t0.rd F.TSU_SELECT_INDEX 4)).land 5))
    (t0.rd F.TSU_SELECT_INDEX 4) = false)) ∧
  (t0.fabric = true ∧ selCopy (Init.svc 0) = some 0 ∧ t0.rd F.TSU_TRCCFG_EN = 0 ∧ taskSt t0 (t0.rd F.TSU_SELECT_INDEX) ≠ tEMPTY ∧ (¬(taskSt t0 (t0.rd
    F.TSU_SELECT_INDEX) = tREADY ∧ t0.rd F.TSU_T_STAT_RESUME (t0.rd F.TSU_SELECT_INDEX) = 0 ∧ condition (t0.wr F.TSU_T_FLAGS_FLAGS (t0.rd
    F.TSU_SELECT_INDEX) (t0.rd F.TSU_T_FLAGS_FLAGS (t0.rd F.TSU_SELECT_INDEX) - (t0.rd F.TSU_T_FLAGS_FLAGS (t0.rd F.TSU_SELECT_INDEX)).land 0)) (t0.rd
    F.TSU_SELECT_INDEX) = false))) ∧
  (t0.fabric = true ∧ selCopy (Init.svc 0) = some 0 ∧ t0.rd F.TSU_TRCCFG_EN = 0 ∧ taskSt t0 (t0.rd F.TSU_SELECT_INDEX) = tWAIT ∧ t0.rd I.jCancel (t0.rd
    F.TSU_SELECT_INDEX) = 0 ∧ t0.rd I.tResv (t0.rd F.TSU_SELECT_INDEX) = 0 ∧ (¬(false = true ∧ t0.rd F.TSU_T_CFG_EN (t0.rd F.TSU_SELECT_INDEX) = 1 ∧
    condition t0 (t0.rd F.TSU_SELECT_INDEX) = true))) ∧
  (t0.fabric = true ∧ selCopy (Init.svc 0) = some 0 ∧ t0.rd F.TSU_TRCCFG_EN = 0 ∧ taskSt t0 (t0.rd F.TSU_SELECT_INDEX) = tWAIT ∧ t0.rd I.jCancel (t0.rd
    F.TSU_SELECT_INDEX) = 0 ∧ t0.rd I.tResv (t0.rd F.TSU_SELECT_INDEX) = 0 ∧ (true = true ∧ t0.rd F.TSU_T_CFG_EN (t0.rd F.TSU_SELECT_INDEX) = 1 ∧
    condition t0 (t0.rd F.TSU_SELECT_INDEX) = true) ∧ t0.rd F.TSU_RACECNT_COUNT + 2 < 2 ^ 32) := by
  refine ⟨⟨?h1, ?h2, ?h3, ?r1⟩, ⟨?h1, ?h2, ?h3, ?r2⟩, ⟨?h1, ?h2, ?h3, ?r3⟩, ⟨?h7, ?h2, ?h8, ?r4⟩, ⟨?h7, ?h10, ?h8, ?h11, ?h12, ?r5⟩, ⟨?h7, ?h2, ?h8,
    ?h14, ?h15, ?r6⟩, ⟨?h7, ?h10, ?h8, ?h11, ?h12, ?r7⟩, ⟨?h7, ?h2, ?h8, ?h14, ?r8⟩, ⟨?h7, ?h10, ?h8, ?h11, ?r9⟩, ⟨?h7, ?h2, ?h8, ?h14, ?r10⟩, ⟨?h7,
    ?h2, ?h8, ?h21, ?h22, ?h15, ?r11⟩, ⟨?h7, ?h2, ?h8, ?h21, ?h22, ?h15, ?r12⟩⟩
  all_goals decide +kernel

/-- States and operands that meet the hypotheses of TaskRegistersFollowTheirRules, clause by clause: each group in parentheses meets
those of one clause together. -/
theorem test_meets_TaskRegistersFollowTheirRules_2 :
  (x1.fabric = true ∧ selCopy Init.host = some 4 ∧ x1.rd F.TSU_TRCCFG_EN = 0 ∧ x1.rd I.jCancel (x1.rd F.TSU_SELECT_INDEX 4) = 0 ∧ x1.rd I.tResv (x1.rd
    F.TSU_SELECT_INDEX 4) = 0 ∧ x1.rd F.TSU_T_CFG_EN (x1.rd F.TSU_SELECT_INDEX 4) = 0 ∧ taskSt x1 (x1.rd F.TSU_SELECT_INDEX 4) = tWAIT ∧ 0 ≠ x1.rd
    F.TSU_SELECT_INDEX 4) ∧
  (t0.fabric = true ∧ selCopy (Init.svc 0) = some 0 ∧ t0.rd F.TSU_TRCCFG_EN = 0 ∧ t0.rd I.jCancel (t0.rd F.TSU_SELECT_INDEX) = 0 ∧ t0.rd I.tResv (t0.rd
    F.TSU_SELECT_INDEX) = 0 ∧ (t0.rd F.TSU_T_CFG_EN (t0.rd F.TSU_SELECT_INDEX) = 1 ∨ taskSt t0 (t0.rd F.TSU_SELECT_INDEX) ≠ tWAIT ∧ taskSt t0 (t0.rd
    F.TSU_SELECT_INDEX) ≠ tEMPTY)) := by
  refine ⟨?r1, ?r2⟩
  all_goals decide +kernel

/-- States and operands that meet the hypotheses of TasksMoveToTheirJobsAndBack, clause by clause: each group in parentheses meets
those of one clause together. -/
theorem test_meets_TasksMoveToTheirJobsAndBack :
  ((base mSERVICE).rd F.TSU_TRCCFG_EN = 0 ∧ (¬((base mSERVICE).serving = true ∧ taskSt (base mSERVICE) 0 = tWAIT ∧ (base mSERVICE).rd F.TSU_T_CFG_EN = 1
    ∧ condition (base mSERVICE) 0 = true ∧ (base mSERVICE).rd I.jCancel = 0))) ∧
  (t0.rd F.TSU_TRCCFG_EN = 0 ∧ (t0.serving = true ∧ taskSt t0 1 = tWAIT ∧ t0.rd F.TSU_T_CFG_EN 1 = 1 ∧ condition t0 1 = true ∧ t0.rd I.jCancel 1 = 0) ∧
    (t0.rd F.TSU_CTRL_RUN = 0 ∨ (affinity t0 1).any (coreIdle t0) = true)) ∧
  (x4.rd F.TSU_TRCCFG_EN = 0 ∧ x4.serving = true ∧ promotable x4 1 = true ∧ (x4.rd F.TSU_CTRL_RUN = 0 ∨ (affinity x4 1).any (coreIdle x4) = true)) ∧
  ((base mSERVICE).rd F.TSU_TRCCFG_EN = 0 ∧ promotable (base mSERVICE) 0 = false) ∧
  ((base mSERVICE).rd F.TSU_TRCCFG_EN = 0 ∧ taskSt (base mSERVICE) 0 ≠ tPAGEWAIT) ∧
  (x4.rd F.TSU_TRCCFG_EN = 0 ∧ x4.serving = true ∧ taskSt x4 2 = tPAGEWAIT ∧ (((pagesOf (x4.rd I.jFault 2)).all fun v => lvl x4 (x4.rd I.jCid 2) v == 1)
    = true) ∧ (x4.rd F.TSU_CTRL_RUN = 0 ∨ (affinity x4 2).any (coreIdle x4) = true)) ∧
  ((base mSERVICE).rd F.TSU_TRCCFG_EN = 0 ∧ committable (base mSERVICE) = []) ∧
  (x5.rd F.TSU_TRCCFG_EN = 0 ∧ x5.serving = true ∧ firstInRank x5 (committable x5) = some 2 ∧ chooseCore x5 2 = some 0 ∧ x5.rd F.TSU_T_STAT_RESUME 2 = 0
    ∧ x5.rd I.jCancel 2 = 0 ∧ x5.rd I.tResv 2 = 0 ∧ x5.rd F.TSU_T_CTX_CV 2 = 0 ∧ x5.nonzero I.stCore = [] ∧ cluSt x5 (0 / 8) = clRUN ∧ x5.rd
    F.CLU_STAT_DAWN (0 / 8) = 0 ∧ x5.rd F.CLU_STAT_DRAINWB (0 / 8) = 0) ∧
  ((base mSERVICE).rd F.TSU_TRCCFG_EN = 0 ∧ mayDispatch (base mSERVICE) 0 = false) ∧
  (x6.rd F.TSU_TRCCFG_EN = 0 ∧ mayDispatch x6 0 = true ∧ x6.rd I.cNext = 2 + 1 ∧ (x6.rd I.jRec 2 = 0 ∧ x6.rd I.jCv 2 = 0 ∧ x6.rd I.jCid 2 = 0 ∧ x6.rd
    I.jWs 2 = 0 ∧ x6.rd I.jRan 2 = 0 ∧ x6.nonzero I.bankJob = [] ∧ x6.rd F.TSU_DISPCNT_COUNT + 2 < 2 ^ 32 ∧ 2 < 65536) ∧ 4 * 0 ∉ [380, 388, 392, 396,
    416]) ∧
  ((base mSERVICE).rd F.TSU_TRCCFG_EN = 0 ∧ maySwitch (base mSERVICE) 0 = false) ∧
  (x7.rd F.TSU_TRCCFG_EN = 0 ∧ maySwitch x7 0 = true ∧ x7.rd F.TSU_CTRL_RUN = 0 ∧ x7.rd I.cJob = 1 + 1 ∧ x7.rd I.cNext = 2 + 1 ∧ 2 ≠ 1 ∧ (x7.rd I.jRec 2
    = 0 ∧ x7.rd I.jCv 2 = 0 ∧ x7.rd I.jCid 2 = 0 ∧ x7.rd I.jWs 2 = 0 ∧ x7.rd I.jRan 2 = 0 ∧ x7.nonzero I.bankJob = [] ∧ x7.rd F.TSU_DISPCNT_COUNT + 2
    < 2 ^ 32 ∧ 2 < 65536) ∧ 1 < 65536 ∧ x7.rd I.arith (rbank x7 0) = 0 ∧ inFlight x7 (rbank x7 0) = [] ∧ x7.rd F.TSU_PREEMPTCNT_COUNT + 2 < 2 ^ 32 ∧ 4
    * 0 ∉ [380, 388, 392, 396, 416]) ∧
  ((base mSERVICE).rd F.TSU_TRCCFG_EN = 0 ∧ (base mSERVICE).rd I.obusy = 0) ∧
  (x8.rd F.TSU_TRCCFG_EN = 0 ∧ x8.rd I.obusy = 1 ∧ x8.rd I.swPend = 0 ∧ x8.rd I.cLeave = 0 + 1 ∧ x8.rd I.jCv = 1 ∧ stagedFrame x8 0 0 (x8.rd I.jCid) 0 =
    some 9) := by
  refine ⟨⟨?h1, ?r1⟩, ?r2, ⟨?h6, ?h7, ?r3⟩, ⟨?h1, ?r4⟩, ⟨?h1, ?r5⟩, ⟨?h6, ?h7, ?r6⟩, ⟨?h1, ?r7⟩, ?r8, ⟨?h1, ?r9⟩, ?r10, ⟨?h1, ?r11⟩, ?r12, ⟨?h1, ?r13⟩,
    ?r14⟩
  all_goals decide +kernel

/-- States and operands that meet the hypotheses of BudgetsCoresAndTrace, clause by clause: each group in parentheses meets
those of one clause together. -/
theorem test_meets_BudgetsCoresAndTrace :
  ((base mSERVICE).fabric = true ∧ ((base mSERVICE).rd F.TSU_LVLCFG_CAP * 1024 = 0 ∨ (base mSERVICE).rd F.TSU_LVLCFG_CAP * 1024 ≤ (base mSERVICE).rd
    F.TSU_LVLSTAT_USED)) ∧
  (x9.fabric = true ∧ x9.serving = true ∧ taskSt x9 1 = tRUNNING ∧ x9.rd I.jBl 1 = 31 ∧ x9.rd F.TSU_LVLSTAT_USED 31 < x9.rd F.TSU_LVLCFG_CAP 31 * 1024 ∧
    x9.rd F.TSU_TRCCFG_EN = 0) ∧
  ((base mSERVICE).fabric = true ∧ (base mSERVICE).nonzero I.tResv = [] ∧ (∀ c < 64, (base mSERVICE).rd I.cNext c = 0) ∧ 0 < 32) ∧
  ((base mSERVICE).fabric = true ∧ selCopy (Init.svc 0) = some 0 ∧ 0 < 4) ∧
  ((base mSERVICE).fabric = true ∧ selCopy (Init.svc 0) = some 0 ∧ 1 ≠ 0) := by
  refine ⟨⟨?h1, ?r1⟩, ?r2, ⟨?h1, ?r3⟩, ⟨?h1, ?h12, ?r4⟩, ⟨?h1, ?h12, ?r5⟩⟩
  all_goals decide +kernel

end Tasks

namespace Contexts

def m0 : State := puts (base mSERVICE) [(F.CHW_SELECT_INDEX, 0, 5), (F.CHW_SELECT_INDEX, 4, 6), (F.CPG_POOLCFG_MIN, 0, 7), (F.DMC_CFG_SIZE, 0, 2), (F.DMC_STAT_READY,0,1)]
def al (cid : Nat) : List (Fld × Nat × Nat) := [(F.CHW_CTX_STAT_STATE, cid, cALLOC), (F.CHW_CTX_LAYOUT_PAGES, cid, 3), (I.mapLvl, 16 * cid, 1), (I.mapPage, 16 * cid, 20 + cid), (I.pgUse, 20 + cid, 16 * cid + 1), (I.mapLvl, 16 * cid + 1, 1), (I.mapPage, 16 * cid + 1, 4000 + cid), (I.pgUse, 4000 + cid, 16 * cid + 2), (I.bankBusy, 0, 1), (I.bankBusy, 1, 1)]
def y1 := puts m0 (al 5 ++ [(F.CHW_CTX_LAYOUT_PAGES, 6, 1)])
def y2 := puts m0 (al 5 ++ [(F.CHW_CTX_LAYOUT_PAGES, 6, 2), (F.CHW_CTX_ATTR_OD, 6, 2), (F.DMC_STAT_READY,0,0), (F.CHW_CTX_STAT_STATE, 7, cALLOC), (F.CHW_SELECT_INDEX, 1, 7), (F.CHW_CTX_CMD_LOAD, 5, 1)])
def y3 := puts y1 [(I.mapLvl, 81, 3), (I.mapMove, 81, 1), (F.CPG_CFG_SPILLEN, 0, 1)]
def y4 := puts y1 [(F.CPG_CFG_SPILLEN, 0, 1), (F.CHW_CTX_ATTR_SPILLOK, 5, 1), (F.CPG_SPILLCFG_LOW, 0, 40000), (F.CPG_SPILLCFG_HIGH, 0, 40000)]
def y5 := puts y1 [(F.CPG_CFG_SPILLEN, 0, 1), (F.CHW_CTX_STAT_AGE, 5, 255), (F.CPG_SPILLCFG_LOW, 0, 40000), (F.CPG_SPILLCFG_HIGH, 0, 40000)]
def y6 := puts y1 [(F.CPG_CFG_SPILLEN, 0, 1), (I.spillRun, 0, 1), (F.CPG_SPILLCFG_LOW, 0, 1), (F.CPG_SPILLCFG_HIGH, 0, 1), (F.CHW_CTX_STAT_STATE, 5, cALLOC), (I.mapLvl, 81, 0), (I.mapLvl, 80, 0), (F.CHW_CTX_ATTR_SPILLOK, 5, 1)]
def y7 := puts m0 [(F.CHW_CTX_STAT_STATE, 5, cALLOC), (I.mapLvl, 80, 2), (F.CHW_CTX_CMD_LOAD, 5, 1)]
def y8 := puts y7 ([(F.CPG_POOLCFG_MIN, 1, 40000), (I.ctxPool, 5, 0)])
def y9 := puts m0 [(F.CHW_CTX_STAT_STATE, 5, cALLOC), (I.mapLvl, 80, 2), (F.TSU_T_STAT_STATE, 3, tPAGEWAIT), (I.jCid, 3, 5), (I.jCv, 3, 1), (I.jFault, 3, 1), (F.CPG_POOLCFG_MIN, 1, 40000)]
def y11 := puts y1 [(F.PMU_CSTBANK_MODE, 0, 0)]

/-- States and operands that meet the hypotheses of ContextCommandsAnswerTheirResults, clause by clause: each group in parentheses meets
those of one clause together. -/
theorem test_meets_ContextCommandsAnswerTheirResults_1 :
  (y2.fabric = true ∧ selCopy (Init.svc 0) = some 0 ∧ y2.rd F.CHW_SELECT_INDEX = 5 ∧ 5 < 32768 ∧ cmdBusy y2 5 = true) ∧
  ((base mSERVICE).fabric = true ∧ selCopy (Init.svc 0) = some 0 ∧ (base mSERVICE).rd F.CHW_SELECT_INDEX = 0 ∧ 0 < 32768 ∧ cmdBusy (base mSERVICE) 0 =
    false ∧ (ctxState (base mSERVICE) 0 ≠ cFREE ∨ (base mSERVICE).rd F.CHW_CTX_LAYOUT_PAGES = 0)) ∧
  (y2.fabric = true ∧ selCopy Init.host = some 4 ∧ y2.rd F.CHW_SELECT_INDEX 4 = 6 ∧ 6 < 32768 ∧ cmdBusy y2 6 = false ∧ ctxState y2 6 = cFREE ∧ y2.rd
    F.CHW_CTX_LAYOUT_PAGES 6 = 2 ^ 1 ∧ (y2.rd F.CHW_CTX_ATTR_POOL 6 ≠ 0 ∨ y2.mode ≠ mDRAIN) ∧ fitsNow y2 1 (y2.rd F.CHW_CTX_ATTR_POOL 6) = true ∧
    bitOf (y2.rd F.CHW_CTX_ATTR_OD 6) 1 = true) ∧
  (y1.fabric = true ∧ selCopy Init.host = some 4 ∧ y1.rd F.CHW_SELECT_INDEX 4 = 6 ∧ 6 < 32768 ∧ cmdBusy y1 6 = false ∧ ctxState y1 6 = cFREE ∧ y1.rd
    F.CHW_CTX_LAYOUT_PAGES 6 = 2 ^ 0 ∧ (y1.rd F.CHW_CTX_ATTR_POOL 6 ≠ 0 ∨ y1.mode ≠ mDRAIN) ∧ fitsNow y1 1 (y1.rd F.CHW_CTX_ATTR_POOL 6) = true ∧
    bitOf (y1.rd F.CHW_CTX_ATTR_OD 6) 0 = false ∧ (∃ n < 32768, bankOk y1 (n / 2048) = true ∧ y1.rd I.pgUse n = 0 ∧ y1.rd I.pgBad n = 0)) ∧
  ((base mSERVICE).fabric = true ∧ selCopy (Init.svc 0) = some 0 ∧ (base mSERVICE).rd F.CHW_SELECT_INDEX = 0 ∧ 0 < 32768 ∧ cmdBusy (base mSERVICE) 0 =
    false ∧ ctxState (base mSERVICE) 0 = cFREE) ∧
  (y9.fabric = true ∧ selCopy (Init.svc 0) = some 0 ∧ y9.rd F.CHW_SELECT_INDEX = 5 ∧ 5 < 32768 ∧ cmdBusy y9 5 = false ∧ ctxState y9 5 ≠ cFREE ∧ jobPin
    y9 5 = true) ∧
  (y3.fabric = true ∧ selCopy (Init.svc 0) = some 0 ∧ y3.rd F.CHW_SELECT_INDEX = 5 ∧ 5 < 32768 ∧ cmdBusy y3 5 = false ∧ ctxState y3 5 ≠ cFREE ∧ jobPin
    y3 5 = false ∧ (∃ v < 16, y3.rd I.mapLvl (16 * 5 + v) = 3)) ∧
  (y1.fabric = true ∧ selCopy (Init.svc 0) = some 0 ∧ y1.rd F.CHW_SELECT_INDEX = 5 ∧ 5 < 32768 ∧ cmdBusy y1 5 = false ∧ ctxState y1 5 ≠ cFREE ∧ jobPin
    y1 5 = false ∧ (¬∃ v < 16, y1.rd I.mapLvl (16 * 5 + v) = 3) ∧ 0 < 16) ∧
  ((base mSERVICE).fabric = true ∧ selCopy (Init.svc 0) = some 0 ∧ (base mSERVICE).rd F.CHW_SELECT_INDEX = 0 ∧ 0 < 32768 ∧ cmdBusy (base mSERVICE) 0 =
    false ∧ ctxState (base mSERVICE) 0 ≠ cALLOC) := by
  refine ⟨⟨?h1, ?h2, ?r1⟩, ⟨?h6, ?h2, ?h7, ?h8, ?h9, ?r2⟩, ⟨?h1, ?h11, ?r3⟩, ⟨?h20, ?h11, ?r4⟩, ⟨?h6, ?h2, ?h7, ?h8, ?h9, ?r5⟩, ?r6, ?r7, ⟨?h20, ?h2,
    ?r8⟩, ⟨?h6, ?h2, ?h7, ?h8, ?h9, ?r9⟩⟩
  all_goals try decide +kernel
  all_goals repeat' apply And.intro
  all_goals first
    | decide +kernel
    | exact ⟨100, by decide +kernel⟩

/-- States and operands that meet the hypotheses of ContextCommandsAnswerTheirResults, clause by clause: each group in parentheses meets
those of one clause together. -/
theorem test_meets_ContextCommandsAnswerTheirResults_2 :
  (y1.fabric = true ∧ selCopy (Init.svc 0) = some 0 ∧ y1.rd F.CHW_SELECT_INDEX = 5 ∧ 5 < 32768 ∧ cmdBusy y1 5 = false ∧ ctxState y1 5 = cALLOC ∧
    maySpill y1 = false) ∧
  (y3.fabric = true ∧ selCopy (Init.svc 0) = some 0 ∧ y3.rd F.CHW_SELECT_INDEX = 5 ∧ 5 < 32768 ∧ cmdBusy y3 5 = false ∧ ctxState y3 5 = cALLOC ∧
    maySpill y3 = true ∧ coldEligible y3 5 = false) ∧
  (y6.fabric = true ∧ selCopy (Init.svc 0) = some 0 ∧ y6.rd F.CHW_SELECT_INDEX = 5 ∧ 5 < 32768 ∧ cmdBusy y6 5 = false ∧ ctxState y6 5 = cALLOC ∧
    maySpill y6 = true ∧ coldEligible y6 5 = true ∧ (¬∃ v < 16, y6.rd I.mapLvl (16 * 5 + v) = 1)) ∧
  (y4.fabric = true ∧ selCopy (Init.svc 0) = some 0 ∧ y4.rd F.CHW_SELECT_INDEX = 5 ∧ 5 < 32768 ∧ cmdBusy y4 5 = false ∧ ctxState y4 5 = cALLOC ∧
    maySpill y4 = true ∧ coldEligible y4 5 = true ∧ (∃ v < 16, y4.rd I.mapLvl (16 * 5 + v) = 1) ∧ 0 < 16 ∧ y4.rd I.mapLvl (16 * 5 + 0) = 1) ∧
  (y2.fabric = true ∧ selCopy (Init.svc 1) = some 1 ∧ y2.rd F.CHW_SELECT_INDEX 1 = 7 ∧ 7 < 32768 ∧ cmdBusy y2 7 = false ∧ ctxState y2 7 = cALLOC ∧
    spillArea y2 = false) ∧
  (y1.fabric = true ∧ selCopy (Init.svc 0) = some 0 ∧ y1.rd F.CHW_SELECT_INDEX = 5 ∧ 5 < 32768 ∧ cmdBusy y1 5 = false ∧ ctxState y1 5 = cALLOC ∧
    spillArea y1 = true ∧ (¬∃ v < 16, y1.rd I.mapLvl (16 * 5 + v) = 2) ∧ (¬∃ v < 16, y1.rd I.mapLvl (16 * 5 + v) = 3)) ∧
  (y3.fabric = true ∧ selCopy (Init.svc 0) = some 0 ∧ y3.rd F.CHW_SELECT_INDEX = 5 ∧ 5 < 32768 ∧ cmdBusy y3 5 = false ∧ ctxState y3 5 = cALLOC ∧
    spillArea y3 = true ∧ ((∃ v < 16, y3.rd I.mapLvl (16 * 5 + v) = 2) ∨ ∃ v < 16, y3.rd I.mapLvl (16 * 5 + v) = 3)) ∧
  (y1.fabric = true ∧ selCopy (Init.svc 0) = some 0 ∧ y1.rd F.CHW_SELECT_INDEX = 5 ∧ 5 < 32768 ∧ cmdBusy y1 5 = false ∧ chwReach y1 5 = true) := by
  refine ⟨⟨?h1, ?h2, ?h3, ?h4, ?h5, ?h6, ?r1⟩, ⟨?h8, ?h2, ?h9, ?h4, ?h10, ?h11, ?r2⟩, ?r3, ?r4, ?r5, ⟨?h1, ?h2, ?h3, ?h4, ?h5, ?h6, ?r6⟩, ⟨?h8, ?h2,
    ?h9, ?h4, ?h10, ?h11, ?r7⟩, ⟨?h1, ?h2, ?h3, ?h4, ?h5, ?r8⟩⟩
  all_goals decide +kernel

/-- States and operands that meet the hypotheses of ContextCommandsAnswerTheirResults, clause by clause: each group in parentheses meets
those of one clause together. -/
theorem test_meets_ContextCommandsAnswerTheirResults_3 :
  ((base mSERVICE).fabric = true ∧ selCopy (Init.svc 0) = some 0 ∧ (base mSERVICE).rd F.CHW_SELECT_INDEX = 0 ∧ 0 < 32768 ∧ cmdBusy (base mSERVICE) 0 =
    false ∧ chwReach (base mSERVICE) 0 = false) := by
  refine ?r1
  all_goals decide +kernel

/-- States and operands that meet the hypotheses of ControlWritesSpillsAndReloads, clause by clause: each group in parentheses meets
those of one clause together. -/
theorem test_meets_ControlWritesSpillsAndReloads :
  ((base mSERVICE).fabric = true ∧ selCopy (Init.svc 0) = some 0 ∧ (base mSERVICE).rd F.CHW_SELECT_INDEX = 0 ∧ 0 < 32768 ∧ chwReach (base mSERVICE) 0 =
    false) ∧
  (y11.fabric = true ∧ selCopy (Init.svc 0) = some 0 ∧ y11.rd F.CHW_SELECT_INDEX = 5 ∧ 5 < 32768 ∧ chwReach y11 5 = true ∧ (List.filter (fun i => holds
    y11 i 5 0) (frames y11) = []) ∧ bankMode y11 (y11.rd I.mapPage (16 * 5) / 2048) ≠ 1 ∧ (0 < 4096 * y11.rd I.mapPage (16 * 5) + 512 + 4 * 0 ∨ 4096 *
    y11.rd I.mapPage (16 * 5) + 512 + 4 * 0 + 4 ≤ 0)) ∧
  (((base mSERVICE).fabric = false ∨ maySpill (base mSERVICE) = false)) ∧
  (y3.fabric = true ∧ maySpill y3 = true ∧ y3.rd F.CPG_SPILLCFG_LOW ≤ freePages y3 ∧ y3.rd I.spillRun = 0) ∧
  (y5.fabric = true ∧ maySpill y5 = true ∧ freePages y5 < y5.rd F.CPG_SPILLCFG_LOW ∧ freePages y5 < y5.rd F.CPG_SPILLCFG_HIGH ∧ coldest y5 none = none) ∧
  (y4.fabric = true ∧ maySpill y4 = true ∧ freePages y4 < y4.rd F.CPG_SPILLCFG_LOW ∧ freePages y4 < y4.rd F.CPG_SPILLCFG_HIGH ∧ coldest y4 none = some 5
    ∧ 0 < 16 ∧ y4.rd I.mapLvl (16 * 5 + 0) = 1) ∧
  (y6.fabric = true ∧ maySpill y6 = true ∧ y6.rd I.spillRun = 1 ∧ y6.rd F.CPG_SPILLCFG_LOW ≤ freePages y6 ∧ y6.rd F.CPG_SPILLCFG_HIGH ≤ freePages y6) ∧
  (((base mSERVICE).rd I.mapLvl (16 * 5 + 0) ≠ 2 ∨ ¬(wanted (base mSERVICE) 5 0 = true ∨ (base mSERVICE).rd F.CHW_CTX_CMD_LOAD 5 = 1))) ∧
  (y7.fabric = true ∧ y7.rd I.mapLvl (16 * 5 + 0) = 2 ∧ spillArea y7 = true ∧ (wanted y7 5 0 = true ∨ y7.rd F.CHW_CTX_CMD_LOAD 5 = 1) ∧ (fitsNow y7 1
    (y7.rd I.ctxPool 5) = true ∧ inflight y7 < 1024) ∧ (∃ n < 32768, bankOk y7 (n / 2048) = true ∧ y7.rd I.pgUse n = 0 ∧ y7.rd I.pgBad n = 0)) ∧
  (y9.fabric = true ∧ y9.rd I.mapLvl (16 * 5 + 0) = 2 ∧ spillArea y9 = true ∧ (wanted y9 5 0 = true ∨ y9.rd F.CHW_CTX_CMD_LOAD 5 = 1) ∧ (¬(fitsNow y9 1
    (y9.rd I.ctxPool 5) = true ∧ inflight y9 < 1024)) ∧ maySpill y9 = false ∧ spilling y9 = [] ∧ wanted y9 5 0 = true) ∧
  (y8.fabric = true ∧ y8.rd I.mapLvl (16 * 5 + 0) = 2 ∧ spillArea y8 = true ∧ (wanted y8 5 0 = true ∨ y8.rd F.CHW_CTX_CMD_LOAD 5 = 1) ∧ (¬(fitsNow y8 1
    (y8.rd I.ctxPool 5) = true ∧ inflight y8 < 1024)) ∧ maySpill y8 = false ∧ spilling y8 = [] ∧ wanted y8 5 0 = false) := by
  refine ⟨?r1, ?r2, ?r3, ?r4, ?r5, ?r6, ?r7, ?r8, ?r9, ?r10, ?r11⟩
  all_goals try decide +kernel
  all_goals repeat' apply And.intro
  all_goals first
    | decide +kernel
    | exact ⟨100, by decide +kernel⟩

end Contexts

namespace Frames

def wait64 : List (Fld × Nat × Nat) := (List.range 64).map (fun c => (I.waiting, c, 1)) ++ (List.range 8).map (fun c => (F.CLU_STAT_STATE, c, clRUN))
def z1 := puts (base mSERVICE) (wait64 ++ [(F.TSU_T_STAT_STATE, 2, tCOMMITTED), (I.cNext, 0, 3), (I.jCv, 2, 1), (I.jCid, 2, 5), (I.jWs, 2, 2), (I.mapLvl, 81, 1), (I.mapPage, 81, 7), (I.pgUse, 7, 82)])
def z2 : State := { puts (base mSERVICE) [(F.CPG_FRAME_STATE, 0, fSTAGED), (F.CPG_FRAME_CID, 0, 5), (F.CPG_FRAME_VPAGE, 0, 1), (I.frIn, 0, 1), (I.mapPage, 81, 7), (F.PMU_CSTBANK_MODE, 0, 0),
  (F.CPG_FRAME_STATE, 1, fWBPEND), (F.CPG_FRAME_CID, 1, 6), (F.CPG_FRAME_VPAGE, 1, 0), (F.CPG_FRAME_DIRTY, 1, 1), (I.frOut, 1, 1), (I.mapPage, 96, 8),
  (F.CPG_FRAME_STATE, 1023, fWBPEND), (F.CPG_FRAME_STATE, 1022, fWBPEND), (F.CPG_FRAME_CID, 1022, 6), (F.CPG_FRAME_VPAGE, 1022, 2), (I.frOut, 1022, 0),
  (F.CPG_FRAME_STATE, 15, fWBPEND), (I.mapMove, 16 * 7 + 1, 2), (I.mapLvl, 16*7+1, 3), (I.mapPage, 16*7+1, 9)] with mem := [(7 * 4096 + 5, 9), (0x30001003, 0x33), (0x30001203, 0x34), (0x30001403, 0x35), (0x100000000 + 4096 * 113 + 7, 0x44)] }
def e1 := puts (base mSERVICE) [(F.CPG_SCRUB_EN, 0, 1), (I.pgUse, 1, 82), (F.CHW_CTX_STAT_STATE, 5, cALLOC), (I.mapLvl, 81, 1), (I.mapPage, 81, 1)]
def e2 := puts e1 [(F.CPG_ECCREC_VALID, 0, 1), (F.CPG_SCRUB_EN, 0, 0)]
def e3 := puts (view (sg 0)) [(F.TSU_T_STAT_STATE, 0, tRUNNING), (I.cJob, 0, 1), (I.tLvl, 0, 4)]

/-- States and operands that meet the hypotheses of FramesAreStagedAndWrittenBack, clause by clause: each group in parentheses meets
those of one clause together. -/
theorem test_meets_FramesAreStagedAndWrittenBack :
  ((base mSERVICE).serving = true ∧ (base mSERVICE).nonzero I.tProv = [] ∧ nextTask (base mSERVICE) 0 = none) ∧
  (z1.serving = true ∧ z1.nonzero I.tProv = [] ∧ nextTask z1 0 = some 2 ∧ setCtx z1 2 = true ∧ z1.rd I.stCore 2 = 0 ∧ cluSt z1 (0 / 8) ≠ clPWROFF ∧
    z1.rd F.CLU_STAT_DRAINWB (0 / 8) = 0 ∧ setPages z1 2 = [1] ∧ lvl z1 (nextCid z1 2) 1 = 1 ∧ stagingWaits z1 2 (nextCid z1 2) 1 = false ∧ cachedCopy
    z1 0 (nextCid z1 2) 1 = none ∧ chooseFrame z1 0 (z1.rd I.mapMem (16 * nextCid z1 2 + 1)) [] (reserveOk z1 0) = some 0 ∧ inflight z1 < 1024 ∧ 2 <
    65536) ∧
  ((base mSERVICE).rd I.frIn (16 * 0 + 0) = 0) ∧
  (z2.rd I.frIn (16 * 0 + 0) = 1 ∧ bankMode z2 (4096 * z2.rd I.mapPage (16 * z2.rd F.CPG_FRAME_CID (16 * 0 + 0) + z2.rd F.CPG_FRAME_VPAGE (16 * 0 + 0))
    / 8388608) ≠ 1 ∧ z2.rd F.CPG_STAGECNT_COUNT + 2 < 2 ^ 32 ∧ (z2.rd I.frOwner (16 * 0 + 0) = 0 ∨ taskSt z2 (z2.rd I.frOwner (16 * 0 + 0) - 1) ≠
    tRUNNING)) ∧
  ((base mSERVICE).rd I.mapMove (16 * 5 + 0) = 0) ∧
  (z2.rd I.mapMove (16 * 7 + 1) = 2 ∧ z2.rd F.CHW_CTX_CMD_LOAD 7 = 0 ∧ z2.rd F.CHW_CTX_CMD_SPILL 7 = 0 ∧ z2.rd F.CHW_CTX_CMD_RELEASE 7 = 0 ∧ z2.nonzero
    F.CHW_CTX_CMD_ALLOC = [] ∧ (∀ j < 64, z2.rd I.cJob j = 0) ∧ z2.rd F.CPG_RELOADCNT_COUNT + 2 < 2 ^ 32 ∧ bankMode z2 (4096 * z2.rd I.mapPage (16 * 7
    + 1) / 8388608) ≠ 1) ∧
  (inflight (base mSERVICE) + 16 ≤ 1024 ∧ 0 < 16) ∧
  ((base mSERVICE).rd I.frOut (16 * 0 + 0) = 0) ∧
  (z2.rd I.frOut (16 * 0 + 1) = 1 ∧ frSt z2 (16 * 0 + 1) = fWBPEND ∧ (16 * 0 + 1) % 8 ≠ 7 ∧ bankMode z2 (4096 * z2.rd I.mapPage (16 * z2.rd
    F.CPG_FRAME_CID (16 * 0 + 1) + z2.rd F.CPG_FRAME_VPAGE (16 * 0 + 1)) / 8388608) ≠ 1 ∧ (∀ j ∈ frames z2, j ≠ 16 * 0 + 1 → holds z2 j (z2.rd
    F.CPG_FRAME_CID (16 * 0 + 1)) (z2.rd F.CPG_FRAME_VPAGE (16 * 0 + 1)) = false) ∧ z2.rd F.CPG_WBCNT_COUNT + 2 < 2 ^ 32 ∧ (∀ d < 64, z2.rd I.cJob d =
    0)) := by
  refine ⟨?r1, ?r2, ?r3, ?r4, ?r5, ?r6, ?r7, ?r8, ?r9⟩
  all_goals decide +kernel

/-- States and operands that meet the hypotheses of MemoryErrorsAreContained, clause by clause: each group in parentheses meets
those of one clause together. -/
theorem test_meets_MemoryErrorsAreContained :
  (bitOf ((base mSERVICE).rd F.MLS_ERRSEL_SEL) 3 = false ∧ bitOf ((base mSERVICE).rd F.MLS_ERRSEL_SEL) 4 = false ∧ bitOf ((base mSERVICE).rd
    F.MLS_ERRSEL_SEL) 5 = false ∧ (base mSERVICE).fabric = true ∧ (268435456 ≤ 268435456 ∧ 268435456 < 301989888)) ∧
  (bitOf ((base mSERVICE).rd F.MLS_ERRSEL_SEL) 3 = false ∧ bitOf ((base mSERVICE).rd F.MLS_ERRSEL_SEL) 4 = false ∧ bitOf ((base mSERVICE).rd
    F.MLS_ERRSEL_SEL) 5 = false ∧ (base mSERVICE).fabric = true ∧ (536870912 ≤ 536871203 ∧ 536871203 < 545259520)) ∧
  (bitOf ((base mSERVICE).rd F.MLS_ERRSEL_SEL) 3 = false ∧ bitOf ((base mSERVICE).rd F.MLS_ERRSEL_SEL) 4 = false ∧ bitOf ((base mSERVICE).rd
    F.MLS_ERRSEL_SEL) 5 = false ∧ (base mSERVICE).fabric = true ∧ 0 < 134217728 ∧ (base mSERVICE).rd I.pgUse (0 / 4096) = 0 ∧ (base mSERVICE).rd
    I.pgBad (0 / 4096) = 0) ∧
  (bitOf (e1.rd F.MLS_ERRSEL_SEL) 3 = false ∧ bitOf (e1.rd F.MLS_ERRSEL_SEL) 4 = false ∧ bitOf (e1.rd F.MLS_ERRSEL_SEL) 5 = false ∧ e1.fabric = true ∧
    4096 < 134217728 ∧ e1.rd I.pgUse (4096 / 4096) = 81 + 1 ∧ ctxState e1 (81 / 16) ≠ cQUAR ∧ frames e1 = [] ∧ tasks e1 = [] ∧ (∀ d < 32, dmaActive e1
    d = false) ∧ e1.rd F.CPG_QUARREC_VALID = 0) ∧
  (bitOf ((base mSERVICE).rd F.MLS_ERRSEL_SEL) 3 = false ∧ bitOf ((base mSERVICE).rd F.MLS_ERRSEL_SEL) 4 = false ∧ bitOf ((base mSERVICE).rd
    F.MLS_ERRSEL_SEL) 5 = false ∧ (base mSERVICE).fabric = true ∧ (4294967296 ≤ 4294967296 ∧ 4294967296 < 38654705664) ∧ (base mSERVICE).rd
    F.DMC_ECCUNC_COUNT + 2 < 2 ^ 32 ∧ (base mSERVICE).rd F.DMC_ERRADDR_HI_VALID = 0) ∧
  (bitOf (e2.rd F.MLS_ERRSEL_SEL) 3 = false ∧ bitOf (e2.rd F.MLS_ERRSEL_SEL) 4 = false ∧ bitOf (e2.rd F.MLS_ERRSEL_SEL) 5 = false ∧ e2.fabric = true ∧
    e2.rd F.CPG_SCRUB_EN = 0) ∧
  (bitOf ((base mSERVICE).rd F.MLS_ERRSEL_SEL) 3 = false ∧ bitOf ((base mSERVICE).rd F.MLS_ERRSEL_SEL) 4 = false ∧ bitOf ((base mSERVICE).rd
    F.MLS_ERRSEL_SEL) 5 = false ∧ (base mSERVICE).fabric = true ∧ (base mSERVICE).rd F.CPG_SCRUB_EN = 1 ∧ (base mSERVICE).rd F.CPG_ECCCOR_COUNT + 0 +
    1 < 2 ^ 32) ∧
  (bitOf ((base mSERVICE).rd F.MLS_ERRSEL_SEL) 3 = false ∧ bitOf ((base mSERVICE).rd F.MLS_ERRSEL_SEL) 4 = false ∧ bitOf ((base mSERVICE).rd
    F.MLS_ERRSEL_SEL) 5 = false ∧ ((base mSERVICE).rd I.cJob = 0 ∨ (base mSERVICE).rd I.frBad (16 * 0 + 0) = 1)) ∧
  (bitOf (e3.rd F.MLS_ERRSEL_SEL) 3 = false ∧ bitOf (e3.rd F.MLS_ERRSEL_SEL) 4 = false ∧ bitOf (e3.rd F.MLS_ERRSEL_SEL) 5 = false ∧ e3.serving = true ∧
    e3.rd I.frBad (16 * 0 + 0) = 0 ∧ e3.rd I.cJob = 0 + 1 ∧ e3.rd I.jCancel = 0 ∧ e3.rd I.jRetry = 0 ∧ e3.rd F.TSU_CTRL_RUN = 0) := by
  refine ⟨⟨?h1, ?h2, ?h3, ?h4, ?r1⟩, ⟨?h1, ?h2, ?h3, ?h4, ?r2⟩, ⟨?h1, ?h2, ?h3, ?h4, ?r3⟩, ?r4, ⟨?h1, ?h2, ?h3, ?h4, ?r5⟩, ?r6, ⟨?h1, ?h2, ?h3, ?h4,
    ?r7⟩, ⟨?h1, ?h2, ?h3, ?r8⟩, ?r9⟩
  all_goals decide +kernel

end Frames

namespace Dma

def ch (n src dst len : Nat) : List (Fld × Nat × Nat) := [(F.DMA_C_SRC_LO_ADDR, n, src), (F.DMA_C_DST_LO_ADDR, n, dst), (F.DMA_C_LEN_LEN, n, len)]
def run (n src dst len ofs mode st : Nat) : List (Fld × Nat × Nat) := [(I.dSrc, n, src), (I.dDst, n, dst), (I.dLen, n, len), (F.DMA_C_OFS_OFS, n, ofs), (I.dMode, n, mode), (F.DMA_C_STAT_STATE, n, st)]
def d1 := puts (base mSERVICE) (ch 0 0x20000000 0x20001000 512 ++ ch 1 0x20000002 0x20001000 512 ++ ch 31 0x20000000 0x20001000 0)
def d2 : State := { puts (base mSERVICE) (run 0 0x20000000 0x20000F04 512 0 12 dRUN ++ run 1 0x20000000 0x20001000 512 256 12 dRUN ++ run 31 0x20000000 0x20000080 768 0 12 dRUN) with mem := (List.range 600).map fun k => (0x20000000 + k, BitVec.ofNat 8 (k % 255 + 1)) }
def d3 := puts (base mSERVICE) (run 0 0 0x20001000 512 0 4 dRUN ++ [(I.dCtx, 0, 0x8005)] ++ run 1 0 0 4 0 12 dWAIT ++ [(I.dWait, 1, 82), (I.mapLvl, 81, 1)] ++ run 31 0 0 8 0 14 dWAIT ++ [(I.dmcTrain, 0, 1)])
def d4 := puts (base mSERVICE) [(F.DMC_CTRL_RESUME, 0, 1)]
def q1 : State := { base mSERVICE with queues := [(0, ⟨[⟨1, true⟩, ⟨2, true⟩, ⟨3, false⟩], [], 5, 0, false, false, 0, false⟩), (1, ⟨[⟨1, true⟩], [⟨9, false⟩, ⟨8, true⟩], 5, 0, true, true, 2, true⟩), (5, ⟨[⟨1, true⟩], [], 0, 0, false, false, 0, false⟩)] }

/-- States and operands that meet the hypotheses of DmaCopiesAndDramTrains, clause by clause: each group in parentheses meets
those of one clause together. -/
theorem test_meets_DmaCopiesAndDramTrains :
  (d2.fabric = true ∧ dmaActive d2 0 = true ∧ bitOf 0 30 = false) ∧
  ((base mSERVICE).fabric = true ∧ dmaActive (base mSERVICE) 0 = false ∧ bitOf 0 31 = false) ∧
  (d1.fabric = true ∧ dmaActive d1 0 = false ∧ bitOf 2147483653 31 = true ∧ (sideAddr d1 F.DMA_C_SRC_LO_ADDR F.DMA_C_SRC_HI_ADDR 0 % 4 = 0 ∧ sideAddr d1
    F.DMA_C_DST_LO_ADDR F.DMA_C_DST_HI_ADDR 0 % 4 = 0 ∧ d1.rd F.DMA_C_LEN_LEN % 4 = 0) ∧ d1.rd F.DMA_C_LEN_LEN ≠ 0) ∧
  ((base mSERVICE).fabric = true ∧ dmaActive (base mSERVICE) 0 = false ∧ bitOf 2147483653 31 = true ∧ (sideAddr (base mSERVICE) F.DMA_C_SRC_LO_ADDR
    F.DMA_C_SRC_HI_ADDR 0 % 4 = 0 ∧ sideAddr (base mSERVICE) F.DMA_C_DST_LO_ADDR F.DMA_C_DST_HI_ADDR 0 % 4 = 0 ∧ (base mSERVICE).rd F.DMA_C_LEN_LEN %
    4 = 0) ∧ (base mSERVICE).rd F.DMA_C_LEN_LEN = 0 ∧ bitOf 2147483653 1 = false) ∧
  (d1.fabric = true ∧ dmaActive d1 1 = false ∧ bitOf 2147483653 31 = true ∧ (¬(sideAddr d1 F.DMA_C_SRC_LO_ADDR F.DMA_C_SRC_HI_ADDR 1 % 4 = 0 ∧ sideAddr
    d1 F.DMA_C_DST_LO_ADDR F.DMA_C_DST_HI_ADDR 1 % 4 = 0 ∧ d1.rd F.DMA_C_LEN_LEN 1 % 4 = 0)) ∧ bitOf 2147483653 1 = false) ∧
  (d2.fabric = true ∧ dmaActive d2 0 = true ∧ bitOf (d2.rd I.dMode) 1 = false) ∧
  ((base mSERVICE).fabric = true ∧ (base mSERVICE).rd F.DMA_C_STAT_STATE ≠ dWAIT) ∧
  (d3.fabric = true ∧ d3.rd F.DMA_C_STAT_STATE 1 = dWAIT ∧ dmaMustWait d3 ((d3.rd I.dWait 1 - 1) / 16) ((d3.rd I.dWait 1 - 1) % 16) = false) ∧
  ((base mSERVICE).fabric = true ∧ (base mSERVICE).rd F.DMA_C_STAT_STATE ≠ dRUN) ∧
  (d2.fabric = true ∧ d2.rd F.DMA_C_STAT_STATE = dRUN ∧ bitOf (d2.rd I.dMode) 1 = false ∧ bitOf (d2.rd I.dMode) 3 = true ∧ bitOf (d2.rd I.dMode) 2 =
    true ∧ (536870912 ≤ d2.rd I.dSrc + d2.rd F.DMA_C_OFS_OFS ∧ d2.rd I.dSrc + d2.rd F.DMA_C_OFS_OFS + burstLen (d2.rd I.dSrc + d2.rd F.DMA_C_OFS_OFS)
    (d2.rd I.dDst + d2.rd F.DMA_C_OFS_OFS) (d2.rd I.dLen - d2.rd F.DMA_C_OFS_OFS) ≤ 545259520 ∧ (d2.rd I.dSrc + d2.rd F.DMA_C_OFS_OFS) % 4 = 0) ∧
    (536870912 ≤ d2.rd I.dDst + d2.rd F.DMA_C_OFS_OFS ∧ d2.rd I.dDst + d2.rd F.DMA_C_OFS_OFS + burstLen (d2.rd I.dSrc + d2.rd F.DMA_C_OFS_OFS) (d2.rd
    I.dDst + d2.rd F.DMA_C_OFS_OFS) (d2.rd I.dLen - d2.rd F.DMA_C_OFS_OFS) ≤ 545259520 ∧ (d2.rd I.dDst + d2.rd F.DMA_C_OFS_OFS) % 4 = 0) ∧ d2.rd
    I.dLen % 4 = 0 ∧ d2.rd F.DMA_C_OFS_OFS ≤ d2.rd I.dLen ∧ d2.rd F.DMA_C_OFS_OFS % 4 = 0 ∧ sideEnding d2 0 (d2.rd I.dSrc + d2.rd F.DMA_C_OFS_OFS)
    true false = Ending.ok ∧ sideEnding d2 0 (d2.rd I.dDst + d2.rd F.DMA_C_OFS_OFS) true true = Ending.ok) ∧
  (d3.fabric = true ∧ d3.rd F.DMA_C_STAT_STATE = dRUN ∧ bitOf (d3.rd I.dMode) 1 = false ∧ bitOf (d3.rd I.dMode) 3 = false ∧ d3.rd I.dSrc + d3.rd
    F.DMA_C_OFS_OFS < 65536 ∧ bitOf (d3.rd I.dCtx) 15 = true ∧ ctxState d3 (d3.rd I.dCtx % 32768) ≠ cQUAR ∧ notPresent d3 (d3.rd I.dCtx % 32768)
    ((d3.rd I.dSrc + d3.rd F.DMA_C_OFS_OFS) / 4096) = true) ∧
  (d4.fabric = true ∧ d4.rd I.dmcTrain = 0 ∧ d4.rd F.DMC_CTRL_RESUME = 1) ∧
  ((base mSERVICE).fabric = true ∧ (base mSERVICE).rd I.dmcTrain = 0 ∧ (0 < 4294967296 ∨ 38654705664 ≤ 0)) ∧
  (d3.fabric = true ∧ d3.rd I.dmcTrain = 1) := by
  refine ⟨⟨?h1, ?h2, ?r1⟩, ⟨?h4, ?h5, ?r2⟩, ⟨?h7, ?r3⟩, ⟨?h4, ?h5, ?h9, ?r4⟩, ⟨?h7, ?r5⟩, ⟨?h1, ?h2, ?h17⟩, ⟨?h4, ?r6⟩, ⟨?h19, ?r7⟩, ⟨?h4, ?r8⟩, ⟨?h1,
    ?r9⟩, ⟨?h19, ?r10⟩, ?r11, ⟨?h4, ?r12⟩, ⟨?h19, ?r13⟩⟩
  all_goals decide +kernel

/-- States and operands that meet the hypotheses of QueuesSwapFlushAndReset, clause by clause: each group in parentheses meets
those of one clause together. -/
theorem test_meets_QueuesSwapFlushAndReset :
  ((base mSERVICE).fabric = true ∧ (((base mSERVICE).queue 0).cons ≠ [] ∨ ((base mSERVICE).queue 0).complete = [] ∨ ((base mSERVICE).queue 0).swap =
    true)) ∧
  (q1.fabric = true ∧ (q1.queue 0).cons = [] ∧ (q1.queue 0).complete ≠ [] ∧ (q1.queue 0).swap = false ∧ 1 ≠ 0) ∧
  ((base mSERVICE).fabric = true ∧ ((base mSERVICE).queue 0).flush = false ∧ ((base mSERVICE).queue 0).partialWords = [] ∧ 1 ≠ 0) ∧
  (q1.fabric = true ∧ (q1.queue 0).flush = false ∧ (q1.queue 0).partialWords ≠ [] ∧ 1 ≠ 0) ∧
  ((base mSERVICE).fabric = true ∧ (((base mSERVICE).queue 0).flush = false ∨ ((base mSERVICE).queue 0).fixed = false ∨ ((base mSERVICE).queue 0).reader
    ≠ 0)) ∧
  (q1.fabric = true ∧ (q1.queue 1).flush = true ∧ (q1.queue 1).fixed = true ∧ (q1.queue 1).reader = 0 ∧ 0 ≠ 1) := by
  refine ⟨⟨?h1, ?r1⟩, ⟨?h3, ?r2⟩, ⟨?h1, ?r3⟩, ⟨?h3, ?r4⟩, ⟨?h1, ?r5⟩, ⟨?h3, ?r6⟩⟩
  all_goals decide +kernel

end Dma

namespace Channels

def ok (s : State) : State := puts s [(I.ctxv, 0, 0x00010000)]
def jb (len esz req hseq lp fl : Nat) (more : List (Nat × Nat)) : State := md2 (puts (base mSERVICE) [(F.PKE_CTRL_RUN, 0, 1)]) ([(0x10000000, req + esz * 65536), (0x10000004, len), (0x10000008, hseq + lp * 65536), (0x1000000C, fl)] ++ more)
def g09x0 : State := ok (cw 0 1 [(264, 305419896), (388, 1280), (384, 1073741824), (1348, 4294967295)])
def g09x1 : State := ok (cw 3 3 [(1280, 4294967295), (256, 536870912)])
def g09x2 : State := cw 2 6 [(1536, 1), (1048, 2147488308), (1052, 2147483648)]
def g09x3 : State := cw 2 0 [(1052, 2147483648), (1540, 3), (1048, 2147549188), (60, 16), (56, 2147483648), (64, 4096)]
def g09x4 : State := jb 4 32 4 5 2 0 [(268435520, 65540), (268435480, 4294967295)]

/-- States and operands that meet the hypotheses of ChannelsFollowCommandsAndPackets, clause by clause: each group in parentheses meets
those of one clause together. -/
theorem test_meets_ChannelsFollowCommandsAndPackets_1 :
  (mediaPage (base mSERVICE) 0 = none) ∧
  (mediaPage (view (sg 0)) 0 = some 9 ∧ (bits (mw (view (sg 0)) 9 0) 19 16 ≠ 1 ∨ cmdPending (view (sg 0)) 9 = false)) ∧
  (mediaPage (view (sg 0)) 0 = some 9 ∧ (bits (mw (view (sg 0)) 9 0) 19 16 ≠ 2 ∨ cmdPending (view (sg 0)) 9 = false)) ∧
  (mediaPage (view (sg 0)) 0 = some 9 ∧ (bits (mw (view (sg 0)) 9 0) 19 16 ≠ 3 ∨ cmdPending (view (sg 0)) 9 = false)) ∧
  (mediaPage (view (sg 0)) 0 = some 9 ∧ (bits (mw (view (sg 0)) 9 0) 19 16 ≠ 4 ∨ cmdPending (view (sg 0)) 9 = false)) ∧
  (mediaPage (view (sg 0)) 0 = some 9 ∧ (bits (mw (view (sg 0)) 9 0) 19 16 ≠ 5 ∨ cmdPending (view (sg 0)) 9 = false)) ∧
  (mediaPage (view (sg 0)) 0 = some 9 ∧ (bits (mw (view (sg 0)) 9 0) 19 16 ≠ 6 ∨ cmdPending (view (sg 0)) 9 = false)) ∧
  (mediaPage (view (sg 0)) 0 = some 9 ∧ (bits (mw (view (sg 0)) 9 0) 19 16 ≠ 7 ∨ cmdPending (view (sg 0)) 9 = false)) ∧
  (mediaPage (view (sg 0)) 0 = some 9 ∧ (chanState (view (sg 0)) 9 ≠ chARMED ∨ startDue (view (sg 0)) 9 305419896 = false)) ∧
  (mediaPage (cw 1 0 [(1348, 0)]) 0 = some 9 ∧ chanState (cw 1 0 [(1348, 0)]) 9 = chARMED ∧ startDue (cw 1 0 [(1348, 0)]) 9 305419896 = true ∧ (∀ o ∈
    List.map (fun x => x.1) [(1024, putField (mw (cw 1 0 [(1348, 0)]) 9 1024) 3 0 chACTIVE)], 0 < frameAddr 9 + o ∨ frameAddr 9 + o + 4 ≤ 0)) ∧
  (mediaPage (cw 1 1 [(1348, 0)]) 0 = some 9 ∧ cmdPending (cw 1 1 [(1348, 0)]) 9 = true ∧ bits (mw (cw 1 1 [(1348, 0)]) 9 0) 19 16 = 1 ∧
    (¬commandAllowed (bits (mw (cw 1 1 [(1348, 0)]) 9 0) 19 16) (chanState (cw 1 1 [(1348, 0)]) 9)) ∧ (∀ o ∈ List.map (fun x => x.1) [(1024, putField
    (takenWord (cw 1 1 [(1348, 0)]) 9) 23 20 1)], 0 < frameAddr 9 + o ∨ frameAddr 9 + o + 4 ≤ 0)) ∧
  (mediaPage (cw 0 2 [(1348, 0)]) 0 = some 9 ∧ cmdPending (cw 0 2 [(1348, 0)]) 9 = true ∧ bits (mw (cw 0 2 [(1348, 0)]) 9 0) 19 16 = 2 ∧
    (¬commandAllowed (bits (mw (cw 0 2 [(1348, 0)]) 9 0) 19 16) (chanState (cw 0 2 [(1348, 0)]) 9)) ∧ (∀ o ∈ List.map (fun x => x.1) [(1024, putField
    (takenWord (cw 0 2 [(1348, 0)]) 9) 23 20 1)], 0 < frameAddr 9 + o ∨ frameAddr 9 + o + 4 ≤ 0)) ∧
  (mediaPage (cw 0 3 [(1348, 0)]) 0 = some 9 ∧ cmdPending (cw 0 3 [(1348, 0)]) 9 = true ∧ bits (mw (cw 0 3 [(1348, 0)]) 9 0) 19 16 = 3 ∧
    (¬commandAllowed (bits (mw (cw 0 3 [(1348, 0)]) 9 0) 19 16) (chanState (cw 0 3 [(1348, 0)]) 9)) ∧ (∀ o ∈ List.map (fun x => x.1) [(1024, putField
    (takenWord (cw 0 3 [(1348, 0)]) 9) 23 20 1)], 0 < frameAddr 9 + o ∨ frameAddr 9 + o + 4 ≤ 0)) ∧
  (mediaPage (cw 0 4 [(1348, 0)]) 0 = some 9 ∧ cmdPending (cw 0 4 [(1348, 0)]) 9 = true ∧ bits (mw (cw 0 4 [(1348, 0)]) 9 0) 19 16 = 4 ∧
    (¬commandAllowed (bits (mw (cw 0 4 [(1348, 0)]) 9 0) 19 16) (chanState (cw 0 4 [(1348, 0)]) 9)) ∧ (∀ o ∈ List.map (fun x => x.1) [(1024, putField
    (takenWord (cw 0 4 [(1348, 0)]) 9) 23 20 1)], 0 < frameAddr 9 + o ∨ frameAddr 9 + o + 4 ≤ 0)) ∧
  (mediaPage (cw 0 1 [(1348, 0)]) 0 = some 9 ∧ cmdPending (cw 0 1 [(1348, 0)]) 9 = true ∧ (bits (mw (cw 0 1 [(1348, 0)]) 9 0) 19 16 = 1 ∧ chanState (cw
    0 1 [(1348, 0)]) 9 = chALLOCATED ∨ bits (mw (cw 0 1 [(1348, 0)]) 9 0) 19 16 = 3 ∧ chanState (cw 0 1 [(1348, 0)]) 9 = chHELD) ∧ badCfg (cw 0 1
    [(1348, 0)]) 9 = true ∧ popcount 16 ((pagesNeeded (cw 0 1 [(1348, 0)]) 9).land 32767) ≤ 8 ∧ (∀ o ∈ List.map (fun x => x.1) [(1024, putField
    (takenWord (cw 0 1 [(1348, 0)]) 9) 23 20 5)], 0 < frameAddr 9 + o ∨ frameAddr 9 + o + 4 ≤ 0)) ∧
  (mediaPage g09x0 0 = some 9 ∧ cmdPending g09x0 9 = true ∧ bits (mw g09x0 9 0) 19 16 = 1 ∧ chanState g09x0 9 = chALLOCATED ∧ badCfg g09x0 9 = false ∧
    faxMode g09x0 9 ≠ 2 ∧ (∀ k < 4, mw g09x0 9 (388 + 4 * k) % 256 = 0) ∧ 0 < 4) ∧
  (mediaPage g09x0 0 = some 9 ∧ cmdPending g09x0 9 = true ∧ bits (mw g09x0 9 0) 19 16 = 1 ∧ chanState g09x0 9 = chALLOCATED ∧ badCfg g09x0 9 = false ∧
    faxMode g09x0 9 ≠ 2 ∧ (∀ k < 4, mw g09x0 9 (388 + 4 * k) % 256 = 0) ∧ (∀ o ∈ [1024, 1348, 1632, 1648, 1652, 1656, 1660] ++ List.map (fun x => x.1)
    [(1280, putField (putField (mw g09x0 9 1280) 31 28 (bits (mw g09x0 9 256) 31 28)) 11 8 0), (1552, mw g09x0 9 256), (1560, 0), (1284, putField
    (putField (mw g09x0 9 1284) 31 28 (bits (mw g09x0 9 264) 31 28)) 11 8 0), (1556, mw g09x0 9 264), (1564, 0), (1576, 0)], 0 < frameAddr 9 + o ∨
    frameAddr 9 + o + 4 ≤ 0)) ∧
  (mediaPage (cw 2 2 [(1348, 0)]) 0 = some 9 ∧ cmdPending (cw 2 2 [(1348, 0)]) 9 = true ∧ bits (mw (cw 2 2 [(1348, 0)]) 9 0) 19 16 = 2 ∧ chanState (cw 2
    2 [(1348, 0)]) 9 = chACTIVE ∧ (∀ (r : Bool), lvlBit (cw 2 2 [(1348, 0)]) 9 r 2 = false) ∧ (∀ o ∈ List.map (fun x => x.1) [(1024, putField
    (putField (takenWord (cw 2 2 [(1348, 0)]) 9) 3 0 chHELD) 23 20 0), (1152, putField (mw (cw 2 2 [(1348, 0)]) 9 1152) 20 20 0), (1600, 0)], 0 <
    frameAddr 9 + o ∨ frameAddr 9 + o + 4 ≤ 0)) := by
  refine ⟨?r1, ⟨?h2, ?r2⟩, ⟨?h2, ?r3⟩, ⟨?h2, ?r4⟩, ⟨?h2, ?r5⟩, ⟨?h2, ?r6⟩, ⟨?h2, ?r7⟩, ⟨?h2, ?r8⟩, ⟨?h2, ?r9⟩, ?r10, ?r11, ?r12, ?r13, ?r14, ?r15,
    ⟨?h41, ?h42, ?h43, ?h44, ?h45, ?h46, ?h47, ?r16⟩, ⟨?h41, ?h42, ?h43, ?h44, ?h45, ?h46, ?h47, ?r17⟩, ?r18⟩
  all_goals try decide +kernel
  all_goals repeat' apply And.intro
  all_goals first
    | decide +kernel
    | exact not_allowed _ _ (by decide +kernel)

/-- States and operands that meet the hypotheses of ChannelsFollowCommandsAndPackets, clause by clause: each group in parentheses meets
those of one clause together. -/
theorem test_meets_ChannelsFollowCommandsAndPackets_2 :
  (mediaPage g09x1 0 = some 9 ∧ cmdPending g09x1 9 = true ∧ bits (mw g09x1 9 0) 19 16 = 3 ∧ chanState g09x1 9 = chHELD ∧ badCfg g09x1 9 = false ∧
    faxMode g09x1 9 ≠ 2 ∧ (∀ o ∈ List.map (fun x => x.1) [(1024, putField (putField (takenWord g09x1 9) 3 0 chACTIVE) 23 20 0), (1280, putField
    (putField (mw g09x1 9 1280) 31 28 (bits (mw g09x1 9 256) 31 28)) 11 8 0), (1552, mw g09x1 9 256), (1560, 0), (1284, putField (putField (mw g09x1 9
    1284) 31 28 (bits (mw g09x1 9 264) 31 28)) 11 8 0), (1556, mw g09x1 9 264), (1564, 0), (1576, 0)], 0 < frameAddr 9 + o ∨ frameAddr 9 + o + 4 ≤ 0)) ∧
  (mediaPage (cw 1 4 [(1348, 0)]) 0 = some 9 ∧ cmdPending (cw 1 4 [(1348, 0)]) 9 = true ∧ bits (mw (cw 1 4 [(1348, 0)]) 9 0) 19 16 = 4 ∧ commandAllowed
    4 (chanState (cw 1 4 [(1348, 0)]) 9) ∧ (∀ o ∈ List.map (fun x => x.1) [(1024, putField (putField (takenWord (cw 1 4 [(1348, 0)]) 9) 3 0
    chALLOCATED) 23 20 0)], 0 < frameAddr 9 + o ∨ frameAddr 9 + o + 4 ≤ 0)) ∧
  (mediaPage (cw 0 5 [(1348, 0)]) 0 = some 9 ∧ cmdPending (cw 0 5 [(1348, 0)]) 9 = true ∧ bits (mw (cw 0 5 [(1348, 0)]) 9 0) 19 16 = 5 ∧ (∀ o ∈ List.map
    (fun x => x.1) [(1024, putField (takenWord (cw 0 5 [(1348, 0)]) 9) 23 20 0), (1048, 2 ^ 31 + bits (mw (cw 0 5 [(1348, 0)]) 9 1048) 14 0 * 65536 +
    bits (mw (cw 0 5 [(1348, 0)]) 9 1048) 14 0), (1040, putField (mw (cw 0 5 [(1348, 0)]) 9 1040) 30 30 0), (1536, putField (putField (mw (cw 0 5
    [(1348, 0)]) 9 1536) 0 0 1) 1 1 0)], 0 < frameAddr 9 + o ∨ frameAddr 9 + o + 4 ≤ 0)) ∧
  (mediaPage (cw 0 6 [(1348, 0)]) 0 = some 9 ∧ cmdPending (cw 0 6 [(1348, 0)]) 9 = true ∧ bits (mw (cw 0 6 [(1348, 0)]) 9 0) 19 16 = 6 ∧ (markEver (cw 0
    6 [(1348, 0)]) 9 = false ∧ 3 = 3 ∨ markEver (cw 0 6 [(1348, 0)]) 9 = true ∧ bitOf (mw (cw 0 6 [(1348, 0)]) 9 1048) 31 = false ∧ 3 = 4 ∨ markEver
    (cw 0 6 [(1348, 0)]) 9 = true ∧ bitOf (mw (cw 0 6 [(1348, 0)]) 9 1048) 31 = true ∧ bitOf (mw (cw 0 6 [(1348, 0)]) 9 1052) 31 = true ∧ 3 = 6) ∧ (∀
    o ∈ List.map (fun x => x.1) [(1024, putField (takenWord (cw 0 6 [(1348, 0)]) 9) 23 20 3)], 0 < frameAddr 9 + o ∨ frameAddr 9 + o + 4 ≤ 0)) ∧
  (mediaPage (cw 2 6 [(1536, 1), (1048, 2147488308)]) 0 = some 9 ∧ cmdPending (cw 2 6 [(1536, 1), (1048, 2147488308)]) 9 = true ∧ bits (mw (cw 2 6
    [(1536, 1), (1048, 2147488308)]) 9 0) 19 16 = 6 ∧ markEver (cw 2 6 [(1536, 1), (1048, 2147488308)]) 9 = true ∧ bitOf (mw (cw 2 6 [(1536, 1),
    (1048, 2147488308)]) 9 1048) 31 = true ∧ bitOf (mw (cw 2 6 [(1536, 1), (1048, 2147488308)]) 9 1052) 31 = false ∧ (∀ o ∈ List.map (fun x => x.1)
    [(1024, putField (takenWord (cw 2 6 [(1536, 1), (1048, 2147488308)]) 9) 23 20 0), (1540, rewSpan (cw 2 6 [(1536, 1), (1048, 2147488308)]) 9),
    (1052, 2 ^ 31)], 0 < frameAddr 9 + o ∨ frameAddr 9 + o + 4 ≤ 0)) ∧
  (mediaPage (cw 0 7 [(1348, 0)]) 0 = some 9 ∧ cmdPending (cw 0 7 [(1348, 0)]) 9 = true ∧ bits (mw (cw 0 7 [(1348, 0)]) 9 0) 19 16 = 7 ∧ (∀ o ∈ List.map
    (fun x => x.1) ((1024, putField (takenWord (cw 0 7 [(1348, 0)]) 9) 23 20 0) :: List.map (fun o => (o, 0)) statOffsets), 0 < frameAddr 9 + o ∨
    frameAddr 9 + o + 4 ≤ 0)) ∧
  (mediaPage (view (sg 0)) 0 = some 9 ∧ bitOf (mw (view (sg 0)) 9 1052) 31 = false) ∧
  (mediaPage g09x3 0 = some 9 ∧ bitOf (mw g09x3 9 1052) 31 = true ∧ mw g09x3 9 1540 < 32768 ∧ (capAddr g09x3 9 (mw g09x3 9 1540) ≤ rrAddr g09x3 9 0 ∨
    rrAddr g09x3 9 (rrLen g09x3 9) ≤ capAddr g09x3 9 0) ∧ 0 < mw g09x3 9 1540 ∧ 0 < recSize g09x3 9) ∧
  (mediaPage g09x2 0 = some 9 ∧ bitOf (mw g09x2 9 1052) 31 = true ∧ mw g09x2 9 1540 < 32768 ∧ (capAddr g09x2 9 (mw g09x2 9 1540) ≤ rrAddr g09x2 9 0 ∨
    rrAddr g09x2 9 (rrLen g09x2 9) ≤ capAddr g09x2 9 0) ∧ (0 < capAddr g09x2 9 0 ∨ capAddr g09x2 9 (mw g09x2 9 1540) ≤ 0) ∧ (0 < frameAddr 9 + 1052 ∨
    frameAddr 9 + 1056 ≤ 0)) ∧
  (((base mSERVICE).fabric = false ∨ (base mSERVICE).rd F.PKE_CTRL_RUN = 0)) ∧
  ((jb 4 16 4 5 2 1 []).fabric = true ∧ (jb 4 16 4 5 2 1 []).rd F.PKE_CTRL_RUN = 1 ∧ jb16 (jb 4 16 4 5 2 1 []) (jbHeader 0) 2 < [1, 2, 3, 4].length + 16
    ∧ (jb 4 16 4 5 2 1 []).rd F.PKE_CNT_COUNT 7 + 2 < 2 ^ 32) ∧
  ((jb 4 32 4 5 0 1 []).fabric = true ∧ (jb 4 32 4 5 0 1 []).rd F.PKE_CTRL_RUN = 1 ∧ 0 + 16 ≤ jb16 (jb 4 32 4 5 0 1 []) (jbHeader 0) 2 ∧ (bitOf
    (BitVec.toNat ((jb 4 32 4 5 0 1 []).byte (jbHeader 0 + 12))) 0 = true ∧ diff16 0 (jb16 (jb 4 32 4 5 0 1 []) (jbHeader 0) 10) ≤ 0)) ∧
  (g09x4.fabric = true ∧ g09x4.rd F.PKE_CTRL_RUN = 1 ∧ 0 + 16 ≤ jb16 g09x4 (jbHeader 0) 2 ∧ (¬(bitOf (BitVec.toNat (g09x4.byte (jbHeader 0 + 12))) 0 =
    true ∧ diff16 4 (jb16 g09x4 (jbHeader 0) 10) ≤ 0)) ∧ (jbValid g09x4 (jbHeader 0) (4 % jb16 g09x4 (jbHeader 0) 4) = true ∧ jb16 g09x4 (jbSlot g09x4
    (jbHeader 0) (4 % jb16 g09x4 (jbHeader 0) 4)) 0 = 4)) ∧
  ((jb 4 32 4 5 0 1 []).fabric = true ∧ (jb 4 32 4 5 0 1 []).rd F.PKE_CTRL_RUN = 1 ∧ 0 + 16 ≤ jb16 (jb 4 32 4 5 0 1 []) (jbHeader 0) 2 ∧ (¬(bitOf
    (BitVec.toNat ((jb 4 32 4 5 0 1 []).byte (jbHeader 0 + 12))) 0 = true ∧ diff16 3 (jb16 (jb 4 32 4 5 0 1 []) (jbHeader 0) 10) ≤ 0)) ∧ (¬(jbValid
    (jb 4 32 4 5 0 1 []) (jbHeader 0) (3 % jb16 (jb 4 32 4 5 0 1 []) (jbHeader 0) 4) = true ∧ jb16 (jb 4 32 4 5 0 1 []) (jbSlot (jb 4 32 4 5 0 1 [])
    (jbHeader 0) (3 % jb16 (jb 4 32 4 5 0 1 []) (jbHeader 0) 4)) 0 = 3)) ∧ ((if 0 < diff16 3 (jb16 (jb 4 32 4 5 0 1 []) (jbHeader 0) 8) then 3 else
    jb16 (jb 4 32 4 5 0 1 []) (jbHeader 0) 8) % jb16 (jb 4 32 4 5 0 1 []) (jbHeader 0) 4 < jb16 (jb 4 32 4 5 0 1 []) (jbHeader 0) 8 % jb16 (jb 4 32 4
    5 0 1 []) (jbHeader 0) 4 ∧ jb16 (jb 4 32 4 5 0 1 []) (jbHeader 0) 0 ≠ jb16 (jb 4 32 4 5 0 1 []) (jbHeader 0) 4 ∧ jbLenOk (jb16 (jb 4 32 4 5 0 1
    []) (jbHeader 0) 0) = true → ∀ (j : ℕ), jb16 (jb 4 32 4 5 0 1 []) (jbHeader 0) 0 ≤ j → j < jb16 (jb 4 32 4 5 0 1 []) (jbHeader 0) 4 → jbValid (jb
    4 32 4 5 0 1 []) (jbHeader 0) j = false)) := by
  refine ⟨?r1, ?r2, ?r3, ?r4, ?r5, ?r6, ?r7, ?r8, ?r9, ?r10, ?r11, ⟨?h52, ?h53, ?h54, ?r12⟩, ?r13, ⟨?h52, ?h53, ?h54, ?r14⟩⟩
  all_goals try decide +kernel
  all_goals repeat' apply And.intro
  all_goals first
    | decide +kernel
    | (change _ = _ ∨ _ = _ ∨ _ = _; decide +kernel)

end Channels

namespace Media

def A (l : List (Nat × Nat)) : State := md ([(0x400, 2)] ++ l)
def g10x0 : State := A [(128, 83886080), (1152, 4294967295), (1168, 305419896), (132, 805502976)]
def g10x1 : State := A [(128, 83886080), (1152, 872415231), (1168, 305419896), (132, 805502976)]
def g10x2 : State := A [(1152, 197066752), (1188, 6), (1168, 305419896)]
def g10x3 : State := A [(8, 16777216), (128, 2149580800), (1152, 2093056)]
def g10x4 : State := A [(8, 16777216), (128, 2148532224), (1152, 2093056), (1600, 7)]
def g10x5 : State := A [(8, 16777216), (128, 2147483648), (1152, 4190208)]
def g10x6 : State := A [(8, 16777216), (128, 2147483648), (1152, 2093056), (1600, 7)]
def g10x7 : State := puts (A [(8, 67108864), (256, 268435456), (264, 268435456), (1280, 4294967295), (1284, 18)]) [(I.ctxv, 0, 65536)]
def g10x8 : State := A [(272, 2147483648), (1280, 33558272), (1312, 32519)]
def g10x9 : State := A [(284, 1342177280 + 3 * 67108864 + 0 * 16777216 + 1179648), (1312, 1275068416), (260, 1610612736), (280, 4294967295)]
def g10x10 : State := A [(272, 2684354560), (1312, 4294967295), (256, 268435456)]
def g10x11 : State := A [(284, 1342177280 + 3 * 67108864 + 1 * 16777216 + 1179648), (1312, 1275068416), (260, 1610612736), (280, 4294967295)]
def g10x12 : State := A [(284, 1342177280 + 0 * 67108864 + 1 * 16777216 + 1179648), (1312, 1275068416), (260, 1610612736), (280, 4294967295)]
def g10x13 : State := A [(284, 1342177280 + 0 * 67108864 + 2 * 16777216 + 1179648), (1312, 1275068416), (260, 1610612736), (280, 4294967295)]
def g10x14 : State := A [(284, 1342177280 + 2 * 67108864 + 0 * 16777216 + 1179648), (1312, 1275068416), (260, 1610612736), (280, 4294967295)]
def g10x15 : State := md2 (A [(280, 16777216), (284, 196608)]) [(545193988, 9), (545194176, 119), (545194144, 102), (545193984, 5)]
def g10x16 : State := A [(284, 1342177280 + 0 * 67108864 + 0 * 16777216 + 1179648), (1312, 1275068416), (260, 1610612736), (280, 4294967295)]
def g10x17 : State := A [(284, 1342177280 + 1 * 67108864 + 0 * 16777216 + 1179648), (1312, 1275068416), (260, 1610612736), (280, 4294967295)]
def g10x18 : State := A [(384, 1073758208), (1348, 1145044992)]
def g10x19 : State := md2 (A [(388, 1281), (392, 1344), (400, 1343), (1348, 4294967055)]) [(545198144, 1), (545198148, 305419896), (545198080 + 64 * 63, 3)]
def g10x20 : State := md2 (A [(388, 1281), (392, 1344), (400, 1343), (384, 4)]) [(545198144, 1), (545198148, 305419896), (545198080 + 64 * 63, 3)]

/-- States and operands that meet the hypotheses of CancellerCodecsAndFaxFollowSignals, clause by clause: each group in parentheses meets
those of one clause together. -/
theorem test_meets_CancellerCodecsAndFaxFollowSignals_1 :
  (mediaPage (base mSERVICE) 0 = none) ∧
  (mediaPage (md []) 0 = some 9 ∧ bits (mw (md []) 9 128) 27 24 = bits (mw (md []) 9 1152) 31 28) ∧
  (mediaPage g10x0 0 = some 9 ∧ bits (mw g10x0 9 128) 27 24 ≠ bits (mw g10x0 9 1152) 31 28 ∧ 0 < 4 ∧ denseAct g10x0 9 = true) ∧
  (mediaPage g10x1 0 = some 9 ∧ bits (mw g10x1 9 128) 27 24 ≠ bits (mw g10x1 9 1152) 31 28 ∧ 0 < 4 ∧ denseAct g10x1 9 = false) ∧
  (mediaPage g10x0 0 = some 9 ∧ bits (mw g10x0 9 128) 27 24 ≠ bits (mw g10x0 9 1152) 31 28 ∧ (∀ o ∈ [1152, 1168, 1600, 1604, 1608], 0 < frameAddr 9 + o
    ∨ frameAddr 9 + o + 4 ≤ 0)) ∧
  (mediaPage (md []) 0 = some 9 ∧ bitOf (mw (md []) 9 1152) 27 = false) ∧
  (mediaPage g10x0 0 = some 9 ∧ bitOf (mw g10x0 9 1152) 27 = true ∧ mw g10x0 9 1188 + 2 < 2 ^ 32 ∧ 0 < 4 ∧ denseAct g10x0 9 = true) ∧
  (mediaPage g10x2 0 = some 9 ∧ bitOf (mw g10x2 9 1152) 27 = true ∧ mw g10x2 9 1188 + 2 < 2 ^ 32 ∧ 0 < 4 ∧ denseAct g10x2 9 = false) ∧
  (mediaPage g10x0 0 = some 9 ∧ bitOf (mw g10x0 9 1152) 27 = true ∧ mw g10x0 9 1188 + 2 < 2 ^ 32 ∧ (∀ o ∈ [1152, 1168, 1600, 1604, 1608, 1188], 0 <
    frameAddr 9 + o ∨ frameAddr 9 + o + 4 ≤ 0)) ∧
  (mediaPage (md []) 0 = some 9 ∧ (0 = 0 ∨ ecEn (md []) 9 = false ∨ bits (mw (md []) 9 128) 19 18 = 3 ∨ bits (mw (md []) 9 128) 19 18 = 1 ∧ false = true
    ∨ bits (mw (md []) 9 128) 19 18 = 2 ∧ false = false)) ∧
  (mediaPage g10x3 0 = some 9 ∧ (¬(1 = 0 ∨ ecEn g10x3 9 = false ∨ bits (mw g10x3 9 128) 19 18 = 3 ∨ bits (mw g10x3 9 128) 19 18 = 1 ∧ false = true ∨
    bits (mw g10x3 9 128) 19 18 = 2 ∧ false = false)) ∧ (bits (mw g10x3 9 128) 21 20 = 2 ∨ bits (mw g10x3 9 128) 21 20 = 3 ∨ bitOf (mw g10x3 9 1152)
    22 = true) ∧ (∀ o ∈ List.map (fun x => x.1) [(1152, putField (mw g10x3 9 1152) 11 8 1)], 0 < frameAddr 9 + o ∨ frameAddr 9 + o + 4 ≤ 0)) ∧
  (mediaPage g10x4 0 = some 9 ∧ (¬(1 = 0 ∨ ecEn g10x4 9 = false ∨ bits (mw g10x4 9 128) 19 18 = 3 ∨ bits (mw g10x4 9 128) 19 18 = 1 ∧ false = true ∨
    bits (mw g10x4 9 128) 19 18 = 2 ∧ false = false)) ∧ bits (mw g10x4 9 128) 21 20 ≠ 2 ∧ bits (mw g10x4 9 128) 21 20 ≠ 3 ∧ bitOf (mw g10x4 9 1152) 22
    = false ∧ (1 % 2 = 0 ∨ bits (mw g10x4 9 128) 21 20 = 1) ∧ mw g10x4 9 1184 + 2 < 2 ^ 32 ∧ (∀ o ∈ List.map (fun x => x.1) [(1152, putField (putField
    (putField (mw g10x4 9 1152) 11 8 1) 20 20 0) 22 22 1), (1600, 0), (1184, mw g10x4 9 1184 + 1)], 0 < frameAddr 9 + o ∨ frameAddr 9 + o + 4 ≤ 0)) ∧
  (mediaPage g10x5 0 = some 9 ∧ (¬(1 = 0 ∨ ecEn g10x5 9 = false ∨ bits (mw g10x5 9 128) 19 18 = 3 ∨ bits (mw g10x5 9 128) 19 18 = 1 ∧ false = true ∨
    bits (mw g10x5 9 128) 19 18 = 2 ∧ false = false)) ∧ bits (mw g10x5 9 128) 21 20 ≠ 2 ∧ bits (mw g10x5 9 128) 21 20 ≠ 3 ∧ bitOf (mw g10x5 9 1152) 22
    = false ∧ (¬(1 % 2 = 0 ∨ bits (mw g10x5 9 128) 21 20 = 1)) ∧ bitOf (mw g10x5 9 1152) 21 = true ∧ (∀ o ∈ List.map (fun x => x.1) [(1152, putField
    (mw g10x5 9 1152) 11 8 1)], 0 < frameAddr 9 + o ∨ frameAddr 9 + o + 4 ≤ 0)) ∧
  (mediaPage g10x6 0 = some 9 ∧ (¬(1 = 0 ∨ ecEn g10x6 9 = false ∨ bits (mw g10x6 9 128) 19 18 = 3 ∨ bits (mw g10x6 9 128) 19 18 = 1 ∧ false = true ∨
    bits (mw g10x6 9 128) 19 18 = 2 ∧ false = false)) ∧ bits (mw g10x6 9 128) 21 20 ≠ 2 ∧ bits (mw g10x6 9 128) 21 20 ≠ 3 ∧ bitOf (mw g10x6 9 1152) 22
    = false ∧ (¬(1 % 2 = 0 ∨ bits (mw g10x6 9 128) 21 20 = 1)) ∧ bitOf (mw g10x6 9 1152) 21 = false ∧ mw g10x6 9 1184 + 2 < 2 ^ 32 ∧ (∀ o ∈ List.map
    (fun x => x.1) [(1152, putField (putField (mw g10x6 9 1152) 11 8 1) 21 21 1), (1184, mw g10x6 9 1184 + 1)], 0 < frameAddr 9 + o ∨ frameAddr 9 + o
    + 4 ≤ 0)) ∧
  (mediaPage (md []) 0 = some 9 ∧ (∀ o ∈ List.map (fun x => x.1) [(1152, putField (mw (md []) 9 1152) 22 21 0)], 0 < frameAddr 9 + o ∨ frameAddr 9 + o +
    4 ≤ 0)) ∧
  (mediaPage (md []) 0 = some 9 ∧ (∀ o ∈ List.map (fun x => x.1) ([(stsCod false, if (codErr (md []) 9 false == 0 && codKey (codWord (md []) 9 false) !=
    codKey (mw (md []) 9 (codInForce false))) = true then putField (putField (mw (md []) 9 (stsCod false)) 31 28 (bits (codWord (md []) 9 false) 31
    28)) 11 8 0 else putField (mw (md []) 9 (stsCod false)) 11 8 (codErr (md []) 9 false)), (codInForce false, if (codErr (md []) 9 false == 0 &&
    codKey (codWord (md []) 9 false) != codKey (mw (md []) 9 (codInForce false))) = true then codWord (md []) 9 false else mw (md []) 9 (codInForce
    false)), (codInForce false + 8, if (codErr (md []) 9 false == 0 && codKey (codWord (md []) 9 false) != codKey (mw (md []) 9 (codInForce false))) =
    true then 0 else mw (md []) 9 (codInForce false + 8))] ++ [(stsCod true, if (codErr (md []) 9 true == 0 && codKey (codWord (md []) 9 true) !=
    codKey (mw (md []) 9 (codInForce true))) = true then putField (putField (mw (md []) 9 (stsCod true)) 31 28 (bits (codWord (md []) 9 true) 31 28))
    11 8 0 else putField (mw (md []) 9 (stsCod true)) 11 8 (codErr (md []) 9 true)), (codInForce true, if (codErr (md []) 9 true == 0 && codKey
    (codWord (md []) 9 true) != codKey (mw (md []) 9 (codInForce true))) = true then codWord (md []) 9 true else mw (md []) 9 (codInForce true)),
    (codInForce true + 8, if (codErr (md []) 9 true == 0 && codKey (codWord (md []) 9 true) != codKey (mw (md []) 9 (codInForce true))) = true then 0
    else mw (md []) 9 (codInForce true + 8))]), 0 < frameAddr 9 + o ∨ frameAddr 9 + o + 4 ≤ 0)) ∧
  (mediaPage (md []) 0 = some 9 ∧ (¬(chanState (md []) 9 = chACTIVE ∨ chanState (md []) 9 = chMOVING) ∨ faxTarget (faxMode (md []) 9) (bitOf (mw (md [])
    9 272) 29) (bitOf (mw (md []) 9 1536) 4) FaxSig.ced = 0 ∨ faxTarget (faxMode (md []) 9) (bitOf (mw (md []) 9 272) 29) (bitOf (mw (md []) 9 1536)
    4) FaxSig.ced ≤ faxState (md []) 9)) := by
  refine ⟨?r1, ⟨?h2, ?r2⟩, ⟨?h4, ?h5, ?h6, ?h7⟩, ?r3, ⟨?h4, ?h5, ?r4⟩, ⟨?h2, ?r5⟩, ⟨?h4, ?h13, ?h14, ?h6, ?h7⟩, ?r6, ⟨?h4, ?h13, ?h14, ?r7⟩, ⟨?h2, ?r8⟩,
    ?r9, ?r10, ?r11, ?r12, ⟨?h2, ?r13⟩, ⟨?h2, ?r14⟩, ⟨?h2, ?r15⟩⟩
  all_goals decide +kernel

/-- States and operands that meet the hypotheses of CancellerCodecsAndFaxFollowSignals, clause by clause: each group in parentheses meets
those of one clause together. -/
theorem test_meets_CancellerCodecsAndFaxFollowSignals_2 :
  (mediaPage (A [(272, 1073741824), (1304, 9)]) 0 = some 9 ∧ (chanState (A [(272, 1073741824), (1304, 9)]) 9 = chACTIVE ∨ chanState (A [(272,
    1073741824), (1304, 9)]) 9 = chMOVING) ∧ faxState (A [(272, 1073741824), (1304, 9)]) 9 < faxTarget (faxMode (A [(272, 1073741824), (1304, 9)]) 9)
    (bitOf (mw (A [(272, 1073741824), (1304, 9)]) 9 272) 29) (bitOf (mw (A [(272, 1073741824), (1304, 9)]) 9 1536) 4) FaxSig.ced ∧ mw (A [(272,
    1073741824), (1304, 9)]) 9 1304 + 2 < 2 ^ 32 ∧ faxTarget (faxMode (A [(272, 1073741824), (1304, 9)]) 9) (bitOf (mw (A [(272, 1073741824), (1304,
    9)]) 9 272) 29) (bitOf (mw (A [(272, 1073741824), (1304, 9)]) 9 1536) 4) FaxSig.ced = 1 ∧ (∀ o ∈ List.map (fun x => x.1) [(1304, mw (A [(272,
    1073741824), (1304, 9)]) 9 1304 + 1), (1280, putField (putField (mw (A [(272, 1073741824), (1304, 9)]) 9 1280) 25 24 1) 31 28 (vbdCodec (A [(272,
    1073741824), (1304, 9)]) 9)), (1536, if FaxSig.ced = FaxSig.ansam then putField (mw (A [(272, 1073741824), (1304, 9)]) 9 1536) 4 4 1 else mw (A
    [(272, 1073741824), (1304, 9)]) 9 1536)], 0 < frameAddr 9 + o ∨ frameAddr 9 + o + 4 ≤ 0)) ∧
  (mediaPage (A [(272, 2147483648), (1280, 16777216)]) 0 = some 9 ∧ (chanState (A [(272, 2147483648), (1280, 16777216)]) 9 = chACTIVE ∨ chanState (A
    [(272, 2147483648), (1280, 16777216)]) 9 = chMOVING) ∧ faxState (A [(272, 2147483648), (1280, 16777216)]) 9 < faxTarget (faxMode (A [(272,
    2147483648), (1280, 16777216)]) 9) (bitOf (mw (A [(272, 2147483648), (1280, 16777216)]) 9 272) 29) (bitOf (mw (A [(272, 2147483648), (1280,
    16777216)]) 9 1536) 4) FaxSig.v21 ∧ mw (A [(272, 2147483648), (1280, 16777216)]) 9 1304 + 2 < 2 ^ 32 ∧ faxTarget (faxMode (A [(272, 2147483648),
    (1280, 16777216)]) 9) (bitOf (mw (A [(272, 2147483648), (1280, 16777216)]) 9 272) 29) (bitOf (mw (A [(272, 2147483648), (1280, 16777216)]) 9 1536)
    4) FaxSig.v21 = 2 ∧ (∀ o ∈ List.map (fun x => x.1) ([(1304, mw (A [(272, 2147483648), (1280, 16777216)]) 9 1304 + 1), (1280, putField (mw (A
    [(272, 2147483648), (1280, 16777216)]) 9 1280) 25 24 2)] ++ ringWords (A [(272, 2147483648), (1280, 16777216)]) 9 (mw (A [(272, 2147483648),
    (1280, 16777216)]) 9 1312) false 48 fun v => putField (putField v 27 27 0) 26 26 0), 0 < frameAddr 9 + o ∨ frameAddr 9 + o + 4 ≤ 0)) ∧
  (mediaPage (md []) 0 = some 9 ∧ (faxState (md []) 9 = 0 ∨ bitOf (mw (md []) 9 272) 28 = true)) ∧
  (mediaPage g10x7 0 = some 9 ∧ (¬(faxState g10x7 9 = 0 ∨ bitOf (mw g10x7 9 272) 28 = true)) ∧ faxState g10x7 9 ≠ 2 ∧ (∀ o ∈ List.map (fun x => x.1)
    [(1280, putField (putField (putField (mw g10x7 9 1280) 25 24 0) 31 28 (bits (mw g10x7 9 256) 31 28)) 11 8 0), (1536, putField (mw g10x7 9 1536) 4
    4 0), (1552, mw g10x7 9 256), (1560, 0)], 0 < frameAddr 9 + o ∨ frameAddr 9 + o + 4 ≤ 0)) ∧
  (mediaPage g10x8 0 = some 9 ∧ (¬(faxState g10x8 9 = 0 ∨ bitOf (mw g10x8 9 272) 28 = true)) ∧ faxState g10x8 9 = 2 ∧ (∀ o ∈ List.map (fun x => x.1)
    ([(1280, putField (putField (putField (mw g10x8 9 1280) 25 24 0) 31 28 (bits (mw g10x8 9 256) 31 28)) 11 8 0), (1536, putField (mw g10x8 9 1536) 4
    4 0), (1552, mw g10x8 9 256), (1560, 0)] ++ ringWords g10x8 9 (mw g10x8 9 1312) false 176 id), 0 < frameAddr 9 + o ∨ frameAddr 9 + o + 4 ≤ 0)) := by
  refine ⟨?r1, ?r2, ?r3, ?r4, ?r5⟩
  all_goals decide +kernel

/-- States and operands that meet the hypotheses of TonesAndLevelsFollowCommands, clause by clause: each group in parentheses meets
those of one clause together. -/
theorem test_meets_TonesAndLevelsFollowCommands_1 :
  (mediaPage (base mSERVICE) 0 = none) ∧
  (mediaPage (md []) 0 = some 9 ∧ ((genKind (md []) 9 == 0 && genDir (md []) 9 != 2) = false ∨ genPending (md []) 9 = false)) ∧
  (mediaPage g10x9 0 = some 9 ∧ (genKind g10x9 9 == 0 && genDir g10x9 9 != 2) = true ∧ genPending g10x9 9 = true ∧ (¬(genKind g10x9 9 ≤ 1 ∧ genDir g10x9
    9 ≠ 3 ∧ (genDir g10x9 9 = 2 → eventCode (bits (mw g10x9 9 284) 23 16) = true))) ∧ (∀ o ∈ List.map (fun x => x.1) [(1312, putField (putField
    (putField (mw g10x9 9 1312) 31 28 (bits (mw g10x9 9 284) 31 28)) 27 27 0) 26 26 0)], 0 < frameAddr 9 + o ∨ frameAddr 9 + o + 4 ≤ 0)) ∧
  (mediaPage g10x10 0 = some 9 ∧ (genKind g10x10 9 == 0 && genDir g10x10 9 != 2) = true ∧ genPending g10x10 9 = true ∧ (genKind g10x10 9 ≤ 1 ∧ genDir
    g10x10 9 ≠ 3 ∧ (genDir g10x10 9 = 2 → eventCode (bits (mw g10x10 9 284) 23 16) = true)) ∧ (∀ o ∈ List.map (fun x => x.1) [(1312, putField
    (putField (putField (putField (putField (mw g10x10 9 1312) 31 28 (bits (mw g10x10 9 284) 31 28)) 27 27 0) 26 26 0) 27 27 1) 26 26 (if genDir
    g10x10 9 = 2 then 1 else 0))], 0 < frameAddr 9 + o ∨ frameAddr 9 + o + 4 ≤ 0)) ∧
  (mediaPage (md []) 0 = some 9 ∧ ((genKind (md []) 9 == 1 && genDir (md []) 9 != 2) = false ∨ genPending (md []) 9 = false)) ∧
  (mediaPage g10x11 0 = some 9 ∧ (genKind g10x11 9 == 1 && genDir g10x11 9 != 2) = true ∧ genPending g10x11 9 = true ∧ (¬(genKind g10x11 9 ≤ 1 ∧ genDir
    g10x11 9 ≠ 3 ∧ (genDir g10x11 9 = 2 → eventCode (bits (mw g10x11 9 284) 23 16) = true))) ∧ (∀ o ∈ List.map (fun x => x.1) [(1312, putField
    (putField (putField (mw g10x11 9 1312) 31 28 (bits (mw g10x11 9 284) 31 28)) 27 27 0) 26 26 0)], 0 < frameAddr 9 + o ∨ frameAddr 9 + o + 4 ≤ 0)) ∧
  (mediaPage g10x12 0 = some 9 ∧ (genKind g10x12 9 == 1 && genDir g10x12 9 != 2) = true ∧ genPending g10x12 9 = true ∧ (genKind g10x12 9 ≤ 1 ∧ genDir
    g10x12 9 ≠ 3 ∧ (genDir g10x12 9 = 2 → eventCode (bits (mw g10x12 9 284) 23 16) = true)) ∧ (∀ o ∈ List.map (fun x => x.1) [(1312, putField
    (putField (putField (putField (putField (mw g10x12 9 1312) 31 28 (bits (mw g10x12 9 284) 31 28)) 27 27 0) 26 26 0) 27 27 1) 26 26 (if genDir
    g10x12 9 = 2 then 1 else 0))], 0 < frameAddr 9 + o ∨ frameAddr 9 + o + 4 ≤ 0)) ∧
  (mediaPage (md []) 0 = some 9 ∧ ((genKind (md []) 9 == 2) = false ∨ genPending (md []) 9 = false)) ∧
  (mediaPage g10x13 0 = some 9 ∧ (genKind g10x13 9 == 2) = true ∧ genPending g10x13 9 = true ∧ (¬(genKind g10x13 9 ≤ 1 ∧ genDir g10x13 9 ≠ 3 ∧ (genDir
    g10x13 9 = 2 → eventCode (bits (mw g10x13 9 284) 23 16) = true))) ∧ (∀ o ∈ List.map (fun x => x.1) [(1312, putField (putField (putField (mw g10x13
    9 1312) 31 28 (bits (mw g10x13 9 284) 31 28)) 27 27 0) 26 26 0)], 0 < frameAddr 9 + o ∨ frameAddr 9 + o + 4 ≤ 0)) ∧
  (mediaPage (md []) 0 = some 9 ∧ ((genDir (md []) 9 == 2 && genKind (md []) 9 != 2) = false ∨ genPending (md []) 9 = false)) ∧
  (mediaPage g10x14 0 = some 9 ∧ (genDir g10x14 9 == 2 && genKind g10x14 9 != 2) = true ∧ genPending g10x14 9 = true ∧ (¬(genKind g10x14 9 ≤ 1 ∧ genDir
    g10x14 9 ≠ 3 ∧ (genDir g10x14 9 = 2 → eventCode (bits (mw g10x14 9 284) 23 16) = true))) ∧ (∀ o ∈ List.map (fun x => x.1) [(1312, putField
    (putField (putField (mw g10x14 9 1312) 31 28 (bits (mw g10x14 9 284) 31 28)) 27 27 0) 26 26 0)], 0 < frameAddr 9 + o ∨ frameAddr 9 + o + 4 ≤ 0)) ∧
  (mediaPage (A [(284, 1495269376), (260, 0)]) 0 = some 9 ∧ (genDir (A [(284, 1495269376), (260, 0)]) 9 == 2 && genKind (A [(284, 1495269376), (260,
    0)]) 9 != 2) = true ∧ genPending (A [(284, 1495269376), (260, 0)]) 9 = true ∧ (genKind (A [(284, 1495269376), (260, 0)]) 9 ≤ 1 ∧ genDir (A [(284,
    1495269376), (260, 0)]) 9 ≠ 3 ∧ (genDir (A [(284, 1495269376), (260, 0)]) 9 = 2 → eventCode (bits (mw (A [(284, 1495269376), (260, 0)]) 9 284) 23
    16) = true)) ∧ (∀ o ∈ List.map (fun x => x.1) [(1312, putField (putField (putField (putField (putField (mw (A [(284, 1495269376), (260, 0)]) 9
    1312) 31 28 (bits (mw (A [(284, 1495269376), (260, 0)]) 9 284) 31 28)) 27 27 0) 26 26 0) 27 27 1) 26 26 (if genDir (A [(284, 1495269376), (260,
    0)]) 9 = 2 then 1 else 0))], 0 < frameAddr 9 + o ∨ frameAddr 9 + o + 4 ≤ 0)) ∧
  (mediaPage (md []) 0 = some 9 ∧ (∀ o ∈ List.map (fun x => x.1) [(1312, putField (putField (mw (md []) 9 1312) 27 27 0) 26 26 0)], 0 < frameAddr 9 + o
    ∨ frameAddr 9 + o + 4 ≤ 0)) ∧
  (mediaPage (md []) 0 = some 9 ∧ (md []).readLE mediaTable 4 = mw (md []) 9 1572) ∧
  (mediaPage g10x15 0 = some 9 ∧ g10x15.readLE mediaTable 4 ≠ mw g10x15 9 1572 ∧ 0 < 128) ∧
  (mediaPage g10x15 0 = some 9 ∧ g10x15.readLE mediaTable 4 ≠ mw g10x15 9 1572 ∧ 0 < 32) ∧
  (mediaPage g10x15 0 = some 9 ∧ g10x15.readLE mediaTable 4 ≠ mw g10x15 9 1572 ∧ (∀ r ∈ [(1572, 4), (1580, 4), (1664, 128), (2240, 32)], 0 < frameAddr 9
    + r.1 ∨ frameAddr 9 + r.1 + r.2 ≤ 0)) ∧
  (mediaPage (md []) 0 = some 9 ∧ true = true ∧ bits (mw (md []) 9 260) 30 24 = 0) ∧
  (mediaPage g10x16 0 = some 9 ∧ true = true ∧ bits (mw g10x16 9 260) 30 24 ≠ 0 ∧ (bitOf (mw g10x16 9 1312) 27 = true ∧ genDir g10x16 9 = 0) ∧ (∀ o ∈
    List.map (fun x => x.1) (ringWords g10x16 9 (mw g10x16 9 1312) true 5 id), 0 < frameAddr 9 + o ∨ frameAddr 9 + o + 4 ≤ 0)) ∧
  (mediaPage g10x17 0 = some 9 ∧ true = true ∧ bits (mw g10x17 9 260) 30 24 ≠ 0 ∧ (¬(bitOf (mw g10x17 9 1312) 27 = true ∧ genDir g10x17 9 = 0)) ∧ (∀ o ∈
    List.map (fun x => x.1) (ringWords g10x17 9 (mw g10x17 9 1312) true 5 fun v => putField v 25 25 1), 0 < frameAddr 9 + o ∨ frameAddr 9 + o + 4 ≤
    0)) := by
  refine ⟨?r1, ⟨?h2, ?r2⟩, ?r3, ?r4, ⟨?h2, ?r5⟩, ?r6, ?r7, ⟨?h2, ?r8⟩, ?r9, ⟨?h2, ?r10⟩, ?r11, ?r12, ⟨?h2, ?r13⟩, ⟨?h2, ?r14⟩, ⟨?h44, ?h45, ?r15⟩,
    ⟨?h44, ?h45, ?r16⟩, ⟨?h44, ?h45, ?r17⟩, ⟨?h2, ?h49, ?r18⟩, ?r19, ?r20⟩
  all_goals decide +kernel

/-- States and operands that meet the hypotheses of TonesAndLevelsFollowCommands, clause by clause: each group in parentheses meets
those of one clause together. -/
theorem test_meets_TonesAndLevelsFollowCommands_2 :
  (mediaPage (md []) 0 = some 9 ∧ false = false ∧ toneEnabled (md []) 9 false 5 = false) ∧
  (mediaPage (A [(272, 1073741824), (1304, 9)]) 0 = some 9 ∧ false = false ∧ toneEnabled (A [(272, 1073741824), (1304, 9)]) 9 false 37 = true ∧ (∀ o ∈
    List.map (fun x => x.1) (ringWords (A [(272, 1073741824), (1304, 9)]) 9 (mw (A [(272, 1073741824), (1304, 9)]) 9 1312) false 37 id), 0 < frameAddr
    9 + o ∨ frameAddr 9 + o + 4 ≤ 0)) ∧
  (mediaPage (md []) 0 = some 9 ∧ bitOf (mw (md []) 9 1312) 25 = false) ∧
  (mediaPage g10x10 0 = some 9 ∧ bitOf (mw g10x10 9 1312) 25 = true ∧ (∀ o ∈ List.map (fun x => x.1) (ringWords g10x10 9 (putField (mw g10x10 9 1312) 25
    25 0) true (128 + 127) id), 0 < frameAddr 9 + o ∨ frameAddr 9 + o + 4 ≤ 0)) ∧
  (mediaPage (md []) 0 = some 9 ∧ lvlTarget (md []) 9 false = lvlLast (md []) 9 false) ∧
  (mediaPage (A [(384, 1073758208), (1348, 0)]) 0 = some 9 ∧ lvlTarget (A [(384, 1073758208), (1348, 0)]) 9 false ≠ lvlLast (A [(384, 1073758208),
    (1348, 0)]) 9 false ∧ 0 < 32 ∧ (0 < lvlLo false ∨ lvlLo false + 4 ≤ 0)) ∧
  (mediaPage (A [(384, 1073758208), (1348, 0)]) 0 = some 9 ∧ lvlTarget (A [(384, 1073758208), (1348, 0)]) 9 false ≠ lvlLast (A [(384, 1073758208),
    (1348, 0)]) 9 false ∧ (∀ o ∈ [1348, 1632], 0 < frameAddr 9 + o ∨ frameAddr 9 + o + 4 ≤ 0)) ∧
  (mediaPage (md []) 0 = some 9 ∧ lvlBit (md []) 9 false 2 = false) ∧
  (mediaPage g10x18 0 = some 9 ∧ lvlBit g10x18 9 false 2 = true ∧ 0 < 32 ∧ (0 < lvlLo false ∨ lvlLo false + 4 ≤ 0)) ∧
  (mediaPage g10x18 0 = some 9 ∧ lvlBit g10x18 9 false 2 = true ∧ (∀ o ∈ [1348], 0 < frameAddr 9 + o ∨ frameAddr 9 + o + 4 ≤ 0)) ∧
  (mediaPage (md []) 0 = some 9 ∧ bits (mw (md []) 9 384) 3 0 = bits (mw (md []) 9 1348) 7 4 ∧ mw (md []) 9 (388 + 4 * 0) = mw (md []) 9 (1648 + 4 * 0)) ∧
  (mediaPage g10x19 0 = some 9 ∧ bits (mw g10x19 9 384) 3 0 = bits (mw g10x19 9 1348) 7 4 ∧ (¬mw g10x19 9 (388 + 4 * 0) = mw g10x19 9 (1648 + 4 * 0)) ∧
    1 ≤ mw g10x19 9 (388 + 4 * 0) % 256 ∧ mw g10x19 9 (388 + 4 * 0) % 256 ≤ 63 ∧ 0 < 64) ∧
  (mediaPage g10x19 0 = some 9 ∧ bits (mw g10x19 9 384) 3 0 = bits (mw g10x19 9 1348) 7 4 ∧ (¬mw g10x19 9 (388 + 4 * 0) = mw g10x19 9 (1648 + 4 * 0)) ∧
    (∀ k ∈ [0], 0 < frameAddr 9 + 1648 + 4 * k ∨ frameAddr 9 + 1648 + 4 * k + 4 ≤ 0) ∧ (∀ k ∈ [0], 0 < frameAddr 9 + 1792 + 64 * k ∨ frameAddr 9 +
    1792 + 64 * k + 64 ≤ 0) ∧ (0 < frameAddr 9 + 1348 ∨ frameAddr 9 + 1352 ≤ 0)) ∧
  (mediaPage g10x19 0 = some 9 ∧ bits (mw g10x19 9 384) 3 0 = bits (mw g10x19 9 1348) 7 4 ∧ (¬mw g10x19 9 (388 + 4 * 0) = mw g10x19 9 (1648 + 4 * 0)) ∧
    1 < 32 ∧ 1 ≠ 0) ∧
  (mediaPage g10x20 0 = some 9 ∧ (¬bits (mw g10x20 9 384) 3 0 = bits (mw g10x20 9 1348) 7 4) ∧ 0 < 4 ∧ 1 ≤ mw g10x20 9 (388 + 4 * 0) % 256 ∧ mw g10x20 9
    (388 + 4 * 0) % 256 ≤ 63 ∧ 0 < 64) ∧
  (mediaPage g10x20 0 = some 9 ∧ (¬bits (mw g10x20 9 384) 3 0 = bits (mw g10x20 9 1348) 7 4) ∧ (∀ k ∈ [0, 1, 2, 3], 0 < frameAddr 9 + 1648 + 4 * k ∨
    frameAddr 9 + 1648 + 4 * k + 4 ≤ 0) ∧ (∀ k ∈ [0, 1, 2, 3], 0 < frameAddr 9 + 1792 + 64 * k ∨ frameAddr 9 + 1792 + 64 * k + 64 ≤ 0) ∧ (0 <
    frameAddr 9 + 1348 ∨ frameAddr 9 + 1352 ≤ 0)) ∧
  (mediaPage g10x20 0 = some 9 ∧ (¬bits (mw g10x20 9 384) 3 0 = bits (mw g10x20 9 1348) 7 4) ∧ 8 ≤ 9 ∧ 9 < 32) := by
  refine ⟨⟨?h1, ?h2, ?r1⟩, ?r2, ⟨?h1, ?r3⟩, ?r4, ⟨?h1, ?r5⟩, ⟨?h12, ?h13, ?h14, ?h15⟩, ⟨?h12, ?h13, ?r6⟩, ⟨?h1, ?r7⟩, ⟨?h18, ?h19, ?h14, ?h15⟩, ⟨?h18,
    ?h19, ?r8⟩, ⟨?h1, ?r9⟩, ⟨?h23, ?h24, ?h25, ?r10⟩, ⟨?h23, ?h24, ?h25, ?r11⟩, ⟨?h23, ?h24, ?h25, ?r12⟩, ⟨?h34, ?h35, ?r13⟩, ⟨?h34, ?h35, ?r14⟩,
    ⟨?h34, ?h35, ?r15⟩⟩
  all_goals decide +kernel

end Media

namespace Ports

def fcs (b : List Byte) : List Byte := b ++ leBytes 4 (crc32 b)
def eth (dst : Byte) (et : Nat) (n : Nat) : List Byte := List.replicate 6 dst ++ [2, 0, 0, 0, 0, 1] ++ beBytes 2 et ++ (List.range n).map fun k => BitVec.ofNat 8 (k + 1)
def p1 := puts (base mSERVICE) [(F.PKE_CTRL_RUN, 0, 1), (F.PKE_P_STAT_UP, 0, 1), (F.PKE_P_CFG_EN, 0, 1), (F.PKE_P_CFG_MAXFRM, 0, 1522), (F.PKE_CELLCNT_CNT, 0, 16), (F.PKE_CELLCFG_G, 0, 4), (F.PKE_CELLCFG_G, 9, 4), (F.PKE_CELLCFG_G, 11, 4), (F.PKE_CELLBASE_BASE, 0, 16),
  (F.PKE_RQ_BASE_BASE, 1, 0x400000), (F.PKE_RQ_CFG_SIZE, 1, 4), (F.PKE_RQ_BASE_BASE, 3, 0x400000), (F.PKE_RQ_CFG_SIZE, 3, 4), (F.PKE_P_CFG_RQ, 0, 1), (F.PKE_P_CFG_PTPQ, 0, 3), (F.PKE_RQ_CFG_IE, 1, 1), (F.PKE_RQ_WP_WP, 1, 17), (F.PKE_RQ_RP_RP, 1, 16)]
def p2 := puts (base mSERVICE) [(F.PKE_P_CFG_EN, 0, 1), (I.pMode, 0, 3), (I.pFec, 0, 1), (I.pAn, 0, 1), (F.TMU_LAT_RX_OVR, 1, 1), (F.PKE_P_CFG_EN, 1, 1), (I.pMode, 1, 3), (F.PKE_SELECT_INDEX, 4, 3), (F.PKE_P_CFG_MODE, 3, 3), (F.PKE_P_CFG_EN, 5, 1), (F.PKE_P_STAT_UP, 5, 1), (F.PKE_SELECT_INDEX, 0, 5)]
def rx (e0 e1 e3 : Nat) (inst : Bool) (suite : Nat) (old : Bool) : RxFrame := ⟨7, old, false, e0, e1, 0, e3, inst, false, suite, 0, 0, 0x1234, [2], [0x80, 8, 0, 5, 0, 0, 0, 9, 0, 0, 0, 6, 1, 2, 3, 4]⟩
def p3 (f : RxFrame) (l : List (Fld × Nat × Nat)) : State := { puts (base mSERVICE) ([(F.PKE_CTRL_RUN, 0, 1), (I.cellOwner, 2, 1), (F.PKE_CELLHELD_HELD, 0, 3), (I.clsE1, 7, 6)] ++ l) with rxFrames := [f] }
def p4 := puts (base mSERVICE) [(F.PKE_CLS_KEY_UDPPORT, 0, 5), (F.PKE_CLS_E1_SSRC, 0, 77), (F.PKE_CLS_E2_TID, 0, 9)]
def p5 : State := { puts p4 [(I.clsV, 21, 1), (I.clsKey, 21, 5), (I.clsE0, 21, 0x7FFFFFFF), (I.clsE2, 21, 0xFFFF1234)] with rxFrames := [{ rx 0 0 0 true 1 false with ent := 21 }] }
def p6 := puts p4 [(I.clsV, 20, 1), (I.clsV, 21, 1), (I.clsV, 22, 1), (I.clsV, 23, 1), (I.clsKey, 20, 8197)]
def p7 : State := { puts p4 [(F.PKE_CLS_CMD_GO, 0, 1), (I.ksWin, 0, 0x80000003), (F.PKE_KSSEL_STRM, 0, 9), (I.stCnt, 73, 8), (I.clsV, 3, 1), (I.clsE3, 3, 0x80000009)] with rxFrames := [] }
def p8 : State := { puts p7 [(I.ksWin, 0, 7), (F.PKE_CTRL_RUN, 0, 1), (I.cellOwner, 6, 3), (F.PKE_CELLCNT_CNT, 0, 20)] with rxFrames := [rx 0 0 0 true 1 true] }
def g11s0 : State := p3 (rx 0 0 0 true 1 false) []
def g11s1 : State := p3 (rx 0x10000000 0 0 true 1 false) [(I.clsE1, 7, 5)]
def g11s2 : State := p3 (rx 0x04000000 0 0 false 1 false) []
def g11s3 : State := p3 (rx 0x04000000 0 3 true 6 false) []
def g11s4 : State := p3 (rx 0x04000000 0 3 true 6 false) [(I.stSeqV, 3, 1), (I.stSeq, 3, 5), (I.stWin, 3, 1)]

/-- States and operands that meet the hypotheses of PortsReceiveFramesAndPackets, clause by clause: each group in parentheses meets
those of one clause together. -/
theorem test_meets_PortsReceiveFramesAndPackets_1 :
  ((base mSERVICE).fabric = true ∧ selPort (base mSERVICE) (Init.svc 0) = some 0 ∧ (base mSERVICE).rd F.PKE_P_CFG_EN = 0) ∧
  (p1.fabric = true ∧ selPort p1 (Init.svc 0) = some 0 ∧ p1.rd F.PKE_P_CFG_EN = 1 ∧ (∀ e ∈ p1.egress, e.1 / 9 ≠ 0)) ∧
  ((¬((base mSERVICE).serving = true ∧ (base mSERVICE).rd F.PKE_P_CFG_EN = 1 ∧ (base mSERVICE).rd F.PKE_P_STAT_CFGERR = 0 ∧ 1 ≤ (base mSERVICE).rd
    I.pMode ∧ (base mSERVICE).rd F.PKE_P_STAT_UP = 0))) ∧
  ((p2.serving = true ∧ p2.rd F.PKE_P_CFG_EN 1 = 1 ∧ p2.rd F.PKE_P_STAT_CFGERR 1 = 0 ∧ 1 ≤ p2.rd I.pMode 1 ∧ p2.rd F.PKE_P_STAT_UP 1 = 0) ∧ p2.rd
    F.TMU_LAT_RX_OVR 1 = 1) ∧
  ((p2.serving = true ∧ p2.rd F.PKE_P_CFG_EN = 1 ∧ p2.rd F.PKE_P_STAT_CFGERR = 0 ∧ 1 ≤ p2.rd I.pMode ∧ p2.rd F.PKE_P_STAT_UP = 0) ∧ p2.rd
    F.TMU_LAT_RX_OVR = 0) ∧
  ((base mSERVICE).rd F.PKE_P_STAT_UP = 0) ∧
  (((base mSERVICE).rd F.PKE_CTRL_RUN = 0 ∨ (base mSERVICE).rd F.PKE_P_STAT_UP = 0)) ∧
  (p1.rd F.PKE_CTRL_RUN = 1 ∧ p1.rd F.PKE_P_STAT_UP = 1 ∧ (∀ (j : ℕ), p1.rd F.PKE_P_CNT_COUNT j + 4096 < 2 ^ 32) ∧ (false = true ∨ [1, 2].length < 64 ∨
    maxFrm p1 0 < [1, 2].length ∨ List.drop ([1, 2].length - 4) [1, 2] ≠ leBytes 4 (crc32 (List.take ([1, 2].length - 4) [1, 2])))) ∧
  (p1.rd F.PKE_CTRL_RUN = 1 ∧ p1.rd F.PKE_P_STAT_UP = 1 ∧ (∀ (j : ℕ), p1.rd F.PKE_P_CNT_COUNT j + 4096 < 2 ^ 32) ∧ (¬(false = true ∨ (fcs (eth 255 34824
    46)).length < 64 ∨ maxFrm p1 0 < (fcs (eth 255 34824 46)).length ∨ List.drop ((fcs (eth 255 34824 46)).length - 4) (fcs (eth 255 34824 46)) ≠
    leBytes 4 (crc32 (List.take ((fcs (eth 255 34824 46)).length - 4) (fcs (eth 255 34824 46)))))) ∧ beAt (List.take ((fcs (eth 255 34824 46)).length
    - 4) (fcs (eth 255 34824 46))) 12 2 = 34824) ∧
  (p1.rd F.PKE_CTRL_RUN = 1 ∧ p1.rd F.PKE_P_STAT_UP = 1 ∧ (∀ (j : ℕ), p1.rd F.PKE_P_CNT_COUNT j + 4096 < 2 ^ 32) ∧ (¬(false = true ∨ (fcs (eth 2 4660
    46)).length < 64 ∨ maxFrm p1 0 < (fcs (eth 2 4660 46)).length ∨ List.drop ((fcs (eth 2 4660 46)).length - 4) (fcs (eth 2 4660 46)) ≠ leBytes 4
    (crc32 (List.take ((fcs (eth 2 4660 46)).length - 4) (fcs (eth 2 4660 46)))))) ∧ beAt (List.take ((fcs (eth 2 4660 46)).length - 4) (fcs (eth 2
    4660 46))) 12 2 ≠ 34824 ∧ macAccepts p1 0 (List.take 6 (List.take ((fcs (eth 2 4660 46)).length - 4) (fcs (eth 2 4660 46)))) = false) ∧
  (p1.rd F.PKE_CTRL_RUN = 1 ∧ p1.rd F.PKE_P_STAT_UP = 1 ∧ (∀ (j : ℕ), p1.rd F.PKE_P_CNT_COUNT j + 4096 < 2 ^ 32) ∧ (¬(false = true ∨ (fcs (eth 255 4660
    46)).length < 64 ∨ maxFrm p1 0 < (fcs (eth 255 4660 46)).length ∨ List.drop ((fcs (eth 255 4660 46)).length - 4) (fcs (eth 255 4660 46)) ≠ leBytes
    4 (crc32 (List.take ((fcs (eth 255 4660 46)).length - 4) (fcs (eth 255 4660 46)))))) ∧ beAt (List.take ((fcs (eth 255 4660 46)).length - 4) (fcs
    (eth 255 4660 46))) 12 2 ≠ 34824 ∧ macAccepts p1 0 (List.take 6 (List.take ((fcs (eth 255 4660 46)).length - 4) (fcs (eth 255 4660 46)))) = true ∧
    true = true) ∧
  (p1.rd F.PKE_CTRL_RUN = 1 ∧ p1.rd F.PKE_P_STAT_UP = 1 ∧ (∀ (j : ℕ), p1.rd F.PKE_P_CNT_COUNT j + 4096 < 2 ^ 32) ∧ (¬(false = true ∨ (fcs (eth 255 4660
    46)).length < 64 ∨ maxFrm p1 0 < (fcs (eth 255 4660 46)).length ∨ List.drop ((fcs (eth 255 4660 46)).length - 4) (fcs (eth 255 4660 46)) ≠ leBytes
    4 (crc32 (List.take ((fcs (eth 255 4660 46)).length - 4) (fcs (eth 255 4660 46)))))) ∧ beAt (List.take ((fcs (eth 255 4660 46)).length - 4) (fcs
    (eth 255 4660 46))) 12 2 ≠ 34824 ∧ macAccepts p1 0 (List.take 6 (List.take ((fcs (eth 255 4660 46)).length - 4) (fcs (eth 255 4660 46)))) = true ∧
    false = false ∧ (List.take ((fcs (eth 255 4660 46)).length - 4) (fcs (eth 255 4660 46))).length ≤ 256 ∧ (parseFrame p1 0 (List.take ((fcs (eth 255
    4660 46)).length - 4) (fcs (eth 255 4660 46))) = Parsed.other 4 ∧ 1 = p1.rd F.PKE_P_CFG_RQ ∨ parseFrame p1 0 (List.take ((fcs (eth 255 4660
    46)).length - 4) (fcs (eth 255 4660 46))) = Parsed.ptp ∧ 4 = 1 ∧ 1 = p1.rd F.PKE_P_CFG_PTPQ) ∧ ringPlace (p1.rd F.PKE_RQ_BASE_BASE 1) (p1.rd
    F.PKE_RQ_CFG_SIZE 1) (p1.rd F.PKE_RQ_WP_WP 1) (p1.rd F.PKE_RQ_RP_RP 1) 32 = some 268435488 ∧ cellH p1 0 < cellG p1 0 ∧ cellH p1 (8 + 1) < cellG p1
    (8 + 1) ∧ (∃ j < cellCount p1, p1.rd I.cellOwner j = 0) ∧ (∀ j < cellCount p1, 268435488 + 32 ≤ cellAddr p1 j ∨ cellAddr p1 j + 256 ≤ 268435488)) ∧
  (g11s1.rxFrames = [rx 268435456 0 0 true 1 false] ∧ (rx 268435456 0 0 true 1 false).cells = [2] ∧ g11s1.rd I.cellOwner 2 = 0 + 1 ∧ g11s1.rd
    F.PKE_CNT_COUNT 4 + 2 < 2 ^ 32 ∧ g11s1.rd F.PKE_CNT_COUNT 5 + 2 < 2 ^ 32 ∧ g11s1.rd F.PKE_CNT_COUNT 6 + 2 < 2 ^ 32 ∧ (∀ (x : ℕ), g11s1.rd I.stCnt
    x + 2 < 2 ^ 32) ∧ ssrcBad g11s1 (rx 268435456 0 0 true 1 false) (beAt (rx 268435456 0 0 true 1 false).pkt 8 4) = true) ∧
  (g11s0.rxFrames = [rx 0 0 0 true 1 false] ∧ (rx 0 0 0 true 1 false).cells = [2] ∧ g11s0.rd I.cellOwner 2 = 0 + 1 ∧ g11s0.rd F.PKE_CNT_COUNT 4 + 2 < 2
    ^ 32 ∧ g11s0.rd F.PKE_CNT_COUNT 5 + 2 < 2 ^ 32 ∧ g11s0.rd F.PKE_CNT_COUNT 6 + 2 < 2 ^ 32 ∧ (∀ (x : ℕ), g11s0.rd I.stCnt x + 2 < 2 ^ 32) ∧ ssrcBad
    g11s0 (rx 0 0 0 true 1 false) (beAt (rx 0 0 0 true 1 false).pkt 8 4) = false ∧ bitOf (rx 0 0 0 true 1 false).e0 26 = false) := by
  refine ⟨?r1, ?r2, ?r3, ?r4, ?r5, ?r6, ?r7, ⟨?h15, ?h16, ?h17, ?r8⟩, ⟨?h15, ?h16, ?h17, ?r9⟩, ⟨?h15, ?h16, ?h17, ?r10⟩, ⟨?h15, ?h16, ?h17, ?h24, ?h25,
    ?h26, ?r11⟩, ⟨?h15, ?h16, ?h17, ?h24, ?h25, ?h26, ?r12⟩, ?r13, ?r14⟩
  all_goals try decide +kernel
  all_goals repeat' apply And.intro
  all_goals first
    | decide +kernel
    | exact every_value _ _ (fun v => v + 2 < 2 ^ 32) (by decide +kernel)
    | exact every_value _ _ (fun v => v + 4096 < 2 ^ 32) (by decide +kernel)

/-- States and operands that meet the hypotheses of PortsReceiveFramesAndPackets, clause by clause: each group in parentheses meets
those of one clause together. -/
theorem test_meets_PortsReceiveFramesAndPackets_2 :
  (g11s2.rxFrames = [rx 67108864 0 0 false 1 false] ∧ (rx 67108864 0 0 false 1 false).cells = [2] ∧ g11s2.rd I.cellOwner 2 = 0 + 1 ∧ g11s2.rd
    F.PKE_CNT_COUNT 4 + 2 < 2 ^ 32 ∧ g11s2.rd F.PKE_CNT_COUNT 5 + 2 < 2 ^ 32 ∧ g11s2.rd F.PKE_CNT_COUNT 6 + 2 < 2 ^ 32 ∧ (∀ (x : ℕ), g11s2.rd I.stCnt
    x + 2 < 2 ^ 32) ∧ ssrcBad g11s2 (rx 67108864 0 0 false 1 false) (beAt (rx 67108864 0 0 false 1 false).pkt 8 4) = false ∧ bitOf (rx 67108864 0 0
    false 1 false).e0 26 = true ∧ (¬((rx 67108864 0 0 false 1 false).inst = true ∧ (rx 67108864 0 0 false 1 false).dir = false ∧ 1 ≤ (rx 67108864 0 0
    false 1 false).suite ∧ (rx 67108864 0 0 false 1 false).suite ≤ 6))) ∧
  (g11s4.rxFrames = [rx 67108864 0 3 true 6 false] ∧ (rx 67108864 0 3 true 6 false).cells = [2] ∧ g11s4.rd I.cellOwner 2 = 0 + 1 ∧ g11s4.rd
    F.PKE_CNT_COUNT 4 + 2 < 2 ^ 32 ∧ g11s4.rd F.PKE_CNT_COUNT 5 + 2 < 2 ^ 32 ∧ g11s4.rd F.PKE_CNT_COUNT 6 + 2 < 2 ^ 32 ∧ (∀ (x : ℕ), g11s4.rd I.stCnt
    x + 2 < 2 ^ 32) ∧ ssrcBad g11s4 (rx 67108864 0 3 true 6 false) (beAt (rx 67108864 0 3 true 6 false).pkt 8 4) = false ∧ bitOf (rx 67108864 0 3 true
    6 false).e0 26 = true ∧ ((rx 67108864 0 3 true 6 false).inst = true ∧ (rx 67108864 0 3 true 6 false).dir = false ∧ 1 ≤ (rx 67108864 0 3 true 6
    false).suite ∧ (rx 67108864 0 3 true 6 false).suite ≤ 6) ∧ isReplay g11s4 (bits (rx 67108864 0 3 true 6 false).e3 14 0) (rxIndex g11s4 (bits (rx
    67108864 0 3 true 6 false).e3 14 0) (beAt (rx 67108864 0 3 true 6 false).pkt 2 2)) = true) ∧
  (g11s3.rxFrames = [rx 67108864 0 3 true 6 false] ∧ (rx 67108864 0 3 true 6 false).cells = [2] ∧ g11s3.rd I.cellOwner 2 = 0 + 1 ∧ g11s3.rd
    F.PKE_CNT_COUNT 4 + 2 < 2 ^ 32 ∧ g11s3.rd F.PKE_CNT_COUNT 5 + 2 < 2 ^ 32 ∧ g11s3.rd F.PKE_CNT_COUNT 6 + 2 < 2 ^ 32 ∧ (∀ (x : ℕ), g11s3.rd I.stCnt
    x + 2 < 2 ^ 32) ∧ ssrcBad g11s3 (rx 67108864 0 3 true 6 false) (beAt (rx 67108864 0 3 true 6 false).pkt 8 4) = false ∧ bitOf (rx 67108864 0 3 true
    6 false).e0 26 = true ∧ ((rx 67108864 0 3 true 6 false).inst = true ∧ (rx 67108864 0 3 true 6 false).dir = false ∧ 1 ≤ (rx 67108864 0 3 true 6
    false).suite ∧ (rx 67108864 0 3 true 6 false).suite ≤ 6) ∧ isReplay g11s3 (bits (rx 67108864 0 3 true 6 false).e3 14 0) (rxIndex g11s3 (bits (rx
    67108864 0 3 true 6 false).e3 14 0) (beAt (rx 67108864 0 3 true 6 false).pkt 2 2)) = false) := by
  refine ⟨?r1, ?r2, ?r3⟩
  all_goals try decide +kernel
  all_goals repeat' apply And.intro
  all_goals first
    | decide +kernel
    | exact every_value _ _ (fun v => v + 2 < 2 ^ 32) (by decide +kernel)

/-- States and operands that meet the hypotheses of ClassifierKeysAndCellsFollowCommands, clause by clause: each group in parentheses meets
those of one clause together. -/
theorem test_meets_ClassifierKeysAndCellsFollowCommands :
  (p5.fabric = true ∧ p5.rd F.PKE_CLS_CMD_GO = 0 ∧ clsFind p5 (regKey p5) = some 21) ∧
  (p6.fabric = true ∧ p6.rd F.PKE_CLS_CMD_GO = 0 ∧ clsFind p6 (regKey p6) = none ∧ (∀ i ∈ clsWays (regKey p6), p6.rd I.clsV i = 1)) ∧
  ((base mSERVICE).fabric = true ∧ (base mSERVICE).rd F.PKE_CLS_CMD_GO = 0 ∧ clsFind (base mSERVICE) (regKey (base mSERVICE)) = none ∧ (List.find? (fun
    i => !(base mSERVICE).on I.clsV i) (clsWays (regKey (base mSERVICE))) = some 0)) ∧
  ((base mSERVICE).fabric = true ∧ ((base mSERVICE).rd F.PKE_CLS_CMD_GO = 0 ∨ ∃ f ∈ (base mSERVICE).rxFrames, f.old = true)) ∧
  (p7.fabric = true ∧ p7.rd F.PKE_CLS_CMD_GO = 1 ∧ (∀ f ∈ p7.rxFrames, f.old = false)) ∧
  ((base mSERVICE).fabric = true ∧ ksStream (base mSERVICE) (Init.sgc 3) = none) ∧
  (p8.fabric = true ∧ ksStream p8 (Init.svc 0) = some 9 ∧ 7 ≤ bits (p8.rd I.ksWin) 3 0) ∧
  ((base mSERVICE).fabric = true ∧ ksStream (base mSERVICE) (Init.svc 0) = some 0 ∧ bits ((base mSERVICE).rd I.ksWin) 3 0 ≤ 6) ∧
  ((base mSERVICE).fabric = true ∧ selCopy (Init.sgc 3) = none) ∧
  ((base mSERVICE).fabric = true ∧ selCopy (Init.svc 0) = some 0) ∧
  ((base mSERVICE).fabric = true ∧ (base mSERVICE).rd I.cellOwner (0 % 2 ^ 18) = 0) ∧
  (p8.fabric = true ∧ p8.rd I.cellOwner (6 % 2 ^ 18) = 2 + 1) ∧
  ((base mSERVICE).fabric = true ∧ (cellCount (base mSERVICE) < overConsumers fun d => if d = 0 then bits 3032547333 31 16 else (base mSERVICE).rd
    F.PKE_CELLCFG_G d)) ∧
  ((base mSERVICE).fabric = true ∧ ((overConsumers fun d => if d = 0 then bits 0 31 16 else (base mSERVICE).rd F.PKE_CELLCFG_G d) ≤ cellCount (base
    mSERVICE))) ∧
  (p1.fabric = true ∧ p1.rd F.PKE_CTRL_RUN = 1) ∧
  ((base mSERVICE).fabric = true ∧ (base mSERVICE).rd F.PKE_CTRL_RUN = 0) := by
  refine ⟨?r1, ?r2, ⟨?h8, ?r3⟩, ⟨?h8, ?r4⟩, ?r5, ⟨?h8, ?r6⟩, ⟨?h17, ?r7⟩, ⟨?h8, ?r8⟩, ⟨?h8, ?r9⟩, ⟨?h8, ?r10⟩, ⟨?h8, ?r11⟩, ⟨?h17, ?r12⟩, ⟨?h8, ?r13⟩,
    ⟨?h8, ?r14⟩, ?r15, ⟨?h8, ?r16⟩⟩
  all_goals decide +kernel

end Ports

namespace Egress

def up : List (Fld × Nat × Nat) := [(F.PKE_CTRL_RUN, 0, 1), (F.PKE_P_CFG_EN, 0, 1), (F.PKE_P_STAT_UP, 0, 1), (F.PKE_P_CFG_MAXFRM, 0, 1522), (I.pMode, 0, 3), (F.TMU_TB_NS_NS, 0, 100000), (F.PKE_P_TCFG_LTB, 0, 0), (F.PKE_P_TCFG_LATETOL, 0, 5)]
def mk (w0 w1 w2 w3 : Nat) (fr : Option (List Byte)) (late : Bool) : EgFrame := { newFrame w0 w1 w2 w3 false none with late := late, frame := fr, own := false }
def raw (w2 w3 : Nat) (fr : Option (List Byte)) (late : Bool) := mk 0x1000 (0x1000 + 60) w2 w3 fr late
def bytes : List Byte := List.replicate 60 7
def dsc (w1 w2 w3 : Nat) : List Host.Cell := (leBytes 4 0x1000 ++ leBytes 4 w1 ++ leBytes 4 w2 ++ leBytes 4 w3).zipIdx.filterMap fun p => if p.1 = 0 then none else some (0x10000000 + p.2, p.1)
def s0 : State := puts (base mSERVICE) up
def eg (s : State) (k : Nat) (l : List EgFrame) : State := { s with egress := [(k, l)] }
def T9 := 0x80000000
def g11bs1 : State := { s0 with mem := dsc 0x103C 0 0 }
def g11bs2 : State := { s0 with mem := dsc 0x1001 0 0 }
def g11bs3 : State := { s0 with mem := dsc 0x103C 200000 T9 }
def g11bs4 : State := { s0 with mem := dsc 0x103C 110000 T9 }
def g11bs6 : State := { s0 with mem := dsc 0x103C 0 0x70000000, egress := [(7, List.replicate 256 (raw 0 0 none false))] }
def g11bs7 : State := eg s0 8 [raw 200000 T9 none false]
def g11bs8 : State := eg s0 8 [raw 110000 T9 none false]
def g11bs9 : State := eg s0 8 [mk 0x1000 0x1001 110000 T9 none false]
def g11bs11 : State := eg s0 8 [raw 110000 T9 (some bytes) false]
def g11bs12 : State := eg s0 8 [raw 99998 T9 (some bytes) false]
def g11bs13 : State := eg s0 8 [raw 99000 T9 (some bytes) false]
def g11bs14 : State := eg s0 8 [raw 99000 (T9 + 0x8000000) (some bytes) false]
def g11bs15 : State := eg (base mSERVICE) 8 [raw 0 T9 (some bytes) true]
def g11bs16 : State := eg s0 2 [raw 0 0x20000000 none false]
def g11bs17 : State := eg s0 2 [mk 0x1000 0x1001 0 0x20000000 none false]
def g11bs18 : State := { s0 with egress := [(2, [raw 0 0x20000000 none false]), (8, [raw 100001 T9 (some bytes) false])] }
def g11bs19 : State := eg (base mSERVICE) 2 [raw 0 0x20000000 none false]
def g11bs20 : EgFrame := raw 99000 (T9 + 0x8000000) (some bytes) false

/-- States and operands that meet the hypotheses of EgressFramesAreSentOrEnd, clause by clause: each group in parentheses meets
those of one clause together. -/
theorem test_meets_EgressFramesAreSentOrEnd_1 :
  ((∀ (k : ℕ), (base mSERVICE).rd F.PKE_P_CNT_COUNT k + 4096 < 2 ^ 32) ∧ (∀ (k : ℕ), (base mSERVICE).rd F.PKE_CNT_COUNT k + 2 < 2 ^ 32) ∧ (∀ (k : ℕ),
    (base mSERVICE).rd I.stCnt k + 4096 < 2 ^ 32) ∧ (base mSERVICE).fabric = true ∧ mayPost Init.host = false) ∧
  ((∀ (k : ℕ), (base mSERVICE).rd F.PKE_P_CNT_COUNT k + 4096 < 2 ^ 32) ∧ (∀ (k : ℕ), (base mSERVICE).rd F.PKE_CNT_COUNT k + 2 < 2 ^ 32) ∧ (∀ (k : ℕ),
    (base mSERVICE).rd I.stCnt k + 4096 < 2 ^ 32) ∧ (base mSERVICE).fabric = true ∧ ((newFrame ((base mSERVICE).readLE (pksBase + bits 0 24 4 * 16) 4)
    ((base mSERVICE).readLE (pksBase + bits 0 24 4 * 16 + 4) 4) ((base mSERVICE).readLE (pksBase + bits 0 24 4 * 16 + 8) 4) ((base mSERVICE).readLE
    (pksBase + bits 0 24 4 * 16 + 12) 4) false none).own = false ∧ (newFrame ((base mSERVICE).readLE (pksBase + bits 0 24 4 * 16) 4) ((base
    mSERVICE).readLE (pksBase + bits 0 24 4 * 16 + 4) 4) ((base mSERVICE).readLE (pksBase + bits 0 24 4 * 16 + 8) 4) ((base mSERVICE).readLE (pksBase
    + bits 0 24 4 * 16 + 12) 4) false none).svc = false ∧ bitOf (newFrame ((base mSERVICE).readLE (pksBase + bits 0 24 4 * 16) 4) ((base
    mSERVICE).readLE (pksBase + bits 0 24 4 * 16 + 4) 4) ((base mSERVICE).readLE (pksBase + bits 0 24 4 * 16 + 8) 4) ((base mSERVICE).readLE (pksBase
    + bits 0 24 4 * 16 + 12) 4) false none).w3 25 = false) ∧ bitOf ((base mSERVICE).rd F.MLS_ERRSEL_SEL) 8 = false) ∧
  ((∀ (k : ℕ), (base mSERVICE).rd F.PKE_P_CNT_COUNT k + 4096 < 2 ^ 32) ∧ (∀ (k : ℕ), (base mSERVICE).rd F.PKE_CNT_COUNT k + 2 < 2 ^ 32) ∧ (∀ (k : ℕ),
    (base mSERVICE).rd I.stCnt k + 4096 < 2 ^ 32) ∧ (base mSERVICE).fabric = true ∧ ((newFrame ((base mSERVICE).readLE (pksBase + bits 0 24 4 * 16) 4)
    ((base mSERVICE).readLE (pksBase + bits 0 24 4 * 16 + 4) 4) ((base mSERVICE).readLE (pksBase + bits 0 24 4 * 16 + 8) 4) ((base mSERVICE).readLE
    (pksBase + bits 0 24 4 * 16 + 12) 4) false none).own = false ∧ (newFrame ((base mSERVICE).readLE (pksBase + bits 0 24 4 * 16) 4) ((base
    mSERVICE).readLE (pksBase + bits 0 24 4 * 16 + 4) 4) ((base mSERVICE).readLE (pksBase + bits 0 24 4 * 16 + 8) 4) ((base mSERVICE).readLE (pksBase
    + bits 0 24 4 * 16 + 12) 4) false none).svc = false ∧ bitOf (newFrame ((base mSERVICE).readLE (pksBase + bits 0 24 4 * 16) 4) ((base
    mSERVICE).readLE (pksBase + bits 0 24 4 * 16 + 4) 4) ((base mSERVICE).readLE (pksBase + bits 0 24 4 * 16 + 8) 4) ((base mSERVICE).readLE (pksBase
    + bits 0 24 4 * 16 + 12) 4) false none).w3 25 = false) ∧ portSends (base mSERVICE) (dPort (newFrame ((base mSERVICE).readLE (pksBase + bits 0 24 4
    * 16) 4) ((base mSERVICE).readLE (pksBase + bits 0 24 4 * 16 + 4) 4) ((base mSERVICE).readLE (pksBase + bits 0 24 4 * 16 + 8) 4) ((base
    mSERVICE).readLE (pksBase + bits 0 24 4 * 16 + 12) 4) false none)) = false) ∧
  ((∀ (k : ℕ), g11bs2.rd F.PKE_P_CNT_COUNT k + 4096 < 2 ^ 32) ∧ (∀ (k : ℕ), g11bs2.rd F.PKE_CNT_COUNT k + 2 < 2 ^ 32) ∧ (∀ (k : ℕ), g11bs2.rd I.stCnt k
    + 4096 < 2 ^ 32) ∧ g11bs2.fabric = true ∧ ((newFrame (g11bs2.readLE (pksBase + bits 0 24 4 * 16) 4) (g11bs2.readLE (pksBase + bits 0 24 4 * 16 +
    4) 4) (g11bs2.readLE (pksBase + bits 0 24 4 * 16 + 8) 4) (g11bs2.readLE (pksBase + bits 0 24 4 * 16 + 12) 4) false none).own = false ∧ (newFrame
    (g11bs2.readLE (pksBase + bits 0 24 4 * 16) 4) (g11bs2.readLE (pksBase + bits 0 24 4 * 16 + 4) 4) (g11bs2.readLE (pksBase + bits 0 24 4 * 16 + 8)
    4) (g11bs2.readLE (pksBase + bits 0 24 4 * 16 + 12) 4) false none).svc = false ∧ bitOf (newFrame (g11bs2.readLE (pksBase + bits 0 24 4 * 16) 4)
    (g11bs2.readLE (pksBase + bits 0 24 4 * 16 + 4) 4) (g11bs2.readLE (pksBase + bits 0 24 4 * 16 + 8) 4) (g11bs2.readLE (pksBase + bits 0 24 4 * 16 +
    12) 4) false none).w3 25 = false) ∧ portSends g11bs2 (dPort (newFrame (g11bs2.readLE (pksBase + bits 0 24 4 * 16) 4) (g11bs2.readLE (pksBase +
    bits 0 24 4 * 16 + 4) 4) (g11bs2.readLE (pksBase + bits 0 24 4 * 16 + 8) 4) (g11bs2.readLE (pksBase + bits 0 24 4 * 16 + 12) 4) false none)) =
    true ∧ badDesc g11bs2 (newFrame (g11bs2.readLE (pksBase + bits 0 24 4 * 16) 4) (g11bs2.readLE (pksBase + bits 0 24 4 * 16 + 4) 4) (g11bs2.readLE
    (pksBase + bits 0 24 4 * 16 + 8) 4) (g11bs2.readLE (pksBase + bits 0 24 4 * 16 + 12) 4) false none) = true) ∧
  ((∀ (k : ℕ), g11bs6.rd F.PKE_P_CNT_COUNT k + 4096 < 2 ^ 32) ∧ (∀ (k : ℕ), g11bs6.rd F.PKE_CNT_COUNT k + 2 < 2 ^ 32) ∧ (∀ (k : ℕ), g11bs6.rd I.stCnt k
    + 4096 < 2 ^ 32) ∧ g11bs6.fabric = true ∧ ((newFrame (g11bs6.readLE (pksBase + bits 0 24 4 * 16) 4) (g11bs6.readLE (pksBase + bits 0 24 4 * 16 +
    4) 4) (g11bs6.readLE (pksBase + bits 0 24 4 * 16 + 8) 4) (g11bs6.readLE (pksBase + bits 0 24 4 * 16 + 12) 4) false none).own = false ∧ (newFrame
    (g11bs6.readLE (pksBase + bits 0 24 4 * 16) 4) (g11bs6.readLE (pksBase + bits 0 24 4 * 16 + 4) 4) (g11bs6.readLE (pksBase + bits 0 24 4 * 16 + 8)
    4) (g11bs6.readLE (pksBase + bits 0 24 4 * 16 + 12) 4) false none).svc = false ∧ bitOf (newFrame (g11bs6.readLE (pksBase + bits 0 24 4 * 16) 4)
    (g11bs6.readLE (pksBase + bits 0 24 4 * 16 + 4) 4) (g11bs6.readLE (pksBase + bits 0 24 4 * 16 + 8) 4) (g11bs6.readLE (pksBase + bits 0 24 4 * 16 +
    12) 4) false none).w3 25 = false) ∧ portSends g11bs6 (dPort (newFrame (g11bs6.readLE (pksBase + bits 0 24 4 * 16) 4) (g11bs6.readLE (pksBase +
    bits 0 24 4 * 16 + 4) 4) (g11bs6.readLE (pksBase + bits 0 24 4 * 16 + 8) 4) (g11bs6.readLE (pksBase + bits 0 24 4 * 16 + 12) 4) false none)) =
    true ∧ badDesc g11bs6 (newFrame (g11bs6.readLE (pksBase + bits 0 24 4 * 16) 4) (g11bs6.readLE (pksBase + bits 0 24 4 * 16 + 4) 4) (g11bs6.readLE
    (pksBase + bits 0 24 4 * 16 + 8) 4) (g11bs6.readLE (pksBase + bits 0 24 4 * 16 + 12) 4) false none) = false ∧ queueRoom (if dTimed (newFrame
    (g11bs6.readLE (pksBase + bits 0 24 4 * 16) 4) (g11bs6.readLE (pksBase + bits 0 24 4 * 16 + 4) 4) (g11bs6.readLE (pksBase + bits 0 24 4 * 16 + 8)
    4) (g11bs6.readLE (pksBase + bits 0 24 4 * 16 + 12) 4) false none) = true then 8 else dPrio (newFrame (g11bs6.readLE (pksBase + bits 0 24 4 * 16)
    4) (g11bs6.readLE (pksBase + bits 0 24 4 * 16 + 4) 4) (g11bs6.readLE (pksBase + bits 0 24 4 * 16 + 8) 4) (g11bs6.readLE (pksBase + bits 0 24 4 *
    16 + 12) 4) false none)) ≤ (egQueue g11bs6 (dPort (newFrame (g11bs6.readLE (pksBase + bits 0 24 4 * 16) 4) (g11bs6.readLE (pksBase + bits 0 24 4 *
    16 + 4) 4) (g11bs6.readLE (pksBase + bits 0 24 4 * 16 + 8) 4) (g11bs6.readLE (pksBase + bits 0 24 4 * 16 + 12) 4) false none)) (if dTimed
    (newFrame (g11bs6.readLE (pksBase + bits 0 24 4 * 16) 4) (g11bs6.readLE (pksBase + bits 0 24 4 * 16 + 4) 4) (g11bs6.readLE (pksBase + bits 0 24 4
    * 16 + 8) 4) (g11bs6.readLE (pksBase + bits 0 24 4 * 16 + 12) 4) false none) = true then 8 else dPrio (newFrame (g11bs6.readLE (pksBase + bits 0
    24 4 * 16) 4) (g11bs6.readLE (pksBase + bits 0 24 4 * 16 + 4) 4) (g11bs6.readLE (pksBase + bits 0 24 4 * 16 + 8) 4) (g11bs6.readLE (pksBase + bits
    0 24 4 * 16 + 12) 4) false none))).length) ∧
  ((∀ (k : ℕ), g11bs1.rd F.PKE_P_CNT_COUNT k + 4096 < 2 ^ 32) ∧ (∀ (k : ℕ), g11bs1.rd F.PKE_CNT_COUNT k + 2 < 2 ^ 32) ∧ (∀ (k : ℕ), g11bs1.rd I.stCnt k
    + 4096 < 2 ^ 32) ∧ g11bs1.fabric = true ∧ ((newFrame (g11bs1.readLE (pksBase + bits 0 24 4 * 16) 4) (g11bs1.readLE (pksBase + bits 0 24 4 * 16 +
    4) 4) (g11bs1.readLE (pksBase + bits 0 24 4 * 16 + 8) 4) (g11bs1.readLE (pksBase + bits 0 24 4 * 16 + 12) 4) false none).own = false ∧ (newFrame
    (g11bs1.readLE (pksBase + bits 0 24 4 * 16) 4) (g11bs1.readLE (pksBase + bits 0 24 4 * 16 + 4) 4) (g11bs1.readLE (pksBase + bits 0 24 4 * 16 + 8)
    4) (g11bs1.readLE (pksBase + bits 0 24 4 * 16 + 12) 4) false none).svc = false ∧ bitOf (newFrame (g11bs1.readLE (pksBase + bits 0 24 4 * 16) 4)
    (g11bs1.readLE (pksBase + bits 0 24 4 * 16 + 4) 4) (g11bs1.readLE (pksBase + bits 0 24 4 * 16 + 8) 4) (g11bs1.readLE (pksBase + bits 0 24 4 * 16 +
    12) 4) false none).w3 25 = false) ∧ portSends g11bs1 (dPort (newFrame (g11bs1.readLE (pksBase + bits 0 24 4 * 16) 4) (g11bs1.readLE (pksBase +
    bits 0 24 4 * 16 + 4) 4) (g11bs1.readLE (pksBase + bits 0 24 4 * 16 + 8) 4) (g11bs1.readLE (pksBase + bits 0 24 4 * 16 + 12) 4) false none)) =
    true ∧ badDesc g11bs1 (newFrame (g11bs1.readLE (pksBase + bits 0 24 4 * 16) 4) (g11bs1.readLE (pksBase + bits 0 24 4 * 16 + 4) 4) (g11bs1.readLE
    (pksBase + bits 0 24 4 * 16 + 8) 4) (g11bs1.readLE (pksBase + bits 0 24 4 * 16 + 12) 4) false none) = false ∧ (egQueue g11bs1 (dPort (newFrame
    (g11bs1.readLE (pksBase + bits 0 24 4 * 16) 4) (g11bs1.readLE (pksBase + bits 0 24 4 * 16 + 4) 4) (g11bs1.readLE (pksBase + bits 0 24 4 * 16 + 8)
    4) (g11bs1.readLE (pksBase + bits 0 24 4 * 16 + 12) 4) false none)) (if dTimed (newFrame (g11bs1.readLE (pksBase + bits 0 24 4 * 16) 4)
    (g11bs1.readLE (pksBase + bits 0 24 4 * 16 + 4) 4) (g11bs1.readLE (pksBase + bits 0 24 4 * 16 + 8) 4) (g11bs1.readLE (pksBase + bits 0 24 4 * 16 +
    12) 4) false none) = true then 8 else dPrio (newFrame (g11bs1.readLE (pksBase + bits 0 24 4 * 16) 4) (g11bs1.readLE (pksBase + bits 0 24 4 * 16 +
    4) 4) (g11bs1.readLE (pksBase + bits 0 24 4 * 16 + 8) 4) (g11bs1.readLE (pksBase + bits 0 24 4 * 16 + 12) 4) false none))).length < queueRoom (if
    dTimed (newFrame (g11bs1.readLE (pksBase + bits 0 24 4 * 16) 4) (g11bs1.readLE (pksBase + bits 0 24 4 * 16 + 4) 4) (g11bs1.readLE (pksBase + bits
    0 24 4 * 16 + 8) 4) (g11bs1.readLE (pksBase + bits 0 24 4 * 16 + 12) 4) false none) = true then 8 else dPrio (newFrame (g11bs1.readLE (pksBase +
    bits 0 24 4 * 16) 4) (g11bs1.readLE (pksBase + bits 0 24 4 * 16 + 4) 4) (g11bs1.readLE (pksBase + bits 0 24 4 * 16 + 8) 4) (g11bs1.readLE (pksBase
    + bits 0 24 4 * 16 + 12) 4) false none)) ∧ dTimed (newFrame (g11bs1.readLE (pksBase + bits 0 24 4 * 16) 4) (g11bs1.readLE (pksBase + bits 0 24 4 *
    16 + 4) 4) (g11bs1.readLE (pksBase + bits 0 24 4 * 16 + 8) 4) (g11bs1.readLE (pksBase + bits 0 24 4 * 16 + 12) 4) false none) = false) ∧
  ((∀ (k : ℕ), g11bs3.rd F.PKE_P_CNT_COUNT k + 4096 < 2 ^ 32) ∧ (∀ (k : ℕ), g11bs3.rd F.PKE_CNT_COUNT k + 2 < 2 ^ 32) ∧ (∀ (k : ℕ), g11bs3.rd I.stCnt k
    + 4096 < 2 ^ 32) ∧ g11bs3.fabric = true ∧ ((newFrame (g11bs3.readLE (pksBase + bits 0 24 4 * 16) 4) (g11bs3.readLE (pksBase + bits 0 24 4 * 16 +
    4) 4) (g11bs3.readLE (pksBase + bits 0 24 4 * 16 + 8) 4) (g11bs3.readLE (pksBase + bits 0 24 4 * 16 + 12) 4) false none).own = false ∧ (newFrame
    (g11bs3.readLE (pksBase + bits 0 24 4 * 16) 4) (g11bs3.readLE (pksBase + bits 0 24 4 * 16 + 4) 4) (g11bs3.readLE (pksBase + bits 0 24 4 * 16 + 8)
    4) (g11bs3.readLE (pksBase + bits 0 24 4 * 16 + 12) 4) false none).svc = false ∧ bitOf (newFrame (g11bs3.readLE (pksBase + bits 0 24 4 * 16) 4)
    (g11bs3.readLE (pksBase + bits 0 24 4 * 16 + 4) 4) (g11bs3.readLE (pksBase + bits 0 24 4 * 16 + 8) 4) (g11bs3.readLE (pksBase + bits 0 24 4 * 16 +
    12) 4) false none).w3 25 = false) ∧ portSends g11bs3 (dPort (newFrame (g11bs3.readLE (pksBase + bits 0 24 4 * 16) 4) (g11bs3.readLE (pksBase +
    bits 0 24 4 * 16 + 4) 4) (g11bs3.readLE (pksBase + bits 0 24 4 * 16 + 8) 4) (g11bs3.readLE (pksBase + bits 0 24 4 * 16 + 12) 4) false none)) =
    true ∧ badDesc g11bs3 (newFrame (g11bs3.readLE (pksBase + bits 0 24 4 * 16) 4) (g11bs3.readLE (pksBase + bits 0 24 4 * 16 + 4) 4) (g11bs3.readLE
    (pksBase + bits 0 24 4 * 16 + 8) 4) (g11bs3.readLE (pksBase + bits 0 24 4 * 16 + 12) 4) false none) = false ∧ (egQueue g11bs3 (dPort (newFrame
    (g11bs3.readLE (pksBase + bits 0 24 4 * 16) 4) (g11bs3.readLE (pksBase + bits 0 24 4 * 16 + 4) 4) (g11bs3.readLE (pksBase + bits 0 24 4 * 16 + 8)
    4) (g11bs3.readLE (pksBase + bits 0 24 4 * 16 + 12) 4) false none)) (if dTimed (newFrame (g11bs3.readLE (pksBase + bits 0 24 4 * 16) 4)
    (g11bs3.readLE (pksBase + bits 0 24 4 * 16 + 4) 4) (g11bs3.readLE (pksBase + bits 0 24 4 * 16 + 8) 4) (g11bs3.readLE (pksBase + bits 0 24 4 * 16 +
    12) 4) false none) = true then 8 else dPrio (newFrame (g11bs3.readLE (pksBase + bits 0 24 4 * 16) 4) (g11bs3.readLE (pksBase + bits 0 24 4 * 16 +
    4) 4) (g11bs3.readLE (pksBase + bits 0 24 4 * 16 + 8) 4) (g11bs3.readLE (pksBase + bits 0 24 4 * 16 + 12) 4) false none))).length < queueRoom (if
    dTimed (newFrame (g11bs3.readLE (pksBase + bits 0 24 4 * 16) 4) (g11bs3.readLE (pksBase + bits 0 24 4 * 16 + 4) 4) (g11bs3.readLE (pksBase + bits
    0 24 4 * 16 + 8) 4) (g11bs3.readLE (pksBase + bits 0 24 4 * 16 + 12) 4) false none) = true then 8 else dPrio (newFrame (g11bs3.readLE (pksBase +
    bits 0 24 4 * 16) 4) (g11bs3.readLE (pksBase + bits 0 24 4 * 16 + 4) 4) (g11bs3.readLE (pksBase + bits 0 24 4 * 16 + 8) 4) (g11bs3.readLE (pksBase
    + bits 0 24 4 * 16 + 12) 4) false none)) ∧ dTimed (newFrame (g11bs3.readLE (pksBase + bits 0 24 4 * 16) 4) (g11bs3.readLE (pksBase + bits 0 24 4 *
    16 + 4) 4) (g11bs3.readLE (pksBase + bits 0 24 4 * 16 + 8) 4) (g11bs3.readLE (pksBase + bits 0 24 4 * 16 + 12) 4) false none) = true ∧ 20000 <
    diff32 (newFrame (g11bs3.readLE (pksBase + bits 0 24 4 * 16) 4) (g11bs3.readLE (pksBase + bits 0 24 4 * 16 + 4) 4) (g11bs3.readLE (pksBase + bits
    0 24 4 * 16 + 8) 4) (g11bs3.readLE (pksBase + bits 0 24 4 * 16 + 12) 4) false none).w2 (portNow g11bs3 (dPort (newFrame (g11bs3.readLE (pksBase +
    bits 0 24 4 * 16) 4) (g11bs3.readLE (pksBase + bits 0 24 4 * 16 + 4) 4) (g11bs3.readLE (pksBase + bits 0 24 4 * 16 + 8) 4) (g11bs3.readLE (pksBase
    + bits 0 24 4 * 16 + 12) 4) false none)))) ∧
  ((∀ (k : ℕ), g11bs4.rd F.PKE_P_CNT_COUNT k + 4096 < 2 ^ 32) ∧ (∀ (k : ℕ), g11bs4.rd F.PKE_CNT_COUNT k + 2 < 2 ^ 32) ∧ (∀ (k : ℕ), g11bs4.rd I.stCnt k
    + 4096 < 2 ^ 32) ∧ g11bs4.fabric = true ∧ ((newFrame (g11bs4.readLE (pksBase + bits 0 24 4 * 16) 4) (g11bs4.readLE (pksBase + bits 0 24 4 * 16 +
    4) 4) (g11bs4.readLE (pksBase + bits 0 24 4 * 16 + 8) 4) (g11bs4.readLE (pksBase + bits 0 24 4 * 16 + 12) 4) false none).own = false ∧ (newFrame
    (g11bs4.readLE (pksBase + bits 0 24 4 * 16) 4) (g11bs4.readLE (pksBase + bits 0 24 4 * 16 + 4) 4) (g11bs4.readLE (pksBase + bits 0 24 4 * 16 + 8)
    4) (g11bs4.readLE (pksBase + bits 0 24 4 * 16 + 12) 4) false none).svc = false ∧ bitOf (newFrame (g11bs4.readLE (pksBase + bits 0 24 4 * 16) 4)
    (g11bs4.readLE (pksBase + bits 0 24 4 * 16 + 4) 4) (g11bs4.readLE (pksBase + bits 0 24 4 * 16 + 8) 4) (g11bs4.readLE (pksBase + bits 0 24 4 * 16 +
    12) 4) false none).w3 25 = false) ∧ portSends g11bs4 (dPort (newFrame (g11bs4.readLE (pksBase + bits 0 24 4 * 16) 4) (g11bs4.readLE (pksBase +
    bits 0 24 4 * 16 + 4) 4) (g11bs4.readLE (pksBase + bits 0 24 4 * 16 + 8) 4) (g11bs4.readLE (pksBase + bits 0 24 4 * 16 + 12) 4) false none)) =
    true ∧ badDesc g11bs4 (newFrame (g11bs4.readLE (pksBase + bits 0 24 4 * 16) 4) (g11bs4.readLE (pksBase + bits 0 24 4 * 16 + 4) 4) (g11bs4.readLE
    (pksBase + bits 0 24 4 * 16 + 8) 4) (g11bs4.readLE (pksBase + bits 0 24 4 * 16 + 12) 4) false none) = false ∧ (egQueue g11bs4 (dPort (newFrame
    (g11bs4.readLE (pksBase + bits 0 24 4 * 16) 4) (g11bs4.readLE (pksBase + bits 0 24 4 * 16 + 4) 4) (g11bs4.readLE (pksBase + bits 0 24 4 * 16 + 8)
    4) (g11bs4.readLE (pksBase + bits 0 24 4 * 16 + 12) 4) false none)) (if dTimed (newFrame (g11bs4.readLE (pksBase + bits 0 24 4 * 16) 4)
    (g11bs4.readLE (pksBase + bits 0 24 4 * 16 + 4) 4) (g11bs4.readLE (pksBase + bits 0 24 4 * 16 + 8) 4) (g11bs4.readLE (pksBase + bits 0 24 4 * 16 +
    12) 4) false none) = true then 8 else dPrio (newFrame (g11bs4.readLE (pksBase + bits 0 24 4 * 16) 4) (g11bs4.readLE (pksBase + bits 0 24 4 * 16 +
    4) 4) (g11bs4.readLE (pksBase + bits 0 24 4 * 16 + 8) 4) (g11bs4.readLE (pksBase + bits 0 24 4 * 16 + 12) 4) false none))).length < queueRoom (if
    dTimed (newFrame (g11bs4.readLE (pksBase + bits 0 24 4 * 16) 4) (g11bs4.readLE (pksBase + bits 0 24 4 * 16 + 4) 4) (g11bs4.readLE (pksBase + bits
    0 24 4 * 16 + 8) 4) (g11bs4.readLE (pksBase + bits 0 24 4 * 16 + 12) 4) false none) = true then 8 else dPrio (newFrame (g11bs4.readLE (pksBase +
    bits 0 24 4 * 16) 4) (g11bs4.readLE (pksBase + bits 0 24 4 * 16 + 4) 4) (g11bs4.readLE (pksBase + bits 0 24 4 * 16 + 8) 4) (g11bs4.readLE (pksBase
    + bits 0 24 4 * 16 + 12) 4) false none)) ∧ dTimed (newFrame (g11bs4.readLE (pksBase + bits 0 24 4 * 16) 4) (g11bs4.readLE (pksBase + bits 0 24 4 *
    16 + 4) 4) (g11bs4.readLE (pksBase + bits 0 24 4 * 16 + 8) 4) (g11bs4.readLE (pksBase + bits 0 24 4 * 16 + 12) 4) false none) = true ∧ diff32
    (newFrame (g11bs4.readLE (pksBase + bits 0 24 4 * 16) 4) (g11bs4.readLE (pksBase + bits 0 24 4 * 16 + 4) 4) (g11bs4.readLE (pksBase + bits 0 24 4
    * 16 + 8) 4) (g11bs4.readLE (pksBase + bits 0 24 4 * 16 + 12) 4) false none).w2 (portNow g11bs4 (dPort (newFrame (g11bs4.readLE (pksBase + bits 0
    24 4 * 16) 4) (g11bs4.readLE (pksBase + bits 0 24 4 * 16 + 4) 4) (g11bs4.readLE (pksBase + bits 0 24 4 * 16 + 8) 4) (g11bs4.readLE (pksBase + bits
    0 24 4 * 16 + 12) 4) false none))) ≤ 20000) ∧
  ((∀ (k : ℕ), (base mSERVICE).rd F.PKE_P_CNT_COUNT k + 4096 < 2 ^ 32) ∧ (∀ (k : ℕ), (base mSERVICE).rd F.PKE_CNT_COUNT k + 2 < 2 ^ 32) ∧ (∀ (k : ℕ),
    (base mSERVICE).rd I.stCnt k + 4096 < 2 ^ 32) ∧ ((raw 200000 T9 none false).own = false ∧ (raw 200000 T9 none false).svc = false ∧ bitOf (raw
    200000 T9 none false).w3 25 = false) ∧ dPort (raw 200000 T9 none false) = 0 ∧ egQueue (base mSERVICE) 0 8 = []) := by
  refine ⟨⟨?h1, ?h2, ?h3, ?h4, ?r1⟩, ⟨?h1, ?h2, ?h3, ?h4, ?h6, ?r2⟩, ⟨?h1, ?h2, ?h3, ?h4, ?h6, ?r3⟩, ?r4, ?r5, ?r6, ?r7, ?r8, ⟨?h1, ?h2, ?h3, ?r9⟩⟩
  all_goals try decide +kernel
  all_goals repeat' apply And.intro
  all_goals first
    | decide +kernel
    | exact every_value _ _ (fun v => v + 2 < 2 ^ 32) (by decide +kernel)
    | exact every_value _ _ (fun v => v + 4096 < 2 ^ 32) (by decide +kernel)

/-- States and operands that meet the hypotheses of EgressFramesAreSentOrEnd, clause by clause: each group in parentheses meets
those of one clause together. -/
theorem test_meets_EgressFramesAreSentOrEnd_2 :
  ((∀ (k : ℕ), g11bs7.rd F.PKE_P_CNT_COUNT k + 4096 < 2 ^ 32) ∧ (∀ (k : ℕ), g11bs7.rd F.PKE_CNT_COUNT k + 2 < 2 ^ 32) ∧ (∀ (k : ℕ), g11bs7.rd I.stCnt k
    + 4096 < 2 ^ 32) ∧ ((raw 200000 T9 none false).own = false ∧ (raw 200000 T9 none false).svc = false ∧ bitOf (raw 200000 T9 none false).w3 25 =
    false) ∧ dPort (raw 200000 T9 none false) = 0 ∧ egQueue g11bs7 0 8 = [raw 200000 T9 none false] ∧ ((raw 200000 T9 none false).frame.isSome = true
    ∨ inWindow g11bs7 0 (raw 200000 T9 none false).w2 = false)) ∧
  ((∀ (k : ℕ), g11bs9.rd F.PKE_P_CNT_COUNT k + 4096 < 2 ^ 32) ∧ (∀ (k : ℕ), g11bs9.rd F.PKE_CNT_COUNT k + 2 < 2 ^ 32) ∧ (∀ (k : ℕ), g11bs9.rd I.stCnt k
    + 4096 < 2 ^ 32) ∧ ((mk 4096 4097 110000 T9 none false).own = false ∧ (mk 4096 4097 110000 T9 none false).svc = false ∧ bitOf (mk 4096 4097 110000
    T9 none false).w3 25 = false) ∧ dPort (mk 4096 4097 110000 T9 none false) = 0 ∧ egQueue g11bs9 0 8 = [mk 4096 4097 110000 T9 none false] ∧ (mk
    4096 4097 110000 T9 none false).frame = none ∧ inWindow g11bs9 0 (mk 4096 4097 110000 T9 none false).w2 = true ∧ badDesc g11bs9 (mk 4096 4097
    110000 T9 none false) = true) ∧
  ((∀ (k : ℕ), g11bs8.rd F.PKE_P_CNT_COUNT k + 4096 < 2 ^ 32) ∧ (∀ (k : ℕ), g11bs8.rd F.PKE_CNT_COUNT k + 2 < 2 ^ 32) ∧ (∀ (k : ℕ), g11bs8.rd I.stCnt k
    + 4096 < 2 ^ 32) ∧ ((raw 110000 T9 none false).own = false ∧ (raw 110000 T9 none false).svc = false ∧ bitOf (raw 110000 T9 none false).w3 25 =
    false) ∧ dPort (raw 110000 T9 none false) = 0 ∧ egQueue g11bs8 0 8 = [raw 110000 T9 none false] ∧ (raw 110000 T9 none false).frame = none ∧
    inWindow g11bs8 0 (raw 110000 T9 none false).w2 = true ∧ badDesc g11bs8 (raw 110000 T9 none false) = false ∧ dRaw (raw 110000 T9 none false) =
    true) ∧
  ((∀ (k : ℕ), g11bs7.rd F.PKE_P_CNT_COUNT k + 4096 < 2 ^ 32) ∧ (∀ (k : ℕ), g11bs7.rd F.PKE_CNT_COUNT k + 2 < 2 ^ 32) ∧ (∀ (k : ℕ), g11bs7.rd I.stCnt k
    + 4096 < 2 ^ 32) ∧ ((raw 200000 T9 none false).own = false ∧ (raw 200000 T9 none false).svc = false ∧ bitOf (raw 200000 T9 none false).w3 25 =
    false) ∧ dPort (raw 200000 T9 none false) = 0 ∧ egQueue g11bs7 0 8 = [raw 200000 T9 none false] ∧ (raw 200000 T9 none false).frame = none) ∧
  ((∀ (k : ℕ), g11bs11.rd F.PKE_P_CNT_COUNT k + 4096 < 2 ^ 32) ∧ (∀ (k : ℕ), g11bs11.rd F.PKE_CNT_COUNT k + 2 < 2 ^ 32) ∧ (∀ (k : ℕ), g11bs11.rd I.stCnt
    k + 4096 < 2 ^ 32) ∧ ((raw 110000 T9 (some bytes) false).own = false ∧ (raw 110000 T9 (some bytes) false).svc = false ∧ bitOf (raw 110000 T9 (some
    bytes) false).w3 25 = false) ∧ dPort (raw 110000 T9 (some bytes) false) = 0 ∧ egQueue g11bs11 0 8 = [raw 110000 T9 (some bytes) false] ∧ (raw
    110000 T9 (some bytes) false).frame.isSome = true ∧ (raw 110000 T9 (some bytes) false).octets ≤ 2048 ∧ (wireFrame (if bitOf (raw 110000 T9 (some
    bytes) false).w1 11 = true then insertStamp ((raw 110000 T9 (some bytes) false).frame.getD []) (raw 110000 T9 (some bytes) false).w2 (txStamp
    g11bs11 0 (g11bs11.rd F.PKE_P_TCFG_LTB) 7) else (raw 110000 T9 (some bytes) false).frame.getD [])).length ≤ 2048 ∧ diff32 (txStamp g11bs11 0
    (g11bs11.rd F.PKE_P_TCFG_LTB) 7 / 256) (raw 110000 T9 (some bytes) false).w2 < 0 ∧ (raw 110000 T9 (some bytes) false).late = false) ∧
  ((∀ (k : ℕ), g11bs15.rd F.PKE_P_CNT_COUNT k + 4096 < 2 ^ 32) ∧ (∀ (k : ℕ), g11bs15.rd F.PKE_CNT_COUNT k + 2 < 2 ^ 32) ∧ (∀ (k : ℕ), g11bs15.rd I.stCnt
    k + 4096 < 2 ^ 32) ∧ ((raw 0 T9 (some bytes) true).own = false ∧ (raw 0 T9 (some bytes) true).svc = false ∧ bitOf (raw 0 T9 (some bytes) true).w3
    25 = false) ∧ dPort (raw 0 T9 (some bytes) true) = 0 ∧ egQueue g11bs15 0 8 = [raw 0 T9 (some bytes) true] ∧ (raw 0 T9 (some bytes)
    true).frame.isSome = true ∧ (raw 0 T9 (some bytes) true).octets ≤ 2048 ∧ (wireFrame (if bitOf (raw 0 T9 (some bytes) true).w1 11 = true then
    insertStamp ((raw 0 T9 (some bytes) true).frame.getD []) (raw 0 T9 (some bytes) true).w2 (txStamp g11bs15 0 (g11bs15.rd F.PKE_P_TCFG_LTB) 7) else
    (raw 0 T9 (some bytes) true).frame.getD [])).length ≤ 2048 ∧ (0 ≤ diff32 (txStamp g11bs15 0 (g11bs15.rd F.PKE_P_TCFG_LTB) 7 / 256) (raw 0 T9 (some
    bytes) true).w2 ∨ (raw 0 T9 (some bytes) true).late = true) ∧ portSends g11bs15 0 = false) ∧
  ((∀ (k : ℕ), g11bs14.rd F.PKE_P_CNT_COUNT k + 4096 < 2 ^ 32) ∧ (∀ (k : ℕ), g11bs14.rd F.PKE_CNT_COUNT k + 2 < 2 ^ 32) ∧ (∀ (k : ℕ), g11bs14.rd I.stCnt
    k + 4096 < 2 ^ 32) ∧ (g11bs20.own = false ∧ g11bs20.svc = false ∧ bitOf g11bs20.w3 25 = false) ∧ dPort g11bs20 = 0 ∧ egQueue g11bs14 0 8 =
    [g11bs20] ∧ g11bs20.frame.isSome = true ∧ g11bs20.octets ≤ 2048 ∧ (wireFrame (if bitOf g11bs20.w1 11 = true then insertStamp (g11bs20.frame.getD
    []) g11bs20.w2 (txStamp g11bs14 0 (g11bs14.rd F.PKE_P_TCFG_LTB) 7) else g11bs20.frame.getD [])).length ≤ 2048 ∧ (0 ≤ diff32 (txStamp g11bs14 0
    (g11bs14.rd F.PKE_P_TCFG_LTB) 7 / 256) g11bs20.w2 ∨ g11bs20.late = true) ∧ portSends g11bs14 0 = true ∧ (g11bs20.late = true ∨ ↑(g11bs14.rd
    F.PKE_P_TCFG_LATETOL) < diff32 (txStamp g11bs14 0 (g11bs14.rd F.PKE_P_TCFG_LTB) 7 / 256) g11bs20.w2) ∧ bitOf g11bs20.w3 27 = true ∧ g11bs14.rd
    I.stCnt (8 * dStrm g11bs20 + 6) + 2 < 2 ^ 32) := by
  refine ⟨⟨?h1, ?h2, ?h3, ?h4, ?h5, ?h6, ?r1⟩, ?r2, ?r3, ⟨?h1, ?h2, ?h3, ?h4, ?h5, ?h6, ?r4⟩, ?r5, ?r6, ?r7⟩
  all_goals try decide +kernel
  all_goals repeat' apply And.intro
  all_goals first
    | decide +kernel
    | exact every_value _ _ (fun v => v + 2 < 2 ^ 32) (by decide +kernel)
    | exact every_value _ _ (fun v => v + 4096 < 2 ^ 32) (by decide +kernel)

/-- States and operands that meet the hypotheses of EgressFramesAreSentOrEnd, clause by clause: each group in parentheses meets
those of one clause together. -/
theorem test_meets_EgressFramesAreSentOrEnd_3 :
  ((∀ (k : ℕ), g11bs13.rd F.PKE_P_CNT_COUNT k + 4096 < 2 ^ 32) ∧ (∀ (k : ℕ), g11bs13.rd F.PKE_CNT_COUNT k + 2 < 2 ^ 32) ∧ (∀ (k : ℕ), g11bs13.rd I.stCnt
    k + 4096 < 2 ^ 32) ∧ ((raw 99000 T9 (some bytes) false).own = false ∧ (raw 99000 T9 (some bytes) false).svc = false ∧ bitOf (raw 99000 T9 (some
    bytes) false).w3 25 = false) ∧ dPort (raw 99000 T9 (some bytes) false) = 0 ∧ egQueue g11bs13 0 8 = [raw 99000 T9 (some bytes) false] ∧ (raw 99000
    T9 (some bytes) false).frame.isSome = true ∧ (raw 99000 T9 (some bytes) false).octets ≤ 2048 ∧ (wireFrame (if bitOf (raw 99000 T9 (some bytes)
    false).w1 11 = true then insertStamp ((raw 99000 T9 (some bytes) false).frame.getD []) (raw 99000 T9 (some bytes) false).w2 (txStamp g11bs13 0
    (g11bs13.rd F.PKE_P_TCFG_LTB) 7) else (raw 99000 T9 (some bytes) false).frame.getD [])).length ≤ 2048 ∧ (0 ≤ diff32 (txStamp g11bs13 0 (g11bs13.rd
    F.PKE_P_TCFG_LTB) 7 / 256) (raw 99000 T9 (some bytes) false).w2 ∨ (raw 99000 T9 (some bytes) false).late = true) ∧ portSends g11bs13 0 = true ∧
    ((raw 99000 T9 (some bytes) false).late = true ∨ ↑(g11bs13.rd F.PKE_P_TCFG_LATETOL) < diff32 (txStamp g11bs13 0 (g11bs13.rd F.PKE_P_TCFG_LTB) 7 /
    256) (raw 99000 T9 (some bytes) false).w2) ∧ bitOf (raw 99000 T9 (some bytes) false).w3 27 = false) ∧
  ((∀ (k : ℕ), g11bs12.rd F.PKE_P_CNT_COUNT k + 4096 < 2 ^ 32) ∧ (∀ (k : ℕ), g11bs12.rd F.PKE_CNT_COUNT k + 2 < 2 ^ 32) ∧ (∀ (k : ℕ), g11bs12.rd I.stCnt
    k + 4096 < 2 ^ 32) ∧ ((raw 99998 T9 (some bytes) false).own = false ∧ (raw 99998 T9 (some bytes) false).svc = false ∧ bitOf (raw 99998 T9 (some
    bytes) false).w3 25 = false) ∧ dPort (raw 99998 T9 (some bytes) false) = 0 ∧ egQueue g11bs12 0 8 = [raw 99998 T9 (some bytes) false] ∧ (raw 99998
    T9 (some bytes) false).frame.isSome = true ∧ (raw 99998 T9 (some bytes) false).octets ≤ 2048 ∧ (wireFrame (if bitOf (raw 99998 T9 (some bytes)
    false).w1 11 = true then insertStamp ((raw 99998 T9 (some bytes) false).frame.getD []) (raw 99998 T9 (some bytes) false).w2 (txStamp g11bs12 0
    (g11bs12.rd F.PKE_P_TCFG_LTB) 7) else (raw 99998 T9 (some bytes) false).frame.getD [])).length ≤ 2048 ∧ (0 ≤ diff32 (txStamp g11bs12 0 (g11bs12.rd
    F.PKE_P_TCFG_LTB) 7 / 256) (raw 99998 T9 (some bytes) false).w2 ∨ (raw 99998 T9 (some bytes) false).late = true) ∧ portSends g11bs12 0 = true ∧
    (¬((raw 99998 T9 (some bytes) false).late = true ∨ ↑(g11bs12.rd F.PKE_P_TCFG_LATETOL) < diff32 (txStamp g11bs12 0 (g11bs12.rd F.PKE_P_TCFG_LTB) 7
    / 256) (raw 99998 T9 (some bytes) false).w2))) ∧
  ((∀ (k : ℕ), (base mSERVICE).rd F.PKE_P_CNT_COUNT k + 4096 < 2 ^ 32) ∧ (∀ (k : ℕ), (base mSERVICE).rd F.PKE_CNT_COUNT k + 2 < 2 ^ 32) ∧ (∀ (k : ℕ),
    (base mSERVICE).rd I.stCnt k + 4096 < 2 ^ 32) ∧ ((raw 200000 T9 none false).own = false ∧ (raw 200000 T9 none false).svc = false ∧ bitOf (raw
    200000 T9 none false).w3 25 = false) ∧ dPort (raw 200000 T9 none false) = 0 ∧ (∀ q < 8, egQueue (base mSERVICE) 0 q = [])) ∧
  ((∀ (k : ℕ), g11bs19.rd F.PKE_P_CNT_COUNT k + 4096 < 2 ^ 32) ∧ (∀ (k : ℕ), g11bs19.rd F.PKE_CNT_COUNT k + 2 < 2 ^ 32) ∧ (∀ (k : ℕ), g11bs19.rd I.stCnt
    k + 4096 < 2 ^ 32) ∧ ((raw 0 536870912 none false).own = false ∧ (raw 0 536870912 none false).svc = false ∧ bitOf (raw 0 536870912 none false).w3
    25 = false) ∧ dPort (raw 0 536870912 none false) = 0 ∧ 2 < 8 ∧ egQueue g11bs19 0 2 = [raw 0 536870912 none false] ∧ (∀ (r : ℕ), 2 < r → r < 8 →
    egQueue g11bs19 0 r = []) ∧ portSends g11bs19 0 = false) ∧
  ((∀ (k : ℕ), g11bs17.rd F.PKE_P_CNT_COUNT k + 4096 < 2 ^ 32) ∧ (∀ (k : ℕ), g11bs17.rd F.PKE_CNT_COUNT k + 2 < 2 ^ 32) ∧ (∀ (k : ℕ), g11bs17.rd I.stCnt
    k + 4096 < 2 ^ 32) ∧ ((mk 4096 4097 0 536870912 none false).own = false ∧ (mk 4096 4097 0 536870912 none false).svc = false ∧ bitOf (mk 4096 4097
    0 536870912 none false).w3 25 = false) ∧ dPort (mk 4096 4097 0 536870912 none false) = 0 ∧ 2 < 8 ∧ egQueue g11bs17 0 2 = [mk 4096 4097 0 536870912
    none false] ∧ (∀ (r : ℕ), 2 < r → r < 8 → egQueue g11bs17 0 r = []) ∧ portSends g11bs17 0 = true ∧ badDesc g11bs17 (mk 4096 4097 0 536870912 none
    false) = true) ∧
  ((∀ (k : ℕ), g11bs18.rd F.PKE_P_CNT_COUNT k + 4096 < 2 ^ 32) ∧ (∀ (k : ℕ), g11bs18.rd F.PKE_CNT_COUNT k + 2 < 2 ^ 32) ∧ (∀ (k : ℕ), g11bs18.rd I.stCnt
    k + 4096 < 2 ^ 32) ∧ ((raw 0 536870912 none false).own = false ∧ (raw 0 536870912 none false).svc = false ∧ bitOf (raw 0 536870912 none false).w3
    25 = false) ∧ dPort (raw 0 536870912 none false) = 0 ∧ 2 < 8 ∧ egQueue g11bs18 0 2 = [raw 0 536870912 none false] ∧ (∀ (r : ℕ), 2 < r → r < 8 →
    egQueue g11bs18 0 r = []) ∧ portSends g11bs18 0 = true ∧ badDesc g11bs18 (raw 0 536870912 none false) = false ∧ (raw 0 536870912 none false).frame
    = none ∧ fitsBefore g11bs18 0 (max 64 (((prepare g11bs18 (raw 0 536870912 none false)).1.frame.getD []).length + 4)) = false) := by
  refine ⟨?r1, ?r2, ?r3, ?r4, ?r5, ?r6⟩
  all_goals try decide +kernel
  all_goals repeat' apply And.intro
  all_goals first
    | decide +kernel
    | exact every_value _ _ (fun v => v + 2 < 2 ^ 32) (by decide +kernel)
    | exact every_value _ _ (fun v => v + 4096 < 2 ^ 32) (by decide +kernel)
    | (intro r h1 h2; interval_cases r <;> decide +kernel)

/-- States and operands that meet the hypotheses of EgressFramesAreSentOrEnd, clause by clause: each group in parentheses meets
those of one clause together. -/
theorem test_meets_EgressFramesAreSentOrEnd_4 :
  ((∀ (k : ℕ), g11bs16.rd F.PKE_P_CNT_COUNT k + 4096 < 2 ^ 32) ∧ (∀ (k : ℕ), g11bs16.rd F.PKE_CNT_COUNT k + 2 < 2 ^ 32) ∧ (∀ (k : ℕ), g11bs16.rd I.stCnt
    k + 4096 < 2 ^ 32) ∧ ((raw 0 536870912 none false).own = false ∧ (raw 0 536870912 none false).svc = false ∧ bitOf (raw 0 536870912 none false).w3
    25 = false) ∧ dPort (raw 0 536870912 none false) = 0 ∧ 2 < 8 ∧ egQueue g11bs16 0 2 = [raw 0 536870912 none false] ∧ (∀ (r : ℕ), 2 < r → r < 8 →
    egQueue g11bs16 0 r = []) ∧ portSends g11bs16 0 = true ∧ badDesc g11bs16 (raw 0 536870912 none false) = false ∧ (raw 0 536870912 none false).frame
    = none ∧ fitsBefore g11bs16 0 (max 64 (((prepare g11bs16 (raw 0 536870912 none false)).1.frame.getD []).length + 4)) = true ∧ (wireFrame (if bitOf
    (prepare g11bs16 (raw 0 536870912 none false)).1.w1 11 = true then insertStamp ((prepare g11bs16 (raw 0 536870912 none false)).1.frame.getD [])
    (prepare g11bs16 (raw 0 536870912 none false)).1.w2 (txStamp g11bs16 0 (g11bs16.rd F.PKE_P_TCFG_LTB) 7) else (prepare g11bs16 (raw 0 536870912
    none false)).1.frame.getD [])).length ≤ 2048) := by
  refine ?r1
  all_goals try decide +kernel
  all_goals repeat' apply And.intro
  all_goals first
    | decide +kernel
    | exact every_value _ _ (fun v => v + 2 < 2 ^ 32) (by decide +kernel)
    | exact every_value _ _ (fun v => v + 4096 < 2 ^ 32) (by decide +kernel)
    | (intro r h1 h2; interval_cases r <;> decide +kernel)

end Egress

namespace Time

def b0 : State := puts (base mSERVICE) [(I.tickRun, 0, 1), (F.TMU_SELECT_INDEX, 4, 1), (F.TMU_SELECT_INDEX, 0, 2), (F.TMU_SELECT_INDEX, 1, 3), (F.TMU_TB_NS_NS, 0, 1000), (F.TMU_TB_NS_NS, 1, 2000), (F.TMU_TB_NS_NS, 2, 0x80001234), (I.tbFrac, 1, 0xABCDEF123456), (F.PKE_P_TCFG_LTB, 0, 2),(F.PKE_P_TCFG_LTB, 1, 2),(F.PKE_P_TCFG_LTB, 2, 2),(F.PKE_P_TCFG_LTB, 3, 2),(F.PKE_P_TCFG_LTB, 4, 2),(F.PKE_P_TCFG_LTB, 5, 2),(F.PKE_P_TCFG_LTB, 6, 2),(F.PKE_P_TCFG_LTB, 7, 2)]
def B (l : List (Fld × Nat × Nat)) : State := puts b0 l
def ps : List (Fld × Nat × Nat) := [(F.TMU_PS_CFG_EN, 0, 1), (F.TMU_PS_STAT_REFVALID, 0, 1), (F.TMU_PS_OFS_VALUE, 0, 0xFFFFFFF0), (I.psOfs, 0, 5), (F.TMU_PS_THR_OFSTHR, 0, 9), (F.TMU_PS_THR_MPDTHR, 0, 9), (I.psMpd, 0, 3), (F.TMU_PS_CFG_EN, 7, 1), (F.TMU_PS_STAT_FIRED, 0, 1)]
def wp (n st tb tgt : Nat) : List (Fld × Nat × Nat) := [(F.TMU_WP_STAT_STATE, n, st), (I.wpTb, n, tb), (F.TMU_WP_TARGET_TARGET, n, tgt)]
def g12s0 : State := B [(F.TMU_TB_CFG_LOCK, 1, 1), (F.TMU_TB_STEP_STEP, 2, 5)]
def g12s3 : State := B ([(F.TMU_TB_STEP_STEP, 1, 9)] ++ wp 4 wpPENDING 1 2100)
def g12s4 : State := B ([(F.TMU_TB_STEP_STEP, 1, 200), (F.TMU_WP_CTL_DROPLATE, 4, 1)] ++ wp 4 wpPENDING 1 2100)
def g12s5 : State := B ([(F.TMU_TB_STEP_STEP, 1, 2^32 - 1)] ++ wp 4 wpPENDING 1 2100)
def g12s6 : State := B ([(F.TMU_TB_STEP_STEP, 1, 2^32 - 100)] ++ wp 4 wpPENDING 1 (2000 + 2^31 - 50))
def g12s7 : State := B [(F.TMU_IO_CFG_EN, 0, 1), (F.TMU_IO_CFG_EN, 1, 1), (F.TMU_IO_CAPST_VALID, 5, 1), (F.TMU_IO_CFG_EN, 5, 1), (F.TMU_IO_CFG_EN, 2, 1), (F.TMU_IO_CFG_POL, 2, 1)]

/-- States and operands that meet the hypotheses of TimeBasesPinsAndPathstep, clause by clause: each group in parentheses meets
those of one clause together. -/
theorem test_meets_TimeBasesPinsAndPathstep_1 :
  (selBase (base mSERVICE) (Init.sgc 3) = none) ∧
  (g12s0.fabric = true ∧ selBase g12s0 Init.host = some 1 ∧ selCopy Init.host = some 4 ∧ (tbGuard g12s0 1 = true ∨ 1 = 1 ∧ g12s0.rd F.TMU_TB_CFG_LOCK 1
    = 1)) ∧
  ((base mSERVICE).fabric = true ∧ selBase (base mSERVICE) (Init.svc 0) = some 0 ∧ selCopy (Init.svc 0) = some 0 ∧ (¬(tbGuard (base mSERVICE) 0 = true ∨
    0 = 1 ∧ (base mSERVICE).rd F.TMU_TB_CFG_LOCK 1 = 1))) ∧
  ((base mSERVICE).fabric = true ∧ selBase (base mSERVICE) (Init.svc 0) = some 0 ∧ selCopy (Init.svc 0) = some 0 ∧ bitOf 0 0 = false) ∧
  (b0.fabric = true ∧ selBase b0 (Init.svc 0) = some 2 ∧ selCopy (Init.svc 0) = some 0 ∧ bitOf 1 0 = true ∧ (2 = 2 ∨ b0.rd F.TMU_TB_STEP_STEP 2 =
    2147483648)) ∧
  ((base mSERVICE).fabric = true ∧ selBase (base mSERVICE) (Init.svc 0) = some 0 ∧ selCopy (Init.svc 0) = some 0 ∧ bitOf 1 0 = true ∧ (¬(0 = 2 ∨ (base
    mSERVICE).rd F.TMU_TB_STEP_STEP = 2147483648)) ∧ (base mSERVICE).rd I.tickRun = 0) ∧
  (b0.fabric = true ∧ selBase b0 (Init.svc 1) = some 3 ∧ selCopy (Init.svc 1) = some 1 ∧ bitOf 1 0 = true ∧ (¬(3 = 2 ∨ b0.rd F.TMU_TB_STEP_STEP 3 =
    2147483648)) ∧ b0.rd I.tickRun = 1 ∧ (∀ p < 8, b0.rd F.PKE_P_TCFG_LTB p ≠ 3) ∧ b0.nonzero F.TMU_WP_STAT_STATE = []) ∧
  (g12s3.fabric = true ∧ selBase g12s3 Init.host = some 1 ∧ selCopy Init.host = some 4 ∧ bitOf 1 0 = true ∧ (¬(1 = 2 ∨ g12s3.rd F.TMU_TB_STEP_STEP 1 =
    2147483648)) ∧ g12s3.rd I.tickRun = 1 ∧ (∀ p < 8, g12s3.rd F.PKE_P_TCFG_LTB p ≠ 1) ∧ g12s3.nonzero F.TMU_WP_STAT_STATE = [4] ∧ g12s3.rd
    F.TMU_WP_STAT_STATE 4 = wpPENDING ∧ g12s3.rd I.wpTb 4 = 1 ∧ 0 < diff32 (g12s3.rd F.TMU_WP_TARGET_TARGET 4) (g12s3.rd F.TMU_TB_NS_NS 1) ∧ 0 <
    signedOf 32 (g12s3.rd F.TMU_TB_STEP_STEP 1) ∧ signedOf 32 (g12s3.rd F.TMU_TB_STEP_STEP 1) < diff32 (g12s3.rd F.TMU_WP_TARGET_TARGET 4) (g12s3.rd
    F.TMU_TB_NS_NS 1)) ∧
  (g12s4.fabric = true ∧ selBase g12s4 Init.host = some 1 ∧ selCopy Init.host = some 4 ∧ bitOf 1 0 = true ∧ (¬(1 = 2 ∨ g12s4.rd F.TMU_TB_STEP_STEP 1 =
    2147483648)) ∧ g12s4.rd I.tickRun = 1 ∧ (∀ p < 8, g12s4.rd F.PKE_P_TCFG_LTB p ≠ 1) ∧ g12s4.nonzero F.TMU_WP_STAT_STATE = [4] ∧ g12s4.rd
    F.TMU_WP_STAT_STATE 4 = wpPENDING ∧ g12s4.rd I.wpTb 4 = 1 ∧ 0 < diff32 (g12s4.rd F.TMU_WP_TARGET_TARGET 4) (g12s4.rd F.TMU_TB_NS_NS 1) ∧ 0 <
    signedOf 32 (g12s4.rd F.TMU_TB_STEP_STEP 1) ∧ diff32 (g12s4.rd F.TMU_WP_TARGET_TARGET 4) (g12s4.rd F.TMU_TB_NS_NS 1) ≤ signedOf 32 (g12s4.rd
    F.TMU_TB_STEP_STEP 1) ∧ g12s4.rd F.TMU_WP_CTL_DROPLATE 4 = 1 ∧ g12s4.rd F.TMU_WP_PERIOD_PERIOD 4 = 0 ∧ g12s4.rd F.TMU_LATEDROP_COUNT + 2 < 2 ^ 32) := by
  refine ⟨?r1, ?r2, ⟨?h6, ?h7, ?h8, ?r3⟩, ⟨?h6, ?h7, ?h8, ?r4⟩, ⟨?h11, ?r5⟩, ⟨?h6, ?h7, ?h8, ?h13, ?r6⟩, ⟨?h11, ?r7⟩, ?r8, ?r9⟩
  all_goals decide +kernel

/-- States and operands that meet the hypotheses of TimeBasesPinsAndPathstep, clause by clause: each group in parentheses meets
those of one clause together. -/
theorem test_meets_TimeBasesPinsAndPathstep_2 :
  (g12s5.fabric = true ∧ selBase g12s5 Init.host = some 1 ∧ selCopy Init.host = some 4 ∧ bitOf 1 0 = true ∧ (¬(1 = 2 ∨ g12s5.rd F.TMU_TB_STEP_STEP 1 =
    2147483648)) ∧ g12s5.rd I.tickRun = 1 ∧ (∀ p < 8, g12s5.rd F.PKE_P_TCFG_LTB p ≠ 1) ∧ g12s5.nonzero F.TMU_WP_STAT_STATE = [4] ∧ g12s5.rd
    F.TMU_WP_STAT_STATE 4 = wpPENDING ∧ g12s5.rd I.wpTb 4 = 1 ∧ 0 < diff32 (g12s5.rd F.TMU_WP_TARGET_TARGET 4) (g12s5.rd F.TMU_TB_NS_NS 1) ∧ signedOf
    32 (g12s5.rd F.TMU_TB_STEP_STEP 1) ≤ 0 ∧ diff32 (g12s5.rd F.TMU_WP_TARGET_TARGET 4) (g12s5.rd F.TMU_TB_NS_NS 1) - signedOf 32 (g12s5.rd
    F.TMU_TB_STEP_STEP 1) < 2 ^ 31) ∧
  (g12s6.fabric = true ∧ selBase g12s6 Init.host = some 1 ∧ selCopy Init.host = some 4 ∧ bitOf 1 0 = true ∧ (¬(1 = 2 ∨ g12s6.rd F.TMU_TB_STEP_STEP 1 =
    2147483648)) ∧ g12s6.rd I.tickRun = 1 ∧ (∀ p < 8, g12s6.rd F.PKE_P_TCFG_LTB p ≠ 1) ∧ g12s6.nonzero F.TMU_WP_STAT_STATE = [4] ∧ g12s6.rd
    F.TMU_WP_STAT_STATE 4 = wpPENDING ∧ g12s6.rd I.wpTb 4 = 1 ∧ 0 < diff32 (g12s6.rd F.TMU_WP_TARGET_TARGET 4) (g12s6.rd F.TMU_TB_NS_NS 1) ∧ signedOf
    32 (g12s6.rd F.TMU_TB_STEP_STEP 1) ≤ 0 ∧ 2 ^ 31 ≤ diff32 (g12s6.rd F.TMU_WP_TARGET_TARGET 4) (g12s6.rd F.TMU_TB_NS_NS 1) - signedOf 32 (g12s6.rd
    F.TMU_TB_STEP_STEP 1)) ∧
  ((¬(tmuRuns (base mSERVICE) = true ∧ tb1Follows (base mSERVICE) = true))) ∧
  ((¬(tmuRuns (base mSERVICE) = true ∧ tb1Follows (base mSERVICE) = true) ∨ (base mSERVICE).rd F.TMU_TB_STAT_HOLDOVER 1 = 1)) ∧
  ((tmuRuns g12s0 = true ∧ tb1Follows g12s0 = true) ∧ g12s0.rd F.TMU_TB_STAT_HOLDOVER 1 = 0) ∧
  ((¬((base mSERVICE).fabric = true ∧ (base mSERVICE).rd F.TMU_IO_CFG_EN = 1 ∧ ioOut (base mSERVICE) 0 = false ∧ (if false = true then 1 else 0) ≠ (base
    mSERVICE).rd F.TMU_IO_CFG_POL))) ∧
  ((g12s7.fabric = true ∧ g12s7.rd F.TMU_IO_CFG_EN 5 = 1 ∧ ioOut g12s7 5 = false ∧ (if true = true then 1 else 0) ≠ g12s7.rd F.TMU_IO_CFG_POL 5) ∧
    g12s7.rd F.TMU_IO_CAPST_VALID 5 = 1) ∧
  ((g12s7.fabric = true ∧ g12s7.rd F.TMU_IO_CFG_EN = 1 ∧ ioOut g12s7 0 = false ∧ (if true = true then 1 else 0) ≠ g12s7.rd F.TMU_IO_CFG_POL) ∧ g12s7.rd
    F.TMU_IO_CAPST_VALID = 0) ∧
  ((base mSERVICE).fabric = true ∧ (base mSERVICE).rd F.TMU_PS_CFG_EN = 0) ∧
  ((B ps).fabric = true ∧ (B ps).rd F.TMU_PS_CFG_EN = 1 ∧ ((B ps).rd F.TMU_PS_STAT_REFVALID = 1 ∧ max 1 ((B ps).rd F.TMU_PS_THR_OFSTHR) ≤ (diff32 ((B
    ps).rd F.TMU_PS_OFS_VALUE) ((B ps).rd I.psOfs)).natAbs ∧ max 1 ((B ps).rd F.TMU_PS_THR_MPDTHR) ≤ (diff32 2147483654 ((B ps).rd I.psMpd)).natAbs)) ∧
  ((B ps).fabric = true ∧ (B ps).rd F.TMU_PS_CFG_EN = 1 ∧ (¬((B ps).rd F.TMU_PS_STAT_REFVALID = 1 ∧ max 1 ((B ps).rd F.TMU_PS_THR_OFSTHR) ≤ (diff32 ((B
    ps).rd F.TMU_PS_OFS_VALUE) ((B ps).rd I.psOfs)).natAbs ∧ max 1 ((B ps).rd F.TMU_PS_THR_MPDTHR) ≤ (diff32 0 ((B ps).rd I.psMpd)).natAbs))) ∧
  ((base mSERVICE).fabric = true ∧ (bitOf 0 31 = false ∨ (base mSERVICE).rd F.TMU_PS_STAT_FIRED = 0)) ∧
  ((B ps).fabric = true ∧ bitOf 2147483654 31 = true ∧ (B ps).rd F.TMU_PS_STAT_FIRED = 1) := by
  refine ⟨?r1, ?r2, ?r3, ?r4, ?r5, ?r6, ?r7, ?r8, ⟨?h34, ?r9⟩, ⟨?h36, ?h37, ?r10⟩, ⟨?h36, ?h37, ?r11⟩, ⟨?h34, ?r12⟩, ⟨?h36, ?r13⟩⟩
  all_goals decide +kernel

end Time

namespace Waypoints

def b0 : State := puts (base mSERVICE) [(I.tickRun, 0, 1), (F.TMU_WPSEL_INDEX, 4, 1), (F.TMU_WPSEL_INDEX, 0, 2), (F.TMU_WPSEL_INDEX, 1, 3), (F.TMU_WPSEL_INDEX, 2, 4096), (F.TMU_TB_NS_NS, 0, 1000), (F.TMU_TB_NS_NS, 1, 2000), (F.TMU_TB_NS_NS, 2, 0x80001234)]
def B (l : List (Fld × Nat × Nat)) : State := puts b0 l
def wp (n st tb tgt act a0 a1 : Nat) : List (Fld × Nat × Nat) := [(F.TMU_WP_STAT_STATE, n, st), (I.wpTb, n, tb), (F.TMU_WP_CTL_TB, n, tb), (F.TMU_WP_TARGET_TARGET, n, tgt), (F.TMU_WP_CTL_ACT, n, act), (F.TMU_WP_ARG0_ARG, n, a0), (F.TMU_WP_ARG1_ARG, n, a1)]
def en (n : Nat) : List (Fld × Nat × Nat) := [(F.TMU_WP_CTL_EN, n, 1)]
def act (a b c : Nat) : State :=
  B (wp 1 wpPENDING 1 1990 a b c ++ wp 2 wpPENDING 1 2000 a b c ++ [(F.TMU_WP_PERIOD_PERIOD, 2, 1000), (F.TMU_IO_CFG_EN, 1, 1), (F.TSU_T_STAT_STATE, 5, 1), (F.TSU_T_STAT_STATE, 9, 1), (F.MLS_SRCEN_SRCEN, 0, 15), (F.MLS_STAT_ARMED, 0, 1)])
def g12bs0 : State := B (wp 1 wpPENDING 1 1900 0 0 0 ++ en 1 ++ wp 2 0 1 2100 0 0 0 ++ wp 3 wpPENDING 1 2100 0 0 0 ++ en 3)
def g12bs1 : State := B (wp 1 wpPENDING 1 2100 0 0 0 ++ en 1 ++ wp 2 0 1 2100 0 0 0 ++ wp 3 wpPENDING 1 2100 0 0 0 ++ en 3 ++ [(F.TMU_WP_CTL_DROPLATE, 3, 1)])
def g12bs2 : State := B (wp 1 wpHELD 1 2100 0 0 0 ++ wp 2 wpHELD 1 1900 0 0 0 ++ wp 3 wpPENDING 1 2500 1 0x30005 9 ++ [(I.wpLa, 3, 1), (F.TSU_T_STAT_STATE, 5, 1), (F.TSU_T_CFG_EN, 5, 1), (F.TSU_T_STAT_STATE, 7, 1), (F.TSU_T_CFG_EN, 7, 1),(F.TMU_LACFG_LOOKAHEAD, 0, 1000)])
def g12bs3 : State := puts (B (wp 3 wpPENDING 1 2500 1 0x30005 9 ++ [(I.wpLa, 3, 1), (F.TMU_LACFG_LOOKAHEAD, 0, 1000)] ++ wp 1 wpPENDING 1 1990 6 0xFF 0)) [(F.PMU_MODE_CURRENT, 0, mBOOT)]

/-- States and operands that meet the hypotheses of WaypointsArmFireAndGiveNotice, clause by clause: each group in parentheses meets
those of one clause together. -/
theorem test_meets_WaypointsArmFireAndGiveNotice_1 :
  ((∀ f ∈ [F.TMU_LATECNT_COUNT, F.TMU_LATEDROP_COUNT], (base mSERVICE).rd f + 2 < 2 ^ 32) ∧ bitOf ((base mSERVICE).rd F.MLS_ERRSEL_SEL) 10 = false ∧
    selWp (base mSERVICE) (Init.sgc 3) = none) ∧
  ((∀ f ∈ [F.TMU_LATECNT_COUNT, F.TMU_LATEDROP_COUNT], (base mSERVICE).rd f + 2 < 2 ^ 32) ∧ bitOf ((base mSERVICE).rd F.MLS_ERRSEL_SEL) 10 = false ∧
    (base mSERVICE).fabric = true ∧ selWp (base mSERVICE) (Init.svc 0) = some 0 ∧ bitOf 0 31 = false) ∧
  ((∀ f ∈ [F.TMU_LATECNT_COUNT, F.TMU_LATEDROP_COUNT], g12bs0.rd f + 2 < 2 ^ 32) ∧ bitOf (g12bs0.rd F.MLS_ERRSEL_SEL) 10 = false ∧ g12bs0.fabric = true
    ∧ selWp g12bs0 (Init.svc 1) = some 3 ∧ bitOf 2148532224 31 = true ∧ g12bs0.rd F.TMU_WP_CTL_EN 3 = 1) ∧
  ((∀ f ∈ [F.TMU_LATECNT_COUNT, F.TMU_LATEDROP_COUNT], (base mSERVICE).rd f + 2 < 2 ^ 32) ∧ bitOf ((base mSERVICE).rd F.MLS_ERRSEL_SEL) 10 = false ∧
    (base mSERVICE).fabric = true ∧ selWp (base mSERVICE) (Init.svc 0) = some 0 ∧ bitOf 2148532224 31 = true ∧ (base mSERVICE).rd F.TMU_WP_CTL_EN = 0
    ∧ (tmuRuns (base mSERVICE) = false ∨ 0 < diff32 ((base mSERVICE).rd F.TMU_WP_TARGET_TARGET) ((base mSERVICE).rd F.TMU_TB_NS_NS (bits 2148532224 21
    20)))) ∧
  ((∀ f ∈ [F.TMU_LATECNT_COUNT, F.TMU_LATEDROP_COUNT], b0.rd f + 2 < 2 ^ 32) ∧ bitOf (b0.rd F.MLS_ERRSEL_SEL) 10 = false ∧ b0.fabric = true ∧ selWp b0
    (Init.svc 0) = some 2 ∧ bitOf 3224371200 31 = true ∧ b0.rd F.TMU_WP_CTL_EN 2 = 0 ∧ tmuRuns b0 = true ∧ diff32 (b0.rd F.TMU_WP_TARGET_TARGET 2)
    (b0.rd F.TMU_TB_NS_NS (bits 3224371200 21 20)) ≤ 0 ∧ b0.rd F.TMU_WP_PERIOD_PERIOD 2 = 0 ∧ bitOf 3224371200 30 = true) ∧
  ((∀ f ∈ [F.TMU_LATECNT_COUNT, F.TMU_LATEDROP_COUNT], b0.rd f + 2 < 2 ^ 32) ∧ bitOf (b0.rd F.MLS_ERRSEL_SEL) 10 = false ∧ b0.fabric = true ∧ selWp b0
    (Init.svc 0) = some 2 ∧ bitOf 2148532224 31 = true ∧ b0.rd F.TMU_WP_CTL_EN 2 = 0 ∧ tmuRuns b0 = true ∧ diff32 (b0.rd F.TMU_WP_TARGET_TARGET 2)
    (b0.rd F.TMU_TB_NS_NS (bits 2148532224 21 20)) ≤ 0 ∧ b0.rd F.TMU_WP_PERIOD_PERIOD 2 = 0 ∧ bitOf 2148532224 30 = false ∧ bits 2148532224 27 24 = 0) ∧
  ((∀ f ∈ [F.TMU_LATECNT_COUNT, F.TMU_LATEDROP_COUNT], g12bs0.rd f + 2 < 2 ^ 32) ∧ bitOf (g12bs0.rd F.MLS_ERRSEL_SEL) 10 = false ∧ g12bs0.fabric = true
    ∧ selWp g12bs0 (Init.svc 1) = some 3 ∧ g12bs0.rd F.TMU_WP_CTL_EN 3 = 1 ∧ wpDue g12bs0 3 = false ∧ (tmuRuns g12bs0 = false ∨ 0 < diff32 3000
    (g12bs0.rd F.TMU_TB_NS_NS (g12bs0.rd F.TMU_WP_CTL_TB 3)))) ∧
  ((∀ f ∈ [F.TMU_LATECNT_COUNT, F.TMU_LATEDROP_COUNT], g12bs1.rd f + 2 < 2 ^ 32) ∧ bitOf (g12bs1.rd F.MLS_ERRSEL_SEL) 10 = false ∧ g12bs1.fabric = true
    ∧ selWp g12bs1 (Init.svc 1) = some 3 ∧ g12bs1.rd F.TMU_WP_CTL_EN 3 = 1 ∧ wpDue g12bs1 3 = false ∧ tmuRuns g12bs1 = true ∧ diff32 0 (g12bs1.rd
    F.TMU_TB_NS_NS (g12bs1.rd F.TMU_WP_CTL_TB 3)) ≤ 0 ∧ g12bs1.rd F.TMU_WP_PERIOD_PERIOD 3 = 0 ∧ g12bs1.rd F.TMU_WP_CTL_DROPLATE 3 = 1) ∧
  ((∀ f ∈ [F.TMU_LATECNT_COUNT, F.TMU_LATEDROP_COUNT], g12bs0.rd f + 2 < 2 ^ 32) ∧ bitOf (g12bs0.rd F.MLS_ERRSEL_SEL) 10 = false ∧ g12bs0.fabric = true
    ∧ selWp g12bs0 (Init.svc 1) = some 3 ∧ g12bs0.rd F.TMU_WP_CTL_EN 3 = 1 ∧ wpDue g12bs0 3 = false ∧ tmuRuns g12bs0 = true ∧ diff32 0 (g12bs0.rd
    F.TMU_TB_NS_NS (g12bs0.rd F.TMU_WP_CTL_TB 3)) ≤ 0 ∧ g12bs0.rd F.TMU_WP_PERIOD_PERIOD 3 = 0 ∧ g12bs0.rd F.TMU_WP_CTL_DROPLATE 3 = 0 ∧ g12bs0.rd
    F.TMU_WP_CTL_ACT 3 = 0) := by
  refine ⟨⟨?h1, ?h2, ?r1⟩, ⟨?h1, ?h2, ?h4, ?h5, ?r2⟩, ⟨?h7, ?h8, ?h9, ?h10, ?h11, ?h12⟩, ⟨?h1, ?h2, ?h4, ?h5, ?h11, ?r3⟩, ⟨?h15, ?h16, ?h17, ?h18, ?r4⟩,
    ⟨?h15, ?h16, ?h17, ?h18, ?h11, ?h20, ?h21, ?r5⟩, ⟨?h7, ?h8, ?h9, ?h10, ?h12, ?h28, ?r6⟩, ?r7, ⟨?h7, ?h8, ?h9, ?h10, ?h12, ?h28, ?r8⟩⟩
  all_goals decide +kernel

/-- States and operands that meet the hypotheses of WaypointsArmFireAndGiveNotice, clause by clause: each group in parentheses meets
those of one clause together. -/
theorem test_meets_WaypointsArmFireAndGiveNotice_2 :
  ((∀ f ∈ [F.TMU_LATECNT_COUNT, F.TMU_LATEDROP_COUNT], (base mSERVICE).rd f + 2 < 2 ^ 32) ∧ bitOf ((base mSERVICE).rd F.MLS_ERRSEL_SEL) 10 = false ∧
    (tmuRuns (base mSERVICE) = false ∨ (base mSERVICE).rd F.TMU_WP_STAT_STATE 1 ≠ wpPENDING ∨ 0 < diff32 ((base mSERVICE).rd F.TMU_WP_TARGET_TARGET 1)
    ((base mSERVICE).rd F.TMU_TB_NS_NS ((base mSERVICE).rd I.wpTb 1)))) ∧
  ((∀ f ∈ [F.TMU_LATECNT_COUNT, F.TMU_LATEDROP_COUNT], g12bs0.rd f + 2 < 2 ^ 32) ∧ bitOf (g12bs0.rd F.MLS_ERRSEL_SEL) 10 = false ∧ tmuRuns g12bs0 = true
    ∧ g12bs0.rd F.TMU_WP_STAT_STATE 1 = wpPENDING ∧ diff32 (g12bs0.rd F.TMU_WP_TARGET_TARGET 1) (g12bs0.rd F.TMU_TB_NS_NS (g12bs0.rd I.wpTb 1)) ≤ 0 ∧
    noticeDue g12bs0 1 = false ∧ (base mSERVICE).rd F.TMU_WP_PERIOD_PERIOD 1 = 0) ∧
  ((∀ f ∈ [F.TMU_LATECNT_COUNT, F.TMU_LATEDROP_COUNT], (act 0 0 0).rd f + 2 < 2 ^ 32) ∧ bitOf ((act 0 0 0).rd F.MLS_ERRSEL_SEL) 10 = false ∧ tmuRuns
    (act 0 0 0) = true ∧ (act 0 0 0).rd F.TMU_WP_STAT_STATE 2 = wpPENDING ∧ diff32 ((act 0 0 0).rd F.TMU_WP_TARGET_TARGET 2) ((act 0 0 0).rd
    F.TMU_TB_NS_NS ((act 0 0 0).rd I.wpTb 2)) ≤ 0 ∧ noticeDue (act 0 0 0) 2 = false ∧ 1000 ≤ (act 0 0 0).rd F.TMU_WP_PERIOD_PERIOD 2 ∧ (act 0 0 0).rd
    F.TMU_WP_PERIOD_PERIOD 2 < 2 ^ 31 ∧ (act 0 0 0).rd F.TMU_WP_TARGET_TARGET 2 = (act 0 0 0).rd F.TMU_WP_TARGET_TARGET 2) ∧
  ((∀ f ∈ [F.TMU_LATECNT_COUNT, F.TMU_LATEDROP_COUNT], g12bs0.rd f + 2 < 2 ^ 32) ∧ bitOf (g12bs0.rd F.MLS_ERRSEL_SEL) 10 = false ∧ tmuRuns g12bs0 = true
    ∧ g12bs0.rd F.TMU_WP_STAT_STATE 1 = wpPENDING ∧ diff32 (g12bs0.rd F.TMU_WP_TARGET_TARGET 1) (g12bs0.rd F.TMU_TB_NS_NS (g12bs0.rd I.wpTb 1)) ≤ 0 ∧
    noticeDue g12bs0 1 = false ∧ (g12bs0.rd F.TMU_WP_CTL_ACT 1 = 0 ∨ 8 < g12bs0.rd F.TMU_WP_CTL_ACT 1)) ∧
  ((∀ f ∈ [F.TMU_LATECNT_COUNT, F.TMU_LATEDROP_COUNT], (act 1 196613 3).rd f + 2 < 2 ^ 32) ∧ bitOf ((act 1 196613 3).rd F.MLS_ERRSEL_SEL) 10 = false ∧
    tmuRuns (act 1 196613 3) = true ∧ (act 1 196613 3).rd F.TMU_WP_STAT_STATE 1 = wpPENDING ∧ diff32 ((act 1 196613 3).rd F.TMU_WP_TARGET_TARGET 1)
    ((act 1 196613 3).rd F.TMU_TB_NS_NS ((act 1 196613 3).rd I.wpTb 1)) ≤ 0 ∧ noticeDue (act 1 196613 3) 1 = false ∧ (act 1 196613 3).rd
    F.TMU_WP_CTL_ACT 1 = 1) ∧
  ((∀ f ∈ [F.TMU_LATECNT_COUNT, F.TMU_LATEDROP_COUNT], (act 2 0 0).rd f + 2 < 2 ^ 32) ∧ bitOf ((act 2 0 0).rd F.MLS_ERRSEL_SEL) 10 = false ∧ tmuRuns
    (act 2 0 0) = true ∧ (act 2 0 0).rd F.TMU_WP_STAT_STATE 1 = wpPENDING ∧ diff32 ((act 2 0 0).rd F.TMU_WP_TARGET_TARGET 1) ((act 2 0 0).rd
    F.TMU_TB_NS_NS ((act 2 0 0).rd I.wpTb 1)) ≤ 0 ∧ noticeDue (act 2 0 0) 1 = false ∧ (act 2 0 0).rd F.TMU_WP_CTL_ACT 1 = 2) ∧
  ((∀ f ∈ [F.TMU_LATECNT_COUNT, F.TMU_LATEDROP_COUNT], (act 3 0 0).rd f + 2 < 2 ^ 32) ∧ bitOf ((act 3 0 0).rd F.MLS_ERRSEL_SEL) 10 = false ∧ tmuRuns
    (act 3 0 0) = true ∧ (act 3 0 0).rd F.TMU_WP_STAT_STATE 1 = wpPENDING ∧ diff32 ((act 3 0 0).rd F.TMU_WP_TARGET_TARGET 1) ((act 3 0 0).rd
    F.TMU_TB_NS_NS ((act 3 0 0).rd I.wpTb 1)) ≤ 0 ∧ noticeDue (act 3 0 0) 1 = false ∧ (act 3 0 0).rd F.TMU_WP_CTL_ACT 1 = 3) ∧
  ((∀ f ∈ [F.TMU_LATECNT_COUNT, F.TMU_LATEDROP_COUNT], (act 4 17 0).rd f + 2 < 2 ^ 32) ∧ bitOf ((act 4 17 0).rd F.MLS_ERRSEL_SEL) 10 = false ∧ tmuRuns
    (act 4 17 0) = true ∧ (act 4 17 0).rd F.TMU_WP_STAT_STATE 1 = wpPENDING ∧ diff32 ((act 4 17 0).rd F.TMU_WP_TARGET_TARGET 1) ((act 4 17 0).rd
    F.TMU_TB_NS_NS ((act 4 17 0).rd I.wpTb 1)) ≤ 0 ∧ noticeDue (act 4 17 0) 1 = false ∧ (act 4 17 0).rd F.TMU_WP_CTL_ACT 1 = 4 ∧ bitOf ((act 4 17
    0).rd F.TMU_WP_ARG0_ARG 1) 0 = true) ∧
  ((∀ f ∈ [F.TMU_LATECNT_COUNT, F.TMU_LATEDROP_COUNT], (act 4 16 0).rd f + 2 < 2 ^ 32) ∧ bitOf ((act 4 16 0).rd F.MLS_ERRSEL_SEL) 10 = false ∧ tmuRuns
    (act 4 16 0) = true ∧ (act 4 16 0).rd F.TMU_WP_STAT_STATE 1 = wpPENDING ∧ diff32 ((act 4 16 0).rd F.TMU_WP_TARGET_TARGET 1) ((act 4 16 0).rd
    F.TMU_TB_NS_NS ((act 4 16 0).rd I.wpTb 1)) ≤ 0 ∧ noticeDue (act 4 16 0) 1 = false ∧ (act 4 16 0).rd F.TMU_WP_CTL_ACT 1 = 4 ∧ bitOf ((act 4 16
    0).rd F.TMU_WP_ARG0_ARG 1) 0 = false) := by
  refine ⟨?r1, ⟨?h4, ?h5, ?h6, ?h7, ?h8, ?h9, ?r2⟩, ?r3, ⟨?h4, ?h5, ?h6, ?h7, ?h8, ?h9, ?r4⟩, ?r5, ?r6, ?r7, ?r8, ?r9⟩
  all_goals decide +kernel

/-- States and operands that meet the hypotheses of WaypointsArmFireAndGiveNotice, clause by clause: each group in parentheses meets
those of one clause together. -/
theorem test_meets_WaypointsArmFireAndGiveNotice_3 :
  ((∀ f ∈ [F.TMU_LATECNT_COUNT, F.TMU_LATEDROP_COUNT], (act 5 2 9).rd f + 2 < 2 ^ 32) ∧ bitOf ((act 5 2 9).rd F.MLS_ERRSEL_SEL) 10 = false ∧ tmuRuns
    (act 5 2 9) = true ∧ (act 5 2 9).rd F.TMU_WP_STAT_STATE 1 = wpPENDING ∧ diff32 ((act 5 2 9).rd F.TMU_WP_TARGET_TARGET 1) ((act 5 2 9).rd
    F.TMU_TB_NS_NS ((act 5 2 9).rd I.wpTb 1)) ≤ 0 ∧ noticeDue (act 5 2 9) 1 = false ∧ (act 5 2 9).rd F.TMU_WP_CTL_ACT 1 = 5 ∧ stepRefused ((act 5 2
    9).rd F.TMU_WP_ARG0_ARG 1 % 4) ((act 5 2 9).rd F.TMU_WP_ARG1_ARG 1) = true) ∧
  ((∀ f ∈ [F.TMU_LATECNT_COUNT, F.TMU_LATEDROP_COUNT], (act 5 0 9).rd f + 2 < 2 ^ 32) ∧ bitOf ((act 5 0 9).rd F.MLS_ERRSEL_SEL) 10 = false ∧ tmuRuns
    (act 5 0 9) = true ∧ (act 5 0 9).rd F.TMU_WP_STAT_STATE 1 = wpPENDING ∧ diff32 ((act 5 0 9).rd F.TMU_WP_TARGET_TARGET 1) ((act 5 0 9).rd
    F.TMU_TB_NS_NS ((act 5 0 9).rd I.wpTb 1)) ≤ 0 ∧ noticeDue (act 5 0 9) 1 = false ∧ (act 5 0 9).rd F.TMU_WP_CTL_ACT 1 = 5 ∧ stepRefused ((act 5 0
    9).rd F.TMU_WP_ARG0_ARG 1 % 4) ((act 5 0 9).rd F.TMU_WP_ARG1_ARG 1) = false) ∧
  ((∀ f ∈ [F.TMU_LATECNT_COUNT, F.TMU_LATEDROP_COUNT], g12bs3.rd f + 2 < 2 ^ 32) ∧ bitOf (g12bs3.rd F.MLS_ERRSEL_SEL) 10 = false ∧ tmuRuns g12bs3 = true
    ∧ g12bs3.rd F.TMU_WP_STAT_STATE 1 = wpPENDING ∧ diff32 (g12bs3.rd F.TMU_WP_TARGET_TARGET 1) (g12bs3.rd F.TMU_TB_NS_NS (g12bs3.rd I.wpTb 1)) ≤ 0 ∧
    noticeDue g12bs3 1 = false ∧ g12bs3.rd F.TMU_WP_CTL_ACT 1 = 6 ∧ g12bs3.serving = false) ∧
  ((∀ f ∈ [F.TMU_LATECNT_COUNT, F.TMU_LATEDROP_COUNT], (act 6 255 0).rd f + 2 < 2 ^ 32) ∧ bitOf ((act 6 255 0).rd F.MLS_ERRSEL_SEL) 10 = false ∧ tmuRuns
    (act 6 255 0) = true ∧ (act 6 255 0).rd F.TMU_WP_STAT_STATE 1 = wpPENDING ∧ diff32 ((act 6 255 0).rd F.TMU_WP_TARGET_TARGET 1) ((act 6 255 0).rd
    F.TMU_TB_NS_NS ((act 6 255 0).rd I.wpTb 1)) ≤ 0 ∧ noticeDue (act 6 255 0) 1 = false ∧ (act 6 255 0).rd F.TMU_WP_CTL_ACT 1 = 6 ∧ (act 6 255
    0).serving = true) ∧
  ((∀ f ∈ [F.TMU_LATECNT_COUNT, F.TMU_LATEDROP_COUNT], (act 7 3 0).rd f + 2 < 2 ^ 32) ∧ bitOf ((act 7 3 0).rd F.MLS_ERRSEL_SEL) 10 = false ∧ tmuRuns
    (act 7 3 0) = true ∧ (act 7 3 0).rd F.TMU_WP_STAT_STATE 1 = wpPENDING ∧ diff32 ((act 7 3 0).rd F.TMU_WP_TARGET_TARGET 1) ((act 7 3 0).rd
    F.TMU_TB_NS_NS ((act 7 3 0).rd I.wpTb 1)) ≤ 0 ∧ noticeDue (act 7 3 0) 1 = false ∧ (act 7 3 0).rd F.TMU_WP_CTL_ACT 1 = 7) ∧
  ((∀ f ∈ [F.TMU_LATECNT_COUNT, F.TMU_LATEDROP_COUNT], (act 8 0 0).rd f + 2 < 2 ^ 32) ∧ bitOf ((act 8 0 0).rd F.MLS_ERRSEL_SEL) 10 = false ∧ tmuRuns
    (act 8 0 0) = true ∧ (act 8 0 0).rd F.TMU_WP_STAT_STATE 1 = wpPENDING ∧ diff32 ((act 8 0 0).rd F.TMU_WP_TARGET_TARGET 1) ((act 8 0 0).rd
    F.TMU_TB_NS_NS ((act 8 0 0).rd I.wpTb 1)) ≤ 0 ∧ noticeDue (act 8 0 0) 1 = false ∧ (act 8 0 0).rd F.TMU_WP_CTL_ACT 1 = 8 ∧ (act 8 0 0).rd
    F.TMU_WP_ARG0_ARG 1 % 8 < 5 ∧ ioDrives (act 8 0 0) (pulsePin ((act 8 0 0).rd F.TMU_WP_ARG0_ARG 1 % 8)) = true) ∧
  ((∀ f ∈ [F.TMU_LATECNT_COUNT, F.TMU_LATEDROP_COUNT], (act 8 1 0).rd f + 2 < 2 ^ 32) ∧ bitOf ((act 8 1 0).rd F.MLS_ERRSEL_SEL) 10 = false ∧ tmuRuns
    (act 8 1 0) = true ∧ (act 8 1 0).rd F.TMU_WP_STAT_STATE 1 = wpPENDING ∧ diff32 ((act 8 1 0).rd F.TMU_WP_TARGET_TARGET 1) ((act 8 1 0).rd
    F.TMU_TB_NS_NS ((act 8 1 0).rd I.wpTb 1)) ≤ 0 ∧ noticeDue (act 8 1 0) 1 = false ∧ (act 8 1 0).rd F.TMU_WP_CTL_ACT 1 = 8 ∧ (5 ≤ (act 8 1 0).rd
    F.TMU_WP_ARG0_ARG 1 % 8 ∨ ioDrives (act 8 1 0) (pulsePin ((act 8 1 0).rd F.TMU_WP_ARG0_ARG 1 % 8)) = false)) ∧
  ((∀ f ∈ [F.TMU_LATECNT_COUNT, F.TMU_LATEDROP_COUNT], (base mSERVICE).rd f + 2 < 2 ^ 32) ∧ bitOf ((base mSERVICE).rd F.MLS_ERRSEL_SEL) 10 = false ∧
    (tmuRuns (base mSERVICE) = false ∨ (base mSERVICE).rd F.TMU_WP_STAT_STATE 1 ≠ wpHELD ∨ diff32 ((base mSERVICE).rd F.TMU_WP_TARGET_TARGET 1) ((base
    mSERVICE).rd F.TMU_TB_NS_NS ((base mSERVICE).rd I.wpTb 1)) ≤ 0)) ∧
  ((∀ f ∈ [F.TMU_LATECNT_COUNT, F.TMU_LATEDROP_COUNT], g12bs2.rd f + 2 < 2 ^ 32) ∧ bitOf (g12bs2.rd F.MLS_ERRSEL_SEL) 10 = false ∧ tmuRuns g12bs2 = true
    ∧ g12bs2.rd F.TMU_WP_STAT_STATE 1 = wpHELD ∧ 0 < diff32 (g12bs2.rd F.TMU_WP_TARGET_TARGET 1) (g12bs2.rd F.TMU_TB_NS_NS (g12bs2.rd I.wpTb 1))) ∧
  ((∀ f ∈ [F.TMU_LATECNT_COUNT, F.TMU_LATEDROP_COUNT], (base mSERVICE).rd f + 2 < 2 ^ 32) ∧ bitOf ((base mSERVICE).rd F.MLS_ERRSEL_SEL) 10 = false ∧
    (¬(tmuRuns (base mSERVICE) = true ∧ (base mSERVICE).rd F.TMU_WP_STAT_STATE 1 = wpPENDING ∧ (base mSERVICE).rd I.wpLa 1 = 1 ∧ (base mSERVICE).rd
    F.TMU_WP_CTL_ACT 1 = 1 ∧ (base mSERVICE).rd F.TMU_WP_STAT_LADONE 1 = 0 ∧ diff32 ((base mSERVICE).rd F.TMU_WP_TARGET_TARGET 1) ((base mSERVICE).rd
    F.TMU_TB_NS_NS ((base mSERVICE).rd I.wpTb 1)) ≤ ↑(min 1000000 ((base mSERVICE).rd F.TMU_LACFG_LOOKAHEAD))))) := by
  refine ⟨?r1, ?r2, ?r3, ?r4, ?r5, ?r6, ?r7, ⟨?h57, ?h58, ?r8⟩, ?r9, ⟨?h57, ?h58, ?r10⟩⟩
  all_goals decide +kernel

/-- States and operands that meet the hypotheses of WaypointsArmFireAndGiveNotice, clause by clause: each group in parentheses meets
those of one clause together. -/
theorem test_meets_WaypointsArmFireAndGiveNotice_4 :
  ((∀ f ∈ [F.TMU_LATECNT_COUNT, F.TMU_LATEDROP_COUNT], g12bs3.rd f + 2 < 2 ^ 32) ∧ bitOf (g12bs3.rd F.MLS_ERRSEL_SEL) 10 = false ∧ (tmuRuns g12bs3 =
    true ∧ g12bs3.rd F.TMU_WP_STAT_STATE 3 = wpPENDING ∧ g12bs3.rd I.wpLa 3 = 1 ∧ g12bs3.rd F.TMU_WP_CTL_ACT 3 = 1 ∧ g12bs3.rd F.TMU_WP_STAT_LADONE 3
    = 0 ∧ diff32 (g12bs3.rd F.TMU_WP_TARGET_TARGET 3) (g12bs3.rd F.TMU_TB_NS_NS (g12bs3.rd I.wpTb 3)) ≤ ↑(min 1000000 (g12bs3.rd
    F.TMU_LACFG_LOOKAHEAD))) ∧ g12bs3.serving = false) ∧
  ((∀ f ∈ [F.TMU_LATECNT_COUNT, F.TMU_LATEDROP_COUNT], g12bs2.rd f + 2 < 2 ^ 32) ∧ bitOf (g12bs2.rd F.MLS_ERRSEL_SEL) 10 = false ∧ (tmuRuns g12bs2 =
    true ∧ g12bs2.rd F.TMU_WP_STAT_STATE 3 = wpPENDING ∧ g12bs2.rd I.wpLa 3 = 1 ∧ g12bs2.rd F.TMU_WP_CTL_ACT 3 = 1 ∧ g12bs2.rd F.TMU_WP_STAT_LADONE 3
    = 0 ∧ diff32 (g12bs2.rd F.TMU_WP_TARGET_TARGET 3) (g12bs2.rd F.TMU_TB_NS_NS (g12bs2.rd I.wpTb 3)) ≤ ↑(min 1000000 (g12bs2.rd
    F.TMU_LACFG_LOOKAHEAD))) ∧ g12bs2.serving = true) := by
  refine ⟨?r1, ?r2⟩
  all_goals decide +kernel

end Waypoints

namespace Highways

def G (l : List (Fld × Nat × Nat)) : State := puts (base mSERVICE) ([(F.TDX_CTRL_RUN, 0, 1), (F.TDX_CTRL_REFGRP, 0, 0), (F.TDX_CG_CFG_EN, 0, 1), (F.TDX_CG_CFG_EN, 1, 1), (F.TMU_TB_NS_NS, 0, 5000), (F.TMU_TB_NS_NS, 1, 6000), (F.TDX_H_CFG_EN, 0, 1), (F.TDX_H_CFG_EN, 1, 1),(F.TDX_H_CFG_CGRP, 1, 1)] ++ l)
def w1 := 0x80000005 + 0x04000000
def g13s0 : State := G [(F.TDX_CG_CFG_MASTER, 0, 1), (F.TDX_FRAME_FRAME, 0, 15)]
def g13s3 : State := G [(F.TDX_MAP_EN, 5, 1), (F.TDX_MAP_TARGET, 5, 5), (F.TDX_MAP_LAW, 5, 1), (I.tdxForce, 5, w1), (F.TDX_BLKCNT_BLOCK, 0, 7), (F.TDX_FRAME_FRAME, 0, 3)]
def g13s5 : State := G [(F.TDX_CTRL_H110, 0, 1), (F.TDX_CTRL_CLKSEL, 0, 0)]
def g13s7 : State := G [(F.TDX_SWAPCMD_ARM, 0, 1), (I.tdxLate, 0, 1), (F.TDX_MAP_SWAP, 5, 1), (F.TDX_MAP_EN, 5, 0), (F.TDX_MAP_TARGET, 5, 5), (F.TDX_USECNT_CHAN, 0, 1)]
def g13s8 : State := G [(F.TDX_SWAPCMD_ARM, 0, 1), (F.TDX_SWAPT_T, 0, 4000 + 62500), (F.TDX_MAP_SWAP, 5, 1), (F.TDX_MAP_EN, 5, 1), (F.TDX_MAP_EN, 6, 1), (F.TDX_MAP_TARGET, 5, 5), (F.TDX_MAP_TARGET, 6, 7), (F.TDX_USECNT_CHAN, 0, 2)]

/-- States and operands that meet the hypotheses of HighwaysFrameClockMapAndHandOver, clause by clause: each group in parentheses meets
those of one clause together. -/
theorem test_meets_HighwaysFrameClockMapAndHandOver_1 :
  (tdxH110 (base mSERVICE) = false ∧ (base mSERVICE).rd I.clkRet = 0 ∧ (∀ (k : ℕ), (base mSERVICE).rd F.TDX_CNT_COUNT k + 2 < 2 ^ 32) ∧ groupOn (base
    mSERVICE) 0 = false) ∧
  (tdxH110 g13s0 = false ∧ g13s0.rd I.clkRet = 0 ∧ (∀ (k : ℕ), g13s0.rd F.TDX_CNT_COUNT k + 2 < 2 ^ 32) ∧ groupOn g13s0 0 = true ∧ cgMaster g13s0 0 =
    true ∧ PulseKind.absent = PulseKind.absent) ∧
  (tdxH110 (G []) = false ∧ (G []).rd I.clkRet = 0 ∧ (∀ (k : ℕ), (G []).rd F.TDX_CNT_COUNT k + 2 < 2 ^ 32) ∧ groupOn (G []) 0 = true ∧ cgMaster (G []) 0
    = false ∧ PulseKind.absent = PulseKind.absent) ∧
  (tdxH110 (G []) = false ∧ (G []).rd I.clkRet = 0 ∧ (∀ (k : ℕ), (G []).rd F.TDX_CNT_COUNT k + 2 < 2 ^ 32) ∧ groupOn (G []) 0 = true ∧ (G []).rd
    F.TDX_CG_STAT_LOSS = 0 ∧ mapBare (G []) ∧ (0 = (G []).rd F.TDX_CTRL_REFGRP → (G []).rd F.TDX_SWAPCMD_ARM = 0 ∧ (∀ (j : ℕ), (G []).rd I.tdxFill j =
    0) ∧ (G []).rd F.CWY_CTRL_RUN = 0) ∧ (PulseKind.onTime = PulseKind.onTime ∨ cgMaster (G []) 0 = true ∧ PulseKind.onTime = PulseKind.elsewhere)) ∧
  (tdxH110 (G []) = false ∧ (G []).rd I.clkRet = 0 ∧ (∀ (k : ℕ), (G []).rd F.TDX_CNT_COUNT k + 2 < 2 ^ 32) ∧ groupOn (G []) 0 = true ∧ (G []).rd
    F.TDX_CG_STAT_LOSS = 0 ∧ mapBare (G []) ∧ (0 = (G []).rd F.TDX_CTRL_REFGRP → (G []).rd F.TDX_SWAPCMD_ARM = 0 ∧ (∀ (j : ℕ), (G []).rd I.tdxFill j =
    0) ∧ (G []).rd F.CWY_CTRL_RUN = 0) ∧ cgMaster (G []) 0 = false ∧ PulseKind.elsewhere = PulseKind.elsewhere) ∧
  (tdxH110 g13s3 = false ∧ g13s3.rd I.clkRet = 0 ∧ (∀ (k : ℕ), g13s3.rd F.TDX_CNT_COUNT k + 2 < 2 ^ 32) ∧ groupOn g13s3 0 = true ∧ g13s3.rd
    F.TDX_CG_STAT_LOSS = 0 ∧ PulseKind.onTime = PulseKind.onTime ∧ oneTimeslot g13s3 0 5 w1 ∧ eDriven w1 = false ∧ eUse w1 = 0 ∧ eWb w1 = false ∧
    bitOf w1 24 = false ∧ bitOf w1 31 = true ∧ g13s3.rd F.TDX_FRAME_FRAME < 15) ∧
  (tdxH110 (base mSERVICE) = false ∧ (base mSERVICE).rd I.clkRet = 0 ∧ (∀ (k : ℕ), (base mSERVICE).rd F.TDX_CNT_COUNT k + 2 < 2 ^ 32) ∧ (base
    mSERVICE).rd F.TDX_FRAME_FRAME ≠ 15) ∧
  (tdxH110 g13s0 = false ∧ g13s0.rd I.clkRet = 0 ∧ (∀ (k : ℕ), g13s0.rd F.TDX_CNT_COUNT k + 2 < 2 ^ 32) ∧ g13s0.rd F.TDX_FRAME_FRAME = 15 ∧ groupOn
    g13s0 (g13s0.rd F.TDX_CTRL_REFGRP) = true ∧ g13s0.rd F.TDX_CG_STAT_LOSS (g13s0.rd F.TDX_CTRL_REFGRP) = 0 ∧ mapBare g13s0 ∧ (g13s0.rd
    F.TDX_SWAPCMD_ARM = 0 ∧ (∀ (j : ℕ), g13s0.rd I.tdxFill j = 0) ∧ g13s0.rd F.CWY_CTRL_RUN = 0)) ∧
  (tdxH110 (base mSERVICE) = false ∧ (base mSERVICE).rd I.clkRet = 0 ∧ (∀ (k : ℕ), (base mSERVICE).rd F.TDX_CNT_COUNT k + 2 < 2 ^ 32) ∧ (¬(groupOn (base
    mSERVICE) 0 = true ∧ cgMaster (base mSERVICE) 0 = false))) ∧
  (tdxH110 (G []) = false ∧ (G []).rd I.clkRet = 0 ∧ (∀ (k : ℕ), (G []).rd F.TDX_CNT_COUNT k + 2 < 2 ^ 32) ∧ (groupOn (G []) 0 = true ∧ cgMaster (G [])
    0 = false)) ∧
  (tdxH110 (base mSERVICE) = false ∧ (base mSERVICE).rd I.clkRet = 0 ∧ (∀ (k : ℕ), (base mSERVICE).rd F.TDX_CNT_COUNT k + 2 < 2 ^ 32) ∧ (¬(groupOn (base
    mSERVICE) 0 = true ∧ 0 ≠ (base mSERVICE).rd F.TDX_CTRL_REFGRP))) := by
  refine ⟨⟨?h1, ?h2, ?h3, ?r1⟩, ⟨?h5, ?h6, ?h7, ?r2⟩, ⟨?h11, ?h12, ?h13, ?h14, ?h15, ?h10⟩, ⟨?h11, ?h12, ?h13, ?h14, ?h16, ?h17, ?h18, ?r3⟩, ⟨?h11,
    ?h12, ?h13, ?h14, ?h16, ?h17, ?h18, ?h15, ?r4⟩, ?r5, ⟨?h1, ?h2, ?h3, ?r6⟩, ⟨?h5, ?h6, ?h7, ?r7⟩, ⟨?h1, ?h2, ?h3, ?r8⟩, ⟨?h11, ?h12, ?h13, ?r9⟩,
    ⟨?h1, ?h2, ?h3, ?r10⟩⟩
  all_goals try unfold mapBare
  all_goals try unfold oneTimeslot
  all_goals try decide +kernel
  all_goals repeat' apply And.intro
  all_goals first
    | decide +kernel
    | exact every_value _ _ (fun v => v + 2 < 2 ^ 32) (by decide +kernel)
    | exact every_value _ _ (fun v => v = 0) (by decide +kernel)
    | (intro _; exact ⟨by decide +kernel, every_value _ _ (fun v => v = 0) (by decide +kernel), by decide +kernel⟩)

/-- States and operands that meet the hypotheses of HighwaysFrameClockMapAndHandOver, clause by clause: each group in parentheses meets
those of one clause together. -/
theorem test_meets_HighwaysFrameClockMapAndHandOver_2 :
  (tdxH110 (G []) = false ∧ (G []).rd I.clkRet = 0 ∧ (∀ (k : ℕ), (G []).rd F.TDX_CNT_COUNT k + 2 < 2 ^ 32) ∧ (groupOn (G []) 1 = true ∧ 1 ≠ (G []).rd
    F.TDX_CTRL_REFGRP) ∧ (G []).nonzero I.tdxForce = []) ∧
  ((∀ (k : ℕ), (base mSERVICE).rd F.TDX_CNT_COUNT k + 2 < 2 ^ 32) ∧ (base mSERVICE).fabric = true ∧ eBinds 2952790016 = true ∧ mapRefused (base
    mSERVICE) 5 2952790016 = true) ∧
  ((∀ (k : ℕ), (base mSERVICE).rd F.TDX_CNT_COUNT k + 2 < 2 ^ 32) ∧ (base mSERVICE).fabric = true ∧ (eBinds 0 = false ∨ mapRefused (base mSERVICE) 5 0 =
    false)) ∧
  ((∀ (k : ℕ), (base mSERVICE).rd F.TDX_CNT_COUNT k + 2 < 2 ^ 32) ∧ (¬((base mSERVICE).fabric = true ∧ (base mSERVICE).rd F.TDX_CTRL_RUN = 1 ∧ tdxH110
    (base mSERVICE) = true ∧ (base mSERVICE).rd F.TDX_CTRL_CLKSEL = 0 ∧ cgMaster (base mSERVICE) 0 = false))) ∧
  ((∀ (k : ℕ), g13s5.rd F.TDX_CNT_COUNT k + 2 < 2 ^ 32) ∧ (g13s5.fabric = true ∧ g13s5.rd F.TDX_CTRL_RUN = 1 ∧ tdxH110 g13s5 = true ∧ g13s5.rd
    F.TDX_CTRL_CLKSEL = 0 ∧ cgMaster g13s5 0 = false)) ∧
  ((∀ (k : ℕ), (base mSERVICE).rd F.TDX_CNT_COUNT k + 2 < 2 ^ 32) ∧ handoverDue (base mSERVICE) = false) ∧
  ((∀ (k : ℕ), g13s7.rd F.TDX_CNT_COUNT k + 2 < 2 ^ 32) ∧ handoverDue g13s7 = true ∧ tdxH110 g13s7 = false ∧ groupOn g13s7 (g13s7.rd F.TDX_CTRL_REFGRP)
    = true ∧ g13s7.rd F.TDX_FRAME_FRAME < 15 ∧ g13s7.rd I.tdxLate = 1) ∧
  ((∀ (k : ℕ), g13s7.rd F.TDX_CNT_COUNT k + 2 < 2 ^ 32) ∧ handoverDue g13s7 = true ∧ tdxH110 g13s7 = false ∧ groupOn g13s7 (g13s7.rd F.TDX_CTRL_REFGRP)
    = true ∧ g13s7.rd F.TDX_FRAME_FRAME < 15 ∧ g13s7.rd F.TDX_MAP_SWAP = 0) ∧
  ((∀ (k : ℕ), g13s8.rd F.TDX_CNT_COUNT k + 2 < 2 ^ 32) ∧ handoverDue g13s8 = true ∧ tdxH110 g13s8 = false ∧ groupOn g13s8 (g13s8.rd F.TDX_CTRL_REFGRP)
    = true ∧ g13s8.rd F.TDX_FRAME_FRAME < 15 ∧ g13s8.rd F.TDX_MAP_SWAP 5 = 1 ∧ g13s8.rd F.TDX_MAP_EN 5 = 1) ∧
  ((∀ (k : ℕ), g13s7.rd F.TDX_CNT_COUNT k + 2 < 2 ^ 32) ∧ handoverDue g13s7 = true ∧ tdxH110 g13s7 = false ∧ groupOn g13s7 (g13s7.rd F.TDX_CTRL_REFGRP)
    = true ∧ g13s7.rd F.TDX_FRAME_FRAME < 15 ∧ mapPlaces g13s7 = [5] ∧ g13s7.rd F.TDX_MAP_SWAP 5 = 1 ∧ g13s7.rd F.TDX_MAP_EN 5 = 0 ∧ mapRefused g13s7
    5 (tdxMapWord g13s7 5 + 2 ^ 31 - 2 ^ 24) = false) := by
  refine ⟨?r1, ⟨?h6, ?h7, ?r2⟩, ⟨?h6, ?h7, ?r3⟩, ⟨?h6, ?r4⟩, ?r5, ⟨?h6, ?r6⟩, ⟨?h15, ?h16, ?h17, ?h18, ?h19, ?r7⟩, ⟨?h15, ?h16, ?h17, ?h18, ?h19, ?r8⟩,
    ?r9, ⟨?h15, ?h16, ?h17, ?h18, ?h19, ?r10⟩⟩
  all_goals try decide +kernel
  all_goals repeat' apply And.intro
  all_goals first
    | decide +kernel
    | exact every_value _ _ (fun v => v + 2 < 2 ^ 32) (by decide +kernel)

end Highways

namespace Health

def Hm (m : Nat) (l : List (Fld × Nat × Nat)) : State := puts (base m) ([(F.HMN_CTRL_EN, 0, 1), (I.hmMode, 0, 1), (I.hmNow, 0, 100000), (F.HMN_SELECT_INDEX, 4, 1), (F.HMN_SELECT_INDEX, 0, 5)] ++ l)
def g14s1 : State := Hm mSERVICE [(F.HMN_CTRL_DDSSYNC, 0, 1), (I.hmSw, 0, 2), (I.hmNext, 0, 3)]
def g14s2 : State := Hm mSERVICE [(F.HMN_SLC_MUX_SCAN, 0, 1), (F.HMN_SLC_MUX_INMASK, 0, 10), (I.hmDwell, 0, 9), (F.HMN_SLC_MUX_DWELL, 0, 9), (I.hmSw, 1, 2)]
def g14s5 : State := Hm mSERVICE [(I.hmRst, 0, 99999), (F.HMN_SLC_CCFG_OVEN, 1, 1), (F.HMN_SLC_CCFG_UNEN, 1, 1), (F.HMN_SLC_COARSE_COVER, 1, 0x10), (F.HMN_SLC_COARSE_CUNDER, 1, 0xFFF0), (F.HMN_SLC_CCFG_OVACT, 1, 1)]
def g14s7 : State := Hm mSERVICE [(F.HMN_SLC_DEM_DEMEN, 0, 1), (I.hmWin, 0, 50000), (F.HMN_SLC_DEM_DEMEN, 1, 1), (I.hmChg, 0, 99999)]

/-- States and operands that meet the hypotheses of HealthMonitorSlicesAndOutputs, clause by clause: each group in parentheses meets
those of one clause together. -/
theorem test_meets_HealthMonitorSlicesAndOutputs_1 :
  (hmRate (base mRESET) = (base mRESET).rd I.hmMode ∧ (∀ d < 2, hmExcites (base mRESET) d = (base mRESET).on I.hmExc d) ∧ bitOf ((base mRESET).rd
    I.throtSrc) 2 = hmThrottles (base mRESET) ∧ (base mRESET).mode ≠ mWATCH ∧ (base mRESET).fabric = false) ∧
  (hmRate (base mSERVICE) = (base mSERVICE).rd I.hmMode ∧ (∀ d < 2, hmExcites (base mSERVICE) d = (base mSERVICE).on I.hmExc d) ∧ bitOf ((base
    mSERVICE).rd I.throtSrc) 2 = hmThrottles (base mSERVICE) ∧ (base mSERVICE).mode ≠ mWATCH ∧ (base mSERVICE).fabric = true ∧ selIx (base mSERVICE)
    (Init.sgc 3) F.HMN_SELECT_INDEX 16 = none) ∧
  (hmRate (base mSERVICE) = (base mSERVICE).rd I.hmMode ∧ (∀ d < 2, hmExcites (base mSERVICE) d = (base mSERVICE).on I.hmExc d) ∧ bitOf ((base
    mSERVICE).rd I.throtSrc) 2 = hmThrottles (base mSERVICE) ∧ (base mSERVICE).mode ≠ mWATCH ∧ (base mSERVICE).fabric = true ∧ selIx (base mSERVICE)
    (Init.svc 0) F.HMN_SELECT_INDEX 16 = some 0 ∧ (hmInput (base mSERVICE) (0 / 4) ≠ 0 ∨ (base mSERVICE).rd I.hmSw (0 / 4) ≠ 0 ∨ bits 0 26 24 = (base
    mSERVICE).rd I.hmG (0 / 4))) ∧
  (hmRate (base mSERVICE) = (base mSERVICE).rd I.hmMode ∧ (∀ d < 2, hmExcites (base mSERVICE) d = (base mSERVICE).on I.hmExc d) ∧ bitOf ((base
    mSERVICE).rd I.throtSrc) 2 = hmThrottles (base mSERVICE) ∧ (base mSERVICE).mode ≠ mWATCH ∧ (base mSERVICE).fabric = true ∧ selIx (base mSERVICE)
    (Init.svc 0) F.HMN_SELECT_INDEX 16 = some 0 ∧ (¬(hmInput (base mSERVICE) (0 / 4) ≠ 0 ∨ (base mSERVICE).rd I.hmSw (0 / 4) ≠ 0 ∨ bits 2399141891 26
    24 = (base mSERVICE).rd I.hmG (0 / 4)))) ∧
  (hmRate (base mSERVICE) = (base mSERVICE).rd I.hmMode ∧ (∀ d < 2, hmExcites (base mSERVICE) d = (base mSERVICE).on I.hmExc d) ∧ bitOf ((base
    mSERVICE).rd I.throtSrc) 2 = hmThrottles (base mSERVICE) ∧ (base mSERVICE).mode ≠ mWATCH ∧ (¬(base mSERVICE).rd I.hmMode ≠ 0)) ∧
  (hmRate (Hm mSERVICE []) = (Hm mSERVICE []).rd I.hmMode ∧ (∀ d < 2, hmExcites (Hm mSERVICE []) d = (Hm mSERVICE []).on I.hmExc d) ∧ bitOf ((Hm
    mSERVICE []).rd I.throtSrc) 2 = hmThrottles (Hm mSERVICE []) ∧ (Hm mSERVICE []).mode ≠ mWATCH ∧ (Hm mSERVICE []).rd I.hmMode ≠ 0 ∧ (¬(hmScans (Hm
    mSERVICE []) 0 = true ∧ (Hm mSERVICE []).rd I.hmSw = 0 ∧ max 1 ((Hm mSERVICE []).rd F.HMN_SLC_MUX_DWELL) ≤ (Hm mSERVICE []).rd I.hmDwell))) ∧
  (hmRate g14s2 = g14s2.rd I.hmMode ∧ (∀ d < 2, hmExcites g14s2 d = g14s2.on I.hmExc d) ∧ bitOf (g14s2.rd I.throtSrc) 2 = hmThrottles g14s2 ∧ g14s2.mode
    ≠ mWATCH ∧ g14s2.rd I.hmMode ≠ 0 ∧ (hmScans g14s2 0 = true ∧ g14s2.rd I.hmSw = 0 ∧ max 1 (g14s2.rd F.HMN_SLC_MUX_DWELL) ≤ g14s2.rd I.hmDwell)) ∧
  (hmRate (base mSERVICE) = (base mSERVICE).rd I.hmMode ∧ (∀ d < 2, hmExcites (base mSERVICE) d = (base mSERVICE).on I.hmExc d) ∧ bitOf ((base
    mSERVICE).rd I.throtSrc) 2 = hmThrottles (base mSERVICE) ∧ (base mSERVICE).mode ≠ mWATCH ∧ (base mSERVICE).rd I.hmSw = 0) ∧
  (hmRate g14s1 = g14s1.rd I.hmMode ∧ (∀ d < 2, hmExcites g14s1 d = g14s1.on I.hmExc d) ∧ bitOf (g14s1.rd I.throtSrc) 2 = hmThrottles g14s1 ∧ g14s1.mode
    ≠ mWATCH ∧ g14s1.rd I.hmMode ≠ 0 ∧ g14s1.rd I.hmSw ≠ 0) ∧
  (hmRate g14s5 = g14s5.rd I.hmMode ∧ (∀ d < 2, hmExcites g14s5 d = g14s5.on I.hmExc d) ∧ bitOf (g14s5.rd I.throtSrc) 2 = hmThrottles g14s5 ∧ g14s5.mode
    ≠ mWATCH ∧ g14s5.rd I.hmMode ≠ 0 ∧ g14s5.rd I.hmSw = 0 ∧ hmFilling g14s5 0 = true) ∧
  (hmRate g14s7 = g14s7.rd I.hmMode ∧ (∀ d < 2, hmExcites g14s7 d = g14s7.on I.hmExc d) ∧ bitOf (g14s7.rd I.throtSrc) 2 = hmThrottles g14s7 ∧ g14s7.mode
    ≠ mWATCH ∧ g14s7.rd I.hmMode ≠ 0 ∧ g14s7.rd I.hmSw = 0 ∧ hmFilling g14s7 0 = false ∧ (¬(hmUnsettled g14s7 0 = false ∧ hmRangex g14s7 0 = false ∧
    hmChopRip g14s7 0 = false))) := by
  refine ⟨?r1, ⟨?h6, ?h7, ?h8, ?h9, ?h10, ?r2⟩, ⟨?h6, ?h7, ?h8, ?h9, ?h10, ?h12, ?r3⟩, ⟨?h6, ?h7, ?h8, ?h9, ?h10, ?h12, ?r4⟩, ⟨?h6, ?h7, ?h8, ?h9, ?r5⟩,
    ?r6, ?r7, ⟨?h6, ?h7, ?h8, ?h9, ?r8⟩, ?r9, ?r10, ?r11⟩
  all_goals decide +kernel

/-- States and operands that meet the hypotheses of HealthMonitorSlicesAndOutputs, clause by clause: each group in parentheses meets
those of one clause together. -/
theorem test_meets_HealthMonitorSlicesAndOutputs_2 :
  (hmRate (Hm mSERVICE []) = (Hm mSERVICE []).rd I.hmMode ∧ (∀ d < 2, hmExcites (Hm mSERVICE []) d = (Hm mSERVICE []).on I.hmExc d) ∧ bitOf ((Hm
    mSERVICE []).rd I.throtSrc) 2 = hmThrottles (Hm mSERVICE []) ∧ (Hm mSERVICE []).mode ≠ mWATCH ∧ (Hm mSERVICE []).rd I.hmMode ≠ 0 ∧ (Hm mSERVICE
    []).rd I.hmSw = 0 ∧ hmFilling (Hm mSERVICE []) 0 = false ∧ (hmUnsettled (Hm mSERVICE []) 0 = false ∧ hmRangex (Hm mSERVICE []) 0 = false ∧
    hmChopRip (Hm mSERVICE []) 0 = false) ∧ (Hm mSERVICE []).rd F.HMN_SNS_THRCFG_ACTHI (hmInput (Hm mSERVICE []) 0) ≤ 1 ∧ (Hm mSERVICE []).rd
    F.HMN_SNS_THRCFG_ACTLO (hmInput (Hm mSERVICE []) 0) ≤ 1) ∧
  (hmRate (base mSERVICE) = (base mSERVICE).rd I.hmMode ∧ (∀ d < 2, hmExcites (base mSERVICE) d = (base mSERVICE).on I.hmExc d) ∧ bitOf ((base
    mSERVICE).rd I.throtSrc) 2 = hmThrottles (base mSERVICE) ∧ (base mSERVICE).mode ≠ mWATCH ∧ ((base mSERVICE).rd I.hmMode ≠ 1 ∨ (base mSERVICE).rd
    I.hmSw ≠ 0)) ∧
  (hmRate g14s5 = g14s5.rd I.hmMode ∧ (∀ d < 2, hmExcites g14s5 d = g14s5.on I.hmExc d) ∧ bitOf (g14s5.rd I.throtSrc) 2 = hmThrottles g14s5 ∧ g14s5.mode
    ≠ mWATCH ∧ g14s5.rd I.hmMode = 1 ∧ g14s5.rd I.hmSw = 0 ∧ coarseActs g14s5 0 = false) ∧
  (hmRate (Hm mSERVICE []) = (Hm mSERVICE []).rd I.hmMode ∧ (∀ d < 2, hmExcites (Hm mSERVICE []) d = (Hm mSERVICE []).on I.hmExc d) ∧ bitOf ((Hm
    mSERVICE []).rd I.throtSrc) 2 = hmThrottles (Hm mSERVICE []) ∧ (Hm mSERVICE []).mode ≠ mWATCH ∧ (Hm mSERVICE []).rd I.hmMode = 1 ∧ (Hm mSERVICE
    []).rd I.hmSw = 0 ∧ coarseActs (Hm mSERVICE []) 0 = true ∧ (Hm mSERVICE []).rd F.HMN_SLC_CCFG_OVACT ≤ 1 ∧ (Hm mSERVICE []).rd F.HMN_SLC_CCFG_UNACT
    ≤ 1) ∧
  (hmRate (base mSERVICE) = (base mSERVICE).rd I.hmMode ∧ (∀ d < 2, hmExcites (base mSERVICE) d = (base mSERVICE).on I.hmExc d) ∧ bitOf ((base
    mSERVICE).rd I.throtSrc) 2 = hmThrottles (base mSERVICE) ∧ (base mSERVICE).mode ≠ mWATCH ∧ hmDemods (base mSERVICE) 0 = false) ∧
  (hmRate g14s7 = g14s7.rd I.hmMode ∧ (∀ d < 2, hmExcites g14s7 d = g14s7.on I.hmExc d) ∧ bitOf (g14s7.rd I.throtSrc) 2 = hmThrottles g14s7 ∧ g14s7.mode
    ≠ mWATCH ∧ g14s7.rd I.hmMode ≠ 0 ∧ hmDemods g14s7 0 = true) := by
  refine ⟨⟨?h1, ?h2, ?h3, ?h4, ?r1⟩, ⟨?h11, ?h12, ?h13, ?h14, ?r2⟩, ?r3, ⟨?h1, ?h2, ?h3, ?h4, ?r4⟩, ⟨?h11, ?h12, ?h13, ?h14, ?r5⟩, ?r6⟩
  all_goals decide +kernel

end Health

namespace Milestones

def ml (l : List (Fld × Nat × Nat)) : State := puts (base mSERVICE) ([(F.MLS_SRCEN_SRCEN, 0, 31), (F.HMN_SNS_DATA_WORD, 3, 77), (F.TMU_TB_NS_NS, 1, 88), (F.PKE_P_CNT_COUNT, 5, 6), (F.PKE_P_CNT_COUNT, 12, 7)] ++ l)
def lv (n : Nat) : List (Fld × Nat × Nat) := [(F.FUS_STAT_LOADED, 0, 1), (F.FUS_SHADOW_WORD, 48, n * 16)]
def m2 : State := puts (sg 0) (lv 0 ++ [(F.MLS_DBG_HALTED_LO_CORES, 0, 1), (F.MLS_DBG_HALT_LO_CORES, 0, 1), (F.MLS_DBG_REGSEL_CORE, 0, 0), (F.MLS_DBG_REGSEL_OFS, 0, 3), (I.romSt, 0, 3)])
def g15s1 : State := ml [(F.MLS_STAT_ARMED, 0, 0), (F.MLS_MISSCNT_COUNT, 0, 2 ^ 32 - 2), (F.FUS_PMMISC_RMLS, 0, 1), (F.MLS_SRCEN_MLINPOL, 0, 1)]
def g15s2 : State := ml [(F.MLS_STAT_ARMED, 0, 1), (F.FUS_PMMISC_RMLS, 0, 1)]
def g15s3 : State := ml [(I.mlsLatch, 0, 1), (F.MLS_TRCCFG_HOLDEN, 0, 1), (F.MLS_TRCCFG_POSTCNT, 0, 4), (F.MLS_OUTCFG_EN, 0, 1)]
def g15s4 : State := ml [(I.mlsPost, 0, 1)]
def g15s5 : State := puts (base mSERVICE) (lv 1 ++ [(I.dbgIr, 0, 0x10)])
def g15s6 : State := puts (base mSERVICE) (lv 1 ++ [(I.dbgIr, 0, 0x11), (I.dbgChal, 0, 1)])
def g15s7 : State := puts (base mSERVICE) (lv 1 ++ [(I.dbgIr, 0, 0x20)])
def g15s8 : State := { puts (base mSERVICE) (lv 0 ++ [(I.dbgIr, 0, 0x20), (F.FUS_PMDBG_RIGHTS, 0, 0xFFFFF)]) with mem := [(0x10000001, 5)] }
def g15s9 : State := puts m2 [(F.MLS_DBG_HALTED_SVC_CORES, 0, 2), (F.MLS_DBG_REGSEL_CORE, 0, 0x41), (F.MLS_DBG_REGSEL_OFS, 0, 3)]
def g15s10 : State := puts m2 [(F.MLS_DBG_HALTED_SVC_CORES, 0, 2), (F.MLS_DBG_REGSEL_CORE, 0, 0x41), (F.MLS_DBG_REGSEL_OFS, 0, 0x71)]
def g15s11 : State := puts m2 [(F.MLS_DBG_HALTED_SVC_CORES, 0, 2), (F.MLS_DBG_REGSEL_CORE, 0, 0x41), (F.MLS_DBG_REGSEL_OFS, 0, 0x68)]

/-- States and operands that meet the hypotheses of MilestonesAreTakenOrMissed, clause by clause: each group in parentheses meets
those of one clause together. -/
theorem test_meets_MilestonesAreTakenOrMissed :
  ((base mRESET).fabric = false) ∧
  ((base mSERVICE).fabric = true ∧ Nat.land 0 ((base mSERVICE).rd F.MLS_SRCEN_SRCEN) = 0) ∧
  ((base mSERVICE).fabric = true ∧ (if true = true then 1 else 0) ≠ (base mSERVICE).rd F.MLS_SRCEN_MLINPOL) ∧
  ((base mSERVICE).fabric = true ∧ (if false = true then 1 else 0) = (base mSERVICE).rd F.MLS_SRCEN_MLINPOL ∧ Nat.land 1 ((base mSERVICE).rd
    F.MLS_SRCEN_SRCEN) = 0) ∧
  ((ml []).fabric = true ∧ (if false = true then 1 else 0) = (ml []).rd F.MLS_SRCEN_MLINPOL ∧ Nat.land 1 ((ml []).rd F.MLS_SRCEN_SRCEN) ≠ 0 ∧ (ml []).rd
    F.MLS_STAT_ARMED = 1) ∧
  (g15s1.fabric = true ∧ (if true = true then 1 else 0) = g15s1.rd F.MLS_SRCEN_MLINPOL ∧ Nat.land 1 (g15s1.rd F.MLS_SRCEN_SRCEN) ≠ 0 ∧ g15s1.rd
    F.MLS_STAT_ARMED = 0) ∧
  ((base mSERVICE).fabric = true ∧ bitOf 0 0 = false) ∧
  ((base mSERVICE).fabric = true ∧ bitOf 1 0 = true ∧ Nat.land 4 ((base mSERVICE).rd F.MLS_SRCEN_SRCEN) = 0) ∧
  ((ml []).fabric = true ∧ bitOf 1 0 = true ∧ Nat.land 4 ((ml []).rd F.MLS_SRCEN_SRCEN) ≠ 0 ∧ (ml []).rd F.MLS_STAT_ARMED = 1) ∧
  (g15s1.fabric = true ∧ bitOf 1 0 = true ∧ Nat.land 4 (g15s1.rd F.MLS_SRCEN_SRCEN) ≠ 0 ∧ g15s1.rd F.MLS_STAT_ARMED = 0) ∧
  ((base mSERVICE).fabric = true ∧ (base mSERVICE).rd F.FUS_PMMISC_RMLS = 0) ∧
  (g15s2.fabric = true ∧ g15s2.rd F.FUS_PMMISC_RMLS = 1 ∧ Nat.land 16 (g15s2.rd F.MLS_SRCEN_SRCEN) ≠ 0 ∧ g15s2.rd F.MLS_STAT_ARMED = 1) ∧
  (g15s1.fabric = true ∧ g15s1.rd F.FUS_PMMISC_RMLS = 1 ∧ Nat.land 16 (g15s1.rd F.MLS_SRCEN_SRCEN) ≠ 0 ∧ g15s1.rd F.MLS_STAT_ARMED = 0) ∧
  ((base mSERVICE).fabric = true ∧ (base mSERVICE).rd I.mlsLatch = 0) ∧
  (g15s3.fabric = true ∧ g15s3.rd I.mlsLatch = 1 ∧ (∀ k < 8, g15s3.rd F.MLS_CWDEV_VALID k = 0) ∧ g15s3.rd I.fencePend = 0 ∧ 0 < 16) ∧
  (g15s3.fabric = true ∧ g15s3.rd I.mlsLatch = 1 ∧ (∀ k < 8, g15s3.rd F.MLS_CWDEV_VALID k = 0) ∧ g15s3.rd I.fencePend = 0 ∧ 0 < 4) ∧
  (g15s3.fabric = true ∧ g15s3.rd I.mlsLatch = 1 ∧ (∀ k < 8, g15s3.rd F.MLS_CWDEV_VALID k = 0) ∧ g15s3.rd I.fencePend = 0 ∧ 0 < 8) ∧
  ((base mSERVICE).rd I.mlsPost ≠ 1) ∧
  (g15s4.rd I.mlsPost = 1) := by
  refine ⟨?r1, ⟨?h2, ?r2⟩, ⟨?h2, ?r3⟩, ⟨?h2, ?r4⟩, ⟨?h7, ?r5⟩, ⟨?h11, ?r6⟩, ⟨?h2, ?r7⟩, ⟨?h2, ?h16, ?r8⟩, ⟨?h7, ?h16, ?r9⟩, ⟨?h11, ?h16, ?r10⟩, ⟨?h2,
    ?r11⟩, ?r12, ⟨?h11, ?r13⟩, ⟨?h2, ?r14⟩, ⟨?h28, ?h29, ?h30, ?h31, ?r15⟩, ⟨?h28, ?h29, ?h30, ?h31, ?r16⟩, ⟨?h28, ?h29, ?h30, ?h31, ?r17⟩, ?r18,
    ?r19⟩
  all_goals decide +kernel

/-- States and operands that meet the hypotheses of DebugPortUnlocksHaltsAndAccesses, clause by clause: each group in parentheses meets
those of one clause together. -/
theorem test_meets_DebugPortUnlocksHaltsAndAccesses :
  ((¬((base mSERVICE).serving = true ∧ 32 ∈ [3, 4, 5]))) ∧
  (((base mSERVICE).serving = true ∧ 3 ∈ [3, 4, 5])) ∧
  ((debugLevel (base mSERVICE) ≠ 1 ∨ (base mSERVICE).rd I.dbgIr ≠ 16)) ∧
  (debugLevel g15s5 = 1 ∧ g15s5.rd I.dbgIr = 16) ∧
  ((¬(debugLevel (base mSERVICE) = 1 ∧ (base mSERVICE).rd I.dbgIr = 17 ∧ (base mSERVICE).rd I.dbgFails < 3))) ∧
  ((debugLevel g15s6 = 1 ∧ g15s6.rd I.dbgIr = 17 ∧ g15s6.rd I.dbgFails < 3) ∧ responseOk g15s6 0 [] [] = false) ∧
  (((base mSERVICE).rd I.dbgIr ≠ 32 ∨ (base mSERVICE).fabric = false)) ∧
  (g15s7.rd I.dbgIr = 32 ∧ g15s7.fabric = true ∧ dbgAvail g15s7 = false) ∧
  (g15s8.rd I.dbgIr = 32 ∧ g15s8.fabric = true ∧ dbgAvail g15s8 = true ∧ (0 = 0 ∨ 0 = 3)) ∧
  (g15s8.rd I.dbgIr = 32 ∧ g15s8.fabric = true ∧ dbgAvail g15s8 = true ∧ 2 = 2) ∧
  (g15s8.rd I.dbgIr = 32 ∧ g15s8.fabric = true ∧ dbgAvail g15s8 = true ∧ 1 = 1) ∧
  ((base mSERVICE).fabric = true ∧ Init.svc 0 ≠ Init.dbg) ∧
  (m2.fabric = true ∧ (bitOf 2147483648 31 = true ∧ bits 2147483648 6 0 ≤ 67 ∧ halted m2 (bits 2147483648 6 0) = true ∧ coreLive m2 (bits 2147483648 6
    0) = true)) ∧
  ((base mSERVICE).fabric = true ∧ (¬(bitOf 0 31 = true ∧ bits 0 6 0 ≤ 67 ∧ halted (base mSERVICE) (bits 0 6 0) = true ∧ coreLive (base mSERVICE) (bits
    0 6 0) = true))) ∧
  ((base mSERVICE).fabric = true ∧ (67 < (base mSERVICE).rd F.MLS_DBG_REGSEL_CORE ∨ halted (base mSERVICE) ((base mSERVICE).rd F.MLS_DBG_REGSEL_CORE) =
    false)) ∧
  (m2.fabric = true ∧ m2.rd F.MLS_DBG_REGSEL_CORE < 64 ∧ halted m2 (m2.rd F.MLS_DBG_REGSEL_CORE) = true) ∧
  (g15s9.fabric = true ∧ 64 ≤ g15s9.rd F.MLS_DBG_REGSEL_CORE ∧ g15s9.rd F.MLS_DBG_REGSEL_CORE ≤ 67 ∧ halted g15s9 (g15s9.rd F.MLS_DBG_REGSEL_CORE) =
    true ∧ 4 * g15s9.rd F.MLS_DBG_REGSEL_OFS < 416) ∧
  (g15s10.fabric = true ∧ 64 ≤ g15s10.rd F.MLS_DBG_REGSEL_CORE ∧ g15s10.rd F.MLS_DBG_REGSEL_CORE ≤ 67 ∧ halted g15s10 (g15s10.rd F.MLS_DBG_REGSEL_CORE)
    = true ∧ 448 < 4 * g15s10.rd F.MLS_DBG_REGSEL_OFS) ∧
  (g15s11.fabric = true ∧ 64 ≤ g15s11.rd F.MLS_DBG_REGSEL_CORE ∧ g15s11.rd F.MLS_DBG_REGSEL_CORE ≤ 67 ∧ halted g15s11 (g15s11.rd F.MLS_DBG_REGSEL_CORE)
    = true ∧ svcRegAt (4 * g15s11.rd F.MLS_DBG_REGSEL_OFS) = some 3) := by
  refine ⟨?r1, ?r2, ?r3, ?r4, ?r5, ?r6, ?r7, ?r8, ⟨?h13, ?h14, ?h15, ?r9⟩, ⟨?h13, ?h14, ?h15, ?r10⟩, ⟨?h13, ?h14, ?h15, ?r11⟩, ⟨?h19, ?r12⟩, ⟨?h21,
    ?r13⟩, ⟨?h19, ?r14⟩, ⟨?h19, ?r15⟩, ⟨?h21, ?r16⟩, ?r17, ?r18, ?r19⟩
  all_goals decide +kernel

end Milestones

namespace Links

def pend (n : Nat) : State := { C [(I.cwRounds, 1, n)] with links := [(1, ⟨[(0, ⟨7, 9, 3, 5, 15, [1, 2, 3, 4]⟩)], []⟩)] }
def g16s0 : State := C [(F.CWY_L_STAT_STATE, 13, ckHELLO)]
def g16s1 : State := C [(F.CWY_L_STAT_STATE, 0, ckTRAIN)]
def g16s2 : State := C [(F.CWY_L_STAT_STATE, 0, ckDOWN), (F.CWY_L_CFG_EN, 13, 1)]
def g16s3 : State := C [(I.cwGot, 0, 1)]
def g16s4 : State := C [(I.cwSent, 0, 1)]
def g16s5 : State := C [(I.tmHave, 1, 1), (I.tmRxSeq, 1, 6), (I.tmSeq, 1, 9), (I.tmOurs, 1, 3), (I.cwRx, 1, 2)]
def g16s6 : List Byte := List.replicate 16 0 ++ beBytes 4 (crc32 (List.replicate 16 0))
def g16s7 : List Byte := fb 0 0 2 5 0 7 (beBytes 4 (2 ^ 31 + 9) ++ [0,0,0,0])
def g16s8 : List Byte := fb 1 0 2 5 0 7 (beBytes 2 7 ++ beBytes 2 5 ++ List.replicate 16 9)

/-- States and operands that meet the hypotheses of CausewayLinksTrainAndFall, clause by clause: each group in parentheses meets
those of one clause together. -/
theorem test_meets_CausewayLinksTrainAndFall :
  ((g16s1.rd F.CWY_L_STAT_STATE = ckTRAIN ∨ g16s1.rd F.CWY_L_STAT_STATE = ckDOWN ∧ cwMayRun g16s1 0 = true)) ∧
  ((¬((base mRESET).rd F.CWY_L_STAT_STATE = ckTRAIN ∨ (base mRESET).rd F.CWY_L_STAT_STATE = ckDOWN ∧ cwMayRun (base mRESET) 0 = true))) ∧
  ((base mRESET).nonzero F.CWY_M_STAT_STATE = [] ∧ (base mRESET).rd F.CWY_L_STAT_STATE = ckDOWN) ∧
  (g16s0.nonzero F.CWY_M_STAT_STATE = [] ∧ (∀ (j : ℕ), g16s0.rd F.CWY_L_CNT_COUNT j + (linkOf g16s0 0).replay.length + 3 < 2 ^ 32) ∧ g16s0.rd
    F.CWY_L_STAT_STATE ≠ ckDOWN ∧ (linkOf g16s0 0).waiting = []) ∧
  ((¬((base mRESET).rd F.CWY_L_STAT_STATE = ckDOWN ∧ cwMayRun (base mRESET) 0 = true)) ∧ (base mRESET).rd F.CWY_L_STAT_STATE ≠ ckHELLO ∧ cwUp (base
    mRESET) 0 = false) ∧
  ((g16s2.rd F.CWY_L_STAT_STATE = ckDOWN ∧ cwMayRun g16s2 0 = true) ∧ 0 < 6 ∧ cwUp g16s2 0 = false) ∧
  ((∀ (j : ℕ), g16s0.rd F.CWY_L_CNT_COUNT j + (linkOf g16s0 0).replay.length + 3 < 2 ^ 32) ∧ 0 < 6 ∧ (g16s0.rd F.CWY_L_STAT_STATE = ckHELLO ∨ g16s0.rd
    F.CWY_L_STAT_STATE ≠ ckDOWN ∧ cwUp g16s0 0 = true) ∧ (¬(g16s0.rd F.CWY_L_STAT_STATE = ckHELLO ∧ g16s0.rd I.cwGot = 1))) ∧
  ((∀ (j : ℕ), g16s3.rd F.CWY_L_CNT_COUNT j + (linkOf g16s3 0).replay.length + 3 < 2 ^ 32) ∧ 0 < 6 ∧ (g16s3.rd F.CWY_L_STAT_STATE = ckHELLO ∨ g16s3.rd
    F.CWY_L_STAT_STATE ≠ ckDOWN ∧ cwUp g16s3 0 = true) ∧ g16s3.rd F.CWY_L_STAT_STATE = ckHELLO ∧ g16s3.rd I.cwGot = 1 ∧ g16s3.rd F.TMU_LAT_RX_OVR (8 +
    0) = 1) ∧
  (g16s0.nonzero F.CWY_M_STAT_STATE = [] ∧ cwUp g16s0 1 = true ∧ (linkOf g16s0 1).replay = []) ∧
  ((pend 0).nonzero F.CWY_M_STAT_STATE = [] ∧ (∀ (j : ℕ), (pend 0).rd F.CWY_L_CNT_COUNT j + (linkOf (pend 0) 1).replay.length + 3 < 2 ^ 32) ∧ cwUp (pend
    0) 1 = true ∧ (linkOf (pend 0) 1).replay ≠ [] ∧ (pend 0).rd I.cwRounds 1 ≠ 8 ∧ 1 < 6) ∧
  ((pend 8).nonzero F.CWY_M_STAT_STATE = [] ∧ (∀ (j : ℕ), (pend 8).rd F.CWY_L_CNT_COUNT j + (linkOf (pend 8) 1).replay.length + 3 < 2 ^ 32) ∧ cwUp (pend
    8) 1 = true ∧ (linkOf (pend 8) 1).replay ≠ [] ∧ (pend 8).rd I.cwRounds 1 = 8 ∧ (pend 8).rd F.CWY_L_STAT_STATE 1 ≠ ckDOWN ∧ (linkOf (pend 8)
    1).waiting = []) ∧
  ((∀ (j : ℕ), g16s0.rd F.CWY_L_CNT_COUNT j + (linkOf g16s0 1).replay.length + 3 < 2 ^ 32) ∧ cwUp g16s0 1 = true ∧ 1 < 6) := by
  refine ⟨?r1, ?r2, ?r3, ⟨?h5, ?h6, ?r4⟩, ?r5, ?r6, ⟨?h6, ?h13, ?r7⟩, ?r8, ⟨?h5, ?h22, ?r9⟩, ?r10, ?r11, ?r12⟩
  all_goals try decide +kernel
  all_goals repeat' apply And.intro
  all_goals first
    | decide +kernel
    | exact every_value _ _ (fun v => v + 3 < 2 ^ 32) (by decide +kernel)
    | exact every_value _ _ (fun v => v + (linkOf g16s0 0).replay.length + 3 < 2 ^ 32) (by decide +kernel)
    | exact every_value _ _ (fun v => v + (linkOf g16s3 0).replay.length + 3 < 2 ^ 32) (by decide +kernel)
    | exact every_value _ _ (fun v => v + (linkOf (pend 0) 1).replay.length + 3 < 2 ^ 32) (by decide +kernel)
    | exact every_value _ _ (fun v => v + (linkOf (pend 8) 1).replay.length + 3 < 2 ^ 32) (by decide +kernel)
    | exact every_value _ _ (fun v => v + (linkOf g16s0 1).replay.length + 3 < 2 ^ 32) (by decide +kernel)

/-- States and operands that meet the hypotheses of CausewayFramesAreJudgedAndRouted, clause by clause: each group in parentheses meets
those of one clause together. -/
theorem test_meets_CausewayFramesAreJudgedAndRouted_1 :
  ((¬ckHELLO ≤ (base mRESET).rd F.CWY_L_STAT_STATE)) ∧
  (ckHELLO ≤ g16s0.rd F.CWY_L_STAT_STATE ∧ 0 < 6 ∧ (∀ (n : ℕ), g16s0.rd F.CWY_CNT_COUNT n + 2 < 2 ^ 32) ∧ [1, 2].length < 20) ∧
  (ckHELLO ≤ g16s0.rd F.CWY_L_STAT_STATE ∧ 0 < 6 ∧ (∀ (n : ℕ), g16s0.rd F.CWY_CNT_COUNT n + 2 < 2 ^ 32) ∧ 20 ≤ ((fb 7 9 2 5 0 15 [1, 2, 3, 4]).set 17
    9).length ∧ (¬List.drop (((fb 7 9 2 5 0 15 [1, 2, 3, 4]).set 17 9).length - 4) ((fb 7 9 2 5 0 15 [1, 2, 3, 4]).set 17 9) = beBytes 4 (crc32
    (List.take (((fb 7 9 2 5 0 15 [1, 2, 3, 4]).set 17 9).length - 4) ((fb 7 9 2 5 0 15 [1, 2, 3, 4]).set 17 9)))) ∧ g16s0.rd F.CWY_L_CNT_COUNT (6 * 0
    + 2) + 2 < 2 ^ 32) ∧
  (ckHELLO ≤ g16s0.rd F.CWY_L_STAT_STATE ∧ 0 < 6 ∧ (∀ (n : ℕ), g16s0.rd F.CWY_CNT_COUNT n + 2 < 2 ^ 32) ∧ 20 ≤ g16s6.length ∧ List.drop (g16s6.length -
    4) g16s6 = beBytes 4 (crc32 (List.take (g16s6.length - 4) g16s6)) ∧ (byteAt g16s6 0 / 16 ≠ 1 ∨ 4112 < cwLen g16s6 ∨ g16s6.length ≠ 20 + cwLen
    g16s6)) ∧
  (FrameWhole g16s0 13 (fb 13 9 2 5 0 15 []) ∧ (∀ (n : ℕ), g16s0.rd F.CWY_CNT_COUNT n + 2 < 2 ^ 32) ∧ 6 ≤ 13) ∧
  (FrameWhole g16s0 0 (fb 13 9 2 5 0 15 []) ∧ (∀ (n : ℕ), g16s0.rd F.CWY_CNT_COUNT n + 2 < 2 ^ 32) ∧ 13 ≤ (cwParse (fb 13 9 2 5 0 15 [])).type) ∧
  (FrameWhole g16s0 0 (fb 7 3 2 5 1 15 [1, 2, 3, 4]) ∧ (∀ (n : ℕ), g16s0.rd F.CWY_CNT_COUNT n + 2 < 2 ^ 32) ∧ (cwParse (fb 7 3 2 5 1 15 [1, 2, 3,
    4])).type < 13 ∧ (linkOf g16s0 0).replay = [] ∧ cwSequenced (cwParse (fb 7 3 2 5 1 15 [1, 2, 3, 4])).type = true ∧ beAt (fb 7 3 2 5 1 15 [1, 2, 3,
    4]) 8 2 ≠ g16s0.rd I.cwRx) ∧
  (FrameInPlace g16s0 0 (fb 7 9 2 6 0 15 [1, 2, 3, 4]) ∧ cwLocal (cwParse (fb 7 9 2 6 0 15 [1, 2, 3, 4])).type = false ∧ (∀ (n : ℕ), g16s0.rd
    F.CWY_CNT_COUNT n + 2 < 2 ^ 32) ∧ (cwParse (fb 7 9 2 6 0 15 [1, 2, 3, 4])).epoch ≠ g16s0.rd F.CWY_EPOCH_EPOCH) ∧
  (FrameInPlace g16s0 0 (fb 7 9 2 5 0 15 [1, 2, 3, 4]) ∧ cwLocal (cwParse (fb 7 9 2 5 0 15 [1, 2, 3, 4])).type = false ∧ (∀ (n : ℕ), g16s0.rd
    F.CWY_CNT_COUNT n + 2 < 2 ^ 32) ∧ (cwParse (fb 7 9 2 5 0 15 [1, 2, 3, 4])).epoch = g16s0.rd F.CWY_EPOCH_EPOCH ∧ (cwUp g16s0 0 = false ∨ devLocked
    g16s0 = false)) ∧
  (FrameInPlace g16s0 1 (fb 7 9 2 5 0 0 [1, 2, 3, 4]) ∧ cwLocal (cwParse (fb 7 9 2 5 0 0 [1, 2, 3, 4])).type = false ∧ (∀ (n : ℕ), g16s0.rd
    F.CWY_CNT_COUNT n + 2 < 2 ^ 32) ∧ (cwParse (fb 7 9 2 5 0 0 [1, 2, 3, 4])).epoch = g16s0.rd F.CWY_EPOCH_EPOCH ∧ cwUp g16s0 1 = true ∧ devLocked
    g16s0 = true ∧ (cwParse (fb 7 9 2 5 0 0 [1, 2, 3, 4])).dst ≠ ownDev g16s0 ∧ ((cwParse (fb 7 9 2 5 0 0 [1, 2, 3, 4])).hops = 0 ∨ ¬(g16s0.rd
    F.CWY_ROUTE_VALID (cwParse (fb 7 9 2 5 0 0 [1, 2, 3, 4])).dst = 1 ∧ g16s0.rd F.CWY_ROUTE_LINK (cwParse (fb 7 9 2 5 0 0 [1, 2, 3, 4])).dst < 14))) ∧
  (FrameInPlace g16s0 1 (fb 7 10 2 5 0 7 [1, 2, 3, 4]) ∧ cwLocal (cwParse (fb 7 10 2 5 0 7 [1, 2, 3, 4])).type = false ∧ (∀ (n : ℕ), g16s0.rd
    F.CWY_CNT_COUNT n + 2 < 2 ^ 32) ∧ (cwParse (fb 7 10 2 5 0 7 [1, 2, 3, 4])).epoch = g16s0.rd F.CWY_EPOCH_EPOCH ∧ cwUp g16s0 1 = true ∧ devLocked
    g16s0 = true ∧ (cwParse (fb 7 10 2 5 0 7 [1, 2, 3, 4])).dst ≠ ownDev g16s0 ∧ (cwParse (fb 7 10 2 5 0 7 [1, 2, 3, 4])).hops ≠ 0 ∧ (g16s0.rd
    F.CWY_ROUTE_VALID (cwParse (fb 7 10 2 5 0 7 [1, 2, 3, 4])).dst = 1 ∧ g16s0.rd F.CWY_ROUTE_LINK (cwParse (fb 7 10 2 5 0 7 [1, 2, 3, 4])).dst < 14)
    ∧ cwUp g16s0 (g16s0.rd F.CWY_ROUTE_LINK (cwParse (fb 7 10 2 5 0 7 [1, 2, 3, 4])).dst) = false) ∧
  (FrameInPlace g16s0 1 (fb 7 9 2 5 0 15 [1, 2, 3, 4]) ∧ cwLocal (cwParse (fb 7 9 2 5 0 15 [1, 2, 3, 4])).type = false ∧ (∀ (n : ℕ), g16s0.rd
    F.CWY_CNT_COUNT n + 2 < 2 ^ 32) ∧ (cwParse (fb 7 9 2 5 0 15 [1, 2, 3, 4])).epoch = g16s0.rd F.CWY_EPOCH_EPOCH ∧ cwUp g16s0 1 = true ∧ devLocked
    g16s0 = true ∧ (cwParse (fb 7 9 2 5 0 15 [1, 2, 3, 4])).dst ≠ ownDev g16s0 ∧ (cwParse (fb 7 9 2 5 0 15 [1, 2, 3, 4])).hops ≠ 0 ∧ (g16s0.rd
    F.CWY_ROUTE_VALID (cwParse (fb 7 9 2 5 0 15 [1, 2, 3, 4])).dst = 1 ∧ g16s0.rd F.CWY_ROUTE_LINK (cwParse (fb 7 9 2 5 0 15 [1, 2, 3, 4])).dst < 14)
    ∧ cwUp g16s0 (g16s0.rd F.CWY_ROUTE_LINK (cwParse (fb 7 9 2 5 0 15 [1, 2, 3, 4])).dst) = true ∧ LinkOpen g16s0 (g16s0.rd F.CWY_ROUTE_LINK (cwParse
    (fb 7 9 2 5 0 15 [1, 2, 3, 4])).dst) (cwParse (fb 7 9 2 5 0 15 [1, 2, 3, 4])) ∧ cwSequenced (cwParse (fb 7 9 2 5 0 15 [1, 2, 3, 4])).type = true) := by
  refine ⟨?r1, ⟨?h2, ?h3, ?h4, ?r2⟩, ⟨?h2, ?h3, ?h4, ?r3⟩, ⟨?h2, ?h3, ?h4, ?r4⟩, ?r5, ?r6, ?r7, ?r8, ?r9, ?r10, ?r11, ?r12⟩
  all_goals try unfold FrameWhole
  all_goals try unfold FrameInPlace
  all_goals try unfold LinkOpen
  all_goals try decide +kernel
  all_goals repeat' apply And.intro
  all_goals first
    | decide +kernel
    | exact every_value _ _ (fun v => v + 2 < 2 ^ 32) (by decide +kernel)
    | exact every_value _ _ (fun v => v = 0) (by decide +kernel)

/-- States and operands that meet the hypotheses of CausewayFramesAreJudgedAndRouted, clause by clause: each group in parentheses meets
those of one clause together. -/
theorem test_meets_CausewayFramesAreJudgedAndRouted_2 :
  (FrameInPlace g16s0 1 (fb 5 9 2 5 0 7 [1, 2, 3, 4]) ∧ cwLocal (cwParse (fb 5 9 2 5 0 7 [1, 2, 3, 4])).type = false ∧ (∀ (n : ℕ), g16s0.rd
    F.CWY_CNT_COUNT n + 2 < 2 ^ 32) ∧ (cwParse (fb 5 9 2 5 0 7 [1, 2, 3, 4])).epoch = g16s0.rd F.CWY_EPOCH_EPOCH ∧ cwUp g16s0 1 = true ∧ devLocked
    g16s0 = true ∧ (cwParse (fb 5 9 2 5 0 7 [1, 2, 3, 4])).dst ≠ ownDev g16s0 ∧ (cwParse (fb 5 9 2 5 0 7 [1, 2, 3, 4])).hops ≠ 0 ∧ (g16s0.rd
    F.CWY_ROUTE_VALID (cwParse (fb 5 9 2 5 0 7 [1, 2, 3, 4])).dst = 1 ∧ g16s0.rd F.CWY_ROUTE_LINK (cwParse (fb 5 9 2 5 0 7 [1, 2, 3, 4])).dst < 14) ∧
    cwUp g16s0 (g16s0.rd F.CWY_ROUTE_LINK (cwParse (fb 5 9 2 5 0 7 [1, 2, 3, 4])).dst) = true ∧ LinkOpen g16s0 (g16s0.rd F.CWY_ROUTE_LINK (cwParse (fb
    5 9 2 5 0 7 [1, 2, 3, 4])).dst) (cwParse (fb 5 9 2 5 0 7 [1, 2, 3, 4])) ∧ cwSequenced (cwParse (fb 5 9 2 5 0 7 [1, 2, 3, 4])).type = false) ∧
  ((cwParse [1, 2]).type ≠ cwLINK) ∧
  ((cwParse (fb 13 9 2 5 0 15 [])).type ≠ cwTIME) ∧
  (FrameInPlace g16s0 0 g16s7 ∧ (cwParse g16s7).type = cwLINK ∧ (¬(g16s0.rd F.CWY_L_STAT_STATE = ckHELLO ∧ g16s0.rd I.cwSent = 1))) ∧
  (FrameInPlace g16s4 0 g16s7 ∧ (cwParse g16s7).type = cwLINK ∧ (g16s4.rd F.CWY_L_STAT_STATE = ckHELLO ∧ g16s4.rd I.cwSent = 1) ∧ (6 ≤ 0 ∨ g16s4.rd
    F.TMU_LAT_RX_OVR (8 + 0) = 1)) ∧
  (FrameInPlace g16s5 1 g16s8 ∧ (cwParse g16s8).type = cwTIME ∧ (g16s5.rd I.tmHave 1 = 1 ∧ beAt (cwParse g16s8).payload 0 2 = (g16s5.rd I.tmRxSeq 1 + 1)
    % 65536 ∧ timeKept g16s5 1 (g16s5.rd I.tmOurs 1) = true)) ∧
  (FrameInPlace g16s0 0 g16s8 ∧ (cwParse g16s8).type = cwTIME ∧ (¬(g16s0.rd I.tmHave = 1 ∧ beAt (cwParse g16s8).payload 0 2 = (g16s0.rd I.tmRxSeq + 1) %
    65536 ∧ timeKept g16s0 0 (g16s0.rd I.tmOurs) = true))) ∧
  ((base mRESET).fabric = false) ∧
  (g16s0.fabric = true ∧ selLink g16s0 (Init.svc 0) = none) ∧
  (g16s0.fabric = true ∧ selLink g16s0 Init.host = some 1 ∧ selCopy Init.host = some 4) := by
  refine ⟨?r1, ?r2, ?r3, ?r4, ?r5, ?r6, ?r7, ?r8, ⟨?h27, ?r9⟩, ⟨?h27, ?r10⟩⟩
  all_goals try unfold FrameInPlace
  all_goals try unfold LinkOpen
  all_goals try decide +kernel
  all_goals repeat' apply And.intro
  all_goals first
    | decide +kernel
    | exact every_value _ _ (fun v => v + 2 < 2 ^ 32) (by decide +kernel)
    | exact every_value _ _ (fun v => v = 0) (by decide +kernel)

end Links

namespace Messages

def bt : State := puts (C [(F.PMU_MODE_CURRENT, 0, mBOOT), (I.bootSrc, 0, 2), (I.romSt, 0, 1), (F.CWY_L_STAT_UP, 0, 1), (F.CWY_L_STAT_STATE, 0, ckUP)]) []
def R : List (Fld × Nat × Nat) := [(F.CWY_ROUTE_VALID, 2, 1), (F.CWY_ROUTE_LINK, 2, 1)]
def g16bs0 : State := C [(F.PKE_CTRL_RUN, 0, 1), (F.PKE_CELLCFG_G, 24, 0), (F.PKE_CELLCNT_CNT, 0, 0)]
def g16bs1 : State := C [(F.CWY_REVT_DEV_DEV, 0x40, 9), (F.CWY_RA_CMD_GO, 0, 1), (F.CWY_FENCECMD_GO, 0, 1), (F.CWY_MBS_CMD_GO, 0, 1)]
def g16bs2 : State := C [(F.CWY_REVT_DEV_DEV, 0x40, 9), (F.CWY_MBS_ADDR_LO_ADDR, 0, 0x20000000)]
def g16bs4 : State := C [(F.FUS_PMMISC_RMBOX, 0, 1), (F.CWY_MBR_BASE_BASE, 0, 0x800000), (F.CWY_MBR_CFG_SIZE, 0, 2), (F.TSU_T_STAT_STATE, 5, 1)]
def g16bs5 : State := C ([(F.FUS_PMMISC_RMBOX, 0, 1), (F.CWY_MBR_BASE_BASE, 0, 0x800000), (F.CWY_MBR_CFG_SIZE, 0, 0), (F.CWY_MBR_WP_WP, 0, 1)] ++ R)
def g16bs6 : State := C (R ++ [(F.FUS_PMCWY_RIGHTS, 0, 0xFFFFF), (F.CWY_RA_CMD_GO, 0, 1), (I.raTag, 0, 7)])
def g16bs7 : State := C [(F.FUS_PMMISC_RFENCE, 0, 1), (F.CWY_RA_CMD_GO, 0, 1), (I.raTag, 0, 7), (F.CWY_RA_CMD_WR, 0, 1)]
def P4 (t : Nat) (p : List Byte) := fb t 3 2 5 0 4 p
def ents : List (Nat × Bool × List Byte) := [(4, false, List.replicate 32 1), (5, true, List.replicate 64 2), (6, false, List.replicate 32 1)]
def g16bs10 : List Byte := P4 8 (beBytes 4 (2^31 + 7) ++ beBytes 4 0 ++ beBytes 4 0x10000000 ++ beBytes 4 55)
def g16bs14 : List Byte := P4 5 (List.replicate 16 2 ++ List.replicate 60 9)
def g16bs15 : List Byte := P4 12 (beBytes 4 1 ++ beBytes 4 0x40 ++ [1, 2, 3, 4])
def g16bs16 : List Byte := P4 12 (beBytes 4 1 ++ beBytes 4 0x7FFFFE ++ [1, 2, 3, 4])

/-- States and operands that meet the hypotheses of CausewayMessagesActAtTheirDevice, clause by clause: each group in parentheses meets
those of one clause together. -/
theorem test_meets_CausewayMessagesActAtTheirDevice_1 :
  ((base mRESET).fabric = false) ∧
  (g16bs1.fabric = true ∧ devLocked g16bs1 = true ∧ cwRoute g16bs1 (g16bs1.rd F.CWY_REVT_DEV_DEV (initCode (Init.svc 0))) = some 1 ∧ LinkOpen g16bs1 1
    (ownFrame g16bs1 cwEVENT (g16bs1.rd F.CWY_REVT_DEV_DEV (initCode (Init.svc 0))) (beBytes 4 0))) ∧
  (g16bs0.fabric = true ∧ (devLocked g16bs0 = false ∨ cwRoute g16bs0 (g16bs0.rd F.CWY_REVT_DEV_DEV (initCode (Init.svc 0))) = none) ∧ g16bs0.rd
    F.CWY_CNT_COUNT + 2 < 2 ^ 32) ∧
  (g16bs0.fabric = true ∧ (¬(bitOf 0 31 = true ∧ g16bs0.rd F.CWY_FENCECMD_GO = 0))) ∧
  (g16bs0.fabric = true ∧ (bitOf 2147483657 31 = true ∧ g16bs0.rd F.CWY_FENCECMD_GO = 0) ∧ devLocked g16bs0 = true ∧ cwRoute g16bs0 (bits 2147483657 10
    0) = some 1 ∧ LinkOpen g16bs0 1 (ownFrame g16bs0 cwFENCE (bits 2147483657 10 0) [])) ∧
  (g16bs0.fabric = true ∧ (bitOf 3221233665 31 = true ∧ g16bs0.rd F.CWY_FENCECMD_GO = 0) ∧ (devLocked g16bs0 = false ∨ cwRoute g16bs0 (bits 3221233665
    10 0) = none) ∧ g16bs0.rd F.CWY_CNT_COUNT + 2 < 2 ^ 32) ∧
  (g16bs0.fabric = true ∧ (¬(bitOf 0 31 = true ∧ g16bs0.rd F.CWY_RA_CMD_GO = 0))) ∧
  (g16bs0.fabric = true ∧ (bitOf 2147483657 31 = true ∧ g16bs0.rd F.CWY_RA_CMD_GO = 0) ∧ devLocked g16bs0 = true ∧ cwRoute g16bs0 (bits 2147483657 10 0)
    = some 1 ∧ LinkOpen g16bs0 1 (ownFrame g16bs0 cwRACC (bits 2147483657 10 0) (beBytes 4 (bitN 2147483657 30 * 2 ^ 31 + (g16bs0.rd I.raTag + 1) %
    65536) ++ beBytes 4 (g16bs0.rd F.CWY_RA_ADDR_HI_ADDR) ++ beBytes 4 (g16bs0.rd F.CWY_RA_ADDR_LO_ADDR) ++ beBytes 4 (g16bs0.rd
    F.CWY_RA_DATA_DATA)))) ∧
  (g16bs0.fabric = true ∧ (bitOf 3221233665 31 = true ∧ g16bs0.rd F.CWY_RA_CMD_GO = 0) ∧ (devLocked g16bs0 = false ∨ cwRoute g16bs0 (bits 3221233665 10
    0) = none) ∧ g16bs0.rd F.CWY_CNT_COUNT + 2 < 2 ^ 32) ∧
  (g16bs0.fabric = true ∧ (¬(bitOf 0 31 = true ∧ g16bs0.rd F.CWY_MBS_CMD_GO = 0))) ∧
  (g16bs0.fabric = true ∧ (bitOf 2147483657 31 = true ∧ g16bs0.rd F.CWY_MBS_CMD_GO = 0) ∧ (¬(4 ≤ bits 2147483657 23 11 ∧ bits 2147483657 23 11 % 4 = 0 ∧
    (bits 2147483657 23 11 ≤ if bitOf 2147483657 30 = true then 4104 else 240) ∧ inSymPks (g16bs0.rd F.CWY_MBS_ADDR_HI_ADDR * 2 ^ 32 + g16bs0.rd
    F.CWY_MBS_ADDR_LO_ADDR) (bits 2147483657 23 11) = true))) ∧
  (g16bs2.fabric = true ∧ (bitOf 2147491849 31 = true ∧ g16bs2.rd F.CWY_MBS_CMD_GO = 0) ∧ (4 ≤ bits 2147491849 23 11 ∧ bits 2147491849 23 11 % 4 = 0 ∧
    (bits 2147491849 23 11 ≤ if bitOf 2147491849 30 = true then 4104 else 240) ∧ inSymPks (g16bs2.rd F.CWY_MBS_ADDR_HI_ADDR * 2 ^ 32 + g16bs2.rd
    F.CWY_MBS_ADDR_LO_ADDR) (bits 2147491849 23 11) = true) ∧ bitOf 2147491849 30 = false ∧ devLocked g16bs2 = true ∧ cwRoute g16bs2 (bits 2147491849
    10 0) = some 1 ∧ LinkOpen g16bs2 1 (ownFrame g16bs2 cwMBOX (bits 2147491849 10 0) (g16bs2.readBytes (g16bs2.rd F.CWY_MBS_ADDR_HI_ADDR * 2 ^ 32 +
    g16bs2.rd F.CWY_MBS_ADDR_LO_ADDR) (bits 2147491849 23 11)))) ∧
  (g16bs2.fabric = true ∧ (bitOf 2147491845 31 = true ∧ g16bs2.rd F.CWY_MBS_CMD_GO = 0) ∧ (4 ≤ bits 2147491845 23 11 ∧ bits 2147491845 23 11 % 4 = 0 ∧
    (bits 2147491845 23 11 ≤ if bitOf 2147491845 30 = true then 4104 else 240) ∧ inSymPks (g16bs2.rd F.CWY_MBS_ADDR_HI_ADDR * 2 ^ 32 + g16bs2.rd
    F.CWY_MBS_ADDR_LO_ADDR) (bits 2147491845 23 11) = true) ∧ bitOf 2147491845 30 = false ∧ (devLocked g16bs2 = false ∨ cwRoute g16bs2 (bits
    2147491845 10 0) = none) ∧ g16bs2.rd F.CWY_CNT_COUNT + 2 < 2 ^ 32) ∧
  (g16bs2.fabric = true ∧ (bitOf 3221233665 31 = true ∧ g16bs2.rd F.CWY_MBS_CMD_GO = 0) ∧ (4 ≤ bits 3221233665 23 11 ∧ bits 3221233665 23 11 % 4 = 0 ∧
    (bits 3221233665 23 11 ≤ if bitOf 3221233665 30 = true then 4104 else 240) ∧ inSymPks (g16bs2.rd F.CWY_MBS_ADDR_HI_ADDR * 2 ^ 32 + g16bs2.rd
    F.CWY_MBS_ADDR_LO_ADDR) (bits 3221233665 23 11) = true) ∧ bitOf 3221233665 30 = true ∧ bits 3221233665 10 0 % 16 < 6 ∧ cwUp g16bs2 (bits
    3221233665 10 0 % 16) = true ∧ g16bs2.rd F.CWY_L_CNT_COUNT (6 * (bits 3221233665 10 0 % 16)) + 2 < 2 ^ 32) ∧
  (g16bs2.fabric = true ∧ (bitOf 3221233679 31 = true ∧ g16bs2.rd F.CWY_MBS_CMD_GO = 0) ∧ (4 ≤ bits 3221233679 23 11 ∧ bits 3221233679 23 11 % 4 = 0 ∧
    (bits 3221233679 23 11 ≤ if bitOf 3221233679 30 = true then 4104 else 240) ∧ inSymPks (g16bs2.rd F.CWY_MBS_ADDR_HI_ADDR * 2 ^ 32 + g16bs2.rd
    F.CWY_MBS_ADDR_LO_ADDR) (bits 3221233679 23 11) = true) ∧ bitOf 3221233679 30 = true ∧ (14 ≤ bits 3221233679 10 0 % 16 ∨ cwUp g16bs2 (bits
    3221233679 10 0 % 16) = false) ∧ g16bs2.rd F.CWY_CNT_COUNT + 2 < 2 ^ 32) ∧
  (g16bs0.rd F.CWY_RA_CMD_GO = 0) ∧
  (g16bs1.rd F.CWY_RA_CMD_GO = 1) ∧
  ((¬(cwBooting g16bs0 = true ∧ cwUp g16bs0 0 = true))) ∧
  ((cwBooting bt = true ∧ cwUp bt 0 = true) ∧ bt.rd F.CWY_L_CNT_COUNT + 2 < 2 ^ 32) ∧
  ((cwParse [1, 2]).type ≠ cwEVENT) ∧
  ((cwParse [1, 2]).type ≠ cwMBOX) ∧
  ((cwParse [1, 2]).type ≠ cwRACC) ∧
  ((cwParse [1, 2]).type ≠ cwRRSP) := by
  refine ⟨?r1, ?r2, ⟨?h6, ?r3⟩, ⟨?h6, ?r4⟩, ⟨?h6, ?r5⟩, ⟨?h6, ?r6⟩, ⟨?h6, ?r7⟩, ⟨?h6, ?r8⟩, ⟨?h6, ?r9⟩, ⟨?h6, ?r10⟩, ⟨?h6, ?r11⟩, ⟨?h23, ?r12⟩, ⟨?h23,
    ?r13⟩, ⟨?h23, ?r14⟩, ⟨?h23, ?r15⟩, ?r16, ?r17, ?r18, ?r19, ?r20, ?r21, ?r22, ?r23⟩
  all_goals try unfold LinkOpen
  all_goals try decide +kernel
  all_goals repeat' apply And.intro
  all_goals first
    | decide +kernel
    | exact every_value _ _ (fun v => v = 0) (by decide +kernel)

/-- States and operands that meet the hypotheses of CausewayMessagesActAtTheirDevice, clause by clause: each group in parentheses meets
those of one clause together. -/
theorem test_meets_CausewayMessagesActAtTheirDevice_2 :
  ((cwParse [1, 2]).type ≠ cwFENCE) ∧
  ((cwParse [1, 2]).type ≠ cwPKTFWD) ∧
  ((cwParse [1, 2]).type ≠ cwBRIDGE) ∧
  ((cwParse [1, 2]).type ≠ cwBOOT) ∧
  (FrameInPlace g16bs0 1 (P4 6 (beBytes 4 196613)) ∧ FrameOurs g16bs0 1 (P4 6 (beBytes 4 196613)) ∧ (∀ (n : ℕ), g16bs0.rd F.CWY_CNT_COUNT n + 2 < 2 ^
    32) ∧ (cwParse (P4 6 (beBytes 4 196613))).type = cwEVENT ∧ taskSt g16bs0 (beAt (cwParse (P4 6 (beBytes 4 196613))).payload 0 4 % 65536) = tEMPTY) ∧
  (FrameInPlace g16bs4 1 (P4 6 (beBytes 4 196613)) ∧ FrameOurs g16bs4 1 (P4 6 (beBytes 4 196613)) ∧ (∀ (n : ℕ), g16bs4.rd F.CWY_CNT_COUNT n + 2 < 2 ^
    32) ∧ (cwParse (P4 6 (beBytes 4 196613))).type = cwEVENT ∧ taskSt g16bs4 (beAt (cwParse (P4 6 (beBytes 4 196613))).payload 0 4 % 65536) ≠ tEMPTY) ∧
  (FrameInPlace g16bs0 1 (P4 7 [1, 2, 3, 4]) ∧ FrameOurs g16bs0 1 (P4 7 [1, 2, 3, 4]) ∧ (∀ (n : ℕ), g16bs0.rd F.CWY_CNT_COUNT n + 2 < 2 ^ 32) ∧ (cwParse
    (P4 7 [1, 2, 3, 4])).type = cwMBOX ∧ (cwMBOX = cwBOOT → cwBooting g16bs0 = false ∧ beAt (cwParse (P4 7 [1, 2, 3, 4])).payload 0 4 = 0) ∧
    (¬(g16bs0.rd F.FUS_PMMISC_RMBOX = 1 ∧ (cwParse (P4 7 [1, 2, 3, 4])).payload.length ≤ 240) ∨ ringPlace (g16bs0.rd F.CWY_MBR_BASE_BASE) (g16bs0.rd
    F.CWY_MBR_CFG_SIZE) (g16bs0.rd F.CWY_MBR_WP_WP) (g16bs0.rd F.CWY_MBR_RP_RP) 256 = none)) ∧
  (FrameInPlace g16bs4 1 (P4 7 [1, 2, 3, 4]) ∧ FrameOurs g16bs4 1 (P4 7 [1, 2, 3, 4]) ∧ (∀ (n : ℕ), g16bs4.rd F.CWY_CNT_COUNT n + 2 < 2 ^ 32) ∧ (cwParse
    (P4 7 [1, 2, 3, 4])).type = cwMBOX ∧ (cwMBOX = cwBOOT → cwBooting g16bs4 = false ∧ beAt (cwParse (P4 7 [1, 2, 3, 4])).payload 0 4 = 0) ∧
    (g16bs4.rd F.FUS_PMMISC_RMBOX = 1 ∧ (cwParse (P4 7 [1, 2, 3, 4])).payload.length ≤ 240) ∧ ringPlace (g16bs4.rd F.CWY_MBR_BASE_BASE) (g16bs4.rd
    F.CWY_MBR_CFG_SIZE) (g16bs4.rd F.CWY_MBR_WP_WP) (g16bs4.rd F.CWY_MBR_RP_RP) 256 = some 536870912) ∧
  (FrameInPlace g16bs0 0 (P4 12 (beBytes 4 0 ++ [1, 2, 3, 4])) ∧ FrameOurs g16bs0 0 (P4 12 (beBytes 4 0 ++ [1, 2, 3, 4])) ∧ (∀ (n : ℕ), g16bs0.rd
    F.CWY_CNT_COUNT n + 2 < 2 ^ 32) ∧ (cwParse (P4 12 (beBytes 4 0 ++ [1, 2, 3, 4]))).type = cwBOOT ∧ (cwBOOT = cwBOOT → cwBooting g16bs0 = false ∧
    beAt (cwParse (P4 12 (beBytes 4 0 ++ [1, 2, 3, 4]))).payload 0 4 = 0) ∧ (¬(g16bs0.rd F.FUS_PMMISC_RMBOX = 1 ∧ (cwParse (P4 12 (beBytes 4 0 ++ [1,
    2, 3, 4]))).payload.length ≤ 240) ∨ ringPlace (g16bs0.rd F.CWY_MBR_BASE_BASE) (g16bs0.rd F.CWY_MBR_CFG_SIZE) (g16bs0.rd F.CWY_MBR_WP_WP)
    (g16bs0.rd F.CWY_MBR_RP_RP) 256 = none)) ∧
  (FrameInPlace g16bs4 0 (P4 12 (beBytes 4 0 ++ [1, 2, 3, 4])) ∧ FrameOurs g16bs4 0 (P4 12 (beBytes 4 0 ++ [1, 2, 3, 4])) ∧ (∀ (n : ℕ), g16bs4.rd
    F.CWY_CNT_COUNT n + 2 < 2 ^ 32) ∧ (cwParse (P4 12 (beBytes 4 0 ++ [1, 2, 3, 4]))).type = cwBOOT ∧ (cwBOOT = cwBOOT → cwBooting g16bs4 = false ∧
    beAt (cwParse (P4 12 (beBytes 4 0 ++ [1, 2, 3, 4]))).payload 0 4 = 0) ∧ (g16bs4.rd F.FUS_PMMISC_RMBOX = 1 ∧ (cwParse (P4 12 (beBytes 4 0 ++ [1, 2,
    3, 4]))).payload.length ≤ 240) ∧ ringPlace (g16bs4.rd F.CWY_MBR_BASE_BASE) (g16bs4.rd F.CWY_MBR_CFG_SIZE) (g16bs4.rd F.CWY_MBR_WP_WP) (g16bs4.rd
    F.CWY_MBR_RP_RP) 256 = some 536870912) ∧
  (FrameInPlace g16bs5 1 g16bs10 ∧ FrameOurs g16bs5 1 g16bs10 ∧ (∀ (n : ℕ), g16bs5.rd F.CWY_CNT_COUNT n + 2 < 2 ^ 32) ∧ (cwParse g16bs10).type = cwRACC
    ∧ devLocked (if bitOf (byteAt (cwParse g16bs10).payload 0) 7 = true then (busWrite (puts g16bs5 (arrived g16bs5 1 g16bs10)) Init.racc (byteAt
    (cwParse g16bs10).payload 7 * 2 ^ 32 + beAt (cwParse g16bs10).payload 8 4) (leBytes 4 (beAt (cwParse g16bs10).payload 12 4))).2 else (busRead
    (puts g16bs5 (arrived g16bs5 1 g16bs10)) Init.racc (byteAt (cwParse g16bs10).payload 7 * 2 ^ 32 + beAt (cwParse g16bs10).payload 8 4) 4).2.2) =
    true ∧ cwRoute (if bitOf (byteAt (cwParse g16bs10).payload 0) 7 = true then (busWrite (puts g16bs5 (arrived g16bs5 1 g16bs10)) Init.racc (byteAt
    (cwParse g16bs10).payload 7 * 2 ^ 32 + beAt (cwParse g16bs10).payload 8 4) (leBytes 4 (beAt (cwParse g16bs10).payload 12 4))).2 else (busRead
    (puts g16bs5 (arrived g16bs5 1 g16bs10)) Init.racc (byteAt (cwParse g16bs10).payload 7 * 2 ^ 32 + beAt (cwParse g16bs10).payload 8 4) 4).2.2)
    (cwParse g16bs10).src = some 1 ∧ (LinkOpen (if bitOf (byteAt (cwParse g16bs10).payload 0) 7 = true then (busWrite (puts g16bs5 (arrived g16bs5 1
    g16bs10)) Init.racc (byteAt (cwParse g16bs10).payload 7 * 2 ^ 32 + beAt (cwParse g16bs10).payload 8 4) (leBytes 4 (beAt (cwParse g16bs10).payload
    12 4))).2 else (busRead (puts g16bs5 (arrived g16bs5 1 g16bs10)) Init.racc (byteAt (cwParse g16bs10).payload 7 * 2 ^ 32 + beAt (cwParse
    g16bs10).payload 8 4) 4).2.2) 1 (ownFrame (if bitOf (byteAt (cwParse g16bs10).payload 0) 7 = true then (busWrite (puts g16bs5 (arrived g16bs5 1
    g16bs10)) Init.racc (byteAt (cwParse g16bs10).payload 7 * 2 ^ 32 + beAt (cwParse g16bs10).payload 8 4) (leBytes 4 (beAt (cwParse g16bs10).payload
    12 4))).2 else (busRead (puts g16bs5 (arrived g16bs5 1 g16bs10)) Init.racc (byteAt (cwParse g16bs10).payload 7 * 2 ^ 32 + beAt (cwParse
    g16bs10).payload 8 4) 4).2.2) cwRRSP (cwParse g16bs10).src (beBytes 4 ((match if bitOf (byteAt (cwParse g16bs10).payload 0) 7 = true then
    (busWrite (puts g16bs5 (arrived g16bs5 1 g16bs10)) Init.racc (byteAt (cwParse g16bs10).payload 7 * 2 ^ 32 + beAt (cwParse g16bs10).payload 8 4)
    (leBytes 4 (beAt (cwParse g16bs10).payload 12 4))).1 else (busRead (puts g16bs5 (arrived g16bs5 1 g16bs10)) Init.racc (byteAt (cwParse
    g16bs10).payload 7 * 2 ^ 32 + beAt (cwParse g16bs10).payload 8 4) 4).1 with | Ending.ok => 0 | Ending.prot => 1 | Ending.decode => 2) * 2 ^ 24 +
    beAt (cwParse g16bs10).payload 2 2) ++ beBytes 4 (if bitOf (byteAt (cwParse g16bs10).payload 0) 7 = true then 0 else (busRead (puts g16bs5
    (arrived g16bs5 1 g16bs10)) Init.racc (byteAt (cwParse g16bs10).payload 7 * 2 ^ 32 + beAt (cwParse g16bs10).payload 8 4) 4).2.1))))) ∧
  (FrameInPlace g16bs0 1 g16bs10 ∧ FrameOurs g16bs0 1 g16bs10 ∧ (∀ (n : ℕ), g16bs0.rd F.CWY_CNT_COUNT n + 2 < 2 ^ 32) ∧ (cwParse g16bs10).type = cwRACC
    ∧ (devLocked (if bitOf (byteAt (cwParse g16bs10).payload 0) 7 = true then (busWrite (puts g16bs0 (arrived g16bs0 1 g16bs10)) Init.racc (byteAt
    (cwParse g16bs10).payload 7 * 2 ^ 32 + beAt (cwParse g16bs10).payload 8 4) (leBytes 4 (beAt (cwParse g16bs10).payload 12 4))).2 else (busRead
    (puts g16bs0 (arrived g16bs0 1 g16bs10)) Init.racc (byteAt (cwParse g16bs10).payload 7 * 2 ^ 32 + beAt (cwParse g16bs10).payload 8 4) 4).2.2) =
    false ∨ cwRoute (if bitOf (byteAt (cwParse g16bs10).payload 0) 7 = true then (busWrite (puts g16bs0 (arrived g16bs0 1 g16bs10)) Init.racc (byteAt
    (cwParse g16bs10).payload 7 * 2 ^ 32 + beAt (cwParse g16bs10).payload 8 4) (leBytes 4 (beAt (cwParse g16bs10).payload 12 4))).2 else (busRead
    (puts g16bs0 (arrived g16bs0 1 g16bs10)) Init.racc (byteAt (cwParse g16bs10).payload 7 * 2 ^ 32 + beAt (cwParse g16bs10).payload 8 4) 4).2.2)
    (cwParse g16bs10).src = none) ∧ (if bitOf (byteAt (cwParse g16bs10).payload 0) 7 = true then (busWrite (puts g16bs0 (arrived g16bs0 1 g16bs10))
    Init.racc (byteAt (cwParse g16bs10).payload 7 * 2 ^ 32 + beAt (cwParse g16bs10).payload 8 4) (leBytes 4 (beAt (cwParse g16bs10).payload 12 4))).2
    else (busRead (puts g16bs0 (arrived g16bs0 1 g16bs10)) Init.racc (byteAt (cwParse g16bs10).payload 7 * 2 ^ 32 + beAt (cwParse g16bs10).payload 8
    4) 4).2.2).rd F.CWY_CNT_COUNT + 2 < 2 ^ 32) ∧
  (FrameInPlace g16bs0 1 (P4 9 (beBytes 4 7 ++ beBytes 4 153)) ∧ FrameOurs g16bs0 1 (P4 9 (beBytes 4 7 ++ beBytes 4 153)) ∧ (∀ (n : ℕ), g16bs0.rd
    F.CWY_CNT_COUNT n + 2 < 2 ^ 32) ∧ (cwParse (P4 9 (beBytes 4 7 ++ beBytes 4 153))).type = cwRRSP ∧ (¬(g16bs0.rd F.CWY_RA_CMD_GO = 1 ∧ beAt (cwParse
    (P4 9 (beBytes 4 7 ++ beBytes 4 153))).payload 2 2 = g16bs0.rd I.raTag))) ∧
  (FrameInPlace g16bs6 1 (P4 9 (beBytes 4 7 ++ beBytes 4 153)) ∧ FrameOurs g16bs6 1 (P4 9 (beBytes 4 7 ++ beBytes 4 153)) ∧ (∀ (n : ℕ), g16bs6.rd
    F.CWY_CNT_COUNT n + 2 < 2 ^ 32) ∧ (cwParse (P4 9 (beBytes 4 7 ++ beBytes 4 153))).type = cwRRSP ∧ (g16bs6.rd F.CWY_RA_CMD_GO = 1 ∧ beAt (cwParse
    (P4 9 (beBytes 4 7 ++ beBytes 4 153))).payload 2 2 = g16bs6.rd I.raTag)) ∧
  (FrameInPlace g16bs0 1 (P4 10 []) ∧ FrameOurs g16bs0 1 (P4 10 []) ∧ (∀ (n : ℕ), g16bs0.rd F.CWY_CNT_COUNT n + 2 < 2 ^ 32) ∧ (cwParse (P4 10 [])).type
    = cwFENCE ∧ g16bs0.rd F.FUS_PMMISC_RFENCE = 0) := by
  refine ⟨?r1, ?r2, ?r3, ?r4, ?r5, ?r6, ?r7, ?r8, ?r9, ?r10, ?r11, ?r12, ?r13, ?r14, ?r15⟩
  all_goals try unfold FrameInPlace
  all_goals try unfold FrameOurs
  all_goals try unfold LinkOpen
  all_goals try decide +kernel
  all_goals repeat' apply And.intro
  all_goals first
    | decide +kernel
    | exact every_value _ _ (fun v => v + 2 < 2 ^ 32) (by decide +kernel)
    | exact every_value _ _ (fun v => v = 0) (by decide +kernel)

/-- States and operands that meet the hypotheses of CausewayMessagesActAtTheirDevice, clause by clause: each group in parentheses meets
those of one clause together. -/
theorem test_meets_CausewayMessagesActAtTheirDevice_3 :
  (FrameInPlace g16bs7 1 (P4 10 []) ∧ FrameOurs g16bs7 1 (P4 10 []) ∧ (∀ (n : ℕ), g16bs7.rd F.CWY_CNT_COUNT n + 2 < 2 ^ 32) ∧ (cwParse (P4 10 [])).type
    = cwFENCE ∧ g16bs7.rd F.FUS_PMMISC_RFENCE = 1 ∧ g16bs7.mode ≠ mRESET ∧ g16bs7.mode ≠ mFENCED) ∧
  (FrameInPlace g16bs0 1 g16bs14 ∧ FrameOurs g16bs0 1 g16bs14 ∧ (∀ (n : ℕ), g16bs0.rd F.CWY_CNT_COUNT n + 2 < 2 ^ 32) ∧ (cwParse g16bs14).type =
    cwPKTFWD ∧ takeCells (puts g16bs0 (arrived g16bs0 1 g16bs14)) 24 (((List.drop 16 (cwParse g16bs14).payload).length + 255) / 256) = none) ∧
  (FrameInPlace (C []) 1 g16bs14 ∧ FrameOurs (C []) 1 g16bs14 ∧ (∀ (n : ℕ), (C []).rd F.CWY_CNT_COUNT n + 2 < 2 ^ 32) ∧ (cwParse g16bs14).type =
    cwPKTFWD) ∧
  (FrameInPlace g16bs0 1 (P4 2 (bridgeBytes ents)) ∧ FrameOurs g16bs0 1 (P4 2 (bridgeBytes ents)) ∧ (∀ (n : ℕ), g16bs0.rd F.CWY_CNT_COUNT n + 2 < 2 ^
    32) ∧ (cwParse (P4 2 (bridgeBytes ents))).type = cwBRIDGE ∧ (cwParse (P4 2 (bridgeBytes ents))).payload = bridgeBytes ents ∧ ents.length ≤ 64 ∧ (∀
    e ∈ ents, e.1 < 1024 ∧ e.2.2.length = if e.2.1 = true then 64 else 32)) ∧
  (FrameInPlace g16bs0 0 g16bs15 ∧ FrameOurs g16bs0 0 g16bs15 ∧ (∀ (n : ℕ), g16bs0.rd F.CWY_CNT_COUNT n + 2 < 2 ^ 32) ∧ (cwParse g16bs15).type = cwBOOT
    ∧ cwBooting g16bs0 = false ∧ beAt (cwParse g16bs15).payload 0 4 ≠ 0) ∧
  (FrameInPlace bt 0 g16bs15 ∧ FrameOurs bt 0 g16bs15 ∧ (∀ (n : ℕ), bt.rd F.CWY_CNT_COUNT n + 2 < 2 ^ 32) ∧ (cwParse g16bs15).type = cwBOOT ∧ cwBooting
    bt = true ∧ beAt (cwParse g16bs15).payload 0 4 = 1 ∧ beAt (cwParse g16bs15).payload 4 4 < 8388608 ∧ beAt (cwParse g16bs15).payload 4 4 + ((cwParse
    g16bs15).payload.length - 8) ≤ 8388608) ∧
  (FrameInPlace bt 0 g16bs16 ∧ FrameOurs bt 0 g16bs16 ∧ (∀ (n : ℕ), bt.rd F.CWY_CNT_COUNT n + 2 < 2 ^ 32) ∧ (cwParse g16bs16).type = cwBOOT ∧ cwBooting
    bt = true ∧ beAt (cwParse g16bs16).payload 0 4 = 1 ∧ 8388608 < beAt (cwParse g16bs16).payload 4 4 + ((cwParse g16bs16).payload.length - 8)) ∧
  (FrameInPlace bt 0 (P4 12 (beBytes 4 2 ++ beBytes 4 0)) ∧ FrameOurs bt 0 (P4 12 (beBytes 4 2 ++ beBytes 4 0)) ∧ (∀ (n : ℕ), bt.rd F.CWY_CNT_COUNT n +
    2 < 2 ^ 32) ∧ (cwParse (P4 12 (beBytes 4 2 ++ beBytes 4 0))).type = cwBOOT ∧ cwBooting bt = true ∧ beAt (cwParse (P4 12 (beBytes 4 2 ++ beBytes 4
    0))).payload 0 4 = 2) ∧
  (FrameInPlace bt 0 (P4 12 (beBytes 4 0 ++ [1, 2, 3, 4])) ∧ FrameOurs bt 0 (P4 12 (beBytes 4 0 ++ [1, 2, 3, 4])) ∧ (∀ (n : ℕ), bt.rd F.CWY_CNT_COUNT n
    + 2 < 2 ^ 32) ∧ (cwParse (P4 12 (beBytes 4 0 ++ [1, 2, 3, 4]))).type = cwBOOT ∧ cwBooting bt = true ∧ beAt (cwParse (P4 12 (beBytes 4 0 ++ [1, 2,
    3, 4]))).payload 0 4 ≠ 1 ∧ beAt (cwParse (P4 12 (beBytes 4 0 ++ [1, 2, 3, 4]))).payload 0 4 ≠ 2) := by
  refine ⟨?r1, ?r2, ?r3, ?r4, ?r5, ?r6, ?r7, ?r8, ?r9⟩
  all_goals try unfold FrameInPlace
  all_goals try unfold FrameOurs
  all_goals try decide +kernel
  all_goals repeat' apply And.intro
  all_goals first
    | decide +kernel
    | exact every_value _ _ (fun v => v + 2 < 2 ^ 32) (by decide +kernel)
    | exact every_value _ _ (fun v => v = 0) (by decide +kernel)

end Messages

namespace Migrations

def T1 : Nat := 123456 + 10000000
def E (st t : Nat) (l : List (Fld × Nat × Nat)) : State := C ([(F.CWY_M_PEER_PEERDEV, 0, 9), (F.CWY_M_PEER_PEERDEV, 1, 9), (F.CWY_M_CTX_CID, 1, 0x30), (F.CWY_M_CTX_CID, 0, 0x21), (F.CWY_M_CTX_TID, 0, 5), (F.CWY_M_T_T, 0, t), (F.CWY_M_CTL_MIGID, 0, 7), (F.CWY_M_STAT_STATE, 0, st), (F.PMU_MODE_CURRENT, 0, mSERVICE)] ++ l)
def near : Nat := 123456 + 50000
def awy : List (Fld × Nat × Nat) := [(F.CWY_ROUTE_VALID, 9, 0)]
def g17s0 : State := E miFROZEN near awy
def g17s1 : State := E miWAITARM near awy
def P4 (t : Nat) (p : List Byte) := fb t 3 9 5 0 4 p
def ctl (op why id t mask : Nat) : List Byte := P4 cwMIGCTL (beBytes 4 (op * 2 ^ 24 + why * 2 ^ 16 + id) ++ beBytes 4 t ++ beBytes 4 (mask * 65536) ++ [0, 0, 0, 0])
def pg (kind v id ofs : Nat) (d : List Byte) : List Byte := P4 cwMIGPAGE (beBytes 4 (kind * 2 ^ 24 + v * 2 ^ 16 + id) ++ beBytes 4 ofs ++ [0,0,0,0,0,0,0,0] ++ d)
def g17x0 : State := E miRECEIVING 1 [(F.MLS_ERRSEL_SEL, 0, 0)]
def g17x1 : State := E miCOMMITTED (2 ^ 32 + 123456 - 2100000000) [(F.MLS_ERRSEL_SEL, 0, 0)]
def g17x2 : State := E miRUNNING (2 ^ 32 + 123456 - 2100000000) [(F.MLS_ERRSEL_SEL, 0, 0)]
def g17x3 : State := E miGRACE (2 ^ 32 + 123456 - 2100000000) [(F.MLS_ERRSEL_SEL, 0, 0)]
def g17x4 : State := E miRECEIVING T1 [(I.mapLvl, entry 33 0, 2), (F.CWY_M_STAT_PAGES, 0, 1)]
def g17x5 : State := E miRECEIVING T1 [(F.TSU_T_CFG_EN, 5, 1)]

/-- States and operands that meet the hypotheses of MigrationsFollowTheirTimes, clause by clause: each group in parentheses meets
those of one clause together. -/
theorem test_meets_MigrationsFollowTheirTimes_1 :
  ((base mRESET).fabric = false) ∧
  (g17s0.fabric = true ∧ bitOf (setBit 0 31) 30 = false ∧ miBusy g17s0 0 = true) ∧
  ((base mSERVICE).fabric = true ∧ bitOf (setBit 2684354567 31) 30 = false ∧ miBusy (base mSERVICE) 0 = false ∧ bitOf (setBit 2684354567 31) 29 = true) ∧
  ((E 0 T1 []).fabric = true ∧ bitOf (setBit 0 31) 30 = false ∧ miBusy (E 0 T1 []) 0 = false ∧ bitOf (setBit 0 31) 29 = false ∧ (∀ p < 16, lvl (E 0 T1
    []) (miCid (E 0 T1 []) 0) p ≠ 1) ∧ PeerOpen (E 0 T1 []) 0 1) ∧
  (g17s0.fabric = true ∧ (bitOf (setBit 0 30) 31 = false ∨ miBusy g17s0 0 = true) ∧ miPRECOPY ≤ miSt g17s0 0 ∧ miSt g17s0 0 ≤ miFROZEN) ∧
  ((base mSERVICE).fabric = true ∧ (bitOf (setBit 0 30) 31 = false ∨ miBusy (base mSERVICE) 0 = true) ∧ (miSt (base mSERVICE) 0 < miPRECOPY ∨ miFROZEN <
    miSt (base mSERVICE) 0) ∧ miSt (base mSERVICE) 0 ≠ miRECEIVING) ∧
  ((E miRECEIVING T1 []).fabric = true ∧ (bitOf (setBit 0 30) 31 = false ∨ miBusy (E miRECEIVING T1 []) 0 = true) ∧ miSt (E miRECEIVING T1 []) 0 =
    miRECEIVING ∧ PeerOpen (E miRECEIVING T1 []) 0 1 ∧ AloneInContext (E miRECEIVING T1 []) 0) ∧
  ((¬((base mRESET).fabric = true ∧ miSt (base mRESET) 0 = miARMSEEN ∧ -↑(miFrz (base mRESET) 0) ≤ sinceT (base mRESET) 0)) ∧ miSt (base mRESET) 0 ≠
    miFROZEN) ∧
  (((E miARMSEEN near awy).fabric = true ∧ miSt (E miARMSEEN near awy) 0 = miARMSEEN ∧ -↑(miFrz (E miARMSEEN near awy) 0) ≤ sinceT (E miARMSEEN near
    awy) 0) ∧ (miHeld (puts (taskRegWrite (E miARMSEEN near awy) (miTid (E miARMSEEN near awy) 0) 260 (putBit (cfgWord (E miARMSEEN near awy) (miTid
    (E miARMSEEN near awy) 0)) 31 false)) [(I.mTask, 0, 1), (F.CWY_M_STAT_STATE, 0, miFROZEN)]) 0 = true ∨ miQuar (puts (taskRegWrite (E miARMSEEN
    near awy) (miTid (E miARMSEEN near awy) 0) 260 (putBit (cfgWord (E miARMSEEN near awy) (miTid (E miARMSEEN near awy) 0)) 31 false)) [(I.mTask, 0,
    1), (F.CWY_M_STAT_STATE, 0, miFROZEN)]) 0 = true ∨ cwRoute (puts (taskRegWrite (E miARMSEEN near awy) (miTid (E miARMSEEN near awy) 0) 260 (putBit
    (cfgWord (E miARMSEEN near awy) (miTid (E miARMSEEN near awy) 0)) 31 false)) [(I.mTask, 0, 1), (F.CWY_M_STAT_STATE, 0, miFROZEN)]) (miPeer (puts
    (taskRegWrite (E miARMSEEN near awy) (miTid (E miARMSEEN near awy) 0) 260 (putBit (cfgWord (E miARMSEEN near awy) (miTid (E miARMSEEN near awy)
    0)) 31 false)) [(I.mTask, 0, 1), (F.CWY_M_STAT_STATE, 0, miFROZEN)]) 0) = none)) ∧
  (miSt g17s0 0 = miFROZEN ∧ (miHeld g17s0 0 = true ∨ miQuar g17s0 0 = true ∨ cwRoute g17s0 (miPeer g17s0 0) = none)) ∧
  (miSt (E miFROZEN T1 []) 0 = miFROZEN ∧ (¬(miHeld (E miFROZEN T1 []) 0 = true ∨ miQuar (E miFROZEN T1 []) 0 = true ∨ cwRoute (E miFROZEN T1 [])
    (miPeer (E miFROZEN T1 []) 0) = none)) ∧ PeerOpen (E miFROZEN T1 []) 0 1 ∧ ((E miFROZEN T1 []).rd F.CWY_M_KEY0_VALID = 0 ∧ (E miFROZEN T1 []).rd
    F.CWY_M_KEY1_VALID = 0) ∧ (∀ p < 16, lvl (E miFROZEN T1 []) (miCid (E miFROZEN T1 []) 0) p ≠ 1) ∧ clsDraining (E miFROZEN T1 []) = false ∧ (E
    miFROZEN T1 []).rd F.CWY_M_CTL_TDM = 0 ∧ (E miFROZEN T1 []).rd F.CWY_M_JBLEN_LEN = 0) ∧
  ((base mSERVICE).fabric = true ∧ (¬(miPRECOPY ≤ miSt (base mSERVICE) 0 ∧ miSt (base mSERVICE) 0 ≤ miFROZEN ∧ -↑(miGuard (base mSERVICE) 0) ≤ sinceT
    (base mSERVICE) 0))) ∧
  ((E miARMSEEN near []).fabric = true ∧ (miPRECOPY ≤ miSt (E miARMSEEN near []) 0 ∧ miSt (E miARMSEEN near []) 0 ≤ miFROZEN ∧ -↑(miGuard (E miARMSEEN
    near []) 0) ≤ sinceT (E miARMSEEN near []) 0) ∧ (∀ (r : ℕ), ¬(miSt (E miARMSEEN near []) 0 < miARMSEEN ∧ r = rsTIMEOUT ∨ miARMSEEN ≤ miSt (E
    miARMSEEN near []) 0 ∧ (miHeld (E miARMSEEN near []) 0 = true ∧ r = rsBUSYJOB ∨ miHeld (E miARMSEEN near []) 0 = false ∧ (miQuar (E miARMSEEN near
    []) 0 = true ∧ r = rsQUAR ∨ miQuar (E miARMSEEN near []) 0 = false ∧ (tdmBusy (E miARMSEEN near []) 0 = true ∧ r = rsTDMBUSY ∨ tdmBusy (E
    miARMSEEN near []) 0 = false ∧ (cwRoute (E miARMSEEN near []) (miPeer (E miARMSEEN near []) 0) = none ∧ r = rsLINKDOWN ∨ ¬cwRoute (E miARMSEEN
    near []) (miPeer (E miARMSEEN near []) 0) = none ∧ (E miARMSEEN near []).rd F.CWY_M_CTL_ABORT = 1 ∧ r = rsUSER))))))) ∧
  (g17s1.fabric = true ∧ (miPRECOPY ≤ miSt g17s1 0 ∧ miSt g17s1 0 ≤ miFROZEN ∧ -↑(miGuard g17s1 0) ≤ sinceT g17s1 0) ∧ (miSt g17s1 0 < miARMSEEN ∧ 2 =
    rsTIMEOUT ∨ miARMSEEN ≤ miSt g17s1 0 ∧ (miHeld g17s1 0 = true ∧ 2 = rsBUSYJOB ∨ miHeld g17s1 0 = false ∧ (miQuar g17s1 0 = true ∧ 2 = rsQUAR ∨
    miQuar g17s1 0 = false ∧ (tdmBusy g17s1 0 = true ∧ 2 = rsTDMBUSY ∨ tdmBusy g17s1 0 = false ∧ (cwRoute g17s1 (miPeer g17s1 0) = none ∧ 2 =
    rsLINKDOWN ∨ ¬cwRoute g17s1 (miPeer g17s1 0) = none ∧ g17s1.rd F.CWY_M_CTL_ABORT = 1 ∧ 2 = rsUSER))))) ∧ AloneInContext g17s1 0 ∧ (g17s1.rd
    F.CWY_M_KEY0_VALID = 0 ∧ g17s1.rd F.CWY_M_KEY1_VALID = 0) ∧ g17s1.rd I.mTask = 0 ∧ cwRoute g17s1 (miPeer g17s1 0) = none ∧ g17s1.rd
    F.CWY_CNT_COUNT + 2 < 2 ^ 32) ∧
  ((E miPRECOPY near []).fabric = true ∧ (miPRECOPY ≤ miSt (E miPRECOPY near []) 0 ∧ miSt (E miPRECOPY near []) 0 ≤ miFROZEN ∧ -↑(miGuard (E miPRECOPY
    near []) 0) ≤ sinceT (E miPRECOPY near []) 0) ∧ (miSt (E miPRECOPY near []) 0 < miARMSEEN ∧ 2 = rsTIMEOUT ∨ miARMSEEN ≤ miSt (E miPRECOPY near [])
    0 ∧ (miHeld (E miPRECOPY near []) 0 = true ∧ 2 = rsBUSYJOB ∨ miHeld (E miPRECOPY near []) 0 = false ∧ (miQuar (E miPRECOPY near []) 0 = true ∧ 2 =
    rsQUAR ∨ miQuar (E miPRECOPY near []) 0 = false ∧ (tdmBusy (E miPRECOPY near []) 0 = true ∧ 2 = rsTDMBUSY ∨ tdmBusy (E miPRECOPY near []) 0 =
    false ∧ (cwRoute (E miPRECOPY near []) (miPeer (E miPRECOPY near []) 0) = none ∧ 2 = rsLINKDOWN ∨ ¬cwRoute (E miPRECOPY near []) (miPeer (E
    miPRECOPY near []) 0) = none ∧ (E miPRECOPY near []).rd F.CWY_M_CTL_ABORT = 1 ∧ 2 = rsUSER))))) ∧ AloneInContext (E miPRECOPY near []) 0 ∧ ((E
    miPRECOPY near []).rd F.CWY_M_KEY0_VALID = 0 ∧ (E miPRECOPY near []).rd F.CWY_M_KEY1_VALID = 0) ∧ (E miPRECOPY near []).rd I.mTask = 0 ∧ PeerOpen
    (E miPRECOPY near []) 0 1) ∧
  ((base mSERVICE).fabric = true ∧ (sinceT (base mSERVICE) 0 < 0 ∨ miSt (base mSERVICE) 0 ≠ miRECEIVING ∧ miSt (base mSERVICE) 0 ≠ miARMED)) ∧
  (g17x0.fabric = true ∧ 0 ≤ sinceT g17x0 0 ∧ AloneInContext g17x0 0 ∧ miSt g17x0 0 = miRECEIVING) := by
  refine ⟨?r1, ⟨?h2, ?h3, ?r2⟩, ⟨?h5, ?r3⟩, ?r4, ⟨?h2, ?r5⟩, ⟨?h5, ?r6⟩, ?r7, ?r8, ?r9, ?r10, ?r11, ⟨?h5, ?r12⟩, ?r13, ?r14, ?r15, ⟨?h5, ?r16⟩, ?r17⟩
  all_goals try unfold AloneInContext
  all_goals try unfold PeerOpen
  all_goals try decide +kernel
  all_goals repeat' apply And.intro
  all_goals first
    | decide +kernel
    | (intro r h; rcases h with ⟨h, _⟩ | ⟨_, ⟨h, _⟩ | ⟨_, ⟨h, _⟩ | ⟨_, ⟨h, _⟩ | ⟨_, ⟨h, _⟩ | ⟨_, h, _⟩⟩⟩⟩⟩ <;> revert h <;> decide +kernel)
    | exact every_value _ _ (fun v => v = 0) (by decide +kernel)

/-- States and operands that meet the hypotheses of MigrationsFollowTheirTimes, clause by clause: each group in parentheses meets
those of one clause together. -/
theorem test_meets_MigrationsFollowTheirTimes_2 :
  ((E miARMED 1 [(F.MLS_ERRSEL_SEL, 0, 0)]).fabric = true ∧ 0 ≤ sinceT (E miARMED 1 [(F.MLS_ERRSEL_SEL, 0, 0)]) 0 ∧ AloneInContext (E miARMED 1
    [(F.MLS_ERRSEL_SEL, 0, 0)]) 0 ∧ miSt (E miARMED 1 [(F.MLS_ERRSEL_SEL, 0, 0)]) 0 = miARMED ∧ bitOf ((E miARMED 1 [(F.MLS_ERRSEL_SEL, 0, 0)]).rd
    F.MLS_ERRSEL_SEL) 9 = false) ∧
  ((base mSERVICE).fabric = true ∧ (sinceT (base mSERVICE) 0 < ↑(miAckwait (base mSERVICE) 0) ∨ miSt (base mSERVICE) 0 ≠ miCOMMITTED ∧ miSt (base
    mSERVICE) 0 ≠ miRUNNING)) ∧
  (g17x1.fabric = true ∧ ↑(miAckwait g17x1 0) ≤ sinceT g17x1 0 ∧ AloneInContext g17x1 0 ∧ miSt g17x1 0 = miCOMMITTED ∧ bitOf (g17x1.rd F.MLS_ERRSEL_SEL)
    9 = false) ∧
  (g17x2.fabric = true ∧ ↑(miAckwait g17x2 0) ≤ sinceT g17x2 0 ∧ AloneInContext g17x2 0 ∧ miSt g17x2 0 = miRUNNING) ∧
  ((base mSERVICE).fabric = true ∧ (sinceT (base mSERVICE) 0 < ↑(miGrace (base mSERVICE) 0) ∨ miSt (base mSERVICE) 0 ≠ miGRACE)) ∧
  (g17x3.fabric = true ∧ ↑(miGrace g17x3 0) ≤ sinceT g17x3 0 ∧ miSt g17x3 0 = miGRACE ∧ AloneInContext g17x3 0 ∧ (g17x3.rd F.CWY_M_KEY0_VALID = 0 ∧
    g17x3.rd F.CWY_M_KEY1_VALID = 0)) := by
  refine ⟨?r1, ⟨?h6, ?r2⟩, ?r3, ?r4, ⟨?h6, ?r5⟩, ?r6⟩
  all_goals try unfold AloneInContext
  all_goals try decide +kernel
  all_goals repeat' apply And.intro
  all_goals first
    | decide +kernel
    | exact every_value _ _ (fun v => v = 0) (by decide +kernel)

/-- States and operands that meet the hypotheses of MigrationFramesMoveTheirEntry, clause by clause: each group in parentheses meets
those of one clause together. -/
theorem test_meets_MigrationFramesMoveTheirEntry_1 :
  ((cwParse [1, 2]).type ≠ cwMIGPAGE) ∧
  ((¬((cwParse [1, 2]).type = cwMIGCTL ∧ byteAt [1, 2] 16 = opPCDONE))) ∧
  ((¬((cwParse [1, 2]).type = cwMIGCTL ∧ byteAt [1, 2] 16 = opARMED))) ∧
  ((¬((cwParse [1, 2]).type = cwMIGCTL ∧ byteAt [1, 2] 16 = opCOMMIT))) ∧
  ((¬((cwParse [1, 2]).type = cwMIGCTL ∧ byteAt [1, 2] 16 = opCOMMITACK))) ∧
  ((¬((cwParse [1, 2]).type = cwMIGCTL ∧ byteAt [1, 2] 16 = opABORT))) ∧
  (FrameInPlace (C []) 1 (pg 0 0 7 0 (List.replicate 16 5)) ∧ FrameOurs (C []) 1 (pg 0 0 7 0 (List.replicate 16 5)) ∧ (C []).rd F.CWY_CNT_COUNT 2 + 2 <
    2 ^ 32 ∧ 16 ≤ (cwParse (pg 0 0 7 0 (List.replicate 16 5))).payload.length ∧ (cwParse (pg 0 0 7 0 (List.replicate 16 5))).type = cwMIGPAGE ∧
    miMatch (C []) (cwParse (pg 0 0 7 0 (List.replicate 16 5))).src (beAt (cwParse (pg 0 0 7 0 (List.replicate 16 5))).payload 2 2) [miRECEIVING,
    miARMED] = none) ∧
  (FrameInPlace (E miRECEIVING T1 []) 1 (pg 1 0 7 0 (List.replicate 16 5)) ∧ FrameOurs (E miRECEIVING T1 []) 1 (pg 1 0 7 0 (List.replicate 16 5)) ∧ (E
    miRECEIVING T1 []).rd F.CWY_CNT_COUNT 2 + 2 < 2 ^ 32 ∧ 16 ≤ (cwParse (pg 1 0 7 0 (List.replicate 16 5))).payload.length ∧ (cwParse (pg 1 0 7 0
    (List.replicate 16 5))).type = cwMIGPAGE ∧ miMatch (E miRECEIVING T1 []) (cwParse (pg 1 0 7 0 (List.replicate 16 5))).src (beAt (cwParse (pg 1 0 7
    0 (List.replicate 16 5))).payload 2 2) [miRECEIVING, miARMED] = some 0 ∧ byteAt (cwParse (pg 1 0 7 0 (List.replicate 16 5))).payload 0 = 1 ∧ beAt
    (cwParse (pg 1 0 7 0 (List.replicate 16 5))).payload 4 4 + (List.drop 16 (cwParse (pg 1 0 7 0 (List.replicate 16 5))).payload).length ≤ 65536 ∧ 64
    * (E miRECEIVING T1 []).rd F.CWY_M_JBDST_OFS + beAt (cwParse (pg 1 0 7 0 (List.replicate 16 5))).payload 4 4 + (List.drop 16 (cwParse (pg 1 0 7 0
    (List.replicate 16 5))).payload).length ≤ 33554432) ∧
  (FrameInPlace (E miRECEIVING T1 []) 1 (pg 0 0 7 0 (List.replicate 16 5)) ∧ FrameOurs (E miRECEIVING T1 []) 1 (pg 0 0 7 0 (List.replicate 16 5)) ∧ (E
    miRECEIVING T1 []).rd F.CWY_CNT_COUNT 2 + 2 < 2 ^ 32 ∧ 16 ≤ (cwParse (pg 0 0 7 0 (List.replicate 16 5))).payload.length ∧ (cwParse (pg 0 0 7 0
    (List.replicate 16 5))).type = cwMIGPAGE ∧ miMatch (E miRECEIVING T1 []) (cwParse (pg 0 0 7 0 (List.replicate 16 5))).src (beAt (cwParse (pg 0 0 7
    0 (List.replicate 16 5))).payload 2 2) [miRECEIVING, miARMED] = some 0 ∧ byteAt (cwParse (pg 0 0 7 0 (List.replicate 16 5))).payload 0 = 0 ∧ beAt
    (cwParse (pg 0 0 7 0 (List.replicate 16 5))).payload 4 4 + (List.drop 16 (cwParse (pg 0 0 7 0 (List.replicate 16 5))).payload).length ≤ 4096) ∧
  (FrameInPlace g17x4 1 (pg 0 0 7 0 (List.replicate 16 5)) ∧ FrameOurs g17x4 1 (pg 0 0 7 0 (List.replicate 16 5)) ∧ g17x4.rd F.CWY_CNT_COUNT 2 + 2 < 2 ^
    32 ∧ 16 ≤ (cwParse (pg 0 0 7 0 (List.replicate 16 5))).payload.length ∧ (cwParse (pg 0 0 7 0 (List.replicate 16 5))).type = cwMIGPAGE ∧ miMatch
    g17x4 (cwParse (pg 0 0 7 0 (List.replicate 16 5))).src (beAt (cwParse (pg 0 0 7 0 (List.replicate 16 5))).payload 2 2) [miRECEIVING, miARMED] =
    some 0 ∧ byteAt (cwParse (pg 0 0 7 0 (List.replicate 16 5))).payload 0 = 0 ∧ beAt (cwParse (pg 0 0 7 0 (List.replicate 16 5))).payload 4 4 +
    (List.drop 16 (cwParse (pg 0 0 7 0 (List.replicate 16 5))).payload).length ≤ 4096 ∧ lvl g17x4 (miCid g17x4 0) (byteAt (cwParse (pg 0 0 7 0
    (List.replicate 16 5))).payload 1 % 16) = 2 ∧ (List.filter (fun j => holds g17x4 j (miCid g17x4 0) (byteAt (cwParse (pg 0 0 7 0 (List.replicate 16
    5))).payload 1 % 16)) (frames g17x4) = [])) ∧
  (FrameInPlace (C []) 1 (ctl opPCDONE 3 7 T1 0) ∧ FrameOurs (C []) 1 (ctl opPCDONE 3 7 T1 0) ∧ (C []).rd F.CWY_CNT_COUNT 2 + 2 < 2 ^ 32 ∧ 16 ≤ (cwParse
    (ctl opPCDONE 3 7 T1 0)).payload.length ∧ (cwParse (ctl opPCDONE 3 7 T1 0)).type = cwMIGCTL ∧ byteAt (ctl opPCDONE 3 7 T1 0) 16 = opPCDONE ∧
    miMatch (C []) (cwParse (ctl opPCDONE 3 7 T1 0)).src (beAt (cwParse (ctl opPCDONE 3 7 T1 0)).payload 2 2) [miRECEIVING] = none) ∧
  (FrameInPlace (E miRECEIVING T1 []) 1 (ctl opPCDONE 3 7 T1 1) ∧ FrameOurs (E miRECEIVING T1 []) 1 (ctl opPCDONE 3 7 T1 1) ∧ (E miRECEIVING T1 []).rd
    F.CWY_CNT_COUNT 2 + 2 < 2 ^ 32 ∧ 16 ≤ (cwParse (ctl opPCDONE 3 7 T1 1)).payload.length ∧ (cwParse (ctl opPCDONE 3 7 T1 1)).type = cwMIGCTL ∧
    byteAt (ctl opPCDONE 3 7 T1 1) 16 = opPCDONE ∧ miMatch (E miRECEIVING T1 []) (cwParse (ctl opPCDONE 3 7 T1 1)).src (beAt (cwParse (ctl opPCDONE 3
    7 T1 1)).payload 2 2) [miRECEIVING] = some 0 ∧ opPCDONE = opPCDONE ∧ (¬(beAt (cwParse (ctl opPCDONE 3 7 T1 1)).payload 8 2).land ((E miRECEIVING
    T1 []).rd F.CWY_M_STAT_PAGES) = beAt (cwParse (ctl opPCDONE 3 7 T1 1)).payload 8 2)) ∧
  (FrameInPlace (E miRECEIVING T1 []) 1 (ctl opPCDONE 0 7 near 0) ∧ FrameOurs (E miRECEIVING T1 []) 1 (ctl opPCDONE 0 7 near 0) ∧ (E miRECEIVING T1
    []).rd F.CWY_CNT_COUNT 2 + 2 < 2 ^ 32 ∧ 16 ≤ (cwParse (ctl opPCDONE 0 7 near 0)).payload.length ∧ (cwParse (ctl opPCDONE 0 7 near 0)).type =
    cwMIGCTL ∧ byteAt (ctl opPCDONE 0 7 near 0) 16 = opPCDONE ∧ miMatch (E miRECEIVING T1 []) (cwParse (ctl opPCDONE 0 7 near 0)).src (beAt (cwParse
    (ctl opPCDONE 0 7 near 0)).payload 2 2) [miRECEIVING] = some 0 ∧ opPCDONE = opPCDONE ∧ (beAt (cwParse (ctl opPCDONE 0 7 near 0)).payload 8 2).land
    ((E miRECEIVING T1 []).rd F.CWY_M_STAT_PAGES) = beAt (cwParse (ctl opPCDONE 0 7 near 0)).payload 8 2 ∧ PeerOpen (E miRECEIVING T1 []) 0 1 ∧ (¬beAt
    (cwParse (ctl opPCDONE 0 7 near 0)).payload 4 4 = (E miRECEIVING T1 []).rd F.CWY_M_T_T) ∧ AloneInContext (E miRECEIVING T1 []) 0) := by
  refine ⟨?r1, ?r2, ?r3, ?r4, ?r5, ?r6, ?r7, ?r8, ?r9, ?r10, ?r11, ?r12, ?r13⟩
  all_goals try unfold FrameInPlace
  all_goals try unfold FrameOurs
  all_goals try unfold AloneInContext
  all_goals try unfold PeerOpen
  all_goals try decide +kernel
  all_goals repeat' apply And.intro
  all_goals first
    | decide +kernel
    | exact every_value _ _ (fun v => v = 0) (by decide +kernel)

/-- States and operands that meet the hypotheses of MigrationFramesMoveTheirEntry, clause by clause: each group in parentheses meets
those of one clause together. -/
theorem test_meets_MigrationFramesMoveTheirEntry_2 :
  (FrameInPlace g17x5 1 (ctl opPCDONE 3 7 T1 0) ∧ FrameOurs g17x5 1 (ctl opPCDONE 3 7 T1 0) ∧ g17x5.rd F.CWY_CNT_COUNT 2 + 2 < 2 ^ 32 ∧ 16 ≤ (cwParse
    (ctl opPCDONE 3 7 T1 0)).payload.length ∧ (cwParse (ctl opPCDONE 3 7 T1 0)).type = cwMIGCTL ∧ byteAt (ctl opPCDONE 3 7 T1 0) 16 = opPCDONE ∧
    miMatch g17x5 (cwParse (ctl opPCDONE 3 7 T1 0)).src (beAt (cwParse (ctl opPCDONE 3 7 T1 0)).payload 2 2) [miRECEIVING] = some 0 ∧ opPCDONE =
    opPCDONE ∧ (beAt (cwParse (ctl opPCDONE 3 7 T1 0)).payload 8 2).land (g17x5.rd F.CWY_M_STAT_PAGES) = beAt (cwParse (ctl opPCDONE 3 7 T1
    0)).payload 8 2 ∧ PeerOpen g17x5 0 1 ∧ beAt (cwParse (ctl opPCDONE 3 7 T1 0)).payload 4 4 = g17x5.rd F.CWY_M_T_T ∧ (¬((∀ v ∈ pagesOf (beAt
    (cwParse (ctl opPCDONE 3 7 T1 0)).payload 8 2), notPresent g17x5 (miCid g17x5 0) v = false) ∧ g17x5.rd F.TSU_T_CFG_EN (miTid g17x5 0) = 0)) ∧
    AloneInContext g17x5 0) ∧
  (FrameInPlace (E miRECEIVING T1 []) 1 (ctl opPCDONE 3 7 T1 0) ∧ FrameOurs (E miRECEIVING T1 []) 1 (ctl opPCDONE 3 7 T1 0) ∧ (E miRECEIVING T1 []).rd
    F.CWY_CNT_COUNT 2 + 2 < 2 ^ 32 ∧ 16 ≤ (cwParse (ctl opPCDONE 3 7 T1 0)).payload.length ∧ (cwParse (ctl opPCDONE 3 7 T1 0)).type = cwMIGCTL ∧
    byteAt (ctl opPCDONE 3 7 T1 0) 16 = opPCDONE ∧ miMatch (E miRECEIVING T1 []) (cwParse (ctl opPCDONE 3 7 T1 0)).src (beAt (cwParse (ctl opPCDONE 3
    7 T1 0)).payload 2 2) [miRECEIVING] = some 0 ∧ opPCDONE = opPCDONE ∧ (beAt (cwParse (ctl opPCDONE 3 7 T1 0)).payload 8 2).land ((E miRECEIVING T1
    []).rd F.CWY_M_STAT_PAGES) = beAt (cwParse (ctl opPCDONE 3 7 T1 0)).payload 8 2 ∧ PeerOpen (E miRECEIVING T1 []) 0 1 ∧ beAt (cwParse (ctl opPCDONE
    3 7 T1 0)).payload 4 4 = (E miRECEIVING T1 []).rd F.CWY_M_T_T ∧ ((∀ v ∈ pagesOf (beAt (cwParse (ctl opPCDONE 3 7 T1 0)).payload 8 2), notPresent
    (E miRECEIVING T1 []) (miCid (E miRECEIVING T1 []) 0) v = false) ∧ (E miRECEIVING T1 []).rd F.TSU_T_CFG_EN (miTid (E miRECEIVING T1 []) 0) = 0)) ∧
  (FrameInPlace (C []) 1 (ctl opARMED 3 7 T1 0) ∧ FrameOurs (C []) 1 (ctl opARMED 3 7 T1 0) ∧ (C []).rd F.CWY_CNT_COUNT 2 + 2 < 2 ^ 32 ∧ 16 ≤ (cwParse
    (ctl opARMED 3 7 T1 0)).payload.length ∧ (cwParse (ctl opARMED 3 7 T1 0)).type = cwMIGCTL ∧ byteAt (ctl opARMED 3 7 T1 0) 16 = opARMED ∧ miMatch
    (C []) (cwParse (ctl opARMED 3 7 T1 0)).src (beAt (cwParse (ctl opARMED 3 7 T1 0)).payload 2 2) [miPRECOPY, miWAITARM] = none) ∧
  (FrameInPlace g17s1 1 (ctl opARMED 3 7 T1 0) ∧ FrameOurs g17s1 1 (ctl opARMED 3 7 T1 0) ∧ g17s1.rd F.CWY_CNT_COUNT 2 + 2 < 2 ^ 32 ∧ 16 ≤ (cwParse (ctl
    opARMED 3 7 T1 0)).payload.length ∧ (cwParse (ctl opARMED 3 7 T1 0)).type = cwMIGCTL ∧ byteAt (ctl opARMED 3 7 T1 0) 16 = opARMED ∧ miMatch g17s1
    (cwParse (ctl opARMED 3 7 T1 0)).src (beAt (cwParse (ctl opARMED 3 7 T1 0)).payload 2 2) [miPRECOPY, miWAITARM] = some 0 ∧ opARMED = opARMED) ∧
  (FrameInPlace (C []) 1 (ctl opCOMMIT 3 7 T1 0) ∧ FrameOurs (C []) 1 (ctl opCOMMIT 3 7 T1 0) ∧ (C []).rd F.CWY_CNT_COUNT 2 + 2 < 2 ^ 32 ∧ 16 ≤ (cwParse
    (ctl opCOMMIT 3 7 T1 0)).payload.length ∧ (cwParse (ctl opCOMMIT 3 7 T1 0)).type = cwMIGCTL ∧ byteAt (ctl opCOMMIT 3 7 T1 0) 16 = opCOMMIT ∧
    miMatch (C []) (cwParse (ctl opCOMMIT 3 7 T1 0)).src (beAt (cwParse (ctl opCOMMIT 3 7 T1 0)).payload 2 2) [miARMED] = none) ∧
  (FrameInPlace (E miARMED 1 [(F.MLS_ERRSEL_SEL, 0, 0)]) 1 (ctl opCOMMIT 3 7 T1 0) ∧ FrameOurs (E miARMED 1 [(F.MLS_ERRSEL_SEL, 0, 0)]) 1 (ctl opCOMMIT
    3 7 T1 0) ∧ (E miARMED 1 [(F.MLS_ERRSEL_SEL, 0, 0)]).rd F.CWY_CNT_COUNT 2 + 2 < 2 ^ 32 ∧ 16 ≤ (cwParse (ctl opCOMMIT 3 7 T1 0)).payload.length ∧
    (cwParse (ctl opCOMMIT 3 7 T1 0)).type = cwMIGCTL ∧ byteAt (ctl opCOMMIT 3 7 T1 0) 16 = opCOMMIT ∧ miMatch (E miARMED 1 [(F.MLS_ERRSEL_SEL, 0,
    0)]) (cwParse (ctl opCOMMIT 3 7 T1 0)).src (beAt (cwParse (ctl opCOMMIT 3 7 T1 0)).payload 2 2) [miARMED] = some 0 ∧ opCOMMIT = opCOMMIT ∧ (0 ≤
    sinceT (E miARMED 1 [(F.MLS_ERRSEL_SEL, 0, 0)]) 0 ∨ tdmBusy (E miARMED 1 [(F.MLS_ERRSEL_SEL, 0, 0)]) 0 = true) ∧ AloneInContext (E miARMED 1
    [(F.MLS_ERRSEL_SEL, 0, 0)]) 0 ∧ bitOf ((E miARMED 1 [(F.MLS_ERRSEL_SEL, 0, 0)]).rd F.MLS_ERRSEL_SEL) 9 = false) ∧
  (FrameInPlace (E miARMED T1 []) 1 (ctl opCOMMIT 3 7 T1 0) ∧ FrameOurs (E miARMED T1 []) 1 (ctl opCOMMIT 3 7 T1 0) ∧ (E miARMED T1 []).rd
    F.CWY_CNT_COUNT 2 + 2 < 2 ^ 32 ∧ 16 ≤ (cwParse (ctl opCOMMIT 3 7 T1 0)).payload.length ∧ (cwParse (ctl opCOMMIT 3 7 T1 0)).type = cwMIGCTL ∧
    byteAt (ctl opCOMMIT 3 7 T1 0) 16 = opCOMMIT ∧ miMatch (E miARMED T1 []) (cwParse (ctl opCOMMIT 3 7 T1 0)).src (beAt (cwParse (ctl opCOMMIT 3 7 T1
    0)).payload 2 2) [miARMED] = some 0 ∧ opCOMMIT = opCOMMIT ∧ sinceT (E miARMED T1 []) 0 < 0 ∧ (E miARMED T1 []).rd F.CWY_M_CTL_TDM = 0 ∧ PeerOpen
    (taskRegWrite (puts (E miARMED T1 []) (arrived (E miARMED T1 []) 1 (ctl opCOMMIT 3 7 T1 0))) (miTid (E miARMED T1 []) 0) 260 (putBit (cfgWord (E
    miARMED T1 []) (miTid (E miARMED T1 []) 0)) 31 true)) 0 1) := by
  refine ⟨?r1, ?r2, ?r3, ?r4, ?r5, ?r6, ?r7⟩
  all_goals try unfold FrameInPlace
  all_goals try unfold FrameOurs
  all_goals try unfold AloneInContext
  all_goals try unfold PeerOpen
  all_goals try decide +kernel
  all_goals repeat' apply And.intro
  all_goals first
    | decide +kernel
    | exact every_value _ _ (fun v => v = 0) (by decide +kernel)

/-- States and operands that meet the hypotheses of MigrationFramesMoveTheirEntry, clause by clause: each group in parentheses meets
those of one clause together. -/
theorem test_meets_MigrationFramesMoveTheirEntry_3 :
  (FrameInPlace (C []) 1 (ctl opCOMMITACK 3 7 T1 0) ∧ FrameOurs (C []) 1 (ctl opCOMMITACK 3 7 T1 0) ∧ (C []).rd F.CWY_CNT_COUNT 2 + 2 < 2 ^ 32 ∧ 16 ≤
    (cwParse (ctl opCOMMITACK 3 7 T1 0)).payload.length ∧ (cwParse (ctl opCOMMITACK 3 7 T1 0)).type = cwMIGCTL ∧ byteAt (ctl opCOMMITACK 3 7 T1 0) 16
    = opCOMMITACK ∧ miMatch (C []) (cwParse (ctl opCOMMITACK 3 7 T1 0)).src (beAt (cwParse (ctl opCOMMITACK 3 7 T1 0)).payload 2 2) [miCOMMITTED] =
    none) ∧
  (FrameInPlace (E miCOMMITTED T1 []) 1 (ctl opCOMMITACK 3 7 T1 0) ∧ FrameOurs (E miCOMMITTED T1 []) 1 (ctl opCOMMITACK 3 7 T1 0) ∧ (E miCOMMITTED T1
    []).rd F.CWY_CNT_COUNT 2 + 2 < 2 ^ 32 ∧ 16 ≤ (cwParse (ctl opCOMMITACK 3 7 T1 0)).payload.length ∧ (cwParse (ctl opCOMMITACK 3 7 T1 0)).type =
    cwMIGCTL ∧ byteAt (ctl opCOMMITACK 3 7 T1 0) 16 = opCOMMITACK ∧ miMatch (E miCOMMITTED T1 []) (cwParse (ctl opCOMMITACK 3 7 T1 0)).src (beAt
    (cwParse (ctl opCOMMITACK 3 7 T1 0)).payload 2 2) [miCOMMITTED] = some 0 ∧ opCOMMITACK = opCOMMITACK) ∧
  (FrameInPlace (C []) 1 (ctl opABORT 3 7 T1 0) ∧ FrameOurs (C []) 1 (ctl opABORT 3 7 T1 0) ∧ (C []).rd F.CWY_CNT_COUNT 2 + 2 < 2 ^ 32 ∧ 16 ≤ (cwParse
    (ctl opABORT 3 7 T1 0)).payload.length ∧ (cwParse (ctl opABORT 3 7 T1 0)).type = cwMIGCTL ∧ byteAt (ctl opABORT 3 7 T1 0) 16 = opABORT ∧ miMatch
    (C []) (cwParse (ctl opABORT 3 7 T1 0)).src (beAt (cwParse (ctl opABORT 3 7 T1 0)).payload 2 2) [miRECEIVING, miARMED] = none) ∧
  (FrameInPlace (E miRECEIVING T1 []) 1 (ctl opABORT 3 7 T1 0) ∧ FrameOurs (E miRECEIVING T1 []) 1 (ctl opABORT 3 7 T1 0) ∧ (E miRECEIVING T1 []).rd
    F.CWY_CNT_COUNT 2 + 2 < 2 ^ 32 ∧ 16 ≤ (cwParse (ctl opABORT 3 7 T1 0)).payload.length ∧ (cwParse (ctl opABORT 3 7 T1 0)).type = cwMIGCTL ∧ byteAt
    (ctl opABORT 3 7 T1 0) 16 = opABORT ∧ miMatch (E miRECEIVING T1 []) (cwParse (ctl opABORT 3 7 T1 0)).src (beAt (cwParse (ctl opABORT 3 7 T1
    0)).payload 2 2) [miRECEIVING, miARMED] = some 0 ∧ opABORT = opABORT ∧ AloneInContext (E miRECEIVING T1 []) 0) := by
  refine ⟨?r1, ?r2, ?r3, ?r4⟩
  all_goals try unfold FrameInPlace
  all_goals try unfold FrameOurs
  all_goals try unfold AloneInContext
  all_goals try decide +kernel
  all_goals repeat' apply And.intro
  all_goals first
    | decide +kernel
    | exact every_value _ _ (fun v => v = 0) (by decide +kernel)

end Migrations

end Sys2Proof.Tests
end

section
/-! PROOFS.  Writes to the register space (chapter 0): what reaches a register, the value each access type
leaves, the select registers, and the statistics counters. -/

namespace Sys2Proof.Machine

open Safety

/-! ## The commands -/

theorem exec_registerWrite (ini : Init) (blk : Fin 18) (off : BitVec 20) (size : Nat) (v : BitVec 64) (s : State) :
    exec (.registerWrite ini blk off size v) s =
      if s.fabric then go (spaceWrite s ini blk.val off.toNat size v.toNat) else go s := rfl

theorem exec_selectWrite (ini : Init) (blk : Fin 18) (wp : Bool) (v : Word) (s : State) :
    exec (.selectWrite ini blk wp v) s =
      if s.fabric then go (regWrite s ini blk.val (if wp then 0x14 else 0x10) v.toNat) else go s := rfl

theorem exec_counterClear (ini : Init) (blk : Fin 18) (off : BitVec 20) (v : Word) (s : State) :
    exec (.counterClear ini blk off v) s =
      if s.fabric && isCounter blk.val off.toNat then go (regWrite s ini blk.val off.toNat v.toNat) else go s := rfl

/-! ## Accesses to the register space (R4, R47) -/

/-- Does an access to the register space reach a register (R4). -/
def ReachesRegister (off size : Nat) : Prop := size = 4 ∧ off % 4 = 0

theorem spaceWrite_aligned (s : State) (ini : Init) (blk v : Nat) {off size : Nat} (h : ReachesRegister off size) :
    spaceWrite s ini blk off size v = regWrite (svcFullClock s ini) ini blk off (v % 2 ^ 32) := by
  simp [spaceWrite, h.1, h.2]

theorem spaceWrite_discarded (s : State) (ini : Init) (blk v : Nat) {off size : Nat} (h : ¬ ReachesRegister off size) :
    spaceWrite s ini blk off size v = svcFullClock s ini :=
  if_neg (by simpa [ReachesRegister] using h)

theorem spaceRead_discarded (s : State) (ini : Init) (blk : Nat) {off size : Nat} (h : ¬ ReachesRegister off size) :
    spaceRead s ini blk off size = (0, svcFullClock s ini) :=
  if_neg (by simpa [ReachesRegister] using h)

/-- Settles O6: an access that is not an aligned word does no more than restore its core's clock. -/
theorem onlyAlignedWordsReachRegisters : Obligations.OnlyAlignedWordsReachRegisters := by
  unfold Obligations.OnlyAlignedWordsReachRegisters
  intro s blk off size v ini hf hna
  have hno : ¬ ReachesRegister off.toNat size := by
    rintro ⟨hsize, halign⟩
    exact hna.elim (· hsize) (· halign)
  refine ⟨?_, ?_, ?_, fun _ => rfl, svc_clock s ini⟩
  · rw [exec_registerWrite, if_pos hf, spaceWrite_discarded _ _ _ _ hno]
  · rw [spaceRead_discarded _ _ _ hno]
  · rw [spaceRead_discarded _ _ _ hno]

/-! ## Fields by their access types (R5, R8, R17) -/

theorem bits_mod_two_pow (v : Nat) {hi lo n : Nat} (h : hi < n) : bits (v % 2 ^ n) hi lo = bits v hi lo := by
  by_cases hlo : lo ≤ hi
  · have hn : 2 ^ n = 2 ^ lo * 2 ^ (n - lo) := by rw [← Nat.pow_add]; congr 1; omega
    unfold bits
    rw [hn, Nat.mod_mul_right_div_self, Nat.mod_mod_of_dvd _ (Nat.pow_dvd_pow 2 (by omega))]
  · simp [bits, show hi + 1 - lo = 0 by omega, Nat.mod_one]

/-- The bits of c that x has and those that x lacks make up c. -/
theorem toNat_and_add_and_compl {w : Nat} (c x : BitVec w) :
    (c &&& x).toNat + (c &&& (x ^^^ BitVec.allOnes w)).toNat = c.toNat := by
  have hdisjoint : (c &&& x) &&& (c &&& (x ^^^ BitVec.allOnes w)) = 0#w := by
    ext i
    cases hx : x[i] <;> simp [hx]
  have hjoin : (c &&& x) ||| (c &&& (x ^^^ BitVec.allOnes w)) = c := by
    ext i
    cases hx : x[i] <;> simp [hx]
  rw [← BitVec.toNat_add_of_and_eq_zero hdisjoint, BitVec.add_eq_or_of_and_eq_zero _ _ hdisjoint, hjoin]

/-- Taking away the bits of c that x has leaves those that x lacks. -/
theorem sub_land_eq_land_compl {w c x : Nat} (hc : c < 2 ^ w) (hx : x < 2 ^ w) :
    c - Nat.land c x = Nat.land c (Nat.xor x (2 ^ w - 1)) := by
  have h := toNat_and_add_and_compl (BitVec.ofNatLT c hc) (BitVec.ofNatLT x hx)
  simp only [BitVec.toNat_and, BitVec.toNat_xor, BitVec.toNat_allOnes, BitVec.toNat_ofNatLT] at h
  exact (Nat.eq_sub_of_add_eq' h).symm

/-- A field after a write holds what its access type says. -/
theorem fieldWrite_rd (s : State) (i : Nat) (f : RegFld) {x : Nat} (hx : x < 2 ^ f.fld.w) :
    (fieldWrite s i f x).rd f.fld i = fieldAfter f (s.rd f.fld i) x := by
  have hcur := s.rd_lt f.fld i
  unfold fieldWrite fieldAfter
  cases f.acc
  case rw | rwh =>
    dsimp only
    split
    · rfl
    · rw [State.rd_wr_same, Nat.mod_eq_of_lt hx]
  case w1c =>
    dsimp only
    rw [State.rd_wr_same, Nat.mod_eq_of_lt (by omega), sub_land_eq_land_compl hcur hx]
  case w1s =>
    exact (State.rd_wr_same ..).trans (Nat.mod_eq_of_lt (Nat.or_lt_two_pow hcur hx))
  case cnt =>
    dsimp only
    split
    · rw [State.rd_wr_same, Nat.zero_mod]
    · rfl
  case ro | wo | ac => rfl

/-- A store to a register gives each of its fields the value of its access type, and changes nothing else. -/
theorem regStore_says (s : State) (r : Reg) (i v : Nat) (hp : r.fields.Pairwise fun a b => a.fld.id ≠ b.fld.id)
    (hw : ∀ f ∈ r.fields, 0 < f.fld.w) :
    (∀ f ∈ r.fields, (regStore s r i v).rd f.fld i =
        fieldAfter f (s.rd f.fld i) (bits v (f.lo + f.fld.w - 1) f.lo)) ∧
      OnlyCells s (regStore s r i v) (r.fields.map fun f => (f.fld, i)) := by
  refine ⟨fun f hf => ?_, fields_over v i r.fields s⟩
  have hx := bits_lt v (f.lo + f.fld.w - 1) f.lo
  rw [show f.lo + f.fld.w - 1 + 1 - f.lo = f.fld.w by have := hw f hf; omega] at hx
  exact (field_of v i r.fields hp s f hf).trans (fieldWrite_rd s i f hx)

/-! ## The tables -/

theorem tableWrite_none (s : State) (ini : Init) {blk off : Nat} (v : Nat) (h : findReg off (regTable blk) = none) :
    tableWrite s ini blk off v = s := by
  simp [tableWrite, h]

theorem tableWrite_arr (s : State) (ini : Init) {blk off : Nat} (v : Nat) {r : Reg} {k : Nat}
    (h : findReg off (regTable blk) = some (r, k)) (hr : r.kind = .arr) :
    tableWrite s ini blk off v = regStore s r k v := by
  simp [tableWrite, h, regInst, hr]

theorem regWrite_sys (s : State) (ini : Init) (v : Nat) {off : Nat} (h : off ≠ 0x814) :
    regWrite s ini (0 : Fin 18).val off v = tableWrite s ini bSYS off v := if_neg h

theorem sys_fields_within_word : ∀ r ∈ regTable_SYS, ∀ f ∈ r.fields, f.lo + f.fld.w ≤ 32 := by decide

/-- REGISTER_WRITE of an aligned word to SYS goes by the tables, but for SYS_DEVNUM. -/
theorem exec_registerWrite_sys {s : State} {ini : Init} (off : BitVec 20) (v : BitVec 64) (hini : ∀ n : Fin 4, ini ≠ .svc n)
    (hf : s.fabric = true) (ha : off.toNat % 4 = 0) (hd : off.toNat ≠ 0x814) :
    exec (.registerWrite ini 0 off 4 v) s = .next (tableWrite s ini bSYS off.toNat (v.toNat % 2 ^ 32)) := by
  rw [exec_registerWrite, if_pos hf, spaceWrite_aligned s ini _ _ ⟨rfl, ha⟩, svc_clock s ini hini,
    regWrite_sys s ini _ hd]

theorem registerWrite_sys_register {s : State} {ini : Init} (off : BitVec 20) (v : BitVec 64) (hini : ∀ n : Fin 4, ini ≠ .svc n)
    (hf : s.fabric = true) (ha : off.toNat % 4 = 0) (hd : off.toNat ≠ 0x814) {r : Reg} {k : Nat}
    (hr : findReg off.toNat regTable_SYS = some (r, k)) :
    Does (.registerWrite ini 0 off 4 v) s fun t =>
      (∀ f ∈ r.fields, t.rd f.fld k = fieldAfter f (s.rd f.fld k) (bits v.toNat (f.lo + f.fld.w - 1) f.lo)) ∧
        OnlyCells s t (r.fields.map fun f => (f.fld, k)) := by
  obtain ⟨harr, hpair, hwidth⟩ := sys_kinds r (findReg_mem hr)
  obtain ⟨hvals, honly⟩ := regStore_says s r k (v.toNat % 2 ^ 32) hpair hwidth
  refine ⟨_, exec_registerWrite_sys off v hini hf ha hd, ?_⟩
  rw [tableWrite_arr s ini _ hr harr]
  refine ⟨fun f hmem => ?_, honly⟩
  have hword := sys_fields_within_word r (findReg_mem hr) f hmem
  have hpos := hwidth f hmem
  rw [hvals f hmem, bits_mod_two_pow _ (by omega)]

/-! ## Select registers (R11–R14) -/

/-- A block with a select register has it at offset 0x10. -/
theorem regWrite_select (s : State) (ini : Init) {blk : Nat} {sel : Fld × Fld × Nat} (v : Nat) (h : selectOf blk = some sel) :
    regWrite s ini blk 0x10 v = selectWrite s ini sel v := by
  unfold regWrite
  rw [h]
  rfl

theorem wpSelect_ids : wpSelect.1.id ≠ wpSelect.2.1.id ∧ wpSelect.1.w = 16 ∧ wpSelect.2.1.w = 1 := by decide

theorem exec_selectWrite_sel {s : State} (ini : Init) {blk : Fin 18} {wp : Bool} (v : Word) {sel : Fld × Fld × Nat}
    (hf : s.fabric = true) (h : if wp = true then blk = 6 ∧ sel = wpSelect else selectOf blk.val = some sel) :
    exec (.selectWrite ini blk wp v) s = .next (selectWrite s ini sel v.toNat) ∧
      sel.1.id ≠ sel.2.1.id ∧ sel.1.w = 16 ∧ sel.2.1.w = 1 := by
  rw [exec_selectWrite, if_pos hf]
  cases wp with
  | true =>
    obtain ⟨rfl, rfl⟩ := h
    exact ⟨rfl, wpSelect_ids⟩
  | false =>
    have hsel : selectOf blk.val = some sel := h
    exact ⟨congrArg _ (regWrite_select s ini v.toNat hsel), select_ids blk.val _ _ _ hsel⟩

/-! ## Counters (R17) -/

/-- Every counter of the list is a 32-bit counter field that fills a register of no window. -/
theorem counter_register : ∀ p ∈ counters, p.2.1 < 2 ^ 20 ∧ p.2.2.1.w = 32 ∧
    (findReg p.2.1 (regTable p.1.val)).map (fun e => (e.1.kind, e.1.fields, e.2)) =
      some (.arr, [⟨0, p.2.2.1, .cnt, []⟩], p.2.2.2) := by decide

/-- No counter of the list has an effect beyond its field. -/
theorem regWrite_counter : ∀ p ∈ counters, ∀ (s : State) (ini : Init) (v : Nat),
    regWrite s ini p.1.val p.2.1 v = tableWrite s ini p.1.val p.2.1 v := by
  simp only [counters, List.forall_mem_append, List.forall_mem_map]
  refine ⟨⟨⟨⟨?single, ?clu⟩, ?pke⟩, ?tdx⟩, ?cwy⟩
  case single => intro p hp; fin_cases hp <;> exact fun _ _ _ => rfl
  all_goals intro k _; fin_cases k <;> exact fun _ _ _ => rfl

theorem isCounter_counter {p : Fin 18 × Nat × Fld × Nat} (hp : p ∈ counters) : isCounter p.1.val p.2.1 = true := by
  obtain ⟨-, -, hreg⟩ := counter_register p hp
  obtain ⟨⟨r, k⟩, hfind, he⟩ := Option.map_eq_some_iff.mp hreg
  simp only [Prod.mk.injEq] at he
  simp [isCounter, hfind, he.2.1]

/-- COUNTER_CLEAR of a counter of the list: zero clears it, anything else does nothing. -/
theorem exec_counterClear_counter {s : State} (ini : Init) (v : Word) (hf : s.fabric = true)
    {p : Fin 18 × Nat × Fld × Nat} (hp : p ∈ counters) :
    exec (.counterClear ini p.1 (BitVec.ofNat 20 p.2.1) v) s =
      .next (if v = 0 then s.wr p.2.2.1 p.2.2.2 0 else s) := by
  obtain ⟨hoff, hw, hreg⟩ := counter_register p hp
  obtain ⟨⟨r, k⟩, hfind, he⟩ := Option.map_eq_some_iff.mp hreg
  simp only [Prod.mk.injEq] at he
  obtain ⟨harr, hfields, rfl⟩ := he
  have hword : bits v.toNat (0 + p.2.2.1.w - 1) 0 = v.toNat := by simp [bits, hw, Nat.mod_eq_of_lt v.isLt]
  rw [exec_counterClear, BitVec.toNat_ofNat, Nat.mod_eq_of_lt hoff, hf, isCounter_counter hp, Bool.and_self, if_pos rfl,
    regWrite_counter p hp, tableWrite_arr s ini _ hfind harr]
  simp only [regStore, State.over, hfields, List.foldl_cons, List.foldl_nil, fieldWrite, hword, ← BitVec.toNat_inj]
  rfl

/-- A counter at all-ones stays there and raises no event (R17). -/
theorem bump_saturated {s : State} {f : Fld} {i : Nat} (h : s.rd f i + 1 = 2 ^ f.w) (ovf : Option Fld) : s.bump f i ovf = s :=
  if_neg (by omega)

/-- Settles O7: by the tables for SYS, by the select registers for SELECT_WRITE, by the list of counters for COUNTER_CLEAR. -/
theorem registerWritesFollowAccessTypes : Obligations.RegisterWritesFollowAccessTypes := by
  unfold Obligations.RegisterWritesFollowAccessTypes
  refine ⟨fun s off v ini hini => ⟨fun hf => ?_, fun hf ha hd => ⟨fun r k hr => ?_, fun hnone => ?_⟩⟩,
    fun s ini blk wp v sel hf hsel => ?_, fun s ini v hf p hp => ⟨fun hv => ?_, ?_, fun ovf h => bump_saturated h ovf⟩⟩
  · rw [exec_registerWrite, hf]; rfl
  · exact registerWrite_sys_register off v hini hf ha hd hr
  · rw [exec_registerWrite_sys off v hini hf ha hd, tableWrite_none s ini _ hnone]
  · obtain ⟨hexec, hids⟩ := exec_selectWrite_sel ini v hf hsel
    obtain ⟨hnone, hsome⟩ := select_case hids hexec
    refine ⟨fun hc => ?_, hsome⟩
    obtain ⟨t, ht, rfl⟩ := hnone hc
    exact ht
  · rw [exec_counterClear_counter ini v hf hp, if_neg hv]
  · rw [exec_counterClear_counter ini 0 hf hp, if_pos rfl]; rfl

end Sys2Proof.Machine
end

section
/-! PROOFS.  Arithmetic, logic, shifts and selections (chapter 5): a result in a register, and the flags that the
operation leaves. -/

namespace Sys2Proof.Machine

open Safety

section

variable {s : State} {c : Fin 68}

/-! ## A result and its flags -/

/-- The flags of a bank after an operation that leaves a set of flags. -/
def flagsAfter (s : State) (b : Nat) (fs : FlagSet) : List Nat :=
  [flagAfter (s.rd I.flZ b) fs.z, flagAfter (s.rd I.flN b) fs.n, flagAfter (s.rd I.flC b) fs.c, flagAfter (s.rd I.flV b) fs.v]

/-- What a syllable of core c leaves that gives register rd of its bank a value and writes flags. -/
def Yields (s : State) (c : Nat) (sz : Bool) (rd v : Nat) (written : List (Fld × Nat)) (flags : List Nat) (t : State) : Prop :=
  Issued s t c (szCells s (rbank s c) sz rd ++ written) [] ∧ readSz t (rbank s c) sz rd = v ∧ flagsOf t (rbank s c) = flags

theorem does_yields (h : CoreReady s c.val) {i : Instr} (sz : Bool) (rd : BitVec 5) {v : Nat} {fs : FlagSet}
    (hv : v < 2 ^ szBits sz) (hi : exec i s = sSyl s c.val true (resultSz s (rbank s c.val) sz rd.toNat v fs) []) :
    Does i s (Yields s c.val sz rd.toNat v (fs.cells (rbank s c.val)) (flagsAfter s (rbank s c.val) fs)) :=
  does_result h i sz _ v fs rd.isLt hv hi fun _ hissued hvalue hflags => ⟨hissued, hvalue, hflags⟩

/-! ## Differences and absolute values (R161) -/

/-- The flags of a difference: Z and N of it modulo the size, C for no borrow, V the signed overflow. -/
def differenceFlags (n x y : Nat) : List Nat :=
  [b2n (ofInt n (signedOf n x - signedOf n y) == 0), bitN (ofInt n (signedOf n x - signedOf n y)) (n - 1),
    b2n (decide (y ≤ x)), b2n (!fitsS n (signedOf n x - signedOf n y))]

theorem flagsAfter_sub (s : State) (b n x : Nat) {y : Nat} (hy : y < 2 ^ n) :
    flagsAfter s b (subFlags n x y) = differenceFlags n x y := by
  simp only [flagsAfter, sub_flags _ _ _ hy, flagAfter, differenceFlags, bitN_eq]

theorem arithVal_written (h : CoreReady s c.val) (sz : Bool) (x : Int) :
    arithVal (satOf s c.val) (szBits sz) x = writtenSum s (rbank s c.val) sz x := by
  rw [arithVal_eq, satOf, modeSAT_still (ready_inFlight h)]
  rfl

theorem sub_case (h : CoreReady s c.val) (i : Instr) (sz : Bool) (rd : BitVec 5) (x : Nat) {y : Nat} (hy : y < 2 ^ szBits sz)
    (hi : exec i s = sSyl s c.val true (resultSz s (rbank s c.val) sz rd.toNat (subOp (satOf s c.val) (szBits sz) x y).1
      (subOp (satOf s c.val) (szBits sz) x y).2) []) :
    Does i s (Yields s c.val sz rd.toNat
      (writtenSum s (rbank s c.val) sz (signedOf (szBits sz) x - signedOf (szBits sz) y)) (flagCells (rbank s c.val))
      (differenceFlags (szBits sz) x y)) := by
  rw [← arithVal_written h, ← flagsAfter_sub s (rbank s c.val) _ x hy]
  exact does_yields h sz rd (arithVal_lt _ _ _) hi

theorem abs_case (h : CoreReady s c.val) (sz : Bool) (rd ra : BitVec 5) :
    let b := rbank s c.val
    let n := szBits sz
    let x := |signedOf n (readSz s b sz ra.toNat)|
    Does (.abs c true sz rd ra) s (Yields s c.val sz rd.toNat (writtenSum s b sz x) [(I.flZ, b), (I.flN, b), (I.flV, b)]
      [b2n (ofInt n x == 0), bitN (ofInt n x) (n - 1), s.rd I.flC b, b2n (!fitsS n x)]) := by
  intro b n x
  have hx : (((signedOf n (readSz s b sz ra.toNat)).natAbs : Nat) : Int) = x := Int.natCast_natAbs _
  have hflags : flagsAfter s b (absOp (satOf s c.val) n (readSz s b sz ra.toNat)).2 =
      [b2n (ofInt n x == 0), bitN (ofInt n x) (n - 1), s.rd I.flC b, b2n (!fitsS n x)] := by
    simp only [absOp, hx, flagsAfter, znOf, flagAfter, bitN_eq, Nat.mod_eq_of_lt (ofInt_lt _ _)]
  have hexec : exec (.abs c true sz rd ra) s = sSyl s c.val true (resultSz s b sz rd.toNat (arithVal (satOf s c.val) n x)
      (absOp (satOf s c.val) n (readSz s b sz ra.toNat)).2) [] := by
    rw [← hx]; rfl
  rw [← arithVal_written h, ← hflags]
  exact does_yields h sz rd (arithVal_lt _ _ _) hexec

/-! ## Shifts (R162): the count is taken modulo the size -/

theorem asr_case (h : CoreReady s c.val) (i : Instr) (sz : Bool) (rd : BitVec 5) (x k : Nat)
    (hi : exec i s = sSyl s c.val true (resultSz s (rbank s c.val) sz rd.toNat (asrOp (szBits sz) x k).1
      (asrOp (szBits sz) x k).2) []) :
    let n := szBits sz
    let j := k % n
    let r := ofInt n (signedOf n x / 2 ^ j)
    Does i s (Yields s c.val sz rd.toNat r (flagCells (rbank s c.val))
      [b2n (r == 0), bitN r (n - 1), if j = 0 then 0 else bitN x (j - 1), 0]) := by
  intro n j r
  have hr : asrVal n x j = r := by simp only [asrVal, r, Nat.cast_pow, Nat.cast_ofNat]
  rw [← hr]
  exact shift_case h i sz rd _ _ _ (ofInt_lt _ _) _ rfl (shr_last x j) hi

theorem lsr_case (h : CoreReady s c.val) (i : Instr) (sz : Bool) (rd : BitVec 5) {x : Nat} (k : Nat) (hx : x < 2 ^ szBits sz)
    (hi : exec i s = sSyl s c.val true (resultSz s (rbank s c.val) sz rd.toNat (lsrOp (szBits sz) x k).1
      (lsrOp (szBits sz) x k).2) []) :
    let n := szBits sz
    let j := k % n
    let r := x / 2 ^ j
    Does i s (Yields s c.val sz rd.toNat r (flagCells (rbank s c.val))
      [b2n (r == 0), bitN r (n - 1), if j = 0 then 0 else bitN x (j - 1), 0]) :=
  shift_case h i sz rd _ _ _ ((Nat.div_le_self _ _).trans_lt hx) _ rfl (shr_last x _) hi

theorem lsl_case (h : CoreReady s c.val) (i : Instr) (sz : Bool) (rd : BitVec 5) (x k : Nat)
    (hi : exec i s = sSyl s c.val true (resultSz s (rbank s c.val) sz rd.toNat (lslOp (szBits sz) x k).1
      (lslOp (szBits sz) x k).2) []) :
    let n := szBits sz
    let j := k % n
    let r := x * 2 ^ j % 2 ^ n
    Does i s (Yields s c.val sz rd.toNat r (flagCells (rbank s c.val))
      [b2n (r == 0), bitN r (n - 1), if j = 0 then 0 else bitN x (n - j), 0]) :=
  shift_case h i sz rd _ _ _ (Nat.mod_lt _ (Nat.two_pow_pos _)) _
    (znOf_mod _ _ (by cases sz <;> decide) _ _) (shl_last _ x _) hi

/-! ## Rounding and the count of sign bits (R168, R169) -/

theorem exec_rnd (h : CoreReady s c.val) (rd ra : BitVec 5) :
    let b := rbank s c.val
    let q := roundShift (bitOf (s.rd I.cmode b) 10) (signedOf 32 (readWord s b ra.toNat)) 16
    let r := ofInt 16 (fitVal (bitOf (s.rd I.cmode b) 11) q 16)
    exec (.rnd c true rd ra) s =
      sSyl s c.val true (resultSz s b false rd.toNat r (znOf 16 r none (some (!fitsS 16 q)))) [] := by
  intro b q r
  have hs : inFlight s b = [] := ready_inFlight h
  simp only [q, r, ← modeRM_still hs, ← modeSAT_still hs]
  rfl

theorem rnd_case (h : CoreReady s c.val) (rd ra : BitVec 5) :
    let b := rbank s c.val
    let q := roundShift (bitOf (s.rd I.cmode b) 10) (signedOf 32 (readWord s b ra.toNat)) 16
    let r := ofInt 16 (fitVal (bitOf (s.rd I.cmode b) 11) q 16)
    Does (.rnd c true rd ra) s (Yields s c.val false rd.toNat r [(I.flZ, b), (I.flN, b), (I.flV, b)]
      [b2n (r == 0), bitN r 15, s.rd I.flC b, b2n (!fitsS 16 q)]) := by
  intro b q r
  have hr : r < 2 ^ 16 := ofInt_lt _ _
  have hflags : flagsAfter s b (znOf 16 r none (some (!fitsS 16 q))) =
      [b2n (r == 0), bitN r 15, s.rd I.flC b, b2n (!fitsS 16 q)] := by
    simp only [flagsAfter, znOf, flagAfter, bitN_eq, Nat.mod_eq_of_lt hr]
  rw [← hflags]
  exact does_yields h false rd hr (exec_rnd h rd ra)

theorem redundant_szBits_lt (sz : Bool) (x : Nat) : redundant (szBits sz) x < 2 ^ 16 := by
  cases sz
  · exact (redundant_lt 16 x (by decide)).trans (by decide)
  · exact (redundant_lt 32 x (by decide)).trans (by decide)

/-- A syllable whose whole effect is a value for a D register. -/
theorem dReg_case (h : CoreReady s c.val) (i : Instr) (rd : BitVec 5) {v : Nat} (hv : v < 2 ^ 16)
    (hi : exec i s = sSyl s c.val true [putD s (rbank s c.val) rd.toNat v 1] []) :
    Does i s fun t => Issued s t c.val [dCell s (rbank s c.val) rd.toNat] [] ∧ readD t (rbank s c.val) rd.toNat = v :=
  does_result h i false _ v ⟨none, none, none, none⟩ rd.isLt hv hi fun _ hissued hvalue _ => ⟨hissued, hvalue⟩

end

/-- Settles O20: each instruction by the case of its operation; the immediate forms take the immediate as second operand. -/
theorem sumsLogicAndShiftsSetTheFlags : Obligations.SumsLogicAndShiftsSetTheFlags := by
  unfold Obligations.SumsLogicAndShiftsSetTheFlags
  refine ⟨fun s c sz rd ra rb imm h => ?_, fun s c sz rd ra rb imm h => ?_⟩
  · have hlt := readSz_lt (ready_inFlight h) sz
    have hcmp := fun i y hy hi => cmp_case h i (szBits sz) (readSz s (rbank s c.val) sz ra.toNat) y hy hi
    exact ⟨add_case h _ sz rd _ _ rfl, add_case h _ sz rd _ _ rfl, sub_case h _ sz rd _ (hlt _) rfl,
      sub_case h _ sz rd 0 (hlt _) rfl, hcmp _ _ (hlt _) rfl, hcmp _ _ (immSz_lt sz imm) rfl, abs_case h sz rd ra⟩
  · have hlt := readSz_lt (ready_inFlight h) sz
    have himm := immSz_lt sz imm
    intro b n x y dst logic shift right left a j i
    have hi : immSz sz imm % n = i := imm_count sz imm
    refine ⟨bit_case h _ sz rd _ _ _ (Nat.and_lt_two_pow _ (hlt _)) rfl,
      bit_case h _ sz rd _ _ _ (Nat.and_lt_two_pow _ himm) rfl,
      bit_case h _ sz rd _ _ _ (Nat.or_lt_two_pow (hlt _) (hlt _)) rfl,
      bit_case h _ sz rd _ _ _ (Nat.or_lt_two_pow (hlt _) himm) rfl,
      bit_case h _ sz rd _ _ _ (Nat.xor_lt_two_pow (hlt _) (hlt _)) rfl,
      bit_case h _ sz rd _ _ _ (Nat.xor_lt_two_pow (hlt _) himm) rfl,
      asr_case h _ sz rd _ _ rfl, ?_, lsr_case h _ sz rd _ (hlt _) rfl, ?_, lsl_case h _ sz rd _ _ rfl, ?_⟩
    · rw [← hi]; exact asr_case h _ sz rd _ _ rfl
    · rw [← hi]; exact lsr_case h _ sz rd _ (hlt _) rfl
    · rw [← hi]; exact lsl_case h _ sz rd _ _ rfl

/-- Settles O21: MIN, MAX, MULI and NORM are results with Z and N alone; RND adds V, and EXP writes a D register alone. -/
theorem selectionsAndNormalisation : Obligations.SelectionsAndNormalisation := by
  unfold Obligations.SelectionsAndNormalisation
  intro s c sz rd ra rb h
  have hlt := readSz_lt (ready_inFlight h) sz
  refine ⟨zn_case h _ sz rd _ ?_ _ rfl rfl, zn_case h _ sz rd _ ?_ _ rfl rfl, zn_case h _ true rd _ (ofInt_lt _ _) _ rfl rfl,
    zn_case h _ sz rd _ (Nat.mod_lt _ (Nat.two_pow_pos _)) _ rfl rfl, rnd_case h rd ra,
    dReg_case h _ rd (redundant_szBits_lt sz _) rfl⟩
  · split <;> exact hlt _
  · split <;> exact hlt _

end Sys2Proof.Machine
end

section
/-! PROOFS.  Constants, moves and control registers (chapter 5). -/

namespace Sys2Proof.Machine

open Safety

section

variable {s : State} {c : Fin 68}

/-! ## Moves in the extended space (R143, R164) -/

/-- Beyond the word space each register of the extended space is one cell of 32 bits. -/
theorem ext_is_cell (b : Nat) {r : Nat} (h : 32 ≤ r) : ∃ f ∈ [I.m, I.bb, I.ll], ∃ j, ∀ u : State,
    extCells u b r = [(f, j)] ∧ readExt u b r = u.cr b f j := by
  have h32 : ¬ r < 32 := by omega
  by_cases h40 : r < 40
  · exact ⟨I.m, by simp, 8 * b + (r - 32), fun u => by simp [extCells, readExt, h32, h40]⟩
  · by_cases h48 : r < 48
    · exact ⟨I.bb, by simp, 8 * b + (r - 40), fun u => by simp [extCells, readExt, h32, h40, h48]⟩
    · exact ⟨I.ll, by simp, 8 * b + (r - 48), fun u => by simp [extCells, readExt, h32, h40, h48]⟩

theorem ext_cells_plain : ∀ f ∈ [I.m, I.bb, I.ll], f ∈ resultCells ∧ f.w = 32 := by decide

theorem exec_movr (s : State) (c : Fin 68) {xd xs : BitVec 6} (hd : xd.toNat < 56) (hs : xs.toNat < 56) :
    exec (.movr c true xd xs) s = sSyl s c.val true
      (putCells (extCells s (rbank s c.val) xd.toNat) (readExt s (rbank s c.val) xs.toNat) 1) [] := by
  have hlegal : (decide (56 ≤ xd.toNat) || decide (56 ≤ xs.toNat)) = false := by simp [hd, hs]
  show execMovr c true xd xs s = _
  simp only [execMovr, hlegal, illegalIf, Bool.false_eq_true, if_false]

theorem movr_case (h : CoreReady s c.val) {xd xs : BitVec 6} (hd : xd.toNat < 56) (hs : xs.toNat < 56) :
    Does (.movr c true xd xs) s fun t => Issued s t c.val (extCells s (rbank s c.val) xd.toNat) [] ∧
      readExt t (rbank s c.val) xd.toNat = readExt s (rbank s c.val) xs.toNat := by
  have hexec := exec_movr s c hd hs
  have hv := readExt_lt (ready_inFlight h) xs.toNat
  generalize readExt s (rbank s c.val) xs.toNat = v at *
  by_cases hw : xd.toNat < 32
  · have hext : ∀ u, extCells u (rbank s c.val) xd.toNat = wordCells u (rbank s c.val) xd.toNat ∧
        readExt u (rbank s c.val) xd.toNat = readWord u (rbank s c.val) xd.toNat := fun u => ⟨if_pos hw, if_pos hw⟩
    simp only [hext] at hexec ⊢
    exact word_case h _ _ v hw hv hexec
  · obtain ⟨f, hf, j, hcell⟩ := ext_is_cell (rbank s c.val) (Nat.le_of_not_lt hw)
    obtain ⟨hres, hwidth⟩ := ext_cells_plain f hf
    obtain ⟨hsyl, hissued, hval, hstill, -⟩ := one_put h f j (v % 2 ^ f.w) hres
    simp only [hcell, putCells] at hexec ⊢
    refine ⟨_, by rw [hexec, sSyl, hsyl], hissued, ?_⟩
    rw [cr_still hstill, hval, hwidth, Nat.mod_mod, Nat.mod_eq_of_lt hv]

/-! ## Control registers (R103, R133, R144, R165) -/

/-- A legal number, not of the supervisor or in supervisor privilege, bars no MOVC. -/
theorem movcCauses_none (h : CoreReady s c.val) {n : Nat} (hlegal : crLegal (decide (64 ≤ c.val)) n = true)
    (hpriv : n < 32 ∨ bitOf (s.rd I.scr (16 * (c.val - 64))) 0 = true) : movcCauses s c.val n = [] := by
  have hlegal' : crLegal (isSvc c.val) n = true := hlegal
  rcases hpriv with hn | hbit
  · simp [movcCauses, hlegal', Nat.not_le.mpr hn]
  · simp [movcCauses, hlegal', privileged, cr_still (ready_inFlight h), hbit]

theorem exec_movcWrite (s : State) (c : Fin 68) (cr : BitVec 6) (rw : BitVec 5) (hno : movcCauses s c.val cr.toNat = []) :
    exec (.movcWrite c true cr rw) s =
      sSyl s c.val true (writeCr s c.val cr.toNat (readWord s (rbank s c.val) rw.toNat)) [] := by
  rw [← hno]; rfl

theorem movcRead_case (h : CoreReady s c.val) (cr : BitVec 6) (rw : BitVec 5) (hno : movcCauses s c.val cr.toNat = []) :
    Does (.movcRead c true cr rw) s fun t => Issued s t c.val (wordCells s (rbank s c.val) rw.toNat) [] ∧
      readWord t (rbank s c.val) rw.toNat = readCr s c.val cr.toNat := by
  refine word_case h _ _ _ rw.isLt (readCr_lt c.isLt (ready_inFlight h) _) ?_
  rw [← hno]; rfl

/-- Control register n of core c is one cell: MOVC reads it, and writes the bits of the mask. -/
structure CrCell (s : State) (c n mask : Nat) (f : Fld) (j : Nat) : Prop where
  isResult : f ∈ resultCells
  write : ∀ v, ∃ x, writeCr s c n v = [.put f j x 2] ∧ x % 2 ^ f.w = Nat.land v mask
  read : ∀ u : State, rbank u c = rbank s c → readCr u c n = u.cr (rbank s c) f j

theorem movcWrite_cell (h : CoreReady s c.val) {cr : BitVec 6} (rw : BitVec 5) (hno : movcCauses s c.val cr.toNat = [])
    {mask j : Nat} {f : Fld} (hcr : CrCell s c.val cr.toNat mask f j) :
    Does (.movcWrite c true cr rw) s fun t => Issued s t c.val [] [(f, j)] ∧
      readCr (settled t c.val) c.val cr.toNat = Nat.land (readWord s (rbank s c.val) rw.toNat) mask := by
  obtain ⟨x, hwrite, hx⟩ := hcr.write (readWord s (rbank s c.val) rw.toNat)
  refine write_one h _ f j x hcr.isResult ?_ _ fun t hval hstill hbank => ?_
  · rw [exec_movcWrite s c cr rw hno, hwrite]
  · rw [hcr.read _ hbank, cr_still hstill, hval, hx]

/-- The low k bits of a number. -/
theorem land_low_bits (v k : Nat) : v % 2 ^ k = Nat.land v (2 ^ k - 1) := (Nat.and_two_pow_sub_one_eq_mod v k).symm

theorem land_mod_of_lt (v : Nat) {mask w : Nat} (h : mask < 2 ^ w) : Nat.land v mask % 2 ^ w = Nat.land v mask :=
  Nat.mod_eq_of_lt (Nat.and_le_right.trans_lt h)

theorem bits_from_zero (v k : Nat) : bits v k 0 % 2 ^ (k + 1) = Nat.land v (2 ^ (k + 1) - 1) := by
  rw [← land_low_bits, bits, Nat.pow_zero, Nat.div_one, Nat.sub_zero, Nat.mod_mod]

/-- The writable control registers of both kinds of core, but the flags, are cells. -/
theorem writableCrs_common (s : State) (c : Nat) :
    let b := rbank s c
    CrCell s c 0 0x9C0F I.cmode b ∧ CrCell s c 2 0xF I.rrb b ∧ CrCell s c 16 0xFFFF I.lc (2 * b) ∧
      CrCell s c 17 0xFFFF I.lc (2 * b + 1) ∧ CrCell s c 18 0xFFFFFFFF I.ls (2 * b) ∧
      CrCell s c 19 0xFFFFFFFF I.ls (2 * b + 1) ∧ CrCell s c 20 0xFFFFFFFF I.le (2 * b) ∧
      CrCell s c 21 0xFFFFFFFF I.le (2 * b + 1) := by
  obtain ⟨h0, h2, hlc, hls, hle⟩ : I.cmode ∈ resultCells ∧ I.rrb ∈ resultCells ∧ I.lc ∈ resultCells ∧
      I.ls ∈ resultCells ∧ I.le ∈ resultCells := by decide
  refine ⟨⟨h0, fun v => ⟨_, rfl, land_mod_of_lt v (by decide)⟩, ?_⟩, ⟨h2, fun v => ⟨_, rfl, bits_from_zero v 3⟩, ?_⟩,
    ⟨hlc, fun v => ⟨_, rfl, bits_from_zero v 15⟩, ?_⟩, ⟨hlc, fun v => ⟨_, rfl, bits_from_zero v 15⟩, ?_⟩,
    ⟨hls, fun v => ⟨_, rfl, land_low_bits v 32⟩, ?_⟩, ⟨hls, fun v => ⟨_, rfl, land_low_bits v 32⟩, ?_⟩,
    ⟨hle, fun v => ⟨_, rfl, land_low_bits v 32⟩, ?_⟩, ⟨hle, fun v => ⟨_, rfl, land_low_bits v 32⟩, ?_⟩⟩
  all_goals intro u hu; rw [← hu]; rfl

/-- The trap registers of a signal core are cells. -/
theorem writableCrs_trap (s : State) (c : Nat) :
    let b := rbank s c
    CrCell s c 5 0xFFFFFFFF I.trapv b ∧ CrCell s c 6 0xFFFFFFFF I.trpc b ∧ CrCell s c 7 0xC0000F0F I.tcause b ∧
      CrCell s c 8 0xFFFFFFFF I.taddr b ∧ CrCell s c 9 0x3F I.tds b ∧ CrCell s c 10 0xFFFFFFFF I.tbtgt b := by
  obtain ⟨h5, h6, h7, h8, h9, h10⟩ : I.trapv ∈ resultCells ∧ I.trpc ∈ resultCells ∧ I.tcause ∈ resultCells ∧
      I.taddr ∈ resultCells ∧ I.tds ∈ resultCells ∧ I.tbtgt ∈ resultCells := by decide
  refine ⟨⟨h5, fun v => ⟨_, rfl, land_low_bits v 32⟩, ?_⟩, ⟨h6, fun v => ⟨_, rfl, land_low_bits v 32⟩, ?_⟩,
    ⟨h7, fun v => ⟨_, rfl, land_mod_of_lt v (by decide)⟩, ?_⟩, ⟨h8, fun v => ⟨_, rfl, land_low_bits v 32⟩, ?_⟩,
    ⟨h9, fun v => ⟨_, rfl, bits_from_zero v 5⟩, ?_⟩, ⟨h10, fun v => ⟨_, rfl, land_low_bits v 32⟩, ?_⟩⟩
  all_goals intro u hu; rw [← hu]; rfl

/-- The bits of supervisor control register 32 + k that software can write are those of the statement's list. -/
theorem scrMask_listed : ∀ k < 13, scrMask k < 2 ^ 32 ∧
    scrMask k = if k = 0 ∨ k = 6 then 0xE3 else if k = 1 then 0xFFFFF000 else if k = 4 then 0xC0000F0F else
      if k = 7 then 0x3F else 0xFFFFFFFF := by decide

/-- The supervisor control registers of a supervisor core are cells. -/
theorem writableCrs_supervisor (s : State) {c : Nat} (hc : 64 ≤ c) {k : Nat} (hk : k < 13) :
    CrCell s c (32 + k) (scrMask k) I.scr (16 * (c - 64) + k) := by
  have hsvc : isSvc c = true := decide_eq_true hc
  have hw : ∀ v, writeCr s c (32 + k) v = [.put I.scr (16 * (c - 64) + k) (Nat.land v (scrMask k)) 2] := by
    intro v
    interval_cases k <;> simp [writeCr, hsvc]
  have hr : ∀ u : State, readCr u c (32 + k) = u.cr (rbank u c) I.scr (16 * (c - 64) + k) := by
    intro u
    interval_cases k <;> simp [readCr, hsvc]
  exact ⟨by decide, fun v => ⟨_, hw v, land_mod_of_lt v (scrMask_listed k hk).1⟩, fun u hu => by rw [hr, hu]⟩

/-- Each writable control register is FLAGS, of number 1, or a cell. -/
theorem writableCrs_flags_or_cell (s : State) (c : Nat) {e : Nat × Nat × List (Fld × Nat)} (he : e ∈ writableCrs c (rbank s c)) :
    e = (1, 0xFF0F, (I.acov, rbank s c) :: flagCells (rbank s c)) ∨ ∃ f j, e.2.2 = [(f, j)] ∧ CrCell s c e.1 e.2.1 f j := by
  obtain ⟨h0, h2, h16, h17, h18, h19, h20, h21⟩ := writableCrs_common s c
  obtain ⟨h5, h6, h7, h8, h9, h10⟩ := writableCrs_trap s c
  rcases List.mem_append.mp he with he | he
  · simp only [List.mem_cons, List.not_mem_nil, or_false] at he
    rcases he with rfl | rfl | rfl | rfl | rfl | rfl | rfl | rfl | rfl
    · exact .inr ⟨_, _, rfl, h0⟩
    · exact .inl rfl
    · exact .inr ⟨_, _, rfl, h2⟩
    · exact .inr ⟨_, _, rfl, h16⟩
    · exact .inr ⟨_, _, rfl, h17⟩
    · exact .inr ⟨_, _, rfl, h18⟩
    · exact .inr ⟨_, _, rfl, h19⟩
    · exact .inr ⟨_, _, rfl, h20⟩
    · exact .inr ⟨_, _, rfl, h21⟩
  · split at he
    · simp only [List.mem_cons, List.not_mem_nil, or_false] at he
      rcases he with rfl | rfl | rfl | rfl | rfl | rfl
      · exact .inr ⟨_, _, rfl, h5⟩
      · exact .inr ⟨_, _, rfl, h6⟩
      · exact .inr ⟨_, _, rfl, h7⟩
      · exact .inr ⟨_, _, rfl, h8⟩
      · exact .inr ⟨_, _, rfl, h9⟩
      · exact .inr ⟨_, _, rfl, h10⟩
    · next hc =>
      obtain ⟨k, hk, rfl⟩ := List.mem_map.mp he
      have hk := List.mem_range.mp hk
      refine .inr ⟨_, _, rfl, ?_⟩
      rw [← (scrMask_listed k hk).2]
      exact writableCrs_supervisor s (Nat.le_of_not_lt hc) hk

/-- The bank of a core once a bundle that does not write BANK has settled. -/
theorem rbank_settled {s t : State} {c : Nat} {now late : List (Fld × Nat)} (h : Issued s t c now late)
    (hbank : ∀ p ∈ now ++ late, p.1.id ≠ I.bank.id) : rbank (settled t c) c = rbank s c := by
  obtain ⟨-, -, -, -, -, -, hcells⟩ := h
  refine rbank_congr c (hcells I.bank c fun p hp he => ?_)
  rcases List.mem_append.mp hp with hp | hp
  · have hissue : ∀ f ∈ [I.pcb, I.cycle, I.qstall], f.id ≠ I.bank.id := by decide
    simp only [List.mem_cons, List.not_mem_nil, or_false] at hp
    rcases hp with rfl | rfl | rfl
    all_goals exact absurd he (hissue _ (by simp))
  · exact absurd he (hbank p hp)

/-- FLAGS spelled from its parts as MOVC writes them. -/
theorem flags_spelled (v : Nat) :
    bits v 15 8 * 256 + bitN v 3 * 8 + bitN v 2 * 4 + bitN v 1 * 2 + bitN v 0 = Nat.land v 0xFF0F := by
  rw [show Nat.land v 0xFF0F = v / 256 % 256 * 256 + v % 16 from land_flags v]
  simp only [bits, bitN, Nat.reducePow, Nat.reduceSub, Nat.reduceAdd]
  omega

theorem bitN_mod_two (v k : Nat) : bitN v k % 2 = bitN v k := Nat.mod_mod _ _

theorem bits_mod_byte (v : Nat) : bits v 15 8 % 256 = bits v 15 8 := Nat.mod_mod _ _

theorem movcWrite_flags (h : CoreReady s c.val) {cr : BitVec 6} (rw : BitVec 5) (hno : movcCauses s c.val cr.toNat = [])
    (hcr : cr.toNat = 1) :
    Does (.movcWrite c true cr rw) s fun t => Issued s t c.val [] ((I.acov, rbank s c.val) :: flagCells (rbank s c.val)) ∧
      readCr (settled t c.val) c.val cr.toNat = Nat.land (readWord s (rbank s c.val) rw.toNat) 0xFF0F := by
  rw [← flags_spelled]
  have hexec := exec_movcWrite s c cr rw hno
  rw [hcr] at hexec ⊢
  generalize readWord s (rbank s c.val) rw.toNat = v at *
  have hresult : ∀ f ∈ [I.acov, I.flV, I.flC, I.flN, I.flZ], f ∈ resultCells := by decide
  obtain ⟨hsyl, hissued, hval, hstill, -⟩ := exec_late h clsS (by decide) (writeCr s c.val 1 v)
    (by simp [writeCr, Quiet, resultCells]) (by simp [writeCr]) ((I.acov, rbank s c.val) :: flagCells (rbank s c.val))
    (by simp [writeCr, newOf, putLanding, flagCells, I.acov, I.flV, I.flC, I.flN, I.flZ, I.rrb]) rfl
  have hbank := rbank_settled hissued (by simp [flagCells, I.acov, I.flV, I.flC, I.flN, I.flZ, I.bank])
  refine ⟨_, by rw [hexec, sSyl, hsyl], hissued, ?_⟩
  simp only [readCr, hbank, cr_still hstill]
  rw [hval _ (hresult _ (by simp)), hval _ (hresult _ (by simp)), hval _ (hresult _ (by simp)), hval _ (hresult _ (by simp)),
    hval _ (hresult _ (by simp))]
  simp [writeCr, newOf, putLanding, afterLandings, Landing.into, I.acov, I.flV, I.flC, I.flN, I.flZ, bitN_mod_two, bits_mod_byte]

theorem readOnly_of_not_writable {c b n : Nat} (hlegal : crLegal (decide (64 ≤ c)) n = true)
    (hno : ∀ e ∈ writableCrs c b, e.1 ≠ n) : n ∈ [3, 4, 11, 12, 13] := by
  simp only [crLegal, Bool.or_eq_true, Bool.and_eq_true, decide_eq_true_eq, Bool.not_eq_true', decide_eq_false_iff_not] at hlegal
  simp only [writableCrs, List.forall_mem_append, List.forall_mem_cons] at hno
  obtain ⟨⟨h0, h1, h2, h16, h17, h18, h19, h20, h21, -⟩, hrest⟩ := hno
  simp only [List.mem_cons, List.not_mem_nil, or_false]
  by_cases hc : c < 64
  · simp only [hc, if_true, List.forall_mem_cons] at hrest
    obtain ⟨h5, h6, h7, h8, h9, h10, -⟩ := hrest
    omega
  · simp only [hc, if_false, List.forall_mem_map, List.mem_range] at hrest
    have hscr := hrest (n - 32)
    omega

theorem writeCr_readOnly (s : State) (c v : Nat) : ∀ n ∈ [3, 4, 11, 12, 13], writeCr s c n v = [] := by
  simp [writeCr]

theorem nop_does (h : CoreReady s c.val) (i : Instr) (cls : Nat) (hcls : cls ≤ 2)
    (hi : exec i s = go (syllable s c.val true cls .only [] [])) : Does i s fun t => Issued s t c.val [] [] :=
  ⟨_, hi, nop_case h cls hcls⟩

end

/-- Settles O22: constants and moves by the case of their form; MOVC by what its number is: a cell, the flags, or read-only. -/
theorem constantsMovesAndControlRegisters : Obligations.ConstantsMovesAndControlRegisters := by
  unfold Obligations.ConstantsMovesAndControlRegisters
  intro s c h b
  refine ⟨fun rd imm => ⟨dReg_case h _ rd imm.isLt rfl, word_case h _ _ _ rd.isLt (ofInt_lt _ _) rfl,
      word_case h _ _ _ rd.isLt ?_ rfl⟩, fun xd xs hd hs => movr_case h hd hs, fun cr rw hlegal hpriv => ?_, fun inL => ?_⟩
  · have := imm.isLt
    omega
  · have hno := movcCauses_none h hlegal hpriv
    refine ⟨movcRead_case h cr rw hno, fun e he hcr => ?_, fun hother => ?_⟩
    · rcases writableCrs_flags_or_cell s c.val he with rfl | ⟨f, j, hcells, hcell⟩
      · exact movcWrite_flags h rw hno hcr.symm
      · rw [hcells]
        exact movcWrite_cell h rw hno (hcr ▸ hcell)
    · refine nop_does h _ clsS (by decide) ?_
      rw [exec_movcWrite s c cr rw hno, writeCr_readOnly _ _ _ _ (readOnly_of_not_writable hlegal hother)]
      rfl
  · exact nop_does h _ _ (by cases inL <;> decide) rfl

end Sys2Proof.Machine
end

section
/-! PROOFS.  Multiplies that accumulate, and the moves between accumulators and registers (chapter 5). -/

namespace Sys2Proof.Machine

open Safety

section

variable {s : State} {c : Fin 68}

/-! ## Accumulation (R101, R147) -/

theorem pairBad_even {k : Nat} (h : k % 2 = 0) : pairBad k = false := by simp [pairBad, h]

theorem quadBad_quad {k : Nat} (h : k % 4 = 0) : quadBad k = false := by simp [quadBad, h]

/-- Half hh of ACn combined with a term as the two bits of ACC say (R147). -/
def combined (s : State) (b n : Nat) (acc : BitVec 2) (hh : Nat) (p : Int) : Int :=
  let o := signedOf 40 (s.rd I.ac (16 * b + 2 * n + hh))
  if acc = 0 then o + p else if acc = 1 then o - p else if acc = 2 then p else -p

theorem accTerm_combined (h : CoreReady s c.val) (n hh : Nat) (acc : BitVec 2) (p : Int) :
    accTerm s (rbank s c.val) n hh acc.toNat p = accWrite s (rbank s c.val) n hh (combined s (rbank s c.val) n acc hh p) := by
  rw [accTerm, comb_eq, readAc_still (ready_inFlight h)]
  rfl

/-- An M syllable that combines a term with each half of ACn. -/
theorem terms_case (h : CoreReady s c.val) (i : Instr) (acc : BitVec 2) (n : BitVec 3) (p q : Int)
    (hov : bitOf (s.rd I.cmode (rbank s c.val)) 15 = false)
    (hi : exec i s = mSyl s c.val true (accTerm s (rbank s c.val) n.toNat 0 acc.toNat p ++
      accTerm s (rbank s c.val) n.toNat 1 acc.toNat q) false) :
    let b := rbank s c.val
    let ac := fun hh : Nat => 16 * b + 2 * n.toNat + hh
    let x := combined s b n.toNat acc 0 p
    let y := combined s b n.toNat acc 1 q
    Does i s fun t => Issued s t c.val [(I.ac, ac 0), (I.ac, ac 1)] [(I.acov, b)] ∧ t.rd I.ac (ac 0) = accStored s b x ∧
      t.rd I.ac (ac 1) = accStored s b y ∧ ovNoted s (settled t c.val) b n.toNat [x, y] := by
  rw [accTerm_combined h, accTerm_combined h] at hi
  exact two_halves h i n _ _ hov hi

theorem exec_cmac (s : State) (c : Fin 68) (acc : BitVec 2) (d : BitVec 3) {ra rb : BitVec 5} (cja cjb : Bool)
    (ha : ra.toNat % 2 = 0) (hb : rb.toNat % 2 = 0) :
    let b := rbank s c.val
    let ai := if cja then -dInt s b (ra.toNat + 1) else dInt s b (ra.toNat + 1)
    let bi := if cjb then -dInt s b (rb.toNat + 1) else dInt s b (rb.toNat + 1)
    exec (.cmac c true acc d ra rb cja cjb) s = mSyl s c.val true
      (accTerm s b d.toNat 0 acc.toNat (dInt s b ra.toNat * dInt s b rb.toNat - ai * bi) ++
        accTerm s b d.toNat 1 acc.toNat (dInt s b ra.toNat * bi + ai * dInt s b rb.toNat)) false := by
  have hlegal : (pairBad ra.toNat || pairBad rb.toNat) = false := by rw [pairBad_even ha, pairBad_even hb]; rfl
  rw [← hlegal]; rfl

theorem exec_qmac (s : State) (c : Fin 68) (acc : BitVec 2) (d : BitVec 3) {ra rb : BitVec 5}
    (ha : ra.toNat % 4 = 0) (hb : rb.toNat % 4 = 0) :
    let b := rbank s c.val
    let p := fun k => dInt s b (ra.toNat + k) * dInt s b (rb.toNat + k)
    exec (.qmac c true acc d ra rb) s = mSyl s c.val true
      (accTerm s b d.toNat 0 acc.toNat (p 0 + p 1) ++ accTerm s b d.toNat 1 acc.toNat (p 2 + p 3)) false := by
  have hlegal : (quadBad ra.toNat || quadBad rb.toNat) = false := by rw [quadBad_quad ha, quadBad_quad hb]; rfl
  rw [← hlegal]; rfl

/-! ## Moves out of accumulators (R166, R167, R170) -/

/-- What MOVA makes of half hh of ACn at a size, before it is fitted. -/
def movaRounded (s : State) (b n : Nat) (hh : Bool) (k : Int) : Int :=
  roundShift (bitOf (s.rd I.cmode b) 10) (signedOf 40 (s.rd I.ac (16 * b + 2 * n + b2n hh)))
    (k - signedOf 4 (bits (s.rd I.cmode b) 3 0))

theorem movaVal_half (h : CoreReady s c.val) (n : Nat) (hh : Bool) :
    let q := movaRounded s (rbank s c.val) n hh 15
    movaVal s (rbank s c.val) n (b2n hh) 16 =
      (ofInt 16 (fitVal (bitOf (s.rd I.cmode (rbank s c.val)) 11) q 16), !fitsS 16 q) := by
  have hs := ready_inFlight h
  simp only [movaVal, readAcLate_ready h, modeRM_still hs, modeSAT_still hs, fit_eq _ _ hs, fitOv, movaRounded, if_true]

theorem movaVal_word (h : CoreReady s c.val) (n : Nat) (hh : Bool) :
    let q := movaRounded s (rbank s c.val) n hh (-1)
    movaVal s (rbank s c.val) n (b2n hh) 32 =
      (ofInt 32 (fitVal (bitOf (s.rd I.cmode (rbank s c.val)) 11) q 32), !fitsS 32 q) := by
  have hs := ready_inFlight h
  simp [movaVal, readAcLate_ready h, modeRM_still hs, modeSAT_still hs, fit_eq _ _ hs, fitOv, movaRounded]

theorem exec_mova_half (s : State) (c : Fin 68) (rd : BitVec 5) (n : BitVec 3) (hh : Bool) :
    let b := rbank s c.val
    let r := movaVal s b n.toNat (b2n hh) 16
    exec (.mova c true rd n hh 0) s = sSyl s c.val true [putD s b rd.toNat r.1 2, .put I.flV b (b2n r.2) 2] [] := rfl

/-- MOVA of one half to a D register. -/
theorem mova_half_case (h : CoreReady s c.val) (rd : BitVec 5) (n : BitVec 3) (hh : Bool) :
    let b := rbank s c.val
    let q := movaRounded s b n.toNat hh 15
    Does (.mova c true rd n hh 0) s fun t => Issued s t c.val [] [dCell s b rd.toNat, (I.flV, b)] ∧
      readD (settled t c.val) b rd.toNat = ofInt 16 (fitVal (bitOf (s.rd I.cmode b) 11) q 16) ∧
      (settled t c.val).rd I.flV b = b2n (!fitsS 16 q) := by
  intro b q
  refine late_DV h _ rd.toNat _ _ (ofInt_lt 16 _) ?_
  rw [exec_mova_half, movaVal_half h]

theorem exec_mova_word (s : State) (c : Fin 68) (rd : BitVec 5) (n : BitVec 3) (hh : Bool) :
    let b := rbank s c.val
    let r := movaVal s b n.toNat (b2n hh) 32
    exec (.mova c true rd n hh 1) s =
      sSyl s c.val true (putWord s b rd.toNat r.1 2 ++ [.put I.flV b (b2n r.2) 2]) [] := rfl

/-- MOVA of one half to a register of the word space. -/
theorem mova_word_case (h : CoreReady s c.val) (rd : BitVec 5) (n : BitVec 3) (hh : Bool) :
    let b := rbank s c.val
    let q := movaRounded s b n.toNat hh (-1)
    Does (.mova c true rd n hh 1) s fun t => Issued s t c.val [] (wordCells s b rd.toNat ++ [(I.flV, b)]) ∧
      readWord (settled t c.val) b rd.toNat = ofInt 32 (fitVal (bitOf (s.rd I.cmode b) 11) q 32) ∧
      (settled t c.val).rd I.flV b = b2n (!fitsS 32 q) := by
  intro b q
  refine late_WV h _ rd.toNat _ _ rd.isLt (ofInt_lt 32 _) ?_
  rw [exec_mova_word, movaVal_word h]

theorem exec_mova_pair (s : State) (c : Fin 68) {rd : BitVec 5} (n : BitVec 3) (heven : rd.toNat % 2 = 0) :
    let b := rbank s c.val
    let r := movaVal s b n.toNat 0 16
    let i := movaVal s b n.toNat 1 16
    exec (.mova c true rd n false 2) s =
      sSyl s c.val true [putD s b rd.toNat r.1 2, putD s b (rd.toNat + 1) i.1 2, .put I.flV b (b2n (r.2 || i.2)) 2] [] := by
  have hlegal : illegalIf (false || pairBad rd.toNat) = [] := by rw [pairBad_even heven]; rfl
  rw [← hlegal]
  rfl

/-- MOVA of both halves to a pair of D registers. -/
theorem mova_pair_case (h : CoreReady s c.val) {rd : BitVec 5} (n : BitVec 3) (heven : rd.toNat % 2 = 0) :
    let b := rbank s c.val
    let q := fun hh => movaRounded s b n.toNat hh 15
    let fitted := fun hh => ofInt 16 (fitVal (bitOf (s.rd I.cmode b) 11) (q hh) 16)
    Does (.mova c true rd n false 2) s fun t =>
      Issued s t c.val [] [dCell s b rd.toNat, dCell s b (rd.toNat + 1), (I.flV, b)] ∧
      readD (settled t c.val) b rd.toNat = fitted false ∧ readD (settled t c.val) b (rd.toNat + 1) = fitted true ∧
      (settled t c.val).rd I.flV b = b2n (!fitsS 16 (q false) || !fitsS 16 (q true)) := by
  intro b q fitted
  have hin : rd.toNat + 1 < 32 := by have := rd.isLt; omega
  have hre : movaVal s b n.toNat 0 16 = (fitted false, !fitsS 16 (q false)) := movaVal_half h n.toNat false
  have him : movaVal s b n.toNat 1 16 = (fitted true, !fitsS 16 (q true)) := movaVal_half h n.toNat true
  refine late_ZV h _ rd.toNat _ _ _ hin (ofInt_lt 16 _) (ofInt_lt 16 _) ?_
  rw [exec_mova_pair s c n heven, hre, him]

/-! ## Moves of raw bits (R167) -/

/-- The raw bits of an accumulator half, as a move reads them. -/
theorem ofInt_readAcLate (h : CoreReady s c.val) (n hh : Nat) :
    ofInt 40 (readAcLate s (rbank s c.val) n hh) = s.rd I.ac (16 * rbank s c.val + 2 * n + hh) := by
  rw [readAcLate_ready h, ofInt_signedOf]
  exact Nat.mod_eq_of_lt (rd_mod_lt s I.ac _)

theorem movar_low_case (h : CoreReady s c.val) (rd : BitVec 5) (n : BitVec 3) (hh : Bool) :
    let b := rbank s c.val
    Does (.movar c true rd n hh 0) s fun t => Issued s t c.val [] (wordCells s b rd.toNat) ∧
      readWord (settled t c.val) b rd.toNat = s.rd I.ac (16 * b + 2 * n.toNat + b2n hh) % 2 ^ 32 := by
  intro b
  refine late_word h _ rd.toNat _ rd.isLt (Nat.mod_lt _ (by decide)) ?_
  rw [← ofInt_readAcLate h]
  rfl

theorem movar_high_case (h : CoreReady s c.val) (rd : BitVec 5) (n : BitVec 3) (hh : Bool) :
    let b := rbank s c.val
    Does (.movar c true rd n hh 1) s fun t => Issued s t c.val [] [dCell s b rd.toNat] ∧
      readD (settled t c.val) b rd.toNat =
        ofInt 16 (signedOf 8 (s.rd I.ac (16 * b + 2 * n.toNat + b2n hh) / 2 ^ 32)) := by
  intro b
  refine late_D h _ rd.toNat _ (ofInt_lt _ _) ?_
  rw [← ofInt_readAcLate h]
  rfl

theorem expa_case (h : CoreReady s c.val) (rd : BitVec 5) (n : BitVec 3) (hh : Bool) :
    let b := rbank s c.val
    Does (.expa c true rd n hh) s fun t => Issued s t c.val [] [dCell s b rd.toNat] ∧
      readD (settled t c.val) b rd.toNat =
        ofInt 16 ((redundant 40 (s.rd I.ac (16 * b + 2 * n.toNat + b2n hh)) : Int) - 8) := by
  intro b
  refine late_D h _ rd.toNat _ (ofInt_lt _ _) ?_
  rw [← ofInt_readAcLate h]
  rfl

theorem movta_low_case (h : CoreReady s c.val) (rd : BitVec 5) (n : BitVec 3) (hh : Bool) :
    let j := 16 * rbank s c.val + 2 * n.toNat + b2n hh
    Does (.movta c true rd n hh 0) s fun t => Issued s t c.val [] [(I.ac, j)] ∧
      (settled t c.val).rd I.ac j = ofInt 40 (signedOf 32 (readWord s (rbank s c.val) rd.toNat)) := by
  intro j
  have hfit : ∀ x, ofInt 40 x % 2 ^ 40 = ofInt 40 x := fun x => Nat.mod_eq_of_lt (ofInt_lt _ _)
  exact ac_one h _ j _ none _ rfl rfl _ (ofInt_lt _ _) (by simp only [Landing.into, show I.ac.w = 40 from rfl, hfit])

/-- Eight bits put over the top of a 40-bit number leave its low word. -/
theorem put_top_byte (old d : Nat) (hold : old < 2 ^ 40) :
    (old - Nat.land old (255 * 2 ^ 32) + Nat.land (d % 256 * 2 ^ 32) (255 * 2 ^ 32)) % 2 ^ 40 =
      d % 256 * 2 ^ 32 + old % 2 ^ 32 := by
  rw [land_low, land_low]
  omega

theorem movta_high_case (h : CoreReady s c.val) (rd : BitVec 5) (n : BitVec 3) (hh : Bool) :
    let j := 16 * rbank s c.val + 2 * n.toNat + b2n hh
    Does (.movta c true rd n hh 1) s fun t => Issued s t c.val [] [(I.ac, j)] ∧
      (settled t c.val).rd I.ac j = readD s (rbank s c.val) rd.toNat % 256 * 2 ^ 32 + s.rd I.ac j % 2 ^ 32 := by
  intro j
  refine ac_one h _ j _ (some (255 * 2 ^ 32)) _ rfl rfl _ ?_ (put_top_byte _ _ (rd_mod_lt s I.ac j))
  omega

end

/-- Settles O23: the terms of each instruction are exact products, and each half takes its term as ACC says. -/
theorem multipliesAccumulateExactly : Obligations.MultipliesAccumulateExactly := by
  unfold Obligations.MultipliesAccumulateExactly
  intro s c acc d ra rb h b ac x y combined both hov
  refine ⟨fun ha hb cja cjb => ?_, fun hh => ?_, fun ha hb => ?_⟩
  · exact terms_case h _ acc d _ _ hov (exec_cmac s c acc d cja cjb ha hb)
  · refine one_half h _ d (b2n hh) _ hov ?_
    exact congrArg (fun effs => mSyl s c.val true effs false) (accTerm_combined h _ _ acc _)
  · exact terms_case h _ acc d _ _ hov (exec_qmac s c acc d ha hb)

/-- Settles O25: each move by its form, its results landing two bundles later. -/
theorem accumulatorsMoveThroughRoundingAndFit : Obligations.AccumulatorsMoveThroughRoundingAndFit := by
  unfold Obligations.AccumulatorsMoveThroughRoundingAndFit
  intro s c rd n h
  exact ⟨fun hh => ⟨mova_half_case h rd n hh, mova_word_case h rd n hh, movar_low_case h rd n hh, movar_high_case h rd n hh,
    movta_low_case h rd n hh, movta_high_case h rd n hh, expa_case h rd n hh⟩, fun heven => mova_pair_case h n heven⟩

end Sys2Proof.Machine
end

section
/-! PROOFS.  Branches (chapter 5): the two delay bundles, the target and the link. -/

namespace Sys2Proof.Machine

open Safety

section

variable {s : State} {c : Fin 68}

/-- Core c has begun two delay bundles before a branch, taken or not, to a target. -/
def BeginsDelay (s : State) (c : Nat) (taken : Bool) (target : Int) (t : State) : Prop :=
  t.rd I.dly (rbank s c) = 2 ∧ t.rd I.btaken (rbank s c) = b2n taken ∧ t.rd I.btgt (rbank s c) = ofInt 32 target

/-- The cells in which a bank keeps a branch under way. -/
def delayCells (b : Nat) : List (Fld × Nat) := [(I.dly, b), (I.btaken, b), (I.btgt, b)]

/-- A branch without a link. -/
theorem plain_branch_case (h : CoreReady s c.val) (i : Instr) (taken relative : Bool) (target : Int)
    (hi : exec i s = sSyl s c.val true [.act (.branch taken relative target)] []) :
    Does i s fun t => Issued s t c.val (delayCells (rbank s c.val)) [] ∧
      BeginsDelay s c.val taken (if relative then (pcOf s c.val : Int) + target else target) t := by
  obtain ⟨t, hexec, ⟨hissued, hbegins⟩, -⟩ := branch_case h i taken relative target none hi
  exact ⟨t, hexec, hissued, hbegins⟩

/-- A branch that writes the link in pointer pd. -/
theorem link_branch_case (h : CoreReady s c.val) (i : Instr) (relative : Bool) (target : Int) (pd : BitVec 4)
    (hi : exec i s = sSyl s c.val true
      [.put I.p (16 * rbank s c.val + pd.toNat) (linkAddr s c.val) 1, .act (.branch true relative target)] []) :
    let p := 16 * rbank s c.val + pd.toNat
    Does i s fun t => Issued s t c.val (delayCells (rbank s c.val) ++ [(I.p, p)]) [] ∧
      BeginsDelay s c.val true (if relative then (pcOf s c.val : Int) + target else target) t ∧
      t.rd I.p p = linkAddr s c.val := by
  intro p
  obtain ⟨t, hexec, ⟨hissued, hbegins⟩, hlink⟩ := branch_case h i true relative target (some (p, linkAddr s c.val)) hi
  exact ⟨t, hexec, hissued, hbegins, (hlink _ rfl).trans (Nat.mod_mod _ _)⟩

/-- At a bundle boundary the link is the address of the third bundle from the PC. -/
theorem linkAddr_ready (h : CoreReady s c.val) :
    linkAddr s c.val = afterBundle s c.val (afterBundle s c.val (pcOf s c.val + 4) 4) 4 % 2 ^ 32 := by
  obtain ⟨-, -, -, -, hempty, -⟩ := h
  have hsyl : sylAddr s c.val = pcOf s c.val := by
    rw [sylAddr, hempty]
    rfl
  rw [linkAddr, hsyl]

theorem exec_brc (h : CoreReady s c.val) {k : BitVec 4} (off : BitVec 19) (hk : k ≠ 15) :
    let b := rbank s c.val
    let z := s.rd I.flZ b == 1
    let n := s.rd I.flN b == 1
    let cy := s.rd I.flC b == 1
    let v := s.rd I.flV b == 1
    exec (.brc c true k off) s = sSyl s c.val true [.act (.branch
      (k == 14 || [z, n != v, z || n != v, cy, cy && !z, n, v].getD (k.toNat / 2) false != (k.toNat % 2 == 1))
      true (4 * off.toInt))] [] := by
  intro b z n cy v
  have hs : inFlight s b = [] := ready_inFlight h
  have hlegal : illegalIf (k == 15#4) = [] := if_neg (by simpa using hk)
  have hcond : branchCond s b k.toNat = condHolds k.toNat z n cy v := by simp only [branchCond, cr_still hs, z, n, cy, v]
  show sSyl s c.val true [relBranch (branchCond s b k.toNat) off.toInt] (illegalIf (k == 15#4)) = _
  rw [hlegal, hcond, cond_eq z n cy v k hk]
  rfl

/-- A jump to an aligned address bars nothing. -/
theorem exec_jlr_link (s : State) (c : Fin 68) (pd : BitVec 4) {ps : BitVec 4}
    (ha : readP s (rbank s c.val) ps.toNat % 4 = 0) :
    exec (.jlr c true pd ps true) s = sSyl s c.val true
      [.put I.p (16 * rbank s c.val + pd.toNat) (linkAddr s c.val) 1,
        .act (.branch true false (readP s (rbank s c.val) ps.toNat))] [] := by
  show execJlr c true pd ps true s = _
  simp [execJlr, ha]

theorem exec_jr (s : State) (c : Fin 68) {ps : BitVec 4} (ha : readP s (rbank s c.val) ps.toNat % 4 = 0) :
    exec (.jlr c true 0 ps false) s =
      sSyl s c.val true [.act (.branch true false (readP s (rbank s c.val) ps.toNat))] [] := by
  show execJlr c true 0 ps false s = _
  simp [execJlr, ha]

end

/-- Settles O27: each branch begins its delay with its target, and the linking ones write the third bundle's address. -/
theorem branchesTakeEffectAfterTwoDelayBundles : Obligations.BranchesTakeEffectAfterTwoDelayBundles := by
  unfold Obligations.BranchesTakeEffectAfterTwoDelayBundles
  intro s c h b flow begins third rel
  have hlink : linkAddr s c.val = third := linkAddr_ready h
  refine ⟨fun off => plain_branch_case h _ true true _ rfl, fun k off hk => plain_branch_case h _ _ true _ (exec_brc h off hk),
    fun pd off => ?_, fun pd ps ha => ⟨?_, plain_branch_case h _ true false _ (exec_jr s c ha)⟩⟩
  · rw [← hlink]
    exact link_branch_case h _ true _ pd rfl
  · rw [← hlink]
    exact link_branch_case h _ false _ pd (exec_jlr_link s c pd ha)

end Sys2Proof.Machine
end

section
/-! PROOFS.  The mode across one command (chapter 2): a bundle holds two accesses, and each may be an accepted request. -/

namespace Sys2Proof.Machine

open Safety

-- One declaration at a time, as in the tests: together their elaborators reserve more memory than the check allows.
set_option Elab.async false

/-- BOOT with an authenticated image, which SVC0 runs: the pointers of its X and its Y access both name PMU_MODE, its
registers hold requests for SERVICE and for DRAIN, and the X access of its bundle, the store of the first, has come. -/
def twoRequests : State :=
  { puts State.reset [(F.PMU_MODE_CURRENT, 0, mBOOT), (F.SYS_BOOTSTAT_AUTH, 0, 1), (I.romSt, 0, 3), (I.pcb, 128, 0x31000000),
      (I.p, 16 * 128, 0xF0100800), (I.p, 16 * 128 + 8, 0xF0100800), (I.d, 32 * 128 + 1, 0x8003), (I.d, 32 * 128 + 3, 0x8004)] with
    bundles := [(64, ⟨1, 0, true, false, [.store 2 4 0xF0100800 0x80030000], [], false⟩)] }

/-- The Y access of that bundle, which ends it. -/
def secondRequest : Instr := .stW 64 true .second true (.dual 0) 2 0

/-- The mode that a command leaves. -/
def modeAfter (i : Instr) (s : State) : Option Nat :=
  match exec i s with
  | .next t => some t.mode
  | _ => none

theorem modeAfter_eq_some {i : Instr} {s : State} {m : Nat} (h : modeAfter i s = some m) :
    ∃ t, exec i s = .next t ∧ t.mode = m := by
  unfold modeAfter at h
  split at h
  · exact ⟨_, ‹_›, Option.some.inj h⟩
  · contradiction

/-- The requests of the two accesses are accepted one after the other, from BOOT to SERVICE and on to DRAIN. -/
theorem twoRequests_end_in_drain : modeAfter secondRequest twoRequests = some mDRAIN := by decide +kernel

theorem twoRequests_mode : twoRequests.mode = mBOOT := by decide +kernel

/-- Refutes O4: a supervisor core's bundle of two stores to PMU_MODE, of requests for SERVICE and for DRAIN, takes the
device from BOOT to DRAIN within the one command that ends the bundle. -/
theorem not_modeChangesOnlyAsTheTableAllows : ¬ Obligations.ModeChangesOnlyAsTheTableAllows := by
  unfold Obligations.ModeChangesOnlyAsTheTableAllows
  intro h
  obtain ⟨t, hexec, hmode⟩ := modeAfter_eq_some twoRequests_end_in_drain
  have hallowed := h secondRequest twoRequests t hexec
  rw [hmode, twoRequests_mode] at hallowed
  exact absurd (hallowed (by decide)) (by decide)

end Sys2Proof.Machine
end

section
/-! PROOFS.  One step, and the machine at power-on. -/

namespace Sys2Proof.Machine

open Safety

set_option Elab.async false

/-- Settles O1: the step looks at the front of the queue alone. -/
theorem stepRunsTheFrontCommand : Obligations.StepRunsTheFrontCommand := by
  unfold Obligations.StepRunsTheFrontCommand
  intro s c r
  rfl

/-- Settles O5: nothing has been written, so that every cell reads its reset value and every table is empty. -/
theorem resetLeavesTheSpecsValues : Obligations.ResetLeavesTheSpecsValues := by
  unfold Obligations.ResetLeavesTheSpecsValues
  have hcluster : ∀ c, c < 8 → State.reset.rd F.CLU_CFG_FLOOR c = 3 ∧ State.reset.rd F.CLU_CFG_IDLE c = 20 ∧
      State.reset.rd F.CLU_CFG_PLLDLY c = 200 ∧ State.reset.rd F.CLU_CFG_PWRDLY c = 100 ∧
      cluSt State.reset c = clPWROFF := fun _ _ => ⟨rfl, rfl, rfl, rfl, rfl⟩
  exact ⟨rfl, rfl, rfl, rfl, rfl, rfl, rfl, rfl, rfl, rfl, rfl, rfl, rfl, rfl, hcluster, fun _ => rfl, fun _ => rfl⟩

end Sys2Proof.Machine
end

section
/-! PROOFS.  What every operation of the machine keeps: the queue of waiting commands, and the canonical form of memory.
One law per operation, in the order of the model; an operation that is made of others has its law from theirs. -/

namespace Sys2Proof.Machine

open Safety

set_option Elab.async false

/-- From s to t the waiting commands are the same, and memory stays canonical; with `nw`, the counter of Nightwatch
is the same as well. -/
structure Keeps (nw : Bool) (s t : State) : Prop where
  pending : t.pending = s.pending
  mem : MemoryCanonical s → MemoryCanonical t
  count : nw = true → t.rd I.nwCnt = s.rd I.nwCnt

/-- An outcome is a next state, and the way to it keeps what `Keeps` says. -/
def Runs (s : State) (o : Host.Outcome State Fault Refusal) : Prop := ∃ t, o = .next t ∧ Keeps false s t

variable {nw : Bool} {s t u : State}

theorem Keeps.refl (s : State) : Keeps nw s s := ⟨rfl, id, fun _ => rfl⟩

/-! ## The shapes that operations are made of -/

/-- A state that later states are made from: its law is used more than once. -/
theorem Keeps.andThen (hu : Keeps nw s t → Keeps nw s u) (h : Keeps nw s t) : Keeps nw s u := hu h

theorem Keeps.of_fst {α : Type} {p : State × α} {a : α} (hp : p = (u, a)) (h : Keeps nw s p.1) :
    Keeps nw s u := by
  rw [hp] at h
  exact h

theorem Keeps.ite {c : Prop} {d : Decidable c} (ht : Keeps nw s t) (hu : Keeps nw s u) : Keeps nw s (if c then t else u) := by
  split <;> assumption

theorem Keeps.iteSnd {α : Type} {c : Prop} {d : Decidable c} {p q : α × State} (hp : Keeps nw s p.2) (hq : Keeps nw s q.2) :
    Keeps nw s (if c then p else q).2 := by
  split <;> assumption

theorem Keeps.mkSnd {α : Type} {a : α} (h : Keeps nw s t) : Keeps nw s (a, t).2 := h

theorem Keeps.iteThird {α β : Type} {c : Prop} {d : Decidable c} {p q : α × β × State} (hp : Keeps nw s p.2.2)
    (hq : Keeps nw s q.2.2) : Keeps nw s (if c then p else q).2.2 := by
  split <;> assumption

theorem Keeps.iteFst {α : Type} {c : Prop} {d : Decidable c} {p q : State × α} (hp : Keeps nw s p.1) (hq : Keeps nw s q.1) :
    Keeps nw s (if c then p else q).1 := by
  split <;> assumption

theorem Keeps.onElem {e : Option Nat} {f : Nat → State} (hf : ∀ k, Keeps nw s (f k)) (ht : Keeps nw s t) :
    Keeps nw s (Machine.onElem e f t) := by
  cases e with
  | none => exact ht
  | some k => exact hf k

theorem Keeps.onElemSnd {e : Option Nat} {f : Nat → Nat × State} {p : Nat × State} (hf : ∀ k, Keeps nw s (f k).2)
    (hp : Keeps nw s p.2) : Keeps nw s (Machine.onElem e f p).2 := by
  cases e with
  | none => exact hp
  | some k => exact hf k

theorem Keeps.doSel {ini : Init} {blk : Nat} {f : Nat → State} (h : Keeps nw s t) (hf : ∀ k, Keeps nw s (f k)) :
    Keeps nw s (Machine.doSel t ini blk f) :=
  .onElem hf h

theorem Keeps.foldl {α : Type} {l : List α} {f : State → α → State} (h : Keeps nw s t)
    (hf : ∀ u a, Keeps nw s u → Keeps nw s (f u a)) : Keeps nw s (l.foldl f t) := by
  induction l generalizing t with
  | nil => exact h
  | cons a r ih => exact ih (hf t a h)

theorem Keeps.over {α : Type} {l : List α} {f : State → α → State} (h : Keeps nw s t)
    (hf : ∀ u a, Keeps nw s u → Keeps nw s (f u a)) : Keeps nw s (t.over l f) :=
  h.foldl hf

theorem Runs.go (h : Keeps false s t) : Runs s (.next t) := ⟨t, rfl, h⟩

theorem Runs.andThen {o : Host.Outcome State Fault Refusal} (ho : Keeps false s t → Runs s o) (h : Keeps false s t) : Runs s o := ho h

theorem Runs.ite {c : Prop} {d : Decidable c} {o p : Host.Outcome State Fault Refusal} (ho : Runs s o) (hp : Runs s p) :
    Runs s (if c then o else p) := by
  split <;> assumption

theorem Runs.onChannel {c : Nat} {f : State → Nat → State} (h : Keeps false s t) (hf : ∀ u i, Keeps false s u → Keeps false s (f u i)) :
    Runs s (Machine.onChannel t c f) := by
  unfold Machine.onChannel
  split
  · exact .go (hf _ _ h)
  · exact .go h

/-! ## Lists and tables of the state -/

/-- Cells, lists and tables are replaced. -/
theorem Keeps.withCells {cells : Tbl (Tbl Nat)} {freeCtr : Nat} {rdata : Tbl Nat} {partialFuses : List Nat}
    {bundles : Tbl Bundle} {landings : Tbl (List Landing)} {macShadow : Tbl (List (Nat × Nat))} {iLines : Tbl (List Nat)}
    {dLines : Tbl DLine} {tlbs : Tbl (List TlbEntry)} {queues : Tbl Queue} {rxFrames : List RxFrame}
    {egress : Tbl (List EgFrame)} {links : Tbl Link} {wire : Tbl (List Byte)} (h : Keeps false s t) :
    Keeps false s ⟨t.pending, cells, t.mem, freeCtr, rdata, partialFuses, bundles, landings, macShadow, iLines, dLines,
      tlbs, queues, rxFrames, egress, links, wire⟩ :=
  ⟨h.pending, h.mem, Bool.noConfusion⟩

/-- Lists and tables are replaced. -/
theorem Keeps.withLists {freeCtr : Nat} {rdata : Tbl Nat} {partialFuses : List Nat}
    {bundles : Tbl Bundle} {landings : Tbl (List Landing)} {macShadow : Tbl (List (Nat × Nat))} {iLines : Tbl (List Nat)}
    {dLines : Tbl DLine} {tlbs : Tbl (List TlbEntry)} {queues : Tbl Queue} {rxFrames : List RxFrame}
    {egress : Tbl (List EgFrame)} {links : Tbl Link} {wire : Tbl (List Byte)} (h : Keeps nw s t) :
    Keeps nw s ⟨t.pending, t.cells, t.mem, freeCtr, rdata, partialFuses, bundles, landings, macShadow, iLines, dLines,
      tlbs, queues, rxFrames, egress, links, wire⟩ :=
  ⟨h.pending, h.mem, h.count⟩

theorem keptByReset_nwCnt : keptByReset I.nwCnt.id = true := by decide

theorem keptByBoot_nwCnt : keptByBoot I.nwCnt.id = true := by simp [keptByBoot, keptByReset_nwCnt]

theorem Keeps.loseAll {keep : Nat → Bool} (h : Keeps nw s t) (hk : nw = true → keep I.nwCnt.id = true) :
    Keeps nw s (t.loseAll keep) :=
  ⟨h.pending, h.mem, fun hn => ((loseAll_rd t keep I.nwCnt 0).trans (if_pos (hk hn))).trans (h.count hn)⟩

/-! ## Memory -/

theorem Keeps.putByte {a : Nat} {b : Byte} (h : Keeps nw s t) : Keeps nw s (t.putByte a b) :=
  ⟨h.pending, fun hs => State.putByte_wf t a b (h.mem hs), h.count⟩

theorem Keeps.writeBytes {a : Nat} {l : List Byte} (h : Keeps nw s t) : Keeps nw s (t.writeBytes a l) := by
  induction l generalizing t a with
  | nil => exact h
  | cons b r ih => exact ih h.putByte

theorem Keeps.copyMem {src dst n : Nat} (h : Keeps nw s t) : Keeps nw s (t.copyMem src dst n) :=
  ⟨h.pending, fun hs => State.copyMem_wf t src dst n (h.mem hs), h.count⟩

theorem Keeps.loseMem {a n : Nat} (h : Keeps nw s t) : Keeps nw s (t.loseMem a n) :=
  ⟨h.pending, fun hs => State.loseMem_wf t a n (h.mem hs), h.count⟩

theorem Keeps.noMem (h : Keeps nw s t) : Keeps nw s { t with mem := [] } := ⟨h.pending, fun _ => rfl, h.count⟩

/-- A range of memory that is copied, cleared or kept by a rule stays canonical. -/
theorem Keeps.keepMem {p : Nat → Bool} (h : Keeps nw s t) : Keeps nw s { t with mem := Tbl.keep p t.mem } :=
  ⟨h.pending, fun hs => Tbl.wf_keep _ p t.mem (h.mem hs), h.count⟩

/-! ## Cells, counters and records -/

theorem Keeps.wr {f : Fld} {i v : Nat} (h : Keeps false s t) : Keeps false s (State.wr t f i v) := h.withCells

/-- A write of another cell than the counter of Nightwatch. -/
theorem Keeps.wrBut {f : Fld} {i v : Nat} (h : Keeps nw s t) (hf : (f.id == I.nwCnt.id) = false) :
    Keeps nw s (State.wr t f i v) :=
  ⟨h.pending, h.mem, fun hn => (State.rd_wr_cell t f I.nwCnt i 0 v (beq_eq_false_iff_ne.mp hf)).trans (h.count hn)⟩

theorem Keeps.set {f : Fld} {v : Nat} (h : Keeps false s t) : Keeps false s (State.set t f v) := h.wr

theorem Keeps.setBut {f : Fld} {v : Nat} (h : Keeps nw s t) (hf : (f.id == I.nwCnt.id) = false) :
    Keeps nw s (State.set t f v) :=
  h.wrBut hf

theorem Keeps.clearFld {f : Fld} (h : Keeps false s t) : Keeps false s (State.clearFld t f) := h.withCells

theorem Keeps.draw (h : Keeps false s t) : Keeps false s (State.draw t).2 := h.withLists

theorem Keeps.seen {code v : Nat} (h : Keeps false s t) : Keeps false s (State.seen t code v) := h.withLists

theorem Keeps.writeLE {a n v : Nat} (h : Keeps false s t) : Keeps false s (State.writeLE t a n v) := h.writeBytes

theorem Keeps.bump {f : Fld} {i : Nat} {ovf : Option Fld} (h : Keeps nw s t)
    (hf : (f.id == I.nwCnt.id) = false)
    (hg : ovf.any (·.id == I.nwCnt.id) = false) : Keeps nw s (State.bump t f i ovf) := by
  unfold Machine.State.bump
  refine .ite (.ite ?_ (h.wrBut hf)) h
  split
  · exact (h.wrBut hf).setBut hg
  · exact h.wrBut hf

theorem Keeps.bumpBy {f : Fld} {i : Nat} {ovf : Option Fld} {n : Nat} (h : Keeps nw s t)
    (hf : (f.id == I.nwCnt.id) = false)
    (hg : ovf.any (·.id == I.nwCnt.id) = false) : Keeps nw s (State.bumpBy t f i ovf n) := by
  unfold Machine.State.bumpBy
  refine .ite ?_ (.ite (h.wrBut hf) h)
  split
  · exact (h.wrBut hf).setBut hg
  · exact h.wrBut hf

theorem Keeps.mlsTrig {sources : Nat} (h : Keeps nw s t) : Keeps nw s (State.mlsTrig t sources) := by
  unfold Machine.State.mlsTrig
  exact .ite h (.ite ((((h.setBut rfl).setBut rfl).setBut rfl).setBut rfl) ((h.bump rfl rfl).setBut rfl))

theorem Keeps.errEvent {k : Nat} (h : Keeps nw s t) : Keeps nw s (State.errEvent t k) := by
  unfold Machine.State.errEvent
  exact .ite h.mlsTrig h

theorem Keeps.recordErr {ini : Init} {kind : Nat} {write : Bool} {a : Nat} (h : Keeps false s t) : Keeps false s (State.recordErr
    t ini kind write a) := by
  unfold Machine.State.recordErr
  exact .ite h.set h.set.set.set.set.set.set.errEvent

/-! ## Ports and links go down -/

theorem Keeps.loadLatency {i mode fec : Nat} (h : Keeps false s t) : Keeps false s (loadLatency t i mode fec) := by
  unfold Machine.loadLatency
  exact .ite h h.wr.wr.wr

theorem Keeps.portCnt {p k n : Nat} (h : Keeps nw s t) : Keeps nw s (portCnt t p k n) := h.bumpBy rfl rfl

theorem Keeps.pkeCnt {k : Nat} (h : Keeps nw s t) : Keeps nw s (pkeCnt t k) := h.bump rfl rfl

theorem Keeps.linkCnt {l k n : Nat} (h : Keeps nw s t) : Keeps nw s (linkCnt t l k n) := h.bumpBy rfl rfl

theorem Keeps.cwCnt {k : Nat} (h : Keeps nw s t) : Keeps nw s (cwCnt t k) := h.bump rfl rfl

theorem Keeps.portDown {p : Nat} (h : Keeps false s t) : Keeps false s (portDown t p) := by
  unfold Machine.portDown
  exact .ite h.wr.wr.wr.wr.set h

theorem Keeps.setLink {l : Nat} {k : Link} (h : Keeps nw s t) : Keeps nw s (setLink t l k) := h.withLists

theorem Keeps.cwUnreach {who : Nat} (h : Keeps nw s t) : Keeps nw s (cwUnreach t who) := by
  unfold Machine.cwUnreach
  split
  · exact ((h.cwCnt.setBut rfl).setBut rfl)
  · exact ((h.cwCnt.setBut rfl).setBut rfl)
  · exact ((h.cwCnt.setBut rfl).setBut rfl)
  · exact h.cwCnt

theorem Keeps.cwDown {l : Nat} (h : Keeps nw s t) : Keeps nw s (cwDown t l) := by
  unfold Machine.cwDown
  exact .ite h (.andThen (fun h => (.wrBut (.wrBut (.wrBut (.wrBut (.wrBut (.ite ((((h.wrBut rfl).wrBut rfl).setBut
    rfl).linkCnt) h) rfl) rfl) rfl) rfl) rfl)) (.foldl h.setLink.linkCnt fun _ _ h => h.cwUnreach))

/-! ## Writes to physical memory -/

theorem Keeps.markRings {a n : Nat} (h : Keeps nw s t) : Keeps nw s (markRings t a n) := by
  unfold Machine.markRings
  exact .ite h (.over h fun _ _ h => .ite ((h.wrBut rfl).wrBut rfl) h)

theorem Keeps.breakLinks {a n : Nat} (h : Keeps nw s t) : Keeps nw s (breakLinks t a n) := by
  unfold Machine.breakLinks
  exact .over h fun _ _ h => (h.wrBut rfl)

theorem Keeps.physWrite {a : Nat} {b : List Byte} (h : Keeps nw s t) : Keeps nw s (physWrite t a b) :=
  h.writeBytes.markRings.breakLinks

/-! ## Entries to RESET and FENCED -/

theorem Keeps.setPens {v : Nat} (h : Keeps false s t) : Keeps false s (State.setPens t v) := by
  unfold Machine.State.setPens
  exact .foldl h fun _ _ h => h.wr

theorem Keeps.enterReset {cause : Nat} (h : Keeps false s t) : Keeps false s (enterReset t cause) := by
  unfold Machine.enterReset
  exact .setPens (.set (.set (.set (.set (.set (.set (.set (.loseAll (.ite h.withLists h) Bool.noConfusion))))))))

theorem Keeps.fenceInterfaces (h : Keeps false s t) : Keeps false s (fenceInterfaces t) := by
  unfold Machine.fenceInterfaces
  exact .foldl (.foldl h.withLists fun _ _ h => h.portDown) fun _ _ h => h.cwDown

theorem Keeps.enterFenced {cause : Nat} (h : Keeps false s t) : Keeps false s (enterFenced t cause) := by
  unfold Machine.enterFenced
  exact .ite h (.ite h.set h.set.set.set.set.set.set.set.setPens.fenceInterfaces)

theorem Keeps.fatalError {cause : Nat} (h : Keeps false s t) : Keeps false s (fatalError t cause) := by
  unfold Machine.fatalError
  exact .ite h (.ite h.errEvent.set h.errEvent.enterFenced)

theorem Keeps.perstSeen (h : Keeps nw s t) : Keeps nw s (perstSeen t) := by
  unfold Machine.perstSeen
  exact .ite h (h.setBut rfl)

/-! ## Power sequence, boot and fuses -/

theorem Keeps.loadShadows (h : Keeps false s t) : Keeps false s (loadShadows t) := by
  unfold Machine.loadShadows
  exact .withLists (.foldl h fun _ _ h => h.wr)

theorem Keeps.loadProtection {ok : Bool} (h : Keeps false s t) : Keeps false s (loadProtection t ok) :=
  h.set.set.set.set.set.set.set.set.set

theorem Keeps.loadSeqStep {n : Nat} (h : Keeps false s t) : Keeps false s (loadSeqStep t n) := h.wr.wr.wr.wr.wr

theorem Keeps.loadFuseDefaults (h : Keeps false s t) : Keeps false s (loadFuseDefaults t) := by
  unfold Machine.loadFuseDefaults
  exact .set (.set (.set (.set (.set (.set (.set (.set (.set (.foldl h fun _ _ h => h.loadSeqStep)))))))))

theorem Keeps.romStart (h : Keeps false s t) : Keeps false s (romStart t) := by
  unfold Machine.romStart
  exact .ite h.set.set (.ite h.set.set (.andThen (fun h => .ite h.set h) (.ite h.set.set.set.set.set.set.wr
    h.set.set.set.set.set)))

theorem Keeps.seqFrom {k : Nat} (h : Keeps false s t) : Keeps false s (seqFrom t k) := by
  unfold Machine.seqFrom
  split
  · exact h.set.set.wr
  · exact h.set.set.set.set.romStart

theorem Keeps.seqStart (h : Keeps false s t) : Keeps false s (seqStart t) := by
  unfold Machine.seqStart
  exact .seqFrom (.foldl h.set.set.set fun _ _ h => .ite h.wr h)

theorem Runs.execNightwatchStart (h : Keeps false s t) : Runs s (execNightwatchStart t) := by
  unfold Machine.execNightwatchStart
  exact .go h.set

theorem Runs.execRstNLow (h : Keeps false s t) : Runs s (execRstNLow t) := by
  unfold Machine.execRstNLow
  exact .ite (.go h.enterReset.set) (.go h)

theorem Runs.execRstNRise {bootsel : BitVec 3} (h : Keeps false s t) : Runs s (execRstNRise bootsel t) := by
  unfold Machine.execRstNRise
  exact .ite (.andThen (fun h => .ite (.go h.set.set) (.go h.set.perstSeen)) h.set.set.set.set.set.setPens) (.go h)

theorem Runs.execFuseLoadDone {intact : Bool} (h : Keeps false s t) : Runs s (execFuseLoadDone intact t) := by
  unfold Machine.execFuseLoadDone
  exact .ite (.go (.set (.loadFuseDefaults (.loadProtection (.ite h.loadShadows.set h.loadShadows.set.set))))) (.go h)

theorem Runs.execRefclkDetectDone {edges : Nat} (h : Keeps false s t) : Runs s (execRefclkDetectDone edges t) := by
  unfold Machine.execRefclkDetectDone
  exact .ite (.ite (.go h.set.set) (.ite (.go h.set.set) (.go h.set.set))) (.go h)

theorem Keeps.resetBlock {blk : Nat} (h : Keeps false s t) : Keeps false s (resetBlock t blk) := h.withCells

theorem Runs.execMainPllLock (h : Keeps false s t) : Runs s (execMainPllLock t) := by
  unfold Machine.execMainPllLock
  exact .ite (.go h.set.set.resetBlock.seqStart) (.go h)

theorem Runs.execSeqDelayExpiry (h : Keeps false s t) : Runs s (execSeqDelayExpiry t) := by
  unfold Machine.execSeqDelayExpiry
  exact .ite (.ite (.go h.set) (.go h.seqFrom)) (.go h)

theorem Runs.execSeqPgood (h : Keeps false s t) : Runs s (execSeqPgood t) := by
  unfold Machine.execSeqPgood
  exact .ite (.go h.set.seqFrom) (.go h.set)

theorem Keeps.seqFail (h : Keeps false s t) : Keeps false s (seqFail t) := h.set.set.fatalError

theorem Runs.execSeqPgtimeout (h : Keeps false s t) : Runs s (execSeqPgtimeout t) := by
  unfold Machine.execSeqPgtimeout
  exact .ite (.go h.seqFail) (.go h)

theorem Runs.execPgoodFail (h : Keeps false s t) : Runs s (execPgoodFail t) := by
  unfold Machine.execPgoodFail
  exact .ite (.go h.set.seqFail) (.go h.set)

theorem Runs.execRefclkLoss (h : Keeps false s t) : Runs s (execRefclkLoss t) := by
  unfold Machine.execRefclkLoss
  exact .ite (.go h.set.set.set.set.fatalError) (.go h)

theorem Keeps.imageRejected {code : Nat} (h : Keeps false s t) : Keeps false s (imageRejected t code) := by
  unfold Machine.imageRejected
  exact .ite (.ite h.set.set.set (.ite h.set.set.set.set h.set.set.set)) h.set.set

theorem Keeps.imageAccepted {h' : List Byte} (h : Keeps false s t) : Keeps false s (imageAccepted t h') := h.set.set.set.set.wr

theorem Keeps.checkInSym (h : Keeps false s t) : Keeps false s (checkInSym t) := by
  unfold Machine.checkInSym
  dsimp only
  split
  · exact h.imageRejected
  · exact .ite h.copyMem.imageAccepted h.imageRejected

theorem Keeps.checkFromSource {h' body : List Byte} (h : Keeps false s t) : Keeps false s (checkFromSource t h' body) := by
  unfold Machine.checkFromSource
  split
  · exact h.imageRejected
  · exact .ite h.writeBytes.imageAccepted h.writeBytes.imageRejected

theorem Runs.execBootImageCheck {responded : Bool} {hdr body : List Byte} (h : Keeps false s t) : Runs s (execBootImageCheck
    responded hdr body t) := by
  unfold Machine.execBootImageCheck
  exact .ite (.ite (.go h.imageRejected) (.ite (.go h) (.ite (.go h.set.set.set.checkInSym) (.go
    h.set.set.set.checkFromSource)))) (.go h)

theorem Keeps.fusProgWrite {ini : Init} {vfuse : Bool} {v : Nat} (h : Keeps false s t) : Keeps false s (fusProgWrite t ini vfuse
    v) := by
  unfold Machine.fusProgWrite
  exact .ite h.set.set.set (.ite h.set.set.set.set.set.set h.set.set.set.set)

theorem Runs.execFusProg {ini : Init} {vfuse : Bool} {v : Word} (h : Keeps false s t) : Runs s (execFusProg ini vfuse v t) := by
  unfold Machine.execFusProg
  exact .ite (.go h.fusProgWrite) (.go h)

theorem Runs.execFuseBurnDone (h : Keeps false s t) : Runs s (execFuseBurnDone t) := by
  unfold Machine.execFuseBurnDone
  exact .ite (.go h.wr.set.set.set) (.go h)

theorem Keeps.tightenBar2 {v : Nat} (h : Keeps false s t) : Keeps false s (tightenBar2 t v) := by
  unfold Machine.tightenBar2
  exact .ite (.set (.ite h.set h)) (.ite h.set h)

theorem Keeps.protectionWrite {reg v : Nat} (h : Keeps false s t) : Keeps false s (protectionWrite t reg v) := by
  unfold Machine.protectionWrite
  split
  · exact h.set
  · exact h.set
  · exact h.set
  · exact h.set
  · exact h.tightenBar2
  · exact h.set.set.set

theorem Runs.execProtectionMapWrite {ini : Init} {reg : Fin 6} {v : Word} (h : Keeps false s t) : Runs s
    (execProtectionMapWrite ini reg v t) := by
  unfold Machine.execProtectionMapWrite
  exact .ite (.go h.protectionWrite) (.go h)

/-! ## Maps, pools and frames -/

theorem Keeps.emptyFrame {i : Nat} (h : Keeps nw s t) : Keeps nw s (emptyFrame t i) :=
  ((((((h.wrBut rfl).wrBut rfl).wrBut rfl).wrBut rfl).wrBut rfl).wrBut rfl).wrBut rfl

theorem Keeps.touchFrame {i : Nat} (h : Keeps nw s t) : Keeps nw s (touchFrame t i) := (h.wrBut rfl).setBut rfl

theorem Keeps.toCached {i : Nat} (h : Keeps nw s t) : Keeps nw s (toCached t i) := by
  unfold Machine.toCached
  exact .ite h.emptyFrame ((((h.wrBut rfl).wrBut rfl).wrBut rfl).touchFrame)

theorem Keeps.markDirty {i : Nat} (h : Keeps false s t) : Keeps false s (markDirty t i) := h.wr.wr

theorem Keeps.pickPage {p : Nat → Bool} (h : Keeps false s t) (he : pickPage t p = some r) : Keeps false s r.2 := by
  obtain ⟨n, -, rfl⟩ := Option.map_eq_some_iff.mp he
  exact h.draw

theorem Keeps.bindPage {cid v n : Nat} (h : Keeps false s t) : Keeps false s (bindPage t cid v n) := h.wr.wr.wr.wr.wr

theorem Keeps.useMore {p : Nat} (h : Keeps false s t) : Keeps false s (useMore t p) := h.wr

theorem Keeps.useLess {p : Nat} (h : Keeps false s t) : Keeps false s (useLess t p) := h.wr

theorem Keeps.unbindPage {cid v : Nat} (h : Keeps false s t) : Keeps false s (unbindPage t cid v) := by
  unfold Machine.unbindPage
  exact .useLess (.ite h.wr.wr h.wr.wr.wr)

theorem Keeps.allocPage {cid v : Nat} (h : Keeps false s t) (he : allocPage t cid v = some u) : Keeps false s u := by
  obtain ⟨r, hr, rfl⟩ := Option.map_eq_some_iff.mp he
  exact (h.pickPage hr).bindPage.loseMem.useMore

theorem Keeps.firstAccess {cid v : Nat} (h : Keeps false s t) (he : firstAccess t cid v = some u) : Keeps false s u := by
  obtain ⟨r, hr, rfl⟩ := Option.map_eq_some_iff.mp he
  exact (h.pickPage hr).bindPage.loseMem.set

theorem Keeps.cpgCount {f : Fld} {n : Nat} (h : Keeps nw s t) (hf : (f.id == I.nwCnt.id) = false) :
    Keeps nw s (cpgCount t f n) :=
  h.bumpBy hf rfl

theorem Keeps.refreshCopies {cid v : Nat} (h : Keeps false s t) : Keeps false s (refreshCopies t cid v) := by
  unfold Machine.refreshCopies
  exact .over h fun _ _ h => .ite h.emptyFrame (.ite h.wr.wr h)

theorem Keeps.cstWritten {n : Nat} (h : Keeps false s t) : Keeps false s (cstWritten t n) := by
  unfold Machine.cstWritten
  exact .ite h.refreshCopies h

theorem Keeps.invalidateOthers {i cid v : Nat} (h : Keeps nw s t) : Keeps nw s (invalidateOthers t i cid v) := by
  unfold Machine.invalidateOthers
  exact .over h fun _ _ h => .ite ((h.wrBut rfl).wrBut rfl) h.emptyFrame

theorem Keeps.discardContext {cid : Nat} (h : Keeps false s t) : Keeps false s (discardContext t cid) := by
  unfold Machine.discardContext
  exact .over h fun _ _ h => h.emptyFrame

theorem Keeps.discardFrames {t' : Nat} (h : Keeps false s t) : Keeps false s (discardFrames t t') := by
  unfold Machine.discardFrames
  exact .over h fun _ _ h => h.emptyFrame

theorem Keeps.releaseFrames {t' : Nat} (h : Keeps false s t) : Keeps false s (releaseFrames t t') := by
  unfold Machine.releaseFrames
  exact .over h fun _ _ h => .ite h.wr.wr h.toCached

theorem Keeps.noSet {t' : Nat} (h : Keeps nw s t) : Keeps nw s (noSet t t') := (h.wrBut rfl).wrBut rfl

theorem Keeps.setToCached {t' : Nat} (h : Keeps nw s t) : Keeps nw s (setToCached t t') := by
  unfold Machine.setToCached
  exact .ite (.noSet (.over h fun _ _ h => h.toCached)) h

theorem Keeps.cstTouch {a : Nat} (h : Keeps nw s t) : Keeps nw s (cstTouch t a) := by
  unfold Machine.cstTouch
  exact .ite (h.setBut rfl) h

theorem Keeps.frameToCst {i : Nat} (h : Keeps nw s t) : Keeps nw s (frameToCst t i) := by
  unfold Machine.frameToCst
  exact .ite h.cstTouch.copyMem.copyMem h.cstTouch.copyMem

theorem Keeps.writeBackFrame {i : Nat} (h : Keeps nw s t) : Keeps nw s (writeBackFrame t i) := by
  unfold Machine.writeBackFrame
  exact .andThen (fun h => (.cpgCount (.ite h.toCached h) rfl)) (((h.frameToCst.invalidateOthers.wrBut rfl).wrBut
    rfl).wrBut rfl)

theorem Keeps.giveFrame {i cid v owner st : Nat} (h : Keeps false s t) : Keeps false s (giveFrame t i cid v owner st) :=
  h.emptyFrame.wr.wr.wr.wr.wr.touchFrame

theorem Keeps.givePages {c cid owner st : Nat} {keep pages : List Nat} {reserve : Bool} (h : Keeps false s t)
    (he : givePages t c cid owner st keep reserve pages = some u) : Keeps false s u := by
  induction pages generalizing t keep with
  | nil => exact Option.some.inj he ▸ h
  | cons v r ih =>
    unfold Machine.givePages at he
    split at he
    · contradiction
    · exact ih h.giveFrame he

theorem Keeps.giveSet {c cid owner st : Nat} {reserve : Bool} {pages : List Nat} (h : Keeps false s t) (he : giveSet t c cid
    owner st reserve pages = some u) : Keeps false s u :=
  .givePages (.over h fun _ _ h => h.wr.wr.touchFrame) he

/-! ## Temperature, voltage and clocks -/

theorem Keeps.setThrottle {k : Nat} {b : Bool} (h : Keeps false s t) : Keeps false s (setThrottle t k b) := h.set.set

theorem Keeps.compareThermal (h : Keeps false s t) : Keeps false s (compareThermal t) := by
  unfold Machine.compareThermal
  split
  · exact h
  · exact .andThen (fun h => .andThen (fun h => .ite h.setThrottle.fatalError h.setThrottle) (.set (.set (.set (.ite
      h.set h))))) (.ite h.set.set.set h.set.set)

theorem Runs.execTempConversion {sensor : Fin 16} {temp : BitVec 12} (h : Keeps false s t) : Runs s (execTempConversion
    sensor temp t) := by
  unfold Machine.execTempConversion
  exact .ite (.go h.wr.wr.compareThermal) (.go h)

theorem Keeps.thermcfgWrite {v : Nat} (h : Keeps false s t) : Keeps false s (thermcfgWrite t v) := by
  unfold Machine.thermcfgWrite
  exact .andThen (fun h => .ite h.set h) (.ite h.set.set.set h.set.set)

theorem Runs.execThermcfgWrite {ini : Init} {v : Word} (h : Keeps false s t) : Runs s (execThermcfgWrite ini v t) := by
  unfold Machine.execThermcfgWrite
  exact .ite (.go h.thermcfgWrite) (.go h)

theorem Keeps.setVdd {code : Nat} (h : Keeps nw s t) : Keeps nw s (setVdd t code) := (h.setBut rfl).setBut rfl

theorem Keeps.setAtMax {b : Bool} (h : Keeps false s t) : Keeps false s (setAtMax t b) := by
  unfold Machine.setAtMax
  exact .setThrottle (.set (.ite h.set h))

theorem Keeps.raiseVdd (h : Keeps nw s t) : Keeps nw s (raiseVdd t) := by
  unfold Machine.raiseVdd
  exact .ite h.setVdd h

theorem Keeps.lowerVdd (h : Keeps false s t) : Keeps false s (lowerVdd t) := by
  unfold Machine.lowerVdd
  exact .ite h.setVdd h

theorem Runs.execAvsMarginLow {margin : BitVec 8} (h : Keeps false s t) : Runs s (execAvsMarginLow margin t) := by
  unfold Machine.execAvsMarginLow
  exact .ite (.ite (.go (.raiseVdd (.ite h.set h))) (.go (.setAtMax (.ite h.set h)))) (.go (.ite h.set h))

theorem Runs.execAvsLower {margin : BitVec 8} (h : Keeps false s t) : Runs s (execAvsLower margin t) := by
  unfold Machine.execAvsLower
  exact .ite (.go (.lowerVdd (.setAtMax (.ite h.set h)))) (.go (.ite h.set h))

theorem Runs.execAvsPmbfail (h : Keeps false s t) : Runs s (execAvsPmbfail t) := by
  unfold Machine.execAvsPmbfail
  exact .ite (.go h.set.set.set) (.go h)

theorem Runs.execAvsDawnStepRelease {c : Fin 8} (h : Keeps false s t) : Runs s (execAvsDawnStepRelease c t) := by
  unfold Machine.execAvsDawnStepRelease
  exact .ite (.go h.wr.lowerVdd) (.go h)

theorem Keeps.avsstatWrite {v : Nat} (h : Keeps false s t) : Keeps false s (avsstatWrite t v) := by
  unfold Machine.avsstatWrite
  exact .ite h.set.set h

theorem Keeps.pmbcmdWrite {v : Nat} (h : Keeps false s t) : Keeps false s (pmbcmdWrite t v) := by
  unfold Machine.pmbcmdWrite
  exact .ite h.set.set.set.set.set h.set.set.set.set

theorem Runs.execPmbusTransaction {ini : Init} {v : Word} (h : Keeps false s t) : Runs s (execPmbusTransaction ini v t) := by
  unfold Machine.execPmbusTransaction
  exact .ite (.go h.pmbcmdWrite) (.go h)

theorem Runs.execPmbusTransactionDone {data : BitVec 16} {err : Bool} (h : Keeps false s t) : Runs s
    (execPmbusTransactionDone data err t) := by
  unfold Machine.execPmbusTransactionDone
  exact .ite (.ite (.go h.set.set.set) (.go h.set.set)) (.go h)

theorem Runs.execSvcIdleSlow {n : Fin 4} (h : Keeps false s t) : Runs s (execSvcIdleSlow n t) := by
  unfold Machine.execSvcIdleSlow
  exact .ite (.go h.wr) (.go h)

theorem Keeps.svcFullClock {x1 : Init} (h : Keeps false s t) : Keeps false s (svcFullClock t x1) := by
  unfold Machine.svcFullClock
  split
  · exact h.wr
  · exact h

/-! ## Cluster power -/

theorem Keeps.setHalted {c : Nat} {b : Bool} (h : Keeps false s t) : Keeps false s (setHalted t c b) := by
  unfold Machine.setHalted
  exact .ite h.set (.ite h.set h.set)

theorem Keeps.cluWriteBack {c : Nat} (h : Keeps nw s t) : Keeps nw s (cluWriteBack t c) := by
  unfold Machine.cluWriteBack
  exact .over h fun _ _ h => h.writeBackFrame

theorem Keeps.dawnStart {c : Nat} (h : Keeps nw s t) : Keeps nw s (dawnStart t c) := by
  unfold Machine.dawnStart
  exact .andThen (fun h => .ite (h.raiseVdd.wrBut rfl) h) (((h.wrBut rfl).bump rfl rfl).wrBut rfl)

theorem Keeps.cluWake {c : Nat} (h : Keeps nw s t) : Keeps nw s (cluWake t c) := by
  unfold Machine.cluWake
  exact .ite h (.ite ((h.cluWriteBack.wrBut rfl).dawnStart) (.ite h h.dawnStart))

theorem Runs.execClusterIdleExpiry {c : Fin 8} (h : Keeps false s t) : Runs s (execClusterIdleExpiry c t) := by
  unfold Machine.execClusterIdleExpiry
  exact .ite (.go h.wr) (.go h)

theorem Runs.execClusterPlldlyExpiry {c : Fin 8} (h : Keeps false s t) : Runs s (execClusterPlldlyExpiry c t) := by
  unfold Machine.execClusterPlldlyExpiry
  exact .ite (.go h.wr) (.go h)

theorem Runs.execClusterPwrdlyExpiry {c : Fin 8} (h : Keeps false s t) : Runs s (execClusterPwrdlyExpiry c t) := by
  unfold Machine.execClusterPwrdlyExpiry
  exact .ite (.go h.wr) (.go h)

theorem Keeps.cluLoseMem {c : Nat} (h : Keeps false s t) : Keeps false s (cluLoseMem t c) := by
  unfold Machine.cluLoseMem
  exact .over h fun _ _ h => h.loseMem.withLists

theorem Keeps.cluOff {c : Nat} (h : Keeps false s t) : Keeps false s (cluOff t c) := by
  unfold Machine.cluOff
  exact .wr (.wr (.cluLoseMem (.over (.over h.cluWriteBack fun _ _ h => h.noSet) fun _ _ h => h.emptyFrame)))

theorem Runs.execClusterPwroff {c : Fin 8} (h : Keeps false s t) : Runs s (execClusterPwroff c t) := by
  unfold Machine.execClusterPwroff
  exact .ite (.go h.cluOff) (.go h)

theorem Runs.execClusterWakeRequest {c : Fin 8} (h : Keeps false s t) : Runs s (execClusterWakeRequest c t) := by
  unfold Machine.execClusterWakeRequest
  exact .ite (.go h.cluWake) (.go h)

theorem Keeps.cluWakeWrite {v : Nat} (h : Keeps false s t) : Keeps false s (cluWakeWrite t v) := by
  unfold Machine.cluWakeWrite
  exact .ite (.over h fun _ _ h => h.cluWake) h

theorem Runs.execCluWake {ini : Init} {v : Word} (h : Keeps false s t) : Runs s (execCluWake ini v t) := by
  unfold Machine.execCluWake
  exact .ite (.go h.cluWakeWrite) (.go h)

theorem Keeps.dawnStep {c ph st : Nat} (h : Keeps false s t) : Keeps false s (dawnStep t c ph st) := by
  unfold Machine.dawnStep
  exact .ite h.wr.wr h

theorem Runs.execDawnPowerGood {c : Fin 8} (h : Keeps false s t) : Runs s (execDawnPowerGood c t) := by
  unfold Machine.execDawnPowerGood
  exact .go h.dawnStep

theorem Runs.execDawnPllLock {c : Fin 8} (h : Keeps false s t) : Runs s (execDawnPllLock c t) := by
  unfold Machine.execDawnPllLock
  exact .go h.dawnStep

theorem Runs.execDawnDone {c : Fin 8} (h : Keeps false s t) : Runs s (execDawnDone c t) := by
  unfold Machine.execDawnDone
  exact .ite (.go h.dawnStep.wr) (.go h)

theorem Keeps.setBank {b m : Nat} (h : Keeps false s t) : Keeps false s (setBank t b m) := by
  unfold Machine.setBank
  exact .ite h.set (.ite h.set.set.loseMem h.set.set)

theorem Keeps.cstbankWrite {v : Nat} (h : Keeps false s t) : Keeps false s (cstbankWrite t v) := by
  unfold Machine.cstbankWrite
  exact .over h fun _ _ h => h.setBank

theorem Runs.execCstbankWrite {ini : Init} {v : Word} (h : Keeps false s t) : Runs s (execCstbankWrite ini v t) := by
  unfold Machine.execCstbankWrite
  exact .ite (.go h.cstbankWrite) (.go h)

theorem Runs.execBankRetentionEntry {b : Fin 16} (h : Keeps false s t) : Runs s (execBankRetentionEntry b t) := by
  unfold Machine.execBankRetentionEntry
  exact .ite (.go h.set) (.go h)

/-! ## Contexts across modes -/

theorem Keeps.banksHoldRetired (h : Keeps nw s t) : Keeps nw s (banksHoldRetired t) := by
  unfold Machine.banksHoldRetired
  exact .over h fun _ _ h => (h.wrBut rfl)

theorem Keeps.quarantineLost (h : Keeps nw s t) : Keeps nw s (quarantineLost t) := by
  unfold Machine.quarantineLost
  exact .over h fun _ _ h => (h.wrBut rfl)

theorem Keeps.cpgBeforeBoot {keepCtx fromDrain : Bool} (h : Keeps nw s t) : Keeps nw s (cpgBeforeBoot t keepCtx fromDrain) := by
  unfold Machine.cpgBeforeBoot
  exact .andThen (fun h => .ite h h.loseMem) (.ite h.quarantineLost h.banksHoldRetired)

theorem Keeps.cpgAtWatch (h : Keeps false s t) : Keeps false s (cpgAtWatch t) := by
  unfold Machine.cpgAtWatch
  exact .andThen (fun h => .ite h.set.set h) (.loseMem (.loseMem (.loseMem (.loseMem (.over (.over h fun _ _ h =>
    h.cluOff.wr) fun _ _ h => h.loseMem)))))

/-! ## Queues -/

theorem Keeps.setQueue {q : Nat} {x2 : Queue} (h : Keeps nw s t) : Keeps nw s (State.setQueue t q x2) := h.withLists

theorem Keeps.servePort {port : Nat} (h : Keeps false s t) : Keeps false s (servePort t port) := h.set

theorem Keeps.queueRead {q port who : Nat} (h : Keeps false s t) : Keeps false s (queueRead t q port who).2 :=
  h.servePort.setQueue

theorem Keeps.queueWrite {q port who v : Nat} {fin : Bool} (h : Keeps false s t) : Keeps false s (queueWrite t q port who v fin) :=
  h.servePort.setQueue

theorem Keeps.discardPartial {who : Nat} (h : Keeps false s t) : Keeps false s (discardPartial t who) := by
  unfold Machine.discardPartial
  exact .over h fun _ _ h => h.setQueue

theorem Runs.execQueueSwap {q : BitVec 8} (h : Keeps false s t) : Runs s (execQueueSwap q t) := by
  unfold Machine.execQueueSwap
  exact .ite (.go h.setQueue) (.go h)

theorem Runs.execQueueSwapDone {q : BitVec 8} (h : Keeps false s t) : Runs s (execQueueSwapDone q t) := by
  unfold Machine.execQueueSwapDone
  exact .go h.setQueue

theorem Keeps.queueFlush {q : Nat} (h : Keeps false s t) : Keeps false s (queueFlush t q) := by
  unfold Machine.queueFlush
  exact .ite h h.setQueue

theorem Keeps.queueReset {q : Nat} (h : Keeps false s t) : Keeps false s (queueReset t q) := h.setQueue

theorem Keeps.queueCmd {q v : Nat} (h : Keeps false s t) : Keeps false s (queueCmd t q v) := by
  unfold Machine.queueCmd
  exact .ite h.queueReset (.ite h.queueFlush h)

theorem Runs.execQueueFlush {ini : Init} {q : BitVec 8} (h : Keeps false s t) : Runs s (execQueueFlush ini q t) := by
  unfold Machine.execQueueFlush
  exact .ite (.go h.queueCmd) (.go h)

theorem Runs.execQueueFlushDone {q : BitVec 8} (h : Keeps false s t) : Runs s (execQueueFlushDone q t) := by
  unfold Machine.execQueueFlushDone
  exact .ite (.go h.setQueue) (.go h)

theorem Runs.execQueueReset {ini : Init} {q : BitVec 8} (h : Keeps false s t) : Runs s (execQueueReset ini q t) := by
  unfold Machine.execQueueReset
  exact .ite (.go h.queueCmd) (.go h)

/-! ## The scheduler -/

theorem Keeps.traceEntry {ev t' : Nat} {core : Option Nat} {aux : Nat} (h : Keeps nw s t) : Keeps nw s (traceEntry t ev t'
    core aux) := by
  unfold Machine.traceEntry
  exact .andThen (fun h => .ite (.setBut (.setBut (.ite (h.setBut rfl) h) rfl) rfl) (.ite (h.setBut rfl) h))
    (((((((h.wrBut rfl).wrBut rfl).wrBut rfl).wrBut rfl).setBut rfl).setBut rfl).setBut rfl)

theorem Keeps.trace {ev t' : Nat} {core : Option Nat} {aux : Nat} (h : Keeps nw s t) : Keeps nw s (trace t ev t' core aux) := by
  unfold Machine.trace
  exact .ite h (.ite (h.bump rfl rfl) (.ite (h.bump rfl rfl) h.traceEntry))

theorem Keeps.tsuCount {f : Fld} (h : Keeps false s t) (hf : (f.id == I.nwCnt.id) = false) :
    Keeps false s (tsuCount t f) :=
  h.bump hf rfl

theorem Keeps.setFlags {t' fl : Nat} (h : Keeps nw s t) : Keeps nw s (setFlags t t' fl) := by
  unfold Machine.setFlags
  exact .ite h (h.wrBut rfl)

theorem Keeps.setGroup {base n fl : Nat} (h : Keeps nw s t) : Keeps nw s (setGroup t base n fl) := by
  unfold Machine.setGroup
  exact .over h fun _ _ h => h.setFlags

theorem Keeps.dropResv {t' : Nat} (h : Keeps nw s t) : Keeps nw s (dropResv t t') := by
  unfold Machine.dropResv
  exact .ite (.ite (((h.wrBut rfl).wrBut rfl).wrBut rfl) (h.wrBut rfl)) h

theorem Keeps.loseResv {t' : Nat} (h : Keeps nw s t) : Keeps nw s (loseResv t t') := by
  unfold Machine.loseResv
  exact .ite (.dropResv (.ite h h.setToCached)) h

theorem Keeps.reserveTask {t' notice target tb : Nat} (h : Keeps nw s t) : Keeps nw s (reserveTask t t' notice target tb) := by
  unfold Machine.reserveTask
  refine .ite ?_ h
  split
  · exact h
  · exact (((((((h.wrBut rfl).wrBut rfl).wrBut rfl).wrBut rfl).wrBut rfl).wrBut rfl).wrBut rfl)

theorem Keeps.controlSwap {cid : Nat} (h : Keeps false s t) : Keeps false s (controlSwap t cid) := by
  unfold Machine.controlSwap
  refine .ite ?_ h
  split
  · exact h
  · exact .refreshCopies (.wr (.copyMem (.over h fun _ _ h => h.writeBackFrame)))

theorem Keeps.keepOrCache {t' c : Nat} (h : Keeps false s t) : Keeps false s (keepOrCache t t' c) := by
  unfold Machine.keepOrCache
  exact .ite h.setToCached h

theorem Keeps.beginJob {t' : Nat} (h : Keeps false s t) : Keeps false s (beginJob t t') := by
  unfold Machine.beginJob
  exact .andThen (fun h => .ite h.wr.wr.wr.wr.controlSwap h.wr.wr.wr)
    h.wr.wr.wr.wr.wr.wr.wr.wr.wr.wr.wr.wr.wr.wr.wr.wr

theorem Keeps.commitTask {t' c : Nat} (h : Keeps false s t) : Keeps false s (commitTask t t' c) := by
  unfold Machine.commitTask
  exact .andThen (fun h => .andThen (fun h => .cluWake (.set (.wr (.wr (.wr (.wr (.wr (.ite (h.cpgCount rfl) h))))))))
    (.ite h.keepOrCache h.keepOrCache.beginJob)) (.over (.dropResv (.ite (h.tsuCount rfl) h)) fun _ _ h =>
    h.setToCached)

theorem Keeps.preemptChoose {t' : Nat} (h : Keeps false s t) : Keeps false s (preemptChoose t t') := by
  unfold Machine.preemptChoose
  refine .ite ?_ h
  split
  · exact h
  · exact h.trace.commitTask

theorem Keeps.placeTail {f : Fld} {t' : Nat} (h : Keeps nw s t) (hf : (f.id == I.nwCnt.id) = false) :
    Keeps nw s (placeTail t f t') :=
  (h.wrBut hf).setBut rfl

theorem Keeps.placeHead {f : Fld} {t' : Nat} (h : Keeps false s t) : Keeps false s (placeHead t f t') := h.wr.set

theorem Keeps.enterReady {t' : Nat} (h : Keeps false s t) : Keeps false s (enterReady t t') :=
  (h.wr.wr.wr.wr.wr.placeTail rfl).wr.wr.trace.preemptChoose

theorem Keeps.reenterReady {t' : Nat} {head : Bool} (h : Keeps false s t) : Keeps false s (reenterReady t t' head) := by
  unfold Machine.reenterReady
  exact .preemptChoose (.ite h.wr.wr.wr.wr.placeHead (h.wr.wr.wr.wr.placeTail rfl))

theorem Keeps.backToWait {t' : Nat} (h : Keeps nw s t) : Keeps nw s (backToWait t t') := by
  unfold Machine.backToWait
  exact .ite ((h.wrBut rfl).wrBut rfl) h

theorem Keeps.land {l : Landing} (h : Keeps false s t) : Keeps false s (land t l) := h.wr

theorem Keeps.landDue {l : List Landing} (h : Keeps false s t) : Keeps false s (landDue t l) := by
  unfold Machine.landDue
  exact .over h fun _ _ h => h.land

theorem Keeps.landAll {b : Nat} (h : Keeps false s t) : Keeps false s (landAll t b) := by
  unfold Machine.landAll
  exact .withLists (.over h fun _ _ h => h.landDue)

theorem Keeps.unspell {v : Nat} {l : List (Fld × Nat × Nat)} (h : Keeps false s t) : Keeps false s (unspell t v l) := by
  induction l generalizing t v with
  | nil => exact h
  | cons e r ih => exact ih h.wr

theorem Keeps.recordWrite {b off v : Nat} (h : Keeps false s t) : Keeps false s (recordWrite t b off v) := by
  unfold Machine.recordWrite
  exact .ite h.wr (.ite h.wr.wr.unspell (.ite h.wr (.ite h.wr h.unspell)))

theorem Keeps.saveRecord {b a scause saddr : Nat} (h : Keeps false s t) : Keeps false s (saveRecord t b a scause saddr) := by
  unfold Machine.saveRecord
  exact .loseMem (.writeLE (.writeLE (.over h fun _ _ h => h.writeLE)))

theorem Keeps.restoreRecord {b : Nat} {word : Nat → Nat} (h : Keeps false s t) : Keeps false s (restoreRecord t b word) := by
  unfold Machine.restoreRecord
  exact .over h fun _ _ h => h.recordWrite

theorem Keeps.clearBank {b : Nat} (h : Keeps false s t) : Keeps false s (clearBank t b) := by
  unfold Machine.clearBank
  exact .wr (.wr (.wr (.wr (.over h fun _ _ h => h.recordWrite))))

theorem Keeps.initBank {b t' : Nat} (h : Keeps false s t) : Keeps false s (initBank t b t') := by
  unfold Machine.initBank
  exact h.clearBank.wr.wr.wr.wr.wr

theorem Keeps.resumeBank {c t' : Nat} (h : Keeps false s t) : Keeps false s (resumeBank t c t') := by
  -- the cleared bank is taken as any state: its table of offsets is not to be evaluated
  obtain ⟨clear, hclear⟩ : ∃ f, Machine.clearBank t = f := ⟨_, rfl⟩
  have hu : ∀ b, Keeps false s (clear b) := fun b => by rw [← hclear]; exact h.clearBank
  unfold Machine.resumeBank
  rw [hclear]
  split
  · exact h.wr
  · dsimp only
    split
    · exact (hu _).restoreRecord
    · exact .withLists (hu _).restoreRecord

theorem Keeps.dispatchOn {c : Nat} (h : Keeps false s t) : Keeps false s (dispatchOn t c) := by
  unfold Machine.dispatchOn
  exact .andThen (fun h => .ite h.withLists.trace (.trace (.ite h.withLists ((h.withLists.tsuCount rfl).wr)))) (.wr
    (.wr (.wr (.wr (.wr (.wr (.wr (.over (.ite (.resumeBank (.ite h.wr h)) (.initBank (.ite h.wr h))) fun _ _ h =>
    h.wr))))))))

theorem Keeps.trapBank {b code info addr : Nat} {imprecise : Bool} (h : Keeps false s t) : Keeps false s (trapBank t b code info
    addr imprecise) :=
  h.landAll.wr.wr.wr.wr.wr.wr.wr.wr.wr

theorem Keeps.arithBank {b : Nat} (h : Keeps false s t) : Keeps false s (arithBank t b) := by
  unfold Machine.arithBank
  exact .ite h.trapBank.wr h

theorem Keeps.leaveCore {c scause saddr : Nat} (h : Keeps false s t) : Keeps false s (leaveCore t c scause saddr) :=
  h.landAll.arithBank.noSet.withLists.wr.wr.wr.wr.wr.wr.wr.wr.wr.wr.wr

theorem Keeps.placeLeaver {t' scause : Nat} (h : Keeps false s t) : Keeps false s (placeLeaver t t' scause) := by
  unfold Machine.placeLeaver
  exact .ite h.wr h.reenterReady

theorem Keeps.switchNow {c scause saddr : Nat} (h : Keeps false s t) : Keeps false s (switchNow t c scause saddr) := by
  unfold Machine.switchNow
  exact .placeLeaver (.ite ((h.leaveCore.wr.tsuCount rfl).dispatchOn) h.leaveCore.wr)

theorem Keeps.requestSwitch {c scause saddr : Nat} (h : Keeps false s t) : Keeps false s (requestSwitch t c scause saddr) := by
  unfold Machine.requestSwitch
  exact .ite h.wr.wr h.switchNow

theorem Keeps.countMiss {t' : Nat} (h : Keeps false s t) : Keeps false s (countMiss t t') := by
  unfold Machine.countMiss
  exact .ite ((h.tsuCount rfl).set.errEvent) h

theorem Keeps.closeJob {t' : Nat} (h : Keeps false s t) : Keeps false s (closeJob t t') := by
  unfold Machine.closeJob
  exact .wr (.wr (.wr (.wr (.wr (.wr (.wr (.wr (.wr (.wr (.noSet (.ite h.discardPartial
    h.discardPartial.releaseFrames)))))))))))

theorem Keeps.freeCore {c : Nat} (h : Keeps false s t) : Keeps false s (freeCore t c) := h.withLists.wr.wr.wr.wr.wr

theorem Keeps.reevaluate {t' : Nat} (h : Keeps false s t) : Keeps false s (reevaluate t t') := by
  unfold Machine.reevaluate
  exact .ite h.enterReady h

theorem Keeps.endJob {c : Nat} (h : Keeps false s t) : Keeps false s (endJob t c) :=
  h.countMiss.trace.freeCore.closeJob.reevaluate

theorem Keeps.recordFault {c t' code : Nat} (h : Keeps false s t) : Keeps false s (recordFault t c t' code) := by
  unfold Machine.recordFault
  exact .ite h.set h.set.set.set.set.set

theorem Keeps.jobFault {c code : Nat} (h : Keeps false s t) : Keeps false s (jobFault t c code) :=
  h.recordFault.countMiss.trace.freeCore.closeJob.wr.set.errEvent

theorem Keeps.withdrawCommit {c : Nat} (h : Keeps false s t) : Keeps false s (withdrawCommit t c) := h.setToCached.wr

theorem Keeps.stopCancelled {c : Nat} (h : Keeps false s t) : Keeps false s (stopCancelled t c) := h.countMiss.freeCore.closeJob

theorem Keeps.cancelJob {t' : Nat} (h : Keeps false s t) : Keeps false s (cancelJob t t') := by
  unfold Machine.cancelJob
  refine .ite ?_ (.ite h.withdrawCommit.countMiss.closeJob (.ite h.countMiss.closeJob h.backToWait))
  split
  · exact h.closeJob
  · exact .ite h.stopCancelled h.wr.wr.wr

theorem Keeps.cancelTask {t' : Nat} {race : Bool} (h : Keeps false s t) : Keeps false s (cancelTask t t' race) := by
  unfold Machine.cancelTask
  exact .ite h (.cancelJob (.loseResv (.wr (.wr (.wr (.trace (.ite ((h.tsuCount rfl).set) h)))))))

theorem Keeps.emptySlot {t' : Nat} (h : Keeps false s t) : Keeps false s (emptySlot t t') := by
  unfold Machine.emptySlot
  exact .over h fun _ _ h => h.wr

theorem Keeps.freeTask {t' : Nat} (h : Keeps false s t) : Keeps false s (freeTask t t') := by
  unfold Machine.freeTask
  exact .ite h.loseResv.emptySlot h.wr

theorem Keeps.cfgWrite {t' v : Nat} (h : Keeps nw s t) : Keeps nw s (cfgWrite t t' v) := by
  unfold Machine.cfgWrite
  exact .andThen (fun h => .andThen (fun h => .ite (.ite h.loseResv h) (.backToWait (.ite h.loseResv h))) (.ite
    (.placeTail (.wrBut (.ite h (h.wrBut rfl)) rfl) rfl) (.ite h (h.wrBut rfl)))) ((((((h.wrBut rfl).wrBut rfl).wrBut
    rfl).wrBut rfl).wrBut rfl).wrBut rfl)

theorem Keeps.recheck {t' : Nat} (h : Keeps nw s t) : Keeps nw s (recheck t t') := by
  unfold Machine.recheck
  exact .ite h h.backToWait

theorem Keeps.flagsWrite {t' v : Nat} (h : Keeps nw s t) : Keeps nw s (flagsWrite t t' v) := (h.wrBut rfl).recheck

theorem Keeps.ctxWrite {t' v : Nat} (h : Keeps nw s t) : Keeps nw s (ctxWrite t t' v) := by
  unfold Machine.ctxWrite
  exact .andThen (fun h => .ite (h.wrBut rfl) h) ((h.wrBut rfl).wrBut rfl)

theorem Keeps.taskCmdWrite {t' v : Nat} (h : Keeps false s t) : Keeps false s (taskCmdWrite t t' v) := by
  unfold Machine.taskCmdWrite
  exact .ite (.freeTask (.ite h.cancelTask h)) (.ite h.cancelTask h)

theorem Keeps.taskRegWrite {t' off v : Nat} (h : Keeps nw s t) : Keeps nw s (taskRegWrite t t' off v) := by
  unfold Machine.taskRegWrite
  generalize hu : (if taskSt t t' = tEMPTY then t.wr F.TSU_T_STAT_STATE t' tWAIT else t) = u
  have hu : Keeps nw s u := hu ▸ .ite (h.wrBut rfl) h
  dsimp only
  split
  · exact hu.wrBut rfl
  · exact hu.cfgWrite
  · exact (hu.wrBut rfl).recheck
  · exact hu.flagsWrite
  · exact hu.ctxWrite
  · exact hu.wrBut rfl
  · exact hu.wrBut rfl
  · exact hu

theorem Keeps.setCoreEn {c : Nat} {en : Bool} (h : Keeps false s t) : Keeps false s (setCoreEn t c en) := by
  unfold Machine.setCoreEn
  exact .ite (.ite h.set h.set) (.andThen (fun h => .ite h.withdrawCommit.reenterReady h) (.over (.ite h.set h.set)
    fun _ _ h => h.loseResv))

theorem Keeps.traceClear (h : Keeps false s t) : Keeps false s (traceClear t) := h.set.set.set

theorem Keeps.traceRead {ini : Init} {i w : Nat} (h : Keeps false s t) : Keeps false s (traceRead t ini i w).2 := by
  unfold Machine.traceRead
  split
  · exact h
  · exact .iteSnd (.wr (.over h fun _ _ h => h.wr)) (.iteSnd h h)

/-! ## The scheduler’s commands -/

theorem Keeps.taskWinWrite {t' off v : Nat} (h : Keeps false s t) : Keeps false s (taskWinWrite t t' off v) := by
  unfold Machine.taskWinWrite
  exact .ite h.taskCmdWrite h.taskRegWrite

theorem Keeps.tsuWinWrite {ini : Init} {off v : Nat} (h : Keeps false s t) : Keeps false s (tsuWinWrite t ini off v) := by
  unfold Machine.tsuWinWrite
  refine .ite ?_ h
  split
  · exact h.taskWinWrite
  · exact h

theorem Runs.execTaskSlotFirstWrite {ini : Init} {off : BitVec 12} {v : Word} (h : Keeps false s t) : Runs s
    (execTaskSlotFirstWrite ini off v t) := by
  unfold Machine.execTaskSlotFirstWrite
  exact .go h.tsuWinWrite

theorem Runs.execTaskFlagsSet {ini : Init} {fl : BitVec 16} (h : Keeps false s t) : Runs s (execTaskFlagsSet ini fl t) := by
  unfold Machine.execTaskFlagsSet
  exact .go h.tsuWinWrite

theorem Runs.execTaskFlagsClr {ini : Init} {fl : BitVec 16} (h : Keeps false s t) : Runs s (execTaskFlagsClr ini fl t) := by
  unfold Machine.execTaskFlagsClr
  exact .go h.tsuWinWrite

theorem Keeps.signalWrite {v : Nat} (h : Keeps false s t) : Keeps false s (signalWrite t v) := h.setFlags

theorem Runs.execTsuSignalWrite {ini : Init} {v : Word} (h : Keeps false s t) : Runs s (execTsuSignalWrite ini v t) := by
  unfold Machine.execTsuSignalWrite
  exact .ite (.go h.signalWrite) (.go h)

theorem Runs.execTaskCfgWrite {ini : Init} {v : Word} (h : Keeps false s t) : Runs s (execTaskCfgWrite ini v t) := by
  unfold Machine.execTaskCfgWrite
  exact .go h.tsuWinWrite

theorem Runs.execTaskReady {t' : BitVec 16} (h : Keeps false s t) : Runs s (execTaskReady t' t) := by
  unfold Machine.execTaskReady
  exact .ite (.go h.enterReady) (.go h)

theorem Keeps.commitOne (h : Keeps false s t) : Keeps false s (commitOne t) := by
  unfold Machine.commitOne
  split
  · exact h
  · split
    · exact h
    · exact h.commitTask

theorem Runs.execTaskCommit (h : Keeps false s t) : Runs s (execTaskCommit t) := by
  unfold Machine.execTaskCommit
  exact .ite (.go h.commitOne) (.go h)

theorem Runs.execTaskDispatch {c : Fin 64} (h : Keeps false s t) : Runs s (execTaskDispatch c t) := by
  unfold Machine.execTaskDispatch
  exact .ite (.go h.dispatchOn) (.go h)

theorem Runs.execPreemptSwitch {c : Fin 64} (h : Keeps false s t) : Runs s (execPreemptSwitch c t) := by
  unfold Machine.execPreemptSwitch
  exact .ite (.go h.switchNow) (.go h)

theorem Runs.execTaskPromote {t' : BitVec 16} (h : Keeps false s t) : Runs s (execTaskPromote t' t) := by
  unfold Machine.execTaskPromote
  exact .ite (.go ((h.wr.placeTail rfl).trace.preemptChoose)) (.go h)

theorem Keeps.refreshHeld {b t' : Nat} (h : Keeps nw s t) : Keeps nw s (refreshHeld t b t') := by
  unfold Machine.refreshHeld
  exact .ite ((h.wrBut rfl).trace) (h.wrBut rfl)

theorem Keeps.chargeBudget {b t' n : Nat} (h : Keeps nw s t) : Keeps nw s (chargeBudget t b t' n) :=
  (h.wrBut rfl).refreshHeld

theorem Keeps.windowBudget {b : Nat} (h : Keeps false s t) : Keeps false s (windowBudget t b) := h.wr.wr

theorem Runs.execBudgetWindow (h : Keeps false s t) : Runs s (execBudgetWindow t) := by
  unfold Machine.execBudgetWindow
  exact .ite (.go (.over h fun _ _ h => h.windowBudget)) (.go h)

theorem Runs.execBudgetHeld {b : Fin 32} {t' : BitVec 16} (h : Keeps false s t) : Runs s (execBudgetHeld b t' t) := by
  unfold Machine.execBudgetHeld
  exact .ite (.go h.chargeBudget) (.go h)

theorem Keeps.lvlcfgWrite {b v : Nat} (h : Keeps false s t) : Keeps false s (lvlcfgWrite t b v) := h.wr.wr.draw.refreshHeld

theorem Keeps.faultPage {cid v : Nat} (h : Keeps false s t) : Keeps false s (faultPage t cid v) := by
  unfold Machine.faultPage
  refine .ite ?_ h
  split
  · exact (h.firstAccess ‹_›)
  · exact h.set.set

theorem Runs.execPageArrived {t' : BitVec 16} (h : Keeps false s t) : Runs s (execPageArrived t' t) := by
  unfold Machine.execPageArrived
  exact .ite (.andThen (fun h => .ite (.go h.wr.wr.reenterReady) (.go h)) (.over h fun _ _ h => h.faultPage)) (.go h)

theorem Runs.execCancel {ini : Init} {race : Bool} (h : Keeps false s t) : Runs s (execCancel ini race t) := by
  unfold Machine.execCancel
  split
  · exact .ite (.go h.cancelTask) (.go h)
  · exact .go h

theorem Runs.execFree {ini : Init} (h : Keeps false s t) : Runs s (execFree ini t) := by
  unfold Machine.execFree
  exact .go h.tsuWinWrite

theorem Keeps.coreenWrite {hi : Bool} {v : Nat} (h : Keeps false s t) : Keeps false s (coreenWrite t hi v) := by
  unfold Machine.coreenWrite
  exact .over h fun _ _ h => h.setCoreEn

theorem Runs.execCoreenWrite {ini : Init} {hi : Bool} {v : Word} (h : Keeps false s t) : Runs s (execCoreenWrite ini hi v t) := by
  unfold Machine.execCoreenWrite
  exact .ite (.go h.coreenWrite) (.go h)

theorem Runs.execTrcclr {ini : Init} (h : Keeps false s t) : Runs s (execTrcclr ini t) := by
  unfold Machine.execTrcclr
  exact .ite (.go h.traceClear) (.go h)

theorem Runs.execTraceEntryRead {ini : Init} {i : BitVec 12} {w : Fin 4} (h : Keeps false s t) : Runs s (execTraceEntryRead
    ini i w t) := by
  unfold Machine.execTraceEntryRead
  exact .ite (.go h.traceRead.seen) (.go h)

/-! ## The context pager -/

theorem Keeps.dmaEnd {n st err : Nat} (h : Keeps false s t) : Keeps false s (dmaEnd t n st err) := by
  unfold Machine.dmaEnd
  exact .andThen (fun h => .ite h.set h) (.ite h.wr.wr.wr.setFlags h.wr.wr.wr)

theorem Keeps.eccRecord {a mem cv cid : Nat} (h : Keeps false s t) : Keeps false s (eccRecord t a mem cv cid) := by
  unfold Machine.eccRecord
  exact .errEvent (.set (.ite h.set h.set.set.set.set.set.set))

theorem Keeps.quarantine {cid : Nat} (h : Keeps false s t) : Keeps false s (quarantine t cid) := by
  unfold Machine.quarantine
  exact .andThen (fun h => .over (.errEvent (.set (.ite h.set h.set.set))) fun _ _ h => h.dmaEnd) (.over
    h.wr.discardContext fun _ _ h => h.cancelTask)

theorem Keeps.retireFrame {i : Nat} (h : Keeps false s t) : Keeps false s (retireFrame t i) := h.emptyFrame.wr.set

theorem Keeps.parityError (h : Keeps false s t) : Keeps false s (parityError t) := (h.cpgCount rfl).set.errEvent

theorem Keeps.retryJob {c t' : Nat} (h : Keeps false s t) : Keeps false s (retryJob t c t') :=
  h.freeCore.discardPartial.discardFrames.noSet.wr.wr

theorem Keeps.frameParity {c i : Nat} (h : Keeps false s t) : Keeps false s (frameParity t c i) := by
  unfold Machine.frameParity
  exact .andThen (fun h => .ite h.stopCancelled (.ite h.retryJob.reenterReady (.ite h.retryJob.wr.wr.quarantine
    h.jobFault))) h.parityError.retireFrame.discardFrames

theorem Runs.execFrameParityError {c : Fin 64} {f : Fin 16} (h : Keeps false s t) : Runs s (execFrameParityError c f t) := by
  unfold Machine.execFrameParityError
  exact .ite (.go h.frameParity) (.go h)

theorem Keeps.bankSaved {c : Nat} (h : Keeps false s t) : Keeps false s (bankSaved t c) := by
  unfold Machine.bankSaved
  refine .andThen (fun h => .ite h.releaseFrames.wr.wr.switchNow h.releaseFrames.wr.wr) ?_
  split
  · exact h.saveRecord.markDirty
  · exact h

theorem Runs.execBankSaveDone {c : Fin 64} (h : Keeps false s t) : Runs s (execBankSaveDone c t) := by
  unfold Machine.execBankSaveDone
  exact .ite (.go h.bankSaved) (.go h)

theorem Keeps.frameFilled {i : Nat} (h : Keeps false s t) : Keeps false s (frameFilled t i) := by
  unfold Machine.frameFilled
  exact .andThen (fun h => .ite h.wr h) (h.copyMem.cstTouch.wr.cpgCount rfl)

theorem Keeps.settlePage {cid v : Nat} (h : Keeps false s t) : Keeps false s (settlePage t cid v) := by
  unfold Machine.settlePage
  exact .over h fun _ _ h => .ite (.frameFilled (.ite h.writeBackFrame h)) (.ite h.writeBackFrame h)

theorem Keeps.touchAll {cid : Nat} {pages : List Nat} (h : Keeps false s t) : Keeps false s (touchAll t cid pages) := by
  unfold Machine.touchAll
  exact .over h fun _ _ h => h.faultPage

theorem Keeps.stageSet {c t' : Nat} (h : Keeps false s t) : Keeps false s (stageSet t c t') := by
  unfold Machine.stageSet
  refine .ite h.touchAll ?_
  split
  · exact h.touchAll
  · exact .ite h.touchAll (.wr (.wr (.ite (h.touchAll.giveSet ‹_›) ((h.touchAll.giveSet ‹_›).wr.wr))))

theorem Keeps.provAsk {t' c : Nat} (h : Keeps nw s t) : Keeps nw s (provAsk t t' c) := h.wrBut rfl

theorem Keeps.provPlace {t' c : Nat} (h : Keeps false s t) : Keeps false s (provPlace t t' c) := by
  unfold Machine.provPlace
  refine .ite h.provAsk.cluWake (.ite h.provAsk ?_)
  split
  · exact (h.wr.cpgCount rfl)
  · exact .ite h.provAsk ((h.touchAll.giveSet ‹_›).wr)

theorem Keeps.provAgain {c : Nat} (h : Keeps false s t) : Keeps false s (provAgain t c) := by
  unfold Machine.provAgain
  exact .over h fun _ _ h => .ite h.provPlace h.wr

theorem Runs.execSetStage {c : Fin 64} (h : Keeps false s t) : Runs s (execSetStage c t) := by
  unfold Machine.execSetStage
  dsimp only
  split
  · exact .ite (.go h.provAgain) (.go h)
  · exact .ite (.go h) (.ite (.go h.provAgain) (.ite (.go h.cluWake) (.go (.ite h.stageSet h.stageSet.provAgain))))

theorem Keeps.touchStage {c t' v : Nat} (h : Keeps false s t) : Keeps false s (touchStage t c t' v) := by
  have hfinish : ∀ {u : State} {p : Prop} {d : Decidable p} {f g : Fld} {i j x y : Nat}, Keeps false s u →
      Keeps false s (if p then u.wr f i x else (u.wr f i x).wr g j y) := fun h => .ite h.wr h.wr.wr
  unfold Machine.touchStage
  dsimp only
  split
  · exact hfinish (h.wr.giveSet ‹_›)
  · split
    · exact h.wr
    · split
      · exact hfinish (h.wr.setToCached.giveSet ‹_›)
      · exact h.wr.setToCached

theorem Keeps.touchedArrive (h : Keeps false s t) : Keeps false s (touchedArrive t) := by
  unfold Machine.touchedArrive
  exact .over h fun _ _ h => .over h fun _ _ h => h.touchStage

theorem Keeps.touchPage {c t' v : Nat} (h : Keeps false s t) : Keeps false s (touchPage t c t' v) := by
  unfold Machine.touchPage
  exact .touchedArrive (.ite h.faultPage.wr h.faultPage)

theorem Keeps.startSpill {cid : Nat} (h : Keeps false s t) : Keeps false s (startSpill t cid) := by
  unfold Machine.startSpill
  exact .over h fun _ _ h => h.wr.wr

theorem Keeps.makeRoom {n p k : Nat} (h : Keeps false s t) (he : makeRoom t n p k = some u) : Keeps false s u := by
  induction k generalizing t with
  | zero => contradiction
  | succ k ih =>
    unfold Machine.makeRoom at he
    split at he
    · exact Option.some.inj he ▸ h
    · split at he
      · contradiction
      · exact ih h.startSpill he

theorem Keeps.cmdEnd {f : Fld} {cid result : Nat} (h : Keeps false s t) : Keeps false s (cmdEnd t f cid result) := h.wr.wr

theorem Keeps.startReload {cid v : Nat} (h : Keeps false s t) : Keeps false s (startReload t cid v) := by
  unfold Machine.startReload
  split
  · exact h
  · exact (h.pickPage ‹_›).bindPage.useMore.wr.wr.set

theorem Keeps.reloadShort {cid : Nat} {onlyLoad : Bool} (h : Keeps false s t) : Keeps false s (reloadShort t cid onlyLoad) := by
  unfold Machine.reloadShort
  split
  · exact h.startSpill
  · exact .ite h (.ite h.cmdEnd h.set.set)

theorem Runs.execPageReload {cid : BitVec 15} {v : Fin 16} (h : Keeps false s t) : Runs s (execPageReload cid v t) := by
  unfold Machine.execPageReload
  exact .ite (.ite (.go h.startReload) (.go h.reloadShort)) (.go h)

theorem Keeps.allocOne {cid v : Nat} (h : Keeps false s t) : Keeps false s (allocOne t cid v) := by
  unfold Machine.allocOne
  refine .ite h.wr.wr.useMore.set ?_
  split
  · exact (h.wr.allocPage ‹_›)
  · exact h.wr

theorem Keeps.takePages {cid : Nat} (h : Keeps false s t) : Keeps false s (takePages t cid) := by
  unfold Machine.takePages
  exact .cmdEnd (.wr (.over h.wr fun _ _ h => h.allocOne))

theorem Keeps.tryAlloc {cid : Nat} (h : Keeps false s t) : Keeps false s (tryAlloc t cid) := by
  unfold Machine.tryAlloc
  refine .ite h.takePages (.ite ?_ h.cmdEnd)
  split
  · exact h.cmdEnd
  · exact .ite ((h.makeRoom ‹_›).wr) h.cmdEnd

theorem Keeps.alloc {cid : Nat} (h : Keeps false s t) : Keeps false s (alloc t cid) := by
  unfold Machine.alloc
  exact .ite h.cmdEnd (.ite h.cmdEnd h.tryAlloc)

theorem Keeps.releaseOne {cid v : Nat} (h : Keeps false s t) : Keeps false s (releaseOne t cid v) := by
  unfold Machine.releaseOne
  exact .wr (.wr (.wr (.wr (.wr (.ite h.unbindPage (.ite h.useLess.set h))))))

theorem Keeps.releaseNow {cid : Nat} (h : Keeps false s t) : Keeps false s (releaseNow t cid) := by
  unfold Machine.releaseNow
  exact .cmdEnd (.wr (.wr (.wr (.wr (.wr (.over (.over h.discardContext fun _ _ h => h.noSet) fun _ _ h =>
    h.releaseOne))))))

theorem Keeps.release {cid : Nat} (h : Keeps false s t) : Keeps false s (release t cid) := by
  unfold Machine.release
  exact .ite h.cmdEnd (.ite h.cmdEnd (.ite h.wr h.releaseNow))

theorem Keeps.spill {cid : Nat} (h : Keeps false s t) : Keeps false s (spill t cid) := by
  unfold Machine.spill
  exact .ite h.cmdEnd (.ite h.cmdEnd (.ite h.cmdEnd (.ite h.cmdEnd h.wr.startSpill)))

theorem Keeps.load {cid : Nat} (h : Keeps false s t) : Keeps false s (load t cid) := by
  unfold Machine.load
  exact .ite h.cmdEnd (.ite h.cmdEnd (.ite h.cmdEnd h.wr))

theorem Keeps.publish {cid : Nat} (h : Keeps false s t) : Keeps false s (publish t cid) := by
  unfold Machine.publish
  exact .ite h.wr.cmdEnd h.wr.cmdEnd

theorem Keeps.ctxCommand {cid v : Nat} (h : Keeps false s t) : Keeps false s (ctxCommand t cid v) := by
  unfold Machine.ctxCommand
  exact .ite h (.ite h.wr (.ite h.alloc (.ite h.release (.ite h.spill (.ite h.load h.publish)))))

theorem Keeps.chwCommand {ini : Init} {v : Nat} (h : Keeps false s t) : Keeps false s (chwCommand t ini v) := by
  unfold Machine.chwCommand
  refine .ite ?_ h
  split
  · exact h.ctxCommand
  · exact h

theorem Runs.execAlloc {ini : Init} (h : Keeps false s t) : Runs s (execAlloc ini t) := by
  unfold Machine.execAlloc
  exact .go h.chwCommand

theorem Runs.execRelease {ini : Init} (h : Keeps false s t) : Runs s (execRelease ini t) := by
  unfold Machine.execRelease
  exact .go h.chwCommand

theorem Runs.execSpill {ini : Init} (h : Keeps false s t) : Runs s (execSpill ini t) := by
  unfold Machine.execSpill
  exact .go h.chwCommand

theorem Runs.execLoad {ini : Init} (h : Keeps false s t) : Runs s (execLoad ini t) := by
  unfold Machine.execLoad
  exact .go h.chwCommand

theorem Runs.execPublish {ini : Init} (h : Keeps false s t) : Runs s (execPublish ini t) := by
  unfold Machine.execPublish
  exact .go h.chwCommand

theorem Keeps.ctlWrite {cid k v : Nat} (h : Keeps false s t) : Keeps false s (ctlWrite t cid k v) := by
  unfold Machine.ctlWrite
  exact .ite h.settlePage.cstTouch.writeLE h.wr

theorem Keeps.chwRead {cid off : Nat} (h : Keeps false s t) : Keeps false s (chwRead t cid off).2 := by
  unfold Machine.chwRead
  exact .iteSnd h.settlePage.cstTouch h

theorem Runs.execChwCtlWrite {ini : Init} {k : BitVec 7} {v : Word} (h : Keeps false s t) : Runs s (execChwCtlWrite ini k v
    t) := by
  unfold Machine.execChwCtlWrite
  split
  · exact .ite (.go h.ctlWrite) (.go h)
  · exact .go h

theorem Keeps.spilled {cid v : Nat} (h : Keeps false s t) : Keeps false s (spilled t cid v) := by
  unfold Machine.spilled
  exact .cpgCount (.over h.copyMem.cstTouch.unbindPage.wr.wr fun _ _ h => h.emptyFrame) rfl

theorem Keeps.reloaded {cid v : Nat} (h : Keeps false s t) : Keeps false s (reloaded t cid v) :=
  h.copyMem.cstTouch.wr.wr.cpgCount rfl

theorem Keeps.commandsGoOn {cid : Nat} (h : Keeps false s t) : Keeps false s (commandsGoOn t cid) := by
  unfold Machine.commandsGoOn
  exact .andThen (fun h => .over (.ite h.release h) fun _ _ h => h.tryAlloc) (.ite (.cmdEnd (.ite h.cmdEnd h)) (.ite
    h.cmdEnd h))

theorem Keeps.moveDone {cid v : Nat} (h : Keeps false s t) : Keeps false s (moveDone t cid v) := by
  unfold Machine.moveDone
  split
  · exact h.spilled.commandsGoOn
  · exact h.reloaded.commandsGoOn.touchedArrive
  · exact h

theorem Runs.execPageTransferDone {x0 : Transfer} (h : Keeps false s t) : Runs s (execPageTransferDone x0 t) := by
  unfold Machine.execPageTransferDone
  split
  · exact .ite (.go h.frameFilled) (.go h)
  · exact .go h.moveDone

theorem Keeps.writeBackParity {i : Nat} (h : Keeps false s t) : Keeps false s (writeBackParity t i) :=
  h.parityError.retireFrame.quarantine

theorem Keeps.writeBackStart {i : Nat} {bad : Bool} (h : Keeps false s t) : Keeps false s (writeBackStart t i bad) := by
  unfold Machine.writeBackStart
  exact .ite (.ite h.writeBackParity (.ite h.wr h)) h

theorem Runs.execWritebackStart {c : Fin 64} {bad : BitVec 16} (h : Keeps false s t) : Runs s (execWritebackStart c bad t) := by
  unfold Machine.execWritebackStart
  exact .go (.over h fun _ _ h => h.writeBackStart)

theorem Runs.execWritebackDone {c : Fin 64} {f : Fin 16} (h : Keeps false s t) : Runs s (execWritebackDone c f t) := by
  unfold Machine.execWritebackDone
  exact .ite (.go h.writeBackFrame.touchedArrive) (.go h)

theorem Runs.execSpillPressure (h : Keeps false s t) : Runs s (execSpillPressure t) := by
  unfold Machine.execSpillPressure
  refine .ite (.go h.set) (.ite (.ite ?_ (.go (.set (.ite h.set h)))) (.go (.ite h.set h)))
  split
  · exact .go (.startSpill (.ite h.set h))
  · exact .go (.set (.ite h.set h))

theorem Keeps.eccCst {a : Nat} (h : Keeps false s t) : Keeps false s (eccCst t a) := by
  unfold Machine.eccCst
  exact .ite (.ite h.eccRecord h.eccRecord.quarantine) (.ite h.eccRecord h.eccRecord.wr.wr.set)

theorem Keeps.eccDmc {a : Nat} (h : Keeps false s t) : Keeps false s (eccDmc t a) := by
  unfold Machine.eccDmc
  exact .ite ((h.bump rfl rfl).set) ((h.bump rfl rfl).set.set.set.set)

theorem Keeps.eccDram {a : Nat} {reader : EccReader} (h : Keeps false s t) : Keeps false s (eccDram t a reader) := by
  unfold Machine.eccDram
  split
  · split
    · exact h.eccRecord.quarantine
    · exact h.eccDmc
  · exact h.eccDmc

theorem Keeps.eccAct {a : Nat} {reader : EccReader} (h : Keeps false s t) : Keeps false s (eccAct t a reader) := by
  unfold Machine.eccAct
  exact .ite h.eccCst (.ite h.eccRecord (.ite h.eccRecord (.ite h.eccRecord.fatalError (.ite h.eccDram h))))

theorem Runs.execEccUncorrectable {a : PAddr} {reader : EccReader} (h : Keeps false s t) : Runs s (execEccUncorrectable a
    reader t) := by
  unfold Machine.execEccUncorrectable
  refine .ite ?_ (.go h)
  split
  · exact .ite (.go h.eccAct.dmaEnd) (.go h.eccAct)
  · exact .go h.eccAct

theorem Runs.execScrubPage {bad : Bool} {word : BitVec 9} {corrected : Nat} (h : Keeps false s t) : Runs s (execScrubPage
    bad word corrected t) := by
  unfold Machine.execScrubPage
  exact .ite (.go (.ite ((h.set.cpgCount rfl).eccCst) (h.set.cpgCount rfl))) (.go h)

end Sys2Proof.Machine
end

section
/-! PROOFS.  What operations keep: packets, Causeway, highways, time, the register space, media, cores and ticks. -/

namespace Sys2Proof.Machine

set_option Elab.async false

variable {nw : Bool} {s t u : State}

/-! ## Egress -/

theorem Keeps.txIndex {n seq : Nat} (h : Keeps nw s t) : Keeps nw s (txIndex t n seq).2 := by
  unfold Machine.txIndex
  exact .wrBut (.wrBut (.ite (h.wrBut rfl) h) rfl) rfl

theorem Keeps.prepare {f : EgFrame} (h : Keeps nw s t) : Keeps nw s (prepare t f).2 := by
  unfold Machine.prepare
  exact .iteSnd h (.iteSnd h (h.txIndex.wrBut rfl))

theorem Keeps.strmCnt {n k by' : Nat} (h : Keeps nw s t) : Keeps nw s (strmCnt t n k by') := h.bumpBy rfl rfl

theorem Keeps.completion {f : EgFrame} {status at' lateness : Nat} (h : Keeps nw s t) : Keeps nw s (completion t f status
    at' lateness) := by
  unfold Machine.completion
  split
  · exact h.pkeCnt
  · exact .ite ((h.physWrite.setBut rfl).setBut rfl) (h.physWrite.setBut rfl)

theorem Keeps.endPortCnt {p status octets : Nat} (h : Keeps nw s t) : Keeps nw s (endPortCnt t p status octets) := by
  unfold Machine.endPortCnt
  split
  · exact h.portCnt.portCnt
  · exact h.portCnt.portCnt.portCnt
  · exact h.portCnt
  · exact h.portCnt
  · exact h.portCnt
  · exact (h.pkeCnt.portCnt.setBut rfl).errEvent
  · exact h

theorem Keeps.endStream {f : EgFrame} {status at' : Nat} (h : Keeps nw s t) : Keeps nw s (endStream t f status at') := by
  unfold Machine.endStream
  exact .ite (.andThen (fun h => .ite ((h.wrBut rfl).strmCnt) (h.wrBut rfl)) (.ite h.strmCnt.strmCnt
    ((h.strmCnt.strmCnt.wrBut rfl).wrBut rfl))) (.ite h.strmCnt h)

theorem Keeps.egEnd {f : EgFrame} {status at' octets lateness : Nat} (h : Keeps nw s t) : Keeps nw s (egEnd t f status at'
    octets lateness) := by
  unfold Machine.egEnd
  exact .ite h.endPortCnt (.ite h.endPortCnt.endStream.completion h.endPortCnt.endStream)

theorem Keeps.setEgress {p q : Nat} {l : List EgFrame} (h : Keeps nw s t) : Keeps nw s (Machine.setQueue t p q l) :=
  h.withLists

theorem Keeps.enqueue {f : EgFrame} (h : Keeps nw s t) : Keeps nw s (enqueue t f) := by
  unfold Machine.enqueue
  dsimp only
  exact .ite h.egEnd (.ite h.prepare.setEgress h.setEgress)

theorem Keeps.post {svc : Bool} {ofs : Nat} {ecc : Bool} (h : Keeps nw s t) : Keeps nw s (post t svc ofs ecc) := by
  unfold Machine.post
  exact .ite h.egEnd (.ite h.egEnd (.ite h.egEnd h.enqueue))

theorem Keeps.tunnelPost {p prio : Nat} {bytes : List Byte} (h : Keeps nw s t) : Keeps nw s (tunnelPost t p prio bytes) := by
  unfold Machine.tunnelPost
  exact .ite h.enqueue h.egEnd

theorem Keeps.sendFrame {p : Nat} {f : EgFrame} {status at' lateness : Nat} (h : Keeps false s t) : Keeps false s (sendFrame t p f
    status at' lateness) :=
  h.withLists.egEnd

theorem Keeps.launchFrame {p sub : Nat} {f : EgFrame} (h : Keeps false s t) : Keeps false s (launchFrame t p sub f) := by
  unfold Machine.launchFrame
  exact .ite h (.ite h.setEgress.egEnd (.ite h.setEgress.egEnd h.setEgress.sendFrame))

theorem Runs.execFrameLaunch {p : Fin 8} {sub : BitVec 9} (h : Keeps false s t) : Runs s (execFrameLaunch p sub t) := by
  unfold Machine.execFrameLaunch
  split
  · exact .ite (.go h.launchFrame) (.go h)
  · exact .go h

theorem Keeps.prepareDue {p : Nat} {ecc : Bool} (h : Keeps false s t) : Keeps false s (prepareDue t p ecc) := by
  unfold Machine.prepareDue
  dsimp only
  split
  · exact h
  · exact .ite h.setEgress.egEnd (.ite h.setEgress.egEnd h.prepare.setEgress)

theorem Runs.execTimedFramePrepare {p : Fin 8} {ecc : Bool} (h : Keeps false s t) : Runs s (execTimedFramePrepare p ecc t) := by
  unfold Machine.execTimedFramePrepare
  exact .go h.prepareDue

theorem Keeps.sendPriority {p sub : Nat} {ecc : Bool} (h : Keeps false s t) : Keeps false s (sendPriority t p sub ecc) := by
  unfold Machine.sendPriority
  dsimp only
  split
  · exact h
  · split
    · exact h
    · exact .ite h.setEgress.egEnd (.ite h.setEgress.egEnd (.ite h.setEgress.egEnd (.ite h.prepare.setEgress.sendFrame
        h)))

theorem Runs.execPriorityFrameSend {p : Fin 8} {sub : BitVec 9} {ecc : Bool} (h : Keeps false s t) : Runs s
    (execPriorityFrameSend p sub ecc t) := by
  unfold Machine.execPriorityFrameSend
  exact .go h.sendPriority

theorem Keeps.egpostWrite {ini : Init} {v : Nat} {ecc : Bool} (h : Keeps false s t) : Keeps false s (egpostWrite t ini v ecc) := by
  unfold Machine.egpostWrite
  exact .ite h.post h.pkeCnt

theorem Runs.execEgressPost {ini : Init} {v : Word} {ecc : Bool} (h : Keeps false s t) : Runs s (execEgressPost ini v ecc t) := by
  unfold Machine.execEgressPost
  exact .ite (.go h.egpostWrite) (.go h)

theorem Keeps.endQueued {p : Nat} (h : Keeps false s t) : Keeps false s (endQueued t p) := by
  unfold Machine.endQueued
  exact .over h fun _ _ h => .foldl h.setEgress fun _ _ h => h.egEnd

/-! ## Sending over Causeway -/

theorem Keeps.cwTransmit {l seq : Nat} {f : CwFrame} (h : Keeps nw s t) : Keeps nw s (cwTransmit t l seq f) := by
  unfold Machine.cwTransmit
  exact .ite (.ite h.linkCnt.tunnelPost h.linkCnt) h.linkCnt.withLists

theorem Keeps.cwPlaced {who : Nat} (h : Keeps nw s t) : Keeps nw s (cwPlaced t who) := by
  unfold Machine.cwPlaced
  split
  · exact ((h.setBut rfl).setBut rfl)
  · exact ((h.setBut rfl).setBut rfl)
  · exact h

theorem Keeps.cwPlace {l who : Nat} {f : CwFrame} (h : Keeps nw s t) : Keeps nw s (cwPlace t l who f) :=
  (h.wrBut rfl).setLink.cwTransmit.cwPlaced

theorem Keeps.cwGive {l who : Nat} {f : CwFrame} (h : Keeps nw s t) : Keeps nw s (cwGive t l who f) := by
  unfold Machine.cwGive
  exact .ite (.ite h.cwPlace h.setLink) (.ite h.cwTransmit h)

theorem Keeps.cwRefill {l n : Nat} (h : Keeps false s t) : Keeps false s (cwRefill t l n) := by
  induction n generalizing t with
  | zero => exact h
  | succ n ih =>
    unfold Machine.cwRefill
    split
    · exact h
    · split
      · exact ih h.setLink.cwPlace
      · exact h

theorem Keeps.cwSend {who type dev : Nat} {payload : List Byte} (h : Keeps nw s t) : Keeps nw s (cwSend t who type dev
    payload) := by
  unfold Machine.cwSend
  split
  · exact h.cwGive
  · exact h.cwUnreach

theorem Keeps.cwSendLocal {l type : Nat} {payload : List Byte} (h : Keeps false s t) : Keeps false s (cwSendLocal t l type
    payload) :=
  h.cwGive

theorem Keeps.cwStart {l : Nat} (h : Keeps nw s t) : Keeps nw s (cwStart t l) := by
  unfold Machine.cwStart
  exact .ite (h.wrBut rfl) h

theorem Keeps.cwEnterUp {l : Nat} (h : Keeps false s t) : Keeps false s (cwEnterUp t l) := by
  unfold Machine.cwEnterUp
  exact .andThen (fun h => .ite h h.loadLatency) h.wr.wr.wr.set.wr.wr.wr.wr

theorem Keeps.cwHello {l : Nat} (h : Keeps false s t) : Keeps false s (cwHello t l) := by
  unfold Machine.cwHello
  exact .ite h.cwEnterUp h

theorem Keeps.linkSend {l : Nat} (h : Keeps false s t) : Keeps false s (linkSend t l) := h.cwSendLocal.wr.cwHello

theorem Keeps.cwFollow (h : Keeps nw s t) : Keeps nw s (cwFollow t) := by
  unfold Machine.cwFollow
  exact .over h fun _ _ h => .ite h.cwStart h.cwDown

theorem Runs.execCwLinkTrained {l : Fin 14} (h : Keeps false s t) : Runs s (execCwLinkTrained l t) := by
  unfold Machine.execCwLinkTrained
  exact .ite (.go h.cwStart.wr) (.go h.cwStart)

theorem Runs.execCwLinkKeepalive {l : Fin 14} (h : Keeps false s t) : Runs s (execCwLinkKeepalive l t) := by
  unfold Machine.execCwLinkKeepalive
  exact .ite (.go h.cwStart.linkSend) (.go h.cwStart)

theorem Keeps.timeSend {l sub : Nat} (h : Keeps false s t) : Keeps false s (timeSend t l sub) := h.wr.wr.wr.cwSendLocal

theorem Runs.execTimeSend {l : Fin 14} {sub : BitVec 9} (h : Keeps false s t) : Runs s (execTimeSend l sub t) := by
  unfold Machine.execTimeSend
  exact .ite (.go h.timeSend) (.go h)

theorem Keeps.retransmit {l : Nat} (h : Keeps false s t) : Keeps false s (retransmit t l) := by
  unfold Machine.retransmit
  exact .ite h (.ite h.cwDown (.foldl h.wr.linkCnt fun _ _ h => h.cwTransmit))

theorem Keeps.cwAck {l ack : Nat} (h : Keeps false s t) : Keeps false s (cwAck t l ack) := by
  unfold Machine.cwAck
  exact .ite h.wr.setLink.cwRefill h

/-! ## Jitter buffers -/

theorem Keeps.jbPut {a n v : Nat} (h : Keeps false s t) : Keeps false s (jbPut t a n v) := h.physWrite

theorem Keeps.jbCount {h' off n : Nat} (h : Keeps false s t) : Keeps false s (jbCount t h' off n) := by
  unfold Machine.jbCount
  exact .ite h h.jbPut

theorem Keeps.jbClear {h' i : Nat} (h : Keeps false s t) : Keeps false s (jbClear t h' i) := h.jbPut

theorem Keeps.jbResize {h' : Nat} (h : Keeps false s t) : Keeps false s (jbResize t h') := by
  unfold Machine.jbResize
  exact .jbPut (.jbPut (.jbCount (.over h fun _ _ h => h.jbClear)))

theorem Keeps.jbStore {h' : Nat} {k : JbPacket} (h : Keeps false s t) : Keeps false s (jbStore t h' k) := h.physWrite.physWrite

theorem Keeps.jbFile {h' : Nat} {k : JbPacket} (h : Keeps false s t) : Keeps false s (jbFile t h' k).2 := by
  unfold Machine.jbFile
  exact .iteSnd (.mkSnd h.pkeCnt) (.iteSnd (.mkSnd h.jbCount) (.iteSnd (.mkSnd h.jbCount)
    (.mkSnd (.jbCount (.jbPut (.jbStore (.ite h.jbResize h)))))))

theorem Runs.execJbFile {ofs : BitVec 19} {seq : BitVec 16} {marker : Bool} {pt : BitVec 7} {ts arrival : Word}
    {payload : List Byte} (h : Keeps false s t) : Runs s (execJbFile ofs seq marker pt ts arrival payload t) := by
  unfold Machine.execJbFile
  exact .ite (.go h.jbFile) (.go h)

/-! ## Receive -/

theorem Keeps.takeCell {c : Nat} (h : Keeps false s t) (he : takeCell t c = some r) : Keeps false s r.2 := by
  unfold Machine.takeCell at he
  split at he
  · obtain ⟨i, -, rfl⟩ := Option.map_eq_some_iff.mp he
    exact h.draw.wr.wr
  · contradiction

theorem Keeps.freeCell {i : Nat} (h : Keeps false s t) : Keeps false s (freeCell t i) := by
  unfold Machine.freeCell
  exact .ite h.wr.wr h

theorem Keeps.freeCells {l : List Nat} (h : Keeps false s t) : Keeps false s (freeCells t l) := by
  unfold Machine.freeCells
  exact .over h fun _ _ h => h.freeCell

theorem Keeps.takeCells {c n : Nat} {r : List Nat × State} (h : Keeps false s t) (he : takeCells t c n = some r) : Keeps false s r.2 := by
  induction n generalizing t r with
  | zero => exact Option.some.inj he ▸ h
  | succ n ih =>
    unfold Machine.takeCells at he
    split at he
    · contradiction
    · obtain ⟨q, hq, rfl⟩ := Option.map_eq_some_iff.mp he
      exact ih (r := q) (h.takeCell ‹_›) hq

theorem Keeps.storeCells {b : List Byte} {l : List Nat} (h : Keeps false s t) : Keeps false s (storeCells t b l) := by
  induction l generalizing t b with
  | nil => exact h
  | cons i r ih => exact ih h.physWrite

theorem Keeps.moveCells {q : Nat} {l : List Nat} (h : Keeps false s t) (he : moveCells t q l = some u) : Keeps false s u := by
  induction l generalizing t with
  | nil => exact Option.some.inj he ▸ h
  | cons i r ih =>
    unfold Machine.moveCells at he
    split at he
    · exact ih h.freeCell.wr.wr he
    · contradiction

theorem Keeps.rqDrop {f : Rcvd} (h : Keeps false s t) : Keeps false s (rqDrop t f) := h.freeCells.pkeCnt

theorem Keeps.rqDeliver {f : Rcvd} {q reason : Nat} (h : Keeps false s t) : Keeps false s (rqDeliver t f q reason) := by
  unfold Machine.rqDeliver
  split
  · exact h.rqDrop
  · split
    · exact h.rqDrop
    · exact .andThen (fun h => .ite h.wr.set h.wr) ((h.moveCells ‹_›).physWrite)

theorem Keeps.clsWrite {i e0 e1 e2 e3 : Nat} (h : Keeps nw s t) : Keeps nw s (clsWrite t i e0 e1 e2 e3) :=
  (((h.wrBut rfl).wrBut rfl).wrBut rfl).wrBut rfl

theorem Keeps.clsInsert {key e0 e1 e2 e3 : Nat} (h : Keeps false s t) : Keeps false s (clsInsert t key e0 e1 e2 e3).2 := by
  unfold Machine.clsInsert
  refine .iteSnd h ?_
  split
  · exact h
  · exact h.wr.wr.clsWrite.set

theorem Keeps.clsAge {i : Nat} (h : Keeps nw s t) : Keeps nw s (clsAge t i) := h.withLists

theorem Keeps.clsModify {key e0 e1 e2 e3 : Nat} (h : Keeps nw s t) : Keeps nw s (clsModify t key e0 e1 e2 e3).2 := by
  unfold Machine.clsModify
  split
  · exact h
  · exact h.clsAge.clsWrite

theorem Keeps.clsDelete {key : Nat} (h : Keeps false s t) : Keeps false s (clsDelete t key).2 := by
  unfold Machine.clsDelete
  split
  · exact h
  · exact h.clsAge.wr.set

theorem Keeps.clsRead {i : Nat} (h : Keeps false s t) : Keeps false s (clsRead t i) :=
  h.set.set.set.set.set.set.set.set.set.set.set.set.set.set

theorem Keeps.clsReadCmd (h : Keeps false s t) : Keeps false s (clsReadCmd t).2 := by
  unfold Machine.clsReadCmd
  split
  · exact h
  · exact h.clsRead

theorem Keeps.clsEnd {waits : Bool} {r : Nat × State} (h : Keeps false s r.2) : Keeps false s (clsEnd waits r) := by
  unfold Machine.clsEnd
  exact .ite h.set.set h.set.set

theorem Keeps.clsCmdWrite {v : Nat} (h : Keeps false s t) : Keeps false s (clsCmdWrite t v) := by
  unfold Machine.clsCmdWrite
  refine .ite h (.ite h.set ?_)
  split
  · exact h.set.clsInsert.clsEnd
  · exact h.set.clsModify.clsEnd
  · exact h.set.clsDelete.clsEnd
  · exact h.set.clsReadCmd.clsEnd
  · exact h.set.clsEnd

theorem Runs.execClsInsert {ini : Init} (h : Keeps false s t) : Runs s (execClsInsert ini t) := by
  unfold Machine.execClsInsert
  exact .ite (.go h.clsCmdWrite) (.go h)

theorem Runs.execClsModify {ini : Init} (h : Keeps false s t) : Runs s (execClsModify ini t) := by
  unfold Machine.execClsModify
  exact .ite (.go h.clsCmdWrite) (.go h)

theorem Runs.execClsDelete {ini : Init} (h : Keeps false s t) : Runs s (execClsDelete ini t) := by
  unfold Machine.execClsDelete
  exact .ite (.go h.clsCmdWrite) (.go h)

theorem Runs.execClsRead {ini : Init} (h : Keeps false s t) : Runs s (execClsRead ini t) := by
  unfold Machine.execClsRead
  exact .ite (.go h.clsCmdWrite) (.go h)

theorem Runs.execClsDrainDone (h : Keeps false s t) : Runs s (execClsDrainDone t) := by
  unfold Machine.execClsDrainDone
  exact .ite (.go h.set) (.go h)

theorem Keeps.advanceStream {n idx : Nat} (h : Keeps false s t) : Keeps false s (advanceStream t n idx) := by
  unfold Machine.advanceStream
  exact .ite h.wr.wr.wr.wr h.wr

theorem Keeps.strmFiled {n idx octets ts arrival hz : Nat} (h : Keeps false s t) : Keeps false s (strmFiled t n idx octets ts
    arrival hz) := by
  unfold Machine.strmFiled
  exact .andThen (fun h => .wr (.wr (.wr (.wr (.ite h.wr h))))) (.ite h.strmCnt.strmCnt.wr h.strmCnt.strmCnt)

theorem Keeps.fileFor {e0 e2 : Nat} {k : JbPacket} (h : Keeps false s t) : Keeps false s (fileFor t e0 e2 k).2 := by
  unfold Machine.fileFor
  dsimp only
  exact .iteSnd h.jbFile.setFlags h.jbFile

theorem Keeps.latchSsrc {f : RxFrame} {ssrc : Nat} (h : Keeps false s t) : Keeps false s (latchSsrc t f ssrc) := by
  unfold Machine.latchSsrc
  exact .ite h.wr.wr h

theorem Keeps.fileRtp {f : RxFrame} {idx : Nat} {b : List Byte} (h : Keeps false s t) : Keeps false s (fileRtp t f idx b) := by
  unfold Machine.fileRtp
  exact .ite h.latchSsrc.fileFor.strmFiled h.latchSsrc.fileFor

theorem Keeps.rtpProcess {f : RxFrame} (h : Keeps false s t) : Keeps false s (rtpProcess t f) := by
  unfold Machine.rtpProcess
  refine .ite h.freeCells.pkeCnt (.ite h.freeCells.advanceStream.fileRtp (.ite h.freeCells.pkeCnt.strmCnt (.ite
    h.freeCells.pkeCnt.strmCnt ?_)))
  split
  · exact h.freeCells.pkeCnt.strmCnt
  · exact h.freeCells.advanceStream.fileRtp

theorem Keeps.rxSettle {before l : List RxFrame} (h : Keeps false s t) : Keeps false s (rxSettle t before l) := by
  induction l generalizing t before with
  | nil => exact h.withLists
  | cons f r ih => exact .ite (ih h.rtpProcess) (ih h)

theorem Runs.execSrtpDone {k : Fin 512} (h : Keeps false s t) : Runs s (execSrtpDone k t) := by
  unfold Machine.execSrtpDone
  exact .go h.rxSettle

theorem Keeps.rtpFrame {i : Nat} {f : Rcvd} {pkt : List Byte} (h : Keeps false s t) : Keeps false s (rtpFrame t i f pkt) := by
  unfold Machine.rtpFrame
  exact .ite h.freeCells.pkeCnt (.ite h.rqDeliver (.ite h.freeCells.pkeCnt h.rxSettle))

theorem Keeps.udptlFrame {i : Nat} {f : Rcvd} {pkt : List Byte} (h : Keeps false s t) : Keeps false s (udptlFrame t i f pkt) := by
  unfold Machine.udptlFrame
  exact .ite h.freeCells.fileFor.strmFiled h.freeCells.fileFor

theorem Keeps.forwardFrame {i : Nat} {f : Rcvd} (h : Keeps false s t) : Keeps false s (forwardFrame t i f) := by
  unfold Machine.forwardFrame
  dsimp only
  split
  · exact .ite h.freeCells.pkeCnt.cwCnt h.freeCells.pkeCnt.cwSend
  · exact h.freeCells.pkeCnt.cwSend

theorem Keeps.classify {f : Rcvd} {la port rq : Nat} {pkt : List Byte} (h : Keeps false s t) : Keeps false s (classify t f la port
    rq pkt) := by
  unfold Machine.classify
  split
  · exact h.pkeCnt.rqDeliver
  · split
    · exact h.rtpFrame
    · exact h.udptlFrame
    · exact h.rqDeliver
    · exact h.forwardFrame

theorem Keeps.actParsed {f : Rcvd} {x2 : Parsed} (h : Keeps false s t) : Keeps false s (actParsed t f x2) := by
  unfold Machine.actParsed
  split
  · exact h.freeCells
  · exact h.rqDeliver
  · exact h.classify
  · exact h.freeCells.pkeCnt
  · exact h.freeCells.pkeCnt
  · exact h.rqDeliver

theorem Keeps.admitFrame {p sub : Nat} {b : List Byte} {symErr backlog ecc : Bool} (h : Keeps false s t) : Keeps false s
    (admitFrame t p sub b symErr backlog ecc).1 := by
  unfold Machine.admitFrame
  refine .iteFst h.portCnt (.iteFst h.portCnt (.iteFst h (.iteFst h.portCnt.portCnt.portCnt ?_)))
  have hcounted : ∀ n, Keeps false s (Machine.portCnt (Machine.portCnt t p 0) p 1 n) := fun _ => h.portCnt.portCnt
  split
  · exact (hcounted _).portCnt
  · have hcells := (hcounted _).takeCells ‹_›
    exact .iteFst (.errEvent (.set (.pkeCnt (.freeCells hcells)))) (.storeCells hcells)

theorem Keeps.strmClear {n : Nat} (h : Keeps false s t) : Keeps false s (strmClear t n) := by
  unfold Machine.strmClear
  exact .over h fun _ _ h => h.wr

theorem Keeps.unlatch {n : Nat} (h : Keeps false s t) : Keeps false s (unlatch t n) := by
  unfold Machine.unlatch
  exact .over h fun _ _ h => h.wr

theorem Keeps.ksInstall {n : Nat} {keep : Bool} (h : Keeps false s t) : Keeps false s (ksInstall t n keep).2 := by
  unfold Machine.ksInstall
  exact .iteSnd h (.clearFld (.wr (.wr (.wr (.wr (.wr (.ite h h.strmClear.wr.wr.wr.unlatch)))))))

theorem Keeps.ksClear {n : Nat} (h : Keeps false s t) : Keeps false s (ksClear t n) := h.wr.wr.wr

theorem Keeps.ksCmdWrite {ini : Init} {v : Nat} (h : Keeps false s t) : Keeps false s (ksCmdWrite t ini v) := by
  unfold Machine.ksCmdWrite
  refine .ite (.ite h.set.set h.set) ?_
  split
  · exact .ite h.set.set h.set
  · split
    · exact .set (.ksInstall (.ite h.set.set h.set))
    · exact .set (.ksClear (.ite h.set.set h.set))
    · exact .set (.strmClear (.ite h.set.set h.set))

theorem Runs.execKsInstall {ini : Init} {keep : Bool} (h : Keeps false s t) : Runs s (execKsInstall ini keep t) := by
  unfold Machine.execKsInstall
  exact .ite (.go h.ksCmdWrite) (.go h)

theorem Runs.execKsClear {ini : Init} (h : Keeps false s t) : Runs s (execKsClear ini t) := by
  unfold Machine.execKsClear
  exact .ite (.go h.ksCmdWrite) (.go h)

theorem Runs.execKsClrcnt {ini : Init} (h : Keeps false s t) : Runs s (execKsClrcnt ini t) := by
  unfold Machine.execKsClrcnt
  exact .ite (.go h.ksCmdWrite) (.go h)

theorem Keeps.strmselWrite {ini : Init} {v : Nat} (h : Keeps false s t) : Keeps false s (strmselWrite t ini v) := by
  unfold Machine.strmselWrite
  split
  · exact h
  · exact .over h.wr fun _ _ h => h.wr

theorem Runs.execStrmselWrite {ini : Init} {v : Word} (h : Keeps false s t) : Runs s (execStrmselWrite ini v t) := by
  unfold Machine.execStrmselWrite
  exact .ite (.go h.strmselWrite) (.go h)

theorem Keeps.portCfgWrite {p v : Nat} (h : Keeps false s t) : Keeps false s (portCfgWrite t p v) := by
  unfold Machine.portCfgWrite
  exact .andThen (fun h => .ite h.wr.wr.wr.wr.wr.wr.wr.wr.wr.wr (.ite h.wr.wr.wr.wr.wr.wr.portDown.endQueued
    h.wr.wr.wr.wr.wr.wr)) (.ite (.wr (.ite h.wr h)) (.ite h.wr h))

theorem Runs.execPortEnable {ini : Init} {v : Word} (h : Keeps false s t) : Runs s (execPortEnable ini v t) := by
  unfold Machine.execPortEnable
  split
  · exact .ite (.go h.portCfgWrite) (.go h)
  · exact .go h

theorem Runs.execPortDisable {ini : Init} {v : Word} (h : Keeps false s t) : Runs s (execPortDisable ini v t) := by
  unfold Machine.execPortDisable
  split
  · exact .ite (.go h.portCfgWrite) (.go h)
  · exact .go h

theorem Keeps.portUp {p : Nat} (h : Keeps false s t) : Keeps false s (portUp t p) := by
  unfold Machine.portUp
  exact .ite h.wr.wr.wr.wr.set.loadLatency h

theorem Runs.execPortLinkChange {p : Fin 8} {up : Bool} (h : Keeps false s t) : Runs s (execPortLinkChange p up t) := by
  unfold Machine.execPortLinkChange
  exact .ite (.go h.portUp) (.go h.portDown)

theorem Runs.execCellret {ini : Init} {v : Word} (h : Keeps false s t) : Runs s (execCellret ini v t) := by
  unfold Machine.execCellret
  exact .ite (.go h.freeCell) (.go h)

theorem Keeps.cellcfgWrite {c v : Nat} (h : Keeps false s t) : Keeps false s (cellcfgWrite t c v) := by
  unfold Machine.cellcfgWrite
  exact .ite h.set h.wr.wr

theorem Runs.execCellcfgWrite {ini : Init} {c : Fin 25} {v : Word} (h : Keeps false s t) : Runs s (execCellcfgWrite ini c v
    t) := by
  unfold Machine.execCellcfgWrite
  exact .ite (.go h.cellcfgWrite) (.go h)

theorem Keeps.cellRegionWrite {cnt : Bool} {v : Nat} (h : Keeps false s t) : Keeps false s (cellRegionWrite t cnt v) := by
  unfold Machine.cellRegionWrite
  exact .ite h (.ite h.set h.set)

theorem Runs.execCellRegionWrite {ini : Init} {cnt : Bool} {v : Word} (h : Keeps false s t) : Runs s (execCellRegionWrite
    ini cnt v t) := by
  unfold Machine.execCellRegionWrite
  exact .ite (.go h.cellRegionWrite) (.go h)

/-! ## Mode changes -/

theorem Keeps.enterBoot {cause : Nat} (h : Keeps nw s t) : Keeps nw s (enterBoot t cause) := by
  unfold Machine.enterBoot
  refine .perstSeen (.foldl (.setBut (.setBut (.setBut (.setBut (.setBut (.setBut (.setBut (.ite ?_ ?_)
    rfl) rfl) rfl) rfl) rfl) rfl) rfl) fun _ _ h => .ite (h.wrBut rfl) h)
  · exact h.cpgBeforeBoot.loseAll fun _ => keptByReset_nwCnt
  · exact h.cpgBeforeBoot.loseAll fun _ => by simp [keptByBoot_nwCnt]

theorem Keeps.enterWatch {cause : Nat} (h : Keeps false s t) : Keeps false s (enterWatch t cause) :=
  h.cpgAtWatch.set.set.set.fenceInterfaces.set.set.set

theorem Keeps.wakeNow {sources : Nat} (h : Keeps nw s t) : Keeps nw s (wakeNow t sources) := by
  unfold Machine.wakeNow
  exact .ite (.ite ((h.setBut rfl).setBut rfl) ((h.setBut rfl).enterBoot)) h

theorem Runs.execWakeEvent {sources : BitVec 4} (h : Keeps false s t) : Runs s (execWakeEvent sources t) := by
  unfold Machine.execWakeEvent
  exact .go (.wakeNow (.ite h.set h))

theorem Runs.execWatchPenOffStep (h : Keeps false s t) : Runs s (execWatchPenOffStep t) := by
  unfold Machine.execWatchPenOffStep
  refine .ite ?_ (.go h)
  dsimp only
  split
  · exact .go h.wr.set
  · exact .ite (.go h.set.enterBoot) (.go h.set)

theorem Keeps.takeRequest {target : Nat} (h : Keeps false s t) : Keeps false s (takeRequest t target) := by
  unfold Machine.takeRequest
  exact .ite h.enterWatch (.ite h.enterBoot (.ite h.enterFenced h.set.set.set))

theorem Keeps.pmuModeWrite {v : Nat} (h : Keeps false s t) : Keeps false s (pmuModeWrite t v) := by
  unfold Machine.pmuModeWrite
  exact .ite (.ite (.takeRequest (.set (.ite h.set h))) (.set (.set (.ite h.set h)))) (.ite h.set h)

theorem Runs.execModeRequest {ini : Init} {v : Word} (h : Keeps false s t) : Runs s (execModeRequest ini v t) := by
  unfold Machine.execModeRequest
  exact .ite (.go h.pmuModeWrite) (.go h)

theorem Runs.execVddnwLow (h : Keeps false s t) : Runs s (execVddnwLow t) := by
  unfold Machine.execVddnwLow
  exact .go h.enterReset.noMem

theorem Keeps.nwEdge (h : Keeps false s t) : Keeps false s (nwEdge t) := by
  unfold Machine.nwEdge
  exact .ite (.ite h.set.set.wakeNow h.set) h

theorem Runs.execNwalarm (h : Keeps false s t) : Runs s (execNwalarm t) := by
  unfold Machine.execNwalarm
  exact .go h.nwEdge

theorem Keeps.nwcntLoRead (h : Keeps false s t) : Keeps false s (nwcntLoRead t).2 := h.set.set

theorem Runs.execNwcntLoRead {ini : Init} (h : Keeps false s t) : Runs s (execNwcntLoRead ini t) := by
  unfold Machine.execNwcntLoRead
  exact .ite (.go h.nwcntLoRead.seen) (.go h)

/-! ## The health monitor -/

theorem Keeps.hmChange {e : Nat} (h : Keeps nw s t) : Keeps nw s (hmChange t e) := h.wrBut rfl

theorem Keeps.hmSync {mask : Nat} (h : Keeps nw s t) : Keeps nw s (hmSync t mask) := by
  unfold Machine.hmSync
  exact .andThen (fun h => .ite (.over h fun _ _ h => (h.wrBut rfl).hmChange) h) (.over h fun _ _ h => ((((h.wrBut
    rfl).wrBut rfl).wrBut rfl).wrBut rfl))

theorem Keeps.hmnModes (h : Keeps nw s t) : Keeps nw s (hmnModes t) := by
  unfold Machine.hmnModes
  exact .over (.ite h (.ite (.foldl ((h.setBut rfl).hmSync) fun _ _ h => ((h.wrBut rfl).wrBut rfl)) (h.setBut rfl)))
    fun _ _ h => .ite h (.ite ((h.wrBut rfl).hmChange) (h.wrBut rfl))

theorem Keeps.hmSample (h : Keeps nw s t) : Keeps nw s (hmSample t) := by
  unfold Machine.hmSample
  exact .over (h.setBut rfl) fun _ _ h => .ite (h.wrBut rfl) h

theorem Keeps.hmnTick (h : Keeps nw s t) : Keeps nw s (hmnTick t) := by
  unfold Machine.hmnTick
  dsimp only
  split
  · exact h.hmnModes
  · exact .ite ((h.hmnModes.setBut rfl).hmSample) (h.hmnModes.setBut rfl)

theorem Runs.execHmnSync {ini : Init} {v : Word} (h : Keeps false s t) : Runs s (execHmnSync ini v t) := by
  unfold Machine.execHmnSync
  exact .ite (.go h.hmnModes.hmSync) (.go h)

theorem Keeps.slcCfgWrite {k v : Nat} (h : Keeps false s t) : Keeps false s (slcCfgWrite t k v) := h.wr.wr.wr.wr.hmSync

theorem Runs.execSlcCfgWrite {ini : Init} {k : Fin 4} {v : Word} (h : Keeps false s t) : Runs s (execSlcCfgWrite ini k v t) := by
  unfold Machine.execSlcCfgWrite
  exact .ite (.go h.hmnModes.slcCfgWrite) (.go h)

theorem Keeps.switchStart {k input : Nat} (h : Keeps false s t) : Keeps false s (switchStart t k input) := by
  unfold Machine.switchStart
  exact .ite h.wr h.wr.wr

theorem Keeps.muxWrite {k v : Nat} (h : Keeps false s t) : Keeps false s (muxWrite t k v) := by
  unfold Machine.muxWrite
  exact .ite h.wr.wr.wr.wr.switchStart h.wr.wr.wr.wr.wr.switchStart

theorem Keeps.scanStep {k : Nat} (h : Keeps false s t) : Keeps false s (scanStep t k) := by
  unfold Machine.scanStep
  exact .ite h.switchStart h

theorem Runs.execInputSwitch {ini : Init} {k : Fin 4} {scan : Bool} {v : Word} (h : Keeps false s t) : Runs s
    (execInputSwitch ini k scan v t) := by
  unfold Machine.execInputSwitch
  exact .ite (.ite (.go h.hmnModes.scanStep) (.go h)) (.ite (.go h.hmnModes.muxWrite) (.go h))

theorem Keeps.inputMake {k : Nat} (h : Keeps false s t) : Keeps false s (inputMake t k) := by
  unfold Machine.inputMake
  exact .ite h (.ite h.wr.wr.wr.wr.hmSync.wr.switchStart h.wr.wr.wr.wr.hmSync)

theorem Runs.execInputMake {k : Fin 4} (h : Keeps false s t) : Runs s (execInputMake k t) := by
  unfold Machine.execInputMake
  exact .ite (.go h.hmnModes.inputMake) (.go h)

theorem Keeps.snsCfgWrite {n v : Nat} (h : Keeps false s t) : Keeps false s (snsCfgWrite t n v) := by
  unfold Machine.snsCfgWrite
  exact .ite h.wr.wr (.wr (.wr (.ite h.wr.wr h.wr.wr.wr)))

theorem Runs.execGainWrite {ini : Init} {v : Word} (h : Keeps false s t) : Runs s (execGainWrite ini v t) := by
  unfold Machine.execGainWrite
  refine .ite (.go h) ?_
  split
  · exact .go h.hmnModes.snsCfgWrite
  · exact .go h

theorem Keeps.excWrite {e : Nat} {cfg : Bool} {v : Nat} (h : Keeps false s t) : Keeps false s (excWrite t e cfg v) := by
  unfold Machine.excWrite
  exact .hmChange (.wr (.ite h.wr.wr h.wr))

theorem Runs.execExcitationChange {ini : Init} {e : Fin 2} {cfg : Bool} {v : Word} (h : Keeps false s t) : Runs s
    (execExcitationChange ini e cfg v t) := by
  unfold Machine.execExcitationChange
  exact .ite (.go h.hmnModes.excWrite) (.go h)

theorem Keeps.hmThrottle (h : Keeps false s t) : Keeps false s (hmThrottle t) := by
  unfold Machine.hmThrottle
  exact .ite h h.setThrottle

theorem Keeps.hmAct {act : Nat} {flag : Fld} (h : Keeps false s t) : Keeps false s (hmAct t act flag) := by
  unfold Machine.hmAct
  exact .ite h (.andThen (fun h => .ite h.wakeNow h) (.ite h.set.hmThrottle.fatalError h.set.hmThrottle))

theorem Keeps.thrStep {n : Nat} {run act evt : Fld} {toward : Bool} {action : Nat} (h : Keeps false s t) : Keeps false s (thrStep
    t n run act evt toward action) := by
  unfold Machine.thrStep
  exact .ite h.wr (.ite h.wr (.ite h.wr.wr.hmThrottle h.wr.wr.wr.hmAct))

theorem Keeps.compareOutput {n : Nat} {v : ℤ} (h : Keeps false s t) : Keeps false s (compareOutput t n v) := h.thrStep.thrStep

theorem Keeps.thrRestart {n : Nat} (h : Keeps false s t) : Keeps false s (thrRestart t n) := h.wr.wr.hmThrottle

theorem Keeps.fineOutput {k data : Nat} (h : Keeps false s t) : Keeps false s (fineOutput t k data) := by
  unfold Machine.fineOutput
  exact .ite h (.ite (.compareOutput (.ite h.wr.wr h.wr)) (.ite h.wr.wr h.wr))

theorem Runs.execFineOutput {k : Fin 4} {data : BitVec 24} (h : Keeps false s t) : Runs s (execFineOutput k data t) := by
  unfold Machine.execFineOutput
  exact .ite (.go h.hmnModes.fineOutput) (.go h)

theorem Keeps.coarseSample {k code : Nat} (h : Keeps false s t) : Keeps false s (coarseSample t k code) := by
  unfold Machine.coarseSample
  exact .ite h.wr.wr (.andThen (fun h => .ite h.wr.hmAct h) (.ite h.wr.wr.wr.wr.hmThrottle.wr.hmAct
    h.wr.wr.wr.wr.hmThrottle))

theorem Runs.execCoarseCompare {k : Fin 4} {code : BitVec 16} (h : Keeps false s t) : Runs s (execCoarseCompare k code t) := by
  unfold Machine.execCoarseCompare
  exact .ite (.go h.hmnModes.coarseSample) (.go h)

theorem Keeps.demodEnd {k i q : Nat} (h : Keeps false s t) : Keeps false s (demodEnd t k i q) := h.wr.wr.wr.set

theorem Runs.execDemodWindowEnd {k : Fin 4} {i q : BitVec 24} (h : Keeps false s t) : Runs s (execDemodWindowEnd k i q t) := by
  unfold Machine.execDemodWindowEnd
  exact .ite (.go h.hmnModes.demodEnd) (.go h)

theorem Keeps.slcDemWrite {k v : Nat} (h : Keeps false s t) : Keeps false s (slcDemWrite t k v) := by
  unfold Machine.slcDemWrite
  exact .wr (.wr (.wr (.ite h h.wr)))

/-! ## Highways -/

theorem Keeps.tdxCnt {k : Nat} (h : Keeps nw s t) : Keeps nw s (tdxCnt t k) := h.bump rfl rfl

theorem Keeps.setMap {k v : Nat} (h : Keeps nw s t) : Keeps nw s (setMap t k v) := by
  unfold Machine.setMap
  exact .andThen (fun h => (.wrBut (.wrBut (.wrBut (.ite (.ite h (h.wrBut rfl)) (.wrBut (.ite h (h.wrBut rfl)) rfl))
    rfl) rfl) rfl)) ((((h.setBut rfl).setBut rfl).wrBut rfl).wrBut rfl)

theorem Keeps.mapRefuse (h : Keeps nw s t) : Keeps nw s (mapRefuse t) := h.tdxCnt.setBut rfl

theorem Keeps.tdxMapWrite {k v : Nat} (h : Keeps false s t) : Keeps false s (tdxMapWrite t k v) := by
  unfold Machine.tdxMapWrite
  exact .ite h.mapRefuse h.setMap

theorem Runs.execTdxMapWrite {ini : Init} {k : BitVec 15} {v : Word} (h : Keeps false s t) : Runs s (execTdxMapWrite ini k v
    t) := by
  unfold Machine.execTdxMapWrite
  exact .ite (.go h.tdxMapWrite) (.go h)

theorem Keeps.mapForce {g : Nat} (h : Keeps nw s t) : Keeps nw s (mapForce t g) := by
  unfold Machine.mapForce
  exact .over h fun _ _ h => .ite h ((h.wrBut rfl).wrBut rfl)

theorem Keeps.receiveFrame {g : Nat} {rx : List (BitVec 15 × Byte)} (h : Keeps nw s t) : Keeps nw s (receiveFrame t g rx) := by
  unfold Machine.receiveFrame
  exact .over h fun _ _ h => .over h fun _ _ h => (h.wrBut rfl)

theorem Keeps.storeFrame (h : Keeps nw s t) : Keeps nw s (storeFrame t) := by
  unfold Machine.storeFrame
  exact .over h fun _ _ h => .over h fun _ _ h => h.physWrite

theorem Keeps.zeroFrames {f : Nat} {skip : Nat → Bool} (h : Keeps nw s t) : Keeps nw s (zeroFrames t f skip) := by
  unfold Machine.zeroFrames
  exact .over h fun _ _ h => .over h fun _ _ h => h.physWrite

theorem Keeps.keepSources (h : Keeps nw s t) : Keeps nw s (keepSources t) := by
  unfold Machine.keepSources
  exact .over h fun _ _ h => (h.wrBut rfl)

theorem Keeps.driveFrame {g : Nat} (h : Keeps nw s t) : Keeps nw s (driveFrame t g) := by
  unfold Machine.driveFrame
  exact .andThen (fun h => .ite h (.over h fun _ _ h => .over h fun _ _ h => (h.wrBut rfl))) (.over h fun _ _ h =>
    (h.wrBut rfl))

theorem Keeps.judgeSlot {k w : Nat} (h : Keeps nw s t) : Keeps nw s (judgeSlot t k w) := by
  unfold Machine.judgeSlot
  exact .ite ((h.wrBut rfl).wrBut rfl) ((((h.wrBut rfl).tdxCnt.setBut rfl).errEvent.setBut rfl).setBut rfl)

theorem Keeps.bridgeTo {dev : Nat} {entries : List (List Byte)} (h : Keeps nw s t) : Keeps nw s (bridgeTo t dev entries) := by
  unfold Machine.bridgeTo
  exact .foldl h fun _ _ h => h.cwSend

theorem Keeps.bridgeSend (h : Keeps nw s t) : Keeps nw s (bridgeSend t) := by
  unfold Machine.bridgeSend
  exact .ite h (.over (.over h fun _ _ h => .ite h (.ite h.cwCnt (h.wrBut rfl))) fun _ _ h => h.bridgeTo)

theorem Keeps.blockBoundary (h : Keeps nw s t) : Keeps nw s (blockBoundary t) := by
  unfold Machine.blockBoundary
  exact .bridgeSend (.over ((h.setBut rfl).setBut rfl) fun _ _ h => h.judgeSlot)

theorem Keeps.handover (h : Keeps nw s t) : Keeps nw s (handover t) := by
  unfold Machine.handover
  exact .andThen (fun h => (.setBut (.ite (h.setBut rfl) h) rfl)) (.setBut (.setBut (.setBut (.over (.over h fun _ _ h
    => h.setMap) fun _ _ h => .ite h.setMap.mapRefuse h.setMap) rfl) rfl) rfl)

theorem Keeps.refBoundary {next : Nat} (h : Keeps nw s t) : Keeps nw s (refBoundary t next) := by
  unfold Machine.refBoundary
  exact .andThen (fun h => .over (.keepSources (.driveFrame (.ite ((h.mapForce.setBut rfl).blockBoundary)
    (h.mapForce.setBut rfl)))) fun _ _ h => .ite (h.wrBut rfl) h) (.ite ((h.setBut rfl).handover) (h.setBut rfl))

theorem Keeps.groupFrame {g : Nat} {rx : List (BitVec 15 × Byte)} (h : Keeps nw s t) : Keeps nw s (groupFrame t g rx) := by
  unfold Machine.groupFrame
  exact .ite h.receiveFrame.storeFrame.refBoundary ((h.receiveFrame.wrBut rfl).mapForce.driveFrame)

theorem Keeps.failover (h : Keeps false s t) : Keeps false s (failover t) := by
  unfold Machine.failover
  exact .ite h.set.set.set.tdxCnt h

theorem Keeps.setLoss {g : Nat} {b : Bool} (h : Keeps false s t) : Keeps false s (setLoss t g b) := by
  unfold Machine.setLoss
  exact .ite h h.wr.wr.set

theorem Keeps.clocksOk {g : Nat} {b : Bool} (h : Keeps false s t) : Keeps false s (clocksOk t g b) := by
  unfold Machine.clocksOk
  split
  · exact h.set
  · exact h.set
  · exact h

theorem Keeps.framePulse {g : Nat} {rx : List (BitVec 15 × Byte)} (h : Keeps false s t) : Keeps false s (framePulse t g rx) := by
  have hclocks : Keeps false s (Machine.clocksOk (Machine.setLoss t g false) g true) := h.setLoss.clocksOk
  unfold Machine.framePulse
  generalize Machine.clocksOk (Machine.setLoss t g false) g true = u at hclocks ⊢
  dsimp only
  split
  · exact .groupFrame (.ite hclocks.set.set hclocks)
  · exact .ite hclocks.set.set hclocks

theorem Keeps.tdxPulse {g : Nat} {kind : PulseKind} {rx : List (BitVec 15 × Byte)} (h : Keeps false s t) : Keeps false s (tdxPulse
    t g kind rx) := by
  unfold Machine.tdxPulse
  exact .ite h (.ite (.ite h h.framePulse) (.andThen (fun h => .ite h.framePulse h) (.ite h.tdxCnt.failover
    h.tdxCnt)))

theorem Runs.execTdxFramePulse {g : Fin 4} {kind : PulseKind} {rx : List (BitVec 15 × Byte)} (h : Keeps false s t) : Runs s
    (execTdxFramePulse g kind rx t) := by
  unfold Machine.execTdxFramePulse
  exact .go h.tdxPulse

theorem Runs.execTdxBlockBoundary {rx : List (BitVec 15 × Byte)} (h : Keeps false s t) : Runs s (execTdxBlockBoundary rx t) := by
  unfold Machine.execTdxBlockBoundary
  exact .ite (.go h.tdxPulse) (.go h)

theorem Runs.execTdxClockLoss {g : Fin 4} (h : Keeps false s t) : Runs s (execTdxClockLoss g t) := by
  unfold Machine.execTdxClockLoss
  exact .ite (.go (.ite h.setLoss.clocksOk.failover h.setLoss.clocksOk)) (.go h)

theorem Runs.execTdxSlip {g : Fin 4} {slow : Bool} (h : Keeps false s t) : Runs s (execTdxSlip g slow t) := by
  unfold Machine.execTdxSlip
  exact .ite (.ite (.go h.tdxCnt.set.receiveFrame.wr) (.go h.tdxCnt.set.wr)) (.go h)

theorem Runs.execH110Failover (h : Keeps false s t) : Runs s (execH110Failover t) := by
  unfold Machine.execH110Failover
  exact .ite (.go h.failover) (.go h)

theorem Keeps.clkselWrite {b : Bool} (h : Keeps false s t) : Keeps false s (clkselWrite t b) := by
  unfold Machine.clkselWrite
  exact .ite h.set.set (.ite h.set h)

theorem Keeps.tdxCtrlWrite {v : Nat} (h : Keeps false s t) : Keeps false s (tdxCtrlWrite t v) := by
  unfold Machine.tdxCtrlWrite
  exact .andThen (fun h => .clkselWrite (.ite h h.set)) (.set (.set (.set (.ite h.set.set h))))

theorem Runs.execClkselWrite {ini : Init} {v : Word} (h : Keeps false s t) : Runs s (execClkselWrite ini v t) := by
  unfold Machine.execClkselWrite
  exact .ite (.go h.tdxCtrlWrite) (.go h)

theorem Keeps.swapcmdWrite {v : Nat} (h : Keeps false s t) : Keeps false s (swapcmdWrite t v) := by
  unfold Machine.swapcmdWrite
  exact .andThen (fun h => .ite h.set.set h) (.ite (.set (.ite h.set h)) (.ite h.set h))

theorem Runs.execHandoverArm {ini : Init} {v : Word} (h : Keeps false s t) : Runs s (execHandoverArm ini v t) := by
  unfold Machine.execHandoverArm
  exact .ite (.go h.swapcmdWrite) (.go h)

theorem Runs.execHandoverApply {rx : List (BitVec 15 × Byte)} (h : Keeps false s t) : Runs s (execHandoverApply rx t) := by
  unfold Machine.execHandoverApply
  exact .ite (.go h.tdxPulse) (.go h)

theorem Keeps.realignGroup {g : Nat} {rx : List (BitVec 15 × Byte)} (h : Keeps nw s t) : Keeps nw s (realignGroup t g rx) := by
  unfold Machine.realignGroup
  exact .ite h.receiveFrame.storeFrame.zeroFrames.refBoundary h.groupFrame

theorem Keeps.realign {mask : Nat} {rx : List (BitVec 15 × Byte)} (h : Keeps nw s t) : Keeps nw s (realign t mask rx) := by
  unfold Machine.realign
  split
  · exact h
  · exact .tdxCnt (.over h fun _ _ h => h.realignGroup)

/-! ## Time bases and Waypoints -/

theorem Keeps.tmuCount {f : Fld} (h : Keeps nw s t) (hf : (f.id == I.nwCnt.id) = false) :
    Keeps nw s (tmuCount t f) :=
  h.bump hf rfl

theorem Keeps.setIncr {b v : Nat} (h : Keeps false s t) : Keeps false s (setIncr t b v) := h.wr.wr

theorem Keeps.incrLoWrite {ini : Init} {b v : Nat} (h : Keeps false s t) : Keeps false s (incrLoWrite t ini b v) := by
  unfold Machine.incrLoWrite
  split
  · exact h.wr
  · exact h

theorem Keeps.incrHiWrite {ini : Init} {b v : Nat} (h : Keeps false s t) : Keeps false s (incrHiWrite t ini b v) := by
  unfold Machine.incrHiWrite
  refine .andThen (fun h => .ite h.wr h.setIncr) ?_
  split
  · exact h.wr
  · exact h

theorem Runs.execTbIncrLoWrite {ini : Init} {v : Word} (h : Keeps false s t) : Runs s (execTbIncrLoWrite ini v t) := by
  unfold Machine.execTbIncrLoWrite
  split
  · exact .ite (.go h.incrLoWrite) (.go h)
  · exact .go h

theorem Runs.execTbIncrHiWrite {ini : Init} {v : Word} (h : Keeps false s t) : Runs s (execTbIncrHiWrite ini v t) := by
  unfold Machine.execTbIncrHiWrite
  split
  · exact .ite (.go h.incrHiWrite) (.go h)
  · exact .go h

theorem Keeps.tbCfgWrite {b v : Nat} (h : Keeps false s t) : Keeps false s (tbCfgWrite t b v) := by
  unfold Machine.tbCfgWrite
  exact .ite (.ite h.wr.wr h.wr.wr.wr.wr.set) h.wr

theorem Runs.execTb1FrameMeasure {ok : Bool} {incr : BitVec 40} (h : Keeps false s t) : Runs s (execTb1FrameMeasure ok incr
    t) := by
  unfold Machine.execTb1FrameMeasure
  exact .ite (.ite (.go h.setIncr.wr.set.wr) (.go h.setIncr.wr.set)) (.go h)

theorem Runs.execTb1Holdover {incr : BitVec 40} (h : Keeps false s t) : Runs s (execTb1Holdover incr t) := by
  unfold Machine.execTb1Holdover
  exact .ite (.go h.setIncr.wr.wr.set.set) (.go h)

theorem Keeps.tbAdvance {b : Nat} (h : Keeps nw s t) : Keeps nw s (tbAdvance t b) := (h.wrBut rfl).wrBut rfl

theorem Keeps.tbNsRead {ini : Init} {b : Nat} (h : Keeps false s t) : Keeps false s (tbNsRead t ini b).2 := by
  unfold Machine.tbNsRead
  split
  · exact h.wr
  · exact h

theorem Runs.execTbNsRead {ini : Init} (h : Keeps false s t) : Runs s (execTbNsRead ini t) := by
  unfold Machine.execTbNsRead
  split
  · exact .ite (.go h.tbNsRead.seen) (.go h)
  · exact .ite (.go h.seen) (.go h)

theorem Keeps.capallWrite {v : Nat} (h : Keeps false s t) : Keeps false s (capallWrite t v) := by
  unfold Machine.capallWrite
  exact .ite (.over h fun _ _ h => h.wr) h

theorem Runs.execCapall {ini : Init} {v : Word} (h : Keeps false s t) : Runs s (execCapall ini v t) := by
  unfold Machine.execCapall
  exact .ite (.go h.capallWrite) (.go h)

theorem Keeps.wakeBanks {t' : Nat} (h : Keeps nw s t) : Keeps nw s (wakeBanks t t') := by
  unfold Machine.wakeBanks
  exact .over h fun _ _ h => h.cstTouch

theorem Keeps.noticeTask {f g k a : Nat} {p : Nat × State} (h : Keeps nw s p.2) :
    Keeps nw s (Machine.noticeTask f g k p a).2  := by
  unfold Machine.noticeTask
  exact .iteSnd h (.iteSnd h.reserveTask (.iteSnd (.ite h.reserveTask.wakeBanks h.reserveTask.wakeBanks.provAsk)
    (.iteSnd (.ite h.reserveTask.wakeBanks h.reserveTask.wakeBanks.provAsk) h.reserveTask.wakeBanks)))

theorem Keeps.notice {n : Nat} (h : Keeps nw s t) : Keeps nw s (notice t n) := by
  have hfold : ∀ (l : List Nat) (f g k : Nat) (p : Nat × State), Keeps nw s p.2 →
      Keeps nw s (l.foldl (Machine.noticeTask f g k) p).2 := by
    intro l f g k
    induction l with
    | nil => exact fun _ hp => hp
    | cons a r ih => exact fun _ hp => ih _ hp.noticeTask
  exact .ite (h.wrBut rfl) (hfold _ _ _ _ (0, _) ((h.wrBut rfl).setBut rfl))

theorem Runs.execLookaheadNotice {n : BitVec 12} (h : Keeps false s t) : Runs s (execLookaheadNotice n t) := by
  unfold Machine.execLookaheadNotice
  exact .ite (.go h.notice) (.go h)

theorem Keeps.wpAction {n : Nat} {rx : List (BitVec 15 × Byte)} (h : Keeps nw s t) : Keeps nw s (wpAction t n rx) := by
  unfold Machine.wpAction
  split
  · exact h.setGroup
  · exact h.post
  · exact h.mlsTrig
  · exact .ite h.realign (((h.wrBut rfl).wrBut rfl).setBut rfl)
  · exact .ite (h.wrBut rfl) ((h.wrBut rfl).wrBut rfl)
  · exact .ite (.over h fun _ _ h => h.cluWake) h
  · exact h.hmnModes.hmSync
  · exact .ite (h.wrBut rfl) h
  · exact h

theorem Keeps.rephase {n now : Nat} (h : Keeps nw s t) : Keeps nw s (rephase t n now) := by
  unfold Machine.rephase
  exact .ite (h.wrBut rfl) (((((h.wrBut rfl).wrBut rfl).wrBut rfl).wrBut rfl).wrBut rfl)

theorem Keeps.markLate {n lateness : Nat} (h : Keeps nw s t) : Keeps nw s (markLate t n lateness) :=
  ((((h.wrBut rfl).wrBut rfl).tmuCount rfl).setBut rfl).errEvent

theorem Keeps.wpFire {n : Nat} {late : Option Nat} {rx : List (BitVec 15 × Byte)} (h : Keeps nw s t) : Keeps nw s (wpFire t
    n late rx) := by
  unfold Machine.wpFire
  refine .rephase (.wpAction ?_)
  split
  · exact .markLate (.wrBut (.ite h.notice h) rfl)
  · exact (.wrBut (.ite h.notice h) rfl)

theorem Keeps.wpLate {n lateness : Nat} (h : Keeps nw s t) : Keeps nw s (wpLate t n lateness) := by
  unfold Machine.wpLate
  exact .ite (((h.tmuCount rfl).setBut rfl).rephase) h.wpFire

theorem Runs.execWaypointFire {n : BitVec 12} {rx : List (BitVec 15 × Byte)} (h : Keeps false s t) : Runs s
    (execWaypointFire n rx t) := by
  unfold Machine.execWaypointFire
  exact .ite (.go h.wpFire) (.go h)

theorem Runs.execWaypointUnhold {n : BitVec 12} (h : Keeps false s t) : Runs s (execWaypointUnhold n t) := by
  unfold Machine.execWaypointUnhold
  exact .ite (.go h.wr) (.go h)

theorem Keeps.wpArm {n : Nat} (h : Keeps false s t) : Keeps false s (wpArm t n) := by
  unfold Machine.wpArm
  exact .ite h.wr.wr.wr.wr.wpLate h.wr.wr.wr.wr

theorem Keeps.wpTargetWrite {n v : Nat} (h : Keeps false s t) : Keeps false s (wpTargetWrite t n v) := by
  unfold Machine.wpTargetWrite
  exact .ite (.wpArm (.wr (.ite h.wpFire h))) h.wr

theorem Keeps.wpCtlWrite {n v : Nat} (h : Keeps false s t) : Keeps false s (wpCtlWrite t n v) := by
  unfold Machine.wpCtlWrite
  exact .andThen (fun h => .ite h.wr.wr (.ite h.wr h.wr.wpArm)) (.wr (.wr (.wr (.ite h.wr h))))

theorem Runs.execWaypointArm {ini : Init} {ctl : Bool} {v : Word} (h : Keeps false s t) : Runs s (execWaypointArm ini ctl v
    t) := by
  unfold Machine.execWaypointArm
  split
  · exact .ite (.go (.ite h.wpCtlWrite h.wpTargetWrite)) (.go h)
  · exact .go h

theorem Runs.execWaypointDisable {ini : Init} {v : Word} (h : Keeps false s t) : Runs s (execWaypointDisable ini v t) := by
  unfold Machine.execWaypointDisable
  split
  · exact .ite (.go h.wpCtlWrite) (.go h)
  · exact .go h

theorem Keeps.skipLaunches {b ns : Nat} {d : ℤ} (h : Keeps nw s t) : Keeps nw s (skipLaunches t b ns d) := by
  unfold Machine.skipLaunches
  exact .over h fun _ _ h => h.setEgress

theorem Keeps.tbStep {b v : Nat} (h : Keeps nw s t) : Keeps nw s (tbStep t b v) := by
  unfold Machine.tbStep
  exact .andThen (fun h => .ite (.over h.skipLaunches fun _ _ h => .ite h.wpLate h) (.over h fun _ _ h => (h.wrBut
    rfl))) (.wrBut (.wrBut (.wrBut (.over h fun _ _ h => .ite h.wpFire h) rfl) rfl) rfl)

theorem Keeps.tbCmdWrite {b v : Nat} (h : Keeps false s t) : Keeps false s (tbCmdWrite t b v) := by
  unfold Machine.tbCmdWrite
  exact .ite h (.ite h.wr (.ite h.tbStep h.wr))

theorem Runs.execTbStep {ini : Init} {v : Word} (h : Keeps false s t) : Runs s (execTbStep ini v t) := by
  unfold Machine.execTbStep
  split
  · exact .ite (.go h.tbCmdWrite) (.go h)
  · exact .go h

theorem Keeps.applySteps (h : Keeps nw s t) : Keeps nw s (applySteps t) := by
  unfold Machine.applySteps
  exact .over h fun _ _ h => ((h.wrBut rfl).wrBut rfl).tbStep

theorem Keeps.tmuTick (h : Keeps nw s t) : Keeps nw s (tmuTick t) := by
  unfold Machine.tmuTick
  exact .ite (.foldl h.applySteps fun _ _ h => h.tbAdvance) h

theorem Runs.execPulseEnd {k : Fin 5} (h : Keeps false s t) : Runs s (execPulseEnd k t) := by
  unfold Machine.execPulseEnd
  exact .go h.wr

theorem Keeps.ioCfgWrite {k v : Nat} (h : Keeps false s t) : Keeps false s (ioCfgWrite t k v) := by
  unfold Machine.ioCfgWrite
  exact .andThen (fun h => .ite h h.wr) (.ite h.wr.wr.wr.wr h.wr.wr.wr)

theorem Runs.execPinCapture {k : Fin 6} {rising : Bool} {sub : BitVec 9} (h : Keeps false s t) : Runs s (execPinCapture k
    rising sub t) := by
  unfold Machine.execPinCapture
  exact .ite (.ite (.go h.wr) (.go h.wr.wr.wr.set)) (.go h)

theorem Keeps.psCfgWrite {p v : Nat} (h : Keeps false s t) : Keeps false s (psCfgWrite t p v) := by
  unfold Machine.psCfgWrite
  exact .ite (.wr (.wr (.ite h.wr h))) (.wr (.ite h.wr h))

theorem Keeps.psPair {p v : Nat} (h : Keeps false s t) : Keeps false s (psPair t p v) := by
  unfold Machine.psPair
  exact .ite h.wr (.wr (.wr (.wr (.ite h.wr.wr.wr.wr.set h.wr))))

theorem Runs.execPathstepPair {ini : Init} {p : Fin 8} {v : Word} (h : Keeps false s t) : Runs s (execPathstepPair ini p v
    t) := by
  unfold Machine.execPathstepPair
  exact .ite (.go h.psPair) (.go h)

theorem Keeps.psStatWrite {p v : Nat} (h : Keeps false s t) : Keeps false s (psStatWrite t p v) := by
  unfold Machine.psStatWrite
  exact .ite h.wr.wr h

theorem Runs.execPathstepClear {ini : Init} {p : Fin 8} {v : Word} (h : Keeps false s t) : Runs s (execPathstepClear ini p v
    t) := by
  unfold Machine.execPathstepClear
  exact .ite (.go h.psStatWrite) (.go h)

theorem Keeps.wpWrite {n off v : Nat} (h : Keeps false s t) : Keeps false s (wpWrite t n off v) := by
  unfold Machine.wpWrite
  split
  · exact h.wpTargetWrite
  · exact h.wr
  · exact h.wpCtlWrite
  · exact h.wr
  · exact h.wr
  · exact .ite h.wr h
  · exact h

/-! ## Migration -/

theorem Keeps.miEnd {m st reason : Nat} (h : Keeps nw s t) : Keeps nw s (miEnd t m st reason) := by
  unfold Machine.miEnd
  exact .andThen (fun h => .andThen (fun h => .ite h.errEvent h) (.ite (.ite (h.wrBut rfl) h) (.wrBut (.ite (h.wrBut
    rfl) h) rfl))) ((((h.wrBut rfl).wrBut rfl).wrBut rfl).setBut rfl)

theorem Keeps.migctl {m op reason pmask : Nat} (h : Keeps nw s t) : Keeps nw s (migctl t m op reason pmask) := h.cwSend

theorem Keeps.migSend {m kind v a n : Nat} (h : Keeps false s t) : Keeps false s (migSend t m kind v a n) := by
  unfold Machine.migSend
  exact .over h fun _ _ h => h.cwSend

theorem Keeps.migPages {m : Nat} (h : Keeps false s t) : Keeps false s (migPages t m) := by
  unfold Machine.migPages
  exact .over h fun _ _ h => h.cstTouch.migSend.wr

theorem Keeps.miTaskEn {t' : Nat} {en : Bool} (h : Keeps nw s t) : Keeps nw s (miTaskEn t t' en) := h.taskRegWrite

theorem Keeps.keyForward {m k : Nat} (h : Keeps false s t) : Keeps false s (keyForward t m k) := by
  unfold Machine.keyForward
  split
  · exact h
  · split
    · exact h
    · exact .wr (.clsModify (.over h fun _ _ h => h.wr))

theorem Keeps.keyRestore {m k : Nat} (h : Keeps nw s t) : Keeps nw s (keyRestore t m k) := by
  unfold Machine.keyRestore
  split
  · exact h
  · exact .ite (h.clsModify.wrBut rfl) h

theorem Keeps.keyDelete {m k : Nat} (h : Keeps false s t) : Keeps false s (keyDelete t m k) := by
  unfold Machine.keyDelete
  split
  · exact h
  · exact .ite h.clsDelete.wr h

theorem Keeps.armTdx {m : Nat} (h : Keeps false s t) : Keeps false s (armTdx t m) := by
  unfold Machine.armTdx
  exact .ite h.set.swapcmdWrite h

theorem Keeps.miAbort {m reason : Nat} (h : Keeps nw s t) : Keeps nw s (miAbort t m reason) := by
  unfold Machine.miAbort
  exact .miEnd (.keyRestore (.keyRestore (.ite (h.migctl.miTaskEn.wrBut rfl) h.migctl)))

theorem Keeps.sourceGo {m : Nat} (h : Keeps false s t) : Keeps false s (sourceGo t m) := h.wr.wr.wr.wr.wr.wr.wr.migPages.migctl.wr

theorem Keeps.freeze {m : Nat} (h : Keeps false s t) : Keeps false s (freeze t m) := h.miTaskEn.wr.wr

theorem Keeps.frozenStep {m : Nat} (h : Keeps false s t) : Keeps false s (frozenStep t m) := by
  unfold Machine.frozenStep
  exact .ite h (.andThen (fun h => .ite h h.wr.migPages.migSend.armTdx.migctl.wr) (.over h fun _ _ h => h.keyForward))

theorem Runs.execMigFreeze {m : Fin 64} (h : Keeps false s t) : Runs s (execMigFreeze m t) := by
  unfold Machine.execMigFreeze
  exact .ite (.go h.freeze.frozenStep) (.go h.frozenStep)

theorem Runs.execMigGuard {m : Fin 64} (h : Keeps false s t) : Runs s (execMigGuard m t) := by
  unfold Machine.execMigGuard
  refine .ite ?_ (.go h)
  split
  · exact .go h.miAbort
  · exact .go h

theorem Keeps.migLinkCheck (h : Keeps nw s t) : Keeps nw s (migLinkCheck t) := by
  unfold Machine.migLinkCheck
  exact .over h fun _ _ h => h.miAbort

theorem Runs.execMigAckwait {m : Fin 64} (h : Keeps false s t) : Runs s (execMigAckwait m t) := by
  unfold Machine.execMigAckwait
  exact .ite (.ite (.go h.miEnd) (.ite (.go h.miEnd) (.go h))) (.go h)

theorem Runs.execMigGraceEnd {m : Fin 64} (h : Keeps false s t) : Runs s (execMigGraceEnd m t) := by
  unfold Machine.execMigGraceEnd
  exact .ite (.go h.keyDelete.keyDelete.miEnd) (.go h)

theorem Keeps.destGo {m : Nat} (h : Keeps false s t) : Keeps false s (destGo t m) := h.wr.wr.wr.wr.wr

theorem Keeps.cpgWrite {cid v ofs : Nat} {b : List Byte} (h : Keeps false s t) : Keeps false s (cpgWrite t cid v ofs b) := by
  unfold Machine.cpgWrite
  exact .ite h.faultPage.settlePage.cstTouch.physWrite.refreshCopies (.ite h.faultPage.settlePage.physWrite
    h.faultPage.settlePage)

theorem Keeps.migPage {m : Nat} {p : List Byte} (h : Keeps false s t) : Keeps false s (migPage t m p) := by
  unfold Machine.migPage
  exact .ite (.ite h.physWrite h) (.ite (.wr (.ite h.cpgWrite h)) (.ite h.cpgWrite h))

theorem Keeps.destAbort {m reason : Nat} (h : Keeps false s t) : Keeps false s (destAbort t m reason) := h.migctl.miEnd

theorem Keeps.pcdone {m t' pmask : Nat} (h : Keeps false s t) : Keeps false s (pcdone t m t' pmask) := by
  unfold Machine.pcdone
  exact .ite h.wr (.ite h.wr.destAbort (.ite h.wr.destAbort h.wr.migctl.wr.wr))

theorem Keeps.commit {m : Nat} (h : Keeps false s t) : Keeps false s (commit t m) := by
  unfold Machine.commit
  exact .ite h.miEnd h.armTdx.miTaskEn.migctl.wr

theorem Runs.execMigTPass {m : Fin 64} (h : Keeps false s t) : Runs s (execMigTPass m t) := by
  unfold Machine.execMigTPass
  exact .ite (.ite (.go h.miEnd) (.ite (.go h.miEnd) (.go h))) (.go h)

theorem Keeps.mCtlWrite {m v : Nat} (h : Keeps false s t) : Keeps false s (mCtlWrite t m v) := by
  unfold Machine.mCtlWrite
  exact .andThen (fun h => .ite (.ite h.destAbort (.ite h.wr h)) h) (.ite (.ite h.wr.wr.wr.destGo h.wr.wr.wr.sourceGo)
    h.wr.wr.wr)

theorem Runs.execMigGo {ini : Init} {m : Fin 64} {v : Word} (h : Keeps false s t) : Runs s (execMigGo ini m v t) := by
  unfold Machine.execMigGo
  exact .ite (.go h.mCtlWrite) (.go h)

theorem Runs.execMigAbortWrite {ini : Init} {m : Fin 64} {v : Word} (h : Keeps false s t) : Runs s (execMigAbortWrite ini m
    v t) := by
  unfold Machine.execMigAbortWrite
  exact .ite (.go h.mCtlWrite) (.go h)

theorem Keeps.migDrop (h : Keeps false s t) : Keeps false s (migDrop t) := h.cwCnt

theorem Keeps.migpageRx {src : Nat} {p : List Byte} (h : Keeps false s t) : Keeps false s (migpageRx t src p) := by
  unfold Machine.migpageRx
  split
  · exact h.migPage
  · exact h.migDrop

theorem Keeps.migctlRx {src : Nat} {p : List Byte} (h : Keeps false s t) : Keeps false s (migctlRx t src p) := by
  unfold Machine.migctlRx
  dsimp only
  split
  · exact h.migDrop
  · exact .ite h.pcdone (.ite h.wr (.ite h.commit (.ite h.wr h.miEnd)))

/-! ## Causeway commands -/

theorem Runs.execCwLinkDown {l : Fin 14} (h : Keeps false s t) : Runs s (execCwLinkDown l t) := by
  unfold Machine.execCwLinkDown
  exact .go h.cwDown.migLinkCheck

theorem Runs.execCwRetransmit {l : Fin 14} (h : Keeps false s t) : Runs s (execCwRetransmit l t) := by
  unfold Machine.execCwRetransmit
  exact .ite (.go h.retransmit.migLinkCheck) (.go h)

theorem Keeps.cwCtrlWrite {v : Nat} (h : Keeps false s t) : Keeps false s (cwCtrlWrite t v) := h.set.cwFollow.migLinkCheck

theorem Keeps.lCfgWrite {l v : Nat} (h : Keeps false s t) : Keeps false s (lCfgWrite t l v) := by
  unfold Machine.lCfgWrite
  exact .migLinkCheck (.cwFollow (.ite h.wr.wr.wr.wr.wr h.wr.wr.wr.wr))

theorem Keeps.tt1Read {ini : Init} {l : Nat} (h : Keeps false s t) : Keeps false s (tt1Read t ini l).2 := by
  unfold Machine.tt1Read
  split
  · exact .over h fun _ _ h => h.wr
  · exact h

theorem Runs.execTt1Read {ini : Init} (h : Keeps false s t) : Runs s (execTt1Read ini t) := by
  unfold Machine.execTt1Read
  refine .ite ?_ (.go h)
  split
  · exact .go h.tt1Read.seen
  · exact .go h.seen

theorem Keeps.revtSend {ini : Init} {v : Nat} (h : Keeps false s t) : Keeps false s (revtSend t ini v) := h.cwSend

theorem Runs.execRevtSend {ini : Init} {v : Word} (h : Keeps false s t) : Runs s (execRevtSend ini v t) := by
  unfold Machine.execRevtSend
  exact .ite (.go h.revtSend) (.go h)

theorem Keeps.mbsGo (h : Keeps false s t) : Keeps false s (mbsGo t) := by
  unfold Machine.mbsGo
  exact .ite h.set (.ite (.ite h.cwSendLocal.set h.cwUnreach) h.set.cwSend)

theorem Keeps.mbsCmdWrite {v : Nat} (h : Keeps false s t) : Keeps false s (mbsCmdWrite t v) := by
  unfold Machine.mbsCmdWrite
  exact .ite h.set.set.set.mbsGo h.set.set.set

theorem Runs.execMbsSend {ini : Init} {v : Word} (h : Keeps false s t) : Runs s (execMbsSend ini v t) := by
  unfold Machine.execMbsSend
  exact .ite (.go h.mbsCmdWrite) (.go h)

theorem Keeps.fencecmdWrite {v : Nat} (h : Keeps false s t) : Keeps false s (fencecmdWrite t v) := by
  unfold Machine.fencecmdWrite
  exact .ite h.set.set.cwSend h.set

theorem Runs.execFencecmd {ini : Init} {v : Word} (h : Keeps false s t) : Runs s (execFencecmd ini v t) := by
  unfold Machine.execFencecmd
  exact .ite (.go h.fencecmdWrite) (.go h)

theorem Runs.execEpochWrite {ini : Init} {v : Word} (h : Keeps false s t) : Runs s (execEpochWrite ini v t) := by
  unfold Machine.execEpochWrite
  exact .ite (.go h.set) (.go h)

theorem Keeps.raCmdWrite {v : Nat} (h : Keeps false s t) : Keeps false s (raCmdWrite t v) := by
  unfold Machine.raCmdWrite
  exact .ite h.set.set.set.set.cwSend h.set.set

theorem Runs.execRaCmd {ini : Init} {v : Word} (h : Keeps false s t) : Runs s (execRaCmd ini v t) := by
  unfold Machine.execRaCmd
  exact .ite (.go h.raCmdWrite) (.go h)

theorem Keeps.raEnd {result : Nat} (h : Keeps false s t) : Keeps false s (raEnd t result) := h.set.set

theorem Runs.execRaTimeout (h : Keeps false s t) : Runs s (execRaTimeout t) := by
  unfold Machine.execRaTimeout
  exact .ite (.go h.raEnd) (.go h)

theorem Keeps.rrspRx {p : List Byte} (h : Keeps false s t) : Keeps false s (rrspRx t p) := by
  unfold Machine.rrspRx
  exact .ite (.raEnd (.ite h.set h)) h

theorem Runs.execBootRequestSend (h : Keeps false s t) : Runs s (execBootRequestSend t) := by
  unfold Machine.execBootRequestSend
  exact .ite (.go h.cwSendLocal) (.go h)

theorem Keeps.bootTake {p : List Byte} (h : Keeps false s t) : Keeps false s (bootTake t p) := by
  unfold Machine.bootTake
  split
  · exact .ite h.writeBytes h
  · exact h.set
  · exact h

/-! ## DMA and DRAM control -/

theorem Keeps.dmaGo {ini : Init} {n : Nat} (h : Keeps false s t) : Keeps false s (dmaGo t ini n) := by
  unfold Machine.dmaGo
  exact .ite h (.andThen (fun h => .ite h.wr.dmaEnd (.ite h.wr.dmaEnd h.wr)) h.wr.wr.wr.wr.wr.wr.wr.wr.wr)

theorem Keeps.dmaAbort {n : Nat} (h : Keeps false s t) : Keeps false s (dmaAbort t n) := by
  unfold Machine.dmaAbort
  exact .ite h.dmaEnd h

theorem Keeps.dmaCtlWrite {ini : Init} {n v : Nat} (h : Keeps false s t) : Keeps false s (dmaCtlWrite t ini n v) := by
  unfold Machine.dmaCtlWrite
  exact .ite (.ite h.wr.wr.wr.wr.dmaAbort h.wr.wr.wr.wr) (.ite h.wr.wr.wr.wr.dmaGo h.wr.wr.wr.wr)

theorem Runs.execDmaGo {ini : Init} {ch : Fin 32} {v : Word} (h : Keeps false s t) : Runs s (execDmaGo ini ch v t) := by
  unfold Machine.execDmaGo
  exact .ite (.go h.dmaCtlWrite) (.go h)

theorem Runs.execDmaAbort {ini : Init} {ch : Fin 32} (h : Keeps false s t) : Runs s (execDmaAbort ini ch t) := by
  unfold Machine.execDmaAbort
  exact .ite (.go h.dmaAbort) (.go h)

theorem Keeps.dmaWait {n cid v : Nat} (h : Keeps false s t) : Keeps false s (dmaWait t n cid v) :=
  (h.wr.wr.bump rfl rfl).faultPage

theorem Runs.execDmaResume {ch : Fin 32} (h : Keeps false s t) : Runs s (execDmaResume ch t) := by
  unfold Machine.execDmaResume
  exact .ite (.go h.wr.wr) (.go h)

theorem Keeps.dmcCtrlWrite {v : Nat} (h : Keeps false s t) : Keeps false s (dmcCtrlWrite t v) := by
  unfold Machine.dmcCtrlWrite
  exact .andThen (fun h => .ite (.andThen (fun h => .ite h h.loseMem) h.set.set.set.set.set.set.set) h) (.ite
    h.set.set.set h.set.set)

theorem Runs.execDmcInit {ini : Init} (h : Keeps false s t) : Runs s (execDmcInit ini t) := by
  unfold Machine.execDmcInit
  exact .ite (.go h.dmcCtrlWrite) (.go h)

theorem Runs.execDmcTrainDone {ok : Bool} {step : BitVec 4} (h : Keeps false s t) : Runs s (execDmcTrainDone ok step t) := by
  unfold Machine.execDmcTrainDone
  exact .ite (.ite (.go h.set.set.set.set) (.go h.set.set.set.set.set)) (.go h)

/-! ## The host interface -/

theorem Keeps.sendMsi {vector : Nat} (h : Keeps false s t) : Keeps false s (sendMsi t vector) := h.wr

theorem Keeps.dbSet {h2s s2h : Bool} (h : Keeps false s t) : Keeps false s (dbSet t h2s s2h) := by
  unfold Machine.dbSet
  exact .ite (.sendMsi (.set (.ite h.set h))) (.ite h.set h)

theorem Keeps.dbClr {h2s s2h : Bool} (h : Keeps false s t) : Keeps false s (dbClr t h2s s2h) := by
  unfold Machine.dbClr
  exact .ite (.set (.ite h.set h)) (.ite h.set h)

theorem Runs.execDbsetH2s {ini : Init} (h : Keeps false s t) : Runs s (execDbsetH2s ini t) := by
  unfold Machine.execDbsetH2s
  exact .ite (.go h.dbSet) (.go h)

theorem Runs.execDbsetS2h {ini : Init} (h : Keeps false s t) : Runs s (execDbsetS2h ini t) := by
  unfold Machine.execDbsetS2h
  exact .ite (.go h.dbSet) (.go h)

theorem Runs.execDbclrH2s {ini : Init} (h : Keeps false s t) : Runs s (execDbclrH2s ini t) := by
  unfold Machine.execDbclrH2s
  exact .ite (.go h.dbClr) (.go h)

theorem Runs.execDbclrS2h {ini : Init} (h : Keeps false s t) : Runs s (execDbclrS2h ini t) := by
  unfold Machine.execDbclrS2h
  exact .ite (.go h.dbClr) (.go h)

theorem Keeps.linkDown (h : Keeps false s t) : Keeps false s (linkDown t) := h.set.set.set

theorem Keeps.resetSelects {copy : Nat} (h : Keeps false s t) : Keeps false s (resetSelects t copy) := by
  unfold Machine.resetSelects
  exact .foldl (.over h fun _ _ h => h.wr) fun _ _ h => h.wr

theorem Runs.execPerstAssert (h : Keeps false s t) : Runs s (execPerstAssert t) := by
  unfold Machine.execPerstAssert
  exact .ite (.go h.set.linkDown.set.resetSelects.set) (.go h.set)

theorem Runs.execPcieLinkChange {up : Bool} {width : BitVec 2} {speed : BitVec 4} (h : Keeps false s t) : Runs s
    (execPcieLinkChange up width speed t) := by
  unfold Machine.execPcieLinkChange
  exact .ite (.ite (.go h.set.set.set.set) (.go h.linkDown)) (.go h)

theorem Keeps.devnumWrite {v : Nat} (h : Keeps false s t) : Keeps false s (devnumWrite t v) := by
  unfold Machine.devnumWrite
  exact .ite h h.set.set

theorem Runs.execDevnumWrite {ini : Init} {v : Word} (h : Keeps false s t) : Runs s (execDevnumWrite ini v t) := by
  unfold Machine.execDevnumWrite
  exact .ite (.go h.devnumWrite) (.go h)

/-! ## Milestones and the debug port -/

theorem Runs.execMlsTrigger {sources : BitVec 5} (h : Keeps false s t) : Runs s (execMlsTrigger sources t) := by
  unfold Machine.execMlsTrigger
  exact .ite (.go h.mlsTrig) (.go h)

theorem Runs.execMlinEdge {rising : Bool} (h : Keeps false s t) : Runs s (execMlinEdge rising t) := by
  unfold Machine.execMlinEdge
  exact .ite (.go h.mlsTrig) (.go h)

theorem Keeps.mlsTrigWrite {v : Nat} (h : Keeps false s t) : Keeps false s (mlsTrigWrite t v) := by
  unfold Machine.mlsTrigWrite
  exact .ite h.mlsTrig h

theorem Runs.execMlsTrig {ini : Init} {v : Word} (h : Keeps false s t) : Runs s (execMlsTrig ini v t) := by
  unfold Machine.execMlsTrig
  exact .ite (.go h.mlsTrigWrite) (.go h)

theorem Keeps.mlsArmWrite {v : Nat} (h : Keeps false s t) : Keeps false s (mlsArmWrite t v) := by
  unfold Machine.mlsArmWrite
  exact .ite h.set.set.set h

theorem Runs.execMlsArm {ini : Init} {v : Word} (h : Keeps false s t) : Runs s (execMlsArm ini v t) := by
  unfold Machine.execMlsArm
  exact .ite (.go h.mlsArmWrite) (.go h)

theorem Runs.execTraceHold (h : Keeps false s t) : Runs s (execTraceHold t) := by
  unfold Machine.execTraceHold
  exact .ite (.go h.set.set) (.go h)

theorem Runs.execMloutPulseEnd (h : Keeps false s t) : Runs s (execMloutPulseEnd t) := by
  unfold Machine.execMloutPulseEnd
  exact .go h.set

theorem Keeps.mlstoneReceive {dev seq : Nat} (h : Keeps false s t) : Keeps false s (mlstoneReceive t dev seq) := by
  unfold Machine.mlstoneReceive
  exact .ite h.set.set.set.set.mlsTrig h

theorem Runs.execMlstoneRx {dev : BitVec 11} {seq : BitVec 16} (h : Keeps false s t) : Runs s (execMlstoneRx dev seq t) := by
  unfold Machine.execMlstoneRx
  exact .ite (.go h.mlstoneReceive) (.go h)

theorem Runs.execTapReset (h : Keeps false s t) : Runs s (execTapReset t) := by
  unfold Machine.execTapReset
  exact .go h.set

theorem Runs.execTapInstructionLoad {ir : BitVec 8} (h : Keeps false s t) : Runs s (execTapInstructionLoad ir t) := by
  unfold Machine.execTapInstructionLoad
  exact .ite (.go h.set.fatalError) (.go h.set)

theorem Runs.execDbgchal (h : Keeps false s t) : Runs s (execDbgchal t) := by
  unfold Machine.execDbgchal
  exact .ite (.go h.draw.set.set) (.go h)

theorem Runs.execDbgresp {slot : BitVec 2} {key sig : List Byte} (h : Keeps false s t) : Runs s (execDbgresp slot key sig t) := by
  unfold Machine.execDbgresp
  exact .ite (.go (.ite h.set.set h.set.set)) (.go h)

theorem Keeps.haltNow {c : Nat} (h : Keeps false s t) : Keeps false s (haltNow t c) := by
  unfold Machine.haltNow
  exact .ite h.wr.withLists.setHalted h

theorem Keeps.resumeCore {c : Nat} (h : Keeps false s t) : Keeps false s (resumeCore t c) := by
  unfold Machine.resumeCore
  exact .ite h.setHalted.stopCancelled h.setHalted

theorem Keeps.haltFollow {c : Nat} (h : Keeps false s t) : Keeps false s (haltFollow t c) := by
  unfold Machine.haltFollow
  exact .ite (.ite h h.haltNow) (.ite h.resumeCore h)

theorem Keeps.haltWrite {ini : Init} {which v : Nat} (h : Keeps false s t) : Keeps false s (haltWrite t ini which v) := by
  unfold Machine.haltWrite
  refine .ite ?_ h
  split <;> exact .over h.set fun _ _ h => h.haltFollow

theorem Runs.execDbgHalt {ini : Init} {svc hi : Bool} {v : Word} (h : Keeps false s t) : Runs s (execDbgHalt ini svc hi v t) := by
  unfold Machine.execDbgHalt
  exact .ite (.go h.haltWrite) (.go h)

theorem Keeps.stepWrite {ini : Init} {v : Nat} (h : Keeps false s t) : Keeps false s (stepWrite t ini v) := by
  unfold Machine.stepWrite
  refine .ite ?_ h
  split
  · exact .ite h.set.set.set h.set.set
  · exact h.set.set

theorem Runs.execDbgStep {ini : Init} {v : Word} (h : Keeps false s t) : Runs s (execDbgStep ini v t) := by
  unfold Machine.execDbgStep
  exact .ite (.go h.stepWrite) (.go h)

theorem Keeps.debugRegWrite {c off v : Nat} (h : Keeps false s t) : Keeps false s (debugRegWrite t c off v) := by
  unfold Machine.debugRegWrite
  split
  · exact h.wr
  · exact .ite h h.recordWrite

theorem Keeps.regdataRead (h : Keeps false s t) : Keeps false s (regdataRead t).2 := by
  unfold Machine.regdataRead
  split
  · exact .iteSnd h h.draw
  · exact h.draw

theorem Keeps.regdataWrite {ini : Init} {v : Nat} (h : Keeps false s t) : Keeps false s (regdataWrite t ini v) := by
  unfold Machine.regdataWrite
  refine .ite ?_ h
  split
  · exact .ite h.debugRegWrite h
  · exact h

theorem Runs.execDbgRegdataWrite {ini : Init} {v : Word} (h : Keeps false s t) : Runs s (execDbgRegdataWrite ini v t) := by
  unfold Machine.execDbgRegdataWrite
  exact .ite (.go h.regdataWrite) (.go h)

/-! ## Register tables -/

theorem Keeps.selectWrite {ini : Init} {sel : Fld × Fld × Nat} {v : Nat} (h : Keeps false s t) : Keeps false s (selectWrite t ini
    sel v) := by
  unfold Machine.selectWrite
  split
  · exact h
  · exact h.wr.wr

theorem Keeps.fieldWrite {i : Nat} {f : RegFld} {x3 : Nat} (h : Keeps false s t) : Keeps false s (fieldWrite t i f x3) := by
  unfold Machine.fieldWrite
  split
  · exact .ite h h.wr
  · exact .ite h h.wr
  · exact h.wr
  · exact h.wr
  · exact .ite h.wr h
  · exact h
  · exact h
  · exact h

theorem Keeps.regStore {r : Reg} {i v : Nat} (h : Keeps false s t) : Keeps false s (regStore t r i v) := by
  unfold Machine.regStore
  exact .over h fun _ _ h => h.fieldWrite

theorem Keeps.tableWrite {ini : Init} {blk off v : Nat} (h : Keeps false s t) : Keeps false s (tableWrite t ini blk off v) := by
  unfold Machine.tableWrite
  split
  · exact h
  · split
    · exact h
    · exact h.regStore

/-! ## Interrupts -/

theorem Keeps.sicClaim {n : Nat} (h : Keeps false s t) : Keeps false s (sicClaim t n).2 := by
  unfold Machine.sicClaim
  split
  · exact h
  · exact h.wr.wr

theorem Keeps.sicComplete {n v : Nat} (h : Keeps false s t) : Keeps false s (sicComplete t n v) := by
  unfold Machine.sicComplete
  exact .ite h.wr.wr h

theorem Runs.execSicClaim {ini : Init} {n : Fin 4} (h : Keeps false s t) : Runs s (execSicClaim ini n t) := by
  unfold Machine.execSicClaim
  exact .ite (.go h.sicClaim.seen) (.go h)

theorem Runs.execSicComplete {ini : Init} {n : Fin 4} {v : Word} (h : Keeps false s t) : Runs s (execSicComplete ini n v t) := by
  unfold Machine.execSicComplete
  exact .ite (.go h.sicComplete) (.go h)

/-! ## The register space -/

theorem Keeps.chwWindowRead {ini : Init} {off : Nat} (h : Keeps false s t) : Keeps false s (chwWindowRead t ini off).2 := by
  unfold Machine.chwWindowRead
  split
  · exact h.chwRead
  · exact h

theorem Keeps.gpioIn (h : Keeps false s t) : Keeps false s (gpioIn t).2 := h.draw

theorem Keeps.regRead {ini : Init} {blk off : Nat} (h : Keeps false s t) : Keeps false s (regRead t ini blk off).2 := by
  unfold Machine.regRead
  split
  · exact .iteSnd h.gpioIn h
  · exact .iteSnd h.nwcntLoRead h
  · exact .onElemSnd (fun _ => h.traceRead) h
  · exact .iteSnd (.onElemSnd (fun _ => h.tbNsRead) h) h
  · exact .iteSnd (.onElemSnd (fun _ => h.tt1Read) h) h
  · exact .iteSnd h.regdataRead h
  · exact .iteSnd h.chwWindowRead h
  · exact .onElemSnd (fun _ => h.sicClaim) h
  · exact h

theorem Keeps.writePmu {ini : Init} {off v : Nat} (h : Keeps false s t) : Keeps false s (writePmu t ini off v) := by
  unfold Machine.writePmu
  split
  · exact h.pmuModeWrite
  · exact h.cstbankWrite
  · exact h.avsstatWrite
  · exact h.pmbcmdWrite
  · exact h.thermcfgWrite
  · exact h.tableWrite

theorem Keeps.writeFus {ini : Init} {off v : Nat} (h : Keeps false s t) : Keeps false s (writeFus t ini off v) := by
  unfold Machine.writeFus
  exact .ite h.fusProgWrite (.onElem (fun _ => h.protectionWrite) h.tableWrite)

theorem Keeps.writeTsu {ini : Init} {off v : Nat} (h : Keeps false s t) : Keeps false s (writeTsu t ini off v) := by
  unfold Machine.writeTsu
  refine .ite h.tsuWinWrite ?_
  split
  · exact h.coreenWrite
  · exact h.coreenWrite
  · exact h.signalWrite
  · exact .ite h.traceClear h
  · exact .onElem (fun _ => h.lvlcfgWrite) h.tableWrite

theorem Keeps.writeCpg {ini : Init} {off v : Nat} (h : Keeps false s t) : Keeps false s (writeCpg t ini off v) := by
  unfold Machine.writeCpg
  exact .ite h h.tableWrite

theorem Keeps.writeQue {ini : Init} {off v : Nat} (h : Keeps false s t) : Keeps false s (writeQue t ini off v) := by
  unfold Machine.writeQue
  exact .ite (.doSel h fun _ => h.queueCmd) (.onElem (fun _ => h.queueCmd) h)

theorem Keeps.writePs {ini : Init} {off v : Nat} (h : Keeps false s t) : Keeps false s (writePs t ini off v) := by
  unfold Machine.writePs
  split
  · exact h.psCfgWrite
  · exact h.psPair
  · exact h.psStatWrite
  · exact h.tableWrite

theorem Keeps.writeTmu {ini : Init} {off v : Nat} (h : Keeps false s t) : Keeps false s (writeTmu t ini off v) := by
  unfold Machine.writeTmu
  refine .ite (.onElem (fun _ => h.wpWrite) h) (.ite h.writePs ?_)
  split
  · exact .doSel h fun _ => h.incrLoWrite
  · exact .doSel h fun _ => h.incrHiWrite
  · exact .doSel h fun _ => h.tbCfgWrite
  · exact .doSel h fun _ => h.tbCmdWrite
  · exact h.capallWrite
  · exact .onElem (fun _ => h.ioCfgWrite) h.tableWrite

theorem Keeps.writePke {ini : Init} {off v : Nat} (h : Keeps false s t) : Keeps false s (writePke t ini off v) := by
  unfold Machine.writePke
  split
  · exact .doSel h fun _ => h.portCfgWrite
  · exact h.cellRegionWrite
  · exact h.cellRegionWrite
  · exact h.freeCell
  · exact h.clsCmdWrite
  · exact h.ksCmdWrite
  · exact h.egpostWrite
  · exact h.strmselWrite
  · exact .onElem (fun _ => h.cellcfgWrite) (.onElem (fun _ => h.wr) h.tableWrite)

theorem Keeps.writeTdx {ini : Init} {off v : Nat} (h : Keeps false s t) : Keeps false s (writeTdx t ini off v) := by
  unfold Machine.writeTdx
  split
  · exact h.tdxCtrlWrite
  · exact h.swapcmdWrite
  · exact .onElem (fun _ => h.tdxMapWrite) h.tableWrite

theorem Keeps.writeCwy {ini : Init} {off v : Nat} (h : Keeps false s t) : Keeps false s (writeCwy t ini off v) := by
  unfold Machine.writeCwy
  split
  · exact .doSel h fun _ => h.lCfgWrite
  · exact h.cwCtrlWrite
  · exact h.wr
  · exact h.revtSend
  · exact h.mbsCmdWrite
  · exact h.raCmdWrite
  · exact h.fencecmdWrite
  · exact .onElem (fun _ => h.mCtlWrite) h.tableWrite

theorem Keeps.writeSlice {ini : Init} {off v : Nat} (h : Keeps false s t) : Keeps false s (writeSlice t ini off v) := by
  unfold Machine.writeSlice
  split
  · exact h.slcCfgWrite
  · exact h.muxWrite
  · exact h.slcDemWrite
  · exact h.tableWrite

theorem Keeps.writeHmn {ini : Init} {off v : Nat} (h : Keeps false s t) : Keeps false s (writeHmn t ini off v) := by
  unfold Machine.writeHmn
  exact .hmnModes (.ite h.hmnModes.writeSlice (.ite (.doSel h.hmnModes fun _ => h.hmnModes.snsCfgWrite) (.ite (.doSel
    h.hmnModes fun _ => h.hmnModes.tableWrite.thrRestart) (.ite h.hmnModes.hmSync (.onElem (fun _ =>
    h.hmnModes.excWrite) h.hmnModes.tableWrite)))))

theorem Keeps.writeMls {ini : Init} {off v : Nat} (h : Keeps false s t) : Keeps false s (writeMls t ini off v) := by
  unfold Machine.writeMls
  split
  · exact h.mlsTrigWrite
  · exact h.mlsArmWrite
  · exact h.haltWrite
  · exact h.haltWrite
  · exact h.haltWrite
  · exact h.stepWrite
  · exact h.regdataWrite
  · exact .ite h h.tableWrite

theorem Keeps.writeDmaArray {ini : Init} {off v : Nat} (h : Keeps false s t) : Keeps false s (writeDmaArray t ini off v) := by
  unfold Machine.writeDmaArray
  exact .onElem (fun _ => h.dmaCtlWrite) h.tableWrite

theorem Keeps.writeDma {ini : Init} {off v : Nat} (h : Keeps false s t) : Keeps false s (writeDma t ini off v) := by
  unfold Machine.writeDma
  exact .ite (.doSel h fun _ => h.writeDmaArray) h.writeDmaArray

theorem Keeps.writeChw {ini : Init} {off v : Nat} (h : Keeps false s t) : Keeps false s (writeChw t ini off v) := by
  unfold Machine.writeChw
  exact .ite h.chwCommand (.onElem (fun _ => .doSel h fun _ => h.ctlWrite) h.tableWrite)

theorem Keeps.regWrite {ini : Init} {blk off v : Nat} (h : Keeps false s t) : Keeps false s (regWrite t ini blk off v) := by
  unfold Machine.regWrite
  split
  · exact h.selectWrite
  · split
    · exact .ite h.devnumWrite h.tableWrite
    · exact h.writePmu
    · exact h.writeFus
    · exact h.writeTsu
    · exact h.writeCpg
    · exact h.writeQue
    · exact .ite h.selectWrite h.writeTmu
    · exact h.writePke
    · exact h.writeTdx
    · exact h.writeCwy
    · exact h.writeHmn
    · exact h.writeMls
    · exact h.writeDma
    · exact .ite h.dbSet (.ite h.dbClr (.ite h.tableWrite.perstSeen h.tableWrite))
    · exact .ite h.dmcCtrlWrite h.tableWrite
    · exact h.writeChw
    · exact .onElem (fun _ => h.sicComplete) h.tableWrite
    · exact .ite h.cluWakeWrite h.tableWrite
    · exact h.tableWrite

theorem Keeps.spaceRead {ini : Init} {blk off size : Nat} (h : Keeps false s t) : Keeps false s (spaceRead t ini blk off size).2 := by
  unfold Machine.spaceRead
  exact .iteSnd h.svcFullClock.regRead h.svcFullClock

theorem Keeps.spaceWrite {ini : Init} {blk off size v : Nat} (h : Keeps false s t) : Keeps false s (spaceWrite t ini blk off size
    v) := by
  unfold Machine.spaceWrite
  exact .ite h.svcFullClock.regWrite h.svcFullClock

theorem Runs.execRegisterWrite {ini : Init} {blk : Fin 18} {off : BitVec 20} {size : Nat} {v : BitVec 64} (h : Keeps false s
    t) : Runs s (execRegisterWrite ini blk off size v t) := by
  unfold Machine.execRegisterWrite
  exact .ite (.go h.spaceWrite) (.go h)

theorem Runs.execSelectWrite {ini : Init} {blk : Fin 18} {wp : Bool} {v : Word} (h : Keeps false s t) : Runs s
    (execSelectWrite ini blk wp v t) := by
  unfold Machine.execSelectWrite
  exact .ite (.go h.regWrite) (.go h)

theorem Runs.execCounterClear {ini : Init} {blk : Fin 18} {off : BitVec 20} {v : Word} (h : Keeps false s t) : Runs s
    (execCounterClear ini blk off v t) := by
  unfold Machine.execCounterClear
  exact .ite (.go h.regWrite) (.go h)

/-! ## The physical address space -/

theorem Keeps.endingRecord {ini : Init} {a : Nat} {write : Bool} {x4 : Ending} (h : Keeps false s t) : Keeps false s (endingRecord
    t ini a write x4) := by
  unfold Machine.endingRecord
  split
  · exact h
  · exact h.recordErr
  · exact h.recordErr

theorem Keeps.cstReady {a : Nat} (h : Keeps false s t) : Keeps false s (cstReady t a) := by
  unfold Machine.cstReady
  exact .ite h.cstTouch.settlePage h.cstTouch

theorem Keeps.placeRead {ini : Init} {a n : Nat} {x4 : Place} (h : Keeps false s t) : Keeps false s (placeRead t ini a n x4).2 := by
  unfold Machine.placeRead
  split
  · exact .iteSnd h.draw h.cstReady
  · exact h
  · exact h
  · exact h
  · exact h
  · exact .iteSnd h (.iteSnd h.draw h)
  · exact h
  · exact h.spaceRead
  · exact h

theorem Keeps.dropLines {a n : Nat} (h : Keeps false s t) : Keeps false s (dropLines t a n) := by
  unfold Machine.dropLines
  exact .over h fun _ _ h => h.withLists

theorem Keeps.cstWrite {ini : Init} {a : Nat} {b : List Byte} (h : Keeps false s t) : Keeps false s (cstWrite t ini a b) := by
  unfold Machine.cstWrite
  exact .ite h (.ite h.cstReady.physWrite.cstWritten h.cstReady.physWrite)

theorem Keeps.placeWrite {ini : Init} {a : Nat} {b : List Byte} {x4 : Place} (h : Keeps false s t) : Keeps false s (placeWrite t
    ini a b x4) := by
  unfold Machine.placeWrite
  split
  · exact h.cstWrite
  · exact h.physWrite
  · exact h.physWrite
  · exact h.physWrite
  · exact h.physWrite.dropLines
  · exact .ite h.physWrite h
  · exact .ite h.physWrite h
  · exact h.spaceWrite
  · exact h

theorem Keeps.busRead {ini : Init} {a n : Nat} (h : Keeps false s t) : Keeps false s (busRead t ini a n).2.2 := by
  unfold Machine.busRead
  split
  · exact h.placeRead
  · exact h.endingRecord

theorem Keeps.busWrite {ini : Init} {a : Nat} {b : List Byte} (h : Keeps false s t) : Keeps false s (busWrite t ini a b).2 := by
  unfold Machine.busWrite
  split
  · exact h.placeWrite
  · exact h.endingRecord

theorem Keeps.hostAccess {bar2 : Bool} {off : Nat} {write : Bool} {size v : Nat} (h : Keeps false s t) : Keeps false s (hostAccess
    t bar2 off write size v) := by
  unfold Machine.hostAccess
  exact .ite (.ite h.recordErr h.recordErr.seen) (.ite h.busWrite h.busRead.seen)

theorem Runs.execHostAccess {bar2 : Bool} {off : BitVec 25} {write : Bool} {size : Nat} {v : BitVec 64} (h : Keeps false s
    t) : Runs s (execHostAccess bar2 off write size v t) := by
  unfold Machine.execHostAccess
  exact .ite (.go h.hostAccess) (.go h)

theorem Runs.execDbgacc {op : BitVec 2} {addr : PAddr} {v : Word} (h : Keeps false s t) : Runs s (execDbgacc op addr v t) := by
  unfold Machine.execDbgacc
  exact .ite (.go h) (.ite (.go h.set) (.ite (.go h.busWrite.set) (.ite (.go h.busRead.set.set.seen) (.go h))))

/-! ## Received Causeway frames -/

theorem Keeps.linkTake {l : Nat} {f : CwFrame} (h : Keeps false s t) : Keeps false s (linkTake t l f) := h.wr.wr.wr.wr.cwHello

theorem Keeps.timeLatch {l : Nat} {p : List Byte} (h : Keeps false s t) : Keeps false s (timeLatch t l p) := h.wr.wr.wr.wr.wr.wr

theorem Keeps.timeTake {l sub : Nat} {p : List Byte} (h : Keeps false s t) : Keeps false s (timeTake t l sub p) := by
  unfold Machine.timeTake
  exact .wr (.wr (.wr (.wr (.wr (.wr (.wr (.ite h.timeLatch h)))))))

theorem Keeps.mboxTake {src epoch : Nat} {msg : List Byte} (h : Keeps false s t) : Keeps false s (mboxTake t src epoch msg) := by
  unfold Machine.mboxTake
  dsimp only
  split
  · exact h.cwCnt
  · exact h.physWrite.set.set

theorem Keeps.raccTake {src : Nat} {p : List Byte} (h : Keeps false s t) : Keeps false s (raccTake t src p) := by
  unfold Machine.raccTake
  exact .ite h.busWrite.cwSend h.busRead.cwSend

theorem Keeps.fenceTake (h : Keeps false s t) : Keeps false s (fenceTake t) := by
  unfold Machine.fenceTake
  exact .ite h.enterFenced h.cwCnt

theorem Keeps.pktfwdTake {p : List Byte} (h : Keeps false s t) : Keeps false s (pktfwdTake t p) := by
  unfold Machine.pktfwdTake
  dsimp only
  split
  · exact h
  · exact (h.takeCells ‹_›).draw.storeCells.classify

theorem Keeps.bridgeSlot {b : Nat} {wb : Bool} {slot : List Byte} (h : Keeps false s t) : Keeps false s (bridgeSlot t b wb slot) := by
  unfold Machine.bridgeSlot
  refine .ite ?_ h.cwCnt
  split
  · exact h.physWrite
  · exact h.physWrite
  · exact h.cwCnt

theorem Keeps.bridgeTake {p : List Byte} {n : Nat} (h : Keeps false s t) : Keeps false s (bridgeTake t p n) := by
  induction n generalizing t p with
  | zero => exact h
  | succ n ih => exact .ite h (ih h.bridgeSlot)

theorem Keeps.bootFrame {f : CwFrame} (h : Keeps false s t) : Keeps false s (bootFrame t f) := by
  unfold Machine.bootFrame
  exact .ite h.bootTake (.ite h.mboxTake h)

theorem Keeps.cwConsume {l sub : Nat} {f : CwFrame} (h : Keeps false s t) : Keeps false s (cwConsume t l sub f) := by
  unfold Machine.cwConsume
  split
  · exact h.linkTake
  · exact h.timeTake
  · exact h.bridgeTake
  · exact h.migpageRx
  · exact h.migctlRx
  · exact h.pktfwdTake
  · exact h.signalWrite
  · exact h.mboxTake
  · exact h.raccTake
  · exact h.rrspRx
  · exact h.fenceTake
  · exact h.mlstoneReceive
  · exact h.bootFrame
  · exact h

theorem Keeps.cwAdvance {l : Nat} {f : CwFrame} (h : Keeps false s t) : Keeps false s (cwAdvance t l f) := by
  unfold Machine.cwAdvance
  exact .ite h.wr h

theorem Keeps.cwForward {l : Nat} {f : CwFrame} (h : Keeps false s t) : Keeps false s (cwForward t l f) := by
  unfold Machine.cwForward
  exact .ite h.cwAdvance.cwCnt (.ite h.cwAdvance (.ite (.ite h.cwCnt h.cwAdvance) (.ite h h.cwAdvance.cwGive)))

theorem Keeps.cwRouteFrame {l sub : Nat} {f : CwFrame} (h : Keeps false s t) : Keeps false s (cwRouteFrame t l sub f) := by
  unfold Machine.cwRouteFrame
  exact .ite h.cwConsume (.ite h.cwAdvance.cwCnt.set (.ite h.cwAdvance (.ite h.cwAdvance.cwConsume h.cwForward)))

theorem Keeps.cwBad {l : Nat} {crc : Bool} (h : Keeps false s t) : Keeps false s (cwBad t l crc) := by
  unfold Machine.cwBad
  exact .set (.ite h.linkCnt h.cwCnt)

theorem Keeps.cwReceive {l sub : Nat} {b : List Byte} (h : Keeps false s t) : Keeps false s (cwReceive t l sub b) := by
  unfold Machine.cwReceive
  exact .ite h (.ite h.cwBad (.ite h.cwBad (.ite h.cwBad (.ite h.linkCnt.cwCnt (.ite h.linkCnt.cwAck
    h.linkCnt.cwAck.cwRouteFrame)))))

theorem Runs.execCwFrameReceive {l : Fin 14} {b : List Byte} {sub : BitVec 9} (h : Keeps false s t) : Runs s
    (execCwFrameReceive l b sub t) := by
  unfold Machine.execCwFrameReceive
  exact .go h.cwReceive

theorem Keeps.cwReceiveIf {ok : Bool} {l sub : Nat} {b : List Byte} (h : Keeps false s t) : Keeps false s (cwReceiveIf ok t l sub
    b) := by
  unfold Machine.cwReceiveIf
  exact .ite h.cwReceive h

theorem Runs.execLinkRx {l : Fin 14} {b : List Byte} (h : Keeps false s t) : Runs s (execLinkRx l b t) := by
  unfold Machine.execLinkRx
  exact .go h.cwReceiveIf

theorem Runs.execTimeRx {l : Fin 14} {b : List Byte} {sub : BitVec 9} (h : Keeps false s t) : Runs s (execTimeRx l b sub t) := by
  unfold Machine.execTimeRx
  exact .go h.cwReceiveIf

theorem Runs.execEventRx {l : Fin 14} {b : List Byte} (h : Keeps false s t) : Runs s (execEventRx l b t) := by
  unfold Machine.execEventRx
  exact .go h.cwReceiveIf

theorem Runs.execMboxRx {l : Fin 14} {b : List Byte} (h : Keeps false s t) : Runs s (execMboxRx l b t) := by
  unfold Machine.execMboxRx
  exact .go h.cwReceiveIf

theorem Runs.execRaccRx {l : Fin 14} {b : List Byte} (h : Keeps false s t) : Runs s (execRaccRx l b t) := by
  unfold Machine.execRaccRx
  exact .go h.cwReceiveIf

theorem Runs.execRrspRx {l : Fin 14} {b : List Byte} (h : Keeps false s t) : Runs s (execRrspRx l b t) := by
  unfold Machine.execRrspRx
  exact .go h.cwReceiveIf

theorem Runs.execFenceRx {l : Fin 14} {b : List Byte} (h : Keeps false s t) : Runs s (execFenceRx l b t) := by
  unfold Machine.execFenceRx
  exact .go h.cwReceiveIf

theorem Runs.execPktfwdRx {l : Fin 14} {b : List Byte} (h : Keeps false s t) : Runs s (execPktfwdRx l b t) := by
  unfold Machine.execPktfwdRx
  exact .go h.cwReceiveIf

theorem Runs.execBridgeRx {l : Fin 14} {b : List Byte} (h : Keeps false s t) : Runs s (execBridgeRx l b t) := by
  unfold Machine.execBridgeRx
  exact .go h.cwReceiveIf

theorem Runs.execMigpageRx {l : Fin 14} {b : List Byte} (h : Keeps false s t) : Runs s (execMigpageRx l b t) := by
  unfold Machine.execMigpageRx
  exact .go h.cwReceiveIf

theorem Runs.execPcdone {l : Fin 14} {b : List Byte} (h : Keeps false s t) : Runs s (execPcdone l b t) := by
  unfold Machine.execPcdone
  exact .go h.cwReceiveIf

theorem Runs.execArmed {l : Fin 14} {b : List Byte} (h : Keeps false s t) : Runs s (execArmed l b t) := by
  unfold Machine.execArmed
  exact .go h.cwReceiveIf

theorem Runs.execCommit {l : Fin 14} {b : List Byte} (h : Keeps false s t) : Runs s (execCommit l b t) := by
  unfold Machine.execCommit
  exact .go h.cwReceiveIf

theorem Runs.execCommitack {l : Fin 14} {b : List Byte} (h : Keeps false s t) : Runs s (execCommitack l b t) := by
  unfold Machine.execCommitack
  exact .go h.cwReceiveIf

theorem Runs.execMigAbortRx {l : Fin 14} {b : List Byte} (h : Keeps false s t) : Runs s (execMigAbortRx l b t) := by
  unfold Machine.execMigAbortRx
  exact .go h.cwReceiveIf

theorem Runs.execBootRx {l : Fin 14} {b : List Byte} (h : Keeps false s t) : Runs s (execBootRx l b t) := by
  unfold Machine.execBootRx
  exact .go h.cwReceiveIf

theorem Keeps.tunnelTake {p sub : Nat} {b : List Byte} (h : Keeps false s t) : Keeps false s (tunnelTake t p sub b) := by
  unfold Machine.tunnelTake
  split
  · exact h.cwReceive
  · exact h.cwCnt

theorem Runs.execFrameReceive {p : Fin 8} {b : List Byte} {sub : BitVec 9} {symErr backlog ecc : Bool} (h : Keeps false s t)
    : Runs s (execFrameReceive p b sub symErr backlog ecc t) := by
  refine .ite ?_ (.go h)
  split
  · exact .go (.of_fst ‹_› h.admitFrame)
  · next u f hadmit =>
    have hu : Keeps false s u := .of_fst hadmit h.admitFrame
    split
    · exact .go hu.freeCells.tunnelTake
    · exact .go hu.actParsed

/-! ## DMA bursts -/

theorem Keeps.burstRead {n : Fin 32} {a k : Nat} (h : Keeps false s t) : Keeps false s (burstRead t n a k).2 := by
  induction k generalizing t a with
  | zero => exact h
  | succ k ih => exact ih h.placeRead

theorem Keeps.burstWrite {n : Fin 32} {a k : Nat} {b : List Byte} (h : Keeps false s t) : Keeps false s (burstWrite t n a k b) := by
  induction k generalizing t a b with
  | zero => exact h
  | succ k ih => exact ih h.placeWrite

theorem Keeps.sideFails {n : Fin 32} {a : Nat} {write : Bool} {e : Ending} (h : Keeps false s t) : Keeps false s (sideFails t n a
    write e) :=
  h.endingRecord.dmaEnd

theorem Keeps.burstCopy {n : Fin 32} {src dst len : Nat} (h : Keeps false s t) : Keeps false s (burstCopy t n src dst len) := by
  unfold Machine.burstCopy
  exact .andThen (fun h => .ite h.dmaEnd h) h.burstRead.burstWrite.wr

theorem Keeps.dmaBurst {n : Fin 32} (h : Keeps false s t) : Keeps false s (dmaBurst t n) := by
  unfold Machine.dmaBurst
  dsimp only
  split
  · exact h.dmaEnd
  · exact h.dmaWait
  · split
    · split
      · exact h.dmaEnd
      · exact h.dmaWait
      · split
        · exact h.burstCopy
        · exact h.sideFails
    · exact h.sideFails

theorem Runs.execDmaBurst {ch : Fin 32} (h : Keeps false s t) : Runs s (execDmaBurst ch t) := by
  unfold Machine.execDmaBurst
  exact .ite (.go h.dmaBurst) (.go h)

/-! ## Media commands -/

theorem Keeps.setW {i off v : Nat} (h : Keeps false s t) : Keeps false s (setW t i off v) := h.writeLE.markDirty

theorem Keeps.setF {i off hi lo x5 : Nat} (h : Keeps false s t) : Keeps false s (setF t i off hi lo x5) := h.setW

theorem Keeps.stsCount {i off n : Nat} (h : Keeps false s t) : Keeps false s (stsCount t i off n) := by
  unfold Machine.stsCount
  exact .ite h (.ite h.setW.setF h.setW)

theorem Keeps.setChanState {i st : Nat} (h : Keeps false s t) : Keeps false s (setChanState t i st) := h.setF

theorem Keeps.setLvl {i : Nat} {recv : Bool} {k : Nat} {b : Bool} (h : Keeps false s t) : Keeps false s (setLvl t i recv k b) :=
  h.setW

theorem Keeps.setLvlLast {i : Nat} {recv b : Bool} (h : Keeps false s t) : Keeps false s (setLvlLast t i recv b) := h.setW

theorem Keeps.levelRequest {i : Nat} {recv : Bool} (h : Keeps false s t) : Keeps false s (levelRequest t i recv) := by
  unfold Machine.levelRequest
  exact .ite h (.ite h.setLvlLast.setLvl.setLvl (.ite h.setLvlLast.setLvl h.setLvlLast))

theorem Keeps.levelFadeEnd {i : Nat} {recv : Bool} (h : Keeps false s t) : Keeps false s (levelFadeEnd t i recv) := by
  unfold Machine.levelFadeEnd
  exact .ite (.ite (.ite h.setLvl.setLvl.setLvl.setLvl h.setLvl.setLvl.setLvl) h.setLvl.setLvl) h

theorem Keeps.levelHold {i : Nat} {recv : Bool} (h : Keeps false s t) : Keeps false s (levelHold t i recv) := by
  unfold Machine.levelHold
  exact .ite h.levelFadeEnd.levelFadeEnd h.levelFadeEnd

theorem Keeps.levelActivate {i : Nat} {recv : Bool} (h : Keeps false s t) : Keeps false s (levelActivate t i recv) :=
  h.setLvl.setLvl.setLvl.setLvlLast

theorem Keeps.loadShape {i bank : Nat} (h : Keeps false s t) : Keeps false s (loadShape t i bank) := by
  unfold Machine.loadShape
  exact .setW (.ite h.setW.copyMem.markDirty h.setW)

theorem Keeps.shapeLoad {i bank : Nat} (h : Keeps false s t) : Keeps false s (shapeLoad t i bank) := by
  unfold Machine.shapeLoad
  exact .ite (.setF (.over h fun _ _ h => h.loadShape)) (.ite h.loadShape h)

theorem Keeps.ringEvent {i : Nat} {legP : Bool} {code : Nat} (h : Keeps false s t) : Keeps false s (ringEvent t i legP code) :=
  h.setW.setW

theorem Keeps.genStop {i : Nat} (h : Keeps false s t) : Keeps false s (genStop t i) := h.setF.setF

theorem Keeps.genTake {i : Nat} (h : Keeps false s t) : Keeps false s (genTake t i) := by
  unfold Machine.genTake
  exact .ite h (.ite h.setF.genStop h.setF.genStop.setF.setF)

theorem Keeps.toneEvent {i : Nat} {legP received : Bool} {code : Nat} (h : Keeps false s t) : Keeps false s (toneEvent t i legP
    received code) := by
  unfold Machine.toneEvent
  exact .ite (.ite h (.ite h.ringEvent h.ringEvent.setF)) (.ite h.ringEvent h)

theorem Keeps.rxEventEnd {i code : Nat} (h : Keeps false s t) : Keeps false s (rxEventEnd t i code) := by
  unfold Machine.rxEventEnd
  exact .ite h.setF.ringEvent h

theorem Keeps.tableReload {i : Nat} (h : Keeps false s t) : Keeps false s (tableReload t i) := by
  unfold Machine.tableReload
  exact .ite h h.setW.setW.copyMem.copyMem

theorem Keeps.codecForce {i : Nat} {legL : Bool} (h : Keeps false s t) : Keeps false s (codecForce t i legL) :=
  h.setF.setF.setW.setW

theorem Keeps.codecChange {i : Nat} {legL : Bool} (h : Keeps false s t) : Keeps false s (codecChange t i legL) := by
  unfold Machine.codecChange
  exact .ite h.setF (.ite h.codecForce h.setF)

theorem Keeps.faxSwitch {i : Nat} {sig : FaxSig} (h : Keeps false s t) : Keeps false s (faxSwitch t i sig) := by
  unfold Machine.faxSwitch
  exact .ite h (.ite h (.ite (.ite h.setF.stsCount.setF.setF h.setF.stsCount.setF) h.setF.stsCount.ringEvent.genStop))

theorem Keeps.faxReturn {i : Nat} (h : Keeps false s t) : Keeps false s (faxReturn t i) := by
  unfold Machine.faxReturn
  exact .ite h (.ite h.setF.setF.codecForce.ringEvent h.setF.setF.codecForce)

theorem Keeps.setWindow {i k : Nat} {start : Option Nat} (h : Keeps false s t) : Keeps false s (setWindow t i k start) := by
  unfold Machine.setWindow
  split <;> exact h.setF.setF

theorem Keeps.noProbation {i : Nat} {keep : Bool} (h : Keeps false s t) : Keeps false s (noProbation t i keep) := by
  unfold Machine.noProbation
  exact .ite h.setF h.setF.setF

theorem Keeps.ecClear {i : Nat} (h : Keeps false s t) : Keeps false s (ecClear t i) := by
  unfold Machine.ecClear
  exact .andThen (fun h => .ite h (.over h fun _ _ h => h.setWindow)) h.noProbation.setF.setF.setW.setW

theorem Keeps.ecClearSeq {i : Nat} (h : Keeps false s t) : Keeps false s (ecClearSeq t i) := by
  unfold Machine.ecClearSeq
  exact .ite h h.ecClear.setF

theorem Keeps.ecDiverge {i : Nat} (h : Keeps false s t) : Keeps false s (ecDiverge t i) := by
  unfold Machine.ecDiverge
  exact .ite h.ecClear.stsCount h

theorem Keeps.toneDisable {i kind : Nat} {onSin : Bool} (h : Keeps false s t) : Keeps false s (toneDisable t i kind onSin) := by
  unfold Machine.toneDisable
  exact .ite h (.ite h.setF (.ite h.setF.noProbation.setF.stsCount (.ite h.setF h.setF.setF.stsCount)))

theorem Keeps.toneRelease {i : Nat} (h : Keeps false s t) : Keeps false s (toneRelease t i) := h.setF

theorem Keeps.setMark {i : Nat} (h : Keeps false s t) : Keeps false s (setMark t i) := h.setW.setF.setF.setF

theorem Keeps.rewind {i : Nat} (h : Keeps false s t) : Keeps false s (rewind t i).2 := by
  unfold Machine.rewind
  exact .iteSnd h (.iteSnd h (.iteSnd h h.setW.setW))

theorem Keeps.rewindEnd {i n : Nat} {done : Bool} (h : Keeps false s t) : Keeps false s (rewindEnd t i n done) := by
  unfold Machine.rewindEnd
  exact .setW (.over h fun _ _ h => h.copyMem)

theorem Keeps.rewindDone {i : Nat} (h : Keeps false s t) : Keeps false s (rewindDone t i) := by
  unfold Machine.rewindDone
  exact .ite h.rewindEnd h

theorem Keeps.startAudio {i : Nat} (h : Keeps false s t) : Keeps false s (startAudio t i) := by
  unfold Machine.startAudio
  exact .andThen (fun h => .ite h.setF h) h.codecForce.codecForce.setW

theorem Keeps.activate {i w : Nat} (h : Keeps false s t) : Keeps false s (activate t i w).2 := by
  unfold Machine.activate
  exact .iteSnd (.mkSnd h) (.iteSnd (.mkSnd (.ite h.setF h)) (.mkSnd (.setChanState (.over
    h.startAudio.levelActivate.levelActivate fun _ _ h => h.loadShape))))

theorem Keeps.hold {i : Nat} (h : Keeps false s t) : Keeps false s (hold t i).2 := by
  unfold Machine.hold
  exact .iteSnd h h.levelHold.levelHold.noProbation.setChanState

theorem Keeps.resume {i : Nat} (h : Keeps false s t) : Keeps false s (resume t i).2 := by
  unfold Machine.resume
  exact .iteSnd (.mkSnd h) (.iteSnd (.mkSnd (.ite h.setF h)) (.mkSnd h.startAudio.setChanState))

theorem Keeps.stop {i : Nat} (h : Keeps false s t) : Keeps false s (stop t i).2 := by
  unfold Machine.stop
  exact .iteSnd h.setChanState h

theorem Keeps.actCommand {i cmd w : Nat} (h : Keeps false s t) : Keeps false s (actCommand t i cmd w).2 := by
  unfold Machine.actCommand
  split
  · exact h
  · exact h.activate
  · exact h.hold
  · exact h.resume
  · exact h.stop
  · exact h.setMark
  · exact h.rewind
  · exact .over h fun _ _ h => h.setW
  · exact h

theorem Keeps.takeCommand {i w : Nat} (h : Keeps false s t) : Keeps false s (takeCommand t i w) := by
  unfold Machine.takeCommand
  exact .ite h h.setF.setF.actCommand.setF

theorem Runs.takeIf {c cmd w : Nat} (h : Keeps false s t) : Runs s (takeIf t c cmd w) := by
  unfold Machine.takeIf
  exact .onChannel h fun _ _ h => .ite h.takeCommand h

theorem Runs.execActivate {c : Fin 64} {w : Word} (h : Keeps false s t) : Runs s (execActivate c w t) := by
  unfold Machine.execActivate
  exact .takeIf h

theorem Runs.execHold {c : Fin 64} (h : Keeps false s t) : Runs s (execHold c t) := by
  unfold Machine.execHold
  exact .takeIf h

theorem Runs.execResume {c : Fin 64} {w : Word} (h : Keeps false s t) : Runs s (execResume c w t) := by
  unfold Machine.execResume
  exact .takeIf h

theorem Runs.execStop {c : Fin 64} (h : Keeps false s t) : Runs s (execStop c t) := by
  unfold Machine.execStop
  exact .takeIf h

theorem Runs.execMark {c : Fin 64} (h : Keeps false s t) : Runs s (execMark c t) := by
  unfold Machine.execMark
  exact .takeIf h

theorem Runs.execRewind {c : Fin 64} (h : Keeps false s t) : Runs s (execRewind c t) := by
  unfold Machine.execRewind
  exact .takeIf h

theorem Runs.execRewindDone {c : Fin 64} (h : Keeps false s t) : Runs s (execRewindDone c t) := by
  unfold Machine.execRewindDone
  exact .onChannel h fun _ _ h => h.rewindDone

theorem Runs.execClrstats {c : Fin 64} (h : Keeps false s t) : Runs s (execClrstats c t) := by
  unfold Machine.execClrstats
  exact .takeIf h

theorem Keeps.channelStart {i w : Nat} (h : Keeps false s t) : Keeps false s (channelStart t i w) := by
  unfold Machine.channelStart
  exact .ite h.setChanState h

theorem Runs.execChannelStart {c : Fin 64} {w : Word} (h : Keeps false s t) : Runs s (execChannelStart c w t) := by
  unfold Machine.execChannelStart
  exact .onChannel h fun _ _ h => h.channelStart

theorem Runs.execEcClear {c : Fin 64} (h : Keeps false s t) : Runs s (execEcClear c t) := by
  unfold Machine.execEcClear
  exact .onChannel h fun _ _ h => h.ecClearSeq

theorem Runs.execEcDivergence {c : Fin 64} (h : Keeps false s t) : Runs s (execEcDivergence c t) := by
  unfold Machine.execEcDivergence
  exact .onChannel h fun _ _ h => h.ecDiverge

theorem Runs.execToneDisable {c : Fin 64} {kind : Fin 5} {onSin : Bool} (h : Keeps false s t) : Runs s (execToneDisable c
    kind onSin t) := by
  unfold Machine.execToneDisable
  exact .onChannel h fun _ _ h => h.toneDisable

theorem Runs.execToneDisableRelease {c : Fin 64} (h : Keeps false s t) : Runs s (execToneDisableRelease c t) := by
  unfold Machine.execToneDisableRelease
  exact .onChannel h fun _ _ h => h.toneRelease

theorem Runs.execCodecChange {c : Fin 64} (h : Keeps false s t) : Runs s (execCodecChange c t) := by
  unfold Machine.execCodecChange
  exact .onChannel h fun _ _ h => h.codecChange.codecChange

theorem Runs.genIf {c : Nat} {p : State → Nat → Bool} (h : Keeps false s t) : Runs s (genIf t c p) := by
  unfold Machine.genIf
  exact .onChannel h fun _ _ h => .ite h.genTake h

theorem Runs.execGenDtmf {c : Fin 64} (h : Keeps false s t) : Runs s (execGenDtmf c t) := by
  unfold Machine.execGenDtmf
  exact .genIf h

theorem Runs.execGenCallProgress {c : Fin 64} (h : Keeps false s t) : Runs s (execGenCallProgress c t) := by
  unfold Machine.execGenCallProgress
  exact .genIf h

theorem Runs.execGenStop {c : Fin 64} (h : Keeps false s t) : Runs s (execGenStop c t) := by
  unfold Machine.execGenStop
  exact .genIf h

theorem Runs.execGenEvent {c : Fin 64} (h : Keeps false s t) : Runs s (execGenEvent c t) := by
  unfold Machine.execGenEvent
  exact .genIf h

theorem Runs.execGenEnd {c : Fin 64} (h : Keeps false s t) : Runs s (execGenEnd c t) := by
  unfold Machine.execGenEnd
  exact .onChannel h fun _ _ h => h.genStop

theorem Runs.execMediaTableReload {c : Fin 64} (h : Keeps false s t) : Runs s (execMediaTableReload c t) := by
  unfold Machine.execMediaTableReload
  exact .onChannel h fun _ _ h => h.tableReload

theorem Runs.execToneEvent {c : Fin 64} {legP received : Bool} {code : BitVec 8} (h : Keeps false s t) : Runs s
    (execToneEvent c legP received code t) := by
  unfold Machine.execToneEvent
  exact .onChannel h fun _ _ h => h.toneEvent

theorem Runs.execRxEventEnd {c : Fin 64} {code : BitVec 7} (h : Keeps false s t) : Runs s (execRxEventEnd c code t) := by
  unfold Machine.execRxEventEnd
  exact .onChannel h fun _ _ h => h.rxEventEnd

theorem Runs.execFaxSwitchover {c : Fin 64} {sig : FaxSig} (h : Keeps false s t) : Runs s (execFaxSwitchover c sig t) := by
  unfold Machine.execFaxSwitchover
  exact .onChannel h fun _ _ h => h.faxSwitch

theorem Runs.execReturnToVoice {c : Fin 64} (h : Keeps false s t) : Runs s (execReturnToVoice c t) := by
  unfold Machine.execReturnToVoice
  exact .onChannel h fun _ _ h => h.faxReturn

theorem Runs.execLevelBankRequest {c : Fin 64} {recv : Bool} (h : Keeps false s t) : Runs s (execLevelBankRequest c recv t) := by
  unfold Machine.execLevelBankRequest
  exact .onChannel h fun _ _ h => h.levelRequest

theorem Runs.execLevelFadeEnd {c : Fin 64} {recv : Bool} (h : Keeps false s t) : Runs s (execLevelFadeEnd c recv t) := by
  unfold Machine.execLevelFadeEnd
  exact .onChannel h fun _ _ h => h.levelFadeEnd

theorem Runs.execShapeLoad {c : Fin 64} {bank : Fin 4} (h : Keeps false s t) : Runs s (execShapeLoad c bank t) := by
  unfold Machine.execShapeLoad
  exact .onChannel h fun _ _ h => h.shapeLoad

/-! ## Block programs -/

theorem Keeps.movingState {i : Nat} (h : Keeps false s t) : Keeps false s (movingState t i) := by
  unfold Machine.movingState
  exact .ite h.setChanState (.ite h.setChanState h)

theorem Keeps.noWindows {i : Nat} (h : Keeps false s t) : Keeps false s (noWindows t i) := by
  unfold Machine.noWindows
  exact .over h fun _ _ h => h.setWindow

theorem Keeps.placeSpans {i : Nat} {spans : List Nat} (h : Keeps false s t) : Keeps false s (placeSpans t i spans) := by
  unfold Machine.placeSpans
  exact .foldl h.noWindows fun _ _ h => .ite h.setWindow h

theorem Keeps.ecDenseStep {i : Nat} {dense : Bool} {b : EcBlock} (h : Keeps false s t) : Keeps false s (ecDenseStep t i dense b) := by
  unfold Machine.ecDenseStep
  exact .ite h (.ite h.setF.noProbation.noWindows h.setF.noProbation.placeSpans)

theorem Keeps.ecRelease {i : Nat} {b : EcBlock} (h : Keeps false s t) : Keeps false s (ecRelease t i b) := by
  unfold Machine.ecRelease
  exact .over (.over h fun _ _ h => .ite h.setWindow h) fun _ _ h => .ite h.setWindow h

theorem Keeps.ecFix {i : Nat} (h : Keeps false s t) : Keeps false s (ecFix t i) := by
  unfold Machine.ecFix
  exact .foldl h.noWindows fun _ _ h => .ite h.setWindow h

theorem Keeps.ecControls {i : Nat} {b : EcBlock} (h : Keeps false s t) : Keeps false s (ecControls t i b) := by
  unfold Machine.ecControls
  exact .andThen (fun h => .andThen (fun h => .ite h.noProbation h) (.ite h (.ite h.ecFix h.ecRelease))) (.ecDenseStep
    (.ite h h.ecClear.setW))

theorem Keeps.ecDoubleTalk {i : Nat} {b : EcBlock} (h : Keeps false s t) : Keeps false s (ecDoubleTalk t i b) := by
  unfold Machine.ecDoubleTalk
  exact .ite h.setW.setF h.setW.setF.stsCount

theorem Keeps.ecMove {i cand : Nat} (h : Keeps false s t) : Keeps false s (ecMove t i cand) := by
  unfold Machine.ecMove
  dsimp only
  split
  · exact h.setWindow.stsCount
  · exact h

theorem Keeps.ecEvaluate {i : Nat} {b : EcBlock} (h : Keeps false s t) : Keeps false s (ecEvaluate t i b) := by
  unfold Machine.ecEvaluate
  exact .ite (.noProbation (.ite h.ecMove h)) (.ite h.setW.setF h.setW)

theorem Keeps.ecConverge {i : Nat} {b : EcBlock} (h : Keeps false s t) : Keeps false s (ecConverge t i b) := by
  unfold Machine.ecConverge
  exact .ite h.setW.setW.setF h.setW.setW

theorem Keeps.ecLevels {i : Nat} {b : EcBlock} (h : Keeps false s t) : Keeps false s (ecLevels t i b) := by
  unfold Machine.ecLevels
  exact .ite h.setW.setF.setW.setF h.setW.setF.setW.setF.setF

theorem Keeps.ecRun {i n : Nat} {b : EcBlock} (h : Keeps false s t) : Keeps false s (ecRun t i n b) := by
  unfold Machine.ecRun
  exact .andThen (fun h => .andThen (fun h => .setW (.setF (.stsCount (.ecLevels (.ite h.ecEvaluate h))))) (.ite
    h.setW.ecConverge h.setW)) h.ecControls.ecDoubleTalk

theorem Keeps.ecBlock {i : Nat} {k : BlockStep} {b : EcBlock} (h : Keeps false s t) : Keeps false s (ecBlock t i k b) := by
  unfold Machine.ecBlock
  exact .ite (.ecRun (.ite h.setF.setW h.setF)) (.setF (.setF (.ite h.setF.setW h.setF)))

theorem Keeps.jbPass {h' q : Nat} (h : Keeps false s t) : Keeps false s (jbPass t h' q) := by
  unfold Machine.jbPass
  exact .over h fun _ _ h => .ite h.jbClear h

theorem Keeps.jbPlayed {h' q : Nat} (h : Keeps false s t) : Keeps false s (jbPlayed t h' q) := h.jbPut.jbPut.jbPass

theorem Keeps.legPlay {i : Nat} {legL : Bool} {b : LegBlock} (h : Keeps false s t) : Keeps false s (legPlay t i legL b) := by
  unfold Machine.legPlay
  refine .setW (.setW (.ite ?_ (.stsCount (.foldl h fun _ _ h => .ite h.jbPlayed.stsCount h))))
  split
  · exact .stsCount (.jbPlayed (.stsCount (.foldl h fun _ _ h => .ite h.jbPlayed.stsCount h)))
  · exact .stsCount (.foldl h fun _ _ h => .ite h.jbPlayed.stsCount h)

theorem Keeps.legStatus {i : Nat} {legL : Bool} {b : LegBlock} (h : Keeps false s t) : Keeps false s (legStatus t i legL b) :=
  h.setF.setF.setF.setF.setF.stsCount.stsCount.stsCount

theorem Keeps.legEmpty {i : Nat} {legL : Bool} (h : Keeps false s t) : Keeps false s (legEmpty t i legL) := by
  unfold Machine.legEmpty
  exact .jbPut (.over h fun _ _ h => .ite h.jbClear h)

theorem Keeps.legSend {c i w : Nat} {legL : Bool} {k : LegPacket} (h : Keeps false s t) : Keeps false s (legSend t c i w legL k) := by
  unfold Machine.legSend
  exact .andThen (fun h => .andThen (fun h => .ite h.post h.recordErr) (.ite h.physWrite.setW.stsCount
    h.physWrite.setW)) (.physWrite (.ite h.physWrite h))

theorem Keeps.legPackets {c i n w : Nat} {legL : Bool} {b : LegBlock} (h : Keeps false s t) : Keeps false s (legPackets t c i n w
    legL b) := by
  unfold Machine.legPackets
  exact .foldl h.setW fun _ _ h => .ite h h.legSend

theorem Keeps.passMark {i ix : Nat} (h : Keeps false s t) : Keeps false s (passMark t i ix) := by
  unfold Machine.passMark
  exact .ite h (.ite h.setF (.ite h.setF.setF.draw.rewindEnd.setF h.setF.setF))

theorem Keeps.writeRecord {i n w j : Nat} {b : BlockEnd} (h : Keeps false s t) : Keeps false s (writeRecord t i n w j b) :=
  h.passMark.physWrite.setF

theorem Keeps.blockRecords {i n w : Nat} {b : BlockEnd} (h : Keeps false s t) : Keeps false s (blockRecords t i n w b) := by
  unfold Machine.blockRecords
  exact .ite (.over h fun _ _ h => h.writeRecord) h

theorem Keeps.blockOutput {i n : Nat} {samples : List (BitVec 16)} (h : Keeps false s t) : Keeps false s (blockOutput t i n
    samples) := by
  unfold Machine.blockOutput
  exact .ite h h.writeBytes.markDirty.physWrite

theorem Keeps.repeatOutput {i n : Nat} (h : Keeps false s t) : Keeps false s (repeatOutput t i n) := h.physWrite

theorem Keeps.blockControls {i : Nat} (h : Keeps false s t) : Keeps false s (blockControls t i) := by
  unfold Machine.blockControls
  exact .ite h.tableReload.ecClearSeq (.genTake (.levelRequest (.levelRequest (.over
    h.tableReload.ecClearSeq.codecChange.codecChange fun _ _ h => h.shapeLoad))))

theorem Keeps.blockAudio {c i : Nat} {k : BlockStep} {b : BlockEnd} (h : Keeps false s t) : Keeps false s (blockAudio t c i k b) := by
  unfold Machine.blockAudio
  exact .setW (.blockOutput (.blockRecords (.stsCount (.ite (.legPackets (.legStatus (.legPlay (.ite
    h.ecBlock.legPlay.legStatus.legPackets h.ecBlock)))) (.ite h.ecBlock.legPlay.legStatus.legPackets h.ecBlock)))))

theorem Keeps.blockSilence {i : Nat} {k : BlockStep} (h : Keeps false s t) : Keeps false s (blockSilence t i k) := by
  unfold Machine.blockSilence
  exact .andThen (fun h => .blockOutput (.ite h.legEmpty h)) (.ite h.setF.setF.legEmpty h.setF.setF)

theorem Keeps.blockDone {i : Nat} {k : BlockStep} (h : Keeps false s t) : Keeps false s (blockDone t i k) := h.setW.setW.setF.setW

theorem Keeps.mediaBlock {c : Nat} {b : BlockEnd} (h : Keeps false s t) : Keeps false s (mediaBlock t c b) := by
  unfold Machine.mediaBlock
  split
  · exact h
  · exact .andThen (fun h => .blockDone (.ite h.blockControls.setF.setF.repeatOutput (.ite h.blockControls.blockAudio
      h.blockControls.blockSilence))) (.movingState (.channelStart (.takeCommand (.ite h.wr.stsCount h.wr))))

/-! ## Traps and exceptions -/

theorem Keeps.setScr {c k v : Nat} (h : Keeps false s t) : Keeps false s (setScr t c k v) := h.wr

theorem Keeps.svcException {c code ecause eaddr : Nat} (h : Keeps false s t) : Keeps false s (svcException t c code ecause eaddr) :=
  h.landAll.wr.withLists.setScr.setScr.setScr.setScr.setScr.setScr.setScr.wr.wr.wr.wr.wr

theorem Keeps.cancelBundle {c : Nat} (h : Keeps false s t) : Keeps false s (cancelBundle t c) := h.wr.withLists

theorem Keeps.sgcTrap {c code info addr : Nat} {imprecise : Bool} (h : Keeps false s t) : Keeps false s (sgcTrap t c code info
    addr imprecise) := by
  unfold Machine.sgcTrap
  exact .ite h.jobFault h.cancelBundle.trapBank

theorem Keeps.takeCause {c : Nat} {k : Cause} (h : Keeps false s t) : Keeps false s (takeCause t c k) := by
  unfold Machine.takeCause
  exact .ite h.cancelBundle.setHalted (.ite h.svcException h.sgcTrap)

theorem Keeps.takeArith {c : Nat} (h : Keeps false s t) : Keeps false s (takeArith t c) := by
  unfold Machine.takeArith
  exact .ite h.wr.svcException h.wr.sgcTrap

theorem Keeps.resumeAt {b pc ds tgt : Nat} (h : Keeps false s t) : Keeps false s (resumeAt t b pc ds tgt) := h.wr.wr.recordWrite

theorem Keeps.rettAct {c : Nat} (h : Keeps false s t) : Keeps false s (rettAct t c) := h.wr.resumeAt

theorem Keeps.eretAct {c : Nat} (h : Keeps false s t) : Keeps false s (eretAct t c) := h.setScr.resumeAt

theorem Keeps.boundary {c : Nat} (h : Keeps false s t) : Keeps false s (boundary t c) := by
  unfold Machine.boundary
  exact .ite (.haltNow (.ite h.set h)) (.ite (.stopCancelled (.ite h.set h)) (.ite h.set h))

theorem Runs.execArithTrap {c : Fin 68} (h : Keeps false s t) : Runs s (execArithTrap c t) := by
  unfold Machine.execArithTrap
  exact .ite (.go h.takeArith.boundary) (.go h)

/-! ## The supervisor cores’ memory system -/

theorem Keeps.tlbNote {c va : Nat} (h : Keeps false s t) : Keeps false s (tlbNote t c va) := by
  unfold Machine.tlbNote
  refine .ite ?_ h
  split
  · exact h
  · exact .withLists (.iteSnd h h.draw)

theorem Keeps.tlbInvalidate {c op v : Nat} (h : Keeps false s t) : Keeps false s (tlbInvalidate t c op v) := h.withLists

theorem Keeps.setLine {la : Nat} {d : DLine} (h : Keeps false s t) : Keeps false s (setLine t la d) := h.withLists

theorem Keeps.keepLinks {old : State} (h : Keeps false s t) : Keeps false s (keepLinks old t) := by
  unfold Machine.keepLinks
  exact .over h fun _ _ h => h.wr

theorem Keeps.cleanLine {c la : Nat} (h : Keeps false s t) : Keeps false s (cleanLine t c la) := by
  unfold Machine.cleanLine
  split
  · exact .ite h.placeWrite.keepLinks.setLine h
  · exact h

theorem Keeps.dropLine {c la : Nat} (h : Keeps false s t) : Keeps false s (dropLine t c la) := by
  unfold Machine.dropLine
  split
  · exact h.setLine
  · exact h

theorem Keeps.roomForLine {c la : Nat} (h : Keeps false s t) : Keeps false s (roomForLine t c la) := by
  unfold Machine.roomForLine
  exact .ite h h.draw.cleanLine.dropLine

theorem Keeps.fillLine {c la : Nat} (h : Keeps false s t) : Keeps false s (fillLine t c la) := by
  unfold Machine.fillLine
  split
  · exact .ite h h.roomForLine.setLine
  · exact h.cstReady.roomForLine.setLine

theorem Keeps.svcRead {c pa mt n : Nat} (h : Keeps false s t) : Keeps false s (svcRead t c pa mt n).2 := by
  unfold Machine.svcRead
  refine .iteSnd ?_ h.busRead
  dsimp only
  split <;> exact h.fillLine

theorem Keeps.svcWrite {c pa mt n v : Nat} (h : Keeps false s t) : Keeps false s (svcWrite t c pa mt n v) := by
  unfold Machine.svcWrite
  refine .ite ?_ h.busWrite
  dsimp only
  split
  · exact h.fillLine.breakLinks.setLine
  · exact h.fillLine.breakLinks

theorem Keeps.cacheLine {c op va : Nat} (h : Keeps false s t) : Keeps false s (cacheLine t c op va) := by
  unfold Machine.cacheLine
  split
  · exact h
  · split
    · exact h.tlbNote.withLists
    · exact h.tlbNote.cleanLine
    · exact h.tlbNote.dropLine
    · exact h.tlbNote.cleanLine.dropLine

theorem Keeps.cacheAll {c : Nat} {data : Bool} (h : Keeps false s t) : Keeps false s (cacheAll t c data) := by
  unfold Machine.cacheAll
  exact .ite (.over h fun _ _ h => h.cleanLine.dropLine) h.withLists

theorem Keeps.ldlkAct {c va : Nat} (h : Keeps false s t) : Keeps false s (ldlkAct t c va).2 := by
  unfold Machine.ldlkAct
  split
  · exact h
  · exact h.tlbNote.svcRead.wr.wr

theorem Keeps.stcnAct {c va v : Nat} (h : Keeps false s t) : Keeps false s (stcnAct t c va v).2 := by
  unfold Machine.stcnAct
  split
  · exact h.tlbNote.svcWrite.wr
  · exact h.wr

/-! ## Issue -/

theorem Keeps.fetchLine {c a : Nat} (h : Keeps false s t) : Keeps false s (fetchLine t c a) := by
  unfold Machine.fetchLine
  split
  · exact h
  · exact .ite h (.withLists (.ite (.tlbNote (.iteSnd h h.draw)) (.iteSnd h h.draw)))

theorem Keeps.pageFault {c : Nat} {addrs : List Nat} (h : Keeps false s t) : Keeps false s (pageFault t c addrs) := by
  unfold Machine.pageFault
  exact .ite h.cancelBundle.stopCancelled (.ite h.cancelBundle.jobFault ((h.cancelBundle.cpgCount
    rfl).wr.requestSwitch))

theorem Keeps.coreRead {c a n : Nat} (h : Keeps false s t) : Keeps false s (coreRead t c a n).2 := by
  unfold Machine.coreRead
  refine .iteSnd ?_ (.iteSnd h.busRead ?_)
  · split
    · exact h.tlbNote.svcRead
    · exact h
  · split <;> exact h

theorem Keeps.coreWrite {c a n v : Nat} (h : Keeps false s t) : Keeps false s (coreWrite t c a n v) := by
  unfold Machine.coreWrite
  refine .ite ?_ (.ite h.busWrite ?_)
  · split
    · exact h.tlbNote.svcWrite
    · exact h
  · split
    · exact h.writeLE.markDirty
    · exact h

theorem Keeps.queueAct {c : Nat} {write try_ fin : Bool} {q v rw : Nat} (h : Keeps false s t) : Keeps false s (queueAct t c write
    try_ fin q v rw).1 := by
  unfold Machine.queueAct
  exact .iteFst (.iteFst h.queueWrite h) (.iteFst h.queueRead h)

theorem Keeps.touchAct {c a : Nat} (h : Keeps false s t) : Keeps false s (touchAct t c a) := by
  unfold Machine.touchAct
  exact .ite h (.ite h.jobFault h.touchPage)

theorem Keeps.actNow {c : Nat} {x2 : Act} (h : Keeps false s t) : Keeps false s (actNow t c x2).1 := by
  unfold Machine.actNow
  split
  · exact h.signalWrite
  · exact h.queueAct
  · exact h.ldlkAct
  · exact h.stcnAct
  · exact h.cacheLine
  · exact h.cacheAll
  · exact h.tlbInvalidate
  · exact h

theorem Keeps.effNow {c : Nat} {x2 : Eff} (h : Keeps false s t) : Keeps false s (effNow t c x2).1 := by
  unfold Machine.effNow
  split
  · exact h
  · exact h
  · exact h
  · exact h
  · exact h.coreRead
  · exact h.coreWrite
  · exact h.actNow

theorem Keeps.effsNow {c : Nat} {l : List Eff} (h : Keeps false s t) : Keeps false s (effsNow c t l).1 := by
  induction l generalizing t with
  | nil => exact h
  | cons x r ih => exact ih h.effNow

theorem Keeps.landings {b : Nat} {new : List Landing} (h : Keeps false s t) : Keeps false s (landings t b new) := by
  unfold Machine.landings
  exact .withLists (.over h.landDue fun _ _ h => h.land)

theorem Keeps.endLevel {b n : Nat} (h : Keeps false s t) : Keeps false s (endLevel t b n) := h.wr

theorem Keeps.rotate {b n : Nat} (h : Keeps false s t) : Keeps false s (rotate t b n) := by
  unfold Machine.rotate
  exact .ite h.wr h

theorem Keeps.loopEnd {b n : Nat} (h : Keeps false s t) : Keeps false s (loopEnd t b n).1 := by
  unfold Machine.loopEnd
  exact .iteFst (.iteFst h.rotate.wr.wr h.rotate.wr.endLevel) h

theorem Keeps.loopEnds {b next : Nat} (h : Keeps false s t) : Keeps false s (loopEnds t b next) := by
  unfold Machine.loopEnds
  exact .ite (.ite h.loopEnd.loopEnd.wr h.loopEnd.loopEnd) h.loopEnd

theorem Keeps.takeBranch {b : Nat} (h : Keeps false s t) : Keeps false s (takeBranch t b) := by
  unfold Machine.takeBranch
  exact .ite h.wr.wr.wr (.ite h.wr.wr.endLevel h.wr.wr)

theorem Keeps.advance {b n : Nat} {act : Option Act} (h : Keeps false s t) : Keeps false s (advance t b n act) := by
  unfold Machine.advance
  split
  · exact .wr (.wr (.wr (.ite (.ite h.loopEnds.wr.takeBranch h.loopEnds.wr) h.loopEnds)))
  · exact .ite (.ite h.loopEnds.wr.takeBranch h.loopEnds.wr) h.loopEnds

theorem Keeps.loopAct {c pc n : Nat} {rotates : Bool} {count leoff : Nat} (h : Keeps false s t) : Keeps false s (loopAct t c pc n
    rotates count leoff) := by
  unfold Machine.loopAct
  exact .ite h.wr.wr.wr.wr h.wr.wr.wr.wr.wr

theorem Keeps.endAct {c : Nat} {blk : Option BlockEnd} (h : Keeps false s t) : Keeps false s (endAct t c blk) := by
  unfold Machine.endAct
  refine .ite h.stopCancelled (.endJob ?_)
  split
  · exact h.landAll.mediaBlock
  · exact h.landAll

theorem Keeps.actAfter {c pc n : Nat} {x4 : Act} (h : Keeps false s t) : Keeps false s (actAfter t c pc n x4) := by
  unfold Machine.actAfter
  split
  · exact h.loopAct
  · exact h.endAct
  · exact .ite h.stopCancelled h.requestSwitch
  · exact h.rettAct
  · exact h.eretAct
  · exact h.svcException
  · exact h.touchAct
  · exact h

theorem Keeps.arithNote {b : Nat} {effs : List Eff} (h : Keeps false s t) : Keeps false s (arithNote t b effs) := by
  unfold Machine.arithNote
  refine .ite h.wr ?_
  split
  · exact .ite h.wr.wr h
  · exact h

theorem Keeps.arithDue {c : Nat} (h : Keeps false s t) : Keeps false s (arithDue t c) := by
  unfold Machine.arithDue
  exact .ite h.takeArith h

theorem Keeps.issue {c : Nat} {x2 : Bundle} (h : Keeps false s t) : Keeps false s (issue t c x2) := by
  unfold Machine.issue
  refine .arithDue ?_
  split
  · exact h.wr.withLists.effsNow.advance.arithNote.landings.withLists.wr.actAfter
  · exact h.wr.withLists.effsNow.advance.arithNote.landings.withLists.wr

theorem Keeps.closeBundle {c : Nat} {x2 : Bundle} (h : Keeps false s t) : Keeps false s (closeBundle t c x2) := by
  unfold Machine.closeBundle
  split
  · exact h.takeCause.boundary
  · split
    · exact h.pageFault.boundary
    · exact .ite (.ite h.wr.withLists h.wr.withLists.boundary) h.issue.boundary

theorem Keeps.syllable {c : Nat} {e : Bool} {cls : Nat} {part : LPart} {effs : List Eff} {causes : List Cause} (h :
    Keeps false s t) : Keeps false s (syllable t c e cls part effs causes) := by
  unfold Machine.syllable
  exact .ite h (.ite (.closeBundle (.ite h h.fetchLine)) (.withLists (.ite h h.fetchLine)))

theorem Runs.execQueueStallRelease {c : Fin 68} (h : Keeps false s t) : Runs s (execQueueStallRelease c t) := by
  unfold Machine.execQueueStallRelease
  exact .ite (.go h.closeBundle) (.go h)

/-! ## Instructions -/

theorem Runs.sSyl {c : Nat} {e : Bool} {effs : List Eff} {causes : List Cause} (h : Keeps false s t) : Runs s (sSyl t c e
    effs causes) := by
  unfold Machine.sSyl
  exact .go h.syllable

theorem Runs.sr2 {c : Nat} {e sz : Bool} {rd ra rb : Nat} {f : Nat → Nat → Nat → Nat × FlagSet} (h : Keeps false s t) : Runs
    s (sr2 t c e sz rd ra rb f) := by
  unfold Machine.sr2
  exact .sSyl h

theorem Runs.sr1 {c : Nat} {e sz : Bool} {rd ra : Nat} {f : Nat → Nat → Nat × FlagSet} (h : Keeps false s t) : Runs s (sr1 t
    c e sz rd ra f) := by
  unfold Machine.sr1
  exact .sSyl h

theorem Runs.si {c : Nat} {e sz : Bool} {rd ra : Nat} {imm : BitVec 12} {f : Nat → Nat → Nat → Nat × FlagSet} (h :
    Keeps false s t) : Runs s (si t c e sz rd ra imm f) := by
  unfold Machine.si
  exact .sSyl h

theorem Runs.execNop {c : Fin 68} {e inL : Bool} (h : Keeps false s t) : Runs s (execNop c e inL t) := by
  unfold Machine.execNop
  exact .go h.syllable

theorem Runs.execAdd {c : Fin 68} {e sz : Bool} {rd ra rb : BitVec 5} (h : Keeps false s t) : Runs s (execAdd c e sz rd ra
    rb t) := by
  unfold Machine.execAdd
  exact .sr2 h

theorem Runs.execSub {c : Fin 68} {e sz : Bool} {rd ra rb : BitVec 5} (h : Keeps false s t) : Runs s (execSub c e sz rd ra
    rb t) := by
  unfold Machine.execSub
  exact .sr2 h

theorem Runs.execAnd {c : Fin 68} {e sz : Bool} {rd ra rb : BitVec 5} (h : Keeps false s t) : Runs s (execAnd c e sz rd ra
    rb t) := by
  unfold Machine.execAnd
  exact .sr2 h

theorem Runs.execOr {c : Fin 68} {e sz : Bool} {rd ra rb : BitVec 5} (h : Keeps false s t) : Runs s (execOr c e sz rd ra rb
    t) := by
  unfold Machine.execOr
  exact .sr2 h

theorem Runs.execXor {c : Fin 68} {e sz : Bool} {rd ra rb : BitVec 5} (h : Keeps false s t) : Runs s (execXor c e sz rd ra
    rb t) := by
  unfold Machine.execXor
  exact .sr2 h

theorem Runs.execAsr {c : Fin 68} {e sz : Bool} {rd ra rb : BitVec 5} (h : Keeps false s t) : Runs s (execAsr c e sz rd ra
    rb t) := by
  unfold Machine.execAsr
  exact .sr2 h

theorem Runs.execLsr {c : Fin 68} {e sz : Bool} {rd ra rb : BitVec 5} (h : Keeps false s t) : Runs s (execLsr c e sz rd ra
    rb t) := by
  unfold Machine.execLsr
  exact .sr2 h

theorem Runs.execLsl {c : Fin 68} {e sz : Bool} {rd ra rb : BitVec 5} (h : Keeps false s t) : Runs s (execLsl c e sz rd ra
    rb t) := by
  unfold Machine.execLsl
  exact .sr2 h

theorem Runs.execMin {c : Fin 68} {e sz : Bool} {rd ra rb : BitVec 5} (h : Keeps false s t) : Runs s (execMin c e sz rd ra
    rb t) := by
  unfold Machine.execMin
  exact .sr2 h

theorem Runs.execMax {c : Fin 68} {e sz : Bool} {rd ra rb : BitVec 5} (h : Keeps false s t) : Runs s (execMax c e sz rd ra
    rb t) := by
  unfold Machine.execMax
  exact .sr2 h

theorem Runs.execAbs {c : Fin 68} {e sz : Bool} {rd ra : BitVec 5} (h : Keeps false s t) : Runs s (execAbs c e sz rd ra t) := by
  unfold Machine.execAbs
  exact .sr1 h

theorem Runs.execNeg {c : Fin 68} {e sz : Bool} {rd ra : BitVec 5} (h : Keeps false s t) : Runs s (execNeg c e sz rd ra t) := by
  unfold Machine.execNeg
  exact .sr1 h

theorem Runs.execCmp {c : Fin 68} {e sz : Bool} {ra rb : BitVec 5} (h : Keeps false s t) : Runs s (execCmp c e sz ra rb t) := by
  unfold Machine.execCmp
  exact .sSyl h

theorem Runs.execMuli {c : Fin 68} {e : Bool} {rd ra rb : BitVec 5} (h : Keeps false s t) : Runs s (execMuli c e rd ra rb t) := by
  unfold Machine.execMuli
  exact .sSyl h

theorem Runs.execAddi {c : Fin 68} {e sz : Bool} {rd ra : BitVec 5} {imm : BitVec 12} (h : Keeps false s t) : Runs s
    (execAddi c e sz rd ra imm t) := by
  unfold Machine.execAddi
  exact .si h

theorem Runs.execAndi {c : Fin 68} {e sz : Bool} {rd ra : BitVec 5} {imm : BitVec 12} (h : Keeps false s t) : Runs s
    (execAndi c e sz rd ra imm t) := by
  unfold Machine.execAndi
  exact .si h

theorem Runs.execOri {c : Fin 68} {e sz : Bool} {rd ra : BitVec 5} {imm : BitVec 12} (h : Keeps false s t) : Runs s (execOri
    c e sz rd ra imm t) := by
  unfold Machine.execOri
  exact .si h

theorem Runs.execXori {c : Fin 68} {e sz : Bool} {rd ra : BitVec 5} {imm : BitVec 12} (h : Keeps false s t) : Runs s
    (execXori c e sz rd ra imm t) := by
  unfold Machine.execXori
  exact .si h

theorem Runs.execAsri {c : Fin 68} {e sz : Bool} {rd ra : BitVec 5} {imm : BitVec 12} (h : Keeps false s t) : Runs s
    (execAsri c e sz rd ra imm t) := by
  unfold Machine.execAsri
  exact .si h

theorem Runs.execLsri {c : Fin 68} {e sz : Bool} {rd ra : BitVec 5} {imm : BitVec 12} (h : Keeps false s t) : Runs s
    (execLsri c e sz rd ra imm t) := by
  unfold Machine.execLsri
  exact .si h

theorem Runs.execLsli {c : Fin 68} {e sz : Bool} {rd ra : BitVec 5} {imm : BitVec 12} (h : Keeps false s t) : Runs s
    (execLsli c e sz rd ra imm t) := by
  unfold Machine.execLsli
  exact .si h

theorem Runs.execCmpi {c : Fin 68} {e sz : Bool} {ra : BitVec 5} {imm : BitVec 12} (h : Keeps false s t) : Runs s (execCmpi
    c e sz ra imm t) := by
  unfold Machine.execCmpi
  exact .sSyl h

theorem Runs.execMoviH {c : Fin 68} {e : Bool} {rd : BitVec 5} {imm : BitVec 16} (h : Keeps false s t) : Runs s (execMoviH c
    e rd imm t) := by
  unfold Machine.execMoviH
  exact .sSyl h

theorem Runs.execMoviW {c : Fin 68} {e : Bool} {rd : BitVec 5} {imm : BitVec 16} (h : Keeps false s t) : Runs s (execMoviW c
    e rd imm t) := by
  unfold Machine.execMoviW
  exact .sSyl h

theorem Runs.execMovhi {c : Fin 68} {e : Bool} {rd : BitVec 5} {imm : BitVec 16} (h : Keeps false s t) : Runs s (execMovhi c
    e rd imm t) := by
  unfold Machine.execMovhi
  exact .sSyl h

theorem Runs.execMovr {c : Fin 68} {e : Bool} {xd xs : BitVec 6} (h : Keeps false s t) : Runs s (execMovr c e xd xs t) := by
  unfold Machine.execMovr
  exact .sSyl h

theorem Runs.execMovcRead {c : Fin 68} {e : Bool} {cr : BitVec 6} {rw : BitVec 5} (h : Keeps false s t) : Runs s
    (execMovcRead c e cr rw t) := by
  unfold Machine.execMovcRead
  exact .sSyl h

theorem Runs.execMovcWrite {c : Fin 68} {e : Bool} {cr : BitVec 6} {rw : BitVec 5} (h : Keeps false s t) : Runs s
    (execMovcWrite c e cr rw t) := by
  unfold Machine.execMovcWrite
  exact .sSyl h

theorem Runs.execRnd {c : Fin 68} {e : Bool} {rd ra : BitVec 5} (h : Keeps false s t) : Runs s (execRnd c e rd ra t) := by
  unfold Machine.execRnd
  exact .sSyl h

theorem Runs.execNorm {c : Fin 68} {e sz : Bool} {rd ra : BitVec 5} (h : Keeps false s t) : Runs s (execNorm c e sz rd ra t) := by
  unfold Machine.execNorm
  exact .sr1 h

theorem Runs.execExp {c : Fin 68} {e sz : Bool} {rd ra : BitVec 5} (h : Keeps false s t) : Runs s (execExp c e sz rd ra t) := by
  unfold Machine.execExp
  exact .sSyl h

/-! ## Loads, stores and queues -/

theorem Runs.access {c : Nat} {e : Bool} {part : LPart} {port : Bool} {mode : LMode} {ptr reg align size : Nat} {store
    mod : Bool} {f : Nat → List Eff} (h : Keeps false s t) : Runs s (access t c e part port mode ptr reg align size store
    mod f) := by
  unfold Machine.access
  exact .go h.syllable

theorem Runs.loadD {c : Nat} {e : Bool} {part : LPart} {port : Bool} {mode : LMode} {reg ptr n : Nat} (h : Keeps false s t)
    : Runs s (loadD t c e part port mode reg ptr n) := by
  unfold Machine.loadD
  exact .access h

theorem Runs.storeD {c : Nat} {e : Bool} {part : LPart} {port : Bool} {mode : LMode} {reg ptr n : Nat} (h : Keeps false s t)
    : Runs s (storeD t c e part port mode reg ptr n) := by
  unfold Machine.storeD
  exact .access h

theorem Runs.execLdH {c : Fin 68} {e : Bool} {part : LPart} {port : Bool} {mode : LMode} {reg : BitVec 5} {ptr :
    BitVec 3} (h : Keeps false s t) : Runs s (execLdH c e part port mode reg ptr t) := by
  unfold Machine.execLdH
  exact .loadD h

theorem Runs.execLdW {c : Fin 68} {e : Bool} {part : LPart} {port : Bool} {mode : LMode} {reg : BitVec 5} {ptr :
    BitVec 3} (h : Keeps false s t) : Runs s (execLdW c e part port mode reg ptr t) := by
  unfold Machine.execLdW
  exact .loadD h

theorem Runs.execLdL {c : Fin 68} {e : Bool} {part : LPart} {port : Bool} {mode : LMode} {reg : BitVec 5} {ptr :
    BitVec 3} (h : Keeps false s t) : Runs s (execLdL c e part port mode reg ptr t) := by
  unfold Machine.execLdL
  exact .loadD h

theorem Runs.execStH {c : Fin 68} {e : Bool} {part : LPart} {port : Bool} {mode : LMode} {reg : BitVec 5} {ptr :
    BitVec 3} (h : Keeps false s t) : Runs s (execStH c e part port mode reg ptr t) := by
  unfold Machine.execStH
  exact .storeD h

theorem Runs.execStW {c : Fin 68} {e : Bool} {part : LPart} {port : Bool} {mode : LMode} {reg : BitVec 5} {ptr :
    BitVec 3} (h : Keeps false s t) : Runs s (execStW c e part port mode reg ptr t) := by
  unfold Machine.execStW
  exact .storeD h

theorem Runs.execStL {c : Fin 68} {e : Bool} {part : LPart} {port : Bool} {mode : LMode} {reg : BitVec 5} {ptr :
    BitVec 3} (h : Keeps false s t) : Runs s (execStL c e part port mode reg ptr t) := by
  unfold Machine.execStL
  exact .storeD h

theorem Runs.execMod {c : Fin 68} {e : Bool} {part : LPart} {port : Bool} {mode : LMode} {ptr : BitVec 3} (h : Keeps false s
    t) : Runs s (execMod c e part port mode ptr t) := by
  unfold Machine.execMod
  exact .access h

theorem Runs.execReservedSyllable {c : Fin 68} {e : Bool} {cls : BitVec 2} (h : Keeps false s t) : Runs s
    (execReservedSyllable c e cls t) := by
  unfold Machine.execReservedSyllable
  exact .go h.syllable

theorem Runs.sgcSyl {c : Nat} {e : Bool} {a : Act} (h : Keeps false s t) : Runs s (sgcSyl t c e a) := by
  unfold Machine.sgcSyl
  exact .ite (.sSyl h) (.sSyl h)

theorem Runs.svcSyl {c : Nat} {e priv bad : Bool} {a : Act} (h : Keeps false s t) : Runs s (svcSyl t c e priv bad a) := by
  unfold Machine.svcSyl
  exact .ite (.sSyl h) (.ite (.sSyl h) (.sSyl h))

theorem Runs.execSignal {c : Fin 68} {e : Bool} {ra : BitVec 5} (h : Keeps false s t) : Runs s (execSignal c e ra t) := by
  unfold Machine.execSignal
  exact .sgcSyl h

theorem Runs.execTouch {c : Fin 68} {e : Bool} {ra : BitVec 5} (h : Keeps false s t) : Runs s (execTouch c e ra t) := by
  unfold Machine.execTouch
  exact .sgcSyl h

theorem Runs.execFence {c : Fin 68} {e : Bool} (h : Keeps false s t) : Runs s (execFence c e t) := by
  unfold Machine.execFence
  exact .sSyl h

theorem Runs.execQrd {c : Fin 68} {e : Bool} {q : QSel} {rw : BitVec 4} (h : Keeps false s t) : Runs s (execQrd c e q rw t) := by
  unfold Machine.execQrd
  exact .sSyl h

theorem Runs.execQwr {c : Fin 68} {e fin : Bool} {q : QSel} {rw : BitVec 4} (h : Keeps false s t) : Runs s (execQwr c e fin
    q rw t) := by
  unfold Machine.execQwr
  exact .sSyl h

theorem Runs.execQtry {c : Fin 68} {e dir fin : Bool} {q : QSel} {rw : BitVec 4} (h : Keeps false s t) : Runs s (execQtry c
    e dir fin q rw t) := by
  unfold Machine.execQtry
  exact .sSyl h

theorem Runs.execLdlk {c : Fin 68} {e : Bool} {rd ra : BitVec 5} (h : Keeps false s t) : Runs s (execLdlk c e rd ra t) := by
  unfold Machine.execLdlk
  exact .svcSyl h

theorem Runs.execStcn {c : Fin 68} {e : Bool} {rd ra rb : BitVec 5} (h : Keeps false s t) : Runs s (execStcn c e rd ra rb t) := by
  unfold Machine.execStcn
  exact .svcSyl h

theorem Runs.cacheSyl {c : Nat} {e : Bool} {op ra : Nat} (h : Keeps false s t) : Runs s (cacheSyl t c e op ra) := by
  unfold Machine.cacheSyl
  exact .svcSyl h

theorem Runs.execCacheIinvLine {c : Fin 68} {e : Bool} {ra : BitVec 5} (h : Keeps false s t) : Runs s (execCacheIinvLine c e
    ra t) := by
  unfold Machine.execCacheIinvLine
  exact .cacheSyl h

theorem Runs.execCacheCleanLine {c : Fin 68} {e : Bool} {ra : BitVec 5} (h : Keeps false s t) : Runs s (execCacheCleanLine c
    e ra t) := by
  unfold Machine.execCacheCleanLine
  exact .cacheSyl h

theorem Runs.execCacheDinvLine {c : Fin 68} {e : Bool} {ra : BitVec 5} (h : Keeps false s t) : Runs s (execCacheDinvLine c e
    ra t) := by
  unfold Machine.execCacheDinvLine
  exact .cacheSyl h

theorem Runs.execCacheCleanInvLine {c : Fin 68} {e : Bool} {ra : BitVec 5} (h : Keeps false s t) : Runs s
    (execCacheCleanInvLine c e ra t) := by
  unfold Machine.execCacheCleanInvLine
  exact .cacheSyl h

theorem Runs.execCacheIinvAll {c : Fin 68} {e : Bool} (h : Keeps false s t) : Runs s (execCacheIinvAll c e t) := by
  unfold Machine.execCacheIinvAll
  exact .svcSyl h

theorem Runs.execCacheCleanInvAll {c : Fin 68} {e : Bool} (h : Keeps false s t) : Runs s (execCacheCleanInvAll c e t) := by
  unfold Machine.execCacheCleanInvAll
  exact .svcSyl h

theorem Runs.execTlbiPage {c : Fin 68} {e : Bool} {ra : BitVec 5} (h : Keeps false s t) : Runs s (execTlbiPage c e ra t) := by
  unfold Machine.execTlbiPage
  exact .svcSyl h

theorem Runs.execTlbiAsid {c : Fin 68} {e : Bool} {ra : BitVec 5} (h : Keeps false s t) : Runs s (execTlbiAsid c e ra t) := by
  unfold Machine.execTlbiAsid
  exact .svcSyl h

theorem Runs.execTlbiNonglobal {c : Fin 68} {e : Bool} (h : Keeps false s t) : Runs s (execTlbiNonglobal c e t) := by
  unfold Machine.execTlbiNonglobal
  exact .svcSyl h

theorem Runs.execTlbiAll {c : Fin 68} {e : Bool} (h : Keeps false s t) : Runs s (execTlbiAll c e t) := by
  unfold Machine.execTlbiAll
  exact .svcSyl h

/-! ## Control flow -/

theorem Runs.execBr {c : Fin 68} {e : Bool} {off : BitVec 23} (h : Keeps false s t) : Runs s (execBr c e off t) := by
  unfold Machine.execBr
  exact .sSyl h

theorem Runs.execBrc {c : Fin 68} {e : Bool} {cond : BitVec 4} {off : BitVec 19} (h : Keeps false s t) : Runs s (execBrc c e
    cond off t) := by
  unfold Machine.execBrc
  exact .sSyl h

theorem Runs.execJl {c : Fin 68} {e : Bool} {pd : BitVec 4} {off : BitVec 19} (h : Keeps false s t) : Runs s (execJl c e pd
    off t) := by
  unfold Machine.execJl
  exact .sSyl h

theorem Runs.execJlr {c : Fin 68} {e : Bool} {pd ps : BitVec 4} {link : Bool} (h : Keeps false s t) : Runs s (execJlr c e pd
    ps link t) := by
  unfold Machine.execJlr
  exact .sSyl h

theorem Runs.loopSyl {c : Nat} {e : Bool} {count : LoopCount} {leoff : Nat} {rotates : Bool} (h : Keeps false s t) : Runs s
    (loopSyl t c e count leoff rotates) := by
  unfold Machine.loopSyl
  exact .sSyl h

theorem Runs.execLoop {c : Fin 68} {e : Bool} {count : LoopCount} {leoff : BitVec 12} (h : Keeps false s t) : Runs s
    (execLoop c e count leoff t) := by
  unfold Machine.execLoop
  exact .loopSyl h

theorem Runs.execLoopr {c : Fin 68} {e : Bool} {count : LoopCount} {leoff : BitVec 12} (h : Keeps false s t) : Runs s
    (execLoopr c e count leoff t) := by
  unfold Machine.execLoopr
  exact .loopSyl h

theorem Runs.execWaitjob {c : Fin 68} {e : Bool} (h : Keeps false s t) : Runs s (execWaitjob c e t) := by
  unfold Machine.execWaitjob
  exact .ite (.ite (.go h.wr) (.go h)) (.sSyl h)

theorem Runs.execEndjob {c : Fin 68} {e : Bool} {blk : Option BlockEnd} (h : Keeps false s t) : Runs s (execEndjob c e blk
    t) := by
  unfold Machine.execEndjob
  exact .sgcSyl h

theorem Runs.execYield {c : Fin 68} {e : Bool} (h : Keeps false s t) : Runs s (execYield c e t) := by
  unfold Machine.execYield
  exact .sgcSyl h

theorem Runs.execBkpt {c : Fin 68} {e : Bool} {x2 : BitVec 16} (h : Keeps false s t) : Runs s (execBkpt c e x2 t) := by
  unfold Machine.execBkpt
  exact .sSyl h

theorem Runs.execRett {c : Fin 68} {e : Bool} (h : Keeps false s t) : Runs s (execRett c e t) := by
  unfold Machine.execRett
  exact .ite (.sSyl h) (.sSyl h)

theorem Runs.execSyscall {c : Fin 68} {e : Bool} {imm : BitVec 16} (h : Keeps false s t) : Runs s (execSyscall c e imm t) := by
  unfold Machine.execSyscall
  exact .svcSyl h

theorem Runs.execEret {c : Fin 68} {e : Bool} (h : Keeps false s t) : Runs s (execEret c e t) := by
  unfold Machine.execEret
  exact .svcSyl h

/-! ## Multiplies -/

theorem Runs.mSyl {c : Nat} {e : Bool} {effs : List Eff} {bad : Bool} (h : Keeps false s t) : Runs s (mSyl t c e effs bad) := by
  unfold Machine.mSyl
  exact .go h.syllable

theorem Runs.execCmac {c : Fin 68} {e : Bool} {acc : BitVec 2} {acd : BitVec 3} {ra rb : BitVec 5} {cja cjb : Bool} (h
    : Keeps false s t) : Runs s (execCmac c e acc acd ra rb cja cjb t) := by
  unfold Machine.execCmac
  exact .mSyl h

theorem Runs.execMac {c : Fin 68} {e : Bool} {acc : BitVec 2} {acd : BitVec 3} {ra rb : BitVec 5} {h' : Bool} (h :
    Keeps false s t) : Runs s (execMac c e acc acd ra rb h' t) := by
  unfold Machine.execMac
  exact .mSyl h

theorem Runs.execQmac {c : Fin 68} {e : Bool} {acc : BitVec 2} {acd : BitVec 3} {ra rb : BitVec 5} (h : Keeps false s t) :
    Runs s (execQmac c e acc acd ra rb t) := by
  unfold Machine.execQmac
  exact .mSyl h

theorem Runs.execBfly {c : Fin 68} {e : Bool} {ra rb rc : BitVec 5} {sc cjw : Bool} (h : Keeps false s t) : Runs s (execBfly
    c e ra rb rc sc cjw t) := by
  unfold Machine.execBfly
  exact .mSyl h

theorem Runs.accOp {c : Nat} {e : Bool} {d a : Nat} {f : ℤ → ℤ → ℤ} (h : Keeps false s t) : Runs s (accOp t c e d a f) := by
  unfold Machine.accOp
  exact .mSyl h

theorem Runs.execAcclr {c : Fin 68} {e : Bool} {acd : BitVec 3} (h : Keeps false s t) : Runs s (execAcclr c e acd t) := by
  unfold Machine.execAcclr
  exact .accOp h

theorem Runs.execAcmov {c : Fin 68} {e : Bool} {acd aca : BitVec 3} (h : Keeps false s t) : Runs s (execAcmov c e acd aca t) := by
  unfold Machine.execAcmov
  exact .accOp h

theorem Runs.execAcadd {c : Fin 68} {e : Bool} {acd aca : BitVec 3} (h : Keeps false s t) : Runs s (execAcadd c e acd aca t) := by
  unfold Machine.execAcadd
  exact .accOp h

theorem Runs.execAcsub {c : Fin 68} {e : Bool} {acd aca : BitVec 3} (h : Keeps false s t) : Runs s (execAcsub c e acd aca t) := by
  unfold Machine.execAcsub
  exact .accOp h

theorem Runs.execAcsha {c : Fin 68} {e : Bool} {acd : BitVec 3} {sh : BitVec 5} (h : Keeps false s t) : Runs s (execAcsha c
    e acd sh t) := by
  unfold Machine.execAcsha
  exact .accOp h

theorem Runs.execAcneg {c : Fin 68} {e : Bool} {acd aca : BitVec 3} (h : Keeps false s t) : Runs s (execAcneg c e acd aca t) := by
  unfold Machine.execAcneg
  exact .accOp h

theorem Runs.execMova {c : Fin 68} {e : Bool} {rd : BitVec 5} {acn : BitVec 3} {h' : Bool} {form : BitVec 2} (h :
    Keeps false s t) : Runs s (execMova c e rd acn h' form t) := by
  unfold Machine.execMova
  split <;> exact .sSyl h

theorem Runs.execMovar {c : Fin 68} {e : Bool} {rd : BitVec 5} {acn : BitVec 3} {h' : Bool} {form : BitVec 2} (h :
    Keeps false s t) : Runs s (execMovar c e rd acn h' form t) := by
  unfold Machine.execMovar
  split <;> exact .sSyl h

theorem Runs.execMovta {c : Fin 68} {e : Bool} {rd : BitVec 5} {acn : BitVec 3} {h' : Bool} {form : BitVec 2} (h :
    Keeps false s t) : Runs s (execMovta c e rd acn h' form t) := by
  unfold Machine.execMovta
  split <;> exact .sSyl h

theorem Runs.execExpa {c : Fin 68} {e : Bool} {rd : BitVec 5} {acn : BitVec 3} {h' : Bool} (h : Keeps false s t) : Runs s
    (execExpa c e rd acn h' t) := by
  unfold Machine.execExpa
  exact .sSyl h

/-! ## The latch -/

theorem Keeps.snap {f : Fld} {i blk off : Nat} (h : Keeps false s t) : Keeps false s (snap t f i blk off) := h.wr

theorem Keeps.snapSystem {ofs : Nat} (h : Keeps false s t) : Keeps false s (snapSystem t ofs) := by
  unfold Machine.snapSystem
  exact .over h.draw.snap.set.set.set.snap.snap.set.snap.snap fun _ _ h => h.snap

theorem Keeps.snapJobs (h : Keeps false s t) : Keeps false s (snapJobs t) :=
  h.snap.snap.snap.snap.set.set.snap.snap.snap.snap.snap.snap.snap

theorem Keeps.snapMedia (h : Keeps false s t) : Keeps false s (snapMedia t) := by
  unfold Machine.snapMedia
  exact .snap (.snap (.over (.snap (.over (.snap (.snap (.snap (.snap (.snap (.over (.over h.snap.snap fun _ _ h =>
    h.wr.wr) fun _ _ h => h.wr)))))) fun _ _ h => h.wr)) fun _ _ h => h.wr))

theorem Keeps.sendMlstones (h : Keeps false s t) : Keeps false s (sendMlstones t) := by
  unfold Machine.sendMlstones
  exact .ite h (.over h fun _ _ h => h.cwSend)

theorem Keeps.milestoneLatch {ofs : Nat} (h : Keeps false s t) : Keeps false s (milestoneLatch t ofs) := by
  unfold Machine.milestoneLatch
  exact .andThen (fun h => .andThen (fun h => .ite h.enterFenced h) (.sendMlstones (.ite h.set h))) (.set (.snapMedia
    (.snapJobs (.snapSystem (.ite h.set.set h.set)))))

theorem Runs.execMilestoneLatch {nwOffset : BitVec 15} (h : Keeps false s t) : Runs s (execMilestoneLatch nwOffset t) := by
  unfold Machine.execMilestoneLatch
  exact .ite (.go h.milestoneLatch) (.go h)

/-! ## Supervisor interrupts -/

theorem Runs.execSvcInterrupt {n : Fin 4} (h : Keeps false s t) : Runs s (execSvcInterrupt n t) := by
  unfold Machine.execSvcInterrupt
  exact .ite (.go h.svcFullClock.svcException) (.go h)

/-! ## Ticks -/

theorem Keeps.nwTick (h : Keeps false s t) : Keeps false s (nwTick t) := by
  unfold Machine.nwTick
  exact .ite h (.ite h.set h.set.nwEdge)

theorem Keeps.chargeCore {c : Nat} (h : Keeps nw s t) : Keeps nw s (chargeCore t c) := by
  unfold Machine.chargeCore
  exact .ite (.chargeBudget (.ite (h.wrBut rfl) h)) h

theorem Keeps.ageContexts (h : Keeps nw s t) : Keeps nw s (ageContexts t) := by
  unfold Machine.ageContexts
  exact .over h fun _ _ h => (h.wrBut rfl)

theorem Keeps.fabricTick (h : Keeps nw s t) : Keeps nw s (fabricTick t) := by
  unfold Machine.fabricTick
  exact .ite h (.andThen (fun h => .ite h.ageContexts h) (.over (h.setBut rfl) fun _ _ h => h.chargeCore))

theorem Keeps.linkTick (h : Keeps nw s t) : Keeps nw s (linkTick t) := h.cwFollow.migLinkCheck

theorem Keeps.tick (h : Keeps false s t) : Keeps false s (tick t) := h.nwTick.tmuTick.hmnTick.fabricTick.linkTick

end Sys2Proof.Machine
end

section
/-! PROOFS.  Every command, and every step: the queue of waiting commands and the canonical form of memory. -/

namespace Sys2Proof.Machine

open Safety

set_option Elab.async false

variable {s t u : State}

/-- Every command has a next state, and keeps what `Keeps` says. -/
theorem Runs.exec {c : Instr} (h : Keeps false s t) : Runs s (exec c t) := by
  cases c with
  | registerWrite => exact Runs.execRegisterWrite h
  | selectWrite => exact Runs.execSelectWrite h
  | counterClear => exact Runs.execCounterClear h
  | hostAccess => exact Runs.execHostAccess h
  | nightwatchStart => exact Runs.execNightwatchStart h
  | nwcntLoRead => exact Runs.execNwcntLoRead h
  | nwalarm => exact Runs.execNwalarm h
  | rstNLow => exact Runs.execRstNLow h
  | vddnwLow => exact Runs.execVddnwLow h
  | rstNRise => exact Runs.execRstNRise h
  | fuseLoadDone => exact Runs.execFuseLoadDone h
  | refclkDetectDone => exact Runs.execRefclkDetectDone h
  | mainPllLock => exact Runs.execMainPllLock h
  | refclkLoss => exact Runs.execRefclkLoss h
  | seqDelayExpiry => exact Runs.execSeqDelayExpiry h
  | seqPgood => exact Runs.execSeqPgood h
  | seqPgtimeout => exact Runs.execSeqPgtimeout h
  | pgoodFail => exact Runs.execPgoodFail h
  | watchPenOffStep => exact Runs.execWatchPenOffStep h
  | modeRequest ini => exact Runs.execModeRequest (ini := ini) h
  | wakeEvent => exact Runs.execWakeEvent h
  | bootImageCheck => exact Runs.execBootImageCheck h
  | fusProg => exact Runs.execFusProg h
  | fuseBurnDone => exact Runs.execFuseBurnDone h
  | protectionMapWrite ini => exact Runs.execProtectionMapWrite (ini := ini) h
  | dbsetH2s ini => exact Runs.execDbsetH2s (ini := ini) h
  | dbsetS2h ini => exact Runs.execDbsetS2h (ini := ini) h
  | dbclrH2s ini => exact Runs.execDbclrH2s (ini := ini) h
  | dbclrS2h ini => exact Runs.execDbclrS2h (ini := ini) h
  | perstAssert => exact Runs.execPerstAssert h
  | pcieLinkChange => exact Runs.execPcieLinkChange h
  | devnumWrite ini => exact Runs.execDevnumWrite (ini := ini) h
  | svcIdleSlow => exact Runs.execSvcIdleSlow h
  | clusterIdleExpiry => exact Runs.execClusterIdleExpiry h
  | clusterPlldlyExpiry => exact Runs.execClusterPlldlyExpiry h
  | clusterPwrdlyExpiry => exact Runs.execClusterPwrdlyExpiry h
  | clusterPwroff => exact Runs.execClusterPwroff h
  | clusterWakeRequest => exact Runs.execClusterWakeRequest h
  | cluWake ini => exact Runs.execCluWake (ini := ini) h
  | dawnPowerGood => exact Runs.execDawnPowerGood h
  | dawnPllLock => exact Runs.execDawnPllLock h
  | dawnDone => exact Runs.execDawnDone h
  | tempConversion => exact Runs.execTempConversion h
  | thermcfgWrite ini => exact Runs.execThermcfgWrite (ini := ini) h
  | cstbankWrite ini => exact Runs.execCstbankWrite (ini := ini) h
  | bankRetentionEntry => exact Runs.execBankRetentionEntry h
  | avsMarginLow => exact Runs.execAvsMarginLow h
  | avsLower => exact Runs.execAvsLower h
  | avsPmbfail => exact Runs.execAvsPmbfail h
  | pmbusTransaction ini => exact Runs.execPmbusTransaction (ini := ini) h
  | ldlk => exact Runs.execLdlk h
  | stcn => exact Runs.execStcn h
  | nop => exact Runs.execNop h
  | add => exact Runs.execAdd h
  | sub => exact Runs.execSub h
  | and => exact Runs.execAnd h
  | or => exact Runs.execOr h
  | xor => exact Runs.execXor h
  | asr => exact Runs.execAsr h
  | lsr => exact Runs.execLsr h
  | lsl => exact Runs.execLsl h
  | min => exact Runs.execMin h
  | max => exact Runs.execMax h
  | abs => exact Runs.execAbs h
  | neg => exact Runs.execNeg h
  | cmp => exact Runs.execCmp h
  | muli => exact Runs.execMuli h
  | addi => exact Runs.execAddi h
  | andi => exact Runs.execAndi h
  | ori => exact Runs.execOri h
  | xori => exact Runs.execXori h
  | asri => exact Runs.execAsri h
  | lsri => exact Runs.execLsri h
  | lsli => exact Runs.execLsli h
  | cmpi => exact Runs.execCmpi h
  | moviH => exact Runs.execMoviH h
  | moviW => exact Runs.execMoviW h
  | movhi => exact Runs.execMovhi h
  | movr => exact Runs.execMovr h
  | movcRead => exact Runs.execMovcRead h
  | movcWrite => exact Runs.execMovcWrite h
  | rnd => exact Runs.execRnd h
  | norm => exact Runs.execNorm h
  | exp => exact Runs.execExp h
  | expa => exact Runs.execExpa h
  | mova => exact Runs.execMova h
  | movar => exact Runs.execMovar h
  | movta => exact Runs.execMovta h
  | br => exact Runs.execBr h
  | brc => exact Runs.execBrc h
  | jl => exact Runs.execJl h
  | jlr => exact Runs.execJlr h
  | loop => exact Runs.execLoop h
  | loopr => exact Runs.execLoopr h
  | waitjob => exact Runs.execWaitjob h
  | endjob => exact Runs.execEndjob h
  | yield => exact Runs.execYield h
  | signal => exact Runs.execSignal h
  | touch => exact Runs.execTouch h
  | qrd => exact Runs.execQrd h
  | qwr => exact Runs.execQwr h
  | qtry => exact Runs.execQtry h
  | queueStallRelease => exact Runs.execQueueStallRelease h
  | bkpt c e tag => exact Runs.execBkpt (x2 := tag) h
  | rett => exact Runs.execRett h
  | fence => exact Runs.execFence h
  | syscall => exact Runs.execSyscall h
  | eret => exact Runs.execEret h
  | cacheIinvLine => exact Runs.execCacheIinvLine h
  | cacheCleanLine => exact Runs.execCacheCleanLine h
  | cacheDinvLine => exact Runs.execCacheDinvLine h
  | cacheCleanInvLine => exact Runs.execCacheCleanInvLine h
  | cacheIinvAll => exact Runs.execCacheIinvAll h
  | cacheCleanInvAll => exact Runs.execCacheCleanInvAll h
  | tlbiPage => exact Runs.execTlbiPage h
  | tlbiAsid => exact Runs.execTlbiAsid h
  | tlbiNonglobal => exact Runs.execTlbiNonglobal h
  | tlbiAll => exact Runs.execTlbiAll h
  | cmac => exact Runs.execCmac h
  | mac => exact Runs.execMac h
  | qmac => exact Runs.execQmac h
  | bfly => exact Runs.execBfly h
  | acclr => exact Runs.execAcclr h
  | acmov => exact Runs.execAcmov h
  | acadd => exact Runs.execAcadd h
  | acsub => exact Runs.execAcsub h
  | acsha => exact Runs.execAcsha h
  | acneg => exact Runs.execAcneg h
  | ldH => exact Runs.execLdH h
  | ldW => exact Runs.execLdW h
  | ldL => exact Runs.execLdL h
  | stH => exact Runs.execStH h
  | stW => exact Runs.execStW h
  | stL => exact Runs.execStL h
  | mod => exact Runs.execMod h
  | reservedSyllable => exact Runs.execReservedSyllable h
  | arithTrap => exact Runs.execArithTrap h
  | svcInterrupt => exact Runs.execSvcInterrupt h
  | sicClaim => exact Runs.execSicClaim h
  | sicComplete ini => exact Runs.execSicComplete (ini := ini) h
  | bankSaveDone => exact Runs.execBankSaveDone h
  | frameParityError => exact Runs.execFrameParityError h
  | taskSlotFirstWrite => exact Runs.execTaskSlotFirstWrite h
  | taskFlagsSet => exact Runs.execTaskFlagsSet h
  | taskFlagsClr => exact Runs.execTaskFlagsClr h
  | tsuSignalWrite ini => exact Runs.execTsuSignalWrite (ini := ini) h
  | taskCfgWrite => exact Runs.execTaskCfgWrite h
  | taskReady => exact Runs.execTaskReady h
  | taskCommit => exact Runs.execTaskCommit h
  | taskDispatch => exact Runs.execTaskDispatch h
  | preemptSwitch => exact Runs.execPreemptSwitch h
  | taskPromote => exact Runs.execTaskPromote h
  | budgetWindow => exact Runs.execBudgetWindow h
  | pageArrived => exact Runs.execPageArrived h
  | cancel => exact Runs.execCancel h
  | free => exact Runs.execFree h
  | coreenWrite ini => exact Runs.execCoreenWrite (ini := ini) h
  | trcclr ini => exact Runs.execTrcclr (ini := ini) h
  | traceEntryRead => exact Runs.execTraceEntryRead h
  | alloc => exact Runs.execAlloc h
  | release => exact Runs.execRelease h
  | spill => exact Runs.execSpill h
  | load => exact Runs.execLoad h
  | publish => exact Runs.execPublish h
  | chwCtlWrite => exact Runs.execChwCtlWrite h
  | setStage => exact Runs.execSetStage h
  | pageTransferDone => exact Runs.execPageTransferDone h
  | writebackStart => exact Runs.execWritebackStart h
  | writebackDone => exact Runs.execWritebackDone h
  | spillPressure => exact Runs.execSpillPressure h
  | pageReload => exact Runs.execPageReload h
  | eccUncorrectable => exact Runs.execEccUncorrectable h
  | scrubPage => exact Runs.execScrubPage h
  | dmaGo => exact Runs.execDmaGo h
  | dmaBurst => exact Runs.execDmaBurst h
  | dmaResume => exact Runs.execDmaResume h
  | dmaAbort ini => exact Runs.execDmaAbort (ini := ini) h
  | dmcInit ini => exact Runs.execDmcInit (ini := ini) h
  | dmcTrainDone => exact Runs.execDmcTrainDone h
  | queueSwap => exact Runs.execQueueSwap h
  | queueSwapDone => exact Runs.execQueueSwapDone h
  | queueFlush ini => exact Runs.execQueueFlush (ini := ini) h
  | queueFlushDone => exact Runs.execQueueFlushDone h
  | queueReset ini => exact Runs.execQueueReset (ini := ini) h
  | activate => exact Runs.execActivate h
  | hold => exact Runs.execHold h
  | resume => exact Runs.execResume h
  | stop => exact Runs.execStop h
  | mark => exact Runs.execMark h
  | rewind => exact Runs.execRewind h
  | rewindDone => exact Runs.execRewindDone h
  | clrstats => exact Runs.execClrstats h
  | channelStart => exact Runs.execChannelStart h
  | jbFile => exact Runs.execJbFile h
  | ecClear => exact Runs.execEcClear h
  | ecDivergence => exact Runs.execEcDivergence h
  | toneDisable => exact Runs.execToneDisable h
  | toneDisableRelease => exact Runs.execToneDisableRelease h
  | codecChange => exact Runs.execCodecChange h
  | genDtmf => exact Runs.execGenDtmf h
  | genCallProgress => exact Runs.execGenCallProgress h
  | genStop => exact Runs.execGenStop h
  | genEvent => exact Runs.execGenEvent h
  | genEnd => exact Runs.execGenEnd h
  | mediaTableReload => exact Runs.execMediaTableReload h
  | toneEvent => exact Runs.execToneEvent h
  | rxEventEnd => exact Runs.execRxEventEnd h
  | faxSwitchover => exact Runs.execFaxSwitchover h
  | returnToVoice => exact Runs.execReturnToVoice h
  | levelBankRequest => exact Runs.execLevelBankRequest h
  | levelFadeEnd => exact Runs.execLevelFadeEnd h
  | shapeLoad => exact Runs.execShapeLoad h
  | portEnable => exact Runs.execPortEnable h
  | portDisable => exact Runs.execPortDisable h
  | portLinkChange => exact Runs.execPortLinkChange h
  | frameReceive => exact Runs.execFrameReceive h
  | srtpDone => exact Runs.execSrtpDone h
  | clsInsert ini => exact Runs.execClsInsert (ini := ini) h
  | clsModify ini => exact Runs.execClsModify (ini := ini) h
  | clsDelete ini => exact Runs.execClsDelete (ini := ini) h
  | clsRead ini => exact Runs.execClsRead (ini := ini) h
  | clsDrainDone => exact Runs.execClsDrainDone h
  | ksInstall => exact Runs.execKsInstall h
  | ksClear => exact Runs.execKsClear h
  | ksClrcnt => exact Runs.execKsClrcnt h
  | strmselWrite => exact Runs.execStrmselWrite h
  | egressPost => exact Runs.execEgressPost h
  | timedFramePrepare => exact Runs.execTimedFramePrepare h
  | frameLaunch => exact Runs.execFrameLaunch h
  | priorityFrameSend => exact Runs.execPriorityFrameSend h
  | cellret ini => exact Runs.execCellret (ini := ini) h
  | cellcfgWrite ini => exact Runs.execCellcfgWrite (ini := ini) h
  | cellRegionWrite ini => exact Runs.execCellRegionWrite (ini := ini) h
  | tbIncrLoWrite => exact Runs.execTbIncrLoWrite h
  | tbIncrHiWrite => exact Runs.execTbIncrHiWrite h
  | tbStep => exact Runs.execTbStep h
  | tbNsRead => exact Runs.execTbNsRead h
  | capall ini => exact Runs.execCapall (ini := ini) h
  | tb1FrameMeasure => exact Runs.execTb1FrameMeasure h
  | tb1Holdover => exact Runs.execTb1Holdover h
  | waypointArm => exact Runs.execWaypointArm h
  | waypointDisable => exact Runs.execWaypointDisable h
  | waypointFire => exact Runs.execWaypointFire h
  | waypointUnhold => exact Runs.execWaypointUnhold h
  | lookaheadNotice => exact Runs.execLookaheadNotice h
  | pulseEnd => exact Runs.execPulseEnd h
  | pinCapture => exact Runs.execPinCapture h
  | pathstepPair ini => exact Runs.execPathstepPair (ini := ini) h
  | pathstepClear ini => exact Runs.execPathstepClear (ini := ini) h
  | tdxFramePulse => exact Runs.execTdxFramePulse h
  | tdxClockLoss => exact Runs.execTdxClockLoss h
  | tdxBlockBoundary => exact Runs.execTdxBlockBoundary h
  | tdxMapWrite ini => exact Runs.execTdxMapWrite (ini := ini) h
  | tdxSlip => exact Runs.execTdxSlip h
  | h110Failover => exact Runs.execH110Failover h
  | clkselWrite ini => exact Runs.execClkselWrite (ini := ini) h
  | handoverArm ini => exact Runs.execHandoverArm (ini := ini) h
  | handoverApply => exact Runs.execHandoverApply h
  | cwLinkTrained => exact Runs.execCwLinkTrained h
  | cwLinkDown => exact Runs.execCwLinkDown h
  | cwLinkKeepalive => exact Runs.execCwLinkKeepalive h
  | cwFrameReceive => exact Runs.execCwFrameReceive h
  | linkRx => exact Runs.execLinkRx h
  | cwRetransmit => exact Runs.execCwRetransmit h
  | timeSend => exact Runs.execTimeSend h
  | timeRx => exact Runs.execTimeRx h
  | tt1Read => exact Runs.execTt1Read h
  | revtSend => exact Runs.execRevtSend h
  | eventRx => exact Runs.execEventRx h
  | mbsSend ini => exact Runs.execMbsSend (ini := ini) h
  | mboxRx => exact Runs.execMboxRx h
  | raCmd ini => exact Runs.execRaCmd (ini := ini) h
  | raccRx => exact Runs.execRaccRx h
  | rrspRx => exact Runs.execRrspRx h
  | raTimeout => exact Runs.execRaTimeout h
  | fencecmd ini => exact Runs.execFencecmd (ini := ini) h
  | fenceRx => exact Runs.execFenceRx h
  | pktfwdRx => exact Runs.execPktfwdRx h
  | bridgeRx => exact Runs.execBridgeRx h
  | epochWrite ini => exact Runs.execEpochWrite (ini := ini) h
  | migGo ini => exact Runs.execMigGo (ini := ini) h
  | migAbortWrite ini => exact Runs.execMigAbortWrite (ini := ini) h
  | migpageRx => exact Runs.execMigpageRx h
  | pcdone => exact Runs.execPcdone h
  | armed => exact Runs.execArmed h
  | commit => exact Runs.execCommit h
  | commitack => exact Runs.execCommitack h
  | migAbortRx => exact Runs.execMigAbortRx h
  | migFreeze => exact Runs.execMigFreeze h
  | migGuard => exact Runs.execMigGuard h
  | migTPass => exact Runs.execMigTPass h
  | migAckwait => exact Runs.execMigAckwait h
  | migGraceEnd => exact Runs.execMigGraceEnd h
  | bootRx => exact Runs.execBootRx h
  | bootRequestSend => exact Runs.execBootRequestSend h
  | hmnSync ini => exact Runs.execHmnSync (ini := ini) h
  | inputSwitch ini => exact Runs.execInputSwitch (ini := ini) h
  | inputMake =>
    unfold Machine.exec
    exact Runs.execInputMake h
  | fineOutput =>
    unfold Machine.exec
    exact Runs.execFineOutput h
  | coarseCompare =>
    unfold Machine.exec
    exact Runs.execCoarseCompare h
  | demodWindowEnd =>
    unfold Machine.exec
    exact Runs.execDemodWindowEnd h
  | excitationChange ini => exact Runs.execExcitationChange (ini := ini) h
  | gainWrite => exact Runs.execGainWrite h
  | slcCfgWrite ini => exact Runs.execSlcCfgWrite (ini := ini) h
  | mlsTrigger => exact Runs.execMlsTrigger h
  | mlinEdge => exact Runs.execMlinEdge h
  | mlsTrig ini => exact Runs.execMlsTrig (ini := ini) h
  | milestoneLatch => exact Runs.execMilestoneLatch h
  | mlsArm ini => exact Runs.execMlsArm (ini := ini) h
  | mloutPulseEnd => exact Runs.execMloutPulseEnd h
  | mlstoneRx => exact Runs.execMlstoneRx h
  | traceHold => exact Runs.execTraceHold h
  | tapReset => exact Runs.execTapReset h
  | tapInstructionLoad => exact Runs.execTapInstructionLoad h
  | dbgacc => exact Runs.execDbgacc h
  | dbgchal => exact Runs.execDbgchal h
  | dbgresp => exact Runs.execDbgresp h
  | dbgHalt => exact Runs.execDbgHalt h
  | dbgStep => exact Runs.execDbgStep h
  | dbgRegdataWrite => exact Runs.execDbgRegdataWrite h
  | budgetHeld => exact Runs.execBudgetHeld h
  | avsDawnStepRelease => exact Runs.execAvsDawnStepRelease h
  | pmbusTransactionDone => exact Runs.execPmbusTransactionDone h

/-- Settles O3, from `Keeps`: the law of every operation, put together over the commands and the tick. -/
theorem everyStepKeepsMemoryCanonical : Obligations.EveryStepKeepsMemoryCanonical := by
  unfold Obligations.EveryStepKeepsMemoryCanonical
  intro s t hs hstep
  unfold step at hstep
  split at hstep
  · exact Host.Outcome.next.inj hstep ▸ (Keeps.refl s).tick.mem hs
  · next c r _ =>
    obtain ⟨u, hu, hk⟩ := Runs.exec (c := c) (Keeps.refl (s.withPending r))
    exact Host.Outcome.next.inj (hu.symm.trans hstep) ▸ hk.mem hs

/-! ## The tick and the counter of Nightwatch -/

/-- After Nightwatch's part of the tick nothing changes the counter. -/
theorem tick_nwCnt (s : State) : (tick s).rd I.nwCnt = (nwTick s).rd I.nwCnt :=
  (Keeps.refl (nwTick s)).tmuTick.hmnTick.fabricTick.linkTick.count rfl

/-- An edge of the Nightwatch clock advances the counter, also where the alarm wakes the device. -/
theorem nwEdge_nwCnt {s : State} (h : s.on I.nwStarted = true) :
    (nwEdge s).rd I.nwCnt = (s.rd I.nwCnt + 1) % 2 ^ 48 := by
  have hset : (s.set I.nwCnt ((s.rd I.nwCnt + 1) % 2 ^ 48)).rd I.nwCnt = (s.rd I.nwCnt + 1) % 2 ^ 48 :=
    (State.rd_wr_same _ _ _ _).trans (Nat.mod_mod _ _)
  unfold nwEdge
  rw [if_pos h]
  dsimp only
  split
  · exact (((Keeps.refl _).setBut rfl).wakeNow.count rfl).trans hset
  · exact hset

theorem nwTick_nwCnt_of_lt {s : State} (hp : s.rd I.nwPhase + 32768 < 500000000) :
    (nwTick s).rd I.nwCnt = s.rd I.nwCnt := by
  unfold nwTick
  split
  · rfl
  · simp only [if_pos hp]
    exact State.rd_wr_cell _ _ _ _ _ _ (by decide)

theorem nwTick_nwCnt_of_le {s : State} (hn : s.on I.nwStarted = true) (hp : 500000000 ≤ s.rd I.nwPhase + 32768) :
    (nwTick s).rd I.nwCnt = (s.rd I.nwCnt + 1) % 2 ^ 48 := by
  unfold nwTick
  simp only [hn, Bool.not_true, Bool.false_eq_true, if_false, if_neg (Nat.not_lt.mpr hp)]
  rw [nwEdge_nwCnt]
  · rw [State.set, State.rd_wr_cell _ _ _ _ _ _ (by decide)]
  · rw [State.on, State.set, State.rd_wr_cell _ _ _ _ _ _ (by decide)]
    exact hn

/-- Settles O2: the laws of `Keeps` over every command and over the tick. -/
theorem everyStepTakesOneCommandOrATick : Obligations.EveryStepTakesOneCommandOrATick := by
  unfold Obligations.EveryStepTakesOneCommandOrATick
  refine ⟨fun s => ?_, fun c s t h => ?_, fun s hs hn => ?_⟩
  · unfold Goes step
    split
    · exact ⟨_, rfl⟩
    · obtain ⟨t, ht, -⟩ := Runs.exec (Keeps.refl _)
      exact ⟨t, ht⟩
  · obtain ⟨u, hu, hk⟩ := Runs.exec (c := c) (Keeps.refl s)
    exact Host.Outcome.next.inj (hu.symm.trans h) ▸ hk.pending
  · have hon : s.on I.nwStarted = true := by simp [State.on, hn]
    refine ⟨tick s, by simp only [step, hs], (Keeps.refl s).tick.pending.trans hs, fun hp => ?_, fun hp => ?_⟩
    · exact (tick_nwCnt s).trans (nwTick_nwCnt_of_lt hp)
    · exact (tick_nwCnt s).trans (nwTick_nwCnt_of_le hon hp)

end Sys2Proof.Machine
end

section
/-! PROOFS.  Small facts that the statements of several families use: flags of the state, frames of `puts`. -/

namespace Sys2Proof.Machine

open Safety

set_option Elab.async false

variable {s t : State} {f : Fld} {i : Nat}

theorem on_of_one (h : s.rd f i = 1) : s.on f i = true := by simp [State.on, h]

theorem on_of_zero (h : s.rd f i = 0) : s.on f i = false := by simp [State.on, h]

theorem on_of_ne_zero (h : s.rd f i ≠ 0) : s.on f i = true := by simp [State.on, h]

/-- A cell of one bit is 0 or 1. -/
theorem flag_cases (s : State) (i : Nat) (hw : f.w = 1) : s.rd f i = 0 ∨ s.rd f i = 1 := by
  have h := State.rd_lt s f i
  rw [hw] at h
  omega

theorem on_flag (s : State) (i : Nat) (hw : f.w = 1) : s.on f i = decide (s.rd f i = 1) := by
  rcases flag_cases s i hw with h | h <;> simp [State.on, h]

theorem sameOtherCells_of_rd {u : State} {l : List Fld} (h : SameOtherCells s t l) (hr : ∀ g j, u.rd g j = t.rd g j) :
    SameOtherCells s u l :=
  fun g j hg => (hr g j).trans (h g j hg)

/-- Writes of cells leave every other cell. -/
theorem sameOtherCells_puts (s : State) (l : List (Fld × Nat × Nat)) {fs : List Fld} (h : l.map (·.1) = fs := by rfl) :
    SameOtherCells s (puts s l) fs :=
  fun g j hg => puts_cell s l g j fun p hp => hg p.1 (h ▸ List.mem_map.mpr ⟨p, hp, rfl⟩)

theorem puts_mem (s : State) (l : List (Fld × Nat × Nat)) : (puts s l).mem = s.mem := by
  rw [SameButCells.puts s l]

/-- What a cell holds after writes of distinct instances. -/
theorem puts_rd_of_mem {l : List (Fld × Nat × Nat)} {v : Nat} (hl : l.Pairwise fun p q => p.1.id ≠ q.1.id ∨ p.2.1 ≠ q.2.1)
    (h : (f, i, v) ∈ l) : (puts s l).rd f i = v % 2 ^ f.w := by
  induction l generalizing s with
  | nil => simp at h
  | cons p r ih =>
    obtain ⟨hp, hr⟩ := List.pairwise_cons.mp hl
    rcases List.mem_cons.mp h with rfl | h
    · refine ((OnlyCells.puts (s.wr f i v) r).2 f i fun q hq hid => ?_).trans (State.rd_wr_same _ _ _ _)
      obtain ⟨e, he, rfl⟩ := List.mem_map.mp hq
      exact ((hp e he).resolve_left fun hne => hne hid.symm).symm
    · exact ih hr h

/-- What a cell holds after writes of cells that are all different. -/
theorem puts_rd_at {l : List (Fld × Nat × Nat)} {v : Nat} (fs : List Fld) (k : Nat) (hn : (fs.map (·.id)).Nodup)
    (h : l[k]? = some (f, i, v) := by rfl) (hl : l.map (·.1) = fs := by rfl) : (puts s l).rd f i = v % 2 ^ f.w := by
  refine puts_rd_of_mem ?_ (List.mem_of_getElem? h)
  subst hl
  rw [List.map_map] at hn
  exact (List.pairwise_map.mp hn).imp fun hne => Or.inl hne

/-- What none of the written cells is keeps its value. -/
theorem puts_rd_other {l : List (Fld × Nat × Nat)} (fs : List Fld) (g : Fld) (j : Nat) (hg : ∀ f ∈ fs, f.id ≠ g.id)
    (hl : l.map (·.1) = fs := by rfl) : (puts s l).rd g j = s.rd g j := by
  refine puts_cell _ _ _ _ fun p hp => ?_
  subst hl
  exact hg _ (List.mem_map_of_mem hp)

/-- What an initiator has read is what it sees. -/
theorem seen_rdata (s : State) (c v : Nat) : Tbl.get 0 (s.seen c v).rdata c = v := Tbl.get_put_same _ _ _ _

/-- A command that has this next state does what that state shows. -/
theorem Does.of_next {c : Instr} {post : State → Prop} (h : exec c s = .next t) (hp : post t) : Does c s post := ⟨t, h, hp⟩

/-- The top bit of a word. -/
theorem bitOf_31 (v : Word) : bitOf v.toNat 31 = decide (2 ^ 31 ≤ v.toNat) := by
  have hlt : v.toNat < 2 ^ 32 := v.isLt
  unfold bitOf
  rw [beq_eq_decide, decide_eq_decide]
  omega

/-- A cell that none of the listed cells is. -/
theorem sameCells_rd {l : List (Fld × Nat)} (h : SameCells s t l) (g : Fld) (j : Nat) (hg : ∀ p ∈ l, p.1.id ≠ g.id) : t.rd g j = s.rd g j :=
  h g j fun p hp he => absurd he (hg p hp)

/-! ## Spilling -/

/-- The pages in CST of a spilled context move towards DRAM. -/
theorem startSpill_shows (f : Fld) (j cid : Nat) (hf : f.id ≠ I.mapLvl.id ∧ f.id ≠ I.mapMove.id) (hw : f.w = 1) :
    let t := startSpill (s.wr f j 1) cid
    t.rd f j = 1 ∧
      (∀ v, v < 16 → s.rd I.mapLvl (16 * cid + v) = 1 → t.rd I.mapLvl (16 * cid + v) = 3 ∧ t.rd I.mapMove (16 * cid + v) = 1) ∧
      OnlyCells s t ((f, j) :: ((List.range 16).filter fun v => s.rd I.mapLvl (16 * cid + v) == 1).flatMap fun v =>
        [(I.mapLvl, 16 * cid + v), (I.mapMove, 16 * cid + v)]) := by
  have hl : (fun v => lvl (s.wr f j 1) cid v == 1) = fun v => s.rd I.mapLvl (16 * cid + v) == 1 := by
    funext v
    unfold lvl entry
    rw [State.rd_wr_cell _ _ _ _ _ _ hf.1]
  obtain ⟨hmoves, honly⟩ := moveAway_says cid ((List.range 16).filter fun v => s.rd I.mapLvl (16 * cid + v) == 1) (s.wr f j 1)
  dsimp only
  unfold startSpill
  rw [hl]
  refine ⟨?_, fun v hv h1 => hmoves v (Or.inl (by simpa using ⟨hv, h1⟩)),
    (OnlyCells.wr (.refl s _) (List.mem_cons_self ..)).trans (honly.mono fun p hp => List.mem_cons_of_mem _ hp)⟩
  refine (sameCells_rd honly.2 f j fun p hp => ?_).trans ((State.rd_wr_same _ _ _ _).trans (by rw [hw]; rfl))
  obtain ⟨v, -, hp⟩ := List.mem_flatMap.mp hp
  simp only [List.mem_cons, List.not_mem_nil, or_false] at hp
  rcases hp with rfl | rfl
  · exact Ne.symm hf.1
  · exact Ne.symm hf.2

/-! ## Frames of counters and folds -/

variable {l : List Fld}

theorem sameOtherCells_ite {u : State} {p : Prop} {d : Decidable p} (h : SameOtherCells s t l) (k : SameOtherCells s u l) :
    SameOtherCells s (if p then t else u) l := by
  split <;> assumption

theorem sameOtherCells_bump {ovf : Option Fld} (h : SameOtherCells s t l) (hf : f ∈ l) (ho : ∀ g ∈ ovf, g ∈ l) :
    SameOtherCells s (t.bump f i ovf) l := by
  unfold State.bump
  refine sameOtherCells_ite (sameOtherCells_ite ?_ (h.wr hf)) h
  split
  · exact (h.wr hf).wr (ho _ rfl)
  · exact h.wr hf

theorem sameOtherCells_bumpBy {ovf : Option Fld} {n : Nat} (h : SameOtherCells s t l) (hf : f ∈ l)
    (ho : ∀ g ∈ ovf, g ∈ l) : SameOtherCells s (t.bumpBy f i ovf n) l := by
  unfold State.bumpBy
  refine sameOtherCells_ite ?_ (sameOtherCells_ite (h.wr hf) h)
  split
  · exact (h.wr hf).wr (ho _ rfl)
  · exact h.wr hf

theorem sameOtherCells_foldl {α : Type} {op : State → α → State} {xs : List α} (h : SameOtherCells s t l)
    (hop : ∀ u x, SameOtherCells u (op u x) l) : SameOtherCells s (xs.foldl op t) l :=
  SameOtherCells.over h xs op hop

end Sys2Proof.Machine
end

section
/-! PROOFS.  The host's accesses (chapter 3): where they go, and how each ends. -/

namespace Sys2Proof.Machine

open Safety

set_option Elab.async false

/-! ## The error record -/

/-- What SYS records of a host access that is refused or not decoded (R31, R89). -/
def hostRecord (kind wr a : Nat) : List (Fld × Nat × Nat) :=
  [(F.SYS_ERRADDR_LO_ADDR, 0, a), (F.SYS_ERRADDR_HI_ADDR, 0, a / 2 ^ 32), (F.SYS_ERRINFO_KIND, 0, kind),
   (F.SYS_ERRINFO_WRITE, 0, wr), (F.SYS_ERRINFO_INIT, 0, 0x48), (F.SYS_ERRINFO_VALID, 0, 1)]

section
variable {s : State} (hfirst : s.rd F.SYS_ERRINFO_VALID = 0) (hquiet : bitOf (s.rd F.MLS_ERRSEL_SEL) 0 = false)
include hfirst hquiet

theorem recordErr_host (kind : Nat) (write : Bool) (a : Nat) :
    s.recordErr .host kind write a = puts s (hostRecord kind (b2n write) a) := by
  unfold State.recordErr
  rw [if_neg (by rw [on_of_zero hfirst]; decide)]
  unfold State.errEvent
  rw [if_neg]
  · rfl
  · simp (disch := decide) only [State.set_eq_wr, State.rd_wr_cell]
    rw [hquiet]; decide

end

/-- The record of an access that is refused: what the statement lists. -/
def HostRefused (s : State) (kind wr a : Nat) (t : State) : Prop :=
  t.rd F.SYS_ERRADDR_LO_ADDR = a % 2 ^ 32 ∧ t.rd F.SYS_ERRADDR_HI_ADDR = a / 2 ^ 32 % 256 ∧ t.rd F.SYS_ERRINFO_KIND = kind ∧
    t.rd F.SYS_ERRINFO_WRITE = wr ∧ t.rd F.SYS_ERRINFO_INIT = 0x48 ∧ t.rd F.SYS_ERRINFO_VALID = 1 ∧ t.mem = s.mem ∧
    SameOtherCells s t [F.SYS_ERRADDR_LO_ADDR, F.SYS_ERRADDR_HI_ADDR, F.SYS_ERRINFO_KIND, F.SYS_ERRINFO_WRITE,
      F.SYS_ERRINFO_INIT, F.SYS_ERRINFO_VALID]

theorem hostRecord_refused (s : State) {kind wr : Nat} (hk : kind < 4) (hw : wr < 2) (a : Nat) :
    HostRefused s kind wr a (puts s (hostRecord kind wr a)) := by
  refine ⟨?_, ?_, ?_, ?_, ?_, ?_, puts_mem _ _, sameOtherCells_puts _ _⟩
  all_goals
    unfold hostRecord
    simp (disch := decide) only [puts_cons, puts_nil, State.rd_wr_cell, State.rd_wr_same]
  · rfl
  · rfl
  · exact Nat.mod_eq_of_lt hk
  · exact Nat.mod_eq_of_lt hw
  · rfl
  · rfl

theorem HostRefused.seen {s t : State} {kind wr a : Nat} (h : HostRefused s kind wr a t) (c v : Nat) :
    HostRefused s kind wr a (t.seen c v) := h

/-! ## How the access ends -/

theorem one_le_of_accessSize {size : Nat} (h : accessSize size = true) : 1 ≤ size := by
  unfold accessSize at h
  simp only [Bool.or_eq_true, beq_iff_eq] at h
  omega

theorem exec_hostAccess {s : State} {size : Nat} (hf : s.fabric = true) (hup : s.rd F.HIF_LINKSTAT_UP = 1)
    (hsize : 1 ≤ size) (bar2 : Bool) (off : BitVec 25) (write : Bool) (v : BitVec 64) :
    exec (.hostAccess bar2 off write size v) s = .next (hostAccess s bar2 off.toNat write size v.toNat) := by
  show execHostAccess _ _ _ _ _ _ = _
  unfold execHostAccess
  rw [if_pos (by simp [hf, on_of_one hup, hsize])]

/-- The bounds of BAR2, as the statement writes them. -/
theorem inBar2_iff (s : State) (a : Nat) {size : Nat} (hsize : 1 ≤ size) : inBar2 s a size = true ↔
    s.rd F.FUS_PMBAR2_LO * 0x10000 ≤ a ∧ a + size ≤ s.rd F.FUS_PMBAR2_HI * 0x10000 + 0x10000 ∧ a + size ≤ 0x100000000 := by
  unfold inBar2
  simp only [Bool.and_eq_true, decide_eq_true_eq]
  omega

theorem hostAccess_outside {s : State} {bar2 : Bool} {off size : Nat} (write : Bool) (v : Nat)
    (h : (bar2 && !inBar2 s (barAddr s bar2 off) size) = true) :
    hostAccess s bar2 off write size v = if write then s.recordErr .host 1 write (barAddr s bar2 off)
      else (s.recordErr .host 1 write (barAddr s bar2 off)).seen 0x48 0 := by
  unfold hostAccess
  dsimp only
  rw [if_pos h]
  rfl

theorem hostAccess_write {s : State} {bar2 : Bool} {off size : Nat} (v : Nat)
    (h : (bar2 && !inBar2 s (barAddr s bar2 off) size) = false) :
    hostAccess s bar2 off true size v = (busWrite s .host (barAddr s bar2 off) (leBytes size v)).2 := by
  unfold hostAccess
  dsimp only
  rw [if_neg (by rw [h]; decide), if_pos rfl]

theorem hostAccess_read {s : State} {bar2 : Bool} {off size : Nat} (v : Nat)
    (h : (bar2 && !inBar2 s (barAddr s bar2 off) size) = false) :
    hostAccess s bar2 off false size v =
      (busRead s .host (barAddr s bar2 off) size).2.2.seen 0x48 (busRead s .host (barAddr s bar2 off) size).2.1 := by
  unfold hostAccess
  dsimp only
  rw [if_neg (by rw [h]; decide), if_neg Bool.false_ne_true]
  rfl

theorem busWrite_refused {s : State} {ini : Init} {a n x : Nat} (he : ending s ini a n true = .prot) :
    busWrite s ini a (leBytes n x) = (.prot, s.recordErr ini 1 true a) := by
  unfold busWrite
  rw [leBytes_length, he]
  rfl

theorem busRead_refused {s : State} {ini : Init} {a n : Nat} (he : ending s ini a n false = .prot) :
    busRead s ini a n = (.prot, 0, s.recordErr ini 1 false a) := by
  unfold busRead
  rw [he]
  rfl

theorem place_pks {s : State} {a : Nat} (h1 : 0x10000000 ≤ a) (h2 : a < 0x12000000) : place s a = .pks := by
  unfold place
  rw [if_neg (by omega), if_pos (by simp [h1, h2])]

/-- An access of the host to PKS ends as the rights of PMHOST say (R86, R87). -/
theorem ending_pks (s : State) {a size : Nat} (hsize : 1 ≤ size) (h1 : 0x10000000 ≤ a) (h2 : a + size ≤ 0x12000000)
    (write : Bool) :
    ending s .host a size write = if bitOf (s.rd F.FUS_PMHOST_RIGHTS) (2 + b2n write) then .ok else .prot := by
  unfold ending
  rw [place_pks h1 (by omega), place_pks (a := a + size - 1) (by omega) (by omega)]
  cases write <;> simp [allowed, classOf, Place.region]

theorem ending_nothing {s : State} {a : Nat} (h : place s a = .nothing) (ini : Init) (size : Nat) (write : Bool) :
    ending s ini a size write = .decode := by
  unfold ending
  simp [h]

/-! ## The clauses -/

section
variable {s : State} {bar2 : Bool} {off : BitVec 25} {size : Nat} (v : BitVec 64) {a : Nat} (hf : s.fabric = true)
  (hup : s.rd F.HIF_LINKSTAT_UP = 1) (hsize : 1 ≤ size) (ha : barAddr s bar2 off.toNat = a)
include hf hup hsize ha

/-- Outside the bounds of BAR2 (R92). -/
theorem hostAccess_outside_case (hout : (bar2 && !inBar2 s a size) = true) (hfirst : s.rd F.SYS_ERRINFO_VALID = 0)
    (hquiet : bitOf (s.rd F.MLS_ERRSEL_SEL) 0 = false) :
    Does (.hostAccess bar2 off true size v) s (HostRefused s 1 1 a) ∧
      Does (.hostAccess bar2 off false size v) s fun t => HostRefused s 1 0 a t ∧ Tbl.get 0 t.rdata 0x48 = 0 := by
  subst ha
  constructor
  · refine ⟨_, exec_hostAccess hf hup hsize bar2 off true v, ?_⟩
    rw [hostAccess_outside true _ hout, if_pos rfl, recordErr_host hfirst hquiet]
    exact hostRecord_refused s (by decide) (by decide) _
  · refine ⟨_, exec_hostAccess hf hup hsize bar2 off false v, ?_⟩
    rw [hostAccess_outside false _ hout, if_neg Bool.false_ne_true, recordErr_host hfirst hquiet]
    dsimp only
    exact ⟨(hostRecord_refused s (by decide) (by decide) _).seen _ _, seen_rdata _ _ _⟩

variable (hin : (bar2 && !inBar2 s a size) = false)
include hin

theorem hostAccess_write_ok (h1 : 0x10000000 ≤ a) (h2 : a + size ≤ 0x12000000)
    (hright : bitOf (s.rd F.FUS_PMHOST_RIGHTS) 3 = true) :
    Does (.hostAccess bar2 off true size v) s fun t =>
      t.readLE a size = v.toNat % 256 ^ size ∧ (∀ x, x < a ∨ a + size ≤ x → t.byte x = s.byte x) ∧
        SameOtherCells s t [I.linkV, I.txWr, I.txWrC] ∧ t = { s with cells := t.cells, mem := t.mem } := by
  subst ha
  refine ⟨_, exec_hostAccess hf hup hsize bar2 off true v, ?_⟩
  have hok : ending s .host (barAddr s bar2 off.toNat) size true = .ok := by
    rw [ending_pks s hsize h1 h2 true]
    exact if_pos hright
  have hpks : place s (barAddr s bar2 off.toNat) = .pks := place_pks h1 (by omega)
  rw [hostAccess_write _ hin, write_pks hok hpks]
  have hstored := stored_says s (barAddr s bar2 off.toNat) size v.toNat _ rfl
  have hphys := physWrite_says s (barAddr s bar2 off.toNat) (leBytes size v.toNat)
  dsimp only at hstored hphys ⊢
  exact ⟨hstored.1, hstored.2, hphys.2⟩

theorem hostAccess_read_ok (h1 : 0x10000000 ≤ a) (h2 : a + size ≤ 0x12000000)
    (hright : bitOf (s.rd F.FUS_PMHOST_RIGHTS) 2 = true) :
    exec (.hostAccess bar2 off false size v) s = .next (s.seen 0x48 (s.readLE a size)) := by
  subst ha
  have hok : ending s .host (barAddr s bar2 off.toNat) size false = .ok := by
    rw [ending_pks s hsize h1 h2 false]
    exact if_pos hright
  have hpks : place s (barAddr s bar2 off.toNat) = .pks := place_pks h1 (by omega)
  rw [exec_hostAccess hf hup hsize, hostAccess_read _ hin, read_pks hok hpks]

variable (hfirst : s.rd F.SYS_ERRINFO_VALID = 0) (hquiet : bitOf (s.rd F.MLS_ERRSEL_SEL) 0 = false)
include hfirst hquiet

/-- A write that is refused or not decoded stores nothing and leaves its record (R31, R89). -/
theorem hostAccess_write_bad {kind : Nat} (hk : kind < 4)
    (he : busWrite s .host a (leBytes size v.toNat) = (if kind = 1 then .prot else .decode, s.recordErr .host kind true a)) :
    Does (.hostAccess bar2 off true size v) s (HostRefused s kind 1 a) := by
  subst ha
  refine ⟨_, exec_hostAccess hf hup hsize bar2 off true v, ?_⟩
  rw [hostAccess_write _ hin, he, recordErr_host hfirst hquiet]
  exact hostRecord_refused s hk (by decide) _

/-- A read that is refused or not decoded returns zero and leaves its record (R31, R89). -/
theorem hostAccess_read_bad {kind : Nat} (hk : kind < 4)
    (he : busRead s .host a size = (if kind = 1 then .prot else .decode, 0, s.recordErr .host kind false a)) :
    Does (.hostAccess bar2 off false size v) s fun t => HostRefused s kind 0 a t ∧ Tbl.get 0 t.rdata 0x48 = 0 := by
  subst ha
  refine ⟨_, exec_hostAccess hf hup hsize bar2 off false v, ?_⟩
  rw [hostAccess_read _ hin, he, recordErr_host hfirst hquiet]
  dsimp only
  exact ⟨(hostRecord_refused s hk (by decide) _).seen _ _, seen_rdata _ _ _⟩

end

/-- Settles O8: the address of a BAR offset, and the ending of the access there, case by case. -/
theorem hostAccessReachesWhatItsRightsAllow : Obligations.HostAccessReachesWhatItsRightsAllow := by
  unfold Obligations.HostAccessReachesWhatItsRightsAllow
  intro s bar2 off size v a within refused
  have ha : barAddr s bar2 off.toNat = a := rfl
  have hwithin : 1 ≤ size → (within ↔ (bar2 && !inBar2 s a size) = false) := fun hsize => by
    have hb := inBar2_iff s a hsize
    cases bar2 with
    | false => simp [within]
    | true => simp only [within, forall_const, Bool.true_and, Bool.not_eq_false', hb]
  refine ⟨fun hdown w => ?_, fun hf hup hacc hin => ?_, fun hf hup hacc hout hfirst hquiet => ?_⟩
  · show execHostAccess _ _ _ _ _ _ = _
    unfold execHostAccess
    rw [if_neg (by simp [on_of_zero hdown])]
  · have hsize := one_le_of_accessSize hacc
    rw [hwithin hsize] at hin
    refine ⟨fun h1 h2 => ⟨?_, ?_⟩, fun hfirst hquiet => ⟨fun hnone => ⟨?_, ?_⟩, fun h1 h2 => ⟨fun hno => ?_, fun hno => ?_⟩⟩⟩
    · exact hostAccess_write_ok v hf hup hsize ha hin h1 h2
    · exact hostAccess_read_ok v hf hup hsize ha hin h1 h2
    · exact hostAccess_write_bad v hf hup hsize ha hin hfirst hquiet (by decide) (write_decode (ending_nothing hnone _ _ _))
    · exact hostAccess_read_bad v hf hup hsize ha hin hfirst hquiet (by decide) (read_decode (ending_nothing hnone _ _ _))
    · refine hostAccess_write_bad v hf hup hsize ha hin hfirst hquiet (by decide) (busWrite_refused ?_)
      rw [ending_pks s hsize h1 h2 true]
      exact if_neg (by rw [show 2 + b2n true = 3 from rfl, hno]; decide)
    · refine hostAccess_read_bad v hf hup hsize ha hin hfirst hquiet (by decide) (busRead_refused ?_)
      rw [ending_pks s hsize h1 h2 false]
      exact if_neg (by rw [show 2 + b2n false = 2 from rfl, hno]; decide)
  · have hsize := one_le_of_accessSize hacc
    rw [hwithin hsize, Bool.not_eq_false] at hout
    exact hostAccess_outside_case v hf hup hsize ha hout hfirst hquiet

end Sys2Proof.Machine
end

section
/-! PROOFS.  Nightwatch's counter and its alarm (chapter 2). -/

namespace Sys2Proof.Machine

open Safety

set_option Elab.async false

theorem nwcntLoRead_case (s : State) (ini : Init) (hf : s.fabric = true) : Does (.nwcntLoRead ini) s fun t =>
    Tbl.get 0 t.rdata (initCode ini) = s.rd I.nwCnt % 2 ^ 32 ∧ t.rd F.PMU_NWCNT_HI_CNT = s.rd I.nwCnt / 2 ^ 32 ∧
      SameOtherCells s t [F.PMU_NWCNT_HI_CNT, F.PMU_NWCNT_LO_CNT] ∧ t = { s with cells := t.cells, rdata := t.rdata } := by
  have hexec : exec (.nwcntLoRead ini) s = .next ((puts s [(F.PMU_NWCNT_HI_CNT, 0, s.rd I.nwCnt / 2 ^ 32),
      (F.PMU_NWCNT_LO_CNT, 0, s.rd I.nwCnt)]).seen (initCode ini) (s.rd I.nwCnt % 2 ^ 32)) := by
    show execNwcntLoRead ini s = _
    unfold execNwcntLoRead
    rw [if_pos hf]
    rfl
  refine ⟨_, hexec, seen_rdata _ _ _, ?_, ?_, ?_⟩
  · have hcnt : s.rd I.nwCnt < 2 ^ 48 := State.rd_lt s I.nwCnt 0
    simp (disch := decide) only [State.seen_rd, puts_cons, puts_nil, State.rd_wr_cell, State.rd_wr_same]
    exact Nat.mod_eq_of_lt (by rw [Nat.div_lt_iff_lt_mul (by decide)]; exact hcnt)
  · exact sameOtherCells_of_rd (sameOtherCells_puts s _) (State.seen_rd _ _ _)
  · rfl

theorem nwalarm_stopped {s : State} (h : s.rd I.nwStarted = 0) : exec .nwalarm s = .next s := by
  show Host.Outcome.next (nwEdge s) = _
  unfold nwEdge
  rw [if_neg (by rw [on_of_zero h]; decide)]

/-- A wake event outside WATCH changes nothing (R70). -/
theorem wakeNow_of_not_watch {s : State} (h : s.mode ≠ mWATCH) (sources : Nat) : wakeNow s sources = s := by
  unfold wakeNow
  dsimp only
  rw [if_neg (by simp [h])]

theorem nwalarm_edge {s : State} (hrun : s.rd I.nwStarted = 1) (hm : s.mode ≠ mWATCH) :
    Puts .nwalarm s ((I.nwCnt, 0, (s.rd I.nwCnt + 1) % 2 ^ 48) ::
      if s.rd F.PMU_NWALM_HI_EN = 1 ∧
          (s.rd I.nwCnt + 1) % 2 ^ 48 = s.rd F.PMU_NWALM_HI_TGT * 2 ^ 32 + s.rd F.PMU_NWALM_LO_TGT
        then [(F.PMU_IRQSTAT_NWALARM, 0, 1)] else []) := by
  show Host.Outcome.next (nwEdge s) = _
  unfold nwEdge
  rw [if_pos (on_of_one hrun)]
  dsimp only
  simp (disch := decide) only [on_flag, State.set_eq_wr, State.rd_wr_cell, Bool.and_eq_true, decide_eq_true_eq, beq_iff_eq]
  split
  · rw [wakeNow_of_not_watch]
    · rfl
    · simp (disch := decide) only [State.mode, State.rd_wr_cell]
      exact hm
  · rfl

/-- Settles O10. -/
theorem nightwatchCountsAndCompares : Obligations.NightwatchCountsAndCompares := by
  unfold Obligations.NightwatchCountsAndCompares
  exact fun s ini => ⟨nwcntLoRead_case s ini, nwalarm_stopped, nwalarm_edge⟩

end Sys2Proof.Machine
end

section
/-! PROOFS.  Fuses, clocks and the power sequence come up (chapters 2 and 3). -/

namespace Sys2Proof.Machine

open Safety

set_option Elab.async false

/-! ## The fuses -/

/-- The cells of the run-time protection words. -/
def protectionCells : List Fld :=
  [F.FUS_PMHOST_RIGHTS, F.FUS_PMDBG_RIGHTS, F.FUS_PMSGC_RIGHTS, F.FUS_PMCWY_RIGHTS, F.FUS_PMBAR2_HI, F.FUS_PMBAR2_LO,
   F.FUS_PMMISC_RMBOX, F.FUS_PMMISC_RMLS, F.FUS_PMMISC_RFENCE]

/-- The cells that take their defaults from fuse words. -/
def fuseDefaultCells : List Fld :=
  [F.PMU_SEQSTEP_VALID, F.PMU_SEQSTEP_WATCHOFF, F.PMU_SEQSTEP_WAITPG, F.PMU_SEQSTEP_PEN, F.PMU_SEQSTEP_DELAY,
   F.PMU_AVSCFG_EN, F.PMU_AVSCFG_ADDR, F.PMU_AVSCFG_MARGIN, F.PMU_THERMCFG_CRIT, F.PMU_THERMCFG_THROT,
   F.PMU_THERMCFG_WARN, F.SYS_ID_GRADE, F.SYS_SERIAL_LO_SERIAL, F.SYS_SERIAL_HI_SERIAL]

/-- The shadows hold the array, and LOADED and FUSEERR say how it was found. -/
def fusesRead (s : State) (intact : Bool) : State :=
  puts (loadShadows s) ((F.FUS_STAT_LOADED, 0, 1) :: if intact then [] else [(F.FUS_STAT_FUSEERR, 0, 1)])

theorem fusesRead_frame (s : State) (intact : Bool) (h : s.partialFuses = []) :
    SameButCells s (fusesRead s intact) ∧
      SameOtherCells s (fusesRead s intact) [F.FUS_SHADOW_WORD, F.FUS_STAT_LOADED, F.FUS_STAT_FUSEERR] := by
  have hload := loadShadows_says s h
  dsimp only at hload
  obtain ⟨-, hbut, hother⟩ := hload
  refine ⟨hbut.trans (SameButCells.puts _ _), (hother.mono (by simp)).trans ?_⟩
  cases intact with
  | true => exact (sameOtherCells_puts _ _).mono (by simp)
  | false => exact (sameOtherCells_puts _ _).mono (by simp)

theorem fusesRead_shadow {s : State} (intact : Bool) (h : s.partialFuses = []) {w : Nat} (hw : w < 128) :
    (fusesRead s intact).rd F.FUS_SHADOW_WORD w = s.rd I.fuseArray w := by
  have hload := loadShadows_says s h
  refine (puts_cell _ _ _ _ ?_).trans (hload.1 w hw)
  cases intact <;> decide

theorem fusesRead_flags (s : State) (intact : Bool) (h : s.partialFuses = []) :
    (fusesRead s intact).rd F.FUS_STAT_LOADED = 1 ∧
      (fusesRead s intact).rd F.FUS_STAT_FUSEERR = if intact then s.rd F.FUS_STAT_FUSEERR else 1 := by
  have hother := (loadShadows_says s h).2.2 F.FUS_STAT_FUSEERR 0 (by decide)
  unfold fusesRead
  cases intact with
  | true =>
    simp (disch := decide) only [if_true, puts_cons, puts_nil, State.rd_wr_cell, State.rd_wr_same, hother]
    exact ⟨rfl, trivial⟩
  | false =>
    simp (disch := decide) only [Bool.false_eq_true, if_false, puts_cons, puts_nil, State.rd_wr_cell, State.rd_wr_same]
    exact ⟨rfl, rfl⟩

theorem loadProtection_frame (s : State) (ok : Bool) :
    SameButCells s (loadProtection s ok) ∧ SameOtherCells s (loadProtection s ok) protectionCells := by
  rw [loadProtection_says]
  exact ⟨SameButCells.puts _ _, sameOtherCells_puts _ _⟩

/-- The protection words come from their fuse words, or are zero (R75, R90). -/
theorem loadProtection_rd (s : State) (ok : Bool) :
    let t := loadProtection s ok
    let g := fun w => if ok then shadow s w else 0
    t.rd F.FUS_PMHOST_RIGHTS = g 51 % 2 ^ 20 ∧ t.rd F.FUS_PMDBG_RIGHTS = g 52 % 2 ^ 20 ∧
      t.rd F.FUS_PMSGC_RIGHTS = g 53 % 2 ^ 20 ∧ t.rd F.FUS_PMCWY_RIGHTS = g 54 % 2 ^ 20 ∧
      t.rd F.FUS_PMBAR2_HI = g 55 / 2 ^ 16 % 2 ^ 16 ∧ t.rd F.FUS_PMBAR2_LO = g 55 % 2 ^ 16 ∧
      t.rd F.FUS_PMMISC_RFENCE = g 56 % 2 ∧ t.rd F.FUS_PMMISC_RMLS = g 56 / 2 % 2 ∧
      t.rd F.FUS_PMMISC_RMBOX = g 56 / 4 % 2 := by
  intro t g
  have ht : t = puts s _ := loadProtection_says s ok
  rw [ht]
  simp (disch := decide) only [puts_cons, puts_nil, State.rd_wr_cell, State.rd_wr_same]
  refine ⟨rfl, rfl, rfl, rfl, rfl, rfl, ?_, ?_, ?_⟩
  · exact (Nat.mod_mod _ _).trans (by rw [Nat.pow_zero, Nat.div_one])
  · exact Nat.mod_mod _ _
  · exact Nat.mod_mod _ _

/-- FUSE_LOAD_DONE in BOOT. -/
theorem exec_fuseLoadDone {s : State} (intact : Bool) (hm : s.mode = mBOOT) (hph : s.rd I.bootPh = 1)
    (hbusy : s.rd F.FUS_STAT_BUSY = 0) (hpart : s.partialFuses = []) :
    exec (.fuseLoadDone intact) s =
      .next ((loadFuseDefaults (loadProtection (fusesRead s intact) intact)).set I.bootPh 2) := by
  have hread : (if intact then (loadShadows s).set F.FUS_STAT_LOADED 1
      else ((loadShadows s).set F.FUS_STAT_LOADED 1).set F.FUS_STAT_FUSEERR 1) = fusesRead s intact := by
    cases intact <;> rfl
  have hmode : (loadFuseDefaults (loadProtection (fusesRead s intact) intact)).mode = s.mode := by
    have hd := (loadFuseDefaults_says (loadProtection (fusesRead s intact) intact)).2.2.2.2.2.2
    exact (hd _ _ (by decide)).trans (((loadProtection_frame _ intact).2 _ _ (by decide)).trans
      ((fusesRead_frame s intact hpart).2 _ _ (by decide)))
  show execFuseLoadDone intact s = _
  unfold execFuseLoadDone
  rw [if_pos (by simp [hph, on_of_zero hbusy, hm])]
  dsimp only
  rw [hread, hmode, if_pos (by simp [hm])]

theorem fuseLoadDone_case {s : State} (intact : Bool) (hm : s.mode = mBOOT) (hph : s.rd I.bootPh = 1)
    (hbusy : s.rd F.FUS_STAT_BUSY = 0) (hpart : s.partialFuses = []) :
    let g := fun w => if intact then s.rd I.fuseArray w else 0
    Does (.fuseLoadDone intact) s fun t =>
      (∀ w, w < 128 → t.rd F.FUS_SHADOW_WORD w = s.rd I.fuseArray w) ∧ t.rd F.FUS_STAT_LOADED = 1 ∧
      t.rd F.FUS_STAT_FUSEERR = (if intact then s.rd F.FUS_STAT_FUSEERR else 1) ∧ t.rd I.bootPh = 2 ∧
      t.rd F.FUS_PMHOST_RIGHTS = g 51 % 2 ^ 20 ∧ t.rd F.FUS_PMDBG_RIGHTS = g 52 % 2 ^ 20 ∧
      t.rd F.FUS_PMSGC_RIGHTS = g 53 % 2 ^ 20 ∧ t.rd F.FUS_PMCWY_RIGHTS = g 54 % 2 ^ 20 ∧
      t.rd F.FUS_PMBAR2_HI = g 55 / 2 ^ 16 % 2 ^ 16 ∧ t.rd F.FUS_PMBAR2_LO = g 55 % 2 ^ 16 ∧
      t.rd F.FUS_PMMISC_RFENCE = g 56 % 2 ∧ t.rd F.FUS_PMMISC_RMLS = g 56 / 2 % 2 ∧ t.rd F.FUS_PMMISC_RMBOX = g 56 / 4 % 2 ∧
      t.rd F.PMU_THERMCFG_WARN = bits (s.rd I.fuseArray 68) 7 0 ∧ t.rd F.PMU_THERMCFG_THROT = bits (s.rd I.fuseArray 68) 15 8 ∧
      t.rd F.PMU_THERMCFG_CRIT = bits (s.rd I.fuseArray 68) 23 16 ∧
      t.rd F.SYS_SERIAL_LO_SERIAL = s.rd I.fuseArray 124 ∧ t.rd F.SYS_SERIAL_HI_SERIAL = s.rd I.fuseArray 125 ∧
      t.mode = mBOOT ∧ SameButCells s t ∧
      SameOtherCells s t [F.FUS_SHADOW_WORD, F.FUS_STAT_LOADED, F.FUS_STAT_FUSEERR, I.bootPh, F.FUS_PMHOST_RIGHTS,
        F.FUS_PMDBG_RIGHTS, F.FUS_PMSGC_RIGHTS, F.FUS_PMCWY_RIGHTS, F.FUS_PMBAR2_HI, F.FUS_PMBAR2_LO, F.FUS_PMMISC_RMBOX,
        F.FUS_PMMISC_RMLS, F.FUS_PMMISC_RFENCE, F.PMU_SEQSTEP_VALID, F.PMU_SEQSTEP_WATCHOFF, F.PMU_SEQSTEP_WAITPG,
        F.PMU_SEQSTEP_PEN, F.PMU_SEQSTEP_DELAY, F.PMU_AVSCFG_EN, F.PMU_AVSCFG_ADDR, F.PMU_AVSCFG_MARGIN,
        F.PMU_THERMCFG_CRIT, F.PMU_THERMCFG_THROT, F.PMU_THERMCFG_WARN, F.SYS_ID_GRADE, F.SYS_SERIAL_LO_SERIAL,
        F.SYS_SERIAL_HI_SERIAL] := by
  intro g
  refine ⟨_, exec_fuseLoadDone intact hm hph hbusy hpart, ?_⟩
  -- the states on the way: fuses read, protection loaded, defaults loaded, phase 2
  obtain ⟨hbut1, hother1⟩ := fusesRead_frame s intact hpart
  obtain ⟨hloaded, hfuseerr⟩ := fusesRead_flags s intact hpart
  have hshadow1 : ∀ w, w < 128 → (fusesRead s intact).rd F.FUS_SHADOW_WORD w = s.rd I.fuseArray w :=
    fun _ hw => fusesRead_shadow intact hpart hw
  generalize fusesRead s intact = a at *
  obtain ⟨hbut2, hother2⟩ := loadProtection_frame a intact
  have hprot := loadProtection_rd a intact
  have hg : ∀ w, w < 128 → (if intact then shadow a w else 0) = g w := fun w hw => by
    rw [shadow, hshadow1 w hw]
  dsimp only at hprot
  simp (disch := decide) only [hg] at hprot
  obtain ⟨h51, h52, h53, h54, h55h, h55l, h56f, h56m, h56b⟩ := hprot
  have hshadow2 : ∀ w, w < 128 → shadow (loadProtection a intact) w = s.rd I.fuseArray w := fun w hw =>
    (hother2 _ _ (by decide)).trans (hshadow1 w hw)
  generalize loadProtection a intact = b at *
  have hdef := loadFuseDefaults_says b
  dsimp only at hdef
  obtain ⟨hcrit, hthrot, hwarn, hlo, hhi, hbut3, hother3⟩ := hdef
  generalize loadFuseDefaults b = c at *
  have hlast : ∀ (g : Fld) j, I.bootPh.id ≠ g.id → (c.set I.bootPh 2).rd g j = c.rd g j := fun g j h =>
    State.rd_wr_cell _ _ _ _ _ _ h
  have hfrom2 : ∀ (g : Fld) j {v}, b.rd g j = v → (∀ f ∈ fuseDefaultCells, f.id ≠ g.id) → I.bootPh.id ≠ g.id → (c.set I.bootPh 2).rd g j = v := fun g j v hv hd hp =>
    (hlast g j hp).trans ((hother3 g j hd).trans hv)
  refine ⟨fun w hw => ?_, ?_, ?_, State.rd_wr_same _ _ _ _, ?_, ?_, ?_, ?_, ?_, ?_, ?_, ?_, ?_, ?_, ?_, ?_, ?_, ?_, ?_,
    hbut1.trans (hbut2.trans (hbut3.trans (.wr (.refl _)))), ?_⟩
  · exact hfrom2 _ _ (hshadow2 w hw) (by decide) (by decide)
  · exact hfrom2 _ _ ((hother2 _ _ (by decide)).trans hloaded) (by decide) (by decide)
  · exact hfrom2 _ _ ((hother2 _ _ (by decide)).trans hfuseerr) (by decide) (by decide)
  · exact hfrom2 _ _ h51 (by decide) (by decide)
  · exact hfrom2 _ _ h52 (by decide) (by decide)
  · exact hfrom2 _ _ h53 (by decide) (by decide)
  · exact hfrom2 _ _ h54 (by decide) (by decide)
  · exact hfrom2 _ _ h55h (by decide) (by decide)
  · exact hfrom2 _ _ h55l (by decide) (by decide)
  · exact hfrom2 _ _ h56f (by decide) (by decide)
  · exact hfrom2 _ _ h56m (by decide) (by decide)
  · exact hfrom2 _ _ h56b (by decide) (by decide)
  · rw [hlast _ _ (by decide), hwarn, hshadow2 68 (by decide)]
  · rw [hlast _ _ (by decide), hthrot, hshadow2 68 (by decide)]
  · rw [hlast _ _ (by decide), hcrit, hshadow2 68 (by decide)]
  · rw [hlast _ _ (by decide), hlo, hshadow2 124 (by decide)]
  · rw [hlast _ _ (by decide), hhi, hshadow2 125 (by decide)]
  · refine hfrom2 _ _ ?_ (by decide) (by decide)
    exact (hother2 _ _ (by decide)).trans ((hother1 _ _ (by decide)).trans hm)
  · refine (hother1.mono ?_).trans ((hother2.mono ?_).trans ((hother3.mono ?_).trans (.wr (.refl _ _) ?_))) <;>
      simp [protectionCells]

theorem refMatches_iff (edges hz : Nat) : refMatches edges hz = true ↔
    8 * hz * 99 ≤ edges * 32768 * 100 ∧ edges * 32768 * 100 ≤ 8 * hz * 101 := by
  simp [refMatches]

theorem refclkDetectDone_case {s : State} (edges : Nat) (hm : s.mode = mBOOT) (hph : s.rd I.bootPh = 2) :
    let near := fun hz => 8 * hz * 99 ≤ edges * 32768 * 100 ∧ edges * 32768 * 100 ≤ 8 * hz * 101
    Puts (.refclkDetectDone edges) s (if near 25000000 then [(F.PMU_CLK_REFFREQ, 0, 1), (I.bootPh, 0, 3)]
      else if near 156250000 then [(F.PMU_CLK_REFFREQ, 0, 2), (I.bootPh, 0, 3)]
      else [(F.PMU_CLK_REFFREQ, 0, 0), (I.bootPh, 0, 0)]) := by
  intro near
  show execRefclkDetectDone edges s = _
  unfold execRefclkDetectDone
  rw [if_pos (by simp [hm, hph])]
  simp only [refMatches_iff, near]
  split
  · rfl
  · split <;> rfl

/-! ## The power sequence -/

/-- The sequence comes to the next valid step (R62). -/
theorem seqFrom_step {s : State} {k n : Nat} (hk : k ≤ n) (hn : n < 8) (hv : s.rd F.PMU_SEQSTEP_VALID n = 1)
    (hskip : ∀ j, k ≤ j → j < n → s.rd F.PMU_SEQSTEP_VALID j = 0) : seqFrom s k = seqAt s n := by
  have hfind : ((List.range 8).find? fun j => decide (k ≤ j) && s.on F.PMU_SEQSTEP_VALID j) = some n := by
    rw [List.find?_range_eq_some]
    refine ⟨by simp [hk, on_of_one hv], List.mem_range.mpr hn, fun j hj => ?_⟩
    by_cases hkj : k ≤ j
    · simp [on_of_zero (hskip j hkj hj)]
    · simp [hkj]
  unfold seqFrom
  rw [hfind]
  rfl

/-- After the last step the boot ROM starts (R62, R74). -/
theorem seqFrom_end {s : State} {k : Nat} (hskip : ∀ j, k ≤ j → j < 8 → s.rd F.PMU_SEQSTEP_VALID j = 0) :
    seqFrom s k = romStart (puts s [(F.PMU_SEQCFG_DONE, 0, 1), (I.seqIdx, 0, 8), (I.seqWaitPg, 0, 0), (I.bootPh, 0, 5)]) := by
  have hfind : ((List.range 8).find? fun j => decide (k ≤ j) && s.on F.PMU_SEQSTEP_VALID j) = none := by
    rw [List.find?_eq_none]
    intro j hj
    by_cases hkj : k ≤ j
    · simp [on_of_zero (hskip j hkj (List.mem_range.mp hj))]
    · simp [hkj]
  unfold seqFrom
  rw [hfind]
  rfl

/-- The boot ROM waits for an image from QSPI (R73, R74). -/
theorem romStart_qspi {s : State} (herr : s.rd F.FUS_STAT_FUSEERR = 0) (hstrap : s.rd I.strap = 0) :
    romStart s = puts s [(F.SYS_BOOTSTAT_CODE, 0, 0), (F.SYS_BOOTSTAT_SOURCE, 0, 0), (I.bootSrc, 0, 0), (I.romSt, 0, 1),
      (I.bootCopy, 0, 0)] := by
  unfold romStart
  rw [if_neg (by rw [on_of_zero herr]; decide), hstrap]
  rfl

theorem seqStart_seqWaitPg (s : State) (hv : s.rd F.PMU_SEQSTEP_VALID 0 = 1) : (seqStart s).rd I.seqWaitPg = 0 := by
  have hstart := seqStart_says s hv
  unfold seqStart at *
  dsimp only at *
  generalize hu : List.foldl _ _ _ = u
  have hvalid : u.rd F.PMU_SEQSTEP_VALID 0 = 1 := by
    rw [← hu]
    refine (State.over_rd _ _ _ _ _ fun t k => ?_).trans ?_
    · split
      · exact State.rd_wr_cell _ _ _ _ _ _ (by decide)
      · rfl
    · simp (disch := decide) only [State.set_eq_wr, State.rd_wr_cell]
      exact hv
  rw [seqFrom_next u 0 (by decide) hvalid]
  simp (disch := decide) only [puts_cons, puts_nil, State.rd_wr_cell, State.rd_wr_same]
  rfl

theorem mainPllLock_case {s : State} (hm : s.mode = mBOOT) (hph : s.rd I.bootPh = 3)
    (hv : s.rd F.PMU_SEQSTEP_VALID 0 = 1) :
    Does .mainPllLock s fun t => t.rd F.PMU_CLK_PLLLOCK = 1 ∧ t.rd I.tickRun = 1 ∧ t.rd F.PMU_SEQCFG_DONE = 0 ∧
      t.rd F.PMU_SEQCFG_SEQFAIL = 0 ∧ t.rd I.bootPh = 4 ∧ t.rd I.seqIdx = 0 ∧ t.rd I.seqWaitPg = 0 ∧
      t.rd I.pinPen (s.rd F.PMU_SEQSTEP_PEN 0) = 2 ∧ SameButCells s t ∧
      ∀ g j, (∀ f ∈ [F.PMU_CLK_PLLLOCK, I.tickRun, F.PMU_SEQCFG_DONE, F.PMU_SEQCFG_SEQFAIL, I.bootPh, I.pinPen, I.seqIdx,
          I.seqWaitPg], f.id ≠ g.id) →
        t.rd g j = if g.id / 32 / 0x100000 = 6 then State.reset.rd g j else s.rd g j := by
  have hexec : exec .mainPllLock s =
      .next (seqStart (resetBlock (puts s [(F.PMU_CLK_PLLLOCK, 0, 1), (I.tickRun, 0, 1)]) 6)) := by
    show execMainPllLock s = _
    unfold execMainPllLock
    rw [if_pos (by simp [hm, hph])]
    rfl
  refine ⟨_, hexec, ?_⟩
  generalize hu : resetBlock (puts s [(F.PMU_CLK_PLLLOCK, 0, 1), (I.tickRun, 0, 1)]) 6 = u
  have hrd : ∀ g j, u.rd g j = if g.id / 32 / 0x100000 = 6 then State.reset.rd g j
      else (puts s [(F.PMU_CLK_PLLLOCK, 0, 1), (I.tickRun, 0, 1)]).rd g j := fun g j => hu ▸ resetBlock_rd _ _ _ _
  have hstep : ∀ (f : Fld) j, f.id / 32 / 0x100000 ≠ 6 → F.PMU_CLK_PLLLOCK.id ≠ f.id → I.tickRun.id ≠ f.id →
      u.rd f j = s.rd f j := fun f j hb h1 h2 => by
    rw [hrd, if_neg hb]
    exact puts_cell _ _ _ _ (by simp [h1, h2])
  have hvalid : u.rd F.PMU_SEQSTEP_VALID 0 = 1 := (hstep _ _ (by decide) (by decide) (by decide)).trans hv
  have hstart := seqStart_says u hvalid
  have hwait := seqStart_seqWaitPg u hvalid
  dsimp only at hstart
  obtain ⟨hdone, hfail, hphase, hidx, hpen, hbut, hother⟩ := hstart
  have hbut1 : SameButCells s u := by
    rw [← hu]
    exact (SameButCells.puts s [(F.PMU_CLK_PLLLOCK, 0, 1), (I.tickRun, 0, 1)]).trans rfl
  generalize seqStart u = t at *
  refine ⟨?_, ?_, hdone, hfail, hphase, hidx, hwait, ?_, hbut1.trans hbut, fun g j hg => ?_⟩
  · rw [hother _ _ (by decide), hrd, if_neg (by decide)]
    simp (disch := decide) only [puts_cons, puts_nil, State.rd_wr_cell, State.rd_wr_same]
    rfl
  · rw [hother _ _ (by decide), hrd, if_neg (by decide)]
    simp (disch := decide) only [puts_cons, puts_nil, State.rd_wr_same]
    rfl
  · rw [← hstep F.PMU_SEQSTEP_PEN 0 (by decide) (by decide) (by decide)]
    exact hpen
  · rw [hother g j fun f hf => hg f (by simp only [List.mem_cons] at hf ⊢; tauto), hrd]
    congr 1
    exact puts_cell _ _ _ _ (by simp [hg F.PMU_CLK_PLLLOCK, hg I.tickRun])

/-- Where the sequence goes from step k, on the state u (R62, R74 steps 5 and 6). -/
theorem seqFrom_onward {s u : State} {k : Nat} (hvalid : ∀ j, u.rd F.PMU_SEQSTEP_VALID j = s.rd F.PMU_SEQSTEP_VALID j)
    (herr : u.rd F.FUS_STAT_FUSEERR = s.rd F.FUS_STAT_FUSEERR) (hstrap : u.rd I.strap = s.rd I.strap) :
    (∀ n, k < n → n < 8 → (∀ j, k < j → j < n → s.rd F.PMU_SEQSTEP_VALID j = 0) → s.rd F.PMU_SEQSTEP_VALID n = 1 →
        seqFrom u (k + 1) = seqAt u n) ∧
      ((∀ j, k < j → j < 8 → s.rd F.PMU_SEQSTEP_VALID j = 0) → s.rd F.FUS_STAT_FUSEERR = 0 → s.rd I.strap = 0 →
        seqFrom u (k + 1) = puts u [(F.PMU_SEQCFG_DONE, 0, 1), (I.seqIdx, 0, 8), (I.seqWaitPg, 0, 0), (I.bootPh, 0, 5),
          (F.SYS_BOOTSTAT_CODE, 0, 0), (F.SYS_BOOTSTAT_SOURCE, 0, 0), (I.bootSrc, 0, 0), (I.romSt, 0, 1), (I.bootCopy, 0, 0)]) := by
  refine ⟨fun n hk hn hskip hv => ?_, fun hskip h0 hq => ?_⟩
  · exact seqFrom_step hk hn ((hvalid n).trans hv) fun j hj hjn => (hvalid j).trans (hskip j hj hjn)
  · rw [seqFrom_end fun j hj hj8 => (hvalid j).trans (hskip j hj hj8), romStart_qspi]
    · exact (puts_append u _ _).symm
    · rw [puts_cell _ _ _ _ (by decide), herr, h0]
    · rw [puts_cell _ _ _ _ (by decide), hstrap, hq]

section
variable {s : State} {k : Nat} (hk : k < 8) (hm : s.mode = mBOOT) (hph : s.rd I.bootPh = 4) (hidx : s.rd I.seqIdx = k)
include hk hm hph hidx

theorem seqRunning_step : seqRunning s = true := by
  unfold seqRunning
  simp [hm, hph, hidx, hk]

theorem exec_seqDelayExpiry (hw : s.rd I.seqWaitPg = 0) : exec .seqDelayExpiry s =
    if s.rd F.PMU_SEQSTEP_WAITPG k = 1 ∧ s.rd I.pinPgood = 0 then .next (s.set I.seqWaitPg 1)
    else .next (seqFrom s (k + 1)) := by
  show execSeqDelayExpiry s = _
  unfold execSeqDelayExpiry
  rw [if_pos (by simp [seqRunning_step hk hm hph hidx, on_of_zero hw]), hidx]
  rcases flag_cases s (f := I.pinPgood) 0 rfl with h | h <;> rcases flag_cases s (f := F.PMU_SEQSTEP_WAITPG) k rfl with h' | h' <;>
    simp [State.on, h, h', go]

theorem exec_seqPgood : exec .seqPgood s =
    if s.rd I.seqWaitPg = 1 then .next (seqFrom (puts s [(I.pinPgood, 0, 1)]) (k + 1)) else .next (puts s [(I.pinPgood, 0, 1)]) := by
  have hrun : seqRunning (s.set I.pinPgood 1) = true := by
    refine seqRunning_step hk ?_ ?_ ?_
    · exact (State.rd_wr_cell _ _ _ _ _ _ (by decide)).trans hm
    · exact (State.rd_wr_cell _ _ _ _ _ _ (by decide)).trans hph
    · exact (State.rd_wr_cell _ _ _ _ _ _ (by decide)).trans hidx
  show execSeqPgood s = _
  unfold execSeqPgood
  dsimp only
  rw [hrun, on_flag _ _ rfl]
  simp (disch := decide) only [State.set_eq_wr, State.rd_wr_cell, Bool.true_and, decide_eq_true_eq, hidx]
  rfl

end

/-- Settles O11: the boot sequence, event by event. -/
theorem fusesClocksAndPowerComeUpInOrder : Obligations.FusesClocksAndPowerComeUpInOrder := by
  unfold Obligations.FusesClocksAndPowerComeUpInOrder
  refine ⟨⟨fun s intact => fuseLoadDone_case intact, fun s edges => refclkDetectDone_case edges⟩,
    fun s hm hph hv _ => mainPllLock_case hm hph hv, fun s k hk hm hph hidx => ?_⟩
  intro wait onward
  have hpin : ∀ (g : Fld) j, I.pinPgood.id ≠ g.id → (puts s [(I.pinPgood, 0, 1)]).rd g j = s.rd g j := fun g j h =>
    State.rd_wr_cell _ _ _ _ _ _ h
  refine ⟨fun hw => ⟨fun hwait => ?_, fun hwait => ?_⟩, fun hw => ?_, fun hw => ?_⟩
  · exact (exec_seqDelayExpiry hk hm hph hidx hw).trans (if_pos hwait)
  · exact ⟨_, (exec_seqDelayExpiry hk hm hph hidx hw).trans (if_neg hwait), seqFrom_onward (fun _ => rfl) rfl rfl⟩
  · exact (exec_seqPgood hk hm hph hidx).trans (if_neg (by omega))
  · refine ⟨_, (exec_seqPgood hk hm hph hidx).trans (if_pos hw), seqFrom_onward (fun j => ?_) ?_ ?_⟩
    · exact hpin _ _ (by decide)
    · exact hpin _ _ (by decide)
    · exact hpin _ _ (by decide)

end Sys2Proof.Machine
end

section
/-! PROOFS.  Mode transitions on errors and requests (chapter 2). -/

namespace Sys2Proof.Machine

open Safety

set_option Elab.async false

/-! ## Fatal errors -/

section
variable {s : State}

/-- The cells that a fatal error looks at. -/
def fatalInputs : List Fld := [F.PMU_MODE_CURRENT, F.MLS_ERRSEL_SEL, F.PKE_P_STAT_UP, F.CWY_L_STAT_STATE]

theorem fatalError_puts (l : List (Fld × Nat × Nat)) (cause : Nat)
    (hl : ∀ f ∈ l.map (·.1), ∀ g ∈ fatalInputs, f.id ≠ g.id) (hdown : LinksDown s)
    (hquiet : bitOf (s.rd F.MLS_ERRSEL_SEL) 6 = false) (hm : s.mode ≠ mRESET ∧ s.mode ≠ mFENCED) :
    fatalError (puts s l) cause = fencedFrom (puts s l) cause := by
  have hrd : ∀ g ∈ fatalInputs, ∀ j, (puts s l).rd g j = s.rd g j := fun g hg j =>
    sameOtherCells_puts s l rfl g j fun f hf => hl f hf g hg
  refine fatalError_quiet _ cause ?_ ?_ (fun p hp => ?_) fun k hk => ?_
  · rw [State.mode, hrd _ (by simp [fatalInputs])]
    exact hm
  · rw [hrd _ (by simp [fatalInputs])]
    exact hquiet
  · rw [hrd _ (by simp [fatalInputs])]
    exact hdown.1 p hp
  · rw [hrd _ (by simp [fatalInputs])]
    exact hdown.2 k hk

/-- BOOT, SERVICE and DRAIN: the modes in which a fatal error of PGOOD or REFCLK enters FENCED. -/
theorem mode_in_use (hm : s.mode = mBOOT ∨ s.mode = mSERVICE ∨ s.mode = mDRAIN) :
    (s.mode == mBOOT || s.serving) = true ∧ s.fabric = true ∧ s.mode ≠ mRESET ∧ s.mode ≠ mFENCED := by
  unfold State.serving State.fabric
  rcases hm with h | h | h <;> rw [h] <;> decide

theorem seqPgtimeout_fatal (hdown : LinksDown s) (hquiet : bitOf (s.rd F.MLS_ERRSEL_SEL) 6 = false) (hm : s.mode = mBOOT)
    (hph : s.rd I.bootPh = 4) (hidx : s.rd I.seqIdx < 8) (hwait : s.rd I.seqWaitPg = 1) (hpg : s.rd I.pinPgood = 0) :
    exec .seqPgtimeout s = .next (fencedFrom (puts s [(F.PMU_SEQCFG_SEQFAIL, 0, 1), (F.PMU_IRQSTAT_SEQFAIL, 0, 1)]) 9) := by
  show execSeqPgtimeout s = _
  unfold execSeqPgtimeout
  rw [if_pos (by simp [seqRunning, hm, hph, hidx, on_of_one hwait, on_of_zero hpg])]
  exact congrArg Host.Outcome.next (fatalError_puts [(F.PMU_SEQCFG_SEQFAIL, 0, 1), (F.PMU_IRQSTAT_SEQFAIL, 0, 1)] 9 (by decide)
    hdown hquiet (mode_in_use (.inl hm)).2.2)

theorem seqPgtimeout_idle (hwait : s.rd I.seqWaitPg = 0) : exec .seqPgtimeout s = .next s := by
  show execSeqPgtimeout s = _
  unfold execSeqPgtimeout
  rw [if_neg (by simp [on_of_zero hwait])]

/-- PGOOD_FAIL: after the sequence, in a mode that uses the supplies, it is a fatal error (R518). -/
theorem exec_pgoodFail (s : State) : exec .pgoodFail s =
    if s.on F.PMU_SEQCFG_DONE && (s.mode == mBOOT || s.serving) then .next (seqFail (s.wr I.pinPgood 0 0))
    else .next (s.wr I.pinPgood 0 0) := by
  show execPgoodFail s = _
  unfold execPgoodFail
  simp (disch := decide) only [State.set_eq_wr, State.on_eq, State.serving, State.mode, State.rd_wr_cell]
  rfl

theorem pgoodFail_fatal (hdown : LinksDown s) (hquiet : bitOf (s.rd F.MLS_ERRSEL_SEL) 6 = false)
    (hdone : s.rd F.PMU_SEQCFG_DONE = 1) (hm : s.mode = mBOOT ∨ s.mode = mSERVICE ∨ s.mode = mDRAIN) :
    exec .pgoodFail s =
      .next (fencedFrom (puts s [(I.pinPgood, 0, 0), (F.PMU_SEQCFG_SEQFAIL, 0, 1), (F.PMU_IRQSTAT_SEQFAIL, 0, 1)]) 9) := by
  rw [exec_pgoodFail, on_of_one hdone, (mode_in_use hm).1, if_pos (by decide)]
  exact congrArg Host.Outcome.next (fatalError_puts [(I.pinPgood, 0, 0), (F.PMU_SEQCFG_SEQFAIL, 0, 1), (F.PMU_IRQSTAT_SEQFAIL, 0, 1)] 9
    (by decide) hdown hquiet (mode_in_use hm).2.2)

theorem pgoodFail_shown (hdone : s.rd F.PMU_SEQCFG_DONE = 0) : Puts .pgoodFail s [(I.pinPgood, 0, 0)] := by
  rw [Puts, exec_pgoodFail, on_of_zero hdone]
  rfl

theorem refclkLoss_fatal (hdown : LinksDown s) (hquiet : bitOf (s.rd F.MLS_ERRSEL_SEL) 6 = false)
    (hm : s.mode = mBOOT ∨ s.mode = mSERVICE ∨ s.mode = mDRAIN) : exec .refclkLoss s = .next (fencedFrom (puts s
      [(F.PMU_CLK_REFLOSS, 0, 1), (F.PMU_CLK_PLLLOCK, 0, 0), (I.tickRun, 0, 0), (F.PMU_IRQSTAT_REFLOSS, 0, 1)]) 10) := by
  show execRefclkLoss s = _
  unfold execRefclkLoss
  rw [if_pos (mode_in_use hm).2.1]
  exact congrArg Host.Outcome.next (fatalError_puts [(F.PMU_CLK_REFLOSS, 0, 1), (F.PMU_CLK_PLLLOCK, 0, 0), (I.tickRun, 0, 0),
    (F.PMU_IRQSTAT_REFLOSS, 0, 1)] 10 (by decide) hdown hquiet (mode_in_use hm).2.2)

theorem refclkLoss_off (hm : s.mode = mRESET ∨ s.mode = mWATCH) : exec .refclkLoss s = .next s := by
  show execRefclkLoss s = _
  unfold execRefclkLoss
  rw [if_neg]
  unfold State.fabric
  rcases hm with h | h <;> rw [h] <;> decide

end

/-! ## What going down leaves alone -/

/-- The cells of ports and links that an entry to FENCED or WATCH writes as they go down. -/
def interfaceCells : List Fld :=
  [F.PKE_P_STAT_UP, F.PKE_P_STAT_ANDONE, F.PKE_P_STAT_FECACT, F.PKE_P_STAT_LINKCHG, F.PKE_IRQSTAT_LINK,
   F.CWY_L_CNT_COUNT, F.CWY_IRQSTAT_CNTOVF, F.CWY_CNT_COUNT, F.CWY_MBS_CMD_GO, F.CWY_MBS_CMD_RESULT, F.CWY_FENCECMD_GO,
   F.CWY_FENCECMD_RESULT, F.CWY_RA_CMD_GO, F.CWY_RA_CMD_RESULT, F.CWY_L_STAT_UP, F.CWY_L_STAT_LINKCHG,
   F.CWY_IRQSTAT_LINK, F.CWY_L_STAT_STATE, I.cwSent, I.cwGot, I.cwRounds, I.tmHave]

theorem portDown_cells (s : State) (p : Nat) : SameOtherCells s (portDown s p) interfaceCells := by
  unfold portDown
  refine sameOtherCells_ite ?_ (.refl _ _)
  exact .wr (.wr (.wr (.wr (.wr (.refl _ _) (by simp [interfaceCells])) (by simp [interfaceCells]))
    (by simp [interfaceCells])) (by simp [interfaceCells])) (by simp [interfaceCells])

theorem cwUnreach_cells (s : State) (who : Nat) : SameOtherCells s (cwUnreach s who) interfaceCells := by
  have hcount : SameOtherCells s (cwCnt s 0) interfaceCells :=
    sameOtherCells_bump (.refl _ _) (by simp [interfaceCells]) (by simp [interfaceCells])
  unfold cwUnreach
  dsimp only
  split
  · exact .wr (hcount.wr (by simp [interfaceCells])) (by simp [interfaceCells])
  · exact .wr (hcount.wr (by simp [interfaceCells])) (by simp [interfaceCells])
  · exact .wr (hcount.wr (by simp [interfaceCells])) (by simp [interfaceCells])
  · exact hcount

theorem linkCnt_cells {s t : State} (h : SameOtherCells s t interfaceCells) (l k n : Nat) :
    SameOtherCells s (linkCnt t l k n) interfaceCells :=
  sameOtherCells_bumpBy h (by simp [interfaceCells]) (by simp [interfaceCells])

theorem cwDown_cells (s : State) (l : Nat) : SameOtherCells s (cwDown s l) interfaceCells := by
  unfold cwDown
  refine sameOtherCells_ite (.refl _ _) ?_
  have hwait : SameOtherCells s ((linkOf s l).waiting.foldl (fun s e => cwUnreach s e.1)
      (linkCnt (setLink s l Link.empty) l 5 (linkOf s l).replay.length)) interfaceCells :=
    sameOtherCells_foldl (linkCnt_cells (fun _ _ _ => rfl) l 5 _) fun u e => cwUnreach_cells u e.1
  dsimp only
  generalize (linkOf s l).waiting.foldl _ _ = u at *
  refine .wr (.wr (.wr (.wr (.wr (sameOtherCells_ite (linkCnt_cells (.wr (.wr (.wr hwait ?_) ?_) ?_) l 4 1) hwait)
    ?_) ?_) ?_) ?_) ?_ <;> simp [interfaceCells]

theorem fenceInterfaces_cells (s : State) : SameOtherCells s (fenceInterfaces s) interfaceCells :=
  sameOtherCells_foldl (sameOtherCells_foldl (fun _ _ _ => rfl) portDown_cells) cwDown_cells

/-! ## Mode requests -/

/-- A requested mode has been entered (R68, R69). -/
def ModeEntered (t : State) (target : Nat) : Prop :=
  t.mode = target ∧ t.rd F.PMU_MODE_CAUSE = 4 ∧ t.rd F.PMU_IRQSTAT_MODEDONE = 1

/-- The cells of the mode, which what follows a change of mode leaves alone. -/
def modeCells : List Fld := [F.PMU_MODE_CURRENT, F.PMU_MODE_CAUSE, F.PMU_IRQSTAT_MODEDONE]

theorem ModeEntered.of_cells {t u : State} {target : Nat} (h : ModeEntered t target)
    (hu : ∀ g ∈ modeCells, u.rd g = t.rd g) : ModeEntered u target := by
  obtain ⟨hmode, hcause, hdone⟩ := h
  exact ⟨(hu _ (by simp [modeCells])).trans hmode, (hu _ (by simp [modeCells])).trans hcause,
    (hu _ (by simp [modeCells])).trans hdone⟩

theorem modeEntered_puts (s : State) {target : Nat} (h : target < 8) :
    ModeEntered (puts s [(F.PMU_MODE_CURRENT, 0, target), (F.PMU_MODE_CAUSE, 0, 4), (F.PMU_IRQSTAT_MODEDONE, 0, 1)]) target := by
  unfold ModeEntered State.mode
  simp (disch := decide) only [puts_cons, puts_nil, State.rd_wr_cell, State.rd_wr_same]
  exact ⟨Nat.mod_eq_of_lt h, rfl, rfl⟩

theorem fenceInterfaces_mode (s : State) : ∀ g ∈ modeCells, (fenceInterfaces s).rd g = s.rd g := by
  have hids : ∀ g ∈ modeCells, ∀ f ∈ interfaceCells, f.id ≠ g.id := by decide
  exact fun g hg => fenceInterfaces_cells s g 0 (hids g hg)

theorem enterWatch_entered (s : State) : ModeEntered (enterWatch s 4) mWATCH := by
  refine (modeEntered_puts (cpgAtWatch s) (target := mWATCH) (by decide)).of_cells fun g hg => ?_
  have hids : ∀ g ∈ modeCells, I.watchFromReset.id ≠ g.id ∧ I.watchEntry.id ≠ g.id ∧ I.bootPh.id ≠ g.id := by decide
  obtain ⟨h1, h2, h3⟩ := hids g hg
  unfold enterWatch
  simp only [State.set_eq_wr]
  rw [State.rd_wr_cell _ _ _ _ _ _ h3, State.rd_wr_cell _ _ _ _ _ _ h2, State.rd_wr_cell _ _ _ _ _ _ h1,
    fenceInterfaces_mode _ g hg]
  rfl

theorem enterFenced_entered {s : State} (h1 : s.mode ≠ mRESET) (h2 : s.mode ≠ mFENCED) :
    ModeEntered (enterFenced s 4) mFENCED := by
  refine (modeEntered_puts s (target := mFENCED) (by decide)).of_cells fun g hg => ?_
  have hids : ∀ g ∈ modeCells, I.fencePend.id ≠ g.id ∧ I.watchEntry.id ≠ g.id ∧ I.wakePend.id ≠ g.id ∧
      I.bootPh.id ≠ g.id ∧ I.pinPen.id ≠ g.id := by decide
  obtain ⟨i1, i2, i3, i4, i5⟩ := hids g hg
  unfold enterFenced
  rw [if_neg (by simpa using h1), if_neg (by simpa using h2)]
  dsimp only
  rw [fenceInterfaces_mode _ g hg, setPens_other _ _ _ _ i5]
  simp only [State.set_eq_wr]
  rw [State.rd_wr_cell _ _ _ _ _ _ i4, State.rd_wr_cell _ _ _ _ _ _ i3, State.rd_wr_cell _ _ _ _ _ _ i2,
    State.rd_wr_cell _ _ _ _ _ _ i1]
  rfl

/-- PERSTSEEN is the only cell that PERST_N low sets. -/
theorem perstSeen_cells (s : State) : SameOtherCells s (perstSeen s) [F.HIF_LINKSTAT_PERSTSEEN] :=
  sameOtherCells_ite (.refl _ _) (.wr (.refl _ _) (by simp))

theorem enterBoot_entered (s : State) : ModeEntered (enterBoot s 4) mBOOT := by
  -- what is lost before the writes of BOOT does not matter
  obtain ⟨u, hu⟩ : ∃ u, enterBoot s 4 = perstSeen ((List.range 8).foldl
      (fun s k => if s.rd I.pinPen k = 0 then s.wr I.pinPen k 1 else s)
      (puts u [(F.PMU_MODE_CURRENT, 0, mBOOT), (F.PMU_MODE_CAUSE, 0, 4), (I.bootPh, 0, 1), (I.watchEntry, 0, 0),
        (I.wakePend, 0, 0), (I.watchFromReset, 0, 0), (F.PMU_IRQSTAT_MODEDONE, 0, 1)])) := ⟨_, rfl⟩
  have hbase : ModeEntered (puts u [(F.PMU_MODE_CURRENT, 0, mBOOT), (F.PMU_MODE_CAUSE, 0, 4), (I.bootPh, 0, 1),
      (I.watchEntry, 0, 0), (I.wakePend, 0, 0), (I.watchFromReset, 0, 0), (F.PMU_IRQSTAT_MODEDONE, 0, 1)]) mBOOT := by
    unfold ModeEntered State.mode
    simp (disch := decide) only [puts_cons, puts_nil, State.rd_wr_cell, State.rd_wr_same]
    exact ⟨rfl, rfl, rfl⟩
  rw [hu]
  refine hbase.of_cells fun g hg => ?_
  have hids : ∀ g ∈ modeCells, F.HIF_LINKSTAT_PERSTSEEN.id ≠ g.id ∧ I.pinPen.id ≠ g.id := by decide
  obtain ⟨h1, h2⟩ := hids g hg
  refine (perstSeen_cells _ g 0 (by simpa using h1)).trans ?_
  refine sameOtherCells_foldl (l := [I.pinPen]) (.refl _ _) (fun v k => ?_) g 0 (by simpa using h2)
  exact sameOtherCells_ite (.wr (.refl _ _) (by simp)) (.refl _ _)

/-- The requests of the table, as the machine tests them. -/
theorem requestAllowed_iff (s : State) (target : Nat) : requestAllowed s target = true ↔ MayRequest s target := by
  unfold requestAllowed MayRequest
  simp only [Bool.or_eq_true, Bool.and_eq_true, beq_iff_eq, bne_iff_ne, Bool.not_eq_true', on_flag _ _ (show
    F.SYS_BOOTSTAT_AUTH.w = 1 from rfl), decide_eq_true_eq, or_assoc, and_assoc]

/-- Storing TARGET or REFUSED does not change which requests are allowed. -/
theorem mayRequest_wr (s : State) {f : Fld} (hf : f ∈ [F.PMU_MODE_TARGET, F.PMU_MODE_REFUSED]) (v n : Nat) :
    MayRequest (s.wr f 0 v) n ↔ MayRequest s n := by
  have hids : ∀ f ∈ [F.PMU_MODE_TARGET, F.PMU_MODE_REFUSED], ∀ g ∈ [F.PMU_MODE_CURRENT, F.SYS_BOOTSTAT_AUTH,
      F.CHW_CTX_STAT_STATE, I.mapLvl, I.mapPage], f.id ≠ g.id := by decide
  have hrd : ∀ g ∈ [F.PMU_MODE_CURRENT, F.SYS_BOOTSTAT_AUTH, F.CHW_CTX_STAT_STATE, I.mapLvl, I.mapPage], ∀ j,
      (s.wr f 0 v).rd g j = s.rd g j := fun g hg j => State.rd_wr_cell _ _ _ _ _ _ (hids f hf g hg)
  simp only [List.mem_cons, List.not_mem_nil, or_false, forall_eq_or_imp, forall_eq] at hrd
  obtain ⟨hmode, hauth, hstate, hlvl, hpage⟩ := hrd
  have hlive : liveChannel (s.wr f 0 v) = liveChannel s := by
    have hctx : contexts (s.wr f 0 v) = contexts s :=
      nonzero_puts s [(f, 0, v)] _ (by simpa using hids f hf F.CHW_CTX_STAT_STATE (by simp))
    have hmem : ∀ a k, (s.wr f 0 v).readLE a k = s.readLE a k := fun _ _ => rfl
    unfold liveChannel ctxState channelState lvl pageAddr
    simp only [hctx, hmem, hstate, hlvl, hpage]
  unfold MayRequest State.mode
  simp only [hmode, hauth, hlive]

section
variable {s : State} (ini : Init) (v : Word) (hf : s.fabric = true)
include hf

/-- The state after TARGET has been stored: a reserved code leaves it (R8). -/
def targetStored (s : State) (v : Word) : State :=
  if bits v.toNat 18 16 ≤ 5 then puts s [(F.PMU_MODE_TARGET, 0, bits v.toNat 18 16)] else s

theorem exec_modeRequest : exec (.modeRequest ini v) s = .next (
    let u := targetStored s v
    let target := u.rd F.PMU_MODE_TARGET
    if bitOf v.toNat 31 then
      if requestAllowed u target then takeRequest (u.set F.PMU_MODE_REFUSED 0) target
      else (u.set F.PMU_MODE_REFUSED 1).set F.PMU_IRQSTAT_MODEREFUSED 1
    else u) := by
  show execModeRequest ini v s = _
  unfold execModeRequest
  rw [if_pos hf]
  rfl

end

theorem mayRequest_targetStored (s : State) (v : Word) (n : Nat) : MayRequest (targetStored s v) n ↔ MayRequest s n := by
  unfold targetStored
  split
  · exact mayRequest_wr s (by simp) _ n
  · rfl

theorem targetStored_mode (s : State) (v : Word) : (targetStored s v).mode = s.mode := by
  unfold targetStored
  split
  · exact State.rd_wr_cell s F.PMU_MODE_TARGET F.PMU_MODE_CURRENT _ _ _ (by decide)
  · rfl

/-- An accepted request, but for those that stay in SERVICE and DRAIN, enters its mode. -/
theorem takeRequest_entered {u : State} {target : Nat} (hok : MayRequest u target) (hne : target ≠ u.mode) :
    ModeEntered (takeRequest u target) target := by
  unfold takeRequest
  rcases hok with ⟨-, rfl, -⟩ | ⟨-, rfl⟩ | ⟨-, rfl⟩ | ⟨-, rfl, -⟩ | ⟨-, rfl⟩ | ⟨h, rfl⟩
  · exact modeEntered_puts u (target := mSERVICE) (by decide)
  · exact modeEntered_puts u (target := mDRAIN) (by decide)
  · exact modeEntered_puts u (target := mSERVICE) (by decide)
  · rw [if_pos rfl]
    exact enterWatch_entered u
  · rw [if_neg (by decide), if_pos rfl]
    exact enterBoot_entered u
  · rw [if_neg (by decide), if_neg (by decide), if_pos rfl]
    exact enterFenced_entered h (Ne.symm hne)

/-- Settles O12: the fatal errors, and the requests of PMU_MODE. -/
theorem modesFollowErrorsAndRequests : Obligations.ModesFollowErrorsAndRequests := by
  unfold Obligations.ModesFollowErrorsAndRequests
  refine ⟨fun s hdown hquiet => ⟨seqPgtimeout_fatal hdown hquiet, seqPgtimeout_idle, pgoodFail_fatal hdown hquiet,
    pgoodFail_shown, refclkLoss_fatal hdown hquiet, refclkLoss_off⟩, fun s ini v hf => ?_⟩
  intro n u target
  have hu : u = targetStored s v := rfl
  have hexec := exec_modeRequest ini v hf
  rw [← hu, bitOf_31] at hexec
  dsimp only at hexec
  have hmay : requestAllowed u target = true ↔ MayRequest s target :=
    (requestAllowed_iff u target).trans (mayRequest_targetStored s v target)
  have hmode : u.mode = s.mode := targetStored_mode s v
  refine ⟨fun hlow => ?_, fun hgo => ?_⟩
  · rw [hexec, if_neg (by simpa using hlow)]
  · rw [if_pos (by simpa using hgo)] at hexec
    refine ⟨fun hno => ?_, fun hok hstay => ?_, fun hok hne => ?_⟩
    · rw [hexec, if_neg (by rw [hmay]; exact hno)]
      rfl
    · rw [hexec, if_pos (hmay.mpr hok)]
      change Host.Outcome.next (takeRequest (u.set F.PMU_MODE_REFUSED 0) target) = _
      rcases hstay with h | h <;> rw [h] <;> rfl
    · rw [if_pos (hmay.mpr hok)] at hexec
      refine ⟨_, hexec, takeRequest_entered ?_ ?_⟩
      · rw [State.set_eq_wr, mayRequest_wr u (by simp)]
        exact (mayRequest_targetStored s v target).mpr hok
      · rw [State.mode, State.set_eq_wr, State.rd_wr_cell _ _ _ _ _ _ (by decide)]
        exact fun h => hne (h.trans hmode)

end Sys2Proof.Machine
end

section
/-! PROOFS.  The boot ROM's check of an image from UART (chapter 3). -/

namespace Sys2Proof.Machine

open Safety

set_option Elab.async false

theorem imageRangeOk_iff (h : List Byte) : imageRangeOk h = true ↔
    hdrLE h 8 4 ≤ 64 ∧ hdrLE h 0x0C 4 % 16 = 0 ∧ hdrLE h 0x0C 4 ≤ 6 * 2 ^ 20 ∧ 0x20000000 ≤ hdrLE h 0x10 8 ∧
      hdrLE h 0x10 8 + hdrLE h 0x0C 4 ≤ 0x20800000 ∧ hdrLE h 0x10 8 ≤ hdrLE h 0x18 8 ∧
      hdrLE h 0x18 8 < hdrLE h 0x10 8 + hdrLE h 0x0C 4 := by
  simp only [imageRangeOk, Bool.and_eq_true, decide_eq_true_eq, and_assoc]

/-- Checks 1 to 5 of R77 find a fault of the listed codes, or the header passes. -/
theorem headerFault_cases (s : State) (h : List Byte) :
    (HeaderPasses s h ∧ headerFault s h = none) ∨
      (¬ HeaderPasses s h ∧ ∃ code ∈ [0x10, 0x11, 0x12, 0x14, 0x15], headerFault s h = some code) := by
  have h1 : (hdrBytes h 0 4 == [0x41#8, 0x4C#8, 0x42#8, 0x49#8] && hdrLE h 4 2 == 1 && hdrLE h 7 1 == 0 &&
      (hdrBytes h 0xE0 32).all (· == 0)) = true ↔ hdrBytes h 0 4 = [0x41, 0x4C, 0x42, 0x49] ∧ hdrLE h 4 2 = 1 ∧
        hdrLE h 7 1 = 0 ∧ ∀ b ∈ hdrBytes h 0xE0 32, b = 0 := by
    simp only [Bool.and_eq_true, beq_iff_eq, List.all_eq_true, and_assoc]
    rfl
  have h2 : (decide (hdrLE h 6 1 ≤ 3) && slotUsable s (hdrLE h 6 1)) = true ↔
      hdrLE h 6 1 ≤ 3 ∧ slotUsable s (hdrLE h 6 1) = true := by
    rw [Bool.and_eq_true, decide_eq_true_eq]
  have h3 : (Config.sha384 (hdrBytes h 0x20 96) == keySlot s (hdrLE h 6 1)) = true ↔
      Config.sha384 (hdrBytes h 0x20 96) = keySlot s (hdrLE h 6 1) := beq_iff_eq
  unfold headerFault HeaderPasses
  dsimp only
  rw [← h1, ← h2, ← h3, ← imageRangeOk_iff]
  generalize (hdrBytes h 0 4 == _ && _ && _ && _) = magic
  generalize (decide (hdrLE h 6 1 ≤ 3) && _) = slot
  generalize (Config.sha384 _ == _) = key
  generalize imageRangeOk h = range
  clear h1 h2 h3
  split
  · exact .inr ⟨by simp_all, _, by simp, rfl⟩
  split
  · exact .inr ⟨by simp_all, _, by simp, rfl⟩
  split
  · exact .inr ⟨by simp_all, _, by simp, rfl⟩
  split
  · next hroll => exact .inr ⟨fun hp => absurd hp.2.2.2.1 (Nat.not_le.mpr hroll), _, by simp, rfl⟩
  split
  · exact .inr ⟨by simp_all, _, by simp, rfl⟩
  · next hroll _ => exact .inl ⟨⟨by simp_all, by simp_all, by simp_all, Nat.not_lt.mp hroll, by simp_all⟩, rfl⟩

/-- A rejected image from UART: its code, and the boot ROM waits for a new one (R78). -/
theorem imageRejected_uart {s : State} (h : s.rd I.bootSrc = 3) (code : Nat) :
    imageRejected s code = puts s [(F.SYS_BOOTSTAT_CODE, 0, code), (I.romSt, 0, 1)] := by
  unfold imageRejected
  dsimp only
  rw [if_neg]
  · rfl
  · simp (disch := decide) only [State.set_eq_wr, State.rd_wr_cell]
    rw [h]
    decide

theorem bootImageCheck_busy {s : State} (h : s.rd I.romSt ≠ 1) (r : Bool) (hdr body : List Byte) :
    exec (.bootImageCheck r hdr body) s = .next s := by
  show execBootImageCheck r hdr body s = _
  unfold execBootImageCheck
  rw [if_neg (by simp [h])]

section
variable {s : State} (hm : s.mode = mBOOT) (hrom : s.rd I.romSt = 1) (hsrc : s.rd I.bootSrc = 3)
include hm hrom hsrc

theorem bootImageCheck_timeout (hdr body : List Byte) :
    Puts (.bootImageCheck false hdr body) s [(F.SYS_BOOTSTAT_CODE, 0, 0x20), (I.romSt, 0, 1)] := by
  show execBootImageCheck false hdr body s = _
  unfold execBootImageCheck
  rw [if_pos (by simp [hm, hrom]), if_pos (by decide), imageRejected_uart hsrc]

/-- The state in which an image from UART is checked. -/
theorem exec_bootImageCheck_uart (hdr body : List Byte) : exec (.bootImageCheck true hdr body) s =
    .next (checkFromSource (puts s [(F.HIF_DOORBELL_H2S, 0, s.rd F.HIF_DOORBELL_H2S), (I.bootImg, 0, 0),
      (F.SYS_BOOTSTAT_CODE, 0, 0)]) hdr body) := by
  show execBootImageCheck true hdr body s = _
  unfold execBootImageCheck
  rw [if_pos (by simp [hm, hrom]), if_neg (by decide), if_neg (by simp [imagePresented, hsrc])]
  dsimp only
  rw [if_neg]
  · rw [if_neg (by rw [hsrc]; decide)]
    rfl
  · unfold bootInSym
    simp (disch := decide) only [State.set_eq_wr, State.rd_wr_cell]
    rw [hsrc]
    decide

end

/-- Settles O14: the checks of the header, then the signature. -/
theorem bootRomRunsOnlyWhatPasses : Obligations.BootRomRunsOnlyWhatPasses := by
  unfold Obligations.BootRomRunsOnlyWhatPasses
  refine fun s hdr body => ⟨fun h r => bootImageCheck_busy h r hdr body, fun hm hrom hsrc => ?_⟩
  intro b u
  have hexec := exec_bootImageCheck_uart hm hrom hsrc hdr body
  change _ = Host.Outcome.next (checkFromSource u hdr body) at hexec
  have hother : SameOtherCells s u [F.HIF_DOORBELL_H2S, I.bootImg, F.SYS_BOOTSTAT_CODE] := sameOtherCells_puts s _
  have hsrc' : u.rd I.bootSrc = 3 := (hother I.bootSrc 0 (by decide)).trans hsrc
  have hfault : headerFault u hdr = headerFault s hdr :=
    headerFault_congr s u hdr fun w => hother F.FUS_SHADOW_WORD w (by decide)
  have hplaced : (u.writeBytes (hdrLE hdr 0x10 8) b).rd I.bootSrc = 3 := (State.writeBytes_rd _ _ _ _ _).trans hsrc'
  have hcases := headerFault_cases s hdr
  rw [hexec]
  unfold checkFromSource
  rw [hfault]
  refine ⟨bootImageCheck_timeout hm hrom hsrc hdr body, fun hp hsig => ?_, fun hp hsig => ?_, fun hp => ?_⟩
  · obtain ⟨-, hnone⟩ := hcases.resolve_right fun h => h.1 hp
    rw [hnone]
    dsimp only
    rw [if_pos hsig]
    rfl
  · obtain ⟨-, hnone⟩ := hcases.resolve_right fun h => h.1 hp
    rw [hnone]
    dsimp only
    rw [if_neg (by rw [hsig]; decide)]
    exact congrArg _ (imageRejected_uart hplaced 0x13)
  · obtain ⟨-, code, hcode, hsome⟩ := hcases.resolve_left fun h => hp h.1
    rw [hsome]
    exact ⟨code, hcode, congrArg _ (imageRejected_uart hsrc' code)⟩

end Sys2Proof.Machine
end

section
/-! PROOFS.  Burning fuses and tightening the protection map (chapter 3). -/

namespace Sys2Proof.Machine

open Safety

set_option Elab.async false

/-! ## FUS_PROG -/

theorem slotLive_iff (s : State) (k : Nat) : slotLive s k = true ↔
    (∃ j, j < 12 ∧ s.rd I.fuseArray (12 * k + j) ≠ 0) ∧ bitOf (s.rd I.fuseArray 48) k = false := by
  simp [slotLive, State.on]

/-- The burn that R81 forbids, as the machine tests it. -/
theorem revokesLast_iff (s : State) (word bit : Nat) : revokesLast s word bit = true ↔ LastKeyRevoked s word bit := by
  unfold revokesLast LastKeyRevoked
  simp only [← slotLive_iff, Bool.and_eq_true, beq_iff_eq, decide_eq_true_eq, Bool.not_eq_true', and_assoc,
    List.any_eq_false, List.mem_range, bne_iff_ne]
  refine and_congr_right fun _ => and_congr_right fun _ => and_congr_right fun _ => forall_congr' fun k => ?_
  exact forall_congr' fun _ => ⟨fun h hk hl => h ⟨hk, hl⟩, fun h hl => h hl.1 hl.2⟩

theorem fromSupervisor_iff (s : State) (ini : Init) : fromSupervisor s ini = true ↔
    ∃ n : Fin 4, ini = .svc n ∧ bitOf (s.rd I.scr (n.val * 16)) 0 = true := by
  unfold fromSupervisor
  cases ini <;> simp

/-- The writes of FUS_PROG that every access makes. -/
def progNamed (vfuse : Bool) (v : Word) : List (Fld × Nat × Nat) :=
  [(F.FUS_STAT_VFUSEOK, 0, b2n vfuse), (F.FUS_PROG_WORD, 0, bits v.toNat 22 16), (F.FUS_PROG_BIT, 0, bits v.toNat 4 0)]

/-- The conditions of R81 and R83. -/
def MayBurn (s : State) (ini : Init) (vfuse : Bool) (v : Word) : Prop :=
  (∃ n : Fin 4, ini = .svc n ∧ bitOf (s.rd I.scr (n.val * 16)) 0 = true) ∧ vfuse = true ∧
    (s.mode = mBOOT ∨ s.mode = mSERVICE) ∧ ¬ LastKeyRevoked s (bits v.toNat 22 16) (bits v.toNat 4 0)

theorem progNamed_rd (s : State) (vfuse : Bool) (v : Word) : let u := puts s (progNamed vfuse v)
    u.rd F.FUS_PROG_WORD = bits v.toNat 22 16 ∧ u.rd F.FUS_PROG_BIT = bits v.toNat 4 0 ∧
      SameOtherCells s u [F.FUS_STAT_VFUSEOK, F.FUS_PROG_WORD, F.FUS_PROG_BIT] := by
  refine ⟨?_, ?_, sameOtherCells_puts s _⟩
  all_goals
    unfold progNamed
    simp (disch := decide) only [puts_cons, puts_nil, State.rd_wr_cell, State.rd_wr_same]
    exact Nat.mod_eq_of_lt (bits_lt _ _ _)

theorem mayBurn_iff (s : State) (ini : Init) (vfuse : Bool) (v : Word) :
    let u := puts s (progNamed vfuse v)
    (fromSupervisor u ini && vfuse && (u.mode == mBOOT || u.mode == mSERVICE) &&
      !revokesLast u (u.rd F.FUS_PROG_WORD) (u.rd F.FUS_PROG_BIT)) = true ↔ MayBurn s ini vfuse v := by
  obtain ⟨hword, hbit, hother⟩ := progNamed_rd s vfuse v
  generalize puts s (progNamed vfuse v) = u at *
  have hscr : ∀ j, u.rd I.scr j = s.rd I.scr j := fun j => hother _ _ (by decide)
  have harray : ∀ j, u.rd I.fuseArray j = s.rd I.fuseArray j := fun j => hother _ _ (by decide)
  have hmode : u.mode = s.mode := hother _ _ (by decide)
  dsimp only
  rw [hword, hbit, hmode]
  unfold MayBurn LastKeyRevoked
  simp only [Bool.and_eq_true, Bool.or_eq_true, beq_iff_eq, fromSupervisor_iff, Bool.not_eq_true', ← Bool.not_eq_true,
    revokesLast_iff, LastKeyRevoked, hscr, harray, and_assoc]

theorem exec_fusProg {s : State} (ini : Init) (vfuse : Bool) (v : Word) (hf : s.fabric = true) :
    exec (.fusProg ini vfuse v) s = .next (fusProgWrite s ini vfuse v.toNat) :=
  if_pos hf

theorem fusProg_named {s : State} (ini : Init) (vfuse : Bool) (v : Word) (hf : s.fabric = true)
    (h : s.rd F.FUS_STAT_BUSY = 1 ∨ v.toNat < 2 ^ 31) : Puts (.fusProg ini vfuse v) s (progNamed vfuse v) := by
  obtain ⟨-, -, hother⟩ := progNamed_rd s vfuse v
  have hbusy : (puts s (progNamed vfuse v)).on F.FUS_STAT_BUSY = s.on F.FUS_STAT_BUSY := by
    rw [State.on, State.on, hother _ _ (by decide)]
  refine (exec_fusProg ini vfuse v hf).trans (congrArg _ ?_)
  refine if_pos ?_
  change (!bitOf v.toNat 31 || (puts s (progNamed vfuse v)).on F.FUS_STAT_BUSY) = true
  rw [hbusy, bitOf_31]
  rcases h with h | h
  · simp [on_of_one h]
  · rw [decide_eq_false (Nat.not_le.mpr h)]
    rfl

theorem fusProg_go {s : State} (ini : Init) (vfuse : Bool) (v : Word) (hf : s.fabric = true)
    (hidle : s.rd F.FUS_STAT_BUSY = 0) (hgo : 2 ^ 31 ≤ v.toNat) :
    (MayBurn s ini vfuse v → Puts (.fusProg ini vfuse v) s (progNamed vfuse v ++
      [(F.FUS_STAT_BUSY, 0, 1), (F.FUS_PROG_GO, 0, 1), (I.fuseBurn, 0, bits v.toNat 22 16 * 32 + bits v.toNat 4 0 + 1)])) ∧
    (¬ MayBurn s ini vfuse v → Puts (.fusProg ini vfuse v) s (progNamed vfuse v ++ [(F.FUS_STAT_PROGERR, 0, 1)])) := by
  obtain ⟨hword, hbit, hother⟩ := progNamed_rd s vfuse v
  have hmay := mayBurn_iff s ini vfuse v
  have hstart : fusProgWrite s ini vfuse v.toNat = (let u := puts s (progNamed vfuse v)
      if fromSupervisor u ini && vfuse && (u.mode == mBOOT || u.mode == mSERVICE) &&
          !revokesLast u (u.rd F.FUS_PROG_WORD) (u.rd F.FUS_PROG_BIT) then
        ((u.set F.FUS_STAT_BUSY 1).set F.FUS_PROG_GO 1).set I.fuseBurn (u.rd F.FUS_PROG_WORD * 32 + u.rd F.FUS_PROG_BIT + 1)
      else u.set F.FUS_STAT_PROGERR 1) := by
    refine if_neg ?_
    change ¬ (!bitOf v.toNat 31 || (puts s (progNamed vfuse v)).on F.FUS_STAT_BUSY) = true
    rw [State.on, hother _ _ (by decide), hidle, bitOf_31, decide_eq_true hgo]
    decide
  have hexec := (exec_fusProg ini vfuse v hf).trans (congrArg _ hstart)
  dsimp only at hexec hmay
  rw [hword, hbit] at hexec hmay
  unfold Puts
  simp only [puts_append]
  generalize puts s (progNamed vfuse v) = u at *
  refine ⟨fun h => ?_, fun h => ?_⟩
  · exact hexec.trans (congrArg _ (if_pos (hmay.mpr h)))
  · exact hexec.trans (congrArg _ (if_neg fun hc => h (hmay.mp hc)))

/-! ## FUSE_BURN_DONE -/

theorem setBit_lt {v k n : Nat} (hv : v < 2 ^ n) (hk : k < n) : setBit v k < 2 ^ n := putBit_lt (b := true) hv hk

theorem fuseBurnDone_case {s : State} {word bit : Nat} (hbit : bit < 32) (hburn : s.rd I.fuseBurn = word * 32 + bit + 1) :
    Does .fuseBurnDone s fun t =>
      (∀ w k, k < 32 → bitOf (t.rd I.fuseArray w) k = (bitOf (s.rd I.fuseArray w) k || (w == word && k == bit))) ∧
      t.rd I.fuseBurn = 0 ∧ t.rd F.FUS_STAT_BUSY = 0 ∧ t.rd F.FUS_PROG_GO = 0 ∧
      OnlyCells s t [(I.fuseArray, word), (I.fuseBurn, 0), (F.FUS_STAT_BUSY, 0), (F.FUS_PROG_GO, 0)] := by
  have hexec : exec .fuseBurnDone s = .next (puts s [(I.fuseArray, word, setBit (s.rd I.fuseArray word) bit),
      (I.fuseBurn, 0, 0), (F.FUS_STAT_BUSY, 0, 0), (F.FUS_PROG_GO, 0, 0)]) := by
    show execFuseBurnDone s = _
    unfold execFuseBurnDone
    rw [if_pos (on_of_ne_zero (by omega)), hburn]
    dsimp only
    rw [show (word * 32 + bit + 1 - 1) / 32 = word by omega, show (word * 32 + bit + 1 - 1) % 32 = bit by omega]
    rfl
  refine ⟨_, hexec, fun w k hk => ?_, ?_, ?_, ?_, OnlyCells.puts _ _⟩
  · simp (disch := decide) only [puts_cons, puts_nil, State.rd_wr_cell]
    rw [State.rd_wr]
    by_cases hw : word = w
    · subst hw
      have hlt : setBit (s.rd I.fuseArray word) bit < 2 ^ I.fuseArray.w := setBit_lt (State.rd_lt s I.fuseArray word) hbit
      rw [if_pos rfl, Nat.mod_eq_of_lt hlt, bitOf_setBit]
      simp
    · rw [if_neg hw]
      simp [Ne.symm hw]
  all_goals
    simp (disch := decide) only [puts_cons, puts_nil, State.rd_wr_cell, State.rd_wr_same, Nat.zero_mod]

theorem fuseBurnDone_idle {s : State} (h : s.rd I.fuseBurn = 0) : exec .fuseBurnDone s = .next s := by
  show execFuseBurnDone s = _
  unfold execFuseBurnDone
  rw [if_neg (by rw [on_of_zero h]; decide)]

/-! ## The protection map -/

theorem bitOf_land (a b k : Nat) : bitOf (Nat.land a b) k = (bitOf a k && bitOf b k) := by
  have htest : ∀ v, bitOf v k = v.testBit k := fun v => by
    rw [Nat.testBit_eq_decide_div_mod_eq, bitOf, beq_eq_decide]
  rw [htest, htest, htest]
  exact Nat.testBit_land a b k

theorem land_flag {a b : Nat} (ha : a < 2) (hb : b < 2) : Nat.land a b % 2 = min a b := by
  have hcases : ∀ a < 2, ∀ b < 2, Nat.land a b % 2 = min a b := by decide
  exact hcases a ha b hb

section
variable {s : State} (ini : Init) (v : Word) (hf : s.fabric = true)
include hf

theorem exec_protectionMapWrite (reg : Fin 6) :
    exec (.protectionMapWrite ini reg v) s = .next (protectionWrite s reg.val v.toNat) :=
  if_pos hf

/-- A word of rights keeps the rights that are written as 1 (R90). -/
theorem protection_rights (reg : Fin 6) {f : Fld}
    (h : protectionWrite s reg.val v.toNat = s.set f (Nat.land (s.rd f) v.toNat)) :
    Does (.protectionMapWrite ini reg v) s fun t =>
      (∀ b, b < 20 → bitOf (t.rd f) b = (bitOf (s.rd f) b && bitOf v.toNat b)) ∧ OnlyCells s t [(f, 0)] := by
  refine ⟨_, (exec_protectionMapWrite ini v hf reg).trans (congrArg _ h), fun b _ => ?_, .wr (.refl _ _) (by simp)⟩
  have hlt : Nat.land (s.rd f) v.toNat < 2 ^ f.w := Nat.lt_of_le_of_lt Nat.and_le_left (State.rd_lt s f 0)
  rw [State.set_eq_wr, State.rd_wr_same, Nat.mod_eq_of_lt hlt, bitOf_land]

theorem protection_bar2 : Does (.protectionMapWrite ini 4 v) s fun t =>
    t.rd F.FUS_PMBAR2_LO = max (s.rd F.FUS_PMBAR2_LO) (bits v.toNat 15 0) ∧
      t.rd F.FUS_PMBAR2_HI = min (s.rd F.FUS_PMBAR2_HI) (bits v.toNat 31 16) ∧
      OnlyCells s t [(F.FUS_PMBAR2_LO, 0), (F.FUS_PMBAR2_HI, 0)] := by
  refine ⟨_, exec_protectionMapWrite ini v hf 4, ?_⟩
  have hlo : bits v.toNat 15 0 < 2 ^ F.FUS_PMBAR2_LO.w := bits_lt _ _ _
  have hhi : bits v.toNat 31 16 < 2 ^ F.FUS_PMBAR2_HI.w := bits_lt _ _ _
  change _ ∧ _ ∧ OnlyCells s (tightenBar2 s v.toNat) _
  change (tightenBar2 s v.toNat).rd _ = _ ∧ (tightenBar2 s v.toNat).rd _ = _ ∧ _
  have hrd : ∀ (g : Fld) j, F.FUS_PMBAR2_LO.id ≠ g.id →
      (if s.rd F.FUS_PMBAR2_LO ≤ bits v.toNat 15 0 then s.set F.FUS_PMBAR2_LO (bits v.toNat 15 0) else s).rd g j = s.rd g j := by
    intro g j hg
    split
    · exact State.rd_wr_cell _ _ _ _ _ _ hg
    · rfl
  have honly : OnlyCells s (if s.rd F.FUS_PMBAR2_LO ≤ bits v.toNat 15 0 then s.set F.FUS_PMBAR2_LO (bits v.toNat 15 0) else s)
      [(F.FUS_PMBAR2_LO, 0), (F.FUS_PMBAR2_HI, 0)] := .ite (.wr (.refl _ _) (by simp)) (.refl _ _)
  have hlow : (if s.rd F.FUS_PMBAR2_LO ≤ bits v.toNat 15 0 then s.set F.FUS_PMBAR2_LO (bits v.toNat 15 0) else s).rd
      F.FUS_PMBAR2_LO = max (s.rd F.FUS_PMBAR2_LO) (bits v.toNat 15 0) := by
    split
    · next h => rw [State.set_eq_wr, State.rd_wr_same, Nat.mod_eq_of_lt hlo, max_eq_right h]
    · next h => rw [max_eq_left (Nat.le_of_not_le h)]
  unfold tightenBar2
  dsimp only
  generalize (if s.rd F.FUS_PMBAR2_LO ≤ bits v.toNat 15 0 then s.set F.FUS_PMBAR2_LO (bits v.toNat 15 0) else s) = u at *
  have hhigh := hrd F.FUS_PMBAR2_HI 0 (by decide)
  rw [hhigh]
  refine ⟨?_, ?_, .ite (.wr honly (by simp)) honly⟩
  · split
    · exact (State.rd_wr_cell _ _ _ _ _ _ (by decide)).trans hlow
    · exact hlow
  · split
    · next h => rw [State.set_eq_wr, State.rd_wr_same, Nat.mod_eq_of_lt hhi, min_eq_right h]
    · next h => rw [hhigh, min_eq_left (Nat.le_of_not_le h)]

theorem protection_misc : Does (.protectionMapWrite ini 5 v) s fun t =>
    t.rd F.FUS_PMMISC_RMBOX = min (s.rd F.FUS_PMMISC_RMBOX) (bitN v.toNat 2) ∧
      t.rd F.FUS_PMMISC_RMLS = min (s.rd F.FUS_PMMISC_RMLS) (bitN v.toNat 1) ∧
      t.rd F.FUS_PMMISC_RFENCE = min (s.rd F.FUS_PMMISC_RFENCE) (bitN v.toNat 0) ∧
      OnlyCells s t [(F.FUS_PMMISC_RMBOX, 0), (F.FUS_PMMISC_RMLS, 0), (F.FUS_PMMISC_RFENCE, 0)] := by
  have hflag : ∀ (f : Fld), f.w = 1 → s.rd f < 2 := fun f hw => by
    have := State.rd_lt s f 0
    rwa [hw] at this
  refine ⟨puts s [(F.FUS_PMMISC_RMBOX, 0, Nat.land (s.rd F.FUS_PMMISC_RMBOX) (bitN v.toNat 2)),
    (F.FUS_PMMISC_RMLS, 0, Nat.land (s.rd F.FUS_PMMISC_RMLS) (bitN v.toNat 1)),
    (F.FUS_PMMISC_RFENCE, 0, Nat.land (s.rd F.FUS_PMMISC_RFENCE) (bitN v.toNat 0))], ?_, ?_, ?_, ?_, OnlyCells.puts _ _⟩
  · exact exec_protectionMapWrite ini v hf 5
  all_goals
    simp (disch := decide) only [puts_cons, puts_nil, State.rd_wr_cell, State.rd_wr_same]
    exact land_flag (hflag _ rfl) (bitN_lt _ _)

end

/-- Settles O15: the burn of a fuse from FUS_PROG to its end, and the words of the protection map. -/
theorem fusesBurnAndProtectionTightens : Obligations.FusesBurnAndProtectionTightens := by
  unfold Obligations.FusesBurnAndProtectionTightens
  refine ⟨⟨fun s ini vfuse v hf => ⟨fusProg_named ini vfuse v hf, fusProg_go ini vfuse v hf⟩,
    fun s word bit _ hbit hburn => fuseBurnDone_case hbit hburn, fun s => fuseBurnDone_idle⟩,
    fun s ini v hf => ⟨fun k f hk => ?_, protection_bar2 ini v hf, protection_misc ini v hf⟩⟩
  match k, hk with
  | 0, hk => cases hk; exact protection_rights ini v hf 0 rfl
  | 1, hk => cases hk; exact protection_rights ini v hf 1 rfl
  | 2, hk => cases hk; exact protection_rights ini v hf 2 rfl
  | 3, hk => cases hk; exact protection_rights ini v hf 3 rfl

end Sys2Proof.Machine
end

section
/-! PROOFS.  The commands of the host interface (chapter 3). -/

namespace Sys2Proof.Machine

open Safety

set_option Elab.async false

/-- The registers that select a window, with a copy for each kind of initiator (R16). -/
def selectIndexCells : List Fld :=
  [F.TSU_SELECT_INDEX, F.QUE_SELECT_INDEX, F.TMU_SELECT_INDEX, F.TMU_WPSEL_INDEX, F.PKE_SELECT_INDEX,
   F.TDX_SELECT_INDEX, F.CWY_SELECT_INDEX, F.HMN_SELECT_INDEX, F.CHW_SELECT_INDEX, F.DMA_SELECT_INDEX]

/-- Their error bits. -/
def selectErrorCells : List Fld :=
  [F.TSU_SELECT_SELERR, F.QUE_SELECT_SELERR, F.TMU_SELECT_SELERR, F.TMU_WPSEL_SELERR, F.PKE_SELECT_SELERR,
   F.TDX_SELECT_SELERR, F.CWY_SELECT_SELERR, F.HMN_SELECT_SELERR, F.CHW_SELECT_SELERR, F.DMA_SELECT_SELERR]

/-- What PERST_N low writes (R16, R94, R532). -/
def perstWrites : List (Fld × Nat × Nat) :=
  [(I.pinPerst, 0, 0), (F.HIF_LINKSTAT_UP, 0, 0), (F.HIF_LINKSTAT_WIDTH, 0, 0), (F.HIF_LINKSTAT_SPEED, 0, 0),
   (F.HIF_BAR2BASE_BASE, 0, 0x100), (I.incrHeld, 16, 0), (I.incrHeld, 17, 0), (I.incrHeld, 18, 0), (I.incrHeld, 19, 0)] ++
  (selectIndexCells ++ selectErrorCells).map (fun f => (f, 4, 0)) ++ [(F.HIF_LINKSTAT_PERSTSEEN, 0, 1)]

/-- PERST_N low resets what the host set, cell by cell. -/
theorem exec_perstAssert {s : State} (hf : s.fabric = true) : exec .perstAssert s = .next (puts s perstWrites) := by
  have hf' : (s.set I.pinPerst 0).fabric = true := by
    rw [← hf]
    simp (disch := decide) only [State.fabric, State.mode, State.set_eq_wr, State.rd_wr_cell]
  show execPerstAssert s = _
  unfold execPerstAssert
  dsimp only
  rw [if_pos hf']
  rfl

theorem perstAssert_case {s : State} (hf : s.fabric = true) :
    Does .perstAssert s (fun t => t.rd F.HIF_LINKSTAT_UP = 0 ∧ t.rd F.HIF_LINKSTAT_WIDTH = 0 ∧ t.rd F.HIF_LINKSTAT_SPEED = 0 ∧
      t.rd F.HIF_LINKSTAT_PERSTSEEN = 1 ∧ t.rd F.HIF_BAR2BASE_BASE = 0x100 ∧ t.rd I.pinPerst = 0 ∧
      (∀ f ∈ selectIndexCells, t.rd f 4 = 0) ∧
      OnlyCells s t ([(F.HIF_LINKSTAT_UP, 0), (F.HIF_LINKSTAT_WIDTH, 0), (F.HIF_LINKSTAT_SPEED, 0), (F.HIF_LINKSTAT_PERSTSEEN, 0),
        (F.HIF_BAR2BASE_BASE, 0), (I.pinPerst, 0), (I.incrHeld, 16), (I.incrHeld, 17), (I.incrHeld, 18), (I.incrHeld, 19)] ++
        (selectIndexCells ++ selectErrorCells).map fun f => (f, 4))) := by
  have hdistinct : perstWrites.Pairwise fun p q => p.1.id ≠ q.1.id ∨ p.2.1 ≠ q.2.1 := by decide
  have hread : ∀ f i v, (f, i, v) ∈ perstWrites → (puts s perstWrites).rd f i = v % 2 ^ f.w := fun f i v h =>
    puts_rd_of_mem hdistinct h
  refine ⟨_, exec_perstAssert hf, hread _ _ 0 (by decide), hread _ _ 0 (by decide), hread _ _ 0 (by decide),
    hread _ _ 1 (by decide), hread _ _ 0x100 (by decide), hread _ _ 0 (by decide), fun f hmem => ?_, ?_⟩
  · have h := hread f 4 0 (by simp [perstWrites, hmem])
    rwa [Nat.zero_mod] at h
  · exact (OnlyCells.puts s perstWrites).mono (by decide)

section
variable {s : State} (ini : Init) (v : Word) (hf : s.fabric = true)
include hf

/-- Setting S2H sends MSI vector 0 (R93). -/
theorem dbsetS2h_case : Puts (.dbsetS2h ini) s [(F.HIF_DOORBELL_S2H, 0, 1), (I.msiSent, 0, s.rd I.msiSent + 1)] := by
  have hsent : (s.set F.HIF_DOORBELL_S2H 1).rd I.msiSent = s.rd I.msiSent := State.rd_wr_cell _ _ _ _ _ _ (by decide)
  refine (if_pos hf).trans ?_
  show Host.Outcome.next (sendMsi (s.set F.HIF_DOORBELL_S2H 1) 0) = _
  unfold sendMsi
  rw [hsent]
  rfl

theorem pcieLinkChange_up (w : BitVec 2) (r : BitVec 4) : Puts (.pcieLinkChange true w r) s [(I.pinPerst, 0, 1),
    (F.HIF_LINKSTAT_UP, 0, 1), (F.HIF_LINKSTAT_WIDTH, 0, w.toNat), (F.HIF_LINKSTAT_SPEED, 0, r.toNat)] :=
  if_pos hf

theorem pcieLinkChange_down (w : BitVec 2) (r : BitVec 4) : Puts (.pcieLinkChange false w r) s
    [(F.HIF_LINKSTAT_UP, 0, 0), (F.HIF_LINKSTAT_WIDTH, 0, 0), (F.HIF_LINKSTAT_SPEED, 0, 0)] :=
  if_pos hf

theorem exec_devnumWrite : exec (.devnumWrite ini v) s = .next (devnumWrite s v.toNat) := if_pos hf

theorem devnumWrite_first (h : s.rd F.SYS_DEVNUM_LOCKED = 0) : Does (.devnumWrite ini v) s fun t =>
    t.rd F.SYS_DEVNUM_DEVNUM = v.toNat % 2048 ∧ t.rd F.SYS_DEVNUM_LOCKED = 1 ∧
      OnlyCells s t [(F.SYS_DEVNUM_DEVNUM, 0), (F.SYS_DEVNUM_LOCKED, 0)] := by
  have hstore : devnumWrite s v.toNat = puts s [(F.SYS_DEVNUM_DEVNUM, 0, v.toNat), (F.SYS_DEVNUM_LOCKED, 0, 1)] :=
    if_neg (by rw [on_of_zero h]; decide)
  refine ⟨_, (exec_devnumWrite ini v hf).trans (congrArg _ hstore), ?_, ?_, OnlyCells.puts _ _⟩ <;>
    simp (disch := decide) only [puts_cons, puts_nil, State.rd_wr_cell, State.rd_wr_same] <;> rfl

theorem devnumWrite_locked (h : s.rd F.SYS_DEVNUM_LOCKED = 1) : exec (.devnumWrite ini v) s = .next s :=
  (exec_devnumWrite ini v hf).trans (congrArg _ (if_pos (on_of_one h)))

end

/-- Settles O16: command by command. -/
theorem hostInterfaceCommands : Obligations.HostInterfaceCommands := by
  unfold Obligations.HostInterfaceCommands
  refine fun s ini v w r hf => ⟨if_pos hf, dbsetS2h_case ini hf, if_pos hf, if_pos hf, perstAssert_case hf,
    pcieLinkChange_up hf w r, pcieLinkChange_down hf w r, devnumWrite_first ini v hf, devnumWrite_locked ini v hf⟩

end Sys2Proof.Machine
end

section
/-! PROOFS.  The power-down and the wake of a cluster (chapter 2). -/

namespace Sys2Proof.Machine

open Safety

set_option Elab.async false

theorem fabric_of_serving {s : State} (h : s.serving = true) : s.fabric = true := by
  unfold State.serving at h
  unfold State.fabric
  rcases Bool.or_eq_true_iff.mp h with h | h <;> simp [h]

section
variable {s : State} {c : Fin 8}

/-- The idle timer of a cluster runs when every core waits for a job and has none committed (R49). -/
theorem cluIdle_of_cores (h : ∀ k, k < 8 → (s.rd I.cJob (8 * c.val + k) = 0 ∧ s.rd I.waiting (8 * c.val + k) = 1 ∧
    halted s (8 * c.val + k) = false ∧ s.rd I.cNext (8 * c.val + k) = 0)) : cluIdle s c.val = true := by
  unfold cluIdle cluCores
  rw [List.all_map, List.all_eq_true]
  intro k hk
  obtain ⟨hjob, hwait, hhalt, hnext⟩ := h k (List.mem_range.mp hk)
  simp [inWaitjob, on_of_zero hjob, on_of_one hwait, hhalt, on_of_zero hnext]

/-- FLOOR holds a cluster where it is (R49). -/
theorem not_mayDescend {n : Nat} (h : s.rd F.CLU_CFG_FLOOR c.val ≤ cluSt s c.val) : mayDescend s c.val n = false := by
  unfold mayDescend
  by_cases hst : cluSt s c.val = n
  · rw [decide_eq_false (show ¬ n < s.rd F.CLU_CFG_FLOOR c.val by omega), Bool.and_false]
  · rw [beq_eq_false_iff_ne.mpr hst]
    simp

theorem expiries_held (h : s.rd F.CLU_CFG_FLOOR c.val ≤ cluSt s c.val) :
    exec (.clusterIdleExpiry c) s = .next s ∧ exec (.clusterPlldlyExpiry c) s = .next s ∧
      exec (.clusterPwrdlyExpiry c) s = .next s :=
  have hno : ∀ n, ¬ mayDescend s c.val n = true := fun n => by rw [not_mayDescend h]; decide
  ⟨if_neg (hno _), if_neg (hno _), if_neg (hno _)⟩

/-- The gate closes on a cluster with no staged frame: its cores' memories are lost, nothing else (R48, R50). -/
theorem clusterPwroff_case (hdrain : s.rd F.CLU_STAT_DRAINWB c.val = 1) (hframes : cluFrames s c.val = []) :
    Does (.clusterPwroff c) s fun t =>
      cluSt t c.val = clPWROFF ∧ t.rd F.CLU_STAT_DRAINWB c.val = 0 ∧
      SameCells s t [(F.CLU_STAT_DRAINWB, c.val), (F.CLU_STAT_STATE, c.val)] ∧
      (∀ a, t.byte a = if 0x30000000 + c.val * 0x200000 ≤ a ∧ a < 0x30000000 + c.val * 0x200000 + 0x200000 then
        Memory.unwritten else s.byte a) ∧
      (∀ n, Tbl.get [] t.iLines n = if n / 8 = c.val then [] else Tbl.get [] s.iLines n) ∧
      t = { s with cells := t.cells, mem := t.mem, iLines := t.iLines } := by
  have hoff : cluOff s c.val = ((cluLoseMem s c.val).wr F.CLU_STAT_DRAINWB c.val 0).wr F.CLU_STAT_STATE c.val clPWROFF := by
    have hback : cluWriteBack s c.val = s := by
      unfold cluWriteBack
      rw [hframes]
      rfl
    unfold cluOff
    simp only [hback, hframes, List.filterMap_nil, State.over, List.foldl_nil]
  have hexec : exec (.clusterPwroff c) s = .next (cluOff s c.val) := if_pos (on_of_one hdrain)
  have hlose := cluLoseMem_says s c.val
  dsimp only at hlose
  obtain ⟨hmem, hlines, hrest⟩ := hlose
  rw [hoff] at hexec
  generalize cluLoseMem s c.val = u at hexec hmem hlines hrest
  have hcells : ∀ g j, u.rd g j = s.rd g j := fun g j => by rw [hrest]; rfl
  refine ⟨_, hexec, State.rd_wr_same _ _ _ _, ?_, ((SameCells.refl s _).of_rd hcells).wr (by simp) |>.wr (by simp),
    hmem, hlines, ?_⟩
  · rw [State.rd_wr_cell _ _ _ _ _ _ (by decide)]
    exact State.rd_wr_same _ _ _ _
  · rw [hrest]
    rfl

end

theorem filter_mask_one : ∀ c : Fin 8, (List.range 8).filter (bitOf (BitVec.ofNat 32 (2 ^ c.val)).toNat) = [c.val] := by decide

section
variable {s : State} (c : Fin 8)

/-- A wake request, and a write of CLU_WAKE with this cluster's bit, come to the same. -/
theorem exec_wakes (hs : s.serving = true) (ini : Init) : exec (.clusterWakeRequest c) s = .next (cluWake s c.val) ∧
    exec (.cluWake ini (BitVec.ofNat 32 (2 ^ c.val))) s = .next (cluWake s c.val) := by
  refine ⟨if_pos hs, (if_pos (fabric_of_serving hs)).trans (congrArg Host.Outcome.next ?_)⟩
  unfold cluWakeWrite
  rw [if_pos hs, filter_mask_one]
  rfl

/-- A wake request changes nothing in RUN or in Dawn (R53). -/
theorem cluWake_idle (hdrain : s.rd F.CLU_STAT_DRAINWB c.val = 0)
    (h : s.rd F.CLU_STAT_DAWN c.val = 1 ∨ cluSt s c.val = clRUN) : cluWake s c.val = s := by
  unfold cluWake
  by_cases hd : s.on F.CLU_STAT_DAWN c.val = true
  · rw [if_pos hd]
  · have hrun : cluSt s c.val = clRUN := h.resolve_left fun h1 => hd (on_of_one h1)
    rw [if_neg hd, if_neg (by rw [on_of_zero hdrain]; decide), if_pos hrun]

end

/-- Settles O17: `mayDescend` for the descent, `cluLoseMem` for the gate, `cluWake` and `dawnStep` for the wake. -/
theorem clustersDescendAndWake : Obligations.ClustersDescendAndWake := by
  unfold Obligations.ClustersDescendAndWake
  intro s c hs havs idle st deeper mask waked
  have hdesc : ∀ n, deeper n → mayDescend s c.val n = true := fun n ⟨⟨hdawn, hdrain, hcores⟩, hst, hfloor⟩ =>
    descend ⟨hs, hdawn, hdrain, cluIdle_of_cores hcores⟩ hst hfloor
  refine ⟨fun h => if_pos (hdesc _ h), fun h => if_pos (hdesc _ h), fun h => if_pos (hdesc _ h), expiries_held,
    clusterPwroff_case, fun hdrain => ⟨fun hdawn hrun ini => ?_, fun hstay ini => ?_⟩,
    fun hdawn => ⟨fun hph => ?_, fun hph => ?_, fun hph => ?_⟩⟩
  · obtain ⟨hreq, hwrite⟩ := exec_wakes c hs ini
    exact ⟨⟨_, hreq, wake_case hdawn hdrain hrun havs⟩, _, hwrite, wake_case hdawn hdrain hrun havs⟩
  · have h := exec_wakes c hs ini
    rwa [cluWake_idle c hdrain hstay] at h
  · exact congrArg Host.Outcome.next (dawn_case hdawn hph)
  · exact congrArg Host.Outcome.next (dawn_case hdawn hph)
  · refine (if_pos ?_).trans (congrArg (fun u : State => Host.Outcome.next (u.wr F.CLU_STAT_DAWN c.val 0)) (dawn_case hdawn hph))
    rw [on_of_one hdawn, hph]
    rfl

end Sys2Proof.Machine
end

section
/-! PROOFS.  The modes of the CST banks (chapter 2): two bits of a register for each bank. -/

namespace Sys2Proof.Machine

open Safety

set_option Elab.async false

/-! ## Digits of base 4 -/

theorem bits_pair (v k : Nat) : bits v (2 * k + 1) (2 * k) = v / 4 ^ k % 4 := by
  show v / 2 ^ (2 * k) % 2 ^ (2 * k + 1 + 1 - 2 * k) = _
  rw [Nat.pow_mul, show 2 * k + 1 + 1 - 2 * k = 2 by omega, show (2 : Nat) ^ 2 = 4 from rfl]

/-- The number with another digit at place b. -/
def setDigit (x b m : Nat) : Nat := x - x / 4 ^ b % 4 * 4 ^ b + m * 4 ^ b

theorem setDigit_eq (x b m : Nat) : setDigit x b m = x / 4 ^ (b + 1) * 4 ^ (b + 1) + m * 4 ^ b + x % 4 ^ b := by
  have hlow := Nat.div_add_mod x (4 ^ b)
  have hdigit := Nat.div_add_mod (x / 4 ^ b) 4
  rw [Nat.div_div_eq_div_mul, ← Nat.pow_succ] at hdigit
  have hx : x = x / 4 ^ (b + 1) * 4 ^ (b + 1) + x / 4 ^ b % 4 * 4 ^ b + x % 4 ^ b := by
    conv => lhs; rw [← hlow, ← hdigit]
    rw [Nat.pow_succ]
    ring
  unfold setDigit
  generalize x / 4 ^ (b + 1) * 4 ^ (b + 1) = p at *
  generalize x / 4 ^ b % 4 * 4 ^ b = q at *
  omega

theorem digit_of_mod (z : Nat) {n k : Nat} (hk : k < n) : z % 4 ^ n / 4 ^ k % 4 = z / 4 ^ k % 4 := by
  have hdvd : 4 ^ k * 4 ∣ 4 ^ n := Nat.pow_dvd_pow 4 (show k + 1 ≤ n from hk)
  rw [← Nat.mod_mul_right_div_self, ← Nat.mod_mul_right_div_self, Nat.mod_mod_of_dvd _ hdvd]

theorem digit_setDigit (x b k : Nat) {m : Nat} (hm : m < 4) : setDigit x b m / 4 ^ k % 4 = if k = b then m else x / 4 ^ k % 4 := by
  have hpos : 0 < 4 ^ b := Nat.pow_pos (by decide)
  have hlow : x % 4 ^ b < 4 ^ b := Nat.mod_lt _ hpos
  have hdiv : setDigit x b m / 4 ^ b = x / 4 ^ (b + 1) * 4 + m := by
    rw [setDigit_eq, Nat.pow_succ, ← Nat.mul_assoc, Nat.mul_right_comm, ← Nat.add_mul, Nat.add_comm, Nat.add_mul_div_right _ _ hpos,
      Nat.div_eq_of_lt hlow, Nat.zero_add]
  rcases Nat.lt_trichotomy k b with hk | hk | hk
  · have hmod : setDigit x b m % 4 ^ b = x % 4 ^ b := by
      rw [setDigit_eq, Nat.pow_succ, ← Nat.mul_assoc, Nat.mul_right_comm, ← Nat.add_mul, Nat.add_comm, Nat.add_mul_mod_self_right, Nat.mod_mod]
    rw [if_neg (by omega), ← digit_of_mod _ hk, hmod, digit_of_mod _ hk]
  · rw [if_pos hk, hk, hdiv]
    omega
  · obtain ⟨d, rfl⟩ : ∃ d, k = b + 1 + d := ⟨k - (b + 1), by omega⟩
    have hhigh : setDigit x b m / 4 ^ (b + 1) = x / 4 ^ (b + 1) := by
      have hx := Nat.div_div_eq_div_mul (setDigit x b m) (4 ^ b) 4
      rw [hdiv, show 4 ^ b * 4 = 4 ^ (b + 1) from rfl] at hx
      omega
    rw [if_neg (by omega), Nat.pow_add, ← Nat.div_div_eq_div_mul, hhigh, Nat.div_div_eq_div_mul]

/-! ## One bank -/

/-- A bank takes a mode other than OFF (R55). -/
theorem setBank_eq (s : State) (b : Nat) {m : Nat} (hm : m ≠ 3) : ∃ aw, setBank s b m =
    puts s [(F.PMU_CSTBANK_MODE, 0, setDigit (s.rd F.PMU_CSTBANK_MODE) b m), (F.PMU_CSTSTAT_AWAKE, 0, aw)] := by
  unfold setBank
  rw [if_neg (by simp [hm])]
  dsimp only
  rw [if_neg hm, bits_pair]
  exact ⟨_, rfl⟩

/-- OFF is refused to a bank that holds an allocated page (R56). -/
theorem setBank_refused {s : State} {b : Nat} (ha : bankAllocated s b = true) (hm : bankMode s b ≠ 3) :
    setBank s b 3 = puts s [(F.PMU_CSTSTAT_BANKERR, 0, 1)] := by
  unfold setBank
  rw [if_pos (by simp [hm, offRefused, ha])]
  rfl

theorem bankAllocated_puts (s : State) {l : List (Fld × Nat × Nat)} (b : Nat) (hl : ∀ p ∈ l, p.1.id ≠ I.pgUse.id) :
    bankAllocated (puts s l) b = bankAllocated s b := by
  unfold bankAllocated
  rw [nonzero_puts s l I.pgUse hl]

/-! ## A write with one refused bank -/

/-- Where a write stands after the banks below n, when bank b alone is asked OFF and refused: the others have their
modes, b its old one. -/
structure BanksTaken (s u : State) (v b n : Nat) : Prop where
  modes : ∀ k, k < 16 → bankMode u k = if k < n ∧ k ≠ b then bits v (2 * k + 1) (2 * k) else bankMode s k
  err : b < n → u.rd F.PMU_CSTSTAT_BANKERR = 1
  mem : u.mem = s.mem
  allocated : bankAllocated u b = bankAllocated s b

section
variable {s u : State} {v b n : Nat}

theorem BanksTaken.refused (h : BanksTaken s u v n n) (ha : bankAllocated s n = true) (hm : bankMode s n ≠ 3) (hn : n < 16) :
    BanksTaken s (setBank u n 3) v n (n + 1) := by
  have hkept : bankMode u n = bankMode s n := by simpa using h.modes n hn
  rw [setBank_refused (h.allocated.trans ha) (hkept ▸ hm)]
  refine ⟨fun k hk => ?_, fun _ => State.rd_wr_same _ _ _ _, h.mem,
    (bankAllocated_puts u n (by decide)).trans h.allocated⟩
  have hsame : bankMode (puts u [(F.PMU_CSTSTAT_BANKERR, 0, 1)]) k = bankMode u k := by
    unfold bankMode
    rw [puts_cell u _ _ _ (by decide)]
  rw [hsame, h.modes k hk]
  exact if_congr (by omega) rfl rfl

theorem BanksTaken.taken (h : BanksTaken s u v b n) (hne : n ≠ b) (hm : bits v (2 * n + 1) (2 * n) ≠ 3) :
    BanksTaken s (setBank u n (bits v (2 * n + 1) (2 * n))) v b (n + 1) := by
  obtain ⟨aw, hset⟩ := setBank_eq u n hm
  have hother := sameOtherCells_puts u [(F.PMU_CSTBANK_MODE, 0, setDigit (u.rd F.PMU_CSTBANK_MODE) n (bits v (2 * n + 1) (2 * n))),
    (F.PMU_CSTSTAT_AWAKE, 0, aw)] (fs := [F.PMU_CSTBANK_MODE, F.PMU_CSTSTAT_AWAKE])
  have hlt : bits v (2 * n + 1) (2 * n) < 4 := by
    rw [bits_pair]
    omega
  rw [hset]
  refine ⟨fun k hk => ?_, fun hb => (hother _ _ (by decide)).trans (h.err (by omega)), (puts_mem _ _).trans h.mem,
    (bankAllocated_puts u b (by simp; decide)).trans h.allocated⟩
  have hdigit : bankMode (puts u [(F.PMU_CSTBANK_MODE, 0, setDigit (u.rd F.PMU_CSTBANK_MODE) n (bits v (2 * n + 1) (2 * n))),
      (F.PMU_CSTSTAT_AWAKE, 0, aw)]) k = if k = n then bits v (2 * n + 1) (2 * n) else bankMode u k := by
    unfold bankMode
    rw [puts_cons, puts_cons, puts_nil, State.rd_wr_cell _ _ _ _ _ _ (by decide), State.rd_wr_same, bits_pair _ k, bits_pair _ k]
    exact (digit_of_mod (n := 16) _ hk).trans (digit_setDigit _ n k hlt)
  rw [hdigit, h.modes k hk]
  by_cases hkn : k = n
  · rw [if_pos hkn, if_pos ⟨by omega, by omega⟩, hkn]
  · rw [if_neg hkn]
    exact if_congr (by omega) rfl rfl

theorem banksTaken (hb : b < 16) (ha : bankAllocated s b = true) (hm : bankMode s b ≠ 3)
    (hv : ∀ k, k < 16 → (bits v (2 * k + 1) (2 * k) = 3 ↔ k = b)) (hn : n ≤ 16) :
    BanksTaken s (s.over (List.range n) fun s b => setBank s b (bits v (2 * b + 1) (2 * b))) v b n := by
  induction n with
  | zero => exact ⟨fun k _ => by simp [State.over], fun h => absurd h (by omega), rfl, rfl⟩
  | succ n ih =>
    unfold State.over at ih ⊢
    rw [List.range_succ, List.foldl_append]
    have h := ih (by omega)
    by_cases hnb : n = b
    · subst hnb
      show BanksTaken s (setBank _ n (bits v (2 * n + 1) (2 * n))) v n (n + 1)
      rw [(hv n hb).mpr rfl]
      exact h.refused ha hm hb
    · exact h.taken hnb fun h3 => hnb ((hv n (by omega)).mp h3)

end

/-! ## The commands -/

theorem cstbankWrite_case {s : State} {ini : Init} {v : Word} (hf : s.fabric = true)
    (hv : ∀ k, k < 16 → bits v.toNat (2 * k + 1) (2 * k) ≠ 3) : Does (.cstbankWrite ini v) s fun t =>
      t.rd F.PMU_CSTBANK_MODE = v.toNat ∧
      (∀ k, k < 16 → bitOf (t.rd F.PMU_CSTSTAT_AWAKE) k = (bits v.toNat (2 * k + 1) (2 * k) == 0 ||
        (bits v.toNat (2 * k + 1) (2 * k) == 1 && bitOf (s.rd F.PMU_CSTSTAT_AWAKE) k))) ∧
      OnlyCells s t [(F.PMU_CSTBANK_MODE, 0), (F.PMU_CSTSTAT_AWAKE, 0)] := by
  have h := banks_over v.toNat 16 s hv (le_refl _)
  dsimp only at h
  obtain ⟨hmode, hawake, honly⟩ := h
  have hold : s.rd F.PMU_CSTBANK_MODE / 4 ^ 16 = 0 := Nat.div_eq_of_lt (State.rd_lt s F.PMU_CSTBANK_MODE 0)
  refine ⟨_, if_pos hf, hmode.trans ?_, fun k hk => (hawake k).trans (if_pos hk), honly⟩
  rw [hold, Nat.zero_mul, Nat.add_zero]
  exact Nat.mod_eq_of_lt v.isLt

theorem cstbankWrite_refused_case {s : State} {ini : Init} {v : Word} {b : Nat} (hf : s.fabric = true) (hb : b < 16)
    (ha : bankAllocated s b = true) (hm : bankMode s b ≠ 3)
    (hv : ∀ k, k < 16 → (bits v.toNat (2 * k + 1) (2 * k) = 3 ↔ k = b)) : Does (.cstbankWrite ini v) s fun t =>
      t.rd F.PMU_CSTSTAT_BANKERR = 1 ∧ bankMode t b = bankMode s b ∧
      (∀ k, k < 16 → k ≠ b → bankMode t k = bits v.toNat (2 * k + 1) (2 * k)) ∧ t.mem = s.mem := by
  obtain ⟨hmodes, herr, hmem, -⟩ := banksTaken hb ha hm hv (le_refl 16)
  exact ⟨_, if_pos hf, herr hb, (hmodes b hb).trans (if_neg fun h => h.2 rfl),
    fun k hk hne => (hmodes k hk).trans (if_pos ⟨hk, hne⟩), hmem⟩

/-- Ten microseconds without access put an AUTO bank into retention (R55). -/
theorem bankRetentionEntry_case {s : State} {b : Fin 16} (hf : s.fabric = true) (hb : bankMode s b.val = 1) :
    Does (.bankRetentionEntry b) s fun t =>
      (∀ k, bitOf (t.rd F.PMU_CSTSTAT_AWAKE) k = (bitOf (s.rd F.PMU_CSTSTAT_AWAKE) k && k != b.val)) ∧
      OnlyCells s t [(F.PMU_CSTSTAT_AWAKE, 0)] := by
  have hfit : clrBit (s.rd F.PMU_CSTSTAT_AWAKE) b.val < 2 ^ 16 := lt_of_bits fun k hk => by
    rw [bitOf_clrBit, bits_of_lt (State.rd_lt s F.PMU_CSTSTAT_AWAKE 0) hk, Bool.false_and]
  refine ⟨_, if_pos (by rw [hf, hb]; rfl), fun k => ?_, (OnlyCells.refl s _).wr (by simp)⟩
  rw [State.set_eq_wr, State.rd_wr_same, ← bitOf_clrBit]
  exact congrArg (bitOf · k) (Nat.mod_eq_of_lt hfit)

/-- Settles O18: each bank's mode is a digit of base 4, set or refused in ascending order. -/
theorem cstBanksFollowTheirModes : Obligations.CstBanksFollowTheirModes := by
  unfold Obligations.CstBanksFollowTheirModes
  exact fun s ini v hf => ⟨cstbankWrite_case hf, fun b => cstbankWrite_refused_case hf, fun b =>
    ⟨bankRetentionEntry_case hf, fun hb => if_neg (by simp [hb])⟩⟩

end Sys2Proof.Machine
end

section
/-! PROOFS.  Temperature, adaptive voltage scaling, PMBus and slowed clocks (chapter 2). -/

namespace Sys2Proof.Machine

open Safety

set_option Elab.async false

/-! ## Temperature -/

theorem signedOf_toNat (x : BitVec 12) : signedOf 12 x.toNat = x.toInt := by
  have h := x.isLt
  rw [BitVec.toInt_eq_toNat_cond]
  unfold signedOf
  dsimp only
  rw [Nat.mod_eq_of_lt h]
  refine if_congr ?_ rfl rfl
  omega

theorem ofInt_toInt (x : BitVec 12) : ofInt 12 x.toInt = x.toNat := by
  rw [← signedOf_toNat, ofInt_signedOf]
  exact Nat.mod_eq_of_lt x.isLt

/-- Only one sensor is valid: it is the hottest. -/
theorem hottest_only {s : State} {k : Nat} (hk : k < 16) (hone : s.rd F.PMU_TEMP_VALID k = 1)
    (hother : ∀ j, j < 16 → j ≠ k → s.rd F.PMU_TEMP_VALID j = 0) :
    hottest s = some (k, signedOf 12 (s.rd F.PMU_TEMP_TEMP k)) := by
  have hprefix : ∀ n, n ≤ 16 → (List.range n).foldl
      (fun best n => if s.on F.PMU_TEMP_VALID n then
        let t := signedOf 12 (s.rd F.PMU_TEMP_TEMP n)
        match best with
        | none => some (n, t)
        | some (_, u) => if u < t then some (n, t) else best
      else best) none = if k < n then some (k, signedOf 12 (s.rd F.PMU_TEMP_TEMP k)) else none := by
    intro n
    induction n with
    | zero => intro _; rfl
    | succ n ih =>
      intro hn
      rw [List.range_succ, List.foldl_append, ih (by omega)]
      by_cases hnk : n = k
      · subst hnk
        simp [on_of_one hone]
      · simp only [List.foldl_cons, List.foldl_nil, on_of_zero (hother n (by omega) hnk), Bool.false_eq_true, if_false]
        exact if_congr ⟨fun h => Nat.lt_succ_of_lt h, fun h => Nat.lt_of_le_of_ne (Nat.le_of_lt_succ h) (Ne.symm hnk)⟩ rfl rfl
  exact (hprefix 16 (le_refl _)).trans (if_pos hk)

/-- What a comparison writes when no threshold was in force (R66). -/
def thermalWrites (n : Nat) (t : Int) (w r : Bool) : List (Fld × Nat × Nat) :=
  [(F.PMU_THERMSTAT_HOTTEST, 0, n), (F.PMU_THERMSTAT_TMAX, 0, ofInt 12 t)] ++
    (if w then [(F.PMU_IRQSTAT_THWARN, 0, 1)] else []) ++ (if r then [(F.PMU_IRQSTAT_THROT, 0, 1)] else []) ++
    [(I.thWarn, 0, b2n w), (I.thThrot, 0, b2n r), (I.thCrit, 0, b2n false), (I.throtSrc, 0, b2n r),
     (F.PMU_THERMSTAT_THROTTLING, 0, b2n r)]

theorem setThrottle_first {s : State} (h : s.rd I.throtSrc = 0) (r : Bool) :
    setThrottle s 0 r = puts s [(I.throtSrc, 0, b2n r), (F.PMU_THERMSTAT_THROTTLING, 0, b2n r)] := by
  unfold setThrottle
  rw [h]
  cases r <;> rfl

theorem compareThermal_calm {s : State} {n : Nat} {t : Int} (hhot : hottest s = some (n, t)) (hw : s.rd I.thWarn = 0)
    (hr : s.rd I.thThrot = 0) (hc : s.rd I.thCrit = 0) (hsrc : s.rd I.throtSrc = 0)
    (hcrit : ¬ 8 * signedOf 8 (s.rd F.PMU_THERMCFG_CRIT) ≤ t) :
    compareThermal s = puts s (thermalWrites n t (decide (8 * signedOf 8 (s.rd F.PMU_THERMCFG_WARN) ≤ t))
      (decide (8 * signedOf 8 (s.rd F.PMU_THERMCFG_THROT) ≤ t))) := by
  unfold compareThermal
  rw [hhot]
  have hcrossed : ∀ (thr h : Int), crossed false t thr h = decide (8 * thr ≤ t) := fun thr h => by
    simp [crossed, Int.mul_comm]
  simp (disch := decide) only [State.set_eq_wr, State.on_eq, State.rd_wr_cell, hw, hr, hc, bne_self_eq_false, hcrossed,
    decide_eq_false hcrit, Bool.not_false, Bool.and_true]
  generalize decide (8 * signedOf 8 (s.rd F.PMU_THERMCFG_WARN) ≤ t) = w
  generalize decide (8 * signedOf 8 (s.rd F.PMU_THERMCFG_THROT) ≤ t) = r
  unfold thermalWrites
  cases w <;> cases r <;>
  · simp (disch := decide) only [Bool.false_eq_true, Bool.and_true, if_false, if_true, State.rd_wr_cell, hr, hc,
      bne_self_eq_false, Bool.not_false]
    rw [setThrottle_first]
    · simp only [List.cons_append, List.nil_append, puts_cons, puts_nil]
    · simp (disch := decide) only [State.rd_wr_cell, hsrc]

theorem tempConversion_still {s : State} {k : Fin 16} {x : BitVec 12} (h : s.mode = mRESET ∨ s.mode = mWATCH) :
    exec (.tempConversion k x) s = .next s := by
  refine if_neg ?_
  unfold sensorsRun State.serving
  rcases h with h | h <;> rw [h] <;> simp

theorem tempConversion_case {s : State} {k : Fin 16} {x : BitVec 12} (hs : s.serving = true)
    (hvalid : ∀ j, j < 16 → j ≠ k.val → s.rd F.PMU_TEMP_VALID j = 0) (hw : s.rd I.thWarn = 0) (hr : s.rd I.thThrot = 0)
    (hc : s.rd I.thCrit = 0) (hsrc : s.rd I.throtSrc = 0)
    (hcrit : ¬ 8 * signedOf 8 (s.rd F.PMU_THERMCFG_CRIT) ≤ x.toInt) : Does (.tempConversion k x) s fun t =>
      t.rd F.PMU_TEMP_TEMP k.val = x.toNat ∧ t.rd F.PMU_TEMP_VALID k.val = 1 ∧ t.rd F.PMU_THERMSTAT_HOTTEST = k.val ∧
      t.rd F.PMU_THERMSTAT_TMAX = x.toNat ∧
      (8 * signedOf 8 (s.rd F.PMU_THERMCFG_WARN) ≤ x.toInt → t.rd F.PMU_IRQSTAT_THWARN = 1) ∧
      (¬ 8 * signedOf 8 (s.rd F.PMU_THERMCFG_WARN) ≤ x.toInt → t.rd F.PMU_IRQSTAT_THWARN = s.rd F.PMU_IRQSTAT_THWARN) ∧
      (8 * signedOf 8 (s.rd F.PMU_THERMCFG_THROT) ≤ x.toInt → t.rd F.PMU_IRQSTAT_THROT = 1 ∧ t.rd F.PMU_THERMSTAT_THROTTLING = 1) ∧
      (¬ 8 * signedOf 8 (s.rd F.PMU_THERMCFG_THROT) ≤ x.toInt →
        t.rd F.PMU_IRQSTAT_THROT = s.rd F.PMU_IRQSTAT_THROT ∧ t.rd F.PMU_THERMSTAT_THROTTLING = 0) ∧
      OnlyCells s t [(F.PMU_TEMP_TEMP, k.val), (F.PMU_TEMP_VALID, k.val), (F.PMU_THERMSTAT_HOTTEST, 0), (F.PMU_THERMSTAT_TMAX, 0),
        (F.PMU_IRQSTAT_THWARN, 0), (F.PMU_IRQSTAT_THROT, 0), (I.thWarn, 0), (I.thThrot, 0), (I.thCrit, 0), (I.throtSrc, 0),
        (F.PMU_THERMSTAT_THROTTLING, 0)] := by
  have hexec : exec (.tempConversion k x) s =
      .next (compareThermal ((s.wr F.PMU_TEMP_TEMP k.val x.toNat).wr F.PMU_TEMP_VALID k.val 1)) := if_pos (by simp [sensorsRun, hs])
  have honly : OnlyCells s ((s.wr F.PMU_TEMP_TEMP k.val x.toNat).wr F.PMU_TEMP_VALID k.val 1)
      [(F.PMU_TEMP_TEMP, k.val), (F.PMU_TEMP_VALID, k.val)] := ((OnlyCells.refl s _).wr (by simp)).wr (by simp)
  have hother : SameOtherCells s ((s.wr F.PMU_TEMP_TEMP k.val x.toNat).wr F.PMU_TEMP_VALID k.val 1) [F.PMU_TEMP_TEMP, F.PMU_TEMP_VALID] :=
    ((SameOtherCells.refl s _).wr (by simp)).wr (by simp)
  have htemp : ((s.wr F.PMU_TEMP_TEMP k.val x.toNat).wr F.PMU_TEMP_VALID k.val 1).rd F.PMU_TEMP_TEMP k.val = x.toNat := by
    rw [State.rd_wr_cell _ _ _ _ _ _ (by decide), State.rd_wr_same]
    exact Nat.mod_eq_of_lt x.isLt
  have hone : ((s.wr F.PMU_TEMP_TEMP k.val x.toNat).wr F.PMU_TEMP_VALID k.val 1).rd F.PMU_TEMP_VALID k.val = 1 := State.rd_wr_same _ _ _ _
  have hzero : ∀ j, j < 16 → j ≠ k.val → ((s.wr F.PMU_TEMP_TEMP k.val x.toNat).wr F.PMU_TEMP_VALID k.val 1).rd F.PMU_TEMP_VALID j = 0 :=
    fun j hj hne => (honly.2 _ _ (by simp; exact ⟨fun h => absurd h (by decide), Ne.symm hne⟩)).trans (hvalid j hj hne)
  generalize (s.wr F.PMU_TEMP_TEMP k.val x.toNat).wr F.PMU_TEMP_VALID k.val 1 = u at hexec honly hother htemp hone hzero
  have hhot := hottest_only k.isLt hone hzero
  rw [htemp, signedOf_toNat] at hhot
  rw [compareThermal_calm hhot ((hother _ _ (by decide)).trans hw) ((hother _ _ (by decide)).trans hr)
    ((hother _ _ (by decide)).trans hc) ((hother _ _ (by decide)).trans hsrc) (by rwa [hother _ _ (by decide)]),
    hother F.PMU_THERMCFG_WARN 0 (by decide), hother F.PMU_THERMCFG_THROT 0 (by decide)] at hexec
  have hk : k.val % 2 ^ F.PMU_THERMSTAT_HOTTEST.w = k.val := Nat.mod_eq_of_lt k.isLt
  have hx : ofInt 12 x.toInt % 2 ^ F.PMU_THERMSTAT_TMAX.w = x.toNat := by
    rw [ofInt_toInt]
    exact Nat.mod_eq_of_lt x.isLt
  refine ⟨_, hexec, ?_⟩
  have hpost : ∀ w r : Bool,
      let t := puts u (thermalWrites k.val x.toInt w r)
      t.rd F.PMU_TEMP_TEMP k.val = x.toNat ∧ t.rd F.PMU_TEMP_VALID k.val = 1 ∧ t.rd F.PMU_THERMSTAT_HOTTEST = k.val ∧
      t.rd F.PMU_THERMSTAT_TMAX = x.toNat ∧
      t.rd F.PMU_IRQSTAT_THWARN = (if w then 1 else s.rd F.PMU_IRQSTAT_THWARN) ∧
      t.rd F.PMU_IRQSTAT_THROT = (if r then 1 else s.rd F.PMU_IRQSTAT_THROT) ∧ t.rd F.PMU_THERMSTAT_THROTTLING = b2n r ∧
      OnlyCells u t [(F.PMU_THERMSTAT_HOTTEST, 0), (F.PMU_THERMSTAT_TMAX, 0), (F.PMU_IRQSTAT_THWARN, 0), (F.PMU_IRQSTAT_THROT, 0),
        (I.thWarn, 0), (I.thThrot, 0), (I.thCrit, 0), (I.throtSrc, 0), (F.PMU_THERMSTAT_THROTTLING, 0)] := by
    intro w r
    have honly := OnlyCells.puts u (thermalWrites k.val x.toInt w r)
    have hwarn := hother F.PMU_IRQSTAT_THWARN 0 (by decide)
    have hthrot := hother F.PMU_IRQSTAT_THROT 0 (by decide)
    cases w <;> cases r <;> refine ⟨?_, ?_, ?_, ?_, ?_, ?_, ?_, honly.mono (by simp [thermalWrites])⟩ <;>
      simp (disch := decide) only [thermalWrites, List.cons_append, List.nil_append, Bool.false_eq_true, if_false, if_true, puts_cons,
        puts_nil, State.rd_wr_cell, State.rd_wr_same, htemp, hone, hk, hx, hwarn, hthrot] <;> rfl
  obtain ⟨p1, p2, p3, p4, p5, p6, p7, p8⟩ := hpost _ _
  refine ⟨p1, p2, p3, p4, fun h => ?_, fun h => ?_, fun h => ?_, fun h => ?_, (honly.mono (by simp)).trans (p8.mono (by simp))⟩
  · rw [p5, decide_eq_true h]; rfl
  · rw [p5, decide_eq_false h]; rfl
  · rw [p6, p7, decide_eq_true h]; exact ⟨rfl, rfl⟩
  · rw [p6, p7, decide_eq_false h]; exact ⟨rfl, rfl⟩

/-- THROT and CRIT take a value only if it is not above its fuse (R67). -/
theorem thermcfgWrite_case {s : State} {ini : Init} {v : Word} (hf : s.fabric = true) :
    let tight := fun (new fuse : Nat) => signedOf 8 new ≤ signedOf 8 fuse
    let fuse := s.rd F.FUS_SHADOW_WORD 68
    Does (.thermcfgWrite ini v) s fun t =>
      t.rd F.PMU_THERMCFG_WARN = bits v.toNat 15 8 ∧ t.rd F.PMU_THERMCFG_HYST = bits v.toNat 3 0 ∧
      t.rd F.PMU_THERMCFG_THROT = (if tight (bits v.toNat 23 16) (bits fuse 15 8) then bits v.toNat 23 16 else s.rd F.PMU_THERMCFG_THROT) ∧
      t.rd F.PMU_THERMCFG_CRIT = (if tight (bits v.toNat 31 24) (bits fuse 23 16) then bits v.toNat 31 24 else s.rd F.PMU_THERMCFG_CRIT) ∧
      OnlyCells s t [(F.PMU_THERMCFG_WARN, 0), (F.PMU_THERMCFG_HYST, 0), (F.PMU_THERMCFG_THROT, 0), (F.PMU_THERMCFG_CRIT, 0)] := by
  have hbyte : ∀ lo, bits v.toNat (lo + 7) lo % 2 ^ 8 = bits v.toNat (lo + 7) lo := fun lo => by
    unfold bits
    rw [show lo + 7 + 1 - lo = 8 by omega, Nat.mod_mod]
  have hwarn : bits v.toNat 15 8 % 2 ^ F.PMU_THERMCFG_WARN.w = bits v.toNat 15 8 := hbyte 8
  have hhyst : bits v.toNat 3 0 % 2 ^ F.PMU_THERMCFG_HYST.w = bits v.toNat 3 0 := Nat.mod_mod _ _
  have hthrot : bits v.toNat 23 16 % 2 ^ F.PMU_THERMCFG_THROT.w = bits v.toNat 23 16 := hbyte 16
  have hcrit : bits v.toNat 31 24 % 2 ^ F.PMU_THERMCFG_CRIT.w = bits v.toNat 31 24 := hbyte 24
  have hpost : ∀ (p q : Prop) [Decidable p] [Decidable q],
      let t := puts s ([(F.PMU_THERMCFG_WARN, 0, bits v.toNat 15 8), (F.PMU_THERMCFG_HYST, 0, bits v.toNat 3 0)] ++
        (if p then [(F.PMU_THERMCFG_THROT, 0, bits v.toNat 23 16)] else []) ++
        (if q then [(F.PMU_THERMCFG_CRIT, 0, bits v.toNat 31 24)] else []))
      t.rd F.PMU_THERMCFG_WARN = bits v.toNat 15 8 ∧ t.rd F.PMU_THERMCFG_HYST = bits v.toNat 3 0 ∧
      t.rd F.PMU_THERMCFG_THROT = (if p then bits v.toNat 23 16 else s.rd F.PMU_THERMCFG_THROT) ∧
      t.rd F.PMU_THERMCFG_CRIT = (if q then bits v.toNat 31 24 else s.rd F.PMU_THERMCFG_CRIT) ∧
      OnlyCells s t [(F.PMU_THERMCFG_WARN, 0), (F.PMU_THERMCFG_HYST, 0), (F.PMU_THERMCFG_THROT, 0), (F.PMU_THERMCFG_CRIT, 0)] := by
    intro p q _ _
    by_cases hp : p <;> by_cases hq : q <;> simp only [hp, hq, if_true, if_false, List.cons_append, List.nil_append] <;>
      refine ⟨?_, ?_, ?_, ?_, (OnlyCells.puts s _).mono (by simp)⟩ <;>
      simp (disch := decide) only [puts_cons, puts_nil, State.rd_wr_cell, State.rd_wr_same, hwarn, hhyst, hthrot, hcrit]
  have hwrite : thermcfgWrite s v.toNat = puts s ([(F.PMU_THERMCFG_WARN, 0, bits v.toNat 15 8), (F.PMU_THERMCFG_HYST, 0, bits v.toNat 3 0)] ++
        (if signedOf 8 (bits v.toNat 23 16) ≤ signedOf 8 (bits (shadow s 68) 15 8) then [(F.PMU_THERMCFG_THROT, 0, bits v.toNat 23 16)] else []) ++
        (if signedOf 8 (bits v.toNat 31 24) ≤ signedOf 8 (bits (shadow s 68) 23 16) then [(F.PMU_THERMCFG_CRIT, 0, bits v.toNat 31 24)] else [])) := by
    unfold thermcfgWrite
    dsimp only
    split <;> split <;> rfl
  intro tight fuse
  exact ⟨_, (if_pos hf).trans (congrArg Host.Outcome.next hwrite), hpost _ _⟩

/-! ## Adaptive voltage scaling -/

section
variable {s : State} {m : BitVec 8}

/-- The least margin is shown in every mode with the fabric. -/
theorem avsActive_margin (s : State) (x : Nat) : avsActive (s.wr F.PMU_AVSSTAT_LEASTMARGIN 0 x) = avsActive s := by
  unfold avsActive State.fabric State.mode State.on
  simp (disch := decide) only [State.rd_wr_cell]

/-- A margin that is not short ends ATMAX (R61). -/
theorem setAtMax_false (s : State) : (setAtMax s false).rd F.PMU_AVSSTAT_ATMAX = 0 ∧
    OnlyCells s (setAtMax s false) [(F.PMU_AVSSTAT_ATMAX, 0), (I.throtSrc, 0), (F.PMU_THERMSTAT_THROTTLING, 0)] := by
  obtain ⟨-, -, honly⟩ := setThrottle_says (s.wr F.PMU_AVSSTAT_ATMAX 0 (b2n false)) 1 false (by decide)
  have hset : setAtMax s false = setThrottle (s.wr F.PMU_AVSSTAT_ATMAX 0 (b2n false)) 1 false := rfl
  rw [hset]
  exact ⟨(honly.2 _ _ (by decide)).trans (State.rd_wr_same _ _ _ _),
    ((OnlyCells.refl s _).wr (by simp)).trans (honly.mono (by simp))⟩

theorem throttling_of_bit {t : State} {k : Nat} (hon : t.on F.PMU_THERMSTAT_THROTTLING = t.on I.throtSrc)
    (hbit : bitOf (t.rd I.throtSrc) k = true) : t.rd F.PMU_THERMSTAT_THROTTLING = 1 := by
  have hne : t.rd I.throtSrc ≠ 0 := fun h => by
    rw [h] at hbit
    simp [bitOf] at hbit
  rw [on_of_ne_zero hne, on_flag _ _ rfl] at hon
  exact of_decide_eq_true hon

section
variable (hact : avsActive s = true)
include hact

/-- A short margin raises VDD by one step (R60). -/
theorem avsMarginLow_raise (hm : m.toInt < (s.rd F.PMU_AVSCFG_MARGIN : Int)) (hv : s.rd I.vddCode < s.rd F.PMU_AVSCFG_VMAX) :
    Puts (.avsMarginLow m) s
      [(F.PMU_AVSSTAT_LEASTMARGIN, 0, m.toNat), (I.vddCode, 0, s.rd I.vddCode + 1), (F.PMU_AVSSTAT_SETCODE, 0, s.rd I.vddCode + 1)] := by
  show execAvsMarginLow m s = _
  unfold execAvsMarginLow
  dsimp only
  simp (disch := decide) only [avs_fabric hact, if_true, State.set_eq_wr, avsActive_margin, hact, State.rd_wr_cell, hm, decide_true,
    Bool.and_true, hv, raiseVdd]
  rfl

/-- At VMAX a short margin throttles the clusters (R61). -/
theorem avsMarginLow_atMax (hm : m.toInt < (s.rd F.PMU_AVSCFG_MARGIN : Int)) (hv : s.rd F.PMU_AVSCFG_VMAX ≤ s.rd I.vddCode) :
    Does (.avsMarginLow m) s fun t =>
      t.rd F.PMU_AVSSTAT_ATMAX = 1 ∧ bitOf (t.rd I.throtSrc) 1 = true ∧ t.rd F.PMU_THERMSTAT_THROTTLING = 1 ∧
      t.rd I.vddCode = s.rd I.vddCode ∧ OnlyCells s t [(F.PMU_AVSSTAT_LEASTMARGIN, 0), (F.PMU_AVSSTAT_ATMAX, 0),
        (F.PMU_IRQSTAT_ATMAX, 0), (I.throtSrc, 0), (F.PMU_THERMSTAT_THROTTLING, 0)] := by
  have hexec : exec (.avsMarginLow m) s = .next (setAtMax (s.wr F.PMU_AVSSTAT_LEASTMARGIN 0 m.toNat) true) := by
    show execAvsMarginLow m s = _
    unfold execAvsMarginLow
    dsimp only
    simp (disch := decide) only [avs_fabric hact, if_true, State.set_eq_wr, avsActive_margin, hact, State.rd_wr_cell, hm, decide_true,
      Bool.and_true, Nat.not_lt.mpr hv, if_false]
  have hone : OnlyCells s (s.wr F.PMU_AVSSTAT_LEASTMARGIN 0 m.toNat) [(F.PMU_AVSSTAT_LEASTMARGIN, 0)] := (OnlyCells.refl s _).wr (by simp)
  generalize s.wr F.PMU_AVSSTAT_LEASTMARGIN 0 m.toNat = u at hexec hone
  obtain ⟨hatmax, hbit, honly⟩ := setAtMax_says u true
  have hthrot : (setAtMax u true).on F.PMU_THERMSTAT_THROTTLING = (setAtMax u true).on I.throtSrc := (setThrottle_says _ 1 true (by decide)).2.1
  exact ⟨_, hexec, hatmax, hbit, throttling_of_bit hthrot hbit, (honly.2 _ _ (by decide)).trans (hone.2 _ _ (by decide)),
    (hone.mono (by simp)).trans (honly.mono (by simp))⟩

/-- A wide margin lowers VDD by one step, not below VMIN (R60, R61). -/
theorem avsLower_case (hm : (s.rd F.PMU_AVSCFG_MARGIN : Int) + 20 ≤ m.toInt) : Does (.avsLower m) s fun t =>
    t.rd I.vddCode = (if s.rd F.PMU_AVSCFG_VMIN < s.rd I.vddCode then s.rd I.vddCode - 1 else s.rd I.vddCode) ∧
    t.rd F.PMU_AVSSTAT_ATMAX = 0 ∧ OnlyCells s t [(F.PMU_AVSSTAT_LEASTMARGIN, 0), (F.PMU_AVSSTAT_ATMAX, 0),
      (I.throtSrc, 0), (F.PMU_THERMSTAT_THROTTLING, 0), (I.vddCode, 0), (F.PMU_AVSSTAT_SETCODE, 0)] := by
  have hexec : exec (.avsLower m) s = .next (lowerVdd (setAtMax (s.wr F.PMU_AVSSTAT_LEASTMARGIN 0 m.toNat) false)) := by
    show execAvsLower m s = _
    unfold execAvsLower
    dsimp only
    simp (disch := decide) only [avs_fabric hact, if_true, State.set_eq_wr, avsActive_margin, hact, State.rd_wr_cell, hm, decide_true,
      Bool.and_true]
  have hone : OnlyCells s (s.wr F.PMU_AVSSTAT_LEASTMARGIN 0 m.toNat) [(F.PMU_AVSSTAT_LEASTMARGIN, 0)] := (OnlyCells.refl s _).wr (by simp)
  generalize s.wr F.PMU_AVSSTAT_LEASTMARGIN 0 m.toNat = u at hexec hone
  obtain ⟨hatmax, hset⟩ := setAtMax_false u
  have hsu : OnlyCells s (setAtMax u false) [(F.PMU_AVSSTAT_LEASTMARGIN, 0), (F.PMU_AVSSTAT_ATMAX, 0), (I.throtSrc, 0),
      (F.PMU_THERMSTAT_THROTTLING, 0)] := (hone.mono (by simp)).trans (hset.mono (by simp))
  generalize setAtMax u false = w at hexec hatmax hsu
  obtain ⟨hcode, honly⟩ := lowerVdd_says w
  refine ⟨_, hexec, ?_, (honly.2 _ _ (by decide)).trans hatmax, (hsu.mono (by simp)).trans (honly.mono (by simp))⟩
  rw [hcode, hsu.2 F.PMU_AVSCFG_VMIN 0 (by decide), hsu.2 I.vddCode 0 (by decide)]

end

/-- While AVS is off or frozen a margin is only shown. -/
theorem avs_inactive (hf : s.fabric = true) (hact : avsActive s = false) (m : BitVec 8) :
    Puts (.avsMarginLow m) s [(F.PMU_AVSSTAT_LEASTMARGIN, 0, m.toNat)] ∧
    Puts (.avsLower m) s [(F.PMU_AVSSTAT_LEASTMARGIN, 0, m.toNat)] := by
  constructor
  · show execAvsMarginLow m s = _
    unfold execAvsMarginLow
    simp only [hf, if_true, State.set_eq_wr, avsActive_margin, hact, Bool.false_and, Bool.false_eq_true, if_false]
    rfl
  · show execAvsLower m s = _
    unfold execAvsLower
    simp only [hf, if_true, State.set_eq_wr, avsActive_margin, hact, Bool.false_and, Bool.false_eq_true, if_false]
    rfl

/-- The step that a Dawn sequence raised is released (R60). -/
theorem avsDawnStepRelease_case {c : Fin 8} (havs : s.rd I.cluAvs c.val = 1) (hrun : cluSt s c.val = clRUN)
    (hdawn : s.rd F.CLU_STAT_DAWN c.val = 0) : Does (.avsDawnStepRelease c) s fun t => t.rd I.cluAvs c.val = 0 ∧
      t.rd I.vddCode = (if s.rd F.PMU_AVSCFG_VMIN < s.rd I.vddCode then s.rd I.vddCode - 1 else s.rd I.vddCode) ∧
      OnlyCells s t [(I.cluAvs, c.val), (I.vddCode, 0), (F.PMU_AVSSTAT_SETCODE, 0)] := by
  have hrun' : s.rd F.CLU_STAT_STATE c.val = 0 := hrun
  have hexec : exec (.avsDawnStepRelease c) s = .next (lowerVdd (s.wr I.cluAvs c.val 0)) :=
    if_pos (by rw [on_of_one havs, hrun', hdawn]; rfl)
  obtain ⟨hcode, honly⟩ := lowerVdd_says (s.wr I.cluAvs c.val 0)
  refine ⟨_, hexec, (honly.2 _ _ (by simp; exact ⟨fun h => absurd h (by decide), fun h => absurd h (by decide)⟩)).trans (State.rd_wr_same _ _ _ _), ?_,
    ((OnlyCells.refl s _).wr (by simp)).trans (honly.mono (by simp))⟩
  rw [hcode, State.rd_wr_cell _ _ _ _ _ _ (by decide), State.rd_wr_cell _ _ _ _ _ _ (by decide)]

/-! ## PMBus and slowed clocks -/

/-- A write of PMU_PMBCMD stores the transaction and, with GO, begins it (R60). -/
theorem pmbusTransaction_case (hf : s.fabric = true) (ini : Init) (v : Word) :
    Puts (.pmbusTransaction ini v) s ([(F.PMU_PMBCMD_RD, 0, bitN v.toNat 29),
      (F.PMU_PMBCMD_WORD, 0, bitN v.toNat 28), (F.PMU_PMBCMD_ADDR, 0, bits v.toNat 22 16), (F.PMU_PMBCMD_CMD, 0, bits v.toNat 15 8)] ++
        if 2 ^ 31 ≤ v.toNat then [(F.PMU_PMBCMD_GO, 0, 1)] else []) := by
  refine (if_pos hf).trans (congrArg Host.Outcome.next ?_)
  unfold pmbcmdWrite
  dsimp only
  rw [bitOf_31]
  by_cases h : 2 ^ 31 ≤ v.toNat
  · rw [decide_eq_true h, if_pos rfl, if_pos h]
    rfl
  · rw [decide_eq_false h, if_neg Bool.false_ne_true, if_neg h]
    rfl

theorem pmbusTransactionDone_case {d : BitVec 16} {err : Bool} (hgo : s.rd F.PMU_PMBCMD_GO = 1) :
    Puts (.pmbusTransactionDone d err) s ([(F.PMU_PMBCMD_GO, 0, 0), (F.PMU_PMBCMD_ERR, 0, b2n err)] ++
      if s.rd F.PMU_PMBCMD_RD = 1 ∧ err = false then
        [(F.PMU_PMBDATA_DATA, 0, if s.rd F.PMU_PMBCMD_WORD = 1 then d.toNat else d.toNat % 256)] else []) := by
  refine (if_pos (on_of_one hgo)).trans ?_
  have hrd : ((s.set F.PMU_PMBCMD_GO 0).set F.PMU_PMBCMD_ERR (b2n err)).on F.PMU_PMBCMD_RD = decide (s.rd F.PMU_PMBCMD_RD = 1) := by
    rw [on_flag _ _ rfl]
    simp (disch := decide) only [State.set_eq_wr, State.rd_wr_cell]
  have hword : ((s.set F.PMU_PMBCMD_GO 0).set F.PMU_PMBCMD_ERR (b2n err)).on F.PMU_PMBCMD_WORD = decide (s.rd F.PMU_PMBCMD_WORD = 1) := by
    rw [on_flag _ _ rfl]
    simp (disch := decide) only [State.set_eq_wr, State.rd_wr_cell]
  rw [hrd, hword]
  by_cases h : s.rd F.PMU_PMBCMD_RD = 1 ∧ err = false
  · obtain ⟨h1, rfl⟩ := h
    rw [if_pos (show (decide (s.rd F.PMU_PMBCMD_RD = 1) && !false) = true by rw [h1]; rfl),
      if_pos (show s.rd F.PMU_PMBCMD_RD = 1 ∧ false = false from ⟨h1, rfl⟩)]
    simp only [decide_eq_true_eq]
    rfl
  · rw [if_neg (show ¬ (decide (s.rd F.PMU_PMBCMD_RD = 1) && !err) = true by simpa using h), if_neg h]
    rfl

/-- An idle supervisor core halves its clock, down to SVCMAXDIV (R46). -/
theorem svcIdleSlow_case (hf : s.fabric = true) (n : Fin 4) :
    (s.rd I.svcDiv n.val < s.rd F.PMU_CLK_SVCMAXDIV → Puts (.svcIdleSlow n) s [(I.svcDiv, n.val, s.rd I.svcDiv n.val + 1)]) ∧
    (s.rd F.PMU_CLK_SVCMAXDIV ≤ s.rd I.svcDiv n.val → exec (.svcIdleSlow n) s = .next s) :=
  ⟨fun h => if_pos (by simp [hf, h]), fun h => if_neg (by simp [hf, h])⟩

end

/-- Settles O19: one law for each command of the chapter, `hottest_only` for the sensor that is compared. -/
theorem temperatureVoltageAndPmbus : Obligations.TemperatureVoltageAndPmbus := by
  unfold Obligations.TemperatureVoltageAndPmbus
  refine ⟨⟨fun s k x => tempConversion_still, fun s k x hs hvalid hw hr hc hsrc hcrit =>
    tempConversion_case hs hvalid hw hr hc hsrc hcrit, fun s ini v hf => thermcfgWrite_case hf⟩, fun s hf => ⟨fun hact =>
    ⟨fun m hm => ⟨avsMarginLow_raise hact hm, avsMarginLow_atMax hact hm⟩, fun m => avsLower_case hact, if_pos hact⟩,
    fun hact => ⟨if_neg (by rw [hact]; decide), avs_inactive hf hact⟩, fun c => avsDawnStepRelease_case,
    pmbusTransaction_case hf, fun d err => ⟨fun hgo => if_neg (by rw [on_of_zero hgo]; decide), pmbusTransactionDone_case⟩,
    svcIdleSlow_case hf⟩⟩

end Sys2Proof.Machine
end

section
/-! PROOFS.  Accumulator operations and the butterfly (chapter 5, R151, R152). -/

namespace Sys2Proof.Machine

open Safety

set_option Elab.async false

section
variable {s : State} {c : Fin 68}

/-! ## Accumulator operations -/

/-- Half h of ACn as a ready core holds it. -/
def accHalf (s : State) (b : Nat) (n : BitVec 3) (h : Nat) : Int := signedOf 40 (s.rd I.ac (16 * b + 2 * n.toNat + h))

/-- What an operation that gives each half of ACd an exact value leaves (R101, R152). -/
def HalvesTake (s : State) (c : Nat) (d : BitVec 3) (f : Nat → Int) (t : State) : Prop :=
  let b := rbank s c
  Issued s t c [(I.ac, 16 * b + 2 * d.toNat), (I.ac, 16 * b + 2 * d.toNat + 1)] [(I.acov, b)] ∧
  (∀ h, h < 2 → t.rd I.ac (16 * b + 2 * d.toNat + h) = accStored s b (f h)) ∧
  ovNoted s (settled t c) b d.toNat [f 0, f 1]

/-- An accumulator operation acts on both halves (R152). -/
theorem accOp_case (hc : CoreReady s c.val) (hov : bitOf (s.rd I.cmode (rbank s c.val)) 15 = false) (i : Instr)
    (d a : BitVec 3) (f : Int → Int → Int) (hi : exec i s = accOp s c.val true d.toNat a.toNat f) :
    Does i s (HalvesTake s c.val d fun h => f (accHalf s (rbank s c.val) d h) (accHalf s (rbank s c.val) a h)) := by
  have hstill := ready_inFlight hc
  have hexec : exec i s = go (syllable s c.val true clsM .only
      (accWrite s (rbank s c.val) d.toNat 0 (f (accHalf s (rbank s c.val) d 0) (accHalf s (rbank s c.val) a 0)) ++
        accWrite s (rbank s c.val) d.toNat 1 (f (accHalf s (rbank s c.val) d 1) (accHalf s (rbank s c.val) a 1))) []) := by
    rw [hi]
    unfold accOp mSyl
    simp only [readAc_still hstill, readAcLate_ready hc, ite_self]
    rfl
  obtain ⟨t, ht, hissued, hlow, hhigh, hover⟩ := two_halves hc i d _ _ hov hexec
  refine ⟨t, ht, hissued, fun h hh => ?_, hover⟩
  match h, hh with
  | 0, _ => exact hlow
  | 1, _ => exact hhigh

/-- ACSHA shifts left for a positive count, and right to the floor for a negative one. -/
theorem roundShift_floor (x k : Int) : roundShift true x (-k) = if 0 ≤ k then x * 2 ^ k.toNat else x / 2 ^ (-k).toNat := by
  unfold roundShift
  by_cases h : 0 ≤ k
  · rw [if_pos (by omega), if_pos h, Int.neg_neg]
    push_cast
    rfl
  · rw [if_neg (by omega), if_neg h]
    push_cast
    rfl

/-! ## D registers written two bundles later -/

/-- The results of writes to D registers, two bundles later. -/
def lateDs (s : State) (b : Nat) (regs : List (Nat × Nat)) : List Landing := (regs.map fun p => putD s b p.1 p.2 2).flatMap (newOf b)

theorem afterLandings_lateDs (b : Nat) (p : Nat × Nat) (r : List (Nat × Nat)) (j old : Nat) :
    afterLandings I.d j (lateDs s b (p :: r)) old =
      afterLandings I.d j (lateDs s b r) (if 32 * b + physD s b p.1 = j then p.2 % 2 ^ 16 else old) := by
  simp [lateDs, putD, newOf, afterLandings, putLanding, Landing.into, I.d]

/-- Results in D registers of distinct numbers, each fitting, all of latency 2. -/
theorem landing_of_mem {b : Nat} {regs : List (Nat × Nat)} (hlt : ∀ p ∈ regs, p.1 < 32)
    (hdistinct : regs.Pairwise fun p q => p.1 ≠ q.1) {k v old : Nat} (h : (k, v) ∈ regs) :
    afterLandings I.d (32 * b + physD s b k) (lateDs s b regs) old = v % 2 ^ 16 := by
  have hkeep : ∀ (r : List (Nat × Nat)) (w : Nat), (∀ p ∈ r, p.1 < 32 ∧ k ≠ p.1) → k < 32 →
      afterLandings I.d (32 * b + physD s b k) (lateDs s b r) w = w := by
    intro r
    induction r with
    | nil => intro w _ _; rfl
    | cons p r ih =>
      intro w hr hk
      obtain ⟨hp, hr⟩ := List.forall_mem_cons.mp hr
      rw [afterLandings_lateDs, if_neg fun he => hp.2 ((physD_inj s b hk hp.1).mp (Nat.add_left_cancel he.symm))]
      exact ih w hr hk
  induction regs generalizing old with
  | nil => simp at h
  | cons p r ih =>
    obtain ⟨hp, hr⟩ := List.pairwise_cons.mp hdistinct
    rcases List.mem_cons.mp h with rfl | h
    · rw [afterLandings_lateDs, if_pos rfl]
      exact hkeep r (v % 2 ^ 16) (fun q hq => ⟨hlt q (List.mem_cons_of_mem _ hq), hp q hq⟩) (hlt (k, v) (by simp))
    · rw [afterLandings_lateDs]
      exact ih (fun q hq => hlt q (List.mem_cons_of_mem _ hq)) hr h

/-- An M syllable that writes D registers of distinct numbers, two bundles later. -/
theorem late_Ds (hc : CoreReady s c.val) (i : Instr) {regs : List (Nat × Nat)} (hlt : ∀ p ∈ regs, p.1 < 32 ∧ p.2 < 2 ^ 16)
    (hdistinct : regs.Pairwise fun p q => p.1 ≠ q.1)
    (hi : exec i s = mSyl s c.val true (regs.map fun p => putD s (rbank s c.val) p.1 p.2 2) false) :
    Does i s fun t => Issued s t c.val [] ((regs.map (·.1)).map (dCell s (rbank s c.val))) ∧
      ∀ p ∈ regs, readD (settled t c.val) (rbank s c.val) p.1 = p.2 := by
  obtain ⟨hsyl, hissued, hval, hstill, hrrb⟩ := exec_late hc clsM (by decide) (regs.map fun p => putD s (rbank s c.val) p.1 p.2 2)
    (by
      intro x hx
      obtain ⟨p, -, rfl⟩ := List.mem_map.mp hx
      simp [putD, Quiet, resultCells]) (by simp [putD]) ((regs.map (·.1)).map (dCell s (rbank s c.val)))
    (by
      intro l hl
      obtain ⟨x, hx, hl⟩ := List.mem_flatMap.mp hl
      obtain ⟨p, hp, rfl⟩ := List.mem_map.mp hx
      have hl' : l = putLanding I.d (32 * rbank s c.val + physD s (rbank s c.val) p.1) p.2 2 := by simpa [putD, newOf] using hl
      subst hl'
      exact ⟨rfl, rfl, by simp [putLanding, I.d, I.rrb], dCell s (rbank s c.val) p.1,
        List.mem_map.mpr ⟨p.1, List.mem_map.mpr ⟨p, hp, rfl⟩, rfl⟩, rfl, rfl⟩) rfl
  refine ⟨_, by rw [hi, mSyl, if_neg (by decide), hsyl], hissued, fun p hp => D_two (ready_inFlight hc) hstill hrrb (hlt p hp).2 ?_⟩
  rw [hval _ (by decide)]
  exact landing_of_mem (fun q hq => (hlt q hq).1) hdistinct hp

/-! ## The butterfly -/

/-- A result of BFLY: (v·2^15 + t)·2^−k, rounded and fitted (R151). -/
def bflyResult (s : State) (b : Nat) (v t : Int) (sc : Bool) : Nat :=
  ofInt 16 (fitVal (bitOf (s.rd I.cmode b) 11) (roundShift (bitOf (s.rd I.cmode b) 10) (v * 32768 + t) (15 + b2n sc)) 16)

/-- The real and imaginary parts of BFLY's product (R151). -/
def bflyRe (s : State) (b z w : Nat) (cjw : Bool) : Int :=
  signedOf 16 (readD s b z) * signedOf 16 (readD s b w) - signedOf 16 (readD s b (z + 1)) *
    (if cjw then -signedOf 16 (readD s b (w + 1)) else signedOf 16 (readD s b (w + 1)))

def bflyIm (s : State) (b z w : Nat) (cjw : Bool) : Int :=
  signedOf 16 (readD s b z) * (if cjw then -signedOf 16 (readD s b (w + 1)) else signedOf 16 (readD s b (w + 1))) +
    signedOf 16 (readD s b (z + 1)) * signedOf 16 (readD s b w)

/-- The four results of BFLY on the complex registers at a and z, with the twiddle at w. -/
def bflyRegs (s : State) (b a z w : Nat) (sc cjw : Bool) : List (Nat × Nat) :=
  let x := fun k => signedOf 16 (readD s b k)
  [(a, bflyResult s b (x a) (bflyRe s b z w cjw) sc), (a + 1, bflyResult s b (x (a + 1)) (bflyIm s b z w cjw) sc),
   (z, bflyResult s b (x a) (-bflyRe s b z w cjw) sc), (z + 1, bflyResult s b (x (a + 1)) (-bflyIm s b z w cjw) sc)]

section
variable {ra rb rc : BitVec 5} (sc cjw : Bool) (ha : ra.toNat % 2 = 0) (hb : rb.toNat % 2 = 0) (hne : ra ≠ rb)
include ha hb hne

theorem exec_bfly (hc : CoreReady s c.val) (hrc : rc.toNat % 2 = 0) : exec (.bfly c true ra rb rc sc cjw) s = mSyl s c.val true
    ((bflyRegs s (rbank s c.val) ra.toNat rb.toNat rc.toNat sc cjw).map fun p => putD s (rbank s c.val) p.1 p.2 2) false := by
  have hnat : ra.toNat ≠ rb.toNat := fun h => hne (BitVec.eq_of_toNat_eq h)
  show execBfly c true ra rb rc sc cjw s = _
  unfold execBfly bflyPut
  dsimp only
  rw [pairBad_even ha, pairBad_even hb, pairBad_even hrc, beq_false_of_ne hnat, modeSAT_still (ready_inFlight hc),
    modeRM_still (ready_inFlight hc)]
  rfl

theorem bflyRegs_distinct (b w : Nat) : (∀ p ∈ bflyRegs s b ra.toNat rb.toNat w sc cjw, p.1 < 32 ∧ p.2 < 2 ^ 16) ∧
    (bflyRegs s b ra.toNat rb.toNat w sc cjw).Pairwise fun p q => p.1 ≠ q.1 := by
  have hlta := ra.isLt
  have hltb := rb.isLt
  have hnat : ra.toNat ≠ rb.toNat := fun h => hne (BitVec.eq_of_toNat_eq h)
  have hlt : ∀ v t, bflyResult s b v t sc < 2 ^ 16 := fun v t => ofInt_lt _ _
  constructor
  · intro p hp
    simp only [bflyRegs, List.mem_cons, List.not_mem_nil, or_false] at hp
    rcases hp with rfl | rfl | rfl | rfl
    all_goals exact ⟨by dsimp only; omega, hlt _ _⟩
  · simp only [bflyRegs, List.pairwise_cons, List.forall_mem_cons]
    simp
    omega

end

end

/-- Settles O24: `accOp_case` for each accumulator operation, `late_Ds` for the four results of the butterfly. -/
theorem accumulatorOperationsAndButterfly : Obligations.AccumulatorOperationsAndButterfly := by
  unfold Obligations.AccumulatorOperationsAndButterfly
  intro s c hc b
  refine ⟨fun d a hov => ⟨accOp_case hc hov (.acclr c true d) d d (fun _ _ => 0) rfl,
    accOp_case hc hov (.acmov c true d a) d a (fun _ x => x) rfl, accOp_case hc hov (.acadd c true d a) d a (fun y x => y + x) rfl,
    accOp_case hc hov (.acsub c true d a) d a (fun y x => y - x) rfl, accOp_case hc hov (.acneg c true d a) d a (fun _ x => -x) rfl,
    fun sh => ?_⟩, fun ra rb rc sc cjw ha hb hrc hne => ?_⟩
  · have h := accOp_case hc hov (.acsha c true d sh) d d (fun y _ => roundShift true y (-sh.toInt)) rfl
    simp only [roundShift_floor] at h
    exact h
  · obtain ⟨hlt, hdistinct⟩ := bflyRegs_distinct (s := s) sc cjw ha hb hne b rc.toNat
    obtain ⟨t, ht, hissued, hval⟩ := late_Ds hc _ hlt hdistinct (exec_bfly sc cjw ha hb hne hc hrc)
    obtain ⟨h0, h1, h2, h3, -⟩ := by simpa only [bflyRegs, List.forall_mem_cons] using hval
    exact ⟨t, ht, hissued, h0, h1, h2, h3⟩

end Sys2Proof.Machine
end

section
/-! PROOFS.  Loads and stores of a ready core (chapters 4 and 5). -/

namespace Sys2Proof.Machine

open Safety

set_option Elab.async false

section
variable {s : State} {c : Nat}

/-- Beginning an issue moves no frame: the context view is as before (R106). -/
theorem viewFrame_begun (s : State) (c a : Nat) : viewFrame (begun s c) c a = viewFrame s c a := by
  have hcells : (fetched s c).cells = s.cells := by rw [fetched_same s c]
  have hframes : frames (begun s c) = frames s := by
    show ((fetched s c).wr I.qstall c 0).nonzero F.CPG_FRAME_STATE = _
    rw [nonzero_wr_other _ _ _ _ _ (by decide)]
    unfold State.nonzero frames State.nonzero
    rw [hcells]
  have hrd : ∀ (g : Fld) j, I.qstall.id ≠ g.id → (begun s c).rd g j = s.rd g j := fun g j hg => begun_ready g j hg
  unfold viewFrame stagedFrame framesOn holds ownedBy coreTask coreCid coreTask frSt State.on
  simp (disch := decide) only [hframes, hrd]

theorem readLE_of_mem {t u : State} (h : t.mem = u.mem) (a n : Nat) : t.readLE a n = u.readLE a n := by
  unfold State.readLE State.readBytes State.byte
  rw [h]

theorem byte_of_mem {t u : State} (h : t.mem = u.mem) (a : Nat) : t.byte a = u.byte a := congrArg (Tbl.get Memory.unwritten · a) h

theorem begun_mem (s : State) (c : Nat) : (begun s c).mem = s.mem := by
  obtain ⟨hcode, -, -, -⟩ := begun_fields s c
  rw [hcode]

/-- A bundle changes memory only by its accesses. -/
theorem issuedAfter_mem {s u t : State} {c : Nat} {now late : List (Fld × Nat)} (h : IssuedAfter s u t c now late) : t.mem = u.mem := by
  obtain ⟨-, -, ⟨hcode, -⟩, -⟩ := h
  rw [hcode]

section
variable {a f n : Nat} (hc : c < 64) (ha : a < 0x10000) (hf : viewFrame s c a = some f)
include hc ha hf

/-- A load in the context view reads the staged page (R106). -/
theorem coreRead_view : coreRead (begun s c) c a n = (s.readLE (frameAddr f + a % 4096) n, begun s c) := by
  unfold coreRead isSvc
  rw [decide_eq_false (by omega), if_neg Bool.false_ne_true, if_neg (by omega), viewFrame_begun, hf]
  dsimp only
  rw [readLE_of_mem (begun_mem s c)]

/-- A store in the context view writes the staged page and marks it dirty (R106, R217). -/
theorem coreWrite_view (v : Nat) :
    coreWrite (begun s c) c a n v = markDirty ((begun s c).writeLE (frameAddr f + a % 4096) n v) f := by
  unfold coreWrite isSvc
  rw [decide_eq_false (by omega), if_neg Bool.false_ne_true, if_neg (by omega), viewFrame_begun, hf]

end

theorem writeLE_of_mem_eq {t u : State} {a n v : Nat} (h : t.mem = (u.writeLE a n v).mem) (hv : v < 256 ^ n) :
    t.readLE a n = v ∧ ∀ x, x < a ∨ a + n ≤ x → t.byte x = u.byte x := by
  refine ⟨?_, fun x hx => ?_⟩
  · rw [readLE_of_mem h, State.readLE_writeLE, Nat.mod_eq_of_lt hv]
  · rw [byte_of_mem h, State.byte_writeLE, if_neg (by omega)]

/-- n D registers hold n halfwords. -/
theorem dValue_lt (hstill : inFlight s c = []) (reg n : Nat) : dValue s c reg n < 256 ^ (2 * n) := by
  have hlt : ∀ l : List Nat, l.foldr (fun k v => readD s c (reg + k) + 2 ^ 16 * v) 0 < 256 ^ (2 * l.length) := by
    intro l
    induction l with
    | nil => simp
    | cons k r ih =>
      have hd := readD_lt hstill (reg + k)
      rw [List.foldr_cons, List.length_cons, Nat.mul_succ, Nat.pow_add, Nat.mul_comm _ (256 ^ 2)]
      generalize 256 ^ (2 * r.length) = m at *
      omega
  have h := hlt (List.range n)
  rwa [List.length_range] at h

end

/-- Settles O26: `load_case` and `store_case`, with the staged page of the context view as what they read and write. -/
theorem loadsAndStoresMoveTheirBytes : Obligations.LoadsAndStoresMoveTheirBytes := by
  unfold Obligations.LoadsAndStoresMoveTheirBytes
  intro s c port mode reg ptr hc b p at' moved pointed legal ld st
  have hld : ∀ i n, (n = 1 ∨ n = 2 ∨ n = 4) → exec i s = loadD s c.val true .only port mode reg.toNat ptr.toNat n → ld i n := by
    intro i n hn hi hlegal hmeet u hkeep
    obtain ⟨hill, hlen, hreg⟩ := hlegal
    obtain ⟨t, ht, hissued, hptr, hval⟩ := load_case hc i port mode reg ptr n hn hi hill hlen hreg hmeet hkeep
    refine ⟨t, ht, hissued, hptr, hval, fun f hlt ha hf => ?_⟩
    have hu : u = (s.readLE (frameAddr f + (at' n).addr % 4096) (2 * n), begun s c.val) := coreRead_view hlt ha hf
    have hmem := issuedAfter_mem hissued
    exact ⟨congrArg Prod.fst hu, hmem.trans ((congrArg (fun r : Nat × State => r.2.mem) hu).trans (begun_mem s c.val))⟩
  have hst : ∀ i n, exec i s = storeD s c.val true .only port mode reg.toNat ptr.toNat n → st i n := by
    intro i n hi hlegal v hmeet u hkeep
    obtain ⟨hill, hlen, hreg⟩ := hlegal
    obtain ⟨t, ht, hissued, hptr⟩ := store_case hc i port mode reg ptr n v rfl hi hill hlen hreg hmeet hkeep
    refine ⟨t, ht, hissued, hptr, fun f hlt ha hf => ?_⟩
    intro a
    have hu : u = markDirty ((begun s c.val).writeLE a (2 * n) v) f := coreWrite_view hlt ha hf v
    have hmem : t.mem = ((begun s c.val).writeLE a (2 * n) v).mem := (issuedAfter_mem hissued).trans (show u.mem = _ by rw [hu]; rfl)
    obtain ⟨hread, hother⟩ := writeLE_of_mem_eq hmem (dValue_lt (ready_inFlight hc) reg.toNat n)
    exact ⟨hread, fun x hx => (hother x hx).trans (byte_of_mem (begun_mem s c.val) x)⟩
  exact ⟨hld _ 1 (by simp) rfl, hld _ 2 (by simp) rfl, hld _ 4 (by simp) rfl, hst _ 1 rfl, hst _ 2 rfl, hst _ 4 rfl,
    fun v hv ha => put_I_p hc port mode ptr v hv ha⟩

end Sys2Proof.Machine
end

section
/-! PROOFS.  Hardware loops and the end of the delay bundles (chapters 4 and 5). -/

namespace Sys2Proof.Machine

open Safety

set_option Elab.async false

/-! ## What the PC does at the end of a body -/

section
variable {u : State} {b : Nat}

/-- The rotation of a LOOPR level (R122). -/
def rotation (u : State) (b : Nat) : List (Fld × Nat × Nat) :=
  if bitOf (u.rd I.rot b) 0 then [(I.rrb, b, (u.rd I.rrb b + 15) % 16)] else []

theorem rotate_puts (u : State) (b : Nat) : rotate u b 0 = puts u (rotation u b) := by
  unfold rotate rotation
  split <;> rfl

/-- A rotation moves RRB alone. -/
theorem rotated_rd {g : Fld} (j : Nat) (hg : I.rrb.id ≠ g.id) : (puts u (rotation u b)).rd g j = u.rd g j := by
  unfold rotation
  split
  · exact State.rd_wr_cell _ _ _ _ _ _ hg
  · rfl

theorem rotated_rrb : (puts u (rotation u b)).rd I.rrb b = if bitOf (u.rd I.rot b) 0 then (u.rd I.rrb b + 15) % 16 else u.rd I.rrb b := by
  unfold rotation
  split
  · exact (State.rd_wr_same _ _ _ _).trans (Nat.mod_mod _ 16)
  · rfl

/-- What `advance` writes when the body of level 0 goes round again (R120). -/
def roundWrites (u : State) (b : Nat) : List (Fld × Nat × Nat) :=
  rotation u b ++ [(I.lc, 2 * b, u.rd I.lc (2 * b) + 65535), (I.pcb, b, u.rd I.ls (2 * b))]

/-- What it writes when the level ends (R120). -/
def endWrites (u : State) (b : Nat) : List (Fld × Nat × Nat) :=
  rotation u b ++ [(I.lc, 2 * b, 0), (I.act, b, 0), (I.pcb, b, u.rd I.pcb b + 4)]

section
variable (hdly : u.rd I.dly b = 0) (hact : u.rd I.act b = 1) (hle : u.rd I.le (2 * b) = u.rd I.pcb b)
include hdly hact hle

omit hdly in
/-- Level 0 alone is active, and at its end. -/
theorem loopEnd_levels : loopEnd u b 1 = (u, true) ∧ atLoopEnd u b 0 = true := by
  have h1 : atLoopEnd u b 1 = false := by
    unfold atLoopEnd loopActive
    rw [hact]
    rfl
  constructor
  · unfold loopEnd
    rw [h1]
    rfl
  · unfold atLoopEnd loopActive
    rw [hact, Nat.add_zero, hle, beq_self_eq_true]
    rfl

theorem advance_round (hlc : 1 < u.rd I.lc (2 * b)) : advance u b 1 none = puts u (roundWrites u b) := by
  obtain ⟨hone, hzero⟩ := loopEnd_levels hact hle
  have hround : goesRound u b 0 = true := by
    unfold goesRound
    rw [Nat.add_zero, decide_eq_true hlc]
    rfl
  have hend : loopEnd u b 0 = (puts u (roundWrites u b), false) := by
    unfold loopEnd
    dsimp only
    rw [if_pos hzero, if_pos hround, rotate_puts, Nat.add_zero, rotated_rd _ (by decide), rotated_rd _ (by decide), roundWrites, puts_append]
    rfl
  have hdly' : (puts u (roundWrites u b)).rd I.dly b = 0 := by
    rw [roundWrites, puts_append, puts_cell _ _ _ _ (by simp; decide), rotated_rd _ (by decide), hdly]
  unfold advance loopEnds
  simp only [hone, hend, if_true, Bool.false_eq_true, if_false, State.on_eq, hdly', bne_self_eq_false]

theorem advance_end (hlc : u.rd I.lc (2 * b) = 1) : advance u b 1 none = puts u (endWrites u b) := by
  obtain ⟨hone, hzero⟩ := loopEnd_levels hact hle
  have hround : ¬ goesRound u b 0 = true := by
    unfold goesRound
    rw [Nat.add_zero, hlc]
    simp
  have hend : loopEnd u b 0 = (puts u (rotation u b ++ [(I.lc, 2 * b, 0), (I.act, b, 0)]), true) := by
    unfold loopEnd endLevel
    dsimp only
    rw [if_pos hzero, if_neg hround, rotate_puts, Nat.add_zero, State.rd_wr_cell _ _ _ _ _ _ (by decide), rotated_rd _ (by decide), hact,
      puts_append]
    rfl
  have hall : (puts u (rotation u b ++ [(I.lc, 2 * b, 0), (I.act, b, 0)])).wr I.pcb b (u.rd I.pcb b + 4 * 1) = puts u (endWrites u b) := by
    rw [endWrites, puts_append, puts_append]
    rfl
  have hdly' : (puts u (endWrites u b)).rd I.dly b = 0 := by
    rw [endWrites, puts_append, puts_cell _ _ _ _ (by simp; decide), rotated_rd _ (by decide), hdly]
  unfold advance loopEnds
  simp only [hone, hend, hall, if_true, Bool.false_eq_true, if_false, State.on_eq, hdly', bne_self_eq_false]

end

/-- The second delay bundle of a taken branch ends at its target (R116). -/
theorem advance_taken (hact : u.rd I.act b = 0) (hdly : u.rd I.dly b = 1) (htaken : u.rd I.btaken b = 1) :
    advance u b 1 none = puts u [(I.pcb, b, u.rd I.pcb b + 4), (I.dly, b, 0), (I.pcb, b, u.rd I.btgt b / 4 * 4), (I.btaken, b, 0)] := by
  have hends : ∀ n, loopEnd u b n = (u, true) := fun n => by
    unfold loopEnd atLoopEnd loopActive
    rw [hact]
    simp [bitOf]
  unfold advance loopEnds takeBranch loopActive
  simp only [hends, if_true]
  simp (disch := decide) only [State.on_eq, State.rd_wr_cell, State.rd_wr_same, hdly, htaken, hact]
  rfl

end

/-! ## The commands -/

section
variable {s : State} {c : Fin 68}

/-- Of a core at a boundary, what `advance` looks at is as before the issue begins. -/
theorem begun_advances (hc : CoreAwake s c.val) (writes : State → List (Fld × Nat × Nat)) {now : List (Fld × Nat)}
    (hadv : advance (begun s c.val) (rbank s c.val) 1 none = puts (begun s c.val) (writes (begun s c.val)))
    (hends : s.on I.dly (rbank s c.val) = true → atLoopEnd s (rbank s c.val) 0 = false ∧ atLoopEnd s (rbank s c.val) 1 = false)
    (hnow : ∀ p ∈ now, p.1 ∈ flowCells)
    (hwrites : ∀ p ∈ writes (begun s c.val), (p.1, p.2.1) = (I.pcb, rbank s c.val) ∨ (p.1, p.2.1) ∈ now) :
    Does (.nop c true false) s fun t => (∀ g ∈ flowCells, ∀ j, t.rd g j = (puts (begun s c.val) (writes (begun s c.val))).rd g j) ∧
      pcOf t c.val = (puts (begun s c.val) (writes (begun s c.val))).rd I.pcb (rbank s c.val) := by
  obtain ⟨t, ht, -, hflow, hpc⟩ := awake_nop hc false hends now hnow (by
    rw [hadv]
    refine (OnlyCells.puts _ _).2.mono fun p hp => ?_
    obtain ⟨q, hq, rfl⟩ := List.mem_map.mp hp
    rcases hwrites q hq with h | h
    · rw [h]; simp
    · exact List.mem_cons_of_mem _ h)
  rw [hadv] at hflow hpc
  exact ⟨t, ht, hflow, hpc⟩

theorem begun_flow (g : Fld) (hg : I.qstall.id ≠ g.id) (j : Nat) : (begun s c.val).rd g j = s.rd g j := begun_ready g j hg

section
variable (hc : CoreAwake s c.val) (hdly : s.rd I.dly (rbank s c.val) = 0) (hact : s.rd I.act (rbank s c.val) = 1)
    (hle : s.rd I.le (2 * rbank s c.val) = pcOf s c.val)
include hc hdly hact hle

/-- A count above 1 goes back to LS (R120, R122). -/
theorem loop_round_case (hlc : 1 < s.rd I.lc (2 * rbank s c.val)) : Does (.nop c true false) s fun t =>
    pcOf t c.val = s.rd I.ls (2 * rbank s c.val) ∧ t.rd I.lc (2 * rbank s c.val) = s.rd I.lc (2 * rbank s c.val) - 1 ∧
    t.rd I.act (rbank s c.val) = 1 ∧ t.rd I.rrb (rbank s c.val) =
      (if bitOf (s.rd I.rot (rbank s c.val)) 0 then (s.rd I.rrb (rbank s c.val) + 15) % 16 else s.rd I.rrb (rbank s c.val)) := by
  generalize hb : rbank s c.val = b at *
  have hadv := advance_round (u := begun s c.val) (b := b) ((begun_flow _ (by decide) _).trans hdly) ((begun_flow _ (by decide) _).trans hact)
    (by rw [begun_flow _ (by decide), begun_flow _ (by decide), hle, pcOf, hb]) (by rwa [begun_flow _ (by decide)])
  obtain ⟨t, ht, hflow, hpc⟩ := begun_advances hc (fun u => roundWrites u b) (now := [(I.lc, 2 * b), (I.rrb, b)]) (by rwa [hb])
    (by rw [hb, State.on_eq, hdly]; simp) (by simp [flowCells]) (by unfold roundWrites rotation; split <;> simp [hb])
  have hlt : s.rd I.lc (2 * b) < 2 ^ 16 := State.rd_lt s I.lc _
  have hls : s.rd I.ls (2 * b) < 2 ^ 32 := State.rd_lt s I.ls _
  refine ⟨t, ht, hpc.trans ?_, (hflow _ (by decide) _).trans ?_, (hflow _ (by decide) _).trans ?_, (hflow _ (by decide) _).trans ?_⟩
  · rw [hb, roundWrites, puts_append, puts_cons, puts_cons, puts_nil, State.rd_wr_same, begun_flow _ (by decide)]
    exact Nat.mod_eq_of_lt hls
  · rw [roundWrites, puts_append, puts_cons, puts_cons, puts_nil, State.rd_wr_cell _ _ _ _ _ _ (by decide), State.rd_wr_same,
      begun_flow _ (by decide), show I.lc.w = 16 from rfl]
    omega
  · rw [roundWrites, puts_append, puts_cell _ _ _ _ (by simp; decide), rotated_rd _ (by decide), begun_flow _ (by decide), hact]
  · rw [roundWrites, puts_append, puts_cell _ _ _ _ (by simp; decide), rotated_rrb, begun_flow _ (by decide), begun_flow _ (by decide)]

/-- A count of 1 ends the level and falls through (R120, R122). -/
theorem loop_end_case (hlc : s.rd I.lc (2 * rbank s c.val) = 1) : Does (.nop c true false) s fun t =>
    pcOf t c.val = (pcOf s c.val + 4) % 2 ^ 32 ∧ t.rd I.lc (2 * rbank s c.val) = 0 ∧
    t.rd I.act (rbank s c.val) = 0 ∧ t.rd I.rrb (rbank s c.val) =
      (if bitOf (s.rd I.rot (rbank s c.val)) 0 then (s.rd I.rrb (rbank s c.val) + 15) % 16 else s.rd I.rrb (rbank s c.val)) := by
  generalize hb : rbank s c.val = b at *
  have hadv := advance_end (u := begun s c.val) (b := b) ((begun_flow _ (by decide) _).trans hdly) ((begun_flow _ (by decide) _).trans hact)
    (by rw [begun_flow _ (by decide), begun_flow _ (by decide), hle, pcOf, hb]) ((begun_flow _ (by decide) _).trans hlc)
  obtain ⟨t, ht, hflow, hpc⟩ := begun_advances hc (fun u => endWrites u b) (now := [(I.lc, 2 * b), (I.act, b), (I.rrb, b)]) (by rwa [hb])
    (by rw [hb, State.on_eq, hdly]; simp) (by simp [flowCells]) (by unfold endWrites rotation; split <;> simp [hb])
  refine ⟨t, ht, hpc.trans ?_, (hflow _ (by decide) _).trans ?_, (hflow _ (by decide) _).trans ?_, (hflow _ (by decide) _).trans ?_⟩
  · rw [hb, endWrites, puts_append, puts_cons, puts_cons, puts_cons, puts_nil, State.rd_wr_same, begun_flow _ (by decide), pcOf, hb]
    rfl
  · rw [endWrites, puts_append, puts_cons, puts_cons, puts_cons, puts_nil, State.rd_wr_cell _ _ _ _ _ _ (by decide),
      State.rd_wr_cell _ _ _ _ _ _ (by decide), State.rd_wr_same]
    rfl
  · rw [endWrites, puts_append, puts_cons, puts_cons, puts_cons, puts_nil, State.rd_wr_cell _ _ _ _ _ _ (by decide), State.rd_wr_same]
    rfl
  · rw [endWrites, puts_append, puts_cell _ _ _ _ (by simp; decide), rotated_rrb, begun_flow _ (by decide), begun_flow _ (by decide)]

end

/-- At the end of the second delay bundle a taken branch reaches its target (R116). -/
theorem branch_taken_case (hc : CoreAwake s c.val) (hact : s.rd I.act (rbank s c.val) = 0) (hdly : s.rd I.dly (rbank s c.val) = 1)
    (htaken : s.rd I.btaken (rbank s c.val) = 1) : Does (.nop c true false) s fun t =>
      pcOf t c.val = s.rd I.btgt (rbank s c.val) / 4 * 4 ∧ t.rd I.dly (rbank s c.val) = 0 ∧ t.rd I.btaken (rbank s c.val) = 0 := by
  generalize hb : rbank s c.val = b at *
  have hadv := advance_taken (u := begun s c.val) (b := b) ((begun_flow _ (by decide) _).trans hact)
    ((begun_flow _ (by decide) _).trans hdly) ((begun_flow _ (by decide) _).trans htaken)
  have hidle : ∀ n, atLoopEnd s b n = false := fun n => by
    unfold atLoopEnd loopActive
    rw [hact]
    simp [bitOf]
  obtain ⟨t, ht, hflow, hpc⟩ := begun_advances hc
    (fun u => [(I.pcb, b, u.rd I.pcb b + 4), (I.dly, b, 0), (I.pcb, b, u.rd I.btgt b / 4 * 4), (I.btaken, b, 0)])
    (now := [(I.dly, b), (I.btaken, b)]) (by rwa [hb]) (fun _ => hb ▸ ⟨hidle 0, hidle 1⟩) (by simp [flowCells]) (by simp [hb])
  have hlt : s.rd I.btgt b < 2 ^ 32 := State.rd_lt s I.btgt b
  simp (disch := decide) only [puts_cons, puts_nil, hb, State.rd_wr_cell, State.rd_wr_same, begun_flow] at hpc hflow
  refine ⟨t, ht, hpc.trans (Nat.mod_eq_of_lt ?_), (hflow _ (by decide) _).trans ?_, (hflow _ (by decide) _).trans ?_⟩
  · exact Nat.lt_of_le_of_lt (Nat.div_mul_le_self _ _) hlt
  · simp (disch := decide) only [State.rd_wr_cell, State.rd_wr_same]
    rfl
  · exact State.rd_wr_same _ _ _ _

/-- LOOP and LOOPR with a count from the syllable or a register. -/
theorem exec_loopSyl {off : BitVec 12} (hoff : off ≠ 0) (count : LoopCount) (rotates : Bool) :
    loopSyl s c.val true count off.toNat rotates =
      sSyl s c.val true [.act (.loop rotates (loopCount s (rbank s c.val) count) off.toNat)] [] := by
  have hne : (off.toNat == 0) = false := beq_false_of_ne fun h => hoff (BitVec.eq_of_toNat_eq h)
  unfold loopSyl illegalIf
  rw [hne]
  rfl

end

/-- Settles O28: `loop_case` for the loop instructions, `advance` for the ends of bodies and delay bundles. -/
theorem loopsCountTheirBodies : Obligations.LoopsCountTheirBodies := by
  unfold Obligations.LoopsCountTheirBodies
  intro s c hc
  refine ⟨fun hdly hact h0 h1 off hoff => ⟨fun n => ?_, fun r => ?_⟩, fun hdly hact hle =>
    ⟨loop_round_case hc hdly hact hle, loop_end_case hc hdly hact hle⟩, branch_taken_case hc⟩
  · have hlt : n.toNat < 65536 := by have := n.isLt; omega
    exact ⟨loop_case hc n.toNat off false _ hdly hact hlt h0 h1 (exec_loopSyl hoff (.imm n) false),
      loop_case hc n.toNat off true _ hdly hact hlt h0 h1 (exec_loopSyl hoff (.imm n) true)⟩
  · obtain ⟨-, -, -, -, -, hstill, -⟩ := id hc
    have hlt : readD s (rbank s c.val) r.toNat < 65536 := readD_lt hstill _
    exact ⟨loop_case hc _ off false _ hdly hact hlt h0 h1 (exec_loopSyl hoff (.reg r) false),
      loop_case hc _ off true _ hdly hact hlt h0 h1 (exec_loopSyl hoff (.reg r) true)⟩

end Sys2Proof.Machine
end

section
/-! PROOFS.  A bundle of two syllables (chapter 4, R110, R112). -/

namespace Sys2Proof.Machine

open Safety

set_option Elab.async false

theorem Tbl.drop_ins {α : Type} (k : Nat) (v : α) (t : Tbl α) : Tbl.drop k (Tbl.ins k v t) = Tbl.drop k t := by
  induction t with
  | nil => simp [Tbl.ins, Tbl.drop]
  | cons e r ih =>
    obtain ⟨i, a⟩ := e
    unfold Tbl.ins
    split
    · simp [Tbl.drop]
    · simp [Tbl.drop, ih]

theorem Tbl.drop_put {α : Type} [DecidableEq α] (d : α) (k : Nat) (v : α) (t : Tbl α) :
    Tbl.drop k (Tbl.put d k v t) = Tbl.drop k t := by
  unfold Tbl.put
  split
  · exact Tbl.drop_drop k t
  · rw [Tbl.drop_ins, Tbl.drop_drop]

section
variable {s : State} {c : Nat}

/-! ## The issue of a bundle whose effects stay in the core -/

/-- A bundle with quiet effects, outside loops and delay slots, issues at once. -/
theorem issue_quiet (x : Bundle) (hx : ∀ e ∈ x.effs, Quiet e) (hfl : inFlight s (rbank s c) = []) (hact : s.rd I.act (rbank s c) = 0)
    (hdly : s.rd I.dly (rbank s c) = 0) (harith : s.rd I.arith (rbank s c) = 0)
    (hov : bitOf (s.rd I.cmode (rbank s c)) 15 = false) :
    issue s c x = arithDue (bundleEnd ((started s c).wr I.pcb (rbank s c) (s.rd I.pcb (rbank s c) + 4 * x.n)) (rbank s c)
      (x.effs.flatMap (newOf (rbank s c))) (macOld s x.effs)) c := by
  have hrd : ∀ g j, I.qstall.id ≠ g.id → (started s c).rd g j = s.rd g j := fun g j hg => started_rd _ _ _ _ fun h => absurd h hg
  have hbank : rbank (started s c) c = rbank s c := rbank_congr c (hrd _ _ (by decide))
  have hadv : advance (started s c) (rbank s c) x.n none = (started s c).wr I.pcb (rbank s c) (s.rd I.pcb (rbank s c) + 4 * x.n) := by
    rw [advance_plain _ _ _ ((hrd _ _ (by decide)).trans hact) ((hrd _ _ (by decide)).trans hdly), hrd _ _ (by decide)]
  have hstill : inFlight ((started s c).wr I.pcb (rbank s c) (s.rd I.pcb (rbank s c) + 4 * x.n)) (rbank s c) = [] := hfl
  have hnote : arithNote ((started s c).wr I.pcb (rbank s c) (s.rd I.pcb (rbank s c) + 4 * x.n)) (rbank s c) x.effs =
      (started s c).wr I.pcb (rbank s c) (s.rd I.pcb (rbank s c) + 4 * x.n) := by
    refine arithNote_none _ _ _ ?_ (.inr ?_)
    · rw [State.rd_wr_cell _ _ _ _ _ _ (by decide), hrd _ _ (by decide), harith]
    · unfold modeOVTRAP modeReg
      rw [cr_still hstill, State.rd_wr_cell _ _ _ _ _ _ (by decide), hrd _ _ (by decide), hov]
  have hmac : macOld (started s c) x.effs = macOld s x.effs := by
    unfold macOld
    refine congrArg (List.filterMap · x.effs) (funext fun e => ?_)
    cases e <;> simp only [hrd I.ac _ (by decide)]
  have hp : effsNow c (started s c) (issueOrder c x.effs) = (started s c, x.effs.flatMap (newOf (rbank s c))) := by
    rw [issueOrder_quiet c _ hx, effsNow_quiet _ c _ hx, hbank]
  have hb := bundleAct_quiet _ hx
  have hstart : ({ s.wr I.qstall c 0 with bundles := Tbl.drop c s.bundles } : State) = started s c := rfl
  unfold issue
  simp only [hb, hstart, hp, hadv, hnote, landings_empty _ _ _ hstill, hmac]
  rfl

/-- A complete bundle with quiet effects and no cause issues. -/
theorem closeBundle_quiet (x : Bundle) (hx : ∀ e ∈ x.effs, Quiet e) (hcauses : x.causes = []) (hact : s.rd I.act (rbank s c) = 0)
    (hdly : s.rd I.dly (rbank s c) = 0) : closeBundle s c x = boundary (issue s c x) c := by
  unfold closeBundle
  rw [hcauses, seqCauses_none _ _ _ hact hdly, meetCauses_quiet _ _ _ hx, faultAddrs_quiet _ _ _ hx, queueWaits_quiet _ _ hx]
  rfl

end

/-! ## A MAC and a MOVI -/

section
variable {s : State} {c : Fin 68}

/-- The state in which a first syllable waits for the end of its bundle. -/
def waiting (s : State) (c : Nat) (x : Bundle) : State :=
  { fetched s c with bundles := Tbl.put Bundle.empty c x (fetched s c).bundles }

theorem waiting_same (s : State) (c : Nat) (x : Bundle) : waiting s c x = { s with
    bundles := Tbl.put Bundle.empty c x s.bundles, iLines := (fetched s c).iLines, tlbs := (fetched s c).tlbs,
    freeCtr := (fetched s c).freeCtr } := by
  have h := fetched_same s c
  unfold SameButFetch at h
  unfold waiting
  rw [h]

theorem waiting_rd (s : State) (c : Nat) (x : Bundle) (g : Fld) (j : Nat) : (waiting s c x).rd g j = s.rd g j := by
  rw [waiting_same]
  rfl

theorem waiting_inFlight (s : State) (c b : Nat) (x : Bundle) : inFlight (waiting s c x) b = inFlight s b := by
  unfold inFlight
  rw [waiting_same]

/-- A first syllable without the E bit waits in the buffer. -/
theorem syllable_waits (hc : CoreReady s c.val) (effs : List Eff) :
    syllable s c.val false clsM .only effs [] = waiting s c.val (oneOf clsM effs) := by
  obtain ⟨hlive, hhalt, -, -, hempty, -, -, -, -, -, -, hfetch⟩ := hc
  have hmay : mayIssue s c.val = true := by simp [mayIssue, hlive, hhalt]
  have hadd : Bundle.add Bundle.empty s c.val false clsM effs [] = oneOf clsM effs := by
    have hnone : (fetchAddr s c.val (s.rd I.pcb (rbank s c.val))).isNone = false := by simpa using hfetch
    simp [Bundle.add, misplaced, Bundle.empty, oneOf, clsM, clsL, clsS, hnone]
  unfold syllable
  rw [hempty]
  simp [hmay, hadd, show Bundle.empty.closed = false from rfl, show Bundle.empty.n = 0 from rfl, show (oneOf clsM effs).n = 1 from rfl]
  rfl

/-- The bundle of an M syllable and an S syllable. -/
def twoOf (effs more : List Eff) : Bundle := ⟨2, 1, false, true, effs ++ more, [], false⟩

/-- The second syllable, with the E bit, closes the bundle of both. -/
theorem syllable_joins {u : State} {pc : Nat} {effs : List Eff} (more : List Eff) (hbundle : bundleOf u c.val = oneOf clsM effs)
    (hmay : mayIssue u c.val = true) (hpc : u.rd I.pcb (rbank u c.val) = pc) (hfetch : (fetchAddr u c.val (pc + 4)).isSome = true) :
    syllable u c.val true clsS .only more [] = closeBundle (fetchLine u c.val (pc + 4)) c.val (twoOf effs more) := by
  have hnone : (fetchAddr u c.val (pc + 4)).isNone = false := by simpa using hfetch
  have hadd : Bundle.add (oneOf clsM effs) u c.val true clsS more [] = twoOf effs more := by
    unfold Bundle.add
    rw [hpc]
    dsimp only [oneOf]
    rw [Nat.mul_one, hnone]
    simp [twoOf, misplaced, clsM, clsL, clsS, b2n]
  unfold syllable
  rw [hbundle]
  dsimp only
  rw [hadd, hpc, hmay]
  simp [oneOf]

theorem waiting_joins (hc : CoreReady s c.val) (effs more : List Eff)
    (hfetch : (fetchAddr (fetched s c.val) c.val (pcOf s c.val + 4)).isSome = true) :
    syllable (waiting s c.val (oneOf clsM effs)) c.val true clsS .only more [] =
      closeBundle (fetchLine (waiting s c.val (oneOf clsM effs)) c.val (pcOf s c.val + 4)) c.val (twoOf effs more) := by
  have hrd := waiting_rd s c.val (oneOf clsM effs)
  obtain ⟨hlive, hhalt, -⟩ := hc
  have hlive' : coreLive (waiting s c.val (oneOf clsM effs)) c.val = coreLive s c.val := by
    rw [waiting_same]
    rfl
  have hhalt' : halted (waiting s c.val (oneOf clsM effs)) c.val = halted s c.val := by
    rw [waiting_same]
    rfl
  refine syllable_joins more ?_ (by simp [mayIssue, hlive', hhalt', hlive, hhalt]) ?_ ?_
  · exact Tbl.get_put_same Bundle.empty c.val (oneOf clsM effs) (fetched s c.val).bundles
  · rw [rbank_congr _ (hrd _ _), hrd]
    rfl
  · exact (congrArg Option.isSome (fetchAddr_congr c.val _ rfl rfl rfl rfl (fun _ => rfl) rfl)).trans hfetch

/-- What a bundle of a MAC and a MOVI does to the registers of its core: both results from the operands before (R112). -/
theorem issue_two (hc : CoreReady s c.val) (hov : bitOf (s.rd I.cmode (rbank s c.val)) 15 = false) (effs more : List Eff)
    (hquiet : ∀ e ∈ effs ++ more, Quiet e) {now late : List (Fld × Nat)}
    (hnow : ∀ l ∈ (effs ++ more).flatMap (newOf (rbank s c.val)), l.left ≤ 1 → ∃ p ∈ now, p.1.id = l.fld.id ∧ p.2 = l.inst)
    (hlate : ∀ l ∈ (effs ++ more).flatMap (newOf (rbank s c.val)), ∃ p ∈ now ++ late, p.1.id = l.fld.id ∧ p.2 = l.inst)
    (hbank : ∀ p ∈ now, p.1.id ≠ I.bank.id)
    (hfetch : (fetchAddr (fetched s c.val) c.val (pcOf s c.val + 4)).isSome = true) :
    ∃ t, syllable (waiting s c.val (oneOf clsM effs)) c.val true clsS .only more [] = t ∧ Framed s t c.val now late ∧
      pcOf t c.val = (pcOf s c.val + 8) % 2 ^ 32 ∧
      inFlight t (rbank s c.val) = stay ((effs ++ more).flatMap (newOf (rbank s c.val))) ∧
      ∀ g ∈ resultCells, ∀ j, t.rd g j = afterLandings g j
        (((effs ++ more).flatMap (newOf (rbank s c.val))).filter fun l => decide (l.left ≤ 1)) (s.rd g j) := by
  obtain ⟨-, -, -, -, -, hstill, -, hact, hdly, harith, -, -⟩ := id hc
  generalize hv : fetchLine (waiting s c.val (oneOf clsM effs)) c.val (pcOf s c.val + 4) = v
  have hfetched : SameButFetch (waiting s c.val (oneOf clsM effs)) v := hv ▸ fetchLine_same _ _ _
  have hrd : ∀ g j, v.rd g j = s.rd g j := fun g j => (hfetched.rd g j).trans (waiting_rd _ _ _ _ _)
  have hvb : rbank v c.val = rbank s c.val := rbank_congr _ (hrd _ _)
  have hvsame : v = { s with
      bundles := Tbl.put Bundle.empty c.val (oneOf clsM effs) s.bundles, iLines := v.iLines, tlbs := v.tlbs, freeCtr := v.freeCtr } := by
    unfold SameButFetch at hfetched
    rw [hfetched, waiting_same]
  have hvfl : inFlight v (rbank v c.val) = [] := by
    rw [hvb, hvsame]
    exact hstill
  have hactv : v.rd I.act (rbank v c.val) = 0 := by rw [hvb, hrd, hact]
  have hdlyv : v.rd I.dly (rbank v c.val) = 0 := by rw [hvb, hrd, hdly]
  have hissue := issue_quiet (s := v) (c := c.val) (twoOf effs more) hquiet hvfl hactv hdlyv (by rw [hvb, hrd, harith]) (by rw [hvb, hrd, hov])
  rw [hvb, hrd] at hissue
  generalize hw : (started v c.val).wr I.pcb (rbank s c.val) (s.rd I.pcb (rbank s c.val) + 4 * (twoOf effs more).n) = w at hissue
  have hwrd : ∀ g j, (I.pcb.id = g.id → rbank s c.val ≠ j) → (I.qstall.id = g.id → c.val ≠ j) → w.rd g j = s.rd g j := fun g j h1 h2 => by
    rw [← hw, State.rd_wr_other _ _ _ _ _ _ h1, started_rd _ _ _ _ h2, hrd]
  have hflds := newOf_fld (rbank s c.val) (effs ++ more) hquiet
  have hframe : Framed s (bundleEnd w (rbank s c.val) ((effs ++ more).flatMap (newOf (rbank s c.val))) (macOld v (effs ++ more))) c.val now late := by
    refine framed_end ?_ ?_ ?_ now late _ _ ?_ hbank hflds hnow hlate
    · unfold SameButCode
      rw [← hw, hvsame]
      rfl
    · have hdrop : w.bundles = Tbl.drop c.val v.bundles := by rw [← hw]; rfl
      rw [hdrop, hvsame]
      exact Tbl.drop_put Bundle.empty c.val (oneOf clsM effs) s.bundles
    · rw [← hw, hvsame]
      rfl
    · exact fun g j hj => hwrd g j (hj (I.pcb, rbank s c.val) (by simp)) (hj (I.qstall, c.val) (by simp))
  have hwake : SameControl s (bundleEnd w (rbank s c.val) ((effs ++ more).flatMap (newOf (rbank s c.val))) (macOld v (effs ++ more))) := by
    intro g hg j
    have hne : ∀ f ∈ bankCells, f.id ≠ g.id := fun f hf => bankCells_ne_controlCells f hf g hg
    rw [bundleEnd_rd _ _ _ _ _ _ (fun h => absurd h (hne I.cycle (by simp [bankCells])))
      (fun l hl _ h => absurd h (hne _ (List.mem_append_left _ (hflds l hl))))]
    exact hwrd g j (fun h => absurd h (hne I.pcb (by simp [bankCells]))) (fun h => absurd h (hne I.qstall (by simp [bankCells])))
  refine ⟨_, ?_, hframe, ?_, bundleEnd_inFlight _ _ _ _, fun g hg j => ?_⟩
  · rw [waiting_joins hc effs more hfetch, hv, closeBundle_quiet _ hquiet rfl hactv hdlyv, hissue]
    exact (congrArg (boundary · c.val) (arithDue_calm hc hwake)).trans (boundary_calm hc hwake)
  · unfold pcOf
    rw [rbank_congr _ (hwake I.bank (by decide) c.val), bundleEnd_rd _ _ _ _ _ _ (fun h => absurd h (by decide))
      (fun l hl _ h => absurd h (resultCells_ne_issue _ (hflds l hl)).1), ← hw, State.rd_wr_same]
    rfl
  · have hcyc : ∀ f ∈ resultCells, I.cycle.id ≠ f.id ∧ I.pcb.id ≠ f.id ∧ I.qstall.id ≠ f.id := by decide
    obtain ⟨h1, h2, h3⟩ := hcyc g hg
    rw [bundleEnd_landed _ _ _ _ _ _ (fun h => absurd h h1)]
    unfold landNow State.over
    rw [fold_land_rd _ _ _ _ hg fun l hl => hflds l (List.mem_of_mem_filter hl), hwrd g j (fun h => absurd h h2) (fun h => absurd h h3)]

/-- The effects of the MAC of `SyllablesIssueAsOneBundle`, and where its results go. -/
theorem macMovi_landings (b k n hh : Nat) (x : Int) (v : Nat) :
    (accWrite s b n hh x ++ [putD s b k v 1]).flatMap (newOf b) =
      putLanding I.ac (16 * b + 2 * n + hh) (accStore (modeSATACC s b) x) 1 ::
        ((if accOv x then [overflowLanding b n 2] else []) ++ [putLanding I.d (32 * b + physD s b k) v 1]) := by
  unfold accWrite
  split <;> rfl

theorem macMovi_case (hc : CoreReady s c.val) (hov : bitOf (s.rd I.cmode (rbank s c.val)) 15 = false) (rd : BitVec 5) (imm : BitVec 16)
    (n : BitVec 3) (hh : Nat) (x : Int) (hfetch : (fetchAddr (fetched s c.val) c.val (pcOf s c.val + 4)).isSome = true) :
    let b := rbank s c.val
    ∃ t, syllable (waiting s c.val (oneOf clsM (accWrite s b n.toNat hh x))) c.val true clsS .only [putD s b rd.toNat imm.toNat 1] [] = t ∧
      pcOf t c.val = (pcOf s c.val + 8) % 2 ^ 32 ∧ bundleOf t c.val = Bundle.empty ∧ readD t b rd.toNat = imm.toNat ∧
      t.rd I.ac (16 * b + 2 * n.toNat + hh) = ofInt 40 (if bitOf (s.rd I.cmode b) 12 then clampS 40 x else x) ∧
      BundleFrame s t c.val [dCell s b rd.toNat, (I.ac, 16 * b + 2 * n.toNat + hh)] := by
  intro b
  have hstill := ready_inFlight hc
  have hlist := macMovi_landings (s := s) b rd.toNat n.toNat hh x imm.toNat
  have hquiet : ∀ e ∈ accWrite s b n.toNat hh x ++ [putD s b rd.toNat imm.toNat 1], Quiet e := by
    unfold accWrite putD
    split <;> simp [Quiet, resultCells]
  obtain ⟨t, ht, ⟨hempty, hframe, -⟩, hpc, hfl, hval⟩ := issue_two hc hov _ _ hquiet
    (now := [dCell s b rd.toNat, (I.ac, 16 * b + 2 * n.toNat + hh)]) (late := [(I.acov, b)])
    (by rw [hlist]; split <;> simp [putLanding, overflowLanding, dCell])
    (by rw [hlist]; split <;> simp [putLanding, overflowLanding, dCell])
    (by simp [dCell, I.d, I.ac, I.bank]) hfetch
  rw [hlist] at hfl hval
  have hfilter : (putLanding I.ac (16 * b + 2 * n.toNat + hh) (accStore (modeSATACC s b) x) 1 ::
      ((if accOv x then [overflowLanding b n.toNat 2] else []) ++ [putLanding I.d (32 * b + physD s b rd.toNat) imm.toNat 1])).filter
        (fun l => decide (l.left ≤ 1)) = [putLanding I.ac (16 * b + 2 * n.toNat + hh) (accStore (modeSATACC s b) x) 1,
          putLanding I.d (32 * b + physD s b rd.toNat) imm.toNat 1] := by
    split <;> simp [putLanding, overflowLanding]
  have hlate : ∀ l ∈ inFlight t b, l.fld = I.acov := by
    rw [hfl]
    split <;> simp [stay, putLanding, overflowLanding]
  have hcr : ∀ (g : Fld) j, g.id ≠ I.acov.id → t.cr b g j = t.rd g j := fun g j hg => by
    unfold State.cr
    rw [List.filter_eq_nil_iff.mpr fun l hl => by rw [hlate l hl]; simp [Ne.symm hg]]
    rfl
  have hphys : physD t b rd.toNat = physD s b rd.toNat := by
    unfold physD
    rw [hcr _ _ (by decide), cr_still hstill, hval _ (by decide), hfilter]
    simp [afterLandings, putLanding, I.ac, I.d, I.rrb]
  refine ⟨t, ht, hpc, hempty, ?_, ?_, hframe⟩
  · unfold readD
    rw [hcr _ _ (by decide), hphys, hval _ (by decide), hfilter]
    simp [afterLandings, putLanding, I.d, Landing.into]
    exact imm.isLt
  · rw [hval _ (by decide), hfilter, ← store_eq, ← sat_still hstill]
    simp [afterLandings, putLanding, I.ac, I.d, Landing.into]
    exact Nat.mod_eq_of_lt (accStore_lt _ _)

/-- Settles O29: the MAC waits in the buffer, and the MOVI closes the bundle of both. -/
theorem syllablesIssueAsOneBundle : Obligations.SyllablesIssueAsOneBundle := by
  unfold Obligations.SyllablesIssueAsOneBundle
  intro s c acc d ra rb rd h imm hc hov hfetch b k old p x
  have hmac : exec (.mac c false acc d ra rb h) s = .next (waiting s c.val (oneOf clsM (accWrite s b d.toNat (b2n h) x))) := by
    refine Eq.trans ?_ (congrArg Host.Outcome.next (syllable_waits hc _))
    show mSyl s c.val false (accTerm s (rbank s c.val) d.toNat (b2n h) acc.toNat (dInt s b ra.toNat * dInt s b rb.toNat)) false = _
    rw [accTerm_combined hc]
    rfl
  have hrd := waiting_rd s c.val (oneOf clsM (accWrite s b d.toNat (b2n h) x))
  have hput : ∀ k v, putD (waiting s c.val (oneOf clsM (accWrite s b d.toNat (b2n h) x))) b k v 1 = putD s b k v 1 := fun k v => by
    have hstill : inFlight (waiting s c.val (oneOf clsM (accWrite s b d.toNat (b2n h) x))) b = [] :=
      (waiting_inFlight _ _ _ _).trans (ready_inFlight hc)
    unfold putD
    rw [physD_still (ready_inFlight hc) hstill (hrd _ _)]
  refine ⟨_, hmac, ?_, ?_, ?_⟩
  · exact congrArg Bundle.n (Tbl.get_put_same Bundle.empty c.val (oneOf clsM (accWrite s b d.toNat (b2n h) x)) (fetched s c.val).bundles)
  · rw [waiting_same]
  · obtain ⟨t, ht, hpost⟩ := macMovi_case hc hov rd imm d (b2n h) x hfetch
    refine ⟨t, ?_, hpost⟩
    show go (syllable _ c.val true clsS .only [putD _ (rbank _ c.val) rd.toNat imm.toNat 1] []) = _
    rw [rbank_congr _ (hrd _ _), hput, ht]

end

end Sys2Proof.Machine
end

section
/-! PROOFS.  The job instructions of a signal core (chapters 4, 5 and 6). -/

namespace Sys2Proof.Machine

open Safety

set_option Elab.async false

section
variable {s : State} {c : Fin 68}

theorem waitjob_case (hc : c.val < 64) (hjob : s.rd I.cJob c.val = 0) (hs : s.serving = true) :
    Puts (.waitjob c true) s [(I.waiting, c.val, 1)] := by
  show execWaitjob c true s = _
  unfold execWaitjob
  rw [not_svc hc, on_of_zero hjob, hs]
  rfl

/-- FENCE has nothing left to wait for (R177). -/
theorem fence_case (h : CoreReady s c.val) : Does (.fence c true) s fun t => Issued s t c.val [] [] := by
  obtain ⟨hcode, hbundles, hlandings, hcells⟩ := begun_fields s c.val
  obtain ⟨hsyl, -, hissued⟩ := act_still h .fence rfl rfl (fun _ _ _ => rfl) rfl rfl (u := begun s c.val) (new := []) (now := [])
    (late := []) rfl hcode hcells hbundles hlandings (by simp) (by simp) (by simp) (by simp)
  exact ⟨_, congrArg Host.Outcome.next hsyl, hissued⟩

/-! ## SIGNAL -/

theorem exec_signal (hc : c.val < 64) (ra : BitVec 5) : exec (.signal c true ra) s =
    sSyl s c.val true [.act (.signal (readWord s (rbank s c.val) ra.toNat))] [] := by
  show sgcSyl s c.val true (.signal (readWord s (rbank s c.val) ra.toNat)) = _
  unfold sgcSyl
  rw [not_svc hc]
  rfl

theorem taskSt_begun (k : Nat) : taskSt (begun s c.val) k = taskSt s k := begun_ready _ _ (by decide)

/-- An EMPTY slot ignores a signal (R184). -/
theorem signal_empty_case (h : CoreReady s c.val) (hc : c.val < 64) (ra : BitVec 5)
    (hempty : taskSt s (readWord s (rbank s c.val) ra.toNat % 65536) = tEMPTY) :
    Does (.signal c true ra) s fun t => Issued s t c.val [] [] := by
  obtain ⟨hcode, hbundles, hlandings, hcells⟩ := begun_fields s c.val
  have hnow : actNow (begun s c.val) c.val (.signal (readWord s (rbank s c.val) ra.toNat)) = (begun s c.val, []) := by
    show (signalWrite _ _, []) = _
    unfold signalWrite setFlags
    rw [if_pos ((taskSt_begun _).trans hempty)]
  obtain ⟨hsyl, -, hissued⟩ := act_still h (.signal _) rfl rfl (fun _ _ _ => rfl) rfl rfl (now := [])
    (late := []) hnow hcode hcells hbundles hlandings (by simp) (by simp) (by simp) (by simp)
  exact ⟨_, (exec_signal hc ra).trans (congrArg Host.Outcome.next hsyl), hissued⟩

theorem lor_lt_16 {x y : Nat} (hx : x < 2 ^ 16) (hy : y < 2 ^ 16) : Nat.lor x y < 2 ^ 16 := Nat.or_lt_two_pow hx hy

/-- SIGNAL sets flags of a task (R175). -/
theorem signal_case (h : CoreReady s c.val) (hc : c.val < 64) (ra : BitVec 5) :
    let w := readWord s (rbank s c.val) ra.toNat
    taskSt s (w % 65536) ≠ tEMPTY → Does (.signal c true ra) s fun t => Issued s t c.val [(F.TSU_T_FLAGS_FLAGS, w % 65536)] [] ∧
      t.rd F.TSU_T_FLAGS_FLAGS (w % 65536) = Nat.lor (s.rd F.TSU_T_FLAGS_FLAGS (w % 65536)) (w / 65536) := by
  intro w htask
  obtain ⟨hcode, hbundles, hlandings, hcells⟩ := begun_fields s c.val
  have hw : w < 2 ^ 32 := readWord_lt (ready_inFlight h) _
  have hbits : bits w 31 16 = w / 65536 := Nat.mod_eq_of_lt (by omega)
  have hnow : actNow (begun s c.val) c.val (.signal w) = ((begun s c.val).wr F.TSU_T_FLAGS_FLAGS (w % 65536)
      (Nat.lor (s.rd F.TSU_T_FLAGS_FLAGS (w % 65536)) (w / 65536)), []) := by
    show (signalWrite _ _, []) = _
    unfold signalWrite setFlags
    rw [if_neg (fun he => htask ((taskSt_begun _).symm.trans he)), hbits, begun_ready _ _ (by decide)]
  obtain ⟨hsyl, -, hissued⟩ := act_still h (.signal w) rfl rfl (fun _ _ _ => rfl) rfl rfl (now := [(F.TSU_T_FLAGS_FLAGS, w % 65536)])
    (late := []) hnow (by unfold SameButCode at *; rw [hcode]; rfl) ((hcells.mono (by simp)).wr (by simp)) hbundles hlandings
    (by simp; decide) (by simp) (by simp) (by simp)
  refine ⟨_, (exec_signal hc ra).trans (congrArg Host.Outcome.next hsyl), hissued, ?_⟩
  rw [afterAccess_other _ _ _ _ _ _ _ (by simp) (fun he => absurd he (by decide)) (fun he => absurd he (by decide)), State.rd_wr_same]
  exact Nat.mod_eq_of_lt (lor_lt_16 (State.rd_lt s F.TSU_T_FLAGS_FLAGS _) (by omega))

/-! ## TOUCH -/

/-- What TOUCH looks at of a task's pages is as it was before its bundle. -/
theorem framesOn_tables {t u : State} {l : List Nat} (h : SameTables t u l) (d cid p k : Nat)
    (hl : ∀ g ∈ [F.CPG_FRAME_STATE, F.CPG_FRAME_CID, F.CPG_FRAME_VPAGE, I.frOwner, I.frBad], g.id ∉ l) :
    ((framesOn u d cid p).any fun i => ownedBy u i k) = (framesOn t d cid p).any fun i => ownedBy t i k := by
  have hrd : ∀ g ∈ [F.CPG_FRAME_STATE, F.CPG_FRAME_CID, F.CPG_FRAME_VPAGE, I.frOwner, I.frBad], ∀ j, u.rd g j = t.rd g j :=
    fun g hg j => h.rd g j (hl g hg)
  unfold framesOn frames holds ownedBy frSt State.on
  simp only [h.nonzero F.CPG_FRAME_STATE (hl _ (by simp)), hrd F.CPG_FRAME_STATE (by simp), hrd F.CPG_FRAME_CID (by simp),
    hrd F.CPG_FRAME_VPAGE (by simp), hrd I.frOwner (by simp), hrd I.frBad (by simp)]

theorem ready_job (h : CoreReady s c.val) (hc : c.val < 64) : s.on I.cJob c.val = true := by
  obtain ⟨hlive, -⟩ := h
  unfold coreLive at hlive
  rw [not_svc hc, if_neg (by simp)] at hlive
  simp only [Bool.and_eq_true] at hlive
  exact hlive.1.1.2

/-- TOUCH of a page in DRAM records the page (R176). -/
theorem touchAct_dram {v : State} {c a k cid : Nat} (hk : coreTask v c = k) (ha : a < 0x10000) (hcv : v.rd I.jCv k = 1)
    (hcid : v.rd I.jCid k = cid) (hlvl : lvl v cid (a / 4096) = 2)
    (hown : ((framesOn v c cid (a / 4096)).any fun i => ownedBy v i k) = false)
    (hpop : popcount 16 (setBit (Nat.lor (v.rd I.jWs k) (v.rd I.stSet k)) (a / 4096)) ≤ 8) (hjob : v.on I.cJob c = true)
    (htouch : v.rd I.jTouch k = 0) : touchAct v c a = touchedArrive (v.wr I.jTouch k (2 ^ (a / 4096))) := by
  have hpresent : notPresent v cid (a / 4096) = false := by simp [notPresent, hlvl]
  have huntouched : untouched v cid (a / 4096) = false := by simp [untouched, hlvl]
  have hset : setBit 0 (a / 4096) = 2 ^ (a / 4096) := by simp [setBit, bitOf]
  have hall : Nat.lor (Nat.lor (v.rd I.jWs k) (v.rd I.stSet k)) 0 = Nat.lor (v.rd I.jWs k) (v.rd I.stSet k) := Nat.or_zero _
  unfold touchAct coreCid
  dsimp only
  rw [hk, hcid, on_of_one hcv, hpresent, hown, htouch, hall, if_neg (by simpa using ha), if_neg (by omega)]
  have hfault : faultPage v cid (a / 4096) = v := by
    unfold faultPage
    rw [huntouched]
    rfl
  unfold touchPage
  dsimp only
  rw [hcid, hfault, if_pos hjob, htouch, hset]

section
variable (h : CoreReady s c.val) (hc : c.val < 64) (ra : BitVec 5)
include h hc

/-- TOUCH of no page of the view, of a staged page, or of none to be had, does nothing (R176). -/
theorem touch_none_case :
    let w := readWord s (rbank s c.val) ra.toNat
    let k := s.rd I.cJob c.val - 1
    0x10000 ≤ w ∨ s.rd I.jCv k = 0 ∨ notPresent s (s.rd I.jCid k) (w / 4096) = true ∨
        ((framesOn s c.val (s.rd I.jCid k) (w / 4096)).any fun i => ownedBy s i k) = true →
      Does (.touch c true ra) s fun t => Issued s t c.val [] [] := by
  intro w k hnone
  obtain ⟨v, hexec, hframe, hpc, hstill, htables⟩ := touch_goes h hc ra
  have hrd : ∀ g j, g.id ∉ plainIds → v.rd g j = s.rd g j := fun g j hg => htables.rd g j hg
  have htask : coreTask v c.val = k := by unfold coreTask; rw [hrd _ _ (by decide)]
  have hcid : coreCid v c.val = s.rd I.jCid k := by unfold coreCid; rw [htask, hrd _ _ (by decide)]
  have hsame : touchAct v c.val w = v := by
    refine touch_none ?_
    rw [htask, hcid, framesOn_tables htables _ _ _ _ (by decide), hrd _ _ (by decide)]
    unfold notPresent lvl State.on at hnone ⊢
    rwa [hrd _ _ (by decide), hrd _ _ (by decide)]
  rw [hsame] at hexec
  obtain ⟨hbound, hissued⟩ := touch_done h [] hframe hpc hstill htables (OnlyCells.refl v []) (by simp)
  exact ⟨v, hexec.trans (congrArg Host.Outcome.next hbound), hissued⟩

/-- TOUCH of a page in DRAM asks for it (R176). -/
theorem touch_dram_case :
    let w := readWord s (rbank s c.val) ra.toNat
    let k := s.rd I.cJob c.val - 1
    w < 0x10000 → s.rd I.jCv k = 1 → lvl s (s.rd I.jCid k) (w / 4096) = 2 →
      ((framesOn s c.val (s.rd I.jCid k) (w / 4096)).any fun i => ownedBy s i k) = false → (∀ j, s.rd I.jTouch j = 0) →
      popcount 16 (setBit (Nat.lor (s.rd I.jWs k) (s.rd I.stSet k)) (w / 4096)) ≤ 8 →
      Does (.touch c true ra) s fun t => Issued s t c.val [(I.jTouch, k)] [] ∧ t.rd I.jTouch k = 2 ^ (w / 4096) := by
  intro w k hw hcv hlvl hown htouch hpop
  obtain ⟨v, hexec, hframe, hpc, hstill, htables⟩ := touch_goes h hc ra
  have hrd : ∀ g j, g.id ∉ plainIds → v.rd g j = s.rd g j := fun g j hg => htables.rd g j hg
  have htask : coreTask v c.val = k := by unfold coreTask; rw [hrd _ _ (by decide)]
  have hcid : coreCid v c.val = s.rd I.jCid k := by unfold coreCid; rw [htask, hrd _ _ (by decide)]
  have hjcid : v.rd I.jCid k = s.rd I.jCid k := hrd _ _ (by decide)
  have hlvl' : lvl v (s.rd I.jCid k) (w / 4096) = 2 := by unfold lvl at *; rw [hrd _ _ (by decide), hlvl]
  have hpage : w / 4096 < 16 := by omega
  have hzero : ∀ j, v.rd I.jTouch j = 0 := fun j => (hrd _ _ (by decide)).trans (htouch j)
  have hjob : v.on I.cJob c.val = true := (congrArg (· != 0) (hrd I.cJob c.val (by decide))).trans (ready_job h hc)
  have hact : touchAct v c.val w = v.wr I.jTouch k (2 ^ (w / 4096)) := by
    refine (touchAct_dram htask hw ?_ hjcid hlvl' ?_ ?_ hjob (hzero k)).trans ?_
    · rw [hrd _ _ (by decide), hcv]
    · rw [framesOn_tables htables _ _ _ _ (by decide), hown]
    · rw [hrd I.jWs _ (by decide), hrd I.stSet _ (by decide)]
      exact hpop
    · exact touchedArrive_still v k (w / 4096) _ hzero hjcid hlvl' hpage
  have honly : OnlyCells v (v.wr I.jTouch k (2 ^ (w / 4096))) [(I.jTouch, k)] := (OnlyCells.refl v _).wr (by simp)
  rw [hact] at hexec
  obtain ⟨hbound, hissued⟩ := touch_done h [(I.jTouch, k)] hframe hpc hstill htables honly (by simp)
  refine ⟨_, hexec.trans (congrArg Host.Outcome.next hbound), hissued, ?_⟩
  rw [State.rd_wr_same]
  exact Nat.mod_eq_of_lt (Nat.pow_lt_pow_right (by decide) hpage)

end

end

/-- Settles O30: each instruction by its case above; ENDJOB and YIELD by what the architect's laws say of the job they take
off its core. -/
theorem jobsEndYieldAndSignal : Obligations.JobsEndYieldAndSignal := by
  unfold Obligations.JobsEndYieldAndSignal
  refine ⟨fun s c hc hjob hs => waitjob_case hc hjob hs, fun s c h => fence_case h, fun s c h hc => ⟨?_, ?_, ?_, ?_⟩⟩
  · exact fun hlate htr hq hfr hre => endjob_case h hc _ _ rfl rfl hlate htr hq hfr hre
  · intro ho hn hrun
    obtain ⟨t, hexec, ⟨hjob, hwait, hbank, hleave, -, hbusy, hcause, -, hst, hres, hlvl, hpos⟩, hbundle, hcode, hcells⟩ :=
      yield_goes_on h hc _ _ rfl rfl ho hn hrun
    exact ⟨t, hexec, hjob, hwait, hbank, hleave, hbusy, hcause, hst, hres, hlvl, hpos, hbundle, hcode,
      fun g j hg => hcells g j fun p hp => hg p (by simpa [switchCells] using hp)⟩
  · intro ho
    obtain ⟨t, hexec, hissued, hpend, -⟩ := yield_waits h hc ho
    exact ⟨t, hexec, hissued, hpend⟩
  · exact fun ra => ⟨signal_case h hc ra, signal_empty_case h hc ra, touch_none_case h hc ra, touch_dram_case h hc ra⟩

end Sys2Proof.Machine
end

section
/-! PROOFS.  The queue instructions (chapters 5 and 8). -/

namespace Sys2Proof.Machine

open Safety

set_option Elab.async false

/-! ## A word read and a word written -/

theorem Queue.read_cons {x : Queue} {w : QWord} {r : List QWord} (who : Nat) (h : x.cons = w :: r) : (x.read who).1 = w ∧
    (x.read who).2.cons = r ∧ (x.read who).2.prod = x.prod ∧ (x.read who).2.reader = if w.last then 0 else who := by
  unfold Queue.read
  rw [h]
  dsimp only
  split <;> exact ⟨rfl, rfl, rfl, rfl⟩

/-- A word written, as a statement spells it. -/
def writtenWord (x : Queue) (who v : Nat) (fin : Bool) : Queue :=
  let last := fin || x.partialWords.length == 255
  let y := { x with prod := x.prod ++ [⟨v, last⟩], writer := if last then 0 else who }
  if last && x.flush && !x.fixed then { y with fixed := true, flushN := y.count } else y

theorem Queue.write_eq (x : Queue) (who v : Nat) (fin : Bool) : x.write who v fin = writtenWord x who v fin := by
  unfold Queue.write writtenWord Queue.fixFlush
  dsimp only
  cases fin || x.partialWords.length == 255
  · rfl
  · cases hflush : x.flush <;> cases hfixed : x.fixed <;> rfl

section
variable {v : State} {c n : Nat} {x : Queue} (hx : v.queue n = x)
include hx

theorem queueAct_reads (try_ fin : Bool) (val rw : Nat) (hcan : x.canRead = true) :
    actNow v c (.queue false try_ fin n val rw) = ((servePort v c).setQueue n (x.read (queueWho v c)).2,
      spreadOver (wordCells v (rbank v c) rw) (x.read (queueWho v c)).1.val 3 ++
        ([(I.flC, b2n (x.read (queueWho v c)).1.last)] ++ if try_ then [(I.flZ, 0)] else []).map fun p : Fld × Nat =>
          putLanding p.1 (rbank v c) p.2 3) := by
  show queueAct v c false try_ fin n val rw = _
  unfold queueAct queueRead
  dsimp only
  rw [hx, if_neg (by simp), if_pos hcan]
  cases try_ <;> simp

theorem queueAct_writes (try_ fin : Bool) (val rw : Nat) (hcan : x.canWrite = true) :
    actNow v c (.queue true try_ fin n val rw) = ((servePort v c).setQueue n (writtenWord x (queueWho v c) val fin),
      (if try_ then [(I.flZ, 0)] else []).map fun p : Fld × Nat => putLanding p.1 (rbank v c) p.2 3) := by
  show queueAct v c true try_ fin n val rw = _
  unfold queueAct queueWrite
  dsimp only
  rw [hx, if_pos rfl, if_pos hcan, Queue.write_eq]
  cases try_ <;> rfl

theorem queueAct_fails (write fin : Bool) (val rw : Nat) (hcan : (if write then x.canWrite else x.canRead) = false) :
    actNow v c (.queue write true fin n val rw) = (v, [(I.flZ, 1)].map fun p : Fld × Nat => putLanding p.1 (rbank v c) p.2 3) := by
  show queueAct v c write true fin n val rw = _
  unfold queueAct
  dsimp only
  rw [hx]
  cases write
  · rw [if_neg (by simp), if_neg (by simpa using hcan)]
    rfl
  · rw [if_pos rfl, if_neg (by simpa using hcan)]
    rfl

end

/-! ## The instructions, served -/

section
variable {s : State} {c : Fin 68} {n : Nat} {x : Queue}

theorem fetched_queue (s : State) (c n : Nat) : (fetched s c).queue n = s.queue n := by
  have h := fetched_same s c
  unfold SameButFetch at h
  unfold State.queue
  rw [h]

/-- A queue access that is served, or that does not wait, keeps no bundle. -/
theorem waits_not (write try_ fin : Bool) (val rw : Nat) (hx : s.queue n = x)
    (h : try_ = true ∨ (if write then x.canWrite else x.canRead) = true) :
    queueWaits (fetched s c.val) (.act (.queue write try_ fin n val rw)) = false := by
  cases try_
  · have h := h.resolve_left (by simp)
    show (if write then !((fetched s c.val).queue n).canWrite else !((fetched s c.val).queue n).canRead) = false
    rw [fetched_queue, hx]
    cases write <;> simp_all
  · rfl

theorem begun_bank (s : State) (c : Nat) : rbank (begun s c) c = rbank s c := rbank_congr c (begun_ready _ _ (by decide))

section
variable (h : CoreReady s c.val) (hx : s.queue n = x) (rw : BitVec 4)
include h hx

/-- An access that reads a word leaves the queue without it; the word and its flags are results in flight. -/
theorem read_case (try_ fin : Bool) (val : Nat) {w : QWord} {r : List QWord} (hcan : x.canRead = true) (hcons : x.cons = w :: r) :
    let who := queueWho (begun s c.val) c.val
    let b := rbank s c.val
    ∃ t, syllable s c.val true clsS .only [.act (.queue false try_ fin n val rw.toNat)] [] = t ∧
      IssuedAfter s ((servePort (begun s c.val) c.val).setQueue n (x.read who).2) t c.val []
        (wordCells s b rw.toNat ++ ([(I.flC, b)] ++ if try_ then [(I.flZ, b)] else [])) ∧
      readWord (settled t c.val) b rw.toNat = w.val % 2 ^ 32 ∧ (settled t c.val).rd I.flC b = b2n w.last ∧
      (try_ = true → (settled t c.val).rd I.flZ b = 0) := by
  intro who b
  have hnow := queueAct_reads (c := c.val) ((begun_queue s c.val n).trans hx) try_ fin val rw.toNat hcan
  have hwho : rbank (begun s c.val) c.val = b := begun_bank s c.val
  rw [hwho, begun_word (ready_inFlight h), (Queue.read_cons who hcons).1] at hnow
  have hfl : ∀ p ∈ [(I.flC, b2n w.last)] ++ (if try_ then [(I.flZ, 0)] else []),
      p.1 ∈ resultCells ∧ p.1.id ≠ I.d.id ∧ p.1.id ≠ I.p.id ∧ p.1.id ≠ I.rrb.id := by
    cases try_ <;> simp <;> decide
  have hother : ∀ y, ∀ p ∈ wordCells s b rw.toNat, ((servePort (begun s c.val) c.val).setQueue n y).rd p.1 p.2 = s.rd p.1 p.2 := by
    intro y p hp
    rcases wordCells_DP _ _ _ _ hp with hf | hf <;> rw [hf] <;> exact served_rd _ _ _ _ _ (by decide) (by decide)
  obtain ⟨t, hexec, hissued, hword, hflags⟩ := act_word h (.queue false try_ fin n val rw.toNat) rfl rfl (fun _ _ _ => rfl) rfl
    (waits_not false try_ fin val rw.toNat hx (.inr hcan)) rw.toNat w.val _ (by omega) hfl hnow (served_keeps h _ _ _)
    (served_rd _ _ _ _ _ (by decide) (by decide)) (hother _)
  refine ⟨t, hexec, ?_, hword, ?_, fun htry => ?_⟩
  · cases try_ <;> exact hissued
  · rw [hflags I.flC (by simp)]
    cases try_ <;> simp [afterLandings, putLanding, Landing.into, show I.flC.w = 1 from rfl, show ¬ I.flZ.id = I.flC.id by decide, b2n_lt]
  · subst htry
    rw [hflags I.flZ (by simp)]
    simp [afterLandings, putLanding, Landing.into]

/-- An access that writes a word leaves the queue with it. -/
theorem write_case (try_ fin : Bool) (val : Nat) (hcan : x.canWrite = true) :
    let b := rbank s c.val
    ∃ t, syllable s c.val true clsS .only [.act (.queue true try_ fin n val rw.toNat)] [] = t ∧
      IssuedAfter s ((servePort (begun s c.val) c.val).setQueue n (writtenWord x (queueWho (begun s c.val) c.val) val fin)) t c.val []
        (if try_ then [(I.flZ, b)] else []) ∧
      (try_ = true → (settled t c.val).rd I.flZ b = 0) := by
  intro b
  have hnow := queueAct_writes (c := c.val) ((begun_queue s c.val n).trans hx) try_ fin val rw.toNat hcan
  rw [begun_bank] at hnow
  obtain ⟨t, hexec, hissued, hflags⟩ := act_flags h (.queue true try_ fin n val rw.toNat) rfl rfl (fun _ _ _ => rfl) rfl
    (waits_not true try_ fin val rw.toNat hx (.inr hcan)) _ (by cases try_ <;> simp; decide) hnow (served_keeps h _ _ _)
  refine ⟨t, hexec, ?_, fun htry => ?_⟩
  · cases try_ <;> exact hissued
  · subst htry
    rw [hflags I.flZ (by simp)]
    simp [afterLandings, putLanding, Landing.into]

/-- QTRY of a queue that cannot serve it sets Z alone. -/
theorem fail_case (write fin : Bool) (val : Nat) (hcan : (if write then x.canWrite else x.canRead) = false) :
    let b := rbank s c.val
    ∃ t, syllable s c.val true clsS .only [.act (.queue write true fin n val rw.toNat)] [] = t ∧
      IssuedAfter s (begun s c.val) t c.val [] [(I.flZ, b)] ∧ (settled t c.val).rd I.flZ b = 1 := by
  intro b
  have hnow := queueAct_fails (c := c.val) ((begun_queue s c.val n).trans hx) write fin val rw.toNat hcan
  rw [begun_bank] at hnow
  obtain ⟨t, hexec, hissued, hflags⟩ := act_flags h (.queue write true fin n val rw.toNat) rfl rfl (fun _ _ _ => rfl) rfl
    (waits_not write true fin val rw.toNat hx (.inl rfl)) _ (by simp; decide) hnow (begun_keeps h)
  refine ⟨t, hexec, hissued, ?_⟩
  rw [hflags I.flZ (by simp)]
  simp [afterLandings, putLanding, Landing.into, show I.flZ.w = 1 from rfl]

end

/-! ## A stall, and its release -/

/-- A bundle of one act that waits for a queue. -/
def heldBundle (a : Act) : Bundle := { oneOf clsS [.act a] with closed := true }

/-- The state of a core whose bundle waits for a queue. -/
def stalledOn (s : State) (c : Nat) (a : Act) : State :=
  { (fetched s c).wr I.qstall c 1 with bundles := Tbl.put Bundle.empty c (heldBundle a) (fetched s c).bundles }

theorem stalledOn_other (s : State) (c : Nat) (a : Act) (g : Fld) (j : Nat) (hg : I.qstall.id = g.id → c ≠ j) :
    (stalledOn s c a).rd g j = s.rd g j :=
  (State.rd_wr_other (fetched s c) _ _ _ _ _ hg).trans ((fetched_same s c).rd g j)

theorem stalledOn_control (s : State) (c : Nat) (a : Act) : SameControl s (stalledOn s c a) :=
  fun g hg j => stalledOn_other s c a g j fun he => absurd he (qstall_ne_control g hg)

theorem stalledOn_bundle (s : State) (c : Nat) (a : Act) :
    bundleOf (stalledOn s c a) c = heldBundle a :=
  Tbl.get_put_same Bundle.empty c (heldBundle a) (fetched s c).bundles

/-- An access that its queue cannot serve stalls the core before its bundle issues (R179). -/
theorem stall_case (h : CoreReady s c.val) (a : Act) (hm : meetOf (fetched s c.val) c.val (.act a) = .ok)
    (hw : queueWaits (fetched s c.val) (.act a) = true) :
    syllable s c.val true clsS .only [.act a] [] = stalledOn s c.val a := by
  have hseq : seqCauses (fetched s c.val) (rbank (fetched s c.val) c.val) (bundleAct [.act a]) = [] := by
    have hrd := (fetched_same s c.val).rd
    rw [rbank_congr _ (hrd _ _)]
    obtain ⟨-, -, -, -, -, -, -, hact, hdly, -⟩ := h
    exact seqCauses_none _ _ _ ((hrd _ _).trans hact) ((hrd _ _).trans hdly)
  rw [syllable_closes (ready_awake h) clsS _ [] (by decide)]
  unfold closeBundle
  have heffs : ({ oneOf clsS [.act a] with causes := [] } : Bundle) = oneOf clsS [.act a] := rfl
  rw [heffs, show (oneOf clsS [.act a]).effs = [.act a] from rfl, hseq, show (oneOf clsS [.act a]).causes = [] from rfl,
    show meetCauses (fetched s c.val) c.val [.act a] = [] by simp [meetCauses, hm],
    show faultAddrs (fetched s c.val) c.val [.act a] = [] by simp [faultAddrs, hm]]
  show (if [Eff.act a].any (queueWaits (fetched s c.val)) then _ else _) = _
  rw [if_pos (by simp [hw])]
  exact stall_bound _ _ (boundary_calm h (stalledOn_control s c.val a))

theorem stalls_read {val rw : Nat} {fin : Bool} (hx : s.queue n = x) (hcan : x.canRead = false) :
    queueWaits (fetched s c.val) (.act (.queue false false fin n val rw)) = true := by
  show (!((fetched s c.val).queue n).canRead) = true
  rw [fetched_queue, hx, hcan]
  rfl

theorem stalls_write {val rw : Nat} {fin : Bool} (hx : s.queue n = x) (hcan : x.canWrite = false) :
    queueWaits (fetched s c.val) (.act (.queue true false fin n val rw)) = true := by
  show (!((fetched s c.val).queue n).canWrite) = true
  rw [fetched_queue, hx, hcan]
  rfl

theorem stall_says (s : State) (c : Fin 68) (a : Act) :
    let t := stalledOn s c.val a
    t.rd I.qstall c.val = 1 ∧ (bundleOf t c.val).closed = true ∧ pcOf t c.val = pcOf s c.val ∧ t.queues = s.queues ∧
      SameCells s t [(I.qstall, c.val)] := by
  intro t
  have hcells : SameCells s t [(I.qstall, c.val)] :=
    fun g j hg => stalledOn_other s c.val a g j fun he => hg (I.qstall, c.val) (by simp) he
  refine ⟨State.rd_wr_same _ _ _ _, ?_, ?_, ?_, hcells⟩
  · rw [stalledOn_bundle]
    rfl
  · unfold pcOf
    rw [rbank_congr c.val (stalledOn_other s c.val a _ _ fun he => absurd he (by decide)),
      stalledOn_other s c.val a _ _ fun he => absurd he (by decide)]
  · have hs := fetched_same s c.val
    unfold SameButFetch at hs
    show (fetched s c.val).queues = _
    rw [hs]

/-- The word space holds the word that an access has read once its results have landed. -/
theorem access_word {u : State} (h : CoreReady s c.val) (hk : KeepsCore s u c.val) {r v : Nat} (hr : r < 32)
    (hrrb : u.rd I.rrb (rbank s c.val) = s.rd I.rrb (rbank s c.val))
    (hu : ∀ p ∈ wordCells s (rbank s c.val) r, u.rd p.1 p.2 = s.rd p.1 p.2) {fl : List Landing}
    (hfl : ∀ l ∈ fl, l.left = 3 ∧ l.mask = none ∧ l.fld ∈ resultCells ∧ l.fld.id ≠ I.d.id ∧ l.fld.id ≠ I.p.id ∧ l.fld.id ≠ I.rrb.id) :
    readWord (settled (afterAccess s u c.val (spreadOver (wordCells s (rbank s c.val) r) v 3 ++ fl) []) c.val) (rbank s c.val) r =
      v % 2 ^ 32 := by
  generalize hb : rbank s c.val = b at *
  have hspread : ∀ l ∈ spreadOver (wordCells s b r) v 3, (l.fld, l.inst) ∈ wordCells s b r ∧ l.left = 3 ∧ l.mask = none :=
    fun l hl => ⟨spreadOver_mem _ _ _ l hl, spreadOver_left _ _ _ l hl⟩
  have hnew : ∀ l ∈ spreadOver (wordCells s b r) v 3 ++ fl, l.left = 3 ∧ l.mask = none ∧ l.fld ∈ resultCells ∧ l.fld.id ≠ I.rrb.id := by
    intro l hl
    rcases List.mem_append.mp hl with hl | hl
    · obtain ⟨hmem, hleft, hmask⟩ := hspread l hl
      refine ⟨hleft, hmask, wordCells_fld s b r _ hmem, fun he => ?_⟩
      have hne : I.d.id ≠ I.rrb.id ∧ I.p.id ≠ I.rrb.id := by decide
      rcases wordCells_DP _ _ _ _ hmem with hf | hf <;> rw [show l.fld = _ from hf] at he
      · exact hne.1 he
      · exact hne.2 he
    · obtain ⟨hleft, hmask, hres, -, -, hne⟩ := hfl l hl
      exact ⟨hleft, hmask, hres, hne⟩
  have hres : ∀ l ∈ spreadOver (wordCells s b r) v 3 ++ fl, l.fld ∈ resultCells := fun l hl => (hnew l hl).2.2.1
  have hset : ∀ g j, g ∈ resultCells → (settled (afterAccess s u c.val (spreadOver (wordCells s b r) v 3 ++ fl) []) c.val).rd g j =
      afterLandings g j (spreadOver (wordCells s b r) v 3 ++ fl) (u.rd g j) := by
    intro g j hg
    have hstay := stay_three none (spreadOver (wordCells s b r) v 3 ++ fl) (by simp) fun l hl => ⟨(hnew l hl).1, (hnew l hl).2.1⟩
    simp only [Option.toList, List.append_nil] at hstay
    have hlater : ((spreadOver (wordCells s b r) v 3 ++ fl).filter fun l => decide (l.left ≤ 1)) = [] :=
      List.filter_eq_nil_iff.mpr fun l hl => by simp [(hnew l hl).1]
    rw [settled_access hk _ [] hres g j hg, hstay, hlater, afterLandings_left2]
    rfl
  have hstill := settled_access_still hk _ [] hres
  rw [hb] at hstill
  refine readWord_spread (lat := 3) hr (hb ▸ ready_inFlight h) hstill ?_ (Nat.mod_lt _ (by decide)) fun f i hfi => ?_
  · rw [hset _ _ (by decide), afterLandings_none, hrrb]
    exact fun l hl he => absurd he (hnew l hl).2.2.2
  · have hnone : ∀ l ∈ fl, l.fld.id = f.id → l.inst ≠ i := by
      intro l hl he
      obtain ⟨-, -, -, hd, hp, -⟩ := hfl l hl
      rcases wordCells_DP _ _ _ _ hfi with hf | hf <;> rw [show f = _ from hf] at he
      · exact absurd he hd
      · exact absurd he hp
    rw [hset f i (wordCells_fld s b r _ hfi), afterLandings_append, hu _ hfi, ← spread_mod, afterLandings_none _ _ fl _ hnone]

/-- A closed bundle of one read of a queue that can be read issues. -/
theorem held_issues {w1 : State} (h : CoreReady s c.val) (rw : BitVec 4) {y : Queue} {w : QWord} {r : List QWord} (hcan : y.canRead = true)
    (hcons : y.cons = w :: r) (hother : ∀ g j, I.qstall.id ≠ g.id → w1.rd g j = s.rd g j) (hqueue : w1.queue n = y)
    (hflight : inFlight w1 (rbank s c.val) = []) :
    let who := queueWho s c.val
    let z := closeBundle w1 c.val (heldBundle (.queue false false false n 0 rw.toNat))
    z.queue n = (y.read who).2 ∧ z.rd I.qstall c.val = 0 ∧ bundleOf z c.val = Bundle.empty ∧
      pcOf z c.val = (pcOf s c.val + 4) % 2 ^ 32 ∧ readWord (settled z c.val) (rbank s c.val) rw.toNat = w.val % 2 ^ 32 := by
  intro who z
  generalize hb : rbank s c.val = b at *
  let act : Act := .queue false false false n 0 rw.toNat
  let u := (servePort (started w1 c.val) c.val).setQueue n (y.read who).2
  let fl := [putLanding I.flC b (b2n w.last) 3]
  let new := spreadOver (wordCells s b rw.toNat) w.val 3 ++ fl
  have hstart : ∀ g j, I.qstall.id ≠ g.id → (started w1 c.val).rd g j = s.rd g j :=
    fun g j hg => (started_rd w1 _ _ _ fun he => absurd he hg).trans (hother g j hg)
  have hbank : rbank w1 c.val = b := (rbank_congr _ (hother _ _ (by decide))).trans hb
  have hbank' : rbank (started w1 c.val) c.val = b := (rbank_congr _ (hstart _ _ (by decide))).trans hb
  have hu : ∀ g j, I.qstall.id ≠ g.id → I.quePtr.id ≠ g.id → u.rd g j = s.rd g j := by
    intro g j hg hp
    refine Eq.trans ?_ (hstart g j hg)
    exact State.rd_wr_cell _ _ _ _ _ _ hp
  have hk : KeepsCore s u c.val := by
    refine ⟨fun g hg j => hu g j (qstall_ne_control g hg) ?_, hu _ _ (by decide) (by decide), ?_, ?_⟩
    · exact (show ∀ g ∈ controlCells, I.quePtr.id ≠ g.id by decide) g hg
    · rw [hb]
      exact hflight
    · show Tbl.get Bundle.empty (Tbl.drop c.val w1.bundles) c.val = _
      rw [Tbl.get_drop]
      simp
  have hnow : actNow (started w1 c.val) c.val act = (u, new) := by
    have hphys := physD_still (b := b) (ready_inFlight (s := s) (c := c.val) h |> (hb ▸ ·)) (t := started w1 c.val) hflight (hstart I.rrb b (by decide))
    have hcells : wordCells (started w1 c.val) b rw.toNat = wordCells s b rw.toNat := by
      unfold wordCells
      rw [hphys, hphys]
    have hwho : queueWho (started w1 c.val) c.val = who := by
      unfold queueWho
      rw [hstart _ _ (by decide)]
      rfl
    have hacts := queueAct_reads (c := c.val) (show (started w1 c.val).queue n = y from hqueue) false false 0 rw.toNat hcan
    rw [hwho, hbank', hcells, (Queue.read_cons who hcons).1] at hacts
    exact hacts
  have hfl : ∀ l ∈ fl, l.left = 3 ∧ l.mask = none ∧ l.fld ∈ resultCells ∧ l.fld.id ≠ I.d.id ∧ l.fld.id ≠ I.p.id ∧
      l.fld.id ≠ I.rrb.id := by
    intro l hl
    obtain rfl : l = _ := by simpa [fl] using hl
    exact ⟨rfl, rfl, show I.flC ∈ resultCells ∧ I.flC.id ≠ I.d.id ∧ I.flC.id ≠ I.p.id ∧ I.flC.id ≠ I.rrb.id by decide⟩
  have hnew : ∀ l ∈ new, l.left = 3 ∧ l.fld ∈ resultCells := by
    intro l hl
    rcases List.mem_append.mp hl with hl | hl
    · exact ⟨(spreadOver_left _ _ _ l hl).1, wordCells_fld s b _ _ (spreadOver_mem _ _ _ l hl)⟩
    · obtain ⟨hleft, -, hres, -⟩ := hfl l hl
      exact ⟨hleft, hres⟩
  have hres : ∀ l ∈ new, l.fld ∈ resultCells := fun l hl => (hnew l hl).2
  obtain ⟨-, -, -, -, -, -, -, hact, hdly, harith, -⟩ := id h
  rw [hb] at hact hdly harith
  have hz : z = afterAccess s u c.val new [] := by
    have heffs : effsNow c.val (started w1 c.val) (issueOrder c.val [.act act]) = (u, new) := by
      rw [show issueOrder c.val [.act act] = [.act act] by simp [issueOrder, Eff.isStore, Eff.isAct]]
      show ((actNow (started w1 c.val) c.val act).1, (actNow (started w1 c.val) c.val act).2 ++ []) = _
      rw [hnow, List.append_nil]
    have hadv : advance u b 1 (some act) = u.wr I.pcb b (s.rd I.pcb b + 4) := by
      rw [advance_other u b 1 act rfl ((hu _ _ (by decide) (by decide)).trans hact) ((hu _ _ (by decide) (by decide)).trans hdly),
        hu I.pcb _ (by decide) (by decide)]
    have hclose : z = boundary (issue w1 c.val (heldBundle act)) c.val := by
      show closeBundle w1 c.val (heldBundle act) = _
      unfold closeBundle
      rw [show (heldBundle act).effs = [.act act] from rfl, show (heldBundle act).causes = [] from rfl, hbank,
        seqCauses_none _ _ _ ((hother _ _ (by decide)).trans hact) ((hother _ _ (by decide)).trans hdly)]
      show (if [Eff.act act].any (queueWaits w1) then _ else _) = _
      rw [if_neg]
      show ¬ ((!(w1.queue n).canRead || false) = true)
      rw [hqueue, hcan]
      decide
    have hissue := issue_one w1 c.val (heldBundle act) rfl
    rw [show (heldBundle act).effs = [.act act] from rfl, heffs, hbank, show bundleAct [Eff.act act] = some act from rfl, hadv] at hissue
    rw [hclose, hissue ?_ ?_]
    · have hcalm := afterAccess_control (c := c.val) hk.1 new [] hres
      have hpc : afterAccess s u c.val new [] = bundleEnd (u.wr I.pcb b (s.rd I.pcb b + 4)) b new (macOld w1 [.act act]) := by
        unfold afterAccess pcOf
        rw [hb]
        rfl
      rw [hpc] at hcalm ⊢
      show boundary (arithDue (bundleEnd _ b new _) c.val) c.val = _
      rw [arithDue_calm h hcalm, boundary_calm h hcalm]
    · exact hflight
    · refine arithNote_none _ _ _ ?_ (.inl (by simp))
      rw [State.rd_wr_cell _ _ _ _ _ _ (by decide), hu _ _ (by decide) (by decide), harith]
  have hissued := issued_access hk new [] hres [] (new.map fun l => (l.fld, l.inst))
    (fun l hl hleft => absurd hleft (by have := (hnew l hl).1; omega))
    (fun l hl => ⟨(l.fld, l.inst), List.mem_map.mpr ⟨l, hl, rfl⟩, rfl, rfl⟩)
  rw [hz]
  refine ⟨?_, ?_, hissued.2.1, hissued.1, ?_⟩
  · exact (issuedAfter_queue hissued n).trans (setQueue_queue _ _ _)
  · rw [afterAccess_other _ _ _ _ _ _ _ (fun l hl hleft => absurd hleft (by have := (hnew l hl).1; omega))
      (fun he => absurd he (by decide)) (fun he => absurd he (by decide))]
    refine (State.rd_wr_cell _ _ _ _ _ _ (by decide)).trans ?_
    exact State.rd_wr_same w1 I.qstall c.val 0
  · have hother' : ∀ p ∈ wordCells s (rbank s c.val) rw.toNat, u.rd p.1 p.2 = s.rd p.1 p.2 := by
      intro p hp
      rcases wordCells_DP _ _ _ _ hp with hf | hf <;> rw [hf] <;> exact hu _ _ (by decide) (by decide)
    have hword := access_word h hk (r := rw.toNat) (v := w.val) (by omega) (hu _ _ (by decide) (by decide)) hother' hfl
    rwa [hb] at hword

/-- A stalled QRD is tried again once its queue has a word, and completes (R258). -/
theorem release_case (h : CoreReady s c.val) (rw : BitVec 4) {y : Queue} {w : QWord} {r : List QWord} (hcan : y.canRead = true)
    (hcons : y.cons = w :: r) :
    Does (.queueStallRelease c) ((stalledOn s c.val (.queue false false false n 0 rw.toNat)).setQueue n y) fun z =>
      z.queue n = (y.read (queueWho s c.val)).2 ∧ z.rd I.qstall c.val = 0 ∧ bundleOf z c.val = Bundle.empty ∧
      pcOf z c.val = (pcOf s c.val + 4) % 2 ^ 32 ∧ readWord (settled z c.val) (rbank s c.val) rw.toNat = w.val % 2 ^ 32 := by
  generalize hs1 : stalledOn s c.val (.queue false false false n 0 rw.toNat) = s1
  have hother : ∀ g j, I.qstall.id ≠ g.id → (s1.setQueue n y).rd g j = s.rd g j := by
    intro g j hg
    rw [← hs1]
    exact stalledOn_other s c.val (.queue false false false n 0 rw.toNat) g j fun he => absurd he hg
  have hbundle : bundleOf (s1.setQueue n y) c.val = heldBundle (.queue false false false n 0 rw.toNat) := by
    rw [← hs1]
    exact stalledOn_bundle s c.val _
  have hstalled : (s1.setQueue n y).on I.qstall c.val = true := by
    rw [← hs1]
    exact on_of_one (stall_says s c (.queue false false false n 0 rw.toNat)).1
  have hqueue : (s1.setQueue n y).queue n = y := setQueue_queue _ _ _
  have hflight : inFlight (s1.setQueue n y) (rbank s c.val) = [] := by
    have hsame := fetched_same s c.val
    unfold SameButFetch at hsame
    have hland : (stalledOn s c.val (.queue false false false n 0 rw.toNat)).landings = s.landings := by
      show (fetched s c.val).landings = _
      rw [hsame]
    rw [← hs1]
    show Tbl.get [] (stalledOn s c.val (.queue false false false n 0 rw.toNat)).landings _ = _
    rw [hland]
    exact ready_inFlight h
  generalize s1.setQueue n y = w1 at *
  have hmay : mayIssue w1 c.val = true := by
    obtain ⟨hlive, hhalt, -⟩ := h
    unfold mayIssue coreLive halted coreBit State.serving State.fabric State.mode cluSt State.on at *
    simp only [hother _ _ (show I.qstall.id ≠ F.PMU_MODE_CURRENT.id by decide), hother _ _ (show I.qstall.id ≠ I.romSt.id by decide),
      hother _ _ (show I.qstall.id ≠ I.cJob.id by decide), hother _ _ (show I.qstall.id ≠ I.swPend.id by decide),
      hother _ _ (show I.qstall.id ≠ F.CLU_STAT_STATE.id by decide), hother _ _ (show I.qstall.id ≠ F.MLS_DBG_HALTED_LO_CORES.id by decide),
      hother _ _ (show I.qstall.id ≠ F.MLS_DBG_HALTED_HI_CORES.id by decide),
      hother _ _ (show I.qstall.id ≠ F.MLS_DBG_HALTED_SVC_CORES.id by decide), hlive, hhalt]
    rfl
  refine ⟨closeBundle w1 c.val (heldBundle (.queue false false false n 0 rw.toNat)), ?_, held_issues h rw hcan hcons hother hqueue hflight⟩
  show execQueueStallRelease c w1 = _
  unfold execQueueStallRelease
  rw [hmay, hstalled, hbundle]
  rfl

end

/-- Settles O31: each instruction by whether its queue can serve it, in `read_case`, `write_case`, `fail_case` and
`stall_case`; a stalled QRD by `release_case`. -/
theorem queueInstructionsTransferWords : Obligations.QueueInstructionsTransferWords := by
  unfold Obligations.QueueInstructionsTransferWords
  intro s c q rw h b n x who u v stalls written
  have hx : s.queue n = x := rfl
  have hwho : queueWho (begun s c.val) c.val = who := begun_who c.val c.val
  have hwho' : queueWho s c.val = who := by
    rw [← hwho]
    unfold queueWho
    rw [begun_ready _ _ (by decide)]
  have hwritten : ∀ fin, writtenWord x who v fin = written fin := fun _ => rfl
  refine ⟨fun w r hcan hcons => ?_, fun hcan => ⟨?_, fun fin => ?_⟩, fun hcan fin => ⟨?_, ?_⟩, fun hcan fin => ⟨?_, ?_⟩, fun hcan => ?_, ?_⟩
  · obtain ⟨-, hleft, hprod, hreader⟩ := Queue.read_cons who hcons
    refine ⟨hleft, hprod, hreader, ?_, fun fin => ?_⟩
    · obtain ⟨t, hexec, hissued, hword, hend, -⟩ := read_case h hx rw false false 0 hcan hcons
      rw [hwho] at hissued
      exact ⟨t, congrArg Host.Outcome.next hexec, hissued, hword, hend⟩
    · obtain ⟨t, hexec, hissued, hword, hend, hzero⟩ := read_case h hx rw true fin v hcan hcons
      rw [hwho] at hissued
      exact ⟨t, congrArg Host.Outcome.next hexec, hissued, hword, hend, hzero rfl⟩
  · exact ⟨_, congrArg Host.Outcome.next (stall_case h _ rfl (stalls_read hx hcan)), stall_says s c _⟩
  · obtain ⟨t, hexec, hissued⟩ := fail_case h hx rw false fin v hcan
    exact ⟨t, congrArg Host.Outcome.next hexec, hissued⟩
  · obtain ⟨t, hexec, hissued, -⟩ := write_case h hx rw false fin v hcan
    rw [hwho] at hissued
    exact ⟨t, congrArg Host.Outcome.next hexec, hissued⟩
  · obtain ⟨t, hexec, hissued, hzero⟩ := write_case h hx rw true fin v hcan
    rw [hwho] at hissued
    exact ⟨t, congrArg Host.Outcome.next hexec, hissued, hzero rfl⟩
  · exact ⟨_, congrArg Host.Outcome.next (stall_case h _ rfl (stalls_write hx hcan)), stall_says s c _⟩
  · obtain ⟨t, hexec, hissued⟩ := fail_case h hx rw true fin v hcan
    exact ⟨t, congrArg Host.Outcome.next hexec, hissued⟩
  · refine ⟨_, congrArg Host.Outcome.next (stall_case h _ rfl (stalls_read hx hcan)), fun y w r hcan' hcons => ?_⟩
    have hdoes := release_case (n := n) h rw hcan' hcons
    rw [hwho'] at hdoes
    exact hdoes
  · show execQueueStallRelease c s = _
    unfold execQueueStallRelease
    rw [h.2.2.2.2.1]
    simp [Bundle.empty]

end Sys2Proof.Machine
end

section
/-! PROOFS.  Traps, exceptions, and the returns from them (chapters 4 and 5). -/

namespace Sys2Proof.Machine

open Safety

set_option Elab.async false

section
variable {s : State} {c : Fin 68}

/-! ## A trap of a signal core -/

/-- The cells that a trap changes in the core that takes it. -/
def trapFields : List Fld := [I.pcb, I.cycle, I.qstall, I.trpc, I.tds, I.tbtgt, I.taddr, I.tcause, I.act, I.dly, I.btaken]

theorem trapCells_fields (s : State) (c : Nat) :
    ∀ p ∈ [(I.pcb, rbank s c), (I.cycle, rbank s c), (I.qstall, c)] ++ trapCells (rbank s c), p.1 ∈ trapFields := by
  intro p hp
  simp [trapCells] at hp
  rcases hp with rfl | rfl | rfl | rfl | rfl | rfl | rfl | rfl | rfl | rfl | rfl <;> simp [trapFields]

theorem trapFields_wake : ∀ f ∈ trapFields, ∀ g ∈ wakeCells, f.id ≠ g.id := by decide

/-- The state of a bank whose trap has been taken is that of a core that has trapped (R129). -/
theorem trapped_from (h : CoreReady s c.val) (code slot addr : Nat) (hcode : code < 16) (hslot : slot < 16) :
    Trapped s (trapBank (begun s c.val) (rbank s c.val) code slot addr false) c.val code slot addr := by
  obtain ⟨hsame, hbundles, hlandings, hqstall⟩ := begun_fields s c.val
  have hflight : inFlight (begun s c.val) (rbank s c.val) = [] := (begun_inFlight _ _ _).trans (ready_inFlight h)
  have hrd : ∀ g j, I.qstall.id ≠ g.id → (begun s c.val).rd g j = s.rd g j := fun g j hg => begun_ready g j hg
  obtain ⟨⟨hpc, hds, htgt, haddr, hcause, hto, hact, hdly, hbr⟩, hcells, hrest⟩ :=
    trapBank_says (begun s c.val) (rbank s c.val) code slot addr false hflight hcode hslot
  generalize trapBank (begun s c.val) (rbank s c.val) code slot addr false = t at *
  have hframe : SameCells s t ([(I.pcb, rbank s c.val), (I.cycle, rbank s c.val), (I.qstall, c.val)] ++ trapCells (rbank s c.val)) := by
    refine (hqstall.mono (by simp)).trans (hcells.mono fun p hp => ?_)
    rcases List.mem_cons.mp hp with rfl | hp
    · simp
    · exact List.mem_append_right _ hp
  have hbank : rbank t c.val = rbank s c.val := rbank_congr _ (hframe _ _ fun p hp he =>
    absurd he ((show ∀ f ∈ trapFields, f.id ≠ I.bank.id by decide) _ (trapCells_fields s c.val p hp)))
  have hdsword : dsWord (begun s c.val) (rbank s c.val) = dsWord s (rbank s c.val) :=
    dsWord_congr fun g hg => hrd g _ ((show ∀ g ∈ [I.dly, I.btaken, I.act, I.rot], I.qstall.id ≠ g.id by decide) g hg)
  have hbun : t.bundles = Tbl.drop c.val s.bundles := by rw [hrest]; exact hbundles
  have hlan : t.landings = Tbl.drop (rbank s c.val) s.landings := by rw [hrest]; exact congrArg _ hlandings
  unfold Trapped pcOf
  rw [hbank]
  rw [hrd _ _ (by decide)] at hpc htgt hto
  refine ⟨hpc, hds.trans hdsword, htgt, haddr, ?_, hto, hact, hdly, hbr, ?_, ?_, fun d hd => ?_, fun d hd => ?_, hframe⟩
  · rw [hcause]
    simp [b2n]
  · unfold bundleOf
    rw [hbun, Tbl.get_drop, if_pos rfl]
  · unfold SameButCode at *
    rw [hrest, hsame]
  · unfold bundleOf
    rw [hbun, Tbl.get_drop, if_neg (Ne.symm hd)]
  · unfold inFlight
    rw [hlan, Tbl.get_drop, if_neg (Ne.symm hd)]

theorem trapped_calm {t : State} {code slot addr : Nat} (h : CoreReady s c.val) (ht : Trapped s t c.val code slot addr) :
    boundary t c.val = t := by
  obtain ⟨-, -, -, -, -, -, -, -, -, -, -, -, -, hcells⟩ := ht
  exact boundary_after (f := s) (ready_awake h) (fun _ _ => rfl) hcells fun p hp =>
    trapFields_wake _ (trapCells_fields s c.val p hp)

/-! ## A reserved syllable -/

/-- The slot that a reserved syllable alone in its bundle names. -/
def reservedSlot (s : State) (cls : BitVec 2) : Nat :=
  if cls = 0 then 4 else if cls = 1 then 2 else if cls = 2 then 0 else Config.freeNat s.freeCtr % 16

theorem reservedSlot_lt (s : State) (cls : BitVec 2) : reservedSlot s cls < 16 := by
  unfold reservedSlot
  split
  · decide
  · split
    · decide
    · split
      · decide
      · exact Nat.mod_lt _ (by decide)

theorem exec_reserved (h : CoreReady s c.val) (cls : BitVec 2) : exec (.reservedSyllable c true cls) s =
    .next (boundary (takeCause (fetched s c.val) c.val (causeIllegal (reservedSlot s cls))) c.val) := by
  have hexec : exec (.reservedSyllable c true cls) s =
      .next (syllable s c.val true cls.toNat .only [] [causeIllegal (reservedSlot s cls)]) := by
    show execReservedSyllable c true cls s = _
    unfold execReservedSyllable
    rw [h.2.2.2.2.1]
    obtain rfl | rfl | rfl | rfl : cls = 0 ∨ cls = 1 ∨ cls = 2 ∨ cls = 3 := by
      revert cls
      decide
    all_goals rfl
  rw [hexec, cause_taken h cls.toNat (by omega) [] _ rfl]

theorem reserved_traps (h : CoreReady s c.val) (hc : c.val < 64) (hin : inTrap s (rbank s c.val) = false) (cls : BitVec 2) :
    Does (.reservedSyllable c true cls) s fun t => Trapped s t c.val 1 (reservedSlot s cls) 0 := by
  have hsame := fetched_same s c.val
  have htake : takeCause (fetched s c.val) c.val (causeIllegal (reservedSlot s cls)) =
      trapBank (begun s c.val) (rbank s c.val) 1 (reservedSlot s cls) 0 false := by
    unfold takeCause
    rw [if_neg (by simp [causeIllegal]), not_svc hc, if_neg (by simp)]
    unfold sgcTrap
    rw [rbank_congr _ (hsame.rd _ _), if_neg]
    · rfl
    · unfold inTrap at *
      rw [hsame.rd, hin]
      simp
  have ht := trapped_from h 1 (reservedSlot s cls) 0 (by decide) (reservedSlot_lt s cls)
  refine ⟨_, ?_, ht⟩
  rw [exec_reserved h, htake, trapped_calm h ht]

theorem reserved_excepts (h : CoreReady s c.val) (hc : 64 ≤ c.val) (cls : BitVec 2) :
    Does (.reservedSyllable c true cls) s fun t => Excepted s t c.val (pcOf s c.val) 1 (reservedSlot s cls) 0 0x100 := by
  have hsame := fetched_same s c.val
  have htake : takeCause (fetched s c.val) c.val (causeIllegal (reservedSlot s cls)) =
      svcException (fetched s c.val) c.val 1 (reservedSlot s cls * 256 + 1) 0 := by
    unfold takeCause
    rw [if_neg (by simp [causeIllegal]), is_svc hc]
    rfl
  have hfields := id hsame
  unfold SameButFetch at hfields
  have hlan : (fetched s c.val).landings = s.landings := by rw [hfields]
  have hbun : (fetched s c.val).bundles = s.bundles := by rw [hfields]
  have ht := excepted_from (s := s) (u := fetched s c.val) hc ((congrArg (Tbl.get [] · _) hlan).trans (ready_inFlight h))
    (by unfold SameButCode; rw [hfields]) (fun d _ => congrArg (Tbl.get Bundle.empty · d) hbun) (fun b _ => congrArg (Tbl.get [] · b) hlan)
    (fun g j _ => hsame.rd g j) 1 (reservedSlot s cls) 0 (by have := reservedSlot_lt s cls; omega)
  rw [hsame.rd] at ht
  refine ⟨_, ?_, ht⟩
  rw [exec_reserved h, htake, excepted_calm (ready_awake h) ht]

/-! ## BKPT that halts -/

theorem halted_setHalted (u : State) (c : Fin 68) : halted (setHalted u c.val true) c.val = true := by
  unfold halted coreBit setHalted
  dsimp only
  by_cases hlo : c.val < 32
  · rw [if_pos hlo, if_pos hlo, State.set_eq_wr, State.rd_wr_same, Nat.mod_eq_of_lt (putBit_lt (State.rd_lt _ _ _) hlo), bitOf_putBit,
      if_pos rfl]
  · by_cases hhi : c.val < 64
    · rw [if_neg hlo, if_pos hhi, if_neg hlo, if_pos hhi, State.set_eq_wr, State.rd_wr_same,
        Nat.mod_eq_of_lt (putBit_lt (State.rd_lt _ _ _) (show c.val - 32 < 32 by omega)), bitOf_putBit, if_pos rfl]
    · rw [if_neg hlo, if_neg hhi, if_neg hlo, if_neg hhi, State.set_eq_wr, State.rd_wr_same,
        Nat.mod_eq_of_lt (putBit_lt (State.rd_lt _ _ _) (show c.val - 64 < 4 by omega)), bitOf_putBit, if_pos rfl]

theorem setHalted_says (u : State) (c : Fin 68) : SameCells u (setHalted u c.val true)
    [(F.MLS_DBG_HALTED_LO_CORES, 0), (F.MLS_DBG_HALTED_HI_CORES, 0), (F.MLS_DBG_HALTED_SVC_CORES, 0)] ∧
      SameButCells u (setHalted u c.val true) := by
  unfold setHalted
  simp only [State.set_eq_wr]
  split
  · exact ⟨(SameCells.refl u _).wr (by simp), rfl⟩
  · split
    · exact ⟨(SameCells.refl u _).wr (by simp), rfl⟩
    · exact ⟨(SameCells.refl u _).wr (by simp), rfl⟩

/-- BKPT halts its core where the debug port asks for that (R507). -/
theorem bkpt_halts (h : CoreReady s c.val) (hcfg : s.rd F.MLS_DBG_CFG_BKPTHALT = 1) (hdbg : dbgAvail s = true) (tag : BitVec 16) :
    Does (.bkpt c true tag) s fun t => halted t c.val = true ∧ pcOf t c.val = pcOf s c.val ∧ t.mem = s.mem := by
  obtain ⟨hsame, -, -, hcells⟩ := begun_fields s c.val
  have hfetch := fetched_same s c.val
  have htake : takeCause (fetched s c.val) c.val causeBreak = setHalted (begun s c.val) c.val true := by
    have hdbg' : dbgAvail (fetched s c.val) = true := by
      unfold SameButFetch at hfetch
      rw [hfetch]
      exact hdbg
    unfold takeCause
    rw [if_pos (by rw [hdbg', on_of_one ((hfetch.rd _ _).trans hcfg)]; rfl)]
    rfl
  obtain ⟨hput, hrest⟩ := setHalted_says (begun s c.val) c
  have hhalted := halted_setHalted (begun s c.val) c
  have hcalm : boundary (setHalted (begun s c.val) c.val true) c.val = setHalted (begun s c.val) c.val true := by
    obtain ⟨-, -, hreq, hstep, -⟩ := h
    have hrd : ∀ g ∈ [F.MLS_DBG_STEP_GO, F.MLS_DBG_STEP_CORE, F.MLS_DBG_HALT_LO_CORES, F.MLS_DBG_HALT_HI_CORES, F.MLS_DBG_HALT_SVC_CORES],
        (setHalted (begun s c.val) c.val true).rd g = s.rd g := by
      intro g hg
      have hne := (show ∀ g ∈ [F.MLS_DBG_STEP_GO, F.MLS_DBG_STEP_CORE, F.MLS_DBG_HALT_LO_CORES, F.MLS_DBG_HALT_HI_CORES,
        F.MLS_DBG_HALT_SVC_CORES], I.qstall.id ≠ g.id ∧ ∀ f ∈ [F.MLS_DBG_HALTED_LO_CORES, F.MLS_DBG_HALTED_HI_CORES,
        F.MLS_DBG_HALTED_SVC_CORES], f.id ≠ g.id by decide) g hg
      refine (hput g 0 fun p hp he => absurd he (hne.2 _ ?_)).trans (begun_ready g 0 hne.1)
      simp only [List.mem_cons, List.not_mem_nil, or_false] at hp
      rcases hp with rfl | rfl | rfl <;> simp
    have hstep' : stepping (setHalted (begun s c.val) c.val true) c.val = false := by
      unfold stepping State.on at *
      rw [hrd _ (by simp), hrd _ (by simp)]
      exact hstep
    have hreq' : haltReq (setHalted (begun s c.val) c.val true) c.val = false := by
      unfold haltReq at *
      rw [coreBit_congr (s := s) _ _ _ _ (hrd _ (by simp)) (hrd _ (by simp)) (hrd _ (by simp))]
      exact hreq
    simp [boundary, hstep', hreq', hhalted]
  refine ⟨setHalted (begun s c.val) c.val true, ?_, hhalted, ?_, ?_⟩
  · show Host.Outcome.next (syllable s c.val true clsS .only [.act .bkpt] [causeBreak]) = _
    rw [cause_taken h clsS (by decide) _ _ rfl, htake, hcalm]
  · have hread : ∀ g ∈ [I.pcb, I.bank], ∀ j, (setHalted (begun s c.val) c.val true).rd g j = s.rd g j := by
      intro g hg j
      have hne := (show ∀ g ∈ [I.pcb, I.bank], I.qstall.id ≠ g.id ∧ ∀ f ∈ [F.MLS_DBG_HALTED_LO_CORES, F.MLS_DBG_HALTED_HI_CORES,
        F.MLS_DBG_HALTED_SVC_CORES], f.id ≠ g.id by decide) g hg
      refine (hput g j fun p hp he => absurd he (hne.2 _ ?_)).trans (begun_ready g j hne.1)
      simp only [List.mem_cons, List.not_mem_nil, or_false] at hp
      rcases hp with rfl | rfl | rfl <;> simp
    unfold pcOf
    rw [rbank_congr _ (hread _ (by simp) _), hread _ (by simp)]
  · unfold SameButCode at hsame
    unfold SameButCells at hrest
    rw [hrest, hsame]

/-! ## Returns -/

/-- A bundle whose act writes only cells that control does not read, past its own boundary. -/
theorem act_calm {t : State} {l : List (Fld × Nat)} (h : CoreReady s c.val) (hbundle : BundleFrame s t c.val l)
    (hl : ∀ p ∈ l, ∀ g ∈ wakeCells, p.1.id ≠ g.id) : boundary (arithDue t c.val) c.val = t := by
  obtain ⟨-, -, -, hcells⟩ := hbundle
  have hwake : SameWake s t := fun g hg j => hcells g j fun p hp he => by
    rcases List.mem_append.mp hp with hp | hp
    · have hne := (show ∀ g ∈ wakeCells, I.pcb.id ≠ g.id ∧ I.cycle.id ≠ g.id ∧ I.qstall.id ≠ g.id by decide) g hg
      simp only [List.mem_cons, List.not_mem_nil, or_false] at hp
      rcases hp with rfl | rfl | rfl
      · exact absurd he hne.1
      · exact absurd he hne.2.1
      · exact absurd he hne.2.2
    · exact absurd he (hl p hp g hg)
  rw [arithDue_awake (ready_awake h) hwake, boundary_awake (ready_awake h) hwake]

theorem framed_rd {v : State} (hv : Framed s v c.val [] []) (g : Fld) (j : Nat)
    (hg : g.id ∉ [I.pcb.id, I.cycle.id, I.qstall.id]) : v.rd g j = s.rd g j := by
  obtain ⟨-, ⟨-, -, -, hcells⟩, -⟩ := hv
  refine hcells g j fun p hp he => ?_
  simp only [List.append_nil, List.mem_cons, List.not_mem_nil, or_false] at hp
  rcases hp with rfl | rfl | rfl <;> exact absurd (by rw [← he]; simp) hg

theorem clrBit_lt {v k n : Nat} (h : v < n) : clrBit v k < n := by
  unfold clrBit
  split
  · exact lt_of_le_of_lt (Nat.sub_le _ _) h
  · exact h

theorem privileged_eq (h : CoreReady s c.val) (hc : 64 ≤ c.val) :
    privileged s c.val = bitOf (s.rd I.scr (16 * (c.val - 64))) 0 := by
  unfold privileged
  rw [is_svc hc, cr_still (ready_inFlight h)]
  rfl

/-- RETT returns to the cancelled bundle, its delay and loop state, and its branch target (R131). -/
theorem rett_case (h : CoreReady s c.val) (hc : c.val < 64) (hin : inTrap s (rbank s c.val) = true) :
    let b := rbank s c.val
    Does (.rett c true) s fun t =>
      t.rd I.tcause b = clrBit (s.rd I.tcause b) 31 ∧ pcOf t c.val = s.rd I.trpc b / 4 * 4 ∧
      t.rd I.btgt b = s.rd I.tbtgt b ∧ t.rd I.dly b = s.rd I.tds b % 4 ∧ t.rd I.btaken b = b2n (s.rd I.tds b % 4 != 0) ∧
      t.rd I.act b = s.rd I.tds b / 4 % 4 ∧ t.rd I.rot b = s.rd I.tds b / 16 % 4 ∧ bundleOf t c.val = Bundle.empty ∧
      BundleFrame s t c.val [(I.tcause, b), (I.btgt, b), (I.dly, b), (I.btaken, b), (I.act, b), (I.rot, b)] := by
  intro b
  have hexec : exec (.rett c true) s = .next (syllable s c.val true clsS .only [.act .rett] []) := by
    show execRett c true s = _
    unfold execRett
    rw [not_svc hc, if_neg]
    · rfl
    · have hcr : readCr s c.val 7 = s.rd I.tcause b := by
        show s.cr b I.tcause b = _
        exact cr_still (ready_inFlight h) _ _
      rw [hcr]
      unfold inTrap at hin
      rw [hin]
      decide
  obtain ⟨v, hgoes, hframe, -, -, -⟩ := act_goes h .rett rfl rfl rfl rfl
  have hrd : ∀ g j, g.id ∉ [I.pcb.id, I.cycle.id, I.qstall.id] → v.rd g j = s.rd g j := framed_rd hframe
  have hbank : rbank v c.val = b := rbank_congr _ (hrd _ _ (by decide))
  have hact : actAfter v c.val (pcOf s c.val) 1 .rett =
      resumeAt (v.wr I.tcause b (clrBit (s.rd I.tcause b) 31)) b (s.rd I.trpc b) (s.rd I.tds b) (s.rd I.tbtgt b) := by
    show rettAct v c.val = _
    unfold rettAct
    dsimp only
    rw [hbank, hrd I.tcause _ (by decide), hrd I.trpc _ (by decide), hrd I.tds _ (by decide), hrd I.tbtgt _ (by decide)]
  rw [hact] at hgoes
  obtain ⟨⟨hpc, htgt, hdly, hbr, hloop, hrot⟩, honly⟩ := resumeAt_says (s := v.wr I.tcause b (clrBit (s.rd I.tcause b) 31)) (b := b)
    (pc := s.rd I.trpc b) (ds := s.rd I.tds b) (tgt := s.rd I.tbtgt b) (State.rd_lt _ _ _) (State.rd_lt _ _ _)
  generalize resumeAt _ b _ _ _ = t at *
  have hwritten : OnlyCells v t ((I.pcb, b) :: [(I.tcause, b), (I.btgt, b), (I.dly, b), (I.btaken, b), (I.act, b), (I.rot, b)]) :=
    (((OnlyCells.refl v _).wr (by simp)).trans (honly.mono (by simp)))
  obtain ⟨hempty, hbundle⟩ := resumed_frame hframe hwritten
  have hcalm := act_calm h hbundle (by
    have hne : ∀ f ∈ [I.tcause, I.btgt, I.dly, I.btaken, I.act, I.rot], ∀ g ∈ wakeCells, f.id ≠ g.id := by decide
    exact fun p hp => hne p.1 (by simp at hp ⊢; rcases hp with rfl | rfl | rfl | rfl | rfl | rfl <;> simp))
  rw [hcalm] at hgoes
  refine ⟨t, hexec.trans (congrArg _ hgoes), ?_, ?_, htgt, hdly, hbr, hloop, hrot, hempty, hbundle⟩
  · rw [sameCells_rd honly.2 I.tcause b (by simp; decide), State.rd_wr_same]
    exact Nat.mod_eq_of_lt (clrBit_lt (State.rd_lt _ _ _))
  · unfold pcOf
    rw [rbank_congr c.val (sameCells_rd hwritten.2 I.bank _ (by simp; decide)), hbank, hpc]

/-- ERET returns from an exception (R134). -/
theorem eret_case (h : CoreReady s c.val) (hc : 64 ≤ c.val) (hpriv : bitOf (s.rd I.scr (16 * (c.val - 64))) 0 = true) :
    let b := rbank s c.val
    let r := fun k => s.rd I.scr (16 * (c.val - 64) + k)
    Does (.eret c true) s fun t =>
      t.rd I.scr (16 * (c.val - 64)) = r 6 ∧ pcOf t c.val = r 3 / 4 * 4 ∧ t.rd I.btgt b = r 8 ∧ t.rd I.dly b = r 7 % 4 ∧
      t.rd I.btaken b = b2n (r 7 % 4 != 0) ∧ t.rd I.act b = r 7 / 4 % 4 ∧ t.rd I.rot b = r 7 / 16 % 4 ∧
      bundleOf t c.val = Bundle.empty ∧
      BundleFrame s t c.val [(I.scr, 16 * (c.val - 64)), (I.btgt, b), (I.dly, b), (I.btaken, b), (I.act, b), (I.rot, b)] := by
  intro b r
  generalize hn : 16 * (c.val - 64) = n at *
  have hexec : exec (.eret c true) s = .next (syllable s c.val true clsS .only [.act .eret] []) := by
    show svcSyl s c.val true true false .eret = _
    unfold svcSyl
    rw [is_svc hc, privileged_eq h hc, hn, hpriv]
    rfl
  obtain ⟨v, hgoes, hframe, -, -, -⟩ := act_goes h .eret rfl rfl rfl rfl
  have hrd : ∀ g j, g.id ∉ [I.pcb.id, I.cycle.id, I.qstall.id] → v.rd g j = s.rd g j := framed_rd hframe
  have hbank : rbank (v.wr I.scr n (r 6)) c.val = b :=
    rbank_congr _ ((State.rd_wr_cell _ _ _ _ _ _ (by decide)).trans (hrd _ _ (by decide)))
  have hact : actAfter v c.val (pcOf s c.val) 1 .eret = resumeAt (v.wr I.scr n (r 6)) b (r 3) (r 7) (r 8) := by
    show eretAct v c.val = _
    unfold eretAct setScr
    dsimp only
    rw [hn, Nat.add_zero, hrd I.scr _ (by decide), hrd I.scr _ (by decide), hrd I.scr _ (by decide), hrd I.scr _ (by decide)]
    rw [rbank_congr c.val (hrd I.bank _ (by decide))]
    simp only [r, b, hn]
  rw [hact] at hgoes
  obtain ⟨⟨hpc, htgt, hdly, hbr, hloop, hrot⟩, honly⟩ := resumeAt_says (s := v.wr I.scr n (r 6)) (b := b)
    (pc := r 3) (ds := r 7) (tgt := r 8) (State.rd_lt _ _ _) (State.rd_lt _ _ _)
  generalize resumeAt _ b _ _ _ = t at *
  have hwritten : OnlyCells v t ((I.pcb, b) :: [(I.scr, n), (I.btgt, b), (I.dly, b), (I.btaken, b), (I.act, b), (I.rot, b)]) :=
    (((OnlyCells.refl v _).wr (by simp)).trans (honly.mono (by simp)))
  obtain ⟨hempty, hbundle⟩ := resumed_frame hframe hwritten
  have hcalm := act_calm h hbundle (by
    have hne : ∀ f ∈ [I.scr, I.btgt, I.dly, I.btaken, I.act, I.rot], ∀ g ∈ wakeCells, f.id ≠ g.id := by decide
    exact fun p hp => hne p.1 (by simp at hp ⊢; rcases hp with rfl | rfl | rfl | rfl | rfl | rfl <;> simp))
  rw [hcalm] at hgoes
  refine ⟨t, hexec.trans (congrArg _ hgoes), ?_, ?_, htgt, hdly, hbr, hloop, hrot, hempty, hbundle⟩
  · rw [sameCells_rd honly.2 I.scr n (by simp; decide), State.rd_wr_same]
    exact Nat.mod_eq_of_lt (State.rd_lt _ _ _)
  · unfold pcOf
    rw [rbank_congr c.val (sameCells_rd honly.2 I.bank _ (by simp; decide)), hbank, hpc]

/-- SYSCALL saves the bundle after its own (R180). -/
theorem syscall_case (h : CoreReady s c.val) (hc : 64 ≤ c.val) (imm : BitVec 16) :
    Does (.syscall c true imm) s fun t => Excepted s t c.val ((pcOf s c.val + 4) % 2 ^ 32) 11 4 imm.toNat 0x40 := by
  have hexec : exec (.syscall c true imm) s = .next (syllable s c.val true clsS .only [.act (.syscall imm.toNat)] []) := by
    show svcSyl s c.val true false false (.syscall imm.toNat) = _
    unfold svcSyl
    rw [is_svc hc]
    rfl
  obtain ⟨v, hgoes, hframe, hpc, hflight, hrest⟩ := act_goes h (.syscall imm.toNat) rfl rfl rfl rfl
  obtain ⟨hempty, ⟨hcode, hbundles, hlandings, hcells⟩, -⟩ := hframe
  have ht := excepted_from hc hflight hcode hbundles hlandings (by simpa using hcells) 11 4 imm.toNat (by decide)
  rw [hpc] at ht
  have hcalm : boundary (arithDue (svcException v c.val 11 (4 * 256 + 11) imm.toNat) c.val) c.val =
      svcException v c.val 11 (4 * 256 + 11) imm.toNat := by
    have hb : BundleFrame s (svcException v c.val 11 (4 * 256 + 11) imm.toNat) c.val (exceptionCells s c.val) := by
      obtain ⟨-, -, -, -, -, -, -, -, -, -, -, -, -, hb⟩ := ht
      exact hb
    exact act_calm h hb fun p hp => excCells_wake _ (excCells_mem s c.val p (List.mem_append_right _ hp))
  exact ⟨_, hexec.trans (congrArg _ (hgoes.trans hcalm)), ht⟩

/-! ## Instructions that a core has not, or may not execute (R144) -/

theorem svcSyl_on_sgc (hc : c.val < 64) (priv bad : Bool) (a : Act) :
    svcSyl s c.val true priv bad a = sSyl s c.val true [] [causeIllegal 4] := by
  unfold svcSyl
  rw [not_svc hc]
  rfl

theorem sgcSyl_on_svc (hc : 64 ≤ c.val) (a : Act) : sgcSyl s c.val true a = sSyl s c.val true [] [causeIllegal 4] := by
  unfold sgcSyl
  rw [is_svc hc]
  rfl

theorem svcSyl_in_user (h : CoreReady s c.val) (hc : 64 ≤ c.val) (huser : bitOf (s.rd I.scr (16 * (c.val - 64))) 0 = false) (a : Act) :
    svcSyl s c.val true true false a = sSyl s c.val true [] [causePriv 4] := by
  unfold svcSyl
  rw [is_svc hc, privileged_eq h hc, huser]
  rfl

theorem exec_rett_not_in_trap (h : CoreReady s c.val) (hin : isSvc c.val = true ∨ inTrap s (rbank s c.val) = false) :
    exec (.rett c true) s = sSyl s c.val true [.act .rett] [causeIllegal 4] := by
  show execRett c true s = _
  unfold execRett
  rw [if_pos]
  rcases hin with hsvc | hin
  · rw [hsvc]
    rfl
  · have hcr : readCr s c.val 7 = s.rd I.tcause (rbank s c.val) := by
      show s.cr (rbank s c.val) I.tcause (rbank s c.val) = _
      exact cr_still (ready_inFlight h) _ _
    rw [hcr]
    unfold inTrap at hin
    rw [hin]
    simp

section
variable (h : CoreReady s c.val)
include h

theorem illegal_traps (hc : c.val < 64) (hin : inTrap s (rbank s c.val) = false) (i : Instr) (effs : List Eff)
    (hm : meetCauses (fetched s c.val) c.val effs = []) (hi : exec i s = sSyl s c.val true effs [causeIllegal 4]) :
    Does i s fun t => Trapped s t c.val 1 4 0 :=
  trap_case h hc hin i effs (causeIllegal 4) hm hi rfl rfl (by decide) (.inl (by decide))

theorem illegal_excepts (hc : 64 ≤ c.val) (i : Instr) (effs : List Eff)
    (hm : meetCauses (fetched s c.val) c.val effs = []) (hi : exec i s = sSyl s c.val true effs [causeIllegal 4]) :
    Does i s fun t => Excepted s t c.val (pcOf s c.val) 1 4 0 0x100 :=
  exception_case h hc i effs (causeIllegal 4) hm hi rfl rfl (by decide) (.inl (by decide))

theorem privileged_excepts (hc : 64 ≤ c.val) (huser : bitOf (s.rd I.scr (16 * (c.val - 64))) 0 = false) (i : Instr) (a : Act)
    (hi : exec i s = svcSyl s c.val true true false a) : Does i s fun t => Excepted s t c.val (pcOf s c.val) 5 4 0 0x100 :=
  exception_case h hc i [] (causePriv 4) rfl (hi.trans (svcSyl_in_user h hc huser a)) rfl rfl (by decide) (.inl (by decide))

end

end

/-- Settles O33: BKPT, a reserved syllable and an instruction that the core has not by the cause they raise; SYSCALL, RETT and
ERET by the act that issues. -/
theorem trapsAndExceptionsSaveAndReturn : Obligations.TrapsAndExceptionsSaveAndReturn := by
  unfold Obligations.TrapsAndExceptionsSaveAndReturn
  intro s c h b halts slot
  have hquiet : ¬ halts → (s.on F.MLS_DBG_CFG_BKPTHALT && dbgAvail s) = false := by
    intro hn
    rw [on_flag s 0 (f := F.MLS_DBG_CFG_BKPTHALT) rfl, Bool.and_eq_false_iff, decide_eq_false_iff_not]
    by_cases hcfg : s.rd F.MLS_DBG_CFG_BKPTHALT = 1
    · exact .inr (Bool.eq_false_iff.mpr fun hdbg => hn ⟨hcfg, hdbg⟩)
    · exact .inl hcfg
  refine ⟨fun hh tag => bkpt_halts h hh.1 hh.2 tag, fun hc hin => ⟨fun hn tag => ?_, fun cls => ?_, fun rd ra rb imm => ?_⟩,
    fun hc hin => rett_case h hc hin, fun hc => ?_⟩
  · exact trap_case h hc hin _ [.act .bkpt] causeBreak rfl rfl rfl rfl (by decide) (.inr (hquiet hn))
  · exact reserved_traps h hc hin cls
  · have hsvc : ∀ i : Instr, ∀ priv bad a, exec i s = svcSyl s c.val true priv bad a → Does i s fun t => Trapped s t c.val 1 4 0 :=
      fun i priv bad a hi => illegal_traps h hc hin i [] rfl (hi.trans (svcSyl_on_sgc hc priv bad a))
    simp only [List.forall_mem_cons]
    exact ⟨hsvc _ _ _ _ rfl, hsvc _ _ _ _ rfl, hsvc _ _ _ _ rfl, hsvc _ _ _ _ rfl, hsvc _ _ _ _ rfl, hsvc _ _ _ _ rfl,
      illegal_traps h hc hin _ [.act .rett] rfl (exec_rett_not_in_trap h (.inr hin)), by simp⟩
  · refine ⟨fun hn tag => ?_, fun cls => reserved_excepts h hc cls, fun ra => ?_, fun imm => syscall_case h hc imm, fun huser ra => ?_,
      fun hpriv => eret_case h hc hpriv⟩
    · exact exception_case h hc _ [.act .bkpt] causeBreak rfl rfl rfl rfl (by decide) (.inr (hquiet hn))
    · have hsgc : ∀ i : Instr, ∀ a, exec i s = sgcSyl s c.val true a → Does i s fun t => Excepted s t c.val (pcOf s c.val) 1 4 0 0x100 :=
        fun i a hi => illegal_excepts h hc i [] rfl (hi.trans (sgcSyl_on_svc hc a))
      have hwait : exec (.waitjob c true) s = sSyl s c.val true [.act .waitJob] [causeIllegal 4] := by
        show execWaitjob c true s = _
        unfold execWaitjob
        rw [is_svc hc]
        rfl
      simp only [List.forall_mem_cons]
      exact ⟨illegal_excepts h hc _ _ rfl hwait, hsgc _ _ rfl, hsgc _ _ rfl, hsgc _ _ rfl, hsgc _ _ rfl,
        illegal_excepts h hc _ [.act .rett] rfl (exec_rett_not_in_trap h (.inl (is_svc hc))), by simp⟩
    · have hpriv : ∀ i : Instr, ∀ a, exec i s = svcSyl s c.val true true false a →
          Does i s fun t => Excepted s t c.val (pcOf s c.val) 5 4 0 0x100 := fun i a hi => privileged_excepts h hc huser i a hi
      simp only [List.forall_mem_cons]
      exact ⟨hpriv _ _ rfl, hpriv _ _ rfl, hpriv _ _ rfl, hpriv _ _ rfl, hpriv _ _ rfl, hpriv _ _ rfl, hpriv _ _ rfl, hpriv _ _ rfl,
        hpriv _ _ rfl, hpriv _ _ rfl, hpriv _ _ rfl, by simp⟩

end Sys2Proof.Machine
end

section
/-! PROOFS.  Imprecise traps, interrupts of supervisor cores, and the SIC (chapter 4). -/

namespace Sys2Proof.Machine

open Safety

set_option Elab.async false

/-! ## A boundary at which nothing waits -/

theorem boundary_quiet {s t : State} {c : Nat} (hreq : haltReq s c = false) (hstep : stepping s c = false)
    (hcancel : isSvc c = true ∨ s.rd I.jCancel (s.rd I.cJob c - 1) = 0) (hrd : ∀ g ∈ boundaryCells, ∀ j, t.rd g j = s.rd g j) :
    boundary t c = t := by
  have hstep' : stepping t c = false := by
    unfold stepping State.on at *
    rw [hrd F.MLS_DBG_STEP_GO (by simp [boundaryCells]), hrd F.MLS_DBG_STEP_CORE (by simp [boundaryCells])]
    exact hstep
  have hreq' : haltReq t c = false := by
    unfold haltReq at *
    rw [coreBit_congr (s := s) _ _ _ _ (hrd F.MLS_DBG_HALT_LO_CORES (by simp [boundaryCells]) 0)
      (hrd F.MLS_DBG_HALT_HI_CORES (by simp [boundaryCells]) 0) (hrd F.MLS_DBG_HALT_SVC_CORES (by simp [boundaryCells]) 0)]
    exact hreq
  have hcancel' : (!isSvc c && t.on I.jCancel (t.rd I.cJob c - 1)) = false := by
    rw [hrd I.cJob (by simp [boundaryCells])]
    rcases hcancel with hsvc | hzero
    · rw [hsvc]
      rfl
    · rw [on_of_zero ((hrd I.jCancel (by simp [boundaryCells]) _).trans hzero), Bool.and_false]
  unfold boundary
  simp only [hstep', hreq', Bool.false_eq_true, if_false]
  rw [if_neg]
  intro hall
  simp only [Bool.and_eq_true] at hall
  obtain ⟨⟨⟨-, hsgc⟩, -⟩, hon⟩ := hall
  rw [hsgc, hon] at hcancel'
  exact absurd hcancel' (by decide)

/-! ## The imprecise trap -/

section
variable {s : State} {c : Fin 68} {n : Nat}

theorem exec_arithTrap (hlive : coreLive s c.val = true) (hrun : halted s c.val = false) (hat : atBoundary s c.val = true)
    (hdue : s.rd I.arith (rbank s c.val) = n + 1) :
    exec (.arithTrap c) s = .next (boundary (takeArith s c.val) c.val) := by
  show execArithTrap c s = _
  unfold execArithTrap
  rw [hlive, hrun, hat, on_of_ne_zero (by omega)]
  rfl

theorem arithTrap_none (hnone : s.rd I.arith (rbank s c.val) = 0) : exec (.arithTrap c) s = .next s := by
  show execArithTrap c s = _
  unfold execArithTrap
  rw [on_of_zero hnone, Bool.and_false]
  rfl

section
variable (hlive : coreLive s c.val = true) (hrun : halted s c.val = false) (hreq : haltReq s c.val = false)
  (hstep : stepping s c.val = false) (hat : atBoundary s c.val = true) (hflight : inFlight s (rbank s c.val) = [])
  (hdue : s.rd I.arith (rbank s c.val) = n + 1) (hn : n < 8)
include hlive hrun hreq hstep hat hflight hdue hn

/-- A signal core takes a due trap, marked imprecise (R130). -/
theorem arithTrap_sgc (hc : c.val < 64) (hcancel : s.rd I.jCancel (s.rd I.cJob c.val - 1) = 0) (hin : inTrap s (rbank s c.val) = false) :
    let b := rbank s c.val
    Does (.arithTrap c) s fun t =>
      t.rd I.tcause b = 2 ^ 31 + 2 ^ 30 + n * 256 + 8 ∧ t.rd I.trpc b = pcOf s c.val ∧ t.rd I.tds b = dsWord s b ∧
      t.rd I.tbtgt b = s.rd I.btgt b ∧ t.rd I.taddr b = 0 ∧ pcOf t c.val = s.rd I.trapv b / 4 * 4 ∧ t.rd I.arith b = 0 ∧
      t.rd I.act b = 0 ∧ t.rd I.dly b = 0 ∧ t.rd I.btaken b = 0 ∧ bundleOf t c.val = Bundle.empty ∧
      SameCells s t ((I.pcb, b) :: (I.arith, b) :: (I.qstall, c.val) :: trapCells b) ∧ t.mem = s.mem := by
  intro b
  generalize hu : cancelBundle (s.wr I.arith b 0) c.val = u
  have hcells : SameCells s u [(I.arith, b), (I.qstall, c.val)] := by
    rw [← hu]
    exact ((SameCells.refl s _).wr (by simp)).wr (by simp)
  have hrd : ∀ g j, I.arith.id ≠ g.id → I.qstall.id ≠ g.id → u.rd g j = s.rd g j := fun g j ha hq =>
    sameCells_rd hcells g j (by simpa using ⟨ha, hq⟩)
  have hzero : u.rd I.arith b = 0 := by
    rw [← hu]
    exact (State.rd_wr_cell _ _ _ _ _ _ (by decide)).trans (State.rd_wr_same _ _ _ _)
  have hflight' : inFlight u b = [] := by
    rw [← hu]
    exact hflight
  have hbundle : u.bundles = Tbl.drop c.val s.bundles := by
    rw [← hu]
    rfl
  have htake : takeArith s c.val = trapBank u b 8 n 0 true := by
    have hbank : rbank (s.wr I.arith b 0) c.val = b := rbank_congr _ (State.rd_wr_cell _ _ _ _ _ _ (by decide))
    unfold takeArith
    dsimp only
    rw [not_svc hc, hdue, if_neg (by simp)]
    unfold sgcTrap
    rw [show rbank (s.wr I.arith (rbank s c.val) 0) c.val = b from hbank, if_neg, ← hu]
    · rfl
    · unfold inTrap at *
      rw [State.rd_wr_cell _ _ _ _ _ _ (by decide), hin]
      simp
  obtain ⟨⟨hpc, hds, htgt, haddr, hcause, hto, hact, hdly, hbr⟩, hframe, hrest⟩ :=
    trapBank_says u b 8 n 0 true hflight' (by decide) (by omega)
  generalize trapBank u b 8 n 0 true = t at *
  have hall : SameCells s t ((I.pcb, b) :: (I.arith, b) :: (I.qstall, c.val) :: trapCells b) := by
    refine (hcells.mono (by simp)).trans (hframe.mono fun p hp => ?_)
    rcases List.mem_cons.mp hp with rfl | hp
    · simp
    · simp [hp]
  have hread : ∀ g ∈ I.bank :: boundaryCells, ∀ j, t.rd g j = s.rd g j := by
    have hne : ∀ f ∈ [I.pcb, I.arith, I.qstall, I.trpc, I.tds, I.tbtgt, I.taddr, I.tcause, I.act, I.dly, I.btaken],
        ∀ g ∈ I.bank :: boundaryCells, f.id ≠ g.id := by decide
    exact fun g hg j => sameCells_rd hall g j fun p hp => hne p.1 (by
      simp [trapCells] at hp ⊢
      rcases hp with rfl | rfl | rfl | rfl | rfl | rfl | rfl | rfl | rfl | rfl | rfl <;> simp) g hg
  have hcalm := boundary_quiet hreq hstep (.inr hcancel) fun g hg => hread g (List.mem_cons_of_mem _ hg)
  have hbank : rbank t c.val = b := rbank_congr _ (hread _ (by simp) _)
  have hdsword : dsWord u b = dsWord s b := dsWord_congr fun g hg => by
    have hne := (show ∀ g ∈ [I.dly, I.btaken, I.act, I.rot], I.arith.id ≠ g.id ∧ I.qstall.id ≠ g.id by decide) g hg
    exact hrd g _ hne.1 hne.2
  refine ⟨t, ?_, ?_, hpc.trans (hrd _ _ (by decide) (by decide)), hds.trans hdsword, htgt.trans (hrd _ _ (by decide) (by decide)), haddr,
    ?_, ?_, hact, hdly, hbr, ?_, hall, ?_⟩
  · rw [exec_arithTrap hlive hrun hat hdue, htake, hcalm]
  · rw [hcause]
    simp [b2n]
  · unfold pcOf
    rw [hbank, hto, hrd _ _ (by decide) (by decide)]
  · rw [sameCells_rd hframe I.arith b (by simp [trapCells]; decide), hzero]
  · unfold bundleOf
    rw [hrest]
    show Tbl.get _ u.bundles _ = _
    rw [hbundle, Tbl.get_drop, if_pos rfl]
  · rw [hrest, ← hu]
    rfl

/-- A supervisor core takes the exception of a due trap, marked imprecise (R130). -/
theorem arithTrap_svc (hc : 64 ≤ c.val) :
    let b := rbank s c.val
    Does (.arithTrap c) s fun t =>
      t.rd I.scr (16 * (c.val - 64) + 4) = 2 ^ 30 + n * 256 + 9 ∧ t.rd I.scr (16 * (c.val - 64) + 3) = pcOf s c.val ∧
      pcOf t c.val = (s.rd I.scr (16 * (c.val - 64) + 1) + 0x180) % 2 ^ 32 ∧ t.rd I.arith b = 0 ∧
      SameCells s t ((I.pcb, b) :: (I.arith, b) :: (I.qstall, c.val) :: exceptionCells s c.val) ∧ t.mem = s.mem := by
  intro b
  have hsvc := is_svc hc
  have hb : b = 2 * c.val := by
    show rbank s c.val = _
    unfold rbank
    rw [hsvc]
    rfl
  have hrd : ∀ g j, I.arith.id ≠ g.id → (s.wr I.arith b 0).rd g j = s.rd g j := fun g j hg => State.rd_wr_cell _ _ _ _ _ _ hg
  have htake : takeArith s c.val = svcException (s.wr I.arith b 0) c.val 9 (2 ^ 30 + n * 256 + 9) 0 := by
    unfold takeArith
    dsimp only
    rw [hsvc, hdue]
    rfl
  obtain ⟨⟨-, -, hepc, hcause, -, -, -, hto, -⟩, hframe, hrest⟩ :=
    svcException_says (s.wr I.arith b 0) c.val 9 (2 ^ 30 + n * 256 + 9) 0 hsvc (hb ▸ hflight) (by omega)
  generalize svcException (s.wr I.arith b 0) c.val 9 (2 ^ 30 + n * 256 + 9) 0 = t at *
  dsimp only at hepc hcause hto
  have hexc : exceptionCells (s.wr I.arith b 0) c.val = exceptionCells s c.val := by
    unfold exceptionCells
    rw [rbank_congr c.val (hrd _ _ (by decide))]
  rw [hexc, ← hb] at hframe
  have hall : SameCells s t ((I.pcb, b) :: (I.arith, b) :: (I.qstall, c.val) :: exceptionCells s c.val) := by
    refine SameCells.trans ((SameCells.refl s _).wr (by simp)) (hframe.mono fun p hp => ?_)
    rcases List.mem_append.mp hp with hp | hp
    · simp only [List.mem_cons, List.not_mem_nil, or_false] at hp
      rcases hp with rfl | rfl <;> simp
    · simp [hp]
  have hread : ∀ g ∈ I.bank :: boundaryCells, ∀ j, t.rd g j = s.rd g j := by
    have hne : ∀ f ∈ [I.pcb, I.arith, I.qstall, I.act, I.dly, I.btaken, I.linkV, I.scr], ∀ g ∈ I.bank :: boundaryCells, f.id ≠ g.id := by
      decide
    exact fun g hg j => sameCells_rd hall g j fun p hp => hne p.1 (by
      simp [exceptionCells] at hp ⊢
      rcases hp with rfl | rfl | rfl | rfl | rfl | rfl | rfl | rfl | rfl | rfl | rfl | rfl | rfl | rfl <;> simp) g hg
  have hcalm := boundary_quiet hreq hstep (.inl hsvc) fun g hg => hread g (List.mem_cons_of_mem _ hg)
  refine ⟨t, ?_, hcause, ?_, ?_, ?_, hall, ?_⟩
  · rw [exec_arithTrap hlive hrun hat hdue, htake, hcalm]
  · rw [hepc, ← hb, hrd _ _ (by decide)]
    rfl
  · unfold pcOf
    rw [rbank_congr c.val (hread I.bank (by simp) _), show rbank s c.val = 2 * c.val from hb, hto, hrd _ _ (by decide)]
    rfl
  · rw [sameCells_rd hframe I.arith b (by simp [exceptionCells]; decide), State.rd_wr_same]
    rfl
  · rw [hrest]
    rfl

end

end

/-! ## Interrupts of a supervisor core -/

section
variable {s : State} {n : Fin 4}

theorem svcInterrupt_none (h : bitOf (s.rd I.scr (16 * n.val)) 1 = false ∨ sicLine s n.val = false) :
    exec (.svcInterrupt n) s = .next s := by
  show execSvcInterrupt n s = _
  unfold execSvcInterrupt
  rw [if_neg]
  unfold mayInterrupt
  rcases h with h | h <;> simp [h]

/-- An interrupt is taken as an exception without a cause, at the first vector (R134, R135). -/
theorem svcInterrupt_taken (hlive : coreLive s (64 + n.val) = true) (hrun : halted s (64 + n.val) = false)
    (hat : atBoundary s (64 + n.val) = true) (hflight : inFlight s (rbank s (64 + n.val)) = [])
    (hie : bitOf (s.rd I.scr (16 * n.val)) 1 = true) (hline : sicLine s n.val = true) :
    let c := 64 + n.val
    let b := rbank s c
    let r := fun (u : State) (k : Nat) => u.rd I.scr (16 * n.val + k)
    Does (.svcInterrupt n) s fun t =>
      r t 6 = r s 0 ∧ r t 0 = clrBit (setBit (r s 0) 0) 1 ∧ r t 3 = pcOf s c ∧ r t 4 = 2 ^ 31 ∧ r t 5 = 0 ∧ r t 7 = dsWord s b ∧
      r t 8 = s.rd I.btgt b ∧ pcOf t c = r s 1 ∧ t.rd I.act b = 0 ∧ t.rd I.dly b = 0 ∧ t.rd I.btaken b = 0 ∧
      t.rd I.linkV n.val = 0 ∧ bundleOf t c = Bundle.empty ∧
      SameCells s t ((I.pcb, b) :: (I.qstall, c) :: (I.svcDiv, n.val) :: exceptionCells s c) ∧ t.mem = s.mem := by
  intro c b r
  have hsvc : isSvc c = true := is_svc (by omega)
  have hbank : ∀ x : State, rbank x c = 2 * c := by
    intro x
    unfold rbank
    rw [hsvc]
    rfl
  have hb : b = 2 * c := hbank s
  have hidx : c - 64 = n.val := Nat.add_sub_cancel_left 64 n.val
  have hrd : ∀ g j, I.svcDiv.id ≠ g.id → (s.wr I.svcDiv n.val 0).rd g j = s.rd g j := fun g j hg => State.rd_wr_cell _ _ _ _ _ _ hg
  obtain ⟨⟨hest, hst, hepc, hcause, haddr, hds, htgt, hto, hact, hdly, hbr, hlink⟩, hframe, hrest⟩ :=
    svcException_says (s.wr I.svcDiv n.val 0) c 0 (2 ^ 31) 0 hsvc (hb ▸ hflight) (by decide)
  have hexec : exec (.svcInterrupt n) s = .next (svcException (s.wr I.svcDiv n.val 0) c 0 (2 ^ 31) 0) := by
    show execSvcInterrupt n s = _
    unfold execSvcInterrupt mayInterrupt
    rw [if_pos (by simp [hlive, hrun, hat, hie, hline])]
    rfl
  generalize svcException (s.wr I.svcDiv n.val 0) c 0 (2 ^ 31) 0 = t at *
  have hdsword : dsWord (s.wr I.svcDiv n.val 0) (2 * c) = dsWord s (2 * c) :=
    dsWord_congr fun g hg => hrd g _ ((show ∀ g ∈ [I.dly, I.btaken, I.act, I.rot], I.svcDiv.id ≠ g.id by decide) g hg)
  simp only [hidx] at hest hst hepc hcause haddr hds htgt hto hlink
  refine ⟨t, hexec, ?_, ?_, ?_, hcause, haddr, ?_, ?_, ?_, ?_, ?_, ?_, hlink, ?_, ?_, ?_⟩
  · exact hest.trans (hrd _ _ (by decide))
  · refine hst.trans ?_
    rw [hrd _ _ (by decide)]
  · refine hepc.trans ((hrd _ _ (by decide)).trans ?_)
    unfold pcOf
    rw [hbank]
  · rw [hb]
    exact hds.trans hdsword
  · rw [hb]
    exact htgt.trans (hrd _ _ (by decide))
  · unfold pcOf
    rw [hbank, hto, hrd _ _ (by decide)]
    exact Nat.mod_eq_of_lt (State.rd_lt s I.scr _)
  · rw [hb]
    exact hact
  · rw [hb]
    exact hdly
  · rw [hb]
    exact hbr
  · unfold bundleOf
    rw [hrest]
    show Tbl.get _ (Tbl.drop c _) c = _
    rw [Tbl.get_drop, if_pos rfl]
  · have hexc : exceptionCells (s.wr I.svcDiv n.val 0) c = exceptionCells s c := by
      unfold exceptionCells
      rw [hbank, hbank]
    rw [hexc, ← hb] at hframe
    refine SameCells.trans ((SameCells.refl s _).wr (by simp)) (hframe.mono fun p hp => ?_)
    rcases List.mem_append.mp hp with hp | hp
    · simp only [List.mem_cons, List.not_mem_nil, or_false] at hp
      rcases hp with rfl | rfl <;> simp
    · simp [hp]
  · rw [hrest]
    rfl

end

/-! ## The SIC -/

/-- Of an ascending list, the choice of a fold is the first of those with the lowest PRIO. -/
theorem best_first (p : Nat → Nat) (l : List Nat) (b k : Nat) (hsorted : (b :: l).Pairwise (· < ·))
    (h : l.foldl (fun m k => match m with | none => some k | some j => if p k < p j then some k else some j) (some b) = some k) :
    ∀ j ∈ b :: l, p j = p k → k ≤ j := by
  induction l generalizing b with
  | nil =>
    intro j hj _
    obtain rfl : b = k := Option.some.inj h
    simp at hj
    omega
  | cons a l ih =>
    obtain ⟨-, hlow, hlowb⟩ := (best_of p (a :: l) (some b)).2 k h
    have hkb : p k ≤ p b := hlowb b rfl
    have hka : p k ≤ p a := hlow a (by simp)
    obtain ⟨hfirst, htail⟩ := List.pairwise_cons.mp hsorted
    have hab : b < a := hfirst a (by simp)
    intro j hj he
    by_cases hlt : p a < p b
    · have hrest : j ∈ a :: l := (List.mem_cons.mp hj).resolve_left fun hjb => by
        rw [hjb] at he
        omega
      rw [List.foldl_cons] at h
      dsimp only at h
      rw [if_pos hlt] at h
      exact ih a htail h j hrest he
    · have hsub : (b :: l).Pairwise (· < ·) :=
        List.pairwise_cons.mpr ⟨fun x hx => hfirst x (List.mem_cons_of_mem _ hx), (List.pairwise_cons.mp htail).2⟩
      rw [List.foldl_cons] at h
      dsimp only at h
      rw [if_neg hlt] at h
      rcases List.mem_cons.mp hj with rfl | hj
      · exact ih j hsub h j (by simp) he
      · rcases List.mem_cons.mp hj with rfl | hj
        · have hkb' := ih b hsub h b (by simp) (by omega)
          omega
        · exact ih b hsub h j (List.mem_cons_of_mem _ hj) he

section
variable {s : State} {ini : Init} {n : Fin 4}

/-- The sources that are enabled are those listed. -/
theorem mem_sicEnabled {k : Nat} (hk : k < 256) (hq : sicQualifies s n.val k = true) : k ∈ sicEnabled s := by
  have hon : s.on F.SIC_SRC_CFG_EN k = true := by
    unfold sicQualifies at hq
    simp only [Bool.and_eq_true] at hq
    obtain ⟨⟨⟨⟨⟨hon, -⟩, -⟩, -⟩, -⟩, -⟩ := hq
    exact hon
  unfold sicEnabled
  refine List.mem_filter.mpr ⟨?_, by simpa using hk⟩
  by_contra hmem
  have habsent : Tbl.get 0 (Tbl.get [] s.cells F.SIC_SRC_CFG_EN.id) k = 0 :=
    Tbl.get_absent _ _ _ fun e he hek => hmem (List.mem_map.mpr ⟨e, he, hek⟩)
  have hzero : s.rd F.SIC_SRC_CFG_EN k = 0 := congrArg (· % 2) habsent
  rw [on_of_zero hzero] at hon
  exact absurd hon (by decide)

/-- The choice of SIC_CLAIM: the qualifying source of lowest PRIO, the first listed among equals (R140). -/
theorem sicBest_says (h : sicLine s n.val = true) : ∃ k, sicBest s n.val = some k ∧ k < 256 ∧ sicQualifies s n.val k = true ∧
    (∀ j, j < 256 → sicQualifies s n.val j = true → s.rd F.SIC_SRC_CFG_PRIO k ≤ s.rd F.SIC_SRC_CFG_PRIO j) ∧
    ((s.nonzero F.SIC_SRC_CFG_EN).Pairwise (· < ·) → ∀ j, j < 256 → sicQualifies s n.val j = true →
      s.rd F.SIC_SRC_CFG_PRIO j = s.rd F.SIC_SRC_CFG_PRIO k → k ≤ j) := by
  obtain ⟨k, hbest, hq, hlow⟩ := sicBest_some h
  have hmem : k ∈ (sicEnabled s).filter (sicQualifies s n.val) := by
    have hin := (best_of (s.rd F.SIC_SRC_CFG_PRIO ·) ((sicEnabled s).filter (sicQualifies s n.val)) none).2 k hbest
    exact hin.1.resolve_left (by simp)
  have hk : k < 256 := by
    have hen := (List.mem_filter.mp hmem).1
    unfold sicEnabled at hen
    simpa using (List.mem_filter.mp hen).2
  refine ⟨k, hbest, hk, hq, fun j hj hqj => hlow j (mem_sicEnabled hj hqj) hqj, fun hsorted j hj hqj he => ?_⟩
  have hsort : ((sicEnabled s).filter (sicQualifies s n.val)).Pairwise (· < ·) := by
    unfold sicEnabled
    exact (hsorted.filter _).filter _
  have hjmem : j ∈ (sicEnabled s).filter (sicQualifies s n.val) := List.mem_filter.mpr ⟨mem_sicEnabled hj hqj, hqj⟩
  unfold sicBest at hbest
  generalize (sicEnabled s).filter (sicQualifies s n.val) = l at hsort hjmem hbest
  cases l with
  | nil => simp at hjmem
  | cons a l => exact best_first (s.rd F.SIC_SRC_CFG_PRIO ·) l a k hsort hbest j hjmem he

section
variable (hf : s.fabric = true)
include hf

theorem exec_sicClaim : exec (.sicClaim ini n) s = .next ((sicClaim s n.val).2.seen (initCode ini) (sicClaim s n.val).1) := by
  show execSicClaim ini n s = _
  unfold execSicClaim
  exact if_pos hf

theorem sicClaim_none (h : sicLine s n.val = false) : exec (.sicClaim ini n) s = .next (s.seen (initCode ini) 0) := by
  rw [exec_sicClaim hf]
  unfold sicClaim
  rw [sicBest_none h]

theorem sicClaim_some {k : Nat} (h : sicBest s n.val = some k) : exec (.sicClaim ini n) s =
    .next ((puts s [(I.sicOwn, k, n.val + 1), (F.SIC_SRC_CFG_INSVC, k, 1)]).seen (initCode ini) (2 ^ 31 + k)) := by
  rw [exec_sicClaim hf]
  unfold sicClaim
  rw [h]
  rfl

theorem exec_sicComplete (v : Word) : exec (.sicComplete ini n v) s = .next (sicComplete s n.val v.toNat) := by
  show execSicComplete ini n v s = _
  unfold execSicComplete
  exact if_pos hf

end

end

/-- Settles O34: the due trap by the kind of core, the interrupt by whether it is enabled and asserted, SIC_CLAIM by whether a
source qualifies. -/
theorem impreciseTrapsAndInterrupts : Obligations.ImpreciseTrapsAndInterrupts := by
  unfold Obligations.ImpreciseTrapsAndInterrupts
  refine ⟨fun s c => ⟨arithTrap_none, fun n hlive hrun hreq hstep hat hflight hdue hn => ⟨fun hc hcancel hin => ?_, fun hc => ?_⟩⟩,
    fun s n => ⟨svcInterrupt_none, svcInterrupt_taken⟩, fun s ini n hf => ⟨sicClaim_none hf, fun hline => ?_, fun v => ⟨fun hown => ?_, fun hown => ?_⟩⟩⟩
  · exact arithTrap_sgc hlive hrun hreq hstep hat hflight hdue hn hc hcancel hin
  · exact arithTrap_svc hlive hrun hreq hstep hat hflight hdue hn hc
  · obtain ⟨k, hbest, hk, hq, hlow, hfirst⟩ := sicBest_says hline
    exact ⟨k, hk, hq, hlow, hfirst, sicClaim_some hf hbest⟩
  · refine (exec_sicComplete hf v).trans (congrArg Host.Outcome.next ?_)
    unfold sicComplete
    rw [if_pos hown]
    rfl
  · refine (exec_sicComplete hf v).trans (congrArg Host.Outcome.next ?_)
    unfold sicComplete
    rw [if_neg hown]

end Sys2Proof.Machine
end

section
/-! PROOFS.  The registers of a task (chapter 6). -/

namespace Sys2Proof.Machine

open Safety

set_option Elab.async false

section
variable {s : State} {t : Nat}

/-- The state after the first write of a slot, and what the write then does (R183). -/
def slotOpened (s : State) (t : Nat) : State := puts s (if taskSt s t = tEMPTY then [(F.TSU_T_STAT_STATE, t, tWAIT)] else [])

theorem slotOpened_eq (s : State) (t : Nat) :
    (if taskSt s t = tEMPTY then s.wr F.TSU_T_STAT_STATE t tWAIT else s) = slotOpened s t := by
  unfold slotOpened
  split <;> rfl

theorem slotOpened_of_used (h : taskSt s t ≠ tEMPTY) : slotOpened s t = s := by
  unfold slotOpened
  rw [if_neg h]
  rfl

theorem slotOpened_not_ready (h : taskSt s t ≠ tREADY) : taskSt (slotOpened s t) t ≠ tREADY := by
  unfold slotOpened
  split
  · exact fun he => absurd ((State.rd_wr_same s F.TSU_T_STAT_STATE t tWAIT).symm.trans he) (by decide)
  · exact h

/-- A write of each of a task's registers, once its slot is in use. -/
theorem taskReg_says (s : State) (t v : Nat) :
    let u := slotOpened s t
    taskRegWrite s t 0x100 v = u.wr F.TSU_T_PC_ENTRY t (bits v 31 2) ∧ taskRegWrite s t 0x104 v = cfgWrite u t v ∧
    taskRegWrite s t 0x108 v = recheck (u.wr F.TSU_T_MASK_MASK t (bits v 15 0)) t ∧ taskRegWrite s t 0x10C v = flagsWrite u t v ∧
    taskRegWrite s t 0x110 v = ctxWrite u t v ∧ taskRegWrite s t 0x114 v = u.wr F.TSU_T_DL_DEADLINE t (bits v 19 0) ∧
    taskRegWrite s t 0x118 v = u.wr F.TSU_T_SG_SGRP t (bits v 14 0) := by
  unfold taskRegWrite
  rw [slotOpened_eq]
  exact ⟨rfl, rfl, rfl, rfl, rfl, rfl, rfl⟩

theorem bits_16 (v : Nat) : bits v 15 0 = v % 65536 := by simp [bits]

/-! ## Flags -/

/-- Flags of a task in use change, and a READY task whose condition no longer holds returns to WAIT (R185, R186). -/
theorem flags_change (new : Nat) :
    let u := s.wr F.TSU_T_FLAGS_FLAGS t new
    let back := taskSt s t = tREADY ∧ s.rd F.TSU_T_STAT_RESUME t = 0 ∧ condition u t = false
    (back → recheck u t = puts s [(F.TSU_T_FLAGS_FLAGS, t, new), (F.TSU_T_STAT_STATE, t, tWAIT), (F.TSU_T_STAT_URGENT, t, 0)]) ∧
    (¬ back → recheck u t = puts s [(F.TSU_T_FLAGS_FLAGS, t, new)]) := by
  intro u back
  have hst : taskSt u t = taskSt s t := State.rd_wr_cell _ _ _ _ _ _ (by decide)
  have hres : u.rd F.TSU_T_STAT_RESUME t = s.rd F.TSU_T_STAT_RESUME t := State.rd_wr_cell _ _ _ _ _ _ (by decide)
  refine ⟨fun ⟨hready, hresume, hcond⟩ => ?_, fun hstay => ?_⟩
  · unfold recheck
    rw [hcond, if_neg (by simp), backToWait_ready (hst.trans hready) (hres.trans hresume)]
    rfl
  · unfold recheck
    cases hcond : condition u t
    · unfold backToWait
      rw [if_neg (by simp), if_neg]
      · rfl
      · rw [hst, State.on_eq, hres]
        intro h
        simp only [Bool.and_eq_true, decide_eq_true_eq, Bool.not_eq_true', bne_eq_false_iff_eq] at h
        exact hstay ⟨h.1, h.2, hcond⟩
    · rfl

/-! ## TSU_T_CFG -/

theorem backToWait_cfg {v : Nat} : (if bitOf v 31 then s else backToWait s t) =
    puts s (if taskSt s t = tREADY ∧ s.rd F.TSU_T_STAT_RESUME t = 0 ∧ bitN v 31 = 0 then
      [(F.TSU_T_STAT_STATE, t, tWAIT), (F.TSU_T_STAT_URGENT, t, 0)] else []) := by
  rw [bitN_of]
  cases bitOf v 31
  · unfold backToWait
    by_cases h : taskSt s t = tREADY ∧ s.rd F.TSU_T_STAT_RESUME t = 0
    · obtain ⟨hready, hresume⟩ := h
      rw [if_neg (by simp), if_pos (by simp [hready, on_of_zero hresume]), if_pos ⟨hready, hresume, rfl⟩]
      rfl
    · rw [if_neg (by simp), if_neg, if_neg (fun hall => h ⟨hall.1, hall.2.1⟩)]
      · rfl
      · intro hall
        simp only [Bool.and_eq_true, decide_eq_true_eq, Bool.not_eq_true', State.on_eq, bne_eq_false_iff_eq] at hall
        exact h hall
  · rw [if_pos rfl, if_neg (fun h => absurd h.2.2 (by decide))]
    rfl

/-- The fields of TSU_T_CFG. -/
def cfgFields (t w : Nat) : List (Fld × Nat × Nat) :=
  [(F.TSU_T_CFG_EN, t, bitN w 31), (F.TSU_T_CFG_PRE, t, bitN w 30), (F.TSU_T_CFG_ALL, t, bitN w 29), (F.TSU_T_CFG_SGEN, t, bitN w 28),
    (F.TSU_T_CFG_LEVEL, t, bits w 20 16), (F.TSU_T_CFG_BLEVEL, t, bits w 12 8)] ++
  if bits w 7 0 = 0 then [] else [(F.TSU_T_CFG_AFF, t, bits w 7 0)]

/-- A READY task whose level changes goes to the tail of its new level. -/
def levelMove (s : State) (t w : Nat) : List (Fld × Nat × Nat) :=
  if taskSt s t = tREADY ∧ s.rd I.tLvl t ≠ bits w 20 16 then
    [(I.tLvl, t, bits w 20 16), (I.tPos, t, s.rd I.ordTail), (I.ordTail, 0, s.rd I.ordTail + 1)] else []

/-- A READY task of a new job that is disabled returns to WAIT. -/
def disabled (s : State) (t w : Nat) : List (Fld × Nat × Nat) :=
  if taskSt s t = tREADY ∧ s.rd F.TSU_T_STAT_RESUME t = 0 ∧ bitN w 31 = 0 then
    [(F.TSU_T_STAT_STATE, t, tWAIT), (F.TSU_T_STAT_URGENT, t, 0)] else []

theorem cfgFields_fields (t w : Nat) : ∀ p ∈ cfgFields t w, p.2.1 = t ∧ p.1 ∈ [F.TSU_T_CFG_EN, F.TSU_T_CFG_PRE, F.TSU_T_CFG_ALL,
    F.TSU_T_CFG_SGEN, F.TSU_T_CFG_LEVEL, F.TSU_T_CFG_BLEVEL, F.TSU_T_CFG_AFF] := by
  unfold cfgFields
  split <;> simp

theorem levelMove_fields (s : State) (t w : Nat) : ∀ p ∈ levelMove s t w, (p.1, p.2.1) ∈ [(I.tLvl, t), (I.tPos, t), (I.ordTail, 0)] := by
  unfold levelMove
  split <;> simp

/-- A write of TSU_T_CFG of a task without a reservation (R206, R207). -/
theorem cfgWrite_puts (hresv : s.rd I.tResv t = 0) (w : Nat) :
    cfgWrite s t w = puts s (cfgFields t w ++ levelMove s t w ++ disabled s t w) := by
  have hkeep : ∀ g, g.id ∉ [F.TSU_T_CFG_EN.id, F.TSU_T_CFG_PRE.id, F.TSU_T_CFG_ALL.id, F.TSU_T_CFG_SGEN.id, F.TSU_T_CFG_LEVEL.id,
      F.TSU_T_CFG_BLEVEL.id, F.TSU_T_CFG_AFF.id] → ∀ j, (puts s (cfgFields t w)).rd g j = s.rd g j := by
    intro g hg j
    refine puts_cell _ _ _ _ fun p hp he => hg ?_
    rw [← he]
    exact List.mem_map_of_mem (f := Fld.id) (cfgFields_fields t w p hp).2
  have hmove : ∀ g, g.id ∉ [I.tLvl.id, I.tPos.id, I.ordTail.id] → ∀ j,
      (puts (puts s (cfgFields t w)) (levelMove s t w)).rd g j = (puts s (cfgFields t w)).rd g j := by
    intro g hg j
    refine puts_cell _ _ _ _ fun p hp he => hg ?_
    rw [← he]
    have hmem := List.mem_map_of_mem (f := fun q : Fld × Nat => q.1.id) (levelMove_fields s t w p hp)
    exact hmem
  rw [puts_append, puts_append]
  generalize hu : puts s (cfgFields t w) = u at *
  have hst : taskSt u t = taskSt s t := hkeep _ (by decide) _
  have hfold : (let a := ((((((s.wr F.TSU_T_CFG_EN t (bitN w 31)).wr F.TSU_T_CFG_PRE t (bitN w 30)).wr F.TSU_T_CFG_ALL t (bitN w 29)).wr
      F.TSU_T_CFG_SGEN t (bitN w 28)).wr F.TSU_T_CFG_LEVEL t (bits w 20 16)).wr F.TSU_T_CFG_BLEVEL t (bits w 12 8))
      if bits w 7 0 = 0 then a else a.wr F.TSU_T_CFG_AFF t (bits w 7 0)) = u := by
    rw [← hu]
    unfold cfgFields
    split <;> rfl
  have hmoved : (if (taskSt s t == tREADY && s.rd I.tLvl t != bits w 20 16) = true then placeTail (u.wr I.tLvl t (bits w 20 16)) I.tPos t
      else u) = puts u (levelMove s t w) := by
    unfold levelMove placeTail
    by_cases h : taskSt s t = tREADY ∧ s.rd I.tLvl t ≠ bits w 20 16
    · rw [if_pos (by simpa using h), if_pos h]
      simp (disch := decide) only [State.set_eq_wr, State.rd_wr_cell, hkeep I.ordTail (by decide)]
      rfl
    · rw [if_neg (by simpa using h), if_neg h]
      rfl
  unfold cfgWrite
  dsimp only at hfold ⊢
  rw [hfold, hmoved]
  generalize hv : puts u (levelMove s t w) = v at *
  have hon : v.on I.tResv t = false := on_of_zero ((hmove _ (by decide) _).trans ((hkeep _ (by decide) _).trans hresv))
  simp only [hon, Bool.false_and, Bool.false_eq_true, if_false]
  rw [backToWait_cfg]
  unfold disabled taskSt
  rw [hmove _ (by decide), hmove _ (by decide), hkeep _ (by decide), hkeep _ (by decide)]

/-- All the writes that a write of TSU_T_CFG can make. -/
def cfgAll (s : State) (t w : Nat) : List (Fld × Nat × Nat) :=
  [(F.TSU_T_CFG_EN, t, bitN w 31), (F.TSU_T_CFG_PRE, t, bitN w 30), (F.TSU_T_CFG_ALL, t, bitN w 29), (F.TSU_T_CFG_SGEN, t, bitN w 28),
    (F.TSU_T_CFG_LEVEL, t, bits w 20 16), (F.TSU_T_CFG_BLEVEL, t, bits w 12 8)] ++ [(F.TSU_T_CFG_AFF, t, bits w 7 0)] ++
    [(I.tLvl, t, bits w 20 16), (I.tPos, t, s.rd I.ordTail), (I.ordTail, 0, s.rd I.ordTail + 1)] ++
    [(F.TSU_T_STAT_STATE, t, tWAIT), (F.TSU_T_STAT_URGENT, t, 0)]

theorem levelMove_sublist (s : State) (t w : Nat) : (levelMove s t w).Sublist
    [(I.tLvl, t, bits w 20 16), (I.tPos, t, s.rd I.ordTail), (I.ordTail, 0, s.rd I.ordTail + 1)] := by
  unfold levelMove
  split <;> simp

theorem disabled_sublist (s : State) (t w : Nat) : (disabled s t w).Sublist
    [(F.TSU_T_STAT_STATE, t, tWAIT), (F.TSU_T_STAT_URGENT, t, 0)] := by
  unfold disabled
  split <;> simp

theorem cfg_sublist (s : State) (t w : Nat) : (cfgFields t w ++ levelMove s t w ++ disabled s t w).Sublist (cfgAll s t w) := by
  refine ((List.Sublist.append (List.Sublist.refl _) ?_).append (levelMove_sublist s t w)).append (disabled_sublist s t w)
  split <;> simp

/-- The writes have different cells. -/
theorem cfg_distinct (s : State) (t w : Nat) : (cfgFields t w ++ levelMove s t w ++ disabled s t w).Pairwise
    fun p q => p.1.id ≠ q.1.id ∨ p.2.1 ≠ q.2.1 := by
  refine List.Pairwise.sublist (cfg_sublist s t w) ((List.pairwise_map.mp ?_).imp fun h => Or.inl h)
  show [F.TSU_T_CFG_EN.id, F.TSU_T_CFG_PRE.id, F.TSU_T_CFG_ALL.id, F.TSU_T_CFG_SGEN.id, F.TSU_T_CFG_LEVEL.id, F.TSU_T_CFG_BLEVEL.id,
    F.TSU_T_CFG_AFF.id, I.tLvl.id, I.tPos.id, I.ordTail.id, F.TSU_T_STAT_STATE.id, F.TSU_T_STAT_URGENT.id].Pairwise (· ≠ ·)
  decide

/-- What a write of TSU_T_CFG leaves (R206, R207). -/
theorem cfg_says (s : State) (t w : Nat) :
    let u := puts s (cfgFields t w ++ levelMove s t w ++ disabled s t w)
    let out := taskSt s t = tREADY ∧ s.rd F.TSU_T_STAT_RESUME t = 0 ∧ bitN w 31 = 0
    let moved := taskSt s t = tREADY ∧ s.rd I.tLvl t ≠ bits w 20 16
    u.rd F.TSU_T_CFG_EN t = bitN w 31 ∧ u.rd F.TSU_T_CFG_PRE t = bitN w 30 ∧ u.rd F.TSU_T_CFG_ALL t = bitN w 29 ∧
    u.rd F.TSU_T_CFG_SGEN t = bitN w 28 ∧ u.rd F.TSU_T_CFG_LEVEL t = bits w 20 16 ∧ u.rd F.TSU_T_CFG_BLEVEL t = bits w 12 8 ∧
    u.rd F.TSU_T_CFG_AFF t = (if bits w 7 0 = 0 then s.rd F.TSU_T_CFG_AFF t else bits w 7 0) ∧
    (out → taskSt u t = tWAIT) ∧ (¬ out → taskSt u t = taskSt s t) ∧
    (moved → u.rd I.tLvl t = bits w 20 16 ∧ u.rd I.tPos t = s.rd I.ordTail % 2 ^ I.tPos.w) ∧
    OnlyCells s u [(F.TSU_T_CFG_EN, t), (F.TSU_T_CFG_PRE, t), (F.TSU_T_CFG_ALL, t), (F.TSU_T_CFG_SGEN, t), (F.TSU_T_CFG_LEVEL, t),
      (F.TSU_T_CFG_BLEVEL, t), (F.TSU_T_CFG_AFF, t), (I.tLvl, t), (I.tPos, t), (I.ordTail, 0), (F.TSU_T_STAT_STATE, t),
      (F.TSU_T_STAT_URGENT, t)] := by
  intro u out moved
  have hval : ∀ f i v, (f, i, v) ∈ cfgFields t w ++ levelMove s t w ++ disabled s t w → u.rd f i = v % 2 ^ f.w :=
    fun f i v hm => puts_rd_of_mem (cfg_distinct s t w) hm
  have hfield : ∀ f i v, (f, i, v) ∈ cfgFields t w → u.rd f i = v % 2 ^ f.w :=
    fun f i v hm => hval f i v (List.mem_append_left _ (List.mem_append_left _ hm))
  have hbit : ∀ k, bitN w k % 2 ^ 1 = bitN w k := fun k => Nat.mod_eq_of_lt (bitN_lt w k)
  refine ⟨(hfield _ t (bitN w 31) ?_).trans (hbit 31), (hfield _ t (bitN w 30) ?_).trans (hbit 30), (hfield _ t (bitN w 29) ?_).trans (hbit 29),
    (hfield _ t (bitN w 28) ?_).trans (hbit 28), (hfield _ t (bits w 20 16) ?_).trans (Nat.mod_eq_of_lt (bits_lt w 20 16)),
    (hfield _ t (bits w 12 8) ?_).trans (Nat.mod_eq_of_lt (bits_lt w 12 8)), ?_, fun hout => ?_, fun hout => ?_, fun hmoved => ⟨?_, ?_⟩, ?_⟩
  iterate 6 simp [cfgFields]
  · by_cases haff : bits w 7 0 = 0
    · rw [if_pos haff]
      refine puts_cell _ _ _ _ fun p hp => ?_
      have hmem : p.1 ∈ [F.TSU_T_CFG_EN, F.TSU_T_CFG_PRE, F.TSU_T_CFG_ALL, F.TSU_T_CFG_SGEN, F.TSU_T_CFG_LEVEL, F.TSU_T_CFG_BLEVEL,
          I.tLvl, I.tPos, I.ordTail, F.TSU_T_STAT_STATE, F.TSU_T_STAT_URGENT] := by
        unfold cfgFields at hp
        rw [if_pos haff] at hp
        have hall := ((List.Sublist.refl _).append ((levelMove_sublist s t w).append (disabled_sublist s t w))).subset
          (by simpa only [List.append_assoc, List.append_nil] using hp)
        simp only [List.cons_append, List.nil_append, List.mem_cons, List.not_mem_nil, or_false] at hall
        rcases hall with rfl | rfl | rfl | rfl | rfl | rfl | rfl | rfl | rfl | rfl | rfl <;> simp
      exact (show ∀ f ∈ [F.TSU_T_CFG_EN, F.TSU_T_CFG_PRE, F.TSU_T_CFG_ALL, F.TSU_T_CFG_SGEN, F.TSU_T_CFG_LEVEL, F.TSU_T_CFG_BLEVEL,
        I.tLvl, I.tPos, I.ordTail, F.TSU_T_STAT_STATE, F.TSU_T_STAT_URGENT], f.id ≠ F.TSU_T_CFG_AFF.id by decide) _ hmem
    · rw [if_neg haff]
      exact (hfield _ t (bits w 7 0) (by simp [cfgFields, haff])).trans (Nat.mod_eq_of_lt (bits_lt w 7 0))
  · exact hval F.TSU_T_STAT_STATE t tWAIT (List.mem_append_right _ (by unfold disabled; rw [if_pos hout]; simp))
  · refine puts_cell s _ F.TSU_T_STAT_STATE t fun p hp => ?_
    rw [disabled, if_neg hout, List.append_nil] at hp
    rcases List.mem_append.mp hp with hp | hp
    · exact (show ∀ f ∈ [F.TSU_T_CFG_EN, F.TSU_T_CFG_PRE, F.TSU_T_CFG_ALL, F.TSU_T_CFG_SGEN, F.TSU_T_CFG_LEVEL, F.TSU_T_CFG_BLEVEL,
        F.TSU_T_CFG_AFF], f.id ≠ F.TSU_T_STAT_STATE.id by decide) _ (cfgFields_fields t w p hp).2
    · exact (show ∀ f ∈ [I.tLvl, I.tPos, I.ordTail], f.id ≠ F.TSU_T_STAT_STATE.id by decide) _
        (List.mem_map_of_mem (f := Prod.fst) (levelMove_fields s t w p hp))
  · refine (hval I.tLvl t (bits w 20 16) ?_).trans (Nat.mod_eq_of_lt (bits_lt w 20 16))
    exact List.mem_append_left _ (List.mem_append_right _ (by unfold levelMove; rw [if_pos hmoved]; simp))
  · exact hval I.tPos t (s.rd I.ordTail) (List.mem_append_left _ (List.mem_append_right _ (by unfold levelMove; rw [if_pos hmoved]; simp)))
  · refine (OnlyCells.puts s _).mono fun p hp => ?_
    have hmem := ((cfg_sublist s t w).map fun p => (p.1, p.2.1)).subset hp
    exact hmem

/-! ## CANCEL and FREE -/

theorem loseResv_none (h : s.rd I.tResv t = 0) : loseResv s t = s := by
  unfold loseResv
  rw [on_of_zero h]
  rfl

/-- CANCEL of a waiting task ends nothing but its flags and its enable. -/
theorem cancelJob_waiting (hwait : taskSt s t = tWAIT) (hcancel : s.rd I.jCancel t = 0) : cancelJob s t = s := by
  have hjob : jobInProgress s t = false := by
    unfold jobInProgress
    rw [hwait, on_of_zero hcancel]
    rfl
  unfold cancelJob
  rw [hwait, if_neg (by decide), if_neg (by decide), hjob]
  exact backToWait_other (by rw [hwait]; decide)

/-- The writes that CANCEL of a waiting task makes. -/
def cancelPuts (t : Nat) : List (Fld × Nat × Nat) :=
  [(F.TSU_T_FLAGS_FLAGS, t, 0), (F.TSU_T_CFG_EN, t, 0), (F.TSU_T_CMD_REFUSED, t, 0)]

/-- CANCEL of a waiting task: a race that it wins is counted first (R26, R208, R211). -/
theorem cancelTask_waiting (htrace : s.rd F.TSU_TRCCFG_EN = 0) (hwait : taskSt s t = tWAIT) (hcancel : s.rd I.jCancel t = 0)
    (hresv : s.rd I.tResv t = 0) (race : Bool) :
    let won := race = true ∧ s.rd F.TSU_T_CFG_EN t = 1 ∧ condition s t = true
    (¬ won → cancelTask s t race = puts s (cancelPuts t)) ∧
    (won → s.rd F.TSU_RACECNT_COUNT + 2 < 2 ^ 32 → cancelTask s t race =
      puts s ([(F.TSU_RACECNT_COUNT, 0, s.rd F.TSU_RACECNT_COUNT + 1), (F.TSU_IRQSTAT_RACE, 0, 1)] ++ cancelPuts t)) := by
  intro won
  have hwon : (race && taskSt s t == tWAIT && s.on F.TSU_T_CFG_EN t && condition s t) = decide won := by
    rw [hwait, on_flag s t (f := F.TSU_T_CFG_EN) rfl]
    rw [Bool.eq_iff_iff]
    simp [won, and_assoc]
  have hrest : ∀ u : State, (∀ g ∈ [F.TSU_TRCCFG_EN, I.jCancel, I.tResv, F.TSU_T_STAT_STATE], ∀ j, u.rd g j = s.rd g j) → ∀ k aux,
      (let v := trace u evCANCEL t k aux
       let v := ((v.wr F.TSU_T_FLAGS_FLAGS t 0).wr F.TSU_T_CFG_EN t 0).wr F.TSU_T_CMD_REFUSED t 0
       cancelJob (loseResv v t) t) = puts u (cancelPuts t) := by
    intro u hu k aux
    dsimp only
    rw [trace_silent _ _ _ _ _ ((hu _ (by simp) _).trans htrace)]
    have hkeep : ∀ g ∈ [I.jCancel, I.tResv, F.TSU_T_STAT_STATE], (puts u (cancelPuts t)).rd g t = s.rd g t := by
      intro g hg
      refine (puts_cell _ _ _ _ fun p hp => ?_).trans (hu g (List.mem_cons_of_mem _ hg) t)
      have hne := (show ∀ g ∈ [I.jCancel, I.tResv, F.TSU_T_STAT_STATE], ∀ f ∈ [F.TSU_T_FLAGS_FLAGS, F.TSU_T_CFG_EN, F.TSU_T_CMD_REFUSED],
        f.id ≠ g.id by decide) g hg
      exact hne _ (List.mem_map_of_mem (f := Prod.fst) hp)
    show cancelJob (loseResv (puts u (cancelPuts t)) t) t = _
    rw [loseResv_none ((hkeep _ (by simp)).trans hresv), cancelJob_waiting ((hkeep _ (by simp)).trans hwait) ((hkeep _ (by simp)).trans hcancel)]
  have hin : (decide (taskSt s t = tEMPTY) || s.on I.jCancel t) = false := by
    rw [hwait, on_of_zero hcancel]
    rfl
  unfold cancelTask
  rw [hin, hwon]
  refine ⟨fun hn => ?_, fun hw hcnt => ?_⟩
  · dsimp only
    rw [if_neg (by simp), decide_eq_false hn, if_neg (by simp)]
    exact hrest s (fun _ _ _ => rfl) _ _
  · have hcount : (tsuCount s F.TSU_RACECNT_COUNT).set F.TSU_IRQSTAT_RACE 1 =
        puts s [(F.TSU_RACECNT_COUNT, 0, s.rd F.TSU_RACECNT_COUNT + 1), (F.TSU_IRQSTAT_RACE, 0, 1)] := by
      unfold tsuCount State.bump
      dsimp only
      rw [if_pos (show s.rd F.TSU_RACECNT_COUNT + 1 < 2 ^ F.TSU_RACECNT_COUNT.w from Nat.lt_of_succ_lt hcnt),
        if_neg (show s.rd F.TSU_RACECNT_COUNT + 2 ≠ 2 ^ F.TSU_RACECNT_COUNT.w from Nat.ne_of_lt hcnt)]
      rfl
    dsimp only
    rw [if_neg (by simp), decide_eq_true hw, if_pos rfl, hcount, puts_append]
    refine hrest _ (fun g hg j => puts_cell _ _ _ _ fun p hp => ?_) _ _
    have hne := (show ∀ g ∈ [F.TSU_TRCCFG_EN, I.jCancel, I.tResv, F.TSU_T_STAT_STATE], ∀ f ∈ [F.TSU_RACECNT_COUNT, F.TSU_IRQSTAT_RACE],
      f.id ≠ g.id by decide) g hg
    exact hne _ (List.mem_map_of_mem (f := Prod.fst) hp)

/-- FREE empties a disabled waiting slot (R209). -/
theorem emptySlot_says (s : State) (t : Nat) :
    let u := emptySlot s t
    taskSt u t = tEMPTY ∧ u.rd F.TSU_T_FLAGS_FLAGS t = 0 ∧ u.rd F.TSU_T_MASK_MASK t = 0 ∧ u.rd F.TSU_T_CTX_CV t = 0 ∧
      u.rd F.TSU_T_CFG_EN t = 0 ∧ SameButCells s u ∧ ∀ g j, j ≠ t → u.rd g j = s.rd g j := by
  intro u
  have hu : u = puts s ([F.TSU_T_PC_ENTRY, F.TSU_T_CFG_EN, F.TSU_T_CFG_PRE, F.TSU_T_CFG_ALL, F.TSU_T_CFG_SGEN,
    F.TSU_T_CFG_LEVEL, F.TSU_T_CFG_BLEVEL, F.TSU_T_CFG_AFF, F.TSU_T_MASK_MASK, F.TSU_T_FLAGS_FLAGS,
    F.TSU_T_CTX_CV, F.TSU_T_CTX_CID, F.TSU_T_CTX_PSET, F.TSU_T_DL_DEADLINE, F.TSU_T_SG_SGRP,
    F.TSU_T_STAT_JSEQ, F.TSU_T_STAT_CVALID, F.TSU_T_STAT_RESV, F.TSU_T_STAT_CORE, F.TSU_T_STAT_URGENT,
    F.TSU_T_STAT_RESUME, F.TSU_T_STAT_STATE, F.TSU_T_ABSDL_ABSDL, F.TSU_T_CMD_REFUSED,
    F.TSU_T_CMD_CANCEL, I.tResv].map fun f => (f, t, f.resetAt t)) := rfl
  have hval : ∀ f ∈ [F.TSU_T_STAT_STATE, F.TSU_T_FLAGS_FLAGS, F.TSU_T_MASK_MASK, F.TSU_T_CTX_CV, F.TSU_T_CFG_EN],
      u.rd f t = f.resetAt t % 2 ^ f.w := by
    intro f hf
    rw [hu]
    refine puts_rd_of_mem ?_ (List.mem_map_of_mem ?_)
    · rw [List.pairwise_map]
      refine List.Pairwise.imp (R := fun a b : Fld => a.id ≠ b.id) (fun h => Or.inl h) ?_
      decide
    · simp only [List.mem_cons, List.not_mem_nil, or_false] at hf ⊢
      tauto
  refine ⟨hval _ (by simp), hval _ (by simp), hval _ (by simp), hval _ (by simp), hval _ (by simp), ?_, fun g j hj => ?_⟩
  · rw [hu]
    exact SameButCells.puts s _
  · rw [hu]
    refine (OnlyCells.puts s _).2 g j fun p hp _ => ?_
    obtain ⟨q, hq, rfl⟩ := List.mem_map.mp hp
    obtain ⟨f, -, rfl⟩ := List.mem_map.mp hq
    exact Ne.symm hj

end

/-! ## The commands -/

theorem taskCmd_free (s : State) (t : Nat) : taskWinWrite s t 0x124 2 = freeTask s t := rfl

section
variable {s : State} {ini : Init} {k : Nat} (hf : s.fabric = true) (hk : selCopy ini = some k)
include hf hk

/-- A write through the window of the slot that the writer has selected. -/
theorem window_write (off v : Nat) : tsuWinWrite s ini off v = taskWinWrite s (s.rd F.TSU_SELECT_INDEX k) off v :=
  winWrite_at s ini k _ off v hf hk rfl (State.rd_lt s F.TSU_SELECT_INDEX k)

theorem window_reg (off v : Nat) (h : off ≠ 0x124) : tsuWinWrite s ini off v = taskRegWrite s (s.rd F.TSU_SELECT_INDEX k) off v := by
  rw [window_write hf hk]
  unfold taskWinWrite
  rw [if_neg h]

omit hk in
theorem exec_tsuSignal (v : Word) : exec (.tsuSignalWrite ini v) s = .next (signalWrite s v.toNat) := by
  show execTsuSignalWrite ini v s = _
  unfold execTsuSignalWrite
  exact if_pos hf

theorem exec_cancel (race : Bool) : exec (.cancel ini race) s = .next (cancelTask s (s.rd F.TSU_SELECT_INDEX k) race) := by
  have hsel : selIx s ini F.TSU_SELECT_INDEX 65536 = some (s.rd F.TSU_SELECT_INDEX k) := by
    unfold selIx
    rw [hk]
    exact if_pos (State.rd_lt s F.TSU_SELECT_INDEX k)
  show execCancel ini race s = _
  unfold execCancel
  rw [hsel]
  exact if_pos hf

/-- A write of TSU_T_FLAGS of a task in use. -/
theorem flags_write (hused : taskSt s (s.rd F.TSU_SELECT_INDEX k) ≠ tEMPTY) (v : Nat) :
    let t := s.rd F.TSU_SELECT_INDEX k
    let f := s.rd F.TSU_T_FLAGS_FLAGS t
    tsuWinWrite s ini 0x10C v = recheck (s.wr F.TSU_T_FLAGS_FLAGS t (Nat.lor (f - Nat.land f (bits v 31 16)) (bits v 15 0))) t := by
  intro t f
  rw [window_reg hf hk _ _ (by decide)]
  obtain ⟨-, -, -, hflags, -⟩ := taskReg_says s t v
  rw [hflags, slotOpened_of_used hused]
  rfl

end

/-- Settles O35: each register by what a write of it through the window does; CANCEL and FREE by the state of the slot. -/
theorem taskRegistersFollowTheirRules : Obligations.TaskRegistersFollowTheirRules := by
  unfold Obligations.TaskRegistersFollowTheirRules
  intro s ini k hf hk htrace t first f flags
  have hopen : slotOpened s t = puts s first := rfl
  have hsays := taskReg_says s t
  dsimp only at hsays
  rw [hopen] at hsays
  have hreg : ∀ off v, off ≠ 0x124 → exec (.taskSlotFirstWrite ini off v) s = .next (taskRegWrite s t off.toNat v.toNat) :=
    fun off v hoff => congrArg Host.Outcome.next (window_reg hf hk _ _ fun he => hoff (BitVec.eq_of_toNat_eq he))
  refine ⟨fun v => ⟨?_, fun hst => ?_, fun hpop => ?_, ?_, ?_, ⟨fun hempty => ?_, fun hused => ?_⟩, fun hused hresv => ?_⟩,
    fun fl => ⟨fun hused => ?_, fun hused => ?_⟩, fun hwait hcancel hresv race => ?_, fun hcancel hresv => ⟨fun hen hwait => ?_, fun hrefused => ?_⟩⟩
  · refine (hreg 0x100 v (by decide)).trans (congrArg Host.Outcome.next ?_)
    have hpc : bits v.toNat 31 2 = v.toNat / 4 := Nat.mod_eq_of_lt (by have := v.isLt; omega)
    obtain ⟨hreg, -⟩ := hsays v.toNat
    rw [show (0x100 : BitVec 12).toNat = 0x100 from rfl, hreg, puts_append, hpc]
    rfl
  · refine (hreg 0x108 v (by decide)).trans (congrArg Host.Outcome.next ?_)
    obtain ⟨-, -, hreg, -⟩ := hsays v.toNat
    rw [show (0x108 : BitVec 12).toNat = 0x108 from rfl, hreg, bits_16, recheck_other, puts_append]
    · rfl
    · unfold taskSt
      rw [State.rd_wr_cell _ _ _ _ _ _ (by decide), ← hopen]
      exact slotOpened_not_ready hst
  · refine (hreg 0x110 v (by decide)).trans (congrArg Host.Outcome.next ?_)
    obtain ⟨-, -, -, -, hreg, -⟩ := hsays v.toNat
    rw [show (0x110 : BitVec 12).toNat = 0x110 from rfl, hreg]
    unfold ctxWrite
    rw [bits_16, if_pos hpop, puts_append]
    rfl
  · refine (hreg 0x114 v (by decide)).trans (congrArg Host.Outcome.next ?_)
    obtain ⟨-, -, -, -, -, hreg, -⟩ := hsays v.toNat
    rw [show (0x114 : BitVec 12).toNat = 0x114 from rfl, hreg, puts_append]
    rfl
  · refine (hreg 0x118 v (by decide)).trans (congrArg Host.Outcome.next ?_)
    obtain ⟨-, -, -, -, -, -, hreg⟩ := hsays v.toNat
    rw [show (0x118 : BitVec 12).toNat = 0x118 from rfl, hreg, puts_append]
    rfl
  · refine (exec_tsuSignal hf v).trans (congrArg Host.Outcome.next ?_)
    unfold signalWrite setFlags
    rw [if_pos hempty]
  · refine (exec_tsuSignal hf v).trans (congrArg Host.Outcome.next ?_)
    have hhigh : bits v.toNat 31 16 = v.toNat / 65536 := Nat.mod_eq_of_lt (by have := v.isLt; omega)
    unfold signalWrite setFlags
    rw [if_neg hused, hhigh]
    rfl
  · refine ⟨_, congrArg Host.Outcome.next ((window_reg hf hk 0x104 v.toNat (by decide)).trans ?_), cfg_says s t v.toNat⟩
    obtain ⟨-, hreg, -⟩ := taskReg_says s t v.toNat
    rw [hreg, slotOpened_of_used hused, cfgWrite_puts hresv]
  · have hlow : bits fl.toNat 15 0 = fl.toNat := (bits_16 _).trans (Nat.mod_eq_of_lt fl.isLt)
    have hhigh : bits fl.toNat 31 16 = 0 := by
      unfold bits
      rw [Nat.div_eq_of_lt fl.isLt]
      rfl
    have hexec : exec (.taskFlagsSet ini fl) s = .next (recheck (s.wr F.TSU_T_FLAGS_FLAGS t (Nat.lor f fl.toNat)) t) := by
      refine congrArg Host.Outcome.next ((flags_write hf hk hused fl.toNat).trans ?_)
      rw [hlow, hhigh, show Nat.land (s.rd F.TSU_T_FLAGS_FLAGS (s.rd F.TSU_SELECT_INDEX k)) 0 = 0 from Nat.and_zero _]
      rfl
    obtain ⟨hback, hstay⟩ := flags_change (s := s) (t := t) (Nat.lor f fl.toNat)
    exact ⟨fun h => hexec.trans (congrArg _ (hback h)), fun h => hexec.trans (congrArg _ (hstay h))⟩
  · have hlow : bits (fl.toNat * 65536) 15 0 = 0 := (bits_16 _).trans (Nat.mul_mod_left _ _)
    have hhigh : bits (fl.toNat * 65536) 31 16 = fl.toNat := by
      unfold bits
      rw [show fl.toNat * 65536 / 2 ^ 16 = fl.toNat from Nat.mul_div_cancel _ (by decide)]
      exact Nat.mod_eq_of_lt fl.isLt
    have hexec : exec (.taskFlagsClr ini fl) s = .next (recheck (s.wr F.TSU_T_FLAGS_FLAGS t (f - Nat.land f fl.toNat)) t) := by
      refine congrArg Host.Outcome.next ((flags_write hf hk hused (fl.toNat * 65536)).trans ?_)
      rw [hlow, hhigh, show ∀ x : Nat, Nat.lor x 0 = x from Nat.or_zero]
    obtain ⟨hback, hstay⟩ := flags_change (s := s) (t := t) (f - Nat.land f fl.toNat)
    exact ⟨fun h => hexec.trans (congrArg _ (hback h)), fun h => hexec.trans (congrArg _ (hstay h))⟩
  · obtain ⟨hlost, hwon⟩ := cancelTask_waiting htrace hwait hcancel hresv race
    have hexec : exec (.cancel ini race) s = .next (cancelTask s t race) := exec_cancel hf hk race
    exact ⟨fun hn => hexec.trans (congrArg _ (hlost hn)), fun hw hcnt => hexec.trans (congrArg _ (hwon hw hcnt))⟩
  · refine ⟨emptySlot s t, ?_, emptySlot_says s t⟩
    refine congrArg Host.Outcome.next ((window_write hf hk 0x124 2).trans ((taskCmd_free _ _).trans ?_))
    unfold freeTask
    rw [if_pos, loseResv_none hresv]
    rw [on_of_zero hen, hwait, on_of_zero hcancel]
    rfl
  · refine congrArg Host.Outcome.next ((window_write hf hk 0x124 2).trans ((taskCmd_free _ _).trans ?_))
    unfold freeTask
    rw [if_neg]
    · rfl
    · intro hall
      simp only [Bool.and_eq_true, Bool.or_eq_true, beq_iff_eq, Bool.not_eq_true'] at hall
      obtain ⟨⟨hoff, hst⟩, -⟩ := hall
      rcases hrefused with hen | ⟨hnw, hne⟩
      · rw [on_of_one hen] at hoff
        exact absurd hoff (by decide)
      · exact hst.elim hnw hne

end Sys2Proof.Machine
end

section
/-! PROOFS.  The way of a task to its job and back (chapter 6). -/

namespace Sys2Proof.Machine

open Safety

set_option Elab.async false

/-! ## No running job is pre-empted -/

/-- Scheduling is off, or an idle core of the task's affinity makes pre-emption needless. -/
def NoVictim (s : State) (t : Nat) : Prop := s.rd F.TSU_CTRL_RUN = 0 ∨ (affinity s t).any (coreIdle s) = true

/-- The cells that decide whether a task would pre-empt. -/
def victimCells : List Fld := [F.TSU_CTRL_RUN, F.TSU_COREEN_LO_EN, F.TSU_COREEN_HI_EN, F.TSU_T_CFG_AFF, I.cJob, I.waiting, I.cNext,
  I.swPend, F.MLS_DBG_HALTED_LO_CORES, F.MLS_DBG_HALTED_HI_CORES, F.MLS_DBG_HALTED_SVC_CORES]

theorem preemptChoose_none {s u : State} {t : Nat} (h : NoVictim s t) (hu : ∀ g ∈ victimCells, ∀ j, u.rd g j = s.rd g j) :
    preemptChoose u t = u := by
  rcases h with hrun | hidle
  · exact preemptChoose_off u t ((hu _ (by simp [victimCells]) _).trans hrun)
  · have hidle' : (affinity u t).any (coreIdle u) = true := by
      have haff : affinity u t = affinity s t := by
        unfold affinity coreOn
        rw [hu F.TSU_COREEN_LO_EN (by simp [victimCells]), hu F.TSU_COREEN_HI_EN (by simp [victimCells]),
          hu F.TSU_T_CFG_AFF (by simp [victimCells])]
      have hcore : coreIdle u = coreIdle s := by
        funext c
        unfold coreIdle inWaitjob halted State.on
        rw [hu I.cJob (by simp [victimCells]), hu I.waiting (by simp [victimCells]), hu I.cNext (by simp [victimCells]),
          hu I.swPend (by simp [victimCells]), coreBit_congr (s := s) _ _ _ c (hu F.MLS_DBG_HALTED_LO_CORES (by simp [victimCells]) 0)
            (hu F.MLS_DBG_HALTED_HI_CORES (by simp [victimCells]) 0) (hu F.MLS_DBG_HALTED_SVC_CORES (by simp [victimCells]) 0)]
      rw [haff, hcore, hidle]
    unfold preemptChoose
    rw [hidle', if_neg (by simp)]

theorem preemptChoose_puts {s : State} {t : Nat} (h : NoVictim s t) (l : List (Fld × Nat × Nat))
    (hl : ∀ p ∈ l, ∀ g ∈ victimCells, p.1.id ≠ g.id) : preemptChoose (puts s l) t = puts s l :=
  preemptChoose_none h fun g hg _ => puts_cell _ _ _ _ fun p hp => hl p hp g hg

section
variable {s : State} {n : Nat} (htrace : s.rd F.TSU_TRCCFG_EN = 0)

/-! ## Readiness, promotion, the return from a page fault -/

include htrace in
/-- A task that becomes READY goes to the tail of its level (R186). -/
theorem enterReady_puts (h : NoVictim s n) : enterReady s n =
    puts s [(F.TSU_T_STAT_STATE, n, tREADY), (F.TSU_T_STAT_RESUME, n, 0), (F.TSU_T_STAT_URGENT, n, 0),
      (I.tLvl, n, s.rd F.TSU_T_CFG_LEVEL n), (I.tSince, n, s.rd I.ordTail), (I.tPos, n, s.rd I.ordTail), (I.ordTail, 0, s.rd I.ordTail + 1),
      (I.jHasDl, n, b2n (s.rd F.TSU_T_DL_DEADLINE n != 0)),
      (F.TSU_T_ABSDL_ABSDL, n, if s.rd F.TSU_T_DL_DEADLINE n = 0 then 0 else tbNs s 2 + s.rd F.TSU_T_DL_DEADLINE n * 100)] := by
  unfold enterReady placeTail tbNs
  simp (disch := decide) only [State.set_eq_wr, State.rd_wr_cell]
  rw [trace_silent _ _ _ _ _ (by simp (disch := decide) only [State.rd_wr_cell, htrace])]
  refine preemptChoose_puts h [(F.TSU_T_STAT_STATE, n, tREADY), (F.TSU_T_STAT_RESUME, n, 0), (F.TSU_T_STAT_URGENT, n, 0),
      (I.tLvl, n, s.rd F.TSU_T_CFG_LEVEL n), (I.tSince, n, s.rd I.ordTail), (I.tPos, n, s.rd I.ordTail), (I.ordTail, 0, s.rd I.ordTail + 1),
      (I.jHasDl, n, b2n (s.rd F.TSU_T_DL_DEADLINE n != 0)),
      (F.TSU_T_ABSDL_ABSDL, n, if s.rd F.TSU_T_DL_DEADLINE n = 0 then 0 else s.rd F.TMU_TB_NS_NS 2 + s.rd F.TSU_T_DL_DEADLINE n * 100)] ?_
  intro p hp
  exact (show ∀ f ∈ [F.TSU_T_STAT_STATE, F.TSU_T_STAT_RESUME, F.TSU_T_STAT_URGENT, I.tLvl, I.tSince, I.tPos, I.ordTail, I.jHasDl,
    F.TSU_T_ABSDL_ABSDL], ∀ g ∈ victimCells, f.id ≠ g.id by decide) _ (List.mem_map_of_mem (f := Prod.fst) hp)

theorem ready_case (t : BitVec 16) :
    let n := t.toNat
    let ready := s.serving = true ∧ taskSt s n = tWAIT ∧ s.rd F.TSU_T_CFG_EN n = 1 ∧ condition s n = true ∧ s.rd I.jCancel n = 0
    (¬ ready → exec (.taskReady t) s = .next s) ∧ (ready → exec (.taskReady t) s = .next (enterReady s n)) := by
  intro n ready
  have hcond : (s.serving && taskSt s n == tWAIT && s.on F.TSU_T_CFG_EN n && condition s n && !s.on I.jCancel n) = decide ready := by
    rw [on_flag s n (f := F.TSU_T_CFG_EN) rfl, Bool.eq_iff_iff]
    simp [ready, State.on_eq, and_assoc]
  refine ⟨fun hn => ?_, fun hr => ?_⟩
  · show execTaskReady t s = _
    unfold execTaskReady
    rw [hcond, decide_eq_false hn]
    rfl
  · show execTaskReady t s = _
    unfold execTaskReady
    rw [hcond, decide_eq_true hr]
    rfl

include htrace in
theorem promote_case (t : BitVec 16) (hs : s.serving = true) (hp : promotable s t.toNat = true) (h : NoVictim s t.toNat) :
    Puts (.taskPromote t) s [(F.TSU_T_STAT_URGENT, t.toNat, 1), (I.tUrgPos, t.toNat, s.rd I.ordTail), (I.ordTail, 0, s.rd I.ordTail + 1)] := by
  show execTaskPromote t s = _
  unfold execTaskPromote placeTail
  dsimp only
  rw [if_pos (by rw [hs, hp]; rfl)]
  refine congrArg Host.Outcome.next ?_
  simp (disch := decide) only [State.set_eq_wr, State.rd_wr_cell]
  rw [trace_silent _ _ _ _ _ (by simp (disch := decide) only [State.rd_wr_cell, htrace])]
  refine preemptChoose_puts h [(F.TSU_T_STAT_URGENT, t.toNat, 1), (I.tUrgPos, t.toNat, s.rd I.ordTail), (I.ordTail, 0, s.rd I.ordTail + 1)] ?_
  intro p hp
  exact (show ∀ f ∈ [F.TSU_T_STAT_URGENT, I.tUrgPos, I.ordTail], ∀ g ∈ victimCells, f.id ≠ g.id by decide) _
    (List.mem_map_of_mem (f := Prod.fst) hp)

theorem promote_none (t : BitVec 16) (hp : promotable s t.toNat = false) : exec (.taskPromote t) s = .next s := by
  show execTaskPromote t s = _
  unfold execTaskPromote
  dsimp only
  rw [hp, Bool.and_false]
  rfl

theorem arrived_none (t : BitVec 16) (hst : taskSt s t.toNat ≠ tPAGEWAIT) : exec (.pageArrived t) s = .next s := by
  show execPageArrived t s = _
  unfold execPageArrived
  dsimp only
  rw [if_neg (by simp [hst])]

/-- A task whose faulted pages are in CST joins them to its working set and goes to the head of its level (R203). -/
theorem arrived_case (t : BitVec 16) (hs : s.serving = true) (hst : taskSt s t.toNat = tPAGEWAIT)
    (hpages : ((pagesOf (s.rd I.jFault t.toNat)).all fun v => lvl s (s.rd I.jCid t.toNat) v == 1) = true) (h : NoVictim s t.toNat) :
    let n := t.toNat
    Puts (.pageArrived t) s [(I.jWs, n, Nat.lor (s.rd I.jWs n) (s.rd I.jFault n)), (I.jFault, n, 0),
      (F.TSU_T_STAT_STATE, n, tREADY), (F.TSU_T_STAT_RESUME, n, 1), (F.TSU_T_STAT_CVALID, n, 0),
      (I.tLvl, n, s.rd F.TSU_T_CFG_LEVEL n), (I.tPos, n, s.rd I.ordHead), (I.ordHead, 0, s.rd I.ordHead - 1)] := by
  intro n
  have hstill : s.over (pagesOf (s.rd I.jFault n)) (fun u v => faultPage u (s.rd I.jCid n) v) = s := by
    refine over_still s _ _ fun v hv => ?_
    have hlvl : lvl s (s.rd I.jCid n) v = 1 := by simpa using List.all_eq_true.mp hpages v hv
    unfold faultPage untouched
    rw [hlvl]
    rfl
  show execPageArrived t s = _
  unfold execPageArrived
  dsimp only
  rw [if_pos (by rw [hs, hst]; rfl), show s.over (pagesOf (s.rd I.jFault t.toNat)) (fun u v => faultPage u (s.rd I.jCid t.toNat) v) = s from hstill,
    if_pos hpages]
  refine congrArg Host.Outcome.next ?_
  unfold reenterReady placeHead
  simp (disch := decide) only [State.set_eq_wr, State.rd_wr_cell, if_true]
  refine preemptChoose_puts h [(I.jWs, n, Nat.lor (s.rd I.jWs n) (s.rd I.jFault n)), (I.jFault, n, 0),
      (F.TSU_T_STAT_STATE, n, tREADY), (F.TSU_T_STAT_RESUME, n, 1), (F.TSU_T_STAT_CVALID, n, 0),
      (I.tLvl, n, s.rd F.TSU_T_CFG_LEVEL n), (I.tPos, n, s.rd I.ordHead), (I.ordHead, 0, s.rd I.ordHead - 1)] fun p hp => ?_
  exact (show ∀ f ∈ [I.jWs, I.jFault, F.TSU_T_STAT_STATE, F.TSU_T_STAT_RESUME, F.TSU_T_STAT_CVALID, I.tLvl, I.tPos, I.ordHead],
    ∀ g ∈ victimCells, f.id ≠ g.id by decide) _ (List.mem_map_of_mem (f := Prod.fst) hp)

end

/-! ## The commit of a new job -/

theorem firstInRank_mem {s : State} {l : List Nat} {t : Nat} (h : firstInRank s l = some t) : t ∈ l := by
  have hfold : ∀ (l : List Nat) (m : Option Nat) (t : Nat),
      l.foldl (fun m t => match m with | none => some t | some u => if ranksAhead s t u then some t else some u) m = some t →
      m = some t ∨ t ∈ l := by
    intro l
    induction l with
    | nil => exact fun m t h => .inl h
    | cons a l ih =>
      intro m t h
      rcases ih _ t h with hm | ht
      · cases m with
        | none => exact .inr (by simp_all)
        | some u =>
          dsimp only at hm
          split at hm
          · exact .inr (by simp_all)
          · exact .inl hm
      · exact .inr (List.mem_cons_of_mem _ ht)
  exact (hfold l none t h).resolve_left (by simp)

theorem rd_of_nonzero_nil {s : State} {f : Fld} (h : s.nonzero f = []) (i : Nat) : s.rd f i = f.resetAt i % 2 ^ f.w := by
  unfold State.nonzero at h
  unfold State.rd
  rw [List.map_eq_nil_iff.mp h]
  rfl

/-- The writes that begin a new job without a context (R188, R190). -/
def beginPuts (s : State) (t : Nat) : List (Fld × Nat × Nat) :=
  let used := Nat.land (s.rd F.TSU_T_FLAGS_FLAGS t) (s.rd F.TSU_T_MASK_MASK t)
  [(I.jFlags, t, used), (F.TSU_T_FLAGS_FLAGS, t, s.rd F.TSU_T_FLAGS_FLAGS t - used),
    (F.TSU_T_STAT_JSEQ, t, s.rd F.TSU_T_STAT_JSEQ t + 1), (I.jEntry, t, s.rd F.TSU_T_PC_ENTRY t), (I.jCv, t, 0),
    (I.jCid, t, s.rd F.TSU_T_CTX_CID t), (I.jWs, t, 0), (I.jSgen, t, s.rd F.TSU_T_CFG_SGEN t), (I.jSgrp, t, s.rd F.TSU_T_SG_SGRP t),
    (I.jPre, t, s.rd F.TSU_T_CFG_PRE t), (I.jBl, t, s.rd F.TSU_T_CFG_BLEVEL t)] ++
    [I.jRan, I.jDisp, I.jRec, I.jRetry, I.jScause, I.jFault, I.jTouch, I.jCancel].map (fun g => (g, t, 0))

/-- The writes of a commit of a new job without a context (R188, R190, R193). -/
def commitPuts (s : State) (t c : Nat) : List (Fld × Nat × Nat) :=
  beginPuts s t ++
    [(F.TSU_T_STAT_STATE, t, tCOMMITTED), (F.TSU_T_STAT_CVALID, t, 1), (F.TSU_T_STAT_CORE, t, c), (I.cNext, c, t + 1),
     (I.jOrd, t, s.rd I.commitSeq), (I.commitSeq, 0, s.rd I.commitSeq + 1)]

theorem commitTask_puts {s : State} {t c : Nat} (hready : taskSt s t = tREADY) (hres : s.rd F.TSU_T_STAT_RESUME t = 0)
    (hcancel : s.rd I.jCancel t = 0) (hresv : s.rd I.tResv t = 0) (hcv : s.rd F.TSU_T_CTX_CV t = 0) (hnone : s.nonzero I.stCore = [])
    (hrun : cluSt s (c / 8) = clRUN) (hdawn : s.rd F.CLU_STAT_DAWN (c / 8) = 0) (hdrain : s.rd F.CLU_STAT_DRAINWB (c / 8) = 0) :
    commitTask s t c = puts s (commitPuts s t c) := by
  have hjob : jobInProgress s t = false := by
    unfold jobInProgress
    rw [hready, on_of_zero hres, on_of_zero hcancel]
    rfl
  have hhit : coreHasSet s t c = false := by
    unfold coreHasSet nextSet
    rw [hjob, on_of_zero hcv]
    rfl
  have hkeep : keepOrCache s t c = s := by
    unfold keepOrCache
    rw [on_of_zero (rd_of_nonzero_nil hnone t)]
    rfl
  have hdrop : dropResv s t = s := by
    unfold dropResv
    rw [on_of_zero hresv]
    rfl
  have hcells : ∀ g ∈ [I.commitSeq, F.CLU_STAT_DAWN, F.CLU_STAT_DRAINWB, F.CLU_STAT_STATE], ∀ p ∈ beginPuts s t, p.1.id ≠ g.id :=
    fun g hg p hp => (show ∀ g ∈ [I.commitSeq, F.CLU_STAT_DAWN, F.CLU_STAT_DRAINWB, F.CLU_STAT_STATE],
      ∀ f ∈ [I.jFlags, F.TSU_T_FLAGS_FLAGS, F.TSU_T_STAT_JSEQ, I.jEntry, I.jCv, I.jCid, I.jWs, I.jSgen, I.jSgrp, I.jPre, I.jBl, I.jRan,
        I.jDisp, I.jRec, I.jRetry, I.jScause, I.jFault, I.jTouch, I.jCancel], f.id ≠ g.id by decide) g hg p.1
      (List.mem_map_of_mem (f := Prod.fst) hp)
  have hwake : ∀ u : State, (∀ g ∈ [F.CLU_STAT_DAWN, F.CLU_STAT_DRAINWB, F.CLU_STAT_STATE], ∀ j, u.rd g j = s.rd g j) →
      cluWake u (c / 8) = u := by
    intro u hu
    unfold cluWake cluSt
    rw [on_of_zero ((hu _ (by simp) _).trans hdawn), on_of_zero ((hu _ (by simp) _).trans hdrain), if_neg (by simp), if_neg (by simp),
      if_pos ((hu F.CLU_STAT_STATE (by simp) _).trans hrun)]
  have hover : s.over ((s.nonzero I.stCore).filter fun u => u != t && s.rd I.stCore u == c + 1 && !jobInProgress s u) setToCached = s := by
    rw [hnone]
    rfl
  unfold commitTask
  simp only [on_of_zero hresv, Bool.false_and, Bool.false_eq_true, if_false, hdrop, hhit, hover, hkeep, on_of_zero hres,
    show beginJob s t = puts s (beginPuts s t) from beginJob_plain s t hcv]
  have hbegun : ∀ g ∈ [I.commitSeq, F.CLU_STAT_DAWN, F.CLU_STAT_DRAINWB, F.CLU_STAT_STATE], ∀ j,
      (puts s (beginPuts s t)).rd g j = s.rd g j := fun g hg j => puts_cell _ _ _ _ (hcells g hg)
  unfold commitPuts
  rw [puts_append]
  generalize puts s (beginPuts s t) = u at *
  simp (disch := decide) only [State.set_eq_wr, State.rd_wr_cell, hbegun I.commitSeq (by simp)]
  refine hwake (puts u [(F.TSU_T_STAT_STATE, t, tCOMMITTED), (F.TSU_T_STAT_CVALID, t, 1), (F.TSU_T_STAT_CORE, t, c), (I.cNext, c, t + 1),
     (I.jOrd, t, s.rd I.commitSeq), (I.commitSeq, 0, s.rd I.commitSeq + 1)]) fun g hg j => ?_
  refine (puts_cell _ _ _ _ fun p hp => ?_).trans (hbegun g (List.mem_cons_of_mem _ hg) j)
  exact (show ∀ g ∈ [F.CLU_STAT_DAWN, F.CLU_STAT_DRAINWB, F.CLU_STAT_STATE], ∀ f ∈ [F.TSU_T_STAT_STATE, F.TSU_T_STAT_CVALID,
    F.TSU_T_STAT_CORE, I.cNext, I.jOrd, I.commitSeq], f.id ≠ g.id by decide) g hg _ (List.mem_map_of_mem (f := Prod.fst) hp)

section
variable {s : State}

theorem exec_commit (hs : s.serving = true) : exec .taskCommit s = .next (commitOne s) := by
  show execTaskCommit s = _
  unfold execTaskCommit
  exact if_pos hs

theorem commit_none (h : committable s = []) : exec .taskCommit s = .next s := by
  show execTaskCommit s = _
  unfold execTaskCommit commitOne
  rw [h]
  exact ite_self _

theorem commit_case {t c : Nat} (hs : s.serving = true) (hfirst : firstInRank s (committable s) = some t)
    (hcore : chooseCore s t = some c) (hres : s.rd F.TSU_T_STAT_RESUME t = 0)
    (hcancel : s.rd I.jCancel t = 0) (hresv : s.rd I.tResv t = 0) (hcv : s.rd F.TSU_T_CTX_CV t = 0) (hnone : s.nonzero I.stCore = [])
    (hrun : cluSt s (c / 8) = clRUN) (hdawn : s.rd F.CLU_STAT_DAWN (c / 8) = 0) (hdrain : s.rd F.CLU_STAT_DRAINWB (c / 8) = 0) :
    Puts .taskCommit s (commitPuts s t c) := by
  have hready : taskSt s t = tREADY := by
    have helig := (List.mem_filter.mp (firstInRank_mem hfirst)).2
    unfold eligible at helig
    simp only [Bool.and_eq_true, beq_iff_eq] at helig
    exact helig.1.1.1.1.2
  refine (exec_commit hs).trans (congrArg Host.Outcome.next ?_)
  unfold commitOne
  rw [hfirst]
  dsimp only
  rw [hcore]
  exact commitTask_puts hready hres hcancel hresv hcv hnone hrun hdawn hdrain

end

/-! ## Dispatch, the switch to a pre-emptor, the save of a bank -/

section
variable {s : State} {c : Fin 64}

theorem dispatch_none (h : mayDispatch s c.val = false) : exec (.taskDispatch c) s = .next s := by
  show execTaskDispatch c s = _
  unfold execTaskDispatch
  rw [if_neg (by simp [h])]

theorem switch_none (h : maySwitch s c.val = false) : exec (.preemptSwitch c) s = .next s := by
  show execPreemptSwitch c s = _
  unfold execPreemptSwitch
  rw [if_neg (by simp [h])]

theorem save_none (h : s.rd I.obusy c.val = 0) : exec (.bankSaveDone c) s = .next s := by
  show execBankSaveDone c s = _
  unfold execBankSaveDone
  rw [on_of_zero h]
  rfl

theorem exec_dispatch (h : mayDispatch s c.val = true) : exec (.taskDispatch c) s = .next (dispatchOn s c.val) := by
  show execTaskDispatch c s = _
  unfold execTaskDispatch
  exact if_pos h

theorem exec_switch (h : maySwitch s c.val = true) : exec (.preemptSwitch c) s = .next (switchNow s c.val 1 0) := by
  show execPreemptSwitch c s = _
  unfold execPreemptSwitch
  exact if_pos h

theorem exec_save (h : s.rd I.obusy c.val = 1) : exec (.bankSaveDone c) s = .next (bankSaved s c.val) := by
  show execBankSaveDone c s = _
  unfold execBankSaveDone
  exact if_pos (on_of_one h)

/-- A core that may switch awaits a pre-emptor whose own bank is not being saved. -/
theorem switch_ready {p : Nat} (h : maySwitch s c.val = true) (hnext : s.rd I.cNext c.val = p + 1) : leaving s p = false := by
  unfold maySwitch setReady at h
  rw [hnext, Nat.add_sub_cancel] at h
  simp only [Bool.and_eq_true, Bool.not_eq_true'] at h
  exact h.2.2

/-- A switch to the new job of a pre-emptor leaves memory. -/
theorem switchNow_mem {t p : Nat} (hrun : s.rd F.TSU_CTRL_RUN = 0) (htrace : s.rd F.TSU_TRCCFG_EN = 0) (hjob : s.rd I.cJob c.val = t + 1)
    (hnext : s.rd I.cNext c.val = p + 1) (hrec : s.rd I.jRec p = 0) (hcv : s.rd I.jCv p = 0) (hcid : s.rd I.jCid p = 0)
    (hws : s.rd I.jWs p = 0) (hran : s.rd I.jRan p = 0) (hleaving : leaving s p = false) (hbanks : s.nonzero I.bankJob = [])
    (hdisp : s.rd F.TSU_DISPCNT_COUNT + 2 < 2 ^ 32) (hp : p < 65536) (hne : p ≠ t) (ht : t < 65536)
    (harith : s.rd I.arith (rbank s c.val) = 0) (hflight : inFlight s (rbank s c.val) = [])
    (hpre : s.rd F.TSU_PREEMPTCNT_COUNT + 2 < 2 ^ 32) : (switchNow s c.val 1 0).mem = s.mem := by
  obtain ⟨w, hw⟩ : ∃ w : State, { s with
    bundles := Tbl.drop c.val s.bundles, landings := Tbl.drop (rbank s c.val) s.landings,
    macShadow := Tbl.drop (rbank s c.val) s.macShadow } = w := ⟨_, rfl⟩
  have hwmem : w.mem = s.mem := by rw [← hw]
  have ht1 : s.rd I.cJob c.val - 1 = t := by omega
  obtain ⟨l, hl, hother, -, -, -, -, -, -, hjrec, hnon⟩ := left_says s w c t ht (fun _ _ => by rw [← hw]; rfl)
    (fun _ => by rw [← hw]; rfl)
  have hleft : (leaveCore s c.val 1 0).wr I.swPend c.val 0 = l := by
    rw [leaveCore_plain s c.val 1 0 harith hflight t ht1 w hw, hl]
  have hlmem : l.mem = s.mem := by
    rw [hl]
    simp only [State.wr_mem, hwmem]
  have hcount : tsuCount l F.TSU_PREEMPTCNT_COUNT = l.wr F.TSU_PREEMPTCNT_COUNT 0 (s.rd F.TSU_PREEMPTCNT_COUNT + 1) := by
    unfold tsuCount
    rw [bump_room _ _ _ _ (by rw [hother _ _ (by decide)]; exact hpre), hother _ _ (by decide)]
  have hready : (s.on I.cNext c.val && setReady s c.val (s.rd I.cNext c.val - 1)) = true := by
    rw [on_of_ne_zero (by omega), hnext, Nat.add_sub_cancel, setReady_new hcv hleaving]
    rfl
  generalize hm : l.wr F.TSU_PREEMPTCNT_COUNT 0 (s.rd F.TSU_PREEMPTCNT_COUNT + 1) = m at hcount
  have hswitch : switchNow s c.val 1 0 = placeLeaver (dispatchOn m c.val) t 1 := by
    unfold switchNow
    dsimp only
    rw [if_pos hready, hleft, hcount, ht1]
  have hmother : ∀ g j, F.TSU_PREEMPTCNT_COUNT.id ≠ g.id → m.rd g j = l.rd g j := by
    intro g j hg
    rw [← hm]
    exact State.rd_wr_cell _ _ _ _ _ _ hg
  have hmrd : ∀ g j, F.TSU_PREEMPTCNT_COUNT.id ≠ g.id → (∀ f ∈ [I.stSet, I.stCore, I.cLeave, I.cLeaveRun, I.cLeaveAddr, I.obusy, I.bank,
      I.cJob, I.waiting, I.qstall, I.jRec, I.jScause, F.TSU_T_STAT_CVALID, I.swPend], f.id ≠ g.id) → m.rd g j = s.rd g j :=
    fun g j hg hf => (hmother g j hg).trans (hother g j hf)
  have hmbanks : m.nonzero I.bankJob = [] := by
    rw [← hm, nonzero_wr_other _ _ _ _ _ (by decide), hnon, hbanks]
  obtain ⟨-, hsame, hrest, -⟩ := dispatch_says m c.val p c.isLt ((hmrd _ _ (by decide) (by decide)).trans hnext)
    ((hmother _ _ (by decide)).trans ((hjrec p hne).trans hrec)) ((hmrd _ _ (by decide) (by decide)).trans hcv)
    ((hmrd _ _ (by decide) (by decide)).trans hcid) ((hmrd _ _ (by decide) (by decide)).trans hws)
    ((hmrd _ _ (by decide) (by decide)).trans hran) hmbanks (by rw [hmrd _ _ (by decide) (by decide)]; exact hdisp) hp
    ((hmrd _ _ (by decide) (by decide)).trans htrace)
  have hplace := placeLeaver_head (dispatchOn m c.val) t ((hrest _ _ (by decide)).trans ((hmrd _ _ (by decide) (by decide)).trans hrun))
  rw [hswitch, hplace, puts_mem, hsame, ← hm]
  exact hlmem

end

/-- Settles O36: each move by what its command does, as the lemmas above say it; dispatch and switch by the architect's laws
of the bank that a new job gets. -/
theorem tasksMoveToTheirJobsAndBack : Obligations.TasksMoveToTheirJobsAndBack := by
  unfold Obligations.TasksMoveToTheirJobsAndBack
  intro s htrace calm
  refine ⟨fun t => ⟨(ready_case t).1, fun hr hcalm => ?_, fun hs hp hcalm => promote_case htrace t hs hp hcalm, promote_none t, arrived_none t,
    fun hs hst hpages hcalm => arrived_case t hs hst hpages hcalm⟩, commit_none,
    fun t c hs hfirst hcore hres hcancel hresv hcv hnone hrun hdawn hdrain =>
      commit_case hs hfirst hcore hres hcancel hresv hcv hnone hrun hdawn hdrain, fun c => ?_⟩
  · refine ((ready_case t).2 hr).trans (congrArg Host.Outcome.next ?_)
    exact enterReady_puts htrace hcalm
  · refine ⟨dispatch_none, ?_, switch_none, ?_, save_none, ?_⟩
    · intro q hmay hnext hfresh
      obtain ⟨hrec, hcv, hcid, hws, hran, hbanks, hcount, hq⟩ := hfresh
      obtain ⟨⟨h1, h2, h3, h4, h5, h6, h7, h8, h9, h10, h11, h12, -⟩, hsame, -⟩ :=
        dispatch_says s c.val q c.isLt hnext hrec hcv hcid hws hran hbanks hcount hq htrace
      refine ⟨_, exec_dispatch hmay, h1, h3, h4, h6, h7, h8, h9, h10, h11, h12, ?_⟩
      rw [hsame]
    · intro t p hmay hrun hjob hnext hne hfresh ht harith hflight hcount
      obtain ⟨hrec, hcv, hcid, hws, hran, hbanks, hdisp, hp⟩ := hfresh
      obtain ⟨⟨h1, h2, h3, h4, h5, h6, h7, h8, h9, h10, h11, h12, -⟩, hbank, hleave, -, hbusy, hjrec, hcause, hst, hres, hpos, hpre, -⟩ :=
        preempt_says s c t p hrun htrace hjob hnext hrec hcv hcid hws hran (switch_ready hmay hnext) hbanks hdisp hp hne ht harith hflight hcount
      have hmem := switchNow_mem hrun htrace hjob hnext hrec hcv hcid hws hran (switch_ready hmay hnext) hbanks hdisp hp hne ht harith
        hflight hcount
      exact ⟨_, exec_switch hmay, ⟨h1, h3, h4, h6, h7, h8, h9, h10, h11, h12, hmem⟩, hbank, hleave, hbusy, hjrec, hcause,
        hst, hres, hpos, hpre⟩
    · intro t i hbusy hpend hleave hcv hframe
      exact ⟨_, exec_save hbusy, bankSaved_says s c.val t _ i hpend hleave hcv rfl hframe⟩

end Sys2Proof.Machine
end

section
/-! PROOFS.  Budgets, cores and the scheduling trace. -/

namespace Sys2Proof.Machine

open Safety

set_option Elab.async false

/-! ## Budgets -/

/-- An account below its cap is charged up to it, and is then held. -/
theorem chargeBudget_to_cap (s : State) (b t : Nat) (h : s.rd F.TSU_LVLSTAT_USED b < s.rd F.TSU_LVLCFG_CAP b * 1024)
    (htr : s.rd F.TSU_TRCCFG_EN = 0) :
    chargeBudget s b t (s.rd F.TSU_LVLCFG_CAP b * 1024 - s.rd F.TSU_LVLSTAT_USED b) =
      puts s [(F.TSU_LVLSTAT_USED, b, s.rd F.TSU_LVLCFG_CAP b * 1024), (F.TSU_LVLSTAT_HELD, b, 1)] := by
  have hlt : s.rd F.TSU_LVLCFG_CAP b < 2 ^ 16 := State.rd_lt _ _ _
  have hv : min (s.rd F.TSU_LVLSTAT_USED b + (s.rd F.TSU_LVLCFG_CAP b * 1024 - s.rd F.TSU_LVLSTAT_USED b)) (2 ^ 27 - 1) =
      s.rd F.TSU_LVLCFG_CAP b * 1024 := by omega
  unfold chargeBudget
  rw [hv]
  generalize hw : s.wr F.TSU_LVLSTAT_USED b (s.rd F.TSU_LVLCFG_CAP b * 1024) = w
  have hheld : budgetHeld w b = true := by
    subst hw
    have hu : (s.wr F.TSU_LVLSTAT_USED b (s.rd F.TSU_LVLCFG_CAP b * 1024)).rd F.TSU_LVLSTAT_USED b = s.rd F.TSU_LVLCFG_CAP b * 1024 :=
      (State.rd_wr_same _ _ _ _).trans (Nat.mod_eq_of_lt (show _ < 2 ^ 27 by omega))
    have hc : (s.wr F.TSU_LVLSTAT_USED b (s.rd F.TSU_LVLCFG_CAP b * 1024)).rd F.TSU_LVLCFG_CAP b = s.rd F.TSU_LVLCFG_CAP b :=
      State.rd_wr_cell _ _ _ _ _ _ (by decide)
    unfold budgetHeld
    rw [on_of_ne_zero (by rw [hc]; omega), hc, hu]
    simp
  have htrace : (w.wr F.TSU_LVLSTAT_HELD b 1).rd F.TSU_TRCCFG_EN = 0 := by
    subst hw
    rw [State.rd_wr_cell _ _ _ _ _ _ (by decide), State.rd_wr_cell _ _ _ _ _ _ (by decide), htr]
  have hend : refreshHeld w b t = w.wr F.TSU_LVLSTAT_HELD b 1 := by
    unfold refreshHeld
    rw [hheld]
    dsimp only [b2n, ite_true]
    split
    · exact trace_silent _ _ _ _ _ htrace
    · rfl
  rw [hend, ← hw]
  rfl

/-- A budget without a cap, or one that has reached it, is charged no further. -/
theorem budgetHeld_idle {s : State} {b : Nat} (h : s.rd F.TSU_LVLCFG_CAP b * 1024 = 0 ∨
    s.rd F.TSU_LVLCFG_CAP b * 1024 ≤ s.rd F.TSU_LVLSTAT_USED b) : (s.on F.TSU_LVLCFG_CAP b && !budgetHeld s b) = false := by
  unfold budgetHeld
  by_cases hc : s.rd F.TSU_LVLCFG_CAP b = 0
  · rw [on_of_zero hc]
    rfl
  · rw [decide_eq_true (h.resolve_left (by omega)), on_of_ne_zero hc]
    rfl

/-! ## The trace -/

/-- The entry's words are latched for the reader. -/
theorem latch_words (s : State) (k i n : Nat) :
    let u := s.over (List.range n) fun t j => t.wr I.trcLatch (4 * k + j) (s.rd I.trc (4 * i + j))
    (∀ j, j < n → u.rd I.trcLatch (4 * k + j) = s.rd I.trc (4 * i + j)) ∧
      OnlyCells s u ((List.range n).map fun j => (I.trcLatch, 4 * k + j)) := by
  induction n with
  | zero => exact ⟨fun j hj => absurd hj (Nat.not_lt_zero j), OnlyCells.refl _ _⟩
  | succ n ih =>
    obtain ⟨hval, honly⟩ := ih
    dsimp only
    rw [List.range_succ, List.map_append]
    unfold State.over at hval honly ⊢
    rw [List.foldl_append]
    refine ⟨fun j hj => ?_, (honly.mono fun p hp => List.mem_append_left _ hp).wr (by simp)⟩
    show (((List.range n).foldl _ s).wr I.trcLatch (4 * k + n) (s.rd I.trc (4 * i + n))).rd I.trcLatch (4 * k + j) = _
    rw [State.rd_wr]
    split
    next he =>
      obtain rfl : n = j := by omega
      exact Nat.mod_eq_of_lt (State.rd_lt s I.trc _)
    next he => exact hval j (by omega)

section
variable {s : State} {ini : Init} {k : Nat} (hk : selCopy ini = some k)
include hk

theorem traceRead_first (i : Nat) : traceRead s ini i 0 = (s.rd I.trc (4 * i),
    (s.over (List.range 4) fun t j => t.wr I.trcLatch (4 * k + j) (s.rd I.trc (4 * i + j))).wr I.trcLatchIx k (i + 1)) := by
  unfold traceRead
  rw [hk]
  rfl

theorem traceRead_later (i w : Nat) (hw : w ≠ 0) : traceRead s ini i w =
    (if s.rd I.trcLatchIx k = i + 1 then s.rd I.trcLatch (4 * k + w) else s.rd I.trc (4 * i + w), s) := by
  unfold traceRead
  rw [hk]
  dsimp only
  rw [if_neg hw]
  split <;> rfl
end

/-- Settles O37: each command's handler is one of the operations above. -/
theorem budgetsCoresAndTrace : Obligations.BudgetsCoresAndTrace := by
  unfold Obligations.BudgetsCoresAndTrace
  intro s hf
  refine ⟨?_, fun b t => ⟨fun h => ?_, fun hserv hrun hb hlt htr => ?_⟩, fun ini hi v hresv hnext => ?_, fun ini => ?_,
    fun ini i k hk => ⟨?_, fun w hw => ?_⟩⟩
  · obtain ⟨hused, hheld, honly⟩ := windows_says s 32
    refine Does.of_next (t := s.over (List.range 32) windowBudget) (if_pos hf) ⟨fun b hb => ⟨?_, hheld b hb⟩, honly⟩
    rw [hused b, if_pos hb]
  · show execBudgetHeld b t s = _
    unfold execBudgetHeld
    refine if_neg ?_
    have hidle := budgetHeld_idle h
    rw [Bool.and_assoc, hidle, Bool.and_false]
    exact Bool.false_ne_true
  · have hcap : s.rd F.TSU_LVLCFG_CAP b.val ≠ 0 := by omega
    show execBudgetHeld b t s = _
    unfold execBudgetHeld
    refine (if_pos ?_).trans (congrArg Host.Outcome.next (chargeBudget_to_cap s b.val t.toNat hlt htr))
    have hnot : budgetHeld s b.val = false := by
      unfold budgetHeld
      rw [decide_eq_false (Nat.not_le.mpr hlt), Bool.and_false]
    simp [hserv, hrun, hb, on_of_ne_zero hcap, hnot]
  · obtain ⟨hbits, honly, -⟩ := coreens_says s (!hi) (if hi then F.TSU_COREEN_HI_EN else F.TSU_COREEN_LO_EN) (by cases hi <;> rfl)
      v.toNat hresv hnext 32 (Nat.le_refl _)
    rw [Bool.not_not] at hbits honly
    refine Does.of_next (t := coreenWrite s hi v.toNat) (if_pos hf) ⟨fun k hk => ?_, honly⟩
    exact (hbits k hk).trans (if_pos hk)
  · exact if_pos hf
  · obtain ⟨hwords, honly⟩ := latch_words s k i.toNat 4
    have hr := traceRead_first (s := s) hk i.toNat
    generalize (s.over (List.range 4) fun t j => t.wr I.trcLatch (4 * k + j) (s.rd I.trc (4 * i.toNat + j))) = u at hwords honly hr
    have hone : OnlyCells s (u.wr I.trcLatchIx k (i.toNat + 1))
        ((I.trcLatchIx, k) :: (List.range 4).map fun j => (I.trcLatch, 4 * k + j)) :=
      (honly.mono fun p hp => List.mem_cons_of_mem _ hp).wr (by simp)
    refine Does.of_next (t := (u.wr I.trcLatchIx k (i.toNat + 1)).seen (initCode ini) (s.rd I.trc (4 * i.toNat))) ?_
      ⟨seen_rdata _ _ _, fun j hj => ?_, ?_, hone.2, ?_⟩
    · show execTraceEntryRead ini i 0 s = _
      unfold execTraceEntryRead
      refine (if_pos hf).trans ?_
      dsimp only
      rw [show ((0 : Fin 4).val) = 0 from rfl, hr]
    · exact (State.rd_wr_cell _ _ _ _ _ _ (by decide)).trans (hwords j hj)
    · exact (State.rd_wr_same _ _ _ _).trans (Nat.mod_eq_of_lt (show _ < 2 ^ 13 by have := i.isLt; omega))
    · unfold State.seen
      rw [hone.1]
  · show execTraceEntryRead ini i w s = _
    unfold execTraceEntryRead
    refine (if_pos hf).trans ?_
    dsimp only
    rw [traceRead_later hk i.toNat w.val fun h => hw (Fin.ext h)]

end Sys2Proof.Machine
end

section
/-! PROOFS.  Context commands: what each of the commands does to the context it names. -/

namespace Sys2Proof.Machine

open Safety

set_option Elab.async false

/-! ## Commands at a free context register set -/

section
variable {s : State} {cid : Nat}

/-- A busy context answers 2 to every further command. -/
theorem ctxCommand_busy (h : cmdBusy s cid = true) {v : Nat} (hv : v % 32 ≠ 0) :
    ctxCommand s cid v = puts s [(F.CHW_CTX_CMD_RESULT, cid, 2)] := by
  unfold ctxCommand
  rw [if_neg hv, h, Bool.true_or, if_pos rfl]
  rfl

/-- A free one carries out the command of the bit written. -/
theorem ctxCommand_one (h : cmdBusy s cid = false) (c : Fin 5) : ctxCommand s cid (2 ^ c.val) =
    match c with
    | 0 => alloc s cid
    | 1 => release s cid
    | 2 => spill s cid
    | 3 => load s cid
    | 4 => publish s cid := by
  have hfree : ∀ c : Fin 5, ¬ (false || popcount 5 (2 ^ c.val) != 1) = true := by decide
  have hsome : ∀ c : Fin 5, ¬ 2 ^ c.val % 32 = 0 := by decide
  unfold ctxCommand
  rw [if_neg (hsome c), h, if_neg (hfree c)]
  match c with
  | 0 | 1 | 2 | 3 | 4 => rfl

theorem cmdEnd_puts (f : Fld) (r : Nat) : cmdEnd s f cid r = puts s [(f, cid, 0), (F.CHW_CTX_CMD_RESULT, cid, r)] := rfl

/-! ## ALLOC -/

theorem alloc_refused (h : ctxState s cid ≠ cFREE ∨ s.rd F.CHW_CTX_LAYOUT_PAGES cid = 0) :
    alloc s cid = cmdEnd s F.CHW_CTX_CMD_ALLOC cid 3 := by
  unfold alloc
  refine if_pos ?_
  simpa using h

/-- A context of one page that fits takes it. -/
theorem alloc_takes (v : Fin 16) (hfree : ctxState s cid = cFREE) (hpages : s.rd F.CHW_CTX_LAYOUT_PAGES cid = 2 ^ v.val)
    (hmode : s.rd F.CHW_CTX_ATTR_POOL cid ≠ 0 ∨ s.mode ≠ mDRAIN) (hfits : fitsNow s 1 (s.rd F.CHW_CTX_ATTR_POOL cid) = true) :
    alloc s cid = takePages s cid := by
  have hnodrain : ¬ (s.rd F.CHW_CTX_ATTR_POOL cid == 0 && s.mode == mDRAIN) = true := by
    rw [Bool.and_eq_true, beq_iff_eq, beq_iff_eq]
    exact fun h => hmode.elim (fun h0 => h0 h.1) fun hm => hm h.2
  have hgo : ¬ (ctxState s cid != cFREE || s.rd F.CHW_CTX_LAYOUT_PAGES cid == 0) = true := by
    rw [hfree, hpages]
    simp
  unfold alloc tryAlloc
  rw [if_neg hgo, if_neg hnodrain, hpages, (pagesOf_one v).2]
  exact if_pos hfits

/-- The state in which CPG takes the pages of a context. -/
def poolTaken (s : State) (cid : Nat) : State := s.wr I.ctxPool cid (s.rd F.CHW_CTX_ATTR_POOL cid)

theorem takePages_one (v : Fin 16) (hpages : s.rd F.CHW_CTX_LAYOUT_PAGES cid = 2 ^ v.val) :
    takePages s cid = puts (allocOne (poolTaken s cid) cid v.val)
      [(F.CHW_CTX_STAT_STATE, cid, cALLOC), (F.CHW_CTX_CMD_ALLOC, cid, 0), (F.CHW_CTX_CMD_RESULT, cid, 0)] := by
  have h : (s.wr I.ctxPool cid (s.rd F.CHW_CTX_ATTR_POOL cid)).rd F.CHW_CTX_LAYOUT_PAGES cid = 2 ^ v.val :=
    (State.rd_wr_cell _ _ _ _ _ _ (by decide)).trans hpages
  unfold takePages
  dsimp only
  rw [h, (pagesOf_one v).1]
  rfl

/-- The cells of the end of an ALLOC that took its page. -/
def doneCells : List Fld := [F.CHW_CTX_STAT_STATE, F.CHW_CTX_CMD_ALLOC, F.CHW_CTX_CMD_RESULT]

/-- The cells of a page that is only promised. -/
def demandCells : List Fld := [I.mapMem, I.mapOd, F.CPG_POOLUSE_USED, I.odLeft]

/-- The cells that bind a page. -/
def boundCells : List Fld := [I.mapLvl, I.mapPage, I.mapDirty, I.pgUse, I.bankBusy]

/-- What the end of an ALLOC that took its page shows. -/
theorem allocated_shows (u : State) (hpool : u.rd I.ctxPool cid = s.rd F.CHW_CTX_ATTR_POOL cid) :
    let t := puts u [(F.CHW_CTX_STAT_STATE, cid, cALLOC), (F.CHW_CTX_CMD_ALLOC, cid, 0), (F.CHW_CTX_CMD_RESULT, cid, 0)]
    ctxState t cid = cALLOC ∧ t.rd F.CHW_CTX_CMD_ALLOC cid = 0 ∧ t.rd F.CHW_CTX_CMD_RESULT cid = 0 ∧
      t.rd I.ctxPool cid = s.rd F.CHW_CTX_ATTR_POOL cid := by
  refine ⟨?_, ?_, ?_, ?_⟩
  · show State.rd _ _ _ = _
    exact Eq.trans (puts_rd_at doneCells 0 (by decide)) rfl
  · exact Eq.trans (puts_rd_at doneCells 1 (by decide)) rfl
  · exact Eq.trans (puts_rd_at doneCells 2 (by decide)) rfl
  · exact (puts_rd_other doneCells _ _ (by decide)).trans hpool

/-- The page of an on-demand context is only promised. -/
theorem allocOne_demand (v : Nat) (h : bitOf (s.rd F.CHW_CTX_ATTR_OD cid) v = true) : ∃ m p u,
    allocOne s cid v = puts s [(I.mapMem, 16 * cid + v, m), (I.mapOd, 16 * cid + v, 1), (F.CPG_POOLUSE_USED, p, u),
      (I.odLeft, 0, s.rd I.odLeft + 1)] := by
  generalize hw : s.wr I.mapMem (entry cid v) (bitN (s.rd F.CHW_CTX_LAYOUT_YMEM cid) v) = w
  have hod : bitOf (w.rd F.CHW_CTX_ATTR_OD cid) v = true := by
    rw [← hw, State.rd_wr_cell _ _ _ _ _ _ (by decide), h]
  have hleft : w.rd I.odLeft = s.rd I.odLeft := by
    rw [← hw, State.rd_wr_cell _ _ _ _ _ _ (by decide)]
  refine ⟨bitN (s.rd F.CHW_CTX_LAYOUT_YMEM cid) v, w.rd I.ctxPool cid,
    (w.wr I.mapOd (entry cid v) 1).rd F.CPG_POOLUSE_USED (w.rd I.ctxPool cid) + 1, ?_⟩
  unfold allocOne
  dsimp only
  rw [hw, if_pos hod, hleft]
  unfold useMore
  rw [← hw]
  rfl

/-- The page of another context is a free one, whose contents are lost. -/
theorem allocOne_page (v : Nat) (h : bitOf (s.rd F.CHW_CTX_ATTR_OD cid) v = false)
    (hpage : ∃ n, n < 32768 ∧ bankOk s (n / 2048) = true ∧ s.rd I.pgUse n = 0 ∧ s.rd I.pgBad n = 0) : ∃ n w p x,
    (n < 32768 ∧ bankOk s (n / 2048) = true ∧ s.rd I.pgUse n = 0 ∧ s.rd I.pgBad n = 0) ∧
      w.mem = s.mem ∧ w.rd I.ctxPool cid = s.rd I.ctxPool cid ∧
      allocOne s cid v = useMore ((puts w [(I.mapLvl, 16 * cid + v, 1), (I.mapPage, 16 * cid + v, n), (I.mapDirty, 16 * cid + v, 0),
        (I.pgUse, n, 16 * cid + v + 1), (I.bankBusy, n / 2048, x)]).loseMem (4096 * n) 4096) p := by
  generalize hw : s.wr I.mapMem (entry cid v) (bitN (s.rd F.CHW_CTX_LAYOUT_YMEM cid) v) = w
  have hcell : ∀ (f : Fld) (j : Nat), f.id ≠ I.mapMem.id → w.rd f j = s.rd f j := fun f j hf => by
    rw [← hw, State.rd_wr_cell _ _ _ _ _ _ (Ne.symm hf)]
  have hbank : bankOk w = bankOk s := by
    funext b
    unfold bankOk bankMode
    rw [hcell _ _ (by decide)]
  obtain ⟨n, hpick, hn⟩ := pickPage_some w (bankOk w) (by
    obtain ⟨n, hn, hb, hu, hbad⟩ := hpage
    exact ⟨n, hn, by rw [hbank]; exact hb, (hcell _ _ (by decide)).trans hu, (hcell _ _ (by decide)).trans hbad⟩)
  rw [hbank, hcell _ _ (by decide), hcell _ _ (by decide)] at hn
  refine ⟨n, { w with freeCtr := w.freeCtr + 1 }, w.rd I.ctxPool cid, w.rd I.bankBusy (n / 2048) + 1, hn,
    by rw [← hw]; rfl, hcell _ _ (by decide), ?_⟩
  unfold allocOne
  dsimp only
  rw [hw, if_neg (by rw [hcell _ _ (by decide), h]; exact Bool.false_ne_true)]
  unfold allocPage
  rw [hpick]
  have hbind : bindPage { w with freeCtr := w.freeCtr + 1 } cid v n = puts { w with freeCtr := w.freeCtr + 1 }
      [(I.mapLvl, 16 * cid + v, 1), (I.mapPage, 16 * cid + v, n), (I.mapDirty, 16 * cid + v, 0), (I.pgUse, n, 16 * cid + v + 1),
        (I.bankBusy, n / 2048, w.rd I.bankBusy (n / 2048) + 1)] := by
    unfold bindPage
    rfl
  show useMore ((bindPage { w with freeCtr := w.freeCtr + 1 } cid v n).loseMem (cstAddr n) 4096) _ = _
  rw [hbind]
  rfl

/-! ## RELEASE, SPILL, LOAD and PUBLISH -/

theorem release_free (h : ctxState s cid = cFREE) : release s cid = cmdEnd s F.CHW_CTX_CMD_RELEASE cid 3 := by
  unfold release
  rw [h]
  rfl

section
variable (h : ctxState s cid ≠ cFREE)
include h

theorem release_pinned (hp : jobPin s cid = true) : release s cid = cmdEnd s F.CHW_CTX_CMD_RELEASE cid 2 := by
  unfold release
  rw [if_neg (by simpa using h), if_pos hp]

theorem release_moving (hp : jobPin s cid = false) (hm : ∃ v, v < 16 ∧ s.rd I.mapLvl (16 * cid + v) = 3) :
    release s cid = s.wr F.CHW_CTX_CMD_RELEASE cid 1 := by
  unfold release
  rw [if_neg (by simpa using h), hp, if_neg Bool.false_ne_true]
  refine if_pos ?_
  rw [bne, Bool.not_eq_true', Bool.eq_false_iff]
  exact fun h0 => atLevel_none.mp h0 hm

theorem release_settled (hp : jobPin s cid = false) (hm : ¬ ∃ v, v < 16 ∧ s.rd I.mapLvl (16 * cid + v) = 3) :
    release s cid = releaseNow s cid := by
  unfold release
  rw [if_neg (by simpa using h), hp, if_neg Bool.false_ne_true]
  refine if_neg ?_
  rw [bne, atLevel_none.mpr hm]
  exact Bool.false_ne_true
end

theorem spill_refused (h : ctxState s cid ≠ cALLOC) : spill s cid = cmdEnd s F.CHW_CTX_CMD_SPILL cid 3 := by
  unfold spill
  exact if_pos (by simpa using h)

theorem load_refused (h : ctxState s cid ≠ cALLOC) : load s cid = cmdEnd s F.CHW_CTX_CMD_LOAD cid 3 := by
  unfold load
  exact if_pos (by simpa using h)

section
variable (h : ctxState s cid = cALLOC)
include h

theorem spill_allocated : spill s cid = if !maySpill s then cmdEnd s F.CHW_CTX_CMD_SPILL cid 4
    else if !coldEligible s cid then cmdEnd s F.CHW_CTX_CMD_SPILL cid 2
    else if atLevel s cid 1 == 0 then cmdEnd s F.CHW_CTX_CMD_SPILL cid 0
    else startSpill (s.wr F.CHW_CTX_CMD_SPILL cid 1) cid := by
  unfold spill
  exact if_neg (by simpa using h)

theorem load_allocated : load s cid = if !spillArea s then cmdEnd s F.CHW_CTX_CMD_LOAD cid 4
    else if atLevel s cid 2 == 0 && atLevel s cid 3 == 0 then cmdEnd s F.CHW_CTX_CMD_LOAD cid 0
    else s.wr F.CHW_CTX_CMD_LOAD cid 1 := by
  unfold load
  exact if_neg (by simpa using h)
end

end

/-! ## The obligation -/

/-- Settles O38: each command's handler is `ctxCommand` of the context that is selected. -/
theorem contextCommandsAnswerTheirResults : Obligations.ContextCommandsAnswerTheirResults := by
  unfold Obligations.ContextCommandsAnswerTheirResults
  intro s ini k cid hf hk hi hc
  have hgo : ∀ v, chwCommand s ini v = ctxCommand s cid v := chw_goes hf hk hi hc
  dsimp only
  refine ⟨fun hbusy i hin => ?_, fun hfree => ?_⟩
  · have hbit : ∀ v, v % 32 ≠ 0 → Host.Outcome.next (chwCommand s ini v) = Host.Outcome.next (φ := Fault) (ρ := Refusal)
        (puts s [(F.CHW_CTX_CMD_RESULT, cid, 2)]) := fun v hv => by rw [hgo, ctxCommand_busy hbusy hv]
    simp only [List.mem_cons, List.not_mem_nil, or_false] at hin
    rcases hin with rfl | rfl | rfl | rfl | rfl
    · exact hbit 1 (by decide)
    · exact hbit 2 (by decide)
    · exact hbit 4 (by decide)
    · exact hbit 8 (by decide)
    · exact hbit 16 (by decide)
  have halloc : ∀ t, alloc s cid = t → exec (.alloc ini) s = .next t := fun t h =>
    congrArg Host.Outcome.next ((hgo 1).trans ((ctxCommand_one hfree 0).trans h))
  have hrelease : ∀ t, release s cid = t → exec (.release ini) s = .next t := fun t h =>
    congrArg Host.Outcome.next ((hgo 2).trans ((ctxCommand_one hfree 1).trans h))
  have hspill : ∀ t, spill s cid = t → exec (.spill ini) s = .next t := fun t h =>
    congrArg Host.Outcome.next ((hgo 4).trans ((ctxCommand_one hfree 2).trans h))
  have hload : ∀ t, load s cid = t → exec (.load ini) s = .next t := fun t h =>
    congrArg Host.Outcome.next ((hgo 8).trans ((ctxCommand_one hfree 3).trans h))
  have hpublish : ∀ t, publish s cid = t → exec (.publish ini) s = .next t := fun t h =>
    congrArg Host.Outcome.next ((hgo 16).trans ((ctxCommand_one hfree 4).trans h))
  refine ⟨fun h => halloc _ (alloc_refused h), fun v hst hpages hmode hfits => ?_, fun h => hrelease _ (release_free h),
    fun h hp => hrelease _ (release_pinned h hp), fun h hp hm => hrelease _ (release_moving h hp hm), fun h hp hm => ?_,
    fun h => ⟨hspill _ (spill_refused h), hload _ (load_refused h)⟩, fun h => ⟨fun hm => ?_, fun hm hcold => ?_, fun hm hcold h1 => ?_,
      fun hm hcold h1 => ?_, fun ha => ?_, fun ha h2 h3 => ?_, fun ha h23 => ?_⟩, fun hr => ?_, fun hr => ?_⟩
  · have htake := (alloc_takes v hst hpages hmode hfits).trans (takePages_one v hpages)
    have hpool : (poolTaken s cid).rd I.ctxPool cid = s.rd F.CHW_CTX_ATTR_POOL cid :=
      (State.rd_wr_same _ _ _ _).trans (Nat.mod_eq_of_lt (State.rd_lt s F.CHW_CTX_ATTR_POOL cid))
    have hcell : ∀ (f : Fld) (j : Nat), f.id ≠ I.ctxPool.id → (poolTaken s cid).rd f j = s.rd f j := fun f j hne =>
      State.rd_wr_cell _ _ _ _ _ _ (Ne.symm hne)
    refine ⟨fun hod => ?_, fun hod hpage => ?_⟩
    · obtain ⟨m, p, u, hone⟩ := allocOne_demand v.val (by rw [hcell _ _ (by decide)]; exact hod : bitOf ((poolTaken s cid).rd F.CHW_CTX_ATTR_OD cid) v.val = true)
      rw [hone, ← puts_append] at htake
      refine Does.of_next (halloc _ htake) ⟨?_, ?_, ?_, ?_, ?_⟩
      · rw [puts_append]
        refine allocated_shows _ ?_
        exact (puts_rd_other demandCells _ _ (by decide)).trans hpool
      · rw [puts_append, puts_rd_other doneCells _ _ (by decide)]
        exact Eq.trans (puts_rd_at demandCells 1 (by decide)) rfl
      · rw [puts_rd_other (demandCells ++ doneCells) _ _ (by decide), hcell _ _ (by decide)]
      · rw [puts_append, puts_rd_other doneCells _ _ (by decide)]
        refine Eq.trans (puts_rd_at demandCells 3 (by decide)) ?_
        rw [hcell _ _ (by decide)]
      · exact (OnlyCells.wr (.refl s [(I.ctxPool, cid)]) (by simp)).1.trans (SameButCells.puts _ _)
    · obtain ⟨n, w, p, x, hn, hmem, hwpool, hone⟩ := allocOne_page (s := poolTaken s cid) v.val (by rw [hcell _ _ (by decide)]; exact hod) (by
        obtain ⟨n, hn, hb, hu, hbad⟩ := hpage
        refine ⟨n, hn, ?_, (hcell _ _ (by decide)).trans hu, (hcell _ _ (by decide)).trans hbad⟩
        unfold bankOk bankMode at hb ⊢
        rwa [hcell _ _ (by decide)])
      obtain ⟨hlt, hb, hu, hbad⟩ := hn
      have hbank : bankOk s (n / 2048) = true := by
        unfold bankOk bankMode at hb ⊢
        rwa [hcell _ _ (by decide)] at hb
      rw [hone] at htake
      unfold useMore at htake
      refine Does.of_next (halloc _ htake) ⟨allocated_shows _ ?_, ?_, n, hlt, hbank, (hcell _ _ (by decide)).symm.trans hu,
        (hcell _ _ (by decide)).symm.trans hbad, ?_, fun a => ?_⟩
      · rw [State.rd_wr_cell _ _ _ _ _ _ (by decide), State.loseMem_rd, puts_rd_other boundCells _ _ (by decide), hwpool, hpool]
      · rw [puts_rd_other doneCells _ _ (by decide), State.rd_wr_cell _ _ _ _ _ _ (by decide), State.loseMem_rd]
        exact Eq.trans (puts_rd_at boundCells 0 (by decide)) rfl
      · rw [puts_rd_other doneCells _ _ (by decide), State.rd_wr_cell _ _ _ _ _ _ (by decide), State.loseMem_rd]
        refine Eq.trans (puts_rd_at boundCells 1 (by decide)) ?_
        exact Nat.mod_eq_of_lt (show n < 2 ^ 23 by omega)
      · refine Eq.trans ?_ ((byte_loseMem w (4096 * n) 4096 a).trans ?_)
        · unfold State.byte
          rw [puts_mem]
          unfold State.loseMem
          rw [State.wr_mem]
          dsimp only
          rw [puts_mem]
        · unfold State.byte
          rw [hmem]
          rfl
  · obtain ⟨hst, -, hres, hlv, hsame, hother⟩ := releaseNow_says s cid
    exact Does.of_next (hrelease _ (release_settled h hp hm)) ⟨hst, hres, hlv, hsame, hother⟩
  · refine hspill _ ((spill_allocated h).trans ?_)
    rw [hm]
    rfl
  · refine hspill _ ((spill_allocated h).trans ?_)
    rw [hm, hcold]
    rfl
  · refine hspill _ ((spill_allocated h).trans ?_)
    rw [hm, hcold, atLevel_none.mpr h1]
    rfl
  · refine Does.of_next (hspill _ ((spill_allocated h).trans ?_)) (startSpill_shows F.CHW_CTX_CMD_SPILL cid cid (by decide) rfl)
    rw [hm, hcold, if_neg (by decide), if_neg (by decide), if_neg fun h0 => atLevel_none.mp h0 h1]
  · refine hload _ ((load_allocated h).trans ?_)
    rw [ha]
    rfl
  · refine hload _ ((load_allocated h).trans ?_)
    rw [ha, atLevel_none.mpr h2, atLevel_none.mpr h3]
    rfl
  · refine hload _ ((load_allocated h).trans ?_)
    rw [ha, if_neg (by decide)]
    refine if_neg fun h0 => ?_
    obtain ⟨h2, h3⟩ := Bool.and_eq_true_iff.mp h0
    exact h23.elim (atLevel_none.mp h2) (atLevel_none.mp h3)
  · refine hpublish _ ?_
    unfold publish
    rw [if_pos hr]
    rfl
  · refine hpublish _ ?_
    unfold publish
    rw [hr]
    rfl

end Sys2Proof.Machine
end

section
/-! PROOFS.  Control copies, spilling and reloading. -/

namespace Sys2Proof.Machine

open Safety

set_option Elab.async false

/-! ## Control copies -/

/-- A page that no frame holds is settled as it is. -/
theorem settlePage_none {s : State} {cid v : Nat} (h : ((frames s).filter fun i => holds s i cid v) = []) :
    settlePage s cid v = s := by
  unfold settlePage
  rw [h]
  rfl

/-- CHW writes the word of the next control copy. -/
theorem ctlWrite_reached {s : State} {cid k v : Nat} (h : chwReach s cid = true)
    (hfr : ((frames s).filter fun i => holds s i cid 0) = []) (hk : k < 128)
    (hbank : bankMode s (s.rd I.mapPage (16 * cid) / 2048) ≠ 1) :
    ctlWrite s cid k v = s.writeLE (4096 * s.rd I.mapPage (16 * cid) + 0x200 + 4 * k) 4 v := by
  have haddr : pageAddr s cid 0 = 4096 * s.rd I.mapPage (16 * cid) := rfl
  unfold ctlWrite
  rw [if_pos h]
  dsimp only
  rw [settlePage_none hfr, haddr, cstTouch_cold]
  rwa [show (4096 * s.rd I.mapPage (16 * cid) + 0x200 + 4 * k) / 0x800000 = s.rd I.mapPage (16 * cid) / 2048 by omega]

theorem chwCtlWrite_selected {s : State} {ini : Init} {k cid : Nat} (hf : s.fabric = true) (hk : selCopy ini = some k)
    (hi : s.rd F.CHW_SELECT_INDEX k = cid) (hc : cid < 32768) (w : BitVec 7) (v : Word) :
    exec (.chwCtlWrite ini w v) s = .next (ctlWrite s cid w.toNat v.toNat) := by
  show execChwCtlWrite ini w v s = _
  unfold execChwCtlWrite
  rw [sel_context hk hi hc]
  exact if_pos hf

/-! ## Spilling -/

section
variable {s : State}

theorem spillPressure_off (h : s.fabric = false ∨ maySpill s = false) : exec .spillPressure s = .next (puts s [(I.spillRun, 0, 0)]) := by
  show execSpillPressure s = _
  unfold execSpillPressure
  refine if_pos ?_
  rcases h with h | h <;> simp [h]

section
variable (hf : s.fabric = true) (hm : maySpill s = true)
include hf hm

theorem spillPressure_rest (hlow : s.rd F.CPG_SPILLCFG_LOW ≤ freePages s) (hrun : s.rd I.spillRun = 0) :
    exec .spillPressure s = .next s := by
  show execSpillPressure s = _
  unfold execSpillPressure
  dsimp only
  rw [hf, hm, if_neg (by decide), if_neg (Nat.not_lt.mpr hlow), on_of_zero hrun]
  rfl

theorem spillPressure_high (hlow : s.rd F.CPG_SPILLCFG_LOW ≤ freePages s) (hrun : s.rd I.spillRun = 1)
    (hhigh : s.rd F.CPG_SPILLCFG_HIGH ≤ freePages s) : exec .spillPressure s = .next (puts s [(I.spillRun, 0, 0)]) := by
  show execSpillPressure s = _
  unfold execSpillPressure
  dsimp only
  rw [hf, hm, if_neg (by decide), if_neg (Nat.not_lt.mpr hlow), on_of_one hrun, if_pos rfl, if_neg (Nat.not_lt.mpr hhigh)]
  rfl

theorem spillPressure_low (hlow : freePages s < s.rd F.CPG_SPILLCFG_LOW) (hhigh : freePages s < s.rd F.CPG_SPILLCFG_HIGH) :
    exec .spillPressure s = .next (match coldest s none with
      | some c => startSpill (s.wr I.spillRun 0 1) c
      | none => (s.wr I.spillRun 0 1).wr I.spillRun 0 0) := by
  have hon : (s.wr I.spillRun 0 1).on I.spillRun = true := on_of_one (State.rd_wr_same _ _ _ _)
  have hsame : (s.wr I.spillRun 0 1).rd F.CPG_SPILLCFG_HIGH = s.rd F.CPG_SPILLCFG_HIGH := State.rd_wr_cell _ _ _ _ _ _ (by decide)
  show execSpillPressure s = _
  unfold execSpillPressure
  dsimp only
  rw [hf, hm, if_neg (by decide), if_pos hlow, State.set_eq_wr, hon, if_pos rfl, hsame, if_pos hhigh, coldest_spillRun _ none]
  cases coldest s none <;> rfl
end

/-! ## Reloading -/

/-- The cells that bind a page which is on its way back. -/
def reloadCells : List Fld :=
  [I.mapLvl, I.mapPage, I.mapDirty, I.pgUse, I.bankBusy, F.CPG_POOLUSE_USED]

/-- The cells of the movement towards CST. -/
def arrivalCells : List Fld := [I.mapLvl, I.mapMove, F.CPG_STAT_RELOADWAIT]

/-- A page starts its way back to a free page. -/
theorem startReload_page (c v : Nat) (h : ∃ n, n < 32768 ∧ bankOk s (n / 2048) = true ∧ s.rd I.pgUse n = 0 ∧ s.rd I.pgBad n = 0) :
    ∃ n x p y, (n < 32768 ∧ bankOk s (n / 2048) = true ∧ s.rd I.pgUse n = 0 ∧ s.rd I.pgBad n = 0) ∧
      startReload s c v = puts (puts { s with freeCtr := s.freeCtr + 1 } [(I.mapLvl, 16 * c + v, 1), (I.mapPage, 16 * c + v, n),
        (I.mapDirty, 16 * c + v, 0), (I.pgUse, n, 16 * c + v + 1), (I.bankBusy, n / 2048, x), (F.CPG_POOLUSE_USED, p, y)])
        [(I.mapLvl, 16 * c + v, 3), (I.mapMove, 16 * c + v, 2), (F.CPG_STAT_RELOADWAIT, 0, 0)] := by
  obtain ⟨n, hpick, hn⟩ := pickPage_some s (bankOk s) h
  refine ⟨n, s.rd I.bankBusy (n / 2048) + 1, s.rd I.ctxPool c,
    (bindPage { s with freeCtr := s.freeCtr + 1 } c v n).rd F.CPG_POOLUSE_USED (s.rd I.ctxPool c) + 1, hn, ?_⟩
  unfold startReload
  rw [hpick]
  dsimp only
  unfold useMore
  generalize (bindPage { s with freeCtr := s.freeCtr + 1 } c v n).rd F.CPG_POOLUSE_USED (s.rd I.ctxPool c) + 1 = y
  generalize s.rd I.ctxPool c = p
  unfold bindPage
  rfl

/-- Without room, spilling or anything to spill, the reload waits, or the LOAD that alone asked for it fails. -/
theorem reloadShort_stuck (hm : maySpill s = false) (hs : spilling s = []) (c : Nat) (l : Bool) :
    reloadShort s c l = if l then cmdEnd s F.CHW_CTX_CMD_LOAD c 1
      else puts s [(F.CPG_STAT_RELOADWAIT, 0, 1), (F.CPG_IRQSTAT_RELOADWAIT, 0, 1)] := by
  unfold reloadShort
  rw [hm, hs]
  rfl
end

/-- Settles O39. -/
theorem controlWritesSpillsAndReloads : Obligations.ControlWritesSpillsAndReloads := by
  unfold Obligations.ControlWritesSpillsAndReloads
  refine ⟨fun s ini k cid w v hf hk hi hc => ⟨fun hr => ?_, fun hr hfr hbank => ?_⟩, fun s => ⟨spillPressure_off, fun hf hm =>
    ⟨spillPressure_rest hf hm, fun hlow hhigh => ⟨fun hcold => ?_, fun cid hcold => ?_⟩,
      fun hrun hlow hhigh => spillPressure_high hf hm hlow hrun hhigh⟩⟩, fun s cid v => ?_⟩
  · refine (chwCtlWrite_selected hf hk hi hc w v).trans (congrArg _ ?_)
    unfold ctlWrite
    rw [hr]
    rfl
  · refine Does.of_next ((chwCtlWrite_selected hf hk hi hc w v).trans
      (congrArg _ (ctlWrite_reached hr hfr (by have := w.isLt; omega) hbank))) ⟨?_, fun x hx => ?_, ?_⟩
    · rw [State.readLE_writeLE]
      exact Nat.mod_eq_of_lt v.isLt
    · rw [State.byte_writeLE, if_neg (by omega)]
    · exact State.writeBytes_same _ _ _
  · have h := spillPressure_low hf hm hlow hhigh
    rw [hcold] at h
    exact Does.of_next h ⟨State.rd_wr_same _ _ _ _, (OnlyCells.wr (.refl s _) (by simp)).wr (by simp)⟩
  · have h := spillPressure_low hf hm hlow hhigh
    rw [hcold] at h
    exact Does.of_next h (startSpill_shows I.spillRun 0 cid (by decide) rfl)
  dsimp only
  have hload : s.on F.CHW_CTX_CMD_LOAD cid.toNat = decide (s.rd F.CHW_CTX_CMD_LOAD cid.toNat = 1) := on_flag s _ rfl
  have hlvl : lvl s cid.toNat v.val = s.rd I.mapLvl (16 * cid.toNat + v.val) := rfl
  refine ⟨fun h => ?_, fun hf h2 harea hask => ?_⟩
  · show execPageReload cid v s = _
    unfold execPageReload
    dsimp only
    refine if_neg fun hall => ?_
    simp only [hlvl, hload, Bool.and_eq_true, Bool.or_eq_true, beq_iff_eq, decide_eq_true_eq] at hall
    obtain ⟨⟨⟨-, h2⟩, -⟩, hask⟩ := hall
    exact h.elim (fun h => h h2) fun h => h hask
  have hgo : exec (.pageReload cid v) s = if fitsNow s 1 (s.rd I.ctxPool cid.toNat) && decide (inflight s < 1024) then
      Host.Outcome.next (startReload s cid.toNat v.val)
      else .next (reloadShort s cid.toNat (s.on F.CHW_CTX_CMD_LOAD cid.toNat && !wanted s cid.toNat v.val)) := by
    show execPageReload cid v s = _
    unfold execPageReload
    dsimp only
    refine if_pos ?_
    rw [hlvl, hload]
    simp [hf, h2, harea, hask]
  refine ⟨fun hroom hpage => ?_, fun hroom hm hs => ?_⟩
  · obtain ⟨n, x, p, y, ⟨hn, hb, hu, hbad⟩, hnext⟩ := startReload_page cid.toNat v.val hpage
    rw [hnext, if_pos (by simp [hroom])] at hgo
    refine Does.of_next hgo ⟨?_, ?_, ?_, ?_, n, hn, hb, hu, hbad, ?_⟩
    · exact Eq.trans (puts_rd_at arrivalCells 0 (by decide)) rfl
    · exact Eq.trans (puts_rd_at arrivalCells 1 (by decide)) rfl
    · exact Eq.trans (puts_rd_at arrivalCells 2 (by decide)) rfl
    · rw [puts_mem, puts_mem]
    · rw [puts_rd_other arrivalCells _ _ (by decide)]
      exact Eq.trans (puts_rd_at reloadCells 1 (by decide)) (Nat.mod_eq_of_lt (show n < 2 ^ 23 by omega))
  · rw [if_neg (by simpa using hroom), reloadShort_stuck hm hs] at hgo
    refine ⟨fun hw => hgo.trans ?_, fun hw => hgo.trans ?_⟩
    · rw [hw, Bool.not_true, Bool.and_false]
      rfl
    · have h1 := hask.resolve_left (by rw [hw]; exact Bool.false_ne_true)
      rw [hw, hload, decide_eq_true h1]
      rfl

end Sys2Proof.Machine
end

section
/-! PROOFS.  Staging into frames, write-back, and pages that move between CST and DRAM. -/

namespace Sys2Proof.Machine

open Safety

set_option Elab.async false

/-! ## Staging -/

section
variable {s : State} {c t : Nat}

theorem provAgain_none (h : s.nonzero I.tProv = []) : provAgain s c = s := by
  unfold provAgain
  rw [h]
  rfl

/-- A page in CST needs no first access. -/
theorem touchAll_present {cid v : Nat} (h : lvl s cid v = 1) : touchAll s cid [v] = s := by
  show faultPage s cid v = s
  unfold faultPage untouched
  rw [h]
  rfl

/-- A set of one page without a copy on the core takes the frame that is chosen. -/
theorem giveSet_one {cid owner st v i : Nat} {reserve : Bool} (hc : cachedCopy s c cid v = none)
    (hi : chooseFrame s c (s.rd I.mapMem (entry cid v)) [] reserve = some i) :
    giveSet s c cid owner st reserve [v] = some (giveFrame s i cid v owner st) := by
  have hhit : [v].filterMap (fun v => cachedCopy s c cid v) = [] := by simp [hc]
  have hrest : [v].filter (fun v => (cachedCopy s c cid v).isNone) = [v] := by simp [hc]
  unfold giveSet
  rw [hhit, hrest]
  show givePages s c cid owner st [] reserve [v] = _
  unfold givePages
  rw [hi]
  rfl

/-- The cells of a frame that is given to a page. -/
def frameCells (i : Nat) : List (Fld × Nat) :=
  [(F.CPG_FRAME_STATE, i), (F.CPG_FRAME_DIRTY, i), (F.CPG_FRAME_VPAGE, i), (F.CPG_FRAME_CID, i), (I.frOwner, i), (I.frIn, i),
   (I.frOut, i), (I.frLru, i), (I.useSeq, 0)]

/-- The cells of a task whose set is staged. -/
def setCells (t : Nat) : List (Fld × Nat) := [(I.jCv, t), (I.jCid, t), (I.stSet, t), (I.stCore, t)]

/-- What a task's set of one page shows once it is staged in frame i. -/
def StagedIn (s u : State) (c t v i : Nat) : Prop :=
  u.rd F.CPG_FRAME_STATE i = fSTAGED ∧ u.rd F.CPG_FRAME_CID i = nextCid s t ∧ u.rd F.CPG_FRAME_VPAGE i = v ∧
    u.rd I.frOwner i = t + 1 ∧ u.rd I.frIn i = 1 ∧ u.rd I.stSet t = 2 ^ v ∧ u.rd I.stCore t = c + 1 ∧
    OnlyCells s u (frameCells i ++ setCells t)

theorem nextCid_lt (s : State) (t : Nat) : nextCid s t < 2 ^ 15 := by
  unfold nextCid
  split
  · exact State.rd_lt s I.jCid t
  · exact State.rd_lt s F.TSU_T_CTX_CID t

/-- The set of one page that is in CST is staged. -/
theorem stageSet_one {v : Fin 16} {i : Nat} (hpages : setPages s t = [v.val]) (hlvl : lvl s (nextCid s t) v.val = 1)
    (hwait : stagingWaits s t (nextCid s t) v.val = false) (hcopy : cachedCopy s c (nextCid s t) v.val = none)
    (hi : chooseFrame s c (s.rd I.mapMem (16 * nextCid s t + v.val)) [] (reserveOk s c) = some i) (hin : inflight s < 1024)
    (ht : t < 65536) (hc : c < 64) : StagedIn s (stageSet s c t) c t v.val i := by
  obtain ⟨hst, hcid, hvp, how, hfi, honly, hfl⟩ := giveFrame_says s i (nextCid s t) v.val (t + 1) fSTAGED
    (nextCid_lt s t) v.isLt (by omega) (by decide)
  have hgo : ¬ ([v.val].any fun v => stagingWaits s t (nextCid s t) v || lvl s (nextCid s t) v != 1) = true := by
    simp [hwait, hlvl]
  have hgive := giveSet_one (owner := t + 1) (st := fSTAGED) hcopy hi
  generalize giveFrame s i (nextCid s t) v.val (t + 1) fSTAGED = g at *
  obtain ⟨u, hu, hother, hstage⟩ : ∃ u, (if jobInProgress s t then g else (g.wr I.jCv t 1).wr I.jCid t (nextCid s t)) = u ∧
      OnlyCells g u [(I.jCv, t), (I.jCid, t)] ∧ stageSet s c t = (u.wr I.stSet t (2 ^ v.val)).wr I.stCore t (c + 1) := by
    refine ⟨_, rfl, ?_, ?_⟩
    · exact OnlyCells.ite (.refl _ _) (((OnlyCells.refl g _).wr (by simp)).wr (by simp))
    · unfold stageSet
      dsimp only
      rw [hpages, touchAll_present hlvl, hpages, if_neg hgo, hgive]
      dsimp only
      rw [if_neg (by omega), maskOf_one]
  have hkeep : ∀ f ∈ [F.CPG_FRAME_STATE, F.CPG_FRAME_CID, F.CPG_FRAME_VPAGE, I.frOwner, I.frIn],
      (stageSet s c t).rd f i = g.rd f i := by
    intro f hf
    have hne : ∀ f ∈ [F.CPG_FRAME_STATE, F.CPG_FRAME_CID, F.CPG_FRAME_VPAGE, I.frOwner, I.frIn],
      ∀ h ∈ [I.jCv, I.jCid, I.stSet, I.stCore], h.id ≠ f.id := by decide
    rw [hstage, State.rd_wr_cell _ _ _ _ _ _ (hne f hf _ (by simp)), State.rd_wr_cell _ _ _ _ _ _ (hne f hf _ (by simp))]
    refine sameCells_rd hother.2 f i fun p hp => hne f hf p.1 ?_
    simp only [List.mem_cons, List.not_mem_nil, or_false] at hp
    rcases hp with rfl | rfl <;> simp
  refine ⟨(hkeep _ (by simp)).trans hst, (hkeep _ (by simp)).trans hcid, (hkeep _ (by simp)).trans hvp,
    (hkeep _ (by simp)).trans how, (hkeep _ (by simp)).trans hfi, ?_, ?_, ?_⟩
  · rw [hstage, State.rd_wr_cell _ _ _ _ _ _ (by decide), State.rd_wr_same]
    exact Nat.mod_eq_of_lt (Nat.pow_lt_pow_right (by decide) v.isLt)
  · rw [hstage, State.rd_wr_same]
    exact Nat.mod_eq_of_lt (show c + 1 < 2 ^ 7 by omega)
  · rw [hstage]
    refine OnlyCells.wr (OnlyCells.wr (OnlyCells.trans (honly.mono ?_) (hother.mono ?_)) ?_) ?_
    · exact fun p hp => List.mem_append_left _ hp
    · exact fun p hp => List.mem_append_right _ (by
        simp only [setCells, List.mem_cons, List.not_mem_nil, or_false] at hp ⊢
        rcases hp with rfl | rfl <;> simp)
    · simp [setCells]
    · simp [setCells]

/-- With a task's set due and the cluster awake, SET_STAGE stages it. -/
theorem setStage_due {c : Fin 64} (hs : s.serving = true) (hn : nextTask s c.val = some t) (hset : setCtx s t = true)
    (hnot : s.rd I.stCore t = 0) (hcl : cluSt s (c.val / 8) ≠ clPWROFF) (hdr : s.rd F.CLU_STAT_DRAINWB (c.val / 8) = 0)
    (hdone : (stageSet s c.val t).rd I.stCore t = c.val + 1) : exec (.setStage c) s = .next (stageSet s c.val t) := by
  have hgo : ¬ (cluSt s (c.val / 8) == clPWROFF || s.on F.CLU_STAT_DRAINWB (c.val / 8)) = true := by
    rw [on_of_zero hdr, Bool.or_false, beq_iff_eq]
    exact hcl
  show execSetStage c s = _
  unfold execSetStage
  dsimp only
  rw [hn]
  dsimp only
  rw [hs, hset, on_of_zero hnot, if_neg (by decide), if_neg (by decide), if_neg hgo, on_of_ne_zero (by omega)]
  rfl
end

/-! ## The obligation -/

section
variable {s : State}

/-- Without a change of its level, a page has not moved. -/
theorem moveDone_none {cid v : Nat} (h : s.rd I.mapMove (16 * cid + v) = 0) : moveDone s cid v = s := by
  unfold moveDone entry
  rw [h]
  rfl

theorem moveDone_back {cid v : Nat} (h : s.rd I.mapMove (16 * cid + v) = 2) :
    moveDone s cid v = touchedArrive (commandsGoOn (reloaded s cid v) cid) := by
  unfold moveDone entry
  rw [h]
  rfl

/-- The cells of a page that is back in CST. -/
def backCells : List Fld := [I.mapLvl, I.mapMove, F.CPG_RELOADCNT_COUNT]

/-- A page that is back in CST has its copy there. -/
theorem reloaded_copies {cid v : Nat} (hr : s.rd F.CPG_RELOADCNT_COUNT + 2 < 2 ^ 32)
    (hb : bankMode s (4096 * s.rd I.mapPage (16 * cid + v) / 0x800000) ≠ 1) :
    reloaded s cid v = puts (s.copyMem (s.rd F.CPG_SPILLBASE_BASE * 65536 + 4096 * (16 * cid + v)) (4096 * s.rd I.mapPage (16 * cid + v)) 4096)
      [(I.mapLvl, 16 * cid + v, 1), (I.mapMove, 16 * cid + v, 0), (F.CPG_RELOADCNT_COUNT, 0, s.rd F.CPG_RELOADCNT_COUNT + 1)] := by
  have hpage : pageAddr s cid v = 4096 * s.rd I.mapPage (16 * cid + v) := rfl
  have hslot : slotAddr s cid v = s.rd F.CPG_SPILLBASE_BASE * 65536 + 4096 * (16 * cid + v) := rfl
  unfold reloaded
  dsimp only
  rw [hpage, hslot]
  generalize hw : s.copyMem (s.rd F.CPG_SPILLBASE_BASE * 65536 + 4096 * (16 * cid + v)) (4096 * s.rd I.mapPage (16 * cid + v)) 4096 = w
  have hwrd : ∀ g j, w.rd g j = s.rd g j := fun g j => by rw [← hw, State.copyMem_rd]
  have hcold : bankMode w (4096 * s.rd I.mapPage (16 * cid + v) / 0x800000) ≠ 1 := by
    unfold bankMode at hb ⊢
    rwa [hwrd]
  rw [cstTouch_cold _ _ hcold]
  have hcnt : ((w.wr I.mapLvl (entry cid v) 1).wr I.mapMove (entry cid v) 0).rd F.CPG_RELOADCNT_COUNT = s.rd F.CPG_RELOADCNT_COUNT := by
    rw [State.rd_wr_cell _ _ _ _ _ _ (by decide), State.rd_wr_cell _ _ _ _ _ _ (by decide), hwrd]
  unfold cpgCount
  rw [bumpBy_room _ _ _ _ _ (by rw [hcnt]; exact hr), hcnt]
  rfl

/-- Without a job on a core and without a command in progress, that is all. -/
theorem moveDone_copies {cid v : Nat} (hm : s.rd I.mapMove (16 * cid + v) = 2) (hl : s.rd F.CHW_CTX_CMD_LOAD cid = 0)
    (hsp : s.rd F.CHW_CTX_CMD_SPILL cid = 0) (hrel : s.rd F.CHW_CTX_CMD_RELEASE cid = 0) (hal : s.nonzero F.CHW_CTX_CMD_ALLOC = [])
    (hj : ∀ j, j < 64 → s.rd I.cJob j = 0) (hr : s.rd F.CPG_RELOADCNT_COUNT + 2 < 2 ^ 32)
    (hb : bankMode s (4096 * s.rd I.mapPage (16 * cid + v) / 0x800000) ≠ 1) :
    moveDone s cid v = reloaded s cid v := by
  rw [moveDone_back hm]
  have hre := reloaded_copies hr hb
  have hcell : ∀ g j, (∀ f ∈ backCells, f.id ≠ g.id) → (reloaded s cid v).rd g j = s.rd g j := fun g j hg => by
    rw [hre, puts_rd_other backCells g j hg, State.copyMem_rd]
  have hnz : (reloaded s cid v).nonzero F.CHW_CTX_CMD_ALLOC = [] := by
    rw [hre, nonzero_puts _ _ _ (by
      intro p hp
      exact (show ∀ f ∈ backCells, f.id ≠ F.CHW_CTX_CMD_ALLOC.id by decide) _ (List.mem_map_of_mem (f := Prod.fst) hp)), nonzero_copyMem, hal]
  rw [commandsGoOn_calm _ _ ((hcell _ _ (by decide)).trans hsp) ((hcell _ _ (by decide)).trans hl) ((hcell _ _ (by decide)).trans hrel) hnz,
    touchedArrive_idle _ fun d hd => (hcell _ _ (by decide)).trans (hj d hd)]
end

/-- The cells of a frame that has been written back. -/
def writtenCells : List Fld :=
  [F.CPG_FRAME_DIRTY, I.frOut, I.mapDirty, F.CPG_FRAME_STATE, F.CPG_FRAME_DIRTY, I.frOwner, I.frLru, I.useSeq, F.CPG_WBCNT_COUNT]

/-- Settles O40. -/
theorem framesAreStagedAndWrittenBack : Obligations.FramesAreStagedAndWrittenBack := by
  unfold Obligations.FramesAreStagedAndWrittenBack
  refine ⟨fun s c hserv hprov => ⟨fun hn => ?_, fun t v i hn hset hnot hcl hdr hpages hlvl hwait hcopy hi hin ht => ?_⟩, fun s c f => ?_⟩
  · show execSetStage c s = _
    unfold execSetStage
    dsimp only
    rw [hn]
    dsimp only
    rw [if_pos hserv, provAgain_none hprov]
  · have hstaged := stageSet_one hpages hlvl hwait hcopy hi hin ht c.isLt
    obtain ⟨-, -, -, -, -, -, hcore, -⟩ := id hstaged
    exact Does.of_next (setStage_due hserv hn hset hnot hcl hdr hcore) hstaged
  dsimp only
  refine ⟨fun h => ?_, fun h hawake hcnt how => ?_, fun d p h => congrArg _ (moveDone_none h), fun d p hm hl hsp hrel hal hj hr hb => ?_,
    fun hin => ?_, fun h => ?_, fun h hst hrv hawake hothers hcnt hj => ?_⟩
  · exact if_neg (by rw [show s.on I.frIn (frameNo c.val f.val) = false from on_of_zero h]; exact Bool.false_ne_true)
  · refine (if_pos (on_of_one h)).trans (congrArg _ ((frameFilled_says s _ hawake hcnt).trans (if_neg ?_)))
    rcases how with h0 | hrun
    · rw [on_of_zero h0]
      exact Bool.false_ne_true
    · simp only [Bool.and_eq_true, beq_iff_eq]
      exact fun h => hrun h.1.2
  · exact congrArg _ ((moveDone_copies hm hl hsp hrel hal hj hr hb).trans (reloaded_copies hr hb))
  · obtain ⟨hout, -, honly, -⟩ := writeBacks_says c.val 16 s (Nat.le_refl _) hin
    exact Does.of_next (t := s.over (List.range 16) fun s f => writeBackStart s (frameNo c.val f) (bitOf (0 : BitVec 16).toNat f)) rfl
      ⟨hout, honly⟩
  · exact if_neg (by rw [show s.on I.frOut (frameNo c.val f.val) = false from on_of_zero h]; exact Bool.false_ne_true)
  · have hback := writeBackFrame_says s _ hst hrv hawake hothers hcnt
    refine (if_pos (on_of_one h)).trans (congrArg _ ?_)
    rw [touchedArrive_idle _ fun d hd => ?_]
    · exact hback
    · refine Eq.trans (congrArg (State.rd · I.cJob d) hback) ?_
      rw [puts_rd_other writtenCells _ _ (by decide)]
      split
      · exact hj d hd
      · exact hj d hd

end Sys2Proof.Machine
end

section
/-! PROOFS.  Errors of the memories. -/

namespace Sys2Proof.Machine

open Safety

set_option Elab.async false

/-- The cells of CPG's error record. -/
def eccCells : List Fld :=
  [F.CPG_ECCREC_VALID, F.CPG_ECCREC_MEM, F.CPG_ECCREC_CV, F.CPG_ECCREC_CID, F.CPG_ECCADDR_LO_ADDR, F.CPG_ECCADDR_HI_ADDR,
   F.CPG_IRQSTAT_ECCUNC, F.CPG_ECCREC_OVF]

section
variable {s : State}

/-- CPG's record of an error writes its own cells. -/
theorem eccRecorded_cells {a mem cv cid : Nat} : ∀ p ∈ eccRecorded s a mem cv cid, p.1 ∈ eccCells := by
  unfold eccRecorded eccCells
  split <;> simp

theorem eccRecorded_rd {a mem cv cid : Nat} (g : Fld) (j : Nat) (hg : ∀ f ∈ eccCells, f.id ≠ g.id) :
    (puts s (eccRecorded s a mem cv cid)).rd g j = s.rd g j :=
  puts_cell _ _ _ _ fun p hp => hg _ (eccRecorded_cells p hp)

theorem eccRecorded_nonzero {a mem cv cid : Nat} (g : Fld) (hg : ∀ f ∈ eccCells, f.id ≠ g.id) :
    (puts s (eccRecorded s a mem cv cid)).nonzero g = s.nonzero g :=
  nonzero_puts _ _ _ fun p hp => hg _ (eccRecorded_cells p hp)

/-- An error read by the host acts on the memory's owner. -/
theorem ecc_host (hf : s.fabric = true) (a : PAddr) :
    exec (.eccUncorrectable a (.init .host)) s = .next (eccAct s a.toNat (.init .host)) := if_pos hf

section
variable (h3 : bitOf (s.rd F.MLS_ERRSEL_SEL) 3 = false)
include h3

/-- A free page is retired. -/
theorem eccCst_free {a : Nat} (hu : s.rd I.pgUse (a / 4096) = 0) (hb : s.rd I.pgBad (a / 4096) = 0) :
    eccCst s a = puts s (eccRecorded s a 0 0 0 ++ [(I.pgBad, a / 4096, 1),
      (I.bankBusy, a / 4096 / 2048, s.rd I.bankBusy (a / 4096 / 2048) + 1), (F.CPG_IRQSTAT_RETIRE, 0, 1)]) := by
  have hrec : eccRecord s a 0 0 0 = puts s (eccRecorded s a 0 0 0) := eccRecord_says _ _ _ _ _ h3
  have hrd := fun g j hg => eccRecorded_rd (s := s) (a := a) (mem := 0) (cv := 0) (cid := 0) g j hg
  unfold eccCst
  dsimp only
  rw [on_of_zero hu, if_neg Bool.false_ne_true, hrec, puts_append]
  generalize puts s (eccRecorded s a 0 0 0) = u at *
  rw [on_of_zero ((hrd _ _ (by decide)).trans hb), if_neg Bool.false_ne_true, hrd _ _ (by decide)]
  rfl

/-- A context of which nothing is in use is quarantined. -/
theorem eccCst_context {a e : Nat} (hu : s.rd I.pgUse (a / 4096) = e + 1) (hst : ctxState s (e / 16) ≠ cQUAR)
    (hfr : frames s = []) (htk : tasks s = []) (hd : ∀ d, d < 32 → dmaActive s d = false) (hq : s.rd F.CPG_QUARREC_VALID = 0)
    (h4 : bitOf (s.rd F.MLS_ERRSEL_SEL) 4 = false) : eccCst s a =
      puts s (eccRecorded s a 0 1 (e / 16) ++ [(F.CHW_CTX_STAT_STATE, e / 16, cQUAR), (F.CPG_QUARREC_VALID, 0, 1),
        (F.CPG_QUARREC_CID, 0, e / 16), (F.CPG_IRQSTAT_QUAR, 0, 1)]) := by
  have hrec : eccRecord s a 0 1 (e / 16) = puts s (eccRecorded s a 0 1 (e / 16)) := eccRecord_says _ _ _ _ _ h3
  unfold eccCst
  dsimp only
  rw [on_of_ne_zero (by omega), if_pos rfl, hu, Nat.add_sub_cancel, hrec, puts_append]
  have hrd := fun g j hg => eccRecorded_rd (s := s) (a := a) (mem := 0) (cv := 1) (cid := e / 16) g j hg
  have hnz := fun g hg => eccRecorded_nonzero (s := s) (a := a) (mem := 0) (cv := 1) (cid := e / 16) g hg
  generalize puts s (eccRecorded s a 0 1 (e / 16)) = u at *
  rw [if_neg (by unfold ctxState at hst ⊢; rw [hrd _ _ (by decide)]; simpa using hst)]
  refine quarantine_plain u _ ((hnz _ (by decide)).trans hfr) ((hnz _ (by decide)).trans htk) (fun n hn => ?_)
    ((hrd _ _ (by decide)).trans hq) (by rw [hrd _ _ (by decide)]; exact h4)
  have h := hd n hn
  unfold dmaActive at h ⊢
  rwa [hrd _ _ (by decide)]
end

/-- The first error of DRAM is recorded by DMC. -/
theorem eccDmc_first {a : Nat} (hc : s.rd F.DMC_ECCUNC_COUNT + 2 < 2 ^ 32) (hv : s.rd F.DMC_ERRADDR_HI_VALID = 0) :
    eccDmc s a = puts s [(F.DMC_ECCUNC_COUNT, 0, s.rd F.DMC_ECCUNC_COUNT + 1), (F.DMC_IRQSTAT_ECCUNC, 0, 1),
      (F.DMC_ERRADDR_HI_VALID, 0, 1), (F.DMC_ERRADDR_HI_ADDR, 0, a / 8 * 8 / 2 ^ 32), (F.DMC_ERRADDR_LO_ADDR, 0, a / 8 * 8)] := by
  have hvalid : ((s.wr F.DMC_ECCUNC_COUNT 0 (s.rd F.DMC_ECCUNC_COUNT + 1)).wr F.DMC_IRQSTAT_ECCUNC 0 1).on F.DMC_ERRADDR_HI_VALID = false :=
    on_of_zero (by rw [State.rd_wr_cell _ _ _ _ _ _ (by decide), State.rd_wr_cell _ _ _ _ _ _ (by decide), hv])
  unfold eccDmc
  rw [bump_room _ _ _ _ hc]
  dsimp only
  simp only [State.set_eq_wr]
  exact if_neg (by rw [hvalid]; exact Bool.false_ne_true)

/-- A scrubbed page counts the words it corrects. -/
theorem scrub_counts {n : Nat} (h : s.rd F.CPG_ECCCOR_COUNT + n + 1 < 2 ^ 32) :
    cpgCount (s.wr I.scrubPage 0 (s.rd I.scrubPage + 1)) F.CPG_ECCCOR_COUNT n =
      puts s [(I.scrubPage, 0, s.rd I.scrubPage + 1), (F.CPG_ECCCOR_COUNT, 0, s.rd F.CPG_ECCCOR_COUNT + n)] := by
  have hcnt : (s.wr I.scrubPage 0 (s.rd I.scrubPage + 1)).rd F.CPG_ECCCOR_COUNT = s.rd F.CPG_ECCCOR_COUNT :=
    State.rd_wr_cell _ _ _ _ _ _ (by decide)
  unfold cpgCount
  rw [bumpBy_room _ _ _ _ _ (by rw [hcnt]; exact h), hcnt]
  rfl
end

/-- Settles O41. -/
theorem memoryErrorsAreContained : Obligations.MemoryErrorsAreContained := by
  unfold Obligations.MemoryErrorsAreContained
  intro s h3 h4 h5
  refine ⟨fun hf => ⟨fun a => ⟨fun ha => ?_, fun ha => ?_, fun ha hu hb => ?_, fun e ha hu hst hfr htk hd hq => ?_, fun ha hc hv => ?_⟩,
    fun bad w n h => ?_, fun w n h hc => ?_⟩, fun c f t => ⟨fun h => ?_, fun hserv hbad hj hcan hre hrun => ?_⟩⟩
  · refine (ecc_host hf a).trans (congrArg _ ?_)
    unfold eccAct
    rw [if_neg (by omega), if_pos (by simpa using ha)]
    exact eccRecord_says _ _ _ _ _ h3
  · refine (ecc_host hf a).trans (congrArg _ ?_)
    unfold eccAct
    rw [if_neg (by omega), if_neg (by simp; omega), if_pos (by simpa using ha)]
    exact eccRecord_says _ _ _ _ _ h3
  · refine (ecc_host hf a).trans (congrArg _ ?_)
    unfold eccAct
    rw [if_pos ha]
    exact eccCst_free h3 hu hb
  · refine (ecc_host hf a).trans (congrArg _ ?_)
    unfold eccAct
    rw [if_pos ha]
    exact eccCst_context h3 hu hst hfr htk hd hq h4
  · refine (ecc_host hf a).trans (congrArg _ ?_)
    unfold eccAct
    rw [if_neg (by omega), if_neg (by simp; omega), if_neg (by simp; omega), if_neg (by simp; omega), if_pos (by simpa using ha)]
    exact eccDmc_first hc hv
  · show execScrubPage bad w n s = _
    unfold execScrubPage
    rw [on_of_zero h, Bool.and_false]
    rfl
  · show execScrubPage false w n s = _
    unfold execScrubPage
    refine (if_pos (by rw [hf, on_of_one h]; rfl)).trans (congrArg _ (scrub_counts hc))
  · show execFrameParityError c f s = _
    unfold execFrameParityError
    refine if_neg ?_
    rcases h with h | h
    · rw [on_of_zero h, Bool.and_false, Bool.false_and]
      exact Bool.false_ne_true
    · rw [show s.on I.frBad (frameNo c.val f.val) = true from on_of_one h, Bool.not_true, Bool.and_false]
      exact Bool.false_ne_true
  · refine Does.of_next (t := frameParity s c.val (frameNo c.val f.val)) (if_pos ?_) (frameParity_says s c.val t _ h5 hj hcan hre hrun)
    rw [hserv, on_of_ne_zero (f := I.cJob) (by omega), show s.on I.frBad (frameNo c.val f.val) = false from on_of_zero hbad]
    rfl

end Sys2Proof.Machine
end

section
/-! PROOFS.  DMA channels and the DDR5 controller. -/

namespace Sys2Proof.Machine

open Safety

set_option Elab.async false

/-! ## GO and ABORT -/

/-- What a write of DMA_C_CTL stores. -/
def ctlWritten (n v : Nat) : List (Fld × Nat × Nat) :=
  [(F.DMA_C_CTL_SPHYS, n, bitN v 3), (F.DMA_C_CTL_DPHYS, n, bitN v 2), (F.DMA_C_CTL_SIG, n, bitN v 1), (F.DMA_C_CTL_IRQ, n, bitN v 0)]

/-- What a GO takes. -/
def goTaken (s : State) (ini : Init) (n v : Nat) : List (Fld × Nat × Nat) :=
  [(I.dSrc, n, sideAddr s F.DMA_C_SRC_LO_ADDR F.DMA_C_SRC_HI_ADDR n), (I.dDst, n, sideAddr s F.DMA_C_DST_LO_ADDR F.DMA_C_DST_HI_ADDR n),
   (I.dLen, n, s.rd F.DMA_C_LEN_LEN n), (I.dCtx, n, s.rd F.DMA_C_CTX_CV n * 32768 + s.rd F.DMA_C_CTX_CID n),
   (I.dCmpl, n, s.rd F.DMA_C_CMPL_FLAGS n * 65536 + s.rd F.DMA_C_CMPL_TID n), (I.dMode, n, v % 16),
   (F.DMA_C_STAT_CLASS, n, dmaClass s ini), (F.DMA_C_OFS_OFS, n, 0), (F.DMA_C_STAT_ERR, n, 0), (F.DMA_C_STAT_STATE, n, dRUN)]

/-- The cells of the registers that a write stores. -/
def ctlFlds : List Fld := [F.DMA_C_CTL_SPHYS, F.DMA_C_CTL_DPHYS, F.DMA_C_CTL_SIG, F.DMA_C_CTL_IRQ]

/-- The cells that a GO takes. -/
def takenFlds : List Fld :=
  [I.dSrc, I.dDst, I.dLen, I.dCtx, I.dCmpl, I.dMode, F.DMA_C_STAT_CLASS, F.DMA_C_OFS_OFS, F.DMA_C_STAT_ERR, F.DMA_C_STAT_STATE]

section
variable (s : State) (ini : Init) (n v : Nat)

theorem ctlWritten_rd (g : Fld) (j : Nat) (hg : ∀ f ∈ ctlFlds, f.id ≠ g.id) : (puts s (ctlWritten n v)).rd g j = s.rd g j :=
  puts_rd_other ctlFlds g j hg

theorem dmaActive_written : dmaActive (puts s (ctlWritten n v)) n = dmaActive s n := by
  unfold dmaActive
  rw [ctlWritten_rd _ _ _ _ _ (by decide)]

theorem dmaClass_written : dmaClass (puts s (ctlWritten n v)) ini = dmaClass s ini := by
  cases ini with
  | dma m => exact ctlWritten_rd _ _ _ _ _ (by decide)
  | _ => rfl

theorem low_nibble : bitN v 3 * 8 + bitN v 2 * 4 + bitN v 1 * 2 + bitN v 0 = v % 16 := by
  unfold bitN
  omega

/-- The mode that a GO takes is what was just written. -/
theorem mode_written : (puts s (ctlWritten n v)).rd F.DMA_C_CTL_SPHYS n * 8 + (puts s (ctlWritten n v)).rd F.DMA_C_CTL_DPHYS n * 4 +
    (puts s (ctlWritten n v)).rd F.DMA_C_CTL_SIG n * 2 + (puts s (ctlWritten n v)).rd F.DMA_C_CTL_IRQ n = v % 16 := by
  have hbit : ∀ k, bitN v k % 2 ^ 1 = bitN v k := fun k => Nat.mod_eq_of_lt (bitN_lt v k)
  have h3 : (puts s (ctlWritten n v)).rd F.DMA_C_CTL_SPHYS n = bitN v 3 := Eq.trans (puts_rd_at ctlFlds 0 (by decide)) (hbit 3)
  have h2 : (puts s (ctlWritten n v)).rd F.DMA_C_CTL_DPHYS n = bitN v 2 := Eq.trans (puts_rd_at ctlFlds 1 (by decide)) (hbit 2)
  have h1 : (puts s (ctlWritten n v)).rd F.DMA_C_CTL_SIG n = bitN v 1 := Eq.trans (puts_rd_at ctlFlds 2 (by decide)) (hbit 1)
  have h0 : (puts s (ctlWritten n v)).rd F.DMA_C_CTL_IRQ n = bitN v 0 := Eq.trans (puts_rd_at ctlFlds 3 (by decide)) (hbit 0)
  rw [h3, h2, h1, h0, low_nibble]

/-- The channel as a GO leaves it before its first burst. -/
def goState : State := puts s (ctlWritten n v ++ goTaken s ini n v)

theorem sideAddr_written (lo hi : Fld) (hl : ∀ f ∈ ctlFlds, f.id ≠ lo.id) (hh : ∀ f ∈ ctlFlds, f.id ≠ hi.id) :
    sideAddr (puts s (ctlWritten n v)) lo hi n = sideAddr s lo hi n := by
  unfold sideAddr
  rw [ctlWritten_rd _ _ _ _ _ hl, ctlWritten_rd _ _ _ _ _ hh]

/-- GO of an idle channel. -/
theorem dmaCtlWrite_go (ha : dmaActive s n = false) (hv : bitOf v 31 = true) : dmaCtlWrite s ini n v =
    if sideAddr s F.DMA_C_SRC_LO_ADDR F.DMA_C_SRC_HI_ADDR n % 4 != 0 || sideAddr s F.DMA_C_DST_LO_ADDR F.DMA_C_DST_HI_ADDR n % 4 != 0 ||
        s.rd F.DMA_C_LEN_LEN n % 4 != 0 then dmaEnd (goState s ini n v) n dERROR 5
    else if s.rd F.DMA_C_LEN_LEN n = 0 then dmaEnd (goState s ini n v) n dDONE 0
    else goState s ini n v := by
  have hwrite : dmaCtlWrite s ini n v = dmaGo (puts s (ctlWritten n v)) ini n := by
    unfold dmaCtlWrite
    dsimp only
    rw [ha, if_neg Bool.false_ne_true]
    exact if_pos hv
  have hmode := mode_written s n v
  have hact := dmaActive_written s n v
  have hclass := dmaClass_written s ini n v
  have hsrc := sideAddr_written s n v F.DMA_C_SRC_LO_ADDR F.DMA_C_SRC_HI_ADDR (by decide) (by decide)
  have hdst := sideAddr_written s n v F.DMA_C_DST_LO_ADDR F.DMA_C_DST_HI_ADDR (by decide) (by decide)
  have hrd := ctlWritten_rd s n v
  unfold goState
  rw [hwrite, puts_append]
  generalize puts s (ctlWritten n v) = w at *
  unfold dmaGo
  simp (disch := decide) only [State.rd_wr_cell]
  rw [hact, ha, hsrc, hdst, hclass, hmode, hrd _ _ (by decide), hrd _ _ (by decide), hrd _ _ (by decide), hrd _ _ (by decide),
    hrd _ _ (by decide)]
  rfl

/-- What the channel shows that a GO has taken. -/
def Took (v : Nat) (t : State) : Prop :=
  t.rd I.dSrc n = sideAddr s F.DMA_C_SRC_LO_ADDR F.DMA_C_SRC_HI_ADDR n ∧
    t.rd I.dDst n = sideAddr s F.DMA_C_DST_LO_ADDR F.DMA_C_DST_HI_ADDR n ∧ t.rd I.dLen n = s.rd F.DMA_C_LEN_LEN n ∧
    t.rd I.dMode n = v % 16 ∧ t.rd F.DMA_C_STAT_CLASS n = dmaClass s ini ∧ t.rd F.DMA_C_OFS_OFS n = 0

theorem dmaClass_lt : dmaClass s ini < 8 := by
  cases ini with
  | dma m => exact State.rd_lt s F.DMA_C_STAT_CLASS _
  | _ => simp [dmaClass]

theorem sideAddr_lt (lo hi : Fld) (hl : lo.w = 32) (hh : hi.w = 8) : sideAddr s lo hi n < 2 ^ 40 := by
  have h1 := State.rd_lt s lo n
  have h2 := State.rd_lt s hi n
  rw [hl] at h1
  rw [hh] at h2
  unfold sideAddr
  omega

theorem goState_took : Took s ini n v (goState s ini n v) := by
  unfold goState
  refine ⟨?_, ?_, ?_, ?_, ?_, ?_⟩
  · exact Eq.trans (puts_rd_at (ctlFlds ++ takenFlds) 4 (by decide)) (Nat.mod_eq_of_lt (sideAddr_lt _ _ _ _ rfl rfl))
  · exact Eq.trans (puts_rd_at (ctlFlds ++ takenFlds) 5 (by decide)) (Nat.mod_eq_of_lt (sideAddr_lt _ _ _ _ rfl rfl))
  · exact Eq.trans (puts_rd_at (ctlFlds ++ takenFlds) 6 (by decide)) (Nat.mod_eq_of_lt (State.rd_lt s F.DMA_C_LEN_LEN n))
  · exact Eq.trans (puts_rd_at (ctlFlds ++ takenFlds) 9 (by decide)) (Nat.mod_mod _ _)
  · exact Eq.trans (puts_rd_at (ctlFlds ++ takenFlds) 10 (by decide)) (Nat.mod_eq_of_lt (dmaClass_lt s ini))
  · exact Eq.trans (puts_rd_at (ctlFlds ++ takenFlds) 11 (by decide)) rfl

theorem goState_only : OnlyCells s (goState s ini n v) (Safety.goCells n) := by
  refine (OnlyCells.puts s _).mono fun p hp => ?_
  simp only [ctlWritten, goTaken, List.map_append, List.map_cons, List.map_nil, List.mem_append, List.mem_cons, List.not_mem_nil,
    or_false, or_assoc] at hp
  unfold Safety.goCells
  rcases hp with rfl | rfl | rfl | rfl | rfl | rfl | rfl | rfl | rfl | rfl | rfl | rfl | rfl | rfl <;> simp

theorem goState_run : (goState s ini n v).rd F.DMA_C_STAT_STATE n = dRUN ∧ (goState s ini n v).rd F.DMA_C_STAT_ERR n = 0 := by
  unfold goState
  exact ⟨Eq.trans (puts_rd_at (ctlFlds ++ takenFlds) 13 (by decide)) rfl, Eq.trans (puts_rd_at (ctlFlds ++ takenFlds) 12 (by decide)) rfl⟩

/-- Bit 1 of the mode that was taken is SIG as it was written. -/
theorem goState_sig (h : bitOf v 1 = false) : bitOf ((goState s ini n v).rd I.dMode n) 1 = false := by
  obtain ⟨-, -, -, hmode, -, -⟩ := goState_took s ini n v
  rw [hmode]
  unfold bitOf at h ⊢
  rw [beq_eq_false_iff_ne] at h ⊢
  omega
end

/-- The cells of a channel that has ended. -/
def endFlds : List Fld := [F.DMA_C_STAT_STATE, F.DMA_C_STAT_ERR, I.dWait]

/-- What an ending leaves of what a GO took. -/
theorem dmaEnd_shows (u : State) (n st err : Nat) (h : bitOf (u.rd I.dMode n) 1 = false) (hst : st < 8) (herr : err < 16) :
    let t := dmaEnd u n st err
    t.rd F.DMA_C_STAT_STATE n = st ∧ t.rd F.DMA_C_STAT_ERR n = err ∧
      (st ≠ dDONE → t.rd F.DMA_IRQSTAT_CH = setBit (u.rd F.DMA_IRQSTAT_CH) n % 2 ^ 32) ∧
      OnlyCells u t [(F.DMA_C_STAT_STATE, n), (F.DMA_C_STAT_ERR, n), (I.dWait, n), (F.DMA_IRQSTAT_CH, 0)] := by
  dsimp only
  rw [dmaEnd_plain _ _ _ _ h]
  split
  next hirq =>
    refine ⟨?_, ?_, fun _ => ?_, OnlyCells.puts _ _⟩
    · exact Eq.trans (puts_rd_at (endFlds ++ [F.DMA_IRQSTAT_CH]) 0 (by decide)) (Nat.mod_eq_of_lt hst)
    · exact Eq.trans (puts_rd_at (endFlds ++ [F.DMA_IRQSTAT_CH]) 1 (by decide)) (Nat.mod_eq_of_lt herr)
    · exact puts_rd_at (endFlds ++ [F.DMA_IRQSTAT_CH]) 3 (by decide)
  next hirq =>
    refine ⟨?_, ?_, fun hne => ?_, (OnlyCells.puts _ _).mono (by simp)⟩
    · exact Eq.trans (puts_rd_at endFlds 0 (by decide)) (Nat.mod_eq_of_lt hst)
    · exact Eq.trans (puts_rd_at endFlds 1 (by decide)) (Nat.mod_eq_of_lt herr)
    · exact absurd (by simp [hne]) hirq

theorem setBit_lt_two_pow {v n k : Nat} (h : v < 2 ^ n) (hk : k < n) : setBit v k < 2 ^ n := putBit_lt (b := true) h hk

section
variable {s : State} {ini : Init} {n : Fin 32}

/-- A GO that ends at once shows what it took, how it ended, and nothing else. -/
theorem go_ended (v st err : Nat) (h : bitOf v 1 = false) (hst : st < 8) (herr : err < 16) :
    let t := dmaEnd (goState s ini n.val v) n.val st err
    Took s ini n.val v t ∧ t.rd F.DMA_C_STAT_STATE n.val = st ∧ t.rd F.DMA_C_STAT_ERR n.val = err ∧
      (st ≠ dDONE → t.rd F.DMA_IRQSTAT_CH = setBit (s.rd F.DMA_IRQSTAT_CH) n.val) ∧
      OnlyCells s t (Safety.goCells n.val ++ [(I.dWait, n.val), (F.DMA_IRQSTAT_CH, 0)]) := by
  obtain ⟨h1, h2, h3, honly⟩ := dmaEnd_shows (goState s ini n.val v) n.val st err (goState_sig s ini n.val v h) hst herr
  obtain ⟨t1, t2, t3, t4, t5, t6⟩ := goState_took s ini n.val v
  have hgo := goState_only s ini n.val v
  have hirq : (goState s ini n.val v).rd F.DMA_IRQSTAT_CH = s.rd F.DMA_IRQSTAT_CH := by
    unfold goState
    exact puts_rd_other (ctlFlds ++ takenFlds) _ _ (by decide)
  generalize goState s ini n.val v = u at *
  dsimp only at h1 h2 h3 honly ⊢
  generalize dmaEnd u n.val st err = t at *
  have hkeep : ∀ g j, (∀ f ∈ [F.DMA_C_STAT_STATE, F.DMA_C_STAT_ERR, I.dWait, F.DMA_IRQSTAT_CH], f.id ≠ g.id) → t.rd g j = u.rd g j :=
    fun g j hg => sameCells_rd honly.2 g j fun p hp => hg p.1 (List.mem_map_of_mem (f := Prod.fst) hp)
  refine ⟨⟨(hkeep _ _ (by decide)).trans t1, (hkeep _ _ (by decide)).trans t2, (hkeep _ _ (by decide)).trans t3,
    (hkeep _ _ (by decide)).trans t4, (hkeep _ _ (by decide)).trans t5, (hkeep _ _ (by decide)).trans t6⟩, h1, h2, fun hne => ?_,
    (hgo.mono fun p hp => List.mem_append_left _ hp).trans (honly.mono ?_)⟩
  · rw [h3 hne, hirq]
    exact Nat.mod_eq_of_lt (setBit_lt_two_pow (State.rd_lt s F.DMA_IRQSTAT_CH 0) n.isLt)
  · unfold Safety.goCells
    simp

theorem dmaActive_of_wait (h : s.rd F.DMA_C_STAT_STATE n.val = dWAIT) : dmaActive s n.val = true := by
  unfold dmaActive
  rw [h]
  rfl

/-! ## Bursts -/

theorem dmaBurst_runs (hf : s.fabric = true) (hrun : s.rd F.DMA_C_STAT_STATE n.val = dRUN) :
    exec (.dmaBurst n) s = .next (dmaBurst s n) := by
  show execDmaBurst n s = _
  unfold execDmaBurst
  exact if_pos (by rw [hf, hrun]; rfl)

/-- A burst's length fits both pages, what is left, and a multiple of four stays one. -/
theorem burstLen_says {a b left : Nat} (ha : a % 4 = 0) (hb : b % 4 = 0) (hl : left % 4 = 0) :
    burstLen a b left % 4 = 0 ∧ burstLen a b left ≤ left := by
  unfold burstLen
  omega

/-- A burst between addresses of SYM that may be accessed copies. -/
theorem dmaBurst_copies {a b : Nat} (ha : s.rd I.dSrc n.val + s.rd F.DMA_C_OFS_OFS n.val = a)
    (hb : s.rd I.dDst n.val + s.rd F.DMA_C_OFS_OFS n.val = b) (h3 : bitOf (s.rd I.dMode n.val) 3 = true)
    (h2 : bitOf (s.rd I.dMode n.val) 2 = true) (hra : sideEnding s n a true false = .ok) (hrb : sideEnding s n b true true = .ok) :
    dmaBurst s n = burstCopy s n a b (burstLen a b (s.rd I.dLen n.val - s.rd F.DMA_C_OFS_OFS n.val)) := by
  unfold dmaBurst
  dsimp only
  rw [ha, hb, h3, h2]
  unfold side
  rw [if_pos rfl, if_pos rfl]
  dsimp only
  rw [hra]
  dsimp only
  rw [hrb]

/-- A source page that is not present ends the channel. -/
theorem dmaBurst_absent {a cid : Nat} (ha : s.rd I.dSrc n.val + s.rd F.DMA_C_OFS_OFS n.val = a)
    (h3 : bitOf (s.rd I.dMode n.val) 3 = false) (hlt : a < 0x10000) (hcv : bitOf (s.rd I.dCtx n.val) 15 = true)
    (hc : s.rd I.dCtx n.val % 32768 = cid) (hq : ctxState s cid ≠ cQUAR) (hnp : notPresent s cid (a / 4096) = true) :
    dmaBurst s n = dmaEnd s n.val dERROR 2 := by
  have hside : side s n.val false a = .error 2 := by
    unfold side
    rw [if_neg Bool.false_ne_true, if_neg (by omega), if_pos hlt]
    unfold viewSide
    simp [hcv, hc, hq, hnp]
  unfold dmaBurst
  dsimp only
  rw [ha, h3, hside]
end

/-! ## DMC -/

/-- The cells that an INIT sets, whatever it found. -/
def initFlds : List Fld :=
  [F.DMC_STAT_READY, F.DMC_STAT_TRAINERR, F.DMC_STAT_STEP, I.dmcTrain, F.DMC_CTRL_INIT, F.DMC_STAT_INSR, I.dmcSelfRef]

/-- An INIT while no training runs starts one; without RESUME the array reads as unwritten. -/
theorem dmcInit_shows {s : State} (h : s.rd I.dmcTrain = 0) :
    let t := dmcCtrlWrite s (s.rd F.DMC_CTRL_RESUME * 4 + s.rd F.DMC_CTRL_SELFREF * 2 + 1)
    t.rd F.DMC_STAT_READY = 0 ∧ t.rd F.DMC_STAT_TRAINERR = 0 ∧ t.rd F.DMC_STAT_STEP = 0 ∧ t.rd I.dmcTrain = 1 ∧
      t.rd I.dmcSelfRef = 0 ∧ (s.rd F.DMC_CTRL_RESUME = 1 → t.mem = s.mem) ∧
      (∀ x, x < 0x100000000 ∨ 0x900000000 ≤ x → t.byte x = s.byte x) ∧
      SameOtherCells s t [F.DMC_STAT_READY, F.DMC_STAT_TRAINERR, F.DMC_STAT_STEP, F.DMC_STAT_INSR, F.DMC_CTRL_INIT, F.DMC_CTRL_RESUME,
        F.DMC_CTRL_SELFREF, I.dmcTrain, I.dmcSelfRef] := by
  have hinit := dmcInit_says s h
  dsimp only at hinit ⊢
  rw [hinit]
  obtain ⟨l, hl⟩ : ∃ l, l = [(F.DMC_CTRL_RESUME, 0, s.rd F.DMC_CTRL_RESUME), (F.DMC_CTRL_SELFREF, 0, s.rd F.DMC_CTRL_SELFREF)] ++
      (if s.rd F.DMC_STAT_READY = 0 then [] else [(F.DMC_STAT_INSR, 0, s.rd F.DMC_CTRL_SELFREF)]) := ⟨_, rfl⟩
  have hcells : SameOtherCells s (puts s l) [F.DMC_CTRL_RESUME, F.DMC_CTRL_SELFREF, F.DMC_STAT_INSR] := fun g j hg =>
    puts_cell _ _ _ _ fun p hp => hg _ (by
      rw [hl] at hp
      split at hp
      · simp only [List.append_nil, List.mem_cons, List.not_mem_nil, or_false] at hp
        rcases hp with rfl | rfl <;> simp
      · simp only [List.mem_append, List.mem_cons, List.not_mem_nil, or_false] at hp
        rcases hp with (rfl | rfl) | rfl <;> simp)
  rw [← hl, puts_append]
  have hmem : (puts s l).mem = s.mem := puts_mem _ _
  generalize puts s l = v at *
  obtain ⟨w, hw⟩ : ∃ w, w = puts v [(F.DMC_STAT_READY, 0, 0), (F.DMC_STAT_TRAINERR, 0, 0), (F.DMC_STAT_STEP, 0, 0), (I.dmcTrain, 0, 1),
    (F.DMC_CTRL_INIT, 0, 1), (F.DMC_STAT_INSR, 0, 0), (I.dmcSelfRef, 0, 0)] := ⟨_, rfl⟩
  rw [← hw]
  have hrd : ∀ g j, (if s.rd F.DMC_CTRL_RESUME = 1 then w else w.loseMem 0x100000000 0x800000000).rd g j = w.rd g j := by
    intro g j
    split
    · rfl
    · exact State.loseMem_rd _ _ _ _ _
  have hwmem : w.mem = s.mem := by rw [hw, puts_mem, hmem]
  refine ⟨(hrd _ _).trans ?_, (hrd _ _).trans ?_, (hrd _ _).trans ?_, (hrd _ _).trans ?_, (hrd _ _).trans ?_, fun h1 => ?_, fun x hx => ?_,
    sameOtherCells_of_rd ?_ hrd⟩
  · rw [hw]
    exact Eq.trans (puts_rd_at initFlds 0 (by decide)) rfl
  · rw [hw]
    exact Eq.trans (puts_rd_at initFlds 1 (by decide)) rfl
  · rw [hw]
    exact Eq.trans (puts_rd_at initFlds 2 (by decide)) rfl
  · rw [hw]
    exact Eq.trans (puts_rd_at initFlds 3 (by decide)) rfl
  · rw [hw]
    exact Eq.trans (puts_rd_at initFlds 6 (by decide)) rfl
  · rw [if_pos h1, hwmem]
  · split
    · unfold State.byte
      rw [hwmem]
    · rw [byte_loseMem, if_neg (by omega)]
      unfold State.byte
      rw [hwmem]
  · rw [hw]
    refine (hcells.mono (by simp)).trans ((sameOtherCells_puts v _ (fs := initFlds)).mono ?_)
    simp [initFlds]

/-- Settles O42. -/
theorem dmaCopiesAndDramTrains : Obligations.DmaCopiesAndDramTrains := by
  unfold Obligations.DmaCopiesAndDramTrains
  refine ⟨fun s ini n hf => ?_, fun s ok step => ⟨fun h => ?_, fun hf h => ?_⟩⟩
  · dsimp only
    have hgo : ∀ v : Word, exec (.dmaGo ini n v) s = .next (dmaCtlWrite s ini n.val v.toNat) := fun v => if_pos hf
    refine ⟨fun v ha hv => ?_, fun v ha hv => ?_, fun v ha hv => ⟨fun hal hlen => ?_, fun hal hlen hsig => ?_, fun hal hsig => ?_⟩,
      fun ha => ?_, fun ha hsig => ?_, fun h => ?_, fun h hwait => ?_, fun h => ?_, fun hrun hsig =>
      ⟨fun h3 h2 hina hinb hlen hofs hofs4 hra hrb => ?_, fun h3 hlt hcv hq hnp => ?_⟩, fun htr => ?_⟩
    · refine (hgo v).trans (congrArg _ ?_)
      unfold dmaCtlWrite
      dsimp only
      rw [if_pos ha, hv]
      rfl
    · refine (hgo v).trans (congrArg _ ?_)
      unfold dmaCtlWrite
      dsimp only
      rw [ha, if_neg Bool.false_ne_true, hv]
      rfl
    · have hnext := (hgo v).trans (congrArg _ (dmaCtlWrite_go s ini n.val v.toNat ha hv))
      rw [if_neg (by simpa [and_assoc] using hal), if_neg hlen] at hnext
      obtain ⟨hst, herr⟩ := goState_run s ini n.val v.toNat
      exact Does.of_next hnext ⟨goState_took s ini n.val v.toNat, hst, herr, goState_only s ini n.val v.toNat⟩
    · have hnext := (hgo v).trans (congrArg _ (dmaCtlWrite_go s ini n.val v.toNat ha hv))
      rw [if_neg (by simpa [and_assoc] using hal), if_pos hlen] at hnext
      obtain ⟨ht, hst, herr, -, honly⟩ := go_ended (s := s) (ini := ini) (n := n) v.toNat dDONE 0 hsig (by decide) (by decide)
      exact Does.of_next hnext ⟨ht, hst, herr, honly⟩
    · have hnext := (hgo v).trans (congrArg _ (dmaCtlWrite_go s ini n.val v.toNat ha hv))
      have hbad : (sideAddr s F.DMA_C_SRC_LO_ADDR F.DMA_C_SRC_HI_ADDR n.val % 4 != 0 ||
          sideAddr s F.DMA_C_DST_LO_ADDR F.DMA_C_DST_HI_ADDR n.val % 4 != 0 || s.rd F.DMA_C_LEN_LEN n.val % 4 != 0) = true := by
        simp only [Bool.or_eq_true, bne_iff_ne]
        omega
      rw [if_pos hbad] at hnext
      obtain ⟨ht, hst, herr, hirq, honly⟩ := go_ended (s := s) (ini := ini) (n := n) v.toNat dERROR 5 hsig (by decide) (by decide)
      exact Does.of_next hnext ⟨ht, hst, herr, hirq (by decide), honly⟩
    · refine (if_pos hf).trans (congrArg _ ?_)
      unfold dmaAbort
      rw [ha]
      rfl
    · refine (if_pos hf).trans (congrArg _ ?_)
      unfold dmaAbort
      rw [if_pos ha]
      exact dmaEnd_plain _ _ _ _ hsig
    · show execDmaResume n s = _
      unfold execDmaResume
      dsimp only
      exact if_neg (by simp [h])
    · show execDmaResume n s = _
      unfold execDmaResume
      dsimp only
      exact if_pos (by simp [h, hf, hwait])
    · show execDmaBurst n s = _
      unfold execDmaBurst
      exact if_neg (by simp [h])
    · obtain ⟨ha1, ha2, ha4⟩ := hina
      obtain ⟨hb1, hb2, hb4⟩ := hinb
      have hcopy := dmaBurst_copies rfl rfl h3 h2 hra hrb
      generalize hm : burstLen (s.rd I.dSrc n.val + s.rd F.DMA_C_OFS_OFS n.val) (s.rd I.dDst n.val + s.rd F.DMA_C_OFS_OFS n.val)
        (s.rd I.dLen n.val - s.rd F.DMA_C_OFS_OFS n.val) = m at *
      obtain ⟨hm4, hmle⟩ := burstLen_says ha4 hb4 (left := s.rd I.dLen n.val - s.rd F.DMA_C_OFS_OFS n.val) (by omega)
      rw [hm] at hm4 hmle
      generalize s.rd I.dSrc n.val + s.rd F.DMA_C_OFS_OFS n.val = a at *
      generalize s.rd I.dDst n.val + s.rd F.DMA_C_OFS_OFS n.val = b at *
      have hfour : 4 * (m / 4) = m := by omega
      have hread := burstRead_sym s n (m / 4) a ha1 (by omega)
      rw [hfour] at hread
      have hlenr : (s.readBytes a m).length = 4 * (m / 4) := by
        rw [hfour]
        simp [State.readBytes]
      obtain ⟨hbyte, hsame, hother⟩ := burstWrite_sym n (m / 4) s b (s.readBytes a m) hb1 (by omega) hlenr
      have hlet := burstCopy_let s _ n a b m _ _ hread rfl (hother F.DMA_C_OFS_OFS n.val (by decide))
      generalize burstWrite s n b (m / 4) (s.readBytes a m) = u at *
      refine Does.of_next ((dmaBurst_runs hf hrun).trans (congrArg _ hcopy))
        (burst_ends s u n a b m (fun x => ?_) hsame hother hrun hsig hlet (by omega))
      rw [hbyte x]
      split
      next hx => rw [if_pos (by omega)]; simp [State.readBytes]
      next hx => rw [if_neg (by omega)]
    · refine (dmaBurst_runs hf hrun).trans (congrArg _ ?_)
      rw [dmaBurst_absent rfl h3 hlt hcv rfl hq hnp]
      exact dmaEnd_plain _ _ _ _ hsig
    · obtain ⟨h1, h2, h3, h4, h5, h6, h7, h8⟩ := dmcInit_shows htr
      exact Does.of_next (t := dmcCtrlWrite s (s.rd F.DMC_CTRL_RESUME * 4 + s.rd F.DMC_CTRL_SELFREF * 2 + 1)) (if_pos hf)
        ⟨h1, h2, h3, h4, h5, h6, h7, h8⟩
  · exact if_neg (by rw [on_of_zero h, Bool.and_false]; exact Bool.false_ne_true)
  · refine (if_pos (by rw [hf, on_of_one h]; rfl)).trans ?_
    cases ok <;> rfl

end Sys2Proof.Machine
end

section
/-! PROOFS.  Queues: swap, flush and reset. -/

namespace Sys2Proof.Machine

open Safety

set_option Elab.async false

/-- A command whose effect is to make one queue what it becomes leaves the others. -/
theorem becomes_of_set {i : Instr} {s : State} {q : Nat} {y : Queue} (h : exec i s = .next (s.setQueue q y)) :
    Does i s fun t => t.queue q = y ∧ (∀ r, r ≠ q → t.queue r = s.queue r) ∧ t = { s with queues := t.queues } :=
  Does.of_next h (queue_set_frame s q y)

/-- A swap needs an empty consumer bank, a complete item, and no swap in progress. -/
theorem canSwap_iff (x : Queue) : x.canSwap = true ↔ x.cons = [] ∧ x.complete ≠ [] ∧ x.swap = false := by
  unfold Queue.canSwap
  simp only [Bool.and_eq_true, Bool.not_eq_true', List.isEmpty_iff, List.isEmpty_eq_false_iff, and_assoc]

section
variable {s : State} {q : Nat}

theorem queueFlush_pending (h : (s.queue q).flush = true) : queueFlush s q = s := by
  unfold queueFlush
  exact if_pos h

theorem queueFlush_between (h : (s.queue q).flush = false) (hp : (s.queue q).partialWords = []) :
    queueFlush s q = s.setQueue q { s.queue q with flush := true, fixed := true, flushN := (s.queue q).count } := by
  unfold queueFlush
  dsimp only
  rw [h, if_neg Bool.false_ne_true, hp]
  rfl

theorem queueFlush_within (h : (s.queue q).flush = false) (hp : (s.queue q).partialWords ≠ []) :
    queueFlush s q = s.setQueue q { s.queue q with flush := true, fixed := false, flushN := 0 } := by
  unfold queueFlush
  dsimp only
  rw [h, if_neg Bool.false_ne_true, if_neg (by simpa using hp)]
end

/-- Settles O43. -/
theorem queuesSwapFlushAndReset : Obligations.QueuesSwapFlushAndReset := by
  unfold Obligations.QueuesSwapFlushAndReset
  intro s q hf
  dsimp only
  refine ⟨fun h => ?_, fun hc hx hs => ⟨(prod_split _).symm, partial_open _, complete_ends _ hx, becomes_of_set ?_⟩, becomes_of_set rfl,
    fun ini => ⟨becomes_of_set (if_pos hf), fun hfl => ?_, fun hfl hp => becomes_of_set ?_, fun hfl hp => becomes_of_set ?_⟩,
    fun h => ?_, fun hfl hfix hr => becomes_of_set ?_⟩
  · refine if_neg fun hall => ?_
    obtain ⟨hc, hx, hs⟩ := (canSwap_iff _).mp (Bool.and_eq_true_iff.mp hall).2
    rcases h with h | h | h
    · exact h hc
    · exact hx h
    · rw [hs] at h
      exact Bool.false_ne_true h
  · exact if_pos (by rw [hf, (canSwap_iff _).mpr ⟨hc, hx, hs⟩]; rfl)
  · exact (if_pos hf).trans (congrArg _ (queueFlush_pending hfl))
  · exact (if_pos hf).trans (congrArg _ (queueFlush_between hfl hp))
  · exact (if_pos hf).trans (congrArg _ (queueFlush_within hfl hp))
  · show execQueueFlushDone q s = _
    unfold execQueueFlushDone
    dsimp only
    refine if_neg ?_
    simp only [Bool.and_eq_true, beq_iff_eq]
    rintro ⟨⟨⟨-, hfl⟩, hfix⟩, hr⟩
    rcases h with h | h | h
    · rw [h] at hfl
      exact Bool.false_ne_true hfl
    · rw [h] at hfix
      exact Bool.false_ne_true hfix
    · exact h hr
  · show execQueueFlushDone q s = _
    unfold execQueueFlushDone
    dsimp only
    exact if_pos (by rw [hf, hfl, hfix, hr]; rfl)

end Sys2Proof.Machine
end

section
/-! PROOFS.  Channels: copies of records and tables, over a memory that lists an address twice. -/

namespace Sys2Proof.Machine

open Safety

set_option Elab.async false

/-- A serving device on whose core 0 a media job runs: frame 0 holds page 0 of the job's context. -/
def mediaDevice : State :=
  puts State.reset [(F.PMU_MODE_CURRENT, 0, mSERVICE), (I.cJob, 0, 1), (I.jCv, 0, 1), (F.CPG_FRAME_STATE, 0, fSTAGED), (I.frOwner, 0, 1)]

/-- A rewind of one record is asked for, from a ring at 0x10000000 to a buffer behind it.  The memory lists the ring's first byte
twice: it reads as the first entry, 1. -/
def twiceListed : State :=
  { mediaDevice with mem := [(0x10000000, 1), (0x10000000, 2), (0x30000041, 8), (0x3000041F, 0x80), (0x30000604, 1)] }

theorem twiceListed_page : mediaPage twiceListed 0 = some 0 := by decide

theorem twiceListed_asks : bitOf (mw twiceListed 0 0x41C) 31 = true ∧ mw twiceListed 0 0x604 = 1 ∧
    capAddr twiceListed 0 0 = 0x10000800 ∧ rrAddr twiceListed 0 (rrLen twiceListed 0) = 0x10000800 := by decide

/-- Refutes O44: a rewind copies the last entry of a byte that the memory lists twice, while the byte reads as the first; the
statement speaks of every memory, of one that is not in its canonical form too.  The state `twiceListed` asks for the copy of
one record, of which the byte at 0x10000000 reads as 1, and the copy at 0x10000800 reads as 2. -/
theorem not_channelsFollowCommandsAndPackets : ¬ Obligations.ChannelsFollowCommandsAndPackets := by
  unfold Obligations.ChannelsFollowCommandsAndPackets
  rintro ⟨-, hrewind, -⟩
  obtain ⟨hask, hcount, hcap, hring⟩ := twiceListed_asks
  obtain ⟨-, hdone⟩ := hrewind twiceListed 0
  obtain ⟨-, hcopies⟩ := hdone 0 twiceListed_page
  obtain ⟨t, hnext, -, hbytes, -⟩ := hcopies hask (by rw [hcount]; decide) (Or.inr (by rw [hring, hcap]))
  have ht : t = rewindDone twiceListed 0 := by
    have hrun : exec (.rewindDone 0) twiceListed = .next (rewindDone twiceListed 0) := onChannel_says twiceListed_page rewindDone
    exact (Host.Outcome.next.inj (hrun.symm.trans hnext)).symm
  have hbyte := hbytes 0 0 (by rw [hcount]; decide) (by decide)
  rw [ht] at hbyte
  exact absurd hbyte (by decide)

/-- A changed media table, of which the memory lists the first byte of the first definition twice: it reads as 1. -/
def tableListedTwice : State :=
  { mediaDevice with mem := [(0x207F0000, 1), (0x207F0040, 1), (0x207F0040, 2)] }

theorem tableListedTwice_page : mediaPage tableListedTwice 0 = some 0 := by decide

theorem tableListedTwice_changed : tableListedTwice.readLE mediaTable 4 ≠ mw tableListedTwice 0 0x624 := by decide

/-- Refutes O46: a reload of the media table copies the last entry of a byte that the memory lists twice, while the byte reads as
the first.  In `tableListedTwice` the first byte of the channel's definitions reads as 1, and its copy in page 0 as 2. -/
theorem not_tonesAndLevelsFollowCommands : ¬ Obligations.TonesAndLevelsFollowCommands := by
  unfold Obligations.TonesAndLevelsFollowCommands
  intro h
  obtain ⟨-, hpage⟩ := h tableListedTwice 0 false false false 0 0 0
  obtain ⟨-, -, -, hreload, -⟩ := hpage 0 tableListedTwice_page
  obtain ⟨t, hnext, -, -, hbytes, -⟩ := hreload tableListedTwice_changed
  have ht : t = tableReload tableListedTwice 0 := by
    have hrun : exec (.mediaTableReload 0) tableListedTwice = .next (tableReload tableListedTwice 0) :=
      onChannel_says tableListedTwice_page tableReload
    exact (Host.Outcome.next.inj (hrun.symm.trans hnext)).symm
  have hbyte := hbytes 0 (by decide)
  rw [ht] at hbyte
  exact absurd hbyte (by decide)

end Sys2Proof.Machine
end

section
/-! PROOFS.  Canceller, codecs and fax of a channel. -/

namespace Sys2Proof.Machine

open Safety

set_option Elab.async false

/-! ## Fields of a word -/

theorem testBit_putField {v hi lo x : Nat} (h : lo ≤ hi) (k : Nat) :
    (putField v hi lo x).testBit k = if lo ≤ k ∧ k ≤ hi then x.testBit (k - lo) else v.testBit k := by
  have hlow : v % 2 ^ lo < 2 ^ lo := Nat.mod_lt _ (Nat.two_pow_pos _)
  have hx : x % 2 ^ (hi + 1 - lo) < 2 ^ (hi + 1 - lo) := Nat.mod_lt _ (Nat.two_pow_pos _)
  have hsum : 2 ^ lo * (x % 2 ^ (hi + 1 - lo)) + v % 2 ^ lo < 2 ^ (hi + 1) := by
    calc 2 ^ lo * (x % 2 ^ (hi + 1 - lo)) + v % 2 ^ lo < 2 ^ lo * (x % 2 ^ (hi + 1 - lo) + 1) := by rw [Nat.mul_add]; omega
      _ ≤ 2 ^ lo * 2 ^ (hi + 1 - lo) := Nat.mul_le_mul_left _ hx
      _ = 2 ^ (hi + 1) := by rw [← Nat.pow_add]; congr 1; omega
  rw [putField_split v hi lo x h, Nat.mul_comm (v / _), Nat.mul_comm (x % _), Nat.testBit_two_pow_mul_add _ hsum]
  by_cases hk : k < hi + 1
  · rw [if_pos hk, Nat.testBit_two_pow_mul_add _ hlow]
    by_cases hkl : k < lo
    · rw [if_pos hkl, if_neg (by omega), Nat.testBit_mod_two_pow, decide_eq_true hkl, Bool.true_and]
    · rw [if_neg hkl, if_pos (by omega), Nat.testBit_mod_two_pow, decide_eq_true (by omega), Bool.true_and]
  · rw [if_neg hk, if_neg (by omega), Nat.testBit_div_two_pow]
    congr 1
    omega

theorem testBit_bits (v hi lo k : Nat) : (bits v hi lo).testBit k = (decide (k < hi + 1 - lo) && v.testBit (lo + k)) := by
  unfold bits
  rw [Nat.testBit_mod_two_pow, Nat.testBit_div_two_pow, Nat.add_comm k lo]

theorem bits_putField_same {v hi lo x : Nat} (h : lo ≤ hi) : bits (putField v hi lo x) hi lo = x % 2 ^ (hi + 1 - lo) := by
  refine Nat.eq_of_testBit_eq fun k => ?_
  rw [testBit_bits, testBit_putField h, Nat.testBit_mod_two_pow]
  by_cases hk : k < hi + 1 - lo
  · rw [if_pos (by omega), Nat.add_sub_cancel_left]
  · rw [decide_eq_false hk, Bool.false_and, Bool.false_and]

theorem bits_putField_other {v hi lo x hi' lo' : Nat} (h : lo ≤ hi) (hd : hi < lo' ∨ hi' < lo) :
    bits (putField v hi lo x) hi' lo' = bits v hi' lo' := by
  refine Nat.eq_of_testBit_eq fun k => ?_
  rw [testBit_bits, testBit_putField h, testBit_bits]
  by_cases hk : k < hi' + 1 - lo'
  · rw [if_neg (by omega)]
  · rw [decide_eq_false hk, Bool.false_and, Bool.false_and]

theorem bitOf_putField {v hi lo x : Nat} (h : lo ≤ hi) (k : Nat) :
    bitOf (putField v hi lo x) k = if lo ≤ k ∧ k ≤ hi then bitOf x (k - lo) else bitOf v k := by
  rw [bitOf_testBit, testBit_putField h, bitOf_testBit, bitOf_testBit]

/-! ## Clearing the canceller -/

/-- The words that a clear writes. -/
def clearOffs : List Nat := [0x480, 0x490, 0x640, 0x644, 0x648]

/-- The bits of STS_EC0 that say which windows are used. -/
def windowBit (b : Nat) : Prop := 12 ≤ b ∧ b ≤ 15

section
variable {s : State} {i : Nat}

/-- A window of STS_EC4 is set; the other windows and the other bits of STS_EC0 keep. -/
theorem setWindow_shows (s : State) (i : Nat) {k : Nat} (hk : k < 4) (start : Option Nat) (hst : ∀ v ∈ start, v < 256) :
    let t := setWindow s i k start
    bits (mw t i 0x490) (8 * k + 7) (8 * k) = start.getD 0xFF ∧ winUsed t i k = start.isSome ∧
      (∀ j, j < 4 → j ≠ k → bits (mw t i 0x490) (8 * j + 7) (8 * j) = bits (mw s i 0x490) (8 * j + 7) (8 * j) ∧
        winUsed t i j = winUsed s i j) ∧
      (∀ b, ¬ windowBit b → bitOf (mw t i 0x480) b = bitOf (mw s i 0x480) b) ∧ OnlyWords s t i [0x480, 0x490] := by
  obtain ⟨v, b, ht, hv, hb, hsome⟩ : ∃ v b, setWindow s i k start = setF (setF s i 0x490 (8 * k + 7) (8 * k) v) i 0x480 (12 + k) (12 + k) b ∧
      v = start.getD 0xFF ∧ v < 256 ∧ start.isSome = bitOf b 0 := by
    cases start with
    | none => exact ⟨0xFF, 0, rfl, rfl, by decide, rfl⟩
    | some v => exact ⟨v, 1, rfl, rfl, hst v rfl, rfl⟩
  have h480 : mw (setWindow s i k start) i 0x480 = putField (mw s i 0x480) (12 + k) (12 + k) b := by
    rw [ht, mw_setF_same _ _ _ _ _ _ (by omega) (by omega), mw_setF_other _ _ _ _ _ _ _ (by decide) (by decide) (by decide)]
  have h490 : mw (setWindow s i k start) i 0x490 = putField (mw s i 0x490) (8 * k + 7) (8 * k) v := by
    rw [ht, mw_setF_other _ _ _ _ _ _ _ (by decide) (by decide) (by decide), mw_setF_same _ _ _ _ _ _ (by omega) (by omega)]
  dsimp only
  unfold winUsed
  rw [h480, h490]
  refine ⟨?_, ?_, fun j hj hne => ⟨?_, ?_⟩, fun b hb => ?_, ?_⟩
  · rw [bits_putField_same (by omega), show 8 * k + 7 + 1 - 8 * k = 8 by omega, ← hv]
    exact Nat.mod_eq_of_lt hb
  · rw [bitOf_putField (by omega), if_pos (by omega), Nat.sub_self, hsome]
  · exact bits_putField_other (by omega) (by omega)
  · rw [bitOf_putField (by omega), if_neg (by omega)]
  · unfold windowBit at hb
    rw [bitOf_putField (by omega), if_neg (by omega)]
  · rw [ht]
    exact onlyWords_setF (onlyWords_setF (onlyWords_refl _ _ _) (by simp)) (by simp)

/-- Is window k in use after a clear outside dense mode. -/
def usedWindow (s : State) (i k : Nat) : Bool := decide (k < ecNwin s i ∧ 16 * k + 16 ≤ ecTail s i)

/-- The windows of a cleared canceller, the first n of them. -/
def windowsSet (s : State) (i n : Nat) : State := s.over (List.range n) fun s k =>
  setWindow s i k (if k < ecNwin s i && 16 * k + 16 ≤ ecTail s i then some (16 * k) else none)

theorem windowsSet_succ (s : State) (i n : Nat) : windowsSet s i (n + 1) = setWindow (windowsSet s i n) i n
    (if n < ecNwin (windowsSet s i n) i && 16 * n + 16 ≤ ecTail (windowsSet s i n) i then some (16 * n) else none) := by
  unfold windowsSet State.over
  rw [List.range_succ, List.foldl_append]
  rfl

theorem windowsSet_shows (s : State) (i : Nat) {n : Nat} (hn : n ≤ 4) :
    let t := windowsSet s i n
    (∀ k, k < n → bits (mw t i 0x490) (8 * k + 7) (8 * k) = (if usedWindow s i k then 16 * k else 0xFF) ∧
        winUsed t i k = usedWindow s i k) ∧
      (∀ b, ¬ windowBit b → bitOf (mw t i 0x480) b = bitOf (mw s i 0x480) b) ∧ OnlyWords s t i [0x480, 0x490] := by
  induction n with
  | zero => exact ⟨fun k hk => absurd hk (Nat.not_lt_zero k), fun _ _ => rfl, onlyWords_refl _ _ _⟩
  | succ n ih =>
    obtain ⟨hset, hkeep, honly⟩ := ih (by omega)
    have hcfg : mw (windowsSet s i n) i 0x084 = mw s i 0x084 := onlyWords_mw honly (by decide) _ (by decide) (by decide)
    have hstart : (if n < ecNwin (windowsSet s i n) i && 16 * n + 16 ≤ ecTail (windowsSet s i n) i then some (16 * n) else none) =
        if usedWindow s i n then some (16 * n) else none := by
      unfold usedWindow ecNwin ecTail
      rw [hcfg]
      simp only [Bool.decide_and, Bool.and_eq_true, decide_eq_true_eq]
    dsimp only
    rw [windowsSet_succ, hstart]
    obtain ⟨h1, h2, h3, h4, h5⟩ := setWindow_shows (windowsSet s i n) i (k := n) (by omega)
      (if usedWindow s i n then some (16 * n) else none) (by
        intro v hv
        split at hv
        · obtain rfl := Option.some.inj hv
          omega
        · exact absurd hv (by simp))
    refine ⟨fun k hk => ?_, fun b hb => (h4 b hb).trans (hkeep b hb), onlyWords_trans honly h5⟩
    by_cases he : k = n
    · subst he
      refine ⟨h1.trans ?_, h2.trans ?_⟩ <;> cases usedWindow s i k <;> rfl
    · obtain ⟨hb, hw⟩ := h3 k (by omega) he
      obtain ⟨hb', hw'⟩ := hset k (by omega)
      exact ⟨hb.trans hb', hw.trans hw'⟩

/-- The canceller without probation, convergence and estimators, its windows as they were. -/
def ecEmptied (s : State) (i : Nat) : State :=
  setW (setW (setF (setF (noProbation s i false) i 0x480 25 25 0) i 0x480 24 24 0) i 0x644 0) i 0x648 0

theorem ecEmptied_shows (s : State) (i : Nat) : let t := ecEmptied s i
    mw t i 0x480 = putField (putField (putField (mw s i 0x480) 20 20 0) 25 25 0) 24 24 0 ∧ mw t i 0x640 = 0 ∧ mw t i 0x644 = 0 ∧
      mw t i 0x648 = 0 ∧ OnlyWords s t i [0x480, 0x640, 0x644, 0x648] := by
  have ht : ecEmptied s i = setW (setW (setF (setF (setF (setF s i 0x480 20 20 0) i 0x640 31 0 0) i 0x480 25 25 0) i 0x480 24 24 0)
      i 0x644 0) i 0x648 0 := rfl
  dsimp only
  rw [ht]
  refine ⟨?_, ?_, ?_, ?_, ?_⟩
  · simp (disch := decide) only [mw_setW_other, mw_setF_same, mw_setF_other]
  · simp (disch := decide) only [mw_setW_other, mw_setF_same, mw_setF_other]
    exact putField_zero (mw_lt _ _ _)
  · simp (disch := decide) only [mw_setW_other, mw_setW_same]
    rfl
  · simp only [mw_setW_same]
    rfl
  · exact onlyWords_setW (onlyWords_setW (onlyWords_setF (onlyWords_setF (onlyWords_setF (onlyWords_setF (onlyWords_refl _ _ _) (by simp))
      (by simp)) (by simp)) (by simp)) (by simp)) (by simp)

theorem ecClear_eq (s : State) (i : Nat) :
    ecClear s i = if denseAct (ecEmptied s i) i then ecEmptied s i else windowsSet (ecEmptied s i) i 4 := rfl

/-- A clear leaves the canceller cleared, and CLRSEQ as it was. -/
theorem ecClear_clears (s : State) (i : Nat) : ecCleared s (ecClear s i) i ∧
    bits (mw (ecClear s i) i 0x480) 31 28 = bits (mw s i 0x480) 31 28 ∧ OnlyWords s (ecClear s i) i clearOffs := by
  obtain ⟨h480, h640, h644, h648, honly⟩ := ecEmptied_shows s i
  obtain ⟨hset, hkeep, hwin⟩ := windowsSet_shows (ecEmptied s i) i (n := 4) (Nat.le_refl _)
  have hword : ∀ off, off % 4 = 0 → off ∉ [0x480, 0x640, 0x644, 0x648] → mw (ecEmptied s i) i off = mw s i off := fun off h4 hno =>
    onlyWords_mw honly (by decide) off h4 hno
  have hbit : ∀ b, bitOf (mw (ecEmptied s i) i 0x480) b = if b ∈ [20, 24, 25] then false else bitOf (mw s i 0x480) b := by
    intro b
    rw [h480, bitOf_putField (by decide), bitOf_putField (by decide), bitOf_putField (by decide)]
    have hzero : ∀ k, bitOf 0 k = false := fun k => by rw [bitOf_testBit, Nat.zero_testBit]
    rw [hzero, hzero, hzero]
    by_cases h24 : 24 ≤ b ∧ b ≤ 24
    · rw [if_pos h24, if_pos (by simp; omega)]
    · rw [if_neg h24]
      by_cases h25 : 25 ≤ b ∧ b ≤ 25
      · rw [if_pos h25, if_pos (by simp; omega)]
      · rw [if_neg h25]
        by_cases h20 : 20 ≤ b ∧ b ≤ 20
        · rw [if_pos h20, if_pos (by simp; omega)]
        · rw [if_neg h20, if_neg (by simp; omega)]
  have hdense : denseAct (ecEmptied s i) i = denseAct s i := by
    unfold denseAct
    rw [hbit, if_neg (by decide)]
  have hseq : bits (mw (ecEmptied s i) i 0x480) 31 28 = bits (mw s i 0x480) 31 28 := by
    rw [h480]
    simp (disch := decide) only [bits_putField_other]
  have hused : ∀ k, usedWindow (ecEmptied s i) i k = usedWindow s i k := fun k => by
    unfold usedWindow ecNwin ecTail
    rw [hword _ (by decide) (by decide)]
  rw [ecClear_eq, hdense]
  generalize ecEmptied s i = u at *
  by_cases hd : denseAct s i = true
  · rw [if_pos hd]
    refine ⟨⟨h640, h644, h648, fun b hb => ?_, fun b hb => ?_, fun k hk => ⟨fun _ => ⟨?_, ?_⟩, fun h => absurd (hd.symm.trans h) (by decide)⟩⟩,
      hseq, onlyWords_mono honly (by decide)⟩
    · rw [hbit, if_pos hb]
    · refine (hbit b).trans (if_neg fun h => ?_)
      exact (show ∀ b ∈ [0, 1, 2, 3, 4, 5, 6, 7, 8, 9, 10, 11, 16, 17, 18, 19, 21, 22, 23, 26, 27], b ∉ [20, 24, 25] by decide) b hb h
    · rw [hword _ (by decide) (by decide)]
    · unfold winUsed
      rw [hbit, if_neg (by simp; omega)]
  · have hnot : denseAct s i = false := by simpa using hd
    have hw : ∀ off, off % 4 = 0 → off ∉ [0x480, 0x490] → mw (windowsSet u i 4) i off = mw u i off := fun off h4 hno =>
      onlyWords_mw hwin (by decide) off h4 hno
    rw [if_neg hd]
    refine ⟨⟨?_, ?_, ?_, fun b hb => ?_, fun b hb => ?_, fun k hk => ⟨fun h => absurd h hd, fun _ => ?_⟩⟩, ?_,
      onlyWords_trans (onlyWords_mono honly (by decide)) (onlyWords_mono hwin (by decide))⟩
    · exact (hw _ (by decide) (by decide)).trans h640
    · exact (hw _ (by decide) (by decide)).trans h644
    · exact (hw _ (by decide) (by decide)).trans h648
    · have hno : ¬ windowBit b := (show ∀ b ∈ [20, 24, 25], ¬ (12 ≤ b ∧ b ≤ 15) by decide) b hb
      rw [hkeep b hno, hbit, if_pos hb]
    · obtain ⟨hno, hno'⟩ := (show ∀ b ∈ [0, 1, 2, 3, 4, 5, 6, 7, 8, 9, 10, 11, 16, 17, 18, 19, 21, 22, 23, 26, 27],
        ¬ (12 ≤ b ∧ b ≤ 15) ∧ b ∉ [20, 24, 25] by decide) b hb
      rw [hkeep b hno, hbit, if_neg hno']
    · obtain ⟨h1, h2⟩ := hset k hk
      rw [hused] at h1 h2
      exact ⟨h1.trans (by unfold usedWindow; simp only [decide_eq_true_eq]), h2⟩
    · rw [← hseq]
      refine Nat.eq_of_testBit_eq fun k => ?_
      rw [testBit_bits, testBit_bits]
      by_cases hk : k < 31 + 1 - 28
      · rw [← bitOf_testBit, ← bitOf_testBit, hkeep _ (by unfold windowBit; omega)]
      · rw [decide_eq_false hk, Bool.false_and, Bool.false_and]
end

/-! ## The commands of the canceller -/

section
variable {s t u : State} {c : Fin 64} {i : Nat}

theorem onChannel_none (h : mediaPage s c.val = none) (f : State → Nat → State) : onChannel s c.val f = .next s := by
  unfold onChannel
  rw [h]

/-- A canceller stays cleared where its words keep, but for CLRSEQ. -/
theorem ecCleared_of (h : ecCleared s t i) (hw : ∀ off ∈ [0x490, 0x640, 0x644, 0x648], mw u i off = mw t i off)
    (hb : ∀ b, b < 28 → bitOf (mw u i 0x480) b = bitOf (mw t i 0x480) b) : ecCleared s u i := by
  obtain ⟨h640, h644, h648, hzero, hkeep, hwin⟩ := h
  refine ⟨(hw _ (by simp)).trans h640, (hw _ (by simp)).trans h644, (hw _ (by simp)).trans h648, fun b hin => ?_, fun b hin => ?_, fun k hk => ?_⟩
  · rw [hb b ((show ∀ b ∈ [20, 24, 25], b < 28 by decide) b hin)]
    exact hzero b hin
  · rw [hb b ((show ∀ b ∈ [0, 1, 2, 3, 4, 5, 6, 7, 8, 9, 10, 11, 16, 17, 18, 19, 21, 22, 23, 26, 27], b < 28 by decide) b hin)]
    exact hkeep b hin
  · have hused : winUsed u i k = winUsed t i k := hb _ (by omega)
    rw [hw _ (by simp), hused]
    exact hwin k hk

theorem ecClearSeq_shows (h : bits (mw s i 0x080) 27 24 ≠ bits (mw s i 0x480) 31 28) :
    ecCleared s (ecClearSeq s i) i ∧ bits (mw (ecClearSeq s i) i 0x480) 31 28 = bits (mw s i 0x080) 27 24 ∧
      OnlyWords s (ecClearSeq s i) i clearOffs := by
  obtain ⟨hclear, -, honly⟩ := ecClear_clears s i
  have ht : ecClearSeq s i = setF (ecClear s i) i 0x480 31 28 (bits (mw s i 0x080) 27 24) := if_neg h
  have hword : mw (ecClearSeq s i) i 0x480 = putField (mw (ecClear s i) i 0x480) 31 28 (bits (mw s i 0x080) 27 24) := by
    rw [ht, mw_setF_same _ _ _ _ _ _ (by decide) (by decide)]
  refine ⟨ecCleared_of hclear (fun off hoff => ?_) (fun b hb => ?_), ?_, ?_⟩
  · have h4 := (show ∀ off ∈ [0x490, 0x640, 0x644, 0x648], 0x480 ≠ off ∧ off % 4 = 0 by decide) off hoff
    rw [ht]
    exact mw_setF_other _ _ _ _ _ _ _ h4.1 (by decide) h4.2
  · rw [hword, bitOf_putField (by decide), if_neg (by omega)]
  · rw [hword, bits_putField_same (by decide)]
    exact Nat.mod_eq_of_lt (bits_lt _ _ _)
  · rw [ht]
    exact onlyWords_setF honly (by simp [clearOffs])

theorem ecDiverge_shows (h : bitOf (mw s i 0x480) 27 = true) (hroom : mw s i 0x4A4 + 2 < 2 ^ 32) :
    ecCleared s (ecDiverge s i) i ∧ bits (mw (ecDiverge s i) i 0x480) 31 28 = bits (mw s i 0x480) 31 28 ∧
      mw (ecDiverge s i) i 0x4A4 = mw s i 0x4A4 + 1 ∧ OnlyWords s (ecDiverge s i) i (clearOffs ++ [0x4A4]) := by
  obtain ⟨hclear, hseq, honly⟩ := ecClear_clears s i
  have hcnt : mw (ecClear s i) i 0x4A4 = mw s i 0x4A4 := onlyWords_mw honly (by decide) _ (by decide) (by decide)
  have ht : ecDiverge s i = setW (ecClear s i) i 0x4A4 (mw s i 0x4A4 + 1) := by
    unfold ecDiverge
    rw [if_pos h, stsCount_room _ _ _ (by rw [hcnt]; exact hroom), hcnt]
  have hword : ∀ off, off % 4 = 0 → 0x4A4 ≠ off → mw (ecDiverge s i) i off = mw (ecClear s i) i off := fun off h4 hne => by
    rw [ht]
    exact mw_setW_other _ _ _ _ _ hne (by decide) h4
  refine ⟨ecCleared_of hclear (fun off hoff => ?_) (fun b _ => ?_), ?_, ?_, ?_⟩
  · obtain ⟨hne, h4⟩ := (show ∀ off ∈ [0x490, 0x640, 0x644, 0x648], 0x4A4 ≠ off ∧ off % 4 = 0 by decide) off hoff
    exact hword off h4 hne
  · rw [hword _ (by decide) (by decide)]
  · rw [hword _ (by decide) (by decide), hseq]
  · rw [ht]
    exact mw_setW_small _ _ _ _ (by omega)
  · rw [ht]
    exact onlyWords_setW (onlyWords_mono honly (by simp +contextual)) (by simp)

/-! ## The tone disabler -/

/-- Each listed word holds its value, one word more. -/
theorem words_cons {off v : Nat} {l : List (Nat × Nat)} (h : mw t i off = v) (hl : ∀ p ∈ l, mw t i p.1 = p.2) :
    ∀ p ∈ (off, v) :: l, mw t i p.1 = p.2 := List.forall_mem_cons.mpr ⟨h, hl⟩

theorem words_end : ∀ p ∈ ([] : List (Nat × Nat)), mw t i p.1 = p.2 := List.forall_mem_nil _

section
variable {kind : Nat} {onSin : Bool}

/-- Is the tone one that the canceller does not act on. -/
def Deaf (s : State) (i kind : Nat) (onSin : Bool) : Prop :=
  kind = 0 ∨ ecEn s i = false ∨ bits (mw s i 0x080) 19 18 = 3 ∨ (bits (mw s i 0x080) 19 18 = 1 ∧ onSin = true) ∨
    (bits (mw s i 0x080) 19 18 = 2 ∧ onSin = false)

theorem deaf_iff : Deaf s i kind onSin ↔ (decide (kind = 0) || !ecEn s i || bits (mw s i 0x080) 19 18 == 3 ||
    (bits (mw s i 0x080) 19 18 == 1 && onSin) || (bits (mw s i 0x080) 19 18 == 2 && !onSin)) = true := by
  unfold Deaf
  simp only [Bool.or_eq_true, Bool.and_eq_true, decide_eq_true_eq, beq_iff_eq, Bool.not_eq_true', or_assoc]

theorem toneDisable_deaf (h : Deaf s i kind onSin) : toneDisable s i kind onSin = s := if_pos (deaf_iff.mp h)

section
variable (h : ¬ Deaf s i kind onSin)
include h

theorem toneDisable_heard : toneDisable s i kind onSin =
    if decide (bits (mw s i 0x080) 21 20 = 2) || decide (bits (mw s i 0x080) 21 20 = 3) || bitOf (mw (setF s i 0x480 11 8 kind) i 0x480) 22
      then setF s i 0x480 11 8 kind
    else if decide (kind % 2 = 0) || decide (bits (mw s i 0x080) 21 20 = 1) then
      stsCount (setF (noProbation (setF s i 0x480 11 8 kind) i false) i 0x480 22 22 1) i 0x4A0 1
    else if bitOf (mw (setF s i 0x480 11 8 kind) i 0x480) 21 then setF s i 0x480 11 8 kind
    else stsCount (setF (setF s i 0x480 11 8 kind) i 0x480 21 21 1) i 0x4A0 1 := if_neg fun hd => h (deaf_iff.mpr hd)

omit h in
theorem heard_word : mw (setF s i 0x480 11 8 kind) i 0x480 = putField (mw s i 0x480) 11 8 kind :=
  mw_setF_same _ _ _ _ _ _ (by decide) (by decide)

omit h in
theorem heard_bit {b : Nat} (hb : 11 < b) : bitOf (mw (setF s i 0x480 11 8 kind) i 0x480) b = bitOf (mw s i 0x480) b := by
  rw [heard_word, bitOf_putField (by decide), if_neg (by omega)]

omit h in
/-- The tone is only noted. -/
theorem heard_words : Words s (setF s i 0x480 11 8 kind) i [(0x480, putField (mw s i 0x480) 11 8 kind)] :=
  words_one heard_word (onlyWords_setF (onlyWords_refl _ _ _) (by simp))

theorem toneDisable_noted (hm : bits (mw s i 0x080) 21 20 = 2 ∨ bits (mw s i 0x080) 21 20 = 3 ∨ bitOf (mw s i 0x480) 22 = true) :
    toneDisable s i kind onSin = setF s i 0x480 11 8 kind := by
  rw [toneDisable_heard h, heard_bit (by decide)]
  refine if_pos ?_
  simpa only [Bool.or_eq_true, decide_eq_true_eq, or_assoc] using hm

section
variable (h2 : bits (mw s i 0x080) 21 20 ≠ 2) (h3 : bits (mw s i 0x080) 21 20 ≠ 3) (hoff : bitOf (mw s i 0x480) 22 = false)
include h2 h3 hoff

theorem toneDisable_acts : toneDisable s i kind onSin =
    if decide (kind % 2 = 0) || decide (bits (mw s i 0x080) 21 20 = 1) then
      stsCount (setF (noProbation (setF s i 0x480 11 8 kind) i false) i 0x480 22 22 1) i 0x4A0 1
    else if bitOf (mw s i 0x480) 21 then setF s i 0x480 11 8 kind
    else stsCount (setF (setF s i 0x480 11 8 kind) i 0x480 21 21 1) i 0x4A0 1 := by
  rw [toneDisable_heard h, heard_bit (by decide), heard_bit (by decide), hoff]
  exact if_neg (by simp [h2, h3])

theorem toneDisable_whole (hw : kind % 2 = 0 ∨ bits (mw s i 0x080) 21 20 = 1) (hroom : mw s i 0x4A0 + 2 < 2 ^ 32) :
    Words s (toneDisable s i kind onSin) i
      [(0x480, putField (putField (putField (mw s i 0x480) 11 8 kind) 20 20 0) 22 22 1), (0x640, 0), (0x4A0, mw s i 0x4A0 + 1)] := by
  have hcnt : mw (setF (noProbation (setF s i 0x480 11 8 kind) i false) i 0x480 22 22 1) i 0x4A0 = mw s i 0x4A0 := by
    unfold noProbation
    simp (disch := decide) only [mw_setF_other, Bool.false_eq_true, if_false]
  rw [toneDisable_acts h h2 h3 hoff, if_pos (by simpa using hw), stsCount_room _ _ _ (by rw [hcnt]; exact hroom), hcnt]
  unfold noProbation
  refine words_of (words_cons ?_ (words_cons ?_ (words_cons ?_ words_end))) ?_
  · simp (disch := decide) only [mw_setW_other, mw_setF_same, mw_setF_other, Bool.false_eq_true, if_false]
  · simp (disch := decide) only [mw_setW_other, mw_setF_same, mw_setF_other, Bool.false_eq_true, if_false]
    exact putField_zero (mw_lt _ _ _)
  · exact mw_setW_small _ _ _ _ (by omega)
  · simp only [Bool.false_eq_true, if_false]
    exact onlyWords_setW (onlyWords_setF (onlyWords_setF (onlyWords_setF (onlyWords_setF (onlyWords_refl _ _ _) (by simp)) (by simp))
      (by simp)) (by simp)) (by simp)

theorem toneDisable_again (hw : ¬ (kind % 2 = 0 ∨ bits (mw s i 0x080) 21 20 = 1)) (hon : bitOf (mw s i 0x480) 21 = true) :
    toneDisable s i kind onSin = setF s i 0x480 11 8 kind := by
  rw [toneDisable_acts h h2 h3 hoff, if_neg (by simpa using hw), if_pos hon]

theorem toneDisable_processor (hw : ¬ (kind % 2 = 0 ∨ bits (mw s i 0x080) 21 20 = 1)) (hno : bitOf (mw s i 0x480) 21 = false)
    (hroom : mw s i 0x4A0 + 2 < 2 ^ 32) : Words s (toneDisable s i kind onSin) i
      [(0x480, putField (putField (mw s i 0x480) 11 8 kind) 21 21 1), (0x4A0, mw s i 0x4A0 + 1)] := by
  have hcnt : mw (setF (setF s i 0x480 11 8 kind) i 0x480 21 21 1) i 0x4A0 = mw s i 0x4A0 := by
    simp (disch := decide) only [mw_setF_other]
  rw [toneDisable_acts h h2 h3 hoff, if_neg (by simpa using hw), hno, if_neg Bool.false_ne_true,
    stsCount_room _ _ _ (by rw [hcnt]; exact hroom), hcnt]
  refine words_of (words_cons ?_ (words_cons ?_ words_end)) ?_
  · simp (disch := decide) only [mw_setW_other, mw_setF_same]
  · exact mw_setW_small _ _ _ _ (by omega)
  · exact onlyWords_setW (onlyWords_setF (onlyWords_setF (onlyWords_refl _ _ _) (by simp)) (by simp)) (by simp)
end
end
end

/-! ## Codecs -/

/-- Is a leg's codec reset by a change. -/
def renewedLeg (s : State) (i : Nat) (l : Bool) : Bool :=
  codErr s i l == 0 && codKey (codWord s i l) != codKey (mw s i (codInForce l))

/-- The words of a leg after a codec change. -/
def legWords (s : State) (i : Nat) (l : Bool) : List (Nat × Nat) :=
  [(stsCod l, if renewedLeg s i l then putField (putField (mw s i (stsCod l)) 31 28 (bits (codWord s i l) 31 28)) 11 8 0
      else putField (mw s i (stsCod l)) 11 8 (codErr s i l)),
   (codInForce l, if renewedLeg s i l then codWord s i l else mw s i (codInForce l)),
   (codInForce l + 8, if renewedLeg s i l then 0 else mw s i (codInForce l + 8))]

/-- The words of a leg's codec. -/
def legOffs (l : Bool) : List Nat := [stsCod l, codInForce l, codInForce l + 8]

theorem legOffs_apart (l : Bool) : (∀ o ∈ legOffs l, o % 4 = 0 ∧ 0x400 ≤ o) ∧ (∀ o ∈ legOffs l, o ∉ legOffs (!l)) ∧
    stsCod l ≠ codInForce l ∧ stsCod l ≠ codInForce l + 8 ∧ stsCod l % 4 = 0 ∧ codInForce l % 4 = 0 ∧ (codInForce l + 8) % 4 = 0 := by
  cases l <;> decide

/-- A leg whose codec is not reset only reports its error, or none. -/
theorem legWords_kept (l : Bool) (h : renewedLeg s i l = false) :
    Words s (setF s i (stsCod l) 11 8 (codErr s i l)) i (legWords s i l) := by
  obtain ⟨-, -, h1, h2, h3, h4, h5⟩ := legOffs_apart l
  unfold legWords
  rw [h]
  refine words_of (words_cons ?_ (words_cons ?_ (words_cons ?_ words_end))) (onlyWords_setF (onlyWords_refl _ _ _) (by simp))
  · rw [if_neg Bool.false_ne_true]
    exact mw_setF_same _ _ _ _ _ _ (by decide) (by decide)
  · exact mw_setF_other _ _ _ _ _ _ _ h1 h3 h4
  · exact mw_setF_other _ _ _ _ _ _ _ h2 h3 h5

theorem codecChange_words (l : Bool) : Words s (codecChange s i l) i (legWords s i l) := by
  by_cases herr : codErr s i l = 0
  · by_cases hkey : codKey (codWord s i l) = codKey (mw s i (codInForce l))
    · have hno : renewedLeg s i l = false := by
        unfold renewedLeg
        rw [hkey]
        simp
      have h := legWords_kept l hno
      rw [herr] at h
      rwa [codecChange_same s i l herr hkey]
    · have hyes : renewedLeg s i l = true := by
        unfold renewedLeg
        simp [herr, hkey]
      obtain ⟨h1, h2, h3, honly⟩ := codecForce_words s i l
      rw [codecChange_new s i l herr hkey]
      unfold legWords
      rw [hyes]
      exact words_of (words_cons h1 (words_cons h2 (words_cons h3 words_end))) honly
  · have hno : renewedLeg s i l = false := by
      unfold renewedLeg
      simp [herr]
    have ht : codecChange s i l = setF s i (stsCod l) 11 8 (codErr s i l) := if_pos (by simpa using herr)
    rw [ht]
    exact legWords_kept l hno

/-- A change of leg P leaves what a change of leg L will do. -/
theorem legWords_after : legWords (codecChange s i false) i true = legWords s i true := by
  obtain ⟨-, honly⟩ := codecChange_words (s := s) (i := i) false
  have hword : ∀ off, off % 4 = 0 → off ∉ legOffs false → mw (codecChange s i false) i off = mw s i off := fun off h4 hno =>
    onlyWords_mw honly (fun o ho => ((legOffs_apart false).1 o ho).1) off h4 hno
  have herr : codErr (codecChange s i false) i true = codErr s i true := codErr_congr honly (legOffs_apart false).1 true
  have hcod : codWord (codecChange s i false) i true = codWord s i true := hword _ (by decide) (by decide)
  unfold legWords renewedLeg
  rw [herr, hcod, hword _ (by decide) (by decide), hword _ (by decide) (by decide), hword _ (by decide) (by decide)]

theorem codecChanges_words : Words s (codecChange (codecChange s i false) i true) i (legWords s i false ++ legWords s i true) := by
  obtain ⟨hp, hponly⟩ := codecChange_words (s := s) (i := i) false
  obtain ⟨hl, hlonly⟩ := codecChange_words (s := codecChange s i false) (i := i) true
  rw [legWords_after] at hl hlonly
  refine ⟨fun p hin => ?_, ?_⟩
  · rcases List.mem_append.mp hin with hin | hin
    · have hoff : p.1 ∈ legOffs false := List.mem_map_of_mem (f := Prod.fst) hin
      rw [onlyWords_mw hlonly (fun o ho => ((legOffs_apart true).1 o ho).1) p.1 ((legOffs_apart false).1 _ hoff).1
        ((legOffs_apart false).2.1 _ hoff)]
      exact hp p hin
    · exact hl p hin
  · rw [List.map_append]
    exact onlyWords_trans (onlyWords_mono hponly fun o ho => List.mem_append_left _ ho)
      (onlyWords_mono hlonly fun o ho => List.mem_append_right _ ho)
end

/-! ## Fax -/

section
variable {s u : State} {i : Nat}

theorem blockNow_of_only {l : List Nat} (h : OnlyWords s u i l) (hl : ∀ o ∈ l, o % 4 = 0) (h8 : 0x008 ∉ l) (h404 : 0x404 ∉ l) :
    blockNow u i = blockNow s i := by
  unfold blockNow chanLine
  rw [onlyWords_mw h hl _ (by decide) h8, onlyWords_mw h hl _ (by decide) h404, onlyWords_rd h _ _ (by decide) (by decide)]

/-- An entry of the event ring after changes of other words. -/
theorem ringEvent_after {l : List Nat} (h : OnlyWords s u i l) (hl : ∀ o ∈ l, o % 4 = 0) (h8 : 0x008 ∉ l) (h404 : 0x404 ∉ l)
    (leg : Bool) (code : Nat) : Words u (ringEvent u i leg code) i (ringWords s i (mw u i 0x520) leg code id) := by
  obtain ⟨hentry, hindex, honly⟩ := ringEvent_words u i leg code
  rw [blockNow_of_only h hl h8 h404] at hentry
  exact words_of (words_cons hentry (words_cons hindex words_end)) honly

/-- The place of an entry of the ring is no other word of page 0 that these commands write. -/
theorem ringIndex_lt (w : Nat) : ∃ ix, bits w 2 0 = ix ∧ ix < 8 := ⟨_, rfl, bits_lt w 2 0⟩

variable {sig : FaxSig}

/-- The state a signal switches to. -/
def faxGoal (s : State) (i : Nat) (sig : FaxSig) : Nat := faxTarget (faxMode s i) (bitOf (mw s i 0x110) 29) (bitOf (mw s i 0x600) 4) sig

theorem faxSwitch_idle (h : ¬ (chanState s i = chACTIVE ∨ chanState s i = chMOVING) ∨ faxGoal s i sig = 0 ∨ faxGoal s i sig ≤ faxState s i) :
    faxSwitch s i sig = s := by
  unfold faxSwitch
  dsimp only
  by_cases hlive : chanState s i = chACTIVE ∨ chanState s i = chMOVING
  · rw [if_neg (by simpa [imp_iff_not_or] using hlive)]
    refine if_pos ?_
    simpa [faxGoal] using h.resolve_left fun hno => hno hlive
  · exact if_pos (by simpa using hlive)

/-- The state in which the switch is counted. -/
def faxCounted (s : State) (i tgt : Nat) : State := setW (setF s i 0x500 25 24 tgt) i 0x518 (mw s i 0x518 + 1)

theorem faxCounted_only (tgt : Nat) : OnlyWords s (faxCounted s i tgt) i [0x518, 0x500] :=
  onlyWords_setW (onlyWords_setF (onlyWords_refl _ _ _) (by simp)) (by simp)

theorem faxCounted_shows (tgt : Nat) (hroom : mw s i 0x518 + 2 < 2 ^ 32) :
    Words s (faxCounted s i tgt) i [(0x518, mw s i 0x518 + 1), (0x500, putField (mw s i 0x500) 25 24 tgt)] := by
  refine words_of (words_cons ?_ (words_cons ?_ words_end)) ?_
  · exact mw_setW_small _ _ _ _ (by omega)
  · unfold faxCounted
    simp (disch := decide) only [mw_setW_other, mw_setF_same]
  · exact faxCounted_only tgt

theorem faxSwitch_goes (hlive : chanState s i = chACTIVE ∨ chanState s i = chMOVING) (hlt : faxState s i < faxGoal s i sig)
    (hroom : mw s i 0x518 + 2 < 2 ^ 32) : faxSwitch s i sig =
      if faxGoal s i sig = 1 then
        if sig == .ansam then setF (setF (faxCounted s i (faxGoal s i sig)) i 0x500 31 28 (vbdCodec s i)) i 0x600 4 4 1
        else setF (faxCounted s i (faxGoal s i sig)) i 0x500 31 28 (vbdCodec s i)
      else genStop (ringEvent (faxCounted s i (faxGoal s i sig)) i false 0x30) i := by
  have hcnt : mw (setF s i 0x500 25 24 (faxGoal s i sig)) i 0x518 = mw s i 0x518 :=
    mw_setF_other _ _ _ _ _ _ _ (by decide) (by decide) (by decide)
  have hstate : stsCount (setF s i 0x500 25 24 (faxGoal s i sig)) i 0x518 1 = faxCounted s i (faxGoal s i sig) := by
    rw [stsCount_room _ _ _ (by rw [hcnt]; exact hroom), hcnt]
    rfl
  have hvbd : vbdCodec (faxCounted s i (faxGoal s i sig)) i = vbdCodec s i := by
    have honly := faxCounted_only (s := s) (i := i) (faxGoal s i sig)
    have hcod : codWord (faxCounted s i (faxGoal s i sig)) i false = codWord s i false :=
      onlyWords_mw honly (by decide) _ (by decide) (by decide)
    unfold vbdCodec
    rw [hcod]
  unfold faxSwitch
  dsimp only
  rw [if_neg (by simpa [imp_iff_not_or] using hlive)]
  refine (if_neg ?_).trans ?_
  · show ¬ (decide (faxGoal s i sig = 0) || decide (faxGoal s i sig ≤ faxState s i)) = true
    simp only [Bool.or_eq_true, decide_eq_true_eq]
    omega
  · show (if faxGoal s i sig = 1 then _ else _) = _
    rw [show faxTarget (faxMode s i) (bitOf (mw s i 0x110) 29) (bitOf (mw s i 0x600) 4) sig = faxGoal s i sig from rfl, hstate, hvbd]

/-- A switch to VBD. -/
theorem faxSwitch_vbd (hlive : chanState s i = chACTIVE ∨ chanState s i = chMOVING) (hlt : faxState s i < faxGoal s i sig)
    (hroom : mw s i 0x518 + 2 < 2 ^ 32) (h1 : faxGoal s i sig = 1) : Words s (faxSwitch s i sig) i
      [(0x518, mw s i 0x518 + 1), (0x500, putField (putField (mw s i 0x500) 25 24 1) 31 28 (vbdCodec s i)),
        (0x600, if sig = .ansam then putField (mw s i 0x600) 4 4 1 else mw s i 0x600)] := by
  have hgo := faxSwitch_goes hlive hlt hroom
  obtain ⟨hw, -⟩ := faxCounted_shows (s := s) (i := i) (faxGoal s i sig) hroom
  have honly := faxCounted_only (s := s) (i := i) (faxGoal s i sig)
  obtain ⟨h518, hw'⟩ := List.forall_mem_cons.mp hw
  obtain ⟨h500, -⟩ := List.forall_mem_cons.mp hw'
  have h600 : mw (faxCounted s i (faxGoal s i sig)) i 0x600 = mw s i 0x600 := onlyWords_mw honly (by decide) _ (by decide) (by decide)
  rw [hgo, if_pos h1]
  rw [h1] at h518 h500 h600 honly ⊢
  dsimp only at h518 h500
  have hmore : OnlyWords s (faxCounted s i 1) i [0x518, 0x500, 0x600] := onlyWords_mono honly (by decide)
  by_cases hans : sig = .ansam
  · rw [if_pos (by rw [hans]; rfl), if_pos hans]
    refine words_of (words_cons ?_ (words_cons ?_ (words_cons ?_ words_end))) (onlyWords_setF (onlyWords_setF hmore (by simp)) (by simp))
    · simp (disch := decide) only [mw_setF_other, h518]
    · simp (disch := decide) only [mw_setF_other, mw_setF_same, h500]
    · simp (disch := decide) only [mw_setF_other, mw_setF_same, h600]
  · rw [if_neg (by simpa using hans), if_neg hans]
    refine words_of (words_cons ?_ (words_cons ?_ (words_cons ?_ words_end))) (onlyWords_setF hmore (by simp))
    · simp (disch := decide) only [mw_setF_other, h518]
    · simp (disch := decide) only [mw_setF_same, h500]
    · simp (disch := decide) only [mw_setF_other, h600]

/-- A switch to T.38. -/
theorem faxSwitch_t38 (hlive : chanState s i = chACTIVE ∨ chanState s i = chMOVING) (hlt : faxState s i < faxGoal s i sig)
    (hroom : mw s i 0x518 + 2 < 2 ^ 32) (h2 : faxGoal s i sig = 2) : Words s (faxSwitch s i sig) i
      ([(0x518, mw s i 0x518 + 1), (0x500, putField (mw s i 0x500) 25 24 2)] ++
        ringWords s i (mw s i 0x520) false 0x30 fun v => putField (putField v 27 27 0) 26 26 0) := by
  have hgo := faxSwitch_goes hlive hlt hroom
  obtain ⟨hw, -⟩ := faxCounted_shows (s := s) (i := i) (faxGoal s i sig) hroom
  have honly := faxCounted_only (s := s) (i := i) (faxGoal s i sig)
  obtain ⟨h518, hw'⟩ := List.forall_mem_cons.mp hw
  obtain ⟨h500, -⟩ := List.forall_mem_cons.mp hw'
  have hring := ringEvent_after honly (by decide) (by decide) (by decide) false 0x30
  rw [onlyWords_mw honly (by decide) 0x520 (by decide) (by decide)] at hring
  rw [hgo, h2, if_neg (by decide)]
  rw [h2] at h518 h500 honly hring
  dsimp only at h518 h500
  generalize faxCounted s i 2 = u at *
  obtain ⟨hrw, hronly⟩ := hring
  obtain ⟨hentry, hrw'⟩ := List.forall_mem_cons.mp hrw
  obtain ⟨hindex, -⟩ := List.forall_mem_cons.mp hrw'
  obtain ⟨ix, hix, hlt8⟩ := ringIndex_lt (mw s i 0x520)
  unfold ringWords at hronly ⊢
  dsimp only [List.map_cons, List.map_nil, id] at hronly hentry hindex ⊢
  rw [hix] at hronly hentry hindex ⊢
  generalize ringEvent u i false 0x30 = v at *
  have hkeep : ∀ off, off % 4 = 0 → off ∉ [0x524 + 4 * ix, 0x520] → mw v i off = mw u i off := fun off h4 hno =>
    onlyWords_mw hronly (by simp) off h4 hno
  unfold genStop
  refine words_of (words_cons ?_ (words_cons ?_ (words_cons ?_ (words_cons ?_ words_end)))) ?_
  · rw [mw_setF_other _ _ _ _ _ _ _ (by decide) (by decide) (by decide), mw_setF_other _ _ _ _ _ _ _ (by decide) (by decide) (by decide),
      hkeep _ (by decide) (by simp; omega), h518]
  · rw [mw_setF_other _ _ _ _ _ _ _ (by decide) (by decide) (by decide), mw_setF_other _ _ _ _ _ _ _ (by decide) (by decide) (by decide),
      hkeep _ (by decide) (by simp; omega), h500]
  · rw [mw_setF_other _ _ _ _ _ _ _ (by omega) (by decide) (by omega), mw_setF_other _ _ _ _ _ _ _ (by omega) (by decide) (by omega)]
    exact hentry
  · simp (disch := decide) only [mw_setF_same]
    rw [hindex]
  · refine onlyWords_setF (onlyWords_setF (onlyWords_trans (onlyWords_mono honly ?_) (onlyWords_mono hronly ?_)) (by simp)) (by simp)
    · simp +contextual
    · simp +contextual

/-- The words of a return to voice. -/
def voiceWords (s : State) (i : Nat) : List (Nat × Nat) :=
  [(0x500, putField (putField (putField (mw s i 0x500) 25 24 0) 31 28 (bits (mw s i 0x100) 31 28)) 11 8 0),
   (0x600, putField (mw s i 0x600) 4 4 0), (0x610, mw s i 0x100), (0x618, 0)]

/-- The codec of leg P restarts in voice. -/
def voiceAgain (s : State) (i : Nat) : State := codecForce (setF (setF s i 0x500 25 24 0) i 0x600 4 4 0) i false

theorem voiceAgain_words : Words s (voiceAgain s i) i (voiceWords s i) := by
  obtain ⟨h500, h610, h618, honly⟩ := codecForce_words (setF (setF s i 0x500 25 24 0) i 0x600 4 4 0) i false
  have hcod : codWord (setF (setF s i 0x500 25 24 0) i 0x600 4 4 0) i false = mw s i 0x100 := by
    show mw _ i 0x100 = _
    simp (disch := decide) only [mw_setF_other]
  rw [hcod] at h500 h610
  refine words_of (words_cons (h500.trans ?_) (words_cons ?_ (words_cons h610 (words_cons h618 words_end)))) ?_
  · show putField (putField (mw _ i 0x500) 31 28 _) 11 8 0 = _
    simp (disch := decide) only [mw_setF_other, mw_setF_same]
  · refine (onlyWords_mw honly (by decide) 0x600 (by decide) (by decide)).trans ?_
    simp (disch := decide) only [mw_setF_other, mw_setF_same]
  · refine onlyWords_trans (onlyWords_setF (onlyWords_setF (onlyWords_refl _ _ _) ?_) ?_) (onlyWords_mono honly ?_)
    · simp [voiceWords]
    · simp [voiceWords]
    · exact (show ∀ o ∈ [stsCod false, codInForce false, codInForce false + 8], o ∈ [0x500, 0x600, 0x610, 0x618] by decide)

/-- A return to voice from T.38 leaves an entry in the event ring. -/
theorem voiceAgain_event : Words s (ringEvent (voiceAgain s i) i false 0xB0) i
    (voiceWords s i ++ ringWords s i (mw s i 0x520) false 0xB0 id) := by
  obtain ⟨hw, honly⟩ := voiceAgain_words (s := s) (i := i)
  have hoffs : (voiceWords s i).map (·.1) = [0x500, 0x600, 0x610, 0x618] := rfl
  rw [hoffs] at honly
  have hring := ringEvent_after honly (by decide) (by decide) (by decide) false 0xB0
  rw [onlyWords_mw honly (by decide) 0x520 (by decide) (by decide)] at hring
  generalize voiceAgain s i = u at *
  obtain ⟨hrw, hronly⟩ := hring
  refine ⟨fun p hin => ?_, ?_⟩
  · rcases List.mem_append.mp hin with hin | hin
    · have hoff : p.1 ∈ [0x500, 0x600, 0x610, 0x618] := hoffs ▸ List.mem_map_of_mem (f := Prod.fst) hin
      obtain ⟨hmod, h520, hhigh⟩ := (show ∀ o ∈ [0x500, 0x600, 0x610, 0x618], o % 4 = 0 ∧ o ≠ 0x520 ∧ (o < 0x524 ∨ 0x544 ≤ o) by decide) _ hoff
      refine (onlyWords_mw hronly ?_ p.1 hmod ?_).trans (hw p hin)
      · unfold ringWords
        simp
      · obtain ⟨ix, hix, hlt8⟩ := ringIndex_lt (mw s i 0x520)
        unfold ringWords
        rw [hix]
        simp only [List.map_cons, List.map_nil, List.mem_cons, List.not_mem_nil, or_false]
        omega
    · exact hrw p hin
  · rw [List.map_append, hoffs]
    exact onlyWords_trans (onlyWords_mono honly fun o ho => List.mem_append_left _ ho)
      (onlyWords_mono hronly fun o ho => List.mem_append_right _ ho)

theorem faxReturn_goes (h : ¬ (faxState s i = 0 ∨ bitOf (mw s i 0x110) 28 = true)) : faxReturn s i =
    if faxState s i == 2 then ringEvent (voiceAgain s i) i false 0xB0 else voiceAgain s i := by
  unfold faxReturn
  exact if_neg (by simpa using h)
end

/-! ## The obligation -/

/-- Settles O45: each command is its operation on the channel whose block program runs on the core. -/
theorem cancellerCodecsAndFaxFollowSignals : Obligations.CancellerCodecsAndFaxFollowSignals := by
  unfold Obligations.CancellerCodecsAndFaxFollowSignals
  intro s c kind onSin sig
  refine ⟨fun hnone k hk => ?_, fun i hi => ?_⟩
  · simp only [List.mem_cons, List.not_mem_nil, or_false] at hk
    rcases hk with rfl | rfl | rfl | rfl | rfl | rfl | rfl
    · exact onChannel_none hnone ecClearSeq
    · exact onChannel_none hnone ecDiverge
    · exact onChannel_none hnone fun s i => toneDisable s i kind.val onSin
    · exact onChannel_none hnone toneRelease
    · exact onChannel_none hnone fun s i => codecChange (codecChange s i false) i true
    · exact onChannel_none hnone fun s i => faxSwitch s i sig
    · exact onChannel_none hnone faxReturn
  dsimp only
  have htone : exec (.toneDisable c kind onSin) s = .next (toneDisable s i kind.val onSin) :=
    onChannel_says hi fun s i => toneDisable s i kind.val onSin
  have hfax : exec (.faxSwitchover c sig) s = .next (faxSwitch s i sig) := onChannel_says hi fun s i => faxSwitch s i sig
  have hcodec : exec (.codecChange c) s = .next (codecChange (codecChange s i false) i true) :=
    onChannel_says hi fun s i => codecChange (codecChange s i false) i true
  refine ⟨fun h => ?_, fun h => ?_, fun h => ?_, fun h hroom => ?_, ⟨fun h => ?_, fun h hm => ?_, fun h h2 h3 hoff =>
    ⟨fun hw hroom => ?_, fun hw hon => ?_, fun hw hno hroom => ?_⟩⟩, ?_, ?_, ⟨fun h => ?_, fun hlive hlt hroom => ⟨fun h1 => ?_, fun h2 => ?_⟩⟩,
    fun h => ?_, fun h hno => ?_, fun h h38 => ?_⟩
  · exact (onChannel_says hi ecClearSeq).trans (congrArg _ (if_pos h))
  · exact Does.of_next (onChannel_says hi ecClearSeq) (ecClearSeq_shows h)
  · exact (onChannel_says hi ecDiverge).trans (congrArg _ (if_neg (by rw [h]; exact Bool.false_ne_true)))
  · exact Does.of_next (onChannel_says hi ecDiverge) (ecDiverge_shows h hroom)
  · exact htone.trans (congrArg _ (toneDisable_deaf h))
  · exact Does.of_next (htone.trans (congrArg _ (toneDisable_noted h hm))) heard_words
  · exact Does.of_next htone (toneDisable_whole h h2 h3 hoff hw hroom)
  · exact Does.of_next (htone.trans (congrArg _ (toneDisable_again h h2 h3 hoff hw hon))) heard_words
  · exact Does.of_next htone (toneDisable_processor h h2 h3 hoff hw hno hroom)
  · exact Does.of_next (onChannel_says hi toneRelease)
      (words_one (mw_setF_same _ _ _ _ _ _ (by decide) (by decide)) (onlyWords_setF (onlyWords_refl _ _ _) (by simp)))
  · exact Does.of_next hcodec codecChanges_words
  · exact hfax.trans (congrArg _ (faxSwitch_idle h))
  · exact Does.of_next hfax (faxSwitch_vbd hlive hlt hroom h1)
  · exact Does.of_next hfax (faxSwitch_t38 hlive hlt hroom h2)
  · refine (onChannel_says hi faxReturn).trans (congrArg _ ?_)
    unfold faxReturn
    exact if_pos (by simpa using h)
  · refine Does.of_next ((onChannel_says hi faxReturn).trans (congrArg _ (faxReturn_goes h))) ?_
    rw [if_neg (by simpa using hno)]
    exact voiceAgain_words
  · refine Does.of_next ((onChannel_says hi faxReturn).trans (congrArg _ (faxReturn_goes h))) ?_
    rw [if_pos (by simpa using h38)]
    exact voiceAgain_event

end Sys2Proof.Machine
end

section
/-! PROOFS.  Ports, received frames, cells and the receive queues (O47). -/

namespace Sys2Proof.Machine

open Safety

set_option Elab.async false

/-! ### The register of a port -/

theorem portCells_setBit (p v en : Nat) : portCells p (setBit v 31) en = portStored p v en :=
  portCells_congr p _ v en fun hi lo hh hl => bits_setBit v hi lo 31 hh hl

theorem portCells_clrBit (p v en : Nat) : portCells p (clrBit v 31) en = portStored p v en :=
  portCells_congr p _ v en fun hi lo hh hl => bits_clrBit v hi lo 31 hh hl

theorem portStored_ids (p n en : Nat) : ∀ f ∈ (portStored p n en).map (·.1), f.id ≠ F.PKE_P_STAT_UP.id := by
  unfold portStored
  split <;> split <;> simp +decide

/-- The writes by which a rising EN applies the stored mode, FEC and AN, and judges them. -/
theorem applied_puts {u w : State} {p mode fec an : Nat} (hm : mode < 8) (hc : fec < 4) (hw : w = puts u [(I.pMode, p, mode), (I.pFec, p, fec), (I.pAn, p, an)]) :
    w.wr F.PKE_P_STAT_CFGERR p (b2n (!fecOffered (w.rd I.pMode p) (w.rd I.pFec p))) =
    puts u [(I.pMode, p, mode), (I.pFec, p, fec), (I.pAn, p, an), (F.PKE_P_STAT_CFGERR, p, if fecOffered mode fec then 0 else 1)] := by
  have hm8 : w.rd I.pMode p = mode := by
    rw [hw]
    exact (puts_rd_at [I.pMode, I.pFec, I.pAn] 0 (by decide)).trans (Nat.mod_eq_of_lt hm)
  have hc4 : w.rd I.pFec p = fec := by
    rw [hw]
    exact (puts_rd_at [I.pMode, I.pFec, I.pAn] 1 (by decide)).trans (Nat.mod_eq_of_lt hc)
  rw [hm8, hc4, hw]
  cases fecOffered mode fec <;> rfl

theorem portDown_eq (s : State) (p : Nat) : portDown s p = puts s (if s.rd F.PKE_P_STAT_UP p = 1 then portLost p else []) := by
  rcases flag_cases s p (f := F.PKE_P_STAT_UP) rfl with h | h
  · unfold portDown
    rw [on_of_zero h, h]
    rfl
  · rw [portDown_up s p h, if_pos h]
    rfl

section
variable {s : State} {ini : Init} {p : Nat} (v : Word) (hf : s.fabric = true) (hp : selPort s ini = some p)
include hf hp

theorem portEnable_next : exec (.portEnable ini v) s = .next (portCfgWrite s p (setBit v.toNat 31)) := by
  show execPortEnable ini v s = _
  unfold execPortEnable
  rw [hp]
  exact if_pos hf

theorem portDisable_next : exec (.portDisable ini v) s = .next (portCfgWrite s p (clrBit v.toNat 31)) := by
  show execPortDisable ini v s = _
  unfold execPortDisable
  rw [hp]
  exact if_pos hf

/-- A write of EN = 1 to an enabled port only stores. -/
theorem portEnable_again (he : s.rd F.PKE_P_CFG_EN p = 1) : Puts (.portEnable ini v) s (portStored p v.toNat 1) := by
  refine (portEnable_next v hf hp).trans (congrArg _ ?_)
  rw [portCfg_plain s p _ true (by rw [bitOf_setBit]; simp), portCells_setBit, on_of_one he]
  rfl

/-- A write of EN = 0 to a disabled port only stores. -/
theorem portDisable_again (he : s.rd F.PKE_P_CFG_EN p = 0) : Puts (.portDisable ini v) s (portStored p v.toNat 0) := by
  refine (portDisable_next v hf hp).trans (congrArg _ ?_)
  rw [portCfg_plain s p _ false (by rw [bitOf_clrBit]; simp), portCells_clrBit, on_of_zero he]
  rfl

/-- A rising EN applies MODE, FEC and AN, and judges them. -/
theorem portEnable_rises (he : s.rd F.PKE_P_CFG_EN p = 0) :
    let n := v.toNat
    let mode := if bits n 30 28 ≤ 4 then bits n 30 28 else s.rd F.PKE_P_CFG_MODE p
    let fec := if bits n 27 26 ≤ 2 then bits n 27 26 else s.rd F.PKE_P_CFG_FEC p
    Puts (.portEnable ini v) s (portStored p n 1 ++ [(I.pMode, p, mode), (I.pFec, p, fec), (I.pAn, p, bitN n 25),
        (F.PKE_P_STAT_CFGERR, p, if fecOffered mode fec then 0 else 1)]) := by
  intro n mode fec
  refine (portEnable_next v hf hp).trans (congrArg _ ?_)
  rw [portCfg_plain s p _ true (by rw [bitOf_setBit]; simp), portCells_setBit, on_of_zero he, puts_append]
  obtain ⟨hmode, hfec, han, -⟩ := portCells_reads s p n 1
  change (puts s (portStored p n 1)).rd _ _ = mode at hmode
  change (puts s (portStored p n 1)).rd _ _ = fec at hfec
  change (puts s (portStored p n 1)).rd _ _ = _ at han
  refine (if_pos rfl).trans (applied_puts (hmode ▸ State.rd_lt _ F.PKE_P_CFG_MODE _) (hfec ▸ State.rd_lt _ F.PKE_P_CFG_FEC _) ?_)
  show (((puts s (portStored p n 1)).wr _ _ ((puts s (portStored p n 1)).rd _ _)).wr _ _ ((puts s (portStored p n 1)).rd _ _)).wr _ _
    ((puts s (portStored p n 1)).rd _ _) = _
  rw [hmode, hfec, han]
  rfl

/-- A clear of EN takes the port down. -/
theorem portDisable_falls (he : s.rd F.PKE_P_CFG_EN p = 1) (hq : ∀ e ∈ s.egress, e.1 / 9 ≠ p) :
    Puts (.portDisable ini v) s (portStored p v.toNat 0 ++ if s.rd F.PKE_P_STAT_UP p = 1 then portLost p else []) := by
  refine (portDisable_next v hf hp).trans (congrArg _ ?_)
  rw [portCfg_plain s p _ false (by rw [bitOf_clrBit]; simp), portCells_clrBit, on_of_one he, puts_append]
  have hup : (puts s (portStored p v.toNat 0)).rd F.PKE_P_STAT_UP p = s.rd F.PKE_P_STAT_UP p :=
    sameOtherCells_puts s _ rfl _ _ (portStored_ids p v.toNat 0)
  refine (if_neg Bool.false_ne_true).trans ((if_pos rfl).trans ?_)
  show endQueued (portDown (puts s (portStored p v.toNat 0)) p) p = _
  rw [portDown_eq, hup]
  refine endQueued_none _ p ?_
  rw [puts_egress, puts_egress]
  exact hq
end

/-! ### The link of a port -/

section
variable {s : State} {p : Fin 8}

/-- What a link that comes up writes, its latencies apart. -/
def portUpCells (s : State) (i : Nat) : List (Fld × Nat × Nat) :=
  [(F.PKE_P_STAT_UP, i, 1), (F.PKE_P_STAT_ANDONE, i, s.rd I.pAn i), (F.PKE_P_STAT_FECACT, i, s.rd I.pFec i),
    (F.PKE_P_STAT_LINKCHG, i, 1), (F.PKE_IRQSTAT_LINK, 0, 1)]

/-- When a link can come up. -/
def LinkComes (s : State) (i : Nat) : Prop :=
  s.serving = true ∧ s.rd F.PKE_P_CFG_EN i = 1 ∧ s.rd F.PKE_P_STAT_CFGERR i = 0 ∧ 1 ≤ s.rd I.pMode i ∧ s.rd F.PKE_P_STAT_UP i = 0

theorem linkComes_iff (s : State) (i : Nat) : (s.serving && s.on F.PKE_P_CFG_EN i && !s.on F.PKE_P_STAT_CFGERR i && decide (1 ≤ s.rd I.pMode i) &&
    !s.on F.PKE_P_STAT_UP i) = true ↔ LinkComes s i := by
  unfold LinkComes
  rw [on_flag s i (f := F.PKE_P_CFG_EN) rfl]
  simp only [Bool.and_eq_true, Bool.not_eq_true', decide_eq_true_eq, State.on, bne_eq_false_iff_eq, and_assoc]

theorem portUpCells_reads (s : State) (i : Nat) (g : Fld) (j : Nat)
    (hg : ∀ f ∈ [F.PKE_P_STAT_UP, F.PKE_P_STAT_ANDONE, F.PKE_P_STAT_FECACT, F.PKE_P_STAT_LINKCHG, F.PKE_IRQSTAT_LINK], f.id ≠ g.id) :
    (puts s (portUpCells s i)).rd g j = s.rd g j := sameOtherCells_puts s (portUpCells s i) rfl g j hg

theorem portUp_no (h : ¬ LinkComes s p.val) : exec (.portLinkChange p true) s = .next s := by
  show execPortLinkChange p true s = _
  refine (if_pos rfl).trans (congrArg _ ?_)
  unfold portUp
  exact if_neg fun hh => h ((linkComes_iff s p.val).mp hh)

theorem portUp_comes (h : LinkComes s p.val) : exec (.portLinkChange p true) s =
    .next (loadLatency (puts s (portUpCells s p.val)) p.val (s.rd I.pMode p.val) (s.rd I.pFec p.val)) := by
  show execPortLinkChange p true s = _
  refine (if_pos rfl).trans (congrArg _ ?_)
  unfold portUp
  rw [if_pos ((linkComes_iff s p.val).mpr h)]
  show loadLatency (puts s (portUpCells s p.val)) p.val _ _ = _
  congr 1
  · exact puts_rd_other [F.PKE_P_STAT_UP, F.PKE_P_STAT_ANDONE, F.PKE_P_STAT_FECACT] I.pMode p.val (by decide) (l := (portUpCells s p.val).take 3)
  · exact puts_rd_other [F.PKE_P_STAT_UP, F.PKE_P_STAT_ANDONE, F.PKE_P_STAT_FECACT] I.pFec p.val (by decide) (l := (portUpCells s p.val).take 3)

/-- A link that comes up with overridden latencies leaves them. -/
theorem portUp_override (h : LinkComes s p.val) (ho : s.rd F.TMU_LAT_RX_OVR p.val = 1) : Puts (.portLinkChange p true) s (portUpCells s p.val) := by
  refine (portUp_comes h).trans (congrArg _ ?_)
  unfold loadLatency
  exact if_pos (on_of_one ((portUpCells_reads s p.val F.TMU_LAT_RX_OVR p.val (by decide)).trans ho))

/-- A link that comes up loads its latencies. -/
theorem portUp_loads (h : LinkComes s p.val) (ho : s.rd F.TMU_LAT_RX_OVR p.val = 0) :
    let trim := fun d => Config.latTrim p.val (s.rd I.pMode p.val) (s.rd I.pFec p.val) d ((List.range 27).map fun k => s.rd F.FUS_SHADOW_WORD (69 + k))
    Puts (.portLinkChange p true) s (portUpCells s p.val ++
      [(F.TMU_LAT_RX_LAT, p.val, trim 0), (F.TMU_LAT_TX_LAT, p.val, trim 1), (F.TMU_LAT_RX_LOADED, p.val, 1)]) := by
  refine (portUp_comes h).trans (congrArg _ ?_)
  rw [puts_append]
  unfold loadLatency
  have hsh : ((List.range 27).map fun k => (puts s (portUpCells s p.val)).rd F.FUS_SHADOW_WORD (69 + k)) =
      (List.range 27).map fun k => s.rd F.FUS_SHADOW_WORD (69 + k) :=
    List.map_congr_left fun k _ => portUpCells_reads s p.val F.FUS_SHADOW_WORD (69 + k) (by decide)
  rw [on_of_zero ((portUpCells_reads s p.val F.TMU_LAT_RX_OVR p.val (by decide)).trans ho), if_neg Bool.false_ne_true, hsh]
  rfl

theorem portLinkDown (p : Fin 8) (s : State) : exec (.portLinkChange p false) s =
    .next (puts s (if s.rd F.PKE_P_STAT_UP p.val = 1 then portLost p.val else [])) := by
  show execPortLinkChange p false s = _
  exact (if_neg Bool.false_ne_true).trans (congrArg _ (portDown_eq s p.val))
end

/-! ### What a frame is, read from the port's registers -/

section
variable {s t : State} {p vid : Nat} {fs : List Fld} (h : SameOtherCells s t fs)
  (hfs : ∀ f ∈ fs, ∀ g ∈ [F.PKE_LA_CFG_VALID, F.PKE_LA_CFG_V6, F.PKE_LA_CFG_PORTMASK, F.PKE_LA_CFG_VID, F.PKE_LA_ADDR0_ADDR, F.PKE_LA_ADDR1_ADDR,
    F.PKE_LA_ADDR2_ADDR, F.PKE_LA_ADDR3_ADDR, F.PKE_CWETYPE_ETYPE], f.id ≠ g.id)
include h hfs

theorem localAddr_congr (v6 : Bool) (dst : List Byte) : localAddr t p vid v6 dst = localAddr s p vid v6 dst := by
  have hr : ∀ g ∈ [F.PKE_LA_CFG_VALID, F.PKE_LA_CFG_V6, F.PKE_LA_CFG_PORTMASK, F.PKE_LA_CFG_VID, F.PKE_LA_ADDR0_ADDR, F.PKE_LA_ADDR1_ADDR,
      F.PKE_LA_ADDR2_ADDR, F.PKE_LA_ADDR3_ADDR, F.PKE_CWETYPE_ETYPE], ∀ j, t.rd g j = s.rd g j := fun g hg j => h g j fun f hf => hfs f hf g hg
  simp only [List.forall_mem_cons] at hr
  obtain ⟨hvalid, hv6, hmask, hvid, h0, h1, h2, h3, -⟩ := hr
  unfold localAddr laBytes State.on
  simp only [hvalid, hv6, hmask, hvid, h0, h1, h2, h3]

theorem parseUdp_congr (v6 : Bool) (src dst d : List Byte) : parseUdp t p vid v6 src dst d = parseUdp s p vid v6 src dst d := by
  unfold parseUdp
  rw [localAddr_congr h hfs]

/-- What a frame is depends on the local addresses and the tunnel's Ethertype only. -/
theorem parseFrame_congr (b : List Byte) : parseFrame t p b = parseFrame s p b := by
  have hety : t.rd F.PKE_CWETYPE_ETYPE = s.rd F.PKE_CWETYPE_ETYPE := h _ _ fun f hf => hfs f hf _ (by simp)
  unfold parseFrame parseIp4 parseIp6 State.on
  simp only [parseUdp_congr h hfs, hety]
end

/-! ### Cells -/

theorem findCell_some {s : State} {st k i : Nat} (h : findCell s st k = some i) (hk : k ≤ cellCount s) :
    i < cellCount s ∧ s.rd I.cellOwner i = 0 := by
  induction k with
  | zero => exact absurd h (by simp [findCell])
  | succ k ih =>
    unfold findCell at h
    dsimp only at h
    split at h
    · exact ih h (by omega)
    · next hoff =>
      obtain rfl := Option.some.inj h
      exact ⟨Nat.mod_lt _ (by omega), by simpa [State.on] using hoff⟩

theorem findCell_none {s : State} {st k : Nat} (h : findCell s st k = none) :
    ∀ m, m < k → s.rd I.cellOwner ((st + (cellCount s - 1 - m)) % cellCount s) ≠ 0 := by
  induction k with
  | zero => omega
  | succ k ih =>
    unfold findCell at h
    dsimp only at h
    split at h
    · next hon =>
      intro m hm
      rcases Nat.lt_succ_iff_lt_or_eq.mp hm with hlt | rfl
      · exact ih h m hlt
      · simpa [State.on] using hon
    · cases h

/-- Every cell of the region is looked at. -/
theorem findCell_free {s : State} (st : Nat) (h : ∃ j, j < cellCount s ∧ s.rd I.cellOwner j = 0) :
    ∃ i, findCell s st (cellCount s) = some i ∧ i < cellCount s ∧ s.rd I.cellOwner i = 0 := by
  cases hfind : findCell s st (cellCount s) with
  | some i => exact ⟨i, rfl, findCell_some hfind le_rfl⟩
  | none =>
    obtain ⟨j, hj, hfree⟩ := h
    generalize hn : cellCount s = n at *
    have hst := Nat.mod_lt st (show 0 < n by omega)
    have hlook := findCell_none hfind
    rw [hn] at hlook
    refine absurd hfree ?_
    have hm := hlook (n - 1 - (j + n - st % n) % n)
    have hd := Nat.mod_lt (j + n - st % n) (show 0 < n by omega)
    rw [show n - 1 - (n - 1 - (j + n - st % n) % n) = (j + n - st % n) % n by omega] at hm
    have hix : (st + (j + n - st % n) % n) % n = j := by
      rw [Nat.add_mod, Nat.mod_mod, ← Nat.add_mod, ← Nat.mod_add_mod, show st % n + (j + n - st % n) = j + n by omega, Nat.add_mod_right,
        Nat.mod_eq_of_lt hj]
    rw [hix] at hm
    exact hm (by omega)

/-- A cell of its guarantee is granted to a consumer; which free one is a free value. -/
theorem takeCells_one {s : State} {c : Nat} (hg : cellH s c < cellG s c) (hfree : ∃ j, j < cellCount s ∧ s.rd I.cellOwner j = 0) :
    ∃ j, j < cellCount s ∧ s.rd I.cellOwner j = 0 ∧
      takeCells s c 1 = some ([j], { puts s [(I.cellOwner, j, c + 1), (F.PKE_CELLHELD_HELD, c, cellH s c + 1)] with freeCtr := s.freeCtr + 1 }) := by
  obtain ⟨j, hfind, hj, hown⟩ := findCell_free (Config.freeNat s.freeCtr) hfree
  refine ⟨j, hj, hown, ?_⟩
  have htake : takeCell s c = some (j, { puts s [(I.cellOwner, j, c + 1), (F.PKE_CELLHELD_HELD, c, cellH s c + 1)] with freeCtr := s.freeCtr + 1 }) := by
    unfold takeCell cellGranted
    rw [if_pos (by simp [hg])]
    dsimp only [State.draw]
    rw [hfind]
    rfl
  unfold takeCells
  rw [htake]
  rfl

theorem freeCell_owned {s : State} {j c : Nat} (h : s.rd I.cellOwner j = c + 1) :
    freeCell s j = puts s [(I.cellOwner, j, 0), (F.PKE_CELLHELD_HELD, c, cellH s c - 1)] := by
  unfold freeCell
  rw [if_pos (on_of_ne_zero (by omega)), h]
  rfl

/-- The writes by which a cell of consumer c goes to receive queue q. -/
def cellMoved (u : State) (j c q : Nat) : List (Fld × Nat × Nat) :=
  [(I.cellOwner, j, 0), (F.PKE_CELLHELD_HELD, c, cellH u c - 1), (I.cellOwner, j, 8 + q + 1), (F.PKE_CELLHELD_HELD, 8 + q, cellH u (8 + q) + 1)]

theorem moveCells_one {u : State} {j c q : Nat} (h : u.rd I.cellOwner j = c + 1) (hg : cellH u (8 + q) < cellG u (8 + q)) (hc : c < 8) :
    moveCells u (8 + q) [j] = some (puts u (cellMoved u j c q)) := by
  have hheld : cellH (freeCell u j) (8 + q) = cellH u (8 + q) := by
    rw [freeCell_owned h]
    exact (State.rd_wr_inst _ F.PKE_CELLHELD_HELD c _ _ (by omega)).trans (State.rd_wr_cell _ I.cellOwner F.PKE_CELLHELD_HELD _ _ _ (by decide))
  unfold moveCells cellGranted
  rw [if_pos (by simp [hg])]
  dsimp only
  rw [hheld, freeCell_owned h]
  rfl

/-! ### The receive queues -/

/-- What the count of a new descriptor writes. -/
def queuedCells (u : State) (q : Nat) : List (Fld × Nat × Nat) :=
  (F.PKE_RQ_WP_WP, q, u.rd F.PKE_RQ_WP_WP q + 1) :: if u.rd F.PKE_RQ_CFG_IE q = 1 then [(F.PKE_IRQSTAT_RXQ, 0, 1)] else []

theorem rqDeliver_one {u : State} {f : Rcvd} {j c q r a : Nat} (hcells : f.cells = [j])
    (hplace : ringPlace (u.rd F.PKE_RQ_BASE_BASE q) (u.rd F.PKE_RQ_CFG_SIZE q) (u.rd F.PKE_RQ_WP_WP q) (u.rd F.PKE_RQ_RP_RP q) 32 = some a)
    (h : u.rd I.cellOwner j = c + 1) (hg : cellH u (8 + q) < cellG u (8 + q)) (hc : c < 8) :
    let w := physWrite (puts u (cellMoved u j c q)) a (rqDescriptor f r)
    rqDeliver u f q r = puts w (queuedCells w q) := by
  intro w
  have hie : (w.wr F.PKE_RQ_WP_WP q (w.rd F.PKE_RQ_WP_WP q + 1)).on F.PKE_RQ_CFG_IE q = decide (w.rd F.PKE_RQ_CFG_IE q = 1) := by
    rw [on_flag _ _ rfl, State.rd_wr_cell _ _ _ _ _ _ (by decide)]
  unfold rqDeliver
  rw [hplace]
  dsimp only
  rw [hcells, moveCells_one h hg hc]
  dsimp only
  change (if (w.wr F.PKE_RQ_WP_WP q (w.rd F.PKE_RQ_WP_WP q + 1)).on F.PKE_RQ_CFG_IE q = true then _ else _) = _
  rw [hie]
  unfold queuedCells
  by_cases hone : w.rd F.PKE_RQ_CFG_IE q = 1
  · rw [if_pos hone, if_pos (decide_eq_true hone)]
    rfl
  · rw [if_neg hone, if_neg (by simpa using hone)]
    rfl

theorem rqDescriptor_bytes (f : Rcvd) (r j : Nat) (h : f.cells = [j]) : (rqDescriptor f r).length = 32 ∧
    (rqDescriptor f r)[0]? = some (BitVec.ofNat 8 f.bytes.length) ∧ (rqDescriptor f r)[1]? = some (BitVec.ofNat 8 (f.bytes.length / 256)) ∧
    (rqDescriptor f r)[2]? = some (BitVec.ofNat 8 f.port) ∧ (rqDescriptor f r)[3]? = some (BitVec.ofNat 8 r) ∧
    (rqDescriptor f r)[9]? = some (BitVec.ofNat 8 1) ∧
    (rqDescriptor f r)[16]? = some (BitVec.ofNat 8 j) ∧ (rqDescriptor f r)[17]? = some (BitVec.ofNat 8 (j / 256)) := by
  obtain ⟨port, stamp, tb0, cells, bytes⟩ := f
  dsimp only at h
  subst h
  exact ⟨rfl, rfl, rfl, rfl, rfl, rfl, rfl, rfl⟩

theorem byte_physWrite (s : State) (a x : Nat) (l : List Byte) :
    (physWrite s a l).byte x = if h : a ≤ x ∧ x < a + l.length then l[x - a] else s.byte x := by
  obtain ⟨hmem, -, -⟩ := physWrite_says s a l
  rw [← State.byte_writeBytes s a x l]
  show Tbl.get _ (physWrite s a l).mem x = Tbl.get _ (s.writeBytes a l).mem x
  rw [hmem]

theorem byte_physWrite_at (s : State) (a k : Nat) {l : List Byte} {b : Byte} (h : l[k]? = some b) : (physWrite s a l).byte (a + k) = b := by
  obtain ⟨hk, rfl⟩ := List.getElem?_eq_some_iff.mp h
  rw [byte_physWrite, dif_pos ⟨by omega, by omega⟩]
  congr 1
  omega

theorem readLE_two (s : State) (a : Nat) : s.readLE a 2 = (s.byte a).toNat + 256 * (s.byte (a + 1)).toNat := rfl

/-! ### A received frame -/

section
variable {s : State} {p : Fin 8} {b : List Byte} {sub : BitVec 9} {err full ecc : Bool}

/-- What the admission of a frame ends with, for a frame that it does not keep. -/
theorem frame_ended {t : State} (hrun : s.rd F.PKE_CTRL_RUN = 1) (hup : s.rd F.PKE_P_STAT_UP p.val = 1)
    (h : admitFrame s p.val sub.toNat b err full ecc = (t, none)) : exec (.frameReceive p b sub err full ecc) s = .next t := by
  show execFrameReceive p b sub err full ecc s = _
  unfold execFrameReceive
  rw [on_of_one hrun, on_of_one hup, h]
  rfl

/-- A kept frame for supervisor software goes to the queue of its kind. -/
theorem frame_kept {u : State} {f : Rcvd} {q r : Nat} (hrun : s.rd F.PKE_CTRL_RUN = 1) (hup : s.rd F.PKE_P_STAT_UP p.val = 1)
    (h : admitFrame s p.val sub.toNat b err full ecc = (u, some f)) (hport : f.port = p.val)
    (hq : (parseFrame u p.val f.bytes = .other r ∧ q = u.rd F.PKE_P_CFG_RQ p.val) ∨
      (parseFrame u p.val f.bytes = .ptp ∧ r = 1 ∧ q = u.rd F.PKE_P_CFG_PTPQ p.val)) :
    exec (.frameReceive p b sub err full ecc) s = .next (rqDeliver u f q r) := by
  show execFrameReceive p b sub err full ecc s = _
  unfold execFrameReceive
  rw [on_of_one hrun, on_of_one hup, h]
  rcases hq with ⟨hparse, rfl⟩ | ⟨hparse, rfl, rfl⟩
  all_goals
    dsimp only [Bool.and_self]
    rw [hparse, ← hport]
    rfl

theorem frame_deaf (h : s.rd F.PKE_CTRL_RUN = 0 ∨ s.rd F.PKE_P_STAT_UP p.val = 0) : exec (.frameReceive p b sub err full ecc) s = .next s := by
  show execFrameReceive p b sub err full ecc s = _
  unfold execFrameReceive
  refine if_neg ?_
  rcases h with h | h
  · simp [State.on, h]
  · simp [State.on, h]

theorem portCnt_counted {k n : Nat} (h : s.rd F.PKE_P_CNT_COUNT (12 * p.val + k) + n + 1 < 2 ^ 32) :
    portCnt s p.val k n = puts s [counted s p.val k n] := portCnt_room s p.val k n h

/-- A frame that passes its port counts itself and its bytes. -/
theorem portCnt_frame (room : ∀ j, s.rd F.PKE_P_CNT_COUNT j + 4096 < 2 ^ 32) (hlen : b.length ≤ 2048) :
    portCnt (portCnt s p.val 0) p.val 1 b.length = puts s [counted s p.val 0 1, counted s p.val 1 b.length] := by
  have hother : (s.wr F.PKE_P_CNT_COUNT (12 * p.val + 0) (s.rd F.PKE_P_CNT_COUNT (12 * p.val + 0) + 1)).rd F.PKE_P_CNT_COUNT (12 * p.val + 1) =
      s.rd F.PKE_P_CNT_COUNT (12 * p.val + 1) := State.rd_wr_inst _ _ _ _ _ (by omega)
  have h0 := room (12 * p.val + 0)
  have h1 := room (12 * p.val + 1)
  rw [portCnt_room s p.val 0 1 (by omega), portCnt_room _ p.val 1 b.length (by rw [hother]; omega), hother]
  rfl

/-- What a frame that its port counts leaves of every other counter. -/
theorem frameCounted_other {j : Nat} {n : Nat} (hj : j ≠ 12 * p.val + 0 ∧ j ≠ 12 * p.val + 1) :
    (puts s [counted s p.val 0 1, counted s p.val 1 n]).rd F.PKE_P_CNT_COUNT j = s.rd F.PKE_P_CNT_COUNT j :=
  (State.rd_wr_inst _ F.PKE_P_CNT_COUNT _ _ _ (Ne.symm hj.2)).trans (State.rd_wr_inst _ F.PKE_P_CNT_COUNT _ _ _ (Ne.symm hj.1))

/-- The frame's state when it lies in its cell. -/
def frameStored (s : State) (i n j : Nat) (body : List Byte) : State :=
  physWrite { puts s [counted s i 0 1, counted s i 1 n, (I.cellOwner, j, i + 1), (F.PKE_CELLHELD_HELD, i, cellH s i + 1)] with freeCtr := s.freeCtr + 1 }
    (cellAddr s j) body

theorem frameStored_other (i n j : Nat) (body : List Byte) :
    SameOtherCells s (frameStored s i n j body) [F.PKE_P_CNT_COUNT, I.cellOwner, F.PKE_CELLHELD_HELD, I.linkV, I.txWr, I.txWrC] := by
  refine SameOtherCells.trans ?_ ((physWrite_says _ (cellAddr s j) body).2.1.mono (by simp))
  exact (sameOtherCells_puts s [counted s i 0 1, counted s i 1 n, (I.cellOwner, j, i + 1), (F.PKE_CELLHELD_HELD, i, cellH s i + 1)]
    (fs := [F.PKE_P_CNT_COUNT, F.PKE_P_CNT_COUNT, I.cellOwner, F.PKE_CELLHELD_HELD])).mono (by simp)

theorem frameStored_reads {i n j : Nat} (body : List Byte) (hi : i < 8) : (frameStored s i n j body).rd I.cellOwner j = i + 1 ∧
    (frameStored s i n j body).rd F.PKE_CELLHELD_HELD i = (cellH s i + 1) % 2 ^ F.PKE_CELLHELD_HELD.w ∧
    ∀ c, c ≠ i → (frameStored s i n j body).rd F.PKE_CELLHELD_HELD c = cellH s c := by
  unfold frameStored
  refine ⟨?_, ?_, fun c hc => ?_⟩
  · refine (physWrite_cell _ _ _ _ _ (by decide)).trans ((State.rd_wr_cell _ F.PKE_CELLHELD_HELD I.cellOwner _ _ _ (by decide)).trans
      ((State.rd_wr_same _ _ _ _).trans ?_))
    exact Nat.mod_eq_of_lt (show i + 1 < 32 by omega)
  · exact (physWrite_cell _ _ _ _ _ (by decide)).trans (State.rd_wr_same _ _ _ _)
  · refine (physWrite_cell _ _ _ _ _ (by decide)).trans ((State.rd_wr_inst _ _ _ _ _ (Ne.symm hc)).trans ?_)
    exact puts_rd_other (l := [counted s i 0 1, counted s i 1 n, (I.cellOwner, j, i + 1)]) [F.PKE_P_CNT_COUNT, F.PKE_P_CNT_COUNT, I.cellOwner]
      F.PKE_CELLHELD_HELD c (by decide)

theorem frameStored_same (i n j : Nat) (body : List Byte) : let t := frameStored s i n j body
    t = { s with cells := t.cells, mem := t.mem, freeCtr := t.freeCtr } := by
  intro t
  obtain ⟨-, -, hw⟩ := physWrite_says { puts s [counted s i 0 1, counted s i 1 n, (I.cellOwner, j, i + 1), (F.PKE_CELLHELD_HELD, i, cellH s i + 1)] with freeCtr := s.freeCtr + 1 }
    (cellAddr s j) body
  change t = { s with cells := t.cells, mem := t.mem, freeCtr := s.freeCtr + 1 } at hw
  clear_value t
  rw [hw]

/-- A good frame takes a cell of its port's guarantee and lies there. -/
theorem admit_kept {body : List Byte} (hb : b.take (b.length - 4) = body) (room : ∀ j, s.rd F.PKE_P_CNT_COUNT j + 4096 < 2 ^ 32)
    (hgood : ¬ (err = true ∨ b.length < 64 ∨ maxFrm s p < b.length ∨ b.drop (b.length - 4) ≠ leBytes 4 (crc32 body)))
    (hflow : beAt body 12 2 ≠ 0x8808) (hmac : macAccepts s p (body.take 6) = true) (hlen : body.length ≤ 256)
    (hg : cellH s p < cellG s p) (hfree : ∃ j, j < cellCount s ∧ s.rd I.cellOwner j = 0) :
    ∃ j f, j < cellCount s ∧ s.rd I.cellOwner j = 0 ∧ f.port = p.val ∧ f.cells = [j] ∧ f.bytes = body ∧
      admitFrame s p.val sub.toNat b err false false = (frameStored s p.val b.length j body, some f) := by
  obtain ⟨-, h64, hmax, -⟩ : err ≠ true ∧ ¬ b.length < 64 ∧ ¬ maxFrm s p < b.length ∧ _ := by simpa only [not_or] using hgood
  have hcap : maxFrm s p ≤ 2048 := by unfold maxFrm; omega
  have hbody : body.length = b.length - 4 := by rw [← hb, List.length_take]; omega
  have hcounted := portCnt_frame (s := s) (p := p) (b := b) room (by omega)
  have hkeep : SameOtherCells s (puts s [counted s p 0 1, counted s p 1 b.length]) [F.PKE_P_CNT_COUNT] :=
    (sameOtherCells_puts s [counted s p 0 1, counted s p 1 b.length] (fs := [F.PKE_P_CNT_COUNT, F.PKE_P_CNT_COUNT])).mono (by simp)
  rw [admit_pass s p sub.toNat b err false false body hb hgood, if_neg hflow, if_neg (by simp [hmac])]
  dsimp only
  rw [hcounted, if_neg Bool.false_ne_true, show (body.length + 255) / 256 = 1 by omega]
  generalize hu : puts s [counted s p 0 1, counted s p 1 b.length] = u at hkeep
  have hH : ∀ c, cellH u c = cellH s c := fun c => hkeep _ _ (by decide)
  have hG : ∀ c, cellG u c = cellG s c := fun c => hkeep _ _ (by decide)
  have hown : ∀ j, u.rd I.cellOwner j = s.rd I.cellOwner j := fun j => hkeep _ _ (by decide)
  have hcnt : cellCount u = cellCount s := by unfold cellCount; rw [hkeep _ _ (by decide)]
  obtain ⟨j, hj, hj0, htake⟩ := takeCells_one (s := u) (c := p.val) (by rw [hH, hG]; exact hg) (by simpa only [hcnt, hown] using hfree)
  rw [hcnt] at hj
  rw [hown] at hj0
  rw [htake]
  dsimp only
  rw [if_neg Bool.false_ne_true]
  refine ⟨j, _, hj, hj0, ?_, ?_, ?_, congrArg₂ Prod.mk ?_ rfl⟩
  iterate 3 rfl
  unfold storeCells storeCells frameStored
  rw [List.take_of_length_le hlen]
  refine congrArg₂ (fun u a => physWrite u a body) ?_ ?_
  · have happ := puts_append s [counted s p 0 1, counted s p 1 b.length] [(I.cellOwner, j, p.val + 1), (F.PKE_CELLHELD_HELD, p.val, cellH s p + 1)]
    have hctr : u.freeCtr = s.freeCtr := by rw [← hu]; rfl
    rw [hu, List.cons_append, List.cons_append, List.nil_append] at happ
    rw [hH, happ, hctr]
  · subst hu
    unfold cellAddr
    congr 3
    exact (State.rd_wr_cell _ F.PKE_CELLHELD_HELD F.PKE_CELLBASE_BASE _ _ _ (by decide)).trans
      ((State.rd_wr_cell _ I.cellOwner F.PKE_CELLBASE_BASE _ _ _ (by decide)).trans (hkeep _ _ (by decide)))
end

/-! ### A delivered frame -/

section
variable {s : State} {i n j q r a : Nat} {body : List Byte} {f : Rcvd}

/-- The frame of a delivery: what the cell, the ring and their counts leave. -/
def deliveryCells : List Fld :=
  [F.PKE_P_CNT_COUNT, I.cellOwner, F.PKE_CELLHELD_HELD, F.PKE_RQ_WP_WP, F.PKE_IRQSTAT_RXQ, I.linkV, I.txWr, I.txWrC]

/-- The state in which a stored frame's descriptor lies in the ring of queue q, its cell held by the queue. -/
def frameDescribed (u : State) (f : Rcvd) (j i q r a : Nat) : State := physWrite (puts u (cellMoved u j i q)) a (rqDescriptor f r)

theorem frameDescribed_other (u : State) : SameOtherCells u (frameDescribed u f j i q r a) [I.cellOwner, F.PKE_CELLHELD_HELD, I.linkV, I.txWr, I.txWrC] :=
  ((sameOtherCells_puts u (cellMoved u j i q) (fs := [I.cellOwner, F.PKE_CELLHELD_HELD, I.cellOwner, F.PKE_CELLHELD_HELD])).mono (by simp)).trans
    ((physWrite_says _ a (rqDescriptor f r)).2.1.mono (by simp))

theorem frameDescribed_owner (u : State) (hq : q < 16) : (frameDescribed u f j i q r a).rd I.cellOwner j = 8 + q + 1 := by
  refine (physWrite_cell _ _ _ _ _ (by decide)).trans ((State.rd_wr_cell _ F.PKE_CELLHELD_HELD I.cellOwner _ _ _ (by decide)).trans
    ((State.rd_wr_same _ _ _ _).trans ?_))
  exact Nat.mod_eq_of_lt (show 8 + q + 1 < 32 by omega)

theorem frameDescribed_held (u : State) (hi : i < 8) :
    (frameDescribed u f j i q r a).rd F.PKE_CELLHELD_HELD i = (cellH u i - 1) % 2 ^ F.PKE_CELLHELD_HELD.w ∧
    (frameDescribed u f j i q r a).rd F.PKE_CELLHELD_HELD (8 + q) = (cellH u (8 + q) + 1) % 2 ^ F.PKE_CELLHELD_HELD.w := by
  refine ⟨(physWrite_cell _ _ _ _ _ (by decide)).trans ?_, (physWrite_cell _ _ _ _ _ (by decide)).trans (State.rd_wr_same _ _ _ _)⟩
  exact (State.rd_wr_inst _ F.PKE_CELLHELD_HELD (8 + q) i _ (by omega)).trans
    ((State.rd_wr_cell _ I.cellOwner F.PKE_CELLHELD_HELD _ _ _ (by decide)).trans (State.rd_wr_same _ _ _ _))

theorem byte_frameDescribed (u : State) (x : Nat) : (frameDescribed u f j i q r a).byte x = (physWrite u a (rqDescriptor f r)).byte x := by
  have hmem : (puts u (cellMoved u j i q)).mem = u.mem := puts_mem _ _
  unfold frameDescribed
  rw [byte_physWrite, byte_physWrite]
  split
  · rfl
  · unfold State.byte
    rw [hmem]

theorem physWrite_same {u v : State} (a : Nat) (l : List Byte) (h : SameButCells u v) : let t := physWrite v a l
    t = { u with cells := t.cells, mem := t.mem } := by
  intro t
  have hw : t = { v with cells := t.cells, mem := t.mem } := (physWrite_says v a l).2.2
  unfold SameButCells at h
  clear_value t
  rw [h] at hw
  exact hw

theorem frameDescribed_same (u : State) : frameDescribed u f j i q r a =
    { u with cells := (frameDescribed u f j i q r a).cells, mem := (frameDescribed u f j i q r a).mem } :=
  physWrite_same a _ (SameButCells.puts u _)

/-- What the count of the descriptor leaves. -/
theorem queued_reads (w : State) (q : Nat) : (puts w (queuedCells w q)).rd F.PKE_RQ_WP_WP q = (w.rd F.PKE_RQ_WP_WP q + 1) % 2 ^ F.PKE_RQ_WP_WP.w ∧
    (puts w (queuedCells w q)).rd F.PKE_IRQSTAT_RXQ = (if w.rd F.PKE_RQ_CFG_IE q = 1 then 1 else w.rd F.PKE_IRQSTAT_RXQ) ∧
    SameOtherCells w (puts w (queuedCells w q)) [F.PKE_RQ_WP_WP, F.PKE_IRQSTAT_RXQ] := by
  have hother : SameOtherCells w (puts w (queuedCells w q)) [F.PKE_RQ_WP_WP, F.PKE_IRQSTAT_RXQ] := by
    refine (sameOtherCells_puts w (queuedCells w q)).mono ?_
    unfold queuedCells
    split <;> simp
  refine ⟨?_, ?_, hother⟩
  all_goals
    unfold queuedCells
    by_cases hie : w.rd F.PKE_RQ_CFG_IE q = 1
    all_goals simp (disch := decide) only [hie, if_true, if_false, puts_cons, puts_nil, State.rd_wr_cell, State.rd_wr_same]
  rfl

/-- A frame in its cell that its queue takes: what its cell, its descriptor and its queue hold. -/
theorem frame_delivered {t : State} (hi : i < 8) (hq : q < 16) (hcells : f.cells = [j]) (hport : f.port = i) (hbytes : f.bytes = body)
    (hlen : body.length ≤ 256) (hj : j < cellCount s) (hHi : cellH s i < cellG s i) (hHq : cellH s (8 + q) < cellG s (8 + q))
    (happart : a + 32 ≤ cellAddr s j ∨ cellAddr s j + 256 ≤ a)
    (ht : t = (let w := frameDescribed (frameStored s i n j body) f j i q r a; puts w (queuedCells w q))) :
    t.rd I.cellOwner j = 8 + q + 1 ∧
    t.rd F.PKE_CELLHELD_HELD i = cellH s i ∧ t.rd F.PKE_CELLHELD_HELD (8 + q) = cellH s (8 + q) + 1 ∧
    (∀ x (hx : x < body.length), t.byte (cellAddr s j + x) = body[x]) ∧
    t.readLE a 2 = body.length ∧ (t.byte (a + 2)).toNat = i ∧ (t.byte (a + 3)).toNat = r % 256 ∧
    (t.byte (a + 9)).toNat = 1 ∧ t.readLE (a + 16) 2 = j % 65536 ∧
    t.rd F.PKE_RQ_WP_WP q = (s.rd F.PKE_RQ_WP_WP q + 1) % 2 ^ F.PKE_RQ_WP_WP.w ∧
    t.rd F.PKE_IRQSTAT_RXQ = (if s.rd F.PKE_RQ_CFG_IE q = 1 then 1 else s.rd F.PKE_IRQSTAT_RXQ) ∧
    (∀ x, (x < a ∨ a + 32 ≤ x) → (x < cellAddr s j ∨ cellAddr s j + body.length ≤ x) → t.byte x = s.byte x) ∧
    SameOtherCells s t deliveryCells ∧ t = { s with cells := t.cells, mem := t.mem, freeCtr := t.freeCtr } := by
  obtain ⟨hown, hheldi, hheldo⟩ := frameStored_reads (s := s) (i := i) (n := n) (j := j) body hi
  have hsother := frameStored_other (s := s) i n j body
  have hssame := frameStored_same (s := s) i n j body
  have hsbyte : ∀ x, (frameStored s i n j body).byte x = if h : cellAddr s j ≤ x ∧ x < cellAddr s j + body.length then body[x - cellAddr s j] else s.byte x := by
    intro x
    unfold frameStored
    rw [byte_physWrite]
    split
    · rfl
    · unfold State.byte
      rw [puts_mem]
  generalize frameStored s i n j body = u at *
  obtain ⟨hdi, hdq⟩ := frameDescribed_held (f := f) (j := j) (i := i) (q := q) (r := r) (a := a) u hi
  have hdown := frameDescribed_owner (f := f) (j := j) (i := i) (r := r) (a := a) u hq
  have hdother := frameDescribed_other (f := f) (j := j) (i := i) (q := q) (r := r) (a := a) u
  have hdsame := frameDescribed_same (f := f) (j := j) (i := i) (q := q) (r := r) (a := a) u
  have hdbyte := byte_frameDescribed (f := f) (j := j) (i := i) (q := q) (r := r) (a := a) u
  generalize frameDescribed u f j i q r a = w at *
  obtain ⟨hwp, hirq, hqother⟩ := queued_reads w q
  have hqsame := SameButCells.puts w (queuedCells w q)
  dsimp only at ht
  rw [← ht] at hwp hirq hqother hqsame
  have hother : SameOtherCells s t deliveryCells :=
    ((hsother.mono (by simp [deliveryCells])).trans (hdother.mono (by simp [deliveryCells]))).trans (hqother.mono (by simp [deliveryCells]))
  have htbyte : ∀ x, t.byte x = (physWrite u a (rqDescriptor f r)).byte x := fun x => by
    rw [← hdbyte]
    unfold SameButCells at hqsame
    rw [hqsame]
    rfl
  obtain ⟨hdlen, h0, h1, h2, h3, h9, h16, h17⟩ := rqDescriptor_bytes f r j hcells
  have hdesc : ∀ k {v : Byte}, (rqDescriptor f r)[k]? = some v → t.byte (a + k) = v := fun k v hk => (htbyte _).trans (byte_physWrite_at u a k hk)
  have hout : ∀ x, x < a ∨ a + 32 ≤ x → t.byte x = u.byte x := fun x hx => by
    rw [htbyte, byte_physWrite, dif_neg (by omega)]
  have hGlt : ∀ c, cellG s c < 2 ^ 16 := fun c => State.rd_lt s F.PKE_CELLCFG_G c
  have hiG := hGlt i
  have hqG := hGlt (8 + q)
  have hjlt : j < 131072 := by unfold cellCount at hj; omega
  refine ⟨?_, ?_, ?_, fun x hx => ?_, ?_, ?_, ?_, ?_, ?_, ?_, ?_, fun x hx hc => ?_, hother, ?_⟩
  · rw [hqother _ _ (by decide), hdown]
  · rw [hqother _ _ (by decide), hdi, show cellH u i = _ from hheldi, show F.PKE_CELLHELD_HELD.w = 18 from rfl]
    omega
  · rw [hqother _ _ (by decide), hdq, show cellH u (8 + q) = _ from hheldo _ (by omega)]
    exact Nat.mod_eq_of_lt (show _ < 2 ^ 18 by omega)
  · rw [hout _ (by omega), hsbyte, dif_pos ⟨by omega, by omega⟩]
    congr 1
    omega
  · rw [readLE_two, hdesc 1 h1, show t.byte a = _ from hdesc 0 h0, hbytes]
    simp only [BitVec.toNat_ofNat]
    omega
  · rw [hdesc 2 h2, hport, BitVec.toNat_ofNat]
    omega
  · rw [hdesc 3 h3, BitVec.toNat_ofNat]
  · rw [hdesc 9 h9]
    rfl
  · rw [readLE_two, hdesc 16 h16, hdesc 17 h17]
    simp only [BitVec.toNat_ofNat]
    omega
  · rw [hwp, hdother _ _ (by decide), hsother _ _ (by decide)]
  · rw [hirq, hdother _ _ (by decide), hsother _ _ (by decide), hdother _ _ (by decide), hsother _ _ (by decide)]
  · rw [hout _ hx, hsbyte, dif_neg (by omega)]
  · unfold SameButCells at hqsame
    rw [hqsame, hdsame, hssame]

end

/-! ### The end of an SRTP operation -/

section
variable {s : State} {f : RxFrame} {j c : Nat}

/-- What the release of the one cell of a packet writes. -/
def cellFreed (s : State) (j c : Nat) : List (Fld × Nat × Nat) := [(I.cellOwner, j, 0), (F.PKE_CELLHELD_HELD, c, cellH s c - 1)]

theorem cellFreed_rd {g : Fld} (k : Nat) (hg : ∀ f ∈ [I.cellOwner, F.PKE_CELLHELD_HELD], f.id ≠ g.id) :
    (puts s (cellFreed s j c)).rd g k = s.rd g k := puts_rd_other [I.cellOwner, F.PKE_CELLHELD_HELD] g k hg

theorem srtpDone_one (hf : s.rxFrames = [f]) : exec (.srtpDone 0) s = .next { rtpProcess s f with rxFrames := [] } := by
  show execSrtpDone 0 s = _
  unfold execSrtpDone
  exact congrArg _ (settle_one s f hf)

theorem freeCells_one (hcells : f.cells = [j]) (hown : s.rd I.cellOwner j = c + 1) : freeCells s f.cells = puts s (cellFreed s j c) := by
  rw [hcells]
  exact freeCell_owned hown

theorem ssrcBad_freed (ssrc : Nat) : ssrcBad (puts s (cellFreed s j c)) f ssrc = ssrcBad s f ssrc := by
  unfold ssrcBad judgeE1 judgeE3
  simp only [cellFreed_rd _ (show ∀ f ∈ [I.cellOwner, F.PKE_CELLHELD_HELD], f.id ≠ I.clsE1.id by decide),
    cellFreed_rd _ (show ∀ f ∈ [I.cellOwner, F.PKE_CELLHELD_HELD], f.id ≠ I.clsE3.id by decide)]

theorem rxIndex_freed (n q : Nat) : rxIndex (puts s (cellFreed s j c)) n q = rxIndex s n q := by
  unfold rxIndex State.on
  simp only [cellFreed_rd _ (show ∀ f ∈ [I.cellOwner, F.PKE_CELLHELD_HELD], f.id ≠ I.stRoc.id by decide),
    cellFreed_rd _ (show ∀ f ∈ [I.cellOwner, F.PKE_CELLHELD_HELD], f.id ≠ I.stSeq.id by decide),
    cellFreed_rd _ (show ∀ f ∈ [I.cellOwner, F.PKE_CELLHELD_HELD], f.id ≠ I.stSeqV.id by decide)]

theorem isReplay_freed (n idx : Nat) : isReplay (puts s (cellFreed s j c)) n idx = isReplay s n idx := by
  unfold isReplay topIndex State.on
  simp only [cellFreed_rd _ (show ∀ f ∈ [I.cellOwner, F.PKE_CELLHELD_HELD], f.id ≠ I.stRoc.id by decide),
    cellFreed_rd _ (show ∀ f ∈ [I.cellOwner, F.PKE_CELLHELD_HELD], f.id ≠ I.stSeq.id by decide),
    cellFreed_rd _ (show ∀ f ∈ [I.cellOwner, F.PKE_CELLHELD_HELD], f.id ≠ I.stSeqV.id by decide),
    cellFreed_rd _ (show ∀ f ∈ [I.cellOwner, F.PKE_CELLHELD_HELD], f.id ≠ I.stWin.id by decide)]

/-- A packet that fails counts in the packet engine. -/
theorem pkeCnt_freed {k : Nat} (h : s.rd F.PKE_CNT_COUNT k + 2 < 2 ^ 32) : pkeCnt (puts s (cellFreed s j c)) k = puts s (cellFreed s j c ++ [pkeCounted s k]) := by
  have hk : (puts s (cellFreed s j c)).rd F.PKE_CNT_COUNT k = s.rd F.PKE_CNT_COUNT k := cellFreed_rd k (by decide)
  rw [pkeCnt_room _ _ (by rw [hk]; exact h), hk, puts_append]
  rfl

/-- A packet that fails its stream counts in the packet engine and in its stream. -/
theorem strmCnt_freed {k n w : Nat} (h : s.rd F.PKE_CNT_COUNT k + 2 < 2 ^ 32) (hw : s.rd I.stCnt (8 * n + w) + 2 < 2 ^ 32) :
    strmCnt (pkeCnt (puts s (cellFreed s j c)) k) n w =
      puts s (cellFreed s j c ++ [pkeCounted s k, (I.stCnt, 8 * n + w, s.rd I.stCnt (8 * n + w) + 1)]) := by
  have hk : (puts s (cellFreed s j c ++ [pkeCounted s k])).rd I.stCnt (8 * n + w) = s.rd I.stCnt (8 * n + w) :=
    puts_rd_other [I.cellOwner, F.PKE_CELLHELD_HELD, F.PKE_CNT_COUNT] I.stCnt _ (by decide)
  rw [pkeCnt_freed h]
  unfold strmCnt
  rw [bumpBy_room _ _ _ _ _ (by rw [hk]; exact (show _ < 2 ^ 32 by omega)), hk,
    show cellFreed s j c ++ [pkeCounted s k, (I.stCnt, 8 * n + w, s.rd I.stCnt (8 * n + w) + 1)] =
      (cellFreed s j c ++ [pkeCounted s k]) ++ [(I.stCnt, 8 * n + w, s.rd I.stCnt (8 * n + w) + 1)] from rfl, puts_append _ (_ ++ _)]
  rfl

section
variable (hcells : f.cells = [j]) (hown : s.rd I.cellOwner j = c + 1)
include hcells hown

theorem rtpProcess_ssrc (hcnt : s.rd F.PKE_CNT_COUNT 4 + 2 < 2 ^ 32) (hbad : ssrcBad s f (beAt f.pkt 8 4) = true) :
    rtpProcess s f = puts s (cellFreed s j c ++ [pkeCounted s 4]) := by
  unfold rtpProcess
  dsimp only
  rw [freeCells_one hcells hown, ssrcBad_freed, if_pos hbad, pkeCnt_freed hcnt]

variable (hgood : ssrcBad s f (beAt f.pkt 8 4) = false)
include hgood

theorem rtpProcess_plain (h : bitOf f.e0 26 = false) : rtpProcess s f =
    fileRtp (advanceStream (puts s (cellFreed s j c)) (bits f.e3 14 0) (rxIndex s (bits f.e3 14 0) (beAt f.pkt 2 2))) f
      (rxIndex s (bits f.e3 14 0) (beAt f.pkt 2 2)) f.pkt := by
  unfold rtpProcess
  dsimp only
  rw [freeCells_one hcells hown, ssrcBad_freed, hgood, if_neg Bool.false_ne_true, h, rxIndex_freed]
  rfl

variable (hsrtp : bitOf f.e0 26 = true)
include hsrtp

theorem rtpProcess_srtp : rtpProcess s f =
    (let u := puts s (cellFreed s j c)
     let n := bits f.e3 14 0
     let idx := rxIndex s n (beAt f.pkt 2 2)
     if !(f.inst && !f.dir && decide (1 ≤ f.suite) && decide (f.suite ≤ 6)) then strmCnt (pkeCnt u 5) n 6
     else if isReplay s n idx then strmCnt (pkeCnt u 6) n 7
     else match Config.srtpOpen f.suite f.key f.salt idx f.pkt with
       | none => strmCnt (pkeCnt u 5) n 6
       | some b => fileRtp (advanceStream u n idx) f idx b) := by
  unfold rtpProcess
  dsimp only
  rw [freeCells_one hcells hown, ssrcBad_freed, hgood, if_neg Bool.false_ne_true, hsrtp, rxIndex_freed, isReplay_freed]
  rfl

/-- The stream has a key for this direction and a known suite. -/
def Keyed (f : RxFrame) : Prop := f.inst = true ∧ f.dir = false ∧ 1 ≤ f.suite ∧ f.suite ≤ 6

omit hcells hown hgood hsrtp in
theorem keyed_iff (f : RxFrame) : (f.inst && !f.dir && decide (1 ≤ f.suite) && decide (f.suite ≤ 6)) = true ↔ Keyed f := by
  unfold Keyed
  simp only [Bool.and_eq_true, Bool.not_eq_true', decide_eq_true_eq, and_assoc]

theorem rtpProcess_unkeyed (hcnt : s.rd F.PKE_CNT_COUNT 5 + 2 < 2 ^ 32) (hst : s.rd I.stCnt (8 * bits f.e3 14 0 + 6) + 2 < 2 ^ 32) (h : ¬ Keyed f) :
    rtpProcess s f = puts s (cellFreed s j c ++ [pkeCounted s 5, (I.stCnt, 8 * bits f.e3 14 0 + 6, s.rd I.stCnt (8 * bits f.e3 14 0 + 6) + 1)]) := by
  rw [rtpProcess_srtp hcells hown hgood hsrtp]
  refine (if_pos ?_).trans (strmCnt_freed hcnt hst)
  rw [Bool.not_eq_true', Bool.eq_false_iff]
  exact fun hh => h ((keyed_iff f).mp hh)

variable (hkeyed : Keyed f)
include hkeyed

theorem rtpProcess_replay (hcnt : s.rd F.PKE_CNT_COUNT 6 + 2 < 2 ^ 32) (hst : s.rd I.stCnt (8 * bits f.e3 14 0 + 7) + 2 < 2 ^ 32)
    (h : isReplay s (bits f.e3 14 0) (rxIndex s (bits f.e3 14 0) (beAt f.pkt 2 2)) = true) :
    rtpProcess s f = puts s (cellFreed s j c ++ [pkeCounted s 6, (I.stCnt, 8 * bits f.e3 14 0 + 7, s.rd I.stCnt (8 * bits f.e3 14 0 + 7) + 1)]) := by
  rw [rtpProcess_srtp hcells hown hgood hsrtp]
  dsimp only
  rw [(keyed_iff f).mpr hkeyed, h]
  exact strmCnt_freed hcnt hst

variable (hfresh : isReplay s (bits f.e3 14 0) (rxIndex s (bits f.e3 14 0) (beAt f.pkt 2 2)) = false)
include hfresh

theorem rtpProcess_forged (hcnt : s.rd F.PKE_CNT_COUNT 5 + 2 < 2 ^ 32) (hst : s.rd I.stCnt (8 * bits f.e3 14 0 + 6) + 2 < 2 ^ 32)
    (h : Config.srtpOpen f.suite f.key f.salt (rxIndex s (bits f.e3 14 0) (beAt f.pkt 2 2)) f.pkt = none) :
    rtpProcess s f = puts s (cellFreed s j c ++ [pkeCounted s 5, (I.stCnt, 8 * bits f.e3 14 0 + 6, s.rd I.stCnt (8 * bits f.e3 14 0 + 6) + 1)]) := by
  rw [rtpProcess_srtp hcells hown hgood hsrtp]
  dsimp only
  rw [(keyed_iff f).mpr hkeyed, hfresh, h]
  exact strmCnt_freed hcnt hst

theorem rtpProcess_opened {b : List Byte}
    (h : Config.srtpOpen f.suite f.key f.salt (rxIndex s (bits f.e3 14 0) (beAt f.pkt 2 2)) f.pkt = some b) :
    rtpProcess s f = fileRtp (advanceStream (puts s (cellFreed s j c)) (bits f.e3 14 0) (rxIndex s (bits f.e3 14 0) (beAt f.pkt 2 2))) f
      (rxIndex s (bits f.e3 14 0) (beAt f.pkt 2 2)) b := by
  rw [rtpProcess_srtp hcells hown hgood hsrtp]
  dsimp only
  rw [(keyed_iff f).mpr hkeyed, hfresh, h]
  rfl
end
end

/-- A frame beyond the parser's backlog is counted and dropped. -/
theorem frame_backlog {s : State} {p : Fin 8} {b body : List Byte} {sub : BitVec 9} {err ecc : Bool} (hb : b.take (b.length - 4) = body)
    (room : ∀ j, s.rd F.PKE_P_CNT_COUNT j + 4096 < 2 ^ 32)
    (hgood : ¬ (err = true ∨ b.length < 64 ∨ maxFrm s p < b.length ∨ b.drop (b.length - 4) ≠ leBytes 4 (crc32 body)))
    (hflow : beAt body 12 2 ≠ 0x8808) (hmac : macAccepts s p (body.take 6) = true) :
    admitFrame s p.val sub.toNat b err true ecc = (puts s [counted s p.val 0 1, counted s p.val 1 b.length, counted s p.val 4 1], none) := by
  obtain ⟨-, -, hmax, -⟩ : err ≠ true ∧ ¬ b.length < 64 ∧ ¬ maxFrm s p < b.length ∧ _ := by simpa only [not_or] using hgood
  have hcap : maxFrm s p ≤ 2048 := by unfold maxFrm; omega
  have hother := frameCounted_other (s := s) (p := p) (j := 12 * p.val + 4) (n := b.length) (by omega)
  have hroom := room (12 * p.val + 4)
  rw [admit_pass s p sub.toNat b err true ecc body hb hgood, if_neg hflow, if_neg (by simp [hmac])]
  dsimp only
  rw [portCnt_frame (s := s) (p := p) (b := b) room (by omega), if_pos rfl, portCnt_room _ p.val 4 1 (by rw [hother]; omega), hother]
  rfl

/-- A good frame for supervisor software reaches the queue of its kind. -/
theorem frame_supervised {s : State} {p : Fin 8} {b : List Byte} {sub : BitVec 9} {err : Bool} {r q a : Nat}
    (room : ∀ j, s.rd F.PKE_P_CNT_COUNT j + 4096 < 2 ^ 32) (hrun : s.rd F.PKE_CTRL_RUN = 1) (hup : s.rd F.PKE_P_STAT_UP p.val = 1) :
    let body := b.take (b.length - 4)
    ¬ (err = true ∨ b.length < 64 ∨ maxFrm s p < b.length ∨ b.drop (b.length - 4) ≠ leBytes 4 (crc32 body)) →
    beAt body 12 2 ≠ 0x8808 → macAccepts s p (body.take 6) = true → body.length ≤ 256 →
    (parseFrame s p body = .other r ∧ q = s.rd F.PKE_P_CFG_RQ p.val) ∨ (parseFrame s p body = .ptp ∧ r = 1 ∧ q = s.rd F.PKE_P_CFG_PTPQ p.val) →
    ringPlace (s.rd F.PKE_RQ_BASE_BASE q) (s.rd F.PKE_RQ_CFG_SIZE q) (s.rd F.PKE_RQ_WP_WP q) (s.rd F.PKE_RQ_RP_RP q) 32 = some a →
    cellH s p < cellG s p → cellH s (8 + q) < cellG s (8 + q) → (∃ j, j < cellCount s ∧ s.rd I.cellOwner j = 0) →
    (∀ j, j < cellCount s → a + 32 ≤ cellAddr s j ∨ cellAddr s j + 256 ≤ a) →
    Does (.frameReceive p b sub err false false) s fun t => ∃ j, j < cellCount s ∧ s.rd I.cellOwner j = 0 ∧ t.rd I.cellOwner j = 8 + q + 1 ∧
      t.rd F.PKE_CELLHELD_HELD p.val = cellH s p.val ∧ t.rd F.PKE_CELLHELD_HELD (8 + q) = cellH s (8 + q) + 1 ∧
      (∀ x (hx : x < body.length), t.byte (cellAddr s j + x) = body[x]) ∧
      t.readLE a 2 = body.length ∧ (t.byte (a + 2)).toNat = p.val ∧ (t.byte (a + 3)).toNat = r % 256 ∧
      (t.byte (a + 9)).toNat = 1 ∧ t.readLE (a + 16) 2 = j % 65536 ∧
      t.rd F.PKE_RQ_WP_WP q = (s.rd F.PKE_RQ_WP_WP q + 1) % 2 ^ F.PKE_RQ_WP_WP.w ∧
      t.rd F.PKE_IRQSTAT_RXQ = (if s.rd F.PKE_RQ_CFG_IE q = 1 then 1 else s.rd F.PKE_IRQSTAT_RXQ) ∧
      (∀ x, (x < a ∨ a + 32 ≤ x) → (x < cellAddr s j ∨ cellAddr s j + body.length ≤ x) → t.byte x = s.byte x) ∧
      SameOtherCells s t deliveryCells ∧ t = { s with cells := t.cells, mem := t.mem, freeCtr := t.freeCtr } := by
  intro body hgood hflow hmac hlen hkind hplace hHi hHq hfree happart
  obtain ⟨j, f, hj, hj0, hport, hfc, hfb, hadm⟩ := admit_kept (sub := sub) rfl room hgood hflow hmac hlen hHi hfree
  change admitFrame s p.val sub.toNat b err false false = (frameStored s p.val b.length j body, some f) at hadm
  change f.bytes = body at hfb
  clear_value body
  have hsother := frameStored_other (s := s) p.val b.length j body
  obtain ⟨hown, -, hheldo⟩ := frameStored_reads (s := s) (i := p.val) (n := b.length) (j := j) body p.isLt
  have hparse : parseFrame (frameStored s p.val b.length j body) p.val f.bytes = parseFrame s p.val body :=
    hfb ▸ parseFrame_congr hsother (by decide) _
  have hq : q < 16 := by
    rcases hkind with ⟨-, rfl⟩ | ⟨-, -, rfl⟩
    · exact State.rd_lt s F.PKE_P_CFG_RQ p.val
    · exact State.rd_lt s F.PKE_P_CFG_PTPQ p.val
  refine Does.of_next (frame_kept (q := q) (r := r) hrun hup hadm hport ?_) ⟨j, hj, hj0, ?_⟩
  · rw [hparse, hsother F.PKE_P_CFG_RQ _ (by decide), hsother F.PKE_P_CFG_PTPQ _ (by decide)]
    exact hkind
  · refine frame_delivered (n := b.length) (r := r) p.isLt hq hfc hport hfb hlen hj hHi hHq (happart j hj) (rqDeliver_one hfc ?_ hown ?_ p.isLt)
    · rw [hsother _ _ (by decide), hsother _ _ (by decide), hsother _ _ (by decide), hsother _ _ (by decide)]
      exact hplace
    · unfold cellH cellG
      rw [hheldo _ (by omega), hsother _ _ (by decide)]
      exact hHq

/-- Settles O47: ports, their links, the frames they receive, and the end of an SRTP operation, each from the lemma of its case. -/
theorem portsReceiveFramesAndPackets : Obligations.PortsReceiveFramesAndPackets := by
  unfold Obligations.PortsReceiveFramesAndPackets
  refine ⟨fun s ini v p hf hp => ⟨portEnable_again v hf hp, fun he => ⟨portEnable_rises v hf hp he, portDisable_again v hf hp he⟩,
      portDisable_falls v hf hp⟩,
    fun s p => ⟨portUp_no, portUp_override, portUp_loads, fun h => ?_, fun h => ?_⟩, fun s p b sub err full ecc => ⟨frame_deaf, fun hrun hup room => ?_⟩,
    fun s f j c hf hcells hown h4 h5 h6 hst => ?_⟩
  · rw [portLinkDown, h]
    rfl
  · rw [Puts, portLinkDown, h]
    rfl
  · refine ⟨fun hbad => ?_, fun hgood hflow => ?_, fun hgood hflow hmac => ?_, fun hgood hflow hmac => ⟨fun hfull => ?_, fun r q a hfull hecc hlen hkind hplace hHi hHq hfree happart => ?_⟩⟩
    · have hroom := room (12 * p.val + 2)
      refine frame_ended hrun hup ((admit_bad s p sub.toNat b err full ecc hbad).trans ?_)
      rw [portCnt_counted (by omega)]
    · have hroom := room (12 * p.val + 3)
      refine frame_ended hrun hup ((admit_pass s p sub.toNat b err full ecc _ rfl hgood).trans ((if_pos hflow).trans ?_))
      rw [portCnt_counted (by omega)]
    · refine frame_ended hrun hup ((admit_pass s p sub.toNat b err full ecc _ rfl hgood).trans ((if_neg hflow).trans (if_pos ?_)))
      rw [hmac]
      rfl
    · subst hfull
      exact frame_ended hrun hup (frame_backlog rfl room hgood hflow hmac)
    · subst hfull hecc
      exact frame_supervised room hrun hup hgood hflow hmac hlen hkind hplace hHi hHq hfree happart
  · have hcell := hst (8 * bits f.e3 14 0 + 6)
    have hcell' := hst (8 * bits f.e3 14 0 + 7)
    dsimp only
    rw [srtpDone_one hf]
    refine ⟨fun hbad => ?_, fun hgood => ⟨fun hplain => ?_, fun hsrtp => ⟨fun hkey => ?_, fun hkey hrep => ?_, fun hkey hfresh hopen => ?_,
      fun b hkey hfresh hopen => ?_⟩⟩⟩
    · rw [rtpProcess_ssrc hcells hown h4 hbad]
      rfl
    · rw [rtpProcess_plain hcells hown hgood hplain]
      rfl
    · rw [rtpProcess_unkeyed hcells hown hgood hsrtp h5 hcell hkey]
      rfl
    · rw [rtpProcess_replay hcells hown hgood hsrtp hkey h6 hcell' hrep]
      rfl
    · rw [rtpProcess_forged hcells hown hgood hsrtp hkey hfresh h5 hcell hopen]
      rfl
    · rw [rtpProcess_opened hcells hown hgood hsrtp hkey hfresh hopen]
      rfl

end Sys2Proof.Machine
end

section
/-! PROOFS.  The classifier, the key store and the packet-store cells (O48). -/

namespace Sys2Proof.Machine

open Safety

set_option Elab.async false

/-! ### The classifier -/

section
variable {s : State} {ini : Init} {i : Nat}

/-- The words of an entry, from the registers. -/
def entryWords (s : State) (i : Nat) : List (Fld × Nat × Nat) :=
  [(I.clsE0, i, regE0 s % 2 ^ 31), (I.clsE1, i, s.rd F.PKE_CLS_E1_SSRC), (I.clsE2, i, regE2 s), (I.clsE3, i, regE3 s % 2 ^ 31)]

/-- What an ended command of the classifier leaves. -/
def clsAnswer (op : Nat) (l : List (Fld × Nat × Nat)) (r g : Nat) : List (Fld × Nat × Nat) :=
  (F.PKE_CLS_CMD_OP, 0, op) :: l ++ [(F.PKE_CLS_CMD_RESULT, 0, r), (F.PKE_CLS_CMD_GO, 0, g)]

/-- The received frames in progress, those under entry i marked. -/
def agedFrames (s : State) (i : Nat) : List RxFrame := s.rxFrames.map fun f => if f.ent = i then { f with old := true } else f

theorem clsAnswer_puts (op : Nat) (l : List (Fld × Nat × Nat)) (r g : Nat) :
    puts (puts (s.wr F.PKE_CLS_CMD_OP 0 op) l) [(F.PKE_CLS_CMD_RESULT, 0, r), (F.PKE_CLS_CMD_GO, 0, g)] = puts s (clsAnswer op l r g) := by
  unfold clsAnswer
  rw [List.cons_append, puts_cons s, puts_append]

theorem clsFind_op (op key : Nat) : clsFind (s.wr F.PKE_CLS_CMD_OP 0 op) key = clsFind s key := clsFind_wr s _ _ _ _ (by decide) (by decide)

/-- A state with these received frames in progress. -/
def withFrames (u : State) (r : List RxFrame) : State := { u with rxFrames := r }

/-- Writes of cells and the frames in progress do not touch each other. -/
theorem puts_withFrames (u : State) (r : List RxFrame) (l : List (Fld × Nat × Nat)) : puts (withFrames u r) l = withFrames (puts u l) r := by
  induction l generalizing u with
  | nil => rfl
  | cons p l ih => exact ih (u.wr p.1 p.2.1 p.2.2)

theorem clsAge_eq (u : State) (i : Nat) : clsAge u i = withFrames u (agedFrames u i) := rfl

theorem clsWrite_puts (u : State) (i e0 e1 e2 e3 : Nat) : clsWrite u i e0 e1 e2 e3 =
    puts u [(I.clsE0, i, e0 % 2 ^ 31), (I.clsE1, i, e1), (I.clsE2, i, e2), (I.clsE3, i, e3 % 2 ^ 31)] := rfl

/-- The end of a command that waits for frames under the old entry. -/
theorem clsEnd_waits (u : State) : clsEnd true (0, u) = puts u [(F.PKE_CLS_CMD_RESULT, 0, 0), (F.PKE_CLS_CMD_GO, 0, if u.rxFrames.any (·.old) then 1 else 0)] := by
  unfold clsEnd clsDraining
  show (if (u.rxFrames.any (·.old)) = true then _ else _) = _
  cases u.rxFrames.any (·.old) <;> rfl

theorem clsFree_op (op key : Nat) : (clsWays key).find? (fun i => !(s.wr F.PKE_CLS_CMD_OP 0 op).on I.clsV i) = (clsWays key).find? fun i => !s.on I.clsV i := by
  simp only [State.on_eq, State.rd_wr_cell _ F.PKE_CLS_CMD_OP I.clsV _ _ _ (by decide)]

/-- The commands of the classifier, each with its code. -/
theorem cls_next (hf : s.fabric = true) : exec (.clsInsert ini) s = .next (clsCmdWrite s 0x80000000) ∧
    exec (.clsModify ini) s = .next (clsCmdWrite s 0x80000001) ∧ exec (.clsDelete ini) s = .next (clsCmdWrite s 0x80000002) ∧
    exec (.clsRead ini) s = .next (clsCmdWrite s 0x80000003) :=
  ⟨if_pos hf, if_pos hf, if_pos hf, if_pos hf⟩

theorem cls_busy (hf : s.fabric = true) (hgo : s.rd F.PKE_CLS_CMD_GO = 1) (k : Instr)
    (hk : k ∈ [Instr.clsInsert ini, .clsModify ini, .clsDelete ini, .clsRead ini]) : exec k s = .next s := by
  have hbusy : ∀ v, clsCmdWrite s v = s := fun v => by
    unfold clsCmdWrite
    exact if_pos (on_of_one hgo)
  obtain ⟨hins, hmod, hdel, hread⟩ := cls_next (ini := ini) hf
  simp only [List.mem_cons, List.not_mem_nil, or_false] at hk
  rcases hk with rfl | rfl | rfl | rfl
  · rw [hins, hbusy]
  · rw [hmod, hbusy]
  · rw [hdel, hbusy]
  · rw [hread, hbusy]

section
variable (hf : s.fabric = true) (hgo : s.rd F.PKE_CLS_CMD_GO = 0)
include hf hgo

theorem clsInsert_run : exec (.clsInsert ini) s = .next (clsEnd false
    (clsInsert (s.wr F.PKE_CLS_CMD_OP 0 0) (regKey s) (regE0 s) (s.rd F.PKE_CLS_E1_SSRC 0) (regE2 s) (regE3 s))) := by
  rw [(cls_next hf).1, clsCmd_says s 0 _ hgo (by decide) (by decide)]
  rfl

theorem clsModify_run : exec (.clsModify ini) s = .next (clsEnd true
    (clsModify (s.wr F.PKE_CLS_CMD_OP 0 1) (regKey s) (regE0 s) (s.rd F.PKE_CLS_E1_SSRC 0) (regE2 s) (regE3 s))) := by
  rw [(cls_next hf).2.1, clsCmd_says s 1 _ hgo (by decide) (by decide)]
  rfl

theorem clsDelete_run : exec (.clsDelete ini) s = .next (clsEnd true (clsDelete (s.wr F.PKE_CLS_CMD_OP 0 2) (regKey s))) := by
  rw [(cls_next hf).2.2.1, clsCmd_says s 2 _ hgo (by decide) (by decide)]
  rfl

theorem clsRead_run : exec (.clsRead ini) s = .next (clsEnd false (clsReadCmd (s.wr F.PKE_CLS_CMD_OP 0 3))) := by
  rw [(cls_next hf).2.2.2, clsCmd_says s 3 _ hgo (by decide) (by decide)]
  rfl

theorem clsInsert_exists (h : clsFind s (regKey s) = some i) : Puts (.clsInsert ini) s (clsAnswer 0 [] 1 0) := by
  refine (clsInsert_run hf hgo).trans (congrArg _ ?_)
  unfold clsInsert
  rw [clsFind_op, h]
  exact (clsEnd_plain _ false rfl).trans (clsAnswer_puts 0 [] 1 0)

theorem clsModify_found (h : clsFind s (regKey s) = some i) : exec (.clsModify ini) s = .next
    { puts s (clsAnswer 1 (entryWords s i) 0 (if (agedFrames s i).any (·.old) then 1 else 0)) with rxFrames := agedFrames s i } := by
  refine (clsModify_run hf hgo).trans (congrArg _ ?_)
  unfold clsModify
  rw [clsFind_op, h]
  dsimp only
  rw [clsEnd_waits, ← clsAnswer_puts, clsWrite_puts, clsAge_eq, puts_withFrames, puts_withFrames]
  have haged : agedFrames (s.wr F.PKE_CLS_CMD_OP 0 1) i = agedFrames s i := rfl
  rw [haged]
  rfl

theorem clsDelete_found (h : clsFind s (regKey s) = some i) : exec (.clsDelete ini) s = .next
    { puts s (clsAnswer 2 [(I.clsV, i, 0), (F.PKE_CLS_CNT_CNT, 0, s.rd F.PKE_CLS_CNT_CNT - 1)] 0 (if (agedFrames s i).any (·.old) then 1 else 0)) with
      rxFrames := agedFrames s i } := by
  refine (clsDelete_run hf hgo).trans (congrArg _ ?_)
  unfold clsDelete
  rw [clsFind_op, h, State.rd_wr_cell _ F.PKE_CLS_CMD_OP F.PKE_CLS_CNT_CNT _ _ _ (by decide)]
  refine (clsEnd_waits _).trans ?_
  rw [← clsAnswer_puts]
  rfl

/-- What READ copies of an entry to the registers. -/
def entryRead (s : State) (i : Nat) : List (Fld × Nat × Nat) :=
  let e0 := s.rd I.clsE0 i
  let e2 := s.rd I.clsE2 i
  let e3 := s.rd I.clsE3 i
  [(F.PKE_CLS_E0_VALID, 0, 1), (F.PKE_CLS_E0_KIND, 0, bits e0 30 29), (F.PKE_CLS_E0_SSRCM, 0, bits e0 28 27),
    (F.PKE_CLS_E0_SRTP, 0, bitN e0 26), (F.PKE_CLS_E0_FLAGEN, 0, bitN e0 25), (F.PKE_CLS_E0_CLK, 0, bits e0 24 23),
    (F.PKE_CLS_E0_RQ, 0, bits e0 22 19), (F.PKE_CLS_E0_JBOFS, 0, bits e0 18 0), (F.PKE_CLS_E1_SSRC, 0, s.rd I.clsE1 i),
    (F.PKE_CLS_E2_FLAGS, 0, bits e2 31 16), (F.PKE_CLS_E2_TID, 0, bits e2 15 0), (F.PKE_CLS_E3_LATCHED, 0, bitN e3 31),
    (F.PKE_CLS_E3_FWDDEV, 0, bits e3 26 16), (F.PKE_CLS_E3_STRM, 0, bits e3 14 0)]

theorem clsRead_found (h : clsFind s (regKey s) = some i) : Puts (.clsRead ini) s (clsAnswer 3 (entryRead s i) 0 0) := by
  refine (clsRead_run hf hgo).trans (congrArg _ ?_)
  unfold clsReadCmd
  rw [regKey_op, clsFind_op, h]
  refine (clsEnd_plain _ false rfl).trans ?_
  rw [← clsAnswer_puts]
  have hrd : ∀ g, F.PKE_CLS_CMD_OP.id ≠ g.id → (s.wr F.PKE_CLS_CMD_OP 0 3).rd g i = s.rd g i := fun g hg => State.rd_wr_cell _ _ _ _ _ _ hg
  congr 1
  unfold clsRead entryRead
  simp only [State.set, puts_cons, puts_nil, State.rd_wr_cell s F.PKE_CLS_CMD_OP I.clsE0 _ _ _ (by decide),
    State.rd_wr_cell s F.PKE_CLS_CMD_OP I.clsE2 _ _ _ (by decide), State.rd_wr_cell s F.PKE_CLS_CMD_OP I.clsE3 _ _ _ (by decide)]
  simp (disch := decide) only [State.rd_wr_cell]

theorem cls_notFound (h : clsFind s (regKey s) = none) :
    Puts (.clsModify ini) s (clsAnswer 1 [] 3 0) ∧ Puts (.clsDelete ini) s (clsAnswer 2 [] 3 0) ∧ Puts (.clsRead ini) s (clsAnswer 3 [] 3 0) := by
  refine ⟨(clsModify_run hf hgo).trans (congrArg _ ?_), (clsDelete_run hf hgo).trans (congrArg _ ?_), (clsRead_run hf hgo).trans (congrArg _ ?_)⟩
  · unfold clsModify
    rw [clsFind_op, h]
    exact (clsEnd_plain _ true rfl).trans (clsAnswer_puts 1 [] 3 0)
  · unfold clsDelete
    rw [clsFind_op, h]
    exact (clsEnd_plain _ true rfl).trans (clsAnswer_puts 2 [] 3 0)
  · unfold clsReadCmd
    rw [regKey_op, clsFind_op, h]
    exact (clsEnd_plain _ false rfl).trans (clsAnswer_puts 3 [] 3 0)

theorem clsInsert_full (h : clsFind s (regKey s) = none) (hfull : ∀ i ∈ clsWays (regKey s), s.rd I.clsV i = 1) :
    Puts (.clsInsert ini) s (clsAnswer 0 [] 2 0) := by
  have hnone : ((clsWays (regKey s)).find? fun i => !s.on I.clsV i) = none :=
    List.find?_eq_none.mpr fun i hi => by rw [on_of_one (hfull i hi)]; decide
  refine (clsInsert_run hf hgo).trans (congrArg _ ?_)
  unfold clsInsert
  rw [clsFind_op, h, if_neg (by decide), clsFree_op, hnone]
  exact (clsEnd_plain _ false rfl).trans (clsAnswer_puts 0 [] 2 0)

theorem clsInsert_taken (h : clsFind s (regKey s) = none) (hway : ((clsWays (regKey s)).find? fun i => !s.on I.clsV i) = some i) :
    i ∈ clsWays (regKey s) ∧ s.rd I.clsV i = 0 ∧
    Puts (.clsInsert ini) s (clsAnswer 0 ([(I.clsV, i, 1), (I.clsKey, i, regKey s)] ++ entryWords s i ++
      [(F.PKE_CLS_CNT_CNT, 0, s.rd F.PKE_CLS_CNT_CNT + 1)]) 0 0) := by
  refine ⟨List.mem_of_find?_eq_some hway, by simpa [State.on] using List.find?_some hway, (clsInsert_run hf hgo).trans (congrArg _ ?_)⟩
  unfold clsInsert
  rw [clsFind_op, h, if_neg (by decide), clsFree_op, hway, State.rd_wr_cell _ F.PKE_CLS_CMD_OP F.PKE_CLS_CNT_CNT _ _ _ (by decide)]
  refine (clsEnd_plain _ false rfl).trans ?_
  rw [← clsAnswer_puts]
  rfl
end

theorem clsDrain_waits (h : s.rd F.PKE_CLS_CMD_GO = 0 ∨ ∃ f ∈ s.rxFrames, f.old = true) : exec .clsDrainDone s = .next s := by
  show execClsDrainDone s = _
  unfold execClsDrainDone clsDraining
  refine if_neg ?_
  rcases h with h | ⟨f, hf, hold⟩
  · simp [on_of_zero h]
  · rw [List.any_eq_true.mpr ⟨f, hf, hold⟩]
    simp

theorem clsDrain_done (hgo : s.rd F.PKE_CLS_CMD_GO = 1) (h : ∀ f ∈ s.rxFrames, f.old = false) :
    Puts .clsDrainDone s [(F.PKE_CLS_CMD_GO, 0, 0)] := by
  show execClsDrainDone s = _
  unfold execClsDrainDone clsDraining
  refine if_pos ?_
  rw [on_of_one hgo, List.any_eq_false.mpr fun f hf => by simp [h f hf]]
  rfl
end

/-! ### The key store -/

section
variable {s : State} {ini : Init}

/-- What every command of the key store stores. -/
def ksCells (k op : Nat) : List (Fld × Nat × Nat) := [(F.PKE_KS_CMD_KEEP, 0, k), (F.PKE_KS_CMD_OP, 0, op)]

variable (hf : s.fabric = true)
include hf

theorem ksInstall_run (b : Bool) : exec (.ksInstall ini b) s = .next (ksRun s (puts s (ksCells (b2n b) 0)) ini 0 b) := by
  show execKsInstall ini b s = _
  unfold execKsInstall
  rw [if_pos hf]
  cases b
  · rw [ksCmd_says s ini _ 0 0 (by decide) (by decide) (by decide) (by decide)]
    rfl
  · rw [ksCmd_says s ini _ 0 1 (by decide) (by decide) (by decide) (by decide)]
    rfl

theorem ksClear_run : exec (.ksClear ini) s = .next (ksRun s (puts s (ksCells (s.rd F.PKE_KS_CMD_KEEP) 1)) ini 1 (s.rd F.PKE_KS_CMD_KEEP != 0)) := by
  show execKsClear ini s = _
  unfold execKsClear
  rw [if_pos hf]
  rcases flag_cases s 0 (f := F.PKE_KS_CMD_KEEP) rfl with h | h
  · rw [h, ksCmd_says s ini _ 1 0 (by decide) (by decide) (by decide) (by decide)]
    rfl
  · rw [h, ksCmd_says s ini _ 1 1 (by decide) (by decide) (by decide) (by decide)]
    rfl

theorem ksClrcnt_run : exec (.ksClrcnt ini) s = .next (ksRun s (puts s (ksCells (s.rd F.PKE_KS_CMD_KEEP) 2)) ini 2 (s.rd F.PKE_KS_CMD_KEEP != 0)) := by
  show execKsClrcnt ini s = _
  unfold execKsClrcnt
  rw [if_pos hf]
  rcases flag_cases s 0 (f := F.PKE_KS_CMD_KEEP) rfl with h | h
  · rw [h, ksCmd_says s ini _ 2 0 (by decide) (by decide) (by decide) (by decide)]
    rfl
  · rw [h, ksCmd_says s ini _ 2 1 (by decide) (by decide) (by decide) (by decide)]
    rfl

omit hf in
/-- An initiator without a stream of its own only stores the command. -/
theorem ksRun_none {u : State} {op : Nat} {b : Bool} (h : ksStream s ini = none) : ksRun s u ini op b = u := by
  unfold ksRun
  rw [h]

theorem ks_none (h : ksStream s ini = none) : (∀ b, Puts (.ksInstall ini b) s (ksCells (if b then 1 else 0) 0)) ∧
    Puts (.ksClear ini) s (ksCells (s.rd F.PKE_KS_CMD_KEEP) 1) ∧ Puts (.ksClrcnt ini) s (ksCells (s.rd F.PKE_KS_CMD_KEEP) 2) :=
  ⟨fun b => (ksInstall_run hf b).trans (congrArg _ (ksRun_none h)), (ksClear_run hf).trans (congrArg _ (ksRun_none h)),
    (ksClrcnt_run hf).trans (congrArg _ (ksRun_none h))⟩

variable {n : Nat} (hn : ksStream s ini = some n)
include hn

theorem ksInstall_badSuite (h : 7 ≤ bits (s.rd I.ksWin 0) 3 0) (b : Bool) :
    Puts (.ksInstall ini b) s (ksCells (if b then 1 else 0) 0 ++ [(F.PKE_KS_CMD_RESULT, 0, 4)]) := by
  refine (ksInstall_run hf b).trans (congrArg _ ?_)
  have hwin : (puts s (ksCells (b2n b) 0)).rd I.ksWin 0 = s.rd I.ksWin 0 :=
    puts_rd_other (l := ksCells (b2n b) 0) [F.PKE_KS_CMD_KEEP, F.PKE_KS_CMD_OP] I.ksWin 0 (by decide)
  unfold ksRun
  rw [hn, puts_append]
  unfold ksInstall
  dsimp only
  rw [hwin, if_pos h]
  rfl

theorem ksClear_some : Puts (.ksClear ini) s (ksCells (s.rd F.PKE_KS_CMD_KEEP) 1 ++ [(I.stSuite, n, 0), (I.stKey, n, 0), (I.stSalt, n, 0)] ++
    [(F.PKE_KS_CMD_RESULT, 0, 0)]) := by
  refine (ksClear_run hf).trans (congrArg _ ?_)
  unfold ksRun
  rw [hn, puts_append, puts_append]
  rfl

theorem ksClrcnt_some : Puts (.ksClrcnt ini) s (ksCells (s.rd F.PKE_KS_CMD_KEEP) 2 ++ ((List.range 8).map fun k => (I.stCnt, 8 * n + k, 0)) ++
    [(F.PKE_KS_CMD_RESULT, 0, 0)]) := by
  refine (ksClrcnt_run hf).trans (congrArg _ ?_)
  unfold ksRun
  rw [hn, puts_append, puts_append, ← strmClear_puts]
  rfl
end

/-! ### The stream selector and the cells -/

section
variable {s : State} {ini : Init} (v : Word) (hf : s.fabric = true)
include hf

theorem strmsel_none (h : selCopy ini = none) : exec (.strmselWrite ini v) s = .next s := by
  show execStrmselWrite ini v s = _
  unfold execStrmselWrite strmselWrite
  rw [h]
  exact if_pos hf

theorem strmsel_latches {c : Nat} (h : selCopy ini = some c) : let n := v.toNat % 32768
    Puts (.strmselWrite ini v) s ((F.PKE_STRMSEL_STRM, c, n) :: (List.range 8).map fun k => (I.strmBuf, 8 * c + k, strmWord s n k)) := by
  show execStrmselWrite ini v s = _
  unfold execStrmselWrite strmselWrite
  rw [h]
  refine (if_pos hf).trans (congrArg _ ?_)
  unfold State.over puts
  rw [List.foldl_cons, List.foldl_map]

theorem cellret_next : exec (.cellret ini v) s = .next (freeCell s (v.toNat % 2 ^ 18)) := if_pos hf

theorem cellret_free (h : s.rd I.cellOwner (v.toNat % 2 ^ 18) = 0) : exec (.cellret ini v) s = .next s := by
  rw [cellret_next v hf]
  unfold freeCell
  rw [on_of_zero h]
  rfl

theorem cellret_held {c : Nat} (h : s.rd I.cellOwner (v.toNat % 2 ^ 18) = c + 1) :
    Puts (.cellret ini v) s [(I.cellOwner, v.toNat % 2 ^ 18, 0), (F.PKE_CELLHELD_HELD, c, s.rd F.PKE_CELLHELD_HELD c - 1)] := by
  refine (cellret_next v hf).trans (congrArg _ ?_)
  unfold freeCell
  rw [on_of_ne_zero (by omega), h]
  rfl

theorem cellcfg_next (c : Fin 25) : exec (.cellcfgWrite ini c v) s = .next
    (if cellCount s < (overConsumers fun d => if d = c.val then bits v.toNat 31 16 else s.rd F.PKE_CELLCFG_G d) then s.set F.PKE_IRQSTAT_CELLERR 1
    else (s.wr F.PKE_CELLCFG_G c.val (bits v.toNat 31 16)).wr F.PKE_CELLCFG_F c.val (bits v.toNat 4 0)) := if_pos hf

theorem cellRegion_next (cnt : Bool) : exec (.cellRegionWrite ini cnt v) s = .next (cellRegionWrite s cnt v.toNat) := if_pos hf

theorem cellRegion_fixed (h : s.rd F.PKE_CTRL_RUN = 1) (cnt : Bool) : exec (.cellRegionWrite ini cnt v) s = .next s := by
  rw [cellRegion_next v hf]
  unfold cellRegionWrite
  rw [if_pos (on_of_one h)]

theorem cellRegion_set (h : s.rd F.PKE_CTRL_RUN = 0) : Puts (.cellRegionWrite ini true v) s [(F.PKE_CELLCNT_CNT, 0, bits v.toNat 17 0)] ∧
    Puts (.cellRegionWrite ini false v) s [(F.PKE_CELLBASE_BASE, 0, bits v.toNat 24 8)] := by
  refine ⟨(cellRegion_next v hf true).trans (congrArg _ ?_), (cellRegion_next v hf false).trans (congrArg _ ?_)⟩
  all_goals
    unfold cellRegionWrite
    rw [on_of_zero h]
    rfl
end

/-- Settles O48: the commands of the classifier, of the key store and of the cells, each from the lemma of its case. -/
theorem classifierKeysAndCellsFollowCommands : Obligations.ClassifierKeysAndCellsFollowCommands := by
  unfold Obligations.ClassifierKeysAndCellsFollowCommands
  refine ⟨fun s ini hf => ⟨cls_busy hf, fun hgo => ⟨fun i h => ⟨clsInsert_exists hf hgo h, clsModify_found hf hgo h, clsDelete_found hf hgo h,
      clsRead_found hf hgo h⟩, fun h => ?_⟩, clsDrain_waits, clsDrain_done⟩,
    fun s ini hf => ⟨ks_none hf, fun n hn => ⟨ksInstall_badSuite hf hn, fun hs => ⟨ksInstall_kept s ini n hf hn hs, ksInstall_new s ini n hf hn hs⟩,
      ksClear_some hf hn, ksClrcnt_some hf hn⟩⟩,
    fun s ini v hf => ⟨strmsel_none v hf, fun c => strmsel_latches v hf, ⟨cellret_free v hf, fun c => cellret_held v hf⟩,
      fun c => ⟨fun h => ?_, fun h => ?_⟩, cellRegion_fixed v hf, cellRegion_set v hf⟩⟩
  · obtain ⟨hmod, hdel, hread⟩ := cls_notFound (ini := ini) hf hgo h
    exact ⟨hmod, hdel, hread, clsInsert_full hf hgo h, fun i => clsInsert_taken hf hgo h⟩
  · exact (cellcfg_next v hf c).trans (congrArg _ (if_pos h))
  · exact (cellcfg_next v hf c).trans (congrArg _ (if_neg (Nat.not_lt.mpr h)))

end Sys2Proof.Machine
end

section
/-! PROOFS.  Egress: posts, timed frames and priority frames (O49). -/

namespace Sys2Proof.Machine

open Safety

set_option Elab.async false

/-! ### The end of a descriptor -/

/-- A descriptor of a signal core that asks for no completion record. -/
def QuietPost (f : EgFrame) : Prop := f.own = false ∧ f.svc = false ∧ bitOf f.w3 25 = false

/-- Every counter that an end of a descriptor may write has room. -/
def CountersRoom (s : State) : Prop :=
  (∀ k, s.rd F.PKE_P_CNT_COUNT k + 4096 < 2 ^ 32) ∧ (∀ k, s.rd F.PKE_CNT_COUNT k + 2 < 2 ^ 32) ∧ ∀ k, s.rd I.stCnt k + 4096 < 2 ^ 32

theorem CountersRoom.of_rd {s t : State} (h : CountersRoom s) (hp : ∀ k, t.rd F.PKE_P_CNT_COUNT k = s.rd F.PKE_P_CNT_COUNT k)
    (hk : ∀ k, t.rd F.PKE_CNT_COUNT k = s.rd F.PKE_CNT_COUNT k) (hst : ∀ k, t.rd I.stCnt k = s.rd I.stCnt k) : CountersRoom t :=
  ⟨fun k => (hp k).symm ▸ h.1 k, fun k => (hk k).symm ▸ h.2.1 k, fun k => (hst k).symm ▸ h.2.2 k⟩

section
variable {s : State} {f : EgFrame} (hq : QuietPost f)
include hq

theorem egEnd_quiet (st at' o l : Nat) : egEnd s f st at' o l = endStream (endPortCnt s (dPort f) st o) f st at' :=
  egEnd_plain s f st at' o l hq.1 hq.2.2 hq.2.1

/-- A descriptor that ends with BADDESC counts nowhere. -/
theorem egEnd_badDesc : egEnd s f egBADDESC 0 0 0 = s := by
  rw [egEnd_quiet hq]
  rfl

variable (hroom : CountersRoom s)
include hroom

omit hq in
theorem portCnt_one (p k : Nat) : portCnt s p k = puts s [counted s p k 1] := by
  have := hroom.1 (12 * p + k)
  exact portCnt_room s p k 1 (by omega)

theorem egEnd_full : egEnd s f egFULL 0 0 0 = puts s [counted s (dPort f) 9 1] := by
  rw [egEnd_quiet hq]
  exact portCnt_one hroom (dPort f) 9

theorem egEnd_down : egEnd s f egDOWN 0 0 0 = puts s [counted s (dPort f) 10 1] := by
  rw [egEnd_quiet hq]
  exact portCnt_one hroom (dPort f) 10

theorem egEnd_dropLate : egEnd s f egDROPLATE 0 0 0 =
    puts s [counted s (dPort f) 8 1, (I.stCnt, 8 * dStrm f + 6, s.rd I.stCnt (8 * dStrm f + 6) + 1)] := by
  have hst : (puts s [counted s (dPort f) 8 1]).rd I.stCnt (8 * dStrm f + 6) = s.rd I.stCnt (8 * dStrm f + 6) :=
    puts_rd_other [F.PKE_P_CNT_COUNT] I.stCnt _ (by decide)
  have := hroom.2.2 (8 * dStrm f + 6)
  rw [egEnd_quiet hq]
  show strmCnt (portCnt s (dPort f) 8) (dStrm f) 6 = _
  rw [portCnt_one hroom, strmCnt_room _ _ _ _ (by rw [hst]; omega), hst]
  rfl

theorem egEnd_ecc (hsel : bitOf (s.rd F.MLS_ERRSEL_SEL) 8 = false) :
    egEnd s f egECC 0 0 0 = puts s [pkeCounted s 10, counted s (dPort f) 11 1, (F.PKE_IRQSTAT_ECC, 0, 1)] := by
  have hcnt : (puts s [pkeCounted s 10]).rd F.PKE_P_CNT_COUNT (12 * dPort f + 11) = s.rd F.PKE_P_CNT_COUNT (12 * dPort f + 11) :=
    puts_rd_other [F.PKE_CNT_COUNT] F.PKE_P_CNT_COUNT _ (by decide)
  have := hroom.1 (12 * dPort f + 11)
  have hport : portCnt (pkeCnt s 10) (dPort f) 11 = puts s [pkeCounted s 10, counted s (dPort f) 11 1] := by
    rw [pkeCnt_room s 10 (hroom.2.1 10)]
    change portCnt (puts s [pkeCounted s 10]) _ _ = _
    rw [portCnt_room _ _ _ 1 (by rw [hcnt]; omega), hcnt]
    rfl
  have hsel' : bitOf (((puts s [pkeCounted s 10, counted s (dPort f) 11 1]).set F.PKE_IRQSTAT_ECC 1).rd F.MLS_ERRSEL_SEL) 8 = false := by
    rw [← hsel]
    congr 1
    exact puts_rd_other (l := [pkeCounted s 10, counted s (dPort f) 11 1, (F.PKE_IRQSTAT_ECC, 0, 1)])
      [F.PKE_CNT_COUNT, F.PKE_P_CNT_COUNT, F.PKE_IRQSTAT_ECC] F.MLS_ERRSEL_SEL 0 (by decide)
  rw [egEnd_quiet hq]
  show endStream ((((portCnt (pkeCnt s 10) (dPort f) 11).set F.PKE_IRQSTAT_ECC 1)).errEvent 8) f egECC 0 = _
  rw [hport]
  unfold State.errEvent
  rw [hsel']
  rfl

end

/-! ### Preparation -/

section
variable {s : State} {f : EgFrame}

/-- What the choice of a packet index may write. -/
theorem txIndex_says (s : State) (n seq : Nat) : SameOtherCells s (txIndex s n seq).2 [I.stRoc, I.stSeq, I.stSeqV, I.ipId] ∧ SameButCells s (txIndex s n seq).2 := by
  unfold txIndex
  dsimp only
  split
  · exact ⟨.wr (.wr (.wr (.refl _ _) (by simp)) (by simp)) (by simp), .wr (.wr (.wr (.refl _)))⟩
  · exact ⟨.wr (.wr (.refl _ _) (by simp)) (by simp), .wr (.wr (.refl _))⟩

/-- Preparation keeps the descriptor and writes its stream's index and the port's identification only. -/
theorem prepare_says (hf : f.frame = none) :
    ((prepare s f).1.own = f.own ∧ (prepare s f).1.svc = f.svc ∧ (prepare s f).1.w1 = f.w1 ∧ (prepare s f).1.w2 = f.w2 ∧ (prepare s f).1.w3 = f.w3) ∧
    (prepare s f).1.octets ≤ 2048 ∧
    SameOtherCells s (prepare s f).2 [I.stRoc, I.stSeq, I.stSeqV, I.ipId] ∧ SameButCells s (prepare s f).2 := by
  have hlen : dLen f < 2048 := Nat.mod_lt _ (by decide)
  unfold prepare
  rw [hf, if_neg (by decide)]
  split
  · exact ⟨⟨rfl, rfl, rfl, rfl, rfl⟩, Nat.le_of_lt hlen, .refl _ _, .refl _⟩
  · obtain ⟨hother, hbut⟩ := txIndex_says s (dStrm f) (beAt (dPayload s f) 2 2)
    dsimp only
    exact ⟨⟨rfl, rfl, rfl, rfl, rfl⟩, by omega, hother.wr (by simp), hbut.wr⟩

theorem prepare_raw (hf : f.frame = none) (hr : dRaw f = true) : prepare s f = ({ f with frame := some (dPayload s f), octets := dLen f }, s) := by
  unfold prepare
  rw [hf, if_neg (by decide), if_pos hr]

theorem egQueue_prepare (hf : f.frame = none) (p q : Nat) : egQueue (prepare s f).2 p q = egQueue s p q := by
  obtain ⟨-, -, -, hbut⟩ := prepare_says (s := s) hf
  unfold SameButCells at hbut
  rw [hbut]
  rfl
end

/-! ### Posts -/

section
variable {s : State} {c : Fin 64} {v : Word}

/-- The descriptor that a post names. -/
def postedFrame (s : State) (v : Nat) : EgFrame :=
  let a := pksBase + bits v 24 4 * 16
  newFrame (s.readLE a 4) (s.readLE (a + 4) 4) (s.readLE (a + 8) 4) (s.readLE (a + 12) 4) false none

theorem egressPost_foreign {ini : Init} (ecc : Bool) (hf : s.fabric = true) (hroom : CountersRoom s) (h : mayPost ini = false) :
    Puts (.egressPost ini v ecc) s [pkeCounted s 9] := by
  show execEgressPost ini v ecc s = _
  unfold execEgressPost egpostWrite
  rw [if_pos hf, h, if_neg Bool.false_ne_true, pkeCnt_room s 9 (hroom.2.1 9)]
  rfl

/-- What a post of a signal core does, by the frame it names. -/
def posted (s : State) (f : EgFrame) (ecc : Bool) : State :=
  if ecc then egEnd s f egECC 0 0 0
  else if !portSends s (dPort f) then egEnd s f egDOWN 0 0 0
  else if badDesc s f then egEnd s f egBADDESC 0 0 0
  else enqueue s f

theorem egressPost_core (ecc : Bool) (hf : s.fabric = true) : exec (.egressPost (.sgc c) v ecc) s = .next (posted s (postedFrame s v.toNat) ecc) := by
  show execEgressPost (.sgc c) v ecc s = _
  unfold execEgressPost egpostWrite
  exact if_pos hf

variable {f : EgFrame}

theorem enqueue_full (hroom : CountersRoom s) (hq : QuietPost f)
    (h : queueRoom (if dTimed f then 8 else dPrio f) ≤ (egQueue s (dPort f) (if dTimed f then 8 else dPrio f)).length) :
    enqueue s f = puts s [counted s (dPort f) 9 1] := by
  unfold enqueue
  exact (if_pos h).trans (egEnd_full hq hroom)

theorem enqueue_prio (ht : dTimed f = false) (hlate : f.late = false) (h : (egQueue s (dPort f) (dPrio f)).length < queueRoom (dPrio f)) :
    enqueue s f = setQueue s (dPort f) (dPrio f) (egQueue s (dPort f) (dPrio f) ++ [f]) := by
  have hf : { f with late := false } = f := by rw [← hlate]
  unfold enqueue
  rw [ht]
  refine (if_neg (Nat.not_le.mpr h)).trans ?_
  simp only [Bool.false_and, Bool.false_eq_true, if_false, hf, ht]

/-- A timed frame with its lateness judged. -/
def judgedLate (s : State) (f : EgFrame) : EgFrame := { f with late := decide (diff32 f.w2 (portNow s (dPort f)) < 0) }

theorem dTimed_late (f : EgFrame) (b : Bool) : dTimed { f with late := b } = dTimed f := rfl

theorem dTimed_judged (s : State) (f : EgFrame) : dTimed (judgedLate s f) = dTimed f := dTimed_late f _

theorem late_frame (f : EgFrame) (b : Bool) : { f with late := b }.frame = f.frame := rfl

theorem judgedLate_frame (s : State) (f : EgFrame) : (judgedLate s f).frame = f.frame := late_frame f _

theorem enqueue_timed (ht : dTimed f = true) (h : (egQueue s (dPort f) 8).length < queueRoom 8) : enqueue s f =
    if inWindow s (dPort f) f.w2 then
      setQueue (prepare s (judgedLate s f)).2 (dPort f) 8 (egQueue (prepare s (judgedLate s f)).2 (dPort f) 8 ++ [(prepare s (judgedLate s f)).1])
    else setQueue s (dPort f) 8 (egQueue s (dPort f) 8 ++ [judgedLate s f]) := by
  have hj := (dTimed_judged s f).trans ht
  unfold enqueue
  dsimp only
  rw [ht, if_pos rfl, if_neg (Nat.not_le.mpr h)]
  simp only [Bool.true_and]
  rw [← judgedLate, hj, Bool.true_and, judgedLate]

theorem inWindow_early {p w : Nat} (hw : 20000 < diff32 w (portNow s p)) : ¬ inWindow s p w = true := by
  unfold inWindow
  rw [decide_eq_true_eq]
  omega

theorem inWindow_due {p w : Nat} (hw : diff32 w (portNow s p) ≤ 20000) : inWindow s p w = true := decide_eq_true hw

theorem enqueue_early (ht : dTimed f = true) (h : (egQueue s (dPort f) 8).length < queueRoom 8) (hw : 20000 < diff32 f.w2 (portNow s (dPort f))) :
    enqueue s f = setQueue s (dPort f) 8 (egQueue s (dPort f) 8 ++ [judgedLate s f]) :=
  (enqueue_timed ht h).trans (if_neg (inWindow_early hw))

theorem enqueue_due (ht : dTimed f = true) (h : (egQueue s (dPort f) 8).length < queueRoom 8) (hn : f.frame = none)
    (hw : diff32 f.w2 (portNow s (dPort f)) ≤ 20000) : enqueue s f =
    setQueue (prepare s (judgedLate s f)).2 (dPort f) 8 (egQueue s (dPort f) 8 ++ [(prepare s (judgedLate s f)).1]) := by
  rw [enqueue_timed ht h, if_pos (inWindow_due hw), egQueue_prepare ((judgedLate_frame s f).trans hn)]
end

/-- The posts of signal cores. -/
theorem post_core {s : State} (hroom : CountersRoom s) (c : Fin 64) (v : Word) (hf : s.fabric = true) :
    let f := postedFrame s v.toNat
    let k := fun ecc => Instr.egressPost (.sgc c) v ecc
    let q := if dTimed f then 8 else dPrio f
    let queue := egQueue s (dPort f) q
    let ends := fun (f : EgFrame) (n : Nat) => [counted s (dPort f) n 1]
    QuietPost f →
      (bitOf (s.rd F.MLS_ERRSEL_SEL) 8 = false → Puts (k true) s ([pkeCounted s 10] ++ ends f 11 ++ [(F.PKE_IRQSTAT_ECC, 0, 1)])) ∧
      (portSends s (dPort f) = false → Puts (k false) s (ends f 10)) ∧
      (portSends s (dPort f) = true → badDesc s f = true → exec (k false) s = .next s) ∧
      (portSends s (dPort f) = true → badDesc s f = false →
        (queueRoom q ≤ queue.length → Puts (k false) s (ends f 9)) ∧
        (queue.length < queueRoom q →
          (dTimed f = false → exec (k false) s = .next (setQueue s (dPort f) q (queue ++ [f]))) ∧
          (dTimed f = true →
            let g := { f with late := decide (diff32 f.w2 (portNow s (dPort f)) < 0) }
            (20000 < diff32 f.w2 (portNow s (dPort f)) → exec (k false) s = .next (setQueue s (dPort f) 8 (queue ++ [g]))) ∧
            (diff32 f.w2 (portNow s (dPort f)) ≤ 20000 →
              exec (k false) s = .next (setQueue (prepare s g).2 (dPort f) 8 (queue ++ [(prepare s g).1])))))) := by
  intro f k q queue ends hq
  have hlate : f.late = false := rfl
  have hnone : f.frame = none := rfl
  have hk : ∀ ecc, exec (k ecc) s = .next (posted s f ecc) := fun ecc => egressPost_core ecc hf
  have hgood : portSends s (dPort f) = true → badDesc s f = false → exec (k false) s = .next (enqueue s f) := fun hs hb => by
    rw [hk]
    unfold posted
    rw [hs, hb]
    rfl
  clear_value f
  refine ⟨fun hsel => (hk true).trans (congrArg _ (egEnd_ecc hq hroom hsel)), fun hs => (hk false).trans (congrArg _ ?_),
    fun hs hb => (hk false).trans (congrArg _ ?_), fun hs hb => ⟨fun hfull => (hgood hs hb).trans (congrArg _ (enqueue_full hroom hq hfull)),
      fun hfits => ⟨fun ht => ?_, fun ht => ?_⟩⟩⟩
  · unfold posted
    rw [hs]
    exact (if_neg Bool.false_ne_true).trans ((if_pos rfl).trans (egEnd_down hq hroom))
  · unfold posted
    rw [hs, hb]
    exact (if_neg Bool.false_ne_true).trans ((if_neg (by decide)).trans ((if_pos rfl).trans (egEnd_badDesc hq)))
  · have hqp : q = dPrio f := if_neg (by rw [ht]; decide)
    change (egQueue s (dPort f) q).length < queueRoom q at hfits
    show _ = Host.Outcome.next (setQueue s (dPort f) q (egQueue s (dPort f) q ++ [f]))
    rw [hqp] at hfits ⊢
    exact (hgood hs hb).trans (congrArg _ (enqueue_prio ht hlate hfits))
  · have hqp : q = 8 := if_pos ht
    change (egQueue s (dPort f) q).length < queueRoom q at hfits
    show (_ → _ = Host.Outcome.next (setQueue s _ _ (egQueue s (dPort f) q ++ _))) ∧ (_ → _ = Host.Outcome.next (setQueue _ _ _ (egQueue s (dPort f) q ++ _)))
    rw [hqp] at hfits ⊢
    exact ⟨fun hw => (hgood hs hb).trans (congrArg _ (enqueue_early ht hfits hw)),
      fun hw => (hgood hs hb).trans (congrArg _ (enqueue_due ht hfits hnone hw))⟩

/-! ### Frames on the wire -/

section
variable {s : State} {p : Nat} {f : EgFrame}

/-- The bytes of a frame that starts with a stamp. -/
def wireBytes (f : EgFrame) (stamp : Nat) : List Byte :=
  wireFrame (if bitOf f.w1 11 then insertStamp (f.frame.getD []) f.w2 stamp else f.frame.getD [])

/-- A state with these bytes on the wire of port p. -/
def putWire (u : State) (p : Nat) (b : List Byte) : State := { u with wire := Tbl.put [] p b u.wire }

/-- What a sent frame counts in its port. -/
def sentCells (u : State) (p n : Nat) : List (Fld × Nat × Nat) :=
  [(F.PKE_P_CNT_COUNT, 12 * p + 5, u.rd F.PKE_P_CNT_COUNT (12 * p + 5) + 1), (F.PKE_P_CNT_COUNT, 12 * p + 6, u.rd F.PKE_P_CNT_COUNT (12 * p + 6) + n)]

/-- What a sent frame counts in its stream. -/
def streamCells (s : State) (n : Nat) (f : EgFrame) (stamp : Nat) : List (Fld × Nat × Nat) :=
  [(I.stCnt, 8 * n + 1, s.rd I.stCnt (8 * n + 1) + 1), (I.stCnt, 8 * n + 2, s.rd I.stCnt (8 * n + 2) + f.octets)] ++
    (if dRaw f then [] else [(I.stCnt, 8 * n + 3, f.idx), (I.stCnt, 8 * n + 4, f.ts)]) ++ [(I.stCnt, 8 * n + 7, stamp / 256)]

theorem sendFrame_eq (hq : QuietPost f) (st stamp l : Nat) : sendFrame s p f st stamp l =
    endStream (endPortCnt (putWire s p (wireBytes f stamp)) (dPort f) st (wireBytes f stamp).length) f st stamp := by
  have hb : wireFrame (if bitOf f.w1 11 && !f.own then insertStamp (f.frame.getD []) f.w2 stamp else f.frame.getD []) = wireBytes f stamp := by
    unfold wireBytes
    rw [hq.1, Bool.not_false, Bool.and_true]
  unfold sendFrame
  dsimp only
  rw [hb, egEnd_quiet hq]
  rfl

/-- A sent frame's counters in its port. -/
theorem sentCounts (hroom : CountersRoom s) {n : Nat} (hn : n ≤ 2048) : portCnt (portCnt s p 5) p 6 n = puts s (sentCells s p n) := by
  have h6 : (puts s [counted s p 5 1]).rd F.PKE_P_CNT_COUNT (12 * p + 6) = s.rd F.PKE_P_CNT_COUNT (12 * p + 6) := portCells2 s p 5 _ 6 0 (by decide)
  have := hroom.1 (12 * p + 6)
  rw [portCnt_one hroom, portCnt_room _ _ _ _ (by rw [h6]; omega), h6]
  rfl

theorem sentCells_rd {n k : Nat} : (puts s (sentCells s p n)).rd I.stCnt k = s.rd I.stCnt k :=
  puts_rd_other (l := sentCells s p n) [F.PKE_P_CNT_COUNT, F.PKE_P_CNT_COUNT] I.stCnt k (by decide)

theorem streamCells_congr {u : State} {n : Nat} (h : ∀ k, u.rd I.stCnt k = s.rd I.stCnt k) (stamp : Nat) : streamCells u n f stamp = streamCells s n f stamp := by
  unfold streamCells
  rw [h, h]

/-- The stream's words at the end of a late frame. -/
theorem endStream_lateCells (h : ∀ k, s.rd I.stCnt k + 4096 < 2 ^ 32) (ho : f.octets ≤ 2048) (stamp : Nat) : endStream s f egLATE stamp =
    puts s (streamCells s (dStrm f) f stamp ++ [(I.stCnt, 8 * dStrm f + 5, s.rd I.stCnt (8 * dStrm f + 5) + 1)]) := by
  rw [endStream_late s f stamp h ho]
  unfold streamCells
  rw [List.append_assoc (_ ++ _)]
  rfl

/-- A frame that is sent in time. -/
theorem sendFrame_sent (hroom : CountersRoom s) (hq : QuietPost f) (hp : dPort f = p) (ho : f.octets ≤ 2048) {stamp l : Nat}
    (hlen : (wireBytes f stamp).length ≤ 2048) : sendFrame s p f egSENT stamp l =
    puts (putWire s p (wireBytes f stamp)) (sentCells s p (wireBytes f stamp).length ++ streamCells s (dStrm f) f stamp) := by
  have hw : CountersRoom (putWire s p (wireBytes f stamp)) := hroom
  rw [sendFrame_eq hq, puts_append]
  show endStream (portCnt (portCnt (putWire s p (wireBytes f stamp)) (dPort f) 5) (dPort f) 6 (wireBytes f stamp).length) f egSENT stamp = _
  rw [hp, sentCounts hw hlen, endStream_sent _ _ _ (fun k => by rw [sentCells_rd]; exact hroom.2.2 k) ho]
  exact congrArg _ (streamCells_congr (fun k => sentCells_rd) stamp)

/-- A frame that is sent late. -/
theorem sendFrame_late (hroom : CountersRoom s) (hq : QuietPost f) (hp : dPort f = p) (ho : f.octets ≤ 2048) {stamp l : Nat}
    (hlen : (wireBytes f stamp).length ≤ 2048) : sendFrame s p f egLATE stamp l =
    puts (putWire s p (wireBytes f stamp)) (sentCells s p (wireBytes f stamp).length ++ [counted s p 7 1] ++ streamCells s (dStrm f) f stamp ++
      [(I.stCnt, 8 * dStrm f + 5, s.rd I.stCnt (8 * dStrm f + 5) + 1)]) := by
  have hw : CountersRoom (putWire s p (wireBytes f stamp)) := hroom
  have h7 : (puts (putWire s p (wireBytes f stamp)) (sentCells (putWire s p (wireBytes f stamp)) p (wireBytes f stamp).length)).rd
      F.PKE_P_CNT_COUNT (12 * p + 7) = s.rd F.PKE_P_CNT_COUNT (12 * p + 7) :=
    (portCells2 _ p 6 _ 7 0 (by decide)).trans (portCells2 _ p 5 _ 7 0 (by decide))
  have hst : ∀ k, (puts (puts (putWire s p (wireBytes f stamp)) (sentCells s p (wireBytes f stamp).length)) [counted s p 7 1]).rd I.stCnt k = s.rd I.stCnt k :=
    fun k => (puts_rd_other (l := [counted s p 7 1]) [F.PKE_P_CNT_COUNT] I.stCnt k (by decide)).trans sentCells_rd
  have := hroom.1 (12 * p + 7)
  have hport : endPortCnt (putWire s p (wireBytes f stamp)) p egLATE (wireBytes f stamp).length =
      puts (puts (putWire s p (wireBytes f stamp)) (sentCells s p (wireBytes f stamp).length)) [counted s p 7 1] := by
    show portCnt (portCnt (portCnt _ p 5) p 6 _) p 7 = _
    rw [sentCounts hw hlen, portCnt_room _ _ _ 1 (by rw [h7]; omega), h7]
    rfl
  rw [sendFrame_eq hq, hp, hport, endStream_lateCells (fun k => by rw [hst]; exact hroom.2.2 k) ho, streamCells_congr hst, hst, ← puts_append,
    ← puts_append]
  simp only [List.append_assoc]
end

/-! ### Timed frames -/

section
variable {s : State} {p : Fin 8} {sub : BitVec 9} {f : EgFrame}

theorem launch_none (h : egQueue s p.val 8 = []) : exec (.frameLaunch p sub) s = .next s := by
  show execFrameLaunch p sub s = _
  unfold execFrameLaunch
  rw [h]
  rfl

theorem prepare_empty (h : egQueue s p.val 8 = []) (ecc : Bool) : exec (.timedFramePrepare p ecc) s = .next s := by
  show execTimedFramePrepare p ecc s = _
  unfold execTimedFramePrepare prepareDue
  rw [h]
  rfl

variable (h : egQueue s p.val 8 = [f])
include h

theorem launch_unprepared (hf : f.frame = none) : exec (.frameLaunch p sub) s = .next s := by
  show execFrameLaunch p sub s = _
  unfold execFrameLaunch
  rw [h, earliest_one]
  exact if_neg (by rw [hf]; decide)

/-- A frame that is prepared, or not yet due, is left. -/
theorem prepare_notDue (hf : f.frame.isSome = true ∨ inWindow s p.val f.w2 = false) (ecc : Bool) : exec (.timedFramePrepare p ecc) s = .next s := by
  show execTimedFramePrepare p ecc s = _
  have hnone : [f].filter (fun f => f.frame.isNone && inWindow s p f.w2) = [] := by
    rcases hf with hf | hf
    · simp [Option.isSome_iff_ne_none.mp hf]
    · simp [hf]
  unfold execTimedFramePrepare prepareDue
  dsimp only
  rw [h, hnone]
  rfl

/-- The one frame that is due for preparation. -/
theorem prepare_due (hf : f.frame = none) (hw : inWindow s p.val f.w2 = true) : exec (.timedFramePrepare p false) s =
    .next (if badDesc s f then egEnd (setQueue s p.val 8 []) f egBADDESC 0 0 0 else setQueue (prepare s f).2 p.val 8 [(prepare s f).1]) := by
  show execTimedFramePrepare p false s = _
  have hone : [f].filter (fun f => f.frame.isNone && inWindow s p f.w2) = [f] := by simp [hf, hw]
  unfold execTimedFramePrepare prepareDue
  dsimp only
  rw [h, hone, earliest_one]
  dsimp only
  rw [if_neg Bool.false_ne_true, dropFirst_one, List.map_cons, List.map_nil, if_pos rfl]

/-- The one prepared frame is launched, dropped, or left. -/
theorem launch_prepared (hf : f.frame.isSome = true) : exec (.frameLaunch p sub) s = .next (launchFrame s p.val sub.toNat f) := by
  show execFrameLaunch p sub s = _
  unfold execFrameLaunch
  rw [h, earliest_one]
  exact if_pos hf

omit h in
theorem not_early {d : Int} {f : EgFrame} (hd : 0 ≤ d ∨ f.late = true) : ¬ (decide (d < 0) && !f.late) = true := by
  rcases hd with hd | hd
  · simp [Int.not_lt.mpr hd]
  · simp [hd]

/-- The stamp of a frame that starts on port p. -/
def startStamp (s : State) (p : Fin 8) (sub : BitVec 9) : Nat := txStamp s p.val (s.rd F.PKE_P_TCFG_LTB p.val) sub.toNat

omit h in
theorem startStamp_queue (l : List EgFrame) (q : Nat) : startStamp (setQueue s p.val q l) p sub = startStamp s p sub := rfl

section
variable (hroom : CountersRoom s) (hq : QuietPost f) (hp : dPort f = p.val) (hf : f.frame.isSome = true)
include hf

theorem launch_early (hd : diff32 (startStamp s p sub / 256) f.w2 < 0) (hl : f.late = false) : exec (.frameLaunch p sub) s = .next s := by
  refine (launch_prepared h hf).trans (congrArg _ ?_)
  unfold launchFrame
  refine if_pos ?_
  show (decide (diff32 (startStamp s p sub / 256) f.w2 < 0) && !f.late) = true
  rw [hl, decide_eq_true hd]
  rfl

variable (hd : 0 ≤ diff32 (startStamp s p sub / 256) f.w2 ∨ f.late = true)
include hd

/-- A launch on time: the frame leaves its queue, and is sent or ends. -/
theorem launch_due : exec (.frameLaunch p sub) s = .next
    (let d := diff32 (startStamp s p sub / 256) f.w2
     let late := f.late || decide ((s.rd F.PKE_P_TCFG_LATETOL p.val : Int) < d)
     let u := setQueue s p.val 8 []
     if !portSends s p.val then egEnd u f egDOWN 0 0 0
     else if late && bitOf f.w3 27 then egEnd u f egDROPLATE 0 0 0
     else sendFrame u p.val f (if late then egLATE else egSENT) (startStamp s p sub) (if late then d.toNat else 0)) := by
  refine (launch_prepared h hf).trans (congrArg _ ?_)
  unfold launchFrame
  refine (if_neg (not_early hd)).trans ?_
  rw [h, dropFirst_one]
  rfl

include hroom hq hp

theorem launch_down (hs : portSends s p.val = false) : exec (.frameLaunch p sub) s = .next (puts (setQueue s p.val 8 []) [counted s p.val 10 1]) := by
  refine (launch_due h hf hd).trans (congrArg _ ?_)
  dsimp only
  rw [hs, if_pos (by decide), egEnd_down hq (s := setQueue s p.val 8 []) hroom, hp]
  rfl

variable (hs : portSends s p.val = true)
include hs

theorem launch_dropLate (hlate : f.late = true ∨ (s.rd F.PKE_P_TCFG_LATETOL p.val : Int) < diff32 (startStamp s p sub / 256) f.w2)
    (hdrop : bitOf f.w3 27 = true) : exec (.frameLaunch p sub) s =
      .next (puts (setQueue s p.val 8 []) [counted s p.val 8 1, (I.stCnt, 8 * dStrm f + 6, s.rd I.stCnt (8 * dStrm f + 6) + 1)]) := by
  refine (launch_due h hf hd).trans (congrArg _ ?_)
  dsimp only
  rw [hs, if_neg (by decide), if_pos (by rw [hdrop]; simpa using hlate), egEnd_dropLate hq (s := setQueue s p.val 8 []) hroom, hp]
  rfl

variable (ho : f.octets ≤ 2048) (hlen : (wireBytes f (startStamp s p sub)).length ≤ 2048)
include ho hlen

theorem launch_late (hlate : f.late = true ∨ (s.rd F.PKE_P_TCFG_LATETOL p.val : Int) < diff32 (startStamp s p sub / 256) f.w2)
    (hdrop : bitOf f.w3 27 = false) : exec (.frameLaunch p sub) s =
      .next (puts (putWire (setQueue s p.val 8 []) p.val (wireBytes f (startStamp s p sub)))
        (sentCells s p.val (wireBytes f (startStamp s p sub)).length ++ [counted s p.val 7 1] ++ streamCells s (dStrm f) f (startStamp s p sub) ++
          [(I.stCnt, 8 * dStrm f + 5, s.rd I.stCnt (8 * dStrm f + 5) + 1)])) := by
  have hb : (f.late || decide ((s.rd F.PKE_P_TCFG_LATETOL p.val : Int) < diff32 (startStamp s p sub / 256) f.w2)) = true := by simpa using hlate
  refine (launch_due h hf hd).trans (congrArg _ ?_)
  dsimp only
  rw [hs, if_neg (by decide), if_neg (by rw [hdrop]; simp), if_pos hb]
  exact sendFrame_late (s := setQueue s p.val 8 []) hroom hq hp ho hlen

theorem launch_onTime (hlate : ¬ (f.late = true ∨ (s.rd F.PKE_P_TCFG_LATETOL p.val : Int) < diff32 (startStamp s p sub / 256) f.w2)) :
    exec (.frameLaunch p sub) s = .next (puts (putWire (setQueue s p.val 8 []) p.val (wireBytes f (startStamp s p sub)))
      (sentCells s p.val (wireBytes f (startStamp s p sub)).length ++ streamCells s (dStrm f) f (startStamp s p sub))) := by
  have hb : ¬ (f.late || decide ((s.rd F.PKE_P_TCFG_LATETOL p.val : Int) < diff32 (startStamp s p sub / 256) f.w2)) = true := by simpa using hlate
  refine (launch_due h hf hd).trans (congrArg _ ?_)
  dsimp only
  rw [hs, if_neg (by decide), if_neg (fun hh => hb (Bool.and_eq_true_iff.mp hh).1), if_neg hb]
  exact sendFrame_sent (s := setQueue s p.val 8 []) hroom hq hp ho hlen
end
end

/-! ### Priority frames -/

section
variable {s : State} {p : Fin 8} {sub : BitVec 9} {f : EgFrame} {q : Nat}

theorem topPrio_none (h : ∀ q, q < 8 → egQueue s p.val q = []) : topPrio s p.val = none := by
  unfold topPrio
  refine List.find?_eq_none.mpr fun q hq => ?_
  rw [h q (List.mem_range.mp (List.mem_reverse.mp hq))]
  decide

theorem find?_reverse_range {n q : Nat} {P : Nat → Bool} (hq : q < n) (hp : P q = true) (h : ∀ r, q < r → r < n → P r = false) :
    (List.range n).reverse.find? P = some q := by
  induction n with
  | zero => omega
  | succ n ih =>
    rw [List.range_succ, List.reverse_append, List.reverse_singleton, List.singleton_append]
    rcases Nat.lt_succ_iff_lt_or_eq.mp hq with hlt | rfl
    · rw [List.find?_cons_of_neg (by rw [h n hlt (by omega)]; decide)]
      exact ih hlt fun r hr hn => h r hr (by omega)
    · exact List.find?_cons_of_pos hp

theorem topPrio_some (hq : q < 8) (h : egQueue s p.val q = [f]) (hr : ∀ r, q < r → r < 8 → egQueue s p.val r = []) : topPrio s p.val = some q := by
  unfold topPrio
  refine find?_reverse_range hq ?_ fun r hlt h8 => ?_
  · rw [h]
    rfl
  · rw [hr r hlt h8]
    rfl

theorem priority_none (h : ∀ q, q < 8 → egQueue s p.val q = []) (ecc : Bool) : exec (.priorityFrameSend p sub ecc) s = .next s := by
  show execPriorityFrameSend p sub ecc s = _
  unfold execPriorityFrameSend sendPriority
  rw [topPrio_none h]

variable (hq8 : q < 8) (h : egQueue s p.val q = [f]) (hr : ∀ r, q < r → r < 8 → egQueue s p.val r = [])
include hq8 h hr

/-- The one priority frame is sent, ends, or waits. -/
theorem priority_one : exec (.priorityFrameSend p sub false) s = .next
    (if !portSends s p.val then egEnd (setQueue s p.val q []) f egDOWN 0 0 0
     else if badDesc s f then egEnd (setQueue s p.val q []) f egBADDESC 0 0 0
     else if fitsBefore s p.val (max 64 (((prepare s f).1.frame.getD []).length + 4)) then
       sendFrame (setQueue (prepare s f).2 p.val q []) p.val (prepare s f).1 egSENT (startStamp s p sub) 0
     else s) := by
  show execPriorityFrameSend p sub false s = _
  unfold execPriorityFrameSend sendPriority
  rw [topPrio_some hq8 h hr]
  dsimp only
  rw [h]
  rfl

theorem priority_down (hroom : CountersRoom s) (hq : QuietPost f) (hs : portSends s p.val = false) :
    exec (.priorityFrameSend p sub false) s = .next (puts (setQueue s p.val q []) [counted s (dPort f) 10 1]) := by
  refine (priority_one hq8 h hr).trans (congrArg _ ?_)
  rw [hs, if_pos (by decide), egEnd_down hq (s := setQueue s p.val q []) hroom]
  rfl

variable (hs : portSends s p.val = true)
include hs

theorem priority_badDesc (hq : QuietPost f) (hb : badDesc s f = true) : exec (.priorityFrameSend p sub false) s = .next (setQueue s p.val q []) := by
  refine (priority_one hq8 h hr).trans (congrArg _ ?_)
  rw [hs, if_neg (by decide), if_pos hb, egEnd_badDesc hq]

variable (hb : badDesc s f = false)
include hb

theorem priority_waits (hfit : fitsBefore s p.val (max 64 (((prepare s f).1.frame.getD []).length + 4)) = false) :
    exec (.priorityFrameSend p sub false) s = .next s := by
  refine (priority_one hq8 h hr).trans (congrArg _ ?_)
  rw [hs, hb, if_neg (by decide), if_neg Bool.false_ne_true, hfit]
  rfl

theorem priority_sent (hroom : CountersRoom s) (hq : QuietPost f) (hp : dPort f = p.val) (hf : f.frame = none) (hfit : fitsBefore s p.val (max 64 (((prepare s f).1.frame.getD []).length + 4)) = true)
    (hlen : (wireBytes (prepare s f).1 (startStamp s p sub)).length ≤ 2048) : exec (.priorityFrameSend p sub false) s =
    .next (puts (putWire (setQueue (prepare s f).2 p.val q []) p.val (wireBytes (prepare s f).1 (startStamp s p sub)))
      (sentCells s p.val (wireBytes (prepare s f).1 (startStamp s p sub)).length ++ streamCells s (dStrm f) (prepare s f).1 (startStamp s p sub))) := by
  obtain ⟨⟨hown, hsvc, -, -, hw3⟩, hoct, hother, -⟩ := prepare_says (s := s) hf
  have hqg : QuietPost (prepare s f).1 := by
    unfold QuietPost
    rw [hown, hsvc, hw3]
    exact hq
  have hpg : dPort (prepare s f).1 = p.val := by
    unfold dPort
    rw [hw3]
    exact hp
  have hstrm : dStrm (prepare s f).1 = dStrm f := by
    unfold dStrm
    rw [hw3]
  have hpcnt : ∀ k, (prepare s f).2.rd F.PKE_P_CNT_COUNT k = s.rd F.PKE_P_CNT_COUNT k := fun k => hother _ _ (by decide)
  have hst : ∀ k, (prepare s f).2.rd I.stCnt k = s.rd I.stCnt k := fun k => hother _ _ (by decide)
  have hroom' : CountersRoom (setQueue (prepare s f).2 p.val q []) := hroom.of_rd hpcnt (fun k => hother _ _ (by decide)) hst
  refine (priority_one hq8 h hr).trans (congrArg _ ?_)
  rw [hs, hb, if_neg (by decide), if_neg Bool.false_ne_true, if_pos hfit, sendFrame_sent hroom' hqg hpg hoct hlen,
    streamCells_congr (u := setQueue (prepare s f).2 p.val q []) hst, hstrm]
  have hsent : sentCells (setQueue (prepare s f).2 p.val q []) p.val (wireBytes (prepare s f).1 (startStamp s p sub)).length =
      sentCells s p.val (wireBytes (prepare s f).1 (startStamp s p sub)).length := by
    unfold sentCells
    rw [show (setQueue (prepare s f).2 p.val q []).rd F.PKE_P_CNT_COUNT _ = _ from hpcnt _,
      show (setQueue (prepare s f).2 p.val q []).rd F.PKE_P_CNT_COUNT _ = _ from hpcnt _]
  rw [hsent]
end

/-- The launch of the one prepared timed frame of a port. -/
theorem launch_says {s : State} (hroom : CountersRoom s) (p : Fin 8) (sub : BitVec 9) (f : EgFrame) (hq : QuietPost f) (hp : dPort f = p.val)
    (h : egQueue s p.val 8 = [f]) (hf : f.frame.isSome = true) (ho : f.octets ≤ 2048) (hlen : (wireBytes f (startStamp s p sub)).length ≤ 2048) :
    let d := diff32 (startStamp s p sub / 256) f.w2
    let late := f.late = true ∨ (s.rd F.PKE_P_TCFG_LATETOL p.val : Int) < d
    let u := setQueue s p.val 8 []
    let n := dStrm f
    (d < 0 → f.late = false → exec (.frameLaunch p sub) s = .next s) ∧
    (0 ≤ d ∨ f.late = true →
      (portSends s p.val = false → exec (.frameLaunch p sub) s = .next (puts u [counted s (dPort f) 10 1])) ∧
      (portSends s p.val = true →
        (late → bitOf f.w3 27 = true → s.rd I.stCnt (8 * n + 6) + 2 < 2 ^ 32 →
          exec (.frameLaunch p sub) s = .next (puts u ([counted s (dPort f) 8 1] ++ [(I.stCnt, 8 * n + 6, s.rd I.stCnt (8 * n + 6) + 1)]))) ∧
        (late → bitOf f.w3 27 = false → exec (.frameLaunch p sub) s = .next (puts (putWire u p.val (wireBytes f (startStamp s p sub)))
          (sentCells s p.val (wireBytes f (startStamp s p sub)).length ++ [counted s p.val 7 1] ++ streamCells s (dStrm f) f (startStamp s p sub) ++
            [(I.stCnt, 8 * n + 5, s.rd I.stCnt (8 * n + 5) + 1)]))) ∧
        (¬ late → exec (.frameLaunch p sub) s = .next (puts (putWire u p.val (wireBytes f (startStamp s p sub)))
          (sentCells s p.val (wireBytes f (startStamp s p sub)).length ++ streamCells s (dStrm f) f (startStamp s p sub)))))) := by
  intro d late u n
  rw [hp]
  exact ⟨launch_early h hf, fun hd => ⟨launch_down h hroom hq hp hf hd, fun hs => ⟨fun hlate hdrop _ => launch_dropLate h hroom hq hp hf hd hs hlate hdrop,
    launch_late h hroom hq hp hf hd hs ho hlen, launch_onTime h hroom hq hp hf hd hs ho hlen⟩⟩⟩

/-- Settles O49: posts, timed frames and priority frames, each from the lemma of its case. -/
theorem egressFramesAreSentOrEnd : Obligations.EgressFramesAreSentOrEnd := by
  unfold Obligations.EgressFramesAreSentOrEnd
  intro s hport hpke hst
  have hroom : CountersRoom s := ⟨hport, hpke, hst⟩
  refine ⟨fun ini v ecc hf h => egressPost_foreign ecc hf hroom h, fun c v hf => post_core hroom c v hf, fun p sub f hq hp => ?_⟩
  refine ⟨fun h => ⟨launch_none h, prepare_empty h⟩, fun h => ⟨prepare_notDue h, fun hf hw => ⟨fun hb => ?_, fun hb => ⟨?_, prepare_raw hf⟩⟩,
      launch_unprepared h, fun hf ho hlen => launch_says hroom p sub f hq hp h hf ho hlen⟩, priority_none,
    fun q hq8 h hr => ⟨priority_down hq8 h hr hroom hq, fun hs => priority_badDesc hq8 h hr hs hq,
      fun hs hb hf => ⟨priority_waits hq8 h hr hs hb, priority_sent hq8 h hr hs hb hroom hq hp hf⟩⟩⟩
  · rw [prepare_due h hf hw, if_pos hb, egEnd_badDesc hq]
  · rw [prepare_due h hf hw, hb]
    rfl

end Sys2Proof.Machine
end

section
/-! PROOFS.  Time bases, pins and PATHSTEP (O50). -/

namespace Sys2Proof.Machine

open Safety

set_option Elab.async false

/-! ### The registers of a time base -/

section
variable {s : State} {ini : Init} {v : Word} {b k : Nat}

theorem base_none (h : selBase s ini = none) : exec (.tbIncrLoWrite ini v) s = .next s ∧ exec (.tbIncrHiWrite ini v) s = .next s ∧ exec (.tbStep ini v) s = .next s := by
  refine ⟨?_, ?_, ?_⟩
  · show execTbIncrLoWrite ini v s = _
    unfold execTbIncrLoWrite
    rw [h]
  · show execTbIncrHiWrite ini v s = _
    unfold execTbIncrHiWrite
    rw [h]
  · show execTbStep ini v s = _
    unfold execTbStep
    rw [h]

variable (hf : s.fabric = true) (hb : selBase s ini = some b)
include hf hb

theorem incrLo_held (hk : selCopy ini = some k) : Puts (.tbIncrLoWrite ini v) s [(I.incrHeld, 4 * k + b, v.toNat)] := by
  show execTbIncrLoWrite ini v s = _
  unfold execTbIncrLoWrite incrLoWrite
  rw [hb, hk]
  exact if_pos hf

/-- A write of INCR_HI: it is refused while the guard or the lock holds. -/
theorem incrHi_next (hk : selCopy ini = some k) : exec (.tbIncrHiWrite ini v) s = .next
    (if tbGuard s b || (b == 1 && s.on F.TMU_TB_CFG_LOCK 1) then (s.wr I.incrHeld (4 * k + b) 0).wr F.TMU_TB_STAT_INCRERR b 1
    else setIncr (s.wr I.incrHeld (4 * k + b) 0) b (v.toNat % 256 * 2 ^ 32 + s.rd I.incrHeld (4 * k + b))) := by
  show execTbIncrHiWrite ini v s = _
  unfold execTbIncrHiWrite incrHiWrite
  rw [hb, hk]
  refine (if_pos hf).trans (congrArg _ ?_)
  dsimp only
  rw [tbGuard_wr, State.on_eq, State.rd_wr_cell _ I.incrHeld F.TMU_TB_CFG_LOCK _ _ _ (by decide), ← State.on_eq]

omit hf hb in
theorem incrFixed_iff (s : State) (b : Nat) : (tbGuard s b || (b == 1 && s.on F.TMU_TB_CFG_LOCK 1)) = true ↔
    tbGuard s b = true ∨ (b = 1 ∧ s.rd F.TMU_TB_CFG_LOCK 1 = 1) := by
  rw [on_flag s 1 (f := F.TMU_TB_CFG_LOCK) rfl]
  simp

theorem incrHi_refused (hk : selCopy ini = some k) (h : tbGuard s b = true ∨ (b = 1 ∧ s.rd F.TMU_TB_CFG_LOCK 1 = 1)) :
    Puts (.tbIncrHiWrite ini v) s [(I.incrHeld, 4 * k + b, 0), (F.TMU_TB_STAT_INCRERR, b, 1)] :=
  (incrHi_next hf hb hk).trans (congrArg _ (if_pos ((incrFixed_iff s b).mpr h)))

theorem incrHi_applied (hk : selCopy ini = some k) (h : ¬ (tbGuard s b = true ∨ (b = 1 ∧ s.rd F.TMU_TB_CFG_LOCK 1 = 1))) :
    let incr := max 0x01FF7CED92 (min 0x020083126E (v.toNat % 256 * 2 ^ 32 + s.rd I.incrHeld (4 * k + b)))
    Puts (.tbIncrHiWrite ini v) s [(I.incrHeld, 4 * k + b, 0), (F.TMU_TB_INCR_HI_INCR, b, incr / 2 ^ 32), (F.TMU_TB_INCR_LO_INCR, b, incr % 2 ^ 32)] :=
  (incrHi_next hf hb hk).trans (congrArg _ (if_neg fun hh => h ((incrFixed_iff s b).mp hh)))

theorem nsRead_latches (hk : selCopy ini = some k) : Does (.tbNsRead ini) s fun t => Tbl.get 0 t.rdata (initCode ini) = s.rd F.TMU_TB_NS_NS b ∧
    t.rd F.TMU_TB_FRAC_FRAC (4 * k + b) = s.rd I.tbFrac b / 2 ^ 24 % 2 ^ F.TMU_TB_FRAC_FRAC.w ∧
    SameCells s t [(F.TMU_TB_FRAC_FRAC, 4 * k + b)] ∧ t = { s with cells := t.cells, rdata := t.rdata } := by
  have hx : exec (.tbNsRead ini) s = .next ((s.wr F.TMU_TB_FRAC_FRAC (4 * k + b) (s.rd I.tbFrac b / 2 ^ 24)).seen (initCode ini) (s.rd F.TMU_TB_NS_NS b)) := by
    show execTbNsRead ini s = _
    unfold execTbNsRead tbNsRead
    rw [hb, hk]
    exact if_pos hf
  refine Does.of_next hx ⟨seen_rdata _ _ _, State.rd_wr_same s F.TMU_TB_FRAC_FRAC (4 * k + b) _, ?_, rfl⟩
  exact ((OnlyCells.refl s [(F.TMU_TB_FRAC_FRAC, 4 * k + b)]).wr (by simp)).2

/-! ### Steps -/

theorem tbStep_next : exec (.tbStep ini v) s = .next (tbCmdWrite s b v.toNat) := by
  show execTbStep ini v s = _
  unfold execTbStep
  rw [hb]
  exact if_pos hf

theorem tbStep_noGo (h : bitOf v.toNat 0 = false) : exec (.tbStep ini v) s = .next s := by
  rw [tbStep_next hf hb]
  unfold tbCmdWrite
  rw [h]
  rfl

variable (hgo : bitOf v.toNat 0 = true)
include hgo

/-- A step that is asked for is refused, applies, or waits. -/
theorem tbStep_go : exec (.tbStep ini v) s = .next
    (if b = 2 ∨ s.rd F.TMU_TB_STEP_STEP b = 0x80000000 then s.wr F.TMU_TB_STAT_STEPERR b 1
    else if s.on I.tickRun then tbStep s b (s.rd F.TMU_TB_STEP_STEP b) else s.wr F.TMU_TB_CMD_STEP b 1) := by
  rw [tbStep_next hf hb]
  unfold tbCmdWrite stepRefused
  rw [hgo]
  simp only [Bool.not_true, Bool.false_eq_true, if_false, Bool.or_eq_true, beq_iff_eq]

theorem tbStep_refused (h : b = 2 ∨ s.rd F.TMU_TB_STEP_STEP b = 0x80000000) : Puts (.tbStep ini v) s [(F.TMU_TB_STAT_STEPERR, b, 1)] :=
  (tbStep_go hf hb hgo).trans (congrArg _ (if_pos h))

theorem tbStep_waits (h : ¬ (b = 2 ∨ s.rd F.TMU_TB_STEP_STEP b = 0x80000000)) (ht : s.rd I.tickRun = 0) :
    Puts (.tbStep ini v) s [(F.TMU_TB_CMD_STEP, b, 1)] :=
  (tbStep_go hf hb hgo).trans (congrArg _ ((if_neg h).trans (if_neg (by rw [on_of_zero ht]; decide))))

theorem tbStep_applies (h : ¬ (b = 2 ∨ s.rd F.TMU_TB_STEP_STEP b = 0x80000000)) (ht : s.rd I.tickRun = 1) :
    exec (.tbStep ini v) s = .next (tbStep s b (s.rd F.TMU_TB_STEP_STEP b)) :=
  (tbStep_go hf hb hgo).trans (congrArg _ ((if_neg h).trans (if_pos (on_of_one ht))))
end

section
variable {s : State} {b v n : Nat}

/-- A base with no port on it skips no launch. -/
theorem skipLaunches_none (hp : ∀ p, p < 8 → s.rd F.PKE_P_TCFG_LTB p ≠ b) (ns : Nat) (d : Int) : skipLaunches s b ns d = s := by
  have hnone : (List.range 8).filter (fun p => s.rd F.PKE_P_TCFG_LTB p == b) = [] := by
    rw [List.filter_eq_nil_iff]
    intro p hp8
    simpa using hp p (List.mem_range.mp hp8)
  unfold skipLaunches
  rw [hnone]
  rfl

theorem stepped_rd (g : Fld) (j : Nat) (hg : ∀ f ∈ [F.TMU_TB_NS_NS, F.TMU_TB_LASTSTEP_VALUE, F.TMU_TB_STEPAT_VALUE], f.id ≠ g.id) :
    (puts s (stepped s b v)).rd g j = s.rd g j := puts_rd_other [F.TMU_TB_NS_NS, F.TMU_TB_LASTSTEP_VALUE, F.TMU_TB_STEPAT_VALUE] g j hg

/-- A late Waypoint that is dropped, with no later target. -/
theorem wpLate_dropped {u : State} {n l : Nat} (hd : u.rd F.TMU_WP_CTL_DROPLATE n = 1) (hper : u.rd F.TMU_WP_PERIOD_PERIOD n = 0)
    (hroom : u.rd F.TMU_LATEDROP_COUNT + 2 < 2 ^ 32) : wpLate u n l =
    puts u [(F.TMU_LATEDROP_COUNT, 0, u.rd F.TMU_LATEDROP_COUNT + 1), (F.TMU_IRQSTAT_LATEDROP, 0, 1), (F.TMU_WP_STAT_STATE, n, wpDONE)] := by
  have hp : ((u.wr F.TMU_LATEDROP_COUNT 0 (u.rd F.TMU_LATEDROP_COUNT + 1)).wr F.TMU_IRQSTAT_LATEDROP 0 1).rd F.TMU_WP_PERIOD_PERIOD n = 0 :=
    (puts_rd_other (l := [(F.TMU_LATEDROP_COUNT, 0, u.rd F.TMU_LATEDROP_COUNT + 1), (F.TMU_IRQSTAT_LATEDROP, 0, 1)])
      [F.TMU_LATEDROP_COUNT, F.TMU_IRQSTAT_LATEDROP] F.TMU_WP_PERIOD_PERIOD n (by decide)).trans hper
  unfold wpLate
  rw [if_pos (on_of_one hd)]
  unfold tmuCount
  rw [bump_room _ _ _ _ hroom]
  unfold rephase State.set
  dsimp only
  rw [hp]
  rfl

variable (hn : s.nonzero F.TMU_WP_STAT_STATE = [n]) (hs : s.rd F.TMU_WP_STAT_STATE n = wpPENDING) (ht : s.rd I.wpTb n = b)
  (hp : ∀ p, p < 8 → s.rd F.PKE_P_TCFG_LTB p ≠ b) (hleft : 0 < diff32 (s.rd F.TMU_WP_TARGET_TARGET n) (s.rd F.TMU_TB_NS_NS b))
include hn hs ht hp hleft

/-- A step of a base with one Waypoint whose target is ahead. -/
theorem tbStep_one :
    let left := diff32 (s.rd F.TMU_WP_TARGET_TARGET n) (s.rd F.TMU_TB_NS_NS b)
    let d := signedOf 32 v
    let u := puts s (stepped s b v)
    tbStep s b v = if 0 < d then (if left ≤ d then wpLate u n (d - left).toNat else u)
      else if (2 : Int) ^ 31 ≤ left - d then u.wr F.TMU_WP_STAT_STATE n wpHELD else u := by
  intro left d u
  have hpend : pendingOn s b = [n] := by
    unfold pendingOn
    rw [hn]
    simp [hs, ht]
  have hwl : wpLeft s n = left := by
    unfold wpLeft tbNs
    rw [ht]
  have hnot : wpDue s n = false := by
    unfold wpDue
    rw [hwl]
    rw [decide_eq_false (Int.not_le.mpr hleft), Bool.and_false]
  have htarget : u.rd F.TMU_WP_TARGET_TARGET n = s.rd F.TMU_WP_TARGET_TARGET n := stepped_rd _ _ (by decide)
  have hstate : u.rd F.TMU_WP_STAT_STATE n = wpPENDING := (stepped_rd _ _ (by decide)).trans hs
  have hu : ((s.wr F.TMU_TB_NS_NS b (tbNs s b + v)).wr F.TMU_TB_LASTSTEP_VALUE b v).wr F.TMU_TB_STEPAT_VALUE b
      (tbNs (s.wr F.TMU_TB_NS_NS b (tbNs s b + v)) b) = u := by
    unfold tbNs
    rw [State.rd_wr_same]
    rfl
  unfold tbStep
  dsimp only
  rw [hpend, List.filter_cons_of_neg (by rw [hnot]; decide), List.filter_nil]
  simp only [State.over, List.foldl_nil]
  have hport : ∀ p, p < 8 → u.rd F.PKE_P_TCFG_LTB p ≠ b := fun p hp8 => by
    rw [show u.rd F.PKE_P_TCFG_LTB p = s.rd F.PKE_P_TCFG_LTB p from stepped_rd _ _ (by decide)]
    exact hp p hp8
  simp only [hpend, hu, skipLaunches_none hport]
  clear_value u
  have hpos : decide (0 < diff32 (s.rd F.TMU_WP_TARGET_TARGET n) (tbNs s b)) = true := decide_eq_true hleft
  simp only [List.filter_cons, List.filter_nil, htarget, hpos, Bool.true_and, decide_eq_true_eq]
  refine ite_congr rfl (fun _ => ?_) fun _ => ?_
  · show List.foldl _ u (if left ≤ d then [n] else []) = _
    split
    · show (if (u.rd F.TMU_WP_STAT_STATE n == wpPENDING) = true then wpLate u n (d - diff32 (u.rd F.TMU_WP_TARGET_TARGET n) (tbNs s b)).toNat else u) = _
      rw [hstate, htarget]
      rfl
    · rfl
  · show List.foldl _ u (if 2 ^ 31 ≤ left - d then [n] else []) = _
    split
    · rfl
    · rfl

theorem tbStep_within (hd : 0 < signedOf 32 v) (h : signedOf 32 v < diff32 (s.rd F.TMU_WP_TARGET_TARGET n) (s.rd F.TMU_TB_NS_NS b)) :
    tbStep s b v = puts s (stepped s b v) :=
  (tbStep_one hn hs ht hp hleft).trans ((if_pos hd).trans (if_neg (Int.not_le.mpr h)))

theorem tbStep_skips (hd : 0 < signedOf 32 v) (h : diff32 (s.rd F.TMU_WP_TARGET_TARGET n) (s.rd F.TMU_TB_NS_NS b) ≤ signedOf 32 v)
    (hdrop : s.rd F.TMU_WP_CTL_DROPLATE n = 1) (hper : s.rd F.TMU_WP_PERIOD_PERIOD n = 0) (hroom : s.rd F.TMU_LATEDROP_COUNT + 2 < 2 ^ 32) :
    tbStep s b v = puts s (stepped s b v ++ [(F.TMU_LATEDROP_COUNT, 0, s.rd F.TMU_LATEDROP_COUNT + 1), (F.TMU_IRQSTAT_LATEDROP, 0, 1),
      (F.TMU_WP_STAT_STATE, n, wpDONE)]) := by
  have hc : (puts s (stepped s b v)).rd F.TMU_LATEDROP_COUNT = s.rd F.TMU_LATEDROP_COUNT := stepped_rd _ _ (by decide)
  rw [tbStep_one hn hs ht hp hleft]
  refine (if_pos hd).trans ((if_pos h).trans ?_)
  rw [wpLate_dropped ((stepped_rd _ _ (by decide)).trans hdrop) ((stepped_rd _ _ (by decide)).trans hper) (by rw [hc]; exact hroom), hc, puts_append]

theorem tbStep_back (hd : signedOf 32 v ≤ 0) (h : diff32 (s.rd F.TMU_WP_TARGET_TARGET n) (s.rd F.TMU_TB_NS_NS b) - signedOf 32 v < 2 ^ 31) :
    tbStep s b v = puts s (stepped s b v) :=
  (tbStep_one hn hs ht hp hleft).trans ((if_neg (Int.not_lt.mpr hd)).trans (if_neg (Int.not_le.mpr h)))

theorem tbStep_holds (hd : signedOf 32 v ≤ 0) (h : 2 ^ 31 ≤ diff32 (s.rd F.TMU_WP_TARGET_TARGET n) (s.rd F.TMU_TB_NS_NS b) - signedOf 32 v) :
    tbStep s b v = puts s (stepped s b v ++ [(F.TMU_WP_STAT_STATE, n, wpHELD)]) := by
  rw [tbStep_one hn hs ht hp hleft, puts_append]
  exact (if_neg (Int.not_lt.mpr hd)).trans (if_pos h)
end

/-! ### CAPALL, TB1 and the pins -/

section
variable {s : State}

theorem capall_says (ini : Init) (v : Word) (hf : s.fabric = true) : exec (.capall ini v) s = .next (if bitOf v.toNat 0 then
    puts s ((List.range 4).map fun b => (F.TMU_CAP_NS, b, s.rd F.TMU_TB_NS_NS b)) else s) := by
  show execCapall ini v s = _
  unfold execCapall capallWrite
  refine (if_pos hf).trans (congrArg _ ?_)
  split
  · show (((s.wr F.TMU_CAP_NS 0 (s.rd F.TMU_TB_NS_NS 0)).wr F.TMU_CAP_NS 1 ((s.wr F.TMU_CAP_NS 0 (s.rd F.TMU_TB_NS_NS 0)).rd F.TMU_TB_NS_NS 1)).wr F.TMU_CAP_NS 2
        (((s.wr F.TMU_CAP_NS 0 (s.rd F.TMU_TB_NS_NS 0)).wr F.TMU_CAP_NS 1 ((s.wr F.TMU_CAP_NS 0 (s.rd F.TMU_TB_NS_NS 0)).rd F.TMU_TB_NS_NS 1)).rd F.TMU_TB_NS_NS 2)).wr
      F.TMU_CAP_NS 3 _ = _
    simp (disch := decide) only [State.rd_wr_cell]
    rfl
  · rfl

/-- TB1 runs and follows its frames. -/
def Follows (s : State) : Prop := tmuRuns s = true ∧ tb1Follows s = true

theorem tb1Frame_idle (ok : Bool) (incr : BitVec 40) (h : ¬ Follows s) : exec (.tb1FrameMeasure ok incr) s = .next s := by
  show execTb1FrameMeasure ok incr s = _
  unfold execTb1FrameMeasure
  exact if_neg fun hh => h (Bool.and_eq_true_iff.mp hh)

theorem tb1Frame_follows (ok : Bool) (incr : BitVec 40) (h : Follows s) :
    let x := clampIncr incr.toNat
    let good := if ok then min 64 (s.rd I.tb1Good + 1) else 0
    Puts (.tb1FrameMeasure ok incr) s ([(F.TMU_TB_INCR_HI_INCR, 1, x / 2 ^ 32), (F.TMU_TB_INCR_LO_INCR, 1, x % 2 ^ 32)] ++
      [(F.TMU_TB_STAT_HOLDOVER, 1, 0), (I.tb1Good, 0, good)] ++ if good = 64 then [(F.TMU_TB_STAT_LOCKED, 1, 1)] else []) := by
  intro x good
  show execTb1FrameMeasure ok incr s = _
  unfold execTb1FrameMeasure
  refine (if_pos (Bool.and_eq_true_iff.mpr h)).trans ?_
  have hold : ((setIncr s 1 incr.toNat).wr F.TMU_TB_STAT_HOLDOVER 1 0).rd I.tb1Good = s.rd I.tb1Good :=
    puts_rd_other (l := [(F.TMU_TB_INCR_HI_INCR, 1, x / 2 ^ 32), (F.TMU_TB_INCR_LO_INCR, 1, x % 2 ^ 32), (F.TMU_TB_STAT_HOLDOVER, 1, 0)])
      [F.TMU_TB_INCR_HI_INCR, F.TMU_TB_INCR_LO_INCR, F.TMU_TB_STAT_HOLDOVER] I.tb1Good 0 (by decide)
  have hlt : good < 2 ^ I.tb1Good.w := by
    show (if ok then min 64 (s.rd I.tb1Good + 1) else 0) < 2 ^ 7
    split <;> omega
  dsimp only
  rw [hold]
  change (if (((setIncr s 1 incr.toNat).wr F.TMU_TB_STAT_HOLDOVER 1 0).wr I.tb1Good 0 good).rd I.tb1Good = 64 then
    go ((((setIncr s 1 incr.toNat).wr F.TMU_TB_STAT_HOLDOVER 1 0).wr I.tb1Good 0 good).wr F.TMU_TB_STAT_LOCKED 1 1) else
    go (((setIncr s 1 incr.toNat).wr F.TMU_TB_STAT_HOLDOVER 1 0).wr I.tb1Good 0 good)) = _
  rw [State.rd_wr_same, Nat.mod_eq_of_lt hlt, puts_append]
  split
  · rfl
  · rfl

theorem tb1Holdover_no (incr : BitVec 40) (h : ¬ Follows s ∨ s.rd F.TMU_TB_STAT_HOLDOVER 1 = 1) : exec (.tb1Holdover incr) s = .next s := by
  show execTb1Holdover incr s = _
  unfold execTb1Holdover
  refine if_neg fun hh => ?_
  obtain ⟨hh, hold⟩ := Bool.and_eq_true_iff.mp hh
  rcases h with h | h
  · exact h (Bool.and_eq_true_iff.mp hh)
  · rw [on_of_one h] at hold
    exact absurd hold (by decide)

theorem tb1Holdover_enters (incr : BitVec 40) (h : Follows s) (hh : s.rd F.TMU_TB_STAT_HOLDOVER 1 = 0) :
    let x := clampIncr incr.toNat
    Puts (.tb1Holdover incr) s ([(F.TMU_TB_INCR_HI_INCR, 1, x / 2 ^ 32), (F.TMU_TB_INCR_LO_INCR, 1, x % 2 ^ 32)] ++ [(F.TMU_TB_STAT_LOCKED, 1, 0),
      (F.TMU_TB_STAT_HOLDOVER, 1, 1), (I.tb1Good, 0, 0), (F.TMU_IRQSTAT_TB1HOLD, 0, 1)]) := by
  show execTb1Holdover incr s = _
  unfold execTb1Holdover
  refine if_pos ?_
  rw [on_of_zero hh, h.1, h.2]
  rfl

section
variable {k : Fin 6} {rising : Bool} {sub : BitVec 9}

/-- An active edge of an enabled input. -/
def EdgeTaken (s : State) (k : Fin 6) (rising : Bool) : Prop :=
  s.fabric = true ∧ s.rd F.TMU_IO_CFG_EN k.val = 1 ∧ ioOut s k.val = false ∧ (if rising then 1 else 0) ≠ s.rd F.TMU_IO_CFG_POL k.val

theorem edgeTaken_iff : (s.fabric && s.on F.TMU_IO_CFG_EN k.val && !ioOut s k.val && rising != s.on F.TMU_IO_CFG_POL k.val) = true ↔ EdgeTaken s k rising := by
  have hpol : (rising != s.on F.TMU_IO_CFG_POL k.val) = true ↔ (if rising then 1 else 0) ≠ s.rd F.TMU_IO_CFG_POL k.val := by
    rw [on_flag s k.val (f := F.TMU_IO_CFG_POL) rfl]
    rcases flag_cases s k.val (f := F.TMU_IO_CFG_POL) rfl with h | h
    · rw [h]
      cases rising <;> decide
    · rw [h]
      cases rising <;> decide
  unfold EdgeTaken
  rw [Bool.and_eq_true, hpol, on_flag s k.val (f := F.TMU_IO_CFG_EN) rfl]
  simp only [Bool.and_eq_true, Bool.not_eq_true', decide_eq_true_eq, and_assoc]

theorem pinCapture_no (h : ¬ EdgeTaken s k rising) : exec (.pinCapture k rising sub) s = .next s := by
  show execPinCapture k rising sub s = _
  unfold execPinCapture
  exact if_neg fun hh => h (edgeTaken_iff.mp hh)

theorem pinCapture_next (h : EdgeTaken s k rising) : exec (.pinCapture k rising sub) s =
    (if s.on F.TMU_IO_CAPST_VALID k.val then go (s.wr F.TMU_IO_CAPST_OVF k.val 1)
    else
      let t := stamp s (s.rd F.TMU_IO_CFG_TB k.val) sub.toNat 0
      go (puts s [(F.TMU_IO_CAP_NS, k.val, t / 256), (F.TMU_IO_CAPST_FRAC, k.val, t % 256), (F.TMU_IO_CAPST_VALID, k.val, 1), (F.TMU_IRQSTAT_CAPTURE, 0, 1)])) := by
  show execPinCapture k rising sub s = _
  unfold execPinCapture
  exact if_pos (edgeTaken_iff.mpr h)

theorem pinCapture_again (h : EdgeTaken s k rising) (hv : s.rd F.TMU_IO_CAPST_VALID k.val = 1) :
    Puts (.pinCapture k rising sub) s [(F.TMU_IO_CAPST_OVF, k.val, 1)] :=
  (pinCapture_next h).trans (if_pos (on_of_one hv))

theorem pinCapture_first (h : EdgeTaken s k rising) (hv : s.rd F.TMU_IO_CAPST_VALID k.val = 0) :
    let at' := stamp s (s.rd F.TMU_IO_CFG_TB k.val) sub.toNat 0
    Puts (.pinCapture k rising sub) s [(F.TMU_IO_CAP_NS, k.val, at' / 256), (F.TMU_IO_CAPST_FRAC, k.val, at' % 256), (F.TMU_IO_CAPST_VALID, k.val, 1),
      (F.TMU_IRQSTAT_CAPTURE, 0, 1)] :=
  (pinCapture_next h).trans (if_neg (by rw [on_of_zero hv]; decide))
end

/-! ### PATHSTEP -/

section
variable {ini : Init} {p : Fin 8} {v : Word} (hf : s.fabric = true)
include hf

theorem pathstep_next : exec (.pathstepPair ini p v) s = .next (psPair s p.val v.toNat) := if_pos hf

/-- A pair of measurements is beyond both thresholds. -/
def PathFires (s : State) (i v : Nat) : Prop :=
  s.rd F.TMU_PS_STAT_REFVALID i = 1 ∧ max 1 (s.rd F.TMU_PS_THR_OFSTHR i) ≤ (diff32 (s.rd F.TMU_PS_OFS_VALUE i) (s.rd I.psOfs i)).natAbs ∧
    max 1 (s.rd F.TMU_PS_THR_MPDTHR i) ≤ (diff32 v (s.rd I.psMpd i)).natAbs

omit hf in
theorem pathFires_iff (i v : Nat) : (s.on F.TMU_PS_STAT_REFVALID i &&
    decide (max 1 (s.rd F.TMU_PS_THR_OFSTHR i) ≤ (diff32 (s.rd F.TMU_PS_OFS_VALUE i) (s.rd I.psOfs i)).natAbs) &&
    decide (max 1 (s.rd F.TMU_PS_THR_MPDTHR i) ≤ (diff32 v (s.rd I.psMpd i)).natAbs)) = true ↔ PathFires s i v := by
  unfold PathFires
  rw [on_flag s i (f := F.TMU_PS_STAT_REFVALID) rfl]
  simp only [Bool.and_eq_true, decide_eq_true_eq, and_assoc]

theorem pathstep_off (h : s.rd F.TMU_PS_CFG_EN p.val = 0) : Puts (.pathstepPair ini p v) s [(F.TMU_PS_MPD_VALUE, p.val, v.toNat)] := by
  refine (pathstep_next hf).trans (congrArg _ ?_)
  unfold psPair
  refine if_pos ?_
  rw [State.on_eq, State.rd_wr_cell _ F.TMU_PS_MPD_VALUE F.TMU_PS_CFG_EN _ _ _ (by decide), h]
  rfl

theorem pathstep_fires (h : s.rd F.TMU_PS_CFG_EN p.val = 1) (hfire : PathFires s p.val v.toNat) :
    let i := p.val
    Puts (.pathstepPair ini p v) s ([(F.TMU_PS_MPD_VALUE, i, v.toNat), (F.TMU_PS_STAT_FIRED, i, 1),
        (F.TMU_PS_DOFS_VALUE, i, ofInt 32 (diff32 (s.rd F.TMU_PS_OFS_VALUE i) (s.rd I.psOfs i))),
        (F.TMU_PS_DMPD_VALUE, i, ofInt 32 (diff32 v.toNat (s.rd I.psMpd i))), (F.TMU_IRQSTAT_PATHSTEP, 0, 1)] ++
      [(I.psOfs, i, s.rd F.TMU_PS_OFS_VALUE i), (I.psMpd, i, v.toNat), (F.TMU_PS_STAT_REFVALID, i, 1)]) :=
  (pathstep_next hf).trans (congrArg _ (psPair_on s p.val v.toNat h true ((pathFires_iff _ _).mpr hfire)))

theorem pathstep_quiet (h : s.rd F.TMU_PS_CFG_EN p.val = 1) (hfire : ¬ PathFires s p.val v.toNat) :
    let i := p.val
    Puts (.pathstepPair ini p v) s ((F.TMU_PS_MPD_VALUE, i, v.toNat) ::
      [(I.psOfs, i, s.rd F.TMU_PS_OFS_VALUE i), (I.psMpd, i, v.toNat), (F.TMU_PS_STAT_REFVALID, i, 1)]) :=
  (pathstep_next hf).trans (congrArg _ (psPair_on s p.val v.toNat h false (Bool.eq_false_iff.mpr fun hh => hfire ((pathFires_iff _ _).mp hh))))

theorem pathstepClear_next : exec (.pathstepClear ini p v) s = .next (psStatWrite s p.val v.toNat) := if_pos hf

theorem pathstepClear_no (h : bitOf v.toNat 31 = false ∨ s.rd F.TMU_PS_STAT_FIRED p.val = 0) : exec (.pathstepClear ini p v) s = .next s := by
  refine (pathstepClear_next hf).trans (congrArg _ ?_)
  unfold psStatWrite
  refine if_neg fun hh => ?_
  obtain ⟨hbit, hon⟩ := Bool.and_eq_true_iff.mp hh
  rcases h with h | h
  · rw [h] at hbit
    exact absurd hbit (by decide)
  · rw [on_of_zero h] at hon
    exact absurd hon (by decide)

theorem pathstepClear_fired (h : bitOf v.toNat 31 = true) (hfired : s.rd F.TMU_PS_STAT_FIRED p.val = 1) :
    Puts (.pathstepClear ini p v) s [(F.TMU_PS_STAT_FIRED, p.val, 0), (F.TMU_PS_STAT_REFVALID, p.val, 0)] := by
  refine (pathstepClear_next hf).trans (congrArg _ ?_)
  unfold psStatWrite
  refine if_pos ?_
  rw [h, on_of_one hfired]
  rfl
end
end

/-- The steps of a base, with one Waypoint or none. -/
theorem step_says {s : State} {ini : Init} {v : Word} {b : Nat} (hf : s.fabric = true) (hb : selBase s ini = some b) :
    let x := s.rd F.TMU_TB_STEP_STEP b
    let d := signedOf 32 x
    let refused := b = 2 ∨ x = 0x80000000
    let k := Instr.tbStep ini v
    (bitOf v.toNat 0 = false → exec k s = .next s) ∧
    (bitOf v.toNat 0 = true → refused → Puts k s [(F.TMU_TB_STAT_STEPERR, b, 1)]) ∧
    (bitOf v.toNat 0 = true → ¬ refused → s.rd I.tickRun = 0 → Puts k s [(F.TMU_TB_CMD_STEP, b, 1)]) ∧
    (bitOf v.toNat 0 = true → ¬ refused → s.rd I.tickRun = 1 → (∀ p, p < 8 → s.rd F.PKE_P_TCFG_LTB p ≠ b) →
      (s.nonzero F.TMU_WP_STAT_STATE = [] → Puts k s (stepped s b x)) ∧
      ∀ n, s.nonzero F.TMU_WP_STAT_STATE = [n] → s.rd F.TMU_WP_STAT_STATE n = wpPENDING → s.rd I.wpTb n = b →
        let left := diff32 (s.rd F.TMU_WP_TARGET_TARGET n) (s.rd F.TMU_TB_NS_NS b)
        0 < left →
          (0 < d → d < left → Puts k s (stepped s b x)) ∧
          (0 < d → left ≤ d → s.rd F.TMU_WP_CTL_DROPLATE n = 1 → s.rd F.TMU_WP_PERIOD_PERIOD n = 0 → s.rd F.TMU_LATEDROP_COUNT + 2 < 2 ^ 32 →
            Puts k s (stepped s b x ++ [(F.TMU_LATEDROP_COUNT, 0, s.rd F.TMU_LATEDROP_COUNT + 1), (F.TMU_IRQSTAT_LATEDROP, 0, 1),
              (F.TMU_WP_STAT_STATE, n, wpDONE)])) ∧
          (d ≤ 0 → left - d < 2 ^ 31 → Puts k s (stepped s b x)) ∧
          (d ≤ 0 → 2 ^ 31 ≤ left - d → Puts k s (stepped s b x ++ [(F.TMU_WP_STAT_STATE, n, wpHELD)]))) := by
  intro x d refused k
  refine ⟨tbStep_noGo hf hb, tbStep_refused hf hb, tbStep_waits hf hb, fun hgo hr ht hp => ?_⟩
  have hx := tbStep_applies hf hb hgo hr ht
  refine ⟨fun hn => hx.trans (congrArg _ (tbStep_plain s b x hn hp)), fun n hn hs hw hleft => ⟨fun hd h => hx.trans (congrArg _ ?_),
    fun hd h hdrop hper hroom => hx.trans (congrArg _ ?_), fun hd h => hx.trans (congrArg _ ?_), fun hd h => hx.trans (congrArg _ ?_)⟩⟩
  · exact tbStep_within hn hs hw hp hleft hd h
  · exact tbStep_skips hn hs hw hp hleft hd h hdrop hper hroom
  · exact tbStep_back hn hs hw hp hleft hd h
  · exact tbStep_holds hn hs hw hp hleft hd h

/-- Settles O50: time bases, pins and PATHSTEP, each from the lemma of its case. -/
theorem timeBasesPinsAndPathstep : Obligations.TimeBasesPinsAndPathstep := by
  unfold Obligations.TimeBasesPinsAndPathstep
  intro s
  refine ⟨fun ini v => base_none, fun ini v b k hf hb hk => ⟨incrLo_held hf hb hk, ⟨incrHi_refused hf hb hk, incrHi_applied hf hb hk⟩,
      nsRead_latches hf hb hk, step_says hf hb⟩, fun ini v hf => ⟨fun h => ?_, fun h => ?_⟩,
    fun ok incr => ⟨tb1Frame_idle ok incr, tb1Frame_follows ok incr, tb1Holdover_no incr, tb1Holdover_enters incr⟩, fun k => rfl,
    fun k rising sub => ⟨pinCapture_no, pinCapture_again, pinCapture_first⟩,
    fun ini p v hf => ⟨pathstep_off hf, pathstep_fires hf, pathstep_quiet hf, pathstepClear_no hf, pathstepClear_fired hf⟩⟩
  · rw [capall_says ini v hf, h]
    rfl
  · rw [Puts, capall_says ini v hf, if_pos h]

end Sys2Proof.Machine
end

section
/-! PROOFS.  Waypoints: arming, lateness, firing and notices (O51). -/

namespace Sys2Proof.Machine

open Safety

set_option Elab.async false

/-! ### Lateness -/

section
variable {u : State} {n l : Nat}

/-- The cells of a late firing of a Waypoint without an action. -/
def lateCells (u : State) (n b l : Nat) : List (Fld × Nat × Nat) :=
  [(F.TMU_WP_CAP_VALUE, n, u.rd F.TMU_TB_NS_NS b), (F.TMU_WP_STAT_LATE, n, 1), (F.TMU_WP_LATENESS_VALUE, n, l),
    (F.TMU_LATECNT_COUNT, 0, u.rd F.TMU_LATECNT_COUNT + 1), (F.TMU_IRQSTAT_LATE, 0, 1), (F.TMU_WP_STAT_STATE, n, wpDONE)]

/-- The cells of a dropped Waypoint. -/
def droppedCells (u : State) (n : Nat) : List (Fld × Nat × Nat) :=
  [(F.TMU_LATEDROP_COUNT, 0, u.rd F.TMU_LATEDROP_COUNT + 1), (F.TMU_IRQSTAT_LATEDROP, 0, 1), (F.TMU_WP_STAT_STATE, n, wpDONE)]

/-- A late Waypoint without an action, with no later target. -/
theorem wpLate_fired (hd : u.rd F.TMU_WP_CTL_DROPLATE n = 0) (hact : u.rd F.TMU_WP_CTL_ACT n = 0) (hper : u.rd F.TMU_WP_PERIOD_PERIOD n = 0)
    (hroom : u.rd F.TMU_LATECNT_COUNT + 2 < 2 ^ 32) (hsel : bitOf (u.rd F.MLS_ERRSEL_SEL) 10 = false) (hl : l < 2 ^ 32) :
    wpLate u n l = puts u (lateCells u n (u.rd I.wpTb n) l) := by
  let early := [(F.TMU_WP_CAP_VALUE, n, u.rd F.TMU_TB_NS_NS (u.rd I.wpTb n)), (F.TMU_WP_STAT_LATE, n, 1), (F.TMU_WP_LATENESS_VALUE, n, l)]
  let marked := early ++ [(F.TMU_LATECNT_COUNT, 0, u.rd F.TMU_LATECNT_COUNT + 1), (F.TMU_IRQSTAT_LATE, 0, 1)]
  have hcnt : (puts u early).rd F.TMU_LATECNT_COUNT = u.rd F.TMU_LATECNT_COUNT :=
    puts_rd_other [F.TMU_WP_CAP_VALUE, F.TMU_WP_STAT_LATE, F.TMU_WP_LATENESS_VALUE] F.TMU_LATECNT_COUNT 0 (by decide)
  have hkeep : ∀ (g : Fld) j, (∀ f ∈ [F.TMU_WP_CAP_VALUE, F.TMU_WP_STAT_LATE, F.TMU_WP_LATENESS_VALUE, F.TMU_LATECNT_COUNT, F.TMU_IRQSTAT_LATE], f.id ≠ g.id) →
      (puts u marked).rd g j = u.rd g j := fun g j hg =>
    puts_rd_other [F.TMU_WP_CAP_VALUE, F.TMU_WP_STAT_LATE, F.TMU_WP_LATENESS_VALUE, F.TMU_LATECNT_COUNT, F.TMU_IRQSTAT_LATE] g j hg
  have hnot : noticeDue u n = false := by
    unfold noticeDue
    rw [hact]
    simp
  have hmark : markLate (u.wr F.TMU_WP_CAP_VALUE n (u.rd F.TMU_TB_NS_NS (u.rd I.wpTb n))) n l = puts u marked := by
    unfold markLate tmuCount
    dsimp only
    rw [show min 0xFFFFFFFF l = l by omega]
    change ((State.bump (puts u early) F.TMU_LATECNT_COUNT 0 (some F.TMU_IRQSTAT_CNTOVF)).set F.TMU_IRQSTAT_LATE 1).errEvent 10 = _
    rw [bump_room _ _ _ _ (by rw [hcnt]; exact hroom), hcnt]
    change (puts u marked).errEvent 10 = _
    unfold State.errEvent
    rw [hkeep _ _ (by decide), hsel]
    rfl
  unfold wpLate
  rw [on_of_zero hd, if_neg Bool.false_ne_true]
  unfold wpFire
  dsimp only
  rw [hnot, if_neg Bool.false_ne_true]
  unfold tbNs
  rw [hmark, wpAction_0 _ _ _ ((hkeep _ _ (by decide)).trans hact), rephase_once _ _ _ ((hkeep _ _ (by decide)).trans hper), ← puts_append]
  rfl

/-! ### Arming -/

/-- The cells of an armed Waypoint. -/
def armedCells (n tb la : Nat) : List (Fld × Nat × Nat) :=
  [(I.wpTb, n, tb), (I.wpLa, n, la), (F.TMU_WP_STAT_STATE, n, wpPENDING), (F.TMU_WP_STAT_LADONE, n, 0)]

/-- The distance of an armed Waypoint's target from now. -/
def armLeft (u : State) (n : Nat) : Int := diff32 (u.rd F.TMU_WP_TARGET_TARGET n) (u.rd F.TMU_TB_NS_NS (u.rd F.TMU_WP_CTL_TB n))

theorem armed_rd (tb la : Nat) (g : Fld) (j : Nat) (hg : ∀ f ∈ [I.wpTb, I.wpLa, F.TMU_WP_STAT_STATE, F.TMU_WP_STAT_LADONE], f.id ≠ g.id) :
    (puts u (armedCells n tb la)).rd g j = u.rd g j := puts_rd_other [I.wpTb, I.wpLa, F.TMU_WP_STAT_STATE, F.TMU_WP_STAT_LADONE] g j hg

theorem armed_tb (la : Nat) : (puts u (armedCells n (u.rd F.TMU_WP_CTL_TB n) la)).rd I.wpTb n = u.rd F.TMU_WP_CTL_TB n :=
  (puts_rd_at (l := armedCells n (u.rd F.TMU_WP_CTL_TB n) la) [I.wpTb, I.wpLa, F.TMU_WP_STAT_STATE, F.TMU_WP_STAT_LADONE] 0 (by decide)).trans
    (Nat.mod_eq_of_lt (State.rd_lt u F.TMU_WP_CTL_TB n))

theorem wpArm_future (h : tmuRuns u = false ∨ 0 < armLeft u n) : wpArm u n = puts u (armedCells n (u.rd F.TMU_WP_CTL_TB n) (u.rd F.TMU_WP_CTL_LA n)) := by
  rw [wpArm_says]
  refine if_neg fun hdue => ?_
  obtain ⟨hr, hd⟩ := (wpArm_due u n).mp hdue
  rcases h with h | h
  · rw [h] at hr
    exact absurd hr (by decide)
  · exact absurd hd (Int.not_le.mpr h)

theorem wpArm_late (hr : tmuRuns u = true) (hd : armLeft u n ≤ 0) : wpArm u n =
    wpLate (puts u (armedCells n (u.rd F.TMU_WP_CTL_TB n) (u.rd F.TMU_WP_CTL_LA n))) n (-armLeft u n).toNat := by
  have hleft : wpLeft (puts u (armedCells n (u.rd F.TMU_WP_CTL_TB n) (u.rd F.TMU_WP_CTL_LA n))) n = armLeft u n := by
    unfold wpLeft tbNs armLeft
    rw [armed_tb, armed_rd _ _ _ _ (by decide), armed_rd _ _ _ _ (by decide)]
  rw [wpArm_says, ← hleft]
  exact if_pos ((wpArm_due u n).mpr ⟨hr, hd⟩)

theorem wpArm_dropped (hr : tmuRuns u = true) (hd : armLeft u n ≤ 0) (hper : u.rd F.TMU_WP_PERIOD_PERIOD n = 0) (hdrop : u.rd F.TMU_WP_CTL_DROPLATE n = 1)
    (hroom : u.rd F.TMU_LATEDROP_COUNT + 2 < 2 ^ 32) :
    wpArm u n = puts u (armedCells n (u.rd F.TMU_WP_CTL_TB n) (u.rd F.TMU_WP_CTL_LA n) ++ droppedCells u n) := by
  have hcnt : (puts u (armedCells n (u.rd F.TMU_WP_CTL_TB n) (u.rd F.TMU_WP_CTL_LA n))).rd F.TMU_LATEDROP_COUNT = u.rd F.TMU_LATEDROP_COUNT :=
    armed_rd _ _ _ _ (by decide)
  rw [wpArm_late hr hd, wpLate_dropped ((armed_rd _ _ _ _ (by decide)).trans hdrop) ((armed_rd _ _ _ _ (by decide)).trans hper) (by rw [hcnt]; exact hroom),
    hcnt, puts_append]
  rfl

theorem diff32_bounds (a b : Nat) : -2 ^ 31 ≤ diff32 a b ∧ diff32 a b < 2 ^ 31 := by
  unfold diff32 signedOf
  dsimp only
  split <;> omega

theorem wpArm_fired (hr : tmuRuns u = true) (hd : armLeft u n ≤ 0) (hper : u.rd F.TMU_WP_PERIOD_PERIOD n = 0) (hdrop : u.rd F.TMU_WP_CTL_DROPLATE n = 0)
    (hact : u.rd F.TMU_WP_CTL_ACT n = 0) (hroom : u.rd F.TMU_LATECNT_COUNT + 2 < 2 ^ 32) (hsel : bitOf (u.rd F.MLS_ERRSEL_SEL) 10 = false) :
    wpArm u n = puts u (armedCells n (u.rd F.TMU_WP_CTL_TB n) (u.rd F.TMU_WP_CTL_LA n) ++ lateCells u n (u.rd F.TMU_WP_CTL_TB n) (-armLeft u n).toNat) := by
  have hcnt : (puts u (armedCells n (u.rd F.TMU_WP_CTL_TB n) (u.rd F.TMU_WP_CTL_LA n))).rd F.TMU_LATECNT_COUNT = u.rd F.TMU_LATECNT_COUNT :=
    armed_rd _ _ _ _ (by decide)
  have hns : (puts u (armedCells n (u.rd F.TMU_WP_CTL_TB n) (u.rd F.TMU_WP_CTL_LA n))).rd F.TMU_TB_NS_NS (u.rd F.TMU_WP_CTL_TB n) =
      u.rd F.TMU_TB_NS_NS (u.rd F.TMU_WP_CTL_TB n) := armed_rd _ _ _ _ (by decide)
  obtain ⟨hlow, -⟩ := diff32_bounds (u.rd F.TMU_WP_TARGET_TARGET n) (u.rd F.TMU_TB_NS_NS (u.rd F.TMU_WP_CTL_TB n))
  change -2 ^ 31 ≤ armLeft u n at hlow
  rw [wpArm_late hr hd, wpLate_fired ((armed_rd _ _ _ _ (by decide)).trans hdrop) ((armed_rd _ _ _ _ (by decide)).trans hact)
    ((armed_rd _ _ _ _ (by decide)).trans hper) (by rw [hcnt]; exact hroom) (by rw [armed_rd _ _ _ _ (by decide)]; exact hsel) (by omega),
    armed_tb, puts_append]
  unfold lateCells
  rw [hcnt, hns]
end

/-! ### The registers of a Waypoint -/

theorem wpStored_eq (w x en : Nat) : wpStored w x en = wpCells w x en := rfl

theorem wpStored_disabled (w x en : Nat) : wpStored w (x % 2 ^ 31) en = wpStored w x en := by
  unfold wpStored
  simp only [bitN_bits, bits_low x _ _ (show 27 < 31 by decide) (show 24 ≤ 27 by decide), bits_low x _ _ (show 30 < 31 by decide) (le_refl 30),
    bits_low x _ _ (show 29 < 31 by decide) (le_refl 29), bits_low x _ _ (show 21 < 31 by decide) (show 20 ≤ 21 by decide)]

section
variable {s : State} {ini : Init} {v : Word} {w : Nat}

theorem wp_none (h : selWp s ini = none) : (∀ ctl, exec (.waypointArm ini ctl v) s = .next s) ∧ exec (.waypointDisable ini v) s = .next s := by
  refine ⟨fun ctl => ?_, ?_⟩
  · show execWaypointArm ini ctl v s = _
    unfold execWaypointArm
    rw [h]
  · show execWaypointDisable ini v s = _
    unfold execWaypointDisable
    rw [h]

/-- Stored control fields: what a write of them leaves. -/
theorem wpStored_rd (x en : Nat) (g : Fld) (j : Nat)
    (hg : ∀ f ∈ [F.TMU_WP_CTL_ACT, F.TMU_WP_CTL_DROPLATE, F.TMU_WP_CTL_LA, F.TMU_WP_CTL_TB, F.TMU_WP_CTL_EN], f.id ≠ g.id) :
    (puts s (wpStored w x en)).rd g j = s.rd g j := by
  simp only [List.forall_mem_cons] at hg
  obtain ⟨hact, hdrop, hla, htb, hen, -⟩ := hg
  unfold wpStored
  split
  · simp only [List.cons_append, List.nil_append, puts_cons, puts_nil, State.rd_wr_cell _ _ _ _ _ _ hact, State.rd_wr_cell _ _ _ _ _ _ hdrop,
      State.rd_wr_cell _ _ _ _ _ _ hla, State.rd_wr_cell _ _ _ _ _ _ htb, State.rd_wr_cell _ _ _ _ _ _ hen]
  · simp only [List.nil_append, puts_cons, puts_nil, State.rd_wr_cell _ _ _ _ _ _ hdrop,
      State.rd_wr_cell _ _ _ _ _ _ hla, State.rd_wr_cell _ _ _ _ _ _ htb, State.rd_wr_cell _ _ _ _ _ _ hen]

theorem wpStored_drop (x en : Nat) : (puts s (wpStored w x en)).rd F.TMU_WP_CTL_DROPLATE w = bitN x 30 := by
  have hlt : bitN x 30 % 2 ^ F.TMU_WP_CTL_DROPLATE.w = bitN x 30 := Nat.mod_eq_of_lt (Nat.mod_lt _ (by decide))
  unfold wpStored
  split
  · exact (puts_rd_at [F.TMU_WP_CTL_ACT, F.TMU_WP_CTL_DROPLATE, F.TMU_WP_CTL_LA, F.TMU_WP_CTL_TB, F.TMU_WP_CTL_EN] 1 (by decide)).trans hlt
  · exact (puts_rd_at [F.TMU_WP_CTL_DROPLATE, F.TMU_WP_CTL_LA, F.TMU_WP_CTL_TB, F.TMU_WP_CTL_EN] 0 (by decide)).trans hlt

theorem wpStored_act (x en : Nat) (h : bits x 27 24 = 0) : (puts s (wpStored w x en)).rd F.TMU_WP_CTL_ACT w = 0 := by
  unfold wpStored
  rw [h, if_pos (by decide)]
  exact (puts_rd_at [F.TMU_WP_CTL_ACT, F.TMU_WP_CTL_DROPLATE, F.TMU_WP_CTL_LA, F.TMU_WP_CTL_TB, F.TMU_WP_CTL_EN] 0 (by decide)).trans rfl

theorem bitN_of_true {x k : Nat} (h : bitOf x k = true) : bitN x k = 1 := by
  rw [bitN_of, h]
  rfl

theorem bitN_of_false {x k : Nat} (h : bitOf x k = false) : bitN x k = 0 := by
  rw [bitN_of, h]
  rfl

variable (hf : s.fabric = true) (hw : selWp s ini = some w)
include hf hw

theorem wpArm_next (ctl : Bool) : exec (.waypointArm ini ctl v) s = .next (if ctl then wpCtlWrite s w v.toNat else wpTargetWrite s w v.toNat) := by
  show execWaypointArm ini ctl v s = _
  unfold execWaypointArm
  rw [hw]
  exact if_pos hf

theorem wpDisable_idle : Puts (.waypointDisable ini v) s (wpStored w v.toNat 0 ++ [(F.TMU_WP_STAT_STATE, w, wpIDLE)]) := by
  have hbit : bitOf (v.toNat % 2 ^ 31) 31 = false := by
    unfold bitOf
    rw [Nat.div_eq_of_lt (Nat.mod_lt _ (by decide))]
    rfl
  show execWaypointDisable ini v s = _
  unfold execWaypointDisable
  rw [hw]
  refine (if_pos hf).trans (congrArg _ ?_)
  rw [wpCtl_plain, puts_append, ← wpStored_disabled, hbit, bitN_of_false hbit]
  generalize v.toNat % 2 ^ 31 = y
  rfl

theorem wpCtl_idle (h : bitOf v.toNat 31 = false) : Puts (.waypointArm ini true v) s (wpStored w v.toNat 0 ++ [(F.TMU_WP_STAT_STATE, w, wpIDLE)]) := by
  refine (wpArm_next hf hw true).trans (congrArg _ ?_)
  rw [if_pos rfl, wpCtl_plain, puts_append, h, bitN_of_false h]
  rfl

theorem wpCtl_stored (h : bitOf v.toNat 31 = true) (hen : s.rd F.TMU_WP_CTL_EN w = 1) : Puts (.waypointArm ini true v) s (wpStored w v.toNat 1) := by
  refine (wpArm_next hf hw true).trans (congrArg _ ?_)
  rw [if_pos rfl, wpCtl_plain, h, bitN_of_true h, on_of_one hen]
  rfl

theorem wpCtl_arms (h : bitOf v.toNat 31 = true) (hen : s.rd F.TMU_WP_CTL_EN w = 0) :
    exec (.waypointArm ini true v) s = .next (wpArm (puts s (wpStored w v.toNat 1)) w) := by
  refine (wpArm_next hf hw true).trans (congrArg _ ?_)
  rw [if_pos rfl, wpCtl_plain, h, bitN_of_true h, on_of_zero hen, wpStored_eq]
  exact (if_neg (by decide)).trans (if_neg Bool.false_ne_true)

theorem wpTarget_stored (hen : s.rd F.TMU_WP_CTL_EN w = 0) : Puts (.waypointArm ini false v) s [(F.TMU_WP_TARGET_TARGET, w, v.toNat)] := by
  refine (wpArm_next hf hw false).trans (congrArg _ ?_)
  rw [if_neg Bool.false_ne_true]
  unfold wpTargetWrite
  rw [on_of_zero hen]
  rfl

theorem wpTarget_arms (hen : s.rd F.TMU_WP_CTL_EN w = 1) (hdue : wpDue s w = false) :
    exec (.waypointArm ini false v) s = .next (wpArm (s.wr F.TMU_WP_TARGET_TARGET w v.toNat) w) := by
  refine (wpArm_next hf hw false).trans (congrArg _ ?_)
  rw [if_neg Bool.false_ne_true]
  unfold wpTargetWrite
  rw [on_of_one hen, hdue]
  rfl
end

section
variable {s : State} {w x : Nat}

/-- What is read when a write of the control register arms. -/
theorem ctlArm_reads (s : State) (w x : Nat) : let u := puts s (wpStored w x 1)
    u.rd F.TMU_WP_CTL_TB w = bits x 21 20 ∧ u.rd F.TMU_WP_CTL_LA w = bitN x 29 ∧ tmuRuns u = tmuRuns s ∧
    armLeft u w = diff32 (s.rd F.TMU_WP_TARGET_TARGET w) (s.rd F.TMU_TB_NS_NS (bits x 21 20)) ∧
    (∀ l, lateCells u w (bits x 21 20) l = lateCells s w (bits x 21 20) l) ∧ droppedCells u w = droppedCells s w := by
  intro u
  obtain ⟨htb, hla, hrun, htarget, hns⟩ := wpCells_reads s w x 1
  change u.rd _ _ = _ at htb hla htarget
  change tmuRuns u = _ at hrun
  change ∀ j, u.rd _ _ = _ at hns
  have hlate : u.rd F.TMU_LATECNT_COUNT = s.rd F.TMU_LATECNT_COUNT := wpStored_rd x 1 _ _ (by decide)
  have hdrop : u.rd F.TMU_LATEDROP_COUNT = s.rd F.TMU_LATEDROP_COUNT := wpStored_rd x 1 _ _ (by decide)
  refine ⟨htb, hla, hrun, ?_, fun l => ?_, ?_⟩
  · unfold armLeft
    rw [htarget, htb, hns]
  · unfold lateCells
    rw [hns, hlate]
  · unfold droppedCells
    rw [hdrop]

/-- What is read when a write of the target arms. -/
theorem targetArm_reads (s : State) (w : Nat) (v : Word) : let u := s.wr F.TMU_WP_TARGET_TARGET w v.toNat
    (∀ (g : Fld) j, F.TMU_WP_TARGET_TARGET.id ≠ g.id → u.rd g j = s.rd g j) ∧ tmuRuns u = tmuRuns s ∧
    armLeft u w = diff32 v.toNat (s.rd F.TMU_TB_NS_NS (s.rd F.TMU_WP_CTL_TB w)) ∧
    (∀ b l, lateCells u w b l = lateCells s w b l) ∧ droppedCells u w = droppedCells s w := by
  intro u
  have hr : ∀ (g : Fld) j, F.TMU_WP_TARGET_TARGET.id ≠ g.id → u.rd g j = s.rd g j := fun g j hg => State.rd_wr_cell _ _ _ _ _ _ hg
  have ht : u.rd F.TMU_WP_TARGET_TARGET w = v.toNat := (State.rd_wr_same _ _ _ _).trans (Nat.mod_eq_of_lt v.isLt)
  refine ⟨hr, tmuRuns_wr _ _ _ _ (by decide), ?_, fun b l => ?_, ?_⟩
  · unfold armLeft
    rw [ht, hr _ _ (by decide), hr _ _ (by decide)]
  · unfold lateCells
    rw [hr _ _ (by decide), hr _ _ (by decide)]
  · unfold droppedCells
    rw [hr _ _ (by decide)]

end

/-- The counters and the error selection that lateness touches. -/
def LateReady (s : State) : Prop :=
  (∀ f ∈ [F.TMU_LATECNT_COUNT, F.TMU_LATEDROP_COUNT], s.rd f + 2 < 2 ^ 32) ∧ bitOf (s.rd F.MLS_ERRSEL_SEL) 10 = false

theorem LateReady.split {s : State} (h : LateReady s) :
    s.rd F.TMU_LATECNT_COUNT + 2 < 2 ^ 32 ∧ s.rd F.TMU_LATEDROP_COUNT + 2 < 2 ^ 32 ∧ bitOf (s.rd F.MLS_ERRSEL_SEL) 10 = false :=
  ⟨h.1 _ (by simp), h.1 _ (by simp), h.2⟩

/-- A write of the control register that arms. -/
theorem ctlArm_says {s : State} (hr : LateReady s) {ini : Init} {v : Word} {w : Nat} (hf : s.fabric = true) (hw : selWp s ini = some w)
    (hbit : bitOf v.toNat 31 = true) (hen : s.rd F.TMU_WP_CTL_EN w = 0) :
    let x := v.toNat
    let b := bits x 21 20
    let d := diff32 (s.rd F.TMU_WP_TARGET_TARGET w) (s.rd F.TMU_TB_NS_NS b)
    (tmuRuns s = false ∨ 0 < d → Puts (.waypointArm ini true v) s (wpStored w x 1 ++ armedCells w b (bitN x 29))) ∧
    (tmuRuns s = true → d ≤ 0 → s.rd F.TMU_WP_PERIOD_PERIOD w = 0 →
      (bitOf x 30 = true → Puts (.waypointArm ini true v) s (wpStored w x 1 ++ armedCells w b (bitN x 29) ++ droppedCells s w)) ∧
      (bitOf x 30 = false → bits x 27 24 = 0 →
        Puts (.waypointArm ini true v) s (wpStored w x 1 ++ armedCells w b (bitN x 29) ++ lateCells s w b (-d).toNat))) := by
  intro x b d
  obtain ⟨hlate, hdrop, hsel⟩ := hr.split
  have harms := wpCtl_arms hf hw hbit hen
  have hrd : ∀ (g : Fld) j, (∀ f ∈ [F.TMU_WP_CTL_ACT, F.TMU_WP_CTL_DROPLATE, F.TMU_WP_CTL_LA, F.TMU_WP_CTL_TB, F.TMU_WP_CTL_EN], f.id ≠ g.id) →
      (puts s (wpStored w x 1)).rd g j = s.rd g j := fun g j hg => wpStored_rd x 1 g j hg
  have hd30 : (puts s (wpStored w x 1)).rd F.TMU_WP_CTL_DROPLATE w = bitN x 30 := wpStored_drop x 1
  have hact := wpStored_act (s := s) (w := w) x 1
  obtain ⟨htb, hla, hrun, hleft, hlc, hdc⟩ := ctlArm_reads s w x
  change exec _ s = .next (wpArm (puts s (wpStored w x 1)) w) at harms
  simp only [Puts, List.append_assoc, puts_append s (wpStored w x 1)]
  rw [harms]
  generalize puts s (wpStored w x 1) = u at *
  change armLeft u w = d at hleft
  refine ⟨fun h => congrArg _ ?_, fun hrun' hle hper => ⟨fun h30 => congrArg _ ?_, fun h30 h0 => congrArg _ ?_⟩⟩
  · rw [wpArm_future (by rw [hrun, hleft]; exact h), htb, hla]
  · rw [wpArm_dropped (hrun.trans hrun') (hleft.trans_le hle) ((hrd _ _ (by decide)).trans hper) (hd30.trans (bitN_of_true h30))
      (by rw [hrd _ _ (by decide)]; exact hdrop), htb, hla, hdc]
  · rw [wpArm_fired (hrun.trans hrun') (hleft.trans_le hle) ((hrd _ _ (by decide)).trans hper) (hd30.trans (bitN_of_false h30)) (hact h0)
      (by rw [hrd _ _ (by decide)]; exact hlate) (by rw [hrd _ _ (by decide)]; exact hsel), htb, hla, hleft, hlc]

/-- A write of the target that arms. -/
theorem targetArm_says {s : State} (hr : LateReady s) {ini : Init} {v : Word} {w : Nat} (hf : s.fabric = true) (hw : selWp s ini = some w)
    (hen : s.rd F.TMU_WP_CTL_EN w = 1) (hdue : wpDue s w = false) :
    let x := v.toNat
    let b := s.rd F.TMU_WP_CTL_TB w
    let d := diff32 x (s.rd F.TMU_TB_NS_NS b)
    let put := (F.TMU_WP_TARGET_TARGET, w, x) :: armedCells w b (s.rd F.TMU_WP_CTL_LA w)
    (tmuRuns s = false ∨ 0 < d → Puts (.waypointArm ini false v) s put) ∧
    (tmuRuns s = true → d ≤ 0 → s.rd F.TMU_WP_PERIOD_PERIOD w = 0 →
      (s.rd F.TMU_WP_CTL_DROPLATE w = 1 → Puts (.waypointArm ini false v) s (put ++ droppedCells s w)) ∧
      (s.rd F.TMU_WP_CTL_DROPLATE w = 0 → s.rd F.TMU_WP_CTL_ACT w = 0 →
        Puts (.waypointArm ini false v) s (put ++ lateCells s w b (-d).toNat))) := by
  intro x b d put
  obtain ⟨hlate, hdrop, hsel⟩ := hr.split
  have harms := wpTarget_arms hf hw hen hdue (v := v)
  obtain ⟨hrd, hrun, hleft, hlc, hdc⟩ := targetArm_reads s w v
  simp only [Puts, put, List.cons_append, puts_cons s F.TMU_WP_TARGET_TARGET w x]
  rw [harms]
  change armLeft (s.wr F.TMU_WP_TARGET_TARGET w x) w = d at hleft
  show (_ → Host.Outcome.next (wpArm (s.wr F.TMU_WP_TARGET_TARGET w x) w) = _) ∧ _
  generalize s.wr F.TMU_WP_TARGET_TARGET w x = u at *
  refine ⟨fun h => congrArg _ ?_, fun hrun' hle hper => ⟨fun h30 => congrArg _ ?_, fun h30 h0 => congrArg _ ?_⟩⟩
  · rw [wpArm_future (by rw [hrun, hleft]; exact h), hrd _ _ (by decide), hrd _ _ (by decide)]
  · rw [wpArm_dropped (hrun.trans hrun') (hleft.trans_le hle) ((hrd _ _ (by decide)).trans hper) ((hrd _ _ (by decide)).trans h30)
      (by rw [hrd _ _ (by decide)]; exact hdrop), hrd F.TMU_WP_CTL_TB _ (by decide), hrd F.TMU_WP_CTL_LA _ (by decide), hdc]
  · rw [wpArm_fired (hrun.trans hrun') (hleft.trans_le hle) ((hrd _ _ (by decide)).trans hper) ((hrd _ _ (by decide)).trans h30)
      ((hrd _ _ (by decide)).trans h0)
      (by rw [hrd _ _ (by decide)]; exact hlate) (by rw [hrd _ _ (by decide)]; exact hsel), hrd F.TMU_WP_CTL_TB _ (by decide),
      hrd F.TMU_WP_CTL_LA _ (by decide), hleft, hlc]

/-! ### Firing -/

section
variable {s : State} {n : BitVec 12} {rx : List (BitVec 15 × Byte)}

/-- The distance of a Waypoint's target from now, on the base in force. -/
theorem wpLeft_eq (s : State) (w : Nat) : wpLeft s w = diff32 (s.rd F.TMU_WP_TARGET_TARGET w) (s.rd F.TMU_TB_NS_NS (s.rd I.wpTb w)) := rfl

theorem wpFire_no (h : tmuRuns s = false ∨ s.rd F.TMU_WP_STAT_STATE n.toNat ≠ wpPENDING ∨ 0 < wpLeft s n.toNat) : exec (.waypointFire n rx) s = .next s := by
  show execWaypointFire n rx s = _
  unfold execWaypointFire
  refine if_neg fun hh => ?_
  obtain ⟨hrun, hst, hd⟩ := (wpDue_iff s n.toNat).mp hh
  rcases h with h | h | h
  · rw [h] at hrun
    exact absurd hrun (by decide)
  · exact h hst
  · exact absurd hd (Int.not_le.mpr h)

/-- The state in which a firing has captured the time. -/
def captured (s : State) (w : Nat) : State := s.wr F.TMU_WP_CAP_VALUE w (s.rd F.TMU_TB_NS_NS (s.rd I.wpTb w))

theorem captured_rd (w : Nat) (g : Fld) (j : Nat) (hg : F.TMU_WP_CAP_VALUE.id ≠ g.id) : (captured s w).rd g j = s.rd g j := State.rd_wr_cell _ _ _ _ _ _ hg

theorem wpFire_acts (hrun : tmuRuns s = true) (hst : s.rd F.TMU_WP_STAT_STATE n.toNat = wpPENDING) (hd : wpLeft s n.toNat ≤ 0)
    (hnot : noticeDue s n.toNat = false) : exec (.waypointFire n rx) s =
    .next (rephase (wpAction (captured s n.toNat) n.toNat rx) n.toNat (s.rd F.TMU_TB_NS_NS (s.rd I.wpTb n.toNat))) := by
  show execWaypointFire n rx s = _
  unfold execWaypointFire
  refine (if_pos ((wpDue_iff s n.toNat).mpr ⟨hrun, hst, hd⟩)).trans (congrArg _ ?_)
  unfold wpFire
  dsimp only
  rw [hnot]
  rfl

theorem rephase_next {r : State} {w now p : Nat} (hp : r.rd F.TMU_WP_PERIOD_PERIOD w = p) (hlo : 1000 ≤ p) (hhi : p < 2 ^ 31) :
    rephase r w now = puts r [(F.TMU_WP_TARGET_TARGET, w, r.rd F.TMU_WP_TARGET_TARGET w + ((diff32 now (r.rd F.TMU_WP_TARGET_TARGET w)).toNat / p + 1) * p),
      (F.TMU_WP_STAT_LADONE, w, 0), (F.TMU_WP_STAT_STATE, w, wpPENDING), (I.wpTb, w, r.rd F.TMU_WP_CTL_TB w), (I.wpLa, w, r.rd F.TMU_WP_CTL_LA w)] := by
  have hper : wpPeriod p = p := by
    unfold wpPeriod
    rw [if_neg (by omega)]
    omega
  unfold rephase
  rw [hp, hper]
  refine (if_neg (by omega)).trans ?_
  simp (disch := decide) only [State.rd_wr_cell]
  rfl

theorem wpAction_reserved {u : State} {w : Nat} (h : 8 < u.rd F.TMU_WP_CTL_ACT w) : wpAction u w rx = u := by
  unfold wpAction
  dsimp only
  split
  iterate 8 omega
  rfl

theorem tmuServing_captured (w : Nat) : (captured s w).serving = s.serving := serving_wr _ _ _ _ (by decide)

theorem ioDrives_captured (w k : Nat) : ioDrives (captured s w) k = ioDrives s k := by
  unfold ioDrives ioOut State.fabric State.mode State.on
  simp only [captured_rd _ _ _ (show F.TMU_WP_CAP_VALUE.id ≠ F.TMU_IO_CFG_OUT.id by decide), captured_rd _ _ _ (show F.TMU_WP_CAP_VALUE.id ≠ F.TMU_IO_CFG_EN.id by decide),
    captured_rd _ _ _ (show F.TMU_WP_CAP_VALUE.id ≠ F.PMU_MODE_CURRENT.id by decide)]

/-- The actions of a firing Waypoint. -/
theorem wpAction_says (s : State) (w : Nat) (rx : List (BitVec 15 × Byte)) :
    let a0 := s.rd F.TMU_WP_ARG0_ARG w
    let a1 := s.rd F.TMU_WP_ARG1_ARG w
    let u := captured s w
    let base := a0 % 4
    let act := s.rd F.TMU_WP_CTL_ACT w
    (act = 0 ∨ 8 < act → wpAction u w rx = u) ∧
    (act = 1 → wpAction u w rx = setGroup u (a0 % 65536) (max 1 (min 1024 (a1 % 2048))) (bits a0 31 16)) ∧
    (act = 2 → wpAction u w rx = post u true a0 false) ∧
    (act = 3 → wpAction u w rx = u.mlsTrig 2) ∧
    (act = 4 → bitOf a0 0 = true → wpAction u w rx = realign u (bits a0 7 4) rx) ∧
    (act = 4 → bitOf a0 0 = false → wpAction u w rx = puts u [(F.TMU_WP_CAP2_VALUE, w, s.rd I.tdxBndNs), (F.TMU_WP_CAP_VALUE, w, s.rd F.TMU_TB_NS_NS 1),
      (F.TMU_IRQSTAT_ALIGN, 0, 1)]) ∧
    (act = 5 → stepRefused base a1 = true → wpAction u w rx = puts u [(F.TMU_TB_STAT_STEPERR, base, 1)]) ∧
    (act = 5 → stepRefused base a1 = false → wpAction u w rx = puts u [(I.tbPend, base, 1), (I.tbPendV, base, s.rd I.tbPendV base + a1)]) ∧
    (act = 6 → s.serving = false → wpAction u w rx = u) ∧
    (act = 6 → s.serving = true → wpAction u w rx = ((List.range 8).filter (bitOf a0 ·)).foldl (fun v c => cluWake v c) u) ∧
    (act = 7 → wpAction u w rx = hmSync (hmnModes u) (a0 % 16)) ∧
    (act = 8 → a0 % 8 < 5 → ioDrives s (pulsePin (a0 % 8)) = true → wpAction u w rx = puts u [(I.pulse, a0 % 8, 1)]) ∧
    (act = 8 → 5 ≤ a0 % 8 ∨ ioDrives s (pulsePin (a0 % 8)) = false → wpAction u w rx = u) := by
  intro a0 a1 u base act
  have hr : ∀ (g : Fld) j, F.TMU_WP_CAP_VALUE.id ≠ g.id → u.rd g j = s.rd g j := fun g j hg => captured_rd w g j hg
  have ha0 : u.rd F.TMU_WP_ARG0_ARG w = a0 := hr _ _ (by decide)
  have ha1 : u.rd F.TMU_WP_ARG1_ARG w = a1 := hr _ _ (by decide)
  have hact : u.rd F.TMU_WP_CTL_ACT w = act := hr _ _ (by decide)
  have hserv : u.serving = s.serving := tmuServing_captured w
  have hio : ∀ k, ioDrives u k = ioDrives s k := ioDrives_captured w
  clear_value u
  refine ⟨fun h => ?_, fun h => ?_, fun h => ?_, fun h => ?_, fun h hb => ?_, fun h hb => ?_, fun h hb => ?_, fun h hb => ?_, fun h hb => ?_, fun h hb => ?_,
    fun h => ?_, fun h hlt hb => ?_, fun h hb => ?_⟩
  · rcases h with h | h
    · exact wpAction_0 u w rx (hact.trans h)
    · exact wpAction_reserved (hact ▸ h)
  · rw [wpAction_1 u w rx (hact.trans h), ha0, ha1]
    rfl
  · rw [wpAction_2 u w rx (hact.trans h), ha0]
  · exact wpAction_3 u w rx (hact.trans h)
  · rw [wpAction_4 u w rx (hact.trans h), ha0, if_pos hb]
  · rw [wpAction_4 u w rx (hact.trans h), ha0, hb, if_neg Bool.false_ne_true, hr _ _ (by decide), show tbNs u 1 = _ from hr _ _ (by decide)]
    rfl
  · rw [wpAction_5 u w rx (hact.trans h), ha0, ha1, if_pos hb]
    rfl
  · rw [wpAction_5 u w rx (hact.trans h), ha0, ha1, hr _ _ (by decide)]
    exact if_neg (by rw [hb]; decide)
  · rw [wpAction_6 u w rx (hact.trans h), hserv, hb, if_neg Bool.false_ne_true]
  · rw [wpAction_6 u w rx (hact.trans h), hserv, hb, if_pos rfl, ha0]
    rfl
  · rw [wpAction_7 u w rx (hact.trans h), ha0]
  · rw [wpAction_8 u w rx (hact.trans h), ha0, hio, hb, if_pos (by simpa using hlt)]
    rfl
  · rw [wpAction_8 u w rx (hact.trans h), ha0, hio]
    refine if_neg fun hh => ?_
    obtain ⟨hlt, hdr⟩ := Bool.and_eq_true_iff.mp hh
    rcases hb with hb | hb
    · exact absurd (of_decide_eq_true hlt) (by omega)
    · rw [hb] at hdr
      exact absurd hdr (by decide)

theorem wpUnhold_no (h : tmuRuns s = false ∨ s.rd F.TMU_WP_STAT_STATE n.toNat ≠ wpHELD ∨ wpLeft s n.toNat ≤ 0) : exec (.waypointUnhold n) s = .next s := by
  show execWaypointUnhold n s = _
  unfold execWaypointUnhold
  refine if_neg fun hh => ?_
  simp only [Bool.and_eq_true, beq_iff_eq, decide_eq_true_eq] at hh
  obtain ⟨⟨hrun, hst⟩, hd⟩ := hh
  rcases h with h | h | h
  · rw [h] at hrun
    exact absurd hrun (by decide)
  · exact h hst
  · exact absurd h (Int.not_le.mpr hd)

theorem wpUnhold_pending (hrun : tmuRuns s = true) (hst : s.rd F.TMU_WP_STAT_STATE n.toNat = wpHELD) (hd : 0 < wpLeft s n.toNat) :
    Puts (.waypointUnhold n) s [(F.TMU_WP_STAT_STATE, n.toNat, wpPENDING)] := by
  show execWaypointUnhold n s = _
  unfold execWaypointUnhold
  refine if_pos ?_
  rw [hrun, hst, decide_eq_true hd]
  rfl

/-! ### Notices -/

/-- A Waypoint is ready for its notice. -/
def NoticeReady (s : State) (w : Nat) : Prop :=
  tmuRuns s = true ∧ s.rd F.TMU_WP_STAT_STATE w = wpPENDING ∧ s.rd I.wpLa w = 1 ∧ s.rd F.TMU_WP_CTL_ACT w = 1 ∧ s.rd F.TMU_WP_STAT_LADONE w = 0 ∧
    wpLeft s w ≤ min 1000000 (s.rd F.TMU_LACFG_LOOKAHEAD)

theorem noticeReady_iff (s : State) (w : Nat) : (tmuRuns s && s.rd F.TMU_WP_STAT_STATE w == wpPENDING && noticeDue s w &&
    decide (wpLeft s w ≤ (min 1000000 (s.rd F.TMU_LACFG_LOOKAHEAD) : Nat))) = true ↔ NoticeReady s w := by
  unfold NoticeReady noticeDue
  rw [on_flag s w (f := I.wpLa) rfl, Nat.cast_min]
  simp only [Bool.and_eq_true, beq_iff_eq, decide_eq_true_eq, Bool.not_eq_true', State.on, bne_eq_false_iff_eq, and_assoc]

theorem notice_no (h : ¬ NoticeReady s n.toNat) : exec (.lookaheadNotice n) s = .next s := by
  show execLookaheadNotice n s = _
  unfold execLookaheadNotice
  exact if_neg fun hh => h ((noticeReady_iff s _).mp hh)

theorem notice_next (h : NoticeReady s n.toNat) : exec (.lookaheadNotice n) s = .next (notice s n.toNat) := by
  show execLookaheadNotice n s = _
  unfold execLookaheadNotice
  exact if_pos ((noticeReady_iff s _).mpr h)

theorem notice_idle (h : NoticeReady s n.toNat) (hs : s.serving = false) : Puts (.lookaheadNotice n) s [(F.TMU_WP_STAT_LADONE, n.toNat, 1)] := by
  refine (notice_next h).trans (congrArg _ ?_)
  unfold notice
  dsimp only
  rw [serving_wr _ _ _ _ (by decide), hs]
  rfl
end

/-- The firing of a Waypoint whose target has come. -/
theorem wpFire_says {s : State} {n : BitVec 12} (rx : List (BitVec 15 × Byte)) (hrun : tmuRuns s = true)
    (hst : s.rd F.TMU_WP_STAT_STATE n.toNat = wpPENDING) (hd : wpLeft s n.toNat ≤ 0) (hnot : noticeDue s n.toNat = false) {acted : State}
    (h : wpAction (captured s n.toNat) n.toNat rx = acted) :
    exec (.waypointFire n rx) s = .next (rephase acted n.toNat (s.rd F.TMU_TB_NS_NS (s.rd I.wpTb n.toNat))) := by
  rw [wpFire_acts hrun hst hd hnot, h]

/-- Settles O51: Waypoints, each clause from the lemma of its case. -/
theorem waypointsArmFireAndGiveNotice : Obligations.WaypointsArmFireAndGiveNotice := by
  unfold Obligations.WaypointsArmFireAndGiveNotice
  intro s hroom hsel
  have hr : LateReady s := ⟨hroom, hsel⟩
  refine ⟨fun ini v => ⟨wp_none, fun w hf hw => ⟨wpDisable_idle hf hw, wpCtl_idle hf hw, wpCtl_stored hf hw, ctlArm_says hr hf hw, wpTarget_stored hf hw,
    targetArm_says hr hf hw⟩⟩, fun n rx => ⟨wpFire_no, fun hrun hst hd hnot => ?_, wpUnhold_no, wpUnhold_pending, notice_no, notice_idle, fun h hs => ?_⟩⟩
  · obtain ⟨h0, h1, h2, h3, h4r, h4a, h5r, h5, h6n, h6, h7, h8, h8n⟩ := wpAction_says s n.toNat rx
    have fires := fun {acted} => wpFire_says rx hrun hst hd hnot (acted := acted)
    exact ⟨fun r h => rephase_once r _ _ h, fun r hlo hhi ht => ht ▸ rephase_next rfl hlo hhi, fun h => fires (h0 h), fun h => fires (h1 h), fun h => fires (h2 h),
      fun h => fires (h3 h), fun h hb => fires (h4r h hb), fun h hb => fires (h4a h hb), fun h hb => fires (h5r h hb), fun h hb => fires (h5 h hb),
      fun h hb => fires (h6n h hb), fun h hb => fires (h6 h hb), fun h => fires (h7 h), fun h hlt hb => fires (h8 h hlt hb), fun h hb => fires (h8n h hb)⟩
  · rw [notice_next h, notice_says s _ hs]
    rfl

end Sys2Proof.Machine
end

section
/-! PROOFS.  TDM highways: frames, clocks and slips without H.110 (O52). -/

namespace Sys2Proof.Machine

open Safety

set_option Elab.async false

/-! ### What a pulse leaves of the tables -/

/-- Named cells are all that a write of cells changes of the tables. -/
theorem sameTables_puts (s : State) {l : List (Fld × Nat × Nat)} {ids : List Nat} (h : ∀ p ∈ l, p.1.id ∈ ids) : SameTables s (puts s l) ids := by
  induction l generalizing s with
  | nil => exact .refl _ _
  | cons p r ih =>
    exact ((SameTables.refl s ids).wr (h p (.head _))).trans (ih (s.wr p.1 p.2.1 p.2.2) fun q hq => h q (.tail _ hq))

/-- The cells of the clocks of group g. -/
def clockCells (g v : Nat) : List (Fld × Nat × Nat) :=
  if g = 0 then [(F.TDX_STAT_AOK, 0, v)] else if g = 1 then [(F.TDX_STAT_BOK, 0, v)] else []

/-- The fields a pulse changes before its frame begins. -/
def pulseIds : List Nat := [F.TDX_STAT_AOK, F.TDX_STAT_BOK, F.TDX_CNT_COUNT].map Fld.id

theorem clockCells_ids (g v : Nat) : ∀ p ∈ clockCells g v, p.1.id ∈ pulseIds := by
  unfold clockCells
  intro p hp
  split at hp
  · obtain rfl := List.mem_singleton.mp hp
    exact (by decide : F.TDX_STAT_AOK.id ∈ pulseIds)
  · split at hp
    · obtain rfl := List.mem_singleton.mp hp
      exact (by decide : F.TDX_STAT_BOK.id ∈ pulseIds)
    · cases hp

theorem clocksOk_eq (s : State) (g : Nat) (b : Bool) : clocksOk s g b = puts s (clockCells g (b2n b)) :=
  match g with
  | 0 => rfl
  | 1 => rfl
  | _ + 2 => rfl

/-- Cells that a pulse changes, in a list. -/
def PulseCells (l : List (Fld × Nat × Nat)) : Prop := ∀ p ∈ l, p.1.id ∈ pulseIds

section
variable {s : State} {g : Nat} {l : List (Fld × Nat × Nat)}

theorem PulseCells.rd (hl : PulseCells l) (q : Fld) (j : Nat) (hq : q.id ∉ pulseIds := by decide) : (puts s l).rd q j = s.rd q j :=
  (sameTables_puts s hl).rd q j hq

theorem PulseCells.h110 (hl : PulseCells l) : tdxH110 (puts s l) = tdxH110 s := by
  unfold tdxH110
  rw [State.on_eq, State.on_eq, hl.rd _ _]

theorem PulseCells.bare (hl : PulseCells l) (hb : TdxBare s) : TdxBare (puts s l) := by
  have hn : ∀ q : Fld, q.id ∉ pulseIds → (puts s l).nonzero q = s.nonzero q := fun q hq => (sameTables_puts s hl).nonzero q hq
  obtain ⟨hen, hswap, hforce, hout⟩ := hb
  exact ⟨(hn _ (by decide)).trans hen, (hn _ (by decide)).trans hswap, (hn _ (by decide)).trans hforce, (hn _ (by decide)).trans hout⟩

/-- No handover is armed, no store holds a frame, and Causeway does not run. -/
def Calm (s : State) : Prop := s.rd F.TDX_SWAPCMD_ARM = 0 ∧ (∀ j, s.rd I.tdxFill j = 0) ∧ s.rd F.CWY_CTRL_RUN = 0

theorem PulseCells.calm (hl : PulseCells l) (hc : Calm s) : Calm (puts s l) :=
  ⟨(hl.rd _ _).trans hc.1, fun j => (hl.rd _ j).trans (hc.2.1 j), (hl.rd _ _).trans hc.2.2⟩
end

/-! ### A frame with no timeslot bound -/

section
variable {s : State} {g : Nat} {rx : List (BitVec 15 × Byte)}

/-- The cells of a reference frame other than the last of its block. -/
def innerCells (s : State) : List (Fld × Nat × Nat) := [(I.tdxFrmNs, 0, s.rd F.TMU_TB_NS_NS 0), (F.TDX_FRAME_FRAME, 0, s.rd F.TDX_FRAME_FRAME + 1)]

/-- The cells of a reference frame that ends a block. -/
def lastCells (s : State) : List (Fld × Nat × Nat) :=
  [(I.tdxFrmNs, 0, s.rd F.TMU_TB_NS_NS 0), (F.TDX_FRAME_FRAME, 0, 0), (F.TDX_BLKCNT_BLOCK, 0, s.rd F.TDX_BLKCNT_BLOCK + 1),
    (I.tdxBndNs, 0, s.rd F.TMU_TB_NS_NS 1)]

/-- The cells of a group's frame. -/
def groupCells (s : State) (g : Nat) : List (Fld × Nat × Nat) :=
  if g ≠ s.rd F.TDX_CTRL_REFGRP then [(I.tdxFill, g, min 3 (s.rd I.tdxFill g + 1))]
  else if s.rd F.TDX_FRAME_FRAME < 15 then innerCells s else lastCells s

theorem groupFrame_bare (hb : TdxBare s) (hc : g = s.rd F.TDX_CTRL_REFGRP → Calm s) : groupFrame s g rx = puts s (groupCells s g) := by
  unfold groupFrame groupCells
  dsimp only
  rw [receiveFrame_none _ _ _ hb.2.2.1]
  by_cases hg : g = s.rd F.TDX_CTRL_REFGRP
  · obtain ⟨harm, hfill, hrun⟩ := hc hg
    rw [if_pos hg, if_neg (not_not_intro hg), storeFrame_none _ hb.2.2.1, refBoundary_bare _ _ hb harm hfill (.inl hrun)]
    have hlt : s.rd F.TDX_FRAME_FRAME < 16 := Nat.mod_lt _ (by decide)
    by_cases hf : s.rd F.TDX_FRAME_FRAME < 15
    · rw [if_pos hf, if_neg (by omega), Nat.mod_eq_of_lt (by omega)]
      rfl
    · rw [if_neg hf, if_pos (by omega), show s.rd F.TDX_FRAME_FRAME = 15 by omega]
      rfl
  · rw [if_neg hg, if_pos hg]
    have hb' := hb.wr I.tdxFill g (min 3 (s.rd I.tdxFill g + 1)) (by decide)
    rw [mapForce_none _ _ (mapPlaces_none _ hb'.1 hb'.2.1 hb'.2.2.1), driveFrame_none _ _ hb'.2.2.1 hb'.2.2.2]
    rfl

/-- The clocks are good, without H.110 and without a return to the A clocks. -/
structure PlainClocks (s : State) (g : Nat) : Prop where
  h110 : tdxH110 s = false
  ret : s.rd I.clkRet = 0
  loss : s.rd F.TDX_CG_STAT_LOSS g = 0

theorem PlainClocks.puts {l : List (Fld × Nat × Nat)} (h : PlainClocks s g) (hl : PulseCells l) : PlainClocks (puts s l) g :=
  ⟨hl.h110.trans h.h110, (hl.rd _ _).trans h.ret, (hl.rd _ _).trans h.loss⟩

theorem PlainClocks.framePulse (h : PlainClocks s g) : framePulse s g rx = groupFrame (Safety.puts s (clockCells g 1)) g rx :=
  framePulse_plain s g rx h.h110 h.loss h.ret

theorem groupCells_pulse {l : List (Fld × Nat × Nat)} (hl : PulseCells l) : groupCells (puts s l) g = groupCells s g := by
  unfold groupCells innerCells lastCells
  rw [hl.rd F.TDX_CTRL_REFGRP, hl.rd I.tdxFill, hl.rd F.TDX_FRAME_FRAME, hl.rd F.TMU_TB_NS_NS 0, hl.rd F.TMU_TB_NS_NS 1, hl.rd F.TDX_BLKCNT_BLOCK]

theorem framePulse_bare (h : PlainClocks s g) (hb : TdxBare s) (hc : g = s.rd F.TDX_CTRL_REFGRP → Calm s) :
    framePulse s g rx = puts s (clockCells g 1 ++ groupCells s g) := by
  have hl : PulseCells (clockCells g 1) := clockCells_ids g 1
  rw [h.framePulse, groupFrame_bare (hl.bare hb) (fun hg => hl.calm (hc (hg.trans (hl.rd _ _)))), groupCells_pulse hl, puts_append]

/-! ### Pulses -/

theorem tdxPulse_off (h : groupOn s g = false) (kind : PulseKind) : tdxPulse s g kind rx = s := by
  unfold tdxPulse
  rw [h]
  exact if_pos rfl

theorem tdxPulse_taken {kind : PulseKind} (h : groupOn s g = true) (hk : kind = .onTime ∨ (cgMaster s g = true ∧ kind = .elsewhere)) :
    tdxPulse s g kind rx = framePulse s g rx := by
  unfold tdxPulse
  rw [h]
  obtain rfl | ⟨hm, rfl⟩ := hk
  · rfl
  · rw [hm]
    rfl

theorem tdxPulse_absent_master (h : groupOn s g = true) (hm : cgMaster s g = true) : tdxPulse s g .absent rx = s := by
  unfold tdxPulse
  rw [h, hm]
  rfl

/-- A frame error of a slave group is counted. -/
def errorCells (s : State) (k : Nat) : List (Fld × Nat × Nat) := [(F.TDX_CNT_COUNT, k, s.rd F.TDX_CNT_COUNT k + 1)]

theorem errorCells_ids (s : State) (k : Nat) : PulseCells (errorCells s k) := by
  intro p hp
  obtain rfl := List.mem_singleton.mp hp
  exact (by decide : F.TDX_CNT_COUNT.id ∈ pulseIds)

theorem tdxCnt_room {k : Nat} (hroom : ∀ k, s.rd F.TDX_CNT_COUNT k + 2 < 2 ^ 32) : tdxCnt s k = puts s (errorCells s k) :=
  bump_room s _ _ _ (hroom k)

theorem failover_none (h : tdxH110 s = false) : failover s = s := by
  unfold failover
  rw [h]
  rfl

theorem tdxPulse_missed {kind : PulseKind} (h : groupOn s g = true) (hm : cgMaster s g = false) (hk : kind ≠ .onTime) (h110 : tdxH110 s = false)
    (hroom : ∀ k, s.rd F.TDX_CNT_COUNT k + 2 < 2 ^ 32) :
    tdxPulse s g kind rx = if kind == .elsewhere then framePulse (puts s (errorCells s 2)) g rx else puts s (errorCells s 2) := by
  have hf : failover (puts s (errorCells s 2)) = puts s (errorCells s 2) := failover_none ((errorCells_ids s 2).h110.trans h110)
  unfold tdxPulse
  rw [h, hm, Bool.or_false, tdxCnt_room hroom, if_neg (by decide), if_neg (by simpa using hk)]
  dsimp only
  rw [hf, ite_self]

theorem pulse_next {g : Fin 4} {kind : PulseKind} {t : State} (h : tdxPulse s g.val kind rx = t) : exec (.tdxFramePulse g kind rx) s = .next t :=
  h ▸ rfl
end

/-! ### The clause of a pulse -/

section
variable {s : State} {g : Fin 4} {rx : List (BitVec 15 × Byte)} {kind : PulseKind}

theorem pulse_bare (h : PlainClocks s g.val) (hon : groupOn s g.val = true) (hb : mapBare s) (hc : g.val = s.rd F.TDX_CTRL_REFGRP → Calm s)
    (hk : kind = .onTime ∨ (cgMaster s g.val = true ∧ kind = .elsewhere)) :
    Puts (.tdxFramePulse g kind rx) s (clockCells g.val 1 ++ groupCells s g.val) :=
  pulse_next ((tdxPulse_taken hon hk).trans (framePulse_bare h hb hc))

theorem pulse_late (h : PlainClocks s g.val) (hroom : ∀ k, s.rd F.TDX_CNT_COUNT k + 2 < 2 ^ 32) (hon : groupOn s g.val = true) (hb : mapBare s)
    (hc : g.val = s.rd F.TDX_CTRL_REFGRP → Calm s) (hm : cgMaster s g.val = false) (hk : kind = .elsewhere) :
    Puts (.tdxFramePulse g kind rx) s (errorCells s 2 ++ (clockCells g.val 1 ++ groupCells s g.val)) := by
  subst hk
  have hl := errorCells_ids s 2
  refine pulse_next ((tdxPulse_missed hon hm (by decide) h.h110 hroom).trans ?_)
  rw [if_pos (by decide), framePulse_bare (h.puts hl) (hl.bare hb) (fun hg => hl.calm (hc (hg.trans (hl.rd _ _)))), groupCells_pulse hl]
  exact (puts_append _ _ _).symm

theorem pulse_absent_slave (h110 : tdxH110 s = false) (hroom : ∀ k, s.rd F.TDX_CNT_COUNT k + 2 < 2 ^ 32) (hon : groupOn s g.val = true)
    (hm : cgMaster s g.val = false) (hk : kind = .absent) : Puts (.tdxFramePulse g kind rx) s (errorCells s 2) := by
  subst hk
  exact pulse_next (tdxPulse_missed hon hm (by decide) h110 hroom)

/-- The byte a timeslot receives in a frame: its last one again where none came. -/
def gotByte (s : State) (rx : List (BitVec 15 × Byte)) (e : Nat) : Nat :=
  match rx.find? fun r => r.1.toNat == e with
  | some r => r.2.toNat
  | none => s.rd I.tdxHist e % 256

theorem pulse_slot {e w : Nat} (h : PlainClocks s g.val) (hon : groupOn s g.val = true) (hk : kind = .onTime) (hone : oneTimeslot s g.val e w)
    (hd : eDriven w = false) (hu : eUse w = 0) (hw : eWb w = false) (h24 : bitOf w 24 = false) (h31 : bitOf w 31 = true)
    (hf : s.rd F.TDX_FRAME_FRAME < 15) :
    exec (.tdxFramePulse g kind rx) s =
      .next (puts (physWrite (puts s (clockCells g.val 1 ++ [(I.tdxHist, e, s.rd I.tdxHist e * 256 + gotByte s rx e)]))
        (rxRing (eRing w) + 2 * s.rd F.TDX_FRAME_FRAME + 32 * (s.rd F.TDX_BLKCNT_BLOCK % 4)) (leBytes 2 (lawExpand (eLaw w) (gotByte s rx e))))
        (innerCells s ++ [(I.tdxXc, e, gotByte s rx e)])) := by
  have hl : PulseCells (clockCells g.val 1) := clockCells_ids g.val 1
  have hkeep : OneIn (puts s (clockCells g.val 1)) g.val e w :=
    OneIn.keep hone (sameTables_puts s fun p hp => by
      have hid : p.1.id ∈ [F.TDX_STAT_AOK, F.TDX_STAT_BOK].map Fld.id := by
        unfold clockCells at hp
        split at hp
        · obtain rfl := List.mem_singleton.mp hp
          exact .head _
        · split at hp
          · obtain rfl := List.mem_singleton.mp hp
            exact .tail _ (.head _)
          · cases hp
      revert hid
      generalize p.1.id = n
      intro hid
      simp only [List.map_cons, List.map_nil, List.mem_cons, List.not_mem_nil, or_false] at hid
      obtain rfl | rfl := hid <;> decide)
  have hgot : gotByte s rx e = (match rx.find? fun r => r.1.toNat == e with
      | some r => r.2.toNat
      | none => (puts s (clockCells g.val 1)).rd I.tdxHist e % 256) := by
    rw [hl.rd I.tdxHist e]
    rfl
  refine pulse_next ((tdxPulse_taken hon (.inl hk)).trans ?_)
  rw [h.framePulse, slot_says _ _ _ _ rx hkeep hd hu hw h24 h31 _ hgot (by rw [hl.rd _ _]; exact hf), hl.rd I.tdxHist e, hl.rd F.TDX_FRAME_FRAME 0,
    hl.rd F.TDX_BLKCNT_BLOCK 0, hl.rd F.TMU_TB_NS_NS 0, ← puts_append]
  rfl
end

/-! ### Block boundaries, clock losses and slips -/

section
variable {s : State} {g : Fin 4} {rx : List (BitVec 15 × Byte)}

theorem blockBoundary_no (h : s.rd F.TDX_FRAME_FRAME ≠ 15) : exec (.tdxBlockBoundary rx) s = .next s := if_neg h

theorem refPulse_plain (h : tdxH110 s = false) : refPulse s = s.rd F.TDX_CTRL_REFGRP := by
  unfold refPulse
  rw [h]
  rfl

theorem blockBoundary_last (h : PlainClocks s (s.rd F.TDX_CTRL_REFGRP)) (hf : s.rd F.TDX_FRAME_FRAME = 15)
    (hon : groupOn s (s.rd F.TDX_CTRL_REFGRP) = true) (hb : mapBare s) (hc : Calm s) :
    Puts (.tdxBlockBoundary rx) s (clockCells (s.rd F.TDX_CTRL_REFGRP) 1 ++ lastCells s) := by
  have hcells : groupCells s (s.rd F.TDX_CTRL_REFGRP) = lastCells s := by
    unfold groupCells
    rw [if_neg (not_not_intro rfl), hf]
    rfl
  refine (if_pos hf).trans (congrArg _ ?_)
  rw [refPulse_plain h.h110, tdxPulse_taken hon (.inl rfl), framePulse_bare h hb fun _ => hc, hcells]

/-- The cells of a group's LOSS. -/
def lossCells (s : State) (g : Nat) : List (Fld × Nat × Nat) :=
  if s.rd F.TDX_CG_STAT_LOSS g = 1 then [] else [(F.TDX_CG_STAT_LOSS, g, 1), (F.TDX_CG_STAT_LOSSCHG, g, 1), (F.TDX_IRQSTAT_CLKLOSS, 0, 1)]

theorem setLoss_true (g : Nat) : setLoss s g true = puts s (lossCells s g) := by
  unfold setLoss lossCells
  by_cases h : s.rd F.TDX_CG_STAT_LOSS g = 1
  · rw [on_of_one h, if_pos h]
    rfl
  · rw [on_of_zero ((flag_cases s g (f := F.TDX_CG_STAT_LOSS) rfl).resolve_right h), if_neg h]
    rfl

theorem clockLoss_no (h : ¬ (groupOn s g.val = true ∧ cgMaster s g.val = false)) : exec (.tdxClockLoss g) s = .next s := by
  refine if_neg fun hh => h ?_
  simpa using hh

theorem clockLoss_says (h110 : tdxH110 s = false) (h : groupOn s g.val = true ∧ cgMaster s g.val = false) :
    Puts (.tdxClockLoss g) s (lossCells s g.val ++ clockCells g.val 0) := by
  have hfree : ∀ p ∈ lossCells s g.val ++ clockCells g.val 0, p.1.id ≠ F.TDX_CTRL_H110.id := by
    intro p hp
    have hid : p.1.id ∈ [F.TDX_CG_STAT_LOSS, F.TDX_CG_STAT_LOSSCHG, F.TDX_IRQSTAT_CLKLOSS].map Fld.id ++ pulseIds := by
      rcases List.mem_append.mp hp with hp | hp
      · unfold lossCells at hp
        split at hp
        · cases hp
        · refine List.mem_append_left _ (List.mem_map.mpr ⟨p.1, ?_, rfl⟩)
          simp only [List.mem_cons, List.not_mem_nil, or_false] at hp ⊢
          rcases hp with rfl | rfl | rfl <;> simp
      · exact List.mem_append_right _ (clockCells_ids _ _ p hp)
    intro hh
    exact absurd (hh ▸ hid) (by decide)
  have hs : clocksOk (setLoss s g.val true) g.val false = puts s (lossCells s g.val ++ clockCells g.val 0) := by
    rw [setLoss_true, clocksOk_eq, puts_append]
    rfl
  have hf : failover (puts s (lossCells s g.val ++ clockCells g.val 0)) = puts s (lossCells s g.val ++ clockCells g.val 0) := by
    refine failover_none ?_
    unfold tdxH110 at h110 ⊢
    rw [State.on_eq] at h110 ⊢
    rw [puts_cell _ _ _ _ hfree]
    exact h110
  refine (if_pos (by rw [h.1, h.2]; rfl)).trans ?_
  rw [hs, hf, ite_self]

theorem slip_no {slow : Bool} (h : ¬ (groupOn s g.val = true ∧ g.val ≠ s.rd F.TDX_CTRL_REFGRP)) : exec (.tdxSlip g slow) s = .next s := by
  refine if_neg fun hh => h ?_
  simpa using hh

/-- The cells of a slip's count. -/
def slipCells (s : State) : List (Fld × Nat × Nat) := [(F.TDX_CNT_COUNT, 1, s.rd F.TDX_CNT_COUNT 1 + 1), (F.TDX_IRQSTAT_SLIP, 0, 1)]

theorem slip_counted (hroom : ∀ k, s.rd F.TDX_CNT_COUNT k + 2 < 2 ^ 32) : (tdxCnt s 1).set F.TDX_IRQSTAT_SLIP 1 = puts s (slipCells s) := by
  rw [tdxCnt_room hroom]
  rfl

theorem slip_fill : (puts s (slipCells s)).rd I.tdxFill g.val = s.rd I.tdxFill g.val :=
  puts_rd_other [F.TDX_CNT_COUNT, F.TDX_IRQSTAT_SLIP] I.tdxFill _ (by decide)

theorem slip_fast (hroom : ∀ k, s.rd F.TDX_CNT_COUNT k + 2 < 2 ^ 32) (h : groupOn s g.val = true ∧ g.val ≠ s.rd F.TDX_CTRL_REFGRP) :
    Puts (.tdxSlip g false) s (slipCells s ++ [(I.tdxFill, g.val, s.rd I.tdxFill g.val - 1)]) := by
  show execTdxSlip g false s = _
  unfold execTdxSlip
  rw [if_pos (by simpa using h)]
  dsimp only
  rw [slip_counted hroom, slip_fill, puts_append]
  rfl

theorem slip_slow (hroom : ∀ k, s.rd F.TDX_CNT_COUNT k + 2 < 2 ^ 32) (h : groupOn s g.val = true ∧ g.val ≠ s.rd F.TDX_CTRL_REFGRP)
    (hforce : s.nonzero I.tdxForce = []) :
    Puts (.tdxSlip g true) s (slipCells s ++ [(I.tdxFill, g.val, min 3 (s.rd I.tdxFill g.val + 1))]) := by
  have hn : (puts s (slipCells s)).nonzero I.tdxForce = [] := by
    rw [nonzero_puts s (slipCells s) I.tdxForce (by simp [slipCells]; decide)]
    exact hforce
  show execTdxSlip g true s = _
  unfold execTdxSlip
  rw [if_pos (by simpa using h)]
  dsimp only
  rw [slip_counted hroom, if_pos rfl, receiveFrame_none _ _ _ hn, slip_fill, puts_append]
  rfl
end

end Sys2Proof.Machine
end

section
/-! PROOFS.  TDM highways: the slot map, H.110 and handovers (O52). -/

namespace Sys2Proof.Machine

open Safety

set_option Elab.async false

/-! ### Map entries -/

section
variable {s : State} {k v : Nat}

/-- The cells of a map entry's word. -/
def mapCells (s : State) (k v : Nat) : List (Fld × Nat × Nat) :=
  [(F.TDX_USECNT_CHAN, 0, s.rd F.TDX_USECNT_CHAN + useChan v - useChan (tdxMapWord s k)),
    (F.TDX_USECNT_XC, 0, s.rd F.TDX_USECNT_XC + useXc v - useXc (tdxMapWord s k)), (F.TDX_MAP_EN, k, bitN v 31), (F.TDX_MAP_DIR, k, bitN v 30)] ++
    (if eUse v = 3 then [] else [(F.TDX_MAP_USE, k, eUse v)]) ++ (if eLaw v = 3 then [] else [(F.TDX_MAP_LAW, k, eLaw v)]) ++
    [(F.TDX_MAP_WB, k, bitN v 25), (F.TDX_MAP_SWAP, k, bitN v 24), (F.TDX_MAP_TARGET, k, eTarget v)]

theorem setMap_puts (s : State) (k v : Nat) : setMap s k v = puts s (mapCells s k v) := by
  unfold setMap mapCells
  by_cases hu : eUse v = 3 <;> by_cases hl : eLaw v = 3 <;> simp only [hu, hl, if_true, if_false] <;> rfl

theorem mapRefuse_puts (hroom : ∀ k, s.rd F.TDX_CNT_COUNT k + 2 < 2 ^ 32) :
    mapRefuse s = puts s [(F.TDX_CNT_COUNT, 5, s.rd F.TDX_CNT_COUNT 5 + 1), (F.TDX_IRQSTAT_MAPERR, 0, 1)] := by
  unfold mapRefuse
  rw [tdxCnt_room hroom]
  rfl

theorem mapWrite_next {ini : Init} {i : BitVec 15} {x : Word} (hf : s.fabric = true) :
    exec (.tdxMapWrite ini i x) s = .next (tdxMapWrite s i.toNat x.toNat) := if_pos hf

theorem mapWrite_refused {ini : Init} {i : BitVec 15} {x : Word} (hf : s.fabric = true) (hroom : ∀ k, s.rd F.TDX_CNT_COUNT k + 2 < 2 ^ 32)
    (hb : eBinds x.toNat = true) (hr : mapRefused s i.toNat x.toNat = true) :
    Puts (.tdxMapWrite ini i x) s [(F.TDX_CNT_COUNT, 5, s.rd F.TDX_CNT_COUNT 5 + 1), (F.TDX_IRQSTAT_MAPERR, 0, 1)] := by
  refine (mapWrite_next hf).trans (congrArg _ ?_)
  unfold tdxMapWrite
  rw [hb, hr]
  exact mapRefuse_puts hroom

theorem mapWrite_stored {ini : Init} {i : BitVec 15} {x : Word} (hf : s.fabric = true) (h : eBinds x.toNat = false ∨ mapRefused s i.toNat x.toNat = false) :
    Puts (.tdxMapWrite ini i x) s (mapCells s i.toNat x.toNat) := by
  refine (mapWrite_next hf).trans (congrArg _ ?_)
  unfold tdxMapWrite
  rw [if_neg (by rcases h with h | h <;> simp [h])]
  exact setMap_puts s _ _
end

/-! ### Control, arming and failover -/

section
variable {s : State} {ini : Init} {x : Word}

theorem clksel_says (hf : s.fabric = true) : exec (.clkselWrite ini x) s = .next (tdxCtrlWrite s x.toNat) := if_pos hf

theorem arm_says (hf : s.fabric = true) : exec (.handoverArm ini x) s = .next (swapcmdWrite s x.toNat) := if_pos hf

/-- The A clocks that TDX uses are lost. -/
def AClocksLost (s : State) : Prop :=
  s.fabric = true ∧ s.rd F.TDX_CTRL_RUN = 1 ∧ tdxH110 s = true ∧ s.rd F.TDX_CTRL_CLKSEL = 0 ∧ cgMaster s 0 = false

theorem failover_guard : (tdxH110 s && !s.on F.TDX_CTRL_CLKSEL && !cgMaster s 0) = true ↔
    tdxH110 s = true ∧ s.rd F.TDX_CTRL_CLKSEL = 0 ∧ cgMaster s 0 = false := by
  simp only [Bool.and_eq_true, Bool.not_eq_true', State.on, bne_eq_false_iff_eq, and_assoc]

theorem h110Failover_no (h : ¬ AClocksLost s) : exec .h110Failover s = .next s := by
  show execH110Failover s = _
  unfold execH110Failover
  by_cases hr : (s.fabric && s.on F.TDX_CTRL_RUN) = true
  · obtain ⟨hf, hon⟩ := Bool.and_eq_true_iff.mp hr
    have hrun : s.rd F.TDX_CTRL_RUN = 1 := by
      rw [on_flag s 0 (f := F.TDX_CTRL_RUN) rfl] at hon
      exact of_decide_eq_true hon
    refine (if_pos hr).trans (congrArg _ ?_)
    exact if_neg fun hh => h ⟨hf, hrun, failover_guard.mp hh⟩
  · exact if_neg hr

theorem h110Failover_says (hroom : ∀ k, s.rd F.TDX_CNT_COUNT k + 2 < 2 ^ 32) (h : AClocksLost s) :
    Puts .h110Failover s [(F.TDX_CTRL_CLKSEL, 0, 1), (F.TDX_STAT_AOK, 0, 0), (F.TDX_IRQSTAT_FAILOVER, 0, 1),
      (F.TDX_CNT_COUNT, 3, s.rd F.TDX_CNT_COUNT 3 + 1)] := by
  obtain ⟨hf, hrun, hlost⟩ := h
  have hcnt : (puts s [(F.TDX_CTRL_CLKSEL, 0, 1), (F.TDX_STAT_AOK, 0, 0), (F.TDX_IRQSTAT_FAILOVER, 0, 1)]).rd F.TDX_CNT_COUNT 3 = s.rd F.TDX_CNT_COUNT 3 :=
    puts_rd_other [F.TDX_CTRL_CLKSEL, F.TDX_STAT_AOK, F.TDX_IRQSTAT_FAILOVER] F.TDX_CNT_COUNT 3 (by decide)
  show execH110Failover s = _
  unfold execH110Failover
  rw [hf, on_of_one hrun]
  refine congrArg _ ((if_pos (failover_guard.mpr hlost)).trans ?_)
  show State.bump (puts s [(F.TDX_CTRL_CLKSEL, 0, 1), (F.TDX_STAT_AOK, 0, 0), (F.TDX_IRQSTAT_FAILOVER, 0, 1)]) _ _ _ = _
  rw [bump_room _ _ _ _ (by rw [hcnt]; exact hroom 3), hcnt]
  rfl
end

/-! ### The places of the map -/

theorem nodup_eraseDups (l : List Nat) : l.eraseDups.Nodup := by
  induction hn : l.length using Nat.strong_induction_on generalizing l with
  | _ n ih =>
    cases l with
    | nil => exact List.nodup_nil
    | cons a r =>
      rw [List.eraseDups_cons]
      refine List.nodup_cons.mpr ⟨fun hm => ?_, ih _ ?_ _ rfl⟩
      · have := (List.mem_filter.mp (List.mem_eraseDups.mp hm)).2
        simp at this
      · exact (Nat.lt_succ_of_le (List.length_filter_le _ _)).trans_eq hn

/-- A cell whose table lists nothing at it holds its reset value. -/
theorem rd_of_not_listed {s : State} {f : Fld} {i : Nat} (h : i ∉ s.nonzero f) : s.rd f i = f.resetAt i % 2 ^ f.w := by
  unfold State.nonzero at h
  unfold State.rd
  generalize Tbl.get [] s.cells f.id = tbl at h
  congr 1
  induction tbl with
  | nil => rfl
  | cons p r ih =>
    obtain ⟨j, a⟩ := p
    simp only [List.map_cons, List.mem_cons, not_or] at h
    show (if j = i then a else _) = _
    rw [if_neg (Ne.symm h.1)]
    exact ih h.2

theorem swap_listed {s : State} {k : Nat} (h : s.rd F.TDX_MAP_SWAP k = 1) : k ∈ mapPlaces s := by
  refine List.mem_eraseDups.mpr (List.mem_append_left _ (List.mem_append_right _ ?_))
  by_contra hn
  rw [rd_of_not_listed hn] at h
  exact absurd h (by show ¬ (0 % 2 = 1); decide)

/-! ### What a handover does to the map -/

/-- The fields a map entry's write changes. -/
def mapIds : List Nat := [F.TDX_USECNT_CHAN, F.TDX_USECNT_XC, F.TDX_MAP_EN, F.TDX_MAP_DIR, F.TDX_MAP_USE, F.TDX_MAP_LAW, F.TDX_MAP_WB, F.TDX_MAP_SWAP,
  F.TDX_MAP_TARGET, F.TDX_CNT_COUNT, F.TDX_IRQSTAT_CNTOVF, F.TDX_IRQSTAT_MAPERR].map Fld.id

theorem setMap_tables (s : State) (k v : Nat) : SameTables s (setMap s k v) mapIds := by
  rw [setMap_puts]
  refine sameTables_puts s fun p hp => ?_
  have hf : p.1 ∈ [F.TDX_USECNT_CHAN, F.TDX_USECNT_XC, F.TDX_MAP_EN, F.TDX_MAP_DIR, F.TDX_MAP_USE, F.TDX_MAP_LAW, F.TDX_MAP_WB, F.TDX_MAP_SWAP,
      F.TDX_MAP_TARGET] := by
    unfold mapCells at hp
    by_cases hu : eUse v = 3 <;> by_cases hl : eLaw v = 3 <;>
      simp only [hu, hl, if_true, if_false, List.append_nil, List.mem_append, List.mem_cons, List.not_mem_nil, or_false] at hp ⊢ <;>
      aesop
  exact List.mem_map_of_mem (List.mem_append_left [F.TDX_CNT_COUNT, F.TDX_IRQSTAT_CNTOVF, F.TDX_IRQSTAT_MAPERR] hf)

/-- A counter's count changes the tables of the counter and of its overflow. -/
theorem bump_tables (s : State) (f g : Fld) (i : Nat) {ids : List Nat} (hf : f.id ∈ ids) (hg : g.id ∈ ids) : SameTables s (s.bump f i (some g)) ids := by
  unfold State.bump
  dsimp only
  split
  · have hw : SameTables s (s.wr f i (s.rd f i + 1)) ids := (SameTables.refl _ _).wr hf
    split
    · exact hw.wr hg
    · exact hw
  · exact .refl _ _

theorem mapRefuse_tables (s : State) : SameTables s (mapRefuse s) ([F.TDX_CNT_COUNT, F.TDX_IRQSTAT_CNTOVF, F.TDX_IRQSTAT_MAPERR].map Fld.id) := by
  unfold mapRefuse tdxCnt
  exact (bump_tables _ _ _ _ (.head _) (.tail _ (.head _))).trans ((SameTables.refl _ _).wr (.tail _ (.tail _ (.head _))))

theorem setMap_en (s : State) (k v j : Nat) : (setMap s k v).rd F.TDX_MAP_EN j = if k = j then bitN v 31 % 2 else s.rd F.TDX_MAP_EN j := by
  unfold setMap
  by_cases hu : eUse v = 3 <;> by_cases hl : eLaw v = 3 <;> simp only [hu, hl, if_true, if_false] <;>
    simp (disch := decide) only [State.set_eq_wr, State.rd_wr_cell, State.rd_wr] <;> rfl

theorem setMap_swap (s : State) (k v j : Nat) : (setMap s k v).rd F.TDX_MAP_SWAP j = if k = j then bitN v 24 % 2 else s.rd F.TDX_MAP_SWAP j := by
  unfold setMap
  by_cases hu : eUse v = 3 <;> by_cases hl : eLaw v = 3 <;> simp only [hu, hl, if_true, if_false] <;>
    simp (disch := decide) only [State.set_eq_wr, State.rd_wr_cell, State.rd_wr] <;> rfl

/-- The parts of a map entry's word: what SWAP and EN are added to. -/
theorem mapWord_parts (s : State) (k : Nat) : ∃ d t, d < 64 ∧ t < 2 ^ 24 ∧
    tdxMapWord s k = s.rd F.TDX_MAP_EN k * 2 ^ 31 + d * 2 ^ 25 + s.rd F.TDX_MAP_SWAP k * 2 ^ 24 + t := by
  have hdir : s.rd F.TDX_MAP_DIR k < 2 := State.rd_lt _ _ _
  have huse : s.rd F.TDX_MAP_USE k < 4 := State.rd_lt _ _ _
  have hlaw : s.rd F.TDX_MAP_LAW k < 4 := State.rd_lt _ _ _
  have hwb : s.rd F.TDX_MAP_WB k < 2 := State.rd_lt _ _ _
  have htgt : s.rd F.TDX_MAP_TARGET k < 2 ^ 15 := State.rd_lt _ _ _
  refine ⟨s.rd F.TDX_MAP_DIR k * 32 + s.rd F.TDX_MAP_USE k * 8 + s.rd F.TDX_MAP_LAW k * 2 + s.rd F.TDX_MAP_WB k, s.rd F.TDX_MAP_TARGET k, by omega, by omega, ?_⟩
  unfold tdxMapWord
  omega

section
variable {s : State} {k : Nat}

theorem disabled_word (hen : s.rd F.TDX_MAP_EN k = 1) (hsw : s.rd F.TDX_MAP_SWAP k = 1) :
    bitN (tdxMapWord s k - 2 ^ 31 - 2 ^ 24) 31 = 0 ∧ bitN (tdxMapWord s k - 2 ^ 31 - 2 ^ 24) 24 = 0 := by
  obtain ⟨d, t, hd, ht, hw⟩ := mapWord_parts s k
  rw [hw, hen, hsw]
  unfold bitN
  omega

theorem enabled_word (hen : s.rd F.TDX_MAP_EN k = 0) (hsw : s.rd F.TDX_MAP_SWAP k = 1) :
    bitN (tdxMapWord s k + 2 ^ 31 - 2 ^ 24) 31 = 1 ∧ bitN (tdxMapWord s k + 2 ^ 31 - 2 ^ 24) 24 = 0 := by
  obtain ⟨d, t, hd, ht, hw⟩ := mapWord_parts s k
  rw [hw, hen, hsw]
  unfold bitN
  omega

theorem refused_word (hen : s.rd F.TDX_MAP_EN k = 0) (hsw : s.rd F.TDX_MAP_SWAP k = 1) :
    bitN (tdxMapWord s k + 2 ^ 31 - 2 ^ 24 - 2 ^ 31) 24 = 0 := by
  obtain ⟨d, t, hd, ht, hw⟩ := mapWord_parts s k
  rw [hw, hen, hsw]
  unfold bitN
  omega
end

/-- EN and SWAP of an entry are the same in two states. -/
def SameEntry (s t : State) (k : Nat) : Prop := t.rd F.TDX_MAP_EN k = s.rd F.TDX_MAP_EN k ∧ t.rd F.TDX_MAP_SWAP k = s.rd F.TDX_MAP_SWAP k

theorem SameEntry.trans {s t u : State} {k : Nat} (h : SameEntry s t k) (h' : SameEntry t u k) : SameEntry s u k :=
  ⟨h'.1.trans h.1, h'.2.trans h.2⟩

theorem SameTables.entry {s t : State} {ids : List Nat} (h : SameTables s t ids) (k : Nat) (hen : F.TDX_MAP_EN.id ∉ ids := by decide)
    (hsw : F.TDX_MAP_SWAP.id ∉ ids := by decide) : SameEntry s t k := ⟨h.rd _ _ hen, h.rd _ _ hsw⟩

/-- Steps of a handover over entries with EN = e and SWAP = 1: each clears its own SWAP, and leaves in EN what `new` says. -/
def SwapStep (f : State → Nat → State) (e : Nat) (new : Nat → Prop) : Prop :=
  ∀ u k, u.rd F.TDX_MAP_EN k = e → u.rd F.TDX_MAP_SWAP k = 1 →
    (f u k).rd F.TDX_MAP_SWAP k = 0 ∧ new ((f u k).rd F.TDX_MAP_EN k) ∧ ∀ j, j ≠ k → SameEntry u (f u k) j

theorem SwapStep.over {f : State → Nat → State} {e : Nat} {new : Nat → Prop} (hf : SwapStep f e new) (l : List Nat) (hl : l.Nodup) (u : State)
    (hu : ∀ k ∈ l, u.rd F.TDX_MAP_EN k = e ∧ u.rd F.TDX_MAP_SWAP k = 1) (j : Nat) :
    (j ∈ l → (u.over l f).rd F.TDX_MAP_SWAP j = 0 ∧ new ((u.over l f).rd F.TDX_MAP_EN j)) ∧ (j ∉ l → SameEntry u (u.over l f) j) := by
  induction l generalizing u with
  | nil => exact ⟨fun h => (List.not_mem_nil h).elim, fun _ => ⟨rfl, rfl⟩⟩
  | cons k r ih =>
    obtain ⟨hk, hr⟩ := List.nodup_cons.mp hl
    obtain ⟨hen, hsw⟩ := hu k (.head _)
    obtain ⟨hsw', hen', hother⟩ := hf u k hen hsw
    have hnext : ∀ i ∈ r, (f u k).rd F.TDX_MAP_EN i = e ∧ (f u k).rd F.TDX_MAP_SWAP i = 1 := fun i hi => by
      obtain ⟨he, hs⟩ := hother i fun h => hk (h ▸ hi)
      exact ⟨he.trans (hu i (.tail _ hi)).1, hs.trans (hu i (.tail _ hi)).2⟩
    obtain ⟨hin, hout⟩ := ih hr (f u k) hnext
    show (j ∈ k :: r → (State.over (f u k) r f).rd _ j = 0 ∧ new ((State.over (f u k) r f).rd _ j)) ∧ (j ∉ k :: r → SameEntry u (State.over (f u k) r f) j)
    refine ⟨fun hj => ?_, fun hj => ?_⟩
    · rcases List.mem_cons.mp hj with rfl | hj
      · obtain ⟨he, hs⟩ := hout hk
        exact ⟨hs.trans hsw', he.symm ▸ hen'⟩
      · exact hin hj
    · obtain ⟨hne, hjr⟩ := not_or.mp (mt List.mem_cons.mpr hj)
      exact (hother j hne).trans (hout hjr)

theorem setMap_entry (s : State) (k v j : Nat) (h : j ≠ k) : SameEntry s (setMap s k v) j :=
  ⟨(setMap_en s k v j).trans (if_neg h.symm), (setMap_swap s k v j).trans (if_neg h.symm)⟩

/-- An enabled entry is disabled. -/
def disableEntry (s : State) (k : Nat) : State := setMap s k (tdxMapWord s k - 2 ^ 31 - 2 ^ 24)

/-- A disabled entry is enabled where R430 allows it. -/
def enableEntry (s : State) (k : Nat) : State :=
  if mapRefused s k (tdxMapWord s k + 2 ^ 31 - 2 ^ 24) then mapRefuse (setMap s k (tdxMapWord s k + 2 ^ 31 - 2 ^ 24 - 2 ^ 31))
  else setMap s k (tdxMapWord s k + 2 ^ 31 - 2 ^ 24)

theorem disableEntry_step : SwapStep disableEntry 1 (· = 0) := by
  intro u k hen hsw
  obtain ⟨h31, h24⟩ := disabled_word hen hsw
  exact ⟨(setMap_swap _ _ _ _).trans (by rw [if_pos rfl, h24]), (setMap_en _ _ _ _).trans (by rw [if_pos rfl, h31]), fun j => setMap_entry _ _ _ j⟩

theorem enableEntry_step : SwapStep enableEntry 0 fun _ => True := by
  intro u k hen hsw
  unfold enableEntry
  split
  · have hr := fun j => (mapRefuse_tables (setMap u k (tdxMapWord u k + 2 ^ 31 - 2 ^ 24 - 2 ^ 31))).entry j
    refine ⟨(hr k).2.trans ((setMap_swap _ _ _ _).trans ?_), trivial, fun j hj => (setMap_entry _ _ _ j hj).trans (hr j)⟩
    rw [if_pos rfl, refused_word hen hsw]
  · refine ⟨(setMap_swap _ _ _ _).trans ?_, trivial, fun j => setMap_entry _ _ _ j⟩
    rw [if_pos rfl, (enabled_word hen hsw).2]

theorem enableEntry_tables (s : State) (k : Nat) : SameTables s (enableEntry s k) mapIds := by
  unfold enableEntry
  split
  · exact (setMap_tables _ _ _).trans ((mapRefuse_tables _).mono (by decide))
  · exact setMap_tables _ _ _

/-- The entries with SWAP = 1. -/
def swapPlaces (s : State) : List Nat := (mapPlaces s).filter fun k => s.on F.TDX_MAP_SWAP k

/-- The state after the entries to disable. -/
def disabledPass (s : State) : State := s.over ((swapPlaces s).filter fun k => s.on F.TDX_MAP_EN k) disableEntry

/-- The state after the entries to enable. -/
def enabledPass (s : State) : State := (disabledPass s).over ((swapPlaces s).filter fun k => (disabledPass s).on F.TDX_MAP_SWAP k) enableEntry

/-- The cells of an ended handover. -/
def swapDone (s : State) : List (Fld × Nat × Nat) :=
  [(F.TDX_SWAPCMD_ARM, 0, 0), (F.TDX_SWAPCMD_DONE, 0, 1), (F.TDX_IRQSTAT_SWAPDONE, 0, 1)] ++
    (if s.rd I.tdxLate = 1 then [(F.TDX_SWAPCMD_LATE, 0, 1)] else []) ++ [(I.tdxLate, 0, 0)]

theorem passes_tables (s : State) : SameTables s (enabledPass s) mapIds :=
  (tables_over (.refl _ _) _ _ fun u k => setMap_tables u k _).trans (tables_over (.refl _ _) _ _ enableEntry_tables)

/-- A handover's entries are done, and no handover is armed. -/
def swapEnded (s : State) : State := puts s [(F.TDX_SWAPCMD_ARM, 0, 0), (F.TDX_SWAPCMD_DONE, 0, 1), (F.TDX_IRQSTAT_SWAPDONE, 0, 1)]

theorem handover_eq (s : State) : handover s = puts (enabledPass s) (swapDone s) := by
  have hlate : (swapEnded (enabledPass s)).on I.tdxLate = decide (s.rd I.tdxLate = 1) := by
    unfold swapEnded
    rw [on_flag _ 0 (f := I.tdxLate) rfl, puts_rd_other [F.TDX_SWAPCMD_ARM, F.TDX_SWAPCMD_DONE, F.TDX_IRQSTAT_SWAPDONE] I.tdxLate 0 (by decide),
      (passes_tables s).rd _ _ (by decide)]
  have hdef : handover s = State.set (if (swapEnded (enabledPass s)).on I.tdxLate = true then (swapEnded (enabledPass s)).set F.TDX_SWAPCMD_LATE 1
      else swapEnded (enabledPass s)) I.tdxLate 0 := rfl
  unfold swapDone
  rw [hdef, hlate, puts_append, puts_append]
  generalize enabledPass s = u
  by_cases h : s.rd I.tdxLate = 1
  · rw [decide_eq_true h, if_pos rfl, if_pos h]
    rfl
  · rw [decide_eq_false h, if_neg Bool.false_ne_true, if_neg h]
    rfl

section
variable {s : State}

theorem swapPlaces_mem {k : Nat} : k ∈ swapPlaces s ↔ s.rd F.TDX_MAP_SWAP k = 1 := by
  unfold swapPlaces
  rw [List.mem_filter, on_flag s k (f := F.TDX_MAP_SWAP) rfl, decide_eq_true_iff]
  exact ⟨And.right, fun h => ⟨swap_listed h, h⟩⟩

theorem swapPlaces_nodup : (swapPlaces s).Nodup := (nodup_eraseDups _).filter _

theorem disabledPass_entry (j : Nat) :
    (s.rd F.TDX_MAP_SWAP j = 1 → s.rd F.TDX_MAP_EN j = 1 → (disabledPass s).rd F.TDX_MAP_SWAP j = 0 ∧ (disabledPass s).rd F.TDX_MAP_EN j = 0) ∧
      (¬ (s.rd F.TDX_MAP_SWAP j = 1 ∧ s.rd F.TDX_MAP_EN j = 1) → SameEntry s (disabledPass s) j) := by
  have hmem : ∀ k, k ∈ (swapPlaces s).filter (fun k => s.on F.TDX_MAP_EN k) ↔ s.rd F.TDX_MAP_SWAP k = 1 ∧ s.rd F.TDX_MAP_EN k = 1 := by
    intro k
    rw [List.mem_filter, swapPlaces_mem, on_flag s k (f := F.TDX_MAP_EN) rfl, decide_eq_true_iff]
  obtain ⟨hin, hout⟩ := disableEntry_step.over _ (swapPlaces_nodup.filter _) s (fun k hk => ((hmem k).mp hk).symm) j
  exact ⟨fun hs he => hin ((hmem j).mpr ⟨hs, he⟩), fun h => hout (mt (hmem j).mp h)⟩

theorem enabledPass_entry (j : Nat) :
    ((disabledPass s).rd F.TDX_MAP_SWAP j = 1 → s.rd F.TDX_MAP_SWAP j = 1 → (enabledPass s).rd F.TDX_MAP_SWAP j = 0) ∧
      (¬ ((disabledPass s).rd F.TDX_MAP_SWAP j = 1 ∧ s.rd F.TDX_MAP_SWAP j = 1) → SameEntry (disabledPass s) (enabledPass s) j) := by
  have hmem : ∀ k, k ∈ (swapPlaces s).filter (fun k => (disabledPass s).on F.TDX_MAP_SWAP k) ↔
      s.rd F.TDX_MAP_SWAP k = 1 ∧ (disabledPass s).rd F.TDX_MAP_SWAP k = 1 := by
    intro k
    rw [List.mem_filter, swapPlaces_mem, on_flag _ k (f := F.TDX_MAP_SWAP) rfl, decide_eq_true_iff]
  have hleft : ∀ k, s.rd F.TDX_MAP_SWAP k = 1 ∧ (disabledPass s).rd F.TDX_MAP_SWAP k = 1 →
      (disabledPass s).rd F.TDX_MAP_EN k = 0 ∧ (disabledPass s).rd F.TDX_MAP_SWAP k = 1 := by
    intro k ⟨hs, hd⟩
    obtain ⟨hin, hout⟩ := disabledPass_entry (s := s) k
    rcases flag_cases s k (f := F.TDX_MAP_EN) rfl with he | he
    · exact ⟨(hout fun h => by omega).1.trans he, hd⟩
    · exact absurd ((hin hs he).1.symm.trans hd) (by decide)
  obtain ⟨hin, hout⟩ := enableEntry_step.over _ (swapPlaces_nodup.filter _) (disabledPass s) (fun k hk => hleft k ((hmem k).mp hk)) j
  exact ⟨fun hd hs => (hin ((hmem j).mpr ⟨hs, hd⟩)).1, fun h => hout fun hm => h ((hmem j).mp hm).symm⟩

/-- An entry without SWAP keeps its EN. -/
theorem passes_keep {j : Nat} (h : s.rd F.TDX_MAP_SWAP j = 0) : (enabledPass s).rd F.TDX_MAP_EN j = s.rd F.TDX_MAP_EN j :=
  (((disabledPass_entry j).2 fun hh => by omega).trans ((enabledPass_entry j).2 fun hh => by omega)).1

/-- An entry with SWAP loses it, and is disabled if it was enabled. -/
theorem passes_swap {j : Nat} (h : s.rd F.TDX_MAP_SWAP j = 1) :
    (enabledPass s).rd F.TDX_MAP_SWAP j = 0 ∧ (s.rd F.TDX_MAP_EN j = 1 → (enabledPass s).rd F.TDX_MAP_EN j = 0) := by
  rcases flag_cases s j (f := F.TDX_MAP_EN) rfl with he | he
  · have hd := ((disabledPass_entry (s := s) j).2 fun hh => by omega).2.trans h
    exact ⟨(enabledPass_entry j).1 hd h, fun hh => by omega⟩
  · obtain ⟨hs', he'⟩ := (disabledPass_entry (s := s) j).1 h he
    obtain ⟨hen, hsw⟩ := (enabledPass_entry (s := s) j).2 fun hh => by omega
    exact ⟨hsw.trans hs', fun _ => hen.trans he'⟩

/-- The one disabled entry with SWAP is enabled where R430 does not refuse it. -/
theorem passes_enable {k : Nat} (hk : mapPlaces s = [k]) (hsw : s.rd F.TDX_MAP_SWAP k = 1) (hen : s.rd F.TDX_MAP_EN k = 0)
    (hr : mapRefused s k (tdxMapWord s k + 2 ^ 31 - 2 ^ 24) = false) : (enabledPass s).rd F.TDX_MAP_EN k = 1 := by
  have hp : swapPlaces s = [k] := by
    unfold swapPlaces
    rw [hk, List.filter_cons, on_of_one hsw]
    rfl
  have hd : disabledPass s = s := by
    unfold disabledPass
    rw [hp, List.filter_cons, on_of_zero hen]
    rfl
  unfold enabledPass
  rw [hd, hp, List.filter_cons, on_of_one hsw]
  show (enableEntry s k).rd F.TDX_MAP_EN k = 1
  unfold enableEntry
  rw [hr, if_neg Bool.false_ne_true, setMap_en, if_pos rfl, (enabled_word hen hsw).1]
end

end Sys2Proof.Machine
end

section
/-! PROOFS.  TDM highways: the frame at which a handover is applied (O52). -/

namespace Sys2Proof.Machine

open Safety

set_option Elab.async false

/-! ### What the parts of a frame leave of the tables -/

theorem receiveFrame_tables (s : State) (g : Nat) (rx : List (BitVec 15 × Byte)) : SameTables s (receiveFrame s g rx) [I.tdxHist.id] :=
  tables_over (.refl _ _) _ _ fun _ _ => tables_over (.refl _ _) _ _ fun v _ => (SameTables.refl v _).wr (.head _)

theorem storeFrame_tables (s : State) : SameTables s (storeFrame s) [I.linkV.id, I.txWr.id, I.txWrC.id] :=
  tables_over (.refl _ _) _ _ fun _ _ => tables_over (.refl _ _) _ _ fun v _ => physWrite_tables v _ _

theorem mapForce_tables (s : State) (g : Nat) : SameTables s (mapForce s g) [I.tdxForce.id, I.tdxSend.id] := by
  refine tables_over (.refl _ _) _ _ fun u k => ?_
  dsimp only
  generalize (if u.on F.TDX_MAP_EN k then putBit (tdxMapWord u k) 24 false else 0) = w
  split
  · exact .refl _ _
  · exact ((SameTables.refl _ _).wr (.head _)).wr (.tail _ (.head _))

theorem driveFrame_tables (s : State) (g : Nat) : SameTables s (driveFrame s g) [I.tdxOut.id] := by
  have hidle : SameTables s (s.over ((s.nonzero I.tdxOut).filter fun k => hwGroup s (k / 256) == g) fun s k => s.wr I.tdxOut k 0) [I.tdxOut.id] :=
    tables_over (.refl _ _) _ _ fun u _ => (SameTables.refl u _).wr (.head _)
  unfold driveFrame
  dsimp only
  split
  · exact hidle
  · exact tables_over hidle _ _ fun _ _ => tables_over (.refl _ _) _ _ fun v _ => (SameTables.refl v _).wr (.head _)

theorem keepSources_tables (s : State) : SameTables s (keepSources s) [I.tdxXc.id] :=
  tables_over (.refl _ _) _ _ fun u _ => (SameTables.refl u _).wr (.head _)

/-- The stores of the other groups each give a frame. -/
theorem storesGive_tables (s : State) (ref : Nat) :
    SameTables s (s.over (List.range 4) fun s g => if g != ref && s.on I.tdxFill g then s.wr I.tdxFill g (s.rd I.tdxFill g - 1) else s) [I.tdxFill.id] := by
  refine tables_over (.refl _ _) _ _ fun u g => ?_
  split
  · exact (SameTables.refl u _).wr (.head _)
  · exact .refl _ _

/-! ### The pulse up to the handover -/

/-- The clocks as a pulse finds them, and the return to the A clocks. -/
def pulsed (s : State) (g : Nat) : State :=
  if (decide (g = 0) && (clocksOk (setLoss s g false) g true).on I.clkRet) = true then
    ((clocksOk (setLoss s g false) g true).set F.TDX_CTRL_CLKSEL 0).set I.clkRet 0
  else clocksOk (setLoss s g false) g true

/-- The fields a pulse changes up to its handover. -/
def beforeIds : List Nat := [F.TDX_CG_STAT_LOSS, F.TDX_CG_STAT_LOSSCHG, F.TDX_IRQSTAT_CLKLOSS, F.TDX_STAT_AOK, F.TDX_STAT_BOK, F.TDX_CTRL_CLKSEL, I.clkRet,
  I.tdxHist, I.linkV, I.txWr, I.txWrC, I.tdxFrmNs].map Fld.id

theorem setLoss_tables (s : State) (g : Nat) (b : Bool) : SameTables s (setLoss s g b) beforeIds := by
  unfold setLoss
  split
  · exact .refl _ _
  · exact (((SameTables.refl _ _).wr (by decide)).wr (by decide)).wr (by decide)

theorem clocksOk_tables (s : State) (g : Nat) (b : Bool) : SameTables s (clocksOk s g b) beforeIds :=
  match g with
  | 0 => (SameTables.refl _ _).wr (f := F.TDX_STAT_AOK) (by decide)
  | 1 => (SameTables.refl _ _).wr (f := F.TDX_STAT_BOK) (by decide)
  | _ + 2 => .refl _ _

theorem pulsed_tables (s : State) (g : Nat) : SameTables s (pulsed s g) beforeIds := by
  have hok : SameTables s (clocksOk (setLoss s g false) g true) beforeIds := (setLoss_tables _ _ _).trans (clocksOk_tables _ _ _)
  unfold pulsed
  split
  · exact (hok.wr (f := F.TDX_CTRL_CLKSEL) (by decide)).wr (f := I.clkRet) (by decide)
  · exact hok

section
variable {s : State} {g : Nat} {rx : List (BitVec 15 × Byte)}

theorem framePulse_h110 (h : tdxH110 s = false) : framePulse s g rx = groupFrame (pulsed s g) g rx := by
  have hp : tdxH110 (pulsed s g) = false := by
    unfold tdxH110 at h ⊢
    rw [State.on_eq] at h ⊢
    rw [(pulsed_tables s g).rd _ _ (by decide)]
    exact h
  show (match pulseGroup (pulsed s g) g with
    | some k => groupFrame (pulsed s g) k rx
    | none => pulsed s g) = _
  unfold pulseGroup
  rw [hp]
  rfl

/-- The state at the handover of a reference frame. -/
def atHandover (s : State) (g : Nat) (rx : List (BitVec 15 × Byte)) : State :=
  (storeFrame (receiveFrame (pulsed s g) g rx)).set I.tdxFrmNs ((storeFrame (receiveFrame (pulsed s g) g rx)).rd F.TMU_TB_NS_NS 0)

theorem atHandover_tables : SameTables s (atHandover s g rx) beforeIds :=
  (((pulsed_tables s g).trans ((receiveFrame_tables _ _ _).mono (by decide))).trans ((storeFrame_tables _).mono (by decide))).wr (f := I.tdxFrmNs) (by decide)

/-- A handover's due time does not depend on what a pulse changes before it. -/
theorem SameTables.due {t : State} (h : SameTables s t beforeIds) : handoverDue t = handoverDue s := by
  unfold handoverDue
  simp only [State.on_eq]
  simp (disch := decide) only [h.rd _ _]

/-! ### The frame after the handover -/

/-- The fields a frame changes after its handover. -/
def afterIds : List Nat := [I.tdxForce, I.tdxSend, F.TDX_FRAME_FRAME, I.tdxOut, I.tdxXc, I.tdxFill].map Fld.id

/-- The frame that begins after a handover. -/
def frameAfter (s : State) (next : Nat) : State :=
  (keepSources (driveFrame ((mapForce s (s.rd F.TDX_CTRL_REFGRP)).set F.TDX_FRAME_FRAME next) (s.rd F.TDX_CTRL_REFGRP))).over (List.range 4)
    fun u g => if g != s.rd F.TDX_CTRL_REFGRP && u.on I.tdxFill g then u.wr I.tdxFill g (u.rd I.tdxFill g - 1) else u

theorem frameAfter_tables (s : State) (next : Nat) : SameTables s (frameAfter s next) afterIds :=
  (((((mapForce_tables _ _).mono (by decide)).wr (f := F.TDX_FRAME_FRAME) (by decide)).trans ((driveFrame_tables _ _).mono (by decide))).trans
    ((keepSources_tables _).mono (by decide))).trans ((storesGive_tables _ _).mono (by decide))

theorem frameAfter_frame (s : State) {next : Nat} (h : next < 16) : (frameAfter s next).rd F.TDX_FRAME_FRAME = next := by
  have hlater := ((driveFrame_tables ((mapForce s (s.rd F.TDX_CTRL_REFGRP)).set F.TDX_FRAME_FRAME next) (s.rd F.TDX_CTRL_REFGRP)).mono
    (m := [I.tdxOut, I.tdxXc, I.tdxFill].map Fld.id) (by decide)).trans (((keepSources_tables _).mono (by decide)).trans
    ((storesGive_tables _ (s.rd F.TDX_CTRL_REFGRP)).mono (by decide)))
  refine (hlater.rd F.TDX_FRAME_FRAME 0 (by decide)).trans ?_
  rw [State.set_eq_wr, State.rd_wr_same]
  exact Nat.mod_eq_of_lt h

theorem refBoundary_handover {x : State} {next : Nat} (hn : next ≠ 0) (hd : handoverDue (x.set I.tdxFrmNs (x.rd F.TMU_TB_NS_NS 0)) = true) :
    refBoundary x next = frameAfter (handover (x.set I.tdxFrmNs (x.rd F.TMU_TB_NS_NS 0))) next := by
  unfold refBoundary
  dsimp only
  rw [if_pos hd, if_neg hn]
  rfl

/-- The pulse at which an armed handover is due. -/
theorem handoverApply_eq (hd : handoverDue s = true) (h : tdxH110 s = false) (hon : groupOn s (s.rd F.TDX_CTRL_REFGRP) = true)
    (hf : s.rd F.TDX_FRAME_FRAME < 15) :
    exec (.handoverApply rx) s = .next (frameAfter (handover (atHandover s (s.rd F.TDX_CTRL_REFGRP) rx)) (s.rd F.TDX_FRAME_FRAME + 1)) := by
  have hrecv := (pulsed_tables s (s.rd F.TDX_CTRL_REFGRP)).trans ((receiveFrame_tables _ (s.rd F.TDX_CTRL_REFGRP) rx).mono (by decide))
  refine (if_pos hd).trans (congrArg _ ?_)
  rw [refPulse_plain h, tdxPulse_taken hon (.inl rfl), framePulse_h110 h]
  unfold groupFrame
  dsimp only
  rw [hrecv.rd F.TDX_CTRL_REFGRP 0 (by decide), if_pos rfl, hrecv.rd F.TDX_FRAME_FRAME 0 (by decide), Nat.mod_eq_of_lt (by omega)]
  exact refBoundary_handover (by omega) ((atHandover_tables (g := s.rd F.TDX_CTRL_REFGRP) (rx := rx)).due.trans hd)

theorem handoverApply_no (hd : handoverDue s = false) : exec (.handoverApply rx) s = .next s := if_neg (by rw [hd]; decide)

/-- Refusal of an entry does not depend on what a pulse changes before its handover. -/
theorem SameTables.refused {t : State} (h : SameTables s t beforeIds) (k v : Nat) :
    mapPlaces t = mapPlaces s ∧ tdxMapWord t k = tdxMapWord s k ∧ mapRefused t k v = mapRefused s k v := by
  have hp : mapPlaces t = mapPlaces s := by
    unfold mapPlaces
    rw [h.nonzero _ (by decide), h.nonzero _ (by decide), h.nonzero _ (by decide)]
  have hw : ∀ j, tdxMapWord t j = tdxMapWord s j := fun j => by
    unfold tdxMapWord
    simp (disch := decide) only [h.rd _ _]
  refine ⟨hp, hw k, ?_⟩
  unfold mapRefused
  rw [hp, h.rd F.TDX_USECNT_CHAN 0 (by decide), h.rd F.TDX_USECNT_XC 0 (by decide)]
  simp only [hw]

end

/-! ### The handover as the frame leaves it -/

section
variable {s : State} {rx : List (BitVec 15 × Byte)}

/-- A handover leaves the tables that its frame writes, and the frame those of the handover. -/
theorem afterHandover_rd (u : State) {next : Nat} (q : Fld) (j : Nat) (hq : q.id ∉ afterIds) :
    (frameAfter (handover u) next).rd q j = (puts (enabledPass u) (swapDone u)).rd q j := by
  rw [← handover_eq]
  exact (frameAfter_tables _ _).rd q j hq

theorem swapDone_fields (u : State) : ∀ p ∈ swapDone u,
    p.1 ∈ [F.TDX_SWAPCMD_ARM, F.TDX_SWAPCMD_DONE, F.TDX_IRQSTAT_SWAPDONE, F.TDX_SWAPCMD_LATE, I.tdxLate] := by
  intro p hp
  unfold swapDone at hp
  by_cases h : u.rd I.tdxLate = 1
  · rw [if_pos h] at hp
    simp only [List.cons_append, List.nil_append, List.mem_cons, List.not_mem_nil, or_false] at hp
    rcases hp with rfl | rfl | rfl | rfl | rfl <;> simp
  · rw [if_neg h] at hp
    simp only [List.cons_append, List.nil_append, List.append_nil, List.mem_cons, List.not_mem_nil, or_false] at hp
    rcases hp with rfl | rfl | rfl | rfl <;> simp

/-- What an ended handover says of itself. -/
theorem swapDone_says (u w : State) : (puts w (swapDone u)).rd F.TDX_SWAPCMD_ARM = 0 ∧ (puts w (swapDone u)).rd F.TDX_SWAPCMD_DONE = 1 ∧
    (puts w (swapDone u)).rd F.TDX_IRQSTAT_SWAPDONE = 1 ∧ (u.rd I.tdxLate = 1 → (puts w (swapDone u)).rd F.TDX_SWAPCMD_LATE = 1) := by
  unfold swapDone
  by_cases h : u.rd I.tdxLate = 1
  · rw [if_pos h]
    refine ⟨?_, ?_, ?_, fun _ => ?_⟩ <;>
      simp (disch := decide) only [List.cons_append, List.nil_append, puts_cons, puts_nil, State.rd_wr_cell, State.rd_wr_same] <;> rfl
  · rw [if_neg h]
    refine ⟨?_, ?_, ?_, fun hh => absurd hh h⟩ <;>
      simp (disch := decide) only [List.cons_append, List.nil_append, puts_cons, puts_nil, State.rd_wr_cell, State.rd_wr_same] <;> rfl

/-- EN and SWAP of an entry after the frame are those after the passes of the handover. -/
theorem afterHandover_entry (u : State) {next : Nat} (k : Nat) : SameEntry (enabledPass u) (frameAfter (handover u) next) k := by
  have hfree : ∀ q : Fld, (∀ f ∈ [F.TDX_SWAPCMD_ARM, F.TDX_SWAPCMD_DONE, F.TDX_IRQSTAT_SWAPDONE, F.TDX_SWAPCMD_LATE, I.tdxLate], f.id ≠ q.id) →
      (puts (enabledPass u) (swapDone u)).rd q k = (enabledPass u).rd q k := fun q hq => puts_cell _ _ _ _ fun p hp => hq _ (swapDone_fields u p hp)
  exact ⟨(afterHandover_rd u _ _ (by decide)).trans (hfree _ (by decide)), (afterHandover_rd u _ _ (by decide)).trans (hfree _ (by decide))⟩

/-- An armed handover at its frame. -/
theorem handoverApply_says (hd : handoverDue s = true) (h : tdxH110 s = false) (hon : groupOn s (s.rd F.TDX_CTRL_REFGRP) = true)
    (hf : s.rd F.TDX_FRAME_FRAME < 15) :
    Does (.handoverApply rx) s fun t => t.rd F.TDX_SWAPCMD_ARM = 0 ∧ t.rd F.TDX_SWAPCMD_DONE = 1 ∧ t.rd F.TDX_IRQSTAT_SWAPDONE = 1 ∧
      t.rd F.TDX_FRAME_FRAME = s.rd F.TDX_FRAME_FRAME + 1 ∧ (s.rd I.tdxLate = 1 → t.rd F.TDX_SWAPCMD_LATE = 1) ∧
      (∀ k, s.rd F.TDX_MAP_SWAP k = 0 → t.rd F.TDX_MAP_EN k = s.rd F.TDX_MAP_EN k) ∧
      (∀ k, s.rd F.TDX_MAP_SWAP k = 1 → t.rd F.TDX_MAP_SWAP k = 0 ∧ (s.rd F.TDX_MAP_EN k = 1 → t.rd F.TDX_MAP_EN k = 0)) ∧
      (∀ k, mapPlaces s = [k] → s.rd F.TDX_MAP_SWAP k = 1 → s.rd F.TDX_MAP_EN k = 0 →
        mapRefused s k (tdxMapWord s k + 2 ^ 31 - 2 ^ 24) = false → t.rd F.TDX_MAP_EN k = 1) := by
  refine Does.of_next (handoverApply_eq hd h hon hf) ?_
  have hu := atHandover_tables (s := s) (g := s.rd F.TDX_CTRL_REFGRP) (rx := rx)
  generalize atHandover s (s.rd F.TDX_CTRL_REFGRP) rx = u at hu
  have hentry := fun k => afterHandover_entry u (next := s.rd F.TDX_FRAME_FRAME + 1) k
  have hsame := fun k => hu.entry k
  obtain ⟨harm, hdone, hirq, hlate⟩ := swapDone_says u (enabledPass u)
  refine ⟨(afterHandover_rd u _ _ (by decide)).trans harm, (afterHandover_rd u _ _ (by decide)).trans hdone,
    (afterHandover_rd u _ _ (by decide)).trans hirq, frameAfter_frame _ (by omega), fun hl => (afterHandover_rd u _ _ (by decide)).trans (hlate ?_),
    fun k hk => ?_, fun k hk => ?_, fun k hp hsw hen hr => ?_⟩
  · exact (hu.rd _ _ (by decide)).trans hl
  · exact (hentry k).1.trans ((passes_keep ((hsame k).2.trans hk)).trans (hsame k).1)
  · obtain ⟨hs, he⟩ := passes_swap ((hsame k).2.trans hk)
    exact ⟨(hentry k).2.trans hs, fun h1 => (hentry k).1.trans (he ((hsame k).1.trans h1))⟩
  · obtain ⟨hplaces, hword, hrefused⟩ := hu.refused k (tdxMapWord u k + 2 ^ 31 - 2 ^ 24)
    refine (hentry k).1.trans (passes_enable (hplaces.trans hp) ((hsame k).2.trans hsw) ((hsame k).1.trans hen) ?_)
    rw [hrefused, hword]
    exact hr
end

/-- Settles O52: the highways, each clause from the lemma of its case. -/
theorem highwaysFrameClockMapAndHandOver : Obligations.HighwaysFrameClockMapAndHandOver := by
  unfold Obligations.HighwaysFrameClockMapAndHandOver
  refine ⟨fun s h110 hret hroom => ⟨fun g kind rx => ⟨fun hoff => pulse_next (tdxPulse_off hoff kind), fun hon => ⟨?_, pulse_absent_slave h110 hroom hon, ?_, ?_⟩⟩,
    fun rx => ⟨blockBoundary_no, ?_⟩, fun g => ⟨clockLoss_no, clockLoss_says h110⟩, fun g slow => ⟨slip_no, slip_fast hroom, slip_slow hroom⟩⟩,
    fun s hroom => ⟨fun ini k v hf => ⟨mapWrite_refused hf hroom, mapWrite_stored hf, (clksel_says hf).trans (congrArg _ (clkCtrl_says s _)), ?_⟩,
      ⟨h110Failover_no, h110Failover_says hroom⟩, fun rx => ⟨handoverApply_no, handoverApply_says⟩⟩⟩
  · rintro hm rfl
    exact pulse_next (tdxPulse_absent_master hon hm)
  · intro hloss hb _ hc
    exact ⟨pulse_bare ⟨h110, hret, hloss⟩ hon hb hc, pulse_late ⟨h110, hret, hloss⟩ hroom hon hb hc⟩
  · intro e w hloss hk hone hd hu hw h24 h31 hf
    exact pulse_slot ⟨h110, hret, hloss⟩ hon hk hone hd hu hw h24 h31 hf
  · intro hf hon hloss hb hc
    exact blockBoundary_last ⟨h110, hret, hloss⟩ hf hon hb hc
  · refine (arm_says hf).trans ((congrArg _ (swap_says s _)).trans ?_)
    simp only [b2n, decide_eq_true_eq]

end Sys2Proof.Machine
end

section
/-! PROOFS.  The health monitor: resets, inputs, exciters, gains and outputs (O53). -/

namespace Sys2Proof.Machine

open Safety

set_option Elab.async false

/-! ### The throttle request -/

section
variable {s : State}

/-- The conditions that may throttle, each with its action. -/
def throttleFields : List (Fld × Fld) :=
  [(F.HMN_SNS_STAT_HIACT, F.HMN_SNS_THRCFG_ACTHI), (F.HMN_SNS_STAT_LOACT, F.HMN_SNS_THRCFG_ACTLO), (F.HMN_SLC_STAT_OVER, F.HMN_SLC_CCFG_OVACT),
    (F.HMN_SLC_STAT_UNDER, F.HMN_SLC_CCFG_UNACT)]

/-- A condition holds and its action is THROTTLE. -/
def throttleTerm (s : State) (p : Fld × Fld) (n : Nat) : Bool := s.on p.1 n && s.rd p.2 n == 2

theorem hmThrottles_terms (s : State) : hmThrottles s =
    (((List.range 16).any fun n => throttleTerm s (F.HMN_SNS_STAT_HIACT, F.HMN_SNS_THRCFG_ACTHI) n ||
        throttleTerm s (F.HMN_SNS_STAT_LOACT, F.HMN_SNS_THRCFG_ACTLO) n) ||
      (List.range 4).any fun k => throttleTerm s (F.HMN_SLC_STAT_OVER, F.HMN_SLC_CCFG_OVACT) k ||
        throttleTerm s (F.HMN_SLC_STAT_UNDER, F.HMN_SLC_CCFG_UNACT) k) := rfl

theorem throttleFields_apart : ∀ p ∈ throttleFields, ∀ q ∈ throttleFields, p.1.id ≠ q.2.id ∧ (q = p ∨ p.1.id ≠ q.1.id) := by decide

theorem throttleTerm_wr {p : Fld × Fld} (hp : p ∈ throttleFields) {i : Nat} (h : s.rd p.2 i ≠ 2) (v : Nat) {q : Fld × Fld} (hq : q ∈ throttleFields) (n : Nat) :
    throttleTerm (s.wr p.1 i v) q n = throttleTerm s q n := by
  obtain ⟨hact, hcond⟩ := throttleFields_apart p hp q hq
  unfold throttleTerm
  rw [State.rd_wr_cell _ _ _ _ _ _ hact]
  rcases hcond with rfl | hcond
  · by_cases hi : i = n
    · subst hi
      rw [beq_eq_false_iff_ne.mpr h, Bool.and_false, Bool.and_false]
    · rw [State.on_eq, State.on_eq, State.rd_wr_inst _ _ _ _ _ hi]
  · rw [State.on_eq, State.on_eq, State.rd_wr_cell _ _ _ _ _ _ hcond]

theorem hmThrottles_act {p : Fld × Fld} (hp : p ∈ throttleFields) {i : Nat} (h : s.rd p.2 i ≠ 2) (v : Nat) : hmThrottles (s.wr p.1 i v) = hmThrottles s := by
  have hterm := fun {q} (hq : q ∈ throttleFields) n => throttleTerm_wr hp h v hq n
  rw [hmThrottles_terms, hmThrottles_terms]
  simp only [hterm (List.mem_cons_self : (F.HMN_SNS_STAT_HIACT, F.HMN_SNS_THRCFG_ACTHI) ∈ throttleFields),
    hterm (by decide : (F.HMN_SNS_STAT_LOACT, F.HMN_SNS_THRCFG_ACTLO) ∈ throttleFields),
    hterm (by decide : (F.HMN_SLC_STAT_OVER, F.HMN_SLC_CCFG_OVACT) ∈ throttleFields),
    hterm (by decide : (F.HMN_SLC_STAT_UNDER, F.HMN_SLC_CCFG_UNACT) ∈ throttleFields)]

/-- The throttle request of HMN follows its conditions, outside WATCH. -/
structure HmCalm (s : State) : Prop where
  request : bitOf (s.rd I.throtSrc) 2 = hmThrottles s
  mode : s.mode ≠ mWATCH

/-- The fields that the throttle request and the mode depend on. -/
def calmIds : List Nat := (I.throtSrc :: F.PMU_MODE_CURRENT :: (throttleFields.map (·.1) ++ throttleFields.map (·.2))).map Fld.id

theorem HmCalm.wr (h : HmCalm s) (f : Fld) (i v : Nat) (hf : f.id ∉ calmIds := by decide) : HmCalm (s.wr f i v) := by
  have hne : ∀ q : Fld, q.id ∈ calmIds → f.id ≠ q.id := fun q hq hh => hf (hh ▸ hq)
  refine ⟨?_, ?_⟩
  · rw [State.rd_wr_cell _ _ _ _ _ _ (hne I.throtSrc (by decide)), h.request,
      hmThrottles_cell _ _ _ _ fun q hq => hne q (List.mem_map_of_mem (f := Fld.id) (List.mem_cons_of_mem _ (List.mem_cons_of_mem _ ?_)))]
    revert hq
    unfold throttleFields
    simp only [List.map_cons, List.map_nil, List.cons_append, List.nil_append, List.mem_cons, List.not_mem_nil, or_false]
    tauto
  · unfold State.mode
    rw [State.rd_wr_cell _ _ _ _ _ _ (hne F.PMU_MODE_CURRENT (by decide))]
    exact h.mode

theorem throttleFields_free : ∀ p ∈ throttleFields, p.1.id ≠ I.throtSrc.id ∧ p.1.id ≠ F.PMU_MODE_CURRENT.id := by decide

theorem HmCalm.wrAct (h : HmCalm s) {p : Fld × Fld} (hp : p ∈ throttleFields) {i : Nat} (ha : s.rd p.2 i ≠ 2) (v : Nat) : HmCalm (s.wr p.1 i v) := by
  obtain ⟨hsrc, hmode⟩ := throttleFields_free p hp
  refine ⟨?_, ?_⟩
  · rw [State.rd_wr_cell _ _ _ _ _ _ hsrc, h.request, hmThrottles_act hp ha]
  · unfold State.mode
    rw [State.rd_wr_cell _ _ _ _ _ _ hmode]
    exact h.mode

theorem HmCalm.throttle (h : HmCalm s) : hmThrottle s = s := hmThrottle_same s h.request

/-- An action that neither throttles nor is fatal only raises its flag. -/
theorem HmCalm.act (h : HmCalm s) {flag : Fld} (hf : flag.id ∉ calmIds) {a : Nat} (ha : a ≤ 1) :
    hmAct s a flag = puts s (if a = 1 then [(flag, 0, 1)] else []) := by
  unfold hmAct
  obtain rfl | rfl : a = 0 ∨ a = 1 := by omega
  · rfl
  · have hw := h.wr flag 0 1 hf
    rw [if_neg Nat.one_ne_zero, State.set_eq_wr, hw.throttle]
    dsimp only
    rw [if_neg (show ¬ (1 = 3) by decide), if_neg (by simpa using hw.mode)]
    rfl
end

/-! ### Resets, inputs and exciters -/

section
variable {s : State} {ini : Init} {v : Word}

theorem syncs_puts (s : State) (l : List (Fld × Nat × Nat)) (mask : Nat)
    (h : ∀ p ∈ l, p.1.id ≠ I.hmNow.id ∧ p.1.id ≠ F.HMN_CTRL_DDSSYNC.id) : hmSync (puts s l) mask = puts s (l ++ syncCells s mask) := by
  rw [hmSync_says, puts_append, syncs_congr s _ mask (puts_cell _ _ _ _ fun p hp => (h p hp).1) (puts_cell _ _ _ _ fun p hp => (h p hp).2)]
  rfl

theorem hmnSync_says (hm : hmnModes s = s) (hf : s.fabric = true) : Puts (.hmnSync ini v) s (syncCells s (v.toNat % 16)) := by
  refine (if_pos hf).trans (congrArg _ ?_)
  rw [hm]
  exact hmSync_says s _

/-- The cells of a write of HMN_SLC_CFG. -/
def slcCells (k x : Nat) : List (Fld × Nat × Nat) :=
  [(F.HMN_SLC_CFG_FMODE, k, bitN x 31), (F.HMN_SLC_CFG_NHB, k, bits x 30 27), (F.HMN_SLC_CFG_MALEN, k, bits x 25 13), (F.HMN_SLC_CFG_PHASE, k, bits x 9 0)]

theorem slcCfg_says {k : Fin 4} (hm : hmnModes s = s) (hf : s.fabric = true) :
    Puts (.slcCfgWrite ini k v) s (slcCells k.val v.toNat ++ syncCells s (2 ^ k.val)) := by
  refine (if_pos hf).trans (congrArg _ ?_)
  rw [hm]
  exact syncs_puts s (slcCells k.val v.toNat) _ (by simp [slcCells]; decide)

theorem switchStart_cells (s : State) (k j : Nat) : switchStart s k j = puts s (Safety.switchCells s k j) := switchStart_says s k j

theorem switchStart_puts (s : State) (l : List (Fld × Nat × Nat)) (k j : Nat) (h : ∀ p ∈ l, p.1.id ≠ I.hmSw.id ∧ p.1.id ≠ I.hmNow.id) :
    switchStart (puts s l) k j = puts s (l ++ Safety.switchCells s k j) := by
  rw [switchStart_cells, puts_append]
  unfold Safety.switchCells
  rw [puts_cell s l I.hmSw k fun p hp => (h p hp).1, puts_cell s l I.hmNow 0 fun p hp => (h p hp).2]

/-- The cells of a write of HMN_SLC_MUX. -/
def muxCells (k x : Nat) : List (Fld × Nat × Nat) :=
  [(F.HMN_SLC_MUX_SCAN, k, bitN x 31), (F.HMN_SLC_MUX_INMASK, k, bits x 27 24), (F.HMN_SLC_MUX_DISCH, k, bits x 21 16),
    (F.HMN_SLC_MUX_DWELL, k, bits x 15 8)]

theorem muxCells_scan (s : State) (k x : Nat) : (puts s (muxCells k x)).rd F.HMN_SLC_MUX_SCAN k = bitN x 31 ∧
    (puts s (muxCells k x)).rd F.HMN_SLC_MUX_INMASK k = bits x 27 24 := by
  let fields := [F.HMN_SLC_MUX_SCAN, F.HMN_SLC_MUX_INMASK, F.HMN_SLC_MUX_DISCH, F.HMN_SLC_MUX_DWELL]
  have hscan : bitN x 31 % 2 = bitN x 31 := Nat.mod_mod _ _
  have hmask : bits x 27 24 % 2 ^ 4 = bits x 27 24 := Nat.mod_mod _ _
  exact ⟨(puts_rd_at fields 0 (by decide)).trans hscan, (puts_rd_at fields 1 (by decide)).trans hmask⟩

theorem bitN_eq_one (x k : Nat) : bitN x k = 1 ↔ bitOf x k = true := by
  unfold bitN bitOf
  exact beq_iff_eq.symm

theorem muxCells_scans (s : State) (k x : Nat) : hmScans (puts s (muxCells k x)) k = true ↔ bitOf x 31 = true ∧ bits x 27 24 ≠ 0 := by
  obtain ⟨hscan, hmask⟩ := muxCells_scan s k x
  unfold hmScans
  rw [on_flag _ _ (f := F.HMN_SLC_MUX_SCAN) rfl, State.on_eq, hscan, hmask, Bool.and_eq_true, decide_eq_true_iff, bitN_eq_one, bne_iff_ne]

theorem inputSwitch_written {k : Fin 4} (hm : hmnModes s = s) (hf : s.fabric = true) : Puts (.inputSwitch ini k false v) s (muxCells k.val v.toNat ++
    (if bitOf v.toNat 31 = true ∧ bits v.toNat 27 24 ≠ 0 then Safety.switchCells s k.val (scanNext (bits v.toNat 27 24) 3)
      else (F.HMN_SLC_MUX_CUR, k.val, bits v.toNat 1 0) :: Safety.switchCells s k.val (bits v.toNat 1 0))) := by
  have hnext : exec (.inputSwitch ini k false v) s = .next (muxWrite s k.val v.toNat) := by
    show execInputSwitch ini k false v s = _
    unfold execInputSwitch
    rw [hm, if_neg Bool.false_ne_true, if_pos hf]
  refine hnext.trans (congrArg _ ?_)
  unfold muxWrite
  dsimp only
  change (if hmScans (puts s (muxCells k.val v.toNat)) k.val = true then switchStart (puts s (muxCells k.val v.toNat)) k.val
      (scanNext ((puts s (muxCells k.val v.toNat)).rd F.HMN_SLC_MUX_INMASK k.val) 3)
    else switchStart (puts s (muxCells k.val v.toNat ++ [(F.HMN_SLC_MUX_CUR, k.val, bits v.toNat 1 0)])) k.val (bits v.toNat 1 0)) = _
  by_cases h : bitOf v.toNat 31 = true ∧ bits v.toNat 27 24 ≠ 0
  · rw [if_pos ((muxCells_scans _ _ _).mpr h), if_pos h, (muxCells_scan _ _ _).2]
    exact switchStart_puts s _ _ _ (by simp [muxCells]; decide)
  · rw [if_neg (mt (muxCells_scans _ _ _).mp h), if_neg h, switchStart_puts s _ _ _ (by simp [muxCells]; decide), List.append_assoc]
    rfl

/-- A scan step is due. -/
def ScanDue (s : State) (i : Nat) : Prop := hmScans s i = true ∧ s.rd I.hmSw i = 0 ∧ max 1 (s.rd F.HMN_SLC_MUX_DWELL i) ≤ s.rd I.hmDwell i

theorem scanDue_iff (s : State) (i : Nat) :
    (hmScans s i && !s.on I.hmSw i && decide (max 1 (s.rd F.HMN_SLC_MUX_DWELL i) ≤ s.rd I.hmDwell i)) = true ↔ ScanDue s i := by
  unfold ScanDue
  simp only [Bool.and_eq_true, Bool.not_eq_true', State.on, bne_eq_false_iff_eq, decide_eq_true_eq, and_assoc]

theorem inputScan_next {k : Fin 4} (hm : hmnModes s = s) (hr : s.rd I.hmMode ≠ 0) :
    exec (.inputSwitch ini k true v) s = .next (scanStep s k.val) := by
  show execInputSwitch ini k true v s = _
  unfold execInputSwitch
  rw [hm, if_pos rfl, if_pos (on_of_ne_zero hr)]

theorem inputScan_no {k : Fin 4} (hm : hmnModes s = s) (hr : s.rd I.hmMode ≠ 0) (h : ¬ ScanDue s k.val) :
    exec (.inputSwitch ini k true v) s = .next s :=
  (inputScan_next hm hr).trans (congrArg _ (if_neg (mt (scanDue_iff _ _).mp h)))

theorem inputScan_due {k : Fin 4} (hm : hmnModes s = s) (hr : s.rd I.hmMode ≠ 0) (h : ScanDue s k.val) :
    Puts (.inputSwitch ini k true v) s (Safety.switchCells s k.val (scanNext (s.rd F.HMN_SLC_MUX_INMASK k.val) (s.rd I.hmCur k.val))) :=
  (inputScan_next hm hr).trans (congrArg _ ((if_pos ((scanDue_iff _ _).mpr h)).trans (switchStart_cells _ _ _)))

/-- Whether an exciter runs that is enabled as `en` says. -/
def exciterRuns (s : State) (en : Bool) : Nat := if s.rd F.HMN_CTRL_EN = 1 ∧ en = true ∧ (s.mode = mBOOT ∨ s.serving = true) then 1 else 0

theorem hmExcites_eq (s : State) (e : Nat) : b2n (hmExcites s e) = exciterRuns s (s.on F.HMN_EXC_CFG_EN e) := by
  have hiff : hmExcites s e = true ↔ s.rd F.HMN_CTRL_EN = 1 ∧ s.on F.HMN_EXC_CFG_EN e = true ∧ (s.mode = mBOOT ∨ s.serving = true) := by
    unfold hmExcites
    rw [on_flag s 0 (f := F.HMN_CTRL_EN) rfl]
    simp only [Bool.and_eq_true, Bool.or_eq_true, decide_eq_true_eq, beq_iff_eq, and_assoc]
  unfold b2n exciterRuns
  simp only [hiff]

theorem exciter_next {e : Fin 2} {cfg : Bool} (hm : hmnModes s = s) (hf : s.fabric = true) :
    exec (.excitationChange ini e cfg v) s = .next (excWrite s e.val cfg v.toNat) := by
  refine (if_pos hf).trans ?_
  rw [hm]

theorem exciterRuns_puts (s : State) (l : List (Fld × Nat × Nat)) (en : Bool) (h : ∀ p ∈ l, p.1.id ≠ F.HMN_CTRL_EN.id ∧ p.1.id ≠ F.PMU_MODE_CURRENT.id) :
    exciterRuns (puts s l) en = exciterRuns s en := by
  unfold exciterRuns State.serving State.mode
  rw [puts_cell s l F.HMN_CTRL_EN 0 fun p hp => (h p hp).1, puts_cell s l F.PMU_MODE_CURRENT 0 fun p hp => (h p hp).2]

theorem exciter_cfg {e : Fin 2} (hm : hmnModes s = s) (hf : s.fabric = true) :
    Puts (.excitationChange ini e true v) s [(F.HMN_EXC_CFG_EN, e.val, bitN v.toNat 31), (F.HMN_EXC_CFG_AMP, e.val, bits v.toNat 7 0),
      (I.hmExc, e.val, exciterRuns s (bitOf v.toNat 31)), (I.hmChg, e.val, s.rd I.hmNow + 1)] := by
  let cfg := [(F.HMN_EXC_CFG_EN, e.val, bitN v.toNat 31), (F.HMN_EXC_CFG_AMP, e.val, bits v.toNat 7 0)]
  have hon : (puts s cfg).on F.HMN_EXC_CFG_EN e.val = bitOf v.toNat 31 := by
    have hrd : (puts s cfg).rd F.HMN_EXC_CFG_EN e.val = bitN v.toNat 31 :=
      (puts_rd_at [F.HMN_EXC_CFG_EN, F.HMN_EXC_CFG_AMP] 0 (by decide)).trans (Nat.mod_mod _ _)
    rw [on_flag _ _ (f := F.HMN_EXC_CFG_EN) rfl, hrd, Bool.eq_iff_iff, decide_eq_true_iff, bitN_eq_one]
  have hnow : ∀ w, ((puts s cfg).wr I.hmExc e.val w).rd I.hmNow = s.rd I.hmNow := fun w =>
    (State.rd_wr_cell _ I.hmExc I.hmNow _ _ _ (by decide)).trans (puts_rd_other [F.HMN_EXC_CFG_EN, F.HMN_EXC_CFG_AMP] I.hmNow 0 (by decide))
  refine (exciter_next hm hf).trans (congrArg _ ?_)
  show hmChange ((puts s cfg).wr I.hmExc e.val (b2n (hmExcites (puts s cfg) e.val))) e.val = _
  unfold hmChange
  rw [hnow, hmExcites_eq, hon, exciterRuns_puts s cfg _ (by simp [cfg]; decide)]
  rfl

theorem exciter_tune {e : Fin 2} (hm : hmnModes s = s) (hf : s.fabric = true) :
    Puts (.excitationChange ini e false v) s [(F.HMN_EXC_FTW_FTW, e.val, max 10486 (min 209715200 v.toNat)),
      (I.hmExc, e.val, exciterRuns s (s.on F.HMN_EXC_CFG_EN e.val)), (I.hmChg, e.val, s.rd I.hmNow + 1)] := by
  let tune := [(F.HMN_EXC_FTW_FTW, e.val, max 10486 (min 209715200 v.toNat))]
  have hon : (puts s tune).on F.HMN_EXC_CFG_EN e.val = s.on F.HMN_EXC_CFG_EN e.val := by
    rw [State.on_eq, State.on_eq, puts_rd_other [F.HMN_EXC_FTW_FTW] F.HMN_EXC_CFG_EN _ (by decide)]
  have hnow : ∀ w, ((puts s tune).wr I.hmExc e.val w).rd I.hmNow = s.rd I.hmNow := fun w =>
    (State.rd_wr_cell _ I.hmExc I.hmNow _ _ _ (by decide)).trans (puts_rd_other [F.HMN_EXC_FTW_FTW] I.hmNow 0 (by decide))
  refine (exciter_next hm hf).trans (congrArg _ ?_)
  show hmChange ((puts s tune).wr I.hmExc e.val (b2n (hmExcites (puts s tune) e.val))) e.val = _
  unfold hmChange
  rw [hnow, hmExcites_eq, hon, exciterRuns_puts s tune _ (by simp [tune]; decide)]
  rfl

/-! ### Gains -/

theorem gainWrite_none (h : selIx s ini F.HMN_SELECT_INDEX 16 = none) : exec (.gainWrite ini v) s = .next s := by
  show execGainWrite ini v s = _
  unfold execGainWrite
  rw [h, ite_self]

theorem gainWrite_next {n : Nat} (hm : hmnModes s = s) (hf : s.fabric = true) (h : selIx s ini F.HMN_SELECT_INDEX 16 = some n) :
    exec (.gainWrite ini v) s = .next (snsCfgWrite s n v.toNat) := by
  show execGainWrite ini v s = _
  unfold execGainWrite
  rw [h, hf, hm]
  rfl

/-- The cells of a write of HMN_SNS_CFG. -/
def snsCells (n x : Nat) : List (Fld × Nat × Nat) := [(F.HMN_SNS_CFG_EXCSENSE, n, bitN x 27), (F.HMN_SNS_CFG_GAIN, n, bits x 26 24)]

/-- A gain write does not change the gain of the input that is converted. -/
def GainIdle (s : State) (n g : Nat) : Prop := hmInput s (n / 4) ≠ n ∨ s.rd I.hmSw (n / 4) ≠ 0 ∨ g = s.rd I.hmG (n / 4)

theorem gainIdle_iff (s : State) (n g : Nat) : (hmInput s (n / 4) != n || s.on I.hmSw (n / 4) || g == s.rd I.hmG (n / 4)) = true ↔ GainIdle s n g := by
  unfold GainIdle
  simp only [Bool.or_eq_true, State.on, bne_iff_ne, beq_iff_eq, or_assoc]

/-- The cells of a gain that changes. -/
def gainCells (s : State) (k g : Nat) : List (Fld × Nat × Nat) :=
  (if s.rd I.hmNow < s.rd I.hmBnd k - 1 then [] else [(I.hmOldG, k, s.rd I.hmG k)]) ++
    [(I.hmG, k, g), (I.hmBnd, k, s.rd I.hmRst k + ((s.rd I.hmNow - s.rd I.hmRst k) / 16 + 1) * 16 + 1)]

theorem snsCfgWrite_eq (s : State) (n x : Nat) : snsCfgWrite s n x = puts s (snsCells n x ++
    if (hmInput s (n / 4) != n || s.on I.hmSw (n / 4) || bits x 26 24 == s.rd I.hmG (n / 4)) = true then [] else gainCells s (n / 4) (bits x 26 24)) := by
  have hrd : ∀ (q : Fld) j, (∀ f ∈ [F.HMN_SNS_CFG_EXCSENSE, F.HMN_SNS_CFG_GAIN], f.id ≠ q.id) → (puts s (snsCells n x)).rd q j = s.rd q j := fun q j hq =>
    puts_rd_other [F.HMN_SNS_CFG_EXCSENSE, F.HMN_SNS_CFG_GAIN] q j hq
  have hin : hmInput (puts s (snsCells n x)) (n / 4) = hmInput s (n / 4) := by
    unfold hmInput
    rw [hrd I.hmCur _ (by decide)]
  have hsw : (puts s (snsCells n x)).on I.hmSw (n / 4) = s.on I.hmSw (n / 4) := by
    rw [State.on_eq, State.on_eq, hrd I.hmSw _ (by decide)]
  rw [puts_append]
  unfold snsCfgWrite
  dsimp only
  change (if (hmInput (puts s (snsCells n x)) (n / 4) != n || (puts s (snsCells n x)).on I.hmSw (n / 4) ||
    bits x 26 24 == (puts s (snsCells n x)).rd I.hmG (n / 4)) = true then _ else _) = _
  rw [hin, hsw, hrd I.hmG _ (by decide)]
  split
  · rfl
  · unfold gainCells snsCells
    simp (disch := decide) only [State.rd_wr_cell]
    by_cases hp : s.rd I.hmNow < s.rd I.hmBnd (n / 4) - 1
    · simp only [hp, decide_true, if_true]
      simp (disch := decide) only [State.rd_wr_cell]
      rfl
    · simp only [hp, decide_false, Bool.false_eq_true, if_false]
      simp (disch := decide) only [State.rd_wr_cell]
      rfl
end

end Sys2Proof.Machine
end

section
/-! PROOFS.  The health monitor: made inputs, thresholds, comparators and windows (O53). -/

namespace Sys2Proof.Machine

open Safety

set_option Elab.async false

section
variable {s : State} {k : Fin 4}

/-! ### Made inputs -/

theorem inputMake_next (hm : hmnModes s = s) (hr : s.rd I.hmMode ≠ 0) : exec (.inputMake k) s = .next (inputMake s k.val) := by
  show execInputMake k s = _
  unfold execInputMake
  rw [hm, if_pos (on_of_ne_zero hr)]

theorem inputMake_stopped (hm : hmnModes s = s) (hr : s.rd I.hmMode = 0) : exec (.inputMake k) s = .next s := by
  show execInputMake k s = _
  unfold execInputMake
  rw [hm, if_neg (by rw [on_of_zero hr]; decide)]

theorem inputMake_idle (hm : hmnModes s = s) (h : s.rd I.hmSw k.val = 0) : exec (.inputMake k) s = .next s := by
  by_cases hr : s.rd I.hmMode = 0
  · exact inputMake_stopped hm hr
  · refine (inputMake_next hm hr).trans (congrArg _ ?_)
    unfold inputMake
    rw [on_of_zero h]
    rfl

/-- The cells of a made input before its reset. -/
def madeCells (s : State) (i : Nat) : List (Fld × Nat × Nat) :=
  [(I.hmCur, i, s.rd I.hmSw i - 1), (F.HMN_SLC_MUX_CUR, i, s.rd I.hmSw i - 1), (I.hmSw, i, 0),
    (I.hmG, i, s.rd F.HMN_SNS_CFG_GAIN (4 * i + (s.rd I.hmSw i - 1)))]

/-- The cells of a switch that waited. -/
def waitedCells (s : State) (i : Nat) : List (Fld × Nat × Nat) :=
  if s.rd I.hmNext i = 0 then [] else [(I.hmNext, i, 0), (I.hmSw, i, s.rd I.hmNext i), (I.hmWin, i, s.rd I.hmNow)]

/-- The fields a made input changes. -/
def madeFields : List Fld := [I.hmCur, F.HMN_SLC_MUX_CUR, I.hmSw, I.hmG]

theorem syncCells_rd (u s : State) (mask : Nat) (q : Fld) (j : Nat)
    (hq : ∀ f ∈ [I.hmRst, I.hmWin, I.hmBnd, I.hmDwell, I.hmDds, I.hmChg], f.id ≠ q.id) : (puts u (syncCells s mask)).rd q j = u.rd q j :=
  puts_cell _ _ _ _ (syncs_ids s mask q hq)

theorem made_rd (s : State) (i : Nat) (q : Fld) (j : Nat) (hm : ∀ f ∈ madeFields, f.id ≠ q.id)
    (hq : ∀ f ∈ [I.hmRst, I.hmWin, I.hmBnd, I.hmDwell, I.hmDds, I.hmChg], f.id ≠ q.id) :
    (puts s (madeCells s i ++ syncCells s (2 ^ i))).rd q j = s.rd q j := by
  rw [puts_append, syncCells_rd _ _ _ _ _ hq]
  exact puts_rd_other madeFields q j hm

theorem made_switched (s : State) (i : Nat) : (puts s (madeCells s i ++ syncCells s (2 ^ i))).rd I.hmSw i = 0 := by
  rw [puts_append, syncCells_rd _ _ _ _ _ (by decide)]
  exact (puts_rd_at madeFields 2 (by decide)).trans rfl

theorem inputMake_made (hm : hmnModes s = s) (hr : s.rd I.hmMode ≠ 0) (h : s.rd I.hmSw k.val ≠ 0) :
    Puts (.inputMake k) s (madeCells s k.val ++ syncCells s (2 ^ k.val) ++ waitedCells s k.val) := by
  have hgain : ((((s.wr I.hmCur k.val (s.rd I.hmSw k.val - 1)).wr F.HMN_SLC_MUX_CUR k.val (s.rd I.hmSw k.val - 1)).wr I.hmSw k.val 0).rd
      F.HMN_SNS_CFG_GAIN (4 * k.val + (s.rd I.hmSw k.val - 1))) = s.rd F.HMN_SNS_CFG_GAIN (4 * k.val + (s.rd I.hmSw k.val - 1)) := by
    simp (disch := decide) only [State.rd_wr_cell]
  have hsync : hmSync ((((s.wr I.hmCur k.val (s.rd I.hmSw k.val - 1)).wr F.HMN_SLC_MUX_CUR k.val (s.rd I.hmSw k.val - 1)).wr I.hmSw k.val 0).wr I.hmG k.val
      (s.rd F.HMN_SNS_CFG_GAIN (4 * k.val + (s.rd I.hmSw k.val - 1)))) (2 ^ k.val) = puts s (madeCells s k.val ++ syncCells s (2 ^ k.val)) :=
    syncs_puts s (madeCells s k.val) _ (by simp [madeCells]; decide)
  have hnext := made_rd s k.val I.hmNext k.val (by decide) (by decide)
  have hnow := made_rd s k.val I.hmNow 0 (by decide) (by decide)
  have hsw := made_switched s k.val
  refine (inputMake_next hm hr).trans (congrArg _ ?_)
  unfold inputMake waitedCells
  rw [on_of_ne_zero h, if_neg (by decide)]
  dsimp only
  rw [hgain, hsync, puts_append _ (_ ++ _)]
  generalize puts s (madeCells s k.val ++ syncCells s (2 ^ k.val)) = u at *
  by_cases hn : s.rd I.hmNext k.val = 0
  · rw [on_of_zero (hnext.trans hn), if_neg Bool.false_ne_true, if_pos hn, puts_nil]
  · rw [on_of_ne_zero (by rw [hnext]; exact hn), if_pos rfl, if_neg hn, hnext, ← hnow,
      show s.rd I.hmNext k.val = s.rd I.hmNext k.val - 1 + 1 by omega]
    show switchStart (puts u [(I.hmNext, k.val, 0)]) _ _ = _
    rw [switchStart_puts u _ _ _ (by simp; decide)]
    unfold Safety.switchCells
    rw [if_pos hsw]
    rfl

/-! ### Thresholds -/

/-- The two thresholds: run, state, event and action. -/
def thresholdFields : List (Fld × Fld × Fld × Fld) :=
  [(I.hmRunHi, F.HMN_SNS_STAT_HIACT, F.HMN_SNS_STAT_HIEVT, F.HMN_SNS_THRCFG_ACTHI), (I.hmRunLo, F.HMN_SNS_STAT_LOACT, F.HMN_SNS_STAT_LOEVT, F.HMN_SNS_THRCFG_ACTLO)]

theorem thresholdFields_free : ∀ p ∈ thresholdFields, (p.2.1, p.2.2.2) ∈ throttleFields ∧ p.1.id ∉ calmIds ∧ p.2.2.1.id ∉ calmIds ∧ p.1.id ≠ p.2.1.id ∧
    p.2.1.w = 1 ∧ p.1.id ≠ p.2.2.2.id ∧ p.2.1.id ≠ p.2.2.2.id := by decide

/-- One threshold, whose action neither throttles nor is fatal. -/
theorem thrStep_cells {p : Fld × Fld × Fld × Fld} (hp : p ∈ thresholdFields) (hc : HmCalm s) {n a : Nat} (ha : a ≤ 1) (hact : s.rd p.2.2.2 n ≤ 1)
    (toward : Bool) : thrStep s n p.1 p.2.1 p.2.2.1 toward a = puts s (thresholdCells s n p.1 p.2.1 p.2.2.1 toward a) := by
  obtain ⟨hfield, hrun, hevt, hra, hw, hrp, hap⟩ := thresholdFields_free p hp
  unfold thrStep thresholdCells
  cases toward with
  | false => rfl
  | true =>
    rw [if_neg (show ¬ (!true) = true by decide), if_neg (show ¬ true = false by decide)]
    by_cases hlow : s.rd p.1 n + 1 < max 1 (s.rd F.HMN_SNS_THRCFG_PERSIST n)
    · rw [if_pos hlow, if_pos hlow]
      rfl
    · rw [if_neg hlow, if_neg hlow]
      have hrun' := hc.wr p.1 n 0 hrun
      have hset := fun v => hrun'.wrAct hfield (i := n) (by rw [State.rd_wr_cell _ _ _ _ _ _ hrp]; show s.rd p.2.2.2 n ≠ 2; omega) v
      dsimp only
      rw [State.on_eq, State.rd_wr_cell _ _ _ _ _ _ hra]
      rcases flag_cases s n hw with h0 | h1
      · rw [h0, if_neg (by decide), if_neg (by decide), ((hset 1).wr _ _ _ hevt).act (by decide) ha]
        exact (puts_append s [(p.1, n, 0), (p.2.1, n, 1), (p.2.2.1, n, 1)] _).symm
      · rw [h1, if_pos (by decide), if_pos rfl, (hset 0).throttle]
        rfl

/-- The fields the cells of a threshold name. -/
theorem thresholdCells_fields (s : State) (n : Nat) (run act evt : Fld) (toward : Bool) (a : Nat) :
    ∀ p ∈ thresholdCells s n run act evt toward a, p.1 ∈ [run, act, evt, F.HMN_IRQSTAT_THR] := by
  intro p hp
  unfold thresholdCells at hp
  split at hp
  · obtain rfl := List.mem_singleton.mp hp
    exact .head _
  · split at hp
    · obtain rfl := List.mem_singleton.mp hp
      exact .head _
    · split at hp
      · simp only [List.mem_cons, List.not_mem_nil, or_false] at hp
        rcases hp with rfl | rfl <;> simp
      · split at hp <;> simp only [List.cons_append, List.nil_append, List.append_nil, List.mem_cons, List.not_mem_nil, or_false] at hp
        · rcases hp with rfl | rfl | rfl | rfl <;> simp
        · rcases hp with rfl | rfl | rfl <;> simp

/-- The cells of both thresholds of an output. -/
def comparedCells (s : State) (n : Nat) (v : Int) : List (Fld × Nat × Nat) :=
  thresholdCells s n I.hmRunHi F.HMN_SNS_STAT_HIACT F.HMN_SNS_STAT_HIEVT
      (if s.rd F.HMN_SNS_STAT_HIACT n = 1 then decide (v < signedOf 32 (s.rd F.HMN_SNS_THRHI_THR n) - (s.rd F.HMN_SNS_THRCFG_HYST n * 256 : Nat))
        else decide (signedOf 32 (s.rd F.HMN_SNS_THRHI_THR n) ≤ v)) (s.rd F.HMN_SNS_THRCFG_ACTHI n) ++
    thresholdCells s n I.hmRunLo F.HMN_SNS_STAT_LOACT F.HMN_SNS_STAT_LOEVT
      (if s.rd F.HMN_SNS_STAT_LOACT n = 1 then decide (signedOf 32 (s.rd F.HMN_SNS_THRLO_THR n) + (s.rd F.HMN_SNS_THRCFG_HYST n * 256 : Nat) < v)
        else decide (v ≤ signedOf 32 (s.rd F.HMN_SNS_THRLO_THR n))) (s.rd F.HMN_SNS_THRCFG_ACTLO n)

theorem HmCalm.thrStep {p : Fld × Fld × Fld × Fld} (hp : p ∈ thresholdFields) (hc : HmCalm s) {n : Nat} (hact : s.rd p.2.2.2 n ≤ 1)
    (toward : Bool) (a : Nat) : HmCalm (puts s (thresholdCells s n p.1 p.2.1 p.2.2.1 toward a)) := by
  obtain ⟨hfield, hrun, hevt, hra, hw, hrp, hap⟩ := thresholdFields_free p hp
  have hset : ∀ w v, HmCalm ((s.wr p.1 n w).wr p.2.1 n v) := fun w v =>
    (hc.wr p.1 n w hrun).wrAct hfield (i := n) (by rw [State.rd_wr_cell _ _ _ _ _ _ hrp]; show s.rd p.2.2.2 n ≠ 2; omega) v
  unfold thresholdCells
  split
  · exact hc.wr _ _ _ hrun
  · split
    · exact hc.wr _ _ _ hrun
    · split
      · exact hset 0 0
      · split
        · exact ((hset 0 1).wr _ n 1 hevt).wr F.HMN_IRQSTAT_THR 0 1 (by decide)
        · exact (hset 0 1).wr _ n 1 hevt

theorem compareOutput_cells (hc : HmCalm s) {n : Nat} (hhi : s.rd F.HMN_SNS_THRCFG_ACTHI n ≤ 1) (hlo : s.rd F.HMN_SNS_THRCFG_ACTLO n ≤ 1) (v : Int) :
    compareOutput s n v = puts s (comparedCells s n v) := by
  have hHi : (I.hmRunHi, F.HMN_SNS_STAT_HIACT, F.HMN_SNS_STAT_HIEVT, F.HMN_SNS_THRCFG_ACTHI) ∈ thresholdFields := .head _
  have hLo : (I.hmRunLo, F.HMN_SNS_STAT_LOACT, F.HMN_SNS_STAT_LOEVT, F.HMN_SNS_THRCFG_ACTLO) ∈ thresholdFields := .tail _ (.head _)
  unfold compareOutput comparedCells
  dsimp only
  rw [on_flag s n (f := F.HMN_SNS_STAT_HIACT) rfl]
  simp only [decide_eq_true_eq]
  generalize (if s.rd F.HMN_SNS_STAT_HIACT n = 1 then decide (v < signedOf 32 (s.rd F.HMN_SNS_THRHI_THR n) - (s.rd F.HMN_SNS_THRCFG_HYST n * 256 : Nat))
    else decide (signedOf 32 (s.rd F.HMN_SNS_THRHI_THR n) ≤ v)) = toward
  rw [thrStep_cells hHi hc hhi hhi, puts_append]
  have hkeep : ∀ q : Fld, (∀ f ∈ [I.hmRunHi, F.HMN_SNS_STAT_HIACT, F.HMN_SNS_STAT_HIEVT, F.HMN_IRQSTAT_THR], f.id ≠ q.id) →
      (puts s (thresholdCells s n I.hmRunHi F.HMN_SNS_STAT_HIACT F.HMN_SNS_STAT_HIEVT toward (s.rd F.HMN_SNS_THRCFG_ACTHI n))).rd q n = s.rd q n :=
    fun q hq => puts_cell _ _ _ _ fun p hp => hq _ (thresholdCells_fields _ _ _ _ _ _ _ p hp)
  have hcalm := hc.thrStep hHi hhi toward (s.rd F.HMN_SNS_THRCFG_ACTHI n)
  generalize puts s (thresholdCells s n I.hmRunHi F.HMN_SNS_STAT_HIACT F.HMN_SNS_STAT_HIEVT toward (s.rd F.HMN_SNS_THRCFG_ACTHI n)) = u at *
  rw [on_flag u n (f := F.HMN_SNS_STAT_LOACT) rfl, thrStep_cells hLo hcalm (by rw [hkeep _ (by decide)]; exact hlo) (by rw [hkeep _ (by decide)]; exact hlo)]
  unfold thresholdCells
  simp only [decide_eq_true_eq]
  rw [hkeep F.HMN_SNS_STAT_LOACT (by decide), hkeep F.HMN_SNS_THRCFG_ACTLO (by decide), hkeep I.hmRunLo (by decide), hkeep F.HMN_SNS_THRCFG_PERSIST (by decide)]

/-! ### Fine outputs -/

theorem fineOutput_next {d : BitVec 24} (hm : hmnModes s = s) (hr : s.rd I.hmMode ≠ 0) :
    exec (.fineOutput k d) s = .next (fineOutput s k.val d.toNat) := by
  show execFineOutput k d s = _
  unfold execFineOutput
  rw [hm, if_pos (on_of_ne_zero hr)]

theorem fineOutput_stopped {d : BitVec 24} (hm : hmnModes s = s) (hr : s.rd I.hmMode = 0) : exec (.fineOutput k d) s = .next s := by
  show execFineOutput k d s = _
  unfold execFineOutput
  rw [hm, if_neg (by rw [on_of_zero hr]; decide)]

theorem fineOutput_switching {d : BitVec 24} (hm : hmnModes s = s) (h : s.rd I.hmSw k.val ≠ 0) : exec (.fineOutput k d) s = .next s := by
  by_cases hr : s.rd I.hmMode = 0
  · exact fineOutput_stopped hm hr
  · refine (fineOutput_next hm hr).trans (congrArg _ ?_)
    unfold fineOutput
    rw [on_of_ne_zero h]
    rfl

/-- The cell of an output's word. -/
def outputCell (s : State) (i : Nat) (valid : Bool) (data : Nat) : Fld × Nat × Nat :=
  (F.HMN_SNS_DATA_WORD, hmInput s i, hmWord valid (hmUnsettled s i) (hmRangex s i) (hmChopRip s i) (hmGain s i) data)

/-- The cells of a counted output. -/
def countedCells (s : State) (i data : Nat) : List (Fld × Nat × Nat) :=
  outputCell s i true data :: if s.rd I.hmDwell i < 255 then [(I.hmDwell, i, s.rd I.hmDwell i + 1)] else []

/-- An output has no flag. -/
def OutputGood (s : State) (i : Nat) : Prop := hmUnsettled s i = false ∧ hmRangex s i = false ∧ hmChopRip s i = false

theorem fineOutput_filling {d : BitVec 24} (hm : hmnModes s = s) (hr : s.rd I.hmMode ≠ 0) (hsw : s.rd I.hmSw k.val = 0) (hf : hmFilling s k.val = true) :
    Puts (.fineOutput k d) s [outputCell s k.val false 0] := by
  refine (fineOutput_next hm hr).trans (congrArg _ ?_)
  unfold fineOutput
  rw [on_of_zero hsw, hf]
  rfl

theorem fineOutput_flagged {d : BitVec 24} (hm : hmnModes s = s) (hr : s.rd I.hmMode ≠ 0) (hsw : s.rd I.hmSw k.val = 0) (hf : hmFilling s k.val = false)
    (hg : ¬ OutputGood s k.val) : Puts (.fineOutput k d) s (countedCells s k.val d.toNat) :=
  (fineOutput_next hm hr).trans (congrArg _ ((fine_says s k.val d.toNat hsw hf).2.trans (if_neg hg)))

theorem countedCells_ids (s : State) (i data : Nat) : ∀ p ∈ countedCells s i data, p.1 ∈ [F.HMN_SNS_DATA_WORD, I.hmDwell] := by
  intro p hp
  unfold countedCells at hp
  rcases List.mem_cons.mp hp with rfl | hp
  · exact .head _
  · split at hp
    · obtain rfl := List.mem_singleton.mp hp
      exact .tail _ (.head _)
    · cases hp

theorem HmCalm.counted (h : HmCalm s) (i data : Nat) : HmCalm (puts s (countedCells s i data)) := by
  unfold countedCells outputCell
  split
  · exact (h.wr F.HMN_SNS_DATA_WORD _ _).wr I.hmDwell _ _
  · exact h.wr F.HMN_SNS_DATA_WORD _ _

theorem comparedCells_counted (s : State) (i data n : Nat) (v : Int) : comparedCells (puts s (countedCells s i data)) n v = comparedCells s n v := by
  have hrd : ∀ q : Fld, (∀ f ∈ [F.HMN_SNS_DATA_WORD, I.hmDwell], f.id ≠ q.id) → (puts s (countedCells s i data)).rd q n = s.rd q n := fun q hq =>
    puts_cell _ _ _ _ fun p hp => hq _ (countedCells_ids s i data p hp)
  unfold comparedCells thresholdCells
  rw [hrd F.HMN_SNS_STAT_HIACT (by decide), hrd F.HMN_SNS_STAT_LOACT (by decide), hrd F.HMN_SNS_THRHI_THR (by decide), hrd F.HMN_SNS_THRLO_THR (by decide),
    hrd F.HMN_SNS_THRCFG_HYST (by decide), hrd F.HMN_SNS_THRCFG_ACTHI (by decide), hrd F.HMN_SNS_THRCFG_ACTLO (by decide), hrd I.hmRunHi (by decide),
    hrd I.hmRunLo (by decide), hrd F.HMN_SNS_THRCFG_PERSIST (by decide)]

theorem fineOutput_good {d : BitVec 24} (hm : hmnModes s = s) (hc : HmCalm s) (hr : s.rd I.hmMode ≠ 0) (hsw : s.rd I.hmSw k.val = 0)
    (hf : hmFilling s k.val = false) (hg : OutputGood s k.val) (hhi : s.rd F.HMN_SNS_THRCFG_ACTHI (hmInput s k.val) ≤ 1)
    (hlo : s.rd F.HMN_SNS_THRCFG_ACTLO (hmInput s k.val) ≤ 1) :
    Puts (.fineOutput k d) s (countedCells s k.val d.toNat ++
      comparedCells s (hmInput s k.val) (signedOf 24 d.toNat * (2 ^ (7 - hmGain s k.val) : Nat))) := by
  have hrd : ∀ q : Fld, (∀ f ∈ [F.HMN_SNS_DATA_WORD, I.hmDwell], f.id ≠ q.id) → (puts s (countedCells s k.val d.toNat)).rd q (hmInput s k.val) =
      s.rd q (hmInput s k.val) := fun q hq => puts_cell _ _ _ _ fun p hp => hq _ (countedCells_ids s k.val d.toNat p hp)
  refine (fineOutput_next hm hr).trans (congrArg _ (((fine_says s k.val d.toNat hsw hf).2.trans (if_pos hg)).trans ?_))
  show compareOutput (puts s (countedCells s k.val d.toNat)) _ _ = _
  rw [compareOutput_cells (hc.counted _ _) (by rw [hrd _ (by decide)]; exact hhi) (by rw [hrd _ (by decide)]; exact hlo), comparedCells_counted, puts_append]

/-! ### Coarse samples -/

theorem coarse_next {d : BitVec 16} (hm : hmnModes s = s) (hr : s.rd I.hmMode = 1) (hsw : s.rd I.hmSw k.val = 0) :
    exec (.coarseCompare k d) s = .next (coarseSample s k.val d.toNat) := by
  show execCoarseCompare k d s = _
  unfold execCoarseCompare
  rw [hm]
  refine if_pos ?_
  rw [hr, on_of_zero hsw]
  rfl

theorem coarse_no {d : BitVec 16} (hm : hmnModes s = s) (h : s.rd I.hmMode ≠ 1 ∨ s.rd I.hmSw k.val ≠ 0) : exec (.coarseCompare k d) s = .next s := by
  show execCoarseCompare k d s = _
  unfold execCoarseCompare
  rw [hm, if_neg]
  rcases h with h | h
  · simp [h]
  · rw [on_of_ne_zero h]
    simp

/-- The cells of a coarse sample. -/
def sampleCells (s : State) (i code : Nat) : List (Fld × Nat × Nat) :=
  [(F.HMN_SLC_CDATA_CODE, i, code), (F.HMN_SLC_CDATA_VALID, i, if s.rd I.hmRst i + hmDelay s i + 48 ≤ s.rd I.hmNow then 1 else 0)]

theorem sampleCells_eq (s : State) (i code : Nat) : sampleCells s i code =
    [(F.HMN_SLC_CDATA_CODE, i, code), (F.HMN_SLC_CDATA_VALID, i, b2n (decide (s.rd I.hmRst i + hmDelay s i + 48 ≤ s.rd I.hmNow)))] := by
  unfold sampleCells b2n
  simp only [decide_eq_true_eq]

theorem coarse_quiet {d : BitVec 16} (hm : hmnModes s = s) (hr : s.rd I.hmMode = 1) (hsw : s.rd I.hmSw k.val = 0) (ha : coarseActs s k.val = false) :
    Puts (.coarseCompare k d) s (sampleCells s k.val d.toNat) := by
  refine (coarse_next hm hr hsw).trans (congrArg _ ((coarse_says s k.val d.toNat).trans ((if_pos ha).trans ?_)))
  rw [sampleCells_eq]

/-- The cells of the comparators' states. -/
def metCells (s : State) (i code : Nat) (above below : Bool) : List (Fld × Nat × Nat) :=
  sampleCells s i code ++ [(F.HMN_SLC_STAT_OVER, i, b2n above), (F.HMN_SLC_STAT_UNDER, i, b2n below)]

/-- The cells of a comparator that acts without throttling. -/
def comparatorCells (evt : Fld) (i a : Nat) (met : Bool) : List (Fld × Nat × Nat) :=
  if met = true then (evt, i, 1) :: (if a = 1 then [(F.HMN_IRQSTAT_COARSE, 0, 1)] else []) else []

theorem HmCalm.comparator {evt : Fld} (hc : HmCalm s) (he : evt.id ∉ calmIds) {i a : Nat} (ha : a ≤ 1) (met : Bool) :
    (if met = true then hmAct (s.wr evt i 1) a F.HMN_IRQSTAT_COARSE else s) = puts s (comparatorCells evt i a met) ∧
      HmCalm (puts s (comparatorCells evt i a met)) := by
  unfold comparatorCells
  cases met with
  | false => exact ⟨rfl, hc⟩
  | true =>
    have hw := hc.wr evt i 1 he
    refine ⟨hw.act (by decide) ha, ?_⟩
    rw [if_pos rfl, puts_cons]
    split
    · exact hw.wr F.HMN_IRQSTAT_COARSE 0 1
    · exact hw

/-- The fields of a coarse sample and its comparators. -/
def metFields : List Fld := [F.HMN_SLC_CDATA_CODE, F.HMN_SLC_CDATA_VALID, F.HMN_SLC_STAT_OVER, F.HMN_SLC_STAT_UNDER]

theorem HmCalm.met (h : HmCalm s) {i : Nat} (ho : s.rd F.HMN_SLC_CCFG_OVACT i ≤ 1) (hu : s.rd F.HMN_SLC_CCFG_UNACT i ≤ 1) (code : Nat) (above below : Bool) :
    HmCalm (puts s (metCells s i code above below)) := by
  have hOver : (F.HMN_SLC_STAT_OVER, F.HMN_SLC_CCFG_OVACT) ∈ throttleFields := by decide
  have hUnder : (F.HMN_SLC_STAT_UNDER, F.HMN_SLC_CCFG_UNACT) ∈ throttleFields := by decide
  have hsample : HmCalm (puts s (sampleCells s i code)) := (h.wr F.HMN_SLC_CDATA_CODE _ _).wr F.HMN_SLC_CDATA_VALID _ _
  have hrd : ∀ q : Fld, (∀ f ∈ [F.HMN_SLC_CDATA_CODE, F.HMN_SLC_CDATA_VALID], f.id ≠ q.id) → (puts s (sampleCells s i code)).rd q i = s.rd q i := fun q hq =>
    puts_rd_other [F.HMN_SLC_CDATA_CODE, F.HMN_SLC_CDATA_VALID] q i hq
  have hover := hsample.wrAct hOver (i := i) (by rw [hrd _ (by decide)]; show s.rd F.HMN_SLC_CCFG_OVACT i ≠ 2; omega) (b2n above)
  unfold metCells
  rw [puts_append]
  refine hover.wrAct hUnder (i := i) ?_ (b2n below)
  rw [State.rd_wr_cell _ _ _ _ _ _ (by decide), hrd _ (by decide)]
  show s.rd F.HMN_SLC_CCFG_UNACT i ≠ 2
  omega

theorem coarse_acts {d : BitVec 16} (hm : hmnModes s = s) (hc : HmCalm s) (hr : s.rd I.hmMode = 1) (hsw : s.rd I.hmSw k.val = 0) (ha : coarseActs s k.val = true)
    (ho : s.rd F.HMN_SLC_CCFG_OVACT k.val ≤ 1) (hu : s.rd F.HMN_SLC_CCFG_UNACT k.val ≤ 1) {above below : Bool}
    (habove : above = (s.on F.HMN_SLC_CCFG_OVEN k.val && decide (signedOf 16 (s.rd F.HMN_SLC_COARSE_COVER k.val) ≤ signedOf 16 d.toNat)))
    (hbelow : below = (s.on F.HMN_SLC_CCFG_UNEN k.val && decide (signedOf 16 d.toNat ≤ signedOf 16 (s.rd F.HMN_SLC_COARSE_CUNDER k.val)))) :
    Puts (.coarseCompare k d) s (metCells s k.val d.toNat above below ++ comparatorCells F.HMN_SLC_STAT_OVEVT k.val (s.rd F.HMN_SLC_CCFG_OVACT k.val) above ++
      comparatorCells F.HMN_SLC_STAT_UNEVT k.val (s.rd F.HMN_SLC_CCFG_UNACT k.val) below) := by
  have hmet := hc.met ho hu d.toNat above below
  have hrd : ∀ q : Fld, (∀ f ∈ metFields, f.id ≠ q.id) → (puts s (metCells s k.val d.toNat above below)).rd q k.val = s.rd q k.val := fun q hq =>
    puts_rd_other metFields q k.val hq
  have hov := hrd F.HMN_SLC_CCFG_OVACT (by decide)
  have hun := hrd F.HMN_SLC_CCFG_UNACT (by decide)
  refine (coarse_next hm hr hsw).trans (congrArg _ ((coarse_says s k.val d.toNat).trans ((if_neg (by rw [ha]; decide)).trans ?_)))
  have hdef : sampleCells s k.val d.toNat ++ [(F.HMN_SLC_STAT_OVER, k.val, b2n above), (F.HMN_SLC_STAT_UNDER, k.val, b2n below)] =
      metCells s k.val d.toNat above below := rfl
  rw [← habove, ← hbelow, ← sampleCells_eq, hdef]
  rw [hmet.throttle, puts_append, puts_append]
  generalize puts s (metCells s k.val d.toNat above below) = u at *
  rw [hov]
  obtain ⟨hfirst, hcalm⟩ := hmet.comparator (evt := F.HMN_SLC_STAT_OVEVT) (by decide) (i := k.val) ho above
  rw [hfirst]
  have hact : (puts u (comparatorCells F.HMN_SLC_STAT_OVEVT k.val (s.rd F.HMN_SLC_CCFG_OVACT k.val) above)).rd F.HMN_SLC_CCFG_UNACT k.val =
      s.rd F.HMN_SLC_CCFG_UNACT k.val := by
    rw [puts_cell _ _ _ _ fun p hp => ?_, hun]
    have hf : p.1 ∈ [F.HMN_SLC_STAT_OVEVT, F.HMN_IRQSTAT_COARSE] := by
      unfold comparatorCells at hp
      split at hp
      · rcases List.mem_cons.mp hp with rfl | hp
        · exact .head _
        · split at hp
          · obtain rfl := List.mem_singleton.mp hp
            exact .tail _ (.head _)
          · cases hp
      · cases hp
    exact (by decide : ∀ f ∈ [F.HMN_SLC_STAT_OVEVT, F.HMN_IRQSTAT_COARSE], f.id ≠ F.HMN_SLC_CCFG_UNACT.id) _ hf
  dsimp only
  rw [hact]
  exact (hcalm.comparator (evt := F.HMN_SLC_STAT_UNEVT) (by decide) (i := k.val) hu below).1

/-! ### Windows -/

theorem demod_no {a b : BitVec 24} (hm : hmnModes s = s) (h : s.rd I.hmMode = 0 ∨ hmDemods s k.val = false) : exec (.demodWindowEnd k a b) s = .next s := by
  show execDemodWindowEnd k a b s = _
  unfold execDemodWindowEnd
  rw [hm, if_neg]
  rcases h with h | h
  · rw [on_of_zero h]
    simp
  · simp [h]

theorem demod_ends {a b : BitVec 24} (hm : hmnModes s = s) (hr : s.rd I.hmMode ≠ 0) (h : hmDemods s k.val = true) :
    exec (.demodWindowEnd k a b) s = .next (demodEnd s k.val a.toNat b.toNat) := by
  show execDemodWindowEnd k a b s = _
  unfold execDemodWindowEnd
  rw [hm]
  refine if_pos ?_
  rw [on_of_ne_zero hr, h]
  rfl

theorem demodEnd_says (s : State) (k i q : Nat) (word : Nat → Nat)
    (hw : word = hmWord (decide (s.rd I.hmRst k + hmDelay s k + 2 ≤ s.rd I.hmWin k)) (demUnsettled s k) (hmRangexWin s k) (demChop s k) (hmGain s k)) :
    demodEnd s k i q = puts s [(F.HMN_SNS_DEMI_WORD, hmInput s k, word i), (F.HMN_SNS_DEMQ_WORD, hmInput s k, word q), (I.hmWin, k, s.rd I.hmNow),
      (F.HMN_IRQSTAT_DEMRDY, 0, 1)] := by
  have hnow : (puts s [(F.HMN_SNS_DEMI_WORD, hmInput s k, word i), (F.HMN_SNS_DEMQ_WORD, hmInput s k, word q)]).rd I.hmNow = s.rd I.hmNow :=
    puts_rd_other [F.HMN_SNS_DEMI_WORD, F.HMN_SNS_DEMQ_WORD] I.hmNow 0 (by decide)
  unfold demodEnd
  dsimp only
  rw [← hw]
  show ((puts s [(F.HMN_SNS_DEMI_WORD, hmInput s k, word i), (F.HMN_SNS_DEMQ_WORD, hmInput s k, word q)]).wr I.hmWin k
    ((puts s [(F.HMN_SNS_DEMI_WORD, hmInput s k, word i), (F.HMN_SNS_DEMQ_WORD, hmInput s k, word q)]).rd I.hmNow)).set F.HMN_IRQSTAT_DEMRDY 1 = _
  rw [hnow]
  rfl
end

/-- A comparator's condition as the statement writes it. -/
theorem comparator_iff (s : State) (en : Fld) (i : Nat) (hw : en.w = 1) (c : Prop) [Decidable c] :
    (s.on en i && decide c) = decide (s.rd en i = 1 ∧ c) := by
  rw [on_flag s i hw, Bool.decide_and]

/-- Settles O53: the health monitor, each clause from the lemma of its case. -/
theorem healthMonitorSlicesAndOutputs : Obligations.HealthMonitorSlicesAndOutputs := by
  unfold Obligations.HealthMonitorSlicesAndOutputs
  intro s hrate hexc hreq hmode
  have hm := hmnModes_even s hrate hexc
  have hc : HmCalm s := ⟨hreq, hmode⟩
  refine ⟨fun hf ini v => ?_, fun ini v hf => ⟨hmnSync_says hm hf, fun k => slcCfg_says hm hf, fun k => inputSwitch_written hm hf,
    fun e => ⟨exciter_cfg hm hf, exciter_tune hm hf⟩, gainWrite_none, fun n hn => ⟨fun hi => ?_, fun hi => ?_⟩⟩,
    fun k => ⟨fun hr => ?_, fun ini v hr => ⟨inputScan_no hm hr, inputScan_due hm hr⟩, inputMake_idle hm, fun hr hs => ?_,
      fun d => ⟨fineOutput_switching hm, fineOutput_filling hm, fun hr hsw hfl => ⟨fineOutput_flagged hm hr hsw hfl, fun hg hhi hlo => ?_⟩⟩,
      fun d => ⟨coarse_no hm, fun hr hsw => ⟨coarse_quiet hm hr hsw, fun ha ho hu => ?_⟩⟩,
      fun a b => ⟨fun h => demod_no hm (.inr h), fun hr h => (demod_ends hm hr h).trans (congrArg _ (demodEnd_says s _ _ _ _ rfl))⟩⟩⟩
  · have hno : ∀ {t : State}, (if s.fabric = true then go t else go s) = .next s := if_neg (by rw [hf]; decide)
    refine ⟨hno, fun k => hno, fun e cfg => hno, ?_⟩
    show execGainWrite ini v s = _
    unfold execGainWrite
    rw [hf]
    rfl
  · refine (gainWrite_next hm hf hn).trans (congrArg _ ?_)
    rw [snsCfgWrite_eq, if_pos ((gainIdle_iff s n _).mpr hi), List.append_nil]
    rfl
  · refine (gainWrite_next hm hf hn).trans (congrArg _ ?_)
    rw [snsCfgWrite_eq, if_neg (mt (gainIdle_iff s n _).mp hi), List.append_assoc]
    rfl
  · have hr0 : s.rd I.hmMode = 0 := not_not.mp hr
    exact ⟨inputMake_stopped hm hr0, fun d => fineOutput_stopped hm hr0, fun d => coarse_no hm (.inl (by rw [hr0]; decide)), fun a b => demod_no hm (.inl hr0)⟩
  · exact inputMake_made hm hr hs
  · rw [List.append_assoc]
    exact fineOutput_good hm hc hr hsw hfl hg hhi hlo
  · have h := coarse_acts (d := d) hm hc hr hsw ha ho hu rfl rfl
    rw [comparator_iff s F.HMN_SLC_CCFG_OVEN _ rfl, comparator_iff s F.HMN_SLC_CCFG_UNEN _ rfl] at h
    unfold metCells comparatorCells at h
    simp only [b2n, decide_eq_true_eq] at h
    exact h

end Sys2Proof.Machine
end

section
/-! PROOFS.  Milestones: triggers, the latch and the trace hold (O54). -/

namespace Sys2Proof.Machine

open Safety

set_option Elab.async false

/-! ### Triggers -/

section
variable {s u : State} {i : Instr} {n : Nat}

/-- A command that has written its cells and then triggers. -/
theorem triggers_wrote {also : List (Fld × Nat × Nat)} (hi : exec i s = .next (u.mlsTrig n)) (hu : OnlyCells s u (also.map fun p => (p.1, p.2.1)))
    (hc : ∀ g ∈ [F.MLS_SRCEN_SRCEN, F.MLS_STAT_ARMED, F.MLS_STAT_SEQ, F.MLS_MISSCNT_COUNT], u.rd g = s.rd g)
    (hw : ∀ p ∈ also, (u.mlsTrig n).rd p.1 p.2.1 = p.2.2) : Triggers i s n also := by
  have hadd : ∀ {post : State → Prop}, Does i s post → Does i s fun t => (∀ p ∈ also, t.rd p.1 p.2.1 = p.2.2) ∧ post t := by
    rintro post ⟨t, ht, hp⟩
    obtain rfl : u.mlsTrig n = t := Host.Outcome.next.inj (hi.symm.trans ht)
    exact ⟨_, ht, hw, hp⟩
  obtain ⟨hnone, htaken, hmissed⟩ := triggers_from hu hc hi
  exact ⟨fun h => hadd (hnone h), fun h ha => hadd (htaken h ha), fun h ha => hadd (hmissed h ha)⟩

theorem triggers_plain (hi : exec i s = .next (s.mlsTrig n)) : Triggers i s n [] :=
  triggers_wrote hi (.refl _ _) (fun _ _ => rfl) fun _ hp => (List.not_mem_nil hp).elim

theorem mlstone_triggers {d : BitVec 11} {q : BitVec 16} (hf : s.fabric = true) (hr : s.rd F.FUS_PMMISC_RMLS = 1) :
    Triggers (.mlstoneRx d q) s 16 [(F.MLS_RREC_VALID, 0, 1), (F.MLS_RREC_DEV, 0, d.toNat), (F.MLS_RREC_RSEQ, 0, q.toNat), (F.MLS_IRQSTAT_REMOTE, 0, 1)] := by
  let fields := [F.MLS_RREC_VALID, F.MLS_RREC_DEV, F.MLS_RREC_RSEQ, F.MLS_IRQSTAT_REMOTE]
  have hd : d.toNat % 2 ^ 11 = d.toNat := Nat.mod_eq_of_lt d.isLt
  have hq : q.toNat % 2 ^ 16 = q.toNat := Nat.mod_eq_of_lt q.isLt
  refine triggers_wrote (u := puts s [(F.MLS_RREC_VALID, 0, 1), (F.MLS_RREC_DEV, 0, d.toNat), (F.MLS_RREC_RSEQ, 0, q.toNat), (F.MLS_IRQSTAT_REMOTE, 0, 1)])
    (mlstone_exec hf d q (on_of_one hr)) ?_ (fun g hg => ?_) fun p hp => ?_
  · exact .wr (.wr (.wr (.wr (.refl _ _) (by simp)) (by simp)) (by simp)) (by simp)
  · simp only [List.mem_cons, List.not_mem_nil, or_false] at hg
    rcases hg with rfl | rfl | rfl | rfl
    · exact puts_rd_other fields F.MLS_SRCEN_SRCEN 0 (by decide)
    · exact puts_rd_other fields F.MLS_STAT_ARMED 0 (by decide)
    · exact puts_rd_other fields F.MLS_STAT_SEQ 0 (by decide)
    · exact puts_rd_other fields F.MLS_MISSCNT_COUNT 0 (by decide)
  · simp only [List.mem_cons, List.not_mem_nil, or_false] at hp
    rcases hp with rfl | rfl | rfl | rfl
    · exact (mlsTrig_keeps _ _ F.MLS_RREC_VALID (by decide) 0).trans ((puts_rd_at fields 0 (by decide)).trans rfl)
    · exact (mlsTrig_keeps _ _ F.MLS_RREC_DEV (by decide) 0).trans ((puts_rd_at fields 1 (by decide)).trans hd)
    · exact (mlsTrig_keeps _ _ F.MLS_RREC_RSEQ (by decide) 0).trans ((puts_rd_at fields 2 (by decide)).trans hq)
    · exact (mlsTrig_keeps _ _ F.MLS_IRQSTAT_REMOTE (by decide) 0).trans ((puts_rd_at fields 3 (by decide)).trans rfl)

theorem mlsTrigger_exec (n : BitVec 5) (hf : s.fabric = true) : exec (.mlsTrigger n) s = .next (s.mlsTrig n.toNat) := if_pos hf

theorem rising_eq (s : State) (r : Bool) : (r == s.on F.MLS_SRCEN_MLINPOL) = true ↔ (if r then 1 else 0) = s.rd F.MLS_SRCEN_MLINPOL := by
  rcases flag_cases s 0 (f := F.MLS_SRCEN_MLINPOL) rfl with h | h
  · rw [on_of_zero h, h]
    cases r <;> decide
  · rw [on_of_one h, h]
    cases r <;> decide

theorem mlinEdge_taken {r : Bool} (hf : s.fabric = true) (h : (if r then 1 else 0) = s.rd F.MLS_SRCEN_MLINPOL) :
    exec (.mlinEdge r) s = .next (s.mlsTrig 1) := if_pos (by rw [hf, (rising_eq s r).mpr h]; rfl)

theorem mlinEdge_other {r : Bool} (h : (if r then 1 else 0) ≠ s.rd F.MLS_SRCEN_MLINPOL) : exec (.mlinEdge r) s = .next s :=
  if_neg fun hh => h ((rising_eq s r).mp (Bool.and_eq_true_iff.mp hh).2)

variable {ini : Init} {v : Word}

theorem mlsTrigWrite_exec (hf : s.fabric = true) (h : bitOf v.toNat 0 = true) : exec (.mlsTrig ini v) s = .next (s.mlsTrig 4) :=
  (if_pos hf).trans (congrArg _ (if_pos h))

theorem mlsTrigWrite_no (h : bitOf v.toNat 0 = false) : exec (.mlsTrig ini v) s = .next s := by
  show execMlsTrig ini v s = _
  unfold execMlsTrig mlsTrigWrite
  rw [h, if_neg Bool.false_ne_true, ite_self]

theorem mlsArmWrite_no (h : bitOf v.toNat 0 = false) : exec (.mlsArm ini v) s = .next s := by
  show execMlsArm ini v s = _
  unfold execMlsArm mlsArmWrite
  rw [h, if_neg Bool.false_ne_true, ite_self]

theorem mlsArmWrite_armed (hf : s.fabric = true) (h : bitOf v.toNat 0 = true) :
    Puts (.mlsArm ini v) s [(F.MLS_STAT_ARMED, 0, 1), (F.MLS_STAT_TRCHELD, 0, 0), (I.mlsPost, 0, 0)] :=
  (if_pos hf).trans (congrArg _ (if_pos h))

theorem mlstone_discarded {d : BitVec 11} {q : BitVec 16} (h : s.rd F.FUS_PMMISC_RMLS = 0) : exec (.mlstoneRx d q) s = .next s := by
  show execMlstoneRx d q s = _
  unfold execMlstoneRx mlstoneReceive
  rw [on_of_zero h, if_neg Bool.false_ne_true, ite_self]
end

/-! ### The snapshot of the time bases -/

/-- The media snapshots before those of the time bases. -/
def mediaBefore (s : State) : State :=
  (snap (snap s F.PKE_SNAP_CELLSTAT_VALUE 0 bPKE 0x80C) F.PKE_SNAP_CLSCNT_VALUE 0 bPKE 0x838).over (List.range 8) fun s p =>
    (s.wr F.PKE_SNAP_TXFRM_VALUE p (s.rd F.PKE_P_CNT_COUNT (12 * p + 5))).wr F.PKE_SNAP_RXFRM_VALUE p (s.rd F.PKE_P_CNT_COUNT (12 * p))

/-- The media snapshots after those of the time bases. -/
def mediaAfter (s : State) : State :=
  let s := snap s F.TMU_SNAP_LATECNT_VALUE 0 bTMU 0x820
  let s := snap (snap s F.TDX_SNAP_BLKCNT_VALUE 0 bTDX 0x830) F.TDX_SNAP_FRAME_VALUE 0 bTDX 0x834
  let s := snap (snap s F.TDX_SNAP_CTRL_VALUE 0 bTDX 0x800) F.TDX_SNAP_USECNT_VALUE 0 bTDX 0x838
  let s := s.over (List.range 14) fun s l => s.wr F.CWY_SNAP_LSTAT_VALUE l (lStatWord s l)
  let s := snap s F.CWY_SNAP_EPOCH_VALUE 0 bCWY 0x804
  let s := s.over (List.range 16) fun s n => s.wr F.HMN_SNS_SNAP_VALUE n (s.rd F.HMN_SNS_DATA_WORD n)
  snap (snap s F.MLS_SNAP_STAT_VALUE 0 bMLS 0x810) F.MLS_SNAP_MISSCNT_VALUE 0 bMLS 0x814

/-- The snapshots of the time bases. -/
def mediaTimes (s : State) : State := s.over (List.range 4) fun s b => s.wr F.TMU_SNAP_NS_VALUE b (tbNs s b)

theorem snapMedia_parts (s : State) : snapMedia s = mediaAfter (mediaTimes (mediaBefore s)) := rfl

theorem mediaBefore_other (s : State) : SameOtherCells s (mediaBefore s)
    [F.PKE_SNAP_CELLSTAT_VALUE, F.PKE_SNAP_CLSCNT_VALUE, F.PKE_SNAP_TXFRM_VALUE, F.PKE_SNAP_RXFRM_VALUE] :=
  .over (snap_other (snap_other (.refl _ _) (by simp) _ _ _) (by simp) _ _ _) _ _ fun _ _ => .wr (.wr (.refl _ _) (by simp)) (by simp)

theorem mediaAfter_other (s : State) : SameOtherCells s (mediaAfter s) [F.TMU_SNAP_LATECNT_VALUE, F.TDX_SNAP_BLKCNT_VALUE, F.TDX_SNAP_FRAME_VALUE,
    F.TDX_SNAP_CTRL_VALUE, F.TDX_SNAP_USECNT_VALUE, F.CWY_SNAP_LSTAT_VALUE, F.CWY_SNAP_EPOCH_VALUE, F.HMN_SNS_SNAP_VALUE, F.MLS_SNAP_STAT_VALUE,
    F.MLS_SNAP_MISSCNT_VALUE] := by
  unfold mediaAfter
  refine snap_other (snap_other (.over (snap_other (.over (snap_other (snap_other (snap_other (snap_other (snap_other (.refl _ _) ?_ _ _ _) ?_ _ _ _) ?_ _ _ _) ?_ _ _ _)
    ?_ _ _ _) _ _ fun _ _ => .wr (.refl _ _) ?_) ?_ _ _ _) _ _ fun _ _ => .wr (.refl _ _) ?_) ?_ _ _ _) ?_ _ _ _ <;> simp

theorem snapMedia_times (s : State) {b : Nat} (hb : b < 4) : (snapMedia s).rd F.TMU_SNAP_NS_VALUE b = s.rd F.TMU_TB_NS_NS b := by
  have htimes : (mediaTimes (mediaBefore s)).rd F.TMU_SNAP_NS_VALUE b = (mediaBefore s).rd F.TMU_TB_NS_NS b := by
    unfold mediaTimes
    rw [over_put (mediaBefore s) (List.range 4) F.TMU_SNAP_NS_VALUE tbNs (fun u i v n => State.rd_wr_cell _ _ _ _ _ _ (by decide)),
      if_pos (List.mem_range.mpr hb)]
    exact Nat.mod_eq_of_lt (State.rd_lt _ _ _)
  rw [snapMedia_parts, mediaAfter_other _ _ _ (by decide), htimes, mediaBefore_other _ _ _ (by decide)]

/-! ### The latch -/

section
variable {s : State} {o : BitVec 15}

/-- The state that a latch takes its snapshots of. -/
def latched (s : State) : State :=
  if s.rd F.MLS_TRCCFG_HOLDEN = 1 then puts s [(I.mlsLatch, 0, 0), (I.mlsPost, 0, s.rd F.MLS_TRCCFG_POSTCNT + 1)] else puts s [(I.mlsLatch, 0, 0)]

/-- The state after a latch's snapshots. -/
def snapped (s : State) (ofs : Nat) : State := (snapMedia (snapJobs (snapSystem (latched s) ofs))).set F.MLS_IRQSTAT_TAKEN 1

/-- The state after a latch that sends nothing and ends nothing. -/
def latchDone (s : State) (ofs : Nat) : State :=
  if s.rd F.MLS_OUTCFG_EN = 1 then (snapped s ofs).set I.mlOut 1 else snapped s ofs

theorem latched_other (s : State) : SameOtherCells s (latched s) [I.mlsLatch, I.mlsPost] := by
  unfold latched
  split
  · exact .wr (.wr (.refl _ _) (by simp)) (by simp)
  · exact .wr (.refl _ _) (by simp)

theorem latched_but (s : State) : SameButCells s (latched s) := by
  unfold latched
  split <;> exact .puts _ _

theorem latched_says (s : State) : (latched s).rd I.mlsLatch = 0 ∧
    (latched s).rd I.mlsPost = if s.rd F.MLS_TRCCFG_HOLDEN = 1 then (s.rd F.MLS_TRCCFG_POSTCNT + 1) % 2 ^ I.mlsPost.w else s.rd I.mlsPost := by
  unfold latched
  by_cases h : s.rd F.MLS_TRCCFG_HOLDEN = 1
  · rw [if_pos h, if_pos h]
    exact ⟨(puts_rd_at [I.mlsLatch, I.mlsPost] 0 (by decide)).trans rfl, puts_rd_at [I.mlsLatch, I.mlsPost] 1 (by decide)⟩
  · rw [if_neg h, if_neg h]
    exact ⟨(puts_rd_at [I.mlsLatch] 0 (by decide)).trans rfl, puts_rd_other [I.mlsLatch] I.mlsPost 0 (by decide)⟩

theorem holden_latched (s : State) : (if (s.set I.mlsLatch 0).on F.MLS_TRCCFG_HOLDEN = true then
    (s.set I.mlsLatch 0).set I.mlsPost ((s.set I.mlsLatch 0).rd F.MLS_TRCCFG_POSTCNT + 1) else s.set I.mlsLatch 0) = latched s := by
  obtain ⟨hon, hcnt⟩ := latch_cond (s := s) _ rfl
  rw [State.set_eq_wr, hon, hcnt, on_flag s 0 (f := F.MLS_TRCCFG_HOLDEN) rfl]
  unfold latched
  simp only [decide_eq_true_eq]
  rfl

/-- The fields of all snapshots, as their blocks write them. -/
def blockSnaps : List Fld := systemCells ++ jobsCells ++
  (mediaCells1 ++ [F.PKE_SNAP_TXFRM_VALUE, F.PKE_SNAP_RXFRM_VALUE] ++ mediaCells2 ++ [F.HMN_SNS_SNAP_VALUE, F.MLS_SNAP_STAT_VALUE, F.MLS_SNAP_MISSCNT_VALUE])

theorem snaps_other (u : State) (ofs : Nat) : SameOtherCells u (snapMedia (snapJobs (snapSystem u ofs))) blockSnaps := by
  obtain ⟨-, hsys, -⟩ := snapSystem_says u ofs
  obtain ⟨hjobs, -⟩ := snapJobs_says (snapSystem u ofs)
  obtain ⟨-, -, hmedia, -⟩ := snapMedia_says (snapJobs (snapSystem u ofs))
  exact (hsys.mono fun _ hf => List.mem_append_left _ (List.mem_append_left _ hf)).trans
    ((hjobs.mono fun _ hf => List.mem_append_left _ (List.mem_append_right _ hf)).trans (hmedia.mono fun _ hf => List.mem_append_right _ hf))

/-- All but the cells and the free values is as in u. -/
def OnlyDrawn (u t : State) : Prop := t = { u with cells := t.cells, freeCtr := u.freeCtr + 1 }

theorem OnlyDrawn.then {u v t : State} (hv : OnlyDrawn u v) (ht : SameButCells v t) : OnlyDrawn u t := by
  have hcells : ∀ c, { v with cells := c } = { u with cells := c, freeCtr := u.freeCtr + 1 } := fun c =>
    congrArg (fun w : State => { w with cells := c }) hv
  exact Eq.trans ht (hcells t.cells)

theorem OnlyDrawn.after {s u t : State} (hu : SameButCells s u) (ht : OnlyDrawn u t) : OnlyDrawn s t := by
  have hcells : ∀ c, { u with cells := c, freeCtr := u.freeCtr + 1 } = { s with cells := c, freeCtr := s.freeCtr + 1 } := fun c =>
    congrArg (fun w : State => { w with cells := c, freeCtr := w.freeCtr + 1 }) hu
  exact Eq.trans ht (hcells t.cells)

theorem snaps_drawn (u : State) (ofs : Nat) : OnlyDrawn u (snapMedia (snapJobs (snapSystem u ofs))) := by
  obtain ⟨-, -, hsys⟩ := snapSystem_says u ofs
  obtain ⟨-, hjobs⟩ := snapJobs_says (snapSystem u ofs)
  obtain ⟨-, -, -, hmedia⟩ := snapMedia_says (snapJobs (snapSystem u ofs))
  exact OnlyDrawn.then hsys (sbc_trans hjobs hmedia)

theorem blockSnaps_free (q : Fld) (h : q.id ∉ blockSnaps.map Fld.id := by decide) : ∀ f ∈ blockSnaps, f.id ≠ q.id :=
  fun _ hf hh => h (hh ▸ List.mem_map_of_mem hf)

theorem snapped_rd (s : State) (ofs : Nat) (q : Fld) (j : Nat) (hq : q.id ∉ blockSnaps.map Fld.id) (ht : F.MLS_IRQSTAT_TAKEN.id ≠ q.id) :
    (snapped s ofs).rd q j = (latched s).rd q j :=
  (State.rd_wr_cell _ _ _ _ _ _ ht).trans (snaps_other _ _ q j (blockSnaps_free q hq))

theorem latchDone_rd (s : State) (ofs : Nat) (q : Fld) (j : Nat) (hq : I.mlOut.id ≠ q.id) : (latchDone s ofs).rd q j = (snapped s ofs).rd q j := by
  unfold latchDone
  split
  · exact State.rd_wr_cell _ _ _ _ _ _ hq
  · rfl

theorem milestoneLatch_done (hdev : ∀ k, k < 8 → s.rd F.MLS_CWDEV_VALID k = 0) (hpend : s.rd I.fencePend = 0) (ofs : Nat) :
    milestoneLatch s ofs = latchDone s ofs := by
  have hkeep : ∀ (q : Fld) j, q.id ∉ blockSnaps.map Fld.id → (∀ f ∈ [F.MLS_IRQSTAT_TAKEN, I.mlOut, I.mlsLatch, I.mlsPost], f.id ≠ q.id) →
      (latchDone s ofs).rd q j = s.rd q j := fun q j hq hf => (latchDone_rd _ _ _ _ (hf _ (by simp))).trans
        ((snapped_rd _ _ _ _ hq (hf _ (by simp))).trans (latched_other s q j fun f hm => hf f (by simp at hm ⊢; tauto)))
  have hout : (if (snapped s ofs).on F.MLS_OUTCFG_EN = true then (snapped s ofs).set I.mlOut 1 else snapped s ofs) = latchDone s ofs := by
    have hen : (snapped s ofs).rd F.MLS_OUTCFG_EN = s.rd F.MLS_OUTCFG_EN :=
      (snapped_rd _ _ _ _ (by decide) (by decide)).trans (latched_other s _ _ (by decide))
    rw [on_flag _ 0 (f := F.MLS_OUTCFG_EN) rfl, hen]
    unfold latchDone
    simp only [decide_eq_true_eq]
  have hsend : sendMlstones (latchDone s ofs) = latchDone s ofs :=
    sendMlstones_none _ fun k hk => (hkeep F.MLS_CWDEV_VALID k (by decide) (by decide)).trans (hdev k hk)
  rw [latch_let s _ (latched s) (snapped s ofs) (latchDone s ofs) (latchDone s ofs) ofs rfl (holden_latched s) rfl hout hsend]
  exact if_neg (by rw [on_of_zero ((hkeep I.fencePend 0 (by decide) (by decide)).trans hpend)]; decide)

theorem latch_says (hf : s.fabric = true) (hl : s.rd I.mlsLatch = 1) (hdev : ∀ k, k < 8 → s.rd F.MLS_CWDEV_VALID k = 0) (hpend : s.rd I.fencePend = 0) :
    Does (.milestoneLatch o) s fun t =>
      t.rd I.mlsLatch = 0 ∧ t.rd F.MLS_IRQSTAT_TAKEN = 1 ∧ t.rd F.PMU_SNAP_NWOFS_OFS = o.toNat ∧
      (∀ n, n < 16 → t.rd F.HMN_SNS_SNAP_VALUE n = s.rd F.HMN_SNS_DATA_WORD n) ∧
      (∀ b, b < 4 → t.rd F.TMU_SNAP_NS_VALUE b = s.rd F.TMU_TB_NS_NS b) ∧
      (∀ p, p < 8 → t.rd F.PKE_SNAP_TXFRM_VALUE p = s.rd F.PKE_P_CNT_COUNT (12 * p + 5) ∧
        t.rd F.PKE_SNAP_RXFRM_VALUE p = s.rd F.PKE_P_CNT_COUNT (12 * p)) ∧
      t.rd I.mlsPost = (if s.rd F.MLS_TRCCFG_HOLDEN = 1 then (s.rd F.MLS_TRCCFG_POSTCNT + 1) % 2 ^ I.mlsPost.w else s.rd I.mlsPost) ∧
      t.rd I.mlOut = (if s.rd F.MLS_OUTCFG_EN = 1 then 1 else s.rd I.mlOut) ∧
      SameOtherCells s t ([I.mlsLatch, I.mlsPost, I.mlOut, F.MLS_IRQSTAT_TAKEN] ++ snapCells) ∧
      t = { s with cells := t.cells, freeCtr := s.freeCtr + 1 } := by
  have hexec : exec (.milestoneLatch o) s = .next (milestoneLatch s o.toNat) := if_pos (by rw [hf, on_of_one hl]; rfl)
  rw [milestoneLatch_done hdev hpend] at hexec
  refine Does.of_next hexec ?_
  obtain ⟨hofs, hsys, hsysbut⟩ := snapSystem_says (latched s) o.toNat
  obtain ⟨hjobs, -⟩ := snapJobs_says (snapSystem (latched s) o.toNat)
  obtain ⟨hdata, hframes, hmedia, -⟩ := snapMedia_says (snapJobs (snapSystem (latched s) o.toNat))
  have htimes := fun b (hb : b < 4) => snapMedia_times (snapJobs (snapSystem (latched s) o.toNat)) hb
  have hsrc : ∀ (q : Fld) j, (∀ f ∈ jobsCells, f.id ≠ q.id) → (∀ f ∈ systemCells, f.id ≠ q.id) → (∀ f ∈ [I.mlsLatch, I.mlsPost], f.id ≠ q.id) →
      (snapJobs (snapSystem (latched s) o.toNat)).rd q j = s.rd q j := fun q j h1 h2 h3 =>
    (hjobs q j h1).trans ((hsys q j h2).trans (latched_other s q j h3))
  have hend : ∀ (q : Fld) j, I.mlOut.id ≠ q.id → F.MLS_IRQSTAT_TAKEN.id ≠ q.id →
      (latchDone s o.toNat).rd q j = (snapMedia (snapJobs (snapSystem (latched s) o.toNat))).rd q j := fun q j h1 h2 =>
    (latchDone_rd _ _ _ _ h1).trans (State.rd_wr_cell _ _ _ _ _ _ h2)
  obtain ⟨hlatch, hpost⟩ := latched_says s
  refine ⟨?_, ?_, ?_, fun n hn => ?_, fun b hb => ?_, fun p hp => ⟨?_, ?_⟩, ?_, ?_, ?_, ?_⟩
  · exact (latchDone_rd _ _ _ _ (by decide)).trans ((snapped_rd _ _ _ _ (by decide) (by decide)).trans hlatch)
  · exact (latchDone_rd _ _ _ _ (by decide)).trans ((State.rd_wr_same _ F.MLS_IRQSTAT_TAKEN _ _).trans rfl)
  · rw [hend _ _ (by decide) (by decide), hmedia _ _ (by decide), hjobs _ _ (by decide), hofs]
    exact Nat.mod_eq_of_lt o.isLt
  · rw [hend _ _ (by decide) (by decide), hdata n hn, hsrc _ _ (by decide) (by decide) (by decide)]
  · rw [hend _ _ (by decide) (by decide), htimes b hb, hsrc _ _ (by decide) (by decide) (by decide)]
  · rw [hend _ _ (by decide) (by decide), (hframes p hp).1, hsrc _ _ (by decide) (by decide) (by decide)]
  · rw [hend _ _ (by decide) (by decide), (hframes p hp).2, hsrc _ _ (by decide) (by decide) (by decide)]
  · exact (latchDone_rd _ _ _ _ (by decide)).trans ((snapped_rd _ _ _ _ (by decide) (by decide)).trans hpost)
  · have hold : (snapped s o.toNat).rd I.mlOut = s.rd I.mlOut :=
      (snapped_rd _ _ _ _ (by decide) (by decide)).trans (latched_other s _ _ (by decide))
    unfold latchDone
    by_cases h : s.rd F.MLS_OUTCFG_EN = 1
    · rw [if_pos h, if_pos h, State.set_eq_wr, State.rd_wr_same]
      rfl
    · rw [if_neg h, if_neg h, hold]
  · have hsnap : SameOtherCells s (snapped s o.toNat) ([I.mlsLatch, I.mlsPost, I.mlOut, F.MLS_IRQSTAT_TAKEN] ++ blockSnaps) :=
      .wr (((latched_other s).mono (by simp)).trans ((snaps_other _ _).mono fun _ h => List.mem_append_right _ h)) (by simp)
    have hall : SameOtherCells s (latchDone s o.toNat) ([I.mlsLatch, I.mlsPost, I.mlOut, F.MLS_IRQSTAT_TAKEN] ++ blockSnaps) := by
      unfold latchDone
      split
      · exact .wr hsnap (by simp)
      · exact hsnap
    refine hall.mono fun f h => ?_
    rcases List.mem_append.mp h with h | h
    · exact List.mem_append_left _ h
    · refine List.mem_append_right _ ?_
      unfold blockSnaps systemCells jobsCells mediaCells1 mediaCells2 at h
      unfold snapCells
      simp only [List.cons_append, List.nil_append] at h
      exact h
  · have hsnap : OnlyDrawn s (snapped s o.toNat) := ((snaps_drawn (latched s) o.toNat).after (latched_but s)).then (.wr (.refl _))
    have hall : OnlyDrawn s (latchDone s o.toNat) := by
      unfold latchDone
      split
      · exact hsnap.then (.wr (.refl _))
      · exact hsnap
    exact hall
end

/-- Settles O54: Milestones, each clause from the lemma of its case. -/
theorem milestonesAreTakenOrMissed : Obligations.MilestonesAreTakenOrMissed := by
  unfold Obligations.MilestonesAreTakenOrMissed
  intro s
  refine ⟨fun hf => ?_, fun hf => ⟨fun n => triggers_plain (mlsTrigger_exec n hf), fun r => ⟨mlinEdge_other, fun h => triggers_plain (mlinEdge_taken hf h)⟩,
    fun ini v => ⟨fun h => ⟨mlsTrigWrite_no h, mlsArmWrite_no h⟩, fun h => ⟨triggers_plain (mlsTrigWrite_exec hf h), mlsArmWrite_armed hf h⟩⟩,
    fun d q => ⟨mlstone_discarded, mlstone_triggers hf⟩, fun o => ⟨fun h => ?_, latch_says hf⟩⟩, fun h => ?_, fun h => ?_, rfl⟩
  · have hno : ∀ {t : State}, (if s.fabric = true then go t else go s) = .next s := if_neg (by rw [hf]; decide)
    have hand : ∀ {t : State} {b : Bool}, (if (s.fabric && b) = true then go t else go s) = .next s := if_neg (by rw [hf, Bool.false_and]; decide)
    exact ⟨fun n => hno, fun r => hand, fun ini v => ⟨hno, hno⟩, fun d q => hno, fun o => hand⟩
  · exact if_neg (by rw [on_of_zero h, Bool.and_false]; decide)
  · exact if_neg (by simpa using h)
  · exact if_pos (by rw [h]; rfl)

end Sys2Proof.Machine
end

section
/-! PROOFS.  The debug port: its instructions, its challenge, its accesses and its halts (O55). -/

namespace Sys2Proof.Machine

open Safety

set_option Elab.async false

/-! ### The test access port -/

section
variable {s : State}

theorem boundaryScan_iff (s : State) (ir : BitVec 8) :
    ((s.set I.dbgIr ir.toNat).serving && (ir == 3#8 || ir == 4#8 || ir == 5#8)) = true ↔ s.serving = true ∧ ir.toNat ∈ [3, 4, 5] := by
  have hnat : ∀ n : BitVec 8, (ir == n) = true ↔ ir.toNat = n.toNat := fun n => beq_iff_eq.trans BitVec.toNat_inj.symm
  rw [State.set_eq_wr, serving_wr _ _ _ _ (by decide)]
  simp only [Bool.and_eq_true, Bool.or_eq_true, hnat, List.mem_cons, List.not_mem_nil, or_false, or_assoc]
  rfl

theorem tapLoad_plain {ir : BitVec 8} (h : ¬ (s.serving = true ∧ ir.toNat ∈ [3, 4, 5])) :
    Puts (.tapInstructionLoad ir) s [(I.dbgIr, 0, ir.toNat)] := if_neg (mt (boundaryScan_iff s ir).mp h)

theorem tapLoad_scan {ir : BitVec 8} (h : s.serving = true ∧ ir.toNat ∈ [3, 4, 5]) :
    exec (.tapInstructionLoad ir) s = .next (fatalError (puts s [(I.dbgIr, 0, ir.toNat)]) 5) := if_pos ((boundaryScan_iff s ir).mpr h)

/-! ### The challenge -/

theorem dbgchal_no (h : debugLevel s ≠ 1 ∨ s.rd I.dbgIr ≠ 0x10) : exec .dbgchal s = .next s := by
  refine if_neg fun hh => ?_
  simp only [Bool.and_eq_true, beq_iff_eq] at hh
  exact h.elim (· hh.1) (· hh.2)

/-- The state with a nonce drawn. -/
def withNonce (s : State) : State := puts { s with freeCtr := s.freeCtr + 1 } [(I.dbgNonce, 0, Config.freeNat s.freeCtr), (I.dbgChal, 0, 1)]

theorem dbgchal_draws (hl : debugLevel s = 1) (hi : s.rd I.dbgIr = 0x10) : exec .dbgchal s = .next (withNonce s) :=
  if_pos (by rw [hl, hi]; rfl)

theorem dbgchal_says (hl : debugLevel s = 1) (hi : s.rd I.dbgIr = 0x10) :
    Does .dbgchal s fun t => t.rd I.dbgNonce = Config.freeNat s.freeCtr % 2 ^ I.dbgNonce.w ∧
      t.rd I.dbgChal = 1 ∧ SameCells s t [(I.dbgNonce, 0), (I.dbgChal, 0)] ∧ t = { s with cells := t.cells, freeCtr := s.freeCtr + 1 } := by
  refine Does.of_next (dbgchal_draws hl hi) ⟨puts_rd_at [I.dbgNonce, I.dbgChal] 0 (by decide), (puts_rd_at [I.dbgNonce, I.dbgChal] 1 (by decide)).trans rfl, ?_, rfl⟩
  exact SameCells.of_rd (s := s) (OnlyCells.wr (.wr (.refl _ _) (.head _)) (.tail _ (.head _))).2 fun _ _ => rfl

/-- A response is taken. -/
def ResponseTaken (s : State) : Prop := debugLevel s = 1 ∧ s.rd I.dbgIr = 0x11 ∧ s.rd I.dbgFails < 3

theorem responseTaken_iff (s : State) : (debugLevel s == 1 && s.rd I.dbgIr == 0x11 && decide (s.rd I.dbgFails < 3)) = true ↔ ResponseTaken s := by
  unfold ResponseTaken
  simp only [Bool.and_eq_true, beq_iff_eq, decide_eq_true_eq, and_assoc]

variable {slot : BitVec 2} {key sig : List Byte}

theorem dbgresp_no (h : ¬ ResponseTaken s) : exec (.dbgresp slot key sig) s = .next s := if_neg (mt (responseTaken_iff s).mp h)

theorem dbgresp_unlocks (h : ResponseTaken s) (hok : responseOk s slot.toNat key sig = true) :
    Puts (.dbgresp slot key sig) s [(I.dbgChal, 0, 0), (I.dbgUnl, 0, 1)] :=
  (if_pos ((responseTaken_iff s).mpr h)).trans (congrArg _ (if_pos hok))

theorem dbgresp_fails (h : ResponseTaken s) (hok : responseOk s slot.toNat key sig = false) :
    Puts (.dbgresp slot key sig) s [(I.dbgChal, 0, 0), (I.dbgFails, 0, s.rd I.dbgFails + 1)] := by
  have hrd : (s.set I.dbgChal 0).rd I.dbgFails = s.rd I.dbgFails := State.rd_wr_cell _ I.dbgChal I.dbgFails _ _ _ (by decide)
  refine (if_pos ((responseTaken_iff s).mpr h)).trans (congrArg _ ?_)
  rw [hok, if_neg Bool.false_ne_true, hrd]
  rfl

/-! ### Accesses -/

variable {op : BitVec 2} {a : PAddr} {v : Word}

theorem dbgacc_no (h : s.rd I.dbgIr ≠ 0x20 ∨ s.fabric = false) : exec (.dbgacc op a v) s = .next s := by
  refine if_pos ?_
  rcases h with h | h <;> simp [h]

theorem dbgacc_guard (hi : s.rd I.dbgIr = 0x20) (hf : s.fabric = true) : ¬ (s.rd I.dbgIr != 0x20 || !s.fabric) = true := by simp [hi, hf]

theorem dbgacc_unavailable (hi : s.rd I.dbgIr = 0x20) (hf : s.fabric = true) (h : dbgAvail s = false) :
    Puts (.dbgacc op a v) s [(I.dbgStatus, 0, 3)] :=
  (if_neg (dbgacc_guard hi hf)).trans (if_pos (by rw [h]; rfl))

theorem dbgacc_available (hi : s.rd I.dbgIr = 0x20) (hf : s.fabric = true) (h : dbgAvail s = true) : exec (.dbgacc op a v) s =
    if op = 2#2 then .next ((busWrite s .dbg a.toNat (leBytes 4 v.toNat)).2.set I.dbgStatus (dbgStatusOf (busWrite s .dbg a.toNat (leBytes 4 v.toNat)).1))
    else if op = 1#2 then .next ((((busRead s .dbg a.toNat 4).2.2.set I.dbgStatus (dbgStatusOf (busRead s .dbg a.toNat 4).1)).set I.dbgData
      (busRead s .dbg a.toNat 4).2.1).seen (initCode .dbg) (busRead s .dbg a.toNat 4).2.1)
    else .next s :=
  (if_neg (dbgacc_guard hi hf)).trans (if_neg (by rw [h]; decide))

theorem dbgStatusOf_eq (e : Ending) : dbgStatusOf e = if e = .ok then 0 else 2 := by cases e <;> rfl

theorem dbgacc_none (hi : s.rd I.dbgIr = 0x20) (hf : s.fabric = true) (h : dbgAvail s = true) (hop : op.toNat = 0 ∨ op.toNat = 3) :
    exec (.dbgacc op a v) s = .next s := by
  rw [dbgacc_available hi hf h, if_neg, if_neg]
  · rintro rfl
    exact absurd hop (by decide)
  · rintro rfl
    exact absurd hop (by decide)

theorem dbgacc_write (hi : s.rd I.dbgIr = 0x20) (hf : s.fabric = true) (h : dbgAvail s = true) (hop : op.toNat = 2) : exec (.dbgacc op a v) s =
    .next ((busWrite s .dbg a.toNat (leBytes 4 v.toNat)).2.wr I.dbgStatus 0 (if (busWrite s .dbg a.toNat (leBytes 4 v.toNat)).1 = .ok then 0 else 2)) := by
  rw [dbgacc_available hi hf h, if_pos (BitVec.eq_of_toNat_eq hop), dbgStatusOf_eq]
  rfl

theorem dbgacc_read (hi : s.rd I.dbgIr = 0x20) (hf : s.fabric = true) (h : dbgAvail s = true) (hop : op.toNat = 1) : exec (.dbgacc op a v) s =
    .next ((((busRead s .dbg a.toNat 4).2.2.wr I.dbgStatus 0 (if (busRead s .dbg a.toNat 4).1 = .ok then 0 else 2)).wr I.dbgData 0
      (busRead s .dbg a.toNat 4).2.1).seen (initCode .dbg) (busRead s .dbg a.toNat 4).2.1) := by
  have hop1 : op = 1#2 := BitVec.eq_of_toNat_eq hop
  rw [dbgacc_available hi hf h, if_neg (by rw [hop1]; decide), if_pos hop1, dbgStatusOf_eq]
  rfl
end

/-! ### Halts -/

/-- A halt register and its state register: the bits of cores base to base + n − 1. -/
structure HaltGroup (req fld : Fld) (base n : Nat) : Prop where
  req_bit : ∀ (s : State) k, k < n → haltReq s (base + k) = bitOf (s.rd req) k
  fld_bit : ∀ (s : State) k, k < n → halted s (base + k) = bitOf (s.rd fld) k
  set_bit : ∀ (s : State) k b, k < n → setHalted s (base + k) b = s.wr fld 0 (putBit (s.rd fld) k b)
  apart : req.id ≠ fld.id ∧ req.id ≠ I.qstall.id ∧ I.qstall.id ≠ fld.id
  jobs : ∀ f ∈ [req, fld], f.id ≠ I.cJob.id ∧ f.id ≠ I.jCancel.id
  wide : n ≤ req.w ∧ n ≤ fld.w

theorem haltGroup_lo : HaltGroup F.MLS_DBG_HALT_LO_CORES F.MLS_DBG_HALTED_LO_CORES 0 32 where
  req_bit s k hk := by
    rw [Nat.zero_add]
    exact if_pos hk
  fld_bit s k hk := by
    rw [Nat.zero_add]
    exact if_pos hk
  set_bit s k b hk := by
    rw [Nat.zero_add]
    exact if_pos hk
  apart := by decide
  jobs := by decide
  wide := by decide

theorem haltGroup_hi : HaltGroup F.MLS_DBG_HALT_HI_CORES F.MLS_DBG_HALTED_HI_CORES 32 32 where
  req_bit s k hk := by
    unfold haltReq coreBit
    rw [if_neg (by omega), if_pos (by omega), Nat.add_sub_cancel_left]
  fld_bit s k hk := by
    unfold halted coreBit
    rw [if_neg (by omega), if_pos (by omega), Nat.add_sub_cancel_left]
  set_bit s k b hk := by
    unfold setHalted
    rw [if_neg (by omega), if_pos (by omega), Nat.add_sub_cancel_left]
    rfl
  apart := by decide
  jobs := by decide
  wide := by decide

theorem haltGroup_svc : HaltGroup F.MLS_DBG_HALT_SVC_CORES F.MLS_DBG_HALTED_SVC_CORES 64 4 where
  req_bit s k hk := by
    unfold haltReq coreBit
    rw [if_neg (by omega), if_neg (by omega), Nat.add_sub_cancel_left]
  fld_bit s k hk := by
    unfold halted coreBit
    rw [if_neg (by omega), if_neg (by omega), Nat.add_sub_cancel_left]
  set_bit s k b hk := by
    unfold setHalted
    rw [if_neg (by omega), if_neg (by omega), Nat.add_sub_cancel_left]
    rfl
  apart := by decide
  jobs := by decide
  wide := by decide

/-- The three groups as a halt command names them. -/
def HaltNames (svc hi : Bool) (req fld : Fld) (base n : Nat) : Prop :=
  (svc = false ∧ hi = false ∧ req = F.MLS_DBG_HALT_LO_CORES ∧ fld = F.MLS_DBG_HALTED_LO_CORES ∧ base = 0 ∧ n = 32) ∨
    (svc = false ∧ hi = true ∧ req = F.MLS_DBG_HALT_HI_CORES ∧ fld = F.MLS_DBG_HALTED_HI_CORES ∧ base = 32 ∧ n = 32) ∨
    (svc = true ∧ req = F.MLS_DBG_HALT_SVC_CORES ∧ fld = F.MLS_DBG_HALTED_SVC_CORES ∧ base = 64 ∧ n = 4)

section
variable {s t : State} {svc hi : Bool} {req fld : Fld} {base n k : Nat} {v : Word}

theorem HaltNames.group (h : HaltNames svc hi req fld base n) : HaltGroup req fld base n := by
  obtain ⟨-, -, rfl, rfl, rfl, rfl⟩ | ⟨-, -, rfl, rfl, rfl, rfl⟩ | ⟨-, rfl, rfl, rfl, rfl⟩ := h
  · exact haltGroup_lo
  · exact haltGroup_hi
  · exact haltGroup_svc

theorem HaltNames.exec (h : HaltNames svc hi req fld base n) (hf : s.fabric = true) :
    exec (.dbgHalt .dbg svc hi v) s = .next ((s.wr req 0 v.toNat).over ((List.range n).map (base + ·)) haltFollow) := by
  refine (if_pos hf).trans (congrArg _ ?_)
  obtain ⟨rfl, rfl, rfl, rfl, rfl, rfl⟩ | ⟨rfl, rfl, rfl, rfl, rfl, rfl⟩ | ⟨rfl, rfl, rfl, rfl, rfl⟩ := h
  · rfl
  · rfl
  · rfl

/-- A core whose state is what its bit asks for does not change. -/
theorem haltFollow_even {c : Nat} (h : haltReq s c = halted s c) : haltFollow s c = s := by
  unfold haltFollow
  cases hc : halted s c
  · rw [h, hc]
    rfl
  · rw [h, hc]
    rfl

/-- One core of a group changes its state, the others follow no change. -/
theorem haltFollow_one {u : State} (hk : k < n) (hu : ∀ d, d < n → d ≠ k → haltReq u (base + d) = halted u (base + d)) (hone : haltFollow u (base + k) = t)
    (ht : ∀ d, d < n → d ≠ k → haltReq t (base + d) = halted t (base + d)) : u.over ((List.range n).map (base + ·)) haltFollow = t := by
  refine over_one (c := base + k) (pre := (List.range k).map (base + ·)) (post := (List.range' (k + 1) (n - k - 1)).map (base + ·)) ?_ ?_ hone ?_
  · rw [range_split hk, List.map_append, List.map_cons]
  · intro d hd
    obtain ⟨e, he, rfl⟩ := List.mem_map.mp hd
    have := List.mem_range.mp he
    exact haltFollow_even (hu e (by omega) (by omega))
  · intro d hd
    obtain ⟨e, he, rfl⟩ := List.mem_map.mp hd
    have := List.mem_range'_1.mp he
    exact haltFollow_even (ht e (by omega) (by omega))

theorem bitOf_zero (k : Nat) : bitOf 0 k = false := by
  unfold bitOf
  rw [Nat.zero_div]
  rfl

theorem putBit_set (k : Nat) : putBit 0 k true = 2 ^ k := by
  unfold putBit setBit
  rw [bitOf_zero, if_pos rfl, if_neg Bool.false_ne_true, Nat.zero_add]

theorem putBit_clear (k : Nat) : putBit (2 ^ k) k false = 0 := by
  unfold putBit clrBit
  rw [bitOf_two_pow, decide_eq_true rfl, if_neg Bool.false_ne_true, if_pos rfl, Nat.sub_self]

/-- Core c halted in its group, after its bit was asked for. -/
def haltedState (s : State) (req fld : Fld) (base k : Nat) : State :=
  State.wr { (s.wr req 0 (2 ^ k)).wr I.qstall (base + k) 0 with bundles := Tbl.drop (base + k) s.bundles } fld 0 (2 ^ k)

theorem haltedState_rd (s : State) (req fld q : Fld) (base k j : Nat) (h : fld.id ≠ q.id) :
    (haltedState s req fld base k).rd q j = ((s.wr req 0 (2 ^ k)).wr I.qstall (base + k) 0).rd q j := State.rd_wr_cell _ _ _ _ _ _ h

theorem HaltGroup.halts (h : HaltGroup req fld base n) (hk : k < n) (hfree : s.rd fld = 0) (hb : atBoundary s (base + k) = true) :
    (s.wr req 0 (2 ^ k)).over ((List.range n).map (base + ·)) haltFollow = haltedState s req fld base k := by
  obtain ⟨hrf, hrq, hqf⟩ := h.apart
  have hpow : 2 ^ k < 2 ^ req.w ∧ 2 ^ k < 2 ^ fld.w :=
    ⟨Nat.pow_lt_pow_right (by decide) (hk.trans_le h.wide.1), Nat.pow_lt_pow_right (by decide) (hk.trans_le h.wide.2)⟩
  have hreq : (s.wr req 0 (2 ^ k)).rd req = 2 ^ k := (State.rd_wr_same _ _ _ _).trans (Nat.mod_eq_of_lt hpow.1)
  have hfld : (s.wr req 0 (2 ^ k)).rd fld = 0 := (State.rd_wr_cell _ _ _ _ _ _ hrf).trans hfree
  have hreq' : (haltedState s req fld base k).rd req = 2 ^ k :=
    (haltedState_rd _ _ _ _ _ _ _ (Ne.symm hrf)).trans ((State.rd_wr_cell _ _ _ _ _ _ (Ne.symm hrq)).trans hreq)
  have hfld' : (haltedState s req fld base k).rd fld = 2 ^ k := (State.rd_wr_same _ _ _ _).trans (Nat.mod_eq_of_lt hpow.2)
  refine haltFollow_one hk (fun d hd hne => ?_) ?_ (fun d hd hne => ?_)
  · rw [h.req_bit _ _ hd, h.fld_bit _ _ hd, hreq, hfld, bitOf_two_pow, bitOf_zero, decide_eq_false (Ne.symm hne)]
  · have hbound : atBoundary (s.wr req 0 (2 ^ k)) (base + k) = true := by
      unfold atBoundary at hb ⊢
      rw [State.on_eq, State.rd_wr_cell _ _ _ _ _ _ hrq]
      exact hb
    have hqst : (State.wr (s.wr req 0 (2 ^ k)) I.qstall (base + k) 0).rd fld = 0 := (State.rd_wr_cell _ _ _ _ _ _ hqf).trans hfld
    unfold haltFollow haltNow
    rw [h.req_bit _ _ hk, h.fld_bit _ _ hk, hreq, hfld, bitOf_two_pow, bitOf_zero, decide_eq_true rfl, if_pos rfl, if_neg Bool.false_ne_true, if_pos hbound,
      h.set_bit _ _ _ hk]
    show State.wr _ fld 0 (putBit ((State.wr (s.wr req 0 (2 ^ k)) I.qstall (base + k) 0).rd fld) k true) = _
    rw [hqst, putBit_set]
    rfl
  · rw [h.req_bit _ _ hd, h.fld_bit _ _ hd, hreq', hfld']

theorem dbgHalt_halts (h : HaltNames svc hi req fld base n) (hf : s.fabric = true) (hk : k < n) (hv : v.toNat = 2 ^ k) (hfree : s.rd fld = 0)
    (hb : atBoundary s (base + k) = true) : Does (.dbgHalt .dbg svc hi v) s fun t =>
      t.rd req = v.toNat ∧ t.rd fld = v.toNat ∧ bundleOf t (base + k) = Bundle.empty ∧ (∀ d, d ≠ base + k → bundleOf t d = bundleOf s d) ∧
      SameCells s t [(req, 0), (fld, 0), (I.qstall, base + k)] ∧ t = { s with cells := t.cells, bundles := t.bundles } := by
  have hg := h.group
  obtain ⟨hrf, hrq, hqf⟩ := hg.apart
  have hpow : 2 ^ k < 2 ^ req.w ∧ 2 ^ k < 2 ^ fld.w :=
    ⟨Nat.pow_lt_pow_right (by decide) (hk.trans_le hg.wide.1), Nat.pow_lt_pow_right (by decide) (hk.trans_le hg.wide.2)⟩
  have hexec := h.exec (v := v) hf
  rw [hv, hg.halts hk hfree hb] at hexec
  rw [hv]
  refine Does.of_next hexec ⟨?_, ?_, ?_, fun d hd => ?_, ?_, rfl⟩
  · exact (haltedState_rd _ _ _ _ _ _ _ (Ne.symm hrf)).trans
      ((State.rd_wr_cell _ _ _ _ _ _ (Ne.symm hrq)).trans ((State.rd_wr_same _ _ _ _).trans (Nat.mod_eq_of_lt hpow.1)))
  · exact (State.rd_wr_same _ _ _ _).trans (Nat.mod_eq_of_lt hpow.2)
  · show Tbl.get Bundle.empty (Tbl.drop (base + k) s.bundles) (base + k) = _
    rw [Tbl.get_drop, if_pos rfl]
  · show Tbl.get Bundle.empty (Tbl.drop (base + k) s.bundles) d = _
    rw [Tbl.get_drop, if_neg (Ne.symm hd)]
    rfl
  · intro g j hg'
    have hne : ∀ p ∈ [(req, 0), (fld, 0), (I.qstall, base + k)], p.1.id = g.id → p.2 ≠ j := hg'
    have h1 : (haltedState s req fld base k).rd g j = ((s.wr req 0 (2 ^ k)).wr I.qstall (base + k) 0).rd g j :=
      State.rd_wr_other _ _ _ _ _ _ (hne (fld, 0) (by simp))
    rw [h1, State.rd_wr_other _ _ _ _ _ _ (hne (I.qstall, base + k) (by simp)), State.rd_wr_other _ _ _ _ _ _ (hne (req, 0) (by simp))]

theorem HaltGroup.resumes (h : HaltGroup req fld base n) (hk : k < n) (hheld : s.rd fld = 2 ^ k)
    (hc : 64 ≤ base + k ∨ s.rd I.cJob (base + k) = 0 ∨ s.rd I.jCancel (s.rd I.cJob (base + k) - 1) = 0) :
    (s.wr req 0 0).over ((List.range n).map (base + ·)) haltFollow = puts s [(req, 0, 0), (fld, 0, 0)] := by
  obtain ⟨hrf, hrq, hqf⟩ := h.apart
  have hreq : (s.wr req 0 0).rd req = 0 := (State.rd_wr_same _ _ _ _).trans (Nat.zero_mod _)
  have hfld : (s.wr req 0 0).rd fld = 2 ^ k := (State.rd_wr_cell _ _ _ _ _ _ hrf).trans hheld
  have hreq' : (puts s [(req, 0, 0), (fld, 0, 0)]).rd req = 0 := (State.rd_wr_cell _ _ _ _ _ _ (Ne.symm hrf)).trans hreq
  have hfld' : (puts s [(req, 0, 0), (fld, 0, 0)]).rd fld = 0 := (State.rd_wr_same _ _ _ _).trans (Nat.zero_mod _)
  refine haltFollow_one hk (fun d hd hne => ?_) ?_ (fun d hd hne => ?_)
  · rw [h.req_bit _ _ hd, h.fld_bit _ _ hd, hreq, hfld, bitOf_two_pow, bitOf_zero, decide_eq_false (Ne.symm hne)]
  · have hset : setHalted (s.wr req 0 0) (base + k) false = puts s [(req, 0, 0), (fld, 0, 0)] := by
      rw [h.set_bit _ _ _ hk, hfld, putBit_clear]
      rfl
    have hjob : ∀ (q : Fld) j, req.id ≠ q.id → fld.id ≠ q.id → (puts s [(req, 0, 0), (fld, 0, 0)]).rd q j = s.rd q j := fun q j h1 h2 =>
      (State.rd_wr_cell _ _ _ _ _ _ h2).trans (State.rd_wr_cell _ _ _ _ _ _ h1)
    obtain ⟨hrj, hrc⟩ := h.jobs req (by simp)
    obtain ⟨hfj, hfc⟩ := h.jobs fld (by simp)
    unfold haltFollow resumeCore
    rw [h.req_bit _ _ hk, h.fld_bit _ _ hk, hreq, hfld, bitOf_two_pow, bitOf_zero, decide_eq_true rfl, if_neg Bool.false_ne_true, if_pos rfl]
    dsimp only
    rw [hset]
    refine if_neg fun hh => ?_
    simp only [Bool.and_eq_true, decide_eq_true_eq, State.on_eq, bne_iff_ne, hjob I.cJob _ hrj hfj, hjob I.jCancel _ hrc hfc] at hh
    obtain ⟨⟨⟨hlt, hj⟩, hcan⟩, -⟩ := hh
    rcases hc with hc | hc | hc
    · omega
    · exact hj hc
    · exact hcan hc
  · rw [h.req_bit _ _ hd, h.fld_bit _ _ hd, hreq', hfld']

theorem dbgHalt_resumes (h : HaltNames svc hi req fld base n) (hf : s.fabric = true) (hk : k < n) (hv : v.toNat = 0) (hheld : s.rd fld = 2 ^ k)
    (hc : 64 ≤ base + k ∨ s.rd I.cJob (base + k) = 0 ∨ s.rd I.jCancel (s.rd I.cJob (base + k) - 1) = 0) :
    Puts (.dbgHalt .dbg svc hi v) s [(req, 0, 0), (fld, 0, 0)] := by
  have hexec := h.exec (v := v) hf
  rw [hv, h.group.resumes hk hheld hc] at hexec
  exact hexec
end

/-! ### Steps and registers of a halted core -/

section
variable {s : State} {ini : Init} {v : Word}

/-- No initiator but the debug port does anything with its registers. -/
theorem debug_other (hf : s.fabric = true) (hi : ini ≠ .dbg) : (∀ a b, exec (.dbgHalt ini a b v) s = .next s) ∧ exec (.dbgStep ini v) s = .next s ∧
    exec (.dbgRegdataWrite ini v) s = .next s :=
  ⟨fun _ _ => (if_pos hf).trans (congrArg _ (if_neg hi)), (if_pos hf).trans (congrArg _ (if_neg hi)), (if_pos hf).trans (congrArg _ (if_neg hi))⟩

/-- The cells of a selected step. -/
def stepCells (c : Nat) : List (Fld × Nat × Nat) := [(F.MLS_DBG_STEP_CORE, 0, c), (F.MLS_DBG_STEP_GO, 0, 0)]

/-- The fields of a step. -/
def stepFields : List Fld := [F.MLS_DBG_STEP_CORE, F.MLS_DBG_STEP_GO]

theorem step_rd (s : State) (c : Nat) (q : Fld) (j : Nat) (h : ∀ f ∈ stepFields, f.id ≠ q.id) : (puts s (stepCells c)).rd q j = s.rd q j :=
  puts_rd_other stepFields q j h

theorem step_halted (s : State) (c d : Nat) : halted (puts s (stepCells c)) d = halted s d := by
  unfold halted coreBit
  rw [step_rd s c F.MLS_DBG_HALTED_LO_CORES 0 (by decide), step_rd s c F.MLS_DBG_HALTED_HI_CORES 0 (by decide),
    step_rd s c F.MLS_DBG_HALTED_SVC_CORES 0 (by decide)]

theorem step_live (s : State) (c d : Nat) : coreLive (puts s (stepCells c)) d = coreLive s d := by
  unfold coreLive State.serving State.fabric State.mode cluSt
  simp only [State.on_eq]
  simp (disch := decide) only [step_rd]

/-- A step lets a bundle issue. -/
def StepGoes (s : State) (x : Nat) : Prop := bitOf x 31 = true ∧ bits x 6 0 ≤ 0x43 ∧ halted s (bits x 6 0) = true ∧ coreLive s (bits x 6 0) = true

theorem dbgStep_next (hf : s.fabric = true) : exec (.dbgStep .dbg v) s = .next (stepWrite s .dbg v.toNat) := if_pos hf

theorem stepWrite_of_le (s : State) {x : Nat} (h : bits x 6 0 ≤ 0x43) : stepWrite s .dbg x =
    if (bitOf x 31 && halted s (bits x 6 0) && coreLive s (bits x 6 0)) = true then (puts s (stepCells (bits x 6 0))).set F.MLS_DBG_STEP_GO 1
    else puts s (stepCells (bits x 6 0)) := by
  rw [← step_halted s (bits x 6 0), ← step_live s (bits x 6 0)]
  unfold stepWrite coreOfCode
  rw [if_pos rfl, if_pos h]
  rfl

theorem stepWrite_of_gt (s : State) {x : Nat} (h : ¬ bits x 6 0 ≤ 0x43) : stepWrite s .dbg x = puts s (stepCells (bits x 6 0)) := by
  unfold stepWrite coreOfCode
  rw [if_pos rfl, if_neg h]
  rfl

theorem dbgStep_goes (hf : s.fabric = true) (h : StepGoes s v.toNat) :
    Puts (.dbgStep .dbg v) s (stepCells (bits v.toNat 6 0) ++ [(F.MLS_DBG_STEP_GO, 0, 1)]) := by
  obtain ⟨hgo, hc, hh, hl⟩ := h
  refine (dbgStep_next hf).trans (congrArg _ ?_)
  rw [stepWrite_of_le s hc, hgo, hh, hl, puts_append]
  rfl

theorem dbgStep_only (hf : s.fabric = true) (h : ¬ StepGoes s v.toNat) : Puts (.dbgStep .dbg v) s (stepCells (bits v.toNat 6 0)) := by
  refine (dbgStep_next hf).trans (congrArg _ ?_)
  by_cases hc : bits v.toNat 6 0 ≤ 0x43
  · rw [stepWrite_of_le s hc, if_neg]
    intro hh
    simp only [Bool.and_eq_true] at hh
    exact h ⟨hh.1.1, hc, hh.1.2, hh.2⟩
  · exact stepWrite_of_gt s hc

/-- The register that MLS_DBG_REGSEL names. -/
def selCore (s : State) : Nat := s.rd F.MLS_DBG_REGSEL_CORE

/-- Its offset in the view of the core. -/
def selOfs (s : State) : Nat := 4 * s.rd F.MLS_DBG_REGSEL_OFS

theorem regdata_none (hf : s.fabric = true) (h : 0x43 < selCore s ∨ halted s (selCore s) = false) : exec (.dbgRegdataWrite .dbg v) s = .next s := by
  refine (if_pos hf).trans (congrArg _ ?_)
  unfold regdataWrite coreOfCode
  rw [if_pos rfl]
  change (match (if selCore s ≤ 0x43 then some (selCore s) else none) with
    | some c => if halted s c = true then debugRegWrite s c (selOfs s) v.toNat else s
    | none => s) = s
  by_cases hc : selCore s ≤ 0x43
  · rw [if_pos hc]
    exact if_neg (by rw [h.resolve_left (by omega)]; decide)
  · rw [if_neg hc]

theorem regdata_written (hf : s.fabric = true) (hc : selCore s ≤ 0x43) (hh : halted s (selCore s) = true) :
    exec (.dbgRegdataWrite .dbg v) s = .next (debugRegWrite s (selCore s) (selOfs s) v.toNat) := by
  refine (if_pos hf).trans (congrArg _ ?_)
  unfold regdataWrite coreOfCode
  rw [if_pos rfl]
  change (match (if selCore s ≤ 0x43 then some (selCore s) else none) with
    | some c => if halted s c = true then debugRegWrite s c (selOfs s) v.toNat else s
    | none => s) = _
  rw [if_pos hc]
  exact if_pos hh

theorem debugRegWrite_signal {c : Nat} (hc : c < 64) (off x : Nat) : debugRegWrite s c off x = recordWrite s (rbank s c) off x := by
  have hs : isSvc c = false := decide_eq_false (by omega)
  unfold debugRegWrite
  rw [hs]
  rfl

theorem debugRegWrite_svc_none {c off : Nat} (hc : 64 ≤ c) (x : Nat) (h : svcRegAt off = none) :
    debugRegWrite s c off x = if 0x1A0 ≤ off then s else recordWrite s (rbank s c) off x := by
  have hs : isSvc c = true := decide_eq_true hc
  unfold debugRegWrite
  rw [hs, if_pos rfl, h]
  dsimp only
  rw [Bool.true_and]
  simp only [decide_eq_true_eq]

theorem debugRegWrite_svc_some {c off r : Nat} (hc : 64 ≤ c) (x : Nat) (h : svcRegAt off = some r) :
    debugRegWrite s c off x = puts s [(I.scr, 16 * (c - 64) + r, Nat.land x (scrMask r))] := by
  have hs : isSvc c = true := decide_eq_true hc
  unfold debugRegWrite
  rw [hs, if_pos rfl, h]
  rfl

theorem svcRegAt_low {off : Nat} (h : off < 0x1A0) : svcRegAt off = none := by
  unfold svcRegAt
  rw [if_neg (by simp; omega), if_neg (by simp; omega)]

theorem svcRegAt_high {off : Nat} (h : 0x1C0 < off) : svcRegAt off = none := by
  unfold svcRegAt
  rw [if_neg (by simp; omega), if_neg (by simp; omega)]
end

/-- Settles O55: the debug port, each clause from the lemma of its case. -/
theorem debugPortUnlocksHaltsAndAccesses : Obligations.DebugPortUnlocksHaltsAndAccesses := by
  unfold Obligations.DebugPortUnlocksHaltsAndAccesses
  intro s
  refine ⟨rfl, fun ir => ⟨tapLoad_plain, tapLoad_scan⟩, dbgchal_no, dbgchal_says, fun slot key sig => ⟨dbgresp_no, dbgresp_unlocks, dbgresp_fails⟩,
    fun op a v => ⟨dbgacc_no, fun hi hf => ⟨dbgacc_unavailable hi hf, fun h => ⟨dbgacc_none hi hf h, dbgacc_write hi hf h, dbgacc_read hi hf h⟩⟩⟩,
    fun hf => ⟨fun ini v => debug_other hf, fun svc hi req fld base n k v h hk => ⟨dbgHalt_halts h hf hk, dbgHalt_resumes h hf hk⟩,
      fun v => ⟨⟨dbgStep_goes hf, dbgStep_only hf⟩, regdata_none hf, fun hc hh => ?_, fun hlo hc hh => ⟨fun hoff => ?_, fun hoff => ?_, fun r hr => ?_⟩⟩⟩⟩
  · exact (regdata_written hf (hc.le.trans (by decide)) hh).trans (congrArg _ (debugRegWrite_signal hc _ _))
  · exact (regdata_written hf hc hh).trans (congrArg _ ((debugRegWrite_svc_none hlo _ (svcRegAt_low hoff)).trans (if_neg (Nat.not_le.mpr hoff))))
  · exact (regdata_written hf hc hh).trans (congrArg _ ((debugRegWrite_svc_none hlo _ (svcRegAt_high hoff)).trans
      (if_pos ((show 0x1A0 ≤ 0x1C0 by decide).trans hoff.le))))
  · exact (regdata_written hf hc hh).trans (congrArg _ (debugRegWrite_svc_some hlo _ hr))

end Sys2Proof.Machine
end

section
/-! PROOFS.  Causeway links: training, keepalives, falls, retransmission and TIME frames (O56). -/

namespace Sys2Proof.Machine

open Safety

set_option Elab.async false

section
variable {s : State} {l : Fin 14}

/-! ### Training -/

/-- A link that may run starts. -/
def Starts (s : State) (i : Nat) : Prop := s.rd F.CWY_L_STAT_STATE i = ckDOWN ∧ cwMayRun s i = true

theorem starts_iff (s : State) (i : Nat) : (cwMayRun s i && s.rd F.CWY_L_STAT_STATE i == ckDOWN) = true ↔ Starts s i := by
  unfold Starts
  rw [Bool.and_eq_true, beq_iff_eq, and_comm]

theorem cwStart_none {i : Nat} (h : ¬ Starts s i) : cwStart s i = s := if_neg (mt (starts_iff s i).mp h)

theorem cwStart_starts {i : Nat} (h : Starts s i) : cwStart s i = s.wr F.CWY_L_STAT_STATE i (if isTunnel i then ckHELLO else ckTRAIN) :=
  if_pos ((starts_iff s i).mpr h)

theorem state_wr (s : State) (i : Nat) {v : Nat} (hv : v < 4) : (s.wr F.CWY_L_STAT_STATE i v).rd F.CWY_L_STAT_STATE i = v :=
  (State.rd_wr_same _ _ _ _).trans (Nat.mod_eq_of_lt hv)

theorem trained_exec (s : State) (l : Fin 14) : exec (.cwLinkTrained l) s =
    if ((cwStart s l.val).rd F.CWY_L_STAT_STATE l.val == ckTRAIN) = true then .next ((cwStart s l.val).wr F.CWY_L_STAT_STATE l.val ckHELLO)
    else .next (cwStart s l.val) := rfl

theorem trained_hello (h : s.rd F.CWY_L_STAT_STATE l.val = ckTRAIN ∨ Starts s l.val) :
    Does (.cwLinkTrained l) s fun t => t.rd F.CWY_L_STAT_STATE l.val = ckHELLO ∧ OnlyCells s t [(F.CWY_L_STAT_STATE, l.val)] := by
  have hwrite : ∀ u, OnlyCells s u [(F.CWY_L_STAT_STATE, l.val)] → OnlyCells s (u.wr F.CWY_L_STAT_STATE l.val ckHELLO) [(F.CWY_L_STAT_STATE, l.val)] :=
    fun u hu => hu.wr (.head _)
  by_cases hs : Starts s l.val
  · by_cases ht : isTunnel l.val = true
    · have hstart : cwStart s l.val = s.wr F.CWY_L_STAT_STATE l.val ckHELLO := by rw [cwStart_starts hs, if_pos ht]
      refine ⟨s.wr F.CWY_L_STAT_STATE l.val ckHELLO, ?_, state_wr _ _ (by decide), hwrite s (.refl _ _)⟩
      rw [trained_exec, hstart, state_wr _ _ (by decide)]
      rfl
    · have hstart : cwStart s l.val = s.wr F.CWY_L_STAT_STATE l.val ckTRAIN := by rw [cwStart_starts hs, if_neg ht]
      refine ⟨(s.wr F.CWY_L_STAT_STATE l.val ckTRAIN).wr F.CWY_L_STAT_STATE l.val ckHELLO, ?_, state_wr _ _ (by decide), hwrite _ (.wr (.refl _ _) (.head _))⟩
      rw [trained_exec, hstart, state_wr _ _ (by decide)]
      rfl
  · refine ⟨s.wr F.CWY_L_STAT_STATE l.val ckHELLO, ?_, state_wr _ _ (by decide), hwrite s (.refl _ _)⟩
    rw [trained_exec, cwStart_none hs, h.resolve_right hs]
    rfl

theorem trained_no (h : ¬ (s.rd F.CWY_L_STAT_STATE l.val = ckTRAIN ∨ Starts s l.val)) : exec (.cwLinkTrained l) s = .next s := by
  obtain ⟨ht, hs⟩ := not_or.mp h
  rw [trained_exec, cwStart_none hs, if_neg (by simpa using ht)]

/-! ### Falls -/

/-- The counters of the links have room for a round of a link's frames. -/
def LinkRoom (s : State) (i : Nat) : Prop := ∀ j, s.rd F.CWY_L_CNT_COUNT j + (linkOf s i).replay.length + 3 < 2 ^ 32

theorem LinkRoom.one {i : Nat} (h : LinkRoom s i) (j : Nat) : s.rd F.CWY_L_CNT_COUNT j + 2 < 2 ^ 32 := by
  have := h j
  omega

theorem cwDown_fallen {i : Nat} (hr : LinkRoom s i) (h0 : s.rd F.CWY_L_STAT_STATE i ≠ ckDOWN) (hw : (linkOf s i).waiting = []) : cwDown s i = linkFallen s i :=
  down_says s i _ h0 rfl hw fun j => by
    have := hr j
    omega

theorem linkFallen_calm {i : Nat} (hc : s.nonzero F.CWY_M_STAT_STATE = []) : migLinkCheck (linkFallen s i) = linkFallen s i := by
  refine linkCheck_calm _ ?_
  refine (nonzero_puts s _ F.CWY_M_STAT_STATE fun p hp => ?_).trans hc
  have hid : p.1 ∈ [F.CWY_L_CNT_COUNT, F.CWY_L_STAT_UP, F.CWY_L_STAT_LINKCHG, F.CWY_IRQSTAT_LINK, F.CWY_L_STAT_STATE, I.cwSent, I.cwGot, I.cwRounds, I.tmHave] := by
    unfold linkCounted at hp
    split at hp <;> simp only [List.cons_append, List.nil_append, List.append_nil, List.mem_cons, List.not_mem_nil, or_false] at hp
    · rcases hp with rfl | rfl | rfl | rfl | rfl | rfl | rfl | rfl | rfl | rfl <;> simp
    · rcases hp with rfl | rfl | rfl | rfl | rfl | rfl <;> simp
  exact (by decide : ∀ f ∈ [F.CWY_L_CNT_COUNT, F.CWY_L_STAT_UP, F.CWY_L_STAT_LINKCHG, F.CWY_IRQSTAT_LINK, F.CWY_L_STAT_STATE, I.cwSent, I.cwGot, I.cwRounds, I.tmHave],
    f.id ≠ F.CWY_M_STAT_STATE.id) _ hid

theorem linkDown_down (hc : s.nonzero F.CWY_M_STAT_STATE = []) (h : s.rd F.CWY_L_STAT_STATE l.val = ckDOWN) : exec (.cwLinkDown l) s = .next s := by
  show Host.Outcome.next (migLinkCheck (cwDown s l.val)) = _
  unfold cwDown
  rw [if_pos h, linkCheck_calm _ hc]

theorem linkDown_falls (hc : s.nonzero F.CWY_M_STAT_STATE = []) (hr : LinkRoom s l.val) (h : s.rd F.CWY_L_STAT_STATE l.val ≠ ckDOWN)
    (hw : (linkOf s l.val).waiting = []) : exec (.cwLinkDown l) s = .next (linkFallen s l.val) := by
  show Host.Outcome.next (migLinkCheck (cwDown s l.val)) = _
  rw [cwDown_fallen hr h hw, linkFallen_calm hc]

/-! ### Keepalives -/

theorem keepalive_exec (s : State) (l : Fin 14) : exec (.cwLinkKeepalive l) s =
    if ((cwStart s l.val).rd F.CWY_L_STAT_STATE l.val == ckHELLO || cwUp (cwStart s l.val) l.val) = true then .next (linkSend (cwStart s l.val) l.val)
    else .next (cwStart s l.val) := rfl

theorem keepalive_no (hs : ¬ Starts s l.val) (h : s.rd F.CWY_L_STAT_STATE l.val ≠ ckHELLO) (hu : cwUp s l.val = false) : exec (.cwLinkKeepalive l) s = .next s := by
  rw [keepalive_exec, cwStart_none hs, if_neg (by simp [h, hu])]

theorem keepalive_starts (hs : Starts s l.val) (hl : l.val < 6) (hu : cwUp s l.val = false) :
    Puts (.cwLinkKeepalive l) s [(F.CWY_L_STAT_STATE, l.val, ckTRAIN)] := by
  have hstart : cwStart s l.val = s.wr F.CWY_L_STAT_STATE l.val ckTRAIN := by
    have ht : isTunnel l.val = false := decide_eq_false (by omega)
    rw [cwStart_starts hs, ht]
    rfl
  have hup : cwUp (s.wr F.CWY_L_STAT_STATE l.val ckTRAIN) l.val = false := by
    unfold cwUp at hu ⊢
    rw [State.on_eq, State.rd_wr_cell _ _ _ _ _ _ (by decide)]
    exact hu
  show exec (.cwLinkKeepalive l) s = .next (s.wr F.CWY_L_STAT_STATE l.val ckTRAIN)
  rw [keepalive_exec, hstart, state_wr _ _ (by decide), hup]
  rfl

/-- The LINK frame that a link sends. -/
def helloFrame (s : State) : CwFrame := ownFrame s cwLINK 0 (beBytes 4 (b2n (devLocked s) * 2 ^ 31 + ownDev s) ++ [0, 0, 0, 0])

theorem keepalive_sends (h : s.rd F.CWY_L_STAT_STATE l.val = ckHELLO ∨ (s.rd F.CWY_L_STAT_STATE l.val ≠ ckDOWN ∧ cwUp s l.val = true)) :
    exec (.cwLinkKeepalive l) s = .next (linkSend s l.val) := by
  have hs : ¬ Starts s l.val := fun hs => by
    rcases h with h | h
    · exact absurd (hs.1.symm.trans h) (by decide)
    · exact h.1 hs.1
  rw [keepalive_exec, cwStart_none hs, if_pos]
  rcases h with h | h
  · rw [h]
    rfl
  · rw [h.2, Bool.or_true]

theorem keepalive_plain (hr : LinkRoom s l.val) (hl : l.val < 6)
    (h : s.rd F.CWY_L_STAT_STATE l.val = ckHELLO ∨ (s.rd F.CWY_L_STAT_STATE l.val ≠ ckDOWN ∧ cwUp s l.val = true))
    (hn : ¬ (s.rd F.CWY_L_STAT_STATE l.val = ckHELLO ∧ s.rd I.cwGot l.val = 1)) :
    exec (.cwLinkKeepalive l) s = .next (puts (sentOnce s l.val 0 (helloFrame s)) [(I.cwSent, l.val, 1)]) :=
  (keepalive_sends h).trans (congrArg _ ((hello_says s l.val _ (helloFrame s) rfl rfl hl (hr.one _)).1 hn))

theorem keepalive_up (hr : LinkRoom s l.val) (hl : l.val < 6) (h : s.rd F.CWY_L_STAT_STATE l.val = ckHELLO) (hg : s.rd I.cwGot l.val = 1)
    (ho : s.rd F.TMU_LAT_RX_OVR (8 + l.val) = 1) :
    exec (.cwLinkKeepalive l) s = .next (puts (sentOnce s l.val 0 (helloFrame s)) ((I.cwSent, l.val, 1) :: enteredUp l.val)) :=
  (keepalive_sends (.inl h)).trans (congrArg _ ((hello_says s l.val _ (helloFrame s) rfl rfl hl (hr.one _)).2 ⟨h, hg⟩ ho))

/-! ### Retransmission -/

theorem retransmit_no (hu : cwUp s l.val = false) : exec (.cwRetransmit l) s = .next s := if_neg (by rw [hu]; decide)

theorem retransmit_next (hu : cwUp s l.val = true) : exec (.cwRetransmit l) s = .next (migLinkCheck (retransmit s l.val)) := if_pos hu

theorem retransmit_nothing (hc : s.nonzero F.CWY_M_STAT_STATE = []) (hu : cwUp s l.val = true) (h : (linkOf s l.val).replay = []) :
    exec (.cwRetransmit l) s = .next s := by
  have hsame : retransmit s l.val = s := if_pos (by rw [h]; rfl)
  rw [retransmit_next hu, hsame, linkCheck_calm _ hc]

/-- A round sends its frames one after the other. -/
theorem transmit_round {i : Nat} (hi : i < 6) (es : List (Nat × CwFrame)) (u : State) (hr : u.rd F.CWY_L_CNT_COUNT (6 * i) + es.length + 1 < 2 ^ 32) :
    es.foldl (fun u e => cwTransmit u i e.1 e.2) u = es.foldl (fun u e => sentOnce u i e.1 e.2) u := by
  induction es generalizing u with
  | nil => rfl
  | cons e r ih =>
    have hlen : u.rd F.CWY_L_CNT_COUNT (6 * i) + r.length + 2 < 2 ^ 32 := hr
    have hlt : u.rd F.CWY_L_CNT_COUNT (6 * i) + 1 < 2 ^ 32 := by omega
    have hcnt : (sentOnce u i e.1 e.2).rd F.CWY_L_CNT_COUNT (6 * i) = u.rd F.CWY_L_CNT_COUNT (6 * i) + 1 :=
      (State.rd_wr_same u F.CWY_L_CNT_COUNT (6 * i) _).trans (Nat.mod_eq_of_lt hlt)
    rw [List.foldl_cons, List.foldl_cons, transmit_says _ _ _ _ hi (by omega)]
    exact ih _ (by rw [hcnt]; omega)

/-- The state in which a round begins. -/
def roundBegun (s : State) (i : Nat) : State := puts s [(I.cwRounds, i, s.rd I.cwRounds i + 1), linkCounted s i 3]

theorem round_nonzero {i : Nat} (es : List (Nat × CwFrame)) (u : State) :
    (es.foldl (fun u e => sentOnce u i e.1 e.2) u).nonzero F.CWY_M_STAT_STATE = u.nonzero F.CWY_M_STAT_STATE := by
  induction es generalizing u with
  | nil => rfl
  | cons e r ih => exact (ih _).trans (nonzero_wr_other u F.CWY_L_CNT_COUNT F.CWY_M_STAT_STATE _ _ (by decide))

theorem retransmit_round (hc : s.nonzero F.CWY_M_STAT_STATE = []) (hr : LinkRoom s l.val) (hu : cwUp s l.val = true) (hn : (linkOf s l.val).replay ≠ [])
    (h8 : s.rd I.cwRounds l.val ≠ 8) (hl : l.val < 6) :
    exec (.cwRetransmit l) s = .next ((linkOf s l.val).replay.foldl (fun u e => sentOnce u l.val e.1 e.2) (roundBegun s l.val)) := by
  have hbegun : linkCnt (s.wr I.cwRounds l.val (s.rd I.cwRounds l.val + 1)) l.val 3 = roundBegun s l.val := by
    have hcnt : (s.wr I.cwRounds l.val (s.rd I.cwRounds l.val + 1)).rd F.CWY_L_CNT_COUNT (6 * l.val + 3) = s.rd F.CWY_L_CNT_COUNT (6 * l.val + 3) :=
      State.rd_wr_cell _ _ _ _ _ _ (by decide)
    rw [linkCnt_room _ _ _ (by rw [hcnt]; exact hr.one _), hcnt]
    rfl
  have hroom : (roundBegun s l.val).rd F.CWY_L_CNT_COUNT (6 * l.val) + (linkOf s l.val).replay.length + 1 < 2 ^ 32 := by
    have hcnt : (roundBegun s l.val).rd F.CWY_L_CNT_COUNT (6 * l.val) = s.rd F.CWY_L_CNT_COUNT (6 * l.val) := by
      show ((s.wr I.cwRounds l.val _).wr F.CWY_L_CNT_COUNT (6 * l.val + 3) _).rd F.CWY_L_CNT_COUNT (6 * l.val) = _
      rw [State.rd_wr_inst _ _ _ _ _ (by omega), State.rd_wr_cell _ I.cwRounds F.CWY_L_CNT_COUNT _ _ _ (by decide)]
    have := hr (6 * l.val)
    omega
  have hround : retransmit s l.val = (linkOf s l.val).replay.foldl (fun u e => sentOnce u l.val e.1 e.2) (roundBegun s l.val) := by
    unfold retransmit
    dsimp only
    rw [if_neg (by simpa using hn), if_neg h8, hbegun, transmit_round hl _ _ hroom]
  rw [retransmit_next hu, hround, linkCheck_calm]
  rw [round_nonzero]
  exact (nonzero_puts s _ F.CWY_M_STAT_STATE (by simp [linkCounted]; decide)).trans hc

theorem retransmit_falls (hc : s.nonzero F.CWY_M_STAT_STATE = []) (hr : LinkRoom s l.val) (hu : cwUp s l.val = true) (hn : (linkOf s l.val).replay ≠ [])
    (h8 : s.rd I.cwRounds l.val = 8) (h0 : s.rd F.CWY_L_STAT_STATE l.val ≠ ckDOWN) (hw : (linkOf s l.val).waiting = []) :
    exec (.cwRetransmit l) s = .next (linkFallen s l.val) := by
  have hfall : retransmit s l.val = cwDown s l.val := by
    unfold retransmit
    dsimp only
    rw [if_neg (by simpa using hn), if_pos h8]
  rw [retransmit_next hu, hfall, cwDown_fallen hr h0 hw, linkFallen_calm hc]

/-! ### TIME frames -/

theorem timeSend_no {sub : BitVec 9} (hu : cwUp s l.val = false) : exec (.timeSend l sub) s = .next s := if_neg (by rw [hu]; decide)

/-- The stamp of a TIME frame's start. -/
def timeStamp (s : State) (i sub : Nat) : Nat := txStamp s (8 + i) (s.rd F.CWY_L_CFG_TTB i) sub

/-- The cells of a sent TIME frame. -/
def timeCells (s : State) (i sub : Nat) : List (Fld × Nat × Nat) :=
  [(I.tmTxNs, 16 * i + s.rd I.tmSeq i % 16, timeStamp s i sub / 256), (I.tmTxFr, 16 * i + s.rd I.tmSeq i % 16, timeStamp s i sub % 256),
    (I.tmSeq, i, s.rd I.tmSeq i + 1)]

theorem timeSend_says {sub : BitVec 9} (hr : LinkRoom s l.val) (hu : cwUp s l.val = true) (hl : l.val < 6) :
    exec (.timeSend l sub) s = .next (sentOnce (puts s (timeCells s l.val sub.toNat)) l.val 0 (ownFrame s cwTIME 0 (timePayload s l.val))) := by
  have hrd : ∀ (q : Fld) j, (∀ f ∈ [I.tmTxNs, I.tmTxFr, I.tmSeq], f.id ≠ q.id) → (puts s (timeCells s l.val sub.toNat)).rd q j = s.rd q j := fun q j hq =>
    puts_rd_other [I.tmTxNs, I.tmTxFr, I.tmSeq] q j hq
  have hown : ownDev (puts s (timeCells s l.val sub.toNat)) = ownDev s := by
    unfold ownDev devLocked
    rw [State.on_eq, State.on_eq, hrd F.SYS_DEVNUM_LOCKED 0 (by decide), hrd F.SYS_DEVNUM_DEVNUM 0 (by decide)]
  have hplace : stampPlace s l.val = 8 + l.val := by
    have ht : isTunnel l.val = false := decide_eq_false (by omega)
    unfold stampPlace
    rw [ht]
    rfl
  have hsend : timeSend s l.val sub.toNat = cwSendLocal (puts s (timeCells s l.val sub.toNat)) l.val cwTIME (timePayload s l.val) := by
    unfold timeSend
    dsimp only
    rw [hplace]
    rfl
  refine (if_pos hu).trans (congrArg _ ?_)
  rw [hsend, sendLocal_says _ _ _ _ hl (by rw [hrd _ _ (by decide)]; exact hr.one _) rfl, hown, hrd F.CWY_EPOCH_EPOCH 0 (by decide)]
  rfl
end

/-- Settles O56: Causeway links, each clause from the lemma of its case. -/
theorem causewayLinksTrainAndFall : Obligations.CausewayLinksTrainAndFall := by
  unfold Obligations.CausewayLinksTrainAndFall
  intro s l
  exact ⟨trained_hello, trained_no, linkDown_down, linkDown_falls, keepalive_no, keepalive_starts,
    fun hr hl h => ⟨keepalive_plain hr hl h, keepalive_up hr hl⟩, retransmit_no, retransmit_nothing,
    fun hc hr hu hn => ⟨retransmit_round hc hr hu hn, retransmit_falls hc hr hu hn⟩, fun sub => ⟨timeSend_no, timeSend_says⟩⟩

end Sys2Proof.Machine
end

section
/-! PROOFS.  Received Causeway frames: their checks, their routing, LINK and TIME frames, and the epoch (O57). -/

namespace Sys2Proof.Machine

open Safety

set_option Elab.async false

section
variable {s : State} {l : Fin 14} {b : List Byte} {sub : BitVec 9}

/-! ### Checks -/

theorem receive_deaf (h : ¬ ckHELLO ≤ s.rd F.CWY_L_STAT_STATE l.val) : exec (.cwFrameReceive l b sub) s = .next s := by
  show Host.Outcome.next (cwReceive s l.val sub.toNat b) = _
  unfold cwReceive
  dsimp only
  rw [if_pos (by omega)]

theorem bad_uncounted {i : Nat} (hr : s.rd F.CWY_CNT_COUNT 9 + 2 < 2 ^ 32) : cwBad s i false = puts s [cwCounted s 9, (F.CWY_IRQSTAT_EPOCH, 0, 1)] := by
  unfold cwBad
  rw [if_neg (by decide), cwCnt_room _ _ hr]
  rfl

theorem bad_crc {i : Nat} (hr : s.rd F.CWY_L_CNT_COUNT (6 * i + 2) + 2 < 2 ^ 32) : cwBad s i true = puts s [linkCounted s i 2, (F.CWY_IRQSTAT_EPOCH, 0, 1)] := by
  unfold cwBad
  rw [if_pos rfl, linkCnt_room _ _ _ hr]
  rfl

/-- A CW link trims nothing. -/
theorem cwTrim_link {i : Nat} (hi : i < 6) (b : List Byte) : cwTrim i b = b := if_neg (by unfold isTunnel; simpa using hi)

theorem receive_short (hh : ckHELLO ≤ s.rd F.CWY_L_STAT_STATE l.val) (hi : l.val < 6) (hr : s.rd F.CWY_CNT_COUNT 9 + 2 < 2 ^ 32) (hlen : b.length < 20) :
    Puts (.cwFrameReceive l b sub) s [cwCounted s 9, (F.CWY_IRQSTAT_EPOCH, 0, 1)] := by
  refine congrArg Host.Outcome.next ?_
  unfold cwReceive
  dsimp only
  rw [cwTrim_link hi, if_neg (by omega), if_pos hlen, bad_uncounted hr]

theorem receive_crc (hh : ckHELLO ≤ s.rd F.CWY_L_STAT_STATE l.val) (hi : l.val < 6) (hlen : 20 ≤ b.length)
    (hcrc : ¬ b.drop (b.length - 4) = beBytes 4 (crc32 (b.take (b.length - 4)))) (hr : s.rd F.CWY_L_CNT_COUNT (6 * l.val + 2) + 2 < 2 ^ 32) :
    Puts (.cwFrameReceive l b sub) s [linkCounted s l.val 2, (F.CWY_IRQSTAT_EPOCH, 0, 1)] := by
  refine congrArg Host.Outcome.next ?_
  unfold cwReceive
  dsimp only
  rw [cwTrim_link hi, if_neg (by omega), if_neg (by omega), if_pos (bne_iff_ne.mpr hcrc), bad_crc hr]

theorem receive_malformed (hh : ckHELLO ≤ s.rd F.CWY_L_STAT_STATE l.val) (hi : l.val < 6) (hr : s.rd F.CWY_CNT_COUNT 9 + 2 < 2 ^ 32) (hlen : 20 ≤ b.length)
    (hcrc : b.drop (b.length - 4) = beBytes 4 (crc32 (b.take (b.length - 4))))
    (hbad : byteAt b 0 / 16 ≠ 1 ∨ 4112 < cwLen b ∨ b.length ≠ 20 + cwLen b) :
    Puts (.cwFrameReceive l b sub) s [cwCounted s 9, (F.CWY_IRQSTAT_EPOCH, 0, 1)] := by
  refine congrArg Host.Outcome.next ?_
  unfold cwReceive
  dsimp only
  rw [cwTrim_link hi, if_neg (by omega), if_neg (by omega), if_neg (by rw [hcrc]; simp),
    if_pos (by simpa only [Bool.or_eq_true, bne_iff_ne, decide_eq_true_eq, or_assoc] using hbad), bad_uncounted hr]

theorem receive_padded (h : FrameWhole s l.val b) (hl : 6 ≤ l.val) (pad : List Byte) :
    exec (.cwFrameReceive l (b ++ pad) sub) s = exec (.cwFrameReceive l b sub) s := by
  obtain ⟨-, hlen, -⟩ := h
  show Host.Outcome.next (cwReceive s l.val sub.toNat (b ++ pad)) = .next (cwReceive s l.val sub.toNat b)
  unfold cwReceive
  rw [cwTrim_pad _ _ _ hl hlen, cwTrim_whole _ _ hlen]

theorem receive_reserved (h : FrameWhole s l.val b) (hr : s.rd F.CWY_CNT_COUNT 9 + 2 < 2 ^ 32) (ht : 13 ≤ (cwParse b).type) :
    Puts (.cwFrameReceive l b sub) s [linkCounted s l.val 1, cwCounted s 9] := by
  have hcnt : (taken1 s l.val).rd F.CWY_CNT_COUNT 9 = s.rd F.CWY_CNT_COUNT 9 := taken1_cell _ _ _ _ (by decide)
  refine congrArg Host.Outcome.next ?_
  rw [receive_whole _ _ _ _ h, if_pos (show 13 ≤ byteAt b 0 % 16 from ht), cwCnt_room _ _ (by rw [hcnt]; exact hr), hcnt]
  rfl

theorem receive_misplaced (h : FrameWhole s l.val b) (ht : (cwParse b).type < 13) (hn : (linkOf s l.val).replay = [])
    (hq : cwSequenced (cwParse b).type = true) (hseq : beAt b 8 2 ≠ s.rd I.cwRx l.val) : Puts (.cwFrameReceive l b sub) s [linkCounted s l.val 1] := by
  have hrx : (taken1 s l.val).rd I.cwRx l.val = s.rd I.cwRx l.val := taken1_cell _ _ _ _ (by decide)
  refine congrArg Host.Outcome.next ?_
  rw [receive_whole _ _ _ _ h, if_neg (Nat.not_le.mpr (show byteAt b 0 % 16 < 13 from ht)), ack_none _ _ _ (show (linkOf (taken1 s l.val) l.val).replay = [] from hn), hrx, if_pos (Bool.and_eq_true_iff.mpr ⟨(show cwSequenced (byteAt b 0 % 16) = true from hq), bne_iff_ne.mpr hseq⟩)]
  rfl

/-! ### Routing -/

/-- What a routed frame in its place does, by the gates it passes. -/
theorem route_taken {n : Nat} (hp : FrameInPlace s l.val b) (hloc : cwLocal (cwParse b).type = false) : cwReceive s l.val n b =
    if (cwParse b).epoch ≠ s.rd F.CWY_EPOCH_EPOCH 0 then (cwCnt (puts s (arrived s l.val b)) 1).set F.CWY_IRQSTAT_EPOCH 1
    else if cwUp s l.val = false ∨ devLocked s = false then puts s (arrived s l.val b)
    else if (cwParse b).dst = ownDev s then cwConsume (puts s (arrived s l.val b)) l.val n (cwParse b)
    else cwForward (taken1 s l.val) l.val (cwParse b) := by
  have hepoch : (taken1 s l.val).rd F.CWY_EPOCH_EPOCH 0 = s.rd F.CWY_EPOCH_EPOCH 0 := taken1_cell _ _ _ _ (by decide)
  have hup : cwUp (taken1 s l.val) l.val = cwUp s l.val := by
    unfold cwUp
    rw [State.on_eq, State.on_eq, taken1_cell _ _ _ _ (by decide)]
  have hlocked : devLocked (taken1 s l.val) = devLocked s := by
    unfold devLocked
    rw [State.on_eq, State.on_eq, taken1_cell _ _ _ _ (by decide)]
  have hown : ownDev (taken1 s l.val) = ownDev s := by
    unfold ownDev
    rw [hlocked, taken1_cell _ _ _ _ (by decide)]
  rw [receive_in_place _ _ _ _ hp]
  unfold cwRouteFrame
  rw [if_neg (by rw [hloc]; decide), hepoch, hup, hlocked, hown, advance_says]
  simp only [bne_iff_ne, Bool.or_eq_true, Bool.not_eq_true']

theorem receive_other_epoch (hp : FrameInPlace s l.val b) (hloc : cwLocal (cwParse b).type = false) (hr : s.rd F.CWY_CNT_COUNT 1 + 2 < 2 ^ 32)
    (he : (cwParse b).epoch ≠ s.rd F.CWY_EPOCH_EPOCH 0) :
    Puts (.cwFrameReceive l b sub) s (arrived s l.val b ++ [cwCounted s 1, (F.CWY_IRQSTAT_EPOCH, 0, 1)]) := by
  have hcnt : (puts s (arrived s l.val b)).rd F.CWY_CNT_COUNT 1 = s.rd F.CWY_CNT_COUNT 1 := arrived_cell _ _ _ _ _ (by decide) (by decide)
  refine congrArg Host.Outcome.next ?_
  rw [route_taken hp hloc, if_pos he, cwCnt_room _ _ (by rw [hcnt]; exact hr), hcnt, puts_append]
  rfl

theorem receive_unnumbered (hp : FrameInPlace s l.val b) (hloc : cwLocal (cwParse b).type = false) (he : (cwParse b).epoch = s.rd F.CWY_EPOCH_EPOCH 0)
    (h : cwUp s l.val = false ∨ devLocked s = false) : Puts (.cwFrameReceive l b sub) s (arrived s l.val b) := by
  refine congrArg Host.Outcome.next ?_
  rw [route_taken hp hloc, if_neg (not_not.mpr he), if_pos h]

/-- A frame in its place that goes on to another device. -/
structure GoesOn (s : State) (i : Nat) (b : List Byte) : Prop where
  place : FrameInPlace s i b
  routed : cwLocal (cwParse b).type = false
  epoch : (cwParse b).epoch = s.rd F.CWY_EPOCH_EPOCH 0
  up : cwUp s i = true
  locked : devLocked s = true
  other : (cwParse b).dst ≠ ownDev s

theorem GoesOn.receive (h : GoesOn s l.val b) (n : Nat) : cwReceive s l.val n b = cwForward (taken1 s l.val) l.val (cwParse b) := by
  rw [route_taken h.place h.routed, if_neg (not_not.mpr h.epoch), if_neg (by rw [h.up, h.locked]; decide), if_neg h.other]

theorem forward_dropped (h : GoesOn s l.val b) (hr : s.rd F.CWY_CNT_COUNT 10 + 2 < 2 ^ 32)
    (hv : (cwParse b).hops = 0 ∨ ¬ (s.rd F.CWY_ROUTE_VALID (cwParse b).dst = 1 ∧ s.rd F.CWY_ROUTE_LINK (cwParse b).dst < 14)) :
    Puts (.cwFrameReceive l b sub) s (arrived s l.val b ++ [cwCounted s 10]) := by
  have hcnt : (puts s (arrived s l.val b)).rd F.CWY_CNT_COUNT 10 = s.rd F.CWY_CNT_COUNT 10 := arrived_cell _ _ _ _ _ (by decide) (by decide)
  have hgate : ((cwParse b).hops = 0 || !(taken1 s l.val).on F.CWY_ROUTE_VALID (cwParse b).dst ||
      decide (14 ≤ (taken1 s l.val).rd F.CWY_ROUTE_LINK (cwParse b).dst)) = true := by
    rw [State.on_eq, taken1_cell _ _ _ _ (by decide), taken1_cell _ _ _ _ (by decide)]
    simp only [Bool.or_eq_true, decide_eq_true_eq, Bool.not_eq_true', bne_eq_false_iff_eq, or_assoc]
    refine hv.imp_right fun hv => ?_
    rcases flag_cases s (cwParse b).dst (f := F.CWY_ROUTE_VALID) rfl with h0 | h1
    · exact .inl h0
    · exact .inr (Nat.not_lt.mp fun hlt => hv ⟨h1, hlt⟩)
  refine congrArg Host.Outcome.next ?_
  rw [h.receive]
  unfold cwForward
  dsimp only
  rw [if_pos hgate, advance_says, cwCnt_room _ _ (by rw [hcnt]; exact hr), hcnt, puts_append]
  rfl

/-- A frame that goes on has one hop fewer. -/
def passedOn (f : CwFrame) : CwFrame := { f with hops := f.hops - 1 }

/-- A frame in its place finds its link as it stood before. -/
theorem arrived_open {k : Nat} {f : CwFrame} (ho : LinkOpen s k f) : LinkOpen (puts s (arrived s l.val b)) k (passedOn f) := by
  obtain ⟨hk, hroom, hw, hc⟩ := ho
  have hcnt : (puts s (arrived s l.val b)).rd F.CWY_L_CNT_COUNT (6 * k) = s.rd F.CWY_L_CNT_COUNT (6 * k) := by
    unfold arrived
    split
    · show ((s.wr F.CWY_L_CNT_COUNT (6 * l.val + 1) _).wr I.cwRx l.val _).rd F.CWY_L_CNT_COUNT (6 * k) = _
      rw [State.rd_wr_cell _ _ _ _ _ _ (by decide), State.rd_wr_inst _ _ _ _ _ (by omega)]
    · exact State.rd_wr_inst s F.CWY_L_CNT_COUNT (6 * l.val + 1) (6 * k) _ (by omega)
  unfold LinkOpen replayRoom linkOf
  rw [hcnt, puts_links]
  exact ⟨hk, hroom, hw, hc⟩

section
variable (h : GoesOn s l.val b) (hh : (cwParse b).hops ≠ 0) (hv : s.rd F.CWY_ROUTE_VALID (cwParse b).dst = 1 ∧ s.rd F.CWY_ROUTE_LINK (cwParse b).dst < 14)
include h hh hv

theorem forward_down (hu : cwUp s (s.rd F.CWY_ROUTE_LINK (cwParse b).dst) = false) : Puts (.cwFrameReceive l b sub) s (arrived s l.val b) := by
  have hdown : cwUp (taken1 s l.val) (s.rd F.CWY_ROUTE_LINK (cwParse b).dst) = false := by
    unfold cwUp at hu ⊢
    rw [State.on_eq, taken1_cell _ _ _ _ (by decide), ← State.on_eq, hu]
  refine congrArg Host.Outcome.next ?_
  rw [h.receive, forward_taken _ _ _ hh hv.1 hv.2, hdown, if_pos (show (!false) = true from rfl), advance_says]

theorem forward_open (hu : cwUp s (s.rd F.CWY_ROUTE_LINK (cwParse b).dst) = true) (ho : LinkOpen s (s.rd F.CWY_ROUTE_LINK (cwParse b).dst) (cwParse b)) (n : Nat) :
    cwReceive s l.val n b = cwGive (puts s (arrived s l.val b)) (s.rd F.CWY_ROUTE_LINK (cwParse b).dst) 0 (passedOn (cwParse b)) := by
  obtain ⟨hk, hroom, hw, -⟩ := ho
  have hup : cwUp (taken1 s l.val) (s.rd F.CWY_ROUTE_LINK (cwParse b).dst) = true := by
    unfold cwUp at hu ⊢
    rw [State.on_eq, taken1_cell _ _ _ _ (by decide), ← State.on_eq, hu]
  have hmax : cwRoom (taken1 s l.val) (s.rd F.CWY_ROUTE_LINK (cwParse b).dst) = 4112 := if_neg (by unfold isTunnel; simpa using hk)
  have hfits : (cwParse b).payload.length ≤ 4112 := by
    obtain ⟨⟨-, hlen, hmax, -⟩, -⟩ := h.place
    refine (List.length_take_le _ _).trans ?_
    omega
  have hplace : (replayRoom (taken1 s l.val) (s.rd F.CWY_ROUTE_LINK (cwParse b).dst) (cwParse b) &&
      (linkOf (taken1 s l.val) (s.rd F.CWY_ROUTE_LINK (cwParse b).dst)).waiting.isEmpty) = true :=
    Bool.and_eq_true_iff.mpr ⟨hroom, List.isEmpty_iff.mpr hw⟩
  rw [h.receive, forward_taken _ _ _ hh hv.1 hv.2, hup, if_neg (by decide), hmax, if_neg (Nat.not_lt.mpr hfits), hplace, Bool.not_true, Bool.and_false,
    if_neg (by decide), advance_says]
  rfl

theorem forward_sequenced (hu : cwUp s (s.rd F.CWY_ROUTE_LINK (cwParse b).dst) = true) (ho : LinkOpen s (s.rd F.CWY_ROUTE_LINK (cwParse b).dst) (cwParse b))
    (hq : cwSequenced (cwParse b).type = true) : exec (.cwFrameReceive l b sub) s =
      .next (sentFrame (puts s (arrived s l.val b)) (s.rd F.CWY_ROUTE_LINK (cwParse b).dst) (passedOn (cwParse b))) := by
  refine congrArg Host.Outcome.next ?_
  rw [forward_open h hh hv hu ho, give_open _ _ _ _ (arrived_open ho) hq]
  rfl

theorem forward_unsequenced (hu : cwUp s (s.rd F.CWY_ROUTE_LINK (cwParse b).dst) = true) (ho : LinkOpen s (s.rd F.CWY_ROUTE_LINK (cwParse b).dst) (cwParse b))
    (hq : cwSequenced (cwParse b).type = false) : exec (.cwFrameReceive l b sub) s =
      .next (sentOnce (puts s (arrived s l.val b)) (s.rd F.CWY_ROUTE_LINK (cwParse b).dst) 0 (passedOn (cwParse b))) := by
  obtain ⟨hk, hroom, -, hc⟩ := arrived_open (l := l) (b := b) ho
  refine congrArg Host.Outcome.next ?_
  rw [forward_open h hh hv hu ho]
  unfold cwGive
  dsimp only
  rw [if_neg (by show ¬ cwSequenced (cwParse b).type = true; rw [hq]; decide), if_pos (Bool.or_eq_true_iff.mpr (.inr hroom)), transmit_says _ _ _ _ hk hc]

end

/-! ### LINK frames -/

theorem linkRx_no (h : (cwParse b).type ≠ cwLINK) : exec (.linkRx l b) s = .next s := by
  have hframe : isFrame b cwLINK = false := beq_false_of_ne h
  show Host.Outcome.next (cwReceiveIf (isFrame b cwLINK) s l.val 0 b) = _
  rw [hframe]
  rfl

/-- A LINK frame by itself is what it is among all frames. -/
theorem linkRx_receives (h : (cwParse b).type = cwLINK) : exec (.linkRx l b) s = .next (cwReceive s l.val 0 b) := by
  have hframe : isFrame b cwLINK = true := beq_iff_eq.mpr h
  show Host.Outcome.next (cwReceiveIf (isFrame b cwLINK) s l.val 0 b) = _
  rw [hframe]
  rfl

/-- What a LINK frame tells. -/
def linkTold (s : State) (i : Nat) (b : List Byte) : List (Fld × Nat × Nat) :=
  arrived s i b ++ [(F.CWY_L_STAT_DNV, i, byteAt (cwParse b).payload 0 / 128), (F.CWY_L_STAT_PEERDEV, i, beAt (cwParse b).payload 2 2 % 2048),
    (F.CWY_L_PEEREPOCH_EPOCH, i, (cwParse b).epoch), (I.cwGot, i, 1)]

theorem linkTold_cell (s : State) (i : Nat) (b : List Byte) (q : Fld) (j : Nat) (h1 : F.CWY_L_CNT_COUNT.id ≠ q.id) (h2 : I.cwRx.id ≠ q.id)
    (h3 : ∀ f ∈ [F.CWY_L_STAT_DNV, F.CWY_L_STAT_PEERDEV, F.CWY_L_PEEREPOCH_EPOCH, I.cwGot], f.id ≠ q.id) :
    (puts s (linkTold s i b)).rd q j = s.rd q j := by
  unfold linkTold
  rw [puts_append, puts_rd_other [F.CWY_L_STAT_DNV, F.CWY_L_STAT_PEERDEV, F.CWY_L_PEEREPOCH_EPOCH, I.cwGot] q j h3, arrived_cell _ _ _ _ _ h1 h2]

theorem got_linkTold (s : State) (i : Nat) (b : List Byte) : (puts s (linkTold s i b)).rd I.cwGot i = 1 := by
  unfold linkTold
  rw [puts_append]
  exact State.rd_wr_same _ _ _ _

/-- A link that has heard a LINK frame in HELLO, and sent one, is UP. -/
theorem linkTake_told {n : Nat} (hp : FrameInPlace s l.val b) (ht : (cwParse b).type = cwLINK) : cwReceive s l.val n b = cwHello (puts s (linkTold s l.val b)) l.val := by
  have hours : FrameOurs s l.val b := .inl (by rw [ht]; rfl)
  rw [receive_ours _ _ _ _ hp hours]
  unfold cwConsume linkTold
  rw [ht, puts_append]
  rfl

theorem link_told {n : Nat} (hp : FrameInPlace s l.val b) (ht : (cwParse b).type = cwLINK) (hn : ¬ (s.rd F.CWY_L_STAT_STATE l.val = ckHELLO ∧ s.rd I.cwSent l.val = 1)) :
    cwReceive s l.val n b = puts s (linkTold s l.val b) := by
  rw [linkTake_told hp ht]
  unfold cwHello
  rw [State.on_eq, linkTold_cell _ _ _ F.CWY_L_STAT_STATE _ (by decide) (by decide) (by decide),
    linkTold_cell _ _ _ I.cwSent _ (by decide) (by decide) (by decide), ← State.on_eq]
  refine if_neg fun hb => hn ?_
  rw [Bool.and_eq_true, Bool.and_eq_true, beq_iff_eq, on_one rfl] at hb
  exact hb.1

theorem link_rises {n : Nat} (hp : FrameInPlace s l.val b) (ht : (cwParse b).type = cwLINK) (hr : s.rd F.CWY_L_STAT_STATE l.val = ckHELLO ∧ s.rd I.cwSent l.val = 1)
    (ho : 6 ≤ l.val ∨ s.rd F.TMU_LAT_RX_OVR (8 + l.val) = 1) : cwReceive s l.val n b = puts s (linkTold s l.val b ++ enteredUp l.val) := by
  have hstate := (linkTold_cell s l.val b F.CWY_L_STAT_STATE l.val (by decide) (by decide) (by decide)).trans hr.1
  have hsent := (linkTold_cell s l.val b I.cwSent l.val (by decide) (by decide) (by decide)).trans hr.2
  have hover : 6 ≤ l.val ∨ (puts (puts s (linkTold s l.val b)) (enteredUp l.val)).rd F.TMU_LAT_RX_OVR (8 + l.val) = 1 := ho.imp_right fun ho => by
    rw [puts_rd_other [F.CWY_L_STAT_STATE, F.CWY_L_STAT_UP, F.CWY_L_STAT_LINKCHG, F.CWY_IRQSTAT_LINK, I.cwRounds, I.cwTx, I.cwRx, I.tmHave] _ _ (by decide),
      linkTold_cell _ _ _ _ _ (by decide) (by decide) (by decide), ho]
  rw [linkTake_told hp ht, puts_append]
  unfold cwHello
  rw [hstate, on_of_one hsent, on_of_one (got_linkTold s l.val b), if_pos (show (ckHELLO == ckHELLO && true && true) = true from rfl)]
  show (if isTunnel l.val = true then puts (puts s (linkTold s l.val b)) (enteredUp l.val) else loadLatency (puts (puts s (linkTold s l.val b)) (enteredUp l.val)) (8 + l.val) 4 0) = _
  rcases hover with h6 | h1
  · exact if_pos (decide_eq_true h6)
  · unfold loadLatency
    rw [on_of_one h1, if_pos rfl, ite_self]

/-! ### TIME frames -/

theorem timeRx_no (h : (cwParse b).type ≠ cwTIME) : exec (.timeRx l b sub) s = .next s := by
  have hframe : isFrame b cwTIME = false := beq_false_of_ne h
  show Host.Outcome.next (cwReceiveIf (isFrame b cwTIME) s l.val sub.toNat b) = _
  rw [hframe]
  rfl

theorem timeRx_receives (h : (cwParse b).type = cwTIME) : exec (.timeRx l b sub) s = exec (.cwFrameReceive l b sub) s := by
  have hframe : isFrame b cwTIME = true := beq_iff_eq.mpr h
  show Host.Outcome.next (cwReceiveIf (isFrame b cwTIME) s l.val sub.toNat b) = .next (cwReceive s l.val sub.toNat b)
  rw [hframe]
  rfl

/-- The stamps that the arrival of a TIME frame notes. -/
def timeNoted (s : State) (i sub : Nat) (p : List Byte) : List (Fld × Nat × Nat) :=
  let st := rxStamp s (stampPlace s i) (s.rd F.CWY_L_CFG_TTB i) sub
  [(I.tmRxSeq, i, beAt p 0 2), (I.tmRxNs, i, st / 256), (I.tmRxFr, i, st % 256), (I.tmOurs, i, beAt p 2 2),
    (I.tmT2, i, beAt p 4 4), (I.tmT2Fr, i, byteAt p 12), (I.tmHave, i, 1)]

/-- The set of stamps that the arrival of a TIME frame completes. -/
def timeLatched (s : State) (i : Nat) (p : List Byte) : List (Fld × Nat × Nat) :=
  let kept := 16 * i + s.rd I.tmOurs i % 16
  [(F.CWY_L_TT_VALUE, 4 * i, s.rd I.tmTxNs kept), (F.CWY_L_TT_VALUE, 4 * i + 1, s.rd I.tmT2 i),
    (F.CWY_L_TT_VALUE, 4 * i + 2, beAt p 8 4), (F.CWY_L_TT_VALUE, 4 * i + 3, s.rd I.tmRxNs i),
    (F.CWY_L_TTFRAC_VALUE, i, s.rd I.tmTxFr kept * 2 ^ 24 + s.rd I.tmT2Fr i * 2 ^ 16 + byteAt p 13 * 256 + s.rd I.tmRxFr i),
    (F.CWY_L_TTSEQ_VALUE, i, 2 ^ 31 + (s.rd F.CWY_L_TTSEQ_VALUE i + 1) % 65536)]

/-- Does a TIME frame follow the one before it, and answer one whose stamps are kept. -/
def TimeFollows (s : State) (i : Nat) (p : List Byte) : Prop :=
  s.rd I.tmHave i = 1 ∧ beAt p 0 2 = (s.rd I.tmRxSeq i + 1) % 65536 ∧ timeKept s i (s.rd I.tmOurs i) = true

theorem timeTake_follows {i n : Nat} {p : List Byte} (h : TimeFollows s i p) : timeTake s i n p = puts s (timeLatched s i p ++ timeNoted s i n p) :=
  (timeTake_says s i n p).trans (congrArg (fun c => puts s (c ++ timeNoted s i n p)) (if_pos h))

theorem timeTake_first {i n : Nat} {p : List Byte} (h : ¬ TimeFollows s i p) : timeTake s i n p = puts s (timeNoted s i n p) :=
  (timeTake_says s i n p).trans (congrArg (fun c => puts s (c ++ timeNoted s i n p)) (if_neg h))

/-- The cells a TIME frame's arrival looks at. -/
def timeLooks : List Fld := [F.TMU_TB_NS_NS, I.tbFrac, F.TMU_LAT_RX_LAT, F.CWY_L_CFG_PORT, F.CWY_L_CFG_TTB, I.tmSeq, I.tmOurs, I.tmTxNs, I.tmT2, I.tmRxNs, I.tmTxFr, I.tmT2Fr,
  I.tmRxFr, I.tmHave, I.tmRxSeq, F.CWY_L_TTSEQ_VALUE]

section
variable {t : State} (ht : ∀ q ∈ timeLooks, ∀ j, t.rd q j = s.rd q j)
include ht

theorem timeNoted_alike (i n : Nat) (p : List Byte) : timeNoted t i n p = timeNoted s i n p := by
  have hplace : stampPlace t i = stampPlace s i := by
    unfold stampPlace
    rw [ht F.CWY_L_CFG_PORT (by simp [timeLooks])]
  unfold timeNoted
  dsimp only
  rw [hplace, ht F.CWY_L_CFG_TTB (by simp [timeLooks]), stamp_cells s t _ _ _ fun q hq => ht q (by simp only [timeLooks, List.mem_cons, List.not_mem_nil] at hq ⊢; tauto)]

theorem timeLatched_alike (i : Nat) (p : List Byte) : timeLatched t i p = timeLatched s i p := by
  unfold timeLatched
  dsimp only
  rw [ht I.tmOurs (by simp [timeLooks]), ht I.tmTxNs (by simp [timeLooks]), ht I.tmT2 (by simp [timeLooks]), ht I.tmRxNs (by simp [timeLooks]),
    ht I.tmTxFr (by simp [timeLooks]), ht I.tmT2Fr (by simp [timeLooks]), ht I.tmRxFr (by simp [timeLooks]), ht F.CWY_L_TTSEQ_VALUE (by simp [timeLooks])]

theorem timeFollows_alike (i : Nat) (p : List Byte) : TimeFollows t i p ↔ TimeFollows s i p := by
  unfold TimeFollows timeKept
  rw [ht I.tmHave (by simp [timeLooks]), ht I.tmRxSeq (by simp [timeLooks]), ht I.tmOurs (by simp [timeLooks]), ht I.tmSeq (by simp [timeLooks])]

end

theorem arrived_looks (s : State) (i : Nat) (b : List Byte) : ∀ q ∈ timeLooks, ∀ j, (puts s (arrived s i b)).rd q j = s.rd q j := fun q hq j =>
  have hids : ∀ q ∈ timeLooks, F.CWY_L_CNT_COUNT.id ≠ q.id ∧ I.cwRx.id ≠ q.id := by decide
  arrived_cell _ _ _ _ _ (hids q hq).1 (hids q hq).2

theorem time_arrived {n : Nat} (hp : FrameInPlace s l.val b) (ht : (cwParse b).type = cwTIME) :
    cwReceive s l.val n b = timeTake (puts s (arrived s l.val b)) l.val n (cwParse b).payload := by
  have hours : FrameOurs s l.val b := .inl (by rw [ht]; rfl)
  rw [receive_ours _ _ _ _ hp hours]
  unfold cwConsume
  rw [ht]
  rfl

theorem time_latches {n : Nat} (hp : FrameInPlace s l.val b) (ht : (cwParse b).type = cwTIME) (hf : TimeFollows s l.val (cwParse b).payload) :
    cwReceive s l.val n b = puts s (arrived s l.val b ++ timeLatched s l.val (cwParse b).payload ++ timeNoted s l.val n (cwParse b).payload) := by
  have hlook := arrived_looks s l.val b
  rw [time_arrived hp ht, timeTake_follows ((timeFollows_alike hlook _ _).mpr hf), List.append_assoc, puts_append s, timeNoted_alike hlook, timeLatched_alike hlook]

theorem time_notes {n : Nat} (hp : FrameInPlace s l.val b) (ht : (cwParse b).type = cwTIME) (hf : ¬ TimeFollows s l.val (cwParse b).payload) :
    cwReceive s l.val n b = puts s (arrived s l.val b ++ timeNoted s l.val n (cwParse b).payload) := by
  have hlook := arrived_looks s l.val b
  rw [time_arrived hp ht, timeTake_first (mt (timeFollows_alike hlook _ _).mp hf), puts_append s, timeNoted_alike hlook]

/-! ### Reads of the stamps -/

variable {ini : Init}

theorem tt1_stopped (h : s.fabric = false) : exec (.tt1Read ini) s = .next s := if_neg (by rw [h]; decide)

theorem tt1_unselected (h : s.fabric = true) (hl : selLink s ini = none) : exec (.tt1Read ini) s = .next (s.seen (initCode ini) 0) := by
  show execTt1Read ini s = _
  unfold execTt1Read
  rw [if_pos h, hl]

/-- The latch of a reader copies words that it does not change. -/
theorem tt1_copied (s : State) (i c : Nat) (ks : List Nat) (u : State) (hu : ∀ k, ttWord u i k = ttWord s i k) :
    u.over ks (fun s k => s.wr I.ttBuf (6 * c + k) (ttWord s i k)) = puts u (ks.map fun k => (I.ttBuf, 6 * c + k, ttWord s i k)) := by
  induction ks generalizing u with
  | nil => rfl
  | cons k ks ih =>
    have hnext : ∀ j, ttWord (u.wr I.ttBuf (6 * c + k) (ttWord u i k)) i j = ttWord s i j := fun j => by
      rw [← hu j]
      unfold ttWord
      rw [State.rd_wr_cell _ _ _ _ _ _ (by decide), State.rd_wr_cell _ _ _ _ _ _ (by decide), State.rd_wr_cell _ _ _ _ _ _ (by decide)]
    rw [List.map_cons, puts_cons, ← hu k]
    exact ih _ hnext

theorem tt1_latches {i c : Nat} (h : s.fabric = true) (hl : selLink s ini = some i) (hc : selCopy ini = some c) :
    exec (.tt1Read ini) s = .next ((puts s ((List.range 6).map fun k => (I.ttBuf, 6 * c + k, ttWord s i k))).seen (initCode ini) (s.rd F.CWY_L_TT_VALUE (4 * i))) := by
  show execTt1Read ini s = _
  unfold execTt1Read
  rw [if_pos h, hl]
  unfold tt1Read
  rw [hc]
  exact congrArg (fun u => Host.Outcome.next (State.seen u (initCode ini) _)) (tt1_copied s i c _ s fun _ => rfl)

theorem epochWrite_stopped {v : Word} (h : s.fabric = false) : exec (.epochWrite ini v) s = .next s := if_neg (by rw [h]; decide)

theorem epochWrite_puts {v : Word} (h : s.fabric = true) : Puts (.epochWrite ini v) s [(F.CWY_EPOCH_EPOCH, 0, v.toNat)] := if_pos h

end

/-- Settles O57: the checks of a frame in order, then the gates of its route, then what LINK and TIME frames write. -/
theorem causewayFramesAreJudgedAndRouted : Obligations.CausewayFramesAreJudgedAndRouted := by
  unfold Obligations.CausewayFramesAreJudgedAndRouted
  refine ⟨fun s l b sub => ⟨receive_deaf, fun hh hi hr => ⟨receive_short hh hi (hr 9), receive_crc hh hi, receive_malformed hh hi (hr 9)⟩,
      fun hw hr => ⟨receive_padded hw, receive_reserved hw (hr 9), receive_misplaced hw⟩, fun hp hloc hr => ⟨receive_other_epoch hp hloc (hr 1), fun he => ⟨receive_unnumbered hp hloc he,
        fun hu hd ho => ?_⟩⟩, linkRx_no, timeRx_no, fun hp => ⟨fun ht c hc => ?_, fun ht c hc => ?_⟩⟩,
    fun s ini => ⟨fun h => ⟨tt1_stopped h, fun _ => epochWrite_stopped h⟩, fun h => ⟨fun _ => epochWrite_puts h, tt1_unselected h, fun _ _ => tt1_latches h⟩⟩⟩
  · have hgo : GoesOn s l.val b := ⟨hp, hloc, he, hu, hd, ho⟩
    exact ⟨forward_dropped hgo (hr 10), fun hh hv => forward_down hgo hh hv, fun hh hv hup hopen => ⟨forward_sequenced hgo hh hv hup hopen, forward_unsequenced hgo hh hv hup hopen⟩⟩
  · have hexec : ∃ n, exec c s = .next (cwReceive s l.val n b) := by
      simp only [List.mem_cons, List.not_mem_nil, or_false] at hc
      rcases hc with rfl | rfl
      · exact ⟨0, linkRx_receives ht⟩
      · exact ⟨sub.toNat, rfl⟩
    obtain ⟨n, hexec⟩ := hexec
    exact ⟨fun hn => hexec.trans (congrArg _ (link_told hp ht hn)), fun hr ho => hexec.trans (congrArg _ (link_rises hp ht hr ho))⟩
  · have hexec : exec c s = .next (cwReceive s l.val sub.toNat b) := by
      simp only [List.mem_cons, List.not_mem_nil, or_false] at hc
      rcases hc with rfl | rfl
      · exact timeRx_receives ht
      · rfl
    exact ⟨fun hf => hexec.trans (congrArg _ (time_latches hp ht hf)), fun hf => hexec.trans (congrArg _ (time_notes hp ht hf))⟩

end Sys2Proof.Machine
end

section
/-! PROOFS.  What devices say to each other: events, messages, fences, remote accesses, forwarded frames, bridges and
boot frames (O58). -/

namespace Sys2Proof.Machine

open Safety

set_option Elab.async false

section
variable {s : State} {ini : Init} {v : Word}

/-! ### What is sent -/

theorem cwSend_unreach (t : State) (who type dev : Nat) (p : List Byte) (h : devLocked t = false ∨ cwRoute t dev = none) :
    cwSend t who type dev p = cwUnreach t who := by
  have hnone : (if devLocked t = true then cwRoute t dev else none) = none := by
    rcases h with h | h
    · rw [h]
      rfl
    · rw [h, ite_self]
  unfold cwSend
  rw [hnone]

/-- A command that writes cells that sending does not look at, and sends. -/
theorem sends_alike {k : Instr} {pre done lost : List (Fld × Nat × Nat)} {type dev who : Nat} {p : List Byte} (hexec : exec k s = .next (cwSend (puts s pre) who type dev p))
    (ha : SendAlike s (puts s pre)) (hq : cwSequenced type = true) (hdone : ∀ t, cwPlaced t who = puts t done)
    (hlost : ∀ t, cwUnreach t who = puts (cwCnt t 0) lost) : Sends k s pre type dev p done lost := by
  obtain ⟨hlocked, -, hroute, -, hcnt, -⟩ := ha.says dev
  refine ⟨fun r h1 h2 h3 => ?_, fun h hr => hexec.trans (congrArg _ ?_)⟩
  · rw [hexec, (send_alike ha who type dev r p hq).1 ⟨h1, h2, h3⟩, hdone]
    rfl
  · rw [cwSend_unreach _ _ _ _ _ (by rw [hlocked, hroute]; exact h), hlost, cwCnt_room _ _ (by rw [hcnt]; exact hr), hcnt, puts_append s]
    rfl

theorem sends_stopped (h : s.fabric = false) : ∀ k ∈ [Instr.revtSend ini v, .mbsSend ini v, .fencecmd ini v, .raCmd ini v], exec k s = .next s := by
  have hoff : ∀ t : State, (if s.fabric = true then (go t : Host.Outcome State Fault Refusal) else go s) = .next s := fun t => if_neg (by rw [h]; decide)
  intro k hk
  simp only [List.mem_cons, List.not_mem_nil, or_false] at hk
  rcases hk with rfl | rfl | rfl | rfl <;> exact hoff _

theorem revt_sends (h : s.fabric = true) :
    Sends (.revtSend ini v) s [] cwEVENT (s.rd F.CWY_REVT_DEV_DEV (initCode ini)) (beBytes 4 v.toNat) [] [] :=
  sends_alike (who := 0) (if_pos h) ⟨fun _ _ _ => rfl, rfl, fun _ => rfl⟩ rfl (fun _ => rfl) fun _ => rfl

theorem fence_next (h : s.fabric = true) : exec (.fencecmd ini v) s = .next (fencecmdWrite s v.toNat) := if_pos h

theorem fence_stored (h : s.fabric = true) (hg : ¬ (bitOf v.toNat 31 = true ∧ s.rd F.CWY_FENCECMD_GO = 0)) :
    Puts (.fencecmd ini v) s [(F.CWY_FENCECMD_DEV, 0, bits v.toNat 10 0)] := by
  refine (fence_next h).trans (congrArg _ ?_)
  rw [fence_says, if_neg hg]

theorem fence_sends (h : s.fabric = true) (hg : bitOf v.toNat 31 = true ∧ s.rd F.CWY_FENCECMD_GO = 0) :
    Sends (.fencecmd ini v) s ([(F.CWY_FENCECMD_DEV, 0, bits v.toNat 10 0)] ++ [(F.CWY_FENCECMD_GO, 0, 1)]) cwFENCE (bits v.toNat 10 0) []
      [(F.CWY_FENCECMD_GO, 0, 0), (F.CWY_FENCECMD_RESULT, 0, 0)] [(F.CWY_FENCECMD_GO, 0, 0), (F.CWY_FENCECMD_RESULT, 0, 1)] := by
  refine sends_alike (who := 2) ((fence_next h).trans (congrArg _ ?_)) (alike_fence s _ _) rfl (fun _ => rfl) fun _ => rfl
  rw [fence_says, if_pos hg]
  rfl

theorem ra_next (h : s.fabric = true) : exec (.raCmd ini v) s = .next (raCmdWrite s v.toNat) := if_pos h

theorem ra_stored (h : s.fabric = true) (hg : ¬ (bitOf v.toNat 31 = true ∧ s.rd F.CWY_RA_CMD_GO = 0)) :
    Puts (.raCmd ini v) s [(F.CWY_RA_CMD_WR, 0, bitN v.toNat 30), (F.CWY_RA_CMD_DEV, 0, bits v.toNat 10 0)] := by
  refine (ra_next h).trans (congrArg _ ?_)
  rw [ra_says, if_neg hg]

theorem ra_sends (h : s.fabric = true) (hg : bitOf v.toNat 31 = true ∧ s.rd F.CWY_RA_CMD_GO = 0) :
    Sends (.raCmd ini v) s ([(F.CWY_RA_CMD_WR, 0, bitN v.toNat 30), (F.CWY_RA_CMD_DEV, 0, bits v.toNat 10 0)] ++
        [(I.raTag, 0, (s.rd I.raTag + 1) % 65536), (F.CWY_RA_CMD_GO, 0, 1)]) cwRACC (bits v.toNat 10 0)
      (beBytes 4 (bitN v.toNat 30 * 2 ^ 31 + (s.rd I.raTag + 1) % 65536) ++ beBytes 4 (s.rd F.CWY_RA_ADDR_HI_ADDR) ++ beBytes 4 (s.rd F.CWY_RA_ADDR_LO_ADDR) ++
        beBytes 4 (s.rd F.CWY_RA_DATA_DATA)) [] [(F.CWY_RA_CMD_GO, 0, 0), (F.CWY_RA_CMD_RESULT, 0, 4)] := by
  refine sends_alike (who := 3) ((ra_next h).trans (congrArg _ ?_)) (alike_ra s _ _ _ _) rfl (fun _ => rfl) fun _ => rfl
  rw [ra_says, if_pos hg]
  rfl

theorem mbs_next (h : s.fabric = true) : exec (.mbsSend ini v) s = .next (mbsCmdWrite s v.toNat) := if_pos h

theorem mbs_stored (h : s.fabric = true) (hg : ¬ (bitOf v.toNat 31 = true ∧ s.rd F.CWY_MBS_CMD_GO = 0)) : exec (.mbsSend ini v) s = .next (mbsFields s v.toNat) := by
  refine (mbs_next h).trans (congrArg _ ?_)
  rw [mbs_says, if_neg hg]
  rfl

section
variable (h : s.fabric = true) (hg : bitOf v.toNat 31 = true ∧ s.rd F.CWY_MBS_CMD_GO = 0)
include h hg

theorem mbs_goes : exec (.mbsSend ini v) s = .next (mbsGo (mbsFields s v.toNat)) := by
  refine (mbs_next h).trans (congrArg _ ?_)
  rw [mbs_says, if_pos hg]

theorem mbs_refused (hok : ¬ MbsOk s v.toNat) : exec (.mbsSend ini v) s = .next (puts (mbsFields s v.toNat) [(F.CWY_MBS_CMD_RESULT, 0, 2)]) := by
  rw [mbs_goes h hg, mbsGo_bad _ _ hok]

theorem mbs_sends (hok : MbsOk s v.toNat) (h30 : bitOf v.toNat 30 = false) :
    Sends (.mbsSend ini v) s ([(F.CWY_MBS_CMD_BOOT, 0, bitN v.toNat 30), (F.CWY_MBS_CMD_LEN, 0, bits v.toNat 23 11), (F.CWY_MBS_CMD_DEV, 0, bits v.toNat 10 0)] ++
        [(F.CWY_MBS_CMD_GO, 0, 1)]) cwMBOX (bits v.toNat 10 0)
      (s.readBytes (s.rd F.CWY_MBS_ADDR_HI_ADDR * 2 ^ 32 + s.rd F.CWY_MBS_ADDR_LO_ADDR) (bits v.toNat 23 11))
      [(F.CWY_MBS_CMD_GO, 0, 0), (F.CWY_MBS_CMD_RESULT, 0, 0)] [(F.CWY_MBS_CMD_GO, 0, 0), (F.CWY_MBS_CMD_RESULT, 0, 1)] :=
  sends_alike (who := 1) ((mbs_goes h hg).trans (congrArg _ (mbsGo_mbox s v.toNat hok h30))) (alike_msg s _ _ _ _) rfl (fun _ => rfl) fun _ => rfl

theorem mbs_boots (hok : MbsOk s v.toNat) (h30 : bitOf v.toNat 30 = true) (hl : bits v.toNat 10 0 % 16 < 6) (hu : cwUp s (bits v.toNat 10 0 % 16) = true)
    (hr : s.rd F.CWY_L_CNT_COUNT (6 * (bits v.toNat 10 0 % 16)) + 2 < 2 ^ 32) : exec (.mbsSend ini v) s =
      .next (puts (sentOnce (mbsFields s v.toNat) (bits v.toNat 10 0 % 16) 0 (ownFrame s cwBOOT 0
        (s.readBytes (s.rd F.CWY_MBS_ADDR_HI_ADDR * 2 ^ 32 + s.rd F.CWY_MBS_ADDR_LO_ADDR) (bits v.toNat 23 11)))) [(F.CWY_MBS_CMD_RESULT, 0, 0)]) := by
  have ha : SendAlike s (mbsFields s v.toNat) := alike_mb s _ _ _
  obtain ⟨-, hown, -, hepoch, -, -⟩ := ha.says 0
  rw [mbs_goes h hg, mbsGo_boot s _ hok h30 hl hu, sendLocal_says _ _ _ _ hl (by rw [ha.2.2]; exact hr) rfl, hown, hepoch]
  rfl

theorem mbs_lost (hok : MbsOk s v.toNat) (h30 : bitOf v.toNat 30 = true) (hd : 14 ≤ bits v.toNat 10 0 % 16 ∨ cwUp s (bits v.toNat 10 0 % 16) = false)
    (hr : s.rd F.CWY_CNT_COUNT 0 + 2 < 2 ^ 32) :
    exec (.mbsSend ini v) s = .next (puts (mbsFields s v.toNat) [cwCounted s 0, (F.CWY_MBS_CMD_GO, 0, 0), (F.CWY_MBS_CMD_RESULT, 0, 1)]) := by
  have ha : SendAlike s (mbsFields s v.toNat) := alike_mb s _ _ _
  obtain ⟨-, -, -, -, hcnt, -⟩ := ha.says 0
  obtain ⟨-, hdev, hboot, hcell⟩ := mbsFields_reads s v.toNat
  have hup : cwUp (mbsFields s v.toNat) (bits v.toNat 10 0 % 16) = cwUp s (bits v.toNat 10 0 % 16) := by
    unfold cwUp
    rw [State.on_eq, State.on_eq, hcell _ _ (by decide)]
  have hgate : ¬ (decide (bits v.toNat 10 0 % 16 < 14) && cwUp s (bits v.toNat 10 0 % 16)) = true := by
    rw [Bool.and_eq_true, decide_eq_true_eq]
    rintro ⟨h14, hu⟩
    rcases hd with hd | hd
    · omega
    · rw [hu] at hd
      exact absurd hd (by decide)
  have hlost : mbsGo (mbsFields s v.toNat) = cwUnreach (mbsFields s v.toNat) 1 := by
    unfold mbsGo
    dsimp only
    rw [(mbsArg_says s _).mpr hok, hboot, h30, if_neg (by decide), if_pos rfl, hdev, hup, if_neg hgate]
  rw [mbs_goes h hg, hlost]
  unfold cwUnreach
  rw [cwCnt_room _ _ (by rw [hcnt]; exact hr), hcnt]
  rfl

end

theorem raTimeout_no (h : s.rd F.CWY_RA_CMD_GO = 0) : exec .raTimeout s = .next s := if_neg (by rw [on_of_zero h]; decide)

theorem raTimeout_ends (h : s.rd F.CWY_RA_CMD_GO = 1) : Puts .raTimeout s [(F.CWY_RA_CMD_GO, 0, 0), (F.CWY_RA_CMD_RESULT, 0, 3)] := if_pos (on_of_one h)

theorem bootRequest_no (h : ¬ (cwBooting s = true ∧ cwUp s 0 = true)) : exec .bootRequestSend s = .next s := if_neg (mt Bool.and_eq_true_iff.mp h)

theorem bootRequest_sends (h : cwBooting s = true ∧ cwUp s 0 = true) (hr : s.rd F.CWY_L_CNT_COUNT 0 + 2 < 2 ^ 32) : exec .bootRequestSend s =
    .next (sentOnce s 0 0 (ownFrame s cwBOOT 0 (beBytes 4 0 ++ beBytes 4 (s.rd F.FUS_SHADOW_WORD 124) ++ beBytes 4 (s.rd F.FUS_SHADOW_WORD 125)))) :=
  (if_pos (Bool.and_eq_true_iff.mpr h)).trans (congrArg _ (sendLocal_says s 0 cwBOOT _ (by decide) hr rfl))

end

/-! ### What is received -/

section
variable {s : State} {l : Fin 14} {b : List Byte} {x : Instr} {ty : Nat}

theorem other_type (hx : exec x s = .next (cwReceiveIf (isFrame b ty) s l.val 0 b)) (h : (cwParse b).type ≠ ty) : exec x s = .next s := by
  have hframe : isFrame b ty = false := beq_false_of_ne h
  rw [hx, hframe]
  rfl

theorem others_types : ∀ c ∈ [(Instr.eventRx l b, cwEVENT), (.mboxRx l b, cwMBOX), (.raccRx l b, cwRACC), (.rrspRx l b, cwRRSP), (.fenceRx l b, cwFENCE),
    (.pktfwdRx l b, cwPKTFWD), (.bridgeRx l b, cwBRIDGE), (.bootRx l b, cwBOOT)], (cwParse b).type ≠ c.2 → exec c.1 s = .next s := by
  intro c hc
  simp only [List.mem_cons, List.not_mem_nil, or_false] at hc
  rcases hc with rfl | rfl | rfl | rfl | rfl | rfl | rfl | rfl <;> exact other_type (l := l) rfl

/-- A frame that is this device's, in its place, on a link. -/
structure Comes (s : State) (i : Nat) (b : List Byte) : Prop where
  place : FrameInPlace s i b
  ours : FrameOurs s i b

/-- The state in which a frame has come. -/
def cameHere (s : State) (i : Nat) (b : List Byte) : State := puts s (arrived s i b)

theorem cameHere_rd (s : State) (i : Nat) (b : List Byte) (q : Fld) (j : Nat) (h : ∀ f ∈ [F.CWY_L_CNT_COUNT, I.cwRx], f.id ≠ q.id) :
    (cameHere s i b).rd q j = s.rd q j := arrived_cell _ _ _ _ _ (h _ (by simp)) (h _ (by simp))

theorem cameHere_on (s : State) (i : Nat) (b : List Byte) (q : Fld) (j : Nat) (h : ∀ f ∈ [F.CWY_L_CNT_COUNT, I.cwRx], f.id ≠ q.id) :
    (cameHere s i b).on q j = s.on q j := by
  rw [State.on_eq, State.on_eq, cameHere_rd _ _ _ _ _ h]

theorem cameHere_counts {k : Nat} (h : s.rd F.CWY_CNT_COUNT k + 2 < 2 ^ 32) : cwCnt (cameHere s l.val b) k = puts s (arrived s l.val b ++ [cwCounted s k]) := by
  have hcnt : (cameHere s l.val b).rd F.CWY_CNT_COUNT k = s.rd F.CWY_CNT_COUNT k := cameHere_rd _ _ _ _ _ (by decide)
  rw [cwCnt_room _ _ (by rw [hcnt]; exact h), hcnt, puts_append]
  rfl

/-- A frame that has come is consumed, by the command of its type as among all frames. -/
theorem consumed (hx : exec x s = .next (cwReceiveIf (isFrame b ty) s l.val 0 b)) (hc : Comes s l.val b) (ht : (cwParse b).type = ty) {k : Instr}
    (hk : k ∈ [x, .cwFrameReceive l b 0]) : exec k s = .next (cwConsume (cameHere s l.val b) l.val 0 (cwParse b)) := by
  have hrcv : cwReceive s l.val 0 b = cwConsume (cameHere s l.val b) l.val 0 (cwParse b) := receive_ours _ _ _ _ hc.place hc.ours
  have hframe : isFrame b ty = true := beq_iff_eq.mpr ht
  simp only [List.mem_cons, List.not_mem_nil, or_false] at hk
  rcases hk with rfl | rfl
  · rw [hx, hframe, ← hrcv]
    rfl
  · exact congrArg _ hrcv

section
variable (hc : Comes s l.val b)
include hc

/-! #### Events -/

section
variable {k : Instr} (hk : k ∈ [Instr.eventRx l b, .cwFrameReceive l b 0]) (ht : (cwParse b).type = cwEVENT)
include hk ht

theorem event_comes : exec k s = .next (setFlags (cameHere s l.val b) (beAt (cwParse b).payload 0 4 % 65536) (bits (beAt (cwParse b).payload 0 4) 31 16)) := by
  refine (consumed (x := .eventRx l b) rfl hc ht hk).trans ?_
  unfold cwConsume
  rw [ht]
  rfl

theorem event_empty (he : taskSt s (beAt (cwParse b).payload 0 4 % 65536) = tEMPTY) : Puts k s (arrived s l.val b) := by
  have hst := cameHere_rd s l.val b F.TSU_T_STAT_STATE (beAt (cwParse b).payload 0 4 % 65536) (by decide)
  refine (event_comes hc hk ht).trans (congrArg _ ?_)
  exact if_pos (hst.trans he)

theorem event_flags (he : taskSt s (beAt (cwParse b).payload 0 4 % 65536) ≠ tEMPTY) : Puts k s (arrived s l.val b ++
    [(F.TSU_T_FLAGS_FLAGS, beAt (cwParse b).payload 0 4 % 65536,
      Nat.lor (s.rd F.TSU_T_FLAGS_FLAGS (beAt (cwParse b).payload 0 4 % 65536)) (bits (beAt (cwParse b).payload 0 4) 31 16))]) := by
  have hst := cameHere_rd s l.val b F.TSU_T_STAT_STATE (beAt (cwParse b).payload 0 4 % 65536) (by decide)
  have hflags := cameHere_rd s l.val b F.TSU_T_FLAGS_FLAGS (beAt (cwParse b).payload 0 4 % 65536) (by decide)
  refine (event_comes hc hk ht).trans (congrArg _ ?_)
  unfold setFlags
  rw [if_neg (show ¬ taskSt (cameHere s l.val b) _ = tEMPTY from fun h => he (hst.symm.trans h)), hflags, puts_append]
  rfl

end

/-! #### Messages -/

/-- Where the next message goes in the mailbox ring. -/
def mailSlot (s : State) : Option Nat := ringPlace (s.rd F.CWY_MBR_BASE_BASE) (s.rd F.CWY_MBR_CFG_SIZE) (s.rd F.CWY_MBR_WP_WP) (s.rd F.CWY_MBR_RP_RP) 256

/-- The bytes of a message in the mailbox ring. -/
def mailBytes (s : State) (src epoch : Nat) (p : List Byte) : List Byte :=
  leBytes 4 (p.length * 65536 + src) ++ leBytes 4 epoch ++ leBytes 4 (s.rd F.TMU_TB_NS_NS 0) ++ [0, 0, 0, 0] ++ p

omit hc in
theorem mailSlot_here : mailSlot (cameHere s l.val b) = mailSlot s := by
  unfold mailSlot
  rw [cameHere_rd _ _ _ _ _ (by decide), cameHere_rd _ _ _ _ _ (by decide), cameHere_rd _ _ _ _ _ (by decide), cameHere_rd _ _ _ _ _ (by decide)]

omit hc in
theorem mail_counted {src epoch : Nat} {p : List Byte} (hr : s.rd F.CWY_CNT_COUNT 5 + 2 < 2 ^ 32)
    (h : ¬ (s.rd F.FUS_PMMISC_RMBOX = 1 ∧ p.length ≤ 240) ∨ mailSlot s = none) : mboxTake (cameHere s l.val b) src epoch p = puts s (arrived s l.val b ++ [cwCounted s 5]) := by
  obtain ⟨-, hno⟩ := mboxTake_says (cameHere s l.val b) src epoch p
  rw [hno (by rw [cameHere_rd _ _ _ _ _ (by decide)]; exact h.imp_right mailSlot_here.trans), cameHere_counts hr]

omit hc in
theorem mail_stored {src epoch a : Nat} {p : List Byte} (hf : s.rd F.FUS_PMMISC_RMBOX = 1 ∧ p.length ≤ 240) (ha : mailSlot s = some a) :
    mboxTake (cameHere s l.val b) src epoch p = puts (physWrite (puts s (arrived s l.val b)) a (mailBytes s src epoch p))
      [(F.CWY_MBR_WP_WP, 0, s.rd F.CWY_MBR_WP_WP + 1), (F.CWY_IRQSTAT_MBRX, 0, 1)] := by
  obtain ⟨hyes, -⟩ := mboxTake_says (cameHere s l.val b) src epoch p
  rw [hyes a (by rw [cameHere_rd _ _ _ _ _ (by decide)]; exact hf) (mailSlot_here.trans ha), cameHere_rd _ _ _ F.CWY_MBR_WP_WP _ (by decide),
    cameHere_rd _ _ _ F.TMU_TB_NS_NS _ (by decide)]
  rfl

omit hc in
theorem booting_here : cwBooting (cameHere s l.val b) = cwBooting s := by
  unfold cwBooting State.mode
  rw [cameHere_rd _ _ _ _ _ (by decide), cameHere_rd _ _ _ _ _ (by decide), cameHere_rd _ _ _ _ _ (by decide)]

/-- A message, or a request to boot at a device that does not boot, reaches the mailbox. -/
theorem mail_comes {c : Instr × Nat} (hm : c ∈ [(Instr.mboxRx l b, cwMBOX), (.cwFrameReceive l b 0, cwMBOX), (.bootRx l b, cwBOOT), (.cwFrameReceive l b 0, cwBOOT)])
    (ht : (cwParse b).type = c.2) (hb : c.2 = cwBOOT → cwBooting s = false ∧ beAt (cwParse b).payload 0 4 = 0) :
    exec c.1 s = .next (mboxTake (cameHere s l.val b) (if c.2 = cwBOOT then 0 else (cwParse b).src) (cwParse b).epoch (cwParse b).payload) := by
  have hmbox : ∀ k ∈ [Instr.mboxRx l b, .cwFrameReceive l b 0], (cwParse b).type = cwMBOX →
      exec k s = .next (mboxTake (cameHere s l.val b) (cwParse b).src (cwParse b).epoch (cwParse b).payload) := fun k hk ht => by
    refine (consumed (x := .mboxRx l b) rfl hc ht hk).trans ?_
    unfold cwConsume
    rw [ht]
    rfl
  have hboot : ∀ k ∈ [Instr.bootRx l b, .cwFrameReceive l b 0], (cwParse b).type = cwBOOT → cwBooting s = false → beAt (cwParse b).payload 0 4 = 0 →
      exec k s = .next (mboxTake (cameHere s l.val b) 0 (cwParse b).epoch (cwParse b).payload) := fun k hk ht h1 h2 => by
    refine (consumed (x := .bootRx l b) rfl hc ht hk).trans ?_
    unfold cwConsume
    rw [ht]
    show Host.Outcome.next (bootFrame (cameHere s l.val b) (cwParse b)) = _
    unfold bootFrame
    rw [booting_here, h1, if_neg (by decide), if_pos h2]
  simp only [List.mem_cons, List.not_mem_nil, or_false] at hm
  rcases hm with rfl | rfl | rfl | rfl
  · exact hmbox _ (by simp) ht
  · exact hmbox _ (by simp) ht
  · exact hboot _ (by simp) ht (hb rfl).1 (hb rfl).2
  · exact hboot _ (by simp) ht (hb rfl).1 (hb rfl).2

/-! #### Remote accesses -/

/-- The answer to a remote access. -/
def raccAnswer (made : State) (src : Nat) (e : Ending) (data : Nat) (p : List Byte) : CwFrame :=
  ownFrame made cwRRSP src (beBytes 4 (raccStatus e * 2 ^ 24 + beAt p 2 2) ++ beBytes 4 data)

omit hc in
theorem answer_sent {made : State} {src r data : Nat} {e : Ending} {p : List Byte} (h1 : devLocked made = true) (h2 : cwRoute made src = some r)
    (h3 : LinkOpen made r (raccAnswer made src e data p)) :
    cwSend made 0 cwRRSP src (beBytes 4 (raccStatus e * 2 ^ 24 + beAt p 2 2) ++ beBytes 4 data) = sentFrame made r (raccAnswer made src e data p) :=
  (send_alike ⟨fun _ _ _ => rfl, rfl, fun _ => rfl⟩ 0 cwRRSP src r _ rfl).1 ⟨h1, h2, h3⟩

omit hc in
theorem answer_lost {made : State} {src : Nat} {q : List Byte} (h : devLocked made = false ∨ cwRoute made src = none) (hr : made.rd F.CWY_CNT_COUNT 0 + 2 < 2 ^ 32) :
    cwSend made 0 cwRRSP src q = puts made [cwCounted made 0] := by
  rw [cwSend_unreach _ _ _ _ _ h]
  exact cwCnt_room _ _ hr

omit hc in
/-- A remote access is made as `x` or `y` says, and answered. -/
theorem racc_answers {u : State} {src : Nat} {p : List Byte} {x : Ending × State} {y : Ending × Nat × State}
    (hx : busWrite u .racc (byteAt p 7 * 2 ^ 32 + beAt p 8 4) (leBytes 4 (beAt p 12 4)) = x) (hy : busRead u .racc (byteAt p 7 * 2 ^ 32 + beAt p 8 4) 4 = y) :
    raccTake u src p = if bitOf (byteAt p 0) 7 = true then cwSend x.2 0 cwRRSP src (beBytes 4 (raccStatus x.1 * 2 ^ 24 + beAt p 2 2) ++ beBytes 4 0)
      else cwSend y.2.2 0 cwRRSP src (beBytes 4 (raccStatus y.1 * 2 ^ 24 + beAt p 2 2) ++ beBytes 4 y.2.1) := by
  split
  next h => rw [racc_write u src p h, hx]
  next h => rw [racc_read u src p (by simpa using h), hy]

theorem racc_comes {k : Instr} (hk : k ∈ [Instr.raccRx l b, .cwFrameReceive l b 0]) (ht : (cwParse b).type = cwRACC) :
    exec k s = .next (raccTake (cameHere s l.val b) (cwParse b).src (cwParse b).payload) := by
  refine (consumed (x := .raccRx l b) rfl hc ht hk).trans ?_
  unfold cwConsume
  rw [ht]
  rfl

theorem racc_answered {k : Instr} (hk : k ∈ [Instr.raccRx l b, .cwFrameReceive l b 0]) (ht : (cwParse b).type = cwRACC) {x : Ending × State} {y : Ending × Nat × State}
    (hx : busWrite (puts s (arrived s l.val b)) .racc (byteAt (cwParse b).payload 7 * 2 ^ 32 + beAt (cwParse b).payload 8 4) (leBytes 4 (beAt (cwParse b).payload 12 4)) = x)
    (hy : busRead (puts s (arrived s l.val b)) .racc (byteAt (cwParse b).payload 7 * 2 ^ 32 + beAt (cwParse b).payload 8 4) 4 = y) :
    let made := if bitOf (byteAt (cwParse b).payload 0) 7 then x.2 else y.2.2
    let status := match (if bitOf (byteAt (cwParse b).payload 0) 7 then x.1 else y.1) with | .ok => 0 | .prot => 1 | .decode => 2
    let data := if bitOf (byteAt (cwParse b).payload 0) 7 then 0 else y.2.1
    let answer := ownFrame made cwRRSP (cwParse b).src (beBytes 4 (status * 2 ^ 24 + beAt (cwParse b).payload 2 2) ++ beBytes 4 data)
    (∀ r, devLocked made = true → cwRoute made (cwParse b).src = some r → LinkOpen made r answer → exec k s = .next (sentFrame made r answer)) ∧
    (devLocked made = false ∨ cwRoute made (cwParse b).src = none → made.rd F.CWY_CNT_COUNT 0 + 2 < 2 ^ 32 → exec k s = .next (puts made [cwCounted made 0])) := by
  have hexec := racc_comes hc hk ht
  unfold cameHere at hexec
  rw [racc_answers hx hy] at hexec
  by_cases hw : bitOf (byteAt (cwParse b).payload 0) 7 = true
  · rw [if_pos hw] at hexec
    simp only [hw, if_true]
    exact ⟨fun r h1 h2 h3 => hexec.trans (congrArg _ (answer_sent h1 h2 h3)), fun h1 h2 => hexec.trans (congrArg _ (answer_lost h1 h2))⟩
  · rw [if_neg hw] at hexec
    simp only [hw]
    exact ⟨fun r h1 h2 h3 => hexec.trans (congrArg _ (answer_sent h1 h2 h3)), fun h1 h2 => hexec.trans (congrArg _ (answer_lost h1 h2))⟩

section
variable {k : Instr} (hk : k ∈ [Instr.rrspRx l b, .cwFrameReceive l b 0]) (ht : (cwParse b).type = cwRRSP)
include hk ht

theorem rrsp_comes : exec k s = .next (rrspRx (cameHere s l.val b) (cwParse b).payload) := by
  refine (consumed (x := .rrspRx l b) rfl hc ht hk).trans ?_
  unfold cwConsume
  rw [ht]
  rfl

theorem rrsp_ignored (h : ¬ (s.rd F.CWY_RA_CMD_GO = 1 ∧ beAt (cwParse b).payload 2 2 = s.rd I.raTag)) : Puts k s (arrived s l.val b) := by
  refine (rrsp_comes hc hk ht).trans (congrArg _ ?_)
  unfold rrspRx
  rw [cameHere_on _ _ _ _ _ (by decide), cameHere_rd _ _ _ _ _ (by decide)]
  refine if_neg fun hb => h ?_
  rw [Bool.and_eq_true, on_one rfl, beq_iff_eq] at hb
  exact hb

theorem rrsp_ends (h : s.rd F.CWY_RA_CMD_GO = 1 ∧ beAt (cwParse b).payload 2 2 = s.rd I.raTag) : Puts k s (arrived s l.val b ++
    (if s.rd F.CWY_RA_CMD_WR = 0 ∧ byteAt (cwParse b).payload 0 = 0 then [(F.CWY_RA_DATA_DATA, 0, beAt (cwParse b).payload 4 4)] else []) ++
    [(F.CWY_RA_CMD_GO, 0, 0), (F.CWY_RA_CMD_RESULT, 0, byteAt (cwParse b).payload 0)]) := by
  have hreads : (!s.on F.CWY_RA_CMD_WR 0 && byteAt (cwParse b).payload 0 == 0) = decide (s.rd F.CWY_RA_CMD_WR = 0 ∧ byteAt (cwParse b).payload 0 = 0) := by
    rw [State.on_eq, Bool.decide_and]
    rcases flag_cases s 0 (f := F.CWY_RA_CMD_WR) rfl with h0 | h0 <;> rw [h0] <;> rfl
  refine (rrsp_comes hc hk ht).trans (congrArg _ ?_)
  unfold rrspRx
  rw [cameHere_on _ _ _ _ _ (by decide), cameHere_rd _ _ _ _ _ (by decide), cameHere_on _ _ _ _ _ (by decide), on_of_one h.1, h.2, beq_self_eq_true,
    if_pos (by decide), hreads, puts_append, puts_append]
  simp only [decide_eq_true_eq]
  by_cases hd : s.rd F.CWY_RA_CMD_WR = 0 ∧ byteAt (cwParse b).payload 0 = 0
  · rw [if_pos hd, if_pos hd]
    rfl
  · rw [if_neg hd, if_neg hd]
    rfl

end

/-! #### Fences -/

omit hc in
theorem enterFenced_mode {u : State} {cause : Nat} (hcause : cause < 16) (h1 : u.mode ≠ mRESET) (h2 : u.mode ≠ mFENCED) :
    (enterFenced u cause).mode = mFENCED ∧ (enterFenced u cause).rd F.PMU_MODE_CAUSE = cause := by
  have hids : ∀ g ∈ modeCells, ∀ f ∈ [I.fencePend, I.watchEntry, I.wakePend, I.bootPh, I.pinPen], f.id ≠ g.id := by decide
  have hcell : ∀ g ∈ modeCells, (enterFenced u cause).rd g 0 =
      (puts u [(F.PMU_MODE_CURRENT, 0, mFENCED), (F.PMU_MODE_CAUSE, 0, cause), (F.PMU_IRQSTAT_MODEDONE, 0, 1)]).rd g 0 := fun g hg => by
    unfold enterFenced
    rw [if_neg (by simpa using h1), if_neg (by simpa using h2)]
    dsimp only
    rw [fenceInterfaces_mode _ g hg, setPens_other _ _ _ _ (hids g hg _ (by simp))]
    exact puts_rd_other [I.fencePend, I.watchEntry, I.wakePend, I.bootPh] (l := [(I.fencePend, 0, 0), (I.watchEntry, 0, 0), (I.wakePend, 0, 0), (I.bootPh, 0, 0)]) g 0
      fun f hf => hids g hg f (by simp only [List.mem_cons, List.not_mem_nil, or_false] at hf ⊢; tauto)
  constructor
  · exact (hcell F.PMU_MODE_CURRENT (by simp [modeCells])).trans (puts_rd_at (s := u) (l := [(F.PMU_MODE_CURRENT, 0, mFENCED), (F.PMU_MODE_CAUSE, 0, cause), (F.PMU_IRQSTAT_MODEDONE, 0, 1)]) [F.PMU_MODE_CURRENT, F.PMU_MODE_CAUSE, F.PMU_IRQSTAT_MODEDONE] 0 (by decide))
  · exact ((hcell F.PMU_MODE_CAUSE (by simp [modeCells])).trans (puts_rd_at (s := u) (l := [(F.PMU_MODE_CURRENT, 0, mFENCED), (F.PMU_MODE_CAUSE, 0, cause), (F.PMU_IRQSTAT_MODEDONE, 0, 1)]) [F.PMU_MODE_CURRENT, F.PMU_MODE_CAUSE, F.PMU_IRQSTAT_MODEDONE] 1 (by decide))).trans
      (Nat.mod_eq_of_lt hcause)

section
variable {k : Instr} (hk : k ∈ [Instr.fenceRx l b, .cwFrameReceive l b 0]) (ht : (cwParse b).type = cwFENCE)
include hk ht

theorem fence_comes : exec k s = .next (fenceTake (cameHere s l.val b)) := by
  refine (consumed (x := .fenceRx l b) rfl hc ht hk).trans ?_
  unfold cwConsume
  rw [ht]
  rfl

theorem fence_counted (h : s.rd F.FUS_PMMISC_RFENCE = 0) (hr : s.rd F.CWY_CNT_COUNT 7 + 2 < 2 ^ 32) : Puts k s (arrived s l.val b ++ [cwCounted s 7]) := by
  refine (fence_comes hc hk ht).trans (congrArg _ ?_)
  unfold fenceTake
  rw [cameHere_on _ _ _ _ _ (by decide), on_of_zero h, if_neg (by decide), cameHere_counts hr]

theorem fence_obeyed (h : s.rd F.FUS_PMMISC_RFENCE = 1) : Does k s fun t => s.mode ≠ mRESET → s.mode ≠ mFENCED →
    t.mode = mFENCED ∧ t.rd F.PMU_MODE_CAUSE = 7 ∧ t = enterFenced (puts s (arrived s l.val b)) 7 := by
  have hmode : (cameHere s l.val b).mode = s.mode := cameHere_rd s l.val b F.PMU_MODE_CURRENT 0 (by decide)
  have hexec : exec k s = .next (enterFenced (cameHere s l.val b) 7) := by
    refine (fence_comes hc hk ht).trans (congrArg _ ?_)
    unfold fenceTake
    rw [cameHere_on _ _ _ _ _ (by decide), on_of_one h, if_pos rfl]
  refine Does.of_next hexec fun h1 h2 => ?_
  obtain ⟨hm, hcause⟩ := enterFenced_mode (u := cameHere s l.val b) (cause := 7) (by decide) (by rw [hmode]; exact h1) (by rw [hmode]; exact h2)
  exact ⟨hm, hcause, rfl⟩

end

/-! #### Forwarded frames -/

section
variable {k : Instr} (hk : k ∈ [Instr.pktfwdRx l b, .cwFrameReceive l b 0]) (ht : (cwParse b).type = cwPKTFWD)
include hk ht

theorem pktfwd_comes : exec k s = .next (pktfwdTake (cameHere s l.val b) (cwParse b).payload) := by
  refine (consumed (x := .pktfwdRx l b) rfl hc ht hk).trans ?_
  unfold cwConsume
  rw [ht]
  rfl

theorem pktfwd_no_cells (h : takeCells (cameHere s l.val b) 24 ((((cwParse b).payload.drop 16).length + 255) / 256) = none) : Puts k s (arrived s l.val b) := by
  refine (pktfwd_comes hc hk ht).trans (congrArg _ ?_)
  unfold pktfwdTake
  dsimp only
  rw [h]
  rfl

theorem pktfwd_classified {cells : List Nat} {u : State} (h : takeCells (cameHere s l.val b) 24 ((((cwParse b).payload.drop 16).length + 255) / 256) = some (cells, u)) :
    exec k s = .next (classify (storeCells { u with freeCtr := u.freeCtr + 1 } ((cwParse b).payload.drop 16) cells)
      ⟨8, beAt (cwParse b).payload 8 4 * 256, beAt (cwParse b).payload 8 4, cells, (cwParse b).payload.drop 16⟩ (byteAt (cwParse b).payload 1 % 16)
      (beAt (cwParse b).payload 2 2) (Config.freeNat u.freeCtr % 16) (udpPayload ((cwParse b).payload.drop 16))) := by
  refine (pktfwd_comes hc hk ht).trans (congrArg _ ?_)
  unfold pktfwdTake
  dsimp only
  rw [h]
  rfl

end

/-! #### Bridges -/

omit hc in
theorem ofBE_beBytes (n v : Nat) : ofBE (beBytes n v) = v % 256 ^ n := by
  unfold ofBE beBytes
  rw [List.reverse_reverse, ofLE_leBytes]

omit hc in
/-- Bridge b takes a slot as R455 and R456 give it. -/
theorem bridgeSlot_taken (u : State) (n : Nat) (wb : Bool) (slot : List Byte) : bridgeSlot u n wb slot = slotTaken u n wb slot := by
  obtain ⟨hrx, htx, hno⟩ := slot_taken u n wb slot
  have hwb : u.on F.CWY_BR_CFG_WB n = wb ↔ u.rd F.CWY_BR_CFG_WB n = b2n wb := by
    rw [State.on_eq]
    rcases flag_cases u n (f := F.CWY_BR_CFG_WB) rfl with h | h <;> rw [h] <;> cases wb <;> decide
  rw [hwb] at hrx htx hno
  have hkind : u.rd F.CWY_BR_CFG_KIND n < 4 := State.rd_lt _ _ _
  unfold slotTaken
  dsimp only
  by_cases hb : u.rd F.CWY_BR_CFG_EN n = 1 ∧ u.rd F.CWY_BR_CFG_WB n = b2n wb
  · by_cases h2 : u.rd F.CWY_BR_CFG_KIND n = 2
    · rw [if_pos ⟨hb.1, hb.2, h2⟩, hrx hb h2]
    · rw [if_neg fun h => h2 h.2.2]
      by_cases h3 : u.rd F.CWY_BR_CFG_KIND n = 3
      · rw [if_pos ⟨hb.1, hb.2, h3⟩, htx hb h3]
      · rw [if_neg fun h => h3 h.2.2, hno (.inr (by omega))]
  · rw [if_neg fun h => hb ⟨h.1, h.2.1⟩, if_neg fun h => hb ⟨h.1, h.2.1⟩, hno (.inl hb)]

/-- An entry of a BRIDGE frame. -/
def SlotFits (e : Nat × Bool × List Byte) : Prop := e.1 < 1024 ∧ e.2.2.length = if e.2.1 then 64 else 32

omit hc in
/-- The bytes of the first entry, and what its tag says. -/
theorem bridge_head {e : Nat × Bool × List Byte} (he : SlotFits e) (rest : List Byte) :
    let p := (beBytes 4 (b2n e.2.1 * 2 ^ 15 + e.1) ++ e.2.2) ++ rest
    let n := if e.2.1 = true then 68 else 36
    bitOf (beAt p 0 4) 15 = e.2.1 ∧ beAt p 0 4 % 1024 = e.1 ∧ ¬ p.length < n ∧ (p.take n).drop 4 = e.2.2 ∧ p.drop n = rest := by
  intro p n
  obtain ⟨hid, hlen⟩ := he
  have htag : (beBytes 4 (b2n e.2.1 * 2 ^ 15 + e.1)).length = 4 := beBytes_length _ _
  have hhead : (beBytes 4 (b2n e.2.1 * 2 ^ 15 + e.1) ++ e.2.2).length = n := by
    show _ = if e.2.1 = true then 68 else 36
    rw [List.length_append, htag, hlen]
    cases e.2.1 <;> rfl
  have hword : beAt p 0 4 = b2n e.2.1 * 2 ^ 15 + e.1 := by
    have htake : (p.drop 0).take 4 = beBytes 4 (b2n e.2.1 * 2 ^ 15 + e.1) := by
      show ((beBytes 4 (b2n e.2.1 * 2 ^ 15 + e.1) ++ e.2.2) ++ rest).take 4 = _
      rw [List.append_assoc, List.take_append_of_le_length (by omega), List.take_of_length_le (by omega)]
    have hbit : b2n e.2.1 ≤ 1 := by cases e.2.1 <;> decide
    unfold beAt
    rw [htake, ofBE_beBytes, Nat.mod_eq_of_lt (by omega)]
  refine ⟨?_, ?_, ?_, ?_, ?_⟩
  · rw [hword]
    unfold bitOf
    have hdiv : (b2n e.2.1 * 2 ^ 15 + e.1) / 2 ^ 15 = b2n e.2.1 := by omega
    rw [hdiv]
    cases e.2.1 <;> rfl
  · rw [hword]
    omega
  · show ¬ ((beBytes 4 (b2n e.2.1 * 2 ^ 15 + e.1) ++ e.2.2) ++ rest).length < n
    rw [List.length_append, hhead]
    omega
  · show (((beBytes 4 (b2n e.2.1 * 2 ^ 15 + e.1) ++ e.2.2) ++ rest).take n).drop 4 = _
    rw [List.take_append_of_le_length (by omega), List.take_of_length_le (by omega), List.drop_append_of_le_length (by omega), List.drop_of_length_le (by omega)]
    rfl
  · show ((beBytes 4 (b2n e.2.1 * 2 ^ 15 + e.1) ++ e.2.2) ++ rest).drop n = _
    rw [List.drop_append_of_le_length (by omega), List.drop_of_length_le (by omega)]
    rfl

omit hc in
theorem bridge_takes (es : List (Nat × Bool × List Byte)) (fuel : Nat) (u : State) (hlen : es.length ≤ fuel) (hfit : ∀ e ∈ es, SlotFits e) :
    bridgeTake u (bridgeBytes es) fuel = es.foldl (fun u e => slotTaken u e.1 e.2.1 e.2.2) u := by
  induction es generalizing fuel u with
  | nil =>
    cases fuel with
    | zero => rfl
    | succ n => rfl
  | cons e r ih =>
    cases fuel with
    | zero => exact absurd hlen (by simp)
    | succ n =>
      obtain ⟨hbit, hid, hlong, hslot, hrest⟩ := bridge_head (hfit e (.head _)) (bridgeBytes r)
      have hbytes : bridgeBytes (e :: r) = (beBytes 4 (b2n e.2.1 * 2 ^ 15 + e.1) ++ e.2.2) ++ bridgeBytes r := rfl
      rw [hbytes, List.foldl_cons, ← ih n _ (Nat.le_of_succ_le_succ hlen) fun e he => hfit e (.tail _ he), ← bridgeSlot_taken]
      show (if _ then u else _) = _
      rw [hbit, hid, if_neg hlong, hslot, hrest]

theorem bridge_comes {k : Instr} (hk : k ∈ [Instr.bridgeRx l b, .cwFrameReceive l b 0]) (ht : (cwParse b).type = cwBRIDGE) (es : List (Nat × Bool × List Byte))
    (hp : (cwParse b).payload = bridgeBytes es) (hlen : es.length ≤ 64) (hfit : ∀ e ∈ es, SlotFits e) :
    exec k s = .next (es.foldl (fun u e => slotTaken u e.1 e.2.1 e.2.2) (puts s (arrived s l.val b))) := by
  refine (consumed (x := .bridgeRx l b) rfl hc ht hk).trans (congrArg _ ?_)
  unfold cwConsume
  rw [ht]
  show bridgeTake (cameHere s l.val b) (cwParse b).payload 64 = _
  rw [hp, bridge_takes es 64 _ hlen hfit]
  rfl

/-! #### Boot frames -/

section
variable {k : Instr} (hk : k ∈ [Instr.bootRx l b, .cwFrameReceive l b 0]) (ht : (cwParse b).type = cwBOOT)
include hk ht

theorem boot_comes : exec k s = .next (bootFrame (cameHere s l.val b) (cwParse b)) := by
  refine (consumed (x := .bootRx l b) rfl hc ht hk).trans ?_
  unfold cwConsume
  rw [ht]
  rfl

theorem boot_ignored (h : cwBooting s = false) (h0 : beAt (cwParse b).payload 0 4 ≠ 0) : Puts k s (arrived s l.val b) := by
  refine (boot_comes hc hk ht).trans (congrArg _ ?_)
  unfold bootFrame
  rw [booting_here, h, if_neg (by decide), if_neg h0]
  rfl

theorem boot_takes (h : cwBooting s = true) : exec k s = .next (bootTake (cameHere s l.val b) (cwParse b).payload) := by
  refine (boot_comes hc hk ht).trans (congrArg _ ?_)
  unfold bootFrame
  rw [booting_here, h, if_pos rfl]

end

omit hc in
theorem bootTake_beyond {u : State} {p : List Byte} (h1 : beAt p 0 4 = 1) (h : 0x800000 < beAt p 4 4 + (p.length - 8)) : bootTake u p = u := by
  have hout : ¬ (inSymPks (0x20000000 + beAt p 4 4) (p.length - 8) && decide (beAt p 4 4 < 0x800000)) = true := by
    unfold inSymPks
    simp only [Bool.and_eq_true, Bool.or_eq_true, decide_eq_true_eq]
    omega
  unfold bootTake
  rw [h1]
  exact if_neg hout

omit hc in
theorem bootTake_image {u : State} {p : List Byte} (h : beAt p 0 4 = 2) : bootTake u p = puts u [(I.bootImg, 0, 1)] := by
  unfold bootTake
  rw [h]
  rfl

omit hc in
theorem bootTake_other {u : State} {p : List Byte} (h1 : beAt p 0 4 ≠ 1) (h2 : beAt p 0 4 ≠ 2) : bootTake u p = u := by
  unfold bootTake
  split
  next h => exact absurd h h1
  next h => exact absurd h h2
  next => rfl

end
end

/-- Settles O58: what a device sends is one frame on its way or a count in UNREACH; what it receives acts by the frame's type. -/
theorem causewayMessagesActAtTheirDevice : Obligations.CausewayMessagesActAtTheirDevice := by
  unfold Obligations.CausewayMessagesActAtTheirDevice
  refine ⟨fun s ini v => ⟨sends_stopped, fun h => ⟨revt_sends h, ⟨fence_stored h, fence_sends h⟩, ⟨ra_stored h, ra_sends h⟩, mbs_stored h, fun hg hok => ?_, mbs_sends h,
      fun hg hok h30 => ⟨mbs_boots h hg hok h30, fun hd hr => ?_⟩⟩⟩,
    fun s => ⟨raTimeout_no, raTimeout_ends, bootRequest_no, bootRequest_sends⟩,
    fun s l b => ⟨others_types, fun hp ho hr => ?_⟩⟩
  · exact (mbs_refused h hg hok).trans (by rw [puts_append]; rfl)
  · exact (mbs_lost h hg hok h30 hd hr).trans (by rw [puts_append]; rfl)
  have hc : Comes s l.val b := ⟨hp, ho⟩
  refine ⟨fun ht k hk => ⟨event_empty hc hk ht, event_flags hc hk ht⟩, fun c hm ht hb => ⟨fun hn => ?_, fun a hf ha => ?_⟩, fun ht k hk => ?_,
    fun ht k hk => ⟨rrsp_ignored hc hk ht, rrsp_ends hc hk ht⟩, fun ht k hk => ⟨fun h => fence_counted hc hk ht h (hr 7), fence_obeyed hc hk ht⟩,
    fun ht k hk => ⟨pktfwd_no_cells hc hk ht, fun cells u => pktfwd_classified hc hk ht⟩, fun ht es hes hlen hfit k hk => bridge_comes hc hk ht es hes hlen hfit,
    fun ht k hk => ⟨boot_ignored hc hk ht, fun hb => ⟨fun h1 h2 h3 => ?_, fun h1 h2 => ?_, fun h2 => ?_, fun h1 h2 => ?_⟩⟩⟩
  · exact (mail_comes hc hm ht hb).trans (congrArg _ (mail_counted (hr 5) hn))
  · exact (mail_comes hc hm ht hb).trans (congrArg _ (mail_stored hf ha))
  · exact racc_answered hc hk ht rfl rfl
  · exact (boot_takes hc hk ht hb).trans (congrArg _ (bootTake_data _ _ h1 h3 h2))
  · exact (boot_takes hc hk ht hb).trans (congrArg _ (bootTake_beyond h1 h2))
  · exact (boot_takes hc hk ht hb).trans (congrArg _ ((bootTake_image h2).trans (by rw [puts_append]; rfl)))
  · exact (boot_takes hc hk ht hb).trans (congrArg _ (bootTake_other h1 h2))

end Sys2Proof.Machine
end

section
/-! PROOFS.  Migrations as software and time move them (O59). -/

namespace Sys2Proof.Machine

open Safety

set_option Elab.async false

/-! ### The statements' words for an entry, and the model's -/

theorem migCtl_eq (s : State) (m id op why mask : Nat) : migCtl s m id op why mask = ctlFrame s (miPeer s m) op why id (s.rd F.CWY_M_T_T m) mask := rfl

theorem migEndCells_eq (s : State) (m e why : Nat) : migEndCells s m e why = miEnds s m e why := rfl

/-- An entry alone in its context that does not end in LOST ends without a Milestone. -/
theorem miEnd_ends {s : State} {m e why : Nat} (ha : AloneInContext s m) (he : e ≠ miLOST) : miEnd s m e why = puts s (migEndCells s m e why) := by
  rw [miEnd_says s m e why ha, if_neg he, migEndCells_eq]

/-- An entry that ends in LOST, where that is no trigger. -/
theorem miEnd_lost {s : State} {m why : Nat} (ha : AloneInContext s m) (hl : bitOf (s.rd F.MLS_ERRSEL_SEL) 9 = false) :
    miEnd s m miLOST why = puts s (migEndCells s m miLOST why) := by
  have hids : ∀ p ∈ miEnds s m miLOST why, p.1 ∈ [F.CWY_M_STAT_STATE, F.CWY_M_STAT_REASON, F.CWY_M_CTL_ABORT, F.CWY_IRQSTAT_MIG, I.ctxMoved, I.ctxMig] := by
    intro p hp
    unfold miEnds at hp
    split at hp <;> simp only [List.cons_append, List.nil_append, List.append_nil, List.mem_cons, List.not_mem_nil, or_false] at hp
    · rcases hp with rfl | rfl | rfl | rfl | rfl | rfl <;> simp
    · rcases hp with rfl | rfl | rfl | rfl | rfl <;> simp
  have hsel : (puts s (miEnds s m miLOST why)).rd F.MLS_ERRSEL_SEL = s.rd F.MLS_ERRSEL_SEL :=
    puts_cell _ _ _ _ fun p hp => (by decide : ∀ f ∈ [F.CWY_M_STAT_STATE, F.CWY_M_STAT_REASON, F.CWY_M_CTL_ABORT, F.CWY_IRQSTAT_MIG, I.ctxMoved, I.ctxMig],
      f.id ≠ F.MLS_ERRSEL_SEL.id) _ (hids p hp)
  rw [miEnd_says s m miLOST why ha, if_pos rfl, migEndCells_eq]
  unfold State.errEvent
  rw [hsel, hl]
  rfl

section
variable {s : State} {m : Fin 64}

/-! ### The control register -/

section
variable {ini : Init} {v : Word}

theorem ctl_stopped (h : s.fabric = false) : exec (.migGo ini m v) s = .next s ∧ exec (.migAbortWrite ini m v) s = .next s :=
  ⟨if_neg (by rw [h]; decide), if_neg (by rw [h]; decide)⟩

theorem busy_iff (s : State) (i : Nat) : miBusy s i = true ↔ miPRECOPY ≤ miSt s i ∧ miSt s i ≤ miRUNNING := by
  unfold miBusy
  rw [Bool.and_eq_true, decide_eq_true_eq, decide_eq_true_eq]

/-- GO alone: what the write of CWY_M_CTL makes of the entry. -/
theorem go_ctl {w : Nat} (h31 : bitOf w 31 = true) (h30 : bitOf w 30 = false) : mCtlWrite s m.val w =
    if miBusy s m.val = true then puts s (ctlFields m.val w)
    else if bitOf w 29 = true then destGo (puts s (ctlFields m.val w)) m.val else sourceGo (puts s (ctlFields m.val w)) m.val := by
  rw [mctl_says]
  dsimp only
  rw [h31, h30, if_neg (by decide), Bool.true_and]
  by_cases hb : miBusy s m.val = true
  · rw [if_pos hb, hb]
    rfl
  · rw [if_neg hb, if_pos (by simpa using hb)]

theorem migGo_next (h : s.fabric = true) : exec (.migGo ini m v) s = .next (mCtlWrite s m.val (setBit v.toNat 31)) := if_pos h

theorem setBit_sets (n k : Nat) : bitOf (setBit n k) k = true := by
  rw [bitOf_setBit, beq_self_eq_true, Bool.or_true]

section
variable (h : s.fabric = true) (h30 : bitOf (setBit v.toNat 31) 30 = false)
include h h30

theorem go_busy (hb : miBusy s m.val = true) : exec (.migGo ini m v) s = .next (puts s (ctlFields m.val (setBit v.toNat 31))) := by
  rw [migGo_next h, go_ctl (setBit_sets _ _) h30, if_pos hb]

theorem go_destination (hb : miBusy s m.val = false) (hr : bitOf (setBit v.toNat 31) 29 = true) : exec (.migGo ini m v) s = .next (puts s (ctlFields m.val (setBit v.toNat 31) ++
    [(F.CWY_M_STAT_STATE, m.val, miRECEIVING), (F.CWY_M_STAT_REASON, m.val, 0), (F.CWY_M_STAT_PAGES, m.val, 0), (I.ctxMig, miCid s m.val, 1), (I.migFresh, miCid s m.val, 1)])) := by
  obtain ⟨hsame, -⟩ := ctlFields_same s m.val (setBit v.toNat 31)
  obtain ⟨-, hcid, -⟩ := hsame.reads m.val
  rw [migGo_next h, go_ctl (setBit_sets _ _) h30, if_neg (by rw [hb]; decide), if_pos hr, destGo_says, hcid, puts_append]

theorem go_source {k : Nat} (hb : miBusy s m.val = false) (hr : bitOf (setBit v.toNat 31) 29 = false) (hp : ∀ p, p < 16 → lvl s (miCid s m.val) p ≠ 1) (ho : PeerOpen s m.val k) :
    exec (.migGo ini m v) s = .next (puts (sentFrame (puts s (ctlFields m.val (setBit v.toNat 31) ++ goCells s m.val)) k
      (migCtl s m.val (bits (setBit v.toNat 31) 15 0) opPCDONE 0 0)) [(F.CWY_M_STAT_STATE, m.val, miWAITARM)]) := by
  obtain ⟨hsame, halike, -, hid⟩ := ctlFields_same s m.val (setBit v.toNat 31)
  have hcid : miCid (puts s (ctlFields m.val (setBit v.toNat 31))) m.val = miCid s m.val := (hsame.reads m.val).2.1
  have hcells : goCells (puts s (ctlFields m.val (setBit v.toNat 31))) m.val = goCells s m.val := by
    unfold goCells
    rw [hcid]
  have hlvl : ∀ p, lvl (puts s (ctlFields m.val (setBit v.toNat 31))) (miCid s m.val) p = lvl s (miCid s m.val) p :=
    fun p => lvl_keep s _ (fun j => puts_rd_other [F.CWY_M_CTL_ROLE, F.CWY_M_CTL_TDM, F.CWY_M_CTL_MIGID] _ _ (by decide)) _ _
  have hnone : ∀ p, p < 16 → lvl (puts s (ctlFields m.val (setBit v.toNat 31))) (miCid (puts s (ctlFields m.val (setBit v.toNat 31))) m.val) p ≠ 1 := fun p h16 => by
    rw [hcid, hlvl]
    exact hp p h16
  obtain ⟨hgo, hpeer, ht, hid'⟩ := goCells_same (puts s (ctlFields m.val (setBit v.toNat 31))) m.val
  rw [migGo_next h, go_ctl (setBit_sets _ _) h30, if_neg (by rw [hb]; decide), if_neg (by rw [hr]; decide), sourceGo_says _ _ hnone,
    migctl_reads (halike.trans hgo) m.val opPCDONE 0 0 k _ (hpeer.trans (hsame F.CWY_M_PEER_PEERDEV (by simp) m.val)) (ht.trans (hsame F.CWY_M_T_T (by simp) m.val)) (hid'.trans hid) ho,
    hcells, migCtl_eq, puts_append s]
  rfl

end

theorem migAbort_next (h : s.fabric = true) : exec (.migAbortWrite ini m v) s = .next (mCtlWrite s m.val (setBit v.toNat 30)) := if_pos h

/-- ABORT on an entry that GO does not start. -/
theorem abort_ctl {w : Nat} (h30 : bitOf w 30 = true) (hg : bitOf w 31 = false ∨ miBusy s m.val = true) : mCtlWrite s m.val w =
    if miSt s m.val = miRECEIVING then destAbort (puts s (ctlFields m.val w)) m.val rsUSER
    else if miPRECOPY ≤ miSt s m.val ∧ miSt s m.val ≤ miFROZEN then puts s (ctlFields m.val w ++ [(F.CWY_M_CTL_ABORT, m.val, 1)])
    else puts s (ctlFields m.val w) := by
  have hgate : ¬ (bitOf w 31 && !miBusy s m.val) = true := by
    rcases hg with hg | hg <;> rw [hg]
    · rw [Bool.false_and]
      decide
    · simp
  obtain ⟨hsame, -⟩ := ctlFields_same s m.val w
  rw [mctl_says]
  dsimp only
  rw [if_pos h30, if_neg hgate, (hsame.reads m.val).1, puts_append]
  simp only [beq_iff_eq, Bool.and_eq_true, decide_eq_true_eq]
  rfl

section
variable (h : s.fabric = true) (hg : bitOf (setBit v.toNat 30) 31 = false ∨ miBusy s m.val = true)
include h hg

theorem abort_kept (h1 : miPRECOPY ≤ miSt s m.val) (h2 : miSt s m.val ≤ miFROZEN) :
    exec (.migAbortWrite ini m v) s = .next (puts s (ctlFields m.val (setBit v.toNat 30) ++ [(F.CWY_M_CTL_ABORT, m.val, 1)])) := by
  have hr : miSt s m.val ≠ miRECEIVING := fun he => by rw [he] at h2; exact absurd h2 (by decide)
  rw [migAbort_next h, abort_ctl (setBit_sets _ _) hg, if_neg hr, if_pos ⟨h1, h2⟩]

theorem abort_ignored (hs : miSt s m.val < miPRECOPY ∨ miFROZEN < miSt s m.val) (hr : miSt s m.val ≠ miRECEIVING) :
    exec (.migAbortWrite ini m v) s = .next (puts s (ctlFields m.val (setBit v.toNat 30))) := by
  rw [migAbort_next h, abort_ctl (setBit_sets _ _) hg, if_neg hr, if_neg (by omega)]

theorem abort_destination {k : Nat} (hr : miSt s m.val = miRECEIVING) (ho : PeerOpen s m.val k) (ha : AloneInContext s m.val) :
    exec (.migAbortWrite ini m v) s = .next (puts (sentFrame (puts s (ctlFields m.val (setBit v.toNat 30))) k
      (migCtl s m.val (bits (setBit v.toNat 30) 15 0) opABORT rsUSER 0)) (migEndCells s m.val miABORTED rsUSER)) := by
  obtain ⟨hsame, halike, -, hid⟩ := ctlFields_same s m.val (setBit v.toNat 30)
  rw [migAbort_next h, abort_ctl (setBit_sets _ _) hg, if_pos hr, destAbort_says halike hsame m.val rsUSER k _ hid ho ha, migCtl_eq, migEndCells_eq]

end
end

/-! ### T − FRZ -/

theorem timers_stopped (h : s.fabric = false) : ∀ k ∈ [Instr.migGuard m, .migTPass m, .migAckwait m, .migGraceEnd m], exec k s = .next s := by
  intro k hk
  simp only [List.mem_cons, List.not_mem_nil, or_false] at hk
  rcases hk with rfl | rfl | rfl | rfl <;> exact if_neg (by rw [h]; simp)

/-- T − FRZ has come for an armed source. -/
def FreezeDue (s : State) (i : Nat) : Prop := s.fabric = true ∧ miSt s i = miARMSEEN ∧ -(miFrz s i : Int) ≤ sinceT s i

/-- What a frozen source waits for. -/
def FrozenWaits (s : State) (i : Nat) : Prop := miHeld s i = true ∨ miQuar s i = true ∨ cwRoute s (miPeer s i) = none

theorem freeze_next (h : FreezeDue s m.val) : exec (.migFreeze m) s = .next (frozenStep (freeze s m.val) m.val) := by
  obtain ⟨h1, h2, h3⟩ := h
  exact if_pos (by rw [h1, h2, decide_eq_true h3]; rfl)

theorem freeze_again (h : ¬ FreezeDue s m.val) : exec (.migFreeze m) s = .next (frozenStep s m.val) := by
  refine if_neg fun hb => h ?_
  rw [Bool.and_eq_true, Bool.and_eq_true, beq_iff_eq, decide_eq_true_eq] at hb
  exact ⟨hb.1.1, hb.1.2, hb.2⟩

theorem frozen_not_due (h : miSt s m.val = miFROZEN) : ¬ FreezeDue s m.val := fun hd => absurd (hd.2.1.symm.trans h) (by decide)

theorem freeze_no (hd : ¬ FreezeDue s m.val) (h : miSt s m.val ≠ miFROZEN) : exec (.migFreeze m) s = .next s := by
  rw [freeze_again hd, frozen_other _ _ h]

theorem freeze_waits (hd : FreezeDue s m.val) (hw : FrozenWaits (puts (taskRegWrite s (miTid s m.val) 0x104 (putBit (cfgWord s (miTid s m.val)) 31 false))
      [(I.mTask, m.val, 1), (F.CWY_M_STAT_STATE, m.val, miFROZEN)]) m.val) :
    exec (.migFreeze m) s = .next (puts (taskRegWrite s (miTid s m.val) 0x104 (putBit (cfgWord s (miTid s m.val)) 31 false))
      [(I.mTask, m.val, 1), (F.CWY_M_STAT_STATE, m.val, miFROZEN)]) := by
  rw [freeze_next hd, freeze_says, frozen_waits _ _ hw]

theorem frozen_still (h : miSt s m.val = miFROZEN) (hw : FrozenWaits s m.val) : exec (.migFreeze m) s = .next s := by
  rw [freeze_again (frozen_not_due h), frozen_waits _ _ hw]

theorem frozen_commit {k : Nat} (h : miSt s m.val = miFROZEN) (hw : ¬ FrozenWaits s m.val) (ho : PeerOpen s m.val k)
    (hk : s.rd F.CWY_M_KEY0_VALID m.val = 0 ∧ s.rd F.CWY_M_KEY1_VALID m.val = 0) (hp : ∀ p, p < 16 → lvl s (miCid s m.val) p ≠ 1)
    (hd : clsDraining s = false) (ht : s.rd F.CWY_M_CTL_TDM m.val = 0) (hj : s.rd F.CWY_M_JBLEN_LEN m.val = 0) :
    exec (.migFreeze m) s = .next (puts (sentFrame (puts s [(F.CWY_M_STAT_PAGES, m.val, 0)]) k
      (migCtl s m.val (s.rd F.CWY_M_CTL_MIGID m.val) opCOMMIT 0 0)) [(F.CWY_M_STAT_STATE, m.val, miCOMMITTED)]) := by
  obtain ⟨hheld, hquar⟩ : miHeld s m.val = false ∧ miQuar s m.val = false :=
    ⟨Bool.eq_false_iff.mpr fun hh => hw (.inl hh), Bool.eq_false_iff.mpr fun hh => hw (.inr (.inl hh))⟩
  rw [freeze_again (frozen_not_due h), frozen_commits s m.val k h hheld hquar ho hk.1 hk.2 hp hd ht hj, migCtl_eq]

/-! ### T − GUARD -/

/-- T − GUARD has come for a source that has not committed. -/
def GuardRuns (s : State) (i : Nat) : Prop := miPRECOPY ≤ miSt s i ∧ miSt s i ≤ miFROZEN ∧ -(miGuard s i : Int) ≤ sinceT s i

/-- Why a source that has not committed cannot go on, in the order of R462. -/
def GuardFails (s : State) (i r : Nat) : Prop :=
  (miSt s i < miARMSEEN ∧ r = rsTIMEOUT) ∨ (miARMSEEN ≤ miSt s i ∧
    ((miHeld s i = true ∧ r = rsBUSYJOB) ∨ (miHeld s i = false ∧
      ((miQuar s i = true ∧ r = rsQUAR) ∨ (miQuar s i = false ∧ ((tdmBusy s i = true ∧ r = rsTDMBUSY) ∨ (tdmBusy s i = false ∧
        ((cwRoute s (miPeer s i) = none ∧ r = rsLINKDOWN) ∨ (¬ cwRoute s (miPeer s i) = none ∧ s.rd F.CWY_M_CTL_ABORT i = 1 ∧ r = rsUSER)))))))))

theorem ite_some_iff {c : Prop} [Decidable c] {a r : Nat} {o : Option Nat} : (if c then some a else o) = some r ↔ (c ∧ r = a) ∨ (¬ c ∧ o = some r) := by
  by_cases h : c
  · simp only [h, if_true, Option.some.injEq, true_and, not_true, false_and, or_false, eq_comm]
  · simp only [h, if_false, false_and, not_false_iff, true_and, false_or]

theorem guardReason_iff (s : State) (i r : Nat) : guardReason s i = some r ↔ GuardFails s i r := by
  unfold guardReason GuardFails
  rw [on_flag s i (f := F.CWY_M_CTL_ABORT) rfl]
  simp only [ite_some_iff, Nat.not_lt, Bool.not_eq_true, Option.isNone_iff_eq_none, decide_eq_true_eq, reduceCtorEq, and_false, or_false]

theorem guard_no (h : ¬ GuardRuns s m.val) : exec (.migGuard m) s = .next s := by
  refine if_neg fun hb => h ?_
  simp only [Bool.and_eq_true, decide_eq_true_eq] at hb
  exact ⟨hb.1.1.2, hb.1.2, hb.2⟩

section
variable (hf : s.fabric = true)
include hf

theorem guard_next (h : GuardRuns s m.val) : exec (.migGuard m) s = match guardReason s m.val with | some r => .next (miAbort s m.val r) | none => .next s := by
  obtain ⟨h1, h2, h3⟩ := h
  refine if_pos ?_
  rw [hf, decide_eq_true h1, decide_eq_true h2, decide_eq_true h3]
  rfl

theorem guard_goes_on (h : GuardRuns s m.val) (hn : ∀ r, ¬ GuardFails s m.val r) : exec (.migGuard m) s = .next s := by
  have hnone : guardReason s m.val = none := Option.eq_none_iff_forall_ne_some.mpr fun r hr => hn r ((guardReason_iff _ _ _).mp hr)
  rw [guard_next hf h, hnone]

/-- A source without forwarded keys or a disabled task aborts where it cannot be heard. -/
theorem guard_alone {r : Nat} (h : GuardRuns s m.val) (hr : GuardFails s m.val r) (ha : AloneInContext s m.val)
    (hk : s.rd F.CWY_M_KEY0_VALID m.val = 0 ∧ s.rd F.CWY_M_KEY1_VALID m.val = 0) (ht : s.rd I.mTask m.val = 0)
    (haway : cwRoute s (miPeer s m.val) = none) (hroom : s.rd F.CWY_CNT_COUNT 0 + 2 < 2 ^ 32) :
    Puts (.migGuard m) s (cwCounted s 0 :: migEndCells s m.val miABORTED r) := by
  have hsent : migctl s m.val opABORT r 0 = puts s [cwCounted s 0] := by
    unfold migctl
    rw [cwSend_unreach _ _ _ _ _ (.inr haway)]
    exact cwCnt_room _ _ hroom
  have hsame : SameMig s (puts s [cwCounted s 0]) := (SameMig.refl s).puts _ (by
    intro p hp q hq
    rw [List.mem_singleton.mp hp]
    exact (by decide : ∀ q ∈ [F.CWY_M_STAT_STATE, F.CWY_M_CTX_CID, F.CWY_M_CTX_TID, F.CWY_M_PEER_PEERDEV, F.CWY_M_T_T], F.CWY_CNT_COUNT.id ≠ q.id) q hq)
  have hcell : ∀ q : Fld, F.CWY_CNT_COUNT.id ≠ q.id → ∀ j, (puts s [cwCounted s 0]).rd q j = s.rd q j := fun q hq j => State.rd_wr_cell _ _ _ _ _ _ hq
  have hends : miAbort s m.val r = puts (puts s [cwCounted s 0]) (migEndCells s m.val miABORTED r) := by
    unfold miAbort
    dsimp only
    rw [hsent]
    generalize puts s [cwCounted s 0] = u at *
    have hk0 : u.rd F.CWY_M_KEY0_VALID m.val = 0 := (hcell _ (by decide) _).trans hk.1
    have hk1 : u.rd F.CWY_M_KEY1_VALID m.val = 0 := (hcell _ (by decide) _).trans hk.2
    rw [on_of_zero ((hcell I.mTask (by decide) _).trans ht), if_neg (by decide), (keyForward_none u m.val 0 hk0 hk1).2.1, (keyForward_none u m.val 1 hk0 hk1).2.1,
      miEnd_ends (hsame.alone ha) (by decide), migEndCells_eq, migEndCells_eq, hsame.ends]
  rw [show Puts (.migGuard m) s (cwCounted s 0 :: migEndCells s m.val miABORTED r) =
    (exec (.migGuard m) s = .next (puts (puts s [cwCounted s 0]) (migEndCells s m.val miABORTED r))) from rfl, guard_next hf h, (guardReason_iff _ _ _).mpr hr, ← hends]

theorem guard_tells {r k : Nat} (h : GuardRuns s m.val) (hr : GuardFails s m.val r) (ha : AloneInContext s m.val)
    (hk : s.rd F.CWY_M_KEY0_VALID m.val = 0 ∧ s.rd F.CWY_M_KEY1_VALID m.val = 0) (ht : s.rd I.mTask m.val = 0) (ho : PeerOpen s m.val k) :
    exec (.migGuard m) s = .next (puts (sentFrame s k (migCtl s m.val (s.rd F.CWY_M_CTL_MIGID m.val) opABORT r 0)) (migEndCells s m.val miABORTED r)) := by
  rw [guard_next hf h, (guardReason_iff _ _ _).mpr hr]
  exact congrArg _ (miAbort_says s m.val r k ho ha hk.1 hk.2 ht)

/-! ### T, T + ACKWAIT and T + GRACE -/

theorem tPass_next (h : 0 ≤ sinceT s m.val) : exec (.migTPass m) s =
    if (miSt s m.val == miRECEIVING) = true then .next (miEnd s m.val miABORTED rsTIMEOUT) else if (miSt s m.val == miARMED) = true then .next (miEnd s m.val miLOST 0) else .next s :=
  if_pos (by rw [hf, decide_eq_true h]; rfl)

theorem tPass_no (h : sinceT s m.val < 0 ∨ (miSt s m.val ≠ miRECEIVING ∧ miSt s m.val ≠ miARMED)) : exec (.migTPass m) s = .next s := by
  by_cases h0 : 0 ≤ sinceT s m.val
  · obtain ⟨h1, h2⟩ := h.resolve_left (Int.not_lt.mpr h0)
    rw [tPass_next hf h0, if_neg (by simpa using h1), if_neg (by simpa using h2)]
  · exact if_neg (by rw [decide_eq_false h0, Bool.and_false]; decide)

theorem tPass_receiving (h : 0 ≤ sinceT s m.val) (ha : AloneInContext s m.val) (hs : miSt s m.val = miRECEIVING) :
    Puts (.migTPass m) s (migEndCells s m.val miABORTED rsTIMEOUT) := by
  refine (tPass_next hf h).trans ?_
  rw [if_pos (by rw [hs]; rfl), miEnd_ends ha (by decide)]

theorem tPass_armed (h : 0 ≤ sinceT s m.val) (ha : AloneInContext s m.val) (hs : miSt s m.val = miARMED) (hl : bitOf (s.rd F.MLS_ERRSEL_SEL) 9 = false) :
    Puts (.migTPass m) s (migEndCells s m.val miLOST 0) := by
  refine (tPass_next hf h).trans ?_
  rw [if_neg (by rw [hs]; decide), if_pos (by rw [hs]; rfl), miEnd_lost ha hl]

theorem ackwait_next (h : miAckwait s m.val ≤ sinceT s m.val) : exec (.migAckwait m) s =
    if (miSt s m.val == miCOMMITTED) = true then .next (miEnd s m.val miLOST 0) else if (miSt s m.val == miRUNNING) = true then .next (miEnd s m.val miDONE 0) else .next s :=
  if_pos (by rw [hf, decide_eq_true h]; rfl)

theorem ackwait_no (h : sinceT s m.val < miAckwait s m.val ∨ (miSt s m.val ≠ miCOMMITTED ∧ miSt s m.val ≠ miRUNNING)) : exec (.migAckwait m) s = .next s := by
  by_cases h0 : miAckwait s m.val ≤ sinceT s m.val
  · obtain ⟨h1, h2⟩ := h.resolve_left (Int.not_lt.mpr h0)
    rw [ackwait_next hf h0, if_neg (by simpa using h1), if_neg (by simpa using h2)]
  · exact if_neg (by rw [decide_eq_false h0, Bool.and_false]; decide)

theorem ackwait_committed (h : miAckwait s m.val ≤ sinceT s m.val) (ha : AloneInContext s m.val) (hs : miSt s m.val = miCOMMITTED) (hl : bitOf (s.rd F.MLS_ERRSEL_SEL) 9 = false) :
    Puts (.migAckwait m) s (migEndCells s m.val miLOST 0) := by
  refine (ackwait_next hf h).trans ?_
  rw [if_pos (by rw [hs]; rfl), miEnd_lost ha hl]

theorem ackwait_running (h : miAckwait s m.val ≤ sinceT s m.val) (ha : AloneInContext s m.val) (hs : miSt s m.val = miRUNNING) :
    Puts (.migAckwait m) s (migEndCells s m.val miDONE 0) := by
  refine (ackwait_next hf h).trans ?_
  rw [if_neg (by rw [hs]; decide), if_pos (by rw [hs]; rfl), miEnd_ends ha (by decide)]

omit hf in
theorem grace_no (h : sinceT s m.val < miGrace s m.val ∨ miSt s m.val ≠ miGRACE) : exec (.migGraceEnd m) s = .next s := by
  refine if_neg ?_
  rcases h with h | h
  · rw [decide_eq_false (Int.not_le.mpr h), Bool.and_false]
    decide
  · intro hb
    rw [Bool.and_eq_true, Bool.and_eq_true, beq_iff_eq] at hb
    exact h hb.1.2

theorem grace_ends (h : miGrace s m.val ≤ sinceT s m.val) (hs : miSt s m.val = miGRACE) (ha : AloneInContext s m.val)
    (hk : s.rd F.CWY_M_KEY0_VALID m.val = 0 ∧ s.rd F.CWY_M_KEY1_VALID m.val = 0) : Puts (.migGraceEnd m) s (migEndCells s m.val miDONE 0) := by
  refine (if_pos (by rw [hf, hs, decide_eq_true h]; rfl)).trans (congrArg _ ?_)
  rw [(keyForward_none s m.val 0 hk.1 hk.2).2.2, (keyForward_none s m.val 1 hk.1 hk.2).2.2, miEnd_ends ha (by decide)]

end
end

/-- Settles O59: the writes of CWY_M_CTL, then the moments T − FRZ, T − GUARD, T, T + ACKWAIT and T + GRACE in turn. -/
theorem migrationsFollowTheirTimes : Obligations.MigrationsFollowTheirTimes := by
  unfold Obligations.MigrationsFollowTheirTimes
  refine fun s m => ⟨fun ini v => ⟨ctl_stopped, fun h => ⟨fun h30 => ⟨go_busy h h30, fun hb hr => ?_, fun k hb hr hp ho => ?_⟩,
      fun hg => ⟨abort_kept h hg, abort_ignored h hg, fun k => abort_destination h hg⟩⟩⟩, timers_stopped,
    ⟨freeze_no, freeze_waits, frozen_still, fun k h hw ho hk hp hd ht hj => frozen_commit h hw ho hk hp hd ht hj⟩,
    fun hf => ⟨⟨guard_no, guard_goes_on hf, fun r h hr ha hk ht => ⟨guard_alone hf h hr ha hk ht, fun k => guard_tells hf h hr ha hk ht⟩⟩,
      tPass_no hf, fun h ha => ⟨tPass_receiving hf h ha, tPass_armed hf h ha⟩, ackwait_no hf, fun h ha => ⟨ackwait_committed hf h ha, ackwait_running hf h ha⟩,
      grace_no, grace_ends hf⟩⟩
  · refine (go_destination h h30 hb hr).trans ?_
    rw [List.append_assoc]
    rfl
  · refine (go_source h h30 hb hr hp ho).trans ?_
    rw [List.append_assoc]
    rfl

end Sys2Proof.Machine
end

section
/-! PROOFS.  The frames of a migration (O60). -/

namespace Sys2Proof.Machine

open Safety

set_option Elab.async false

section
variable {s : State} {l : Fin 14} {b : List Byte} {x : Instr}

/-! ### What is received -/

/-- The operations of MIGCTL frames: the command of each, its number, and the states in which it finds an entry. -/
def CtlOp (l : Fin 14) (b : List Byte) (o : Instr × Nat × List Nat) : Prop :=
  o ∈ [(Instr.pcdone l b, opPCDONE, [miRECEIVING]), (.armed l b, opARMED, [miPRECOPY, miWAITARM]), (.commit l b, opCOMMIT, [miARMED]),
    (.commitack l b, opCOMMITACK, [miCOMMITTED]), (.migAbortRx l b, opABORT, [miRECEIVING, miARMED])]

/-- An operation is received alone by its own command, and finds an entry in its states. -/
theorem ctlOp_says {o : Instr × Nat × List Nat} (ho : CtlOp l b o) :
    (∀ s, exec o.1 s = .next (cwReceiveIf (isMigctl b o.2.1) s l.val 0 b)) ∧ opStates o.2.1 = o.2.2 := by
  simp only [CtlOp, List.mem_cons, List.not_mem_nil, or_false] at ho
  rcases ho with rfl | rfl | rfl | rfl | rfl <;> exact ⟨fun _ => rfl, rfl⟩

theorem isMigctl_iff (op : Nat) : isMigctl b op = true ↔ (cwParse b).type = cwMIGCTL ∧ byteAt b 16 = op := by
  unfold isMigctl isFrame
  rw [Bool.and_eq_true, beq_iff_eq, beq_iff_eq]
  rfl

theorem op_other {o : Instr × Nat × List Nat} (ho : CtlOp l b o) (h : ¬ ((cwParse b).type = cwMIGCTL ∧ byteAt b 16 = o.2.1)) : exec o.1 s = .next s := by
  have hno : isMigctl b o.2.1 = false := Bool.eq_false_iff.mpr (mt (isMigctl_iff _).mp h)
  rw [(ctlOp_says ho).1, hno]
  rfl

/-- A MIGCTL frame, by the command of its operation as among all frames. -/
theorem op_comes (hc : Comes s l.val b) {o : Instr × Nat × List Nat} (ho : CtlOp l b o) (ht : (cwParse b).type = cwMIGCTL) (hop : byteAt b 16 = o.2.1) {k : Instr}
    (hk : k ∈ [o.1, .cwFrameReceive l b 0]) : exec k s = .next (migctlRx (cameHere s l.val b) (cwParse b).src (cwParse b).payload) := by
  have hrcv : cwReceive s l.val 0 b = migctlRx (cameHere s l.val b) (cwParse b).src (cwParse b).payload := by
    rw [receive_ours _ _ _ _ hc.place hc.ours]
    unfold cwConsume
    rw [ht]
    rfl
  have hyes : isMigctl b o.2.1 = true := (isMigctl_iff _).mpr ⟨ht, hop⟩
  simp only [List.mem_cons, List.not_mem_nil, or_false] at hk
  rcases hk with rfl | rfl
  · rw [(ctlOp_says ho).1, hyes, ← hrcv]
    rfl
  · exact congrArg _ hrcv

/-- The first byte of a payload is the 17th of its frame. -/
theorem payload_op (hp : FrameInPlace s l.val b) (h16 : 16 ≤ (cwParse b).payload.length) : byteAt (cwParse b).payload 0 = byteAt b 16 := by
  obtain ⟨⟨-, hlen, -⟩, -⟩ := hp
  have hpay : (cwParse b).payload.length ≤ b.length - 20 := List.length_take_le _ _
  exact payload_byte b 0 hlen (by omega)

theorem match_here (src id : Nat) (sts : List Nat) : miMatch (cameHere s l.val b) src id sts = miMatch s src id sts := match_arrived _ _ _ _ _ _

theorem drop_counts (hr : s.rd F.CWY_CNT_COUNT 2 + 2 < 2 ^ 32) : migDrop (cameHere s l.val b) = puts s (arrived s l.val b ++ [cwCounted s 2]) := cameHere_counts hr

/-! ### Pages -/

section
variable (hc : Comes s l.val b) {k : Instr} (hk : k ∈ [Instr.migpageRx l b, .cwFrameReceive l b 0]) (ht : (cwParse b).type = cwMIGPAGE)
include hc hk ht

theorem page_comes : exec k s = .next (migpageRx (cameHere s l.val b) (cwParse b).src (cwParse b).payload) := by
  refine (consumed (x := .migpageRx l b) rfl hc ht hk).trans ?_
  unfold cwConsume
  rw [ht]
  rfl

theorem page_unmatched (hr : s.rd F.CWY_CNT_COUNT 2 + 2 < 2 ^ 32) (hn : miMatch s (cwParse b).src (beAt (cwParse b).payload 2 2) [miRECEIVING, miARMED] = none) :
    Puts k s (arrived s l.val b ++ [cwCounted s 2]) := by
  refine (page_comes hc hk ht).trans (congrArg _ ?_)
  unfold migpageRx
  rw [match_here, hn]
  exact drop_counts hr

theorem page_matched {m : Nat} (hm : miMatch s (cwParse b).src (beAt (cwParse b).payload 2 2) [miRECEIVING, miARMED] = some m) :
    exec k s = .next (migPage (cameHere s l.val b) m (cwParse b).payload) := by
  refine (page_comes hc hk ht).trans (congrArg _ ?_)
  unfold migpageRx
  rw [match_here, hm]

end

theorem jb_here {m : Nat} {p : List Byte} (h : byteAt p 0 = 1) (h1 : beAt p 4 4 + (p.drop 16).length ≤ 65536)
    (h2 : 64 * s.rd F.CWY_M_JBDST_OFS m + beAt p 4 4 + (p.drop 16).length ≤ 0x2000000) :
    migPage (cameHere s l.val b) m p = physWrite (puts s (arrived s l.val b)) (pksBase + (64 * s.rd F.CWY_M_JBDST_OFS m + beAt p 4 4)) (p.drop 16) := by
  have hofs : (cameHere s l.val b).rd F.CWY_M_JBDST_OFS m = s.rd F.CWY_M_JBDST_OFS m := cameHere_rd _ _ _ _ _ (by decide)
  rw [page_jb _ _ _ h h1 (by rw [hofs]; exact h2), hofs]
  rfl

/-- A MIGPAGE for a page, within it, is written through CPG; the last bytes of the page mark it. -/
theorem cpg_here {m : Nat} {p : List Byte} (h : byteAt p 0 = 0) (h1 : beAt p 4 4 + (p.drop 16).length ≤ 4096) :
    migPage (cameHere s l.val b) m p =
      if beAt p 4 4 + (p.drop 16).length = 4096 then
        puts (cpgWrite (puts s (arrived s l.val b)) (miCid s m) (byteAt p 1 % 16) (beAt p 4 4) (p.drop 16))
          [(F.CWY_M_STAT_PAGES, m, setBit ((cpgWrite (puts s (arrived s l.val b)) (miCid s m) (byteAt p 1 % 16) (beAt p 4 4) (p.drop 16)).rd F.CWY_M_STAT_PAGES m) (byteAt p 1 % 16))]
      else cpgWrite (puts s (arrived s l.val b)) (miCid s m) (byteAt p 1 % 16) (beAt p 4 4) (p.drop 16) := by
  have hcid : miCid (cameHere s l.val b) m = miCid s m := cameHere_rd _ _ _ _ _ (by decide)
  unfold migPage
  dsimp only
  rw [if_neg (by omega), if_pos h1, hcid]
  unfold cameHere
  generalize cpgWrite (puts s (arrived s l.val b)) (miCid s m) (byteAt p 1 % 16) (beAt p 4 4) (p.drop 16) = u
  by_cases hq : beAt p 4 4 + (p.drop 16).length = 4096
  · rw [if_pos hq, if_pos (by omega)]
    rfl
  · rw [if_neg hq, if_neg (by omega)]

/-- A page that is in DRAM, and in no frame, is written there. -/
theorem dram_here {cid v ofs : Nat} {d : List Byte} (h : lvl s cid v = 2) (hf : (frames s).filter (fun j => holds s j cid v) = []) :
    cpgWrite (puts s (arrived s l.val b)) cid v ofs d = physWrite (puts s (arrived s l.val b)) (slotAddr s cid v + ofs) d := by
  have hlvl : lvl (cameHere s l.val b) cid v = lvl s cid v := cameHere_rd _ _ _ _ _ (by decide)
  have hslot : slotAddr (cameHere s l.val b) cid v = slotAddr s cid v := by
    unfold slotAddr
    rw [cameHere_rd _ _ _ _ _ (by decide)]
  have hframes : frames (cameHere s l.val b) = frames s := arrived_nonzero _ _ _ _ (by decide) (by decide)
  have hholds : (fun j => holds (cameHere s l.val b) j cid v) = fun j => holds s j cid v := by
    funext j
    unfold holds frSt
    rw [cameHere_rd _ _ _ F.CPG_FRAME_CID _ (by decide), cameHere_rd _ _ _ F.CPG_FRAME_VPAGE _ (by decide), cameHere_rd _ _ _ F.CPG_FRAME_STATE _ (by decide),
      cameHere_on _ _ _ I.frBad _ (by decide)]
  have hwrite := dram_write (cameHere s l.val b) cid v ofs d (hlvl.trans h) (by rw [hframes, hholds]; exact hf)
  rw [hslot] at hwrite
  exact hwrite

/-! ### MIGCTL -/

section
variable (hc : Comes s l.val b) (h16 : 16 ≤ (cwParse b).payload.length) {o : Instr × Nat × List Nat} (ho : CtlOp l b o) (ht : (cwParse b).type = cwMIGCTL) (hop : byteAt b 16 = o.2.1)
  {k : Instr} (hk : k ∈ [o.1, .cwFrameReceive l b 0])
include hc h16 ho ht hop hk

theorem op_unmatched (hr : s.rd F.CWY_CNT_COUNT 2 + 2 < 2 ^ 32) (hn : miMatch s (cwParse b).src (beAt (cwParse b).payload 2 2) o.2.2 = none) :
    Puts k s (arrived s l.val b ++ [cwCounted s 2]) := by
  refine (op_comes hc ho ht hop hk).trans (congrArg _ ?_)
  unfold migctlRx
  dsimp only
  rw [payload_op hc.place h16, hop, (ctlOp_says ho).2, match_here, hn]
  exact drop_counts hr

theorem op_matched {m : Nat} (hm : miMatch s (cwParse b).src (beAt (cwParse b).payload 2 2) o.2.2 = some m) :
    exec k s = .next (if o.2.1 = 1 then pcdone (cameHere s l.val b) m (beAt (cwParse b).payload 4 4) (beAt (cwParse b).payload 8 2)
      else if o.2.1 = 2 then (cameHere s l.val b).wr F.CWY_M_STAT_STATE m miARMSEEN
      else if o.2.1 = 3 then commit (cameHere s l.val b) m
      else if o.2.1 = 4 then (cameHere s l.val b).wr F.CWY_M_STAT_STATE m miGRACE
      else miEnd (cameHere s l.val b) m miABORTED (byteAt (cwParse b).payload 1 % 16)) := by
  refine (op_comes hc ho ht hop hk).trans (congrArg _ ?_)
  refine migctlRx_found ((payload_op hc.place h16).trans hop) ?_
  rw [(ctlOp_says ho).2, match_here]
  exact hm

end

/-! #### PCDONE -/

/-- The state in which a PCDONE has come and its mask is kept. -/
def maskKept (s : State) (i m mask : Nat) (b : List Byte) : State := puts s (arrived s i b ++ [(I.mPmask, m, mask)])

section
variable {m t mask : Nat}

theorem maskKept_wr : (cameHere s l.val b).wr I.mPmask m mask = maskKept s l.val m mask b := by
  unfold maskKept
  rw [puts_append]
  rfl

theorem maskKept_alike : SendAlike s (maskKept s l.val m mask b) := by
  rw [← maskKept_wr]
  exact (arrived_alike s l.val b).trans (puts_alike (cameHere s l.val b) [(I.mPmask, m, mask)] (by simp [sendCells, routeCells]; decide))

theorem maskKept_same : SameMig s (maskKept s l.val m mask b) := by
  rw [← maskKept_wr]
  exact (arrived_mig s l.val b).puts [(I.mPmask, m, mask)] (by simp; decide)

theorem maskKept_rd (q : Fld) (j : Nat) (hq : ∀ f ∈ [F.CWY_L_CNT_COUNT, I.cwRx, I.mPmask], f.id ≠ q.id) : (maskKept s l.val m mask b).rd q j = s.rd q j := by
  rw [← maskKept_wr, State.rd_wr_cell _ _ _ _ _ _ (hq _ (by simp))]
  exact cameHere_rd _ _ _ _ _ fun f hf => hq f (by simp only [List.mem_cons, List.not_mem_nil, or_false] at hf ⊢; tauto)

theorem pcdone_waits (h : ¬ Nat.land mask (s.rd F.CWY_M_STAT_PAGES m) = mask) : pcdone (cameHere s l.val b) m t mask = maskKept s l.val m mask b := by
  rw [pcdone_part _ _ _ _ (by rw [cameHere_rd _ _ _ _ _ (by decide)]; exact h), maskKept_wr]

/-- The checks of a destination whose pages have all come. -/
theorem pcdone_checks (h : Nat.land mask (s.rd F.CWY_M_STAT_PAGES m) = mask) : pcdone (cameHere s l.val b) m t mask =
    if ¬ t = s.rd F.CWY_M_T_T m then destAbort (maskKept s l.val m mask b) m rsBADT
    else if ((pagesOf mask).any (fun v => notPresent s (miCid s m) v) || s.on F.TSU_T_CFG_EN (miTid s m)) = true then destAbort (maskKept s l.val m mask b) m rsBADLAYOUT
    else puts (migctl (maskKept s l.val m mask b) m opARMED 0 mask) [(F.CWY_M_STAT_PAGES, m, 0), (F.CWY_M_STAT_STATE, m, miARMED)] := by
  have hcid : miCid (cameHere s l.val b) m = miCid s m := cameHere_rd _ _ _ _ _ (by decide)
  have htid : miTid (cameHere s l.val b) m = miTid s m := cameHere_rd _ _ _ _ _ (by decide)
  have hnp : ∀ cid v, notPresent (cameHere s l.val b) cid v = notPresent s cid v := fun cid v => by
    unfold notPresent lvl
    rw [cameHere_rd _ _ _ _ _ (by decide), cameHere_on _ _ _ _ _ (by decide)]
  rw [pcdone_whole _ _ _ _ (by rw [cameHere_rd _ _ _ _ _ (by decide)]; exact h)]
  dsimp only
  rw [maskKept_wr, cameHere_rd _ _ _ F.CWY_M_T_T _ (by decide), hcid, htid, cameHere_on _ _ _ F.TSU_T_CFG_EN _ (by decide)]
  simp only [hnp, ne_eq]

/-- Is a destination ready: no page of the mask missing, the task disabled. -/
theorem ready_iff (s : State) (cid tid mask : Nat) : ((pagesOf mask).any (fun v => notPresent s cid v) || s.on F.TSU_T_CFG_EN tid) = true ↔
    ¬ ((∀ v ∈ pagesOf mask, notPresent s cid v = false) ∧ s.rd F.TSU_T_CFG_EN tid = 0) := by
  rw [Bool.or_eq_true, List.any_eq_true, not_and_or, State.on_eq, bne_iff_ne]
  simp only [not_forall, Bool.not_eq_false, exists_prop, ne_eq]

variable (h : Nat.land mask (s.rd F.CWY_M_STAT_PAGES m) = mask) {r : Nat} (hopen : PeerOpen s m r)
include h hopen

theorem pcdone_bad_time (hs : ¬ t = s.rd F.CWY_M_T_T m) (ha : AloneInContext s m) : pcdone (cameHere s l.val b) m t mask =
    puts (sentFrame (maskKept s l.val m mask b) r (migCtl s m (s.rd F.CWY_M_CTL_MIGID m) opABORT rsBADT 0)) (migEndCells s m miABORTED rsBADT) := by
  rw [pcdone_checks h, if_pos hs, destAbort_says maskKept_alike maskKept_same m rsBADT r _ (maskKept_rd _ _ (by decide)) hopen ha, migCtl_eq, migEndCells_eq]

theorem pcdone_bad_layout (hs : t = s.rd F.CWY_M_T_T m)
    (hr : ¬ ((∀ v ∈ pagesOf mask, notPresent s (miCid s m) v = false) ∧ s.rd F.TSU_T_CFG_EN (miTid s m) = 0)) (ha : AloneInContext s m) :
    pcdone (cameHere s l.val b) m t mask =
      puts (sentFrame (maskKept s l.val m mask b) r (migCtl s m (s.rd F.CWY_M_CTL_MIGID m) opABORT rsBADLAYOUT 0)) (migEndCells s m miABORTED rsBADLAYOUT) := by
  rw [pcdone_checks h, if_neg (not_not.mpr hs), if_pos ((ready_iff _ _ _ _).mpr hr),
    destAbort_says maskKept_alike maskKept_same m rsBADLAYOUT r _ (maskKept_rd _ _ (by decide)) hopen ha, migCtl_eq, migEndCells_eq]

theorem pcdone_armed (hs : t = s.rd F.CWY_M_T_T m)
    (hr : (∀ v ∈ pagesOf mask, notPresent s (miCid s m) v = false) ∧ s.rd F.TSU_T_CFG_EN (miTid s m) = 0) :
    pcdone (cameHere s l.val b) m t mask = puts (sentFrame (maskKept s l.val m mask b) r (migCtl s m (s.rd F.CWY_M_CTL_MIGID m) opARMED 0 mask))
      [(F.CWY_M_STAT_PAGES, m, 0), (F.CWY_M_STAT_STATE, m, miARMED)] := by
  rw [pcdone_checks h, if_neg (not_not.mpr hs), if_neg (mt (ready_iff _ _ _ _).mp (not_not.mpr hr)),
    migctl_says maskKept_alike maskKept_same m opARMED 0 mask r _ (maskKept_rd _ _ (by decide)) hopen, migCtl_eq]

end

/-! #### COMMIT and ABORT -/

section
variable {m : Nat}

theorem sinceT_here : sinceT (cameHere s l.val b) m = sinceT s m := by
  unfold sinceT tbNs
  rw [cameHere_rd _ _ _ _ _ (by decide), cameHere_rd _ _ _ _ _ (by decide)]

theorem tdmBusy_here : tdmBusy (cameHere s l.val b) m = tdmBusy s m := by
  unfold tdmBusy miSwapt
  rw [cameHere_on _ _ _ _ _ (by decide), cameHere_on _ _ _ _ _ (by decide), cameHere_rd _ _ _ _ _ (by decide), cameHere_rd _ _ _ _ _ (by decide), cameHere_rd _ _ _ _ _ (by decide)]

theorem endCells_here (e why : Nat) : migEndCells (cameHere s l.val b) m e why = migEndCells s m e why := by
  rw [migEndCells_eq, migEndCells_eq]
  exact (arrived_mig s l.val b).ends _ _ _

theorem alone_here (ha : AloneInContext s m) : AloneInContext (cameHere s l.val b) m := (arrived_mig s l.val b).alone ha

theorem commit_lost (h : 0 ≤ sinceT s m ∨ tdmBusy s m = true) (ha : AloneInContext s m) (hl : bitOf (s.rd F.MLS_ERRSEL_SEL) 9 = false) :
    commit (cameHere s l.val b) m = puts s (arrived s l.val b ++ migEndCells s m miLOST 0) := by
  have hgate : (decide (0 ≤ sinceT (cameHere s l.val b) m) || tdmBusy (cameHere s l.val b) m) = true := by
    rw [sinceT_here, tdmBusy_here, Bool.or_eq_true, decide_eq_true_eq]
    exact h
  have hend : commit (cameHere s l.val b) m = miEnd (cameHere s l.val b) m miLOST 0 := if_pos hgate
  rw [hend, miEnd_lost (alone_here ha) (by rw [cameHere_rd _ _ _ _ _ (by decide)]; exact hl), endCells_here, puts_append]
  rfl

theorem cfgWord_here (t : Nat) : cfgWord (cameHere s l.val b) t = cfgWord s t := by
  unfold cfgWord
  rw [cameHere_rd _ _ _ F.TSU_T_CFG_EN _ (by decide), cameHere_rd _ _ _ F.TSU_T_CFG_PRE _ (by decide), cameHere_rd _ _ _ F.TSU_T_CFG_ALL _ (by decide),
    cameHere_rd _ _ _ F.TSU_T_CFG_SGEN _ (by decide), cameHere_rd _ _ _ F.TSU_T_CFG_LEVEL _ (by decide), cameHere_rd _ _ _ F.TSU_T_CFG_BLEVEL _ (by decide),
    cameHere_rd _ _ _ F.TSU_T_CFG_AFF _ (by decide)]

/-- The state in which COMMIT has enabled the task. -/
def taskEnabled (s : State) (i m : Nat) (b : List Byte) : State :=
  taskRegWrite (puts s (arrived s i b)) (miTid s m) 0x104 (putBit (cfgWord s (miTid s m)) 31 true)

theorem commit_answered {r : Nat} (h : sinceT s m < 0) (ht : s.rd F.CWY_M_CTL_TDM m = 0) (ho : PeerOpen (taskEnabled s l.val m b) m r) :
    commit (cameHere s l.val b) m = puts (sentFrame (taskEnabled s l.val m b) r
      (migCtl (taskEnabled s l.val m b) m ((taskEnabled s l.val m b).rd F.CWY_M_CTL_MIGID m) opCOMMITACK 0 0)) [(F.CWY_M_STAT_STATE, m, miRUNNING)] := by
  have htid : miTid (cameHere s l.val b) m = miTid s m := cameHere_rd _ _ _ _ _ (by decide)
  have hen : miTaskEn (cameHere s l.val b) (miTid (cameHere s l.val b) m) true = taskEnabled s l.val m b := by
    rw [miTaskEn_says, htid, cfgWord_here]
    rfl
  rw [commit_says _ _ (by rw [sinceT_here]; exact h) (by rw [cameHere_rd _ _ _ _ _ (by decide)]; exact ht), hen,
    migctl_says ⟨fun _ _ _ => rfl, rfl, fun _ => rfl⟩ (.refl _) m opCOMMITACK 0 0 r _ rfl ho, migCtl_eq]

theorem end_here (ha : AloneInContext s m) (why : Nat) : miEnd (cameHere s l.val b) m miABORTED why = puts s (arrived s l.val b ++ migEndCells s m miABORTED why) := by
  rw [miEnd_ends (alone_here ha) (by decide), endCells_here, puts_append]
  rfl

theorem moved_here (v : Nat) : (cameHere s l.val b).wr F.CWY_M_STAT_STATE m v = puts s (arrived s l.val b ++ [(F.CWY_M_STAT_STATE, m, v)]) := by
  rw [puts_append]
  rfl

end
end

/-- Settles O60: a frame finds the entry of its peer and MIGID in a suitable state, or is counted; the entry then moves as its operation says. -/
theorem migrationFramesMoveTheirEntry : Obligations.MigrationFramesMoveTheirEntry := by
  unfold Obligations.MigrationFramesMoveTheirEntry
  refine fun s l b => ⟨fun h => other_type (l := l) rfl h, fun o ho => op_other (l := l) ho, fun hp hours hr h16 => ?_⟩
  have hc : Comes s l.val b := ⟨hp, hours⟩
  refine ⟨fun ht k hk => ⟨page_unmatched hc hk ht hr, fun m hm => ⟨fun h h1 h2 => ?_, fun h h1 => ⟨?_, fun hlvl hf => dram_here hlvl hf⟩⟩⟩,
    fun o ho ht hop k hk => ⟨op_unmatched hc h16 ho ht hop hk hr, fun m hm => ?_⟩⟩
  · exact (page_matched hc hk ht hm).trans (congrArg _ (jb_here h h1 h2))
  · exact (page_matched hc hk ht hm).trans (congrArg _ (cpg_here h h1))
  have hexec := op_matched hc h16 ho ht hop hk hm
  refine ⟨fun h1 => ?_, fun h2 => ?_, fun h3 => ?_, fun h4 => ?_, fun h5 ha => ?_⟩
  · rw [h1, if_pos rfl] at hexec
    refine ⟨fun hw => hexec.trans (congrArg _ (pcdone_waits hw)), fun r hw hopen => ⟨fun hs ha => hexec.trans (congrArg _ (pcdone_bad_time hw hopen hs ha)),
      fun hs hready ha => hexec.trans (congrArg _ (pcdone_bad_layout hw hopen hs hready ha)), fun hs hready => hexec.trans (congrArg _ (pcdone_armed hw hopen hs hready))⟩⟩
  · rw [h2, if_neg (by decide), if_pos rfl, moved_here] at hexec
    exact hexec
  · rw [h3, if_neg (by decide), if_neg (by decide), if_pos rfl] at hexec
    exact ⟨fun h ha hl => hexec.trans (congrArg _ (commit_lost h ha hl)), fun h htdm r hopen => hexec.trans (congrArg _ (commit_answered h htdm hopen))⟩
  · rw [h4, if_neg (by decide), if_neg (by decide), if_neg (by decide), if_pos rfl, moved_here] at hexec
    exact hexec
  · rw [h5, if_neg (by decide), if_neg (by decide), if_neg (by decide), if_neg (by decide), end_here ha] at hexec
    exact hexec

end Sys2Proof.Machine
end
